-- ==== Sys2Proof/Word.lean ====
section
/-! DEFINITION. The machine's words: bytes, 64-bit scalar words, virtual and physical addresses (R4, R5, R172, R175). -/

namespace Sys2Proof

/-- One byte of memory, scratchpad or a register image (R5). -/
abbrev Byte := BitVec 8

/-- A scalar register, a CSR or an MMIO register: 64 bits. -/
abbrev Word := BitVec 64

/-- A virtual address: 48 bits; bits [63:48] of an address operand are ignored (R172). -/
abbrev VAddr := BitVec 48

/-- A 32-bit word: an accumulator word or a tile container (R114, R122). -/
abbrev Word32 := BitVec 32

/-- The vector mask of one m register: one bit per element, at most 16,384 elements (R51, R288). -/
abbrev Mask := BitVec 16384

end Sys2Proof
end

