-- ==== Sys2Proof/Syntax.lean ====
section
/-! DEFINITION. The instruction set as syntax: one constructor per row of spec/opcode_table.json, the encoded
instructions first (R241 to R252, chapters 16 to 20), then the device operations and events, which have no encoding
and carry their inputs as arguments (spec/95_what_each_step_holds.md). -/

namespace Sys2Proof

/-- A scalar register number x0 to x31. -/
abbrev XReg := Fin 32
/-- A vector register number v0 to v31. -/
abbrev VReg := Fin 32
/-- A mask register number m0 to m7. -/
abbrev MReg := Fin 8
/-- A stream register number s0 to s3. -/
abbrev SReg := Fin 4
/-- A tile number t0 to t7. -/
abbrev TReg := Fin 8
/-- A stream `g0` to `g3` of the address generator, or a copy channel 0 to 3. -/
abbrev Lane4 := Fin 4

/-- Size codes of LD: 0 to 3 zero-extend, 4 to 6 sign-extend (R244). -/
inductive LdSize | b | h | w | d | bs | hs | ws
  deriving DecidableEq, Repr

/-- Access sizes of 1, 2, 4 and 8 bytes (R244). -/
inductive Sz | b | h | w | d
  deriving DecidableEq, Repr

/-- Scalar floating-point formats (R277). -/
inductive FFmt | f16 | bf16 | f32 | f64
  deriving DecidableEq, Repr

/-- Conditions of FCMP (R280). -/
inductive FCond | eq | lt | le | un
  deriving DecidableEq, Repr

/-- Types of FCVT (R282). -/
inductive CvtTy | f16 | bf16 | f32 | f64 | i32 | n32 | i64 | n64
  deriving DecidableEq, Repr

/-- Scopes, narrowest first (R11, R216). -/
inductive Scope | cr | cl | dv | sy
  deriving DecidableEq, Repr

/-- The two scopes a form may carry that turns `.cr` and `.cl` into `.dv` (R311, R325). -/
inductive WideScope | dv | sy
  deriving DecidableEq, Repr

/-- Ordering flags (R311). -/
inductive OrdFlag | acq | rel | ar
  deriving DecidableEq, Repr

/-- The ordering code of AMO, CAS and the copy commands: none, or a flag at `.dv` or `.sy` (R247, R311). -/
inductive Ord | none | flag (sc : WideScope) (f : OrdFlag)
  deriving DecidableEq, Repr

/-- AMO operations (Table 18.3). -/
inductive AmoOp | swap | add | and | or | xor | min | max | minn | maxn | fadd | fmin | fmax
  deriving DecidableEq, Repr

/-- VAMO operations (Table 18.5). -/
inductive VamoOp | swap | add | min | max
  deriving DecidableEq, Repr

/-- The second operand of a format V form (R286). -/
inductive VSrc | vv (r : VReg) | vx (r : XReg) | vi (imm : BitVec 5) | vs (s : SReg)
  deriving DecidableEq, Repr

/-- The second operand of the forms that accept only kinds vx and vi (Table 17.8). -/
inductive XISrc | vx (r : XReg) | vi (imm : BitVec 5)
  deriving DecidableEq, Repr

/-- The source of VMV: kinds vv, vx and vi (Table 17.8). -/
inductive MvSrc | vv (r : VReg) | vx (r : XReg) | vi (imm : BitVec 5)
  deriving DecidableEq, Repr

/-- Conditions of VCMP (Table 17.7). -/
inductive VCond | eq | ne | lt | le | gt | ge
  deriving DecidableEq, Repr

/-- Rounding modifiers of VCVT (R302). -/
inductive CvtMode | ne | z | sr | ef
  deriving DecidableEq, Repr

/-- Operations of VRED (R299). -/
inductive RedOp | sum | max | min | and | or | xor
  deriving DecidableEq, Repr

/-- Comparisons of VWAIT (R322). -/
inductive WaitCond | eq | ne | ge | lt
  deriving DecidableEq, Repr

/-- The field values of a boot stage whose reset is "L" (R8, R374): what Daleel or the firmware loads. -/
structure BootFields where
  plimit   : List Nat            -- PLIMIT(0) to PLIMIT(7)
  slh      : List (List Nat)     -- per partition, six masks
  dieh     : List (List Nat)     -- per partition, two masks
  partsel  : Fin 8
  ctxTable : Nat
  groupTable : Nat               -- where the table of group objects is set aside (R92)
  pwrcap   : Nat
  routineKey : List Byte         -- the routine-signing public key (R170)
  deriving DecidableEq, Repr

/-- The image of a boot stage as Daleel finds it (R374): its header and code, the digest it states for them, the key and the
signature that come with it, its version, and the fields it holds. -/
structure BootImage where
  body      : List Byte
  digest    : List Byte
  key       : List Byte
  signature : List Byte
  version   : Nat
  fields    : BootFields
  deriving DecidableEq, Repr

/-- What Daleel meets as it runs a boot stage: an image, which it checks and runs, none, or one whose self-test fails once it has been
checked. -/
inductive BootResult
  | image (i : BootImage)
  | absent
  | selfTest (i : BootImage)
  deriving DecidableEq, Repr

/-- A request header of the fabric (Table 12.3), with the fields a home slice acts on. -/
structure Header where
  comp   : Bool
  dedup  : Bool
  domain : BitVec 8
  size   : Fin 4
  base   : BitVec 48
  stride : BitVec 24
  count  : Fin 16385
  die    : Fin 4                 -- the requester's die, whose fabric carries it
  core   : Fin 256               -- REQ [12:5]
  unit   : Fin 32
  tag    : BitVec 8
  deriving DecidableEq, Repr

/-- What a BARRIER request asks of the home (R103, R104). -/
inductive BarrierReq
  | init (target : BitVec 32) (nosig : Bool)
  | arrive (n : Nat)
  | signal (n : BitVec 32)
  | gen
  deriving DecidableEq, Repr

/-- What a VINE request asks of the entry's home (R133). -/
inductive VineReq
  | countUp (page : Nat)
  | countDown (page : Nat)
  | readCommitted
  deriving DecidableEq, Repr

/-- What a CACHEOP request asks of the home (Table 20.4). -/
inductive CacheReq | prefetch | pin | unpin | flush | invalidate
  deriving DecidableEq, Repr

/-- An inbound Renram request (R236). -/
inductive PeerOp
  | read (n : Nat)
  | write (data : List Byte)
  | amoAdd (v : Word)
  | signal (n : BitVec 32)
  deriving DecidableEq, Repr

/-- What a contribution to a collective says of it (R238): the fields that the members must agree in, and the sender's rank. -/
structure ReductionHead where
  group   : BitVec 16
  tag     : BitVec 8
  op      : BitVec 4
  size    : Nat
  count   : Nat
  members : List (BitVec 16)
  rank    : Nat
  deriving DecidableEq, Repr

/-- What a scratchpad access asks of the owning core (R211). -/
inductive SpadReq
  | load (n : Nat)
  | store (data : List Byte)
  | amo (op : AmoOp) (dbl : Bool) (v : Word)
  deriving DecidableEq, Repr

/-- The instruction set and the device operations, one constructor per row of the opcode table. -/
inductive Instr
  -- OP (R265 to R268)
  | add (d a b : XReg) | sub (d a b : XReg) | and (d a b : XReg) | or (d a b : XReg) | xor (d a b : XReg)
  | sll (d a b : XReg) | srl (d a b : XReg) | sra (d a b : XReg) | rot (d a b : XReg)
  | slt (d a b : XReg) | sltn (d a b : XReg)
  | min (d a b : XReg) | max (d a b : XReg) | minn (d a b : XReg) | maxn (d a b : XReg)
  | mul (d a b : XReg) | mulh (d a b : XReg) | mulhn (d a b : XReg)
  | div (d a b : XReg) | divn (d a b : XReg) | rem (d a b : XReg) | remn (d a b : XReg)
  | clz (d a : XReg) | ctz (d a : XReg) | popc (d a : XReg) | bswap (d a : XReg)
  | bext (d a b : XReg) | bexts (d a b : XReg) | bins (d a b : XReg) | sel (d a b : XReg)
  -- immediates (R269 to R272)
  | addi (d a : XReg) (i : BitVec 14) | andi (d a : XReg) (i : BitVec 14) | ori (d a : XReg) (i : BitVec 14)
  | xori (d a : XReg) (i : BitVec 14) | slti (d a : XReg) (i : BitVec 14) | sltni (d a : XReg) (i : BitVec 14)
  | slli (d a : XReg) (s : BitVec 6) | srli (d a : XReg) (s : BitVec 6)
  | srai (d a : XReg) (s : BitVec 6) | roti (d a : XReg) (s : BitVec 6)
  | bexti (d a : XReg) (o w : BitVec 7) | bextsi (d a : XReg) (o w : BitVec 7) | binsi (d a : XReg) (o w : BitVec 7)
  | lui (d : XReg) (i : BitVec 19) | addpc (d : XReg) (i : BitVec 19)
  -- control flow (R273, R274)
  | jal (d : XReg) (o : BitVec 19) | jalr (d a : XReg) (i : BitVec 14)
  | beq (a b : XReg) (o : BitVec 11) | bne (a b : XReg) (o : BitVec 11) | blt (a b : XReg) (o : BitVec 11)
  | bge (a b : XReg) (o : BitVec 11) | bltn (a b : XReg) (o : BitVec 11) | bgen (a b : XReg) (o : BitVec 11)
  -- loads and stores (R275)
  | ld (z : LdSize) (d b : XReg) (i : BitVec 11) | st (z : Sz) (s b : XReg) (i : BitVec 11)
  -- scalar floating point (R277 to R282)
  | fadd (f : FFmt) (d a b : XReg) | fsub (f : FFmt) (d a b : XReg) | fmul (f : FFmt) (d a b : XReg)
  | fma (f : FFmt) (d a b : XReg) | fnma (f : FFmt) (d a b : XReg) | fdiv (f : FFmt) (d a b : XReg)
  | fsqrt (f : FFmt) (d a : XReg) | fmin (f : FFmt) (d a b : XReg) | fmax (f : FFmt) (d a b : XReg)
  | fcmp (f : FFmt) (q : FCond) (d a b : XReg) | fclass (f : FFmt) (d a : XReg)
  | fcvt (t s : CvtTy) (d a : XReg)
  -- atomics, FENCE, SBAR (R311 to R314)
  | amo (p : AmoOp) (dbl : Bool) (o : Ord) (d a b : XReg) | cas (dbl : Bool) (o : Ord) (d a b : XReg)
  | fence (t : OrdFlag) (c : Scope) | sbar (lead held : BitVec 5)
  -- SYS (R347 to R356)
  | csrrd (d : XReg) (c : BitVec 12) | csrwr (c : BitVec 12) (a : XReg) | csrxch (d : XReg) (c : BitVec 12) (a : XReg)
  | trapi (i : BitVec 8) | sysret | halt | yield | exit | exitG
  | cacheopPrefetch (a : XReg) | cacheopPin (a : XReg) | cacheopUnpin (a : XReg)
  | cacheopFlush (a : XReg) | cacheopInvalidate (a : XReg)
  | tlbinvPage (a : XReg) | tlbinvAll | waitevTimer (d : XReg) | waitevSlot (d : XReg)
  -- vine scalar (R325)
  | sqopen (d h p : XReg) | sqres (d h n : XReg) | sqst (z : Sz) (s h i : XReg) | sqcmt (c : WideScope) (h r : XReg)
  | sqlen (c : WideScope) (d h : XReg) | sqwait (c : WideScope) (d h n : XReg) | sqld (z : Sz) (d h i : XReg)
  | sqfork (d h b : XReg) | sqtrim (d h n : XReg) | sqdrop (h : XReg)
  -- barrier, group, queue (R327)
  | binit (c : Scope) (a b : XReg) | barr (c : Scope) (d a : XReg) (mk : MReg) | barrG (d : XReg) (k : Fin 6) (mk : MReg)
  | btest (c : Scope) (d a b : XReg) | bwait (c : Scope) (a b : XReg) | bwaitG (k : Fin 6)
  | signal (c : Scope) (a b : XReg) | gread (d : XReg) (k : Fin 6) (sel : Fin 5)
  | qapp (d q s : XReg) | qwait (q n : XReg)
  -- configuration (R288 to R290)
  | vcfg (d a : XReg) | vsetvl (d a : XReg) | vtag (t : BitVec 6) (n1 : Fin 32) (d : VReg) | vtagrd (d : XReg) (a : VReg)
  -- vector arithmetic (Table 17.4): c chain, m mask
  | vadd (c m : Bool) (d a : VReg) (b : VSrc) | vsub (c m : Bool) (d a : VReg) (b : VSrc)
  | vrsub (c m : Bool) (d a : VReg) (b : VSrc) | vmul (c m : Bool) (d a : VReg) (b : VSrc)
  | vmulh (c m : Bool) (d a : VReg) (b : VSrc) | vdiv (c m : Bool) (d a : VReg) (b : VSrc)
  | vrem (c m : Bool) (d a : VReg) (b : VSrc) | vmin (c m : Bool) (d a : VReg) (b : VSrc)
  | vmax (c m : Bool) (d a : VReg) (b : VSrc) | vand (c m : Bool) (d a : VReg) (b : VSrc)
  | vor (c m : Bool) (d a : VReg) (b : VSrc) | vxor (c m : Bool) (d a : VReg) (b : VSrc)
  | vsll (c m : Bool) (d a : VReg) (b : VSrc) | vsrl (c m : Bool) (d a : VReg) (b : VSrc)
  | vsra (c m : Bool) (d a : VReg) (b : VSrc)
  | vfma (c m : Bool) (d a : VReg) (b : VSrc) | vfnma (c m : Bool) (d a : VReg) (b : VSrc)
  | vabs (c m : Bool) (d a : VReg) | vneg (c m : Bool) (d a : VReg) | vsel (c : Bool) (d a : VReg) (b : VSrc)
  -- fixed point (Table 17.5)
  | vaddc (q : MReg) (c m : Bool) (d a : VReg) (b : VSrc) | vsubb (q : MReg) (c m : Bool) (d a : VReg) (b : VSrc)
  | vmadw (c m : Bool) (d a : VReg) (b : VSrc) | vnshr (c m : Bool) (d a : VReg) (b : VSrc)
  | vsadd (c m : Bool) (d a : VReg) (b : VSrc) | vssub (c m : Bool) (d a : VReg) (b : VSrc)
  | vavg (c m : Bool) (d a : VReg) (b : VSrc)
  -- masks (Table 17.7)
  | vcmp (q : VCond) (m : Bool) (d : MReg) (a : VReg) (b : VSrc)
  | mand (d a b : MReg) | mor (d a b : MReg) | mxor (d a b : MReg) | mandn (d a b : MReg) | mnot (d a : MReg)
  | mslide (d a : MReg) (k : Fin 4) | mpop (m : Bool) (d : XReg) (a : MReg) | mfirst (m : Bool) (d : XReg) (a : MReg)
  | mset (d : MReg) (k : Bool) | mmvMask (d a : MReg) | mmvToVector (d : VReg) (a : MReg)
  | mmvFromVector (d : MReg) (a : VReg)
  -- permutes and reductions (Table 17.8)
  | vslide (m : Bool) (d a : VReg) (b : XISrc) | vperm (m : Bool) (d a b : VReg) | vcomp (d a : VReg)
  | viota (m : Bool) (d : VReg) (a : MReg) | vmv (m : Bool) (d : VReg) (b : MvSrc)
  | vmvx (d : XReg) (a : VReg) (b : XISrc) | vmvi (d : VReg) (b a : XReg)
  | vred (m toX : Bool) (o : RedOp) (d : Fin 32) (a : VReg) | vscan (m : Bool) (d a : VReg)
  | vsegredSum (m : Bool) (d a : VReg) (b : XReg) | vsegredMax (m : Bool) (d a : VReg) (b : XReg)
  | vsegredMin (m : Bool) (d a : VReg) (b : XReg)
  -- special functions (R301)
  | vrcp (c m : Bool) (d a : VReg) | vrsq (c m : Bool) (d a : VReg) | vsqrt (c m : Bool) (d a : VReg)
  | vexp2 (c m : Bool) (d a : VReg) | vlog2 (c m : Bool) (d a : VReg) | vtanh (c m : Bool) (d a : VReg)
  -- conversions (R302 to R305)
  | vcvt (r : CvtMode) (c m : Bool) (d a : VReg) | vcvtScaled (r : CvtMode) (c m : Bool) (d a : VReg)
  | vamax (m : Bool) (a : VReg) | vscale (m : Bool) (f : BitVec 5) (d a : VReg)
  -- attention (R307 to R309)
  | vscore (m : Bool) (d a : VReg) (b : XReg) | vexpm (c m : Bool) (d a : VReg) (b : XReg)
  | vaccp (m : Bool) (d a : VReg) (b : XReg) | ssoft (d b : XReg) (a : VReg)
  -- vector memory (R315 to R323)
  | vld (m : Bool) (g : Lane4) (d : VReg) (b : XReg) | vldStrided (m : Bool) (g : Lane4) (d : VReg) (b s : XReg)
  | vldseg (n : Fin 8) (m : Bool) (g : Lane4) (d : VReg) (b s : XReg)
  | vwait (x : WideScope) (q : WaitCond) (m : Bool) (g : Lane4) (v : VReg) (b : XReg) (i : VReg)
  | vst (m : Bool) (g : Lane4) (s : VReg) (b : XReg) | vstStrided (m : Bool) (g : Lane4) (s : VReg) (b i : XReg)
  | vstseg (n : Fin 8) (m : Bool) (g : Lane4) (s : VReg) (b i : XReg)
  | vldx (m : Bool) (g : Lane4) (d : VReg) (b : XReg) (i : VReg) | vstxU (m : Bool) (g : Lane4) (s : VReg) (b : XReg) (i : VReg)
  | vstxO (m : Bool) (g : Lane4) (s : VReg) (b : XReg) (i : VReg) | vscadd (m : Bool) (g : Lane4) (s : VReg) (b : XReg) (i : VReg)
  | vmergeu (kz : Bool) (d : VReg) (n : XReg) (a : VReg)
  | vamo (o : VamoOp) (x : WideScope) (r : Option OrdFlag) (m : Bool) (g : Lane4) (d : VReg) (b : XReg) (i : VReg)
  -- vine vector (R326)
  | vsqres (m : Bool) (g : Lane4) (d h : VReg) | vsqst (m : Bool) (g : Lane4) (s : VReg) (h i : XReg)
  | vsqstX (m : Bool) (g : Lane4) (s h i : VReg) | vsqcmt (x : WideScope) (m : Bool) (g : Lane4) (h i : VReg)
  | vsqld (m : Bool) (g : Lane4) (d : VReg) (h i : XReg) | vsqldX (m : Bool) (g : Lane4) (d h i : VReg)
  -- diagonal (Table 19.1)
  | dcfg (d x : XReg) | dzero (x : XReg) | dmac (a b : VReg) (x : XReg) | dmacD (a b : VReg) (x : XReg)
  | dmacg (a b : VReg) (x : XReg) | dxtr (ne m : Bool) (d : VReg) (x : XReg) | ddir (d x : XReg) | dfree (x : XReg)
  | dmv (d a b : VReg) (x : XReg) | dmvM (d a b : VReg) (x : XReg) | dpiv (m : Bool) (d a : VReg)
  | dupd (m : Bool) (a : VReg) (x : XReg)
  -- stream and copy (Table 20.1)
  | xcopy (ex : Bool) (z : Sz) (h : Lane4) (o : Ord) (d a : XReg) (b : VReg)
  | xgath (h : Lane4) (o : Ord) (d a : XReg) (b : VReg) | xxform (h : Lane4) (o : Ord) (a b : XReg)
  | xdrain (h : Lane4) | xchain (a : VReg) (b : XReg)
  | sbind (d : SReg) (a b : XReg) | srel (d : SReg) | sstat (d : XReg) (a : SReg)
  -- compressed (Table 15.5)
  | cAddi (d : XReg) (i : BitVec 6) | cLi (d : XReg) (i : BitVec 6) | cSlli (d : XReg) (s : BitVec 6)
  | cLd (d b : Fin 8) (o : BitVec 5) | cSt (s b : Fin 8) (o : BitVec 5)
  | cBeqz (a : Fin 8) (o : BitVec 8) | cBnez (a : Fin 8) (o : BitVec 8) | cJ (o : BitVec 11)
  | cMv (d s : XReg) | cAdd (d s : XReg) | cJr (a : XReg) | cNop
  -- tiles (Table 19.3) and LI64 (R249), prefixed
  | tzero (t : TReg) | trowmv (m : Bool) (t : TReg) (a : VReg) (x : XReg) | tcolmv (m : Bool) (d : VReg) (t : TReg) (x : XReg)
  | tmma (t : TReg) (a b : VReg) | tstat (d : XReg) | tsave (t : TReg) (a : XReg) | trest (t : TReg) (a : XReg)
  | li64 (d : XReg) (i : BitVec 51)
  -- device operations and events
  | coldReset | modulePowerOn | bootStage (r : BootResult) | bootStageTimeout | registerWrite (pa : Nat) (v : Word)
  | queueEnable (q : Fin 64) | queueDisable (q : Fin 64) | tailWrite (q : Fin 64) (v : Word)
  | entryFetch (q : Fin 64) | entryStart (q : Fin 64) | placeItems | timeSliceExpiry (q : Fin 64)
  | frameSave (n : Fin 4096) | restore (ctx : BitVec 12) | entryComplete (q : Fin 64) (seq : Nat)
  | watchdogExpiry (n : Fin 4096) | eventRecordWrite | evheadWrite (v : Word) | evovfRead | vunpark (v : Word)
  | svcqHeadPoll (ctx : BitVec 12) | relqHeadPoll (ctx : BitVec 12)
  | stripIssue (core : Fin 1024) | slotBoundary (core : Fin 1024)
  | routineLoad (v : Word) | routineUnload (v : Word) | routineLoadDone
  | ecallRead (e : Fin 64) (va : VAddr) (loc : Nat) (n : Nat) | ecallWrite (e : Fin 64) (va : VAddr) (loc : Nat) (n : Nat)
  | ecallWait (e : Fin 64)
  | routineReturn (e : Fin 64) (a0 : Word) | routineTimeout (e : Fin 64)
  | copyAccept (n : Fin 4096) | copyExecute (core : Fin 1024) (ch : Lane4) (k : Nat)
  | ringWriteResume (core : Fin 1024) (ch : Lane4) (k : Nat) | chainGroupDelivery (n : Fin 4096)
  | tileTransferEnd (n : Fin 4096) (t : TReg) | walkComplete (die : Fin 4) (ctx : BitVec 12) (va : VAddr)
  | vwaitTimeout (n : Fin 4096) | waitevDeadline (n : Fin 4096)
  | pageUpdate (v : Word) | pageUnmap (v : Word) | pageMove (v : Word) | pgcmdBadOp (v : Word) | moveComplete
  | collectorRun (p : Fin 8) | cleanerWriteback (line : Nat) | patrolScrub (line : Nat) | dedupSample (die : Fin 4)
  | read (h : Header) | write (h : Header) (data : List Byte) | atomic (h : Header) (op : AmoOp) (v : Word)
  | vatom (h : Header) (op : VamoOp) (t : BitVec 6) (data : List Word) | barrier (h : Header) (r : BarrierReq)
  | vine (ctx : BitVec 12) (handle : BitVec 32) (r : VineReq) | cacheop (h : Header) (ctx : BitVec 12) (r : CacheReq)
  | watch (h : Header) (n : Fin 4096) | fill (h : Header) | gfill (h : Header)
  | heldWriteProceed | rdcInvalidate (die : Fin 4) (line : Nat) | reply (core : Fin 1024) (line : Nat) (data : List Byte)
  | signalAnswer (n : Fin 4096) (nack : Bool)
  | hostPostedWrite (pa : Nat) (data : List Byte) | hostRead (pa : Nat) (n : Nat) | cxlSnoop (line : Nat)
  | peerRequest (port : Fin 18) (snode : BitVec 10) (export_ : Fin 64) (off : Nat) (op : PeerOp)
  | portEnable (k : Fin 18) | portDisable (k : Fin 18) | portRetrain (k : Fin 18)
  | partnerFound (k : Fin 18) (sw : Bool) (node : BitVec 10) (pport : BitVec 9)
  | trainingTimeout (k : Fin 18) | retrainFailed (k : Fin 18) | downRetry (k : Fin 18)
  | flitReceive (k : Fin 18) (flit : List Byte) | nakReceive (k : Fin 18) (seq : BitVec 12)
  | collectiveDoorbell (v : Word) | collectiveStart | reductionFlit (h : ReductionHead) (nf : Bool) (data : List Byte)
  | collectiveRefusal (group : BitVec 16) | collectiveTimeout | collectiveComplete
  | laneGroupRetire (core : Fin 1024) (mask : BitVec 4) | lgceRead (core : Fin 1024) | powerCap (mw : Nat)
  | corePowerGate (core : Fin 1024)
  | attest | key | retire | unretire | list | dieresetEnter | dieresetLeave | mbcmdUnknown (op : BitVec 8) | mailboxDone
  | dieEnterReset (die : Fin 4) | fatalDieReset (die : Fin 4)
  | engineStrip (core : Fin 1024) | scratchpadAccess (pa : Nat) (r : SpadReq) | clsegsWrite (p : Fin 8) (v : Word)
  | hostReadCompletion (n : Fin 4096) (v : Word) | modulePowerLoss
  deriving DecidableEq, Repr

end Sys2Proof
end

