-- ==== Sys2Proof/WellFormed.lean ====
section
/-! DEFINITION. Which terms of Instr are instructions: the operand combinations that the entries exclude (R248, R267 to
R327), each check by name. A device operation is well formed when its inputs lie in the ranges the spec gives them. -/

namespace Sys2Proof

/-- The integer types of FCVT (R282). -/
def CvtTy.isInt : CvtTy → Bool
  | .i32 | .n32 | .i64 | .n64 => true
  | _ => false

/-- The checks a term can fail. -/
inductive IllFormed
  | cvtTypes      -- FCVT with S = D or both types integer (R282)
  | emptySet      -- SBAR with an empty set (R314)
  | scaleFormat   -- VSCALE naming a reserved tag (R305)
  | softRegs      -- SSOFT with m = 31 or d equal to m or m + 1 (R309)
  | oneField      -- VLDSEG or VSTSEG with one field (R317)
  | waitBase      -- VWAIT with base 31 (R322)
  | zeroRegister  -- a compressed form whose register field must not be 0 (R248)
  | zeroImmediate -- a compressed form whose immediate must not be 0 (R248)
  deriving DecidableEq, Repr

/-- The first check the term fails, or none. -/
def Instr.check : Instr → Option IllFormed
  | .fcvt t s _ _ => if t = s ∨ (t.isInt ∧ s.isInt) then some .cvtTypes else none
  | .sbar lead held => if lead = 0 ∨ held = 0 then some .emptySet else none
  | .vscale _ f _ _ => if f.toNat % 8 = 7 then some .scaleFormat else none
  | .ssoft d b _ => if b.val ≤ 30 ∧ d ≠ b ∧ d.val ≠ b.val + 1 then none else some .softRegs
  | .vldseg n _ _ _ _ _ | .vstseg n _ _ _ _ _ => if n = 0 then some .oneField else none
  | .vwait _ _ _ _ _ b _ => if b.val = 31 then some .waitBase else none
  | .cAddi d i => if d = 0 then some .zeroRegister else if i = 0 then some .zeroImmediate else none
  | .cLi d _ => if d = 0 then some .zeroRegister else none
  | .cSlli d s => if d = 0 then some .zeroRegister else if s = 0 then some .zeroImmediate else none
  | .cMv d s | .cAdd d s => if d = 0 ∨ s = 0 then some .zeroRegister else none
  | .cJr a => if a = 0 then some .zeroRegister else none
  | _ => none

/-- The term is an instruction. -/
def Instr.wf (i : Instr) : Bool := i.check.isNone

end Sys2Proof
end

