-- ==== Sys2Proof/Decode.lean ====
section
/-! DEFINITION. The decoder, total on any bits and rejecting by name, and after it the encoder, both written from the
encoding tables of the spec (R241 to R252 and the entries of chapters 16 to 20). -/

namespace Sys2Proof

/-- Why bits are no instruction: too few bytes for the length the first halfword gives, or an encoding that no entry
lists, a reserved bit among them (R251). -/
inductive Reject | truncated | unlisted
  deriving DecidableEq, Repr

/-- Bits [lo + n - 1 : lo] of w (zero has only zero bits). -/
def fld (w lo n : Nat) : Nat :=
  match w with
  | 0 => 0
  | v + 1 => (v + 1) / 2 ^ lo % 2 ^ n

/-- The five-bit register field at lo. -/
def xr (w lo : Nat) : Fin 32 := Fin.ofNat 32 (fld w lo 5)
/-- A three-bit number at lo: a mask, a tile or a compressed register field. -/
def lo8 (w lo : Nat) : Fin 8 := Fin.ofNat 8 (fld w lo 3)
/-- A two-bit number at lo: a stream or a channel. -/
def lane (w lo : Nat) : Fin 4 := Fin.ofNat 4 (fld w lo 2)
/-- An n-bit immediate at lo. -/
def bv (n w lo : Nat) : BitVec n := BitVec.ofNat n (fld w lo n)
/-- The flag at bit lo. -/
def flag (w lo : Nat) : Bool := fld w lo 1 == 1
/-- A flag as a number. -/
def bit (b : Bool) : Nat := if b then 1 else 0

/-- The instruction i, if the n reserved bits at lo are 0 (R243). -/
def zero (w lo n : Nat) (i : Instr) : Except Reject Instr :=
  if fld w lo n = 0 then .ok i else .error .unlisted

/-! Codes of the enumerations, as the tables of chapter 15 to 20 number them. -/

def LdSize.code : LdSize → Nat
  | .b => 0 | .h => 1 | .w => 2 | .d => 3 | .bs => 4 | .hs => 5 | .ws => 6
def LdSize.ofCode : Nat → Option LdSize
  | 0 => some .b | 1 => some .h | 2 => some .w | 3 => some .d | 4 => some .bs | 5 => some .hs | 6 => some .ws | _ => none
def Sz.code : Sz → Nat
  | .b => 0 | .h => 1 | .w => 2 | .d => 3
def Sz.ofCode : Nat → Sz
  | 0 => .b | 1 => .h | 2 => .w | _ => .d
def FFmt.code : FFmt → Nat
  | .f16 => 0 | .bf16 => 1 | .f32 => 2 | .f64 => 3
def FFmt.ofCode : Nat → FFmt
  | 0 => .f16 | 1 => .bf16 | 2 => .f32 | _ => .f64
def FCond.code : FCond → Nat
  | .eq => 0 | .lt => 1 | .le => 2 | .un => 3
def FCond.ofCode : Nat → FCond
  | 0 => .eq | 1 => .lt | 2 => .le | _ => .un
def CvtTy.code : CvtTy → Nat
  | .f16 => 0 | .bf16 => 1 | .f32 => 2 | .f64 => 3 | .i32 => 4 | .n32 => 5 | .i64 => 6 | .n64 => 7
def CvtTy.ofCode : Nat → Option CvtTy
  | 0 => some .f16 | 1 => some .bf16 | 2 => some .f32 | 3 => some .f64
  | 4 => some .i32 | 5 => some .n32 | 6 => some .i64 | 7 => some .n64 | _ => none
def Scope.code : Scope → Nat
  | .cr => 0 | .cl => 1 | .dv => 2 | .sy => 3
def Scope.ofCode : Nat → Scope
  | 0 => .cr | 1 => .cl | 2 => .dv | _ => .sy
def WideScope.code : WideScope → Nat
  | .dv => 0 | .sy => 1
def WideScope.ofCode : Nat → WideScope
  | 0 => .dv | _ => .sy
def OrdFlag.code : OrdFlag → Nat
  | .acq => 1 | .rel => 2 | .ar => 3
def OrdFlag.ofCode : Nat → Option OrdFlag
  | 1 => some .acq | 2 => some .rel | 3 => some .ar | _ => none
def Ord.code : Ord → Nat
  | .none => 0 | .flag .dv f => f.code | .flag .sy f => 4 + f.code
def Ord.ofCode : Nat → Option Ord
  | 0 => some .none
  | 1 => some (.flag .dv .acq) | 2 => some (.flag .dv .rel) | 3 => some (.flag .dv .ar)
  | 5 => some (.flag .sy .acq) | 6 => some (.flag .sy .rel) | 7 => some (.flag .sy .ar)
  | _ => Option.none
/-- VAMO's ordering field: 0 none (Table 18.5). -/
def optFlag : Option OrdFlag → Nat
  | none => 0 | some f => f.code
def optFlagOf : Nat → Option OrdFlag
  | 1 => some .acq | 2 => some .rel | 3 => some .ar | _ => none
def AmoOp.code : AmoOp → Nat
  | .swap => 0 | .add => 1 | .and => 2 | .or => 3 | .xor => 4 | .min => 5 | .max => 6 | .minn => 7 | .maxn => 8
  | .fadd => 9 | .fmin => 10 | .fmax => 11
def AmoOp.ofCode : Nat → Option AmoOp
  | 0 => some .swap | 1 => some .add | 2 => some .and | 3 => some .or | 4 => some .xor | 5 => some .min
  | 6 => some .max | 7 => some .minn | 8 => some .maxn | 9 => some .fadd | 10 => some .fmin | 11 => some .fmax
  | _ => none
def VamoOp.code : VamoOp → Nat
  | .swap => 0 | .add => 1 | .min => 2 | .max => 3
def VamoOp.ofCode : Nat → VamoOp
  | 0 => .swap | 1 => .add | 2 => .min | _ => .max
def VCond.code : VCond → Nat
  | .eq => 0 | .ne => 1 | .lt => 2 | .le => 3 | .gt => 4 | .ge => 5
def CvtMode.code : CvtMode → Nat
  | .ne => 0 | .z => 1 | .sr => 2 | .ef => 3
def RedOp.code : RedOp → Nat
  | .sum => 0 | .max => 1 | .min => 2 | .and => 3 | .or => 4 | .xor => 5
def RedOp.ofCode : Nat → Option RedOp
  | 0 => some .sum | 1 => some .max | 2 => some .min | 3 => some .and | 4 => some .or | 5 => some .xor | _ => none
def WaitCond.code : WaitCond → Nat
  | .eq => 0 | .ne => 1 | .ge => 2 | .lt => 3
def WaitCond.ofCode : Nat → WaitCond
  | 0 => .eq | 1 => .ne | 2 => .ge | _ => .lt

/-- The source kind of a second operand (R244). -/
def VSrc.kind : VSrc → Nat
  | .vv _ => 0 | .vx _ => 1 | .vi _ => 2 | .vs _ => 3
/-- Field [22:18] of a second operand. -/
def VSrc.field : VSrc → Nat
  | .vv r => r | .vx r => r | .vi i => i.toNat | .vs s => s
def XISrc.kind : XISrc → Nat
  | .vx _ => 1 | .vi _ => 2
def XISrc.field : XISrc → Nat
  | .vx r => r | .vi i => i.toNat
def MvSrc.kind : MvSrc → Nat
  | .vv _ => 0 | .vx _ => 1 | .vi _ => 2
def MvSrc.fieldA : MvSrc → Nat
  | .vv r => r | _ => 0
def MvSrc.fieldB : MvSrc → Nat
  | .vv _ => 0 | .vx r => r | .vi i => i.toNat

/-- The second operand of a format V word (R244): kind vs leaves [22:20] zero. -/
def src (w : Nat) (k : VSrc → Instr) : Except Reject Instr :=
  match fld w 23 2 with
  | 0 => .ok (k (.vv (xr w 18)))
  | 1 => .ok (k (.vx (xr w 18)))
  | 2 => .ok (k (.vi (bv 5 w 18)))
  | _ => zero w 20 3 (k (.vs (lane w 18)))

/-- The second operand of a form that accepts kinds vx and vi only. -/
def xi (w : Nat) (k : XISrc → Instr) : Except Reject Instr :=
  match fld w 23 2 with
  | 1 => .ok (k (.vx (xr w 18)))
  | 2 => .ok (k (.vi (bv 5 w 18)))
  | _ => .error .unlisted

/-- The OP major: func9 by Table 16.1. -/
def decodeOp (w : Nat) : Except Reject Instr :=
  match fld w 23 9 with
  | 0 => .ok (.add (xr w 8) (xr w 13) (xr w 18))
  | 1 => .ok (.sub (xr w 8) (xr w 13) (xr w 18))
  | 2 => .ok (.and (xr w 8) (xr w 13) (xr w 18))
  | 3 => .ok (.or (xr w 8) (xr w 13) (xr w 18))
  | 4 => .ok (.xor (xr w 8) (xr w 13) (xr w 18))
  | 5 => .ok (.sll (xr w 8) (xr w 13) (xr w 18))
  | 6 => .ok (.srl (xr w 8) (xr w 13) (xr w 18))
  | 7 => .ok (.sra (xr w 8) (xr w 13) (xr w 18))
  | 8 => .ok (.rot (xr w 8) (xr w 13) (xr w 18))
  | 9 => .ok (.slt (xr w 8) (xr w 13) (xr w 18))
  | 10 => .ok (.sltn (xr w 8) (xr w 13) (xr w 18))
  | 11 => .ok (.min (xr w 8) (xr w 13) (xr w 18))
  | 12 => .ok (.max (xr w 8) (xr w 13) (xr w 18))
  | 13 => .ok (.minn (xr w 8) (xr w 13) (xr w 18))
  | 14 => .ok (.maxn (xr w 8) (xr w 13) (xr w 18))
  | 16 => .ok (.mul (xr w 8) (xr w 13) (xr w 18))
  | 17 => .ok (.mulh (xr w 8) (xr w 13) (xr w 18))
  | 18 => .ok (.mulhn (xr w 8) (xr w 13) (xr w 18))
  | 19 => .ok (.div (xr w 8) (xr w 13) (xr w 18))
  | 20 => .ok (.divn (xr w 8) (xr w 13) (xr w 18))
  | 21 => .ok (.rem (xr w 8) (xr w 13) (xr w 18))
  | 22 => .ok (.remn (xr w 8) (xr w 13) (xr w 18))
  | 24 => zero w 18 5 (.clz (xr w 8) (xr w 13))
  | 25 => zero w 18 5 (.ctz (xr w 8) (xr w 13))
  | 26 => zero w 18 5 (.popc (xr w 8) (xr w 13))
  | 27 => zero w 18 5 (.bswap (xr w 8) (xr w 13))
  | 32 => .ok (.bext (xr w 8) (xr w 13) (xr w 18))
  | 33 => .ok (.bexts (xr w 8) (xr w 13) (xr w 18))
  | 34 => .ok (.bins (xr w 8) (xr w 13) (xr w 18))
  | 35 => .ok (.sel (xr w 8) (xr w 13) (xr w 18))
  | _ => .error .unlisted

/-- The shift-immediate major (R270). -/
def decodeShift (w : Nat) : Except Reject Instr :=
  match fld w 30 2 with
  | 0 => zero w 18 6 (.slli (xr w 8) (xr w 13) (bv 6 w 24))
  | 1 => zero w 18 6 (.srli (xr w 8) (xr w 13) (bv 6 w 24))
  | 2 => zero w 18 6 (.srai (xr w 8) (xr w 13) (bv 6 w 24))
  | 3 => zero w 18 6 (.roti (xr w 8) (xr w 13) (bv 6 w 24))
  | _ => .error .unlisted

/-- The branch major (R273): cond selects the comparison. -/
def decodeBranch (w : Nat) : Except Reject Instr :=
  match fld w 18 3 with
  | 0 => .ok (.beq (xr w 8) (xr w 13) (bv 11 w 21))
  | 1 => .ok (.bne (xr w 8) (xr w 13) (bv 11 w 21))
  | 2 => .ok (.blt (xr w 8) (xr w 13) (bv 11 w 21))
  | 3 => .ok (.bge (xr w 8) (xr w 13) (bv 11 w 21))
  | 4 => .ok (.bltn (xr w 8) (xr w 13) (bv 11 w 21))
  | 5 => .ok (.bgen (xr w 8) (xr w 13) (bv 11 w 21))
  | _ => .error .unlisted

/-- FCVT: destination type in func9[3:0], source type in field b (R282); the combinations R282 excludes are unlisted. -/
def decodeFcvt (w : Nat) : Except Reject Instr :=
  match CvtTy.ofCode (fld w 23 4), CvtTy.ofCode (fld w 18 5) with
  | some t, some s => if t = s ∨ (t.isInt ∧ s.isInt) then .error .unlisted else .ok (.fcvt t s (xr w 8) (xr w 13))
  | _, _ => .error .unlisted

/-- Scalar floating point (Table 16.5). -/
def decodeFp (w : Nat) : Except Reject Instr :=
  match fld w 27 5 with
  | 0 => zero w 23 2 (.fadd (FFmt.ofCode (fld w 25 2)) (xr w 8) (xr w 13) (xr w 18))
  | 1 => zero w 23 2 (.fsub (FFmt.ofCode (fld w 25 2)) (xr w 8) (xr w 13) (xr w 18))
  | 2 => zero w 23 2 (.fmul (FFmt.ofCode (fld w 25 2)) (xr w 8) (xr w 13) (xr w 18))
  | 3 => zero w 23 2 (.fma (FFmt.ofCode (fld w 25 2)) (xr w 8) (xr w 13) (xr w 18))
  | 4 => zero w 23 2 (.fnma (FFmt.ofCode (fld w 25 2)) (xr w 8) (xr w 13) (xr w 18))
  | 5 => zero w 23 2 (.fdiv (FFmt.ofCode (fld w 25 2)) (xr w 8) (xr w 13) (xr w 18))
  | 6 => zero w 18 7 (.fsqrt (FFmt.ofCode (fld w 25 2)) (xr w 8) (xr w 13))
  | 7 => zero w 23 2 (.fmin (FFmt.ofCode (fld w 25 2)) (xr w 8) (xr w 13) (xr w 18))
  | 8 => zero w 23 2 (.fmax (FFmt.ofCode (fld w 25 2)) (xr w 8) (xr w 13) (xr w 18))
  | 9 => .ok (.fcmp (FFmt.ofCode (fld w 25 2)) (FCond.ofCode (fld w 23 2)) (xr w 8) (xr w 13) (xr w 18))
  | 10 => zero w 18 7 (.fclass (FFmt.ofCode (fld w 25 2)) (xr w 8) (xr w 13))
  | 11 => decodeFcvt w
  | _ => .error .unlisted

/-- AMO: operation, size and ordering code (Table 18.2). -/
def decodeAmo (w : Nat) : Except Reject Instr :=
  match AmoOp.ofCode (fld w 27 4), Ord.ofCode (fld w 23 3) with
  | some p, some o => .ok (.amo p (flag w 26) o (xr w 8) (xr w 13) (xr w 18))
  | _, _ => .error .unlisted

/-- Major 0x14: AMO, CAS, FENCE and SBAR (Table 18.2). -/
def decodeAtomic (w : Nat) : Except Reject Instr :=
  match fld w 31 1, fld w 29 2 with
  | 0, _ => decodeAmo w
  | _, 0 =>
    match Ord.ofCode (fld w 23 3) with
    | some o => zero w 26 2 (.cas (flag w 28) o (xr w 8) (xr w 13) (xr w 18))
    | none => .error .unlisted
  | _, 1 =>
    match OrdFlag.ofCode (fld w 27 2) with
    | some t => zero w 23 2 (.fence t (Scope.ofCode (fld w 25 2))) |>.bind (zero w 8 15)
    | none => .error .unlisted
  | _, 2 =>
    if fld w 13 5 = 0 ∨ fld w 18 5 = 0 then .error .unlisted
    else zero w 23 6 (.sbar (bv 5 w 13) (bv 5 w 18)) |>.bind (zero w 8 5)
  | _, _ => .error .unlisted

/-- SYS kind 3 (Tables 15.2 and 20.3): the operation in [29:26], imm8 in [25:18]. -/
def decodeSys3 (w : Nat) : Except Reject Instr :=
  match fld w 26 4, fld w 18 8 with
  | 0, _ => zero w 8 10 (.trapi (bv 8 w 18))
  | 1, 0 => zero w 8 10 .sysret
  | 2, 0 => zero w 8 10 .halt
  | 3, 0 => zero w 8 10 .yield
  | 4, 0 => zero w 8 10 .exit
  | 4, 1 => zero w 8 10 .exitG
  | 5, 0 => zero w 8 5 (.cacheopPrefetch (xr w 13))
  | 5, 1 => zero w 8 5 (.cacheopPin (xr w 13))
  | 5, 2 => zero w 8 5 (.cacheopUnpin (xr w 13))
  | 5, 3 => zero w 8 5 (.cacheopFlush (xr w 13))
  | 5, 4 => zero w 8 5 (.cacheopInvalidate (xr w 13))
  | 6, 0 => zero w 8 5 (.tlbinvPage (xr w 13))
  | 6, 1 => zero w 8 10 .tlbinvAll
  | 7, 0 => zero w 13 5 (.waitevTimer (xr w 8))
  | 7, 1 => zero w 13 5 (.waitevSlot (xr w 8))
  | _, _ => .error .unlisted

/-- Major 0x15, format S (R245). -/
def decodeSys (w : Nat) : Except Reject Instr :=
  match fld w 30 2 with
  | 0 => zero w 13 5 (.csrrd (xr w 8) (bv 12 w 18))
  | 1 => zero w 8 5 (.csrwr (bv 12 w 18) (xr w 13))
  | 2 => .ok (.csrxch (xr w 8) (bv 12 w 18) (xr w 13))
  | _ => decodeSys3 w

/-- Major 0x16, the scalar vine forms (Table 18.6): form in func9[8:4]. -/
def decodeVine (w : Nat) : Except Reject Instr :=
  match fld w 27 5 with
  | 0 => zero w 23 4 (.sqopen (xr w 8) (xr w 13) (xr w 18))
  | 1 => zero w 23 4 (.sqres (xr w 8) (xr w 13) (xr w 18))
  | 2 => zero w 23 2 (.sqst (Sz.ofCode (fld w 25 2)) (xr w 8) (xr w 13) (xr w 18))
  | 3 => zero w 24 3 (.sqcmt (WideScope.ofCode (fld w 23 1)) (xr w 13) (xr w 18)) |>.bind (zero w 8 5)
  | 4 => zero w 24 3 (.sqlen (WideScope.ofCode (fld w 23 1)) (xr w 8) (xr w 13)) |>.bind (zero w 18 5)
  | 5 => zero w 24 3 (.sqwait (WideScope.ofCode (fld w 23 1)) (xr w 8) (xr w 13) (xr w 18))
  | 6 => zero w 23 2 (.sqld (Sz.ofCode (fld w 25 2)) (xr w 8) (xr w 13) (xr w 18))
  | 7 => zero w 23 4 (.sqfork (xr w 8) (xr w 13) (xr w 18))
  | 8 => zero w 23 4 (.sqtrim (xr w 8) (xr w 13) (xr w 18))
  | 9 => zero w 18 9 (.sqdrop (xr w 13)) |>.bind (zero w 8 5)
  | _ => .error .unlisted

/-- Major 0x17 (Table 18.8): form in func9[8:5], G in [4], scope in [3:2]. -/
def decodeBarrier (w : Nat) : Except Reject Instr :=
  match fld w 28 4, fld w 27 1 with
  | 0, 0 => zero w 23 2 (.binit (Scope.ofCode (fld w 25 2)) (xr w 13) (xr w 18)) |>.bind (zero w 8 5)
  | 1, 0 => zero w 23 2 (.barr (Scope.ofCode (fld w 25 2)) (xr w 8) (xr w 13) (lo8 w 18)) |>.bind (zero w 21 2)
  | 1, 1 => if fld w 13 5 < 6 then zero w 23 4 (.barrG (xr w 8) (Fin.ofNat 6 (fld w 13 5)) (lo8 w 18)) |>.bind (zero w 21 2)
            else .error .unlisted
  | 2, 0 => zero w 23 2 (.btest (Scope.ofCode (fld w 25 2)) (xr w 8) (xr w 13) (xr w 18))
  | 3, 0 => zero w 23 2 (.bwait (Scope.ofCode (fld w 25 2)) (xr w 13) (xr w 18)) |>.bind (zero w 8 5)
  | 3, 1 => if fld w 13 5 < 6 then zero w 18 9 (.bwaitG (Fin.ofNat 6 (fld w 13 5))) |>.bind (zero w 8 5)
            else .error .unlisted
  | 4, 0 => zero w 23 2 (.signal (Scope.ofCode (fld w 25 2)) (xr w 13) (xr w 18)) |>.bind (zero w 8 5)
  | 5, 0 => if fld w 13 5 < 6 ∧ fld w 18 5 < 5 then
              zero w 23 4 (.gread (xr w 8) (Fin.ofNat 6 (fld w 13 5)) (Fin.ofNat 5 (fld w 18 5)))
            else .error .unlisted
  | 6, 0 => zero w 23 4 (.qapp (xr w 8) (xr w 13) (xr w 18))
  | 7, 0 => zero w 23 4 (.qwait (xr w 13) (xr w 18)) |>.bind (zero w 8 5)
  | _, _ => .error .unlisted

/-- Major 0x20 (R288 to R290): VCFG, VSETVL, VTAG (func9 0x080 to 0x0BF) and VTAGRD. -/
def decodeConfig (w : Nat) : Except Reject Instr :=
  match fld w 29 3, fld w 23 6 with
  | 0, 0 => zero w 18 5 (.vcfg (xr w 8) (xr w 13))
  | 1, 0 => zero w 18 5 (.vsetvl (xr w 8) (xr w 13))
  | 2, _ => zero w 18 5 (.vtag (bv 6 w 23) (xr w 13) (xr w 8))
  | 3, 0 => zero w 18 5 (.vtagrd (xr w 8) (xr w 13))
  | _, _ => .error .unlisted

/-- Major 0x21 (Table 17.4). -/
def decodeV21 (w : Nat) : Except Reject Instr :=
  match fld w 27 5 with
  | 0 => src w fun b => .vadd (flag w 26) (flag w 25) (xr w 8) (xr w 13) b
  | 1 => src w fun b => .vsub (flag w 26) (flag w 25) (xr w 8) (xr w 13) b
  | 2 => src w fun b => .vrsub (flag w 26) (flag w 25) (xr w 8) (xr w 13) b
  | 3 => src w fun b => .vmul (flag w 26) (flag w 25) (xr w 8) (xr w 13) b
  | 4 => src w fun b => .vmulh (flag w 26) (flag w 25) (xr w 8) (xr w 13) b
  | 5 => src w fun b => .vdiv (flag w 26) (flag w 25) (xr w 8) (xr w 13) b
  | 6 => src w fun b => .vrem (flag w 26) (flag w 25) (xr w 8) (xr w 13) b
  | 7 => src w fun b => .vmin (flag w 26) (flag w 25) (xr w 8) (xr w 13) b
  | 8 => src w fun b => .vmax (flag w 26) (flag w 25) (xr w 8) (xr w 13) b
  | 9 => src w fun b => .vand (flag w 26) (flag w 25) (xr w 8) (xr w 13) b
  | 10 => src w fun b => .vor (flag w 26) (flag w 25) (xr w 8) (xr w 13) b
  | 11 => src w fun b => .vxor (flag w 26) (flag w 25) (xr w 8) (xr w 13) b
  | 12 => src w fun b => .vsll (flag w 26) (flag w 25) (xr w 8) (xr w 13) b
  | 13 => src w fun b => .vsrl (flag w 26) (flag w 25) (xr w 8) (xr w 13) b
  | 14 => src w fun b => .vsra (flag w 26) (flag w 25) (xr w 8) (xr w 13) b
  | _ => .error .unlisted

/-- Major 0x22 (Table 17.4). -/
def decodeV22 (w : Nat) : Except Reject Instr :=
  match fld w 27 5 with
  | 0 => src w fun b => .vfma (flag w 26) (flag w 25) (xr w 8) (xr w 13) b
  | 1 => src w fun b => .vfnma (flag w 26) (flag w 25) (xr w 8) (xr w 13) b
  | 2 => zero w 18 7 (.vabs (flag w 26) (flag w 25) (xr w 8) (xr w 13))
  | 3 => zero w 18 7 (.vneg (flag w 26) (flag w 25) (xr w 8) (xr w 13))
  | 4 => (src w fun b => .vsel (flag w 26) (xr w 8) (xr w 13) b) |>.bind (zero w 25 1)
  | _ => .error .unlisted

/-- Major 0x23 (Table 17.5): VADDC and VSUBB carry the mask register in func5[2:0]. -/
def decodeV23 (w : Nat) : Except Reject Instr :=
  match fld w 30 2, fld w 27 3 with
  | 0, _ => src w fun b => .vaddc (lo8 w 27) (flag w 26) (flag w 25) (xr w 8) (xr w 13) b
  | 1, _ => src w fun b => .vsubb (lo8 w 27) (flag w 26) (flag w 25) (xr w 8) (xr w 13) b
  | 2, 0 => src w fun b => .vmadw (flag w 26) (flag w 25) (xr w 8) (xr w 13) b
  | 2, 1 => src w fun b => .vnshr (flag w 26) (flag w 25) (xr w 8) (xr w 13) b
  | 2, 2 => src w fun b => .vsadd (flag w 26) (flag w 25) (xr w 8) (xr w 13) b
  | 2, 3 => src w fun b => .vssub (flag w 26) (flag w 25) (xr w 8) (xr w 13) b
  | 2, 4 => src w fun b => .vavg (flag w 26) (flag w 25) (xr w 8) (xr w 13) b
  | _, _ => .error .unlisted

/-- VCMP (func5 0 to 5). -/
def decodeVcmp (w : Nat) (q : VCond) : Except Reject Instr :=
  (src w fun b => .vcmp q (flag w 25) (lo8 w 8) (xr w 13) b) |>.bind (zero w 26 1) |>.bind (zero w 11 2)

/-- MMV: field [22:18] selects the direction (Table 17.7). -/
def decodeMmv (w : Nat) : Except Reject Instr :=
  match fld w 18 5 with
  | 0 => zero w 23 4 (.mmvMask (lo8 w 8) (lo8 w 13)) |>.bind (zero w 11 2) |>.bind (zero w 16 2)
  | 1 => zero w 23 4 (.mmvToVector (xr w 8) (lo8 w 13)) |>.bind (zero w 16 2)
  | 2 => zero w 23 4 (.mmvFromVector (lo8 w 8) (xr w 13)) |>.bind (zero w 11 2)
  | _ => .error .unlisted

/-- Major 0x24 (Table 17.7); a mask field of 8 to 31 is unlisted (R296). -/
def decodeV24 (w : Nat) : Except Reject Instr :=
  match fld w 27 5 with
  | 0 => decodeVcmp w .eq
  | 1 => decodeVcmp w .ne
  | 2 => decodeVcmp w .lt
  | 3 => decodeVcmp w .le
  | 4 => decodeVcmp w .gt
  | 5 => decodeVcmp w .ge
  | 8 => zero w 23 4 (.mand (lo8 w 8) (lo8 w 13) (lo8 w 18)) |>.bind (zero w 11 2) |>.bind (zero w 16 2) |>.bind (zero w 21 2)
  | 9 => zero w 23 4 (.mor (lo8 w 8) (lo8 w 13) (lo8 w 18)) |>.bind (zero w 11 2) |>.bind (zero w 16 2) |>.bind (zero w 21 2)
  | 10 => zero w 23 4 (.mxor (lo8 w 8) (lo8 w 13) (lo8 w 18)) |>.bind (zero w 11 2) |>.bind (zero w 16 2) |>.bind (zero w 21 2)
  | 11 => zero w 23 4 (.mandn (lo8 w 8) (lo8 w 13) (lo8 w 18)) |>.bind (zero w 11 2) |>.bind (zero w 16 2) |>.bind (zero w 21 2)
  | 12 => zero w 18 9 (.mnot (lo8 w 8) (lo8 w 13)) |>.bind (zero w 11 2) |>.bind (zero w 16 2)
  | 13 => if fld w 23 4 = 2 ∧ fld w 18 5 < 4 then zero w 11 2 (.mslide (lo8 w 8) (lo8 w 13) (Fin.ofNat 4 (fld w 18 5))) |>.bind (zero w 16 2)
          else .error .unlisted
  | 14 => zero w 18 7 (.mpop (flag w 25) (xr w 8) (lo8 w 13)) |>.bind (zero w 26 1) |>.bind (zero w 16 2)
  | 15 => zero w 18 7 (.mfirst (flag w 25) (xr w 8) (lo8 w 13)) |>.bind (zero w 26 1) |>.bind (zero w 16 2)
  | 16 => if fld w 23 4 = 2 ∧ fld w 18 5 < 2 then zero w 13 5 (.mset (lo8 w 8) (flag w 18)) |>.bind (zero w 11 2)
          else .error .unlisted
  | 17 => decodeMmv w
  | _ => .error .unlisted

/-- VMV (R298): kind vv names the source in field a, the other kinds in field [22:18]. -/
def decodeVmv (w : Nat) : Except Reject Instr :=
  match fld w 23 2 with
  | 0 => zero w 18 5 (.vmv (flag w 25) (xr w 8) (.vv (xr w 13)))
  | 1 => zero w 13 5 (.vmv (flag w 25) (xr w 8) (.vx (xr w 18)))
  | 2 => zero w 13 5 (.vmv (flag w 25) (xr w 8) (.vi (bv 5 w 18)))
  | _ => .error .unlisted

/-- VRED (R299): kind vi; op in [20:18], [21] zero, [22] the scalar destination. -/
def decodeVred (w : Nat) : Except Reject Instr :=
  match RedOp.ofCode (fld w 18 3) with
  | some o => if fld w 23 2 = 2 then zero w 21 1 (.vred (flag w 25) (flag w 22) o (xr w 8) (xr w 13)) else .error .unlisted
  | none => .error .unlisted

/-- VSEGRED (R299): kind vx only. -/
def decodeVsegred (w : Nat) (i : Instr) : Except Reject Instr :=
  if fld w 23 2 = 1 then .ok i else .error .unlisted

/-- Major 0x25 (Table 17.8); the chain bit is not accepted (R306). -/
def decodeV25 (w : Nat) : Except Reject Instr :=
  if flag w 26 then .error .unlisted else
  match fld w 27 5 with
  | 0 => xi w fun b => .vslide (flag w 25) (xr w 8) (xr w 13) b
  | 1 => zero w 23 2 (.vperm (flag w 25) (xr w 8) (xr w 13) (xr w 18))
  | 2 => zero w 18 8 (.vcomp (xr w 8) (xr w 13))
  | 3 => zero w 18 7 (.viota (flag w 25) (xr w 8) (lo8 w 13)) |>.bind (zero w 16 2)
  | 4 => decodeVmv w
  | 5 => (xi w fun b => .vmvx (xr w 8) (xr w 13) b) |>.bind (zero w 25 1)
  | 6 => if fld w 23 2 = 1 then zero w 25 1 (.vmvi (xr w 8) (xr w 18) (xr w 13)) else .error .unlisted
  | 7 => decodeVred w
  | 8 => zero w 18 7 (.vscan (flag w 25) (xr w 8) (xr w 13))
  | 9 => decodeVsegred w (.vsegredSum (flag w 25) (xr w 8) (xr w 13) (xr w 18))
  | 10 => decodeVsegred w (.vsegredMax (flag w 25) (xr w 8) (xr w 13) (xr w 18))
  | 11 => decodeVsegred w (.vsegredMin (flag w 25) (xr w 8) (xr w 13) (xr w 18))
  | _ => .error .unlisted

/-- Major 0x26, special functions (R301). -/
def decodeV26 (w : Nat) : Except Reject Instr :=
  match fld w 27 5 with
  | 0 => zero w 18 7 (.vrcp (flag w 26) (flag w 25) (xr w 8) (xr w 13))
  | 1 => zero w 18 7 (.vrsq (flag w 26) (flag w 25) (xr w 8) (xr w 13))
  | 2 => zero w 18 7 (.vsqrt (flag w 26) (flag w 25) (xr w 8) (xr w 13))
  | 3 => zero w 18 7 (.vexp2 (flag w 26) (flag w 25) (xr w 8) (xr w 13))
  | 4 => zero w 18 7 (.vlog2 (flag w 26) (flag w 25) (xr w 8) (xr w 13))
  | 5 => zero w 18 7 (.vtanh (flag w 26) (flag w 25) (xr w 8) (xr w 13))
  | _ => .error .unlisted

/-- VCVT (R302): field [22:18] is 0 for the unscaled and 7 for the scaled form. -/
def decodeVcvt (w : Nat) (r : CvtMode) : Except Reject Instr :=
  match fld w 18 7 with
  | 0 => .ok (.vcvt r (flag w 26) (flag w 25) (xr w 8) (xr w 13))
  | 7 => .ok (.vcvtScaled r (flag w 26) (flag w 25) (xr w 8) (xr w 13))
  | _ => .error .unlisted

/-- VSCALE (R305): kind vi; the field names a q8 tag, so 0x07, 0x0F, 0x17 and 0x1F are unlisted. -/
def decodeVscale (w : Nat) : Except Reject Instr :=
  if fld w 23 2 = 2 ∧ fld w 18 3 ≠ 7 then zero w 26 1 (.vscale (flag w 25) (bv 5 w 18) (xr w 8) (xr w 13))
  else .error .unlisted

/-- Major 0x27, conversions (R302 to R305). -/
def decodeV27 (w : Nat) : Except Reject Instr :=
  match fld w 27 5 with
  | 0 => decodeVcvt w .ne
  | 1 => decodeVcvt w .z
  | 2 => decodeVcvt w .sr
  | 3 => decodeVcvt w .ef
  | 4 => zero w 18 7 (.vamax (flag w 25) (xr w 13)) |>.bind (zero w 26 1) |>.bind (zero w 8 5)
  | 5 => decodeVscale w
  | _ => .error .unlisted

/-- SSOFT (R309): xs is x(m + 1), so m is at most 30, and d differs from both. -/
def decodeSsoft (w : Nat) : Except Reject Instr :=
  if fld w 18 5 ≤ 30 ∧ fld w 8 5 ≠ fld w 18 5 ∧ fld w 8 5 ≠ fld w 18 5 + 1 then
    zero w 25 2 (.ssoft (xr w 8) (xr w 18) (xr w 13))
  else .error .unlisted

/-- Major 0x28, attention (R307 to R309): kind vx. -/
def decodeV28 (w : Nat) : Except Reject Instr :=
  match fld w 27 5, fld w 23 2 with
  | 0, 1 => zero w 26 1 (.vscore (flag w 25) (xr w 8) (xr w 13) (xr w 18))
  | 1, 1 => .ok (.vexpm (flag w 26) (flag w 25) (xr w 8) (xr w 13) (xr w 18))
  | 2, 1 => zero w 26 1 (.vaccp (flag w 25) (xr w 8) (xr w 13) (xr w 18))
  | 3, 1 => decodeSsoft w
  | _, _ => .error .unlisted

/-- Major 0x29 (Table 18.4). -/
def decodeVld (w : Nat) : Except Reject Instr :=
  match fld w 29 3 with
  | 0 => zero w 26 3 (.vld (flag w 25) (lane w 23) (xr w 8) (xr w 13)) |>.bind (zero w 18 5)
  | 1 => zero w 26 3 (.vldStrided (flag w 25) (lane w 23) (xr w 8) (xr w 13) (xr w 18))
  | 2 => if fld w 26 3 = 0 then .error .unlisted else .ok (.vldseg (lo8 w 26) (flag w 25) (lane w 23) (xr w 8) (xr w 13) (xr w 18))
  | 3 => if fld w 13 5 = 31 then .error .unlisted
         else .ok (.vwait (WideScope.ofCode (fld w 28 1)) (WaitCond.ofCode (fld w 26 2)) (flag w 25) (lane w 23) (xr w 8) (xr w 13) (xr w 18))
  | _ => .error .unlisted

/-- Major 0x2A (Table 18.4). -/
def decodeVst (w : Nat) : Except Reject Instr :=
  match fld w 29 3 with
  | 0 => zero w 26 3 (.vst (flag w 25) (lane w 23) (xr w 8) (xr w 13)) |>.bind (zero w 18 5)
  | 1 => zero w 26 3 (.vstStrided (flag w 25) (lane w 23) (xr w 8) (xr w 13) (xr w 18))
  | 2 => if fld w 26 3 = 0 then .error .unlisted else .ok (.vstseg (lo8 w 26) (flag w 25) (lane w 23) (xr w 8) (xr w 13) (xr w 18))
  | _ => .error .unlisted

/-- Major 0x2B (Table 18.5). -/
def decodeVidx (w : Nat) : Except Reject Instr :=
  match fld w 29 3, fld w 26 3 with
  | 0, 0 => .ok (.vldx (flag w 25) (lane w 23) (xr w 8) (xr w 13) (xr w 18))
  | 1, 0 => .ok (.vstxU (flag w 25) (lane w 23) (xr w 8) (xr w 13) (xr w 18))
  | 1, 1 => .ok (.vstxO (flag w 25) (lane w 23) (xr w 8) (xr w 13) (xr w 18))
  | 2, 0 => .ok (.vscadd (flag w 25) (lane w 23) (xr w 8) (xr w 13) (xr w 18))
  | 3, _ => zero w 23 3 (.vmergeu (flag w 26) (xr w 8) (xr w 13) (xr w 18)) |>.bind (zero w 27 2)
  | _, _ =>
    if fld w 31 1 = 1 then
      .ok (.vamo (VamoOp.ofCode (fld w 29 2)) (WideScope.ofCode (fld w 28 1)) (optFlagOf (fld w 26 2)) (flag w 25) (lane w 23)
        (xr w 8) (xr w 13) (xr w 18))
    else .error .unlisted

/-- Major 0x2C (Table 18.7). -/
def decodeVvine (w : Nat) : Except Reject Instr :=
  match fld w 29 3 with
  | 0 => zero w 26 3 (.vsqres (flag w 25) (lane w 23) (xr w 8) (xr w 18)) |>.bind (zero w 13 5)
  | 1 => zero w 26 3 (.vsqst (flag w 25) (lane w 23) (xr w 8) (xr w 13) (xr w 18))
  | 2 => zero w 26 3 (.vsqstX (flag w 25) (lane w 23) (xr w 8) (xr w 13) (xr w 18))
  | 3 => zero w 27 2 (.vsqcmt (WideScope.ofCode (fld w 26 1)) (flag w 25) (lane w 23) (xr w 13) (xr w 18)) |>.bind (zero w 8 5)
  | 4 => zero w 26 3 (.vsqld (flag w 25) (lane w 23) (xr w 8) (xr w 13) (xr w 18))
  | 5 => zero w 26 3 (.vsqldX (flag w 25) (lane w 23) (xr w 8) (xr w 13) (xr w 18))
  | _ => .error .unlisted

/-- Major 0x30, format D (Tables 15.3 and 19.1). -/
def decodeDiag (w : Nat) : Except Reject Instr :=
  match fld w 28 4 with
  | 0 => zero w 13 10 (.dcfg (xr w 8) (xr w 23))
  | 1 => zero w 8 15 (.dzero (xr w 23))
  | 2 => zero w 8 5 (.dmac (xr w 13) (xr w 18) (xr w 23))
  | 3 => zero w 8 5 (.dmacD (xr w 13) (xr w 18) (xr w 23))
  | 4 => zero w 8 5 (.dmacg (xr w 13) (xr w 18) (xr w 23))
  | 5 => zero w 20 3 (.dxtr (flag w 19) (flag w 18) (xr w 8) (xr w 23)) |>.bind (zero w 13 5)
  | 6 => zero w 13 10 (.ddir (xr w 8) (xr w 23))
  | 7 => zero w 8 15 (.dfree (xr w 23))
  | 8 => .ok (.dmv (xr w 8) (xr w 13) (xr w 18) (xr w 23))
  | 9 => .ok (.dmvM (xr w 8) (xr w 13) (xr w 18) (xr w 23))
  | 10 => zero w 19 9 (.dpiv (flag w 18) (xr w 8) (xr w 13))
  | 11 => zero w 19 4 (.dupd (flag w 18) (xr w 13) (xr w 23)) |>.bind (zero w 8 5)
  | _ => .error .unlisted

/-- The copy commands of format X carry an ordering code (R247). -/
def withOrd (w : Nat) (k : Ord → Instr) : Except Reject Instr :=
  match Ord.ofCode (fld w 23 3) with
  | some o => .ok (k o)
  | none => .error .unlisted

/-- Format X forms with [31] = 1 (Table 15.4), by [30:28]. -/
def decodeX1 (w : Nat) : Except Reject Instr :=
  match fld w 28 3 with
  | 0 => withOrd w fun o => .xgath (lane w 26) o (xr w 8) (xr w 13) (xr w 18)
  | 1 => (withOrd w fun o => .xxform (lane w 26) o (xr w 13) (xr w 18)) |>.bind (zero w 8 5)
  | 2 => zero w 8 18 (.xdrain (lane w 26))
  | 3 => zero w 23 5 (.xchain (xr w 13) (xr w 18)) |>.bind (zero w 8 5)
  | 4 => zero w 23 5 (.sbind (lane w 8) (xr w 13) (xr w 18)) |>.bind (zero w 10 3)
  | 5 => zero w 10 18 (.srel (lane w 8))
  | 6 => zero w 15 13 (.sstat (xr w 8) (lane w 13))
  | _ => .error .unlisted

/-- Major 0x34, format X (R247). -/
def decodeX (w : Nat) : Except Reject Instr :=
  match fld w 31 1 with
  | 0 => withOrd w fun o => .xcopy (flag w 30) (Sz.ofCode (fld w 28 2)) (lane w 26) o (xr w 8) (xr w 13) (xr w 18)
  | _ => decodeX1 w

/-- A compressed halfword (Table 15.5): quadrant in [1:0], func3 in [15:13]. -/
def decode16 (w : Nat) : Except Reject Instr :=
  match fld w 0 2, fld w 13 3 with
  | 0, 0 => if fld w 8 5 = 0 then .error .unlisted else if fld w 2 6 = 0 then .error .unlisted else .ok (.cAddi (xr w 8) (bv 6 w 2))
  | 0, 1 => if fld w 8 5 = 0 then .error .unlisted else .ok (.cLi (xr w 8) (bv 6 w 2))
  | 0, 2 => if fld w 8 5 = 0 then .error .unlisted else if fld w 2 6 = 0 then .error .unlisted else .ok (.cSlli (xr w 8) (bv 6 w 2))
  | 0, 3 => .ok (.cLd (lo8 w 10) (lo8 w 7) (bv 5 w 2))
  | 0, 4 => .ok (.cSt (lo8 w 10) (lo8 w 7) (bv 5 w 2))
  | 0, 5 => .ok (.cBeqz (lo8 w 10) (bv 8 w 2))
  | 0, 6 => .ok (.cBnez (lo8 w 10) (bv 8 w 2))
  | 0, 7 => .ok (.cJ (bv 11 w 2))
  | 2, 0 => if fld w 8 5 = 0 then .error .unlisted else if fld w 3 5 = 0 then .error .unlisted else zero w 2 1 (.cMv (xr w 8) (xr w 3))
  | 2, 1 => if fld w 8 5 = 0 then .error .unlisted else if fld w 3 5 = 0 then .error .unlisted else zero w 2 1 (.cAdd (xr w 8) (xr w 3))
  | 2, 2 => if fld w 8 5 = 0 then .error .unlisted else zero w 2 6 (.cJr (xr w 8))
  | 2, 3 => zero w 2 11 .cNop
  | _, _ => .error .unlisted

/-- A tile instruction (R249, R339): prefix p, body w. -/
def decodeTile (p w : Nat) : Except Reject Instr :=
  if fld p 12 20 ≠ 0 ∨ fld w 23 9 ≠ 0 ∨ fld w 0 2 ≠ 1 then .error .unlisted
  else
    match fld w 2 6 with
    | 0 => zero p 11 1 (.tzero (lo8 p 8)) |>.bind (zero w 8 15)
    | 1 => zero w 8 5 (.trowmv (flag p 11) (lo8 p 8) (xr w 13) (xr w 18))
    | 2 => zero w 13 5 (.tcolmv (flag p 11) (xr w 8) (lo8 p 8) (xr w 18))
    | 3 => zero p 11 1 (.tmma (lo8 p 8) (xr w 13) (xr w 18)) |>.bind (zero w 8 5)
    | 4 => zero p 8 4 (.tstat (xr w 8)) |>.bind (zero w 13 10)
    | 5 => zero p 11 1 (.tsave (lo8 p 8) (xr w 13)) |>.bind (zero w 18 5) |>.bind (zero w 8 5)
    | 6 => zero p 11 1 (.trest (lo8 p 8) (xr w 13)) |>.bind (zero w 18 5) |>.bind (zero w 8 5)
    | _ => .error .unlisted

/-- A prefixed instruction: prefix word in the low 32 bits, body above it (R249). -/
def decode64 (w : Nat) : Except Reject Instr :=
  match fld w 2 6 with
  | 1 => decodeTile (w % 2 ^ 32) (w / 2 ^ 32)
  | 2 => .ok (.li64 (xr w 8) (BitVec.ofNat 51 (fld w 13 19 * 2 ^ 32 + fld w 32 32)))
  | _ => .error .unlisted

/-- A 32-bit word, by its major opcode (Table 15.6). -/
def decode32 (w : Nat) : Except Reject Instr :=
  match fld w 2 6 with
  | 0x01 => decodeOp w
  | 0x02 => .ok (.addi (xr w 8) (xr w 13) (bv 14 w 18))
  | 0x03 => .ok (.andi (xr w 8) (xr w 13) (bv 14 w 18))
  | 0x04 => .ok (.ori (xr w 8) (xr w 13) (bv 14 w 18))
  | 0x05 => .ok (.xori (xr w 8) (xr w 13) (bv 14 w 18))
  | 0x06 => .ok (.slti (xr w 8) (xr w 13) (bv 14 w 18))
  | 0x07 => .ok (.sltni (xr w 8) (xr w 13) (bv 14 w 18))
  | 0x08 => decodeShift w
  | 0x09 => .ok (.bexti (xr w 8) (xr w 13) (bv 7 w 25) (bv 7 w 18))
  | 0x0A => .ok (.bextsi (xr w 8) (xr w 13) (bv 7 w 25) (bv 7 w 18))
  | 0x0B => .ok (.binsi (xr w 8) (xr w 13) (bv 7 w 25) (bv 7 w 18))
  | 0x0C => .ok (.lui (xr w 8) (bv 19 w 13))
  | 0x0D => .ok (.addpc (xr w 8) (bv 19 w 13))
  | 0x0E => .ok (.jal (xr w 8) (bv 19 w 13))
  | 0x0F => .ok (.jalr (xr w 8) (xr w 13) (bv 14 w 18))
  | 0x10 => decodeBranch w
  | 0x11 =>
    match LdSize.ofCode (fld w 18 3) with
    | some z => .ok (.ld z (xr w 8) (xr w 13) (bv 11 w 21))
    | none => .error .unlisted
  | 0x12 => if fld w 18 3 < 4 then .ok (.st (Sz.ofCode (fld w 18 3)) (xr w 8) (xr w 13) (bv 11 w 21)) else .error .unlisted
  | 0x13 => decodeFp w
  | 0x14 => decodeAtomic w
  | 0x15 => decodeSys w
  | 0x16 => decodeVine w
  | 0x17 => decodeBarrier w
  | 0x20 => decodeConfig w
  | 0x21 => decodeV21 w
  | 0x22 => decodeV22 w
  | 0x23 => decodeV23 w
  | 0x24 => decodeV24 w
  | 0x25 => decodeV25 w
  | 0x26 => decodeV26 w
  | 0x27 => decodeV27 w
  | 0x28 => decodeV28 w
  | 0x29 => decodeVld w
  | 0x2A => decodeVst w
  | 0x2B => decodeVidx w
  | 0x2C => decodeVvine w
  | 0x30 => decodeDiag w
  | 0x34 => decodeX w
  | _ => .error .unlisted

/-- The length in bytes that bits [1:0] of the first halfword give (R241). -/
def lengthOf (w : Nat) : Nat :=
  match fld w 0 2 with
  | 1 => 4
  | 3 => 8
  | _ => 2

/-- Decode the instruction whose bits are w, numbered from the least significant bit of its first word. -/
def decodeBits (w : Nat) : Except Reject Instr :=
  match fld w 0 2 with
  | 1 => decode32 (w % 2 ^ 32)
  | 3 => decode64 (w % 2 ^ 64)
  | _ => decode16 (w % 2 ^ 16)

/-- The little-endian value of a list of bytes (R5). -/
def bytesToNat : List Byte → Nat
  | [] => 0
  | b :: bs => b.toNat + 2 ^ 8 * bytesToNat bs

/-- The n low bytes of a value, least significant first (R5). -/
def natToBytes : Nat → Nat → List Byte
  | 0, _ => []
  | n + 1, v => BitVec.ofNat 8 v :: natToBytes n (v / 2 ^ 8)

/-- Decode the instruction at the front of a list of bytes, and what follows it. -/
def decode (bs : List Byte) : Except Reject (Instr × List Byte) :=
  let w := bytesToNat (bs.take 8)
  if bs.length < 2 ∨ bs.length < lengthOf w then .error .truncated
  else
    match decodeBits w with
    | .ok i => .ok (i, bs.drop (lengthOf w))
    | .error e => .error e

/-- What the decoder reads from an instruction whose bits are w, numbered as spec/opcode_table.json numbers them; the
bits above nbits are zero. -/
def decodeTableWord (nbits w : Nat) : Option Instr :=
  match decode (natToBytes 8 (w % 2 ^ nbits)) with
  | .ok (i, _) => some i
  | .error _ => none

/-! ## The encoder -/

/-- Format A, and format X with the control field as func9 (Table 15.1). -/
def fA (func9 b a d maj : Nat) : Nat := func9 * 2 ^ 23 + b * 2 ^ 18 + a * 2 ^ 13 + d * 2 ^ 8 + maj * 2 ^ 2 + 1
/-- Format I. -/
def fI (imm a d maj : Nat) : Nat := imm * 2 ^ 18 + a * 2 ^ 13 + d * 2 ^ 8 + maj * 2 ^ 2 + 1
/-- Formats U and J. -/
def fU (imm d maj : Nat) : Nat := imm * 2 ^ 13 + d * 2 ^ 8 + maj * 2 ^ 2 + 1
/-- Formats M and B. -/
def fM (imm z b d maj : Nat) : Nat := imm * 2 ^ 21 + z * 2 ^ 18 + b * 2 ^ 13 + d * 2 ^ 8 + maj * 2 ^ 2 + 1
/-- Format S: kind, then [29:18]. -/
def fS (kind c a d : Nat) : Nat := kind * 2 ^ 30 + c * 2 ^ 18 + a * 2 ^ 13 + d * 2 ^ 8 + 0x15 * 2 ^ 2 + 1
/-- Format V. -/
def fV (func5 c m kind b a d maj : Nat) : Nat :=
  func5 * 2 ^ 27 + c * 2 ^ 26 + m * 2 ^ 25 + kind * 2 ^ 23 + b * 2 ^ 18 + a * 2 ^ 13 + d * 2 ^ 8 + maj * 2 ^ 2 + 1
/-- Format VM. -/
def fVM (func3 mode m g i b d maj : Nat) : Nat :=
  func3 * 2 ^ 29 + mode * 2 ^ 26 + m * 2 ^ 25 + g * 2 ^ 23 + i * 2 ^ 18 + b * 2 ^ 13 + d * 2 ^ 8 + maj * 2 ^ 2 + 1
/-- Format D. -/
def fD (func4 x b a d : Nat) : Nat :=
  func4 * 2 ^ 28 + x * 2 ^ 23 + b * 2 ^ 18 + a * 2 ^ 13 + d * 2 ^ 8 + 0x30 * 2 ^ 2 + 1
/-- A compressed halfword. -/
def fC (func3 mid quad : Nat) : Nat := func3 * 2 ^ 13 + mid * 2 ^ 2 + quad
/-- A prefixed instruction: the prefix at the lower address. -/
def fP (prefix_ body : Nat) : Nat := body * 2 ^ 32 + prefix_

/-! The encoding of each instruction: its length in bytes and its bits, bit 0 the least significant bit of the first
word. Written from the formats of Tables 15.1 to 15.5 and the entries of chapters 16 to 20. -/

def encAdd (d a b : XReg) : Nat × Nat := (4, fA 0 b a d 0x01)
def encSub (d a b : XReg) : Nat × Nat := (4, fA 1 b a d 0x01)
def encAnd (d a b : XReg) : Nat × Nat := (4, fA 2 b a d 0x01)
def encOr (d a b : XReg) : Nat × Nat := (4, fA 3 b a d 0x01)
def encXor (d a b : XReg) : Nat × Nat := (4, fA 4 b a d 0x01)
def encSll (d a b : XReg) : Nat × Nat := (4, fA 5 b a d 0x01)
def encSrl (d a b : XReg) : Nat × Nat := (4, fA 6 b a d 0x01)
def encSra (d a b : XReg) : Nat × Nat := (4, fA 7 b a d 0x01)
def encRot (d a b : XReg) : Nat × Nat := (4, fA 8 b a d 0x01)
def encSlt (d a b : XReg) : Nat × Nat := (4, fA 9 b a d 0x01)
def encSltn (d a b : XReg) : Nat × Nat := (4, fA 10 b a d 0x01)
def encMin (d a b : XReg) : Nat × Nat := (4, fA 11 b a d 0x01)
def encMax (d a b : XReg) : Nat × Nat := (4, fA 12 b a d 0x01)
def encMinn (d a b : XReg) : Nat × Nat := (4, fA 13 b a d 0x01)
def encMaxn (d a b : XReg) : Nat × Nat := (4, fA 14 b a d 0x01)
def encMul (d a b : XReg) : Nat × Nat := (4, fA 16 b a d 0x01)
def encMulh (d a b : XReg) : Nat × Nat := (4, fA 17 b a d 0x01)
def encMulhn (d a b : XReg) : Nat × Nat := (4, fA 18 b a d 0x01)
def encDiv (d a b : XReg) : Nat × Nat := (4, fA 19 b a d 0x01)
def encDivn (d a b : XReg) : Nat × Nat := (4, fA 20 b a d 0x01)
def encRem (d a b : XReg) : Nat × Nat := (4, fA 21 b a d 0x01)
def encRemn (d a b : XReg) : Nat × Nat := (4, fA 22 b a d 0x01)
def encBext (d a b : XReg) : Nat × Nat := (4, fA 32 b a d 0x01)
def encBexts (d a b : XReg) : Nat × Nat := (4, fA 33 b a d 0x01)
def encBins (d a b : XReg) : Nat × Nat := (4, fA 34 b a d 0x01)
def encSel (d a b : XReg) : Nat × Nat := (4, fA 35 b a d 0x01)
def encClz (d a : XReg) : Nat × Nat := (4, fA 24 0 a d 0x01)
def encCtz (d a : XReg) : Nat × Nat := (4, fA 25 0 a d 0x01)
def encPopc (d a : XReg) : Nat × Nat := (4, fA 26 0 a d 0x01)
def encBswap (d a : XReg) : Nat × Nat := (4, fA 27 0 a d 0x01)
def encAddi (d a : XReg) (i : BitVec 14) : Nat × Nat := (4, fI i.toNat a d 2)
def encAndi (d a : XReg) (i : BitVec 14) : Nat × Nat := (4, fI i.toNat a d 3)
def encOri (d a : XReg) (i : BitVec 14) : Nat × Nat := (4, fI i.toNat a d 4)
def encXori (d a : XReg) (i : BitVec 14) : Nat × Nat := (4, fI i.toNat a d 5)
def encSlti (d a : XReg) (i : BitVec 14) : Nat × Nat := (4, fI i.toNat a d 6)
def encSltni (d a : XReg) (i : BitVec 14) : Nat × Nat := (4, fI i.toNat a d 7)
def encSlli (d a : XReg) (s : BitVec 6) : Nat × Nat := (4, fI (0 * 2 ^ 12 + s.toNat * 2 ^ 6) a d 0x08)
def encSrli (d a : XReg) (s : BitVec 6) : Nat × Nat := (4, fI (1 * 2 ^ 12 + s.toNat * 2 ^ 6) a d 0x08)
def encSrai (d a : XReg) (s : BitVec 6) : Nat × Nat := (4, fI (2 * 2 ^ 12 + s.toNat * 2 ^ 6) a d 0x08)
def encRoti (d a : XReg) (s : BitVec 6) : Nat × Nat := (4, fI (3 * 2 ^ 12 + s.toNat * 2 ^ 6) a d 0x08)
def encBexti (d a : XReg) (o w : BitVec 7) : Nat × Nat := (4, fI (o.toNat * 2 ^ 7 + w.toNat) a d 9)
def encBextsi (d a : XReg) (o w : BitVec 7) : Nat × Nat := (4, fI (o.toNat * 2 ^ 7 + w.toNat) a d 10)
def encBinsi (d a : XReg) (o w : BitVec 7) : Nat × Nat := (4, fI (o.toNat * 2 ^ 7 + w.toNat) a d 11)
def encLui (d : XReg) (i : BitVec 19) : Nat × Nat := (4, fU i.toNat d 0x0C)
def encAddpc (d : XReg) (i : BitVec 19) : Nat × Nat := (4, fU i.toNat d 0x0D)
def encJal (d : XReg) (o : BitVec 19) : Nat × Nat := (4, fU o.toNat d 0x0E)
def encJalr (d a : XReg) (i : BitVec 14) : Nat × Nat := (4, fI i.toNat a d 0x0F)
def encBeq (a b : XReg) (o : BitVec 11) : Nat × Nat := (4, fM o.toNat 0 b a 0x10)
def encBne (a b : XReg) (o : BitVec 11) : Nat × Nat := (4, fM o.toNat 1 b a 0x10)
def encBlt (a b : XReg) (o : BitVec 11) : Nat × Nat := (4, fM o.toNat 2 b a 0x10)
def encBge (a b : XReg) (o : BitVec 11) : Nat × Nat := (4, fM o.toNat 3 b a 0x10)
def encBltn (a b : XReg) (o : BitVec 11) : Nat × Nat := (4, fM o.toNat 4 b a 0x10)
def encBgen (a b : XReg) (o : BitVec 11) : Nat × Nat := (4, fM o.toNat 5 b a 0x10)
def encLd (z : LdSize) (d b : XReg) (i : BitVec 11) : Nat × Nat := (4, fM i.toNat z.code b d 0x11)
def encSt (z : Sz) (s b : XReg) (i : BitVec 11) : Nat × Nat := (4, fM i.toNat z.code b s 0x12)
def encFadd (f : FFmt) (d a b : XReg) : Nat × Nat := (4, fA (0 * 2 ^ 4 + f.code * 2 ^ 2) b a d 0x13)
def encFsub (f : FFmt) (d a b : XReg) : Nat × Nat := (4, fA (1 * 2 ^ 4 + f.code * 2 ^ 2) b a d 0x13)
def encFmul (f : FFmt) (d a b : XReg) : Nat × Nat := (4, fA (2 * 2 ^ 4 + f.code * 2 ^ 2) b a d 0x13)
def encFma (f : FFmt) (d a b : XReg) : Nat × Nat := (4, fA (3 * 2 ^ 4 + f.code * 2 ^ 2) b a d 0x13)
def encFnma (f : FFmt) (d a b : XReg) : Nat × Nat := (4, fA (4 * 2 ^ 4 + f.code * 2 ^ 2) b a d 0x13)
def encFdiv (f : FFmt) (d a b : XReg) : Nat × Nat := (4, fA (5 * 2 ^ 4 + f.code * 2 ^ 2) b a d 0x13)
def encFmin (f : FFmt) (d a b : XReg) : Nat × Nat := (4, fA (7 * 2 ^ 4 + f.code * 2 ^ 2) b a d 0x13)
def encFmax (f : FFmt) (d a b : XReg) : Nat × Nat := (4, fA (8 * 2 ^ 4 + f.code * 2 ^ 2) b a d 0x13)
def encFsqrt (f : FFmt) (d a : XReg) : Nat × Nat := (4, fA (6 * 2 ^ 4 + f.code * 2 ^ 2) 0 a d 0x13)
def encFcmp (f : FFmt) (q : FCond) (d a b : XReg) : Nat × Nat := (4, fA (9 * 2 ^ 4 + f.code * 2 ^ 2 + q.code) b a d 0x13)
def encFclass (f : FFmt) (d a : XReg) : Nat × Nat := (4, fA (10 * 2 ^ 4 + f.code * 2 ^ 2) 0 a d 0x13)
def encFcvt (t s : CvtTy) (d a : XReg) : Nat × Nat := (4, fA (11 * 2 ^ 4 + t.code) s.code a d 0x13)
def encAmo (p : AmoOp) (dbl : Bool) (o : Ord) (d a b : XReg) : Nat × Nat := (4, fA (p.code * 2 ^ 4 + bit dbl * 2 ^ 3 + o.code) b a d 0x14)
def encCas (dbl : Bool) (o : Ord) (d a b : XReg) : Nat × Nat := (4, fA (2 ^ 8 + bit dbl * 2 ^ 5 + o.code) b a d 0x14)
def encFence (t : OrdFlag) (c : Scope) : Nat × Nat := (4, fA (2 ^ 8 + 2 ^ 6 + t.code * 2 ^ 4 + c.code * 2 ^ 2) 0 0 0 0x14)
def encSbar (lead held : BitVec 5) : Nat × Nat := (4, fA (2 ^ 8 + 2 * 2 ^ 6) held.toNat lead.toNat 0 0x14)
def encCsrrd (d : XReg) (c : BitVec 12) : Nat × Nat := (4, fS 0 c.toNat 0 d)
def encCsrwr (c : BitVec 12) (a : XReg) : Nat × Nat := (4, fS 1 c.toNat a 0)
def encCsrxch (d : XReg) (c : BitVec 12) (a : XReg) : Nat × Nat := (4, fS 2 c.toNat a d)
def encTrapi (i : BitVec 8) : Nat × Nat := (4, fS 3 (0 * 2 ^ 8 + i.toNat) 0 0)
def encSysret : Nat × Nat := (4, fS 3 (1 * 2 ^ 8 + 0) 0 0)
def encHalt : Nat × Nat := (4, fS 3 (2 * 2 ^ 8 + 0) 0 0)
def encYield : Nat × Nat := (4, fS 3 (3 * 2 ^ 8 + 0) 0 0)
def encExit : Nat × Nat := (4, fS 3 (4 * 2 ^ 8 + 0) 0 0)
def encExitG : Nat × Nat := (4, fS 3 (4 * 2 ^ 8 + 1) 0 0)
def encCacheopPrefetch (a : XReg) : Nat × Nat := (4, fS 3 (5 * 2 ^ 8 + 0) a 0)
def encCacheopPin (a : XReg) : Nat × Nat := (4, fS 3 (5 * 2 ^ 8 + 1) a 0)
def encCacheopUnpin (a : XReg) : Nat × Nat := (4, fS 3 (5 * 2 ^ 8 + 2) a 0)
def encCacheopFlush (a : XReg) : Nat × Nat := (4, fS 3 (5 * 2 ^ 8 + 3) a 0)
def encCacheopInvalidate (a : XReg) : Nat × Nat := (4, fS 3 (5 * 2 ^ 8 + 4) a 0)
def encTlbinvPage (a : XReg) : Nat × Nat := (4, fS 3 (6 * 2 ^ 8 + 0) a 0)
def encTlbinvAll : Nat × Nat := (4, fS 3 (6 * 2 ^ 8 + 1) 0 0)
def encWaitevTimer (d : XReg) : Nat × Nat := (4, fS 3 (7 * 2 ^ 8 + 0) 0 d)
def encWaitevSlot (d : XReg) : Nat × Nat := (4, fS 3 (7 * 2 ^ 8 + 1) 0 d)
def encSqopen (d h p : XReg) : Nat × Nat := (4, fA (0 * 2 ^ 4) p h d 0x16)
def encSqres (d h n : XReg) : Nat × Nat := (4, fA (1 * 2 ^ 4) n h d 0x16)
def encSqst (z : Sz) (s h i : XReg) : Nat × Nat := (4, fA (2 * 2 ^ 4 + z.code * 2 ^ 2) i h s 0x16)
def encSqcmt (c : WideScope) (h r : XReg) : Nat × Nat := (4, fA (3 * 2 ^ 4 + c.code) r h 0 0x16)
def encSqlen (c : WideScope) (d h : XReg) : Nat × Nat := (4, fA (4 * 2 ^ 4 + c.code) 0 h d 0x16)
def encSqwait (c : WideScope) (d h n : XReg) : Nat × Nat := (4, fA (5 * 2 ^ 4 + c.code) n h d 0x16)
def encSqld (z : Sz) (d h i : XReg) : Nat × Nat := (4, fA (6 * 2 ^ 4 + z.code * 2 ^ 2) i h d 0x16)
def encSqfork (d h b : XReg) : Nat × Nat := (4, fA (7 * 2 ^ 4) b h d 0x16)
def encSqtrim (d h n : XReg) : Nat × Nat := (4, fA (8 * 2 ^ 4) n h d 0x16)
def encSqdrop (h : XReg) : Nat × Nat := (4, fA (9 * 2 ^ 4) 0 h 0 0x16)
def encBinit (c : Scope) (a b : XReg) : Nat × Nat := (4, fA (0 * 2 ^ 5 + c.code * 2 ^ 2) b a 0 0x17)
def encBarr (c : Scope) (d a : XReg) (mk : MReg) : Nat × Nat := (4, fA (1 * 2 ^ 5 + c.code * 2 ^ 2) mk a d 0x17)
def encBarrG (d : XReg) (k : Fin 6) (mk : MReg) : Nat × Nat := (4, fA (1 * 2 ^ 5 + 2 ^ 4) mk k d 0x17)
def encBtest (c : Scope) (d a b : XReg) : Nat × Nat := (4, fA (2 * 2 ^ 5 + c.code * 2 ^ 2) b a d 0x17)
def encBwait (c : Scope) (a b : XReg) : Nat × Nat := (4, fA (3 * 2 ^ 5 + c.code * 2 ^ 2) b a 0 0x17)
def encBwaitG (k : Fin 6) : Nat × Nat := (4, fA (3 * 2 ^ 5 + 2 ^ 4) 0 k 0 0x17)
def encSignal (c : Scope) (a b : XReg) : Nat × Nat := (4, fA (4 * 2 ^ 5 + c.code * 2 ^ 2) b a 0 0x17)
def encGread (d : XReg) (k : Fin 6) (sel : Fin 5) : Nat × Nat := (4, fA (5 * 2 ^ 5) sel k d 0x17)
def encQapp (d q s : XReg) : Nat × Nat := (4, fA (6 * 2 ^ 5) s q d 0x17)
def encQwait (q n : XReg) : Nat × Nat := (4, fA (7 * 2 ^ 5) n q 0 0x17)
def encVcfg (d a : XReg) : Nat × Nat := (4, fA 0x000 0 a d 0x20)
def encVsetvl (d a : XReg) : Nat × Nat := (4, fA 0x040 0 a d 0x20)
def encVtag (t : BitVec 6) (n1 : Fin 32) (d : VReg) : Nat × Nat := (4, fA (0x080 + t.toNat) 0 n1 d 0x20)
def encVtagrd (d : XReg) (a : VReg) : Nat × Nat := (4, fA 0x0C0 0 a d 0x20)
def encVadd (c m : Bool) (d a : VReg) (b : VSrc) : Nat × Nat := (4, fV 0 (bit c) (bit m) b.kind b.field a d 0x21)
def encVsub (c m : Bool) (d a : VReg) (b : VSrc) : Nat × Nat := (4, fV 1 (bit c) (bit m) b.kind b.field a d 0x21)
def encVrsub (c m : Bool) (d a : VReg) (b : VSrc) : Nat × Nat := (4, fV 2 (bit c) (bit m) b.kind b.field a d 0x21)
def encVmul (c m : Bool) (d a : VReg) (b : VSrc) : Nat × Nat := (4, fV 3 (bit c) (bit m) b.kind b.field a d 0x21)
def encVmulh (c m : Bool) (d a : VReg) (b : VSrc) : Nat × Nat := (4, fV 4 (bit c) (bit m) b.kind b.field a d 0x21)
def encVdiv (c m : Bool) (d a : VReg) (b : VSrc) : Nat × Nat := (4, fV 5 (bit c) (bit m) b.kind b.field a d 0x21)
def encVrem (c m : Bool) (d a : VReg) (b : VSrc) : Nat × Nat := (4, fV 6 (bit c) (bit m) b.kind b.field a d 0x21)
def encVmin (c m : Bool) (d a : VReg) (b : VSrc) : Nat × Nat := (4, fV 7 (bit c) (bit m) b.kind b.field a d 0x21)
def encVmax (c m : Bool) (d a : VReg) (b : VSrc) : Nat × Nat := (4, fV 8 (bit c) (bit m) b.kind b.field a d 0x21)
def encVand (c m : Bool) (d a : VReg) (b : VSrc) : Nat × Nat := (4, fV 9 (bit c) (bit m) b.kind b.field a d 0x21)
def encVor (c m : Bool) (d a : VReg) (b : VSrc) : Nat × Nat := (4, fV 10 (bit c) (bit m) b.kind b.field a d 0x21)
def encVxor (c m : Bool) (d a : VReg) (b : VSrc) : Nat × Nat := (4, fV 11 (bit c) (bit m) b.kind b.field a d 0x21)
def encVsll (c m : Bool) (d a : VReg) (b : VSrc) : Nat × Nat := (4, fV 12 (bit c) (bit m) b.kind b.field a d 0x21)
def encVsrl (c m : Bool) (d a : VReg) (b : VSrc) : Nat × Nat := (4, fV 13 (bit c) (bit m) b.kind b.field a d 0x21)
def encVsra (c m : Bool) (d a : VReg) (b : VSrc) : Nat × Nat := (4, fV 14 (bit c) (bit m) b.kind b.field a d 0x21)
def encVfma (c m : Bool) (d a : VReg) (b : VSrc) : Nat × Nat := (4, fV 0 (bit c) (bit m) b.kind b.field a d 0x22)
def encVfnma (c m : Bool) (d a : VReg) (b : VSrc) : Nat × Nat := (4, fV 1 (bit c) (bit m) b.kind b.field a d 0x22)
def encVabs (c m : Bool) (d a : VReg) : Nat × Nat := (4, fV 2 (bit c) (bit m) 0 0 a d 0x22)
def encVneg (c m : Bool) (d a : VReg) : Nat × Nat := (4, fV 3 (bit c) (bit m) 0 0 a d 0x22)
def encVsel (c : Bool) (d a : VReg) (b : VSrc) : Nat × Nat := (4, fV 4 (bit c) 0 b.kind b.field a d 0x22)
def encVaddc (q : MReg) (c m : Bool) (d a : VReg) (b : VSrc) : Nat × Nat := (4, fV (0 * 2 ^ 3 + q.val) (bit c) (bit m) b.kind b.field a d 0x23)
def encVsubb (q : MReg) (c m : Bool) (d a : VReg) (b : VSrc) : Nat × Nat := (4, fV (1 * 2 ^ 3 + q.val) (bit c) (bit m) b.kind b.field a d 0x23)
def encVmadw (c m : Bool) (d a : VReg) (b : VSrc) : Nat × Nat := (4, fV 16 (bit c) (bit m) b.kind b.field a d 0x23)
def encVnshr (c m : Bool) (d a : VReg) (b : VSrc) : Nat × Nat := (4, fV 17 (bit c) (bit m) b.kind b.field a d 0x23)
def encVsadd (c m : Bool) (d a : VReg) (b : VSrc) : Nat × Nat := (4, fV 18 (bit c) (bit m) b.kind b.field a d 0x23)
def encVssub (c m : Bool) (d a : VReg) (b : VSrc) : Nat × Nat := (4, fV 19 (bit c) (bit m) b.kind b.field a d 0x23)
def encVavg (c m : Bool) (d a : VReg) (b : VSrc) : Nat × Nat := (4, fV 20 (bit c) (bit m) b.kind b.field a d 0x23)
def encVcmp (q : VCond) (m : Bool) (d : MReg) (a : VReg) (b : VSrc) : Nat × Nat := (4, fV q.code 0 (bit m) b.kind b.field a d 0x24)
def encMand (d a b : MReg) : Nat × Nat := (4, fV 8 0 0 0 b a d 0x24)
def encMor (d a b : MReg) : Nat × Nat := (4, fV 9 0 0 0 b a d 0x24)
def encMxor (d a b : MReg) : Nat × Nat := (4, fV 10 0 0 0 b a d 0x24)
def encMandn (d a b : MReg) : Nat × Nat := (4, fV 11 0 0 0 b a d 0x24)
def encMnot (d a : MReg) : Nat × Nat := (4, fV 12 0 0 0 0 a d 0x24)
def encMslide (d a : MReg) (k : Fin 4) : Nat × Nat := (4, fV 13 0 0 2 k a d 0x24)
def encMpop (m : Bool) (d : XReg) (a : MReg) : Nat × Nat := (4, fV 14 0 (bit m) 0 0 a d 0x24)
def encMfirst (m : Bool) (d : XReg) (a : MReg) : Nat × Nat := (4, fV 15 0 (bit m) 0 0 a d 0x24)
def encMset (d : MReg) (k : Bool) : Nat × Nat := (4, fV 16 0 0 2 (bit k) 0 d 0x24)
def encMmvMask (d a : MReg) : Nat × Nat := (4, fV 17 0 0 0 0 a d 0x24)
def encMmvToVector (d : VReg) (a : MReg) : Nat × Nat := (4, fV 17 0 0 0 1 a d 0x24)
def encMmvFromVector (d : MReg) (a : VReg) : Nat × Nat := (4, fV 17 0 0 0 2 a d 0x24)
def encVslide (m : Bool) (d a : VReg) (b : XISrc) : Nat × Nat := (4, fV 0 0 (bit m) b.kind b.field a d 0x25)
def encVperm (m : Bool) (d a b : VReg) : Nat × Nat := (4, fV 1 0 (bit m) 0 b a d 0x25)
def encVcomp (d a : VReg) : Nat × Nat := (4, fV 2 0 0 0 0 a d 0x25)
def encViota (m : Bool) (d : VReg) (a : MReg) : Nat × Nat := (4, fV 3 0 (bit m) 0 0 a d 0x25)
def encVmv (m : Bool) (d : VReg) (b : MvSrc) : Nat × Nat := (4, fV 4 0 (bit m) b.kind b.fieldB b.fieldA d 0x25)
def encVmvx (d : XReg) (a : VReg) (b : XISrc) : Nat × Nat := (4, fV 5 0 0 b.kind b.field a d 0x25)
def encVmvi (d : VReg) (b a : XReg) : Nat × Nat := (4, fV 6 0 0 1 b a d 0x25)
def encVred (m toX : Bool) (o : RedOp) (d : Fin 32) (a : VReg) : Nat × Nat := (4, fV 7 0 (bit m) 2 (bit toX * 2 ^ 4 + o.code) a d 0x25)
def encVscan (m : Bool) (d a : VReg) : Nat × Nat := (4, fV 8 0 (bit m) 0 0 a d 0x25)
def encVsegredSum (m : Bool) (d a : VReg) (b : XReg) : Nat × Nat := (4, fV 9 0 (bit m) 1 b a d 0x25)
def encVsegredMax (m : Bool) (d a : VReg) (b : XReg) : Nat × Nat := (4, fV 10 0 (bit m) 1 b a d 0x25)
def encVsegredMin (m : Bool) (d a : VReg) (b : XReg) : Nat × Nat := (4, fV 11 0 (bit m) 1 b a d 0x25)
def encVrcp (c m : Bool) (d a : VReg) : Nat × Nat := (4, fV 0 (bit c) (bit m) 0 0 a d 0x26)
def encVrsq (c m : Bool) (d a : VReg) : Nat × Nat := (4, fV 1 (bit c) (bit m) 0 0 a d 0x26)
def encVsqrt (c m : Bool) (d a : VReg) : Nat × Nat := (4, fV 2 (bit c) (bit m) 0 0 a d 0x26)
def encVexp2 (c m : Bool) (d a : VReg) : Nat × Nat := (4, fV 3 (bit c) (bit m) 0 0 a d 0x26)
def encVlog2 (c m : Bool) (d a : VReg) : Nat × Nat := (4, fV 4 (bit c) (bit m) 0 0 a d 0x26)
def encVtanh (c m : Bool) (d a : VReg) : Nat × Nat := (4, fV 5 (bit c) (bit m) 0 0 a d 0x26)
def encVcvt (r : CvtMode) (c m : Bool) (d a : VReg) : Nat × Nat := (4, fV r.code (bit c) (bit m) 0 0 a d 0x27)
def encVcvtScaled (r : CvtMode) (c m : Bool) (d a : VReg) : Nat × Nat := (4, fV r.code (bit c) (bit m) 0 7 a d 0x27)
def encVamax (m : Bool) (a : VReg) : Nat × Nat := (4, fV 4 0 (bit m) 0 0 a 0 0x27)
def encVscale (m : Bool) (f : BitVec 5) (d a : VReg) : Nat × Nat := (4, fV 5 0 (bit m) 2 f.toNat a d 0x27)
def encVscore (m : Bool) (d a : VReg) (b : XReg) : Nat × Nat := (4, fV 0 0 (bit m) 1 b a d 0x28)
def encVexpm (c m : Bool) (d a : VReg) (b : XReg) : Nat × Nat := (4, fV 1 (bit c) (bit m) 1 b a d 0x28)
def encVaccp (m : Bool) (d a : VReg) (b : XReg) : Nat × Nat := (4, fV 2 0 (bit m) 1 b a d 0x28)
def encSsoft (d b : XReg) (a : VReg) : Nat × Nat := (4, fV 3 0 0 1 b a d 0x28)
def encVld (m : Bool) (g : Lane4) (d : VReg) (b : XReg) : Nat × Nat := (4, fVM 0 0 (bit m) g 0 b d 0x29)
def encVldStrided (m : Bool) (g : Lane4) (d : VReg) (b s : XReg) : Nat × Nat := (4, fVM 1 0 (bit m) g s b d 0x29)
def encVldseg (n : Fin 8) (m : Bool) (g : Lane4) (d : VReg) (b s : XReg) : Nat × Nat := (4, fVM 2 n (bit m) g s b d 0x29)
def encVwait (x : WideScope) (q : WaitCond) (m : Bool) (g : Lane4) (v : VReg) (b : XReg) (i : VReg) : Nat × Nat := (4, fVM 3 (x.code * 2 ^ 2 + q.code) (bit m) g i b v 0x29)
def encVst (m : Bool) (g : Lane4) (s : VReg) (b : XReg) : Nat × Nat := (4, fVM 0 0 (bit m) g 0 b s 0x2A)
def encVstStrided (m : Bool) (g : Lane4) (s : VReg) (b i : XReg) : Nat × Nat := (4, fVM 1 0 (bit m) g i b s 0x2A)
def encVstseg (n : Fin 8) (m : Bool) (g : Lane4) (s : VReg) (b i : XReg) : Nat × Nat := (4, fVM 2 n (bit m) g i b s 0x2A)
def encVldx (m : Bool) (g : Lane4) (d : VReg) (b : XReg) (i : VReg) : Nat × Nat := (4, fVM 0 0 (bit m) g i b d 0x2B)
def encVstxU (m : Bool) (g : Lane4) (s : VReg) (b : XReg) (i : VReg) : Nat × Nat := (4, fVM 1 0 (bit m) g i b s 0x2B)
def encVstxO (m : Bool) (g : Lane4) (s : VReg) (b : XReg) (i : VReg) : Nat × Nat := (4, fVM 1 1 (bit m) g i b s 0x2B)
def encVscadd (m : Bool) (g : Lane4) (s : VReg) (b : XReg) (i : VReg) : Nat × Nat := (4, fVM 2 0 (bit m) g i b s 0x2B)
def encVmergeu (kz : Bool) (d : VReg) (n : XReg) (a : VReg) : Nat × Nat := (4, fVM 3 (bit kz) 0 0 a n d 0x2B)
def encVamo (o : VamoOp) (x : WideScope) (r : Option OrdFlag) (m : Bool) (g : Lane4) (d : VReg) (b : XReg) (i : VReg) : Nat × Nat := (4, fVM (4 + o.code) (x.code * 2 ^ 2 + optFlag r) (bit m) g i b d 0x2B)
def encVsqres (m : Bool) (g : Lane4) (d h : VReg) : Nat × Nat := (4, fVM 0 0 (bit m) g h 0 d 0x2C)
def encVsqst (m : Bool) (g : Lane4) (s : VReg) (h i : XReg) : Nat × Nat := (4, fVM 1 0 (bit m) g i h s 0x2C)
def encVsqstX (m : Bool) (g : Lane4) (s h i : VReg) : Nat × Nat := (4, fVM 2 0 (bit m) g i h s 0x2C)
def encVsqcmt (x : WideScope) (m : Bool) (g : Lane4) (h i : VReg) : Nat × Nat := (4, fVM 3 x.code (bit m) g i h 0 0x2C)
def encVsqld (m : Bool) (g : Lane4) (d : VReg) (h i : XReg) : Nat × Nat := (4, fVM 4 0 (bit m) g i h d 0x2C)
def encVsqldX (m : Bool) (g : Lane4) (d h i : VReg) : Nat × Nat := (4, fVM 5 0 (bit m) g i h d 0x2C)
def encDcfg (d x : XReg) : Nat × Nat := (4, fD 0 x 0 0 d)
def encDzero (x : XReg) : Nat × Nat := (4, fD 1 x 0 0 0)
def encDmac (a b : VReg) (x : XReg) : Nat × Nat := (4, fD 2 x b a 0)
def encDmacD (a b : VReg) (x : XReg) : Nat × Nat := (4, fD 3 x b a 0)
def encDmacg (a b : VReg) (x : XReg) : Nat × Nat := (4, fD 4 x b a 0)
def encDxtr (ne m : Bool) (d : VReg) (x : XReg) : Nat × Nat := (4, fD 5 x (bit ne * 2 + bit m) 0 d)
def encDdir (d x : XReg) : Nat × Nat := (4, fD 6 x 0 0 d)
def encDfree (x : XReg) : Nat × Nat := (4, fD 7 x 0 0 0)
def encDmv (d a b : VReg) (x : XReg) : Nat × Nat := (4, fD 8 x b a d)
def encDmvM (d a b : VReg) (x : XReg) : Nat × Nat := (4, fD 9 x b a d)
def encDpiv (m : Bool) (d a : VReg) : Nat × Nat := (4, fD 10 0 (bit m) a d)
def encDupd (m : Bool) (a : VReg) (x : XReg) : Nat × Nat := (4, fD 11 x (bit m) a 0)
def encXcopy (ex : Bool) (z : Sz) (h : Lane4) (o : Ord) (d a : XReg) (b : VReg) : Nat × Nat := (4, fA (bit ex * 2 ^ 7 + z.code * 2 ^ 5 + h.val * 2 ^ 3 + o.code) b a d 0x34)
def encXgath (h : Lane4) (o : Ord) (d a : XReg) (b : VReg) : Nat × Nat := (4, fA (2 ^ 8 + 0 * 2 ^ 5 + h.val * 2 ^ 3 + o.code) b a d 0x34)
def encXxform (h : Lane4) (o : Ord) (a b : XReg) : Nat × Nat := (4, fA (2 ^ 8 + 1 * 2 ^ 5 + h.val * 2 ^ 3 + o.code) b a 0 0x34)
def encXdrain (h : Lane4) : Nat × Nat := (4, fA (2 ^ 8 + 2 * 2 ^ 5 + h.val * 2 ^ 3) 0 0 0 0x34)
def encXchain (a : VReg) (b : XReg) : Nat × Nat := (4, fA (2 ^ 8 + 3 * 2 ^ 5) b a 0 0x34)
def encSbind (d : SReg) (a b : XReg) : Nat × Nat := (4, fA (2 ^ 8 + 4 * 2 ^ 5) b a d 0x34)
def encSrel (d : SReg) : Nat × Nat := (4, fA (2 ^ 8 + 5 * 2 ^ 5) 0 0 d 0x34)
def encSstat (d : XReg) (a : SReg) : Nat × Nat := (4, fA (2 ^ 8 + 6 * 2 ^ 5) 0 a d 0x34)
def encCAddi (d : XReg) (i : BitVec 6) : Nat × Nat := (2, fC 0 (d.val * 2 ^ 6 + i.toNat) 0)
def encCLi (d : XReg) (i : BitVec 6) : Nat × Nat := (2, fC 1 (d.val * 2 ^ 6 + i.toNat) 0)
def encCSlli (d : XReg) (s : BitVec 6) : Nat × Nat := (2, fC 2 (d.val * 2 ^ 6 + s.toNat) 0)
def encCLd (d b : Fin 8) (o : BitVec 5) : Nat × Nat := (2, fC 3 (d.val * 2 ^ 8 + b.val * 2 ^ 5 + o.toNat) 0)
def encCSt (s b : Fin 8) (o : BitVec 5) : Nat × Nat := (2, fC 4 (s.val * 2 ^ 8 + b.val * 2 ^ 5 + o.toNat) 0)
def encCBeqz (a : Fin 8) (o : BitVec 8) : Nat × Nat := (2, fC 5 (a.val * 2 ^ 8 + o.toNat) 0)
def encCBnez (a : Fin 8) (o : BitVec 8) : Nat × Nat := (2, fC 6 (a.val * 2 ^ 8 + o.toNat) 0)
def encCJ (o : BitVec 11) : Nat × Nat := (2, fC 7 o.toNat 0)
def encCMv (d s : XReg) : Nat × Nat := (2, fC 0 (d.val * 2 ^ 6 + s.val * 2) 2)
def encCAdd (d s : XReg) : Nat × Nat := (2, fC 1 (d.val * 2 ^ 6 + s.val * 2) 2)
def encCJr (a : XReg) : Nat × Nat := (2, fC 2 (a.val * 2 ^ 6) 2)
def encCNop : Nat × Nat := (2, fC 3 0 2)
def encTzero (t : TReg) : Nat × Nat := (8, fP (0 * 2 ^ 11 + t.val * 2 ^ 8 + 0x07) (fA 0 0 0 0 0x00))
def encTrowmv (m : Bool) (t : TReg) (a : VReg) (x : XReg) : Nat × Nat := (8, fP (bit m * 2 ^ 11 + t.val * 2 ^ 8 + 0x07) (fA 0 x a 0 0x01))
def encTcolmv (m : Bool) (d : VReg) (t : TReg) (x : XReg) : Nat × Nat := (8, fP (bit m * 2 ^ 11 + t.val * 2 ^ 8 + 0x07) (fA 0 x 0 d 0x02))
def encTmma (t : TReg) (a b : VReg) : Nat × Nat := (8, fP (0 * 2 ^ 11 + t.val * 2 ^ 8 + 0x07) (fA 0 b a 0 0x03))
def encTstat (d : XReg) : Nat × Nat := (8, fP (0 * 2 ^ 11 + 0 * 2 ^ 8 + 0x07) (fA 0 0 0 d 0x04))
def encTsave (t : TReg) (a : XReg) : Nat × Nat := (8, fP (0 * 2 ^ 11 + t.val * 2 ^ 8 + 0x07) (fA 0 0 a 0 0x05))
def encTrest (t : TReg) (a : XReg) : Nat × Nat := (8, fP (0 * 2 ^ 11 + t.val * 2 ^ 8 + 0x07) (fA 0 0 a 0 0x06))
def encLi64 (d : XReg) (i : BitVec 51) : Nat × Nat := (8, fP (i.toNat / 2 ^ 32 * 2 ^ 13 + d.val * 2 ^ 8 + 0x0B) (i.toNat % 2 ^ 32))

/-- The encoding of an instruction; device operations have none. -/
def encode : Instr → Option (Nat × Nat)
  | .add d a b => some (encAdd d a b)
  | .sub d a b => some (encSub d a b)
  | .and d a b => some (encAnd d a b)
  | .or d a b => some (encOr d a b)
  | .xor d a b => some (encXor d a b)
  | .sll d a b => some (encSll d a b)
  | .srl d a b => some (encSrl d a b)
  | .sra d a b => some (encSra d a b)
  | .rot d a b => some (encRot d a b)
  | .slt d a b => some (encSlt d a b)
  | .sltn d a b => some (encSltn d a b)
  | .min d a b => some (encMin d a b)
  | .max d a b => some (encMax d a b)
  | .minn d a b => some (encMinn d a b)
  | .maxn d a b => some (encMaxn d a b)
  | .mul d a b => some (encMul d a b)
  | .mulh d a b => some (encMulh d a b)
  | .mulhn d a b => some (encMulhn d a b)
  | .div d a b => some (encDiv d a b)
  | .divn d a b => some (encDivn d a b)
  | .rem d a b => some (encRem d a b)
  | .remn d a b => some (encRemn d a b)
  | .bext d a b => some (encBext d a b)
  | .bexts d a b => some (encBexts d a b)
  | .bins d a b => some (encBins d a b)
  | .sel d a b => some (encSel d a b)
  | .clz d a => some (encClz d a)
  | .ctz d a => some (encCtz d a)
  | .popc d a => some (encPopc d a)
  | .bswap d a => some (encBswap d a)
  | .addi d a i => some (encAddi d a i)
  | .andi d a i => some (encAndi d a i)
  | .ori d a i => some (encOri d a i)
  | .xori d a i => some (encXori d a i)
  | .slti d a i => some (encSlti d a i)
  | .sltni d a i => some (encSltni d a i)
  | .slli d a s => some (encSlli d a s)
  | .srli d a s => some (encSrli d a s)
  | .srai d a s => some (encSrai d a s)
  | .roti d a s => some (encRoti d a s)
  | .bexti d a o w => some (encBexti d a o w)
  | .bextsi d a o w => some (encBextsi d a o w)
  | .binsi d a o w => some (encBinsi d a o w)
  | .lui d i => some (encLui d i)
  | .addpc d i => some (encAddpc d i)
  | .jal d o => some (encJal d o)
  | .jalr d a i => some (encJalr d a i)
  | .beq a b o => some (encBeq a b o)
  | .bne a b o => some (encBne a b o)
  | .blt a b o => some (encBlt a b o)
  | .bge a b o => some (encBge a b o)
  | .bltn a b o => some (encBltn a b o)
  | .bgen a b o => some (encBgen a b o)
  | .ld z d b i => some (encLd z d b i)
  | .st z s b i => some (encSt z s b i)
  | .fadd f d a b => some (encFadd f d a b)
  | .fsub f d a b => some (encFsub f d a b)
  | .fmul f d a b => some (encFmul f d a b)
  | .fma f d a b => some (encFma f d a b)
  | .fnma f d a b => some (encFnma f d a b)
  | .fdiv f d a b => some (encFdiv f d a b)
  | .fmin f d a b => some (encFmin f d a b)
  | .fmax f d a b => some (encFmax f d a b)
  | .fsqrt f d a => some (encFsqrt f d a)
  | .fcmp f q d a b => some (encFcmp f q d a b)
  | .fclass f d a => some (encFclass f d a)
  | .fcvt t s d a => some (encFcvt t s d a)
  | .amo p dbl o d a b => some (encAmo p dbl o d a b)
  | .cas dbl o d a b => some (encCas dbl o d a b)
  | .fence t c => some (encFence t c)
  | .sbar lead held => some (encSbar lead held)
  | .csrrd d c => some (encCsrrd d c)
  | .csrwr c a => some (encCsrwr c a)
  | .csrxch d c a => some (encCsrxch d c a)
  | .trapi i => some (encTrapi i)
  | .sysret => some (encSysret)
  | .halt => some (encHalt)
  | .yield => some (encYield)
  | .exit => some (encExit)
  | .exitG => some (encExitG)
  | .cacheopPrefetch a => some (encCacheopPrefetch a)
  | .cacheopPin a => some (encCacheopPin a)
  | .cacheopUnpin a => some (encCacheopUnpin a)
  | .cacheopFlush a => some (encCacheopFlush a)
  | .cacheopInvalidate a => some (encCacheopInvalidate a)
  | .tlbinvPage a => some (encTlbinvPage a)
  | .tlbinvAll => some (encTlbinvAll)
  | .waitevTimer d => some (encWaitevTimer d)
  | .waitevSlot d => some (encWaitevSlot d)
  | .sqopen d h p => some (encSqopen d h p)
  | .sqres d h n => some (encSqres d h n)
  | .sqst z s h i => some (encSqst z s h i)
  | .sqcmt c h r => some (encSqcmt c h r)
  | .sqlen c d h => some (encSqlen c d h)
  | .sqwait c d h n => some (encSqwait c d h n)
  | .sqld z d h i => some (encSqld z d h i)
  | .sqfork d h b => some (encSqfork d h b)
  | .sqtrim d h n => some (encSqtrim d h n)
  | .sqdrop h => some (encSqdrop h)
  | .binit c a b => some (encBinit c a b)
  | .barr c d a mk => some (encBarr c d a mk)
  | .barrG d k mk => some (encBarrG d k mk)
  | .btest c d a b => some (encBtest c d a b)
  | .bwait c a b => some (encBwait c a b)
  | .bwaitG k => some (encBwaitG k)
  | .signal c a b => some (encSignal c a b)
  | .gread d k sel => some (encGread d k sel)
  | .qapp d q s => some (encQapp d q s)
  | .qwait q n => some (encQwait q n)
  | .vcfg d a => some (encVcfg d a)
  | .vsetvl d a => some (encVsetvl d a)
  | .vtag t n1 d => some (encVtag t n1 d)
  | .vtagrd d a => some (encVtagrd d a)
  | .vadd c m d a b => some (encVadd c m d a b)
  | .vsub c m d a b => some (encVsub c m d a b)
  | .vrsub c m d a b => some (encVrsub c m d a b)
  | .vmul c m d a b => some (encVmul c m d a b)
  | .vmulh c m d a b => some (encVmulh c m d a b)
  | .vdiv c m d a b => some (encVdiv c m d a b)
  | .vrem c m d a b => some (encVrem c m d a b)
  | .vmin c m d a b => some (encVmin c m d a b)
  | .vmax c m d a b => some (encVmax c m d a b)
  | .vand c m d a b => some (encVand c m d a b)
  | .vor c m d a b => some (encVor c m d a b)
  | .vxor c m d a b => some (encVxor c m d a b)
  | .vsll c m d a b => some (encVsll c m d a b)
  | .vsrl c m d a b => some (encVsrl c m d a b)
  | .vsra c m d a b => some (encVsra c m d a b)
  | .vfma c m d a b => some (encVfma c m d a b)
  | .vfnma c m d a b => some (encVfnma c m d a b)
  | .vabs c m d a => some (encVabs c m d a)
  | .vneg c m d a => some (encVneg c m d a)
  | .vsel c d a b => some (encVsel c d a b)
  | .vaddc q c m d a b => some (encVaddc q c m d a b)
  | .vsubb q c m d a b => some (encVsubb q c m d a b)
  | .vmadw c m d a b => some (encVmadw c m d a b)
  | .vnshr c m d a b => some (encVnshr c m d a b)
  | .vsadd c m d a b => some (encVsadd c m d a b)
  | .vssub c m d a b => some (encVssub c m d a b)
  | .vavg c m d a b => some (encVavg c m d a b)
  | .vcmp q m d a b => some (encVcmp q m d a b)
  | .mand d a b => some (encMand d a b)
  | .mor d a b => some (encMor d a b)
  | .mxor d a b => some (encMxor d a b)
  | .mandn d a b => some (encMandn d a b)
  | .mnot d a => some (encMnot d a)
  | .mslide d a k => some (encMslide d a k)
  | .mpop m d a => some (encMpop m d a)
  | .mfirst m d a => some (encMfirst m d a)
  | .mset d k => some (encMset d k)
  | .mmvMask d a => some (encMmvMask d a)
  | .mmvToVector d a => some (encMmvToVector d a)
  | .mmvFromVector d a => some (encMmvFromVector d a)
  | .vslide m d a b => some (encVslide m d a b)
  | .vperm m d a b => some (encVperm m d a b)
  | .vcomp d a => some (encVcomp d a)
  | .viota m d a => some (encViota m d a)
  | .vmv m d b => some (encVmv m d b)
  | .vmvx d a b => some (encVmvx d a b)
  | .vmvi d b a => some (encVmvi d b a)
  | .vred m toX o d a => some (encVred m toX o d a)
  | .vscan m d a => some (encVscan m d a)
  | .vsegredSum m d a b => some (encVsegredSum m d a b)
  | .vsegredMax m d a b => some (encVsegredMax m d a b)
  | .vsegredMin m d a b => some (encVsegredMin m d a b)
  | .vrcp c m d a => some (encVrcp c m d a)
  | .vrsq c m d a => some (encVrsq c m d a)
  | .vsqrt c m d a => some (encVsqrt c m d a)
  | .vexp2 c m d a => some (encVexp2 c m d a)
  | .vlog2 c m d a => some (encVlog2 c m d a)
  | .vtanh c m d a => some (encVtanh c m d a)
  | .vcvt r c m d a => some (encVcvt r c m d a)
  | .vcvtScaled r c m d a => some (encVcvtScaled r c m d a)
  | .vamax m a => some (encVamax m a)
  | .vscale m f d a => some (encVscale m f d a)
  | .vscore m d a b => some (encVscore m d a b)
  | .vexpm c m d a b => some (encVexpm c m d a b)
  | .vaccp m d a b => some (encVaccp m d a b)
  | .ssoft d b a => some (encSsoft d b a)
  | .vld m g d b => some (encVld m g d b)
  | .vldStrided m g d b s => some (encVldStrided m g d b s)
  | .vldseg n m g d b s => some (encVldseg n m g d b s)
  | .vwait x q m g v b i => some (encVwait x q m g v b i)
  | .vst m g s b => some (encVst m g s b)
  | .vstStrided m g s b i => some (encVstStrided m g s b i)
  | .vstseg n m g s b i => some (encVstseg n m g s b i)
  | .vldx m g d b i => some (encVldx m g d b i)
  | .vstxU m g s b i => some (encVstxU m g s b i)
  | .vstxO m g s b i => some (encVstxO m g s b i)
  | .vscadd m g s b i => some (encVscadd m g s b i)
  | .vmergeu kz d n a => some (encVmergeu kz d n a)
  | .vamo o x r m g d b i => some (encVamo o x r m g d b i)
  | .vsqres m g d h => some (encVsqres m g d h)
  | .vsqst m g s h i => some (encVsqst m g s h i)
  | .vsqstX m g s h i => some (encVsqstX m g s h i)
  | .vsqcmt x m g h i => some (encVsqcmt x m g h i)
  | .vsqld m g d h i => some (encVsqld m g d h i)
  | .vsqldX m g d h i => some (encVsqldX m g d h i)
  | .dcfg d x => some (encDcfg d x)
  | .dzero x => some (encDzero x)
  | .dmac a b x => some (encDmac a b x)
  | .dmacD a b x => some (encDmacD a b x)
  | .dmacg a b x => some (encDmacg a b x)
  | .dxtr ne m d x => some (encDxtr ne m d x)
  | .ddir d x => some (encDdir d x)
  | .dfree x => some (encDfree x)
  | .dmv d a b x => some (encDmv d a b x)
  | .dmvM d a b x => some (encDmvM d a b x)
  | .dpiv m d a => some (encDpiv m d a)
  | .dupd m a x => some (encDupd m a x)
  | .xcopy ex z h o d a b => some (encXcopy ex z h o d a b)
  | .xgath h o d a b => some (encXgath h o d a b)
  | .xxform h o a b => some (encXxform h o a b)
  | .xdrain h => some (encXdrain h)
  | .xchain a b => some (encXchain a b)
  | .sbind d a b => some (encSbind d a b)
  | .srel d => some (encSrel d)
  | .sstat d a => some (encSstat d a)
  | .cAddi d i => some (encCAddi d i)
  | .cLi d i => some (encCLi d i)
  | .cSlli d s => some (encCSlli d s)
  | .cLd d b o => some (encCLd d b o)
  | .cSt s b o => some (encCSt s b o)
  | .cBeqz a o => some (encCBeqz a o)
  | .cBnez a o => some (encCBnez a o)
  | .cJ o => some (encCJ o)
  | .cMv d s => some (encCMv d s)
  | .cAdd d s => some (encCAdd d s)
  | .cJr a => some (encCJr a)
  | .cNop => some (encCNop)
  | .tzero t => some (encTzero t)
  | .trowmv m t a x => some (encTrowmv m t a x)
  | .tcolmv m d t x => some (encTcolmv m d t x)
  | .tmma t a b => some (encTmma t a b)
  | .tstat d => some (encTstat d)
  | .tsave t a => some (encTsave t a)
  | .trest t a => some (encTrest t a)
  | .li64 d i => some (encLi64 d i)
  | .coldReset => none
  | .modulePowerOn => none
  | .bootStage _ => none
  | .bootStageTimeout => none
  | .registerWrite _ _ => none
  | .queueEnable _ => none
  | .queueDisable _ => none
  | .tailWrite _ _ => none
  | .entryFetch _ => none
  | .entryStart _ => none
  | .placeItems => none
  | .timeSliceExpiry _ => none
  | .frameSave _ => none
  | .restore _ => none
  | .entryComplete _ _ => none
  | .watchdogExpiry _ => none
  | .eventRecordWrite => none
  | .evheadWrite _ => none
  | .evovfRead => none
  | .vunpark _ => none
  | .svcqHeadPoll _ => none
  | .relqHeadPoll _ => none
  | .stripIssue _ => none
  | .slotBoundary _ => none
  | .routineLoad _ => none
  | .routineUnload _ => none
  | .routineLoadDone => none
  | .ecallRead _ _ _ _ => none
  | .ecallWrite _ _ _ _ => none
  | .ecallWait _ => none
  | .routineReturn _ _ => none
  | .routineTimeout _ => none
  | .copyAccept _ => none
  | .copyExecute _ _ _ => none
  | .ringWriteResume _ _ _ => none
  | .chainGroupDelivery _ => none
  | .tileTransferEnd _ _ => none
  | .walkComplete _ _ _ => none
  | .vwaitTimeout _ => none
  | .waitevDeadline _ => none
  | .pageUpdate _ => none
  | .pageUnmap _ => none
  | .pageMove _ => none
  | .pgcmdBadOp _ => none
  | .moveComplete => none
  | .collectorRun _ => none
  | .cleanerWriteback _ => none
  | .patrolScrub _ => none
  | .dedupSample _ => none
  | .read _ => none
  | .write _ _ => none
  | .atomic _ _ _ => none
  | .vatom _ _ _ _ => none
  | .barrier _ _ => none
  | .vine _ _ _ => none
  | .cacheop _ _ _ => none
  | .watch _ _ => none
  | .fill _ => none
  | .gfill _ => none
  | .heldWriteProceed => none
  | .rdcInvalidate _ _ => none
  | .reply _ _ _ => none
  | .signalAnswer _ _ => none
  | .hostPostedWrite _ _ => none
  | .hostRead _ _ => none
  | .cxlSnoop _ => none
  | .peerRequest _ _ _ _ _ => none
  | .portEnable _ => none
  | .portDisable _ => none
  | .portRetrain _ => none
  | .partnerFound _ _ _ _ => none
  | .trainingTimeout _ => none
  | .retrainFailed _ => none
  | .downRetry _ => none
  | .flitReceive _ _ => none
  | .nakReceive _ _ => none
  | .collectiveDoorbell _ => none
  | .collectiveStart => none
  | .reductionFlit _ _ _ => none
  | .collectiveRefusal _ => none
  | .collectiveTimeout => none
  | .collectiveComplete => none
  | .laneGroupRetire _ _ => none
  | .lgceRead _ => none
  | .powerCap _ => none
  | .corePowerGate _ => none
  | .attest => none
  | .key => none
  | .retire => none
  | .unretire => none
  | .list => none
  | .dieresetEnter => none
  | .dieresetLeave => none
  | .mbcmdUnknown _ => none
  | .mailboxDone => none
  | .dieEnterReset _ => none
  | .fatalDieReset _ => none
  | .engineStrip _ => none
  | .scratchpadAccess _ _ => none
  | .clsegsWrite _ _ => none
  | .hostReadCompletion _ _ => none
  | .modulePowerLoss => none

/-- The bytes of an instruction as they stand in memory, least significant first (R5, R241). -/
def encodeBytes (i : Instr) : List Byte :=
  match encode i with
  | some (n, w) => natToBytes n w
  | none => []

/-- The length in bytes of an instruction (R241); 0 for a device operation. -/
def Instr.len (i : Instr) : Nat :=
  match encode i with
  | some (n, _) => n
  | none => 0

/-- The instruction word as a trap reports it in `tval` (R248, R249, R251): a compressed halfword zero-extended, a
prefixed form with its prefix in [63:32]. -/
def wordOfBits (w : Nat) : Word :=
  match lengthOf w with
  | 8 => BitVec.ofNat 64 (w % 2 ^ 32 * 2 ^ 32 + w / 2 ^ 32 % 2 ^ 32)
  | 4 => BitVec.ofNat 64 (w % 2 ^ 32)
  | _ => BitVec.ofNat 64 (w % 2 ^ 16)

/-- `wordOfBits` of an instruction's own encoding. -/
def Instr.word (i : Instr) : Word :=
  match encode i with
  | some (_, w) => wordOfBits w
  | none => 0

end Sys2Proof
end

