-- ==== Sys2Proof/Config.lean ====
section
/-! DEFINITION. What the implementation fixes, and the free values: constants without a body, of which no proof can see
a value. Each is named in the assumption log. -/

namespace Sys2Proof.Config

/-- A value the spec leaves open, fresh for each count of `State.freeCount` (log 6): nothing constrains it. -/
opaque freeWord : Nat → Word
/-- The clocks one step takes (log 7): timing is not modelled. -/
opaque clocks : Nat → Word
/-- Which entry leaves a full cache or TLB (log 12), by the count of free values and a key. -/
opaque victimPick : Nat → Nat → Nat
/-- Which of the active elements of one location a VSTX.U keeps (R227, log 8). -/
opaque scatterPick : Nat → Nat
/-- Whether a tie of a format of precision 1, above the code given, goes up (R36, log 25). -/
opaque tieUp : Nat → Bool
/-- A byte of the result of a failed collective: DST is undefined (R238, log 9). -/
opaque undefinedByte : Nat → Byte
/-- SHA-256 of a list of bytes; the standard lies outside the manual (R2, log 10). -/
opaque sha256 : List Byte → List Byte
/-- Whether a signature of bytes verifies under a key, by ECDSA P-256 over their SHA-256 (R170, R374, log 10). -/
opaque signatureGood : List Byte → List Byte → List Byte → Bool
/-- The fused SHA-256 of the Baspol boot key, and the fused minimum version of each boot stage (R374, log 10). -/
opaque fusedKeyHash : List Byte
opaque fusedMinimum : Nat → Nat
/-- The signature of a digest by the attestation key (R376, log 10). -/
opaque attestSign : List Byte → List Byte
/-- The attestation public key and its endorsement, 128 bytes (R377, log 10). -/
opaque attestKey : Nat → Byte
/-- The compressed size in 256 B sectors, minus 1, of a block's 4 KiB (R189: sector contents are not part of the
interface, log 11). -/
opaque sectors : List Byte → Fin 16

/-- A byte of a flit's payload whose layout the spec does not give, by the flit (R231, log 76). -/
opaque payloadByte : Nat → Nat → Byte

/-- Where in its stack a routine finds its parameter block, in units of 8 bytes (R171, log 40). -/
opaque blockPlace : Nat

/-- What the hardware random source gives for the key of a share domain, by the draw (R205, log 62). -/
opaque randomKey : Nat → Nat → BitVec 128
/-- The keys of domains 1 to 255, drawn at a module cold reset (R205). -/
def drawKeys (n : Nat) : List (BitVec 128) := (List.range 255).map (randomKey n)
/-- Two different contents have one keyed hash (R203: the hash is not part of the interface, log 62). -/
opaque hashesCollide : BitVec 128 → List Byte → List Byte → Bool

/-- Which of the 65,536 objects of the device-reserved table a group takes (R92, log 13). -/
opaque groupPlace : Nat → Fin 65536

/-! Constants of the device. -/

/-- Tags pinned in one slice at most: half its tags (R209). -/
def pinLimit : Nat := 65536
/-- Vat entries of one slice (R202). -/
def vatEntries : Nat := 65536
/-- Tags of one slice (R202). -/
def l2Tags : Nat := 131072
/-- Sets and ways of an L1 (R197). -/
def l1Sets : Nat := 128
def l1Ways : Nat := 8
/-- Entries of a core TLB and of a die's last-level TLB (R177). -/
def coreTlb : Nat := 64
def dieTlb : Nat := 6144
/-- Lines of a die's remote-data cache for one slice index: 2 MiB (R200). -/
def rdcLines : Nat := 16384
/-- Group objects of the device and group registers of a core (R92). -/
def groupTable : Nat := 65536
def groupRegs : Nat := 32
/-- Commands a copy channel holds (R162). -/
def channelDepth : Nat := 16
/-- VIQ entries (R54) and element groups of a chain buffer (R167). -/
def viqDepth : Nat := 64
def chainGroups : Nat := 8
/-- Words of a core's accumulator store (R114). -/
def accWords : Nat := 32768
/-- Bytes of a core's scratchpad (R14). -/
def spadBytes : Nat := 0x40000

/-- The exclusive end of partition 7 (R192). -/
def lastLimit : Nat := 0x020000000000

/-- Bases of the physical map (R175). -/
def gddrEnd : Nat := 0x003000000000
def cellarBase : Nat := 0x010000000000
def cellarEnd : Nat := 0x020000000000
def spadBase : Nat := 0x080000000000
def spadEnd : Nat := 0x080010000000
def mmioBase : Nat := 0x0F0000000000
def mmioEnd : Nat := 0x0F0100000000
/-- The first system window: 16 windows of 128 MiB inside the MMIO range (R234). -/
def windowBase : Nat := 0x0F0080000000
/-- Where the logical addresses of compressed regions stand among the keys of memory (R173, R191). -/
def compBase : Nat := 0x1000000000000

end Sys2Proof.Config
end

