-- ==== Sys2Proof/Machine/State.lean ====
section
/-! DEFINITION. The machine's state as plain data: every piece of state the spec gives the machine (INVENTORY.md, State),
the reasons a step can stop, and the state after reset. Names follow the spec; a field marked MODEL is the model's own. -/

namespace Sys2Proof.Machine

/-- A sparse table: (key, value) pairs with keys strictly rising and no value equal to the table's default. -/
abbrev Sparse (β : Type) := List (Nat × β)

/-- One vector register (R51, R59): its tag, its extent E(i) in bytes, and the bytes that are not 0. -/
structure VectorReg where
  tag  : BitVec 6 := 0
  ext  : Nat := 0
  data : Sparse Byte := []
  deriving DecidableEq, Repr

/-- One chain message on its way into a consumer (R167, R168). -/
structure ChainMsg where
  width : Nat                -- element bytes of the producer's register
  total : Nat                -- elements of the message
  sent  : Nat                -- elements delivered so far
  data  : List Byte          -- bytes delivered and not yet consumed
  groups : List Nat := []    -- the element groups they stand in: the bytes of each not yet consumed (R167)
  done  : Bool := false      -- its consumer has finished: what still comes is discarded
  deriving DecidableEq, Repr

/-- A stream register (Table 10.1), with the buffer of a chain binding (R167). -/
structure StreamReg where
  kind     : BitVec 2 := 0
  tag      : BitVec 6 := 0
  rsize    : BitVec 18 := 0
  rbase    : BitVec 18 := 0
  arrived  : Word := 0
  consumed : Word := 0
  peer     : BitVec 12 := 0
  msgs     : List ChainMsg := []
  poison   : Bool := false        -- an uncorrectable error stands in its buffer (R371)
  deriving DecidableEq, Repr

/-- A resident structure as DUPD reads its descriptor (R130): bytes of an element, order, and (OFF, BASE) of each diagonal. -/
structure Resident where
  bytes : Nat
  n     : Nat
  diags : List (Int × VAddr)
  deriving DecidableEq, Repr

/-- A VIQ entry (R54, R59): its address, captured `vl`, instruction and captured scalar operands. `since` is the cycle of
a VWAIT's first read (R322), `begun` the element at which a store form began (R227), `held` a value and `desc` a descriptor that an instruction takes
once, at its first strip (R337, R130). `poison`: an uncorrectable error stands in it (R371). -/
structure VEntry where
  addr  : VAddr
  vl    : Nat
  instr : Instr
  op0   : Word
  op1   : Word
  since : Option Word := none
  begun : Option Nat := none
  held  : Option Word := none
  desc  : Option Resident := none
  poison : Bool := false
  deriving DecidableEq, Repr

/-- The vector-side and rounding CSRs of Table 3.4. -/
structure Csrs where
  vl      : Word := 0
  vcfg    : Word := 0
  vstart  : Word := 0
  vdirty  : BitVec 32 := 0
  vrnd    : BitVec 2 := 0
  vsat    : BitVec 1 := 0
  vcarry  : BitVec 32 := 0
  amax    : BitVec 31 := 0
  fexc    : BitVec 5 := 0
  frnd    : BitVec 3 := 0
  vshare  : BitVec 4 := 1
  vlmax   : Word := 0
  dcfg    : Word := 0
  dstat   : Word := 0
  dpivtau : BitVec 32 := 0
  dpivcnt : BitVec 32 := 0
  tstat   : BitVec 24 := 0
  sqinfo  : Word := 0
  retired : Word := 0
  ebeats  : Word := 0
  deriving DecidableEq, Repr

/-- The registers a trap writes, and the vector base (Tables 3.4 and 3.5). -/
structure TrapCsrs where
  tvec   : Word := 0
  tcause : BitVec 10 := 0
  tval   : Word := 0
  tpc    : Word := 0
  tlane  : BitVec 30 := 0
  deriving DecidableEq, Repr

/-- A TLB entry (R177): the page, its context and what it was filled with. -/
structure TlbEntry where
  ctx    : BitVec 12
  vpage  : Nat                    -- first virtual address of the page
  large  : Bool
  base   : Nat                    -- first physical address (or logical key, COMP) of the page
  r      : Bool
  w      : Bool
  p      : Bool
  dedup  : Bool
  comp   : Bool
  tier   : BitVec 2
  moving : Bool
  poison : Bool := false          -- an uncorrectable error stands in it (R371)
  deriving DecidableEq, Repr

/-- A TSAVE or TREST on its way (R125, R342). -/
structure Transfer where
  tile : Fin 8
  save : Bool
  va   : VAddr
  pages : List TlbEntry      -- its image's pages, translated at acceptance
  deriving DecidableEq, Repr

/-- The accumulator grant of a strand (R114 to R125): the words laid out as the grant, which of them are poisoned, the
slot directory (default 0x8000, a free slot), the image addresses of the tiles and the transfers in flight. `faults` are the words
whose next read fails its parity, once or twice in a row (MODEL: an input, R132). -/
structure Accum where
  words   : Sparse Word32 := []
  poison  : List Nat := []
  faults  : List (Nat × Bool) := []
  dir     : Sparse (BitVec 16) := []
  images  : Sparse VAddr := []
  flight  : List Transfer := []
  error   : Option (BitVec 8 × Word) := none
  deriving DecidableEq, Repr

/-- An item's membership of one group object (R91, R93, R95): the generation it saw at its last arrival, and what a GREAD
returns once it has left. -/
structure Member where
  level : Nat
  obj   : Nat
  seen  : Option (BitVec 32) := none
  left  : Option (BitVec 32 × BitVec 32) := none
  deriving DecidableEq, Repr

/-- What the launch processor knows of the item a strand runs (R82 to R87). -/
structure Item where
  queue   : Nat := 0
  entry   : Nat := 0              -- MODEL: the entry's name
  index   : Nat := 0              -- L
  wid     : Word := 0
  wfld    : Word := 0
  extents : List Nat := []        -- E_0 to E_5
  coreIdx : Nat := 0              -- core-scope item index
  vrfh    : Nat := 0              -- VRFH, its hint
  units   : Nat := 0              -- register-file units reserved: VRFH, less after a retirement (R84)
  acch    : Nat := 0
  wdog    : Nat := 0
  slots   : Word := 0             -- SLOTS of the header, for the restore (R79)
  groups  : List Member := []
  deriving DecidableEq, Repr

/-- What a parked strand waits for. MODEL: the home, queue or unit that wakes it. -/
inductive WaitKey
  | none
  | lines (l : List Nat)
  | group (obj : Nat)
  | queue (q : Nat) (n : Word)   -- DONE of queue q ≥ n
  | vine (h : BitVec 32)
  | release
  | timer (t : Word)
  | slot
  | viq
  | held
  deriving DecidableEq, Repr

/-- A word of a register file in which an uncorrectable error stands (R371): an x register, 8 bytes of a vector register, or 8 bytes of
a mask register. -/
inductive BadWord
  | x (r : XReg)
  | v (r : VReg) (word : Nat)
  | m (q : MReg) (word : Nat)
  deriving DecidableEq, Repr

/-- The state of a strand (Table 3.3). -/
structure Strand where
  resident : Bool := false
  ctx      : BitVec 12 := 0
  pc       : VAddr := 0
  priv     : Bool := false
  x        : Vector Word 32 := Vector.replicate 32 0
  v        : Vector VectorReg 32 := Vector.replicate 32 {}
  m        : Vector Mask 8 := Vector.replicate 8 0
  csr      : Csrs := {}
  trap     : TrapCsrs := {}
  streams  : Vector StreamReg 4 := Vector.replicate 4 {}
  viq      : List VEntry := []
  hold     : List VEntry := []
  holdAt   : Word := 0            -- the hold buffer's resume index (R56)
  accum    : Accum := {}
  item     : Item := {}
  park     : BitVec 4 := 0        -- Table 3.9
  wait     : WaitKey := .none
  await    : Nat := 0             -- MODEL: VIQ entries, from the head on, that the scalar side waits for (R55)
  signals  : List (Nat × Bool) := []   -- SIGNALs without their answer (R106): the request's name, to a peer
  copyErr  : Vector (Option (BitVec 8 × Word)) 4 := Vector.replicate 4 none   -- R165
  deficit  : Int := 0             -- D of R75
  passed   : Nat := 0             -- element groups that a head which commits whole has passed in strips before its last (R73)
  yielded  : Bool := false        -- a YIELD that the sequencer's next visit observes (R352)
  slotWoke : Option (Fin 16) := none   -- MODEL: the slot whose start woke a WAITEV (R356)
  frame    : Nat := 0             -- the frame its save takes, fixed as its context enters SAVING (R49)
  qerr     : Option (Nat × Word × Word) := none  -- a QWAIT (queue, n) that DONE or its queue's ERROR has completed: what it returns (R72)
  dogRan   : Nat := 0             -- clocks the watchdog has counted up to its last stop (R87)
  dogFrom  : Word := 0            -- `cycle` as it last began to count
  bad      : List BadWord := []   -- poisoned words of its registers (R371)
  remote   : Option (Word × Option Word) := none  -- the reply of a host or peer read at an address (R234): no word when unreachable (R236)
  deriving DecidableEq, Repr

/-- An L1 line (R197, R198): ordinary (size 0) with the bytes of its line, or gathered, tagged (base, stride, size), with the
elements it holds, each by its slot. -/
structure L1Line where
  addr   : Nat
  stride : Int := 0
  size   : Nat := 0
  data   : List Byte := []
  elems  : List (Nat × List Byte) := []
  poison : Bool := false          -- an uncorrectable error stands in it (R371)
  deriving DecidableEq, Repr

/-- What a copy command does (R159, R160, R171). -/
inductive CopyKind
  | xcopy (ex : Bool) (size : Nat) (dst src : VAddr) (ring : Option SReg) (layout : List (Int × Nat))
  | xgath (src : VAddr) (doff rb : Nat) (rstr : Int) (rows : List (Nat × Int))
  | xxform (slot : Fin 64) (block : VAddr)
  deriving DecidableEq, Repr

/-- An accepted, unfinished copy command (R162, R163): its scratchpad range, the pages it has translated and keeps (R165), and its
progress: pieces moved, the ring's ARRIVED at its start, the engine it runs on, and its read from a host or peer. -/
structure Command where
  num    : Nat                    -- in acceptance order
  strand : Nat
  ctx    : BitVec 12
  chan   : Lane4
  ord    : Ord
  kind   : CopyKind
  lo     : Nat
  hi     : Nat
  writes : Bool
  pages  : List TlbEntry := []
  begun  : Bool := false
  next   : Nat := 0
  base   : Word := 0
  engine : Option (Fin 64) := none
  asked  : Bool := false
  reply  : Option (Option Word) := none
  got    : List Byte := []        -- the parameter block of an XXFORM, as far as it has been read from a window
  deriving DecidableEq, Repr

/-- A parity failure of a lane or of the multiplier array that a strip of the core meets (R131). MODEL: an input: the strips that
pass before it, the runs that fail, and the failing lane. -/
structure Upset where
  after : Nat
  runs  : Nat
  lane  : Fin 32
  deriving DecidableEq, Repr

/-- A core (Table 1.2). -/
structure Core where
  disable  : BitVec 4 := 0
  ce       : Vector (BitVec 16) 4 := Vector.replicate 4 0
  slots    : Vector (BitVec 5) 16 := Vector.replicate 16 0
  curSlot  : Fin 16 := 0
  slotNow  : BitVec 5 := 0        -- slot[curSlot] as the slot began (R53, R347)
  upsets   : List Upset := []
  served   : Fin 4 := 0           -- last strand served by the engine (R78)
  visit    : Fin 4 := 0           -- the vector sequencer's next visit (R75)
  l1       : List L1Line := []
  tlb      : List TlbEntry := []
  commands : List Command := []   -- in acceptance order
  accepted : Nat := 0             -- commands accepted so far
  gated    : Bool := false
  deriving DecidableEq, Repr

/-- A launch header as the launch processor keeps it (R81, R82). -/
structure Launch where
  entry   : VAddr
  wfld    : Word
  widths  : List Nat
  scopes  : List Nat
  extents : List Nat
  wdog    : Nat
  vshare  : BitVec 4
  acch    : Nat
  vrfh    : Nat
  stkbase : Word
  stksize : Word
  slots   : Word
  deriving DecidableEq, Repr

/-- Where an entry stands (Tables 4.2 and 5.3). -/
inductive EntryStage | waiting | placing | placed | complete
  deriving DecidableEq, Repr

/-- A fetched command queue entry (Table 4.2). -/
structure QEntry where
  id      : Nat                   -- MODEL: its name, one for each fetch
  old     : Bool := false         -- started before the sequence base was last set
  ctx     : BitVec 12             -- the queue's context at the fetch
  seq     : Nat
  addr    : Word
  kind    : Nat
  rscope  : Nat
  overlap : Bool
  waits   : List (Nat × Word)
  arg0    : Word
  arg1    : Word
  launch  : Option Launch := none
  stage   : EntryStage := .waiting
  next    : Nat := 0              -- items placed so far, in rising linear index
  began   : Word := 0             -- `cycle` as its first item was placed, or its context restored (R69)
  poison  : Bool := false         -- an uncorrectable error stands in it (R371)
  live    : Nat := 0              -- items placed and not yet ended
  deriving DecidableEq, Repr

/-- A command queue (Table 4.1). -/
structure Queue where
  qctl    : Word := 1             -- WEIGHT resets to 1
  fetch   : Word := 0
  append  : Word := 0
  tail    : Word := 0
  done    : Word := 0
  cwaddr  : Word := 0
  err     : BitVec 8 := 0
  stat    : BitVec 3 := 0         -- 0 DISABLED, 1 ACTIVE, 2 ERROR
  failseq : Word := 0
  next    : Nat := 1              -- sequence number of the next entry to fetch
  entries : List QEntry := []     -- fetched and not yet covered by DONE
  deriving DecidableEq, Repr

/-- A record of the event ring (R70). -/
structure EvRec where
  kind   : BitVec 8
  reason : BitVec 8
  ctx    : BitVec 12
  queue  : BitVec 6
  value  : Word
  addr   : Word
  deriving DecidableEq, Repr

/-- The event ring unit (R70). -/
structure Events where
  evbase : Word := 0
  evsize : BitVec 6 := 0
  evhead : Word := 0
  evtail : Word := 0
  evovf  : Word := 0
  held   : List EvRec := []
  deriving DecidableEq, Repr

/-- A group object (R92): the layout of a barrier, with its scope, its home and its context. -/
structure GroupObj where
  target  : BitVec 32
  arrived : BitVec 32
  gen     : BitVec 32
  scope   : Nat                   -- 1 core, 2 cluster, 3 device
  home    : Nat                   -- device core, die, or die by the die hash
  ctx     : BitVec 12
  key     : Nat × Nat × Nat       -- entry, level, value of fields level to 5
  deriving DecidableEq, Repr

/-- An item whose frame is in memory (R58 to R61). -/
structure Saved where
  ctx    : BitVec 12
  frame  : Nat
  item   : Item
  num    : Nat                    -- device strand number at the save
  copyErr : Vector (Option (BitVec 8 × Word)) 4   -- records the device keeps for it (R165, R342)
  accErr : Option (BitVec 8 × Word)
  park   : BitVec 4 := 0          -- the park reason of its frame
  wait   : WaitKey := .none       -- what it waits for
  woken  : Bool := false          -- its vine or window park has been woken meanwhile (R149, R150)
  qerr   : Option (Nat × Word × Word) := none
  head   : Option VEntry := none  -- its VIQ head, for what a frame does not hold of it (R227, R337)
  bad    : List BadWord := []     -- poisoned words of its registers (R371)
  viqBad : List Nat := []         -- poisoned entries of its VIQ, counted from the head (R371)
  deriving DecidableEq, Repr

/-- The launch processor (R46 to R90). -/
structure LaunchProc where
  ctxTable : Nat := 0             -- L
  groupTable : Nat := 0           -- where the device-reserved group table lies (R92, R374)
  active   : Sparse (BitVec 4) := []   -- STATE of every context as the launch processor holds it (R48)
  queues   : Sparse Queue := []
  groups   : Sparse GroupObj := []
  nextId   : Nat := 0             -- MODEL: name of the next entry or group object
  saved    : List Saved := []
  order    : List (BitVec 12) := []    -- SAVED contexts, in the order of their saves
  resid    : List (BitVec 12) := []    -- resident contexts, longest-resident first
  turns    : Sparse (Nat × Nat) := []  -- by priority: the queue served last, and the items it has placed in its turn (R69)
  deriving DecidableEq, Repr

/-- A tag of a home slice (Tables 12.4 and 12.5): its vat entry (none for ZERO), the content last written back while the
line is DIRTY, its pin and its sharer vector. -/
structure L2Tag where
  line    : Nat
  entry   : Option Nat
  dirty   : Option (List Byte) := none
  pin     : Option (BitVec 12) := none
  sharers : BitVec 4 := 0
  dedup   : Bool := false
  domain  : BitVec 8 := 0
  deriving DecidableEq, Repr

/-- A vat entry: where it lies, its DOMAIN, whether the index names it (R203), and its POISON bit (R206). Its COUNT is the number
of tags that point to it, and its data are the content of their lines. -/
structure VatEntry where
  die     : Fin 4
  slice   : Fin 64
  domain  : BitVec 8
  indexed : Bool := false
  poison  : Bool := false
  deriving DecidableEq, Repr

/-- Who waits for a walk: a strand, the copy command of a strand by its number, or a unit of the device (R178). -/
inductive Waiter
  | strand (n : Nat)
  | copy (n num : Nat)
  | device
  deriving DecidableEq, Repr

/-- An entry of a die's miss-coalescing table (R178): its key, `ctxid` and VA[47:16], and the misses that joined it. -/
structure Miss where
  die     : Fin 4
  ctx     : BitVec 12
  page    : Nat
  waiters : List Waiter := []
  deriving DecidableEq, Repr

/-- A walk that ended in a trap, for one of the accesses that needed it (R176). -/
structure Missed where
  who   : Waiter
  die   : Fin 4
  ctx   : BitVec 12
  page  : Nat
  cause : BitVec 8
  deriving DecidableEq, Repr

/-- A reply on its way to a core (R196): whole lines, or an element, tagged by its header's TAG and its index. -/
structure Reply where
  core  : Nat
  unit  : Fin 32
  tag   : BitVec 8
  index : Nat
  line  : Option Nat              -- the line of a FILL
  data  : List Byte
  deriving DecidableEq, Repr

/-- The memory system outside the cores (R177 to R210). -/
structure Lines where
  tags     : List L2Tag := []
  vat      : Sparse VatEntry := []       -- by name
  nextVat  : Nat := 0                    -- MODEL: name of the next vat entry
  rdc      : List (Fin 4 × Nat) := []    -- RDC copies: die and line (R200)
  rdcBad   : List (Fin 4 × Nat) := []    -- those in which an uncorrectable error stands (R371)
  tlb      : List (Fin 4 × TlbEntry) := []   -- last-level TLBs, newest first
  counters : Sparse Word := []           -- Table 12.8: 16 × die + index
  sample   : Sparse Word := []           -- dedupratio of each die (R210)
  plimit   : Sparse Word := []           -- Table 12.1, L
  masks    : Sparse Word := []           -- 8 × partition + k: slh0 to slh5, dieh0, dieh1 (L)
  partsel  : Vector (BitVec 3) 4 := Vector.replicate 4 0   -- of each die; L
  released : Bool := false               -- Daleel has released the L2 from configuration (R53)
  keys     : List (BitVec 128) := Config.drawKeys 0   -- the keys of the share domains 1 to 255 (R205)
  misses   : List Miss := []             -- oldest first
  missed   : List Missed := []           -- traps of walks that their accesses have yet to take
  replies  : List Reply := []
  writesHeld : List Nat := []            -- addresses of writes that a slice without a free vat entry holds (R204)
  deriving DecidableEq, Repr

/-- An accepted MOVE whose copy runs (R181, R185). -/
structure Move where
  ctx   : BitVec 12
  vpage : Nat
  large : Bool
  entry : Nat                     -- physical address of the table entry
  word  : Nat                     -- the entry as the MOVE found it
  src   : Nat
  dst   : Nat
  deriving DecidableEq, Repr

/-- A command of the page command unit that waits (R165, R182, R190): its OP, the page, its first memory key (of a MOVE, its
destination), its entry, the entry's new word (of a MOVE, the one it found), and whether the entry has been written. -/
structure PageCmd where
  op    : Nat
  ctx   : BitVec 12
  vpage : Nat
  large : Bool
  base  : Nat
  entry : Nat
  word  : Nat
  done  : Bool
  deriving DecidableEq, Repr

/-- The page command unit (Table 11.3). -/
structure PageUnit where
  pgva   : Word := 0
  pgarg  : Word := 0
  reason : BitVec 8 := 0
  stat   : BitVec 2 := 0
  pend   : Option PageCmd := none
  move   : Option Move := none
  deriving DecidableEq, Repr

/-- A compressed region (Table 11.6), with its log. -/
structure Region where
  clbase : Word := 0
  clsegs : Word := 0
  clmap  : Word := 0
  clblks : Word := 0
  clctl  : Word := 0
  clfree : Word := 0
  cllive : Word := 0
  head   : Nat := 0               -- head of the log: segment × 32,768 + the sectors written in it
  live   : Sparse Nat := []       -- live sectors of each segment
  free   : List Nat := []         -- free segments
  full   : Bool := false          -- event 0x15 posted (R190)
  deriving DecidableEq, Repr

/-- A request that went to a peer and whose reply is out (R235, R236). -/
structure PeerMsg where
  node   : BitVec 10
  export_ : Nat
  offset : Nat
  op     : PeerOp
  strand : Nat
  ctx    : BitVec 12
  va     : Word
  copy   : Bool                   -- a copy's access, not the strand's own
  id     : Nat                    -- MODEL: its name
  deriving DecidableEq, Repr

/-- What flits of ours carry (R231, R232, R238, R239). -/
inductive Outgoing
  | idle
  | request (m : PeerMsg)
  | reply (node : BitVec 10) (offset : Nat) (data : List Byte)
  | part (node : BitVec 10) (h : ReductionHead) (nf : Bool) (data : List Byte)
  | refusal (node : BitVec 10) (group : BitVec 16)
  deriving DecidableEq, Repr

/-- A flit in a replay buffer (R232): its SEQ, what it carries, and which of the flits of that it is. -/
structure Sent where
  seq  : BitVec 12
  what : Outgoing
  part : Nat := 0
  deriving DecidableEq, Repr

/-- A flit that waits for a port, or for room in its replay buffer, with the port it left (R235). -/
structure Packet where
  port : Nat
  what : Outgoing
  part : Nat := 0
  deriving DecidableEq, Repr

/-- An access of the host that the device reports through AER (R240, R380): whether it was a write, its address and bytes. -/
structure AerReport where
  write : Bool
  addr  : Nat
  bytes : Nat
  deriving DecidableEq, Repr

/-- A request of the host or of a peer that its M-die holds: a held write, or what arrived behind one (R186, R190, R204, R226). -/
inductive Inbound
  | host (pa : Nat) (data : List Byte)
  | hostRead (pa n : Nat)
  | peer (port : Fin 18) (snode : BitVec 10) (export_ : Fin 64) (off : Nat) (op : PeerOp)
  deriving DecidableEq, Repr

/-- A device read of host memory whose completion is out (R234). -/
structure HostRead where
  strand : Nat
  ctx    : BitVec 12
  addr   : Nat
  bytes  : Nat
  va     : Word
  copy   : Bool
  deriving DecidableEq, Repr

/-- A Renram port (Tables 14.1 and 14.3). -/
structure Port where
  enable  : Bool := false
  stat    : BitVec 3 := 0         -- Table 14.3
  pkind   : BitVec 2 := 0
  pnode   : BitVec 10 := 0
  pport   : BitVec 9 := 0
  crcerr  : Word := 0
  replay  : Word := 0
  peererr : Word := 0
  rxSeq   : BitVec 12 := 0        -- the next SEQ in order
  txSeq   : BitVec 12 := 0
  nakSent : Option (BitVec 12) := none   -- the SEQ that a NAK of ours asks for, until it arrives
  buffer  : List Sent := []       -- the replay buffer, oldest first
  inbox   : List (BitVec 4 × BitVec 10) := []   -- accepted flits of requests and reductions not yet acted on: KIND, SNODE
  credits : Nat := 0              -- receive buffers the partner has returned
  owed    : Nat := 0              -- receive buffers of ours that are free again, for the CREDIT of the next flit
  waiting : List PeerMsg := []    -- requests whose reply is out, oldest first
  nakSeq  : BitVec 12 := 0
  naks    : Nat := 0              -- NAKs of one flit in a row
  tries   : Nat := 0              -- failed retraining attempts
  deriving DecidableEq, Repr

/-- A collective descriptor as the reduction engine reads it (Table 14.6). -/
structure Collective where
  ctx     : BitVec 12
  desc    : Word
  group   : BitVec 16 := 0
  tag     : BitVec 8 := 0
  op      : BitVec 4 := 0
  size    : Nat := 0
  rank    : Nat := 0
  count   : Nat := 0
  src     : Word := 0
  dst     : Word := 0
  members : List (BitVec 16) := []
  cwaddr  : Word := 0
  parts   : Sparse (Option (List Byte) × Bool) := []   -- contributions by rank: data and NF
  deriving DecidableEq, Repr

/-- The links (R230 to R240). -/
structure Links where
  ports    : Sparse Port := []
  nodeid   : BitVec 10 := 0
  windows  : Sparse Word := []
  exports  : Sparse Word := []    -- 2 × export + word
  bar2sel  : BitVec 6 := 0
  cdesc    : Word := 0
  cerr     : BitVec 8 := 0
  pending  : List (BitVec 12 × Word) := []
  running  : Option Collective := none
  refused  : List (BitVec 16) := []         -- refusals of collectives not yet started (R239)
  early    : List (ReductionHead × Bool × List Byte) := []   -- contributions to collectives not yet started
  outbox   : List Packet := []              -- oldest first
  wire     : List (Nat × List Byte) := []   -- the flits put on the wire, oldest first: port and 256 bytes (R231)
  naksOut  : List (Nat × BitVec 12) := []   -- the NAKs returned, oldest first: port and SEQ (R232)
  nextMsg  : Nat := 0                       -- MODEL: name of the next request
  inbound  : List Inbound := []             -- oldest first
  hostOut  : List (Nat × List Byte) := []   -- posted writes sent to host memory, oldest first
  hostLate : List (Nat × Bool) := []        -- those of strands, or of their copies, that have not completed there (R217), oldest first
  aer      : List AerReport := []           -- oldest first
  hostReads : List HostRead := []  -- oldest first
  answer   : List Byte := []      -- what the device last answered to a host or peer read
  poisoned : Bool := false        -- that answer is marked poisoned (R240)
  msix     : BitVec 64 := 0       -- vectors signalled
  deriving DecidableEq, Repr

/-- A press engine while it runs a routine (R169, R171): the command it serves, by core and number, its local memory, the
bytes its current service has read from a window, and a0: the block at first, then what the last service returned. -/
structure Engine where
  core  : Nat
  num   : Nat
  slot  : Fin 64
  block : VAddr
  mem   : Sparse Byte := []
  moved : Nat := 0
  a0    : Word := 0
  a1    : Word := 0               -- at entry: the issuing device strand number
  a2    : Word := 0               -- at entry: `ctxid`
  deriving DecidableEq, Repr

/-- Press engines and routine slots (R169, R170). -/
structure Press where
  rtaddr  : Word := 0
  reason  : BitVec 8 := 0
  stat    : BitVec 2 := 0
  slot    : Fin 64 := 0           -- slot of the load in progress
  unload  : Bool := false         -- the action in progress empties the slot
  slots   : Sparse (List Byte) := []   -- images of loaded slots: header and code
  engines : Sparse Engine := []
  stores  : Sparse (Sparse Byte) := []   -- stream buffers and stack of an engine while no routine runs on it
  deriving DecidableEq, Repr

/-- A die's power state (R380). -/
inductive DieState | up | draining | inReset
  deriving DecidableEq, Repr

/-- Daleel, the mailbox and power (R374 to R380). -/
structure Daleel where
  bootcause : Word := 0           -- L
  stage     : Nat := 0            -- boot stage that runs next, the boot ROM's check of stage 1 first; 4 when boot is complete
  mbarg     : Word := 0
  mblen     : BitVec 16 := 0
  mberr     : BitVec 8 := 0
  mbstat    : BitVec 2 := 0
  mbop      : BitVec 8 := 0
  mbbuf     : Sparse Byte := []
  mbdirty   : Bool := false       -- the input of the request that runs has changed (R377)
  retireList : Sparse (BitVec 4) := []
  partselL  : BitVec 3 := 0       -- `partsel` as the boot stages load it
  digests   : List (List Byte) := []   -- SHA-256 of the stages that have verified, stage 1 first (R376)
  routineKey : List Byte := []    -- the routine-signing public key (R170, R374)
  norFails  : Bool := false       -- MODEL: an input: the next write of SPI NOR fails (R377)
  pwrcap    : BitVec 12 := 0      -- L
  pwrnow    : BitVec 12 := 0
  powered   : Bool := true
  dies      : Vector DieState 4 := Vector.replicate 4 .up
  deriving DecidableEq, Repr

/-- A data error that a check of Table 26.1 is about to find, or an access that stops a routine. MODEL: an input. -/
inductive DataError
  | memory (pa : Nat)                        -- uncorrectable, in a line of memory or an 8-byte word of a scratchpad
  | vat (line : Nat)                         -- uncorrectable, in the vat entry of a line (R206)
  | strip (core : Fin 1024) (u : Upset)      -- parity of a lane or of the multiplier array (R131)
  | acc (n : Fin 4096) (word : Nat) (twice : Bool)   -- parity of an accumulator word at its next read (R132)
  | engine (e : Fin 64)                      -- in the memories of a press engine, or an access of its routine outside them (R169)
  | register (n : Fin 4096) (w : BadWord)    -- uncorrectable, in a register file
  | l1 (core : Fin 1024) (line : Nat)        -- in what an L1 holds of a line
  | rdc (die : Fin 4) (line : Nat)           -- in the copy of a line in an RDC
  | tag (die : Fin 4)                        -- in a tag store, a sharer vector or a slice's control state (R380)
  | coreTlb (core : Fin 1024) (k : Nat)      -- in entry k of a core TLB
  | dieTlb (die : Fin 4) (ctx : BitVec 12) (va : VAddr)   -- in the entry of a last-level TLB that maps an address
  | viq (n : Fin 4096) (k : Nat)             -- in entry k of a VIQ
  | queue (q : Fin 64) (seq : Nat)           -- in an entry of a command queue that has been fetched
  | stream (n : Fin 4096) (r : SReg)         -- in the buffer of a stream register
  | daleel                                   -- in Daleel's memories
  | nor                                      -- the next write of SPI NOR fails (R377)
  deriving DecidableEq, Repr

/-- What acts next. MODEL: a device operation or event, a store of a routine into its press engine's memories (R169), the completion of
the oldest posted write at the host, a data error, the strand that runs, or whether the vector side keeps up with the scalar side. -/
inductive Turn
  | event (i : Instr)
  | routineStore (e : Fin 64) (loc : Nat) (data : List Byte)
  | landed
  | error (e : DataError)
  | focus (n : Fin 4096)
  | pace (lag : Bool)
  deriving DecidableEq, Repr

/-- A vine update that a moving page holds, or a slice (R146, R149, R186): PEND := 0 and SVCSEQ, a copied page given up, or a count;
and a doorbell that waits for a walk (R178). -/
inductive VineDue
  | posted (seq : Nat)
  | copied (old : Nat)
  | count (up : Bool) (page : Nat)
  | doorbell
  deriving DecidableEq, Repr

/-- The machine. The focused strand, whose turn it is, stands in `st`; every other strand that differs from a strand at
reset stands in `others` by its device strand number (R13). -/
structure State where
  cur       : Fin 4096            -- MODEL: the focused strand's device strand number
  st        : Strand
  others    : Sparse Strand
  cores     : Sparse Core         -- by device core number; default `{}`
  mem       : List Host.Cell      -- the content of every location at its home (R211), by physical address
  poison    : List Nat            -- poisoned 4-byte words, rising (R206, R371)
  watches   : List (Nat × Nat)    -- WATCH registrations: line or word, strand (Table 12.4)
  cycle     : Word
  lp        : LaunchProc
  ev        : Events
  lines     : Lines
  pages     : PageUnit
  regions   : Sparse Region
  links     : Links
  press     : Press
  daleel    : Daleel
  waitRel   : List (Fin 4 × BitVec 12 × List Word)   -- release records that wait (R155): die, context, record
  waitSvc   : List (BitVec 12 × BitVec 32 × List Word)   -- service records that wait (R146): context, handle, record
  parkedAt  : List (BitVec 12 × Nat)   -- MODEL: vines that have parked (R367): context, handle
  broken    : List (BitVec 12 × Nat)   -- those of them that a wide host store has made invalid (R367): context, handle
  vineDue   : List (BitVec 12 × BitVec 32 × VineDue)   -- held vine updates: context, handle
  cows      : List (BitVec 12 × BitVec 32)   -- vines in PARKED-COW whose unpark is out (R149): context, handle
  pinned    : List (BitVec 12 × Nat)   -- MODEL: pages whose PINS is not 0: context, address
  pinsDue   : List (BitVec 12 × Nat)   -- MODEL: pages whose PINS a step brings up to date at its end (R184): context, address
  lag       : Bool                -- MODEL: the vector side does not run by itself
  agenda    : List Turn           -- MODEL: the turns to come
  freeCount : Nat                 -- MODEL: counts free values drawn (log 6)
  deriving DecidableEq, Repr

/-- Why the machine stops: for no reason. Every instruction, operation and event of the spec has an effect in every state (log 58),
so nothing raises a fault. -/
inductive Fault
  deriving DecidableEq, Repr

/-- Why an instruction has no meaning in the model. -/
inductive Refusal
  /-- The instruction of this mnemonic has no meaning yet. Raised by its arm of `exec` alone. Safe: nothing runs. -/
  | notModelled (mnemonic : String)
  deriving DecidableEq, Repr

/-- The machine right after a module cold reset: every field with a reset value holds it (R8), and every field the spec
gives none holds the value the log names (logs 2 to 4). -/
def State.reset : State where
  cur := 0
  st := {}
  others := []
  cores := []
  mem := []
  poison := []
  watches := []
  cycle := 0
  lp := {}
  ev := {}
  lines := {}
  pages := {}
  regions := []
  links := {}
  press := {}
  daleel := { pwrcap := 2200, dies := Vector.replicate 4 .inReset }
  waitRel := []
  waitSvc := []
  parkedAt := []
  broken := []
  vineDue := []
  cows := []
  pinned := []
  pinsDue := []
  lag := false
  agenda := []
  freeCount := 0

end Sys2Proof.Machine
end

