-- ==== Sys2Proof/Machine/Basic.lean ====
section
/-! DEFINITION. Sparse tables in canonical form, the bytes of memory at their homes, poison, and the accessors that give
each register and each unit one home. -/

namespace Sys2Proof.Machine

/-! ## Sparse tables -/

/-- The value of a sparse table with default d at key k. -/
def sget {β : Type} (d : β) : List (Nat × β) → Nat → β
  | [], _ => d
  | (k', v) :: t, k => if k' = k then v else sget d t k

/-- The table with key k at v: an entry equal to the default is not kept. -/
def sset {β : Type} [DecidableEq β] (d : β) : List (Nat × β) → Nat → β → List (Nat × β)
  | [], k, v => if v = d then [] else [(k, v)]
  | (k', v') :: t, k, v =>
    if k < k' then (if v = d then (k', v') :: t else (k, v) :: (k', v') :: t)
    else if k = k' then (if v = d then t else (k, v) :: t)
    else (k', v') :: sset d t k v

/-- Canonical form: keys strictly rising, no value equal to the default. -/
def sparseWf {β : Type} [DecidableEq β] (d : β) : List (Nat × β) → Bool
  | [] => true
  | (k, v) :: t => (v != d) && (t.all fun e => decide (k < e.1)) && sparseWf d t

/-! ## Memory at its homes (R211) -/

/-- What an unlisted byte of memory reads as (log 2: the spec gives memory no reset value). -/
def unlisted : Byte := 0

/-- Memory is in its one canonical form. -/
def Memory.wf (m : List Host.Cell) : Bool := sparseWf unlisted m

/-- The byte at physical address a. -/
def memByte (m : List Host.Cell) (a : Nat) : Byte := sget unlisted m a

/-- The n bytes from physical address a. -/
def memRead (m : List Host.Cell) (a n : Nat) : List Byte := (List.range n).map fun i => memByte m (a + i)

/-- Memory with the bytes bs stored from physical address a. -/
def memWrite (m : List Host.Cell) (a : Nat) : List Byte → List Host.Cell
  | [] => m
  | b :: bs => memWrite (sset unlisted m a b) (a + 1) bs

/-- The little-endian number of n bytes at a (R5). -/
def memNat (m : List Host.Cell) (a n : Nat) : Nat := bytesToNat (memRead m a n)

/-- Sorted insertion into a list of numbers without repeats. -/
def insertNat (k : Nat) : List Nat → List Nat
  | [] => [k]
  | a :: t => if k < a then k :: a :: t else if k = a then a :: t else a :: insertNat k t

/-! ## Words -/

/-- Bits [hi:lo] of a register, as a number. -/
def bits (v : Word) (lo n : Nat) : Nat := v.toNat / 2 ^ lo % 2 ^ n

/-- A register with its n bits at lo replaced. -/
def setBits (v : Word) (lo n : Nat) (f : Nat) : Word :=
  BitVec.ofNat 64 (v.toNat - bits v lo n * 2 ^ lo + f % 2 ^ n * 2 ^ lo)

/-- A number as a register. -/
def w64 (n : Nat) : Word := BitVec.ofNat 64 n

/-- The signed reading of the low n bits of a number. -/
def signed (n v : Nat) : Int := if v % 2 ^ n < 2 ^ (n - 1) then (v % 2 ^ n : Nat) else (v % 2 ^ n : Nat) - (2 ^ n : Nat)

/-- The n low bits of an integer, as a number. -/
def wrapTo (n : Nat) (v : Int) : Nat := (v % (2 ^ n : Nat)).toNat

/-- ⌈a ÷ b⌉. -/
def ceilDiv (a b : Nat) : Nat := (a + b - 1) / b

/-- a rounded up to a multiple of b. -/
def roundUp (a b : Nat) : Nat := ceilDiv a b * b

/-- Count of set bits below n. -/
def popCount : Nat → Nat → Nat
  | 0, _ => 0
  | n + 1, v => v % 2 + popCount n (v / 2)

/-- A virtual address: bits [63:48] of an address operand are ignored (R172). -/
def vaOf (w : Word) : VAddr := w.truncate 48

/-! ## Strands and cores -/

/-- The strand of device strand number n. -/
def getStrand (s : State) (n : Nat) : Strand := if n = s.cur.val then s.st else sget {} s.others n

/-- The machine with strand n replaced. -/
def setStrand (s : State) (n : Nat) (t : Strand) : State :=
  if n = s.cur.val then { s with st := t } else { s with others := sset {} s.others n t }

/-- The machine with strand n changed by f. -/
def modStrand (s : State) (n : Nat) (f : Strand → Strand) : State := setStrand s n (f (getStrand s n))

/-- The machine with its turn on strand n: the focused strand goes back among the others. -/
def focusOn (s : State) (n : Fin 4096) : State :=
  if n = s.cur then s
  else
    let o := sset {} s.others s.cur.val s.st
    { s with cur := n, st := sget {} o n.val, others := sset {} o n.val {} }

/-- The device strand numbers of the strands that differ from a strand at reset, the focused one included. -/
def strandNums (s : State) : List Nat := insertNat s.cur.val (s.others.map (·.1))

/-- The strands of the machine that satisfy p, in ascending number. -/
def strandsWhere (s : State) (p : Strand → Bool) : List Nat := (strandNums s).filter fun n => p (getStrand s n)

/-- The machine with every strand that satisfies p changed by f. -/
def modStrandsWhere (s : State) (p : Strand → Bool) (f : Strand → Strand) : State :=
  (strandsWhere s p).foldl (fun s n => modStrand s n f) s

/-- The device core of a strand (R13). -/
def coreOf (n : Nat) : Nat := n / 4
/-- The die of a strand (R13). -/
def dieOf (n : Nat) : Fin 4 := Fin.ofNat 4 (n / 1024)
/-- The focused strand's core and die. -/
def curCore (s : State) : Nat := coreOf s.cur.val
def curDie (s : State) : Fin 4 := dieOf s.cur.val

/-- The core of device core number c. -/
def getCore (s : State) (c : Nat) : Core := sget {} s.cores c
/-- The machine with core c replaced. -/
def setCore (s : State) (c : Nat) (k : Core) : State := { s with cores := sset {} s.cores c k }
/-- The machine with core c changed by f. -/
def modCore (s : State) (c : Nat) (f : Core → Core) : State := setCore s c (f (getCore s c))
/-- The machine with every listed core changed by f. -/
def modCores (s : State) (f : Core → Core) : State :=
  (s.cores.map (·.1)).foldl (fun s c => modCore s c f) s

/-- Bits of `lanemask`: NOT DISABLE (R15, R373). -/
def laneMask (k : Core) : BitVec 4 := ~~~ k.disable
/-- e, the enabled lane groups of a core (R11). -/
def laneGroups (k : Core) : Nat := popCount 4 (laneMask k).toNat

/-! ## Scalar registers (R51, R264) -/

/-- x[r]: x0 reads 0. -/
def State.readX (s : State) (r : XReg) : Word := if r = 0 then 0 else s.st.x[r.val]

/-- x[r] := v, which no error stands in then (R371): a write to x0 is discarded. -/
def State.writeX (s : State) (r : XReg) (v : Word) : State :=
  if r = 0 then s else { s with st := { s.st with x := s.st.x.set r.val v, bad := s.st.bad.filter (· ≠ .x r) } }

/-- The watchdog of a strand begins its count anew at cycle `now` (R87). -/
def Strand.restart (now : Word) (t : Strand) : Strand := { t with dogRan := 0, dogFrom := now }

/-- Clocks the watchdog of a strand has counted by cycle `now`: those in which the strand is parked do not count (R87). -/
def Strand.counted (now : Word) (t : Strand) : Nat := t.dogRan + if t.park ≠ 0 then 0 else (now - t.dogFrom).toNat

/-- The pc moves to t, and an instruction counts as retired (R348). -/
def State.jump (s : State) (t : VAddr) : State :=
  { s with st := { s.st with
      pc := t, csr := { s.st.csr with retired := s.st.csr.retired + 1 }, dogRan := 0, dogFrom := s.cycle } }

/-- The pc moves past an instruction of len bytes (R241), which counts as retired. -/
def State.retire (s : State) (len : Nat) : State := s.jump (s.st.pc + BitVec.ofNat 48 len)

/-- The strand's CSRs changed by f. -/
def State.modCsr (s : State) (f : Csrs → Csrs) : State := { s with st := { s.st with csr := f s.st.csr } }

/-- Flags raised: each set bit of f sets its bit of `fexc` (R28). -/
def State.raise (s : State) (f : BitVec 5) : State := s.modCsr fun c => { c with fexc := c.fexc ||| f }

/-- The requests to peers whose reply is out: those sent on a port, and those that wait to be sent again (R232, R235). -/
def peerMsgs (s : State) : List PeerMsg :=
  s.links.ports.flatMap (·.2.waiting) ++ s.links.outbox.filterMap fun p => match p.what with | .request m => some m | _ => none

/-- The entry of a list that leaves a full cache or TLB: a free choice (log 12). -/
def leaving {α : Type} (s : State) (key : Nat) (l : List α) : Option α :=
  (l.drop (Config.victimPick s.freeCount (key * 2 ^ 24 + l.length) % l.length)).head?

/-- A fresh free value (log 6): the value, and the machine with the counter advanced. -/
def State.drawFree (s : State) : Word × State := (Config.freeWord s.freeCount, { s with freeCount := s.freeCount + 1 })

/-! ## Poison (R206, R371) -/

/-- Some 4-byte word of [a, a + n) is poisoned. -/
def poisonedIn (s : State) (a n : Nat) : Bool := s.poison.any fun w => decide (a / 4 ≤ w ∧ w * 4 < a + n)

/-- The 4-byte words of [a, a + n) become poisoned. -/
def poisonRange (s : State) (a n : Nat) : State :=
  { s with poison := (List.range ((a + n + 3) / 4 - a / 4)).foldl (fun p i => insertNat (a / 4 + i) p) s.poison }

/-- The words that lie wholly in [a, a + n) lose their poison. -/
def clearPoison (s : State) (a n : Nat) : State :=
  if s.poison = [] then s
  else { s with poison := s.poison.filter fun w => ! decide (a ≤ w * 4 ∧ w * 4 + 4 ≤ a + n) }

/-- The PINS of the page that contains an address are due (R184). -/
def pinsDue (s : State) (ctx : BitVec 12) (va : Nat) : State :=
  if s.pinsDue.contains (ctx, va) then s else { s with pinsDue := s.pinsDue ++ [(ctx, va)] }

/-- The PINS of every page that shows some are due: pins have gone (R184). -/
def allPinsDue (s : State) : State := s.pinned.foldl (fun s p => pinsDue s p.1 p.2) s

/-! ## The host port's reach (R374, R375) -/

/-- Minimal mode. -/
def minimal (s : State) : Bool := s.daleel.bootcause.getLsbD 0

/-- Registers that respond in minimal mode: BOOTCAUSE, and the mailbox with its buffer. -/
def inMinimal (o : Nat) : Bool := decide (o = 0xE000 ∨ (0xE200 ≤ o ∧ o < 0xE218) ∨ (0xF000 ≤ o ∧ o < 0x10000))

/-- The host port reaches the register at MMIO offset o: once boot stage 1 has loaded the port, and in minimal mode the registers that
respond in it. -/
def hostMay (s : State) (o : Nat) : Bool := s.daleel.powered && if minimal s then inMinimal o else decide (2 ≤ s.daleel.stage)

/-- A write of the host to the register at offset o does f, or is dropped. -/
def byHost (o : Nat) (f : State → State) (s : State) : State := if hostMay s o then f s else s

/-- n bytes of ones: what a read returns that nothing answers. -/
def allOnes (n : Nat) : List Byte := List.replicate n 0xFF

/-! ## The event ring (R70) -/

/-- The 32 bytes of a record. -/
def evBytes (r : EvRec) : List Byte :=
  natToBytes 8 (r.kind.toNat + r.reason.toNat * 2 ^ 8 + r.ctx.toNat * 2 ^ 16 + r.queue.toNat * 2 ^ 28) ++
    natToBytes 8 r.value.toNat ++ natToBytes 8 r.addr.toNat ++ natToBytes 8 0

/-- Records the ring holds: 0 while none is set. -/
def ringSize (e : Events) : Nat := if e.evsize = 0 then 0 else 2 ^ e.evsize.toNat

/-- The ring has room for a record. -/
def ringRoom (e : Events) : Bool := decide ((e.evtail - e.evhead).toNat < ringSize e)

/-- A record is written to the ring, released, EVTAIL advances and MSI-X vector 0 is signalled (R70, R240). -/
def putRecord (s : State) (r : EvRec) : State :=
  let a := s.ev.evbase.toNat + 32 * (s.ev.evtail.toNat % 2 ^ s.ev.evsize.toNat)
  { s with ev := { s.ev with evtail := s.ev.evtail + 1 },
           links := { s.links with hostOut := s.links.hostOut ++ [(a, evBytes r)], msix := s.links.msix ||| 1 } }

/-- The oldest held records are written while the ring has room. -/
def flushEvents : Nat → State → State
  | 0, s => s
  | n + 1, s =>
    match s.ev.held with
    | [] => s
    | r :: t => if ringRoom s.ev then flushEvents n (putRecord { s with ev := { s.ev with held := t } } r) else s

/-- An event is posted: written if the ring has room, else held, else dropped and counted (R70). -/
def postRecord (s : State) (r : EvRec) : State :=
  if s.ev.held = [] ∧ ringRoom s.ev then putRecord s r
  else if s.ev.held.length < 64 then { s with ev := { s.ev with held := s.ev.held ++ [r] } }
  else { s with ev := { s.ev with evovf := s.ev.evovf + 1 } }

/-- An event without a queue. -/
def postEvent (s : State) (kind reason : BitVec 8) (ctx : BitVec 12) (value addr : Word) : State :=
  postRecord s { kind, reason, ctx, queue := 0, value, addr }

/-! ## Parking (R60, R87) -/

/-- The focused strand parks with reason r, waiting for k; its watchdog stops counting (R87). -/
def parkOn (s : State) (r : BitVec 4) (k : WaitKey) : State :=
  { s with st := { s.st with dogRan := s.st.counted s.cycle, park := r, wait := k } }

/-- A parked strand wakes at cycle `now`: it runs its instruction again and re-evaluates its condition. -/
def unpark (now : Word) (t : Strand) : Strand :=
  { t with park := 0, wait := .none, dogFrom := if t.park ≠ 0 then now else t.dogFrom }

/-- Every parked strand that waits for k wakes. -/
def wakeKey (s : State) (k : WaitKey) : State :=
  modStrandsWhere s (fun t => t.park ≠ 0 ∧ t.wait = k) (unpark s.cycle)

/-- The QWAITs of resident and of saved strands that `ans` answers complete: each with what it returns (R72). -/
def endWaits (s : State) (ans : WaitKey → Option (Nat × Word × Word)) : State :=
  let s := { s with lp := { s.lp with saved := s.lp.saved.map fun v =>
    if (ans v.wait).isSome then { v with qerr := ans v.wait, wait := .none } else v } }
  modStrandsWhere s (fun t => t.park ≠ 0 ∧ (ans t.wait).isSome) fun t => unpark s.cycle { t with qerr := ans t.wait }

/-- What a QWAIT of queue q that waits for `wait` is given as DONE reaches a number: 0, if that is far enough (R72). -/
def queueDone (q : Nat) (done : Word) (wait : WaitKey) : Option (Nat × Word × Word) :=
  match wait with
  | .queue k n => if k = q ∧ n.toNat ≤ done.toNat then some (k, n, 0) else none
  | _ => none

/-- The QWAITs of queue q that its DONE satisfies complete (R72). -/
def wakeQueue (s : State) (q : Nat) (done : Word) : State := endWaits s (queueDone q done)

/-- What a QWAIT of queue q that waits for `wait` is given as its queue enters ERROR with a STATUS: it completes with it (R72). -/
def queueAnswer (q : Nat) (status : Word) (wait : WaitKey) : Option (Nat × Word × Word) :=
  match wait with
  | .queue k n => if k = q then some (k, n, status) else none
  | _ => none

/-- The QWAITs of queue q, of resident and of saved strands, complete with STATUS: the queue has entered ERROR (R72). -/
def failWaits (s : State) (q : Nat) (status : Word) : State := endWaits s (queueAnswer q status)

/-- The strands that watch the line or word a wake, and their registrations end (R104, R322). -/
def wakeLine (s : State) (a : Nat) : State :=
  if s.watches.any (·.1 = a) then
    let ns := (s.watches.filter (·.1 = a)).map (·.2)
    ns.foldl (fun s n => modStrand s n fun t => if t.park = 1 ∨ t.park = 3 then unpark s.cycle t else t)
      { s with watches := s.watches.filter fun w => ! (ns.contains w.2) }
  else s

/-- The focused strand registers a watch on the line or word a (Table 12.4, WATCH). -/
def watchLine (s : State) (a : Nat) : State := { s with watches := s.watches ++ [(a, s.cur.val)] }

end Sys2Proof.Machine
end

