-- ==== Sys2Proof/Machine/Lines.lean ====
section
/-! DEFINITION. Lines at their home slices (chapter "Lines"): the home of a line, the tags and vat entries with their
sharing, the remote-data caches, and the L1. Memory holds the content of every line at its home, so these structures
decide where a line stands, what a reset loses, and what a stale L1 returns; they change no value read at a home (R207). -/

namespace Sys2Proof.Machine

/-! ## Homes -/

/-- The line that contains a memory key: 128 B aligned (R191). -/
def lineOf (a : Nat) : Nat := a / 128 * 128

/-- The key lies in L2-homed memory: GDDR-7, the cellar, or a compressed region's logical address (R191). -/
def isLine (a : Nat) : Bool :=
  decide (a < Config.gddrEnd ∨ (Config.cellarBase ≤ a ∧ a < Config.cellarEnd) ∨ Config.compBase ≤ a)

/-- The key lies in a scratchpad window (R175). -/
def isSpad (a : Nat) : Bool := decide (Config.spadBase ≤ a ∧ a < Config.spadEnd)

/-- The device core whose scratchpad window holds the address (R175). -/
def spadCore (a : Nat) : Nat := (a - Config.spadBase) / Config.spadBytes

/-- PLIMIT(p); the last is fixed (R192). -/
def plimitOf (s : State) (p : Nat) : Nat := if p = 7 then Config.lastLimit else (sget 0 s.lines.plimit p).toNat

/-- The partition of a line (R192): by the limits, or bits [47:45] of a logical address. -/
def partitionOf (s : State) (a : Nat) : Nat :=
  if Config.compBase ≤ a then (a - Config.compBase) / 2 ^ 45 % 8
  else ((List.range 8).find? fun p => decide (a < plimitOf s p)).getD 7

/-- The parity of the address under mask k of its partition (R193). -/
def hashBit (s : State) (a k : Nat) : Nat :=
  let m := sget 0 s.lines.masks (8 * partitionOf s a + k)
  popCount 64 ((w64 a) &&& m).toNat % 2

/-- The slice of a line (R193). -/
def homeSlice (s : State) (a : Nat) : Fin 64 :=
  Fin.ofNat 64 ((List.range 6).foldl (fun n k => n + hashBit s a k * 2 ^ k) 0)

/-- The die of a line (R193). -/
def homeDie (s : State) (a : Nat) : Fin 4 := Fin.ofNat 4 (hashBit s a 6 + 2 * hashBit s a 7)

/-- The die that holds a location is in reset (R380). -/
def homeInReset (s : State) (a : Nat) : Bool :=
  if isLine a then s.daleel.dies[(homeDie s a).val] = .inReset
  else if isSpad a then s.daleel.dies[(dieOf (4 * spadCore a)).val] = .inReset
  else false

/-! ## Counters (Table 12.8) -/

/-- L2 counter i of die d rises by n. -/
def countL2 (s : State) (d : Fin 4) (i n : Nat) : State :=
  let k := 16 * d.val + i
  { s with lines := { s.lines with counters := sset 0 s.lines.counters k (sget 0 s.lines.counters k + w64 n) } }

/-! ## Tags and vat entries -/

/-- The tag of a line, if its home holds one. -/
def findTag (s : State) (a : Nat) : Option L2Tag := s.lines.tags.find? fun t => t.line = a

/-- The tag of its line is replaced, or added. -/
def putTag (s : State) (t : L2Tag) : State :=
  let ts := s.lines.tags
  { s with lines := { s.lines with
      tags := if ts.any (·.line = t.line) then ts.map fun u => if u.line = t.line then t else u else ts ++ [t] } }

/-- The tag of a line is removed, with the RDC copies its vector names (R200). -/
def dropTag (s : State) (a : Nat) : State :=
  { s with lines := { s.lines with tags := s.lines.tags.filter fun t => t.line ≠ a, rdc := s.lines.rdc.filter fun r => r.2 ≠ a } }

/-- COUNT of a vat entry: the tags that point to it. -/
def entryCount (s : State) (e : Nat) : Nat := (s.lines.tags.filter fun t => t.entry = some e).length

/-- Vat entries that no tag names are free (R203, Release). -/
def freeEntries (s : State) : State :=
  { s with lines := { s.lines with vat := s.lines.vat.filter fun e => decide (0 < entryCount s e.1) } }

/-- Vat entries in use in the slice of a line. -/
def entriesOf (s : State) (a : Nat) : Nat :=
  (s.lines.vat.filter fun e => e.2.die = homeDie s a ∧ e.2.slice = homeSlice s a).length

/-- A vat entry leaves the index (R204). -/
def unindex (s : State) (e : Nat) : State :=
  { s with lines := { s.lines with vat := s.lines.vat.map fun v => if v.1 = e then (v.1, { v.2 with indexed := false }) else v } }

/-- The content of a line at its home. -/
def lineData (s : State) (a : Nat) : List Byte := memRead s.mem a 128

/-- All the bytes are zero. -/
def allZero (bs : List Byte) : Bool := bs.all (· = 0)

/-- A tag's entry is given up (R203, Release). -/
def releaseEntry (s : State) (t : L2Tag) : State := freeEntries (putTag s { t with entry := none })

/-- The tag takes a new vat entry of its slice, with the POISON of the one it leaves (R204). Where none is free the line stays
ABSENT (R202: a vat has 65,536 entries; log 63). -/
def newEntry (s : State) (t : L2Tag) (poison : Bool) : State :=
  if entriesOf s t.line < Config.vatEntries then
    let e := s.lines.nextVat
    let v : VatEntry := { die := homeDie s t.line, slice := homeSlice s t.line, domain := t.domain, poison := poison }
    freeEntries (putTag { s with lines := { s.lines with nextVat := e + 1, vat := s.lines.vat ++ [(e, v)] } } { t with entry := some e })
  else freeEntries (dropTag s t.line)

/-- POISON of the vat entry of a line (R206). -/
def entryPoison (s : State) (a : Nat) : Bool :=
  match (findTag s a).bind (·.entry) with
  | some e => s.lines.vat.any fun v => decide (v.1 = e) && v.2.poison
  | none => false

/-- A line reads as poisoned data: by its entry, or by a word of it in memory (R206, R371). -/
def linePoisoned (s : State) (a : Nat) : Bool := poisonedIn s a 128 || entryPoison s a

/-- A 4-byte word reads as poisoned data. -/
def wordPoisoned (s : State) (a : Nat) : Bool := poisonedIn s a 4 || (isLine a && entryPoison s (lineOf a))

/-- Some line of [a, a + n) reads as poisoned data. -/
def rangePoisoned (s : State) (a n : Nat) : Bool :=
  (List.range ((a + n - 1) / 128 - a / 128 + 1)).any fun i => linePoisoned s (lineOf a + 128 * i)

/-- The data of a vat entry: the content of a line that points to it. -/
def entryData (s : State) (e : Nat) : List Byte :=
  match s.lines.tags.find? fun u => u.entry = some e with
  | some u => lineData s u.line
  | none => []

/-- The key of a share domain (R205). -/
def domainKey (s : State) (dom : BitVec 8) : BitVec 128 := (s.lines.keys.drop (dom.toNat - 1)).headD 0

/-- Index(dom, h) for the hash h of a content: the entry of the slice that the index names (R203). -/
def indexOf (s : State) (t : L2Tag) (data : List Byte) : Option Nat :=
  (s.lines.vat.find? fun e =>
    e.2.indexed && decide (e.2.domain = t.domain) && decide (e.2.die = homeDie s t.line) && decide (e.2.slice = homeSlice s t.line)
      && (decide (entryData s e.1 = data) || Config.hashesCollide (domainKey s t.domain) (entryData s e.1) data)).map (·.1)

/-- An entry the index names may be joined: COUNT below 255, unpoisoned, all of its tags clean, the same 128 bytes (R203). -/
def joinable (s : State) (e : Nat) (data : List Byte) : Bool :=
  decide (entryCount s e < 255) && decide (entryData s e = data)
    && (s.lines.tags.filter fun u => u.entry = some e).all fun u => u.dirty.isNone && ! linePoisoned s u.line

/-- The index names entry e. -/
def index (s : State) (e : Nat) : State :=
  { s with lines := { s.lines with vat := s.lines.vat.map fun v => if v.1 = e then (v.1, { v.2 with indexed := true }) else v } }

/-- KeepPrivate (R203): the line keeps its entry, or takes one. -/
def keepPrivate (s : State) (t : L2Tag) : State := if t.entry.isSome then putTag s t else newEntry s t false

/-- KeepPrivate, and the index names the line's entry in place of e, if it names none or a full one (R203). -/
def keepIndexed (s : State) (t : L2Tag) (e : Option Nat) : State :=
  let full := match e with | some e => decide (entryCount s e = 255) | none => true
  let s := keepPrivate s t
  match (findTag s t.line).bind (·.entry) with
  | some n => if full then index (match e with | some e => unindex s e | none => s) n else s
  | none => s

/-- TryShare (R203): the line becomes ZERO, joins an identical clean entry of its domain, or keeps an entry of its own. -/
def tryShare (s : State) (t : L2Tag) (data : List Byte) : State :=
  let d := homeDie s t.line
  if linePoisoned s t.line then keepPrivate s t
  else if allZero data then countL2 (releaseEntry s t) d 5 1
  else if t.dedup = false ∨ t.domain = 0 then keepPrivate s t
  else
    match indexOf s t data with
    | some e =>
      if joinable s e data then
        (if t.entry = some e then putTag s t else countL2 (freeEntries (putTag s { t with entry := some e })) d 3 1)
      else keepIndexed s t (some e)
    | none => keepIndexed s t none

/-! ## Compressed logs (R188 to R190) -/

/-- Sectors of 256 B in a 4 MiB segment (R190). -/
def segSectors : Nat := 16384
/-- What the segment counts in `Region.head`. -/
def headUnit : Nat := 32768

/-- The compressed region of partition p. -/
def getRegion (s : State) (p : Nat) : Region := sget {} s.regions p
/-- The machine with region p replaced. -/
def setRegion (s : State) (p : Nat) (r : Region) : State := { s with regions := sset {} s.regions p r }
/-- ENABLE of a region. -/
def regionOn (r : Region) : Bool := r.clctl.getLsbD 8

/-- The 4 KiB block of a logical address: its first key. -/
def blockOf (a : Nat) : Nat := a / 4096 * 4096
/-- The number of the logical block within its partition (R189). -/
def blockNum (a : Nat) : Nat := (a - Config.compBase) % 2 ^ 45 / 4096

/-- Writing n sectors at the head of the log needs a segment, and none is free outside the collector's reserve (R190). -/
def logFull (r : Region) (n : Nat) : Bool := decide (r.clsegs = 0) || (decide (segSectors < r.head % headUnit + n) && decide (r.free.length ≤ 1))

/-- Registers CLFREE and CLLIVE follow the log. -/
def logCounts (r : Region) : Region :=
  { r with clfree := w64 r.free.length, cllive := w64 (r.live.foldl (fun n e => n + e.2) 0) }

/-- n sectors move to the head of the log, in the next free segment when the head's has no room; the address of the first. -/
def logAppend (r : Region) (n : Nat) : Nat × Region :=
  let next := decide (segSectors < r.head % headUnit + n)
  let h := if next then r.free.headD 0 * headUnit else r.head
  let free := if next then r.free.tail else r.free
  let seg := h / headUnit
  (r.clbase.toNat + (seg * segSectors + h % headUnit) * 256,
    { r with head := h + n, free := free, live := sset 0 r.live seg (sget 0 r.live seg + n) })

/-- The sectors a block map entry names become dead (lees). -/
def logDrop (r : Region) (e : Nat) : Region :=
  if e / 2 ^ 63 % 2 = 1 then
    let n := e / 2 ^ 56 % 16 + 1
    let seg := (e % 2 ^ 48 - r.clbase.toNat) / 2 ^ 22
    { r with live := sset 0 r.live seg (sget 0 r.live seg - n) }
  else r

/-- A block of the region that its map does not hold (V = 0) reads as zeros: its lines without a tag lose what the keys held
before (R189). -/
def freshBlock (s : State) (a : Nat) : State :=
  if a < Config.compBase then s
  else
    let r := getRegion s ((a - Config.compBase) / 2 ^ 45 % 8)
    if memNat s.mem (r.clmap.toNat + 8 * blockNum a) 8 / 2 ^ 63 % 2 = 1 then s
    else
      (List.range 32).foldl (fun s i =>
        let l := blockOf a + 128 * i
        if (findTag s l).isSome then s else { s with mem := memWrite s.mem l (List.replicate 128 0) }) s

/-- A write-back into a block rewrites the whole block at the head of the log and its map entry (R189); the log is full:
the write-back is held and event 0x15 is posted once (R190). The answer says whether it was done. -/
def logBlock (s : State) (a : Nat) : Bool × State :=
  if a < Config.compBase then (true, s)
  else
    let p := (a - Config.compBase) / 2 ^ 45 % 8
    let r := getRegion s p
    let s := freshBlock s a
    let n := (Config.sectors (memRead s.mem (blockOf a) 4096)).val + 1
    if logFull r n then
      if r.full then (false, s)
      else (false, postEvent (setRegion s p { r with full := true }) 0x15 (BitVec.ofNat 8 p) 0 r.cllive r.clbase)
    else
      let m := r.clmap.toNat + 8 * blockNum a
      let (sec, r) := logAppend (logDrop r (memNat s.mem m 8)) n
      let e := 2 ^ 63 + (n - 1) * 2 ^ 56 + sec
      (true, setRegion { s with mem := memWrite s.mem m (natToBytes 8 e) } p (logCounts r))

/-- A write-back of a line with a poisoned entry poisons the line in memory (R206, R371). -/
def spillPoison (s : State) (a : Nat) : State := if entryPoison s a then poisonRange s a 128 else s

/-- A DIRTY line is written back and stays, now clean (R202). -/
def writeBack (s : State) (a : Nat) : State :=
  match findTag s a with
  | some t =>
    if t.dirty.isSome then
      match logBlock s a with
      | (true, s) => tryShare (spillPoison s a) { t with dirty := none } (lineData s a)
      | (false, s) => s
    else s
  | none => s

/-- A tag is evicted; a DIRTY line is written back first, and RDC copies are invalidated (R202). -/
def evictLine (s : State) (a : Nat) : State :=
  let dirty := match findTag s a with | some t => t.dirty.isSome | none => false
  if dirty then
    match logBlock s a with
    | (true, s) => freeEntries (dropTag (spillPoison s a) a)
    | (false, s) => s
  else freeEntries (dropTag s a)

/-- The tags of the slice of a line. -/
def sliceTags (s : State) (a : Nat) : List L2Tag :=
  s.lines.tags.filter fun t => homeSlice s t.line = homeSlice s a ∧ homeDie s t.line = homeDie s a

/-- A tag of the line's slice to evict: not the line's own, not pinned, and none of `kept`, whose write-back is held (R204, log 12). -/
def victim (s : State) (a : Nat) (kept : List Nat) : Option L2Tag :=
  leaving s a ((sliceTags s a).filter fun t => t.line ≠ a ∧ t.pin = none ∧ t.line ∉ kept)

/-- Tags of the slice of a line are evicted until p holds, or none may go; at most n of them. -/
def evictUntil (p : State → Bool) (a : Nat) : Nat → List Nat → State → State
  | 0, _, s => s
  | n + 1, kept, s =>
    if p s then s
    else
      match victim s a kept with
      | some v => evictUntil p a n (v.line :: kept) (evictLine s v.line)
      | none => s

/-- The line holds a vat entry alone. -/
def holdsAlone (s : State) (a : Nat) : Bool :=
  match (findTag s a).bind (·.entry) with
  | some e => decide (entryCount s e = 1)
  | none => false

/-- A write of the line finds a vat entry: one is free, or its line shares none (R204). -/
def entryReady (s : State) (a : Nat) : Bool := decide (entriesOf s a < Config.vatEntries) || holdsAlone s a

/-- Tags are evicted until a write of the line finds a vat entry, or none may go (R204). -/
def makeRoom (s : State) (a : Nat) : State := evictUntil (entryReady · a) a s.lines.tags.length [] s

/-- A tag of the line's slice is free. -/
def tagReady (s : State) (a : Nat) : Bool := decide ((sliceTags s a).length < Config.l2Tags)

/-- Tags are evicted until one of the line's slice is free, or none may go (R202). -/
def makeTag (s : State) (a : Nat) : State := evictUntil (tagReady · a) a s.lines.tags.length [] s

/-- A line is looked up at its home, and filled if ABSENT: ZERO, SHARED or PRIVATE (Table 12.5). Where no tag can be freed it stays
ABSENT (log 63). -/
def homeFill (s : State) (a : Nat) (dedup : Bool) (dom : BitVec 8) : State :=
  let d := homeDie s a
  let s := countL2 s d 0 1
  match findTag s a with
  | some _ => s
  | none =>
    let s := makeTag (countL2 (freshBlock s a) d 1 1) a
    if tagReady s a then
      let s := makeRoom s a
      tryShare s { line := a, entry := none, dedup := dedup, domain := dom } (lineData s a)
    else s

/-- A copy of a line enters the RDC of die d; another of its slice index leaves when its 2 MiB are full (R200, log 12). -/
def keepRdc (s : State) (d : Fin 4) (a : Nat) : State :=
  let own := s.lines.rdc.filter fun r => r.1 = d ∧ homeSlice s r.2 = homeSlice s a
  let rest := if own.length < Config.rdcLines then s.lines.rdc else s.lines.rdc.erase ((leaving s a own).getD (d, a))
  { s with lines := { s.lines with rdc := rest ++ [(d, a)], rdcBad := s.lines.rdcBad.filter (· ≠ (d, a)) } }

/-- The RDC of die d serves a line, and an uncorrectable error stands in its copy (R371). -/
def rdcPoisoned (s : State) (d : Fin 4) (a : Nat) : Bool := s.lines.rdcBad.contains (d, a) && s.lines.rdc.contains (d, a)

/-- A read from a unit of die d: served by the RDC of d if it holds a copy, else by the home, which fills the line, sets
the sharer bit of a remote die and sends the line to its RDC (R200). -/
def homeRead (s : State) (a : Nat) (d : Fin 4) (dedup : Bool) (dom : BitVec 8) : State :=
  let h := homeDie s a
  if d = h then homeFill s a dedup dom
  else if s.lines.rdc.contains (d, a) then countL2 s d 2 1
  else
    let s := homeFill s a dedup dom
    match findTag s a with
    | some t =>
      keepRdc (putTag s { t with sharers := t.sharers ||| BitVec.ofNat 4 (2 ^ d.val) }) d a
    | none => s

/-- The home cannot un-share the line: no vat entry is free, and none may be freed (R204). -/
def writeHeld (s : State) (a : Nat) : Bool := ! entryReady (makeRoom s a) a

/-- PrepareWrite (R204): the line is un-shared, leaves the index and becomes DIRTY; `dirty` keeps what memory last held. Its
RDC copies are invalidated (R201). -/
def prepareWrite (s : State) (a : Nat) : State :=
  let s := makeRoom s a
  let s := { s with lines := { s.lines with rdc := s.lines.rdc.filter fun r => r.2 ≠ a } }
  match findTag s a with
  | none => s
  | some t =>
    let old := t.dirty.getD (lineData s a)
    let t := { t with dirty := some old, sharers := 0 }
    match t.entry with
    | some e =>
      if 1 < entryCount s e then countL2 (newEntry s t (entryPoison s a)) (homeDie s a) 4 1
      else unindex (putTag s t) e
    | none => countL2 (newEntry s t false) (homeDie s a) 4 1

/-- POISON of a line's own entry is cleared: all 128 B of the line are written (R206). -/
def clearEntryPoison (s : State) (a : Nat) : State :=
  if entryPoison s a then
    let own := (findTag s a).bind fun t => t.entry
    let vat := s.lines.vat.map fun v => if own = some v.1 then (v.1, { v.2 with poison := false }) else v
    { s with lines := { s.lines with vat := vat } }
  else s

/-- The patches of a line, each its offset and its bytes, cover all 128 B. -/
def coversLine (ps : List (Nat × List Byte)) : Bool :=
  (List.range 128).all fun i => ps.any fun p => decide (p.1 ≤ i ∧ i < p.1 + p.2.length)

/-- A line that has been looked up is written at its home (R201, R204): it is un-shared, written, its RDC copies are invalidated and
its watchers wake. A write of all 128 B clears its poison (R206). -/
def writeLine (s : State) (l : Nat) (ps : List (Nat × List Byte)) : State :=
  let s := prepareWrite s l
  let s := if coversLine ps then clearEntryPoison (clearPoison s l 128) l else s
  wakeLine { s with mem := ps.foldl (fun m p => memWrite m (l + p.1) p.2) s.mem } l

/-- One write of a line at its home: it is looked up, and filled unless ABSENT and written whole (Table 12.5). -/
def homePatch (s : State) (l : Nat) (ps : List (Nat × List Byte)) (dedup : Bool) (dom : BitVec 8) : State :=
  if (findTag s l).isNone ∧ coversLine ps then
    let s := makeTag (countL2 (countL2 (freshBlock s l) (homeDie s l) 0 1) (homeDie s l) 1 1) l
    let s := if tagReady s l then newEntry (makeRoom s l) { line := l, entry := none, dedup := dedup, domain := dom } false else s
    writeLine s l ps
  else writeLine (homeFill s l dedup dom) l ps

/-- A write of the bytes bs at a, all within one line, at its home. -/
def homeWrite (s : State) (a : Nat) (bs : List Byte) (dedup : Bool) (dom : BitVec 8) : State :=
  homePatch s (lineOf a) [(a % 128, bs)] dedup dom

/-- A write at its home of a line that the same access has already looked up (R210: one lookup). -/
def writeFilled (s : State) (a : Nat) (bs : List Byte) : State := writeLine s (lineOf a) [(a % 128, bs)]

/-- A write of the bytes bs at a in a scratchpad: applied at the owning core (R211). A write of whole 8-byte words clears
their poison (R371: SECDED per 64 bits). -/
def spadWrite (s : State) (a : Nat) (bs : List Byte) : State :=
  let s := clearPoison s (roundUp a 8) ((a + bs.length) / 8 * 8 - roundUp a 8)
  wakeLine { s with mem := memWrite s.mem a bs } (a / 8 * 8)

/-- One write of an 8-byte word of a scratchpad: a whole one clears its poison. -/
def spadPatch (s : State) (w : Nat) (ps : List (Nat × List Byte)) : State :=
  let whole := (List.range 8).all fun i => ps.any fun p => decide (p.1 ≤ i ∧ i < p.1 + p.2.length)
  let s := if whole then clearPoison s w 8 else s
  wakeLine { s with mem := ps.foldl (fun m p => memWrite m (w + p.1) p.2) s.mem } w

/-- A write of bytes at a physical key, split into its lines. -/
def physWrite : Nat → State → Nat → List Byte → Bool → BitVec 8 → State
  | 0, s, _, _, _, _ => s
  | n + 1, s, a, bs, dedup, dom =>
    if bs = [] then s
    else if isSpad a then
      let k := 8 - a % 8
      physWrite n (spadWrite s a (bs.take k)) (a + k) (bs.drop k) dedup dom
    else
      let k := 128 - a % 128
      physWrite n (homeWrite s a (bs.take k) dedup dom) (a + k) (bs.drop k) dedup dom

/-- A write by the device itself of whole words into L2-homed memory or scratchpad. -/
def devWrite (s : State) (a : Nat) (bs : List Byte) : State := physWrite (bs.length + 1) s a bs false 0

/-- The lines of [a, a + n), where they are L2-homed. -/
def linesOf (a n : Nat) : List Nat :=
  if isLine a ∧ 0 < n then (List.range ((a + n - 1) / 128 - a / 128 + 1)).map fun i => lineOf a + 128 * i else []

/-- A read by the device itself, at the home, from a unit of die d. -/
def devRead (s : State) (a n : Nat) (d : Fin 4) : List Byte × State :=
  let s := (linesOf a n).foldl (fun s l => homeRead s l d false 0) s
  (memRead s.mem a n, s)

/-- A read of the host or of a peer: each line at its home L2, over the port of its K-die (Table 1.3, R16). -/
def portRead (s : State) (a n : Nat) : List Byte × State :=
  let s := (linesOf a n).foldl (fun s l => homeFill s l false 0) s
  (memRead s.mem a n, s)

/-! ## L1 (R197 to R199) -/

/-- FILL replies on their way to a core, of a line that p names, enter no L1 when they arrive: the core has since stored to the line,
or made an acquire (R213, R218). -/
def passReplies (s : State) (c : Nat) (p : Nat → Bool) : State :=
  let pass (r : Reply) : Reply := if decide (r.core = c) && r.line.any p then { r with line := none } else r
  { s with lines := { s.lines with replies := s.lines.replies.map pass } }

/-- The L1 of a core loses every line: an acquire at `.cl` or wider (R199). -/
def emptyL1 (s : State) (c : Nat) : State := modCore (passReplies s c fun _ => true) c fun k => { k with l1 := [] }

/-- The bytes [a, a + n) and the element slots of a gathered line overlap. -/
def gatherOverlaps (l : L1Line) (a n : Nat) : Bool :=
  (List.range (128 / l.size)).any fun j =>
    let e := (l.addr : Int) + j * l.stride
    decide (e < a + n ∧ (a : Int) < e + l.size)

/-- A store of the core's own strands: a matching ordinary line is updated in place, and an overlapping gathered line is
invalidated (R197, R198). -/
def storeL1 (s : State) (c a : Nat) (bs : List Byte) : State :=
  let s := passReplies s c (· = lineOf a)
  if (getCore s c).l1 = [] then s
  else modCore s c fun k => { k with
    l1 := (k.l1.filter fun l => ! (l.size ≠ 0 ∧ gatherOverlaps l a bs.length)).map fun l =>
      if l.size = 0 ∧ l.addr = lineOf a then { l with data := l.data.take (a % 128) ++ bs ++ l.data.drop (a % 128 + bs.length) } else l }

/-- An atomic of the core invalidates its matching ordinary line and every overlapping gathered line (R197). -/
def atomicL1 (s : State) (c a n : Nat) : State :=
  let s := passReplies s c (· = lineOf a)
  if (getCore s c).l1 = [] then s
  else modCore s c fun k => { k with
    l1 := k.l1.filter fun l => ! ((l.size = 0 ∧ l.addr = lineOf a) ∨ (l.size ≠ 0 ∧ gatherOverlaps l a n)) }

/-- A line enters the L1: a line of its set leaves when the set is full (R197, log 12). -/
def allocL1 (s : State) (c : Nat) (l : L1Line) : State :=
  modCore s c fun k =>
    let set := k.l1.filter fun m => m.addr / 128 % Config.l1Sets = l.addr / 128 % Config.l1Sets
    let rest := if set.length < Config.l1Ways then k.l1 else k.l1.erase ((leaving s l.addr set).getD l)
    { k with l1 := rest ++ [l] }

/-- The ordinary line of an L1, if it holds it. -/
def hitL1 (s : State) (c a : Nat) : Option L1Line := (getCore s c).l1.find? fun l => l.size = 0 ∧ l.addr = lineOf a

/-- The class of a FILL reply and its wire bytes (Table 12.6). -/
def wireBytes (data : List Byte) : Nat :=
  let ws := (List.range 16).map fun i => bytesToNat ((data.drop (8 * i)).take 8)
  let w0 := ws.headD 0
  let fits (k : Nat) : Bool := ws.all fun w =>
    let d := signed 64 ((w + 2 ^ 64 - w0) % 2 ^ 64)
    decide (-(2 ^ (k - 1) : Int) ≤ d ∧ d < 2 ^ (k - 1))
  if ws.all (· = 0) then 0 else if ws.all (· = w0) then 16
  else if fits 8 then 32 else if fits 16 then 48 else if fits 32 then 80 else 128

/-- A FILL reply of the line, sent to a core of die d by the slice of that die, is counted there (R208, R210). -/
def countWire (s : State) (d : Fin 4) (a : Nat) : State :=
  countL2 (countL2 s d 6 1) d 7 (wireBytes (lineData s a))

end Sys2Proof.Machine
end

