-- ==== Sys2Proof/Machine/Contexts.lean ====
section
/-! DEFINITION. Context descriptors (R46 to R50), queue errors (R68), and a context's entry into DEAD (R48). -/

namespace Sys2Proof.Machine

/-! ## Descriptors (Table 3.1) -/

/-- Physical address of a context's descriptor (R46). -/
def descAddr (s : State) (ctx : BitVec 12) : Nat := s.lp.ctxTable + 128 * ctx.toNat

/-- The descriptor's dword at offset off. -/
def descWord (s : State) (ctx : BitVec 12) (off : Nat) : Word := w64 (memNat s.mem (descAddr s ctx + off) 8)

/-- STATE of a context (Table 3.2), as the launch processor holds it: whatever stands in memory, a context moves only on the listed
events (R48). -/
def ctxState (s : State) (ctx : BitVec 12) : Nat := (sget 0 s.lp.active ctx.toNat).toNat

/-- The launch processor holds a STATE. -/
def holdState (s : State) (ctx : BitVec 12) (st : Nat) : State :=
  { s with lp := { s.lp with active := sset 0 s.lp.active ctx.toNat (BitVec.ofNat 4 st) } }

/-- STATE is written by the launch processor. -/
def setCtxState (s : State) (ctx : BitVec 12) (st : Nat) : State :=
  holdState (devWrite s (descAddr s ctx) (natToBytes 8 (setBits (descWord s ctx 0) 0 4 st).toNat)) ctx st

/-- DOMAIN (R50). -/
def ctxDomain (s : State) (ctx : BitVec 12) : BitVec 8 := BitVec.ofNat 8 (bits (descWord s ctx 0) 4 8)
/-- PTROOT, the physical address of the top table. -/
def ctxRoot (s : State) (ctx : BitVec 12) : Nat := bits (descWord s ctx 8) 15 33 * 2 ^ 15
/-- VTBASE, VTCOUNT, SVCQ, RELQ, FRBASE, FRCOUNT and TVEC. -/
def ctxVtBase (s : State) (ctx : BitVec 12) : Nat := bits (descWord s ctx 0x10) 6 42 * 64
def ctxVtCount (s : State) (ctx : BitVec 12) : Nat := bits (descWord s ctx 0x18) 0 32
def ctxSvcq (s : State) (ctx : BitVec 12) : Nat := bits (descWord s ctx 0x20) 0 48
def ctxRelq (s : State) (ctx : BitVec 12) : Nat := bits (descWord s ctx 0x28) 0 48
def ctxFrBase (s : State) (ctx : BitVec 12) : Nat := bits (descWord s ctx 0x30) 16 32 * 2 ^ 16
def ctxFrCount (s : State) (ctx : BitVec 12) : Nat := bits (descWord s ctx 0x38) 0 16
def ctxTvec (s : State) (ctx : BitVec 12) : Word := w64 (bits (descWord s ctx 0x40) 0 48)

/-- A descriptor whose RES fields are all 0 (R9, R47). -/
def descValid (s : State) (ctx : BitVec 12) : Bool :=
  let d := descWord s ctx
  bits (d 0) 12 52 = 0 ∧ bits (d 8) 0 15 = 0 ∧ bits (d 8) 48 16 = 0 ∧ bits (d 0x10) 0 6 = 0 ∧ bits (d 0x10) 48 16 = 0
    ∧ bits (d 0x18) 32 32 = 0 ∧ bits (d 0x20) 48 16 = 0 ∧ bits (d 0x28) 48 16 = 0 ∧ bits (d 0x30) 0 16 = 0
    ∧ bits (d 0x30) 48 16 = 0 ∧ bits (d 0x38) 16 48 = 0 ∧ bits (d 0x40) 48 16 = 0
    ∧ allZero (memRead s.mem (descAddr s ctx + 0x48) 0x38) = true

/-- The pins of a context are lost, with no event (R209). -/
def dropPins (s : State) (ctx : BitVec 12) : State :=
  allPinsDue { s with lines := { s.lines with tags := s.lines.tags.map fun t => if t.pin = some ctx then { t with pin := none } else t } }

/-! ## Queues (Table 4.1) -/

def getQueue (s : State) (q : Nat) : Queue := sget {} s.lp.queues q
def setQueue (s : State) (q : Nat) (v : Queue) : State := { s with lp := { s.lp with queues := sset {} s.lp.queues q v } }
def Queue.ctx (q : Queue) : BitVec 12 := BitVec.ofNat 12 (bits q.qctl 16 12)
def Queue.deviceMode (q : Queue) : Bool := bits q.qctl 12 1 = 1
def Queue.prio (q : Queue) : Nat := bits q.qctl 8 3
def Queue.weight (q : Queue) : Nat := bits q.qctl 0 8
def Queue.slice (q : Queue) : Nat := bits q.qctl 32 16

/-- STATUS of a queue: ERR in [15:8], STATE in [2:0]. -/
def Queue.status (q : Queue) : Word := w64 (q.err.toNat * 2 ^ 8 + q.stat.toNat)

/-- The entry has started (R89). -/
def QEntry.started (e : QEntry) : Bool :=
  match e.stage with
  | .waiting => false
  | .placing => decide (e.next ≠ 0)
  | _ => true

/-- An ACTIVE queue enters ERROR: code and sequence are recorded, fetching stops, its entries that have not started are given
up (log 44), an event is posted and its waiters complete (R68, R72). -/
def queueError (s : State) (q : Nat) (code : BitVec 8) (fail value addr : Word) : State :=
  let v := getQueue s q
  if v.stat ≠ 1 then s
  else
    let v' := { v with err := code, stat := 2, failseq := fail, entries := v.entries.filter (·.started) }
    let s := postRecord (setQueue s q v') { kind := 0x02, reason := code, ctx := v.ctx, queue := BitVec.ofNat 6 q, value, addr }
    failWaits s q v'.status

/-- The LAUNCH entries of a context that is DEAD end ABORTED, and their queues enter ERROR 0x05; one that is DRAINING, its items all
gone, is not among them (Table 5.3). -/
def abortEntries (s : State) (ctx : BitVec 12) : State :=
  (s.lp.queues.map (·.1)).foldl (fun s q =>
    let v := getQueue s q
    let own (e : QEntry) : Bool := decide (e.ctx = ctx ∧ e.kind = 1 ∧ e.stage ≠ .complete ∧ ¬ (e.stage = .placed ∧ e.live = 0))
    match v.entries.find? own with
    | none => s
    | some e =>
      let s := setQueue s q { v with entries := v.entries.filter fun e => ! own e }
      queueError s q 0x05 (w64 e.seq) (w64 e.seq) e.addr) s

/-- A strand waits for no walk any more: its instruction is given up. -/
def forgetWaits (n : Nat) (s : State) : State :=
  { s with lines := { s.lines with
      misses := s.lines.misses.map fun m => { m with waiters := m.waiters.filter (· ≠ .strand n) }
      missed := s.lines.missed.filter fun m => m.who ≠ .strand n } }

/-- Replies and answers to what strand n has sent, which is gone, will find nobody, nor those to what its copies have sent, where these
have gone with it; the strand waits for nothing. -/
def forgetReads (s : State) (n : Nat) (copies : Bool) : State :=
  let mine (k : Nat) (copy : Bool) : Bool := decide (k = n) && (copies || ! copy)
  let msg (m : PeerMsg) : PeerMsg := if mine m.strand m.copy then { m with strand := 4096 } else m
  let out (w : Outgoing) : Outgoing := match w with
    | .request m => .request (msg m)
    | w => w
  let s := forgetWaits n s
  { s with
    watches := s.watches.filter fun w => w.2 ≠ n
    links := { s.links with
      hostReads := s.links.hostReads.map fun r => if mine r.strand r.copy then { r with strand := 4096 } else r
      hostLate := s.links.hostLate.map fun p => if mine p.1 p.2 then (4096, p.2) else p
      outbox := s.links.outbox.map fun q => { q with what := out q.what }
      ports := s.links.ports.map fun p => (p.1, { p.2 with
        buffer := p.2.buffer.map fun f => { f with what := out f.what }
        waiting := p.2.waiting.map msg }) } }

/-- A context enters DEAD (R48): its strands stop, nothing of it waits for a walk, its pins, groups, saved items and entries go (R209, R100, R89), and an
event names the reason. The first cause supplies the event (R351). -/
def contextDead (s : State) (ctx : BitVec 12) (reason : BitVec 8) (value addr : Word) : State :=
  if ctxState s ctx = 6 then s
  else
    let s := dropPins (setCtxState s ctx 6) ctx
    let s := (strandsWhere s fun t => t.resident ∧ t.ctx = ctx).foldl (fun s n => forgetReads (setStrand s n {}) n false) s
    let s := { s with lines := { s.lines with
      misses := s.lines.misses.filter fun m => m.ctx ≠ ctx
      missed := s.lines.missed.filter fun m => m.ctx ≠ ctx } }
    let s := { s with lp := { s.lp with
      groups := s.lp.groups.filter fun g => g.2.ctx ≠ ctx
      saved := s.lp.saved.filter fun v => v.ctx ≠ ctx
      order := s.lp.order.filter (· ≠ ctx)
      resid := s.lp.resid.filter (· ≠ ctx) } }
    abortEntries (postEvent s 0x01 reason ctx value addr) ctx

/-- An uncorrectable error on a descriptor that the device reads ends its context, unless that is FREE or IDLE (Table 3.2). -/
def descCheck (s : State) (ctx : BitVec 12) : State :=
  if ctx ≠ 0 ∧ linePoisoned s (descAddr s ctx) ∧ 2 ≤ ctxState s ctx then contextDead s ctx 1 0 (w64 (descAddr s ctx)) else s

end Sys2Proof.Machine
end

