-- ==== Sys2Proof/Machine/Pages.lean ====
section
/-! DEFINITION. Translation (chapter "Pages"): table entries, walks through the three levels, the core and last-level TLBs,
and the checks of an access. -/

namespace Sys2Proof.Machine

/-! ## Table entries (Table 11.1) -/

/-- Bit i of a table entry. -/
def entryBit (e i : Nat) : Bool := e / 2 ^ i % 2 = 1
/-- TIER, MOVE and PINS. -/
def entryTier (e : Nat) : Nat := e / 2 ^ 55 % 4
def entryMove (e : Nat) : Nat := e / 2 ^ 53 % 4
/-- FRAME as an address: bits [47:16]. -/
def entryFrame (e : Nat) : Nat := e / 2 ^ 16 % 2 ^ 32 * 2 ^ 16
/-- The next table of a pointer entry: bits [47:13]. -/
def entryNext (e : Nat) : Nat := e / 2 ^ 13 % 2 ^ 35 * 2 ^ 13

/-- [a, a + n) lies wholly inside the range of Table 11.2 that a tier names. -/
def inTier (tier a n : Nat) : Bool :=
  match tier with
  | 0 => decide (a + n ≤ Config.gddrEnd)
  | 1 => decide (Config.cellarBase ≤ a ∧ a + n ≤ Config.cellarEnd)
  | 2 => decide (Config.spadBase ≤ a ∧ a + n ≤ Config.spadEnd)
  | _ => decide (Config.mmioBase ≤ a ∧ a + n ≤ Config.mmioEnd)

/-- A COMP page names enabled blocks of its partition (R188). -/
def compOk (s : State) (e n : Nat) : Bool :=
  let r := getRegion s (entryFrame e / 2 ^ 45 % 8)
  regionOn r && decide (entryFrame e % 2 ^ 45 / 4096 + n / 4096 ≤ bits r.clblks 0 32)

/-- A table of n bytes lies wholly inside the GDDR-7 or cellar range of Table 11.2 (R174). -/
def tablePlace (a n : Nat) : Bool := inTier 0 a n || inTier 1 a n

/-- An entry with V = 1 that points to a next table is well formed (R173, R174). -/
def pointerOk (e : Nat) : Bool :=
  ! entryBit e 62 && decide (e / 2 ^ 48 % 2 ^ 14 = 0) && decide (e % 2 ^ 13 = 0)
    && tablePlace (entryNext e) 8192

/-- An entry with V = 1 that maps a page of n bytes is well formed (R173, R174). -/
def pageOk (s : State) (e n : Nat) : Bool :=
  entryBit e 62 && ! entryBit e 52 && decide (e % 2 ^ 16 = 0) && decide (entryFrame e % n = 0)
    && (! entryBit e 60 || entryBit e 61) && decide (entryMove e < 2)
    && (if entryBit e 57 then decide (entryTier e < 2) && compOk s e n else inTier (entryTier e) (entryFrame e) n)
    && ! (decide (2 ≤ entryTier e) && (entryBit e 58 || entryBit e 57))
    && ! (decide (entryTier e = 3) && ! entryBit e 59)

/-- The entry of level lvl (0 top, 1 mid, 2 leaf) is well formed. -/
def entryOk (s : State) (lvl e : Nat) : Bool :=
  match lvl with
  | 0 => pointerOk e
  | 1 => if entryBit e 62 then pageOk s e (2 ^ 26) else pointerOk e
  | _ => pageOk s e (2 ^ 16)

/-- Index of a virtual address at a level (R172). -/
def levelIndex (lvl va : Nat) : Nat :=
  match lvl with
  | 0 => va / 2 ^ 36 % 4096
  | 1 => va / 2 ^ 26 % 1024
  | _ => va / 2 ^ 16 % 1024

/-- What a walk finds: the entry, where it lies, and whether the page is large. -/
structure Found where
  pa    : Nat
  entry : Nat
  large : Bool
  deriving DecidableEq, Repr

/-- A walk from the table at `table`, level lvl on (R172, R178). It ends with cause 0x04 at V = 0 or a malformed entry
(event 0x14), 0x05 when the entry's home is in reset (R380), 0x06 at an uncorrectable error (event 0x17 for strand n, R176, R372).
The page command unit takes an entry with V = 0 as found (keep = true). -/
def walkFrom (d : Fin 4) (n : Nat) (ctx : BitVec 12) (va : Nat) (keep : Bool) : Nat → Nat → Nat → State → Except (BitVec 8) Found × State
  | 0, _, _, s => (.error 0x04, s)
  | fuel + 1, lvl, table, s =>
    let a := table + 8 * levelIndex lvl va
    if homeInReset s a then (.error 0x05, s)
    else
      let (_, s) := devRead s a 8 d
      let e := memNat s.mem a 8
      if linePoisoned s (lineOf a) then
        (.error 0x06, postEvent s 0x17 3 ctx (w64 (n * 2 ^ 32)) (w64 a))
      else if ! entryBit e 63 then
        if keep && decide (lvl = 2) then (.ok { pa := a, entry := e, large := false }, s) else (.error 0x04, s)
      else if ! entryOk s lvl e then (.error 0x04, postEvent s 0x14 1 ctx (ctx.zeroExtend 64) (w64 a))
      else if entryBit e 62 then (.ok { pa := a, entry := e, large := decide (lvl = 1) }, s)
      else walkFrom d n ctx va keep fuel (lvl + 1) (entryNext e) s

/-- A walk for strand n through the three levels rooted at the context's PTROOT. An uncorrectable error on the descriptor ends the
context (R48). A top table that lies outside GDDR-7 and the cellar maps nothing, as R174 says of a pointer to a next table (log 58). -/
def walk (d : Fin 4) (n : Nat) (ctx : BitVec 12) (va : Nat) (s : State) : Except (BitVec 8) Found × State :=
  if linePoisoned s (descAddr s ctx) then (.error 0x06, descCheck s ctx)
  else if tablePlace (ctxRoot s ctx) 0x8000 then walkFrom d n ctx va false 3 0 (ctxRoot s ctx) s else (.error 0x04, s)

/-- A TLB entry filled from a walk (R177). -/
def tlbOf (ctx : BitVec 12) (va : Nat) (f : Found) : TlbEntry :=
  let n := if f.large then 2 ^ 26 else 2 ^ 16
  let e := f.entry
  { ctx, vpage := va / n * n, large := f.large,
    base := if entryBit e 57 then Config.compBase + entryFrame e else entryFrame e,
    r := entryBit e 61, w := entryBit e 60, p := entryBit e 59, dedup := entryBit e 58, comp := entryBit e 57,
    tier := BitVec.ofNat 2 (entryTier e), moving := decide (entryMove e = 1) }

/-- Bytes of a TLB entry's page. -/
def TlbEntry.size (e : TlbEntry) : Nat := if e.large then 2 ^ 26 else 2 ^ 16

/-- A TLB entry maps an address of a context. -/
def TlbEntry.maps (e : TlbEntry) (ctx : BitVec 12) (va : Nat) : Bool :=
  decide (e.ctx = ctx ∧ e.vpage ≤ va ∧ va < e.vpage + e.size)

/-- The memory key of an address in a page. -/
def TlbEntry.key (e : TlbEntry) (va : Nat) : Nat := e.base + (va - e.vpage)

/-- A translation found by a core is kept in its TLB, newest first; another leaves when the TLB is full (R177, log 12). -/
def keepCore (s : State) (c : Nat) (e : TlbEntry) : State :=
  modCore s c fun k =>
    { k with tlb := e :: if k.tlb.length < Config.coreTlb then k.tlb else k.tlb.erase ((leaving s e.vpage k.tlb).getD e) }

/-- A translation found by a walk is kept in the die's last-level TLB (R177, log 12). -/
def keepDie (s : State) (d : Fin 4) (e : TlbEntry) : State :=
  let own := s.lines.tlb.filter fun x => decide (x.1 = d)
  let rest := if own.length < Config.dieTlb then s.lines.tlb else s.lines.tlb.erase ((leaving s e.vpage own).getD (d, e))
  { s with lines := { s.lines with tlb := (d, e) :: rest } }

/-! ## The miss-coalescing table (R178) -/

/-- Entries of a die's table, and its walkers. -/
def missTable : Nat := 1024
def walkers : Nat := 64

/-- The key of an address in a die's table. -/
def Miss.hits (m : Miss) (d : Fin 4) (ctx : BitVec 12) (va : Nat) : Bool := decide (m.die = d ∧ m.ctx = ctx ∧ m.page = va / 2 ^ 16)

/-- The entries of a die's table. -/
def dieMisses (s : State) (d : Fin 4) : List Miss := s.lines.misses.filter fun m => m.die = d

/-- The strand that an access belongs to, or 0 for a unit of the device. -/
def Waiter.strandNum : Waiter → Nat
  | .strand n | .copy n _ => n
  | .device => 0

/-- A miss joins the entry of its key, or enters its die's table; while the table is full it waits outside. -/
def enterMiss (who : Waiter) (d : Fin 4) (ctx : BitVec 12) (va : Nat) (s : State) : State :=
  let join (m : Miss) : Miss := if m.hits d ctx va && ! m.waiters.contains who then { m with waiters := m.waiters ++ [who] } else m
  let ms := s.lines.misses
  if ms.any fun m => m.hits d ctx va then { s with lines := { s.lines with misses := ms.map join } }
  else if missTable ≤ (dieMisses s d).length then s
  else { s with lines := { s.lines with misses := ms ++ [{ die := d, ctx, page := va / 2 ^ 16, waiters := [who] }] } }

/-- The walk of a key ends with what it found: its entry is complete, and with a 64 MiB page every entry of the context whose
VA[47:26] matches. One that ends in a trap traps every access that joined it (R176). -/
def endMiss (d : Fin 4) (ctx : BitVec 12) (va : Nat) (r : Except (BitVec 8) TlbEntry) (s : State) : State :=
  let ends (m : Miss) : Bool := m.hits d ctx va || (match r with
    | .ok f => f.large && decide (m.die = d ∧ m.ctx = ctx ∧ m.page / 2 ^ 10 = va / 2 ^ 26)
    | .error _ => false)
  let traps := match r with
    | .ok _ => []
    | .error cause => (s.lines.misses.filter fun m => m.hits d ctx va).flatMap fun m =>
        m.waiters.map fun who => { who, die := d, ctx, page := m.page, cause : Missed }
  { s with lines := { s.lines with misses := s.lines.misses.filter fun m => ! ends m, missed := s.lines.missed ++ traps } }

/-- The key is among those that the die's walkers serve: the oldest entries. -/
def walking (s : State) (d : Fin 4) (ctx : BitVec 12) (va : Nat) : Bool :=
  ((dieMisses s d).take walkers).any fun m => m.hits d ctx va

/-- What a translation comes to: a page, the cause of a trap, or a wait for a walk. -/
inductive Walked
  | found (e : TlbEntry)
  | fault (cause : BitVec 8)
  | waits
  deriving DecidableEq, Repr

/-- A walk for strand n, kept in the last-level TLB of die d (R177). -/
def walkKept (d : Fin 4) (n : Nat) (ctx : BitVec 12) (va : Nat) (s : State) : Except (BitVec 8) TlbEntry × State :=
  match walk d n ctx va s with
  | (.error c, s) => (.error c, s)
  | (.ok f, s) => (.ok (tlbOf ctx va f), keepDie s d (tlbOf ctx va f))

/-- A last-level miss (R178): one that joined a walk takes the trap that ended it. Else it waits in the table, where an entry has its
key, where the table is full, or while the units lag behind the strands; and else its walk ends at once. -/
def missWalk (who : Waiter) (d : Fin 4) (ctx : BitVec 12) (va : Nat) (s : State) : Walked × State :=
  match s.lines.missed.find? fun m => decide (m.who = who ∧ m.die = d ∧ m.ctx = ctx ∧ m.page = va / 2 ^ 16) with
  | some m => (.fault m.cause, { s with lines := { s.lines with missed := s.lines.missed.erase m } })
  | none =>
    if s.lag || (s.lines.misses.any fun m => m.hits d ctx va) || decide (missTable ≤ (dieMisses s d).length) then
      (.waits, enterMiss who d ctx va s)
    else
      match walkKept d who.strandNum ctx va s with
      | (.error c, s) => (.fault c, s)
      | (.ok e, s) => (.found e, s)

/-- A TLB entry is used: one in which an uncorrectable error stands faults its consumer (R371, R372). -/
def useTlb (who : Waiter) (e : TlbEntry) (s : State) : Walked × State :=
  if e.poison then (.fault 0x06, postEvent s 0x17 1 e.ctx (w64 (who.strandNum * 2 ^ 32)) 0) else (.found e, s)

/-- Translation by a unit of M0 or by the vine walker, through the last-level TLB of die d only. -/
def translateDev (who : Waiter) (d : Fin 4) (ctx : BitVec 12) (va : Nat) (s : State) : Walked × State :=
  match s.lines.tlb.find? fun e => e.1 = d ∧ e.2.maps ctx va with
  | some e => useTlb who e.2 s
  | none => missWalk who d ctx va s

/-- Translation of an address of a context for core c: its TLB, then its die's, then a walk (R177, R178). -/
def translateAt (who : Waiter) (c : Nat) (ctx : BitVec 12) (va : Nat) (s : State) : Walked × State :=
  match (getCore s c).tlb.find? fun e => e.maps ctx va with
  | some e => useTlb who e s
  | none =>
    match translateDev who (dieOf (4 * c)) ctx va s with
    | (.found e, s) => (.found e, keepCore s c e)
    | r => r

/-- What an access does, for the checks of R176. -/
inductive Access | fetch | load | store | both
  deriving DecidableEq, Repr

/-- The access needs write permission, or read permission. -/
def Access.writes : Access → Bool
  | .store | .both => true
  | _ => false
def Access.reads : Access → Bool
  | .store => false
  | _ => true

/-- The checks of R176 on a mapped page: R, W and P. -/
def pageAllows (k : Access) (priv : Bool) (e : TlbEntry) : Bool :=
  (! k.reads || e.r) && (! k.writes || e.w) && (! e.p || priv)

/-- Cached translations of a page of a context are dropped from every TLB of the device (R182). -/
def shootdown (s : State) (ctx : BitVec 12) (hit : TlbEntry → Bool) : State :=
  let s := modCores s fun k => { k with tlb := k.tlb.filter fun e => ! (e.ctx = ctx ∧ hit e) }
  { s with lines := { s.lines with tlb := s.lines.tlb.filter fun e => ! (e.2.ctx = ctx ∧ hit e.2) } }

/-- The shootdown of the page that contains an address. -/
def shootPage (s : State) (ctx : BitVec 12) (va : Nat) : State := shootdown s ctx fun e => e.maps ctx va

end Sys2Proof.Machine
end

