-- ==== Sys2Proof/Machine/Ops.lean ====
section
/-! DEFINITION. The operations every instruction is made of: how an instruction ends, taking a trap and returning from
one (R56, R57, R350), waiting for the vector side (R55), releases and acquires (R217), and the accesses of stream `a`. -/

namespace Sys2Proof.Machine

/-! ## How an instruction ends -/

/-- Why an instruction does not complete. -/
inductive Stop
  /-- It traps (Table 3.6): cause and `tval`. -/
  | trap (cause : BitVec 8) (tval : Word)
  /-- It parks the strand (Table 3.9); woken, it runs again. -/
  | park (r : BitVec 4) (k : WaitKey)
  /-- It waits for the first n entries of the VIQ (R55, R56). -/
  | drain (n : Nat)
  /-- It waits for something else, and runs again at the strand's next turn. -/
  | again
  /-- An apply phase met uncorrectable errors (R228, R321): cause 0x06 with `tval`; the entry resumes at an element, or is
  complete and is not held. -/
  | phase (tval : Word) (resume : Option Nat)
  deriving DecidableEq, Repr

/-- A computation over the machine that may stop. What it did before it stops is kept. -/
abbrev Act := ExceptT Stop (StateM State)

/-- A computation run on a machine. -/
def Act.on {α : Type} (a : Act α) (s : State) : Except Stop α × State := (a.run).run s

/-- Trap with a cause and `tval`. -/
def trap {α : Type} (cause : BitVec 8) (tval : Word) : Act α := throw (.trap cause tval)

/-- A virtual address as `tval`. -/
def vaWord (a : VAddr) : Word := a.zeroExtend 64

/-- The machine changed by f. -/
def apply (f : State → State) : Act Unit := modify f

/-- A result together with the machine it leaves. -/
def lift {α : Type} (f : State → α × State) : Act α := fun s => let r := f s; (.ok r.1, r.2)

/-! ## Traps (R56, R57) -/

/-- `tcause`: CODE, PM and V. -/
def causeWord (cause : BitVec 8) (priv held : Bool) : BitVec 10 :=
  BitVec.ofNat 10 (cause.toNat + priv.toNat * 2 ^ 8 + held.toNat * 2 ^ 9)

/-- TrapEntry (R56): the VIQ moves to the hold buffer with the resume index, `tcause`, `tval` and `tpc` are written, the
mode becomes privileged and the pc `tvec`; a parked strand is parked no more. In privileged mode (R57) an occupied hold buffer stays as it is, and a VIQ
that is not empty makes it a double trap: the context goes to DEAD. The strand waits for no walk any more, and an instruction
that was waiting starts anew: an answer to its QWAIT, or a slot that has begun, is for it no more. -/
def enterTrap (cause : BitVec 8) (val : Word) (tpc : VAddr) (resume : Word) (s : State) : State :=
  let t := s.st
  let s := forgetWaits s.cur.val s
  if t.priv ∧ t.viq ≠ [] then
    let addr := if cause = 3 ∨ cause = 4 ∨ cause = 5 ∨ cause = 6 then val else 0
    contextDead s t.ctx 3 ((causeWord cause true true).zeroExtend 64) addr
  else
    let hold := if t.priv then t.hold else t.viq
    { s with st := { t with
        hold := hold
        holdAt := if t.priv then t.holdAt else resume
        viq := []
        park := 0
        wait := .none
        passed := 0
        qerr := none
        slotWoke := none
        dogFrom := if t.park ≠ 0 then s.cycle else t.dogFrom
        await := 0
        trap := { t.trap with tcause := causeWord cause t.priv (! hold.isEmpty), tval := val, tpc := vaWord tpc }
        priv := true
        pc := vaOf t.trap.tvec } }

/-- A synchronous scalar trap (R56): it drains the VIQ first; until the VIQ is empty the instruction counts as not issued. -/
def scalarTrap (cause : BitVec 8) (val : Word) (s : State) : State :=
  if s.st.viq ≠ [] then { s with st := { s.st with await := s.st.viq.length } }
  else enterTrap cause val s.st.pc s.st.csr.vstart s

/-- A vector trap (R56): `vstart` is the resume index, `tpc` the next scalar instruction not issued. -/
def vectorTrap (cause : BitVec 8) (val : Word) (s : State) : State := enterTrap cause val s.st.pc s.st.csr.vstart s

/-- An asynchronous trap of strand n, at the boundary between steps (R56). -/
def asyncTrap (cause : BitVec 8) (val : Word) (s : State) : State := enterTrap cause val s.st.pc s.st.csr.vstart s

/-- SYSRET with an empty VIQ and an even `tpc` (R350): the hold buffer returns to the VIQ with its resume index, the mode
is `tcause`.PM and the pc `tpc`. -/
def leaveTrap (s : State) : State :=
  let t := s.st
  let back := ! t.hold.isEmpty
  { s with st := { t with
      viq := if back then t.hold else t.viq
      csr := if back then { t.csr with vstart := t.holdAt, retired := t.csr.retired + 1 } else { t.csr with retired := t.csr.retired + 1 }
      hold := []
      holdAt := 0
      dogRan := 0
      dogFrom := s.cycle
      priv := t.trap.tcause.getLsbD 8
      pc := vaOf t.trap.tpc } }

/-- A scalar instruction that began at s meets a trap after it has reached t: while the VIQ is not empty it counts as not issued, and
nothing it did stays (R56). -/
def trapFrom (s : State) (cause : BitVec 8) (val : Word) (t : State) : State := scalarTrap cause val (if t.st.viq ≠ [] then s else t)

/-- How a scalar instruction that began at s stops, having reached t. -/
def stopFrom (s : State) (x : Stop) (t : State) : State :=
  match x with
  | .trap c v => trapFrom s c v t
  | .park p k => parkOn t p k
  | .drain n => { t with st := { t.st with await := n } }
  | .again => t
  | .phase v _ => trapFrom s 0x06 v t

/-- The focused strand, which ran at s, is gone at t: its context has ended. -/
def strandGone (s t : State) : Bool := s.st.resident && ! t.st.resident

/-- The outcome of a scalar instruction that began at s. -/
def finish (s : State) (r : Except Stop Unit × State) : Host.Outcome State Fault Refusal :=
  match r with
  | (.ok _, t) => .next t
  | (.error x, t) => .next (if strandGone s t then t else stopFrom s x t)

/-- A scalar instruction of len bytes that falls through (R241). -/
def scalar (len : Nat) (a : Act Unit) (s : State) : Host.Outcome State Fault Refusal :=
  finish s (Act.on (do a; apply fun s => s.retire len) s)

/-- The instruction word as `tval` (R248, R249, R251). -/
def instrWord (i : Instr) : Word := i.word

/-! ## Waiting (R55) -/

/-- Wait until the VIQ is empty. -/
def drained : Act Unit := do
  let n := (← get).st.viq.length
  if n ≠ 0 then throw (.drain n)

/-- Entries up to the youngest that satisfies p. -/
def upTo (p : VEntry → Bool) : List VEntry → Nat
  | [] => 0
  | e :: t => let n := upTo p t; if n ≠ 0 then n + 1 else if p e then 1 else 0

/-- Wait for the VIQ entries that satisfy p, and so for those ahead of them. -/
def awaitEntries (p : VEntry → Bool) : Act Unit := do
  let n := upTo p (← get).st.viq
  if n ≠ 0 then throw (.drain n)

/-! ## Translation and homes -/

/-- A translation's page; its trap names the address, and a wait for its walk ends the run (R176, R178). -/
def pageFrom (va : VAddr) (f : State → Walked × State) : Act TlbEntry := do
  match ← lift f with
  | .found e => pure e
  | .fault c => trap c (vaWord va)
  | .waits => throw .again

/-- The page of a virtual address of a context for the focused strand's core. -/
def strandPage (ctx : BitVec 12) (va : VAddr) : Act TlbEntry :=
  pageFrom va fun s => translateAt (.strand s.cur.val) (curCore s) ctx va.toNat s

/-- The page of a virtual address for the focused strand, checked for an access (R176). -/
def translate (k : Access) (va : VAddr) : Act TlbEntry := do
  let e ← strandPage (← get).st.ctx va
  if pageAllows k (← get).st.priv e then pure e else trap 0x05 (vaWord va)

/-- The memory keys an uncorrectable error covers for an access to [a, a + n): the line, or the 8-byte words of a
scratchpad (R206, R371). -/
def poisonedAt (s : State) (a n : Nat) : Bool :=
  if isSpad a then poisonedIn s (a / 8 * 8) (roundUp (a % 8 + n) 8) else rangePoisoned s a n

/-- Event 0x17 for an uncorrectable error that the focused strand consumes (R372). -/
def errorAt (s : State) (reason : BitVec 8) (pa lane : Nat) : State :=
  postEvent s 0x17 reason s.st.ctx (w64 (lane + s.cur.val * 2 ^ 32)) (w64 pa)

/-- That event for one met at a location, with its REASON: SRAM in a scratchpad or in a copy of the die's RDC, else DRAM. -/
def errorEvent (s : State) (pa lane : Nat) : State :=
  errorAt s (if isSpad pa || (rdcPoisoned s (curDie s) (lineOf pa) && ! linePoisoned s (lineOf pa)) then 1 else 3) pa lane

/-- A read of [a, a + n) by the focused strand meets an uncorrectable error: at the home, or in the copy that its die's RDC serves. -/
def readPoisoned (s : State) (a n : Nat) : Bool := poisonedAt s a n || (isLine a && rdcPoisoned s (curDie s) (lineOf a))

/-- An access to a home in reset traps with cause 0x05 (R380). -/
def homeGuard (va : VAddr) (pa : Nat) : Act Unit := do
  if homeInReset (← get) pa then trap 0x05 (vaWord va)

/-- A read of poisoned data traps with cause 0x06 (R206, R276). -/
def poisonGuard (va : VAddr) (pa n : Nat) : Act Unit := do
  if poisonedAt (← get) pa n then
    apply fun s => errorEvent s pa 0
    trap 0x06 (vaWord va)

/-- A read that the die's RDC may serve, of poisoned data. -/
def readGuard (va : VAddr) (pa n : Nat) : Act Unit := do
  if readPoisoned (← get) pa n then
    apply fun s => errorEvent s pa 0
    trap 0x06 (vaWord va)

/-- The domain of the focused strand's context, for the lines it fills. -/
def curDomain (s : State) : BitVec 8 := ctxDomain s s.st.ctx

/-- A read of [pa, pa + n), within one line, at its home (R211). -/
def readAtHome (e : TlbEntry) (va : VAddr) (pa n : Nat) : Act (List Byte) := do
  homeGuard va pa
  readGuard va pa n
  if isLine pa then apply fun s => homeRead s (lineOf pa) (curDie s) e.dedup (curDomain s)
  pure (memRead (← get).mem pa n)

/-- A load of [pa, pa + n), within one line, that may be served from the core's L1 and fills it (R197, R219). -/
def readThroughL1 (e : TlbEntry) (va : VAddr) (pa n : Nat) : Act (List Byte) := do
  let s ← get
  match (if isLine pa then hitL1 s (curCore s) pa else none) with
  | some l =>
    if l.poison then
      apply fun s => errorAt s 1 pa 0
      trap 0x06 (vaWord va)
    pure ((l.data.drop (pa % 128)).take n)
  | none =>
    let bs ← readAtHome e va pa n
    if isLine pa then
      apply fun s => allocL1 (countWire s (curDie s) (lineOf pa)) (curCore s) { addr := lineOf pa, data := lineData s (lineOf pa) }
    pure bs

/-- The home slice of an address: its die and index. -/
def sliceOf (s : State) (pa : Nat) : Nat × Nat := ((homeDie s (lineOf pa)).val, (homeSlice s (lineOf pa)).val)

/-- A slice that holds a write posts event 0x1C once for the episode, which lasts while it holds any (R204). -/
def reportHeld (s : State) (pa : Nat) : State :=
  let k := sliceOf s pa
  let held := s.lines.writesHeld
  if held.contains pa then s
  else
    let s := { s with lines := { s.lines with writesHeld := held ++ [pa] } }
    if held.any fun a => sliceOf s a = k then s else postEvent s 0x1C (BitVec.ofNat 8 k.2) 0 (w64 k.1) (w64 pa)

/-- Held writes that may proceed are held no more, whatever has freed an entry, and their strands run again (R204). -/
def endHolds (s : State) : State :=
  let held := s.lines.writesHeld.filter fun a => writeHeld s (lineOf a)
  if held = s.lines.writesHeld then s else wakeKey { s with lines := { s.lines with writesHeld := held } } .held

/-- The slice that holds a write, if one does, reports it. -/
def reportStuck (s : State) (pa : Nat) : State := if isLine pa && writeHeld s (lineOf pa) then reportHeld s pa else s

/-- A write to the page is held: by a move (R186), by a full compressed log (R190), or by its slice (R204). -/
def heldBy (s : State) (e : TlbEntry) (pa : Nat) : Bool :=
  e.moving || (decide (Config.compBase ≤ pa) && (getRegion s ((pa - Config.compBase) / 2 ^ 45 % 8)).full)
    || (isLine pa && writeHeld s (lineOf pa))

/-- A held write parks its strand with reason 0x8. -/
def holdGuard (e : TlbEntry) (pa : Nat) : Act Unit := do
  let s ← get
  if heldBy s e pa then
    apply (reportStuck · pa)
    throw (.park 0x8 .held)

/-- The bytes are written at their home, within one line or one scratchpad word (R211). -/
def putHome (s : State) (e : TlbEntry) (pa : Nat) (bs : List Byte) : State :=
  if isSpad pa then spadWrite s pa bs else homeWrite s pa bs e.dedup (curDomain s)

/-- A store of the core's own strands: checked, written through to the home, and updated in the L1 (R197). -/
def storeThrough (e : TlbEntry) (va : VAddr) (pa : Nat) (bs : List Byte) : Act Unit := do
  homeGuard va pa
  holdGuard e pa
  apply fun s => putHome (storeL1 s (curCore s) pa bs) e pa bs

/-- An atomic read-modify-write of n bytes at the home: the L1 copy goes, the old bytes come back, and `f` gives the new
bytes, if it writes (R197, R201, R204). A poisoned location is not written (R228). -/
def atomicAt (e : TlbEntry) (va : VAddr) (pa n : Nat) (f : List Byte → Option (List Byte)) : Act (List Byte) := do
  homeGuard va pa
  if isLine pa then apply fun s => atomicL1 s (curCore s) pa n
  holdGuard e pa
  if isLine pa then apply fun s => homeFill s (lineOf pa) e.dedup (curDomain s)
  poisonGuard va pa n
  let old := memRead (← get).mem pa n
  apply fun s =>
    match f old with
    | some new => if isSpad pa then spadWrite s pa new else writeFilled s pa new
    | none => if isLine pa then prepareWrite s (lineOf pa) else s
  pure old

/-- A naturally aligned virtual address, or cause 0x03 (R221). -/
def aligned (va : VAddr) (n : Nat) : Act Unit := do
  if va.toNat % n ≠ 0 then trap 0x03 (vaWord va)

/-- n corrected errors of the lane group that holds a lane, in LGCE, which saturates; event 0x18 when the count passes 256 (R372). -/
def countCorrected (n core : Nat) (lane : Fin 32) (s : State) : State :=
  let g : Fin 4 := ⟨lane.val / 8, by omega⟩
  let old := ((getCore s core).ce[g]).toNat
  let new := min (old + n) 0xFFFF
  let s := modCore s core fun k => { k with ce := k.ce.set g (BitVec.ofNat 16 new) }
  if old ≤ 256 ∧ 256 < new then postEvent s 0x18 0 0 (w64 (core * 4 + g.val)) 0 else s

/-! ## Releases and acquires (R217) -/

/-- A request of the strand's own streams to a peer that has not been applied, of a kind that p names; a copy's is no such (R225). -/
def remoteOut (s : State) (p : PeerOp → Bool) : Bool :=
  (peerMsgs s).any fun m => decide (m.strand = s.cur.val) && ! m.copy && p m.op

/-- A write to peer memory. -/
def isPeerWrite : PeerOp → Bool
  | .write _ => true
  | _ => false
/-- A SIGNAL at a peer. -/
def isPeerSignal : PeerOp → Bool
  | .signal _ => true
  | _ => false

/-- A write of the strand's own streams to host memory that has not completed there. -/
def hostWritesOut (s : State) : Bool := s.links.hostLate.contains (s.cur.val, false)

/-- Writes of the strand to host and peer memory, and SIGNALs at peers, that have not been applied there. -/
def remoteWritesOut (s : State) : Bool := remoteOut s (fun o => isPeerWrite o || isPeerSignal o) || hostWritesOut s

/-- The machine s, for an operation that has reached s' and is given up: what it has translated, and the walks it waits for, stay. -/
def keepWalks (s s' : State) : State :=
  { s with lines := { s.lines with tlb := s'.lines.tlb, misses := s'.lines.misses, missed := s'.lines.missed } }

/-- And, for an operation of a strand at the homes, what the L1s and the replies to them have lost stays lost. -/
def keepLooks (s s' : State) : State :=
  let k := keepWalks s s'
  { k with cores := s'.cores, lines := { k.lines with replies := s'.lines.replies } }

/-- The accesses a release waits for (R217): SIGNALs at peers, and at `.sy` writes to host and peer memory that have not completed
there. -/
def releaseWaits (sc : Scope) (s : State) : Bool :=
  remoteOut s isPeerSignal || (decide (sc = .sy) && (remoteOut s isPeerWrite || hostWritesOut s))

/-- A release: every earlier VIQ entry has completed, and every access of the strand has been applied. -/
def release (sc : Scope) : Act Unit := do
  drained
  if releaseWaits sc (← get) then throw .again

/-- An acquire: at `.cl` or wider it empties the core's L1 (R199). -/
def acquire (sc : Scope) : Act Unit := do
  if sc ≠ .cr then apply fun s => emptyL1 s (curCore s)

/-- The scope a WideScope stands for. -/
def wideScope : WideScope → Scope
  | .dv => .dv
  | .sy => .sy

/-- The release half of an ordering code. -/
def releaseOrd (o : Ord) : Act Unit :=
  match o with
  | .flag sc .rel | .flag sc .ar => release (wideScope sc)
  | _ => pure ()

/-- The acquire half of an ordering code. -/
def acquireOrd (o : Ord) : Act Unit :=
  match o with
  | .flag sc .acq | .flag sc .ar => acquire (wideScope sc)
  | _ => pure ()

end Sys2Proof.Machine
end

