-- ==== Sys2Proof/Machine/Flags.lean ====
section
/-! DEFINITION. The exception flags of `fexc` and the sticky bit `vsat` (R25, R28, R40, Table 2.3). -/

namespace Sys2Proof.Machine

/-- A set of flags: NV [4], DZ [3], OF [2], UF [1], NX [0]. -/
abbrev Flags := BitVec 5
def flagNV : Flags := 16
def flagDZ : Flags := 8
def flagOF : Flags := 4
def flagUF : Flags := 2
def flagNX : Flags := 1
/-- A flag raised under a condition. -/
def flagIf (b : Bool) (f : Flags) : Flags := if b then f else 0

/-- Flags raised by the strand (R28). -/
def raiseFlags (f : Flags) : Act Unit := apply fun s => s.raise f

/-- `vsat` is set by a saturating element (R25, R40). -/
def State.saturate (s : State) (b : Bool) : State := if b then s.modCsr fun c => { c with vsat := 1 } else s

end Sys2Proof.Machine
end

