-- ==== Sys2Proof/Machine/Numbers.lean ====
section
/-! DEFINITION. Numbers (chapter "Numbers"): the element formats, exact values, rounding in every mode with its flags,
floating-point arithmetic, conversions between formats, and fixed-point narrowing. -/

namespace Sys2Proof.Machine

/-! ## Exact values -/

/-- A value: NaN, infinity, or (-1)^neg × m × 2^e, with m = 0 for the zeros. -/
inductive Num
  | nan (signalling : Bool)
  | inf (neg : Bool)
  | fin (neg : Bool) (m : Nat) (e : Int)
  deriving DecidableEq, Repr

/-- Bits of a number, 0 for 0. -/
def bitLen (m : Nat) : Nat := if m = 0 then 0 else Nat.log2 m + 1

def Num.isNan : Num → Bool
  | .nan _ => true
  | _ => false
def Num.isSnan : Num → Bool
  | .nan s => s
  | _ => false
def Num.isZero : Num → Bool
  | .fin _ m _ => decide (m = 0)
  | _ => false
def Num.isInf : Num → Bool
  | .inf _ => true
  | _ => false
def Num.isNeg : Num → Bool
  | .nan _ => false
  | .inf n => n
  | .fin n _ _ => n
/-- The value with its sign reversed. -/
def Num.flip : Num → Num
  | .nan s => .nan s
  | .inf n => .inf (! n)
  | .fin n m e => .fin (! n) m e
/-- The magnitude of the value. -/
def Num.mag : Num → Num
  | .nan s => .nan s
  | .inf _ => .inf false
  | .fin _ m e => .fin false m e

/-- m × 2^e as an integer count of 2^k, for k ≤ e. -/
def scaleTo (m : Nat) (e k : Int) : Nat := m * 2 ^ (e - k).toNat

/-- An integer as a value. -/
def numOfInt (v : Int) : Num := .fin (decide (v < 0)) v.natAbs 0

/-! ## Formats (Tables 2.1, 2.2, 2.4, 2.5) -/

/-- A floating-point format: p bits of significand, quantum 2^emin at the bottom, the code of the largest finite
magnitude, the code of infinity if it has one, its NaN, and whether bit w - 1 is a sign. -/
structure FloatFmt where
  w    : Nat
  p    : Nat
  emin : Int
  max  : Nat
  inf  : Option Nat
  nan  : Nat
  sgn  : Bool
  q8   : Bool
  deriving DecidableEq, Repr

def fmtF16 : FloatFmt := { w := 16, p := 11, emin := -24, max := 0x7BFF, inf := some 0x7C00, nan := 0x7E00, sgn := true, q8 := false }
def fmtBf16 : FloatFmt := { w := 16, p := 8, emin := -133, max := 0x7F7F, inf := some 0x7F80, nan := 0x7FC0, sgn := true, q8 := false }
def fmtF32 : FloatFmt :=
  { w := 32, p := 24, emin := -149, max := 0x7F7FFFFF, inf := some 0x7F800000, nan := 0x7FC00000, sgn := true, q8 := false }
def fmtF64 : FloatFmt :=
  { w := 64, p := 53, emin := -1074, max := 0x7FEFFFFFFFFFFFFF, inf := some 0x7FF0000000000000,
    nan := 0x7FF8000000000000, sgn := true, q8 := false }

/-- The q8 format of precision k: signed or not, extended or not (R29, R30). -/
def fmtQ8 (k : Nat) (sgn ext : Bool) : FloatFmt :=
  let top := if sgn then 0x7F else 0xFE
  { w := 8, p := k, emin := 1 - (2 : Int) ^ ((if sgn then 7 else 8) - k) - (k - 1 : Int),
    max := if ext then top - 1 else top, inf := if ext then some top else none,
    nan := if sgn then 0x80 else 0xFF, sgn := sgn, q8 := true }

/-- What an element tag names (Table 2.1); none for a reserved tag and for 0x00. -/
inductive Elem
  | int (w : Nat) (sgn : Bool)
  | flt (f : FloatFmt)
  | e8
  deriving DecidableEq, Repr

/-- Table 2.1. -/
def elemOf (t : BitVec 6) : Option Elem :=
  let n := t.toNat
  if 1 ≤ n ∧ n ≤ 4 then some (.int (2 ^ (n + 2)) true)
  else if 5 ≤ n ∧ n ≤ 8 then some (.int (2 ^ (n - 2)) false)
  else if n = 9 then some (.flt fmtF16)
  else if n = 10 then some (.flt fmtBf16)
  else if n = 11 then some (.flt fmtF32)
  else if n = 12 then some (.flt fmtF64)
  else if n = 13 then some .e8
  else if 0x10 ≤ n ∧ n < 0x30 ∧ n % 8 < 7 then some (.flt (fmtQ8 (n % 8 + 1) (decide (n < 0x20)) (n / 8 % 2 = 1)))
  else none

/-- Width of an element in bits. -/
def Elem.width : Elem → Nat
  | .int w _ => w
  | .flt f => f.w
  | .e8 => 8

/-- Width of an element in bytes. -/
def Elem.bytes (e : Elem) : Nat := e.width / 8

/-! ## Decoding -/

/-- The magnitude code c of a format as a value. -/
def decodeMag (f : FloatFmt) (neg : Bool) (c : Nat) : Num :=
  let e := c / 2 ^ (f.p - 1)
  let m := c % 2 ^ (f.p - 1)
  if e = 0 then .fin neg m f.emin else .fin neg (m + 2 ^ (f.p - 1)) (f.emin + e - 1)

/-- The value of a code of a format (R26, R29, R30). -/
def decodeFloat (f : FloatFmt) (c : Nat) : Num :=
  let c := c % 2 ^ f.w
  let half := 2 ^ (f.w - 1)
  let neg := f.sgn && decide (half ≤ c)
  let mag := if f.sgn then c % half else c
  if f.q8 then
    if c = f.nan then .nan false
    else if f.inf = some mag then .inf neg
    else decodeMag f neg mag
  else if f.inf = some mag then .inf neg
  else if f.max < mag then .nan (mag / 2 ^ (f.p - 2) % 2 = 0)
  else decodeMag f neg mag

/-- The value of an element (R25, R26, R29 to R32). -/
def decodeElem (e : Elem) (c : Nat) : Num :=
  match e with
  | .int w s => if s then numOfInt (signed w c) else numOfInt (c % 2 ^ w : Nat)
  | .flt f => decodeFloat f c
  | .e8 => if c % 256 = 255 then .nan false else .fin false 1 ((c % 256 : Nat) - 127)

/-! ## Rounding (R36, R38) -/

/-- Rounding modes: nearest-even, toward zero as `.z` (R36) and as `frnd` 1 (R278), toward minus and plus infinity, ties away,
stochastic with a grain. -/
inductive Mode | ne | tz | rz | dn | up | away | sr (grain : Nat)
  deriving DecidableEq, Repr

/-- The grain table (R38): D[k]. -/
def grain (k : Nat) : Nat :=
  let k := k % 4096
  let rev := (List.range 12).foldl (fun r j => r + k / 2 ^ j % 2 * 2 ^ (11 - j)) 0
  (rev * 16) ^^^ (k % 16)

/-- m × 2^e to an integer count of 2^q under a mode, and whether that is inexact. -/
def roundAt (mode : Mode) (neg : Bool) (m : Nat) (e q : Int) : Nat × Bool :=
  if q ≤ e then (scaleTo m e q, false)
  else
    let s := (q - e).toNat
    let n := m / 2 ^ s
    let r := m % 2 ^ s
    if r = 0 then (n, false)
    else
      let h := 2 ^ (s - 1)
      let up := match mode with
        | .ne => decide (h < r) || (decide (r = h) && decide (n % 2 = 1))
        | .tz | .rz => false
        | .dn => neg
        | .up => ! neg
        | .away => decide (h ≤ r)
        | .sr _ => false
      match mode with
      | .sr g => ((m * 2 ^ 16 / 2 ^ s + g) / 2 ^ 16, true)
      | _ => (if up then n + 1 else n, true)

/-- Exponent of the leading bit of m × 2^e, m ≠ 0. -/
def leadExp (m : Nat) (e : Int) : Int := e + bitLen m - 1

/-- Whether an overflow under the mode gives infinity and not the largest finite value (R36, R278). -/
def overflowsToInf (mode : Mode) (neg : Bool) : Bool :=
  match mode with
  | .ne | .away | .sr _ => true
  | .tz | .rz => false
  | .dn => neg
  | .up => ! neg

/-- m × 2^e to an integer count of 2^q in a format of precision p. A tie goes to the even count; with precision 1 no value
has a fraction bit whose evenness could be tested, and the choice is free (R36, log 25). -/
def roundTo (p : Nat) (emin : Int) (mode : Mode) (neg : Bool) (m : Nat) (e q : Int) : Nat × Bool :=
  let n := m / 2 ^ (q - e).toNat
  if decide (p = 1) && decide (mode = .ne) && decide (e < q) && decide (2 * m = (2 * n + 1) * 2 ^ (q - e).toNat) then
    (if Config.tieUp ((q - emin).toNat + n) then n + 1 else n, true)
  else roundAt mode neg m e q

/-- A value written in a format under a mode, with its flags (R26, R31, R36, R38, R278). Half an ulp beyond the largest finite
value overflows under `.ne` and, but in a finite q8 format (R31), under `.z` (R36: 65,520 `.z` to f16; log 61). -/
def encodeFloat (f : FloatFmt) (mode : Mode) (v : Num) : Nat × Flags :=
  let signedCode (neg : Bool) (c : Nat) : Nat := if f.sgn && neg then 2 ^ (f.w - 1) + c else c
  match v with
  | .nan _ => (f.nan, flagIf f.q8 flagNV)
  | .inf neg =>
    if neg && ! f.sgn then (f.nan, flagNV)
    else match f.inf with
      | some c => (signedCode neg c, 0)
      | none => (signedCode neg f.max, flagOF ||| flagNX)
  | .fin neg m e =>
    if m = 0 then (if f.q8 then 0 else signedCode neg 0, 0)
    else
      let lead := leadExp m e
      let low := f.emin + (f.p - 1 : Nat)           -- exponent of the smallest normal
      let qtop := f.emin + (f.max / 2 ^ (f.p - 1) : Nat) - 1
      let xm := f.max % 2 ^ (f.p - 1) + 2 ^ (f.p - 1)
      let q := min (max lead low - (f.p - 1 : Nat)) qtop
      let (n, inexact) := roundTo f.p f.emin mode neg m e q
      if neg && ! f.sgn && n ≠ 0 then (f.nan, flagNV)
      else
        let tiny := decide (lead < low) &&
          decide ((roundTo f.p f.emin mode neg m e (lead - (f.p - 1 : Nat))).1 < 2 ^ (low - lead + (f.p - 1 : Nat)).toNat)
        let fl := flagIf inexact flagNX ||| flagIf (inexact && tiny) flagUF
        let tie : Bool := match mode with
          | .ne => inexact && decide (n = xm) && decide (2 * m = (2 * xm + 1) * 2 ^ (q - e).toNat)
          | .tz => inexact && ! (f.q8 && f.inf.isNone) && decide (n = xm) && decide ((2 * xm + 1) * 2 ^ (q - e).toNat ≤ 2 * m)
          | _ => false
        if decide (q = qtop) && (decide (xm < n) || tie) then
          let c := match f.inf with
            | some i => if overflowsToInf mode neg then i else f.max
            | none => f.max
          (signedCode neg c, fl ||| flagOF ||| flagNX)
        else if n = 0 then (if f.q8 then 0 else signedCode neg 0, fl)
        else (signedCode neg ((q - f.emin).toNat * 2 ^ (f.p - 1) + n), fl)

/-- The range of an integer element. -/
def intRange (w : Nat) (sgn : Bool) : Int × Int :=
  if sgn then (-(2 ^ (w - 1) : Nat), (2 ^ (w - 1) : Nat) - 1) else (0, (2 ^ w : Nat) - 1)

/-- An integer clamped into a range, and whether it was outside (R25, R37). -/
def clampInt (w : Nat) (sgn : Bool) (v : Int) : Int × Bool :=
  let (lo, hi) := intRange w sgn
  if v < lo then (lo, true) else if hi < v then (hi, true) else (v, false)

/-- A value to an integer format: NaN gives 0, a value outside gives the nearer end, both with NV (R36, R282). -/
def encodeInt (w : Nat) (sgn : Bool) (mode : Mode) (v : Num) : Int × Flags :=
  let (lo, hi) := intRange w sgn
  match v with
  | .nan _ => (0, flagNV)
  | .inf neg => (if neg then lo else hi, flagNV)
  | .fin neg m e =>
    let (n, inexact) := roundAt mode neg m e 0
    let x : Int := if neg then -n else n
    if x < lo then (lo, flagNV) else if hi < x then (hi, flagNV) else (x, flagIf inexact flagNX)

/-- Fixed-point narrowing by n bits under `vrnd` (R37, Table 2.8). -/
def narrowInt (mode : Nat) (v : Int) (n : Nat) : Int :=
  if n = 0 then v
  else
    let q := v / (2 ^ n : Nat)
    let r := v % (2 ^ n : Nat)
    let h : Int := (2 ^ (n - 1) : Nat)
    match mode with
    | 0 => (v + h) / (2 ^ n : Nat)
    | 1 => if h < r ∨ (r = h ∧ q % 2 = 1) then q + 1 else q
    | 2 => q
    | _ => if r ≠ 0 ∧ q % 2 = 0 then q + 1 else q

/-! ## Arithmetic on exact values (R27, R277) -/

/-- NV for a signalling operand. -/
def nvOf (vs : List Num) : Flags := flagIf (vs.any Num.isSnan) flagNV

/-- The product of two values that are no NaN, with NV for 0 × infinity. -/
def mulExact (a b : Num) : Num × Flags :=
  let neg := a.isNeg != b.isNeg
  if (a.isInf && b.isZero) || (a.isZero && b.isInf) then (.nan false, flagNV)
  else match a, b with
    | .fin _ m e, .fin _ n k => (.fin neg (m * n) (e + k), 0)
    | _, _ => (.inf neg, 0)

/-- The sum of two values that are no NaN: an exact zero sum of opposite signs takes the sign `zneg` (R277). -/
def addExact (zneg : Bool) (a b : Num) : Num × Flags :=
  match a, b with
  | .inf s, .inf t => if s = t then (.inf s, 0) else (.nan false, flagNV)
  | .inf s, _ => (.inf s, 0)
  | _, .inf t => (.inf t, 0)
  | .fin s m e, .fin t n k =>
    if m = 0 ∧ n = 0 then (.fin (if s = t then s else zneg) 0 0, 0)
    else if m = 0 then (.fin t n k, 0)
    else if n = 0 then (.fin s m e, 0)
    else
      let q := min e k
      let x : Int := (if s then -1 else 1) * (scaleTo m e q : Nat)
      let y : Int := (if t then -1 else 1) * (scaleTo n k q : Nat)
      if x + y = 0 then (.fin zneg 0 0, 0) else (.fin (decide (x + y < 0)) (x + y).natAbs q, 0)
  | _, _ => (.nan false, 0)

/-- a + b. -/
def addNum (zneg : Bool) (a b : Num) : Num × Flags :=
  if a.isNan || b.isNan then (.nan false, nvOf [a, b]) else addExact zneg a b

/-- a × b. -/
def mulNum (a b : Num) : Num × Flags :=
  if a.isNan || b.isNan then (.nan false, nvOf [a, b]) else mulExact a b

/-- a × b + c with one rounding to come; 0 × infinity raises NV even beside a quiet NaN (R277). -/
def fmaNum (zneg : Bool) (a b c : Num) : Num × Flags :=
  let f := nvOf [a, b, c]
  if a.isNan || b.isNan then (.nan false, f)
  else
    let (p, g) := mulExact a b
    if p.isNan || c.isNan then (.nan false, f ||| g) else let (r, h) := addExact zneg p c; (r, f ||| g ||| h)

/-- a ÷ b: the quotient to 80 bits or more, its last bit set when anything is left over, so that every rounding to at most
64 bits of it is that of the exact quotient. -/
def divNum (a b : Num) : Num × Flags :=
  let neg := a.isNeg != b.isNeg
  if a.isNan || b.isNan then (.nan false, nvOf [a, b])
  else match a, b with
    | .inf _, .inf _ => (.nan false, flagNV)
    | .inf _, _ => (.inf neg, 0)
    | _, .inf _ => (.fin neg 0 0, 0)
    | .fin _ m e, .fin _ n k =>
      if n = 0 then (if m = 0 then (.nan false, flagNV) else (.inf neg, flagDZ))
      else if m = 0 then (.fin neg 0 0, 0)
      else
        let s := 80 + bitLen n
        let q := m * 2 ^ s / n
        let r := m * 2 ^ s % n
        (.fin neg (2 * q + (if r = 0 then 0 else 1)) (e - k - s - 1), 0)
    | _, _ => (.nan false, 0)

/-- The integer square root of n, bit by bit from bit k - 1 of the root down. -/
def isqrt : Nat → Nat → Nat → Nat
  | 0, _, r => r
  | k + 1, n, r => if (r + 2 ^ k) * (r + 2 ^ k) ≤ n then isqrt k n (r + 2 ^ k) else isqrt k n r

/-- The square root of a: to 80 bits or more, its last bit set when it is not exact. -/
def sqrtNum (a : Num) : Num × Flags :=
  match a with
  | .nan s => (.nan false, flagIf s flagNV)
  | .inf neg => if neg then (.nan false, flagNV) else (.inf false, 0)
  | .fin neg m e =>
    if m = 0 then (.fin neg 0 0, 0)
    else if neg then (.nan false, flagNV)
    else
      let m := if e % 2 = 0 then m else 2 * m
      let e := if e % 2 = 0 then e else e - 1
      let n := m * 2 ^ 160
      let r := isqrt (bitLen n / 2 + 1) n 0
      (.fin false (2 * r + (if r * r = n then 0 else 1)) (e / 2 - 81), 0)

/-! ## Comparison (R229, R279, R280) -/

/-- a < b for two values that are no NaN, with -0 below +0 when `zeros` is set. -/
def ltNum (zeros : Bool) (a b : Num) : Bool :=
  match a, b with
  | .inf s, .inf t => s && ! t
  | .inf s, _ => s
  | _, .inf t => ! t
  | .fin s m e, .fin t n k =>
    if m = 0 ∧ n = 0 then zeros && s && ! t
    else
      let q := min e k
      let x : Int := (if s then -1 else 1) * (scaleTo m e q : Nat)
      let y : Int := (if t then -1 else 1) * (scaleTo n k q : Nat)
      decide (x < y)
  | _, _ => false

/-- Floating-point minimum or maximum (R229, R279). -/
def minMaxNum (isMax : Bool) (a b : Num) : Num × Flags :=
  let f := nvOf [a, b]
  if a.isNan && b.isNan then (.nan false, f)
  else if a.isNan then (b, f)
  else if b.isNan then (a, f)
  else if isMax then (if ltNum true a b then b else a, f) else (if ltNum true b a then b else a, f)

/-! ## Scales and the running maximum (R32, R41) -/

/-- The exact product with the block scale s. -/
def scaleNum (v : Num) (s : Nat) : Num :=
  if s % 256 = 255 then .nan false
  else match v with
    | .fin neg m e => .fin neg m (e + (s % 256 : Nat) - 127)
    | v => v

/-- `amax` after a value that is no NaN: the larger of the two magnitudes, rounded toward plus infinity. -/
def amaxWith (a : BitVec 31) (v : Num) : BitVec 31 :=
  if v.isNan then a
  else
    let c := (encodeFloat fmtF32 .up v.mag).1
    if a.toNat < c then BitVec.ofNat 31 c else a

end Sys2Proof.Machine
end

