-- ==== Sys2Proof/Machine/Operands.lean ====
section
/-! DEFINITION. Every operand form of the vector side: elements of vector registers, masks, the configuration checks of R252
and R287, the second operand of format V (R286) with stream operands (R158, R168), the result format of mixed tags (R291),
and the commit of a strip (R285). -/

namespace Sys2Proof.Machine

/-! ## Elements (R51, R59) -/

/-- Element i, b bytes wide, of a register, as raw bits. -/
def readElem (r : VectorReg) (b i : Nat) : Nat := bytesToNat ((List.range b).map fun k => sget 0 r.data (i * b + k))

/-- Bytes written from offset o of a register. -/
def writeBytes (d : Sparse Byte) (o : Nat) : List Byte → Sparse Byte
  | [] => d
  | x :: t => writeBytes (sset 0 d o x) (o + 1) t

/-- Element i, b bytes wide, of a register is written; the extent E covers it (R59). -/
def writeElem (r : VectorReg) (b i v : Nat) : VectorReg :=
  { r with data := writeBytes r.data (i * b) (natToBytes b v), ext := max r.ext (i * b + b) }

/-- Element i of register r of the focused strand. -/
def elemAt (s : State) (r : VReg) (b i : Nat) : Nat := readElem s.st.v[r.val] b i

/-- Register r is replaced. -/
def setReg (s : State) (r : VReg) (v : VectorReg) : State := { s with st := { s.st with v := s.st.v.set r.val v } }

/-- Element i of register r := v. -/
def setElem (s : State) (r : VReg) (b i v : Nat) : State := setReg s r (writeElem s.st.v[r.val] b i v)

/-- Bit r of `vdirty` is set by an instruction that writes register r (R53). -/
def markDirty (s : State) (r : VReg) : State :=
  s.modCsr fun c => { c with vdirty := c.vdirty ||| BitVec.ofNat 32 (2 ^ r.val) }

/-- Bit i of mask m. -/
def maskBit (s : State) (m : MReg) (i : Nat) : Bool := s.st.m[m.val].getLsbD i

/-- Mask m is replaced. -/
def setMask (s : State) (m : MReg) (v : Mask) : State := { s with st := { s.st with m := s.st.m.set m.val v } }

/-- Bit i of a mask := v. -/
def putBit (v : Mask) (i : Nat) (b : Bool) : Mask :=
  if b then v ||| (1 : Mask) <<< i else v &&& ~~~ ((1 : Mask) <<< i)

/-- Element i is active under the `.m` flag (R262). -/
def active (s : State) (m : Bool) (i : Nat) : Bool := ! m || maskBit s 0 i

/-- The vstart CSR. -/
def vstart (s : State) : Nat := s.st.csr.vstart.toNat
def setVstart (s : State) (i : Nat) : State := s.modCsr fun c => { c with vstart := w64 i }

/-! ## Configuration (R252, Table 17.2) -/

/-- `vcfg` names a grant: neither 0 nor refused. -/
def configured (s : State) : Bool := s.st.csr.vcfg ≠ 0 && ! s.st.csr.vcfg.getLsbD 63
/-- Declared registers, bits of the widest element, and R, the bytes of a register. -/
def regCount (s : State) : Nat := 8 * 2 ^ bits s.st.csr.vcfg 0 2
def maxWidth (s : State) : Nat := 8 * 2 ^ bits s.st.csr.vcfg 2 2
def regBytes (s : State) : Nat := bits s.st.csr.vcfg 4 12 * 128
/-- Granted 8 KiB units. -/
def grantedUnits (s : State) : Nat := bits s.st.csr.vcfg 16 5

/-- The element type of a register that the configuration and R24 accept. -/
def elemType (s : State) (r : VReg) : Option Elem :=
  match elemOf s.st.v[r.val].tag with
  | some e => if configured s && decide (r.val < regCount s) && decide (e.width ≤ maxWidth s) then some e else none
  | none => none

/-- Cause 0x02 with the instruction word. -/
def illTyped {α : Type} (i : Instr) : Act α := trap 0x02 (instrWord i)
/-- Cause 0x01 with the instruction word. -/
def illegal {α : Type} (i : Instr) : Act α := trap 0x01 (instrWord i)

/-- A condition on tags, registers or lengths, or cause 0x02. -/
def require (i : Instr) (b : Bool) : Act Unit := if b then pure () else illTyped i

/-- A strand with a configuration, or cause 0x02 (R252). -/
def needConfig (i : Instr) : Act Unit := do require i (configured (← get))

/-- The element type of a register, or cause 0x02 (R24, R252). -/
def typeOf (i : Instr) (r : VReg) : Act Elem := do
  match elemType (← get) r with
  | some e => pure e
  | none => illTyped i

/-- A register below the declared count, whatever its tag. -/
def needReg (i : Instr) (r : Nat) : Act Unit := do
  let s ← get
  require i (configured s && decide (r < regCount s))

/-! ## Mixed tags (R291, Table 17.3) -/

def Elem.isInt : Elem → Bool
  | .int _ _ => true
  | _ => false
/-- f16, bf16, f32 or f64. -/
def Elem.isBinary : Elem → Bool
  | .flt f => ! f.q8
  | _ => false
def Elem.isQ8 : Elem → Bool
  | .flt f => f.q8
  | _ => false
/-- A signed integer. -/
def Elem.isSigned : Elem → Bool
  | .int _ s => s
  | _ => false

/-- The result format of two operands; none for a q8 or e8 operand. -/
def mixed (a b : Elem) : Option Elem :=
  match a, b with
  | .int w s, .int v t => if w = v then some (.int w (s && t)) else if v < w then some a else some b
  | .flt f, .flt g =>
    if f.q8 || g.q8 then none
    else if f = g then some a
    else if f.w = g.w then some (.flt fmtF32)
    else if g.w < f.w then some a else some b
  | .flt f, .int w _ | .int w _, .flt f =>
    if f.q8 then none
    else if w ≤ 16 then some (.flt f)
    else if w = 32 then some (.flt (if f.w = 16 then fmtF32 else f))
    else some (.flt fmtF64)
  | _, _ => none

/-- An operand converted to the result format, nearest-even, with its flags; raw bits for an integer format. -/
def convertTo (t : Elem) (from_ : Elem) (c : Nat) : Num × Flags :=
  match t with
  | .flt f =>
    let v := decodeElem from_ c
    if from_ = t ∨ v.isNan then (v, 0) else let e := encodeFloat f .ne v; (decodeFloat f e.1, e.2)
  | _ => (decodeElem from_ c, 0)

/-- An integer element as an integer, by its tag. -/
def intOf (t : Elem) (c : Nat) : Int :=
  match t with
  | .int w s => if s then signed w c else (c % 2 ^ w : Nat)
  | _ => c

/-- Raw bits of an immediate, converted exactly to a format (R286). -/
def immBits (t : Elem) (v : Int) : Nat :=
  match t with
  | .int w _ => wrapTo w v
  | .flt f => (encodeFloat f .ne (numOfInt v)).1
  | .e8 => wrapTo 8 v

/-! ## Uncorrectable errors (R228, R372) -/

/-- The lane that carries byte q of an element group: lane 16-byte pieces in order over the enabled lane groups (R15). -/
def laneOfByte (s : State) (q : Nat) : Nat :=
  let k := getCore s (curCore s)
  let p := q % (128 * laneGroups k) / 16
  8 * (((List.range 4).filter fun g => (laneMask k).getLsbD g).getD (p / 8) 0) + p % 8

/-- The `tlane` image of element k of b bytes: ELEM, and the lane that carries it (Table 3.5, R15). -/
def laneImage (s : State) (k b : Nat) : Nat :=
  k % 2 ^ 14 * 2 ^ 16 + laneOfByte s (k * b)

/-- `tval` and the poisoned addresses of faulting elements, given as (element, address): bit j for element k + j. -/
def faultBits (k : Nat) (bad : List (Nat × Nat)) : Word :=
  bad.foldl (fun w p => if p.1 < k + 64 then w ||| w64 (2 ^ (p.1 - k)) else w) 0

/-- Events for faulting elements, and `tlane` names the lowest (R372). -/
def reportBad (s : State) (b k : Nat) (bad : List (Nat × Nat)) : State :=
  let s := bad.foldl (fun s p => errorEvent s p.2 (laneImage s p.1 b)) s
  { s with st := { s.st with trap := { s.st.trap with tlane := BitVec.ofNat 30 (laneImage s k b) } } }

/-- Events for elements whose operands stand poisoned in a register or a stream's buffer, from the lowest on; `tlane` names it. -/
def reportSram (s : State) (b : Nat) (bad : List Nat) : State :=
  let s := bad.foldl (fun s k => errorAt s 1 0 (laneImage s k b)) s
  { s with st := { s.st with trap := { s.st.trap with tlane := BitVec.ofNat 30 (laneImage s (bad.headD 0) b) } } }

/-! ## Stream operands (R158, R167, R168) -/

/-- Scratchpad address of byte q of a ring of core c. -/
def ringAddr (c : Nat) (r : StreamReg) (q : Nat) : Nat :=
  Config.spadBase + c * Config.spadBytes + r.rbase.toNat + q % r.rsize.toNat

/-- A stream operand ready for elements lo to hi - 1: their raw bits and how far the instruction may run. -/
structure StreamRead where
  ty   : Elem
  hi   : Nat
  vl   : Nat
  vals : List Nat
  deriving DecidableEq, Repr

/-- The element type of a stream operand: unbound traps with 0x0A, a tag that R24 rejects with 0x02. -/
def streamType (i : Instr) (n : SReg) : Act Elem := do
  let s ← get
  let r := s.st.streams[n.val]
  if r.kind = 0 then trap 0x0A (w64 n.val)
  match elemOf r.tag with
  | some e => if e.width ≤ maxWidth s then pure e else illTyped i
  | none => illTyped i

/-- Elements of b bytes cut from bytes. -/
def elemsOf (b : Nat) (bs : List Byte) (n : Nat) : List Nat := (List.range n).map fun k => bytesToNat ((bs.drop (k * b)).take b)

/-- The message that is being consumed, the oldest whose consumer has not finished, changed or removed. -/
def onMessage : List ChainMsg → (ChainMsg → Option ChainMsg) → List ChainMsg
  | [], _ => []
  | m :: t, f => if m.done then m :: onMessage t f else (match f m with | some x => x :: t | none => t)

/-- Stream register n is replaced. -/
def putStream (s : State) (n : SReg) (r : StreamReg) : State := { s with st := { s.st with streams := s.st.streams.set n.val r } }

/-- The consumer is done with its message (R168): its bytes are consumed, and what still comes of it is discarded. -/
def endMessage (s : State) (n : SReg) : State :=
  let r := s.st.streams[n.val]
  let left := match r.msgs.find? fun m => ! m.done with
    | some m => m.data.length
    | none => 0
  let rest := onMessage r.msgs fun m => if decide (m.sent < m.total) then some { m with data := [], groups := [], done := true } else none
  putStream s n { r with consumed := r.consumed + w64 left, msgs := rest, poison := false }

/-- Element k of an instruction whose second operand is a stream is active (R285). -/
def streamActive (s : State) (i : Instr) (k : Nat) : Bool :=
  match i with
  | .vadd _ m _ _ _ | .vsub _ m _ _ _ | .vrsub _ m _ _ _ | .vmul _ m _ _ _ | .vmulh _ m _ _ _ | .vdiv _ m _ _ _ | .vrem _ m _ _ _
  | .vmin _ m _ _ _ | .vmax _ m _ _ _ | .vand _ m _ _ _ | .vor _ m _ _ _ | .vxor _ m _ _ _ | .vsll _ m _ _ _ | .vsrl _ m _ _ _
  | .vsra _ m _ _ _ | .vfma _ m _ _ _ | .vfnma _ m _ _ _ | .vaddc _ _ m _ _ _ | .vsubb _ _ m _ _ _ | .vmadw _ m _ _ _
  | .vnshr _ m _ _ _ | .vsadd _ m _ _ _ | .vssub _ m _ _ _ | .vavg _ m _ _ _ | .vcmp _ m _ _ _ => active s m k
  | _ => true

/-- The active elements lo to hi - 1 of a ring operand whose bytes are poisoned, each with the address of its first byte (R371). -/
def ringBad (s : State) (i : Instr) (r : StreamReg) (b lo hi : Nat) : List (Nat × Nat) :=
  ((List.range (hi - lo)).map (lo + ·)).filterMap fun k =>
    let addr (q : Nat) : Nat := ringAddr (curCore s) r (r.consumed.toNat + (k - lo) * b + q)
    if streamActive s i k && (List.range b).any fun q => poisonedIn s (addr q / 8 * 8) 8 then some (k, addr 0) else none

/-- Stream n gives elements lo to hi - 1 to an instruction of length vl; a strip waits until all of its elements have
arrived (R158), and ends before an element in error, which traps as the strip's first (R179, R371). A chain's message sets the length
(R168), and a width that differs traps with 0x02, the message discarded. -/
def streamRead (i : Instr) (n : SReg) (vl lo hi : Nat) : Act StreamRead := do
  let e ← streamType i n
  let s ← get
  let r := s.st.streams[n.val]
  let b := e.bytes
  if r.kind = 1 then
    let hi := min hi vl
    if (r.arrived - r.consumed).toNat < (hi - lo) * b then throw .again
    let bad := ringBad s i r b lo hi
    let hi := ((bad.head?.map (·.1)).getD hi)
    if bad ≠ [] ∧ hi = lo then
      set (reportBad s b lo bad)
      trap 0x06 (faultBits lo bad)
    let bs := (List.range ((hi - lo) * b)).map fun k => memByte s.mem (ringAddr (curCore s) r (r.consumed.toNat + k))
    pure { ty := e, hi := hi, vl := vl, vals := elemsOf b bs (hi - lo) }
  else
    match r.msgs.find? fun m => ! m.done with
    | none => throw .again
    | some m =>
      if m.width ≠ b then
        set (endMessage s n)
        illTyped i
      else
        let len := min vl m.total
        let hi := min hi len
        if m.data.length < (hi - lo) * b then throw .again
        let bad := ((List.range (hi - lo)).map (lo + ·)).filter fun k => r.poison && streamActive s i k
        let hi := bad.headD hi
        if bad ≠ [] ∧ hi = lo then
          set (reportSram s b bad)
          trap 0x06 (faultBits lo (bad.map fun k => (k, 0)))
        pure { ty := e, hi := hi, vl := len, vals := elemsOf b m.data (hi - lo) }

/-- The element groups left in a chain's buffer after n bytes are consumed: a group is free once all of it is (R167). -/
def takeGroups : Nat → List Nat → List Nat
  | _, [] => []
  | n, g :: t => if g ≤ n then takeGroups (n - g) t else (g - n) :: t

/-- CONSUMED advances by k elements of b bytes; a chain's message ends when its instruction is done with it. -/
def streamTake (s : State) (n : SReg) (b k : Nat) (last : Bool) : State :=
  let r := s.st.streams[n.val]
  if r.kind = 1 then putStream s n { r with consumed := r.consumed + w64 (k * b) }
  else if last then endMessage s n
  else
    let take (m : ChainMsg) : Option ChainMsg := some { m with data := m.data.drop (k * b), groups := takeGroups (k * b) m.groups }
    putStream s n { r with consumed := r.consumed + w64 (k * b), msgs := onMessage r.msgs take }

/-! ## The second operand (R286) -/

/-- The element type of a second operand, given va's. -/
def secondType (i : Instr) (ta : Elem) (b : VSrc) : Act Elem :=
  match b with
  | .vv r => typeOf i r
  | .vx _ | .vi _ => pure ta
  | .vs n => streamType i n

/-- Raw bits of element j of a second operand that is not a stream: op is the captured scalar. -/
def secondBits (s : State) (ta : Elem) (op : Word) (b : VSrc) (j : Nat) : Nat :=
  match b with
  | .vv r => elemAt s r ((elemType s r).getD ta).bytes j
  | .vx _ => op.toNat % 2 ^ ta.width
  | .vi k => immBits ta k.toInt
  | .vs _ => 0

/-- The vector source that a second operand names. -/
def secondReg : VSrc → Option VReg
  | .vv r => some r
  | _ => none

/-! ## A strip and its commit (R28, R41, R285) -/

/-- What one active element produces. -/
structure Out where
  val   : Nat
  flags : Flags := 0
  sat   : Bool := false
  bit   : Bool := false
  amax  : Num := .nan false
  carry : Option Word32 := none
  deriving DecidableEq, Repr

/-- Values to be written from element lo of a register: an inactive element is left as it is. -/
def writeOuts (r : VectorReg) (b : Nat) : Nat → List (Option Out) → VectorReg
  | _, [] => r
  | i, none :: t => writeOuts r b (i + 1) t
  | i, some o :: t => writeOuts (writeElem r b i o.val) b (i + 1) t

/-- Mask bits to be written from element lo. -/
def writeBits (m : Mask) : Nat → List (Option Out) → Mask
  | _, [] => m
  | i, none :: t => writeBits m (i + 1) t
  | i, some o :: t => writeBits (putBit m i o.bit) (i + 1) t

/-- Flags, `vsat`, `amax` and `vcarry` of committed elements. -/
def commitFlags (s : State) (os : List (Option Out)) : State :=
  let os := os.filterMap id
  s.modCsr fun c => { c with
    fexc := os.foldl (fun f o => f ||| o.flags) c.fexc
    vsat := if os.any (·.sat) then 1 else c.vsat
    amax := os.foldl (fun a o => amaxWith a o.amax) c.amax
    vcarry := os.foldl (fun a o => o.carry.getD a) c.vcarry }

/-- Elements lo to hi - 1 under the `.m` flag: what each active one produces. -/
def outs (s : State) (m : Bool) (lo hi : Nat) (f : Nat → Out) : List (Option Out) :=
  (List.range (hi - lo)).map fun k => if active s m (lo + k) then some (f (lo + k)) else none

/-- An elementwise form ready to run: its destination, the widths that matter, and what its elements produce, given
element i of its first operand. -/
structure Form where
  d      : VReg
  bytes  : Nat                    -- bytes of a destination element
  widest : Nat                    -- bits of the widest operand or destination (R74)
  a      : VReg
  abytes : Nat                    -- bytes of a first-operand element
  mask   : Option MReg := none    -- the mask register of VADDC and VSUBB
  src    : Option SReg := none    -- the stream that the second operand reads
  strip  : State → (Nat → Nat) → (Nat → Nat) → Nat → Nat → List (Option Out)
                                  -- first operand, stream operand, lo, hi

/-- Bits of an element group: 128e bytes (R11). -/
def groupBits (s : State) : Nat := 1024 * laneGroups (getCore s (curCore s))

/-- Where a strip of at most n element groups ends that begins at element lo, elements passing w bits through the lanes (R73): at the
furthest group boundary on which an element ends. -/
def stripTo (s : State) (n w lo : Nat) : Nat :=
  let bits := Nat.lcm w (groupBits s)
  let per := bits / w
  max lo ((lo / per + max 1 (n / (bits / groupBits s))) * per)

/-- A limit that no length reaches. -/
def noLimit : Nat := 2 ^ 20

/-- The end of a strip of an instruction of length vl whose elements pass w bits through the lanes: the limit, and 8 element groups
where there is one (R73). -/
def reach (s : State) (w vl lim : Nat) : Nat :=
  min vl (if lim < noLimit then min lim (stripTo s 8 w s.st.csr.vstart.toNat) else lim)

/-- Element-beats of elements lo to hi - 1 at width w (R74). -/
def beats (s : State) (w lo hi : Nat) : Nat :=
  let g := groupBits s
  ceilDiv (hi * w) g - lo * w / g

/-- The strand is charged for elements lo to hi - 1 (R74). -/
def charge (s : State) (w lo hi : Nat) : State :=
  s.modCsr fun c => { c with ebeats := c.ebeats + w64 (beats s w lo hi) }

/-- `vstart` after elements up to hi - 1 of vl committed, and whether the instruction is complete. -/
def advance (hi vl : Nat) : Act Bool := do
  if vl ≤ hi then apply (setVstart · 0); pure true
  else apply (setVstart · hi); pure false

end Sys2Proof.Machine
end

