-- ==== Sys2Proof/Machine/VecArith.lean ====
section
/-! DEFINITION. Elementwise vector forms: arithmetic (R292), fixed point (R293 to R295) and special functions (R301), each as
a `Form` that its VIQ entry runs (R285) or forwards (R306). -/

namespace Sys2Proof.Machine

/-! ## Arithmetic of one element -/

/-- An integer operation at width w on A, B and D; its result wraps (R25). -/
abbrev IntOp := Nat → Int → Int → Int → Int
/-- A floating-point operation on A, B and D, before rounding. -/
abbrev FltOp := Num → Num → Num → Num × Flags

/-- An integer operand of tag t in the result format F. -/
def toFormat (F t : Elem) (c : Nat) : Int := intOf F (wrapTo F.width (intOf t c))

/-- The raw bits of an integer at width w. -/
def rawBits (w : Nat) (v : Int) : Nat := wrapTo w v

def intDiv (a b : Int) : Int := if b = 0 then -1 else a.tdiv b
def intRem (a b : Int) : Int := if b = 0 then a else a.tmod b

/-- An arithmetic result of one element: operands converted to F, the operation, one rounding (R291, R292). -/
def arithOut (F ta tb : Elem) (fi : IntOp) (ff : FltOp) (x y z : Nat) : Out :=
  match F with
  | .flt f =>
    let (p, g) := convertTo F ta x
    let (q, h) := convertTo F tb y
    let (r, k) := ff p q (decodeFloat f z)
    let (v, l) := encodeFloat f .ne r
    { val := v, flags := g ||| h ||| k ||| l }
  | _ => { val := wrapTo F.width (fi F.width (toFormat F ta x) (toFormat F tb y) (toFormat F F z)) }

/-- The second operand of element k, a stream's value coming from its strip. -/
def secondAt (s : State) (ta : Elem) (op : Word) (b : VSrc) (str : Nat → Nat) (k : Nat) : Nat :=
  match b with
  | .vs _ => str k
  | _ => secondBits s ta op b k

/-- The stream a second operand reads. -/
def secondStream : VSrc → Option SReg
  | .vs n => some n
  | _ => none

/-- A form whose destination width differs from a source's is distinct from every vector source (R287). -/
def distinctOk (d a : VReg) (b : VSrc) (wd wa wb : Nat) : Bool :=
  (decide (wd = wa) && decide (wd = wb)) || (decide (d ≠ a) && decide (secondReg b ≠ some d))

/-- A form of Table 17.4: integer meaning, and floating-point meaning if it has one. -/
def arithForm (i : Instr) (m : Bool) (d a : VReg) (b : VSrc) (fi : IntOp) (ff : Option FltOp) (e : VEntry) : Act Form := do
  let td ← typeOf i d
  let ta ← typeOf i a
  let tb ← secondType i ta b
  match mixed ta tb with
  | none => illTyped i
  | some F =>
    require i (decide (td = F) && distinctOk d a b td.width ta.width tb.width)
    require i (F.isInt || ff.isSome)
    pure { d := d, bytes := td.bytes, widest := max td.width (max ta.width tb.width), a := a, abytes := ta.bytes,
           src := secondStream b,
           strip := fun s A S lo hi => outs s m lo hi fun k =>
             arithOut F ta tb fi (ff.getD fun x _ _ => (x, 0)) (A k) (secondAt s ta e.op0 b S k) (elemAt s d td.bytes k) }

/-- A unary form of Table 17.4. -/
def unaryForm (i : Instr) (m : Bool) (d a : VReg) (fi : Elem → Int → Int) (ff : Num → Num × Flags) : Act Form := do
  let td ← typeOf i d
  let ta ← typeOf i a
  require i (decide (td = ta) && (mixed ta ta).isSome)
  pure { d := d, bytes := td.bytes, widest := td.width, a := a, abytes := ta.bytes,
         strip := fun s A _ lo hi => outs s m lo hi fun k =>
           arithOut td td td (fun _ x _ _ => fi td x) (fun x _ _ => ff x) (A k) 0 0 }

/-! ## Arithmetic (Table 17.4) -/

/-- VADD: A + B. -/
def formVadd (c m : Bool) (d a : VReg) (b : VSrc) (e : VEntry) : Act Form :=
  arithForm (.vadd c m d a b) m d a b (fun _ x y _ => x + y) (some fun x y _ => addNum false x y) e

/-- VSUB: A − B. -/
def formVsub (c m : Bool) (d a : VReg) (b : VSrc) (e : VEntry) : Act Form :=
  arithForm (.vsub c m d a b) m d a b (fun _ x y _ => x - y) (some fun x y _ => addNum false x y.flip) e

/-- VRSUB: B − A. -/
def formVrsub (c m : Bool) (d a : VReg) (b : VSrc) (e : VEntry) : Act Form :=
  arithForm (.vrsub c m d a b) m d a b (fun _ x y _ => y - x) (some fun x y _ => addNum false y x.flip) e

/-- VMUL: A × B. -/
def formVmul (c m : Bool) (d a : VReg) (b : VSrc) (e : VEntry) : Act Form :=
  arithForm (.vmul c m d a b) m d a b (fun _ x y _ => x * y) (some fun x y _ => mulNum x y) e

/-- VMULH: the high half of the product. -/
def formVmulh (c m : Bool) (d a : VReg) (b : VSrc) (e : VEntry) : Act Form :=
  arithForm (.vmulh c m d a b) m d a b (fun w x y _ => x * y / (2 ^ w : Nat)) none e

/-- VDIV: A ÷ B (R266). -/
def formVdiv (c m : Bool) (d a : VReg) (b : VSrc) (e : VEntry) : Act Form :=
  arithForm (.vdiv c m d a b) m d a b (fun _ x y _ => intDiv x y) (some fun x y _ => divNum x y) e

/-- VREM: the remainder (R266). -/
def formVrem (c m : Bool) (d a : VReg) (b : VSrc) (e : VEntry) : Act Form :=
  arithForm (.vrem c m d a b) m d a b (fun _ x y _ => intRem x y) none e

/-- VMIN: the smaller (R279). -/
def formVmin (c m : Bool) (d a : VReg) (b : VSrc) (e : VEntry) : Act Form :=
  arithForm (.vmin c m d a b) m d a b (fun _ x y _ => min x y) (some fun x y _ => minMaxNum false x y) e

/-- VMAX: the larger (R279). -/
def formVmax (c m : Bool) (d a : VReg) (b : VSrc) (e : VEntry) : Act Form :=
  arithForm (.vmax c m d a b) m d a b (fun _ x y _ => max x y) (some fun x y _ => minMaxNum true x y) e

/-- VAND: bitwise and. -/
def formVand (c m : Bool) (d a : VReg) (b : VSrc) (e : VEntry) : Act Form :=
  arithForm (.vand c m d a b) m d a b (fun w x y _ => ((rawBits w x &&& rawBits w y : Nat) : Int)) none e

/-- VOR: bitwise or. -/
def formVor (c m : Bool) (d a : VReg) (b : VSrc) (e : VEntry) : Act Form :=
  arithForm (.vor c m d a b) m d a b (fun w x y _ => ((rawBits w x ||| rawBits w y : Nat) : Int)) none e

/-- VXOR: bitwise exclusive or. -/
def formVxor (c m : Bool) (d a : VReg) (b : VSrc) (e : VEntry) : Act Form :=
  arithForm (.vxor c m d a b) m d a b (fun w x y _ => ((rawBits w x ^^^ rawBits w y : Nat) : Int)) none e

/-- VSLL: shift left by the low log2(w) bits of B. -/
def formVsll (c m : Bool) (d a : VReg) (b : VSrc) (e : VEntry) : Act Form :=
  arithForm (.vsll c m d a b) m d a b (fun w x y _ => x * (2 ^ (rawBits w y % w) : Nat)) none e

/-- VSRL: logical shift right. -/
def formVsrl (c m : Bool) (d a : VReg) (b : VSrc) (e : VEntry) : Act Form :=
  arithForm (.vsrl c m d a b) m d a b (fun w x y _ => ((rawBits w x / 2 ^ (rawBits w y % w) : Nat) : Int)) none e

/-- VSRA: arithmetic shift right at width w. -/
def formVsra (c m : Bool) (d a : VReg) (b : VSrc) (e : VEntry) : Act Form :=
  arithForm (.vsra c m d a b) m d a b (fun w x y _ => signed w (rawBits w x) / (2 ^ (rawBits w y % w) : Nat)) none e

/-- VFMA: D + A × B, one rounding. -/
def formVfma (c m : Bool) (d a : VReg) (b : VSrc) (e : VEntry) : Act Form :=
  arithForm (.vfma c m d a b) m d a b (fun _ x y z => z + x * y) (some fun x y z => fmaNum false x y z) e

/-- VFNMA: D − A × B, one rounding. -/
def formVfnma (c m : Bool) (d a : VReg) (b : VSrc) (e : VEntry) : Act Form :=
  arithForm (.vfnma c m d a b) m d a b (fun _ x y z => z - x * y) (some fun x y z => fmaNum false x.flip y z) e

/-- A NaN operand gives the canonical NaN, with NV when it signals. -/
def quiet (x : Num) (r : Num) : Num × Flags := if x.isNan then (.nan false, nvOf [x]) else (r, 0)

/-- VABS: −2^(w−1) stays; a float's sign is cleared. -/
def formVabs (c m : Bool) (d a : VReg) (_e : VEntry) : Act Form :=
  unaryForm (.vabs c m d a) m d a (fun _ x => if x < 0 then -x else x) (fun x => quiet x x.mag)

/-- VNEG: 0 − A; a float's sign is flipped. -/
def formVneg (c m : Bool) (d a : VReg) (_e : VEntry) : Act Form :=
  unaryForm (.vneg c m d a) m d a (fun _ x => -x) (fun x => quiet x x.flip)

/-- VSEL: m0 bit i ? A : B, as raw bits of one width, for every index (R292). -/
def formVsel (c : Bool) (d a : VReg) (b : VSrc) (e : VEntry) : Act Form := do
  let i : Instr := .vsel c d a b
  let td ← typeOf i d
  let ta ← typeOf i a
  let tb ← secondType i ta b
  require i (decide (ta.width = td.width) && decide (tb.width = td.width))
  pure { d := d, bytes := td.bytes, widest := td.width, a := a, abytes := ta.bytes, src := secondStream b,
         strip := fun s A S lo hi => outs s false lo hi fun k =>
           { val := if maskBit s 0 k then A k else secondAt s ta e.op0 b S k } }

/-! ## Fixed point (Table 17.5) -/

/-- A fixed-point form: integer tags that satisfy `ok` (of va, B and vd), and one element's result from the state, raw
operands and the element's index. -/
def fixedForm (i : Instr) (m : Bool) (d a : VReg) (b : VSrc) (q : Option MReg) (ok : Elem → Elem → Elem → Bool)
    (f : State → Elem → Elem → Elem → Nat → Nat → Nat → Nat → Out) (e : VEntry) : Act Form := do
  let td ← typeOf i d
  let ta ← typeOf i a
  let tb ← secondType i ta b
  require i (td.isInt && ta.isInt && tb.isInt && ok ta tb td && (decide (td.width = ta.width) || distinctOk d a b td.width ta.width tb.width))
  pure { d := d, bytes := td.bytes, widest := max td.width (max ta.width tb.width), a := a, abytes := ta.bytes, mask := q,
         src := secondStream b,
         strip := fun s A S lo hi => outs s m lo hi fun k =>
           f s ta tb td k (A k) (secondAt s ta e.op0 b S k) (elemAt s d td.bytes k) }

/-- One tag throughout. -/
def oneTag (ta tb td : Elem) : Bool := decide (ta = tb) && decide (tb = td)

/-- VADDC: unsigned A + B + carry, the carry of element i in bit i of mc (R293). -/
def formVaddc (q : MReg) (c m : Bool) (d a : VReg) (b : VSrc) (e : VEntry) : Act Form :=
  fixedForm (.vaddc q c m d a b) m d a b (some q) oneTag
    (fun s ta _ _ k x y _ =>
      let t := x + y + (maskBit s q k).toNat
      { val := t % 2 ^ ta.width, bit := decide (2 ^ ta.width ≤ t) }) e

/-- VSUBB: unsigned A − B − borrow (R293). -/
def formVsubb (q : MReg) (c m : Bool) (d a : VReg) (b : VSrc) (e : VEntry) : Act Form :=
  fixedForm (.vsubb q c m d a b) m d a b (some q) oneTag
    (fun s ta _ _ k x y _ =>
      let t : Int := x - y - (maskBit s q k).toNat
      { val := wrapTo ta.width t, bit := decide (t < 0) }) e

/-- VMADW: D + A × B at double width, each source read by its own tag; it wraps (R294). -/
def formVmadw (c m : Bool) (d a : VReg) (b : VSrc) (e : VEntry) : Act Form :=
  fixedForm (.vmadw c m d a b) m d a b none
    (fun ta tb td => decide (ta.width = tb.width) && decide (ta.width ≤ 32) && decide (td.width = 2 * ta.width)
      && decide (td.isSigned = (ta.isSigned || tb.isSigned)))
    (fun _ ta tb td _ x y z => { val := wrapTo td.width (z + intOf ta x * intOf tb y) }) e

/-- A clamped result with its `vsat` (R25). -/
def satOut (td : Elem) (v : Int) : Out :=
  let r := clampInt td.width td.isSigned v
  { val := wrapTo td.width r.1, sat := r.2 }

/-- The shift count of VNSHR: vi is an unsigned field (R294). -/
def nshrCount (b : VSrc) (y : Nat) : Nat :=
  match b with
  | .vi k => k.toNat
  | _ => y

/-- VNSHR: A narrowed by Second(i) mod 2w bits under `vrnd`, then clamped (R294, R37). -/
def formVnshr (c m : Bool) (d a : VReg) (b : VSrc) (e : VEntry) : Act Form :=
  fixedForm (.vnshr c m d a b) m d a b none (fun ta _ td => decide (ta.width = 2 * td.width))
    (fun s ta _ td _ x y _ => satOut td (narrowInt s.st.csr.vrnd.toNat (intOf ta x) (nshrCount b y % ta.width))) e

/-- VSADD: A + B clamped (R295). -/
def formVsadd (c m : Bool) (d a : VReg) (b : VSrc) (e : VEntry) : Act Form :=
  fixedForm (.vsadd c m d a b) m d a b none oneTag (fun _ ta tb td _ x y _ => satOut td (intOf ta x + intOf tb y)) e

/-- VSSUB: A − B clamped (R295). -/
def formVssub (c m : Bool) (d a : VReg) (b : VSrc) (e : VEntry) : Act Form :=
  fixedForm (.vssub c m d a b) m d a b none oneTag (fun _ ta tb td _ x y _ => satOut td (intOf ta x - intOf tb y)) e

/-- VAVG: A + B narrowed by one bit under `vrnd` (R295). -/
def formVavg (c m : Bool) (d a : VReg) (b : VSrc) (e : VEntry) : Act Form :=
  fixedForm (.vavg c m d a b) m d a b none oneTag
    (fun s ta tb td _ x y _ => { val := wrapTo td.width (narrowInt s.st.csr.vrnd.toNat (intOf ta x + intOf tb y) 1) }) e

/-! ## Special functions (R301, Table 17.9) -/

/-- ⌊ln 2 × 2^320⌋. -/
def ln2Fix : Nat := 1480553391661173448385607439722553250922680800745876974795605978609098082859138712941075737848984

/-- Σ r^k ÷ k! from the term t = r^k ÷ k! on, at 320 fraction bits. -/
def expSeries : Nat → Nat → Nat → Nat → Nat
  | 0, _, _, _ => 0
  | n + 1, r, k, t => t + expSeries n r (k + 1) (t * r / 2 ^ 320 / (k + 1))

/-- The value n × 2^k with its last bit marked inexact: what lies beyond the computed bits is never 0. -/
def nearNum (neg : Bool) (n : Nat) (k : Int) : Num := .fin neg (2 * n + 1) (k - 1)

/-- 2^(n + r ÷ (ln 2 × 2^320)), for r below ln 2. -/
def expParts (n : Int) (r : Nat) : Num := nearNum false (expSeries 80 r 0 (2 ^ 320)) (n - 320)

/-- A finite value as a count of 2^-320, rounded down. -/
def fixOf (neg : Bool) (m : Nat) (e : Int) : Int :=
  let v : Int := if neg then -(m : Int) else m
  if -320 ≤ e then v * (2 ^ (e + 320).toNat : Nat) else v / (2 ^ (-320 - e).toNat : Nat)

/-- A result far above, or far below, every format. -/
def hugeNum : Num := .fin false 1 20000
def tinyNum : Num := .fin false 1 (-20000)

/-- e^x of a finite value. -/
def expNum (neg : Bool) (m : Nat) (e : Int) : Num :=
  if m = 0 then .fin false 1 0
  else if 12 < leadExp m e then (if neg then tinyNum else hugeNum)
  else
    let x := fixOf neg m e
    expParts (x / ln2Fix) (x % ln2Fix).toNat

/-- 2^x of a finite value; exact at an integer. -/
def exp2Num (neg : Bool) (m : Nat) (e : Int) : Num :=
  if m = 0 then .fin false 1 0
  else if 14 < leadExp m e then (if neg then tinyNum else hugeNum)
  else
    let x := fixOf neg m e
    let n := x / (2 ^ 320 : Nat)
    let f := (x % (2 ^ 320 : Nat)).toNat
    if f = 0 ∧ -320 ≤ e then .fin false 1 n else expParts n (f * ln2Fix / 2 ^ 320)

/-- Σ z^(2k+1) ÷ (2k+1) from the power p on, at 320 fraction bits. -/
def atanhSeries : Nat → Nat → Nat → Nat → Nat
  | 0, _, _, _ => 0
  | n + 1, zz, k, p => p / (2 * k + 1) + atanhSeries n zz (k + 1) (p * zz / 2 ^ 320)

/-- log2 of m × 2^e, m ≠ 0; exact at a power of two. -/
def log2Num (m : Nat) (e : Int) : Num :=
  let k := leadExp m e
  let l := Nat.log2 m
  if m = 2 ^ l then numOfInt k
  else
    let z := (m - 2 ^ l) * 2 ^ 320 / (m + 2 ^ l)
    let ln := 2 * atanhSeries 120 (z * z / 2 ^ 320) 0 z
    let v : Int := k * (2 ^ 320 : Nat) + (ln * 2 ^ 320 / ln2Fix : Nat)
    nearNum (decide (v < 0)) v.natAbs (-320)

/-- tanh of a finite value, m ≠ 0. -/
def tanhNum (neg : Bool) (m : Nat) (e : Int) : Num :=
  if leadExp m e < -40 then .fin neg (m * 2 ^ 60 - 1) (e - 60)
  else if 6 < leadExp m e then .fin neg (2 ^ 60 - 1) (-60)
  else
    match expNum true m (e + 1) with
    | .fin _ a k =>
      let u := fixOf false a k
      nearNum neg (((2 ^ 320 : Nat) - u) * (2 ^ 320 : Nat) / ((2 ^ 320 : Nat) + u)).toNat (-320)
    | v => v

/-- The reciprocal square root of m × 2^e, m ≠ 0. -/
def rsqrtNum (m : Nat) (e : Int) : Num :=
  let m' := if e % 2 = 0 then m else 2 * m
  let e' := if e % 2 = 0 then e else e - 1
  let k := 100 + bitLen m'
  let q := 2 ^ (2 * k) / m'
  let r := isqrt (bitLen q / 2 + 1) q 0
  .fin false (2 * r + (if r * r * m' = 2 ^ (2 * k) then 0 else 1)) (-(e' / 2) - k - 1)

/-- Table 17.9, VRCP. -/
def rcpFn (x : Num) : Num × Flags := divNum (.fin false 1 0) x
/-- Table 17.9, VRSQ. -/
def rsqFn (x : Num) : Num × Flags :=
  match x with
  | .nan s => (.nan false, flagIf s flagNV)
  | .inf neg => if neg then (.nan false, flagNV) else (.fin false 0 0, 0)
  | .fin neg m e =>
    if m = 0 then (.inf neg, flagDZ) else if neg then (.nan false, flagNV) else (rsqrtNum m e, 0)
/-- Table 17.9, VEXP2. -/
def exp2Fn (x : Num) : Num × Flags :=
  match x with
  | .nan s => (.nan false, flagIf s flagNV)
  | .inf neg => (if neg then .fin false 0 0 else .inf false, 0)
  | .fin neg m e => (exp2Num neg m e, 0)
/-- Table 17.9, VLOG2. -/
def log2Fn (x : Num) : Num × Flags :=
  match x with
  | .nan s => (.nan false, flagIf s flagNV)
  | .inf neg => if neg then (.nan false, flagNV) else (.inf false, 0)
  | .fin neg m e =>
    if m = 0 then (.inf true, flagDZ) else if neg then (.nan false, flagNV) else (log2Num m e, 0)
/-- Table 17.9, VTANH. -/
def tanhFn (x : Num) : Num × Flags :=
  match x with
  | .nan s => (.nan false, flagIf s flagNV)
  | .inf neg => (.fin neg 1 0, 0)
  | .fin neg m e => if m = 0 then (.fin neg 0 0, 0) else (tanhNum neg m e, 0)

/-- exp of Table 17.9's kind for R308 and R309: −∞ gives +0, +∞ gives +∞. -/
def expFn (x : Num) : Num × Flags :=
  match x with
  | .nan s => (.nan false, flagIf s flagNV)
  | .inf neg => (if neg then .fin false 0 0 else .inf false, 0)
  | .fin neg m e => (expNum neg m e, 0)

/-- The flags of a finite value's final 16-bit result, nx saying that a rounding on the way was inexact: an infinity overflowed,
and an inexact result below the normal range underflowed (R301). -/
def finalFlags (f : FloatFmt) (v : Num) (r : Nat) (nx : Flags) : Flags :=
  match v, decodeFloat f r with
  | .fin _ _ _, .inf _ => nx ||| flagOF ||| flagNX
  | .fin _ _ _, .fin _ _ _ => nx ||| flagIf (decide (nx ≠ 0) && decide (r % 2 ^ (f.w - 1) < 2 ^ (f.p - 1))) flagUF
  | _, _ => nx

/-- A special function of one element: f32 and f64 round once; f16 and bf16 round to f32 and then to their own format, NX
coming from either rounding, OF and UF from the final result (R301). -/
def specialOut (f : FloatFmt) (fn : Num → Num × Flags) (x : Nat) : Out :=
  let (v, g) := fn (decodeFloat f x)
  if f.w = 16 then
    let (a, h) := encodeFloat fmtF32 .ne v
    let (r, k) := encodeFloat f .ne (decodeFloat fmtF32 a)
    { val := r, flags := g ||| k ||| finalFlags f v r ((h ||| k) &&& flagNX) }
  else
    let (r, k) := encodeFloat f .ne v
    { val := r, flags := g ||| k }

/-- A special-function form: vd and va of one tag, f16, bf16 or f32, and f64 where the form accepts it. -/
def specialForm (i : Instr) (m : Bool) (d a : VReg) (wide : Bool) (fn : Num → Num × Flags) : Act Form := do
  let td ← typeOf i d
  let ta ← typeOf i a
  require i (decide (td = ta) && ta.isBinary && (wide || decide (ta.width < 64)))
  pure { d := d, bytes := td.bytes, widest := td.width, a := a, abytes := ta.bytes,
         strip := fun s A _ lo hi => outs s m lo hi fun k =>
           match ta with
           | .flt f => specialOut f fn (A k)
           | _ => { val := A k } }

/-- VRCP (R301). -/
def formVrcp (c m : Bool) (d a : VReg) (_e : VEntry) : Act Form := specialForm (.vrcp c m d a) m d a true rcpFn

/-- VRSQ (R301). -/
def formVrsq (c m : Bool) (d a : VReg) (_e : VEntry) : Act Form := specialForm (.vrsq c m d a) m d a false rsqFn

/-- VSQRT (R301). -/
def formVsqrt (c m : Bool) (d a : VReg) (_e : VEntry) : Act Form := specialForm (.vsqrt c m d a) m d a true sqrtNum

/-- VEXP2 (R301). -/
def formVexp2 (c m : Bool) (d a : VReg) (_e : VEntry) : Act Form := specialForm (.vexp2 c m d a) m d a false exp2Fn

/-- VLOG2 (R301). -/
def formVlog2 (c m : Bool) (d a : VReg) (_e : VEntry) : Act Form := specialForm (.vlog2 c m d a) m d a false log2Fn

/-- VTANH (R301). -/
def formVtanh (c m : Bool) (d a : VReg) (_e : VEntry) : Act Form := specialForm (.vtanh c m d a) m d a false tanhFn

end Sys2Proof.Machine
end

