-- ==== Sys2Proof/Machine/VecMove.lean ====
section
/-! DEFINITION. How a vector instruction runs over its elements (R285), and the vector forms that are not plain arithmetic:
VTAG (R290), masks (R296, R297), permutes, reductions and scans (R298 to R300), with those that write a scalar register. -/

namespace Sys2Proof.Machine

/-! ## Running over elements -/

/-- The first operand of a consumer, when a producer forwards it (R306). -/
abbrev Fwd := Option (Nat → Nat)

/-- Element k of the first operand: forwarded, or read from its register. -/
def readA (s : State) (fw : Fwd) (a : VReg) (b k : Nat) : Nat :=
  match fw with
  | some f => f k
  | none => elemAt s a b k

/-- A form runs from `vstart` to its length, or to element lim: k commits elements lo to hi - 1 (R285). With a stream
operand it runs one strip, once its elements have arrived (R158). The answer says whether the instruction is complete. -/
def overStrip (i : Instr) (w : Nat) (src : Option SReg) (e : VEntry) (lim : Nat)
    (k : State → (Nat → Nat) → Nat → Nat → State) : Act Bool := do
  let lo := vstart (← get)
  if e.vl ≤ lo then
    apply (setVstart · 0)
    pure true
  else
    let hi := reach (← get) w e.vl lim
    match src with
    | none =>
      apply fun s => charge (k s (fun _ => 0) lo hi) w lo hi
      advance hi e.vl
    | some n =>
      let r ← streamRead i n e.vl lo (min hi (stripTo (← get) 8 w lo))
      apply fun s =>
        streamTake (charge (k s (fun j => r.vals.getD (j - lo) 0) lo r.hi) w lo r.hi) n r.ty.bytes (r.hi - lo)
          (decide (r.vl ≤ r.hi))
      advance r.hi r.vl

/-- The strip of a form written to its destination (R285, R53). -/
def commitForm (f : Form) (os : List (Option Out)) (lo : Nat) (s : State) : State :=
  let s := markDirty (setReg s f.d (writeOuts s.st.v[f.d.val] f.bytes lo os)) f.d
  let s := match f.mask with
    | some q => setMask s q (writeBits s.st.m[q.val] lo os)
    | none => s
  commitFlags s os

/-- An elementwise form runs. -/
def runForm (i : Instr) (f : Form) (fw : Fwd) (e : VEntry) (lim : Nat) : Act Bool :=
  overStrip i f.widest f.src e lim fun s S lo hi =>
    commitForm f (f.strip s (readA s fw f.a f.abytes) S lo hi) lo s

/-- A form that writes only when it completes, or acts on its whole length in one step: f commits it (R297, R298). -/
def whole (w : Nat) (e : VEntry) (f : State → State) : Act Bool := do
  apply fun s => setVstart (charge (f s) w 0 e.vl) 0
  pure true

/-! ## VTAG (R290) -/

/-- VTAG: the tag of registers vd to vd + n − 1; no data changes, and no `vdirty` bit is set. -/
def runVtag (t : BitVec 6) (n1 : Fin 32) (d : VReg) (_e : VEntry) (_lim : Nat) : Act Bool := do
  let i : Instr := .vtag t n1 d
  needReg i (d.val + n1.val)
  let s ← get
  require i (decide (t = 0) || (match elemOf t with | some e => decide (e.width ≤ maxWidth s) | none => false))
  apply fun s => (List.range (n1.val + 1)).foldl (fun s k =>
    let r := Fin.ofNat 32 (d.val + k)
    setReg s r { s.st.v[r.val] with tag := t }) s
  apply (setVstart · 0)
  pure true

/-! ## Masks (R296, R297) -/

/-- Bits 0 to n − 1. -/
def lowMask (n : Nat) : Mask := BitVec.ofNat 16384 (2 ^ n - 1)

/-- Bits 0 to vl − 1 of a mask take their new values. -/
def mergeLow (old new : Mask) (vl : Nat) : Mask := (new &&& lowMask vl) ||| (old &&& ~~~ lowMask vl)

/-- The comparisons of VCMP on two integers. -/
def cmpInt (q : VCond) (x y : Int) : Bool :=
  match q with
  | .eq => decide (x = y)
  | .ne => decide (x ≠ y)
  | .lt => decide (x < y)
  | .le => decide (x ≤ y)
  | .gt => decide (y < x)
  | .ge => decide (y ≤ x)

/-- The comparisons of VCMP on two floats: a NaN makes every condition false but `.ne` (R296). -/
def cmpNum (q : VCond) (x y : Num) : Bool × Flags :=
  let any := x.isNan || y.isNan
  let lt := ltNum false x y
  let gt := ltNum false y x
  match q with
  | .eq => (! any && ! lt && ! gt, nvOf [x, y])
  | .ne => (any || lt || gt, nvOf [x, y])
  | .lt => (! any && lt, flagIf any flagNV)
  | .le => (! any && ! gt, flagIf any flagNV)
  | .gt => (! any && gt, flagIf any flagNV)
  | .ge => (! any && ! lt, flagIf any flagNV)

/-- One comparison in the result format F. -/
def cmpOut (q : VCond) (F ta tb : Elem) (x y : Nat) : Out :=
  match F with
  | .flt _ =>
    let (p, g) := convertTo F ta x
    let (r, h) := convertTo F tb y
    let (b, k) := cmpNum q p r
    { val := 0, bit := b, flags := g ||| h ||| k }
  | _ => { val := 0, bit := cmpInt q (toFormat F ta x) (toFormat F tb y) }

/-- VCMP: md[i] := the comparison, over active i (R296). -/
def runVcmp (q : VCond) (m : Bool) (d : MReg) (a : VReg) (b : VSrc) (fw : Fwd) (e : VEntry) (lim : Nat) : Act Bool := do
  let i : Instr := .vcmp q m d a b
  let ta ← typeOf i a
  let tb ← secondType i ta b
  match mixed ta tb with
  | none => illTyped i
  | some F =>
    overStrip i (max ta.width tb.width) (secondStream b) e lim fun s S lo hi =>
      let os := outs s m lo hi fun k => cmpOut q F ta tb (readA s fw a ta.bytes k) (secondAt s ta e.op0 b S k)
      commitFlags (setMask s d (writeBits s.st.m[d.val] lo os)) os

/-- A mask form: bits 0 to vl − 1 of md take the value f gives. -/
def maskForm (i : Instr) (d : MReg) (e : VEntry) (f : State → Mask) : Act Bool := do
  needConfig i
  whole 1 e fun s => setMask s d (mergeLow s.st.m[d.val] (f s) e.vl)

/-- MAND. -/
def runMand (d a b : MReg) (e : VEntry) (_lim : Nat) : Act Bool :=
  maskForm (.mand d a b) d e fun s => s.st.m[a.val] &&& s.st.m[b.val]
/-- MOR. -/
def runMor (d a b : MReg) (e : VEntry) (_lim : Nat) : Act Bool :=
  maskForm (.mor d a b) d e fun s => s.st.m[a.val] ||| s.st.m[b.val]
/-- MXOR. -/
def runMxor (d a b : MReg) (e : VEntry) (_lim : Nat) : Act Bool :=
  maskForm (.mxor d a b) d e fun s => s.st.m[a.val] ^^^ s.st.m[b.val]
/-- MANDN: ma AND NOT mb. -/
def runMandn (d a b : MReg) (e : VEntry) (_lim : Nat) : Act Bool :=
  maskForm (.mandn d a b) d e fun s => s.st.m[a.val] &&& ~~~ s.st.m[b.val]
/-- MNOT. -/
def runMnot (d a : MReg) (e : VEntry) (_lim : Nat) : Act Bool :=
  maskForm (.mnot d a) d e fun s => ~~~ s.st.m[a.val]

/-- A mask moved up or down by one index with a carry-in (R296). -/
def slideMask (v : Mask) (k vl : Nat) : Mask :=
  let cin : Mask := BitVec.ofNat 16384 (k % 2)
  if k / 2 % 2 = 0 then (v <<< 1) ||| cin else ((v &&& lowMask vl) >>> 1) ||| (cin <<< (vl - 1))

/-- MSLIDE. -/
def runMslide (d a : MReg) (k : Fin 4) (e : VEntry) (_lim : Nat) : Act Bool :=
  maskForm (.mslide d a k) d e fun s => slideMask s.st.m[a.val] k.val e.vl
/-- MSET. -/
def runMset (d : MReg) (k : Bool) (e : VEntry) (_lim : Nat) : Act Bool :=
  maskForm (.mset d k) d e fun _ => if k then BitVec.allOnes 16384 else 0
/-- MMV md, ma. -/
def runMmvMask (d a : MReg) (e : VEntry) (_lim : Nat) : Act Bool :=
  maskForm (.mmvMask d a) d e fun s => s.st.m[a.val]

/-- The element type n8. -/
def elemN8 : Elem := .int 8 false

/-- MMV vd, ma: bits 8j to 8j + 7 into byte element j, j < ⌈vl ÷ 8⌉. -/
def runMmvToVector (d : VReg) (a : MReg) (e : VEntry) (_lim : Nat) : Act Bool := do
  let i : Instr := .mmvToVector d a
  require i (decide ((← typeOf i d) = elemN8))
  whole 1 e fun s =>
    let n := ceilDiv e.vl 8
    if n = 0 then s
    else
      let bs := natToBytes n (s.st.m[a.val].toNat % 2 ^ (8 * n))
      let r := s.st.v[d.val]
      markDirty (setReg s d { r with data := writeBytes r.data 0 bs, ext := max r.ext n }) d

/-- MMV md, va: md[i] := bit (i mod 8) of byte element ⌊i ÷ 8⌋. -/
def runMmvFromVector (d : MReg) (a : VReg) (fw : Fwd) (e : VEntry) (_lim : Nat) : Act Bool := do
  let i : Instr := .mmvFromVector d a
  require i (decide ((← typeOf i a) = elemN8))
  whole 1 e fun s =>
    let n := ceilDiv e.vl 8
    let v := (List.range n).foldl (fun v j => v + readA s fw a 1 j * 2 ^ (8 * j)) 0
    setMask s d (mergeLow s.st.m[d.val] (BitVec.ofNat 16384 v) e.vl)

/-- Set bits of a mask below n. -/
def countMask (v : Mask) (n : Nat) : Nat := popCount n v.toNat

/-- The lowest set bit below n, from bit k on. -/
def firstBit (v : Nat) : Nat → Nat → Option Nat
  | 0, _ => none
  | n + 1, k => if v / 2 ^ k % 2 = 1 then some k else firstBit v n (k + 1)

/-! ## Permutes (R298) -/

/-- va and vd of equal widths, vd distinct from va where the form says so. -/
def permTypes (i : Instr) (d a : VReg) (distinct : Bool) : Act Elem := do
  let td ← typeOf i d
  let ta ← typeOf i a
  require i (decide (td.width = ta.width) && (! distinct || decide (d ≠ a)))
  pure td

/-- Raw elements written to vd over active i. -/
def writeRaw (i : Instr) (m : Bool) (d : VReg) (t : Elem) (w : Nat) (e : VEntry) (lim : Nat) (f : State → Nat → Nat) : Act Bool :=
  overStrip i w none e lim fun s _ lo hi =>
    let os := outs s m lo hi fun k => { val := f s k }
    markDirty (setReg s d (writeOuts s.st.v[d.val] t.bytes lo os)) d

/-- The slide count of VSLIDE, signed. -/
def slideCount (b : XISrc) (op : Word) : Int :=
  match b with
  | .vx _ => op.toInt
  | .vi k => k.toInt

/-- VSLIDE: D := Elem(va, i − k) if 0 ≤ i − k < vl, else zero. -/
def runVslide (m : Bool) (d a : VReg) (b : XISrc) (fw : Fwd) (e : VEntry) (lim : Nat) : Act Bool := do
  let i : Instr := .vslide m d a b
  let t ← permTypes i d a true
  writeRaw i m d t t.width e lim fun s j =>
    let k := (j : Int) - slideCount b e.op0
    if 0 ≤ k ∧ k < e.vl then readA s fw a t.bytes k.toNat else 0

/-- VPERM: D := Elem(va, j) with j = Elem(vb, i) unsigned; zero when j ≥ vl. -/
def runVperm (m : Bool) (d a b : VReg) (fw : Fwd) (e : VEntry) (lim : Nat) : Act Bool := do
  let i : Instr := .vperm m d a b
  let t ← permTypes i d a true
  let tb ← typeOf i b
  require i (tb.isInt && decide (d ≠ b))
  writeRaw i m d t (max t.width tb.width) e lim fun s j =>
    let k := elemAt s b tb.bytes j
    if k < e.vl then readA s fw a t.bytes k else 0

/-- VCOMP: the elements of va under m0 are packed into the front of vd. -/
def runVcomp (d a : VReg) (fw : Fwd) (e : VEntry) (_lim : Nat) : Act Bool := do
  let i : Instr := .vcomp d a
  let t ← permTypes i d a true
  whole t.width e fun s =>
    if e.vl = 0 then s
    else
      let ks := (List.range e.vl).filter fun k => maskBit s 0 k
      let os := ks.map fun k => some { val := readA s fw a t.bytes k : Out }
      markDirty (setReg s d (writeOuts s.st.v[d.val] t.bytes 0 os)) d

/-- VIOTA: D := count of set ma bits below i. -/
def runViota (m : Bool) (d : VReg) (a : MReg) (e : VEntry) (lim : Nat) : Act Bool := do
  let i : Instr := .viota m d a
  let t ← typeOf i d
  require i t.isInt
  writeRaw i m d t t.width e lim fun s j => countMask s.st.m[a.val] j

/-- VMV: a register, the low bits of x[b], or the immediate. -/
def runVmv (m : Bool) (d : VReg) (b : MvSrc) (fw : Fwd) (e : VEntry) (lim : Nat) : Act Bool := do
  let i : Instr := .vmv m d b
  match b with
  | .vv a =>
    let t ← permTypes i d a false
    writeRaw i m d t t.width e lim fun s j => readA s fw a t.bytes j
  | .vx _ =>
    let t ← typeOf i d
    writeRaw i m d t t.width e lim fun _ _ => e.op0.toNat % 2 ^ t.width
  | .vi k =>
    let t ← typeOf i d
    writeRaw i m d t t.width e lim fun _ _ => wrapTo t.width k.toInt

/-- VMVI: if x[a] < vl, element x[a] of vd := x[b]. -/
def runVmvi (d : VReg) (b a : XReg) (e : VEntry) (_lim : Nat) : Act Bool := do
  let t ← typeOf (.vmvi d b a) d
  apply fun s =>
    let s := charge s t.width 0 (min 1 e.vl)
    setVstart (if e.op0.toNat < e.vl then markDirty (setElem s d t.bytes e.op0.toNat e.op1.toNat) d else s) 0
  pure true

/-! ## Reductions and scans (R42, R43, R299, R300) -/

/-- One level of the tree: neighbours combine, and an absent one leaves the other. -/
def pairUp (op : Nat → Nat → Nat × Flags) : List (Option Nat) → List (Option Nat) × Flags
  | some x :: some y :: t =>
    let r := op x y
    let u := pairUp op t
    (some r.1 :: u.1, r.2 ||| u.2)
  | some x :: none :: t => let u := pairUp op t; (some x :: u.1, u.2)
  | none :: y :: t => let u := pairUp op t; (y :: u.1, u.2)
  | t => (t, 0)

/-- The pairwise tree over element indices (R42), by levels. -/
def tree (op : Nat → Nat → Nat × Flags) : Nat → List (Option Nat) → Option Nat × Flags
  | 0, t => (t.headD none, 0)
  | n + 1, t =>
    if t.length ≤ 1 then (t.headD none, 0)
    else
      let u := pairUp op t
      let r := tree op n u.1
      (r.1, u.2 ||| r.2)

/-- One combination of a reduction in the format of t. -/
def redStep (t : Elem) (o : RedOp) (x y : Nat) : Nat × Flags :=
  match t with
  | .flt f =>
    let a := decodeFloat f x
    let b := decodeFloat f y
    let (r, g) := match o with
      | .sum => addNum false a b
      | .max => minMaxNum true a b
      | _ => minMaxNum false a b
    let (c, h) := encodeFloat f .ne r
    (c, g ||| h)
  | _ =>
    let a := intOf t x
    let b := intOf t y
    let r : Int := match o with
      | .sum => a + b
      | .max => max a b
      | .min => min a b
      | .and => ((x &&& y : Nat) : Int)
      | .or => ((x ||| y : Nat) : Int)
      | .xor => ((x ^^^ y : Nat) : Int)
    (wrapTo t.width r, 0)

/-- The identity of a reduction (R299). -/
def redUnit (t : Elem) (o : RedOp) : Nat :=
  match t with
  | .flt f =>
    (encodeFloat f .ne (match o with | .sum => .fin true 0 0 | .max => .inf true | _ => .inf false)).1
  | _ =>
    let (lo, hi) := intRange t.width t.isSigned
    match o with
    | .sum | .or | .xor => 0
    | .max => wrapTo t.width lo
    | .min => wrapTo t.width hi
    | .and => 2 ^ t.width - 1

/-- The operation exists for the element type: no q8 or e8, and bitwise ones on integers only (R291, R299). -/
def redOk (t : Elem) (o : RedOp) : Bool :=
  match o with
  | .sum | .max | .min => t.isInt || t.isBinary
  | _ => t.isInt

/-- Elements lo to hi − 1 reduced, active ones only. -/
def reduce (s : State) (t : Elem) (o : RedOp) (m : Bool) (read : Nat → Nat) (lo hi : Nat) : Nat × Flags :=
  let xs := (List.range (hi - lo)).map fun k =>
    if active s m (lo + k) && decide (vstart s ≤ lo + k) then some (read (lo + k)) else none
  let r := tree (redStep t o) (xs.length + 1) xs
  (r.1.getD (redUnit t o), r.2)

/-- VRED into element 0 of vd (R299): it writes its identity even with no active element. -/
def runVred (m : Bool) (o : RedOp) (d : Fin 32) (a : VReg) (fw : Fwd) (e : VEntry) (_lim : Nat) : Act Bool := do
  let i : Instr := .vred m false o d a
  let t ← typeOf i a
  require i (decide ((← typeOf i d) = t) && redOk t o)
  whole t.width e fun s =>
    let r := reduce s t o m (readA s fw a t.bytes) 0 e.vl
    (markDirty (setElem s d t.bytes 0 r.1) d).raise r.2

/-- VSEGRED: one tree for each segment of L elements (R299). -/
def segForm (i : Instr) (m : Bool) (o : RedOp) (d a : VReg) (fw : Fwd) (e : VEntry) : Act Bool := do
  let t ← typeOf i a
  let L := e.op0.toNat % 2 ^ 15
  require i (decide ((← typeOf i d) = t) && redOk t o && decide (d ≠ a) && decide (1 ≤ L) && decide (L ≤ 16384))
  whole t.width e fun s =>
    if e.vl = 0 then s
    else
      let rs := (List.range (ceilDiv e.vl L)).map fun k => reduce s t o m (readA s fw a t.bytes) (k * L) (min (k * L + L) e.vl)
      let os := rs.map fun r => some { val := r.1, flags := r.2 : Out }
      commitFlags (markDirty (setReg s d (writeOuts s.st.v[d.val] t.bytes 0 os)) d) os

/-- VSEGRED sum. -/
def runVsegredSum (m : Bool) (d a : VReg) (b : XReg) (fw : Fwd) (e : VEntry) (_lim : Nat) : Act Bool :=
  segForm (.vsegredSum m d a b) m .sum d a fw e
/-- VSEGRED max. -/
def runVsegredMax (m : Bool) (d a : VReg) (b : XReg) (fw : Fwd) (e : VEntry) (_lim : Nat) : Act Bool :=
  segForm (.vsegredMax m d a b) m .max d a fw e
/-- VSEGRED min. -/
def runVsegredMin (m : Bool) (d a : VReg) (b : XReg) (fw : Fwd) (e : VEntry) (_lim : Nat) : Act Bool :=
  segForm (.vsegredMin m d a b) m .min d a fw e

/-- The prefix sums from p over elements lo to hi − 1: masked-off ones repeat the sum (R43). -/
def scanOuts (s : State) (t : Elem) (m : Bool) (read : Nat → Nat) : Nat → Nat → Nat → List (Option Out)
  | 0, _, _ => []
  | n + 1, k, p =>
    let (q, g) := if active s m k then redStep t .sum p (read k) else (p, 0)
    some { val := q, flags := g } :: scanOuts s t m read n (k + 1) q

/-- VSCAN: the inclusive prefix sum, sequential and resumable (R43, R300). -/
def runVscan (m : Bool) (d a : VReg) (fw : Fwd) (e : VEntry) (lim : Nat) : Act Bool := do
  let i : Instr := .vscan m d a
  let t ← typeOf i a
  require i (decide ((← typeOf i d) = t) && redOk t .sum && decide (d ≠ a))
  overStrip i t.width none e lim fun s _ lo hi =>
    let p := if lo = 0 then redUnit t .sum else elemAt s d t.bytes (lo - 1)
    let os := scanOuts s t m (readA s fw a t.bytes) (hi - lo) lo p
    commitFlags (markDirty (setReg s d (writeOuts s.st.v[d.val] t.bytes lo os)) d) os

/-! ## Results on the scalar side (R55) -/

/-- Element bits as a scalar: sign-extended under an i tag, zero-extended otherwise (R298). -/
def toScalar (t : Elem) (c : Nat) : Word := if t.isSigned then BitVec.ofInt 64 (signed t.width c) else w64 c

end Sys2Proof.Machine
end

