-- ==== Sys2Proof/Machine/VecConv.lean ====
section
/-! DEFINITION. Conversions with block scales and the running maximum (R302 to R305, R39, R41), and the attention forms of
the VIQ (R307, R308). -/

namespace Sys2Proof.Machine

/-! ## VCVT (R302, R303) -/

/-- vsc, the register of block scales. -/
def vsc : VReg := 7

/-- Block scale of element k: byte ⌊k ÷ 8⌋ of vsc. -/
def scaleAt (s : State) (k : Nat) : Nat := elemAt s vsc 1 (k / 8)

/-- The mode a VCVT modifier rounds an element k by; error feedback rounds nearest-even. -/
def cvtMode (r : CvtMode) (k : Nat) : Mode :=
  match r with
  | .ne | .ef => .ne
  | .z => .tz
  | .sr => .sr (grain k)

/-- A value shifted by 2^k. -/
def shiftNum (v : Num) (k : Int) : Num :=
  match v with
  | .fin neg m e => .fin neg m (e + k)
  | v => v

/-- A value written under a destination type: its code, its flags and whether it clamped (R36, R302, R303). `sc` is the block
scale of a scaled q8 destination, `exact` the integer a source integer stands for. -/
def cvtValue (td : Elem) (mode : Mode) (sc : Option Nat) (exact : Option Int) (v : Num) : Out :=
  match td with
  | .int w sg =>
    match exact with
    | some x => let r := clampInt w sg x; { val := wrapTo w r.1, sat := r.2 }
    | none => let r := encodeInt w sg mode v; { val := wrapTo w r.1, flags := r.2 }
  | .flt f =>
    let v := match sc with
      | some k => if k = 255 then .nan false else shiftNum v (127 - (k : Int))
      | none => v
    let r := encodeFloat f mode v
    { val := r.1, flags := r.2 ||| flagIf v.isNan flagNV }
  | .e8 => { val := 0 }

/-- One element converted (R302): the source value, scaled when a scaled source is q8, is offered to `amax` (R41). -/
def cvtOut (ta td : Elem) (r : CvtMode) (src dst : Option Nat) (k x : Nat) : Out :=
  let v := decodeElem ta x
  let v := match src with
    | some q => scaleNum v q
    | none => v
  let o := cvtValue td (cvtMode r k) dst (if ta.isInt then some (intOf ta x) else none) v
  { o with amax := v, flags := o.flags ||| flagIf v.isNan flagNV }

/-- One element under error feedback with the residual c (R39): the code, and the new residual. -/
def efOut (ta td : Elem) (src dst : Option Nat) (c : Word32) (x : Nat) : Out :=
  let v := decodeElem ta x
  let v := match src with
    | some q => scaleNum v q
    | none => v
  let (t, g) := addNum false v (decodeFloat fmtF32 c.toNat)
  let (sc, h) := encodeFloat fmtF32 .ne t
  let sv := decodeFloat fmtF32 sc
  let o := cvtValue td .ne dst none sv
  let y := decodeElem td o.val
  let y := match dst with
    | some q => scaleNum y q
    | none => y
  let bad := sv.isNan || sv.isInf || y.isNan || y.isInf || (o.flags &&& flagOF) ≠ 0
  let c' := if bad then 0 else (encodeFloat fmtF32 .ne (addNum false sv y.flip).1).1
  { o with amax := v, flags := g ||| h ||| o.flags ||| flagIf v.isNan flagNV, carry := some (BitVec.ofNat 32 c') }

/-- The elements of an error-feedback conversion, in order: inactive ones pass the residual through. -/
def efOuts (s : State) (m : Bool) (f : Word32 → Nat → Out) : Nat → Nat → Word32 → List (Option Out)
  | 0, _, _ => []
  | n + 1, k, c =>
    if active s m k then
      let o := f c k
      some o :: efOuts s m f n (k + 1) (o.carry.getD c)
    else none :: efOuts s m f n (k + 1) c

/-- VCVT in either form. -/
def cvtForm (i : Instr) (r : CvtMode) (scaled m : Bool) (d a : VReg) (e : VEntry) : Act Form := do
  let td ← typeOf i d
  let ta ← typeOf i a
  require i (decide (td ≠ .e8) && decide (ta ≠ .e8) && (decide (d ≠ a) || decide (td.width = ta.width)))
  require i (! td.isInt || decide (r = .ne) || decide (r = .z))
  if scaled then
    let s ← get
    require i ((td.isQ8 != ta.isQ8) && decide (elemType s vsc = some .e8) && decide (d ≠ vsc) && decide (a ≠ vsc)
      && decide (e.vl ≤ 8 * regBytes s))
  let src (s : State) (k : Nat) : Option Nat := if scaled && ta.isQ8 then some (scaleAt s k) else none
  let dst (s : State) (k : Nat) : Option Nat := if scaled && td.isQ8 then some (scaleAt s k) else none
  pure { d := d, bytes := td.bytes, widest := max td.width ta.width, a := a, abytes := ta.bytes,
         strip := fun s A _ lo hi =>
           if r = .ef then
             efOuts s m (fun c k => efOut ta td (src s k) (dst s k) c (A k)) (hi - lo) lo s.st.csr.vcarry
           else outs s m lo hi fun k => cvtOut ta td r (src s k) (dst s k) k (A k) }

/-- VCVT vd, va. -/
def formVcvt (r : CvtMode) (c m : Bool) (d a : VReg) (e : VEntry) : Act Form := cvtForm (.vcvt r c m d a) r false m d a e
/-- VCVT vd, va, vsc. -/
def formVcvtScaled (r : CvtMode) (c m : Bool) (d a : VReg) (e : VEntry) : Act Form :=
  cvtForm (.vcvtScaled r c m d a) r true m d a e

/-! ## VAMAX and VSCALE (R304, R305) -/

/-- VAMAX: every active element is offered to `amax`; a NaN sets NV. -/
def runVamax (m : Bool) (a : VReg) (fw : Fwd) (e : VEntry) (lim : Nat) : Act Bool := do
  let i : Instr := .vamax m a
  let t ← typeOf i a
  require i (t.isBinary || t.isQ8)
  overStrip i t.width none e lim fun s _ lo hi =>
    commitFlags s (outs s m lo hi fun k =>
      let v := decodeElem t (readA s fw a t.bytes k)
      { val := 0, amax := v, flags := flagIf v.isNan flagNV })

/-- M × 2^(127 − s) ≤ Xmax. -/
def scaleFits (f : FloatFmt) (v : Num) (s : Nat) : Bool :=
  ! ltNum false (decodeMag f false f.max) (shiftNum v (127 - (s : Int)))

/-- The smallest s from k on, of n candidates, that fits; 254 when none does. -/
def smallestScale (f : FloatFmt) (v : Num) : Nat → Nat → Nat
  | 0, _ => 254
  | n + 1, k => if scaleFits f v k then k else smallestScale f v n (k + 1)

/-- The scale byte of a block's values for a target format (R33). -/
def blockScale (f : FloatFmt) (vs : List Num) : Nat :=
  if vs.any Num.isNan then 255
  else
    let big := (vs.filter fun v => ! v.isInf).foldl (fun a v => if ltNum false a v.mag then v.mag else a) (.fin false 0 0)
    if big.isZero then 127 else smallestScale f big 255 0

/-- VSCALE: block scales for va into vd, blocks of 8 committed whole (R305). -/
def runVscale (m : Bool) (f : BitVec 5) (d a : VReg) (fw : Fwd) (e : VEntry) (_lim : Nat) : Act Bool := do
  let i : Instr := .vscale m f d a
  let td ← typeOf i d
  let ta ← typeOf i a
  require i (decide (td = .e8) && ta.isBinary)
  match elemOf (BitVec.ofNat 6 (0x10 + f.toNat)) with
  | some (.flt q) =>
    overStrip i ta.width none e e.vl fun s _ lo hi =>
      let os := (List.range (ceilDiv hi 8 - lo / 8)).map fun j =>
        let ks := (List.range 8).map fun t => 8 * (lo / 8 + j) + t
        let vs := (ks.filter fun k => decide (k < e.vl) && active s m k).map fun k => decodeElem ta (readA s fw a ta.bytes k)
        if vs.isEmpty then none
        else some { val := blockScale q vs, flags := flagIf (vs.any Num.isNan) flagNV : Out }
      commitFlags (markDirty (setReg s d (writeOuts s.st.v[d.val] 1 (lo / 8) os)) d) os
  | _ => illegal i

/-! ## Attention (R307, R308) -/

/-- VEXPM: exp(A − m), each rounded to f32 (R308). -/
def formVexpm (c m : Bool) (d a : VReg) (b : XReg) (e : VEntry) : Act Form := do
  let i : Instr := .vexpm c m d a b
  let td ← typeOf i d
  let ta ← typeOf i a
  require i (decide (td = .flt fmtF32) && decide (ta = .flt fmtF32))
  pure { d := d, bytes := 4, widest := 32, a := a, abytes := 4,
         strip := fun s A _ lo hi => outs s m lo hi fun k =>
           let (v, g) := addNum false (decodeFloat fmtF32 (A k)) (decodeFloat fmtF32 e.op0.toNat).flip
           let (t, h) := encodeFloat fmtF32 .ne v
           let (w, p) := expFn (decodeFloat fmtF32 t)
           let (r, q) := encodeFloat fmtF32 .ne w
           { val := r, flags := g ||| h ||| p ||| q } }

/-- The dot product of one segment: each product rounded to f32, summed by the tree of R42. -/
def segmentDot (f : FloatFmt) (x y : Nat → Nat) (L : Nat) : Nat × Flags :=
  let ps := (List.range L).map fun k =>
    let (p, g) := mulNum (decodeFloat f (x k)) (decodeFloat f (y k))
    let (c, h) := encodeFloat fmtF32 .ne p
    (c, g ||| h)
  let r := tree (redStep (.flt fmtF32) .sum) (L + 1) (ps.map fun p => some p.1)
  (r.1.getD 0, ps.foldl (fun a p => a ||| p.2) r.2)

/-- VSCORE and VACCP: windowed dot products of segments (R307). `acc` adds into vd and leaves it outside the window. -/
def scoreForm (i : Instr) (acc m : Bool) (d a : VReg) (fw : Fwd) (e : VEntry) : Act Bool := do
  needReg i (a.val + 1)
  let a1 : VReg := Fin.ofNat 32 (a.val + 1)
  let td ← typeOf i d
  let ta ← typeOf i a
  let tb ← typeOf i a1
  let L := bits e.op0 0 16
  let o := signed 32 (bits e.op0 16 32)
  require i (decide (1 ≤ L) && decide (L ≤ 16384) && decide (bits e.op0 48 16 = 0) && decide (0 < e.vl) && decide (e.vl % L = 0))
  require i (decide (ta = tb) && ta.isBinary && decide (ta.width < 64) && decide (td = .flt fmtF32) && decide (d ≠ a) && decide (d ≠ a1))
  match ta with
  | .flt f =>
    let n := e.vl / L
    apply fun s =>
      let lo := vstart s
      let os := outs s m lo (max lo n) fun k =>
        let j := (k : Int) + o
        if 0 ≤ j ∧ j < n then
          let t := segmentDot f (fun q => readA s fw a ta.bytes (k * L + q)) (fun q => elemAt s a1 ta.bytes (j.toNat * L + q)) L
          if acc then
            let (c, g) := redStep (.flt fmtF32) .sum (elemAt s d 4 k) t.1
            { val := c, flags := t.2 ||| g }
          else { val := t.1, flags := t.2 }
        else if acc then { val := elemAt s d 4 k }
        else { val := 0xFF800000 }
      let os := if acc then os.mapIdx fun q o' =>
          let j := ((lo + q : Nat) : Int) + o
          if 0 ≤ j ∧ j < n then o' else none
        else os
      let s := commitFlags (markDirty (setReg s d (writeOuts s.st.v[d.val] 4 lo os)) d) os
      setVstart (charge s (max ta.width td.width) (lo * L) e.vl) 0
    pure true
  | _ => illTyped i

/-- VSCORE. -/
def runVscore (m : Bool) (d a : VReg) (b : XReg) (fw : Fwd) (e : VEntry) (_lim : Nat) : Act Bool :=
  scoreForm (.vscore m d a b) false m d a fw e
/-- VACCP. -/
def runVaccp (m : Bool) (d a : VReg) (b : XReg) (fw : Fwd) (e : VEntry) (_lim : Nat) : Act Bool :=
  scoreForm (.vaccp m d a b) true m d a fw e

end Sys2Proof.Machine
end

