-- ==== Sys2Proof/Machine/VecScalar.lean ====
section
/-! DEFINITION. The instructions of the vector chapter that run on the scalar side: VCFG, VSETVL, VTAGRD, VMVX, MPOP, MFIRST,
VRED with a scalar destination, and SSOFT (R55, R288 to R290, R297 to R299, R309). -/

namespace Sys2Proof.Machine

/-! ## What a VIQ entry writes (R55) -/

/-- Register numbers from r on, n of them. -/
def regsFrom (r n : Nat) : List Nat := (List.range n).map (r + ·)

/-- Vector registers an instruction writes, VTAG's tags included. -/
def writesV (i : Instr) : List Nat :=
  match i with
  | .vtag _ n d => regsFrom d.val (n.val + 1)
  | .vadd _ _ d _ _ | .vsub _ _ d _ _ | .vrsub _ _ d _ _ | .vmul _ _ d _ _ | .vmulh _ _ d _ _ | .vdiv _ _ d _ _
  | .vrem _ _ d _ _ | .vmin _ _ d _ _ | .vmax _ _ d _ _ | .vand _ _ d _ _ | .vor _ _ d _ _ | .vxor _ _ d _ _
  | .vsll _ _ d _ _ | .vsrl _ _ d _ _ | .vsra _ _ d _ _ | .vfma _ _ d _ _ | .vfnma _ _ d _ _
  | .vabs _ _ d _ | .vneg _ _ d _ | .vsel _ d _ _ => [d.val]
  | .vaddc _ _ _ d _ _ | .vsubb _ _ _ d _ _ | .vmadw _ _ d _ _ | .vnshr _ _ d _ _ | .vsadd _ _ d _ _ | .vssub _ _ d _ _
  | .vavg _ _ d _ _ => [d.val]
  | .mmvToVector d _ => [d.val]
  | .vslide _ d _ _ | .vperm _ d _ _ | .vcomp d _ | .viota _ d _ | .vmv _ d _ | .vmvi d _ _ | .vred _ _ _ d _ | .vscan _ d _
  | .vsegredSum _ d _ _ | .vsegredMax _ d _ _ | .vsegredMin _ d _ _ => [d.val]
  | .vrcp _ _ d _ | .vrsq _ _ d _ | .vsqrt _ _ d _ | .vexp2 _ _ d _ | .vlog2 _ _ d _ | .vtanh _ _ d _ => [d.val]
  | .vcvt _ _ _ d _ | .vcvtScaled _ _ _ d _ | .vscale _ _ d _ => [d.val]
  | .vscore _ d _ _ | .vexpm _ _ d _ _ | .vaccp _ d _ _ => [d.val]
  | .vld _ _ d _ | .vldStrided _ _ d _ _ | .vldx _ _ d _ _ | .vamo _ _ _ _ _ d _ _ => [d.val]
  | .vldseg n _ _ d _ _ => regsFrom d.val (n.val + 1)
  | .vmergeu _ d _ _ => regsFrom d.val 2
  | .vsqres _ _ d _ | .vsqld _ _ d _ _ | .vsqldX _ _ d _ _ => [d.val]
  | .dxtr _ _ d _ | .dmv d _ _ _ | .dmvM d _ _ _ | .dpiv _ d _ | .tcolmv _ d _ _ => [d.val]
  | _ => []

/-- Masks an instruction writes. -/
def writesM (i : Instr) : List Nat :=
  match i with
  | .vaddc q _ _ _ _ _ | .vsubb q _ _ _ _ _ => [q.val]
  | .vcmp _ _ d _ _ | .mand d _ _ | .mor d _ _ | .mxor d _ _ | .mandn d _ _ | .mnot d _ | .mslide d _ _ | .mset d _
  | .mmvMask d _ | .mmvFromVector d _ => [d.val]
  | .vsqld _ _ _ _ _ | .vsqldX _ _ _ _ _ => [0]
  | .dpiv _ _ _ => [7]
  | _ => []

/-- Wait for the entries that write a listed register or mask (R55). -/
def awaitWrites (rs ms : List Nat) : Act Unit :=
  awaitEntries fun e => (writesV e.instr).any rs.contains || (writesM e.instr).any ms.contains

/-- The masks a `.m` form reads. -/
def maskReads (m : Bool) : List Nat := if m then [0] else []

/-- `vstart` after a scalar-side form: 0, unless it is the progress of a VIQ head (R297). -/
def clearVstart (s : State) : State := if s.st.viq = [] then setVstart s 0 else s

/-- `vstart` as a scalar-side form sees it. -/
def ownVstart (s : State) : State := if s.st.viq = [] then s else setVstart s 0

/-! ## Configuration (R288, R289) -/

/-- Register-file units a strand's `vcfg` grants: none once it is refused or its registers are gone (R57). -/
def vcfgUnits (w : Word) : Nat := if w.getLsbD 63 then 0 else bits w 16 5

/-- Register-file units of a strand that no other strand may take: its reservation or its grant (R84). -/
def heldUnits (t : Strand) : Nat := max t.item.units (vcfgUnits t.csr.vcfg)

/-- The four strands of a core. -/
def strandsOf (c : Nat) : List Nat := [4 * c, 4 * c + 1, 4 * c + 2, 4 * c + 3]

/-- Units a strand may be granted: its own reservation, and the core's units neither reserved nor granted (R288). -/
def unitsAvail (s : State) (n : Nat) : Nat :=
  let c := coreOf n
  let own := (getStrand s n).item.units
  let others := (((strandsOf c).filter (· ≠ n)).map fun k => heldUnits (getStrand s k)).sum
  own + (4 * laneGroups (getCore s c) - (own + others))

/-- A VCFG request that Table 17.1 accepts. -/
def requestOk (w : Word) : Bool :=
  decide (bits w 20 44 = 0) && decide (bits w 15 1 = 0) && decide (bits w 16 2 < 3) && decide (bits w 0 15 ≤ 16384)

/-- The strand without its register-file grant: registers, masks, tags and `vdirty` are 0 (R53, R288). -/
def dropVectors (t : Strand) : Strand :=
  { t with v := Vector.replicate 32 {}, m := Vector.replicate 8 0, csr := { t.csr with vdirty := 0, vcfg := 0, vlmax := 0 } }

/-- What VCFG grants for a request: (vcfg, vl, vlmax), the refusal included. -/
def grant (w : Word) (e avail : Nat) : Word × Nat × Nat :=
  let c := 8 * 2 ^ bits w 16 2
  let b := 2 ^ bits w 18 2
  let avl := bits w 0 15
  let g := 128 * e
  let want := if avl = 0 then 16384 else avl
  let need := ceilDiv (c * roundUp (want * b) g) 8192
  let u := min need avail
  let rb := u * 8192 / c / g * g
  if ! requestOk w || decide (rb = 0) then (w64 (2 ^ 63), 0, 0)
  else
    let vm := min (rb / b) 16384
    (w64 (u * 2 ^ 16 + rb / 128 * 2 ^ 4 + bits w 18 2 * 2 ^ 2 + bits w 16 2), if avl = 0 then vm else min avl vm, vm)

/-- VCFG (R288): it waits for an empty VIQ; it never traps on its request. -/
def execVcfg (d a : XReg) (s : State) : Host.Outcome State Fault Refusal :=
  scalar 4 (do
    drained
    apply fun s =>
      let w := s.readX a
      let s := { s with st := dropVectors s.st }
      let (v, vl, vm) := grant w (laneGroups (getCore s (curCore s))) (unitsAvail s s.cur.val)
      (s.modCsr fun c => { c with vcfg := v, vl := w64 vl, vlmax := w64 vm }).writeX d (w64 vm)) s

/-- VSETVL (R289). -/
def execVsetvl (d a : XReg) (s : State) : Host.Outcome State Fault Refusal :=
  scalar 4 (apply fun s =>
    let v := if configured s then (if (s.readX a).toNat ≤ s.st.csr.vlmax.toNat then s.readX a else s.st.csr.vlmax) else 0
    (s.modCsr fun c => { c with vl := v }).writeX d v) s

/-- VTAGRD (R290): it waits until every earlier VTAG has completed. -/
def execVtagrd (d : XReg) (a : VReg) (s : State) : Host.Outcome State Fault Refusal :=
  scalar 4 (do
    awaitEntries fun e => match e.instr with | .vtag _ _ _ => true | _ => false
    needReg (.vtagrd d a) a.val
    apply fun s => s.writeX d (w64 s.st.v[a.val].tag.toNat)) s

/-! ## Elements and masks to scalar registers (R296 to R299) -/

/-- VMVX: element j of va; 0 when j ≥ vl. -/
def execVmvx (d : XReg) (a : VReg) (b : XISrc) (s : State) : Host.Outcome State Fault Refusal :=
  scalar 4 (do
    awaitWrites [a.val] []
    let t ← typeOf (.vmvx d a b) a
    apply fun s =>
      let j := match b with | .vx r => (s.readX r).toNat | .vi k => k.toNat
      s.writeX d (if j < s.st.csr.vl.toNat then toScalar t (elemAt s a t.bytes j) else 0)) s

/-- Bits 0 to vl − 1 of a mask, ANDed with m0 in a `.m` form. -/
def maskedBits (s : State) (m : Bool) (a : MReg) : Nat :=
  let v := s.st.m[a.val] &&& lowMask s.st.csr.vl.toNat
  (if m then v &&& s.st.m[0] else v).toNat

/-- MPOP: the count of set bits. -/
def execMpop (m : Bool) (d : XReg) (a : MReg) (s : State) : Host.Outcome State Fault Refusal :=
  scalar 4 (do
    awaitWrites [] (a.val :: maskReads m)
    needConfig (.mpop m d a)
    apply fun s => (clearVstart s).writeX d (w64 (popCount s.st.csr.vl.toNat (maskedBits s m a)))) s

/-- MFIRST: the lowest set bit, or −1. -/
def execMfirst (m : Bool) (d : XReg) (a : MReg) (s : State) : Host.Outcome State Fault Refusal :=
  scalar 4 (do
    awaitWrites [] (a.val :: maskReads m)
    needConfig (.mfirst m d a)
    apply fun s =>
      (clearVstart s).writeX d (match firstBit (maskedBits s m a) s.st.csr.vl.toNat 0 with
        | some k => w64 k
        | none => BitVec.allOnes 64)) s

/-- VRED with a scalar destination (R299). -/
def vredToX (m : Bool) (o : RedOp) (d : Fin 32) (a : VReg) (s : State) : Host.Outcome State Fault Refusal :=
  let i : Instr := .vred m true o d a
  scalar 4 (do
    awaitWrites [a.val] (maskReads m)
    let t ← typeOf i a
    require i (redOk t o)
    apply fun s =>
      let r := reduce (ownVstart s) t o m (fun k => elemAt s a t.bytes k) 0 s.st.csr.vl.toNat
      ((clearVstart s).raise r.2).writeX d (toScalar t r.1)) s

/-! ## SSOFT (R309) -/

/-- exp(RoundTo(f32, x − y)) rounded to f32, with its flags. -/
def expDiff (x y : Num) : Num × Flags :=
  let (v, g) := addNum false x y.flip
  let (t, h) := encodeFloat fmtF32 .ne v
  let (w, p) := expFn (decodeFloat fmtF32 t)
  let (r, q) := encodeFloat fmtF32 .ne w
  (decodeFloat fmtF32 r, g ||| h ||| p ||| q)

/-- A value as f32 bits in a scalar register. -/
def f32Word (v : Num) : Word := w64 (encodeFloat fmtF32 .ne v).1

/-- SSOFT's three results, xd, xm and xs, from xm, xs and the scores by element index, none standing for an inactive one (R309, R42). -/
def softStep (xm xs : Num) (vs : List (Option Num)) : (Word × Word × Word) × Flags :=
  if vs.any fun v => (v.map Num.isNan).getD false then
    let n := w64 fmtF32.nan
    ((n, n, n), flagNV)
  else
    let codes := vs.map fun v => v.map fun v => (encodeFloat fmtF32 .ne v).1
    let (mx, _) := tree (redStep (.flt fmtF32) .max) (vs.length + 1) codes
    let mxv := match mx with
      | some c => decodeFloat fmtF32 c
      | none => .inf true
    let (mn, f0) := minMaxNum true xm mxv
    if mn = .inf true then
      let (p, g) := mulNum xs (.fin false 1 0)
      let (pc, h) := encodeFloat fmtF32 .ne p
      let (r, k) := addNum false (decodeFloat fmtF32 pc) (.fin false 0 0)
      ((f32Word (.fin false 1 0), f32Word mn, f32Word r), f0 ||| g ||| h ||| k)
    else
      let (c, g) := expDiff xm mn
      let es := vs.map fun v => v.map fun v => expDiff v mn
      let (t, h) := tree (redStep (.flt fmtF32) .sum) (vs.length + 1) (es.map fun e => e.map fun e => (encodeFloat fmtF32 .ne e.1).1)
      let tv := decodeFloat fmtF32 (t.getD 0x80000000)
      let (p, k) := mulNum xs c
      let (pc, l) := encodeFloat fmtF32 .ne p
      let (r, n) := addNum false (decodeFloat fmtF32 pc) tv
      let (rc, o) := encodeFloat fmtF32 .ne r
      ((f32Word c, f32Word mn, w64 rc), es.foldl (fun a e => a ||| (e.map (·.2)).getD 0) (f0 ||| g ||| h ||| k ||| l ||| n ||| o))

/-- SSOFT over the active elements: d = xd, b = xm and x(b + 1) = xs (R309). -/
def execSsoft (d b : XReg) (a : VReg) (s : State) : Host.Outcome State Fault Refusal :=
  let i : Instr := .ssoft d b a
  scalar 4 (do
    awaitWrites [a.val] []
    let t ← typeOf i a
    require i (decide (t = .flt fmtF32))
    apply fun s =>
      let b1 : XReg := Fin.ofNat 32 (b.val + 1)
      let lo := vstart (ownVstart s)
      let vs := (List.range s.st.csr.vl.toNat).map fun k => if lo ≤ k then some (decodeFloat fmtF32 (elemAt s a 4 k)) else none
      let r := softStep (decodeFloat fmtF32 (s.readX b).toNat) (decodeFloat fmtF32 (s.readX b1).toNat) vs
      ((((clearVstart s).raise r.2).writeX b1 r.1.2.2).writeX b r.1.2.1).writeX d r.1.1) s

end Sys2Proof.Machine
end

