-- ==== Sys2Proof/Machine/VecMem.lean ====
section
/-! DEFINITION. Vector memory (R315 to R322, R224, R227, R228) and the merge unit (R323). -/

namespace Sys2Proof.Machine

/-! ## Elements in order -/

/-- f for n elements from i on; `vstart` names the element while f runs on it, so that a fault is precise (R179). -/
def eachElem : Nat → Nat → (Nat → Act Unit) → Act Unit
  | 0, _, _ => pure ()
  | n + 1, i, f => do
    apply (setVstart · i)
    f i
    eachElem n (i + 1) f

/-- A memory form over its elements (R315): rs are the registers it writes, w the bits an element passes through the lanes. The
elements before one that stops it are charged (R74). -/
def overElems (w : Nat) (rs : List VReg) (e : VEntry) (lim : Nat) (f : Nat → Act Unit) : Act Bool := do
  let lo := vstart (← get)
  if e.vl ≤ lo then
    apply (setVstart · 0)
    pure true
  else
    let hi := reach (← get) w e.vl lim
    apply fun s => rs.foldl markDirty s
    let (r, s) := Act.on (eachElem (hi - lo) lo f) (← get)
    match r with
    | .ok _ =>
      set (charge s w lo hi)
      advance hi e.vl
    | .error x =>
      set (charge s w lo (vstart s))
      throw x

/-- Where an element lies: aligned, mapped and permitted, not MMIO (Table 18.1), its home not in reset. -/
def locate (k : Access) (va : VAddr) (b : Nat) : Act (TlbEntry × Nat) := do
  aligned va b
  let t ← translate k va
  if t.tier = 3 then trap 0x05 (vaWord va)
  homeGuard va (t.key va.toNat)
  pure (t, t.key va.toNat)

/-! ## Uncorrectable errors (R228) -/

/-- An element of b bytes at pa reads as poisoned data: in the L1 line that serves it, or where it is read. -/
def servedPoisoned (s : State) (served : Option L1Line) (pa b : Nat) : Bool :=
  match served with
  | some l => l.poison
  | none => readPoisoned s pa b

/-- The location at va is readable and reads as poisoned data; `cached` gives the L1 line that serves it. -/
def readsPoison (s : State) (cached : TlbEntry → Nat → Option L1Line) (va : VAddr) (b : Nat) : Option Nat :=
  match (Act.on (translate .load va) s).1 with
  | .ok t =>
    let pa := t.key va.toNat
    if servedPoisoned s (cached t pa) pa b then some pa else none
  | .error _ => none

/-- A load meets poisoned data at element k: it traps there, and `tval` lists every faulting active element of the window of
64 elements, counted from lo, in which k lies. -/
def poisonTrap {α : Type} (m : Bool) (b lo vl k : Nat) (cached : Nat → TlbEntry → Nat → Option L1Line) (addrs : Nat → List VAddr) :
    Act α := do
  let s ← get
  let hi := min vl (lo + ((k - lo) / 64 + 1) * 64)
  let bad := ((List.range (hi - k)).map (k + ·)).filterMap fun j =>
    if active s m j then ((addrs j).filterMap fun a => readsPoison s (cached j) a b).head?.map fun pa => (j, pa) else none
  set (reportBad s b k bad)
  trap 0x06 (faultBits k bad)

/-! ## Loads (R315 to R318, R197, R198) -/

/-- The slot of the address a in a gathered line, if it has one: 128 ÷ size slots from its base on, one stride apart (R198). -/
def L1Line.slot (l : L1Line) (a : Nat) : Option Nat :=
  let d := (a : Int) - l.addr
  if d % l.stride = 0 ∧ 0 ≤ d / l.stride ∧ (d / l.stride).toNat < 128 / l.size then some (d / l.stride).toNat else none

/-- A gathered line holds the element at an address. -/
def L1Line.elem (l : L1Line) (a : Nat) : Option (List Byte) :=
  (l.slot a).bind fun j => (l.elems.find? fun e => e.1 = j).map (·.2)

/-- The gathered line of the core that holds the element at pa: stride and size equal the tag's, and every element at the addresses
`near` that the load needs from the line is held there (R198). -/
def hitGathered (s : State) (c pa : Nat) (stride : Int) (b : Nat) (near : List Nat) : Option L1Line :=
  (getCore s c).l1.find? fun l =>
    decide (l.size = b ∧ l.stride = stride) && (near.all fun a => (l.slot a).isNone || (l.elem a).isSome) && (l.elem pa).isSome

/-- A gathered line with its base at pa takes the elements at the addresses `near` that have a slot in it and can be read; each
is read at its home (R198, R200). It replaces a line of the same tag. -/
def fillGathered (s : State) (c : Nat) (t : TlbEntry) (pa : Nat) (stride : Int) (b : Nat) (near : List Nat) : State :=
  let l : L1Line := { addr := pa, stride := stride, size := b }
  let es := near.filterMap fun a => if readPoisoned s a b || homeInReset s a then none else (l.slot a).map fun j => (j, a)
  let s := es.foldl (fun s e => if e.2 = pa then s else homeRead s (lineOf e.2) (dieOf (4 * c)) t.dedup (curDomain s)) s
  let s := modCore s c fun k => { k with l1 := k.l1.filter fun x => ! (x.addr = pa ∧ x.stride = stride ∧ x.size = b) }
  allocL1 s c { l with elems := es.map fun e => (e.1, memRead s.mem e.2 b) }

/-- The addresses of the active elements of a strided load near element k, which lies at pa: those that may share a gathered line
and a page with it. -/
def nearElems (s : State) (m : Bool) (lo vl k b : Nat) (stride : Int) (t : TlbEntry) (pa : Nat) : List Nat :=
  let from_ := max lo (k + 1 - 128 / b)
  ((List.range (min vl (k + 128 / b) - from_)).map (from_ + ·)).filterMap fun (j : Nat) =>
    let a := (pa : Int) + ((j : Int) - k) * stride
    if active s m j ∧ (t.base : Int) ≤ a ∧ a + b ≤ t.base + t.size then some a.toNat else none

/-- The L1 line that serves the location at pa for a load, of stride st if it gathers. -/
def servedByL1 (s : State) (gather : Option Int) (near : TlbEntry → Nat → List Nat) (b : Nat) (t : TlbEntry) (pa : Nat) : Option L1Line :=
  if isLine pa then
    match gather with
    | some st => hitGathered s (curCore s) pa st b (near t pa)
    | none => hitL1 s (curCore s) pa
  else none

/-- One element loaded; `gather` is the stride of a strided load of 128 B or more, `near` what `nearElems` gives for it. -/
def loadElem (gather : Option Int) (near : TlbEntry → Nat → List Nat) (va : VAddr) (b : Nat) (bad : Act (List Byte)) : Act Nat := do
  let (t, pa) ← locate .load va b
  let s ← get
  let served := servedByL1 s gather near b t pa
  let bs ←
    if servedPoisoned s served pa b then bad
    else
      match gather, served with
      | some _, some l => pure ((l.elem pa).getD [])
      | some st, none =>
        let bs ← readAtHome t va pa b
        if isLine pa then apply fun s => fillGathered s (curCore s) t pa st b (near t pa)
        pure bs
      | none, _ => readThroughL1 t va pa b
  pure (bytesToNat bs)

/-- A load form: records of the registers rs, field f of record k at addr k f, fields ascending (R317); iw is the width of its
index elements. -/
def runLoads (m : Bool) (gather : Option Int) (iw : Nat) (rs : List VReg) (b : Nat) (addr : Nat → Nat → VAddr) (e : VEntry) (lim : Nat) :
    Act Bool := do
  let lo := vstart (← get)
  overElems (max (8 * b * rs.length) iw) rs e lim fun k => do
    if active (← get) m k then
      for (r, f) in rs.zipIdx do
        let s ← get
        let near (k : Nat) : TlbEntry → Nat → List Nat := match gather with
          | some st => nearElems s m lo e.vl k b st
          | none => fun _ _ => []
        let v ← loadElem gather (near k) (addr k f) b
          (poisonTrap m b lo e.vl k (fun j => servedByL1 s gather (near j) b) fun j => (List.range rs.length).map (addr j))
        apply fun s => setElem s r b k v

/-- An address plus a signed displacement, reduced to 48 bits (R172). -/
def offset (base : Word) (d : Int) : VAddr := vaOf (base + BitVec.ofInt 64 d)

/-- VLD: unit stride. -/
def runVld (m : Bool) (g : Lane4) (d : VReg) (b : XReg) (e : VEntry) (lim : Nat) : Act Bool := do
  let t ← typeOf (.vld m g d b) d
  runLoads m none 0 [d] t.bytes (fun k _ => offset e.op0 (k * t.bytes : Nat)) e lim

/-- The stride of a gathered line: a byte stride of 128 or more either way (R198). -/
def gatherStride (st : Int) : Option Int := if 128 ≤ st.natAbs then some st else none

/-- VLD with a byte stride. -/
def runVldStrided (m : Bool) (g : Lane4) (d : VReg) (b s : XReg) (e : VEntry) (lim : Nat) : Act Bool := do
  let t ← typeOf (.vldStrided m g d b s) d
  runLoads m (gatherStride e.op1.toInt) 0 [d] t.bytes (fun k _ => offset e.op0 (k * e.op1.toInt)) e lim

/-- The registers of a segment form: below the declared count, tags of one width (R317). -/
def segRegs (i : Instr) (n : Fin 8) (d : VReg) : Act (List VReg × Elem) := do
  needReg i (d.val + n.val)
  let rs := (List.range (n.val + 1)).map fun f => (Fin.ofNat 32 (d.val + f) : VReg)
  let t ← typeOf i d
  for r in rs do
    require i (decide ((← typeOf i r).width = t.width))
  pure (rs, t)

/-- The record stride of a segment form: nf × b when its stride register is x0, else x[s]. -/
def segStride (n : Fin 8) (b : Nat) (s : XReg) (op : Word) : Int := if s = 0 then ((n.val + 1) * b : Nat) else op.toInt

/-- VLDSEG. -/
def runVldseg (n : Fin 8) (m : Bool) (g : Lane4) (d : VReg) (b s : XReg) (e : VEntry) (lim : Nat) : Act Bool := do
  let (rs, t) ← segRegs (.vldseg n m g d b s) n d
  let st := segStride n t.bytes s e.op1
  runLoads m (gatherStride st) 0 rs t.bytes (fun k f => offset e.op0 (k * st + (f * t.bytes : Nat))) e lim

/-- An index register: an integer tag, and not the data register (R318). -/
def indexType (i : Instr) (v x : VReg) : Act Elem := do
  let t ← typeOf i x
  require i (t.isInt && decide (x ≠ v))
  pure t

/-- Addr(k) = x[base] + Elem(vi, k) × b (R318). -/
def indexed (s : State) (base : Word) (x : VReg) (tx : Elem) (b k : Nat) : VAddr :=
  offset base (intOf tx (elemAt s x tx.bytes k) * b)

/-- VLDX. -/
def runVldx (m : Bool) (g : Lane4) (d : VReg) (b : XReg) (x : VReg) (e : VEntry) (lim : Nat) : Act Bool := do
  let i : Instr := .vldx m g d b x
  let t ← typeOf i d
  let tx ← indexType i d x
  let s ← get
  runLoads m none tx.width [d] t.bytes (fun k _ => indexed s e.op0 x tx t.bytes k) e lim

/-! ## Stores (R315 to R318, R227) -/

/-- An element that a store form writes: its index, its address, its page and location, its value. -/
structure StoreElem where
  k   : Nat
  va  : VAddr
  pg  : TlbEntry
  pa  : Nat
  val : Nat
  deriving DecidableEq, Repr

/-- The fields of record k, located and not held, up to the first that stops. -/
def scanFields (b k : Nat) (addr : Nat → VAddr) : List (VReg × Nat) → Act (List StoreElem × Option Stop)
  | [] => pure ([], none)
  | (r, f) :: t => do
    let s ← get
    let place : Act (TlbEntry × Nat) := do
      let p ← locate .store (addr f) b
      holdGuard p.1 p.2
      pure p
    let (x, s') := Act.on place s
    set s'
    match x with
    | .error e => pure ([], some e)
    | .ok p =>
      let (l, e) ← scanFields b k addr t
      pure ({ k, va := addr f, pg := p.1, pa := p.2, val := elemAt s r b k } :: l, e)

/-- The records of n elements from k on, up to the first that stops, with what stops it. -/
def scanStores (m : Bool) (rs : List VReg) (b : Nat) (addr : Nat → Nat → VAddr) : Nat → Nat → Act (List StoreElem × Option (Nat × Stop))
  | 0, _ => pure ([], none)
  | n + 1, k => do
    if active (← get) m k then
      let (l, e) ← scanFields b k (addr k) rs.zipIdx
      match e with
      | some x => pure (l, some (k, x))
      | none =>
        let (l', e) ← scanStores m rs b addr n (k + 1)
        pure (l ++ l', e)
    else scanStores m rs b addr n (k + 1)

/-- The active (element, field) pairs from lo on that store to va, in order. -/
def rivals (s : State) (m : Bool) (nf lo vl : Nat) (addr : Nat → Nat → VAddr) (va : VAddr) : List (Nat × Nat) :=
  ((List.range (vl - lo)).map (lo + ·)).flatMap fun k =>
    if active s m k then ((List.range nf).filter fun f => addr k f = va).map fun f => (k, f) else []

/-- What a location receives of an element q of a strip, `later` being the elements after it, if anything (R227). Ordered: the
value of its highest-numbered active element, here when none comes after it. Unordered: with its first element, the value of any one
of the strip, by a free choice (log 8). `next` says whether the instruction goes on to name the location after the strip. -/
def received (free : Bool) (pick : VAddr → Nat) (first : StoreElem → Bool) (next : VAddr → Bool) (q : StoreElem) (later : List StoreElem) :
    Option Nat :=
  let c := q :: later.filter fun p => p.va = q.va
  if free then (if first q then (c.drop (pick q.va % c.length)).head?.map (·.val) else none)
  else if c.length = 1 && ! next q.va then some q.val else none

/-- The elements of a strip that are written, in ascending order, each location once, with what it receives. -/
def storedElems (value : StoreElem → List StoreElem → Option Nat) : List StoreElem → List StoreElem
  | [] => []
  | q :: t =>
    match value q t with
    | some v => { q with val := v } :: storedElems value t
    | none => storedElems value t

/-- Two elements lie in one line, or in one 8-byte word of a scratchpad. -/
def sameUnit (p q : StoreElem) : Bool :=
  if isSpad q.pa then decide (p.pa / 8 = q.pa / 8) else ! isSpad p.pa && decide (lineOf p.pa = lineOf q.pa)

/-- The elements behind p that a home is sent with it in one write: in its line, or its word, at one constant step (R195). -/
def writeRun (p : StoreElem) (step : Option Int) : List StoreElem → List StoreElem × List StoreElem
  | [] => ([], [])
  | q :: t =>
    let d := (q.pa : Int) - p.pa
    if sameUnit p q && step.all (· = d) then
      let r := writeRun q (some d) t
      (q :: r.1, r.2)
    else ([], q :: t)

/-- Elements of one line, or of one word of a scratchpad, are written at their home in one write (R197, R202, R210). -/
def storeUnit (b : Nat) (q : StoreElem) (more : List StoreElem) : Act Unit := do
  apply (setVstart · q.k)
  homeGuard q.va q.pa
  holdGuard q.pg q.pa
  let qs := q :: more
  apply fun s => qs.foldl (fun s p => storeL1 s (curCore s) p.pa (natToBytes b p.val)) s
  let patches (unit : Nat) : List (Nat × List Byte) := qs.map fun p => (p.pa % unit, natToBytes b p.val)
  apply fun s =>
    if isSpad q.pa then spadPatch s (q.pa / 8 * 8) (patches 8)
    else homePatch s (lineOf q.pa) (patches 128) q.pg.dedup (curDomain s)

/-- The elements are written, at most n writes. -/
def writeStores (b : Nat) : Nat → List StoreElem → Act Unit
  | 0, _ => pure ()
  | _ + 1, [] => pure ()
  | n + 1, q :: t => do
    let r := writeRun q none t
    storeUnit b q r.1
    writeStores b n r.2

/-- The element at which a store form began, or from which it goes on after a fault, is noted in its entry. -/
def noteBegun (start : Nat) (s : State) : State :=
  match s.st.viq with
  | h :: t => { s with st := { s.st with viq := { h with begun := some start } :: t } }
  | [] => s

/-- The stop is a trap: not a wait, after which the instruction goes on by itself. -/
def Stop.isTrap : Stop → Bool
  | .trap _ _ => true
  | _ => false

/-- A store form; iw is the width of its index elements. A fault at an element leaves every element below it performed (R179): an
ordered location that a later element was to write then holds the value of its highest-numbered element below the fault, and the
elements after it write it anew. A hold or a wait performs nothing early. -/
def runStores (m free : Bool) (iw : Nat) (rs : List VReg) (b : Nat) (addr : Nat → Nat → VAddr) (e : VEntry) (lim : Nat) : Act Bool := do
  let s ← get
  let lo := vstart s
  if e.vl ≤ lo then
    apply (setVstart · 0)
    pure true
  else
    let w := max (8 * b * rs.length) iw
    let nf := rs.length
    let start := e.begun.getD lo
    let hi := reach s w e.vl lim
    apply (noteBegun start)
    let (l, stop) ← scanStores m rs b addr (hi - lo) lo
    let faults := (stop.map (·.2.isTrap)).getD false
    let early ←
      if faults && ! free && decide (start < lo) then do
        let (l', _) ← scanStores m rs b addr (lo - start) start
        pure (l'.filter fun q => rivals s m nf lo e.vl addr q.va ≠ [])
      else pure []
    let past := (stop.map (·.1)).getD hi
    let next (va : VAddr) : Bool := ! faults && decide (rivals s m nf past e.vl addr va ≠ [])
    let qs := storedElems (received free (fun va => Config.scatterPick (s.freeCount + va.toNat))
      (fun q => rivals s m nf start q.k addr q.va = []) next) (early ++ l)
    writeStores b qs.length qs
    match stop with
    | some (k, x) =>
      if faults && ! free then apply (noteBegun k)
      apply fun s => charge (setVstart s k) w lo k
      throw x
    | none =>
      apply fun s => charge s w lo hi
      if free then apply fun s => { s with freeCount := s.freeCount + 1 }
      advance hi e.vl

/-- VST: unit stride. -/
def runVst (m : Bool) (g : Lane4) (v : VReg) (b : XReg) (e : VEntry) (lim : Nat) : Act Bool := do
  let t ← typeOf (.vst m g v b) v
  runStores m false 0 [v] t.bytes (fun k _ => offset e.op0 (k * t.bytes : Nat)) e lim

/-- VST with a byte stride. -/
def runVstStrided (m : Bool) (g : Lane4) (v : VReg) (b x : XReg) (e : VEntry) (lim : Nat) : Act Bool := do
  let t ← typeOf (.vstStrided m g v b x) v
  runStores m false 0 [v] t.bytes (fun k _ => offset e.op0 (k * e.op1.toInt)) e lim

/-- VSTSEG. -/
def runVstseg (n : Fin 8) (m : Bool) (g : Lane4) (v : VReg) (b x : XReg) (e : VEntry) (lim : Nat) : Act Bool := do
  let (rs, t) ← segRegs (.vstseg n m g v b x) n v
  runStores m false 0 rs t.bytes (fun k f => offset e.op0 (k * segStride n t.bytes x e.op1 + (f * t.bytes : Nat))) e lim

/-- VSTX in either form. -/
def storeIndexed (i : Instr) (m free : Bool) (v : VReg) (x : VReg) (e : VEntry) (lim : Nat) : Act Bool := do
  let t ← typeOf i v
  let tx ← indexType i v x
  let s ← get
  runStores m free tx.width [v] t.bytes (fun k _ => indexed s e.op0 x tx t.bytes k) e lim

/-- VSTX.U: a location named twice receives the value of any one of its active elements. -/
def runVstxU (m : Bool) (g : Lane4) (v : VReg) (b : XReg) (x : VReg) (e : VEntry) (lim : Nat) : Act Bool :=
  storeIndexed (.vstxU m g v b x) m true v x e lim
/-- VSTX.O: a location named twice receives the value of its highest-numbered active element. -/
def runVstxO (m : Bool) (g : Lane4) (v : VReg) (b : XReg) (x : VReg) (e : VEntry) (lim : Nat) : Act Bool :=
  storeIndexed (.vstxO m g v b x) m false v x e lim

/-! ## Apply phases (R224, R319 to R321) -/

/-- One element of an apply phase: its index, its page and its location. -/
structure PhaseElem where
  k  : Nat
  pg : TlbEntry
  pa : Nat
  deriving DecidableEq, Repr

/-- The elements of a phase from k on, n of them, up to the first that faults, with that fault. A held location parks the
instruction before the phase (R186, R190, R204). -/
def phaseElems (m : Bool) (b : Nat) (addr : Nat → VAddr) : Nat → Nat → Act (List PhaseElem × Option (Nat × BitVec 8 × Word))
  | 0, _ => pure ([], none)
  | n + 1, k => do
    if active (← get) m k then
      let (r, s) := Act.on (locate .both (addr k) b) (← get)
      set s
      match r with
      | .error (.trap c v) => pure ([], some (k, c, v))
      | .error st => throw st
      | .ok (t, pa) =>
        if isLine pa then apply fun s => atomicL1 s (curCore s) pa b
        holdGuard t pa
        let (l, f) ← phaseElems m b addr n (k + 1)
        pure ({ k := k, pg := t, pa := pa } :: l, f)
    else phaseElems m b addr n (k + 1)

/-- A location is looked up for an atomic at its home, its L1 copy gone (R197). -/
def fetchAtomic (s : State) (p : PhaseElem) (b : Nat) : State :=
  if isLine p.pa then homeFill (atomicL1 s (curCore s) p.pa b) (lineOf p.pa) p.pg.dedup (curDomain s) else s

/-- It is then rewritten. -/
def rewrite (s : State) (p : PhaseElem) (b v : Nat) : State :=
  if isSpad p.pa then spadWrite s p.pa (natToBytes b v) else writeFilled s p.pa (natToBytes b v)

/-- The end of a phase of elements from lo on, each w bits wide in the lanes: poisoned elements trap with 0x06, complete or resuming
at the fault's element; else the fault is taken; else the instruction is complete (R228, R321). -/
def endPhase (b w lo vl : Nat) (bad : List (Nat × Nat)) (fault : Option (Nat × BitVec 8 × Word)) (acq : Act Unit) : Act Bool := do
  match bad with
  | (k, _) :: _ =>
    apply fun s => charge (setVstart (reportBad s b k bad) k) w lo ((fault.map (·.1)).getD vl)
    match fault with
    | some (f, _, _) => throw (.phase (faultBits k bad) (some f))
    | none => acq; throw (.phase (faultBits k bad) none)
  | [] =>
    match fault with
    | some (f, c, v) =>
      apply fun s => charge (setVstart s f) w lo f
      trap c v
    | none =>
      acq
      apply fun s => setVstart (charge s w lo vl) 0
      pure true

/-- Sums merged by location, in the order of first appearance, each add in ascending element order (R227). -/
def mergeSums (t : Elem) (val : Nat → Nat) : List PhaseElem → List (PhaseElem × Nat × List Nat) → Flags → List (PhaseElem × Nat × List Nat) × Flags
  | [], acc, f => (acc, f)
  | p :: ps, acc, f =>
    match acc.find? fun a => a.1.pa = p.pa with
    | some a =>
      let r := redStep t .sum a.2.1 (val p.k)
      mergeSums t val ps (acc.map fun q => if q.1.pa = p.pa then (q.1, r.1, q.2.2 ++ [p.k]) else q) (f ||| r.2)
    | none => mergeSums t val ps (acc ++ [(p, val p.k, [p.k])]) f

/-- Merged sums added once to their locations; a poisoned location is not written, and its elements are bad. -/
def applySums (t : Elem) : List (PhaseElem × Nat × List Nat) → State → Flags → List (Nat × Nat) → State × Flags × List (Nat × Nat)
  | [], s, f, bad => (s, f, bad)
  | (p, v, ks) :: rest, s, f, bad =>
    let s := fetchAtomic s p t.bytes
    if poisonedAt s p.pa t.bytes then applySums t rest s f (bad ++ ks.map fun k => (k, p.pa))
    else
      let r := redStep t .sum (memNat s.mem p.pa t.bytes) v
      applySums t rest (rewrite s p t.bytes r.1) (f ||| r.2) bad

/-- An element type an apply phase works on (R319, R320). -/
def phaseType (i : Instr) (v : VReg) : Act Elem := do
  let t ← typeOf i v
  require i (t.isInt || t.isBinary)
  pure t

/-- VSCADD (R319). -/
def runVscadd (m : Bool) (g : Lane4) (v : VReg) (b : XReg) (x : VReg) (e : VEntry) (_lim : Nat) : Act Bool := do
  let i : Instr := .vscadd m g v b x
  let t ← phaseType i v
  let tx ← indexType i v x
  let s ← get
  let lo := vstart s
  if e.vl ≤ lo then
    apply (setVstart · 0)
    pure true
  else
    let (ps, fault) ← phaseElems m t.bytes (fun k => indexed s e.op0 x tx t.bytes k) (e.vl - lo) lo
    let (sums, f) := mergeSums t (fun k => elemAt s v t.bytes k) ps [] 0
    let (s, f, bad) := applySums t sums (← get) f []
    set (s.raise f)
    endPhase t.bytes (max t.width tx.width) lo e.vl (bad.mergeSort fun a b => decide (a.1 ≤ b.1)) fault (pure ())

/-- The new value of a VAMO (R320). -/
def vamoNew (t : Elem) (o : VamoOp) (old v : Nat) : Nat × Flags :=
  match o with
  | .swap => (v, 0)
  | .add => redStep t .sum old v
  | .min => redStep t .min old v
  | .max => redStep t .max old v

/-- The elements of a VAMO, in ascending order: each returns the old value it sees. -/
def applyAmo (t : Elem) (o : VamoOp) (d : VReg) : List PhaseElem → State → Flags → List (Nat × Nat) → State × Flags × List (Nat × Nat)
  | [], s, f, bad => (s, f, bad)
  | p :: ps, s, f, bad =>
    let s := fetchAtomic s p t.bytes
    if poisonedAt s p.pa t.bytes then applyAmo t o d ps s f (bad ++ [(p.k, p.pa)])
    else
      let old := memNat s.mem p.pa t.bytes
      let r := vamoNew t o old (elemAt s d t.bytes p.k)
      applyAmo t o d ps (setElem (rewrite s p t.bytes r.1) d t.bytes p.k old) (f ||| r.2) bad

/-- The ordering halves of a VAMO. -/
def vamoRelease (x : WideScope) (r : Option OrdFlag) : Act Unit := do
  match r with
  | some .rel | some .ar => if releaseWaits (wideScope x) (← get) then throw .again
  | _ => pure ()
def vamoAcquire (x : WideScope) (r : Option OrdFlag) : Act Unit :=
  match r with
  | some .acq | some .ar => acquire (wideScope x)
  | _ => pure ()

/-- VAMO (R320). -/
def runVamo (o : VamoOp) (w : WideScope) (r : Option OrdFlag) (m : Bool) (g : Lane4) (d : VReg) (b : XReg) (x : VReg)
    (e : VEntry) (_lim : Nat) : Act Bool := do
  let i : Instr := .vamo o w r m g d b x
  let t ← phaseType i d
  let tx ← indexType i d x
  let s ← get
  let lo := vstart s
  if e.vl ≤ lo then
    apply (setVstart · 0)
    pure true
  else
    vamoRelease w r
    apply (markDirty · d)
    let (ps, fault) ← phaseElems m t.bytes (fun k => indexed s e.op0 x tx t.bytes k) (e.vl - lo) lo
    let (s, f, bad) := applyAmo t o d ps (← get) 0 []
    set (s.raise f)
    endPhase t.bytes (max t.width tx.width) lo e.vl bad fault (vamoAcquire w r)

/-! ## VWAIT (R322) -/

/-- The comparisons of VWAIT. -/
def waitHolds (q : WaitCond) (t : Elem) (a b : Nat) : Bool :=
  match q with
  | .eq => decide (intOf t a = intOf t b)
  | .ne => decide (intOf t a ≠ intOf t b)
  | .ge => decide (intOf t b ≤ intOf t a)
  | .lt => decide (intOf t a < intOf t b)

/-- The line, or scratchpad word, that a location's watch is on. -/
def watchKey (pa : Nat) : Nat := if isSpad pa then pa / 8 * 8 else lineOf pa

/-- The active elements from k on, n of them, read at their homes: whether each holds, and what to watch. -/
def waitReads (m : Bool) (q : WaitCond) (t : Elem) (v : VReg) (lo vl : Nat) (addr : Nat → VAddr) : Nat → Nat → Act (Bool × List Nat)
  | 0, _ => pure (true, [])
  | n + 1, k => do
    if active (← get) m k then
      apply (setVstart · k)
      let (pg, pa) ← locate .load (addr k) t.bytes
      if readPoisoned (← get) pa t.bytes then poisonTrap m t.bytes lo vl k (fun _ _ _ => none) fun j => [addr j]
      let bs ← readAtHome pg (addr k) pa t.bytes
      let ok := waitHolds q t (bytesToNat bs) (elemAt (← get) v t.bytes k)
      let (r, l) ← waitReads m q t v lo vl addr n (k + 1)
      pure (ok && r, watchKey pa :: l)
    else waitReads m q t v lo vl addr n (k + 1)

/-- The first read's cycle is noted in the VIQ head. -/
def noteSince (s : State) : State :=
  match s.st.viq with
  | h :: t => { s with st := { s.st with viq := { h with since := some (h.since.getD s.cycle) } :: t } }
  | [] => s

/-- VWAIT: op0 is the base, op1 the timeout in units of 1,024 clocks. -/
def runVwait (x : WideScope) (q : WaitCond) (m : Bool) (g : Lane4) (v : VReg) (b : XReg) (ix : VReg) (e : VEntry) (_lim : Nat) :
    Act Bool := do
  let i : Instr := .vwait x q m g v b ix
  let t ← typeOf i v
  let tx ← indexType i v ix
  require i t.isInt
  let s ← get
  let lo := vstart s
  let (ok, ws) ← waitReads m q t v lo e.vl (fun k => indexed s e.op0 ix tx t.bytes k) (e.vl - lo) lo
  apply (setVstart · lo)
  let lim := e.op1.toNat % 2 ^ 32 * 1024
  let late := match e.since with
    | some c => decide (lim ≠ 0) && decide (lim ≤ (s.cycle - c).toNat)
    | none => false
  if ok || late then
    acquire (wideScope x)
    apply fun s => (setVstart (charge s (max t.width tx.width) lo e.vl) 0).writeX (Fin.ofNat 32 (b.val + 1)) (if ok then 0 else 1)
    pure true
  else
    apply fun s => ws.foldl watchLine (noteSince s)
    throw (.park 0x3 (.lines ws))

/-! ## VMERGEU (R323) -/

/-- The sorted union from inputs a and b of (index, raw index, value); equal indices add, and a zero sum is dropped unless
`kz`. -/
def mergeUnion (t : Elem) (kz : Bool) : Nat → List (Int × Nat × Nat) → List (Int × Nat × Nat) → List (Nat × Nat) × Flags
  | 0, _, _ => ([], 0)
  | _ + 1, [], [] => ([], 0)
  | n + 1, a :: as, [] => let r := mergeUnion t kz n as []; (a.2 :: r.1, r.2)
  | n + 1, [], b :: bs => let r := mergeUnion t kz n [] bs; (b.2 :: r.1, r.2)
  | n + 1, a :: as, b :: bs =>
    if a.1 < b.1 then let r := mergeUnion t kz n as (b :: bs); (a.2 :: r.1, r.2)
    else if b.1 < a.1 then let r := mergeUnion t kz n (a :: as) bs; (b.2 :: r.1, r.2)
    else
      let s := redStep t .sum a.2.2 b.2.2
      let zero := match t with
        | .flt f => (decodeFloat f s.1).isZero
        | _ => decide (s.1 = 0)
      let r := mergeUnion t kz n as bs
      (if kz || ! zero then (a.2.1, s.1) :: r.1 else r.1, s.2 ||| r.2)

/-- VMERGEU: op0 is x[n]. It does not read `vl`: the entries it merges are what it is charged for (log 84). -/
def runVmergeu (kz : Bool) (d : VReg) (n : XReg) (a : VReg) (e : VEntry) (_lim : Nat) : Act Bool := do
  let i : Instr := .vmergeu kz d n a
  needReg i (a.val + 3)
  needReg i (d.val + 1)
  let r (v : VReg) (k : Nat) : VReg := Fin.ofNat 32 (v.val + k)
  let ti ← typeOf i a
  let tv ← typeOf i (r a 1)
  let tj ← typeOf i (r a 2)
  let tw ← typeOf i (r a 3)
  let td ← typeOf i d
  let te ← typeOf i (r d 1)
  let s ← get
  let na := bits e.op0 0 16
  let nb := bits e.op0 16 16
  require i (decide (bits e.op0 32 32 = 0) && decide (na + nb ≤ s.st.csr.vlmax.toNat)
    && (decide (d.val + 1 < a.val) || decide (a.val + 3 < d.val)))
  require i (ti.isInt && decide (tj = ti) && decide (td = ti) && (tv.isInt || tv.isBinary) && decide (tw = tv) && decide (te = tv))
  let input (x y : VReg) (n : Nat) : List (Int × Nat × Nat) := (List.range n).map fun k =>
    let c := elemAt s x ti.bytes k
    (intOf ti c, c, elemAt s y tv.bytes k)
  let (out, f) := mergeUnion tv kz (na + nb) (input a (r a 1) na) (input (r a 2) (r a 3) nb)
  apply fun s =>
    let s := setReg s d (writeOuts s.st.v[d.val] ti.bytes 0 (out.map fun p => some { val := p.1 : Out }))
    let s := setReg s (r d 1) (writeOuts s.st.v[(r d 1).val] tv.bytes 0 (out.map fun p => some { val := p.2 : Out }))
    let s := (markDirty (markDirty s d) (r d 1)).raise f
    (setVstart (charge s (max ti.width tv.width) 0 (na + nb)) 0).writeX n (w64 out.length)
  pure true

end Sys2Proof.Machine
end

