-- ==== Sys2Proof/Machine/Diagonal.lean ====
section
/-! DEFINITION. The diagonal engine and the tiles (chapters "Diagonals and tiles" and "Diagonal and tile instructions", R110 to
R132 and R328 to R342). The accumulator store of a strand is laid out as its grant: slot s at word s × RoundUp(N, 128), tile
t after the S slots at 4,096 t. -/

namespace Sys2Proof.Machine

/-! ## Configuration (R114, R115, Table 8.2) -/

def cfgN (s : State) : Nat := bits s.st.csr.dcfg 0 15
def cfgS (s : State) : Nat := bits s.st.csr.dcfg 32 9
def cfgT (s : State) : Nat := bits s.st.csr.dcfg 41 4
/-- The accumulator kind is i32. -/
def cfgInt (s : State) : Bool := s.st.csr.dcfg.getLsbD 45
/-- The last DCFG was refused. -/
def cfgIll (s : State) : Bool := s.st.csr.dcfg.getLsbD 63

/-- Words that a request or a grant takes. -/
def grantWords (w : Word) : Nat := bits w 32 9 * roundUp (bits w 0 15) 128 + 4096 * bits w 41 4

/-- The strand has no refused DCFG, or cause 0x02. -/
def needEngine (i : Instr) : Act Unit := do require i (! cfgIll (← get))
/-- The strand has slots to name: neither a refused DCFG nor N = 0, or cause 0x02. -/
def needMatrix (i : Instr) : Act Unit := do
  let s ← get
  require i (! cfgIll s && decide (cfgN s ≠ 0))

/-- Accumulator words of a strand that no other strand may take. -/
def heldWords (t : Strand) : Nat := max (1024 * t.item.acch) (if t.csr.dcfg.getLsbD 63 then 0 else grantWords t.csr.dcfg)

/-- Words a strand may be granted: its reservation and the store's unreserved free words (R84, R114). -/
def wordsAvail (s : State) (n : Nat) : Nat :=
  let own := 1024 * (getStrand s n).item.acch
  let others := (((strandsOf (coreOf n)).filter (· ≠ n)).map fun k => heldWords (getStrand s k)).sum
  own + (Config.accWords - (own + others))

/-- A request that R114 and R331 accept. -/
def accRequestOk (w : Word) (avail : Nat) : Bool :=
  decide (bits w 15 17 = 0) && decide (bits w 46 18 = 0) && decide (bits w 32 9 ≤ 256) && decide (bits w 41 4 ≤ 8)
    && (decide (bits w 32 9 = 0) || (decide (1 ≤ bits w 0 15) && decide (bits w 0 15 ≤ 16384)))
    && decide (grantWords w ≤ avail)

/-- The strand without its slots, tiles and directory; a transfer's recorded error stays for its next TSTAT (R115, R342). -/
def dropAccum (t : Strand) : Strand :=
  { t with accum := { error := t.accum.error }, csr := { t.csr with dcfg := 0, tstat := 0 } }

/-- DCFG: op0 is the request (R115, R331). It waits until no tile is in flight. -/
def runDcfg (d _x : XReg) (e : VEntry) (_lim : Nat) : Act Bool := do
  if (← get).st.accum.flight ≠ [] then throw .again
  apply fun s =>
    let s := { s with st := dropAccum s.st }
    if accRequestOk e.op0 (wordsAvail s s.cur.val) then
      (s.modCsr fun c => { c with dcfg := e.op0 }).writeX d (w64 (grantWords e.op0))
    else (s.modCsr fun c => { c with dcfg := w64 (2 ^ 63) }).writeX d 0
  pure true

/-! ## Words and slots (R114, R116) -/

/-- First word of slot k and of tile t. -/
def slotWord (s : State) (k : Nat) : Nat := k * roundUp (cfgN s) 128
def tileWord (s : State) (t : Nat) : Nat := cfgS s * roundUp (cfgN s) 128 + 4096 * t

/-- Word k of the grant. -/
def accWord (s : State) (k : Nat) : Word32 := sget 0 s.st.accum.words k

/-- Word k := v; its poison stays (R132). -/
def setAcc (s : State) (k : Nat) (v : Word32) : State :=
  { s with st := { s.st with accum := { s.st.accum with words := sset 0 s.st.accum.words k v } } }

/-- Words lo to hi - 1 become 0, without poison and with their parity written anew (R132). -/
def clearAcc (s : State) (lo hi : Nat) : State :=
  { s with st := { s.st with accum := { s.st.accum with
      words := s.st.accum.words.filter fun e => ! decide (lo ≤ e.1 ∧ e.1 < hi)
      poison := s.st.accum.poison.filter fun k => ! decide (lo ≤ k ∧ k < hi)
      faults := s.st.accum.faults.filter fun f => ! decide (lo ≤ f.1 ∧ f.1 < hi) } } }

/-- Word k is poisoned. -/
def accPoisoned (s : State) (k : Nat) : Bool := s.st.accum.poison.contains k

/-- A directory entry that is free. -/
def freeSlot : BitVec 16 := 0x8000

/-- What slot k is bound to. -/
def dirEntry (s : State) (k : Nat) : BitVec 16 := sget freeSlot s.st.accum.dir k
/-- Slot k is bound to c, or freed. -/
def setDir (s : State) (k : Nat) (c : BitVec 16) : State :=
  { s with st := { s.st with accum := { s.st.accum with dir := sset freeSlot s.st.accum.dir k c } } }

/-- Dir(c): the slot bound to offset c (R116). -/
def dirOf (s : State) (c : Int) : Option Nat := (List.range (cfgS s)).find? fun k => decide (dirEntry s k = BitVec.ofInt 16 c)

/-- The offset c is bound to the lowest free slot, all words 0; or cause 0x07 (R116, R117). -/
def bindSlot (c : Int) : Act Nat := do
  let s ← get
  match (List.range (cfgS s)).find? fun k => decide (dirEntry s k = freeSlot) with
  | none => trap 0x07 (BitVec.ofInt 64 c)
  | some k =>
    set (setDir (clearAcc s (slotWord s k) (slotWord s (k + 1))) k (BitVec.ofInt 16 c))
    pure k

/-- FillIn(c): bound, and noted in `dstat` (R117, R118). -/
def fillIn (c : Int) : Act Nat := do
  let k ← bindSlot c
  apply fun s => s.modCsr fun r => { r with dstat := setBits (setBits r.dstat 47 1 1) 32 15 (wrapTo 15 c) }
  pure k

/-- Slot k is unbound and its contents discarded. -/
def unbindSlot (s : State) (k : Nat) : State := setDir (clearAcc s (slotWord s k) (slotWord s (k + 1))) k freeSlot

/-- `dstat`.DROP and `dstat`.OUT rise, saturating (R118). -/
def countPasses (s : State) (drop out : Nat) : State :=
  s.modCsr fun c =>
    let d := setBits c.dstat 16 16 (min (bits c.dstat 16 16 + drop) 0xFFFF)
    { c with dstat := setBits d 0 16 (min (bits d 0 16 + out) 0xFFFF) }

/-! ## The offset word (Table 8.1) -/

def aOff (w : Word) : Int := signed 16 w.toNat
def bOff (w : Word) : Int := signed 16 (bits w 16 16)
def bStep (w : Word) : Int := signed 8 (bits w 32 8)
def bCount (w : Word) : Nat := bits w 40 3 + 1

/-- Length of the diagonal of offset k. -/
def diagLen (n : Nat) (k : Int) : Nat := n - k.natAbs
/-- max(0, −k), the row of a diagonal's stored element 0. -/
def diagRow (k : Int) : Nat := (-k).toNat

/-- DDIR (R116, R332). -/
def runDdir (d x : XReg) (e : VEntry) (_lim : Nat) : Act Bool := do
  needMatrix (.ddir d x)
  apply fun s =>
    let v :=
      if BitVec.ofNat 16 e.op0.toNat = freeSlot then w64 ((List.range (cfgS s)).filter fun k => decide (dirEntry s k = freeSlot)).length
      else match dirOf s (aOff e.op0) with
        | some k => w64 k
        | none => BitVec.allOnes 64
    s.writeX d v
  pure true

/-- DFREE (R116, R332). -/
def runDfree (x : XReg) (e : VEntry) (_lim : Nat) : Act Bool := do
  needMatrix (.dfree x)
  apply fun s =>
    if BitVec.ofNat 16 e.op0.toNat = freeSlot then (List.range (cfgS s)).foldl unbindSlot s
    else match dirOf s (aOff e.op0) with
      | some k => unbindSlot s k
      | none => s
  pure true

/-! ## Data errors (R131, R132) -/

/-- A poisoned word that row or element k of a strip from lo reads: its lane, and the first row or element which that lane
carries; cause 0x06 with `tval` 1 and event 0x17. -/
def accTrap {α : Type} (lo k : Nat) : Act α := do
  apply fun s =>
    let lane := laneOfByte s (4 * k)
    let first := ((List.range (k - lo)).map (lo + ·)).find? fun j => decide (laneOfByte s (4 * j) = lane)
    let image := first.getD k % 2 ^ 14 * 2 ^ 16 + lane
    let s := postEvent s 0x17 2 s.st.ctx (w64 (image + s.cur.val * 2 ^ 32)) 0
    { s with st := { s.st with trap := { s.st.trap with tlane := BitVec.ofNat 30 image } } }
  trap 0x06 1

/-- The reads of a strip whose parity fails, of words `reads` by row or element: one whose repeat succeeds counts as corrected in the
lane group that makes it, one whose repeat fails poisons its word (R132, R371). -/
def readParity (reads : List (Nat × Nat)) (s : State) : State :=
  let a := s.st.accum
  let hits := a.faults.filter fun f => reads.any fun r => decide (r.2 = f.1)
  let bad := (hits.filter (·.2)).map (·.1)
  let s := { s with st := { s.st with accum := { a with
    poison := bad.foldl (fun p w => insertNat w p) a.poison
    faults := a.faults.filter fun f => ! hits.contains f } } }
  (reads.filter fun r => hits.contains (r.2, false)).foldl
    (fun s r => countCorrected 1 (curCore s) (Fin.ofNat 32 (laneOfByte s (4 * r.1))) s) s

/-- The words that rows or elements lo to hi - 1 read carry no poison: `word` names the word of each, if it reads one. A read whose
parity fails is repeated first (R132). -/
def accGuard (lo hi : Nat) (word : Nat → Option Nat) : Act Unit := do
  if (← get).st.accum.faults ≠ [] then
    apply (readParity (((List.range (hi - lo)).map (lo + ·)).filterMap fun k => (word k).map fun w => (k, w)))
  let s ← get
  if s.st.accum.poison ≠ [] then
    match ((List.range (hi - lo)).map (lo + ·)).find? fun k => (word k).any (accPoisoned s) with
    | some k => accTrap lo k
    | none => pure ()

/-- Strips of h rows from `vstart` to hi, as far as lim: f commits rows lo to hi - 1 (R329). -/
def engineStrips (h hi lim : Nat) (f : Nat → Nat → Act Unit) : Nat → Act Bool
  | 0 => do apply (setVstart · 0); pure true
  | fuel + 1 => do
    let lo := vstart (← get)
    if hi ≤ lo then
      apply (setVstart · 0)
      pure true
    else if lim ≤ lo then pure false
    else
      let top := min hi (lo + h)
      f lo top
      apply (setVstart · top)
      engineStrips h hi lim f fuel

/-! ## Products (R112, R113, R44) -/

/-- Table 8.3: the pair is accepted, and its accumulator kind. -/
def pairKind (ta tb : Elem) : Option Bool :=
  if ta.isQ8 && tb.isQ8 then some false
  else if ta = .flt fmtF32 ∧ tb = .flt fmtF32 then some false
  else if ta.isBinary && tb.isBinary && decide (ta.width = 16) && decide (tb.width = 16) then some false
  else if ta = .int 8 true ∧ tb = .int 8 true then some true
  else none

/-- The value of an operand, scaled by its own block when it is q8 (R32). -/
def engineNum (s : State) (t : Elem) (r : VReg) (p : Nat) : Num :=
  let v := decodeElem t (elemAt s r t.bytes p)
  if t.isQ8 then scaleNum v (scaleAt s p) else v

/-- A word plus one product: one rounding (R44), or a wrapping sum (R25). -/
def accumulate (s : State) (kind : Bool) (old : Word32) (ta : Elem) (a : VReg) (pa : Nat) (tb : Elem) (b : VReg) (pb : Nat) : Word32 × Flags :=
  if kind then
    (BitVec.ofInt 32 (old.toInt + intOf ta (elemAt s a ta.bytes pa) * intOf tb (elemAt s b tb.bytes pb)), 0)
  else
    let (p, f) := mulNum (engineNum s ta a pa) (engineNum s tb b pb)
    let (r, g) := addNum false (decodeFloat fmtF32 old.toNat) p
    let (c, h) := encodeFloat fmtF32 .ne r
    (BitVec.ofNat 32 c, f ||| g ||| h)

/-- One pass that has a slot (R112): its B register, its offsets and its slot. -/
structure Pass where
  vb   : VReg
  b    : Int
  c    : Int
  slot : Nat
  deriving DecidableEq, Repr

/-- The rows of a pass of A's offset a into the diagonal c: lo to hi - 1 (R112). -/
def passRows (n : Nat) (a c : Int) : Nat × Nat :=
  (max (diagRow a) (diagRow c), (min (n : Int) (min (n - a) (n - c))).toNat)

/-- The word that row i of a pass adds into, if it has the row. -/
def passWord (s : State) (a : Int) (p : Pass) (i : Nat) : Option Nat :=
  let (lo, hi) := passRows (cfgN s) a p.c
  if lo ≤ i ∧ i < hi then some (slotWord s p.slot + (i - diagRow p.c)) else none

/-- Rows lo to hi - 1 of a pass, in order: products added to the slot, flags raised (R112, R329). -/
def passStrip (ta tb : Elem) (va : VReg) (a : Int) (p : Pass) (lo hi : Nat) (s : State) : State :=
  (List.range (hi - lo)).foldl (fun s k =>
    let i := lo + k
    match passWord s a p i with
    | none => s
    | some w =>
      let pa := i - diagRow a
      let pb := ((i : Int) + a).toNat - diagRow p.b
      let r := accumulate s (cfgInt s) (accWord s w) ta va pa tb p.vb pb
      (setAcc s w r.1).raise r.2) s

/-- What the passes of an instruction come to: those with a slot, and how many were dropped and lay outside. -/
structure Passes where
  live : List Pass := []
  drop : Nat := 0
  out  : Nat := 0
  deriving DecidableEq, Repr

/-- The binding step (R112, R117, R120): every target that needs a slot gets one, in ascending order. -/
def bindPasses (n : Nat) (a : Int) (drop : Bool) : List (VReg × Int) → Passes → Act Passes
  | [], r => pure r
  | (vb, b) :: t, r => do
    let c := a + b
    if n ≤ c.natAbs then bindPasses n a drop t { r with out := r.out + 1 }
    else
      match dirOf (← get) c with
      | some k => bindPasses n a drop t { r with live := r.live ++ [{ vb := vb, b := b, c := c, slot := k }] }
      | none =>
        if drop then bindPasses n a drop t { r with drop := r.drop + 1 }
        else
          let k ← fillIn c
          bindPasses n a drop t { r with live := r.live ++ [{ vb := vb, b := b, c := c, slot := k }] }

/-- DMAC, DMAC.D and DMACG (R112, R120, R333, R334): checks, binding, counts and products. -/
def diagMac (i : Instr) (va vb : VReg) (g : Nat) (step : Int) (drop : Bool) (e : VEntry) (lim : Nat) : Act Bool := do
  needMatrix i
  needReg i (vb.val + g - 1)
  let ta ← typeOf i va
  let tb ← typeOf i vb
  let a := aOff e.op0
  let bs : List (VReg × Int) := (List.range g).map fun r => (Fin.ofNat 32 (vb.val + r), bOff e.op0 + r * step)
  for r in bs do
    require i (decide ((← typeOf i r.1) = tb))
  let s ← get
  let n := cfgN s
  require i (decide (pairKind ta tb = some (cfgInt s)))
  require i (! ta.isQ8 || (decide (elemType s vsc = some .e8) && decide (va ≠ vsc) && bs.all fun r => decide (r.1 ≠ vsc)))
  require i ((a :: bs.map (·.2)).all fun k => decide (k.natAbs < n) && decide (diagLen n k ≤ s.st.csr.vlmax.toNat))
  let ps ← bindPasses n a drop bs {}
  let hi := (ps.live.map fun p => (passRows n a p.c).2).foldl max 0
  let s ← get
  let fresh := decide (vstart s = 0)
  let count (s : State) : State := if fresh then countPasses s ps.drop ps.out else s
  if hi ≤ vstart s then
    set (setVstart (count s) 0)
    pure true
  else
    engineStrips (32768 / ta.width) hi lim (fun lo top => do
      for p in ps.live do
        accGuard lo top fun i => passWord s a p i
      apply fun s =>
        let s := if lo = 0 then count s else s
        ps.live.foldl (fun s p => passStrip ta tb va a p lo top s) s) (hi + 1)

/-- DMAC. -/
def runDmac (a b : VReg) (x : XReg) (e : VEntry) (lim : Nat) : Act Bool := diagMac (.dmac a b x) a b 1 0 false e lim
/-- DMAC.D: a target without a slot is dropped. -/
def runDmacD (a b : VReg) (x : XReg) (e : VEntry) (lim : Nat) : Act Bool := diagMac (.dmacD a b x) a b 1 0 true e lim
/-- DMACG: g passes. -/
def runDmacg (a b : VReg) (x : XReg) (e : VEntry) (lim : Nat) : Act Bool :=
  diagMac (.dmacg a b x) a b (bCount e.op0) (bStep e.op0) false e lim

/-! ## DZERO and DXTR (R116, R126, R332, R335) -/

/-- Words of an engine strip of DZERO and DXTR (R121). -/
def engineWords : Nat := 4096

/-- DZERO. -/
def runDzero (x : XReg) (e : VEntry) (lim : Nat) : Act Bool := do
  let i : Instr := .dzero x
  needMatrix i
  let n := cfgN (← get)
  let c := aOff e.op0
  require i (decide (c.natAbs < n))
  let k ← match dirOf (← get) c with
    | some k => pure k
    | none => bindSlot c
  engineStrips engineWords (diagLen n c) lim (fun lo hi => apply fun s => clearAcc s (slotWord s k + lo) (slotWord s k + hi))
    (diagLen n c + 1)

/-- A destination tag that a slot of the kind drains to. -/
def drainOk (kind : Bool) (t : Elem) : Bool :=
  if kind then decide (t = .int 32 true) || decide (t = .int 64 true) else t.isBinary

/-- One word drained to an element (R126, R41). -/
def drainOut (kind ne : Bool) (t : Elem) (w : Word32) : Out :=
  match t with
  | .flt f =>
    let v := decodeFloat fmtF32 w.toNat
    let r := encodeFloat f (if ne then .ne else .tz) v
    { val := r.1, flags := r.2 ||| flagIf v.isNan flagNV, amax := v }
  | _ => { val := wrapTo t.width w.toInt, amax := if kind then numOfInt w.toInt else .nan false }

/-- DXTR. -/
def runDxtr (ne m : Bool) (d : VReg) (x : XReg) (e : VEntry) (lim : Nat) : Act Bool := do
  let i : Instr := .dxtr ne m d x
  needMatrix i
  let s ← get
  let n := cfgN s
  let c := aOff e.op0
  require i (decide (c.natAbs < n))
  let t ← typeOf i d
  require i (drainOk (cfgInt s) t)
  let slot := dirOf s c
  let read (s : State) (k : Nat) : Option Nat :=
    if active s m k && decide (k < diagLen n c) then slot.map fun q => slotWord s q + k else none
  if vstart s < e.vl then apply (markDirty · d)
  engineStrips engineWords e.vl lim (fun lo hi => do
    accGuard lo hi (read s)
    apply fun s =>
      let os := (List.range (hi - lo)).map fun q =>
        let k := lo + q
        if active s m k && decide (k < diagLen n c) then
          some (drainOut (cfgInt s) ne t (match slot with | some q => accWord s (slotWord s q + k) | none => 0))
        else none
      commitFlags (setReg s d (writeOuts s.st.v[d.val] t.bytes lo os)) os) (e.vl + 1)

/-! ## DMV and DPIV (R127, R128, R336, R337) -/

/-- Elements of b bytes in one element group. -/
def groupElems (s : State) (b : Nat) : Nat := 128 * laneGroups (getCore s (curCore s)) / b

/-- DMV in either form. -/
def diagVec (i : Instr) (m : Bool) (d a b : VReg) (e : VEntry) (lim : Nat) : Act Bool := do
  let td ← typeOf i d
  let ta ← typeOf i a
  let tb ← typeOf i b
  require i (decide (d ≠ a) && decide (d ≠ b))
  require i (td.isBinary && decide (32 ≤ td.width) && ta.isBinary && tb.isBinary && decide (ta.width ≤ td.width)
    && decide (tb.width ≤ td.width))
  let k := aOff e.op0
  require i (decide (k.natAbs < e.vl))
  match td with
  | .flt f =>
    apply (markDirty · d)
    let s ← get
    engineStrips (groupElems s td.bytes) e.vl lim (fun lo hi => apply fun s =>
      let os := (List.range (hi - lo)).map fun q =>
        let j := lo + q
        let u := (j : Int) + k
        if active s m j && decide (0 ≤ u) && decide (u < e.vl) then
          let x := decodeElem ta (elemAt s a ta.bytes (j - diagRow k))
          let y := decodeElem tb (elemAt s b tb.bytes u.toNat)
          let r := fmaNum false x y (decodeFloat f (elemAt s d td.bytes j))
          let c := encodeFloat f .ne r.1
          some { val := c.1, flags := r.2 ||| c.2 : Out }
        else none
      commitFlags (setReg s d (writeOuts s.st.v[d.val] td.bytes lo os)) os) (e.vl + 1)
  | _ => illTyped i

/-- DMV. -/
def runDmv (d a b : VReg) (x : XReg) (e : VEntry) (lim : Nat) : Act Bool := diagVec (.dmv d a b x) false d a b e lim
/-- DMV.M. -/
def runDmvM (d a b : VReg) (x : XReg) (e : VEntry) (lim : Nat) : Act Bool := diagVec (.dmvM d a b x) true d a b e lim

/-- τ: |dpivtau|, a NaN acting as 0. -/
def pivotTau (w : BitVec 32) : Num :=
  let v := (decodeFloat fmtF32 w.toNat).mag
  if v.isNan then .fin false 0 0 else v

/-- The threshold of a DPIV: `dpivtau` as its first strip found it, which its VIQ entry keeps (R337). -/
def takeTau (e : VEntry) : Act (BitVec 32) := do
  match e.held with
  | some w => pure (w.truncate 32)
  | none =>
    let s ← get
    set { s with st := { s.st with viq := match s.st.viq with
      | [] => []
      | h :: t => { h with held := some (s.st.csr.dpivtau.zeroExtend 64) } :: t } }
    pure s.st.csr.dpivtau

/-- Table 8.11 for a pivot: the result with its m7 bit, and whether it was replaced. -/
def pivotOut (f : FloatFmt) (tau p : Num) : Out × Bool :=
  let one : Num := .fin false 1 0
  let inv (q : Num) : Out :=
    let r := divNum one q
    let c := encodeFloat f .ne r.1
    { val := c.1, flags := r.2 ||| c.2, bit := r.1.isInf || (c.2 &&& flagOF) ≠ 0 }
  if p.isNan then ({ val := f.nan, flags := flagNV, bit := true }, false)
  else if ! tau.isZero && ltNum false p.mag tau then (inv (if p.isNeg then tau.flip else tau), true)
  else (inv p, false)

/-- DPIV. -/
def runDpiv (m : Bool) (d a : VReg) (e : VEntry) (lim : Nat) : Act Bool := do
  let i : Instr := .dpiv m d a
  needEngine i
  let ta ← typeOf i a
  require i (decide ((← typeOf i d) = ta) && ta.isBinary && decide (32 ≤ ta.width))
  match ta with
  | .flt f =>
    let tau := pivotTau (← takeTau e)
    let s ← get
    if vstart s < e.vl then apply (markDirty · d)
    engineStrips (groupElems s ta.bytes) e.vl lim (fun lo hi => apply fun s =>
      let rs := (List.range (hi - lo)).map fun q =>
        if active s m (lo + q) then some (pivotOut f tau (decodeFloat f (elemAt s a ta.bytes (lo + q)))) else none
      let os := rs.map fun r => r.map (·.1)
      let n := (rs.filter fun r => r.any (·.2)).length
      let s := setMask (setReg s d (writeOuts s.st.v[d.val] ta.bytes lo os)) 7 (writeBits s.st.m[7] lo os)
      (commitFlags s os).modCsr fun c => { c with dpivcnt := BitVec.ofNat 32 (min (c.dpivcnt.toNat + n) 0xFFFFFFFF) }) (e.vl + 1)
  | _ => illTyped i

/-! ## DUPD (R129, R130, R338) -/

/-- A dword of the structure's descriptor at va: an ordinary load of stream `g0`; an uncorrectable error traps with the word's
address. -/
def descLoad (va : VAddr) : Act Nat := loadElem none (fun _ _ => []) va 8 (do
  let (_, pa) ← locate .load va 8
  apply fun s => errorEvent s pa 0
  trap 0x06 (vaWord va))

/-- The D diagonal entries from address va on. -/
def descDiags : Nat → VAddr → Act (List (Int × VAddr))
  | 0, _ => pure []
  | k + 1, va => do
    let w ← descLoad va
    let t ← descDiags k (va + 8)
    pure ((signed 16 (w / 2 ^ 48), BitVec.ofNat 48 w) :: t)

/-- The descriptor at va, or cause 0x02 (Table 8.13: RES fields 0, TAG, N and the alignment of each BASE). -/
def readResident (i : Instr) (va : VAddr) : Act Resident := do
  let w ← descLoad va
  let tag := w / 2 ^ 48 % 256
  let n := w % 2 ^ 15
  require i (decide (9 ≤ tag) && decide (tag ≤ 11) && decide (1 ≤ n) && decide (n ≤ 16384)
    && decide (w / 2 ^ 56 = 0) && decide (w / 2 ^ 40 % 256 = 0) && decide (w / 2 ^ 15 % 2 ^ 17 = 0))
  let ds ← descDiags (w / 2 ^ 32 % 256 + 1) (va + 8)
  let b := if tag = 11 then 4 else 2
  require i (ds.all fun d => decide (d.2.toNat % b = 0))
  pure { bytes := b, n := n, diags := ds }

/-- One change record applied, or refused and counted (R130): a BASE whose page is no scratchpad window traps with 0x05, and so does
a target outside. The RES field of a record, for which R130 gives no outcome, is not looked at (log 69). -/
def applyRecord (r : Resident) (rec : Nat) : Act Unit := do
  let refuse := apply fun s => countPasses s 0 1
  match r.diags[rec / 2 ^ 24 % 256]? with
  | none => refuse
  | some (off, base) =>
    let p : Int := (rec % 2 ^ 14 : Nat) - (diagRow off : Int)
    if p < 0 ∨ (r.n : Int) - off.natAbs ≤ p then refuse
    else
      if (← translate .store base).tier ≠ 2 then trap 0x05 (vaWord base)
      let va := base + BitVec.ofInt 48 (p * r.bytes)
      let (t, pa) ← locate .store va r.bytes
      if t.tier ≠ 2 then trap 0x05 (vaWord va)
      storeThrough t va pa (natToBytes r.bytes (rec / 2 ^ 32))

/-- The descriptor of a DUPD, read once, at its first strip: its VIQ entry keeps it (R130). -/
def takeResident (i : Instr) (e : VEntry) : Act Resident := do
  match e.desc with
  | some r => pure r
  | none =>
    let r ← readResident i (vaOf e.op0)
    apply fun s => { s with st := { s.st with viq := match s.st.viq with
      | [] => []
      | h :: t => { h with desc := some r } :: t } }
    pure r

/-- DUPD: op0 is the descriptor's address. All of its records are one strip: the spec gives a strip of DUPD no size (log 84). -/
def runDupd (m : Bool) (a : VReg) (x : XReg) (e : VEntry) (_lim : Nat) : Act Bool := do
  let i : Instr := .dupd m a x
  needEngine i
  let ta ← typeOf i a
  require i (ta.isInt && decide (ta.width = 64))
  if e.op0.toNat % 8 ≠ 0 then trap 0x03 e.op0
  let r ← takeResident i e
  let lo := vstart (← get)
  eachElem (e.vl - lo) lo fun k => do
    if active (← get) m k then applyRecord r (elemAt (← get) a 8 k)
  apply (setVstart · 0)
  pure true

/-! ## Tiles (R122 to R125, R339 to R342) -/

/-- VALID, DIRTY and FLIGHT of tile t (Table 8.9). -/
def tileBit (s : State) (t k : Nat) : Bool := s.st.csr.tstat.getLsbD (3 * t + k)
/-- A bit of a tile in `tstat` := v. -/
def setTileBit (s : State) (t k : Nat) (v : Bool) : State :=
  s.modCsr fun c =>
    let b : BitVec 24 := BitVec.ofNat 24 (2 ^ (3 * t + k))
    { c with tstat := if v then c.tstat ||| b else c.tstat &&& ~~~ b }

/-- The tile becomes VALID and DIRTY. -/
def tileWritten (s : State) (t : Nat) : State := setTileBit (setTileBit s t 0 true) t 1 true

/-- A tile form's checks: the configuration and the tile number, then the flight of the tile: a load bars every form, a save
those that write it (Table 8.10). -/
def needTile (i : Instr) (t : TReg) : Act Unit := do
  needEngine i
  require i (decide (t.val < cfgT (← get)))
def tileFlight (t : TReg) (writes : Bool) : Act Unit := do
  if (← get).st.accum.flight.any fun f => decide (f.tile = t) && (writes || ! f.save) then trap 0x0B (w64 t.val)

/-- TZERO. -/
def runTzero (t : TReg) (_e : VEntry) (_lim : Nat) : Act Bool := do
  needTile (.tzero t) t
  tileFlight t true
  apply fun s => setVstart (tileWritten (clearAcc s (tileWord s t.val) (tileWord s t.val + 4096)) t.val) 0
  pure true

/-- The element type of a tile move: width 8, 16 or 32 (R340). -/
def tileType (i : Instr) (r : VReg) : Act Elem := do
  let t ← typeOf i r
  require i (decide (t.width ≤ 32))
  pure t

/-- TROWMV: op0 gives the row and the origin (R123). -/
def runTrowmv (m : Bool) (t : TReg) (a : VReg) (x : XReg) (e : VEntry) (_lim : Nat) : Act Bool := do
  let i : Instr := .trowmv m t a x
  needTile i t
  let ta ← tileType i a
  let row := bits e.op0 0 6
  let o := bits e.op0 8 6
  require i (decide (o + e.vl ≤ 64))
  tileFlight t true
  apply fun s =>
    let lo := vstart s
    let s := (List.range (e.vl - lo)).foldl (fun s q =>
      if active s m (lo + q) then
        setAcc s (tileWord s t.val + 64 * row + o + lo + q) (BitVec.ofNat 32 (elemAt s a ta.bytes (lo + q)))
      else s) s
    setVstart (tileWritten s t.val) 0
  pure true

/-- TCOLMV (R123, R340). -/
def runTcolmv (m : Bool) (d : VReg) (t : TReg) (x : XReg) (e : VEntry) (_lim : Nat) : Act Bool := do
  let i : Instr := .tcolmv m d t x
  needTile i t
  let td ← tileType i d
  let col := bits e.op0 0 6
  let o := bits e.op0 8 6
  require i (decide (o + e.vl ≤ 64))
  tileFlight t false
  let s ← get
  let lo := vstart s
  let word (k : Nat) : Nat := tileWord s t.val + 64 * (o + k) + col
  accGuard lo e.vl fun k => if active s m k then some (word k) else none
  apply fun s =>
    let os := outs s m lo e.vl fun k => { val := (accWord s (word k)).toNat % 2 ^ td.width }
    setVstart (markDirty (setReg s d (writeOuts s.st.v[d.val] td.bytes lo os)) d) 0
  pure true

/-- The exact sum of the products of one block of a cell (R45, R341), from k on, n of them. It is formed from the last product back,
which shows only in NV where infinities of both signs meet a quiet NaN: R45 gives the block no inner order (log 84). -/
def blockSum (s : State) (ta tb : Elem) (a b : VReg) (K i j : Nat) : Nat → Nat → Num × Flags
  | 0, _ => (.fin false 0 0, 0)
  | n + 1, k =>
    let p := mulNum (engineNum s ta a (i * K + k)) (engineNum s tb b (64 * k + j))
    if n = 0 then p
    else
      let r := blockSum s ta tb a b K i j n (k + 1)
      let t := addNum false p.1 r.1
      (t.1, p.2 ||| r.2 ||| t.2)

/-- The block sum of integer products. -/
def blockSumInt (s : State) (ta tb : Elem) (a b : VReg) (K i j : Nat) : Nat → Nat → Int
  | 0, _ => 0
  | n + 1, k =>
    intOf ta (elemAt s a ta.bytes (i * K + k)) * intOf tb (elemAt s b tb.bytes (64 * k + j)) + blockSumInt s ta tb a b K i j n (k + 1)

/-- One cell of a strip of TMMA. -/
def tileCell (ta tb : Elem) (t : TReg) (a b : VReg) (K blk i j : Nat) (s : State) : State :=
  let w := tileWord s t.val + 64 * i + j
  let n := min 8 (K - 8 * blk)
  if cfgInt s then setAcc s w (BitVec.ofInt 32 ((accWord s w).toInt + blockSumInt s ta tb a b K i j n (8 * blk)))
  else
    let (x, f) := blockSum s ta tb a b K i j n (8 * blk)
    let (r, g) := addNum false (decodeFloat fmtF32 (accWord s w).toNat) x
    let (c, h) := encodeFloat fmtF32 .ne r
    (setAcc s w (BitVec.ofNat 32 c)).raise (f ||| g ||| h)

/-- TMMA. -/
def runTmma (t : TReg) (a b : VReg) (e : VEntry) (lim : Nat) : Act Bool := do
  let i : Instr := .tmma t a b
  needTile i t
  let ta ← typeOf i a
  let tb ← typeOf i b
  require i (decide (e.vl ≠ 0) && decide (e.vl % 64 = 0))
  let K := e.vl / 64
  let s ← get
  require i (decide (pairKind ta tb = some (cfgInt s)))
  require i (! ta.isQ8 || (decide (elemType s vsc = some .e8) && decide (a ≠ vsc) && decide (b ≠ vsc)))
  tileFlight t true
  let done ← engineStrips 1 (4 * ceilDiv K 8) lim (fun q _ => do
    let row := 16 * (q % 4)
    accGuard (64 * row) (64 * row + 1024) fun k => some (tileWord s t.val + k)
    apply fun s =>
      tileWritten ((List.range 1024).foldl (fun s k => tileCell ta tb t a b K (q / 4) (row + k / 64) (k % 64) s) s) t.val)
    (4 * ceilDiv K 8 + 1)
  if done then apply (tileWritten · t.val)
  pure done

/-! ## Transfers (R125, R342) -/

/-- Bytes of a tile's image. -/
def tileBytes : Nat := 0x4000

/-- The pages that [va, va + n) touches, each named by its first touched address: steps of 64 KiB. -/
def pageStarts (va : VAddr) (n : Nat) : List VAddr :=
  va :: ((List.range (n / 0x10000 + 1)).map fun k => BitVec.ofNat 48 ((va.toNat / 0x10000 + k + 1) * 0x10000)).filter
    fun a => decide ((a - va).toNat < n)

/-- The pages of an image, as `page` translates their addresses, none of them MMIO or a system window; the lowest faulting address
traps. -/
def imagePages (page : VAddr → Act TlbEntry) (va : VAddr) : Act (List TlbEntry) :=
  (pageStarts va tileBytes).mapM fun a => do
    let t ← page a
    if t.tier = 3 then trap 0x05 (vaWord a)
    pure t

/-- The image is 64-byte aligned, mapped, permitted and not MMIO: its pages, which the transfer keeps (R342, R165). -/
def imageGuard (k : Access) (w : Word) : Act (List TlbEntry) := do
  if w.toNat % 64 ≠ 0 then trap 0x03 w
  imagePages (translate k) (vaOf w)

/-- Where a byte of an image lies, by the pages translated at acceptance; a home in reset is recorded as cause 0x05 (R380). -/
def imageAt (pages : List TlbEntry) (va : VAddr) : Act (TlbEntry × Nat) := do
  let ctx := (← get).st.ctx
  match pages.find? fun e => e.maps ctx va.toNat with
  | none => trap 0x04 (vaWord va)
  | some t =>
    homeGuard va (t.key va.toNat)
    pure (t, t.key va.toNat)

/-- Pieces of [va, va + n), from offset o on, that lie within one line: offset and length. -/
def linePieces : Nat → Nat → Nat → Nat → List (Nat × Nat)
  | 0, _, _, _ => []
  | fuel + 1, va, o, n =>
    if n ≤ o then []
    else
      let k := min (128 - (va + o) % 128) (n - o)
      (o, k) :: linePieces fuel va (o + k) n

/-- The image of a tile goes to memory, line by line; poisoned words stay poisoned (R132). -/
def saveTile (t : Nat) (pages : List TlbEntry) (va : VAddr) : List (Nat × Nat) → Act Unit
  | [] => pure ()
  | (o, n) :: rest => do
    let a := va + BitVec.ofNat 48 o
    let (g, pa) ← imageAt pages a
    holdGuard g pa
    apply fun s =>
      let ws := (List.range (n / 4)).map fun k => tileWord s t + o / 4 + k
      let s' := physWrite (n + 1) s pa (ws.flatMap fun k => natToBytes 4 (accWord s k).toNat) g.dedup (curDomain s)
      (ws.zipIdx.filter fun p => accPoisoned s p.1).foldl (fun s p => poisonRange s (pa + 4 * p.2) 4) s'
    saveTile t pages va rest

/-- The image of a tile comes from memory; an uncorrectable error poisons the containers it reaches, and a container that is poisoned
stays so (R132). -/
def loadTile (t : Nat) (pages : List TlbEntry) (va : VAddr) : List (Nat × Nat) → Act Unit
  | [] => pure ()
  | (o, n) :: rest => do
    let a := va + BitVec.ofNat 48 o
    let (g, pa) ← imageAt pages a
    apply fun s =>
      let copy := isLine pa && rdcPoisoned s (curDie s) (lineOf pa)
      let s := if isLine pa then homeRead s (lineOf pa) (curDie s) g.dedup (curDomain s) else s
      (List.range (n / 4)).foldl (fun s k =>
        let w := tileWord s t + o / 4 + k
        let s := setAcc s w (BitVec.ofNat 32 (memNat s.mem (pa + 4 * k) 4))
        let p := s.st.accum.poison
        { s with st := { s.st with accum := { s.st.accum with
            poison := if copy || wordPoisoned s (pa + 4 * k) then insertNat w p else p } } }) s
    loadTile t pages va rest

/-- The oldest transfer of tile t ends (R125): its bytes have moved, and the tile leaves flight when no other is out. A held
write leaves it in flight, to write its image again; a fault on its way is kept for the strand's next TSTAT (R342). -/
def endTransfer (t : TReg) : Act Unit := do
  match (← get).st.accum.flight.find? fun f => decide (f.tile = t) with
  | none => pure ()
  | some f =>
    let valid := tileBit (← get) t.val 0
    if ! f.save then apply fun s => emptyL1 s (curCore s)
    let pieces := linePieces (tileBytes / 64) f.va.toNat 0 tileBytes
    let (r, s) := Act.on (if f.save then saveTile t.val f.pages f.va pieces else loadTile t.val f.pages f.va pieces) (← get)
    set s
    match r with
    | .error (.park _ _) => throw .again
    | r =>
      let err : Option (BitVec 8 × Word) := match r with
        | .error (.trap c v) => some (c, v)
        | _ => none
      apply fun s =>
        let ac := s.st.accum
        let fl := ac.flight.erase f
        let s := { s with st := { s.st with accum := { ac with
          flight := fl
          error := ac.error.orElse fun _ => err
          images := if f.save && ! valid then ac.images else sset 0 ac.images t.val f.va } } }
        let s := if f.save && ! valid then s else setTileBit (setTileBit s t.val 0 true) t.val 1 false
        setTileBit s t.val 2 (fl.any fun g => decide (g.tile = t))

/-- The transfers of the strand end as far as they can, oldest first. -/
def endTransfers : Nat → Act Unit
  | 0 => pure ()
  | n + 1 => do
    match (← get).st.accum.flight with
    | [] => pure ()
    | f :: _ =>
      endTransfer f.tile
      endTransfers n

/-- A transfer is accepted. Unless the vector side lags (R162: engines run beside the strand), it ends at once. -/
def acceptTransfer (t : TReg) (save : Bool) (va : VAddr) (pages : List TlbEntry) : Act Unit := do
  apply fun s => setTileBit { s with st := { s.st with accum := { s.st.accum with
    flight := s.st.accum.flight ++ [{ tile := t, save, va, pages }] } } } t.val 2 true
  let s ← get
  if ! s.lag then set (Act.on (endTransfers s.st.accum.flight.length) s).2

/-- TSAVE: op0 is the image's address. -/
def runTsave (t : TReg) (a : XReg) (e : VEntry) (_lim : Nat) : Act Bool := do
  needTile (.tsave t a) t
  tileFlight t false
  let pages ← imageGuard .store e.op0
  acceptTransfer t true (vaOf e.op0) pages
  pure true

/-- TREST. -/
def runTrest (t : TReg) (a : XReg) (e : VEntry) (_lim : Nat) : Act Bool := do
  needTile (.trest t a) t
  tileFlight t true
  let pages ← imageGuard .load e.op0
  acceptTransfer t false (vaOf e.op0) pages
  pure true

/-- TSTAT: it waits until no tile is in flight; a recorded error traps with x[d] written (R125, R342). -/
def runTstat (d : XReg) (_e : VEntry) (_lim : Nat) : Act Bool := do
  if (← get).st.accum.flight ≠ [] then throw .again
  apply fun s => emptyL1 (s.writeX d (s.st.csr.tstat.zeroExtend 64)) (curCore s)
  match (← get).st.accum.error with
  | none => pure true
  | some (c, v) =>
    apply fun s => { s with st := { s.st with accum := { s.st.accum with error := none } } }
    trap c v

end Sys2Proof.Machine
end

