-- ==== Sys2Proof/Machine/Windows.lean ====
section
/-! DEFINITION. Host and peer memory through the system windows (R234 to R236): what a window names, requests to a peer over
the Renram ports, posted writes to the host, and reads whose reply is out. -/

namespace Sys2Proof.Machine

/-- The address lies in a system window (R234). -/
def isWindow (pa : Nat) : Bool := decide (Config.windowBase ≤ pa ∧ pa < Config.mmioEnd)

/-- What a byte of a window reaches (Table 14.4). -/
inductive Reach
  | none
  | host (a : Nat)
  | peer (node : BitVec 10) (export_ offset : Nat)
  deriving DecidableEq, Repr

/-- The register of window w. -/
def windowReg (s : State) (w : Nat) : Word := sget 0 s.links.windows w

/-- The location behind a window address. -/
def reachOf (s : State) (pa : Nat) : Reach :=
  let r := windowReg s ((pa - Config.windowBase) / 2 ^ 27)
  let o := bits r 0 37 * 2 ^ 27 + (pa - Config.windowBase) % 2 ^ 27
  if ! r.getLsbD 63 then .none
  else if r.getLsbD 62 then .peer (BitVec.ofNat 10 (bits r 52 10)) (bits r 46 6) o
  else .host o

def getPort (s : State) (k : Nat) : Port := sget {} s.links.ports k
def setPort (s : State) (k : Nat) (p : Port) : State := { s with links := { s.links with ports := sset {} s.links.ports k p } }

/-- The ports a request for a node may use: ACTIVE ones with module N as partner, else those with a switch (R235). -/
def routesTo (s : State) (node : BitVec 10) : List Nat :=
  let direct := (List.range 18).filter fun k => decide ((getPort s k).stat = 2 ∧ (getPort s k).pkind = 1 ∧ (getPort s k).pnode = node)
  if direct = [] then (List.range 18).filter fun k => decide ((getPort s k).stat = 2 ∧ (getPort s k).pkind = 2) else direct

/-- The port among them for an address: line address bits [12:7] modulo their number. -/
def routeOf (s : State) (node : BitVec 10) (offset : Nat) : Option Nat :=
  let ks := routesTo s node
  ks[offset / 128 % 64 % ks.length]?

/-- The node a flit of ours goes to; an idle one goes to the partner alone. -/
def Outgoing.node : Outgoing → BitVec 10
  | .idle => 0
  | .request m => m.node
  | .reply n _ _ | .part n _ _ _ | .refusal n _ => n
/-- The address by which its port is chosen; what carries none goes by address 0 (log 77). -/
def Outgoing.offset : Outgoing → Nat
  | .request m => m.offset
  | .reply _ o _ => o
  | _ => 0

/-- KIND of a flit of ours (Table 14.2). -/
def Outgoing.kind : Outgoing → Nat
  | .idle => 0
  | .request _ => 1
  | .reply .. => 2
  | .part .. | .refusal .. => 3

/-- Bytes of payload that it needs. -/
def Outgoing.size : Outgoing → Nat
  | .request m => (match m.op with | .write bs => bs.length | _ => 8)
  | .reply _ _ bs | .part _ _ _ bs => bs.length
  | .idle | .refusal .. => 0

/-- Flits that carry it, of 240 B of payload each. -/
def Outgoing.flits (w : Outgoing) : Nat := max 1 (ceilDiv w.size 240)

/-- Its flits as they wait to go out, having left port k. -/
def packetsOf (k : Nat) (w : Outgoing) : List Packet := (List.range w.flits).map fun i => { port := k, what := w, part := i }

/-! ## Flits (R231, Table 14.2) -/

/-- One bit of CRC-32 with polynomial 0x04C1_1DB7, least significant bit first (log 76). -/
def crcBit (c : Nat) : Nat := if c % 2 = 1 then c / 2 ^^^ 0xEDB88320 else c / 2

/-- CRC-32 of bytes, from a register of ones and complemented at the end (log 76). -/
def crc32 (bs : List Byte) : Nat :=
  (bs.foldl (fun c b => crcBit (crcBit (crcBit (crcBit (crcBit (crcBit (crcBit (crcBit (c ^^^ b.toNat))))))))) 0xFFFFFFFF) ^^^ 0xFFFFFFFF

/-- The payload of part i of what a flit carries: a reply's bytes (log 77), and else free bytes, for the spec lays out no payload
(log 76). -/
def payloadOf (key : Nat) (w : Outgoing) (i : Nat) : List Byte :=
  match w with
  | .idle => []
  | .reply _ _ bs => (bs.drop (240 * i)).take 240
  | _ => (List.range 240).map (Config.payloadByte key)

/-- The 256 bytes of a flit. -/
def flitBytes (dnode snode : BitVec 10) (credit kind : Nat) (payload : List Byte) (ack seq : BitVec 12) : List Byte :=
  let head := natToBytes 8 (dnode.toNat * 2 ^ 54 + snode.toNat * 2 ^ 44 + credit * 2 ^ 36 + kind * 2 ^ 32)
  let body := head ++ (payload ++ List.replicate 240 0).take 240 ++ natToBytes 4 (ack.toNat * 2 ^ 12 + seq.toNat)
  body ++ natToBytes 4 (crc32 body)

/-- A flit of port k's replay buffer is put on the wire, with the highest SEQ received in order and the receive buffers returned. -/
def putWire (s : State) (k : Nat) (f : Sent) : State :=
  let p := getPort s k
  let credit := min 255 p.owed
  let dnode := if f.what = .idle then p.pnode else f.what.node
  let bs := flitBytes dnode s.links.nodeid credit f.what.kind (payloadOf s.links.wire.length f.what f.part) (p.rxSeq - 1) f.seq
  setPort { s with links := { s.links with wire := s.links.wire ++ [(k, bs)] } } k { p with owed := p.owed - credit }

/-- A flit goes out on port k with the next SEQ: it stands in the replay buffer until acknowledged, and the reply of a request is
out (R232). -/
def sendOn (s : State) (k : Nat) (q : Packet) : State :=
  let p := getPort s k
  let f : Sent := { seq := p.txSeq, what := q.what, part := q.part }
  let waiting := match q.what with
    | .request m => if q.part = 0 then p.waiting ++ [m] else p.waiting
    | _ => p.waiting
  putWire (setPort s k { p with buffer := p.buffer ++ [f], waiting, txSeq := p.txSeq + 1 }) k f

/-- Event 0x16 with REASON 5: a write found its peer unreachable (R236). -/
def writeLost (s : State) (ctx : BitVec 12) (va : Word) : State := postEvent s 0x16 5 ctx 0 va

/-- Flits in a replay buffer at most (R232). -/
def replayDepth : Nat := 256

/-- A request for a peer is sent, under a name of its own; none when no port may carry it, and it waits while the port's buffer is
full. -/
def sendPeer (m : PeerMsg) : Act Bool := do
  let s ← get
  match routeOf s m.node m.offset with
  | none => pure false
  | some k =>
    let w : Outgoing := .request { m with id := s.links.nextMsg }
    if replayDepth < (getPort s k).buffer.length + w.flits then throw .again
    let s := (packetsOf k w).foldl (fun s q => sendOn s k q) s
    set { s with links := { s.links with nextMsg := s.links.nextMsg + 1 } }
    pure true

/-- A posted write to host memory (R226): it leaves in order. -/
def hostWrite (s : State) (a : Nat) (bs : List Byte) : State :=
  { s with links := { s.links with hostOut := s.links.hostOut ++ [(a, bs)] } }

/-- Bytes written through a window by strand n of a context. A write to the host has completed there at once, unless the units lag: then
it completes by a turn of its own (R217, log 85). -/
def windowWrite (n : Nat) (ctx : BitVec 12) (copy : Bool) (va : Word) (pa : Nat) (bs : List Byte) : Act Unit := do
  match reachOf (← get) pa with
  | .none => trap 0x05 va
  | .host a =>
    apply fun s =>
      let s := hostWrite s a bs
      if s.lag then { s with links := { s.links with hostLate := s.links.hostLate ++ [(n, copy)] } } else s
  | .peer node x o =>
    if ! (← sendPeer { node, export_ := x, offset := o, op := .write bs, strand := n, ctx, va, copy, id := 0 }) then
      apply fun s => writeLost s ctx va

/-- A read of b bytes through a window is sent for strand n of a context; false when it is unreachable at once. -/
def windowAsk (n : Nat) (ctx : BitVec 12) (copy : Bool) (va : Word) (pa b : Nat) : Act Bool := do
  match reachOf (← get) pa with
  | .none => trap 0x05 va
  | .host a =>
    apply fun s => { s with links := { s.links with hostReads := s.links.hostReads ++ [{ strand := n, ctx, addr := a, bytes := b, va, copy }] } }
    pure true
  | .peer node x o => sendPeer { node, export_ := x, offset := o, op := .read b, strand := n, ctx, va, copy, id := 0 }

/-- A read of a strand, or of one of its copies, is out; of the strand's own, the one of address va. -/
def readOut (s : State) (n : Nat) (copy : Bool) (va : Word) : Bool :=
  (s.links.hostReads.any fun r => decide (r.strand = n) && (r.copy == copy) && (copy || decide (r.va = va)))
    || (peerMsgs s).any fun m =>
      decide (m.strand = n) && (m.copy == copy) && (copy || decide (m.va = va)) && (match m.op with | .read _ => true | _ => false)

/-- A read of 8 bytes by the focused strand: sent, then awaited; unreachable traps with cause 0x06 (R236). -/
def windowRead (va : VAddr) (pa : Nat) : Act Word := do
  let s ← get
  let w := vaWord va
  let ask : Act Word := do
    if ! readOut s s.cur.val false w then
      if ! (← windowAsk s.cur.val s.st.ctx false w pa 8) then trap 0x06 w
    throw .again
  match s.st.remote with
  | some (a, r) =>
    if a = w then
      apply fun s => { s with st := { s.st with remote := none } }
      match r with
      | some v => pure v
      | none => trap 0x06 w
    else ask
  | none => ask

/-- A reply reaches the strand, or the copy of it that asked. -/
def deliverReply (s : State) (n : Nat) (copy : Bool) (va : Word) (v : Option Word) : State :=
  if copy then modCore s (coreOf n) fun k => { k with
    commands := k.commands.map fun c => if c.strand = n ∧ c.asked then { c with asked := false, reply := some v } else c }
  else modStrand s n fun t => { t with remote := some (va, v) }

end Sys2Proof.Machine
end

