-- ==== Sys2Proof/Machine/Streams.lean ====
section
/-! DEFINITION. Streams and copies (chapter "Streams and copies", R156 to R171, R343 to R346): stream registers, copy commands
and their execution, chains across cores, and routines on press engines. -/

namespace Sys2Proof.Machine

/-! ## Commands of a core -/

/-- The command of a core with an acceptance number. -/
def findCmd (s : State) (c num : Nat) : Option Command := (getCore s c).commands.find? fun m => m.num = num
/-- A command is replaced, or removed. -/
def putCmd (s : State) (c : Nat) (m : Command) : State :=
  modCore s c fun k => { k with commands := k.commands.map fun x => if x.num = m.num then m else x }
def dropCmd (s : State) (c num : Nat) : State :=
  let s := match findCmd s c num with
    | some m => m.pages.foldl (fun s p => pinsDue s m.ctx p.vpage) s
    | none => s
  modCore s c fun k => { k with commands := k.commands.filter fun x => x.num ≠ num }

/-- Offset of a memory key in the scratchpad of core c. -/
def spadOffset (c pa : Nat) : Option Nat :=
  if isSpad pa ∧ spadCore pa = c then some (pa - (Config.spadBase + c * Config.spadBytes)) else none

/-- A channel accepts a command, unless it holds 16 (R162); `vstart` is left at 0 (R344). -/
def acceptCmd (k : Command) : Act Unit := do
  let c := curCore (← get)
  if Config.channelDepth ≤ ((getCore (← get) c).commands.filter fun m => m.chan = k.chan).length then throw .again
  apply fun s => setVstart (k.pages.foldl (fun s p => pinsDue s k.ctx p.vpage) (modCore s c fun r =>
    { r with commands := r.commands ++ [{ k with num := r.accepted }], accepted := r.accepted + 1 })) 0

/-- A fault after acceptance is recorded against the strand and channel, if the strand has not gone; the first record held is kept
(R165). -/
def recordFault (s : State) (m : Command) (cause : BitVec 8) (va : Word) : State :=
  modStrand s m.strand fun t => if ! t.resident || t.ctx ≠ m.ctx then t else { t with copyErr := t.copyErr.set m.chan.val (t.copyErr[m.chan.val].orElse fun _ => some (cause, va)) }

/-! ## Acceptance (R159, R160, R345) -/

/-- The scratchpad range of a command, and the pages translated at its acceptance, which it keeps (R165). -/
structure Span where
  lo    : Nat
  hi    : Nat
  pages : List TlbEntry := []
  deriving DecidableEq, Repr

/-- The packed side [va, va + n) lies in the issuing core's own scratchpad: the bounding interval of its offsets, or cause
0x05 with the base. -/
def packedSpan (k : Access) (base : Word) (n : Nat) : Nat → Nat → Span → Act Span
  | 0, _, q => pure q
  | fuel + 1, o, q =>
    if o ≠ 0 ∧ n ≤ o then pure q
    else do
      let a := vaOf base + BitVec.ofNat 48 o
      let d := min (0x10000 - a.toNat % 0x10000) (n - o)
      let (r, s) := Act.on (translate k a) (← get)
      match r with
      | .error .again => set s; throw .again
      | .error _ => trap 0x05 base
      | .ok t =>
        set s
        if t.p then trap 0x05 base
        match spadOffset (curCore s) (t.key a.toNat) with
        | none => trap 0x05 base
        | some p =>
          let pages := if q.pages.contains t then q.pages else t :: q.pages
          let q : Span := { lo := if o = 0 then p else min q.lo p, hi := max q.hi (p + d), pages }
          if d = 0 then pure q else packedSpan k base n fuel (o + d) q

/-- Element d of a layout: stride and extent (R159). -/
def layoutOf (v : Nat) : Int × Nat := (signed 40 (v / 2 ^ 24), v % 2 ^ 24)

/-- The product of the extents. -/
def layoutCount (l : List (Int × Nat)) : Nat := l.foldl (fun n d => n * d.2) 1

/-- Byte offset of packed element q under a layout, dimension 0 fastest. -/
def layoutOffset : List (Int × Nat) → Nat → Int
  | [], _ => 0
  | (st, ex) :: t, q => (q % ex : Nat) * st + layoutOffset t (q / ex)

/-- Bytes of an element size. -/
def szBytes : Sz → Nat
  | .b => 1
  | .h => 2
  | .w => 4
  | .d => 8

/-- XCOPY: op0 is x[d], op1 is x[s]; under `.in` a d of 0 to 3 names a stream. -/
def runXcopy (ex : Bool) (z : Sz) (h : Lane4) (o : Ord) (d a : XReg) (b : VReg) (e : VEntry) (_lim : Nat) : Act Bool := do
  let i : Instr := .xcopy ex z h o d a b
  if e.vl = 0 ∨ 8 < e.vl then illegal i
  let t ← typeOf i b
  require i (t.isInt && decide (t.width = 64))
  let s ← get
  let layout := (List.range e.vl).map fun k => layoutOf (elemAt s b 8 k)
  let sz := szBytes z
  let n := layoutCount layout * sz
  let ring : Option SReg := if ! ex && decide (d.val < 4) then some (Fin.ofNat 4 d.val) else none
  if e.op1.toNat % sz ≠ 0 then trap 0x03 e.op1
  if ring.isNone ∧ e.op0.toNat % sz ≠ 0 then trap 0x03 e.op0
  let q ← match ring with
    | some r =>
      let q := s.st.streams[r.val]
      if q.kind ≠ 1 then trap 0x0A (w64 r.val)
      pure { lo := q.rbase.toNat, hi := q.rbase.toNat + q.rsize.toNat : Span }
    | none => packedSpan (if ex then .load else .store) (if ex then e.op1 else e.op0) n (n / 0x10000 + 2) 0 { lo := 0, hi := 0 }
  acceptCmd { num := 0, strand := s.cur.val, ctx := s.st.ctx, chan := h, ord := o,
              kind := .xcopy ex sz (vaOf e.op0) (vaOf e.op1) ring layout, lo := q.lo, hi := q.hi, writes := ! ex,
              pages := q.pages }
  pure true

/-- XGATH: op0 is the geometry, op1 the source. -/
def runXgath (h : Lane4) (o : Ord) (d a : XReg) (b : VReg) (e : VEntry) (_lim : Nat) : Act Bool := do
  let i : Instr := .xgath h o d a b
  let doff := bits e.op0 0 18
  let rb := bits e.op0 18 18
  if rb = 0 ∨ rb % 8 ≠ 0 ∨ 131072 < rb ∨ doff % 8 ≠ 0 then illegal i
  let t ← typeOf i b
  require i (t.isInt && decide (32 ≤ t.width))
  if e.op1.toNat % 8 ≠ 0 then trap 0x03 e.op1
  if Config.spadBytes < doff + e.vl * rb then trap 0x05 e.op0
  let s ← get
  let rows := ((List.range e.vl).filter fun k => maskBit s 0 k).map fun k => (k, intOf t (elemAt s b t.bytes k))
  acceptCmd { num := 0, strand := s.cur.val, ctx := s.st.ctx, chan := h, ord := o,
              kind := .xgath (vaOf e.op1) doff rb (signed 28 (bits e.op0 36 28)) rows, lo := doff, hi := doff + e.vl * rb, writes := true }
  pure true

/-- The translation of an address for a command of core c: the one it holds, or a new one. -/
def copyEntry (c : Nat) (m : Command) (va : VAddr) : Act TlbEntry := do
  let s ← get
  match (findCmd s c m.num).bind fun x => x.pages.find? fun e => e.maps m.ctx va.toNat with
  | some t => pure t
  | none =>
    let t ← pageFrom va fun s => translateAt (.copy m.strand m.num) c m.ctx va.toNat s
    apply fun s =>
      match findCmd s c m.num with
      | some x => pinsDue (putCmd s c { x with pages := t :: x.pages }) m.ctx t.vpage
      | none => s
    pure t

/-- The page of a copy's access, checked as an access in user mode (R176); a window page ignores P (R234). -/
def copyGuard (k : Access) (va : VAddr) (t : TlbEntry) : Act Unit := do
  let pa := t.key va.toNat
  if t.tier = 3 then
    if ! (isWindow pa && (! k.reads || t.r) && (! k.writes || t.w)) then trap 0x05 (vaWord va)
  else if ! pageAllows k false t then trap 0x05 (vaWord va)
  homeGuard va pa

/-- The page of an address for a command of core c, checked. -/
def copyPage (c : Nat) (m : Command) (k : Access) (va : VAddr) : Act TlbEntry := do
  let t ← copyEntry c m va
  copyGuard k va t
  pure t

/-- XXFORM: op0 is the parameter block, op1 names the slot (R171, R346). -/
def runXxform (h : Lane4) (o : Ord) (a b : XReg) (e : VEntry) (_lim : Nat) : Act Bool := do
  let i : Instr := .xxform h o a b
  let s ← get
  let slot : Fin 64 := Fin.ofNat 64 e.op1.toNat
  if (sget [] s.press.slots slot.val) = [] then illegal i
  if e.op0.toNat % 64 ≠ 0 then trap 0x03 e.op0
  let m : Command := { num := 0, strand := s.cur.val, ctx := s.st.ctx, chan := h, ord := o,
                       kind := .xxform slot (vaOf e.op0), lo := 0, hi := 0, writes := false }
  let (r, s) := Act.on (do let t ← strandPage s.st.ctx (vaOf e.op0); copyGuard .both (vaOf e.op0) t; pure t) s
  match r with
  | .error (.trap c _) => set s; trap c e.op0
  | .error x => set s; throw x
  | .ok t => set s; acceptCmd { m with pages := [t] }; pure true

/-! ## Execution (R161, R163, R165, R166) -/

/-- An earlier unfinished command of the core has an overlapping scratchpad range, and one of the two writes (R163). -/
def cmdBlocked (s : State) (c : Nat) (m : Command) : Bool :=
  (getCore s c).commands.any fun x => decide (x.num < m.num ∧ x.lo < m.hi ∧ m.lo < x.hi) && (x.writes || m.writes)

/-- A fault in the access of an element names the element's address. -/
def forElem {α : Type} (va : VAddr) (a : Act α) : Act α := do
  let (r, s) := Act.on a (← get)
  set s
  match r with
  | .ok v => pure v
  | .error (.trap c _) => trap c (vaWord va)
  | .error x => throw x

/-- n bytes of a page read for a copy, each line at its home or in the RDC of the core's die; and whether they are poisoned. -/
def copyFetch (c : Nat) (m : Command) (t : TlbEntry) (pa n : Nat) (s : State) : (List Byte × Bool) × State :=
  let d := dieOf (4 * c)
  let bad := poisonedAt s pa n || (linesOf pa n).any (rdcPoisoned s d)
  let s := (linesOf pa n).foldl (fun s l => homeRead s l d t.dedup (ctxDomain s m.ctx)) s
  ((memRead s.mem pa n, bad), s)

/-- b bytes read for a copy at va: none when a peer is unreachable; and whether they are poisoned. -/
def copyRead (c : Nat) (m : Command) (va : VAddr) (b : Nat) : Act (Option (List Byte) × Bool) := do
  let t ← copyPage c m .load va
  let pa := t.key va.toNat
  if t.tier = 3 then
    match (findCmd (← get) c m.num).bind (·.reply) with
    | some r =>
      apply fun s => match findCmd s c m.num with | some x => putCmd s c { x with reply := none } | none => s
      pure (r.map fun w => natToBytes b w.toNat, r.isNone)
    | none =>
      if ! readOut (← get) m.strand true 0 then
        if ← windowAsk m.strand m.ctx true (vaWord va) pa b then
          apply fun s => match findCmd s c m.num with | some x => putCmd s c { x with asked := true } | none => s
        else return (none, true)
      throw .again
  else
    let n := min b (0x10000 - va.toNat % 0x10000)
    let (hd, bad) ← lift (copyFetch c m t pa n)
    if n = b then pure (some hd, bad)
    else
      let v2 := va + BitVec.ofNat 48 n
      let t2 ← forElem va (copyPage c m .load v2)
      let (tl, bad2) ← lift (copyFetch c m t2 (t2.key v2.toNat) (b - n))
      pure (some (hd ++ tl), bad || bad2)

/-- Bytes put at a physical key for a context: not through any L1; with no bytes, or bad ones, the range is poisoned. -/
def copyPut (s : State) (ctx : BitVec 12) (dedup : Bool) (pa b : Nat) (bs : Option (List Byte)) (bad : Bool) : State :=
  let s := match bs with
    | some bs => physWrite (bs.length + 1) s pa bs dedup (ctxDomain s ctx)
    | none => s
  if bad then poisonRange s pa b else s

/-- A copy's write to the page waits while it is held (R186, R190, R204). -/
def copyHold (t : TlbEntry) (pa : Nat) : Act Unit := do
  if heldBy (← get) t pa then
    apply (reportStuck · pa)
    throw .again

/-- Bytes written for a copy at va. -/
def copyWrite (c : Nat) (m : Command) (va : VAddr) (bs : List Byte) (bad : Bool) : Act Unit := do
  let t ← copyPage c m .store va
  let pa := t.key va.toNat
  if t.tier = 3 then windowWrite m.strand m.ctx true (vaWord va) pa bs
  else
    copyHold t pa
    let n := min bs.length (0x10000 - va.toNat % 0x10000)
    if n = bs.length then apply fun s => copyPut s m.ctx t.dedup pa n (some bs) bad
    else
      let v2 := va + BitVec.ofNat 48 n
      let t2 ← forElem va (copyPage c m .store v2)
      copyHold t2 (t2.key v2.toNat)
      apply fun s => copyPut (copyPut s m.ctx t.dedup pa n (some (bs.take n)) bad) m.ctx t2.dedup (t2.key v2.toNat) (bs.length - n) (some (bs.drop n)) bad

/-- Bytes of one element group of core c (R11). -/
def groupBytes (s : State) (c : Nat) : Nat := 128 * laneGroups (getCore s c)

/-- The stream register that a command fills; nothing of it is left where the command's strand has gone. -/
def ringOf (s : State) (m : Command) (r : SReg) : StreamReg :=
  let t := getStrand s m.strand
  if t.resident ∧ t.ctx = m.ctx then t.streams[r.val] else {}

/-- ARRIVED of the ring after n bytes of the command's, whole element groups only unless it has finished (R166). -/
def raiseArrived (s : State) (c : Nat) (m : Command) (r : SReg) (n : Nat) (final : Bool) : State :=
  let g := groupBytes s c
  modStrand s m.strand fun t =>
    let q := t.streams[r.val]
    if t.ctx = m.ctx ∧ q.kind = 1 then { t with streams := t.streams.set r.val { q with arrived := m.base + w64 (if final then n else n / g * g) } } else t

/-- Bytes pos to pos + sz - 1 of a ring's stream, which may pass its end (R158). -/
def ringPut (s : State) (ctx : BitVec 12) (c : Nat) (st : StreamReg) (pos sz : Nat) (bs : Option (List Byte)) (bad : Bool) : State :=
  let ring := Config.spadBase + c * Config.spadBytes + st.rbase.toNat
  let o := pos % st.rsize.toNat
  let n := min sz (st.rsize.toNat - o)
  let s := copyPut s ctx false (ring + o) n (bs.map (·.take n)) bad
  if n = sz then s else copyPut s ctx false ring (sz - n) (bs.map (·.drop n)) bad

/-- Packed elements from q on, k at most, that lie one after another in one line of the layout's side: they move together. -/
def lineRun (at_ : Nat → VAddr) (sz q k : Nat) : Nat :=
  max 1 ((List.range (min k (128 / sz))).takeWhile fun j =>
    decide (at_ (q + j) = at_ q + BitVec.ofNat 48 (j * sz) ∧ (at_ q).toNat % 128 + (j + 1) * sz ≤ 128)).length

/-- k pieces of sz bytes read at va for a copy, one request; the first alone where they lie behind a window, or where an uncorrectable
error stands in them, which is recorded (R165). The answer says how many. -/
def readPieces (c : Nat) (m : Command) (va : VAddr) (sz k : Nat) : Act (Option (List Byte) × Bool × Nat) := do
  let t ← copyPage c m .load va
  let k := if t.tier = 3 then 1 else k
  let (bs, bad) ← copyRead c m va (k * sz)
  let (bs, bad, k) ← if bad && k ≠ 1 then (do let (bs, bad) ← copyRead c m va sz; pure (bs, bad, 1)) else pure (bs, bad, k)
  if bad then apply fun s => recordFault s m 0x06 (vaWord va)
  pure (bs, bad, k)

/-- Packed elements of an XCOPY from element q on, as many as one request moves (R159). The answer says how many. -/
def xcopyPiece (c : Nat) (m : Command) (ex : Bool) (sz : Nat) (dst src : VAddr) (ring : Option SReg) (l : List (Int × Nat)) (q : Nat) : Act Nat := do
  let at_ (n : Nat) : VAddr := (if ex then dst else src) + BitVec.ofInt 48 (layoutOffset l n)
  let packed : VAddr := (if ex then src else dst) + BitVec.ofNat 48 (q * sz)
  let sa := if ex then packed else at_ q
  let da := if ex then at_ q else packed
  let run := lineRun at_ sz q (layoutCount l - q)
  match ring with
  | none =>
    let t ← copyPage c m .store da
    let run := if t.tier = 3 then 1 else run
    if t.tier ≠ 3 then copyHold t (t.key da.toNat)
    let (bs, bad, k) ← readPieces c m sa sz run
    copyWrite c m da (bs.getD (List.replicate (k * sz) 0)) (bad || bs.isNone)
    pure k
  | some r =>
    let st := ringOf (← get) m r
    if st.kind = 1 then
      let pos := m.base + w64 (q * sz)
      let room := (st.rsize.toNat - (pos - st.consumed).toNat) / sz
      if room = 0 then throw .again
      let (bs, bad, k) ← readPieces c m sa sz (min run room)
      apply fun s => raiseArrived (ringPut s m.ctx c st pos.toNat (k * sz) bs bad) c m r ((q + k) * sz) false
      pure k
    else pure run

/-- The lines that [va, va + n) touches, each by its first byte in the range. -/
def lineStarts (va : VAddr) (n : Nat) : List VAddr :=
  va :: ((List.range (n / 128)).map fun k => va + BitVec.ofNat 48 (128 - va.toNat % 128 + 128 * k)).filter fun a => decide ((a - va).toNat < n)

/-- Pieces of 8 bytes, from piece j on, of row (i, v) of an XGATH (R160), as many as one request moves; every line of the row is checked
before its first piece. The answer says how many. -/
def xgathPiece (c : Nat) (m : Command) (src : VAddr) (doff rb : Nat) (rstr : Int) (i : Nat) (v : Int) (j : Nat) : Act Nat := do
  let row := src + BitVec.ofInt 48 (v * rstr * 8)
  if j = 0 then
    for a in lineStarts row rb do
      let _ ← forElem row (copyPage c m .load a)
  let sa := row + BitVec.ofNat 48 (8 * j)
  let (bs, bad, k) ← readPieces c m sa 8 (min ((128 - sa.toNat % 128) / 8) (rb / 8 - j))
  apply fun s => copyPut s m.ctx false (Config.spadBase + c * Config.spadBytes + doff + i * rb + 8 * j) (8 * k) bs bad
  pure k

/-- Pieces of a command. -/
def cmdPieces (m : Command) : Nat :=
  match m.kind with
  | .xcopy _ _ _ _ _ l => layoutCount l
  | .xgath _ _ rb _ rows => rows.length * (rb / 8)
  | .xxform _ _ => 0

/-- Pieces of a command from m.next on; how many have moved. -/
def cmdPiece (c : Nat) (m : Command) : Act Nat :=
  match m.kind with
  | .xcopy ex sz dst src ring l => xcopyPiece c m ex sz dst src ring l m.next
  | .xgath src doff rb rstr rows =>
    match rows[m.next / (rb / 8)]? with
    | some (i, v) => xgathPiece c m src doff rb rstr i v (m.next % (rb / 8))
    | none => pure 1
  | .xxform _ _ => pure 1

/-- Where a command goes on after a fault at its piece (R165): an XCOPY finishes, an XGATH skips the row. -/
def afterFault (m : Command) : Nat :=
  match m.kind with
  | .xgath _ _ rb _ _ => (m.next / (rb / 8) + 1) * (rb / 8)
  | _ => cmdPieces m

/-- Writes of the strand's copies to host or peer memory have not all completed there. -/
def copyWritesOut (s : State) (n : Nat) : Bool :=
  s.links.hostLate.contains (n, true) || (peerMsgs s).any fun m => decide (m.strand = n) && m.copy && isPeerWrite m.op

/-- A command is over: its ring takes the remainder, its release at `.sy` is done, and it leaves its channel. -/
def finishCmd (c : Nat) (m : Command) : Act Unit := do
  match m.kind with
  | .xcopy _ sz _ _ (some r) _ => apply fun s => raiseArrived s c m r (m.next * sz) true
  | _ => pure ()
  let s ← get
  let waits := match m.ord with
    | .flag .sy .rel | .flag .sy .ar => copyWritesOut s m.strand
    | _ => false
  if waits then throw .again
  set (dropCmd s c m.num)

/-- The pieces of a command, as far as they can go. -/
def cmdLoop (c num : Nat) : Nat → Act Unit
  | 0 => pure ()
  | fuel + 1 => do
    match findCmd (← get) c num with
    | none => pure ()
    | some m =>
      if cmdPieces m ≤ m.next then finishCmd c m
      else
        let (r, s) := Act.on (cmdPiece c m) (← get)
        set s
        let go (n : Nat) : Act Unit := do
          apply fun s => match findCmd s c num with | some x => putCmd s c { x with next := n } | none => s
          cmdLoop c num fuel
        match r with
        | .ok k => go (m.next + k)
        | .error (.trap x va) =>
          apply fun s => recordFault s m x va
          match m.kind with
          | .xcopy _ _ _ _ _ _ => finishCmd c { m with next := m.next }
          | _ => go (afterFault m)
        | .error _ => throw .again

/-- Local address of the parameter block in an engine's stack (R171; log 40: which one is a free value). -/
def blockLocal : Nat := 0x20000000 + Config.blockPlace % 2041 * 8

/-- The press engine of a command (R171). -/
def engineOf (c : Nat) (k : Lane4) : Nat := 8 * (dieOf (4 * c)).val + k.val + 4 * (c % 2)

/-- The parameter block of a command: 64 bytes at once, or from a window 8 bytes at a time, each with its reply (R234). None when a
peer is unreachable; and whether it is poisoned. -/
def readBlock (c : Nat) (m : Command) (block : VAddr) : Nat → Act (Option (List Byte) × Bool)
  | 0 => pure (some m.got, false)
  | n + 1 => do
    let t ← copyPage c m .load block
    if t.tier ≠ 3 then copyRead c m block 64
    else
      match findCmd (← get) c m.num with
      | none => pure (none, true)
      | some m =>
        if 64 ≤ m.got.length then pure (some m.got, false)
        else
          match ← copyRead c m (block + BitVec.ofNat 48 m.got.length) 8 with
          | (some bs, false) =>
            apply fun s => match findCmd s c m.num with | some x => putCmd s c { x with got := x.got ++ bs } | none => s
            readBlock c m block n
          | r => pure r

/-- A routine starts on its engine, when that is free: the block is copied into its stack, a0 is its local address, a1 the issuing
device strand number and a2 `ctxid`. The engine's stream buffers and stack hold what the last routine left in them (R169, R171). -/
def startRoutine (c : Nat) (m : Command) (slot : Fin 64) (block : VAddr) : Act Unit := do
  let g := engineOf c m.chan
  if (← get).press.engines.any fun x => decide (x.1 = g) then throw .again
  let (r, s) := Act.on (readBlock c m block 9) (← get)
  set s
  match r with
  | .error (.trap x va) => apply fun s => dropCmd (recordFault s m x va) c m.num
  | .error x => throw x
  | .ok (bs, bad) =>
    if bad then apply fun s => dropCmd (recordFault s m 0x06 (vaWord block)) c m.num
    else
      apply fun s =>
        let e : Engine := { core := c, num := m.num, slot := slot, block := block, a0 := w64 blockLocal, a1 := w64 m.strand,
                            a2 := m.ctx.zeroExtend 64, mem := writeBytes (sget [] s.press.stores g) blockLocal (bs.getD []) }
        let s := match findCmd s c m.num with
          | some x => putCmd s c { x with engine := some (Fin.ofNat 64 g), begun := true }
          | none => s
        { s with press := { s.press with engines := s.press.engines ++ [(g, e)] } }

/-- A command runs as far as it can (R161, R163): the acquire of its ordering flag precedes its first read. -/
def runCmd (c num : Nat) : Act Unit := do
  match findCmd (← get) c num with
  | none => pure ()
  | some m =>
    if cmdBlocked (← get) c m then throw .again
    let m ←
      if m.begun then pure m
      else
        match m.ord with
        | .flag _ .acq | .flag _ .ar => apply fun s => emptyL1 s c
        | _ => pure ()
        match m.kind with
        | .xxform _ _ => pure m
        | .xcopy _ _ _ _ ring _ =>
          let s ← get
          let base := match ring with
            | some r => (ringOf s m r).arrived
            | none => 0
          let m := { m with begun := true, base := base }
          apply fun s => putCmd s c m
          pure m
        | .xgath _ _ _ _ _ =>
          let m := { m with begun := true }
          apply fun s => putCmd s c m
          pure m
    match m.kind with
    | .xxform slot block =>
      if ! m.begun then startRoutine c m slot block
      else if m.engine.isNone then finishCmd c m
      else throw .again
    | _ => cmdLoop c num (cmdPieces m + 1)

/-- The commands of a core run, in acceptance order, each as far as it can. -/
def runCmds (c : Nat) : List Nat → Act Unit
  | [] => pure ()
  | n :: t => do
    let (_, s) := Act.on (runCmd c n) (← get)
    set s
    runCmds c t

/-- Copies of a core go on, unless the units lag behind the strands. -/
def copiesGo (c : Nat) : Act Unit := do
  let s ← get
  if ! s.lag then runCmds c ((getCore s c).commands.map (·.num))

/-! ## XDRAIN (R164) -/

/-- The VIQ head notes a number on its first run. -/
def noteHead (s : State) (v : Word) : State :=
  match s.st.viq with
  | h :: t => { s with st := { s.st with viq := { h with since := some (h.since.getD v) } :: t } }
  | [] => s

/-- XDRAIN: it waits for the commands accepted before it, acquires at `.cl`, and reports the strand's error. -/
def runXdrain (h : Lane4) (e : VEntry) (_lim : Nat) : Act Bool := do
  let s ← get
  let c := curCore s
  let lim := e.since.getD (w64 (getCore s c).accepted)
  if ((getCore s c).commands.any fun m => decide (m.chan = h ∧ m.num < lim.toNat))
      || ((strandsOf c).any fun n => copyWritesOut s n) then
    apply fun s => noteHead s lim
    throw .again
  apply fun s => emptyL1 s c
  match s.st.copyErr[h.val] with
  | some (x, v) =>
    apply fun s => { s with st := { s.st with copyErr := s.st.copyErr.set h.val none } }
    trap x v
  | none => pure true

/-! ## Stream registers (R157) -/

/-- SBIND: op0 is xa, op1 is xb. -/
def runSbind (d : SReg) (a b : XReg) (e : VEntry) (_lim : Nat) : Act Bool := do
  let i : Instr := .sbind d a b
  let s ← get
  let kind := bits e.op1 62 2
  let rsize := bits e.op1 18 18
  if kind = 0 ∨ kind = 3 ∨ bits e.op1 36 20 ≠ 0 ∨ bits e.op1 0 18 ≠ 0 then illegal i
  if kind = 1 ∧ (rsize < 4096 ∨ 131072 < rsize ∨ rsize % 512 ≠ 0) then illegal i
  if kind = 2 ∧ rsize ≠ 0 ∧ rsize ≠ 4096 then illegal i
  if kind = 1 ∧ e.op0.toNat % 512 ≠ 0 then trap 0x03 e.op0
  let r : StreamReg := { kind := BitVec.ofNat 2 kind, tag := BitVec.ofNat 6 (bits e.op1 56 6), rsize := BitVec.ofNat 18 (if kind = 1 then rsize else 4096) }
  if kind = 1 then
    let (q, s') := Act.on (translate .load (vaOf e.op0)) s
    match q with
    | .error (.trap x _) => set s'; trap x e.op0
    | .error x => set s'; throw x
    | .ok t =>
      set s'
      match spadOffset (curCore s) (t.key (vaOf e.op0).toNat) with
      | none => trap 0x05 e.op0
      | some p =>
        if Config.spadBytes < p + rsize then trap 0x05 e.op0
        if s.st.streams[d.val].kind ≠ 0 then trap 0x0A (w64 d.val)
        apply fun s => putStream s d { r with rbase := BitVec.ofNat 18 p }
        pure true
  else
    let n := bits e.op0 0 12
    let p := getStrand s n
    if n = s.cur.val ∨ ! p.resident ∨ p.ctx ≠ s.st.ctx then trap 0x05 e.op0
    if s.st.streams[d.val].kind ≠ 0 then trap 0x0A (w64 d.val)
    apply fun s => putStream s d { r with peer := BitVec.ofNat 12 n }
    pure true

/-- A copy that names stream n of strand k as its destination is in progress. -/
def copyInto (s : State) (k : Nat) (n : SReg) : Bool :=
  (getCore s (coreOf k)).commands.any fun m => decide (m.strand = k) && (match m.kind with | .xcopy _ _ _ _ (some r) _ => decide (r = n) | _ => false)

/-- SREL: it waits for the copies into the stream, then unbinds it. -/
def releaseStream (n : SReg) : Act Unit := do
  let s ← get
  if copyInto s s.cur.val n then throw .again
  apply fun s => putStream s n {}

/-- SREL. -/
def runSrel (d : SReg) (_e : VEntry) (_lim : Nat) : Act Bool := do
  releaseStream d
  pure true

/-- SSTAT. -/
def runSstat (d : XReg) (a : SReg) (_e : VEntry) (_lim : Nat) : Act Bool := do
  apply fun s =>
    let r := s.st.streams[a.val]
    s.writeX d (w64 (r.kind.toNat * 2 ^ 62 + r.tag.toNat * 2 ^ 56 + (r.arrived - r.consumed).toNat % 2 ^ 32))
  pure true

/-! ## XCHAIN (R167, R168) -/

/-- Element groups of a chain binding's buffer that are not free (R167). -/
def chainHeld (r : StreamReg) : Nat := (r.msgs.map fun m => m.groups.length).sum

/-- One element group of a message reaches the binding: a new message at element 0, else the last one goes on. -/
def deliverGroup (r : StreamReg) (first : Bool) (width total n : Nat) (bs : List Byte) : StreamReg :=
  let r := if first then { r with msgs := r.msgs ++ [{ width := width, total := total, sent := 0, data := [] }] } else r
  match r.msgs.getLast? with
  | none => r
  | some m =>
    let m := { m with sent := m.sent + n }
    let rest := r.msgs.dropLast
    if m.done then
      { r with arrived := r.arrived + w64 bs.length, consumed := r.consumed + w64 bs.length,
               msgs := if m.total ≤ m.sent then rest else rest ++ [m] }
    else { r with arrived := r.arrived + w64 bs.length, msgs := rest ++ [{ m with data := m.data ++ bs, groups := m.groups ++ [bs.length] }] }

/-- The elements of the message, an element group at a time; `read` gives element k. -/
def chainGroups (n : Nat) (q : SReg) (w vl : Nat) (xq : Word) (read : State → Nat → Nat) (lim : Nat) : Nat → Act Bool
  | 0 => pure false
  | fuel + 1 => do
    let s ← get
    let lo := vstart s
    if vl ≤ lo then
      apply (setVstart · 0)
      pure true
    else if lim ≤ lo then pure false
    else
      let r := (getStrand s n).streams[q.val]
      let bound := decide (r.kind = 2) && decide (r.peer.toNat = s.cur.val)
      let going := bound && (match r.msgs.getLast? with | some m => decide (m.sent = lo) && decide (lo < m.total) | none => false)
      if lo ≠ 0 ∧ ! going then trap 0x0A (w64 (bits xq 12 2))
      if ! bound then throw .again
      let k := min (groupElems s w) (vl - lo)
      let drop := decide (lo ≠ 0) && (match r.msgs.getLast? with | some m => m.done | none => false)
      if ! drop && decide (Config.chainGroups ≤ chainHeld r) then throw .again
      let bs := (List.range k).flatMap fun j => natToBytes w (read s (lo + j))
      apply fun s => setVstart (charge (modStrand s n fun t => { t with streams := t.streams.set q.val (deliverGroup t.streams[q.val] (decide (lo = 0)) w vl k bs) }) (8 * w) lo (lo + k)) (lo + k)
      chainGroups n q w vl xq read lim fuel

/-- XCHAIN: op0 is xq. A consumer that has gone while its message is being sent has ended its binding (R168). -/
def runXchain (a : VReg) (b : XReg) (fw : Fwd) (e : VEntry) (lim : Nat) : Act Bool := do
  let i : Instr := .xchain a b
  let t ← typeOf i a
  let s ← get
  let n := bits e.op0 0 12
  let p := getStrand s n
  if ! p.resident ∨ p.ctx ≠ s.st.ctx then
    if vstart s = 0 then trap 0x05 e.op0 else trap 0x0A (w64 (bits e.op0 12 2))
  chainGroups n (Fin.ofNat 4 (bits e.op0 12 2)) t.bytes e.vl e.op0 (fun s k => readA s fw a t.bytes k) lim (e.vl + 1)

/-! ## Device operations of copies -/

/-- An event of the machine: its new state. -/
def event (a : Act Unit) (s : State) : Host.Outcome State Fault Refusal := .next (Act.on a s).2

/-- The k-th command of a channel, in acceptance order. -/
def nthCmd (s : State) (c : Nat) (ch : Lane4) (k : Nat) : Option Command := ((getCore s c).commands.filter fun m => m.chan = ch)[k]?

/-- COPY_EXECUTE (R163). -/
def execCopyExecute (core : Fin 1024) (ch : Lane4) (k : Nat) (s : State) : Host.Outcome State Fault Refusal :=
  event (match nthCmd s core.val ch k with | some m => runCmd core.val m.num | none => pure ()) s

/-- RING_WRITE_RESUME (R166): a copy that waits for its ring goes on. -/
def execRingWriteResume (core : Fin 1024) (ch : Lane4) (k : Nat) (s : State) : Host.Outcome State Fault Refusal :=
  event (match nthCmd s core.val ch k with | some m => (if m.begun then runCmd core.val m.num else pure ()) | none => pure ()) s

/-- An action of strand n, with the machine's turn given back afterwards. -/
def asStrand (n : Fin 4096) (a : Act Unit) : Act Unit := do
  let back := (← get).cur
  apply fun s => focusOn s n
  let (r, s) := Act.on a (← get)
  set (focusOn s back)
  match r with
  | .ok _ => pure ()
  | .error x => throw x

/-- TILE_TRANSFER_END (R125). -/
def execTileTransferEnd (n : Fin 4096) (t : TReg) (s : State) : Host.Outcome State Fault Refusal := event (asStrand n (endTransfer t)) s

/-! ## Routines on press engines (R169, R171) -/

/-- The press engine with number e, while it runs a routine. -/
def findEngine (s : State) (e : Fin 64) : Option Engine := (s.press.engines.find? fun x => x.1 = e.val).map (·.2)
/-- The engine is replaced. -/
def putEngine (s : State) (e : Fin 64) (g : Engine) : State :=
  { s with press := { s.press with engines := s.press.engines.map fun x => if x.1 = e.val then (x.1, g) else x } }

/-- The engine is free again; its stream buffers and stack keep what they hold. -/
def freeEngine (s : State) (e : Fin 64) (g : Engine) : State :=
  { s with press := { s.press with
      engines := s.press.engines.filter fun x => x.1 ≠ e.val
      stores := sset [] s.press.stores e.val g.mem } }

/-- The routine of engine e ends with a status: STATUS is written after its last write, and the command finishes, as soon as its
release is done. -/
def endRoutine (e : Fin 64) (status : Word) : Act Unit := do
  match findEngine (← get) e with
  | none => pure ()
  | some g =>
    match findCmd (← get) g.core g.num with
    | none => apply fun s => freeEngine s e g
    | some m =>
      let (r, s) := Act.on (copyWrite g.core m (g.block + 0x38) (natToBytes 8 status.toNat) false) (← get)
      match r with
      | .error .again | .error (.park _ _) => throw .again
      | r =>
        set s
        match r with
        | .error (.trap x va) => apply fun s => recordFault s m x va
        | _ => pure ()
        let m := { m with engine := none }
        apply fun s => putCmd (freeEngine s e g) g.core m
        finishCmd g.core m

/-- The status of a routine stopped for an access outside its memories. -/
def stopStatus : Word := 0xFFFFFFFFFFFFFFFE

/-- The routine of engine e is stopped, as soon as its STATUS can be written (R169, R371). -/
def stopRoutine (e : Fin 64) (s : State) : State :=
  match Act.on (endRoutine e stopStatus) s with
  | (.ok _, s') => s'
  | (.error _, _) => s

/-- Code of a routine slot: its image after the header. -/
def slotCode (s : State) (k : Fin 64) : List Byte := (sget [] s.press.slots k.val).drop 64

/-- [loc, loc + n) lies in the stream buffers or the stack; with `code`, or in the routine's code. -/
def localOk (s : State) (g : Engine) (loc n : Nat) (code : Bool) : Bool :=
  decide (0x10000000 ≤ loc ∧ loc + n ≤ 0x10010000) || decide (0x20000000 ≤ loc ∧ loc + n ≤ 0x20004000)
    || (code && decide (loc + n ≤ (slotCode s g.slot).length))

/-- The byte at a local address. -/
def localByte (s : State) (g : Engine) (a : Nat) : Byte :=
  if a < 0x10000000 then (slotCode s g.slot).getD a 0 else sget 0 g.mem a

/-- A store of the routine of engine e to local memory (R169): outside its stream buffers and its stack it stops the routine. -/
def routineStores (e : Fin 64) (loc : Nat) (data : List Byte) (s : State) : State :=
  match findEngine s e with
  | none => s
  | some g =>
    if localOk s g loc data.length false then putEngine s e { g with mem := writeBytes g.mem loc data }
    else stopRoutine e s

/-- What a service returns in a0: 0, or the trap cause. -/
def serviceEnds (e : Fin 64) (v : Word) : Act Unit := apply fun s =>
  match findEngine s e with
  | some g => putEngine s e { g with a0 := v, moved := 0 }
  | none => s

/-- Bytes that one request of a service moves at va, of n left: to the end of the line, or behind a window of the 8-byte word. -/
def serviceUnit (t : TlbEntry) (va : VAddr) (n : Nat) : Nat :=
  min n (if t.tier = 3 then 8 - va.toNat % 8 else 128 - va.toNat % 128)

/-- Bytes from va on go to local memory, a request at a time; what has moved is kept. -/
def serviceRead (e : Fin 64) (va : VAddr) (loc n : Nat) : Nat → Act Unit
  | 0 => pure ()
  | fuel + 1 => do
    match findEngine (← get) e with
    | none => pure ()
    | some g =>
      if n ≤ g.moved then serviceEnds e 0
      else
        match findCmd (← get) g.core g.num with
        | none => pure ()
        | some m =>
          let a := va + BitVec.ofNat 48 g.moved
          let (r, s) := Act.on (do
            let t ← copyPage g.core m .load a
            copyRead g.core m a (serviceUnit t a (n - g.moved))) (← get)
          set s
          match r with
          | .error (.trap x _) => serviceEnds e (x.zeroExtend 64)
          | .error x => throw x
          | .ok (some bs, false) =>
            apply fun s => putEngine s e { g with mem := writeBytes g.mem (loc + g.moved) bs, moved := g.moved + bs.length }
            serviceRead e va loc n fuel
          | .ok _ => serviceEnds e 0x06

/-- Bytes of local memory go to va on, a request at a time. -/
def serviceWrite (e : Fin 64) (va : VAddr) (loc n : Nat) : Nat → Act Unit
  | 0 => pure ()
  | fuel + 1 => do
    match findEngine (← get) e with
    | none => pure ()
    | some g =>
      if n ≤ g.moved then serviceEnds e 0
      else
        match findCmd (← get) g.core g.num with
        | none => pure ()
        | some m =>
          let a := va + BitVec.ofNat 48 g.moved
          let (r, s) := Act.on (do
            let t ← copyPage g.core m .store a
            let s ← get
            let bs := (List.range (serviceUnit t a (n - g.moved))).map fun k => localByte s g (loc + g.moved + k)
            copyWrite g.core m a bs false
            pure bs.length) (← get)
          set s
          match r with
          | .error (.trap x _) => serviceEnds e (x.zeroExtend 64)
          | .error _ => throw .again
          | .ok b =>
            apply fun s => putEngine s e { g with moved := g.moved + b }
            serviceWrite e va loc n fuel

/-- ECALL_READ. -/
def execEcallRead (e : Fin 64) (va : VAddr) (loc n : Nat) (s : State) : Host.Outcome State Fault Refusal :=
  event (match findEngine s e with
    | some g => if localOk s g loc n false then serviceRead e va loc n (n + 1) else endRoutine e stopStatus
    | none => pure ()) s

/-- ECALL_WRITE. -/
def execEcallWrite (e : Fin 64) (va : VAddr) (loc n : Nat) (s : State) : Host.Outcome State Fault Refusal :=
  event (match findEngine s e with
    | some g => if localOk s g loc n true then serviceWrite e va loc n (n + 1) else endRoutine e stopStatus
    | none => pure ()) s

/-- Reads and writes of engine e's routine, or of another copy of its strand, at the host or a peer have not all performed. -/
def routineWaits (s : State) (e : Fin 64) : Bool :=
  match (findEngine s e).bind fun g => findCmd s g.core g.num with
  | some m => copyWritesOut s m.strand || readOut s m.strand true 0
  | none => false

/-- ECALL_WAIT: the service goes on until the routine's reads and writes have performed. -/
def execEcallWait (e : Fin 64) (s : State) : Host.Outcome State Fault Refusal :=
  event (do
    if routineWaits s e then throw .again
    serviceEnds e 0) s

/-- ROUTINE_RETURN. -/
def execRoutineReturn (e : Fin 64) (a0 : Word) (s : State) : Host.Outcome State Fault Refusal := event (endRoutine e a0) s

/-- ROUTINE_TIMEOUT. -/
def execRoutineTimeout (e : Fin 64) (s : State) : Host.Outcome State Fault Refusal := event (endRoutine e (BitVec.allOnes 64)) s

end Sys2Proof.Machine
end

