-- ==== Sys2Proof/Machine/Vines.lean ====
section
/-! DEFINITION. Vines (chapter "Vines", R133 to R155, R325, R326): descriptors, pools, counts and overlay maps, the scalar and
vector forms, service and release records, and the host's unpark. -/

namespace Sys2Proof.Machine

/-! ## Accesses to the vine structures (R133) -/

/-- For whom a vine operation runs: a strand's context and die, or the device itself; and whether it waits for walks (R178). -/
structure VineFor where
  ctx    : BitVec 12
  die    : Fin 4
  strand : Bool
  waits  : Bool := true
  deriving DecidableEq, Repr

/-- The focused strand's. -/
def vineSelf (s : State) : VineFor := { ctx := s.st.ctx, die := curDie s, strand := true }

/-- The vine walker's translation, through the last-level TLB of its die (R177). -/
def vineWalk (f : VineFor) (va : VAddr) (s : State) : Walked × State :=
  let who : Waiter := if f.strand then .strand s.cur.val else .device
  if f.waits then translateDev who f.die f.ctx va.toNat s
  else
    match s.lines.tlb.find? fun e => e.1 = f.die ∧ e.2.maps f.ctx va.toNat with
    | some e => useTlb who e.2 s
    | none =>
      match walkKept f.die who.strandNum f.ctx va.toNat s with
      | (.error c, s) => (.fault c, s)
      | (.ok e, s) => (.found e, s)

/-- Where a word of a vine structure lies: mapped, in GDDR-7 or the cellar, whatever the user permission is. -/
def vineAt (f : VineFor) (va : VAddr) : Act (TlbEntry × Nat) := do
  let t ← pageFrom va (vineWalk f va)
  if t.tier = 2 ∨ t.tier = 3 then trap 0x05 (vaWord va)
  homeGuard va (t.key va.toNat)
  pure (t, t.key va.toNat)

/-- An uncorrectable error stands at a location, or in the copy that the RDC of the walker's die serves. -/
def vineBad (f : VineFor) (s : State) (pa n : Nat) : Bool := poisonedAt s pa n || rdcPoisoned s f.die (lineOf pa)

/-- An uncorrectable error on a vine structure traps with cause 0x06. -/
def vinePoison (f : VineFor) (va : VAddr) (pa n : Nat) : Act Unit := do
  if vineBad f (← get) pa n then
    if f.strand then apply fun s => errorEvent s pa 0
    trap 0x06 (vaWord va)

/-- A vine operation that a core issues invalidates what its L1 holds of the location (R197). -/
def vineL1 (f : VineFor) (pa n : Nat) : Act Unit := do
  if f.strand then apply fun s => atomicL1 s (curCore s) pa n

/-- n bytes of a vine structure, as a number. -/
def vineRead (f : VineFor) (va : VAddr) (n : Nat) : Act Nat := do
  let (t, pa) ← vineAt f va
  vineL1 f pa n
  vinePoison f va pa n
  apply fun s => homeRead s (lineOf pa) f.die t.dedup (ctxDomain s f.ctx)
  pure (memNat (← get).mem pa n)

/-- n bytes of a vine structure written; a held write stops the whole operation, its address named. -/
def vineWrite (f : VineFor) (va : VAddr) (n v : Nat) : Act Unit := do
  let (t, pa) ← vineAt f va
  vineL1 f pa n
  vinePoison f va pa n
  if heldBy (← get) t pa then throw (.park 0x8 (.lines [pa]))
  apply fun s => homeWrite s pa (natToBytes n v) t.dedup (ctxDomain s f.ctx)

/-- A vine operation is atomic (R133): one that meets a held write, or waits for a walk, has done nothing at the homes. -/
def vineAtomic {α : Type} (a : Act α) : Act α := do
  let s ← get
  let (r, s') := Act.on a s
  match r with
  | .error (.park 0x8 (.lines [pa])) =>
    set (reportStuck (keepLooks s s') pa)
    throw (.park 0x8 .held)
  | .error .again =>
    set (keepLooks s s')
    throw .again
  | .error e => set s'; throw e
  | .ok v => set s'; pure v

/-! ## Descriptors (R134) -/

/-- A vine descriptor: its handle, its address, and its dwords. -/
structure Vine where
  h  : Nat
  va : VAddr
  w0 : Word
  w1 : Word
  w2 : Word
  w3 : Word
  w4 : Word
  w5 : Word
  w6 : Word
  w7 : Word
  broken : Bool := false           -- a wide host store has overwritten what forks change (R367)
  deriving DecidableEq, Repr

def Vine.resLen (d : Vine) : Nat := bits d.w0 32 32
def Vine.cmtLen (d : Vine) : Nat := bits d.w0 0 32
def Vine.parent (d : Vine) : Nat := bits d.w1 32 32
def Vine.forkLen (d : Vine) : Nat := bits d.w1 0 32
def Vine.overlay (d : Vine) : VAddr := BitVec.ofNat 48 (bits d.w2 6 42 * 64)
def Vine.mapLen (d : Vine) : Nat := bits d.w3 32 32
def Vine.pool (d : Vine) : Nat := bits d.w3 0 32
def Vine.children (d : Vine) : Nat := bits d.w4 48 16
def Vine.depth (d : Vine) : Nat := bits d.w4 16 3
def Vine.kind (d : Vine) : Nat := bits d.w4 4 4
def Vine.state (d : Vine) : Nat := bits d.w4 0 3
def Vine.parkIdx (d : Vine) : Nat := bits d.w5 32 32
def Vine.cowOld (d : Vine) : Nat := bits d.w5 0 32

/-- The STATE values of Table 9.1. -/
def vineFree : Nat := 0
def vineOpen : Nat := 1
def vineExtend : Nat := 2
def vineCow : Nat := 3
def vineDropping : Nat := 4
/-- PARENT of a vine without one. -/
def noParent : Nat := 0xFFFFFFFF

/-- A valid vine descriptor: KIND 1, a listed STATE, every RES field 0. -/
def Vine.valid (d : Vine) : Bool :=
  ! d.broken && decide (d.kind = 1 ∧ d.state ≤ 4 ∧ bits d.w2 48 16 = 0 ∧ bits d.w2 0 6 = 0 ∧ bits d.w4 28 4 = 0 ∧ bits d.w4 19 5 = 0
    ∧ bits d.w4 8 8 = 0 ∧ d.w7 = 0)

/-- Address of entry h of the vine table. -/
def vineEntry (s : State) (ctx : BitVec 12) (h : Nat) : VAddr := BitVec.ofNat 48 (ctxVtBase s ctx + 64 * h)

/-- Entry h of the vine table, whatever it holds. -/
def readEntry (f : VineFor) (h : Nat) : Act Vine := do
  let va := vineEntry (← get) f.ctx h
  let w (k : Nat) : Act Word := do pure (w64 (← vineRead f (va + BitVec.ofNat 48 (8 * k)) 8))
  let d : Vine := { h := h, va := va, w0 := ← w 0, w1 := ← w 1, w2 := ← w 2, w3 := ← w 3, w4 := ← w 4, w5 := ← w 5, w6 := ← w 6, w7 := ← w 7 }
  pure { d with broken := (← get).broken.contains (f.ctx, h) }

/-- The vine of a handle, or cause 0x05 with the handle. -/
def readVine (f : VineFor) (h : Nat) : Act Vine := do
  if ctxVtCount (← get) f.ctx ≤ h then trap 0x05 (w64 h)
  let d ← readEntry f h
  if ! d.valid then trap 0x05 (w64 h)
  pure d

/-- The vine of a handle in a state other than FREE and DROPPING, or cause 0x05. -/
def liveVine (f : VineFor) (h : Nat) : Act Vine := do
  let d ← readVine f h
  if d.state = vineFree ∨ d.state = vineDropping then trap 0x05 (w64 h)
  pure d

/-- The words of a descriptor that changed are written. -/
def writeVine (f : VineFor) (old new : Vine) : Act Unit := do
  let put (k : Nat) (a b : Word) : Act Unit := do
    if a ≠ b then vineWrite f (new.va + BitVec.ofNat 48 (8 * k)) 8 b.toNat
  put 0 old.w0 new.w0
  put 1 old.w1 new.w1
  put 2 old.w2 new.w2
  put 3 old.w3 new.w3
  put 4 old.w4 new.w4
  put 5 old.w5 new.w5
  put 6 old.w6 new.w6

def Vine.setRes (d : Vine) (n : Nat) : Vine := { d with w0 := setBits d.w0 32 32 n }
def Vine.setCmt (d : Vine) (n : Nat) : Vine := { d with w0 := setBits d.w0 0 32 n }
def Vine.setState (d : Vine) (n : Nat) : Vine := { d with w4 := setBits d.w4 0 3 n }
def Vine.setChildren (d : Vine) (n : Nat) : Vine := { d with w4 := setBits d.w4 48 16 n }

/-! ## Pools and counts (R135, R137) -/

/-- A pool entry. -/
structure Pool where
  h      : Nat
  base   : VAddr
  counts : VAddr
  tokb   : Nat
  deriving DecidableEq, Repr

/-- A valid pool entry, or none. -/
def poolOf (d : Vine) : Option Pool :=
  let t := bits d.w3 0 16
  if bits d.w0 48 16 = 0 ∧ bits d.w0 0 7 = 0 ∧ bits d.w1 48 16 = 0 ∧ bits d.w1 0 1 = 0 ∧ bits d.w2 32 32 = 0 ∧ bits d.w3 16 48 = 0
      ∧ d.w4 = 0x21 ∧ d.w5 = 0 ∧ d.w6 = 0 ∧ d.w7 = 0 ∧ t % 8 = 0 ∧ 8 ≤ t ∧ t ≤ 32768 then
    some { h := d.h, base := BitVec.ofNat 48 d.w0.toNat, counts := BitVec.ofNat 48 d.w1.toNat, tokb := t }
  else none

/-- The pool entry of a handle, if it is one. -/
def readPool (f : VineFor) (h : Nat) : Act (Option Pool) := do
  if ctxVtCount (← get) f.ctx ≤ h then pure none else pure (poolOf (← readEntry f h))

/-- The pool of a vine, or cause 0x05 with the vine's handle. -/
def vinePool (f : VineFor) (d : Vine) : Act Pool := do
  match ← readPool f d.pool with
  | some p => pure p
  | none => trap 0x05 (w64 d.h)

/-- Address of the count of page g. -/
def countVa (p : Pool) (g : Nat) : VAddr := p.counts + BitVec.ofNat 48 (2 * g)

/-- The count of page g. -/
def readCount (f : VineFor) (p : Pool) (g : Nat) : Act Nat := vineRead f (countVa p g) 2

/-- A count changed by up to 1, saturating at 0xFFFF: its new value. An uncorrectable error leaves it, and names its address. -/
def changeCount (f : VineFor) (p : Pool) (g : Nat) (up : Bool) : Act (Except VAddr (Option Nat)) := do
  let va := countVa p g
  let (_, pa) ← vineAt f va
  vineL1 f pa 2
  if vineBad f (← get) pa 2 then
    if f.strand then apply fun s => errorEvent s pa 0
    pure (.error va)
  else
    let c ← vineRead f va 2
    if c = 0xFFFF ∨ (c = 0 ∧ ! up) then pure (.ok none)
    else
      let n := if up then c + 1 else c - 1
      vineWrite f va 2 n
      pure (.ok (some n))

/-! ## Overlay maps (R136) -/

/-- Address of entry p of the map. -/
def mapVa (d : Vine) (p : Nat) : VAddr := d.overlay + BitVec.ofNat 48 (0x200 + 8 * p)

/-- Entry p: unmapped at or above MAPLEN, and when its RES field is not 0. -/
def mapEntry (f : VineFor) (d : Vine) (p : Nat) : Act Nat := do
  if d.mapLen ≤ p then pure 0
  else
    let e ← vineRead f (mapVa d p) 8
    pure (if e / 2 ^ 32 % 2 ^ 30 = 0 then e else 0)

/-- V and PAGE of an entry. -/
def mapValid (e : Nat) : Bool := e / 2 ^ 63 % 2 = 1
def mapPage (e : Nat) : Nat := e % 2 ^ 32

/-- PINS of every page of [a, a + n) is due. -/
def pagesDue (s : State) (ctx : BitVec 12) (a n : Nat) : State :=
  (List.range (n / 0x10000 + 1)).foldl (fun s k => pinsDue s ctx (a + 0x10000 * k)) (pinsDue s ctx (a + n - 1))

/-- UNC of entry p := v, where the entry is valid and differs. -/
def setUnc (f : VineFor) (d : Vine) (p : Nat) (v : Bool) : Act Unit := do
  let e ← mapEntry f d p
  if mapValid e ∧ (e / 2 ^ 62 % 2 = 1) ≠ (v = true) then
    vineWrite f (mapVa d p) 8 (if v then e + 2 ^ 62 else e - 2 ^ 62)
    match ← readPool f d.pool with
    | some pl => apply fun s => pagesDue s f.ctx (pl.base + BitVec.ofNat 48 (mapPage e * 16 * pl.tokb)).toNat (16 * pl.tokb)
    | none => pure ()

/-- An action for each number from k on, n of them. -/
def upFrom : Nat → Nat → (Nat → Act Unit) → Act Unit
  | 0, _, _ => pure ()
  | n + 1, k, f => do
    f k
    upFrom n (k + 1) f

/-- The commit window, 4,096 bits. -/
def readWindow (f : VineFor) (d : Vine) : Nat → Nat → Act Nat
  | 0, _ => pure 0
  | n + 1, k => do
    let w ← vineRead f (d.overlay + BitVec.ofNat 48 (8 * k)) 8
    let r ← readWindow f d n (k + 1)
    pure (w + r * 2 ^ 64)

/-- The whole window. -/
def window (f : VineFor) (d : Vine) : Act Nat := readWindow f d 64 0

/-- The dwords of a window that changed are written. -/
def writeWindow (f : VineFor) (d : Vine) (old new : Nat) : Act Unit :=
  upFrom 64 0 fun k => do
    let w := new / 2 ^ (64 * k) % 2 ^ 64
    if w ≠ old / 2 ^ (64 * k) % 2 ^ 64 then vineWrite f (d.overlay + BitVec.ofNat 48 (8 * k)) 8 w

/-- Bit of slot j in a window. -/
def slotBit (w j : Nat) : Bool := w / 2 ^ (j % 4096) % 2 = 1

/-- Bits of slots [a, a + n) set in a window where they are clear. -/
def setSlots (w a : Nat) : Nat → Nat
  | 0 => w
  | n + 1 => setSlots (if slotBit w a then w else w + 2 ^ (a % 4096)) (a + 1) n

/-- CMTLEN grows over committed slots, whose bits are cleared (R141). -/
def growCommit (w c r : Nat) : Nat → Nat × Nat
  | 0 => (w, c)
  | n + 1 => if c < r ∧ slotBit w c then growCommit (w - 2 ^ (c % 4096)) (c + 1) r n else (w, c)

/-! ## Translation (R143) -/

/-- The pool page of token i, through the vine's own map first and then through its parents. -/
def resolve (f : VineFor) (h i : Nat) : Nat → Vine → Act Nat
  | 0, _ => trap 0x05 (w64 h)
  | n + 1, v => do
    let e ← mapEntry f v (i / 16)
    if mapValid e then pure (mapPage e)
    else if v.parent = noParent ∨ v.forkLen ≤ i then trap 0x05 (w64 h)
    else resolve f h i n (← readVine f v.parent)

/-- Address of token i's byte o in pool page g. -/
def tokenVa (p : Pool) (g i o : Nat) : VAddr := p.base + BitVec.ofNat 48 ((g * 16 + i % 16) * p.tokb + o)

/-! ## Service and release records (R146, R147, R155) -/

/-- A record as its first three dwords; SEQ follows when it is written. -/
def recordWords (kind h pool page copy old : Nat) : List Word :=
  [w64 (h * 2 ^ 32 + kind), w64 (pool * 2 ^ 32 + page), w64 (copy * 2 ^ 32 + old)]

/-- A service or release queue is no structure of R133: a page of it that may not be read or written faults (R146). -/
def queueMay (f : VineFor) (k : Access) (va : VAddr) : Act Unit := do
  let (t, _) ← vineAt f va
  if ! pageAllows k true t then trap 0x05 (vaWord va)

/-- A record is written to the queue at q if there is room: its address and SEQ. A header with a RES field that is not 0 is invalid
(R9): its word faults as one that may not be accessed (log 66). -/
def pushRecord (f : VineFor) (q : Nat) (r : List Word) : Act (Option (VAddr × Nat)) := do
  let va := BitVec.ofNat 48 q
  queueMay f .load va
  let hd ← vineRead f va 8
  let tl ← vineRead f (va + 8) 8
  let lg ← vineRead f (va + 0x10) 8
  if 32 ≤ lg then trap 0x05 (vaWord (va + 0x10))
  for k in [3, 4, 5, 6, 7] do
    let a := va + BitVec.ofNat 48 (8 * k)
    if (← vineRead f a 8) ≠ 0 then trap 0x05 (vaWord a)
  let n := 2 ^ (max 4 (min 16 (lg % 32)))
  if n ≤ (tl + 2 ^ 64 - hd) % 2 ^ 64 then pure none
  else
    let a := va + BitVec.ofNat 48 (0x40 + 32 * (tl % n))
    queueMay f .store a
    queueMay f .store (va + 8)
    for (w, k) in (r ++ [w64 (tl + 1)]).zipIdx do
      vineWrite f (a + BitVec.ofNat 48 (8 * k)) 8 w.toNat
    vineWrite f (va + 8) 8 ((tl + 1) % 2 ^ 64)
    pure (some (a, tl + 1))

/-- KIND and HANDLE of a record. -/
def recordKind (r : List Word) : Nat := bits (r.headD 0) 0 8
def recordHandle (r : List Word) : Nat := bits (r.headD 0) 32 32

/-- The event of a record that was written. -/
def recordEvent (s : State) (kind : BitVec 8) (ctx : BitVec 12) (r : List Word) (a : VAddr) : State :=
  postEvent s kind (BitVec.ofNat 8 (recordKind r)) ctx (w64 (recordHandle r)) (vaWord a)

/-- A release record is posted, or waits: behind those that wait, for room, or after a fault (R155). -/
def postRelease (f : VineFor) (r : List Word) : Act Unit := do
  let s ← get
  let hold (s : State) : State := { s with waitRel := s.waitRel ++ [(f.die, f.ctx, r)] }
  if s.waitRel.any fun x => decide (x.2.1 = f.ctx) then set (hold s)
  else
    let (x, s') := Act.on (pushRecord f (ctxRelq s f.ctx) r) s
    match x with
    | .ok (some (a, _)) => set (recordEvent s' 0x11 f.ctx r a)
    | .error (.park p k) => set s'; throw (.park p k)
    | .error .again => set s'; throw .again
    | _ => set (hold s)

/-- A page's count falls by 1; at 0 its release record is posted. The address of a count with an uncorrectable error. -/
def dropPage (f : VineFor) (h : Nat) (p : Pool) (g : Nat) : Act (Option VAddr) := do
  match ← changeCount f p g false with
  | .error va => pure (some va)
  | .ok (some 0) =>
    postRelease f (recordWords 0x08 h p.h g 0 0)
    pure none
  | .ok _ => pure none

/-- An uncorrectable error on a count, met on the way, traps when the rest is done. -/
def countTrap (e : Option VAddr) : Act Unit :=
  match e with
  | some va => trap 0x06 (vaWord va)
  | none => pure ()

/-- An action for each number from k on, n of them: the first error that one names. -/
def firstError : Nat → Nat → (Nat → Act (Option VAddr)) → Act (Option VAddr)
  | 0, _, _ => pure none
  | n + 1, k, f => do
    let a ← f k
    let b ← firstError n (k + 1) f
    pure (a.orElse fun _ => b)

/-! ## Parks and wakes (R140, R150) -/

/-- `sqinfo`: index, event and handle. -/
def noteVine (s : State) (idx ev h : Nat) : State :=
  s.modCsr fun c => { c with sqinfo := w64 (idx % 2 ^ 32 * 2 ^ 32 + ev * 2 ^ 28 + h % 2 ^ 28) }

/-- The strands of a context that are parked on vine h with one of the reasons wake; a vine or window park notes it. One whose frame
is in memory notes it at its restore (R149, R150). -/
def wakeVine (s : State) (ctx : BitVec 12) (h : Nat) (why : List (BitVec 4)) : State :=
  let wakes (v : Saved) : Bool := decide (v.ctx = ctx ∧ v.wait = .vine (BitVec.ofNat 32 h)) && why.contains v.park
  let s := { s with lp := { s.lp with saved := s.lp.saved.map fun v => if wakes v then { v with woken := true } else v } }
  modStrandsWhere s (fun t => decide (t.resident ∧ t.ctx = ctx ∧ t.wait = .vine (BitVec.ofNat 32 h)) && why.contains t.park) fun t =>
    let t' := unpark s.cycle t
    if t.park = 4 ∨ t.park = 5 then { t' with csr := { t'.csr with sqinfo := setBits t'.csr.sqinfo 28 4 5 } } else t'

/-- The strand parks on a vine. -/
def parkVine {α : Type} (r : BitVec 4) (h idx ev : Nat) : Act α := do
  apply fun s => noteVine s idx ev h
  throw (.park r (.vine (BitVec.ofNat 32 h)))

/-- Service(h, kind, p): STATE, PARKIDX and COWOLD are set and the record posted; a fault on its way traps, and the record
waits with PEND set (R146). -/
def service (f : VineFor) (d : Vine) (kind p old : Nat) : Act Unit := do
  let d1 := d.setState (if kind = 2 then vineCow else vineExtend)
  let w5 := setBits d1.w5 32 32 p
  let d1 := { d1 with w5 := if kind = 2 then setBits w5 0 32 old else w5 }
  writeVine f d d1
  apply fun s => { s with parkedAt := s.parkedAt.filter (· ≠ (f.ctx, d.h)) ++ [(f.ctx, d.h)] }
  if kind = 2 then apply fun s => { s with cows := s.cows ++ [(f.ctx, BitVec.ofNat 32 d.h)] }
  let r := recordWords kind d.h d.pool p (if kind = 2 then min 16 (d.cmtLen - 16 * p) else 0) (if kind = 2 then old else 0)
  let wait : Act Unit := do
    writeVine f d1 { d1 with w4 := setBits d1.w4 3 1 1 }
    apply fun s => { s with waitSvc := s.waitSvc ++ [(f.ctx, BitVec.ofNat 32 d.h, r)] }
  let s ← get
  if s.waitSvc.any fun x => decide (x.1 = f.ctx) then wait
  else
    let (x, s') := Act.on (pushRecord f (ctxSvcq s f.ctx) r) s
    match x with
    | .ok (some (a, n)) =>
      set s'
      writeVine f d1 { d1 with w6 := w64 n }
      apply fun s => recordEvent s 0x10 f.ctx r a
    | .ok none => set s'; wait
    | .error (.trap c v) => set s'; wait; trap c v
    | .error e => set s'; throw e

/-- A reservation stops: the vine is parked already, or a page needs service. -/
def parkReserve {α : Type} (f : VineFor) (d : Vine) (kind p old : Nat) : Act α := do
  service f d kind p old
  parkVine 0x4 d.h p (if kind = 1 then 1 else if kind = 2 then 2 else 3)

/-- Each page of a reservation is mapped and unshared, from page p on, n of them (R140). -/
def reservePages (f : VineFor) (d : Vine) (pl : Pool) : Nat → Nat → Act Unit
  | 0, _ => pure ()
  | n + 1, p => do
    if d.mapLen ≤ p then parkReserve f d 3 p 0
    let e ← mapEntry f d p
    if ! mapValid e then parkReserve f d 1 p 0
    if 1 < (← readCount f pl (mapPage e)) then parkReserve f d 2 p (mapPage e)
    reservePages f d pl n (p + 1)

/-- SQRES(h, n) for one evaluation: the start index, or a park (R140). -/
def reserve (h n : Nat) : Act Nat := vineAtomic (do
  let f := vineSelf (← get)
  let d ← liveVine f h
  if n = 0 then pure d.resLen
  else
    if d.state ≠ vineOpen then
      parkVine 0x4 h d.parkIdx (if d.state = vineCow then 2 else if d.mapLen ≤ d.parkIdx then 3 else 1)
    if 0xFFFFFFFF < d.resLen + n then trap 0x05 (w64 h)
    if 4096 < d.resLen + n - d.cmtLen then parkVine 0x5 h (d.resLen + n) 4
    let pl ← vinePool f d
    let p := d.resLen / 16
    let k := (d.resLen + n - 1) / 16 + 1 - p
    reservePages f d pl k p
    writeVine f d (d.setRes (d.resLen + n))
    upFrom k p fun q => setUnc f d q true
    pure d.resLen)

/-- No slot of page q lies in [c, r). -/
def nothingOpen (c r q : Nat) : Bool := decide (min r (16 * q + 16) ≤ max c (16 * q))

/-- SQCMT of n slots from start, after its release (R141). -/
def commit (h start n : Nat) : Act Unit := vineAtomic (do
  let f := vineSelf (← get)
  let d ← liveVine f h
  if 4096 < n ∨ start < d.cmtLen ∨ d.resLen < start + n then trap 0x05 (w64 h)
  if n ≠ 0 then
    let w ← window f d
    if (List.range n).any fun k => slotBit w (start + k) then trap 0x05 (w64 h)
    let (w', c) := growCommit (setSlots w start n) d.cmtLen d.resLen 4097
    writeWindow f d w w'
    writeVine f d (d.setCmt c)
    let p := d.cmtLen / 16
    upFrom (if d.resLen = 0 then 0 else (d.resLen - 1) / 16 + 1 - p) p fun q => do
      if nothingOpen c d.resLen q then setUnc f d q false
    apply fun s => wakeVine s f.ctx h [5, 6])

/-- Where a store of sz bytes to a token goes, with the checks of R139 in their order. -/
def storeToken (h i o sz : Nat) (plain : Bool) : Act VAddr := do
  let f := vineSelf (← get)
  let d ← liveVine f h
  let pl ← vinePool f d
  let i := if plain then i + o / pl.tokb else i
  let o := if plain then o % pl.tokb else o
  let w ← window f d
  if i < d.cmtLen ∨ d.resLen ≤ i ∨ slotBit w i then trap 0x05 (w64 i)
  if ! plain ∧ pl.tokb < o + sz then trap 0x05 (w64 i)
  let e ← mapEntry f d (i / 16)
  if ! mapValid e then trap 0x05 (w64 h)
  let va := tokenVa pl (mapPage e) i o
  if pl.tokb < o + sz then trap 0x03 (vaWord va)
  aligned va sz
  pure va

/-- A vine store: an ordinary store of the strand; pool pages in scratchpad or MMIO trap with 0x05 (Table 18.1). -/
def vineStore (va : VAddr) (bs : List Byte) : Act Unit := do
  let t ← translate .store va
  if t.tier = 2 ∨ t.tier = 3 then trap 0x05 (vaWord va)
  storeThrough t va (t.key va.toNat) bs

/-- Where a load of sz bytes of a token comes from; none at or above CMTLEN. -/
def loadToken (h i o sz : Nat) (plain : Bool) : Act (Nat × Option VAddr) := do
  let f := vineSelf (← get)
  let d ← liveVine f h
  let pl ← vinePool f d
  let i := if plain then i + o / pl.tokb else i
  let o := if plain then o % pl.tokb else o
  if d.cmtLen ≤ i then pure (i, none)
  else
    if ! plain ∧ pl.tokb < o + sz then trap 0x05 (w64 i)
    let g ← resolve f h i 5 d
    let va := tokenVa pl g i o
    if pl.tokb < o + sz then trap 0x03 (vaWord va)
    aligned va sz
    pure (i, some va)

/-- A vine read: at the home, never from an L1 (R142). -/
def vineLoad (va : VAddr) (sz : Nat) : Act Nat := do
  let t ← translate .load va
  if t.tier = 2 ∨ t.tier = 3 then trap 0x05 (vaWord va)
  pure (bytesToNat (← readAtHome t va (t.key va.toNat) sz))

/-- Handle, token and byte offset of operands (R139). -/
def handleOf (w : Word) : Nat := bits w 0 32
def tokenOf (w : Word) : Nat := bits w 0 32
def offsetOf (w : Word) : Nat := bits w 32 16

/-! ## The scalar forms (Table 9.5) -/

/-- SQOPEN. -/
def execSqopen (d h p : XReg) (s : State) : Host.Outcome State Fault Refusal :=
  scalar 4 (do
    let f := vineSelf s
    let r ← vineAtomic (do
      let v ← readVine f (handleOf (s.readX h))
      if v.state ≠ vineFree then pure 1
      else
        match ← readPool f (handleOf (s.readX p)) with
        | none => pure 2
        | some pl =>
          writeVine f v { v with
            w0 := 0
            w1 := w64 (noParent * 2 ^ 32)
            w3 := setBits v.w3 0 32 pl.h
            w4 := w64 (pl.tokb * 2 ^ 32 + 4 * 2 ^ 24 + 0x10 + vineOpen) }
          pure 0)
    apply fun s => s.writeX d (w64 r)) s

/-- SQRES. -/
def execSqres (d h n : XReg) (s : State) : Host.Outcome State Fault Refusal :=
  scalar 4 (do
    if 4096 < (s.readX n).toNat then illegal (.sqres d h n)
    let r ← reserve (handleOf (s.readX h)) (s.readX n).toNat
    apply fun s => s.writeX d (w64 r)) s

/-- SQST. -/
def execSqst (z : Sz) (x h i : XReg) (s : State) : Host.Outcome State Fault Refusal :=
  scalar 4 (do
    let va ← storeToken (handleOf (s.readX h)) (tokenOf (s.readX i)) (offsetOf (s.readX i)) (szBytes z) false
    vineStore va (natToBytes (szBytes z) (s.readX x).toNat)) s

/-- SQCMT: a refused commit has still performed its release. -/
def execSqcmt (c : WideScope) (h r : XReg) (s : State) : Host.Outcome State Fault Refusal :=
  scalar 4 (do
    release (wideScope c)
    commit (handleOf (s.readX h)) (bits (s.readX r) 0 32) (bits (s.readX r) 32 32)) s

/-- SQLEN. -/
def execSqlen (c : WideScope) (d h : XReg) (s : State) : Host.Outcome State Fault Refusal :=
  scalar 4 (do
    let v ← liveVine (vineSelf s) (handleOf (s.readX h))
    acquire (wideScope c)
    apply fun s => s.writeX d (w64 v.cmtLen)) s

/-- SQWAIT. -/
def execSqwait (c : WideScope) (d h n : XReg) (s : State) : Host.Outcome State Fault Refusal :=
  scalar 4 (do
    let v ← liveVine (vineSelf s) (handleOf (s.readX h))
    if v.cmtLen < bits (s.readX n) 0 32 then throw (.park 0x6 (.vine (BitVec.ofNat 32 v.h)))
    acquire (wideScope c)
    apply fun s => s.writeX d (w64 v.cmtLen)) s

/-- SQLD. -/
def execSqld (z : Sz) (d h i : XReg) (s : State) : Host.Outcome State Fault Refusal :=
  scalar 4 (do
    match ← loadToken (handleOf (s.readX h)) (tokenOf (s.readX i)) (offsetOf (s.readX i)) (szBytes z) false with
    | (t, none) => trap 0x08 (w64 t)
    | (_, some va) =>
      let v ← vineLoad va (szBytes z)
      apply fun s => s.writeX d (w64 v)) s

/-- SQFORK's effect at the homes (R144): the code for xd. -/
def fork (f : VineFor) (h c L : Nat) : Act Nat := do
  let d ← liveVine f h
  if d.depth = 4 ∧ 0 < L then trap 0x09 (w64 h)
  if ctxVtCount (← get) f.ctx ≤ c then pure 1
  else
    let k ← readEntry f c
    let q := (L - 1) / 16
    if ! k.valid ∨ k.state ≠ vineFree then pure 1
    else if d.cmtLen < L then pure 2
    else if L % 16 ≠ 0 ∧ d.cmtLen < 16 * q + 16 ∧ d.cmtLen < d.resLen then pure 3
    else if 0 < L ∧ d.children = 0xFFFF then pure 4
    else if L % 16 ≠ 0 ∧ k.mapLen ≤ q then pure 5
    else
      let pl ← vinePool f d
      let err ← firstError (ceilDiv L 16) 0 fun p => do
        let g ← resolve f h (16 * p) 5 d
        match ← changeCount f pl g true with
        | .error va => pure (some va)
        | .ok _ => pure none
      if L % 16 ≠ 0 then
        let g ← resolve f h (16 * q) 5 d
        vineWrite f (mapVa k q) 8 (2 ^ 63 + g)
      writeVine f k { k with
        w0 := w64 (L * 2 ^ 32 + L)
        w1 := w64 ((if 0 < L then h else noParent) * 2 ^ 32 + L)
        w3 := setBits k.w3 0 32 d.pool
        w4 := w64 (pl.tokb * 2 ^ 32 + 4 * 2 ^ 24 + (if 0 < L then d.depth + 1 else 0) * 2 ^ 16 + 0x10 + vineOpen) }
      if 0 < L then writeVine f d (d.setChildren (d.children + 1))
      countTrap err
      pure 0

/-- SQFORK: a release at `.dv`. -/
def execSqfork (d h b : XReg) (s : State) : Host.Outcome State Fault Refusal :=
  scalar 4 (do
    release .dv
    let r ← vineAtomic (fork (vineSelf s) (handleOf (s.readX h)) (bits (s.readX b) 32 32) (bits (s.readX b) 0 32))
    apply fun s => s.writeX d (w64 r)) s

/-- 64 or more release records wait on the die: a drop or trim parks before any effect (R155). -/
def releaseRoom : Act Unit := do
  let s ← get
  if 64 ≤ (s.waitRel.filter fun r => r.1 = curDie s).length then throw (.park 0xD .release)

/-- The highest slot of [c, r) whose bit is set, plus 1; else 0. -/
def highestSlot (w c r : Nat) : Nat := (List.range (r - c)).foldl (fun m k => if slotBit w (c + k) then c + k + 1 else m) 0

/-- SQTRIM's effect (R153): the value for xd. -/
def trim (f : VineFor) (h n : Nat) : Act Nat := do
  let d ← liveVine f h
  releaseRoom
  let w ← window f d
  let new := max n (max d.cmtLen (highestSlot w d.cmtLen d.resLen))
  if d.resLen ≤ new then pure d.resLen
  else
    let pl ← vinePool f d
    let d1 := d.setRes new
    writeVine f d d1
    let p := ceilDiv new 16
    let err ← firstError (d.mapLen - p) p fun q => do
      let e ← mapEntry f d q
      if mapValid e then
        let r ← dropPage f h pl (mapPage e)
        vineWrite f (mapVa d q) 8 0
        pure r
      else pure none
    let q := d.cmtLen / 16
    upFrom (p - q) q fun k => do
      if nothingOpen d.cmtLen new k then setUnc f d k false
    apply fun s => wakeVine (allPinsDue s) f.ctx h [5]
    countTrap err
    pure new

/-- SQTRIM. -/
def execSqtrim (d h n : XReg) (s : State) : Host.Outcome State Fault Refusal :=
  scalar 4 (do
    let r ← vineAtomic (trim (vineSelf s) (handleOf (s.readX h)) (bits (s.readX n) 0 32))
    apply fun s => s.writeX d (w64 r)) s

/-- Finish(v) (R154): the references through the parent go, the map and the window are cleared, and the vine is FREE; so does
a DROPPING parent with its last child. -/
def finishVine (f : VineFor) : Nat → Vine → Act (Option VAddr)
  | 0, _ => pure none
  | n + 1, v => do
    let pl ← vinePool f v
    let err ←
      if v.parent = noParent then pure none
      else
        let par ← readVine f v.parent
        firstError (ceilDiv v.forkLen 16) 0 fun p => do
          if mapValid (← mapEntry f v p) then pure none
          else dropPage f v.h pl (← resolve f v.h (16 * p) 5 par)
    upFrom v.mapLen 0 fun p => do
      if (← vineRead f (mapVa v p) 8) ≠ 0 then vineWrite f (mapVa v p) 8 0
    writeWindow f v (← window f v) 0
    writeVine f v (v.setState vineFree)
    apply allPinsDue
    postRelease f (recordWords 0x09 v.h v.pool 0 0 0)
    if v.parent = noParent then pure err
    else
      let par ← readVine f v.parent
      let par1 := par.setChildren (par.children - 1)
      writeVine f par par1
      if par.state = vineDropping ∧ par1.children = 0 then
        let e ← finishVine f n par1
        pure (err.orElse fun _ => e)
      else pure err

/-- SQDROP's effect (R154). -/
def dropVine (f : VineFor) (h : Nat) : Act Unit := do
  let d ← liveVine f h
  if d.state ≠ vineOpen then throw (.park 0x7 (.vine (BitVec.ofNat 32 h)))
  releaseRoom
  let pl ← vinePool f d
  apply fun s => wakeVine s f.ctx h [4, 5, 6, 7]
  let err ← firstError d.mapLen 0 fun p => do
    let e ← mapEntry f d p
    if mapValid e then dropPage f h pl (mapPage e) else pure none
  if 0 < d.children then
    writeVine f d (d.setState vineDropping)
    countTrap err
  else
    let e ← finishVine f 6 d
    countTrap (err.orElse fun _ => e)

/-- SQDROP: a release at `.dv`. -/
def execSqdrop (h : XReg) (s : State) : Host.Outcome State Fault Refusal :=
  scalar 4 (do
    release .dv
    vineAtomic (dropVine (vineSelf s) (handleOf (s.readX h)))) s

/-! ## The vector forms (R151, R152, R326) -/

/-- A tag i32, n32, i64 or n64. -/
def wideInt (i : Instr) (r : VReg) : Act Elem := do
  let t ← typeOf i r
  require i (t.isInt && decide (32 ≤ t.width))
  pure t

/-- VSQRES. -/
def runVsqres (m : Bool) (g : Lane4) (d h : VReg) (e : VEntry) (lim : Nat) : Act Bool := do
  let i : Instr := .vsqres m g d h
  let th ← wideInt i h
  let td ← wideInt i d
  require i (! td.isSigned)
  overElems (max td.width th.width) [d] e lim fun k => do
    if active (← get) m k then
      let r ← reserve (elemAt (← get) h th.bytes k % 2 ^ 32) 1
      apply fun s => setElem s d td.bytes k r

/-- Store element k of a register to a token. -/
def tokenStore (v : VReg) (b k h i o : Nat) (plain : Bool) : Act Unit := do
  let va ← storeToken h i o b plain
  vineStore va (natToBytes b (elemAt (← get) v b k))

/-- VSQST: op0 is xh, op1 xi. -/
def runVsqst (m : Bool) (g : Lane4) (v : VReg) (h x : XReg) (e : VEntry) (lim : Nat) : Act Bool := do
  let t ← typeOf (.vsqst m g v h x) v
  overElems t.width [] e lim fun k => do
    if active (← get) m k then
      tokenStore v t.bytes k (handleOf e.op0) (tokenOf e.op1) (offsetOf e.op1 + k * t.bytes) true

/-- An index register of tokens and offsets: i64 or n64. -/
def tokenType (i : Instr) (r : VReg) : Act Elem := do
  let t ← typeOf i r
  require i (t.isInt && decide (t.width = 64))
  pure t

/-- VSQST.X. -/
def runVsqstX (m : Bool) (g : Lane4) (v h x : VReg) (e : VEntry) (lim : Nat) : Act Bool := do
  let i : Instr := .vsqstX m g v h x
  let th ← wideInt i h
  let _ ← tokenType i x
  let t ← typeOf i v
  overElems (max t.width 64) [] e lim fun k => do
    let s ← get
    if active s m k then
      let w := w64 (elemAt s x 8 k)
      tokenStore v t.bytes k (elemAt s h th.bytes k % 2 ^ 32) (tokenOf w) (offsetOf w) false

/-- VSQCMT: one release before the first element, then one slot for each. -/
def runVsqcmt (c : WideScope) (m : Bool) (g : Lane4) (h x : VReg) (e : VEntry) (lim : Nat) : Act Bool := do
  let i : Instr := .vsqcmt c m g h x
  let th ← wideInt i h
  let tx ← wideInt i x
  if vstart (← get) < e.vl ∧ releaseWaits (wideScope c) (← get) then throw .again
  overElems (max tx.width th.width) [] e lim fun k => do
    let s ← get
    if active s m k then commit (elemAt s h th.bytes k % 2 ^ 32) (elemAt s x tx.bytes k % 2 ^ 32) 1

/-- The address that a token read of b bytes names, where it names a committed token. -/
def tokenAddr (b : Nat) (plain : Bool) (s : State) (p : Nat × Nat × Nat) : List VAddr :=
  match (Act.on (loadToken p.1 p.2.1 p.2.2 b plain) s).1 with
  | .ok (_, some va) => [va]
  | _ => []

/-- Element k loaded from a token, and bit k of m0 (R152): `place` gives the handle, token and offset of an element, and lo is the
first element of the window of R228. -/
def tokenLoad (m : Bool) (d : VReg) (b lo vl k : Nat) (place : Nat → Nat × Nat × Nat) (plain : Bool) : Act Unit := do
  let p := place k
  match ← loadToken p.1 p.2.1 p.2.2 b plain with
  | (_, none) => apply fun s => setMask s 0 (putBit s.st.m[0] k false)
  | (_, some va) =>
    let s ← get
    if (readsPoison s (fun _ _ => none) va b).isSome then
      poisonTrap m b lo vl k (fun _ _ _ => none) fun j => tokenAddr b plain s (place j)
    let v ← vineLoad va b
    apply fun s => setMask (setElem s d b k v) 0 (putBit s.st.m[0] k true)

/-- VSQLD: op0 is xh, op1 xi. -/
def runVsqld (m : Bool) (g : Lane4) (d : VReg) (h x : XReg) (e : VEntry) (lim : Nat) : Act Bool := do
  let t ← typeOf (.vsqld m g d h x) d
  let lo := vstart (← get)
  overElems t.width [d] e lim fun k => do
    if active (← get) m k then
      tokenLoad m d t.bytes lo e.vl k (fun j => (handleOf e.op0, tokenOf e.op1, offsetOf e.op1 + j * t.bytes)) true

/-- VSQLD.X. -/
def runVsqldX (m : Bool) (g : Lane4) (d h x : VReg) (e : VEntry) (lim : Nat) : Act Bool := do
  let i : Instr := .vsqldX m g d h x
  let th ← wideInt i h
  let _ ← tokenType i x
  let t ← typeOf i d
  let s ← get
  let lo := vstart s
  let place (j : Nat) : Nat × Nat × Nat :=
    let w := w64 (elemAt s x 8 j)
    (elemAt s h th.bytes j % 2 ^ 32, tokenOf w, offsetOf w)
  overElems (max t.width 64) [d] e lim fun k => do
    if active (← get) m k then tokenLoad m d t.bytes lo e.vl k place false

/-! ## The device's own operations (R146, R149, R155) -/

/-- The device acts for a context from M0. -/
def vineDevice (ctx : BitVec 12) : VineFor := { ctx, die := 0, strand := false }

/-- A vine update is due. -/
def addDue (ctx : BitVec 12) (h : BitVec 32) (u : VineDue) (s : State) : State := { s with vineDue := s.vineDue ++ [(ctx, h, u)] }

/-- A vine update of the device's own runs; one that a held write or a walk stops is due, and one that faults is given up. -/
def dueOr (ctx : BitVec 12) (h : BitVec 32) (u : VineDue) (a : Act Unit) : Act Unit := do
  let (r, s) := Act.on a (← get)
  match r with
  | .ok _ => set s
  | .error (.park _ _) | .error .again => set (addDue ctx h u s)
  | .error _ => pure ()

/-- The descriptor of a vine whose waiting record has been written: PEND := 0 and SVCSEQ (R146). -/
def notePosted (f : VineFor) (h q : Nat) : Act Unit := do
  let d ← readVine f h
  writeVine f d { d with w4 := setBits d.w4 3 1 0, w6 := w64 q }

/-- The oldest waiting service records of a context are posted while there is room, n at most. -/
def pollService (ctx : BitVec 12) : Nat → Act Unit
  | 0 => pure ()
  | n + 1 => do
    let s ← get
    match s.waitSvc.find? fun x => decide (x.1 = ctx) with
    | none => pure ()
    | some x =>
      let f := vineDevice ctx
      let (r, s') := Act.on (pushRecord f (ctxSvcq s ctx) x.2.2) s
      match r with
      | .ok (some (a, q)) =>
        set { (recordEvent s' 0x10 ctx x.2.2 a) with waitSvc := s'.waitSvc.erase x }
        dueOr ctx x.2.1 (.posted q) (vineAtomic (notePosted f x.2.1.toNat q))
        pollService ctx n
      | .error .again => set (keepLooks s s')
      | _ => pure ()

/-- The oldest waiting release records of a context are posted while there is room; strands that wait for the store wake. -/
def pollRelease (ctx : BitVec 12) : Nat → Act Unit
  | 0 => apply fun s => wakeKey s .release
  | n + 1 => do
    let s ← get
    match s.waitRel.find? fun x => decide (x.2.1 = ctx) with
    | none => apply fun s => wakeKey s .release
    | some x =>
      let (r, s') := Act.on (pushRecord (vineDevice ctx) (ctxRelq s ctx) x.2.2) s
      match r with
      | .ok (some (a, _)) =>
        set { (recordEvent s' 0x11 ctx x.2.2 a) with waitRel := s'.waitRel.erase x }
        pollRelease ctx n
      | .error .again => set (wakeKey (keepLooks s s') .release)
      | _ => apply fun s => wakeKey s .release

/-- Both queues of a context are polled. -/
def pollQueues (ctx : BitVec 12) : Act Unit := do
  pollService ctx (← get).waitSvc.length
  pollRelease ctx (← get).waitRel.length

/-- The count of a page falls that the COW of vine h has copied (R149). -/
def giveUp (f : VineFor) (h old : Nat) : Act Unit := do
  let d ← readVine f h
  let pl ← vinePool f d
  let _ ← dropPage f h pl old

/-- The page that an OPEN vine gives up: the one its COW has copied, unless its map still names that (R149). -/
def copiedPage (f : VineFor) (d : Vine) : Act (Option Nat) := do
  let e ← mapEntry f d d.parkIdx
  pure (if mapValid e && decide (mapPage e = d.cowOld) then none else some d.cowOld)

/-- One count operation on page g of the pool of a handle. -/
def countPage (f : VineFor) (h : Nat) (up : Bool) (g : Nat) : Act Unit := do
  match ← readPool f h with
  | none => pure ()
  | some pl =>
    if up then
      let _ ← changeCount f pl g true
    else
      let _ ← dropPage f h pl g

/-- A doorbell for vine h (R149): the descriptor is read again; an OPEN vine gives up its copied page, and its strands wake. A held
count is given up when its page has moved; an error on the map, the pool or the count leaves the count (log 67). -/
def unparkVine (ctx : BitVec 12) (h : Nat) : Act Unit := do
  let f := vineDevice ctx
  let d ← readVine f h
  if d.state = vineOpen then
    let key := (ctx, BitVec.ofNat 32 h)
    if (← get).cows.contains key then
      let (r, s) := Act.on (copiedPage f d) (← get)
      match r with
      | .error .again => set s; throw .again
      | .error _ => pure ()
      | .ok none => set s
      | .ok (some old) => set s; dueOr ctx key.2 (.copied old) (vineAtomic (giveUp f h old))
      apply fun s => { s with cows := s.cows.erase key }
    apply fun s => wakeVine s ctx h [4, 7]

/-- The held vine updates, and the doorbells that wait for a walk, as far as they go now; those of a context that has gone are given up. -/
def retryDue (s : State) : State :=
  s.vineDue.foldl (fun s x =>
    let f := vineDevice x.1
    let h := x.2.1.toNat
    let s := { s with vineDue := s.vineDue.erase x }
    if ctxState s x.1 = 0 then s
    else (Act.on (dueOr x.1 x.2.1 x.2.2 (match x.2.2 with
      | .posted q => vineAtomic (notePosted f h q)
      | .copied old => vineAtomic (giveUp f h old)
      | .count up g => vineAtomic (countPage f h up g)
      | .doorbell => unparkVine x.1 h)) s).2) s

/-- The effect of a VUNPARK write; a context that is FREE or DEAD, and a descriptor that cannot be read, have none. -/
def vunpark (v : Word) : Act Unit := do
  let ctx : BitVec 12 := BitVec.ofNat 12 v.toNat
  let st := ctxState (← get) ctx
  if 1 ≤ st ∧ st ≤ 5 then
    let h := bits v 32 28
    dueOr ctx (BitVec.ofNat 32 h) .doorbell (unparkVine ctx h)
    pollQueues ctx

/-- VUNPARK. -/
def execVunpark (v : Word) (s : State) : Host.Outcome State Fault Refusal :=
  if hostMay s 0x2000 then event (vunpark v) s else .next s
/-- SVCQ_HEAD_POLL. -/
def execSvcqHeadPoll (ctx : BitVec 12) (s : State) : Host.Outcome State Fault Refusal := event (pollService ctx s.waitSvc.length) s
/-- RELQ_HEAD_POLL. -/
def execRelqHeadPoll (ctx : BitVec 12) (s : State) : Host.Outcome State Fault Refusal := event (pollRelease ctx s.waitRel.length) s

/-- VINE: one count operation on a pool, or a read of CMTLEN, at the entry's home (R133). A held count changes when its page has moved. -/
def execVine (ctx : BitVec 12) (handle : BitVec 32) (r : VineReq) (s : State) : Host.Outcome State Fault Refusal :=
  event (do
    let f := vineDevice ctx
    let h := handle.toNat
    match r with
    | .countUp g => dueOr ctx handle (.count true g) (vineAtomic (countPage f h true g))
    | .countDown g => dueOr ctx handle (.count false g) (vineAtomic (countPage f h false g))
    | .readCommitted =>
      let (x, s') := Act.on (readVine f h) (← get)
      match x with
      | .ok d => set { s' with links := { s'.links with answer := natToBytes 4 d.cmtLen } }
      | .error .again => set s'
      | .error _ => pure ()) s

end Sys2Proof.Machine
end

