-- ==== Sys2Proof/Machine/Barriers.lean ====
section
/-! DEFINITION. Barriers and groups (chapters "Barriers" and "Groups", R91 to R109, R327): the 16-byte object, arrivals at its
home, the addressed forms, signals and their answers, group objects, and leaving a group. -/

namespace Sys2Proof.Machine

/-! ## The object (Table 7.1) -/

/-- A barrier object. -/
structure BarObj where
  target  : Nat
  arrived : Nat
  gen     : Nat
  init    : Bool
  nosig   : Bool
  res     : Nat
  deriving DecidableEq, Repr

/-- The object that 16 bytes hold. -/
def barOf (bs : List Byte) : BarObj :=
  let a := bytesToNat (bs.take 8)
  let b := bytesToNat (bs.drop 8)
  { target := a % 2 ^ 32, arrived := a / 2 ^ 32, gen := b % 2 ^ 32, init := decide (b / 2 ^ 32 % 2 = 1),
    nosig := decide (b / 2 ^ 33 % 2 = 1), res := b / 2 ^ 34 }

/-- The 16 bytes of an object. -/
def BarObj.bytes (o : BarObj) : List Byte :=
  natToBytes 8 (o.arrived * 2 ^ 32 + o.target) ++ natToBytes 8 (o.res * 2 ^ 34 + o.nosig.toNat * 2 ^ 33 + o.init.toNat * 2 ^ 32 + o.gen)

/-- A valid object (R101). -/
def BarObj.valid (o : BarObj) : Bool := o.init && decide (o.target ≠ 0 ∧ o.res = 0)

/-- An arrival of n counts (R103). -/
def BarObj.arrive (o : BarObj) (n : Nat) : BarObj :=
  if n = 0 then o
  else if o.target ≤ o.arrived + n then { o with gen := (o.gen + 1) % 2 ^ 32, arrived := 0 }
  else { o with arrived := o.arrived + n }

/-- What BINIT leaves (R104). -/
def BarObj.start (o : BarObj) (target : Nat) (nosig : Bool) : BarObj :=
  { target, arrived := 0, gen := if o.init then o.gen else 0, init := true, nosig, res := 0 }

/-! ## The addressed forms (R104) -/

/-- The object at xa: its page, mapped readable and writable, and its home in L2-homed memory. -/
def barrierAt (va : VAddr) : Act (TlbEntry × Nat) := do
  aligned va 16
  let e ← translate .both va
  if e.tier = 2 ∨ e.tier = 3 then trap 0x05 (vaWord va)
  pure (e, e.key va.toNat)

/-- A write to the line, by which a strand parked in BWAIT on it does not wake (BINIT, R104). -/
def quietly (l : Nat) (f : State → State) (s : State) : State :=
  let keep (w : Nat × Nat) : Bool := decide (w.1 = l ∧ (getStrand s w.2).park = 1)
  let s' := f { s with watches := s.watches.filter fun w => ! keep w }
  { s' with watches := s'.watches ++ s.watches.filter keep }

/-- BINIT. -/
def execBinit (c : Scope) (a b : XReg) (s : State) : Host.Outcome State Fault Refusal :=
  scalar 4 (do
    let va := vaOf (s.readX a)
    let v := s.readX b
    let (e, pa) ← barrierAt va
    if v.toNat % 2 ^ 32 = 0 then trap 0x05 (vaWord va)
    release c
    homeGuard va pa
    apply fun s => atomicL1 s (curCore s) pa 16
    holdGuard e pa
    apply fun s => homeFill s (lineOf pa) e.dedup (curDomain s)
    poisonGuard va pa 16
    apply fun s =>
      let o := (barOf (memRead s.mem pa 16)).start (v.toNat % 2 ^ 32) (v.getLsbD 32)
      quietly (lineOf pa) (fun s => writeFilled s pa o.bytes) s) s

/-- The object at its home, read alone: an access like an atomic's, which un-shares the line and is held with its page (R102, R186);
an invalid object traps. -/
def readBarrier (e : TlbEntry) (va : VAddr) (pa : Nat) : Act BarObj := do
  let o := barOf (← atomicAt e va pa 16 fun _ => none)
  if ! o.valid then trap 0x05 (vaWord va)
  pure o

/-- 1 bits of a mask at indices 0 to vl − 1. -/
def maskCount (s : State) (k : MReg) : Nat := ((List.range s.st.csr.vl.toNat).filter (maskBit s k)).length

/-- BARR: n arrivals at once, or with n = 0 an atomic read of the generation. -/
def execBarr (c : Scope) (d a : XReg) (mk : MReg) (s : State) : Host.Outcome State Fault Refusal :=
  scalar 4 (do
    let va := vaOf (s.readX a)
    let (e, pa) ← barrierAt va
    awaitWrites [] [mk.val]
    let n := maskCount (← get) mk
    if n = 0 then
      let o ← readBarrier e va pa
      apply fun s => s.writeX d (w64 o.gen)
    else
      release c
      let old ← atomicAt e va pa 16 fun bs => if (barOf bs).valid then some ((barOf bs).arrive n).bytes else none
      if ! (barOf old).valid then trap 0x05 (vaWord va)
      apply fun s => s.writeX d (w64 (barOf old).gen)) s

/-- BTEST. -/
def execBtest (c : Scope) (d a b : XReg) (s : State) : Host.Outcome State Fault Refusal :=
  scalar 4 (do
    let va := vaOf (s.readX a)
    let (e, pa) ← barrierAt va
    let o ← readBarrier e va pa
    let passed := decide (o.gen ≠ (s.readX b).toNat % 2 ^ 32)
    if passed then acquire c
    apply fun s => s.writeX d (w64 passed.toNat)) s

/-- BWAIT: the strand parks, watching the object's line, while the generation is the operand's. -/
def execBwait (c : Scope) (a b : XReg) (s : State) : Host.Outcome State Fault Refusal :=
  scalar 4 (do
    let va := vaOf (s.readX a)
    let (e, pa) ← barrierAt va
    let o ← readBarrier e va pa
    if o.gen = (s.readX b).toNat % 2 ^ 32 then
      apply fun s => watchLine s (lineOf pa)
      throw (.park 0x1 (.lines [lineOf pa]))
    acquire c) s

/-! ## Signals (R105, R106) -/

/-- SIGERR of a strand rises by 1, and stays at 0xFFFF. -/
def countSigErr (t : Strand) : Strand :=
  { t with csr := { t.csr with dstat := setBits t.csr.dstat 48 16 (min 0xFFFF (bits t.csr.dstat 48 16 + 1)) } }

/-- The home refuses a SIGNAL of the object at pa (R105). -/
def signalRefused (s : State) (pa : Nat) : Bool :=
  homeInReset s pa || ! isLine pa || decide (pa % 16 ≠ 0) || poisonedAt s pa 16
    || (let o := barOf (memRead s.mem pa 16); ! o.valid || o.nosig)

/-- A SIGNAL of n at the home: whether it has its ACK. -/
def signalHome (s : State) (pa n : Nat) (dedup : Bool) (dom : BitVec 8) : Bool × State :=
  let s := if homeInReset s pa || ! isLine pa then s else homeFill s (lineOf pa) dedup dom
  if signalRefused s pa then (false, s)
  else (true, writeFilled s pa ((barOf (memRead s.mem pa 16)).arrive n).bytes)

/-- The page of a SIGNAL's object: as for the other forms, or a window page to a peer, whose P is ignored (R234). -/
def signalAt (va : VAddr) : Act (TlbEntry × Nat) := do
  aligned va 16
  let e ← strandPage (← get).st.ctx va
  let pa := e.key va.toNat
  if e.tier = 3 then
    match reachOf (← get) pa with
    | .peer _ _ _ => if isWindow pa && e.r && e.w then pure (e, pa) else trap 0x05 (vaWord va)
    | _ => trap 0x05 (vaWord va)
  else if e.tier ≠ 2 && pageAllows .both (← get).st.priv e then pure (e, pa)
  else trap 0x05 (vaWord va)

/-- SIGNAL: posted after its release, and never waited for. -/
def execSignal (c : Scope) (a b : XReg) (s : State) : Host.Outcome State Fault Refusal :=
  scalar 4 (do
    let va := vaOf (s.readX a)
    let n := (s.readX b).toNat % 2 ^ 32
    let (e, pa) ← signalAt va
    release (if e.tier = 3 then .sy else c)
    if n ≠ 0 then
      if e.tier = 3 then
        match reachOf (← get) pa with
        | .peer node x o =>
          let m : PeerMsg := { node, export_ := x, offset := o, op := .signal (BitVec.ofNat 32 n), strand := s.cur.val, ctx := s.st.ctx, va := vaWord va, copy := false, id := 0 }
          let name := (← get).links.nextMsg
          if ← sendPeer m then
            apply fun s => { s with st := { s.st with signals := s.st.signals ++ [(name, true)] } }
          else apply fun s => { s with st := countSigErr s.st }
        | _ => trap 0x05 (vaWord va)
      else
        apply fun s => atomicL1 s (curCore s) pa 16
        if ! homeInReset (← get) pa then holdGuard e pa
        apply fun s =>
          let s := if poisonedAt s pa 16 && ! homeInReset s pa then errorEvent s pa 0 else s
          match signalHome s pa n e.dedup (curDomain s) with
          | (true, s) => s
          | (false, s) => { s with st := countSigErr s.st }) s

/-- The answer to strand n's SIGNAL of a name, while that is out. -/
def answerSignal (s : State) (n name : Nat) (nack : Bool) : State :=
  modStrand s n fun t =>
    if t.signals.any (·.1 = name) then
      let t := { t with signals := t.signals.eraseP (·.1 = name) }
      if nack then countSigErr t else t
    else t

/-- SIGNAL_ANSWER: the answer to a strand's oldest SIGNAL that is out. -/
def execSignalAnswer (n : Fin 4096) (nack : Bool) (s : State) : Host.Outcome State Fault Refusal :=
  .next (match (getStrand s n.val).signals with
    | [] => s
    | x :: _ => answerSignal s n.val x.1 nack)

/-- The device's answer to a request. -/
def answer (s : State) (bs : List Byte) : State := { s with links := { s.links with answer := bs, poisoned := false } }

/-! ## Group objects (R91 to R97) -/

def getGroup (s : State) (o : Nat) : Option GroupObj := (s.lp.groups.find? fun g => g.1 = o).map (·.2)
def putGroup (s : State) (o : Nat) (g : GroupObj) : State :=
  { s with lp := { s.lp with groups := s.lp.groups.map fun x => if x.1 = o then (o, g) else x } }
/-- An object returns to the group table (R100). -/
def retireGroup (s : State) (o : Nat) : State := { s with lp := { s.lp with groups := s.lp.groups.filter fun x => x.1 ≠ o } }

/-- The die of a group object's home (R92). -/
def groupDie (g : GroupObj) : Fin 4 := if g.scope = 1 then dieOf (4 * g.home) else Fin.ofNat 4 g.home

/-- The scope of a group (R93). -/
def groupScope (g : GroupObj) : Scope :=
  match g.scope with
  | 1 => .cr
  | 2 => .cl
  | _ => .dv

/-- A home in reset answers a group operation with cause 0x05 (R380). -/
def groupGuard (g : GroupObj) : Act Unit := do
  if (← get).daleel.dies[(groupDie g).val] = .inReset then trap 0x05 0

/-- The focused strand's membership at a level, and its object; a level without one, or a group left, traps (R93). -/
def groupAt (i : Instr) (k : Fin 6) : Act (Member × GroupObj) := do
  let s ← get
  match s.st.item.groups.find? fun m => m.level = k.val ∧ m.left = none with
  | none => illegal i
  | some m =>
    match getGroup s m.obj with
    | none => illegal i
    | some g =>
      groupGuard g
      pure (m, g)

/-- The strands parked on an object wake (R94). -/
def wakeGroup (s : State) (o : Nat) : State := wakeKey s (.group o)

/-- A full generation passes (R94). -/
def closeGroup (s : State) (o : Nat) (g : GroupObj) : State :=
  if g.target ≠ 0 ∧ g.target ≤ g.arrived then wakeGroup (putGroup s o { g with gen := g.gen + 1, arrived := 0 }) o
  else putGroup s o g

/-- The focused strand's membership is changed. -/
def setMember (s : State) (m : Member) : State :=
  { s with st := { s.st with item := { s.st.item with groups := s.st.item.groups.map fun x => if x.level = m.level then m else x } } }

/-- An arrival (R93, R94). -/
def groupArrive (s : State) (m : Member) (g : GroupObj) : State :=
  setMember (closeGroup s m.obj { g with arrived := g.arrived + 1 }) { m with seen := some g.gen }

/-- BARR, group form: the mask operand is not counted, and not waited for. -/
def execBarrG (d : XReg) (k : Fin 6) (mk : MReg) (s : State) : Host.Outcome State Fault Refusal :=
  scalar 4 (do
    let (m, g) ← groupAt (.barrG d k mk) k
    if m.seen = some g.gen then throw (.park 0xC (.group m.obj))
    release (groupScope g)
    apply fun s => (groupArrive s m g).writeX d (g.gen.zeroExtend 64)) s

/-- BWAIT, group form. -/
def execBwaitG (k : Fin 6) (s : State) : Host.Outcome State Fault Refusal :=
  scalar 4 (do
    let (m, g) ← groupAt (.bwaitG k) k
    if m.seen = some g.gen then throw (.park 0x1 (.group m.obj))
    acquire (groupScope g)) s

/-- A leave at the home (R95): the object after it. -/
def GroupObj.leave (g : GroupObj) (arrived : Bool) : GroupObj :=
  let g := if arrived then { g with arrived := g.arrived - 1 } else g
  let g := { g with target := g.target - 1 }
  if g.target ≠ 0 ∧ g.target ≤ g.arrived then { g with gen := g.gen + 1, arrived := 0 } else g

/-- The focused strand leaves one object (R95). -/
def leaveGroup (s : State) (m : Member) (g : GroupObj) : State :=
  let g' := g.leave (decide (m.seen = some g.gen))
  let s := if g'.target = 0 then retireGroup s m.obj else putGroup s m.obj g'
  let s := if g'.gen ≠ g.gen then wakeGroup s m.obj else s
  setMember s { m with left := some (g'.target, g'.gen) }

/-- The memberships the focused strand still has, in ascending level order, with their objects. -/
def memberships (s : State) : List (Member × GroupObj) :=
  (List.range 6).filterMap fun k =>
    match s.st.item.groups.find? fun m => m.level = k ∧ m.left = none with
    | none => none
    | some m => (getGroup s m.obj).map fun g => (m, g)

/-- The widest scope among group objects. -/
def widest (ms : List (Member × GroupObj)) : Scope :=
  if ms.any fun m => m.2.scope = 3 then .dv else if ms.any fun m => m.2.scope = 2 then .cl else .cr

/-- The focused strand leaves every group, a release at the widest scope among them; where the home of one of them is in reset it leaves
none (R353, log 96). -/
def leaveGroups : Act Unit := do
  let ms := memberships (← get)
  if ms ≠ [] then
    for (_, g) in ms do groupGuard g
    release (widest ms)
    apply fun s => ms.foldl (fun s m => match getGroup s m.1.obj with | some g => leaveGroup s m.1 g | none => s) s

/-- EXIT.G. -/
def execExitG (s : State) : Host.Outcome State Fault Refusal := scalar 4 leaveGroups s

/-- SCOPE and E of field k of the focused strand's item (R82). -/
def fieldScope (t : Strand) (k : Nat) : Nat := bits t.item.wfld (10 * k + 7) 3
/-- G_k: the size of the group of level k (R83). -/
def groupSize (es : List Nat) (k : Nat) : Nat := (es.take k).foldl (· * ·) 1

/-- GREAD (R97, Table 6.1). -/
def execGread (d : XReg) (k : Fin 6) (sel : Fin 5) (s : State) : Host.Outcome State Fault Refusal :=
  scalar 4 (do
    let t := s.st
    let m := t.item.groups.find? fun m => m.level = k.val
    let obj := m.bind fun m => if m.left = none then getGroup s m.obj else none
    match obj with
    | some g => if sel.val < 3 then groupGuard g
    | none => pure ()
    let sc := fieldScope t k.val
    let v : Nat :=
      match sel.val with
      | 3 => t.item.index % groupSize t.item.extents k.val
      | 4 => obj.isSome.toNat + sc * 2
      | n =>
        match obj with
        | some g => if n = 0 then g.target.toNat else if n = 1 then g.gen.toNat else g.arrived.toNat
        | none =>
          if sc = 4 ∨ n = 2 then 0
          else
            match m.bind (·.left) with
            | some (target, gen) => if n = 0 then target.toNat else gen.toNat
            | none => if n = 0 then 1 else 0
    apply fun s => s.writeX d (w64 v)) s

end Sys2Proof.Machine
end

