-- ==== Sys2Proof/Machine/Queues.lean ====
section
/-! DEFINITION. Command queues (R62 to R72), launch headers (R81 to R83, R90) and the event ring's registers (R70). -/

namespace Sys2Proof.Machine

/-! ## The launch processor's accesses -/

/-- An operation of the device that is done whole or not at all: one that has to wait leaves the machine as it is, but for the report
of a slice that holds its write (R204) and for its walks (R178). -/
def wholeEvent (a : Act Unit) (s : State) : Host.Outcome State Fault Refusal :=
  match Act.on a s with
  | (.ok _, s') => .next s'
  | (.error _, s') => .next (s'.lines.writesHeld.foldl reportHeld (keepWalks s s'))

/-- The page of a context's address for a unit of M0, checked for a privileged access; no MMIO page (R175). -/
def deviceAt (k : Access) (ctx : BitVec 12) (va : VAddr) : Act (TlbEntry × Nat) := do
  let e ← pageFrom va (translateDev .device 0 ctx va.toNat)
  if e.tier = 3 ∨ ! pageAllows k true e then trap 0x05 (vaWord va)
  homeGuard va (e.key va.toNat)
  pure (e, e.key va.toNat)

/-- n bytes at an address, within one line, read for the device: as a unit of die 0 reads, through its RDC (log 86). -/
def deviceRead (ctx : BitVec 12) (va : VAddr) (n : Nat) : Act (List Byte) := do
  let (e, pa) ← deviceAt .load ctx va
  if poisonedAt (← get) pa n || (isLine pa && rdcPoisoned (← get) 0 (lineOf pa)) then trap 0x06 (vaWord va)
  if isLine pa then apply fun s => homeRead s (lineOf pa) 0 e.dedup (ctxDomain s ctx)
  pure (memRead (← get).mem pa n)

/-- Bytes written at an address for the device; a held write waits. -/
def deviceWrite (ctx : BitVec 12) (va : VAddr) (bs : List Byte) : Act Unit := do
  let (e, pa) ← deviceAt .store ctx va
  if heldBy (← get) e pa then
    apply (reportStuck · pa)
    throw .again
  apply fun s => physWrite (bs.length + 1) s pa bs e.dedup (ctxDomain s ctx)

/-- The cause an action ends with, if it traps. -/
def caught {α : Type} (a : Act α) : Act (Except (BitVec 8) α) := do
  let (r, s) := Act.on a (← get)
  match r with
  | .ok v => set s; pure (.ok v)
  | .error (.trap c _) => set s; pure (.error c)
  | .error x => set s; throw x

/-- The die that holds a context's descriptor is up, or the operation waits. -/
def descGuard (ctx : BitVec 12) : Act Unit := do
  let s ← get
  if homeInReset s (descAddr s ctx) then throw .again

/-- A context that may run: not the firmware's, its descriptor readable and valid, and neither FREE nor DEAD (R46, R47, Table 4.4). -/
def ctxUsable (s : State) (ctx : BitVec 12) : Bool :=
  decide (ctx ≠ 0) && ! linePoisoned s (descAddr s ctx) && descValid s ctx && decide (1 ≤ ctxState s ctx ∧ ctxState s ctx ≤ 5)

/-! ## Launch headers (Table 5.1, Table 5.4) -/

/-- Field widths and scopes of WFLD. -/
def fieldWidths (w : Word) : List Nat := (List.range 6).map fun i => bits w (10 * i) 7
def fieldScopes (w : Word) : List Nat := (List.range 6).map fun i => bits w (10 * i + 7) 3

/-- Dword k of a header or an entry. -/
def dwordOf (bs : List Byte) (k : Nat) : Word := w64 (bytesToNat ((bs.drop (8 * k)).take 8))

/-- The header that 128 bytes hold. -/
def headerOf (bs : List Byte) : Launch :=
  let d := dwordOf bs
  let e (k : Nat) : List Nat := [bits (d k) 0 32 + 1, bits (d k) 32 32 + 1]
  { entry := vaOf (d 0), wfld := w64 (bits (d 1) 0 60), widths := fieldWidths (d 1), scopes := fieldScopes (d 1),
    extents := e 2 ++ e 3 ++ e 4, wdog := bits (d 5) 32 16, vshare := BitVec.ofNat 4 (bits (d 5) 16 4), acch := bits (d 5) 8 6,
    vrfh := bits (d 5) 0 5, stkbase := w64 (bits (d 6) 12 36 * 2 ^ 12), stksize := w64 (bits (d 7) 12 20 * 2 ^ 12), slots := d 8 }

/-- Every RES field of a header is 0. -/
def headerRes (bs : List Byte) : Bool :=
  let d := dwordOf bs
  decide (bits (d 0) 48 16 = 0 ∧ bits (d 0) 0 1 = 0 ∧ bits (d 1) 60 4 = 0 ∧ bits (d 5) 48 16 = 0 ∧ bits (d 5) 20 12 = 0
    ∧ bits (d 5) 14 2 = 0 ∧ bits (d 5) 5 3 = 0 ∧ bits (d 6) 48 16 = 0 ∧ bits (d 6) 0 12 = 0 ∧ bits (d 7) 32 32 = 0
    ∧ bits (d 7) 0 12 = 0) && allZero (bs.drop 0x48)

/-- The lowest level of a scope. -/
def lowestLevel (scopes : List Nat) (c : Nat) : Option Nat := (List.range 6).find? fun i => scopes[i]? = some c

/-- The highest level of a scope. -/
def highestLevel (scopes : List Nat) (c : Nat) : Option Nat := (List.range 6).reverse.find? fun i => scopes[i]? = some c

/-- The header error of Table 5.4, or 0. -/
def headerError (bs : List Byte) : Nat :=
  let h := headerOf bs
  let g := groupSize h.extents
  let sc (i : Nat) : Nat := h.scopes.getD i 0
  let w (i : Nat) : Nat := h.widths.getD i 0
  let six := List.range 6
  if ! headerRes bs then 0x01
  else if (six.any fun i => decide (64 < w i)) ∨ 64 < h.widths.sum then 0x02
  else if (six.any fun i => decide (4 < sc i)) ∨ ((List.range 5).any fun i => decide (sc (i + 1) < sc i)) then 0x03
  else if six.any fun i => decide (2 ^ w i < h.extents.getD i 0) then 0x04
  else if six.any fun i => decide ((sc i = 0 ∧ 1 < g i) ∨ (sc i = 1 ∧ 4 < g i) ∨ (sc i = 2 ∧ 1024 < g i)) then 0x05
  else if 2 ^ 40 < g 6 then 0x06
  else if 16 < h.vrfh ∨ 32 < h.acch then 0x07
  else if (match lowestLevel h.scopes 1 with | some c => decide (16 < g c * h.vrfh ∨ 32 < g c * h.acch) | none => false) then 0x07
  else if (match lowestLevel h.scopes 2 with
      | some k => decide (16 < ceilDiv (g k) 256 * h.vrfh ∨ 32 < ceilDiv (g k) 256 * h.acch)
      | none => false) then 0x07
  else 0

/-! ## Completion (R65, R66) -/

/-- An entry that is complete is counted once every entry before it is: DONE and the entries it covers. -/
def coverDone (v : Queue) : Nat → Queue
  | 0 => v
  | n + 1 =>
    match v.entries.find? fun e => ! e.old && decide (e.stage = .complete ∧ e.seq = v.done.toNat + 1) with
    | some e => coverDone { v with done := v.done + 1, entries := v.entries.filter fun x => x.id ≠ e.id } n
    | none => { v with entries := v.entries.filter fun x => ! (x.old && decide (x.stage = .complete)) }

/-- DONE rises over completed entries; the completion word is written, and waiters wake (R66, R72). -/
def raiseDone (q : Nat) : Act Unit := do
  let v := getQueue (← get) q
  let v' := coverDone v v.entries.length
  apply fun s => setQueue s q v'
  if v'.done ≠ v.done then
    apply fun s => wakeQueue s q v'.done
    if v'.cwaddr ≠ 0 then
      match ← caught (deviceWrite v'.ctx (vaOf v'.cwaddr) (natToBytes 8 v'.done.toNat)) with
      | .ok _ => pure ()
      | .error _ => apply fun s => queueError s q 0x07 v'.done v'.done v'.cwaddr

/-- The stage of an entry. -/
def setEntry (s : State) (q id : Nat) (f : QEntry → QEntry) : State :=
  setQueue s q (let v := getQueue s q; { v with entries := v.entries.map fun e => if e.id = id then f e else e })

/-- An entry completes. -/
def completeEntry (q id : Nat) : Act Unit := do
  apply fun s => setEntry s q id fun e => { e with stage := .complete }
  raiseDone q

/-- A failing entry's queue enters ERROR (R68). -/
def entryError (s : State) (q : Nat) (code : BitVec 8) (seq : Nat) (addr : Word) : State :=
  queueError s q code (w64 seq) (w64 seq) addr

/-! ## Fetching (R64, R81, R90) -/

/-- An entry as its 64 bytes. -/
def entryOf (bs : List Byte) (id seq : Nat) (ctx : BitVec 12) (addr : Word) : QEntry :=
  let d := dwordOf bs
  let wt (k : Nat) : List (Nat × Word) := if bits (d k) 63 1 = 1 then [(bits (d k) 0 6, d (k + 1))] else []
  { id, ctx, seq, addr, kind := bits (d 0) 0 8, rscope := bits (d 0) 9 2, overlap := decide (bits (d 0) 8 1 = 1),
    waits := wt 1 ++ wt 3, arg0 := d 5, arg1 := d 6 }

/-- The entry breaks no rule of Table 4.2. -/
def entryValid (bs : List Byte) : Bool :=
  let d := dwordOf bs
  let e := entryOf bs 0 0 0 0
  let align : Nat := match e.kind with
    | 1 => 128
    | 2 => 8
    | 3 => 64
    | _ => 1
  decide (1 ≤ e.kind ∧ e.kind ≤ 4 ∧ e.rscope ≠ 0 ∧ bits (d 0) 11 53 = 0 ∧ bits (d 1) 6 57 = 0 ∧ bits (d 3) 6 57 = 0 ∧ d 7 = 0
    ∧ e.arg0.toNat % align = 0 ∧ (e.kind = 4 → e.arg0 = 0) ∧ (3 ≤ e.kind → e.arg1 = 0))

/-- The launch processor reads the next entry of an ACTIVE queue, and a LAUNCH entry's header with it. Where several codes of Table 4.4
apply, the first of 0x05, 0x02, 0x01 and 0x06 is taken, which R64 leaves open (log 74). -/
def fetchEntry (q : Nat) : Act Unit := do
  let v := getQueue (← get) q
  if v.stat = 1 ∧ v.next ≤ v.tail.toNat then
    let fail (c : BitVec 8) : Act Unit := apply fun s => entryError s q c v.next v.fetch
    descGuard v.ctx
    apply fun s => descCheck s v.ctx
    if ! ctxUsable (← get) v.ctx then fail 0x05
    else
      match ← caught (deviceRead v.ctx (vaOf v.fetch) 64) with
      | .error _ => fail 0x02
      | .ok bs =>
        let e := entryOf bs (← get).lp.nextId v.next v.ctx v.fetch
        if ! entryValid bs then fail 0x01
        else
          apply fun s =>
            let v := getQueue s q
            let s := setQueue s q { v with next := v.next + 1, fetch := if e.kind = 3 then e.arg0 else v.fetch + 64 }
            { s with lp := { s.lp with nextId := s.lp.nextId + 1 } }
          let add (e : QEntry) : Act Unit := apply fun s => setQueue s q (let v := getQueue s q; { v with entries := v.entries ++ [e] })
          if e.waits.any fun w => decide (w.1 = q ∧ v.next ≤ w.2.toNat) then fail 0x06
          else if e.kind = 1 then
            match ← caught (deviceRead v.ctx (vaOf e.arg0) 128) with
            | .error _ => fail 0x02
            | .ok hb =>
              if headerError hb ≠ 0 then apply fun s => queueError s q 0x03 (w64 e.seq) (w64 (headerError hb)) v.fetch
              else add { e with launch := some (headerOf hb) }
          else if e.kind = 3 then
            add { e with stage := .complete }
            raiseDone q
          else add e

/-- ENTRY_FETCH. -/
def execEntryFetch (q : Fin 64) (s : State) : Host.Outcome State Fault Refusal := wholeEvent (fetchEntry q.val) s

/-! ## Starting and completing (R65, R67) -/

/-- The OVERLAP condition of an entry of queue v. -/
def overlapMet (v : Queue) (e : QEntry) : Bool :=
  match v.entries.find? fun x => ! x.old && decide (x.seq + 1 = e.seq) with
  | none => true
  | some p => decide (p.stage = .complete) || (e.overlap && p.started)

/-- A WRITE entry's store, then its completion. -/
def writeEntry (q : Nat) (e : QEntry) : Act Unit := do
  let (r, s) := Act.on (caught (deviceWrite e.ctx (vaOf e.arg0) (natToBytes 8 e.arg1.toNat))) (← get)
  match r with
  | .error _ =>
    set s
    apply fun s => setEntry s q e.id fun e => { e with stage := .placed }
  | .ok (.error _) =>
    set s
    apply fun s => entryError (setQueue s q (let v := getQueue s q; { v with entries := v.entries.filter fun x => x.id ≠ e.id })) q 0x07 e.seq e.addr
  | .ok (.ok _) =>
    set s
    completeEntry q e.id

/-- Queue w.1 has reached n, and is enabled (R67). -/
def waitMet (s : State) (w : Nat × Word) : Bool :=
  let v := getQueue s w.1
  decide (v.stat ≠ 0 ∧ w.2.toNat ≤ v.done.toNat)

/-- The oldest entry that has not started, if its conditions are met (R65, R67). It acts in the context that QCTL names (R62). A wait on
a queue in ERROR fails its entry here, no sooner than its OVERLAP condition is met (log 87). -/
def startEntry (q : Nat) : Act Unit := do
  let s ← get
  let v := getQueue s q
  match v.entries.find? fun e => decide (e.stage = .waiting) with
  | none => pure ()
  | some e =>
    if v.stat = 1 ∧ overlapMet v e then
      let wrong (w : Nat × Word) : Bool := decide ((getQueue s w.1).stat = 2 ∧ (getQueue s w.1).done.toNat < w.2.toNat)
      if e.poison then apply fun s => entryError s q 0x02 e.seq e.addr
      else if e.waits.any wrong then apply fun s => entryError s q 0x04 e.seq e.addr
      else if e.waits.all (waitMet s) then
        descGuard v.ctx
        apply fun s => descCheck s v.ctx
        if ! ctxUsable (← get) v.ctx then apply fun s => entryError s q 0x05 e.seq e.addr
        else
          apply fun s => setEntry s q e.id fun e => { e with ctx := v.ctx }
          match e.kind with
          | 1 => apply fun s => setEntry s q e.id fun e => { e with stage := .placing }
          | 2 => writeEntry q { e with ctx := v.ctx }
          | _ => completeEntry q e.id

/-- ENTRY_START. -/
def execEntryStart (q : Fin 64) (s : State) : Host.Outcome State Fault Refusal := wholeEvent (startEntry q.val) s

/-- A write to host or peer memory has not completed there. -/
def peerWritesOut (s : State) : Bool := ! s.links.hostLate.isEmpty || (peerMsgs s).any fun m => isPeerWrite m.op

/-- An entry whose work is done and released at RSCOPE completes (R65, R89). -/
def endEntry (q seq : Nat) : Act Unit := do
  let s ← get
  match (getQueue s q).entries.find? fun e => decide (e.seq = seq ∧ e.stage = .placed ∧ e.live = 0) with
  | none => pure ()
  | some e =>
    if e.kind = 2 then writeEntry q e
    else if e.rscope = 3 ∧ peerWritesOut s then throw .again
    else completeEntry q e.id

/-- ENTRY_COMPLETE. -/
def execEntryComplete (q : Fin 64) (seq : Nat) (s : State) : Host.Outcome State Fault Refusal := wholeEvent (endEntry q.val seq) s

/-! ## Registers of a queue (R62, R63, R68) -/

/-- ENABLE := 1. -/
def enableQueue (s : State) (q : Nat) : State :=
  let v := getQueue s q
  let s := setQueue s q { v with qctl := setBits v.qctl 13 1 1 }
  if v.stat = 0 then setQueue s q { getQueue s q with stat := 1, err := 0, failseq := 0 } else s

/-- ENABLE := 0. A LAUNCH of which no item has been placed has not started (R89): it waits again. -/
def disableQueue (s : State) (q : Nat) : State :=
  let v := getQueue s q
  let back (e : QEntry) : QEntry := if e.stage = .placing ∧ e.next = 0 then { e with stage := .waiting } else e
  setQueue s q { v with qctl := setBits v.qctl 13 1 0, stat := 0, entries := v.entries.map back }

/-- A write to TAIL (R63). While DISABLED it sets the sequence base: what has not started goes, and what runs counts no more. -/
def writeTail (s : State) (q : Nat) (x : Word) : State :=
  let v := getQueue s q
  if v.stat = 0 then
    let es := (v.entries.filter (·.started)).map fun e => { e with old := true }
    wakeQueue (setQueue s q { v with tail := x, done := x, next := x.toNat + 1, entries := es }) q x
  else if v.stat = 1 then
    if ! v.deviceMode ∧ v.tail.toNat ≤ x.toNat then setQueue s q { v with tail := x }
    else queueError s q 0x08 x x 0
  else s

/-- A write to QCTL: CTXID and MODE only while DISABLED, WEIGHT 0 stored as 1, RES fields as 0 (R62, R63). -/
def writeQctl (s : State) (q : Nat) (x : Word) : State :=
  let v := getQueue s q
  let old := v.qctl
  let f := if v.stat = 0 then x else old
  let n := bits x 32 16 * 2 ^ 32 + bits f 16 12 * 2 ^ 16 + bits old 13 1 * 2 ^ 13 + bits f 12 1 * 2 ^ 12 + bits x 8 3 * 2 ^ 8
    + max 1 (bits x 0 8)
  let s := setQueue s q { v with qctl := w64 n }
  if x.getLsbD 13 then enableQueue s q else disableQueue s q

/-- A write to a register of a queue, by its offset in the block (Table 4.1). -/
def writeQueueReg (s : State) (q off : Nat) (x : Word) : State :=
  let v := getQueue s q
  match off with
  | 0x00 => writeQctl s q x
  | 0x08 => if v.stat = 0 then setQueue s q { v with fetch := setBits x 0 6 0 } else s
  | 0x10 => if v.stat = 0 then setQueue s q { v with append := setBits x 0 6 0 } else s
  | 0x18 => writeTail s q x
  | 0x28 => if v.stat = 0 then setQueue s q { v with cwaddr := setBits x 0 3 0 } else s
  | _ => s

/-- What a register of a queue reads as. -/
def readQueueReg (v : Queue) (off : Nat) : Word :=
  match off with
  | 0x00 => v.qctl
  | 0x08 => v.fetch
  | 0x10 => v.append
  | 0x18 => v.tail
  | 0x20 => v.done
  | 0x28 => v.cwaddr
  | 0x30 => v.status
  | 0x38 => v.failseq
  | _ => 0

/-- QUEUE_ENABLE, QUEUE_DISABLE and TAIL_WRITE. -/
def execQueueEnable (q : Fin 64) (s : State) : Host.Outcome State Fault Refusal := .next (byHost (0x100000 + 0x100 * q.val) (enableQueue · q.val) s)
def execQueueDisable (q : Fin 64) (s : State) : Host.Outcome State Fault Refusal := .next (byHost (0x100000 + 0x100 * q.val) (disableQueue · q.val) s)
def execTailWrite (q : Fin 64) (v : Word) (s : State) : Host.Outcome State Fault Refusal := .next (byHost (0x100018 + 0x100 * q.val) (writeTail · q.val v) s)

/-! ## Appending and waiting (R71, R72) -/

/-- QAPP. -/
def execQapp (d q a : XReg) (s : State) : Host.Outcome State Fault Refusal :=
  scalar 4 (do
    let n := s.readX q
    let v := getQueue s n.toNat
    if 63 < n.toNat ∨ v.ctx ≠ s.st.ctx ∨ ! v.deviceMode ∨ v.stat ≠ 1 then trap 0x05 n
    let src := vaOf (s.readX a)
    aligned src 64
    let e ← translate .load src
    if e.tier = 3 then trap 0x05 (vaWord src)
    let bs ← readAtHome e src (e.key src.toNat) 64
    release .dv
    let dst := vaOf v.append
    let t ← translate .store dst
    if t.tier = 3 then trap 0x05 (vaWord dst)
    homeGuard dst (t.key dst.toNat)
    holdGuard t (t.key dst.toNat)
    apply fun s =>
      let s := physWrite 65 (storeL1 s (curCore s) (t.key dst.toNat) bs) (t.key dst.toNat) bs t.dedup (curDomain s)
      let app := if bytesToNat (bs.take 1) = 3 then setBits (dwordOf bs 5) 0 6 0 else v.append + 64
      (setQueue s n.toNat { v with append := app, tail := v.tail + 1 }).writeX d (v.tail + 1)) s

/-- A QWAIT that DONE or its queue's ERROR has completed while it was parked, and what it returns (R72). -/
def failedWait (s : State) (n a : Word) : Option Word :=
  match s.st.qerr with
  | some (q, k, status) => if q = n.toNat ∧ k = a then some status else none
  | none => none

/-- QWAIT: x10 := 0, or STATUS of a queue in ERROR below xn. -/
def execQwait (q a : XReg) (s : State) : Host.Outcome State Fault Refusal :=
  scalar 4 (do
    let n := s.readX q
    let v := getQueue s n.toNat
    let passed := decide ((s.readX a).toNat ≤ v.done.toNat)
    match failedWait s n (s.readX a) with
    | some status =>
      acquire .dv
      apply fun s => { s with st := { s.st with qerr := none } }.writeX 10 status
    | none =>
      if 63 < n.toNat ∨ v.ctx ≠ s.st.ctx then trap 0x05 n
      if ! passed && decide (v.stat ≠ 2) then throw (.park 0x2 (.queue n.toNat (s.readX a)))
      acquire .dv
      apply fun s => s.writeX 10 (if passed then 0 else v.status)) s

/-! ## The event ring (R70) -/

/-- EVENT_RECORD_WRITE: the oldest held record is written, if the ring has room. -/
def execEventRecordWrite (s : State) : Host.Outcome State Fault Refusal := .next (flushEvents 1 s)

/-- A write to EVHEAD from the current EVHEAD to EVTAIL; held records follow. -/
def writeEvhead (s : State) (v : Word) : State :=
  if (v - s.ev.evhead).toNat ≤ (s.ev.evtail - s.ev.evhead).toNat then flushEvents 64 { s with ev := { s.ev with evhead := v } } else s

/-- What a write to EVSIZE stores. -/
def ringLog (v : Word) : BitVec 6 :=
  let n := bits v 0 6
  BitVec.ofNat 6 (if n = 0 then 0 else if n < 6 then 6 else if 20 < n then 20 else n)

/-- A write to EVSIZE; held records follow once a ring is set. -/
def writeEvsize (s : State) (v : Word) : State := flushEvents 64 { s with ev := { s.ev with evsize := ringLog v } }

/-- A write to EVBASE. -/
def writeEvbase (s : State) (v : Word) : State := { s with ev := { s.ev with evbase := setBits v 0 12 0 } }

/-- A read of EVOVF clears it. -/
def readEvovf (s : State) : Word × State := (s.ev.evovf, { s with ev := { s.ev with evovf := 0 } })

/-- EVHEAD_WRITE and EVOVF_READ. -/
def execEvheadWrite (v : Word) (s : State) : Host.Outcome State Fault Refusal := .next (byHost 0x1010 (writeEvhead · v) s)
def execEvovfRead (s : State) : Host.Outcome State Fault Refusal :=
  .next (if hostMay s 0x1020 then let (v, s) := readEvovf s; answer s (natToBytes 8 v.toNat) else answer s (allOnes 8))

end Sys2Proof.Machine
end

