-- ==== Sys2Proof/Machine/Frames.lean ====
section
/-! DEFINITION. Frames (R58 to R61, Table 3.8): what a strand's frame holds, writing it, and the strand that a frame gives back. -/

namespace Sys2Proof.Machine

/-- Bytes of a frame (R49). -/
def frameBytes : Nat := 0x48000

/-- Address of frame f of a context (R49). -/
def frameVa (s : State) (ctx : BitVec 12) (f : Nat) : VAddr := BitVec.ofNat 48 (ctxFrBase s ctx + f * frameBytes)

/-! ## What a frame holds -/

/-- `vcp`: the oldest incomplete VIQ entry, or, with an empty VIQ, the instruction at the pc: read by a CSRRD, its own address
(R54, log 93). -/
def vcpOf (t : Strand) : VAddr :=
  match t.viq with
  | [] => t.pc
  | e :: _ => e.addr

/-- Dword k of the CSR images. -/
def csrDword (t : Strand) (k : Nat) : Nat :=
  let c := t.csr
  match k with
  | 0 => c.vl.toNat
  | 1 => c.vcfg.toNat
  | 2 => c.vstart.toNat
  | 3 => (vcpOf t).toNat
  | 4 => c.vdirty.toNat
  | 5 => c.vrnd.toNat
  | 6 => c.vsat.toNat
  | 7 => c.vcarry.toNat
  | 8 => c.amax.toNat
  | 9 => c.fexc.toNat
  | 10 => c.frnd.toNat
  | 11 => c.vshare.toNat
  | 12 => c.vlmax.toNat
  | 16 => c.dcfg.toNat
  | 17 => c.dstat.toNat
  | 18 => c.dpivtau.toNat
  | 19 => c.dpivcnt.toNat
  | 20 => c.tstat.toNat
  | 32 => c.sqinfo.toNat
  | 48 => t.trap.tvec.toNat
  | 49 => t.trap.tcause.toNat
  | 50 => t.trap.tval.toNat
  | 51 => t.trap.tpc.toNat
  | 52 => t.trap.tlane.toNat
  | _ => 0

/-- The CSRs and trap registers that 64 dwords give back; `vcp` and the counters are not among them. -/
def csrsOf (d : Nat → Word) : Csrs × TrapCsrs :=
  let n (k w : Nat) : BitVec w := BitVec.ofNat w (d k).toNat
  ({ vl := d 0, vcfg := d 1, vstart := d 2, vdirty := n 4 32, vrnd := n 5 2, vsat := n 6 1, vcarry := n 7 32, amax := n 8 31,
     fexc := n 9 5, frnd := n 10 3, vshare := n 11 4, vlmax := d 12, dcfg := d 16, dstat := d 17, dpivtau := n 18 32,
     dpivcnt := n 19 32, tstat := n 20 24, sqinfo := d 32 },
   { tvec := d 48, tcause := n 49 10, tval := d 50, tpc := d 51, tlane := n 52 30 })

/-- The RES bits of the CSR images: the dword of each, and their mask (Tables 3.5, 8.2, 8.9 and 17.2, and the widths of Table 3.4). -/
def csrRes : List (Nat × Nat) :=
  let above (n : Nat) : Nat := 2 ^ 64 - 2 ^ n
  [(1, 2 ^ 63 - 2 ^ 21), (4, above 32), (5, above 2), (6, above 1), (7, above 32), (8, above 31), (9, above 5), (10, above 3),
   (11, above 4), (16, 2 ^ 63 - 2 ^ 46 + (2 ^ 32 - 2 ^ 15)), (18, above 32), (19, above 32), (20, above 24), (49, above 10),
   (52, above 30 + (2 ^ 16 - 2 ^ 5))]

/-- The RES fields among the words of a frame are 0: of FLAGS, of the CSR images and of the stream images (R9; log 72). -/
def frameValid (flags : Word) (csrs streams : Nat → Word) : Bool :=
  decide (bits flags 23 41 = 0) && (csrRes.all fun r => csrs r.1 &&& w64 r.2 = 0)
    && (List.range 4).all fun k =>
      let d (i : Nat) : Word := streams (8 * k + i)
      decide (bits (d 0) 36 20 = 0 ∧ bits (d 0) 62 2 ≠ 3 ∧ bits (d 3) 12 52 = 0) && (List.range 4).all fun i => d (4 + i) = 0

/-- A VIQ entry, 32 bytes. -/
def viqBytes (e : VEntry) : List Byte :=
  natToBytes 8 (2 ^ 63 + e.vl * 2 ^ 48 + e.addr.toNat) ++ natToBytes 8 (instrWord e.instr).toNat
    ++ natToBytes 8 e.op0.toNat ++ natToBytes 8 e.op1.toNat

/-- The VIQ entry that 32 bytes give back; none where the instruction does not decode. -/
def viqOf (bs : List Byte) : Option VEntry :=
  let w := (dwordOf bs 1).toNat
  let bitsOf := if w / 2 ^ 32 = 0 then w else w / 2 ^ 32 + w % 2 ^ 32 * 2 ^ 32
  match decodeBits bitsOf with
  | .ok i => some { addr := vaOf (dwordOf bs 0), vl := bits (dwordOf bs 0) 48 15, instr := i, op0 := dwordOf bs 2, op1 := dwordOf bs 3 }
  | .error _ => none

/-- The image of a stream register (Table 10.1); a chain has lost its binding (R59). -/
def streamBytes (r : StreamReg) : List Byte :=
  let r : StreamReg := if r.kind = 2 then {} else r
  natToBytes 8 (r.kind.toNat * 2 ^ 62 + r.tag.toNat * 2 ^ 56 + r.rsize.toNat * 2 ^ 18 + r.rbase.toNat)
    ++ natToBytes 8 r.arrived.toNat ++ natToBytes 8 r.consumed.toNat ++ natToBytes 8 r.peer.toNat ++ List.replicate 32 0

/-- The stream register an image gives back. -/
def streamOf (bs : List Byte) : StreamReg :=
  let d := dwordOf bs 0
  { kind := BitVec.ofNat 2 (bits d 62 2), tag := BitVec.ofNat 6 (bits d 56 6), rsize := BitVec.ofNat 18 (bits d 18 18),
    rbase := BitVec.ofNat 18 (bits d 0 18), arrived := dwordOf bs 1, consumed := dwordOf bs 2,
    peer := BitVec.ofNat 12 (bits (dwordOf bs 3) 0 12) }

/-- E(i), 0 for a register that is not saved (R59). -/
def savedExt (t : Strand) (i : Fin 32) : Nat := if t.csr.vdirty.getLsbD i.val then t.v[i.val].ext else 0

/-- R of a strand, in bytes. -/
def regSize (t : Strand) : Nat := bits t.csr.vcfg 4 12 * 128

/-- Bytes of a mask that a frame holds: ⌈VLMAX ÷ 8⌉. -/
def maskBytes (t : Strand) : Nat := ceilDiv t.csr.vlmax.toNat 8

/-- Words [a, a + n) of the accumulator image. -/
def accBytes (t : Strand) (a n : Nat) : List Byte := (List.range n).flatMap fun k => natToBytes 4 (sget 0 t.accum.words (a + k)).toNat

/-- The words of the accumulator image that a frame holds whole: runs of bound slots and of tiles VALID and DIRTY. -/
def accRuns (t : Strand) : List (Nat × Nat) :=
  if t.csr.dcfg.getLsbD 63 then []
  else
    let n := bits t.csr.dcfg 0 15
    let row := roundUp n 128
    let sl := bits t.csr.dcfg 32 9
    let slots := (List.range sl).filterMap fun k =>
      let c := sget freeSlot t.accum.dir k
      if c = freeSlot then none else some (k * row, n - c.toInt.natAbs)
    let tiles := (List.range (bits t.csr.dcfg 41 4)).filterMap fun k =>
      if t.csr.tstat.getLsbD (3 * k) ∧ t.csr.tstat.getLsbD (3 * k + 1) then some (sl * row + 4096 * k, 4096) else none
    slots ++ tiles

/-- The tiles that are VALID and clean: the place of each in the image, and the address it is reloaded from. -/
def cleanTiles (t : Strand) : List (Nat × Fin 8) :=
  let base := bits t.csr.dcfg 32 9 * roundUp (bits t.csr.dcfg 0 15) 128
  ((List.finRange 8).filter fun k =>
    decide (k.val < bits t.csr.dcfg 41 4) && ! t.csr.dcfg.getLsbD 63 && t.csr.tstat.getLsbD (3 * k.val) && ! t.csr.tstat.getLsbD (3 * k.val + 1)).map
    fun k => (base + 4096 * k.val, k)

/-- Offset of the accumulator image. -/
def accOffset : Nat := 0x28000

/-- A frame as its parts: offset and bytes. RES areas, VIQ entries beyond the VIQ count, of which R59 says nothing, and what R59 does
not have written are left as they are (log 72). -/
def frameParts (n : Nat) (t : Strand) : List (Nat × List Byte) :=
  let exts := (List.finRange 32).map (savedExt t)
  let flags := 0x10 + t.priv.toNat * 2 ^ 8 + (decide (t.park ≠ 0)).toNat * 2 ^ 9 + t.park.toNat * 2 ^ 12 + t.viq.length * 2 ^ 16
  [(0x0, natToBytes 8 flags ++ natToBytes 8 t.pc.toNat ++ natToBytes 8 (exts.foldl max 0) ++ natToBytes 8 n
      ++ t.v.toList.map (fun r => r.tag.zeroExtend 8) ++ exts.flatMap (natToBytes 2)),
   (0x100, natToBytes 8 0 ++ t.x.toList.tail.flatMap fun w => natToBytes 8 w.toNat),
   (0x200, (List.range 64).flatMap fun k => natToBytes 8 (csrDword t k)),
   (0x400, t.viq.flatMap viqBytes),
   (0xC00, t.streams.toList.flatMap streamBytes),
   (0x1000, (List.range 256).flatMap fun k => natToBytes 4 (k * 2 ^ 16 + (sget freeSlot t.accum.dir k).toNat))]
  ++ ((List.finRange 8).map fun k => (0x2000 + k.val * 0x800, natToBytes (maskBytes t) t.m[k.val].toNat))
  ++ ((List.finRange 32).map fun i => (0x8000 + i.val * regSize t, (List.range (savedExt t i)).map fun q => sget 0 t.v[i.val].data q))
  ++ ((accRuns t).map fun r => (accOffset + 4 * r.1, accBytes t r.1 r.2))
  ++ ((cleanTiles t).map fun k => (accOffset + 4 * k.1, natToBytes 8 (sget 0 t.accum.images k.2.val).toNat))

/-- The offsets of a frame's words that are written as poisoned data (R132). -/
def framePoison (t : Strand) : List Nat :=
  (t.accum.poison.filter fun w => (accRuns t).any fun r => decide (r.1 ≤ w ∧ w < r.1 + r.2)).map fun w => accOffset + 4 * w

/-! ## Access to a frame (R49) -/

/-- A frame page: mapped, writable or readable, and backed in GDDR-7; its home is up. -/
def frameAt (k : Access) (c : Nat) (ctx : BitVec 12) (va : VAddr) : Act (TlbEntry × Nat) := do
  let e ← pageFrom va (translateAt .device c ctx va.toNat)
  if e.tier ≠ 0 then trap 0x04 (vaWord va)
  if ! pageAllows k true e then trap 0x05 (vaWord va)
  if homeInReset (← get) (e.key va.toNat) then throw .again
  pure (e, e.key va.toNat)

/-- Bytes written to a frame, line by line; a held write waits. -/
def frameWrite (c : Nat) (ctx : BitVec 12) (va : VAddr) (bs : List Byte) : List (Nat × Nat) → Act Unit
  | [] => pure ()
  | (o, n) :: rest => do
    let a := va + BitVec.ofNat 48 o
    let (e, pa) ← frameAt .store c ctx a
    if heldBy (← get) e pa then
      apply (reportStuck · pa)
      throw .again
    apply fun s => physWrite (n + 1) s pa ((bs.drop o).take n) e.dedup (ctxDomain s ctx)
    frameWrite c ctx va bs rest

/-- The pieces of n bytes at an address. -/
def framePieces (va : VAddr) (n : Nat) : List (Nat × Nat) := linePieces (n / 64 + 2) va.toNat 0 n

/-- The parts of a frame are written. -/
def writeParts (c : Nat) (ctx : BitVec 12) (va : VAddr) : List (Nat × List Byte) → Act Unit
  | [] => pure ()
  | (o, bs) :: rest => do
    let a := va + BitVec.ofNat 48 o
    frameWrite c ctx a bs (framePieces a bs.length)
    writeParts c ctx va rest

/-- The poisoned words of a frame. -/
def poisonParts (c : Nat) (ctx : BitVec 12) (va : VAddr) : List Nat → Act Unit
  | [] => pure ()
  | o :: rest => do
    let a := va + BitVec.ofNat 48 o
    let (_, pa) ← frameAt .store c ctx a
    apply fun s => poisonRange s pa 4
    poisonParts c ctx va rest

/-- The frame of strand n is written (R58). -/
def writeFrame (n : Nat) (t : Strand) (va : VAddr) : Act Unit := do
  writeParts (coreOf n) t.ctx va (frameParts n t)
  poisonParts (coreOf n) t.ctx va (framePoison t)

/-- Bytes read from a frame, and the offsets of the poisoned words among them. -/
def frameRead (c : Nat) (ctx : BitVec 12) (va : VAddr) : List (Nat × Nat) → Act (List Byte × List Nat)
  | [] => pure ([], [])
  | (o, n) :: rest => do
    let a := va + BitVec.ofNat 48 o
    let (e, pa) ← frameAt .load c ctx a
    let copy := rdcPoisoned (← get) (dieOf (4 * c)) (lineOf pa)
    apply fun s => homeRead s (lineOf pa) (dieOf (4 * c)) e.dedup (ctxDomain s ctx)
    let s ← get
    let bad := ((List.range ((n + 3) / 4)).filter fun k => copy || wordPoisoned s (pa + 4 * k)).map fun k => o + 4 * k
    let (bs, ps) ← frameRead c ctx va rest
    pure (memRead s.mem pa n ++ bs, bad ++ ps)

/-- n bytes at offset o of a frame; an uncorrectable error traps. -/
def framePart (c : Nat) (ctx : BitVec 12) (va : VAddr) (o n : Nat) : Act (List Byte) := do
  let a := va + BitVec.ofNat 48 o
  let (bs, ps) ← frameRead c ctx a (framePieces a n)
  if ps ≠ [] then trap 0x06 (vaWord va)
  pure bs

/-! ## The strand a frame gives back (R61) -/

/-- A list of action results. -/
def collect {α β : Type} (f : α → Act β) : List α → Act (List β)
  | [] => pure []
  | a :: t => do
    let b ← f a
    let r ← collect f t
    pure (b :: r)

/-- The accumulator words of the runs, read back; poisoned words are poisoned again (R132). -/
def loadRuns (c : Nat) (ctx : BitVec 12) (va : VAddr) : List (Nat × Nat) → Accum → Act Accum
  | [], a => pure a
  | (w, n) :: rest, a => do
    let a' := va + BitVec.ofNat 48 (accOffset + 4 * w)
    let (bs, ps) ← frameRead c ctx a' (framePieces a' (4 * n))
    let words := (List.range n).foldl (fun m k => sset 0 m (w + k) (BitVec.ofNat 32 (bytesToNat ((bs.drop (4 * k)).take 4)))) a.words
    loadRuns c ctx va rest { a with words, poison := ps.foldl (fun l o => insertNat (w + o / 4) l) a.poison }

/-- What a frame does not hold of its VIQ head, and the device keeps for it (log 71). The timeout of a VWAIT starts anew (R322). -/
def keepHead (v : Saved) : List VEntry → List VEntry
  | [] => []
  | h :: t =>
    match v.head with
    | some k => if k.addr = h.addr ∧ k.instr = h.instr then { h with begun := k.begun, held := k.held, desc := k.desc } :: t else h :: t
    | none => h :: t

/-- The VIQ of a frame with the entries poisoned that were so at the save (R371, log 98). -/
def keepPoison (v : Saved) (viq : List VEntry) : List VEntry :=
  viq.zipIdx.map fun (e, k) => if v.viqBad.contains k then { e with poison := true } else e

/-- The RES areas of a frame: offset and bytes (Table 3.8). -/
def frameRes : List (Nat × Nat) := [(0x80, 0x80), (0xD00, 0x300), (0x1400, 0xC00), (0x6000, 0x2000)]

/-- The strand that frame v gives back, read for core c; its clean tiles are reloaded later. A vine or window park that ended meanwhile
is noted in `sqinfo` (R149, R150). -/
def loadFrame (c : Nat) (v : Saved) : Act Strand := do
  let ctx := v.ctx
  let va := frameVa (← get) ctx v.frame
  let hd ← framePart c ctx va 0 0x80
  let xs ← framePart c ctx va 0x100 0x100
  let cs ← framePart c ctx va 0x200 0x200
  let (csr, trapRegs) := csrsOf (dwordOf cs)
  let flags := dwordOf hd 0
  let cnt := min 64 (bits flags 16 7)
  let vq ← framePart c ctx va 0x400 (32 * cnt)
  let viq := (List.range cnt).filterMap fun k => viqOf ((vq.drop (32 * k)).take 32)
  let st ← framePart c ctx va 0xC00 0x100
  let res ← collect (fun r => framePart c ctx va r.1 r.2) frameRes
  if viq.length ≠ cnt || ! frameValid flags (dwordOf cs) (dwordOf st) || ! res.all allZero then trap 0x01 (vaWord va)
  let csr := if v.woken ∧ (v.park = 4 ∨ v.park = 5) then { csr with sqinfo := setBits csr.sqinfo 28 4 5 } else csr
  let base : Strand := { resident := true, ctx, pc := vaOf (dwordOf hd 1), priv := flags.getLsbD 8, csr, trap := trapRegs,
                          viq := keepPoison v (keepHead v viq), bad := v.bad, item := v.item, copyErr := v.copyErr, qerr := v.qerr }
  let ms ← collect (fun k => framePart c ctx va (0x2000 + k * 0x800) (maskBytes base)) (List.range 8)
  let ext (i : Nat) : Nat := bytesToNat ((hd.drop (0x40 + 2 * i)).take 2)
  let vs ← collect (fun i => framePart c ctx va (0x8000 + i * regSize base) (ext i)) (List.range 32)
  let dir ← framePart c ctx va 0x1000 0x400
  let acc : Accum := { dir := (List.range 256).foldl (fun d k => sset freeSlot d k (BitVec.ofNat 16 (bytesToNat ((dir.drop (4 * k)).take 2)))) [], error := v.accErr }
  let acc ← loadRuns c ctx va (accRuns { base with accum := acc }) acc
  let imgs ← collect (fun k => do
    let bs ← framePart c ctx va (accOffset + 4 * k.1) 8
    pure (k.2.val, vaOf (dwordOf bs 0))) (cleanTiles base)
  pure { base with
    x := Vector.ofFn fun i : Fin 32 => if i = 0 then 0 else dwordOf xs i.val
    m := Vector.ofFn fun k : Fin 8 => BitVec.ofNat 16384 (bytesToNat (ms.getD k.val []))
    v := Vector.ofFn fun i : Fin 32 => { tag := BitVec.ofNat 6 (hd.getD (0x20 + i.val) 0).toNat, ext := ext i.val, data := writeBytes [] 0 (vs.getD i.val []) }
    streams := Vector.ofFn fun k : Fin 4 => streamOf ((st.drop (64 * k.val)).take 64)
    accum := { acc with images := imgs.foldl (fun m p => sset 0 m p.1 p.2) [] } }

/-- The strand without its vector registers, as cause 0x11 leaves it (R57): they are zeroed, their tags are 0x00, `vdirty` is
cleared and `vcfg`[63] is set. -/
def loseVectors (t : Strand) : Strand :=
  { t with v := Vector.replicate 32 {}, bad := t.bad.filter fun w => match w with | .v _ _ => false | _ => true, csr := { t.csr with vdirty := 0, vcfg := t.csr.vcfg ||| w64 (2 ^ 63) } }

/-- The strand without its accumulator grant (R61). -/
def loseAccum (t : Strand) : Strand :=
  let t := dropAccum t
  { t with csr := { t.csr with dcfg := w64 (2 ^ 63) } }

end Sys2Proof.Machine
end

