-- ==== Sys2Proof/Machine/Launch.lean ====
section
/-! DEFINITION. The launch processor's placements (R69, R79, R82 to R92), pre-emption, saves and restores (R48, R49, R58, R61),
the watchdog (R57, R87), and the end of an item (R88, R353). -/

namespace Sys2Proof.Machine

/-! ## Items of a launch (R82, R83) -/

/-- G_i of a launch. -/
def Launch.group (h : Launch) (i : Nat) : Nat := groupSize h.extents i
/-- N. -/
def Launch.items (h : Launch) : Nat := h.group 6

/-- Members placed on one core together, from widths and scopes: the group of the highest level of scope `core`. -/
def coreSet (scopes extents : List Nat) : Nat :=
  match highestLevel scopes 1 with
  | some i => groupSize extents i
  | none => 1

/-- Members placed on one cluster together: the group of the highest level of scope `cluster`, or the core's. -/
def clusterSet (scopes extents : List Nat) : Nat :=
  match highestLevel scopes 2 with
  | some i => groupSize extents i
  | none => coreSet scopes extents

/-- Core-scope item index of the item with linear index l. -/
def coreIndex (scopes extents : List Nat) (l : Nat) : Nat :=
  match lowestLevel scopes 1 with
  | some i => l % groupSize extents i
  | none => 0

/-- The identifier of the item with linear index l. -/
def itemWid (widths extents : List Nat) (l : Nat) : Word :=
  w64 (((List.range 6).map fun i => l / groupSize extents i % extents.getD i 1 * 2 ^ (widths.take i).sum).sum)

/-- Item l of entry e. -/
def itemOf (q : Nat) (e : QEntry) (h : Launch) (l : Nat) : Item :=
  { queue := q, entry := e.id, index := l, wid := itemWid h.widths h.extents l, wfld := h.wfld, extents := h.extents,
    coreIdx := coreIndex h.scopes h.extents l, vrfh := h.vrfh, units := h.vrfh, acch := h.acch, wdog := h.wdog, slots := h.slots }

/-- A strand that wants a place: its context and item, and the grants of its frame (R61). -/
structure Want where
  ctx  : BitVec 12
  item : Item
  vcfg : Word := 0
  dcfg : Word := 0
  deriving DecidableEq, Repr

/-- The strand that holds a place for it. -/
def Want.strand (w : Want) : Strand := { resident := true, ctx := w.ctx, item := w.item, csr := { vcfg := w.vcfg, dcfg := w.dcfg } }

/-! ## Room (R84, R85, R61) -/

/-- Free and resident strands of a core. -/
def freeStrands (s : State) (c : Nat) : List Nat := (strandsOf c).filter fun n => ! (getStrand s n).resident
def residentStrands (s : State) (c : Nat) : List Nat := (strandsOf c).filter fun n => (getStrand s n).resident

/-- Items may be placed on the core: a lane group is enabled (R373) and its die is up (R380). -/
def coreUsable (s : State) (c : Nat) : Bool :=
  decide ((getCore s c).disable ≠ 0xF) && decide (s.daleel.dies[(dieOf (4 * c)).val] = .up)

/-- The core has strands for the wants, and both sums of hints fit (R84). -/
def hintsFit (s : State) (c : Nat) (ws : List Want) : Bool :=
  let rs := (residentStrands s c).map (getStrand s)
  coreUsable s c && decide (ws.length ≤ (freeStrands s c).length)
    && decide ((rs.map (·.item.vrfh)).sum + (ws.map (·.item.vrfh)).sum ≤ 4 * laneGroups (getCore s c))
    && decide ((rs.map (·.item.acch)).sum + (ws.map (·.item.acch)).sum ≤ 32)

/-- The core has room for the grants themselves (R61). -/
def grantsFit (s : State) (c : Nat) (ws : List Want) : Bool :=
  let ts := (residentStrands s c).map (getStrand s) ++ ws.map (·.strand)
  decide ((ts.map heldUnits).sum ≤ 4 * laneGroups (getCore s c)) && decide ((ts.map heldWords).sum ≤ Config.accWords)

/-- The cores of a die, lowest first. -/
def dieCores (d : Fin 4) : List Nat := (List.range 256).map (256 * d.val + ·)

/-- The core that takes a set: the lowest with room for its hints; a restore looks for room for its grants first. -/
def pickCore (s : State) (d : Fin 4) (ws : List Want) (grants : Bool) : Option Nat :=
  let full := if grants then (dieCores d).find? fun c => hintsFit s c ws && grantsFit s c ws else none
  match full with
  | some c => some c
  | none => (dieCores d).find? fun c => hintsFit s c ws

/-- Each set of wants takes its strands, in ascending number; none if one finds no core. -/
def seatSets (s : State) (d : Fin 4) (grants : Bool) : List (List Want) → Option (State × List (Nat × Want))
  | [] => some (s, [])
  | ws :: rest =>
    match pickCore s d ws grants with
    | none => none
    | some c =>
      let seats := (freeStrands s c).zip ws
      let s := seats.foldl (fun s x => setStrand s x.1 x.2.strand) s
      match seatSets s d grants rest with
      | none => none
      | some (s, more) => some (s, seats ++ more)

/-- Free strands of a die. -/
def freeOnDie (s : State) (d : Fin 4) : Nat := 1024 - (strandsWhere s fun t => t.resident).countP fun n => dieOf n = d

/-- A die stands before one with fewer free strands, and before a higher one with as many. -/
def insertDie (f : Fin 4 → Nat) (d : Fin 4) : List (Fin 4) → List (Fin 4)
  | [] => [d]
  | e :: t => if f e < f d then d :: e :: t else e :: insertDie f d t

/-- The dies in the order a placement tries them (R85). -/
def dieOrder (s : State) : List (Fin 4) := (List.finRange 4).foldl (fun l d => insertDie (freeOnDie s) d l) []

/-- A cluster group takes its strands, on the first die that can hold all of it. -/
def seatGroup (s : State) (sets : List (List Want)) (grants : Bool) : Option (State × List (Nat × Want)) :=
  (dieOrder s).findSome? fun d => seatSets s d grants sets

/-- A list cut into runs of k. -/
def chunks {α : Type} (k : Nat) : Nat → List α → List (List α)
  | 0, _ => []
  | fuel + 1, l => if l = [] then [] else l.take k :: chunks k fuel (l.drop k)

/-! ## Group objects and slot tables (R91, R92, R79) -/

/-- Strand n joins the group of one level, which its first member creates. TARGET holds the low 32 bits of a group's size (log 88). -/
def joinGroup (s : State) (n i : Nat) : State :=
  let t := getStrand s n
  let sc := fieldScope t i
  if sc = 0 ∨ 3 < sc then s
  else
    let g := groupSize t.item.extents i
    let key := (t.item.entry, i, t.item.index / g)
    let (o, s) := match s.lp.groups.find? fun x => x.2.key = key with
      | some (o, _) => (o, s)
      | none =>
        let o := s.lp.nextId
        let home := if sc = 1 then coreOf n else if sc = 2 then (dieOf n).val
          else (homeDie s (s.lp.groupTable + 16 * (Config.groupPlace o).val)).val
        let obj : GroupObj := { target := BitVec.ofNat 32 g, arrived := 0, gen := 0, scope := sc, home, ctx := t.ctx, key }
        (o, { s with lp := { s.lp with nextId := o + 1, groups := s.lp.groups ++ [(o, obj)] } })
    modStrand s n fun t => { t with item := { t.item with groups := t.item.groups ++ [{ level := i, obj := o }] } }

/-- Every strand placed joins its groups. -/
def joinGroups (s : State) (seats : List (Nat × Want)) : State :=
  seats.foldl (fun s x => (List.range 6).foldl (fun s i => joinGroup s x.1 i) s) s

/-- The group table, and each core's group registers, hold what they may (R92). -/
def groupsFit (s : State) : Bool :=
  decide (s.lp.groups.length ≤ Config.groupTable) && s.lp.groups.all fun g =>
    decide (g.2.scope ≠ 1) || decide (s.lp.groups.countP (fun x => x.2.scope = 1 ∧ x.2.home = g.2.home) ≤ Config.groupRegs)

/-- Slot i of a core's table after a placement of the seats there (R79). Where several items placed there share a core-scope index
the first seat owns the slot, which the spec leaves open (log 65). -/
def slotEntry (seats : List (Nat × Want)) (slots : Word) (i : Nat) : BitVec 5 :=
  let e := bits slots (4 * i) 4
  match seats.find? fun x => x.2.item.coreIdx = e % 4 with
  | some (n, _) => if 8 ≤ e then BitVec.ofNat 5 (8 + e / 4 % 2 * 16 + n % 4) else 0
  | none => 0

/-- The cores of a placement load their slot tables, and are powered. -/
def loadSlots (s : State) (seats : List (Nat × Want)) (slots : Word) : State :=
  (seats.map fun x => coreOf x.1).eraseDups.foldl (fun s c =>
    let here := seats.filter fun x => coreOf x.1 = c
    let t := Vector.ofFn fun i : Fin 16 => slotEntry here slots i.val
    modCore s c fun k => { k with slots := t, slotNow := t[k.curSlot], gated := false }) s

/-! ## Contexts out of reach (R380) -/

/-- A line of [a, a + n) is homed on a die in reset. -/
def rangeInReset (s : State) (a n : Nat) : Bool := (List.range ((a + n - 1) / 128 - a / 128 + 1)).any fun i => homeInReset s (lineOf a + 128 * i)

/-- A page table of the context has lines homed on a die in reset. -/
def tablesInReset (s : State) (root : Nat) : Bool :=
  let word (a : Nat) : Nat := memNat s.mem a 8
  rangeInReset s root 0x8000 || (List.range 4096).any fun i =>
    let e := word (root + 8 * i)
    entryBit e 63 && ! entryBit e 62 && (rangeInReset s (entryNext e) 0x2000 || (List.range 1024).any fun j =>
      let f := word (entryNext e + 8 * j)
      entryBit f 63 && ! entryBit f 62 && rangeInReset s (entryNext f) 0x2000)

/-- A virtual range of the context has lines homed on a die in reset. -/
def virtualInReset (s : State) (ctx : BitVec 12) (va n : Nat) : Bool :=
  decide (n ≠ 0) && (List.range (n / 128 + 1)).any fun i =>
    match (walk 0 0 ctx ((va + 128 * i) % 2 ^ 48) s).1 with
    | .ok f => homeInReset s ((tlbOf ctx ((va + 128 * i) % 2 ^ 48) f).key ((va + 128 * i) % 2 ^ 48))
    | .error c => decide (c = 0x05)

/-- Descriptor, page tables, frames or vine table of a context lie on a die in reset: it is neither placed nor restored. -/
def outOfReach (s : State) (ctx : BitVec 12) : Bool :=
  (s.daleel.dies.toList.any fun d => decide (d = .inReset)) &&
    (homeInReset s (descAddr s ctx) || tablesInReset s (ctxRoot s ctx) || virtualInReset s ctx (ctxFrBase s ctx) (ctxFrCount s ctx * frameBytes)
      || virtualInReset s ctx (ctxVtBase s ctx) (64 * ctxVtCount s ctx))

/-! ## Choosing (R69) -/

/-- Entries of a queue with items still to place, in order; no new entry of a queue that is not ACTIVE starts. -/
def queueEntries (s : State) (q : Nat) : List (QEntry × Launch) :=
  let v := getQueue s q
  v.entries.filterMap fun e =>
    match e.launch with
    | some h =>
      let st := ctxState s e.ctx
      if e.stage = .placing ∧ (e.next ≠ 0 ∨ v.stat = 1) ∧ (st = 1 ∨ st = 2) ∧ ! outOfReach s e.ctx then some (e, h) else none
    | none => none

/-- PRIO of a SAVED context: the highest among the queues of its saved items. -/
def savedPrio (s : State) (ctx : BitVec 12) : Nat :=
  ((s.lp.saved.filter fun v => v.ctx = ctx).map fun v => (getQueue s v.item.queue).prio).foldl max 0

/-- PRIO of a resident context's running entries: the highest. -/
def residentPrio (s : State) (ctx : BitVec 12) : Nat :=
  ((strandsWhere s fun t => t.resident ∧ t.ctx = ctx).map fun n => (getQueue s (getStrand s n).item.queue).prio).foldl max 0

/-- SAVED contexts that may be restored, in the order of their saves. -/
def savedContexts (s : State) : List (BitVec 12) := s.lp.order.filter fun c => decide (ctxState s c = 4) && ! outOfReach s c

/-- The highest PRIO with startable work. -/
def topPrio (s : State) : Option Nat :=
  let qs := ((s.lp.queues.map (·.1)).filter fun q => queueEntries s q ≠ []).map fun q => (getQueue s q).prio
  let cs := (savedContexts s).map (savedPrio s)
  match qs ++ cs with
  | [] => none
  | p :: t => some (t.foldl max p)

/-- R49 lets the context be pre-empted. -/
def framesSuffice (s : State) (ctx : BitVec 12) : Bool :=
  decide ((strandsWhere s fun t => t.resident ∧ t.ctx = ctx).length ≤ ctxFrCount s ctx)

/-- The context with the lowest PRIO among some, the longest-resident among equals. -/
def lowestPrio (s : State) : List (BitVec 12) → Option (BitVec 12)
  | [] => none
  | c :: t =>
    match lowestPrio s t with
    | none => some c
    | some d => if residentPrio s d < residentPrio s c then some d else some c

/-- A context is in SAVING. -/
def saving (s : State) : Bool := s.lp.active.any fun a => decide (a.2 = 3)

/-- Pre-emption of a context begins: cause 0x10 on all its resident strands, each with its frame, the lowest strand the first (R49,
R58): the frame stays its own, and one of a strand that EXITs before its save is left unused (log 89). -/
def preempt (s : State) (ctx : BitVec 12) : State :=
  let ns := strandsWhere s fun t => t.resident ∧ t.ctx = ctx
  setCtxState (ns.zipIdx.foldl (fun s p => modStrand s p.1 fun t => { t with frame := p.2 }) s) ctx 3

/-- Room is made for work of priority p (R69, step 3): among the resident contexts of lower priority, whose descriptors are read for
their frames. -/
def makeWay (s : State) (p : Nat) : State :=
  if saving s then s
  else
    let below (s : State) : List (BitVec 12) := s.lp.resid.filter fun c => decide (ctxState s c = 2 ∧ residentPrio s c < p)
    let s := (below s).foldl descCheck s
    match lowestPrio s ((below s).filter (framesSuffice s)) with
    | some c => preempt s c
    | none => s

/-! ## Placing (R85, R86) -/

/-- A context becomes resident. -/
def becomeResident (s : State) (ctx : BitVec 12) : State :=
  if ctxState s ctx = 2 then s
  else
    let s := setCtxState s ctx 2
    { s with lp := { s.lp with resid := s.lp.resid.filter (· ≠ ctx) ++ [ctx] } }

/-- A context is resident no more. -/
def leaveResidence (s : State) (ctx : BitVec 12) (st : Nat) : State :=
  let s := setCtxState s ctx st
  { s with lp := { s.lp with resid := s.lp.resid.filter (· ≠ ctx) } }

/-- ITEM_START (R86): the state an item starts with. -/
def startItem (s : State) (n : Nat) (e : QEntry) (h : Launch) : State :=
  modStrand s n fun t =>
    let sp := if h.stksize = 0 then 0 else h.stkbase + w64 ((t.item.index + 1) * h.stksize.toNat)
    { resident := true, ctx := e.ctx, item := t.item, pc := h.entry,
      x := (((Vector.replicate 32 (0 : Word)).set 10 e.arg1).set 11 (w64 t.item.index)).set 12 (w64 e.seq) |>.set 2 sp
      csr := { vshare := if h.vshare = 0 then 1 else h.vshare }
      trap := { tvec := ctxTvec s e.ctx }
      dogFrom := s.cycle }

/-- The queue that is in its turn at a priority, and the items it has placed in it (R69). -/
def turnOf (s : State) (p : Nat) : Nat × Nat := sget (0, 0) s.lp.turns p

/-- Queue q has placed k items more in its turn. -/
def countTurn (s : State) (q k : Nat) : State :=
  let p := (getQueue s q).prio
  let (t, n) := turnOf s p
  let spent := if t = q ∧ n < (getQueue s q).weight then n + k else k
  { s with lp := { s.lp with turns := sset (0, 0) s.lp.turns p (q, spent) } }

/-- The places of an entry's next item or co-resident group; none for lack of them. -/
def seatNext (s : State) (q : Nat) (e : QEntry) (h : Launch) : Option (State × List (Nat × Want)) :=
  let k := clusterSet h.scopes h.extents
  let ws := (List.range k).map fun i => ({ ctx := e.ctx, item := itemOf q e h (e.next + i) } : Want)
  seatGroup s (chunks (coreSet h.scopes h.extents) k ws) false

/-- Those places, with the groups of their items, where the group table and the registers hold them too (R92). -/
def joinNext (s : State) (q : Nat) (e : QEntry) (h : Launch) : Option (State × List (Nat × Want)) :=
  match seatNext s q e h with
  | none => none
  | some (s, seats) => if groupsFit (joinGroups s seats) then some (joinGroups s seats, seats) else none

/-- The next item or co-resident group of an entry takes its places; none while it cannot. A group larger than what is left of WEIGHT,
of which R69 says nothing, is placed whole (log 73). -/
def placeNext (s : State) (q : Nat) (e : QEntry) (h : Launch) : Option State :=
  let k := clusterSet h.scopes h.extents
  (joinNext s q e h).map fun (s, seats) =>
    let s := seats.foldl (fun s x => startItem s x.1 e h) s
    let s := loadSlots (becomeResident s e.ctx) seats h.slots
    let s := setEntry s q e.id fun e =>
      { e with next := e.next + k, live := e.live + k, stage := if h.items ≤ e.next + k then .placed else .placing,
               began := if e.next = 0 then s.cycle else e.began }
    countTurn s q k

/-- The queues of a priority in the order they are served: the one in its turn while WEIGHT lasts, then upward in number. -/
def serveOrder (s : State) (p : Nat) : List Nat :=
  let (t, n) := turnOf s p
  let next := (List.range 64).map fun i => (t + 1 + i) % 64
  (if n < (getQueue s t).weight then t :: next else next).filter fun q => (getQueue s q).prio = p

/-- The descriptors of the contexts whose entries may be placed next are read (Table 3.2). -/
def readDescs (s : State) (p : Nat) : State :=
  (serveOrder s p).foldl (fun s q => (queueEntries s q).foldl (fun s eh => descCheck s eh.1.ctx) s) s

/-- The first placement that fits, among the entries of priority p. -/
def firstFit (s : State) (p : Nat) : Option State :=
  (serveOrder s p).findSome? fun q => (queueEntries s q).findSome? fun eh => placeNext s q eh.1 eh.2

/-- An entry of priority p cannot be placed for lack of strands, or of room for its groups. -/
def blocked (s : State) (p : Nat) : Bool :=
  (serveOrder s p).any fun q => (queueEntries s q).any fun eh => (joinNext s q eh.1 eh.2).isNone

/-! ## Restoring (R61) -/

/-- The saved items of a context in order of entry and index. -/
def insertSaved (v : Saved) : List Saved → List Saved
  | [] => [v]
  | u :: t => if v.item.entry < u.item.entry ∨ (v.item.entry = u.item.entry ∧ v.item.index < u.item.index) then v :: u :: t else u :: insertSaved v t

/-- A list cut where `key` changes. -/
def runsBy {α : Type} (key : α → Nat) : List α → List (List α)
  | [] => []
  | a :: t =>
    match runsBy key t with
    | (b :: r) :: rest => if key a = key b then (a :: b :: r) :: rest else [a] :: (b :: r) :: rest
    | rest => [a] :: rest

/-- The number of the core set, or of the cluster set, of a saved item. -/
def setOf (size : List Nat → List Nat → Nat) (v : Saved) : Nat :=
  v.item.entry * 2 ^ 64 + v.item.index / size (fieldScopes v.item.wfld) v.item.extents

/-- The groups of saved items that are placed together, each as its core sets. -/
def savedSets (vs : List Saved) : List (List (List Saved)) := (runsBy (setOf clusterSet) vs).map (runsBy (setOf coreSet))

/-- The wants of a saved item: the grants its frame names. -/
def wantOf (v : Saved) (t : Except (BitVec 8) Strand) : Want :=
  match t with
  | .ok t => { ctx := v.ctx, item := v.item, vcfg := t.csr.vcfg, dcfg := t.csr.dcfg }
  | .error _ => { ctx := v.ctx, item := v.item }

/-- Every group of saved items takes its strands; none if one cannot. -/
def seatAll (s : State) : List (List (List Want)) → Option (State × List (List (Nat × Want)))
  | [] => some (s, [])
  | g :: rest =>
    match seatGroup s g true with
    | none => none
    | some (s, seats) =>
      match seatAll s rest with
      | none => none
      | some (s, more) => some (s, seats :: more)

/-- The grants of a restored strand that its core has no room for are lost (R61); whether one was. -/
def fitGrants (s : State) (n : Nat) (t : Strand) : Strand × Bool :=
  let s := setStrand s n { t with csr := { t.csr with vcfg := 0, dcfg := 0 } }
  let lostV := decide (unitsAvail s n < vcfgUnits t.csr.vcfg)
  let lostA := ! t.csr.dcfg.getLsbD 63 && decide (wordsAvail s n < grantWords t.csr.dcfg)
  let t := if lostV then loseVectors t else t
  (if lostA then loseAccum t else t, lostV || lostA)

/-- The page of a clean tile's image, which the restore reads for the strand. -/
def restorePage (va : VAddr) : Act TlbEntry := do
  let e ← strandPage (← get).st.ctx va
  if pageAllows .load true e then pure e else trap 0x05 (vaWord va)

/-- The clean tiles of the focused strand are reloaded from their images (R59); a fault is kept for TSTAT. -/
def reloadTiles : List (Nat × Fin 8) → Act Unit
  | [] => pure ()
  | (_, k) :: rest => do
    let va := sget 0 (← get).st.accum.images k.val
    let (r, s) := Act.on (do
      let pages ← imagePages restorePage va
      loadTile k.val pages va (linePieces (tileBytes / 64) va.toNat 0 tileBytes)) (← get)
    set s
    match r with
    | .error (.trap c v) => apply fun s => { s with st := { s.st with accum := { s.st.accum with error := s.st.accum.error.orElse fun _ => some (c, v) } } }
    | .error x => throw x
    | .ok _ => pure ()
    reloadTiles rest

/-- A strand is restored on its place: its grants, its tiles, the acquire, and cause 0x11 where a grant was lost. -/
def resume (n : Nat) (t : Strand) : Act Unit := do
  let s ← get
  let (t, lost) := fitGrants s n (t.restart s.cycle)
  set (emptyL1 (setStrand s n t) (coreOf n))
  asStrand (Fin.ofNat 4096 n) (do
    reloadTiles (cleanTiles t)
    if lost then apply fun s => asyncTrap 0x11 ((laneMask (getCore s (curCore s))).zeroExtend 64) s)

/-- The action runs; a trap in it is the frame's error, by which the context goes to DEAD with the frame's address (R49). -/
def frameError {α : Type} (ctx : BitVec 12) (va : VAddr) (a : Act α) : Act (Option α) := do
  let (r, s) := Act.on a (← get)
  match r with
  | .ok v => set s; pure (some v)
  | .error (.trap _ _) => set (contextDead s ctx 1 0 (vaWord va)); pure none
  | .error x => set s; throw x

/-- The frames of saved items, as far as they can be read. -/
def readFrames : List Saved → Act (List (Saved × Except (BitVec 8) Strand))
  | [] => pure []
  | v :: rest => do
    let t ← caught (loadFrame 0 v)
    let more ← readFrames rest
    pure ((v, t) :: more)

/-- The slices of a context's entries begin anew (R69). -/
def restartSlices (s : State) (ctx : BitVec 12) : State :=
  (s.lp.queues.map (·.1)).foldl (fun s q =>
    let v := getQueue s q
    setQueue s q { v with entries := v.entries.map fun e => if e.ctx = ctx ∧ e.live ≠ 0 then { e with began := s.cycle } else e }) s

/-- The saved strands of a context, as their frames give them, and the places they take, where all can be placed at once. -/
def seatSaved (ctx : BitVec 12) : Act (List (Saved × Except (BitVec 8) Strand) × Option (State × List (List (Nat × Want)))) := do
  let vs := ((← get).lp.saved.filter fun v => v.ctx = ctx).foldl (fun l v => insertSaved v l) []
  let loads ← readFrames vs
  let want (v : Saved) : Want := wantOf v (match loads.find? fun x => x.1 = v with | some x => x.2 | none => .error 0)
  pure (loads, seatAll (← get) ((savedSets vs).map fun g => g.map fun c => c.map want))

/-- A SAVED context is restored whole, if every saved strand can be placed at once; else room is made for it. Its entries have run no
clock of their slice (R69, log 90). -/
def restoreWhole (ctx : BitVec 12) : Act Unit := do
  let s0 ← get
  let (loads, seated) ← seatSaved ctx
  match seated with
  | none => set (makeWay (keepWalks s0 (← get)) (savedPrio s0 ctx))
  | some (s, groups) =>
    match loads.find? fun x => match x.2 with | .error _ => true | .ok _ => false with
    | some (v, _) => set (contextDead s0 ctx 1 0 (vaWord (frameVa s0 ctx v.frame)))
    | none =>
      let s := groups.foldl (fun s g => loadSlots s g ((g.head?.map fun x => x.2.item.slots).getD 0)) s
      let s := setCtxState s ctx 5
      set { s with lp := { s.lp with saved := s.lp.saved.filter fun v => v.ctx ≠ ctx, order := s.lp.order.filter (· ≠ ctx) } }
      for (n, w) in groups.flatten do
        match loads.find? fun x => decide (x.1.item = w.item) with
        | some (_, .ok t) => resume n t
        | _ => pure ()
      if ctxState (← get) ctx = 5 then apply fun s => becomeResident (restartSlices s ctx) ctx

/-- The restore of a SAVED context, whose descriptor is read first (Table 3.2). -/
def restoreCtx (ctx : BitVec 12) : Act Unit := do
  apply fun s => descCheck s ctx
  if ctxState (← get) ctx = 4 then restoreWhole ctx

/-- One choice of the launch processor (R69): the highest priority, SAVED contexts first, then the queues in turn; for an entry
that finds no strands a lower-priority context is pre-empted. -/
def placeItems : Act Unit := do
  let s ← get
  match topPrio s with
  | none => pure ()
  | some p =>
    match (savedContexts s).find? fun c => savedPrio s c = p with
    | some c => restoreCtx c
    | none =>
      let s := readDescs s p
      let s := (firstFit s p).getD s
      set (if blocked s p then makeWay s p else s)

/-- PLACE_ITEMS. -/
def execPlaceItems (s : State) : Host.Outcome State Fault Refusal := wholeEvent placeItems s

/-- RESTORE of a context: when it is the launch processor's choice. -/
def execRestore (ctx : BitVec 12) (s : State) : Host.Outcome State Fault Refusal :=
  wholeEvent (do
    let s ← get
    match topPrio s with
    | some p => if (savedContexts s).find? (fun c => savedPrio s c = p) = some ctx then restoreCtx ctx else pure ()
    | none => pure ()) s

/-- An entry other than e, of priority p or higher, waits for strands, or the restore of a context of such a priority does. -/
def waitsFor (s : State) (p : Nat) (e : QEntry) : Bool :=
  ((s.lp.queues.map (·.1)).any fun q => decide (p ≤ (getQueue s q).prio) &&
      (queueEntries s q).any fun eh => decide (eh.1.id ≠ e.id) && (joinNext s q eh.1 eh.2).isNone)
    || (savedContexts s).any fun c => decide (p ≤ savedPrio s c) &&
      (match (Act.on (seatSaved c) s).1 with
        | .ok (_, none) => true
        | _ => false)

/-- An entry of queue v has run its SLICE by cycle `now` (R69). -/
def ranSlice (v : Queue) (now : Word) (e : QEntry) : Bool :=
  decide (e.live ≠ 0 ∧ v.slice ≠ 0 ∧ v.slice * 65536 ≤ (now - e.began).toNat)

/-- TIME_SLICE_EXPIRY (R69): an entry of queue q has run its SLICE while an entry or a restore of equal or higher priority waits. -/
def execTimeSliceExpiry (q : Fin 64) (s : State) : Host.Outcome State Fault Refusal :=
  let v := getQueue s q.val
  match v.entries.find? (ranSlice v s.cycle) with
  | none => .next s
  | some e =>
    let s := descCheck s e.ctx
    .next (if ctxState s e.ctx = 2 ∧ ! saving s ∧ framesSuffice s e.ctx ∧ waitsFor s v.prio e then preempt s e.ctx else s)

/-! ## Saving (R49, R58) -/

/-- Strand n is saved once its VIQ holds no trap's entries, its tiles have settled, its copies have finished, and its SIGNALs
are answered and its writes to host and peer memory complete (R57, R58, R217). -/
def saveReady (s : State) (n : Nat) : Bool :=
  let t := getStrand s n
  decide (t.hold = [] ∧ t.accum.flight = [] ∧ t.signals = [])
    && ! ((getCore s (coreOf n)).commands.any fun m => decide (m.strand = n))
    && ! (s.links.hostLate.any fun p => decide (p.1 = n)) && ! ((peerMsgs s).any fun m => decide (m.strand = n) && isPeerWrite m.op)

/-- The last resident strand has gone: the context is SAVED; one whose last strand EXITs with no frame written, for which Table 3.2
names no event, is IDLE (log 70). -/
def lastGone (s : State) (ctx : BitVec 12) : State :=
  if strandsWhere s (fun t => t.resident ∧ t.ctx = ctx) ≠ [] then s
  else if ctxState s ctx = 3 ∧ (s.lp.saved.any fun v => v.ctx = ctx) then
    let s := leaveResidence s ctx 4
    { s with lp := { s.lp with order := s.lp.order ++ [ctx] } }
  else if ctxState s ctx = 2 ∨ ctxState s ctx = 3 then leaveResidence s ctx 1
  else s

/-- FRAME_SAVE: the frame of a stopped strand is written and released at `.sy`, and the strand is free. What a frame has no field for
(`wid`, `wfld`, the item's groups and records of errors) the device keeps with the item (log 71). -/
def saveStrand (n : Nat) : Act Unit := do
  if ctxState (← get) (getStrand (← get) n).ctx = 3 then apply fun s => descCheck s (getStrand s n).ctx
  let s ← get
  let t := getStrand s n
  if t.resident ∧ ctxState s t.ctx = 3 ∧ saveReady s n then
    let va := frameVa s t.ctx t.frame
    match ← frameError t.ctx va (writeFrame n t va) with
    | none => pure ()
    | some _ =>
      apply fun s =>
        let v : Saved := { ctx := t.ctx, frame := t.frame, item := { t.item with units := t.item.vrfh }, num := n, copyErr := t.copyErr,
                           accErr := t.accum.error, park := t.park, wait := t.wait, qerr := t.qerr, head := t.viq.head?, bad := t.bad,
                           viqBad := (t.viq.zipIdx.filter fun p => p.1.poison).map (·.2) }
        let s := forgetReads (setStrand s n {}) n false
        lastGone { s with lp := { s.lp with saved := s.lp.saved ++ [v] } } t.ctx

/-- FRAME_SAVE. -/
def execFrameSave (n : Fin 4096) (s : State) : Host.Outcome State Fault Refusal := wholeEvent (saveStrand n.val) s

/-! ## The watchdog, and the end of an item -/

/-- Clocks of an item's watchdog period: WDOG × 2^20, 4,096 units where WDOG is 0 (R87). -/
def dogPeriod (i : Item) : Nat := (if i.wdog = 0 then 4096 else i.wdog) * 2 ^ 20

/-- WATCHDOG_EXPIRY (R57, R87): once a period is counted, cause 0x12 in user mode; in privileged mode the context goes to DEAD. -/
def execWatchdogExpiry (n : Fin 4096) (s : State) : Host.Outcome State Fault Refusal :=
  let t := getStrand s n.val
  if ! t.resident ∨ t.park ≠ 0 ∨ (ctxState s t.ctx = 3 ∧ t.hold = []) ∨ t.counted s.cycle < dogPeriod t.item then .next s
  else if t.priv then .next (contextDead s t.ctx 2 (t.trap.tcause.zeroExtend 64) 0)
  else event (asStrand n (apply fun s => asyncTrap 0x12 s.cycle { s with st := s.st.restart s.cycle })) s

/-- The focused strand's item ends (R88): its strand, its reservations and all it held are free. -/
def endItem (s : State) : State :=
  let t := s.st
  let s := forgetReads { s with st := {} } s.cur.val false
  let s := setEntry s t.item.queue t.item.entry fun e => { e with live := e.live - 1 }
  lastGone s t.ctx

/-- The errors of copy channels that no XDRAIN has reported (R353). -/
def copyErrors (s : State) : Option (Fin 4 × BitVec 8 × Word) :=
  (List.finRange 4).findSome? fun k => s.st.copyErr[k.val].map fun e => (k, e.1, e.2)

/-- EXIT (R353). -/
def execExit (s : State) : Host.Outcome State Fault Refusal :=
  finish s (Act.on (do
    apply fun s => if s.st.priv then { s with st := { s.st with hold := [], holdAt := 0 } } else s
    drained
    if ((getCore s (curCore s)).commands.any fun m => decide (m.strand = s.cur.val)) || copyWritesOut s s.cur.val then throw .again
    match copyErrors s with
    | some (k, c, v) =>
      apply fun s => { s with st := { s.st with copyErr := s.st.copyErr.set k.val none } }
      trap c v
    | none =>
      if s.st.accum.flight ≠ [] then throw .again
      for (_, g) in memberships s do groupGuard g
      apply fun s => (List.finRange 4).foldl (fun s k => putStream s k {}) s
      leaveGroups
      apply endItem) s)

end Sys2Proof.Machine
end

