-- ==== Sys2Proof/Machine/PageCommands.lean ====
section
/-! DEFINITION. The page command unit (R180 to R187), the pin counts of pages (R184), and compressed regions (R188 to R190). -/

namespace Sys2Proof.Machine

/-! ## Entries and their pages -/

/-- Bytes of a page. -/
def pageBytes (large : Bool) : Nat := if large then 2 ^ 26 else 2 ^ 16

/-- Why the unit's walk finds no entry: there is none with V = 1 that maps a page of the size named, one on the way is malformed
(R174), or one cannot be read (R176). -/
inductive NoEntry
  | absent
  | malformed (pa : Nat)
  | unread (pa : Nat)
  deriving DecidableEq, Repr

/-- A word of a table with V = 1. -/
def tableWord (s : State) (pa : Nat) : Except NoEntry Nat :=
  if homeInReset s pa then .error .absent
  else if linePoisoned s (lineOf pa) then .error (.unread pa)
  else if entryBit (memNat s.mem pa 8) 63 then .ok (memNat s.mem pa 8)
  else .error .absent

/-- The unit's walk to the entry that maps a page of the size named, and where it lies; that entry's own form is not checked. -/
def pageWalk (s : State) (ctx : BitVec 12) (va : Nat) (large : Bool) : Except NoEntry (Nat × Nat) := do
  let at_ (table lvl : Nat) : Nat := table + 8 * levelIndex lvl va
  if linePoisoned s (descAddr s ctx) then throw (.unread (descAddr s ctx))
  if ! tablePlace (ctxRoot s ctx) 0x8000 then throw .absent
  let a0 := at_ (ctxRoot s ctx) 0
  let e0 ← tableWord s a0
  if ! pointerOk e0 then throw (.malformed a0)
  let a1 := at_ (entryNext e0) 1
  let e1 ← tableWord s a1
  if large then (if entryBit e1 62 then pure (a1, e1) else throw .absent)
  else if entryBit e1 62 then throw .absent
  else if ! pointerOk e1 then throw (.malformed a1)
  else
    let a2 := at_ (entryNext e1) 2
    pure (a2, ← tableWord s a2)

/-- The entry, where there is one. -/
def pageEntry (s : State) (ctx : BitVec 12) (va : Nat) (large : Bool) : Option (Nat × Nat) := (pageWalk s ctx va large).toOption

/-- The events of a command's walk that finds no entry: 0x14 at a malformed one, 0x17 at an uncorrectable error (R174, R372). -/
def walkEvents (s : State) (ctx : BitVec 12) (va : Nat) (large : Bool) : State :=
  match pageWalk s ctx va large with
  | .error (.malformed a) => postEvent s 0x14 1 ctx (ctx.zeroExtend 64) (w64 a)
  | .error (.unread a) => postEvent s 0x17 3 ctx 0 (w64 a)
  | _ => s

/-- First memory key of the page of an entry. -/
def entryBase (e : Nat) : Nat := if entryBit e 57 then Config.compBase + entryFrame e else entryFrame e

/-- A word of a page table is written by the device. -/
def putEntry (s : State) (pa e : Nat) : State := devWrite s pa (natToBytes 8 e)

/-! ## Pin counts (R184) -/

/-- What an action answers, with nothing done. -/
def peek {α : Type} (a : Act α) (s : State) : Option α :=
  match (Act.on a s).1 with
  | .ok v => some v
  | .error _ => none

/-- The pool pages of a context that hold UNC slots: pool handle and page, each once. -/
def uncPages (s : State) (ctx : BitVec 12) : List (Nat × Nat) :=
  let f := { vineDevice ctx with waits := false }
  ((List.range (ctxVtCount s ctx)).flatMap fun h =>
    match peek (readVine f h) s with
    | some d =>
      (List.range d.mapLen).filterMap fun p =>
        match peek (mapEntry f d p) s with
        | some e => if mapValid e ∧ e / 2 ^ 62 % 2 = 1 then some (d.pool, mapPage e) else none
        | none => none
    | none => []).eraseDups

/-- Vine pool pages with UNC slots inside [va, va + n) of a context. -/
def vinePins (s : State) (ctx : BitVec 12) (va n : Nat) : Nat :=
  (uncPages s ctx).countP fun g =>
    match peek (readPool { vineDevice ctx with waits := false } g.1) s with
    | some (some p) =>
      let a := (p.base + BitVec.ofNat 48 (g.2 * 16 * p.tokb)).toNat
      decide (a < va + n ∧ va < a + 16 * p.tokb)
    | _ => false

/-- A command of core k holds a translation of the page. -/
def Command.holds (m : Command) (ctx : BitVec 12) (vpage : Nat) : Bool := decide (m.ctx = ctx) && m.pages.any fun e => decide (e.vpage = vpage)

/-- Unfinished commands whose translation covers the page. -/
def boundCommands (s : State) (ctx : BitVec 12) (vpage : Nat) : Nat :=
  (s.cores.map fun k => k.2.commands.countP fun m => m.holds ctx vpage).sum

/-- Tags of the lines of [base, base + n). -/
def pageTags (s : State) (base n : Nat) : List L2Tag := s.lines.tags.filter fun t => decide (base ≤ t.line ∧ t.line < base + n)

/-- The exact pin count of a page. -/
def pinCount (s : State) (ctx : BitVec 12) (vpage : Nat) (large : Bool) (e : Nat) : Nat :=
  (pageTags s (entryBase e) (pageBytes large)).countP (fun t => t.pin.isSome) + vinePins s ctx vpage (pageBytes large) + boundCommands s ctx vpage

/-- A page whose PINS is n: it is among those that show some, or it is not. -/
def notePins (s : State) (ctx : BitVec 12) (vpage n : Nat) : State :=
  let rest := s.pinned.filter (· ≠ (ctx, vpage))
  { s with pinned := if n = 0 then rest else rest ++ [(ctx, vpage)] }

/-- PINS of one page shows its count, saturated at 15. -/
def refreshPage (s : State) (ctx : BitVec 12) (va : Nat) (large : Bool) : State :=
  match pageEntry s ctx va large with
  | none => s
  | some (pa, e) =>
    if ! entryBit e 62 then s
    else
      let vpage := va / pageBytes large * pageBytes large
      let n := min 15 (pinCount s ctx vpage large e)
      let s := notePins s ctx vpage n
      if e / 2 ^ 48 % 16 = n then s else putEntry s pa (e - e / 2 ^ 48 % 16 * 2 ^ 48 + n * 2 ^ 48)

/-- PINS of every page that is due. -/
def refreshPins (s : State) : State :=
  s.pinsDue.foldl (fun s p => refreshPage (refreshPage (notePins s p.1 p.2 0) p.1 p.2 false) p.1 p.2 true) { s with pinsDue := [] }

/-- The words of a table of n bytes in which something stands, by their index. -/
def tableWords (s : State) (table n : Nat) : List Nat :=
  ((s.mem.filter fun c => decide (table ≤ c.1 ∧ c.1 < table + n)).map fun c => (c.1 - table) / 8).eraseDups

/-- The pages of a context, from a table of level lvl on that maps addresses from va, whose lines include the one at pa. -/
def pagesAt (s : State) (pa : Nat) : Nat → Nat → Nat → Nat → List Nat
  | 0, _, _, _ => []
  | fuel + 1, lvl, table, va =>
    (tableWords s table (if lvl = 0 then 0x8000 else 0x2000)).flatMap fun i =>
      let e := memNat s.mem (table + 8 * i) 8
      let v := va + i * 2 ^ (36 - 10 * lvl)
      if ! entryBit e 63 then []
      else if ! entryBit e 62 then pagesAt s pa fuel (lvl + 1) (entryNext e) v
      else if entryBase e ≤ pa ∧ pa < entryBase e + pageBytes (decide (lvl = 1)) then [v] else []

/-- PINS of every page that holds a line is due: the line has been pinned or unpinned (R184). -/
def linePinsDue (s : State) (line : Nat) : State :=
  (s.lp.active.map (·.1)).foldl (fun s n =>
    let ctx : BitVec 12 := BitVec.ofNat 12 n
    (pagesAt s line 3 0 (ctxRoot s ctx) 0).foldl (fun s v => pinsDue s ctx v) s) s

/-! ## Lines of a page -/

/-- Every dirty line of the page is written back, as far as its log has room. -/
def cleanPage (s : State) (base n : Nat) : State :=
  ((pageTags s base n).filter (·.dirty.isSome)).foldl (fun s t => writeBack s t.line) s

/-- The page's lines leave the L2 and the RDCs. -/
def dropLines (s : State) (base n : Nat) : State := (pageTags s base n).foldl (fun s t => freeEntries (dropTag s t.line)) s

/-- The page's lines leave every L1. -/
def dropL1 (s : State) (base n : Nat) : State := modCores s fun k => { k with
  l1 := k.l1.filter fun l => ! (if l.size = 0 then decide (base ≤ l.addr ∧ l.addr < base + n) else gatherOverlaps l base n) }

/-- The owners of pins on the page's lines, each once, with their pins. -/
def pinOwners (s : State) (base n : Nat) : List (BitVec 12 × Nat) :=
  let os := (pageTags s base n).filterMap (·.pin)
  os.eraseDups.map fun c => (c, os.count c)

/-- The page's pins are removed, with event 0x13 for each owner (R183, R209). -/
def revokePins (s : State) (base n va : Nat) : State :=
  let s1 := allPinsDue <| (pageTags s base n).foldl (fun s t => putTag s { t with pin := none }) s
  (pinOwners s base n).foldl (fun s o => postEvent s 0x13 0 o.1 (w64 o.2) (w64 va)) s1

/-! ## Commands (R181 to R185) -/

/-- PGSTAT. -/
def pgStat (s : State) : Word :=
  w64 (s.pages.reason.toNat * 2 ^ 8 + (if s.pages.move.isSome then 4 else 0) + s.pages.stat.toNat)

/-- A command completes: done, or refused with a reason. -/
def pageDone (s : State) (ctx : BitVec 12) (reason : BitVec 8) : State :=
  let s := { s with pages := { s.pages with reason, stat := if reason = 0 then 2 else 3, pend := none } }
  postEvent s 0x12 reason ctx (pgStat s) s.pages.pgva

/-- Cached translations of a page are dropped (R182). -/
def shootRange (s : State) (ctx : BitVec 12) (vpage n : Nat) : State :=
  shootdown s ctx fun e => decide (e.vpage < vpage + n ∧ vpage < e.vpage + e.size)

/-- Accesses of a context translated through entries that `hit` names, its reads at a host or peer and writes at a peer at addresses
that `at_` names, and its writes at the host, have not all performed at `.sy` (R182): copies and tile transfers hold their translations (R165, R342). -/
def usesOld (s : State) (ctx : BitVec 12) (hit : TlbEntry → Bool) (at_ : Nat → Bool) : Bool :=
  (s.cores.any fun k => k.2.commands.any fun m => decide (m.ctx = ctx) && m.pages.any hit)
    || decide (strandsWhere s (fun t => decide (t.ctx = ctx) && t.accum.flight.any fun f => f.pages.any hit) ≠ [])
    || ((peerMsgs s).any fun m => decide (m.ctx = ctx) && at_ m.va.toNat)
    || (s.links.hostLate.any fun p => decide ((getStrand s p.1).ctx = ctx))
    || s.links.hostReads.any fun r => decide (r.ctx = ctx) && at_ r.va.toNat

/-- Accesses translated through a page's old entry have not all performed. -/
def pageInUse (s : State) (ctx : BitVec 12) (vpage n : Nat) : Bool :=
  usesOld s ctx (fun e => decide (vpage ≤ e.vpage ∧ e.vpage < vpage + n)) fun a => decide (vpage ≤ a ∧ a < vpage + n)

/-- Accesses translated through the entry that a MOVE found have not all performed: what is translated since sees MOVE = 1 (R185). -/
def moveInUse (s : State) (ctx : BitVec 12) (vpage n : Nat) : Bool :=
  usesOld s ctx (fun e => ! e.moving && decide (vpage ≤ e.vpage ∧ e.vpage < vpage + n)) fun _ => false

/-- The command that waits goes on as far as it can. -/
def pageGo (s : State) : State :=
  match s.pages.pend with
  | none => s
  | some p =>
    let n := pageBytes p.large
    let flush (s : State) : Option State :=
      let s := cleanPage s p.base n
      if (pageTags s p.base n).any (·.dirty.isSome) then none else some (dropLines (revokePins s p.base n p.vpage) p.base n)
    if p.op = 3 then
      if moveInUse s p.ctx p.vpage n then s
      else
        let m : Move := { ctx := p.ctx, vpage := p.vpage, large := p.large, entry := p.entry, word := p.word, src := entryFrame p.word, dst := p.base }
        pageDone { s with pages := { s.pages with move := some m } } p.ctx 0
    else if p.op = 1 then
      if p.done then (if pageInUse s p.ctx p.vpage n then s else pageDone s p.ctx 0)
      else
        match flush s with
        | none => cleanPage s p.base n
        | some s =>
          let s := shootRange (putEntry s p.entry p.word) p.ctx p.vpage n
          if pageInUse s p.ctx p.vpage n then { s with pages := { s.pages with pend := some { p with done := true } } } else pageDone s p.ctx 0
    else if pageInUse s p.ctx p.vpage n then s
    else
      match flush s with
      | none => cleanPage s p.base n
      | some s => pageDone (dropL1 s p.base n) p.ctx 0

/-- The unit is busy with a command. -/
def pageWaits (s : State) (p : PageCmd) : State := pageGo { s with pages := { s.pages with stat := 1, reason := 0, pend := some p } }

/-- The entry that UPDATE leaves: the RW fields of ARG, the rest kept. -/
def updatedEntry (e arg : Nat) : Nat :=
  let keep := e / 2 ^ 48 % 2 ^ 7 * 2 ^ 48 + e % 2 ^ 16
  arg / 2 ^ 55 % 2 ^ 9 * 2 ^ 55 + arg / 2 ^ 16 % 2 ^ 32 * 2 ^ 16 + keep

/-- UPDATE of a page. -/
def updatePage (s : State) (ctx : BitVec 12) (vpage : Nat) (large : Bool) : State :=
  let n := pageBytes large
  match pageEntry s ctx vpage large with
  | none => pageDone (walkEvents s ctx vpage large) ctx 2
  | some (pa, e) =>
    let new := updatedEntry e s.pages.pgarg.toNat
    if entryMove e = 1 then pageDone s ctx 4
    else if ! (entryBit new 63 && pageOk s new n) then pageDone s ctx 3
    else if entryFrame new ≠ entryFrame e ∨ entryTier new ≠ entryTier e ∨ entryBit new 57 ≠ entryBit e 57 then pageDone s ctx 6
    else
      let p : PageCmd := { op := 1, ctx, vpage, large, base := entryBase e, entry := pa, word := new, done := false }
      if entryBit new 58 = entryBit e 58 then pageWaits (shootRange (putEntry s pa new) ctx vpage n) { p with done := true } else pageWaits s p

/-- UNMAP of a page. -/
def unmapPage (s : State) (ctx : BitVec 12) (vpage : Nat) (large : Bool) : State :=
  match pageEntry s ctx vpage large with
  | none => pageDone (walkEvents s ctx vpage large) ctx 2
  | some (pa, e) =>
    if entryMove e = 1 then pageDone s ctx 4
    else
      let s := shootRange (putEntry s pa (e - 2 ^ 63)) ctx vpage (pageBytes large)
      pageWaits s { op := 2, ctx, vpage, large, base := entryBase e, entry := pa, word := e - 2 ^ 63, done := true }

/-- MOVE's destination is not one (REASON 5). -/
def badDestination (e dst n : Nat) : Bool := decide (dst % n ≠ 0 ∨ dst = entryFrame e) || ! (inTier 0 dst n || inTier 1 dst n)

/-- MOVE of a page. -/
def movePage (s : State) (ctx : BitVec 12) (vpage : Nat) (large : Bool) : State :=
  let n := pageBytes large
  let dst := bits s.pages.pgarg 16 32 * 2 ^ 16
  if s.pages.move.isSome then pageDone s ctx 4
  else
    match pageEntry s ctx vpage large with
    | none => pageDone (walkEvents s ctx vpage large) ctx 2
    | some (pa, e) =>
      if entryMove e = 1 then pageDone s ctx 4
      else if entryBit e 57 ∨ 2 ≤ entryTier e then pageDone s ctx 6
      else if badDestination e dst n then pageDone s ctx 5
      else if pinCount s ctx vpage large e ≠ 0 then pageDone s ctx 1
      else
        let s := shootRange (putEntry s pa (e - entryMove e * 2 ^ 53 + 2 ^ 53)) ctx vpage n
        pageWaits s { op := 3, ctx, vpage, large, base := dst, entry := pa, word := e, done := true }

/-- A command names the page that moves. -/
def namesMoving (s : State) (ctx : BitVec 12) (vpage n : Nat) : Bool :=
  match s.pages.move with
  | some m => decide (m.ctx = ctx ∧ vpage < m.vpage + pageBytes m.large ∧ m.vpage < vpage + n)
  | none => false

/-- A write to PGCMD: ignored while STATE is busy. -/
def pgcmd (v : Word) (s : State) : State :=
  let ctx : BitVec 12 := BitVec.ofNat 12 v.toNat
  let large := v.getLsbD 16
  let n := pageBytes large
  let vpage := s.pages.pgva.toNat / n * n
  let op := bits v 12 4
  if s.pages.stat = 1 then s
  else
  let s := descCheck s ctx
  if op = 0 ∨ 3 < op then pageDone s ctx 7
  else if namesMoving s ctx vpage n then pageDone s ctx 4
  else if op = 1 then updatePage s ctx vpage large
  else if op = 2 then unmapPage s ctx vpage large
  else movePage s ctx vpage large

/-- PAGE_UPDATE, PAGE_UNMAP, PAGE_MOVE and PGCMD_BAD_OP: a write to PGCMD with that OP. -/
def execPageUpdate (v : Word) (s : State) : Host.Outcome State Fault Refusal := .next (byHost 0x4008 (pgcmd (setBits v 12 4 1)) s)
def execPageUnmap (v : Word) (s : State) : Host.Outcome State Fault Refusal := .next (byHost 0x4008 (pgcmd (setBits v 12 4 2)) s)
def execPageMove (v : Word) (s : State) : Host.Outcome State Fault Refusal := .next (byHost 0x4008 (pgcmd (setBits v 12 4 3)) s)
def execPgcmdBadOp (v : Word) (s : State) : Host.Outcome State Fault Refusal :=
  .next (if 1 ≤ bits v 12 4 ∧ bits v 12 4 ≤ 3 then s else byHost 0x4008 (pgcmd v) s)

/-! ## The copy of a MOVE (R185, R186) -/

/-- The content of [src, src + n) stands at dst, its poison too; the strands that watch a word of either wake, and look again at
dst (R186, R104). -/
def copyFrame (s : State) (src dst n : Nat) : State :=
  let inside (b a : Nat) : Bool := decide (b ≤ a ∧ a < b + n)
  let mem := (s.mem.filter fun c => inside src c.1).foldl (fun m c => sset unlisted m (c.1 - src + dst) c.2) (s.mem.filter fun c => ! inside dst c.1)
  let bad := (s.poison.filter fun w => inside src (4 * w)).foldl (fun p w => insertNat ((4 * w - src + dst) / 4) p) (s.poison.filter fun w => ! inside dst (4 * w))
  ((s.watches.map (·.1)).filter fun a => inside dst a || inside src a).foldl wakeLine { s with mem, poison := bad }

/-- The entry of a page that moves, at its destination. -/
def movedEntry (m : Move) : Nat :=
  let e := m.word
  let e := e - entryFrame e - entryTier e * 2 ^ 55 - entryMove e * 2 ^ 53
  e + m.dst + (if inTier 0 m.dst (pageBytes m.large) then 0 else 2 ^ 55)

/-- A translation of the page that has moved. -/
def movedTlb (m : Move) : TlbEntry := tlbOf m.ctx m.vpage { pa := m.entry, entry := movedEntry m, large := m.large }

/-- The copy ends, with the final shootdown: copies translate the page anew, and tile transfers go on at its destination (R186). -/
def moveEnds (s : State) : State :=
  match s.pages.move with
  | none => s
  | some m =>
    let n := pageBytes m.large
    let s := dropLines (cleanPage s m.src n) m.dst n
    let s := copyFrame s m.src m.dst n
    let s := shootRange (putEntry s m.entry (movedEntry m)) m.ctx m.vpage n
    let s := modCores s fun k => { k with commands := k.commands.map fun x =>
      if x.ctx = m.ctx then { x with pages := x.pages.filter fun e => e.vpage ≠ m.vpage } else x }
    let here (e : TlbEntry) : TlbEntry := if e.ctx = m.ctx ∧ e.vpage = m.vpage then movedTlb m else e
    let s := modStrandsWhere s (fun t => ! t.accum.flight.isEmpty) fun t =>
      { t with accum := { t.accum with flight := t.accum.flight.map fun f => { f with pages := f.pages.map here } } }
    let s := dropL1 (dropLines s m.src n) m.src n
    let s := postEvent { s with pages := { s.pages with move := none } } 0x19 0 m.ctx (m.ctx.zeroExtend 64) (w64 m.vpage)
    wakeKey (pinsDue s m.ctx m.vpage) .held

/-- MOVE_COMPLETE. -/
def execMoveComplete (s : State) : Host.Outcome State Fault Refusal := .next (moveEnds s)

/-! ## Compressed regions (Table 11.6) -/

/-- Held writes to the region proceed (R190). -/
def regionFreed (s : State) (p : Nat) : State :=
  let r := getRegion s p
  if r.full then wakeKey (setRegion s p { r with full := false }) .held else s

/-- A write to CLSEGS: while the region is in use it may only rise, and its new segments are free. -/
def writeClsegs (s : State) (p : Nat) (v : Word) : State :=
  let r := getRegion s p
  let n := bits v 0 32
  let old := r.clsegs.toNat
  if ! regionOn r then setRegion s p { r with clsegs := w64 n }
  else if n ≤ old then s
  else
    let free := r.free ++ ((List.range (n - old)).map (old + ·)).filter (· ≠ r.head / headUnit)
    regionFreed (setRegion s p (logCounts { r with clsegs := w64 n, free })) p

/-- A write to CLCTL: a region that comes into use starts with an empty log. -/
def writeClctl (s : State) (p : Nat) (v : Word) : State :=
  let r := getRegion s p
  let ctl := w64 (bits v 8 1 * 2 ^ 8 + bits v 0 4)
  if v.getLsbD 8 ∧ ! regionOn r then
    setRegion s p (logCounts { r with clctl := ctl, head := 0, live := [], free := (List.range r.clsegs.toNat).tail, full := false })
  else setRegion s p { r with clctl := ctl }

/-- A write to a register of a region, by its offset. R188 has the host write CLBASE, CLMAP and CLBLKS only while ENABLE is 0 and gives
no outcome otherwise: the layout of a region in use stays (log 68). -/
def writeRegionReg (s : State) (p off : Nat) (v : Word) : State :=
  let r := getRegion s p
  let idle := ! regionOn r
  match off with
  | 0x00 => if idle then setRegion s p { r with clbase := w64 (bits v 22 26 * 2 ^ 22) } else s
  | 0x08 => writeClsegs s p v
  | 0x10 => if idle then setRegion s p { r with clmap := w64 (bits v 3 45 * 8) } else s
  | 0x18 => if idle then setRegion s p { r with clblks := w64 (bits v 0 32) } else s
  | 0x20 => writeClctl s p v
  | _ => s

/-- What a register of a region reads as. -/
def readRegionReg (r : Region) (off : Nat) : Word :=
  match off with
  | 0x00 => r.clbase
  | 0x08 => r.clsegs
  | 0x10 => r.clmap
  | 0x18 => r.clblks
  | 0x20 => r.clctl
  | 0x28 => w64 (bits r.clfree 0 32)
  | 0x30 => r.cllive
  | _ => 0

/-- CLSEGS_WRITE. -/
def execClsegsWrite (p : Fin 8) (v : Word) (s : State) : Host.Outcome State Fault Refusal := .next (byHost (0x5008 + 0x40 * p.val) (writeClsegs · p.val v) s)

/-- The segment of a block map entry. -/
def entrySegment (r : Region) (e : Nat) : Nat := (e % 2 ^ 48 - r.clbase.toNat) / 2 ^ 22

/-- The segment the collector takes: not the head, not free, with the lowest live ratio, below the threshold; among equals the lowest,
which R190 leaves open (log 91). -/
def collected (r : Region) : Option Nat :=
  let fit := (List.range r.clsegs.toNat).filter fun g =>
    g ≠ r.head / headUnit ∧ ! r.free.contains g ∧ sget 0 r.live g * 16 < bits r.clctl 0 4 * segSectors
  fit.foldl (fun b g => match b with | some h => if sget 0 r.live g < sget 0 r.live h then some g else some h | none => some g) none

/-- A live block of a segment moves to the head of the log. -/
def collectBlock (s : State) (p g b : Nat) : State :=
  let r := getRegion s p
  let a := r.clmap.toNat + 8 * b
  let e := memNat s.mem a 8
  if e / 2 ^ 63 % 2 = 1 ∧ entrySegment r e = g then
    let n := e / 2 ^ 56 % 16 + 1
    let (sec, r) := logAppend (logDrop r e) n
    setRegion { s with mem := memWrite s.mem a (natToBytes 8 (2 ^ 63 + (n - 1) * 2 ^ 56 + sec)) } p r
  else s

/-- The collector frees one segment (R190). -/
def collect1 (s : State) (p : Nat) : State :=
  let r := getRegion s p
  if ! regionOn r then s
  else
    match collected r with
    | none => s
    | some g =>
      if r.free = [] ∧ segSectors < r.head % headUnit + sget 0 r.live g then s
      else
        let s := (List.range (bits r.clblks 0 32)).foldl (fun s b => collectBlock s p g b) s
        let r := getRegion s p
        regionFreed (setRegion s p (logCounts { r with live := sset 0 r.live g 0, free := r.free ++ [g] })) p

/-- COLLECTOR_RUN. -/
def execCollectorRun (p : Fin 8) (s : State) : Host.Outcome State Fault Refusal := .next (collect1 s p.val)

/-! ## The end of a step -/

/-- What the page command unit does at the end of every step: a waiting command goes on, and PINS is brought up to date. -/
def pagesSettle (s : State) : State := refreshPins (pageGo s)

end Sys2Proof.Machine
end

