-- ==== Sys2Proof/Machine/Atomics.lean ====
section
/-! DEFINITION. AMO, CAS, FENCE and SBAR (R311 to R314), and the operations a line's home performs for the requests that reach
it (R194 to R210, R371). -/

namespace Sys2Proof.Machine

/-! ## AMO and CAS (R312, R313, R229) -/

/-- The bitwise and integer new values of Table 18.3 on n bits. -/
def amoInt (p : AmoOp) (n old v : Nat) : Nat :=
  match p with
  | .add => (old + v) % 2 ^ n
  | .and => old &&& v
  | .or => old ||| v
  | .xor => old ^^^ v
  | .min => if signed n v < signed n old then v else old
  | .max => if signed n old < signed n v then v else old
  | .minn => min old v
  | .maxn => max old v
  | _ => v

/-- The floating-point format of n bytes. -/
def amoFmt (n : Nat) : FloatFmt := if n = 4 then fmtF32 else fmtF64

/-- The new value of an AMO on n bytes, and its flags. -/
def amoNew (p : AmoOp) (n old v : Nat) : Nat × Flags :=
  let f := amoFmt n
  let a := decodeFloat f old
  let b := decodeFloat f v
  let put (r : Num × Flags) : Nat × Flags := let e := encodeFloat f .ne r.1; (e.1, r.2 ||| e.2)
  match p with
  | .fadd => put (addNum false a b)
  | .fmin => put (minMaxNum false a b)
  | .fmax => put (minMaxNum true a b)
  | _ => (amoInt p (8 * n) old v, 0)

/-- x[d] of an AMO on n bytes: sign-extended, or zero-extended as Table 18.3 states. -/
def amoOld (p : AmoOp) (n old : Nat) : Word :=
  match p with
  | .minn | .maxn | .fadd | .fmin | .fmax => w64 old
  | _ => BitVec.ofInt 64 (signed (8 * n) old)

/-- Bytes of an AMO. -/
def amoBytes (dbl : Bool) : Nat := if dbl then 8 else 4

/-- The page of an atomic of stream `a`: mapped readable and writable, and no MMIO page (R175). -/
def atomicPage (va : VAddr) : Act TlbEntry := do
  let e ← translate .both va
  if e.tier = 3 then trap 0x05 (vaWord va)
  pure e

/-- AMO. -/
def execAmo (p : AmoOp) (dbl : Bool) (o : Ord) (d a b : XReg) (s : State) : Host.Outcome State Fault Refusal :=
  scalar 4 (do
    let n := amoBytes dbl
    let va := vaOf (s.readX a)
    aligned va n
    releaseOrd o
    let e ← atomicPage va
    let v := (s.readX b).toNat % 2 ^ (8 * n)
    let old ← atomicAt e va (e.key va.toNat) n fun bs => some (natToBytes n (amoNew p n (bytesToNat bs) v).1)
    acquireOrd o
    apply fun s => (s.raise (amoNew p n (bytesToNat old) v).2).writeX d (amoOld p n (bytesToNat old))) s

/-- CAS. -/
def execCas (dbl : Bool) (o : Ord) (d a b : XReg) (s : State) : Host.Outcome State Fault Refusal :=
  scalar 4 (do
    let n := amoBytes dbl
    let va := vaOf (s.readX a)
    aligned va n
    releaseOrd o
    let e ← atomicPage va
    let want := (s.readX d).toNat % 2 ^ (8 * n)
    let old ← atomicAt e va (e.key va.toNat) n fun bs =>
      if bytesToNat bs = want then some (natToBytes n (s.readX b).toNat) else none
    acquireOrd o
    apply fun s => s.writeX d (amoOld .swap n (bytesToNat old))) s

/-! ## FENCE and SBAR (R314, R215) -/

/-- FENCE: every form waits until the VIQ is empty (R217). -/
def execFence (t : OrdFlag) (c : Scope) (s : State) : Host.Outcome State Fault Refusal :=
  scalar 4 (do
    drained
    if t = .rel ∨ t = .ar then release c
    if t = .acq ∨ t = .ar then acquire c) s

/-- The stream `g0` to `g3` a vector-queue instruction issues its accesses on (Table 13.1). -/
def laneOf (i : Instr) : Option Lane4 :=
  match i with
  | .vld _ g _ _ | .vldStrided _ g _ _ _ | .vldseg _ _ g _ _ _ | .vwait _ _ _ g _ _ _ | .vst _ g _ _ | .vstStrided _ g _ _ _
  | .vstseg _ _ g _ _ _ | .vldx _ g _ _ _ | .vstxU _ g _ _ _ | .vstxO _ g _ _ _ | .vscadd _ g _ _ _ | .vamo _ _ _ _ g _ _ _
  | .vsqres _ g _ _ | .vsqst _ g _ _ _ | .vsqstX _ g _ _ _ | .vsqcmt _ _ g _ _ | .vsqld _ g _ _ _ | .vsqldX _ g _ _ _ => some g
  | .dupd _ _ _ => some 0
  | _ => none

/-- SBAR: it waits for the accesses of the VIQ on its leading streams, and with `a` for writes at peers; the accesses of stream
`a` are applied when their instruction completes. An empty set is illegal. -/
def execSbar (lead held : BitVec 5) (s : State) : Host.Outcome State Fault Refusal :=
  scalar 4 (do
    if lead = 0 ∨ held = 0 then illegal (.sbar lead held)
    awaitEntries fun e => match laneOf e.instr with
      | some g => lead.getLsbD (1 + g.val)
      | none => false
    if lead.getLsbD 0 && remoteWritesOut (← get) then throw .again) s

/-! ## Requests at the home (Tables 12.3 and 12.4) -/

/-- The memory key a request header's BASE names (Table 12.3). -/
def Header.key (h : Header) : Nat := if h.comp then Config.compBase + h.base.toNat else h.base.toNat

/-- Bytes of an element of a request. -/
def Header.bytes (h : Header) : Nat := 2 ^ h.size.val
/-- Memory key of element k. -/
def Header.elem (h : Header) (k : Nat) : Nat := ((Header.key h : Int) + k * h.stride.toInt).toNat
/-- The elements of a request. -/
def Header.elems (h : Header) : List Nat := (List.range h.count.val).map (Header.elem h)

/-- A page that moves holds writes to its source frame (R186). -/
def frameMoving (s : State) (pa : Nat) : Bool :=
  match s.pages.move with
  | some m => decide (m.src ≤ pa ∧ pa < m.src + pageBytes m.large)
  | none => false

/-- A write at the home is held: by a move, a full log or its slice (R186, R190, R204). -/
def homeHeld (s : State) (pa : Nat) : Bool :=
  frameMoving s pa || (decide (Config.compBase ≤ pa) && (getRegion s ((pa - Config.compBase) / 2 ^ 45 % 8)).full) || (isLine pa && writeHeld s (lineOf pa))

/-- All elements of a request lie in lines whose home answers, unpoisoned. -/
def Header.readable (s : State) (h : Header) : Bool :=
  (Header.elems h).all fun a => isLine a && ! homeInReset s a && ! poisonedAt s a (Header.bytes h) && ! rdcPoisoned s h.die (lineOf a)

/-- The device core of a request (R11). -/
def Header.devCore (h : Header) : Nat := 256 * h.die.val + h.core.val

/-- A slice's replies to a request: the elements k, each tagged by the header's TAG and its index, or whole lines (R196). -/
def sendReplies (s : State) (h : Header) (l : List (Nat × Option Nat × List Byte)) : State :=
  { s with lines := { s.lines with
    replies := s.lines.replies ++ l.map fun r => { core := Header.devCore h, unit := h.unit, tag := h.tag, index := r.1, line := r.2.1, data := r.2.2 } } }

/-- The elements of a request as replies. -/
def elemReplies (s : State) (h : Header) : List (Nat × Option Nat × List Byte) :=
  (List.range h.count.val).map fun k => (k, none, memRead s.mem (Header.elem h k) (Header.bytes h))

/-- READ: the elements, without a fill of L1; nothing for elements that are out of reach or in error. -/
def execRead (h : Header) (s : State) : Host.Outcome State Fault Refusal :=
  .next (if Header.readable s h then
    let s := (Header.elems h).foldl (fun s a => homeRead s (lineOf a) h.die h.dedup h.domain) s
    let l := elemReplies s h
    answer (sendReplies s h l) (l.flatMap fun r => r.2.2)
  else answer s [])

/-- The elements of a write, each with its bytes; one that spans two lines in two pieces. -/
def writePieces (n : Nat) : List Nat → List Byte → List (Nat × List Byte)
  | [], _ => []
  | a :: t, bs =>
    let k := min n (128 - a % 128)
    (a, bs.take k) :: (if k = n then [] else [(a + k, (bs.take n).drop k)]) ++ writePieces n t (bs.drop n)

/-- Pieces are written at their homes, each line in one write (R202, R210). -/
def writeLines (s : State) (h : Header) (ps : List (Nat × List Byte)) : State :=
  (ps.map fun p => lineOf p.1).eraseDups.foldl (fun s l =>
    homePatch s l ((ps.filter fun p => lineOf p.1 = l).map fun p => (p.1 % 128, p.2)) h.dedup h.domain) s

/-- A request whose write a slice holds: the slice reports it (R204). -/
def holdReported (s : State) (es : List Nat) : State := es.foldl reportStuck s

/-- WRITE: a held or unreachable write is not performed. -/
def execWrite (h : Header) (data : List Byte) (s : State) : Host.Outcome State Fault Refusal :=
  let es := Header.elems h
  if data.length ≠ es.length * Header.bytes h ∨ ! (es.all fun a => isLine a && ! homeInReset s a) then .next s
  else if es.any (homeHeld s) then .next (holdReported s es)
  else .next (writeLines s h (writePieces (Header.bytes h) es data))

/-- Old values as replies, element by element (R196). -/
def oldReplies (n : Nat) (bs : List Byte) : List (Nat × Option Nat × List Byte) :=
  (List.range (bs.length / n)).map fun k => (k, none, (bs.drop (n * k)).take n)

/-- The answer to an atomic request: the old values of its elements, n bytes each, tagged as replies. -/
def answerOld (s : State) (h : Header) (n : Nat) (bs : List Byte) : State := answer (sendReplies s h (oldReplies n bs)) bs

/-- ATOMIC: the old value is answered; a location in error is not written (R228). -/
def execAtomic (h : Header) (op : AmoOp) (v : Word) (s : State) : Host.Outcome State Fault Refusal :=
  let a := Header.key h
  let n := Header.bytes h
  if ! isLine a || homeInReset s a || decide (n < 4) || decide (a % n ≠ 0) then .next s
  else if homeHeld s a then .next (holdReported s [a])
  else
    let s := homeFill s (lineOf a) h.dedup h.domain
    if poisonedAt s a n then .next (answer s [])
    else
      let old := memRead s.mem a n
      let new := (amoNew op n (bytesToNat old) (v.toNat % 2 ^ (8 * n))).1
      .next (answerOld (writeFilled s a (natToBytes n new)) h n old)

/-- The elements of a VATOM, in ascending order, their line looked up: the old value that each sees. -/
def vatomElems (h : Header) (t : Elem) (op : VamoOp) : List Nat → List Word → List Byte → State → List Byte × State
  | [], _, out, s => (out, s)
  | a :: es, vs, out, s =>
    let n := Header.bytes h
    let old := memNat s.mem a n
    let new := (vamoNew t op old ((vs.headD 0).toNat % 2 ^ (8 * n))).1
    let s := if poisonedAt s a n then s else writeFilled s a (natToBytes n new)
    vatomElems h t op es vs.tail (out ++ natToBytes n old) s

/-- VATOM: the merged elements of one line, each atomic. -/
def execVatom (h : Header) (op : VamoOp) (t : BitVec 6) (data : List Word) (s : State) : Host.Outcome State Fault Refusal :=
  let es := Header.elems h
  match elemOf t with
  | none => .next s
  | some e =>
    if e.bytes ≠ Header.bytes h ∨ ! (es.all fun a => isLine a && ! homeInReset s a) then .next s
    else if es.any (homeHeld s) then .next (holdReported s es)
    else
      let s := (es.map lineOf).eraseDups.foldl (fun s l => homeFill s l h.dedup h.domain) s
      let (old, s) := vatomElems h e op es data [] s
      .next (answerOld s h e.bytes old)

/-- BARRIER: one barrier operation at the home of its object (R103, R105). An object out of reach, in error or invalid is
left as it is. -/
def execBarrier (h : Header) (r : BarrierReq) (s : State) : Host.Outcome State Fault Refusal :=
  let pa := Header.key h
  if homeInReset s pa || ! isLine pa || decide (pa % 16 ≠ 0) then .next s
  else if homeHeld s pa then .next (holdReported s [pa])
  else
    match r with
    | .signal n => .next (signalHome s pa n.toNat h.dedup h.domain).2
    | r =>
      let s := homeFill s (lineOf pa) h.dedup h.domain
      let o := barOf (memRead s.mem pa 16)
      let gen (s : State) : State := answerOld s h 4 (natToBytes 4 o.gen)
      let touched : State := prepareWrite s (lineOf pa)
      if poisonedAt s pa 16 then .next s
      else
        match r with
        | .init t ns => .next (if t = 0 then s else quietly (lineOf pa) (fun s => writeFilled s pa (o.start t.toNat ns).bytes) s)
        | .arrive n => .next (if o.valid then gen (if n = 0 then touched else writeFilled s pa (o.arrive n).bytes) else s)
        | _ => .next (if o.valid then gen touched else s)

/-! ## CACHEOP at the home (R209) -/

/-- Pinned tags of the slice of a line. -/
def slicePins (s : State) (a : Nat) : Nat :=
  s.lines.tags.countP fun t => t.pin.isSome ∧ homeSlice s t.line = homeSlice s a ∧ homeDie s t.line = homeDie s a

/-- A pin for a context, with its result code of Table 20.4: 0 pinned, 1 pinned by another context, 2 at the limit. A
refused pin changes no pin; the line is filled first (R209). -/
def pinLine (s : State) (a : Nat) (ctx : BitVec 12) (dedup : Bool) (dom : BitVec 8) : Nat × State :=
  let s := homeFill s a dedup dom
  match findTag s a with
  | none => (2, s)
  | some t =>
    match t.pin with
    | some c => (if c = ctx then 0 else 1, s)
    | none => if Config.pinLimit ≤ slicePins s a then (2, s) else (0, putTag s { t with pin := some ctx })

/-- An unpin by a context: 0 removed, 4 not pinned by it. -/
def unpinLine (s : State) (a : Nat) (ctx : BitVec 12) : Nat × State :=
  match findTag s a with
  | some t => if t.pin = some ctx then (0, putTag s { t with pin := none }) else (4, s)
  | none => (4, s)

/-- The line has a content that memory does not hold. -/
def isDirty (s : State) (a : Nat) : Bool :=
  match findTag s a with
  | some t => t.dirty.isSome
  | none => false

/-- A CACHEOP at the home, with its code of Table 20.4; no code where the write-back does not fit in the log of its
region (R190). -/
def cacheAtHome (s : State) (a : Nat) (r : CacheReq) (ctx : BitVec 12) (d : Fin 4) (dedup : Bool) (dom : BitVec 8) :
    Option Nat × State :=
  match r with
  | .prefetch => (some 0, homeRead s a d dedup dom)
  | .pin => let (c, s) := pinLine s a ctx dedup dom; (some c, s)
  | .unpin => let (c, s) := unpinLine s a ctx; (some c, s)
  | .flush => let s := writeBack s a; (if isDirty s a then none else some 0, s)
  | .invalidate =>
    match findTag s a with
    | none => (some 0, s)
    | some t =>
      if t.pin.isSome then (some 3, s)
      else let s := evictLine s a; (if (findTag s a).isSome then none else some 0, s)

/-- CACHEOP at a home: the answer is its code. -/
def execCacheop (h : Header) (ctx : BitVec 12) (r : CacheReq) (s : State) : Host.Outcome State Fault Refusal :=
  let a := lineOf (Header.key h)
  if ! isLine a || homeInReset s a then .next s
  else
    match cacheAtHome s a r ctx h.die h.dedup h.domain with
    | (none, s) => .next s
    | (some c, s) => .next (answer (linePinsDue s a) [BitVec.ofNat 8 c])

/-! ## Watches, fills and replies -/

/-- WATCH: strand n registers at the line. -/
def execWatch (h : Header) (n : Fin 4096) (s : State) : Host.Outcome State Fault Refusal :=
  let a := lineOf (Header.key h)
  .next (if isLine a ∧ ! homeInReset s a then { s with watches := s.watches ++ [(a, n.val)] } else s)

/-- FILL: whole lines, each in its compressed wire class (R208); nothing for lines out of reach or in error. -/
def execFill (h : Header) (s : State) : Host.Outcome State Fault Refusal :=
  let ls := (List.range h.count.val).map fun k => lineOf (Header.key h) + 128 * k
  .next (if ls.all fun a => isLine a && ! homeInReset s a && ! poisonedAt s a 128 && ! rdcPoisoned s h.die a then
    let s := ls.foldl (fun s a => countWire (homeRead s a h.die h.dedup h.domain) h.die a) s
    let l := ls.zipIdx.map fun a => (a.2, some a.1, lineData s a.1)
    answer (sendReplies s h l) (l.flatMap fun r => r.2.2)
  else answer s [])

/-- GFILL: the elements of a gathered line. -/
def execGfill (h : Header) (s : State) : Host.Outcome State Fault Refusal := execRead h s

/-- HELD_WRITE_PROCEED: episodes that are over end, and the strands of held writes try again (R204). -/
def execHeldWriteProceed (s : State) : Host.Outcome State Fault Refusal := .next (wakeKey (endHolds s) .held)

/-- RDC_INVALIDATE: the die's copy of a line goes. -/
def execRdcInvalidate (die : Fin 4) (line : Nat) (s : State) : Host.Outcome State Fault Refusal :=
  .next { s with lines := { s.lines with rdc := s.lines.rdc.filter fun r => ! (r.1 = die ∧ r.2 = lineOf line) } }

/-- The reply that reaches a core: one on its way to it, of those data, of that line if it carries one. -/
def Reply.meets (r : Reply) (core line : Nat) (data : List Byte) : Bool :=
  decide (r.core = core ∧ r.data = data) && (match r.line with | some a => decide (a = line) | none => true)

/-- REPLY: a reply that a slice has sent reaches its core, in any order (R196). A whole line is allocated in the L1, which never
holds scratchpad or MMIO (R197); an element goes to its unit. -/
def execReply (core : Fin 1024) (line : Nat) (data : List Byte) (s : State) : Host.Outcome State Fault Refusal :=
  let a := lineOf line
  .next (match s.lines.replies.find? (·.meets core.val a data) with
    | none => s
    | some r =>
      let s := { s with lines := { s.lines with replies := s.lines.replies.erase r } }
      if r.line.isSome ∧ isLine a ∧ data.length = 128 then
        let s := modCore s core.val fun k => { k with l1 := k.l1.filter fun l => ! (l.size = 0 ∧ l.addr = a) }
        allocL1 s core.val { addr := a, data := data }
      else s)

/-! ## The slices' own work -/

/-- CLEANER_WRITEBACK: a DIRTY line is written back and kept (R202). -/
def execCleanerWriteback (line : Nat) (s : State) : Host.Outcome State Fault Refusal := .next (writeBack s (lineOf line))

/-- PATROL_SCRUB: a correctable error is corrected and the line rewritten as it is; an uncorrectable one leaves its poison (R371). -/
def execPatrolScrub (_line : Nat) (s : State) : Host.Outcome State Fault Refusal := .next s

/-- TAGS and ENTRIES of a die (Table 12.7). -/
def dieSample (s : State) (d : Fin 4) : Word :=
  w64 (s.lines.tags.countP (fun t => homeDie s t.line = d) * 2 ^ 32 + s.lines.vat.countP fun e => e.2.die = d)

/-- DEDUP_SAMPLE (R210). -/
def execDedupSample (die : Fin 4) (s : State) : Host.Outcome State Fault Refusal :=
  .next { s with lines := { s.lines with sample := sset 0 s.lines.sample die.val (dieSample s die) } }

/-- The strand for which a key is walked: that of the miss that entered it first. -/
def missStrand (s : State) (d : Fin 4) (ctx : BitVec 12) (va : Nat) : Nat :=
  match (dieMisses s d).find? fun m => m.hits d ctx va with
  | some m => (m.waiters.head?.map (·.strandNum)).getD 0
  | none => 0

/-- WALK_COMPLETE: the walk of a key, which one of the die's walkers serves if it stands in the table, fills the last-level TLB, or
meets a malformed or erroneous entry (R174, R178). -/
def execWalkComplete (die : Fin 4) (ctx : BitVec 12) (va : VAddr) (s : State) : Host.Outcome State Fault Refusal :=
  let waits := (dieMisses s die).any fun m => m.hits die ctx va.toNat
  if waits && ! walking s die ctx va.toNat then .next s
  else
    match s.lines.tlb.find? fun e => e.1 = die ∧ e.2.maps ctx va.toNat with
    | some e => .next (endMiss die ctx va.toNat (.ok e.2) s)
    | none =>
      let (r, s) := walkKept die (missStrand s die ctx va.toNat) ctx va.toNat s
      .next (endMiss die ctx va.toNat r s)

/-! ## SCRATCHPAD_ACCESS (R211) -/

/-- An access from another core at the core that owns the scratchpad. -/
def execScratchpadAccess (pa : Nat) (r : SpadReq) (s : State) : Host.Outcome State Fault Refusal :=
  let n := match r with
    | .load n => n
    | .store bs => bs.length
    | .amo _ dbl _ => amoBytes dbl
  if ! inTier 2 pa n || homeInReset s pa then .next s
  else
    match r with
    | .load n => .next (answer s (if poisonedAt s pa n then [] else memRead s.mem pa n))
    | .store bs => .next (physWrite (bs.length + 1) s pa bs false 0)
    | .amo op _ v =>
      if pa % n ≠ 0 then .next s
      else if poisonedAt s pa n then .next (answer s [])
      else
        let old := memRead s.mem pa n
        .next (answer (spadWrite s pa (natToBytes n (amoNew op n (bytesToNat old) (v.toNat % 2 ^ (8 * n))).1)) old)

end Sys2Proof.Machine
end

