-- ==== Sys2Proof/Machine/Headers.lean ====
section
/-! DEFINITION. Request headers: their flit (R194), how an access becomes headers (R195), and the slices each goes to. -/

namespace Sys2Proof.Machine

/-! ## The header flit (Tables 12.3 and 12.4) -/

/-- The request opcodes. -/
inductive ReqOp
  | read | write | atomic | vatom | barrier | vine | cacheop | watch | fill | gfill
  deriving DecidableEq, Repr

/-- OPCODE of a request. -/
def opcodeOf (o : ReqOp) : Nat :=
  match o with
  | .read => 0x01 | .write => 0x02 | .atomic => 0x03 | .vatom => 0x04 | .barrier => 0x05
  | .vine => 0x06 | .cacheop => 0x07 | .watch => 0x08 | .fill => 0x09 | .gfill => 0x0A

/-- The request an OPCODE names; the others are never sent. -/
def reqOpOf (n : Nat) : Option ReqOp :=
  [ReqOp.read, .write, .atomic, .vatom, .barrier, .vine, .cacheop, .watch, .fill, .gfill].find? fun o => opcodeOf o = n

/-- The unit that issues: stream `a` of strand k of the core. -/
def unitScalar (k : Fin 4) : Fin 32 := Fin.ofNat 32 k.val
/-- Stream g of strand k. -/
def unitVector (k : Fin 4) (g : Lane4) : Fin 32 := Fin.ofNat 32 (4 + 4 * k.val + g.val)
/-- A copy channel. -/
def unitCopy (h : Lane4) : Fin 32 := Fin.ofNat 32 (20 + h.val)
/-- The diagonal engine. -/
def unitDiagonal : Fin 32 := 24

/-- The 128 bits of a header. The requester's die is no field: the header travels on that die's fabric. -/
def headerFlit (o : ReqOp) (h : Header) : BitVec 128 :=
  0#2 ++ BitVec.ofBool h.comp ++ BitVec.ofBool h.dedup ++ h.domain ++ BitVec.ofNat 5 (opcodeOf o) ++ BitVec.ofNat 2 h.size.val ++ h.base
    ++ h.stride ++ BitVec.ofNat 16 h.count.val ++ BitVec.ofNat 8 h.core.val ++ BitVec.ofNat 5 h.unit.val ++ h.tag

/-- The request and header a flit on a die's fabric holds; one with an opcode that is never sent, or a COUNT outside 1 to 16,384, is
none. -/
def headerOfFlit (die : Fin 4) (w : BitVec 128) : Option (ReqOp × Header) :=
  let n := (w.extractLsb' 21 16).toNat
  match reqOpOf (w.extractLsb' 111 5).toNat with
  | none => none
  | some o =>
    if n = 0 ∨ 16384 < n then none
    else
      some (o, { comp := w.getLsbD 125, dedup := w.getLsbD 124, domain := w.extractLsb' 116 8
                 size := Fin.ofNat 4 (w.extractLsb' 109 2).toNat, base := w.extractLsb' 61 48, stride := w.extractLsb' 37 24
                 count := Fin.ofNat 16385 n, die := die, core := Fin.ofNat 256 (w.extractLsb' 13 8).toNat
                 unit := Fin.ofNat 32 (w.extractLsb' 8 5).toNat, tag := w.extractLsb' 0 8 })

/-- The operand flits of 16 B that follow a header: at most n of them. -/
def operandFlits : Nat → List Byte → List (List Byte)
  | 0, _ => []
  | _, [] => []
  | n + 1, bs => bs.take 16 :: operandFlits n (bs.drop 16)

/-! ## From accesses to headers (R195) -/

/-- Elements at one constant stride. -/
structure Run where
  base   : Nat
  stride : Int
  count  : Nat
  deriving DecidableEq, Repr

/-- The addresses of a run. -/
def Run.addrs (r : Run) : List Nat := (List.range r.count).map fun k => ((r.base : Int) + k * r.stride).toNat

/-- The stride fits in the header's 24 bits. -/
def strideFits (d : Int) : Bool := decide (-2 ^ 23 ≤ d ∧ d < 2 ^ 23)

/-- A run with one more element, where it continues the run. -/
def growRun (r : Run) (a : Nat) : Option Run :=
  if r.count = 1 then
    if strideFits (a - r.base : Int) then some { r with stride := a - r.base, count := 2 } else none
  else if r.count < 16384 ∧ (a : Int) = r.base + r.count * r.stride then some { r with count := r.count + 1 }
  else none

/-- The runs of the elements of an access, none standing for an inactive one, `cur` being the run that has begun. -/
def runsFrom (cur : Option Run) : List (Option Nat) → List Run
  | [] => cur.toList
  | none :: t => cur.toList ++ runsFrom none t
  | some a :: t =>
    match cur with
    | none => runsFrom (some { base := a, stride := 0, count := 1 }) t
    | some r =>
      match growRun r a with
      | some r' => runsFrom (some r') t
      | none => r :: runsFrom (some { base := a, stride := 0, count := 1 }) t

/-- The runs of an access whose elements lie at the addresses. -/
def runsOf (l : List (Option Nat)) : List Run := runsFrom none l

/-- The header of a run: `like` gives the page's bits, the requester and the first tag, and k is the run's number. -/
def runHeader (like : Header) (k : Nat) (r : Run) : Header :=
  { like with base := BitVec.ofNat 48 (r.base - (if like.comp then Config.compBase else 0)), stride := BitVec.ofInt 24 r.stride
              count := Fin.ofNat 16385 r.count, tag := like.tag + BitVec.ofNat 8 k }

/-- The headers of an access. -/
def headersOf (like : Header) (l : List (Option Nat)) : List Header := (runsOf l).zipIdx.map fun r => runHeader like r.2 r.1

/-- Where a header goes: a copy to each slice index that holds one of at most 8 lines, or none for a broadcast to all 64. -/
def unicast (s : State) (h : Header) : Option (List (Fin 64)) :=
  let ls := ((Header.elems h).map lineOf).eraseDups
  if ls.length ≤ 8 then some (ls.map (homeSlice s)).eraseDups else none

/-- The element indexes a slice serves. -/
def servedAt (s : State) (h : Header) (slice : Fin 64) : List Nat :=
  (List.range h.count.val).filter fun k => homeSlice s (lineOf (Header.elem h k)) = slice

end Sys2Proof.Machine
end

