-- ==== Sys2Proof/Machine/Links.lean ====
section
/-! DEFINITION. Renram ports and their retry (R230 to R235), requests of peers (R236), and collectives (R237 to R239). -/

namespace Sys2Proof.Machine

/-! ## Ports (Table 14.3) -/

/-- A port enters a state; ACTIVE and DOWN post event 0x16 (R233). -/
def portEnters (s : State) (k : Nat) (st : BitVec 3) : State :=
  let s := setPort s k { getPort s k with stat := st, naks := 0, tries := 0 }
  if st = 2 ∨ st = 4 then postEvent s 0x16 (st.zeroExtend 8) 0 (w64 k) 0 else s

/-- PEERERR of a port rises by 1. -/
def countPeerErr (s : State) (k : Nat) : State := setPort s k { getPort s k with peererr := (getPort s k).peererr + 1 }

/-- A request ends unreachable at its requester (R236). -/
def unreachable (s : State) (m : PeerMsg) : State :=
  match m.op with
  | .read _ => if m.strand < 4096 then deliverReply s m.strand m.copy m.va none else s
  | .write _ => writeLost s m.ctx m.va
  | .signal _ => answerSignal s m.strand m.id true
  | .amoAdd _ => s

/-- A flit that no port may carry: a request is unreachable, a reply waits for a port, and a contribution or refusal is lost, so that
its receiver finds it missing (R235, R236, R239; log 77). -/
def noRoute (s : State) (q : Packet) : State :=
  match q.what with
  | .request m => unreachable (countPeerErr s q.port) m
  | .reply .. => { s with links := { s.links with outbox := s.links.outbox ++ [q] } }
  | _ => s

/-- Flits that wait go out, oldest first, each as a port has room for it; those with no room yet wait on (R232, R235). -/
def sendAll : List Packet → State → State
  | [], s => s
  | q :: t, s =>
    sendAll t (match routeOf s q.what.node q.what.offset with
      | none => noRoute s q
      | some j =>
        if (getPort s j).buffer.length < replayDepth then sendOn s j q
        else { s with links := { s.links with outbox := s.links.outbox ++ [q] } })

/-- The flits that wait, and new ones behind them, go out as far as they can. -/
def sendOut (new : List Packet) (s : State) : State :=
  sendAll (s.links.outbox ++ new) { s with links := { s.links with outbox := [] } }

/-- A flit of a port's replay buffer as it returns to routing: a request while its reply is out, for the partner has accepted one that
is answered, and no idle flit. -/
def unsent (k : Nat) (waiting : List PeerMsg) (f : Sent) : Option Packet :=
  match f.what with
  | .idle => none
  | .request m => if waiting.any fun w => w.id = m.id then some { port := k, what := f.what, part := f.part } else none
  | _ => some { port := k, what := f.what, part := f.part }

/-- The replay buffer of a port returns to routing: its requests are out on it no more (R235). -/
def returnBuffer (s : State) (k : Nat) : State :=
  let p := getPort s k
  let back := p.buffer.filterMap (unsent k p.waiting)
  let gone (m : PeerMsg) : Bool := back.any fun q => match q.what with
    | .request r => decide (r.id = m.id)
    | _ => false
  sendOut back (setPort s k { p with buffer := [], waiting := p.waiting.filter fun m => ! gone m })

/-- Flits of a port's replay buffer are put on the wire again. -/
def resend (s : State) (k : Nat) (fs : List Sent) : State := fs.foldl (fun s f => putWire s k f) s

/-- A port enters DOWN. -/
def portDown (s : State) (k : Nat) : State := returnBuffer (portEnters s k 4) k

/-- ENABLE of a port. -/
def enablePort (s : State) (k : Nat) : State :=
  let p := getPort s k
  let s := setPort s k { p with enable := true }
  if p.stat = 0 then portEnters s k 1 else s

/-- ENABLE := 0. -/
def disablePort (s : State) (k : Nat) : State :=
  let p := getPort s k
  returnBuffer (portEnters (setPort s k { p with enable := false, pkind := 0, pnode := 0, pport := 0 }) k 0) k

/-- RETRAIN := 1. -/
def retrainPort (s : State) (k : Nat) : State := if (getPort s k).stat = 2 then portEnters s k 3 else s

/-- A partner is found: while TRAINING any but ourselves, while RETRAIN the same again, after which replay resumes. -/
def partnerSeen (s : State) (k : Nat) (sw : Bool) (node : BitVec 10) (pport : BitVec 9) : State :=
  let p := getPort s k
  let kind : BitVec 2 := if sw then 2 else 1
  let node := if sw then 0 else node
  if p.stat = 1 then
    if ! sw && decide (node = s.links.nodeid) then portDown s k
    else sendOut [] (portEnters (setPort s k { p with pkind := kind, pnode := node, pport, rxSeq := 0, txSeq := 0, nakSent := none }) k 2)
  else if p.stat = 3 then
    if p.pkind = kind ∧ p.pnode = node ∧ p.pport = pport then sendOut [] (resend (portEnters s k 2) k p.buffer) else portDown s k
  else s

/-- PORT_ENABLE, PORT_DISABLE, PORT_RETRAIN, PARTNER_FOUND, TRAINING_TIMEOUT, RETRAIN_FAILED and DOWN_RETRY. -/
def execPortEnable (k : Fin 18) (s : State) : Host.Outcome State Fault Refusal := .next (byHost (0x8000 + 0x40 * k.val) (enablePort · k.val) s)
def execPortDisable (k : Fin 18) (s : State) : Host.Outcome State Fault Refusal := .next (byHost (0x8000 + 0x40 * k.val) (disablePort · k.val) s)
def execPortRetrain (k : Fin 18) (s : State) : Host.Outcome State Fault Refusal := .next (byHost (0x8000 + 0x40 * k.val) (retrainPort · k.val) s)
def execPartnerFound (k : Fin 18) (sw : Bool) (node : BitVec 10) (pport : BitVec 9) (s : State) : Host.Outcome State Fault Refusal :=
  .next (partnerSeen s k.val sw node pport)
def execTrainingTimeout (k : Fin 18) (s : State) : Host.Outcome State Fault Refusal :=
  .next (if (getPort s k.val).stat = 1 then portDown s k.val else s)
def execRetrainFailed (k : Fin 18) (s : State) : Host.Outcome State Fault Refusal :=
  let p := getPort s k.val
  .next (if p.stat ≠ 3 then s else if 3 ≤ p.tries + 1 then portDown s k.val else setPort s k.val { p with tries := p.tries + 1 })
def execDownRetry (k : Fin 18) (s : State) : Host.Outcome State Fault Refusal :=
  let p := getPort s k.val
  .next (if p.stat = 4 ∧ p.enable then portEnters s k.val 1 else s)

/-! ## Flits (R231, R232) -/

/-- The fields of a flit (Table 14.2). -/
structure Flit where
  crc     : Nat
  ack     : BitVec 12
  seq     : BitVec 12
  payload : List Byte
  dnode   : BitVec 10
  snode   : BitVec 10
  credit  : Nat
  kind    : BitVec 4
  deriving DecidableEq, Repr

/-- The flit that 256 bytes hold. -/
def flitOf (bs : List Byte) : Flit :=
  let field (o lo n : Nat) : Nat := bytesToNat ((bs.drop o).take 8) / 2 ^ lo % 2 ^ n
  { crc := field 0xFC 0 32, ack := BitVec.ofNat 12 (field 0xF8 12 12), seq := BitVec.ofNat 12 (field 0xF8 0 12),
    payload := (bs.drop 8).take 240, dnode := BitVec.ofNat 10 (field 0 54 10), snode := BitVec.ofNat 10 (field 0 44 10),
    credit := field 0 36 8, kind := BitVec.ofNat 4 (field 0 32 4) }

/-- The CRC of a flit is good: it is that of bytes 0x00 to 0xFB. -/
def crcGood (bs : List Byte) : Bool := decide (bs.length = 256) && decide (crc32 (bs.take 0xFC) = (flitOf bs).crc)

/-- An ACK covers a sequence number, modulo 4,096. -/
def covers (ack seq : BitVec 12) : Bool := decide ((ack - seq).toNat < 2048)

/-- The answer to a request of ours: good, with its data, or refused. -/
def settleRequest (s : State) (k : Nat) (m : PeerMsg) (good : Bool) (data : Word) : State :=
  if ! good then unreachable (countPeerErr s k) m
  else
    match m.op with
    | .read _ => if m.strand < 4096 then deliverReply s m.strand m.copy m.va (some data) else s
    | .signal _ => answerSignal s m.strand m.id false
    | .write _ | .amoAdd _ => s

/-- A reply flit answers the oldest request to its sender, on its own port first: dword 0 is 0 when it was good, dword 1 the data. The
request's flit stands in the replay buffer until an ACK covers it (R232). -/
def takeReply (s : State) (k : Nat) (f : Flit) : State :=
  let ports := k :: (List.range 18).filter (· ≠ k)
  let hit := ports.findSome? fun j => ((getPort s j).waiting.find? fun m => decide (m.node = f.snode)).map fun m => (j, m)
  match hit with
  | none => s
  | some (j, m) =>
    let p := getPort s j
    let s := setPort s j { p with waiting := p.waiting.erase m }
    settleRequest s j m (decide (bytesToNat (f.payload.take 8) = 0)) (w64 (bytesToNat ((f.payload.drop 8).take 8)))

/-- A receive buffer of a port is free again: the next flit says so (R231). -/
def freeBuffer (s : State) (k : Nat) : State := setPort s k { getPort s k with owed := (getPort s k).owed + 1 }

/-- What an accepted flit for this module carries: a reply is taken, a request or a reduction stands in the port's inbox, and holds its
receive buffer, until it is acted on (log 76). -/
def takeFlit (s : State) (k : Nat) (f : Flit) : State :=
  if f.kind = 2 then takeReply (freeBuffer s k) k f
  else if f.kind = 1 ∨ f.kind = 3 then setPort s k { getPort s k with inbox := (getPort s k).inbox ++ [(f.kind, f.snode)] }
  else freeBuffer s k

/-- Flits that a port has put on the wire. -/
def wired (s : State) (k : Nat) : Nat := s.links.wire.countP fun w => decide (w.1 = k)

/-- A flit of a KIND other than idle has been accepted on a port, which had wired n flits before: an idle flit carries its ACK where
no other has gone out since, as far as the replay buffer has room (R232, log 92). -/
def ackFlit (s : State) (k n : Nat) (kind : BitVec 4) : State :=
  if kind ≠ 0 ∧ wired s k = n ∧ (getPort s k).stat = 2 ∧ (getPort s k).buffer.length < replayDepth then
    sendOn s k { port := k, what := .idle }
  else s

/-- A NAK of the next SEQ is returned (R232). -/
def sendNak (s : State) (k : Nat) : State :=
  let p := getPort s k
  let s := setPort s k { p with nakSent := some p.rxSeq }
  { s with links := { s.links with naksOut := s.links.naksOut ++ [(k, p.rxSeq)] } }

/-- A flit arrives (R232): accepted only with a good CRC and the next SEQ; the first that fails is NAKed, and later ones are discarded
until that SEQ arrives, which is NAKed again where its CRC is bad. Its
ACK frees the replay buffer. One for another node, or of an unlisted KIND, is discarded once accepted, and its RES fields are not
looked at, for which the spec gives no outcome (log 76). -/
def receiveFlit (s : State) (k : Nat) (bs : List Byte) : State :=
  let p := getPort s k
  let f := flitOf bs
  if p.stat ≠ 2 then s
  else if ! crcGood bs then
    let s := setPort s k { p with crcerr := p.crcerr + 1 }
    if p.nakSent = none ∨ f.seq = p.rxSeq then sendNak s k else s
  else if f.seq ≠ p.rxSeq then (if p.nakSent = none then sendNak s k else s)
  else
    let s := setPort s k { p with rxSeq := p.rxSeq + 1, nakSent := none, credits := p.credits + f.credit,
                                  buffer := p.buffer.filter fun b => ! covers f.ack b.seq }
    let n := wired s k
    let s := sendOut [] s
    let s := if f.dnode = s.links.nodeid then takeFlit s k f else freeBuffer s k
    ackFlit s k n f.kind

/-- A NAK arrives: the flits from there on are sent again; the eighth of one flit in a row retrains the port. -/
def receiveNak (s : State) (k : Nat) (seq : BitVec 12) : State :=
  let p := getPort s k
  if p.stat ≠ 2 then s
  else
    let n := if p.nakSeq = seq ∧ p.naks ≠ 0 then p.naks + 1 else 1
    let again := p.buffer.filter fun m => covers m.seq seq
    let s := setPort s k { p with nakSeq := seq, naks := n, replay := p.replay + w64 again.length }
    if 8 ≤ n then portEnters s k 3 else resend s k again

/-- FLIT_RECEIVE and NAK_RECEIVE. -/
def execFlitReceive (k : Fin 18) (flit : List Byte) (s : State) : Host.Outcome State Fault Refusal := .next (receiveFlit s k.val flit)
def execNakReceive (k : Fin 18) (seq : BitVec 12) (s : State) : Host.Outcome State Fault Refusal := .next (receiveNak s k.val seq)

/-! ## Requests of peers (R236) -/

/-- A reply goes to the peer, by the line address of its request: 0 and the data, or 1 for a refusal (logs 55 and 77). -/
def replyPeer (s : State) (k : Nat) (node : BitVec 10) (off : Nat) (good : Bool) (bs : List Byte) : State :=
  let bs := natToBytes 8 (if good then 0 else 1) ++ bs
  sendOut (packetsOf k (.reply node off bs)) (answer s bs)

/-- The export admits the request; a SIGNAL is an atomic (R103). -/
def exportAdmits (s : State) (snode : BitVec 10) (x off : Nat) (op : PeerOp) : Bool :=
  let w := sget 0 s.links.exports (2 * x)
  let size := bits (sget 0 s.links.exports (2 * x + 1)) 0 16
  let reads := match op with | .write _ => false | _ => true
  let writes := match op with | .read _ => false | _ => true
  w.getLsbD 63 && decide (off < size * 2 ^ 27) && (w.getLsbD 60 || decide (bits w 50 10 = snode.toNat))
    && (! reads || w.getLsbD 62) && (! writes || w.getLsbD 61)

/-- Bytes of a request. -/
def peerBytes : PeerOp → Nat
  | .read n => max 1 n
  | .write bs => max 1 bs.length
  | .amoAdd _ => 8
  | .signal _ => 16

/-- The bytes [a, a + n) are held for a write, and the slice that holds them has said so. -/
def heldGuard (a n : Nat) : Act Unit := do
  let s ← get
  let ls := ((List.range (n / 128 + 2)).map fun k => lineOf a + 128 * k).filter fun l => decide (l < a + n)
  if ls.any (homeHeld s) then
    apply fun s => ls.foldl reportStuck s
    throw .again

/-- A request of a peer at the home of its location; one that reaches no memory, a home in reset or poisoned data is refused. -/
def servePeer (k : Nat) (snode : BitVec 10) (x off : Nat) (op : PeerOp) : Act Unit := do
  let s ← get
  let n := peerBytes op
  let pa := bits (sget 0 s.links.exports (2 * x)) 27 21 * 2 ^ 27 + off
  let reply (s : State) (good : Bool) (bs : List Byte) : Act Unit := set (replyPeer s k snode off good bs)
  if ! exportAdmits s snode x off op || ! tablePlace pa n || homeInReset s pa || homeInReset s (pa + n - 1) then reply s false []
  else
    match op with
    | .read n => 
      if poisonedAt s pa n then reply s false []
      else
        let (bs, s) := portRead s pa n
        reply s true bs
    | .write bs =>
      heldGuard pa n
      reply (devWrite s pa bs) true []
    | .amoAdd v =>
      if pa % 8 ≠ 0 || poisonedAt s pa 8 then reply s false []
      else
        heldGuard pa 8
        let s := homeFill s (lineOf pa) false 0
        let old := memRead s.mem pa 8
        reply (writeFilled s pa (natToBytes 8 ((bytesToNat old + v.toNat) % 2 ^ 64))) true old
    | .signal c =>
      heldGuard pa 16
      let (good, s) := signalHome s pa c.toNat false 0
      reply s good []

/-- A flit of a KIND from a node stands in a port's inbox. -/
def inInbox (s : State) (k : Nat) (kind : BitVec 4) (node : BitVec 10) : Bool := (getPort s k).inbox.contains (kind, node)

/-- It is acted on, and its receive buffer is free. -/
def takeInbox (s : State) (k : Nat) (kind : BitVec 4) (node : BitVec 10) : State :=
  freeBuffer (setPort s k { getPort s k with inbox := (getPort s k).inbox.erase (kind, node) }) k

/-- The port whose inbox holds a reduction flit that satisfies p. -/
def reductionPort (s : State) (p : BitVec 10 → Bool) : Option (Nat × BitVec 10) :=
  (List.range 18).findSome? fun k => ((getPort s k).inbox.find? fun x => decide (x.1 = 3) && p x.2).map fun x => (k, x.2)

/-! ## Collectives (R237 to R239) -/

/-- Collectives that wait at most. -/
def collectiveDepth : Nat := 16

/-- The refusal of a collective: ERR, and event 0x1A. -/
def refuseLocal (s : State) (err : BitVec 8) (ctx : BitVec 12) (addr : Word) : State :=
  postEvent { s with links := { s.links with cerr := err } } 0x1A err 0 (ctx.zeroExtend 64) addr

/-- A write to CDB. -/
def collectiveBell (s : State) (v : Word) : State :=
  let ctx : BitVec 12 := BitVec.ofNat 12 v.toNat
  if collectiveDepth ≤ s.links.pending.length then refuseLocal s 3 ctx 0
  else { s with links := { s.links with pending := s.links.pending ++ [(ctx, s.links.cdesc)] } }

/-- COLLECTIVE_DOORBELL. -/
def execCollectiveDoorbell (v : Word) (s : State) : Host.Outcome State Fault Refusal := .next (byHost 0xB008 (collectiveBell · v) s)

/-- Pieces of a vector, read for a context through M0, line by line. -/
def readPiecesAt (ctx : BitVec 12) (va : VAddr) : List (Nat × Nat) → Act (List Byte)
  | [] => pure []
  | (o, n) :: t => do
    let x ← deviceRead ctx (va + BitVec.ofNat 48 o) n
    let r ← readPiecesAt ctx va t
    pure (x ++ r)

/-- The n bytes of a vector. -/
def readVector (ctx : BitVec 12) (va : VAddr) (n : Nat) : Act (List Byte) := readPiecesAt ctx va (framePieces va n)

/-- Pieces of a vector, written for a context through M0, line by line. -/
def writePiecesAt (ctx : BitVec 12) (va : VAddr) (bs : List Byte) : List (Nat × Nat) → Act Unit
  | [] => pure ()
  | (o, n) :: t => do
    deviceWrite ctx (va + BitVec.ofNat 48 o) ((bs.drop o).take n)
    writePiecesAt ctx va bs t

/-- The bytes of a vector. -/
def writeVector (ctx : BitVec 12) (va : VAddr) (bs : List Byte) : Act Unit := writePiecesAt ctx va bs (framePieces va bs.length)

/-- The element type of a collective's TAG. -/
def Collective.elem (c : Collective) : Elem := (elemOf (BitVec.ofNat 6 c.tag.toNat)).getD (.flt fmtF32)
/-- Its operation. -/
def Collective.red (c : Collective) : RedOp :=
  match c.op.toNat with
  | 0 => .sum
  | 1 => .max
  | _ => .min

/-- The collective a descriptor describes. -/
def collectiveOf (ctx : BitVec 12) (desc : Word) (bs : List Byte) : Collective :=
  let d := dwordOf bs
  { ctx, desc, group := BitVec.ofNat 16 (bits (d 0) 48 16), tag := BitVec.ofNat 8 (bits (d 0) 40 8), op := BitVec.ofNat 4 (bits (d 0) 36 4),
    size := bits (d 0) 26 10, rank := bits (d 0) 16 10, count := bits (d 1) 0 32, src := w64 (bits (d 2) 0 48), dst := w64 (bits (d 3) 0 48),
    members := [], cwaddr := w64 (bits (d 5) 3 45 * 8) }

/-- The RES fields of a descriptor are 0. -/
def descriptorRes (bs : List Byte) : Bool :=
  let d := dwordOf bs
  decide (bits (d 0) 0 16 = 0 ∧ bits (d 1) 32 32 = 0 ∧ bits (d 2) 48 16 = 0 ∧ bits (d 3) 48 16 = 0 ∧ bits (d 4) 48 16 = 0
    ∧ bits (d 5) 48 16 = 0 ∧ bits (d 5) 0 3 = 0 ∧ d 6 = 0 ∧ d 7 = 0)

/-- A valid descriptor (R239). -/
def collectiveValid (s : State) (bs : List Byte) (c : Collective) : Bool :=
  descriptorRes bs && decide (c.tag = 0x03 ∨ c.tag = 0x09 ∨ c.tag = 0x0A ∨ c.tag = 0x0B) && decide (c.op.toNat ≤ 2)
    && decide (2 ≤ c.size ∧ c.size ≤ 512 ∧ c.rank < c.size) && decide (c.members[c.rank]? = some (s.links.nodeid.zeroExtend 16))

/-- The collective writes its status word and is over: its NF is a free value unless it is done (log 9). -/
def statusWord (c : Collective) (code : Nat) (nf : Bool) : Act Unit := do
  let (r, s) := Act.on (deviceWrite c.ctx (vaOf c.cwaddr) (natToBytes 8 (nf.toNat * 2 ^ 63 + code))) (← get)
  match r with
  | .ok _ => set s
  | .error (.trap _ _) => pure ()
  | .error x => set s; throw x
  apply fun s => { s with links := { s.links with running := none } }

/-- A failed collective leaves DST undefined (R238, log 9). -/
def failCollective (c : Collective) (code : Nat) : Act Unit := do
  let s ← get
  let b := c.elem.bytes
  let w := s.freeCount
  let (r, s') := Act.on (writeVector c.ctx (vaOf c.dst) ((List.range (b * c.count)).map fun i => Config.undefinedByte (w + i)))
    { s with freeCount := w + b * c.count }
  match r with
  | .ok _ => set s'
  | .error (.trap _ _) => pure ()
  | .error x => set s'; throw x
  let nf ← lift State.drawFree
  statusWord c code (nf.getLsbD 0)

/-- An element of the collective's format is NaN or ±infinity. -/
def notFinite (t : Elem) (x : Nat) : Bool :=
  match t with
  | .flt f => let v := decodeFloat f x; v.isNan || v.isInf
  | _ => false

/-- Element e of a vector of b-byte elements. -/
def vectorElem (b : Nat) (bs : List Byte) (e : Nat) : Nat := bytesToNat ((bs.drop (b * e)).take b)

/-- A member's contribution: its data, and NF. -/
def contribution (c : Collective) (bs : List Byte) : Option (List Byte) × Bool :=
  (some bs, (List.range c.count).any fun e => notFinite c.elem (vectorElem c.elem.bytes bs e))

/-- What a contribution of ours says of the collective. -/
def Collective.head (c : Collective) : ReductionHead :=
  { group := c.group, tag := c.tag, op := c.op, size := c.size, count := c.count, members := c.members, rank := c.rank }

/-- The contribution of a member agrees with ours in OP, TAG, COUNT, SIZE and MEMBERS. -/
def Collective.agrees (c : Collective) (h : ReductionHead) : Bool := decide ({ h with rank := c.rank } = c.head)

/-- The other members that are nodes. -/
def otherNodes (s : State) (c : Collective) : List (BitVec 10) :=
  ((c.members.filter fun m => decide (m.toNat < 1024)).map fun m => BitVec.ofNat 10 m.toNat).filter fun n => n ≠ s.links.nodeid

/-- The contribution of a rank is recorded. -/
def putPart (c : Collective) (rank : Nat) (p : Option (List Byte) × Bool) : Collective :=
  { c with parts := c.parts.filter (·.1 ≠ rank) ++ [(rank, p)] }

/-- The contribution of another rank reaches the running collective: it is kept, or it ends the collective with code 2 where the
members disagree; a member that could not read its source sends none. -/
def takePart (h : ReductionHead) (nf : Bool) (data : List Byte) : Act Unit := do
  match (← get).links.running with
  | none => pure ()
  | some c =>
    if ! c.agrees h || decide (data ≠ [] ∧ data.length ≠ c.count * c.elem.bytes) then failCollective c 2
    else if c.size ≤ h.rank ∨ h.rank = c.rank then pure ()
    else
      let part : Option (List Byte) := if data = [] ∧ c.count ≠ 0 then none else some data
      apply fun s => { s with links := { s.links with running := some (putPart c h.rank (part, nf)) } }

/-- The contributions that came before the collective began. -/
def takeEarly : List (ReductionHead × Bool × List Byte) → Act Unit
  | [] => pure ()
  | (h, nf, data) :: t => do
    takePart h nf data
    takeEarly t

/-- A collective runs: a refusal that came before ends it, else its own contribution is recorded and goes to every other member, and
those that came before are taken. -/
def runCollective (c : Collective) : Act Unit := do
  let s ← get
  let mine := s.links.early.filter fun e => decide (e.1.group = c.group)
  set { s with links := { s.links with
    running := some c, refused := s.links.refused.filter (· ≠ c.group), early := s.links.early.filter fun e => e.1.group ≠ c.group } }
  if s.links.refused.contains c.group then failCollective c 2
  else
    let own := match ← caught (readVector c.ctx (vaOf c.src) (c.elem.bytes * c.count)) with
      | .ok bs => contribution c bs
      | .error _ => (none, false)
    apply fun s =>
      let s := { s with links := { s.links with running := some (putPart c c.rank own) } }
      sendOut ((otherNodes s c).flatMap fun n => packetsOf 0 (.part n c.head own.2 (own.1.getD []))) s
    takeEarly mine

/-- The oldest waiting collective starts, once the one before it is over. -/
def startCollective : Act Unit := do
  let s ← get
  match s.links.running, s.links.pending with
  | none, (ctx, desc) :: rest =>
    set { s with links := { s.links with pending := rest } }
    let read : Act (List Byte × Collective) := do
      let bs ← deviceRead ctx (vaOf desc) 64
      let c := collectiveOf ctx desc bs
      let ms := vaOf (w64 (bits (dwordOf bs 4) 0 48))
      if ms.toNat % 2 ≠ 0 then trap 0x03 (vaWord ms)
      let m ← readVector ctx ms (2 * c.size)
      pure (bs, { c with members := (List.range c.size).map fun i => BitVec.ofNat 16 (vectorElem 2 m i) })
    match ← caught read with
    | .error _ => apply fun s => refuseLocal s 1 ctx desc
    | .ok (bs, c) =>
      if collectiveValid (← get) bs c then runCollective c
      else
        apply fun s => sendOut ((otherNodes s c).flatMap fun n => packetsOf 0 (.refusal n c.group)) (refuseLocal s 2 ctx desc)
        failCollective c 2
  | _, _ => pure ()

/-- COLLECTIVE_START. -/
def execCollectiveStart (s : State) : Host.Outcome State Fault Refusal := wholeEvent startCollective s

/-- The node of the member that sent a contribution. -/
def senderNode (h : ReductionHead) : Option (BitVec 10) :=
  match h.members[h.rank]? with
  | some m => if m.toNat < 1024 then some (BitVec.ofNat 10 m.toNat) else none
  | none => none

/-- REDUCTION_FLIT: the contribution of one rank, whose flit has been accepted from its node. One to a collective that has not started
here is kept for it. -/
def execReductionFlit (h : ReductionHead) (nf : Bool) (data : List Byte) (s : State) : Host.Outcome State Fault Refusal :=
  match reductionPort s fun n => decide (senderNode h = some n) with
  | none => .next s
  | some (k, n) =>
    wholeEvent (do
      apply fun s => takeInbox s k 3 n
      if (← get).links.running.any fun c => decide (c.group = h.group) then takePart h nf data
      else apply fun s => { s with links := { s.links with early := s.links.early ++ [(h, nf, data)] } }) s

/-- COLLECTIVE_REFUSAL: a member refused, and its flit has been accepted; one that has not started here is remembered. -/
def execCollectiveRefusal (group : BitVec 16) (s : State) : Host.Outcome State Fault Refusal :=
  match reductionPort s fun _ => true with
  | none => .next s
  | some (k, n) =>
    wholeEvent (do
      apply fun s => takeInbox s k 3 n
      let note : Act Unit := apply fun s => { s with links := { s.links with refused := s.links.refused.filter (· ≠ group) ++ [group] } }
      match (← get).links.running with
      | some c => if c.group = group then failCollective c 2 else note
      | none => note) s

/-- Every rank has contributed. -/
def allParts (c : Collective) : Bool := (List.range c.size).all fun r => c.parts.any (·.1 = r)

/-- COLLECTIVE_TIMEOUT: a member has contributed nothing in time. -/
def execCollectiveTimeout (s : State) : Host.Outcome State Fault Refusal :=
  wholeEvent (do
    match s.links.running with
    | some c => if allParts c then pure () else failCollective c 3
    | none => pure ()) s

/-- One combination, and in bit 0 of its flags whether the result is not finite. -/
def combine (c : Collective) (x y : Nat) : Nat × Flags :=
  let r := (redStep c.elem c.red x y).1
  (r, if notFinite c.elem r then 1 else 0)

/-- Element e of the result over the ranks, by the tree of R42, and NF. -/
def reduceElem (c : Collective) (parts : List (List Byte)) (e : Nat) : Nat × Bool :=
  let r := tree (combine c) (c.size + 1) (parts.map fun bs => some (vectorElem c.elem.bytes bs e))
  (r.1.getD 0, decide (r.2 ≠ 0))

/-- COLLECTIVE_COMPLETE: every contribution is there; DST and the status word are written. -/
def finishCollective : Act Unit := do
  let s ← get
  match s.links.running with
  | none => pure ()
  | some c =>
    if ! allParts c then pure ()
    else
      let parts := (List.range c.size).map fun r => (sget (none, false) c.parts r)
      if parts.any (·.1.isNone) then failCollective c 4
      else
        let rs := (List.range c.count).map (reduceElem c (parts.map fun p => p.1.getD []))
        let nf := (parts.any (·.2)) || rs.any (·.2)
        let b := c.elem.bytes
        match ← caught (writeVector c.ctx (vaOf c.dst) (rs.flatMap fun r => natToBytes b r.1)) with
        | .ok _ => statusWord c 1 nf
        | .error _ => failCollective c 4

/-- COLLECTIVE_COMPLETE. -/
def execCollectiveComplete (s : State) : Host.Outcome State Fault Refusal := wholeEvent finishCollective s

/-- CSTAT. -/
def collectiveStat (s : State) : Word :=
  w64 (s.links.pending.length * 2 ^ 16 + s.links.cerr.toNat * 2 ^ 8 + s.links.running.isSome.toNat)

end Sys2Proof.Machine
end

