-- ==== Sys2Proof/Machine/Press.lean ====
section
/-! DEFINITION. Loading routine slots (R170). -/

namespace Sys2Proof.Machine

/-- A command names a routine slot. -/
def usesSlot (k : Fin 64) (m : Command) : Bool := match m.kind with | .xxform n _ => decide (n = k) | _ => false

/-- An accepted command of a slot has not finished: its routine runs, or it waits to begin (R170). -/
def slotRunning (s : State) (k : Fin 64) : Bool :=
  (s.press.engines.any fun e => decide (e.2.slot = k)) || s.cores.any fun c => c.2.commands.any (usesSlot k)

/-- The image of a slot is replaced: header and code, or nothing. -/
def putSlot (s : State) (k : Fin 64) (image : List Byte) : State :=
  { s with press := { s.press with slots := sset [] s.press.slots k.val image } }

/-- A slot is emptied. -/
def emptySlot (s : State) (k : Fin 64) : State :=
  let s := putSlot s k []
  { s with press := { s.press with stat := 0, reason := 0, unload := false } }

/-- A write to RTCMD: it starts a load, or empties the slot; one that a command of the slot holds up waits. -/
def rtcmd (s : State) (v : Word) : State :=
  if s.press.stat = 1 then s
  else
    let k : Fin 64 := Fin.ofNat 64 v.toNat
    let s := { s with press := { s.press with slot := k, stat := 1, reason := 0, unload := v.getLsbD 7 } }
    if v.getLsbD 7 && ! slotRunning s k then emptySlot s k else s

/-- Why an image is refused, or 0 (Table 10.4), and its header and code. -/
def checkImage (s : State) (a : Nat) : Nat × List Byte :=
  let hd := memRead s.mem a 64
  let n := (dwordOf hd 1).toNat
  if ! (inTier 0 a 64 || inTier 1 a 64) || decide (dwordOf hd 0 ≠ 0x52584E4B) then (1, [])
  else if 65536 < n then (2, [])
  else
    let image := memRead s.mem a (64 + n)
    let sig := memRead s.mem (a + 64 + n) 64
    if ! (inTier 0 a (128 + n) || inTier 1 a (128 + n)) || rangeInReset s a (128 + n) || rangePoisoned s a (128 + n) || ! Config.signatureGood s.daleel.routineKey image sig then (3, [])
    else if dwordOf hd 3 ≠ 1 then (4, [])
    else (0, image)

/-- The load or unload that waits completes, once no command of the slot runs. -/
def routineDone (s : State) : State :=
  let k := s.press.slot
  if s.press.stat ≠ 1 ∨ slotRunning s k then s
  else if s.press.unload then emptySlot s k
  else
    let (why, image) := checkImage s s.press.rtaddr.toNat
    let s := putSlot s k image
    { s with press := { s.press with reason := BitVec.ofNat 8 why, stat := if why = 0 then 2 else 3 } }

/-- RTSTAT. -/
def rtStat (s : State) : Word := w64 (s.press.reason.toNat * 2 ^ 8 + s.press.stat.toNat)

/-- ROUTINE_LOAD and ROUTINE_UNLOAD: a write to RTCMD with UNLOAD 0 or 1. -/
def execRoutineLoad (v : Word) (s : State) : Host.Outcome State Fault Refusal := .next (byHost 0x3008 (rtcmd · (setBits v 7 1 0)) s)
def execRoutineUnload (v : Word) (s : State) : Host.Outcome State Fault Refusal := .next (byHost 0x3008 (rtcmd · (setBits v 7 1 1)) s)
/-- ROUTINE_LOAD_DONE. -/
def execRoutineLoadDone (s : State) : Host.Outcome State Fault Refusal := .next (routineDone s)

end Sys2Proof.Machine
end

