-- ==== Sys2Proof/Machine/Daleel.lean ====
section
/-! DEFINITION. Daleel: boot (R374, R375), the mailbox and attestation (R376, R377), retiring lane groups (R373), power (R378,
R379), and die resets (R380). -/

namespace Sys2Proof.Machine

/-! ## Lane groups (R372, R373, R84) -/

/-- The effects of a retirement on one strand: its reservation shrinks, its vector registers are lost, and cause 0x11 is taken. -/
def retireStrand (s : State) (n : Nat) : State :=
  let k := getCore s (coreOf n)
  let t := getStrand s n
  if ! t.resident then s
  else
    let s := modStrand s n fun t => loseVectors { t with item := { t.item with units := t.item.vrfh * laneGroups k / 4 } }
    let back := s.cur
    focusOn (asyncTrap 0x11 ((laneMask k).zeroExtend 64) (focusOn s (Fin.ofNat 4096 n))) back

/-- Ones written to DISABLE of a core. -/
def retireGroups (s : State) (c : Nat) (mask : BitVec 4) : State :=
  let k := getCore s c
  if mask &&& ~~~k.disable = 0 then s
  else (strandsOf c).foldl retireStrand (setCore s c { k with disable := k.disable ||| mask })

/-- LANE_GROUP_RETIRE. -/
def execLaneGroupRetire (core : Fin 1024) (mask : BitVec 4) (s : State) : Host.Outcome State Fault Refusal := 
  .next (byHost (0x10000 + 16 * core.val) (retireGroups · core.val mask) s)

/-- LGCE, whose read clears it. -/
def readLgce (s : State) (c : Nat) : Word × State :=
  let k := getCore s c
  let v := (List.range 4).foldl (fun n g => n + (k.ce.toList.getD g 0).toNat * 2 ^ (16 * g)) 0
  (w64 v, setCore s c { k with ce := Vector.replicate 4 0 })

/-- LGCE_READ. -/
def execLgceRead (core : Fin 1024) (s : State) : Host.Outcome State Fault Refusal :=
  .next (if hostMay s (0x10008 + 16 * core.val) then let (v, s) := readLgce s core.val; answer s (natToBytes 8 v.toNat) else answer s (allOnes 8))

/-! ## Power (R378, R379) -/

/-- POWER_CAP: the average over the last 1 ms; the clocks withheld beyond WATTS are no part of the model. -/
def execPowerCap (mw : Nat) (s : State) : Host.Outcome State Fault Refusal :=
  .next { s with daleel := { s.daleel with pwrnow := BitVec.ofNat 12 mw } }

/-- CORE_POWER_GATE: an idle core loses its L1 and its TLB, and keeps its scratchpad. -/
def execCorePowerGate (core : Fin 1024) (s : State) : Host.Outcome State Fault Refusal :=
  .next (if residentStrands s core.val ≠ [] ∨ (getCore s core.val).commands ≠ [] then s
    else modCore s core.val fun k => { k with l1 := [], tlb := [], gated := true })

/-- What a write to PWRCAP stores: the nearer end of 300 to 2,200. -/
def wattsOf (v : Word) : BitVec 12 := BitVec.ofNat 12 (max 300 (min 2200 (bits v 0 12)))

/-! ## Losing state -/

/-- DIRTY lines are lost: their memory keeps the last value written back. -/
def loseDirty (s : State) (p : L2Tag → Bool) : State :=
  (s.lines.tags.filter p).foldl (fun s t => match t.dirty with | some old => { s with mem := memWrite s.mem t.line old } | none => s) s

/-- What lies beyond a module cold reset: memory at its last written-back values, the retirement list in SPI NOR, and the
model's own fields. The random source draws new domain keys (R205). The launch processor holds FREE of every context, whatever STATE the
descriptors in the kept memory show (R48, log 94). -/
def coldReset (s : State) : State :=
  let m := loseDirty s fun _ => true
  { State.reset with
    mem := m.mem, poison := s.poison, lag := s.lag, agenda := s.agenda, freeCount := s.freeCount + 1
    lines := { State.reset.lines with keys := Config.drawKeys (s.freeCount + 1) }
    daleel := { State.reset.daleel with retireList := s.daleel.retireList } }

/-- COLD_RESET. -/
def execColdReset (s : State) : Host.Outcome State Fault Refusal := .next (if s.daleel.powered then coldReset s else s)

/-- MODULE_POWER_LOSS: without its 54 V input the module keeps SPI NOR alone. -/
def execModulePowerLoss (s : State) : Host.Outcome State Fault Refusal :=
  .next (let s := coldReset s
    { s with mem := [], poison := [], daleel := { s.daleel with powered := false } })

/-- MODULE_POWER_ON. -/
def execModulePowerOn (s : State) : Host.Outcome State Fault Refusal :=
  .next (if s.daleel.powered then s else { s with daleel := { s.daleel with powered := true } })

/-! ## Boot (R374, R375, Table 26.5) -/

/-- The stage that runs next: 1 after the boot ROM, to 4 once boot is complete. -/
def bootNext (s : State) : Nat := max 1 s.daleel.stage
/-- Daleel runs a boot chain. -/
def booting (s : State) : Bool := s.daleel.powered && ! minimal s && decide (bootNext s < 4)

/-- A stage fails: it is retried, and the third failure in a row brings minimal mode. -/
def bootFails (s : State) (reason : Nat) : State :=
  let b := s.daleel.bootcause
  let n := if bits b 12 4 = bootNext s then bits b 8 4 + 1 else 1
  { s with daleel := { s.daleel with
      bootcause := w64 (reason * 2 ^ 16 + bootNext s * 2 ^ 12 + n * 2 ^ 8 + (if 3 ≤ n then 1 else 0)) } }

/-- DISABLE of the cores of some numbers is loaded from the retirement list. -/
def loadDisable (s : State) (p : Nat → Bool) : State :=
  (s.daleel.retireList.filter fun x => p x.1).foldl (fun s x => modCore s x.1 fun k => { k with disable := x.2 }) s

/-- What a mask register holds (Table 12.2). -/
def maskWord (v : Nat) : Word := w64 (v / 2 ^ 7 % 2 ^ 41 * 2 ^ 7)

/-- The masks of the partitions: six for the slice, two for the die. -/
def loadMasks (f : BootFields) : Sparse Word :=
  (List.range 8).foldl (fun t p => (List.range 8).foldl (fun t k =>
    sset 0 t (8 * p + k) (maskWord (if k < 6 then (f.slh.getD p []).getD k 0 else (f.dieh.getD p []).getD (k - 6) 0))) t) []

/-- A die leaves reset, with event 0x1B (R380). -/
def dieUp (s : State) (d : Fin 4) : State :=
  postEvent { s with daleel := { s.daleel with dies := s.daleel.dies.set d.val .up } } 0x1B 3 0 (w64 d.val) 0

/-- The limits an image holds, the last one fixed (R192). -/
def limitsOf (f : BootFields) : List Nat :=
  (List.range 8).map fun p => if p = 7 then Config.lastLimit else f.plimit.getD p 0 / 2 ^ 22 % 2 ^ 26 * 2 ^ 22

/-- What an image can hold: limits that do not decrease (R192), a context table in GDDR-7 or the cellar (R46), and a group table in
GDDR-7 (R92). -/
def imageFits (f : BootFields) : Bool :=
  let l := limitsOf f
  ((l.zip l.tail).all fun p => decide (p.1 ≤ p.2)) && decide (f.ctxTable % 128 = 0) && (inTier 0 f.ctxTable 524288 || inTier 1 f.ctxTable 524288)
    && decide (f.groupTable % 16 = 0) && inTier 0 f.groupTable 1048576

/-- What a stage that verified loads (Table 26.4). -/
def bootLoads (s : State) (f : BootFields) : State :=
  let n := bootNext s
  let s := { s with daleel := { s.daleel with stage := n + 1 } }
  if n = 1 then
    loadDisable { s with daleel := { s.daleel with routineKey := f.routineKey } } fun _ => true
  else if n = 2 then
    let pl := (limitsOf f).zipIdx.foldl (fun t p => sset 0 t p.2 (w64 p.1)) []
    let sel : BitVec 3 := BitVec.ofNat 3 f.partsel.val
    { s with lines := { s.lines with plimit := pl, masks := loadMasks f, partsel := Vector.replicate 4 sel }
             lp := { s.lp with ctxTable := f.ctxTable, groupTable := f.groupTable }
             daleel := { s.daleel with pwrcap := wattsOf (w64 f.pwrcap), partselL := sel } }
  else
    let s := { s with lines := { s.lines with released := true }
                      daleel := { s.daleel with bootcause := setBits s.daleel.bootcause 8 4 0 } }
    (List.finRange 4).foldl dieUp s

/-- Why Daleel refuses the image of stage n (R374), or 0: its digest, its signature by the key whose digest is fused, its version. -/
def imageRefused (n : Nat) (i : BootImage) : Nat :=
  if Config.sha256 i.body ≠ i.digest then 2
  else if Config.sha256 i.key ≠ Config.fusedKeyHash ∨ ! Config.signatureGood i.key i.body i.signature then 3
  else if i.version < Config.fusedMinimum n then 4
  else 0

/-- The stage that runs next has verified: its digest is a measurement (R376). -/
def measured (s : State) (i : BootImage) : State :=
  { s with daleel := { s.daleel with digests := s.daleel.digests.take (bootNext s - 1) ++ [i.digest] } }

/-- BOOT_STAGE: the stage runs once its image has verified, or it fails with its REASON. Fields that no image holds are no boot (log 80). -/
def execBootStage (r : BootResult) (s : State) : Host.Outcome State Fault Refusal :=
  .next (if ! booting s then s
    else
      match r with
      | .absent => bootFails s 1
      | .selfTest i =>
        let why := imageRefused (bootNext s) i
        if why ≠ 0 then bootFails s why else bootFails (measured s i) 5
      | .image i =>
        let why := imageRefused (bootNext s) i
        if why ≠ 0 then bootFails s why
        else if bootNext s = 2 ∧ ! imageFits i.fields then s
        else bootLoads (measured s i) i.fields)

/-- BOOT_STAGE_TIMEOUT. -/
def execBootStageTimeout (s : State) : Host.Outcome State Fault Refusal := .next (if booting s then bootFails s 6 else s)

/-! ## Die resets (R380) -/

/-- Cores and strands of a die. -/
def onDie (d : Fin 4) (c : Nat) : Bool := decide (dieOf (4 * c) = d)

/-- The strands that watch a line of the die, or wait for a group object there, run again. -/
def wakeDie (s : State) (d : Fin 4) : State :=
  let s := ((s.watches.map (·.1)).filter fun a => (isLine a && decide (homeDie s a = d)) || (isSpad a && onDie d (spadCore a))).foldl wakeLine s
  (s.lp.groups.filter fun g => decide (groupDie g.2 = d)).foldl (fun s g => wakeGroup s g.1) s

/-- The die's L2, RDC and TLB are empty, the other dies hold no copy of its lines, and its cores and strands are at reset: what
these have sent has no requester any more. -/
def clearDie (s : State) (d : Fin 4) : State :=
  let s := (s.lines.tags.filter fun t => decide (homeDie s t.line = d)).foldl (fun s t => freeEntries (dropTag s t.line)) s
  let s := { s with lines := { s.lines with
    rdc := s.lines.rdc.filter fun r => r.1 ≠ d
    rdcBad := s.lines.rdcBad.filter fun r => r.1 ≠ d
    tlb := s.lines.tlb.filter fun e => e.1 ≠ d
    counters := s.lines.counters.filter fun c => ! decide (c.1 / 16 = d.val)
    sample := s.lines.sample.filter fun c => c.1 ≠ d.val
    writesHeld := s.lines.writesHeld.filter fun a => (sliceOf s a).1 ≠ d.val
    misses := s.lines.misses.filter fun m => m.die ≠ d
    missed := s.lines.missed.filter fun m => m.die ≠ d
    replies := s.lines.replies.filter fun r => ! onDie d r.core } }
  let s := allPinsDue s
  let s := { s with press := { s.press with engines := s.press.engines.filter fun e => ! onDie d e.2.core } }
  let s := (s.cores.map (·.1)).foldl (fun s c => if onDie d c then setCore s c {} else s) s
  (strandNums s).foldl (fun s n => if dieOf n = d then forgetReads (setStrand s n {}) n true else s) s

/-- The die enters reset. -/
def dieDown (s : State) (d : Fin 4) (reason : BitVec 8) : State :=
  let s := clearDie s d
  let s := { s with daleel := { s.daleel with dies := s.daleel.dies.set d.val .inReset } }
  wakeDie (postEvent s 0x1B reason 0 (w64 d.val) 0) d

/-- Every context with a strand on the die is pre-empted, where its frames suffice. -/
def preemptDie (s : State) (d : Fin 4) : State :=
  (s.lp.resid.filter fun c => decide (ctxState s c = 2) && framesSuffice s c
    && (strandsWhere s fun t => t.resident ∧ t.ctx = c).any fun n => decide (dieOf n = d)).foldl preempt s

/-- The die is drained: no strand is resident, its copies and routines have finished, and its DIRTY lines are written back. -/
def drainedDie (s : State) (d : Fin 4) : Bool :=
  ! ((strandsWhere s fun t => t.resident).any fun n => decide (dieOf n = d))
    && ! (s.cores.any fun k => onDie d k.1 && ! k.2.commands.isEmpty) && ! (s.press.engines.any fun e => onDie d e.2.core)

/-- The die's DIRTY lines are written back, as far as their logs have room. -/
def cleanDie (s : State) (d : Fin 4) : State :=
  (s.lines.tags.filter fun t => decide (homeDie s t.line = d) && t.dirty.isSome).foldl (fun s t => writeBack s t.line) s

/-- DIE_ENTER_RESET: an orderly reset goes on, and ends when the die is drained. -/
def execDieEnterReset (die : Fin 4) (s : State) : Host.Outcome State Fault Refusal :=
  if s.daleel.dies[die.val] ≠ .draining then .next s
  else if ! drainedDie s die then .next (preemptDie s die)
  else
    let s := cleanDie s die
    .next (if s.lines.tags.any fun t => decide (homeDie s t.line = die) && t.dirty.isSome then s else dieDown s die 1)

/-- A fatal reset of a die: what was DIRTY is lost, and the contexts on the die are DEAD (R380). -/
def fatalReset (die : Fin 4) (s : State) : State :=
  if s.daleel.dies[die.val] = .inReset then s
  else
    let cs := ((strandsWhere s fun t => t.resident).filter fun n => decide (dieOf n = die)).map fun n => (getStrand s n).ctx
    let s := dieDown (loseDirty s fun t => decide (homeDie s t.line = die)) die 2
    cs.eraseDups.foldl (fun s c => contextDead s c 5 (w64 die.val) 0) s

/-- FATAL_DIE_RESET. -/
def execFatalDieReset (die : Fin 4) (s : State) : Host.Outcome State Fault Refusal := .next (fatalReset die s)

/-- A die leaves reset: its fields take their reset values; DISABLE comes from the retirement list, and `partsel` is what boot loaded. -/
def dieLeaves (s : State) (d : Fin 4) : State :=
  let s := loadDisable (clearDie s d) (onDie d)
  dieUp { s with lines := { s.lines with partsel := s.lines.partsel.set d.val s.daleel.partselL } } d

/-! ## The mailbox (R376, R377) -/

/-- n bytes, filled with zeros. -/
def padTo (n : Nat) (bs : List Byte) : List Byte := (bs ++ List.replicate n 0).take n

/-- n bytes of MBBUF from offset a. -/
def mailBytes (s : State) (a n : Nat) : List Byte := (List.range n).map fun i => sget 0 s.daleel.mbbuf (a + i)

/-- Bytes written into MBBUF from an offset. -/
def mailWrite (m : Sparse Byte) (a : Nat) : List Byte → Sparse Byte
  | [] => m
  | b :: bs => mailWrite (sset 0 m a b) (a + 1) bs

/-- Four bits per core, laid out as LIST. -/
def nibbles (f : Nat → BitVec 4) : List Byte := (List.range 512).map fun j => BitVec.ofNat 8 ((f (2 * j)).toNat + (f (2 * j + 1)).toNat * 16)

/-- The attestation report (Table 26.8). -/
def report (s : State) : List Byte :=
  let stage (n : Nat) : List Byte := padTo 32 (s.daleel.digests.getD (n - 1) [])
  let slot (k : Nat) : List Byte := match sget [] s.press.slots k with | [] => List.replicate 32 0 | im => padTo 32 (Config.sha256 im)
  let body := mailBytes s 0 32 ++ natToBytes 8 1 ++ natToBytes 8 s.daleel.bootcause.toNat ++ stage 1 ++ stage 2 ++ stage 3
    ++ (List.range 64).flatMap slot ++ nibbles fun c => (getCore s c).disable
  body ++ padTo 64 (Config.attestSign (padTo 32 (Config.sha256 body)))

/-- A write to MBCMD: ignored while STATE is busy. -/
def mailCommand (s : State) (op : BitVec 8) : State :=
  if s.daleel.mbstat = 1 then s
  else { s with daleel := { s.daleel with mbstat := 1, mbop := op, mberr := 0, mblen := 0, mbdirty := false } }

/-- A request ends with an error. -/
def mailError (s : State) (err : BitVec 8) : State :=
  { s with daleel := { s.daleel with mbstat := 3, mberr := err, mblen := 0 }, links := { s.links with msix := s.links.msix ||| 2 } }

/-- A request is done, with its output in MBBUF. -/
def mailDone (s : State) (out : List Byte) : State :=
  { s with
    daleel := { s.daleel with mbstat := 2, mberr := 0, mblen := BitVec.ofNat 16 out.length, mbbuf := mailWrite s.daleel.mbbuf 0 out }
    links := { s.links with msix := s.links.msix ||| 2 } }

/-- The argument of RETIRE and UNRETIRE: core and mask. -/
def retireArg (v : Word) : Option (Nat × BitVec 4) :=
  if v.toNat = bits v 0 10 + bits v 16 4 * 2 ^ 16 ∧ bits v 16 4 ≠ 0 then some (bits v 0 10, BitVec.ofNat 4 (bits v 16 4)) else none

/-- The retirement list with a core's groups changed. -/
def putRetired (s : State) (c : Nat) (f : BitVec 4 → BitVec 4) : State :=
  { s with daleel := { s.daleel with retireList := sset 0 s.daleel.retireList c (f (sget 0 s.daleel.retireList c)) } }

/-- A request that writes the retirement list of core c in SPI NOR, and does `after` besides: a write that fails changes nothing (log 99). -/
def retireRequest (s : State) (c : Nat) (f : BitVec 4 → BitVec 4) (after : State → State) : State :=
  if s.daleel.norFails then mailError { s with daleel := { s.daleel with norFails := false } } 3
  else mailDone (after (putRetired s c f)) []

/-- Daleel resets itself: its mailbox stands as at reset, with no request in progress (R371, log 98). -/
def resetMailbox (s : State) : State :=
  { s with daleel := { s.daleel with mbarg := 0, mblen := 0, mberr := 0, mbstat := 0, mbop := 0, mbbuf := [], mbdirty := false } }

/-- DIERESET's effect: an orderly reset begins, or the die leaves reset. -/
def dieRequest (s : State) (v : Word) : State :=
  let d : Fin 4 := Fin.ofNat 4 v.toNat
  if v.toNat ≠ bits v 0 2 + bits v 8 1 * 2 ^ 8 then mailError s 2
  else if v.getLsbD 8 then
    if s.daleel.dies[d.val] ≠ .up then mailError s 2
    else mailDone (preemptDie { s with daleel := { s.daleel with dies := s.daleel.dies.set d.val .draining } } d) []
  else if s.daleel.stage < 4 ∨ s.daleel.dies[d.val] ≠ .inReset then mailError s 2
  else mailDone (dieLeaves s d) []

/-- Daleel carries out the request (Table 26.7). -/
def serveMail (s : State) : State :=
  let arg := s.daleel.mbarg
  if s.daleel.mbdirty then mailError s 2
  else
    match s.daleel.mbop.toNat with
    | 1 => if arg ≠ 0 then mailError s 2 else mailDone s (report s)
    | 2 => if arg ≠ 0 then mailError s 2 else mailDone s ((List.range 128).map Config.attestKey)
    | 3 =>
      match retireArg arg with
      | none => mailError s 2
      | some (c, m) => retireRequest s c (· ||| m) fun s => if minimal s then s else retireGroups s c m
    | 4 =>
      match retireArg arg with
      | none => mailError s 2
      | some (c, m) => retireRequest s c (· &&& ~~~m) id
    | 5 => if arg ≠ 0 then mailError s 2 else mailDone s (nibbles fun c => sget 0 s.daleel.retireList c)
    | 6 => if minimal s then mailError s 4 else dieRequest s arg
    | _ => mailError s 1

/-- ATTEST, KEY, RETIRE, UNRETIRE and LIST: a write to MBCMD with that OP. -/
def execAttest (s : State) : Host.Outcome State Fault Refusal := .next (byHost 0xE200 (mailCommand · 1) s)
def execKey (s : State) : Host.Outcome State Fault Refusal := .next (byHost 0xE200 (mailCommand · 2) s)
def execRetire (s : State) : Host.Outcome State Fault Refusal := .next (byHost 0xE200 (mailCommand · 3) s)
def execUnretire (s : State) : Host.Outcome State Fault Refusal := .next (byHost 0xE200 (mailCommand · 4) s)
def execList (s : State) : Host.Outcome State Fault Refusal := .next (byHost 0xE200 (mailCommand · 5) s)
/-- DIERESET, whose ARG says whether the die enters or leaves reset. -/
def execDieresetEnter (s : State) : Host.Outcome State Fault Refusal := .next (if s.daleel.mbarg.getLsbD 8 then byHost 0xE200 (mailCommand · 6) s else s)
def execDieresetLeave (s : State) : Host.Outcome State Fault Refusal := .next (if s.daleel.mbarg.getLsbD 8 then s else byHost 0xE200 (mailCommand · 6) s)
/-- MBCMD_UNKNOWN: a write to MBCMD with an OP outside Table 26.7. -/
def execMbcmdUnknown (op : BitVec 8) (s : State) : Host.Outcome State Fault Refusal :=
  .next (if 1 ≤ op.toNat ∧ op.toNat ≤ 6 then s else byHost 0xE200 (mailCommand · op) s)
/-- MAILBOX_DONE. -/
def execMailboxDone (s : State) : Host.Outcome State Fault Refusal := .next (if s.daleel.powered && decide (s.daleel.mbstat = 1) then serveMail s else s)

/-- MBSTAT. -/
def mailStat (s : State) : Word := w64 (s.daleel.mblen.toNat * 2 ^ 16 + s.daleel.mberr.toNat * 2 ^ 8 + s.daleel.mbstat.toNat)

/-- A write into MBBUF or MBARG while a request runs changes its input (R377). -/
def mailTouched (s : State) : State := if s.daleel.mbstat = 1 then { s with daleel := { s.daleel with mbdirty := true } } else s

end Sys2Proof.Machine
end

