-- ==== Sys2Proof/Machine/Scalar.lean ====
section
/-! DEFINITION. The integer instructions of the scalar side: register operations, immediates, bit fields, LUI and ADDPC,
branches and jumps, LI64 and the compressed forms without a memory access (R264 to R274, R284, R357). -/

namespace Sys2Proof.Machine

/-! ## Integer results (R265 to R267) -/

/-- x[d] := v, and the pc moves past a 4-byte instruction. -/
def put (s : State) (d : XReg) (v : Word) : Host.Outcome State Fault Refusal := .next ((s.writeX d v).retire 4)

/-- A condition as 1 or 0. -/
def flag (b : Bool) : Word := if b then 1 else 0

/-- The shift amount B[5:0]. -/
def shamt (b : Word) : Nat := b.toNat % 64

/-- High 64 bits of the signed and of the unsigned product. -/
def mulHigh (a b : Word) : Word := BitVec.ofInt 64 (a.toInt * b.toInt / 2 ^ 64)
def mulHighN (a b : Word) : Word := BitVec.ofNat 64 (a.toNat * b.toNat / 2 ^ 64)

/-- Division with the fixed results of Table 16.2. -/
def divide (a b : Word) : Word := if b = 0 then BitVec.allOnes 64 else BitVec.ofInt 64 (a.toInt.tdiv b.toInt)
def divideN (a b : Word) : Word := if b = 0 then BitVec.allOnes 64 else BitVec.ofNat 64 (a.toNat / b.toNat)
def remainder (a b : Word) : Word := if b = 0 then a else BitVec.ofInt 64 (a.toInt.tmod b.toInt)
def remainderN (a b : Word) : Word := if b = 0 then a else BitVec.ofNat 64 (a.toNat % b.toNat)

/-- Leading and trailing zero bits, counted over n bits. -/
def leadZeros (a : Word) : Nat := if a = 0 then 64 else 63 - Nat.log2 a.toNat
def trailZeros (a : Word) : Nat → Nat
  | 0 => 0
  | n + 1 => if a.getLsbD (64 - (n + 1)) then 0 else 1 + trailZeros a n
/-- Set bits. -/
def countOnes (a : Word) : Nat := popCount 64 a.toNat
/-- The bytes in reverse order. -/
def byteSwap (a : Word) : Word := BitVec.ofNat 64 (bytesToNat (natToBytes 8 a.toNat).reverse)

/-- Bits a field keeps: none when the width is 0 or the offset lies beyond bit 63 (R267). -/
def fieldLen (off w : Nat) : Nat := if 64 ≤ off then 0 else min (min w 64) (64 - off)
/-- BEXT, BEXTS and BINS (R267). -/
def fieldGet (a : Word) (off w : Nat) : Word := BitVec.ofNat 64 (a.toNat / 2 ^ off % 2 ^ fieldLen off w)
def fieldGetS (a : Word) (off w : Nat) : Word :=
  if fieldLen off w = 0 then 0 else BitVec.ofInt 64 (Machine.signed (fieldLen off w) (a.toNat / 2 ^ off))
def fieldPut (d a : Word) (off w : Nat) : Word := setBits d off (fieldLen off w) a.toNat
/-- Offset and width code of the register forms: B[6:0] and B[14:8]. -/
def fieldOff (b : Word) : Nat := b.toNat % 128
def fieldWid (b : Word) : Nat := b.toNat / 256 % 128

/-! ## Register operations (Table 16.1) -/

/-- ADD: A + B. -/
def execAdd (d a b : XReg) (s : State) : Host.Outcome State Fault Refusal :=
  let A := s.readX a
  let B := s.readX b
  put s d (A + B)

/-- SUB: A − B. -/
def execSub (d a b : XReg) (s : State) : Host.Outcome State Fault Refusal :=
  let A := s.readX a
  let B := s.readX b
  put s d (A - B)

/-- AND: A AND B. -/
def execAnd (d a b : XReg) (s : State) : Host.Outcome State Fault Refusal :=
  let A := s.readX a
  let B := s.readX b
  put s d (A &&& B)

/-- OR: A OR B. -/
def execOr (d a b : XReg) (s : State) : Host.Outcome State Fault Refusal :=
  let A := s.readX a
  let B := s.readX b
  put s d (A ||| B)

/-- XOR: A XOR B. -/
def execXor (d a b : XReg) (s : State) : Host.Outcome State Fault Refusal :=
  let A := s.readX a
  let B := s.readX b
  put s d (A ^^^ B)

/-- SLL: A << B[5:0]. -/
def execSll (d a b : XReg) (s : State) : Host.Outcome State Fault Refusal :=
  let A := s.readX a
  let B := s.readX b
  put s d (A <<< shamt B)

/-- SRL: A >> B[5:0], zero fill. -/
def execSrl (d a b : XReg) (s : State) : Host.Outcome State Fault Refusal :=
  let A := s.readX a
  let B := s.readX b
  put s d (A >>> shamt B)

/-- SRA: A >> B[5:0], sign fill. -/
def execSra (d a b : XReg) (s : State) : Host.Outcome State Fault Refusal :=
  let A := s.readX a
  let B := s.readX b
  put s d (A.sshiftRight (shamt B))

/-- ROT: A rotated right by B[5:0]. -/
def execRot (d a b : XReg) (s : State) : Host.Outcome State Fault Refusal :=
  let A := s.readX a
  let B := s.readX b
  put s d (A.rotateRight (shamt B))

/-- SLT: 1 if sA < sB. -/
def execSlt (d a b : XReg) (s : State) : Host.Outcome State Fault Refusal :=
  let A := s.readX a
  let B := s.readX b
  put s d (flag (A.slt B))

/-- SLTN: 1 if nA < nB. -/
def execSltn (d a b : XReg) (s : State) : Host.Outcome State Fault Refusal :=
  let A := s.readX a
  let B := s.readX b
  put s d (flag (A.ult B))

/-- MIN: smaller, signed. -/
def execMin (d a b : XReg) (s : State) : Host.Outcome State Fault Refusal :=
  let A := s.readX a
  let B := s.readX b
  put s d ((if B.slt A then B else A))

/-- MAX: larger, signed. -/
def execMax (d a b : XReg) (s : State) : Host.Outcome State Fault Refusal :=
  let A := s.readX a
  let B := s.readX b
  put s d ((if A.slt B then B else A))

/-- MINN: smaller, unsigned. -/
def execMinn (d a b : XReg) (s : State) : Host.Outcome State Fault Refusal :=
  let A := s.readX a
  let B := s.readX b
  put s d ((if B.ult A then B else A))

/-- MAXN: larger, unsigned. -/
def execMaxn (d a b : XReg) (s : State) : Host.Outcome State Fault Refusal :=
  let A := s.readX a
  let B := s.readX b
  put s d ((if A.ult B then B else A))

/-- MUL: low 64 bits of the product. -/
def execMul (d a b : XReg) (s : State) : Host.Outcome State Fault Refusal :=
  let A := s.readX a
  let B := s.readX b
  put s d (A * B)

/-- MULH: high 64 bits, signed. -/
def execMulh (d a b : XReg) (s : State) : Host.Outcome State Fault Refusal :=
  let A := s.readX a
  let B := s.readX b
  put s d (mulHigh A B)

/-- MULHN: high 64 bits, unsigned. -/
def execMulhn (d a b : XReg) (s : State) : Host.Outcome State Fault Refusal :=
  let A := s.readX a
  let B := s.readX b
  put s d (mulHighN A B)

/-- DIV: signed quotient (R266). -/
def execDiv (d a b : XReg) (s : State) : Host.Outcome State Fault Refusal :=
  let A := s.readX a
  let B := s.readX b
  put s d (divide A B)

/-- DIVN: unsigned quotient (R266). -/
def execDivn (d a b : XReg) (s : State) : Host.Outcome State Fault Refusal :=
  let A := s.readX a
  let B := s.readX b
  put s d (divideN A B)

/-- REM: signed remainder (R266). -/
def execRem (d a b : XReg) (s : State) : Host.Outcome State Fault Refusal :=
  let A := s.readX a
  let B := s.readX b
  put s d (remainder A B)

/-- REMN: unsigned remainder (R266). -/
def execRemn (d a b : XReg) (s : State) : Host.Outcome State Fault Refusal :=
  let A := s.readX a
  let B := s.readX b
  put s d (remainderN A B)

/-- BEXT: field of A (R267). -/
def execBext (d a b : XReg) (s : State) : Host.Outcome State Fault Refusal :=
  let A := s.readX a
  let B := s.readX b
  put s d (fieldGet A (fieldOff B) (fieldWid B))

/-- BEXTS: sign-extended field of A (R267). -/
def execBexts (d a b : XReg) (s : State) : Host.Outcome State Fault Refusal :=
  let A := s.readX a
  let B := s.readX b
  put s d (fieldGetS A (fieldOff B) (fieldWid B))

/-- CLZ: leading zero bits. -/
def execClz (d a : XReg) (s : State) : Host.Outcome State Fault Refusal :=
  let A := s.readX a
  put s d (w64 (leadZeros A))

/-- CTZ: trailing zero bits. -/
def execCtz (d a : XReg) (s : State) : Host.Outcome State Fault Refusal :=
  let A := s.readX a
  put s d (w64 (trailZeros A 64))

/-- POPC: set bits. -/
def execPopc (d a : XReg) (s : State) : Host.Outcome State Fault Refusal :=
  let A := s.readX a
  put s d (w64 (countOnes A))

/-- BSWAP: bytes reversed. -/
def execBswap (d a : XReg) (s : State) : Host.Outcome State Fault Refusal :=
  let A := s.readX a
  put s d (byteSwap A)

/-- BINS: x[d] with a field replaced from A (R267). -/
def execBins (d a b : XReg) (s : State) : Host.Outcome State Fault Refusal :=
  put s d (fieldPut (s.readX d) (s.readX a) (fieldOff (s.readX b)) (fieldWid (s.readX b)))

/-- SEL: A if x[d] is not 0, else B (R268). -/
def execSel (d a b : XReg) (s : State) : Host.Outcome State Fault Refusal := put s d (if s.readX d ≠ 0 then s.readX a else s.readX b)

/-! ## Immediates (R269 to R272, R357) -/

/-- A sign-extended 14-bit immediate. -/
def imm14 (i : BitVec 14) : Word := i.signExtend 64

/-- ADDI: A + I. -/
def execAddi (d a : XReg) (i : BitVec 14) (s : State) : Host.Outcome State Fault Refusal :=
  let A := s.readX a
  let I := imm14 i
  put s d (A + I)

/-- ANDI: A AND I. -/
def execAndi (d a : XReg) (i : BitVec 14) (s : State) : Host.Outcome State Fault Refusal :=
  let A := s.readX a
  let I := imm14 i
  put s d (A &&& I)

/-- ORI: A OR I. -/
def execOri (d a : XReg) (i : BitVec 14) (s : State) : Host.Outcome State Fault Refusal :=
  let A := s.readX a
  let I := imm14 i
  put s d (A ||| I)

/-- XORI: A XOR I. -/
def execXori (d a : XReg) (i : BitVec 14) (s : State) : Host.Outcome State Fault Refusal :=
  let A := s.readX a
  let I := imm14 i
  put s d (A ^^^ I)

/-- SLTI: 1 if sA < I. -/
def execSlti (d a : XReg) (i : BitVec 14) (s : State) : Host.Outcome State Fault Refusal :=
  let A := s.readX a
  let I := imm14 i
  put s d (flag (A.slt I))

/-- SLTNI: 1 if nA < I read as unsigned. -/
def execSltni (d a : XReg) (i : BitVec 14) (s : State) : Host.Outcome State Fault Refusal :=
  let A := s.readX a
  let I := imm14 i
  put s d (flag (A.ult I))

/-- SLLI (R270). -/
def execSlli (d a : XReg) (k : BitVec 6) (s : State) : Host.Outcome State Fault Refusal :=
  let A := s.readX a
  put s d (A <<< k.toNat)

/-- SRLI (R270). -/
def execSrli (d a : XReg) (k : BitVec 6) (s : State) : Host.Outcome State Fault Refusal :=
  let A := s.readX a
  put s d (A >>> k.toNat)

/-- SRAI (R270). -/
def execSrai (d a : XReg) (k : BitVec 6) (s : State) : Host.Outcome State Fault Refusal :=
  let A := s.readX a
  put s d (A.sshiftRight k.toNat)

/-- ROTI (R270). -/
def execRoti (d a : XReg) (k : BitVec 6) (s : State) : Host.Outcome State Fault Refusal :=
  let A := s.readX a
  put s d (A.rotateRight k.toNat)

/-- BEXTI (R271). -/
def execBexti (d a : XReg) (o w : BitVec 7) (s : State) : Host.Outcome State Fault Refusal := put s d (fieldGet (s.readX a) o.toNat w.toNat)

/-- BEXTSI (R271). -/
def execBextsi (d a : XReg) (o w : BitVec 7) (s : State) : Host.Outcome State Fault Refusal := put s d (fieldGetS (s.readX a) o.toNat w.toNat)

/-- BINSI (R271). -/
def execBinsi (d a : XReg) (o w : BitVec 7) (s : State) : Host.Outcome State Fault Refusal :=
  put s d (fieldPut (s.readX d) (s.readX a) o.toNat w.toNat)

/-- LUI: SignExtend(imm19) × 2^13 (R272). -/
def execLui (d : XReg) (i : BitVec 19) (s : State) : Host.Outcome State Fault Refusal := put s d (i.signExtend 64 <<< 13)

/-- ADDPC: pc + SignExtend(imm19) × 2^13 (R272). -/
def execAddpc (d : XReg) (i : BitVec 19) (s : State) : Host.Outcome State Fault Refusal :=
  put s d (s.st.pc.zeroExtend 64 + (i.signExtend 64 <<< 13))

/-- LI64: SignExtend(imm51), an 8-byte instruction (R249, R357). -/
def execLi64 (d : XReg) (i : BitVec 51) (s : State) : Host.Outcome State Fault Refusal := .next ((s.writeX d (i.signExtend 64)).retire 8)

/-! ## Control flow (R273, R274) -/

/-- A branch of len bytes: taken to pc + off × 2, else past itself. -/
def branch (len : Nat) (taken : Bool) (off : VAddr) (s : State) : Host.Outcome State Fault Refusal :=
  .next (if taken then s.jump (s.st.pc + 2 * off) else s.retire len)

/-- BEQ (R273). -/
def execBeq (a b : XReg) (o : BitVec 11) (s : State) : Host.Outcome State Fault Refusal :=
  let A := s.readX a
  let B := s.readX b
  branch 4 (decide (A = B)) (o.signExtend 48) s

/-- BNE (R273). -/
def execBne (a b : XReg) (o : BitVec 11) (s : State) : Host.Outcome State Fault Refusal :=
  let A := s.readX a
  let B := s.readX b
  branch 4 (decide (A ≠ B)) (o.signExtend 48) s

/-- BLT (R273). -/
def execBlt (a b : XReg) (o : BitVec 11) (s : State) : Host.Outcome State Fault Refusal :=
  let A := s.readX a
  let B := s.readX b
  branch 4 (A.slt B) (o.signExtend 48) s

/-- BGE (R273). -/
def execBge (a b : XReg) (o : BitVec 11) (s : State) : Host.Outcome State Fault Refusal :=
  let A := s.readX a
  let B := s.readX b
  branch 4 (! A.slt B) (o.signExtend 48) s

/-- BLTN (R273). -/
def execBltn (a b : XReg) (o : BitVec 11) (s : State) : Host.Outcome State Fault Refusal :=
  let A := s.readX a
  let B := s.readX b
  branch 4 (A.ult B) (o.signExtend 48) s

/-- BGEN (R273). -/
def execBgen (a b : XReg) (o : BitVec 11) (s : State) : Host.Outcome State Fault Refusal :=
  let A := s.readX a
  let B := s.readX b
  branch 4 (! A.ult B) (o.signExtend 48) s

/-- A jump to t that links pc + len, formed in 64 bits (R261, R274), in x[d]: an odd target traps and writes nothing (R242). -/
def jumpTo (len : Nat) (d : XReg) (t : VAddr) (s : State) : Host.Outcome State Fault Refusal :=
  if t.getLsbD 0 then .next (scalarTrap 0x03 (vaWord t) s)
  else .next ((s.writeX d (vaWord s.st.pc + w64 len)).jump t)

/-- JAL (R274). -/
def execJal (d : XReg) (o : BitVec 19) (s : State) : Host.Outcome State Fault Refusal := jumpTo 4 d (s.st.pc + 2 * o.signExtend 48) s

/-- JALR: bits [63:48] of the sum are ignored (R274). -/
def execJalr (d a : XReg) (i : BitVec 14) (s : State) : Host.Outcome State Fault Refusal := jumpTo 4 d (vaOf (s.readX a + imm14 i)) s

/-! ## Compressed forms (R248, R284) -/

/-- x[8 + r] of a 3-bit register field. -/
def creg (r : Fin 8) : XReg := Fin.natAdd 8 (Fin.castLE (by decide) r : Fin 24)

/-- C.ADDI: ADDI d, d, imm in 2 bytes. -/
def execCAddi (d : XReg) (i : BitVec 6) (s : State) : Host.Outcome State Fault Refusal := .next ((s.writeX d (s.readX d + i.signExtend 64)).retire 2)

/-- C.LI: ADDI d, x0, imm in 2 bytes. -/
def execCLi (d : XReg) (i : BitVec 6) (s : State) : Host.Outcome State Fault Refusal := .next ((s.writeX d (i.signExtend 64)).retire 2)

/-- C.SLLI: SLLI d, d, sh in 2 bytes. -/
def execCSlli (d : XReg) (k : BitVec 6) (s : State) : Host.Outcome State Fault Refusal := .next ((s.writeX d (s.readX d <<< k.toNat)).retire 2)

/-- C.BEQZ: BEQ a, x0, off in 2 bytes. -/
def execCBeqz (a : Fin 8) (o : BitVec 8) (s : State) : Host.Outcome State Fault Refusal :=
  branch 2 (decide (s.readX (creg a) = 0)) (o.signExtend 48) s

/-- C.BNEZ: BNE a, x0, off in 2 bytes. -/
def execCBnez (a : Fin 8) (o : BitVec 8) (s : State) : Host.Outcome State Fault Refusal :=
  branch 2 (decide (s.readX (creg a) ≠ 0)) (o.signExtend 48) s

/-- C.J: JAL x0, off; no link is kept. -/
def execCJ (o : BitVec 11) (s : State) : Host.Outcome State Fault Refusal := jumpTo 2 0 (s.st.pc + 2 * o.signExtend 48) s

/-- C.MV: ADD d, x0, s in 2 bytes. -/
def execCMv (d b : XReg) (s : State) : Host.Outcome State Fault Refusal := .next ((s.writeX d (s.readX b)).retire 2)

/-- C.ADD: ADD d, d, s in 2 bytes. -/
def execCAdd (d b : XReg) (s : State) : Host.Outcome State Fault Refusal := .next ((s.writeX d (s.readX d + s.readX b)).retire 2)

/-- C.JR: JALR x0, a, 0 in 2 bytes. -/
def execCJr (a : XReg) (s : State) : Host.Outcome State Fault Refusal := jumpTo 2 0 (vaOf (s.readX a)) s

/-- C.NOP: no effect. -/
def execCNop (s : State) : Host.Outcome State Fault Refusal := .next (s.retire 2)

end Sys2Proof.Machine
end

