-- ==== Sys2Proof/Machine/Mmio.lean ====
section
/-! DEFINITION. The MMIO registers (R7, R70, R230 and the tables of the chapters that own them), the host port (R201, R226, R240), and
the scalar loads and stores (R275, R276, R284). -/

namespace Sys2Proof.Machine

/-! ## Registers by address -/

/-- A port's LNKCTL (Table 14.1). -/
def writeLnkctl (s : State) (k : Nat) (v : Word) : State :=
  let s := if v.getLsbD 0 then enablePort s k else disablePort s k
  if v.getLsbD 1 then retrainPort s k else s

/-- A port's registers. -/
def readPortReg (s : State) (k off : Nat) : Word :=
  let p := getPort s k
  match off with
  | 0x00 => w64 p.enable.toNat
  | 0x08 => w64 (p.stat.toNat * 2 ^ 24 + p.pkind.toNat * 2 ^ 22 + p.pnode.toNat * 2 ^ 12 + p.pport.toNat)
  | 0x10 => p.crcerr
  | 0x18 => p.replay
  | 0x20 => p.peererr
  | _ => 0

/-- What a window register stores (Table 14.4). -/
def windowWord (v : Word) : Word := setBits v 37 9 0

/-- What a word of an export entry stores (Table 14.5). -/
def exportWord (k : Nat) (v : Word) : Word :=
  if k % 2 = 0 then setBits (setBits v 48 2 0) 0 27 0 else w64 (bits v 0 16)

/-- The largest count of pinned tags in any one slice of a die (Table 12.8). -/
def pinMax (s : State) (d : Fin 4) : Nat :=
  (List.finRange 64).foldl (fun m k => max m (s.lines.tags.countP fun t => t.pin.isSome ∧ homeDie s t.line = d ∧ homeSlice s t.line = k)) 0

/-- A write to a register of the blocks with one register, or a few. -/
def writeUnit (o : Nat) (v : Word) : Act Unit :=
  match o with
  | 0x1000 => apply fun s => writeEvbase s v
  | 0x1008 => apply fun s => writeEvsize s v
  | 0x1010 => apply fun s => writeEvhead s v
  | 0x2000 => vunpark v
  | 0x3000 => apply fun s => { s with press := { s.press with rtaddr := setBits v 0 6 0 } }
  | 0x3008 => apply fun s => rtcmd s v
  | 0x4000 => apply fun s => { s with pages := { s.pages with pgva := w64 (bits v 16 32 * 2 ^ 16) } }
  | 0x4008 => apply (pgcmd v)
  | 0x4010 => apply fun s => { s with pages := { s.pages with pgarg := v } }
  | 0x8800 => apply fun s =>
    if s.links.ports.all fun p => decide (p.2.stat = 0) then { s with links := { s.links with nodeid := BitVec.ofNat 10 v.toNat } } else s
  | 0x9100 => apply fun s => { s with links := { s.links with bar2sel := BitVec.ofNat 6 v.toNat } }
  | 0xB000 => apply fun s => { s with links := { s.links with cdesc := setBits v 0 6 0 } }
  | 0xB008 => apply fun s => collectiveBell s v
  | 0xE100 => apply fun s => { s with daleel := { s.daleel with pwrcap := wattsOf v } }
  | 0xE200 => apply fun s => mailCommand s (BitVec.ofNat 8 v.toNat)
  | 0xE208 => apply fun s => mailTouched { s with daleel := { s.daleel with mbarg := v } }
  | _ => pure ()

/-- A read of such a register; EVOVF is cleared by it. -/
def readUnit (o : Nat) (s : State) : Word × State :=
  match o with
  | 0x1000 => (s.ev.evbase, s)
  | 0x1008 => (w64 s.ev.evsize.toNat, s)
  | 0x1010 => (s.ev.evhead, s)
  | 0x1018 => (s.ev.evtail, s)
  | 0x1020 => readEvovf s
  | 0x3000 => (s.press.rtaddr, s)
  | 0x3010 => (rtStat s, s)
  | 0x4000 => (s.pages.pgva, s)
  | 0x4010 => (s.pages.pgarg, s)
  | 0x4018 => (pgStat s, s)
  | 0x8800 => (w64 s.links.nodeid.toNat, s)
  | 0x9100 => (w64 s.links.bar2sel.toNat, s)
  | 0xB000 => (s.links.cdesc, s)
  | 0xB010 => (collectiveStat s, s)
  | 0xE000 => (s.daleel.bootcause, s)
  | 0xE100 => (w64 s.daleel.pwrcap.toNat, s)
  | 0xE108 => (w64 s.daleel.pwrnow.toNat, s)
  | 0xE208 => (s.daleel.mbarg, s)
  | 0xE210 => (mailStat s, s)
  | _ => (0, s)

/-- A write of 8 bytes to the MMIO register at offset o; one that no table names is ignored. -/
def writeMmio (o : Nat) (v : Word) : Act Unit :=
  if 0x5000 ≤ o ∧ o < 0x5200 then apply fun s => writeRegionReg s ((o - 0x5000) / 0x40) (o % 0x40) v
  else if 0x8000 ≤ o ∧ o < 0x8480 then
    (if o % 0x40 = 0 then apply fun s => writeLnkctl s ((o - 0x8000) / 0x40) v else pure ())
  else if 0x9000 ≤ o ∧ o < 0x9080 then
    apply fun s => { s with links := { s.links with windows := sset 0 s.links.windows ((o - 0x9000) / 8) (windowWord v) } }
  else if 0xA000 ≤ o ∧ o < 0xA400 then
    apply fun s => { s with links := { s.links with exports := sset 0 s.links.exports ((o - 0xA000) / 8) (exportWord ((o - 0xA000) / 8) v) } }
  else if 0xF000 ≤ o ∧ o < 0x10000 then
    apply fun s => mailTouched { s with daleel := { s.daleel with mbbuf := mailWrite s.daleel.mbbuf (o - 0xF000) (natToBytes 8 v.toNat) } }
  else if 0x10000 ≤ o ∧ o < 0x14000 then
    (if o % 16 = 0 then apply fun s => retireGroups s ((o - 0x10000) / 16) (BitVec.ofNat 4 v.toNat) else pure ())
  else if 0x100000 ≤ o ∧ o < 0x104000 then apply fun s => writeQueueReg s ((o - 0x100000) / 0x100) (o % 0x100) v
  else writeUnit o v

/-- A read of the MMIO register at offset o; one that no table names reads 0. -/
def readMmio (o : Nat) (s : State) : Word × State :=
  if 0x5000 ≤ o ∧ o < 0x5200 then (readRegionReg (getRegion s ((o - 0x5000) / 0x40)) (o % 0x40), s)
  else if 0x6000 ≤ o ∧ o < 0x6040 then (sget 0 s.lines.plimit ((o - 0x6000) / 8), s)
  else if 0x7000 ≤ o ∧ o < 0x7200 then
    let d := (o - 0x7000) / 0x80
    (if o % 0x80 = 0x40 then w64 (pinMax s (Fin.ofNat 4 d)) else sget 0 s.lines.counters (16 * d + o % 0x80 / 8), s)
  else if 0x8000 ≤ o ∧ o < 0x8480 then (readPortReg s ((o - 0x8000) / 0x40) (o % 0x40), s)
  else if 0x9000 ≤ o ∧ o < 0x9080 then (sget 0 s.links.windows ((o - 0x9000) / 8), s)
  else if 0xA000 ≤ o ∧ o < 0xA400 then (sget 0 s.links.exports ((o - 0xA000) / 8), s)
  else if 0xF000 ≤ o ∧ o < 0x10000 then (w64 (bytesToNat (mailBytes s (o - 0xF000) 8)), s)
  else if 0x10000 ≤ o ∧ o < 0x14000 then
    let c := (o - 0x10000) / 16
    if o % 16 = 0 then (w64 (getCore s c).disable.toNat, s) else readLgce s c
  else if 0x100000 ≤ o ∧ o < 0x104000 then (readQueueReg (getQueue s ((o - 0x100000) / 0x100)) (o % 0x100), s)
  else readUnit o s

/-- REGISTER_WRITE: 8 bytes that the host writes to an MMIO register of the device. -/
def execRegisterWrite (pa : Nat) (v : Word) (s : State) : Host.Outcome State Fault Refusal :=
  wholeEvent (if Config.mmioBase ≤ pa ∧ pa < Config.windowBase ∧ pa % 8 = 0 ∧ hostMay s (pa - Config.mmioBase) then writeMmio (pa - Config.mmioBase) v else pure ()) s

/-! ## The host port (R240) -/

/-- Where a host address leads: device addresses below 2^48 are BAR0's and CXL's own, those above are BAR2's, at an offset. -/
inductive HostPlace
  | mmio (o : Nat)
  | memory (pa : Nat)
  | nothing
  deriving DecidableEq, Repr

/-- BAR0 and CXL.mem reach MMIO, GDDR-7 and the cellar; BAR2 reaches the slot that BAR2SEL selects. -/
def hostPlace (s : State) (a n : Nat) : HostPlace :=
  if 2 ^ 48 ≤ a then
    let sel := s.links.bar2sel.toNat
    let o := a - 2 ^ 48
    if 2 ^ 36 < o + n then .nothing
    else if sel < 3 ∨ (16 ≤ sel ∧ sel < 32) then .memory (sel * 2 ^ 36 + o)
    else .nothing
  else if Config.mmioBase ≤ a ∧ a + n ≤ Config.windowBase then .mmio (a - Config.mmioBase)
  else if inTier 0 a n || inTier 1 a n then .memory a
  else .nothing

/-- Where byte +0x20 of the descriptor of a vine lies, by the tables of its context as they stand (R134, R172). -/
def vineHome (s : State) (x : BitVec 12 × Nat) : Option Nat :=
  let va := (vineEntry s x.1 x.2 + 0x20).toNat
  match (walk 0 0 x.1 va s).1 with
  | .ok f => some ((tlbOf x.1 va f).key va)
  | .error _ => none

/-- Byte +0x20 of a descriptor says that the vine is parked. -/
def parkedByte (b : Byte) : Bool := decide (b.toNat / 16 = 1 ∧ (b.toNat % 8 = vineExtend ∨ b.toNat % 8 = vineCow))

/-- The parked vines, each with the place of its byte +0x20. A descriptor stays parked in memory whatever becomes of its context (R138). -/
def parkedHomes (s : State) : List ((BitVec 12 × Nat) × Nat) :=
  (s.parkedAt.filterMap fun x => (vineHome s x).map fun a => (x, a)).filter fun h => parkedByte (memByte s.mem h.2)

/-- A byte of a host write at a: of a parked vine's byte +0x20 it changes STATE alone (R367). -/
def keepParked (s : State) (homes : List Nat) (a : Nat) (b : Byte) : Byte :=
  if homes.contains a then BitVec.ofNat 8 ((memByte s.mem a).toNat / 8 * 8 + b.toNat % 8) else b

/-- A host store changes CHILDREN or DEPTH of the descriptor whose byte +0x20 lies at a. -/
def overwritesForks (s : State) (pa : Nat) (data : List Byte) (a : Nat) : Bool :=
  let differs (k : Nat) (mask : Byte) : Bool :=
    decide (pa ≤ a + k) && match data[a + k - pa]? with
      | some b => b &&& mask ≠ memByte s.mem (a + k) &&& mask
      | none => false
  differs 2 7 || differs 6 0xFF || differs 7 0xFF

/-- Vines that a host store has unparked are remembered no more, and invalid descriptors until they are FREE again. -/
def forgetParked (s : State) : State :=
  if s.parkedAt = [] ∧ s.broken = [] then s
  else
    { s with
      parkedAt := s.parkedAt.filter fun x => match vineHome s x with | some a => parkedByte (memByte s.mem a) | none => true
      broken := s.broken.filter fun x => match vineHome s x with | some a => decide ((memByte s.mem a).toNat % 8 ≠ vineFree) | none => true }

/-- The bytes of a host store land at their homes; those of a parked vine as R367 has it. -/
def hostLand (pa : Nat) (data : List Byte) (s : State) : State :=
  let parked := parkedHomes s
  let hit := (parked.filter fun h => overwritesForks s pa data h.2).map (·.1)
  let data := (data.zipIdx).map fun b => keepParked s (parked.map (·.2)) (pa + b.2) b.1
  forgetParked { devWrite s pa data with broken := s.broken.filter (fun x => ! hit.contains x) ++ hit }

/-- A context that enters FREE: its pins, its frames and what waits for it are gone (R48, R209); its launch entries and its vines'
descriptors stay as they are (Table 5.3, R138). -/
def contextFree (s : State) (ctx : BitVec 12) : State :=
  let s := dropPins (holdState s ctx 0) ctx
  { s with
    lp := { s.lp with saved := s.lp.saved.filter fun v => v.ctx ≠ ctx, order := s.lp.order.filter (· ≠ ctx) }
    waitRel := s.waitRel.filter fun r => r.2.1 ≠ ctx
    waitSvc := s.waitSvc.filter fun r => r.1 ≠ ctx
    cows := s.cows.filter fun r => r.1 ≠ ctx }

/-- Contexts whose descriptor a write of n bytes at a may change. -/
def touchedContexts (s : State) (a n : Nat) : List (BitVec 12) :=
  ((List.range (n / 128 + 2)).filterMap fun k =>
    let c := a / 128 + k
    let d := c * 128 - s.lp.ctxTable
    if s.lp.ctxTable ≤ c * 128 ∧ d / 128 < 4096 ∧ c * 128 < a + n then some (BitVec.ofNat 12 (d / 128)) else none)

/-- The host has written STATE of a context, or its descriptor beside it: FREE becomes IDLE with 1, and IDLE, SAVED and DEAD become FREE
with 0 (Table 3.2). Any other value, for which the table has no event, moves nothing (log 75). -/
def hostMoves (s : State) (ctx : BitVec 12) : State :=
  let old := ctxState s ctx
  let new := bits (descWord s ctx 0) 0 4
  if old = 0 ∧ new = 1 then holdState s ctx 1
  else if (old = 1 ∨ old = 4 ∨ old = 6) ∧ new = 0 then contextFree s ctx
  else s

/-- An access of the host that the device reports through AER (R240, R380). -/
def reportAer (write : Bool) (addr bytes : Nat) (s : State) : State :=
  { s with links := { s.links with aer := s.links.aer ++ [{ write, addr, bytes }] } }

/-- A host write to device memory: applied at the homes; one to a home in reset is dropped and reported, and a held write waits (R186,
R204, R380). -/
def hostStore (pa : Nat) (data : List Byte) : Act Unit := do
  let s ← get
  if rangeInReset s pa data.length then apply (reportAer true pa data.length)
  else
    heldGuard pa data.length
    apply fun s => (touchedContexts s pa data.length).foldl hostMoves (hostLand pa data s)

/-! ## Inbound requests (R186, R190, R204, R226) -/

/-- A posted write of the host. -/
def hostWrites (pa : Nat) (data : List Byte) : Act Unit := do
  let s ← get
  match hostPlace s pa data.length with
  | .mmio o => if hostMay s o && decide (data.length = 8 ∧ o % 8 = 0) then writeMmio o (w64 (bytesToNat data)) else pure ()
  | .memory a => if hostMay s 0 then hostStore a data else pure ()
  | .nothing => pure ()

/-- A read of the host, of each line at its home; all ones where nothing answers, which is reported for a home in reset. Poisoned data
return, marked so on the link. -/
def hostReads (pa n : Nat) (s : State) : State :=
  match hostPlace s pa n with
  | .mmio o =>
    if hostMay s o && decide (n = 8 ∧ o % 8 = 0) then let (v, s) := readMmio o s; answer s (natToBytes 8 v.toNat)
    else answer s (allOnes n)
  | .memory a =>
    if ! hostMay s 0 then answer s (allOnes n)
    else if rangeInReset s a n then answer (reportAer false a n s) (allOnes n)
    else
      let (bs, s') := portRead s a n
      let s' := answer s' bs
      { s' with links := { s'.links with poisoned := poisonedAt s a n } }
  | .nothing => answer s (allOnes n)

/-- The link a request came by: the host's, or a port's. -/
def Inbound.source : Inbound → Nat
  | .host .. | .hostRead .. => 18
  | .peer k .. => k.val

/-- What a request does. -/
def Inbound.act : Inbound → Act Unit
  | .host pa data => hostWrites pa data
  | .hostRead pa n => apply (hostReads pa n)
  | .peer k node x off op => servePeer k.val node x.val off op

/-- Requests are done in order; a held write waits, and with it what came behind it by its link: none passes it (R226). -/
def serveInbound : List Inbound → List Nat → State → State
  | [], _, s => s
  | r :: t, held, s =>
    let wait (s : State) : State := { s with links := { s.links with inbound := s.links.inbound ++ [r] } }
    if held.contains r.source then serveInbound t held (wait s)
    else
      match Act.on r.act s with
      | (.ok _, s') => serveInbound t held s'
      | (.error _, s') => serveInbound t (r.source :: held) (wait (s'.lines.writesHeld.foldl reportHeld (keepWalks s s')))

/-- A request arrives behind those that wait. -/
def arrives (r : Inbound) (s : State) : State :=
  serveInbound (s.links.inbound ++ [r]) [] { s with links := { s.links with inbound := [] } }

/-- The requests that wait are tried again. -/
def retryInbound (s : State) : State :=
  if s.links.inbound = [] then s else serveInbound s.links.inbound [] { s with links := { s.links with inbound := [] } }

/-- HOST_POSTED_WRITE: in the order the link delivers them. -/
def execHostPostedWrite (pa : Nat) (data : List Byte) (s : State) : Host.Outcome State Fault Refusal := .next (arrives (.host pa data) s)

/-- HOST_READ. -/
def execHostRead (pa : Nat) (n : Nat) (s : State) : Host.Outcome State Fault Refusal := .next (arrives (.hostRead pa n) s)

/-- PEER_REQUEST: its flit has been accepted by a port that is ACTIVE. -/
def execPeerRequest (port : Fin 18) (snode : BitVec 10) (x : Fin 64) (off : Nat) (op : PeerOp) (s : State) : Host.Outcome State Fault Refusal :=
  .next (if (getPort s port.val).stat = 2 && inInbox s port.val 1 snode then
    arrives (.peer port snode x off op) (takeInbox s port.val 1 snode)
  else s)

/-- CXL_SNOOP: the device holds no copy of host memory, so the answer is invalid. -/
def execCxlSnoop (_line : Nat) (s : State) : Host.Outcome State Fault Refusal := .next (answer s [])

/-- HOST_READ_COMPLETION: the oldest read of host memory for a strand, or for a copy of it, is answered. -/
def execHostReadCompletion (n : Fin 4096) (v : Word) (s : State) : Host.Outcome State Fault Refusal :=
  .next (match s.links.hostReads.find? fun r => decide (r.strand = n.val) with
    | none => s
    | some r => deliverReply { s with links := { s.links with hostReads := s.links.hostReads.erase r } } n.val r.copy r.va (some (w64 (v.toNat % 2 ^ (8 * r.bytes)))))

/-! ## Scalar loads and stores (R275, R276) -/

/-- n bytes loaded at an address. -/
def loadAt (va : VAddr) (n : Nat) : Act Nat := do
  aligned va n
  let e ← translate .load va
  let pa := e.key va.toNat
  if e.tier = 3 then
    if n ≠ 8 then trap 0x05 (vaWord va)
    if isWindow pa then pure (← windowRead va pa).toNat
    else pure (← lift (readMmio (pa - Config.mmioBase))).toNat
  else pure (bytesToNat (← readThroughL1 e va pa n))

/-- A load of len bytes of code. -/
def loadInstr (len : Nat) (d : XReg) (va : VAddr) (n : Nat) (ext : Nat → Word) (s : State) : Host.Outcome State Fault Refusal :=
  scalar len (do
    let v ← loadAt va n
    apply fun s => s.writeX d (ext v)) s

/-- A store of len bytes of code. A store to a register is retired before the register's effect, which may trap its strand. -/
def storeInstr (len : Nat) (va : VAddr) (n : Nat) (v : Word) (s : State) : Host.Outcome State Fault Refusal :=
  finish s (Act.on (do
    aligned va n
    let e ← translate .store va
    let pa := e.key va.toNat
    if e.tier = 3 then
      if n ≠ 8 then trap 0x05 (vaWord va)
      if isWindow pa then
        windowWrite s.cur.val s.st.ctx false (vaWord va) pa (natToBytes 8 v.toNat)
        apply fun s => s.retire len
      else
        apply fun s => s.retire len
        writeMmio (pa - Config.mmioBase) v
    else
      storeThrough e va pa (natToBytes n v.toNat)
      apply fun s => s.retire len) s)

/-- Bytes and extension of a size code of LD. -/
def ldBytes : LdSize → Nat
  | .b | .bs => 1
  | .h | .hs => 2
  | .w | .ws => 4
  | .d => 8
def ldExtend (z : LdSize) (v : Nat) : Word :=
  match z with
  | .bs => BitVec.ofInt 64 (signed 8 v)
  | .hs => BitVec.ofInt 64 (signed 16 v)
  | .ws => BitVec.ofInt 64 (signed 32 v)
  | _ => w64 v

/-- Address of a format M form: the offset counts accesses. -/
def memAddr (s : State) (b : XReg) (i : BitVec 11) (n : Nat) : VAddr := vaOf (s.readX b + BitVec.ofInt 64 (i.toInt * n))

/-- LD. -/
def execLd (z : LdSize) (d b : XReg) (i : BitVec 11) (s : State) : Host.Outcome State Fault Refusal :=
  loadInstr 4 d (memAddr s b i (ldBytes z)) (ldBytes z) (ldExtend z) s

/-- ST. -/
def execSt (z : Sz) (v b : XReg) (i : BitVec 11) (s : State) : Host.Outcome State Fault Refusal :=
  storeInstr 4 (memAddr s b i (szBytes z)) (szBytes z) (s.readX v) s

/-- Address of C.LD and C.ST. -/
def compactAddr (s : State) (b : Fin 8) (o : BitVec 5) : VAddr := vaOf (s.readX (creg b) + w64 (8 * o.toNat))

/-- C.LD. -/
def execCLd (d b : Fin 8) (o : BitVec 5) (s : State) : Host.Outcome State Fault Refusal :=
  loadInstr 2 (creg d) (compactAddr s b o) 8 w64 s

/-- C.ST. -/
def execCSt (v b : Fin 8) (o : BitVec 5) (s : State) : Host.Outcome State Fault Refusal :=
  storeInstr 2 (compactAddr s b o) 8 (s.readX (creg v)) s

end Sys2Proof.Machine
end

