-- ==== Sys2Proof/Machine/System.lean ====
section
/-! DEFINITION. The SYS instructions: CSRs (R52, R53, R347, R348), traps, returns and ending a context (R349 to R351), YIELD (R352),
CACHEOP (R354), TLBINV (R355) and WAITEV (R356), with the events that end a wait. -/

namespace Sys2Proof.Machine

/-! ## CSRs (Table 3.4) -/

/-- The CSR is in Table 3.4. -/
def csrListed (c : BitVec 12) : Bool :=
  let n := c.toNat
  decide (n ≤ 0x003 ∨ (0x010 ≤ n ∧ n ≤ 0x01D) ∨ (0x020 ≤ n ∧ n ≤ 0x024) ∨ n = 0x030 ∨ (0x100 ≤ n ∧ n ≤ 0x104)
    ∨ n = 0x110 ∨ n = 0x111 ∨ (0x120 ≤ n ∧ n ≤ 0x12F) ∨ (0x200 ≤ n ∧ n ≤ 0x208) ∨ (0xC00 ≤ n ∧ n ≤ 0xC03))

/-- Mode P. -/
def csrPriv (c : BitVec 12) : Bool := decide (0x100 ≤ c.toNat ∧ c.toNat < 0xC00)

/-- Drain Y. -/
def csrDrains (c : BitVec 12) : Bool :=
  let n := c.toNat
  decide (n = 0x012 ∨ (0x014 ≤ n ∧ n ≤ 0x019) ∨ (0x020 ≤ n ∧ n ≤ 0x024) ∨ n = 0x030)

/-- Mask CSR k of the partition that `partsel` shows (Table 12.2). -/
def maskKey (s : State) (k : Nat) : Nat := 8 * s.lines.partsel[(curDie s).val].toNat + k

/-- The value of a CSR. -/
def csrValue (s : State) (c : BitVec 12) : Word :=
  let k := s.st.csr
  let t := s.st.trap
  match c.toNat with
  | 0x000 => s.st.item.wid
  | 0x001 => s.st.item.wfld
  | 0x002 => w64 s.cur.val
  | 0x003 => s.st.ctx.zeroExtend 64
  | 0x010 => k.vl
  | 0x011 => k.vcfg
  | 0x012 => k.vstart
  | 0x013 => vaWord (vcpOf s.st)
  | 0x014 => k.vdirty.zeroExtend 64
  | 0x015 => k.vrnd.zeroExtend 64
  | 0x016 => k.vsat.zeroExtend 64
  | 0x017 => k.vcarry.zeroExtend 64
  | 0x018 => k.amax.zeroExtend 64
  | 0x019 => k.fexc.zeroExtend 64
  | 0x01A => k.frnd.zeroExtend 64
  | 0x01B => k.vshare.zeroExtend 64
  | 0x01C => k.vlmax
  | 0x01D => (laneMask (getCore s (curCore s))).zeroExtend 64
  | 0x020 => k.dcfg
  | 0x021 => k.dstat
  | 0x022 => k.dpivtau.zeroExtend 64
  | 0x023 => k.dpivcnt.zeroExtend 64
  | 0x024 => k.tstat.zeroExtend 64
  | 0x030 => k.sqinfo
  | 0x100 => t.tvec
  | 0x101 => t.tcause.zeroExtend 64
  | 0x102 => t.tval
  | 0x103 => t.tpc
  | 0x104 => t.tlane.zeroExtend 64
  | 0x110 => w64 (ctxRoot s s.st.ctx)
  | 0x111 => (curDomain s).zeroExtend 64
  | 0x200 => s.lines.partsel[(curDie s).val].zeroExtend 64
  | 0xC00 => s.cycle
  | 0xC01 => k.retired
  | 0xC02 => k.ebeats
  | 0xC03 => sget 0 s.lines.sample (curDie s).val
  | n =>
    if 0x120 ≤ n ∧ n ≤ 0x12F then ((getCore s (curCore s)).slots.toList.getD (n - 0x120) 0).zeroExtend 64
    else if 0x201 ≤ n ∧ n ≤ 0x208 then sget 0 s.lines.masks (maskKey s (n - 0x201))
    else 0

/-- `tlane`: ELEM and LANE; the bits between them are reserved. -/
def tlaneMask : BitVec 30 := 0x3FFF001F
/-- A `slot` CSR: YIELD, OWNED and STRAND; bit 2 is reserved. -/
def slotMask : BitVec 5 := 0b11011

/-- A write of a CSR by the access codes of Table 0.2 and R53: RO CSRs and RES bits ignore it. -/
def csrWrite (c : BitVec 12) (v : Word) (s : State) : State :=
  let trapCsr (f : TrapCsrs → TrapCsrs) : State := { s with st := { s.st with trap := f s.st.trap } }
  match c.toNat with
  | 0x010 => s.modCsr fun k => { k with vl := if v.toNat ≤ k.vlmax.toNat then v else k.vlmax }
  | 0x012 => s.modCsr fun k => { k with vstart := v }
  | 0x014 => s.modCsr fun k => { k with vdirty := v.truncate 32 }
  | 0x015 => s.modCsr fun k => { k with vrnd := v.truncate 2 }
  | 0x016 => s.modCsr fun k => { k with vsat := v.truncate 1 }
  | 0x017 => s.modCsr fun k => { k with vcarry := v.truncate 32 }
  | 0x018 => s.modCsr fun k => { k with amax := v.truncate 31 }
  | 0x019 => s.modCsr fun k => { k with fexc := v.truncate 5 }
  | 0x01A => s.modCsr fun k => { k with frnd := v.truncate 3 }
  | 0x01B => s.modCsr fun k => { k with vshare := if v.truncate 4 = (0 : BitVec 4) then 1 else v.truncate 4 }
  | 0x021 => s.modCsr fun k => { k with dstat := v }
  | 0x022 => s.modCsr fun k => { k with dpivtau := v.truncate 32 }
  | 0x023 => s.modCsr fun k => { k with dpivcnt := v.truncate 32 }
  | 0x100 => trapCsr fun t => { t with tvec := v }
  | 0x101 => trapCsr fun t => { t with tcause := v.truncate 10 }
  | 0x102 => trapCsr fun t => { t with tval := v }
  | 0x103 => trapCsr fun t => { t with tpc := v }
  | 0x104 => trapCsr fun t => { t with tlane := v.truncate 30 &&& tlaneMask }
  | 0x200 => { s with lines := { s.lines with partsel := s.lines.partsel.set (curDie s).val (v.truncate 3) } }
  | n =>
    if 0x120 ≤ n ∧ n ≤ 0x12F then
      modCore s (curCore s) fun k => { k with slots := k.slots.set (n % 16) (v.truncate 5 &&& slotMask) (Nat.mod_lt n (by decide)) }
    else if 0x201 ≤ n ∧ n ≤ 0x208 ∧ ! s.lines.released then
      { s with lines := { s.lines with masks := sset 0 s.lines.masks (maskKey s (n - 0x201)) (maskWord v.toNat) } }
    else s

/-- The checks and waits of an access to a CSR (R52, R347). -/
def csrGuard (i : Instr) (c : BitVec 12) (reads : Bool) : Act Unit := do
  if ! csrListed c then illegal i
  if csrPriv c && ! (← get).st.priv then trap 0x05 (c.zeroExtend 64)
  if csrDrains c then drained
  if decide (c = 0x021) && reads && ! (← get).st.signals.isEmpty then throw .again

/-- CSRRD. -/
def execCsrrd (d : XReg) (c : BitVec 12) (s : State) : Host.Outcome State Fault Refusal :=
  scalar 4 (do
    csrGuard (.csrrd d c) c true
    apply fun s => s.writeX d (csrValue s c)) s

/-- CSRWR. -/
def execCsrwr (c : BitVec 12) (a : XReg) (s : State) : Host.Outcome State Fault Refusal :=
  scalar 4 (do
    csrGuard (.csrwr c a) c false
    apply fun s => csrWrite c (s.readX a) s) s

/-- CSRXCH: x[a] is read before x[d] is written. -/
def execCsrxch (d : XReg) (c : BitVec 12) (a : XReg) (s : State) : Host.Outcome State Fault Refusal :=
  scalar 4 (do
    csrGuard (.csrxch d c a) c true
    apply fun s => (csrWrite c (s.readX a) s).writeX d (csrValue s c)) s

/-! ## Traps, returns and ending (R350 to R352) -/

/-- A privileged form in user mode traps with cause 0x01 (R251, R349). -/
def privileged (i : Instr) : Act Unit := do
  if ! (← get).st.priv then illegal i

/-- TRAPI: cause 0x0C by the scalar path, `tpc` the next instruction; it counts as retired (R348). -/
def execTrapi (k : BitVec 8) (s : State) : Host.Outcome State Fault Refusal :=
  finish s (Act.on (do
    drained
    apply fun s => enterTrap 0x0C (k.zeroExtend 64) (s.st.pc + 4) s.st.csr.vstart
      ({ s with st := s.st.restart s.cycle }.modCsr fun c => { c with retired := c.retired + 1 })) s)

/-- SYSRET. -/
def execSysret (s : State) : Host.Outcome State Fault Refusal :=
  finish s (Act.on (do
    privileged .sysret
    drained
    let s ← get
    if s.st.trap.tpc.getLsbD 0 then trap 0x03 s.st.trap.tpc
    apply leaveTrap) s)

/-- HALT: the context goes to DEAD with REASON 4, VALUE x10 and ADDR `tpc`. -/
def execHalt (s : State) : Host.Outcome State Fault Refusal :=
  finish s (Act.on (do
    privileged .halt
    apply fun s => contextDead (s.retire 4) s.st.ctx 4 (s.readX 10) s.st.trap.tpc) s)

/-- YIELD leaves a mark that the vector sequencer's next visit observes (R352). -/
def execYield (s : State) : Host.Outcome State Fault Refusal :=
  scalar 4 (apply fun s => { s with st := { s.st with yielded := true } }) s

/-! ## CACHEOP (R354) -/

/-- `cacheop prefetch`: it never traps. -/
def execCacheopPrefetch (a : XReg) (s : State) : Host.Outcome State Fault Refusal :=
  scalar 4 (do
    let ctx := s.st.ctx
    let va := vaOf (s.readX a)
    match ← lift (fun s => translateAt (.strand s.cur.val) (curCore s) ctx va.toNat s) with
    | .waits => throw .again
    | .fault _ => pure ()
    | .found e =>
      let l := lineOf (e.key va.toNat)
      if pageAllows .load s.st.priv e && isLine l && ! homeInReset s l then
        apply fun s => homeRead s l (curDie s) e.dedup (curDomain s)
        if ! readPoisoned (← get) l 128 then
          apply fun s => allocL1 (countWire s (curDie s) l) (curCore s) { addr := l, data := lineData s l }) s

/-- A trap of the action names the whole of an operand. -/
def naming {α : Type} (w : Word) (a : Act α) : Act α := do
  let (r, s) := Act.on a (← get)
  set s
  match r with
  | .ok v => pure v
  | .error (.trap c _) => trap c w
  | .error x => throw x

/-- A CACHEOP that answers a code in x10; the pages that hold a line which it pins or unpins have their PINS due (R184). -/
def cacheOp (a : XReg) (r : CacheReq) (s : State) : Host.Outcome State Fault Refusal :=
  scalar 4 (naming (s.readX a) do
    let va := vaOf (s.readX a)
    let e ← translate .load va
    let l := lineOf (e.key va.toNat)
    if ! isLine l then trap 0x05 (vaWord va)
    homeGuard va l
    match ← lift (fun s => cacheAtHome s l r s.st.ctx (curDie s) e.dedup (curDomain s)) with
    | none => throw (.park 0x8 .held)
    | some c => apply fun s => (if r = .pin ∨ r = .unpin then linePinsDue s l else s).writeX 10 (w64 c)) s

/-- `cacheop pin`. -/
def execCacheopPin (a : XReg) (s : State) : Host.Outcome State Fault Refusal := cacheOp a .pin s
/-- `cacheop unpin`. -/
def execCacheopUnpin (a : XReg) (s : State) : Host.Outcome State Fault Refusal := cacheOp a .unpin s
/-- `cacheop flush`. -/
def execCacheopFlush (a : XReg) (s : State) : Host.Outcome State Fault Refusal := cacheOp a .flush s
/-- `cacheop invalidate`. -/
def execCacheopInvalidate (a : XReg) (s : State) : Host.Outcome State Fault Refusal := cacheOp a .invalidate s

/-! ## TLBINV (R355, R182) -/

/-- `tlbinv page`. -/
def execTlbinvPage (a : XReg) (s : State) : Host.Outcome State Fault Refusal :=
  scalar 4 (do
    privileged (.tlbinvPage a)
    let va := (vaOf (s.readX a)).toNat
    apply fun s => shootPage s s.st.ctx va
    let s ← get
    if usesOld s s.st.ctx (fun e => e.maps s.st.ctx va) (fun x => decide (x / 2 ^ 26 = va / 2 ^ 26)) then throw .again) s

/-- `tlbinv all`. -/
def execTlbinvAll (s : State) : Host.Outcome State Fault Refusal :=
  scalar 4 (do
    privileged .tlbinvAll
    apply fun s => shootdown s s.st.ctx fun _ => true
    let s ← get
    if usesOld s s.st.ctx (fun _ => true) (fun _ => true) then throw .again) s

/-! ## WAITEV (R356) -/

/-- `waitev xd, timer`: the deadline is x[d]. -/
def execWaitevTimer (d : XReg) (s : State) : Host.Outcome State Fault Refusal :=
  scalar 4 (do
    let s ← get
    let t := s.readX d
    if s.cycle.toNat < t.toNat then throw (.park 0x9 (.timer t))
    apply fun s => s.writeX d s.cycle) s

/-- The owner that a slot's word names: its OWNED and STRAND (Table 4.7). -/
def wordOwner (v : BitVec 5) : Option (Fin 4) := if v.getLsbD 3 then some (Fin.ofNat 4 v.toNat) else none

/-- The owner of a slot. -/
def slotOwner (k : Core) (i : Fin 16) : Option (Fin 4) := wordOwner k.slots[i]

/-- The strand's number on its core. -/
def onCore (n : Nat) : Fin 4 := Fin.ofNat 4 n

/-- The strand owns a slot. -/
def ownsSlot (s : State) (n : Nat) : Bool :=
  let k := getCore s (coreOf n)
  (List.finRange 16).any fun i => slotOwner k i = some (onCore n)

/-- `waitev xd, slot`. -/
def execWaitevSlot (d : XReg) (s : State) : Host.Outcome State Fault Refusal :=
  scalar 4 (do
    let s ← get
    match s.st.slotWoke with
    | some k => apply fun s => { s with st := { s.st with slotWoke := none } }.writeX d (w64 k.val)
    | none =>
      if ownsSlot s s.cur.val then throw (.park 0xA .slot)
      else apply fun s => s.writeX d (BitVec.allOnes 64)) s

/-- A WAITEV of strand n whose deadline has passed ends. -/
def timerDue (s : State) (t : Strand) : Bool :=
  match t.wait with
  | .timer w => decide (w.toNat ≤ s.cycle.toNat)
  | _ => false

/-- Every WAITEV whose deadline has passed ends. -/
def wakeTimers (s : State) : State := modStrandsWhere s (timerDue s) (unpark s.cycle)

/-- WAITEV_DEADLINE. -/
def execWaitevDeadline (n : Fin 4096) (s : State) : Host.Outcome State Fault Refusal :=
  .next (if timerDue s (getStrand s n.val) then modStrand s n.val (unpark s.cycle) else s)

/-- SLOT_BOUNDARY (R77): the next slot of the core begins, under the owner that its word now names (R53), and a strand that owns
it and waits for it wakes. -/
def execSlotBoundary (core : Fin 1024) (s : State) : Host.Outcome State Fault Refusal :=
  let k := getCore s core.val
  let i := k.curSlot + 1
  let s := setCore s core.val { k with curSlot := i, slotNow := k.slots[i] }
  .next (match slotOwner k i with
    | some j =>
      let n := 4 * core.val + j.val
      if (getStrand s n).wait = .slot then modStrand s n fun t => { unpark s.cycle t with slotWoke := some i } else s
    | none => s)

end Sys2Proof.Machine
end

