-- ==== Sys2Proof/Machine/Uses.lean ====
section
/-! DEFINITION. What registers an instruction reads and writes, and the words of the register files in which uncorrectable errors stand:
the instruction that reads one faults, and one that writes it whole clears it (R56, R371, log 98). -/

namespace Sys2Proof.Machine

/-- The registers of an instruction: those it reads, apart from the scalars that a VIQ entry captures, those of vectors and masks
it writes, and whether it skips inactive elements. -/
structure Uses where
  x      : List XReg := []
  v      : List VReg := []
  m      : List MReg := []
  vd     : List VReg := []
  md     : List MReg := []
  masked : Bool := false
  deriving DecidableEq, Repr

/-- n vector registers from v on. -/
def vregsFrom (v : VReg) (n : Nat) : List VReg := (List.range n).map fun k => Fin.ofNat 32 (v.val + k)

/-- The vector register of a second operand. -/
def secondRegs (b : VSrc) : List VReg := (secondReg b).toList

/-- An elementwise form: it reads its operands, with vd too where `acc`. -/
def formUses (m acc : Bool) (d a : VReg) (b : VSrc) : Uses :=
  { v := (if acc then [d] else []) ++ a :: secondRegs b, m := if m then [0] else [], vd := [d], masked := m }

/-- A form of one operand. -/
def unaryUses (m : Bool) (d a : VReg) : Uses := { v := [a], m := if m then [0] else [], vd := [d], masked := m }

/-- A load, and a store, of some registers beside an index. -/
def loadUses (m : Bool) (ds is : List VReg) : Uses := { v := is, m := if m then [0] else [], vd := ds, masked := m }
def storeUses (m : Bool) (vs : List VReg) : Uses := { v := vs, m := if m then [0] else [], masked := m }

/-- The registers of a scalar instruction, and of one that the scalar side runs on vector registers. -/
def scalarUses (i : Instr) : Uses :=
  match i with
  | .add _ a b | .sub _ a b | .and _ a b | .or _ a b | .xor _ a b | .sll _ a b | .srl _ a b | .sra _ a b | .rot _ a b | .slt _ a b
  | .sltn _ a b | .min _ a b | .max _ a b | .minn _ a b | .maxn _ a b | .mul _ a b | .mulh _ a b | .mulhn _ a b | .div _ a b
  | .divn _ a b | .rem _ a b | .remn _ a b | .bext _ a b | .bexts _ a b | .fadd _ _ a b | .fsub _ _ a b | .fmul _ _ a b
  | .fdiv _ _ a b | .fmin _ _ a b | .fmax _ _ a b | .fcmp _ _ _ a b | .amo _ _ _ _ a b | .sqopen _ a b | .sqres _ a b
  | .sqwait _ _ a b | .sqld _ _ a b | .sqfork _ a b | .sqtrim _ a b | .btest _ _ a b | .qapp _ a b => { x := [a, b] }
  | .bins d a b | .sel d a b | .fma _ d a b | .fnma _ d a b | .cas _ _ d a b => { x := [d, a, b] }
  | .clz _ a | .ctz _ a | .popc _ a | .bswap _ a | .addi _ a _ | .andi _ a _ | .ori _ a _ | .xori _ a _ | .slti _ a _ | .sltni _ a _
  | .slli _ a _ | .srli _ a _ | .srai _ a _ | .roti _ a _ | .bexti _ a _ _ | .bextsi _ a _ _ | .jalr _ a _ | .ld _ _ a _
  | .fsqrt _ _ a | .fclass _ _ a | .fcvt _ _ _ a | .csrxch _ _ a | .sqlen _ _ a | .vcfg _ a | .vsetvl _ a | .cMv _ a => { x := [a] }
  | .binsi d a _ _ | .cAdd d a => { x := [d, a] }
  | .cAddi d _ | .cSlli d _ | .waitevTimer d => { x := [d] }
  | .beq a b _ | .bne a b _ | .blt a b _ | .bge a b _ | .bltn a b _ | .bgen a b _ | .st _ a b _ | .sqcmt _ a b | .binit _ a b
  | .bwait _ a b | .signal _ a b => { x := [a, b] }
  | .csrwr _ a | .cacheopPrefetch a | .tlbinvPage a | .sqdrop a | .cJr a => { x := [a] }
  | .cacheopPin a | .cacheopUnpin a | .cacheopFlush a | .cacheopInvalidate a => { x := [a] }
  | .sqst _ a b c => { x := [a, b, c] }
  | .barr _ _ a q => { x := [a], m := [q] }
  | .barrG _ _ q => { m := [q] }
  | .qwait a b => { x := [a, b] }
  | .halt => { x := [10] }
  | .mpop m _ a | .mfirst m _ a => { m := a :: if m then [0] else [], masked := m }
  | .vmvx _ a b => { x := match b with | .vx r => [r] | .vi _ => [], v := [a] }
  | .vred m true _ _ a => { v := [a], m := if m then [0] else [], masked := m }
  | .ssoft _ b a => { x := [b, Fin.ofNat 32 (b.val + 1)], v := [a] }
  | .cLd _ b _ => { x := [creg b] }
  | .cSt a b _ => { x := [creg a, creg b] }
  | .cBeqz a _ | .cBnez a _ => { x := [creg a] }
  | _ => {}

/-- The scalar registers an entry captures: the lower field of the encoding first (R54). -/
def operandRegs (i : Instr) : XReg × XReg :=
  match i with
  | .vadd _ _ _ _ (.vx r) | .vsub _ _ _ _ (.vx r) | .vrsub _ _ _ _ (.vx r) | .vmul _ _ _ _ (.vx r)
  | .vmulh _ _ _ _ (.vx r) | .vdiv _ _ _ _ (.vx r) | .vrem _ _ _ _ (.vx r) | .vmin _ _ _ _ (.vx r)
  | .vmax _ _ _ _ (.vx r) | .vand _ _ _ _ (.vx r) | .vor _ _ _ _ (.vx r) | .vxor _ _ _ _ (.vx r)
  | .vsll _ _ _ _ (.vx r) | .vsrl _ _ _ _ (.vx r) | .vsra _ _ _ _ (.vx r) | .vfma _ _ _ _ (.vx r)
  | .vfnma _ _ _ _ (.vx r) | .vsel _ _ _ (.vx r) | .vaddc _ _ _ _ _ (.vx r) | .vsubb _ _ _ _ _ (.vx r)
  | .vmadw _ _ _ _ (.vx r) | .vnshr _ _ _ _ (.vx r) | .vsadd _ _ _ _ (.vx r) | .vssub _ _ _ _ (.vx r)
  | .vavg _ _ _ _ (.vx r) | .vcmp _ _ _ _ (.vx r) => (r, 0)
  | .vsegredSum _ _ _ r | .vsegredMax _ _ _ r | .vsegredMin _ _ _ r | .vscore _ _ _ r | .vexpm _ _ _ _ r
  | .vaccp _ _ _ r | .vld _ _ _ r | .vst _ _ _ r | .vldx _ _ _ r _ | .vstxU _ _ _ r _
  | .vstxO _ _ _ r _ | .vscadd _ _ _ r _ | .vmergeu _ _ r _ | .vamo _ _ _ _ _ _ r _ | .dcfg _ r
  | .dzero r | .dmac _ _ r | .dmacD _ _ r | .dmacg _ _ r | .dxtr _ _ _ r
  | .ddir _ r | .dfree r | .dmv _ _ _ r | .dmvM _ _ _ r | .dupd _ _ r
  | .xchain _ r | .trowmv _ _ _ r | .tcolmv _ _ _ r | .tsave _ r | .trest _ r => (r, 0)
  | .vldStrided _ _ _ p q | .vldseg _ _ _ _ p q | .vstStrided _ _ _ p q | .vstseg _ _ _ _ p q
  | .vsqst _ _ _ p q | .vsqld _ _ _ p q | .xcopy _ _ _ _ p q _ | .xgath _ _ p q _
  | .xxform _ _ p q | .sbind _ p q => (p, q)
  | .vslide _ _ _ (.vx r) => (r, 0)
  | .vmv _ _ (.vx r) => (r, 0)
  | .vmvi _ b a => (a, b)
  | .vwait _ _ _ _ _ b _ => (b, Fin.ofNat 32 (b.val + 1))
  | _ => (0, 0)

/-- The registers of a vector-queue instruction with captured operand op0. -/
def vectorUses (i : Instr) (op0 : Word) : Uses :=
  match i with
  | .vadd _ m d a b | .vsub _ m d a b | .vrsub _ m d a b | .vmul _ m d a b | .vmulh _ m d a b | .vdiv _ m d a b | .vrem _ m d a b
  | .vmin _ m d a b | .vmax _ m d a b | .vand _ m d a b | .vor _ m d a b | .vxor _ m d a b | .vsll _ m d a b | .vsrl _ m d a b
  | .vsra _ m d a b | .vnshr _ m d a b | .vsadd _ m d a b | .vssub _ m d a b | .vavg _ m d a b => formUses m false d a b
  | .vfma _ m d a b | .vfnma _ m d a b | .vmadw _ m d a b => formUses m true d a b
  | .vaddc q _ m d a b | .vsubb q _ m d a b => let u := formUses m false d a b; { u with m := q :: u.m, md := [q] }
  | .vsel _ d a b => { v := a :: secondRegs b, m := [0], vd := [d] }
  | .vabs _ m d a | .vneg _ m d a | .vrcp _ m d a | .vrsq _ m d a | .vsqrt _ m d a | .vexp2 _ m d a | .vlog2 _ m d a
  | .vtanh _ m d a | .vcvt _ _ m d a | .vscale m _ d a | .vexpm _ m d a _ | .vslide m d a _ | .vscan m d a | .vsegredSum m d a _
  | .vsegredMax m d a _ | .vsegredMin m d a _ => unaryUses m d a
  | .vcvtScaled _ _ m d a => let u := unaryUses m d a; { u with v := u.v ++ [vsc] }
  | .vperm m d a b => { v := [a, b], m := if m then [0] else [], vd := [d], masked := m }
  | .vcmp _ m d a b => { v := a :: secondRegs b, m := if m then [0] else [], md := [d], masked := m }
  | .mand d a b | .mor d a b | .mxor d a b | .mandn d a b => { m := [a, b], md := [d] }
  | .mnot d a | .mslide d a _ | .mmvMask d a => { m := [a], md := [d] }
  | .mset d _ => { md := [d] }
  | .mmvToVector d a => { m := [a], vd := [d] }
  | .mmvFromVector d a => { v := [a], md := [d] }
  | .vcomp d a => { v := [a], m := [0], vd := [d] }
  | .viota m d a => { m := a :: if m then [0] else [], vd := [d], masked := m }
  | .vmv m d b => { v := match b with | .vv a => [a] | _ => [], m := if m then [0] else [], vd := [d], masked := m }
  | .vred m _ _ _ a => { v := [a], m := if m then [0] else [], masked := m }
  | .vamax m a => { v := [a], m := if m then [0] else [], masked := m }
  | .vscore m d a _ => { v := vregsFrom a 2, m := if m then [0] else [], vd := [d], masked := m }
  | .vaccp m d a _ => { v := d :: vregsFrom a 2, m := if m then [0] else [], vd := [d], masked := m }
  | .vld m _ d _ | .vldStrided m _ d _ _ | .vsqld m _ d _ _ => loadUses m [d] []
  | .vldseg n m _ d _ _ => loadUses m (vregsFrom d (n.val + 1)) []
  | .vldx m _ d _ k | .vsqres m _ d k => loadUses m [d] [k]
  | .vsqldX m _ d h k => loadUses m [d] [h, k]
  | .vst m _ a _ | .vstStrided m _ a _ _ | .vsqst m _ a _ _ => storeUses m [a]
  | .vstseg n m _ a _ _ => storeUses m (vregsFrom a (n.val + 1))
  | .vstxU m _ a _ k | .vstxO m _ a _ k | .vscadd m _ a _ k | .vsqcmt _ m _ a k => storeUses m [a, k]
  | .vsqstX m _ a h k => storeUses m [a, h, k]
  | .vwait _ _ m _ a _ k => storeUses m [a, k]
  | .vamo _ _ _ m _ d _ k => { v := [d, k], m := if m then [0] else [], vd := [d], masked := m }
  | .vmergeu _ d _ a => { v := vregsFrom a 4, vd := vregsFrom d 2 }
  | .dmac a b _ | .dmacD a b _ => { v := [a, b] }
  | .dmacg a b _ => { v := a :: vregsFrom b (bCount op0) }
  | .dxtr _ m d _ => loadUses m [d] []
  | .dmv d a b _ => { v := [d, a, b], vd := [d] }
  | .dmvM d a b _ => { v := [d, a, b], m := [0], vd := [d], masked := true }
  | .dpiv m d a => { unaryUses m d a with md := [7] }
  | .dupd m a _ => storeUses m [a]
  | .xcopy _ _ _ _ _ _ b | .xgath _ _ _ _ b => { v := [b] }
  | .xchain a _ => { v := [a] }
  | .trowmv m _ a _ => storeUses m [a]
  | .tcolmv m d _ _ => loadUses m [d] []
  | .tmma _ a b => { v := [a, b] }
  | _ => {}

/-- Bytes of an element of a register, by its tag. -/
def regElem (s : State) (r : VReg) : Nat := ((elemType s r).map (·.bytes)).getD 1

/-- The elements lo to hi - 1 that stand in a bad word of a register that an instruction reads, or whose mask bits do. -/
def badElems (s : State) (u : Uses) (lo hi : Nat) : List Nat :=
  let of (w : BadWord) : List Nat :=
    match w with
    | .x _ => []
    | .v r k =>
      if u.v.contains r then let b := regElem s r; ((List.range (8 / b)).map fun j => k * 8 / b + j).filter (active s u.masked) else []
    | .m q k => if u.m.contains q then (List.range 64).map fun j => 64 * k + j else []
  ((s.st.bad.flatMap of).filter fun k => decide (lo ≤ k ∧ k < hi)).foldl (fun l k => insertNat k l) []

/-- The words that hold only written elements lo to hi - 1 of a written register, hold errors no more. -/
def clearBad (u : Uses) (lo hi : Nat) (s : State) : State :=
  let whole (k b : Nat) : Bool := (List.range (8 / b)).all fun j => let e := k * 8 / b + j; decide (lo ≤ e ∧ e < hi) && active s u.masked e
  let stays (w : BadWord) : Bool :=
    match w with
    | .x _ => true
    | .v r k => ! (u.vd.contains r && whole k (regElem s r))
    | .m q k => ! (u.md.contains q && (List.range 64).all fun j => decide (lo ≤ 64 * k + j ∧ 64 * k + j < hi) && active s u.masked (64 * k + j))
  if s.st.bad = [] then s else { s with st := { s.st with bad := s.st.bad.filter stays } }

/-- The scalar side reads a register in which an uncorrectable error stands, for itself or to capture it: cause 0x06, for which the spec
names no address, so `tval` is a free value (R56, R372, log 98). -/
def scalarGuard (i : Instr) : Act Unit := do
  let s ← get
  let u := scalarUses i
  let (lo, hi) := match i with
    | .vmvx _ _ b => let j := match b with | .vx r => (s.readX r).toNat | .vi k => k.toNat; (j, min s.st.csr.vl.toNat (j + 1))
    | _ => (0, s.st.csr.vl.toNat)
  let (a, b) := operandRegs i
  if ((a :: b :: u.x).any fun r => s.st.bad.contains (.x r)) || badElems s u lo hi ≠ [] then
    apply fun s => errorAt s 1 0 0
    let v ← lift State.drawFree
    trap 0x06 v

end Sys2Proof.Machine
end

