-- ==== Sys2Proof/Machine/Sequencer.lean ====
section
/-! DEFINITION. The vector instruction queue (R54, R55, R73 to R76): how its entries run and chain (R306), how they trap, and the
sequencer's, engine's and channels' operations on it (R77, R78, R162, R167, R322). -/

namespace Sys2Proof.Machine

/-! ## The vector-queue instructions -/

/-- How an entry runs: an elementwise form, or a run of its own, given the forwarded first operand and the element it may
reach. -/
inductive Plan
  | form (f : Act Form)
  | run (r : Fwd → Nat → Act Bool)

/-- The run of an entry; none for an instruction that is not of the vector queue (R54). -/
def planOf (e : VEntry) : Option Plan :=
  match e.instr with
  | .vtag t n1 d => some (.run fun _ lim => runVtag t n1 d e lim)
  | .vadd c m d a b => some (.form (formVadd c m d a b e))
  | .vsub c m d a b => some (.form (formVsub c m d a b e))
  | .vrsub c m d a b => some (.form (formVrsub c m d a b e))
  | .vmul c m d a b => some (.form (formVmul c m d a b e))
  | .vmulh c m d a b => some (.form (formVmulh c m d a b e))
  | .vdiv c m d a b => some (.form (formVdiv c m d a b e))
  | .vrem c m d a b => some (.form (formVrem c m d a b e))
  | .vmin c m d a b => some (.form (formVmin c m d a b e))
  | .vmax c m d a b => some (.form (formVmax c m d a b e))
  | .vand c m d a b => some (.form (formVand c m d a b e))
  | .vor c m d a b => some (.form (formVor c m d a b e))
  | .vxor c m d a b => some (.form (formVxor c m d a b e))
  | .vsll c m d a b => some (.form (formVsll c m d a b e))
  | .vsrl c m d a b => some (.form (formVsrl c m d a b e))
  | .vsra c m d a b => some (.form (formVsra c m d a b e))
  | .vfma c m d a b => some (.form (formVfma c m d a b e))
  | .vfnma c m d a b => some (.form (formVfnma c m d a b e))
  | .vabs c m d a => some (.form (formVabs c m d a e))
  | .vneg c m d a => some (.form (formVneg c m d a e))
  | .vsel c d a b => some (.form (formVsel c d a b e))
  | .vaddc q c m d a b => some (.form (formVaddc q c m d a b e))
  | .vsubb q c m d a b => some (.form (formVsubb q c m d a b e))
  | .vmadw c m d a b => some (.form (formVmadw c m d a b e))
  | .vnshr c m d a b => some (.form (formVnshr c m d a b e))
  | .vsadd c m d a b => some (.form (formVsadd c m d a b e))
  | .vssub c m d a b => some (.form (formVssub c m d a b e))
  | .vavg c m d a b => some (.form (formVavg c m d a b e))
  | .vcmp q m d a b => some (.run fun fw lim => runVcmp q m d a b fw e lim)
  | .mand d a b => some (.run fun _ lim => runMand d a b e lim)
  | .mor d a b => some (.run fun _ lim => runMor d a b e lim)
  | .mxor d a b => some (.run fun _ lim => runMxor d a b e lim)
  | .mandn d a b => some (.run fun _ lim => runMandn d a b e lim)
  | .mnot d a => some (.run fun _ lim => runMnot d a e lim)
  | .mslide d a k => some (.run fun _ lim => runMslide d a k e lim)
  | .mset d k => some (.run fun _ lim => runMset d k e lim)
  | .mmvMask d a => some (.run fun _ lim => runMmvMask d a e lim)
  | .mmvToVector d a => some (.run fun _ lim => runMmvToVector d a e lim)
  | .mmvFromVector d a => some (.run fun fw lim => runMmvFromVector d a fw e lim)
  | .vslide m d a b => some (.run fun fw lim => runVslide m d a b fw e lim)
  | .vperm m d a b => some (.run fun fw lim => runVperm m d a b fw e lim)
  | .vcomp d a => some (.run fun fw lim => runVcomp d a fw e lim)
  | .viota m d a => some (.run fun _ lim => runViota m d a e lim)
  | .vmv m d b => some (.run fun fw lim => runVmv m d b fw e lim)
  | .vmvi d b a => some (.run fun _ lim => runVmvi d b a e lim)
  | .vred m _ o d a => some (.run fun fw lim => runVred m o d a fw e lim)
  | .vscan m d a => some (.run fun fw lim => runVscan m d a fw e lim)
  | .vsegredSum m d a b => some (.run fun fw lim => runVsegredSum m d a b fw e lim)
  | .vsegredMax m d a b => some (.run fun fw lim => runVsegredMax m d a b fw e lim)
  | .vsegredMin m d a b => some (.run fun fw lim => runVsegredMin m d a b fw e lim)
  | .vrcp c m d a => some (.form (formVrcp c m d a e))
  | .vrsq c m d a => some (.form (formVrsq c m d a e))
  | .vsqrt c m d a => some (.form (formVsqrt c m d a e))
  | .vexp2 c m d a => some (.form (formVexp2 c m d a e))
  | .vlog2 c m d a => some (.form (formVlog2 c m d a e))
  | .vtanh c m d a => some (.form (formVtanh c m d a e))
  | .vcvt r c m d a => some (.form (formVcvt r c m d a e))
  | .vcvtScaled r c m d a => some (.form (formVcvtScaled r c m d a e))
  | .vamax m a => some (.run fun fw lim => runVamax m a fw e lim)
  | .vscale m f d a => some (.run fun fw lim => runVscale m f d a fw e lim)
  | .vscore m d a b => some (.run fun fw lim => runVscore m d a b fw e lim)
  | .vexpm c m d a b => some (.form (formVexpm c m d a b e))
  | .vaccp m d a b => some (.run fun fw lim => runVaccp m d a b fw e lim)
  | .vld m g d b => some (.run fun _ lim => runVld m g d b e lim)
  | .vldStrided m g d b s => some (.run fun _ lim => runVldStrided m g d b s e lim)
  | .vldseg n m g d b s => some (.run fun _ lim => runVldseg n m g d b s e lim)
  | .vwait x q m g v b i => some (.run fun _ lim => runVwait x q m g v b i e lim)
  | .vst m g s b => some (.run fun _ lim => runVst m g s b e lim)
  | .vstStrided m g s b i => some (.run fun _ lim => runVstStrided m g s b i e lim)
  | .vstseg n m g s b i => some (.run fun _ lim => runVstseg n m g s b i e lim)
  | .vldx m g d b i => some (.run fun _ lim => runVldx m g d b i e lim)
  | .vstxU m g s b i => some (.run fun _ lim => runVstxU m g s b i e lim)
  | .vstxO m g s b i => some (.run fun _ lim => runVstxO m g s b i e lim)
  | .vscadd m g s b i => some (.run fun _ lim => runVscadd m g s b i e lim)
  | .vmergeu kz d n a => some (.run fun _ lim => runVmergeu kz d n a e lim)
  | .vamo o x r m g d b i => some (.run fun _ lim => runVamo o x r m g d b i e lim)
  | .vsqres m g d h => some (.run fun _ lim => runVsqres m g d h e lim)
  | .vsqst m g s h i => some (.run fun _ lim => runVsqst m g s h i e lim)
  | .vsqstX m g s h i => some (.run fun _ lim => runVsqstX m g s h i e lim)
  | .vsqcmt x m g h i => some (.run fun _ lim => runVsqcmt x m g h i e lim)
  | .vsqld m g d h i => some (.run fun _ lim => runVsqld m g d h i e lim)
  | .vsqldX m g d h i => some (.run fun _ lim => runVsqldX m g d h i e lim)
  | .dcfg d x => some (.run fun _ lim => runDcfg d x e lim)
  | .dzero x => some (.run fun _ lim => runDzero x e lim)
  | .dmac a b x => some (.run fun _ lim => runDmac a b x e lim)
  | .dmacD a b x => some (.run fun _ lim => runDmacD a b x e lim)
  | .dmacg a b x => some (.run fun _ lim => runDmacg a b x e lim)
  | .dxtr ne m d x => some (.run fun _ lim => runDxtr ne m d x e lim)
  | .ddir d x => some (.run fun _ lim => runDdir d x e lim)
  | .dfree x => some (.run fun _ lim => runDfree x e lim)
  | .dmv d a b x => some (.run fun _ lim => runDmv d a b x e lim)
  | .dmvM d a b x => some (.run fun _ lim => runDmvM d a b x e lim)
  | .dpiv m d a => some (.run fun _ lim => runDpiv m d a e lim)
  | .dupd m a x => some (.run fun _ lim => runDupd m a x e lim)
  | .xcopy ex z h o d a b => some (.run fun _ lim => runXcopy ex z h o d a b e lim)
  | .xgath h o d a b => some (.run fun _ lim => runXgath h o d a b e lim)
  | .xxform h o a b => some (.run fun _ lim => runXxform h o a b e lim)
  | .xdrain h => some (.run fun _ lim => runXdrain h e lim)
  | .xchain a b => some (.run fun fw lim => runXchain a b fw e lim)
  | .sbind d a b => some (.run fun _ lim => runSbind d a b e lim)
  | .srel d => some (.run fun _ lim => runSrel d e lim)
  | .sstat d a => some (.run fun _ lim => runSstat d a e lim)
  | .tzero t => some (.run fun _ lim => runTzero t e lim)
  | .trowmv m t a x => some (.run fun _ lim => runTrowmv m t a x e lim)
  | .tcolmv m d t x => some (.run fun _ lim => runTcolmv m d t x e lim)
  | .tmma t a b => some (.run fun _ lim => runTmma t a b e lim)
  | .tstat d => some (.run fun _ lim => runTstat d e lim)
  | .tsave t a => some (.run fun _ lim => runTsave t a e lim)
  | .trest t a => some (.run fun _ lim => runTrest t a e lim)
  | _ => none

/-- The chain bit (R306). -/
def chainBit (i : Instr) : Bool :=
  match i with
  | .vadd c _ _ _ _ | .vsub c _ _ _ _ | .vrsub c _ _ _ _ | .vmul c _ _ _ _ | .vmulh c _ _ _ _
  | .vdiv c _ _ _ _ | .vrem c _ _ _ _ | .vmin c _ _ _ _ | .vmax c _ _ _ _ | .vand c _ _ _ _
  | .vor c _ _ _ _ | .vxor c _ _ _ _ | .vsll c _ _ _ _ | .vsrl c _ _ _ _ | .vsra c _ _ _ _
  | .vfma c _ _ _ _ | .vfnma c _ _ _ _ | .vabs c _ _ _ | .vneg c _ _ _ | .vsel c _ _ _
  | .vaddc _ c _ _ _ _ | .vsubb _ c _ _ _ _ | .vmadw c _ _ _ _ | .vnshr c _ _ _ _ | .vsadd c _ _ _ _
  | .vssub c _ _ _ _ | .vavg c _ _ _ _ | .vrcp c _ _ _ | .vrsq c _ _ _ | .vsqrt c _ _ _
  | .vexp2 c _ _ _ | .vlog2 c _ _ _ | .vtanh c _ _ _ | .vcvt _ c _ _ _ | .vcvtScaled _ c _ _ _
  | .vexpm c _ _ _ _ => c
  | _ => false

/-- The register that a producer forwards in place of writing it. -/
def forwarded (i : Instr) : Option VReg :=
  match i with
  | .vadd _ _ d _ _ | .vsub _ _ d _ _ | .vrsub _ _ d _ _ | .vmul _ _ d _ _ | .vmulh _ _ d _ _
  | .vdiv _ _ d _ _ | .vrem _ _ d _ _ | .vmin _ _ d _ _ | .vmax _ _ d _ _ | .vand _ _ d _ _
  | .vor _ _ d _ _ | .vxor _ _ d _ _ | .vsll _ _ d _ _ | .vsrl _ _ d _ _ | .vsra _ _ d _ _
  | .vfma _ _ d _ _ | .vfnma _ _ d _ _ | .vabs _ _ d _ | .vneg _ _ d _ | .vsel _ d _ _
  | .vaddc _ _ _ d _ _ | .vsubb _ _ _ d _ _ | .vmadw _ _ d _ _ | .vnshr _ _ d _ _ | .vsadd _ _ d _ _
  | .vssub _ _ d _ _ | .vavg _ _ d _ _ | .vrcp _ _ d _ | .vrsq _ _ d _ | .vsqrt _ _ d _
  | .vexp2 _ _ d _ | .vlog2 _ _ d _ | .vtanh _ _ d _ | .vcvt _ _ _ d _ | .vcvtScaled _ _ _ d _
  | .vexpm _ _ d _ _ => some d
  | _ => none

/-- The first operand of a form that may consume: va of format V, or vs of XCHAIN. -/
def consumed (i : Instr) : Option VReg :=
  match i with
  | .vadd _ _ _ a _ | .vsub _ _ _ a _ | .vrsub _ _ _ a _ | .vmul _ _ _ a _ | .vmulh _ _ _ a _
  | .vdiv _ _ _ a _ | .vrem _ _ _ a _ | .vmin _ _ _ a _ | .vmax _ _ _ a _ | .vand _ _ _ a _
  | .vor _ _ _ a _ | .vxor _ _ _ a _ | .vsll _ _ _ a _ | .vsrl _ _ _ a _ | .vsra _ _ _ a _
  | .vfma _ _ _ a _ | .vfnma _ _ _ a _ | .vabs _ _ _ a | .vneg _ _ _ a | .vsel _ _ a _
  | .vaddc _ _ _ _ a _ | .vsubb _ _ _ _ a _ | .vmadw _ _ _ a _ | .vnshr _ _ _ a _ | .vsadd _ _ _ a _
  | .vssub _ _ _ a _ | .vavg _ _ _ a _ | .vcmp _ _ _ a _ | .mmvFromVector _ a | .vslide _ _ a _
  | .vperm _ _ a _ | .vcomp _ a | .vred _ _ _ _ a | .vscan _ _ a | .vsegredSum _ _ a _
  | .vsegredMax _ _ a _ | .vsegredMin _ _ a _ | .vrcp _ _ _ a | .vrsq _ _ _ a | .vsqrt _ _ _ a
  | .vexp2 _ _ _ a | .vlog2 _ _ _ a | .vtanh _ _ _ a | .vcvt _ _ _ _ a | .vcvtScaled _ _ _ _ a
  | .vmv _ _ (.vv a) | .vamax _ a | .vscale _ _ _ a | .vscore _ _ a _ | .vexpm _ _ _ a _ | .vaccp _ _ a _
  | .xchain a _ => some a
  | _ => none

/-- Instructions that need the diagonal engine (R78). -/
def needsEngine (i : Instr) : Bool :=
  match i with
  | .dzero _ | .dmac _ _ _ | .dmacD _ _ _ | .dmacg _ _ _ | .dxtr _ _ _ _ | .dmv _ _ _ _
  | .dmvM _ _ _ _ | .dpiv _ _ _ | .dupd _ _ _ | .tzero _ | .tmma _ _ _ | .trowmv _ _ _ _
  | .tcolmv _ _ _ _ | .tsave _ _ | .trest _ _ => true
  | _ => false

/-- Vector-queue instructions that write a scalar register, trap for the scalar side or acquire: it waits for them (R55, R164, R217). -/
def holdsScalar (i : Instr) : Bool :=
  match i with
  | .vmergeu _ _ _ _ | .vwait _ _ _ _ _ _ _ | .dcfg _ _ | .ddir _ _ | .tstat _ | .sstat _ _ | .xdrain _ => true
  | .vamo _ _ (some .acq) _ _ _ _ _ | .vamo _ _ (some .ar) _ _ _ _ _ => true
  | _ => false

/-- An entry runs. -/
def runPlan (p : Plan) (fw : Fwd) (e : VEntry) (lim : Nat) : Act Bool :=
  match p with
  | .form f => do runForm e.instr (← f) fw e lim
  | .run r => r fw lim

/-! ## Chains (R306) -/

/-- The entries of a chain from its first producer to the consumer that carries no chain bit; none until that one has entered. -/
def chainGroup : List VEntry → Option (List VEntry)
  | [] => none
  | e :: t => if chainBit e.instr then (chainGroup t).map (e :: ·) else some [e]

/-- The machine with another tag in register r. -/
def retag (s : State) (r : VReg) (t : BitVec 6) : State := setReg s r { s.st.v[r.val] with tag := t }

/-- A computation ends in cause 0x02. -/
def illTypes {α : Type} (a : Act α) (s : State) : Bool :=
  match (Act.on a s).1 with
  | .error (.trap c _) => decide (c = 0x02)
  | _ => false

/-- A consumer's checks: its first operand r does not take the tag that the producer's vd carries when some other tag would pass;
then the producer traps. Any other cause 0x02 is the consumer's own (R252, R306). -/
def blame {α : Type} (p : Instr) (r : Option VReg) (a : Act α) : Act α := do
  let s ← get
  let tagged : Bool := match r with
    | some r => (List.range 64).any fun t => ! illTypes a (retag s r (BitVec.ofNat 6 t))
    | none => false
  if illTypes a s && tagged then illTyped p else a

/-- The producers of a chain, checked against their consumers, in order, with the last one's consumer. -/
def chainLinks (first : Bool) (prev : Instr) : List VEntry → Act (List (Instr × Form))
  | [] => pure []
  | [_] => pure []
  | p :: q :: t => do
    match planOf p with
    | some (.form f) =>
      let f ← if first then f else blame prev (consumed p.instr) f
      require p.instr (decide (q.vl = p.vl) && decide (consumed q.instr = forwarded p.instr))
      let rest ← chainLinks false p.instr (q :: t)
      pure ((p.instr, f) :: rest)
    | _ => illTyped p.instr

/-- The length a chain runs to: a stream's message may shorten it (R168). -/
def chainLength (lo : Nat) : List (Instr × Form) → Nat → Act Nat
  | [], vl => pure vl
  | (i, f) :: t, vl => do
    match f.src with
    | none => chainLength lo t vl
    | some n =>
      let r ← streamRead i n vl lo lo
      chainLength lo t (min vl r.vl)

/-- Where a strip from lo ends before the first element in error of a ring operand that is not its own first (R158). -/
def ringReach (s : State) (lo : Nat) (fs : List (Instr × Form)) (hi : Nat) : Nat :=
  fs.foldl (fun hi f =>
    match f.2.src with
    | none => hi
    | some n =>
      let r := s.st.streams[n.val]
      let b := ((elemOf r.tag).map (·.bytes)).getD 1
      if r.kind = 1 then min hi (max (lo + 1) (((ringBad s f.1 r b lo hi).head?.map (·.1)).getD hi)) else hi) hi

/-- A producer's strip: its mask, flags and charge are committed, and its register is not. -/
def commitProducer (f : Form) (os : List (Option Out)) (lo hi : Nat) (s : State) : State :=
  let s := match f.mask with
    | some q => setMask s q (writeBits s.st.m[q.val] lo os)
    | none => s
  charge (commitFlags s os) f.widest lo hi

/-- Element k of a producer's result: what its strip produced, or vd's current element where it is inactive. -/
def forwardOf (f : Form) (os : List (Option Out)) (lo : Nat) : State → Nat → Nat := fun s k =>
  match os.getD (k - lo) none with
  | some o => if lo ≤ k then o.val else elemAt s f.d f.bytes k
  | none => elemAt s f.d f.bytes k

/-- One shared strip, elements lo to hi - 1, of the producers and then of the last consumer. -/
def chainStrip (vl lo hi : Nat) (last : Fwd → Act Bool) : List (Instr × Form) → Fwd → Act Bool
  | [], fw => last fw
  | (i, f) :: t, fw => do
    let (S, take) ← match f.src with
      | none => pure ((fun _ => 0 : Nat → Nat), (id : State → State))
      | some n => do
        let r ← streamRead i n vl lo hi
        pure (fun j => r.vals.getD (j - lo) 0, fun s => streamTake s n r.ty.bytes (hi - lo) (decide (vl ≤ hi)))
    let s ← get
    let os := f.strip s (readA s fw f.a f.abytes) S lo hi
    apply fun s => take (commitProducer f os lo hi s)
    let s ← get
    chainStrip vl lo hi last t (some (forwardOf f os lo s))

/-- How far one shared strip reaches. -/
def chainReach (s : State) (fs : List (Instr × Form)) (last : VEntry) (lo vl lim : Nat) : Nat :=
  match last.instr with
  | .xchain a _ => min vl (lo + groupElems s ((elemType s a).getD (.int 8 false)).bytes)
  | _ =>
    match planOf last with
    | some (.form _) =>
      let w := fs.foldl (fun w f => max w f.2.widest) 1
      if fs.any fun f => f.2.src.isSome then min (min vl lim) (stripTo s 8 w lo) else min vl lim
    | _ => vl

/-- A chain runs one shared strip; a strip that stops has done nothing. -/
def runChain (es : List VEntry) (lim : Nat) : Act Bool := do
  match es.getLast? with
  | none => pure true
  | some z =>
    let fs ← chainLinks true z.instr es
    let lo := vstart (← get)
    match planOf z with
    | none => illTyped z.instr
    | some q =>
      let back := ((es.dropLast).getLast?.map (·.instr)).getD z.instr
      let zs ← match q with
        | .form f => do let f ← blame back (consumed z.instr) f; pure [(z.instr, f)]
        | .run _ => pure []
      let vl ← if z.vl ≤ lo then pure z.vl else chainLength lo (fs ++ zs) z.vl
      let run := match z.instr with
        | .xchain _ _ => runPlan q
        | _ => fun fw e lim => blame back (consumed z.instr) (runPlan q fw e lim)
      if vl ≤ lo then
        match q with
        | .form _ => apply (setVstart · 0); pure true
        | .run _ =>
          let s ← get
          run (fs.getLast?.map fun f => forwardOf f.2 [] lo s) { z with vl := vl } lim
      else
        let s ← get
        let hi := ringReach s lo (fs ++ zs) (chainReach s (fs ++ zs) z lo vl lim)
        let (r, s') := Act.on (chainStrip vl lo hi (fun fw => run fw { z with vl := vl } hi) fs none) s
        match r with
        | .ok done => set s'; pure done
        | .error x => throw x

/-! ## The VIQ head -/

/-- The VIQ of strand n may run. -/
def strandLive (s : State) (n : Nat) : Bool :=
  let t := getStrand s n
  t.resident && decide (s.daleel.dies[dieOf n] = .up)
    && (decide (ctxState s t.ctx = 2) || (decide (ctxState s t.ctx = 3) && ! t.hold.isEmpty))

/-- Strand n has a ready engine instruction at its head: not one that is held, nor one of a context that is saving (R75, R78). -/
def engineReady (s : State) (n : Nat) : Bool :=
  let t := getStrand s n
  strandLive s n && decide (t.park ≠ 8) && (match t.viq with | e :: _ => needsEngine e.instr | [] => false)

/-- The strands of a core in the order in which the engine offers the current slot: its owner, then, lent or open, round-robin
after the last one served (R78). -/
def engineOrder (k : Core) : List (Fin 4) :=
  let ring : List (Fin 4) := [k.served + 1, k.served + 2, k.served + 3, k.served]
  match wordOwner k.slotNow with
  | none => ring
  | some j => if k.slotNow.getLsbD 4 then j :: ring else [j]

/-- The strand may use its core's diagonal engine now: no strand before it in the order has a ready engine instruction (R78). -/
def engineGranted (s : State) (n : Nat) : Bool :=
  match (engineOrder (getCore s (coreOf n))).find? fun j => decide (j = onCore n) || engineReady s (4 * coreOf n + j.val) with
  | some j => decide (j = onCore n)
  | none => false

/-- Another strand of the core has a ready engine instruction and may have its turn after the next strip (R78). -/
def engineShared (s : State) (n : Nat) : Bool :=
  (engineOrder (getCore s (coreOf n))).any fun j => decide (j ≠ onCore n) && engineReady s (4 * coreOf n + j.val)

/-- The engine has served strand n (R78). -/
def serve (n : Nat) (s : State) : State := modCore s (coreOf n) fun k => { k with served := onCore n }

/-! ## Strips, and parity of the lanes and of the multiplier array (R73, R131) -/

/-- Bits of an element of an entry as its strip counts them: of its widest operand or destination, of an accumulator word or a
container in the engine (R15, R74, log 102). -/
def laneBits (s : State) (e : VEntry) : Nat :=
  let w (r : VReg) : Nat := 8 * regElem s r
  match e.instr with
  | .dzero _ | .dmac _ _ _ | .dmacD _ _ _ | .dmacg _ _ _ | .dxtr _ _ _ _ | .tzero _ | .trowmv _ _ _ _ | .tcolmv _ _ _ _ | .tmma _ _ _ => 32
  | .dmv d _ _ _ | .dmvM d _ _ _ | .dpiv _ d _ => w d
  | i =>
    match planOf e with
    | some (.form f) => (match (Act.on f s).1 with | .ok f => f.widest | .error _ => maxWidth s)
    | _ =>
      let u := vectorUses i e.op0
      let n := match i with | .vldseg n _ _ _ _ _ | .vstseg n _ _ _ _ _ => n.val + 1 | _ => 1
      n * ((u.v ++ u.vd).map w).foldl max 1

/-- The widest of them in a chain. -/
def chainBits (s : State) (es : List VEntry) : Nat := (es.map (laneBits s)).foldl max 1

/-- The end of a strip of the head: 8 element groups, shared by the instructions of a chain (R73). -/
def stripEnd (s : State) : Nat :=
  let es := (chainGroup s.st.viq).getD []
  stripTo s (8 / es.length) (chainBits s es) (vstart s)

/-- Rows of the passes of a diagonal multiplication that have a slot. -/
def macRows (s : State) (op0 : Word) (g : Nat) (step : Int) : Nat :=
  ((List.range g).map fun r =>
    let c := aOff op0 + bOff op0 + r * step
    if (dirOf s c).isSome then (passRows (cfgN s) (aOff op0) c).2 else 0).foldl max 0

/-- The elements or rows of an entry. -/
def entryLength (s : State) (e : VEntry) : Nat :=
  match e.instr with
  | .dzero _ => diagLen (cfgN s) (aOff e.op0)
  | .dmac _ _ _ | .dmacD _ _ _ => macRows s e.op0 1 0
  | .dmacg _ _ _ => macRows s e.op0 (bCount e.op0) (bStep e.op0)
  | .tzero _ => 4096
  | _ => e.vl

/-- The vector-queue instructions that have no strip: none of them can meet a failure of parity. -/
def hasStrips (i : Instr) : Bool :=
  match i with
  | .vtag _ _ _ | .dcfg _ _ | .ddir _ _ | .dfree _ | .dupd _ _ _ | .tstat _ | .tsave _ _ | .trest _ _ | .xcopy _ _ _ _ _ _ _
  | .xgath _ _ _ _ _ | .xxform _ _ _ _ | .xdrain _ | .sbind _ _ _ | .srel _ | .sstat _ _ => false
  | _ => true

/-- Slots that a run has bound stay bound, without contents, and `dstat` keeps the note of the last fill-in (R330). -/
def keepBinding (s t : State) : State :=
  let s := (List.range (cfgS s)).foldl (fun s k =>
    if dirEntry s k = dirEntry t k then s else setDir (clearAcc s (slotWord s k) (slotWord s (k + 1))) k (dirEntry t k)) s
  s.modCsr fun c => { c with dstat := setBits c.dstat 32 16 (bits t.st.csr.dstat 32 16) }

/-- The third run of the strip of a chain from `vstart` to hi fails: cause 0x06 with `tval` 1, and `tlane` names the failing lane and
the first element, row or, of TMMA, container of the row group (log 102) that it carried (R131, R372). -/
def parityTrap (es : List VEntry) (lane : Fin 32) (hi : Nat) (s : State) : State :=
  let lo := vstart s
  let (lo, hi) := match es with
    | { instr := .tmma _ _ _, .. } :: _ => (lo % 4 * 1024, lo % 4 * 1024 + 1024)
    | _ => (lo, hi)
  let w := chainBits s es
  let k := (((List.range (hi - lo)).map (lo + ·)).find? fun k => decide (laneOfByte s (k * w / 8) = lane.val)).getD lo
  let image := k % 2 ^ 14 * 2 ^ 16 + lane.val
  let s := errorAt s 2 0 image
  vectorTrap 0x06 1 { s with st := { s.st with trap := { s.st.trap with tlane := BitVec.ofNat 30 image } } }

/-- The parity failure that the next strip of the strand's core meets; one that lies further off comes a strip nearer. -/
def takeUpset (s : State) : Option Upset × State :=
  match (getCore s (curCore s)).upsets with
  | [] => (none, s)
  | u :: t =>
    if u.after = 0 then (some u, modCore s (curCore s) fun k => { k with upsets := t })
    else (none, modCore s (curCore s) fun k => { k with upsets := { u with after := u.after - 1 } :: t })

/-! ## Poisoned entries and registers (R371, log 98) -/

/-- Vector-queue instructions that run element by element, as far as a limit. -/
def byElement (e : VEntry) : Bool :=
  match e.instr with
  | .vld _ _ _ _ | .vldStrided _ _ _ _ _ | .vldseg _ _ _ _ _ _ | .vldx _ _ _ _ _ | .vst _ _ _ _ | .vstStrided _ _ _ _ _
  | .vstseg _ _ _ _ _ _ | .vstxU _ _ _ _ _ | .vstxO _ _ _ _ _ | .vsqres _ _ _ _ | .vsqst _ _ _ _ _ | .vsqstX _ _ _ _ _
  | .vsqld _ _ _ _ _ | .vsqldX _ _ _ _ _ => true
  | _ => match planOf e with | some (.form _) => true | _ => false

/-- Instructions that read elements of their registers beyond those that `vl` and the mask give. -/
def readsWhole (i : Instr) : Bool :=
  match i with
  | .vslide _ _ _ _ | .vperm _ _ _ _ | .vmergeu _ _ _ _ | .xcopy _ _ _ _ _ _ _ | .xgath _ _ _ _ _ => true
  | _ => needsEngine i

/-- The elements of an entry's operands, from lo on, in which errors stand; of a consumer, apart from the forwarded operand. -/
def badOperands (s : State) (lo : Nat) (e : VEntry) (first : Bool) : List Nat :=
  let u := vectorUses e.instr e.op0
  let u := if first then u else { u with v := u.v.erase ((consumed e.instr).getD 0) }
  if readsWhole e.instr then badElems s { u with masked := false } 0 s.st.csr.vlmax.toNat else badElems s u lo e.vl

/-- Those of a chain, in rising order. -/
def badChain (s : State) (lo : Nat) : List VEntry → Bool → List Nat
  | [], _ => []
  | e :: t, first => (badOperands s lo e first).foldl (fun l k => insertNat k l) (badChain s lo t false)

/-- The run of the entries es up to element lim. -/
def runEntries (es : List VEntry) (lim : Nat) : Act Bool :=
  match es with
  | [e] => (match planOf e with | some p => runPlan p none e lim | none => pure true)
  | es => runChain es lim

/-- The run of the entries es up to element lim, and the words that it overwrites hold errors no more. -/
def runWritten (es : List VEntry) (lim : Nat) : Act Bool := do
  let lo := vstart (← get)
  let done ← runEntries es lim
  match es.getLast? with
  | none => pure ()
  | some z =>
    apply fun s => clearBad (vectorUses z.instr z.op0) lo (if done then z.vl else vstart s) s
  pure done

/-- The run of the entries es up to element lim. A poisoned entry traps with cause 0x06, for which the spec names no address: `tval` is
a free value. An element in a poisoned word of a register traps where it is read, those below it done; an instruction that writes only
as a whole has then done nothing. -/
def runSound (es : List VEntry) (lim : Nat) : Act Bool := do
  let s ← get
  if es.any (·.poison) then
    apply fun s => errorAt s 1 0 0
    let v ← lift State.drawFree
    trap 0x06 v
  else if s.st.bad = [] then runEntries es lim
  else
    let lo := vstart s
    match badChain s lo es true with
    | [] => runWritten es lim
    | k :: t =>
      if es.all byElement && decide (lo < k) then runWritten es (min lim k)
      else
        apply fun s => reportSram s (chainBits s es / 8) (k :: t)
        trap 0x06 (faultBits lo ((k :: t).map fun k => (max lo k, 0)))

/-! ## Running the head -/

/-- The first n entries are complete: they leave the VIQ, and what waits for room or for them goes on. -/
def dropHead (n : Nat) (s : State) : State :=
  let t := { s.st with viq := s.st.viq.drop n, await := s.st.await - n, passed := 0 }
  { s with st := if t.park = 0xB ∨ t.park = 0x3 ∨ t.park = 0x8 then unpark s.cycle t else t }

/-- What the run of the head and its chain of m entries leaves; the answer says whether they completed or got on. -/
def headEnds (m : Nat) (s : State) (r : Except Stop Bool) (s' : State) : Act Bool := do
  match r with
  | .ok true => set (dropHead m s'); pure true
  | .ok false => set s'; pure (decide (s'.st.csr.vstart ≠ s.st.csr.vstart))
  | .error (.trap c v) => set (vectorTrap c v s'); pure false
  | .error (.park p k) => set (parkOn s' p k); pure false
  | .error (.drain _) => set s'; pure false
  | .error .again => set s'; pure false
  | .error (.phase v (some k)) => set (enterTrap 0x06 v s'.st.pc (w64 k) s'); pure false
  | .error (.phase v none) => set (enterTrap 0x06 v s'.st.pc 0 (dropHead m s')); pure false

/-- A producer whose consumer has not entered while the scalar side drains: an earlier link of its chain that fails traps, else it
does, with cause 0x02 (R306). -/
def cutChain (e : VEntry) : Act Unit := do
  let s ← get
  let (r, s') := Act.on (chainLinks true e.instr s.st.viq) s
  match r with
  | .error (.trap c v) => set (vectorTrap c v s')
  | _ => set (vectorTrap 0x02 (instrWord ((s.st.viq.getLast?.getD e).instr)) s)

/-- The head and its chain run up to element lim. While the core is to meet a parity failure, or the engine is shared, they run
one strip; a strip whose parity fails once or twice runs again, and at the third time it traps with nothing done but its
bindings (R131, R330). -/
def runHead (lim : Nat) : Act Bool := do
  let s ← get
  match s.st.viq with
  | [] => pure false
  | e :: _ =>
    if needsEngine e.instr && ! engineGranted s s.cur.val then pure false
    else
      match chainGroup s.st.viq with
      | none =>
        if s.st.await ≠ 0 then cutChain e
        pure false
      | some es =>
        let strips := hasStrips e.instr
        let one := (strips = true ∧ (getCore s (curCore s)).upsets ≠ []) ∨ (needsEngine e.instr = true ∧ engineShared s s.cur.val = true)
        let lim := if one then (if needsEngine e.instr then vstart s + 1 else min lim (stripEnd s)) else lim
        let (r, s') := Act.on (runSound es lim) s
        match r with
        | .ok b =>
          if (! b && decide (s'.st.csr.vstart = s.st.csr.vstart)) || ! strips then
            headEnds es.length s r (if needsEngine e.instr && b then serve s.cur.val s' else s')
          else
            let s' := if needsEngine e.instr then serve s.cur.val s' else s'
            match takeUpset s with
            | (some u, t) =>
              if u.runs < 3 then headEnds es.length s r (countCorrected u.runs (curCore s) u.lane (takeUpset s').2)
              else
                let hi := if b then entryLength s' (es.getLast?.getD e) else vstart s'
                let hi := if needsEngine e.instr then hi else min hi (stripEnd s)
                set (parityTrap es u.lane hi (countCorrected 2 (curCore s) u.lane (keepBinding t s')))
                pure false
            | (none, _) => headEnds es.length s r (takeUpset s').2
        | .error _ => headEnds es.length s r s'

/-- The VIQ runs as far as it can, the core's copies beside it; under `lag`, while the scalar side waits for its entries (R55). -/
def runViq : Nat → Act Unit
  | 0 => pure ()
  | n + 1 => do
    let s ← get
    if s.lag ∧ s.st.await = 0 then pure ()
    else if ← runHead noLimit then
      copiesGo (curCore (← get))
      runViq n

/-- More heads than a VIQ can run. -/
def viqFuel : Nat := 2 ^ 20

/-- The units beside the scalar side go on: copies, tile transfers and the VIQ. -/
def vectorSide : Act Unit := do
  copiesGo (curCore (← get))
  let s ← get
  if ! s.lag then
    set (Act.on (endTransfers s.st.accum.flight.length) s).2
  runViq viqFuel

/-! ## Entry into the VIQ (R54) -/

/-- The entry of an instruction at the pc. -/
def viqEntry (i : Instr) (s : State) : VEntry :=
  let r := operandRegs i
  { addr := s.st.pc, vl := s.st.csr.vl.toNat, instr := i, op0 := s.readX r.1, op1 := s.readX r.2 }

/-- The entry joins the VIQ's tail, and the scalar side goes on. -/
def enqueue (len : Nat) (i : Instr) (s : State) : State :=
  let s' := s.retire len
  { s' with st := { s'.st with viq := s'.st.viq ++ [viqEntry i s] } }

/-- A vector-queue instruction of len bytes enters the VIQ; a full one parks the strand with reason 0xB. Unless the vector
side lags, it runs at once as far as it can. -/
def issue (len : Nat) (i : Instr) (s : State) : Host.Outcome State Fault Refusal :=
  finish s (Act.on (do
    if Config.viqDepth ≤ s.st.viq.length then throw (.park 0xB .viq)
    apply (enqueue len i)
    if ! s.lag then runViq viqFuel) s)

/-! ## Operations of the units -/

/-- The head of strand n runs up to an element, where p holds of its instruction. A strand that is parked at a group's barrier is no
exception: R75 and R76 name no such head that is not ready (log 95). -/
def headOf (n : Fin 4096) (p : Instr → Bool) (lim : State → Nat) : Act Bool := do
  let s ← get
  let go := strandLive s n.val && (match (getStrand s n.val).viq with | e :: _ => p e.instr | [] => false)
  if ! go then pure false
  else
    let back := s.cur
    apply fun s => focusOn s n
    let (r, s) := Act.on (runHead (lim (← get))) (← get)
    set (focusOn s back)
    match r with
    | .ok b => pure b
    | .error x => throw x

/-- Element groups of a strip (R73). -/
def stripGroups : Nat := 8

/-- `ebeats` of strand n changed by f. -/
def modBeats (s : State) (n : Nat) (f : Word → Word) : State :=
  modStrand s n fun t => { t with csr := { t.csr with ebeats := f t.csr.ebeats } }

/-- Where the next strip of the focused strand's head ends: in the engine, one unit of its own. -/
def headStrip (s : State) : Nat :=
  match s.st.viq with
  | e :: _ => if needsEngine e.instr then vstart s + 1 else stripEnd s
  | [] => vstart s

/-- One strip of the head of strand n (R73): at most 8 element groups. An instruction that commits whole passes its earlier strips
without effect, and commits with its last. The answer says whether a strip was issued, be it one that traps. -/
def stripOf (n : Fin 4096) : Act Bool := do
  let s ← get
  let t := getStrand s n.val
  let (r, s') := Act.on (headOf n (fun _ => true) headStrip) s
  match r with
  | .error x => throw x
  | .ok b =>
    let t' := getStrand s' n.val
    if ! t'.resident then set s'; pure false
    else
      let all := (t'.csr.ebeats - t.csr.ebeats).toNat
      let popped := decide (t'.viq.length < t.viq.length)
      if popped && decide (stripGroups + t.passed < all) then
        set (modBeats (modStrand s n.val fun t => { t with passed := t.passed + stripGroups }) n.val (· + w64 stripGroups))
        pure true
      else
        set (modBeats s' n.val (· - w64 (min t.passed all)))
        pure (b || popped || decide (all ≠ 0))

/-- Strips of strand n while its deficit lasts and its head is ready (R75). The answer says whether one was issued. -/
def visitStrips (n : Fin 4096) : Nat → Act Bool
  | 0 => pure false
  | k + 1 => do
    let s ← get
    if 0 < (getStrand s n.val).deficit then
      let before := (getStrand s n.val).csr.ebeats
      if ← stripOf n then
        apply fun s => modStrand s n.val fun t => { t with deficit := t.deficit - ((t.csr.ebeats - before).toNat : Nat) }
        let _ ← visitStrips n k
        pure true
      else pure false
    else pure false

/-- One visit of the vector sequencer (R75). After a YIELD the strand's deficit becomes Min(D, 0) there, and it issues no strip
(R352, log 64). -/
def visit (c : Fin 1024) : Act Unit := do
  let s ← get
  let k := getCore s c.val
  let n : Fin 4096 := Fin.ofNat 4096 (4 * c.val + k.visit.val)
  let t := getStrand s n.val
  if t.viq.isEmpty then apply fun s => modStrand s n.val fun t => { t with deficit := 0, yielded := false }
  else if t.yielded then apply fun s => modStrand s n.val fun t => { t with deficit := min t.deficit 0, yielded := false }
  else
    let before := t.deficit
    apply fun s => modStrand s n.val fun t => { t with deficit := before + (t.csr.vshare.toNat * 64 : Nat) }
    let any ← visitStrips n 2048
    apply fun s => modStrand s n.val fun t =>
      { t with deficit := if ! t.resident then 0 else if any then min t.deficit 0 else before }
  apply fun s => modCore s c.val fun k => { k with visit := k.visit + 1 }

/-- STRIP_ISSUE. -/
def execStripIssue (core : Fin 1024) (s : State) : Host.Outcome State Fault Refusal := event (visit core) s

/-- One engine strip goes to the first strand that can use it. -/
def engineStrip (c : Fin 1024) : List (Fin 4) → Act Unit
  | [] => pure ()
  | j :: t => do
    if ! (← headOf (Fin.ofNat 4096 (4 * c.val + j.val)) needsEngine (fun s => vstart s + 1)) then engineStrip c t

/-- ENGINE_STRIP. -/
def execEngineStrip (core : Fin 1024) (s : State) : Host.Outcome State Fault Refusal :=
  event (engineStrip core (engineOrder (getCore s core.val))) s

/-- A copy command. -/
def isCopy (i : Instr) : Bool :=
  match i with
  | .xcopy _ _ _ _ _ _ _ | .xgath _ _ _ _ _ | .xxform _ _ _ _ => true
  | _ => false

/-- COPY_ACCEPT (R162): the channel accepts the command at the head of strand n. -/
def execCopyAccept (n : Fin 4096) (s : State) : Host.Outcome State Fault Refusal :=
  event (do let _ ← headOf n isCopy (fun _ => noLimit)) s

/-- CHAIN_GROUP_DELIVERY (R167): one element group of the XCHAIN at the head of strand n, or of the chain that ends in one. -/
def execChainGroupDelivery (n : Fin 4096) (s : State) : Host.Outcome State Fault Refusal :=
  let sends := match chainGroup (getStrand s n.val).viq with
    | some es => (match es.getLast? with | some e => (match e.instr with | .xchain _ _ => true | _ => false) | none => false)
    | none => false
  event (do if sends then let _ ← headOf n (fun _ => true) (fun s => vstart s + 1)) s

/-- VWAIT_TIMEOUT (R322): a VWAIT at the head of strand n whose time is up completes. -/
def execVwaitTimeout (n : Fin 4096) (s : State) : Host.Outcome State Fault Refusal :=
  event (do let _ ← headOf n (fun i => match i with | .vwait _ _ _ _ _ _ _ => true | _ => false) (fun _ => noLimit)) s

end Sys2Proof.Machine
end

