-- ==== Sys2Proof/Machine/Issue.lean ====
section
/-! DEFINITION. The vector-queue instructions as the scalar side meets them (R54): each enters the VIQ with its captured
operands; its run is the definition of chapters 17 to 20 that `planOf` names. The prefixed tile forms are 8 bytes long. -/

namespace Sys2Proof.Machine

def execVtag (t : BitVec 6) (n1 : Fin 32) (d : VReg) (s : State) : Host.Outcome State Fault Refusal := issue 4 (.vtag t n1 d) s
def execVadd (c m : Bool) (d a : VReg) (b : VSrc) (s : State) : Host.Outcome State Fault Refusal := issue 4 (.vadd c m d a b) s
def execVsub (c m : Bool) (d a : VReg) (b : VSrc) (s : State) : Host.Outcome State Fault Refusal := issue 4 (.vsub c m d a b) s
def execVrsub (c m : Bool) (d a : VReg) (b : VSrc) (s : State) : Host.Outcome State Fault Refusal :=
  issue 4 (.vrsub c m d a b) s
def execVmul (c m : Bool) (d a : VReg) (b : VSrc) (s : State) : Host.Outcome State Fault Refusal := issue 4 (.vmul c m d a b) s
def execVmulh (c m : Bool) (d a : VReg) (b : VSrc) (s : State) : Host.Outcome State Fault Refusal :=
  issue 4 (.vmulh c m d a b) s
def execVdiv (c m : Bool) (d a : VReg) (b : VSrc) (s : State) : Host.Outcome State Fault Refusal := issue 4 (.vdiv c m d a b) s
def execVrem (c m : Bool) (d a : VReg) (b : VSrc) (s : State) : Host.Outcome State Fault Refusal := issue 4 (.vrem c m d a b) s
def execVmin (c m : Bool) (d a : VReg) (b : VSrc) (s : State) : Host.Outcome State Fault Refusal := issue 4 (.vmin c m d a b) s
def execVmax (c m : Bool) (d a : VReg) (b : VSrc) (s : State) : Host.Outcome State Fault Refusal := issue 4 (.vmax c m d a b) s
def execVand (c m : Bool) (d a : VReg) (b : VSrc) (s : State) : Host.Outcome State Fault Refusal := issue 4 (.vand c m d a b) s
def execVor (c m : Bool) (d a : VReg) (b : VSrc) (s : State) : Host.Outcome State Fault Refusal := issue 4 (.vor c m d a b) s
def execVxor (c m : Bool) (d a : VReg) (b : VSrc) (s : State) : Host.Outcome State Fault Refusal := issue 4 (.vxor c m d a b) s
def execVsll (c m : Bool) (d a : VReg) (b : VSrc) (s : State) : Host.Outcome State Fault Refusal := issue 4 (.vsll c m d a b) s
def execVsrl (c m : Bool) (d a : VReg) (b : VSrc) (s : State) : Host.Outcome State Fault Refusal := issue 4 (.vsrl c m d a b) s
def execVsra (c m : Bool) (d a : VReg) (b : VSrc) (s : State) : Host.Outcome State Fault Refusal := issue 4 (.vsra c m d a b) s
def execVfma (c m : Bool) (d a : VReg) (b : VSrc) (s : State) : Host.Outcome State Fault Refusal := issue 4 (.vfma c m d a b) s
def execVfnma (c m : Bool) (d a : VReg) (b : VSrc) (s : State) : Host.Outcome State Fault Refusal :=
  issue 4 (.vfnma c m d a b) s
def execVabs (c m : Bool) (d a : VReg) (s : State) : Host.Outcome State Fault Refusal := issue 4 (.vabs c m d a) s
def execVneg (c m : Bool) (d a : VReg) (s : State) : Host.Outcome State Fault Refusal := issue 4 (.vneg c m d a) s
def execVsel (c : Bool) (d a : VReg) (b : VSrc) (s : State) : Host.Outcome State Fault Refusal := issue 4 (.vsel c d a b) s
def execVaddc (q : MReg) (c m : Bool) (d a : VReg) (b : VSrc) (s : State) : Host.Outcome State Fault Refusal :=
  issue 4 (.vaddc q c m d a b) s
def execVsubb (q : MReg) (c m : Bool) (d a : VReg) (b : VSrc) (s : State) : Host.Outcome State Fault Refusal :=
  issue 4 (.vsubb q c m d a b) s
def execVmadw (c m : Bool) (d a : VReg) (b : VSrc) (s : State) : Host.Outcome State Fault Refusal :=
  issue 4 (.vmadw c m d a b) s
def execVnshr (c m : Bool) (d a : VReg) (b : VSrc) (s : State) : Host.Outcome State Fault Refusal :=
  issue 4 (.vnshr c m d a b) s
def execVsadd (c m : Bool) (d a : VReg) (b : VSrc) (s : State) : Host.Outcome State Fault Refusal :=
  issue 4 (.vsadd c m d a b) s
def execVssub (c m : Bool) (d a : VReg) (b : VSrc) (s : State) : Host.Outcome State Fault Refusal :=
  issue 4 (.vssub c m d a b) s
def execVavg (c m : Bool) (d a : VReg) (b : VSrc) (s : State) : Host.Outcome State Fault Refusal := issue 4 (.vavg c m d a b) s
def execVcmp (q : VCond) (m : Bool) (d : MReg) (a : VReg) (b : VSrc) (s : State) : Host.Outcome State Fault Refusal :=
  issue 4 (.vcmp q m d a b) s
def execMand (d a b : MReg) (s : State) : Host.Outcome State Fault Refusal := issue 4 (.mand d a b) s
def execMor (d a b : MReg) (s : State) : Host.Outcome State Fault Refusal := issue 4 (.mor d a b) s
def execMxor (d a b : MReg) (s : State) : Host.Outcome State Fault Refusal := issue 4 (.mxor d a b) s
def execMandn (d a b : MReg) (s : State) : Host.Outcome State Fault Refusal := issue 4 (.mandn d a b) s
def execMnot (d a : MReg) (s : State) : Host.Outcome State Fault Refusal := issue 4 (.mnot d a) s
def execMslide (d a : MReg) (k : Fin 4) (s : State) : Host.Outcome State Fault Refusal := issue 4 (.mslide d a k) s
def execMset (d : MReg) (k : Bool) (s : State) : Host.Outcome State Fault Refusal := issue 4 (.mset d k) s
def execMmvMask (d a : MReg) (s : State) : Host.Outcome State Fault Refusal := issue 4 (.mmvMask d a) s
def execMmvToVector (d : VReg) (a : MReg) (s : State) : Host.Outcome State Fault Refusal := issue 4 (.mmvToVector d a) s
def execMmvFromVector (d : MReg) (a : VReg) (s : State) : Host.Outcome State Fault Refusal := issue 4 (.mmvFromVector d a) s
def execVslide (m : Bool) (d a : VReg) (b : XISrc) (s : State) : Host.Outcome State Fault Refusal := issue 4 (.vslide m d a b) s
def execVperm (m : Bool) (d a b : VReg) (s : State) : Host.Outcome State Fault Refusal := issue 4 (.vperm m d a b) s
def execVcomp (d a : VReg) (s : State) : Host.Outcome State Fault Refusal := issue 4 (.vcomp d a) s
def execViota (m : Bool) (d : VReg) (a : MReg) (s : State) : Host.Outcome State Fault Refusal := issue 4 (.viota m d a) s
def execVmv (m : Bool) (d : VReg) (b : MvSrc) (s : State) : Host.Outcome State Fault Refusal := issue 4 (.vmv m d b) s
def execVmvi (d : VReg) (b a : XReg) (s : State) : Host.Outcome State Fault Refusal := issue 4 (.vmvi d b a) s
def execVred (m toX : Bool) (o : RedOp) (d : Fin 32) (a : VReg) (s : State) : Host.Outcome State Fault Refusal :=
  if toX then vredToX m o d a s else issue 4 (.vred m toX o d a) s
def execVscan (m : Bool) (d a : VReg) (s : State) : Host.Outcome State Fault Refusal := issue 4 (.vscan m d a) s
def execVsegredSum (m : Bool) (d a : VReg) (b : XReg) (s : State) : Host.Outcome State Fault Refusal :=
  issue 4 (.vsegredSum m d a b) s
def execVsegredMax (m : Bool) (d a : VReg) (b : XReg) (s : State) : Host.Outcome State Fault Refusal :=
  issue 4 (.vsegredMax m d a b) s
def execVsegredMin (m : Bool) (d a : VReg) (b : XReg) (s : State) : Host.Outcome State Fault Refusal :=
  issue 4 (.vsegredMin m d a b) s
def execVrcp (c m : Bool) (d a : VReg) (s : State) : Host.Outcome State Fault Refusal := issue 4 (.vrcp c m d a) s
def execVrsq (c m : Bool) (d a : VReg) (s : State) : Host.Outcome State Fault Refusal := issue 4 (.vrsq c m d a) s
def execVsqrt (c m : Bool) (d a : VReg) (s : State) : Host.Outcome State Fault Refusal := issue 4 (.vsqrt c m d a) s
def execVexp2 (c m : Bool) (d a : VReg) (s : State) : Host.Outcome State Fault Refusal := issue 4 (.vexp2 c m d a) s
def execVlog2 (c m : Bool) (d a : VReg) (s : State) : Host.Outcome State Fault Refusal := issue 4 (.vlog2 c m d a) s
def execVtanh (c m : Bool) (d a : VReg) (s : State) : Host.Outcome State Fault Refusal := issue 4 (.vtanh c m d a) s
def execVcvt (r : CvtMode) (c m : Bool) (d a : VReg) (s : State) : Host.Outcome State Fault Refusal :=
  issue 4 (.vcvt r c m d a) s
def execVcvtScaled (r : CvtMode) (c m : Bool) (d a : VReg) (s : State) : Host.Outcome State Fault Refusal :=
  issue 4 (.vcvtScaled r c m d a) s
def execVamax (m : Bool) (a : VReg) (s : State) : Host.Outcome State Fault Refusal := issue 4 (.vamax m a) s
def execVscale (m : Bool) (f : BitVec 5) (d a : VReg) (s : State) : Host.Outcome State Fault Refusal :=
  issue 4 (.vscale m f d a) s
def execVscore (m : Bool) (d a : VReg) (b : XReg) (s : State) : Host.Outcome State Fault Refusal := issue 4 (.vscore m d a b) s
def execVexpm (c m : Bool) (d a : VReg) (b : XReg) (s : State) : Host.Outcome State Fault Refusal :=
  issue 4 (.vexpm c m d a b) s
def execVaccp (m : Bool) (d a : VReg) (b : XReg) (s : State) : Host.Outcome State Fault Refusal := issue 4 (.vaccp m d a b) s
def execVld (m : Bool) (g : Lane4) (d : VReg) (b : XReg) (s : State) : Host.Outcome State Fault Refusal :=
  issue 4 (.vld m g d b) s
def execVldStrided (m : Bool) (g : Lane4) (d : VReg) (b v : XReg) (s : State) : Host.Outcome State Fault Refusal :=
  issue 4 (.vldStrided m g d b v) s
def execVldseg (n : Fin 8) (m : Bool) (g : Lane4) (d : VReg) (b v : XReg) (s : State) : Host.Outcome State Fault Refusal :=
  issue 4 (.vldseg n m g d b v) s
def execVwait (x : WideScope) (q : WaitCond) (m : Bool) (g : Lane4) (v : VReg) (b : XReg) (i : VReg) (s : State) : Host.Outcome State Fault Refusal :=
  issue 4 (.vwait x q m g v b i) s
def execVst (m : Bool) (g : Lane4) (v : VReg) (b : XReg) (s : State) : Host.Outcome State Fault Refusal :=
  issue 4 (.vst m g v b) s
def execVstStrided (m : Bool) (g : Lane4) (v : VReg) (b i : XReg) (s : State) : Host.Outcome State Fault Refusal :=
  issue 4 (.vstStrided m g v b i) s
def execVstseg (n : Fin 8) (m : Bool) (g : Lane4) (v : VReg) (b i : XReg) (s : State) : Host.Outcome State Fault Refusal :=
  issue 4 (.vstseg n m g v b i) s
def execVldx (m : Bool) (g : Lane4) (d : VReg) (b : XReg) (i : VReg) (s : State) : Host.Outcome State Fault Refusal :=
  issue 4 (.vldx m g d b i) s
def execVstxU (m : Bool) (g : Lane4) (v : VReg) (b : XReg) (i : VReg) (s : State) : Host.Outcome State Fault Refusal :=
  issue 4 (.vstxU m g v b i) s
def execVstxO (m : Bool) (g : Lane4) (v : VReg) (b : XReg) (i : VReg) (s : State) : Host.Outcome State Fault Refusal :=
  issue 4 (.vstxO m g v b i) s
def execVscadd (m : Bool) (g : Lane4) (v : VReg) (b : XReg) (i : VReg) (s : State) : Host.Outcome State Fault Refusal :=
  issue 4 (.vscadd m g v b i) s
def execVmergeu (kz : Bool) (d : VReg) (n : XReg) (a : VReg) (s : State) : Host.Outcome State Fault Refusal :=
  issue 4 (.vmergeu kz d n a) s
def execVamo (o : VamoOp) (x : WideScope) (r : Option OrdFlag) (m : Bool) (g : Lane4) (d : VReg) (b : XReg) (i : VReg) (s : State) : Host.Outcome State Fault Refusal :=
  issue 4 (.vamo o x r m g d b i) s
def execVsqres (m : Bool) (g : Lane4) (d h : VReg) (s : State) : Host.Outcome State Fault Refusal := issue 4 (.vsqres m g d h) s
def execVsqst (m : Bool) (g : Lane4) (v : VReg) (h i : XReg) (s : State) : Host.Outcome State Fault Refusal :=
  issue 4 (.vsqst m g v h i) s
def execVsqstX (m : Bool) (g : Lane4) (v h i : VReg) (s : State) : Host.Outcome State Fault Refusal :=
  issue 4 (.vsqstX m g v h i) s
def execVsqcmt (x : WideScope) (m : Bool) (g : Lane4) (h i : VReg) (s : State) : Host.Outcome State Fault Refusal :=
  issue 4 (.vsqcmt x m g h i) s
def execVsqld (m : Bool) (g : Lane4) (d : VReg) (h i : XReg) (s : State) : Host.Outcome State Fault Refusal :=
  issue 4 (.vsqld m g d h i) s
def execVsqldX (m : Bool) (g : Lane4) (d h i : VReg) (s : State) : Host.Outcome State Fault Refusal :=
  issue 4 (.vsqldX m g d h i) s
def execDcfg (d x : XReg) (s : State) : Host.Outcome State Fault Refusal := issue 4 (.dcfg d x) s
def execDzero (x : XReg) (s : State) : Host.Outcome State Fault Refusal := issue 4 (.dzero x) s
def execDmac (a b : VReg) (x : XReg) (s : State) : Host.Outcome State Fault Refusal := issue 4 (.dmac a b x) s
def execDmacD (a b : VReg) (x : XReg) (s : State) : Host.Outcome State Fault Refusal := issue 4 (.dmacD a b x) s
def execDmacg (a b : VReg) (x : XReg) (s : State) : Host.Outcome State Fault Refusal := issue 4 (.dmacg a b x) s
def execDxtr (ne m : Bool) (d : VReg) (x : XReg) (s : State) : Host.Outcome State Fault Refusal := issue 4 (.dxtr ne m d x) s
def execDdir (d x : XReg) (s : State) : Host.Outcome State Fault Refusal := issue 4 (.ddir d x) s
def execDfree (x : XReg) (s : State) : Host.Outcome State Fault Refusal := issue 4 (.dfree x) s
def execDmv (d a b : VReg) (x : XReg) (s : State) : Host.Outcome State Fault Refusal := issue 4 (.dmv d a b x) s
def execDmvM (d a b : VReg) (x : XReg) (s : State) : Host.Outcome State Fault Refusal := issue 4 (.dmvM d a b x) s
def execDpiv (m : Bool) (d a : VReg) (s : State) : Host.Outcome State Fault Refusal := issue 4 (.dpiv m d a) s
def execDupd (m : Bool) (a : VReg) (x : XReg) (s : State) : Host.Outcome State Fault Refusal := issue 4 (.dupd m a x) s
def execXcopy (ex : Bool) (z : Sz) (h : Lane4) (o : Ord) (d a : XReg) (b : VReg) (s : State) : Host.Outcome State Fault Refusal :=
  issue 4 (.xcopy ex z h o d a b) s
def execXgath (h : Lane4) (o : Ord) (d a : XReg) (b : VReg) (s : State) : Host.Outcome State Fault Refusal :=
  issue 4 (.xgath h o d a b) s
def execXxform (h : Lane4) (o : Ord) (a b : XReg) (s : State) : Host.Outcome State Fault Refusal := issue 4 (.xxform h o a b) s
def execXdrain (h : Lane4) (s : State) : Host.Outcome State Fault Refusal := issue 4 (.xdrain h) s
def execXchain (a : VReg) (b : XReg) (s : State) : Host.Outcome State Fault Refusal := issue 4 (.xchain a b) s
def execSbind (d : SReg) (a b : XReg) (s : State) : Host.Outcome State Fault Refusal := issue 4 (.sbind d a b) s
def execSrel (d : SReg) (s : State) : Host.Outcome State Fault Refusal := issue 4 (.srel d) s
def execSstat (d : XReg) (a : SReg) (s : State) : Host.Outcome State Fault Refusal := issue 4 (.sstat d a) s
def execTzero (t : TReg) (s : State) : Host.Outcome State Fault Refusal := issue 8 (.tzero t) s
def execTrowmv (m : Bool) (t : TReg) (a : VReg) (x : XReg) (s : State) : Host.Outcome State Fault Refusal :=
  issue 8 (.trowmv m t a x) s
def execTcolmv (m : Bool) (d : VReg) (t : TReg) (x : XReg) (s : State) : Host.Outcome State Fault Refusal :=
  issue 8 (.tcolmv m d t x) s
def execTmma (t : TReg) (a b : VReg) (s : State) : Host.Outcome State Fault Refusal := issue 8 (.tmma t a b) s
def execTstat (d : XReg) (s : State) : Host.Outcome State Fault Refusal := issue 8 (.tstat d) s
def execTsave (t : TReg) (a : XReg) (s : State) : Host.Outcome State Fault Refusal := issue 8 (.tsave t a) s
def execTrest (t : TReg) (a : XReg) (s : State) : Host.Outcome State Fault Refusal := issue 8 (.trest t a) s

end Sys2Proof.Machine
end

