-- ==== Sys2Proof/Machine/Fetch.lean ====
section
/-! DEFINITION. Fetching an instruction (R241, R242), the turn of a strand, what every step brings up to date, data errors, and a
machine in which a given instruction stands where the next fetch finds it. -/

namespace Sys2Proof.Machine

/-! ## Fetch -/

/-- The halfword at an address: checked as a fetch (R176), never from an MMIO page (R175), read at its home. -/
def fetchHalf (va : VAddr) : Act Nat := do
  let e ← translate .fetch va
  if e.tier = 3 then trap 0x05 (vaWord va)
  let bs ← readAtHome e va (e.key va.toNat) 2
  pure (bytesToNat bs)

/-- n halfwords from an address, the first in the low bits. -/
def fetchHalves (va : VAddr) : Nat → Act Nat
  | 0 => pure 0
  | n + 1 => do
    let h ← fetchHalf va
    let r ← fetchHalves (va + 2) n
    pure (h + 2 ^ 16 * r)

/-- The bits of the instruction at the pc: its first halfword gives its length (R241). -/
def fetchInstr : Act Nat := do
  let pc := (← get).st.pc
  let h ← fetchHalf pc
  let r ← fetchHalves (pc + 2) (lengthOf h / 2 - 1)
  pure (h + 2 ^ 16 * r)

/-! ## The turn of a strand -/

/-- The clocks of a step pass (log 7). -/
def tick (s : State) : State := { s with cycle := s.cycle + Config.clocks s.freeCount, freeCount := s.freeCount + 1 }

/-- The scalar side may go on: its strand runs, is not parked, and no entry of its VIQ holds it (R55). -/
def scalarReady (s : State) : Bool :=
  strandLive s s.cur.val && decide (s.st.park = 0) && ! s.st.viq.any fun e => holdsScalar e.instr

/-- The machine as the scalar side meets it: no entry is awaited. -/
def scalarTurn (s : State) : State := { s with st := { s.st with await := 0 } }

/-- Bits that are no instruction trap with cause 0x01 (R251). -/
def noInstr (w : Nat) (s : State) : State := scalarTrap 0x01 (wordOfBits w) s

/-- What every step brings up to date: deadlines that have passed, requests that waited, writes no longer held, vine updates that are
due, and the page command unit. -/
def settle (s : State) : State := pagesSettle (retryDue (endHolds (retryInbound (wakeTimers s))))

/-- A data error strikes (R131, R132, R206, R371): a line of memory or a word of a scratchpad, the vat entry of a line, or what another
structure of Table 26.1 holds, is poisoned; a failure of parity waits for the strip or the read that meets it; a routine that a press
engine runs is stopped (R169), Daleel resets itself, and a tag store's error is fatal to its die (R380). -/
def strike (e : DataError) (s : State) : State :=
  match e with
  | .memory pa => if isSpad pa then poisonRange s (pa / 8 * 8) 8 else poisonRange s (lineOf pa) 128
  | .vat line =>
    match (findTag s (lineOf line)).bind (·.entry) with
    | some n =>
      { s with lines := { s.lines with vat := s.lines.vat.map fun v => if v.1 = n then (n, { v.2 with poison := true }) else v } }
    | none => s
  | .strip core u => modCore s core.val fun k => { k with upsets := k.upsets ++ [u] }
  | .acc n word twice => modStrand s n.val fun t =>
    { t with accum := { t.accum with faults := t.accum.faults.filter (fun f => f.1 ≠ word) ++ [(word, twice)] } }
  | .engine e => stopRoutine e s
  | .register n w => if w = .x 0 then s else modStrand s n.val fun t => { t with bad := t.bad.filter (· ≠ w) ++ [w] }
  | .l1 core line => modCore s core.val fun k =>
    { k with l1 := k.l1.map fun l => if lineOf l.addr = lineOf line then { l with poison := true } else l }
  | .rdc die line => { s with lines := { s.lines with rdcBad := s.lines.rdcBad.filter (· ≠ (die, lineOf line)) ++ [(die, lineOf line)] } }
  | .tag die => fatalReset die s
  | .coreTlb core k => modCore s core.val fun c =>
    { c with tlb := c.tlb.zipIdx.map fun (e, j) => if j = k then { e with poison := true } else e }
  | .dieTlb die ctx va =>
    let mark (x : Fin 4 × TlbEntry) : Fin 4 × TlbEntry :=
      if decide (x.1 = die) && x.2.maps ctx va.toNat then (x.1, { x.2 with poison := true }) else x
    { s with lines := { s.lines with tlb := s.lines.tlb.map mark } }
  | .viq n k => modStrand s n.val fun t =>
    { t with viq := t.viq.zipIdx.map fun (e, j) => if j = k then { e with poison := true } else e }
  | .queue q seq =>
    let v := getQueue s q.val
    setQueue s q.val { v with entries := v.entries.map fun e => if e.seq = seq then { e with poison := true } else e }
  | .stream n r => modStrand s n.val fun t => { t with streams := t.streams.set r.val { t.streams[r.val] with poison := true } }
  | .daleel => resetMailbox s
  | .nor => { s with daleel := { s.daleel with norFails := true } }

/-! ## A machine about to run an instruction -/

/-- Where `placed` puts the page tables, the code and the pc: context 1, PTROOT, the mid table, one 64 MiB page. -/
def placedRoot : Nat := 0x8000
def placedMid : Nat := 0x10000
def placedFrame : Nat := 0x4000000
def placedPc : VAddr := 0x10000000

/-- The focused strand is resident in the running context 1, whose one page, readable and writable, holds the bytes bs at the
pc; every die is up, and nothing waits for a walk or stands in error. -/
def placed (s : State) (bs : List Byte) : State :=
  let s := { s with
    agenda := []
    lag := false
    lines := { s.lines with misses := [], missed := [], rdcBad := [] }
    daleel := { s.daleel with powered := true, dies := Vector.replicate 4 .up }
    st := { s.st with resident := true, ctx := 1, pc := placedPc, park := 0, wait := .none, await := 0, viq := [], bad := [] }
    lp := { s.lp with active := sset 0 s.lp.active 1 2 } }
  let put (s : State) (a : Nat) (bs : List Byte) : State := { clearEntryPoison (clearPoison s (lineOf a) 128) (lineOf a) with mem := memWrite s.mem a bs }
  let s := put s (descAddr s 1) (natToBytes 8 2)
  let s := put s (descAddr s 1 + 8) (natToBytes 8 placedRoot)
  let s := put s placedRoot (natToBytes 8 (2 ^ 63 + placedMid))
  let s := put s (placedMid + 8 * 4) (natToBytes 8 (2 ^ 63 + 2 ^ 62 + 2 ^ 61 + 2 ^ 60 + placedFrame))
  shootdown (put s placedFrame bs) 1 fun _ => true

end Sys2Proof.Machine
end

