-- ==== Sys2Proof/Machine/Float.lean ====
section
/-! DEFINITION. Scalar floating point (R277 to R283). -/

namespace Sys2Proof.Machine

/-- The format a scalar form names. -/
def ffmt : FFmt → FloatFmt
  | .f16 => fmtF16
  | .bf16 => fmtBf16
  | .f32 => fmtF32
  | .f64 => fmtF64

/-- The rounding mode of `frnd` (Table 2.9); none for 5 to 7. -/
def frndMode (r : BitVec 3) : Option Mode :=
  match r.toNat with
  | 0 => some .ne
  | 1 => some .rz
  | 2 => some .dn
  | 3 => some .up
  | 4 => some .away
  | _ => none

/-- An exact zero sum of opposite signs is -0 toward minus infinity (R277). -/
def zeroNeg (m : Mode) : Bool := decide (m = .dn)

/-- x[r] read in a format. -/
def readFloat (s : State) (f : FFmt) (r : XReg) : Num := decodeFloat (ffmt f) (s.readX r).toNat

/-- Scalar floating point under `frnd`: 5 to 7 trap with cause 0x01 before any effect (R40, R277). -/
def underFrnd (i : Instr) (d : XReg) (k : Mode → Word × Flags) (s : State) : Host.Outcome State Fault Refusal :=
  match frndMode s.st.csr.frnd with
  | none => .next (scalarTrap 0x01 (instrWord i) s)
  | some m => let r := k m; put ((s.raise r.2)) d r.1
where put (s : State) (d : XReg) (v : Word) : Host.Outcome State Fault Refusal := .next ((s.writeX d v).retire 4)

/-- A result rounded to a format, with the flags of both halves; NaN results are canonical (R27). -/
def roundResult (f : FFmt) (m : Mode) (r : Num × Flags) : Word × Flags :=
  let e := encodeFloat (ffmt f) m r.1
  (w64 e.1, r.2 ||| e.2)

/-- FADD. -/
def execFadd (f : FFmt) (d a b : XReg) (s : State) : Host.Outcome State Fault Refusal :=
  underFrnd (.fadd f d a b) d (fun m => roundResult f m (addNum (zeroNeg m) (readFloat s f a) (readFloat s f b))) s

/-- FSUB. -/
def execFsub (f : FFmt) (d a b : XReg) (s : State) : Host.Outcome State Fault Refusal :=
  underFrnd (.fsub f d a b) d (fun m => roundResult f m (addNum (zeroNeg m) (readFloat s f a) (readFloat s f b).flip)) s

/-- FMUL. -/
def execFmul (f : FFmt) (d a b : XReg) (s : State) : Host.Outcome State Fault Refusal :=
  underFrnd (.fmul f d a b) d (fun m => roundResult f m (mulNum (readFloat s f a) (readFloat s f b))) s

/-- FMA: A × B + D with one rounding. -/
def execFma (f : FFmt) (d a b : XReg) (s : State) : Host.Outcome State Fault Refusal :=
  underFrnd (.fma f d a b) d
    (fun m => roundResult f m (fmaNum (zeroNeg m) (readFloat s f a) (readFloat s f b) (readFloat s f d))) s

/-- FNMA: D - A × B with one rounding. -/
def execFnma (f : FFmt) (d a b : XReg) (s : State) : Host.Outcome State Fault Refusal :=
  underFrnd (.fnma f d a b) d
    (fun m => roundResult f m (fmaNum (zeroNeg m) (readFloat s f a).flip (readFloat s f b) (readFloat s f d))) s

/-- FDIV. -/
def execFdiv (f : FFmt) (d a b : XReg) (s : State) : Host.Outcome State Fault Refusal :=
  underFrnd (.fdiv f d a b) d (fun m => roundResult f m (divNum (readFloat s f a) (readFloat s f b))) s

/-- FSQRT. -/
def execFsqrt (f : FFmt) (d a : XReg) (s : State) : Host.Outcome State Fault Refusal :=
  underFrnd (.fsqrt f d a) d (fun m => roundResult f m (sqrtNum (readFloat s f a))) s

/-- FMIN (R279). -/
def execFmin (f : FFmt) (d a b : XReg) (s : State) : Host.Outcome State Fault Refusal :=
  underFrnd (.fmin f d a b) d (fun m => roundResult f m (minMaxNum false (readFloat s f a) (readFloat s f b))) s

/-- FMAX (R279). -/
def execFmax (f : FFmt) (d a b : XReg) (s : State) : Host.Outcome State Fault Refusal :=
  underFrnd (.fmax f d a b) d (fun m => roundResult f m (minMaxNum true (readFloat s f a) (readFloat s f b))) s

/-- The comparisons of R280, with their flag. -/
def compareNum (q : FCond) (a b : Num) : Bool × Flags :=
  let any := a.isNan || b.isNan
  let snan := nvOf [a, b]
  match q with
  | .eq => (! any && ! ltNum false a b && ! ltNum false b a, snan)
  | .lt => (! any && ltNum false a b, flagIf any flagNV)
  | .le => (! any && ! ltNum false b a, flagIf any flagNV)
  | .un => (any, snan)

/-- FCMP (R280). -/
def execFcmp (f : FFmt) (q : FCond) (d a b : XReg) (s : State) : Host.Outcome State Fault Refusal :=
  underFrnd (.fcmp f q d a b) d
    (fun _ => let r := compareNum q (readFloat s f a) (readFloat s f b); (if r.1 then 1 else 0, r.2)) s

/-- The class of a value of a format: one bit of [9:0] (R281). -/
def classOf (f : FloatFmt) (v : Num) : Nat :=
  match v with
  | .nan s => if s then 8 else 9
  | .inf neg => if neg then 0 else 7
  | .fin neg m e =>
    if m = 0 then (if neg then 3 else 4)
    else if leadExp m e < f.emin + (f.p - 1 : Nat) then (if neg then 2 else 5)
    else (if neg then 1 else 6)

/-- FCLASS: no flag, and `frnd` is ignored (R281). -/
def execFclass (f : FFmt) (d a : XReg) (s : State) : Host.Outcome State Fault Refusal :=
  .next ((s.writeX d (w64 (2 ^ classOf (ffmt f) (readFloat s f a)))).retire 4)

/-- What a type of FCVT is. -/
inductive CvtShape
  | flt (f : FloatFmt)
  | int (w : Nat) (sgn : Bool)

def cvtShape : CvtTy → CvtShape
  | .f16 => .flt fmtF16
  | .bf16 => .flt fmtBf16
  | .f32 => .flt fmtF32
  | .f64 => .flt fmtF64
  | .i32 => .int 32 true
  | .n32 => .int 32 false
  | .i64 => .int 64 true
  | .n64 => .int 64 false

/-- The value x[a] has as a source of FCVT, and whether it is of a floating-point type. -/
def cvtSource (t : CvtTy) (a : Word) : Num :=
  match cvtShape t with
  | .flt f => decodeFloat f a.toNat
  | .int w s => if s then numOfInt (Machine.signed w a.toNat) else numOfInt (a.toNat % 2 ^ w : Nat)

/-- A value converted to a type (R282): a NaN raises NV; an integer of 32 bits is extended by its signedness. -/
def cvtResult (t : CvtTy) (m : Mode) (v : Num) : Word × Flags :=
  match cvtShape t with
  | .flt f => let e := encodeFloat f m v; (w64 e.1, e.2 ||| flagIf v.isNan flagNV)
  | .int w sg => let e := encodeInt w sg m v; (BitVec.ofInt 64 e.1, e.2)

/-- FCVT (R282). -/
def execFcvt (t o : CvtTy) (d a : XReg) (s : State) : Host.Outcome State Fault Refusal :=
  underFrnd (.fcvt t o d a) d (fun m => cvtResult t m (cvtSource o (s.readX a))) s

end Sys2Proof.Machine
end

