-- ==== Sys2Proof/Machine/Dispatch.lean ====
section
/-! DEFINITION. The dispatch: one arm for each constructor of Instr, each one direct call of its meaning. -/

namespace Sys2Proof.Machine

/-- The effect of an instruction, or of a device operation or event. -/
def exec (i : Instr) (s : State) : Host.Outcome State Fault Refusal :=
  match i with
  | .add d a b => Sys2Proof.Machine.execAdd d a b s
  | .sub d a b => Sys2Proof.Machine.execSub d a b s
  | .and d a b => Sys2Proof.Machine.execAnd d a b s
  | .or d a b => Sys2Proof.Machine.execOr d a b s
  | .xor d a b => Sys2Proof.Machine.execXor d a b s
  | .sll d a b => Sys2Proof.Machine.execSll d a b s
  | .srl d a b => Sys2Proof.Machine.execSrl d a b s
  | .sra d a b => Sys2Proof.Machine.execSra d a b s
  | .rot d a b => Sys2Proof.Machine.execRot d a b s
  | .slt d a b => Sys2Proof.Machine.execSlt d a b s
  | .sltn d a b => Sys2Proof.Machine.execSltn d a b s
  | .min d a b => Sys2Proof.Machine.execMin d a b s
  | .max d a b => Sys2Proof.Machine.execMax d a b s
  | .minn d a b => Sys2Proof.Machine.execMinn d a b s
  | .maxn d a b => Sys2Proof.Machine.execMaxn d a b s
  | .mul d a b => Sys2Proof.Machine.execMul d a b s
  | .mulh d a b => Sys2Proof.Machine.execMulh d a b s
  | .mulhn d a b => Sys2Proof.Machine.execMulhn d a b s
  | .div d a b => Sys2Proof.Machine.execDiv d a b s
  | .divn d a b => Sys2Proof.Machine.execDivn d a b s
  | .rem d a b => Sys2Proof.Machine.execRem d a b s
  | .remn d a b => Sys2Proof.Machine.execRemn d a b s
  | .clz d a => Sys2Proof.Machine.execClz d a s
  | .ctz d a => Sys2Proof.Machine.execCtz d a s
  | .popc d a => Sys2Proof.Machine.execPopc d a s
  | .bswap d a => Sys2Proof.Machine.execBswap d a s
  | .bext d a b => Sys2Proof.Machine.execBext d a b s
  | .bexts d a b => Sys2Proof.Machine.execBexts d a b s
  | .bins d a b => Sys2Proof.Machine.execBins d a b s
  | .sel d a b => Sys2Proof.Machine.execSel d a b s
  | .addi d a imm => Sys2Proof.Machine.execAddi d a imm s
  | .andi d a imm => Sys2Proof.Machine.execAndi d a imm s
  | .ori d a imm => Sys2Proof.Machine.execOri d a imm s
  | .xori d a imm => Sys2Proof.Machine.execXori d a imm s
  | .slti d a imm => Sys2Proof.Machine.execSlti d a imm s
  | .sltni d a imm => Sys2Proof.Machine.execSltni d a imm s
  | .slli d a src => Sys2Proof.Machine.execSlli d a src s
  | .srli d a src => Sys2Proof.Machine.execSrli d a src s
  | .srai d a src => Sys2Proof.Machine.execSrai d a src s
  | .roti d a src => Sys2Proof.Machine.execRoti d a src s
  | .bexti d a o w => Sys2Proof.Machine.execBexti d a o w s
  | .bextsi d a o w => Sys2Proof.Machine.execBextsi d a o w s
  | .binsi d a o w => Sys2Proof.Machine.execBinsi d a o w s
  | .lui d imm => Sys2Proof.Machine.execLui d imm s
  | .addpc d imm => Sys2Proof.Machine.execAddpc d imm s
  | .jal d o => Sys2Proof.Machine.execJal d o s
  | .jalr d a imm => Sys2Proof.Machine.execJalr d a imm s
  | .beq a b o => Sys2Proof.Machine.execBeq a b o s
  | .bne a b o => Sys2Proof.Machine.execBne a b o s
  | .blt a b o => Sys2Proof.Machine.execBlt a b o s
  | .bge a b o => Sys2Proof.Machine.execBge a b o s
  | .bltn a b o => Sys2Proof.Machine.execBltn a b o s
  | .bgen a b o => Sys2Proof.Machine.execBgen a b o s
  | .ld z d b imm => Sys2Proof.Machine.execLd z d b imm s
  | .st z src b imm => Sys2Proof.Machine.execSt z src b imm s
  | .fadd f d a b => Sys2Proof.Machine.execFadd f d a b s
  | .fsub f d a b => Sys2Proof.Machine.execFsub f d a b s
  | .fmul f d a b => Sys2Proof.Machine.execFmul f d a b s
  | .fma f d a b => Sys2Proof.Machine.execFma f d a b s
  | .fnma f d a b => Sys2Proof.Machine.execFnma f d a b s
  | .fdiv f d a b => Sys2Proof.Machine.execFdiv f d a b s
  | .fsqrt f d a => Sys2Proof.Machine.execFsqrt f d a s
  | .fmin f d a b => Sys2Proof.Machine.execFmin f d a b s
  | .fmax f d a b => Sys2Proof.Machine.execFmax f d a b s
  | .fcmp f q d a b => Sys2Proof.Machine.execFcmp f q d a b s
  | .fclass f d a => Sys2Proof.Machine.execFclass f d a s
  | .fcvt t src d a => Sys2Proof.Machine.execFcvt t src d a s
  | .amo p dbl o d a b => Sys2Proof.Machine.execAmo p dbl o d a b s
  | .cas dbl o d a b => Sys2Proof.Machine.execCas dbl o d a b s
  | .fence t c => Sys2Proof.Machine.execFence t c s
  | .sbar lead held => Sys2Proof.Machine.execSbar lead held s
  | .csrrd d c => Sys2Proof.Machine.execCsrrd d c s
  | .csrwr c a => Sys2Proof.Machine.execCsrwr c a s
  | .csrxch d c a => Sys2Proof.Machine.execCsrxch d c a s
  | .trapi imm => Sys2Proof.Machine.execTrapi imm s
  | .sysret => Sys2Proof.Machine.execSysret s
  | .halt => Sys2Proof.Machine.execHalt s
  | .yield => Sys2Proof.Machine.execYield s
  | .exit => Sys2Proof.Machine.execExit s
  | .exitG => Sys2Proof.Machine.execExitG s
  | .cacheopPrefetch a => Sys2Proof.Machine.execCacheopPrefetch a s
  | .cacheopPin a => Sys2Proof.Machine.execCacheopPin a s
  | .cacheopUnpin a => Sys2Proof.Machine.execCacheopUnpin a s
  | .cacheopFlush a => Sys2Proof.Machine.execCacheopFlush a s
  | .cacheopInvalidate a => Sys2Proof.Machine.execCacheopInvalidate a s
  | .tlbinvPage a => Sys2Proof.Machine.execTlbinvPage a s
  | .tlbinvAll => Sys2Proof.Machine.execTlbinvAll s
  | .waitevTimer d => Sys2Proof.Machine.execWaitevTimer d s
  | .waitevSlot d => Sys2Proof.Machine.execWaitevSlot d s
  | .sqopen d h p => Sys2Proof.Machine.execSqopen d h p s
  | .sqres d h n => Sys2Proof.Machine.execSqres d h n s
  | .sqst z src h imm => Sys2Proof.Machine.execSqst z src h imm s
  | .sqcmt c h r => Sys2Proof.Machine.execSqcmt c h r s
  | .sqlen c d h => Sys2Proof.Machine.execSqlen c d h s
  | .sqwait c d h n => Sys2Proof.Machine.execSqwait c d h n s
  | .sqld z d h imm => Sys2Proof.Machine.execSqld z d h imm s
  | .sqfork d h b => Sys2Proof.Machine.execSqfork d h b s
  | .sqtrim d h n => Sys2Proof.Machine.execSqtrim d h n s
  | .sqdrop h => Sys2Proof.Machine.execSqdrop h s
  | .binit c a b => Sys2Proof.Machine.execBinit c a b s
  | .barr c d a mk => Sys2Proof.Machine.execBarr c d a mk s
  | .barrG d k mk => Sys2Proof.Machine.execBarrG d k mk s
  | .btest c d a b => Sys2Proof.Machine.execBtest c d a b s
  | .bwait c a b => Sys2Proof.Machine.execBwait c a b s
  | .bwaitG k => Sys2Proof.Machine.execBwaitG k s
  | .signal c a b => Sys2Proof.Machine.execSignal c a b s
  | .gread d k sel => Sys2Proof.Machine.execGread d k sel s
  | .qapp d q src => Sys2Proof.Machine.execQapp d q src s
  | .qwait q n => Sys2Proof.Machine.execQwait q n s
  | .vcfg d a => Sys2Proof.Machine.execVcfg d a s
  | .vsetvl d a => Sys2Proof.Machine.execVsetvl d a s
  | .vtag t n1 d => Sys2Proof.Machine.execVtag t n1 d s
  | .vtagrd d a => Sys2Proof.Machine.execVtagrd d a s
  | .vadd c m d a b => Sys2Proof.Machine.execVadd c m d a b s
  | .vsub c m d a b => Sys2Proof.Machine.execVsub c m d a b s
  | .vrsub c m d a b => Sys2Proof.Machine.execVrsub c m d a b s
  | .vmul c m d a b => Sys2Proof.Machine.execVmul c m d a b s
  | .vmulh c m d a b => Sys2Proof.Machine.execVmulh c m d a b s
  | .vdiv c m d a b => Sys2Proof.Machine.execVdiv c m d a b s
  | .vrem c m d a b => Sys2Proof.Machine.execVrem c m d a b s
  | .vmin c m d a b => Sys2Proof.Machine.execVmin c m d a b s
  | .vmax c m d a b => Sys2Proof.Machine.execVmax c m d a b s
  | .vand c m d a b => Sys2Proof.Machine.execVand c m d a b s
  | .vor c m d a b => Sys2Proof.Machine.execVor c m d a b s
  | .vxor c m d a b => Sys2Proof.Machine.execVxor c m d a b s
  | .vsll c m d a b => Sys2Proof.Machine.execVsll c m d a b s
  | .vsrl c m d a b => Sys2Proof.Machine.execVsrl c m d a b s
  | .vsra c m d a b => Sys2Proof.Machine.execVsra c m d a b s
  | .vfma c m d a b => Sys2Proof.Machine.execVfma c m d a b s
  | .vfnma c m d a b => Sys2Proof.Machine.execVfnma c m d a b s
  | .vabs c m d a => Sys2Proof.Machine.execVabs c m d a s
  | .vneg c m d a => Sys2Proof.Machine.execVneg c m d a s
  | .vsel c d a b => Sys2Proof.Machine.execVsel c d a b s
  | .vaddc q c m d a b => Sys2Proof.Machine.execVaddc q c m d a b s
  | .vsubb q c m d a b => Sys2Proof.Machine.execVsubb q c m d a b s
  | .vmadw c m d a b => Sys2Proof.Machine.execVmadw c m d a b s
  | .vnshr c m d a b => Sys2Proof.Machine.execVnshr c m d a b s
  | .vsadd c m d a b => Sys2Proof.Machine.execVsadd c m d a b s
  | .vssub c m d a b => Sys2Proof.Machine.execVssub c m d a b s
  | .vavg c m d a b => Sys2Proof.Machine.execVavg c m d a b s
  | .vcmp q m d a b => Sys2Proof.Machine.execVcmp q m d a b s
  | .mand d a b => Sys2Proof.Machine.execMand d a b s
  | .mor d a b => Sys2Proof.Machine.execMor d a b s
  | .mxor d a b => Sys2Proof.Machine.execMxor d a b s
  | .mandn d a b => Sys2Proof.Machine.execMandn d a b s
  | .mnot d a => Sys2Proof.Machine.execMnot d a s
  | .mslide d a k => Sys2Proof.Machine.execMslide d a k s
  | .mpop m d a => Sys2Proof.Machine.execMpop m d a s
  | .mfirst m d a => Sys2Proof.Machine.execMfirst m d a s
  | .mset d k => Sys2Proof.Machine.execMset d k s
  | .mmvMask d a => Sys2Proof.Machine.execMmvMask d a s
  | .mmvToVector d a => Sys2Proof.Machine.execMmvToVector d a s
  | .mmvFromVector d a => Sys2Proof.Machine.execMmvFromVector d a s
  | .vslide m d a b => Sys2Proof.Machine.execVslide m d a b s
  | .vperm m d a b => Sys2Proof.Machine.execVperm m d a b s
  | .vcomp d a => Sys2Proof.Machine.execVcomp d a s
  | .viota m d a => Sys2Proof.Machine.execViota m d a s
  | .vmv m d b => Sys2Proof.Machine.execVmv m d b s
  | .vmvx d a b => Sys2Proof.Machine.execVmvx d a b s
  | .vmvi d b a => Sys2Proof.Machine.execVmvi d b a s
  | .vred m toX o d a => Sys2Proof.Machine.execVred m toX o d a s
  | .vscan m d a => Sys2Proof.Machine.execVscan m d a s
  | .vsegredSum m d a b => Sys2Proof.Machine.execVsegredSum m d a b s
  | .vsegredMax m d a b => Sys2Proof.Machine.execVsegredMax m d a b s
  | .vsegredMin m d a b => Sys2Proof.Machine.execVsegredMin m d a b s
  | .vrcp c m d a => Sys2Proof.Machine.execVrcp c m d a s
  | .vrsq c m d a => Sys2Proof.Machine.execVrsq c m d a s
  | .vsqrt c m d a => Sys2Proof.Machine.execVsqrt c m d a s
  | .vexp2 c m d a => Sys2Proof.Machine.execVexp2 c m d a s
  | .vlog2 c m d a => Sys2Proof.Machine.execVlog2 c m d a s
  | .vtanh c m d a => Sys2Proof.Machine.execVtanh c m d a s
  | .vcvt r c m d a => Sys2Proof.Machine.execVcvt r c m d a s
  | .vcvtScaled r c m d a => Sys2Proof.Machine.execVcvtScaled r c m d a s
  | .vamax m a => Sys2Proof.Machine.execVamax m a s
  | .vscale m f d a => Sys2Proof.Machine.execVscale m f d a s
  | .vscore m d a b => Sys2Proof.Machine.execVscore m d a b s
  | .vexpm c m d a b => Sys2Proof.Machine.execVexpm c m d a b s
  | .vaccp m d a b => Sys2Proof.Machine.execVaccp m d a b s
  | .ssoft d b a => Sys2Proof.Machine.execSsoft d b a s
  | .vld m g d b => Sys2Proof.Machine.execVld m g d b s
  | .vldStrided m g d b src => Sys2Proof.Machine.execVldStrided m g d b src s
  | .vldseg n m g d b src => Sys2Proof.Machine.execVldseg n m g d b src s
  | .vwait x q m g v b imm => Sys2Proof.Machine.execVwait x q m g v b imm s
  | .vst m g src b => Sys2Proof.Machine.execVst m g src b s
  | .vstStrided m g src b imm => Sys2Proof.Machine.execVstStrided m g src b imm s
  | .vstseg n m g src b imm => Sys2Proof.Machine.execVstseg n m g src b imm s
  | .vldx m g d b imm => Sys2Proof.Machine.execVldx m g d b imm s
  | .vstxU m g src b imm => Sys2Proof.Machine.execVstxU m g src b imm s
  | .vstxO m g src b imm => Sys2Proof.Machine.execVstxO m g src b imm s
  | .vscadd m g src b imm => Sys2Proof.Machine.execVscadd m g src b imm s
  | .vmergeu kz d n a => Sys2Proof.Machine.execVmergeu kz d n a s
  | .vamo o x r m g d b imm => Sys2Proof.Machine.execVamo o x r m g d b imm s
  | .vsqres m g d h => Sys2Proof.Machine.execVsqres m g d h s
  | .vsqst m g src h imm => Sys2Proof.Machine.execVsqst m g src h imm s
  | .vsqstX m g src h imm => Sys2Proof.Machine.execVsqstX m g src h imm s
  | .vsqcmt x m g h imm => Sys2Proof.Machine.execVsqcmt x m g h imm s
  | .vsqld m g d h imm => Sys2Proof.Machine.execVsqld m g d h imm s
  | .vsqldX m g d h imm => Sys2Proof.Machine.execVsqldX m g d h imm s
  | .dcfg d x => Sys2Proof.Machine.execDcfg d x s
  | .dzero x => Sys2Proof.Machine.execDzero x s
  | .dmac a b x => Sys2Proof.Machine.execDmac a b x s
  | .dmacD a b x => Sys2Proof.Machine.execDmacD a b x s
  | .dmacg a b x => Sys2Proof.Machine.execDmacg a b x s
  | .dxtr ne m d x => Sys2Proof.Machine.execDxtr ne m d x s
  | .ddir d x => Sys2Proof.Machine.execDdir d x s
  | .dfree x => Sys2Proof.Machine.execDfree x s
  | .dmv d a b x => Sys2Proof.Machine.execDmv d a b x s
  | .dmvM d a b x => Sys2Proof.Machine.execDmvM d a b x s
  | .dpiv m d a => Sys2Proof.Machine.execDpiv m d a s
  | .dupd m a x => Sys2Proof.Machine.execDupd m a x s
  | .xcopy ex z h o d a b => Sys2Proof.Machine.execXcopy ex z h o d a b s
  | .xgath h o d a b => Sys2Proof.Machine.execXgath h o d a b s
  | .xxform h o a b => Sys2Proof.Machine.execXxform h o a b s
  | .xdrain h => Sys2Proof.Machine.execXdrain h s
  | .xchain a b => Sys2Proof.Machine.execXchain a b s
  | .sbind d a b => Sys2Proof.Machine.execSbind d a b s
  | .srel d => Sys2Proof.Machine.execSrel d s
  | .sstat d a => Sys2Proof.Machine.execSstat d a s
  | .cAddi d imm => Sys2Proof.Machine.execCAddi d imm s
  | .cLi d imm => Sys2Proof.Machine.execCLi d imm s
  | .cSlli d src => Sys2Proof.Machine.execCSlli d src s
  | .cLd d b o => Sys2Proof.Machine.execCLd d b o s
  | .cSt src b o => Sys2Proof.Machine.execCSt src b o s
  | .cBeqz a o => Sys2Proof.Machine.execCBeqz a o s
  | .cBnez a o => Sys2Proof.Machine.execCBnez a o s
  | .cJ o => Sys2Proof.Machine.execCJ o s
  | .cMv d src => Sys2Proof.Machine.execCMv d src s
  | .cAdd d src => Sys2Proof.Machine.execCAdd d src s
  | .cJr a => Sys2Proof.Machine.execCJr a s
  | .cNop => Sys2Proof.Machine.execCNop s
  | .tzero t => Sys2Proof.Machine.execTzero t s
  | .trowmv m t a x => Sys2Proof.Machine.execTrowmv m t a x s
  | .tcolmv m d t x => Sys2Proof.Machine.execTcolmv m d t x s
  | .tmma t a b => Sys2Proof.Machine.execTmma t a b s
  | .tstat d => Sys2Proof.Machine.execTstat d s
  | .tsave t a => Sys2Proof.Machine.execTsave t a s
  | .trest t a => Sys2Proof.Machine.execTrest t a s
  | .li64 d imm => Sys2Proof.Machine.execLi64 d imm s
  | .coldReset => Sys2Proof.Machine.execColdReset s
  | .modulePowerOn => Sys2Proof.Machine.execModulePowerOn s
  | .bootStage r => Sys2Proof.Machine.execBootStage r s
  | .bootStageTimeout => Sys2Proof.Machine.execBootStageTimeout s
  | .registerWrite pa v => Sys2Proof.Machine.execRegisterWrite pa v s
  | .queueEnable q => Sys2Proof.Machine.execQueueEnable q s
  | .queueDisable q => Sys2Proof.Machine.execQueueDisable q s
  | .tailWrite q v => Sys2Proof.Machine.execTailWrite q v s
  | .entryFetch q => Sys2Proof.Machine.execEntryFetch q s
  | .entryStart q => Sys2Proof.Machine.execEntryStart q s
  | .placeItems => Sys2Proof.Machine.execPlaceItems s
  | .timeSliceExpiry q => Sys2Proof.Machine.execTimeSliceExpiry q s
  | .frameSave n => Sys2Proof.Machine.execFrameSave n s
  | .restore ctx => Sys2Proof.Machine.execRestore ctx s
  | .entryComplete q seq => Sys2Proof.Machine.execEntryComplete q seq s
  | .watchdogExpiry n => Sys2Proof.Machine.execWatchdogExpiry n s
  | .eventRecordWrite => Sys2Proof.Machine.execEventRecordWrite s
  | .evheadWrite v => Sys2Proof.Machine.execEvheadWrite v s
  | .evovfRead => Sys2Proof.Machine.execEvovfRead s
  | .vunpark v => Sys2Proof.Machine.execVunpark v s
  | .svcqHeadPoll ctx => Sys2Proof.Machine.execSvcqHeadPoll ctx s
  | .relqHeadPoll ctx => Sys2Proof.Machine.execRelqHeadPoll ctx s
  | .stripIssue core => Sys2Proof.Machine.execStripIssue core s
  | .slotBoundary core => Sys2Proof.Machine.execSlotBoundary core s
  | .routineLoad v => Sys2Proof.Machine.execRoutineLoad v s
  | .routineUnload v => Sys2Proof.Machine.execRoutineUnload v s
  | .routineLoadDone => Sys2Proof.Machine.execRoutineLoadDone s
  | .ecallRead e va loc n => Sys2Proof.Machine.execEcallRead e va loc n s
  | .ecallWrite e va loc n => Sys2Proof.Machine.execEcallWrite e va loc n s
  | .ecallWait e => Sys2Proof.Machine.execEcallWait e s
  | .routineReturn e a0 => Sys2Proof.Machine.execRoutineReturn e a0 s
  | .routineTimeout e => Sys2Proof.Machine.execRoutineTimeout e s
  | .copyAccept n => Sys2Proof.Machine.execCopyAccept n s
  | .copyExecute core ch k => Sys2Proof.Machine.execCopyExecute core ch k s
  | .ringWriteResume core ch k => Sys2Proof.Machine.execRingWriteResume core ch k s
  | .chainGroupDelivery n => Sys2Proof.Machine.execChainGroupDelivery n s
  | .tileTransferEnd n t => Sys2Proof.Machine.execTileTransferEnd n t s
  | .walkComplete die ctx va => Sys2Proof.Machine.execWalkComplete die ctx va s
  | .vwaitTimeout n => Sys2Proof.Machine.execVwaitTimeout n s
  | .waitevDeadline n => Sys2Proof.Machine.execWaitevDeadline n s
  | .pageUpdate v => Sys2Proof.Machine.execPageUpdate v s
  | .pageUnmap v => Sys2Proof.Machine.execPageUnmap v s
  | .pageMove v => Sys2Proof.Machine.execPageMove v s
  | .pgcmdBadOp v => Sys2Proof.Machine.execPgcmdBadOp v s
  | .moveComplete => Sys2Proof.Machine.execMoveComplete s
  | .collectorRun p => Sys2Proof.Machine.execCollectorRun p s
  | .cleanerWriteback line => Sys2Proof.Machine.execCleanerWriteback line s
  | .patrolScrub line => Sys2Proof.Machine.execPatrolScrub line s
  | .dedupSample die => Sys2Proof.Machine.execDedupSample die s
  | .read h => Sys2Proof.Machine.execRead h s
  | .write h data => Sys2Proof.Machine.execWrite h data s
  | .atomic h op v => Sys2Proof.Machine.execAtomic h op v s
  | .vatom h op t data => Sys2Proof.Machine.execVatom h op t data s
  | .barrier h r => Sys2Proof.Machine.execBarrier h r s
  | .vine ctx handle r => Sys2Proof.Machine.execVine ctx handle r s
  | .cacheop h ctx r => Sys2Proof.Machine.execCacheop h ctx r s
  | .watch h n => Sys2Proof.Machine.execWatch h n s
  | .fill h => Sys2Proof.Machine.execFill h s
  | .gfill h => Sys2Proof.Machine.execGfill h s
  | .heldWriteProceed => Sys2Proof.Machine.execHeldWriteProceed s
  | .rdcInvalidate die line => Sys2Proof.Machine.execRdcInvalidate die line s
  | .reply core line data => Sys2Proof.Machine.execReply core line data s
  | .signalAnswer n nack => Sys2Proof.Machine.execSignalAnswer n nack s
  | .hostPostedWrite pa data => Sys2Proof.Machine.execHostPostedWrite pa data s
  | .hostRead pa n => Sys2Proof.Machine.execHostRead pa n s
  | .cxlSnoop line => Sys2Proof.Machine.execCxlSnoop line s
  | .peerRequest port snode export_ off op => Sys2Proof.Machine.execPeerRequest port snode export_ off op s
  | .portEnable k => Sys2Proof.Machine.execPortEnable k s
  | .portDisable k => Sys2Proof.Machine.execPortDisable k s
  | .portRetrain k => Sys2Proof.Machine.execPortRetrain k s
  | .partnerFound k sw node pport => Sys2Proof.Machine.execPartnerFound k sw node pport s
  | .trainingTimeout k => Sys2Proof.Machine.execTrainingTimeout k s
  | .retrainFailed k => Sys2Proof.Machine.execRetrainFailed k s
  | .downRetry k => Sys2Proof.Machine.execDownRetry k s
  | .flitReceive k flit => Sys2Proof.Machine.execFlitReceive k flit s
  | .nakReceive k seq => Sys2Proof.Machine.execNakReceive k seq s
  | .collectiveDoorbell v => Sys2Proof.Machine.execCollectiveDoorbell v s
  | .collectiveStart => Sys2Proof.Machine.execCollectiveStart s
  | .reductionFlit h nf data => Sys2Proof.Machine.execReductionFlit h nf data s
  | .collectiveRefusal group => Sys2Proof.Machine.execCollectiveRefusal group s
  | .collectiveTimeout => Sys2Proof.Machine.execCollectiveTimeout s
  | .collectiveComplete => Sys2Proof.Machine.execCollectiveComplete s
  | .laneGroupRetire core mask => Sys2Proof.Machine.execLaneGroupRetire core mask s
  | .lgceRead core => Sys2Proof.Machine.execLgceRead core s
  | .powerCap mw => Sys2Proof.Machine.execPowerCap mw s
  | .corePowerGate core => Sys2Proof.Machine.execCorePowerGate core s
  | .attest => Sys2Proof.Machine.execAttest s
  | .key => Sys2Proof.Machine.execKey s
  | .retire => Sys2Proof.Machine.execRetire s
  | .unretire => Sys2Proof.Machine.execUnretire s
  | .list => Sys2Proof.Machine.execList s
  | .dieresetEnter => Sys2Proof.Machine.execDieresetEnter s
  | .dieresetLeave => Sys2Proof.Machine.execDieresetLeave s
  | .mbcmdUnknown op => Sys2Proof.Machine.execMbcmdUnknown op s
  | .mailboxDone => Sys2Proof.Machine.execMailboxDone s
  | .dieEnterReset die => Sys2Proof.Machine.execDieEnterReset die s
  | .fatalDieReset die => Sys2Proof.Machine.execFatalDieReset die s
  | .engineStrip core => Sys2Proof.Machine.execEngineStrip core s
  | .scratchpadAccess pa r => Sys2Proof.Machine.execScratchpadAccess pa r s
  | .clsegsWrite p v => Sys2Proof.Machine.execClsegsWrite p v s
  | .hostReadCompletion n v => Sys2Proof.Machine.execHostReadCompletion n v s
  | .modulePowerLoss => Sys2Proof.Machine.execModulePowerLoss s

end Sys2Proof.Machine
end

