-- ==== Sys2Proof/Machine/Step.lean ====
section
/-! DEFINITION. One step of the machine: the next turn of the agenda, or the focused strand's next instruction. -/

namespace Sys2Proof.Machine

/-- The machine an outcome goes on with is brought up to date. -/
def after (r : Host.Outcome State Fault Refusal) : Host.Outcome State Fault Refusal :=
  match r with
  | .next s => .next (settle s)
  | r => r

/-- The instruction at the pc is fetched and run (R241, R242, R251), unless an error stands in a register that it reads (R56, R371). -/
def runInstr (s : State) : Host.Outcome State Fault Refusal :=
  match Act.on fetchInstr s with
  | (.error x, t) => finish s (.error x, t)
  | (.ok w, s) =>
    match decodeBits w with
    | .ok i =>
      match Act.on (scalarGuard i) s with
      | (.error x, t) => finish s (.error x, t)
      | (.ok _, t) => exec i t
    | .error _ => .next (noInstr w s)

/-- The turn of the focused strand: its vector side, then its scalar side, where it may go on. -/
def strandTurn (s : State) : Host.Outcome State Fault Refusal :=
  if strandLive s s.cur.val then
    let s := (Act.on vectorSide s).2
    if scalarReady s then runInstr (scalarTurn s) else .next s
  else .next s

/-- One step. The agenda says what acts next: a device operation or event, a store of a routine, the completion of a posted write at
the host, a data error, another strand, or a change of pace; with an empty agenda the focused strand acts. An encoded instruction in the agenda is passed over: it runs only where it is fetched. -/
def step (s : State) : Host.Outcome State Fault Refusal :=
  match s.agenda with
  | [] => after (strandTurn (tick s))
  | .event i :: rest =>
    let s := { tick s with agenda := rest }
    if (encode i).isSome then .next s else after (exec i s)
  | .routineStore e loc data :: rest => .next (routineStores e loc data { s with agenda := rest })
  | .landed :: rest => .next { s with links := { s.links with hostLate := s.links.hostLate.tail }, agenda := rest }
  | .error e :: rest => .next (strike e { s with agenda := rest })
  | .focus n :: rest => .next (focusOn { s with agenda := rest } n)
  | .pace b :: rest => .next { s with lag := b, agenda := rest }

/-- The instruction whose bits are w, the bits above nbits being zero, stands where the next step fetches (log 14). -/
def State.withFetchWord (s : State) (nbits w : Nat) : State := placed s (natToBytes 8 (w % 2 ^ nbits))

end Sys2Proof.Machine
end

