-- ==== Sys2Proof/Certificates/Slice0/Obligations.lean ====
section
/-! DEFINITION. The statements for the provers. `Sys2Proof.Claims` holds the tables of the spec that several statements share,
written from the spec's own words; each obligation cites the rules it rests on in OBLIGATIONS.json. -/


namespace Sys2Proof.Claims
open Sys2Proof.Machine

/-! ## The scalar side: results (Tables 16.1 to 16.5) -/

/-- 1 or 0. -/
def truth (p : Prop) [Decidable p] : Word := if p then 1 else 0

/-- Zero bits above the highest set bit, and below the lowest (Table 16.1, CLZ and CTZ). -/
def clz (A : Word) : Nat := ((List.range 64).takeWhile fun k => ! A.getLsbD (63 - k)).length
def ctz (A : Word) : Nat := ((List.range 64).takeWhile fun k => ! A.getLsbD k).length
/-- The set bits (POPC). -/
def popc (A : Word) : Nat := ((List.range 64).filter fun k => A.getLsbD k).length
/-- Byte j of A at byte 7 - j (BSWAP). -/
def bswap (A : Word) : Word :=
  (List.range 8).foldl (fun r j => r ||| (A.extractLsb' (8 * j) 8).zeroExtend 64 <<< (8 * (7 - j))) 0

/-- Mask(n) of R267. -/
def ones (n : Nat) : Word := BitVec.ofNat 64 (2 ^ n - 1)
/-- n of R267: none where the width is 0 or the offset is 64 or more. -/
def keep (off w : Nat) : Option Nat := if min w 64 = 0 ∨ 64 ≤ off then none else some (min (min w 64) (64 - off))
/-- The three forms of R267 on A, D, an offset and a width code. -/
def bext (A : Word) (off w : Nat) : Word :=
  match keep off w with
  | none => 0
  | some n => (A >>> off) &&& ones n
def bexts (A : Word) (off w : Nat) : Word :=
  match keep off w with
  | none => 0
  | some n =>
    let f := (A >>> off) &&& ones n
    if A.getLsbD (min (off + min w 64) 64 - 1) then f ||| ~~~ ones n else f
def bins (D A : Word) (off w : Nat) : Word :=
  match keep off w with
  | none => D
  | some n => (D &&& ~~~ (ones n <<< off)) ||| ((A &&& ones n) <<< off)

/-- Table 16.1: the destination and x[d] of each of the 30 register forms, its operands read before it writes (R264). -/
def regResult (s : State) (i : Instr) : Option (XReg × Word) :=
  let x := s.readX
  match i with
  | .add d a b => some (d, x a + x b)
  | .sub d a b => some (d, x a - x b)
  | .and d a b => some (d, x a &&& x b)
  | .or d a b => some (d, x a ||| x b)
  | .xor d a b => some (d, x a ^^^ x b)
  | .sll d a b => some (d, x a <<< ((x b).extractLsb' 0 6).toNat)
  | .srl d a b => some (d, x a >>> ((x b).extractLsb' 0 6).toNat)
  | .sra d a b => some (d, (x a).sshiftRight ((x b).extractLsb' 0 6).toNat)
  | .rot d a b =>
    let k := ((x b).extractLsb' 0 6).toNat
    some (d, if k = 0 then x a else (x a >>> k) ||| (x a <<< (64 - k)))
  | .slt d a b => some (d, truth ((x a).toInt < (x b).toInt))
  | .sltn d a b => some (d, truth ((x a).toNat < (x b).toNat))
  | .min d a b => some (d, if (x a).toInt ≤ (x b).toInt then x a else x b)
  | .max d a b => some (d, if (x a).toInt ≤ (x b).toInt then x b else x a)
  | .minn d a b => some (d, if (x a).toNat ≤ (x b).toNat then x a else x b)
  | .maxn d a b => some (d, if (x a).toNat ≤ (x b).toNat then x b else x a)
  | .mul d a b => some (d, x a * x b)
  | .mulh d a b => some (d, ((x a).signExtend 128 * (x b).signExtend 128).extractLsb' 64 64)
  | .mulhn d a b => some (d, ((x a).zeroExtend 128 * (x b).zeroExtend 128).extractLsb' 64 64)
  | .div d a b => some (d, if x b = 0 then BitVec.allOnes 64 else (x a).sdiv (x b))
  | .divn d a b => some (d, if x b = 0 then BitVec.allOnes 64 else (x a).udiv (x b))
  | .rem d a b => some (d, if x b = 0 then x a else (x a).srem (x b))
  | .remn d a b => some (d, if x b = 0 then x a else (x a).umod (x b))
  | .clz d a => some (d, BitVec.ofNat 64 (clz (x a)))
  | .ctz d a => some (d, BitVec.ofNat 64 (ctz (x a)))
  | .popc d a => some (d, BitVec.ofNat 64 (popc (x a)))
  | .bswap d a => some (d, bswap (x a))
  | .bext d a b => some (d, bext (x a) ((x b).extractLsb' 0 7).toNat ((x b).extractLsb' 8 7).toNat)
  | .bexts d a b => some (d, bexts (x a) ((x b).extractLsb' 0 7).toNat ((x b).extractLsb' 8 7).toNat)
  | .bins d a b => some (d, bins (x d) (x a) ((x b).extractLsb' 0 7).toNat ((x b).extractLsb' 8 7).toNat)
  | .sel d a b => some (d, if x d ≠ 0 then x a else x b)
  | _ => none

/-- Table 16.4, R270 to R272, R357 and R284: the length, the destination and x[d] of each immediate form. -/
def immResult (s : State) (i : Instr) : Option (Nat × XReg × Word) :=
  let x := s.readX
  match i with
  | .addi d a i => some (4, d, x a + i.signExtend 64)
  | .andi d a i => some (4, d, x a &&& i.signExtend 64)
  | .ori d a i => some (4, d, x a ||| i.signExtend 64)
  | .xori d a i => some (4, d, x a ^^^ i.signExtend 64)
  | .slti d a i => some (4, d, truth ((x a).toInt < i.toInt))
  | .sltni d a i => some (4, d, truth ((x a).toNat < (i.signExtend 64).toNat))
  | .slli d a k => some (4, d, x a <<< k.toNat)
  | .srli d a k => some (4, d, x a >>> k.toNat)
  | .srai d a k => some (4, d, (x a).sshiftRight k.toNat)
  | .roti d a k => some (4, d, if k = 0 then x a else (x a >>> k.toNat) ||| (x a <<< (64 - k.toNat)))
  | .bexti d a o w => some (4, d, bext (x a) o.toNat w.toNat)
  | .bextsi d a o w => some (4, d, bexts (x a) o.toNat w.toNat)
  | .binsi d a o w => some (4, d, bins (x d) (x a) o.toNat w.toNat)
  | .lui d i => some (4, d, BitVec.ofInt 64 (i.toInt * 2 ^ 13))
  | .addpc d i => some (4, d, BitVec.ofInt 64 (s.st.pc.toNat + i.toInt * 2 ^ 13))
  | .li64 d i => some (8, d, i.signExtend 64)
  | .cAddi d i => some (2, d, x d + i.signExtend 64)
  | .cLi d i => some (2, d, i.signExtend 64)
  | .cSlli d k => some (2, d, x d <<< k.toNat)
  | .cMv d b => some (2, d, x b)
  | .cAdd d b => some (2, d, x d + x b)
  | _ => none

/-- x[8 + r], the register of a 3-bit field (R248). -/
def small (r : Fin 8) : XReg := ⟨8 + r.val, by omega⟩

/-- R273 and R284: the length of a branch, whether it is taken, and its displacement in halfwords. -/
def branchOf (s : State) (i : Instr) : Option (Nat × Bool × Int) :=
  let x := s.readX
  match i with
  | .beq a b o => some (4, decide (x a = x b), o.toInt)
  | .bne a b o => some (4, decide (x a ≠ x b), o.toInt)
  | .blt a b o => some (4, decide ((x a).toInt < (x b).toInt), o.toInt)
  | .bge a b o => some (4, decide ((x a).toInt ≥ (x b).toInt), o.toInt)
  | .bltn a b o => some (4, decide ((x a).toNat < (x b).toNat), o.toInt)
  | .bgen a b o => some (4, decide ((x a).toNat ≥ (x b).toNat), o.toInt)
  | .cBeqz a o => some (2, decide (x (small a) = 0), o.toInt)
  | .cBnez a o => some (2, decide (x (small a) ≠ 0), o.toInt)
  | _ => none

/-- R274 and R284: the length of a jump, its link register and its target. -/
def jumpOf (s : State) (i : Instr) : Option (Nat × XReg × VAddr) :=
  match i with
  | .jal d o => some (4, d, s.st.pc + BitVec.ofInt 48 (2 * o.toInt))
  | .jalr d a i => some (4, d, (s.readX a + i.signExtend 64).truncate 48)
  | .cJ o => some (2, 0, s.st.pc + BitVec.ofInt 48 (2 * o.toInt))
  | .cJr a => some (2, 0, (s.readX a).truncate 48)
  | _ => none

end Sys2Proof.Claims

section
open Sys2Proof Sys2Proof.Machine

/-- The 30 register forms (R265 to R268) write x[d] as Table 16.1 says, move the pc by 4 and leave all else. -/
def Sys2Proof.Claims.RegisterForms : Prop := ∀ (i : Instr) (s : State) (d : XReg) (v : Word),
  Claims.regResult s i = some (d, v) → exec i s = .next ((s.writeX d v).retire 4)

/-- The immediate forms (R269 to R272, R284, R357) write x[d], move the pc by their length and leave all else. -/
def Sys2Proof.Claims.ImmediateForms : Prop := ∀ (i : Instr) (s : State) (n : Nat) (d : XReg) (v : Word),
  Claims.immResult s i = some (n, d, v) → exec i s = .next ((s.writeX d v).retire n)

/-- A taken branch moves the pc by twice its displacement, an untaken one past itself; nothing else changes (R273, R284). -/
def Sys2Proof.Claims.Branches : Prop := ∀ (i : Instr) (s : State) (n : Nat) (taken : Bool) (o : Int),
  Claims.branchOf s i = some (n, taken, o) →
    exec i s = .next (if taken then s.jump (s.st.pc + BitVec.ofInt 48 (2 * o)) else s.retire n)

/-- A jump to an even target links pc + length in x[d]; one to an odd target takes the trap 0x03 with the target as `tval` and
writes no register, once the VIQ is empty (R242, R274, R284). -/
def Sys2Proof.Claims.Jumps : Prop := ∀ (i : Instr) (s : State) (n : Nat) (d : XReg) (t : VAddr),
  Claims.jumpOf s i = some (n, d, t) →
    (t.getLsbD 0 = false →
      exec i s = .next ((s.writeX d (s.st.pc.zeroExtend 64 + BitVec.ofNat 64 n)).jump t)) ∧
    (t.getLsbD 0 = true → s.st.viq = [] →
      exec i s = .next (enterTrap 0x03 (t.zeroExtend 64) s.st.pc s.st.csr.vstart s))

/-- Reading and writing registers: x0 reads 0 and discards writes, every other register reads what was written last, and the
pc and the count of retired instructions move, and the watchdog counts anew, with nothing else (R264, R241, R348, R87). An error that
stood in the written register stands there no more (R371, log 98). -/
def Sys2Proof.Claims.ScalarRegisters : Prop := ∀ (s : State) (d r : XReg) (v : Word) (n : Nat) (t : VAddr),
  s.readX 0 = 0 ∧ s.writeX 0 v = s ∧
  (s.writeX d v).readX r = (if r = d ∧ d ≠ 0 then v else s.readX r) ∧
  (∃ (f : Vector Word 32) (b : List BadWord), s.writeX d v = { s with st := { s.st with x := f, bad := b } } ∧ (d ≠ 0 → f[d.val] = v) ∧
    (∀ k : Fin 32, k ≠ d → f[k.val] = s.st.x[k.val]) ∧ ∀ w, w ∈ b ↔ w ∈ s.st.bad ∧ (d = 0 ∨ w ≠ .x d)) ∧
  s.retire n = { s with st := { s.st with pc := s.st.pc + BitVec.ofNat 48 n, csr := { s.st.csr with retired := s.st.csr.retired + 1 }, dogRan := 0, dogFrom := s.cycle } } ∧
  s.jump t = { s with st := { s.st with pc := t, csr := { s.st.csr with retired := s.st.csr.retired + 1 }, dogRan := 0, dogFrom := s.cycle } }

end

namespace Sys2Proof.Claims
open Sys2Proof.Machine

/-! ## Memory accesses of the scalar side (R275, R276, R284, R312) -/

/-- The n bytes at va lie in one memory on a page that the core's TLB maps by e and that allows the access (R176); they are
naturally aligned, their home answers, and no uncorrectable error covers them. -/
structure Reachable (s : State) (k : Access) (va : VAddr) (n : Nat) (e : TlbEntry) : Prop where
  mapped  : (getCore s (curCore s)).tlb.find? (fun t => t.maps s.st.ctx va.toNat) = some e
  sound   : e.poison = false
  allowed : pageAllows k s.st.priv e = true
  aligned : va.toNat % n = 0
  memory  : e.tier ≠ 3
  place   : e.key va.toNat + n ≤ Config.gddrEnd ∨ (Config.cellarBase ≤ e.key va.toNat ∧ e.key va.toNat + n ≤ Config.cellarEnd)
    ∨ (Config.spadBase ≤ e.key va.toNat ∧ e.key va.toNat + n ≤ Config.spadEnd)
  answers : homeInReset s (e.key va.toNat) = false
  clean   : readPoisoned s (e.key va.toNat) n = false

/-- The tables of the machine are in their one form: keys rising, no default kept, so that equal tables are equal data. -/
structure Canonical (s : State) : Prop where
  mem    : Memory.wf s.mem = true
  others : sparseWf ({} : Strand) s.others = true
  cores  : sparseWf ({} : Core) s.cores = true
  active : sparseWf (0 : BitVec 4) s.lp.active = true
  queues : sparseWf ({} : Queue) s.lp.queues = true
  masks  : sparseWf (0 : Word) s.lines.masks = true

/-- No line of a compressed region waits to be written back, so that no eviction writes a block map (R189). -/
def NoLog (s : State) : Prop := ∀ t ∈ s.lines.tags, t.line < Config.compBase ∨ t.dirty = none

/-- The n bytes at a, little-endian (R5). -/
def number (s : State) (a n : Nat) : Nat := (List.range n).foldl (fun v k => v + (memByte s.mem (a + k)).toNat * 256 ^ k) 0

/-- Byte k of a number. -/
def byteOf (v k : Nat) : Byte := BitVec.ofNat 8 (v / 256 ^ k)

/-- Of all of memory, t differs from s in the n bytes at a alone, which hold v. -/
def Stored (s t : State) (a n v : Nat) : Prop :=
  ∀ b, memByte t.mem b = if a ≤ b ∧ b < a + n then byteOf v (b - a) else memByte s.mem b

/-- Of all of memory, t holds what s holds. -/
def SameMem (s t : State) : Prop := ∀ b, memByte t.mem b = memByte s.mem b

/-- The bytes and the extension of a size code of LD (Table 16.7). -/
def ldWidth : LdSize → Nat
  | .b | .bs => 1
  | .h | .hs => 2
  | .w | .ws => 4
  | .d => 8
def ldValue (z : LdSize) (v : Nat) : Word :=
  match z with
  | .bs => (BitVec.ofNat 8 v).signExtend 64
  | .hs => (BitVec.ofNat 16 v).signExtend 64
  | .ws => (BitVec.ofNat 32 v).signExtend 64
  | _ => BitVec.ofNat 64 v
def stWidth : Sz → Nat
  | .b => 1
  | .h => 2
  | .w => 4
  | .d => 8

/-- R275 and R284: length, destination, address, bytes and value of a load. -/
def loadOf (s : State) (i : Instr) : Option (Nat × XReg × VAddr × Nat × (Nat → Word)) :=
  match i with
  | .ld z d b o => some (4, d, (s.readX b + BitVec.ofInt 64 (o.toInt * ldWidth z)).truncate 48, ldWidth z, ldValue z)
  | .cLd d b o => some (2, small d, (s.readX (small b) + BitVec.ofNat 64 (8 * o.toNat)).truncate 48, 8, BitVec.ofNat 64)
  | _ => none

/-- R275 and R284: length, address, bytes and operand of a store. -/
def storeOf (s : State) (i : Instr) : Option (Nat × VAddr × Nat × Word) :=
  match i with
  | .st z v b o => some (4, (s.readX b + BitVec.ofInt 64 (o.toInt * stWidth z)).truncate 48, stWidth z, s.readX v)
  | .cSt v b o => some (2, (s.readX (small b) + BitVec.ofNat 64 (8 * o.toNat)).truncate 48, 8, s.readX (small v))
  | _ => none

/-- Table 18.3 on n bytes: the new value, the flags and x[d] of an AMO, from the old value and the operand. -/
def amoResult (p : AmoOp) (n old v : Nat) : Nat × Flags × Word :=
  let w := 8 * n
  let o := BitVec.ofNat w old
  let b := BitVec.ofNat w v
  let f := if n = 4 then fmtF32 else fmtF64
  let flt (r : Machine.Num × Flags) : Nat × Flags × Word :=
    let e := encodeFloat f .ne r.1
    (e.1, r.2 ||| e.2, o.zeroExtend 64)
  match p with
  | .add => ((o + b).toNat, 0, o.signExtend 64)
  | .swap => (b.toNat, 0, o.signExtend 64)
  | .and => ((o &&& b).toNat, 0, o.signExtend 64)
  | .or => ((o ||| b).toNat, 0, o.signExtend 64)
  | .xor => ((o ^^^ b).toNat, 0, o.signExtend 64)
  | .min => ((if b.slt o then b else o).toNat, 0, o.signExtend 64)
  | .max => ((if o.slt b then b else o).toNat, 0, o.signExtend 64)
  | .minn => ((if b.ult o then b else o).toNat, 0, o.zeroExtend 64)
  | .maxn => ((if o.ult b then b else o).toNat, 0, o.zeroExtend 64)
  | .fadd => flt (addNum false (decodeFloat f old) (decodeFloat f v))
  | .fmin => flt (minMaxNum false (decodeFloat f old) (decodeFloat f v))
  | .fmax => flt (minMaxNum true (decodeFloat f old) (decodeFloat f v))

/-- A request of the strand's own streams to a peer that has no reply yet: sent on a port, or to be sent again (R232, R234). -/
def PeerOut (s : State) (m : PeerMsg) : Prop :=
  m.strand = s.cur.val ∧ m.copy = false ∧
    ((∃ p ∈ s.links.ports, m ∈ p.2.waiting) ∨ ∃ q ∈ s.links.outbox, q.what = .request m)
/-- Writes of the strand's own streams to peers, and to the host, that have not been applied. -/
def WritesOut (s : State) : Prop := (∃ m b, PeerOut s m ∧ m.op = .write b) ∨ (s.cur.val, false) ∈ s.links.hostLate
/-- SIGNALs of the strand at peers that have not been applied. -/
def SignalsOut (s : State) : Prop := ∃ m n, PeerOut s m ∧ m.op = .signal n
/-- What a release at a scope waits for beside the VIQ (R217): SIGNALs at peers, and at `.sy` writes to peers and the host. -/
def StillOut (s : State) (c : Scope) : Prop := SignalsOut s ∨ (c = .sy ∧ WritesOut s)
/-- The scope of an ordering code, and whether it releases. -/
def ordScope : WideScope → Scope
  | .dv => .dv
  | .sy => .sy
def releaseAt : Ord → Option Scope
  | .flag c .rel | .flag c .ar => some (ordScope c)
  | _ => none
/-- What an ordering code needs of the strand: a release waits for the VIQ and for what is still out (R217). -/
def Released (s : State) (o : Ord) : Prop := ∀ c, releaseAt o = some c → s.st.viq = [] ∧ ¬ StillOut s c
/-- The strand waits for its whole VIQ (R55), or else as it stands. -/
def ReleaseWait (s t : State) (c : Scope) : Prop :=
  (s.st.viq ≠ [] ∧ t = { s with st := { s.st with await := s.st.viq.length } }) ∨ (s.st.viq = [] ∧ StillOut s c ∧ t = s)

/-- An ordering code acquires: it empties the core's L1 (R199). -/
def acquires : Ord → Bool
  | .flag _ .acq | .flag _ .ar => true
  | _ => false

/-- The code of a rounding mode in `frnd` (Table 2.9). -/
def frndOf : Mode → Option (BitVec 3)
  | .ne => some 0
  | .tz => none
  | .rz => some 1
  | .dn => some 2
  | .up => some 3
  | .away => some 4
  | .sr _ => none

end Sys2Proof.Claims

section
open Sys2Proof Sys2Proof.Machine

/-- LD and C.LD write x[d] with the bytes at their address, extended: from the line in the core's L1 where it holds one, else
from memory; they store nothing and change nothing else of the strand. -/
def Sys2Proof.Claims.Loads : Prop := ∀ (i : Instr) (s : State) (len : Nat) (d : XReg) (va : VAddr) (n : Nat)
    (f : Nat → Word) (e : TlbEntry),
  Claims.loadOf s i = some (len, d, va, n, f) → Claims.Reachable s .load va n e →
  (isLine (e.key va.toNat) = true → hitL1 s (curCore s) (e.key va.toNat) = none) →
  Claims.NoLog s →
  ∃ t, exec i s = .next t ∧
    t.st = ((s.writeX d (f (Claims.number s (e.key va.toNat) n))).retire len).st ∧ Claims.SameMem s t ∧ t.others = s.others

/-- A load served by the core's L1: the value is the line's, and nothing but x[d], the pc and the retired count changes. -/
def Sys2Proof.Claims.LoadsFromL1 : Prop := ∀ (i : Instr) (s : State) (len : Nat) (d : XReg) (va : VAddr) (n : Nat)
    (f : Nat → Word) (e : TlbEntry) (l : L1Line),
  Claims.loadOf s i = some (len, d, va, n, f) → Claims.Reachable s .load va n e →
  isLine (e.key va.toNat) = true → hitL1 s (curCore s) (e.key va.toNat) = some l → l.poison = false →
  exec i s =
    .next ((s.writeX d (f (bytesToNat ((l.data.drop (e.key va.toNat % 128)).take n)))).retire len)

/-- ST and C.ST store the low bytes of their operand at their address and nowhere else; of the strand only the pc and the
retired count change. -/
def Sys2Proof.Claims.Stores : Prop := ∀ (i : Instr) (s : State) (len : Nat) (va : VAddr) (n : Nat)
    (v : Word) (e : TlbEntry),
  Claims.storeOf s i = some (len, va, n, v) → Claims.Reachable s .store va n e →
  heldBy s e (e.key va.toNat) = false → s.st.park = 0 → Claims.Canonical s → Claims.NoLog s →
  ∃ t, exec i s = .next t ∧ t.st = (s.retire len).st ∧ Claims.Stored s t (e.key va.toNat) n v.toNat

/-- AMO and CAS: the old value in x[d], the new one in memory, the flags of a floating-point form and the emptied L1 of an acquire; a
CAS whose compare fails stores nothing. A release waits, with no effect, for the VIQ and for what is still out (R217). -/
def Sys2Proof.Claims.Atomics : Prop := ∀ (s : State) (dbl : Bool) (o : Sys2Proof.Ord) (d a b : XReg) (e : TlbEntry),
  let n := if dbl then 8 else 4
  let va : VAddr := (s.readX a).truncate 48
  let pa := e.key va.toNat
  let old := Claims.number s pa n
  (∀ c, Claims.releaseAt o = some c → va.toNat % n = 0 → ¬ (s.st.viq = [] ∧ ¬ Claims.StillOut s c) →
    (∀ p, ∃ t, exec (.amo p dbl o d a b) s = .next t ∧ Claims.ReleaseWait s t c) ∧
    ∃ t, exec (.cas dbl o d a b) s = .next t ∧ Claims.ReleaseWait s t c) ∧
  (Claims.Reachable s .both va n e → heldBy s e pa = false → Claims.Released s o →
  s.st.park = 0 → Claims.Canonical s → Claims.NoLog s →
  (∀ p, ∃ t, exec (.amo p dbl o d a b) s = .next t ∧
    Claims.Stored s t pa n (Claims.amoResult p n old ((s.readX b).toNat % 2 ^ (8 * n))).1 ∧
    t.st = (((s.raise (Claims.amoResult p n old ((s.readX b).toNat % 2 ^ (8 * n))).2.1).writeX d
      (Claims.amoResult p n old ((s.readX b).toNat % 2 ^ (8 * n))).2.2).retire 4).st ∧
    (Claims.acquires o = true → (getCore t (curCore t)).l1 = [])) ∧
  (∃ t, exec (.cas dbl o d a b) s = .next t ∧
    (if old = (s.readX d).toNat % 2 ^ (8 * n) then Claims.Stored s t pa n (s.readX b).toNat else Claims.SameMem s t) ∧
    t.st = ((s.writeX d ((BitVec.ofNat (8 * n) old).signExtend 64)).retire 4).st ∧
    (Claims.acquires o = true → (getCore t (curCore t)).l1 = [])))

/-- Accesses that trap, with an empty VIQ: a misaligned one with cause 0x03, one that its page does not allow with cause 0x05,
each with the address as `tval` and no effect of its own. -/
def Sys2Proof.Claims.AccessTraps : Prop := ∀ (i : Instr) (s : State) (va : VAddr) (n : Nat) (k : Access),
  s.st.viq = [] →
  ((∃ len d f, Claims.loadOf s i = some (len, d, va, n, f) ∧ k = .load) ∨
   (∃ len v, Claims.storeOf s i = some (len, va, n, v) ∧ k = .store) ∨
   (∃ p dbl d a b, i = .amo p dbl .none d a b ∧ va = (s.readX a).truncate 48 ∧ n = (if dbl then 8 else 4) ∧ k = .both) ∨
   (∃ dbl d a b, i = .cas dbl .none d a b ∧ va = (s.readX a).truncate 48 ∧ n = (if dbl then 8 else 4) ∧ k = .both)) →
  (va.toNat % n ≠ 0 →
    exec i s = .next (enterTrap 0x03 (va.zeroExtend 64) s.st.pc s.st.csr.vstart s)) ∧
  (va.toNat % n = 0 → ∀ e, (getCore s (curCore s)).tlb.find? (fun t => t.maps s.st.ctx va.toNat) = some e →
    e.poison = false → pageAllows k s.st.priv e = false →
    exec i s = .next (enterTrap 0x05 (va.zeroExtend 64) s.st.pc s.st.csr.vstart s))

/-- FENCE and SBAR (R215, R217, R314). A FENCE waits for the VIQ, and a release, with no effect, for SIGNALs at peers and at `.sy` for
writes to peers and the host; an acquire at `.cl` or wider empties the core's L1. SBAR waits for the youngest VIQ entry of its leading
streams and, with `a` among them, for writes and SIGNALs that are out. Nothing else changes but the pc and the retired count. -/
def Sys2Proof.Claims.Fences : Prop := ∀ (s : State) (f : OrdFlag) (c : Scope) (lead held : BitVec 5),
  let leads (e : VEntry) : Prop := ∃ g, laneOf e.instr = some g ∧ lead.getLsbD (1 + g.val) = true
  ((s.st.viq = [] ∧ (f ≠ .acq → ¬ Claims.StillOut s c)) →
    exec (.fence f c) s =
      .next ((if f ≠ .rel ∧ c ≠ .cr then emptyL1 s (curCore s) else s).retire 4)) ∧
  (s.st.viq ≠ [] → exec (.fence f c) s = .next { s with st := { s.st with await := s.st.viq.length } }) ∧
  (s.st.viq = [] → f ≠ .acq → Claims.StillOut s c → exec (.fence f c) s = .next s) ∧
  ((lead ≠ 0 ∧ held ≠ 0 ∧ (∀ e ∈ s.st.viq, ¬ leads e) ∧ (lead.getLsbD 0 = true → ¬ Claims.SignalsOut s ∧ ¬ Claims.WritesOut s)) →
    exec (.sbar lead held) s = .next (s.retire 4)) ∧
  (∀ n e, lead ≠ 0 → held ≠ 0 → s.st.viq[n]? = some e → leads e → (∀ m e', s.st.viq[m]? = some e' → leads e' → m ≤ n) →
    exec (.sbar lead held) s = .next { s with st := { s.st with await := n + 1 } }) ∧
  (lead ≠ 0 → held ≠ 0 → (∀ e ∈ s.st.viq, ¬ leads e) → lead.getLsbD 0 = true → Claims.SignalsOut s ∨ Claims.WritesOut s →
    exec (.sbar lead held) s = .next s)

/-- Scalar floating point (R277 to R283): under `frnd` 0 to 4 each form writes x[d] with the rounded result and adds its flags
to `fexc`; under 5 to 7 it traps with cause 0x01 before any effect; FCLASS ignores `frnd` and raises nothing. -/
def Sys2Proof.Claims.ScalarFloat : Prop := ∀ (s : State) (f : FFmt) (d a b : XReg) (m : Mode)
    (i : Instr) (r : Machine.Num × Flags),
  let A := decodeFloat (ffmt f) (s.readX a).toNat
  let B := decodeFloat (ffmt f) (s.readX b).toNat
  let D := decodeFloat (ffmt f) (s.readX d).toNat
  let down := decide (m = .dn)
  (i, r) ∈ [(.fadd f d a b, addNum down A B), (.fsub f d a b, addNum down A B.flip),
      (.fmul f d a b, mulNum A B), (.fdiv f d a b, divNum A B), (.fsqrt f d a, sqrtNum A),
      (.fma f d a b, fmaNum down A B D), (.fnma f d a b, fmaNum down A.flip B D),
      (.fmin f d a b, minMaxNum false A B), (.fmax f d a b, minMaxNum true A B)] →
  (Claims.frndOf m = some s.st.csr.frnd →
    exec i s = .next (((s.raise (r.2 ||| (encodeFloat (ffmt f) m r.1).2)).writeX d
      (BitVec.ofNat 64 (encodeFloat (ffmt f) m r.1).1)).retire 4)) ∧
  (5 ≤ s.st.csr.frnd.toNat → s.st.viq = [] →
    exec i s = .next (enterTrap 0x01 i.word s.st.pc s.st.csr.vstart s))

end

namespace Sys2Proof.Claims
open Sys2Proof.Machine

/-- The exponent and fraction widths of a format (Table 2.2). -/
def fieldsOf : FFmt → Nat × Nat
  | .f16 => (5, 10)
  | .bf16 => (8, 7)
  | .f32 => (8, 23)
  | .f64 => (11, 52)

/-- FCLASS on raw bits (R281): bit 0 −∞, 1 negative normal, 2 negative subnormal, 3 −0, 4 +0, 5 positive subnormal, 6 positive
normal, 7 +∞, 8 signalling NaN, 9 quiet NaN. -/
def classBits (f : FFmt) (v : Nat) : Nat :=
  let (ew, fw) := fieldsOf f
  let neg := v / 2 ^ (ew + fw) % 2 = 1
  let ex := v / 2 ^ fw % 2 ^ ew
  let fr := v % 2 ^ fw
  if ex = 2 ^ ew - 1 then
    if fr = 0 then (if neg then 2 ^ 0 else 2 ^ 7) else if fr < 2 ^ (fw - 1) then 2 ^ 8 else 2 ^ 9
  else if ex = 0 then
    if fr = 0 then (if neg then 2 ^ 3 else 2 ^ 4) else (if neg then 2 ^ 2 else 2 ^ 5)
  else if neg then 2 ^ 1 else 2 ^ 6

/-- Table 3.4: the bits a write stores, for the RW registers without a rule of their own. -/
def csrBits (c : BitVec 12) : Option Word :=
  match c.toNat with
  | 0x012 => some (BitVec.allOnes 64)
  | 0x014 => some 0xFFFFFFFF
  | 0x015 => some 3
  | 0x016 => some 1
  | 0x017 => some 0xFFFFFFFF
  | 0x018 => some 0x7FFFFFFF
  | 0x019 => some 0x1F
  | 0x01A => some 7
  | 0x021 => some (BitVec.allOnes 64)
  | 0x022 => some 0xFFFFFFFF
  | 0x023 => some 0xFFFFFFFF
  | 0x100 => some (BitVec.allOnes 64)
  | 0x101 => some 0x3FF
  | 0x102 => some (BitVec.allOnes 64)
  | 0x103 => some (BitVec.allOnes 64)
  | 0x104 => some 0x3FFF001F
  | 0x200 => some 7
  | n => if 0x120 ≤ n ∧ n ≤ 0x12F then some 0x1B else none

/-- Table 3.4: the RO registers. -/
def csrReadOnly (c : BitVec 12) : Bool :=
  c.toNat ∈ [0, 1, 2, 3, 0x011, 0x013, 0x01C, 0x01D, 0x020, 0x024, 0x030, 0x110, 0x111, 0xC00, 0xC01, 0xC02, 0xC03]

/-- Table 3.4: the registers, those of mode P, and those whose access drains the VIQ. -/
def csrExists (c : BitVec 12) : Prop :=
  csrReadOnly c = true ∨ csrBits c ≠ none ∨ c = 0x010 ∨ c = 0x01B ∨ (0x201 ≤ c.toNat ∧ c.toNat ≤ 0x208)
def csrPrivileged (c : BitVec 12) : Prop := 0x100 ≤ c.toNat ∧ c.toNat ≤ 0x208
def csrWaits (c : BitVec 12) : Prop :=
  c.toNat ∈ [0x012, 0x014, 0x015, 0x016, 0x017, 0x018, 0x019, 0x020, 0x021, 0x022, 0x023, 0x024, 0x030]

/-- No access waits for a walk, and none has yet to take the trap of one (R176, R178). -/
def NoWalks (s : State) : Prop := s.lag = false ∧ s.lines.misses = [] ∧ s.lines.missed = []

end Sys2Proof.Claims

section
open Sys2Proof Sys2Proof.Machine

/-- FCMP, FCLASS and FCVT (R280 to R282): x[d], the flags, and the trap of FCMP and FCVT under `frnd` 5 to 7. -/
def Sys2Proof.Claims.FloatCompareConvert : Prop := ∀ (s : State) (f : FFmt) (q : FCond) (t o : CvtTy) (d a b : XReg) (m : Mode),
  let A := decodeFloat (ffmt f) (s.readX a).toNat
  let B := decodeFloat (ffmt f) (s.readX b).toNat
  let nan := A.isNan || B.isNan
  let sig := decide (A = .nan true) || decide (B = .nan true)
  let r : Bool × Flags := match q with
    | .eq => (! nan && ! ltNum false A B && ! ltNum false B A, if sig then 16 else 0)
    | .lt => (! nan && ltNum false A B, if nan then 16 else 0)
    | .le => (! nan && ! ltNum false B A, if nan then 16 else 0)
    | .un => (nan, if sig then 16 else 0)
  exec (.fclass f d a) s = .next ((s.writeX d (BitVec.ofNat 64 (Claims.classBits f (s.readX a).toNat))).retire 4) ∧
  (Claims.frndOf m = some s.st.csr.frnd →
    exec (.fcmp f q d a b) s = .next (((s.raise r.2).writeX d (if r.1 then 1 else 0)).retire 4) ∧
    exec (.fcvt t o d a) s = .next (((s.raise (cvtResult t m (cvtSource o (s.readX a))).2).writeX d
      (cvtResult t m (cvtSource o (s.readX a))).1).retire 4)) ∧
  (5 ≤ s.st.csr.frnd.toNat → s.st.viq = [] →
    exec (.fcmp f q d a b) s = .next (enterTrap 0x01 (Instr.word (.fcmp f q d a b)) s.st.pc s.st.csr.vstart s) ∧
    exec (.fcvt t o d a) s = .next (enterTrap 0x01 (Instr.word (.fcvt t o d a)) s.st.pc s.st.csr.vstart s))

/-- CSRRD, CSRWR and CSRXCH complete on every register of Table 3.4: in privileged mode where it is of mode P, with an empty VIQ
where it drains, and for `dstat` with no SIGNAL out; x[a] is read before x[d] is written. -/
def Sys2Proof.Claims.CsrAccess : Prop := ∀ (s : State) (c : BitVec 12) (d a : XReg),
  Claims.csrExists c → (Claims.csrPrivileged c → s.st.priv = true) → (Claims.csrWaits c → s.st.viq = []) →
  (exec (.csrwr c a) s = .next ((csrWrite c (s.readX a) s).retire 4)) ∧
  ((c = 0x021 → s.st.signals = []) →
    exec (.csrrd d c) s = .next ((s.writeX d (csrValue s c)).retire 4) ∧
    exec (.csrxch d c a) s = .next (((csrWrite c (s.readX a) s).writeX d (csrValue s c)).retire 4))

/-- A number outside Table 3.4 traps with cause 0x01 and the instruction word; a register of mode P in user mode with 0x05 and
its number; nothing is read or written. -/
def Sys2Proof.Claims.CsrTraps : Prop := ∀ (s : State) (c : BitVec 12) (d a : XReg) (i : Instr),
  s.st.viq = [] → i = .csrrd d c ∨ i = .csrwr c a ∨ i = .csrxch d c a →
  (¬ Claims.csrExists c → exec i s = .next (enterTrap 0x01 i.word s.st.pc s.st.csr.vstart s)) ∧
  (Claims.csrExists c → Claims.csrPrivileged c → s.st.priv = false →
    exec i s = .next (enterTrap 0x05 (c.zeroExtend 64) s.st.pc s.st.csr.vstart s))

/-- A written register reads back the bits that Table 3.4 gives it, and no other register, memory or pc changes (`partsel`
selects what `slh0` to `dieh1` show); RO registers ignore writes; `vl` is clamped to `vlmax`, and `vshare` 0 becomes 1. The masks
`slh0` to `dieh1` take bits 47:7 until Daleel has released the L2 from configuration, and then ignore writes (R193). -/
def Sys2Proof.Claims.CsrReadBack : Prop := ∀ (s : State) (c : BitVec 12) (v : Word), Claims.Canonical s →
  (∀ m, Claims.csrBits c = some m → csrValue (csrWrite c v s) c = v &&& m) ∧
  (Claims.csrReadOnly c = true → csrWrite c v s = s) ∧
  (csrValue (csrWrite 0x010 v s) 0x010 = if v.toNat ≤ s.st.csr.vlmax.toNat then v else s.st.csr.vlmax) ∧
  (csrValue (csrWrite 0x01B v s) 0x01B = if v.toNat % 16 = 0 then 1 else v &&& 15) ∧
  (∀ k : Fin 8, let q : BitVec 12 := BitVec.ofNat 12 (0x201 + k.val)
    (s.lines.released = false → csrValue (csrWrite q v s) q = v &&& 0xFFFFFFFFFF80) ∧ (s.lines.released = true → csrWrite q v s = s)) ∧
  (∀ c', c' ≠ c → (c = 0x200 → ¬ (0x201 ≤ c'.toNat ∧ c'.toNat ≤ 0x208)) → csrValue (csrWrite c v s) c' = csrValue s c') ∧
  (csrWrite c v s).mem = s.mem ∧ (csrWrite c v s).others = s.others ∧
  (csrWrite c v s).st = { s.st with csr := (csrWrite c v s).st.csr, trap := (csrWrite c v s).st.trap }

/-- Taking a trap (R56, R57). In user mode the VIQ becomes the hold buffer with the resume index; `tcause`, `tval` and `tpc` are
written; the mode is privileged and the pc `tvec`. In privileged mode an occupied hold buffer stays, and a VIQ that is not
empty sends the context to DEAD.
An instruction that waited starts anew, and waits for no walk. V of a nested trap is read from TrapEntry (log 18). -/
def Sys2Proof.Claims.TrapEntry : Prop := ∀ (s : State) (cause : BitVec 8) (v resume : Word) (tpc : VAddr),
  let lines := { s.lines with
    misses := s.lines.misses.map fun m => { m with waiters := m.waiters.filter (· ≠ .strand s.cur.val) }
    missed := s.lines.missed.filter (·.who ≠ .strand s.cur.val) }
  (s.st.priv = false → enterTrap cause v tpc resume s = { s with lines := lines, st := { s.st with
      passed := 0
      qerr := none
      slotWoke := none
      hold := s.st.viq
      holdAt := resume
      viq := []
      park := 0
      wait := .none
      dogFrom := if s.st.park ≠ 0 then s.cycle else s.st.dogFrom
      await := 0
      priv := true
      pc := s.st.trap.tvec.truncate 48
      trap := ⟨s.st.trap.tvec, cause.zeroExtend 10 ||| (if s.st.viq = [] then 0 else 0x200), v, tpc.zeroExtend 64, s.st.trap.tlane⟩ } }) ∧
  (s.st.priv = true → s.st.viq = [] → enterTrap cause v tpc resume s = { s with lines := lines, st := { s.st with
      passed := 0
      qerr := none
      slotWoke := none
      viq := []
      park := 0
      wait := .none
      dogFrom := if s.st.park ≠ 0 then s.cycle else s.st.dogFrom
      await := 0
      pc := s.st.trap.tvec.truncate 48
      trap := ⟨s.st.trap.tvec, cause.zeroExtend 10 ||| 0x100 ||| (if s.st.hold = [] then 0 else 0x200), v, tpc.zeroExtend 64, s.st.trap.tlane⟩ } }) ∧
  (s.st.priv = true → s.st.viq ≠ [] → ctxState (enterTrap cause v tpc resume s) s.st.ctx = 6)

/-- TRAPI takes cause 0x0C with its immediate and the next instruction as `tpc`; SYSRET returns the hold buffer, the mode and the
pc; both wait for the VIQ; an odd `tpc` traps with cause 0x03 (R350). -/
def Sys2Proof.Claims.TrapiSysret : Prop := ∀ (s : State) (k : BitVec 8),
  (s.st.viq = [] → exec (.trapi k) s =
    .next (enterTrap 0x0C (k.zeroExtend 64) (s.st.pc + 4) s.st.csr.vstart ({ s with st := s.st.restart s.cycle }.modCsr fun c => { c with retired := c.retired + 1 }))) ∧
  (s.st.viq ≠ [] → exec (.trapi k) s = .next { s with st := { s.st with await := s.st.viq.length } }) ∧
  (s.st.priv = true → s.st.viq ≠ [] → exec .sysret s = .next { s with st := { s.st with await := s.st.viq.length } }) ∧
  (s.st.priv = true → s.st.viq = [] → s.st.trap.tpc.getLsbD 0 = false →
    exec .sysret s = .next { s with st := { s.st with
      viq := s.st.hold
      hold := []
      holdAt := 0
      dogRan := 0
      dogFrom := s.cycle
      priv := s.st.trap.tcause.getLsbD 8
      pc := s.st.trap.tpc.truncate 48
      csr := { s.st.csr with vstart := if s.st.hold = [] then s.st.csr.vstart else s.st.holdAt, retired := s.st.csr.retired + 1 } } }) ∧
  (s.st.priv = true → s.st.viq = [] → s.st.trap.tpc.getLsbD 0 = true →
    exec .sysret s = .next (enterTrap 0x03 s.st.trap.tpc s.st.pc s.st.csr.vstart s))

/-- SYSRET, HALT and the TLBINV forms are privileged: in user mode they trap with cause 0x01 and the instruction word, and do
nothing else (R251, R349). -/
def Sys2Proof.Claims.PrivilegedForms : Prop := ∀ (s : State) (a : XReg) (i : Instr),
  i ∈ [Instr.sysret, .halt, .tlbinvPage a, .tlbinvAll] → s.st.priv = false → s.st.viq = [] →
  exec i s = .next (enterTrap 0x01 i.word s.st.pc s.st.csr.vstart s)

/-- HALT in privileged mode sends the strand's context to DEAD, in its descriptor too: every strand of the context stops, and its saved items and groups
are gone (R48, R351). -/
def Sys2Proof.Claims.Halt : Prop := ∀ (s : State), Claims.Canonical s → s.lp.ctxTable % 128 = 0 → s.st.priv = true → s.st.resident = true → ctxState s s.st.ctx ≠ 6 →
  ∃ t, exec .halt s = .next t ∧ ctxState t s.st.ctx = 6 ∧ memNat t.mem (descAddr s s.st.ctx) 8 % 16 = 6 ∧
    (∀ n, (getStrand t n).resident = true → (getStrand t n).ctx ≠ s.st.ctx) ∧
    (∀ v ∈ t.lp.saved, v.ctx ≠ s.st.ctx) ∧ (∀ g ∈ t.lp.groups, g.2.ctx ≠ s.st.ctx)

/-- YIELD marks the strand for the sequencer's next visit; WAITEV writes the cycle count at or after its deadline and parks with reason 0x9
before it; WAITEV of a slot writes the slot that woke it, or parks with reason 0xA while the strand owns one, or writes all
ones (R352, R356).
A WAITEV without an owned slot is read from the rules (log 51), and the hold of YIELD is timing (log 7). -/
def Sys2Proof.Claims.YieldWaitev : Prop := ∀ (s : State) (d : XReg),
  exec .yield s = .next (State.retire { s with st := { s.st with yielded := true } } 4) ∧
  ((s.readX d).toNat ≤ s.cycle.toNat → exec (.waitevTimer d) s = .next ((s.writeX d s.cycle).retire 4)) ∧
  (s.cycle.toNat < (s.readX d).toNat → exec (.waitevTimer d) s =
    .next (parkOn s 0x9 (.timer (s.readX d)))) ∧
  (∀ k, s.st.slotWoke = some k → exec (.waitevSlot d) s =
    .next ((State.writeX { s with st := { s.st with slotWoke := none } } d (BitVec.ofNat 64 k.val)).retire 4)) ∧
  (s.st.slotWoke = none → ownsSlot s s.cur.val = true → exec (.waitevSlot d) s =
    .next (parkOn s 0xA .slot)) ∧
  (s.st.slotWoke = none → ownsSlot s s.cur.val = false → exec (.waitevSlot d) s =
    .next ((s.writeX d (BitVec.allOnes 64)).retire 4))

/-- `cacheop prefetch` never traps: it waits where its translation does (R178), else the pc moves on; no register and no byte of memory
outside compressed regions changes, whatever its address (R354). -/
def Sys2Proof.Claims.Prefetch : Prop := ∀ (s : State) (a : XReg),
  ∃ t, exec (.cacheopPrefetch a) s = .next t ∧ (t.st = s.st ∨ t.st = (s.retire 4).st) ∧ (Claims.NoWalks s → t.st = (s.retire 4).st) ∧
    (Claims.NoLog s → ∀ b, b < Config.compBase → memByte t.mem b = memByte s.mem b)

/-- The CACHEOP forms that answer a code in x10 (Table 20.4), on a line of memory outside compressed regions. A pin leaves the line pinned
(0) that the context has pinned or nobody has, while fewer than 65,536 tags of its slice are pinned; it is refused where another
context has pinned the line (1), and at that limit (2), and no pin changes. Unpin removes the context's pin (0) or finds none (4);
flush leaves the line without unwritten content (0); invalidate drops an unpinned line (0) and keeps a pinned one (3). No byte of
memory changes. On a page that does not allow a load, each traps with cause 0x05 and x[a] as `tval`.
The codes are read from Table 20.4 (log 50); a line that finds no free vat entry stays without a tag (log 63). -/
def Sys2Proof.Claims.CacheLines : Prop := ∀ (s : State) (a : XReg) (e : TlbEntry) (i : Instr),
  let va : VAddr := (s.readX a).truncate 48
  let l := lineOf (e.key va.toNat)
  let slice (b : Nat) : Prop := homeSlice s b = homeSlice s l ∧ homeDie s b = homeDie s l
  let pins := (s.lines.tags.filter fun t => t.pin ≠ none ∧ slice t.line).length
  let entries := (s.lines.vat.filter fun v => v.2.slice = homeSlice s l ∧ v.2.die = homeDie s l).length
  i ∈ [Instr.cacheopPin a, .cacheopUnpin a, .cacheopFlush a, .cacheopInvalidate a] →
  ((getCore s (curCore s)).tlb.find? (fun t => t.maps s.st.ctx va.toNat) = some e → e.poison = false → s.st.viq = [] →
    pageAllows .load s.st.priv e = false → exec i s = .next (enterTrap 0x05 (s.readX a) s.st.pc s.st.csr.vstart s)) ∧
  (Claims.Reachable s .load va 1 e → isLine l = true → e.key va.toNat < Config.compBase → Claims.NoLog s →
  ∃ t, exec i s = .next t ∧ Claims.SameMem s t ∧ t.st.pc = s.st.pc + 4 ∧ (∀ r, r ≠ 10 → t.readX r = s.readX r) ∧
    match i with
    | .cacheopPin _ =>
      (∀ p, findTag s l = some p → p.pin = some s.st.ctx → t.readX 10 = 0 ∧ ∃ q, findTag t l = some q ∧ q.pin = some s.st.ctx) ∧
      (∀ p c, findTag s l = some p → p.pin = some c → c ≠ s.st.ctx → t.readX 10 = 1 ∧ ∃ q, findTag t l = some q ∧ q.pin = some c) ∧
      ((s.lines.tags.map (·.line)).Nodup → (∀ p, findTag s l = some p → p.pin = none) → (findTag s l = none → entries < 65536) →
        (pins < 65536 → t.readX 10 = 0 ∧ ∃ q, findTag t l = some q ∧ q.pin = some s.st.ctx) ∧
        (65536 ≤ pins → t.readX 10 = 2 ∧ ∀ q, findTag t l = some q → q.pin = none))
    | .cacheopUnpin _ =>
      ((∃ p, findTag s l = some p ∧ p.pin = some s.st.ctx) → t.readX 10 = 0 ∧ ∃ p, findTag t l = some p ∧ p.pin = none) ∧
      (¬ (∃ p, findTag s l = some p ∧ p.pin = some s.st.ctx) → t.readX 10 = 4 ∧ findTag t l = findTag s l)
    | .cacheopFlush _ => t.readX 10 = 0 ∧ isDirty t l = false
    | _ =>
      ((∃ p, findTag s l = some p ∧ p.pin ≠ none) → t.readX 10 = 3 ∧ findTag t l = findTag s l) ∧
      (¬ (∃ p, findTag s l = some p ∧ p.pin ≠ none) → t.readX 10 = 0 ∧ findTag t l = none))

/-- TLBINV in privileged mode, where no copy, no tile transfer and no request to a peer or the host is under way: the page's translations, or all the
context's, leave every TLB of the device; those of other contexts stay, and memory and the strand stay but for the pc (R355).
The wait for far requests is read from the rules (log 49). -/
def Sys2Proof.Claims.TlbInvalidate : Prop := ∀ (s : State) (a : XReg) (i : Instr),
  Claims.Canonical s → s.st.priv = true → (∀ c ∈ s.cores, c.2.commands = []) → (∀ p ∈ s.links.ports, p.2.waiting = []) →
  s.links.outbox = [] → s.links.hostLate = [] → s.links.hostReads = [] → s.st.accum.flight = [] → (∀ x ∈ s.others, x.2.accum.flight = []) →
  i = .tlbinvPage a ∨ i = .tlbinvAll →
  ∃ t, exec i s = .next t ∧ t.st = (s.retire 4).st ∧ t.mem = s.mem ∧
    ∀ (e : TlbEntry), ((∃ d, (d, e) ∈ t.lines.tlb) ∨ ∃ c, e ∈ (getCore t c).tlb) ↔
      ((∃ d, (d, e) ∈ s.lines.tlb) ∨ ∃ c, e ∈ (getCore s c).tlb) ∧
        ¬ (e.ctx = s.st.ctx ∧ (i = .tlbinvAll ∨ e.maps s.st.ctx ((s.readX a).truncate 48 : VAddr).toNat = true))

end

namespace Sys2Proof.Claims
open Sys2Proof.Machine

/-! ## Barriers, groups and vines -/

/-- The fields of a barrier object of 128 bits (Table 7.1). -/
def barTarget (N : Nat) : Nat := N % 2 ^ 32
def barArrived (N : Nat) : Nat := N / 2 ^ 32 % 2 ^ 32
def barGen (N : Nat) : Nat := N / 2 ^ 64 % 2 ^ 32
/-- A valid object: INIT is 1, TARGET is not 0, and the reserved bits are 0 (R101). -/
def barValid (N : Nat) : Prop := N / 2 ^ 96 % 2 = 1 ∧ barTarget N ≠ 0 ∧ N / 2 ^ 98 = 0
/-- The object after n arrivals at once (R103): a full generation passes, or ARRIVED rises. -/
def barAfter (N n : Nat) : Nat :=
  if n = 0 then N
  else if barTarget N ≤ barArrived N + n then
    N - barArrived N * 2 ^ 32 - barGen N * 2 ^ 64 + (barGen N + 1) % 2 ^ 32 * 2 ^ 64
  else N + n * 2 ^ 32
/-- What BINIT leaves for an operand v (R104): TARGET and NOSIG from it, no arrival, the generation of an object that was
initialised, else 0. -/
def barStart (N : Nat) (v : Word) : Nat :=
  v.toNat % 2 ^ 32 + (if N / 2 ^ 96 % 2 = 1 then barGen N else 0) * 2 ^ 64 + 2 ^ 96 + (v.toNat / 2 ^ 32 % 2) * 2 ^ 97

/-- A scope's release finds nothing to wait for (R217): the VIQ is empty, and nothing is still out. -/
def ReleasedAt (s : State) (c : Scope) : Prop := s.st.viq = [] ∧ ¬ StillOut s c

/-- A group object after a leave (R95): TARGET less one, ARRIVED less one where the item arrived in this generation, and a generation
that is then full passes. -/
def leftGroup (g : GroupObj) (arrived : Prop) [Decidable arrived] : GroupObj :=
  let n := if arrived then g.arrived - 1 else g.arrived
  if g.target ≠ 1 ∧ g.target - 1 ≤ n then { g with target := g.target - 1, arrived := 0, gen := g.gen + 1 }
  else { g with target := g.target - 1, arrived := n }

/-- The 1 bits of a mask below `vl`. -/
def arrivals (s : State) (k : MReg) : Nat := ((List.range s.st.csr.vl.toNat).filter fun j => s.st.m[k.val].getLsbD j).length

/-- Every word of the vine structures of the focused strand's context lies on one page, in GDDR-7, that the last-level TLB of its
die and its core's TLB hold; nothing holds a write there, and nothing is in error (R133, R139). -/
structure VineSpace (s : State) (P : TlbEntry) : Prop where
  dieTlb  : s.lines.tlb = [(curDie s, P)]
  coreTlb : (getCore s (curCore s)).tlb = [P]
  ctx     : P.ctx = s.st.ctx
  allowed : P.r = true ∧ P.w = true ∧ P.p = false ∧ P.moving = false ∧ P.tier = 0
  place   : P.base + P.size ≤ Config.gddrEnd ∧ P.base % P.size = 0 ∧ P.vpage % P.size = 0 ∧ P.vpage + P.size ≤ 2 ^ 48
  sound   : P.poison = false ∧ s.lines.rdcBad = [] ∧ s.poison = [] ∧ ∀ v ∈ s.lines.vat, v.2.poison = false
  up      : ∀ d : Fin 4, s.daleel.dies[d.val] = .up
  room    : s.lines.vat.length + 8192 ≤ Config.vatEntries ∧ s.lines.tags.length + 8192 ≤ Config.l2Tags
  apart   : P.base + P.size ≤ descAddr s s.st.ctx ∨ descAddr s s.st.ctx + 128 ≤ P.base
  idle    : s.st.park = 0 ∧ s.watches = [] ∧ s.broken = []

/-- The page holds the n bytes at va. -/
def Inside (P : TlbEntry) (va n : Nat) : Prop := P.vpage ≤ va ∧ va + n ≤ P.vpage + P.size

/-- The n bytes at virtual address va of the page. -/
def at_ (s : State) (P : TlbEntry) (va n : Nat) : Nat := number s (P.base + (va - P.vpage)) n

/-- Dword k of entry h of the vine table, and its address (R134). -/
def vineVa (s : State) (h k : Nat) : Nat := ctxVtBase s s.st.ctx + 64 * h + 8 * k
def vineWord (s : State) (P : TlbEntry) (h k : Nat) : Nat := at_ s P (vineVa s h k) 8

/-- RESLEN, CMTLEN, OVERLAY, MAPLEN, POOL and STATE of a vine (Table 9.1). -/
def resLen (s : State) (P : TlbEntry) (h : Nat) : Nat := vineWord s P h 0 / 2 ^ 32
def cmtLen (s : State) (P : TlbEntry) (h : Nat) : Nat := vineWord s P h 0 % 2 ^ 32
def overlay (s : State) (P : TlbEntry) (h : Nat) : Nat := vineWord s P h 2
def mapLen (s : State) (P : TlbEntry) (h : Nat) : Nat := vineWord s P h 3 / 2 ^ 32
def poolNo (s : State) (P : TlbEntry) (h : Nat) : Nat := vineWord s P h 3 % 2 ^ 32
def vineStateOf (s : State) (P : TlbEntry) (h : Nat) : Nat := vineWord s P h 4 % 8

/-- Entry h of the table is inside the page and holds a valid vine descriptor: KIND 1, a listed STATE, every RES field 0. -/
structure IsVine (s : State) (P : TlbEntry) (h : Nat) : Prop where
  inside : Inside P (vineVa s h 0) 64
  listed : h < ctxVtCount s s.st.ctx
  kind   : vineWord s P h 4 / 16 % 16 = 1 ∧ vineStateOf s P h ≤ 4
  res    : overlay s P h / 2 ^ 48 = 0 ∧ overlay s P h % 64 = 0 ∧ vineWord s P h 4 / 2 ^ 28 % 16 = 0 ∧ vineWord s P h 4 / 2 ^ 19 % 32 = 0
    ∧ vineWord s P h 4 / 2 ^ 8 % 256 = 0 ∧ vineWord s P h 7 = 0

/-- Entry p of the table is inside the page and holds a valid pool entry of token bytes b (Table 9.2). -/
structure IsPool (s : State) (P : TlbEntry) (p b : Nat) : Prop where
  inside : Inside P (vineVa s p 0) 64
  listed : p < ctxVtCount s s.st.ctx
  base   : vineWord s P p 0 < 2 ^ 48 ∧ vineWord s P p 0 % 128 = 0
  counts : vineWord s P p 1 < 2 ^ 48 ∧ vineWord s P p 1 % 2 = 0
  others : vineWord s P p 2 < 2 ^ 32 ∧ vineWord s P p 4 = 0x21 ∧ vineWord s P p 5 = 0 ∧ vineWord s P p 6 = 0 ∧ vineWord s P p 7 = 0
  tokb   : vineWord s P p 3 = b ∧ b % 8 = 0 ∧ 8 ≤ b ∧ b ≤ 32768

/-- A live vine: valid, OPEN, with its pool valid. -/
structure OpenVine (s : State) (P : TlbEntry) (h b : Nat) : Prop where
  vine : IsVine s P h
  open_ : vineStateOf s P h = 1
  pool : IsPool s P (poolNo s P h) b
  window : Inside P (overlay s P h) (512 + 8 * mapLen s P h)

/-- Entry p of the overlay map: its page, where it is valid (R136). -/
def mapped (s : State) (P : TlbEntry) (h p : Nat) : Option Nat :=
  let e := at_ s P (overlay s P h + 0x200 + 8 * p) 8
  if p < mapLen s P h ∧ e / 2 ^ 63 = 1 ∧ e / 2 ^ 32 % 2 ^ 30 = 0 then some (e % 2 ^ 32) else none

/-- Bit of slot j in the commit window (R141). -/
def committed (s : State) (P : TlbEntry) (h j : Nat) : Bool :=
  decide (at_ s P (overlay s P h + j % 4096 / 64 * 8) 8 / 2 ^ (j % 64) % 2 = 1)

/-- Address of byte o of token i of a vine whose page is g (R139). -/
def tokenAt (s : State) (P : TlbEntry) (h b g i o : Nat) : Nat := vineWord s P (poolNo s P h) 0 + (16 * g + i % 16) * b + o

/-- Ranges of addresses that do not meet. -/
def Apart (l : List (Nat × Nat)) : Prop := l.Pairwise fun x y => x.1 + x.2 ≤ y.1 ∨ y.1 + y.2 ≤ x.1

/-- Outside the ranges, memory is as before. -/
def OutsideSame (s t : State) (P : TlbEntry) (l : List (Nat × Nat)) : Prop :=
  ∀ a, (∀ r ∈ l, ¬ (P.base + (r.1 - P.vpage) ≤ a ∧ a < P.base + (r.1 - P.vpage) + r.2)) → memByte t.mem a = memByte s.mem a

/-- The range of a descriptor, and of a vine's window and overlay map. -/
def descRange (s : State) (h : Nat) : Nat × Nat := (vineVa s h 0, 64)
def mapRange (s : State) (P : TlbEntry) (h : Nat) : Nat × Nat := (overlay s P h, 512 + 8 * mapLen s P h)

/-- The vine page of token i by fuel n (R143): of the vine's own map, else of its parent's below FORKLEN. -/
inductive Resolves (s : State) (P : TlbEntry) : Nat → Nat → Nat → Nat → Prop
  | own {n h i g : Nat} : mapped s P h (i / 16) = some g → Resolves s P (n + 1) h i g
  | up {n h i g : Nat} : mapped s P h (i / 16) = none → vineWord s P h 1 / 2 ^ 32 ≠ 0xFFFFFFFF → i < vineWord s P h 1 % 2 ^ 32 →
      IsVine s P (vineWord s P h 1 / 2 ^ 32) → Inside P (mapRange s P (vineWord s P h 1 / 2 ^ 32)).1 (mapRange s P (vineWord s P h 1 / 2 ^ 32)).2 →
      Resolves s P n (vineWord s P h 1 / 2 ^ 32) i g → Resolves s P (n + 1) h i g

/-- The count of page g of pool p: its address and its value (R137). -/
def countAt (s : State) (P : TlbEntry) (p g : Nat) : Nat := vineWord s P p 1 + 2 * g
def count (s : State) (P : TlbEntry) (p g : Nat) : Nat := at_ s P (countAt s P p g) 2

/-- Slot j is committed, or lies in [a, a + n). -/
def nowCommitted (s : State) (P : TlbEntry) (h a n j : Nat) : Prop := committed s P h j = true ∨ (a ≤ j ∧ j < a + n)

end Sys2Proof.Claims

section
open Sys2Proof Sys2Proof.Machine

/-- The barrier forms on a valid object (R103, R104): BARR answers the generation and arrives with the 1 bits of its mask, BTEST
compares, BWAIT goes on or parks with reason 0x1; BINIT sets up an object of any content; a SIGNAL arrives without an
answer. Only the object's 16 bytes change, and of the strand x[d] and the pc. -/
def Sys2Proof.Claims.Barriers : Prop := ∀ (s : State) (c : Scope) (d a b : XReg) (mk : MReg) (e : TlbEntry),
  let va : VAddr := (s.readX a).truncate 48
  let pa := e.key va.toNat
  let N := Claims.number s pa 16
  let v := s.readX b

  Claims.Reachable s .both va 16 e → e.tier.toNat < 2 → isLine pa = true → pa % 16 = 0 → heldBy s e pa = false → Claims.ReleasedAt s c →
  s.st.park = 0 → Claims.Canonical s → Claims.NoLog s →
  (v.toNat % 2 ^ 32 ≠ 0 → ∃ t, exec (.binit c a b) s = .next t ∧ t.st = (s.retire 4).st ∧ Claims.Stored s t pa 16 (Claims.barStart N v)) ∧
  (Claims.barValid N →
    (∃ t, exec (.barr c d a mk) s = .next t ∧ t.st = ((s.writeX d (BitVec.ofNat 64 (Claims.barGen N))).retire 4).st ∧
      Claims.Stored s t pa 16 (Claims.barAfter N (Claims.arrivals s mk))) ∧
    (∃ t, exec (.btest c d a b) s = .next t ∧ Claims.SameMem s t ∧
      t.st = ((s.writeX d (if Claims.barGen N ≠ v.toNat % 2 ^ 32 then 1 else 0)).retire 4).st) ∧
    (Claims.barGen N ≠ v.toNat % 2 ^ 32 → ∃ t, exec (.bwait c a b) s = .next t ∧ Claims.SameMem s t ∧ t.st = (s.retire 4).st) ∧
    (Claims.barGen N = v.toNat % 2 ^ 32 → ∃ t, exec (.bwait c a b) s = .next t ∧ Claims.SameMem s t ∧
      t.st = (parkOn s 1 (.lines [lineOf pa])).st ∧ (lineOf pa, s.cur.val) ∈ t.watches) ∧
    (N / 2 ^ 97 % 2 = 0 → ∃ t, exec (.signal c a b) s = .next t ∧ t.st = (s.retire 4).st ∧
      Claims.Stored s t pa 16 (Claims.barAfter N (v.toNat % 2 ^ 32))))

/-- The group forms (R93, R94): an arrival answers the generation and counts, closing a full one; BWAIT goes on once the
generation has passed; before that each parks, with reason 0xC or 0x1. -/
def Sys2Proof.Claims.GroupForms : Prop := ∀ (s : State) (d : XReg) (k : Fin 6) (mk : MReg) (m : Member) (g : GroupObj),
  s.st.item.groups.find? (fun x => x.level = k.val ∧ x.left = none) = some m → getGroup s m.obj = some g →
  s.daleel.dies[(groupDie g).val] ≠ .inReset → s.st.park = 0 →
  (m.seen ≠ some g.gen → Claims.ReleasedAt s (groupScope g) → ∃ t, exec (.barrG d k mk) s = .next t ∧ t.mem = s.mem ∧
    t.st = ((State.writeX (setMember s { m with seen := some g.gen }) d (g.gen.zeroExtend 64)).retire 4).st ∧
    getGroup t m.obj = some (if g.target ≠ 0 ∧ g.target ≤ g.arrived + 1 then { g with gen := g.gen + 1, arrived := 0 }
      else { g with arrived := g.arrived + 1 })) ∧
  (m.seen = some g.gen → exec (.barrG d k mk) s = .next (parkOn s 0xC (.group m.obj))) ∧
  (m.seen ≠ some g.gen → exec (.bwaitG k) s = .next ((if g.scope = 1 then s else emptyL1 s (curCore s)).retire 4)) ∧
  (m.seen = some g.gen → exec (.bwaitG k) s = .next (parkOn s 1 (.group m.obj)))

/-- GREAD writes what Table 6.1 names and changes nothing else: the fields of the object of a group the strand is in; of one it
has left or never joined, what it saw when it left, or the fields of a group of one.
INFO of a level without a group is read from the rules (log 42). -/
def Sys2Proof.Claims.GroupRead : Prop := ∀ (s : State) (d : XReg) (k : Fin 6) (sel : Fin 5),
  let mem := s.st.item.groups.find? fun x => x.level = k.val
  let obj := mem.bind fun m => if m.left = none then getGroup s m.obj else none
  let scope := s.st.item.wfld.toNat / 2 ^ (10 * k.val + 7) % 8
  (∀ g, obj = some g → sel.val < 3 → s.daleel.dies[(groupDie g).val] ≠ .inReset) →
  ∃ v, exec (.gread d k sel) s = .next ((s.writeX d (BitVec.ofNat 64 v)).retire 4) ∧
    (sel = 3 → v = s.st.item.index % ((s.st.item.extents.take k.val).foldl (· * ·) 1)) ∧
    (sel = 4 → v = (if obj = none then 0 else 1) + 2 * scope) ∧
    (∀ g, obj = some g → (sel = 0 → v = g.target.toNat) ∧ (sel = 1 → v = g.gen.toNat) ∧ (sel = 2 → v = g.arrived.toNat)) ∧
    (obj = none → (sel = 2 → v = 0) ∧ (scope = 4 → sel.val < 2 → v = 0) ∧
      (scope ≠ 4 → ∀ tg gn, mem.bind (·.left) = some (tg, gn) → (sel = 0 → v = tg.toNat) ∧ (sel = 1 → v = gn.toNat)) ∧
      (scope ≠ 4 → mem.bind (·.left) = none → (sel = 0 → v = 1) ∧ (sel = 1 → v = 0)))

/-- EXIT.G leaves every group the item is in and goes on with the next instruction; no register and no byte of memory changes. Each
object loses the item from TARGET, and from ARRIVED where it has arrived; a generation that is then full passes, and an object
without members is gone; the item keeps TARGET and GENERATION as it left them (R95, R97, R353). -/
def Sys2Proof.Claims.ExitGroups : Prop := ∀ (s : State), Claims.ReleasedAt s (widest (memberships s)) → s.st.park = 0 → (∀ d : Fin 4, s.daleel.dies[d.val] ≠ .inReset) →
  ∃ t, exec .exitG s = .next t ∧ memberships t = [] ∧
    (((memberships s).map (·.1.obj)).Nodup → (s.st.item.groups.map (·.level)).Nodup → ∀ m g, (m, g) ∈ memberships s →
      getGroup t m.obj = (if g.target = 1 then none else some (Claims.leftGroup g (m.seen = some g.gen))) ∧
      (t.st.item.groups.find? (·.level = m.level)).bind (·.left) =
        some ((Claims.leftGroup g (m.seen = some g.gen)).target, (Claims.leftGroup g (m.seen = some g.gen)).gen)) ∧ t.mem = s.mem ∧ t.st.pc = s.st.pc + 4 ∧ t.st.x = s.st.x ∧ t.st.v = s.st.v ∧ t.st.m = s.st.m

/-- QWAIT goes on with x10 := 0 once DONE has reached its sequence number, with STATUS where the queue is in ERROR, or was when it ended the wait, and else parks
with reason 0x2; QAPP stores the 64-byte entry at the queue's append address, raises TAIL and answers it (R71, R72). -/
def Obligations.QueueForms : Prop := ∀ (s : State) (d q a : XReg) (e f : TlbEntry),
  let n := (s.readX q).toNat
  let Q := getQueue s n
  (∀ w, s.st.qerr = some (n, s.readX a, w) →
    exec (.qwait q a) s = .next ((State.writeX { emptyL1 s (curCore s) with st := { s.st with qerr := none } } 10 w).retire 4)) ∧
  (n ≤ 63 → Q.ctx = s.st.ctx → (∀ w, s.st.qerr ≠ some (n, s.readX a, w)) →
  ((s.readX a).toNat ≤ Q.done.toNat → exec (.qwait q a) s = .next ((State.writeX (emptyL1 s (curCore s)) 10 0).retire 4)) ∧
  (¬ (s.readX a).toNat ≤ Q.done.toNat → Q.stat = 2 →
    exec (.qwait q a) s = .next ((State.writeX (emptyL1 s (curCore s)) 10 (BitVec.ofNat 64 (Q.err.toNat * 256 + 2))).retire 4)) ∧
  (¬ (s.readX a).toNat ≤ Q.done.toNat → Q.stat ≠ 2 →
    exec (.qwait q a) s = .next (parkOn s 2 (.queue n (s.readX a))))) ∧
  (let src : VAddr := (s.readX a).truncate 48
   let dst : VAddr := Q.append.truncate 48
   let N := Claims.number s (e.key src.toNat) 64
   n ≤ 63 → Q.ctx = s.st.ctx → Q.qctl.getLsbD 12 = true → Q.stat = 1 → Claims.ReleasedAt s .dv → s.st.park = 0 → Claims.Canonical s → Claims.NoLog s →
   Claims.Reachable s .load src 64 e → Claims.Reachable s .store dst 64 f → heldBy s f (f.key dst.toNat) = false →
   f.key dst.toNat % 64 = 0 →
   s.lines.vat.length + 1 < Config.vatEntries →
   ∃ t, exec (.qapp d q a) s = .next t ∧ Claims.Stored s t (f.key dst.toNat) 64 N ∧
     t.st = ((s.writeX d (Q.tail + 1)).retire 4).st ∧ (getQueue t n).tail = Q.tail + 1 ∧
     (getQueue t n).append = (if N % 256 = 3 then BitVec.ofNat 64 (N / 2 ^ 320 % 2 ^ 64 / 64 * 64) else Q.append + 64))

end

section
open Sys2Proof Sys2Proof.Machine

/-- SQLEN, SQWAIT and SQLD on a live vine (R142, R143): the commit length; the wait of reason 0x6 below it; the bytes of a
committed token through the vine's own map or its parents', and the trap 0x08 at or above the commit length. -/
def Obligations.VineReads : Prop := ∀ (s : State) (P : TlbEntry) (c : WideScope) (d x y : XReg) (z : Sz) (b : Nat),
  let h := (s.readX x).toNat % 2 ^ 32
  let n := (s.readX y).toNat % 2 ^ 32
  let o := (s.readX y).toNat / 2 ^ 32 % 2 ^ 16
  let C := Claims.cmtLen s P h
  Claims.VineSpace s P → Claims.OpenVine s P h b →
  (∃ t, exec (.sqlen c d x) s = .next t ∧ Claims.SameMem s t ∧ t.st = ((s.writeX d (BitVec.ofNat 64 C)).retire 4).st) ∧
  (n ≤ C → ∃ t, exec (.sqwait c d x y) s = .next t ∧ Claims.SameMem s t ∧ t.st = ((s.writeX d (BitVec.ofNat 64 C)).retire 4).st) ∧
  (C < n → ∃ t, exec (.sqwait c d x y) s = .next t ∧ Claims.SameMem s t ∧
    t.st = (parkOn s 6 (.vine (BitVec.ofNat 32 h))).st) ∧
  (C ≤ n → s.st.viq = [] → ∃ t, exec (.sqld z d x y) s = .next t ∧ Claims.SameMem s t ∧
    t.st = (enterTrap 0x08 (BitVec.ofNat 64 n) s.st.pc s.st.csr.vstart s).st) ∧
  (∀ g, n < C → Claims.Resolves s P 5 h n g → o + Claims.stWidth z ≤ b →
    Claims.tokenAt s P h b g n o % Claims.stWidth z = 0 → Claims.Inside P (Claims.tokenAt s P h b g n o) (Claims.stWidth z) →
    ∃ t, exec (.sqld z d x y) s = .next t ∧ Claims.SameMem s t ∧
      t.st = ((s.writeX d (BitVec.ofNat 64 (Claims.at_ s P (Claims.tokenAt s P h b g n o) (Claims.stWidth z)))).retire 4).st)

/-- SQST stores to a reserved, uncommitted token of the vine's own page (R139), and nowhere else. -/
def Sys2Proof.Claims.VineStore : Prop := ∀ (s : State) (P : TlbEntry) (v x y : XReg) (z : Sz) (b g : Nat),
  let h := (s.readX x).toNat % 2 ^ 32
  let i := (s.readX y).toNat % 2 ^ 32
  let o := (s.readX y).toNat / 2 ^ 32 % 2 ^ 16
  let va := Claims.tokenAt s P h b g i o

  Claims.VineSpace s P → Claims.Canonical s → Claims.OpenVine s P h b → Claims.cmtLen s P h ≤ i → i < Claims.resLen s P h →

  Claims.committed s P h i = false → Claims.mapped s P h (i / 16) = some g → o + Claims.stWidth z ≤ b → va % Claims.stWidth z = 0 →
  Claims.Inside P va (Claims.stWidth z) →
  ∃ t, exec (.sqst z v x y) s = .next t ∧ t.st = (s.retire 4).st ∧
    Claims.Stored s t (P.base + (va - P.vpage)) (Claims.stWidth z) (s.readX v).toNat

/-- SQRES (R140): n tokens from RESLEN on, where their pages are mapped and unshared; a full window parks with reason 0x5; more
than 4,096 tokens trap with cause 0x01; n = 0 only reads RESLEN. -/
def Sys2Proof.Claims.VineReserve : Prop := ∀ (s : State) (P : TlbEntry) (d x y : XReg) (b : Nat),
  let h := (s.readX x).toNat % 2 ^ 32
  let n := (s.readX y).toNat
  let R := Claims.resLen s P h

  Claims.VineSpace s P → Claims.Canonical s → Claims.OpenVine s P h b → Claims.Apart [Claims.descRange s h, Claims.mapRange s P h] →
  (n = 0 → ∃ t, exec (.sqres d x y) s = .next t ∧ Claims.SameMem s t ∧ t.st = ((s.writeX d (BitVec.ofNat 64 R)).retire 4).st) ∧
  (4096 < n → s.st.viq = [] → exec (.sqres d x y) s = .next (enterTrap 0x01 (Instr.word (.sqres d x y)) s.st.pc s.st.csr.vstart s)) ∧
  (0 < n → n ≤ 4096 → R + n < 2 ^ 32 → 4096 < R + n - Claims.cmtLen s P h → ∃ t, exec (.sqres d x y) s = .next t ∧
    Claims.SameMem s t ∧ t.st.park = 5 ∧ t.st.wait = .vine (BitVec.ofNat 32 h) ∧ t.st.pc = s.st.pc ∧ t.st.x = s.st.x) ∧
  (0 < n → n ≤ 4096 → R + n < 2 ^ 32 → R + n - Claims.cmtLen s P h ≤ 4096 →
    (∀ p, R / 16 ≤ p → p ≤ (R + n - 1) / 16 → ∃ g, Claims.mapped s P h p = some g ∧ Claims.count s P (Claims.poolNo s P h) g ≤ 1 ∧
      Claims.Inside P (Claims.countAt s P (Claims.poolNo s P h) g) 2 ∧ Claims.countAt s P (Claims.poolNo s P h) g % 2 = 0) →
    ∃ t, exec (.sqres d x y) s = .next t ∧ t.st = ((s.writeX d (BitVec.ofNat 64 R)).retire 4).st ∧
      Claims.resLen t P h = R + n ∧ Claims.cmtLen t P h = Claims.cmtLen s P h ∧
      Claims.OutsideSame s t P [Claims.descRange s h, Claims.mapRange s P h])

/-- SQCMT (R141), after its release: the slots are committed and CMTLEN grows over every committed slot that follows it; a count
of 0 changes nothing; a range that is not between CMTLEN and RESLEN traps with cause 0x05 and the handle. -/
def Sys2Proof.Claims.VineCommit : Prop := ∀ (s : State) (P : TlbEntry) (c : WideScope) (x y : XReg) (b : Nat),
  let h := (s.readX x).toNat % 2 ^ 32
  let a := (s.readX y).toNat % 2 ^ 32
  let n := (s.readX y).toNat / 2 ^ 32
  let R := Claims.resLen s P h
  let C := Claims.cmtLen s P h

  Claims.VineSpace s P → Claims.Canonical s → Claims.OpenVine s P h b → Claims.Apart [Claims.descRange s h, Claims.mapRange s P h] →
  Claims.ReleasedAt s (wideScope c) → C ≤ R → R ≤ C + 4096 →
  (n = 0 → C ≤ a → a ≤ R → ∃ t, exec (.sqcmt c x y) s = .next t ∧ Claims.SameMem s t ∧ t.st = (s.retire 4).st) ∧
  (a < C ∨ R < a + n → ∃ t, exec (.sqcmt c x y) s = .next t ∧ Claims.SameMem s t ∧
    t.st = (enterTrap 0x05 (BitVec.ofNat 64 h) s.st.pc s.st.csr.vstart s).st) ∧
  (0 < n → C ≤ a → a + n ≤ R → (∀ k, k < n → Claims.committed s P h (a + k) = false) →
    ∃ t, exec (.sqcmt c x y) s = .next t ∧ t.st = (s.retire 4).st ∧ Claims.resLen t P h = R ∧
      C ≤ Claims.cmtLen t P h ∧ Claims.cmtLen t P h ≤ R ∧
      (∀ j, C ≤ j → j < Claims.cmtLen t P h → Claims.nowCommitted s P h a n j) ∧
      (Claims.cmtLen t P h < R → ¬ Claims.nowCommitted s P h a n (Claims.cmtLen t P h)) ∧
      (∀ j, Claims.cmtLen t P h ≤ j → j < R → (Claims.committed t P h j = true ↔ Claims.nowCommitted s P h a n j)) ∧
      Claims.OutsideSame s t P [Claims.descRange s h, Claims.mapRange s P h])

/-- SQOPEN (R138): 1 for a vine that is not FREE, 2 for a pool that is none, and 0 for a fresh OPEN vine of the pool, empty and
without a parent. SQFORK (R144): 1 for a child that is not FREE, or whose handle is no handle of the context (DEDUCED, log 41), 2 above the commit length, and 0 for a child OPEN at length L that
shares the first L tokens. -/
def Sys2Proof.Claims.VineOpenFork : Prop := ∀ (s : State) (P : TlbEntry) (d x y : XReg) (b : Nat),
  let h := (s.readX x).toNat % 2 ^ 32
  let L := (s.readX y).toNat % 2 ^ 32
  let k := (s.readX y).toNat / 2 ^ 32
  Claims.VineSpace s P → Claims.Canonical s → Claims.IsVine s P h →
  (Claims.vineStateOf s P h ≠ 0 → ∃ t, exec (.sqopen d x y) s = .next t ∧ Claims.SameMem s t ∧ t.st = ((s.writeX d 1).retire 4).st) ∧
  (Claims.vineStateOf s P h = 0 → ctxVtCount s s.st.ctx ≤ L → ∃ t, exec (.sqopen d x y) s = .next t ∧ Claims.SameMem s t ∧
    t.st = ((s.writeX d 2).retire 4).st) ∧
  (Claims.vineStateOf s P h = 0 → Claims.IsPool s P L b → ∃ t, exec (.sqopen d x y) s = .next t ∧ t.st = ((s.writeX d 0).retire 4).st ∧
    Claims.vineStateOf t P h = 1 ∧ Claims.resLen t P h = 0 ∧ Claims.cmtLen t P h = 0 ∧ Claims.poolNo t P h = L ∧
    Claims.mapLen t P h = Claims.mapLen s P h ∧ Claims.overlay t P h = Claims.overlay s P h ∧
    Claims.vineWord t P h 1 = 0xFFFFFFFF * 2 ^ 32 ∧ Claims.OutsideSame s t P [Claims.descRange s h]) ∧
  (Claims.OpenVine s P h b → Claims.ReleasedAt s .dv → Claims.vineWord s P h 4 / 2 ^ 16 % 8 < 4 → Claims.vineWord s P h 4 / 2 ^ 48 < 0xFFFF →
    (ctxVtCount s s.st.ctx ≤ k ∨ (Claims.IsVine s P k ∧ Claims.vineStateOf s P k ≠ 0) → ∃ t, exec (.sqfork d x y) s = .next t ∧
      Claims.SameMem s t ∧ t.st = ((s.writeX d 1).retire 4).st) ∧
    (Claims.IsVine s P k → Claims.vineStateOf s P k = 0 → Claims.cmtLen s P h < L → ∃ t, exec (.sqfork d x y) s = .next t ∧
      Claims.SameMem s t ∧ t.st = ((s.writeX d 2).retire 4).st) ∧
    (Claims.IsVine s P k → Claims.vineStateOf s P k = 0 → L ≤ Claims.cmtLen s P h → L % 16 = 0 → L ≤ 16384 →
      (∀ p, p < L / 16 → ∃ g, Claims.Resolves s P 5 h (16 * p) g ∧ Claims.Inside P (Claims.countAt s P (Claims.poolNo s P h) g) 2 ∧
        Claims.countAt s P (Claims.poolNo s P h) g % 2 = 0 ∧
        Claims.Apart [Claims.descRange s h, Claims.descRange s k, Claims.descRange s (Claims.poolNo s P h), Claims.mapRange s P h,
          (Claims.countAt s P (Claims.poolNo s P h) g, 2)] ∧
        ∀ a, Claims.IsVine s P a → Claims.Apart [Claims.descRange s a, Claims.mapRange s P a, (Claims.countAt s P (Claims.poolNo s P h) g, 2)]) →
      Claims.Apart [Claims.descRange s h, Claims.descRange s k] →
      ∃ t, exec (.sqfork d x y) s = .next t ∧ t.st = ((s.writeX d 0).retire 4).st ∧
        Claims.vineStateOf t P k = 1 ∧ Claims.resLen t P k = L ∧ Claims.cmtLen t P k = L ∧ Claims.poolNo t P k = Claims.poolNo s P h ∧
        Claims.vineWord t P k 1 = (if L = 0 then 0xFFFFFFFF else h) * 2 ^ 32 + L ∧
        Claims.resLen t P h = Claims.resLen s P h ∧ Claims.cmtLen t P h = Claims.cmtLen s P h ∧
        Claims.vineWord t P h 4 / 2 ^ 48 = Claims.vineWord s P h 4 / 2 ^ 48 + (if L = 0 then 0 else 1)))

/-- SQTRIM (R153) gives up the reserved tokens above the highest committed slot and its operand, and answers the new RESLEN; it
changes nothing where RESLEN is no higher. SQDROP (R154) of an OPEN vine without pages, children or parent makes it FREE. -/
def Sys2Proof.Claims.VineTrimDrop : Prop := ∀ (s : State) (P : TlbEntry) (d x y : XReg) (b : Nat),
  let h := (s.readX x).toNat % 2 ^ 32
  let n := (s.readX y).toNat % 2 ^ 32
  let C := Claims.cmtLen s P h
  let R := Claims.resLen s P h
  Claims.VineSpace s P → Claims.Canonical s → Claims.OpenVine s P h b → s.waitRel = [] → C ≤ R → R ≤ C + 4096 →
  Claims.Apart [Claims.descRange s h, Claims.mapRange s P h] →
  (R ≤ n → ∃ t, exec (.sqtrim d x y) s = .next t ∧ Claims.SameMem s t ∧ t.st = ((s.writeX d (BitVec.ofNat 64 R)).retire 4).st) ∧
  (∀ new, n ≤ new → C ≤ new → new < R → (∀ j, new ≤ j → j < R → Claims.committed s P h j = false) →
    (new = n ∨ new = C ∨ (0 < new ∧ Claims.committed s P h (new - 1) = true)) → Claims.mapLen s P h ≤ 512 →
    (∀ q, (new + 15) / 16 ≤ q → Claims.mapped s P h q = none) →
    ∃ t, exec (.sqtrim d x y) s = .next t ∧ t.st = ((s.writeX d (BitVec.ofNat 64 new)).retire 4).st ∧
      Claims.resLen t P h = new ∧ Claims.cmtLen t P h = C ∧ Claims.OutsideSame s t P [Claims.descRange s h, Claims.mapRange s P h]) ∧
  (Claims.ReleasedAt s .dv → Claims.mapLen s P h = 0 → Claims.vineWord s P h 4 / 2 ^ 48 = 0 → Claims.vineWord s P h 1 / 2 ^ 32 = 0xFFFFFFFF →
    Claims.Inside P (ctxRelq s s.st.ctx) (64 + 32 * 65536) →
    Claims.Apart [Claims.descRange s h, Claims.mapRange s P h, (ctxRelq s s.st.ctx, 64 + 32 * 65536)] →
    ∃ t, exec (.sqdrop x) s = .next t ∧ t.st = (s.retire 4).st ∧ Claims.vineStateOf t P h = 0)

end

namespace Sys2Proof.Claims
open Sys2Proof.Machine

/-! ## The vector side (chapter 17) -/

/-- A vector-queue instruction that nothing stands before: the strand runs with an empty VIQ, its core has no copy command and is to
meet no parity failure, no register of the strand holds an error, and the instruction carries no chain bit (R54, R55, R131, R371). -/
structure Ready (s : State) (i : Instr) : Prop where
  viq   : s.st.viq = []
  park  : s.st.park = 0
  pace  : s.lag = false
  idle  : (getCore s (curCore s)).commands = []
  chain : chainBit i = false
  short : s.st.csr.vl.toNat ≤ 16384
  none_ : s.st.await = 0
  sound : (getCore s (curCore s)).upsets = []
  clean : s.st.bad = []

/-- `vstart` and `vl`. -/
def lo (s : State) : Nat := s.st.csr.vstart.toNat
def vl (s : State) : Nat := s.st.csr.vl.toNat

/-- What the active elements from `vstart` to `vl` - 1 produce; an element is inactive under `.m` where its bit of m0 is 0 (R262). -/
def strip (s : State) (m : Bool) (out : Nat → Out) : List (Option Out) :=
  (List.range (vl s - lo s)).map fun k =>
    if m = true ∧ s.st.m[0].getLsbD (lo s + k) = false then none else some (out (lo s + k))

/-- The elements are written to vd, its `vdirty` bit is set, their flags are added, and the strand is charged (R28, R53, R74). -/
def write (s : State) (d : VReg) (b w : Nat) (os : List (Option Out)) (S : State) : State :=
  charge (commitFlags (markDirty (setReg S d (writeOuts S.st.v[d.val] b (lo s) os)) d) os) w (lo s) (vl s)

/-- Nothing is done where `vstart` has reached `vl`. -/
def unlessDone (s : State) (f : State → State) : State → State := if vl s ≤ lo s then id else f

/-- The second operand of format V (R286): its type, the raw bits of element k, and what reading it consumes. A ring gives the
elements in the order of its bytes, where all of them have arrived, fit in one strip and hold no error (R158, R371). -/
def second (s : State) (ta : Elem) (wide : Nat) (b : VSrc) : Option (Elem × (Nat → Nat) × (State → State)) :=
  match b with
  | .vv r => (elemType s r).map fun t => (t, fun k => elemAt s r t.bytes k, id)
  | .vx x => some (ta, fun _ => (s.readX x).toNat % 2 ^ ta.width, id)
  | .vi k => some (ta, fun _ => immBits ta k.toInt, id)
  | .vs n =>
    let r := s.st.streams[n.val]
    (elemOf r.tag).bind fun t =>
      let need := (vl s - lo s) * t.bytes
      let per := 1024 * laneGroups (getCore s (curCore s)) / max wide t.width
      if r.kind = 1 ∧ t.width ≤ maxWidth s ∧ need ≤ (r.arrived - r.consumed).toNat ∧
          vl s ≤ (lo s / per + 8) * per ∧
          ((List.range need).all fun q => ! poisonedIn s (ringAddr (curCore s) r (r.consumed.toNat + q) / 8 * 8) 8) = true then
        some (t,
          fun k => bytesToNat ((List.range t.bytes).map fun q =>
            memByte s.mem (ringAddr (curCore s) r (r.consumed.toNat + (k - lo s) * t.bytes + q))),
          fun S => putStream S n { r with consumed := r.consumed + BitVec.ofNat 64 need })
      else none

/-- An integer function of Table 17.4 at width w, of A, B and D, and a floating-point one before rounding. -/
abbrev IntFn := Nat → Int → Int → Int → Int
abbrev FltFn := Machine.Num → Machine.Num → Machine.Num → Machine.Num × Flags

/-- The low w bits of an integer, unsigned and signed. -/
def un (w : Nat) (x : Int) : Nat := (BitVec.ofInt w x).toNat
def sg (w : Nat) (x : Int) : Int := (BitVec.ofInt w x).toInt

/-- Table 17.4: `.m`, vd, va, the second operand and the meanings of the two-operand forms. -/
def arith (i : Instr) : Option (Bool × VReg × VReg × VSrc × IntFn × Option FltFn) :=
  match i with
  | .vadd _ m d a b => some (m, d, a, b, fun _ x y _ => x + y, some fun x y _ => addNum false x y)
  | .vsub _ m d a b => some (m, d, a, b, fun _ x y _ => x - y, some fun x y _ => addNum false x y.flip)
  | .vrsub _ m d a b => some (m, d, a, b, fun _ x y _ => y - x, some fun x y _ => addNum false y x.flip)
  | .vmul _ m d a b => some (m, d, a, b, fun _ x y _ => x * y, some fun x y _ => mulNum x y)
  | .vmulh _ m d a b => some (m, d, a, b, fun w x y _ => (x * y).fdiv (2 ^ w), none)
  | .vdiv _ m d a b => some (m, d, a, b, fun _ x y _ => if y = 0 then -1 else x.tdiv y, some fun x y _ => divNum x y)
  | .vrem _ m d a b => some (m, d, a, b, fun _ x y _ => if y = 0 then x else x - y * x.tdiv y, none)
  | .vmin _ m d a b => some (m, d, a, b, fun _ x y _ => if x ≤ y then x else y, some fun x y _ => minMaxNum false x y)
  | .vmax _ m d a b => some (m, d, a, b, fun _ x y _ => if x ≤ y then y else x, some fun x y _ => minMaxNum true x y)
  | .vand _ m d a b => some (m, d, a, b, fun w x y _ => ((BitVec.ofInt w x &&& BitVec.ofInt w y).toNat : Int), none)
  | .vor _ m d a b => some (m, d, a, b, fun w x y _ => ((BitVec.ofInt w x ||| BitVec.ofInt w y).toNat : Int), none)
  | .vxor _ m d a b => some (m, d, a, b, fun w x y _ => ((BitVec.ofInt w x ^^^ BitVec.ofInt w y).toNat : Int), none)
  | .vsll _ m d a b => some (m, d, a, b, fun w x y _ => ((BitVec.ofInt w x <<< (un w y % w)).toNat : Int), none)
  | .vsrl _ m d a b => some (m, d, a, b, fun w x y _ => ((BitVec.ofInt w x >>> (un w y % w)).toNat : Int), none)
  | .vsra _ m d a b => some (m, d, a, b, fun w x y _ => ((BitVec.ofInt w x).sshiftRight (un w y % w)).toInt, none)
  | .vfma _ m d a b => some (m, d, a, b, fun _ x y z => z + x * y, some fun x y z => fmaNum false x y z)
  | .vfnma _ m d a b => some (m, d, a, b, fun _ x y z => z - x * y, some fun x y z => fmaNum false x.flip y z)
  | _ => none

/-- An element read in the format F: its exact value where that is its own format or a NaN, else rounded to F nearest-even
(R291). -/
def into (F ta : Elem) (c : Nat) : Machine.Num × Flags :=
  let v := decodeElem ta c
  match F with
  | .flt f =>
    let e := encodeFloat f .ne v
    if ta = F ∨ v.isNan = true then (v, 0) else (decodeFloat f e.1, e.2)
  | _ => (v, 0)

/-- One element in the result format F (R291): operands converted to F, the operation, one rounding; integers wrap. -/
def result (F ta tb : Elem) (fi : IntFn) (ff : Option FltFn) (x y z : Nat) : Out :=
  match F, ff with
  | .flt f, some g =>
    let p := into F ta x
    let q := into F tb y
    let r := g p.1 q.1 (decodeFloat f z)
    let c := encodeFloat f .ne r.1
    { val := c.1, flags := p.2 ||| q.2 ||| r.2 ||| c.2 }
  | _, _ => { val := un F.width (fi F.width (toFormat F ta x) (toFormat F tb y) (toFormat F F z)) }

/-- What a form of Table 17.4 does, where its types are as R291 and R287 require. -/
def arithEffect (s : State) (i : Instr) : Option (State → State) := do
  let (m, d, a, b, fi, ff) ← arith i
  let td ← elemType s d
  let ta ← elemType s a
  let (tb, y, take) ← second s ta (max td.width ta.width) b
  let F ← mixed ta tb
  if td = F ∧ ((td.width = ta.width ∧ td.width = tb.width) ∨ (d ≠ a ∧ b ≠ .vv d)) ∧ (F.isInt = true ∨ ff.isSome = true) then
    some (unlessDone s fun S => take (write s d td.bytes (max td.width (max ta.width tb.width))
      (strip s m fun k => result F ta tb fi ff (elemAt s a ta.bytes k) (y k) (elemAt s d td.bytes k)) S))
  else none

/-- VABS, VNEG (Table 17.4) and VSEL (R292). -/
def unaryEffect (s : State) (i : Instr) : Option (State → State) :=
  let unary (m : Bool) (d a : VReg) (fi : Int → Int) (ff : Machine.Num → Machine.Num) : Option (State → State) := do
    let td ← elemType s d
    let ta ← elemType s a
    if td = ta ∧ (td.isInt = true ∨ td.isBinary = true) then
      some (unlessDone s (write s d td.bytes td.width (strip s m fun k =>
        let c := elemAt s a td.bytes k
        match td with
        | .flt f =>
          let x := decodeFloat f c
          if x.isNan = true then { val := f.nan, flags := if x = .nan true then 16 else 0 }
          else { val := (encodeFloat f .ne (ff x)).1 }
        | t => { val := un t.width (fi (intOf t c)) })))
    else none
  match i with
  | .vabs _ m d a => unary m d a (fun x => if x < 0 then -x else x) Machine.Num.mag
  | .vneg _ m d a => unary m d a (fun x => -x) Machine.Num.flip
  | .vsel _ d a b => do
    let td ← elemType s d
    let ta ← elemType s a
    let (tb, y, take) ← second s ta (max td.width ta.width) b
    if ta.width = td.width ∧ tb.width = td.width then
      some (unlessDone s fun S => take (write s d td.bytes td.width
        (strip s false fun k => { val := if s.st.m[0].getLsbD k then elemAt s a ta.bytes k else y k }) S))
    else none
  | _ => none

/-- An integer clamped to width w, and whether it was (R25). -/
def clamp (w : Nat) (signed_ : Bool) (x : Int) : Int × Bool :=
  let lo : Int := if signed_ then -(2 ^ (w - 1)) else 0
  let hi : Int := if signed_ then 2 ^ (w - 1) - 1 else 2 ^ w - 1
  if x < lo then (lo, true) else if hi < x then (hi, true) else (x, false)

/-- Table 17.5: a form's checks on the types of va, B and vd, its mask, and one element from the operands' types and bits. -/
def fixed (s : State) (i : Instr) : Option (Bool × VReg × VReg × VSrc × Option MReg × (Elem → Elem → Elem → Bool) ×
    (Elem → Elem → Elem → Nat → Nat → Nat → Nat → Out)) :=
  let same (x y z : Elem) : Bool := decide (x = y) && decide (y = z)
  let sat (t : Elem) (v : Int) : Out :=
    let r := clamp t.width t.isSigned v
    { val := un t.width r.1, sat := r.2 }
  match i with
  | .vaddc q _ m d a b => some (m, d, a, b, some q, same, fun t _ _ k x y _ =>
      let v := x + y + (if s.st.m[q.val].getLsbD k then 1 else 0)
      { val := v % 2 ^ t.width, bit := decide (2 ^ t.width ≤ v) })
  | .vsubb q _ m d a b => some (m, d, a, b, some q, same, fun t _ _ k x y _ =>
      let v : Int := (x : Int) - y - (if s.st.m[q.val].getLsbD k then 1 else 0)
      { val := un t.width v, bit := decide (v < 0) })
  | .vmadw _ m d a b => some (m, d, a, b, none,
      (fun x y z => decide (x.width = y.width ∧ x.width ≤ 32 ∧ z.width = 2 * x.width) && z.isSigned == (x.isSigned || y.isSigned)),
      fun x y z _ p q r => { val := un z.width (r + intOf x p * intOf y q) })
  | .vnshr _ m d a b => some (m, d, a, b, none, (fun x _ z => decide (x.width = 2 * z.width)),
      fun x _ z _ p q _ =>
        let n := (match b with | .vi k => k.toNat | _ => q) % x.width
        sat z (narrowInt s.st.csr.vrnd.toNat (intOf x p) n))
  | .vsadd _ m d a b => some (m, d, a, b, none, same, fun x y z _ p q _ => sat z (intOf x p + intOf y q))
  | .vssub _ m d a b => some (m, d, a, b, none, same, fun x y z _ p q _ => sat z (intOf x p - intOf y q))
  | .vavg _ m d a b => some (m, d, a, b, none, same, fun x y z _ p q _ =>
      { val := un z.width (narrowInt s.st.csr.vrnd.toNat (intOf x p + intOf y q) 1) })
  | _ => none

/-- What a fixed-point form does: also the mask of carries or borrows, for VADDC and VSUBB (R293 to R295). -/
def fixedEffect (s : State) (i : Instr) : Option (State → State) := do
  let (m, d, a, b, q, ok, f) ← fixed s i
  let td ← elemType s d
  let ta ← elemType s a
  let (tb, y, take) ← second s ta (max td.width ta.width) b
  if td.isInt = true ∧ ta.isInt = true ∧ tb.isInt = true ∧ ok ta tb td = true ∧ (td.width = ta.width ∨ (d ≠ a ∧ b ≠ .vv d)) then
    let os := strip s m fun k => f ta tb td k (elemAt s a ta.bytes k) (y k) (elemAt s d td.bytes k)
    some (unlessDone s fun S =>
      let S := match q with
        | some q => setMask S q (writeBits S.st.m[q.val] (lo s) os)
        | none => S
      take (write s d td.bytes (max td.width (max ta.width tb.width)) os S))
  else none

/-- A special function of one element: rounded once, or for 16 bits first to f32 and then to the format, NX from either rounding, OF
and UF from the final result (R301). -/
def special (f : FloatFmt) (fn : Machine.Num → Machine.Num × Flags) (x : Nat) : Out :=
  let v := fn (decodeFloat f x)
  if f.w = 16 then
    let a := encodeFloat fmtF32 .ne v.1
    let r := encodeFloat f .ne (decodeFloat fmtF32 a.1)
    let nx : Flags := (a.2 ||| r.2) &&& 1
    let last : Flags := match v.1, decodeFloat f r.1 with
      | .fin _ _ _, .inf _ => 5
      | .fin _ _ _, .fin _ _ _ => if nx ≠ 0 ∧ r.1 % 2 ^ (f.w - 1) < 2 ^ (f.p - 1) then 2 else 0
      | _, _ => 0
    { val := r.1, flags := v.2 ||| r.2 ||| nx ||| last }
  else
    let r := encodeFloat f .ne v.1
    { val := r.1, flags := v.2 ||| r.2 }

/-- R301 and R308: the special functions of one element. -/
def specialEffect (s : State) (i : Instr) : Option (State → State) :=
  let form (m : Bool) (d a : VReg) (wide : Bool) (fn : Machine.Num → Machine.Num × Flags) : Option (State → State) := do
    let td ← elemType s d
    let ta ← elemType s a
    match ta with
    | .flt f =>
      if td = ta ∧ f.q8 = false ∧ (wide = true ∨ f.w < 64) then
        some (unlessDone s (write s d td.bytes td.width (strip s m fun k => special f fn (elemAt s a td.bytes k))))
      else none
    | _ => none
  match i with
  | .vrcp _ m d a => form m d a true (fun x => divNum (.fin false 1 0) x)
  | .vrsq _ m d a => form m d a false rsqFn
  | .vsqrt _ m d a => form m d a true sqrtNum
  | .vexp2 _ m d a => form m d a false exp2Fn
  | .vlog2 _ m d a => form m d a false log2Fn
  | .vtanh _ m d a => form m d a false tanhFn
  | .vexpm _ m d a b => do
    let td ← elemType s d
    let ta ← elemType s a
    if td = .flt fmtF32 ∧ ta = .flt fmtF32 then
      some (unlessDone s (write s d 4 32 (strip s m fun k =>
        let u := addNum false (decodeFloat fmtF32 (elemAt s a 4 k)) (decodeFloat fmtF32 (s.readX b).toNat).flip
        let c := encodeFloat fmtF32 .ne u.1
        let e := expFn (decodeFloat fmtF32 c.1)
        let r := encodeFloat fmtF32 .ne e.1
        { val := r.1, flags := u.2 ||| c.2 ||| e.2 ||| r.2 })))
    else none
  | _ => none

end Sys2Proof.Claims

section
open Sys2Proof Sys2Proof.Machine

/-- The two-operand arithmetic forms (Table 17.4) with every kind of second operand and mixed tags: every active element from
`vstart` on takes its result, the flags are added, the stream's elements are consumed, `vstart` becomes 0, and nothing else
changes but the pc and the counts. -/
def Obligations.VectorArithmetic : Prop := ∀ (s : State) (i : Instr) (f : State → State),
  Claims.Ready s i → Claims.arithEffect s i = some f → exec i s = .next (setVstart (f (s.retire 4)) 0)

/-- VABS, VNEG and VSEL, likewise (R292). -/
def Sys2Proof.Claims.VectorUnarySelect : Prop := ∀ (s : State) (i : Instr) (f : State → State),
  Claims.Ready s i → Claims.unaryEffect s i = some f → exec i s = .next (setVstart (f (s.retire 4)) 0)

/-- The fixed-point forms (Table 17.5): carries and borrows in a mask, double-width products, narrowing under `vrnd`, saturation
with `vsat` (R293 to R295). -/
def Sys2Proof.Claims.VectorFixedPoint : Prop := ∀ (s : State) (i : Instr) (f : State → State),
  Claims.Ready s i → Claims.fixedEffect s i = some f → exec i s = .next (setVstart (f (s.retire 4)) 0)

/-- The special functions and VEXPM (R301, R308). -/
def Sys2Proof.Claims.VectorSpecial : Prop := ∀ (s : State) (i : Instr) (f : State → State),
  Claims.Ready s i → Claims.specialEffect s i = some f → exec i s = .next (setVstart (f (s.retire 4)) 0)

/-- What a strip's commit leaves (R285): each written element reads as its result, every other element of the register and every
other register is as before. -/
def Obligations.ElementsWritten : Prop := ∀ (s : State) (d r : VReg) (b lo : Nat) (os : List (Option Out)) (k : Nat),
  0 < b → (∀ r : VReg, sparseWf (0 : Byte) s.st.v[r.val].data = true) →
  (∀ o, some o ∈ os → o.val < 256 ^ b) →
  let t := setReg s d (writeOuts s.st.v[d.val] b lo os)
  (r ≠ d → t.st.v[r.val] = s.st.v[r.val]) ∧
  (elemAt t d b k = match (if lo ≤ k then os.getD (k - lo) none else none) with
    | some o => o.val
    | none => elemAt s d b k) ∧
  t.st.v[d.val].tag = s.st.v[d.val].tag ∧ t = { s with st := { s.st with v := t.st.v } }

end

namespace Sys2Proof.Claims
open Sys2Proof.Machine

/-- Bits 0 to n - 1 of a mask. -/
def low (n : Nat) : Mask := BitVec.ofNat 16384 (2 ^ n - 1)

/-- VCMP (R296). -/
def compareEffect (s : State) (i : Instr) : Option (State → State) :=
  match i with
  | .vcmp q m d a b => do
    let ta ← elemType s a
    let (tb, y, take) ← second s ta ta.width b
    let F ← mixed ta tb
    let os := strip s m fun k =>
      match F with
      | .flt _ =>
        let p := into F ta (elemAt s a ta.bytes k)
        let r := into F tb (y k)
        let nan := p.1.isNan || r.1.isNan
        let less := ltNum false p.1 r.1
        let more := ltNum false r.1 p.1
        let bit := match q with
          | .eq => ! nan && ! less && ! more
          | .ne => nan || less || more
          | .lt => ! nan && less
          | .le => ! nan && ! more
          | .gt => ! nan && more
          | .ge => ! nan && ! less
        let nv : Flags := match q with
          | .eq | .ne => if p.1 = .nan true ∨ r.1 = .nan true then 16 else 0
          | _ => if nan then 16 else 0
        { val := 0, bit := bit, flags := p.2 ||| r.2 ||| nv }
      | _ =>
        let x := toFormat F ta (elemAt s a ta.bytes k)
        let z := toFormat F tb (y k)
        { val := 0, bit := match q with | .eq => decide (x = z) | .ne => decide (x ≠ z) | .lt => decide (x < z) | .le => decide (x ≤ z) | .gt => decide (x > z) | .ge => decide (x ≥ z) }
    some (unlessDone s fun S =>
      take (charge (commitFlags (setMask S d (writeBits S.st.m[d.val] (lo s) os)) os) (max ta.width tb.width) (lo s) (vl s)))
  | _ => none

/-- The mask forms of R296: bits below `vl` take the value, the others stay. -/
def maskEffect (s : State) (i : Instr) : Option (State → State) :=
  let m (r : MReg) : Mask := s.st.m[r.val]
  let put (d : MReg) (v : Mask) : Option (State → State) :=
    if configured s = true then
      some fun S => charge (setMask S d ((v &&& low (vl s)) ||| (m d &&& ~~~ low (vl s)))) 1 0 (vl s)
    else none
  match i with
  | .mand d a b => put d (m a &&& m b)
  | .mor d a b => put d (m a ||| m b)
  | .mxor d a b => put d (m a ^^^ m b)
  | .mandn d a b => put d (m a &&& ~~~ m b)
  | .mnot d a => put d (~~~ m a)
  | .mslide d a k =>
    let cin : Mask := BitVec.ofNat 16384 (k.val % 2)
    put d (if k.val < 2 then (m a <<< 1) ||| cin else ((m a &&& low (vl s)) >>> 1) ||| (cin <<< (vl s - 1)))
  | .mset d k => put d (if k then BitVec.allOnes 16384 else 0)
  | .mmvMask d a => put d (m a)
  | .mmvToVector d a =>
    if elemType s d = some (.int 8 false) then
      let n := (vl s + 7) / 8
      some fun S => charge (if n = 0 then S else
        markDirty (setReg S d (writeOuts S.st.v[d.val] 1 0 ((List.range n).map fun j => some { val := (m a).toNat / 256 ^ j % 256 }))) d) 1 0 (vl s)
    else none
  | .mmvFromVector d a =>
    if elemType s a = some (.int 8 false) then
      let n := (vl s + 7) / 8
      put d (BitVec.ofNat 16384 ((List.range n).foldl (fun v j => v + elemAt s a 1 j * 256 ^ j) 0))
    else none
  | _ => none

/-- Raw elements written to vd, w bits of each passing through the lanes (R298, R74). -/
def raw (s : State) (m : Bool) (d : VReg) (t : Elem) (w : Nat) (f : Nat → Nat) : Option (State → State) :=
  some (unlessDone s fun S =>
    charge (markDirty (setReg S d (writeOuts S.st.v[d.val] t.bytes (lo s) (strip s m fun k => { val := f k }))) d) w (lo s) (vl s))

/-- VSLIDE, VPERM, VCOMP, VIOTA, VMV and VMVI (R298). -/
def permuteEffect (s : State) (i : Instr) : Option (State → State) :=
  match i with
  | .vslide m d a b => do
    let t ← elemType s d
    let ta ← elemType s a
    let k : Int := match b with | .vx x => (s.readX x).toInt | .vi k => k.toInt
    if t.width = ta.width ∧ d ≠ a then
      raw s m d t t.width fun j => if 0 ≤ (j : Int) - k ∧ (j : Int) - k < vl s then elemAt s a t.bytes ((j : Int) - k).toNat else 0
    else none
  | .vperm m d a b => do
    let t ← elemType s d
    let ta ← elemType s a
    let tb ← elemType s b
    if t.width = ta.width ∧ tb.isInt = true ∧ d ≠ a ∧ d ≠ b then
      raw s m d t (max t.width tb.width) fun j => if elemAt s b tb.bytes j < vl s then elemAt s a t.bytes (elemAt s b tb.bytes j) else 0
    else none
  | .vcomp d a => do
    let t ← elemType s d
    let ta ← elemType s a
    if t.width = ta.width ∧ d ≠ a then
      some fun S => charge (if vl s = 0 then S else
        markDirty (setReg S d (writeOuts S.st.v[d.val] t.bytes 0
          (((List.range (vl s)).filter fun k => s.st.m[0].getLsbD k).map fun k => some { val := elemAt s a t.bytes k }))) d) t.width 0 (vl s)
    else none
  | .viota m d a => do
    let t ← elemType s d
    if t.isInt = true then raw s m d t t.width fun j => ((List.range j).filter fun k => s.st.m[a.val].getLsbD k).length else none
  | .vmv m d b => do
    let t ← elemType s d
    match b with
    | .vv a => do
      let ta ← elemType s a
      if t.width = ta.width then raw s m d t t.width fun j => elemAt s a t.bytes j else none
    | .vx x => raw s m d t t.width fun _ => (s.readX x).toNat % 2 ^ t.width
    | .vi k => raw s m d t t.width fun _ => un t.width k.toInt
  | .vmvi d b a => do
    let t ← elemType s d
    let j := (s.readX a).toNat
    some fun S => charge (if j < vl s then markDirty (setReg S d (writeElem S.st.v[d.val] t.bytes j (s.readX b).toNat)) d else S) t.width 0 (min 1 (vl s))
  | _ => none

/-- The tree of R42: at level n, the 2^n elements of block k combine pairwise, an absent one leaving the other. -/
def combine (op : Nat → Nat → Nat × Flags) (leaf : Nat → Option Nat) : Nat → Nat → Option Nat × Flags
  | 0, k => (leaf k, 0)
  | n + 1, k =>
    let a := combine op leaf n (2 * k)
    let b := combine op leaf n (2 * k + 1)
    match a.1, b.1 with
    | some x, some y => (some (op x y).1, a.2 ||| b.2 ||| (op x y).2)
    | some x, none => (some x, a.2 ||| b.2)
    | none, y => (y, a.2 ||| b.2)

/-- One floating-point combination, rounded nearest-even, and its identity (R42, R299). -/
def floatOp (f : FloatFmt) (o : RedOp) (x y : Nat) : Nat × Flags :=
  let r := match o with
    | .sum => addNum false (decodeFloat f x) (decodeFloat f y)
    | .max => minMaxNum true (decodeFloat f x) (decodeFloat f y)
    | _ => minMaxNum false (decodeFloat f x) (decodeFloat f y)
  ((encodeFloat f .ne r.1).1, r.2 ||| (encodeFloat f .ne r.1).2)
def floatUnit (f : FloatFmt) (o : RedOp) : Nat :=
  (encodeFloat f .ne (match o with | .sum => .fin true 0 0 | .max => .inf true | _ => .inf false)).1

/-- VRED into a vector register, VSEGRED and VSCAN (R42, R43, R299, R300). -/
def reduceEffect (s : State) (i : Instr) : Option (State → State) :=
  let seg (m : Bool) (o : RedOp) (d a : VReg) (b : XReg) : Option (State → State) := do
    let t ← elemType s a
    let L := (s.readX b).toNat % 2 ^ 15
    if elemType s d = some t ∧ redOk t o = true ∧ d ≠ a ∧ 1 ≤ L ∧ L ≤ 16384 then
      some fun S => charge (if vl s = 0 then S else
        let os := (List.range ((vl s + L - 1) / L)).map fun k =>
          let r := reduce s t o m (fun q => elemAt s a t.bytes q) (k * L) (min (k * L + L) (vl s))
          some { val := r.1, flags := r.2 : Out }
        commitFlags (markDirty (setReg S d (writeOuts S.st.v[d.val] t.bytes 0 os)) d) os) t.width 0 (vl s)
    else none
  match i with
  | .vred m false o d a => do
    let t ← elemType s a
    if elemType s d = some t ∧ redOk t o = true then
      let r := reduce s t o m (fun q => elemAt s a t.bytes q) 0 (vl s)
      some fun S => charge (State.raise (markDirty (setReg S d (writeElem S.st.v[d.val] t.bytes 0 r.1)) d) r.2) t.width 0 (vl s)
    else none
  | .vsegredSum m d a b => seg m .sum d a b
  | .vsegredMax m d a b => seg m .max d a b
  | .vsegredMin m d a b => seg m .min d a b
  | .vscan m d a => do
    let t ← elemType s a
    if elemType s d = some t ∧ redOk t .sum = true ∧ d ≠ a then
      let p := if lo s = 0 then redUnit t .sum else elemAt s d t.bytes (lo s - 1)
      some (unlessDone s (write s d t.bytes t.width (scanOuts s t m (fun q => elemAt s a t.bytes q) (vl s - lo s) (lo s) p)))
    else none
  | _ => none

/-- A value times the block scale k: 2^(k - 127), and NaN at 255 (R32). -/
def scaled (v : Machine.Num) (k : Nat) : Machine.Num :=
  if k = 255 then .nan false else match v with
    | .fin n m e => .fin n m (e + (k : Int) - 127)
    | v => v

/-- A value written by VCVT: an integer into an integer is clamped; anything else is rounded, into a scaled q8 operand after a
division by its scale; a NaN raises NV (R302, R303). -/
def narrowed (td : Elem) (mode : Mode) (dst : Option Nat) (whole : Option Int) (v : Machine.Num) : Out :=
  match td, whole with
  | .int w sg, some x =>
    let r := clamp w sg x
    { val := un w r.1, sat := r.2 }
  | .int w sg, none =>
    let r := encodeInt w sg mode v
    { val := un w r.1, flags := r.2 }
  | .flt f, _ =>
    let v := match dst with
      | some 255 => .nan false
      | some k => scaled v (254 - k)
      | none => v
    let r := encodeFloat f mode v
    { val := r.1, flags := r.2 ||| (if v.isNan then 16 else 0) }
  | .e8, _ => { val := 0 }

/-- The source value of a conversion, multiplied by its scale where it is a scaled q8 operand. -/
def source (ta : Elem) (src : Option Nat) (x : Nat) : Machine.Num :=
  match src with
  | some k => scaled (decodeElem ta x) k
  | none => decodeElem ta x

/-- One element of VCVT: the mode of its modifier, stochastic by the element's index; the source value is offered to `amax` (R38,
R41, R302). -/
def convert (ta td : Elem) (r : CvtMode) (src dst : Option Nat) (k x : Nat) : Out :=
  let v := source ta src x
  let mode : Mode := match r with
    | .ne | .ef => .ne
    | .z => .tz
    | .sr => .sr (grain k)
  let o := narrowed td mode dst (if ta.isInt then some (intOf ta x) else none) v
  { o with amax := v, flags := o.flags ||| (if v.isNan then 16 else 0) }

/-- One element under error feedback (R39), and the residual after it. -/
def feedback (ta td : Elem) (src dst : Option Nat) (c : Word32) (x : Nat) : Out :=
  let v := source ta src x
  let t := addNum false v (decodeFloat fmtF32 c.toNat)
  let sc := encodeFloat fmtF32 .ne t.1
  let w := decodeFloat fmtF32 sc.1
  let o := narrowed td .ne dst none w
  let y := source td dst o.val
  let lost := w.isNan || w.isInf || y.isNan || y.isInf || decide ((o.flags &&& 4) ≠ 0)
  { o with
    amax := v
    flags := t.2 ||| sc.2 ||| o.flags ||| (if v.isNan then 16 else 0)
    carry := some (if lost then 0 else BitVec.ofNat 32 (encodeFloat fmtF32 .ne (addNum false w y.flip).1).1) }

/-- The elements of an error-feedback conversion in order; an inactive one passes the residual on (R39). -/
def chain (s : State) (m : Bool) (f : Word32 → Nat → Out) : List Nat → Word32 → List (Option Out)
  | [], _ => []
  | k :: ks, c =>
    if m = true ∧ s.st.m[0].getLsbD k = false then none :: chain s m f ks c
    else some (f c k) :: chain s m f ks ((f c k).carry.getD c)

/-- The scale byte of a block (R33): 255 with a NaN, 127 when all is zero or infinite, else the smallest s, 254 at most, with
M × 2^(127 - s) no larger than the largest finite value. -/
def scaleByte (f : FloatFmt) (vs : List Machine.Num) : Nat :=
  let fits (s : Nat) : Bool := vs.all fun v => v.isInf || ! ltNum false (decodeFloat f f.max) (scaled v.mag (254 - s))
  if vs.any Machine.Num.isNan then 255
  else if vs.all fun v => v.isZero || v.isInf then 127
  else ((List.range 255).find? fits).getD 254

/-- VCVT in its two forms, VAMAX and VSCALE (R302 to R305). The block scales of a scaled form lie in v7. -/
def convertEffect (s : State) (i : Instr) : Option (State → State) :=
  let cvt (r : CvtMode) (scaled m : Bool) (d a : VReg) : Option (State → State) := do
    let td ← elemType s d
    let ta ← elemType s a
    let at7 (q : Bool) (k : Nat) : Option Nat := if scaled && q then some (elemAt s 7 1 (k / 8)) else none
    if td ≠ .e8 ∧ ta ≠ .e8 ∧ (d ≠ a ∨ td.width = ta.width) ∧ (td.isInt = false ∨ r = .ne ∨ r = .z) ∧
        (scaled = true → td.isQ8 ≠ ta.isQ8 ∧ elemType s 7 = some .e8 ∧ d ≠ 7 ∧ a ≠ 7 ∧ vl s ≤ 8 * regBytes s) then
      some (unlessDone s (write s d td.bytes (max td.width ta.width)
        (if r = .ef then chain s m (fun c k => feedback ta td (at7 ta.isQ8 k) (at7 td.isQ8 k) c (elemAt s a ta.bytes k))
           ((List.range (vl s - lo s)).map (lo s + ·)) s.st.csr.vcarry
         else strip s m fun k => convert ta td r (at7 ta.isQ8 k) (at7 td.isQ8 k) k (elemAt s a ta.bytes k))))
    else none
  match i with
  | .vcvt r _ m d a => cvt r false m d a
  | .vcvtScaled r _ m d a => cvt r true m d a
  | .vamax m a => do
    let t ← elemType s a
    if t.isBinary = true ∨ t.isQ8 = true then
      some (unlessDone s fun S => charge (commitFlags S (strip s m fun k =>
        let v := decodeElem t (elemAt s a t.bytes k)
        { val := 0, amax := v, flags := if v.isNan then 16 else 0 })) t.width (lo s) (vl s))
    else none
  | .vscale m f d a => do
    let ta ← elemType s a
    match elemOf (BitVec.ofNat 6 (0x10 + f.toNat)) with
    | some (.flt q) =>
      if elemType s d = some .e8 ∧ ta.isBinary = true then
        some (unlessDone s fun S =>
          let os := (List.range ((vl s + 7) / 8 - lo s / 8)).map fun j =>
            let vs := (((List.range 8).map fun t => 8 * (lo s / 8 + j) + t).filter fun k =>
              decide (k < vl s ∧ (m = true → s.st.m[0].getLsbD k = true))).map fun k => decodeElem ta (elemAt s a ta.bytes k)
            if vs = [] then none else some { val := scaleByte q vs, flags := if vs.any Machine.Num.isNan then 16 else 0 : Out }
          charge (commitFlags (markDirty (setReg S d (writeOuts S.st.v[d.val] 1 (lo s / 8) os)) d) os) ta.width (lo s) (vl s))
      else none
    | _ => none
  | _ => none

/-- VSCORE and VACCP (R307): windowed dot products of the segments of va and of the register after it. -/
def attentionEffect (s : State) (i : Instr) : Option (State → State) :=
  let score (acc m : Bool) (d a : VReg) (b : XReg) : Option (State → State) :=
    if h : a.val + 1 < 32 then do
      let a1 : VReg := ⟨a.val + 1, h⟩
      let td ← elemType s d
      let ta ← elemType s a
      let tb ← elemType s a1
      let v := (s.readX b).toNat
      let L := v % 2 ^ 16
      let o : Int := (BitVec.ofNat 32 (v / 2 ^ 16)).toInt
      match ta with
      | .flt f =>
        if ta = tb ∧ f.q8 = false ∧ f.w < 64 ∧ td = .flt fmtF32 ∧ d ≠ a ∧ d ≠ a1 ∧ 1 ≤ L ∧ L ≤ 16384 ∧ v / 2 ^ 48 = 0 ∧ 0 < vl s ∧ vl s % L = 0 then
          let n := vl s / L
          some fun S =>
            let os := (List.range (n - lo s)).map fun q =>
              let k := lo s + q
              let j := (k : Int) + o
              if m = true ∧ s.st.m[0].getLsbD k = false then none
              else if 0 ≤ j ∧ j < n then
                let t := segmentDot f (fun q => elemAt s a ta.bytes (k * L + q)) (fun q => elemAt s a1 ta.bytes (j.toNat * L + q)) L
                if acc then
                  let c := redStep (.flt fmtF32) .sum (elemAt s d 4 k) t.1
                  some { val := c.1, flags := t.2 ||| c.2 : Out }
                else some { val := t.1, flags := t.2 : Out }
              else if acc then none
              else some { val := 0xFF800000 : Out }
            charge (commitFlags (markDirty (setReg S d (writeOuts S.st.v[d.val] 4 (lo s) os)) d) os) (max ta.width 32) (lo s * L) (vl s)
        else none
      | _ => none
    else none
  match i with
  | .vscore m d a b => score false m d a b
  | .vaccp m d a b => score true m d a b
  | _ => none

/-- `vstart` after a form of the scalar side that works on vector state. -/
def rest (s : State) : State := setVstart s 0

end Sys2Proof.Claims

section
open Sys2Proof Sys2Proof.Machine

/-- VCMP and the mask forms: bits of a mask register (R296, R297). -/
def Sys2Proof.Claims.VectorCompareMasks : Prop := ∀ (s : State) (i : Instr) (f : State → State),

  Claims.Ready s i → Claims.compareEffect s i = some f ∨ Claims.maskEffect s i = some f → exec i s = .next (setVstart (f (s.retire 4)) 0)

/-- VSLIDE, VPERM, VCOMP, VIOTA, VMV and VMVI (R298). -/
def Sys2Proof.Claims.VectorPermute : Prop := ∀ (s : State) (i : Instr) (f : State → State),
  Claims.Ready s i → Claims.permuteEffect s i = some f → exec i s = .next (setVstart (f (s.retire 4)) 0)

/-- VRED into a vector register, VSEGRED and VSCAN (R299, R300). -/
def Sys2Proof.Claims.VectorReduce : Prop := ∀ (s : State) (i : Instr) (f : State → State),
  Claims.Ready s i → Claims.reduceEffect s i = some f → exec i s = .next (setVstart (f (s.retire 4)) 0)

/-- The pairwise tree of R42 on elements of any format, with its identity and flags. On integers: sum, maximum, minimum and the
bitwise operations of the active elements from `vstart` on, with the identity where there is none; no flag. -/
def Sys2Proof.Claims.IntegerReductions : Prop := ∀ (s : State) (w : Nat) (sg m : Bool) (read : Nat → Nat) (a b : Nat), 0 < w →
  (∀ k, read k < 2 ^ w) →
  let t : Elem := .int w sg
  (∀ (t : BitVec 6) (f : FloatFmt) (o : RedOp) (n : Nat), elemOf t = some (.flt f) → (o = .sum ∨ o = .max ∨ o = .min) → b - a ≤ 2 ^ n →
    let r := Claims.combine (Claims.floatOp f o)
      (fun k => if k < b - a ∧ active s m (a + k) = true ∧ vstart s ≤ a + k then some (read (a + k)) else none) n 0
    reduce s (.flt f) o m read a b = (r.1.getD (Claims.floatUnit f o), r.2)) ∧
  let xs := ((List.range (b - a)).filter fun k => active s m (a + k) && decide (vstart s ≤ a + k)).map fun k => read (a + k)
  reduce s t .sum m read a b = (Claims.un w ((xs.map (intOf t)).foldl (· + ·) 0), 0) ∧
  reduce s t .max m read a b = (Claims.un w ((xs.map (intOf t)).foldl max (if sg then -(2 ^ (w - 1)) else 0)), 0) ∧
  reduce s t .min m read a b = (Claims.un w ((xs.map (intOf t)).foldl min (if sg then 2 ^ (w - 1) - 1 else 2 ^ w - 1)), 0) ∧
  reduce s t .and m read a b = (xs.foldl (· &&& ·) (2 ^ w - 1), 0) ∧
  reduce s t .or m read a b = (xs.foldl (· ||| ·) 0, 0) ∧
  reduce s t .xor m read a b = (xs.foldl (· ^^^ ·) 0, 0)

/-- VCVT, its scaled form, VAMAX and VSCALE (R302 to R305), and VSCORE and VACCP (R307). -/
def Sys2Proof.Claims.VectorConvertScore : Prop := ∀ (s : State) (i : Instr) (f : State → State),
  Claims.Ready s i → Claims.convertEffect s i = some f ∨ Claims.attentionEffect s i = some f →
  exec i s = .next (setVstart (f (s.retire 4)) 0)

/-- VCFG, VSETVL, VTAG and VTAGRD (R288 to R290): the grant with cleared registers, the length clamped to `vlmax`, and tags that
change no data. A grant's registers are whole element groups, fit the units, and hold `vlmax` elements. -/
def Sys2Proof.Claims.VectorConfig : Prop := ∀ (s : State) (d a : XReg) (t : BitVec 6) (n1 : Fin 32) (v : VReg),
  let w := s.readX a
  let g := grant w (laneGroups (getCore s (curCore s))) (unitsAvail s s.cur.val)
  (s.st.viq = [] → exec (.vcfg d a) s = .next ((State.writeX
    { s with st := { dropVectors s.st with csr := { (dropVectors s.st).csr with vcfg := g.1, vl := BitVec.ofNat 64 g.2.1, vlmax := BitVec.ofNat 64 g.2.2 } } }
    d (BitVec.ofNat 64 g.2.2)).retire 4)) ∧
  (g.1.getLsbD 63 = false → unitsAvail s s.cur.val ≤ 16 →
    let U := g.1.toNat / 2 ^ 16 % 2 ^ 5
    let R := g.1.toNat / 2 ^ 4 % 2 ^ 12 * 128
    let e := laneGroups (getCore s (curCore s))
    let b := 2 ^ (w.toNat / 2 ^ 18 % 4)
    U ≤ unitsAvail s s.cur.val ∧ 8 * 2 ^ (w.toNat / 2 ^ 16 % 4) * R ≤ 8192 * U ∧ R % (128 * e) = 0 ∧ g.2.2 = min (R / b) 16384 ∧
      g.2.1 = (if w.toNat % 2 ^ 15 = 0 then g.2.2 else min (w.toNat % 2 ^ 15) g.2.2)) ∧
  (let len := if configured s = false then 0 else if w.toNat ≤ s.st.csr.vlmax.toNat then w else s.st.csr.vlmax
   exec (.vsetvl d a) s = .next ((State.writeX { s with st := { s.st with csr := { s.st.csr with vl := len } } } d len).retire 4)) ∧
  (s.st.viq = [] → configured s = true → v.val < regCount s → exec (.vtagrd d v) s = .next ((s.writeX d ((s.st.v[v.val].tag).zeroExtend 64)).retire 4)) ∧
  (Claims.Ready s (.vtag t n1 v) → configured s = true → v.val + n1.val < regCount s → v.val + n1.val < 32 →
    (t = 0 ∨ ∃ e, elemOf t = some e ∧ e.width ≤ maxWidth s) →
    ∃ u, exec (.vtag t n1 v) s = .next u ∧
      (∀ r : Fin 32, u.st.v[r.val] = if v.val ≤ r.val ∧ r.val ≤ v.val + n1.val then { s.st.v[r.val] with tag := t } else s.st.v[r.val]) ∧
      u = { setVstart (s.retire 4) 0 with st := { (setVstart (s.retire 4) 0).st with v := u.st.v } })

/-- The forms that read vector state into scalar registers, with an empty VIQ: VMVX, MPOP, MFIRST, VRED and SSOFT (R297 to R299,
R309). -/
def Sys2Proof.Claims.VectorToScalar : Prop := ∀ (s : State) (m : Bool) (o : RedOp) (d : XReg) (a : VReg) (b : XISrc) (k : MReg) (xb : XReg) (t : Elem),
  let vl := s.st.csr.vl.toNat
  let set := (List.range vl).filter fun j => s.st.m[k.val].getLsbD j && (! m || s.st.m[0].getLsbD j)
  let j := match b with | .vx r => (s.readX r).toNat | .vi c => c.toNat
  let toX (c : Nat) : Word := if t.isSigned then (BitVec.ofNat t.width c).signExtend 64 else BitVec.ofNat 64 c
  s.st.viq = [] →
  (elemType s a = some t →
    exec (.vmvx d a b) s = .next ((s.writeX d (if j < vl then toX (elemAt s a t.bytes j) else 0)).retire 4)) ∧
  (configured s = true → vl ≤ 16384 → exec (.mpop m d k) s = .next ((State.writeX (setVstart s 0) d (BitVec.ofNat 64 set.length)).retire 4)) ∧
  (configured s = true → vl ≤ 16384 → exec (.mfirst m d k) s = .next ((State.writeX (setVstart s 0) d
    (match set with | [] => BitVec.allOnes 64 | x :: _ => BitVec.ofNat 64 x)).retire 4)) ∧
  (elemType s a = some t → redOk t o = true →
    exec (.vred m true o d a) s =
      .next ((State.writeX (State.raise (setVstart s 0) (reduce s t o m (fun q => elemAt s a t.bytes q) 0 vl).2) d
        (toX (reduce s t o m (fun q => elemAt s a t.bytes q) 0 vl).1)).retire 4)) ∧
  (elemType s a = some (.flt fmtF32) →
    let r := softStep (decodeFloat fmtF32 (s.readX xb).toNat) (decodeFloat fmtF32 (s.readX (xb + 1)).toNat)
      ((List.range vl).map fun q => if s.st.csr.vstart.toNat ≤ q then some (decodeFloat fmtF32 (elemAt s a 4 q)) else none)
    exec (.ssoft d xb a) s = .next ((((((State.raise (setVstart s 0) r.2).writeX (xb + 1) r.1.2.2).writeX xb r.1.2.1).writeX d r.1.1)).retire 4))

end

namespace Sys2Proof.Claims
open Sys2Proof.Machine

/-! ## Vector memory (R315 to R323) -/

/-- The focused strand's accesses go to one page of one memory that its core's TLB holds, readable and writable; nothing is
cached in the core, held or in error, no strand watches memory, and the slices have room for n more lines. -/
structure MemSpace (s : State) (P : TlbEntry) (n : Nat) : Prop where
  coreTlb : (getCore s (curCore s)).tlb = [P]
  cold    : (getCore s (curCore s)).l1 = []
  ctx     : P.ctx = s.st.ctx
  allowed : P.r = true ∧ P.w = true ∧ P.p = false ∧ P.moving = false ∧ P.tier ≠ 3
  place   : P.base + P.size ≤ Config.gddrEnd ∨ (Config.cellarBase ≤ P.base ∧ P.base + P.size ≤ Config.cellarEnd)
    ∨ (Config.spadBase ≤ P.base ∧ P.base + P.size ≤ Config.spadEnd)
  whole   : P.base % P.size = 0 ∧ P.vpage % P.size = 0 ∧ P.vpage + P.size ≤ 2 ^ 48
  sound   : P.poison = false ∧ s.lines.rdcBad = [] ∧ s.poison = [] ∧ ∀ v ∈ s.lines.vat, v.2.poison = false
  up      : ∀ d : Fin 4, s.daleel.dies[d.val] = .up
  room    : s.lines.vat.length + n ≤ Config.vatEntries ∧ s.lines.tags.length + n ≤ Config.l2Tags
  noLog   : NoLog s
  quiet   : s.watches = []

/-- A memory form of the vector side: `.m`, the data registers in field order, the element bytes and the address of field f of
element k (R315 to R318). -/
structure Form where
  m    : Bool
  regs : List VReg
  b    : Nat
  addr : Nat → Nat → VAddr
  iw   : Nat := 0

/-- The bits an element passes through the lanes: its fields, or its index where that is wider (R74). -/
def Form.width (F : Form) : Nat := max (8 * F.b * F.regs.length) F.iw

/-- The width of an index register's elements. -/
def indexWidth (s : State) (x : VReg) : Nat := match elemType s x with | some t => t.width | none => 0

/-- The address of a displacement from a register. -/
def from_ (x : Word) (d : Int) : VAddr := (x + BitVec.ofInt 64 d).truncate 48

/-- The registers of a segment form, of one width, below the declared count. -/
def segment (s : State) (n : Fin 8) (d : VReg) : Option (List VReg × Nat) := do
  let t ← elemType s d
  if h : d.val + n.val < 32 then
    let rs : List VReg := (List.finRange (n.val + 1)).map fun f => ⟨d.val + f.val, by omega⟩
    if rs.all (fun r => (elemType s r).any fun u => u.width == t.width) = true then some (rs, t.bytes) else none
  else none

/-- An index register: an integer tag, and not the data register. -/
def index (s : State) (v x : VReg) (base : Word) (b : Nat) : Option (Nat → VAddr) := do
  let t ← elemType s x
  if t.isInt = true ∧ x ≠ v then some fun k => from_ base (intOf t (elemAt s x t.bytes k) * b) else none

/-- The loads. -/
def loadForm (s : State) (i : Instr) : Option Form :=
  match i with
  | .vld m _ d b => do
    let t ← elemType s d
    some ⟨m, [d], t.bytes, fun k _ => from_ (s.readX b) (k * t.bytes), 0⟩
  | .vldStrided m _ d b st => do
    let t ← elemType s d
    some ⟨m, [d], t.bytes, fun k _ => from_ (s.readX b) (k * (s.readX st).toInt), 0⟩
  | .vldseg n m _ d b st => do
    let (rs, w) ← segment s n d
    let stride : Int := if st = 0 then (n.val + 1) * w else (s.readX st).toInt
    some ⟨m, rs, w, fun k f => from_ (s.readX b) (k * stride + f * w), 0⟩
  | .vldx m _ d b x => do
    let t ← elemType s d
    let at_ ← index s d x (s.readX b) t.bytes
    some ⟨m, [d], t.bytes, fun k _ => at_ k, indexWidth s x⟩
  | _ => none

/-- The stores. -/
def storeForm (s : State) (i : Instr) : Option Form :=
  match i with
  | .vst m _ v b => do
    let t ← elemType s v
    some ⟨m, [v], t.bytes, fun k _ => from_ (s.readX b) (k * t.bytes), 0⟩
  | .vstStrided m _ v b st => do
    let t ← elemType s v
    some ⟨m, [v], t.bytes, fun k _ => from_ (s.readX b) (k * (s.readX st).toInt), 0⟩
  | .vstseg n m _ v b st => do
    let (rs, w) ← segment s n v
    let stride : Int := if st = 0 then (n.val + 1) * w else (s.readX st).toInt
    some ⟨m, rs, w, fun k f => from_ (s.readX b) (k * stride + f * w), 0⟩
  | .vstxU m _ v b x | .vstxO m _ v b x => do
    let t ← elemType s v
    let at_ ← index s v x (s.readX b) t.bytes
    some ⟨m, [v], t.bytes, fun k _ => at_ k, indexWidth s x⟩
  | _ => none

/-- The active (element, field) pairs of a form, in order. -/
def pairs (s : State) (F : Form) : List (Nat × Nat) :=
  ((List.range (vl s - lo s)).map (lo s + ·)).flatMap fun k =>
    if F.m = true ∧ s.st.m[0].getLsbD k = false then [] else (List.range F.regs.length).map fun f => (k, f)

/-- The key of a pair's location in memory. -/
def keyOf (P : TlbEntry) (F : Form) (p : Nat × Nat) : Nat := P.base + ((F.addr p.1 p.2).toNat - P.vpage)

/-- Every active element lies in the page, naturally aligned. -/
def Within (s : State) (P : TlbEntry) (F : Form) : Prop :=
  ∀ p ∈ pairs s F, Inside P (F.addr p.1 p.2).toNat F.b ∧ (F.addr p.1 p.2).toNat % F.b = 0

/-- The value of a pair in its register. -/
def valueOf (s : State) (F : Form) (p : Nat × Nat) : Nat :=
  match F.regs[p.2]? with
  | some r => elemAt s r F.b p.1
  | none => 0

/-- What a load leaves of a strand S: the active elements written, the registers marked, the charge. -/
def loadedIn (s : State) (P : TlbEntry) (F : Form) (S : State) : State :=
  if vl s ≤ lo s then setVstart S 0
  else
    let S := F.regs.foldl markDirty S
    let S := F.regs.zipIdx.foldl (fun S r => setReg S r.1 (writeOuts S.st.v[r.1.val] F.b (lo s)
      (strip s F.m fun k => { val := number s (keyOf P F (k, r.2)) F.b }))) S
    setVstart (charge S F.width (lo s) (vl s)) 0

def loaded (s : State) (P : TlbEntry) (F : Form) : State := loadedIn s P F (s.retire 4)

/-- What a store leaves of a strand S. -/
def chargedIn (s : State) (F : Form) (S : State) : State :=
  if vl s ≤ lo s then setVstart S 0 else setVstart (charge S F.width (lo s) (vl s)) 0
def charged (s : State) (F : Form) : State := chargedIn s F (s.retire 4)

/-- The last active pair that covers byte a. -/
def lastAt (s : State) (P : TlbEntry) (F : Form) (a : Nat) : Option (Nat × Nat) :=
  ((pairs s F).filter fun p => decide (keyOf P F p ≤ a ∧ a < keyOf P F p + F.b)).getLast?

/-- The element type of an apply phase (R319, R320), with its form. -/
def phaseForm (s : State) (i : Instr) : Option (Elem × Form) :=
  match i with
  | .vscadd m _ v b x | .vamo _ _ _ m _ v b x => do
    let t ← elemType s v
    let at_ ← index s v x (s.readX b) t.bytes
    if t.isInt = true ∨ t.isBinary = true then some (t, ⟨m, [v], t.bytes, fun k _ => at_ k, indexWidth s x⟩) else none
  | _ => none

/-- No two active elements name one location. -/
def Distinct (s : State) (P : TlbEntry) (F : Form) : Prop := ((pairs s F).map (keyOf P F)).Nodup

/-- The flags of a phase. -/
def phaseFlags (s : State) (P : TlbEntry) (F : Form) (f : Nat → Nat → Nat × Flags) : Flags :=
  (pairs s F).foldl (fun g p => g ||| (f (number s (keyOf P F p) F.b) (valueOf s F p)).2) 0

/-- An apply phase of a function on old and operand: memory after it. -/
def Applied (s t : State) (P : TlbEntry) (F : Form) (f : Nat → Nat → Nat × Flags) : Prop :=
  ∀ a, memByte t.mem a = match lastAt s P F a with
    | some p => byteOf (f (number s (keyOf P F p) F.b) (valueOf s F p)).1 (a - keyOf P F p)
    | none => memByte s.mem a

/-- The sum of two elements: rounded to nearest even, or wrapped (R323). -/
def sumOf (t : Elem) (x y : Nat) : Nat × Flags :=
  match t with
  | .flt f =>
    let u := addNum false (decodeFloat f x) (decodeFloat f y)
    let c := encodeFloat f .ne u.1
    (c.1, u.2 ||| c.2)
  | t => (un t.width (intOf t x + intOf t y), 0)

/-- What VAMO stores (R320), from the old value x and the operand y. -/
def vamoResult (t : Elem) (o : VamoOp) (x y : Nat) : Nat × Flags :=
  match o, t with
  | .swap, _ => (y, 0)
  | .add, t => sumOf t x y
  | .min, .flt f =>
    let u := minMaxNum false (decodeFloat f x) (decodeFloat f y)
    ((encodeFloat f .ne u.1).1, u.2)
  | .max, .flt f =>
    let u := minMaxNum true (decodeFloat f x) (decodeFloat f y)
    ((encodeFloat f .ne u.1).1, u.2)
  | .min, t => (if intOf t x ≤ intOf t y then x else y, 0)
  | .max, t => (if intOf t x ≤ intOf t y then y else x, 0)

/-- +0, -0 or integer 0. -/
def isNull (t : Elem) (c : Nat) : Bool :=
  match t with
  | .flt f => decide (c % 2 ^ (f.w - 1) = 0)
  | _ => decide (c = 0)

/-- The loop of R323 from p and q on: what each pass puts out, if anything, and its flags. -/
def merged (ti tv : Elem) (kz : Bool) (na nb : Nat) (ia xa ib xb : Nat → Nat) : Nat → Nat → Nat → List (Option (Nat × Nat) × Flags)
  | 0, _, _ => []
  | n + 1, p, q =>
    if na ≤ p ∧ nb ≤ q then []
    else if nb ≤ q ∨ (p < na ∧ intOf ti (ia p) < intOf ti (ib q)) then (some (ia p, xa p), 0) :: merged ti tv kz na nb ia xa ib xb n (p + 1) q
    else if na ≤ p ∨ intOf ti (ib q) < intOf ti (ia p) then (some (ib q, xb q), 0) :: merged ti tv kz na nb ia xa ib xb n p (q + 1)
    else
      let r := sumOf tv (xa p) (xb q)
      (if kz || ! isNull tv r.1 then some (ia p, r.1) else none, r.2) :: merged ti tv kz na nb ia xa ib xb n (p + 1) (q + 1)

end Sys2Proof.Claims

section
open Sys2Proof Sys2Proof.Machine

/-- The vector loads (R315 to R318): every active element from `vstart` on takes the bytes at its address, `vstart` becomes 0, and
no byte of memory and nothing else of the strand changes. -/
def Obligations.VectorLoads : Prop := ∀ (s : State) (P : TlbEntry) (i : Instr) (F : Claims.Form),
  Claims.Ready s i → Claims.Canonical s → Claims.loadForm s i = some F → Claims.MemSpace s P 0 → Claims.Within s P F →
  ∃ t, exec i s = .next t ∧ t.st = (Claims.loaded s P F).st ∧ Claims.SameMem s t

/-- The vector stores (R315 to R318, R227): a byte that active elements cover holds the last one's value, for VSTX.U that of any
one element of the location; every other byte of memory is as before, and of the strand only `vstart`, pc and counts change.
Which element a VSTX.U keeps is free (log 8). -/
def Obligations.VectorStores : Prop := ∀ (s : State) (P : TlbEntry) (i : Instr) (F : Claims.Form),

  Claims.Ready s i → Claims.Canonical s → Claims.storeForm s i = some F → Claims.MemSpace s P (Claims.vl s * F.regs.length + 8) → Claims.Within s P F →
  ∃ t, exec i s = .next t ∧ t.st = (Claims.charged s F).st ∧
    (∀ a, Claims.lastAt s P F a = none → memByte t.mem a = memByte s.mem a) ∧
    (∀ p ∈ Claims.pairs s F, ∃ q ∈ Claims.pairs s F, Claims.keyOf P F q = Claims.keyOf P F p ∧
      ((∀ m g v b x, i ≠ .vstxU m g v b x) → Claims.lastAt s P F (Claims.keyOf P F p) = some q) ∧
      ∀ k, k < F.b → memByte t.mem (Claims.keyOf P F p + k) = Claims.byteOf (Claims.valueOf s F q) k)

/-- VSCADD and VAMO on distinct locations (R319, R320): each location takes the old value combined with its element as Table R320
says (swapped, added, the smaller, the larger); VAMO writes the old values to vd; a release waits at the VIQ's head while a SIGNAL
of the strand, or at `.sy` a write to a peer or the host, is out (R217); an acquire empties the core's L1. -/
def Obligations.VectorAtomics : Prop := ∀ (s : State) (P : TlbEntry) (i : Instr) (t : Elem) (F : Claims.Form),

  Claims.Ready s i → Claims.Canonical s → Claims.phaseForm s i = some (t, F) → Claims.MemSpace s P (Claims.vl s + 8) → Claims.Within s P F →
  Claims.Distinct s P F → Claims.lo s < Claims.vl s →
  match i with
  | .vscadd _ _ v _ _ => ∃ u, exec i s = .next u ∧ Claims.Applied s u P F (Claims.sumOf t) ∧
      u.st = (setVstart (charge (State.raise (s.retire 4) (Claims.phaseFlags s P F (Claims.sumOf t))) F.width (Claims.lo s) (Claims.vl s)) 0).st ∧ F.regs = [v]
  | .vamo o x r _ _ d _ _ =>
    let releases := r = some .rel ∨ r = some .ar
    (releases → Claims.StillOut s (Claims.ordScope x) → ∃ u, exec i s = .next u ∧ Claims.SameMem s u ∧ u.st.v = s.st.v ∧
      u.st.viq.length = 1 ∧ u.st.pc = s.st.pc + 4) ∧
    ((releases → ¬ Claims.StillOut s (Claims.ordScope x)) → ∃ u, exec i s = .next u ∧ Claims.Applied s u P F (Claims.vamoResult t o) ∧
      u.st = (setVstart (charge (State.raise (setReg (markDirty (s.retire 4) d) d (writeOuts s.st.v[d.val] F.b (Claims.lo s)
        (Claims.strip s F.m fun k => { val := Claims.number s (Claims.keyOf P F (k, 0)) F.b }))) (Claims.phaseFlags s P F (Claims.vamoResult t o)))
          F.width (Claims.lo s) (Claims.vl s)) 0).st ∧
      (r = some .acq ∨ r = some .ar → (getCore u (curCore u)).l1 = []))
  | _ => False

/-- VWAIT (R322) completes with x[b + 1] := 0 where every active element holds, and else parks with reason 0x3, in the VIQ.
How vstart and the limit go on is read from the rules (log 31). -/
def Sys2Proof.Claims.VectorWait : Prop := ∀ (s : State) (P : TlbEntry) (x : WideScope) (q : WaitCond) (m : Bool) (g : Lane4) (v : VReg) (b : XReg)
    (ix : VReg) (t : Elem) (at_ : Nat → VAddr),
  let F : Claims.Form := ⟨m, [v], t.bytes, fun k _ => at_ k, Claims.indexWidth s ix⟩
  let holds (p : Nat × Nat) : Prop :=
    let a := intOf t (Claims.number s (Claims.keyOf P F p) t.bytes)
    let c := intOf t (Claims.valueOf s F p)
    match q with | .eq => a = c | .ne => a ≠ c | .ge => a ≥ c | .lt => a < c

  Claims.Ready s (.vwait x q m g v b ix) → b.val ≤ 30 → Claims.Canonical s → elemType s v = some t → t.isInt = true → Claims.index s v ix (s.readX b) t.bytes = some at_ →
  Claims.MemSpace s P 0 → Claims.Within s P F →
  ((∀ p ∈ Claims.pairs s F, holds p) → ∃ u, exec (.vwait x q m g v b ix) s = .next u ∧ Claims.SameMem s u ∧ (getCore u (curCore u)).l1 = [] ∧
    u.st = (State.writeX (setVstart (charge (s.retire 4) (max t.width (Claims.indexWidth s ix)) (Claims.lo s) (Claims.vl s)) 0) (b + 1) 0).st) ∧
  ((∃ p ∈ Claims.pairs s F, ¬ holds p) → ∃ u, exec (.vwait x q m g v b ix) s = .next u ∧ Claims.SameMem s u ∧ u.st.park = 3 ∧ u.st.x = s.st.x ∧ u.st.v = s.st.v ∧
    u.st.pc = s.st.pc + 4 ∧ u.st.viq.length = 1)

/-- VMERGEU (R323) completes: the sorted union of two sorted lists of (index, value), equal indices added, in vd and the register after it,
with its length in x[n]. -/
def Sys2Proof.Claims.VectorMerge : Prop := ∀ (s : State) (kz : Bool) (d : VReg) (n : XReg) (a : VReg) (ti tv : Elem) (hd : d.val + 1 < 32) (ha : a.val + 3 < 32),
  let r (v : VReg) (k : Nat) (h : v.val + k < 32) : VReg := ⟨v.val + k, h⟩
  let a1 := r a 1 (by omega)
  let a2 := r a 2 (by omega)
  let a3 := r a 3 ha
  let d1 := r d 1 hd
  let na := (s.readX n).toNat % 2 ^ 16
  let nb := (s.readX n).toNat / 2 ^ 16 % 2 ^ 16
  Claims.Ready s (.vmergeu kz d n a) →
  elemType s a = some ti → elemType s a1 = some tv → elemType s a2 = some ti → elemType s a3 = some tv → elemType s d = some ti →
  elemType s d1 = some tv → ti.isInt = true → (tv.isInt = true ∨ tv.isBinary = true) → (s.readX n).toNat / 2 ^ 32 = 0 →
  na + nb ≤ s.st.csr.vlmax.toNat → (d.val + 1 < a.val ∨ a.val + 3 < d.val) →
  let u := Claims.merged ti tv kz na nb (elemAt s a ti.bytes) (elemAt s a1 tv.bytes) (elemAt s a2 ti.bytes) (elemAt s a3 tv.bytes) (na + nb) 0 0
  let out := u.filterMap (·.1)
  ∃ S, exec (.vmergeu kz d n a) s = .next S ∧ out.length ≤ na + nb ∧
    S.st.v = ((s.st.v.set d.val (writeOuts s.st.v[d.val] ti.bytes 0 (out.map fun p => some { val := p.1 }))).set d1.val
      (writeOuts s.st.v[d1.val] tv.bytes 0 (out.map fun p => some { val := p.2 }))) ∧
    (n ≠ 0 → S.readX n = BitVec.ofNat 64 out.length) ∧ (∀ k, k ≠ n → S.readX k = s.readX k) ∧
    S.st.csr.fexc = s.st.csr.fexc ||| u.foldl (fun g p => g ||| p.2) 0 ∧ S.st.csr.vstart = 0 ∧ S.st.pc = s.st.pc + 4 ∧ S.mem = s.mem ∧ S.st.m = s.st.m

/-- The vector vine forms on one active element (R151, R152, R326): VSQRES writes the reserved token, VSQST and VSQST.X store to a
token, VSQCMT commits a slot, VSQLD and VSQLD.X load a committed token and set its bit of m0, or clear it above CMTLEN. -/
def Obligations.VectorVines : Prop := ∀ (s : State) (P : TlbEntry) (i : Instr) (g : Lane4) (d hv iv : VReg) (xh xi : XReg) (c : WideScope)
    (b tok h o pg : Nat) (t th ti : Elem) (k : Nat),

  Claims.Ready s i → Claims.VineSpace s P → Claims.Canonical s → Claims.OpenVine s P h b → Claims.lo s = k → Claims.vl s = k + 1 →
  elemType s d = some t → elemType s hv = some th → th.isInt = true → 32 ≤ th.width → elemType s iv = some ti → ti.isInt = true →
  elemAt s hv th.bytes k % 2 ^ 32 = h → Claims.Apart [Claims.descRange s h, Claims.mapRange s P h] →
  let va := Claims.tokenAt s P h b pg tok o
  let fits := Claims.mapped s P h (tok / 16) = some pg ∧ o + t.bytes ≤ b ∧ va % t.bytes = 0 ∧ Claims.Inside P va t.bytes
  let wide := match i with | .vsqstX _ _ _ _ _ | .vsqldX _ _ _ _ _ => max t.width 64 | _ => t.width
  let named := ti.width = 64 ∧ elemAt s iv 8 k % 2 ^ 32 = tok ∧ elemAt s iv 8 k / 2 ^ 32 % 2 ^ 16 = o
  let plain := (s.readX xh).toNat % 2 ^ 32 = h ∧
    ((s.readX xi).toNat / 2 ^ 32 % 2 ^ 16 + k * t.bytes) % b = o ∧
    (s.readX xi).toNat % 2 ^ 32 + ((s.readX xi).toNat / 2 ^ 32 % 2 ^ 16 + k * t.bytes) / b = tok
  (i = .vsqres false g d hv → t.isSigned = false → t.isInt = true → 32 ≤ t.width → Claims.resLen s P h + 1 < 2 ^ 32 →
    Claims.resLen s P h + 1 - Claims.cmtLen s P h ≤ 4096 →
    Claims.mapped s P h (Claims.resLen s P h / 16) = some pg → Claims.count s P (Claims.poolNo s P h) pg ≤ 1 →
    Claims.Inside P (Claims.countAt s P (Claims.poolNo s P h) pg) 2 → Claims.countAt s P (Claims.poolNo s P h) pg % 2 = 0 →
    ∃ u, exec i s = .next u ∧ Claims.resLen u P h = Claims.resLen s P h + 1 ∧
      u.st = (setVstart (charge (setElem (markDirty (s.retire 4) d) d t.bytes k (Claims.resLen s P h)) (max t.width th.width) k (k + 1)) 0).st) ∧
  ((i = .vsqst false g d xh xi ∧ plain) ∨ (i = .vsqstX false g d hv iv ∧ named) → fits → Claims.cmtLen s P h ≤ tok →
    tok < Claims.resLen s P h → Claims.committed s P h tok = false →
    ∃ u, exec i s = .next u ∧ Claims.Stored s u (P.base + (va - P.vpage)) t.bytes (elemAt s d t.bytes k) ∧
      u.st = (setVstart (charge (s.retire 4) wide k (k + 1)) 0).st) ∧
  (i = .vsqcmt c false g hv iv → 32 ≤ ti.width → elemAt s iv ti.bytes k % 2 ^ 32 = tok → ¬ Claims.StillOut s (Claims.ordScope c) →
    Claims.cmtLen s P h ≤ tok → tok < Claims.resLen s P h → Claims.resLen s P h ≤ Claims.cmtLen s P h + 4096 → Claims.committed s P h tok = false →
    Claims.committed s P h (Claims.cmtLen s P h) = false → ∃ u, exec i s = .next u ∧ (if tok = Claims.cmtLen s P h then tok < Claims.cmtLen u P h else
        Claims.cmtLen u P h = Claims.cmtLen s P h ∧ Claims.committed u P h tok = true) ∧
      u.st = (setVstart (charge (s.retire 4) (max ti.width th.width) k (k + 1)) 0).st) ∧
  ((i = .vsqld false g d xh xi ∧ plain) ∨ (i = .vsqldX false g d hv iv ∧ named) →
    (Claims.cmtLen s P h ≤ tok → ∃ u, exec i s = .next u ∧ Claims.SameMem s u ∧
      u.st = (setVstart (charge (setMask (markDirty (s.retire 4) d) 0 (putBit s.st.m[0] k false)) wide k (k + 1)) 0).st) ∧
    (tok < Claims.cmtLen s P h → fits → ∃ u, exec i s = .next u ∧ Claims.SameMem s u ∧
      u.st = (setVstart (charge (setMask (setElem (markDirty (s.retire 4) d) d t.bytes k (Claims.at_ s P va t.bytes)) 0
        (putBit s.st.m[0] k true)) wide k (k + 1)) 0).st))

end

namespace Sys2Proof.Claims
open Sys2Proof.Machine

/-! ## The diagonal engine and the tiles (chapters 8 and 19) -/

/-- An instruction that needs the engine and that nothing stands before: its strand has the engine and shares it with none (R78); a
lane group of the core is enabled. -/
structure HasEngine (s : State) (i : Instr) : Prop where
  ready   : Ready s i
  granted : engineGranted s s.cur.val = true
  alone   : engineShared s s.cur.val = false
  lanes   : 0 < laneGroups (getCore s (curCore s))

/-- Such an instruction on slots or tiles: no refused DCFG (R115), no transfer in flight, and no accumulator word in error or about
to be (R132); the tables of the grant are in their one form. -/
structure Engine (s : State) (i : Instr) : Prop extends HasEngine s i where
  legal   : s.st.csr.dcfg.getLsbD 63 = false
  still   : s.st.accum.flight = []
  sound   : s.st.accum.poison = [] ∧ s.st.accum.faults = []
  tables  : sparseWf (0 : Word32) s.st.accum.words = true ∧ sparseWf freeSlot s.st.accum.dir = true

/-- N, S and T of the grant, and its kind (Table 8.2). -/
def order (s : State) : Nat := s.st.csr.dcfg.toNat % 2 ^ 15
def slots (s : State) : Nat := s.st.csr.dcfg.toNat / 2 ^ 32 % 2 ^ 9
def tiles (s : State) : Nat := s.st.csr.dcfg.toNat / 2 ^ 41 % 2 ^ 4
def integer (s : State) : Bool := s.st.csr.dcfg.getLsbD 45

/-- First word of slot k, and of tile t: slots first, each of N words rounded up to 128; then tiles of 4,096 (R114). -/
def slotAt (s : State) (k : Nat) : Nat := k * ((order s + 127) / 128 * 128)
def tileAt (s : State) (t : Nat) : Nat := slots s * ((order s + 127) / 128 * 128) + 4096 * t

/-- The offset fields of Table 8.1. -/
def offA (w : Word) : Int := (BitVec.truncate 16 w).toInt
def offB (w : Word) : Int := (BitVec.truncate 16 (w >>> 16)).toInt
def stepB (w : Word) : Int := (BitVec.truncate 8 (w >>> 32)).toInt
def countB (w : Word) : Nat := w.toNat / 2 ^ 40 % 8 + 1

/-- Slot k is bound to offset c (R116). -/
def Bound (s : State) (c : Int) (k : Nat) : Prop := k < slots s ∧ dirEntry s k = BitVec.ofInt 16 c ∧ ∀ j, j < k → dirEntry s j ≠ BitVec.ofInt 16 c
/-- No slot is bound to offset c. -/
def Unbound (s : State) (c : Int) : Prop := ∀ k, k < slots s → dirEntry s k ≠ BitVec.ofInt 16 c
/-- k is the lowest free slot. -/
def LowestFree (s : State) (k : Nat) : Prop := k < slots s ∧ dirEntry s k = freeSlot ∧ ∀ j, j < k → dirEntry s j ≠ freeSlot

/-- DCFG's request (Table 8.2): its words, and whether R114 and R331 accept it when `avail` words may be granted. -/
def requestWords (w : Word) : Nat :=
  w.toNat / 2 ^ 32 % 2 ^ 9 * ((w.toNat % 2 ^ 15 + 127) / 128 * 128) + 4096 * (w.toNat / 2 ^ 41 % 2 ^ 4)
def requestOk (w : Word) (avail : Nat) : Prop :=
  w.toNat / 2 ^ 15 % 2 ^ 17 = 0 ∧ w.toNat / 2 ^ 46 = 0 ∧ w.toNat / 2 ^ 32 % 2 ^ 9 ≤ 256 ∧ w.toNat / 2 ^ 41 % 2 ^ 4 ≤ 8 ∧
  (w.toNat / 2 ^ 32 % 2 ^ 9 ≠ 0 → 1 ≤ w.toNat % 2 ^ 15 ∧ w.toNat % 2 ^ 15 ≤ 16384) ∧ requestWords w ≤ avail

/-- The strand after DCFG of request w: no slot, tile or directory entry of before, the new grant or ILL, and x[d] (R115); a
transfer's recorded error stays (R342). -/
def configured (s : State) (d : XReg) (g r : Word) : State :=
  State.writeX { s with st := { s.st with accum := { error := s.st.accum.error }, csr := { s.st.csr with dcfg := g, tstat := 0 } } } d r

/-- A DMAC form: A, the first B, the offset word, the passes, the step and whether a target without a slot is dropped. -/
def macForm (s : State) : Instr → Option (VReg × VReg × Word × Nat × Int × Bool)
  | .dmac a b x => some (a, b, s.readX x, 1, 0, false)
  | .dmacD a b x => some (a, b, s.readX x, 1, 0, true)
  | .dmacg a b x => some (a, b, s.readX x, countB (s.readX x), stepB (s.readX x), false)
  | _ => none

/-- The operands of a DMAC form are as R112, R113 and R120 require. -/
structure MacOk (s : State) (a b : VReg) (w : Word) (g : Nat) (d : Int) (ta tb : Elem) : Prop where
  n     : order s ≠ 0
  regs  : b.val + g ≤ 32
  typeA : elemType s a = some ta
  typeB : ∀ r, r < g → elemType s (Fin.ofNat 32 (b.val + r)) = some tb
  pair  : pairKind ta tb = some (integer s)
  scale : ta.isQ8 = true → elemType s vsc = some .e8 ∧ a ≠ vsc ∧ ∀ r, r < g → Fin.ofNat 32 (b.val + r) ≠ vsc
  offA  : (offA w).natAbs < order s ∧ order s - (Claims.offA w).natAbs ≤ s.st.csr.vlmax.toNat
  offB  : ∀ r : Nat, r < g → (offB w + r * d).natAbs < order s ∧ order s - (Claims.offB w + r * d).natAbs ≤ s.st.csr.vlmax.toNat
  once  : d ≠ 0 ∨ g = 1

/-- Row i of a pass (A offset a, B offset b) in a matrix of order n: 0 ≤ i, i + a, i + a + b < n (R112). -/
def row (n : Nat) (a b : Int) (i : Nat) : Prop := i < n ∧ 0 ≤ i + a ∧ i + a < n ∧ 0 ≤ i + a + b ∧ i + a + b < n

/-- The stored index of row i on the diagonal of offset k (R111). -/
def stored (k : Int) (i : Int) : Nat := (i - max 0 (-k)).toNat

/-- What row i of a pass adds into a word, with its flags (R112, R44, R25): A's element of row i, times B's of row i + a. -/
def product (s : State) (ta tb : Elem) (va vb : VReg) (a b : Int) (i : Nat) (old : Word32) : Word32 × Flags :=
  accumulate s (integer s) old ta va (stored a i) tb vb (stored b (i + a))

/-- The flags of the rows from `vstart` on that pass r adds, whose target's words are `old`. -/
def passFlags (s : State) (ta tb : Elem) (va vb : VReg) (a b : Int) (old : Nat → Word32) : Flags :=
  (List.range (order s)).foldl (fun f i =>
    if lo s ≤ i ∧ i < order s ∧ 0 ≤ (i : Int) + a ∧ (i : Int) + a < order s ∧ 0 ≤ (i : Int) + a + b ∧ (i : Int) + a + b < order s
    then f ||| (product s ta tb va vb a b i (old (stored (a + b) i))).2 else f) 0

/-- `dstat` after counts of dropped and outside passes, which rise while `vstart` is 0 and saturate (R118). -/
def counted (s : State) (d : Word) (drop out : Nat) : Word :=
  if lo s = 0 then
    let e := setBits d 16 16 (min (d.toNat / 2 ^ 16 % 2 ^ 16 + drop) 0xFFFF)
    setBits e 0 16 (min (d.toNat % 2 ^ 16 + out) 0xFFFF)
  else d

/-- Of the strand, t differs from s in the pc, the counts of R61, `vstart`, `fexc`, `dstat` and the accumulators alone, and memory
is as before. -/
def EngineFrame (s t : State) : Prop :=
  t.mem = s.mem ∧ t.st.x = s.st.x ∧ t.st.v = s.st.v ∧ t.st.m = s.st.m ∧ t.st.trap = s.st.trap ∧ t.st.viq = [] ∧ t.st.pc = s.st.pc + 4 ∧
  t.st.priv = s.st.priv ∧ t.st.streams = s.st.streams ∧
  t.st.csr = { s.st.csr with retired := s.st.csr.retired + 1, vstart := 0, fexc := t.st.csr.fexc, dstat := t.st.csr.dstat }

/-- DXTR's destination tags, and one word drained (R126, R41, R27). -/
def drainTag (s : State) (t : Elem) : Prop := if integer s = true then t = .int 32 true ∨ t = .int 64 true else t.isBinary = true
def drained_ (s : State) (ne : Bool) (t : Elem) (w : Word32) : Out :=
  match t with
  | .flt f =>
    let v := decodeFloat fmtF32 w.toNat
    let r := encodeFloat f (if ne = true then .ne else .tz) v
    { val := r.1, flags := r.2 ||| (if v.isNan = true then 16 else 0), amax := v }
  | t => { val := (BitVec.ofInt t.width w.toInt).toNat, amax := if integer s = true then numOfInt w.toInt else .nan false }

/-- Table 8.11: a pivot's inverse, its m7 bit, and whether τ replaced it (R127). -/
def pivot (f : FloatFmt) (tau p : Machine.Num) : Out × Bool :=
  let inverse (q : Machine.Num) : Out :=
    let r := divNum (.fin false 1 0) q
    let c := encodeFloat f .ne r.1
    { val := c.1, flags := r.2 ||| c.2, bit := r.1.isInf || (c.2 &&& 4) ≠ 0 }
  if p.isNan = true then ({ val := f.nan, flags := 16, bit := true }, false)
  else if tau.isZero = false ∧ ltNum false p.mag tau = true then (inverse (if p.isNeg then tau.flip else tau), true)
  else (inverse p, false)

/-- |`dpivtau|, a NaN acting as 0. -/
def tau (s : State) : Machine.Num :=
  let v := decodeFloat fmtF32 s.st.csr.dpivtau.toNat
  if v.isNan = true then .fin false 0 0 else v.mag

/-- The strip of an engine form that writes vd under `.m`, with a further condition on the element. -/
def stripIf (s : State) (m : Bool) (p : Nat → Bool) (out : Nat → Out) : List (Option Out) :=
  (List.range (vl s - lo s)).map fun k =>
    if (m = true ∧ s.st.m[0].getLsbD (lo s + k) = false) ∨ p (lo s + k) = false then none else some (out (lo s + k))

/-- A resident structure's descriptor at va (Table 8.13): element bytes, N, D, and OFF and BASE of diagonal j. -/
def resTag (w : Nat) : Nat := w / 2 ^ 48 % 256
def resN (w : Nat) : Nat := w % 2 ^ 15
def resD (w : Nat) : Nat := w / 2 ^ 32 % 256 + 1
def resBytes (w : Nat) : Nat := if resTag w = 11 then 4 else 2
def resOk (w : Nat) : Prop := 9 ≤ resTag w ∧ resTag w ≤ 11 ∧ 1 ≤ resN w ∧ resN w ≤ 16384 ∧ w / 2 ^ 56 = 0 ∧ w / 2 ^ 40 % 256 = 0 ∧
  w / 2 ^ 15 % 2 ^ 17 = 0

/-- Where a change record goes, if it is not refused (R130): the address of its element. -/
def recordAt (s : State) (P : TlbEntry) (va : Nat) (rec : Nat) : Option Nat :=
  let w := at_ s P va 8
  let j := rec / 2 ^ 24 % 256
  let e := at_ s P (va + 8 + 8 * j) 8
  let off : Int := (BitVec.ofNat 16 (e / 2 ^ 48)).toInt
  let p : Int := (rec % 2 ^ 14 : Nat) - max 0 (-off)
  if resD w ≤ j ∨ p < 0 ∨ (resN w : Int) - off.natAbs ≤ p then none else some ((e + p.toNat * resBytes w) % 2 ^ 48)

/-- The BASE of the diagonal that a change record names. -/
def baseFor (s : State) (P : TlbEntry) (va rec : Nat) : Nat := at_ s P (va + 8 + 8 * (rec / 2 ^ 24 % 256)) 8 % 2 ^ 48

/-- The active records from `vstart` on, in order. -/
def records (s : State) (m : Bool) (a : VReg) : List Nat :=
  ((List.range (vl s - lo s)).filter fun k => ! (m && ! s.st.m[0].getLsbD (lo s + k))).map fun k => elemAt s a 8 (lo s + k)

/-- Tile t may be named (R122), and nothing moves it. -/
structure TileOk (s : State) (i : Instr) (t : TReg) : Prop extends Engine s i where
  named : t.val < tiles s
  moves : s.st.csr.tstat.getLsbD (3 * t.val + 2) = false

/-- VALID, DIRTY and FLIGHT of a tile become v, d, and 0 (Table 8.9). -/
def tileState (s : State) (t : TReg) (v d : Bool) : BitVec 24 :=
  BitVec.ofNat 24 ((s.st.csr.tstat.toNat - s.st.csr.tstat.toNat / 2 ^ (3 * t.val) % 8 * 2 ^ (3 * t.val))
    + (v.toNat + 2 * d.toNat) * 2 ^ (3 * t.val))

/-- The exact sum of the products of block k of cell (i, j), each of 8 products or what is left of them (R45). -/
def blockTotal (s : State) (ta tb : Elem) (a b : VReg) (K i j : Nat) (k : Nat) : Machine.Num × Flags :=
  blockSum s ta tb a b K i j (min 8 (K - 8 * k)) (8 * k)
def blockTotalInt (s : State) (ta tb : Elem) (a b : VReg) (K i j : Nat) (k : Nat) : Int :=
  ((List.range (min 8 (K - 8 * k))).map fun q =>
    intOf ta (elemAt s a ta.bytes (i * K + 8 * k + q)) * intOf tb (elemAt s b tb.bytes (64 * (8 * k + q) + j))).sum

/-- Cell (i, j) of C := C + A × B with depth K: its blocks from the resume strip on, one rounding each (R124, R341). -/
def cell (s : State) (ta tb : Elem) (t : TReg) (a b : VReg) (K i j : Nat) : Word32 × Flags :=
  ((List.range ((K + 7) / 8)).filter fun k => decide (lo s ≤ 4 * k + i / 16)).foldl (fun c k =>
    if integer s then (BitVec.ofInt 32 (c.1.toInt + blockTotalInt s ta tb a b K i j k), c.2)
    else
      let x := blockTotal s ta tb a b K i j k
      let r := addNum false (decodeFloat fmtF32 c.1.toNat) x.1
      let e := encodeFloat fmtF32 .ne r.1
      (BitVec.ofNat 32 e.1, c.2 ||| x.2 ||| r.2 ||| e.2)) (accWord s (tileAt s t.val + 64 * i + j), 0)

/-- Of the strand, t differs from s in the pc, the counts of R61, `vstart`, `fexc`, `tstat` and the accumulators alone. -/
def TileFrame (s t : State) : Prop :=
  t.st.x = s.st.x ∧ t.st.m = s.st.m ∧ t.st.trap = s.st.trap ∧ t.st.viq = [] ∧ t.st.pc = s.st.pc + 8 ∧ t.st.accum.dir = s.st.accum.dir ∧
  t.st.priv = s.st.priv ∧ t.st.streams = s.st.streams ∧
  (let c := s.st.csr
   t.st.csr = { c with retired := c.retired + 1, vstart := t.st.csr.vstart, fexc := t.st.csr.fexc, tstat := t.st.csr.tstat })

end Sys2Proof.Claims

section
open Sys2Proof Sys2Proof.Machine

/-- DCFG grants or refuses a request (R114, R115, R331); DDIR reads the directory and DFREE empties a slot or all of them (R116,
R332). None of them needs the engine (R329), and DCFG no legal configuration. -/
def Sys2Proof.Claims.DiagonalDirectory : Prop := ∀ (s : State) (d x : XReg),
  let w := s.readX x
  let S := s.retire 4
  (Claims.Ready s (.dcfg d x) → s.st.accum.flight = [] →
    (Claims.requestOk w (wordsAvail s s.cur.val) → exec (.dcfg d x) s = .next (Claims.configured S d w (BitVec.ofNat 64 (Claims.requestWords w)))) ∧
    (¬ Claims.requestOk w (wordsAvail s s.cur.val) → exec (.dcfg d x) s = .next (Claims.configured S d (1 <<< 63) 0))) ∧
  (Claims.Ready s (.ddir d x) → s.st.csr.dcfg.getLsbD 63 = false → Claims.order s ≠ 0 →
    (w.toNat % 2 ^ 16 = 0x8000 → exec (.ddir d x) s =
      .next (S.writeX d (BitVec.ofNat 64 ((List.range (Claims.slots s)).filter fun k => dirEntry s k = freeSlot).length))) ∧
    (w.toNat % 2 ^ 16 ≠ 0x8000 → (∀ k, Claims.Bound s (Claims.offA w) k → exec (.ddir d x) s = .next (S.writeX d (BitVec.ofNat 64 k))) ∧
      (Claims.Unbound s (Claims.offA w) → exec (.ddir d x) s = .next (S.writeX d (BitVec.allOnes 64))))) ∧
  (Claims.Ready s (.dfree x) → s.st.csr.dcfg.getLsbD 63 = false → Claims.order s ≠ 0 → sparseWf freeSlot s.st.accum.dir = true → ∃ t, exec (.dfree x) s = .next t ∧
    t.st = { S.st with accum := t.st.accum } ∧ t.mem = s.mem ∧
    ∀ k, k < Claims.slots s → dirEntry t k =
      if w.toNat % 2 ^ 16 = 0x8000 ∨ dirEntry s k = BitVec.ofInt 16 (Claims.offA w) ∧ (∀ j, j < k → dirEntry s j ≠ BitVec.ofInt 16 (Claims.offA w))
      then freeSlot else dirEntry s k)

/-- DZERO (R116, R332): the slot of the offset, or the lowest free one, is bound to it and its words from `vstart` on are 0; with no
slot it traps with cause 0x07 and the offset (R117).
Binding clears the whole slot (log 16). -/
def Sys2Proof.Claims.DiagonalZero : Prop := ∀ (s : State) (x : XReg) (k : Nat),
  let c := Claims.offA (s.readX x)
  let len := Claims.order s - c.natAbs
  Claims.Engine s (.dzero x) → Claims.order s ≠ 0 → c.natAbs < Claims.order s →
  ((Claims.Bound s c k ∨ Claims.Unbound s c ∧ Claims.LowestFree s k) → ∃ t, exec (.dzero x) s = .next t ∧ Claims.EngineFrame s t ∧
    (∀ j, dirEntry t j = if j = k then BitVec.ofInt 16 c else dirEntry s j) ∧
    (∀ w, Claims.slotAt s k + Claims.lo s ≤ w → w < Claims.slotAt s k + len → accWord t w = 0) ∧
    (∀ w, w < Claims.slotAt s k ∨ Claims.slotAt s (k + 1) ≤ w → accWord t w = accWord s w)) ∧
  (Claims.Unbound s c → (∀ j, j < Claims.slots s → dirEntry s j ≠ freeSlot) →
    ∃ t, exec (.dzero x) s = .next t ∧ t.st.trap.tcause.toNat % 256 = 7 ∧ t.st.trap.tval = BitVec.ofInt 64 c ∧ t.st.accum = s.st.accum ∧
      t.st.pc = s.st.trap.tvec.truncate 48 ∧ t.st.trap.tpc = (s.st.pc + 4).zeroExtend 64)

/-- DMAC, DMAC.D and DMACG on targets that are bound or lie outside the matrix (R112, R113, R118, R120): every row's product goes to
its word of the target's slot, once each; outside passes are counted; no other word, no register and no byte of memory changes. -/
def Sys2Proof.Claims.DiagonalProducts : Prop := ∀ (s : State) (i : Instr) (va vb : VReg) (w : Word) (g : Nat) (d : Int) (drop : Bool) (ta tb : Elem)
    (slot : Nat → Nat),
  let a := Claims.offA w
  let b (r : Nat) : Int := Claims.offB w + r * d
  let inside (r : Nat) : Prop := (a + b r).natAbs < Claims.order s
  Claims.macForm s i = some (va, vb, w, g, d, drop) → Claims.Engine s i → Claims.MacOk s va vb w g d ta tb →
  (∀ r, r < g → inside r → Claims.Bound s (a + b r) (slot r)) →
  ∃ t, exec i s = .next t ∧ Claims.EngineFrame s t ∧ t.st.accum.dir = s.st.accum.dir ∧
    (∀ r, r < g → inside r → ∀ k, Claims.row (Claims.order s) a (b r) k → Claims.lo s ≤ k →
      let o := Claims.slotAt s (slot r) + Claims.stored (a + b r) k
      accWord t o = (Claims.product s ta tb va (Fin.ofNat 32 (vb.val + r)) a (b r) k (accWord s o)).1) ∧
    (∀ o, (∀ r k, r < g → inside r → Claims.row (Claims.order s) a (b r) k → Claims.lo s ≤ k → o ≠ Claims.slotAt s (slot r) + Claims.stored (a + b r) k) →
      accWord t o = accWord s o) ∧
    t.st.csr.dstat = Claims.counted s s.st.csr.dstat 0 ((List.range g).filter fun r => decide (Claims.order s ≤ (a + b r).natAbs)).length ∧
    t.st.csr.fexc = ((List.range g).filter fun r => decide ((a + b r).natAbs < Claims.order s)).foldl (fun f r =>
      f ||| Claims.passFlags s ta tb va (Fin.ofNat 32 (vb.val + r)) a (b r) fun q => accWord s (Claims.slotAt s (slot r) + q)) s.st.csr.fexc

/-- DMAC on a target without a slot (R117, R118): the lowest free slot is filled in, noted in `dstat`, and takes the products; with
none free the instruction traps with cause 0x07, no product added. DMAC.D drops the pass and counts it.
Binding clears the whole slot (log 16). -/
def Sys2Proof.Claims.DiagonalFillIn : Prop := ∀ (s : State) (va vb : VReg) (x : XReg) (ta tb : Elem) (k : Nat),
  let w := s.readX x
  let a := Claims.offA w
  let b := Claims.offB w
  Claims.MacOk s va vb w 1 0 ta tb → (a + b).natAbs < Claims.order s → Claims.Unbound s (a + b) →
  (Claims.Engine s (.dmac va vb x) → Claims.LowestFree s k → ∃ t, exec (.dmac va vb x) s = .next t ∧ Claims.EngineFrame s t ∧
    (∀ j, dirEntry t j = if j = k then BitVec.ofInt 16 (a + b) else dirEntry s j) ∧
    (∀ i, Claims.row (Claims.order s) a b i → accWord t (Claims.slotAt s k + Claims.stored (a + b) i) =
      if Claims.lo s ≤ i then (Claims.product s ta tb va vb a b i 0).1 else 0) ∧
    (∀ o, o < Claims.slotAt s k ∨ Claims.slotAt s (k + 1) ≤ o → accWord t o = accWord s o) ∧
    t.st.csr.dstat.getLsbD 47 = true ∧ t.st.csr.dstat.toNat / 2 ^ 32 % 2 ^ 15 = (BitVec.ofInt 15 (a + b)).toNat ∧
    t.st.csr.dstat.toNat % 2 ^ 32 = s.st.csr.dstat.toNat % 2 ^ 32) ∧
  (Claims.Engine s (.dmac va vb x) → (∀ j, j < Claims.slots s → dirEntry s j ≠ freeSlot) →
    ∃ t, exec (.dmac va vb x) s = .next t ∧ t.st.trap.tcause.toNat % 256 = 7 ∧ t.st.trap.tval = BitVec.ofInt 64 (a + b) ∧ t.st.accum = s.st.accum ∧
      t.st.csr.vstart = s.st.csr.vstart ∧ t.st.csr.dstat = s.st.csr.dstat ∧ t.st.trap.tpc = (s.st.pc + 4).zeroExtend 64) ∧
  (Claims.Engine s (.dmacD va vb x) → ∃ t, exec (.dmacD va vb x) s = .next t ∧ Claims.EngineFrame s t ∧ t.st.accum = s.st.accum ∧
    t.st.csr.fexc = s.st.csr.fexc ∧ t.st.csr.dstat = Claims.counted s s.st.csr.dstat 1 0)

/-- DXTR (R126, R335), DMV and DMV.M (R128, R336), under any `dcfg`, and DPIV (R127, R337): every active element from `vstart` on takes its result, with
its flags; an element past the diagonal is not written; DPIV also writes m7 and counts replaced pivots. The engine has then served
the strand (R78). -/
def Sys2Proof.Claims.DiagonalVectors : Prop := ∀ (s : State) (ne m : Bool) (d a b : VReg) (x : XReg),
  let S := s.retire 4
  let w := s.readX x
  let c := Claims.offA w
  (∀ t : Elem, Claims.Engine s (.dxtr ne m d x) → Claims.order s ≠ 0 → c.natAbs < Claims.order s → elemType s d = some t → Claims.drainTag s t →
    let word (k : Nat) : Word32 := match dirOf s c with | some q => accWord s (Claims.slotAt s q + k) | none => 0
    let os := Claims.stripIf s m (fun k => decide (k < Claims.order s - c.natAbs)) fun k => Claims.drained_ s ne t (word k)
    exec (.dxtr ne m d x) s = .next (serve s.cur.val (setVstart (Claims.unlessDone s
      (fun S => commitFlags (setReg (markDirty S d) d (writeOuts s.st.v[d.val] t.bytes (Claims.lo s) os)) os) S) 0))) ∧
  (∀ (i : Instr) (f : FloatFmt) (ta tb : Elem), (m = false ∧ i = .dmv d a b x ∨ m = true ∧ i = .dmvM d a b x) → Claims.HasEngine s i →
    elemType s d = some (.flt f) → elemType s a = some ta → elemType s b = some tb → d ≠ a → d ≠ b → f.q8 = false → 32 ≤ f.w →
    ta.isBinary = true → tb.isBinary = true → ta.width ≤ f.w → tb.width ≤ f.w → c.natAbs < Claims.vl s → Claims.lo s < Claims.vl s →
    let os := Claims.stripIf s m (fun k => decide (0 ≤ (k : Int) + c) && decide ((k : Int) + c < Claims.vl s)) fun k =>
      let r := fmaNum false (decodeElem ta (elemAt s a ta.bytes (Claims.stored c k))) (decodeElem tb (elemAt s b tb.bytes ((k : Int) + c).toNat))
        (decodeFloat f (elemAt s d (f.w / 8) k))
      let e := encodeFloat f .ne r.1
      { val := e.1, flags := r.2 ||| e.2 }
    exec i s = .next (serve s.cur.val
      (setVstart (commitFlags (setReg (markDirty S d) d (writeOuts s.st.v[d.val] (f.w / 8) (Claims.lo s) os)) os) 0))) ∧
  (∀ f : FloatFmt, Claims.Engine s (.dpiv m d a) → elemType s d = some (.flt f) → elemType s a = some (.flt f) → f.q8 = false → 32 ≤ f.w →
    let p (k : Nat) := Claims.pivot f (Claims.tau s) (decodeFloat f (elemAt s a (f.w / 8) k))
    let os := Claims.strip s m fun k => (p k).1
    let n := ((List.range (Claims.vl s - Claims.lo s)).filter fun k =>
      ! (m && ! s.st.m[0].getLsbD (Claims.lo s + k)) && (p (Claims.lo s + k)).2).length
    exec (.dpiv m d a) s = .next (serve s.cur.val (setVstart (Claims.unlessDone s (fun S =>
      State.modCsr (commitFlags (setMask (setReg (markDirty S d) d (writeOuts s.st.v[d.val] (f.w / 8) (Claims.lo s) os)) 7
        (writeBits s.st.m[7] (Claims.lo s) os)) os) fun c => { c with dpivcnt := BitVec.ofNat 32 (min (c.dpivcnt.toNat + n) 0xFFFFFFFF) }) S) 0)))

/-- DUPD (R129, R130, R338) on a structure that lies in one scratchpad page: each active record goes to its element in the order of
the records, or is refused and counted; nothing else changes.
The edges of DUPD are read from the rules (log 37); bits 23:14 of a record are not looked at (DESIGN CHOICE, log 69), and it runs as
one strip (log 84). -/
def Sys2Proof.Claims.DiagonalUpdate : Prop := ∀ (s : State) (P : TlbEntry) (m : Bool) (a : VReg) (x : XReg),
  let va := (s.readX x).toNat % 2 ^ 48
  let w := Claims.at_ s P va 8
  let rs := Claims.records s m a
  Claims.Engine s (.dupd m a x) → Claims.Canonical s → Claims.MemSpace s P 0 → P.tier = 2 → Config.spadBase ≤ P.base →
  elemType s a = some (.int 64 false) ∨ elemType s a = some (.int 64 true) → va % 8 = 0 → (s.readX x).toNat % 8 = 0 → Claims.resOk w →
  Claims.Inside P va (8 + 8 * Claims.resD w) →
  (∀ j < Claims.resD w, Claims.at_ s P (va + 8 + 8 * j) 8 % Claims.resBytes w = 0) →
  (∀ r ∈ rs, ∀ e, Claims.recordAt s P va r = some e → Claims.Inside P (Claims.baseFor s P va r) 1 ∧ Claims.Inside P e (Claims.resBytes w)) →
  ∃ t, exec (.dupd m a x) s = .next t ∧ (t.st.x = s.st.x ∧ t.st.v = s.st.v ∧ t.st.m = s.st.m ∧ t.st.accum = s.st.accum ∧ t.st.pc = s.st.pc + 4) ∧
    (let n := (rs.filter fun r => (Claims.recordAt s P va r).isNone).length
     let out := setBits s.st.csr.dstat 0 16 (min (s.st.csr.dstat.toNat % 2 ^ 16 + n) 0xFFFF)
     t.st.csr = { s.st.csr with retired := s.st.csr.retired + 1, vstart := 0, dstat := out }) ∧
    ∀ q, memByte t.mem q =
      match (rs.filter fun r => (Claims.recordAt s P va r).any fun e => decide (P.base + (e - P.vpage) ≤ q ∧ q < P.base + (e - P.vpage) + Claims.resBytes w)).getLast? with
      | some r => Claims.byteOf (r / 2 ^ 32) (q - (P.base + ((Claims.recordAt s P va r).getD 0 - P.vpage)))
      | none => memByte s.mem q

/-- The tile forms on registers (R122 to R124, R339 to R341): TZERO clears a tile; TROWMV writes a row from vector elements; TCOLMV
reads a column; TMMA adds the products of A and B to every cell, a block of 8 at a time. A form that writes makes the tile VALID and
DIRTY. TSTAT reads the states and empties the core's L1.
An empty TROWMV marks its tile (log 36). -/
def Sys2Proof.Claims.Tiles : Prop := ∀ (s : State) (t : TReg) (m : Bool) (a b : VReg) (x : XReg) (ta tb : Elem),
  let S := s.retire 8
  let w := (s.readX x).toNat
  let row := w % 64
  let o := w / 2 ^ 8 % 64
  (Claims.TileOk s (.tzero t) t → ∃ u, exec (.tzero t) s = .next u ∧ Claims.TileFrame s u ∧ u.mem = s.mem ∧ u.st.v = s.st.v ∧ u.st.csr.fexc = s.st.csr.fexc ∧
    u.st.csr.vstart = 0 ∧ u.st.csr.tstat = Claims.tileState s t true true ∧
    ∀ k, accWord u k = if Claims.tileAt s t.val ≤ k ∧ k < Claims.tileAt s t.val + 4096 then 0 else accWord s k) ∧
  (Claims.TileOk s (.trowmv m t a x) t → elemType s a = some ta → ta.width ≤ 32 → o + Claims.vl s ≤ 64 →
    ∃ u, exec (.trowmv m t a x) s = .next u ∧ Claims.TileFrame s u ∧ u.mem = s.mem ∧ u.st.v = s.st.v ∧ u.st.csr.fexc = s.st.csr.fexc ∧ u.st.csr.vstart = 0 ∧
      u.st.csr.tstat = Claims.tileState s t true true ∧
      ∀ k, accWord u k =
        let j := k - (Claims.tileAt s t.val + 64 * row + o)
        if Claims.tileAt s t.val + 64 * row + o ≤ k ∧ Claims.lo s ≤ j ∧ j < Claims.vl s ∧ (m = true → s.st.m[0].getLsbD j = true)
        then BitVec.ofNat 32 (elemAt s a ta.bytes j) else accWord s k) ∧
  (Claims.TileOk s (.tcolmv m a t x) t → elemType s a = some ta → ta.width ≤ 32 → o + Claims.vl s ≤ 64 →
    let os := Claims.strip s m fun k => { val := (accWord s (Claims.tileAt s t.val + 64 * (o + k) + row)).toNat % 2 ^ ta.width }
    exec (.tcolmv m a t x) s =
      .next (serve s.cur.val (setVstart (markDirty (setReg S a (writeOuts s.st.v[a.val] ta.bytes (Claims.lo s) os)) a) 0))) ∧
  (Claims.TileOk s (.tmma t a b) t → elemType s a = some ta → elemType s b = some tb → Claims.vl s ≠ 0 → Claims.vl s % 64 = 0 →
    pairKind ta tb = some (Claims.integer s) → (ta.isQ8 = true → elemType s vsc = some .e8 ∧ a ≠ vsc ∧ b ≠ vsc) →
    let K := Claims.vl s / 64
    ∃ u, exec (.tmma t a b) s = .next u ∧ Claims.TileFrame s u ∧ u.mem = s.mem ∧ u.st.v = s.st.v ∧ u.st.csr.vstart = 0 ∧
      u.st.csr.tstat = Claims.tileState s t true true ∧
      (∀ i j, i < 64 → j < 64 → accWord u (Claims.tileAt s t.val + 64 * i + j) = (Claims.cell s ta tb t a b K i j).1) ∧
      (∀ k, k < Claims.tileAt s t.val ∨ Claims.tileAt s t.val + 4096 ≤ k → accWord u k = accWord s k) ∧
      u.st.csr.fexc = (List.range 4096).foldl (fun f k => f ||| (Claims.cell s ta tb t a b K (k / 64) (k % 64)).2) s.st.csr.fexc) ∧
  (Claims.Ready s (.tstat x) → s.st.accum.flight = [] → s.st.accum.error = none →
    exec (.tstat x) s = .next (emptyL1 (S.writeX x (s.st.csr.tstat.zeroExtend 64)) (curCore s)))

/-- TSAVE and TREST (R125, R342) on an image that lies in one page: TSAVE stores the tile's 4,096 words at x[a], TREST loads them;
both leave the tile as its image, clean; TSAVE of a tile that is not VALID leaves its state. -/
def Sys2Proof.Claims.TileTransfers : Prop := ∀ (s : State) (P : TlbEntry) (t : TReg) (x : XReg),
  let va := (s.readX x).toNat % 2 ^ 48
  let base := P.base + (va - P.vpage)
  Claims.Canonical s → Claims.MemSpace s P 136 → (s.readX x).toNat % 64 = 0 → Claims.Inside P va 0x4000 →
  (Claims.TileOk s (.tsave t x) t → ∃ u, exec (.tsave t x) s = .next u ∧ Claims.TileFrame s u ∧ u.st.v = s.st.v ∧ u.st.csr.fexc = s.st.csr.fexc ∧
    u.st.accum.words = s.st.accum.words ∧ u.st.accum.flight = [] ∧
    (let valid := s.st.csr.tstat.getLsbD (3 * t.val)
     u.st.csr.tstat = Claims.tileState s t valid (if valid then false else s.st.csr.tstat.getLsbD (3 * t.val + 1))) ∧
    ∀ q, memByte u.mem q = if base ≤ q ∧ q < base + 0x4000 then
      Claims.byteOf (accWord s (Claims.tileAt s t.val + (q - base) / 4)).toNat ((q - base) % 4) else memByte s.mem q) ∧
  (Claims.TileOk s (.trest t x) t → ∃ u, exec (.trest t x) s = .next u ∧ Claims.TileFrame s u ∧ Claims.SameMem s u ∧ u.st.v = s.st.v ∧
    u.st.csr.fexc = s.st.csr.fexc ∧ u.st.accum.flight = [] ∧ u.st.csr.tstat = Claims.tileState s t true false ∧ (getCore u (curCore u)).l1 = [] ∧
    ∀ k, accWord u k = if Claims.tileAt s t.val ≤ k ∧ k < Claims.tileAt s t.val + 4096 then
      BitVec.ofNat 32 (Claims.number s (base + 4 * (k - Claims.tileAt s t.val)) 4) else accWord s k)

end

namespace Sys2Proof.Claims
open Sys2Proof.Machine

/-! ## Streams and copies (chapters 10 and 20) -/

/-- A page P of one memory and a page Q of the issuing core's own scratchpad, apart from each other and both in the core's TLB; as in
`MemSpace`, nothing is cached in the core, held or in error, and the slices have room for n more lines. -/
structure CopySpace (s : State) (P Q : TlbEntry) (n : Nat) : Prop where
  coreTlb : (getCore s (curCore s)).tlb = [P, Q]
  cold    : (getCore s (curCore s)).l1 = []
  ctx     : P.ctx = s.st.ctx ∧ Q.ctx = s.st.ctx
  allowed : P.r = true ∧ P.w = true ∧ P.p = false ∧ P.moving = false ∧ P.tier ≠ 3
  own     : Q.r = true ∧ Q.w = true ∧ Q.p = false ∧ Q.moving = false ∧ Q.tier = 2
  entries : P.poison = false ∧ Q.poison = false ∧ s.lines.rdcBad = []
  place   : P.base + P.size ≤ Config.gddrEnd ∨ (Config.cellarBase ≤ P.base ∧ P.base + P.size ≤ Config.cellarEnd)
    ∨ (Config.spadBase ≤ P.base ∧ P.base + P.size ≤ Config.spadEnd)
  spad    : Config.spadBase + curCore s * Config.spadBytes ≤ Q.base ∧ Q.base + Q.size ≤ Config.spadBase + (curCore s + 1) * Config.spadBytes
  whole   : P.base % P.size = 0 ∧ P.vpage % P.size = 0 ∧ P.vpage + P.size ≤ 2 ^ 48 ∧ Q.vpage % Q.size = 0 ∧ Q.vpage + Q.size ≤ 2 ^ 48
  apart   : (P.vpage + P.size ≤ Q.vpage ∨ Q.vpage + Q.size ≤ P.vpage) ∧ (P.base + P.size ≤ Q.base ∨ Q.base + Q.size ≤ P.base)
  sound   : s.poison = [] ∧ ∀ v ∈ s.lines.vat, v.2.poison = false
  up      : ∀ d : Fin 4, s.daleel.dies[d.val] = .up
  room    : s.lines.vat.length + n ≤ Config.vatEntries ∧ s.lines.tags.length + n ≤ Config.l2Tags
  noLog   : NoLog s
  quiet   : s.watches = []

/-- Strides and extents of a layout in the elements of a register, dimension 0 first (R159). -/
def dims (s : State) (b : VReg) : List (Int × Nat) :=
  (List.range (vl s)).map fun k => ((BitVec.ofNat 40 (elemAt s b 8 k / 2 ^ 24)).toInt, elemAt s b 8 k % 2 ^ 24)

/-- The product of extents, and the offset of packed element q: dimension 0 runs fastest. -/
def extent (l : List (Int × Nat)) : Nat := (l.map (·.2)).prod
def offset (l : List (Int × Nat)) (q : Nat) : Int :=
  ((List.range l.length).map fun d => ((q / extent (l.take d) % (l.getD d (0, 1)).2 : Nat) : Int) * (l.getD d (0, 1)).1).sum

/-- An address off bytes from a register. -/
def off (x : Word) (d : Int) : Nat := (BitVec.truncate 48 (x + BitVec.ofInt 64 d)).toNat

/-- The source and destination addresses of packed element q: `.in` lays out the source, `.ex` the destination. -/
def copySrc (s : State) (ex : Bool) (z : Nat) (a : XReg) (b : VReg) (q : Nat) : Nat :=
  off (s.readX a) (if ex = true then ((q * z : Nat) : Int) else offset (dims s b) q)
def copyDst (s : State) (ex : Bool) (z : Nat) (d : XReg) (b : VReg) (q : Nat) : Nat :=
  off (s.readX d) (if ex = true then offset (dims s b) q else ((q * z : Nat) : Int))

/-- Of the machine, t has the same strand but for the pc, `vstart` and the counts of R61, and no command is left in the core. -/
def Copied (s t : State) : Prop :=
  t.st = (setVstart (s.retire 4) 0).st ∧ (getCore t (curCore t)).commands = []

/-- Bytes waiting in a stream. -/
def waiting (r : StreamReg) : Nat := (r.arrived - r.consumed).toNat % 2 ^ 32

/-- A write of strand n's copies to the host or to a peer has not completed there: on a port, or to be sent again (R164, R225). -/
def CopyOut (s : State) (n : Nat) : Prop :=
  (n, true) ∈ s.links.hostLate ∨ ∃ m b, m.strand = n ∧ m.copy = true ∧ m.op = .write b ∧
    ((∃ p ∈ s.links.ports, m ∈ p.2.waiting) ∨ ∃ q ∈ s.links.outbox, q.what = .request m)
/-- None of the core's copies has a write out. -/
def copiesDone (s : State) : Prop := ∀ n ∈ strandsOf (curCore s), ¬ CopyOut s n

/-- Where byte j of a ring's stream lies (R158). -/
def ringByte (s : State) (r : StreamReg) (j : Nat) : Nat :=
  Config.spadBase + curCore s * Config.spadBytes + r.rbase.toNat + j % r.rsize.toNat

/-- The active rows of an XGATH (R160, R345): those whose bit of m0 is 1. -/
def gathered (s : State) (k : Nat) : Prop := k < vl s ∧ s.st.m[0].getLsbD k = true

end Sys2Proof.Claims

section
open Sys2Proof Sys2Proof.Machine

/-- SBIND, SREL and SSTAT (R157): a ring over the core's own scratchpad, or a chain of another strand of the context; an unbound
register; KIND, TAG and the bytes waiting. A bound register traps with cause 0x0A and stays.
Binding again and the order of the checks are read from the rules (log 32). -/
def Obligations.StreamRegisters : Prop := ∀ (s : State) (d : SReg) (a b x : XReg),
  let S := s.retire 4
  let xa := s.readX a
  let xb := (s.readX b).toNat
  let r := s.st.streams[d.val]
  let size := xb / 2 ^ 18 % 2 ^ 18
  let bare := xb / 2 ^ 36 % 2 ^ 20 = 0 ∧ xb % 2 ^ 18 = 0
  let fresh : StreamReg := { kind := BitVec.ofNat 2 (xb / 2 ^ 62), tag := BitVec.ofNat 6 (xb / 2 ^ 56) }
  (Claims.Ready s (.sbind d a b) → bare →
    (∀ Q : TlbEntry, xb / 2 ^ 62 = 1 → 4096 ≤ size → size ≤ 131072 → size % 512 = 0 → xa.toNat % 512 = 0 →
      (getCore s (curCore s)).tlb = [Q] → Q.poison = false → Q.ctx = s.st.ctx → Q.r = true → Q.p = false → Q.tier = 2 →
      Config.spadBase + curCore s * Config.spadBytes ≤ Q.base → Q.base + Q.size ≤ Config.spadBase + (curCore s + 1) * Config.spadBytes →
      Claims.Inside Q (xa.toNat % 2 ^ 48) size → Q.vpage % Q.size = 0 →
      let base := Q.base + (xa.toNat % 2 ^ 48 - Q.vpage) - (Config.spadBase + curCore s * Config.spadBytes)
      (r.kind = 0 → exec (.sbind d a b) s = .next (putStream S d { fresh with rsize := BitVec.ofNat 18 size, rbase := BitVec.ofNat 18 base })) ∧
      (r.kind ≠ 0 → ∃ t, exec (.sbind d a b) s = .next t ∧ t.st.streams = s.st.streams ∧ t.st.trap.tcause.toNat % 256 = 10 ∧
        t.st.trap.tval = BitVec.ofNat 64 d.val ∧ t.st.priv = true)) ∧
    (∀ p : Strand, xb / 2 ^ 62 = 2 → (size = 0 ∨ size = 4096) → getStrand s (xa.toNat % 2 ^ 12) = p → xa.toNat % 2 ^ 12 ≠ s.cur.val →
      p.resident = true → p.ctx = s.st.ctx → r.kind = 0 →
      exec (.sbind d a b) s = .next (putStream S d { fresh with rsize := 4096, peer := BitVec.ofNat 12 xa.toNat }))) ∧
  (Claims.Ready s (.srel d) → exec (.srel d) s = .next (putStream S d {})) ∧
  (Claims.Ready s (.sstat x d) → exec (.sstat x d) s =
    .next (S.writeX x (BitVec.ofNat 64 (r.kind.toNat * 2 ^ 62 + r.tag.toNat * 2 ^ 56 + Claims.waiting r))))

/-- XCOPY (R159, R161): every element of the layout moves between memory and the core's scratchpad, in packed order; the strand's
registers and every other byte are as before.
A copy command leaves vstart at 0 (log 15). -/
def Sys2Proof.Claims.CopyTensor : Prop := ∀ (s : State) (P Q : TlbEntry) (ex : Bool) (z : Sz) (h : Lane4) (o : Ord) (d a : XReg) (b : VReg),
  let w := Claims.stWidth z
  let n := Claims.extent (Claims.dims s b)
  let src (q : Nat) := Claims.copySrc s ex w a b q
  let dst (q : Nat) := Claims.copyDst s ex w d b q
  let S (q : Nat) := if ex = true then Q.base + (src q - Q.vpage) else P.base + (src q - P.vpage)
  let D (q : Nat) := if ex = true then P.base + (dst q - P.vpage) else Q.base + (dst q - Q.vpage)
  let packed := if ex = true then (s.readX a).toNat % 2 ^ 48 else (s.readX d).toNat % 2 ^ 48

  Claims.Ready s (.xcopy ex z h o d a b) → Claims.Canonical s → Claims.CopySpace s P Q (2 * n + 8) → Claims.copiesDone s →
  1 ≤ Claims.vl s → Claims.vl s ≤ 8 → (elemType s b = some (.int 64 true) ∨ elemType s b = some (.int 64 false)) →
  (s.readX a).toNat % w = 0 → (s.readX d).toNat % w = 0 → (ex = true ∨ 4 ≤ d.val) →
  Claims.Inside Q packed (max 1 (n * w)) →
  (∀ q, q < n → Claims.Inside (if ex = true then Q else P) (src q) w ∧ Claims.Inside (if ex = true then P else Q) (dst q) w) →
  ∃ t, exec (.xcopy ex z h o d a b) s = .next t ∧ Claims.Copied s t ∧ (Claims.acquires o = true → (getCore t (curCore t)).l1 = []) ∧
    ∀ k, memByte t.mem k = match ((List.range n).filter fun q => decide (D q ≤ k ∧ k < D q + w)).getLast? with
      | some q => memByte s.mem (S q + (k - D q))
      | none => memByte s.mem k

/-- XCOPY into a ring with room (R166): the packed bytes follow those that have arrived, wrapping at the ring's end, and ARRIVED
counts them; nothing else of memory changes.
A copy command leaves vstart at 0 (log 15). -/
def Sys2Proof.Claims.CopyIntoRing : Prop := ∀ (s : State) (P Q : TlbEntry) (z : Sz) (h : Lane4) (o : Ord) (d : SReg) (a : XReg) (b : VReg),
  let w := Claims.stWidth z
  let n := Claims.extent (Claims.dims s b)
  let x : XReg := ⟨d.val, by omega⟩
  let i : Instr := .xcopy false z h o x a b
  let r := s.st.streams[d.val]
  let src (q : Nat) := Claims.copySrc s false w a b q
  let ring := Config.spadBase + curCore s * Config.spadBytes + r.rbase.toNat
  Claims.Ready s i → Claims.Canonical s → Claims.CopySpace s P Q (2 * n + 8) → Claims.copiesDone s →
  1 ≤ Claims.vl s → Claims.vl s ≤ 8 → (elemType s b = some (.int 64 true) ∨ elemType s b = some (.int 64 false)) →
  (s.readX a).toNat % w = 0 → r.kind = 1 → 4096 ≤ r.rsize.toNat → r.rbase.toNat + r.rsize.toNat ≤ Config.spadBytes →
  r.rbase.toNat % 512 = 0 → r.rsize.toNat % 512 = 0 → r.consumed.toNat ≤ r.arrived.toNat →
  r.arrived.toNat + n * w ≤ r.consumed.toNat + r.rsize.toNat → r.consumed.toNat + r.rsize.toNat < 2 ^ 64 →
  (P.base + P.size ≤ ring ∨ ring + r.rsize.toNat ≤ P.base) → (∀ q, q < n → Claims.Inside P (src q) w) →
  ∃ t, exec i s = .next t ∧ (getCore t (curCore t)).commands = [] ∧
    t.st = (putStream (setVstart (s.retire 4) 0) d { r with arrived := r.arrived + BitVec.ofNat 64 (n * w) }).st ∧
    (∀ j, j < n * w → memByte t.mem (Claims.ringByte s r (r.arrived.toNat + j)) = memByte s.mem (P.base + (src (j / w) - P.vpage) + j % w)) ∧
    (∀ k, (∀ j, j < n * w → k ≠ Claims.ringByte s r (r.arrived.toNat + j)) → memByte t.mem k = memByte s.mem k)

/-- XGATH (R160, R345): each active element's row lands at its place in the core's scratchpad; every other byte is as before.
A copy command leaves vstart at 0 (log 15). -/
def Sys2Proof.Claims.CopyRows : Prop := ∀ (s : State) (P Q : TlbEntry) (h : Lane4) (o : Ord) (d a : XReg) (b : VReg) (t : Elem),
  let g := s.readX d
  let rb := g.toNat / 2 ^ 18 % 2 ^ 18
  let doff := g.toNat % 2 ^ 18
  let rstr : Int := (BitVec.truncate 28 (g >>> 36)).toInt
  let row (k : Nat) := Claims.off (s.readX a) (intOf t (elemAt s b t.bytes k) * rstr * 8)
  let dst (k : Nat) := Config.spadBase + curCore s * Config.spadBytes + doff + k * rb

  Claims.Ready s (.xgath h o d a b) → Claims.Canonical s → Claims.CopySpace s P Q (Claims.vl s * rb + 8) → Claims.copiesDone s →
  elemType s b = some t → t.isInt = true → 32 ≤ t.width → rb ≠ 0 → rb % 8 = 0 → rb ≤ 131072 → doff % 8 = 0 →
  (s.readX a).toNat % 8 = 0 → doff + Claims.vl s * rb ≤ Config.spadBytes →
  (P.base + P.size ≤ dst 0 ∨ dst (Claims.vl s) ≤ P.base) → (∀ k, Claims.gathered s k → Claims.Inside P (row k) rb) →
  ∃ u, exec (.xgath h o d a b) s = .next u ∧ Claims.Copied s u ∧
    (∀ k j, Claims.gathered s k → j < rb → memByte u.mem (dst k + j) = memByte s.mem (P.base + (row k - P.vpage) + j)) ∧
    (∀ q, (∀ k, Claims.gathered s k → q < dst k ∨ dst k + rb ≤ q) → memByte u.mem q = memByte s.mem q)

/-- XXFORM (R171) starts the slot's routine on its press engine, whose stack holds the parameter block (at a free place, log 40); an empty slot traps with
cause 0x01 (R170). XDRAIN (R164) waits in the VIQ while a command of the channel that was accepted before it stays there, or a write
of the core's copies is out; it then empties the core's L1 and reports the strand's error once.
A copy command leaves vstart at 0 (log 15). -/
def Sys2Proof.Claims.RoutinesDrain : Prop := ∀ (s : State) (P : TlbEntry) (h : Lane4) (o : Ord) (a b : XReg),
  let slot : Fin 64 := Fin.ofNat 64 (s.readX b).toNat
  let va := (s.readX a).toNat % 2 ^ 48
  let g := 8 * (dieOf (4 * curCore s)).val + h.val + 4 * (curCore s % 2)
  (Claims.Ready s (.xxform h o a b) → Claims.Canonical s → Claims.MemSpace s P 8 → sget [] s.press.slots slot.val ≠ [] → (s.readX a).toNat % 64 = 0 →
    Claims.Inside P va 64 → (∀ e ∈ s.press.engines, e.1 ≠ g) →
    ∃ t e c, exec (.xxform h o a b) s = .next t ∧ t.st = (setVstart (s.retire 4) 0).st ∧ Claims.SameMem s t ∧
      t.press.engines = s.press.engines ++ [(g, e)] ∧ e.slot = slot ∧ e.core = curCore s ∧
      (∀ k, k < 64 → sget 0 e.mem (blockLocal + k) = memByte s.mem (P.base + (va - P.vpage) + k)) ∧
      (getCore t (curCore t)).commands = [c] ∧ c.chan = h ∧ c.strand = s.cur.val) ∧
  (Claims.Ready s (.xxform h o a b) → sget [] s.press.slots slot.val = [] →
    ∃ t, exec (.xxform h o a b) s = .next t ∧ t.st.trap.tcause.toNat % 256 = 1 ∧ t.st.trap.tval = Instr.word (.xxform h o a b) ∧
      t.st.trap.tpc = (s.st.pc + 4).zeroExtend 64) ∧
  (s.st.viq = [] → s.st.park = 0 → s.lag = false → s.st.await = 0 → (getCore s (curCore s)).upsets = [] → s.st.bad = [] →
    ((∃ n ∈ strandsOf (curCore s), Claims.CopyOut s n) ∨
      ∃ m ∈ (getCore s (curCore s)).commands, m.chan = h ∧ m.num < (BitVec.ofNat 64 (getCore s (curCore s)).accepted).toNat) →
    ∃ t, exec (.xdrain h) s = .next t ∧ t.st.viq.length = 1 ∧ t.st.pc = s.st.pc + 4 ∧ t.st.x = s.st.x ∧ t.st.copyErr = s.st.copyErr ∧
      t.mem = s.mem ∧ getCore t (curCore t) = getCore s (curCore s)) ∧
  (Claims.Ready s (.xdrain h) → Claims.copiesDone s →
    (s.st.copyErr[h.val] = none → exec (.xdrain h) s = .next (emptyL1 (s.retire 4) (curCore s))) ∧
    (∀ c v, s.st.copyErr[h.val] = some (c, v) → ∃ t, exec (.xdrain h) s = .next t ∧ t.st.copyErr = s.st.copyErr.set h.val none ∧
      (getCore t (curCore t)).l1 = [] ∧ t.st.trap.tcause.toNat % 256 = c.toNat ∧ t.st.trap.tval = v ∧ t.st.priv = true))

/-- XCHAIN (R167) to a strand that has bound the stream as a chain naming this one and holds no message: the elements of vs become
one message in its binding, whole in its buffer of 8 element groups; the sender's registers are as before.
A message of no element is not sent (log 32). -/
def Sys2Proof.Claims.ChainSend : Prop := ∀ (s : State) (a : VReg) (b : XReg) (t : Elem) (p : Strand),
  let n := (s.readX b).toNat % 2 ^ 12
  let q := (s.readX b).toNat / 2 ^ 12 % 4
  let r := p.streams[q]

  Claims.Ready s (.xchain a b) → Claims.Canonical s → elemType s a = some t → n ≠ s.cur.val → getStrand s n = p → p.resident = true →
  p.ctx = s.st.ctx → r.kind = 2 → r.peer.toNat = s.cur.val → r.msgs = [] → s.st.csr.vstart = 0 → 0 < Claims.vl s →
  Claims.vl s ≤ 8 * (128 * laneGroups (getCore s (curCore s)) / t.bytes) →
  ∃ u m, exec (.xchain a b) s = .next u ∧ (getStrand u n).streams[q].msgs = [m] ∧ m.width = t.bytes ∧ m.total = Claims.vl s ∧
    m.sent = Claims.vl s ∧ m.data = (List.range (Claims.vl s)).flatMap (fun k => natToBytes t.bytes (elemAt s a t.bytes k)) ∧
    (getStrand u n).streams[q].arrived = r.arrived + BitVec.ofNat 64 (Claims.vl s * t.bytes) ∧
    u.st.x = s.st.x ∧ u.st.v = s.st.v ∧ u.st.m = s.st.m ∧ u.st.streams = s.st.streams ∧ u.st.pc = s.st.pc + 4 ∧ u.st.csr.vstart = 0 ∧
    u.st.trap = s.st.trap ∧ u.mem = s.mem

/-- A producer with its chain bit (R306) enters the VIQ with its operands and waits there for its consumer; the scalar side goes on.
What a producer commits is read from the rules (log 23). -/
def Sys2Proof.Claims.ChainProducer : Prop := ∀ (s : State) (i : Instr),
  let e : VEntry := { addr := s.st.pc, vl := Claims.vl s, instr := i, op0 := s.readX (operandRegs i).1, op1 := s.readX (operandRegs i).2 }
  chainBit i = true → s.st.viq = [] → s.lag = false → s.st.await = 0 →
  exec i s = .next { s with st := { (s.retire 4).st with viq := [e] } }

end

namespace Sys2Proof.Claims
open Sys2Proof.Machine

/-! ## The launch processor (chapters 3 to 5) -/

/-- The device reaches a usable context's memory (R46, R47) through one page that the last-level TLB of M0 holds; nothing holds a
write there, nothing is in error, every die is up, and the descriptor lies in GDDR-7 outside the page. -/
structure Device (s : State) (c : BitVec 12) (P : TlbEntry) (n : Nat) : Prop where
  tlb     : s.lines.tlb = [(0, P)]
  ctx     : P.ctx = c
  allowed : P.r = true ∧ P.w = true ∧ P.moving = false ∧ P.tier ≠ 3
  place   : P.base + P.size ≤ Config.gddrEnd ∨ (Config.cellarBase ≤ P.base ∧ P.base + P.size ≤ Config.cellarEnd)
    ∨ (Config.spadBase ≤ P.base ∧ P.base + P.size ≤ Config.spadEnd)
  whole   : P.base % P.size = 0 ∧ P.vpage % P.size = 0 ∧ P.vpage + P.size ≤ 2 ^ 48
  sound   : P.poison = false ∧ s.lines.rdcBad = [] ∧ s.poison = [] ∧ ∀ v ∈ s.lines.vat, v.2.poison = false
  up      : ∀ d : Fin 4, s.daleel.dies[d.val] = .up
  noLog   : NoLog s
  quiet   : s.watches = []
  room    : s.lines.vat.length + n ≤ Config.vatEntries ∧ s.lines.tags.length + n ≤ Config.l2Tags
  usable  : ctxUsable s c = true
  table   : descAddr s c % 128 = 0 ∧ descAddr s c + 128 ≤ Config.gddrEnd
  apart   : P.base + P.size ≤ descAddr s c ∨ descAddr s c + 128 ≤ P.base

/-- A request to a peer that has not been applied there: on a port, or to be sent again (R232, R235). -/
def OnWire (s : State) (m : PeerMsg) : Prop := (∃ p ∈ s.links.ports, m ∈ p.2.waiting) ∨ ∃ q ∈ s.links.outbox, q.what = .request m
/-- Writes to the host or to peers that have not completed there: any, and those of strand n and its copies. -/
def WritesAway (s : State) : Prop := s.links.hostLate ≠ [] ∨ ∃ m b, OnWire s m ∧ m.op = .write b
def StrandWrites (s : State) (n : Nat) : Prop :=
  (∃ p ∈ s.links.hostLate, p.1 = n) ∨ ∃ m b, OnWire s m ∧ m.strand = n ∧ m.op = .write b

/-- The host port answers in full: the module is on, boot stage 1 has loaded the port, and it is not in minimal mode (R374, R375). -/
def Serves (s : State) : Prop := s.daleel.powered = true ∧ 2 ≤ s.daleel.stage ∧ s.daleel.bootcause.getLsbD 0 = false

/-- Strands, cores and memory are as before. -/
def Quiet (s t : State) : Prop := t.st = s.st ∧ t.others = s.others ∧ t.cores = s.cores ∧ t.mem = s.mem

/-- Of the queues, only q may differ, and it is v. -/
def OnlyQueue (s t : State) (q : Fin 64) (v : Queue) : Prop := getQueue t q.val = v ∧ ∀ p, p ≠ q.val → getQueue t p = getQueue s p

/-- An event of a kind and a reason is posted: written to the ring, held, or counted as lost (R70, Table 4.6). -/
def Event (s t : State) (kind reason : Nat) : Prop :=
  ∃ r : EvRec, r.kind.toNat = kind ∧ r.reason.toNat = reason ∧ t.ev = (postRecord s r).ev

/-- Dword k at va of a page. -/
def dw (s : State) (P : TlbEntry) (va k : Nat) : Nat := at_ s P (va + 8 * k) 8

/-- Where an address lies in memory. -/
def keyAt (P : TlbEntry) (va : Nat) : Nat := P.base + (va - P.vpage)

/-- Table 4.2: an entry at va that breaks no rule. -/
def EntryOk (s : State) (P : TlbEntry) (va : Nat) : Prop :=
  let d := dw s P va
  let k := d 0 % 256
  1 ≤ k ∧ k ≤ 4 ∧ d 0 / 2 ^ 9 % 4 ≠ 0 ∧ d 0 / 2 ^ 11 = 0 ∧ d 1 / 2 ^ 6 % 2 ^ 57 = 0 ∧ d 3 / 2 ^ 6 % 2 ^ 57 = 0 ∧ d 7 = 0 ∧
  (k = 1 → d 5 % 128 = 0) ∧ (k = 2 → d 5 % 8 = 0) ∧ (k = 3 → d 5 % 64 = 0) ∧ (k = 4 → d 5 = 0) ∧ (3 ≤ k → d 6 = 0)

/-- The entry that the launch processor keeps of one at va. -/
def entryAt (s : State) (P : TlbEntry) (q : Fin 64) : QEntry :=
  let v := getQueue s q.val
  let va := v.fetch.toNat % 2 ^ 48
  let d := dw s P va
  let wait (k : Nat) : List (Nat × Word) := if d k / 2 ^ 63 = 1 then [(d k % 64, BitVec.ofNat 64 (d (k + 1)))] else []
  { id := s.lp.nextId, ctx := v.ctx, seq := v.next, addr := v.fetch, kind := d 0 % 256, rscope := d 0 / 2 ^ 9 % 4,
    overlap := decide (d 0 / 2 ^ 8 % 2 = 1), waits := wait 1 ++ wait 3, arg0 := BitVec.ofNat 64 (d 5), arg1 := BitVec.ofNat 64 (d 6) }

/-- ENABLE, its end, and a write to TAIL (R62, R63): an ACTIVE host-mode queue takes a TAIL that does not fall; a DISABLED one takes it as
its sequence base; any other write puts an ACTIVE queue in ERROR 0x08. A LAUNCH of which no item is placed waits again after its queue's
DISABLE (R89). While the host port does not answer (R374, R375), such a write is dropped.
What a new base and a DISABLE keep is read from the rules (log 44). -/
def QueueRegisters : Prop := ∀ (s : State) (q : Fin 64) (x : Word),
  let v := getQueue s q.val
  let ctl (b : Nat) : Word := setBits v.qctl 13 1 b
  let back (e : QEntry) : QEntry := if e.stage = .placing ∧ e.next = 0 then { e with stage := .waiting } else e
  Canonical s →
  (¬ Serves s → exec (.queueEnable q) s = .next s ∧ exec (.queueDisable q) s = .next s ∧ exec (.tailWrite q x) s = .next s) ∧
  (Serves s →
  (∃ t, exec (.queueEnable q) s = .next t ∧ Quiet s t ∧ OnlyQueue s t q
    (if v.stat = 0 then { v with qctl := ctl 1, stat := 1, err := 0, failseq := 0 } else { v with qctl := ctl 1 })) ∧
  (∃ t, exec (.queueDisable q) s = .next t ∧ Quiet s t ∧ OnlyQueue s t q { v with qctl := ctl 0, stat := 0, entries := v.entries.map back }) ∧
  (v.stat = 1 → v.qctl.getLsbD 12 = false → v.tail.toNat ≤ x.toNat → ∃ t, exec (.tailWrite q x) s = .next t ∧ Quiet s t ∧ OnlyQueue s t q { v with tail := x }) ∧
  (v.stat = 1 → v.qctl.getLsbD 12 = true ∨ x.toNat < v.tail.toNat → ∃ t, exec (.tailWrite q x) s = .next t ∧ t.mem = s.mem ∧
    (getQueue t q.val).stat = 2 ∧ (getQueue t q.val).err = 8 ∧ (getQueue t q.val).failseq = x ∧ (getQueue t q.val).tail = v.tail) ∧
  (v.stat = 0 → ∃ t, exec (.tailWrite q x) s = .next t ∧ t.mem = s.mem ∧ (getQueue t q.val).tail = x ∧ (getQueue t q.val).done = x ∧
    (getQueue t q.val).next = x.toNat + 1 ∧ ∀ e ∈ (getQueue t q.val).entries, e.stage ≠ .waiting))

/-- ENTRY_FETCH (R64, R81): the next entry joins its queue, a LAUNCH with its header; a chain entry turns the fetch; an entry that
breaks Table 4.2 puts the queue in ERROR 0x01 with its sequence number, FETCH where it was; one that waits for its own queue or a later
number of it, in ERROR 0x06 with FETCH after it.
Which of several codes is taken, and what an error leaves of the entries, is read from the rules (logs 44 and 74). -/
def EntryFetch : Prop := ∀ (s : State) (P : TlbEntry) (q : Fin 64),
  let v := getQueue s q.val
  let va := v.fetch.toNat % 2 ^ 48
  let e := entryAt s P q
  let hd := e.arg0.toNat % 2 ^ 48
  Canonical s → Device s v.ctx P 8 → v.stat = 1 → v.next ≤ v.tail.toNat → va % 64 = 0 → Inside P va 64 →
  (EntryOk s P va → (∀ w ∈ e.waits, w.1 = q.val → w.2.toNat < v.next) →
    (e.kind = 2 ∨ e.kind = 4 → ∃ t, exec (.entryFetch q) s = .next t ∧ SameMem s t ∧ t.st = s.st ∧
      OnlyQueue s t q { v with next := v.next + 1, fetch := v.fetch + 64, entries := v.entries ++ [e] }) ∧
    (e.kind = 1 → Inside P hd 128 → headerError (memRead s.mem (keyAt P hd) 128) = 0 → ∃ t, exec (.entryFetch q) s = .next t ∧ SameMem s t ∧ t.st = s.st ∧
      OnlyQueue s t q
      (let e := { e with launch := some (headerOf (memRead s.mem (keyAt P hd) 128)) }
       { v with next := v.next + 1, fetch := v.fetch + 64, entries := v.entries ++ [e] })) ∧
    (e.kind = 3 → v.entries = [] → v.done.toNat + 1 = v.next → v.cwaddr = 0 → ∃ t, exec (.entryFetch q) s = .next t ∧ SameMem s t ∧
      OnlyQueue s t q { v with next := v.next + 1, fetch := e.arg0, done := v.done + 1 })) ∧
  (¬ EntryOk s P va → ∃ t, exec (.entryFetch q) s = .next t ∧ SameMem s t ∧ (getQueue t q.val).stat = 2 ∧ (getQueue t q.val).err = 1 ∧
    (getQueue t q.val).failseq = BitVec.ofNat 64 v.next ∧ (getQueue t q.val).next = v.next ∧ (getQueue t q.val).fetch = v.fetch) ∧
  (EntryOk s P va → (∃ w ∈ e.waits, w.1 = q.val ∧ v.next ≤ w.2.toNat) → ∃ t, exec (.entryFetch q) s = .next t ∧ SameMem s t ∧ (getQueue t q.val).stat = 2 ∧
    (getQueue t q.val).err = 6 ∧ (getQueue t q.val).failseq = BitVec.ofNat 64 v.next ∧ (getQueue t q.val).fetch = if e.kind = 3 then e.arg0 else v.fetch + 64)

/-- ENTRY_START (R65, R67): an entry whose conditions hold starts: a LAUNCH waits for its items' places, a WRITE stores its word and
is complete, a fence is complete; one whose words in the core hold an error puts its queue in ERROR 0x02 (R371, log 98), one that waits
for a queue in ERROR puts its own in ERROR 0x04; else, as while a queue it waits for is
DISABLED, nothing happens. A wait fails no sooner than here (log 87).
An event that is not due changes nothing (the model's choice, log 1). -/
def EntryStart : Prop := ∀ (s : State) (P : TlbEntry) (q : Fin 64) (e : QEntry) (rest : List QEntry),
  let v := getQueue s q.val
  let va := e.arg0.toNat % 2 ^ 48
  let met : Prop := ∀ w ∈ e.waits, (getQueue s w.1).stat ≠ 0 ∧ w.2.toNat ≤ (getQueue s w.1).done.toNat
  Canonical s → Device s v.ctx P 8 → e.ctx = v.ctx → v.stat = 1 → v.entries = e :: rest → e.stage = .waiting → e.old = false →
  (∀ x ∈ rest, e.seq < x.seq ∧ x.id ≠ e.id) → v.done.toNat + 1 = e.seq → e.seq < 2 ^ 64 →
  (e.poison = true → ∃ t, exec (.entryStart q) s = .next t ∧ SameMem s t ∧
    (getQueue t q.val).stat = 2 ∧ (getQueue t q.val).err = 2 ∧ (getQueue t q.val).failseq = BitVec.ofNat 64 e.seq) ∧
  (e.poison = false →
  (met → e.kind = 1 → ∃ t, exec (.entryStart q) s = .next t ∧ SameMem s t ∧ OnlyQueue s t q { v with entries := { e with stage := .placing } :: rest }) ∧
  (met → e.kind = 2 → v.cwaddr = 0 → rest = [] → va % 8 = 0 → Inside P va 8 → ∃ t, exec (.entryStart q) s = .next t ∧
    Stored s t (keyAt P va) 8 e.arg1.toNat ∧ OnlyQueue s t q { v with entries := [], done := v.done + 1 }) ∧
  (met → e.kind = 4 → v.cwaddr = 0 → rest = [] → ∃ t, exec (.entryStart q) s = .next t ∧ SameMem s t ∧ OnlyQueue s t q { v with entries := [], done := v.done + 1 }) ∧
  ((∃ w ∈ e.waits, (getQueue s w.1).stat = 2 ∧ (getQueue s w.1).done.toNat < w.2.toNat) → ∃ t, exec (.entryStart q) s = .next t ∧ SameMem s t ∧
    (getQueue t q.val).stat = 2 ∧ (getQueue t q.val).err = 4 ∧ (getQueue t q.val).failseq = BitVec.ofNat 64 e.seq) ∧
  (¬ met → (∀ w ∈ e.waits, (getQueue s w.1).stat ≠ 2) → exec (.entryStart q) s = .next s))

/-- ENTRY_COMPLETE (R65, R66): an entry whose items have all ended counts in DONE, and the completion word is stored; a release at `.sy`
waits for writes at peers and the host.
An event that is not due changes nothing (the model's choice, log 1). -/
def EntryComplete : Prop := ∀ (s : State) (P : TlbEntry) (q : Fin 64) (e : QEntry),
  let v := getQueue s q.val
  let va := v.cwaddr.toNat % 2 ^ 48
  Canonical s → Device s v.ctx P 8 → v.entries = [e] → e.stage = .placed → e.live = 0 → e.kind = 1 → e.old = false → v.done.toNat + 1 = e.seq →
  e.seq < 2 ^ 64 → v.cwaddr ≠ 0 → va % 8 = 0 → Inside P va 8 →
  (e.rscope ≠ 3 ∨ ¬ WritesAway s → ∃ t, exec (.entryComplete q e.seq) s = .next t ∧ Stored s t (keyAt P va) 8 e.seq ∧
    OnlyQueue s t q { v with entries := [], done := v.done + 1 }) ∧
  (e.rscope = 3 → WritesAway s → exec (.entryComplete q e.seq) s = .next s)

/-- Item l of a launch, whose fields are all of scope none, as ITEM_START leaves its strand (R86, Table 5.2). -/
structure Started (s t : State) (n q : Nat) (e : QEntry) (h : Launch) : Prop where
  place : (getStrand t n).resident = true ∧ (getStrand t n).ctx = e.ctx ∧ (getStrand t n).priv = false ∧ (getStrand t n).pc = h.entry
  args  : (getStrand t n).x = ((((Vector.replicate 32 (0 : Word)).set 10 e.arg1).set 11 (BitVec.ofNat 64 e.next)).set 12 (BitVec.ofNat 64 e.seq)).set 2
    (if h.stksize = 0 then 0 else h.stkbase + BitVec.ofNat 64 ((e.next + 1) * h.stksize.toNat))
  share : (getStrand t n).csr.vshare = (if h.vshare = 0 then 1 else h.vshare) ∧ (getStrand t n).trap.tvec = ctxTvec s e.ctx
  item  : (getStrand t n).item.queue = q ∧ (getStrand t n).item.entry = e.id ∧ (getStrand t n).item.index = e.next ∧ (getStrand t n).item.wfld = h.wfld ∧ (getStrand t n).dogRan = 0 ∧ (getStrand t n).dogFrom = s.cycle
  clean : (getStrand t n).v = Vector.replicate 32 {} ∧ (getStrand t n).m = Vector.replicate 8 0 ∧ (getStrand t n).viq = [] ∧ (getStrand t n).accum = {}

/-- PLACE_ITEMS (R69, R85, R86) on a machine without resident strands and with one entry to place: its next item takes strand 0, and
its context is RUNNING. The registers that R86 does not name hold 0 (DESIGN CHOICE, log 3).
One item is placed at a time (log 46). -/
def PlaceItem : Prop := ∀ (s : State) (P : TlbEntry) (q : Fin 64) (v : Queue) (e : QEntry) (h : Launch),
  Canonical s → Device s e.ctx P 8 → s.lp.queues = [(q.val, v)] → v.entries = [e] → e.launch = some h → e.stage = .placing → v.stat = 1 →
  h.scopes = List.replicate 6 0 → h.wfld.toNat < 2 ^ 60 → fieldScopes h.wfld = List.replicate 6 0 → h.vrfh ≤ 16 → (getCore s 0).disable = 0 → h.acch ≤ 32 → e.next < h.items →
  s.lp.order = [] → s.lp.resid = [] → s.lp.groups = [] → s.others = [] → s.st.resident = false → (ctxState s e.ctx = 1 ∨ ctxState s e.ctx = 2) →
  ∃ t, exec .placeItems s = .next t ∧ Started s t 0 q.val e h ∧ ctxState t e.ctx = 2 ∧ (getCore t 0).gated = false ∧
    (getQueue t q.val).entries = [{ e with next := e.next + 1, live := e.live + 1, began := (if e.next = 0 then s.cycle else e.began), stage := if h.items ≤ e.next + 1 then .placed else .placing }] ∧
    ∀ b, ¬ (descAddr s e.ctx ≤ b ∧ b < descAddr s e.ctx + 8) → memByte t.mem b = memByte s.mem b

/-- TIME_SLICE_EXPIRY (R69): an entry that has run its queue's SLICE x 65,536 clocks has its context, if RUNNING, pre-empted where another
entry, or the restore of a context, of equal or higher priority waits for strands, its frames suffice and no context is in SAVING: each of
its strands is given the frame of its place among them (R49); else nothing happens. A restored context's slices begin anew (log 90).
An event that is not due changes nothing (the model's choice, log 1). -/
def TimeSlice : Prop := ∀ (s : State) (P : TlbEntry) (q : Fin 64) (e : QEntry),
  let v := getQueue s q.val
  let slice := v.qctl.toNat / 2 ^ 32 % 2 ^ 16
  let ran (x : QEntry) : Bool := decide (x.live ≠ 0 ∧ slice ≠ 0 ∧ slice * 65536 ≤ (s.cycle - x.began).toNat)
  let due : Prop := ctxState s e.ctx = 2 ∧ (∀ a ∈ s.lp.active, a.2 ≠ 3) ∧
    (strandsWhere s fun t => t.resident ∧ t.ctx = e.ctx).length ≤ ctxFrCount s e.ctx ∧ waitsFor s (v.qctl.toNat / 2 ^ 8 % 8) e = true
  Canonical s → Device s e.ctx P 8 →
  (v.entries.find? ran = none → exec (.timeSliceExpiry q) s = .next s) ∧
  (v.entries.find? ran = some e →
  (due → ∃ t, exec (.timeSliceExpiry q) s = .next t ∧ ctxState t e.ctx = 3 ∧ t.lp.queues = s.lp.queues ∧ (∀ n, n < 4096 →
    getStrand t n = { getStrand s n with frame := (getStrand t n).frame } ∧
    ((getStrand s n).resident = true → (getStrand s n).ctx = e.ctx →
      (getStrand t n).frame = ((List.range n).filter fun k => (getStrand s k).resident && decide ((getStrand s k).ctx = e.ctx)).length))) ∧
  (¬ due → exec (.timeSliceExpiry q) s = .next s))

/-- The page that holds the frames of the focused strand's context, as its core reaches them (R49). -/
structure FrameSpace (s : State) (P : TlbEntry) (va : Nat) : Prop where
  device : Device s s.st.ctx P 8192
  core   : (getCore s (curCore s)).tlb = [P]
  tier   : P.tier = 0
  inside : Inside P va 0x48000
  home   : P.base + P.size ≤ Config.gddrEnd

/-- FRAME_SAVE (R49, R58, R59) of a context's only strand: the frame it was given holds the pc, the registers x1 to x31 and the CSRs, the strand is
free, and the context is SAVED; a strand whose tile transfers, copy commands, SIGNALs, or writes to peers and the host are out is not
saved yet.
The RES areas of a frame, what the device keeps beside it, and what holds a save back are read from the rules (logs 45, 71 and 72). -/
def FrameSave : Prop := ∀ (s : State) (P : TlbEntry),
  let va := ctxFrBase s s.st.ctx + s.st.frame * 0x48000
  let a := keyAt P va
  let t := s.st
  Canonical s → FrameSpace s P va → t.resident = true → ctxState s t.ctx = 3 → t.hold = [] → s.others = [] → s.lp.saved = [] → s.st.accum.poison = [] →
  s.lp.groups = [] → (∀ p ∈ frameParts s.cur.val t, p.1 + p.2.length ≤ 0x48000) →
  (t.accum.flight = [] → t.signals = [] → (getCore s (curCore s)).commands = [] → (∀ p ∈ s.links.ports, p.2.waiting = []) → s.links.outbox = [] →
    s.links.hostLate = [] → ∃ u, exec (.frameSave s.cur) s = .next u ∧ getStrand u s.cur.val = {} ∧ ctxState u t.ctx = 4 ∧ (∃ w, u.lp.saved = [w] ∧ w.ctx = t.ctx ∧ w.frame = t.frame ∧ w.item = { t.item with units := t.item.vrfh }) ∧
      u.lp.order = s.lp.order ++ [t.ctx] ∧ number u (a + 8) 8 = t.pc.toNat ∧ (∀ k : Fin 32, k ≠ 0 → number u (a + 0x100 + 8 * k.val) 8 = t.x[k.val].toNat) ∧
      number u (a + 0x200) 8 = t.csr.vl.toNat ∧ number u (a + 0x200 + 8 * 48) 8 = t.trap.tvec.toNat ∧
      number u a 8 = 0x10 + t.priv.toNat * 2 ^ 8 + (if t.park = 0 then 0 else 2 ^ 9) + t.park.toNat * 2 ^ 12 + t.viq.length * 2 ^ 16 ∧
      ∀ b, (b < a ∨ a + 0x48000 ≤ b) → ¬ (descAddr s t.ctx ≤ b ∧ b < descAddr s t.ctx + 8) → memByte u.mem b = memByte s.mem b) ∧
  (t.accum.flight ≠ [] ∨ t.signals ≠ [] ∨ (∃ m ∈ (getCore s (curCore s)).commands, m.strand = s.cur.val) ∨ StrandWrites s s.cur.val →
    exec (.frameSave s.cur) s = .next s)

/-- RESTORE (R61) of a context with one saved item, whose frame has its RES fields and areas 0 (R9), into a machine without resident strands: the strand that takes it has the registers,
pc, mode and CSRs of its frame, and the context is RUNNING.
What a saved item keeps in the device is read from the rules (log 45). -/
def FrameRestore : Prop := ∀ (s : State) (P : TlbEntry) (w : Saved),
  let c := w.ctx
  let a := keyAt P (ctxFrBase s c)
  Canonical s → Device s c P 8192 → P.tier = 0 → Inside P (ctxFrBase s c) 0x48000 → P.base + P.size ≤ Config.gddrEnd → w.frame = 0 →
  s.lp.saved = [w] → s.lp.order = [c] → ctxState s c = 4 → s.lp.queues = [] → s.lp.resid = [] → s.lp.groups = [] → s.others = [] → s.st = {} → (getCore s 0) = {} →
  w.item.vrfh ≤ 16 → w.item.acch ≤ 32 → fieldScopes w.item.wfld = List.replicate 6 0 →
  frameValid (BitVec.ofNat 64 (number s a 8)) (fun k => BitVec.ofNat 64 (number s (a + 0x200 + 8 * k) 8))
    (fun k => BitVec.ofNat 64 (number s (a + 0xC00 + 8 * k) 8)) = true →
  (∀ r ∈ [(0x80, 0x80), (0xD00, 0x300), (0x1400, 0xC00), (0x6000, 0x2000)], ∀ b, b < r.2 → memByte s.mem (a + r.1 + b) = 0) →
  number s a 8 / 2 ^ 16 % 2 ^ 7 = 0 → (∀ k, k < 32 → number s (a + 0x40 + 2 * k) 2 = 0) → number s (a + 0x208) 8 = 0 → number s (a + 0x200 + 8 * 12) 8 = 0 →
  number s (a + 0x280) 8 = 0 → number s (a + 0x2A0) 8 = 0 → (∀ k, k < 256 → number s (a + 0x1000 + 4 * k) 2 = 0x8000) →
  ∃ u, exec (.restore c) s = .next u ∧ (getStrand u 0).resident = true ∧ (getStrand u 0).ctx = c ∧ (getStrand u 0).item = w.item ∧
    (getStrand u 0).pc = BitVec.ofNat 48 (number s (a + 8) 8) ∧ (getStrand u 0).priv = decide (number s a 8 / 2 ^ 8 % 2 = 1) ∧
    (∀ k : Fin 32, k ≠ 0 → (getStrand u 0).x[k.val] = BitVec.ofNat 64 (number s (a + 0x100 + 8 * k.val) 8)) ∧
    (getStrand u 0).csr.vl = BitVec.ofNat 64 (number s (a + 0x200) 8) ∧ (getStrand u 0).park = 0 ∧ (getStrand u 0).viq = [] ∧
    ctxState u c = 2 ∧ u.lp.saved = [] ∧ u.lp.order = [] ∧ ∀ b, ¬ (descAddr s c ≤ b ∧ b < descAddr s c + 8) → memByte u.mem b = memByte s.mem b

/-- Clocks that the watchdog of a running strand has counted since it was started, and its period (R87). -/
def dogCount (s : State) : Nat := s.st.dogRan + (s.cycle - s.st.dogFrom).toNat
def dogLimit (s : State) : Nat := (if s.st.item.wdog = 0 then 4096 else s.st.item.wdog) * 2 ^ 20

/-- WATCHDOG_EXPIRY (R57, R87): once its period of WDOG × 2^20 clocks is counted, a strand in user mode takes cause 0x12 with the cycle,
and its count starts again; in privileged mode its context is DEAD; before, and for a parked or absent strand, nothing happens.
An event that is not due changes nothing (the model's choice, log 1). -/
def Watchdog : Prop := ∀ (s : State) (P : TlbEntry),
  Canonical s → Device s s.st.ctx P 8 → s.st.viq = [] → ctxState s s.st.ctx = 2 → s.st.resident = true → s.st.park = 0 →
  (dogCount s < dogLimit s → exec (.watchdogExpiry s.cur) s = .next s) ∧
  (s.st.priv = false → dogLimit s ≤ dogCount s → ∃ t, exec (.watchdogExpiry s.cur) s = .next t ∧ t.st.priv = true ∧ t.st.pc = s.st.trap.tvec.truncate 48 ∧
    t.st.trap.tcause.toNat % 256 = 0x12 ∧ t.st.trap.tval = s.cycle ∧ t.st.trap.tpc = s.st.pc.zeroExtend 64 ∧ t.st.x = s.st.x ∧ t.mem = s.mem ∧ t.st.dogRan = 0 ∧ t.st.dogFrom = s.cycle) ∧
  (s.st.priv = true → dogLimit s ≤ dogCount s → ∃ t, exec (.watchdogExpiry s.cur) s = .next t ∧ ctxState t s.st.ctx = 6 ∧ (getStrand t s.cur.val).resident = false) ∧
  (∀ n : Fin 4096, (getStrand s n.val).resident = false ∨ (getStrand s n.val).park ≠ 0 → exec (.watchdogExpiry n) s = .next s)

/-- EXIT (R88, R353) of an item that holds nothing else: its strand is free, its entry counts one item less, and a context whose last
item it was is IDLE; it waits while a copy command of its strand, or a write of its copies, is out; an unreported copy error traps. -/
def Exit : Prop := ∀ (s : State) (P : TlbEntry) (e : QEntry),
  let t := s.st
  Canonical s → Device s t.ctx P 8 → t.viq = [] → t.park = 0 → t.hold = [] → t.holdAt = 0 → t.accum.flight = [] →
  t.item.groups = [] → s.others = [] → ctxState s t.ctx = 2 → (getQueue s t.item.queue).entries = [e] → e.id = t.item.entry →
  ((∃ m ∈ (getCore s (curCore s)).commands, m.strand = s.cur.val) ∨ CopyOut s s.cur.val → exec .exit s = .next s) ∧
  ((getCore s (curCore s)).commands = [] → ¬ CopyOut s s.cur.val →
  ((∀ k : Fin 4, t.copyErr[k.val] = none) → ∃ u, exec .exit s = .next u ∧ u.st = {} ∧ ctxState u t.ctx = 1 ∧
    (getQueue u t.item.queue).entries = [{ e with live := e.live - 1 }] ∧
    ∀ b, ¬ (descAddr s t.ctx ≤ b ∧ b < descAddr s t.ctx + 8) → memByte u.mem b = memByte s.mem b) ∧
  (∀ c v, t.copyErr[0] = some (c, v) → t.priv = false → ∃ u, exec .exit s = .next u ∧ u.st.trap.tcause.toNat % 256 = c.toNat ∧ u.st.trap.tval = v ∧
    u.st.copyErr = t.copyErr.set 0 none ∧ u.st.resident = t.resident))

/-- EVENT_RECORD_WRITE, a write to EVHEAD and a read of EVOVF (R70): the oldest held record goes to the ring while it has room; EVHEAD
moves between itself and EVTAIL alone; EVOVF is answered and cleared. While the host port does not answer (R374, R375), a write is
dropped and a read returns ones. -/
def EventRing : Prop := ∀ (s : State) (v : Word),
  (∀ r rest, s.ev.held = r :: rest → ringRoom s.ev = true → ∃ t, exec .eventRecordWrite s = .next t ∧ Quiet s t ∧ t.ev.held = rest ∧ t.ev.evtail = s.ev.evtail + 1 ∧
    t.links.hostOut = s.links.hostOut ++ [(s.ev.evbase.toNat + 32 * (s.ev.evtail.toNat % 2 ^ s.ev.evsize.toNat), evBytes r)] ∧ t.links.msix.getLsbD 0 = true) ∧
  (s.ev.held = [] ∨ ringRoom s.ev = false → exec .eventRecordWrite s = .next s) ∧
  (¬ Serves s → exec (.evheadWrite v) s = .next s ∧ exec .evovfRead s = .next (answer s (allOnes 8))) ∧
  (Serves s → s.ev.held = [] → ∃ t, exec (.evheadWrite v) s = .next t ∧ Quiet s t ∧ t.links = s.links ∧
    t.ev = if (v - s.ev.evhead).toNat ≤ (s.ev.evtail - s.ev.evhead).toNat then { s.ev with evhead := v } else s.ev) ∧
  (Serves s → ∃ t, exec .evovfRead s = .next t ∧ Quiet s t ∧ t.ev = { s.ev with evovf := 0 } ∧ t.links.answer = natToBytes 8 s.ev.evovf.toNat)

end Sys2Proof.Claims

namespace Sys2Proof.Claims
open Sys2Proof.Machine

/-! ## Doorbells, polls and the units beside the strands -/

/-- The vine structures of the focused strand's context as the device reaches them, from die 0 (R133). -/
structure VineDevice (s : State) (P : TlbEntry) (c : BitVec 12) : Prop where
  space : VineSpace s P
  home  : curDie s = 0
  ctx   : c = s.st.ctx
  runs  : 1 ≤ ctxState s c ∧ ctxState s c ≤ 5
  calm  : s.waitSvc = [] ∧ s.waitRel = [] ∧ s.cows = []

/-- Strand n waits for vine h of a context, for a reason that a doorbell answers (R149): 0x4 or 0x7. -/
def WaitsService (s : State) (c : BitVec 12) (h n : Nat) : Prop :=
  let t := getStrand s n
  t.resident = true ∧ t.ctx = c ∧ t.wait = .vine (BitVec.ofNat 32 h) ∧ (t.park = 4 ∨ t.park = 7)

/-- VUNPARK (R149) wakes the strands that wait for the service of an OPEN vine, and no strand that waits for something else; for a
context that is FREE or DEAD it does nothing, nor while the host port does not answer (R374, R375). -/
def Unpark : Prop := ∀ (s : State) (P : TlbEntry) (v : Word) (b : Nat),
  let c : BitVec 12 := v.truncate 12
  let h := v.toNat / 2 ^ 32 % 2 ^ 28
  (ctxState s c = 0 ∨ ctxState s c = 6 ∨ ¬ Serves s → exec (.vunpark v) s = .next s) ∧
  (Serves s → Canonical s → VineDevice s P c → OpenVine s P h b → ∃ t, exec (.vunpark v) s = .next t ∧ SameMem s t ∧
    ∀ n, n < 4096 → (WaitsService s c h n → (getStrand t n).park = 0 ∧ (getStrand t n).pc = (getStrand s n).pc ∧ (getStrand t n).x = (getStrand s n).x) ∧
      ((getStrand s n).wait ≠ .vine (BitVec.ofNat 32 h) → (getStrand s n).wait ≠ .release → getStrand t n = getStrand s n))

/-- The RES fields of a service or release queue's header at q are 0 (Table 9.6, R9). -/
def qHeader (s : State) (P : TlbEntry) (q : Nat) : Prop := at_ s P (q + 16) 8 < 32 ∧ ∀ k, 3 ≤ k → k < 8 → at_ s P (q + 8 * k) 8 = 0
/-- Such a queue: HEAD, TAIL and entries; and where its next record goes (R146, R155). LOG2N outside 4 to 16 counts as the nearer end
(DEDUCED, log 66). -/
def qEntries (s : State) (P : TlbEntry) (q : Nat) : Nat := 2 ^ max 4 (min 16 (at_ s P (q + 16) 8 % 32))
def qRoom (s : State) (P : TlbEntry) (q : Nat) : Prop := (at_ s P (q + 8) 8 + 2 ^ 64 - at_ s P q 8) % 2 ^ 64 < qEntries s P q
def qNext (s : State) (P : TlbEntry) (q : Nat) : Nat := q + 0x40 + 32 * (at_ s P (q + 8) 8 % qEntries s P q)

/-- The queue's next entry holds the record and its sequence number, and TAIL counts it. -/
def Pushed (s t : State) (P : TlbEntry) (q : Nat) (r : List Word) : Prop :=
  let n := (at_ s P (q + 8) 8 + 1) % 2 ^ 64
  (∀ k, k < 3 → at_ t P (qNext s P q + 8 * k) 8 = (r.getD k 0).toNat) ∧ at_ t P (qNext s P q + 24) 8 = n ∧ at_ t P (q + 8) 8 = n ∧ at_ t P q 8 = at_ s P q 8

/-- SVCQ_HEAD_POLL and RELQ_HEAD_POLL (R146, R155): a record that waits is put into its queue where there is room, with its event; the
service record's vine has SVC 0 and the number of the record. Without a record, and while the queue's header is not valid, nothing
happens. LOG2N outside 4 to 16 counts as the nearer end, and a header with a RES field that is not 0 is an error of the queue
(DEDUCED, log 66).
An event that is not due changes nothing (the model's choice, log 1). -/
def Polls : Prop := ∀ (s : State) (P : TlbEntry) (c : BitVec 12) (h : BitVec 32) (d : Fin 4) (r : List Word),
  let q := ctxSvcq s c
  let l := ctxRelq s c
  Canonical s → (VineSpace s P ∧ curDie s = 0 ∧ c = s.st.ctx) → r.length = 3 →
  (s.waitSvc = [] → exec (.svcqHeadPoll c) s = .next s) ∧
  (s.waitSvc = [(c, h, r)] → q % 64 = 0 → Inside P q (64 + 32 * 65536) → IsVine s P h.toNat → Apart [(q, 64 + 32 * 65536), descRange s h.toNat] →
    (¬ qHeader s P q → exec (.svcqHeadPoll c) s = .next s) ∧
    (qHeader s P q → qRoom s P q → ∃ t, exec (.svcqHeadPoll c) s = .next t ∧ t.waitSvc = [] ∧ Pushed s t P q r ∧ vineWord t P h.toNat 6 = (at_ s P (q + 8) 8 + 1) % 2 ^ 64 ∧
      vineWord t P h.toNat 4 = vineWord s P h.toNat 4 - (if vineWord s P h.toNat 4 / 8 % 2 = 1 then 8 else 0) ∧ Event s t 0x10 ((r.headD 0).toNat % 256) ∧
      OutsideSame s t P [(q, 64 + 32 * 65536), descRange s h.toNat]) ∧
    (qHeader s P q → ¬ qRoom s P q → ∃ t, exec (.svcqHeadPoll c) s = .next t ∧ t.waitSvc = s.waitSvc ∧ SameMem s t ∧ t.ev = s.ev)) ∧
  (s.waitRel = [(d, c, r)] → l % 64 = 0 → Inside P l (64 + 32 * 65536) →
    (¬ qHeader s P l → exec (.relqHeadPoll c) s = .next (wakeKey s .release)) ∧
    (qHeader s P l → qRoom s P l → ∃ t, exec (.relqHeadPoll c) s = .next t ∧ t.waitRel = [] ∧ Pushed s t P l r ∧ Event s t 0x11 ((r.headD 0).toNat % 256) ∧ OutsideSame s t P [(l, 64 + 32 * 65536)]) ∧
    (qHeader s P l → ¬ qRoom s P l → ∃ t, exec (.relqHeadPoll c) s = .next t ∧ t.waitRel = s.waitRel ∧ SameMem s t ∧ t.ev = s.ev))

/-- VINE, a request at a page pool's home (R133, R137): a count rises below 0xFFFF and falls above 1, and nothing else of memory
changes; a read answers CMTLEN. -/
def VineRequest : Prop := ∀ (s : State) (P : TlbEntry) (c : BitVec 12) (h g : BitVec 32) (b : Nat),
  let a := countAt s P h.toNat g.toNat
  let n := count s P h.toNat g.toNat
  Canonical s → (VineSpace s P ∧ curDie s = 0 ∧ c = s.st.ctx) →
  (OpenVine s P h.toNat b → ∃ t, exec (.vine c h .readCommitted) s = .next t ∧ SameMem s t ∧ t.st = s.st ∧ t.links.answer = natToBytes 4 (cmtLen s P h.toNat)) ∧
  (IsPool s P h.toNat b → Inside P a 2 → a % 2 = 0 →
    (n < 0xFFFF → ∃ t, exec (.vine c h (.countUp g.toNat)) s = .next t ∧ t.st = s.st ∧ Stored s t (P.base + (a - P.vpage)) 2 (n + 1)) ∧
    (1 < n → n < 0xFFFF → ∃ t, exec (.vine c h (.countDown g.toNat)) s = .next t ∧ t.st = s.st ∧ Stored s t (P.base + (a - P.vpage)) 2 (n - 1)) ∧
    (n = 0xFFFF → ∃ t, exec (.vine c h (.countUp g.toNat)) s = .next t ∧ t.st = s.st ∧ SameMem s t))

/-- The focused strand's VIQ holds the one entry e, without a chain bit, and may run: its context RUNNING, its die up. -/
structure Head (s : State) (e : VEntry) : Prop where
  viq   : s.st.viq = [e]
  live  : s.st.resident = true ∧ ctxState s s.st.ctx = 2
  park  : s.st.park = 0
  up    : ∀ d : Fin 4, s.daleel.dies[d.val] = .up
  chain : chainBit e.instr = false
  len   : e.vl = vl s ∧ vl s ≤ 16384
  whole : s.st.passed = 0 ∧ s.st.await = 0 ∧ s.st.yielded = false
  sound : (getCore s (curCore s)).upsets = [] ∧ s.st.bad = [] ∧ e.poison = false

/-- The state without the entry. -/
def served (s : State) : State := { s with st := { s.st with viq := [] } }

/-- The head's operands are those that the registers still hold (R54). -/
def Fresh (s : State) (e : VEntry) : Prop := e.op0 = s.readX (operandRegs e.instr).1 ∧ e.op1 = s.readX (operandRegs e.instr).2

/-- What a vector instruction of chapter 17 does on registers, by its tables above. -/
def effectOf (s : State) (i : Instr) (f : State → State) : Prop :=
  arithEffect s i = some f ∨ unaryEffect s i = some f ∨ fixedEffect s i = some f ∨ specialEffect s i = some f ∨ compareEffect s i = some f ∨
  maskEffect s i = some f ∨ permuteEffect s i = some f ∨ reduceEffect s i = some f ∨ convertEffect s i = some f ∨ attentionEffect s i = some f

/-- The end of a strip from `vstart` for elements of w bits: 8 element groups (R73). -/
def stripStop (s : State) (w : Nat) : Nat :=
  let per := 1024 * laneGroups (getCore s (curCore s)) / w
  (lo s / per + 8) * per

/-- The elements from `vstart` on fit in one strip, be they of 64 bits. -/
def OneStrip (s : State) (w : Nat) : Prop := 0 < laneGroups (getCore s (curCore s)) ∧ vl s ≤ stripStop s w

/-- STRIP_ISSUE (R75): a visit to a strand with an empty VIQ takes its deficit; one to a strand whose head, any instruction on vector
registers or a load or store of them, fits in a strip completes it, and leaves no positive deficit; a longer one of Table 17.4 on a
deficit of one strip commits the elements of that strip, and `vstart` is the next (R73); after a YIELD no strip is issued (log 64). The
next visit is the next strand's.
What a visit does is read from the rules (log 24). -/
def Strips : Prop := ∀ (s : State) (P : TlbEntry) (c : Fin 1024) (e : VEntry) (F : Form),
  let k := getCore s c.val
  let n := 4 * c.val + k.visit.val
  Canonical s →
  ((getStrand s n).viq = [] → ∃ t, exec (.stripIssue c) s = .next t ∧ t.mem = s.mem ∧ getStrand t n = { getStrand s n with deficit := 0, yielded := false } ∧
    (∀ j, j < 4096 → j ≠ n → getStrand t j = getStrand s j) ∧ getCore t c.val = { k with visit := k.visit + 1 }) ∧
  ((getStrand s n).viq ≠ [] → (getStrand s n).yielded = true → ∃ t, exec (.stripIssue c) s = .next t ∧ t.mem = s.mem ∧
    getStrand t n = { getStrand s n with deficit := min (getStrand s n).deficit 0, yielded := false } ∧
    (∀ j, j < 4096 → j ≠ n → getStrand t j = getStrand s j)) ∧
  (s.cur.val = n → Head s e → Fresh s e → 0 < s.st.deficit + (s.st.csr.vshare.toNat * 64 : Nat) →
    (∀ f, effectOf s e.instr f → OneStrip s 64 → ∃ t, exec (.stripIssue c) s = .next t ∧ t.mem = s.mem ∧
      t.st = { (setVstart (f s) 0).st with viq := [], deficit := t.st.deficit } ∧ t.st.deficit ≤ 0 ∧ getCore t c.val = { k with visit := k.visit + 1 }) ∧
    (loadForm s e.instr = some F → F.regs.length = 1 → MemSpace s P 0 → Within s P F → OneStrip s 64 → ∃ t, exec (.stripIssue c) s = .next t ∧ SameMem s t ∧
      t.st = { (loadedIn s P F s).st with viq := [], deficit := t.st.deficit } ∧ t.st.deficit ≤ 0) ∧
    (storeForm s e.instr = some F → F.regs.length = 1 → MemSpace s P (vl s + 8) → Within s P F → OneStrip s 64 → ∃ t, exec (.stripIssue c) s = .next t ∧
      t.st = { (chargedIn s F s).st with viq := [], deficit := t.st.deficit } ∧ t.st.deficit ≤ 0 ∧
      (∀ a, lastAt s P F a = none → memByte t.mem a = memByte s.mem a) ∧
      (∀ p ∈ pairs s F, ∃ q ∈ pairs s F, keyOf P F q = keyOf P F p ∧ ∀ j, j < F.b → memByte t.mem (keyOf P F p + j) = byteOf (valueOf s F q) j)) ∧
    (∀ f m d a r fi ff td ta tb,
      let hi := stripStop s (max td.width (max ta.width tb.width))
      let S := s.modCsr fun x => { x with vl := BitVec.ofNat 64 hi }
      arith e.instr = some (m, d, a, .vv r, fi, ff) → elemType s d = some td → elemType s a = some ta → elemType s r = some tb → 0 < laneGroups k →
      hi < vl s → s.st.deficit + (s.st.csr.vshare.toNat * 64 : Nat) = 1 → arithEffect S e.instr = some f →
      ∃ t, exec (.stripIssue c) s = .next t ∧ t.mem = s.mem ∧ t.st.viq = [e] ∧ t.st.csr.vstart = BitVec.ofNat 64 hi ∧ t.st.v = (f S).st.v ∧
        t.st.x = s.st.x ∧ t.st.csr.fexc = (f S).st.csr.fexc ∧ t.st.deficit ≤ 0))

/-- The instruction has one engine strip left (R121, R329). -/
def lastStrip (s : State) (i : Instr) : Prop :=
  let g := 1024 * laneGroups (getCore s (curCore s))
  let n := order s
  match i with
  | .tzero _ | .trowmv _ _ _ _ | .tcolmv _ _ _ _ | .dupd _ _ _ => True
  | .dzero x => n ≤ lo s + 4096 + (offA (s.readX x)).natAbs
  | .dxtr _ _ _ _ => vl s ≤ lo s + 4096
  | .dmv d _ _ _ | .dmvM d _ _ _ | .dpiv _ d _ => ∃ t, elemType s d = some t ∧ vl s ≤ lo s + g / t.width
  | .dmac a _ _ | .dmacD a _ _ | .dmacg a _ _ => ∃ t, elemType s a = some t ∧ n ≤ lo s + 32768 / t.width
  | .tmma _ _ _ => 4 * ((vl s / 64 + 7) / 8) ≤ lo s + 1
  | _ => False

/-- ENGINE_STRIP (R78): the owner of the current slot uses the engine for the instruction at its head: with its last strip it leaves
what the instruction leaves on an empty VIQ (TZERO, a cleared tile), and the strand was served last; where no strand of the core has an
engine instruction, nothing happens.
An event that is not due changes nothing (the model's choice, log 1). What a strip is, is read from the rules (log
24). -/
def EngineStrip : Prop := ∀ (s : State) (c : Fin 1024) (e : VEntry) (j : Fin 4) (t : TReg),
  let k := getCore s c.val
  Canonical s → s.cur.val = 4 * c.val + j.val → wordOwner k.slotNow = some j →
  (Head s e → e.instr = .tzero t → TileOk (served s) (.tzero t) t → ∃ u, exec (.engineStrip c) s = .next u ∧ u.mem = s.mem ∧ u.st.viq = [] ∧
    u.st.x = s.st.x ∧ u.st.v = s.st.v ∧ u.st.pc = s.st.pc ∧ u.st.csr.tstat = tileState s t true true ∧ (getCore u c.val).served = j ∧
    ∀ q, accWord u q = if tileAt s t.val ≤ q ∧ q < tileAt s t.val + 4096 then 0 else accWord s q) ∧
  (∀ u, Head s e → Fresh s e → HasEngine (served s) e.instr → lastStrip s e.instr → exec e.instr (served s) = .next u → u.st.viq = [] →
    u.st.trap = s.st.trap → ∃ w, exec (.engineStrip c) s = .next w ∧ w.mem = u.mem ∧ w.poison = u.poison ∧ (getCore w c.val).served = j ∧
      w.st = { u.st with pc := s.st.pc, dogRan := s.st.dogRan, dogFrom := s.st.dogFrom, csr := { u.st.csr with retired := s.st.csr.retired } }) ∧
  ((∀ i : Fin 4, ∀ x ∈ (getStrand s (4 * c.val + i.val)).viq, needsEngine x.instr = false) → exec (.engineStrip c) s = .next s)

/-- A strand that wakes: it runs its instruction again, and its watchdog counts on (R60, R87). -/
def awake (s : State) (u : Strand) : Strand := { u with park := 0, wait := .none, dogFrom := if u.park ≠ 0 then s.cycle else u.dogFrom }

/-- SLOT_BOUNDARY (R77): the next slot of the core begins; the strand that owns it and waits for it wakes with its number. -/
def SlotTurn : Prop := ∀ (s : State) (c : Fin 1024),
  let k := getCore s c.val
  let i := k.curSlot + 1
  Canonical s → ∃ t, exec (.slotBoundary c) s = .next t ∧ t.mem = s.mem ∧ getCore t c.val = { k with curSlot := i, slotNow := k.slots[i] } ∧
    ∀ n, n < 4096 → getStrand t n =
      if slotOwner k i = some (Fin.ofNat 4 n) ∧ n / 4 = c.val ∧ (getStrand s n).wait = .slot
      then { awake s (getStrand s n) with slotWoke := some i } else getStrand s n

/-- The strides and extents of a layout held in a VIQ entry's register. -/
def layout (s : State) (b : VReg) : List (Int × Nat) := dims s b

/-- COPY_ACCEPT (R162): the channel takes the XCOPY at the head with its addresses and layout; a channel with 16 commands takes none. -/
def CopyAccept : Prop := ∀ (s : State) (P Q : TlbEntry) (e : VEntry) (z : Sz) (h : Lane4) (o : Ord) (d a : XReg) (b : VReg),
  let w := stWidth z
  let n := extent (dims s b)
  let busy := (getCore s (curCore s)).commands
  Canonical s → CopySpace s P Q 8 → Head s e → e.instr = .xcopy false z h o d a b → 4 ≤ d.val → 1 ≤ vl s → vl s ≤ 8 →
  elemType s b = some (.int 64 true) → e.op0.toNat % w = 0 → e.op1.toNat % w = 0 → Inside Q (e.op0.toNat % 2 ^ 48) (max 1 (n * w)) →
  ((busy.filter fun m => m.chan = h).length < 16 → ∃ t m, exec (.copyAccept s.cur) s = .next t ∧ t.mem = s.mem ∧
    t.st = (setVstart (served s) 0).st ∧ (getCore t (curCore s)).commands = busy ++ [m] ∧ m.strand = s.cur.val ∧ m.ctx = s.st.ctx ∧ m.chan = h ∧
    m.ord = o ∧ m.kind = .xcopy false w (e.op0.truncate 48) (e.op1.truncate 48) none (dims s b) ∧ m.begun = false ∧ m.next = 0) ∧
  (16 ≤ (busy.filter fun m => m.chan = h).length → ∃ t, exec (.copyAccept s.cur) s = .next t ∧ t.mem = s.mem ∧ t.st = s.st ∧
    (getCore t (curCore s)).commands = busy)

/-- The one command of the focused strand's core, an XCOPY from memory to addresses or to a ring. -/
structure OneCopy (s : State) (P Q : TlbEntry) (m : Command) (w : Nat) (dst src : VAddr) (r : Option SReg) (l : List (Int × Nat)) : Prop where
  alone  : (getCore s (curCore s)).commands = [m]
  owner  : m.strand = s.cur.val ∧ m.ctx = s.st.ctx ∧ ∀ T ∈ m.pages, T = P ∨ T = Q
  kind   : m.kind = .xcopy false w dst src r l
  width  : w = 1 ∨ w = 2 ∨ w = 4 ∨ w = 8
  landed : ¬ CopyOut s s.cur.val

/-- COPY_EXECUTE (R161, R163): a command that was accepted moves its elements in packed order and leaves its channel. RING_WRITE_RESUME
(R166): one that waited for its ring writes the rest of its elements, and ARRIVED counts them all. -/
def CopyRuns : Prop := ∀ (s : State) (P Q : TlbEntry) (m : Command) (w : Nat) (dst src : VAddr) (c : Fin 1024) (l : List (Int × Nat)),
  let n := extent l
  let from_ (q : Nat) := (src + BitVec.ofInt 48 (offset l q)).toNat
  let to_ (q : Nat) := (dst + BitVec.ofNat 48 (q * w)).toNat
  let S (q : Nat) := P.base + (from_ q - P.vpage)
  let D (q : Nat) := Q.base + (to_ q - Q.vpage)
  Canonical s → CopySpace s P Q (2 * n + 8) → c.val = curCore s → (∀ q, q < n → Inside P (from_ q) w ∧ from_ q % w = 0) →
  (OneCopy s P Q m w dst src none l → m.begun = false → m.next = 0 → (∀ q, q < n → Inside Q (to_ q) w ∧ to_ q % w = 0) →
    ∃ t, exec (.copyExecute c m.chan 0) s = .next t ∧ t.st = s.st ∧ (getCore t (curCore s)).commands = [] ∧
      ∀ k, memByte t.mem k = match ((List.range n).filter fun q => decide (D q ≤ k ∧ k < D q + w)).getLast? with
        | some q => memByte s.mem (S q + (k - D q))
        | none => memByte s.mem k) ∧
  (∀ d : SReg,
    let r := s.st.streams[d.val]
    let ring := Config.spadBase + curCore s * Config.spadBytes + r.rbase.toNat
    OneCopy s P Q m w dst src (some d) l → m.begun = true → m.next ≤ n → r.kind = 1 → 4096 ≤ r.rsize.toNat → r.rsize.toNat % 512 = 0 →
    r.rbase.toNat + r.rsize.toNat ≤ Config.spadBytes → r.consumed.toNat ≤ m.base.toNat → m.base.toNat + n * w ≤ r.consumed.toNat + r.rsize.toNat →
    r.consumed.toNat + r.rsize.toNat < 2 ^ 64 → (P.base + P.size ≤ ring ∨ ring + r.rsize.toNat ≤ P.base) →
    ∃ t, exec (.ringWriteResume c m.chan 0) s = .next t ∧ (getCore t (curCore s)).commands = [] ∧
      t.st = (putStream s d { r with arrived := m.base + BitVec.ofNat 64 (n * w) }).st ∧
      (∀ j, m.next * w ≤ j → j < n * w → memByte t.mem (ringByte s r (m.base.toNat + j)) = memByte s.mem (S (j / w) + j % w)) ∧
      (∀ k, (∀ j, m.next * w ≤ j → j < n * w → k ≠ ringByte s r (m.base.toNat + j)) → memByte t.mem k = memByte s.mem k))

/-- CHAIN_GROUP_DELIVERY (R167): the first element group of the XCHAIN at the head reaches the binding. -/
def ChainGroup : Prop := ∀ (s : State) (e : VEntry) (a : VReg) (b : XReg) (t : Elem),
  let n := e.op0.toNat % 2 ^ 12
  let q := e.op0.toNat / 2 ^ 12 % 4
  let r := (getStrand s n).streams[q]
  let k := min (128 * laneGroups (getCore s (curCore s)) / t.bytes) (vl s)
  Canonical s → Head s e → e.instr = .xchain a b → elemType s a = some t → n ≠ s.cur.val → (getStrand s n).resident = true → (getStrand s n).ctx = s.st.ctx →
  r.kind = 2 → r.peer.toNat = s.cur.val → r.msgs = [] → s.st.csr.vstart = 0 → 0 < vl s → 0 < k →
  ∃ u m, exec (.chainGroupDelivery s.cur) s = .next u ∧ u.mem = s.mem ∧ (getStrand u n).streams[q].msgs = [m] ∧ m.width = t.bytes ∧ m.total = vl s ∧ m.sent = k ∧
    m.data = (List.range k).flatMap (fun j => natToBytes t.bytes (elemAt s a t.bytes j)) ∧
    (getStrand u n).streams[q].arrived = r.arrived + BitVec.ofNat 64 (k * t.bytes) ∧ u.st.x = s.st.x ∧ u.st.v = s.st.v ∧
    (k < vl s → u.st.viq = [e] ∧ u.st.csr.vstart = BitVec.ofNat 64 k) ∧ (k = vl s → u.st.viq = [] ∧ u.st.csr.vstart = 0)

/-- TILE_TRANSFER_END (R125) of the one TSAVE in flight of a VALID tile: its image is stored, and the tile is clean and no longer in
transfer.
Errors and poison of transfers are read from the rules (log 38). -/
def TransferEnd : Prop := ∀ (s : State) (P : TlbEntry) (t : TReg) (va : VAddr),
  let base := P.base + (va.toNat - P.vpage)
  Canonical s → MemSpace s P 136 → va.toNat % 64 = 0 → Inside P va.toNat 0x4000 → s.st.accum.flight = [{ tile := t, save := true, va := va, pages := [P] }] →
  s.st.accum.poison = [] → s.st.csr.tstat.getLsbD (3 * t.val) = true → ∃ u, exec (.tileTransferEnd s.cur t) s = .next u ∧ u.st.accum.flight = [] ∧
    u.st.csr.tstat = tileState s t true false ∧ u.st.accum.words = s.st.accum.words ∧ u.st.x = s.st.x ∧ u.st.v = s.st.v ∧
    ∀ q, memByte u.mem q = if base ≤ q ∧ q < base + 0x4000 then byteOf (accWord s (tileAt s t.val + (q - base) / 4)).toNat ((q - base) % 4)
      else memByte s.mem q

/-- VWAIT_TIMEOUT (R322): a VWAIT at the head whose time is up, with its condition unmet, writes 1 to the register after its base and
acquires. WAITEV_DEADLINE (R356): a strand whose deadline has passed wakes, and no other.
An event that is not due changes nothing (the model's choice, log 1). -/
def Deadlines : Prop := ∀ (s : State) (P : TlbEntry) (e : VEntry) (x : WideScope) (q : WaitCond) (m : Bool) (g : Lane4) (v ix : VReg) (b : XReg) (t : Elem) (f : Nat → VAddr)
    (c : Word) (n : Fin 4096),
  let F : Form := ⟨m, [v], t.bytes, fun k _ => f k, indexWidth s ix⟩
  let holds (p : Nat × Nat) : Prop :=
    let y := intOf t (number s (keyOf P F p) t.bytes)
    let z := intOf t (valueOf s F p)
    match q with | .eq => y = z | .ne => y ≠ z | .ge => y ≥ z | .lt => y < z
  let lim := e.op1.toNat % 2 ^ 32 * 1024
  let u := getStrand s n.val
  Canonical s →
  (Head s e → e.instr = .vwait x q m g v b ix → elemType s v = some t → t.isInt = true → index s v ix e.op0 t.bytes = some f → MemSpace s P 0 → Within s P F →
    (∃ p ∈ pairs s F, ¬ holds p) → e.since = some c → 0 < lim → lim ≤ (s.cycle - c).toNat → ∀ hb : b.val < 31,
    ∃ w, exec (.vwaitTimeout s.cur) s = .next w ∧ SameMem s w ∧ w.st.viq = [] ∧ w.st.x = s.st.x.set (b.val + 1) 1 (by omega) ∧ w.st.park = 0 ∧ (getCore w (curCore w)).l1 = []) ∧
  (∀ d, u.wait = .timer d → d.toNat ≤ s.cycle.toNat → ∃ w, exec (.waitevDeadline n) s = .next w ∧ w.mem = s.mem ∧
    getStrand w n.val = awake s u ∧ ∀ j, j < 4096 → j ≠ n.val → getStrand w j = getStrand s j) ∧
  (∀ d, u.wait = .timer d → s.cycle.toNat < d.toNat → exec (.waitevDeadline n) s = .next s)

end Sys2Proof.Claims

namespace Sys2Proof.Claims
open Sys2Proof.Machine

/-! ## Routines (chapter 10), pages (chapter 11) -/

/-- Of the machine, nothing but the press units may differ. -/
def OnlyPress (s t : State) : Prop := t = { s with press := t.press }

/-- Why an image at a is refused, in the order of Table 10.4, or 0. -/
def imageReason (s : State) (a : Nat) : Nat :=
  let d (k : Nat) := number s (a + 8 * k) 8
  let all := memRead s.mem a (64 + d 1)
  if d 0 ≠ 0x52584E4B then 1
  else if 65536 < d 1 then 2
  else if Config.signatureGood s.daleel.routineKey all (memRead s.mem (a + 64 + d 1) 64) = false then 3
  else if d 3 ≠ 1 then 4
  else 0

/-- ROUTINE_LOAD, ROUTINE_UNLOAD and ROUTINE_LOAD_DONE (R170): a write to RTCMD starts a load, or empties a slot that no accepted
command names;
while STATE is busy, or while the host port does not answer (R374, R375), it does nothing. A load ends with the image in its slot, or
with the slot empty and the reason. An unload that a command holds up is done when the command ends (log 56). -/
def RoutineSlots : Prop := ∀ (s : State) (v : Word),
  let k : Fin 64 := Fin.ofNat 64 v.toNat
  let idle (k : Fin 64) : Prop := (∀ e ∈ s.press.engines, e.2.slot ≠ k) ∧ ∀ c ∈ s.cores, ∀ m ∈ c.2.commands, usesSlot k m = false
  let a := s.press.rtaddr.toNat
  let n := number s (a + 8) 8
  (s.press.stat = 1 ∨ ¬ Serves s → exec (.routineLoad v) s = .next s ∧ exec (.routineUnload v) s = .next s) ∧
  (Serves s → s.press.stat ≠ 1 → exec (.routineLoad v) s = .next { s with press := { s.press with slot := k, stat := 1, reason := 0, unload := false } }) ∧
  (Serves s → s.press.stat ≠ 1 → idle k → ∃ t, exec (.routineUnload v) s = .next t ∧ OnlyPress s t ∧ t.press.stat = 0 ∧ t.press.engines = s.press.engines ∧
    (sparseWf ([] : List Byte) s.press.slots = true → ∀ j, sget [] t.press.slots j = if j = k.val then [] else sget [] s.press.slots j)) ∧
  (Serves s → s.press.stat ≠ 1 → ¬ idle k → exec (.routineUnload v) s = .next { s with press := { s.press with slot := k, stat := 1, reason := 0, unload := true } }) ∧
  (s.press.stat = 1 → s.press.unload = false → idle s.press.slot → a + 128 + 65536 ≤ Config.gddrEnd →
    s.poison = [] → (∀ v ∈ s.lines.vat, v.2.poison = false) → (∀ d : Fin 4, s.daleel.dies[d.val] = .up) →
    sparseWf ([] : List Byte) s.press.slots = true →
    ∃ t, exec .routineLoadDone s = .next t ∧ OnlyPress s t ∧ t.press.reason.toNat = imageReason s a ∧ t.press.stat = (if imageReason s a = 0 then 2 else 3) ∧
      ∀ j, sget [] t.press.slots j = if j = s.press.slot.val then (if imageReason s a = 0 then memRead s.mem a (64 + n) else []) else sget [] s.press.slots j)

/-- Engine e runs a routine for the one command of the focused strand's core. -/
structure Routine (s : State) (P : TlbEntry) (e : Fin 64) (g : Machine.Engine) (m : Command) : Prop where
  only   : s.press.engines = [(e.val, g)]
  owner  : g.core = curCore s ∧ m.num = g.num ∧ m.strand = s.cur.val ∧ m.ctx = s.st.ctx
  pages  : m.pages = [] ∨ m.pages = [P]
  alone  : (getCore s (curCore s)).commands = [m]
  kind   : ∃ k b, m.kind = .xxform k b
  fresh  : g.moved = 0
  table  : sparseWf (0 : Byte) g.mem = true

/-- A read of one of strand n's copies at the host or at a peer has no answer yet (R234). -/
def ReadOut (s : State) (n : Nat) : Prop :=
  (∃ r ∈ s.links.hostReads, r.strand = n ∧ r.copy = true) ∨ ∃ m k, OnWire s m ∧ m.strand = n ∧ m.copy = true ∧ m.op = .read k

/-- [loc, loc + n) lies in the stream buffers or in the stack of the routine (Table 10.5). -/
def LocalData (loc n : Nat) : Prop := (0x10000000 ≤ loc ∧ loc + n ≤ 0x10010000) ∨ (0x20000000 ≤ loc ∧ loc + n ≤ 0x20004000)

/-- The routine has ended with a status: it stands in the block's last dword, the engine is free and keeps its memories, and the command
has left its channel. -/
def Ended (s t : State) (P : TlbEntry) (e : Fin 64) (g : Machine.Engine) (v : Word) : Prop :=
  t.st = s.st ∧ t.press.engines = [] ∧ (∀ j, sget [] t.press.stores j = if j = e.val then g.mem else sget [] s.press.stores j) ∧
  (getCore t (curCore s)).commands = [] ∧ Stored s t (keyAt P (g.block.toNat + 0x38)) 8 v.toNat

/-- The services of a routine (R171): reads and writes between memory and its own memories, which answer 0 in a0; the wait; its return,
whose status is stored; its time limit, whose status is all ones; and an access outside its memories, which ends it.
The edges of the services are read from the rules (log 40), and the wait is for the strand's copies (log 97). -/
def RoutineServices : Prop := ∀ (s : State) (P : TlbEntry) (e : Fin 64) (g : Machine.Engine) (m : Command) (va : VAddr) (loc n : Nat) (a0 : Word),
  Canonical s → MemSpace s P (n + 8) → Routine s P e g m → sparseWf ([] : List (Nat × Byte)) s.press.stores = true →
  (LocalData loc n → Inside P va.toNat n → ∃ t g', exec (.ecallRead e va loc n) s = .next t ∧ SameMem s t ∧ t.st = s.st ∧ t.press.engines = [(e.val, g')] ∧
    g' = { g with mem := g'.mem, a0 := 0 } ∧ ∀ q, sget 0 g'.mem q = if loc ≤ q ∧ q < loc + n then memByte s.mem (keyAt P va.toNat + (q - loc)) else sget 0 g.mem q) ∧
  (LocalData loc n → Inside P va.toNat n → ∃ t, exec (.ecallWrite e va loc n) s = .next t ∧ t.st = s.st ∧ t.press.engines = [(e.val, { g with a0 := 0 })] ∧
    ∀ q, memByte t.mem q = if keyAt P va.toNat ≤ q ∧ q < keyAt P va.toNat + n then sget 0 g.mem (loc + (q - keyAt P va.toNat)) else memByte s.mem q) ∧
  (¬ CopyOut s s.cur.val → ¬ ReadOut s s.cur.val →
    ∃ t, exec (.ecallWait e) s = .next t ∧ t.press.engines = [(e.val, { g with a0 := 0 })] ∧ t.mem = s.mem ∧ t.st = s.st) ∧
  (CopyOut s s.cur.val ∨ ReadOut s s.cur.val → exec (.ecallWait e) s = .next s) ∧
  (¬ CopyOut s s.cur.val → g.block.toNat % 64 = 0 → Inside P g.block.toNat 64 →
    (∃ t, exec (.routineReturn e a0) s = .next t ∧ Ended s t P e g a0) ∧
    (∃ t, exec (.routineTimeout e) s = .next t ∧ Ended s t P e g (BitVec.allOnes 64)) ∧
    (0 < n → 0x20004000 < loc + n → ∃ t, exec (.ecallRead e va loc n) s = .next t ∧ Ended s t P e g 0xFFFFFFFFFFFFFFFE))

/-- The page command unit acts for context c on the page of an address: the tables' word at pa maps it; nothing is in error, and no
access through it is out. -/
structure PageUnit (s : State) (c : BitVec 12) (va : Nat) (large : Bool) (pa e : Nat) : Prop where
  entry  : pageEntry s c va large = some (pa, e)
  room   : s.lines.tags.length + 8 ≤ Config.l2Tags ∧ s.lines.vat.length + 8 ≤ Config.vatEntries
  place  : pa % 8 = 0 ∧ pa + 8 ≤ Config.gddrEnd
  idle   : s.pages.stat ≠ 1 ∧ s.pages.move = none ∧ s.pages.pend = none
  still  : s.watches = [] ∧ (∀ k ∈ s.cores, k.2.commands = []) ∧ (∀ p ∈ s.links.ports, p.2.waiting = []) ∧ s.links.outbox = [] ∧ s.links.hostLate = [] ∧
    s.links.hostReads = []
  tiles  : s.st.accum.flight = [] ∧ ∀ t ∈ s.others, t.2.accum.flight = []
  noLog  : NoLog s
  steady : e / 2 ^ 53 % 4 ≠ 1

/-- No line of the page is cached: none at all, or none that is dirty or pinned, with the entry outside the page. -/
def Uncached (s : State) (e : Nat) (large : Bool) : Prop := ∀ t ∈ s.lines.tags, t.line + 128 ≤ entryBase e ∨ entryBase e + pageBytes large ≤ t.line
def CleanPage (s : State) (pa e : Nat) (large : Bool) : Prop :=
  (∀ t ∈ s.lines.tags, t.line < entryBase e + pageBytes large → entryBase e < t.line + 128 → t.dirty = none ∧ t.pin = none) ∧
    (pa / 128 * 128 + 128 ≤ entryBase e ∨ entryBase e + pageBytes large ≤ pa / 128 * 128)

/-- [a, a + n) lies in GDDR-7 or in the cellar (Table 11.2). -/
def InTiers (a n : Nat) : Prop := a + n ≤ Config.gddrEnd ∨ (Config.cellarBase ≤ a ∧ a + n ≤ Config.cellarEnd)

/-- No core holds a line of the page in its L1, and the L2 none. -/
def Gone (t : State) (e : Nat) (large : Bool) : Prop :=
  Uncached t e large ∧ ∀ k, ∀ l ∈ (getCore t k).l1, l.size = 0 → l.addr + 128 ≤ entryBase e ∨ entryBase e + pageBytes large ≤ l.addr
/-- The command is over with a reason: PGSTAT shows it (R180), and event 0x12 is posted. -/
def PageOver (s t : State) (r : Nat) : Prop :=
  t.pages.stat = (if r = 0 then 2 else 3) ∧ t.pages.reason.toNat = r ∧ t.pages.pend = none ∧ Event s t 0x12 r ∧ t.st = s.st

/-- No TLB of the device holds a translation of the page (R182). -/
def Shot (t : State) (c : BitVec 12) (vpage n : Nat) : Prop :=
  (∀ x ∈ t.lines.tlb, x.2.ctx = c → x.2.vpage + x.2.size ≤ vpage ∨ vpage + n ≤ x.2.vpage) ∧
  ∀ k, ∀ x ∈ (getCore t k).tlb, x.ctx = c → x.vpage + x.size ≤ vpage ∨ vpage + n ≤ x.vpage

/-- PAGE_UNMAP, PAGE_UPDATE and PAGE_MOVE (R181 to R185): their effects on the entry, and their refusals. A busy unit takes no command,
nor does one while the host port does not answer (R374, R375); an UPDATE that changes DEDUP and an UNMAP first let the page's lines go;
an OP that is none is refused with REASON 7, a page without an entry with REASON 2, where a malformed entry on the way has posted
event 0x14 (R174).
The order of the refusals is read from the rules (log 48). -/
def PageCommands : Prop := ∀ (s : State) (v : Word) (pa e : Nat),
  let c : BitVec 12 := v.truncate 12
  let large := v.getLsbD 16
  let n := pageBytes large
  let vpage := s.pages.pgva.toNat / n * n
  let arg := s.pages.pgarg.toNat
  let new := arg / 2 ^ 55 % 2 ^ 9 * 2 ^ 55 + arg / 2 ^ 16 % 2 ^ 32 * 2 ^ 16 + (e / 2 ^ 48 % 2 ^ 7 * 2 ^ 48 + e % 2 ^ 16)
  let dst := arg / 2 ^ 16 % 2 ^ 32 * 2 ^ 16
  (s.pages.stat = 1 ∨ ¬ Serves s → exec (.pageUpdate v) s = .next s ∧ exec (.pageUnmap v) s = .next s ∧ exec (.pageMove v) s = .next s) ∧
  (Serves s → s.pages.stat ≠ 1 → linePoisoned s (descAddr s c) = false → (v.toNat / 2 ^ 12 % 16 = 0 ∨ 3 < v.toNat / 2 ^ 12 % 16 → ∃ t, exec (.pgcmdBadOp v) s = .next t ∧ PageOver s t 7 ∧ t.mem = s.mem) ∧
    (∀ z, s.pages.move = none → pageWalk s c vpage large = .error z → ∃ t u w, exec (.pageUpdate v) s = .next t ∧ exec (.pageUnmap v) s = .next u ∧
      exec (.pageMove v) s = .next w ∧ t.mem = s.mem ∧ u.mem = s.mem ∧ w.mem = s.mem ∧
      let s' := match z with
        | .malformed a => postEvent s 0x14 1 c (c.zeroExtend 64) (BitVec.ofNat 64 a)
        | .unread a => postEvent s 0x17 3 c 0 (BitVec.ofNat 64 a)
        | .absent => s
      PageOver s' t 2 ∧ PageOver s' u 2 ∧ PageOver s' w 2)) ∧
  (Canonical s → Serves s → PageUnit s c vpage large pa e →
    (CleanPage s pa e large → ∃ t, exec (.pageUnmap v) s = .next t ∧ PageOver s t 0 ∧ Stored s t pa 8 (e - 2 ^ 63) ∧ Shot t c vpage n ∧ Gone t e large) ∧
    (CleanPage s pa e large → new / 2 ^ 63 = 1 → pageOk s new n = true → entryFrame new = entryFrame e → entryTier new = entryTier e → entryBit new 57 = entryBit e 57 →
      entryBit new 58 ≠ entryBit e 58 → ∃ t, exec (.pageUpdate v) s = .next t ∧ PageOver s t 0 ∧ Stored s t pa 8 new ∧ Shot t c vpage n ∧ Uncached t e large) ∧
    (Uncached s e large → new / 2 ^ 63 = 1 → pageOk s new n = true → entryFrame new = entryFrame e → entryTier new = entryTier e → entryBit new 57 = entryBit e 57 →
      entryBit new 58 = entryBit e 58 → ∃ t, exec (.pageUpdate v) s = .next t ∧ PageOver s t 0 ∧ Stored s t pa 8 new ∧ Shot t c vpage n) ∧
    (new / 2 ^ 63 = 0 → ∃ t, exec (.pageUpdate v) s = .next t ∧ PageOver s t 3 ∧ t.mem = s.mem) ∧
    (Uncached s e large → pinCount s c vpage large e = 0 → entryTier e < 2 → entryBit e 57 = false → dst % n = 0 → dst ≠ entryFrame e → InTiers dst n →
      ∃ t, exec (.pageMove v) s = .next t ∧ PageOver s t 0 ∧ Stored s t pa 8 (e - e / 2 ^ 53 % 4 * 2 ^ 53 + 2 ^ 53) ∧ Shot t c vpage n ∧
        t.pages.move = some { ctx := c, vpage := vpage, large := large, entry := pa, word := e, src := entryFrame e, dst := dst }) ∧
    (pinCount s c vpage large e ≠ 0 → entryTier e < 2 → entryBit e 57 = false → dst % n = 0 → dst ≠ entryFrame e → InTiers dst n →
      ∃ t, exec (.pageMove v) s = .next t ∧ PageOver s t 1 ∧ t.mem = s.mem))

/-- MOVE_COMPLETE (R185, R186): the page's content stands at the destination, its entry names it and its tier with MOVE 0, no TLB holds the old
translation, and event 0x19 is posted; without a move, nothing happens.
An event that is not due changes nothing (the model's choice, log 1). -/
def MoveEnds : Prop := ∀ (s : State) (m : Move),
  let n := pageBytes m.large
  let e := m.word
  let new := e - entryFrame e - e / 2 ^ 55 % 4 * 2 ^ 55 - e / 2 ^ 53 % 4 * 2 ^ 53 + m.dst + (if m.dst + n ≤ Config.gddrEnd then 0 else 2 ^ 55)
  (s.pages.move = none → exec .moveComplete s = .next s) ∧
  (Canonical s → s.pages.move = some m → s.lines.tags = [] → s.lines.vat = [] → s.watches = [] → m.src = entryFrame e → InTiers m.dst n → InTiers m.src n →
    m.dst % n = 0 → m.src % n = 0 → m.dst ≠ m.src → m.entry % 8 = 0 → m.entry + 8 ≤ Config.gddrEnd → (m.entry + 8 ≤ m.src ∨ m.src + n ≤ m.entry) →
    (m.entry + 8 ≤ m.dst ∨ m.dst + n ≤ m.entry) → ∃ t, exec .moveComplete s = .next t ∧ t.pages.move = none ∧ Event s t 0x19 0 ∧ t.st.x = s.st.x ∧
      number t m.entry 8 = new % 2 ^ 64 ∧ Shot t m.ctx m.vpage n ∧
      ∀ q, (m.entry + 8 ≤ q ∨ q < m.entry) → memByte t.mem q = if m.dst ≤ q ∧ q < m.dst + n then memByte s.mem (q - m.dst + m.src) else memByte s.mem q)

/-- The segments that the collector may take (R190): neither the head's nor free, and live below the threshold. -/
def Collectable (r : Region) (g : Nat) : Prop :=
  g < r.clsegs.toNat ∧ g ≠ r.head / headUnit ∧ r.free.contains g = false ∧ sget 0 r.live g * 16 < r.clctl.toNat % 16 * segSectors

/-- COLLECTOR_RUN (R190) on a region in use frees the segment with the least live data, lowest first among equals (the model's choice, log 91); a write to CLSEGS
(R188) of a region in use may only add segments, and is dropped while the host port does not answer (R374, R375). Neither changes memory outside the block map.
An event that is not due changes nothing (the model's choice, log 1). -/
def Collector : Prop := ∀ (s : State) (p : Fin 8) (v : Word) (g : Nat),
  let r := getRegion s p.val
  let x := v.toNat % 2 ^ 32
  (regionOn r = false → exec (.collectorRun p) s = .next s) ∧
  (Canonical s → regionOn r = true → s.lines.tags = [] → s.lines.vat = [] → s.watches = [] → Collectable r g → (∀ h, Collectable r h → sget 0 r.live g < sget 0 r.live h ∨
      (sget 0 r.live g = sget 0 r.live h ∧ g ≤ h)) → r.free ≠ [] ∨ r.head % headUnit + sget 0 r.live g ≤ segSectors →
      r.clmap.toNat % 8 = 0 → r.clmap.toNat + 8 * r.clblks.toNat ≤ Config.gddrEnd → r.clblks.toNat ≤ 2048 → sparseWf 0 r.live = true →
    ∃ t, exec (.collectorRun p) s = .next t ∧ (getRegion t p.val).free.contains g = true ∧ sget 0 (getRegion t p.val).live g = 0 ∧
      ∀ q, (q < r.clmap.toNat ∨ r.clmap.toNat + 8 * r.clblks.toNat ≤ q) → memByte t.mem q = memByte s.mem q) ∧
  (¬ Serves s → exec (.clsegsWrite p v) s = .next s) ∧
  (Serves s → ∃ t, exec (.clsegsWrite p v) s = .next t ∧ t.mem = s.mem ∧ (getRegion t p.val).clsegs.toNat = (if regionOn r = true ∧ x ≤ r.clsegs.toNat then r.clsegs.toNat else x))

/-- WALK_COMPLETE (R177, R178): the last-level TLB of a die takes the translation of an address it does not hold; an address without a
mapping leaves it as it is. The accesses that joined a walk (R178) wait no more, and those that joined one without a mapping take
cause 0x04 (R176). -/
def WalkEnds : Prop := ∀ (s : State) (d : Fin 4) (c : BitVec 12) (va : VAddr) (a e : Nat) (large : Bool),
  let n := pageBytes large
  let T : TlbEntry := { ctx := c, vpage := va.toNat / n * n, large := large, base := entryBase e, r := entryBit e 61, w := entryBit e 60, p := entryBit e 59, dedup := entryBit e 58, comp := entryBit e 57, tier := BitVec.ofNat 2 (e / 2 ^ 55 % 4), moving := decide (e / 2 ^ 53 % 4 = 1) }
  let joined (m : Miss) : Prop := m.die = d ∧ m.ctx = c ∧ m.page = va.toNat / 2 ^ 16
  NoLog s → tablePlace (ctxRoot s c) 0x8000 = true → ((∃ m ∈ s.lines.misses, joined m) → ∃ m ∈ (s.lines.misses.filter fun m => decide (m.die = d)).take 64, joined m) → (∀ x ∈ s.lines.tlb, x.1 = d → x.2.maps c va.toNat = false) → (∀ d : Fin 4, s.daleel.dies[d.val] = .up) → s.poison = [] → (∀ v ∈ s.lines.vat, v.2.poison = false) →
  (pageEntry s c va.toNat large = some (a, e) → pageOk s e n = true → (s.lines.tlb.filter fun x => decide (x.1 = d)).length < Config.dieTlb →
    ∃ t, exec (.walkComplete d c va) s = .next t ∧ t.lines.tlb = (d, T) :: s.lines.tlb ∧ t.st = s.st ∧ t.cores = s.cores ∧ t.lines.missed = s.lines.missed ∧
      t.lines.misses = s.lines.misses.filter fun m => decide (¬ (m.die = d ∧ m.ctx = c ∧ (m.page = va.toNat / 2 ^ 16 ∨ (large = true ∧ m.page / 2 ^ 10 = va.toNat / 2 ^ 26))))) ∧
  (memNat s.mem (ctxRoot s c + 8 * (va.toNat / 2 ^ 36 % 4096)) 8 / 2 ^ 63 = 0 →
    ∃ t, exec (.walkComplete d c va) s = .next t ∧ t.lines.tlb = s.lines.tlb ∧ t.st = s.st ∧ t.cores = s.cores ∧ t.ev = s.ev ∧
      t.lines.misses = (s.lines.misses.filter fun m => decide (¬ joined m)) ∧
      ∀ m ∈ s.lines.misses, joined m → ∀ who ∈ m.waiters, { who, die := d, ctx := c, page := m.page, cause := 0x04 } ∈ t.lines.missed)

end Sys2Proof.Claims

namespace Sys2Proof.Claims
open Sys2Proof.Machine

/-! ## Requests at the homes, and the slices' own work (chapter 12) -/

/-- A home that nothing keeps from answering: every die up, nothing in error, held or watched, with room for n more lines. -/
structure Calm (s : State) (n : Nat) : Prop where
  up    : ∀ d : Fin 4, s.daleel.dies[d.val] = .up
  sound : s.poison = [] ∧ ∀ v ∈ s.lines.vat, v.2.poison = false
  quiet : s.watches = []
  still : s.pages.move = none
  noLog : NoLog s
  room  : s.lines.vat.length + n ≤ Config.vatEntries ∧ s.lines.tags.length + n ≤ Config.l2Tags

/-- Address and bytes of the elements of a request (Table 12.3), all in GDDR-7. -/
def elem (h : Header) (k : Nat) : Nat := ((h.base.toNat : Int) + k * h.stride.toInt).toNat
def elemBytes (h : Header) : Nat := 2 ^ h.size.val
def InGddr (h : Header) : Prop :=
  h.comp = false ∧ ∀ k, k < h.count.val → 0 ≤ (h.base.toNat : Int) + k * h.stride.toInt ∧ elem h k + elemBytes h ≤ Config.gddrEnd ∧ elem h k % elemBytes h = 0

/-- The strands and queues are as before, and the answer is bs. -/
def Answered (s t : State) (bs : List Byte) : Prop := t.st = s.st ∧ t.others = s.others ∧ t.lp = s.lp ∧ t.links.answer = bs

/-- The replies of a slice to a request, each with the TAG and its index (R196). -/
def replies (h : Header) (l : List (Option Nat × List Byte)) : List Reply :=
  l.zipIdx.map fun r => { core := 256 * h.die.val + h.core.val, unit := h.unit, tag := h.tag, index := r.2, line := r.1.1, data := r.1.2 }

/-- READ and GFILL answer the elements, FILL whole lines, each in a reply of its own with TAG and index; WRITE stores its elements, the later over the earlier; no other byte of memory
changes (R194, R196, R201). -/
def ReadWrite : Prop := ∀ (s : State) (h : Header) (data : List Byte),
  let b := elemBytes h
  let bytes := (List.range h.count.val).map fun k => (none, memRead s.mem (elem h k) b)
  let lines := (List.range h.count.val).map fun k => (some (lineOf h.base.toNat + 128 * k), memRead s.mem (lineOf h.base.toNat + 128 * k) 128)
  let gives (t : State) (l : List (Option Nat × List Byte)) : Prop :=
    Answered s t (l.flatMap (·.2)) ∧ t.lines.replies = s.lines.replies ++ replies h l
  Canonical s → InGddr h → Calm s (2 * h.count.val + 8) →
  (∃ t, exec (.read h) s = .next t ∧ SameMem s t ∧ gives t bytes) ∧
  (∃ t, exec (.gfill h) s = .next t ∧ SameMem s t ∧ gives t bytes) ∧
  (lineOf h.base.toNat + 128 * h.count.val ≤ Config.gddrEnd → ∃ t, exec (.fill h) s = .next t ∧ SameMem s t ∧ gives t lines) ∧
  (data.length = h.count.val * b → ∃ t, exec (.write h data) s = .next t ∧ t.st = s.st ∧ ∀ q, memByte t.mem q =
    match ((List.range h.count.val).filter fun k => decide (elem h k ≤ q ∧ q < elem h k + b)).getLast? with
    | some k => data.getD (k * b + (q - elem h k)) 0
    | none => memByte s.mem q)

/-- ATOMIC, VATOM and BARRIER at the home (R103, R104, R193, R227): the object's new value is stored and its old one answered, in a reply
with TAG and index (R196). -/
def HomeAtomics : Prop := ∀ (s : State) (h : Header) (p : AmoOp) (o : VamoOp) (t : BitVec 6) (e : Elem) (v x : Word) (n : BitVec 32) (ns : Bool),
  let b := elemBytes h
  let a := h.base.toNat
  let old := number s a b
  let N := number s a 16
  let w : Word := BitVec.ofNat 64 (n.toNat + ns.toNat * 2 ^ 32)
  Canonical s → InGddr h → 0 < h.count.val → Calm s 16 →
  (b = 4 ∨ b = 8 → ∃ u, exec (.atomic h p v) s = .next u ∧ Stored s u a b (amoResult p b old (v.toNat % 2 ^ (8 * b))).1 ∧ Answered s u (memRead s.mem a b) ∧
    u.lines.replies = s.lines.replies ++ replies h [(none, memRead s.mem a b)]) ∧
  (h.count.val = 1 → elemOf t = some e → e.bytes = b → ∃ u, exec (.vatom h o t [x]) s = .next u ∧ Stored s u a b (vamoResult e o old (x.toNat % 2 ^ (8 * b))).1 ∧
    Answered s u (natToBytes b old) ∧ u.lines.replies = s.lines.replies ++ replies h [(none, natToBytes b old)]) ∧
  (a % 16 = 0 → a + 16 ≤ Config.gddrEnd →
    (n ≠ 0 → ∃ u, exec (.barrier h (.init n ns)) s = .next u ∧ Stored s u a 16 (barStart N w) ∧ u.st = s.st) ∧
    (barValid N →
      (∃ u, exec (.barrier h (.arrive n.toNat)) s = .next u ∧ Stored s u a 16 (barAfter N n.toNat) ∧ Answered s u (natToBytes 4 (barGen N))) ∧
      (∃ u, exec (.barrier h .gen) s = .next u ∧ SameMem s u ∧ Answered s u (natToBytes 4 (barGen N))) ∧
      (n ≠ 0 → N / 2 ^ 97 % 2 = 0 → ∃ u, exec (.barrier h (.signal n)) s = .next u ∧ Stored s u a 16 (barAfter N n.toNat) ∧ u.st = s.st)))

/-- CACHEOP at the home (R209, Table 20.4): a pin of an absent line and its removal, and the codes of a line that is not pinned, or pinned
by another context. Memory is as before.
The codes are read from Table 20.4 (log 50). -/
def HomeCache : Prop := ∀ (s : State) (h : Header) (c o : BitVec 12) (r : CacheReq),
  let a := lineOf h.base.toNat
  let code (k : Nat) : List Byte := [BitVec.ofNat 8 k]
  Canonical s → h.comp = false → a + 128 ≤ Config.gddrEnd → Calm s 16 →
  (s.lines.tags = [] → ∃ t, exec (.cacheop h c r) s = .next t ∧ SameMem s t ∧ Answered s t (code (if r = .unpin then 4 else 0)) ∧
    (r = .pin → ∃ x ∈ t.lines.tags, x.line = a ∧ x.pin = some c)) ∧
  (∀ x, findTag s a = some x → x.pin = some o → x.dirty = none → ∃ t, exec (.cacheop h c r) s = .next t ∧ SameMem s t ∧
    t.links.answer = code (match r with | .pin => if c = o then 0 else 1 | .unpin => if c = o then 0 else 4 | .invalidate => 3 | _ => 0) ∧
    (if c = o ∧ r = .unpin then findTag t a = some { x with pin := none } else t.st = s.st ∧ t.others = s.others ∧ ∃ y, findTag t a = some y ∧ y.pin = x.pin))

/-- A watch is registered, a reply that a slice has sent enters an L1 whose set has room, an RDC copy goes, a scrub changes nothing, and a die's sample is taken
(R196, R197, R200, R210, R322, R371).
That a scrub finds nothing is the model's choice (log 57). -/
def SliceWork : Prop := ∀ (s : State) (h : Header) (n : Fin 4096) (c : Fin 1024) (d : Fin 4) (l : Nat) (data : List Byte),
  let a := lineOf h.base.toNat
  let k := getCore s c.val
  let keep := k.l1.filter fun x => ! (x.size = 0 ∧ x.addr = lineOf l)
  let count (p : L2Tag → Bool) := s.lines.tags.countP p
  (h.comp = false → a < Config.gddrEnd → (∀ d : Fin 4, s.daleel.dies[d.val] = .up) → exec (.watch h n) s = .next { s with watches := s.watches ++ [(a, n.val)] }) ∧
  ((∀ r ∈ s.lines.replies, r.meets c.val (lineOf l) data = false) → exec (.reply c l data) s = .next s) ∧
  (∀ r, Canonical s → s.lines.replies.find? (·.meets c.val (lineOf l) data) = some r → r.line.isSome → lineOf l < Config.gddrEnd → data.length = 128 → (keep.filter fun x => x.addr / 128 % 128 = l / 128 % 128).length < 8 →
    ∃ t, exec (.reply c l data) s = .next t ∧ t.mem = s.mem ∧ t.st = s.st ∧ t.lines = { s.lines with replies := s.lines.replies.erase r } ∧
      (getCore t c.val).l1 = keep ++ [{ addr := lineOf l, data := data }] ∧
      ∀ j, j ≠ c.val → getCore t j = getCore s j) ∧
  (∃ t, exec (.rdcInvalidate d l) s = .next t ∧ t = { s with lines := { s.lines with rdc := t.lines.rdc } } ∧ ∀ r, r ∈ t.lines.rdc ↔ (r ∈ s.lines.rdc ∧ r ≠ (d, lineOf l))) ∧
  exec (.patrolScrub l) s = .next s ∧
  (sparseWf 0 s.lines.sample = true → ∃ t, exec (.dedupSample d) s = .next t ∧ t = { s with lines := { s.lines with sample := t.lines.sample } } ∧
    ∀ j, sget 0 t.lines.sample j = if j = d.val then
      BitVec.ofNat 64 (count (fun x => homeDie s x.line = d) * 2 ^ 32 + s.lines.vat.countP fun e => e.2.die = d) else sget 0 s.lines.sample j)

/-- HELD_WRITE_PROCEED (R204): slices with a free vat entry hold no write, and the strands that wait for one go on. CLEANER_WRITEBACK
(R202): a DIRTY line is written back and stays, clean; any other line is left.
An event that is not due changes nothing (the model's choice, log 1). -/
def SliceWrites : Prop := ∀ (s : State) (l : Nat) (x : L2Tag),
  (s.lines.vat = [] → ∃ t, exec .heldWriteProceed s = .next t ∧ t.mem = s.mem ∧ t.lines.writesHeld = [] ∧ ∀ n, n < 4096 → getStrand t n =
    if (getStrand s n).park ≠ 0 ∧ (getStrand s n).wait = .held then { getStrand s n with park := 0, wait := .none, dogFrom := s.cycle } else getStrand s n) ∧
  (findTag s (lineOf l) = some x → x.dirty ≠ none → lineOf l < Config.compBase → ∃ t y, exec (.cleanerWriteback l) s = .next t ∧ t.mem = s.mem ∧ t.st = s.st ∧
    findTag t (lineOf l) = some y ∧ y.dirty = none ∧ y.pin = x.pin ∧ y.sharers = x.sharers) ∧
  (findTag s (lineOf l) = none ∨ (findTag s (lineOf l) = some x ∧ x.dirty = none) → exec (.cleanerWriteback l) s = .next s)

/-- SCRATCHPAD_ACCESS (R211): a load answers, a store stores, an atomic stores its new value and answers the old one. -/
def ScratchpadAccess : Prop := ∀ (s : State) (pa n : Nat) (data : List Byte) (p : AmoOp) (d : Bool) (v : Word),
  let b := if d = true then 8 else 4
  let inside (n : Nat) : Prop := Config.spadBase ≤ pa ∧ pa + n ≤ Config.spadEnd
  Canonical s → Calm s 8 →
  (inside n → ∃ t, exec (.scratchpadAccess pa (.load n)) s = .next t ∧ t.mem = s.mem ∧ Answered s t (memRead s.mem pa n)) ∧
  (inside data.length → ∃ t, exec (.scratchpadAccess pa (.store data)) s = .next t ∧ t.st = s.st ∧
    ∀ q, memByte t.mem q = if pa ≤ q ∧ q < pa + data.length then data.getD (q - pa) 0 else memByte s.mem q) ∧
  (inside b → pa % b = 0 → ∃ t, exec (.scratchpadAccess pa (.amo p d v)) s = .next t ∧
    Stored s t pa b (amoResult p b (number s pa b) (v.toNat % 2 ^ (8 * b))).1 ∧ Answered s t (memRead s.mem pa b))

/-- SIGNAL_ANSWER (R105): the strand's oldest SIGNAL is answered; a refusal counts in SIGERR, which stays at 0xFFFF. -/
def SignalAnswers : Prop := ∀ (s : State) (n : Fin 4096) (nack : Bool) (x : Nat × Bool) (rest : List (Nat × Bool)),
  let t := getStrand s n.val
  let e := t.csr.dstat.toNat / 2 ^ 48
  Canonical s → t.signals = x :: rest → ∃ u, exec (.signalAnswer n nack) s = .next u ∧ u.mem = s.mem ∧ (getStrand u n.val).signals = rest ∧
    (getStrand u n.val).csr.dstat.toNat = t.csr.dstat.toNat % 2 ^ 48 + (if nack = true then min 0xFFFF (e + 1) else e) * 2 ^ 48 ∧
    getStrand u n.val = { t with signals := rest, csr := { t.csr with dstat := (getStrand u n.val).csr.dstat } }

end Sys2Proof.Claims

namespace Sys2Proof.Claims
open Sys2Proof.Machine

/-! ## Links and collectives (chapter 14) -/

/-- Of the machine, only port k differs, but for events; and it is p. -/
def OnlyPort (s t : State) (k : Fin 18) (p : Machine.Port) : Prop :=
  getPort t k.val = p ∧ (∀ j, j ≠ k.val → getPort t j = getPort s j) ∧ t.st = s.st ∧ t.others = s.others ∧ t.mem = s.mem

/-- A port as it enters a state: its counts of NAKs and of failed attempts start again. -/
def entered (p : Machine.Port) (st : BitVec 3) : Machine.Port := { p with stat := st, naks := 0, tries := 0 }

/-- The states of a port (R233, Table 14.3): 0 OFF, 1 TRAINING, 2 ACTIVE, 3 RETRAIN, 4 DOWN. Where a port goes down or is switched off, no
flit waits in its replay buffer here, nor for a port; ACTIVE and DOWN post event 0x16, and a port that has retrained sends its buffer
again. A write of the host to a port's register is dropped while the host port does not answer (R374, R375).
That numbers start anew with a partner is read from the rules (log 55).
An event that is not due changes nothing (the model's choice, log 1). -/
def PortStates : Prop := ∀ (s : State) (k : Fin 18) (sw : Bool) (node : BitVec 10) (pport : BitVec 9),
  let p := getPort s k.val
  let kind : BitVec 2 := if sw = true then 2 else 1
  let who : BitVec 10 := if sw = true then 0 else node
  let found : Machine.Port := { p with pkind := kind, pnode := who, pport := pport, rxSeq := 0, txSeq := 0, nakSent := none }
  let same : Prop := p.pkind = kind ∧ p.pnode = who ∧ p.pport = pport
  s.links.outbox = [] → sparseWf ({} : Machine.Port) s.links.ports = true →
  (¬ Serves s → exec (.portEnable k) s = .next s ∧ exec (.portDisable k) s = .next s ∧ exec (.portRetrain k) s = .next s) ∧
  (Serves s → p.stat = 0 → ∃ t, exec (.portEnable k) s = .next t ∧ OnlyPort s t k (entered { p with enable := true } 1)) ∧
  (Serves s → p.stat ≠ 0 → ∃ t, exec (.portEnable k) s = .next t ∧ OnlyPort s t k { p with enable := true }) ∧
  (Serves s → p.buffer = [] → ∃ t, exec (.portDisable k) s = .next t ∧ OnlyPort s t k (entered { p with enable := false, pkind := 0, pnode := 0, pport := 0 } 0)) ∧
  (Serves s → p.stat = 2 → ∃ t, exec (.portRetrain k) s = .next t ∧ OnlyPort s t k (entered p 3)) ∧
  (p.stat ≠ 2 → exec (.portRetrain k) s = .next s) ∧
  (p.stat = 1 → sw = true ∨ node ≠ s.links.nodeid → ∃ t, exec (.partnerFound k sw node pport) s = .next t ∧ OnlyPort s t k (entered found 2) ∧ Event s t 0x16 2) ∧
  (p.stat = 1 → sw = false → node = s.links.nodeid → p.buffer = [] → ∃ t, exec (.partnerFound k sw node pport) s = .next t ∧ OnlyPort s t k (entered p 4) ∧
    Event s t 0x16 4) ∧
  (p.stat = 3 → same → ∃ t, exec (.partnerFound k sw node pport) s = .next t ∧ OnlyPort s t k { entered p 2 with owed := (getPort t k.val).owed } ∧
    Event s t 0x16 2 ∧ t.links.wire.length = s.links.wire.length + p.buffer.length ∧ (p.buffer = [] → (getPort t k.val).owed = p.owed)) ∧
  (p.stat = 3 → ¬ same → p.buffer = [] → ∃ t, exec (.partnerFound k sw node pport) s = .next t ∧ OnlyPort s t k (entered p 4) ∧ Event s t 0x16 4) ∧
  (p.stat ≠ 1 → p.stat ≠ 3 → exec (.partnerFound k sw node pport) s = .next s) ∧
  (p.stat = 1 → p.buffer = [] → ∃ t, exec (.trainingTimeout k) s = .next t ∧ OnlyPort s t k (entered p 4) ∧ Event s t 0x16 4) ∧
  (p.stat ≠ 1 → exec (.trainingTimeout k) s = .next s) ∧
  (p.stat = 3 → p.tries < 2 → ∃ t, exec (.retrainFailed k) s = .next t ∧ OnlyPort s t k { p with tries := p.tries + 1 }) ∧
  (p.stat = 3 → 2 ≤ p.tries → p.buffer = [] → ∃ t, exec (.retrainFailed k) s = .next t ∧ OnlyPort s t k (entered p 4) ∧ Event s t 0x16 4) ∧
  (p.stat ≠ 3 → exec (.retrainFailed k) s = .next s) ∧
  (p.stat = 4 → p.enable = true → ∃ t, exec (.downRetry k) s = .next t ∧ OnlyPort s t k (entered p 1)) ∧
  (p.stat ≠ 4 ∨ p.enable = false → exec (.downRetry k) s = .next s)

/-- A field of a flit (Table 14.2): n bits from bit lo of the dword at an offset; dwords of the payload start at 8. -/
def flitField (bs : List Byte) (o lo n : Nat) : Nat := bytesToNat ((bs.drop o).take 8) / 2 ^ lo % 2 ^ n

/-- The port once an idle flit of its own has gone out: it stands in the replay buffer, and has returned the receive buffers. -/
def idled (p : Machine.Port) : Machine.Port :=
  { p with buffer := p.buffer ++ [{ seq := p.txSeq, what := .idle }], txSeq := p.txSeq + 1, owed := p.owed - min 255 p.owed }

/-- FLIT_RECEIVE and NAK_RECEIVE (R231, R232): a flit of 256 bytes with a bad CRC counts, the first that is bad or out of order is NAKed
with the SEQ that is next, and a bad one with that SEQ again; the
next SEQ is taken, its CREDIT counted, and its ACK frees the replay buffer; a request or a reduction for this module then stands to be
acted on, and a reply ends its request; a flit goes out with the ACK, of the layout of Table 14.2; a NAK has the flits from there on
sent again, and the eighth of one flit in a row retrains the port.
An event that is not due changes nothing (the model's choice, log 1). The parameters of the CRC, and what stands for a flit's work, are
read from the rules or chosen (log 76), and so are the idle flits that carry ACKs (log 92). -/
def Flits : Prop := ∀ (s : State) (k : Fin 18) (bs : List Byte) (seq : BitVec 12) (m : PeerMsg) (b : Nat),
  let p := getPort s k.val
  let n := if p.nakSeq = seq ∧ p.naks ≠ 0 then p.naks + 1 else 1
  let asked : Machine.Port := { p with nakSeq := seq, naks := n, replay := p.replay + BitVec.ofNat 64 (p.buffer.filter fun m => decide ((m.seq - seq).toNat < 2048)).length }
  let kind := flitField bs 0 32 4
  let snode : BitVec 10 := BitVec.ofNat 10 (flitField bs 0 44 10)
  let mine : Prop := flitField bs 0 54 10 = s.links.nodeid.toNat
  let ack : BitVec 12 := BitVec.ofNat 12 (flitField bs 0xF8 12 12)
  let next : Prop := p.stat = 2 ∧ crcGood bs = true ∧ flitField bs 0xF8 0 12 = p.rxSeq.toNat
  let taken : Machine.Port := { p with rxSeq := p.rxSeq + 1, nakSent := none, credits := p.credits + flitField bs 0 36 8,
                                       buffer := p.buffer.filter fun m => decide (2048 ≤ (ack - m.seq).toNat) }
  let free : Machine.Port := { taken with owed := p.owed + 1 }
  let sent (q : Machine.Port) : Machine.Port := if kind ≠ 0 ∧ q.buffer.length < 256 then idled q else q
  let again := p.buffer.filter fun m => decide ((m.seq - seq).toNat < 2048)
  let nakked (q : Machine.Port) (t : State) : Prop := OnlyPort s t k { q with nakSent := some p.rxSeq } ∧ t.links.naksOut = s.links.naksOut ++ [(k.val, p.rxSeq)]
  let due : Prop := p.nakSent = none ∨ flitField bs 0xF8 0 12 = p.rxSeq.toNat
  Canonical s → s.links.outbox = [] → sparseWf ({} : Machine.Port) s.links.ports = true →
  (p.stat ≠ 2 → exec (.flitReceive k bs) s = .next s ∧ exec (.nakReceive k seq) s = .next s) ∧
  (p.stat = 2 → crcGood bs = false → due → ∃ t, exec (.flitReceive k bs) s = .next t ∧ nakked { p with crcerr := p.crcerr + 1 } t) ∧
  (p.stat = 2 → crcGood bs = false → ¬ due → ∃ t, exec (.flitReceive k bs) s = .next t ∧ OnlyPort s t k { p with crcerr := p.crcerr + 1 }) ∧
  (p.stat = 2 → crcGood bs = true → flitField bs 0xF8 0 12 ≠ p.rxSeq.toNat → p.nakSent = none → ∃ t, exec (.flitReceive k bs) s = .next t ∧ nakked p t) ∧
  (p.stat = 2 → crcGood bs = true → flitField bs 0xF8 0 12 ≠ p.rxSeq.toNat → p.nakSent ≠ none → exec (.flitReceive k bs) s = .next s) ∧
  (next → ¬ mine ∨ (kind ≠ 1 ∧ kind ≠ 2 ∧ kind ≠ 3) → ∃ t, exec (.flitReceive k bs) s = .next t ∧ OnlyPort s t k (sent free)) ∧
  (next → mine → kind = 1 ∨ kind = 3 → ∃ t, exec (.flitReceive k bs) s = .next t ∧
    OnlyPort s t k (sent { taken with inbox := p.inbox ++ [(BitVec.ofNat 4 kind, snode)] })) ∧
  (next → mine → kind = 2 → p.waiting = [m] → m.node = snode → m.op = .read b → m.copy = false →
    m.strand < 4096 → flitField bs 8 0 64 = 0 → ∃ t, exec (.flitReceive k bs) s = .next t ∧ getPort t k.val = sent { free with waiting := [] } ∧
    getStrand t m.strand = { getStrand s m.strand with remote := some (m.va, some (BitVec.ofNat 64 (flitField bs 16 0 64))) }) ∧
  (next → kind ≠ 0 → kind ≠ 2 → taken.buffer.length < 256 → ∃ t bs, exec (.flitReceive k bs) s = .next t ∧ t.links.wire = s.links.wire ++ [(k.val, bs)] ∧
    bs.length = 256 ∧ crcGood bs = true ∧ flitField bs 0 32 4 = 0 ∧ flitField bs 0 44 10 = s.links.nodeid.toNat ∧ flitField bs 0xF8 0 12 = p.txSeq.toNat ∧
    flitField bs 0xF8 12 12 = p.rxSeq.toNat) ∧
  (p.stat = 2 → n < 8 → ∃ t, exec (.nakReceive k seq) s = .next t ∧ OnlyPort s t k { asked with owed := (getPort t k.val).owed } ∧
    t.links.wire.length = s.links.wire.length + again.length) ∧
  (p.stat = 2 → 8 ≤ n → ∃ t, exec (.nakReceive k seq) s = .next t ∧ OnlyPort s t k (entered asked 3))

/-- An export entry admits an access at an offset from a module, for reading, writing or both (R236, Table 14.5). -/
def Admits (s : State) (x : Fin 64) (snode : BitVec 10) (off : Nat) (reads writes : Bool) : Prop :=
  let w := sget 0 s.links.exports (2 * x.val)
  let size := (sget 0 s.links.exports (2 * x.val + 1)).toNat % 2 ^ 16
  w.getLsbD 63 = true ∧ off < size * 2 ^ 27 ∧ (w.getLsbD 60 = true ∨ w.toNat / 2 ^ 50 % 2 ^ 10 = snode.toNat) ∧
  (reads = true → w.getLsbD 62 = true) ∧ (writes = true → w.getLsbD 61 = true)

/-- PEER_REQUEST (R236) on an ACTIVE port that has accepted its flit: a read, a write, an addition and a SIGNAL of a module
that the export admits are done at the home and answered 0; a request of any kind that it does not admit is answered 1 and does nothing.
On another port, or without a flit, nothing arrives.
The layout of a reply is chosen (log 77), and how a request meets an export is read from the rules (logs 55 and 60). -/
def PeerRequests : Prop := ∀ (s : State) (k : Fin 18) (snode : BitVec 10) (x : Fin 64) (off n : Nat) (data : List Byte) (v : Word) (c : BitVec 32),
  let pa := (sget 0 s.links.exports (2 * x.val)).toNat / 2 ^ 27 % 2 ^ 21 * 2 ^ 27 + off
  let N := number s pa 16
  let ok : List Byte := natToBytes 8 0
  let req (o : PeerOp) := exec (.peerRequest k snode x off o) s
  ((getPort s k.val).stat ≠ 2 ∨ (1, snode) ∉ (getPort s k.val).inbox → ∀ o, req o = .next s) ∧
  (Canonical s → (getPort s k.val).stat = 2 → (1, snode) ∈ (getPort s k.val).inbox → s.links.inbound = [] → s.links.outbox = [] → Calm s (n + data.length + 8) →
    (0 < n → pa + n ≤ Config.gddrEnd → Admits s x snode off true false → ∃ t, req (.read n) = .next t ∧ SameMem s t ∧ Answered s t (ok ++ memRead s.mem pa n)) ∧
    (data ≠ [] → pa + data.length ≤ Config.gddrEnd → Admits s x snode off false true → ∃ t, req (.write data) = .next t ∧ Answered s t ok ∧
      ∀ q, memByte t.mem q = if pa ≤ q ∧ q < pa + data.length then data.getD (q - pa) 0 else memByte s.mem q) ∧
    (pa % 8 = 0 → pa + 8 ≤ Config.gddrEnd → Admits s x snode off true true → ∃ t, req (.amoAdd v) = .next t ∧
      Stored s t pa 8 ((number s pa 8 + v.toNat) % 2 ^ 64) ∧ Answered s t (ok ++ memRead s.mem pa 8)) ∧
    (pa % 16 = 0 → pa + 16 ≤ Config.gddrEnd → Admits s x snode off true true → barValid N → N / 2 ^ 97 % 2 = 0 → c ≠ 0 → ∃ t, req (.signal c) = .next t ∧
      Stored s t pa 16 (barAfter N c.toNat) ∧ Answered s t ok) ∧
    (∀ o : PeerOp, ¬ Admits s x snode off (match o with | .write _ => false | _ => true) (match o with | .read _ => false | _ => true) →
      ∃ t, req o = .next t ∧ t.mem = s.mem ∧ Answered s t (natToBytes 8 1)))

/-- COLLECTIVE_DOORBELL (R237): a collective joins the queue; the seventeenth is refused with ERR 3 and event 0x1A; while
the host port does not answer (R374, R375), the write is dropped. -/
def CollectiveBell : Prop := ∀ (s : State) (v : Word),
  (¬ Serves s → exec (.collectiveDoorbell v) s = .next s) ∧
  (Serves s → s.links.pending.length < 16 → exec (.collectiveDoorbell v) s =
    .next { s with links := { s.links with pending := s.links.pending ++ [(v.truncate 12, s.links.cdesc)] } }) ∧
  (Serves s → 16 ≤ s.links.pending.length → ∃ t, exec (.collectiveDoorbell v) s = .next t ∧ t.links.pending = s.links.pending ∧ t.links.cerr = 3 ∧ Event s t 0x1A 3)

/-- The collective is over with a status (R238): its status word holds it below NF, and no byte outside it and DST has changed. -/
def Over (s t : State) (P : TlbEntry) (c : Collective) (code : Nat) : Prop :=
  let cw := keyAt P (c.cwaddr.toNat % 2 ^ 48)
  let dst := keyAt P (c.dst.toNat % 2 ^ 48)
  t.links.running = none ∧ t.st = s.st ∧ number t cw 8 % 2 ^ 63 = code ∧
  ∀ q, (q < cw ∨ cw + 8 ≤ q) → (q < dst ∨ dst + c.count * c.elem.bytes ≤ q) → memByte t.mem q = memByte s.mem q

/-- The running collective c, whose DST and status word lie in the page, apart. -/
structure Running (s : State) (P : TlbEntry) (c : Collective) : Prop where
  device : Device s c.ctx P (2 * c.count + 64)
  now    : s.links.running = some c
  word   : c.cwaddr.toNat % 8 = 0 ∧ Inside P (c.cwaddr.toNat % 2 ^ 48) 8
  dst    : Inside P (c.dst.toNat % 2 ^ 48) (c.count * c.elem.bytes)
  apart  : Apart [(c.cwaddr.toNat % 2 ^ 48, 8), (c.dst.toNat % 2 ^ 48, c.count * c.elem.bytes)]

/-- What a contribution says of its collective, as the running collective c of this module has it (R239). -/
def headAs (c : Collective) (r : Nat) : ReductionHead :=
  { group := c.group, tag := c.tag, op := c.op, size := c.size, count := c.count, members := c.members, rank := r }

/-- Port k has accepted a reduction flit from a node, the first that fits; and the machine once it has been acted on, which
frees its receive buffer. -/
def Came (s : State) (p : BitVec 10 → Bool) (k : Nat) (n : BitVec 10) : Prop := reductionPort s p = some (k, n)
def acted (s : State) (k : Nat) (n : BitVec 10) : State := 
  setPort s k { getPort s k with inbox := (getPort s k).inbox.erase (3, n), owed := (getPort s k).owed + 1 }

/-- REDUCTION_FLIT, COLLECTIVE_REFUSAL and COLLECTIVE_TIMEOUT (R237, R238, R239): a contribution that agrees is kept; one that does not agree
in OP, TAG, COUNT, SIZE or MEMBERS, or is of a wrong length, a refusal of the group, and a member that is late end the collective with
status 2 and 3; what comes for a collective that does not run here waits for it. Without a flit nothing happens.
An event that is not due changes nothing (the model's choice, log 1). The last flit of a contribution stands for it (log 76). -/
def Contributions : Prop := ∀ (s : State) (P : TlbEntry) (c : Collective) (r k : Nat) (n : BitVec 10) (nf : Bool) (data : List Byte) (g : BitVec 16)
    (h : ReductionHead),
  let all : Prop := ∀ r, r < c.size → ∃ x ∈ c.parts, x.1 = r
  let from_ (h : ReductionHead) (n : BitVec 10) : Bool := decide (h.members[h.rank]? = some (n.zeroExtend 16))
  let s' := acted s k n
  let any_ (_ : BitVec 10) : Bool := true
  ((∀ j, j < 18 → ∀ x ∈ (getPort s j).inbox, x.1 ≠ 3) → exec (.reductionFlit h nf data) s = .next s ∧ exec (.collectiveRefusal g) s = .next s) ∧
  (Came s any_ k n → s.links.running = none → ∃ t, exec (.collectiveRefusal g) s = .next t ∧ g ∈ t.links.refused ∧
    t = { s' with links := { s'.links with refused := t.links.refused } }) ∧
  (Came s (from_ h) k n → s.links.running = none → exec (.reductionFlit h nf data) s =
    .next { s' with links := { s'.links with early := s.links.early ++ [(h, nf, data)] } }) ∧
  (Canonical s → Running s P c →
    (Came s (from_ (headAs c r)) k n →
      (r < c.size → r ≠ c.rank → data.length = c.count * c.elem.bytes → ∃ t d, exec (.reductionFlit (headAs c r) nf data) s = .next t ∧
        t = { s' with links := { s'.links with running := some d } } ∧ d = { c with parts := d.parts } ∧ sget (none, false) d.parts r = (some data, nf) ∧
        ∀ j, j ≠ r → sget (none, false) d.parts j = sget (none, false) c.parts j) ∧
      (r = c.rank → data.length = c.count * c.elem.bytes → exec (.reductionFlit (headAs c r) nf data) s = .next s') ∧
      (data ≠ [] → data.length ≠ c.count * c.elem.bytes → ∃ t, exec (.reductionFlit (headAs c r) nf data) s = .next t ∧ Over s t P c 2)) ∧
    (Came s (from_ h) k n → h.group = c.group → h ≠ headAs c h.rank → ∃ t, exec (.reductionFlit h nf data) s = .next t ∧ Over s t P c 2) ∧
    (Came s (from_ h) k n → h.group ≠ c.group → exec (.reductionFlit h nf data) s =
      .next { s' with links := { s'.links with early := s.links.early ++ [(h, nf, data)] } }) ∧
    (Came s any_ k n → g = c.group → ∃ t, exec (.collectiveRefusal g) s = .next t ∧ Over s t P c 2) ∧
    (Came s any_ k n → g ≠ c.group → ∃ t, exec (.collectiveRefusal g) s = .next t ∧ g ∈ t.links.refused ∧ t.links.running = some c ∧ t.mem = s.mem) ∧
    (¬ all → ∃ t, exec .collectiveTimeout s = .next t ∧ Over s t P c 3) ∧
    (all → exec .collectiveTimeout s = .next s))

/-- Values with NF combine in pairs, neighbour with neighbour, level by level (R42, R238). -/
def pairs2 (f : Nat × Bool → Nat × Bool → Nat × Bool) : List (Nat × Bool) → List (Nat × Bool)
  | a :: b :: t => f a b :: pairs2 f t
  | l => l
def treeOf (f : Nat × Bool → Nat × Bool → Nat × Bool) : Nat → List (Nat × Bool) → Nat × Bool
  | 0, l => l.headD (0, false)
  | n + 1, l => if l.length ≤ 1 then l.headD (0, false) else treeOf f n (pairs2 f l)

/-- Element e of the result: the tree over the ranks, and whether a combination was NaN or infinite. -/
def reduced (c : Collective) (parts : Nat → List Byte) (e : Nat) : Nat × Bool :=
  treeOf (fun x y => let r := (redStep c.elem c.red x.1 y.1).1; (r, x.2 || y.2 || notFinite c.elem r)) (c.size + 1)
    ((List.range c.size).map fun r => (bytesToNat (((parts r).drop (c.elem.bytes * e)).take c.elem.bytes), false))

/-- COLLECTIVE_COMPLETE (R42, R238): with every contribution there, DST holds the reduction and the status word 1 and NF; a member without
data ends it with status 4; until all have contributed nothing happens.
An event that is not due changes nothing (the model's choice, log 1). -/
def CollectiveEnd : Prop := ∀ (s : State) (P : TlbEntry) (c : Collective) (parts : Nat → List Byte),
  let all : Prop := ∀ r, r < c.size → ∃ x ∈ c.parts, x.1 = r
  let part (r : Nat) := sget (none, false) c.parts r
  let cw := keyAt P (c.cwaddr.toNat % 2 ^ 48)
  let dst := keyAt P (c.dst.toNat % 2 ^ 48)
  let nf : Prop := (∃ r, r < c.size ∧ (part r).2 = true) ∨ ∃ e, e < c.count ∧ (reduced c parts e).2 = true
  Canonical s → Running s P c →
  (all → (∀ r, r < c.size → (part r).1 = some (parts r)) → ∃ t, exec .collectiveComplete s = .next t ∧ Over s t P c 1 ∧
    (nf → number t cw 8 / 2 ^ 63 = 1) ∧ (¬ nf → number t cw 8 / 2 ^ 63 = 0) ∧
    ∀ e, e < c.count → number t (dst + c.elem.bytes * e) c.elem.bytes = (reduced c parts e).1 % 2 ^ (8 * c.elem.bytes)) ∧
  (all → (∃ r, r < c.size ∧ (part r).1 = none) → ∃ t, exec .collectiveComplete s = .next t ∧ Over s t P c 4) ∧
  (¬ all → exec .collectiveComplete s = .next s)

/-- COLLECTIVE_START (R237, R239, Table 14.6): the oldest valid descriptor that waits becomes the running collective with its own
contribution; an invalid one (a reserved field that is not 0, a TAG, an OP, a SIZE or a RANK outside its values, or a RANK at which
MEMBERS names another module) is refused with ERR 2 and event 0x1A and ends with status 2; while one runs, none starts.
An event that is not due changes nothing (the model's choice, log 1). -/
def CollectiveStarts : Prop := ∀ (s : State) (P : TlbEntry) (ctx : BitVec 12) (desc : Word) (e : Elem),
  let va := desc.toNat % 2 ^ 48
  let d := dw s P va
  let tag := d 0 / 2 ^ 40 % 2 ^ 8
  let size := d 0 / 2 ^ 26 % 2 ^ 10
  let rank := d 0 / 2 ^ 16 % 2 ^ 10
  let count := d 1 % 2 ^ 32
  let ms := d 4 % 2 ^ 48
  let src := d 2 % 2 ^ 48
  let bytes := memRead s.mem (keyAt P src) (count * e.bytes)
  let zero : Prop := d 0 % 2 ^ 16 = 0 ∧ d 1 / 2 ^ 32 = 0 ∧ d 2 / 2 ^ 48 = 0 ∧ d 3 / 2 ^ 48 = 0 ∧ d 4 / 2 ^ 48 = 0 ∧ d 5 / 2 ^ 48 = 0 ∧ d 5 % 8 = 0 ∧ d 6 = 0 ∧ d 7 = 0
  (s.links.running ≠ none ∨ s.links.pending = [] → exec .collectiveStart s = .next s) ∧
  (Canonical s → Device s ctx P (2 * size + 2 * count + 64) → s.links.running = none → s.links.pending = [(ctx, desc)] → s.links.refused = [] → s.links.early = [] → s.links.outbox = [] →
    va % 64 = 0 → Inside P va 64 → ms % 2 = 0 → Inside P ms (2 * size) →
    (zero → elemOf (BitVec.ofNat 6 tag) = some e → (tag = 3 ∨ tag = 9 ∨ tag = 10 ∨ tag = 11) → d 0 / 2 ^ 36 % 16 ≤ 2 → 2 ≤ size → size ≤ 512 → rank < size →
      at_ s P (ms + 2 * rank) 2 = s.links.nodeid.toNat → Inside P src (count * e.bytes) →
      ∃ t c, exec .collectiveStart s = .next t ∧ SameMem s t ∧ t.links.pending = [] ∧ t.links.running = some c ∧ c.ctx = ctx ∧ c.desc = desc ∧
        c.group.toNat = d 0 / 2 ^ 48 ∧ c.elem = e ∧ c.op.toNat = d 0 / 2 ^ 36 % 16 ∧ c.size = size ∧ c.rank = rank ∧ c.count = count ∧ c.dst.toNat = d 3 ∧ c.cwaddr.toNat = d 5 ∧
        c.parts = [(rank, (some bytes, (List.range count).any fun k => notFinite e (bytesToNat ((bytes.drop (e.bytes * k)).take e.bytes))))]) ∧
    (¬ zero ∨ (tag ≠ 3 ∧ tag ≠ 9 ∧ tag ≠ 10 ∧ tag ≠ 11) ∨ 2 < d 0 / 2 ^ 36 % 16 ∨ size < 2 ∨ 512 < size ∨ size ≤ rank ∨
      at_ s P (ms + 2 * rank) 2 ≠ s.links.nodeid.toNat → Inside P (d 5 / 8 * 8 % 2 ^ 48) 8 → Inside P (d 3 % 2 ^ 48) (count * 8) → ∃ t, exec .collectiveStart s = .next t ∧ t.links.pending = [] ∧ t.links.running = none ∧ t.links.cerr = 2 ∧ Event s t 0x1A 2 ∧
      number t (keyAt P (d 5 / 8 * 8 % 2 ^ 48)) 8 % 2 ^ 63 = 2))

end Sys2Proof.Claims

namespace Sys2Proof.Claims
open Sys2Proof.Machine

/-! ## The host port and Daleel (chapters 14 and 26) -/


/-- HOST_POSTED_WRITE, HOST_READ, CXL_SNOOP and HOST_READ_COMPLETION (R201, R226, R234, R240): device memory is written and read at its homes, a
register as the device writes it; a module that does not serve (R374, R375) answers ones and takes no write; homes in reset answer ones
and take no write, which AER reports (R380); the device holds no host line; a completion reaches the strand that waits for it.
Minimal mode reaches the registers that log 54 names.
An event that is not due changes nothing (the model's choice, log 1). -/
def HostPort : Prop := ∀ (s : State) (pa n : Nat) (data : List Byte) (k : Fin 4096) (v : Word) (r : HostRead) (rest : List HostRead),
  (Canonical s → Serves s → Calm s (data.length + n + 8) → s.parkedAt = [] → s.broken = [] → s.links.inbound = [] →
    (pa + data.length ≤ Config.gddrEnd → ∃ t, exec (.hostPostedWrite pa data) s = .next t ∧ ∀ q, memByte t.mem q =
      if pa ≤ q ∧ q < pa + data.length then data.getD (q - pa) 0 else memByte s.mem q) ∧
    (0 < n → pa + n ≤ Config.gddrEnd → ∃ t, exec (.hostRead pa n) s = .next t ∧ SameMem s t ∧ Answered s t (memRead s.mem pa n))) ∧
  (Serves s → (∀ d : Fin 4, s.daleel.dies[d.val] = .inReset) → s.links.inbound = [] →
    (data ≠ [] → pa + data.length ≤ Config.gddrEnd → exec (.hostPostedWrite pa data) s =
      .next { s with links := { s.links with aer := s.links.aer ++ [{ write := true, addr := pa, bytes := data.length }] } }) ∧
    (0 < n → pa + n ≤ Config.gddrEnd → ∃ t, exec (.hostRead pa n) s = .next t ∧ t.mem = s.mem ∧ Answered s t (List.replicate n 0xFF) ∧
      t.links.aer = s.links.aer ++ [{ write := false, addr := pa, bytes := n }])) ∧
  (¬ Serves s → s.links.inbound = [] → pa + data.length ≤ Config.gddrEnd → exec (.hostPostedWrite pa data) s = .next s) ∧
  (¬ Serves s → s.links.inbound = [] → pa + n ≤ Config.gddrEnd → ∃ t, exec (.hostRead pa n) s = .next t ∧ t.mem = s.mem ∧ Answered s t (List.replicate n 0xFF)) ∧
  (Serves s → Config.mmioBase ≤ pa → pa ≠ Config.mmioBase + 0x2000 → pa + 8 ≤ Config.windowBase → pa % 8 = 0 → s.links.inbound = [] → exec (.hostPostedWrite pa (natToBytes 8 v.toNat)) s = exec (.registerWrite pa v) s) ∧
  (∃ t, exec (.cxlSnoop pa) s = .next t ∧ t.mem = s.mem ∧ Answered s t []) ∧
  (Canonical s → s.links.hostReads = r :: rest → r.strand = k.val → r.copy = false → ∃ t, exec (.hostReadCompletion k v) s = .next t ∧ t.mem = s.mem ∧ t.links.hostReads = rest ∧
    getStrand t k.val = { getStrand s k.val with remote := some (r.va, some (BitVec.ofNat 64 (v.toNat % 2 ^ (8 * r.bytes)))) }) ∧
  ((∀ r ∈ s.links.hostReads, r.strand ≠ k.val) → exec (.hostReadCompletion k v) s = .next s)

/-- REGISTER_WRITE (R7 and the chapters' register tables): a write to a command register or a doorbell is that operation, one to a plain
register is stored, and one outside the registers, not aligned to 8 bytes, or while the host port does not answer (R374, R375), does
nothing.
Offsets that no table lists ignore writes (log 54). -/
def RegisterWrites : Prop := ∀ (s : State) (v : Word) (q : Fin 64) (p : Fin 8) (c : Fin 1024),
  let w (o : Nat) := exec (.registerWrite (Config.mmioBase + o) v) s
  w (0x100018 + 0x100 * q.val) = exec (.tailWrite q v) s ∧ w 0x2000 = exec (.vunpark v) s ∧ w 0x1010 = exec (.evheadWrite v) s ∧
  w 0xB008 = exec (.collectiveDoorbell v) s ∧ w (0x5008 + 0x40 * p.val) = exec (.clsegsWrite p v) s ∧
  w (0x10000 + 16 * c.val) = exec (.laneGroupRetire c (v.truncate 4)) s ∧
  (v.getLsbD 7 = false → w 0x3008 = exec (.routineLoad v) s) ∧ (v.getLsbD 7 = true → w 0x3008 = exec (.routineUnload v) s) ∧
  (v.toNat / 2 ^ 12 % 16 = 1 → w 0x4008 = exec (.pageUpdate v) s) ∧ (v.toNat / 2 ^ 12 % 16 = 2 → w 0x4008 = exec (.pageUnmap v) s) ∧
  (v.toNat / 2 ^ 12 % 16 = 3 → w 0x4008 = exec (.pageMove v) s) ∧ (v.toNat % 256 = 1 → w 0xE200 = exec .attest s) ∧ (v.toNat % 256 = 5 → w 0xE200 = exec .list s) ∧
  (¬ Serves s → w 0x4010 = .next s ∧ w 0x4000 = .next s ∧ w 0x1000 = .next s) ∧
  (Serves s → w 0x4010 = .next { s with pages := { s.pages with pgarg := v } }) ∧
  (Serves s → ∃ t, w 0x4000 = .next t ∧ t = { s with pages := { s.pages with pgva := t.pages.pgva } } ∧ t.pages.pgva.toNat = v.toNat / 2 ^ 16 % 2 ^ 32 * 2 ^ 16) ∧
  (Serves s → ∃ t, w 0x1000 = .next t ∧ t = { s with ev := { s.ev with evbase := t.ev.evbase } } ∧ t.ev.evbase.toNat = v.toNat / 2 ^ 12 * 2 ^ 12) ∧
  (∀ pa, pa < Config.mmioBase ∨ Config.windowBase ≤ pa ∨ pa % 8 ≠ 0 → exec (.registerWrite pa v) s = .next s)

/-- COLD_RESET, MODULE_POWER_ON and MODULE_POWER_LOSS (R8, R374): reset leaves memory (DIRTY lines at their last written-back value) and the retirement list, and draws new domain keys (R205); without power memory is lost too, and no reset is taken.
The state at reset rests on logs 2 to 4, and what a reset keeps on log 53. -/
def Resets : Prop := ∀ (s : State),
  let R := State.reset
  let list := s.daleel.retireList
  let atReset (t : State) : Prop := t.st = R.st ∧ t.others = R.others ∧ t.cores = R.cores ∧ t.lp = R.lp ∧ t.ev = R.ev ∧ t.links = R.links ∧ t.press = R.press ∧
    t.pages = R.pages ∧ t.regions = R.regions ∧ t.watches = R.watches ∧ t.waitRel = R.waitRel ∧ t.waitSvc = R.waitSvc ∧
    t.parkedAt = R.parkedAt ∧ t.broken = R.broken ∧ t.cows = R.cows ∧ t.pinned = R.pinned ∧ t.pinsDue = R.pinsDue ∧
    t.lines = { R.lines with keys := Config.drawKeys (s.freeCount + 1) }
  (s.daleel.powered = true → ∃ t, exec .coldReset s = .next t ∧ atReset t ∧ t.daleel = { R.daleel with retireList := list } ∧ t.poison = s.poison ∧
    ((∀ x ∈ s.lines.tags, x.dirty = none) → t.mem = s.mem) ∧
    (∀ x old, s.lines.tags = [x] → x.dirty = some old → old.length = 128 → Canonical s → ∀ q, memByte t.mem q =
      if x.line ≤ q ∧ q < x.line + 128 then old.getD (q - x.line) 0 else memByte s.mem q)) ∧
  (s.daleel.powered = false → exec .coldReset s = .next s ∧ exec .modulePowerOn s = .next { s with daleel := { s.daleel with powered := true } }) ∧
  (s.daleel.powered = true → exec .modulePowerOn s = .next s) ∧
  (∃ t, exec .modulePowerLoss s = .next t ∧ atReset t ∧ t.mem = [] ∧ t.poison = [] ∧ t.daleel = { R.daleel with retireList := list, powered := false })

/-- PLIMIT(p) of an image, the last one fixed (R192), and what an image holds: limits that do not fall, a context table in GDDR-7 or
the cellar (R46), and a group table in GDDR-7 (R92). -/
def bootLimit (f : BootFields) (p : Nat) : Nat := if p = 7 then 0x0200_0000_0000 else f.plimit.getD p 0 / 2 ^ 22 % 2 ^ 26 * 2 ^ 22
def BootFits (f : BootFields) : Prop :=
  (∀ p, p < 7 → bootLimit f p ≤ bootLimit f (p + 1)) ∧ f.ctxTable % 128 = 0 ∧
  (f.ctxTable + 524288 ≤ Config.gddrEnd ∨ (Config.cellarBase ≤ f.ctxTable ∧ f.ctxTable + 524288 ≤ Config.cellarEnd)) ∧
  f.groupTable % 16 = 0 ∧ f.groupTable + 1048576 ≤ Config.gddrEnd

/-- The reason for which the image of a stage is refused (R374, Table 26.5), or 0: its digest is not that of its body, its key is not the
fused one or its signature is bad, or its version is below the fused minimum. -/
def refusal (stage : Nat) (i : BootImage) : Nat :=
  if Config.sha256 i.body ≠ i.digest then 2
  else if Config.sha256 i.key ≠ Config.fusedKeyHash ∨ Config.signatureGood i.key i.body i.signature = false then 3
  else if i.version < Config.fusedMinimum stage then 4
  else 0

/-- BOOT_STAGE and BOOT_STAGE_TIMEOUT (R374, R375): a stage that fails is counted with its reason, the third failure in
a row brings minimal mode; one whose image is good, its digest measured (R376), loads what it carries, the first the
retirement list (R373), the third with every die out of reset; in minimal mode, unpowered, and after boot, neither acts.
An event that is not due changes nothing (the model's choice, log 1). Digests and signatures are free (log 10); values before
their load rest on log 4, fields that no image holds on log 80. -/
def Boot : Prop := ∀ (s : State) (i : BootImage) (r : BootResult),
  let f := i.fields
  let b := s.daleel.bootcause
  let next := max 1 s.daleel.stage
  let n := if b.toNat / 2 ^ 12 % 16 = next then b.toNat / 2 ^ 8 % 16 + 1 else 1
  let failed (s : State) (r : Nat) : State := { s with daleel := { s.daleel with bootcause := BitVec.ofNat 64 (r * 2 ^ 16 + next * 2 ^ 12 + n * 2 ^ 8 + (if 3 ≤ n then 1 else 0)) } }
  let going : Prop := s.daleel.powered = true ∧ b.getLsbD 0 = false ∧ next < 4
  let digests := s.daleel.digests.take (next - 1) ++ [i.digest]
  let measured : State := { s with daleel := { s.daleel with digests } }
  let good : Prop := refusal next i = 0
  let list := s.daleel.retireList
  (¬ going → exec (.bootStage r) s = .next s ∧ exec .bootStageTimeout s = .next s) ∧
  (going → exec (.bootStage .absent) s = .next (failed s 1) ∧ exec .bootStageTimeout s = .next (failed s 6)) ∧
  (going → exec (.bootStage (.selfTest i)) s = .next (if good then failed measured 5 else failed s (refusal next i))) ∧
  (going → ¬ good → exec (.bootStage (.image i)) s = .next (failed s (refusal next i))) ∧
  (going → next = 1 → Canonical s → sparseWf 0 list = true → ∃ t, exec (.bootStage (.image i)) s = .next t ∧ (good →
    t.daleel = { s.daleel with stage := 2, digests, routineKey := f.routineKey } ∧ t.mem = s.mem ∧ t.st = s.st ∧ t.lp = s.lp ∧
    ∀ c, getCore t c = { getCore s c with disable := if sget 0 list c = 0 then (getCore s c).disable else sget 0 list c })) ∧
  (going → next = 2 → BootFits f → ∃ t, exec (.bootStage (.image i)) s = .next t ∧ (good → t.daleel.stage = 3 ∧ t.daleel.digests = digests ∧ t.mem = s.mem ∧
    t.lp = { s.lp with ctxTable := f.ctxTable, groupTable := f.groupTable } ∧
    t.daleel.pwrcap.toNat = max 300 (min 2200 (f.pwrcap % 2 ^ 64 % 2 ^ 12)) ∧
    (∀ p, p < 8 → (sget 0 t.lines.plimit p).toNat = bootLimit f p) ∧ (∀ d : Fin 4, t.lines.partsel[d.val] = BitVec.ofNat 3 f.partsel.val) ∧
    ∀ p k, p < 8 → k < 6 → (sget 0 t.lines.masks (8 * p + k)).toNat = (f.slh.getD p []).getD k 0 / 2 ^ 7 % 2 ^ 41 * 2 ^ 7)) ∧
  (going → next = 2 → ¬ BootFits f → exec (.bootStage (.image i)) s = .next (if good then s else failed s (refusal next i))) ∧
  (going → next = 3 → ∃ t, exec (.bootStage (.image i)) s = .next t ∧ (good → t.daleel.stage = 4 ∧ t.daleel.digests = digests ∧ t.lines.released = true ∧ t.mem = s.mem ∧
    (∀ d : Fin 4, t.daleel.dies[d.val] = .up) ∧ t.daleel.bootcause.toNat / 2 ^ 8 % 16 = 0))

/-- LANE_GROUP_RETIRE (R373) disables the groups; a resident strand of the core loses its vector registers and takes cause 0x11 with the
lanes that are left; LGCE_READ answers the counts and clears them; POWER_CAP shows the average, and in PWRNOW alone (R378, log 57); CORE_POWER_GATE takes L1 and TLB of an idle
core (R379). While the host port does not answer, a write is dropped and LGCE reads ones.
An event that is not due changes nothing (the model's choice, log 1). -/
def CorePower : Prop := ∀ (s : State) (c : Fin 1024) (mask : BitVec 4) (mw : Nat),
  let k := getCore s c.val
  let left := k.disable ||| mask
  let idle : Prop := k.commands = [] ∧ ∀ n ∈ strandsOf c.val, (getStrand s n).resident = false
  Canonical s →
  (¬ Serves s → exec (.laneGroupRetire c mask) s = .next s ∧ ∃ t, exec (.lgceRead c) s = .next t ∧ t.cores = s.cores ∧ Answered s t (List.replicate 8 0xFF)) ∧
  (mask &&& ~~~k.disable = 0 → exec (.laneGroupRetire c mask) s = .next s) ∧
  (Serves s → mask &&& ~~~k.disable ≠ 0 → curCore s = c.val → s.st.resident = true → s.st.priv = false → s.others = [] → ∃ t, exec (.laneGroupRetire c mask) s = .next t ∧ t.mem = s.mem ∧
    getCore t c.val = { k with disable := left } ∧ t.st.item = { s.st.item with units := s.st.item.vrfh * laneGroups { k with disable := left } / 4 } ∧ t.st.v = Vector.replicate 32 {} ∧ t.st.csr.vdirty = 0 ∧ t.st.csr.vcfg.getLsbD 63 = true ∧ t.st.x = s.st.x ∧
    t.st.trap.tcause.toNat % 256 = 0x11 ∧ t.st.trap.tval.toNat = (~~~left).toNat ∧ t.st.pc = s.st.trap.tvec.truncate 48 ∧ t.st.priv = true) ∧
  (Serves s → mask &&& ~~~k.disable ≠ 0 → (∀ n ∈ strandsOf c.val, (getStrand s n).resident = false) → ∃ t, exec (.laneGroupRetire c mask) s = .next t ∧
    getCore t c.val = { k with disable := left } ∧ t.st = s.st ∧ t.others = s.others) ∧
  (Serves s → ∃ t, exec (.lgceRead c) s = .next t ∧ getCore t c.val = { k with ce := Vector.replicate 4 0 } ∧
    t.links.answer = natToBytes 8 (k.ce[0].toNat + k.ce[1].toNat * 2 ^ 16 + k.ce[2].toNat * 2 ^ 32 + k.ce[3].toNat * 2 ^ 48) ∧ t.st = s.st ∧ t.mem = s.mem) ∧
  exec (.powerCap mw) s = .next { s with daleel := { s.daleel with pwrnow := BitVec.ofNat 12 mw } } ∧
  (idle → ∃ t, exec (.corePowerGate c) s = .next t ∧ getCore t c.val = { k with l1 := [], tlb := [], gated := true } ∧ t.st = s.st ∧ t.mem = s.mem) ∧
  (¬ idle → exec (.corePowerGate c) s = .next s)

/-- A mailbox command that was taken: STATE busy, OP, and no error or length (R376). -/
def Taken (s : State) (op : Nat) : State :=
  { s with daleel := { s.daleel with mbstat := 1, mbop := BitVec.ofNat 8 op, mberr := 0, mblen := 0, mbdirty := false } }

/-- The mailbox has answered: done, or an error of Table 26.7; the interrupt is pending. -/
def MailOver (s t : State) (err : Nat) : Prop :=
  t.daleel.mbstat = (if err = 0 then 2 else 3) ∧ t.daleel.mberr.toNat = err ∧ t.links.msix.getLsbD 1 = true ∧ t.mem = s.mem

/-- The mailbox (R376, R377): a write to MBCMD starts the request of its OP, unless one runs or the port does not answer; it answers in minimal mode too (R375). -/
def MailCommands : Prop := ∀ (s : State) (op : BitVec 8),
  let enter := s.daleel.mbarg.getLsbD 8
  let answers : Prop := s.daleel.powered = true ∧ (s.daleel.bootcause.getLsbD 0 = true ∨ 2 ≤ s.daleel.stage)
  (answers → s.daleel.mbstat ≠ 1 → exec .attest s = .next (Taken s 1) ∧ exec .key s = .next (Taken s 2) ∧ exec .retire s = .next (Taken s 3) ∧ exec .unretire s = .next (Taken s 4) ∧
    exec .list s = .next (Taken s 5) ∧ (enter = true → exec .dieresetEnter s = .next (Taken s 6)) ∧ (enter = false → exec .dieresetLeave s = .next (Taken s 6)) ∧
    (op = 0 ∨ 6 < op.toNat → exec (.mbcmdUnknown op) s = .next (Taken s op.toNat))) ∧
  (¬ answers ∨ s.daleel.mbstat = 1 → exec .attest s = .next s ∧ exec .key s = .next s ∧ exec .retire s = .next s ∧ exec .unretire s = .next s ∧ exec .list s = .next s ∧
    exec .dieresetEnter s = .next s ∧ exec .dieresetLeave s = .next s ∧ exec (.mbcmdUnknown op) s = .next s)

/-- MAILBOX_DONE (R373, R376, R377, R380): RETIRE and UNRETIRE change the list, LIST answers it, KEY 128 bytes, DIERESET begins or ends a die's reset; a reserved argument or a changed input gives error 2, an unknown OP 1, DIERESET in minimal mode 4, and a write
of SPI NOR that fails 3 and no change (log 99).
An event that is not due changes nothing (the model's choice, log 1). DIERESET is done when draining begins (log 53). -/
def MailDone : Prop := ∀ (s : State) (c : Fin 1024) (m : BitVec 4) (d : Fin 4),
  let D := s.daleel
  let arg := D.mbarg.toNat
  let run (s : State) := exec .mailboxDone s
  let reserved : Prop := (D.mbop = 1 ∨ D.mbop = 2 ∨ D.mbop = 5) ∧ arg ≠ 0 ∨
    (D.mbop = 3 ∨ D.mbop = 4) ∧ (arg ≠ arg % 2 ^ 10 + arg / 2 ^ 16 % 2 ^ 4 * 2 ^ 16 ∨ arg / 2 ^ 16 = 0) ∨
    D.mbop = 6 ∧ D.bootcause.getLsbD 0 = false ∧ arg ≠ arg % 4 + arg / 2 ^ 8 % 2 * 2 ^ 8
  (D.mbstat ≠ 1 ∨ D.powered = false → run s = .next s) ∧
  (D.powered = true → D.mbstat = 1 → D.mbdirty = true ∨ reserved → ∃ t, run s = .next t ∧ MailOver s t 2 ∧ t.daleel.retireList = D.retireList ∧ t.daleel.dies = D.dies) ∧
  (D.powered = true → D.mbstat = 1 → D.mbdirty = false →
    (D.mbop = 0 ∨ 6 < D.mbop.toNat → ∃ t, run s = .next t ∧ MailOver s t 1) ∧
    (D.mbop = 2 → arg = 0 → ∃ t, run s = .next t ∧ MailOver s t 0 ∧ t.daleel.mblen = 128) ∧
    (D.mbop = 1 → arg = 0 → ∃ t, run s = .next t ∧ MailOver s t 0 ∧ t.daleel.mblen = 2768 ∧ t.st = s.st ∧ t.cores = s.cores) ∧
    (sparseWf 0 D.retireList = true → Canonical s → arg = c.val + m.toNat * 2 ^ 16 → m ≠ 0 →
      (D.mbop = 3 ∨ D.mbop = 4 → D.norFails = true → ∃ t, run s = .next t ∧ MailOver s t 3 ∧ t.cores = s.cores ∧ t.daleel.retireList = D.retireList) ∧
      (D.mbop = 3 → D.norFails = false → D.bootcause.getLsbD 0 = true ∨ m &&& ~~~(getCore s c.val).disable = 0 → ∃ t, run s = .next t ∧ MailOver s t 0 ∧ t.cores = s.cores ∧
        ∀ j, sget 0 t.daleel.retireList j = if j = c.val then sget 0 D.retireList j ||| m else sget 0 D.retireList j) ∧
      (D.mbop = 3 → D.norFails = false → D.bootcause.getLsbD 0 = false → (∀ n ∈ strandsOf c.val, (getStrand s n).resident = false) → ∃ t, run s = .next t ∧ MailOver s t 0 ∧
        (getCore t c.val).disable = (getCore s c.val).disable ||| m) ∧
      (D.mbop = 4 → D.norFails = false → ∃ t, run s = .next t ∧ MailOver s t 0 ∧ t.cores = s.cores ∧
        ∀ j, sget 0 t.daleel.retireList j = if j = c.val then sget 0 D.retireList j &&& ~~~m else sget 0 D.retireList j)) ∧
    (D.mbop = 5 → arg = 0 → sparseWf 0 D.mbbuf = true → ∃ t, run s = .next t ∧ MailOver s t 0 ∧ t.daleel.mblen = 512 ∧ ∀ j, j < 512 →
      (sget 0 t.daleel.mbbuf j).toNat = (sget 0 D.retireList (2 * j)).toNat + (sget 0 D.retireList (2 * j + 1)).toNat * 16) ∧
    (D.mbop = 6 → D.bootcause.getLsbD 0 = true → ∃ t, run s = .next t ∧ MailOver s t 4 ∧ t.daleel.dies = D.dies) ∧
    (D.mbop = 6 → D.bootcause.getLsbD 0 = false →
      (arg = d.val + 2 ^ 8 → D.dies[d.val] = .up → s.lp.resid = [] → ∃ t, run s = .next t ∧ MailOver s t 0 ∧ t.daleel.dies = D.dies.set d.val .draining) ∧
      (arg = d.val + 2 ^ 8 → D.dies[d.val] ≠ .up → ∃ t, run s = .next t ∧ MailOver s t 2 ∧ t.daleel.dies = D.dies) ∧
      (arg = d.val → 4 ≤ D.stage → D.dies[d.val] = .inReset → ∃ t, run s = .next t ∧ MailOver s t 0 ∧ t.daleel.dies = D.dies.set d.val .up ∧ Event s t 0x1B 3)))

/-- DIE_ENTER_RESET and FATAL_DIE_RESET (R380): a die that drains, and holds no strand, copy, routine or DIRTY line, enters reset with event 0x1B;
a fatal error takes the die at once, and the context of a strand on it is DEAD.
An event that is not due changes nothing (the model's choice, log 1). -/
def DieResets : Prop := ∀ (s : State) (d : Fin 4),
  let empty : Prop := (∀ n, n < 4096 → dieOf n = d → (getStrand s n).resident = false) ∧ (∀ k ∈ s.cores, dieOf (4 * k.1) = d → k.2.commands = []) ∧
    (∀ e ∈ s.press.engines, dieOf (4 * e.2.core) ≠ d) ∧ ∀ x ∈ s.lines.tags, homeDie s x.line = d → x.dirty = none
  let below : Prop := s.cur.val < 4096 ∧ ∀ x ∈ s.others, x.1 < 4096
  Canonical s → below →
  (s.daleel.dies[d.val] = .draining → empty → ∃ t, exec (.dieEnterReset d) s = .next t ∧ t.daleel.dies = s.daleel.dies.set d.val .inReset ∧ Event s t 0x1B 1 ∧ t.mem = s.mem ∧
    (∀ n, n < 4096 → dieOf n = d → getStrand t n = {}) ∧ ∀ c, dieOf (4 * c) = d → getCore t c = {}) ∧
  (s.daleel.dies[d.val] ≠ .draining → exec (.dieEnterReset d) s = .next s) ∧
  (s.daleel.dies[d.val] ≠ .inReset → empty → ∃ t, exec (.fatalDieReset d) s = .next t ∧ t.daleel.dies = s.daleel.dies.set d.val .inReset ∧ Event s t 0x1B 2 ∧ t.mem = s.mem) ∧
  (s.daleel.dies[d.val] ≠ .inReset → s.st.resident = true → dieOf s.cur.val = d → s.others = [] → s.lines.tags = [] → s.poison = [] → s.watches = [] → descAddr s s.st.ctx % 128 = 0 →
    descAddr s s.st.ctx + 128 ≤ Config.gddrEnd → ∃ t, exec (.fatalDieReset d) s = .next t ∧ t.daleel.dies = s.daleel.dies.set d.val .inReset ∧ ctxState t s.st.ctx = 6 ∧ t.st = {}) ∧
  (s.daleel.dies[d.val] = .inReset → exec (.fatalDieReset d) s = .next s)

end Sys2Proof.Claims

namespace Sys2Proof.Claims
open Sys2Proof.Machine

/-! ## Decoding, fetching and reset -/

/-- Words that the spec encodes in full, with their lengths in bits and what they stand for. -/
def specWords : List (Nat × Nat × Instr) := [
  (32, 0x001CC505, .add 5 6 7), (32, 0xFFFCC509, .addi 5 6 0x3FFF), (32, 0x8300C521, .srai 5 6 3), (32, 0x7820C52D, .binsi 5 6 60 8),
  (32, 0x00024531, .lui 5 0x12), (32, 0xFF88C541, .blt 5 6 0x7FC), (32, 0x00100139, .jal 1 0x80), (32, 0xFFD84745, .ld .ws 7 2 0x7FE),
  (32, 0x4E9CC54D, .fcmp .f64 .lt 5 6 7), (32, 0x5B08C54D, .fcvt .i64 .f32 5 6), (32, 0x406CC055, .csrwr 0x01B 6), (32, 0xC01C0055, .trapi 7),
  (32, 0x0D9CC551, .amo .add true (.flag .dv .ar) 5 6 7), (32, 0xB4000051, .fence .rel .dv), (32, 0x08186559, .sqres 5 3 6),
  (32, 0x1208A75D, .barr .cl 7 5 2), (32, 0x00082385, .vadd false false 3 1 (.vv 2)), (32, 0x0298A489, .vfma false true 4 5 (.vx 6)),
  (32, 0x248C40C1, .dmac 2 3 9), (32, 0x2008C0D1, .xcopy false .w 0 .none 0 6 2), (16, 0x2AF4, .cLi 10 0x3D), (16, 0x0532, .cMv 5 6),
  (16, 0x6408, .cLd 1 0 2), (16, 0x6002, .cNop), (64, 0xFFFFFFFEFFFFE90B, .li64 9 0x7FFFFFFFFFFFE)]

/-- The fields of format B (Table 15.1). -/
def formatB (off cond : Nat) (b a : XReg) (maj : Nat) : Nat :=
  off * 2 ^ 21 + cond * 2 ^ 18 + b.val * 2 ^ 13 + a.val * 2 ^ 8 + maj

/-- The focused strand may run: nothing is on the agenda, an item is resident on it, and its die is up. -/
def Runs (s : State) : Prop := s.agenda = [] ∧ strandLive s s.cur.val = true
/-- Nothing is left for the units beside the scalar side. -/
def Idle (s : State) : Prop := s.st.viq = [] ∧ s.st.accum.flight = [] ∧ (getCore s (coreOf s.cur.val)).commands = []
/-- The machine as the clocks of a step have passed and the scalar side meets it. -/
def atFetch (s : State) : State := { s with
  cycle := s.cycle + Config.clocks s.freeCount
  freeCount := s.freeCount + 1
  st := { s.st with await := 0 } }

end Sys2Proof.Claims

section
open Sys2Proof Sys2Proof.Machine

/-- Words that the spec writes out decode to what it says they stand for. -/
def Obligations.DecodeSpecWords : Prop := ∀ p ∈ Claims.specWords, decodeTableWord p.1 p.2.1 = some p.2.2

/-- The bytes of every well-formed encoded instruction decode to it, whatever follows them: no bit of an operand is lost (R241 to R250). -/
def Obligations.DecodeEncode : Prop := ∀ (i : Instr), i.wf = true → ∀ n w, encode i = some (n, w) →
  ∀ rest, decode (natToBytes n w ++ rest) = .ok (i, rest)

/-- Bits that decode are the encoding of a well-formed instruction: every reserved bit, unlisted value and unused field that is
not 0 is refused, and no two encodings stand for one instruction (R251). -/
def Obligations.EncodeDecode : Prop := ∀ (w : Nat) (i : Instr), decodeBits w = .ok i →
  i.wf = true ∧ encode i = some (lengthOf w, w % 2 ^ (8 * lengthOf w))

/-- A step of a strand whose other units are idle fetches at the pc and runs what it decodes there; bits that decode to nothing trap
with cause 0x01 and the instruction word; a fetch fault traps with the address of the instruction as `tpc`, before decoding. No error
stands in a register here. That bits which decode to nothing trap on the scalar side, whatever the row they resemble, is read from the
rules (log 17). -/
def Sys2Proof.Claims.StepRunsDecoded : Prop := ∀ (s u : State), Claims.Runs s → Claims.Idle s → s.st.park = 0 →
  (∀ w i, Act.on fetchInstr (Claims.atFetch s) = (.ok w, u) → decodeBits w = .ok i → u.st.bad = [] → step s = after (exec i u)) ∧
  (∀ w e, Act.on fetchInstr (Claims.atFetch s) = (.ok w, u) → decodeBits w = .error e → u.st.viq = [] →
    step s = after (.next (enterTrap 0x01 (wordOfBits w) u.st.pc u.st.csr.vstart u))) ∧
  (∀ c v, Act.on fetchInstr (Claims.atFetch s) = (.error (.trap c v), u) → u.st.viq = [] →
    step s = after (.next (enterTrap c v u.st.pc u.st.csr.vstart u)))

/-- A step of a strand runs its VIQ and the units beside it first; then the scalar side fetches and runs an instruction, unless the
strand is parked or an entry of the VIQ holds it (R54, R55).
That the vector side acts first is the model's choice of an order (logs 1 and 21). -/
def Sys2Proof.Claims.StepVectorFirst : Prop := ∀ (s u : State), Claims.Runs s → Act.on vectorSide (tick s) = (.ok (), u) →
  (scalarReady u = false → step s = after (.next u)) ∧
  (scalarReady u = true → ∀ w t i, Act.on fetchInstr { u with st := { u.st with await := 0 } } = (.ok w, t) →
    decodeBits w = .ok i → t.st.bad = [] → step s = after (exec i t))

/-- A device operation or event on the agenda is the next step; an encoded instruction there is passed over.
The agenda is the model's own (log 1). -/
def Sys2Proof.Claims.StepAgenda : Prop := ∀ (s : State) (i : Instr) (rest : List Turn), s.agenda = .event i :: rest →
  (encode i = none → step s = after (exec i { tick s with agenda := rest })) ∧
  ((encode i).isSome = true → step s = .next { tick s with agenda := rest })

/-- A fetch is checked halfword by halfword, from the instruction's address up: the first halfword that faults gives the cause and
`tval`, its own address; a jump to an odd target traps with cause 0x03 and writes no register (R242). -/
def Obligations.FetchRule : Prop := ∀ (s : State),
  (∀ va c v t, Act.on (fetchHalf va) s = (.error (.trap c v), t) → v = va.zeroExtend 64) ∧
  (∀ c v t, Act.on (fetchHalf s.st.pc) s = (.error (.trap c v), t) → Act.on fetchInstr s = (.error (.trap c v), t)) ∧
  (∀ h1 t1, Act.on (fetchHalf s.st.pc) s = (.ok h1, t1) → lengthOf h1 = 2 → Act.on fetchInstr s = (.ok h1, t1)) ∧
  (∀ h1 h2 t1 t2, Act.on (fetchHalf s.st.pc) s = (.ok h1, t1) → lengthOf h1 = 4 → Act.on (fetchHalf (s.st.pc + 2)) t1 = (.ok h2, t2) →
    Act.on fetchInstr s = (.ok (h1 + 2 ^ 16 * h2), t2)) ∧
  (∀ h1 t1 c v t2, Act.on (fetchHalf s.st.pc) s = (.ok h1, t1) → lengthOf h1 ≠ 2 →
    Act.on (fetchHalf (s.st.pc + 2)) t1 = (.error (.trap c v), t2) → Act.on fetchInstr s = (.error (.trap c v), t2)) ∧
  (∀ h1 h2 h3 h4 t1 t2 t3 t4, Act.on (fetchHalf s.st.pc) s = (.ok h1, t1) → lengthOf h1 = 8 →
    Act.on (fetchHalf (s.st.pc + 2)) t1 = (.ok h2, t2) → Act.on (fetchHalf (s.st.pc + 4)) t2 = (.ok h3, t3) →
    Act.on (fetchHalf (s.st.pc + 6)) t3 = (.ok h4, t4) →
    Act.on fetchInstr s = (.ok (h1 + 2 ^ 16 * h2 + 2 ^ 32 * h3 + 2 ^ 48 * h4), t4)) ∧
  (∀ h1 h2 t1 t2 c v t3, Act.on (fetchHalf s.st.pc) s = (.ok h1, t1) → lengthOf h1 = 8 →
    Act.on (fetchHalf (s.st.pc + 2)) t1 = (.ok h2, t2) → Act.on (fetchHalf (s.st.pc + 4)) t2 = (.error (.trap c v), t3) →
    Act.on fetchInstr s = (.error (.trap c v), t3)) ∧
  (∀ h1 h2 h3 t1 t2 t3 c v t4, Act.on (fetchHalf s.st.pc) s = (.ok h1, t1) → lengthOf h1 = 8 →
    Act.on (fetchHalf (s.st.pc + 2)) t1 = (.ok h2, t2) → Act.on (fetchHalf (s.st.pc + 4)) t2 = (.ok h3, t3) →
    Act.on (fetchHalf (s.st.pc + 6)) t3 = (.error (.trap c v), t4) → Act.on fetchInstr s = (.error (.trap c v), t4)) ∧
  (∀ c v t, Act.on fetchInstr s = (.error (.trap c v), t) → s.st.viq = [] →
    runInstr s = .next (enterTrap c v s.st.pc s.st.csr.vstart t)) ∧
  (∀ i n d (t : VAddr), Claims.jumpOf s i = some (n, d, t) → t.getLsbD 0 = true → s.st.viq = [] →
    exec i s = .next (enterTrap 0x03 (t.zeroExtend 64) s.st.pc s.st.csr.vstart s))

/-- SEL tests all of x[d], reads it before it overwrites it, and with d = 0 takes x[b] and discards it (R268). -/
def Obligations.SelForm : Prop := ∀ (s : State) (d a b : XReg),
  (s.readX d ≠ 0 → exec (.sel d a b) s = .next ((s.writeX d (s.readX a)).retire 4)) ∧
  (s.readX d = 0 → exec (.sel d a b) s = .next ((s.writeX d (s.readX b)).retire 4)) ∧
  (d = 0 → s.readX d = 0 ∧ exec (.sel d a b) s = .next (s.retire 4))

/-- The six branches: their words in format B, the conditions that no branch has, what each compares, and where the pc goes; no
register is written and no target is odd (R273). -/
def Obligations.BranchRule : Prop := ∀ (s : State) (a b : XReg) (o : BitVec 11),
  decodeBits (Claims.formatB o.toNat 0 b a 0x41) = .ok (.beq a b o) ∧ decodeBits (Claims.formatB o.toNat 1 b a 0x41) = .ok (.bne a b o) ∧
  decodeBits (Claims.formatB o.toNat 2 b a 0x41) = .ok (.blt a b o) ∧ decodeBits (Claims.formatB o.toNat 3 b a 0x41) = .ok (.bge a b o) ∧
  decodeBits (Claims.formatB o.toNat 4 b a 0x41) = .ok (.bltn a b o) ∧ decodeBits (Claims.formatB o.toNat 5 b a 0x41) = .ok (.bgen a b o) ∧
  Claims.formatB 0x7FC 2 6 5 0x41 = 0xFF88C541 ∧
  (∀ cond, cond = 6 ∨ cond = 7 → ∃ e, decodeBits (Claims.formatB o.toNat cond b a 0x41) = .error e) ∧
  ∀ i taken, (i, taken) ∈ [(Instr.beq a b o, decide (s.readX a = s.readX b)), (.bne a b o, decide (s.readX a ≠ s.readX b)),
      (.blt a b o, decide ((s.readX a).toInt < (s.readX b).toInt)), (.bge a b o, decide ((s.readX a).toInt ≥ (s.readX b).toInt)),
      (.bltn a b o, decide ((s.readX a).toNat < (s.readX b).toNat)), (.bgen a b o, decide ((s.readX a).toNat ≥ (s.readX b).toNat))] →
    ∃ t, exec i s = .next t ∧ t.st.x = s.st.x ∧ (s.st.pc.getLsbD 0 = false → t.st.pc.getLsbD 0 = false) ∧
      t.st.pc = (if taken then s.st.pc + BitVec.ofInt 48 (o.toInt * 2) else s.st.pc + 4)

/-- C.NOP moves the pc by 2 and does nothing else (R248, R284). -/
def Sys2Proof.Claims.NoOperation : Prop := ∀ (s : State), exec .cNop s = .next (s.retire 2)

/-- The machine after a cold reset, where the spec gives a value: no item resident and no VIQ entry, the CSRs and stream registers of
Tables 3.4 and 10.1, the slot table, the queues of Table 4.1, the event ring, the page command unit, the regions, the press, the
links' windows, exports and ports, the mailbox, empty caches, and every die in reset until the boot ends. -/
def Sys2Proof.Claims.ResetState : Prop :=
  (∀ n, (getStrand State.reset n).resident = false ∧ (getStrand State.reset n).viq = [] ∧ (getStrand State.reset n).hold = [] ∧
    (getStrand State.reset n).trap = ⟨0, 0, 0, 0, 0⟩ ∧ (getStrand State.reset n).csr = { vshare := 1 } ∧
    (∀ k : SReg, ((getStrand State.reset n).streams[k.val]).kind = 0)) ∧
  (∀ c, (getCore State.reset c).l1 = [] ∧ (getCore State.reset c).tlb = [] ∧ ∀ k : Fin 16, (getCore State.reset c).slots[k.val] = 0) ∧
  (∀ q, getQueue State.reset q = { qctl := 1 }) ∧
  State.reset.ev = ⟨0, 0, 0, 0, 0, []⟩ ∧ State.reset.cycle = 0 ∧
  State.reset.pages = ⟨0, 0, 0, 0, none, none⟩ ∧ State.reset.regions = [] ∧
  State.reset.lines.tags = [] ∧ State.reset.lines.counters = [] ∧ State.reset.lines.released = false ∧
  State.reset.press.rtaddr = 0 ∧ State.reset.press.stat = 0 ∧ State.reset.press.slots = [] ∧
  State.reset.links.windows = [] ∧ State.reset.links.exports = [] ∧ State.reset.links.ports = [] ∧ State.reset.links.cdesc = 0 ∧
  State.reset.daleel.mbstat = 0 ∧ State.reset.daleel.mbarg = 0 ∧
  (∀ d : Fin 4, State.reset.daleel.dies[d.val] = .inReset)

/-- Reset memory is in its canonical form (log 2: it lists nothing, and a byte that nothing has written reads 0). -/
def Sys2Proof.Claims.MemoryFormAtReset : Prop := Memory.wf State.reset.mem = true ∧ ∀ a, memByte State.reset.mem a = 0

/-- Every step keeps memory in its canonical form: its addresses rise, and no listed byte equals what an unlisted one reads. -/
def Obligations.MemoryFormKept : Prop := ∀ (s t : State), Memory.wf s.mem = true → step s = .next t → Memory.wf t.mem = true

end

namespace Sys2Proof.Claims
open Sys2Proof.Machine

/-! ## Rounding and the special functions, in rational and real numbers (R26, R29 to R31, R36, R38, R278, R301, R308) -/

/-- The value of the magnitude code c of a format: an exponent field above p - 1 fraction bits, and subnormals at exponent 0
(R26, R29, R30). -/
def magnitude (f : FloatFmt) (c : Nat) : ℚ :=
  let e := c / 2 ^ (f.p - 1)
  let m := c % 2 ^ (f.p - 1)
  if e = 0 then (m : ℚ) * 2 ^ f.emin else ((2 ^ (f.p - 1) + m : Nat) : ℚ) * 2 ^ (f.emin + e - 1)

/-- The ulp of the top binade. -/
def topUlp (f : FloatFmt) : ℚ := 2 ^ (f.emin + (f.max / 2 ^ (f.p - 1) : Nat) - 1)

/-- A magnitude code with a sign: no q8 format has a -0 (R29). -/
def signCode (f : FloatFmt) (neg : Bool) (c : Nat) : Nat :=
  if neg = true ∧ ¬ (f.q8 = true ∧ c = 0) then 2 ^ (f.w - 1) + c else c

/-- Table 2.2, and R29 and R30 with their biases: precision, quantum, largest finite code, infinity and NaN of every format. -/
def FormatFigures : Prop :=
  let fig (f : FloatFmt) := (f.w, f.p, f.emin, f.max, f.inf, f.nan)
  fig fmtF16 = (16, 11, -24, 0x7BFF, some 0x7C00, 0x7E00) ∧
  fig fmtBf16 = (16, 8, -133, 0x7F7F, some 0x7F80, 0x7FC0) ∧
  fig fmtF32 = (32, 24, -149, 0x7F7FFFFF, some 0x7F800000, 0x7FC00000) ∧
  fig fmtF64 = (64, 53, -1074, 0x7FEFFFFFFFFFFFFF, some 0x7FF0000000000000, 0x7FF8000000000000) ∧
  ∀ k : Fin 7,
    elemOf (BitVec.ofNat 6 (0x10 + k.val)) = some (.flt (fmtQ8 (k.val + 1) true false)) ∧
    elemOf (BitVec.ofNat 6 (0x18 + k.val)) = some (.flt (fmtQ8 (k.val + 1) true true)) ∧
    elemOf (BitVec.ofNat 6 (0x20 + k.val)) = some (.flt (fmtQ8 (k.val + 1) false false)) ∧
    elemOf (BitVec.ofNat 6 (0x28 + k.val)) = some (.flt (fmtQ8 (k.val + 1) false true)) ∧
    fig (fmtQ8 (k.val + 1) true false) = (8, k.val + 1, (1 - 2 ^ (6 - k.val) - k.val : Int), 0x7F, none, 0x80) ∧
    fig (fmtQ8 (k.val + 1) true true) = (8, k.val + 1, (1 - 2 ^ (6 - k.val) - k.val : Int), 0x7E, some 0x7F, 0x80) ∧
    fig (fmtQ8 (k.val + 1) false false) = (8, k.val + 1, (1 - 2 ^ (7 - k.val) - k.val : Int), 0xFE, none, 0xFF) ∧
    fig (fmtQ8 (k.val + 1) false true) = (8, k.val + 1, (1 - 2 ^ (7 - k.val) - k.val : Int), 0xFD, some 0xFE, 0xFF)

/-- Whether a value d above one code and u below the next goes up to it, c being the code below: nearest, a tie to the even code;
toward zero; toward an infinity; ties away; and with the grain g (R36, R38, R278). In a format without fraction bits an even code
does not exist, and a tie is left open. -/
def GoesUp (f : FloatFmt) (mode : Mode) (neg : Bool) (c : Nat) (d u : ℚ) (up : Bool) : Prop :=
  match mode with
  | .ne => (d < u → up = false) ∧ (u < d → up = true) ∧ (d = u → 1 < f.p → (up = true ↔ c % 2 = 1))
  | .tz | .rz => up = false
  | .dn => up = neg
  | .up => up = ! neg
  | .away => up = true ↔ u ≤ d
  | .sr g => up = true ↔ 2 ^ 16 ≤ ⌊d * 2 ^ 16 / (d + u)⌋ + (g : Int)

/-- What an overflow gives: infinity or the largest finite value, with OF and NX (R31, R36, R278). -/
def overflowed (f : FloatFmt) (mode : Mode) (neg : Bool) : Nat × Flags :=
  let far := match mode with
    | .ne | .away | .sr _ => true
    | .tz | .rz => false
    | .dn => neg
    | .up => ! neg
  match f.inf with
  | some i => (signCode f neg (if far then i else f.max), 5)
  | none => (signCode f neg f.max, 5)

/-- A finite value of magnitude X > 0 written in a format as r: exact values raise nothing; between two codes the mode chooses,
with NX, and UF below the normal range; beyond the largest finite value it overflows. -/
def Rounded (f : FloatFmt) (mode : Mode) (neg : Bool) (X : ℚ) (r : Nat × Flags) : Prop :=
  let top := magnitude f f.max
  (∀ c, c ≤ f.max → magnitude f c = X → r = (signCode f neg c, 0)) ∧
  (∀ c, c + 1 ≤ f.max → magnitude f c < X → X < magnitude f (c + 1) →
    ∃ up : Bool, GoesUp f mode neg c (X - magnitude f c) (magnitude f (c + 1) - X) up ∧
      r.1 = signCode f neg (if up then c + 1 else c) ∧ (r.2 = 1 ∨ r.2 = 3) ∧
      (c + 1 < 2 ^ (f.p - 1) → r.2 = 3) ∧ (2 ^ (f.p - 1) ≤ c → r.2 = 1)) ∧
  (top + topUlp f ≤ X → r = overflowed f mode neg) ∧
  (mode = .ne → top < X → r = if top + topUlp f / 2 ≤ X then overflowed f mode neg else (signCode f neg f.max, 1)) ∧
  (∀ g, mode = .sr g → top < X → X < top + topUlp f →
    r = if 2 ^ 16 ≤ ⌊(X - top) * 2 ^ 16 / topUlp f⌋ + (g : Int) then overflowed f mode neg else (signCode f neg f.max, 1))

/-- A code of a format whose value is nearest to x among all finite ones, but for at most 2^-200 of x. -/
def Nearest (f : FloatFmt) (neg : Bool) (c : Nat) (x : ℝ) : Prop :=
  let v (n : Bool) (z : Nat) : ℝ := (if n then -1 else 1) * (magnitude f z : ℝ)
  c ≤ f.max ∧ ∀ (n : Bool) (z : Nat), z ≤ f.max → |v neg c - x| ≤ |v n z - x| + |x| / 2 ^ 200

/-- A special function on the finite nonzero elements of its domain: the nearest f32 or f64 value, and for f16 and bf16 the
rounding of the nearest f32 value; infinity with OF and NX above the range; no NV and no DZ (R301). -/
def Approximates (f : FloatFmt) (fn : Machine.Num → Machine.Num × Flags) (F : ℝ → ℝ) (domain : ℝ → Prop) : Prop :=
  ∀ (c m : Nat) (neg : Bool) (e : Int), decodeFloat f c = .fin neg m e → m ≠ 0 →
    let x : ℝ := (if neg then -1 else 1) * ((m : ℝ) * (2 : ℝ) ^ e)
    let r := specialOut f fn c
    domain x →
    (|F x| ≤ (magnitude f f.max : ℝ) → r.flags &&& 0x1C = 0 ∧
      ∃ (n : Bool) (z : Nat), (f.w ≠ 16 → Nearest f n z (F x) ∧ r.val = signCode f n z) ∧
        (f.w = 16 → Nearest fmtF32 n z (F x) ∧ r.val = (encodeFloat f .ne (decodeFloat fmtF32 (signCode fmtF32 n z))).1)) ∧
    ((magnitude f f.max + topUlp f : ℝ) ≤ F x → r.flags = 5 ∧ f.inf = some r.val)

/-- The code of 1, and of infinity. -/
def oneCode (f : FloatFmt) : Nat := (2 - f.p - f.emin).toNat * 2 ^ (f.p - 1)
def infCode (f : FloatFmt) : Nat := f.inf.getD 0

/-- Table 17.9: the result and flags of a special function at +0, -0, +∞, -∞, and the negative finite values where they are no
ordinary ones. -/
def Edges (f : FloatFmt) (fn : Machine.Num → Machine.Num × Flags) (pz nz pi ni : Nat × Flags) (below : Bool) : Prop :=
  let out (c : Nat) := ((specialOut f fn c).val, (specialOut f fn c).flags)
  out 0 = pz ∧ out (2 ^ (f.w - 1)) = nz ∧ out (infCode f) = pi ∧ out (2 ^ (f.w - 1) + infCode f) = ni ∧
  (∀ c, 2 ^ (f.w - 1) < c → c < 2 ^ (f.w - 1) + infCode f → below = true → out c = (f.nan, 16)) ∧
  (∀ c, infCode f < c % 2 ^ (f.w - 1) → c < 2 ^ f.w → out c = (f.nan, if decodeFloat f c = .nan true then 16 else 0))

end Sys2Proof.Claims

section
open Sys2Proof Sys2Proof.Machine

/-- The number formats (Tables 2.1 and 2.2, R29, R30), what a code's value is, and rounding: a finite value goes to the code of its
value, or to one of the two codes around it as the mode says, or overflows; zeros, infinities and NaN; a negative value into an
unsigned q8 format (R26, R27, R31, R36, R38, R278). A float is rounded to an integer likewise, NaN giving 0 and a value outside the
range its nearer end, with NV (R36, R282). -/
def Obligations.Rounding : Prop := ∀ (t : BitVec 6) (f : FloatFmt) (mode : Mode) (neg : Bool) (m : Nat) (e : Int),
  Claims.FormatFigures ∧
  (elemOf t = some (.flt f) →
    (∀ c, c ≤ f.max → (neg = true → f.sgn = true) → (f.q8 = true → neg = true → c ≠ 0) →
      ∃ (a : Nat) (k : Int), decodeFloat f (Claims.signCode f neg c) = .fin neg a k ∧ (a : ℚ) * 2 ^ k = Claims.magnitude f c) ∧
    ((neg = true → f.sgn = true) → encodeFloat f mode (.fin neg 0 e) = (Claims.signCode f neg 0, 0)) ∧
    ((neg = true → f.sgn = true) → encodeFloat f mode (.inf neg) = (match f.inf with
      | some i => (Claims.signCode f neg i, 0)
      | none => (Claims.signCode f neg f.max, 5))) ∧
    (∀ q, encodeFloat f mode (.nan q) = (f.nan, if f.q8 then 16 else 0)) ∧
    (0 < m → (∀ g, mode = .sr g → g < 2 ^ 16) →
      ((neg = true → f.sgn = true) → Claims.Rounded f mode neg ((m : ℚ) * 2 ^ e) (encodeFloat f mode (.fin neg m e))) ∧
      (f.sgn = false → (mode = .ne ∨ mode = .tz ∨ ∃ g, mode = .sr g) → encodeFloat f mode (.fin true m e) =
        (if (encodeFloat f mode (.fin false m e)).1 = 0 then encodeFloat f mode (.fin false m e) else (f.nan, 16))))) ∧
  (∀ (w : Nat) (sg : Bool), 0 < w →
    let lo : Int := if sg then -(2 ^ (w - 1)) else 0
    let hi : Int := if sg then 2 ^ (w - 1) - 1 else 2 ^ w - 1
    let X : ℚ := (if neg then -1 else 1) * ((m : ℚ) * 2 ^ e)
    (∀ q, encodeInt w sg mode (.nan q) = (0, 16)) ∧ encodeInt w sg mode (.inf neg) = (if neg then lo else hi, 16) ∧
    (∀ y : Int, (match mode with
        | .ne => |X - y| < 1 / 2 ∨ (|X - y| = 1 / 2 ∧ y % 2 = 0)
        | .tz | .rz => |(y : ℚ)| ≤ |X| ∧ |X - y| < 1 ∧ 0 ≤ X * y
        | .dn => y = ⌊X⌋
        | .up => y = ⌈X⌉
        | .away => |X - y| < 1 / 2 ∨ (|X - y| = 1 / 2 ∧ |X| < |(y : ℚ)|)
        | .sr _ => False) →
      encodeInt w sg mode (.fin neg m e) = if y < lo then (lo, 16) else if hi < y then (hi, 16) else (y, if (y : ℚ) = X then 0 else 1)))

/-- The special functions (R301, R308): 1/x, 1/√x, √x, 2^x, log2 x and tanh x on f16, bf16 and f32, the first and third on f64 too,
and e^x on f32; every result is the value nearest to the real function's, to within 2^-200 of it, and Table 17.9 at the edges. -/
def Obligations.SpecialFunctions : Prop := ∀ f : FloatFmt, f = fmtF16 ∨ f = fmtBf16 ∨ f = fmtF32 ∨ f = fmtF64 →
  let one := Claims.oneCode f
  let inf := Claims.infCode f
  let neg (c : Nat) := 2 ^ (f.w - 1) + c
  let rcp := fun x => divNum (.fin false 1 0) x
  Claims.Approximates f rcp (fun x => 1 / x) (fun _ => True) ∧
  Claims.Edges f rcp (inf, 8) (neg inf, 8) (0, 0) (neg 0, 0) false ∧
  Claims.Approximates f sqrtNum Real.sqrt (fun x => 0 < x) ∧
  Claims.Edges f sqrtNum (0, 0) (neg 0, 0) (inf, 0) (f.nan, 16) true ∧
  (f.w < 64 →
    Claims.Approximates f rsqFn (fun x => 1 / Real.sqrt x) (fun x => 0 < x) ∧
    Claims.Edges f rsqFn (inf, 8) (neg inf, 8) (0, 0) (f.nan, 16) true ∧
    Claims.Approximates f exp2Fn (fun x => (2 : ℝ) ^ x) (fun _ => True) ∧
    Claims.Edges f exp2Fn (one, 0) (one, 0) (inf, 0) (0, 0) false ∧
    Claims.Approximates f log2Fn (Real.logb 2) (fun x => 0 < x) ∧
    Claims.Edges f log2Fn (neg inf, 8) (neg inf, 8) (inf, 0) (f.nan, 16) true ∧
    Claims.Approximates f tanhFn Real.tanh (fun _ => True) ∧
    Claims.Edges f tanhFn (0, 0) (neg 0, 0) (one, 0) (neg one, 0) false ∧
    Claims.Approximates f expFn Real.exp (fun _ => True) ∧
    Claims.Edges f expFn (one, 0) (one, 0) (inf, 0) (0, 0) false)

end

/-! ## The statements that have several parts -/

section
open Sys2Proof

/-- The 30 register forms and the immediate forms write x[d], and nothing else but the pc and the retired count; x0 reads 0.
Choices of the model that it rests on, named at its parts: log 98. -/
def Obligations.ScalarForms : Prop :=
  Claims.RegisterForms ∧ Claims.ImmediateForms ∧ Claims.ScalarRegisters

/-- Branches, jumps and C.NOP: where the pc goes, what is linked, and the trap of an odd target. -/
def Obligations.ControlFlow : Prop :=
  Claims.Branches ∧ Claims.Jumps ∧ Claims.NoOperation

/-- Loads complete: x[d] takes the bytes at the address, from the L1 or from memory, and memory stays. -/
def Obligations.LoadForms : Prop :=
  Claims.Loads ∧ Claims.LoadsFromL1

/-- Stores complete: the bytes at the address change, and no other byte and no register. -/
def Obligations.StoreForms : Prop :=
  Claims.Stores

/-- AMO and CAS complete: old value in x[d], new value in memory, flags and ordering. -/
def Obligations.AtomicForms : Prop :=
  Claims.Atomics

/-- Accesses, CSR numbers and privileged forms that trap, with cause and tval and no effect of their own. -/
def Obligations.ScalarTraps : Prop :=
  Claims.AccessTraps ∧ Claims.CsrTraps ∧ Claims.PrivilegedForms

/-- FENCE and SBAR wait for what came before, empty the L1 on an acquire, and change nothing else. -/
def Obligations.FenceForms : Prop :=
  Claims.Fences

/-- Scalar floating point: rounded results and flags, and the trap of a reserved rounding mode. -/
def Obligations.FloatForms : Prop :=
  Claims.ScalarFloat ∧ Claims.FloatCompareConvert

/-- CSR forms complete on every register of Table 3.4, and a written register reads back its bits. -/
def Obligations.CsrForms : Prop :=
  Claims.CsrAccess ∧ Claims.CsrReadBack

/-- Taking a trap and returning from one: saved registers, mode, hold buffer and pc.
Choices of the model that it rests on, named at its parts: log 18. -/
def Obligations.TrapsAndReturns : Prop :=
  Claims.TrapEntry ∧ Claims.TrapiSysret

/-- HALT ends the context; YIELD is noted for the sequencer; WAITEV answers or parks.
Choices of the model that it rests on, named at its parts: logs 7 and 51. -/
def Obligations.HaltYieldWaitev : Prop :=
  Claims.Halt ∧ Claims.YieldWaitev

/-- CACHEOP and TLBINV: lines pinned, unpinned, flushed, dropped; translations dropped; memory stays.
Choices of the model that it rests on, named at its parts: logs 49, 50 and 63. -/
def Obligations.CacheForms : Prop :=
  Claims.Prefetch ∧ Claims.CacheLines ∧ Claims.TlbInvalidate

/-- Barrier forms on a valid object: answers, arrivals, parking, and only the object changes. -/
def Obligations.BarrierForms : Prop :=
  Claims.Barriers

/-- Group forms: arrivals, waits, GREAD and EXIT.G.
Choices of the model that it rests on, named at its parts: log 42. -/
def Obligations.GroupForms : Prop :=
  Claims.GroupForms ∧ Claims.GroupRead ∧ Claims.ExitGroups

/-- Writing a vine: tokens reserved, stored and committed. -/
def Obligations.VineWrites : Prop :=
  Claims.VineStore ∧ Claims.VineReserve ∧ Claims.VineCommit

/-- Opening, forking, trimming and dropping vines.
Choices of the model that it rests on, named at its parts: log 41. -/
def Obligations.VineLives : Prop :=
  Claims.VineOpenFork ∧ Claims.VineTrimDrop

/-- Vector unary, select, fixed-point and special-function forms: every active element takes its result. -/
def Obligations.VectorUnaryForms : Prop :=
  Claims.VectorUnarySelect ∧ Claims.VectorFixedPoint ∧ Claims.VectorSpecial

/-- Vector compares, mask forms and permutations: every active element or bit takes its result. -/
def Obligations.VectorMasksAndMoves : Prop :=
  Claims.VectorCompareMasks ∧ Claims.VectorPermute

/-- Reductions, scans, conversions and scores of vectors. -/
def Obligations.VectorReductions : Prop :=
  Claims.VectorReduce ∧ Claims.IntegerReductions ∧ Claims.VectorConvertScore

/-- VCFG, VSETVL, VTAG and VTAGRD, and the forms that read vector state into scalar registers. -/
def Obligations.VectorConfigAndScalars : Prop :=
  Claims.VectorConfig ∧ Claims.VectorToScalar

/-- VWAIT goes on or parks; VMERGEU merges two sorted lists.
Choices of the model that it rests on, named at its parts: log 31. -/
def Obligations.VectorWaitAndMerge : Prop :=
  Claims.VectorWait ∧ Claims.VectorMerge

/-- DCFG, DDIR, DFREE and DZERO: grants, the slot directory, and cleared slots.
Choices of the model that it rests on, named at its parts: log 16. -/
def Obligations.DiagonalDirectory : Prop :=
  Claims.DiagonalDirectory ∧ Claims.DiagonalZero

/-- DMAC, DMAC.D and DMACG: each product goes to its slot once, fills in a slot, is dropped, or traps.
Choices of the model that it rests on, named at its parts: log 16. -/
def Obligations.DiagonalProducts : Prop :=
  Claims.DiagonalProducts ∧ Claims.DiagonalFillIn

/-- DXTR, DMV, DMV.M, DPIV and DUPD on the diagonals.
Choices of the model that it rests on, named at its parts: logs 37, 69 and 84. -/
def Obligations.DiagonalRows : Prop :=
  Claims.DiagonalVectors ∧ Claims.DiagonalUpdate

/-- Tiles: cleared, written, read, multiplied, saved and restored.
Choices of the model that it rests on, named at its parts: log 36. -/
def Obligations.TileForms : Prop :=
  Claims.Tiles ∧ Claims.TileTransfers

/-- XCOPY and XGATH: elements and rows move in order, into rings too, and nothing else changes.
Choices of the model that it rests on, named at its parts: log 15. -/
def Obligations.CopyForms : Prop :=
  Claims.CopyTensor ∧ Claims.CopyIntoRing ∧ Claims.CopyRows

/-- Press routines: slots loaded and emptied, routines started, their services, and XDRAIN.
Choices of the model that it rests on, named at its parts: logs 15, 40, 56 and 97. -/
def Obligations.RoutineForms : Prop :=
  Claims.RoutinesDrain ∧ Claims.RoutineSlots ∧ Claims.RoutineServices

/-- Chains: XCHAIN sends its elements whole; a producer waits in the VIQ for its consumer.
Choices of the model that it rests on, named at its parts: logs 23 and 32. -/
def Obligations.ChainForms : Prop :=
  Claims.ChainSend ∧ Claims.ChainProducer

/-- Command queues: their registers, and how an entry is fetched, started and completed.
Choices of the model that it rests on, named at its parts: logs 1, 44, 74, 87 and 98. -/
def Obligations.QueueEvents : Prop :=
  Claims.QueueRegisters ∧ Claims.EntryFetch ∧ Claims.EntryStart ∧ Claims.EntryComplete

/-- Items: placed, pre-empted at their slice, stopped by the watchdog, and ended.
Choices of the model that it rests on, named at its parts: logs 1, 3, 46 and 90. -/
def Obligations.ItemLives : Prop :=
  Claims.PlaceItem ∧ Claims.TimeSlice ∧ Claims.Watchdog ∧ Claims.Exit

/-- A frame saves a strand and a restore brings it back.
Choices of the model that it rests on, named at its parts: logs 45, 71 and 72. -/
def Obligations.Frames : Prop :=
  Claims.FrameSave ∧ Claims.FrameRestore

/-- The event ring, unparking, the service and release queues, and vine requests.
Choices of the model that it rests on, named at its parts: logs 1 and 66. -/
def Obligations.DoorbellEvents : Prop :=
  Claims.EventRing ∧ Claims.Unpark ∧ Claims.Polls ∧ Claims.VineRequest

/-- The sequencer, engine slots, copy channels, chains, tile transfers and deadlines.
Choices of the model that it rests on, named at its parts: logs 1, 24, 38 and 64. -/
def Obligations.UnitEvents : Prop :=
  Claims.Strips ∧ Claims.EngineStrip ∧ Claims.SlotTurn ∧ Claims.CopyAccept ∧ Claims.CopyRuns ∧ Claims.ChainGroup ∧
  Claims.TransferEnd ∧ Claims.Deadlines

/-- Page commands, moves, walks and the collector.
Choices of the model that it rests on, named at its parts: logs 1, 48 and 91. -/
def Obligations.PageEvents : Prop :=
  Claims.PageCommands ∧ Claims.MoveEnds ∧ Claims.WalkEnds ∧ Claims.Collector

/-- Requests at the home: reads, writes, atomics, cache operations and scratchpads.
Choices of the model that it rests on, named at its parts: log 50. -/
def Obligations.HomeRequests : Prop :=
  Claims.ReadWrite ∧ Claims.HomeAtomics ∧ Claims.HomeCache ∧ Claims.ScratchpadAccess

/-- The work of a slice, held writes, and the answers to SIGNALs.
Choices of the model that it rests on, named at its parts: logs 1 and 57. -/
def Obligations.SliceEvents : Prop :=
  Claims.SliceWork ∧ Claims.SliceWrites ∧ Claims.SignalAnswers

/-- Ports, flits and requests from peers.
Choices of the model that it rests on, named at its parts: logs 1, 55, 60, 76, 77 and 92. -/
def Obligations.LinkEvents : Prop :=
  Claims.PortStates ∧ Claims.Flits ∧ Claims.PeerRequests

/-- Collectives: queued, started, contributed to, and ended.
Choices of the model that it rests on, named at its parts: logs 1 and 76. -/
def Obligations.CollectiveEvents : Prop :=
  Claims.CollectiveBell ∧ Claims.Contributions ∧ Claims.CollectiveEnd ∧ Claims.CollectiveStarts

/-- The host port and register writes.
Choices of the model that it rests on, named at its parts: logs 1 and 54. -/
def Obligations.HostEvents : Prop :=
  Claims.HostPort ∧ Claims.RegisterWrites

/-- Resets, boot, power and the mailbox.
Choices of the model that it rests on, named at its parts: logs 1, 2, 3, 4, 10, 53, 57, 80 and 99. -/
def Obligations.DaleelEvents : Prop :=
  Claims.Resets ∧ Claims.Boot ∧ Claims.CorePower ∧ Claims.MailCommands ∧ Claims.MailDone ∧ Claims.DieResets

/-- A step runs the instruction decoded at the pc, after the VIQ, or the agenda's next turn.
Choices of the model that it rests on, named at its parts: logs 1, 17 and 21. -/
def Obligations.StepRunsDecoded : Prop :=
  Claims.StepRunsDecoded ∧ Claims.StepVectorFirst ∧ Claims.StepAgenda

/-- The machine after a cold reset, where the spec gives a value.
Choices of the model that it rests on, named at its parts: log 2. -/
def Obligations.ResetState : Prop :=
  Claims.ResetState ∧ Claims.MemoryFormAtReset

end
end

