-- ==== Sys2Proof/Laws/Act.lean ====
section
/-! SUPPORT. How a computation runs: what each of its building blocks answers and leaves. -/

namespace Sys2Proof.Machine

@[simp] theorem on_pure {α : Type} (x : α) (s : State) : Act.on (pure x : Act α) s = (.ok x, s) := rfl
@[simp] theorem on_throw {α : Type} (e : Stop) (s : State) : Act.on (throw e : Act α) s = (.error e, s) := rfl
@[simp] theorem on_get (s : State) : Act.on (get : Act State) s = (.ok s, s) := rfl
@[simp] theorem on_set (t s : State) : Act.on (set t : Act PUnit) s = (.ok ⟨⟩, t) := rfl
@[simp] theorem on_apply (f : State → State) (s : State) : Act.on (apply f) s = (.ok (), f s) := rfl
@[simp] theorem on_lift {α : Type} (f : State → α × State) (s : State) : Act.on (lift f) s = (.ok (f s).1, (f s).2) := rfl
@[simp] theorem on_trap {α : Type} (c : BitVec 8) (v : Word) (s : State) : Act.on (trap c v : Act α) s = (.error (.trap c v), s) := rfl

/-- A sequence: the second part runs on what the first leaves; a first part that stops ends it. -/
theorem on_bind {α β : Type} (a : Act α) (k : α → Act β) (s : State) :
    Act.on (a >>= k) s = match Act.on a s with
      | (.ok x, s') => Act.on (k x) s'
      | (.error e, s') => (.error e, s') := by
  show (ExceptT.bind a k).run.run s = _
  unfold Act.on ExceptT.run ExceptT.bind ExceptT.mk StateT.run
  show StateT.bind a _ s = _
  unfold StateT.bind
  simp only [bind]
  rcases a s with ⟨r, s'⟩
  cases r <;> rfl

/-- A sequence whose first part answers. -/
theorem on_bind_ok {α β : Type} {a : Act α} {k : α → Act β} {s s' : State} {x : α} (h : Act.on a s = (.ok x, s')) :
    Act.on (a >>= k) s = Act.on (k x) s' := by rw [on_bind, h]

/-- A sequence whose first part stops. -/
theorem on_bind_error {α β : Type} {a : Act α} {k : α → Act β} {s s' : State} {e : Stop} (h : Act.on a s = (.error e, s')) :
    Act.on (a >>= k) s = (.error e, s') := by rw [on_bind, h]

/-- A sequence that answers: both parts do. -/
theorem on_bind_eq_ok {α β : Type} {a : Act α} {k : α → Act β} {s t : State} {y : β} (h : Act.on (a >>= k) s = (.ok y, t)) :
    ∃ x s', Act.on a s = (.ok x, s') ∧ Act.on (k x) s' = (.ok y, t) := by
  rw [on_bind] at h
  rcases e : Act.on a s with ⟨r, s'⟩
  rw [e] at h
  cases r with
  | error => simp at h
  | ok x => exact ⟨x, s', rfl, h⟩

@[simp] theorem on_ite {α : Type} (c : Prop) [Decidable c] (a b : Act α) (s : State) :
    Act.on (if c then a else b) s = if c then Act.on a s else Act.on b s := by split <;> rfl

/-- `drained` answers just when the VIQ is empty (R55). -/
theorem on_drained (s : State) : Act.on drained s = if s.st.viq = [] then (.ok (), s) else (.error (.drain s.st.viq.length), s) := by
  unfold drained
  rw [on_bind, on_get]
  by_cases h : s.st.viq = [] <;> simp [h]

/-- A scalar instruction whose work answers: the next state is what it leaves, moved past the instruction. -/
theorem scalar_ok {len : Nat} {a : Act Unit} {s t : State} (h : Act.on a s = (.ok (), t)) : scalar len a s = .next (t.retire len) := by
  unfold scalar
  rw [on_bind_ok h]
  rfl

/-- A scalar instruction whose work traps (R56), its strand being still there. -/
theorem scalar_trap {len : Nat} {a : Act Unit} {s t : State} {c : BitVec 8} {v : Word} (h : Act.on a s = (.error (.trap c v), t))
    (hg : strandGone s t = false) : scalar len a s = .next (trapFrom s c v t) := by
  unfold scalar
  rw [on_bind_error h]
  simp [finish, hg, stopFrom]

/-- A scalar instruction whose work parks (R60), its strand being still there. -/
theorem scalar_park {len : Nat} {a : Act Unit} {s t : State} {r : BitVec 4} {k : WaitKey} (h : Act.on a s = (.error (.park r k), t))
    (hg : strandGone s t = false) : scalar len a s = .next (parkOn t r k) := by
  unfold scalar
  rw [on_bind_error h]
  simp [finish, hg, stopFrom]

end Sys2Proof.Machine
end

