-- ==== Sys2Proof/Laws/Encoding.lean ====
section
/-! SUPPORT. Bit fields and the codes of enumerations: an operand's code fits its field and decodes to it. -/

namespace Sys2Proof

theorem two_pow_16 : (2 : Nat) ^ 16 = 65536 := by norm_num
theorem two_pow_32 : (2 : Nat) ^ 32 = 4294967296 := by norm_num
theorem two_pow_64 : (2 : Nat) ^ 64 = 18446744073709551616 := by norm_num

/-- A field is a quotient's remainder. -/
theorem fld_eq (w lo n : Nat) : fld w lo n = w / 2 ^ lo % 2 ^ n := by cases w <;> simp [fld]

/-- A field inside a field. -/
theorem fld_sub {w L K v l o k : Nat} (h : fld w L K = v) (hl : L + o = l) (hk : o + k ≤ K) : fld w l k = v / 2 ^ o % 2 ^ k := by
  subst hl
  rw [← h, fld_eq, fld_eq, Nat.pow_add, ← Nat.div_div_eq_div_mul]
  obtain ⟨j, rfl⟩ := Nat.exists_eq_add_of_le hk
  rw [Nat.add_assoc, Nat.pow_add 2 o, Nat.mod_mul_right_div_self, Nat.pow_add 2 k, Nat.mod_mul_right_mod]

/-- Two neighbouring fields as one. -/
theorem fld_app {w l n m k j a b : Nat} (h1 : fld w l n = a) (h2 : fld w m k = b) (hm : l + n = m) (hj : n + k = j) :
    fld w l j = a + 2 ^ n * b := by
  subst hm hj
  rw [← h1, ← h2, fld_eq, fld_eq, fld_eq, Nat.pow_add 2 l, ← Nat.div_div_eq_div_mul, Nat.pow_add 2 n, Nat.mod_mul]

/-- A prefixed instruction is decoded from all its 64 bits. -/
theorem decodeBits_pair {w : Nat} (h : fld w 0 2 = 3) (hw : w < 2 ^ 64) : decodeBits w = decode64 w := by
  simp only [decodeBits, h, Nat.mod_eq_of_lt hw]

theorem decode64_tile {w : Nat} (h : fld w 2 6 = 1) : decode64 w = decodeTile (w % 2 ^ 32) (w / 2 ^ 32) := by
  rw [decode64.eq_1, h]; rfl

theorem decode64_li64 {w : Nat} (h : fld w 2 6 = 2) :
    decode64 w = .ok (.li64 (xr w 8) (BitVec.ofNat 51 (fld w 13 19 * 2 ^ 32 + fld w 32 32))) := by
  rw [decode64.eq_1, h]; rfl

/-- A length and a word that stand for an instruction. -/
structure Codes (p : Nat × Nat) (i : Instr) : Prop where
  bound : p.2 < 2 ^ (8 * p.1)
  len : lengthOf p.2 = p.1
  read : decodeBits p.2 = .ok i

theorem Codes.word {w : Nat} {i : Instr} (hm : w < 2 ^ 32) (h : fld w 0 2 = 1) (hd : decodeBits w = .ok i) : Codes (4, w) i :=
  ⟨hm, by rw [lengthOf, h]; rfl, hd⟩

theorem Codes.half {w : Nat} {i : Instr} (hm : w < 2 ^ 16) (h : fld w 0 2 = 0 ∨ fld w 0 2 = 2) (hd : decodeBits w = .ok i) : Codes (2, w) i :=
  ⟨hm, by rcases h with h | h <;> rw [lengthOf, h] <;> rfl, hd⟩

theorem Codes.pair {w : Nat} {i : Instr} (hm : w < 2 ^ 64) (h : fld w 0 2 = 3) (hd : decodeBits w = .ok i) : Codes (8, w) i :=
  ⟨hm, by rw [lengthOf, h]; rfl, hd⟩

/-- Only the low bits of a word are read as a field there. -/
theorem fld_add_mul (w x lo n k : Nat) (h : lo + n ≤ k) : fld (w + 2 ^ k * x) lo n = fld w lo n := by
  obtain ⟨j, rfl⟩ := Nat.exists_eq_add_of_le h
  rw [fld_eq, fld_eq, Nat.add_assoc lo, Nat.pow_add 2 lo, Nat.mul_assoc,
    Nat.add_mul_div_left _ _ (Nat.two_pow_pos lo), Nat.pow_add 2 n, Nat.mul_assoc, Nat.add_mul_mod_self_left]

/-- A prefixed word is two words. -/
theorem fP_parts {p w : Nat} (hp : p < 2 ^ 32) (hw : w < 2 ^ 32) : fP p w < 2 ^ 64 ∧ fP p w % 2 ^ 64 % 2 ^ 32 = p ∧ fP p w % 2 ^ 64 / 2 ^ 32 = w ∧
    (∀ lo n, lo + n ≤ 32 → fld (fP p w) lo n = fld p lo n) ∧ fld (fP p w) 32 32 = w := by
  have h1 : fP p w < 2 ^ 64 := by simp only [fP]; omega
  have h2 : fP p w % 2 ^ 32 = p := by simp only [fP]; omega
  have h3 : fP p w / 2 ^ 32 = w := by simp only [fP]; omega
  refine ⟨h1, by rw [Nat.mod_eq_of_lt h1, h2], by rw [Nat.mod_eq_of_lt h1, h3], ?_, ?_⟩
  · intro lo n hle
    have e : fP p w = p + 2 ^ 32 * w := by simp only [fP]; ring
    rw [e, fld_add_mul _ _ _ _ _ hle]
  · rw [fld_eq, h3, Nat.mod_eq_of_lt hw]

theorem natToBytes_length (n v : Nat) : (natToBytes n v).length = n := by
  induction n generalizing v with
  | zero => rfl
  | succ n ih => simp [natToBytes, ih]

theorem bytesToNat_natToBytes (n v : Nat) (rest : List Byte) :
    bytesToNat (natToBytes n v ++ rest) = v % 2 ^ (8 * n) + 2 ^ (8 * n) * bytesToNat rest := by
  induction n generalizing v with
  | zero => simp [natToBytes, Nat.mod_one]
  | succ n ih =>
    have e : 8 * (n + 1) = 8 + 8 * n := by ring
    rw [natToBytes, List.cons_append, bytesToNat, ih, e, Nat.pow_add, Nat.mod_mul]
    simp only [BitVec.toNat_ofNat]
    ring

/-- The bytes of an encoded instruction decode to it, whatever follows them. -/
theorem Codes.decode_append {p : Nat × Nat} {i : Instr} (c : Codes p i) (rest : List Byte) :
    decode (natToBytes p.1 p.2 ++ rest) = .ok (i, rest) := by
  obtain ⟨n, w⟩ := p
  obtain ⟨hb, hl, hd⟩ := c
  simp only at hb hl hd ⊢
  have hn : n = 2 ∨ n = 4 ∨ n = 8 := by
    rw [← hl, lengthOf]
    split <;> simp
  have h8 : n ≤ 8 := by omega
  have hw : bytesToNat ((natToBytes n w ++ rest).take 8) = w + 2 ^ (8 * n) * bytesToNat (rest.take (8 - n)) := by
    rw [List.take_append, natToBytes_length, List.take_of_length_le (by rw [natToBytes_length]; exact h8),
      bytesToNat_natToBytes, Nat.mod_eq_of_lt hb]
  generalize hx : bytesToNat (rest.take (8 - n)) = x at hw
  have hlow : fld (w + 2 ^ (8 * n) * x) 0 2 = fld w 0 2 := fld_add_mul _ _ _ _ _ (by omega)
  have hlen : lengthOf (w + 2 ^ (8 * n) * x) = n := by rw [lengthOf, hlow, ← lengthOf, hl]
  have hlen2 : (natToBytes n w ++ rest).length = n + rest.length := by rw [List.length_append, natToBytes_length]
  have hmod : (w + 2 ^ (8 * n) * x) % 2 ^ (8 * n) = w := by rw [Nat.add_mul_mod_self_left, Nat.mod_eq_of_lt hb]
  have hdec : decodeBits (w + 2 ^ (8 * n) * x) = .ok i := by
    rw [← hd, decodeBits.eq_1, decodeBits.eq_1, hlow]
    have hl2 := hl
    rw [lengthOf] at hl2
    split at hl2
    · subst hl2
      have e1 : w % 2 ^ 32 = w := Nat.mod_eq_of_lt hb
      have e2 : (w + 2 ^ (8 * 4) * x) % 2 ^ 32 = w := hmod
      rw [e1, e2]
    · subst hl2
      have e1 : w % 2 ^ 64 = w := Nat.mod_eq_of_lt hb
      have e2 : (w + 2 ^ (8 * 8) * x) % 2 ^ 64 = w := hmod
      rw [e1, e2]
    · subst hl2
      have e1 : w % 2 ^ 16 = w := Nat.mod_eq_of_lt hb
      have e2 : (w + 2 ^ (8 * 2) * x) % 2 ^ 16 = w := hmod
      rw [e1, e2]
  have hdrop : (natToBytes n w ++ rest).drop n = rest := by
    rw [List.drop_append, natToBytes_length, Nat.sub_self, List.drop_eq_nil_of_le (by rw [natToBytes_length])]; rfl
  rw [decode.eq_1, hw]
  simp only [hlen, hlen2, hdec, hdrop]
  rw [if_neg (by omega)]

theorem ofNat_val {n : Nat} [NeZero n] (r : Fin n) : Fin.ofNat n r.val = r := by simp
theorem ofNat_toNat {n : Nat} (v : BitVec n) : BitVec.ofNat n v.toNat = v := by simp

/-- A 32-bit word is decoded by its major opcode. -/
theorem decodeBits_word {w : Nat} (h : fld w 0 2 = 1) (hw : w < 2 ^ 32) : decodeBits w = decode32 w := by
  simp only [decodeBits, h, Nat.mod_eq_of_lt hw]

/-- A halfword of a quadrant other than 1 and 3 is a compressed form. -/
theorem decodeBits_half {w : Nat} (h : fld w 0 2 = 0 ∨ fld w 0 2 = 2) (hw : w < 2 ^ 16) : decodeBits w = decode16 w := by
  rcases h with h | h <;> simp only [decodeBits, h, Nat.mod_eq_of_lt hw]

theorem LdSize.code_lt (x : LdSize) : x.code < 8 := by cases x <;> decide
theorem LdSize.ofCode_code (x : LdSize) : LdSize.ofCode x.code = some x := by cases x <;> rfl
theorem Sz.code_lt (x : Sz) : x.code < 4 := by cases x <;> decide
theorem Sz.ofCode_code (x : Sz) : Sz.ofCode x.code = x := by cases x <;> rfl
theorem FFmt.code_lt (x : FFmt) : x.code < 4 := by cases x <;> decide
theorem FFmt.ofCode_code (x : FFmt) : FFmt.ofCode x.code = x := by cases x <;> rfl
theorem FCond.code_lt (x : FCond) : x.code < 4 := by cases x <;> decide
theorem FCond.ofCode_code (x : FCond) : FCond.ofCode x.code = x := by cases x <;> rfl
theorem CvtTy.code_lt (x : CvtTy) : x.code < 8 := by cases x <;> decide
theorem CvtTy.ofCode_code (x : CvtTy) : CvtTy.ofCode x.code = some x := by cases x <;> rfl
theorem Scope.code_lt (x : Scope) : x.code < 4 := by cases x <;> decide
theorem Scope.ofCode_code (x : Scope) : Scope.ofCode x.code = x := by cases x <;> rfl
theorem WideScope.code_lt (x : WideScope) : x.code < 2 := by cases x <;> decide
theorem WideScope.ofCode_code (x : WideScope) : WideScope.ofCode x.code = x := by cases x <;> rfl
theorem OrdFlag.code_lt (x : OrdFlag) : x.code < 4 := by cases x <;> decide
theorem OrdFlag.ofCode_code (x : OrdFlag) : OrdFlag.ofCode x.code = some x := by cases x <;> rfl
theorem Ord.code_lt (x : Ord) : x.code < 8 := by rcases x with _ | ⟨_ | _, _ | _ | _⟩ <;> decide
theorem Ord.ofCode_code (x : Ord) : Ord.ofCode x.code = some x := by rcases x with _ | ⟨_ | _, _ | _ | _⟩ <;> rfl
theorem AmoOp.code_lt (x : AmoOp) : x.code < 16 := by cases x <;> decide
theorem AmoOp.ofCode_code (x : AmoOp) : AmoOp.ofCode x.code = some x := by cases x <;> rfl
theorem VamoOp.code_lt (x : VamoOp) : x.code < 4 := by cases x <;> decide
theorem VamoOp.ofCode_code (x : VamoOp) : VamoOp.ofCode x.code = x := by cases x <;> rfl
theorem VCond.code_lt (x : VCond) : x.code < 8 := by cases x <;> decide
theorem CvtMode.code_lt (x : CvtMode) : x.code < 4 := by cases x <;> decide
theorem RedOp.code_lt (x : RedOp) : x.code < 8 := by cases x <;> decide
theorem RedOp.ofCode_code (x : RedOp) : RedOp.ofCode x.code = some x := by cases x <;> rfl
theorem WaitCond.code_lt (x : WaitCond) : x.code < 4 := by cases x <;> decide
theorem WaitCond.ofCode_code (x : WaitCond) : WaitCond.ofCode x.code = x := by cases x <;> rfl
theorem bit_lt (b : Bool) : bit b < 2 := by cases b <;> decide
theorem bit_zero : bit false = 0 := rfl
theorem bit_one : bit true = 1 := rfl
theorem bit_beq (b : Bool) : (bit b == 1) = b := by cases b <;> rfl
theorem optFlag_lt (x : Option OrdFlag) : optFlag x < 4 := by rcases x with _ | _ | _ | _ <;> decide
theorem optFlagOf_optFlag (x : Option OrdFlag) : optFlagOf (optFlag x) = x := by rcases x with _ | _ | _ | _ <;> rfl

/-- AMO's two codes decode. -/
theorem decodeAmo_some {w : Nat} {p : AmoOp} {o : Ord} (h1 : AmoOp.ofCode (fld w 27 4) = some p) (h2 : Ord.ofCode (fld w 23 3) = some o) :
    decodeAmo w = .ok (.amo p (flag w 26) o (xr w 8) (xr w 13) (xr w 18)) := by
  rw [decodeAmo.eq_1, h1, h2]

/-- FCVT's two types decode. -/
theorem decodeFcvt_some {w : Nat} {t s : CvtTy} (h1 : CvtTy.ofCode (fld w 23 4) = some t) (h2 : CvtTy.ofCode (fld w 18 5) = some s) :
    decodeFcvt w = if t = s ∨ (t.isInt ∧ s.isInt) then .error .unlisted else .ok (.fcvt t s (xr w 8) (xr w 13)) := by
  rw [decodeFcvt.eq_1, h1, h2]

/-- The fields of a word of format A. -/
theorem fA_fields {func9 b a d maj : Nat} (h0 : func9 < 512) (h1 : b < 32) (h2 : a < 32) (h3 : d < 32) (h4 : maj < 64) :
    (fA func9 b a d maj) < 2 ^ 32 ∧ fld (fA func9 b a d maj) 23 9 = func9 ∧ fld (fA func9 b a d maj) 18 5 = b ∧ fld (fA func9 b a d maj) 13 5 = a ∧ fld (fA func9 b a d maj) 8 5 = d ∧ fld (fA func9 b a d maj) 2 6 = maj ∧ fld (fA func9 b a d maj) 0 2 = 1 := by
  simp only [fld_eq, fA]
  omega

/-- The fields of a word of format I. -/
theorem fI_fields {imm a d maj : Nat} (h0 : imm < 16384) (h1 : a < 32) (h2 : d < 32) (h3 : maj < 64) :
    (fI imm a d maj) < 2 ^ 32 ∧ fld (fI imm a d maj) 18 14 = imm ∧ fld (fI imm a d maj) 13 5 = a ∧ fld (fI imm a d maj) 8 5 = d ∧ fld (fI imm a d maj) 2 6 = maj ∧ fld (fI imm a d maj) 0 2 = 1 := by
  simp only [fld_eq, fI]
  omega

/-- The fields of a word of format U. -/
theorem fU_fields {imm d maj : Nat} (h0 : imm < 524288) (h1 : d < 32) (h2 : maj < 64) :
    (fU imm d maj) < 2 ^ 32 ∧ fld (fU imm d maj) 13 19 = imm ∧ fld (fU imm d maj) 8 5 = d ∧ fld (fU imm d maj) 2 6 = maj ∧ fld (fU imm d maj) 0 2 = 1 := by
  simp only [fld_eq, fU]
  omega

/-- The fields of a word of format M. -/
theorem fM_fields {imm z b d maj : Nat} (h0 : imm < 2048) (h1 : z < 8) (h2 : b < 32) (h3 : d < 32) (h4 : maj < 64) :
    (fM imm z b d maj) < 2 ^ 32 ∧ fld (fM imm z b d maj) 21 11 = imm ∧ fld (fM imm z b d maj) 18 3 = z ∧ fld (fM imm z b d maj) 13 5 = b ∧ fld (fM imm z b d maj) 8 5 = d ∧ fld (fM imm z b d maj) 2 6 = maj ∧ fld (fM imm z b d maj) 0 2 = 1 := by
  simp only [fld_eq, fM]
  omega

/-- The fields of a word of format S. -/
theorem fS_fields {kind c a d : Nat} (h0 : kind < 4) (h1 : c < 4096) (h2 : a < 32) (h3 : d < 32) :
    (fS kind c a d) < 2 ^ 32 ∧ fld (fS kind c a d) 30 2 = kind ∧ fld (fS kind c a d) 18 12 = c ∧ fld (fS kind c a d) 13 5 = a ∧ fld (fS kind c a d) 8 5 = d ∧ fld (fS kind c a d) 0 2 = 1 ∧ fld (fS kind c a d) 2 6 = 21 := by
  simp only [fld_eq, fS]
  omega

/-- The fields of a word of format V. -/
theorem fV_fields {func5 c m kind b a d maj : Nat} (h0 : func5 < 32) (h1 : c < 2) (h2 : m < 2) (h3 : kind < 4) (h4 : b < 32) (h5 : a < 32) (h6 : d < 32) (h7 : maj < 64) :
    (fV func5 c m kind b a d maj) < 2 ^ 32 ∧ fld (fV func5 c m kind b a d maj) 27 5 = func5 ∧ fld (fV func5 c m kind b a d maj) 26 1 = c ∧ fld (fV func5 c m kind b a d maj) 25 1 = m ∧ fld (fV func5 c m kind b a d maj) 23 2 = kind ∧ fld (fV func5 c m kind b a d maj) 18 5 = b ∧ fld (fV func5 c m kind b a d maj) 13 5 = a ∧ fld (fV func5 c m kind b a d maj) 8 5 = d ∧ fld (fV func5 c m kind b a d maj) 2 6 = maj ∧ fld (fV func5 c m kind b a d maj) 0 2 = 1 := by
  simp only [fld_eq, fV]
  omega

/-- The fields of a word of format VM. -/
theorem fVM_fields {func3 mode m g i b d maj : Nat} (h0 : func3 < 8) (h1 : mode < 8) (h2 : m < 2) (h3 : g < 4) (h4 : i < 32) (h5 : b < 32) (h6 : d < 32) (h7 : maj < 64) :
    (fVM func3 mode m g i b d maj) < 2 ^ 32 ∧ fld (fVM func3 mode m g i b d maj) 29 3 = func3 ∧ fld (fVM func3 mode m g i b d maj) 26 3 = mode ∧ fld (fVM func3 mode m g i b d maj) 25 1 = m ∧ fld (fVM func3 mode m g i b d maj) 23 2 = g ∧ fld (fVM func3 mode m g i b d maj) 18 5 = i ∧ fld (fVM func3 mode m g i b d maj) 13 5 = b ∧ fld (fVM func3 mode m g i b d maj) 8 5 = d ∧ fld (fVM func3 mode m g i b d maj) 2 6 = maj ∧ fld (fVM func3 mode m g i b d maj) 0 2 = 1 := by
  simp only [fld_eq, fVM]
  omega

/-- The fields of a word of format D. -/
theorem fD_fields {func4 x b a d : Nat} (h0 : func4 < 16) (h1 : x < 32) (h2 : b < 32) (h3 : a < 32) (h4 : d < 32) :
    (fD func4 x b a d) < 2 ^ 32 ∧ fld (fD func4 x b a d) 28 4 = func4 ∧ fld (fD func4 x b a d) 23 5 = x ∧ fld (fD func4 x b a d) 18 5 = b ∧ fld (fD func4 x b a d) 13 5 = a ∧ fld (fD func4 x b a d) 8 5 = d ∧ fld (fD func4 x b a d) 0 2 = 1 ∧ fld (fD func4 x b a d) 2 6 = 48 := by
  simp only [fld_eq, fD]
  omega

/-- The fields of a word of format C. -/
theorem fC_fields {func3 mid quad : Nat} (h0 : func3 < 8) (h1 : mid < 2048) (h2 : quad < 4) :
    (fC func3 mid quad) < 2 ^ 16 ∧ fld (fC func3 mid quad) 13 3 = func3 ∧ fld (fC func3 mid quad) 2 11 = mid ∧ fld (fC func3 mid quad) 0 2 = quad := by
  simp only [fld_eq, fC]
  omega

/-- A tile instruction is decoded from its prefix and its body. -/
theorem Codes.tile {p w : Nat} {i : Instr} (hp : p < 2 ^ 32) (hw : w < 2 ^ 32) (h0 : fld p 0 2 = 3) (h1 : fld p 2 6 = 1)
    (hd : decodeTile p w = .ok i) : Codes (8, fP p w) i := by
  obtain ⟨hb, e1, e2, e3, -⟩ := fP_parts hp hw
  have g0 : fld (fP p w) 0 2 = 3 := by rw [e3 _ _ (by decide), h0]
  have g1 : fld (fP p w) 2 6 = 1 := by rw [e3 _ _ (by decide), h1]
  refine .pair hb g0 ?_
  rw [decodeBits_pair g0 hb, decode64_tile g1]
  rw [Nat.mod_eq_of_lt hb] at e1 e2
  rw [e1, e2, hd]

/-- The prefix word of a tile instruction. -/
theorem tilePrefix {m t : Nat} (hm : m < 2) (ht : t < 8) : m * 2 ^ 11 + t * 2 ^ 8 + 0x07 < 2 ^ 32 ∧ fld (m * 2 ^ 11 + t * 2 ^ 8 + 0x07) 0 2 = 3 ∧
    fld (m * 2 ^ 11 + t * 2 ^ 8 + 0x07) 2 6 = 1 ∧ fld (m * 2 ^ 11 + t * 2 ^ 8 + 0x07) 12 20 = 0 ∧
    fld (m * 2 ^ 11 + t * 2 ^ 8 + 0x07) 8 3 = t ∧ fld (m * 2 ^ 11 + t * 2 ^ 8 + 0x07) 11 1 = m ∧
    fld (m * 2 ^ 11 + t * 2 ^ 8 + 0x07) 8 4 = m * 8 + t := by
  simp only [fld_eq]
  omega

end Sys2Proof
end

