-- ==== Sys2Proof/Laws/Memory.lean ====
section
/-! SUPPORT. The laws of sparse tables and of memory: reads after writes, and the canonical form that every write keeps. -/

namespace Sys2Proof.Machine

/-! ## Sparse tables -/

/-- A key that none of the entries has reads as the default. -/
theorem sget_absent {β : Type} (d : β) (t : List (Nat × β)) (k : Nat) (h : ∀ e ∈ t, k < e.1) : sget d t k = d := by
  induction t with
  | nil => rfl
  | cons e t ih =>
    have hk := h e (by simp)
    have : e.1 ≠ k := by omega
    simp only [sget, this, if_false]
    exact ih fun e' he => h e' (by simp [he])

/-- A canonical table has a canonical tail, whose keys lie above its head's. -/
theorem sparseWf_cons {β : Type} [DecidableEq β] {d : β} {e : Nat × β} {t : List (Nat × β)} :
    sparseWf d (e :: t) = true ↔ e.2 ≠ d ∧ (∀ x ∈ t, e.1 < x.1) ∧ sparseWf d t = true := by
  obtain ⟨k, v⟩ := e
  simp [sparseWf, and_assoc]

/-- Every key of a changed table is the written one or was there before. -/
theorem mem_sset {β : Type} [DecidableEq β] {d : β} {t : List (Nat × β)} {k : Nat} {v : β} {e : Nat × β}
    (h : e ∈ sset d t k v) : e.1 = k ∨ e ∈ t := by
  induction t with
  | nil =>
    simp only [sset] at h
    split at h <;> simp_all
  | cons x t ih =>
    simp only [sset] at h
    split at h
    · split at h <;> simp_all
      rcases h with h | h | h <;> simp_all
    · split at h
      · split at h <;> simp_all
        rcases h with h | h <;> simp_all
      · rcases List.mem_cons.mp h with h | h
        · exact .inr (by simp [h])
        · rcases ih h with h | h
          · exact .inl h
          · exact .inr (by simp [h])

/-- A write keeps the canonical form. -/
theorem sset_wf {β : Type} [DecidableEq β] (d : β) (t : List (Nat × β)) (k : Nat) (v : β) (h : sparseWf d t = true) :
    sparseWf d (sset d t k v) = true := by
  induction t with
  | nil =>
    simp only [sset]
    split
    · rfl
    · simp_all [sparseWf]
  | cons x t ih =>
    obtain ⟨hx, hlt, ht⟩ := sparseWf_cons.mp h
    simp only [sset]
    split
    · split
      · exact h
      · refine sparseWf_cons.mpr ⟨by assumption, ?_, h⟩
        intro y hy
        rcases List.mem_cons.mp hy with rfl | hy
        · assumption
        · exact lt_trans (by assumption) (hlt y hy)
    · split
      · split
        · exact ht
        · subst_vars
          exact sparseWf_cons.mpr ⟨by assumption, hlt, ht⟩
      · refine sparseWf_cons.mpr ⟨hx, ?_, ih ht⟩
        intro y hy
        rcases mem_sset hy with e | hy
        · omega
        · exact hlt y hy

/-- A read after a write, in a canonical table. -/
theorem sget_sset {β : Type} [DecidableEq β] (d : β) (t : List (Nat × β)) (k j : Nat) (v : β) (h : sparseWf d t = true) :
    sget d (sset d t k v) j = if j = k then v else sget d t j := by
  induction t with
  | nil =>
    simp only [sset]
    split <;> by_cases hj : j = k
    · simp_all [sget]
    · simp_all [sget]
    · simp_all [sget]
    · simp [sget, hj, Ne.symm hj]
  | cons x t ih =>
    obtain ⟨a, b⟩ := x
    obtain ⟨hx, hlt, ht⟩ := sparseWf_cons.mp h
    simp only [sset]
    split
    · rename_i hk
      split
      · rename_i hv
        by_cases hj : j = k
        · subst hj
          rw [if_pos rfl, hv]
          apply sget_absent
          intro e he
          rcases List.mem_cons.mp he with rfl | he
          · exact hk
          · exact lt_trans hk (hlt e he)
        · simp [hj]
      · by_cases hj : j = k
        · simp [sget, hj]
        · simp [sget, hj, Ne.symm hj]
    · split
      · rename_i hk
        subst hk
        split
        · rename_i hv
          by_cases hj : j = k
          · subst hj
            rw [if_pos rfl, hv]
            exact sget_absent _ _ _ hlt
          · simp [sget, hj, Ne.symm hj]
        · by_cases hj : j = k
          · simp [sget, hj]
          · simp [sget, hj, Ne.symm hj]
      · by_cases hj : j = a
        · have : j ≠ k := by omega
          subst hj
          simp [sget, this]
        · simp only [sget, if_neg (Ne.symm hj)]
          exact ih ht

/-! ## Memory -/

@[simp] theorem memWrite_nil (m : List Host.Cell) (a : Nat) : memWrite m a [] = m := rfl

/-- A write keeps memory in its canonical form. -/
theorem memWrite_wf (m : List Host.Cell) (a : Nat) (bs : List Byte) (h : Memory.wf m = true) :
    Memory.wf (memWrite m a bs) = true := by
  induction bs generalizing m a with
  | nil => exact h
  | cons b bs ih => exact ih _ _ (sset_wf _ _ _ _ h)

/-- A byte outside a write reads as before. -/
theorem memByte_memWrite_outside (m : List Host.Cell) (a : Nat) (bs : List Byte) (q : Nat) (h : Memory.wf m = true)
    (hq : q < a ∨ a + bs.length ≤ q) : memByte (memWrite m a bs) q = memByte m q := by
  induction bs generalizing m a with
  | nil => rfl
  | cons b bs ih =>
    have hl : (b :: bs).length = bs.length + 1 := rfl
    rw [hl] at hq
    show memByte (memWrite (sset unlisted m a b) (a + 1) bs) q = memByte m q
    rw [ih _ _ (sset_wf _ _ _ _ h) (by omega)]
    show sget unlisted (sset unlisted m a b) q = sget unlisted m q
    rw [sget_sset _ _ _ _ _ h, if_neg (by omega)]

/-- A byte inside a write reads as written. -/
theorem memByte_memWrite_inside (m : List Host.Cell) (a : Nat) (bs : List Byte) (i : Nat) (h : Memory.wf m = true)
    (hi : i < bs.length) : memByte (memWrite m a bs) (a + i) = bs[i] := by
  induction bs generalizing m a i with
  | nil => simp at hi
  | cons b bs ih =>
    show memByte (memWrite (sset unlisted m a b) (a + 1) bs) (a + i) = (b :: bs)[i]
    cases i with
    | zero =>
      rw [memByte_memWrite_outside _ _ _ _ (sset_wf _ _ _ _ h) (by omega)]
      show sget unlisted (sset unlisted m a b) (a + 0) = b
      rw [sget_sset _ _ _ _ _ h]; simp
    | succ i =>
      have := ih (sset unlisted m a b) (a + 1) i (sset_wf _ _ _ _ h) (by simpa using hi)
      rw [show a + (i + 1) = a + 1 + i by omega]
      simpa using this

@[simp] theorem length_memRead (m : List Host.Cell) (a n : Nat) : (memRead m a n).length = n := by simp [memRead]

/-- What was written is read back. -/
theorem memRead_memWrite (m : List Host.Cell) (a : Nat) (bs : List Byte) (h : Memory.wf m = true) :
    memRead (memWrite m a bs) a bs.length = bs := by
  apply List.ext_getElem
  · simp
  · intro i h1 h2
    simp only [memRead, List.getElem_map, List.getElem_range]
    exact memByte_memWrite_inside m a bs i h h2

/-- A range apart from a write reads as before. -/
theorem memRead_memWrite_apart (m : List Host.Cell) (a q n : Nat) (bs : List Byte) (h : Memory.wf m = true)
    (hq : q + n ≤ a ∨ a + bs.length ≤ q) : memRead (memWrite m a bs) q n = memRead m q n := by
  unfold memRead
  apply List.map_congr_left
  intro i hi
  exact memByte_memWrite_outside m a bs _ h (by have := List.mem_range.mp hi; omega)

end Sys2Proof.Machine
end

