-- ==== Sys2Proof/Laws/WordsScalar.lean ====
section
/-! SUPPORT. Each encoded word of the scalar and system instructions decodes to its instruction. -/

set_option linter.unusedSimpArgs false
set_option linter.unusedVariables false

namespace Sys2Proof

theorem decodeBits_ofAdd (d : XReg) (a : XReg) (b : XReg) {W : Nat} (hm : W < 2 ^ 32) (h0 : fld W 0 2 = 1) (h1 : fld W 2 6 = 1) (h2 : fld W 8 5 = d.val) (h3 : fld W 13 5 = a.val) (h4 : fld W 18 5 = b.val) (h5 : fld W 23 9 = 0) : decodeBits W = .ok (.add d a b) := by
  have hb0 := d.isLt
  have hb1 := a.isLt
  have hb2 := b.isLt
  rw [decodeBits_word h0 hm]
  rw [decode32.eq_1, h1]
  show (decodeOp W : Except Reject Instr) = _
  rw [decodeOp.eq_1, h5]
  show (.ok (.add (xr W 8) (xr W 13) (xr W 18)) : Except Reject Instr) = _
  simp only [h1, h2, h3, h4, h5, xr, lo8, lane, bv, flag, zero, Except.bind, ofNat_val, ofNat_toNat, if_true, if_false, Nat.reduceBEq, Bool.false_eq_true, true_and, and_true, and_self, or_self, not_false_eq_true, ne_eq, Nat.reduceLT, Nat.reduceLeDiff, Nat.reduceEqDiff, bit_zero, bit_one]
theorem codes_encAdd (d : XReg) (a : XReg) (b : XReg) : Codes (encAdd d a b) (.add d a b) := by
  have hb0 := d.isLt
  have hb1 := a.isLt
  have hb2 := b.isLt
  show Codes (4, fA 0 b a d 0x01) (.add d a b)
  have F := @fA_fields (0) (b.val) (a.val) (d.val) (0x01) (by omega) (by omega) (by omega) (by omega) (by omega)
  obtain ⟨hm, f23_9, f18_5, f13_5, f8_5, f2_6, f0_2⟩ := F
  exact .word hm f0_2 (decodeBits_ofAdd d a b hm (f0_2.trans (by omega)) (f2_6.trans (by omega)) (f8_5.trans (by omega)) (f13_5.trans (by omega)) (f18_5.trans (by omega)) (f23_9.trans (by omega)))

theorem decodeBits_ofSub (d : XReg) (a : XReg) (b : XReg) {W : Nat} (hm : W < 2 ^ 32) (h0 : fld W 0 2 = 1) (h1 : fld W 2 6 = 1) (h2 : fld W 8 5 = d.val) (h3 : fld W 13 5 = a.val) (h4 : fld W 18 5 = b.val) (h5 : fld W 23 9 = 1) : decodeBits W = .ok (.sub d a b) := by
  have hb0 := d.isLt
  have hb1 := a.isLt
  have hb2 := b.isLt
  rw [decodeBits_word h0 hm]
  rw [decode32.eq_1, h1]
  show (decodeOp W : Except Reject Instr) = _
  rw [decodeOp.eq_1, h5]
  show (.ok (.sub (xr W 8) (xr W 13) (xr W 18)) : Except Reject Instr) = _
  simp only [h1, h2, h3, h4, h5, xr, lo8, lane, bv, flag, zero, Except.bind, ofNat_val, ofNat_toNat, if_true, if_false, Nat.reduceBEq, Bool.false_eq_true, true_and, and_true, and_self, or_self, not_false_eq_true, ne_eq, Nat.reduceLT, Nat.reduceLeDiff, Nat.reduceEqDiff, bit_zero, bit_one]
theorem codes_encSub (d : XReg) (a : XReg) (b : XReg) : Codes (encSub d a b) (.sub d a b) := by
  have hb0 := d.isLt
  have hb1 := a.isLt
  have hb2 := b.isLt
  show Codes (4, fA 1 b a d 0x01) (.sub d a b)
  have F := @fA_fields (1) (b.val) (a.val) (d.val) (0x01) (by omega) (by omega) (by omega) (by omega) (by omega)
  obtain ⟨hm, f23_9, f18_5, f13_5, f8_5, f2_6, f0_2⟩ := F
  exact .word hm f0_2 (decodeBits_ofSub d a b hm (f0_2.trans (by omega)) (f2_6.trans (by omega)) (f8_5.trans (by omega)) (f13_5.trans (by omega)) (f18_5.trans (by omega)) (f23_9.trans (by omega)))

theorem decodeBits_ofAnd (d : XReg) (a : XReg) (b : XReg) {W : Nat} (hm : W < 2 ^ 32) (h0 : fld W 0 2 = 1) (h1 : fld W 2 6 = 1) (h2 : fld W 8 5 = d.val) (h3 : fld W 13 5 = a.val) (h4 : fld W 18 5 = b.val) (h5 : fld W 23 9 = 2) : decodeBits W = .ok (.and d a b) := by
  have hb0 := d.isLt
  have hb1 := a.isLt
  have hb2 := b.isLt
  rw [decodeBits_word h0 hm]
  rw [decode32.eq_1, h1]
  show (decodeOp W : Except Reject Instr) = _
  rw [decodeOp.eq_1, h5]
  show (.ok (.and (xr W 8) (xr W 13) (xr W 18)) : Except Reject Instr) = _
  simp only [h1, h2, h3, h4, h5, xr, lo8, lane, bv, flag, zero, Except.bind, ofNat_val, ofNat_toNat, if_true, if_false, Nat.reduceBEq, Bool.false_eq_true, true_and, and_true, and_self, or_self, not_false_eq_true, ne_eq, Nat.reduceLT, Nat.reduceLeDiff, Nat.reduceEqDiff, bit_zero, bit_one]
theorem codes_encAnd (d : XReg) (a : XReg) (b : XReg) : Codes (encAnd d a b) (.and d a b) := by
  have hb0 := d.isLt
  have hb1 := a.isLt
  have hb2 := b.isLt
  show Codes (4, fA 2 b a d 0x01) (.and d a b)
  have F := @fA_fields (2) (b.val) (a.val) (d.val) (0x01) (by omega) (by omega) (by omega) (by omega) (by omega)
  obtain ⟨hm, f23_9, f18_5, f13_5, f8_5, f2_6, f0_2⟩ := F
  exact .word hm f0_2 (decodeBits_ofAnd d a b hm (f0_2.trans (by omega)) (f2_6.trans (by omega)) (f8_5.trans (by omega)) (f13_5.trans (by omega)) (f18_5.trans (by omega)) (f23_9.trans (by omega)))

theorem decodeBits_ofOr (d : XReg) (a : XReg) (b : XReg) {W : Nat} (hm : W < 2 ^ 32) (h0 : fld W 0 2 = 1) (h1 : fld W 2 6 = 1) (h2 : fld W 8 5 = d.val) (h3 : fld W 13 5 = a.val) (h4 : fld W 18 5 = b.val) (h5 : fld W 23 9 = 3) : decodeBits W = .ok (.or d a b) := by
  have hb0 := d.isLt
  have hb1 := a.isLt
  have hb2 := b.isLt
  rw [decodeBits_word h0 hm]
  rw [decode32.eq_1, h1]
  show (decodeOp W : Except Reject Instr) = _
  rw [decodeOp.eq_1, h5]
  show (.ok (.or (xr W 8) (xr W 13) (xr W 18)) : Except Reject Instr) = _
  simp only [h1, h2, h3, h4, h5, xr, lo8, lane, bv, flag, zero, Except.bind, ofNat_val, ofNat_toNat, if_true, if_false, Nat.reduceBEq, Bool.false_eq_true, true_and, and_true, and_self, or_self, not_false_eq_true, ne_eq, Nat.reduceLT, Nat.reduceLeDiff, Nat.reduceEqDiff, bit_zero, bit_one]
theorem codes_encOr (d : XReg) (a : XReg) (b : XReg) : Codes (encOr d a b) (.or d a b) := by
  have hb0 := d.isLt
  have hb1 := a.isLt
  have hb2 := b.isLt
  show Codes (4, fA 3 b a d 0x01) (.or d a b)
  have F := @fA_fields (3) (b.val) (a.val) (d.val) (0x01) (by omega) (by omega) (by omega) (by omega) (by omega)
  obtain ⟨hm, f23_9, f18_5, f13_5, f8_5, f2_6, f0_2⟩ := F
  exact .word hm f0_2 (decodeBits_ofOr d a b hm (f0_2.trans (by omega)) (f2_6.trans (by omega)) (f8_5.trans (by omega)) (f13_5.trans (by omega)) (f18_5.trans (by omega)) (f23_9.trans (by omega)))

theorem decodeBits_ofXor (d : XReg) (a : XReg) (b : XReg) {W : Nat} (hm : W < 2 ^ 32) (h0 : fld W 0 2 = 1) (h1 : fld W 2 6 = 1) (h2 : fld W 8 5 = d.val) (h3 : fld W 13 5 = a.val) (h4 : fld W 18 5 = b.val) (h5 : fld W 23 9 = 4) : decodeBits W = .ok (.xor d a b) := by
  have hb0 := d.isLt
  have hb1 := a.isLt
  have hb2 := b.isLt
  rw [decodeBits_word h0 hm]
  rw [decode32.eq_1, h1]
  show (decodeOp W : Except Reject Instr) = _
  rw [decodeOp.eq_1, h5]
  show (.ok (.xor (xr W 8) (xr W 13) (xr W 18)) : Except Reject Instr) = _
  simp only [h1, h2, h3, h4, h5, xr, lo8, lane, bv, flag, zero, Except.bind, ofNat_val, ofNat_toNat, if_true, if_false, Nat.reduceBEq, Bool.false_eq_true, true_and, and_true, and_self, or_self, not_false_eq_true, ne_eq, Nat.reduceLT, Nat.reduceLeDiff, Nat.reduceEqDiff, bit_zero, bit_one]
theorem codes_encXor (d : XReg) (a : XReg) (b : XReg) : Codes (encXor d a b) (.xor d a b) := by
  have hb0 := d.isLt
  have hb1 := a.isLt
  have hb2 := b.isLt
  show Codes (4, fA 4 b a d 0x01) (.xor d a b)
  have F := @fA_fields (4) (b.val) (a.val) (d.val) (0x01) (by omega) (by omega) (by omega) (by omega) (by omega)
  obtain ⟨hm, f23_9, f18_5, f13_5, f8_5, f2_6, f0_2⟩ := F
  exact .word hm f0_2 (decodeBits_ofXor d a b hm (f0_2.trans (by omega)) (f2_6.trans (by omega)) (f8_5.trans (by omega)) (f13_5.trans (by omega)) (f18_5.trans (by omega)) (f23_9.trans (by omega)))

theorem decodeBits_ofSll (d : XReg) (a : XReg) (b : XReg) {W : Nat} (hm : W < 2 ^ 32) (h0 : fld W 0 2 = 1) (h1 : fld W 2 6 = 1) (h2 : fld W 8 5 = d.val) (h3 : fld W 13 5 = a.val) (h4 : fld W 18 5 = b.val) (h5 : fld W 23 9 = 5) : decodeBits W = .ok (.sll d a b) := by
  have hb0 := d.isLt
  have hb1 := a.isLt
  have hb2 := b.isLt
  rw [decodeBits_word h0 hm]
  rw [decode32.eq_1, h1]
  show (decodeOp W : Except Reject Instr) = _
  rw [decodeOp.eq_1, h5]
  show (.ok (.sll (xr W 8) (xr W 13) (xr W 18)) : Except Reject Instr) = _
  simp only [h1, h2, h3, h4, h5, xr, lo8, lane, bv, flag, zero, Except.bind, ofNat_val, ofNat_toNat, if_true, if_false, Nat.reduceBEq, Bool.false_eq_true, true_and, and_true, and_self, or_self, not_false_eq_true, ne_eq, Nat.reduceLT, Nat.reduceLeDiff, Nat.reduceEqDiff, bit_zero, bit_one]
theorem codes_encSll (d : XReg) (a : XReg) (b : XReg) : Codes (encSll d a b) (.sll d a b) := by
  have hb0 := d.isLt
  have hb1 := a.isLt
  have hb2 := b.isLt
  show Codes (4, fA 5 b a d 0x01) (.sll d a b)
  have F := @fA_fields (5) (b.val) (a.val) (d.val) (0x01) (by omega) (by omega) (by omega) (by omega) (by omega)
  obtain ⟨hm, f23_9, f18_5, f13_5, f8_5, f2_6, f0_2⟩ := F
  exact .word hm f0_2 (decodeBits_ofSll d a b hm (f0_2.trans (by omega)) (f2_6.trans (by omega)) (f8_5.trans (by omega)) (f13_5.trans (by omega)) (f18_5.trans (by omega)) (f23_9.trans (by omega)))

theorem decodeBits_ofSrl (d : XReg) (a : XReg) (b : XReg) {W : Nat} (hm : W < 2 ^ 32) (h0 : fld W 0 2 = 1) (h1 : fld W 2 6 = 1) (h2 : fld W 8 5 = d.val) (h3 : fld W 13 5 = a.val) (h4 : fld W 18 5 = b.val) (h5 : fld W 23 9 = 6) : decodeBits W = .ok (.srl d a b) := by
  have hb0 := d.isLt
  have hb1 := a.isLt
  have hb2 := b.isLt
  rw [decodeBits_word h0 hm]
  rw [decode32.eq_1, h1]
  show (decodeOp W : Except Reject Instr) = _
  rw [decodeOp.eq_1, h5]
  show (.ok (.srl (xr W 8) (xr W 13) (xr W 18)) : Except Reject Instr) = _
  simp only [h1, h2, h3, h4, h5, xr, lo8, lane, bv, flag, zero, Except.bind, ofNat_val, ofNat_toNat, if_true, if_false, Nat.reduceBEq, Bool.false_eq_true, true_and, and_true, and_self, or_self, not_false_eq_true, ne_eq, Nat.reduceLT, Nat.reduceLeDiff, Nat.reduceEqDiff, bit_zero, bit_one]
theorem codes_encSrl (d : XReg) (a : XReg) (b : XReg) : Codes (encSrl d a b) (.srl d a b) := by
  have hb0 := d.isLt
  have hb1 := a.isLt
  have hb2 := b.isLt
  show Codes (4, fA 6 b a d 0x01) (.srl d a b)
  have F := @fA_fields (6) (b.val) (a.val) (d.val) (0x01) (by omega) (by omega) (by omega) (by omega) (by omega)
  obtain ⟨hm, f23_9, f18_5, f13_5, f8_5, f2_6, f0_2⟩ := F
  exact .word hm f0_2 (decodeBits_ofSrl d a b hm (f0_2.trans (by omega)) (f2_6.trans (by omega)) (f8_5.trans (by omega)) (f13_5.trans (by omega)) (f18_5.trans (by omega)) (f23_9.trans (by omega)))

theorem decodeBits_ofSra (d : XReg) (a : XReg) (b : XReg) {W : Nat} (hm : W < 2 ^ 32) (h0 : fld W 0 2 = 1) (h1 : fld W 2 6 = 1) (h2 : fld W 8 5 = d.val) (h3 : fld W 13 5 = a.val) (h4 : fld W 18 5 = b.val) (h5 : fld W 23 9 = 7) : decodeBits W = .ok (.sra d a b) := by
  have hb0 := d.isLt
  have hb1 := a.isLt
  have hb2 := b.isLt
  rw [decodeBits_word h0 hm]
  rw [decode32.eq_1, h1]
  show (decodeOp W : Except Reject Instr) = _
  rw [decodeOp.eq_1, h5]
  show (.ok (.sra (xr W 8) (xr W 13) (xr W 18)) : Except Reject Instr) = _
  simp only [h1, h2, h3, h4, h5, xr, lo8, lane, bv, flag, zero, Except.bind, ofNat_val, ofNat_toNat, if_true, if_false, Nat.reduceBEq, Bool.false_eq_true, true_and, and_true, and_self, or_self, not_false_eq_true, ne_eq, Nat.reduceLT, Nat.reduceLeDiff, Nat.reduceEqDiff, bit_zero, bit_one]
theorem codes_encSra (d : XReg) (a : XReg) (b : XReg) : Codes (encSra d a b) (.sra d a b) := by
  have hb0 := d.isLt
  have hb1 := a.isLt
  have hb2 := b.isLt
  show Codes (4, fA 7 b a d 0x01) (.sra d a b)
  have F := @fA_fields (7) (b.val) (a.val) (d.val) (0x01) (by omega) (by omega) (by omega) (by omega) (by omega)
  obtain ⟨hm, f23_9, f18_5, f13_5, f8_5, f2_6, f0_2⟩ := F
  exact .word hm f0_2 (decodeBits_ofSra d a b hm (f0_2.trans (by omega)) (f2_6.trans (by omega)) (f8_5.trans (by omega)) (f13_5.trans (by omega)) (f18_5.trans (by omega)) (f23_9.trans (by omega)))

theorem decodeBits_ofRot (d : XReg) (a : XReg) (b : XReg) {W : Nat} (hm : W < 2 ^ 32) (h0 : fld W 0 2 = 1) (h1 : fld W 2 6 = 1) (h2 : fld W 8 5 = d.val) (h3 : fld W 13 5 = a.val) (h4 : fld W 18 5 = b.val) (h5 : fld W 23 9 = 8) : decodeBits W = .ok (.rot d a b) := by
  have hb0 := d.isLt
  have hb1 := a.isLt
  have hb2 := b.isLt
  rw [decodeBits_word h0 hm]
  rw [decode32.eq_1, h1]
  show (decodeOp W : Except Reject Instr) = _
  rw [decodeOp.eq_1, h5]
  show (.ok (.rot (xr W 8) (xr W 13) (xr W 18)) : Except Reject Instr) = _
  simp only [h1, h2, h3, h4, h5, xr, lo8, lane, bv, flag, zero, Except.bind, ofNat_val, ofNat_toNat, if_true, if_false, Nat.reduceBEq, Bool.false_eq_true, true_and, and_true, and_self, or_self, not_false_eq_true, ne_eq, Nat.reduceLT, Nat.reduceLeDiff, Nat.reduceEqDiff, bit_zero, bit_one]
theorem codes_encRot (d : XReg) (a : XReg) (b : XReg) : Codes (encRot d a b) (.rot d a b) := by
  have hb0 := d.isLt
  have hb1 := a.isLt
  have hb2 := b.isLt
  show Codes (4, fA 8 b a d 0x01) (.rot d a b)
  have F := @fA_fields (8) (b.val) (a.val) (d.val) (0x01) (by omega) (by omega) (by omega) (by omega) (by omega)
  obtain ⟨hm, f23_9, f18_5, f13_5, f8_5, f2_6, f0_2⟩ := F
  exact .word hm f0_2 (decodeBits_ofRot d a b hm (f0_2.trans (by omega)) (f2_6.trans (by omega)) (f8_5.trans (by omega)) (f13_5.trans (by omega)) (f18_5.trans (by omega)) (f23_9.trans (by omega)))

theorem decodeBits_ofSlt (d : XReg) (a : XReg) (b : XReg) {W : Nat} (hm : W < 2 ^ 32) (h0 : fld W 0 2 = 1) (h1 : fld W 2 6 = 1) (h2 : fld W 8 5 = d.val) (h3 : fld W 13 5 = a.val) (h4 : fld W 18 5 = b.val) (h5 : fld W 23 9 = 9) : decodeBits W = .ok (.slt d a b) := by
  have hb0 := d.isLt
  have hb1 := a.isLt
  have hb2 := b.isLt
  rw [decodeBits_word h0 hm]
  rw [decode32.eq_1, h1]
  show (decodeOp W : Except Reject Instr) = _
  rw [decodeOp.eq_1, h5]
  show (.ok (.slt (xr W 8) (xr W 13) (xr W 18)) : Except Reject Instr) = _
  simp only [h1, h2, h3, h4, h5, xr, lo8, lane, bv, flag, zero, Except.bind, ofNat_val, ofNat_toNat, if_true, if_false, Nat.reduceBEq, Bool.false_eq_true, true_and, and_true, and_self, or_self, not_false_eq_true, ne_eq, Nat.reduceLT, Nat.reduceLeDiff, Nat.reduceEqDiff, bit_zero, bit_one]
theorem codes_encSlt (d : XReg) (a : XReg) (b : XReg) : Codes (encSlt d a b) (.slt d a b) := by
  have hb0 := d.isLt
  have hb1 := a.isLt
  have hb2 := b.isLt
  show Codes (4, fA 9 b a d 0x01) (.slt d a b)
  have F := @fA_fields (9) (b.val) (a.val) (d.val) (0x01) (by omega) (by omega) (by omega) (by omega) (by omega)
  obtain ⟨hm, f23_9, f18_5, f13_5, f8_5, f2_6, f0_2⟩ := F
  exact .word hm f0_2 (decodeBits_ofSlt d a b hm (f0_2.trans (by omega)) (f2_6.trans (by omega)) (f8_5.trans (by omega)) (f13_5.trans (by omega)) (f18_5.trans (by omega)) (f23_9.trans (by omega)))

theorem decodeBits_ofSltn (d : XReg) (a : XReg) (b : XReg) {W : Nat} (hm : W < 2 ^ 32) (h0 : fld W 0 2 = 1) (h1 : fld W 2 6 = 1) (h2 : fld W 8 5 = d.val) (h3 : fld W 13 5 = a.val) (h4 : fld W 18 5 = b.val) (h5 : fld W 23 9 = 10) : decodeBits W = .ok (.sltn d a b) := by
  have hb0 := d.isLt
  have hb1 := a.isLt
  have hb2 := b.isLt
  rw [decodeBits_word h0 hm]
  rw [decode32.eq_1, h1]
  show (decodeOp W : Except Reject Instr) = _
  rw [decodeOp.eq_1, h5]
  show (.ok (.sltn (xr W 8) (xr W 13) (xr W 18)) : Except Reject Instr) = _
  simp only [h1, h2, h3, h4, h5, xr, lo8, lane, bv, flag, zero, Except.bind, ofNat_val, ofNat_toNat, if_true, if_false, Nat.reduceBEq, Bool.false_eq_true, true_and, and_true, and_self, or_self, not_false_eq_true, ne_eq, Nat.reduceLT, Nat.reduceLeDiff, Nat.reduceEqDiff, bit_zero, bit_one]
theorem codes_encSltn (d : XReg) (a : XReg) (b : XReg) : Codes (encSltn d a b) (.sltn d a b) := by
  have hb0 := d.isLt
  have hb1 := a.isLt
  have hb2 := b.isLt
  show Codes (4, fA 10 b a d 0x01) (.sltn d a b)
  have F := @fA_fields (10) (b.val) (a.val) (d.val) (0x01) (by omega) (by omega) (by omega) (by omega) (by omega)
  obtain ⟨hm, f23_9, f18_5, f13_5, f8_5, f2_6, f0_2⟩ := F
  exact .word hm f0_2 (decodeBits_ofSltn d a b hm (f0_2.trans (by omega)) (f2_6.trans (by omega)) (f8_5.trans (by omega)) (f13_5.trans (by omega)) (f18_5.trans (by omega)) (f23_9.trans (by omega)))

theorem decodeBits_ofMin (d : XReg) (a : XReg) (b : XReg) {W : Nat} (hm : W < 2 ^ 32) (h0 : fld W 0 2 = 1) (h1 : fld W 2 6 = 1) (h2 : fld W 8 5 = d.val) (h3 : fld W 13 5 = a.val) (h4 : fld W 18 5 = b.val) (h5 : fld W 23 9 = 11) : decodeBits W = .ok (.min d a b) := by
  have hb0 := d.isLt
  have hb1 := a.isLt
  have hb2 := b.isLt
  rw [decodeBits_word h0 hm]
  rw [decode32.eq_1, h1]
  show (decodeOp W : Except Reject Instr) = _
  rw [decodeOp.eq_1, h5]
  show (.ok (.min (xr W 8) (xr W 13) (xr W 18)) : Except Reject Instr) = _
  simp only [h1, h2, h3, h4, h5, xr, lo8, lane, bv, flag, zero, Except.bind, ofNat_val, ofNat_toNat, if_true, if_false, Nat.reduceBEq, Bool.false_eq_true, true_and, and_true, and_self, or_self, not_false_eq_true, ne_eq, Nat.reduceLT, Nat.reduceLeDiff, Nat.reduceEqDiff, bit_zero, bit_one]
theorem codes_encMin (d : XReg) (a : XReg) (b : XReg) : Codes (encMin d a b) (.min d a b) := by
  have hb0 := d.isLt
  have hb1 := a.isLt
  have hb2 := b.isLt
  show Codes (4, fA 11 b a d 0x01) (.min d a b)
  have F := @fA_fields (11) (b.val) (a.val) (d.val) (0x01) (by omega) (by omega) (by omega) (by omega) (by omega)
  obtain ⟨hm, f23_9, f18_5, f13_5, f8_5, f2_6, f0_2⟩ := F
  exact .word hm f0_2 (decodeBits_ofMin d a b hm (f0_2.trans (by omega)) (f2_6.trans (by omega)) (f8_5.trans (by omega)) (f13_5.trans (by omega)) (f18_5.trans (by omega)) (f23_9.trans (by omega)))

theorem decodeBits_ofMax (d : XReg) (a : XReg) (b : XReg) {W : Nat} (hm : W < 2 ^ 32) (h0 : fld W 0 2 = 1) (h1 : fld W 2 6 = 1) (h2 : fld W 8 5 = d.val) (h3 : fld W 13 5 = a.val) (h4 : fld W 18 5 = b.val) (h5 : fld W 23 9 = 12) : decodeBits W = .ok (.max d a b) := by
  have hb0 := d.isLt
  have hb1 := a.isLt
  have hb2 := b.isLt
  rw [decodeBits_word h0 hm]
  rw [decode32.eq_1, h1]
  show (decodeOp W : Except Reject Instr) = _
  rw [decodeOp.eq_1, h5]
  show (.ok (.max (xr W 8) (xr W 13) (xr W 18)) : Except Reject Instr) = _
  simp only [h1, h2, h3, h4, h5, xr, lo8, lane, bv, flag, zero, Except.bind, ofNat_val, ofNat_toNat, if_true, if_false, Nat.reduceBEq, Bool.false_eq_true, true_and, and_true, and_self, or_self, not_false_eq_true, ne_eq, Nat.reduceLT, Nat.reduceLeDiff, Nat.reduceEqDiff, bit_zero, bit_one]
theorem codes_encMax (d : XReg) (a : XReg) (b : XReg) : Codes (encMax d a b) (.max d a b) := by
  have hb0 := d.isLt
  have hb1 := a.isLt
  have hb2 := b.isLt
  show Codes (4, fA 12 b a d 0x01) (.max d a b)
  have F := @fA_fields (12) (b.val) (a.val) (d.val) (0x01) (by omega) (by omega) (by omega) (by omega) (by omega)
  obtain ⟨hm, f23_9, f18_5, f13_5, f8_5, f2_6, f0_2⟩ := F
  exact .word hm f0_2 (decodeBits_ofMax d a b hm (f0_2.trans (by omega)) (f2_6.trans (by omega)) (f8_5.trans (by omega)) (f13_5.trans (by omega)) (f18_5.trans (by omega)) (f23_9.trans (by omega)))

theorem decodeBits_ofMinn (d : XReg) (a : XReg) (b : XReg) {W : Nat} (hm : W < 2 ^ 32) (h0 : fld W 0 2 = 1) (h1 : fld W 2 6 = 1) (h2 : fld W 8 5 = d.val) (h3 : fld W 13 5 = a.val) (h4 : fld W 18 5 = b.val) (h5 : fld W 23 9 = 13) : decodeBits W = .ok (.minn d a b) := by
  have hb0 := d.isLt
  have hb1 := a.isLt
  have hb2 := b.isLt
  rw [decodeBits_word h0 hm]
  rw [decode32.eq_1, h1]
  show (decodeOp W : Except Reject Instr) = _
  rw [decodeOp.eq_1, h5]
  show (.ok (.minn (xr W 8) (xr W 13) (xr W 18)) : Except Reject Instr) = _
  simp only [h1, h2, h3, h4, h5, xr, lo8, lane, bv, flag, zero, Except.bind, ofNat_val, ofNat_toNat, if_true, if_false, Nat.reduceBEq, Bool.false_eq_true, true_and, and_true, and_self, or_self, not_false_eq_true, ne_eq, Nat.reduceLT, Nat.reduceLeDiff, Nat.reduceEqDiff, bit_zero, bit_one]
theorem codes_encMinn (d : XReg) (a : XReg) (b : XReg) : Codes (encMinn d a b) (.minn d a b) := by
  have hb0 := d.isLt
  have hb1 := a.isLt
  have hb2 := b.isLt
  show Codes (4, fA 13 b a d 0x01) (.minn d a b)
  have F := @fA_fields (13) (b.val) (a.val) (d.val) (0x01) (by omega) (by omega) (by omega) (by omega) (by omega)
  obtain ⟨hm, f23_9, f18_5, f13_5, f8_5, f2_6, f0_2⟩ := F
  exact .word hm f0_2 (decodeBits_ofMinn d a b hm (f0_2.trans (by omega)) (f2_6.trans (by omega)) (f8_5.trans (by omega)) (f13_5.trans (by omega)) (f18_5.trans (by omega)) (f23_9.trans (by omega)))

theorem decodeBits_ofMaxn (d : XReg) (a : XReg) (b : XReg) {W : Nat} (hm : W < 2 ^ 32) (h0 : fld W 0 2 = 1) (h1 : fld W 2 6 = 1) (h2 : fld W 8 5 = d.val) (h3 : fld W 13 5 = a.val) (h4 : fld W 18 5 = b.val) (h5 : fld W 23 9 = 14) : decodeBits W = .ok (.maxn d a b) := by
  have hb0 := d.isLt
  have hb1 := a.isLt
  have hb2 := b.isLt
  rw [decodeBits_word h0 hm]
  rw [decode32.eq_1, h1]
  show (decodeOp W : Except Reject Instr) = _
  rw [decodeOp.eq_1, h5]
  show (.ok (.maxn (xr W 8) (xr W 13) (xr W 18)) : Except Reject Instr) = _
  simp only [h1, h2, h3, h4, h5, xr, lo8, lane, bv, flag, zero, Except.bind, ofNat_val, ofNat_toNat, if_true, if_false, Nat.reduceBEq, Bool.false_eq_true, true_and, and_true, and_self, or_self, not_false_eq_true, ne_eq, Nat.reduceLT, Nat.reduceLeDiff, Nat.reduceEqDiff, bit_zero, bit_one]
theorem codes_encMaxn (d : XReg) (a : XReg) (b : XReg) : Codes (encMaxn d a b) (.maxn d a b) := by
  have hb0 := d.isLt
  have hb1 := a.isLt
  have hb2 := b.isLt
  show Codes (4, fA 14 b a d 0x01) (.maxn d a b)
  have F := @fA_fields (14) (b.val) (a.val) (d.val) (0x01) (by omega) (by omega) (by omega) (by omega) (by omega)
  obtain ⟨hm, f23_9, f18_5, f13_5, f8_5, f2_6, f0_2⟩ := F
  exact .word hm f0_2 (decodeBits_ofMaxn d a b hm (f0_2.trans (by omega)) (f2_6.trans (by omega)) (f8_5.trans (by omega)) (f13_5.trans (by omega)) (f18_5.trans (by omega)) (f23_9.trans (by omega)))

theorem decodeBits_ofMul (d : XReg) (a : XReg) (b : XReg) {W : Nat} (hm : W < 2 ^ 32) (h0 : fld W 0 2 = 1) (h1 : fld W 2 6 = 1) (h2 : fld W 8 5 = d.val) (h3 : fld W 13 5 = a.val) (h4 : fld W 18 5 = b.val) (h5 : fld W 23 9 = 16) : decodeBits W = .ok (.mul d a b) := by
  have hb0 := d.isLt
  have hb1 := a.isLt
  have hb2 := b.isLt
  rw [decodeBits_word h0 hm]
  rw [decode32.eq_1, h1]
  show (decodeOp W : Except Reject Instr) = _
  rw [decodeOp.eq_1, h5]
  show (.ok (.mul (xr W 8) (xr W 13) (xr W 18)) : Except Reject Instr) = _
  simp only [h1, h2, h3, h4, h5, xr, lo8, lane, bv, flag, zero, Except.bind, ofNat_val, ofNat_toNat, if_true, if_false, Nat.reduceBEq, Bool.false_eq_true, true_and, and_true, and_self, or_self, not_false_eq_true, ne_eq, Nat.reduceLT, Nat.reduceLeDiff, Nat.reduceEqDiff, bit_zero, bit_one]
theorem codes_encMul (d : XReg) (a : XReg) (b : XReg) : Codes (encMul d a b) (.mul d a b) := by
  have hb0 := d.isLt
  have hb1 := a.isLt
  have hb2 := b.isLt
  show Codes (4, fA 16 b a d 0x01) (.mul d a b)
  have F := @fA_fields (16) (b.val) (a.val) (d.val) (0x01) (by omega) (by omega) (by omega) (by omega) (by omega)
  obtain ⟨hm, f23_9, f18_5, f13_5, f8_5, f2_6, f0_2⟩ := F
  exact .word hm f0_2 (decodeBits_ofMul d a b hm (f0_2.trans (by omega)) (f2_6.trans (by omega)) (f8_5.trans (by omega)) (f13_5.trans (by omega)) (f18_5.trans (by omega)) (f23_9.trans (by omega)))

theorem decodeBits_ofMulh (d : XReg) (a : XReg) (b : XReg) {W : Nat} (hm : W < 2 ^ 32) (h0 : fld W 0 2 = 1) (h1 : fld W 2 6 = 1) (h2 : fld W 8 5 = d.val) (h3 : fld W 13 5 = a.val) (h4 : fld W 18 5 = b.val) (h5 : fld W 23 9 = 17) : decodeBits W = .ok (.mulh d a b) := by
  have hb0 := d.isLt
  have hb1 := a.isLt
  have hb2 := b.isLt
  rw [decodeBits_word h0 hm]
  rw [decode32.eq_1, h1]
  show (decodeOp W : Except Reject Instr) = _
  rw [decodeOp.eq_1, h5]
  show (.ok (.mulh (xr W 8) (xr W 13) (xr W 18)) : Except Reject Instr) = _
  simp only [h1, h2, h3, h4, h5, xr, lo8, lane, bv, flag, zero, Except.bind, ofNat_val, ofNat_toNat, if_true, if_false, Nat.reduceBEq, Bool.false_eq_true, true_and, and_true, and_self, or_self, not_false_eq_true, ne_eq, Nat.reduceLT, Nat.reduceLeDiff, Nat.reduceEqDiff, bit_zero, bit_one]
theorem codes_encMulh (d : XReg) (a : XReg) (b : XReg) : Codes (encMulh d a b) (.mulh d a b) := by
  have hb0 := d.isLt
  have hb1 := a.isLt
  have hb2 := b.isLt
  show Codes (4, fA 17 b a d 0x01) (.mulh d a b)
  have F := @fA_fields (17) (b.val) (a.val) (d.val) (0x01) (by omega) (by omega) (by omega) (by omega) (by omega)
  obtain ⟨hm, f23_9, f18_5, f13_5, f8_5, f2_6, f0_2⟩ := F
  exact .word hm f0_2 (decodeBits_ofMulh d a b hm (f0_2.trans (by omega)) (f2_6.trans (by omega)) (f8_5.trans (by omega)) (f13_5.trans (by omega)) (f18_5.trans (by omega)) (f23_9.trans (by omega)))

theorem decodeBits_ofMulhn (d : XReg) (a : XReg) (b : XReg) {W : Nat} (hm : W < 2 ^ 32) (h0 : fld W 0 2 = 1) (h1 : fld W 2 6 = 1) (h2 : fld W 8 5 = d.val) (h3 : fld W 13 5 = a.val) (h4 : fld W 18 5 = b.val) (h5 : fld W 23 9 = 18) : decodeBits W = .ok (.mulhn d a b) := by
  have hb0 := d.isLt
  have hb1 := a.isLt
  have hb2 := b.isLt
  rw [decodeBits_word h0 hm]
  rw [decode32.eq_1, h1]
  show (decodeOp W : Except Reject Instr) = _
  rw [decodeOp.eq_1, h5]
  show (.ok (.mulhn (xr W 8) (xr W 13) (xr W 18)) : Except Reject Instr) = _
  simp only [h1, h2, h3, h4, h5, xr, lo8, lane, bv, flag, zero, Except.bind, ofNat_val, ofNat_toNat, if_true, if_false, Nat.reduceBEq, Bool.false_eq_true, true_and, and_true, and_self, or_self, not_false_eq_true, ne_eq, Nat.reduceLT, Nat.reduceLeDiff, Nat.reduceEqDiff, bit_zero, bit_one]
theorem codes_encMulhn (d : XReg) (a : XReg) (b : XReg) : Codes (encMulhn d a b) (.mulhn d a b) := by
  have hb0 := d.isLt
  have hb1 := a.isLt
  have hb2 := b.isLt
  show Codes (4, fA 18 b a d 0x01) (.mulhn d a b)
  have F := @fA_fields (18) (b.val) (a.val) (d.val) (0x01) (by omega) (by omega) (by omega) (by omega) (by omega)
  obtain ⟨hm, f23_9, f18_5, f13_5, f8_5, f2_6, f0_2⟩ := F
  exact .word hm f0_2 (decodeBits_ofMulhn d a b hm (f0_2.trans (by omega)) (f2_6.trans (by omega)) (f8_5.trans (by omega)) (f13_5.trans (by omega)) (f18_5.trans (by omega)) (f23_9.trans (by omega)))

theorem decodeBits_ofDiv (d : XReg) (a : XReg) (b : XReg) {W : Nat} (hm : W < 2 ^ 32) (h0 : fld W 0 2 = 1) (h1 : fld W 2 6 = 1) (h2 : fld W 8 5 = d.val) (h3 : fld W 13 5 = a.val) (h4 : fld W 18 5 = b.val) (h5 : fld W 23 9 = 19) : decodeBits W = .ok (.div d a b) := by
  have hb0 := d.isLt
  have hb1 := a.isLt
  have hb2 := b.isLt
  rw [decodeBits_word h0 hm]
  rw [decode32.eq_1, h1]
  show (decodeOp W : Except Reject Instr) = _
  rw [decodeOp.eq_1, h5]
  show (.ok (.div (xr W 8) (xr W 13) (xr W 18)) : Except Reject Instr) = _
  simp only [h1, h2, h3, h4, h5, xr, lo8, lane, bv, flag, zero, Except.bind, ofNat_val, ofNat_toNat, if_true, if_false, Nat.reduceBEq, Bool.false_eq_true, true_and, and_true, and_self, or_self, not_false_eq_true, ne_eq, Nat.reduceLT, Nat.reduceLeDiff, Nat.reduceEqDiff, bit_zero, bit_one]
theorem codes_encDiv (d : XReg) (a : XReg) (b : XReg) : Codes (encDiv d a b) (.div d a b) := by
  have hb0 := d.isLt
  have hb1 := a.isLt
  have hb2 := b.isLt
  show Codes (4, fA 19 b a d 0x01) (.div d a b)
  have F := @fA_fields (19) (b.val) (a.val) (d.val) (0x01) (by omega) (by omega) (by omega) (by omega) (by omega)
  obtain ⟨hm, f23_9, f18_5, f13_5, f8_5, f2_6, f0_2⟩ := F
  exact .word hm f0_2 (decodeBits_ofDiv d a b hm (f0_2.trans (by omega)) (f2_6.trans (by omega)) (f8_5.trans (by omega)) (f13_5.trans (by omega)) (f18_5.trans (by omega)) (f23_9.trans (by omega)))

theorem decodeBits_ofDivn (d : XReg) (a : XReg) (b : XReg) {W : Nat} (hm : W < 2 ^ 32) (h0 : fld W 0 2 = 1) (h1 : fld W 2 6 = 1) (h2 : fld W 8 5 = d.val) (h3 : fld W 13 5 = a.val) (h4 : fld W 18 5 = b.val) (h5 : fld W 23 9 = 20) : decodeBits W = .ok (.divn d a b) := by
  have hb0 := d.isLt
  have hb1 := a.isLt
  have hb2 := b.isLt
  rw [decodeBits_word h0 hm]
  rw [decode32.eq_1, h1]
  show (decodeOp W : Except Reject Instr) = _
  rw [decodeOp.eq_1, h5]
  show (.ok (.divn (xr W 8) (xr W 13) (xr W 18)) : Except Reject Instr) = _
  simp only [h1, h2, h3, h4, h5, xr, lo8, lane, bv, flag, zero, Except.bind, ofNat_val, ofNat_toNat, if_true, if_false, Nat.reduceBEq, Bool.false_eq_true, true_and, and_true, and_self, or_self, not_false_eq_true, ne_eq, Nat.reduceLT, Nat.reduceLeDiff, Nat.reduceEqDiff, bit_zero, bit_one]
theorem codes_encDivn (d : XReg) (a : XReg) (b : XReg) : Codes (encDivn d a b) (.divn d a b) := by
  have hb0 := d.isLt
  have hb1 := a.isLt
  have hb2 := b.isLt
  show Codes (4, fA 20 b a d 0x01) (.divn d a b)
  have F := @fA_fields (20) (b.val) (a.val) (d.val) (0x01) (by omega) (by omega) (by omega) (by omega) (by omega)
  obtain ⟨hm, f23_9, f18_5, f13_5, f8_5, f2_6, f0_2⟩ := F
  exact .word hm f0_2 (decodeBits_ofDivn d a b hm (f0_2.trans (by omega)) (f2_6.trans (by omega)) (f8_5.trans (by omega)) (f13_5.trans (by omega)) (f18_5.trans (by omega)) (f23_9.trans (by omega)))

theorem decodeBits_ofRem (d : XReg) (a : XReg) (b : XReg) {W : Nat} (hm : W < 2 ^ 32) (h0 : fld W 0 2 = 1) (h1 : fld W 2 6 = 1) (h2 : fld W 8 5 = d.val) (h3 : fld W 13 5 = a.val) (h4 : fld W 18 5 = b.val) (h5 : fld W 23 9 = 21) : decodeBits W = .ok (.rem d a b) := by
  have hb0 := d.isLt
  have hb1 := a.isLt
  have hb2 := b.isLt
  rw [decodeBits_word h0 hm]
  rw [decode32.eq_1, h1]
  show (decodeOp W : Except Reject Instr) = _
  rw [decodeOp.eq_1, h5]
  show (.ok (.rem (xr W 8) (xr W 13) (xr W 18)) : Except Reject Instr) = _
  simp only [h1, h2, h3, h4, h5, xr, lo8, lane, bv, flag, zero, Except.bind, ofNat_val, ofNat_toNat, if_true, if_false, Nat.reduceBEq, Bool.false_eq_true, true_and, and_true, and_self, or_self, not_false_eq_true, ne_eq, Nat.reduceLT, Nat.reduceLeDiff, Nat.reduceEqDiff, bit_zero, bit_one]
theorem codes_encRem (d : XReg) (a : XReg) (b : XReg) : Codes (encRem d a b) (.rem d a b) := by
  have hb0 := d.isLt
  have hb1 := a.isLt
  have hb2 := b.isLt
  show Codes (4, fA 21 b a d 0x01) (.rem d a b)
  have F := @fA_fields (21) (b.val) (a.val) (d.val) (0x01) (by omega) (by omega) (by omega) (by omega) (by omega)
  obtain ⟨hm, f23_9, f18_5, f13_5, f8_5, f2_6, f0_2⟩ := F
  exact .word hm f0_2 (decodeBits_ofRem d a b hm (f0_2.trans (by omega)) (f2_6.trans (by omega)) (f8_5.trans (by omega)) (f13_5.trans (by omega)) (f18_5.trans (by omega)) (f23_9.trans (by omega)))

theorem decodeBits_ofRemn (d : XReg) (a : XReg) (b : XReg) {W : Nat} (hm : W < 2 ^ 32) (h0 : fld W 0 2 = 1) (h1 : fld W 2 6 = 1) (h2 : fld W 8 5 = d.val) (h3 : fld W 13 5 = a.val) (h4 : fld W 18 5 = b.val) (h5 : fld W 23 9 = 22) : decodeBits W = .ok (.remn d a b) := by
  have hb0 := d.isLt
  have hb1 := a.isLt
  have hb2 := b.isLt
  rw [decodeBits_word h0 hm]
  rw [decode32.eq_1, h1]
  show (decodeOp W : Except Reject Instr) = _
  rw [decodeOp.eq_1, h5]
  show (.ok (.remn (xr W 8) (xr W 13) (xr W 18)) : Except Reject Instr) = _
  simp only [h1, h2, h3, h4, h5, xr, lo8, lane, bv, flag, zero, Except.bind, ofNat_val, ofNat_toNat, if_true, if_false, Nat.reduceBEq, Bool.false_eq_true, true_and, and_true, and_self, or_self, not_false_eq_true, ne_eq, Nat.reduceLT, Nat.reduceLeDiff, Nat.reduceEqDiff, bit_zero, bit_one]
theorem codes_encRemn (d : XReg) (a : XReg) (b : XReg) : Codes (encRemn d a b) (.remn d a b) := by
  have hb0 := d.isLt
  have hb1 := a.isLt
  have hb2 := b.isLt
  show Codes (4, fA 22 b a d 0x01) (.remn d a b)
  have F := @fA_fields (22) (b.val) (a.val) (d.val) (0x01) (by omega) (by omega) (by omega) (by omega) (by omega)
  obtain ⟨hm, f23_9, f18_5, f13_5, f8_5, f2_6, f0_2⟩ := F
  exact .word hm f0_2 (decodeBits_ofRemn d a b hm (f0_2.trans (by omega)) (f2_6.trans (by omega)) (f8_5.trans (by omega)) (f13_5.trans (by omega)) (f18_5.trans (by omega)) (f23_9.trans (by omega)))

theorem decodeBits_ofClz (d : XReg) (a : XReg) {W : Nat} (hm : W < 2 ^ 32) (h0 : fld W 0 2 = 1) (h1 : fld W 2 6 = 1) (h2 : fld W 8 5 = d.val) (h3 : fld W 13 5 = a.val) (h4 : fld W 18 5 = 0) (h5 : fld W 23 9 = 24) : decodeBits W = .ok (.clz d a) := by
  have hb0 := d.isLt
  have hb1 := a.isLt
  rw [decodeBits_word h0 hm]
  rw [decode32.eq_1, h1]
  show (decodeOp W : Except Reject Instr) = _
  rw [decodeOp.eq_1, h5]
  show (zero W 18 5 (.clz (xr W 8) (xr W 13)) : Except Reject Instr) = _
  simp only [h1, h2, h3, h4, h5, xr, lo8, lane, bv, flag, zero, Except.bind, ofNat_val, ofNat_toNat, if_true, if_false, Nat.reduceBEq, Bool.false_eq_true, true_and, and_true, and_self, or_self, not_false_eq_true, ne_eq, Nat.reduceLT, Nat.reduceLeDiff, Nat.reduceEqDiff, bit_zero, bit_one]
theorem codes_encClz (d : XReg) (a : XReg) : Codes (encClz d a) (.clz d a) := by
  have hb0 := d.isLt
  have hb1 := a.isLt
  show Codes (4, fA 24 0 a d 0x01) (.clz d a)
  have F := @fA_fields (24) (0) (a.val) (d.val) (0x01) (by omega) (by omega) (by omega) (by omega) (by omega)
  obtain ⟨hm, f23_9, f18_5, f13_5, f8_5, f2_6, f0_2⟩ := F
  exact .word hm f0_2 (decodeBits_ofClz d a hm (f0_2.trans (by omega)) (f2_6.trans (by omega)) (f8_5.trans (by omega)) (f13_5.trans (by omega)) (f18_5.trans (by omega)) (f23_9.trans (by omega)))

theorem decodeBits_ofCtz (d : XReg) (a : XReg) {W : Nat} (hm : W < 2 ^ 32) (h0 : fld W 0 2 = 1) (h1 : fld W 2 6 = 1) (h2 : fld W 8 5 = d.val) (h3 : fld W 13 5 = a.val) (h4 : fld W 18 5 = 0) (h5 : fld W 23 9 = 25) : decodeBits W = .ok (.ctz d a) := by
  have hb0 := d.isLt
  have hb1 := a.isLt
  rw [decodeBits_word h0 hm]
  rw [decode32.eq_1, h1]
  show (decodeOp W : Except Reject Instr) = _
  rw [decodeOp.eq_1, h5]
  show (zero W 18 5 (.ctz (xr W 8) (xr W 13)) : Except Reject Instr) = _
  simp only [h1, h2, h3, h4, h5, xr, lo8, lane, bv, flag, zero, Except.bind, ofNat_val, ofNat_toNat, if_true, if_false, Nat.reduceBEq, Bool.false_eq_true, true_and, and_true, and_self, or_self, not_false_eq_true, ne_eq, Nat.reduceLT, Nat.reduceLeDiff, Nat.reduceEqDiff, bit_zero, bit_one]
theorem codes_encCtz (d : XReg) (a : XReg) : Codes (encCtz d a) (.ctz d a) := by
  have hb0 := d.isLt
  have hb1 := a.isLt
  show Codes (4, fA 25 0 a d 0x01) (.ctz d a)
  have F := @fA_fields (25) (0) (a.val) (d.val) (0x01) (by omega) (by omega) (by omega) (by omega) (by omega)
  obtain ⟨hm, f23_9, f18_5, f13_5, f8_5, f2_6, f0_2⟩ := F
  exact .word hm f0_2 (decodeBits_ofCtz d a hm (f0_2.trans (by omega)) (f2_6.trans (by omega)) (f8_5.trans (by omega)) (f13_5.trans (by omega)) (f18_5.trans (by omega)) (f23_9.trans (by omega)))

theorem decodeBits_ofPopc (d : XReg) (a : XReg) {W : Nat} (hm : W < 2 ^ 32) (h0 : fld W 0 2 = 1) (h1 : fld W 2 6 = 1) (h2 : fld W 8 5 = d.val) (h3 : fld W 13 5 = a.val) (h4 : fld W 18 5 = 0) (h5 : fld W 23 9 = 26) : decodeBits W = .ok (.popc d a) := by
  have hb0 := d.isLt
  have hb1 := a.isLt
  rw [decodeBits_word h0 hm]
  rw [decode32.eq_1, h1]
  show (decodeOp W : Except Reject Instr) = _
  rw [decodeOp.eq_1, h5]
  show (zero W 18 5 (.popc (xr W 8) (xr W 13)) : Except Reject Instr) = _
  simp only [h1, h2, h3, h4, h5, xr, lo8, lane, bv, flag, zero, Except.bind, ofNat_val, ofNat_toNat, if_true, if_false, Nat.reduceBEq, Bool.false_eq_true, true_and, and_true, and_self, or_self, not_false_eq_true, ne_eq, Nat.reduceLT, Nat.reduceLeDiff, Nat.reduceEqDiff, bit_zero, bit_one]
theorem codes_encPopc (d : XReg) (a : XReg) : Codes (encPopc d a) (.popc d a) := by
  have hb0 := d.isLt
  have hb1 := a.isLt
  show Codes (4, fA 26 0 a d 0x01) (.popc d a)
  have F := @fA_fields (26) (0) (a.val) (d.val) (0x01) (by omega) (by omega) (by omega) (by omega) (by omega)
  obtain ⟨hm, f23_9, f18_5, f13_5, f8_5, f2_6, f0_2⟩ := F
  exact .word hm f0_2 (decodeBits_ofPopc d a hm (f0_2.trans (by omega)) (f2_6.trans (by omega)) (f8_5.trans (by omega)) (f13_5.trans (by omega)) (f18_5.trans (by omega)) (f23_9.trans (by omega)))

theorem decodeBits_ofBswap (d : XReg) (a : XReg) {W : Nat} (hm : W < 2 ^ 32) (h0 : fld W 0 2 = 1) (h1 : fld W 2 6 = 1) (h2 : fld W 8 5 = d.val) (h3 : fld W 13 5 = a.val) (h4 : fld W 18 5 = 0) (h5 : fld W 23 9 = 27) : decodeBits W = .ok (.bswap d a) := by
  have hb0 := d.isLt
  have hb1 := a.isLt
  rw [decodeBits_word h0 hm]
  rw [decode32.eq_1, h1]
  show (decodeOp W : Except Reject Instr) = _
  rw [decodeOp.eq_1, h5]
  show (zero W 18 5 (.bswap (xr W 8) (xr W 13)) : Except Reject Instr) = _
  simp only [h1, h2, h3, h4, h5, xr, lo8, lane, bv, flag, zero, Except.bind, ofNat_val, ofNat_toNat, if_true, if_false, Nat.reduceBEq, Bool.false_eq_true, true_and, and_true, and_self, or_self, not_false_eq_true, ne_eq, Nat.reduceLT, Nat.reduceLeDiff, Nat.reduceEqDiff, bit_zero, bit_one]
theorem codes_encBswap (d : XReg) (a : XReg) : Codes (encBswap d a) (.bswap d a) := by
  have hb0 := d.isLt
  have hb1 := a.isLt
  show Codes (4, fA 27 0 a d 0x01) (.bswap d a)
  have F := @fA_fields (27) (0) (a.val) (d.val) (0x01) (by omega) (by omega) (by omega) (by omega) (by omega)
  obtain ⟨hm, f23_9, f18_5, f13_5, f8_5, f2_6, f0_2⟩ := F
  exact .word hm f0_2 (decodeBits_ofBswap d a hm (f0_2.trans (by omega)) (f2_6.trans (by omega)) (f8_5.trans (by omega)) (f13_5.trans (by omega)) (f18_5.trans (by omega)) (f23_9.trans (by omega)))

theorem decodeBits_ofBext (d : XReg) (a : XReg) (b : XReg) {W : Nat} (hm : W < 2 ^ 32) (h0 : fld W 0 2 = 1) (h1 : fld W 2 6 = 1) (h2 : fld W 8 5 = d.val) (h3 : fld W 13 5 = a.val) (h4 : fld W 18 5 = b.val) (h5 : fld W 23 9 = 32) : decodeBits W = .ok (.bext d a b) := by
  have hb0 := d.isLt
  have hb1 := a.isLt
  have hb2 := b.isLt
  rw [decodeBits_word h0 hm]
  rw [decode32.eq_1, h1]
  show (decodeOp W : Except Reject Instr) = _
  rw [decodeOp.eq_1, h5]
  show (.ok (.bext (xr W 8) (xr W 13) (xr W 18)) : Except Reject Instr) = _
  simp only [h1, h2, h3, h4, h5, xr, lo8, lane, bv, flag, zero, Except.bind, ofNat_val, ofNat_toNat, if_true, if_false, Nat.reduceBEq, Bool.false_eq_true, true_and, and_true, and_self, or_self, not_false_eq_true, ne_eq, Nat.reduceLT, Nat.reduceLeDiff, Nat.reduceEqDiff, bit_zero, bit_one]
theorem codes_encBext (d : XReg) (a : XReg) (b : XReg) : Codes (encBext d a b) (.bext d a b) := by
  have hb0 := d.isLt
  have hb1 := a.isLt
  have hb2 := b.isLt
  show Codes (4, fA 32 b a d 0x01) (.bext d a b)
  have F := @fA_fields (32) (b.val) (a.val) (d.val) (0x01) (by omega) (by omega) (by omega) (by omega) (by omega)
  obtain ⟨hm, f23_9, f18_5, f13_5, f8_5, f2_6, f0_2⟩ := F
  exact .word hm f0_2 (decodeBits_ofBext d a b hm (f0_2.trans (by omega)) (f2_6.trans (by omega)) (f8_5.trans (by omega)) (f13_5.trans (by omega)) (f18_5.trans (by omega)) (f23_9.trans (by omega)))

theorem decodeBits_ofBexts (d : XReg) (a : XReg) (b : XReg) {W : Nat} (hm : W < 2 ^ 32) (h0 : fld W 0 2 = 1) (h1 : fld W 2 6 = 1) (h2 : fld W 8 5 = d.val) (h3 : fld W 13 5 = a.val) (h4 : fld W 18 5 = b.val) (h5 : fld W 23 9 = 33) : decodeBits W = .ok (.bexts d a b) := by
  have hb0 := d.isLt
  have hb1 := a.isLt
  have hb2 := b.isLt
  rw [decodeBits_word h0 hm]
  rw [decode32.eq_1, h1]
  show (decodeOp W : Except Reject Instr) = _
  rw [decodeOp.eq_1, h5]
  show (.ok (.bexts (xr W 8) (xr W 13) (xr W 18)) : Except Reject Instr) = _
  simp only [h1, h2, h3, h4, h5, xr, lo8, lane, bv, flag, zero, Except.bind, ofNat_val, ofNat_toNat, if_true, if_false, Nat.reduceBEq, Bool.false_eq_true, true_and, and_true, and_self, or_self, not_false_eq_true, ne_eq, Nat.reduceLT, Nat.reduceLeDiff, Nat.reduceEqDiff, bit_zero, bit_one]
theorem codes_encBexts (d : XReg) (a : XReg) (b : XReg) : Codes (encBexts d a b) (.bexts d a b) := by
  have hb0 := d.isLt
  have hb1 := a.isLt
  have hb2 := b.isLt
  show Codes (4, fA 33 b a d 0x01) (.bexts d a b)
  have F := @fA_fields (33) (b.val) (a.val) (d.val) (0x01) (by omega) (by omega) (by omega) (by omega) (by omega)
  obtain ⟨hm, f23_9, f18_5, f13_5, f8_5, f2_6, f0_2⟩ := F
  exact .word hm f0_2 (decodeBits_ofBexts d a b hm (f0_2.trans (by omega)) (f2_6.trans (by omega)) (f8_5.trans (by omega)) (f13_5.trans (by omega)) (f18_5.trans (by omega)) (f23_9.trans (by omega)))

theorem decodeBits_ofBins (d : XReg) (a : XReg) (b : XReg) {W : Nat} (hm : W < 2 ^ 32) (h0 : fld W 0 2 = 1) (h1 : fld W 2 6 = 1) (h2 : fld W 8 5 = d.val) (h3 : fld W 13 5 = a.val) (h4 : fld W 18 5 = b.val) (h5 : fld W 23 9 = 34) : decodeBits W = .ok (.bins d a b) := by
  have hb0 := d.isLt
  have hb1 := a.isLt
  have hb2 := b.isLt
  rw [decodeBits_word h0 hm]
  rw [decode32.eq_1, h1]
  show (decodeOp W : Except Reject Instr) = _
  rw [decodeOp.eq_1, h5]
  show (.ok (.bins (xr W 8) (xr W 13) (xr W 18)) : Except Reject Instr) = _
  simp only [h1, h2, h3, h4, h5, xr, lo8, lane, bv, flag, zero, Except.bind, ofNat_val, ofNat_toNat, if_true, if_false, Nat.reduceBEq, Bool.false_eq_true, true_and, and_true, and_self, or_self, not_false_eq_true, ne_eq, Nat.reduceLT, Nat.reduceLeDiff, Nat.reduceEqDiff, bit_zero, bit_one]
theorem codes_encBins (d : XReg) (a : XReg) (b : XReg) : Codes (encBins d a b) (.bins d a b) := by
  have hb0 := d.isLt
  have hb1 := a.isLt
  have hb2 := b.isLt
  show Codes (4, fA 34 b a d 0x01) (.bins d a b)
  have F := @fA_fields (34) (b.val) (a.val) (d.val) (0x01) (by omega) (by omega) (by omega) (by omega) (by omega)
  obtain ⟨hm, f23_9, f18_5, f13_5, f8_5, f2_6, f0_2⟩ := F
  exact .word hm f0_2 (decodeBits_ofBins d a b hm (f0_2.trans (by omega)) (f2_6.trans (by omega)) (f8_5.trans (by omega)) (f13_5.trans (by omega)) (f18_5.trans (by omega)) (f23_9.trans (by omega)))

theorem decodeBits_ofSel (d : XReg) (a : XReg) (b : XReg) {W : Nat} (hm : W < 2 ^ 32) (h0 : fld W 0 2 = 1) (h1 : fld W 2 6 = 1) (h2 : fld W 8 5 = d.val) (h3 : fld W 13 5 = a.val) (h4 : fld W 18 5 = b.val) (h5 : fld W 23 9 = 35) : decodeBits W = .ok (.sel d a b) := by
  have hb0 := d.isLt
  have hb1 := a.isLt
  have hb2 := b.isLt
  rw [decodeBits_word h0 hm]
  rw [decode32.eq_1, h1]
  show (decodeOp W : Except Reject Instr) = _
  rw [decodeOp.eq_1, h5]
  show (.ok (.sel (xr W 8) (xr W 13) (xr W 18)) : Except Reject Instr) = _
  simp only [h1, h2, h3, h4, h5, xr, lo8, lane, bv, flag, zero, Except.bind, ofNat_val, ofNat_toNat, if_true, if_false, Nat.reduceBEq, Bool.false_eq_true, true_and, and_true, and_self, or_self, not_false_eq_true, ne_eq, Nat.reduceLT, Nat.reduceLeDiff, Nat.reduceEqDiff, bit_zero, bit_one]
theorem codes_encSel (d : XReg) (a : XReg) (b : XReg) : Codes (encSel d a b) (.sel d a b) := by
  have hb0 := d.isLt
  have hb1 := a.isLt
  have hb2 := b.isLt
  show Codes (4, fA 35 b a d 0x01) (.sel d a b)
  have F := @fA_fields (35) (b.val) (a.val) (d.val) (0x01) (by omega) (by omega) (by omega) (by omega) (by omega)
  obtain ⟨hm, f23_9, f18_5, f13_5, f8_5, f2_6, f0_2⟩ := F
  exact .word hm f0_2 (decodeBits_ofSel d a b hm (f0_2.trans (by omega)) (f2_6.trans (by omega)) (f8_5.trans (by omega)) (f13_5.trans (by omega)) (f18_5.trans (by omega)) (f23_9.trans (by omega)))

theorem decodeBits_ofAddi (d : XReg) (a : XReg) (i : BitVec 14) {W : Nat} (hm : W < 2 ^ 32) (h0 : fld W 0 2 = 1) (h1 : fld W 2 6 = 2) (h2 : fld W 8 5 = d.val) (h3 : fld W 13 5 = a.val) (h4 : fld W 18 14 = i.toNat) : decodeBits W = .ok (.addi d a i) := by
  have hb0 := d.isLt
  have hb1 := a.isLt
  have hb2 := i.isLt
  rw [decodeBits_word h0 hm]
  rw [decode32.eq_1, h1]
  show (.ok (.addi (xr W 8) (xr W 13) (bv 14 W 18)) : Except Reject Instr) = _
  simp only [h1, h2, h3, h4, xr, lo8, lane, bv, flag, zero, Except.bind, ofNat_val, ofNat_toNat, if_true, if_false, Nat.reduceBEq, Bool.false_eq_true, true_and, and_true, and_self, or_self, not_false_eq_true, ne_eq, Nat.reduceLT, Nat.reduceLeDiff, Nat.reduceEqDiff, bit_zero, bit_one]
theorem codes_encAddi (d : XReg) (a : XReg) (i : BitVec 14) : Codes (encAddi d a i) (.addi d a i) := by
  have hb0 := d.isLt
  have hb1 := a.isLt
  have hb2 := i.isLt
  show Codes (4, fI i.toNat a d 2) (.addi d a i)
  have F := @fI_fields (i.toNat) (a.val) (d.val) (2) (by omega) (by omega) (by omega) (by omega)
  obtain ⟨hm, f18_14, f13_5, f8_5, f2_6, f0_2⟩ := F
  exact .word hm f0_2 (decodeBits_ofAddi d a i hm (f0_2.trans (by omega)) (f2_6.trans (by omega)) (f8_5.trans (by omega)) (f13_5.trans (by omega)) (f18_14.trans (by omega)))

theorem decodeBits_ofAndi (d : XReg) (a : XReg) (i : BitVec 14) {W : Nat} (hm : W < 2 ^ 32) (h0 : fld W 0 2 = 1) (h1 : fld W 2 6 = 3) (h2 : fld W 8 5 = d.val) (h3 : fld W 13 5 = a.val) (h4 : fld W 18 14 = i.toNat) : decodeBits W = .ok (.andi d a i) := by
  have hb0 := d.isLt
  have hb1 := a.isLt
  have hb2 := i.isLt
  rw [decodeBits_word h0 hm]
  rw [decode32.eq_1, h1]
  show (.ok (.andi (xr W 8) (xr W 13) (bv 14 W 18)) : Except Reject Instr) = _
  simp only [h1, h2, h3, h4, xr, lo8, lane, bv, flag, zero, Except.bind, ofNat_val, ofNat_toNat, if_true, if_false, Nat.reduceBEq, Bool.false_eq_true, true_and, and_true, and_self, or_self, not_false_eq_true, ne_eq, Nat.reduceLT, Nat.reduceLeDiff, Nat.reduceEqDiff, bit_zero, bit_one]
theorem codes_encAndi (d : XReg) (a : XReg) (i : BitVec 14) : Codes (encAndi d a i) (.andi d a i) := by
  have hb0 := d.isLt
  have hb1 := a.isLt
  have hb2 := i.isLt
  show Codes (4, fI i.toNat a d 3) (.andi d a i)
  have F := @fI_fields (i.toNat) (a.val) (d.val) (3) (by omega) (by omega) (by omega) (by omega)
  obtain ⟨hm, f18_14, f13_5, f8_5, f2_6, f0_2⟩ := F
  exact .word hm f0_2 (decodeBits_ofAndi d a i hm (f0_2.trans (by omega)) (f2_6.trans (by omega)) (f8_5.trans (by omega)) (f13_5.trans (by omega)) (f18_14.trans (by omega)))

theorem decodeBits_ofOri (d : XReg) (a : XReg) (i : BitVec 14) {W : Nat} (hm : W < 2 ^ 32) (h0 : fld W 0 2 = 1) (h1 : fld W 2 6 = 4) (h2 : fld W 8 5 = d.val) (h3 : fld W 13 5 = a.val) (h4 : fld W 18 14 = i.toNat) : decodeBits W = .ok (.ori d a i) := by
  have hb0 := d.isLt
  have hb1 := a.isLt
  have hb2 := i.isLt
  rw [decodeBits_word h0 hm]
  rw [decode32.eq_1, h1]
  show (.ok (.ori (xr W 8) (xr W 13) (bv 14 W 18)) : Except Reject Instr) = _
  simp only [h1, h2, h3, h4, xr, lo8, lane, bv, flag, zero, Except.bind, ofNat_val, ofNat_toNat, if_true, if_false, Nat.reduceBEq, Bool.false_eq_true, true_and, and_true, and_self, or_self, not_false_eq_true, ne_eq, Nat.reduceLT, Nat.reduceLeDiff, Nat.reduceEqDiff, bit_zero, bit_one]
theorem codes_encOri (d : XReg) (a : XReg) (i : BitVec 14) : Codes (encOri d a i) (.ori d a i) := by
  have hb0 := d.isLt
  have hb1 := a.isLt
  have hb2 := i.isLt
  show Codes (4, fI i.toNat a d 4) (.ori d a i)
  have F := @fI_fields (i.toNat) (a.val) (d.val) (4) (by omega) (by omega) (by omega) (by omega)
  obtain ⟨hm, f18_14, f13_5, f8_5, f2_6, f0_2⟩ := F
  exact .word hm f0_2 (decodeBits_ofOri d a i hm (f0_2.trans (by omega)) (f2_6.trans (by omega)) (f8_5.trans (by omega)) (f13_5.trans (by omega)) (f18_14.trans (by omega)))

theorem decodeBits_ofXori (d : XReg) (a : XReg) (i : BitVec 14) {W : Nat} (hm : W < 2 ^ 32) (h0 : fld W 0 2 = 1) (h1 : fld W 2 6 = 5) (h2 : fld W 8 5 = d.val) (h3 : fld W 13 5 = a.val) (h4 : fld W 18 14 = i.toNat) : decodeBits W = .ok (.xori d a i) := by
  have hb0 := d.isLt
  have hb1 := a.isLt
  have hb2 := i.isLt
  rw [decodeBits_word h0 hm]
  rw [decode32.eq_1, h1]
  show (.ok (.xori (xr W 8) (xr W 13) (bv 14 W 18)) : Except Reject Instr) = _
  simp only [h1, h2, h3, h4, xr, lo8, lane, bv, flag, zero, Except.bind, ofNat_val, ofNat_toNat, if_true, if_false, Nat.reduceBEq, Bool.false_eq_true, true_and, and_true, and_self, or_self, not_false_eq_true, ne_eq, Nat.reduceLT, Nat.reduceLeDiff, Nat.reduceEqDiff, bit_zero, bit_one]
theorem codes_encXori (d : XReg) (a : XReg) (i : BitVec 14) : Codes (encXori d a i) (.xori d a i) := by
  have hb0 := d.isLt
  have hb1 := a.isLt
  have hb2 := i.isLt
  show Codes (4, fI i.toNat a d 5) (.xori d a i)
  have F := @fI_fields (i.toNat) (a.val) (d.val) (5) (by omega) (by omega) (by omega) (by omega)
  obtain ⟨hm, f18_14, f13_5, f8_5, f2_6, f0_2⟩ := F
  exact .word hm f0_2 (decodeBits_ofXori d a i hm (f0_2.trans (by omega)) (f2_6.trans (by omega)) (f8_5.trans (by omega)) (f13_5.trans (by omega)) (f18_14.trans (by omega)))

theorem decodeBits_ofSlti (d : XReg) (a : XReg) (i : BitVec 14) {W : Nat} (hm : W < 2 ^ 32) (h0 : fld W 0 2 = 1) (h1 : fld W 2 6 = 6) (h2 : fld W 8 5 = d.val) (h3 : fld W 13 5 = a.val) (h4 : fld W 18 14 = i.toNat) : decodeBits W = .ok (.slti d a i) := by
  have hb0 := d.isLt
  have hb1 := a.isLt
  have hb2 := i.isLt
  rw [decodeBits_word h0 hm]
  rw [decode32.eq_1, h1]
  show (.ok (.slti (xr W 8) (xr W 13) (bv 14 W 18)) : Except Reject Instr) = _
  simp only [h1, h2, h3, h4, xr, lo8, lane, bv, flag, zero, Except.bind, ofNat_val, ofNat_toNat, if_true, if_false, Nat.reduceBEq, Bool.false_eq_true, true_and, and_true, and_self, or_self, not_false_eq_true, ne_eq, Nat.reduceLT, Nat.reduceLeDiff, Nat.reduceEqDiff, bit_zero, bit_one]
theorem codes_encSlti (d : XReg) (a : XReg) (i : BitVec 14) : Codes (encSlti d a i) (.slti d a i) := by
  have hb0 := d.isLt
  have hb1 := a.isLt
  have hb2 := i.isLt
  show Codes (4, fI i.toNat a d 6) (.slti d a i)
  have F := @fI_fields (i.toNat) (a.val) (d.val) (6) (by omega) (by omega) (by omega) (by omega)
  obtain ⟨hm, f18_14, f13_5, f8_5, f2_6, f0_2⟩ := F
  exact .word hm f0_2 (decodeBits_ofSlti d a i hm (f0_2.trans (by omega)) (f2_6.trans (by omega)) (f8_5.trans (by omega)) (f13_5.trans (by omega)) (f18_14.trans (by omega)))

theorem decodeBits_ofSltni (d : XReg) (a : XReg) (i : BitVec 14) {W : Nat} (hm : W < 2 ^ 32) (h0 : fld W 0 2 = 1) (h1 : fld W 2 6 = 7) (h2 : fld W 8 5 = d.val) (h3 : fld W 13 5 = a.val) (h4 : fld W 18 14 = i.toNat) : decodeBits W = .ok (.sltni d a i) := by
  have hb0 := d.isLt
  have hb1 := a.isLt
  have hb2 := i.isLt
  rw [decodeBits_word h0 hm]
  rw [decode32.eq_1, h1]
  show (.ok (.sltni (xr W 8) (xr W 13) (bv 14 W 18)) : Except Reject Instr) = _
  simp only [h1, h2, h3, h4, xr, lo8, lane, bv, flag, zero, Except.bind, ofNat_val, ofNat_toNat, if_true, if_false, Nat.reduceBEq, Bool.false_eq_true, true_and, and_true, and_self, or_self, not_false_eq_true, ne_eq, Nat.reduceLT, Nat.reduceLeDiff, Nat.reduceEqDiff, bit_zero, bit_one]
theorem codes_encSltni (d : XReg) (a : XReg) (i : BitVec 14) : Codes (encSltni d a i) (.sltni d a i) := by
  have hb0 := d.isLt
  have hb1 := a.isLt
  have hb2 := i.isLt
  show Codes (4, fI i.toNat a d 7) (.sltni d a i)
  have F := @fI_fields (i.toNat) (a.val) (d.val) (7) (by omega) (by omega) (by omega) (by omega)
  obtain ⟨hm, f18_14, f13_5, f8_5, f2_6, f0_2⟩ := F
  exact .word hm f0_2 (decodeBits_ofSltni d a i hm (f0_2.trans (by omega)) (f2_6.trans (by omega)) (f8_5.trans (by omega)) (f13_5.trans (by omega)) (f18_14.trans (by omega)))

theorem decodeBits_ofSlli (d : XReg) (a : XReg) (s : BitVec 6) {W : Nat} (hm : W < 2 ^ 32) (h0 : fld W 0 2 = 1) (h1 : fld W 2 6 = 8) (h2 : fld W 8 5 = d.val) (h3 : fld W 13 5 = a.val) (h4 : fld W 18 6 = 0) (h5 : fld W 24 6 = s.toNat) (h6 : fld W 30 2 = 0) : decodeBits W = .ok (.slli d a s) := by
  have hb0 := d.isLt
  have hb1 := a.isLt
  have hb2 := s.isLt
  rw [decodeBits_word h0 hm]
  rw [decode32.eq_1, h1]
  show (decodeShift W : Except Reject Instr) = _
  rw [decodeShift.eq_1, h6]
  show (zero W 18 6 (.slli (xr W 8) (xr W 13) (bv 6 W 24)) : Except Reject Instr) = _
  simp only [h1, h2, h3, h4, h5, h6, xr, lo8, lane, bv, flag, zero, Except.bind, ofNat_val, ofNat_toNat, if_true, if_false, Nat.reduceBEq, Bool.false_eq_true, true_and, and_true, and_self, or_self, not_false_eq_true, ne_eq, Nat.reduceLT, Nat.reduceLeDiff, Nat.reduceEqDiff, bit_zero, bit_one]
theorem codes_encSlli (d : XReg) (a : XReg) (s : BitVec 6) : Codes (encSlli d a s) (.slli d a s) := by
  have hb0 := d.isLt
  have hb1 := a.isLt
  have hb2 := s.isLt
  show Codes (4, fI (0 * 2 ^ 12 + s.toNat * 2 ^ 6) a d 0x08) (.slli d a s)
  have F := @fI_fields ((0 * 2 ^ 12 + s.toNat * 2 ^ 6)) (a.val) (d.val) (0x08) (by omega) (by omega) (by omega) (by omega)
  obtain ⟨hm, f18_14, f13_5, f8_5, f2_6, f0_2⟩ := F
  exact .word hm f0_2 (decodeBits_ofSlli d a s hm (f0_2.trans (by omega)) (f2_6.trans (by omega)) (f8_5.trans (by omega)) (f13_5.trans (by omega)) ((fld_sub (o := 0) (k := 6) f18_14 rfl (by decide)).trans (by omega)) ((fld_sub (o := 6) (k := 6) f18_14 rfl (by decide)).trans (by omega)) ((fld_sub (o := 12) (k := 2) f18_14 rfl (by decide)).trans (by omega)))

theorem decodeBits_ofSrli (d : XReg) (a : XReg) (s : BitVec 6) {W : Nat} (hm : W < 2 ^ 32) (h0 : fld W 0 2 = 1) (h1 : fld W 2 6 = 8) (h2 : fld W 8 5 = d.val) (h3 : fld W 13 5 = a.val) (h4 : fld W 18 6 = 0) (h5 : fld W 24 6 = s.toNat) (h6 : fld W 30 2 = 1) : decodeBits W = .ok (.srli d a s) := by
  have hb0 := d.isLt
  have hb1 := a.isLt
  have hb2 := s.isLt
  rw [decodeBits_word h0 hm]
  rw [decode32.eq_1, h1]
  show (decodeShift W : Except Reject Instr) = _
  rw [decodeShift.eq_1, h6]
  show (zero W 18 6 (.srli (xr W 8) (xr W 13) (bv 6 W 24)) : Except Reject Instr) = _
  simp only [h1, h2, h3, h4, h5, h6, xr, lo8, lane, bv, flag, zero, Except.bind, ofNat_val, ofNat_toNat, if_true, if_false, Nat.reduceBEq, Bool.false_eq_true, true_and, and_true, and_self, or_self, not_false_eq_true, ne_eq, Nat.reduceLT, Nat.reduceLeDiff, Nat.reduceEqDiff, bit_zero, bit_one]
theorem codes_encSrli (d : XReg) (a : XReg) (s : BitVec 6) : Codes (encSrli d a s) (.srli d a s) := by
  have hb0 := d.isLt
  have hb1 := a.isLt
  have hb2 := s.isLt
  show Codes (4, fI (1 * 2 ^ 12 + s.toNat * 2 ^ 6) a d 0x08) (.srli d a s)
  have F := @fI_fields ((1 * 2 ^ 12 + s.toNat * 2 ^ 6)) (a.val) (d.val) (0x08) (by omega) (by omega) (by omega) (by omega)
  obtain ⟨hm, f18_14, f13_5, f8_5, f2_6, f0_2⟩ := F
  exact .word hm f0_2 (decodeBits_ofSrli d a s hm (f0_2.trans (by omega)) (f2_6.trans (by omega)) (f8_5.trans (by omega)) (f13_5.trans (by omega)) ((fld_sub (o := 0) (k := 6) f18_14 rfl (by decide)).trans (by omega)) ((fld_sub (o := 6) (k := 6) f18_14 rfl (by decide)).trans (by omega)) ((fld_sub (o := 12) (k := 2) f18_14 rfl (by decide)).trans (by omega)))

theorem decodeBits_ofSrai (d : XReg) (a : XReg) (s : BitVec 6) {W : Nat} (hm : W < 2 ^ 32) (h0 : fld W 0 2 = 1) (h1 : fld W 2 6 = 8) (h2 : fld W 8 5 = d.val) (h3 : fld W 13 5 = a.val) (h4 : fld W 18 6 = 0) (h5 : fld W 24 6 = s.toNat) (h6 : fld W 30 2 = 2) : decodeBits W = .ok (.srai d a s) := by
  have hb0 := d.isLt
  have hb1 := a.isLt
  have hb2 := s.isLt
  rw [decodeBits_word h0 hm]
  rw [decode32.eq_1, h1]
  show (decodeShift W : Except Reject Instr) = _
  rw [decodeShift.eq_1, h6]
  show (zero W 18 6 (.srai (xr W 8) (xr W 13) (bv 6 W 24)) : Except Reject Instr) = _
  simp only [h1, h2, h3, h4, h5, h6, xr, lo8, lane, bv, flag, zero, Except.bind, ofNat_val, ofNat_toNat, if_true, if_false, Nat.reduceBEq, Bool.false_eq_true, true_and, and_true, and_self, or_self, not_false_eq_true, ne_eq, Nat.reduceLT, Nat.reduceLeDiff, Nat.reduceEqDiff, bit_zero, bit_one]
theorem codes_encSrai (d : XReg) (a : XReg) (s : BitVec 6) : Codes (encSrai d a s) (.srai d a s) := by
  have hb0 := d.isLt
  have hb1 := a.isLt
  have hb2 := s.isLt
  show Codes (4, fI (2 * 2 ^ 12 + s.toNat * 2 ^ 6) a d 0x08) (.srai d a s)
  have F := @fI_fields ((2 * 2 ^ 12 + s.toNat * 2 ^ 6)) (a.val) (d.val) (0x08) (by omega) (by omega) (by omega) (by omega)
  obtain ⟨hm, f18_14, f13_5, f8_5, f2_6, f0_2⟩ := F
  exact .word hm f0_2 (decodeBits_ofSrai d a s hm (f0_2.trans (by omega)) (f2_6.trans (by omega)) (f8_5.trans (by omega)) (f13_5.trans (by omega)) ((fld_sub (o := 0) (k := 6) f18_14 rfl (by decide)).trans (by omega)) ((fld_sub (o := 6) (k := 6) f18_14 rfl (by decide)).trans (by omega)) ((fld_sub (o := 12) (k := 2) f18_14 rfl (by decide)).trans (by omega)))

theorem decodeBits_ofRoti (d : XReg) (a : XReg) (s : BitVec 6) {W : Nat} (hm : W < 2 ^ 32) (h0 : fld W 0 2 = 1) (h1 : fld W 2 6 = 8) (h2 : fld W 8 5 = d.val) (h3 : fld W 13 5 = a.val) (h4 : fld W 18 6 = 0) (h5 : fld W 24 6 = s.toNat) (h6 : fld W 30 2 = 3) : decodeBits W = .ok (.roti d a s) := by
  have hb0 := d.isLt
  have hb1 := a.isLt
  have hb2 := s.isLt
  rw [decodeBits_word h0 hm]
  rw [decode32.eq_1, h1]
  show (decodeShift W : Except Reject Instr) = _
  rw [decodeShift.eq_1, h6]
  show (zero W 18 6 (.roti (xr W 8) (xr W 13) (bv 6 W 24)) : Except Reject Instr) = _
  simp only [h1, h2, h3, h4, h5, h6, xr, lo8, lane, bv, flag, zero, Except.bind, ofNat_val, ofNat_toNat, if_true, if_false, Nat.reduceBEq, Bool.false_eq_true, true_and, and_true, and_self, or_self, not_false_eq_true, ne_eq, Nat.reduceLT, Nat.reduceLeDiff, Nat.reduceEqDiff, bit_zero, bit_one]
theorem codes_encRoti (d : XReg) (a : XReg) (s : BitVec 6) : Codes (encRoti d a s) (.roti d a s) := by
  have hb0 := d.isLt
  have hb1 := a.isLt
  have hb2 := s.isLt
  show Codes (4, fI (3 * 2 ^ 12 + s.toNat * 2 ^ 6) a d 0x08) (.roti d a s)
  have F := @fI_fields ((3 * 2 ^ 12 + s.toNat * 2 ^ 6)) (a.val) (d.val) (0x08) (by omega) (by omega) (by omega) (by omega)
  obtain ⟨hm, f18_14, f13_5, f8_5, f2_6, f0_2⟩ := F
  exact .word hm f0_2 (decodeBits_ofRoti d a s hm (f0_2.trans (by omega)) (f2_6.trans (by omega)) (f8_5.trans (by omega)) (f13_5.trans (by omega)) ((fld_sub (o := 0) (k := 6) f18_14 rfl (by decide)).trans (by omega)) ((fld_sub (o := 6) (k := 6) f18_14 rfl (by decide)).trans (by omega)) ((fld_sub (o := 12) (k := 2) f18_14 rfl (by decide)).trans (by omega)))

theorem decodeBits_ofBexti (d : XReg) (a : XReg) (o : BitVec 7) (w : BitVec 7) {W : Nat} (hm : W < 2 ^ 32) (h0 : fld W 0 2 = 1) (h1 : fld W 2 6 = 9) (h2 : fld W 8 5 = d.val) (h3 : fld W 13 5 = a.val) (h4 : fld W 18 7 = w.toNat) (h5 : fld W 25 7 = o.toNat) : decodeBits W = .ok (.bexti d a o w) := by
  have hb0 := d.isLt
  have hb1 := a.isLt
  have hb2 := o.isLt
  have hb3 := w.isLt
  rw [decodeBits_word h0 hm]
  rw [decode32.eq_1, h1]
  show (.ok (.bexti (xr W 8) (xr W 13) (bv 7 W 25) (bv 7 W 18)) : Except Reject Instr) = _
  simp only [h1, h2, h3, h4, h5, xr, lo8, lane, bv, flag, zero, Except.bind, ofNat_val, ofNat_toNat, if_true, if_false, Nat.reduceBEq, Bool.false_eq_true, true_and, and_true, and_self, or_self, not_false_eq_true, ne_eq, Nat.reduceLT, Nat.reduceLeDiff, Nat.reduceEqDiff, bit_zero, bit_one]
theorem codes_encBexti (d : XReg) (a : XReg) (o : BitVec 7) (w : BitVec 7) : Codes (encBexti d a o w) (.bexti d a o w) := by
  have hb0 := d.isLt
  have hb1 := a.isLt
  have hb2 := o.isLt
  have hb3 := w.isLt
  show Codes (4, fI (o.toNat * 2 ^ 7 + w.toNat) a d 9) (.bexti d a o w)
  have F := @fI_fields ((o.toNat * 2 ^ 7 + w.toNat)) (a.val) (d.val) (9) (by omega) (by omega) (by omega) (by omega)
  obtain ⟨hm, f18_14, f13_5, f8_5, f2_6, f0_2⟩ := F
  exact .word hm f0_2 (decodeBits_ofBexti d a o w hm (f0_2.trans (by omega)) (f2_6.trans (by omega)) (f8_5.trans (by omega)) (f13_5.trans (by omega)) ((fld_sub (o := 0) (k := 7) f18_14 rfl (by decide)).trans (by omega)) ((fld_sub (o := 7) (k := 7) f18_14 rfl (by decide)).trans (by omega)))

theorem decodeBits_ofBextsi (d : XReg) (a : XReg) (o : BitVec 7) (w : BitVec 7) {W : Nat} (hm : W < 2 ^ 32) (h0 : fld W 0 2 = 1) (h1 : fld W 2 6 = 10) (h2 : fld W 8 5 = d.val) (h3 : fld W 13 5 = a.val) (h4 : fld W 18 7 = w.toNat) (h5 : fld W 25 7 = o.toNat) : decodeBits W = .ok (.bextsi d a o w) := by
  have hb0 := d.isLt
  have hb1 := a.isLt
  have hb2 := o.isLt
  have hb3 := w.isLt
  rw [decodeBits_word h0 hm]
  rw [decode32.eq_1, h1]
  show (.ok (.bextsi (xr W 8) (xr W 13) (bv 7 W 25) (bv 7 W 18)) : Except Reject Instr) = _
  simp only [h1, h2, h3, h4, h5, xr, lo8, lane, bv, flag, zero, Except.bind, ofNat_val, ofNat_toNat, if_true, if_false, Nat.reduceBEq, Bool.false_eq_true, true_and, and_true, and_self, or_self, not_false_eq_true, ne_eq, Nat.reduceLT, Nat.reduceLeDiff, Nat.reduceEqDiff, bit_zero, bit_one]
theorem codes_encBextsi (d : XReg) (a : XReg) (o : BitVec 7) (w : BitVec 7) : Codes (encBextsi d a o w) (.bextsi d a o w) := by
  have hb0 := d.isLt
  have hb1 := a.isLt
  have hb2 := o.isLt
  have hb3 := w.isLt
  show Codes (4, fI (o.toNat * 2 ^ 7 + w.toNat) a d 10) (.bextsi d a o w)
  have F := @fI_fields ((o.toNat * 2 ^ 7 + w.toNat)) (a.val) (d.val) (10) (by omega) (by omega) (by omega) (by omega)
  obtain ⟨hm, f18_14, f13_5, f8_5, f2_6, f0_2⟩ := F
  exact .word hm f0_2 (decodeBits_ofBextsi d a o w hm (f0_2.trans (by omega)) (f2_6.trans (by omega)) (f8_5.trans (by omega)) (f13_5.trans (by omega)) ((fld_sub (o := 0) (k := 7) f18_14 rfl (by decide)).trans (by omega)) ((fld_sub (o := 7) (k := 7) f18_14 rfl (by decide)).trans (by omega)))

theorem decodeBits_ofBinsi (d : XReg) (a : XReg) (o : BitVec 7) (w : BitVec 7) {W : Nat} (hm : W < 2 ^ 32) (h0 : fld W 0 2 = 1) (h1 : fld W 2 6 = 11) (h2 : fld W 8 5 = d.val) (h3 : fld W 13 5 = a.val) (h4 : fld W 18 7 = w.toNat) (h5 : fld W 25 7 = o.toNat) : decodeBits W = .ok (.binsi d a o w) := by
  have hb0 := d.isLt
  have hb1 := a.isLt
  have hb2 := o.isLt
  have hb3 := w.isLt
  rw [decodeBits_word h0 hm]
  rw [decode32.eq_1, h1]
  show (.ok (.binsi (xr W 8) (xr W 13) (bv 7 W 25) (bv 7 W 18)) : Except Reject Instr) = _
  simp only [h1, h2, h3, h4, h5, xr, lo8, lane, bv, flag, zero, Except.bind, ofNat_val, ofNat_toNat, if_true, if_false, Nat.reduceBEq, Bool.false_eq_true, true_and, and_true, and_self, or_self, not_false_eq_true, ne_eq, Nat.reduceLT, Nat.reduceLeDiff, Nat.reduceEqDiff, bit_zero, bit_one]
theorem codes_encBinsi (d : XReg) (a : XReg) (o : BitVec 7) (w : BitVec 7) : Codes (encBinsi d a o w) (.binsi d a o w) := by
  have hb0 := d.isLt
  have hb1 := a.isLt
  have hb2 := o.isLt
  have hb3 := w.isLt
  show Codes (4, fI (o.toNat * 2 ^ 7 + w.toNat) a d 11) (.binsi d a o w)
  have F := @fI_fields ((o.toNat * 2 ^ 7 + w.toNat)) (a.val) (d.val) (11) (by omega) (by omega) (by omega) (by omega)
  obtain ⟨hm, f18_14, f13_5, f8_5, f2_6, f0_2⟩ := F
  exact .word hm f0_2 (decodeBits_ofBinsi d a o w hm (f0_2.trans (by omega)) (f2_6.trans (by omega)) (f8_5.trans (by omega)) (f13_5.trans (by omega)) ((fld_sub (o := 0) (k := 7) f18_14 rfl (by decide)).trans (by omega)) ((fld_sub (o := 7) (k := 7) f18_14 rfl (by decide)).trans (by omega)))

theorem decodeBits_ofLui (d : XReg) (i : BitVec 19) {W : Nat} (hm : W < 2 ^ 32) (h0 : fld W 0 2 = 1) (h1 : fld W 2 6 = 12) (h2 : fld W 8 5 = d.val) (h3 : fld W 13 19 = i.toNat) : decodeBits W = .ok (.lui d i) := by
  have hb0 := d.isLt
  have hb1 := i.isLt
  rw [decodeBits_word h0 hm]
  rw [decode32.eq_1, h1]
  show (.ok (.lui (xr W 8) (bv 19 W 13)) : Except Reject Instr) = _
  simp only [h1, h2, h3, xr, lo8, lane, bv, flag, zero, Except.bind, ofNat_val, ofNat_toNat, if_true, if_false, Nat.reduceBEq, Bool.false_eq_true, true_and, and_true, and_self, or_self, not_false_eq_true, ne_eq, Nat.reduceLT, Nat.reduceLeDiff, Nat.reduceEqDiff, bit_zero, bit_one]
theorem codes_encLui (d : XReg) (i : BitVec 19) : Codes (encLui d i) (.lui d i) := by
  have hb0 := d.isLt
  have hb1 := i.isLt
  show Codes (4, fU i.toNat d 0x0C) (.lui d i)
  have F := @fU_fields (i.toNat) (d.val) (0x0C) (by omega) (by omega) (by omega)
  obtain ⟨hm, f13_19, f8_5, f2_6, f0_2⟩ := F
  exact .word hm f0_2 (decodeBits_ofLui d i hm (f0_2.trans (by omega)) (f2_6.trans (by omega)) (f8_5.trans (by omega)) (f13_19.trans (by omega)))

theorem decodeBits_ofAddpc (d : XReg) (i : BitVec 19) {W : Nat} (hm : W < 2 ^ 32) (h0 : fld W 0 2 = 1) (h1 : fld W 2 6 = 13) (h2 : fld W 8 5 = d.val) (h3 : fld W 13 19 = i.toNat) : decodeBits W = .ok (.addpc d i) := by
  have hb0 := d.isLt
  have hb1 := i.isLt
  rw [decodeBits_word h0 hm]
  rw [decode32.eq_1, h1]
  show (.ok (.addpc (xr W 8) (bv 19 W 13)) : Except Reject Instr) = _
  simp only [h1, h2, h3, xr, lo8, lane, bv, flag, zero, Except.bind, ofNat_val, ofNat_toNat, if_true, if_false, Nat.reduceBEq, Bool.false_eq_true, true_and, and_true, and_self, or_self, not_false_eq_true, ne_eq, Nat.reduceLT, Nat.reduceLeDiff, Nat.reduceEqDiff, bit_zero, bit_one]
theorem codes_encAddpc (d : XReg) (i : BitVec 19) : Codes (encAddpc d i) (.addpc d i) := by
  have hb0 := d.isLt
  have hb1 := i.isLt
  show Codes (4, fU i.toNat d 0x0D) (.addpc d i)
  have F := @fU_fields (i.toNat) (d.val) (0x0D) (by omega) (by omega) (by omega)
  obtain ⟨hm, f13_19, f8_5, f2_6, f0_2⟩ := F
  exact .word hm f0_2 (decodeBits_ofAddpc d i hm (f0_2.trans (by omega)) (f2_6.trans (by omega)) (f8_5.trans (by omega)) (f13_19.trans (by omega)))

theorem decodeBits_ofJal (d : XReg) (o : BitVec 19) {W : Nat} (hm : W < 2 ^ 32) (h0 : fld W 0 2 = 1) (h1 : fld W 2 6 = 14) (h2 : fld W 8 5 = d.val) (h3 : fld W 13 19 = o.toNat) : decodeBits W = .ok (.jal d o) := by
  have hb0 := d.isLt
  have hb1 := o.isLt
  rw [decodeBits_word h0 hm]
  rw [decode32.eq_1, h1]
  show (.ok (.jal (xr W 8) (bv 19 W 13)) : Except Reject Instr) = _
  simp only [h1, h2, h3, xr, lo8, lane, bv, flag, zero, Except.bind, ofNat_val, ofNat_toNat, if_true, if_false, Nat.reduceBEq, Bool.false_eq_true, true_and, and_true, and_self, or_self, not_false_eq_true, ne_eq, Nat.reduceLT, Nat.reduceLeDiff, Nat.reduceEqDiff, bit_zero, bit_one]
theorem codes_encJal (d : XReg) (o : BitVec 19) : Codes (encJal d o) (.jal d o) := by
  have hb0 := d.isLt
  have hb1 := o.isLt
  show Codes (4, fU o.toNat d 0x0E) (.jal d o)
  have F := @fU_fields (o.toNat) (d.val) (0x0E) (by omega) (by omega) (by omega)
  obtain ⟨hm, f13_19, f8_5, f2_6, f0_2⟩ := F
  exact .word hm f0_2 (decodeBits_ofJal d o hm (f0_2.trans (by omega)) (f2_6.trans (by omega)) (f8_5.trans (by omega)) (f13_19.trans (by omega)))

theorem decodeBits_ofJalr (d : XReg) (a : XReg) (i : BitVec 14) {W : Nat} (hm : W < 2 ^ 32) (h0 : fld W 0 2 = 1) (h1 : fld W 2 6 = 15) (h2 : fld W 8 5 = d.val) (h3 : fld W 13 5 = a.val) (h4 : fld W 18 14 = i.toNat) : decodeBits W = .ok (.jalr d a i) := by
  have hb0 := d.isLt
  have hb1 := a.isLt
  have hb2 := i.isLt
  rw [decodeBits_word h0 hm]
  rw [decode32.eq_1, h1]
  show (.ok (.jalr (xr W 8) (xr W 13) (bv 14 W 18)) : Except Reject Instr) = _
  simp only [h1, h2, h3, h4, xr, lo8, lane, bv, flag, zero, Except.bind, ofNat_val, ofNat_toNat, if_true, if_false, Nat.reduceBEq, Bool.false_eq_true, true_and, and_true, and_self, or_self, not_false_eq_true, ne_eq, Nat.reduceLT, Nat.reduceLeDiff, Nat.reduceEqDiff, bit_zero, bit_one]
theorem codes_encJalr (d : XReg) (a : XReg) (i : BitVec 14) : Codes (encJalr d a i) (.jalr d a i) := by
  have hb0 := d.isLt
  have hb1 := a.isLt
  have hb2 := i.isLt
  show Codes (4, fI i.toNat a d 0x0F) (.jalr d a i)
  have F := @fI_fields (i.toNat) (a.val) (d.val) (0x0F) (by omega) (by omega) (by omega) (by omega)
  obtain ⟨hm, f18_14, f13_5, f8_5, f2_6, f0_2⟩ := F
  exact .word hm f0_2 (decodeBits_ofJalr d a i hm (f0_2.trans (by omega)) (f2_6.trans (by omega)) (f8_5.trans (by omega)) (f13_5.trans (by omega)) (f18_14.trans (by omega)))

theorem decodeBits_ofBeq (a : XReg) (b : XReg) (o : BitVec 11) {W : Nat} (hm : W < 2 ^ 32) (h0 : fld W 0 2 = 1) (h1 : fld W 2 6 = 16) (h2 : fld W 8 5 = a.val) (h3 : fld W 13 5 = b.val) (h4 : fld W 18 3 = 0) (h5 : fld W 21 11 = o.toNat) : decodeBits W = .ok (.beq a b o) := by
  have hb0 := a.isLt
  have hb1 := b.isLt
  have hb2 := o.isLt
  rw [decodeBits_word h0 hm]
  rw [decode32.eq_1, h1]
  show (decodeBranch W : Except Reject Instr) = _
  rw [decodeBranch.eq_1, h4]
  show (.ok (.beq (xr W 8) (xr W 13) (bv 11 W 21)) : Except Reject Instr) = _
  simp only [h1, h2, h3, h4, h5, xr, lo8, lane, bv, flag, zero, Except.bind, ofNat_val, ofNat_toNat, if_true, if_false, Nat.reduceBEq, Bool.false_eq_true, true_and, and_true, and_self, or_self, not_false_eq_true, ne_eq, Nat.reduceLT, Nat.reduceLeDiff, Nat.reduceEqDiff, bit_zero, bit_one]
theorem codes_encBeq (a : XReg) (b : XReg) (o : BitVec 11) : Codes (encBeq a b o) (.beq a b o) := by
  have hb0 := a.isLt
  have hb1 := b.isLt
  have hb2 := o.isLt
  show Codes (4, fM o.toNat 0 b a 0x10) (.beq a b o)
  have F := @fM_fields (o.toNat) (0) (b.val) (a.val) (0x10) (by omega) (by omega) (by omega) (by omega) (by omega)
  obtain ⟨hm, f21_11, f18_3, f13_5, f8_5, f2_6, f0_2⟩ := F
  exact .word hm f0_2 (decodeBits_ofBeq a b o hm (f0_2.trans (by omega)) (f2_6.trans (by omega)) (f8_5.trans (by omega)) (f13_5.trans (by omega)) (f18_3.trans (by omega)) (f21_11.trans (by omega)))

theorem decodeBits_ofBne (a : XReg) (b : XReg) (o : BitVec 11) {W : Nat} (hm : W < 2 ^ 32) (h0 : fld W 0 2 = 1) (h1 : fld W 2 6 = 16) (h2 : fld W 8 5 = a.val) (h3 : fld W 13 5 = b.val) (h4 : fld W 18 3 = 1) (h5 : fld W 21 11 = o.toNat) : decodeBits W = .ok (.bne a b o) := by
  have hb0 := a.isLt
  have hb1 := b.isLt
  have hb2 := o.isLt
  rw [decodeBits_word h0 hm]
  rw [decode32.eq_1, h1]
  show (decodeBranch W : Except Reject Instr) = _
  rw [decodeBranch.eq_1, h4]
  show (.ok (.bne (xr W 8) (xr W 13) (bv 11 W 21)) : Except Reject Instr) = _
  simp only [h1, h2, h3, h4, h5, xr, lo8, lane, bv, flag, zero, Except.bind, ofNat_val, ofNat_toNat, if_true, if_false, Nat.reduceBEq, Bool.false_eq_true, true_and, and_true, and_self, or_self, not_false_eq_true, ne_eq, Nat.reduceLT, Nat.reduceLeDiff, Nat.reduceEqDiff, bit_zero, bit_one]
theorem codes_encBne (a : XReg) (b : XReg) (o : BitVec 11) : Codes (encBne a b o) (.bne a b o) := by
  have hb0 := a.isLt
  have hb1 := b.isLt
  have hb2 := o.isLt
  show Codes (4, fM o.toNat 1 b a 0x10) (.bne a b o)
  have F := @fM_fields (o.toNat) (1) (b.val) (a.val) (0x10) (by omega) (by omega) (by omega) (by omega) (by omega)
  obtain ⟨hm, f21_11, f18_3, f13_5, f8_5, f2_6, f0_2⟩ := F
  exact .word hm f0_2 (decodeBits_ofBne a b o hm (f0_2.trans (by omega)) (f2_6.trans (by omega)) (f8_5.trans (by omega)) (f13_5.trans (by omega)) (f18_3.trans (by omega)) (f21_11.trans (by omega)))

theorem decodeBits_ofBlt (a : XReg) (b : XReg) (o : BitVec 11) {W : Nat} (hm : W < 2 ^ 32) (h0 : fld W 0 2 = 1) (h1 : fld W 2 6 = 16) (h2 : fld W 8 5 = a.val) (h3 : fld W 13 5 = b.val) (h4 : fld W 18 3 = 2) (h5 : fld W 21 11 = o.toNat) : decodeBits W = .ok (.blt a b o) := by
  have hb0 := a.isLt
  have hb1 := b.isLt
  have hb2 := o.isLt
  rw [decodeBits_word h0 hm]
  rw [decode32.eq_1, h1]
  show (decodeBranch W : Except Reject Instr) = _
  rw [decodeBranch.eq_1, h4]
  show (.ok (.blt (xr W 8) (xr W 13) (bv 11 W 21)) : Except Reject Instr) = _
  simp only [h1, h2, h3, h4, h5, xr, lo8, lane, bv, flag, zero, Except.bind, ofNat_val, ofNat_toNat, if_true, if_false, Nat.reduceBEq, Bool.false_eq_true, true_and, and_true, and_self, or_self, not_false_eq_true, ne_eq, Nat.reduceLT, Nat.reduceLeDiff, Nat.reduceEqDiff, bit_zero, bit_one]
theorem codes_encBlt (a : XReg) (b : XReg) (o : BitVec 11) : Codes (encBlt a b o) (.blt a b o) := by
  have hb0 := a.isLt
  have hb1 := b.isLt
  have hb2 := o.isLt
  show Codes (4, fM o.toNat 2 b a 0x10) (.blt a b o)
  have F := @fM_fields (o.toNat) (2) (b.val) (a.val) (0x10) (by omega) (by omega) (by omega) (by omega) (by omega)
  obtain ⟨hm, f21_11, f18_3, f13_5, f8_5, f2_6, f0_2⟩ := F
  exact .word hm f0_2 (decodeBits_ofBlt a b o hm (f0_2.trans (by omega)) (f2_6.trans (by omega)) (f8_5.trans (by omega)) (f13_5.trans (by omega)) (f18_3.trans (by omega)) (f21_11.trans (by omega)))

theorem decodeBits_ofBge (a : XReg) (b : XReg) (o : BitVec 11) {W : Nat} (hm : W < 2 ^ 32) (h0 : fld W 0 2 = 1) (h1 : fld W 2 6 = 16) (h2 : fld W 8 5 = a.val) (h3 : fld W 13 5 = b.val) (h4 : fld W 18 3 = 3) (h5 : fld W 21 11 = o.toNat) : decodeBits W = .ok (.bge a b o) := by
  have hb0 := a.isLt
  have hb1 := b.isLt
  have hb2 := o.isLt
  rw [decodeBits_word h0 hm]
  rw [decode32.eq_1, h1]
  show (decodeBranch W : Except Reject Instr) = _
  rw [decodeBranch.eq_1, h4]
  show (.ok (.bge (xr W 8) (xr W 13) (bv 11 W 21)) : Except Reject Instr) = _
  simp only [h1, h2, h3, h4, h5, xr, lo8, lane, bv, flag, zero, Except.bind, ofNat_val, ofNat_toNat, if_true, if_false, Nat.reduceBEq, Bool.false_eq_true, true_and, and_true, and_self, or_self, not_false_eq_true, ne_eq, Nat.reduceLT, Nat.reduceLeDiff, Nat.reduceEqDiff, bit_zero, bit_one]
theorem codes_encBge (a : XReg) (b : XReg) (o : BitVec 11) : Codes (encBge a b o) (.bge a b o) := by
  have hb0 := a.isLt
  have hb1 := b.isLt
  have hb2 := o.isLt
  show Codes (4, fM o.toNat 3 b a 0x10) (.bge a b o)
  have F := @fM_fields (o.toNat) (3) (b.val) (a.val) (0x10) (by omega) (by omega) (by omega) (by omega) (by omega)
  obtain ⟨hm, f21_11, f18_3, f13_5, f8_5, f2_6, f0_2⟩ := F
  exact .word hm f0_2 (decodeBits_ofBge a b o hm (f0_2.trans (by omega)) (f2_6.trans (by omega)) (f8_5.trans (by omega)) (f13_5.trans (by omega)) (f18_3.trans (by omega)) (f21_11.trans (by omega)))

theorem decodeBits_ofBltn (a : XReg) (b : XReg) (o : BitVec 11) {W : Nat} (hm : W < 2 ^ 32) (h0 : fld W 0 2 = 1) (h1 : fld W 2 6 = 16) (h2 : fld W 8 5 = a.val) (h3 : fld W 13 5 = b.val) (h4 : fld W 18 3 = 4) (h5 : fld W 21 11 = o.toNat) : decodeBits W = .ok (.bltn a b o) := by
  have hb0 := a.isLt
  have hb1 := b.isLt
  have hb2 := o.isLt
  rw [decodeBits_word h0 hm]
  rw [decode32.eq_1, h1]
  show (decodeBranch W : Except Reject Instr) = _
  rw [decodeBranch.eq_1, h4]
  show (.ok (.bltn (xr W 8) (xr W 13) (bv 11 W 21)) : Except Reject Instr) = _
  simp only [h1, h2, h3, h4, h5, xr, lo8, lane, bv, flag, zero, Except.bind, ofNat_val, ofNat_toNat, if_true, if_false, Nat.reduceBEq, Bool.false_eq_true, true_and, and_true, and_self, or_self, not_false_eq_true, ne_eq, Nat.reduceLT, Nat.reduceLeDiff, Nat.reduceEqDiff, bit_zero, bit_one]
theorem codes_encBltn (a : XReg) (b : XReg) (o : BitVec 11) : Codes (encBltn a b o) (.bltn a b o) := by
  have hb0 := a.isLt
  have hb1 := b.isLt
  have hb2 := o.isLt
  show Codes (4, fM o.toNat 4 b a 0x10) (.bltn a b o)
  have F := @fM_fields (o.toNat) (4) (b.val) (a.val) (0x10) (by omega) (by omega) (by omega) (by omega) (by omega)
  obtain ⟨hm, f21_11, f18_3, f13_5, f8_5, f2_6, f0_2⟩ := F
  exact .word hm f0_2 (decodeBits_ofBltn a b o hm (f0_2.trans (by omega)) (f2_6.trans (by omega)) (f8_5.trans (by omega)) (f13_5.trans (by omega)) (f18_3.trans (by omega)) (f21_11.trans (by omega)))

theorem decodeBits_ofBgen (a : XReg) (b : XReg) (o : BitVec 11) {W : Nat} (hm : W < 2 ^ 32) (h0 : fld W 0 2 = 1) (h1 : fld W 2 6 = 16) (h2 : fld W 8 5 = a.val) (h3 : fld W 13 5 = b.val) (h4 : fld W 18 3 = 5) (h5 : fld W 21 11 = o.toNat) : decodeBits W = .ok (.bgen a b o) := by
  have hb0 := a.isLt
  have hb1 := b.isLt
  have hb2 := o.isLt
  rw [decodeBits_word h0 hm]
  rw [decode32.eq_1, h1]
  show (decodeBranch W : Except Reject Instr) = _
  rw [decodeBranch.eq_1, h4]
  show (.ok (.bgen (xr W 8) (xr W 13) (bv 11 W 21)) : Except Reject Instr) = _
  simp only [h1, h2, h3, h4, h5, xr, lo8, lane, bv, flag, zero, Except.bind, ofNat_val, ofNat_toNat, if_true, if_false, Nat.reduceBEq, Bool.false_eq_true, true_and, and_true, and_self, or_self, not_false_eq_true, ne_eq, Nat.reduceLT, Nat.reduceLeDiff, Nat.reduceEqDiff, bit_zero, bit_one]
theorem codes_encBgen (a : XReg) (b : XReg) (o : BitVec 11) : Codes (encBgen a b o) (.bgen a b o) := by
  have hb0 := a.isLt
  have hb1 := b.isLt
  have hb2 := o.isLt
  show Codes (4, fM o.toNat 5 b a 0x10) (.bgen a b o)
  have F := @fM_fields (o.toNat) (5) (b.val) (a.val) (0x10) (by omega) (by omega) (by omega) (by omega) (by omega)
  obtain ⟨hm, f21_11, f18_3, f13_5, f8_5, f2_6, f0_2⟩ := F
  exact .word hm f0_2 (decodeBits_ofBgen a b o hm (f0_2.trans (by omega)) (f2_6.trans (by omega)) (f8_5.trans (by omega)) (f13_5.trans (by omega)) (f18_3.trans (by omega)) (f21_11.trans (by omega)))

theorem decodeBits_ofLd (z : LdSize) (d : XReg) (b : XReg) (i : BitVec 11) {W : Nat} (hm : W < 2 ^ 32) (h0 : fld W 0 2 = 1) (h1 : fld W 2 6 = 17) (h2 : fld W 8 5 = d.val) (h3 : fld W 13 5 = b.val) (h4 : fld W 18 3 = z.code) (h5 : fld W 21 11 = i.toNat) : decodeBits W = .ok (.ld z d b i) := by
  have hb0 := LdSize.code_lt z
  have hb1 := d.isLt
  have hb2 := b.isLt
  have hb3 := i.isLt
  rw [decodeBits_word h0 hm]
  simp only [h1, h2, h3, h4, h5, decode32, LdSize.ofCode_code, xr, lo8, lane, bv, flag, zero, Except.bind, ofNat_val, ofNat_toNat, if_true, if_false, Nat.reduceBEq, Bool.false_eq_true, true_and, and_true, and_self, or_self, not_false_eq_true, ne_eq, Nat.reduceLT, Nat.reduceLeDiff, Nat.reduceEqDiff, bit_zero, bit_one]
theorem codes_encLd (z : LdSize) (d : XReg) (b : XReg) (i : BitVec 11) : Codes (encLd z d b i) (.ld z d b i) := by
  have hb0 := LdSize.code_lt z
  have hb1 := d.isLt
  have hb2 := b.isLt
  have hb3 := i.isLt
  show Codes (4, fM i.toNat z.code b d 0x11) (.ld z d b i)
  have F := @fM_fields (i.toNat) (z.code) (b.val) (d.val) (0x11) (by omega) (by omega) (by omega) (by omega) (by omega)
  obtain ⟨hm, f21_11, f18_3, f13_5, f8_5, f2_6, f0_2⟩ := F
  exact .word hm f0_2 (decodeBits_ofLd z d b i hm (f0_2.trans (by omega)) (f2_6.trans (by omega)) (f8_5.trans (by omega)) (f13_5.trans (by omega)) (f18_3.trans (by omega)) (f21_11.trans (by omega)))

theorem decodeBits_ofSt (z : Sz) (s : XReg) (b : XReg) (i : BitVec 11) {W : Nat} (hm : W < 2 ^ 32) (h0 : fld W 0 2 = 1) (h1 : fld W 2 6 = 18) (h2 : fld W 8 5 = s.val) (h3 : fld W 13 5 = b.val) (h4 : fld W 18 3 = z.code) (h5 : fld W 21 11 = i.toNat) : decodeBits W = .ok (.st z s b i) := by
  have hb0 := Sz.code_lt z
  have hb1 := s.isLt
  have hb2 := b.isLt
  have hb3 := i.isLt
  rw [decodeBits_word h0 hm]
  rw [decode32.eq_1, h1]
  show (if fld W 18 3 < 4 then .ok (.st (Sz.ofCode (fld W 18 3)) (xr W 8) (xr W 13) (bv 11 W 21)) else .error .unlisted : Except Reject Instr) = _
  simp only [h1, h2, h3, h4, h5, Sz.ofCode_code, xr, lo8, lane, bv, flag, zero, Except.bind, ofNat_val, ofNat_toNat, if_true, if_false, Nat.reduceBEq, Bool.false_eq_true, true_and, and_true, and_self, or_self, not_false_eq_true, ne_eq, Nat.reduceLT, Nat.reduceLeDiff, Nat.reduceEqDiff, bit_zero, bit_one, hb0, hb1, hb2, hb3]
theorem codes_encSt (z : Sz) (s : XReg) (b : XReg) (i : BitVec 11) : Codes (encSt z s b i) (.st z s b i) := by
  have hb0 := Sz.code_lt z
  have hb1 := s.isLt
  have hb2 := b.isLt
  have hb3 := i.isLt
  show Codes (4, fM i.toNat z.code b s 0x12) (.st z s b i)
  have F := @fM_fields (i.toNat) (z.code) (b.val) (s.val) (0x12) (by omega) (by omega) (by omega) (by omega) (by omega)
  obtain ⟨hm, f21_11, f18_3, f13_5, f8_5, f2_6, f0_2⟩ := F
  exact .word hm f0_2 (decodeBits_ofSt z s b i hm (f0_2.trans (by omega)) (f2_6.trans (by omega)) (f8_5.trans (by omega)) (f13_5.trans (by omega)) (f18_3.trans (by omega)) (f21_11.trans (by omega)))

theorem decodeBits_ofFadd (f : FFmt) (d : XReg) (a : XReg) (b : XReg) {W : Nat} (hm : W < 2 ^ 32) (h0 : fld W 0 2 = 1) (h1 : fld W 2 6 = 19) (h2 : fld W 8 5 = d.val) (h3 : fld W 13 5 = a.val) (h4 : fld W 18 5 = b.val) (h5 : fld W 23 2 = 0) (h6 : fld W 25 2 = f.code) (h7 : fld W 27 5 = 0) : decodeBits W = .ok (.fadd f d a b) := by
  have hb0 := FFmt.code_lt f
  have hb1 := d.isLt
  have hb2 := a.isLt
  have hb3 := b.isLt
  rw [decodeBits_word h0 hm]
  rw [decode32.eq_1, h1]
  show (decodeFp W : Except Reject Instr) = _
  rw [decodeFp.eq_1, h7]
  show (zero W 23 2 (.fadd (FFmt.ofCode (fld W 25 2)) (xr W 8) (xr W 13) (xr W 18)) : Except Reject Instr) = _
  simp only [h1, h2, h3, h4, h5, h6, h7, FFmt.ofCode_code, xr, lo8, lane, bv, flag, zero, Except.bind, ofNat_val, ofNat_toNat, if_true, if_false, Nat.reduceBEq, Bool.false_eq_true, true_and, and_true, and_self, or_self, not_false_eq_true, ne_eq, Nat.reduceLT, Nat.reduceLeDiff, Nat.reduceEqDiff, bit_zero, bit_one]
theorem codes_encFadd (f : FFmt) (d : XReg) (a : XReg) (b : XReg) : Codes (encFadd f d a b) (.fadd f d a b) := by
  have hb0 := FFmt.code_lt f
  have hb1 := d.isLt
  have hb2 := a.isLt
  have hb3 := b.isLt
  show Codes (4, fA (0 * 2 ^ 4 + f.code * 2 ^ 2) b a d 0x13) (.fadd f d a b)
  have F := @fA_fields ((0 * 2 ^ 4 + f.code * 2 ^ 2)) (b.val) (a.val) (d.val) (0x13) (by omega) (by omega) (by omega) (by omega) (by omega)
  obtain ⟨hm, f23_9, f18_5, f13_5, f8_5, f2_6, f0_2⟩ := F
  exact .word hm f0_2 (decodeBits_ofFadd f d a b hm (f0_2.trans (by omega)) (f2_6.trans (by omega)) (f8_5.trans (by omega)) (f13_5.trans (by omega)) (f18_5.trans (by omega)) ((fld_sub (o := 0) (k := 2) f23_9 rfl (by decide)).trans (by omega)) ((fld_sub (o := 2) (k := 2) f23_9 rfl (by decide)).trans (by omega)) ((fld_sub (o := 4) (k := 5) f23_9 rfl (by decide)).trans (by omega)))

theorem decodeBits_ofFsub (f : FFmt) (d : XReg) (a : XReg) (b : XReg) {W : Nat} (hm : W < 2 ^ 32) (h0 : fld W 0 2 = 1) (h1 : fld W 2 6 = 19) (h2 : fld W 8 5 = d.val) (h3 : fld W 13 5 = a.val) (h4 : fld W 18 5 = b.val) (h5 : fld W 23 2 = 0) (h6 : fld W 25 2 = f.code) (h7 : fld W 27 5 = 1) : decodeBits W = .ok (.fsub f d a b) := by
  have hb0 := FFmt.code_lt f
  have hb1 := d.isLt
  have hb2 := a.isLt
  have hb3 := b.isLt
  rw [decodeBits_word h0 hm]
  rw [decode32.eq_1, h1]
  show (decodeFp W : Except Reject Instr) = _
  rw [decodeFp.eq_1, h7]
  show (zero W 23 2 (.fsub (FFmt.ofCode (fld W 25 2)) (xr W 8) (xr W 13) (xr W 18)) : Except Reject Instr) = _
  simp only [h1, h2, h3, h4, h5, h6, h7, FFmt.ofCode_code, xr, lo8, lane, bv, flag, zero, Except.bind, ofNat_val, ofNat_toNat, if_true, if_false, Nat.reduceBEq, Bool.false_eq_true, true_and, and_true, and_self, or_self, not_false_eq_true, ne_eq, Nat.reduceLT, Nat.reduceLeDiff, Nat.reduceEqDiff, bit_zero, bit_one]
theorem codes_encFsub (f : FFmt) (d : XReg) (a : XReg) (b : XReg) : Codes (encFsub f d a b) (.fsub f d a b) := by
  have hb0 := FFmt.code_lt f
  have hb1 := d.isLt
  have hb2 := a.isLt
  have hb3 := b.isLt
  show Codes (4, fA (1 * 2 ^ 4 + f.code * 2 ^ 2) b a d 0x13) (.fsub f d a b)
  have F := @fA_fields ((1 * 2 ^ 4 + f.code * 2 ^ 2)) (b.val) (a.val) (d.val) (0x13) (by omega) (by omega) (by omega) (by omega) (by omega)
  obtain ⟨hm, f23_9, f18_5, f13_5, f8_5, f2_6, f0_2⟩ := F
  exact .word hm f0_2 (decodeBits_ofFsub f d a b hm (f0_2.trans (by omega)) (f2_6.trans (by omega)) (f8_5.trans (by omega)) (f13_5.trans (by omega)) (f18_5.trans (by omega)) ((fld_sub (o := 0) (k := 2) f23_9 rfl (by decide)).trans (by omega)) ((fld_sub (o := 2) (k := 2) f23_9 rfl (by decide)).trans (by omega)) ((fld_sub (o := 4) (k := 5) f23_9 rfl (by decide)).trans (by omega)))

theorem decodeBits_ofFmul (f : FFmt) (d : XReg) (a : XReg) (b : XReg) {W : Nat} (hm : W < 2 ^ 32) (h0 : fld W 0 2 = 1) (h1 : fld W 2 6 = 19) (h2 : fld W 8 5 = d.val) (h3 : fld W 13 5 = a.val) (h4 : fld W 18 5 = b.val) (h5 : fld W 23 2 = 0) (h6 : fld W 25 2 = f.code) (h7 : fld W 27 5 = 2) : decodeBits W = .ok (.fmul f d a b) := by
  have hb0 := FFmt.code_lt f
  have hb1 := d.isLt
  have hb2 := a.isLt
  have hb3 := b.isLt
  rw [decodeBits_word h0 hm]
  rw [decode32.eq_1, h1]
  show (decodeFp W : Except Reject Instr) = _
  rw [decodeFp.eq_1, h7]
  show (zero W 23 2 (.fmul (FFmt.ofCode (fld W 25 2)) (xr W 8) (xr W 13) (xr W 18)) : Except Reject Instr) = _
  simp only [h1, h2, h3, h4, h5, h6, h7, FFmt.ofCode_code, xr, lo8, lane, bv, flag, zero, Except.bind, ofNat_val, ofNat_toNat, if_true, if_false, Nat.reduceBEq, Bool.false_eq_true, true_and, and_true, and_self, or_self, not_false_eq_true, ne_eq, Nat.reduceLT, Nat.reduceLeDiff, Nat.reduceEqDiff, bit_zero, bit_one]
theorem codes_encFmul (f : FFmt) (d : XReg) (a : XReg) (b : XReg) : Codes (encFmul f d a b) (.fmul f d a b) := by
  have hb0 := FFmt.code_lt f
  have hb1 := d.isLt
  have hb2 := a.isLt
  have hb3 := b.isLt
  show Codes (4, fA (2 * 2 ^ 4 + f.code * 2 ^ 2) b a d 0x13) (.fmul f d a b)
  have F := @fA_fields ((2 * 2 ^ 4 + f.code * 2 ^ 2)) (b.val) (a.val) (d.val) (0x13) (by omega) (by omega) (by omega) (by omega) (by omega)
  obtain ⟨hm, f23_9, f18_5, f13_5, f8_5, f2_6, f0_2⟩ := F
  exact .word hm f0_2 (decodeBits_ofFmul f d a b hm (f0_2.trans (by omega)) (f2_6.trans (by omega)) (f8_5.trans (by omega)) (f13_5.trans (by omega)) (f18_5.trans (by omega)) ((fld_sub (o := 0) (k := 2) f23_9 rfl (by decide)).trans (by omega)) ((fld_sub (o := 2) (k := 2) f23_9 rfl (by decide)).trans (by omega)) ((fld_sub (o := 4) (k := 5) f23_9 rfl (by decide)).trans (by omega)))

theorem decodeBits_ofFma (f : FFmt) (d : XReg) (a : XReg) (b : XReg) {W : Nat} (hm : W < 2 ^ 32) (h0 : fld W 0 2 = 1) (h1 : fld W 2 6 = 19) (h2 : fld W 8 5 = d.val) (h3 : fld W 13 5 = a.val) (h4 : fld W 18 5 = b.val) (h5 : fld W 23 2 = 0) (h6 : fld W 25 2 = f.code) (h7 : fld W 27 5 = 3) : decodeBits W = .ok (.fma f d a b) := by
  have hb0 := FFmt.code_lt f
  have hb1 := d.isLt
  have hb2 := a.isLt
  have hb3 := b.isLt
  rw [decodeBits_word h0 hm]
  rw [decode32.eq_1, h1]
  show (decodeFp W : Except Reject Instr) = _
  rw [decodeFp.eq_1, h7]
  show (zero W 23 2 (.fma (FFmt.ofCode (fld W 25 2)) (xr W 8) (xr W 13) (xr W 18)) : Except Reject Instr) = _
  simp only [h1, h2, h3, h4, h5, h6, h7, FFmt.ofCode_code, xr, lo8, lane, bv, flag, zero, Except.bind, ofNat_val, ofNat_toNat, if_true, if_false, Nat.reduceBEq, Bool.false_eq_true, true_and, and_true, and_self, or_self, not_false_eq_true, ne_eq, Nat.reduceLT, Nat.reduceLeDiff, Nat.reduceEqDiff, bit_zero, bit_one]
theorem codes_encFma (f : FFmt) (d : XReg) (a : XReg) (b : XReg) : Codes (encFma f d a b) (.fma f d a b) := by
  have hb0 := FFmt.code_lt f
  have hb1 := d.isLt
  have hb2 := a.isLt
  have hb3 := b.isLt
  show Codes (4, fA (3 * 2 ^ 4 + f.code * 2 ^ 2) b a d 0x13) (.fma f d a b)
  have F := @fA_fields ((3 * 2 ^ 4 + f.code * 2 ^ 2)) (b.val) (a.val) (d.val) (0x13) (by omega) (by omega) (by omega) (by omega) (by omega)
  obtain ⟨hm, f23_9, f18_5, f13_5, f8_5, f2_6, f0_2⟩ := F
  exact .word hm f0_2 (decodeBits_ofFma f d a b hm (f0_2.trans (by omega)) (f2_6.trans (by omega)) (f8_5.trans (by omega)) (f13_5.trans (by omega)) (f18_5.trans (by omega)) ((fld_sub (o := 0) (k := 2) f23_9 rfl (by decide)).trans (by omega)) ((fld_sub (o := 2) (k := 2) f23_9 rfl (by decide)).trans (by omega)) ((fld_sub (o := 4) (k := 5) f23_9 rfl (by decide)).trans (by omega)))

theorem decodeBits_ofFnma (f : FFmt) (d : XReg) (a : XReg) (b : XReg) {W : Nat} (hm : W < 2 ^ 32) (h0 : fld W 0 2 = 1) (h1 : fld W 2 6 = 19) (h2 : fld W 8 5 = d.val) (h3 : fld W 13 5 = a.val) (h4 : fld W 18 5 = b.val) (h5 : fld W 23 2 = 0) (h6 : fld W 25 2 = f.code) (h7 : fld W 27 5 = 4) : decodeBits W = .ok (.fnma f d a b) := by
  have hb0 := FFmt.code_lt f
  have hb1 := d.isLt
  have hb2 := a.isLt
  have hb3 := b.isLt
  rw [decodeBits_word h0 hm]
  rw [decode32.eq_1, h1]
  show (decodeFp W : Except Reject Instr) = _
  rw [decodeFp.eq_1, h7]
  show (zero W 23 2 (.fnma (FFmt.ofCode (fld W 25 2)) (xr W 8) (xr W 13) (xr W 18)) : Except Reject Instr) = _
  simp only [h1, h2, h3, h4, h5, h6, h7, FFmt.ofCode_code, xr, lo8, lane, bv, flag, zero, Except.bind, ofNat_val, ofNat_toNat, if_true, if_false, Nat.reduceBEq, Bool.false_eq_true, true_and, and_true, and_self, or_self, not_false_eq_true, ne_eq, Nat.reduceLT, Nat.reduceLeDiff, Nat.reduceEqDiff, bit_zero, bit_one]
theorem codes_encFnma (f : FFmt) (d : XReg) (a : XReg) (b : XReg) : Codes (encFnma f d a b) (.fnma f d a b) := by
  have hb0 := FFmt.code_lt f
  have hb1 := d.isLt
  have hb2 := a.isLt
  have hb3 := b.isLt
  show Codes (4, fA (4 * 2 ^ 4 + f.code * 2 ^ 2) b a d 0x13) (.fnma f d a b)
  have F := @fA_fields ((4 * 2 ^ 4 + f.code * 2 ^ 2)) (b.val) (a.val) (d.val) (0x13) (by omega) (by omega) (by omega) (by omega) (by omega)
  obtain ⟨hm, f23_9, f18_5, f13_5, f8_5, f2_6, f0_2⟩ := F
  exact .word hm f0_2 (decodeBits_ofFnma f d a b hm (f0_2.trans (by omega)) (f2_6.trans (by omega)) (f8_5.trans (by omega)) (f13_5.trans (by omega)) (f18_5.trans (by omega)) ((fld_sub (o := 0) (k := 2) f23_9 rfl (by decide)).trans (by omega)) ((fld_sub (o := 2) (k := 2) f23_9 rfl (by decide)).trans (by omega)) ((fld_sub (o := 4) (k := 5) f23_9 rfl (by decide)).trans (by omega)))

theorem decodeBits_ofFdiv (f : FFmt) (d : XReg) (a : XReg) (b : XReg) {W : Nat} (hm : W < 2 ^ 32) (h0 : fld W 0 2 = 1) (h1 : fld W 2 6 = 19) (h2 : fld W 8 5 = d.val) (h3 : fld W 13 5 = a.val) (h4 : fld W 18 5 = b.val) (h5 : fld W 23 2 = 0) (h6 : fld W 25 2 = f.code) (h7 : fld W 27 5 = 5) : decodeBits W = .ok (.fdiv f d a b) := by
  have hb0 := FFmt.code_lt f
  have hb1 := d.isLt
  have hb2 := a.isLt
  have hb3 := b.isLt
  rw [decodeBits_word h0 hm]
  rw [decode32.eq_1, h1]
  show (decodeFp W : Except Reject Instr) = _
  rw [decodeFp.eq_1, h7]
  show (zero W 23 2 (.fdiv (FFmt.ofCode (fld W 25 2)) (xr W 8) (xr W 13) (xr W 18)) : Except Reject Instr) = _
  simp only [h1, h2, h3, h4, h5, h6, h7, FFmt.ofCode_code, xr, lo8, lane, bv, flag, zero, Except.bind, ofNat_val, ofNat_toNat, if_true, if_false, Nat.reduceBEq, Bool.false_eq_true, true_and, and_true, and_self, or_self, not_false_eq_true, ne_eq, Nat.reduceLT, Nat.reduceLeDiff, Nat.reduceEqDiff, bit_zero, bit_one]
theorem codes_encFdiv (f : FFmt) (d : XReg) (a : XReg) (b : XReg) : Codes (encFdiv f d a b) (.fdiv f d a b) := by
  have hb0 := FFmt.code_lt f
  have hb1 := d.isLt
  have hb2 := a.isLt
  have hb3 := b.isLt
  show Codes (4, fA (5 * 2 ^ 4 + f.code * 2 ^ 2) b a d 0x13) (.fdiv f d a b)
  have F := @fA_fields ((5 * 2 ^ 4 + f.code * 2 ^ 2)) (b.val) (a.val) (d.val) (0x13) (by omega) (by omega) (by omega) (by omega) (by omega)
  obtain ⟨hm, f23_9, f18_5, f13_5, f8_5, f2_6, f0_2⟩ := F
  exact .word hm f0_2 (decodeBits_ofFdiv f d a b hm (f0_2.trans (by omega)) (f2_6.trans (by omega)) (f8_5.trans (by omega)) (f13_5.trans (by omega)) (f18_5.trans (by omega)) ((fld_sub (o := 0) (k := 2) f23_9 rfl (by decide)).trans (by omega)) ((fld_sub (o := 2) (k := 2) f23_9 rfl (by decide)).trans (by omega)) ((fld_sub (o := 4) (k := 5) f23_9 rfl (by decide)).trans (by omega)))

theorem decodeBits_ofFsqrt (f : FFmt) (d : XReg) (a : XReg) {W : Nat} (hm : W < 2 ^ 32) (h0 : fld W 0 2 = 1) (h1 : fld W 2 6 = 19) (h2 : fld W 8 5 = d.val) (h3 : fld W 13 5 = a.val) (h4 : fld W 18 7 = 0) (h5 : fld W 25 2 = f.code) (h6 : fld W 27 5 = 6) : decodeBits W = .ok (.fsqrt f d a) := by
  have hb0 := FFmt.code_lt f
  have hb1 := d.isLt
  have hb2 := a.isLt
  rw [decodeBits_word h0 hm]
  rw [decode32.eq_1, h1]
  show (decodeFp W : Except Reject Instr) = _
  rw [decodeFp.eq_1, h6]
  show (zero W 18 7 (.fsqrt (FFmt.ofCode (fld W 25 2)) (xr W 8) (xr W 13)) : Except Reject Instr) = _
  simp only [h1, h2, h3, h4, h5, h6, FFmt.ofCode_code, xr, lo8, lane, bv, flag, zero, Except.bind, ofNat_val, ofNat_toNat, if_true, if_false, Nat.reduceBEq, Bool.false_eq_true, true_and, and_true, and_self, or_self, not_false_eq_true, ne_eq, Nat.reduceLT, Nat.reduceLeDiff, Nat.reduceEqDiff, bit_zero, bit_one]
theorem codes_encFsqrt (f : FFmt) (d : XReg) (a : XReg) : Codes (encFsqrt f d a) (.fsqrt f d a) := by
  have hb0 := FFmt.code_lt f
  have hb1 := d.isLt
  have hb2 := a.isLt
  show Codes (4, fA (6 * 2 ^ 4 + f.code * 2 ^ 2) 0 a d 0x13) (.fsqrt f d a)
  have F := @fA_fields ((6 * 2 ^ 4 + f.code * 2 ^ 2)) (0) (a.val) (d.val) (0x13) (by omega) (by omega) (by omega) (by omega) (by omega)
  obtain ⟨hm, f23_9, f18_5, f13_5, f8_5, f2_6, f0_2⟩ := F
  exact .word hm f0_2 (decodeBits_ofFsqrt f d a hm (f0_2.trans (by omega)) (f2_6.trans (by omega)) (f8_5.trans (by omega)) (f13_5.trans (by omega)) ((fld_app f18_5 (fld_sub (o := 0) (k := 2) f23_9 rfl (by decide)) rfl rfl).trans (by omega)) ((fld_sub (o := 2) (k := 2) f23_9 rfl (by decide)).trans (by omega)) ((fld_sub (o := 4) (k := 5) f23_9 rfl (by decide)).trans (by omega)))

theorem decodeBits_ofFmin (f : FFmt) (d : XReg) (a : XReg) (b : XReg) {W : Nat} (hm : W < 2 ^ 32) (h0 : fld W 0 2 = 1) (h1 : fld W 2 6 = 19) (h2 : fld W 8 5 = d.val) (h3 : fld W 13 5 = a.val) (h4 : fld W 18 5 = b.val) (h5 : fld W 23 2 = 0) (h6 : fld W 25 2 = f.code) (h7 : fld W 27 5 = 7) : decodeBits W = .ok (.fmin f d a b) := by
  have hb0 := FFmt.code_lt f
  have hb1 := d.isLt
  have hb2 := a.isLt
  have hb3 := b.isLt
  rw [decodeBits_word h0 hm]
  rw [decode32.eq_1, h1]
  show (decodeFp W : Except Reject Instr) = _
  rw [decodeFp.eq_1, h7]
  show (zero W 23 2 (.fmin (FFmt.ofCode (fld W 25 2)) (xr W 8) (xr W 13) (xr W 18)) : Except Reject Instr) = _
  simp only [h1, h2, h3, h4, h5, h6, h7, FFmt.ofCode_code, xr, lo8, lane, bv, flag, zero, Except.bind, ofNat_val, ofNat_toNat, if_true, if_false, Nat.reduceBEq, Bool.false_eq_true, true_and, and_true, and_self, or_self, not_false_eq_true, ne_eq, Nat.reduceLT, Nat.reduceLeDiff, Nat.reduceEqDiff, bit_zero, bit_one]
theorem codes_encFmin (f : FFmt) (d : XReg) (a : XReg) (b : XReg) : Codes (encFmin f d a b) (.fmin f d a b) := by
  have hb0 := FFmt.code_lt f
  have hb1 := d.isLt
  have hb2 := a.isLt
  have hb3 := b.isLt
  show Codes (4, fA (7 * 2 ^ 4 + f.code * 2 ^ 2) b a d 0x13) (.fmin f d a b)
  have F := @fA_fields ((7 * 2 ^ 4 + f.code * 2 ^ 2)) (b.val) (a.val) (d.val) (0x13) (by omega) (by omega) (by omega) (by omega) (by omega)
  obtain ⟨hm, f23_9, f18_5, f13_5, f8_5, f2_6, f0_2⟩ := F
  exact .word hm f0_2 (decodeBits_ofFmin f d a b hm (f0_2.trans (by omega)) (f2_6.trans (by omega)) (f8_5.trans (by omega)) (f13_5.trans (by omega)) (f18_5.trans (by omega)) ((fld_sub (o := 0) (k := 2) f23_9 rfl (by decide)).trans (by omega)) ((fld_sub (o := 2) (k := 2) f23_9 rfl (by decide)).trans (by omega)) ((fld_sub (o := 4) (k := 5) f23_9 rfl (by decide)).trans (by omega)))

theorem decodeBits_ofFmax (f : FFmt) (d : XReg) (a : XReg) (b : XReg) {W : Nat} (hm : W < 2 ^ 32) (h0 : fld W 0 2 = 1) (h1 : fld W 2 6 = 19) (h2 : fld W 8 5 = d.val) (h3 : fld W 13 5 = a.val) (h4 : fld W 18 5 = b.val) (h5 : fld W 23 2 = 0) (h6 : fld W 25 2 = f.code) (h7 : fld W 27 5 = 8) : decodeBits W = .ok (.fmax f d a b) := by
  have hb0 := FFmt.code_lt f
  have hb1 := d.isLt
  have hb2 := a.isLt
  have hb3 := b.isLt
  rw [decodeBits_word h0 hm]
  rw [decode32.eq_1, h1]
  show (decodeFp W : Except Reject Instr) = _
  rw [decodeFp.eq_1, h7]
  show (zero W 23 2 (.fmax (FFmt.ofCode (fld W 25 2)) (xr W 8) (xr W 13) (xr W 18)) : Except Reject Instr) = _
  simp only [h1, h2, h3, h4, h5, h6, h7, FFmt.ofCode_code, xr, lo8, lane, bv, flag, zero, Except.bind, ofNat_val, ofNat_toNat, if_true, if_false, Nat.reduceBEq, Bool.false_eq_true, true_and, and_true, and_self, or_self, not_false_eq_true, ne_eq, Nat.reduceLT, Nat.reduceLeDiff, Nat.reduceEqDiff, bit_zero, bit_one]
theorem codes_encFmax (f : FFmt) (d : XReg) (a : XReg) (b : XReg) : Codes (encFmax f d a b) (.fmax f d a b) := by
  have hb0 := FFmt.code_lt f
  have hb1 := d.isLt
  have hb2 := a.isLt
  have hb3 := b.isLt
  show Codes (4, fA (8 * 2 ^ 4 + f.code * 2 ^ 2) b a d 0x13) (.fmax f d a b)
  have F := @fA_fields ((8 * 2 ^ 4 + f.code * 2 ^ 2)) (b.val) (a.val) (d.val) (0x13) (by omega) (by omega) (by omega) (by omega) (by omega)
  obtain ⟨hm, f23_9, f18_5, f13_5, f8_5, f2_6, f0_2⟩ := F
  exact .word hm f0_2 (decodeBits_ofFmax f d a b hm (f0_2.trans (by omega)) (f2_6.trans (by omega)) (f8_5.trans (by omega)) (f13_5.trans (by omega)) (f18_5.trans (by omega)) ((fld_sub (o := 0) (k := 2) f23_9 rfl (by decide)).trans (by omega)) ((fld_sub (o := 2) (k := 2) f23_9 rfl (by decide)).trans (by omega)) ((fld_sub (o := 4) (k := 5) f23_9 rfl (by decide)).trans (by omega)))

theorem decodeBits_ofFcmp (f : FFmt) (q : FCond) (d : XReg) (a : XReg) (b : XReg) {W : Nat} (hm : W < 2 ^ 32) (h0 : fld W 0 2 = 1) (h1 : fld W 2 6 = 19) (h2 : fld W 8 5 = d.val) (h3 : fld W 13 5 = a.val) (h4 : fld W 18 5 = b.val) (h5 : fld W 23 2 = q.code) (h6 : fld W 25 2 = f.code) (h7 : fld W 27 5 = 9) : decodeBits W = .ok (.fcmp f q d a b) := by
  have hb0 := FFmt.code_lt f
  have hb1 := FCond.code_lt q
  have hb2 := d.isLt
  have hb3 := a.isLt
  have hb4 := b.isLt
  rw [decodeBits_word h0 hm]
  rw [decode32.eq_1, h1]
  show (decodeFp W : Except Reject Instr) = _
  rw [decodeFp.eq_1, h7]
  show (.ok (.fcmp (FFmt.ofCode (fld W 25 2)) (FCond.ofCode (fld W 23 2)) (xr W 8) (xr W 13) (xr W 18)) : Except Reject Instr) = _
  simp only [h1, h2, h3, h4, h5, h6, h7, FCond.ofCode_code, FFmt.ofCode_code, xr, lo8, lane, bv, flag, zero, Except.bind, ofNat_val, ofNat_toNat, if_true, if_false, Nat.reduceBEq, Bool.false_eq_true, true_and, and_true, and_self, or_self, not_false_eq_true, ne_eq, Nat.reduceLT, Nat.reduceLeDiff, Nat.reduceEqDiff, bit_zero, bit_one]
theorem codes_encFcmp (f : FFmt) (q : FCond) (d : XReg) (a : XReg) (b : XReg) : Codes (encFcmp f q d a b) (.fcmp f q d a b) := by
  have hb0 := FFmt.code_lt f
  have hb1 := FCond.code_lt q
  have hb2 := d.isLt
  have hb3 := a.isLt
  have hb4 := b.isLt
  show Codes (4, fA (9 * 2 ^ 4 + f.code * 2 ^ 2 + q.code) b a d 0x13) (.fcmp f q d a b)
  have F := @fA_fields ((9 * 2 ^ 4 + f.code * 2 ^ 2 + q.code)) (b.val) (a.val) (d.val) (0x13) (by omega) (by omega) (by omega) (by omega) (by omega)
  obtain ⟨hm, f23_9, f18_5, f13_5, f8_5, f2_6, f0_2⟩ := F
  exact .word hm f0_2 (decodeBits_ofFcmp f q d a b hm (f0_2.trans (by omega)) (f2_6.trans (by omega)) (f8_5.trans (by omega)) (f13_5.trans (by omega)) (f18_5.trans (by omega)) ((fld_sub (o := 0) (k := 2) f23_9 rfl (by decide)).trans (by omega)) ((fld_sub (o := 2) (k := 2) f23_9 rfl (by decide)).trans (by omega)) ((fld_sub (o := 4) (k := 5) f23_9 rfl (by decide)).trans (by omega)))

theorem decodeBits_ofFclass (f : FFmt) (d : XReg) (a : XReg) {W : Nat} (hm : W < 2 ^ 32) (h0 : fld W 0 2 = 1) (h1 : fld W 2 6 = 19) (h2 : fld W 8 5 = d.val) (h3 : fld W 13 5 = a.val) (h4 : fld W 18 7 = 0) (h5 : fld W 25 2 = f.code) (h6 : fld W 27 5 = 10) : decodeBits W = .ok (.fclass f d a) := by
  have hb0 := FFmt.code_lt f
  have hb1 := d.isLt
  have hb2 := a.isLt
  rw [decodeBits_word h0 hm]
  rw [decode32.eq_1, h1]
  show (decodeFp W : Except Reject Instr) = _
  rw [decodeFp.eq_1, h6]
  show (zero W 18 7 (.fclass (FFmt.ofCode (fld W 25 2)) (xr W 8) (xr W 13)) : Except Reject Instr) = _
  simp only [h1, h2, h3, h4, h5, h6, FFmt.ofCode_code, xr, lo8, lane, bv, flag, zero, Except.bind, ofNat_val, ofNat_toNat, if_true, if_false, Nat.reduceBEq, Bool.false_eq_true, true_and, and_true, and_self, or_self, not_false_eq_true, ne_eq, Nat.reduceLT, Nat.reduceLeDiff, Nat.reduceEqDiff, bit_zero, bit_one]
theorem codes_encFclass (f : FFmt) (d : XReg) (a : XReg) : Codes (encFclass f d a) (.fclass f d a) := by
  have hb0 := FFmt.code_lt f
  have hb1 := d.isLt
  have hb2 := a.isLt
  show Codes (4, fA (10 * 2 ^ 4 + f.code * 2 ^ 2) 0 a d 0x13) (.fclass f d a)
  have F := @fA_fields ((10 * 2 ^ 4 + f.code * 2 ^ 2)) (0) (a.val) (d.val) (0x13) (by omega) (by omega) (by omega) (by omega) (by omega)
  obtain ⟨hm, f23_9, f18_5, f13_5, f8_5, f2_6, f0_2⟩ := F
  exact .word hm f0_2 (decodeBits_ofFclass f d a hm (f0_2.trans (by omega)) (f2_6.trans (by omega)) (f8_5.trans (by omega)) (f13_5.trans (by omega)) ((fld_app f18_5 (fld_sub (o := 0) (k := 2) f23_9 rfl (by decide)) rfl rfl).trans (by omega)) ((fld_sub (o := 2) (k := 2) f23_9 rfl (by decide)).trans (by omega)) ((fld_sub (o := 4) (k := 5) f23_9 rfl (by decide)).trans (by omega)))

theorem decodeBits_ofFcvt (t : CvtTy) (s : CvtTy) (d : XReg) (a : XReg) {W : Nat} (h : Instr.wf (.fcvt t s d a) = true) (hm : W < 2 ^ 32) (h0 : fld W 0 2 = 1) (h1 : fld W 2 6 = 19) (h2 : fld W 8 5 = d.val) (h3 : fld W 13 5 = a.val) (h4 : fld W 18 5 = s.code) (h5 : fld W 23 4 = t.code) (h6 : fld W 27 5 = 11) : decodeBits W = .ok (.fcvt t s d a) := by
  have hb0 := CvtTy.code_lt t
  have hb1 := CvtTy.code_lt s
  have hb2 := d.isLt
  have hb3 := a.isLt
  rw [decodeBits_word h0 hm]
  have e : decode32 W = decodeFcvt W := by simp only [decode32, decodeFp, h1, h6]
  rw [e]
  rw [decodeFcvt_some (t := t) (s := s) (by rw [h5, CvtTy.ofCode_code]) (by rw [h4, CvtTy.ofCode_code])]
  have hn : ¬ (t = s ∨ (t.isInt = true ∧ s.isInt = true)) := by
    intro hc
    rcases hc with hc | hc <;> simp [Instr.wf, Instr.check, hc] at h
  simp only [h2, h3, hn, if_false, xr, ofNat_val]
theorem codes_encFcvt (t : CvtTy) (s : CvtTy) (d : XReg) (a : XReg) (h : Instr.wf (.fcvt t s d a) = true) : Codes (encFcvt t s d a) (.fcvt t s d a) := by
  have hb0 := CvtTy.code_lt t
  have hb1 := CvtTy.code_lt s
  have hb2 := d.isLt
  have hb3 := a.isLt
  show Codes (4, fA (11 * 2 ^ 4 + t.code) s.code a d 0x13) (.fcvt t s d a)
  have F := @fA_fields ((11 * 2 ^ 4 + t.code)) (s.code) (a.val) (d.val) (0x13) (by omega) (by omega) (by omega) (by omega) (by omega)
  obtain ⟨hm, f23_9, f18_5, f13_5, f8_5, f2_6, f0_2⟩ := F
  exact .word hm f0_2 (decodeBits_ofFcvt t s d a h hm (f0_2.trans (by omega)) (f2_6.trans (by omega)) (f8_5.trans (by omega)) (f13_5.trans (by omega)) (f18_5.trans (by omega)) ((fld_sub (o := 0) (k := 4) f23_9 rfl (by decide)).trans (by omega)) ((fld_sub (o := 4) (k := 5) f23_9 rfl (by decide)).trans (by omega)))

theorem decodeBits_ofAmo (p : AmoOp) (dbl : Bool) (o : Ord) (d : XReg) (a : XReg) (b : XReg) {W : Nat} (hm : W < 2 ^ 32) (h0 : fld W 0 2 = 1) (h1 : fld W 2 6 = 20) (h2 : fld W 8 5 = d.val) (h3 : fld W 13 5 = a.val) (h4 : fld W 18 5 = b.val) (h5 : fld W 23 3 = o.code) (h6 : fld W 26 1 = (bit dbl)) (h7 : fld W 27 4 = p.code) (h9 : fld W 31 1 = 0) : decodeBits W = .ok (.amo p dbl o d a b) := by
  have hb0 := AmoOp.code_lt p
  have hb1 := bit_lt dbl
  have hb2 := Ord.code_lt o
  have hb3 := d.isLt
  have hb4 := a.isLt
  have hb5 := b.isLt
  rw [decodeBits_word h0 hm]
  have e : decode32 W = decodeAmo W := by simp only [decode32, decodeAtomic, h1, h9]
  rw [e]
  rw [decodeAmo_some (p := p) (o := o) (by rw [h7, AmoOp.ofCode_code]) (by rw [h5, Ord.ofCode_code])]
  simp only [h2, h3, h4, h6, bit_beq, flag, xr, ofNat_val]
theorem codes_encAmo (p : AmoOp) (dbl : Bool) (o : Ord) (d : XReg) (a : XReg) (b : XReg) : Codes (encAmo p dbl o d a b) (.amo p dbl o d a b) := by
  have hb0 := AmoOp.code_lt p
  have hb1 := bit_lt dbl
  have hb2 := Ord.code_lt o
  have hb3 := d.isLt
  have hb4 := a.isLt
  have hb5 := b.isLt
  show Codes (4, fA (p.code * 2 ^ 4 + bit dbl * 2 ^ 3 + o.code) b a d 0x14) (.amo p dbl o d a b)
  have F := @fA_fields ((p.code * 2 ^ 4 + bit dbl * 2 ^ 3 + o.code)) (b.val) (a.val) (d.val) (0x14) (by omega) (by omega) (by omega) (by omega) (by omega)
  obtain ⟨hm, f23_9, f18_5, f13_5, f8_5, f2_6, f0_2⟩ := F
  exact .word hm f0_2 (decodeBits_ofAmo p dbl o d a b hm (f0_2.trans (by omega)) (f2_6.trans (by omega)) (f8_5.trans (by omega)) (f13_5.trans (by omega)) (f18_5.trans (by omega)) ((fld_sub (o := 0) (k := 3) f23_9 rfl (by decide)).trans (by omega)) ((fld_sub (o := 3) (k := 1) f23_9 rfl (by decide)).trans (by omega)) ((fld_sub (o := 4) (k := 4) f23_9 rfl (by decide)).trans (by omega)) ((fld_sub (o := 8) (k := 1) f23_9 rfl (by decide)).trans (by omega)))

theorem decodeBits_ofCas (dbl : Bool) (o : Ord) (d : XReg) (a : XReg) (b : XReg) {W : Nat} (hm : W < 2 ^ 32) (h0 : fld W 0 2 = 1) (h1 : fld W 2 6 = 20) (h2 : fld W 8 5 = d.val) (h3 : fld W 13 5 = a.val) (h4 : fld W 18 5 = b.val) (h5 : fld W 23 3 = o.code) (h6 : fld W 26 2 = 0) (h7 : fld W 28 1 = (bit dbl)) (h8 : fld W 29 2 = 0) (h9 : fld W 31 1 = 1) : decodeBits W = .ok (.cas dbl o d a b) := by
  have hb0 := bit_lt dbl
  have hb1 := Ord.code_lt o
  have hb2 := d.isLt
  have hb3 := a.isLt
  have hb4 := b.isLt
  rw [decodeBits_word h0 hm]
  simp only [h1, h2, h3, h4, h5, h6, h7, h8, h9, decode32, decodeAtomic, Ord.ofCode_code, bit_beq, xr, lo8, lane, bv, flag, zero, Except.bind, ofNat_val, ofNat_toNat, if_true, if_false, Nat.reduceBEq, Bool.false_eq_true, true_and, and_true, and_self, or_self, not_false_eq_true, ne_eq, Nat.reduceLT, Nat.reduceLeDiff, Nat.reduceEqDiff, bit_zero, bit_one]
theorem codes_encCas (dbl : Bool) (o : Ord) (d : XReg) (a : XReg) (b : XReg) : Codes (encCas dbl o d a b) (.cas dbl o d a b) := by
  have hb0 := bit_lt dbl
  have hb1 := Ord.code_lt o
  have hb2 := d.isLt
  have hb3 := a.isLt
  have hb4 := b.isLt
  show Codes (4, fA (2 ^ 8 + bit dbl * 2 ^ 5 + o.code) b a d 0x14) (.cas dbl o d a b)
  have F := @fA_fields ((2 ^ 8 + bit dbl * 2 ^ 5 + o.code)) (b.val) (a.val) (d.val) (0x14) (by omega) (by omega) (by omega) (by omega) (by omega)
  obtain ⟨hm, f23_9, f18_5, f13_5, f8_5, f2_6, f0_2⟩ := F
  exact .word hm f0_2 (decodeBits_ofCas dbl o d a b hm (f0_2.trans (by omega)) (f2_6.trans (by omega)) (f8_5.trans (by omega)) (f13_5.trans (by omega)) (f18_5.trans (by omega)) ((fld_sub (o := 0) (k := 3) f23_9 rfl (by decide)).trans (by omega)) ((fld_sub (o := 3) (k := 2) f23_9 rfl (by decide)).trans (by omega)) ((fld_sub (o := 5) (k := 1) f23_9 rfl (by decide)).trans (by omega)) ((fld_sub (o := 6) (k := 2) f23_9 rfl (by decide)).trans (by omega)) ((fld_sub (o := 8) (k := 1) f23_9 rfl (by decide)).trans (by omega)))

theorem decodeBits_ofFence (t : OrdFlag) (c : Scope) {W : Nat} (hm : W < 2 ^ 32) (h0 : fld W 0 2 = 1) (h1 : fld W 2 6 = 20) (h2 : fld W 8 15 = 0) (h3 : fld W 23 2 = 0) (h4 : fld W 25 2 = c.code) (h5 : fld W 27 2 = t.code) (h6 : fld W 29 2 = 1) (h7 : fld W 31 1 = 1) : decodeBits W = .ok (.fence t c) := by
  have hb0 := OrdFlag.code_lt t
  have hb1 := Scope.code_lt c
  rw [decodeBits_word h0 hm]
  simp only [h1, h2, h3, h4, h5, h6, h7, decode32, decodeAtomic, OrdFlag.ofCode_code, Scope.ofCode_code, xr, lo8, lane, bv, flag, zero, Except.bind, ofNat_val, ofNat_toNat, if_true, if_false, Nat.reduceBEq, Bool.false_eq_true, true_and, and_true, and_self, or_self, not_false_eq_true, ne_eq, Nat.reduceLT, Nat.reduceLeDiff, Nat.reduceEqDiff, bit_zero, bit_one]
theorem codes_encFence (t : OrdFlag) (c : Scope) : Codes (encFence t c) (.fence t c) := by
  have hb0 := OrdFlag.code_lt t
  have hb1 := Scope.code_lt c
  show Codes (4, fA (2 ^ 8 + 2 ^ 6 + t.code * 2 ^ 4 + c.code * 2 ^ 2) 0 0 0 0x14) (.fence t c)
  have F := @fA_fields ((2 ^ 8 + 2 ^ 6 + t.code * 2 ^ 4 + c.code * 2 ^ 2)) (0) (0) (0) (0x14) (by omega) (by omega) (by omega) (by omega) (by omega)
  obtain ⟨hm, f23_9, f18_5, f13_5, f8_5, f2_6, f0_2⟩ := F
  exact .word hm f0_2 (decodeBits_ofFence t c hm (f0_2.trans (by omega)) (f2_6.trans (by omega)) ((fld_app f8_5 (fld_app f13_5 f18_5 rfl rfl) rfl rfl).trans (by omega)) ((fld_sub (o := 0) (k := 2) f23_9 rfl (by decide)).trans (by omega)) ((fld_sub (o := 2) (k := 2) f23_9 rfl (by decide)).trans (by omega)) ((fld_sub (o := 4) (k := 2) f23_9 rfl (by decide)).trans (by omega)) ((fld_sub (o := 6) (k := 2) f23_9 rfl (by decide)).trans (by omega)) ((fld_sub (o := 8) (k := 1) f23_9 rfl (by decide)).trans (by omega)))

theorem decodeBits_ofSbar (lead : BitVec 5) (held : BitVec 5) {W : Nat} (h : Instr.wf (.sbar lead held) = true) (hm : W < 2 ^ 32) (h0 : fld W 0 2 = 1) (h1 : fld W 2 6 = 20) (h2 : fld W 8 5 = 0) (h3 : fld W 13 5 = lead.toNat) (h4 : fld W 18 5 = held.toNat) (h5 : fld W 23 6 = 0) (h6 : fld W 29 2 = 2) (h7 : fld W 31 1 = 1) : decodeBits W = .ok (.sbar lead held) := by
  have hb0 := lead.isLt
  have hb1 := held.isLt
  have hz0 : ¬ lead.toNat = 0 := by intro hc; have hc : lead = 0 := BitVec.eq_of_toNat_eq hc; simp [Instr.wf, Instr.check, hc] at h
  have hz1 : ¬ held.toNat = 0 := by intro hc; have hc : held = 0 := BitVec.eq_of_toNat_eq hc; simp [Instr.wf, Instr.check, hc] at h
  rw [decodeBits_word h0 hm]
  rw [decode32.eq_1, h1]
  show (decodeAtomic W : Except Reject Instr) = _
  rw [decodeAtomic.eq_1, h7, h6]
  show (if fld W 13 5 = 0 ∨ fld W 18 5 = 0 then .error .unlisted else zero W 23 6 (.sbar (bv 5 W 13) (bv 5 W 18)) |>.bind (zero W 8 5) : Except Reject Instr) = _
  simp only [h1, h2, h3, h4, h5, h6, h7, xr, lo8, lane, bv, flag, zero, Except.bind, ofNat_val, ofNat_toNat, if_true, if_false, Nat.reduceBEq, Bool.false_eq_true, true_and, and_true, and_self, or_self, not_false_eq_true, ne_eq, Nat.reduceLT, Nat.reduceLeDiff, Nat.reduceEqDiff, bit_zero, bit_one, hz0, hz1]
theorem codes_encSbar (lead : BitVec 5) (held : BitVec 5) (h : Instr.wf (.sbar lead held) = true) : Codes (encSbar lead held) (.sbar lead held) := by
  have hb0 := lead.isLt
  have hb1 := held.isLt
  have hz0 : ¬ lead.toNat = 0 := by intro hc; have hc : lead = 0 := BitVec.eq_of_toNat_eq hc; simp [Instr.wf, Instr.check, hc] at h
  have hz1 : ¬ held.toNat = 0 := by intro hc; have hc : held = 0 := BitVec.eq_of_toNat_eq hc; simp [Instr.wf, Instr.check, hc] at h
  show Codes (4, fA (2 ^ 8 + 2 * 2 ^ 6) held.toNat lead.toNat 0 0x14) (.sbar lead held)
  have F := @fA_fields ((2 ^ 8 + 2 * 2 ^ 6)) (held.toNat) (lead.toNat) (0) (0x14) (by omega) (by omega) (by omega) (by omega) (by omega)
  obtain ⟨hm, f23_9, f18_5, f13_5, f8_5, f2_6, f0_2⟩ := F
  exact .word hm f0_2 (decodeBits_ofSbar lead held h hm (f0_2.trans (by omega)) (f2_6.trans (by omega)) (f8_5.trans (by omega)) (f13_5.trans (by omega)) (f18_5.trans (by omega)) ((fld_sub (o := 0) (k := 6) f23_9 rfl (by decide)).trans (by omega)) ((fld_sub (o := 6) (k := 2) f23_9 rfl (by decide)).trans (by omega)) ((fld_sub (o := 8) (k := 1) f23_9 rfl (by decide)).trans (by omega)))

theorem decodeBits_ofCsrrd (d : XReg) (c : BitVec 12) {W : Nat} (hm : W < 2 ^ 32) (h0 : fld W 0 2 = 1) (h1 : fld W 2 6 = 21) (h2 : fld W 8 5 = d.val) (h3 : fld W 13 5 = 0) (h4 : fld W 18 12 = c.toNat) (h5 : fld W 30 2 = 0) : decodeBits W = .ok (.csrrd d c) := by
  have hb0 := d.isLt
  have hb1 := c.isLt
  rw [decodeBits_word h0 hm]
  rw [decode32.eq_1, h1]
  show (decodeSys W : Except Reject Instr) = _
  rw [decodeSys.eq_1, h5]
  show (zero W 13 5 (.csrrd (xr W 8) (bv 12 W 18)) : Except Reject Instr) = _
  simp only [h1, h2, h3, h4, h5, xr, lo8, lane, bv, flag, zero, Except.bind, ofNat_val, ofNat_toNat, if_true, if_false, Nat.reduceBEq, Bool.false_eq_true, true_and, and_true, and_self, or_self, not_false_eq_true, ne_eq, Nat.reduceLT, Nat.reduceLeDiff, Nat.reduceEqDiff, bit_zero, bit_one]
theorem codes_encCsrrd (d : XReg) (c : BitVec 12) : Codes (encCsrrd d c) (.csrrd d c) := by
  have hb0 := d.isLt
  have hb1 := c.isLt
  show Codes (4, fS 0 c.toNat 0 d) (.csrrd d c)
  have F := @fS_fields (0) (c.toNat) (0) (d.val) (by omega) (by omega) (by omega) (by omega)
  obtain ⟨hm, f30_2, f18_12, f13_5, f8_5, f0_2, f2_6⟩ := F
  exact .word hm f0_2 (decodeBits_ofCsrrd d c hm (f0_2.trans (by omega)) (f2_6.trans (by omega)) (f8_5.trans (by omega)) (f13_5.trans (by omega)) (f18_12.trans (by omega)) (f30_2.trans (by omega)))

theorem decodeBits_ofCsrwr (c : BitVec 12) (a : XReg) {W : Nat} (hm : W < 2 ^ 32) (h0 : fld W 0 2 = 1) (h1 : fld W 2 6 = 21) (h2 : fld W 8 5 = 0) (h3 : fld W 13 5 = a.val) (h4 : fld W 18 12 = c.toNat) (h5 : fld W 30 2 = 1) : decodeBits W = .ok (.csrwr c a) := by
  have hb0 := c.isLt
  have hb1 := a.isLt
  rw [decodeBits_word h0 hm]
  rw [decode32.eq_1, h1]
  show (decodeSys W : Except Reject Instr) = _
  rw [decodeSys.eq_1, h5]
  show (zero W 8 5 (.csrwr (bv 12 W 18) (xr W 13)) : Except Reject Instr) = _
  simp only [h1, h2, h3, h4, h5, xr, lo8, lane, bv, flag, zero, Except.bind, ofNat_val, ofNat_toNat, if_true, if_false, Nat.reduceBEq, Bool.false_eq_true, true_and, and_true, and_self, or_self, not_false_eq_true, ne_eq, Nat.reduceLT, Nat.reduceLeDiff, Nat.reduceEqDiff, bit_zero, bit_one]
theorem codes_encCsrwr (c : BitVec 12) (a : XReg) : Codes (encCsrwr c a) (.csrwr c a) := by
  have hb0 := c.isLt
  have hb1 := a.isLt
  show Codes (4, fS 1 c.toNat a 0) (.csrwr c a)
  have F := @fS_fields (1) (c.toNat) (a.val) (0) (by omega) (by omega) (by omega) (by omega)
  obtain ⟨hm, f30_2, f18_12, f13_5, f8_5, f0_2, f2_6⟩ := F
  exact .word hm f0_2 (decodeBits_ofCsrwr c a hm (f0_2.trans (by omega)) (f2_6.trans (by omega)) (f8_5.trans (by omega)) (f13_5.trans (by omega)) (f18_12.trans (by omega)) (f30_2.trans (by omega)))

theorem decodeBits_ofCsrxch (d : XReg) (c : BitVec 12) (a : XReg) {W : Nat} (hm : W < 2 ^ 32) (h0 : fld W 0 2 = 1) (h1 : fld W 2 6 = 21) (h2 : fld W 8 5 = d.val) (h3 : fld W 13 5 = a.val) (h4 : fld W 18 12 = c.toNat) (h5 : fld W 30 2 = 2) : decodeBits W = .ok (.csrxch d c a) := by
  have hb0 := d.isLt
  have hb1 := c.isLt
  have hb2 := a.isLt
  rw [decodeBits_word h0 hm]
  rw [decode32.eq_1, h1]
  show (decodeSys W : Except Reject Instr) = _
  rw [decodeSys.eq_1, h5]
  show (.ok (.csrxch (xr W 8) (bv 12 W 18) (xr W 13)) : Except Reject Instr) = _
  simp only [h1, h2, h3, h4, h5, xr, lo8, lane, bv, flag, zero, Except.bind, ofNat_val, ofNat_toNat, if_true, if_false, Nat.reduceBEq, Bool.false_eq_true, true_and, and_true, and_self, or_self, not_false_eq_true, ne_eq, Nat.reduceLT, Nat.reduceLeDiff, Nat.reduceEqDiff, bit_zero, bit_one]
theorem codes_encCsrxch (d : XReg) (c : BitVec 12) (a : XReg) : Codes (encCsrxch d c a) (.csrxch d c a) := by
  have hb0 := d.isLt
  have hb1 := c.isLt
  have hb2 := a.isLt
  show Codes (4, fS 2 c.toNat a d) (.csrxch d c a)
  have F := @fS_fields (2) (c.toNat) (a.val) (d.val) (by omega) (by omega) (by omega) (by omega)
  obtain ⟨hm, f30_2, f18_12, f13_5, f8_5, f0_2, f2_6⟩ := F
  exact .word hm f0_2 (decodeBits_ofCsrxch d c a hm (f0_2.trans (by omega)) (f2_6.trans (by omega)) (f8_5.trans (by omega)) (f13_5.trans (by omega)) (f18_12.trans (by omega)) (f30_2.trans (by omega)))

theorem decodeBits_ofTrapi (i : BitVec 8) {W : Nat} (hm : W < 2 ^ 32) (h0 : fld W 0 2 = 1) (h1 : fld W 2 6 = 21) (h2 : fld W 8 10 = 0) (h3 : fld W 18 8 = i.toNat) (h4 : fld W 26 4 = 0) (h5 : fld W 30 2 = 3) : decodeBits W = .ok (.trapi i) := by
  have hb0 := i.isLt
  rw [decodeBits_word h0 hm]
  rw [decode32.eq_1, h1]
  show (decodeSys W : Except Reject Instr) = _
  rw [decodeSys.eq_1, h5]
  show (decodeSys3 W : Except Reject Instr) = _
  rw [decodeSys3.eq_1, h4, h3]
  show (zero W 8 10 (.trapi (bv 8 W 18)) : Except Reject Instr) = _
  simp only [h1, h2, h3, h4, h5, xr, lo8, lane, bv, flag, zero, Except.bind, ofNat_val, ofNat_toNat, if_true, if_false, Nat.reduceBEq, Bool.false_eq_true, true_and, and_true, and_self, or_self, not_false_eq_true, ne_eq, Nat.reduceLT, Nat.reduceLeDiff, Nat.reduceEqDiff, bit_zero, bit_one]
theorem codes_encTrapi (i : BitVec 8) : Codes (encTrapi i) (.trapi i) := by
  have hb0 := i.isLt
  show Codes (4, fS 3 (0 * 2 ^ 8 + i.toNat) 0 0) (.trapi i)
  have F := @fS_fields (3) ((0 * 2 ^ 8 + i.toNat)) (0) (0) (by omega) (by omega) (by omega) (by omega)
  obtain ⟨hm, f30_2, f18_12, f13_5, f8_5, f0_2, f2_6⟩ := F
  exact .word hm f0_2 (decodeBits_ofTrapi i hm (f0_2.trans (by omega)) (f2_6.trans (by omega)) ((fld_app f8_5 f13_5 rfl rfl).trans (by omega)) ((fld_sub (o := 0) (k := 8) f18_12 rfl (by decide)).trans (by omega)) ((fld_sub (o := 8) (k := 4) f18_12 rfl (by decide)).trans (by omega)) (f30_2.trans (by omega)))

theorem decodeBits_ofSysret  {W : Nat} (hm : W < 2 ^ 32) (h0 : fld W 0 2 = 1) (h1 : fld W 2 6 = 21) (h2 : fld W 8 10 = 0) (h3 : fld W 18 8 = 0) (h4 : fld W 26 4 = 1) (h5 : fld W 30 2 = 3) : decodeBits W = .ok (.sysret) := by
  rw [decodeBits_word h0 hm]
  rw [decode32.eq_1, h1]
  show (decodeSys W : Except Reject Instr) = _
  rw [decodeSys.eq_1, h5]
  show (decodeSys3 W : Except Reject Instr) = _
  rw [decodeSys3.eq_1, h4, h3]
  show (zero W 8 10 .sysret : Except Reject Instr) = _
  simp only [h1, h2, h3, h4, h5, xr, lo8, lane, bv, flag, zero, Except.bind, ofNat_val, ofNat_toNat, if_true, if_false, Nat.reduceBEq, Bool.false_eq_true, true_and, and_true, and_self, or_self, not_false_eq_true, ne_eq, Nat.reduceLT, Nat.reduceLeDiff, Nat.reduceEqDiff, bit_zero, bit_one]
theorem codes_encSysret : Codes (encSysret) (.sysret) := by
  show Codes (4, fS 3 (1 * 2 ^ 8 + 0) 0 0) (.sysret)
  have F := @fS_fields (3) ((1 * 2 ^ 8 + 0)) (0) (0) (by omega) (by omega) (by omega) (by omega)
  obtain ⟨hm, f30_2, f18_12, f13_5, f8_5, f0_2, f2_6⟩ := F
  exact .word hm f0_2 (decodeBits_ofSysret  hm (f0_2.trans (by omega)) (f2_6.trans (by omega)) ((fld_app f8_5 f13_5 rfl rfl).trans (by omega)) ((fld_sub (o := 0) (k := 8) f18_12 rfl (by decide)).trans (by omega)) ((fld_sub (o := 8) (k := 4) f18_12 rfl (by decide)).trans (by omega)) (f30_2.trans (by omega)))

theorem decodeBits_ofHalt  {W : Nat} (hm : W < 2 ^ 32) (h0 : fld W 0 2 = 1) (h1 : fld W 2 6 = 21) (h2 : fld W 8 10 = 0) (h3 : fld W 18 8 = 0) (h4 : fld W 26 4 = 2) (h5 : fld W 30 2 = 3) : decodeBits W = .ok (.halt) := by
  rw [decodeBits_word h0 hm]
  rw [decode32.eq_1, h1]
  show (decodeSys W : Except Reject Instr) = _
  rw [decodeSys.eq_1, h5]
  show (decodeSys3 W : Except Reject Instr) = _
  rw [decodeSys3.eq_1, h4, h3]
  show (zero W 8 10 .halt : Except Reject Instr) = _
  simp only [h1, h2, h3, h4, h5, xr, lo8, lane, bv, flag, zero, Except.bind, ofNat_val, ofNat_toNat, if_true, if_false, Nat.reduceBEq, Bool.false_eq_true, true_and, and_true, and_self, or_self, not_false_eq_true, ne_eq, Nat.reduceLT, Nat.reduceLeDiff, Nat.reduceEqDiff, bit_zero, bit_one]
theorem codes_encHalt : Codes (encHalt) (.halt) := by
  show Codes (4, fS 3 (2 * 2 ^ 8 + 0) 0 0) (.halt)
  have F := @fS_fields (3) ((2 * 2 ^ 8 + 0)) (0) (0) (by omega) (by omega) (by omega) (by omega)
  obtain ⟨hm, f30_2, f18_12, f13_5, f8_5, f0_2, f2_6⟩ := F
  exact .word hm f0_2 (decodeBits_ofHalt  hm (f0_2.trans (by omega)) (f2_6.trans (by omega)) ((fld_app f8_5 f13_5 rfl rfl).trans (by omega)) ((fld_sub (o := 0) (k := 8) f18_12 rfl (by decide)).trans (by omega)) ((fld_sub (o := 8) (k := 4) f18_12 rfl (by decide)).trans (by omega)) (f30_2.trans (by omega)))

theorem decodeBits_ofYield  {W : Nat} (hm : W < 2 ^ 32) (h0 : fld W 0 2 = 1) (h1 : fld W 2 6 = 21) (h2 : fld W 8 10 = 0) (h3 : fld W 18 8 = 0) (h4 : fld W 26 4 = 3) (h5 : fld W 30 2 = 3) : decodeBits W = .ok (.yield) := by
  rw [decodeBits_word h0 hm]
  rw [decode32.eq_1, h1]
  show (decodeSys W : Except Reject Instr) = _
  rw [decodeSys.eq_1, h5]
  show (decodeSys3 W : Except Reject Instr) = _
  rw [decodeSys3.eq_1, h4, h3]
  show (zero W 8 10 .yield : Except Reject Instr) = _
  simp only [h1, h2, h3, h4, h5, xr, lo8, lane, bv, flag, zero, Except.bind, ofNat_val, ofNat_toNat, if_true, if_false, Nat.reduceBEq, Bool.false_eq_true, true_and, and_true, and_self, or_self, not_false_eq_true, ne_eq, Nat.reduceLT, Nat.reduceLeDiff, Nat.reduceEqDiff, bit_zero, bit_one]
theorem codes_encYield : Codes (encYield) (.yield) := by
  show Codes (4, fS 3 (3 * 2 ^ 8 + 0) 0 0) (.yield)
  have F := @fS_fields (3) ((3 * 2 ^ 8 + 0)) (0) (0) (by omega) (by omega) (by omega) (by omega)
  obtain ⟨hm, f30_2, f18_12, f13_5, f8_5, f0_2, f2_6⟩ := F
  exact .word hm f0_2 (decodeBits_ofYield  hm (f0_2.trans (by omega)) (f2_6.trans (by omega)) ((fld_app f8_5 f13_5 rfl rfl).trans (by omega)) ((fld_sub (o := 0) (k := 8) f18_12 rfl (by decide)).trans (by omega)) ((fld_sub (o := 8) (k := 4) f18_12 rfl (by decide)).trans (by omega)) (f30_2.trans (by omega)))

theorem decodeBits_ofExit  {W : Nat} (hm : W < 2 ^ 32) (h0 : fld W 0 2 = 1) (h1 : fld W 2 6 = 21) (h2 : fld W 8 10 = 0) (h3 : fld W 18 8 = 0) (h4 : fld W 26 4 = 4) (h5 : fld W 30 2 = 3) : decodeBits W = .ok (.exit) := by
  rw [decodeBits_word h0 hm]
  rw [decode32.eq_1, h1]
  show (decodeSys W : Except Reject Instr) = _
  rw [decodeSys.eq_1, h5]
  show (decodeSys3 W : Except Reject Instr) = _
  rw [decodeSys3.eq_1, h4, h3]
  show (zero W 8 10 .exit : Except Reject Instr) = _
  simp only [h1, h2, h3, h4, h5, xr, lo8, lane, bv, flag, zero, Except.bind, ofNat_val, ofNat_toNat, if_true, if_false, Nat.reduceBEq, Bool.false_eq_true, true_and, and_true, and_self, or_self, not_false_eq_true, ne_eq, Nat.reduceLT, Nat.reduceLeDiff, Nat.reduceEqDiff, bit_zero, bit_one]
theorem codes_encExit : Codes (encExit) (.exit) := by
  show Codes (4, fS 3 (4 * 2 ^ 8 + 0) 0 0) (.exit)
  have F := @fS_fields (3) ((4 * 2 ^ 8 + 0)) (0) (0) (by omega) (by omega) (by omega) (by omega)
  obtain ⟨hm, f30_2, f18_12, f13_5, f8_5, f0_2, f2_6⟩ := F
  exact .word hm f0_2 (decodeBits_ofExit  hm (f0_2.trans (by omega)) (f2_6.trans (by omega)) ((fld_app f8_5 f13_5 rfl rfl).trans (by omega)) ((fld_sub (o := 0) (k := 8) f18_12 rfl (by decide)).trans (by omega)) ((fld_sub (o := 8) (k := 4) f18_12 rfl (by decide)).trans (by omega)) (f30_2.trans (by omega)))

theorem decodeBits_ofExitG  {W : Nat} (hm : W < 2 ^ 32) (h0 : fld W 0 2 = 1) (h1 : fld W 2 6 = 21) (h2 : fld W 8 10 = 0) (h3 : fld W 18 8 = 1) (h4 : fld W 26 4 = 4) (h5 : fld W 30 2 = 3) : decodeBits W = .ok (.exitG) := by
  rw [decodeBits_word h0 hm]
  rw [decode32.eq_1, h1]
  show (decodeSys W : Except Reject Instr) = _
  rw [decodeSys.eq_1, h5]
  show (decodeSys3 W : Except Reject Instr) = _
  rw [decodeSys3.eq_1, h4, h3]
  show (zero W 8 10 .exitG : Except Reject Instr) = _
  simp only [h1, h2, h3, h4, h5, xr, lo8, lane, bv, flag, zero, Except.bind, ofNat_val, ofNat_toNat, if_true, if_false, Nat.reduceBEq, Bool.false_eq_true, true_and, and_true, and_self, or_self, not_false_eq_true, ne_eq, Nat.reduceLT, Nat.reduceLeDiff, Nat.reduceEqDiff, bit_zero, bit_one]
theorem codes_encExitG : Codes (encExitG) (.exitG) := by
  show Codes (4, fS 3 (4 * 2 ^ 8 + 1) 0 0) (.exitG)
  have F := @fS_fields (3) ((4 * 2 ^ 8 + 1)) (0) (0) (by omega) (by omega) (by omega) (by omega)
  obtain ⟨hm, f30_2, f18_12, f13_5, f8_5, f0_2, f2_6⟩ := F
  exact .word hm f0_2 (decodeBits_ofExitG  hm (f0_2.trans (by omega)) (f2_6.trans (by omega)) ((fld_app f8_5 f13_5 rfl rfl).trans (by omega)) ((fld_sub (o := 0) (k := 8) f18_12 rfl (by decide)).trans (by omega)) ((fld_sub (o := 8) (k := 4) f18_12 rfl (by decide)).trans (by omega)) (f30_2.trans (by omega)))

theorem decodeBits_ofCacheopPrefetch (a : XReg) {W : Nat} (hm : W < 2 ^ 32) (h0 : fld W 0 2 = 1) (h1 : fld W 2 6 = 21) (h2 : fld W 8 5 = 0) (h3 : fld W 13 5 = a.val) (h4 : fld W 18 8 = 0) (h5 : fld W 26 4 = 5) (h6 : fld W 30 2 = 3) : decodeBits W = .ok (.cacheopPrefetch a) := by
  have hb0 := a.isLt
  rw [decodeBits_word h0 hm]
  rw [decode32.eq_1, h1]
  show (decodeSys W : Except Reject Instr) = _
  rw [decodeSys.eq_1, h6]
  show (decodeSys3 W : Except Reject Instr) = _
  rw [decodeSys3.eq_1, h5, h4]
  show (zero W 8 5 (.cacheopPrefetch (xr W 13)) : Except Reject Instr) = _
  simp only [h1, h2, h3, h4, h5, h6, xr, lo8, lane, bv, flag, zero, Except.bind, ofNat_val, ofNat_toNat, if_true, if_false, Nat.reduceBEq, Bool.false_eq_true, true_and, and_true, and_self, or_self, not_false_eq_true, ne_eq, Nat.reduceLT, Nat.reduceLeDiff, Nat.reduceEqDiff, bit_zero, bit_one]
theorem codes_encCacheopPrefetch (a : XReg) : Codes (encCacheopPrefetch a) (.cacheopPrefetch a) := by
  have hb0 := a.isLt
  show Codes (4, fS 3 (5 * 2 ^ 8 + 0) a 0) (.cacheopPrefetch a)
  have F := @fS_fields (3) ((5 * 2 ^ 8 + 0)) (a.val) (0) (by omega) (by omega) (by omega) (by omega)
  obtain ⟨hm, f30_2, f18_12, f13_5, f8_5, f0_2, f2_6⟩ := F
  exact .word hm f0_2 (decodeBits_ofCacheopPrefetch a hm (f0_2.trans (by omega)) (f2_6.trans (by omega)) (f8_5.trans (by omega)) (f13_5.trans (by omega)) ((fld_sub (o := 0) (k := 8) f18_12 rfl (by decide)).trans (by omega)) ((fld_sub (o := 8) (k := 4) f18_12 rfl (by decide)).trans (by omega)) (f30_2.trans (by omega)))

theorem decodeBits_ofCacheopPin (a : XReg) {W : Nat} (hm : W < 2 ^ 32) (h0 : fld W 0 2 = 1) (h1 : fld W 2 6 = 21) (h2 : fld W 8 5 = 0) (h3 : fld W 13 5 = a.val) (h4 : fld W 18 8 = 1) (h5 : fld W 26 4 = 5) (h6 : fld W 30 2 = 3) : decodeBits W = .ok (.cacheopPin a) := by
  have hb0 := a.isLt
  rw [decodeBits_word h0 hm]
  rw [decode32.eq_1, h1]
  show (decodeSys W : Except Reject Instr) = _
  rw [decodeSys.eq_1, h6]
  show (decodeSys3 W : Except Reject Instr) = _
  rw [decodeSys3.eq_1, h5, h4]
  show (zero W 8 5 (.cacheopPin (xr W 13)) : Except Reject Instr) = _
  simp only [h1, h2, h3, h4, h5, h6, xr, lo8, lane, bv, flag, zero, Except.bind, ofNat_val, ofNat_toNat, if_true, if_false, Nat.reduceBEq, Bool.false_eq_true, true_and, and_true, and_self, or_self, not_false_eq_true, ne_eq, Nat.reduceLT, Nat.reduceLeDiff, Nat.reduceEqDiff, bit_zero, bit_one]
theorem codes_encCacheopPin (a : XReg) : Codes (encCacheopPin a) (.cacheopPin a) := by
  have hb0 := a.isLt
  show Codes (4, fS 3 (5 * 2 ^ 8 + 1) a 0) (.cacheopPin a)
  have F := @fS_fields (3) ((5 * 2 ^ 8 + 1)) (a.val) (0) (by omega) (by omega) (by omega) (by omega)
  obtain ⟨hm, f30_2, f18_12, f13_5, f8_5, f0_2, f2_6⟩ := F
  exact .word hm f0_2 (decodeBits_ofCacheopPin a hm (f0_2.trans (by omega)) (f2_6.trans (by omega)) (f8_5.trans (by omega)) (f13_5.trans (by omega)) ((fld_sub (o := 0) (k := 8) f18_12 rfl (by decide)).trans (by omega)) ((fld_sub (o := 8) (k := 4) f18_12 rfl (by decide)).trans (by omega)) (f30_2.trans (by omega)))

theorem decodeBits_ofCacheopUnpin (a : XReg) {W : Nat} (hm : W < 2 ^ 32) (h0 : fld W 0 2 = 1) (h1 : fld W 2 6 = 21) (h2 : fld W 8 5 = 0) (h3 : fld W 13 5 = a.val) (h4 : fld W 18 8 = 2) (h5 : fld W 26 4 = 5) (h6 : fld W 30 2 = 3) : decodeBits W = .ok (.cacheopUnpin a) := by
  have hb0 := a.isLt
  rw [decodeBits_word h0 hm]
  rw [decode32.eq_1, h1]
  show (decodeSys W : Except Reject Instr) = _
  rw [decodeSys.eq_1, h6]
  show (decodeSys3 W : Except Reject Instr) = _
  rw [decodeSys3.eq_1, h5, h4]
  show (zero W 8 5 (.cacheopUnpin (xr W 13)) : Except Reject Instr) = _
  simp only [h1, h2, h3, h4, h5, h6, xr, lo8, lane, bv, flag, zero, Except.bind, ofNat_val, ofNat_toNat, if_true, if_false, Nat.reduceBEq, Bool.false_eq_true, true_and, and_true, and_self, or_self, not_false_eq_true, ne_eq, Nat.reduceLT, Nat.reduceLeDiff, Nat.reduceEqDiff, bit_zero, bit_one]
theorem codes_encCacheopUnpin (a : XReg) : Codes (encCacheopUnpin a) (.cacheopUnpin a) := by
  have hb0 := a.isLt
  show Codes (4, fS 3 (5 * 2 ^ 8 + 2) a 0) (.cacheopUnpin a)
  have F := @fS_fields (3) ((5 * 2 ^ 8 + 2)) (a.val) (0) (by omega) (by omega) (by omega) (by omega)
  obtain ⟨hm, f30_2, f18_12, f13_5, f8_5, f0_2, f2_6⟩ := F
  exact .word hm f0_2 (decodeBits_ofCacheopUnpin a hm (f0_2.trans (by omega)) (f2_6.trans (by omega)) (f8_5.trans (by omega)) (f13_5.trans (by omega)) ((fld_sub (o := 0) (k := 8) f18_12 rfl (by decide)).trans (by omega)) ((fld_sub (o := 8) (k := 4) f18_12 rfl (by decide)).trans (by omega)) (f30_2.trans (by omega)))

theorem decodeBits_ofCacheopFlush (a : XReg) {W : Nat} (hm : W < 2 ^ 32) (h0 : fld W 0 2 = 1) (h1 : fld W 2 6 = 21) (h2 : fld W 8 5 = 0) (h3 : fld W 13 5 = a.val) (h4 : fld W 18 8 = 3) (h5 : fld W 26 4 = 5) (h6 : fld W 30 2 = 3) : decodeBits W = .ok (.cacheopFlush a) := by
  have hb0 := a.isLt
  rw [decodeBits_word h0 hm]
  rw [decode32.eq_1, h1]
  show (decodeSys W : Except Reject Instr) = _
  rw [decodeSys.eq_1, h6]
  show (decodeSys3 W : Except Reject Instr) = _
  rw [decodeSys3.eq_1, h5, h4]
  show (zero W 8 5 (.cacheopFlush (xr W 13)) : Except Reject Instr) = _
  simp only [h1, h2, h3, h4, h5, h6, xr, lo8, lane, bv, flag, zero, Except.bind, ofNat_val, ofNat_toNat, if_true, if_false, Nat.reduceBEq, Bool.false_eq_true, true_and, and_true, and_self, or_self, not_false_eq_true, ne_eq, Nat.reduceLT, Nat.reduceLeDiff, Nat.reduceEqDiff, bit_zero, bit_one]
theorem codes_encCacheopFlush (a : XReg) : Codes (encCacheopFlush a) (.cacheopFlush a) := by
  have hb0 := a.isLt
  show Codes (4, fS 3 (5 * 2 ^ 8 + 3) a 0) (.cacheopFlush a)
  have F := @fS_fields (3) ((5 * 2 ^ 8 + 3)) (a.val) (0) (by omega) (by omega) (by omega) (by omega)
  obtain ⟨hm, f30_2, f18_12, f13_5, f8_5, f0_2, f2_6⟩ := F
  exact .word hm f0_2 (decodeBits_ofCacheopFlush a hm (f0_2.trans (by omega)) (f2_6.trans (by omega)) (f8_5.trans (by omega)) (f13_5.trans (by omega)) ((fld_sub (o := 0) (k := 8) f18_12 rfl (by decide)).trans (by omega)) ((fld_sub (o := 8) (k := 4) f18_12 rfl (by decide)).trans (by omega)) (f30_2.trans (by omega)))

theorem decodeBits_ofCacheopInvalidate (a : XReg) {W : Nat} (hm : W < 2 ^ 32) (h0 : fld W 0 2 = 1) (h1 : fld W 2 6 = 21) (h2 : fld W 8 5 = 0) (h3 : fld W 13 5 = a.val) (h4 : fld W 18 8 = 4) (h5 : fld W 26 4 = 5) (h6 : fld W 30 2 = 3) : decodeBits W = .ok (.cacheopInvalidate a) := by
  have hb0 := a.isLt
  rw [decodeBits_word h0 hm]
  rw [decode32.eq_1, h1]
  show (decodeSys W : Except Reject Instr) = _
  rw [decodeSys.eq_1, h6]
  show (decodeSys3 W : Except Reject Instr) = _
  rw [decodeSys3.eq_1, h5, h4]
  show (zero W 8 5 (.cacheopInvalidate (xr W 13)) : Except Reject Instr) = _
  simp only [h1, h2, h3, h4, h5, h6, xr, lo8, lane, bv, flag, zero, Except.bind, ofNat_val, ofNat_toNat, if_true, if_false, Nat.reduceBEq, Bool.false_eq_true, true_and, and_true, and_self, or_self, not_false_eq_true, ne_eq, Nat.reduceLT, Nat.reduceLeDiff, Nat.reduceEqDiff, bit_zero, bit_one]
theorem codes_encCacheopInvalidate (a : XReg) : Codes (encCacheopInvalidate a) (.cacheopInvalidate a) := by
  have hb0 := a.isLt
  show Codes (4, fS 3 (5 * 2 ^ 8 + 4) a 0) (.cacheopInvalidate a)
  have F := @fS_fields (3) ((5 * 2 ^ 8 + 4)) (a.val) (0) (by omega) (by omega) (by omega) (by omega)
  obtain ⟨hm, f30_2, f18_12, f13_5, f8_5, f0_2, f2_6⟩ := F
  exact .word hm f0_2 (decodeBits_ofCacheopInvalidate a hm (f0_2.trans (by omega)) (f2_6.trans (by omega)) (f8_5.trans (by omega)) (f13_5.trans (by omega)) ((fld_sub (o := 0) (k := 8) f18_12 rfl (by decide)).trans (by omega)) ((fld_sub (o := 8) (k := 4) f18_12 rfl (by decide)).trans (by omega)) (f30_2.trans (by omega)))

theorem decodeBits_ofTlbinvPage (a : XReg) {W : Nat} (hm : W < 2 ^ 32) (h0 : fld W 0 2 = 1) (h1 : fld W 2 6 = 21) (h2 : fld W 8 5 = 0) (h3 : fld W 13 5 = a.val) (h4 : fld W 18 8 = 0) (h5 : fld W 26 4 = 6) (h6 : fld W 30 2 = 3) : decodeBits W = .ok (.tlbinvPage a) := by
  have hb0 := a.isLt
  rw [decodeBits_word h0 hm]
  rw [decode32.eq_1, h1]
  show (decodeSys W : Except Reject Instr) = _
  rw [decodeSys.eq_1, h6]
  show (decodeSys3 W : Except Reject Instr) = _
  rw [decodeSys3.eq_1, h5, h4]
  show (zero W 8 5 (.tlbinvPage (xr W 13)) : Except Reject Instr) = _
  simp only [h1, h2, h3, h4, h5, h6, xr, lo8, lane, bv, flag, zero, Except.bind, ofNat_val, ofNat_toNat, if_true, if_false, Nat.reduceBEq, Bool.false_eq_true, true_and, and_true, and_self, or_self, not_false_eq_true, ne_eq, Nat.reduceLT, Nat.reduceLeDiff, Nat.reduceEqDiff, bit_zero, bit_one]
theorem codes_encTlbinvPage (a : XReg) : Codes (encTlbinvPage a) (.tlbinvPage a) := by
  have hb0 := a.isLt
  show Codes (4, fS 3 (6 * 2 ^ 8 + 0) a 0) (.tlbinvPage a)
  have F := @fS_fields (3) ((6 * 2 ^ 8 + 0)) (a.val) (0) (by omega) (by omega) (by omega) (by omega)
  obtain ⟨hm, f30_2, f18_12, f13_5, f8_5, f0_2, f2_6⟩ := F
  exact .word hm f0_2 (decodeBits_ofTlbinvPage a hm (f0_2.trans (by omega)) (f2_6.trans (by omega)) (f8_5.trans (by omega)) (f13_5.trans (by omega)) ((fld_sub (o := 0) (k := 8) f18_12 rfl (by decide)).trans (by omega)) ((fld_sub (o := 8) (k := 4) f18_12 rfl (by decide)).trans (by omega)) (f30_2.trans (by omega)))

theorem decodeBits_ofTlbinvAll  {W : Nat} (hm : W < 2 ^ 32) (h0 : fld W 0 2 = 1) (h1 : fld W 2 6 = 21) (h2 : fld W 8 10 = 0) (h3 : fld W 18 8 = 1) (h4 : fld W 26 4 = 6) (h5 : fld W 30 2 = 3) : decodeBits W = .ok (.tlbinvAll) := by
  rw [decodeBits_word h0 hm]
  rw [decode32.eq_1, h1]
  show (decodeSys W : Except Reject Instr) = _
  rw [decodeSys.eq_1, h5]
  show (decodeSys3 W : Except Reject Instr) = _
  rw [decodeSys3.eq_1, h4, h3]
  show (zero W 8 10 .tlbinvAll : Except Reject Instr) = _
  simp only [h1, h2, h3, h4, h5, xr, lo8, lane, bv, flag, zero, Except.bind, ofNat_val, ofNat_toNat, if_true, if_false, Nat.reduceBEq, Bool.false_eq_true, true_and, and_true, and_self, or_self, not_false_eq_true, ne_eq, Nat.reduceLT, Nat.reduceLeDiff, Nat.reduceEqDiff, bit_zero, bit_one]
theorem codes_encTlbinvAll : Codes (encTlbinvAll) (.tlbinvAll) := by
  show Codes (4, fS 3 (6 * 2 ^ 8 + 1) 0 0) (.tlbinvAll)
  have F := @fS_fields (3) ((6 * 2 ^ 8 + 1)) (0) (0) (by omega) (by omega) (by omega) (by omega)
  obtain ⟨hm, f30_2, f18_12, f13_5, f8_5, f0_2, f2_6⟩ := F
  exact .word hm f0_2 (decodeBits_ofTlbinvAll  hm (f0_2.trans (by omega)) (f2_6.trans (by omega)) ((fld_app f8_5 f13_5 rfl rfl).trans (by omega)) ((fld_sub (o := 0) (k := 8) f18_12 rfl (by decide)).trans (by omega)) ((fld_sub (o := 8) (k := 4) f18_12 rfl (by decide)).trans (by omega)) (f30_2.trans (by omega)))

theorem decodeBits_ofWaitevTimer (d : XReg) {W : Nat} (hm : W < 2 ^ 32) (h0 : fld W 0 2 = 1) (h1 : fld W 2 6 = 21) (h2 : fld W 8 5 = d.val) (h3 : fld W 13 5 = 0) (h4 : fld W 18 8 = 0) (h5 : fld W 26 4 = 7) (h6 : fld W 30 2 = 3) : decodeBits W = .ok (.waitevTimer d) := by
  have hb0 := d.isLt
  rw [decodeBits_word h0 hm]
  rw [decode32.eq_1, h1]
  show (decodeSys W : Except Reject Instr) = _
  rw [decodeSys.eq_1, h6]
  show (decodeSys3 W : Except Reject Instr) = _
  rw [decodeSys3.eq_1, h5, h4]
  show (zero W 13 5 (.waitevTimer (xr W 8)) : Except Reject Instr) = _
  simp only [h1, h2, h3, h4, h5, h6, xr, lo8, lane, bv, flag, zero, Except.bind, ofNat_val, ofNat_toNat, if_true, if_false, Nat.reduceBEq, Bool.false_eq_true, true_and, and_true, and_self, or_self, not_false_eq_true, ne_eq, Nat.reduceLT, Nat.reduceLeDiff, Nat.reduceEqDiff, bit_zero, bit_one]
theorem codes_encWaitevTimer (d : XReg) : Codes (encWaitevTimer d) (.waitevTimer d) := by
  have hb0 := d.isLt
  show Codes (4, fS 3 (7 * 2 ^ 8 + 0) 0 d) (.waitevTimer d)
  have F := @fS_fields (3) ((7 * 2 ^ 8 + 0)) (0) (d.val) (by omega) (by omega) (by omega) (by omega)
  obtain ⟨hm, f30_2, f18_12, f13_5, f8_5, f0_2, f2_6⟩ := F
  exact .word hm f0_2 (decodeBits_ofWaitevTimer d hm (f0_2.trans (by omega)) (f2_6.trans (by omega)) (f8_5.trans (by omega)) (f13_5.trans (by omega)) ((fld_sub (o := 0) (k := 8) f18_12 rfl (by decide)).trans (by omega)) ((fld_sub (o := 8) (k := 4) f18_12 rfl (by decide)).trans (by omega)) (f30_2.trans (by omega)))

theorem decodeBits_ofWaitevSlot (d : XReg) {W : Nat} (hm : W < 2 ^ 32) (h0 : fld W 0 2 = 1) (h1 : fld W 2 6 = 21) (h2 : fld W 8 5 = d.val) (h3 : fld W 13 5 = 0) (h4 : fld W 18 8 = 1) (h5 : fld W 26 4 = 7) (h6 : fld W 30 2 = 3) : decodeBits W = .ok (.waitevSlot d) := by
  have hb0 := d.isLt
  rw [decodeBits_word h0 hm]
  rw [decode32.eq_1, h1]
  show (decodeSys W : Except Reject Instr) = _
  rw [decodeSys.eq_1, h6]
  show (decodeSys3 W : Except Reject Instr) = _
  rw [decodeSys3.eq_1, h5, h4]
  show (zero W 13 5 (.waitevSlot (xr W 8)) : Except Reject Instr) = _
  simp only [h1, h2, h3, h4, h5, h6, xr, lo8, lane, bv, flag, zero, Except.bind, ofNat_val, ofNat_toNat, if_true, if_false, Nat.reduceBEq, Bool.false_eq_true, true_and, and_true, and_self, or_self, not_false_eq_true, ne_eq, Nat.reduceLT, Nat.reduceLeDiff, Nat.reduceEqDiff, bit_zero, bit_one]
theorem codes_encWaitevSlot (d : XReg) : Codes (encWaitevSlot d) (.waitevSlot d) := by
  have hb0 := d.isLt
  show Codes (4, fS 3 (7 * 2 ^ 8 + 1) 0 d) (.waitevSlot d)
  have F := @fS_fields (3) ((7 * 2 ^ 8 + 1)) (0) (d.val) (by omega) (by omega) (by omega) (by omega)
  obtain ⟨hm, f30_2, f18_12, f13_5, f8_5, f0_2, f2_6⟩ := F
  exact .word hm f0_2 (decodeBits_ofWaitevSlot d hm (f0_2.trans (by omega)) (f2_6.trans (by omega)) (f8_5.trans (by omega)) (f13_5.trans (by omega)) ((fld_sub (o := 0) (k := 8) f18_12 rfl (by decide)).trans (by omega)) ((fld_sub (o := 8) (k := 4) f18_12 rfl (by decide)).trans (by omega)) (f30_2.trans (by omega)))

theorem decodeBits_ofSqopen (d : XReg) (h : XReg) (p : XReg) {W : Nat} (hm : W < 2 ^ 32) (h0 : fld W 0 2 = 1) (h1 : fld W 2 6 = 22) (h2 : fld W 8 5 = d.val) (h3 : fld W 13 5 = h.val) (h4 : fld W 18 5 = p.val) (h5 : fld W 23 4 = 0) (h6 : fld W 27 5 = 0) : decodeBits W = .ok (.sqopen d h p) := by
  have hb0 := d.isLt
  have hb1 := h.isLt
  have hb2 := p.isLt
  rw [decodeBits_word h0 hm]
  rw [decode32.eq_1, h1]
  show (decodeVine W : Except Reject Instr) = _
  rw [decodeVine.eq_1, h6]
  show (zero W 23 4 (.sqopen (xr W 8) (xr W 13) (xr W 18)) : Except Reject Instr) = _
  simp only [h1, h2, h3, h4, h5, h6, xr, lo8, lane, bv, flag, zero, Except.bind, ofNat_val, ofNat_toNat, if_true, if_false, Nat.reduceBEq, Bool.false_eq_true, true_and, and_true, and_self, or_self, not_false_eq_true, ne_eq, Nat.reduceLT, Nat.reduceLeDiff, Nat.reduceEqDiff, bit_zero, bit_one]
theorem codes_encSqopen (d : XReg) (h : XReg) (p : XReg) : Codes (encSqopen d h p) (.sqopen d h p) := by
  have hb0 := d.isLt
  have hb1 := h.isLt
  have hb2 := p.isLt
  show Codes (4, fA (0 * 2 ^ 4) p h d 0x16) (.sqopen d h p)
  have F := @fA_fields ((0 * 2 ^ 4)) (p.val) (h.val) (d.val) (0x16) (by omega) (by omega) (by omega) (by omega) (by omega)
  obtain ⟨hm, f23_9, f18_5, f13_5, f8_5, f2_6, f0_2⟩ := F
  exact .word hm f0_2 (decodeBits_ofSqopen d h p hm (f0_2.trans (by omega)) (f2_6.trans (by omega)) (f8_5.trans (by omega)) (f13_5.trans (by omega)) (f18_5.trans (by omega)) ((fld_sub (o := 0) (k := 4) f23_9 rfl (by decide)).trans (by omega)) ((fld_sub (o := 4) (k := 5) f23_9 rfl (by decide)).trans (by omega)))

theorem decodeBits_ofSqres (d : XReg) (h : XReg) (n : XReg) {W : Nat} (hm : W < 2 ^ 32) (h0 : fld W 0 2 = 1) (h1 : fld W 2 6 = 22) (h2 : fld W 8 5 = d.val) (h3 : fld W 13 5 = h.val) (h4 : fld W 18 5 = n.val) (h5 : fld W 23 4 = 0) (h6 : fld W 27 5 = 1) : decodeBits W = .ok (.sqres d h n) := by
  have hb0 := d.isLt
  have hb1 := h.isLt
  have hb2 := n.isLt
  rw [decodeBits_word h0 hm]
  rw [decode32.eq_1, h1]
  show (decodeVine W : Except Reject Instr) = _
  rw [decodeVine.eq_1, h6]
  show (zero W 23 4 (.sqres (xr W 8) (xr W 13) (xr W 18)) : Except Reject Instr) = _
  simp only [h1, h2, h3, h4, h5, h6, xr, lo8, lane, bv, flag, zero, Except.bind, ofNat_val, ofNat_toNat, if_true, if_false, Nat.reduceBEq, Bool.false_eq_true, true_and, and_true, and_self, or_self, not_false_eq_true, ne_eq, Nat.reduceLT, Nat.reduceLeDiff, Nat.reduceEqDiff, bit_zero, bit_one]
theorem codes_encSqres (d : XReg) (h : XReg) (n : XReg) : Codes (encSqres d h n) (.sqres d h n) := by
  have hb0 := d.isLt
  have hb1 := h.isLt
  have hb2 := n.isLt
  show Codes (4, fA (1 * 2 ^ 4) n h d 0x16) (.sqres d h n)
  have F := @fA_fields ((1 * 2 ^ 4)) (n.val) (h.val) (d.val) (0x16) (by omega) (by omega) (by omega) (by omega) (by omega)
  obtain ⟨hm, f23_9, f18_5, f13_5, f8_5, f2_6, f0_2⟩ := F
  exact .word hm f0_2 (decodeBits_ofSqres d h n hm (f0_2.trans (by omega)) (f2_6.trans (by omega)) (f8_5.trans (by omega)) (f13_5.trans (by omega)) (f18_5.trans (by omega)) ((fld_sub (o := 0) (k := 4) f23_9 rfl (by decide)).trans (by omega)) ((fld_sub (o := 4) (k := 5) f23_9 rfl (by decide)).trans (by omega)))

theorem decodeBits_ofSqst (z : Sz) (s : XReg) (h : XReg) (i : XReg) {W : Nat} (hm : W < 2 ^ 32) (h0 : fld W 0 2 = 1) (h1 : fld W 2 6 = 22) (h2 : fld W 8 5 = s.val) (h3 : fld W 13 5 = h.val) (h4 : fld W 18 5 = i.val) (h5 : fld W 23 2 = 0) (h6 : fld W 25 2 = z.code) (h7 : fld W 27 5 = 2) : decodeBits W = .ok (.sqst z s h i) := by
  have hb0 := Sz.code_lt z
  have hb1 := s.isLt
  have hb2 := h.isLt
  have hb3 := i.isLt
  rw [decodeBits_word h0 hm]
  rw [decode32.eq_1, h1]
  show (decodeVine W : Except Reject Instr) = _
  rw [decodeVine.eq_1, h7]
  show (zero W 23 2 (.sqst (Sz.ofCode (fld W 25 2)) (xr W 8) (xr W 13) (xr W 18)) : Except Reject Instr) = _
  simp only [h1, h2, h3, h4, h5, h6, h7, Sz.ofCode_code, xr, lo8, lane, bv, flag, zero, Except.bind, ofNat_val, ofNat_toNat, if_true, if_false, Nat.reduceBEq, Bool.false_eq_true, true_and, and_true, and_self, or_self, not_false_eq_true, ne_eq, Nat.reduceLT, Nat.reduceLeDiff, Nat.reduceEqDiff, bit_zero, bit_one]
theorem codes_encSqst (z : Sz) (s : XReg) (h : XReg) (i : XReg) : Codes (encSqst z s h i) (.sqst z s h i) := by
  have hb0 := Sz.code_lt z
  have hb1 := s.isLt
  have hb2 := h.isLt
  have hb3 := i.isLt
  show Codes (4, fA (2 * 2 ^ 4 + z.code * 2 ^ 2) i h s 0x16) (.sqst z s h i)
  have F := @fA_fields ((2 * 2 ^ 4 + z.code * 2 ^ 2)) (i.val) (h.val) (s.val) (0x16) (by omega) (by omega) (by omega) (by omega) (by omega)
  obtain ⟨hm, f23_9, f18_5, f13_5, f8_5, f2_6, f0_2⟩ := F
  exact .word hm f0_2 (decodeBits_ofSqst z s h i hm (f0_2.trans (by omega)) (f2_6.trans (by omega)) (f8_5.trans (by omega)) (f13_5.trans (by omega)) (f18_5.trans (by omega)) ((fld_sub (o := 0) (k := 2) f23_9 rfl (by decide)).trans (by omega)) ((fld_sub (o := 2) (k := 2) f23_9 rfl (by decide)).trans (by omega)) ((fld_sub (o := 4) (k := 5) f23_9 rfl (by decide)).trans (by omega)))

theorem decodeBits_ofSqcmt (c : WideScope) (h : XReg) (r : XReg) {W : Nat} (hm : W < 2 ^ 32) (h0 : fld W 0 2 = 1) (h1 : fld W 2 6 = 22) (h2 : fld W 8 5 = 0) (h3 : fld W 13 5 = h.val) (h4 : fld W 18 5 = r.val) (h5 : fld W 23 1 = c.code) (h6 : fld W 24 3 = 0) (h7 : fld W 27 5 = 3) : decodeBits W = .ok (.sqcmt c h r) := by
  have hb0 := WideScope.code_lt c
  have hb1 := h.isLt
  have hb2 := r.isLt
  rw [decodeBits_word h0 hm]
  rw [decode32.eq_1, h1]
  show (decodeVine W : Except Reject Instr) = _
  rw [decodeVine.eq_1, h7]
  show (zero W 24 3 (.sqcmt (WideScope.ofCode (fld W 23 1)) (xr W 13) (xr W 18)) |>.bind (zero W 8 5) : Except Reject Instr) = _
  simp only [h1, h2, h3, h4, h5, h6, h7, WideScope.ofCode_code, xr, lo8, lane, bv, flag, zero, Except.bind, ofNat_val, ofNat_toNat, if_true, if_false, Nat.reduceBEq, Bool.false_eq_true, true_and, and_true, and_self, or_self, not_false_eq_true, ne_eq, Nat.reduceLT, Nat.reduceLeDiff, Nat.reduceEqDiff, bit_zero, bit_one]
theorem codes_encSqcmt (c : WideScope) (h : XReg) (r : XReg) : Codes (encSqcmt c h r) (.sqcmt c h r) := by
  have hb0 := WideScope.code_lt c
  have hb1 := h.isLt
  have hb2 := r.isLt
  show Codes (4, fA (3 * 2 ^ 4 + c.code) r h 0 0x16) (.sqcmt c h r)
  have F := @fA_fields ((3 * 2 ^ 4 + c.code)) (r.val) (h.val) (0) (0x16) (by omega) (by omega) (by omega) (by omega) (by omega)
  obtain ⟨hm, f23_9, f18_5, f13_5, f8_5, f2_6, f0_2⟩ := F
  exact .word hm f0_2 (decodeBits_ofSqcmt c h r hm (f0_2.trans (by omega)) (f2_6.trans (by omega)) (f8_5.trans (by omega)) (f13_5.trans (by omega)) (f18_5.trans (by omega)) ((fld_sub (o := 0) (k := 1) f23_9 rfl (by decide)).trans (by omega)) ((fld_sub (o := 1) (k := 3) f23_9 rfl (by decide)).trans (by omega)) ((fld_sub (o := 4) (k := 5) f23_9 rfl (by decide)).trans (by omega)))

theorem decodeBits_ofSqlen (c : WideScope) (d : XReg) (h : XReg) {W : Nat} (hm : W < 2 ^ 32) (h0 : fld W 0 2 = 1) (h1 : fld W 2 6 = 22) (h2 : fld W 8 5 = d.val) (h3 : fld W 13 5 = h.val) (h4 : fld W 18 5 = 0) (h5 : fld W 23 1 = c.code) (h6 : fld W 24 3 = 0) (h7 : fld W 27 5 = 4) : decodeBits W = .ok (.sqlen c d h) := by
  have hb0 := WideScope.code_lt c
  have hb1 := d.isLt
  have hb2 := h.isLt
  rw [decodeBits_word h0 hm]
  rw [decode32.eq_1, h1]
  show (decodeVine W : Except Reject Instr) = _
  rw [decodeVine.eq_1, h7]
  show (zero W 24 3 (.sqlen (WideScope.ofCode (fld W 23 1)) (xr W 8) (xr W 13)) |>.bind (zero W 18 5) : Except Reject Instr) = _
  simp only [h1, h2, h3, h4, h5, h6, h7, WideScope.ofCode_code, xr, lo8, lane, bv, flag, zero, Except.bind, ofNat_val, ofNat_toNat, if_true, if_false, Nat.reduceBEq, Bool.false_eq_true, true_and, and_true, and_self, or_self, not_false_eq_true, ne_eq, Nat.reduceLT, Nat.reduceLeDiff, Nat.reduceEqDiff, bit_zero, bit_one]
theorem codes_encSqlen (c : WideScope) (d : XReg) (h : XReg) : Codes (encSqlen c d h) (.sqlen c d h) := by
  have hb0 := WideScope.code_lt c
  have hb1 := d.isLt
  have hb2 := h.isLt
  show Codes (4, fA (4 * 2 ^ 4 + c.code) 0 h d 0x16) (.sqlen c d h)
  have F := @fA_fields ((4 * 2 ^ 4 + c.code)) (0) (h.val) (d.val) (0x16) (by omega) (by omega) (by omega) (by omega) (by omega)
  obtain ⟨hm, f23_9, f18_5, f13_5, f8_5, f2_6, f0_2⟩ := F
  exact .word hm f0_2 (decodeBits_ofSqlen c d h hm (f0_2.trans (by omega)) (f2_6.trans (by omega)) (f8_5.trans (by omega)) (f13_5.trans (by omega)) (f18_5.trans (by omega)) ((fld_sub (o := 0) (k := 1) f23_9 rfl (by decide)).trans (by omega)) ((fld_sub (o := 1) (k := 3) f23_9 rfl (by decide)).trans (by omega)) ((fld_sub (o := 4) (k := 5) f23_9 rfl (by decide)).trans (by omega)))

theorem decodeBits_ofSqwait (c : WideScope) (d : XReg) (h : XReg) (n : XReg) {W : Nat} (hm : W < 2 ^ 32) (h0 : fld W 0 2 = 1) (h1 : fld W 2 6 = 22) (h2 : fld W 8 5 = d.val) (h3 : fld W 13 5 = h.val) (h4 : fld W 18 5 = n.val) (h5 : fld W 23 1 = c.code) (h6 : fld W 24 3 = 0) (h7 : fld W 27 5 = 5) : decodeBits W = .ok (.sqwait c d h n) := by
  have hb0 := WideScope.code_lt c
  have hb1 := d.isLt
  have hb2 := h.isLt
  have hb3 := n.isLt
  rw [decodeBits_word h0 hm]
  rw [decode32.eq_1, h1]
  show (decodeVine W : Except Reject Instr) = _
  rw [decodeVine.eq_1, h7]
  show (zero W 24 3 (.sqwait (WideScope.ofCode (fld W 23 1)) (xr W 8) (xr W 13) (xr W 18)) : Except Reject Instr) = _
  simp only [h1, h2, h3, h4, h5, h6, h7, WideScope.ofCode_code, xr, lo8, lane, bv, flag, zero, Except.bind, ofNat_val, ofNat_toNat, if_true, if_false, Nat.reduceBEq, Bool.false_eq_true, true_and, and_true, and_self, or_self, not_false_eq_true, ne_eq, Nat.reduceLT, Nat.reduceLeDiff, Nat.reduceEqDiff, bit_zero, bit_one]
theorem codes_encSqwait (c : WideScope) (d : XReg) (h : XReg) (n : XReg) : Codes (encSqwait c d h n) (.sqwait c d h n) := by
  have hb0 := WideScope.code_lt c
  have hb1 := d.isLt
  have hb2 := h.isLt
  have hb3 := n.isLt
  show Codes (4, fA (5 * 2 ^ 4 + c.code) n h d 0x16) (.sqwait c d h n)
  have F := @fA_fields ((5 * 2 ^ 4 + c.code)) (n.val) (h.val) (d.val) (0x16) (by omega) (by omega) (by omega) (by omega) (by omega)
  obtain ⟨hm, f23_9, f18_5, f13_5, f8_5, f2_6, f0_2⟩ := F
  exact .word hm f0_2 (decodeBits_ofSqwait c d h n hm (f0_2.trans (by omega)) (f2_6.trans (by omega)) (f8_5.trans (by omega)) (f13_5.trans (by omega)) (f18_5.trans (by omega)) ((fld_sub (o := 0) (k := 1) f23_9 rfl (by decide)).trans (by omega)) ((fld_sub (o := 1) (k := 3) f23_9 rfl (by decide)).trans (by omega)) ((fld_sub (o := 4) (k := 5) f23_9 rfl (by decide)).trans (by omega)))

theorem decodeBits_ofSqld (z : Sz) (d : XReg) (h : XReg) (i : XReg) {W : Nat} (hm : W < 2 ^ 32) (h0 : fld W 0 2 = 1) (h1 : fld W 2 6 = 22) (h2 : fld W 8 5 = d.val) (h3 : fld W 13 5 = h.val) (h4 : fld W 18 5 = i.val) (h5 : fld W 23 2 = 0) (h6 : fld W 25 2 = z.code) (h7 : fld W 27 5 = 6) : decodeBits W = .ok (.sqld z d h i) := by
  have hb0 := Sz.code_lt z
  have hb1 := d.isLt
  have hb2 := h.isLt
  have hb3 := i.isLt
  rw [decodeBits_word h0 hm]
  rw [decode32.eq_1, h1]
  show (decodeVine W : Except Reject Instr) = _
  rw [decodeVine.eq_1, h7]
  show (zero W 23 2 (.sqld (Sz.ofCode (fld W 25 2)) (xr W 8) (xr W 13) (xr W 18)) : Except Reject Instr) = _
  simp only [h1, h2, h3, h4, h5, h6, h7, Sz.ofCode_code, xr, lo8, lane, bv, flag, zero, Except.bind, ofNat_val, ofNat_toNat, if_true, if_false, Nat.reduceBEq, Bool.false_eq_true, true_and, and_true, and_self, or_self, not_false_eq_true, ne_eq, Nat.reduceLT, Nat.reduceLeDiff, Nat.reduceEqDiff, bit_zero, bit_one]
theorem codes_encSqld (z : Sz) (d : XReg) (h : XReg) (i : XReg) : Codes (encSqld z d h i) (.sqld z d h i) := by
  have hb0 := Sz.code_lt z
  have hb1 := d.isLt
  have hb2 := h.isLt
  have hb3 := i.isLt
  show Codes (4, fA (6 * 2 ^ 4 + z.code * 2 ^ 2) i h d 0x16) (.sqld z d h i)
  have F := @fA_fields ((6 * 2 ^ 4 + z.code * 2 ^ 2)) (i.val) (h.val) (d.val) (0x16) (by omega) (by omega) (by omega) (by omega) (by omega)
  obtain ⟨hm, f23_9, f18_5, f13_5, f8_5, f2_6, f0_2⟩ := F
  exact .word hm f0_2 (decodeBits_ofSqld z d h i hm (f0_2.trans (by omega)) (f2_6.trans (by omega)) (f8_5.trans (by omega)) (f13_5.trans (by omega)) (f18_5.trans (by omega)) ((fld_sub (o := 0) (k := 2) f23_9 rfl (by decide)).trans (by omega)) ((fld_sub (o := 2) (k := 2) f23_9 rfl (by decide)).trans (by omega)) ((fld_sub (o := 4) (k := 5) f23_9 rfl (by decide)).trans (by omega)))

theorem decodeBits_ofSqfork (d : XReg) (h : XReg) (b : XReg) {W : Nat} (hm : W < 2 ^ 32) (h0 : fld W 0 2 = 1) (h1 : fld W 2 6 = 22) (h2 : fld W 8 5 = d.val) (h3 : fld W 13 5 = h.val) (h4 : fld W 18 5 = b.val) (h5 : fld W 23 4 = 0) (h6 : fld W 27 5 = 7) : decodeBits W = .ok (.sqfork d h b) := by
  have hb0 := d.isLt
  have hb1 := h.isLt
  have hb2 := b.isLt
  rw [decodeBits_word h0 hm]
  rw [decode32.eq_1, h1]
  show (decodeVine W : Except Reject Instr) = _
  rw [decodeVine.eq_1, h6]
  show (zero W 23 4 (.sqfork (xr W 8) (xr W 13) (xr W 18)) : Except Reject Instr) = _
  simp only [h1, h2, h3, h4, h5, h6, xr, lo8, lane, bv, flag, zero, Except.bind, ofNat_val, ofNat_toNat, if_true, if_false, Nat.reduceBEq, Bool.false_eq_true, true_and, and_true, and_self, or_self, not_false_eq_true, ne_eq, Nat.reduceLT, Nat.reduceLeDiff, Nat.reduceEqDiff, bit_zero, bit_one]
theorem codes_encSqfork (d : XReg) (h : XReg) (b : XReg) : Codes (encSqfork d h b) (.sqfork d h b) := by
  have hb0 := d.isLt
  have hb1 := h.isLt
  have hb2 := b.isLt
  show Codes (4, fA (7 * 2 ^ 4) b h d 0x16) (.sqfork d h b)
  have F := @fA_fields ((7 * 2 ^ 4)) (b.val) (h.val) (d.val) (0x16) (by omega) (by omega) (by omega) (by omega) (by omega)
  obtain ⟨hm, f23_9, f18_5, f13_5, f8_5, f2_6, f0_2⟩ := F
  exact .word hm f0_2 (decodeBits_ofSqfork d h b hm (f0_2.trans (by omega)) (f2_6.trans (by omega)) (f8_5.trans (by omega)) (f13_5.trans (by omega)) (f18_5.trans (by omega)) ((fld_sub (o := 0) (k := 4) f23_9 rfl (by decide)).trans (by omega)) ((fld_sub (o := 4) (k := 5) f23_9 rfl (by decide)).trans (by omega)))

theorem decodeBits_ofSqtrim (d : XReg) (h : XReg) (n : XReg) {W : Nat} (hm : W < 2 ^ 32) (h0 : fld W 0 2 = 1) (h1 : fld W 2 6 = 22) (h2 : fld W 8 5 = d.val) (h3 : fld W 13 5 = h.val) (h4 : fld W 18 5 = n.val) (h5 : fld W 23 4 = 0) (h6 : fld W 27 5 = 8) : decodeBits W = .ok (.sqtrim d h n) := by
  have hb0 := d.isLt
  have hb1 := h.isLt
  have hb2 := n.isLt
  rw [decodeBits_word h0 hm]
  rw [decode32.eq_1, h1]
  show (decodeVine W : Except Reject Instr) = _
  rw [decodeVine.eq_1, h6]
  show (zero W 23 4 (.sqtrim (xr W 8) (xr W 13) (xr W 18)) : Except Reject Instr) = _
  simp only [h1, h2, h3, h4, h5, h6, xr, lo8, lane, bv, flag, zero, Except.bind, ofNat_val, ofNat_toNat, if_true, if_false, Nat.reduceBEq, Bool.false_eq_true, true_and, and_true, and_self, or_self, not_false_eq_true, ne_eq, Nat.reduceLT, Nat.reduceLeDiff, Nat.reduceEqDiff, bit_zero, bit_one]
theorem codes_encSqtrim (d : XReg) (h : XReg) (n : XReg) : Codes (encSqtrim d h n) (.sqtrim d h n) := by
  have hb0 := d.isLt
  have hb1 := h.isLt
  have hb2 := n.isLt
  show Codes (4, fA (8 * 2 ^ 4) n h d 0x16) (.sqtrim d h n)
  have F := @fA_fields ((8 * 2 ^ 4)) (n.val) (h.val) (d.val) (0x16) (by omega) (by omega) (by omega) (by omega) (by omega)
  obtain ⟨hm, f23_9, f18_5, f13_5, f8_5, f2_6, f0_2⟩ := F
  exact .word hm f0_2 (decodeBits_ofSqtrim d h n hm (f0_2.trans (by omega)) (f2_6.trans (by omega)) (f8_5.trans (by omega)) (f13_5.trans (by omega)) (f18_5.trans (by omega)) ((fld_sub (o := 0) (k := 4) f23_9 rfl (by decide)).trans (by omega)) ((fld_sub (o := 4) (k := 5) f23_9 rfl (by decide)).trans (by omega)))

theorem decodeBits_ofSqdrop (h : XReg) {W : Nat} (hm : W < 2 ^ 32) (h0 : fld W 0 2 = 1) (h1 : fld W 2 6 = 22) (h2 : fld W 8 5 = 0) (h3 : fld W 13 5 = h.val) (h4 : fld W 18 9 = 0) (h5 : fld W 27 5 = 9) : decodeBits W = .ok (.sqdrop h) := by
  have hb0 := h.isLt
  rw [decodeBits_word h0 hm]
  rw [decode32.eq_1, h1]
  show (decodeVine W : Except Reject Instr) = _
  rw [decodeVine.eq_1, h5]
  show (zero W 18 9 (.sqdrop (xr W 13)) |>.bind (zero W 8 5) : Except Reject Instr) = _
  simp only [h1, h2, h3, h4, h5, xr, lo8, lane, bv, flag, zero, Except.bind, ofNat_val, ofNat_toNat, if_true, if_false, Nat.reduceBEq, Bool.false_eq_true, true_and, and_true, and_self, or_self, not_false_eq_true, ne_eq, Nat.reduceLT, Nat.reduceLeDiff, Nat.reduceEqDiff, bit_zero, bit_one]
theorem codes_encSqdrop (h : XReg) : Codes (encSqdrop h) (.sqdrop h) := by
  have hb0 := h.isLt
  show Codes (4, fA (9 * 2 ^ 4) 0 h 0 0x16) (.sqdrop h)
  have F := @fA_fields ((9 * 2 ^ 4)) (0) (h.val) (0) (0x16) (by omega) (by omega) (by omega) (by omega) (by omega)
  obtain ⟨hm, f23_9, f18_5, f13_5, f8_5, f2_6, f0_2⟩ := F
  exact .word hm f0_2 (decodeBits_ofSqdrop h hm (f0_2.trans (by omega)) (f2_6.trans (by omega)) (f8_5.trans (by omega)) (f13_5.trans (by omega)) ((fld_app f18_5 (fld_sub (o := 0) (k := 4) f23_9 rfl (by decide)) rfl rfl).trans (by omega)) ((fld_sub (o := 4) (k := 5) f23_9 rfl (by decide)).trans (by omega)))

theorem decodeBits_ofBinit (c : Scope) (a : XReg) (b : XReg) {W : Nat} (hm : W < 2 ^ 32) (h0 : fld W 0 2 = 1) (h1 : fld W 2 6 = 23) (h2 : fld W 8 5 = 0) (h3 : fld W 13 5 = a.val) (h4 : fld W 18 5 = b.val) (h5 : fld W 23 2 = 0) (h6 : fld W 25 2 = c.code) (h7 : fld W 27 1 = 0) (h8 : fld W 28 4 = 0) : decodeBits W = .ok (.binit c a b) := by
  have hb0 := Scope.code_lt c
  have hb1 := a.isLt
  have hb2 := b.isLt
  rw [decodeBits_word h0 hm]
  rw [decode32.eq_1, h1]
  show (decodeBarrier W : Except Reject Instr) = _
  rw [decodeBarrier.eq_1, h8, h7]
  show (zero W 23 2 (.binit (Scope.ofCode (fld W 25 2)) (xr W 13) (xr W 18)) |>.bind (zero W 8 5) : Except Reject Instr) = _
  simp only [h1, h2, h3, h4, h5, h6, h7, h8, Scope.ofCode_code, xr, lo8, lane, bv, flag, zero, Except.bind, ofNat_val, ofNat_toNat, if_true, if_false, Nat.reduceBEq, Bool.false_eq_true, true_and, and_true, and_self, or_self, not_false_eq_true, ne_eq, Nat.reduceLT, Nat.reduceLeDiff, Nat.reduceEqDiff, bit_zero, bit_one]
theorem codes_encBinit (c : Scope) (a : XReg) (b : XReg) : Codes (encBinit c a b) (.binit c a b) := by
  have hb0 := Scope.code_lt c
  have hb1 := a.isLt
  have hb2 := b.isLt
  show Codes (4, fA (0 * 2 ^ 5 + c.code * 2 ^ 2) b a 0 0x17) (.binit c a b)
  have F := @fA_fields ((0 * 2 ^ 5 + c.code * 2 ^ 2)) (b.val) (a.val) (0) (0x17) (by omega) (by omega) (by omega) (by omega) (by omega)
  obtain ⟨hm, f23_9, f18_5, f13_5, f8_5, f2_6, f0_2⟩ := F
  exact .word hm f0_2 (decodeBits_ofBinit c a b hm (f0_2.trans (by omega)) (f2_6.trans (by omega)) (f8_5.trans (by omega)) (f13_5.trans (by omega)) (f18_5.trans (by omega)) ((fld_sub (o := 0) (k := 2) f23_9 rfl (by decide)).trans (by omega)) ((fld_sub (o := 2) (k := 2) f23_9 rfl (by decide)).trans (by omega)) ((fld_sub (o := 4) (k := 1) f23_9 rfl (by decide)).trans (by omega)) ((fld_sub (o := 5) (k := 4) f23_9 rfl (by decide)).trans (by omega)))

theorem decodeBits_ofBarr (c : Scope) (d : XReg) (a : XReg) (mk : MReg) {W : Nat} (hm : W < 2 ^ 32) (h0 : fld W 0 2 = 1) (h1 : fld W 2 6 = 23) (h2 : fld W 8 5 = d.val) (h3 : fld W 13 5 = a.val) (h4 : fld W 18 3 = mk.val) (h5 : fld W 21 2 = 0) (h6 : fld W 23 2 = 0) (h7 : fld W 25 2 = c.code) (h8 : fld W 27 1 = 0) (h9 : fld W 28 4 = 1) : decodeBits W = .ok (.barr c d a mk) := by
  have hb0 := Scope.code_lt c
  have hb1 := d.isLt
  have hb2 := a.isLt
  have hb3 := mk.isLt
  rw [decodeBits_word h0 hm]
  rw [decode32.eq_1, h1]
  show (decodeBarrier W : Except Reject Instr) = _
  rw [decodeBarrier.eq_1, h9, h8]
  show (zero W 23 2 (.barr (Scope.ofCode (fld W 25 2)) (xr W 8) (xr W 13) (lo8 W 18)) |>.bind (zero W 21 2) : Except Reject Instr) = _
  simp only [h1, h2, h3, h4, h5, h6, h7, h8, h9, Scope.ofCode_code, xr, lo8, lane, bv, flag, zero, Except.bind, ofNat_val, ofNat_toNat, if_true, if_false, Nat.reduceBEq, Bool.false_eq_true, true_and, and_true, and_self, or_self, not_false_eq_true, ne_eq, Nat.reduceLT, Nat.reduceLeDiff, Nat.reduceEqDiff, bit_zero, bit_one]
theorem codes_encBarr (c : Scope) (d : XReg) (a : XReg) (mk : MReg) : Codes (encBarr c d a mk) (.barr c d a mk) := by
  have hb0 := Scope.code_lt c
  have hb1 := d.isLt
  have hb2 := a.isLt
  have hb3 := mk.isLt
  show Codes (4, fA (1 * 2 ^ 5 + c.code * 2 ^ 2) mk a d 0x17) (.barr c d a mk)
  have F := @fA_fields ((1 * 2 ^ 5 + c.code * 2 ^ 2)) (mk.val) (a.val) (d.val) (0x17) (by omega) (by omega) (by omega) (by omega) (by omega)
  obtain ⟨hm, f23_9, f18_5, f13_5, f8_5, f2_6, f0_2⟩ := F
  exact .word hm f0_2 (decodeBits_ofBarr c d a mk hm (f0_2.trans (by omega)) (f2_6.trans (by omega)) (f8_5.trans (by omega)) (f13_5.trans (by omega)) ((fld_sub (o := 0) (k := 3) f18_5 rfl (by decide)).trans (by omega)) ((fld_sub (o := 3) (k := 2) f18_5 rfl (by decide)).trans (by omega)) ((fld_sub (o := 0) (k := 2) f23_9 rfl (by decide)).trans (by omega)) ((fld_sub (o := 2) (k := 2) f23_9 rfl (by decide)).trans (by omega)) ((fld_sub (o := 4) (k := 1) f23_9 rfl (by decide)).trans (by omega)) ((fld_sub (o := 5) (k := 4) f23_9 rfl (by decide)).trans (by omega)))

theorem decodeBits_ofBarrG (d : XReg) (k : Fin 6) (mk : MReg) {W : Nat} (hm : W < 2 ^ 32) (h0 : fld W 0 2 = 1) (h1 : fld W 2 6 = 23) (h2 : fld W 8 5 = d.val) (h3 : fld W 13 5 = k.val) (h4 : fld W 18 3 = mk.val) (h5 : fld W 21 2 = 0) (h6 : fld W 23 4 = 0) (h7 : fld W 27 1 = 1) (h8 : fld W 28 4 = 1) : decodeBits W = .ok (.barrG d k mk) := by
  have hb0 := d.isLt
  have hb1 := k.isLt
  have hb2 := mk.isLt
  rw [decodeBits_word h0 hm]
  rw [decode32.eq_1, h1]
  show (decodeBarrier W : Except Reject Instr) = _
  rw [decodeBarrier.eq_1, h8, h7]
  show (if fld W 13 5 < 6 then zero W 23 4 (.barrG (xr W 8) (Fin.ofNat 6 (fld W 13 5)) (lo8 W 18)) |>.bind (zero W 21 2) else .error .unlisted : Except Reject Instr) = _
  simp only [h1, h2, h3, h4, h5, h6, h7, h8, xr, lo8, lane, bv, flag, zero, Except.bind, ofNat_val, ofNat_toNat, if_true, if_false, Nat.reduceBEq, Bool.false_eq_true, true_and, and_true, and_self, or_self, not_false_eq_true, ne_eq, Nat.reduceLT, Nat.reduceLeDiff, Nat.reduceEqDiff, bit_zero, bit_one, hb1]
theorem codes_encBarrG (d : XReg) (k : Fin 6) (mk : MReg) : Codes (encBarrG d k mk) (.barrG d k mk) := by
  have hb0 := d.isLt
  have hb1 := k.isLt
  have hb2 := mk.isLt
  show Codes (4, fA (1 * 2 ^ 5 + 2 ^ 4) mk k d 0x17) (.barrG d k mk)
  have F := @fA_fields ((1 * 2 ^ 5 + 2 ^ 4)) (mk.val) (k.val) (d.val) (0x17) (by omega) (by omega) (by omega) (by omega) (by omega)
  obtain ⟨hm, f23_9, f18_5, f13_5, f8_5, f2_6, f0_2⟩ := F
  exact .word hm f0_2 (decodeBits_ofBarrG d k mk hm (f0_2.trans (by omega)) (f2_6.trans (by omega)) (f8_5.trans (by omega)) (f13_5.trans (by omega)) ((fld_sub (o := 0) (k := 3) f18_5 rfl (by decide)).trans (by omega)) ((fld_sub (o := 3) (k := 2) f18_5 rfl (by decide)).trans (by omega)) ((fld_sub (o := 0) (k := 4) f23_9 rfl (by decide)).trans (by omega)) ((fld_sub (o := 4) (k := 1) f23_9 rfl (by decide)).trans (by omega)) ((fld_sub (o := 5) (k := 4) f23_9 rfl (by decide)).trans (by omega)))

theorem decodeBits_ofBtest (c : Scope) (d : XReg) (a : XReg) (b : XReg) {W : Nat} (hm : W < 2 ^ 32) (h0 : fld W 0 2 = 1) (h1 : fld W 2 6 = 23) (h2 : fld W 8 5 = d.val) (h3 : fld W 13 5 = a.val) (h4 : fld W 18 5 = b.val) (h5 : fld W 23 2 = 0) (h6 : fld W 25 2 = c.code) (h7 : fld W 27 1 = 0) (h8 : fld W 28 4 = 2) : decodeBits W = .ok (.btest c d a b) := by
  have hb0 := Scope.code_lt c
  have hb1 := d.isLt
  have hb2 := a.isLt
  have hb3 := b.isLt
  rw [decodeBits_word h0 hm]
  rw [decode32.eq_1, h1]
  show (decodeBarrier W : Except Reject Instr) = _
  rw [decodeBarrier.eq_1, h8, h7]
  show (zero W 23 2 (.btest (Scope.ofCode (fld W 25 2)) (xr W 8) (xr W 13) (xr W 18)) : Except Reject Instr) = _
  simp only [h1, h2, h3, h4, h5, h6, h7, h8, Scope.ofCode_code, xr, lo8, lane, bv, flag, zero, Except.bind, ofNat_val, ofNat_toNat, if_true, if_false, Nat.reduceBEq, Bool.false_eq_true, true_and, and_true, and_self, or_self, not_false_eq_true, ne_eq, Nat.reduceLT, Nat.reduceLeDiff, Nat.reduceEqDiff, bit_zero, bit_one]
theorem codes_encBtest (c : Scope) (d : XReg) (a : XReg) (b : XReg) : Codes (encBtest c d a b) (.btest c d a b) := by
  have hb0 := Scope.code_lt c
  have hb1 := d.isLt
  have hb2 := a.isLt
  have hb3 := b.isLt
  show Codes (4, fA (2 * 2 ^ 5 + c.code * 2 ^ 2) b a d 0x17) (.btest c d a b)
  have F := @fA_fields ((2 * 2 ^ 5 + c.code * 2 ^ 2)) (b.val) (a.val) (d.val) (0x17) (by omega) (by omega) (by omega) (by omega) (by omega)
  obtain ⟨hm, f23_9, f18_5, f13_5, f8_5, f2_6, f0_2⟩ := F
  exact .word hm f0_2 (decodeBits_ofBtest c d a b hm (f0_2.trans (by omega)) (f2_6.trans (by omega)) (f8_5.trans (by omega)) (f13_5.trans (by omega)) (f18_5.trans (by omega)) ((fld_sub (o := 0) (k := 2) f23_9 rfl (by decide)).trans (by omega)) ((fld_sub (o := 2) (k := 2) f23_9 rfl (by decide)).trans (by omega)) ((fld_sub (o := 4) (k := 1) f23_9 rfl (by decide)).trans (by omega)) ((fld_sub (o := 5) (k := 4) f23_9 rfl (by decide)).trans (by omega)))

theorem decodeBits_ofBwait (c : Scope) (a : XReg) (b : XReg) {W : Nat} (hm : W < 2 ^ 32) (h0 : fld W 0 2 = 1) (h1 : fld W 2 6 = 23) (h2 : fld W 8 5 = 0) (h3 : fld W 13 5 = a.val) (h4 : fld W 18 5 = b.val) (h5 : fld W 23 2 = 0) (h6 : fld W 25 2 = c.code) (h7 : fld W 27 1 = 0) (h8 : fld W 28 4 = 3) : decodeBits W = .ok (.bwait c a b) := by
  have hb0 := Scope.code_lt c
  have hb1 := a.isLt
  have hb2 := b.isLt
  rw [decodeBits_word h0 hm]
  rw [decode32.eq_1, h1]
  show (decodeBarrier W : Except Reject Instr) = _
  rw [decodeBarrier.eq_1, h8, h7]
  show (zero W 23 2 (.bwait (Scope.ofCode (fld W 25 2)) (xr W 13) (xr W 18)) |>.bind (zero W 8 5) : Except Reject Instr) = _
  simp only [h1, h2, h3, h4, h5, h6, h7, h8, Scope.ofCode_code, xr, lo8, lane, bv, flag, zero, Except.bind, ofNat_val, ofNat_toNat, if_true, if_false, Nat.reduceBEq, Bool.false_eq_true, true_and, and_true, and_self, or_self, not_false_eq_true, ne_eq, Nat.reduceLT, Nat.reduceLeDiff, Nat.reduceEqDiff, bit_zero, bit_one]
theorem codes_encBwait (c : Scope) (a : XReg) (b : XReg) : Codes (encBwait c a b) (.bwait c a b) := by
  have hb0 := Scope.code_lt c
  have hb1 := a.isLt
  have hb2 := b.isLt
  show Codes (4, fA (3 * 2 ^ 5 + c.code * 2 ^ 2) b a 0 0x17) (.bwait c a b)
  have F := @fA_fields ((3 * 2 ^ 5 + c.code * 2 ^ 2)) (b.val) (a.val) (0) (0x17) (by omega) (by omega) (by omega) (by omega) (by omega)
  obtain ⟨hm, f23_9, f18_5, f13_5, f8_5, f2_6, f0_2⟩ := F
  exact .word hm f0_2 (decodeBits_ofBwait c a b hm (f0_2.trans (by omega)) (f2_6.trans (by omega)) (f8_5.trans (by omega)) (f13_5.trans (by omega)) (f18_5.trans (by omega)) ((fld_sub (o := 0) (k := 2) f23_9 rfl (by decide)).trans (by omega)) ((fld_sub (o := 2) (k := 2) f23_9 rfl (by decide)).trans (by omega)) ((fld_sub (o := 4) (k := 1) f23_9 rfl (by decide)).trans (by omega)) ((fld_sub (o := 5) (k := 4) f23_9 rfl (by decide)).trans (by omega)))

theorem decodeBits_ofBwaitG (k : Fin 6) {W : Nat} (hm : W < 2 ^ 32) (h0 : fld W 0 2 = 1) (h1 : fld W 2 6 = 23) (h2 : fld W 8 5 = 0) (h3 : fld W 13 5 = k.val) (h4 : fld W 18 9 = 0) (h5 : fld W 27 1 = 1) (h6 : fld W 28 4 = 3) : decodeBits W = .ok (.bwaitG k) := by
  have hb0 := k.isLt
  rw [decodeBits_word h0 hm]
  rw [decode32.eq_1, h1]
  show (decodeBarrier W : Except Reject Instr) = _
  rw [decodeBarrier.eq_1, h6, h5]
  show (if fld W 13 5 < 6 then zero W 18 9 (.bwaitG (Fin.ofNat 6 (fld W 13 5))) |>.bind (zero W 8 5) else .error .unlisted : Except Reject Instr) = _
  simp only [h1, h2, h3, h4, h5, h6, xr, lo8, lane, bv, flag, zero, Except.bind, ofNat_val, ofNat_toNat, if_true, if_false, Nat.reduceBEq, Bool.false_eq_true, true_and, and_true, and_self, or_self, not_false_eq_true, ne_eq, Nat.reduceLT, Nat.reduceLeDiff, Nat.reduceEqDiff, bit_zero, bit_one, hb0]
theorem codes_encBwaitG (k : Fin 6) : Codes (encBwaitG k) (.bwaitG k) := by
  have hb0 := k.isLt
  show Codes (4, fA (3 * 2 ^ 5 + 2 ^ 4) 0 k 0 0x17) (.bwaitG k)
  have F := @fA_fields ((3 * 2 ^ 5 + 2 ^ 4)) (0) (k.val) (0) (0x17) (by omega) (by omega) (by omega) (by omega) (by omega)
  obtain ⟨hm, f23_9, f18_5, f13_5, f8_5, f2_6, f0_2⟩ := F
  exact .word hm f0_2 (decodeBits_ofBwaitG k hm (f0_2.trans (by omega)) (f2_6.trans (by omega)) (f8_5.trans (by omega)) (f13_5.trans (by omega)) ((fld_app f18_5 (fld_sub (o := 0) (k := 4) f23_9 rfl (by decide)) rfl rfl).trans (by omega)) ((fld_sub (o := 4) (k := 1) f23_9 rfl (by decide)).trans (by omega)) ((fld_sub (o := 5) (k := 4) f23_9 rfl (by decide)).trans (by omega)))

theorem decodeBits_ofSignal (c : Scope) (a : XReg) (b : XReg) {W : Nat} (hm : W < 2 ^ 32) (h0 : fld W 0 2 = 1) (h1 : fld W 2 6 = 23) (h2 : fld W 8 5 = 0) (h3 : fld W 13 5 = a.val) (h4 : fld W 18 5 = b.val) (h5 : fld W 23 2 = 0) (h6 : fld W 25 2 = c.code) (h7 : fld W 27 1 = 0) (h8 : fld W 28 4 = 4) : decodeBits W = .ok (.signal c a b) := by
  have hb0 := Scope.code_lt c
  have hb1 := a.isLt
  have hb2 := b.isLt
  rw [decodeBits_word h0 hm]
  rw [decode32.eq_1, h1]
  show (decodeBarrier W : Except Reject Instr) = _
  rw [decodeBarrier.eq_1, h8, h7]
  show (zero W 23 2 (.signal (Scope.ofCode (fld W 25 2)) (xr W 13) (xr W 18)) |>.bind (zero W 8 5) : Except Reject Instr) = _
  simp only [h1, h2, h3, h4, h5, h6, h7, h8, Scope.ofCode_code, xr, lo8, lane, bv, flag, zero, Except.bind, ofNat_val, ofNat_toNat, if_true, if_false, Nat.reduceBEq, Bool.false_eq_true, true_and, and_true, and_self, or_self, not_false_eq_true, ne_eq, Nat.reduceLT, Nat.reduceLeDiff, Nat.reduceEqDiff, bit_zero, bit_one]
theorem codes_encSignal (c : Scope) (a : XReg) (b : XReg) : Codes (encSignal c a b) (.signal c a b) := by
  have hb0 := Scope.code_lt c
  have hb1 := a.isLt
  have hb2 := b.isLt
  show Codes (4, fA (4 * 2 ^ 5 + c.code * 2 ^ 2) b a 0 0x17) (.signal c a b)
  have F := @fA_fields ((4 * 2 ^ 5 + c.code * 2 ^ 2)) (b.val) (a.val) (0) (0x17) (by omega) (by omega) (by omega) (by omega) (by omega)
  obtain ⟨hm, f23_9, f18_5, f13_5, f8_5, f2_6, f0_2⟩ := F
  exact .word hm f0_2 (decodeBits_ofSignal c a b hm (f0_2.trans (by omega)) (f2_6.trans (by omega)) (f8_5.trans (by omega)) (f13_5.trans (by omega)) (f18_5.trans (by omega)) ((fld_sub (o := 0) (k := 2) f23_9 rfl (by decide)).trans (by omega)) ((fld_sub (o := 2) (k := 2) f23_9 rfl (by decide)).trans (by omega)) ((fld_sub (o := 4) (k := 1) f23_9 rfl (by decide)).trans (by omega)) ((fld_sub (o := 5) (k := 4) f23_9 rfl (by decide)).trans (by omega)))

theorem decodeBits_ofGread (d : XReg) (k : Fin 6) (sel : Fin 5) {W : Nat} (hm : W < 2 ^ 32) (h0 : fld W 0 2 = 1) (h1 : fld W 2 6 = 23) (h2 : fld W 8 5 = d.val) (h3 : fld W 13 5 = k.val) (h4 : fld W 18 5 = sel.val) (h5 : fld W 23 4 = 0) (h6 : fld W 27 1 = 0) (h7 : fld W 28 4 = 5) : decodeBits W = .ok (.gread d k sel) := by
  have hb0 := d.isLt
  have hb1 := k.isLt
  have hb2 := sel.isLt
  rw [decodeBits_word h0 hm]
  rw [decode32.eq_1, h1]
  show (decodeBarrier W : Except Reject Instr) = _
  rw [decodeBarrier.eq_1, h7, h6]
  show (if fld W 13 5 < 6 ∧ fld W 18 5 < 5 then zero W 23 4 (.gread (xr W 8) (Fin.ofNat 6 (fld W 13 5)) (Fin.ofNat 5 (fld W 18 5))) else .error .unlisted : Except Reject Instr) = _
  simp only [h1, h2, h3, h4, h5, h6, h7, xr, lo8, lane, bv, flag, zero, Except.bind, ofNat_val, ofNat_toNat, if_true, if_false, Nat.reduceBEq, Bool.false_eq_true, true_and, and_true, and_self, or_self, not_false_eq_true, ne_eq, Nat.reduceLT, Nat.reduceLeDiff, Nat.reduceEqDiff, bit_zero, bit_one, hb1, hb2]
theorem codes_encGread (d : XReg) (k : Fin 6) (sel : Fin 5) : Codes (encGread d k sel) (.gread d k sel) := by
  have hb0 := d.isLt
  have hb1 := k.isLt
  have hb2 := sel.isLt
  show Codes (4, fA (5 * 2 ^ 5) sel k d 0x17) (.gread d k sel)
  have F := @fA_fields ((5 * 2 ^ 5)) (sel.val) (k.val) (d.val) (0x17) (by omega) (by omega) (by omega) (by omega) (by omega)
  obtain ⟨hm, f23_9, f18_5, f13_5, f8_5, f2_6, f0_2⟩ := F
  exact .word hm f0_2 (decodeBits_ofGread d k sel hm (f0_2.trans (by omega)) (f2_6.trans (by omega)) (f8_5.trans (by omega)) (f13_5.trans (by omega)) (f18_5.trans (by omega)) ((fld_sub (o := 0) (k := 4) f23_9 rfl (by decide)).trans (by omega)) ((fld_sub (o := 4) (k := 1) f23_9 rfl (by decide)).trans (by omega)) ((fld_sub (o := 5) (k := 4) f23_9 rfl (by decide)).trans (by omega)))

theorem decodeBits_ofQapp (d : XReg) (q : XReg) (s : XReg) {W : Nat} (hm : W < 2 ^ 32) (h0 : fld W 0 2 = 1) (h1 : fld W 2 6 = 23) (h2 : fld W 8 5 = d.val) (h3 : fld W 13 5 = q.val) (h4 : fld W 18 5 = s.val) (h5 : fld W 23 4 = 0) (h6 : fld W 27 1 = 0) (h7 : fld W 28 4 = 6) : decodeBits W = .ok (.qapp d q s) := by
  have hb0 := d.isLt
  have hb1 := q.isLt
  have hb2 := s.isLt
  rw [decodeBits_word h0 hm]
  rw [decode32.eq_1, h1]
  show (decodeBarrier W : Except Reject Instr) = _
  rw [decodeBarrier.eq_1, h7, h6]
  show (zero W 23 4 (.qapp (xr W 8) (xr W 13) (xr W 18)) : Except Reject Instr) = _
  simp only [h1, h2, h3, h4, h5, h6, h7, xr, lo8, lane, bv, flag, zero, Except.bind, ofNat_val, ofNat_toNat, if_true, if_false, Nat.reduceBEq, Bool.false_eq_true, true_and, and_true, and_self, or_self, not_false_eq_true, ne_eq, Nat.reduceLT, Nat.reduceLeDiff, Nat.reduceEqDiff, bit_zero, bit_one]
theorem codes_encQapp (d : XReg) (q : XReg) (s : XReg) : Codes (encQapp d q s) (.qapp d q s) := by
  have hb0 := d.isLt
  have hb1 := q.isLt
  have hb2 := s.isLt
  show Codes (4, fA (6 * 2 ^ 5) s q d 0x17) (.qapp d q s)
  have F := @fA_fields ((6 * 2 ^ 5)) (s.val) (q.val) (d.val) (0x17) (by omega) (by omega) (by omega) (by omega) (by omega)
  obtain ⟨hm, f23_9, f18_5, f13_5, f8_5, f2_6, f0_2⟩ := F
  exact .word hm f0_2 (decodeBits_ofQapp d q s hm (f0_2.trans (by omega)) (f2_6.trans (by omega)) (f8_5.trans (by omega)) (f13_5.trans (by omega)) (f18_5.trans (by omega)) ((fld_sub (o := 0) (k := 4) f23_9 rfl (by decide)).trans (by omega)) ((fld_sub (o := 4) (k := 1) f23_9 rfl (by decide)).trans (by omega)) ((fld_sub (o := 5) (k := 4) f23_9 rfl (by decide)).trans (by omega)))

theorem decodeBits_ofQwait (q : XReg) (n : XReg) {W : Nat} (hm : W < 2 ^ 32) (h0 : fld W 0 2 = 1) (h1 : fld W 2 6 = 23) (h2 : fld W 8 5 = 0) (h3 : fld W 13 5 = q.val) (h4 : fld W 18 5 = n.val) (h5 : fld W 23 4 = 0) (h6 : fld W 27 1 = 0) (h7 : fld W 28 4 = 7) : decodeBits W = .ok (.qwait q n) := by
  have hb0 := q.isLt
  have hb1 := n.isLt
  rw [decodeBits_word h0 hm]
  rw [decode32.eq_1, h1]
  show (decodeBarrier W : Except Reject Instr) = _
  rw [decodeBarrier.eq_1, h7, h6]
  show (zero W 23 4 (.qwait (xr W 13) (xr W 18)) |>.bind (zero W 8 5) : Except Reject Instr) = _
  simp only [h1, h2, h3, h4, h5, h6, h7, xr, lo8, lane, bv, flag, zero, Except.bind, ofNat_val, ofNat_toNat, if_true, if_false, Nat.reduceBEq, Bool.false_eq_true, true_and, and_true, and_self, or_self, not_false_eq_true, ne_eq, Nat.reduceLT, Nat.reduceLeDiff, Nat.reduceEqDiff, bit_zero, bit_one]
theorem codes_encQwait (q : XReg) (n : XReg) : Codes (encQwait q n) (.qwait q n) := by
  have hb0 := q.isLt
  have hb1 := n.isLt
  show Codes (4, fA (7 * 2 ^ 5) n q 0 0x17) (.qwait q n)
  have F := @fA_fields ((7 * 2 ^ 5)) (n.val) (q.val) (0) (0x17) (by omega) (by omega) (by omega) (by omega) (by omega)
  obtain ⟨hm, f23_9, f18_5, f13_5, f8_5, f2_6, f0_2⟩ := F
  exact .word hm f0_2 (decodeBits_ofQwait q n hm (f0_2.trans (by omega)) (f2_6.trans (by omega)) (f8_5.trans (by omega)) (f13_5.trans (by omega)) (f18_5.trans (by omega)) ((fld_sub (o := 0) (k := 4) f23_9 rfl (by decide)).trans (by omega)) ((fld_sub (o := 4) (k := 1) f23_9 rfl (by decide)).trans (by omega)) ((fld_sub (o := 5) (k := 4) f23_9 rfl (by decide)).trans (by omega)))

end Sys2Proof
end

