-- ==== Sys2Proof/Laws/WordsVector.lean ====
section
/-! SUPPORT. Each encoded word of the vector and matrix instructions decodes to its instruction. -/

set_option linter.unusedSimpArgs false
set_option linter.unusedVariables false

namespace Sys2Proof

theorem decodeBits_ofVcfg (d : XReg) (a : XReg) {W : Nat} (hm : W < 2 ^ 32) (h0 : fld W 0 2 = 1) (h1 : fld W 2 6 = 32) (h2 : fld W 8 5 = d.val) (h3 : fld W 13 5 = a.val) (h4 : fld W 18 5 = 0) (h5 : fld W 23 6 = 0) (h6 : fld W 29 3 = 0) : decodeBits W = .ok (.vcfg d a) := by
  have hb0 := d.isLt
  have hb1 := a.isLt
  rw [decodeBits_word h0 hm]
  rw [decode32.eq_1, h1]
  show (decodeConfig W : Except Reject Instr) = _
  rw [decodeConfig.eq_1, h6, h5]
  show (zero W 18 5 (.vcfg (xr W 8) (xr W 13)) : Except Reject Instr) = _
  simp only [h1, h2, h3, h4, h5, h6, xr, lo8, lane, bv, flag, zero, Except.bind, ofNat_val, ofNat_toNat, if_true, if_false, Nat.reduceBEq, Bool.false_eq_true, true_and, and_true, and_self, or_self, not_false_eq_true, ne_eq, Nat.reduceLT, Nat.reduceLeDiff, Nat.reduceEqDiff, bit_zero, bit_one]
theorem codes_encVcfg (d : XReg) (a : XReg) : Codes (encVcfg d a) (.vcfg d a) := by
  have hb0 := d.isLt
  have hb1 := a.isLt
  show Codes (4, fA 0x000 0 a d 0x20) (.vcfg d a)
  have F := @fA_fields (0x000) (0) (a.val) (d.val) (0x20) (by omega) (by omega) (by omega) (by omega) (by omega)
  obtain ⟨hm, f23_9, f18_5, f13_5, f8_5, f2_6, f0_2⟩ := F
  exact .word hm f0_2 (decodeBits_ofVcfg d a hm (f0_2.trans (by omega)) (f2_6.trans (by omega)) (f8_5.trans (by omega)) (f13_5.trans (by omega)) (f18_5.trans (by omega)) ((fld_sub (o := 0) (k := 6) f23_9 rfl (by decide)).trans (by omega)) ((fld_sub (o := 6) (k := 3) f23_9 rfl (by decide)).trans (by omega)))

theorem decodeBits_ofVsetvl (d : XReg) (a : XReg) {W : Nat} (hm : W < 2 ^ 32) (h0 : fld W 0 2 = 1) (h1 : fld W 2 6 = 32) (h2 : fld W 8 5 = d.val) (h3 : fld W 13 5 = a.val) (h4 : fld W 18 5 = 0) (h5 : fld W 23 6 = 0) (h6 : fld W 29 3 = 1) : decodeBits W = .ok (.vsetvl d a) := by
  have hb0 := d.isLt
  have hb1 := a.isLt
  rw [decodeBits_word h0 hm]
  rw [decode32.eq_1, h1]
  show (decodeConfig W : Except Reject Instr) = _
  rw [decodeConfig.eq_1, h6, h5]
  show (zero W 18 5 (.vsetvl (xr W 8) (xr W 13)) : Except Reject Instr) = _
  simp only [h1, h2, h3, h4, h5, h6, xr, lo8, lane, bv, flag, zero, Except.bind, ofNat_val, ofNat_toNat, if_true, if_false, Nat.reduceBEq, Bool.false_eq_true, true_and, and_true, and_self, or_self, not_false_eq_true, ne_eq, Nat.reduceLT, Nat.reduceLeDiff, Nat.reduceEqDiff, bit_zero, bit_one]
theorem codes_encVsetvl (d : XReg) (a : XReg) : Codes (encVsetvl d a) (.vsetvl d a) := by
  have hb0 := d.isLt
  have hb1 := a.isLt
  show Codes (4, fA 0x040 0 a d 0x20) (.vsetvl d a)
  have F := @fA_fields (0x040) (0) (a.val) (d.val) (0x20) (by omega) (by omega) (by omega) (by omega) (by omega)
  obtain ⟨hm, f23_9, f18_5, f13_5, f8_5, f2_6, f0_2⟩ := F
  exact .word hm f0_2 (decodeBits_ofVsetvl d a hm (f0_2.trans (by omega)) (f2_6.trans (by omega)) (f8_5.trans (by omega)) (f13_5.trans (by omega)) (f18_5.trans (by omega)) ((fld_sub (o := 0) (k := 6) f23_9 rfl (by decide)).trans (by omega)) ((fld_sub (o := 6) (k := 3) f23_9 rfl (by decide)).trans (by omega)))

theorem decodeBits_ofVtag (t : BitVec 6) (n1 : Fin 32) (d : VReg) {W : Nat} (hm : W < 2 ^ 32) (h0 : fld W 0 2 = 1) (h1 : fld W 2 6 = 32) (h2 : fld W 8 5 = d.val) (h3 : fld W 13 5 = n1.val) (h4 : fld W 18 5 = 0) (h5 : fld W 23 6 = t.toNat) (h6 : fld W 29 3 = 2) : decodeBits W = .ok (.vtag t n1 d) := by
  have hb0 := t.isLt
  have hb1 := n1.isLt
  have hb2 := d.isLt
  rw [decodeBits_word h0 hm]
  rw [decode32.eq_1, h1]
  show (decodeConfig W : Except Reject Instr) = _
  rw [decodeConfig.eq_1, h6, h5]
  show (zero W 18 5 (.vtag (bv 6 W 23) (xr W 13) (xr W 8)) : Except Reject Instr) = _
  simp only [h1, h2, h3, h4, h5, h6, xr, lo8, lane, bv, flag, zero, Except.bind, ofNat_val, ofNat_toNat, if_true, if_false, Nat.reduceBEq, Bool.false_eq_true, true_and, and_true, and_self, or_self, not_false_eq_true, ne_eq, Nat.reduceLT, Nat.reduceLeDiff, Nat.reduceEqDiff, bit_zero, bit_one, hb1]
theorem codes_encVtag (t : BitVec 6) (n1 : Fin 32) (d : VReg) : Codes (encVtag t n1 d) (.vtag t n1 d) := by
  have hb0 := t.isLt
  have hb1 := n1.isLt
  have hb2 := d.isLt
  show Codes (4, fA (0x080 + t.toNat) 0 n1 d 0x20) (.vtag t n1 d)
  have F := @fA_fields ((0x080 + t.toNat)) (0) (n1.val) (d.val) (0x20) (by omega) (by omega) (by omega) (by omega) (by omega)
  obtain ⟨hm, f23_9, f18_5, f13_5, f8_5, f2_6, f0_2⟩ := F
  exact .word hm f0_2 (decodeBits_ofVtag t n1 d hm (f0_2.trans (by omega)) (f2_6.trans (by omega)) (f8_5.trans (by omega)) (f13_5.trans (by omega)) (f18_5.trans (by omega)) ((fld_sub (o := 0) (k := 6) f23_9 rfl (by decide)).trans (by omega)) ((fld_sub (o := 6) (k := 3) f23_9 rfl (by decide)).trans (by omega)))

theorem decodeBits_ofVtagrd (d : XReg) (a : VReg) {W : Nat} (hm : W < 2 ^ 32) (h0 : fld W 0 2 = 1) (h1 : fld W 2 6 = 32) (h2 : fld W 8 5 = d.val) (h3 : fld W 13 5 = a.val) (h4 : fld W 18 5 = 0) (h5 : fld W 23 6 = 0) (h6 : fld W 29 3 = 3) : decodeBits W = .ok (.vtagrd d a) := by
  have hb0 := d.isLt
  have hb1 := a.isLt
  rw [decodeBits_word h0 hm]
  rw [decode32.eq_1, h1]
  show (decodeConfig W : Except Reject Instr) = _
  rw [decodeConfig.eq_1, h6, h5]
  show (zero W 18 5 (.vtagrd (xr W 8) (xr W 13)) : Except Reject Instr) = _
  simp only [h1, h2, h3, h4, h5, h6, xr, lo8, lane, bv, flag, zero, Except.bind, ofNat_val, ofNat_toNat, if_true, if_false, Nat.reduceBEq, Bool.false_eq_true, true_and, and_true, and_self, or_self, not_false_eq_true, ne_eq, Nat.reduceLT, Nat.reduceLeDiff, Nat.reduceEqDiff, bit_zero, bit_one]
theorem codes_encVtagrd (d : XReg) (a : VReg) : Codes (encVtagrd d a) (.vtagrd d a) := by
  have hb0 := d.isLt
  have hb1 := a.isLt
  show Codes (4, fA 0x0C0 0 a d 0x20) (.vtagrd d a)
  have F := @fA_fields (0x0C0) (0) (a.val) (d.val) (0x20) (by omega) (by omega) (by omega) (by omega) (by omega)
  obtain ⟨hm, f23_9, f18_5, f13_5, f8_5, f2_6, f0_2⟩ := F
  exact .word hm f0_2 (decodeBits_ofVtagrd d a hm (f0_2.trans (by omega)) (f2_6.trans (by omega)) (f8_5.trans (by omega)) (f13_5.trans (by omega)) (f18_5.trans (by omega)) ((fld_sub (o := 0) (k := 6) f23_9 rfl (by decide)).trans (by omega)) ((fld_sub (o := 6) (k := 3) f23_9 rfl (by decide)).trans (by omega)))

theorem decodeBits_ofVadd_vv (c : Bool) (m : Bool) (d : VReg) (a : VReg) (r : VReg) {W : Nat} (hm : W < 2 ^ 32) (h0 : fld W 0 2 = 1) (h1 : fld W 2 6 = 33) (h2 : fld W 8 5 = d.val) (h3 : fld W 13 5 = a.val) (h5 : fld W 18 5 = r.val) (h7 : fld W 23 2 = 0) (h8 : fld W 25 1 = (bit m)) (h9 : fld W 26 1 = (bit c)) (h10 : fld W 27 5 = 0) : decodeBits W = .ok (.vadd c m d a (.vv r)) := by
  have hb0 := bit_lt c
  have hb1 := bit_lt m
  have hb2 := d.isLt
  have hb3 := a.isLt
  rw [decodeBits_word h0 hm]
  rw [decode32.eq_1, h1]
  show (decodeV21 W : Except Reject Instr) = _
  rw [decodeV21.eq_1, h10]
  show (src W fun b => .vadd (flag W 26) (flag W 25) (xr W 8) (xr W 13) b : Except Reject Instr) = _
  simp only [h1, h2, h3, h5, h7, h8, h9, h10, src, bit_beq, xr, lo8, lane, bv, flag, zero, Except.bind, ofNat_val, ofNat_toNat, if_true, if_false, Nat.reduceBEq, Bool.false_eq_true, true_and, and_true, and_self, or_self, not_false_eq_true, ne_eq, Nat.reduceLT, Nat.reduceLeDiff, Nat.reduceEqDiff, bit_zero, bit_one]
theorem decodeBits_ofVadd_vx (c : Bool) (m : Bool) (d : VReg) (a : VReg) (r : XReg) {W : Nat} (hm : W < 2 ^ 32) (h0 : fld W 0 2 = 1) (h1 : fld W 2 6 = 33) (h2 : fld W 8 5 = d.val) (h3 : fld W 13 5 = a.val) (h5 : fld W 18 5 = r.val) (h7 : fld W 23 2 = 1) (h8 : fld W 25 1 = (bit m)) (h9 : fld W 26 1 = (bit c)) (h10 : fld W 27 5 = 0) : decodeBits W = .ok (.vadd c m d a (.vx r)) := by
  have hb0 := bit_lt c
  have hb1 := bit_lt m
  have hb2 := d.isLt
  have hb3 := a.isLt
  rw [decodeBits_word h0 hm]
  rw [decode32.eq_1, h1]
  show (decodeV21 W : Except Reject Instr) = _
  rw [decodeV21.eq_1, h10]
  show (src W fun b => .vadd (flag W 26) (flag W 25) (xr W 8) (xr W 13) b : Except Reject Instr) = _
  simp only [h1, h2, h3, h5, h7, h8, h9, h10, src, bit_beq, xr, lo8, lane, bv, flag, zero, Except.bind, ofNat_val, ofNat_toNat, if_true, if_false, Nat.reduceBEq, Bool.false_eq_true, true_and, and_true, and_self, or_self, not_false_eq_true, ne_eq, Nat.reduceLT, Nat.reduceLeDiff, Nat.reduceEqDiff, bit_zero, bit_one]
theorem decodeBits_ofVadd_vi (c : Bool) (m : Bool) (d : VReg) (a : VReg) (r : BitVec 5) {W : Nat} (hm : W < 2 ^ 32) (h0 : fld W 0 2 = 1) (h1 : fld W 2 6 = 33) (h2 : fld W 8 5 = d.val) (h3 : fld W 13 5 = a.val) (h5 : fld W 18 5 = r.toNat) (h7 : fld W 23 2 = 2) (h8 : fld W 25 1 = (bit m)) (h9 : fld W 26 1 = (bit c)) (h10 : fld W 27 5 = 0) : decodeBits W = .ok (.vadd c m d a (.vi r)) := by
  have hb0 := bit_lt c
  have hb1 := bit_lt m
  have hb2 := d.isLt
  have hb3 := a.isLt
  rw [decodeBits_word h0 hm]
  rw [decode32.eq_1, h1]
  show (decodeV21 W : Except Reject Instr) = _
  rw [decodeV21.eq_1, h10]
  show (src W fun b => .vadd (flag W 26) (flag W 25) (xr W 8) (xr W 13) b : Except Reject Instr) = _
  simp only [h1, h2, h3, h5, h7, h8, h9, h10, src, bit_beq, xr, lo8, lane, bv, flag, zero, Except.bind, ofNat_val, ofNat_toNat, if_true, if_false, Nat.reduceBEq, Bool.false_eq_true, true_and, and_true, and_self, or_self, not_false_eq_true, ne_eq, Nat.reduceLT, Nat.reduceLeDiff, Nat.reduceEqDiff, bit_zero, bit_one]
theorem decodeBits_ofVadd_vs (c : Bool) (m : Bool) (d : VReg) (a : VReg) (r : SReg) {W : Nat} (hm : W < 2 ^ 32) (h0 : fld W 0 2 = 1) (h1 : fld W 2 6 = 33) (h2 : fld W 8 5 = d.val) (h3 : fld W 13 5 = a.val) (h4 : fld W 18 2 = r.val) (h5 : fld W 18 5 = r.val) (h6 : fld W 20 3 = 0) (h7 : fld W 23 2 = 3) (h8 : fld W 25 1 = (bit m)) (h9 : fld W 26 1 = (bit c)) (h10 : fld W 27 5 = 0) : decodeBits W = .ok (.vadd c m d a (.vs r)) := by
  have hb0 := bit_lt c
  have hb1 := bit_lt m
  have hb2 := d.isLt
  have hb3 := a.isLt
  rw [decodeBits_word h0 hm]
  rw [decode32.eq_1, h1]
  show (decodeV21 W : Except Reject Instr) = _
  rw [decodeV21.eq_1, h10]
  show (src W fun b => .vadd (flag W 26) (flag W 25) (xr W 8) (xr W 13) b : Except Reject Instr) = _
  simp only [h1, h2, h3, h4, h5, h6, h7, h8, h9, h10, src, bit_beq, xr, lo8, lane, bv, flag, zero, Except.bind, ofNat_val, ofNat_toNat, if_true, if_false, Nat.reduceBEq, Bool.false_eq_true, true_and, and_true, and_self, or_self, not_false_eq_true, ne_eq, Nat.reduceLT, Nat.reduceLeDiff, Nat.reduceEqDiff, bit_zero, bit_one]
theorem codes_encVadd (c : Bool) (m : Bool) (d : VReg) (a : VReg) (b : VSrc) : Codes (encVadd c m d a b) (.vadd c m d a b) := by
  have hb0 := bit_lt c
  have hb1 := bit_lt m
  have hb2 := d.isLt
  have hb3 := a.isLt
  cases b with
  | vv r =>
    have hbr := r.isLt
    show Codes (4, fV 0 (bit c) (bit m) 0 r.val a d 0x21) (.vadd c m d a (.vv r))
    have F := @fV_fields (0) ((bit c)) ((bit m)) (0) (r.val) (a.val) (d.val) (0x21) (by omega) (by omega) (by omega) (by omega) (by omega) (by omega) (by omega) (by omega)
    obtain ⟨hm, f27_5, f26_1, f25_1, f23_2, f18_5, f13_5, f8_5, f2_6, f0_2⟩ := F
    exact .word hm f0_2 (decodeBits_ofVadd_vv c m d a r hm (f0_2.trans (by omega)) (f2_6.trans (by omega)) (f8_5.trans (by omega)) (f13_5.trans (by omega)) (f18_5.trans (by omega)) (f23_2.trans (by omega)) (f25_1.trans (by omega)) (f26_1.trans (by omega)) (f27_5.trans (by omega)))
  | vx r =>
    have hbr := r.isLt
    show Codes (4, fV 0 (bit c) (bit m) 1 r.val a d 0x21) (.vadd c m d a (.vx r))
    have F := @fV_fields (0) ((bit c)) ((bit m)) (1) (r.val) (a.val) (d.val) (0x21) (by omega) (by omega) (by omega) (by omega) (by omega) (by omega) (by omega) (by omega)
    obtain ⟨hm, f27_5, f26_1, f25_1, f23_2, f18_5, f13_5, f8_5, f2_6, f0_2⟩ := F
    exact .word hm f0_2 (decodeBits_ofVadd_vx c m d a r hm (f0_2.trans (by omega)) (f2_6.trans (by omega)) (f8_5.trans (by omega)) (f13_5.trans (by omega)) (f18_5.trans (by omega)) (f23_2.trans (by omega)) (f25_1.trans (by omega)) (f26_1.trans (by omega)) (f27_5.trans (by omega)))
  | vi r =>
    have hbr := r.isLt
    show Codes (4, fV 0 (bit c) (bit m) 2 r.toNat a d 0x21) (.vadd c m d a (.vi r))
    have F := @fV_fields (0) ((bit c)) ((bit m)) (2) (r.toNat) (a.val) (d.val) (0x21) (by omega) (by omega) (by omega) (by omega) (by omega) (by omega) (by omega) (by omega)
    obtain ⟨hm, f27_5, f26_1, f25_1, f23_2, f18_5, f13_5, f8_5, f2_6, f0_2⟩ := F
    exact .word hm f0_2 (decodeBits_ofVadd_vi c m d a r hm (f0_2.trans (by omega)) (f2_6.trans (by omega)) (f8_5.trans (by omega)) (f13_5.trans (by omega)) (f18_5.trans (by omega)) (f23_2.trans (by omega)) (f25_1.trans (by omega)) (f26_1.trans (by omega)) (f27_5.trans (by omega)))
  | vs r =>
    have hbr := r.isLt
    show Codes (4, fV 0 (bit c) (bit m) 3 r.val a d 0x21) (.vadd c m d a (.vs r))
    have F := @fV_fields (0) ((bit c)) ((bit m)) (3) (r.val) (a.val) (d.val) (0x21) (by omega) (by omega) (by omega) (by omega) (by omega) (by omega) (by omega) (by omega)
    obtain ⟨hm, f27_5, f26_1, f25_1, f23_2, f18_5, f13_5, f8_5, f2_6, f0_2⟩ := F
    exact .word hm f0_2 (decodeBits_ofVadd_vs c m d a r hm (f0_2.trans (by omega)) (f2_6.trans (by omega)) (f8_5.trans (by omega)) (f13_5.trans (by omega)) ((fld_sub (o := 0) (k := 2) f18_5 rfl (by decide)).trans (by omega)) (f18_5.trans (by omega)) ((fld_sub (o := 2) (k := 3) f18_5 rfl (by decide)).trans (by omega)) (f23_2.trans (by omega)) (f25_1.trans (by omega)) (f26_1.trans (by omega)) (f27_5.trans (by omega)))

theorem decodeBits_ofVsub_vv (c : Bool) (m : Bool) (d : VReg) (a : VReg) (r : VReg) {W : Nat} (hm : W < 2 ^ 32) (h0 : fld W 0 2 = 1) (h1 : fld W 2 6 = 33) (h2 : fld W 8 5 = d.val) (h3 : fld W 13 5 = a.val) (h5 : fld W 18 5 = r.val) (h7 : fld W 23 2 = 0) (h8 : fld W 25 1 = (bit m)) (h9 : fld W 26 1 = (bit c)) (h10 : fld W 27 5 = 1) : decodeBits W = .ok (.vsub c m d a (.vv r)) := by
  have hb0 := bit_lt c
  have hb1 := bit_lt m
  have hb2 := d.isLt
  have hb3 := a.isLt
  rw [decodeBits_word h0 hm]
  rw [decode32.eq_1, h1]
  show (decodeV21 W : Except Reject Instr) = _
  rw [decodeV21.eq_1, h10]
  show (src W fun b => .vsub (flag W 26) (flag W 25) (xr W 8) (xr W 13) b : Except Reject Instr) = _
  simp only [h1, h2, h3, h5, h7, h8, h9, h10, src, bit_beq, xr, lo8, lane, bv, flag, zero, Except.bind, ofNat_val, ofNat_toNat, if_true, if_false, Nat.reduceBEq, Bool.false_eq_true, true_and, and_true, and_self, or_self, not_false_eq_true, ne_eq, Nat.reduceLT, Nat.reduceLeDiff, Nat.reduceEqDiff, bit_zero, bit_one]
theorem decodeBits_ofVsub_vx (c : Bool) (m : Bool) (d : VReg) (a : VReg) (r : XReg) {W : Nat} (hm : W < 2 ^ 32) (h0 : fld W 0 2 = 1) (h1 : fld W 2 6 = 33) (h2 : fld W 8 5 = d.val) (h3 : fld W 13 5 = a.val) (h5 : fld W 18 5 = r.val) (h7 : fld W 23 2 = 1) (h8 : fld W 25 1 = (bit m)) (h9 : fld W 26 1 = (bit c)) (h10 : fld W 27 5 = 1) : decodeBits W = .ok (.vsub c m d a (.vx r)) := by
  have hb0 := bit_lt c
  have hb1 := bit_lt m
  have hb2 := d.isLt
  have hb3 := a.isLt
  rw [decodeBits_word h0 hm]
  rw [decode32.eq_1, h1]
  show (decodeV21 W : Except Reject Instr) = _
  rw [decodeV21.eq_1, h10]
  show (src W fun b => .vsub (flag W 26) (flag W 25) (xr W 8) (xr W 13) b : Except Reject Instr) = _
  simp only [h1, h2, h3, h5, h7, h8, h9, h10, src, bit_beq, xr, lo8, lane, bv, flag, zero, Except.bind, ofNat_val, ofNat_toNat, if_true, if_false, Nat.reduceBEq, Bool.false_eq_true, true_and, and_true, and_self, or_self, not_false_eq_true, ne_eq, Nat.reduceLT, Nat.reduceLeDiff, Nat.reduceEqDiff, bit_zero, bit_one]
theorem decodeBits_ofVsub_vi (c : Bool) (m : Bool) (d : VReg) (a : VReg) (r : BitVec 5) {W : Nat} (hm : W < 2 ^ 32) (h0 : fld W 0 2 = 1) (h1 : fld W 2 6 = 33) (h2 : fld W 8 5 = d.val) (h3 : fld W 13 5 = a.val) (h5 : fld W 18 5 = r.toNat) (h7 : fld W 23 2 = 2) (h8 : fld W 25 1 = (bit m)) (h9 : fld W 26 1 = (bit c)) (h10 : fld W 27 5 = 1) : decodeBits W = .ok (.vsub c m d a (.vi r)) := by
  have hb0 := bit_lt c
  have hb1 := bit_lt m
  have hb2 := d.isLt
  have hb3 := a.isLt
  rw [decodeBits_word h0 hm]
  rw [decode32.eq_1, h1]
  show (decodeV21 W : Except Reject Instr) = _
  rw [decodeV21.eq_1, h10]
  show (src W fun b => .vsub (flag W 26) (flag W 25) (xr W 8) (xr W 13) b : Except Reject Instr) = _
  simp only [h1, h2, h3, h5, h7, h8, h9, h10, src, bit_beq, xr, lo8, lane, bv, flag, zero, Except.bind, ofNat_val, ofNat_toNat, if_true, if_false, Nat.reduceBEq, Bool.false_eq_true, true_and, and_true, and_self, or_self, not_false_eq_true, ne_eq, Nat.reduceLT, Nat.reduceLeDiff, Nat.reduceEqDiff, bit_zero, bit_one]
theorem decodeBits_ofVsub_vs (c : Bool) (m : Bool) (d : VReg) (a : VReg) (r : SReg) {W : Nat} (hm : W < 2 ^ 32) (h0 : fld W 0 2 = 1) (h1 : fld W 2 6 = 33) (h2 : fld W 8 5 = d.val) (h3 : fld W 13 5 = a.val) (h4 : fld W 18 2 = r.val) (h5 : fld W 18 5 = r.val) (h6 : fld W 20 3 = 0) (h7 : fld W 23 2 = 3) (h8 : fld W 25 1 = (bit m)) (h9 : fld W 26 1 = (bit c)) (h10 : fld W 27 5 = 1) : decodeBits W = .ok (.vsub c m d a (.vs r)) := by
  have hb0 := bit_lt c
  have hb1 := bit_lt m
  have hb2 := d.isLt
  have hb3 := a.isLt
  rw [decodeBits_word h0 hm]
  rw [decode32.eq_1, h1]
  show (decodeV21 W : Except Reject Instr) = _
  rw [decodeV21.eq_1, h10]
  show (src W fun b => .vsub (flag W 26) (flag W 25) (xr W 8) (xr W 13) b : Except Reject Instr) = _
  simp only [h1, h2, h3, h4, h5, h6, h7, h8, h9, h10, src, bit_beq, xr, lo8, lane, bv, flag, zero, Except.bind, ofNat_val, ofNat_toNat, if_true, if_false, Nat.reduceBEq, Bool.false_eq_true, true_and, and_true, and_self, or_self, not_false_eq_true, ne_eq, Nat.reduceLT, Nat.reduceLeDiff, Nat.reduceEqDiff, bit_zero, bit_one]
theorem codes_encVsub (c : Bool) (m : Bool) (d : VReg) (a : VReg) (b : VSrc) : Codes (encVsub c m d a b) (.vsub c m d a b) := by
  have hb0 := bit_lt c
  have hb1 := bit_lt m
  have hb2 := d.isLt
  have hb3 := a.isLt
  cases b with
  | vv r =>
    have hbr := r.isLt
    show Codes (4, fV 1 (bit c) (bit m) 0 r.val a d 0x21) (.vsub c m d a (.vv r))
    have F := @fV_fields (1) ((bit c)) ((bit m)) (0) (r.val) (a.val) (d.val) (0x21) (by omega) (by omega) (by omega) (by omega) (by omega) (by omega) (by omega) (by omega)
    obtain ⟨hm, f27_5, f26_1, f25_1, f23_2, f18_5, f13_5, f8_5, f2_6, f0_2⟩ := F
    exact .word hm f0_2 (decodeBits_ofVsub_vv c m d a r hm (f0_2.trans (by omega)) (f2_6.trans (by omega)) (f8_5.trans (by omega)) (f13_5.trans (by omega)) (f18_5.trans (by omega)) (f23_2.trans (by omega)) (f25_1.trans (by omega)) (f26_1.trans (by omega)) (f27_5.trans (by omega)))
  | vx r =>
    have hbr := r.isLt
    show Codes (4, fV 1 (bit c) (bit m) 1 r.val a d 0x21) (.vsub c m d a (.vx r))
    have F := @fV_fields (1) ((bit c)) ((bit m)) (1) (r.val) (a.val) (d.val) (0x21) (by omega) (by omega) (by omega) (by omega) (by omega) (by omega) (by omega) (by omega)
    obtain ⟨hm, f27_5, f26_1, f25_1, f23_2, f18_5, f13_5, f8_5, f2_6, f0_2⟩ := F
    exact .word hm f0_2 (decodeBits_ofVsub_vx c m d a r hm (f0_2.trans (by omega)) (f2_6.trans (by omega)) (f8_5.trans (by omega)) (f13_5.trans (by omega)) (f18_5.trans (by omega)) (f23_2.trans (by omega)) (f25_1.trans (by omega)) (f26_1.trans (by omega)) (f27_5.trans (by omega)))
  | vi r =>
    have hbr := r.isLt
    show Codes (4, fV 1 (bit c) (bit m) 2 r.toNat a d 0x21) (.vsub c m d a (.vi r))
    have F := @fV_fields (1) ((bit c)) ((bit m)) (2) (r.toNat) (a.val) (d.val) (0x21) (by omega) (by omega) (by omega) (by omega) (by omega) (by omega) (by omega) (by omega)
    obtain ⟨hm, f27_5, f26_1, f25_1, f23_2, f18_5, f13_5, f8_5, f2_6, f0_2⟩ := F
    exact .word hm f0_2 (decodeBits_ofVsub_vi c m d a r hm (f0_2.trans (by omega)) (f2_6.trans (by omega)) (f8_5.trans (by omega)) (f13_5.trans (by omega)) (f18_5.trans (by omega)) (f23_2.trans (by omega)) (f25_1.trans (by omega)) (f26_1.trans (by omega)) (f27_5.trans (by omega)))
  | vs r =>
    have hbr := r.isLt
    show Codes (4, fV 1 (bit c) (bit m) 3 r.val a d 0x21) (.vsub c m d a (.vs r))
    have F := @fV_fields (1) ((bit c)) ((bit m)) (3) (r.val) (a.val) (d.val) (0x21) (by omega) (by omega) (by omega) (by omega) (by omega) (by omega) (by omega) (by omega)
    obtain ⟨hm, f27_5, f26_1, f25_1, f23_2, f18_5, f13_5, f8_5, f2_6, f0_2⟩ := F
    exact .word hm f0_2 (decodeBits_ofVsub_vs c m d a r hm (f0_2.trans (by omega)) (f2_6.trans (by omega)) (f8_5.trans (by omega)) (f13_5.trans (by omega)) ((fld_sub (o := 0) (k := 2) f18_5 rfl (by decide)).trans (by omega)) (f18_5.trans (by omega)) ((fld_sub (o := 2) (k := 3) f18_5 rfl (by decide)).trans (by omega)) (f23_2.trans (by omega)) (f25_1.trans (by omega)) (f26_1.trans (by omega)) (f27_5.trans (by omega)))

theorem decodeBits_ofVrsub_vv (c : Bool) (m : Bool) (d : VReg) (a : VReg) (r : VReg) {W : Nat} (hm : W < 2 ^ 32) (h0 : fld W 0 2 = 1) (h1 : fld W 2 6 = 33) (h2 : fld W 8 5 = d.val) (h3 : fld W 13 5 = a.val) (h5 : fld W 18 5 = r.val) (h7 : fld W 23 2 = 0) (h8 : fld W 25 1 = (bit m)) (h9 : fld W 26 1 = (bit c)) (h10 : fld W 27 5 = 2) : decodeBits W = .ok (.vrsub c m d a (.vv r)) := by
  have hb0 := bit_lt c
  have hb1 := bit_lt m
  have hb2 := d.isLt
  have hb3 := a.isLt
  rw [decodeBits_word h0 hm]
  rw [decode32.eq_1, h1]
  show (decodeV21 W : Except Reject Instr) = _
  rw [decodeV21.eq_1, h10]
  show (src W fun b => .vrsub (flag W 26) (flag W 25) (xr W 8) (xr W 13) b : Except Reject Instr) = _
  simp only [h1, h2, h3, h5, h7, h8, h9, h10, src, bit_beq, xr, lo8, lane, bv, flag, zero, Except.bind, ofNat_val, ofNat_toNat, if_true, if_false, Nat.reduceBEq, Bool.false_eq_true, true_and, and_true, and_self, or_self, not_false_eq_true, ne_eq, Nat.reduceLT, Nat.reduceLeDiff, Nat.reduceEqDiff, bit_zero, bit_one]
theorem decodeBits_ofVrsub_vx (c : Bool) (m : Bool) (d : VReg) (a : VReg) (r : XReg) {W : Nat} (hm : W < 2 ^ 32) (h0 : fld W 0 2 = 1) (h1 : fld W 2 6 = 33) (h2 : fld W 8 5 = d.val) (h3 : fld W 13 5 = a.val) (h5 : fld W 18 5 = r.val) (h7 : fld W 23 2 = 1) (h8 : fld W 25 1 = (bit m)) (h9 : fld W 26 1 = (bit c)) (h10 : fld W 27 5 = 2) : decodeBits W = .ok (.vrsub c m d a (.vx r)) := by
  have hb0 := bit_lt c
  have hb1 := bit_lt m
  have hb2 := d.isLt
  have hb3 := a.isLt
  rw [decodeBits_word h0 hm]
  rw [decode32.eq_1, h1]
  show (decodeV21 W : Except Reject Instr) = _
  rw [decodeV21.eq_1, h10]
  show (src W fun b => .vrsub (flag W 26) (flag W 25) (xr W 8) (xr W 13) b : Except Reject Instr) = _
  simp only [h1, h2, h3, h5, h7, h8, h9, h10, src, bit_beq, xr, lo8, lane, bv, flag, zero, Except.bind, ofNat_val, ofNat_toNat, if_true, if_false, Nat.reduceBEq, Bool.false_eq_true, true_and, and_true, and_self, or_self, not_false_eq_true, ne_eq, Nat.reduceLT, Nat.reduceLeDiff, Nat.reduceEqDiff, bit_zero, bit_one]
theorem decodeBits_ofVrsub_vi (c : Bool) (m : Bool) (d : VReg) (a : VReg) (r : BitVec 5) {W : Nat} (hm : W < 2 ^ 32) (h0 : fld W 0 2 = 1) (h1 : fld W 2 6 = 33) (h2 : fld W 8 5 = d.val) (h3 : fld W 13 5 = a.val) (h5 : fld W 18 5 = r.toNat) (h7 : fld W 23 2 = 2) (h8 : fld W 25 1 = (bit m)) (h9 : fld W 26 1 = (bit c)) (h10 : fld W 27 5 = 2) : decodeBits W = .ok (.vrsub c m d a (.vi r)) := by
  have hb0 := bit_lt c
  have hb1 := bit_lt m
  have hb2 := d.isLt
  have hb3 := a.isLt
  rw [decodeBits_word h0 hm]
  rw [decode32.eq_1, h1]
  show (decodeV21 W : Except Reject Instr) = _
  rw [decodeV21.eq_1, h10]
  show (src W fun b => .vrsub (flag W 26) (flag W 25) (xr W 8) (xr W 13) b : Except Reject Instr) = _
  simp only [h1, h2, h3, h5, h7, h8, h9, h10, src, bit_beq, xr, lo8, lane, bv, flag, zero, Except.bind, ofNat_val, ofNat_toNat, if_true, if_false, Nat.reduceBEq, Bool.false_eq_true, true_and, and_true, and_self, or_self, not_false_eq_true, ne_eq, Nat.reduceLT, Nat.reduceLeDiff, Nat.reduceEqDiff, bit_zero, bit_one]
theorem decodeBits_ofVrsub_vs (c : Bool) (m : Bool) (d : VReg) (a : VReg) (r : SReg) {W : Nat} (hm : W < 2 ^ 32) (h0 : fld W 0 2 = 1) (h1 : fld W 2 6 = 33) (h2 : fld W 8 5 = d.val) (h3 : fld W 13 5 = a.val) (h4 : fld W 18 2 = r.val) (h5 : fld W 18 5 = r.val) (h6 : fld W 20 3 = 0) (h7 : fld W 23 2 = 3) (h8 : fld W 25 1 = (bit m)) (h9 : fld W 26 1 = (bit c)) (h10 : fld W 27 5 = 2) : decodeBits W = .ok (.vrsub c m d a (.vs r)) := by
  have hb0 := bit_lt c
  have hb1 := bit_lt m
  have hb2 := d.isLt
  have hb3 := a.isLt
  rw [decodeBits_word h0 hm]
  rw [decode32.eq_1, h1]
  show (decodeV21 W : Except Reject Instr) = _
  rw [decodeV21.eq_1, h10]
  show (src W fun b => .vrsub (flag W 26) (flag W 25) (xr W 8) (xr W 13) b : Except Reject Instr) = _
  simp only [h1, h2, h3, h4, h5, h6, h7, h8, h9, h10, src, bit_beq, xr, lo8, lane, bv, flag, zero, Except.bind, ofNat_val, ofNat_toNat, if_true, if_false, Nat.reduceBEq, Bool.false_eq_true, true_and, and_true, and_self, or_self, not_false_eq_true, ne_eq, Nat.reduceLT, Nat.reduceLeDiff, Nat.reduceEqDiff, bit_zero, bit_one]
theorem codes_encVrsub (c : Bool) (m : Bool) (d : VReg) (a : VReg) (b : VSrc) : Codes (encVrsub c m d a b) (.vrsub c m d a b) := by
  have hb0 := bit_lt c
  have hb1 := bit_lt m
  have hb2 := d.isLt
  have hb3 := a.isLt
  cases b with
  | vv r =>
    have hbr := r.isLt
    show Codes (4, fV 2 (bit c) (bit m) 0 r.val a d 0x21) (.vrsub c m d a (.vv r))
    have F := @fV_fields (2) ((bit c)) ((bit m)) (0) (r.val) (a.val) (d.val) (0x21) (by omega) (by omega) (by omega) (by omega) (by omega) (by omega) (by omega) (by omega)
    obtain ⟨hm, f27_5, f26_1, f25_1, f23_2, f18_5, f13_5, f8_5, f2_6, f0_2⟩ := F
    exact .word hm f0_2 (decodeBits_ofVrsub_vv c m d a r hm (f0_2.trans (by omega)) (f2_6.trans (by omega)) (f8_5.trans (by omega)) (f13_5.trans (by omega)) (f18_5.trans (by omega)) (f23_2.trans (by omega)) (f25_1.trans (by omega)) (f26_1.trans (by omega)) (f27_5.trans (by omega)))
  | vx r =>
    have hbr := r.isLt
    show Codes (4, fV 2 (bit c) (bit m) 1 r.val a d 0x21) (.vrsub c m d a (.vx r))
    have F := @fV_fields (2) ((bit c)) ((bit m)) (1) (r.val) (a.val) (d.val) (0x21) (by omega) (by omega) (by omega) (by omega) (by omega) (by omega) (by omega) (by omega)
    obtain ⟨hm, f27_5, f26_1, f25_1, f23_2, f18_5, f13_5, f8_5, f2_6, f0_2⟩ := F
    exact .word hm f0_2 (decodeBits_ofVrsub_vx c m d a r hm (f0_2.trans (by omega)) (f2_6.trans (by omega)) (f8_5.trans (by omega)) (f13_5.trans (by omega)) (f18_5.trans (by omega)) (f23_2.trans (by omega)) (f25_1.trans (by omega)) (f26_1.trans (by omega)) (f27_5.trans (by omega)))
  | vi r =>
    have hbr := r.isLt
    show Codes (4, fV 2 (bit c) (bit m) 2 r.toNat a d 0x21) (.vrsub c m d a (.vi r))
    have F := @fV_fields (2) ((bit c)) ((bit m)) (2) (r.toNat) (a.val) (d.val) (0x21) (by omega) (by omega) (by omega) (by omega) (by omega) (by omega) (by omega) (by omega)
    obtain ⟨hm, f27_5, f26_1, f25_1, f23_2, f18_5, f13_5, f8_5, f2_6, f0_2⟩ := F
    exact .word hm f0_2 (decodeBits_ofVrsub_vi c m d a r hm (f0_2.trans (by omega)) (f2_6.trans (by omega)) (f8_5.trans (by omega)) (f13_5.trans (by omega)) (f18_5.trans (by omega)) (f23_2.trans (by omega)) (f25_1.trans (by omega)) (f26_1.trans (by omega)) (f27_5.trans (by omega)))
  | vs r =>
    have hbr := r.isLt
    show Codes (4, fV 2 (bit c) (bit m) 3 r.val a d 0x21) (.vrsub c m d a (.vs r))
    have F := @fV_fields (2) ((bit c)) ((bit m)) (3) (r.val) (a.val) (d.val) (0x21) (by omega) (by omega) (by omega) (by omega) (by omega) (by omega) (by omega) (by omega)
    obtain ⟨hm, f27_5, f26_1, f25_1, f23_2, f18_5, f13_5, f8_5, f2_6, f0_2⟩ := F
    exact .word hm f0_2 (decodeBits_ofVrsub_vs c m d a r hm (f0_2.trans (by omega)) (f2_6.trans (by omega)) (f8_5.trans (by omega)) (f13_5.trans (by omega)) ((fld_sub (o := 0) (k := 2) f18_5 rfl (by decide)).trans (by omega)) (f18_5.trans (by omega)) ((fld_sub (o := 2) (k := 3) f18_5 rfl (by decide)).trans (by omega)) (f23_2.trans (by omega)) (f25_1.trans (by omega)) (f26_1.trans (by omega)) (f27_5.trans (by omega)))

theorem decodeBits_ofVmul_vv (c : Bool) (m : Bool) (d : VReg) (a : VReg) (r : VReg) {W : Nat} (hm : W < 2 ^ 32) (h0 : fld W 0 2 = 1) (h1 : fld W 2 6 = 33) (h2 : fld W 8 5 = d.val) (h3 : fld W 13 5 = a.val) (h5 : fld W 18 5 = r.val) (h7 : fld W 23 2 = 0) (h8 : fld W 25 1 = (bit m)) (h9 : fld W 26 1 = (bit c)) (h10 : fld W 27 5 = 3) : decodeBits W = .ok (.vmul c m d a (.vv r)) := by
  have hb0 := bit_lt c
  have hb1 := bit_lt m
  have hb2 := d.isLt
  have hb3 := a.isLt
  rw [decodeBits_word h0 hm]
  rw [decode32.eq_1, h1]
  show (decodeV21 W : Except Reject Instr) = _
  rw [decodeV21.eq_1, h10]
  show (src W fun b => .vmul (flag W 26) (flag W 25) (xr W 8) (xr W 13) b : Except Reject Instr) = _
  simp only [h1, h2, h3, h5, h7, h8, h9, h10, src, bit_beq, xr, lo8, lane, bv, flag, zero, Except.bind, ofNat_val, ofNat_toNat, if_true, if_false, Nat.reduceBEq, Bool.false_eq_true, true_and, and_true, and_self, or_self, not_false_eq_true, ne_eq, Nat.reduceLT, Nat.reduceLeDiff, Nat.reduceEqDiff, bit_zero, bit_one]
theorem decodeBits_ofVmul_vx (c : Bool) (m : Bool) (d : VReg) (a : VReg) (r : XReg) {W : Nat} (hm : W < 2 ^ 32) (h0 : fld W 0 2 = 1) (h1 : fld W 2 6 = 33) (h2 : fld W 8 5 = d.val) (h3 : fld W 13 5 = a.val) (h5 : fld W 18 5 = r.val) (h7 : fld W 23 2 = 1) (h8 : fld W 25 1 = (bit m)) (h9 : fld W 26 1 = (bit c)) (h10 : fld W 27 5 = 3) : decodeBits W = .ok (.vmul c m d a (.vx r)) := by
  have hb0 := bit_lt c
  have hb1 := bit_lt m
  have hb2 := d.isLt
  have hb3 := a.isLt
  rw [decodeBits_word h0 hm]
  rw [decode32.eq_1, h1]
  show (decodeV21 W : Except Reject Instr) = _
  rw [decodeV21.eq_1, h10]
  show (src W fun b => .vmul (flag W 26) (flag W 25) (xr W 8) (xr W 13) b : Except Reject Instr) = _
  simp only [h1, h2, h3, h5, h7, h8, h9, h10, src, bit_beq, xr, lo8, lane, bv, flag, zero, Except.bind, ofNat_val, ofNat_toNat, if_true, if_false, Nat.reduceBEq, Bool.false_eq_true, true_and, and_true, and_self, or_self, not_false_eq_true, ne_eq, Nat.reduceLT, Nat.reduceLeDiff, Nat.reduceEqDiff, bit_zero, bit_one]
theorem decodeBits_ofVmul_vi (c : Bool) (m : Bool) (d : VReg) (a : VReg) (r : BitVec 5) {W : Nat} (hm : W < 2 ^ 32) (h0 : fld W 0 2 = 1) (h1 : fld W 2 6 = 33) (h2 : fld W 8 5 = d.val) (h3 : fld W 13 5 = a.val) (h5 : fld W 18 5 = r.toNat) (h7 : fld W 23 2 = 2) (h8 : fld W 25 1 = (bit m)) (h9 : fld W 26 1 = (bit c)) (h10 : fld W 27 5 = 3) : decodeBits W = .ok (.vmul c m d a (.vi r)) := by
  have hb0 := bit_lt c
  have hb1 := bit_lt m
  have hb2 := d.isLt
  have hb3 := a.isLt
  rw [decodeBits_word h0 hm]
  rw [decode32.eq_1, h1]
  show (decodeV21 W : Except Reject Instr) = _
  rw [decodeV21.eq_1, h10]
  show (src W fun b => .vmul (flag W 26) (flag W 25) (xr W 8) (xr W 13) b : Except Reject Instr) = _
  simp only [h1, h2, h3, h5, h7, h8, h9, h10, src, bit_beq, xr, lo8, lane, bv, flag, zero, Except.bind, ofNat_val, ofNat_toNat, if_true, if_false, Nat.reduceBEq, Bool.false_eq_true, true_and, and_true, and_self, or_self, not_false_eq_true, ne_eq, Nat.reduceLT, Nat.reduceLeDiff, Nat.reduceEqDiff, bit_zero, bit_one]
theorem decodeBits_ofVmul_vs (c : Bool) (m : Bool) (d : VReg) (a : VReg) (r : SReg) {W : Nat} (hm : W < 2 ^ 32) (h0 : fld W 0 2 = 1) (h1 : fld W 2 6 = 33) (h2 : fld W 8 5 = d.val) (h3 : fld W 13 5 = a.val) (h4 : fld W 18 2 = r.val) (h5 : fld W 18 5 = r.val) (h6 : fld W 20 3 = 0) (h7 : fld W 23 2 = 3) (h8 : fld W 25 1 = (bit m)) (h9 : fld W 26 1 = (bit c)) (h10 : fld W 27 5 = 3) : decodeBits W = .ok (.vmul c m d a (.vs r)) := by
  have hb0 := bit_lt c
  have hb1 := bit_lt m
  have hb2 := d.isLt
  have hb3 := a.isLt
  rw [decodeBits_word h0 hm]
  rw [decode32.eq_1, h1]
  show (decodeV21 W : Except Reject Instr) = _
  rw [decodeV21.eq_1, h10]
  show (src W fun b => .vmul (flag W 26) (flag W 25) (xr W 8) (xr W 13) b : Except Reject Instr) = _
  simp only [h1, h2, h3, h4, h5, h6, h7, h8, h9, h10, src, bit_beq, xr, lo8, lane, bv, flag, zero, Except.bind, ofNat_val, ofNat_toNat, if_true, if_false, Nat.reduceBEq, Bool.false_eq_true, true_and, and_true, and_self, or_self, not_false_eq_true, ne_eq, Nat.reduceLT, Nat.reduceLeDiff, Nat.reduceEqDiff, bit_zero, bit_one]
theorem codes_encVmul (c : Bool) (m : Bool) (d : VReg) (a : VReg) (b : VSrc) : Codes (encVmul c m d a b) (.vmul c m d a b) := by
  have hb0 := bit_lt c
  have hb1 := bit_lt m
  have hb2 := d.isLt
  have hb3 := a.isLt
  cases b with
  | vv r =>
    have hbr := r.isLt
    show Codes (4, fV 3 (bit c) (bit m) 0 r.val a d 0x21) (.vmul c m d a (.vv r))
    have F := @fV_fields (3) ((bit c)) ((bit m)) (0) (r.val) (a.val) (d.val) (0x21) (by omega) (by omega) (by omega) (by omega) (by omega) (by omega) (by omega) (by omega)
    obtain ⟨hm, f27_5, f26_1, f25_1, f23_2, f18_5, f13_5, f8_5, f2_6, f0_2⟩ := F
    exact .word hm f0_2 (decodeBits_ofVmul_vv c m d a r hm (f0_2.trans (by omega)) (f2_6.trans (by omega)) (f8_5.trans (by omega)) (f13_5.trans (by omega)) (f18_5.trans (by omega)) (f23_2.trans (by omega)) (f25_1.trans (by omega)) (f26_1.trans (by omega)) (f27_5.trans (by omega)))
  | vx r =>
    have hbr := r.isLt
    show Codes (4, fV 3 (bit c) (bit m) 1 r.val a d 0x21) (.vmul c m d a (.vx r))
    have F := @fV_fields (3) ((bit c)) ((bit m)) (1) (r.val) (a.val) (d.val) (0x21) (by omega) (by omega) (by omega) (by omega) (by omega) (by omega) (by omega) (by omega)
    obtain ⟨hm, f27_5, f26_1, f25_1, f23_2, f18_5, f13_5, f8_5, f2_6, f0_2⟩ := F
    exact .word hm f0_2 (decodeBits_ofVmul_vx c m d a r hm (f0_2.trans (by omega)) (f2_6.trans (by omega)) (f8_5.trans (by omega)) (f13_5.trans (by omega)) (f18_5.trans (by omega)) (f23_2.trans (by omega)) (f25_1.trans (by omega)) (f26_1.trans (by omega)) (f27_5.trans (by omega)))
  | vi r =>
    have hbr := r.isLt
    show Codes (4, fV 3 (bit c) (bit m) 2 r.toNat a d 0x21) (.vmul c m d a (.vi r))
    have F := @fV_fields (3) ((bit c)) ((bit m)) (2) (r.toNat) (a.val) (d.val) (0x21) (by omega) (by omega) (by omega) (by omega) (by omega) (by omega) (by omega) (by omega)
    obtain ⟨hm, f27_5, f26_1, f25_1, f23_2, f18_5, f13_5, f8_5, f2_6, f0_2⟩ := F
    exact .word hm f0_2 (decodeBits_ofVmul_vi c m d a r hm (f0_2.trans (by omega)) (f2_6.trans (by omega)) (f8_5.trans (by omega)) (f13_5.trans (by omega)) (f18_5.trans (by omega)) (f23_2.trans (by omega)) (f25_1.trans (by omega)) (f26_1.trans (by omega)) (f27_5.trans (by omega)))
  | vs r =>
    have hbr := r.isLt
    show Codes (4, fV 3 (bit c) (bit m) 3 r.val a d 0x21) (.vmul c m d a (.vs r))
    have F := @fV_fields (3) ((bit c)) ((bit m)) (3) (r.val) (a.val) (d.val) (0x21) (by omega) (by omega) (by omega) (by omega) (by omega) (by omega) (by omega) (by omega)
    obtain ⟨hm, f27_5, f26_1, f25_1, f23_2, f18_5, f13_5, f8_5, f2_6, f0_2⟩ := F
    exact .word hm f0_2 (decodeBits_ofVmul_vs c m d a r hm (f0_2.trans (by omega)) (f2_6.trans (by omega)) (f8_5.trans (by omega)) (f13_5.trans (by omega)) ((fld_sub (o := 0) (k := 2) f18_5 rfl (by decide)).trans (by omega)) (f18_5.trans (by omega)) ((fld_sub (o := 2) (k := 3) f18_5 rfl (by decide)).trans (by omega)) (f23_2.trans (by omega)) (f25_1.trans (by omega)) (f26_1.trans (by omega)) (f27_5.trans (by omega)))

theorem decodeBits_ofVmulh_vv (c : Bool) (m : Bool) (d : VReg) (a : VReg) (r : VReg) {W : Nat} (hm : W < 2 ^ 32) (h0 : fld W 0 2 = 1) (h1 : fld W 2 6 = 33) (h2 : fld W 8 5 = d.val) (h3 : fld W 13 5 = a.val) (h5 : fld W 18 5 = r.val) (h7 : fld W 23 2 = 0) (h8 : fld W 25 1 = (bit m)) (h9 : fld W 26 1 = (bit c)) (h10 : fld W 27 5 = 4) : decodeBits W = .ok (.vmulh c m d a (.vv r)) := by
  have hb0 := bit_lt c
  have hb1 := bit_lt m
  have hb2 := d.isLt
  have hb3 := a.isLt
  rw [decodeBits_word h0 hm]
  rw [decode32.eq_1, h1]
  show (decodeV21 W : Except Reject Instr) = _
  rw [decodeV21.eq_1, h10]
  show (src W fun b => .vmulh (flag W 26) (flag W 25) (xr W 8) (xr W 13) b : Except Reject Instr) = _
  simp only [h1, h2, h3, h5, h7, h8, h9, h10, src, bit_beq, xr, lo8, lane, bv, flag, zero, Except.bind, ofNat_val, ofNat_toNat, if_true, if_false, Nat.reduceBEq, Bool.false_eq_true, true_and, and_true, and_self, or_self, not_false_eq_true, ne_eq, Nat.reduceLT, Nat.reduceLeDiff, Nat.reduceEqDiff, bit_zero, bit_one]
theorem decodeBits_ofVmulh_vx (c : Bool) (m : Bool) (d : VReg) (a : VReg) (r : XReg) {W : Nat} (hm : W < 2 ^ 32) (h0 : fld W 0 2 = 1) (h1 : fld W 2 6 = 33) (h2 : fld W 8 5 = d.val) (h3 : fld W 13 5 = a.val) (h5 : fld W 18 5 = r.val) (h7 : fld W 23 2 = 1) (h8 : fld W 25 1 = (bit m)) (h9 : fld W 26 1 = (bit c)) (h10 : fld W 27 5 = 4) : decodeBits W = .ok (.vmulh c m d a (.vx r)) := by
  have hb0 := bit_lt c
  have hb1 := bit_lt m
  have hb2 := d.isLt
  have hb3 := a.isLt
  rw [decodeBits_word h0 hm]
  rw [decode32.eq_1, h1]
  show (decodeV21 W : Except Reject Instr) = _
  rw [decodeV21.eq_1, h10]
  show (src W fun b => .vmulh (flag W 26) (flag W 25) (xr W 8) (xr W 13) b : Except Reject Instr) = _
  simp only [h1, h2, h3, h5, h7, h8, h9, h10, src, bit_beq, xr, lo8, lane, bv, flag, zero, Except.bind, ofNat_val, ofNat_toNat, if_true, if_false, Nat.reduceBEq, Bool.false_eq_true, true_and, and_true, and_self, or_self, not_false_eq_true, ne_eq, Nat.reduceLT, Nat.reduceLeDiff, Nat.reduceEqDiff, bit_zero, bit_one]
theorem decodeBits_ofVmulh_vi (c : Bool) (m : Bool) (d : VReg) (a : VReg) (r : BitVec 5) {W : Nat} (hm : W < 2 ^ 32) (h0 : fld W 0 2 = 1) (h1 : fld W 2 6 = 33) (h2 : fld W 8 5 = d.val) (h3 : fld W 13 5 = a.val) (h5 : fld W 18 5 = r.toNat) (h7 : fld W 23 2 = 2) (h8 : fld W 25 1 = (bit m)) (h9 : fld W 26 1 = (bit c)) (h10 : fld W 27 5 = 4) : decodeBits W = .ok (.vmulh c m d a (.vi r)) := by
  have hb0 := bit_lt c
  have hb1 := bit_lt m
  have hb2 := d.isLt
  have hb3 := a.isLt
  rw [decodeBits_word h0 hm]
  rw [decode32.eq_1, h1]
  show (decodeV21 W : Except Reject Instr) = _
  rw [decodeV21.eq_1, h10]
  show (src W fun b => .vmulh (flag W 26) (flag W 25) (xr W 8) (xr W 13) b : Except Reject Instr) = _
  simp only [h1, h2, h3, h5, h7, h8, h9, h10, src, bit_beq, xr, lo8, lane, bv, flag, zero, Except.bind, ofNat_val, ofNat_toNat, if_true, if_false, Nat.reduceBEq, Bool.false_eq_true, true_and, and_true, and_self, or_self, not_false_eq_true, ne_eq, Nat.reduceLT, Nat.reduceLeDiff, Nat.reduceEqDiff, bit_zero, bit_one]
theorem decodeBits_ofVmulh_vs (c : Bool) (m : Bool) (d : VReg) (a : VReg) (r : SReg) {W : Nat} (hm : W < 2 ^ 32) (h0 : fld W 0 2 = 1) (h1 : fld W 2 6 = 33) (h2 : fld W 8 5 = d.val) (h3 : fld W 13 5 = a.val) (h4 : fld W 18 2 = r.val) (h5 : fld W 18 5 = r.val) (h6 : fld W 20 3 = 0) (h7 : fld W 23 2 = 3) (h8 : fld W 25 1 = (bit m)) (h9 : fld W 26 1 = (bit c)) (h10 : fld W 27 5 = 4) : decodeBits W = .ok (.vmulh c m d a (.vs r)) := by
  have hb0 := bit_lt c
  have hb1 := bit_lt m
  have hb2 := d.isLt
  have hb3 := a.isLt
  rw [decodeBits_word h0 hm]
  rw [decode32.eq_1, h1]
  show (decodeV21 W : Except Reject Instr) = _
  rw [decodeV21.eq_1, h10]
  show (src W fun b => .vmulh (flag W 26) (flag W 25) (xr W 8) (xr W 13) b : Except Reject Instr) = _
  simp only [h1, h2, h3, h4, h5, h6, h7, h8, h9, h10, src, bit_beq, xr, lo8, lane, bv, flag, zero, Except.bind, ofNat_val, ofNat_toNat, if_true, if_false, Nat.reduceBEq, Bool.false_eq_true, true_and, and_true, and_self, or_self, not_false_eq_true, ne_eq, Nat.reduceLT, Nat.reduceLeDiff, Nat.reduceEqDiff, bit_zero, bit_one]
theorem codes_encVmulh (c : Bool) (m : Bool) (d : VReg) (a : VReg) (b : VSrc) : Codes (encVmulh c m d a b) (.vmulh c m d a b) := by
  have hb0 := bit_lt c
  have hb1 := bit_lt m
  have hb2 := d.isLt
  have hb3 := a.isLt
  cases b with
  | vv r =>
    have hbr := r.isLt
    show Codes (4, fV 4 (bit c) (bit m) 0 r.val a d 0x21) (.vmulh c m d a (.vv r))
    have F := @fV_fields (4) ((bit c)) ((bit m)) (0) (r.val) (a.val) (d.val) (0x21) (by omega) (by omega) (by omega) (by omega) (by omega) (by omega) (by omega) (by omega)
    obtain ⟨hm, f27_5, f26_1, f25_1, f23_2, f18_5, f13_5, f8_5, f2_6, f0_2⟩ := F
    exact .word hm f0_2 (decodeBits_ofVmulh_vv c m d a r hm (f0_2.trans (by omega)) (f2_6.trans (by omega)) (f8_5.trans (by omega)) (f13_5.trans (by omega)) (f18_5.trans (by omega)) (f23_2.trans (by omega)) (f25_1.trans (by omega)) (f26_1.trans (by omega)) (f27_5.trans (by omega)))
  | vx r =>
    have hbr := r.isLt
    show Codes (4, fV 4 (bit c) (bit m) 1 r.val a d 0x21) (.vmulh c m d a (.vx r))
    have F := @fV_fields (4) ((bit c)) ((bit m)) (1) (r.val) (a.val) (d.val) (0x21) (by omega) (by omega) (by omega) (by omega) (by omega) (by omega) (by omega) (by omega)
    obtain ⟨hm, f27_5, f26_1, f25_1, f23_2, f18_5, f13_5, f8_5, f2_6, f0_2⟩ := F
    exact .word hm f0_2 (decodeBits_ofVmulh_vx c m d a r hm (f0_2.trans (by omega)) (f2_6.trans (by omega)) (f8_5.trans (by omega)) (f13_5.trans (by omega)) (f18_5.trans (by omega)) (f23_2.trans (by omega)) (f25_1.trans (by omega)) (f26_1.trans (by omega)) (f27_5.trans (by omega)))
  | vi r =>
    have hbr := r.isLt
    show Codes (4, fV 4 (bit c) (bit m) 2 r.toNat a d 0x21) (.vmulh c m d a (.vi r))
    have F := @fV_fields (4) ((bit c)) ((bit m)) (2) (r.toNat) (a.val) (d.val) (0x21) (by omega) (by omega) (by omega) (by omega) (by omega) (by omega) (by omega) (by omega)
    obtain ⟨hm, f27_5, f26_1, f25_1, f23_2, f18_5, f13_5, f8_5, f2_6, f0_2⟩ := F
    exact .word hm f0_2 (decodeBits_ofVmulh_vi c m d a r hm (f0_2.trans (by omega)) (f2_6.trans (by omega)) (f8_5.trans (by omega)) (f13_5.trans (by omega)) (f18_5.trans (by omega)) (f23_2.trans (by omega)) (f25_1.trans (by omega)) (f26_1.trans (by omega)) (f27_5.trans (by omega)))
  | vs r =>
    have hbr := r.isLt
    show Codes (4, fV 4 (bit c) (bit m) 3 r.val a d 0x21) (.vmulh c m d a (.vs r))
    have F := @fV_fields (4) ((bit c)) ((bit m)) (3) (r.val) (a.val) (d.val) (0x21) (by omega) (by omega) (by omega) (by omega) (by omega) (by omega) (by omega) (by omega)
    obtain ⟨hm, f27_5, f26_1, f25_1, f23_2, f18_5, f13_5, f8_5, f2_6, f0_2⟩ := F
    exact .word hm f0_2 (decodeBits_ofVmulh_vs c m d a r hm (f0_2.trans (by omega)) (f2_6.trans (by omega)) (f8_5.trans (by omega)) (f13_5.trans (by omega)) ((fld_sub (o := 0) (k := 2) f18_5 rfl (by decide)).trans (by omega)) (f18_5.trans (by omega)) ((fld_sub (o := 2) (k := 3) f18_5 rfl (by decide)).trans (by omega)) (f23_2.trans (by omega)) (f25_1.trans (by omega)) (f26_1.trans (by omega)) (f27_5.trans (by omega)))

theorem decodeBits_ofVdiv_vv (c : Bool) (m : Bool) (d : VReg) (a : VReg) (r : VReg) {W : Nat} (hm : W < 2 ^ 32) (h0 : fld W 0 2 = 1) (h1 : fld W 2 6 = 33) (h2 : fld W 8 5 = d.val) (h3 : fld W 13 5 = a.val) (h5 : fld W 18 5 = r.val) (h7 : fld W 23 2 = 0) (h8 : fld W 25 1 = (bit m)) (h9 : fld W 26 1 = (bit c)) (h10 : fld W 27 5 = 5) : decodeBits W = .ok (.vdiv c m d a (.vv r)) := by
  have hb0 := bit_lt c
  have hb1 := bit_lt m
  have hb2 := d.isLt
  have hb3 := a.isLt
  rw [decodeBits_word h0 hm]
  rw [decode32.eq_1, h1]
  show (decodeV21 W : Except Reject Instr) = _
  rw [decodeV21.eq_1, h10]
  show (src W fun b => .vdiv (flag W 26) (flag W 25) (xr W 8) (xr W 13) b : Except Reject Instr) = _
  simp only [h1, h2, h3, h5, h7, h8, h9, h10, src, bit_beq, xr, lo8, lane, bv, flag, zero, Except.bind, ofNat_val, ofNat_toNat, if_true, if_false, Nat.reduceBEq, Bool.false_eq_true, true_and, and_true, and_self, or_self, not_false_eq_true, ne_eq, Nat.reduceLT, Nat.reduceLeDiff, Nat.reduceEqDiff, bit_zero, bit_one]
theorem decodeBits_ofVdiv_vx (c : Bool) (m : Bool) (d : VReg) (a : VReg) (r : XReg) {W : Nat} (hm : W < 2 ^ 32) (h0 : fld W 0 2 = 1) (h1 : fld W 2 6 = 33) (h2 : fld W 8 5 = d.val) (h3 : fld W 13 5 = a.val) (h5 : fld W 18 5 = r.val) (h7 : fld W 23 2 = 1) (h8 : fld W 25 1 = (bit m)) (h9 : fld W 26 1 = (bit c)) (h10 : fld W 27 5 = 5) : decodeBits W = .ok (.vdiv c m d a (.vx r)) := by
  have hb0 := bit_lt c
  have hb1 := bit_lt m
  have hb2 := d.isLt
  have hb3 := a.isLt
  rw [decodeBits_word h0 hm]
  rw [decode32.eq_1, h1]
  show (decodeV21 W : Except Reject Instr) = _
  rw [decodeV21.eq_1, h10]
  show (src W fun b => .vdiv (flag W 26) (flag W 25) (xr W 8) (xr W 13) b : Except Reject Instr) = _
  simp only [h1, h2, h3, h5, h7, h8, h9, h10, src, bit_beq, xr, lo8, lane, bv, flag, zero, Except.bind, ofNat_val, ofNat_toNat, if_true, if_false, Nat.reduceBEq, Bool.false_eq_true, true_and, and_true, and_self, or_self, not_false_eq_true, ne_eq, Nat.reduceLT, Nat.reduceLeDiff, Nat.reduceEqDiff, bit_zero, bit_one]
theorem decodeBits_ofVdiv_vi (c : Bool) (m : Bool) (d : VReg) (a : VReg) (r : BitVec 5) {W : Nat} (hm : W < 2 ^ 32) (h0 : fld W 0 2 = 1) (h1 : fld W 2 6 = 33) (h2 : fld W 8 5 = d.val) (h3 : fld W 13 5 = a.val) (h5 : fld W 18 5 = r.toNat) (h7 : fld W 23 2 = 2) (h8 : fld W 25 1 = (bit m)) (h9 : fld W 26 1 = (bit c)) (h10 : fld W 27 5 = 5) : decodeBits W = .ok (.vdiv c m d a (.vi r)) := by
  have hb0 := bit_lt c
  have hb1 := bit_lt m
  have hb2 := d.isLt
  have hb3 := a.isLt
  rw [decodeBits_word h0 hm]
  rw [decode32.eq_1, h1]
  show (decodeV21 W : Except Reject Instr) = _
  rw [decodeV21.eq_1, h10]
  show (src W fun b => .vdiv (flag W 26) (flag W 25) (xr W 8) (xr W 13) b : Except Reject Instr) = _
  simp only [h1, h2, h3, h5, h7, h8, h9, h10, src, bit_beq, xr, lo8, lane, bv, flag, zero, Except.bind, ofNat_val, ofNat_toNat, if_true, if_false, Nat.reduceBEq, Bool.false_eq_true, true_and, and_true, and_self, or_self, not_false_eq_true, ne_eq, Nat.reduceLT, Nat.reduceLeDiff, Nat.reduceEqDiff, bit_zero, bit_one]
theorem decodeBits_ofVdiv_vs (c : Bool) (m : Bool) (d : VReg) (a : VReg) (r : SReg) {W : Nat} (hm : W < 2 ^ 32) (h0 : fld W 0 2 = 1) (h1 : fld W 2 6 = 33) (h2 : fld W 8 5 = d.val) (h3 : fld W 13 5 = a.val) (h4 : fld W 18 2 = r.val) (h5 : fld W 18 5 = r.val) (h6 : fld W 20 3 = 0) (h7 : fld W 23 2 = 3) (h8 : fld W 25 1 = (bit m)) (h9 : fld W 26 1 = (bit c)) (h10 : fld W 27 5 = 5) : decodeBits W = .ok (.vdiv c m d a (.vs r)) := by
  have hb0 := bit_lt c
  have hb1 := bit_lt m
  have hb2 := d.isLt
  have hb3 := a.isLt
  rw [decodeBits_word h0 hm]
  rw [decode32.eq_1, h1]
  show (decodeV21 W : Except Reject Instr) = _
  rw [decodeV21.eq_1, h10]
  show (src W fun b => .vdiv (flag W 26) (flag W 25) (xr W 8) (xr W 13) b : Except Reject Instr) = _
  simp only [h1, h2, h3, h4, h5, h6, h7, h8, h9, h10, src, bit_beq, xr, lo8, lane, bv, flag, zero, Except.bind, ofNat_val, ofNat_toNat, if_true, if_false, Nat.reduceBEq, Bool.false_eq_true, true_and, and_true, and_self, or_self, not_false_eq_true, ne_eq, Nat.reduceLT, Nat.reduceLeDiff, Nat.reduceEqDiff, bit_zero, bit_one]
theorem codes_encVdiv (c : Bool) (m : Bool) (d : VReg) (a : VReg) (b : VSrc) : Codes (encVdiv c m d a b) (.vdiv c m d a b) := by
  have hb0 := bit_lt c
  have hb1 := bit_lt m
  have hb2 := d.isLt
  have hb3 := a.isLt
  cases b with
  | vv r =>
    have hbr := r.isLt
    show Codes (4, fV 5 (bit c) (bit m) 0 r.val a d 0x21) (.vdiv c m d a (.vv r))
    have F := @fV_fields (5) ((bit c)) ((bit m)) (0) (r.val) (a.val) (d.val) (0x21) (by omega) (by omega) (by omega) (by omega) (by omega) (by omega) (by omega) (by omega)
    obtain ⟨hm, f27_5, f26_1, f25_1, f23_2, f18_5, f13_5, f8_5, f2_6, f0_2⟩ := F
    exact .word hm f0_2 (decodeBits_ofVdiv_vv c m d a r hm (f0_2.trans (by omega)) (f2_6.trans (by omega)) (f8_5.trans (by omega)) (f13_5.trans (by omega)) (f18_5.trans (by omega)) (f23_2.trans (by omega)) (f25_1.trans (by omega)) (f26_1.trans (by omega)) (f27_5.trans (by omega)))
  | vx r =>
    have hbr := r.isLt
    show Codes (4, fV 5 (bit c) (bit m) 1 r.val a d 0x21) (.vdiv c m d a (.vx r))
    have F := @fV_fields (5) ((bit c)) ((bit m)) (1) (r.val) (a.val) (d.val) (0x21) (by omega) (by omega) (by omega) (by omega) (by omega) (by omega) (by omega) (by omega)
    obtain ⟨hm, f27_5, f26_1, f25_1, f23_2, f18_5, f13_5, f8_5, f2_6, f0_2⟩ := F
    exact .word hm f0_2 (decodeBits_ofVdiv_vx c m d a r hm (f0_2.trans (by omega)) (f2_6.trans (by omega)) (f8_5.trans (by omega)) (f13_5.trans (by omega)) (f18_5.trans (by omega)) (f23_2.trans (by omega)) (f25_1.trans (by omega)) (f26_1.trans (by omega)) (f27_5.trans (by omega)))
  | vi r =>
    have hbr := r.isLt
    show Codes (4, fV 5 (bit c) (bit m) 2 r.toNat a d 0x21) (.vdiv c m d a (.vi r))
    have F := @fV_fields (5) ((bit c)) ((bit m)) (2) (r.toNat) (a.val) (d.val) (0x21) (by omega) (by omega) (by omega) (by omega) (by omega) (by omega) (by omega) (by omega)
    obtain ⟨hm, f27_5, f26_1, f25_1, f23_2, f18_5, f13_5, f8_5, f2_6, f0_2⟩ := F
    exact .word hm f0_2 (decodeBits_ofVdiv_vi c m d a r hm (f0_2.trans (by omega)) (f2_6.trans (by omega)) (f8_5.trans (by omega)) (f13_5.trans (by omega)) (f18_5.trans (by omega)) (f23_2.trans (by omega)) (f25_1.trans (by omega)) (f26_1.trans (by omega)) (f27_5.trans (by omega)))
  | vs r =>
    have hbr := r.isLt
    show Codes (4, fV 5 (bit c) (bit m) 3 r.val a d 0x21) (.vdiv c m d a (.vs r))
    have F := @fV_fields (5) ((bit c)) ((bit m)) (3) (r.val) (a.val) (d.val) (0x21) (by omega) (by omega) (by omega) (by omega) (by omega) (by omega) (by omega) (by omega)
    obtain ⟨hm, f27_5, f26_1, f25_1, f23_2, f18_5, f13_5, f8_5, f2_6, f0_2⟩ := F
    exact .word hm f0_2 (decodeBits_ofVdiv_vs c m d a r hm (f0_2.trans (by omega)) (f2_6.trans (by omega)) (f8_5.trans (by omega)) (f13_5.trans (by omega)) ((fld_sub (o := 0) (k := 2) f18_5 rfl (by decide)).trans (by omega)) (f18_5.trans (by omega)) ((fld_sub (o := 2) (k := 3) f18_5 rfl (by decide)).trans (by omega)) (f23_2.trans (by omega)) (f25_1.trans (by omega)) (f26_1.trans (by omega)) (f27_5.trans (by omega)))

theorem decodeBits_ofVrem_vv (c : Bool) (m : Bool) (d : VReg) (a : VReg) (r : VReg) {W : Nat} (hm : W < 2 ^ 32) (h0 : fld W 0 2 = 1) (h1 : fld W 2 6 = 33) (h2 : fld W 8 5 = d.val) (h3 : fld W 13 5 = a.val) (h5 : fld W 18 5 = r.val) (h7 : fld W 23 2 = 0) (h8 : fld W 25 1 = (bit m)) (h9 : fld W 26 1 = (bit c)) (h10 : fld W 27 5 = 6) : decodeBits W = .ok (.vrem c m d a (.vv r)) := by
  have hb0 := bit_lt c
  have hb1 := bit_lt m
  have hb2 := d.isLt
  have hb3 := a.isLt
  rw [decodeBits_word h0 hm]
  rw [decode32.eq_1, h1]
  show (decodeV21 W : Except Reject Instr) = _
  rw [decodeV21.eq_1, h10]
  show (src W fun b => .vrem (flag W 26) (flag W 25) (xr W 8) (xr W 13) b : Except Reject Instr) = _
  simp only [h1, h2, h3, h5, h7, h8, h9, h10, src, bit_beq, xr, lo8, lane, bv, flag, zero, Except.bind, ofNat_val, ofNat_toNat, if_true, if_false, Nat.reduceBEq, Bool.false_eq_true, true_and, and_true, and_self, or_self, not_false_eq_true, ne_eq, Nat.reduceLT, Nat.reduceLeDiff, Nat.reduceEqDiff, bit_zero, bit_one]
theorem decodeBits_ofVrem_vx (c : Bool) (m : Bool) (d : VReg) (a : VReg) (r : XReg) {W : Nat} (hm : W < 2 ^ 32) (h0 : fld W 0 2 = 1) (h1 : fld W 2 6 = 33) (h2 : fld W 8 5 = d.val) (h3 : fld W 13 5 = a.val) (h5 : fld W 18 5 = r.val) (h7 : fld W 23 2 = 1) (h8 : fld W 25 1 = (bit m)) (h9 : fld W 26 1 = (bit c)) (h10 : fld W 27 5 = 6) : decodeBits W = .ok (.vrem c m d a (.vx r)) := by
  have hb0 := bit_lt c
  have hb1 := bit_lt m
  have hb2 := d.isLt
  have hb3 := a.isLt
  rw [decodeBits_word h0 hm]
  rw [decode32.eq_1, h1]
  show (decodeV21 W : Except Reject Instr) = _
  rw [decodeV21.eq_1, h10]
  show (src W fun b => .vrem (flag W 26) (flag W 25) (xr W 8) (xr W 13) b : Except Reject Instr) = _
  simp only [h1, h2, h3, h5, h7, h8, h9, h10, src, bit_beq, xr, lo8, lane, bv, flag, zero, Except.bind, ofNat_val, ofNat_toNat, if_true, if_false, Nat.reduceBEq, Bool.false_eq_true, true_and, and_true, and_self, or_self, not_false_eq_true, ne_eq, Nat.reduceLT, Nat.reduceLeDiff, Nat.reduceEqDiff, bit_zero, bit_one]
theorem decodeBits_ofVrem_vi (c : Bool) (m : Bool) (d : VReg) (a : VReg) (r : BitVec 5) {W : Nat} (hm : W < 2 ^ 32) (h0 : fld W 0 2 = 1) (h1 : fld W 2 6 = 33) (h2 : fld W 8 5 = d.val) (h3 : fld W 13 5 = a.val) (h5 : fld W 18 5 = r.toNat) (h7 : fld W 23 2 = 2) (h8 : fld W 25 1 = (bit m)) (h9 : fld W 26 1 = (bit c)) (h10 : fld W 27 5 = 6) : decodeBits W = .ok (.vrem c m d a (.vi r)) := by
  have hb0 := bit_lt c
  have hb1 := bit_lt m
  have hb2 := d.isLt
  have hb3 := a.isLt
  rw [decodeBits_word h0 hm]
  rw [decode32.eq_1, h1]
  show (decodeV21 W : Except Reject Instr) = _
  rw [decodeV21.eq_1, h10]
  show (src W fun b => .vrem (flag W 26) (flag W 25) (xr W 8) (xr W 13) b : Except Reject Instr) = _
  simp only [h1, h2, h3, h5, h7, h8, h9, h10, src, bit_beq, xr, lo8, lane, bv, flag, zero, Except.bind, ofNat_val, ofNat_toNat, if_true, if_false, Nat.reduceBEq, Bool.false_eq_true, true_and, and_true, and_self, or_self, not_false_eq_true, ne_eq, Nat.reduceLT, Nat.reduceLeDiff, Nat.reduceEqDiff, bit_zero, bit_one]
theorem decodeBits_ofVrem_vs (c : Bool) (m : Bool) (d : VReg) (a : VReg) (r : SReg) {W : Nat} (hm : W < 2 ^ 32) (h0 : fld W 0 2 = 1) (h1 : fld W 2 6 = 33) (h2 : fld W 8 5 = d.val) (h3 : fld W 13 5 = a.val) (h4 : fld W 18 2 = r.val) (h5 : fld W 18 5 = r.val) (h6 : fld W 20 3 = 0) (h7 : fld W 23 2 = 3) (h8 : fld W 25 1 = (bit m)) (h9 : fld W 26 1 = (bit c)) (h10 : fld W 27 5 = 6) : decodeBits W = .ok (.vrem c m d a (.vs r)) := by
  have hb0 := bit_lt c
  have hb1 := bit_lt m
  have hb2 := d.isLt
  have hb3 := a.isLt
  rw [decodeBits_word h0 hm]
  rw [decode32.eq_1, h1]
  show (decodeV21 W : Except Reject Instr) = _
  rw [decodeV21.eq_1, h10]
  show (src W fun b => .vrem (flag W 26) (flag W 25) (xr W 8) (xr W 13) b : Except Reject Instr) = _
  simp only [h1, h2, h3, h4, h5, h6, h7, h8, h9, h10, src, bit_beq, xr, lo8, lane, bv, flag, zero, Except.bind, ofNat_val, ofNat_toNat, if_true, if_false, Nat.reduceBEq, Bool.false_eq_true, true_and, and_true, and_self, or_self, not_false_eq_true, ne_eq, Nat.reduceLT, Nat.reduceLeDiff, Nat.reduceEqDiff, bit_zero, bit_one]
theorem codes_encVrem (c : Bool) (m : Bool) (d : VReg) (a : VReg) (b : VSrc) : Codes (encVrem c m d a b) (.vrem c m d a b) := by
  have hb0 := bit_lt c
  have hb1 := bit_lt m
  have hb2 := d.isLt
  have hb3 := a.isLt
  cases b with
  | vv r =>
    have hbr := r.isLt
    show Codes (4, fV 6 (bit c) (bit m) 0 r.val a d 0x21) (.vrem c m d a (.vv r))
    have F := @fV_fields (6) ((bit c)) ((bit m)) (0) (r.val) (a.val) (d.val) (0x21) (by omega) (by omega) (by omega) (by omega) (by omega) (by omega) (by omega) (by omega)
    obtain ⟨hm, f27_5, f26_1, f25_1, f23_2, f18_5, f13_5, f8_5, f2_6, f0_2⟩ := F
    exact .word hm f0_2 (decodeBits_ofVrem_vv c m d a r hm (f0_2.trans (by omega)) (f2_6.trans (by omega)) (f8_5.trans (by omega)) (f13_5.trans (by omega)) (f18_5.trans (by omega)) (f23_2.trans (by omega)) (f25_1.trans (by omega)) (f26_1.trans (by omega)) (f27_5.trans (by omega)))
  | vx r =>
    have hbr := r.isLt
    show Codes (4, fV 6 (bit c) (bit m) 1 r.val a d 0x21) (.vrem c m d a (.vx r))
    have F := @fV_fields (6) ((bit c)) ((bit m)) (1) (r.val) (a.val) (d.val) (0x21) (by omega) (by omega) (by omega) (by omega) (by omega) (by omega) (by omega) (by omega)
    obtain ⟨hm, f27_5, f26_1, f25_1, f23_2, f18_5, f13_5, f8_5, f2_6, f0_2⟩ := F
    exact .word hm f0_2 (decodeBits_ofVrem_vx c m d a r hm (f0_2.trans (by omega)) (f2_6.trans (by omega)) (f8_5.trans (by omega)) (f13_5.trans (by omega)) (f18_5.trans (by omega)) (f23_2.trans (by omega)) (f25_1.trans (by omega)) (f26_1.trans (by omega)) (f27_5.trans (by omega)))
  | vi r =>
    have hbr := r.isLt
    show Codes (4, fV 6 (bit c) (bit m) 2 r.toNat a d 0x21) (.vrem c m d a (.vi r))
    have F := @fV_fields (6) ((bit c)) ((bit m)) (2) (r.toNat) (a.val) (d.val) (0x21) (by omega) (by omega) (by omega) (by omega) (by omega) (by omega) (by omega) (by omega)
    obtain ⟨hm, f27_5, f26_1, f25_1, f23_2, f18_5, f13_5, f8_5, f2_6, f0_2⟩ := F
    exact .word hm f0_2 (decodeBits_ofVrem_vi c m d a r hm (f0_2.trans (by omega)) (f2_6.trans (by omega)) (f8_5.trans (by omega)) (f13_5.trans (by omega)) (f18_5.trans (by omega)) (f23_2.trans (by omega)) (f25_1.trans (by omega)) (f26_1.trans (by omega)) (f27_5.trans (by omega)))
  | vs r =>
    have hbr := r.isLt
    show Codes (4, fV 6 (bit c) (bit m) 3 r.val a d 0x21) (.vrem c m d a (.vs r))
    have F := @fV_fields (6) ((bit c)) ((bit m)) (3) (r.val) (a.val) (d.val) (0x21) (by omega) (by omega) (by omega) (by omega) (by omega) (by omega) (by omega) (by omega)
    obtain ⟨hm, f27_5, f26_1, f25_1, f23_2, f18_5, f13_5, f8_5, f2_6, f0_2⟩ := F
    exact .word hm f0_2 (decodeBits_ofVrem_vs c m d a r hm (f0_2.trans (by omega)) (f2_6.trans (by omega)) (f8_5.trans (by omega)) (f13_5.trans (by omega)) ((fld_sub (o := 0) (k := 2) f18_5 rfl (by decide)).trans (by omega)) (f18_5.trans (by omega)) ((fld_sub (o := 2) (k := 3) f18_5 rfl (by decide)).trans (by omega)) (f23_2.trans (by omega)) (f25_1.trans (by omega)) (f26_1.trans (by omega)) (f27_5.trans (by omega)))

theorem decodeBits_ofVmin_vv (c : Bool) (m : Bool) (d : VReg) (a : VReg) (r : VReg) {W : Nat} (hm : W < 2 ^ 32) (h0 : fld W 0 2 = 1) (h1 : fld W 2 6 = 33) (h2 : fld W 8 5 = d.val) (h3 : fld W 13 5 = a.val) (h5 : fld W 18 5 = r.val) (h7 : fld W 23 2 = 0) (h8 : fld W 25 1 = (bit m)) (h9 : fld W 26 1 = (bit c)) (h10 : fld W 27 5 = 7) : decodeBits W = .ok (.vmin c m d a (.vv r)) := by
  have hb0 := bit_lt c
  have hb1 := bit_lt m
  have hb2 := d.isLt
  have hb3 := a.isLt
  rw [decodeBits_word h0 hm]
  rw [decode32.eq_1, h1]
  show (decodeV21 W : Except Reject Instr) = _
  rw [decodeV21.eq_1, h10]
  show (src W fun b => .vmin (flag W 26) (flag W 25) (xr W 8) (xr W 13) b : Except Reject Instr) = _
  simp only [h1, h2, h3, h5, h7, h8, h9, h10, src, bit_beq, xr, lo8, lane, bv, flag, zero, Except.bind, ofNat_val, ofNat_toNat, if_true, if_false, Nat.reduceBEq, Bool.false_eq_true, true_and, and_true, and_self, or_self, not_false_eq_true, ne_eq, Nat.reduceLT, Nat.reduceLeDiff, Nat.reduceEqDiff, bit_zero, bit_one]
theorem decodeBits_ofVmin_vx (c : Bool) (m : Bool) (d : VReg) (a : VReg) (r : XReg) {W : Nat} (hm : W < 2 ^ 32) (h0 : fld W 0 2 = 1) (h1 : fld W 2 6 = 33) (h2 : fld W 8 5 = d.val) (h3 : fld W 13 5 = a.val) (h5 : fld W 18 5 = r.val) (h7 : fld W 23 2 = 1) (h8 : fld W 25 1 = (bit m)) (h9 : fld W 26 1 = (bit c)) (h10 : fld W 27 5 = 7) : decodeBits W = .ok (.vmin c m d a (.vx r)) := by
  have hb0 := bit_lt c
  have hb1 := bit_lt m
  have hb2 := d.isLt
  have hb3 := a.isLt
  rw [decodeBits_word h0 hm]
  rw [decode32.eq_1, h1]
  show (decodeV21 W : Except Reject Instr) = _
  rw [decodeV21.eq_1, h10]
  show (src W fun b => .vmin (flag W 26) (flag W 25) (xr W 8) (xr W 13) b : Except Reject Instr) = _
  simp only [h1, h2, h3, h5, h7, h8, h9, h10, src, bit_beq, xr, lo8, lane, bv, flag, zero, Except.bind, ofNat_val, ofNat_toNat, if_true, if_false, Nat.reduceBEq, Bool.false_eq_true, true_and, and_true, and_self, or_self, not_false_eq_true, ne_eq, Nat.reduceLT, Nat.reduceLeDiff, Nat.reduceEqDiff, bit_zero, bit_one]
theorem decodeBits_ofVmin_vi (c : Bool) (m : Bool) (d : VReg) (a : VReg) (r : BitVec 5) {W : Nat} (hm : W < 2 ^ 32) (h0 : fld W 0 2 = 1) (h1 : fld W 2 6 = 33) (h2 : fld W 8 5 = d.val) (h3 : fld W 13 5 = a.val) (h5 : fld W 18 5 = r.toNat) (h7 : fld W 23 2 = 2) (h8 : fld W 25 1 = (bit m)) (h9 : fld W 26 1 = (bit c)) (h10 : fld W 27 5 = 7) : decodeBits W = .ok (.vmin c m d a (.vi r)) := by
  have hb0 := bit_lt c
  have hb1 := bit_lt m
  have hb2 := d.isLt
  have hb3 := a.isLt
  rw [decodeBits_word h0 hm]
  rw [decode32.eq_1, h1]
  show (decodeV21 W : Except Reject Instr) = _
  rw [decodeV21.eq_1, h10]
  show (src W fun b => .vmin (flag W 26) (flag W 25) (xr W 8) (xr W 13) b : Except Reject Instr) = _
  simp only [h1, h2, h3, h5, h7, h8, h9, h10, src, bit_beq, xr, lo8, lane, bv, flag, zero, Except.bind, ofNat_val, ofNat_toNat, if_true, if_false, Nat.reduceBEq, Bool.false_eq_true, true_and, and_true, and_self, or_self, not_false_eq_true, ne_eq, Nat.reduceLT, Nat.reduceLeDiff, Nat.reduceEqDiff, bit_zero, bit_one]
theorem decodeBits_ofVmin_vs (c : Bool) (m : Bool) (d : VReg) (a : VReg) (r : SReg) {W : Nat} (hm : W < 2 ^ 32) (h0 : fld W 0 2 = 1) (h1 : fld W 2 6 = 33) (h2 : fld W 8 5 = d.val) (h3 : fld W 13 5 = a.val) (h4 : fld W 18 2 = r.val) (h5 : fld W 18 5 = r.val) (h6 : fld W 20 3 = 0) (h7 : fld W 23 2 = 3) (h8 : fld W 25 1 = (bit m)) (h9 : fld W 26 1 = (bit c)) (h10 : fld W 27 5 = 7) : decodeBits W = .ok (.vmin c m d a (.vs r)) := by
  have hb0 := bit_lt c
  have hb1 := bit_lt m
  have hb2 := d.isLt
  have hb3 := a.isLt
  rw [decodeBits_word h0 hm]
  rw [decode32.eq_1, h1]
  show (decodeV21 W : Except Reject Instr) = _
  rw [decodeV21.eq_1, h10]
  show (src W fun b => .vmin (flag W 26) (flag W 25) (xr W 8) (xr W 13) b : Except Reject Instr) = _
  simp only [h1, h2, h3, h4, h5, h6, h7, h8, h9, h10, src, bit_beq, xr, lo8, lane, bv, flag, zero, Except.bind, ofNat_val, ofNat_toNat, if_true, if_false, Nat.reduceBEq, Bool.false_eq_true, true_and, and_true, and_self, or_self, not_false_eq_true, ne_eq, Nat.reduceLT, Nat.reduceLeDiff, Nat.reduceEqDiff, bit_zero, bit_one]
theorem codes_encVmin (c : Bool) (m : Bool) (d : VReg) (a : VReg) (b : VSrc) : Codes (encVmin c m d a b) (.vmin c m d a b) := by
  have hb0 := bit_lt c
  have hb1 := bit_lt m
  have hb2 := d.isLt
  have hb3 := a.isLt
  cases b with
  | vv r =>
    have hbr := r.isLt
    show Codes (4, fV 7 (bit c) (bit m) 0 r.val a d 0x21) (.vmin c m d a (.vv r))
    have F := @fV_fields (7) ((bit c)) ((bit m)) (0) (r.val) (a.val) (d.val) (0x21) (by omega) (by omega) (by omega) (by omega) (by omega) (by omega) (by omega) (by omega)
    obtain ⟨hm, f27_5, f26_1, f25_1, f23_2, f18_5, f13_5, f8_5, f2_6, f0_2⟩ := F
    exact .word hm f0_2 (decodeBits_ofVmin_vv c m d a r hm (f0_2.trans (by omega)) (f2_6.trans (by omega)) (f8_5.trans (by omega)) (f13_5.trans (by omega)) (f18_5.trans (by omega)) (f23_2.trans (by omega)) (f25_1.trans (by omega)) (f26_1.trans (by omega)) (f27_5.trans (by omega)))
  | vx r =>
    have hbr := r.isLt
    show Codes (4, fV 7 (bit c) (bit m) 1 r.val a d 0x21) (.vmin c m d a (.vx r))
    have F := @fV_fields (7) ((bit c)) ((bit m)) (1) (r.val) (a.val) (d.val) (0x21) (by omega) (by omega) (by omega) (by omega) (by omega) (by omega) (by omega) (by omega)
    obtain ⟨hm, f27_5, f26_1, f25_1, f23_2, f18_5, f13_5, f8_5, f2_6, f0_2⟩ := F
    exact .word hm f0_2 (decodeBits_ofVmin_vx c m d a r hm (f0_2.trans (by omega)) (f2_6.trans (by omega)) (f8_5.trans (by omega)) (f13_5.trans (by omega)) (f18_5.trans (by omega)) (f23_2.trans (by omega)) (f25_1.trans (by omega)) (f26_1.trans (by omega)) (f27_5.trans (by omega)))
  | vi r =>
    have hbr := r.isLt
    show Codes (4, fV 7 (bit c) (bit m) 2 r.toNat a d 0x21) (.vmin c m d a (.vi r))
    have F := @fV_fields (7) ((bit c)) ((bit m)) (2) (r.toNat) (a.val) (d.val) (0x21) (by omega) (by omega) (by omega) (by omega) (by omega) (by omega) (by omega) (by omega)
    obtain ⟨hm, f27_5, f26_1, f25_1, f23_2, f18_5, f13_5, f8_5, f2_6, f0_2⟩ := F
    exact .word hm f0_2 (decodeBits_ofVmin_vi c m d a r hm (f0_2.trans (by omega)) (f2_6.trans (by omega)) (f8_5.trans (by omega)) (f13_5.trans (by omega)) (f18_5.trans (by omega)) (f23_2.trans (by omega)) (f25_1.trans (by omega)) (f26_1.trans (by omega)) (f27_5.trans (by omega)))
  | vs r =>
    have hbr := r.isLt
    show Codes (4, fV 7 (bit c) (bit m) 3 r.val a d 0x21) (.vmin c m d a (.vs r))
    have F := @fV_fields (7) ((bit c)) ((bit m)) (3) (r.val) (a.val) (d.val) (0x21) (by omega) (by omega) (by omega) (by omega) (by omega) (by omega) (by omega) (by omega)
    obtain ⟨hm, f27_5, f26_1, f25_1, f23_2, f18_5, f13_5, f8_5, f2_6, f0_2⟩ := F
    exact .word hm f0_2 (decodeBits_ofVmin_vs c m d a r hm (f0_2.trans (by omega)) (f2_6.trans (by omega)) (f8_5.trans (by omega)) (f13_5.trans (by omega)) ((fld_sub (o := 0) (k := 2) f18_5 rfl (by decide)).trans (by omega)) (f18_5.trans (by omega)) ((fld_sub (o := 2) (k := 3) f18_5 rfl (by decide)).trans (by omega)) (f23_2.trans (by omega)) (f25_1.trans (by omega)) (f26_1.trans (by omega)) (f27_5.trans (by omega)))

theorem decodeBits_ofVmax_vv (c : Bool) (m : Bool) (d : VReg) (a : VReg) (r : VReg) {W : Nat} (hm : W < 2 ^ 32) (h0 : fld W 0 2 = 1) (h1 : fld W 2 6 = 33) (h2 : fld W 8 5 = d.val) (h3 : fld W 13 5 = a.val) (h5 : fld W 18 5 = r.val) (h7 : fld W 23 2 = 0) (h8 : fld W 25 1 = (bit m)) (h9 : fld W 26 1 = (bit c)) (h10 : fld W 27 5 = 8) : decodeBits W = .ok (.vmax c m d a (.vv r)) := by
  have hb0 := bit_lt c
  have hb1 := bit_lt m
  have hb2 := d.isLt
  have hb3 := a.isLt
  rw [decodeBits_word h0 hm]
  rw [decode32.eq_1, h1]
  show (decodeV21 W : Except Reject Instr) = _
  rw [decodeV21.eq_1, h10]
  show (src W fun b => .vmax (flag W 26) (flag W 25) (xr W 8) (xr W 13) b : Except Reject Instr) = _
  simp only [h1, h2, h3, h5, h7, h8, h9, h10, src, bit_beq, xr, lo8, lane, bv, flag, zero, Except.bind, ofNat_val, ofNat_toNat, if_true, if_false, Nat.reduceBEq, Bool.false_eq_true, true_and, and_true, and_self, or_self, not_false_eq_true, ne_eq, Nat.reduceLT, Nat.reduceLeDiff, Nat.reduceEqDiff, bit_zero, bit_one]
theorem decodeBits_ofVmax_vx (c : Bool) (m : Bool) (d : VReg) (a : VReg) (r : XReg) {W : Nat} (hm : W < 2 ^ 32) (h0 : fld W 0 2 = 1) (h1 : fld W 2 6 = 33) (h2 : fld W 8 5 = d.val) (h3 : fld W 13 5 = a.val) (h5 : fld W 18 5 = r.val) (h7 : fld W 23 2 = 1) (h8 : fld W 25 1 = (bit m)) (h9 : fld W 26 1 = (bit c)) (h10 : fld W 27 5 = 8) : decodeBits W = .ok (.vmax c m d a (.vx r)) := by
  have hb0 := bit_lt c
  have hb1 := bit_lt m
  have hb2 := d.isLt
  have hb3 := a.isLt
  rw [decodeBits_word h0 hm]
  rw [decode32.eq_1, h1]
  show (decodeV21 W : Except Reject Instr) = _
  rw [decodeV21.eq_1, h10]
  show (src W fun b => .vmax (flag W 26) (flag W 25) (xr W 8) (xr W 13) b : Except Reject Instr) = _
  simp only [h1, h2, h3, h5, h7, h8, h9, h10, src, bit_beq, xr, lo8, lane, bv, flag, zero, Except.bind, ofNat_val, ofNat_toNat, if_true, if_false, Nat.reduceBEq, Bool.false_eq_true, true_and, and_true, and_self, or_self, not_false_eq_true, ne_eq, Nat.reduceLT, Nat.reduceLeDiff, Nat.reduceEqDiff, bit_zero, bit_one]
theorem decodeBits_ofVmax_vi (c : Bool) (m : Bool) (d : VReg) (a : VReg) (r : BitVec 5) {W : Nat} (hm : W < 2 ^ 32) (h0 : fld W 0 2 = 1) (h1 : fld W 2 6 = 33) (h2 : fld W 8 5 = d.val) (h3 : fld W 13 5 = a.val) (h5 : fld W 18 5 = r.toNat) (h7 : fld W 23 2 = 2) (h8 : fld W 25 1 = (bit m)) (h9 : fld W 26 1 = (bit c)) (h10 : fld W 27 5 = 8) : decodeBits W = .ok (.vmax c m d a (.vi r)) := by
  have hb0 := bit_lt c
  have hb1 := bit_lt m
  have hb2 := d.isLt
  have hb3 := a.isLt
  rw [decodeBits_word h0 hm]
  rw [decode32.eq_1, h1]
  show (decodeV21 W : Except Reject Instr) = _
  rw [decodeV21.eq_1, h10]
  show (src W fun b => .vmax (flag W 26) (flag W 25) (xr W 8) (xr W 13) b : Except Reject Instr) = _
  simp only [h1, h2, h3, h5, h7, h8, h9, h10, src, bit_beq, xr, lo8, lane, bv, flag, zero, Except.bind, ofNat_val, ofNat_toNat, if_true, if_false, Nat.reduceBEq, Bool.false_eq_true, true_and, and_true, and_self, or_self, not_false_eq_true, ne_eq, Nat.reduceLT, Nat.reduceLeDiff, Nat.reduceEqDiff, bit_zero, bit_one]
theorem decodeBits_ofVmax_vs (c : Bool) (m : Bool) (d : VReg) (a : VReg) (r : SReg) {W : Nat} (hm : W < 2 ^ 32) (h0 : fld W 0 2 = 1) (h1 : fld W 2 6 = 33) (h2 : fld W 8 5 = d.val) (h3 : fld W 13 5 = a.val) (h4 : fld W 18 2 = r.val) (h5 : fld W 18 5 = r.val) (h6 : fld W 20 3 = 0) (h7 : fld W 23 2 = 3) (h8 : fld W 25 1 = (bit m)) (h9 : fld W 26 1 = (bit c)) (h10 : fld W 27 5 = 8) : decodeBits W = .ok (.vmax c m d a (.vs r)) := by
  have hb0 := bit_lt c
  have hb1 := bit_lt m
  have hb2 := d.isLt
  have hb3 := a.isLt
  rw [decodeBits_word h0 hm]
  rw [decode32.eq_1, h1]
  show (decodeV21 W : Except Reject Instr) = _
  rw [decodeV21.eq_1, h10]
  show (src W fun b => .vmax (flag W 26) (flag W 25) (xr W 8) (xr W 13) b : Except Reject Instr) = _
  simp only [h1, h2, h3, h4, h5, h6, h7, h8, h9, h10, src, bit_beq, xr, lo8, lane, bv, flag, zero, Except.bind, ofNat_val, ofNat_toNat, if_true, if_false, Nat.reduceBEq, Bool.false_eq_true, true_and, and_true, and_self, or_self, not_false_eq_true, ne_eq, Nat.reduceLT, Nat.reduceLeDiff, Nat.reduceEqDiff, bit_zero, bit_one]
theorem codes_encVmax (c : Bool) (m : Bool) (d : VReg) (a : VReg) (b : VSrc) : Codes (encVmax c m d a b) (.vmax c m d a b) := by
  have hb0 := bit_lt c
  have hb1 := bit_lt m
  have hb2 := d.isLt
  have hb3 := a.isLt
  cases b with
  | vv r =>
    have hbr := r.isLt
    show Codes (4, fV 8 (bit c) (bit m) 0 r.val a d 0x21) (.vmax c m d a (.vv r))
    have F := @fV_fields (8) ((bit c)) ((bit m)) (0) (r.val) (a.val) (d.val) (0x21) (by omega) (by omega) (by omega) (by omega) (by omega) (by omega) (by omega) (by omega)
    obtain ⟨hm, f27_5, f26_1, f25_1, f23_2, f18_5, f13_5, f8_5, f2_6, f0_2⟩ := F
    exact .word hm f0_2 (decodeBits_ofVmax_vv c m d a r hm (f0_2.trans (by omega)) (f2_6.trans (by omega)) (f8_5.trans (by omega)) (f13_5.trans (by omega)) (f18_5.trans (by omega)) (f23_2.trans (by omega)) (f25_1.trans (by omega)) (f26_1.trans (by omega)) (f27_5.trans (by omega)))
  | vx r =>
    have hbr := r.isLt
    show Codes (4, fV 8 (bit c) (bit m) 1 r.val a d 0x21) (.vmax c m d a (.vx r))
    have F := @fV_fields (8) ((bit c)) ((bit m)) (1) (r.val) (a.val) (d.val) (0x21) (by omega) (by omega) (by omega) (by omega) (by omega) (by omega) (by omega) (by omega)
    obtain ⟨hm, f27_5, f26_1, f25_1, f23_2, f18_5, f13_5, f8_5, f2_6, f0_2⟩ := F
    exact .word hm f0_2 (decodeBits_ofVmax_vx c m d a r hm (f0_2.trans (by omega)) (f2_6.trans (by omega)) (f8_5.trans (by omega)) (f13_5.trans (by omega)) (f18_5.trans (by omega)) (f23_2.trans (by omega)) (f25_1.trans (by omega)) (f26_1.trans (by omega)) (f27_5.trans (by omega)))
  | vi r =>
    have hbr := r.isLt
    show Codes (4, fV 8 (bit c) (bit m) 2 r.toNat a d 0x21) (.vmax c m d a (.vi r))
    have F := @fV_fields (8) ((bit c)) ((bit m)) (2) (r.toNat) (a.val) (d.val) (0x21) (by omega) (by omega) (by omega) (by omega) (by omega) (by omega) (by omega) (by omega)
    obtain ⟨hm, f27_5, f26_1, f25_1, f23_2, f18_5, f13_5, f8_5, f2_6, f0_2⟩ := F
    exact .word hm f0_2 (decodeBits_ofVmax_vi c m d a r hm (f0_2.trans (by omega)) (f2_6.trans (by omega)) (f8_5.trans (by omega)) (f13_5.trans (by omega)) (f18_5.trans (by omega)) (f23_2.trans (by omega)) (f25_1.trans (by omega)) (f26_1.trans (by omega)) (f27_5.trans (by omega)))
  | vs r =>
    have hbr := r.isLt
    show Codes (4, fV 8 (bit c) (bit m) 3 r.val a d 0x21) (.vmax c m d a (.vs r))
    have F := @fV_fields (8) ((bit c)) ((bit m)) (3) (r.val) (a.val) (d.val) (0x21) (by omega) (by omega) (by omega) (by omega) (by omega) (by omega) (by omega) (by omega)
    obtain ⟨hm, f27_5, f26_1, f25_1, f23_2, f18_5, f13_5, f8_5, f2_6, f0_2⟩ := F
    exact .word hm f0_2 (decodeBits_ofVmax_vs c m d a r hm (f0_2.trans (by omega)) (f2_6.trans (by omega)) (f8_5.trans (by omega)) (f13_5.trans (by omega)) ((fld_sub (o := 0) (k := 2) f18_5 rfl (by decide)).trans (by omega)) (f18_5.trans (by omega)) ((fld_sub (o := 2) (k := 3) f18_5 rfl (by decide)).trans (by omega)) (f23_2.trans (by omega)) (f25_1.trans (by omega)) (f26_1.trans (by omega)) (f27_5.trans (by omega)))

theorem decodeBits_ofVand_vv (c : Bool) (m : Bool) (d : VReg) (a : VReg) (r : VReg) {W : Nat} (hm : W < 2 ^ 32) (h0 : fld W 0 2 = 1) (h1 : fld W 2 6 = 33) (h2 : fld W 8 5 = d.val) (h3 : fld W 13 5 = a.val) (h5 : fld W 18 5 = r.val) (h7 : fld W 23 2 = 0) (h8 : fld W 25 1 = (bit m)) (h9 : fld W 26 1 = (bit c)) (h10 : fld W 27 5 = 9) : decodeBits W = .ok (.vand c m d a (.vv r)) := by
  have hb0 := bit_lt c
  have hb1 := bit_lt m
  have hb2 := d.isLt
  have hb3 := a.isLt
  rw [decodeBits_word h0 hm]
  rw [decode32.eq_1, h1]
  show (decodeV21 W : Except Reject Instr) = _
  rw [decodeV21.eq_1, h10]
  show (src W fun b => .vand (flag W 26) (flag W 25) (xr W 8) (xr W 13) b : Except Reject Instr) = _
  simp only [h1, h2, h3, h5, h7, h8, h9, h10, src, bit_beq, xr, lo8, lane, bv, flag, zero, Except.bind, ofNat_val, ofNat_toNat, if_true, if_false, Nat.reduceBEq, Bool.false_eq_true, true_and, and_true, and_self, or_self, not_false_eq_true, ne_eq, Nat.reduceLT, Nat.reduceLeDiff, Nat.reduceEqDiff, bit_zero, bit_one]
theorem decodeBits_ofVand_vx (c : Bool) (m : Bool) (d : VReg) (a : VReg) (r : XReg) {W : Nat} (hm : W < 2 ^ 32) (h0 : fld W 0 2 = 1) (h1 : fld W 2 6 = 33) (h2 : fld W 8 5 = d.val) (h3 : fld W 13 5 = a.val) (h5 : fld W 18 5 = r.val) (h7 : fld W 23 2 = 1) (h8 : fld W 25 1 = (bit m)) (h9 : fld W 26 1 = (bit c)) (h10 : fld W 27 5 = 9) : decodeBits W = .ok (.vand c m d a (.vx r)) := by
  have hb0 := bit_lt c
  have hb1 := bit_lt m
  have hb2 := d.isLt
  have hb3 := a.isLt
  rw [decodeBits_word h0 hm]
  rw [decode32.eq_1, h1]
  show (decodeV21 W : Except Reject Instr) = _
  rw [decodeV21.eq_1, h10]
  show (src W fun b => .vand (flag W 26) (flag W 25) (xr W 8) (xr W 13) b : Except Reject Instr) = _
  simp only [h1, h2, h3, h5, h7, h8, h9, h10, src, bit_beq, xr, lo8, lane, bv, flag, zero, Except.bind, ofNat_val, ofNat_toNat, if_true, if_false, Nat.reduceBEq, Bool.false_eq_true, true_and, and_true, and_self, or_self, not_false_eq_true, ne_eq, Nat.reduceLT, Nat.reduceLeDiff, Nat.reduceEqDiff, bit_zero, bit_one]
theorem decodeBits_ofVand_vi (c : Bool) (m : Bool) (d : VReg) (a : VReg) (r : BitVec 5) {W : Nat} (hm : W < 2 ^ 32) (h0 : fld W 0 2 = 1) (h1 : fld W 2 6 = 33) (h2 : fld W 8 5 = d.val) (h3 : fld W 13 5 = a.val) (h5 : fld W 18 5 = r.toNat) (h7 : fld W 23 2 = 2) (h8 : fld W 25 1 = (bit m)) (h9 : fld W 26 1 = (bit c)) (h10 : fld W 27 5 = 9) : decodeBits W = .ok (.vand c m d a (.vi r)) := by
  have hb0 := bit_lt c
  have hb1 := bit_lt m
  have hb2 := d.isLt
  have hb3 := a.isLt
  rw [decodeBits_word h0 hm]
  rw [decode32.eq_1, h1]
  show (decodeV21 W : Except Reject Instr) = _
  rw [decodeV21.eq_1, h10]
  show (src W fun b => .vand (flag W 26) (flag W 25) (xr W 8) (xr W 13) b : Except Reject Instr) = _
  simp only [h1, h2, h3, h5, h7, h8, h9, h10, src, bit_beq, xr, lo8, lane, bv, flag, zero, Except.bind, ofNat_val, ofNat_toNat, if_true, if_false, Nat.reduceBEq, Bool.false_eq_true, true_and, and_true, and_self, or_self, not_false_eq_true, ne_eq, Nat.reduceLT, Nat.reduceLeDiff, Nat.reduceEqDiff, bit_zero, bit_one]
theorem decodeBits_ofVand_vs (c : Bool) (m : Bool) (d : VReg) (a : VReg) (r : SReg) {W : Nat} (hm : W < 2 ^ 32) (h0 : fld W 0 2 = 1) (h1 : fld W 2 6 = 33) (h2 : fld W 8 5 = d.val) (h3 : fld W 13 5 = a.val) (h4 : fld W 18 2 = r.val) (h5 : fld W 18 5 = r.val) (h6 : fld W 20 3 = 0) (h7 : fld W 23 2 = 3) (h8 : fld W 25 1 = (bit m)) (h9 : fld W 26 1 = (bit c)) (h10 : fld W 27 5 = 9) : decodeBits W = .ok (.vand c m d a (.vs r)) := by
  have hb0 := bit_lt c
  have hb1 := bit_lt m
  have hb2 := d.isLt
  have hb3 := a.isLt
  rw [decodeBits_word h0 hm]
  rw [decode32.eq_1, h1]
  show (decodeV21 W : Except Reject Instr) = _
  rw [decodeV21.eq_1, h10]
  show (src W fun b => .vand (flag W 26) (flag W 25) (xr W 8) (xr W 13) b : Except Reject Instr) = _
  simp only [h1, h2, h3, h4, h5, h6, h7, h8, h9, h10, src, bit_beq, xr, lo8, lane, bv, flag, zero, Except.bind, ofNat_val, ofNat_toNat, if_true, if_false, Nat.reduceBEq, Bool.false_eq_true, true_and, and_true, and_self, or_self, not_false_eq_true, ne_eq, Nat.reduceLT, Nat.reduceLeDiff, Nat.reduceEqDiff, bit_zero, bit_one]
theorem codes_encVand (c : Bool) (m : Bool) (d : VReg) (a : VReg) (b : VSrc) : Codes (encVand c m d a b) (.vand c m d a b) := by
  have hb0 := bit_lt c
  have hb1 := bit_lt m
  have hb2 := d.isLt
  have hb3 := a.isLt
  cases b with
  | vv r =>
    have hbr := r.isLt
    show Codes (4, fV 9 (bit c) (bit m) 0 r.val a d 0x21) (.vand c m d a (.vv r))
    have F := @fV_fields (9) ((bit c)) ((bit m)) (0) (r.val) (a.val) (d.val) (0x21) (by omega) (by omega) (by omega) (by omega) (by omega) (by omega) (by omega) (by omega)
    obtain ⟨hm, f27_5, f26_1, f25_1, f23_2, f18_5, f13_5, f8_5, f2_6, f0_2⟩ := F
    exact .word hm f0_2 (decodeBits_ofVand_vv c m d a r hm (f0_2.trans (by omega)) (f2_6.trans (by omega)) (f8_5.trans (by omega)) (f13_5.trans (by omega)) (f18_5.trans (by omega)) (f23_2.trans (by omega)) (f25_1.trans (by omega)) (f26_1.trans (by omega)) (f27_5.trans (by omega)))
  | vx r =>
    have hbr := r.isLt
    show Codes (4, fV 9 (bit c) (bit m) 1 r.val a d 0x21) (.vand c m d a (.vx r))
    have F := @fV_fields (9) ((bit c)) ((bit m)) (1) (r.val) (a.val) (d.val) (0x21) (by omega) (by omega) (by omega) (by omega) (by omega) (by omega) (by omega) (by omega)
    obtain ⟨hm, f27_5, f26_1, f25_1, f23_2, f18_5, f13_5, f8_5, f2_6, f0_2⟩ := F
    exact .word hm f0_2 (decodeBits_ofVand_vx c m d a r hm (f0_2.trans (by omega)) (f2_6.trans (by omega)) (f8_5.trans (by omega)) (f13_5.trans (by omega)) (f18_5.trans (by omega)) (f23_2.trans (by omega)) (f25_1.trans (by omega)) (f26_1.trans (by omega)) (f27_5.trans (by omega)))
  | vi r =>
    have hbr := r.isLt
    show Codes (4, fV 9 (bit c) (bit m) 2 r.toNat a d 0x21) (.vand c m d a (.vi r))
    have F := @fV_fields (9) ((bit c)) ((bit m)) (2) (r.toNat) (a.val) (d.val) (0x21) (by omega) (by omega) (by omega) (by omega) (by omega) (by omega) (by omega) (by omega)
    obtain ⟨hm, f27_5, f26_1, f25_1, f23_2, f18_5, f13_5, f8_5, f2_6, f0_2⟩ := F
    exact .word hm f0_2 (decodeBits_ofVand_vi c m d a r hm (f0_2.trans (by omega)) (f2_6.trans (by omega)) (f8_5.trans (by omega)) (f13_5.trans (by omega)) (f18_5.trans (by omega)) (f23_2.trans (by omega)) (f25_1.trans (by omega)) (f26_1.trans (by omega)) (f27_5.trans (by omega)))
  | vs r =>
    have hbr := r.isLt
    show Codes (4, fV 9 (bit c) (bit m) 3 r.val a d 0x21) (.vand c m d a (.vs r))
    have F := @fV_fields (9) ((bit c)) ((bit m)) (3) (r.val) (a.val) (d.val) (0x21) (by omega) (by omega) (by omega) (by omega) (by omega) (by omega) (by omega) (by omega)
    obtain ⟨hm, f27_5, f26_1, f25_1, f23_2, f18_5, f13_5, f8_5, f2_6, f0_2⟩ := F
    exact .word hm f0_2 (decodeBits_ofVand_vs c m d a r hm (f0_2.trans (by omega)) (f2_6.trans (by omega)) (f8_5.trans (by omega)) (f13_5.trans (by omega)) ((fld_sub (o := 0) (k := 2) f18_5 rfl (by decide)).trans (by omega)) (f18_5.trans (by omega)) ((fld_sub (o := 2) (k := 3) f18_5 rfl (by decide)).trans (by omega)) (f23_2.trans (by omega)) (f25_1.trans (by omega)) (f26_1.trans (by omega)) (f27_5.trans (by omega)))

theorem decodeBits_ofVor_vv (c : Bool) (m : Bool) (d : VReg) (a : VReg) (r : VReg) {W : Nat} (hm : W < 2 ^ 32) (h0 : fld W 0 2 = 1) (h1 : fld W 2 6 = 33) (h2 : fld W 8 5 = d.val) (h3 : fld W 13 5 = a.val) (h5 : fld W 18 5 = r.val) (h7 : fld W 23 2 = 0) (h8 : fld W 25 1 = (bit m)) (h9 : fld W 26 1 = (bit c)) (h10 : fld W 27 5 = 10) : decodeBits W = .ok (.vor c m d a (.vv r)) := by
  have hb0 := bit_lt c
  have hb1 := bit_lt m
  have hb2 := d.isLt
  have hb3 := a.isLt
  rw [decodeBits_word h0 hm]
  rw [decode32.eq_1, h1]
  show (decodeV21 W : Except Reject Instr) = _
  rw [decodeV21.eq_1, h10]
  show (src W fun b => .vor (flag W 26) (flag W 25) (xr W 8) (xr W 13) b : Except Reject Instr) = _
  simp only [h1, h2, h3, h5, h7, h8, h9, h10, src, bit_beq, xr, lo8, lane, bv, flag, zero, Except.bind, ofNat_val, ofNat_toNat, if_true, if_false, Nat.reduceBEq, Bool.false_eq_true, true_and, and_true, and_self, or_self, not_false_eq_true, ne_eq, Nat.reduceLT, Nat.reduceLeDiff, Nat.reduceEqDiff, bit_zero, bit_one]
theorem decodeBits_ofVor_vx (c : Bool) (m : Bool) (d : VReg) (a : VReg) (r : XReg) {W : Nat} (hm : W < 2 ^ 32) (h0 : fld W 0 2 = 1) (h1 : fld W 2 6 = 33) (h2 : fld W 8 5 = d.val) (h3 : fld W 13 5 = a.val) (h5 : fld W 18 5 = r.val) (h7 : fld W 23 2 = 1) (h8 : fld W 25 1 = (bit m)) (h9 : fld W 26 1 = (bit c)) (h10 : fld W 27 5 = 10) : decodeBits W = .ok (.vor c m d a (.vx r)) := by
  have hb0 := bit_lt c
  have hb1 := bit_lt m
  have hb2 := d.isLt
  have hb3 := a.isLt
  rw [decodeBits_word h0 hm]
  rw [decode32.eq_1, h1]
  show (decodeV21 W : Except Reject Instr) = _
  rw [decodeV21.eq_1, h10]
  show (src W fun b => .vor (flag W 26) (flag W 25) (xr W 8) (xr W 13) b : Except Reject Instr) = _
  simp only [h1, h2, h3, h5, h7, h8, h9, h10, src, bit_beq, xr, lo8, lane, bv, flag, zero, Except.bind, ofNat_val, ofNat_toNat, if_true, if_false, Nat.reduceBEq, Bool.false_eq_true, true_and, and_true, and_self, or_self, not_false_eq_true, ne_eq, Nat.reduceLT, Nat.reduceLeDiff, Nat.reduceEqDiff, bit_zero, bit_one]
theorem decodeBits_ofVor_vi (c : Bool) (m : Bool) (d : VReg) (a : VReg) (r : BitVec 5) {W : Nat} (hm : W < 2 ^ 32) (h0 : fld W 0 2 = 1) (h1 : fld W 2 6 = 33) (h2 : fld W 8 5 = d.val) (h3 : fld W 13 5 = a.val) (h5 : fld W 18 5 = r.toNat) (h7 : fld W 23 2 = 2) (h8 : fld W 25 1 = (bit m)) (h9 : fld W 26 1 = (bit c)) (h10 : fld W 27 5 = 10) : decodeBits W = .ok (.vor c m d a (.vi r)) := by
  have hb0 := bit_lt c
  have hb1 := bit_lt m
  have hb2 := d.isLt
  have hb3 := a.isLt
  rw [decodeBits_word h0 hm]
  rw [decode32.eq_1, h1]
  show (decodeV21 W : Except Reject Instr) = _
  rw [decodeV21.eq_1, h10]
  show (src W fun b => .vor (flag W 26) (flag W 25) (xr W 8) (xr W 13) b : Except Reject Instr) = _
  simp only [h1, h2, h3, h5, h7, h8, h9, h10, src, bit_beq, xr, lo8, lane, bv, flag, zero, Except.bind, ofNat_val, ofNat_toNat, if_true, if_false, Nat.reduceBEq, Bool.false_eq_true, true_and, and_true, and_self, or_self, not_false_eq_true, ne_eq, Nat.reduceLT, Nat.reduceLeDiff, Nat.reduceEqDiff, bit_zero, bit_one]
theorem decodeBits_ofVor_vs (c : Bool) (m : Bool) (d : VReg) (a : VReg) (r : SReg) {W : Nat} (hm : W < 2 ^ 32) (h0 : fld W 0 2 = 1) (h1 : fld W 2 6 = 33) (h2 : fld W 8 5 = d.val) (h3 : fld W 13 5 = a.val) (h4 : fld W 18 2 = r.val) (h5 : fld W 18 5 = r.val) (h6 : fld W 20 3 = 0) (h7 : fld W 23 2 = 3) (h8 : fld W 25 1 = (bit m)) (h9 : fld W 26 1 = (bit c)) (h10 : fld W 27 5 = 10) : decodeBits W = .ok (.vor c m d a (.vs r)) := by
  have hb0 := bit_lt c
  have hb1 := bit_lt m
  have hb2 := d.isLt
  have hb3 := a.isLt
  rw [decodeBits_word h0 hm]
  rw [decode32.eq_1, h1]
  show (decodeV21 W : Except Reject Instr) = _
  rw [decodeV21.eq_1, h10]
  show (src W fun b => .vor (flag W 26) (flag W 25) (xr W 8) (xr W 13) b : Except Reject Instr) = _
  simp only [h1, h2, h3, h4, h5, h6, h7, h8, h9, h10, src, bit_beq, xr, lo8, lane, bv, flag, zero, Except.bind, ofNat_val, ofNat_toNat, if_true, if_false, Nat.reduceBEq, Bool.false_eq_true, true_and, and_true, and_self, or_self, not_false_eq_true, ne_eq, Nat.reduceLT, Nat.reduceLeDiff, Nat.reduceEqDiff, bit_zero, bit_one]
theorem codes_encVor (c : Bool) (m : Bool) (d : VReg) (a : VReg) (b : VSrc) : Codes (encVor c m d a b) (.vor c m d a b) := by
  have hb0 := bit_lt c
  have hb1 := bit_lt m
  have hb2 := d.isLt
  have hb3 := a.isLt
  cases b with
  | vv r =>
    have hbr := r.isLt
    show Codes (4, fV 10 (bit c) (bit m) 0 r.val a d 0x21) (.vor c m d a (.vv r))
    have F := @fV_fields (10) ((bit c)) ((bit m)) (0) (r.val) (a.val) (d.val) (0x21) (by omega) (by omega) (by omega) (by omega) (by omega) (by omega) (by omega) (by omega)
    obtain ⟨hm, f27_5, f26_1, f25_1, f23_2, f18_5, f13_5, f8_5, f2_6, f0_2⟩ := F
    exact .word hm f0_2 (decodeBits_ofVor_vv c m d a r hm (f0_2.trans (by omega)) (f2_6.trans (by omega)) (f8_5.trans (by omega)) (f13_5.trans (by omega)) (f18_5.trans (by omega)) (f23_2.trans (by omega)) (f25_1.trans (by omega)) (f26_1.trans (by omega)) (f27_5.trans (by omega)))
  | vx r =>
    have hbr := r.isLt
    show Codes (4, fV 10 (bit c) (bit m) 1 r.val a d 0x21) (.vor c m d a (.vx r))
    have F := @fV_fields (10) ((bit c)) ((bit m)) (1) (r.val) (a.val) (d.val) (0x21) (by omega) (by omega) (by omega) (by omega) (by omega) (by omega) (by omega) (by omega)
    obtain ⟨hm, f27_5, f26_1, f25_1, f23_2, f18_5, f13_5, f8_5, f2_6, f0_2⟩ := F
    exact .word hm f0_2 (decodeBits_ofVor_vx c m d a r hm (f0_2.trans (by omega)) (f2_6.trans (by omega)) (f8_5.trans (by omega)) (f13_5.trans (by omega)) (f18_5.trans (by omega)) (f23_2.trans (by omega)) (f25_1.trans (by omega)) (f26_1.trans (by omega)) (f27_5.trans (by omega)))
  | vi r =>
    have hbr := r.isLt
    show Codes (4, fV 10 (bit c) (bit m) 2 r.toNat a d 0x21) (.vor c m d a (.vi r))
    have F := @fV_fields (10) ((bit c)) ((bit m)) (2) (r.toNat) (a.val) (d.val) (0x21) (by omega) (by omega) (by omega) (by omega) (by omega) (by omega) (by omega) (by omega)
    obtain ⟨hm, f27_5, f26_1, f25_1, f23_2, f18_5, f13_5, f8_5, f2_6, f0_2⟩ := F
    exact .word hm f0_2 (decodeBits_ofVor_vi c m d a r hm (f0_2.trans (by omega)) (f2_6.trans (by omega)) (f8_5.trans (by omega)) (f13_5.trans (by omega)) (f18_5.trans (by omega)) (f23_2.trans (by omega)) (f25_1.trans (by omega)) (f26_1.trans (by omega)) (f27_5.trans (by omega)))
  | vs r =>
    have hbr := r.isLt
    show Codes (4, fV 10 (bit c) (bit m) 3 r.val a d 0x21) (.vor c m d a (.vs r))
    have F := @fV_fields (10) ((bit c)) ((bit m)) (3) (r.val) (a.val) (d.val) (0x21) (by omega) (by omega) (by omega) (by omega) (by omega) (by omega) (by omega) (by omega)
    obtain ⟨hm, f27_5, f26_1, f25_1, f23_2, f18_5, f13_5, f8_5, f2_6, f0_2⟩ := F
    exact .word hm f0_2 (decodeBits_ofVor_vs c m d a r hm (f0_2.trans (by omega)) (f2_6.trans (by omega)) (f8_5.trans (by omega)) (f13_5.trans (by omega)) ((fld_sub (o := 0) (k := 2) f18_5 rfl (by decide)).trans (by omega)) (f18_5.trans (by omega)) ((fld_sub (o := 2) (k := 3) f18_5 rfl (by decide)).trans (by omega)) (f23_2.trans (by omega)) (f25_1.trans (by omega)) (f26_1.trans (by omega)) (f27_5.trans (by omega)))

theorem decodeBits_ofVxor_vv (c : Bool) (m : Bool) (d : VReg) (a : VReg) (r : VReg) {W : Nat} (hm : W < 2 ^ 32) (h0 : fld W 0 2 = 1) (h1 : fld W 2 6 = 33) (h2 : fld W 8 5 = d.val) (h3 : fld W 13 5 = a.val) (h5 : fld W 18 5 = r.val) (h7 : fld W 23 2 = 0) (h8 : fld W 25 1 = (bit m)) (h9 : fld W 26 1 = (bit c)) (h10 : fld W 27 5 = 11) : decodeBits W = .ok (.vxor c m d a (.vv r)) := by
  have hb0 := bit_lt c
  have hb1 := bit_lt m
  have hb2 := d.isLt
  have hb3 := a.isLt
  rw [decodeBits_word h0 hm]
  rw [decode32.eq_1, h1]
  show (decodeV21 W : Except Reject Instr) = _
  rw [decodeV21.eq_1, h10]
  show (src W fun b => .vxor (flag W 26) (flag W 25) (xr W 8) (xr W 13) b : Except Reject Instr) = _
  simp only [h1, h2, h3, h5, h7, h8, h9, h10, src, bit_beq, xr, lo8, lane, bv, flag, zero, Except.bind, ofNat_val, ofNat_toNat, if_true, if_false, Nat.reduceBEq, Bool.false_eq_true, true_and, and_true, and_self, or_self, not_false_eq_true, ne_eq, Nat.reduceLT, Nat.reduceLeDiff, Nat.reduceEqDiff, bit_zero, bit_one]
theorem decodeBits_ofVxor_vx (c : Bool) (m : Bool) (d : VReg) (a : VReg) (r : XReg) {W : Nat} (hm : W < 2 ^ 32) (h0 : fld W 0 2 = 1) (h1 : fld W 2 6 = 33) (h2 : fld W 8 5 = d.val) (h3 : fld W 13 5 = a.val) (h5 : fld W 18 5 = r.val) (h7 : fld W 23 2 = 1) (h8 : fld W 25 1 = (bit m)) (h9 : fld W 26 1 = (bit c)) (h10 : fld W 27 5 = 11) : decodeBits W = .ok (.vxor c m d a (.vx r)) := by
  have hb0 := bit_lt c
  have hb1 := bit_lt m
  have hb2 := d.isLt
  have hb3 := a.isLt
  rw [decodeBits_word h0 hm]
  rw [decode32.eq_1, h1]
  show (decodeV21 W : Except Reject Instr) = _
  rw [decodeV21.eq_1, h10]
  show (src W fun b => .vxor (flag W 26) (flag W 25) (xr W 8) (xr W 13) b : Except Reject Instr) = _
  simp only [h1, h2, h3, h5, h7, h8, h9, h10, src, bit_beq, xr, lo8, lane, bv, flag, zero, Except.bind, ofNat_val, ofNat_toNat, if_true, if_false, Nat.reduceBEq, Bool.false_eq_true, true_and, and_true, and_self, or_self, not_false_eq_true, ne_eq, Nat.reduceLT, Nat.reduceLeDiff, Nat.reduceEqDiff, bit_zero, bit_one]
theorem decodeBits_ofVxor_vi (c : Bool) (m : Bool) (d : VReg) (a : VReg) (r : BitVec 5) {W : Nat} (hm : W < 2 ^ 32) (h0 : fld W 0 2 = 1) (h1 : fld W 2 6 = 33) (h2 : fld W 8 5 = d.val) (h3 : fld W 13 5 = a.val) (h5 : fld W 18 5 = r.toNat) (h7 : fld W 23 2 = 2) (h8 : fld W 25 1 = (bit m)) (h9 : fld W 26 1 = (bit c)) (h10 : fld W 27 5 = 11) : decodeBits W = .ok (.vxor c m d a (.vi r)) := by
  have hb0 := bit_lt c
  have hb1 := bit_lt m
  have hb2 := d.isLt
  have hb3 := a.isLt
  rw [decodeBits_word h0 hm]
  rw [decode32.eq_1, h1]
  show (decodeV21 W : Except Reject Instr) = _
  rw [decodeV21.eq_1, h10]
  show (src W fun b => .vxor (flag W 26) (flag W 25) (xr W 8) (xr W 13) b : Except Reject Instr) = _
  simp only [h1, h2, h3, h5, h7, h8, h9, h10, src, bit_beq, xr, lo8, lane, bv, flag, zero, Except.bind, ofNat_val, ofNat_toNat, if_true, if_false, Nat.reduceBEq, Bool.false_eq_true, true_and, and_true, and_self, or_self, not_false_eq_true, ne_eq, Nat.reduceLT, Nat.reduceLeDiff, Nat.reduceEqDiff, bit_zero, bit_one]
theorem decodeBits_ofVxor_vs (c : Bool) (m : Bool) (d : VReg) (a : VReg) (r : SReg) {W : Nat} (hm : W < 2 ^ 32) (h0 : fld W 0 2 = 1) (h1 : fld W 2 6 = 33) (h2 : fld W 8 5 = d.val) (h3 : fld W 13 5 = a.val) (h4 : fld W 18 2 = r.val) (h5 : fld W 18 5 = r.val) (h6 : fld W 20 3 = 0) (h7 : fld W 23 2 = 3) (h8 : fld W 25 1 = (bit m)) (h9 : fld W 26 1 = (bit c)) (h10 : fld W 27 5 = 11) : decodeBits W = .ok (.vxor c m d a (.vs r)) := by
  have hb0 := bit_lt c
  have hb1 := bit_lt m
  have hb2 := d.isLt
  have hb3 := a.isLt
  rw [decodeBits_word h0 hm]
  rw [decode32.eq_1, h1]
  show (decodeV21 W : Except Reject Instr) = _
  rw [decodeV21.eq_1, h10]
  show (src W fun b => .vxor (flag W 26) (flag W 25) (xr W 8) (xr W 13) b : Except Reject Instr) = _
  simp only [h1, h2, h3, h4, h5, h6, h7, h8, h9, h10, src, bit_beq, xr, lo8, lane, bv, flag, zero, Except.bind, ofNat_val, ofNat_toNat, if_true, if_false, Nat.reduceBEq, Bool.false_eq_true, true_and, and_true, and_self, or_self, not_false_eq_true, ne_eq, Nat.reduceLT, Nat.reduceLeDiff, Nat.reduceEqDiff, bit_zero, bit_one]
theorem codes_encVxor (c : Bool) (m : Bool) (d : VReg) (a : VReg) (b : VSrc) : Codes (encVxor c m d a b) (.vxor c m d a b) := by
  have hb0 := bit_lt c
  have hb1 := bit_lt m
  have hb2 := d.isLt
  have hb3 := a.isLt
  cases b with
  | vv r =>
    have hbr := r.isLt
    show Codes (4, fV 11 (bit c) (bit m) 0 r.val a d 0x21) (.vxor c m d a (.vv r))
    have F := @fV_fields (11) ((bit c)) ((bit m)) (0) (r.val) (a.val) (d.val) (0x21) (by omega) (by omega) (by omega) (by omega) (by omega) (by omega) (by omega) (by omega)
    obtain ⟨hm, f27_5, f26_1, f25_1, f23_2, f18_5, f13_5, f8_5, f2_6, f0_2⟩ := F
    exact .word hm f0_2 (decodeBits_ofVxor_vv c m d a r hm (f0_2.trans (by omega)) (f2_6.trans (by omega)) (f8_5.trans (by omega)) (f13_5.trans (by omega)) (f18_5.trans (by omega)) (f23_2.trans (by omega)) (f25_1.trans (by omega)) (f26_1.trans (by omega)) (f27_5.trans (by omega)))
  | vx r =>
    have hbr := r.isLt
    show Codes (4, fV 11 (bit c) (bit m) 1 r.val a d 0x21) (.vxor c m d a (.vx r))
    have F := @fV_fields (11) ((bit c)) ((bit m)) (1) (r.val) (a.val) (d.val) (0x21) (by omega) (by omega) (by omega) (by omega) (by omega) (by omega) (by omega) (by omega)
    obtain ⟨hm, f27_5, f26_1, f25_1, f23_2, f18_5, f13_5, f8_5, f2_6, f0_2⟩ := F
    exact .word hm f0_2 (decodeBits_ofVxor_vx c m d a r hm (f0_2.trans (by omega)) (f2_6.trans (by omega)) (f8_5.trans (by omega)) (f13_5.trans (by omega)) (f18_5.trans (by omega)) (f23_2.trans (by omega)) (f25_1.trans (by omega)) (f26_1.trans (by omega)) (f27_5.trans (by omega)))
  | vi r =>
    have hbr := r.isLt
    show Codes (4, fV 11 (bit c) (bit m) 2 r.toNat a d 0x21) (.vxor c m d a (.vi r))
    have F := @fV_fields (11) ((bit c)) ((bit m)) (2) (r.toNat) (a.val) (d.val) (0x21) (by omega) (by omega) (by omega) (by omega) (by omega) (by omega) (by omega) (by omega)
    obtain ⟨hm, f27_5, f26_1, f25_1, f23_2, f18_5, f13_5, f8_5, f2_6, f0_2⟩ := F
    exact .word hm f0_2 (decodeBits_ofVxor_vi c m d a r hm (f0_2.trans (by omega)) (f2_6.trans (by omega)) (f8_5.trans (by omega)) (f13_5.trans (by omega)) (f18_5.trans (by omega)) (f23_2.trans (by omega)) (f25_1.trans (by omega)) (f26_1.trans (by omega)) (f27_5.trans (by omega)))
  | vs r =>
    have hbr := r.isLt
    show Codes (4, fV 11 (bit c) (bit m) 3 r.val a d 0x21) (.vxor c m d a (.vs r))
    have F := @fV_fields (11) ((bit c)) ((bit m)) (3) (r.val) (a.val) (d.val) (0x21) (by omega) (by omega) (by omega) (by omega) (by omega) (by omega) (by omega) (by omega)
    obtain ⟨hm, f27_5, f26_1, f25_1, f23_2, f18_5, f13_5, f8_5, f2_6, f0_2⟩ := F
    exact .word hm f0_2 (decodeBits_ofVxor_vs c m d a r hm (f0_2.trans (by omega)) (f2_6.trans (by omega)) (f8_5.trans (by omega)) (f13_5.trans (by omega)) ((fld_sub (o := 0) (k := 2) f18_5 rfl (by decide)).trans (by omega)) (f18_5.trans (by omega)) ((fld_sub (o := 2) (k := 3) f18_5 rfl (by decide)).trans (by omega)) (f23_2.trans (by omega)) (f25_1.trans (by omega)) (f26_1.trans (by omega)) (f27_5.trans (by omega)))

theorem decodeBits_ofVsll_vv (c : Bool) (m : Bool) (d : VReg) (a : VReg) (r : VReg) {W : Nat} (hm : W < 2 ^ 32) (h0 : fld W 0 2 = 1) (h1 : fld W 2 6 = 33) (h2 : fld W 8 5 = d.val) (h3 : fld W 13 5 = a.val) (h5 : fld W 18 5 = r.val) (h7 : fld W 23 2 = 0) (h8 : fld W 25 1 = (bit m)) (h9 : fld W 26 1 = (bit c)) (h10 : fld W 27 5 = 12) : decodeBits W = .ok (.vsll c m d a (.vv r)) := by
  have hb0 := bit_lt c
  have hb1 := bit_lt m
  have hb2 := d.isLt
  have hb3 := a.isLt
  rw [decodeBits_word h0 hm]
  rw [decode32.eq_1, h1]
  show (decodeV21 W : Except Reject Instr) = _
  rw [decodeV21.eq_1, h10]
  show (src W fun b => .vsll (flag W 26) (flag W 25) (xr W 8) (xr W 13) b : Except Reject Instr) = _
  simp only [h1, h2, h3, h5, h7, h8, h9, h10, src, bit_beq, xr, lo8, lane, bv, flag, zero, Except.bind, ofNat_val, ofNat_toNat, if_true, if_false, Nat.reduceBEq, Bool.false_eq_true, true_and, and_true, and_self, or_self, not_false_eq_true, ne_eq, Nat.reduceLT, Nat.reduceLeDiff, Nat.reduceEqDiff, bit_zero, bit_one]
theorem decodeBits_ofVsll_vx (c : Bool) (m : Bool) (d : VReg) (a : VReg) (r : XReg) {W : Nat} (hm : W < 2 ^ 32) (h0 : fld W 0 2 = 1) (h1 : fld W 2 6 = 33) (h2 : fld W 8 5 = d.val) (h3 : fld W 13 5 = a.val) (h5 : fld W 18 5 = r.val) (h7 : fld W 23 2 = 1) (h8 : fld W 25 1 = (bit m)) (h9 : fld W 26 1 = (bit c)) (h10 : fld W 27 5 = 12) : decodeBits W = .ok (.vsll c m d a (.vx r)) := by
  have hb0 := bit_lt c
  have hb1 := bit_lt m
  have hb2 := d.isLt
  have hb3 := a.isLt
  rw [decodeBits_word h0 hm]
  rw [decode32.eq_1, h1]
  show (decodeV21 W : Except Reject Instr) = _
  rw [decodeV21.eq_1, h10]
  show (src W fun b => .vsll (flag W 26) (flag W 25) (xr W 8) (xr W 13) b : Except Reject Instr) = _
  simp only [h1, h2, h3, h5, h7, h8, h9, h10, src, bit_beq, xr, lo8, lane, bv, flag, zero, Except.bind, ofNat_val, ofNat_toNat, if_true, if_false, Nat.reduceBEq, Bool.false_eq_true, true_and, and_true, and_self, or_self, not_false_eq_true, ne_eq, Nat.reduceLT, Nat.reduceLeDiff, Nat.reduceEqDiff, bit_zero, bit_one]
theorem decodeBits_ofVsll_vi (c : Bool) (m : Bool) (d : VReg) (a : VReg) (r : BitVec 5) {W : Nat} (hm : W < 2 ^ 32) (h0 : fld W 0 2 = 1) (h1 : fld W 2 6 = 33) (h2 : fld W 8 5 = d.val) (h3 : fld W 13 5 = a.val) (h5 : fld W 18 5 = r.toNat) (h7 : fld W 23 2 = 2) (h8 : fld W 25 1 = (bit m)) (h9 : fld W 26 1 = (bit c)) (h10 : fld W 27 5 = 12) : decodeBits W = .ok (.vsll c m d a (.vi r)) := by
  have hb0 := bit_lt c
  have hb1 := bit_lt m
  have hb2 := d.isLt
  have hb3 := a.isLt
  rw [decodeBits_word h0 hm]
  rw [decode32.eq_1, h1]
  show (decodeV21 W : Except Reject Instr) = _
  rw [decodeV21.eq_1, h10]
  show (src W fun b => .vsll (flag W 26) (flag W 25) (xr W 8) (xr W 13) b : Except Reject Instr) = _
  simp only [h1, h2, h3, h5, h7, h8, h9, h10, src, bit_beq, xr, lo8, lane, bv, flag, zero, Except.bind, ofNat_val, ofNat_toNat, if_true, if_false, Nat.reduceBEq, Bool.false_eq_true, true_and, and_true, and_self, or_self, not_false_eq_true, ne_eq, Nat.reduceLT, Nat.reduceLeDiff, Nat.reduceEqDiff, bit_zero, bit_one]
theorem decodeBits_ofVsll_vs (c : Bool) (m : Bool) (d : VReg) (a : VReg) (r : SReg) {W : Nat} (hm : W < 2 ^ 32) (h0 : fld W 0 2 = 1) (h1 : fld W 2 6 = 33) (h2 : fld W 8 5 = d.val) (h3 : fld W 13 5 = a.val) (h4 : fld W 18 2 = r.val) (h5 : fld W 18 5 = r.val) (h6 : fld W 20 3 = 0) (h7 : fld W 23 2 = 3) (h8 : fld W 25 1 = (bit m)) (h9 : fld W 26 1 = (bit c)) (h10 : fld W 27 5 = 12) : decodeBits W = .ok (.vsll c m d a (.vs r)) := by
  have hb0 := bit_lt c
  have hb1 := bit_lt m
  have hb2 := d.isLt
  have hb3 := a.isLt
  rw [decodeBits_word h0 hm]
  rw [decode32.eq_1, h1]
  show (decodeV21 W : Except Reject Instr) = _
  rw [decodeV21.eq_1, h10]
  show (src W fun b => .vsll (flag W 26) (flag W 25) (xr W 8) (xr W 13) b : Except Reject Instr) = _
  simp only [h1, h2, h3, h4, h5, h6, h7, h8, h9, h10, src, bit_beq, xr, lo8, lane, bv, flag, zero, Except.bind, ofNat_val, ofNat_toNat, if_true, if_false, Nat.reduceBEq, Bool.false_eq_true, true_and, and_true, and_self, or_self, not_false_eq_true, ne_eq, Nat.reduceLT, Nat.reduceLeDiff, Nat.reduceEqDiff, bit_zero, bit_one]
theorem codes_encVsll (c : Bool) (m : Bool) (d : VReg) (a : VReg) (b : VSrc) : Codes (encVsll c m d a b) (.vsll c m d a b) := by
  have hb0 := bit_lt c
  have hb1 := bit_lt m
  have hb2 := d.isLt
  have hb3 := a.isLt
  cases b with
  | vv r =>
    have hbr := r.isLt
    show Codes (4, fV 12 (bit c) (bit m) 0 r.val a d 0x21) (.vsll c m d a (.vv r))
    have F := @fV_fields (12) ((bit c)) ((bit m)) (0) (r.val) (a.val) (d.val) (0x21) (by omega) (by omega) (by omega) (by omega) (by omega) (by omega) (by omega) (by omega)
    obtain ⟨hm, f27_5, f26_1, f25_1, f23_2, f18_5, f13_5, f8_5, f2_6, f0_2⟩ := F
    exact .word hm f0_2 (decodeBits_ofVsll_vv c m d a r hm (f0_2.trans (by omega)) (f2_6.trans (by omega)) (f8_5.trans (by omega)) (f13_5.trans (by omega)) (f18_5.trans (by omega)) (f23_2.trans (by omega)) (f25_1.trans (by omega)) (f26_1.trans (by omega)) (f27_5.trans (by omega)))
  | vx r =>
    have hbr := r.isLt
    show Codes (4, fV 12 (bit c) (bit m) 1 r.val a d 0x21) (.vsll c m d a (.vx r))
    have F := @fV_fields (12) ((bit c)) ((bit m)) (1) (r.val) (a.val) (d.val) (0x21) (by omega) (by omega) (by omega) (by omega) (by omega) (by omega) (by omega) (by omega)
    obtain ⟨hm, f27_5, f26_1, f25_1, f23_2, f18_5, f13_5, f8_5, f2_6, f0_2⟩ := F
    exact .word hm f0_2 (decodeBits_ofVsll_vx c m d a r hm (f0_2.trans (by omega)) (f2_6.trans (by omega)) (f8_5.trans (by omega)) (f13_5.trans (by omega)) (f18_5.trans (by omega)) (f23_2.trans (by omega)) (f25_1.trans (by omega)) (f26_1.trans (by omega)) (f27_5.trans (by omega)))
  | vi r =>
    have hbr := r.isLt
    show Codes (4, fV 12 (bit c) (bit m) 2 r.toNat a d 0x21) (.vsll c m d a (.vi r))
    have F := @fV_fields (12) ((bit c)) ((bit m)) (2) (r.toNat) (a.val) (d.val) (0x21) (by omega) (by omega) (by omega) (by omega) (by omega) (by omega) (by omega) (by omega)
    obtain ⟨hm, f27_5, f26_1, f25_1, f23_2, f18_5, f13_5, f8_5, f2_6, f0_2⟩ := F
    exact .word hm f0_2 (decodeBits_ofVsll_vi c m d a r hm (f0_2.trans (by omega)) (f2_6.trans (by omega)) (f8_5.trans (by omega)) (f13_5.trans (by omega)) (f18_5.trans (by omega)) (f23_2.trans (by omega)) (f25_1.trans (by omega)) (f26_1.trans (by omega)) (f27_5.trans (by omega)))
  | vs r =>
    have hbr := r.isLt
    show Codes (4, fV 12 (bit c) (bit m) 3 r.val a d 0x21) (.vsll c m d a (.vs r))
    have F := @fV_fields (12) ((bit c)) ((bit m)) (3) (r.val) (a.val) (d.val) (0x21) (by omega) (by omega) (by omega) (by omega) (by omega) (by omega) (by omega) (by omega)
    obtain ⟨hm, f27_5, f26_1, f25_1, f23_2, f18_5, f13_5, f8_5, f2_6, f0_2⟩ := F
    exact .word hm f0_2 (decodeBits_ofVsll_vs c m d a r hm (f0_2.trans (by omega)) (f2_6.trans (by omega)) (f8_5.trans (by omega)) (f13_5.trans (by omega)) ((fld_sub (o := 0) (k := 2) f18_5 rfl (by decide)).trans (by omega)) (f18_5.trans (by omega)) ((fld_sub (o := 2) (k := 3) f18_5 rfl (by decide)).trans (by omega)) (f23_2.trans (by omega)) (f25_1.trans (by omega)) (f26_1.trans (by omega)) (f27_5.trans (by omega)))

theorem decodeBits_ofVsrl_vv (c : Bool) (m : Bool) (d : VReg) (a : VReg) (r : VReg) {W : Nat} (hm : W < 2 ^ 32) (h0 : fld W 0 2 = 1) (h1 : fld W 2 6 = 33) (h2 : fld W 8 5 = d.val) (h3 : fld W 13 5 = a.val) (h5 : fld W 18 5 = r.val) (h7 : fld W 23 2 = 0) (h8 : fld W 25 1 = (bit m)) (h9 : fld W 26 1 = (bit c)) (h10 : fld W 27 5 = 13) : decodeBits W = .ok (.vsrl c m d a (.vv r)) := by
  have hb0 := bit_lt c
  have hb1 := bit_lt m
  have hb2 := d.isLt
  have hb3 := a.isLt
  rw [decodeBits_word h0 hm]
  rw [decode32.eq_1, h1]
  show (decodeV21 W : Except Reject Instr) = _
  rw [decodeV21.eq_1, h10]
  show (src W fun b => .vsrl (flag W 26) (flag W 25) (xr W 8) (xr W 13) b : Except Reject Instr) = _
  simp only [h1, h2, h3, h5, h7, h8, h9, h10, src, bit_beq, xr, lo8, lane, bv, flag, zero, Except.bind, ofNat_val, ofNat_toNat, if_true, if_false, Nat.reduceBEq, Bool.false_eq_true, true_and, and_true, and_self, or_self, not_false_eq_true, ne_eq, Nat.reduceLT, Nat.reduceLeDiff, Nat.reduceEqDiff, bit_zero, bit_one]
theorem decodeBits_ofVsrl_vx (c : Bool) (m : Bool) (d : VReg) (a : VReg) (r : XReg) {W : Nat} (hm : W < 2 ^ 32) (h0 : fld W 0 2 = 1) (h1 : fld W 2 6 = 33) (h2 : fld W 8 5 = d.val) (h3 : fld W 13 5 = a.val) (h5 : fld W 18 5 = r.val) (h7 : fld W 23 2 = 1) (h8 : fld W 25 1 = (bit m)) (h9 : fld W 26 1 = (bit c)) (h10 : fld W 27 5 = 13) : decodeBits W = .ok (.vsrl c m d a (.vx r)) := by
  have hb0 := bit_lt c
  have hb1 := bit_lt m
  have hb2 := d.isLt
  have hb3 := a.isLt
  rw [decodeBits_word h0 hm]
  rw [decode32.eq_1, h1]
  show (decodeV21 W : Except Reject Instr) = _
  rw [decodeV21.eq_1, h10]
  show (src W fun b => .vsrl (flag W 26) (flag W 25) (xr W 8) (xr W 13) b : Except Reject Instr) = _
  simp only [h1, h2, h3, h5, h7, h8, h9, h10, src, bit_beq, xr, lo8, lane, bv, flag, zero, Except.bind, ofNat_val, ofNat_toNat, if_true, if_false, Nat.reduceBEq, Bool.false_eq_true, true_and, and_true, and_self, or_self, not_false_eq_true, ne_eq, Nat.reduceLT, Nat.reduceLeDiff, Nat.reduceEqDiff, bit_zero, bit_one]
theorem decodeBits_ofVsrl_vi (c : Bool) (m : Bool) (d : VReg) (a : VReg) (r : BitVec 5) {W : Nat} (hm : W < 2 ^ 32) (h0 : fld W 0 2 = 1) (h1 : fld W 2 6 = 33) (h2 : fld W 8 5 = d.val) (h3 : fld W 13 5 = a.val) (h5 : fld W 18 5 = r.toNat) (h7 : fld W 23 2 = 2) (h8 : fld W 25 1 = (bit m)) (h9 : fld W 26 1 = (bit c)) (h10 : fld W 27 5 = 13) : decodeBits W = .ok (.vsrl c m d a (.vi r)) := by
  have hb0 := bit_lt c
  have hb1 := bit_lt m
  have hb2 := d.isLt
  have hb3 := a.isLt
  rw [decodeBits_word h0 hm]
  rw [decode32.eq_1, h1]
  show (decodeV21 W : Except Reject Instr) = _
  rw [decodeV21.eq_1, h10]
  show (src W fun b => .vsrl (flag W 26) (flag W 25) (xr W 8) (xr W 13) b : Except Reject Instr) = _
  simp only [h1, h2, h3, h5, h7, h8, h9, h10, src, bit_beq, xr, lo8, lane, bv, flag, zero, Except.bind, ofNat_val, ofNat_toNat, if_true, if_false, Nat.reduceBEq, Bool.false_eq_true, true_and, and_true, and_self, or_self, not_false_eq_true, ne_eq, Nat.reduceLT, Nat.reduceLeDiff, Nat.reduceEqDiff, bit_zero, bit_one]
theorem decodeBits_ofVsrl_vs (c : Bool) (m : Bool) (d : VReg) (a : VReg) (r : SReg) {W : Nat} (hm : W < 2 ^ 32) (h0 : fld W 0 2 = 1) (h1 : fld W 2 6 = 33) (h2 : fld W 8 5 = d.val) (h3 : fld W 13 5 = a.val) (h4 : fld W 18 2 = r.val) (h5 : fld W 18 5 = r.val) (h6 : fld W 20 3 = 0) (h7 : fld W 23 2 = 3) (h8 : fld W 25 1 = (bit m)) (h9 : fld W 26 1 = (bit c)) (h10 : fld W 27 5 = 13) : decodeBits W = .ok (.vsrl c m d a (.vs r)) := by
  have hb0 := bit_lt c
  have hb1 := bit_lt m
  have hb2 := d.isLt
  have hb3 := a.isLt
  rw [decodeBits_word h0 hm]
  rw [decode32.eq_1, h1]
  show (decodeV21 W : Except Reject Instr) = _
  rw [decodeV21.eq_1, h10]
  show (src W fun b => .vsrl (flag W 26) (flag W 25) (xr W 8) (xr W 13) b : Except Reject Instr) = _
  simp only [h1, h2, h3, h4, h5, h6, h7, h8, h9, h10, src, bit_beq, xr, lo8, lane, bv, flag, zero, Except.bind, ofNat_val, ofNat_toNat, if_true, if_false, Nat.reduceBEq, Bool.false_eq_true, true_and, and_true, and_self, or_self, not_false_eq_true, ne_eq, Nat.reduceLT, Nat.reduceLeDiff, Nat.reduceEqDiff, bit_zero, bit_one]
theorem codes_encVsrl (c : Bool) (m : Bool) (d : VReg) (a : VReg) (b : VSrc) : Codes (encVsrl c m d a b) (.vsrl c m d a b) := by
  have hb0 := bit_lt c
  have hb1 := bit_lt m
  have hb2 := d.isLt
  have hb3 := a.isLt
  cases b with
  | vv r =>
    have hbr := r.isLt
    show Codes (4, fV 13 (bit c) (bit m) 0 r.val a d 0x21) (.vsrl c m d a (.vv r))
    have F := @fV_fields (13) ((bit c)) ((bit m)) (0) (r.val) (a.val) (d.val) (0x21) (by omega) (by omega) (by omega) (by omega) (by omega) (by omega) (by omega) (by omega)
    obtain ⟨hm, f27_5, f26_1, f25_1, f23_2, f18_5, f13_5, f8_5, f2_6, f0_2⟩ := F
    exact .word hm f0_2 (decodeBits_ofVsrl_vv c m d a r hm (f0_2.trans (by omega)) (f2_6.trans (by omega)) (f8_5.trans (by omega)) (f13_5.trans (by omega)) (f18_5.trans (by omega)) (f23_2.trans (by omega)) (f25_1.trans (by omega)) (f26_1.trans (by omega)) (f27_5.trans (by omega)))
  | vx r =>
    have hbr := r.isLt
    show Codes (4, fV 13 (bit c) (bit m) 1 r.val a d 0x21) (.vsrl c m d a (.vx r))
    have F := @fV_fields (13) ((bit c)) ((bit m)) (1) (r.val) (a.val) (d.val) (0x21) (by omega) (by omega) (by omega) (by omega) (by omega) (by omega) (by omega) (by omega)
    obtain ⟨hm, f27_5, f26_1, f25_1, f23_2, f18_5, f13_5, f8_5, f2_6, f0_2⟩ := F
    exact .word hm f0_2 (decodeBits_ofVsrl_vx c m d a r hm (f0_2.trans (by omega)) (f2_6.trans (by omega)) (f8_5.trans (by omega)) (f13_5.trans (by omega)) (f18_5.trans (by omega)) (f23_2.trans (by omega)) (f25_1.trans (by omega)) (f26_1.trans (by omega)) (f27_5.trans (by omega)))
  | vi r =>
    have hbr := r.isLt
    show Codes (4, fV 13 (bit c) (bit m) 2 r.toNat a d 0x21) (.vsrl c m d a (.vi r))
    have F := @fV_fields (13) ((bit c)) ((bit m)) (2) (r.toNat) (a.val) (d.val) (0x21) (by omega) (by omega) (by omega) (by omega) (by omega) (by omega) (by omega) (by omega)
    obtain ⟨hm, f27_5, f26_1, f25_1, f23_2, f18_5, f13_5, f8_5, f2_6, f0_2⟩ := F
    exact .word hm f0_2 (decodeBits_ofVsrl_vi c m d a r hm (f0_2.trans (by omega)) (f2_6.trans (by omega)) (f8_5.trans (by omega)) (f13_5.trans (by omega)) (f18_5.trans (by omega)) (f23_2.trans (by omega)) (f25_1.trans (by omega)) (f26_1.trans (by omega)) (f27_5.trans (by omega)))
  | vs r =>
    have hbr := r.isLt
    show Codes (4, fV 13 (bit c) (bit m) 3 r.val a d 0x21) (.vsrl c m d a (.vs r))
    have F := @fV_fields (13) ((bit c)) ((bit m)) (3) (r.val) (a.val) (d.val) (0x21) (by omega) (by omega) (by omega) (by omega) (by omega) (by omega) (by omega) (by omega)
    obtain ⟨hm, f27_5, f26_1, f25_1, f23_2, f18_5, f13_5, f8_5, f2_6, f0_2⟩ := F
    exact .word hm f0_2 (decodeBits_ofVsrl_vs c m d a r hm (f0_2.trans (by omega)) (f2_6.trans (by omega)) (f8_5.trans (by omega)) (f13_5.trans (by omega)) ((fld_sub (o := 0) (k := 2) f18_5 rfl (by decide)).trans (by omega)) (f18_5.trans (by omega)) ((fld_sub (o := 2) (k := 3) f18_5 rfl (by decide)).trans (by omega)) (f23_2.trans (by omega)) (f25_1.trans (by omega)) (f26_1.trans (by omega)) (f27_5.trans (by omega)))

theorem decodeBits_ofVsra_vv (c : Bool) (m : Bool) (d : VReg) (a : VReg) (r : VReg) {W : Nat} (hm : W < 2 ^ 32) (h0 : fld W 0 2 = 1) (h1 : fld W 2 6 = 33) (h2 : fld W 8 5 = d.val) (h3 : fld W 13 5 = a.val) (h5 : fld W 18 5 = r.val) (h7 : fld W 23 2 = 0) (h8 : fld W 25 1 = (bit m)) (h9 : fld W 26 1 = (bit c)) (h10 : fld W 27 5 = 14) : decodeBits W = .ok (.vsra c m d a (.vv r)) := by
  have hb0 := bit_lt c
  have hb1 := bit_lt m
  have hb2 := d.isLt
  have hb3 := a.isLt
  rw [decodeBits_word h0 hm]
  rw [decode32.eq_1, h1]
  show (decodeV21 W : Except Reject Instr) = _
  rw [decodeV21.eq_1, h10]
  show (src W fun b => .vsra (flag W 26) (flag W 25) (xr W 8) (xr W 13) b : Except Reject Instr) = _
  simp only [h1, h2, h3, h5, h7, h8, h9, h10, src, bit_beq, xr, lo8, lane, bv, flag, zero, Except.bind, ofNat_val, ofNat_toNat, if_true, if_false, Nat.reduceBEq, Bool.false_eq_true, true_and, and_true, and_self, or_self, not_false_eq_true, ne_eq, Nat.reduceLT, Nat.reduceLeDiff, Nat.reduceEqDiff, bit_zero, bit_one]
theorem decodeBits_ofVsra_vx (c : Bool) (m : Bool) (d : VReg) (a : VReg) (r : XReg) {W : Nat} (hm : W < 2 ^ 32) (h0 : fld W 0 2 = 1) (h1 : fld W 2 6 = 33) (h2 : fld W 8 5 = d.val) (h3 : fld W 13 5 = a.val) (h5 : fld W 18 5 = r.val) (h7 : fld W 23 2 = 1) (h8 : fld W 25 1 = (bit m)) (h9 : fld W 26 1 = (bit c)) (h10 : fld W 27 5 = 14) : decodeBits W = .ok (.vsra c m d a (.vx r)) := by
  have hb0 := bit_lt c
  have hb1 := bit_lt m
  have hb2 := d.isLt
  have hb3 := a.isLt
  rw [decodeBits_word h0 hm]
  rw [decode32.eq_1, h1]
  show (decodeV21 W : Except Reject Instr) = _
  rw [decodeV21.eq_1, h10]
  show (src W fun b => .vsra (flag W 26) (flag W 25) (xr W 8) (xr W 13) b : Except Reject Instr) = _
  simp only [h1, h2, h3, h5, h7, h8, h9, h10, src, bit_beq, xr, lo8, lane, bv, flag, zero, Except.bind, ofNat_val, ofNat_toNat, if_true, if_false, Nat.reduceBEq, Bool.false_eq_true, true_and, and_true, and_self, or_self, not_false_eq_true, ne_eq, Nat.reduceLT, Nat.reduceLeDiff, Nat.reduceEqDiff, bit_zero, bit_one]
theorem decodeBits_ofVsra_vi (c : Bool) (m : Bool) (d : VReg) (a : VReg) (r : BitVec 5) {W : Nat} (hm : W < 2 ^ 32) (h0 : fld W 0 2 = 1) (h1 : fld W 2 6 = 33) (h2 : fld W 8 5 = d.val) (h3 : fld W 13 5 = a.val) (h5 : fld W 18 5 = r.toNat) (h7 : fld W 23 2 = 2) (h8 : fld W 25 1 = (bit m)) (h9 : fld W 26 1 = (bit c)) (h10 : fld W 27 5 = 14) : decodeBits W = .ok (.vsra c m d a (.vi r)) := by
  have hb0 := bit_lt c
  have hb1 := bit_lt m
  have hb2 := d.isLt
  have hb3 := a.isLt
  rw [decodeBits_word h0 hm]
  rw [decode32.eq_1, h1]
  show (decodeV21 W : Except Reject Instr) = _
  rw [decodeV21.eq_1, h10]
  show (src W fun b => .vsra (flag W 26) (flag W 25) (xr W 8) (xr W 13) b : Except Reject Instr) = _
  simp only [h1, h2, h3, h5, h7, h8, h9, h10, src, bit_beq, xr, lo8, lane, bv, flag, zero, Except.bind, ofNat_val, ofNat_toNat, if_true, if_false, Nat.reduceBEq, Bool.false_eq_true, true_and, and_true, and_self, or_self, not_false_eq_true, ne_eq, Nat.reduceLT, Nat.reduceLeDiff, Nat.reduceEqDiff, bit_zero, bit_one]
theorem decodeBits_ofVsra_vs (c : Bool) (m : Bool) (d : VReg) (a : VReg) (r : SReg) {W : Nat} (hm : W < 2 ^ 32) (h0 : fld W 0 2 = 1) (h1 : fld W 2 6 = 33) (h2 : fld W 8 5 = d.val) (h3 : fld W 13 5 = a.val) (h4 : fld W 18 2 = r.val) (h5 : fld W 18 5 = r.val) (h6 : fld W 20 3 = 0) (h7 : fld W 23 2 = 3) (h8 : fld W 25 1 = (bit m)) (h9 : fld W 26 1 = (bit c)) (h10 : fld W 27 5 = 14) : decodeBits W = .ok (.vsra c m d a (.vs r)) := by
  have hb0 := bit_lt c
  have hb1 := bit_lt m
  have hb2 := d.isLt
  have hb3 := a.isLt
  rw [decodeBits_word h0 hm]
  rw [decode32.eq_1, h1]
  show (decodeV21 W : Except Reject Instr) = _
  rw [decodeV21.eq_1, h10]
  show (src W fun b => .vsra (flag W 26) (flag W 25) (xr W 8) (xr W 13) b : Except Reject Instr) = _
  simp only [h1, h2, h3, h4, h5, h6, h7, h8, h9, h10, src, bit_beq, xr, lo8, lane, bv, flag, zero, Except.bind, ofNat_val, ofNat_toNat, if_true, if_false, Nat.reduceBEq, Bool.false_eq_true, true_and, and_true, and_self, or_self, not_false_eq_true, ne_eq, Nat.reduceLT, Nat.reduceLeDiff, Nat.reduceEqDiff, bit_zero, bit_one]
theorem codes_encVsra (c : Bool) (m : Bool) (d : VReg) (a : VReg) (b : VSrc) : Codes (encVsra c m d a b) (.vsra c m d a b) := by
  have hb0 := bit_lt c
  have hb1 := bit_lt m
  have hb2 := d.isLt
  have hb3 := a.isLt
  cases b with
  | vv r =>
    have hbr := r.isLt
    show Codes (4, fV 14 (bit c) (bit m) 0 r.val a d 0x21) (.vsra c m d a (.vv r))
    have F := @fV_fields (14) ((bit c)) ((bit m)) (0) (r.val) (a.val) (d.val) (0x21) (by omega) (by omega) (by omega) (by omega) (by omega) (by omega) (by omega) (by omega)
    obtain ⟨hm, f27_5, f26_1, f25_1, f23_2, f18_5, f13_5, f8_5, f2_6, f0_2⟩ := F
    exact .word hm f0_2 (decodeBits_ofVsra_vv c m d a r hm (f0_2.trans (by omega)) (f2_6.trans (by omega)) (f8_5.trans (by omega)) (f13_5.trans (by omega)) (f18_5.trans (by omega)) (f23_2.trans (by omega)) (f25_1.trans (by omega)) (f26_1.trans (by omega)) (f27_5.trans (by omega)))
  | vx r =>
    have hbr := r.isLt
    show Codes (4, fV 14 (bit c) (bit m) 1 r.val a d 0x21) (.vsra c m d a (.vx r))
    have F := @fV_fields (14) ((bit c)) ((bit m)) (1) (r.val) (a.val) (d.val) (0x21) (by omega) (by omega) (by omega) (by omega) (by omega) (by omega) (by omega) (by omega)
    obtain ⟨hm, f27_5, f26_1, f25_1, f23_2, f18_5, f13_5, f8_5, f2_6, f0_2⟩ := F
    exact .word hm f0_2 (decodeBits_ofVsra_vx c m d a r hm (f0_2.trans (by omega)) (f2_6.trans (by omega)) (f8_5.trans (by omega)) (f13_5.trans (by omega)) (f18_5.trans (by omega)) (f23_2.trans (by omega)) (f25_1.trans (by omega)) (f26_1.trans (by omega)) (f27_5.trans (by omega)))
  | vi r =>
    have hbr := r.isLt
    show Codes (4, fV 14 (bit c) (bit m) 2 r.toNat a d 0x21) (.vsra c m d a (.vi r))
    have F := @fV_fields (14) ((bit c)) ((bit m)) (2) (r.toNat) (a.val) (d.val) (0x21) (by omega) (by omega) (by omega) (by omega) (by omega) (by omega) (by omega) (by omega)
    obtain ⟨hm, f27_5, f26_1, f25_1, f23_2, f18_5, f13_5, f8_5, f2_6, f0_2⟩ := F
    exact .word hm f0_2 (decodeBits_ofVsra_vi c m d a r hm (f0_2.trans (by omega)) (f2_6.trans (by omega)) (f8_5.trans (by omega)) (f13_5.trans (by omega)) (f18_5.trans (by omega)) (f23_2.trans (by omega)) (f25_1.trans (by omega)) (f26_1.trans (by omega)) (f27_5.trans (by omega)))
  | vs r =>
    have hbr := r.isLt
    show Codes (4, fV 14 (bit c) (bit m) 3 r.val a d 0x21) (.vsra c m d a (.vs r))
    have F := @fV_fields (14) ((bit c)) ((bit m)) (3) (r.val) (a.val) (d.val) (0x21) (by omega) (by omega) (by omega) (by omega) (by omega) (by omega) (by omega) (by omega)
    obtain ⟨hm, f27_5, f26_1, f25_1, f23_2, f18_5, f13_5, f8_5, f2_6, f0_2⟩ := F
    exact .word hm f0_2 (decodeBits_ofVsra_vs c m d a r hm (f0_2.trans (by omega)) (f2_6.trans (by omega)) (f8_5.trans (by omega)) (f13_5.trans (by omega)) ((fld_sub (o := 0) (k := 2) f18_5 rfl (by decide)).trans (by omega)) (f18_5.trans (by omega)) ((fld_sub (o := 2) (k := 3) f18_5 rfl (by decide)).trans (by omega)) (f23_2.trans (by omega)) (f25_1.trans (by omega)) (f26_1.trans (by omega)) (f27_5.trans (by omega)))

theorem decodeBits_ofVfma_vv (c : Bool) (m : Bool) (d : VReg) (a : VReg) (r : VReg) {W : Nat} (hm : W < 2 ^ 32) (h0 : fld W 0 2 = 1) (h1 : fld W 2 6 = 34) (h2 : fld W 8 5 = d.val) (h3 : fld W 13 5 = a.val) (h5 : fld W 18 5 = r.val) (h7 : fld W 23 2 = 0) (h8 : fld W 25 1 = (bit m)) (h9 : fld W 26 1 = (bit c)) (h10 : fld W 27 5 = 0) : decodeBits W = .ok (.vfma c m d a (.vv r)) := by
  have hb0 := bit_lt c
  have hb1 := bit_lt m
  have hb2 := d.isLt
  have hb3 := a.isLt
  rw [decodeBits_word h0 hm]
  rw [decode32.eq_1, h1]
  show (decodeV22 W : Except Reject Instr) = _
  rw [decodeV22.eq_1, h10]
  show (src W fun b => .vfma (flag W 26) (flag W 25) (xr W 8) (xr W 13) b : Except Reject Instr) = _
  simp only [h1, h2, h3, h5, h7, h8, h9, h10, src, bit_beq, xr, lo8, lane, bv, flag, zero, Except.bind, ofNat_val, ofNat_toNat, if_true, if_false, Nat.reduceBEq, Bool.false_eq_true, true_and, and_true, and_self, or_self, not_false_eq_true, ne_eq, Nat.reduceLT, Nat.reduceLeDiff, Nat.reduceEqDiff, bit_zero, bit_one]
theorem decodeBits_ofVfma_vx (c : Bool) (m : Bool) (d : VReg) (a : VReg) (r : XReg) {W : Nat} (hm : W < 2 ^ 32) (h0 : fld W 0 2 = 1) (h1 : fld W 2 6 = 34) (h2 : fld W 8 5 = d.val) (h3 : fld W 13 5 = a.val) (h5 : fld W 18 5 = r.val) (h7 : fld W 23 2 = 1) (h8 : fld W 25 1 = (bit m)) (h9 : fld W 26 1 = (bit c)) (h10 : fld W 27 5 = 0) : decodeBits W = .ok (.vfma c m d a (.vx r)) := by
  have hb0 := bit_lt c
  have hb1 := bit_lt m
  have hb2 := d.isLt
  have hb3 := a.isLt
  rw [decodeBits_word h0 hm]
  rw [decode32.eq_1, h1]
  show (decodeV22 W : Except Reject Instr) = _
  rw [decodeV22.eq_1, h10]
  show (src W fun b => .vfma (flag W 26) (flag W 25) (xr W 8) (xr W 13) b : Except Reject Instr) = _
  simp only [h1, h2, h3, h5, h7, h8, h9, h10, src, bit_beq, xr, lo8, lane, bv, flag, zero, Except.bind, ofNat_val, ofNat_toNat, if_true, if_false, Nat.reduceBEq, Bool.false_eq_true, true_and, and_true, and_self, or_self, not_false_eq_true, ne_eq, Nat.reduceLT, Nat.reduceLeDiff, Nat.reduceEqDiff, bit_zero, bit_one]
theorem decodeBits_ofVfma_vi (c : Bool) (m : Bool) (d : VReg) (a : VReg) (r : BitVec 5) {W : Nat} (hm : W < 2 ^ 32) (h0 : fld W 0 2 = 1) (h1 : fld W 2 6 = 34) (h2 : fld W 8 5 = d.val) (h3 : fld W 13 5 = a.val) (h5 : fld W 18 5 = r.toNat) (h7 : fld W 23 2 = 2) (h8 : fld W 25 1 = (bit m)) (h9 : fld W 26 1 = (bit c)) (h10 : fld W 27 5 = 0) : decodeBits W = .ok (.vfma c m d a (.vi r)) := by
  have hb0 := bit_lt c
  have hb1 := bit_lt m
  have hb2 := d.isLt
  have hb3 := a.isLt
  rw [decodeBits_word h0 hm]
  rw [decode32.eq_1, h1]
  show (decodeV22 W : Except Reject Instr) = _
  rw [decodeV22.eq_1, h10]
  show (src W fun b => .vfma (flag W 26) (flag W 25) (xr W 8) (xr W 13) b : Except Reject Instr) = _
  simp only [h1, h2, h3, h5, h7, h8, h9, h10, src, bit_beq, xr, lo8, lane, bv, flag, zero, Except.bind, ofNat_val, ofNat_toNat, if_true, if_false, Nat.reduceBEq, Bool.false_eq_true, true_and, and_true, and_self, or_self, not_false_eq_true, ne_eq, Nat.reduceLT, Nat.reduceLeDiff, Nat.reduceEqDiff, bit_zero, bit_one]
theorem decodeBits_ofVfma_vs (c : Bool) (m : Bool) (d : VReg) (a : VReg) (r : SReg) {W : Nat} (hm : W < 2 ^ 32) (h0 : fld W 0 2 = 1) (h1 : fld W 2 6 = 34) (h2 : fld W 8 5 = d.val) (h3 : fld W 13 5 = a.val) (h4 : fld W 18 2 = r.val) (h5 : fld W 18 5 = r.val) (h6 : fld W 20 3 = 0) (h7 : fld W 23 2 = 3) (h8 : fld W 25 1 = (bit m)) (h9 : fld W 26 1 = (bit c)) (h10 : fld W 27 5 = 0) : decodeBits W = .ok (.vfma c m d a (.vs r)) := by
  have hb0 := bit_lt c
  have hb1 := bit_lt m
  have hb2 := d.isLt
  have hb3 := a.isLt
  rw [decodeBits_word h0 hm]
  rw [decode32.eq_1, h1]
  show (decodeV22 W : Except Reject Instr) = _
  rw [decodeV22.eq_1, h10]
  show (src W fun b => .vfma (flag W 26) (flag W 25) (xr W 8) (xr W 13) b : Except Reject Instr) = _
  simp only [h1, h2, h3, h4, h5, h6, h7, h8, h9, h10, src, bit_beq, xr, lo8, lane, bv, flag, zero, Except.bind, ofNat_val, ofNat_toNat, if_true, if_false, Nat.reduceBEq, Bool.false_eq_true, true_and, and_true, and_self, or_self, not_false_eq_true, ne_eq, Nat.reduceLT, Nat.reduceLeDiff, Nat.reduceEqDiff, bit_zero, bit_one]
theorem codes_encVfma (c : Bool) (m : Bool) (d : VReg) (a : VReg) (b : VSrc) : Codes (encVfma c m d a b) (.vfma c m d a b) := by
  have hb0 := bit_lt c
  have hb1 := bit_lt m
  have hb2 := d.isLt
  have hb3 := a.isLt
  cases b with
  | vv r =>
    have hbr := r.isLt
    show Codes (4, fV 0 (bit c) (bit m) 0 r.val a d 0x22) (.vfma c m d a (.vv r))
    have F := @fV_fields (0) ((bit c)) ((bit m)) (0) (r.val) (a.val) (d.val) (0x22) (by omega) (by omega) (by omega) (by omega) (by omega) (by omega) (by omega) (by omega)
    obtain ⟨hm, f27_5, f26_1, f25_1, f23_2, f18_5, f13_5, f8_5, f2_6, f0_2⟩ := F
    exact .word hm f0_2 (decodeBits_ofVfma_vv c m d a r hm (f0_2.trans (by omega)) (f2_6.trans (by omega)) (f8_5.trans (by omega)) (f13_5.trans (by omega)) (f18_5.trans (by omega)) (f23_2.trans (by omega)) (f25_1.trans (by omega)) (f26_1.trans (by omega)) (f27_5.trans (by omega)))
  | vx r =>
    have hbr := r.isLt
    show Codes (4, fV 0 (bit c) (bit m) 1 r.val a d 0x22) (.vfma c m d a (.vx r))
    have F := @fV_fields (0) ((bit c)) ((bit m)) (1) (r.val) (a.val) (d.val) (0x22) (by omega) (by omega) (by omega) (by omega) (by omega) (by omega) (by omega) (by omega)
    obtain ⟨hm, f27_5, f26_1, f25_1, f23_2, f18_5, f13_5, f8_5, f2_6, f0_2⟩ := F
    exact .word hm f0_2 (decodeBits_ofVfma_vx c m d a r hm (f0_2.trans (by omega)) (f2_6.trans (by omega)) (f8_5.trans (by omega)) (f13_5.trans (by omega)) (f18_5.trans (by omega)) (f23_2.trans (by omega)) (f25_1.trans (by omega)) (f26_1.trans (by omega)) (f27_5.trans (by omega)))
  | vi r =>
    have hbr := r.isLt
    show Codes (4, fV 0 (bit c) (bit m) 2 r.toNat a d 0x22) (.vfma c m d a (.vi r))
    have F := @fV_fields (0) ((bit c)) ((bit m)) (2) (r.toNat) (a.val) (d.val) (0x22) (by omega) (by omega) (by omega) (by omega) (by omega) (by omega) (by omega) (by omega)
    obtain ⟨hm, f27_5, f26_1, f25_1, f23_2, f18_5, f13_5, f8_5, f2_6, f0_2⟩ := F
    exact .word hm f0_2 (decodeBits_ofVfma_vi c m d a r hm (f0_2.trans (by omega)) (f2_6.trans (by omega)) (f8_5.trans (by omega)) (f13_5.trans (by omega)) (f18_5.trans (by omega)) (f23_2.trans (by omega)) (f25_1.trans (by omega)) (f26_1.trans (by omega)) (f27_5.trans (by omega)))
  | vs r =>
    have hbr := r.isLt
    show Codes (4, fV 0 (bit c) (bit m) 3 r.val a d 0x22) (.vfma c m d a (.vs r))
    have F := @fV_fields (0) ((bit c)) ((bit m)) (3) (r.val) (a.val) (d.val) (0x22) (by omega) (by omega) (by omega) (by omega) (by omega) (by omega) (by omega) (by omega)
    obtain ⟨hm, f27_5, f26_1, f25_1, f23_2, f18_5, f13_5, f8_5, f2_6, f0_2⟩ := F
    exact .word hm f0_2 (decodeBits_ofVfma_vs c m d a r hm (f0_2.trans (by omega)) (f2_6.trans (by omega)) (f8_5.trans (by omega)) (f13_5.trans (by omega)) ((fld_sub (o := 0) (k := 2) f18_5 rfl (by decide)).trans (by omega)) (f18_5.trans (by omega)) ((fld_sub (o := 2) (k := 3) f18_5 rfl (by decide)).trans (by omega)) (f23_2.trans (by omega)) (f25_1.trans (by omega)) (f26_1.trans (by omega)) (f27_5.trans (by omega)))

theorem decodeBits_ofVfnma_vv (c : Bool) (m : Bool) (d : VReg) (a : VReg) (r : VReg) {W : Nat} (hm : W < 2 ^ 32) (h0 : fld W 0 2 = 1) (h1 : fld W 2 6 = 34) (h2 : fld W 8 5 = d.val) (h3 : fld W 13 5 = a.val) (h5 : fld W 18 5 = r.val) (h7 : fld W 23 2 = 0) (h8 : fld W 25 1 = (bit m)) (h9 : fld W 26 1 = (bit c)) (h10 : fld W 27 5 = 1) : decodeBits W = .ok (.vfnma c m d a (.vv r)) := by
  have hb0 := bit_lt c
  have hb1 := bit_lt m
  have hb2 := d.isLt
  have hb3 := a.isLt
  rw [decodeBits_word h0 hm]
  rw [decode32.eq_1, h1]
  show (decodeV22 W : Except Reject Instr) = _
  rw [decodeV22.eq_1, h10]
  show (src W fun b => .vfnma (flag W 26) (flag W 25) (xr W 8) (xr W 13) b : Except Reject Instr) = _
  simp only [h1, h2, h3, h5, h7, h8, h9, h10, src, bit_beq, xr, lo8, lane, bv, flag, zero, Except.bind, ofNat_val, ofNat_toNat, if_true, if_false, Nat.reduceBEq, Bool.false_eq_true, true_and, and_true, and_self, or_self, not_false_eq_true, ne_eq, Nat.reduceLT, Nat.reduceLeDiff, Nat.reduceEqDiff, bit_zero, bit_one]
theorem decodeBits_ofVfnma_vx (c : Bool) (m : Bool) (d : VReg) (a : VReg) (r : XReg) {W : Nat} (hm : W < 2 ^ 32) (h0 : fld W 0 2 = 1) (h1 : fld W 2 6 = 34) (h2 : fld W 8 5 = d.val) (h3 : fld W 13 5 = a.val) (h5 : fld W 18 5 = r.val) (h7 : fld W 23 2 = 1) (h8 : fld W 25 1 = (bit m)) (h9 : fld W 26 1 = (bit c)) (h10 : fld W 27 5 = 1) : decodeBits W = .ok (.vfnma c m d a (.vx r)) := by
  have hb0 := bit_lt c
  have hb1 := bit_lt m
  have hb2 := d.isLt
  have hb3 := a.isLt
  rw [decodeBits_word h0 hm]
  rw [decode32.eq_1, h1]
  show (decodeV22 W : Except Reject Instr) = _
  rw [decodeV22.eq_1, h10]
  show (src W fun b => .vfnma (flag W 26) (flag W 25) (xr W 8) (xr W 13) b : Except Reject Instr) = _
  simp only [h1, h2, h3, h5, h7, h8, h9, h10, src, bit_beq, xr, lo8, lane, bv, flag, zero, Except.bind, ofNat_val, ofNat_toNat, if_true, if_false, Nat.reduceBEq, Bool.false_eq_true, true_and, and_true, and_self, or_self, not_false_eq_true, ne_eq, Nat.reduceLT, Nat.reduceLeDiff, Nat.reduceEqDiff, bit_zero, bit_one]
theorem decodeBits_ofVfnma_vi (c : Bool) (m : Bool) (d : VReg) (a : VReg) (r : BitVec 5) {W : Nat} (hm : W < 2 ^ 32) (h0 : fld W 0 2 = 1) (h1 : fld W 2 6 = 34) (h2 : fld W 8 5 = d.val) (h3 : fld W 13 5 = a.val) (h5 : fld W 18 5 = r.toNat) (h7 : fld W 23 2 = 2) (h8 : fld W 25 1 = (bit m)) (h9 : fld W 26 1 = (bit c)) (h10 : fld W 27 5 = 1) : decodeBits W = .ok (.vfnma c m d a (.vi r)) := by
  have hb0 := bit_lt c
  have hb1 := bit_lt m
  have hb2 := d.isLt
  have hb3 := a.isLt
  rw [decodeBits_word h0 hm]
  rw [decode32.eq_1, h1]
  show (decodeV22 W : Except Reject Instr) = _
  rw [decodeV22.eq_1, h10]
  show (src W fun b => .vfnma (flag W 26) (flag W 25) (xr W 8) (xr W 13) b : Except Reject Instr) = _
  simp only [h1, h2, h3, h5, h7, h8, h9, h10, src, bit_beq, xr, lo8, lane, bv, flag, zero, Except.bind, ofNat_val, ofNat_toNat, if_true, if_false, Nat.reduceBEq, Bool.false_eq_true, true_and, and_true, and_self, or_self, not_false_eq_true, ne_eq, Nat.reduceLT, Nat.reduceLeDiff, Nat.reduceEqDiff, bit_zero, bit_one]
theorem decodeBits_ofVfnma_vs (c : Bool) (m : Bool) (d : VReg) (a : VReg) (r : SReg) {W : Nat} (hm : W < 2 ^ 32) (h0 : fld W 0 2 = 1) (h1 : fld W 2 6 = 34) (h2 : fld W 8 5 = d.val) (h3 : fld W 13 5 = a.val) (h4 : fld W 18 2 = r.val) (h5 : fld W 18 5 = r.val) (h6 : fld W 20 3 = 0) (h7 : fld W 23 2 = 3) (h8 : fld W 25 1 = (bit m)) (h9 : fld W 26 1 = (bit c)) (h10 : fld W 27 5 = 1) : decodeBits W = .ok (.vfnma c m d a (.vs r)) := by
  have hb0 := bit_lt c
  have hb1 := bit_lt m
  have hb2 := d.isLt
  have hb3 := a.isLt
  rw [decodeBits_word h0 hm]
  rw [decode32.eq_1, h1]
  show (decodeV22 W : Except Reject Instr) = _
  rw [decodeV22.eq_1, h10]
  show (src W fun b => .vfnma (flag W 26) (flag W 25) (xr W 8) (xr W 13) b : Except Reject Instr) = _
  simp only [h1, h2, h3, h4, h5, h6, h7, h8, h9, h10, src, bit_beq, xr, lo8, lane, bv, flag, zero, Except.bind, ofNat_val, ofNat_toNat, if_true, if_false, Nat.reduceBEq, Bool.false_eq_true, true_and, and_true, and_self, or_self, not_false_eq_true, ne_eq, Nat.reduceLT, Nat.reduceLeDiff, Nat.reduceEqDiff, bit_zero, bit_one]
theorem codes_encVfnma (c : Bool) (m : Bool) (d : VReg) (a : VReg) (b : VSrc) : Codes (encVfnma c m d a b) (.vfnma c m d a b) := by
  have hb0 := bit_lt c
  have hb1 := bit_lt m
  have hb2 := d.isLt
  have hb3 := a.isLt
  cases b with
  | vv r =>
    have hbr := r.isLt
    show Codes (4, fV 1 (bit c) (bit m) 0 r.val a d 0x22) (.vfnma c m d a (.vv r))
    have F := @fV_fields (1) ((bit c)) ((bit m)) (0) (r.val) (a.val) (d.val) (0x22) (by omega) (by omega) (by omega) (by omega) (by omega) (by omega) (by omega) (by omega)
    obtain ⟨hm, f27_5, f26_1, f25_1, f23_2, f18_5, f13_5, f8_5, f2_6, f0_2⟩ := F
    exact .word hm f0_2 (decodeBits_ofVfnma_vv c m d a r hm (f0_2.trans (by omega)) (f2_6.trans (by omega)) (f8_5.trans (by omega)) (f13_5.trans (by omega)) (f18_5.trans (by omega)) (f23_2.trans (by omega)) (f25_1.trans (by omega)) (f26_1.trans (by omega)) (f27_5.trans (by omega)))
  | vx r =>
    have hbr := r.isLt
    show Codes (4, fV 1 (bit c) (bit m) 1 r.val a d 0x22) (.vfnma c m d a (.vx r))
    have F := @fV_fields (1) ((bit c)) ((bit m)) (1) (r.val) (a.val) (d.val) (0x22) (by omega) (by omega) (by omega) (by omega) (by omega) (by omega) (by omega) (by omega)
    obtain ⟨hm, f27_5, f26_1, f25_1, f23_2, f18_5, f13_5, f8_5, f2_6, f0_2⟩ := F
    exact .word hm f0_2 (decodeBits_ofVfnma_vx c m d a r hm (f0_2.trans (by omega)) (f2_6.trans (by omega)) (f8_5.trans (by omega)) (f13_5.trans (by omega)) (f18_5.trans (by omega)) (f23_2.trans (by omega)) (f25_1.trans (by omega)) (f26_1.trans (by omega)) (f27_5.trans (by omega)))
  | vi r =>
    have hbr := r.isLt
    show Codes (4, fV 1 (bit c) (bit m) 2 r.toNat a d 0x22) (.vfnma c m d a (.vi r))
    have F := @fV_fields (1) ((bit c)) ((bit m)) (2) (r.toNat) (a.val) (d.val) (0x22) (by omega) (by omega) (by omega) (by omega) (by omega) (by omega) (by omega) (by omega)
    obtain ⟨hm, f27_5, f26_1, f25_1, f23_2, f18_5, f13_5, f8_5, f2_6, f0_2⟩ := F
    exact .word hm f0_2 (decodeBits_ofVfnma_vi c m d a r hm (f0_2.trans (by omega)) (f2_6.trans (by omega)) (f8_5.trans (by omega)) (f13_5.trans (by omega)) (f18_5.trans (by omega)) (f23_2.trans (by omega)) (f25_1.trans (by omega)) (f26_1.trans (by omega)) (f27_5.trans (by omega)))
  | vs r =>
    have hbr := r.isLt
    show Codes (4, fV 1 (bit c) (bit m) 3 r.val a d 0x22) (.vfnma c m d a (.vs r))
    have F := @fV_fields (1) ((bit c)) ((bit m)) (3) (r.val) (a.val) (d.val) (0x22) (by omega) (by omega) (by omega) (by omega) (by omega) (by omega) (by omega) (by omega)
    obtain ⟨hm, f27_5, f26_1, f25_1, f23_2, f18_5, f13_5, f8_5, f2_6, f0_2⟩ := F
    exact .word hm f0_2 (decodeBits_ofVfnma_vs c m d a r hm (f0_2.trans (by omega)) (f2_6.trans (by omega)) (f8_5.trans (by omega)) (f13_5.trans (by omega)) ((fld_sub (o := 0) (k := 2) f18_5 rfl (by decide)).trans (by omega)) (f18_5.trans (by omega)) ((fld_sub (o := 2) (k := 3) f18_5 rfl (by decide)).trans (by omega)) (f23_2.trans (by omega)) (f25_1.trans (by omega)) (f26_1.trans (by omega)) (f27_5.trans (by omega)))

theorem decodeBits_ofVabs (c : Bool) (m : Bool) (d : VReg) (a : VReg) {W : Nat} (hm : W < 2 ^ 32) (h0 : fld W 0 2 = 1) (h1 : fld W 2 6 = 34) (h2 : fld W 8 5 = d.val) (h3 : fld W 13 5 = a.val) (h4 : fld W 18 7 = 0) (h5 : fld W 25 1 = (bit m)) (h6 : fld W 26 1 = (bit c)) (h7 : fld W 27 5 = 2) : decodeBits W = .ok (.vabs c m d a) := by
  have hb0 := bit_lt c
  have hb1 := bit_lt m
  have hb2 := d.isLt
  have hb3 := a.isLt
  rw [decodeBits_word h0 hm]
  rw [decode32.eq_1, h1]
  show (decodeV22 W : Except Reject Instr) = _
  rw [decodeV22.eq_1, h7]
  show (zero W 18 7 (.vabs (flag W 26) (flag W 25) (xr W 8) (xr W 13)) : Except Reject Instr) = _
  simp only [h1, h2, h3, h4, h5, h6, h7, bit_beq, xr, lo8, lane, bv, flag, zero, Except.bind, ofNat_val, ofNat_toNat, if_true, if_false, Nat.reduceBEq, Bool.false_eq_true, true_and, and_true, and_self, or_self, not_false_eq_true, ne_eq, Nat.reduceLT, Nat.reduceLeDiff, Nat.reduceEqDiff, bit_zero, bit_one]
theorem codes_encVabs (c : Bool) (m : Bool) (d : VReg) (a : VReg) : Codes (encVabs c m d a) (.vabs c m d a) := by
  have hb0 := bit_lt c
  have hb1 := bit_lt m
  have hb2 := d.isLt
  have hb3 := a.isLt
  show Codes (4, fV 2 (bit c) (bit m) 0 0 a d 0x22) (.vabs c m d a)
  have F := @fV_fields (2) ((bit c)) ((bit m)) (0) (0) (a.val) (d.val) (0x22) (by omega) (by omega) (by omega) (by omega) (by omega) (by omega) (by omega) (by omega)
  obtain ⟨hm, f27_5, f26_1, f25_1, f23_2, f18_5, f13_5, f8_5, f2_6, f0_2⟩ := F
  exact .word hm f0_2 (decodeBits_ofVabs c m d a hm (f0_2.trans (by omega)) (f2_6.trans (by omega)) (f8_5.trans (by omega)) (f13_5.trans (by omega)) ((fld_app f18_5 f23_2 rfl rfl).trans (by omega)) (f25_1.trans (by omega)) (f26_1.trans (by omega)) (f27_5.trans (by omega)))

theorem decodeBits_ofVneg (c : Bool) (m : Bool) (d : VReg) (a : VReg) {W : Nat} (hm : W < 2 ^ 32) (h0 : fld W 0 2 = 1) (h1 : fld W 2 6 = 34) (h2 : fld W 8 5 = d.val) (h3 : fld W 13 5 = a.val) (h4 : fld W 18 7 = 0) (h5 : fld W 25 1 = (bit m)) (h6 : fld W 26 1 = (bit c)) (h7 : fld W 27 5 = 3) : decodeBits W = .ok (.vneg c m d a) := by
  have hb0 := bit_lt c
  have hb1 := bit_lt m
  have hb2 := d.isLt
  have hb3 := a.isLt
  rw [decodeBits_word h0 hm]
  rw [decode32.eq_1, h1]
  show (decodeV22 W : Except Reject Instr) = _
  rw [decodeV22.eq_1, h7]
  show (zero W 18 7 (.vneg (flag W 26) (flag W 25) (xr W 8) (xr W 13)) : Except Reject Instr) = _
  simp only [h1, h2, h3, h4, h5, h6, h7, bit_beq, xr, lo8, lane, bv, flag, zero, Except.bind, ofNat_val, ofNat_toNat, if_true, if_false, Nat.reduceBEq, Bool.false_eq_true, true_and, and_true, and_self, or_self, not_false_eq_true, ne_eq, Nat.reduceLT, Nat.reduceLeDiff, Nat.reduceEqDiff, bit_zero, bit_one]
theorem codes_encVneg (c : Bool) (m : Bool) (d : VReg) (a : VReg) : Codes (encVneg c m d a) (.vneg c m d a) := by
  have hb0 := bit_lt c
  have hb1 := bit_lt m
  have hb2 := d.isLt
  have hb3 := a.isLt
  show Codes (4, fV 3 (bit c) (bit m) 0 0 a d 0x22) (.vneg c m d a)
  have F := @fV_fields (3) ((bit c)) ((bit m)) (0) (0) (a.val) (d.val) (0x22) (by omega) (by omega) (by omega) (by omega) (by omega) (by omega) (by omega) (by omega)
  obtain ⟨hm, f27_5, f26_1, f25_1, f23_2, f18_5, f13_5, f8_5, f2_6, f0_2⟩ := F
  exact .word hm f0_2 (decodeBits_ofVneg c m d a hm (f0_2.trans (by omega)) (f2_6.trans (by omega)) (f8_5.trans (by omega)) (f13_5.trans (by omega)) ((fld_app f18_5 f23_2 rfl rfl).trans (by omega)) (f25_1.trans (by omega)) (f26_1.trans (by omega)) (f27_5.trans (by omega)))

theorem decodeBits_ofVsel_vv (c : Bool) (d : VReg) (a : VReg) (r : VReg) {W : Nat} (hm : W < 2 ^ 32) (h0 : fld W 0 2 = 1) (h1 : fld W 2 6 = 34) (h2 : fld W 8 5 = d.val) (h3 : fld W 13 5 = a.val) (h5 : fld W 18 5 = r.val) (h7 : fld W 23 2 = 0) (h8 : fld W 25 1 = 0) (h9 : fld W 26 1 = (bit c)) (h10 : fld W 27 5 = 4) : decodeBits W = .ok (.vsel c d a (.vv r)) := by
  have hb0 := bit_lt c
  have hb1 := d.isLt
  have hb2 := a.isLt
  rw [decodeBits_word h0 hm]
  rw [decode32.eq_1, h1]
  show (decodeV22 W : Except Reject Instr) = _
  rw [decodeV22.eq_1, h10]
  show ((src W fun b => .vsel (flag W 26) (xr W 8) (xr W 13) b) |>.bind (zero W 25 1) : Except Reject Instr) = _
  simp only [h1, h2, h3, h5, h7, h8, h9, h10, src, bit_beq, xr, lo8, lane, bv, flag, zero, Except.bind, ofNat_val, ofNat_toNat, if_true, if_false, Nat.reduceBEq, Bool.false_eq_true, true_and, and_true, and_self, or_self, not_false_eq_true, ne_eq, Nat.reduceLT, Nat.reduceLeDiff, Nat.reduceEqDiff, bit_zero, bit_one]
theorem decodeBits_ofVsel_vx (c : Bool) (d : VReg) (a : VReg) (r : XReg) {W : Nat} (hm : W < 2 ^ 32) (h0 : fld W 0 2 = 1) (h1 : fld W 2 6 = 34) (h2 : fld W 8 5 = d.val) (h3 : fld W 13 5 = a.val) (h5 : fld W 18 5 = r.val) (h7 : fld W 23 2 = 1) (h8 : fld W 25 1 = 0) (h9 : fld W 26 1 = (bit c)) (h10 : fld W 27 5 = 4) : decodeBits W = .ok (.vsel c d a (.vx r)) := by
  have hb0 := bit_lt c
  have hb1 := d.isLt
  have hb2 := a.isLt
  rw [decodeBits_word h0 hm]
  rw [decode32.eq_1, h1]
  show (decodeV22 W : Except Reject Instr) = _
  rw [decodeV22.eq_1, h10]
  show ((src W fun b => .vsel (flag W 26) (xr W 8) (xr W 13) b) |>.bind (zero W 25 1) : Except Reject Instr) = _
  simp only [h1, h2, h3, h5, h7, h8, h9, h10, src, bit_beq, xr, lo8, lane, bv, flag, zero, Except.bind, ofNat_val, ofNat_toNat, if_true, if_false, Nat.reduceBEq, Bool.false_eq_true, true_and, and_true, and_self, or_self, not_false_eq_true, ne_eq, Nat.reduceLT, Nat.reduceLeDiff, Nat.reduceEqDiff, bit_zero, bit_one]
theorem decodeBits_ofVsel_vi (c : Bool) (d : VReg) (a : VReg) (r : BitVec 5) {W : Nat} (hm : W < 2 ^ 32) (h0 : fld W 0 2 = 1) (h1 : fld W 2 6 = 34) (h2 : fld W 8 5 = d.val) (h3 : fld W 13 5 = a.val) (h5 : fld W 18 5 = r.toNat) (h7 : fld W 23 2 = 2) (h8 : fld W 25 1 = 0) (h9 : fld W 26 1 = (bit c)) (h10 : fld W 27 5 = 4) : decodeBits W = .ok (.vsel c d a (.vi r)) := by
  have hb0 := bit_lt c
  have hb1 := d.isLt
  have hb2 := a.isLt
  rw [decodeBits_word h0 hm]
  rw [decode32.eq_1, h1]
  show (decodeV22 W : Except Reject Instr) = _
  rw [decodeV22.eq_1, h10]
  show ((src W fun b => .vsel (flag W 26) (xr W 8) (xr W 13) b) |>.bind (zero W 25 1) : Except Reject Instr) = _
  simp only [h1, h2, h3, h5, h7, h8, h9, h10, src, bit_beq, xr, lo8, lane, bv, flag, zero, Except.bind, ofNat_val, ofNat_toNat, if_true, if_false, Nat.reduceBEq, Bool.false_eq_true, true_and, and_true, and_self, or_self, not_false_eq_true, ne_eq, Nat.reduceLT, Nat.reduceLeDiff, Nat.reduceEqDiff, bit_zero, bit_one]
theorem decodeBits_ofVsel_vs (c : Bool) (d : VReg) (a : VReg) (r : SReg) {W : Nat} (hm : W < 2 ^ 32) (h0 : fld W 0 2 = 1) (h1 : fld W 2 6 = 34) (h2 : fld W 8 5 = d.val) (h3 : fld W 13 5 = a.val) (h4 : fld W 18 2 = r.val) (h5 : fld W 18 5 = r.val) (h6 : fld W 20 3 = 0) (h7 : fld W 23 2 = 3) (h8 : fld W 25 1 = 0) (h9 : fld W 26 1 = (bit c)) (h10 : fld W 27 5 = 4) : decodeBits W = .ok (.vsel c d a (.vs r)) := by
  have hb0 := bit_lt c
  have hb1 := d.isLt
  have hb2 := a.isLt
  rw [decodeBits_word h0 hm]
  rw [decode32.eq_1, h1]
  show (decodeV22 W : Except Reject Instr) = _
  rw [decodeV22.eq_1, h10]
  show ((src W fun b => .vsel (flag W 26) (xr W 8) (xr W 13) b) |>.bind (zero W 25 1) : Except Reject Instr) = _
  simp only [h1, h2, h3, h4, h5, h6, h7, h8, h9, h10, src, bit_beq, xr, lo8, lane, bv, flag, zero, Except.bind, ofNat_val, ofNat_toNat, if_true, if_false, Nat.reduceBEq, Bool.false_eq_true, true_and, and_true, and_self, or_self, not_false_eq_true, ne_eq, Nat.reduceLT, Nat.reduceLeDiff, Nat.reduceEqDiff, bit_zero, bit_one]
theorem codes_encVsel (c : Bool) (d : VReg) (a : VReg) (b : VSrc) : Codes (encVsel c d a b) (.vsel c d a b) := by
  have hb0 := bit_lt c
  have hb1 := d.isLt
  have hb2 := a.isLt
  cases b with
  | vv r =>
    have hbr := r.isLt
    show Codes (4, fV 4 (bit c) 0 0 r.val a d 0x22) (.vsel c d a (.vv r))
    have F := @fV_fields (4) ((bit c)) (0) (0) (r.val) (a.val) (d.val) (0x22) (by omega) (by omega) (by omega) (by omega) (by omega) (by omega) (by omega) (by omega)
    obtain ⟨hm, f27_5, f26_1, f25_1, f23_2, f18_5, f13_5, f8_5, f2_6, f0_2⟩ := F
    exact .word hm f0_2 (decodeBits_ofVsel_vv c d a r hm (f0_2.trans (by omega)) (f2_6.trans (by omega)) (f8_5.trans (by omega)) (f13_5.trans (by omega)) (f18_5.trans (by omega)) (f23_2.trans (by omega)) (f25_1.trans (by omega)) (f26_1.trans (by omega)) (f27_5.trans (by omega)))
  | vx r =>
    have hbr := r.isLt
    show Codes (4, fV 4 (bit c) 0 1 r.val a d 0x22) (.vsel c d a (.vx r))
    have F := @fV_fields (4) ((bit c)) (0) (1) (r.val) (a.val) (d.val) (0x22) (by omega) (by omega) (by omega) (by omega) (by omega) (by omega) (by omega) (by omega)
    obtain ⟨hm, f27_5, f26_1, f25_1, f23_2, f18_5, f13_5, f8_5, f2_6, f0_2⟩ := F
    exact .word hm f0_2 (decodeBits_ofVsel_vx c d a r hm (f0_2.trans (by omega)) (f2_6.trans (by omega)) (f8_5.trans (by omega)) (f13_5.trans (by omega)) (f18_5.trans (by omega)) (f23_2.trans (by omega)) (f25_1.trans (by omega)) (f26_1.trans (by omega)) (f27_5.trans (by omega)))
  | vi r =>
    have hbr := r.isLt
    show Codes (4, fV 4 (bit c) 0 2 r.toNat a d 0x22) (.vsel c d a (.vi r))
    have F := @fV_fields (4) ((bit c)) (0) (2) (r.toNat) (a.val) (d.val) (0x22) (by omega) (by omega) (by omega) (by omega) (by omega) (by omega) (by omega) (by omega)
    obtain ⟨hm, f27_5, f26_1, f25_1, f23_2, f18_5, f13_5, f8_5, f2_6, f0_2⟩ := F
    exact .word hm f0_2 (decodeBits_ofVsel_vi c d a r hm (f0_2.trans (by omega)) (f2_6.trans (by omega)) (f8_5.trans (by omega)) (f13_5.trans (by omega)) (f18_5.trans (by omega)) (f23_2.trans (by omega)) (f25_1.trans (by omega)) (f26_1.trans (by omega)) (f27_5.trans (by omega)))
  | vs r =>
    have hbr := r.isLt
    show Codes (4, fV 4 (bit c) 0 3 r.val a d 0x22) (.vsel c d a (.vs r))
    have F := @fV_fields (4) ((bit c)) (0) (3) (r.val) (a.val) (d.val) (0x22) (by omega) (by omega) (by omega) (by omega) (by omega) (by omega) (by omega) (by omega)
    obtain ⟨hm, f27_5, f26_1, f25_1, f23_2, f18_5, f13_5, f8_5, f2_6, f0_2⟩ := F
    exact .word hm f0_2 (decodeBits_ofVsel_vs c d a r hm (f0_2.trans (by omega)) (f2_6.trans (by omega)) (f8_5.trans (by omega)) (f13_5.trans (by omega)) ((fld_sub (o := 0) (k := 2) f18_5 rfl (by decide)).trans (by omega)) (f18_5.trans (by omega)) ((fld_sub (o := 2) (k := 3) f18_5 rfl (by decide)).trans (by omega)) (f23_2.trans (by omega)) (f25_1.trans (by omega)) (f26_1.trans (by omega)) (f27_5.trans (by omega)))

theorem decodeBits_ofVaddc_vv (q : MReg) (c : Bool) (m : Bool) (d : VReg) (a : VReg) (r : VReg) {W : Nat} (hm : W < 2 ^ 32) (h0 : fld W 0 2 = 1) (h1 : fld W 2 6 = 35) (h2 : fld W 8 5 = d.val) (h3 : fld W 13 5 = a.val) (h5 : fld W 18 5 = r.val) (h7 : fld W 23 2 = 0) (h8 : fld W 25 1 = (bit m)) (h9 : fld W 26 1 = (bit c)) (h10 : fld W 27 3 = q.val) (h11 : fld W 30 2 = 0) : decodeBits W = .ok (.vaddc q c m d a (.vv r)) := by
  have hb0 := q.isLt
  have hb1 := bit_lt c
  have hb2 := bit_lt m
  have hb3 := d.isLt
  have hb4 := a.isLt
  rw [decodeBits_word h0 hm]
  rw [decode32.eq_1, h1]
  show (decodeV23 W : Except Reject Instr) = _
  rw [decodeV23.eq_1, h11, h10]
  show (src W fun b => .vaddc (lo8 W 27) (flag W 26) (flag W 25) (xr W 8) (xr W 13) b : Except Reject Instr) = _
  simp only [h1, h2, h3, h5, h7, h8, h9, h10, h11, src, bit_beq, xr, lo8, lane, bv, flag, zero, Except.bind, ofNat_val, ofNat_toNat, if_true, if_false, Nat.reduceBEq, Bool.false_eq_true, true_and, and_true, and_self, or_self, not_false_eq_true, ne_eq, Nat.reduceLT, Nat.reduceLeDiff, Nat.reduceEqDiff, bit_zero, bit_one]
theorem decodeBits_ofVaddc_vx (q : MReg) (c : Bool) (m : Bool) (d : VReg) (a : VReg) (r : XReg) {W : Nat} (hm : W < 2 ^ 32) (h0 : fld W 0 2 = 1) (h1 : fld W 2 6 = 35) (h2 : fld W 8 5 = d.val) (h3 : fld W 13 5 = a.val) (h5 : fld W 18 5 = r.val) (h7 : fld W 23 2 = 1) (h8 : fld W 25 1 = (bit m)) (h9 : fld W 26 1 = (bit c)) (h10 : fld W 27 3 = q.val) (h11 : fld W 30 2 = 0) : decodeBits W = .ok (.vaddc q c m d a (.vx r)) := by
  have hb0 := q.isLt
  have hb1 := bit_lt c
  have hb2 := bit_lt m
  have hb3 := d.isLt
  have hb4 := a.isLt
  rw [decodeBits_word h0 hm]
  rw [decode32.eq_1, h1]
  show (decodeV23 W : Except Reject Instr) = _
  rw [decodeV23.eq_1, h11, h10]
  show (src W fun b => .vaddc (lo8 W 27) (flag W 26) (flag W 25) (xr W 8) (xr W 13) b : Except Reject Instr) = _
  simp only [h1, h2, h3, h5, h7, h8, h9, h10, h11, src, bit_beq, xr, lo8, lane, bv, flag, zero, Except.bind, ofNat_val, ofNat_toNat, if_true, if_false, Nat.reduceBEq, Bool.false_eq_true, true_and, and_true, and_self, or_self, not_false_eq_true, ne_eq, Nat.reduceLT, Nat.reduceLeDiff, Nat.reduceEqDiff, bit_zero, bit_one]
theorem decodeBits_ofVaddc_vi (q : MReg) (c : Bool) (m : Bool) (d : VReg) (a : VReg) (r : BitVec 5) {W : Nat} (hm : W < 2 ^ 32) (h0 : fld W 0 2 = 1) (h1 : fld W 2 6 = 35) (h2 : fld W 8 5 = d.val) (h3 : fld W 13 5 = a.val) (h5 : fld W 18 5 = r.toNat) (h7 : fld W 23 2 = 2) (h8 : fld W 25 1 = (bit m)) (h9 : fld W 26 1 = (bit c)) (h10 : fld W 27 3 = q.val) (h11 : fld W 30 2 = 0) : decodeBits W = .ok (.vaddc q c m d a (.vi r)) := by
  have hb0 := q.isLt
  have hb1 := bit_lt c
  have hb2 := bit_lt m
  have hb3 := d.isLt
  have hb4 := a.isLt
  rw [decodeBits_word h0 hm]
  rw [decode32.eq_1, h1]
  show (decodeV23 W : Except Reject Instr) = _
  rw [decodeV23.eq_1, h11, h10]
  show (src W fun b => .vaddc (lo8 W 27) (flag W 26) (flag W 25) (xr W 8) (xr W 13) b : Except Reject Instr) = _
  simp only [h1, h2, h3, h5, h7, h8, h9, h10, h11, src, bit_beq, xr, lo8, lane, bv, flag, zero, Except.bind, ofNat_val, ofNat_toNat, if_true, if_false, Nat.reduceBEq, Bool.false_eq_true, true_and, and_true, and_self, or_self, not_false_eq_true, ne_eq, Nat.reduceLT, Nat.reduceLeDiff, Nat.reduceEqDiff, bit_zero, bit_one]
theorem decodeBits_ofVaddc_vs (q : MReg) (c : Bool) (m : Bool) (d : VReg) (a : VReg) (r : SReg) {W : Nat} (hm : W < 2 ^ 32) (h0 : fld W 0 2 = 1) (h1 : fld W 2 6 = 35) (h2 : fld W 8 5 = d.val) (h3 : fld W 13 5 = a.val) (h4 : fld W 18 2 = r.val) (h5 : fld W 18 5 = r.val) (h6 : fld W 20 3 = 0) (h7 : fld W 23 2 = 3) (h8 : fld W 25 1 = (bit m)) (h9 : fld W 26 1 = (bit c)) (h10 : fld W 27 3 = q.val) (h11 : fld W 30 2 = 0) : decodeBits W = .ok (.vaddc q c m d a (.vs r)) := by
  have hb0 := q.isLt
  have hb1 := bit_lt c
  have hb2 := bit_lt m
  have hb3 := d.isLt
  have hb4 := a.isLt
  rw [decodeBits_word h0 hm]
  rw [decode32.eq_1, h1]
  show (decodeV23 W : Except Reject Instr) = _
  rw [decodeV23.eq_1, h11, h10]
  show (src W fun b => .vaddc (lo8 W 27) (flag W 26) (flag W 25) (xr W 8) (xr W 13) b : Except Reject Instr) = _
  simp only [h1, h2, h3, h4, h5, h6, h7, h8, h9, h10, h11, src, bit_beq, xr, lo8, lane, bv, flag, zero, Except.bind, ofNat_val, ofNat_toNat, if_true, if_false, Nat.reduceBEq, Bool.false_eq_true, true_and, and_true, and_self, or_self, not_false_eq_true, ne_eq, Nat.reduceLT, Nat.reduceLeDiff, Nat.reduceEqDiff, bit_zero, bit_one]
theorem codes_encVaddc (q : MReg) (c : Bool) (m : Bool) (d : VReg) (a : VReg) (b : VSrc) : Codes (encVaddc q c m d a b) (.vaddc q c m d a b) := by
  have hb0 := q.isLt
  have hb1 := bit_lt c
  have hb2 := bit_lt m
  have hb3 := d.isLt
  have hb4 := a.isLt
  cases b with
  | vv r =>
    have hbr := r.isLt
    show Codes (4, fV (0 * 2 ^ 3 + q.val) (bit c) (bit m) 0 r.val a d 0x23) (.vaddc q c m d a (.vv r))
    have F := @fV_fields ((0 * 2 ^ 3 + q.val)) ((bit c)) ((bit m)) (0) (r.val) (a.val) (d.val) (0x23) (by omega) (by omega) (by omega) (by omega) (by omega) (by omega) (by omega) (by omega)
    obtain ⟨hm, f27_5, f26_1, f25_1, f23_2, f18_5, f13_5, f8_5, f2_6, f0_2⟩ := F
    exact .word hm f0_2 (decodeBits_ofVaddc_vv q c m d a r hm (f0_2.trans (by omega)) (f2_6.trans (by omega)) (f8_5.trans (by omega)) (f13_5.trans (by omega)) (f18_5.trans (by omega)) (f23_2.trans (by omega)) (f25_1.trans (by omega)) (f26_1.trans (by omega)) ((fld_sub (o := 0) (k := 3) f27_5 rfl (by decide)).trans (by omega)) ((fld_sub (o := 3) (k := 2) f27_5 rfl (by decide)).trans (by omega)))
  | vx r =>
    have hbr := r.isLt
    show Codes (4, fV (0 * 2 ^ 3 + q.val) (bit c) (bit m) 1 r.val a d 0x23) (.vaddc q c m d a (.vx r))
    have F := @fV_fields ((0 * 2 ^ 3 + q.val)) ((bit c)) ((bit m)) (1) (r.val) (a.val) (d.val) (0x23) (by omega) (by omega) (by omega) (by omega) (by omega) (by omega) (by omega) (by omega)
    obtain ⟨hm, f27_5, f26_1, f25_1, f23_2, f18_5, f13_5, f8_5, f2_6, f0_2⟩ := F
    exact .word hm f0_2 (decodeBits_ofVaddc_vx q c m d a r hm (f0_2.trans (by omega)) (f2_6.trans (by omega)) (f8_5.trans (by omega)) (f13_5.trans (by omega)) (f18_5.trans (by omega)) (f23_2.trans (by omega)) (f25_1.trans (by omega)) (f26_1.trans (by omega)) ((fld_sub (o := 0) (k := 3) f27_5 rfl (by decide)).trans (by omega)) ((fld_sub (o := 3) (k := 2) f27_5 rfl (by decide)).trans (by omega)))
  | vi r =>
    have hbr := r.isLt
    show Codes (4, fV (0 * 2 ^ 3 + q.val) (bit c) (bit m) 2 r.toNat a d 0x23) (.vaddc q c m d a (.vi r))
    have F := @fV_fields ((0 * 2 ^ 3 + q.val)) ((bit c)) ((bit m)) (2) (r.toNat) (a.val) (d.val) (0x23) (by omega) (by omega) (by omega) (by omega) (by omega) (by omega) (by omega) (by omega)
    obtain ⟨hm, f27_5, f26_1, f25_1, f23_2, f18_5, f13_5, f8_5, f2_6, f0_2⟩ := F
    exact .word hm f0_2 (decodeBits_ofVaddc_vi q c m d a r hm (f0_2.trans (by omega)) (f2_6.trans (by omega)) (f8_5.trans (by omega)) (f13_5.trans (by omega)) (f18_5.trans (by omega)) (f23_2.trans (by omega)) (f25_1.trans (by omega)) (f26_1.trans (by omega)) ((fld_sub (o := 0) (k := 3) f27_5 rfl (by decide)).trans (by omega)) ((fld_sub (o := 3) (k := 2) f27_5 rfl (by decide)).trans (by omega)))
  | vs r =>
    have hbr := r.isLt
    show Codes (4, fV (0 * 2 ^ 3 + q.val) (bit c) (bit m) 3 r.val a d 0x23) (.vaddc q c m d a (.vs r))
    have F := @fV_fields ((0 * 2 ^ 3 + q.val)) ((bit c)) ((bit m)) (3) (r.val) (a.val) (d.val) (0x23) (by omega) (by omega) (by omega) (by omega) (by omega) (by omega) (by omega) (by omega)
    obtain ⟨hm, f27_5, f26_1, f25_1, f23_2, f18_5, f13_5, f8_5, f2_6, f0_2⟩ := F
    exact .word hm f0_2 (decodeBits_ofVaddc_vs q c m d a r hm (f0_2.trans (by omega)) (f2_6.trans (by omega)) (f8_5.trans (by omega)) (f13_5.trans (by omega)) ((fld_sub (o := 0) (k := 2) f18_5 rfl (by decide)).trans (by omega)) (f18_5.trans (by omega)) ((fld_sub (o := 2) (k := 3) f18_5 rfl (by decide)).trans (by omega)) (f23_2.trans (by omega)) (f25_1.trans (by omega)) (f26_1.trans (by omega)) ((fld_sub (o := 0) (k := 3) f27_5 rfl (by decide)).trans (by omega)) ((fld_sub (o := 3) (k := 2) f27_5 rfl (by decide)).trans (by omega)))

theorem decodeBits_ofVsubb_vv (q : MReg) (c : Bool) (m : Bool) (d : VReg) (a : VReg) (r : VReg) {W : Nat} (hm : W < 2 ^ 32) (h0 : fld W 0 2 = 1) (h1 : fld W 2 6 = 35) (h2 : fld W 8 5 = d.val) (h3 : fld W 13 5 = a.val) (h5 : fld W 18 5 = r.val) (h7 : fld W 23 2 = 0) (h8 : fld W 25 1 = (bit m)) (h9 : fld W 26 1 = (bit c)) (h10 : fld W 27 3 = q.val) (h11 : fld W 30 2 = 1) : decodeBits W = .ok (.vsubb q c m d a (.vv r)) := by
  have hb0 := q.isLt
  have hb1 := bit_lt c
  have hb2 := bit_lt m
  have hb3 := d.isLt
  have hb4 := a.isLt
  rw [decodeBits_word h0 hm]
  rw [decode32.eq_1, h1]
  show (decodeV23 W : Except Reject Instr) = _
  rw [decodeV23.eq_1, h11, h10]
  show (src W fun b => .vsubb (lo8 W 27) (flag W 26) (flag W 25) (xr W 8) (xr W 13) b : Except Reject Instr) = _
  simp only [h1, h2, h3, h5, h7, h8, h9, h10, h11, src, bit_beq, xr, lo8, lane, bv, flag, zero, Except.bind, ofNat_val, ofNat_toNat, if_true, if_false, Nat.reduceBEq, Bool.false_eq_true, true_and, and_true, and_self, or_self, not_false_eq_true, ne_eq, Nat.reduceLT, Nat.reduceLeDiff, Nat.reduceEqDiff, bit_zero, bit_one]
theorem decodeBits_ofVsubb_vx (q : MReg) (c : Bool) (m : Bool) (d : VReg) (a : VReg) (r : XReg) {W : Nat} (hm : W < 2 ^ 32) (h0 : fld W 0 2 = 1) (h1 : fld W 2 6 = 35) (h2 : fld W 8 5 = d.val) (h3 : fld W 13 5 = a.val) (h5 : fld W 18 5 = r.val) (h7 : fld W 23 2 = 1) (h8 : fld W 25 1 = (bit m)) (h9 : fld W 26 1 = (bit c)) (h10 : fld W 27 3 = q.val) (h11 : fld W 30 2 = 1) : decodeBits W = .ok (.vsubb q c m d a (.vx r)) := by
  have hb0 := q.isLt
  have hb1 := bit_lt c
  have hb2 := bit_lt m
  have hb3 := d.isLt
  have hb4 := a.isLt
  rw [decodeBits_word h0 hm]
  rw [decode32.eq_1, h1]
  show (decodeV23 W : Except Reject Instr) = _
  rw [decodeV23.eq_1, h11, h10]
  show (src W fun b => .vsubb (lo8 W 27) (flag W 26) (flag W 25) (xr W 8) (xr W 13) b : Except Reject Instr) = _
  simp only [h1, h2, h3, h5, h7, h8, h9, h10, h11, src, bit_beq, xr, lo8, lane, bv, flag, zero, Except.bind, ofNat_val, ofNat_toNat, if_true, if_false, Nat.reduceBEq, Bool.false_eq_true, true_and, and_true, and_self, or_self, not_false_eq_true, ne_eq, Nat.reduceLT, Nat.reduceLeDiff, Nat.reduceEqDiff, bit_zero, bit_one]
theorem decodeBits_ofVsubb_vi (q : MReg) (c : Bool) (m : Bool) (d : VReg) (a : VReg) (r : BitVec 5) {W : Nat} (hm : W < 2 ^ 32) (h0 : fld W 0 2 = 1) (h1 : fld W 2 6 = 35) (h2 : fld W 8 5 = d.val) (h3 : fld W 13 5 = a.val) (h5 : fld W 18 5 = r.toNat) (h7 : fld W 23 2 = 2) (h8 : fld W 25 1 = (bit m)) (h9 : fld W 26 1 = (bit c)) (h10 : fld W 27 3 = q.val) (h11 : fld W 30 2 = 1) : decodeBits W = .ok (.vsubb q c m d a (.vi r)) := by
  have hb0 := q.isLt
  have hb1 := bit_lt c
  have hb2 := bit_lt m
  have hb3 := d.isLt
  have hb4 := a.isLt
  rw [decodeBits_word h0 hm]
  rw [decode32.eq_1, h1]
  show (decodeV23 W : Except Reject Instr) = _
  rw [decodeV23.eq_1, h11, h10]
  show (src W fun b => .vsubb (lo8 W 27) (flag W 26) (flag W 25) (xr W 8) (xr W 13) b : Except Reject Instr) = _
  simp only [h1, h2, h3, h5, h7, h8, h9, h10, h11, src, bit_beq, xr, lo8, lane, bv, flag, zero, Except.bind, ofNat_val, ofNat_toNat, if_true, if_false, Nat.reduceBEq, Bool.false_eq_true, true_and, and_true, and_self, or_self, not_false_eq_true, ne_eq, Nat.reduceLT, Nat.reduceLeDiff, Nat.reduceEqDiff, bit_zero, bit_one]
theorem decodeBits_ofVsubb_vs (q : MReg) (c : Bool) (m : Bool) (d : VReg) (a : VReg) (r : SReg) {W : Nat} (hm : W < 2 ^ 32) (h0 : fld W 0 2 = 1) (h1 : fld W 2 6 = 35) (h2 : fld W 8 5 = d.val) (h3 : fld W 13 5 = a.val) (h4 : fld W 18 2 = r.val) (h5 : fld W 18 5 = r.val) (h6 : fld W 20 3 = 0) (h7 : fld W 23 2 = 3) (h8 : fld W 25 1 = (bit m)) (h9 : fld W 26 1 = (bit c)) (h10 : fld W 27 3 = q.val) (h11 : fld W 30 2 = 1) : decodeBits W = .ok (.vsubb q c m d a (.vs r)) := by
  have hb0 := q.isLt
  have hb1 := bit_lt c
  have hb2 := bit_lt m
  have hb3 := d.isLt
  have hb4 := a.isLt
  rw [decodeBits_word h0 hm]
  rw [decode32.eq_1, h1]
  show (decodeV23 W : Except Reject Instr) = _
  rw [decodeV23.eq_1, h11, h10]
  show (src W fun b => .vsubb (lo8 W 27) (flag W 26) (flag W 25) (xr W 8) (xr W 13) b : Except Reject Instr) = _
  simp only [h1, h2, h3, h4, h5, h6, h7, h8, h9, h10, h11, src, bit_beq, xr, lo8, lane, bv, flag, zero, Except.bind, ofNat_val, ofNat_toNat, if_true, if_false, Nat.reduceBEq, Bool.false_eq_true, true_and, and_true, and_self, or_self, not_false_eq_true, ne_eq, Nat.reduceLT, Nat.reduceLeDiff, Nat.reduceEqDiff, bit_zero, bit_one]
theorem codes_encVsubb (q : MReg) (c : Bool) (m : Bool) (d : VReg) (a : VReg) (b : VSrc) : Codes (encVsubb q c m d a b) (.vsubb q c m d a b) := by
  have hb0 := q.isLt
  have hb1 := bit_lt c
  have hb2 := bit_lt m
  have hb3 := d.isLt
  have hb4 := a.isLt
  cases b with
  | vv r =>
    have hbr := r.isLt
    show Codes (4, fV (1 * 2 ^ 3 + q.val) (bit c) (bit m) 0 r.val a d 0x23) (.vsubb q c m d a (.vv r))
    have F := @fV_fields ((1 * 2 ^ 3 + q.val)) ((bit c)) ((bit m)) (0) (r.val) (a.val) (d.val) (0x23) (by omega) (by omega) (by omega) (by omega) (by omega) (by omega) (by omega) (by omega)
    obtain ⟨hm, f27_5, f26_1, f25_1, f23_2, f18_5, f13_5, f8_5, f2_6, f0_2⟩ := F
    exact .word hm f0_2 (decodeBits_ofVsubb_vv q c m d a r hm (f0_2.trans (by omega)) (f2_6.trans (by omega)) (f8_5.trans (by omega)) (f13_5.trans (by omega)) (f18_5.trans (by omega)) (f23_2.trans (by omega)) (f25_1.trans (by omega)) (f26_1.trans (by omega)) ((fld_sub (o := 0) (k := 3) f27_5 rfl (by decide)).trans (by omega)) ((fld_sub (o := 3) (k := 2) f27_5 rfl (by decide)).trans (by omega)))
  | vx r =>
    have hbr := r.isLt
    show Codes (4, fV (1 * 2 ^ 3 + q.val) (bit c) (bit m) 1 r.val a d 0x23) (.vsubb q c m d a (.vx r))
    have F := @fV_fields ((1 * 2 ^ 3 + q.val)) ((bit c)) ((bit m)) (1) (r.val) (a.val) (d.val) (0x23) (by omega) (by omega) (by omega) (by omega) (by omega) (by omega) (by omega) (by omega)
    obtain ⟨hm, f27_5, f26_1, f25_1, f23_2, f18_5, f13_5, f8_5, f2_6, f0_2⟩ := F
    exact .word hm f0_2 (decodeBits_ofVsubb_vx q c m d a r hm (f0_2.trans (by omega)) (f2_6.trans (by omega)) (f8_5.trans (by omega)) (f13_5.trans (by omega)) (f18_5.trans (by omega)) (f23_2.trans (by omega)) (f25_1.trans (by omega)) (f26_1.trans (by omega)) ((fld_sub (o := 0) (k := 3) f27_5 rfl (by decide)).trans (by omega)) ((fld_sub (o := 3) (k := 2) f27_5 rfl (by decide)).trans (by omega)))
  | vi r =>
    have hbr := r.isLt
    show Codes (4, fV (1 * 2 ^ 3 + q.val) (bit c) (bit m) 2 r.toNat a d 0x23) (.vsubb q c m d a (.vi r))
    have F := @fV_fields ((1 * 2 ^ 3 + q.val)) ((bit c)) ((bit m)) (2) (r.toNat) (a.val) (d.val) (0x23) (by omega) (by omega) (by omega) (by omega) (by omega) (by omega) (by omega) (by omega)
    obtain ⟨hm, f27_5, f26_1, f25_1, f23_2, f18_5, f13_5, f8_5, f2_6, f0_2⟩ := F
    exact .word hm f0_2 (decodeBits_ofVsubb_vi q c m d a r hm (f0_2.trans (by omega)) (f2_6.trans (by omega)) (f8_5.trans (by omega)) (f13_5.trans (by omega)) (f18_5.trans (by omega)) (f23_2.trans (by omega)) (f25_1.trans (by omega)) (f26_1.trans (by omega)) ((fld_sub (o := 0) (k := 3) f27_5 rfl (by decide)).trans (by omega)) ((fld_sub (o := 3) (k := 2) f27_5 rfl (by decide)).trans (by omega)))
  | vs r =>
    have hbr := r.isLt
    show Codes (4, fV (1 * 2 ^ 3 + q.val) (bit c) (bit m) 3 r.val a d 0x23) (.vsubb q c m d a (.vs r))
    have F := @fV_fields ((1 * 2 ^ 3 + q.val)) ((bit c)) ((bit m)) (3) (r.val) (a.val) (d.val) (0x23) (by omega) (by omega) (by omega) (by omega) (by omega) (by omega) (by omega) (by omega)
    obtain ⟨hm, f27_5, f26_1, f25_1, f23_2, f18_5, f13_5, f8_5, f2_6, f0_2⟩ := F
    exact .word hm f0_2 (decodeBits_ofVsubb_vs q c m d a r hm (f0_2.trans (by omega)) (f2_6.trans (by omega)) (f8_5.trans (by omega)) (f13_5.trans (by omega)) ((fld_sub (o := 0) (k := 2) f18_5 rfl (by decide)).trans (by omega)) (f18_5.trans (by omega)) ((fld_sub (o := 2) (k := 3) f18_5 rfl (by decide)).trans (by omega)) (f23_2.trans (by omega)) (f25_1.trans (by omega)) (f26_1.trans (by omega)) ((fld_sub (o := 0) (k := 3) f27_5 rfl (by decide)).trans (by omega)) ((fld_sub (o := 3) (k := 2) f27_5 rfl (by decide)).trans (by omega)))

theorem decodeBits_ofVmadw_vv (c : Bool) (m : Bool) (d : VReg) (a : VReg) (r : VReg) {W : Nat} (hm : W < 2 ^ 32) (h0 : fld W 0 2 = 1) (h1 : fld W 2 6 = 35) (h2 : fld W 8 5 = d.val) (h3 : fld W 13 5 = a.val) (h5 : fld W 18 5 = r.val) (h7 : fld W 23 2 = 0) (h8 : fld W 25 1 = (bit m)) (h9 : fld W 26 1 = (bit c)) (h10 : fld W 27 3 = 0) (h11 : fld W 30 2 = 2) : decodeBits W = .ok (.vmadw c m d a (.vv r)) := by
  have hb0 := bit_lt c
  have hb1 := bit_lt m
  have hb2 := d.isLt
  have hb3 := a.isLt
  rw [decodeBits_word h0 hm]
  rw [decode32.eq_1, h1]
  show (decodeV23 W : Except Reject Instr) = _
  rw [decodeV23.eq_1, h11, h10]
  show (src W fun b => .vmadw (flag W 26) (flag W 25) (xr W 8) (xr W 13) b : Except Reject Instr) = _
  simp only [h1, h2, h3, h5, h7, h8, h9, h10, h11, src, bit_beq, xr, lo8, lane, bv, flag, zero, Except.bind, ofNat_val, ofNat_toNat, if_true, if_false, Nat.reduceBEq, Bool.false_eq_true, true_and, and_true, and_self, or_self, not_false_eq_true, ne_eq, Nat.reduceLT, Nat.reduceLeDiff, Nat.reduceEqDiff, bit_zero, bit_one]
theorem decodeBits_ofVmadw_vx (c : Bool) (m : Bool) (d : VReg) (a : VReg) (r : XReg) {W : Nat} (hm : W < 2 ^ 32) (h0 : fld W 0 2 = 1) (h1 : fld W 2 6 = 35) (h2 : fld W 8 5 = d.val) (h3 : fld W 13 5 = a.val) (h5 : fld W 18 5 = r.val) (h7 : fld W 23 2 = 1) (h8 : fld W 25 1 = (bit m)) (h9 : fld W 26 1 = (bit c)) (h10 : fld W 27 3 = 0) (h11 : fld W 30 2 = 2) : decodeBits W = .ok (.vmadw c m d a (.vx r)) := by
  have hb0 := bit_lt c
  have hb1 := bit_lt m
  have hb2 := d.isLt
  have hb3 := a.isLt
  rw [decodeBits_word h0 hm]
  rw [decode32.eq_1, h1]
  show (decodeV23 W : Except Reject Instr) = _
  rw [decodeV23.eq_1, h11, h10]
  show (src W fun b => .vmadw (flag W 26) (flag W 25) (xr W 8) (xr W 13) b : Except Reject Instr) = _
  simp only [h1, h2, h3, h5, h7, h8, h9, h10, h11, src, bit_beq, xr, lo8, lane, bv, flag, zero, Except.bind, ofNat_val, ofNat_toNat, if_true, if_false, Nat.reduceBEq, Bool.false_eq_true, true_and, and_true, and_self, or_self, not_false_eq_true, ne_eq, Nat.reduceLT, Nat.reduceLeDiff, Nat.reduceEqDiff, bit_zero, bit_one]
theorem decodeBits_ofVmadw_vi (c : Bool) (m : Bool) (d : VReg) (a : VReg) (r : BitVec 5) {W : Nat} (hm : W < 2 ^ 32) (h0 : fld W 0 2 = 1) (h1 : fld W 2 6 = 35) (h2 : fld W 8 5 = d.val) (h3 : fld W 13 5 = a.val) (h5 : fld W 18 5 = r.toNat) (h7 : fld W 23 2 = 2) (h8 : fld W 25 1 = (bit m)) (h9 : fld W 26 1 = (bit c)) (h10 : fld W 27 3 = 0) (h11 : fld W 30 2 = 2) : decodeBits W = .ok (.vmadw c m d a (.vi r)) := by
  have hb0 := bit_lt c
  have hb1 := bit_lt m
  have hb2 := d.isLt
  have hb3 := a.isLt
  rw [decodeBits_word h0 hm]
  rw [decode32.eq_1, h1]
  show (decodeV23 W : Except Reject Instr) = _
  rw [decodeV23.eq_1, h11, h10]
  show (src W fun b => .vmadw (flag W 26) (flag W 25) (xr W 8) (xr W 13) b : Except Reject Instr) = _
  simp only [h1, h2, h3, h5, h7, h8, h9, h10, h11, src, bit_beq, xr, lo8, lane, bv, flag, zero, Except.bind, ofNat_val, ofNat_toNat, if_true, if_false, Nat.reduceBEq, Bool.false_eq_true, true_and, and_true, and_self, or_self, not_false_eq_true, ne_eq, Nat.reduceLT, Nat.reduceLeDiff, Nat.reduceEqDiff, bit_zero, bit_one]
theorem decodeBits_ofVmadw_vs (c : Bool) (m : Bool) (d : VReg) (a : VReg) (r : SReg) {W : Nat} (hm : W < 2 ^ 32) (h0 : fld W 0 2 = 1) (h1 : fld W 2 6 = 35) (h2 : fld W 8 5 = d.val) (h3 : fld W 13 5 = a.val) (h4 : fld W 18 2 = r.val) (h5 : fld W 18 5 = r.val) (h6 : fld W 20 3 = 0) (h7 : fld W 23 2 = 3) (h8 : fld W 25 1 = (bit m)) (h9 : fld W 26 1 = (bit c)) (h10 : fld W 27 3 = 0) (h11 : fld W 30 2 = 2) : decodeBits W = .ok (.vmadw c m d a (.vs r)) := by
  have hb0 := bit_lt c
  have hb1 := bit_lt m
  have hb2 := d.isLt
  have hb3 := a.isLt
  rw [decodeBits_word h0 hm]
  rw [decode32.eq_1, h1]
  show (decodeV23 W : Except Reject Instr) = _
  rw [decodeV23.eq_1, h11, h10]
  show (src W fun b => .vmadw (flag W 26) (flag W 25) (xr W 8) (xr W 13) b : Except Reject Instr) = _
  simp only [h1, h2, h3, h4, h5, h6, h7, h8, h9, h10, h11, src, bit_beq, xr, lo8, lane, bv, flag, zero, Except.bind, ofNat_val, ofNat_toNat, if_true, if_false, Nat.reduceBEq, Bool.false_eq_true, true_and, and_true, and_self, or_self, not_false_eq_true, ne_eq, Nat.reduceLT, Nat.reduceLeDiff, Nat.reduceEqDiff, bit_zero, bit_one]
theorem codes_encVmadw (c : Bool) (m : Bool) (d : VReg) (a : VReg) (b : VSrc) : Codes (encVmadw c m d a b) (.vmadw c m d a b) := by
  have hb0 := bit_lt c
  have hb1 := bit_lt m
  have hb2 := d.isLt
  have hb3 := a.isLt
  cases b with
  | vv r =>
    have hbr := r.isLt
    show Codes (4, fV 16 (bit c) (bit m) 0 r.val a d 0x23) (.vmadw c m d a (.vv r))
    have F := @fV_fields (16) ((bit c)) ((bit m)) (0) (r.val) (a.val) (d.val) (0x23) (by omega) (by omega) (by omega) (by omega) (by omega) (by omega) (by omega) (by omega)
    obtain ⟨hm, f27_5, f26_1, f25_1, f23_2, f18_5, f13_5, f8_5, f2_6, f0_2⟩ := F
    exact .word hm f0_2 (decodeBits_ofVmadw_vv c m d a r hm (f0_2.trans (by omega)) (f2_6.trans (by omega)) (f8_5.trans (by omega)) (f13_5.trans (by omega)) (f18_5.trans (by omega)) (f23_2.trans (by omega)) (f25_1.trans (by omega)) (f26_1.trans (by omega)) ((fld_sub (o := 0) (k := 3) f27_5 rfl (by decide)).trans (by omega)) ((fld_sub (o := 3) (k := 2) f27_5 rfl (by decide)).trans (by omega)))
  | vx r =>
    have hbr := r.isLt
    show Codes (4, fV 16 (bit c) (bit m) 1 r.val a d 0x23) (.vmadw c m d a (.vx r))
    have F := @fV_fields (16) ((bit c)) ((bit m)) (1) (r.val) (a.val) (d.val) (0x23) (by omega) (by omega) (by omega) (by omega) (by omega) (by omega) (by omega) (by omega)
    obtain ⟨hm, f27_5, f26_1, f25_1, f23_2, f18_5, f13_5, f8_5, f2_6, f0_2⟩ := F
    exact .word hm f0_2 (decodeBits_ofVmadw_vx c m d a r hm (f0_2.trans (by omega)) (f2_6.trans (by omega)) (f8_5.trans (by omega)) (f13_5.trans (by omega)) (f18_5.trans (by omega)) (f23_2.trans (by omega)) (f25_1.trans (by omega)) (f26_1.trans (by omega)) ((fld_sub (o := 0) (k := 3) f27_5 rfl (by decide)).trans (by omega)) ((fld_sub (o := 3) (k := 2) f27_5 rfl (by decide)).trans (by omega)))
  | vi r =>
    have hbr := r.isLt
    show Codes (4, fV 16 (bit c) (bit m) 2 r.toNat a d 0x23) (.vmadw c m d a (.vi r))
    have F := @fV_fields (16) ((bit c)) ((bit m)) (2) (r.toNat) (a.val) (d.val) (0x23) (by omega) (by omega) (by omega) (by omega) (by omega) (by omega) (by omega) (by omega)
    obtain ⟨hm, f27_5, f26_1, f25_1, f23_2, f18_5, f13_5, f8_5, f2_6, f0_2⟩ := F
    exact .word hm f0_2 (decodeBits_ofVmadw_vi c m d a r hm (f0_2.trans (by omega)) (f2_6.trans (by omega)) (f8_5.trans (by omega)) (f13_5.trans (by omega)) (f18_5.trans (by omega)) (f23_2.trans (by omega)) (f25_1.trans (by omega)) (f26_1.trans (by omega)) ((fld_sub (o := 0) (k := 3) f27_5 rfl (by decide)).trans (by omega)) ((fld_sub (o := 3) (k := 2) f27_5 rfl (by decide)).trans (by omega)))
  | vs r =>
    have hbr := r.isLt
    show Codes (4, fV 16 (bit c) (bit m) 3 r.val a d 0x23) (.vmadw c m d a (.vs r))
    have F := @fV_fields (16) ((bit c)) ((bit m)) (3) (r.val) (a.val) (d.val) (0x23) (by omega) (by omega) (by omega) (by omega) (by omega) (by omega) (by omega) (by omega)
    obtain ⟨hm, f27_5, f26_1, f25_1, f23_2, f18_5, f13_5, f8_5, f2_6, f0_2⟩ := F
    exact .word hm f0_2 (decodeBits_ofVmadw_vs c m d a r hm (f0_2.trans (by omega)) (f2_6.trans (by omega)) (f8_5.trans (by omega)) (f13_5.trans (by omega)) ((fld_sub (o := 0) (k := 2) f18_5 rfl (by decide)).trans (by omega)) (f18_5.trans (by omega)) ((fld_sub (o := 2) (k := 3) f18_5 rfl (by decide)).trans (by omega)) (f23_2.trans (by omega)) (f25_1.trans (by omega)) (f26_1.trans (by omega)) ((fld_sub (o := 0) (k := 3) f27_5 rfl (by decide)).trans (by omega)) ((fld_sub (o := 3) (k := 2) f27_5 rfl (by decide)).trans (by omega)))

theorem decodeBits_ofVnshr_vv (c : Bool) (m : Bool) (d : VReg) (a : VReg) (r : VReg) {W : Nat} (hm : W < 2 ^ 32) (h0 : fld W 0 2 = 1) (h1 : fld W 2 6 = 35) (h2 : fld W 8 5 = d.val) (h3 : fld W 13 5 = a.val) (h5 : fld W 18 5 = r.val) (h7 : fld W 23 2 = 0) (h8 : fld W 25 1 = (bit m)) (h9 : fld W 26 1 = (bit c)) (h10 : fld W 27 3 = 1) (h11 : fld W 30 2 = 2) : decodeBits W = .ok (.vnshr c m d a (.vv r)) := by
  have hb0 := bit_lt c
  have hb1 := bit_lt m
  have hb2 := d.isLt
  have hb3 := a.isLt
  rw [decodeBits_word h0 hm]
  rw [decode32.eq_1, h1]
  show (decodeV23 W : Except Reject Instr) = _
  rw [decodeV23.eq_1, h11, h10]
  show (src W fun b => .vnshr (flag W 26) (flag W 25) (xr W 8) (xr W 13) b : Except Reject Instr) = _
  simp only [h1, h2, h3, h5, h7, h8, h9, h10, h11, src, bit_beq, xr, lo8, lane, bv, flag, zero, Except.bind, ofNat_val, ofNat_toNat, if_true, if_false, Nat.reduceBEq, Bool.false_eq_true, true_and, and_true, and_self, or_self, not_false_eq_true, ne_eq, Nat.reduceLT, Nat.reduceLeDiff, Nat.reduceEqDiff, bit_zero, bit_one]
theorem decodeBits_ofVnshr_vx (c : Bool) (m : Bool) (d : VReg) (a : VReg) (r : XReg) {W : Nat} (hm : W < 2 ^ 32) (h0 : fld W 0 2 = 1) (h1 : fld W 2 6 = 35) (h2 : fld W 8 5 = d.val) (h3 : fld W 13 5 = a.val) (h5 : fld W 18 5 = r.val) (h7 : fld W 23 2 = 1) (h8 : fld W 25 1 = (bit m)) (h9 : fld W 26 1 = (bit c)) (h10 : fld W 27 3 = 1) (h11 : fld W 30 2 = 2) : decodeBits W = .ok (.vnshr c m d a (.vx r)) := by
  have hb0 := bit_lt c
  have hb1 := bit_lt m
  have hb2 := d.isLt
  have hb3 := a.isLt
  rw [decodeBits_word h0 hm]
  rw [decode32.eq_1, h1]
  show (decodeV23 W : Except Reject Instr) = _
  rw [decodeV23.eq_1, h11, h10]
  show (src W fun b => .vnshr (flag W 26) (flag W 25) (xr W 8) (xr W 13) b : Except Reject Instr) = _
  simp only [h1, h2, h3, h5, h7, h8, h9, h10, h11, src, bit_beq, xr, lo8, lane, bv, flag, zero, Except.bind, ofNat_val, ofNat_toNat, if_true, if_false, Nat.reduceBEq, Bool.false_eq_true, true_and, and_true, and_self, or_self, not_false_eq_true, ne_eq, Nat.reduceLT, Nat.reduceLeDiff, Nat.reduceEqDiff, bit_zero, bit_one]
theorem decodeBits_ofVnshr_vi (c : Bool) (m : Bool) (d : VReg) (a : VReg) (r : BitVec 5) {W : Nat} (hm : W < 2 ^ 32) (h0 : fld W 0 2 = 1) (h1 : fld W 2 6 = 35) (h2 : fld W 8 5 = d.val) (h3 : fld W 13 5 = a.val) (h5 : fld W 18 5 = r.toNat) (h7 : fld W 23 2 = 2) (h8 : fld W 25 1 = (bit m)) (h9 : fld W 26 1 = (bit c)) (h10 : fld W 27 3 = 1) (h11 : fld W 30 2 = 2) : decodeBits W = .ok (.vnshr c m d a (.vi r)) := by
  have hb0 := bit_lt c
  have hb1 := bit_lt m
  have hb2 := d.isLt
  have hb3 := a.isLt
  rw [decodeBits_word h0 hm]
  rw [decode32.eq_1, h1]
  show (decodeV23 W : Except Reject Instr) = _
  rw [decodeV23.eq_1, h11, h10]
  show (src W fun b => .vnshr (flag W 26) (flag W 25) (xr W 8) (xr W 13) b : Except Reject Instr) = _
  simp only [h1, h2, h3, h5, h7, h8, h9, h10, h11, src, bit_beq, xr, lo8, lane, bv, flag, zero, Except.bind, ofNat_val, ofNat_toNat, if_true, if_false, Nat.reduceBEq, Bool.false_eq_true, true_and, and_true, and_self, or_self, not_false_eq_true, ne_eq, Nat.reduceLT, Nat.reduceLeDiff, Nat.reduceEqDiff, bit_zero, bit_one]
theorem decodeBits_ofVnshr_vs (c : Bool) (m : Bool) (d : VReg) (a : VReg) (r : SReg) {W : Nat} (hm : W < 2 ^ 32) (h0 : fld W 0 2 = 1) (h1 : fld W 2 6 = 35) (h2 : fld W 8 5 = d.val) (h3 : fld W 13 5 = a.val) (h4 : fld W 18 2 = r.val) (h5 : fld W 18 5 = r.val) (h6 : fld W 20 3 = 0) (h7 : fld W 23 2 = 3) (h8 : fld W 25 1 = (bit m)) (h9 : fld W 26 1 = (bit c)) (h10 : fld W 27 3 = 1) (h11 : fld W 30 2 = 2) : decodeBits W = .ok (.vnshr c m d a (.vs r)) := by
  have hb0 := bit_lt c
  have hb1 := bit_lt m
  have hb2 := d.isLt
  have hb3 := a.isLt
  rw [decodeBits_word h0 hm]
  rw [decode32.eq_1, h1]
  show (decodeV23 W : Except Reject Instr) = _
  rw [decodeV23.eq_1, h11, h10]
  show (src W fun b => .vnshr (flag W 26) (flag W 25) (xr W 8) (xr W 13) b : Except Reject Instr) = _
  simp only [h1, h2, h3, h4, h5, h6, h7, h8, h9, h10, h11, src, bit_beq, xr, lo8, lane, bv, flag, zero, Except.bind, ofNat_val, ofNat_toNat, if_true, if_false, Nat.reduceBEq, Bool.false_eq_true, true_and, and_true, and_self, or_self, not_false_eq_true, ne_eq, Nat.reduceLT, Nat.reduceLeDiff, Nat.reduceEqDiff, bit_zero, bit_one]
theorem codes_encVnshr (c : Bool) (m : Bool) (d : VReg) (a : VReg) (b : VSrc) : Codes (encVnshr c m d a b) (.vnshr c m d a b) := by
  have hb0 := bit_lt c
  have hb1 := bit_lt m
  have hb2 := d.isLt
  have hb3 := a.isLt
  cases b with
  | vv r =>
    have hbr := r.isLt
    show Codes (4, fV 17 (bit c) (bit m) 0 r.val a d 0x23) (.vnshr c m d a (.vv r))
    have F := @fV_fields (17) ((bit c)) ((bit m)) (0) (r.val) (a.val) (d.val) (0x23) (by omega) (by omega) (by omega) (by omega) (by omega) (by omega) (by omega) (by omega)
    obtain ⟨hm, f27_5, f26_1, f25_1, f23_2, f18_5, f13_5, f8_5, f2_6, f0_2⟩ := F
    exact .word hm f0_2 (decodeBits_ofVnshr_vv c m d a r hm (f0_2.trans (by omega)) (f2_6.trans (by omega)) (f8_5.trans (by omega)) (f13_5.trans (by omega)) (f18_5.trans (by omega)) (f23_2.trans (by omega)) (f25_1.trans (by omega)) (f26_1.trans (by omega)) ((fld_sub (o := 0) (k := 3) f27_5 rfl (by decide)).trans (by omega)) ((fld_sub (o := 3) (k := 2) f27_5 rfl (by decide)).trans (by omega)))
  | vx r =>
    have hbr := r.isLt
    show Codes (4, fV 17 (bit c) (bit m) 1 r.val a d 0x23) (.vnshr c m d a (.vx r))
    have F := @fV_fields (17) ((bit c)) ((bit m)) (1) (r.val) (a.val) (d.val) (0x23) (by omega) (by omega) (by omega) (by omega) (by omega) (by omega) (by omega) (by omega)
    obtain ⟨hm, f27_5, f26_1, f25_1, f23_2, f18_5, f13_5, f8_5, f2_6, f0_2⟩ := F
    exact .word hm f0_2 (decodeBits_ofVnshr_vx c m d a r hm (f0_2.trans (by omega)) (f2_6.trans (by omega)) (f8_5.trans (by omega)) (f13_5.trans (by omega)) (f18_5.trans (by omega)) (f23_2.trans (by omega)) (f25_1.trans (by omega)) (f26_1.trans (by omega)) ((fld_sub (o := 0) (k := 3) f27_5 rfl (by decide)).trans (by omega)) ((fld_sub (o := 3) (k := 2) f27_5 rfl (by decide)).trans (by omega)))
  | vi r =>
    have hbr := r.isLt
    show Codes (4, fV 17 (bit c) (bit m) 2 r.toNat a d 0x23) (.vnshr c m d a (.vi r))
    have F := @fV_fields (17) ((bit c)) ((bit m)) (2) (r.toNat) (a.val) (d.val) (0x23) (by omega) (by omega) (by omega) (by omega) (by omega) (by omega) (by omega) (by omega)
    obtain ⟨hm, f27_5, f26_1, f25_1, f23_2, f18_5, f13_5, f8_5, f2_6, f0_2⟩ := F
    exact .word hm f0_2 (decodeBits_ofVnshr_vi c m d a r hm (f0_2.trans (by omega)) (f2_6.trans (by omega)) (f8_5.trans (by omega)) (f13_5.trans (by omega)) (f18_5.trans (by omega)) (f23_2.trans (by omega)) (f25_1.trans (by omega)) (f26_1.trans (by omega)) ((fld_sub (o := 0) (k := 3) f27_5 rfl (by decide)).trans (by omega)) ((fld_sub (o := 3) (k := 2) f27_5 rfl (by decide)).trans (by omega)))
  | vs r =>
    have hbr := r.isLt
    show Codes (4, fV 17 (bit c) (bit m) 3 r.val a d 0x23) (.vnshr c m d a (.vs r))
    have F := @fV_fields (17) ((bit c)) ((bit m)) (3) (r.val) (a.val) (d.val) (0x23) (by omega) (by omega) (by omega) (by omega) (by omega) (by omega) (by omega) (by omega)
    obtain ⟨hm, f27_5, f26_1, f25_1, f23_2, f18_5, f13_5, f8_5, f2_6, f0_2⟩ := F
    exact .word hm f0_2 (decodeBits_ofVnshr_vs c m d a r hm (f0_2.trans (by omega)) (f2_6.trans (by omega)) (f8_5.trans (by omega)) (f13_5.trans (by omega)) ((fld_sub (o := 0) (k := 2) f18_5 rfl (by decide)).trans (by omega)) (f18_5.trans (by omega)) ((fld_sub (o := 2) (k := 3) f18_5 rfl (by decide)).trans (by omega)) (f23_2.trans (by omega)) (f25_1.trans (by omega)) (f26_1.trans (by omega)) ((fld_sub (o := 0) (k := 3) f27_5 rfl (by decide)).trans (by omega)) ((fld_sub (o := 3) (k := 2) f27_5 rfl (by decide)).trans (by omega)))

theorem decodeBits_ofVsadd_vv (c : Bool) (m : Bool) (d : VReg) (a : VReg) (r : VReg) {W : Nat} (hm : W < 2 ^ 32) (h0 : fld W 0 2 = 1) (h1 : fld W 2 6 = 35) (h2 : fld W 8 5 = d.val) (h3 : fld W 13 5 = a.val) (h5 : fld W 18 5 = r.val) (h7 : fld W 23 2 = 0) (h8 : fld W 25 1 = (bit m)) (h9 : fld W 26 1 = (bit c)) (h10 : fld W 27 3 = 2) (h11 : fld W 30 2 = 2) : decodeBits W = .ok (.vsadd c m d a (.vv r)) := by
  have hb0 := bit_lt c
  have hb1 := bit_lt m
  have hb2 := d.isLt
  have hb3 := a.isLt
  rw [decodeBits_word h0 hm]
  rw [decode32.eq_1, h1]
  show (decodeV23 W : Except Reject Instr) = _
  rw [decodeV23.eq_1, h11, h10]
  show (src W fun b => .vsadd (flag W 26) (flag W 25) (xr W 8) (xr W 13) b : Except Reject Instr) = _
  simp only [h1, h2, h3, h5, h7, h8, h9, h10, h11, src, bit_beq, xr, lo8, lane, bv, flag, zero, Except.bind, ofNat_val, ofNat_toNat, if_true, if_false, Nat.reduceBEq, Bool.false_eq_true, true_and, and_true, and_self, or_self, not_false_eq_true, ne_eq, Nat.reduceLT, Nat.reduceLeDiff, Nat.reduceEqDiff, bit_zero, bit_one]
theorem decodeBits_ofVsadd_vx (c : Bool) (m : Bool) (d : VReg) (a : VReg) (r : XReg) {W : Nat} (hm : W < 2 ^ 32) (h0 : fld W 0 2 = 1) (h1 : fld W 2 6 = 35) (h2 : fld W 8 5 = d.val) (h3 : fld W 13 5 = a.val) (h5 : fld W 18 5 = r.val) (h7 : fld W 23 2 = 1) (h8 : fld W 25 1 = (bit m)) (h9 : fld W 26 1 = (bit c)) (h10 : fld W 27 3 = 2) (h11 : fld W 30 2 = 2) : decodeBits W = .ok (.vsadd c m d a (.vx r)) := by
  have hb0 := bit_lt c
  have hb1 := bit_lt m
  have hb2 := d.isLt
  have hb3 := a.isLt
  rw [decodeBits_word h0 hm]
  rw [decode32.eq_1, h1]
  show (decodeV23 W : Except Reject Instr) = _
  rw [decodeV23.eq_1, h11, h10]
  show (src W fun b => .vsadd (flag W 26) (flag W 25) (xr W 8) (xr W 13) b : Except Reject Instr) = _
  simp only [h1, h2, h3, h5, h7, h8, h9, h10, h11, src, bit_beq, xr, lo8, lane, bv, flag, zero, Except.bind, ofNat_val, ofNat_toNat, if_true, if_false, Nat.reduceBEq, Bool.false_eq_true, true_and, and_true, and_self, or_self, not_false_eq_true, ne_eq, Nat.reduceLT, Nat.reduceLeDiff, Nat.reduceEqDiff, bit_zero, bit_one]
theorem decodeBits_ofVsadd_vi (c : Bool) (m : Bool) (d : VReg) (a : VReg) (r : BitVec 5) {W : Nat} (hm : W < 2 ^ 32) (h0 : fld W 0 2 = 1) (h1 : fld W 2 6 = 35) (h2 : fld W 8 5 = d.val) (h3 : fld W 13 5 = a.val) (h5 : fld W 18 5 = r.toNat) (h7 : fld W 23 2 = 2) (h8 : fld W 25 1 = (bit m)) (h9 : fld W 26 1 = (bit c)) (h10 : fld W 27 3 = 2) (h11 : fld W 30 2 = 2) : decodeBits W = .ok (.vsadd c m d a (.vi r)) := by
  have hb0 := bit_lt c
  have hb1 := bit_lt m
  have hb2 := d.isLt
  have hb3 := a.isLt
  rw [decodeBits_word h0 hm]
  rw [decode32.eq_1, h1]
  show (decodeV23 W : Except Reject Instr) = _
  rw [decodeV23.eq_1, h11, h10]
  show (src W fun b => .vsadd (flag W 26) (flag W 25) (xr W 8) (xr W 13) b : Except Reject Instr) = _
  simp only [h1, h2, h3, h5, h7, h8, h9, h10, h11, src, bit_beq, xr, lo8, lane, bv, flag, zero, Except.bind, ofNat_val, ofNat_toNat, if_true, if_false, Nat.reduceBEq, Bool.false_eq_true, true_and, and_true, and_self, or_self, not_false_eq_true, ne_eq, Nat.reduceLT, Nat.reduceLeDiff, Nat.reduceEqDiff, bit_zero, bit_one]
theorem decodeBits_ofVsadd_vs (c : Bool) (m : Bool) (d : VReg) (a : VReg) (r : SReg) {W : Nat} (hm : W < 2 ^ 32) (h0 : fld W 0 2 = 1) (h1 : fld W 2 6 = 35) (h2 : fld W 8 5 = d.val) (h3 : fld W 13 5 = a.val) (h4 : fld W 18 2 = r.val) (h5 : fld W 18 5 = r.val) (h6 : fld W 20 3 = 0) (h7 : fld W 23 2 = 3) (h8 : fld W 25 1 = (bit m)) (h9 : fld W 26 1 = (bit c)) (h10 : fld W 27 3 = 2) (h11 : fld W 30 2 = 2) : decodeBits W = .ok (.vsadd c m d a (.vs r)) := by
  have hb0 := bit_lt c
  have hb1 := bit_lt m
  have hb2 := d.isLt
  have hb3 := a.isLt
  rw [decodeBits_word h0 hm]
  rw [decode32.eq_1, h1]
  show (decodeV23 W : Except Reject Instr) = _
  rw [decodeV23.eq_1, h11, h10]
  show (src W fun b => .vsadd (flag W 26) (flag W 25) (xr W 8) (xr W 13) b : Except Reject Instr) = _
  simp only [h1, h2, h3, h4, h5, h6, h7, h8, h9, h10, h11, src, bit_beq, xr, lo8, lane, bv, flag, zero, Except.bind, ofNat_val, ofNat_toNat, if_true, if_false, Nat.reduceBEq, Bool.false_eq_true, true_and, and_true, and_self, or_self, not_false_eq_true, ne_eq, Nat.reduceLT, Nat.reduceLeDiff, Nat.reduceEqDiff, bit_zero, bit_one]
theorem codes_encVsadd (c : Bool) (m : Bool) (d : VReg) (a : VReg) (b : VSrc) : Codes (encVsadd c m d a b) (.vsadd c m d a b) := by
  have hb0 := bit_lt c
  have hb1 := bit_lt m
  have hb2 := d.isLt
  have hb3 := a.isLt
  cases b with
  | vv r =>
    have hbr := r.isLt
    show Codes (4, fV 18 (bit c) (bit m) 0 r.val a d 0x23) (.vsadd c m d a (.vv r))
    have F := @fV_fields (18) ((bit c)) ((bit m)) (0) (r.val) (a.val) (d.val) (0x23) (by omega) (by omega) (by omega) (by omega) (by omega) (by omega) (by omega) (by omega)
    obtain ⟨hm, f27_5, f26_1, f25_1, f23_2, f18_5, f13_5, f8_5, f2_6, f0_2⟩ := F
    exact .word hm f0_2 (decodeBits_ofVsadd_vv c m d a r hm (f0_2.trans (by omega)) (f2_6.trans (by omega)) (f8_5.trans (by omega)) (f13_5.trans (by omega)) (f18_5.trans (by omega)) (f23_2.trans (by omega)) (f25_1.trans (by omega)) (f26_1.trans (by omega)) ((fld_sub (o := 0) (k := 3) f27_5 rfl (by decide)).trans (by omega)) ((fld_sub (o := 3) (k := 2) f27_5 rfl (by decide)).trans (by omega)))
  | vx r =>
    have hbr := r.isLt
    show Codes (4, fV 18 (bit c) (bit m) 1 r.val a d 0x23) (.vsadd c m d a (.vx r))
    have F := @fV_fields (18) ((bit c)) ((bit m)) (1) (r.val) (a.val) (d.val) (0x23) (by omega) (by omega) (by omega) (by omega) (by omega) (by omega) (by omega) (by omega)
    obtain ⟨hm, f27_5, f26_1, f25_1, f23_2, f18_5, f13_5, f8_5, f2_6, f0_2⟩ := F
    exact .word hm f0_2 (decodeBits_ofVsadd_vx c m d a r hm (f0_2.trans (by omega)) (f2_6.trans (by omega)) (f8_5.trans (by omega)) (f13_5.trans (by omega)) (f18_5.trans (by omega)) (f23_2.trans (by omega)) (f25_1.trans (by omega)) (f26_1.trans (by omega)) ((fld_sub (o := 0) (k := 3) f27_5 rfl (by decide)).trans (by omega)) ((fld_sub (o := 3) (k := 2) f27_5 rfl (by decide)).trans (by omega)))
  | vi r =>
    have hbr := r.isLt
    show Codes (4, fV 18 (bit c) (bit m) 2 r.toNat a d 0x23) (.vsadd c m d a (.vi r))
    have F := @fV_fields (18) ((bit c)) ((bit m)) (2) (r.toNat) (a.val) (d.val) (0x23) (by omega) (by omega) (by omega) (by omega) (by omega) (by omega) (by omega) (by omega)
    obtain ⟨hm, f27_5, f26_1, f25_1, f23_2, f18_5, f13_5, f8_5, f2_6, f0_2⟩ := F
    exact .word hm f0_2 (decodeBits_ofVsadd_vi c m d a r hm (f0_2.trans (by omega)) (f2_6.trans (by omega)) (f8_5.trans (by omega)) (f13_5.trans (by omega)) (f18_5.trans (by omega)) (f23_2.trans (by omega)) (f25_1.trans (by omega)) (f26_1.trans (by omega)) ((fld_sub (o := 0) (k := 3) f27_5 rfl (by decide)).trans (by omega)) ((fld_sub (o := 3) (k := 2) f27_5 rfl (by decide)).trans (by omega)))
  | vs r =>
    have hbr := r.isLt
    show Codes (4, fV 18 (bit c) (bit m) 3 r.val a d 0x23) (.vsadd c m d a (.vs r))
    have F := @fV_fields (18) ((bit c)) ((bit m)) (3) (r.val) (a.val) (d.val) (0x23) (by omega) (by omega) (by omega) (by omega) (by omega) (by omega) (by omega) (by omega)
    obtain ⟨hm, f27_5, f26_1, f25_1, f23_2, f18_5, f13_5, f8_5, f2_6, f0_2⟩ := F
    exact .word hm f0_2 (decodeBits_ofVsadd_vs c m d a r hm (f0_2.trans (by omega)) (f2_6.trans (by omega)) (f8_5.trans (by omega)) (f13_5.trans (by omega)) ((fld_sub (o := 0) (k := 2) f18_5 rfl (by decide)).trans (by omega)) (f18_5.trans (by omega)) ((fld_sub (o := 2) (k := 3) f18_5 rfl (by decide)).trans (by omega)) (f23_2.trans (by omega)) (f25_1.trans (by omega)) (f26_1.trans (by omega)) ((fld_sub (o := 0) (k := 3) f27_5 rfl (by decide)).trans (by omega)) ((fld_sub (o := 3) (k := 2) f27_5 rfl (by decide)).trans (by omega)))

theorem decodeBits_ofVssub_vv (c : Bool) (m : Bool) (d : VReg) (a : VReg) (r : VReg) {W : Nat} (hm : W < 2 ^ 32) (h0 : fld W 0 2 = 1) (h1 : fld W 2 6 = 35) (h2 : fld W 8 5 = d.val) (h3 : fld W 13 5 = a.val) (h5 : fld W 18 5 = r.val) (h7 : fld W 23 2 = 0) (h8 : fld W 25 1 = (bit m)) (h9 : fld W 26 1 = (bit c)) (h10 : fld W 27 3 = 3) (h11 : fld W 30 2 = 2) : decodeBits W = .ok (.vssub c m d a (.vv r)) := by
  have hb0 := bit_lt c
  have hb1 := bit_lt m
  have hb2 := d.isLt
  have hb3 := a.isLt
  rw [decodeBits_word h0 hm]
  rw [decode32.eq_1, h1]
  show (decodeV23 W : Except Reject Instr) = _
  rw [decodeV23.eq_1, h11, h10]
  show (src W fun b => .vssub (flag W 26) (flag W 25) (xr W 8) (xr W 13) b : Except Reject Instr) = _
  simp only [h1, h2, h3, h5, h7, h8, h9, h10, h11, src, bit_beq, xr, lo8, lane, bv, flag, zero, Except.bind, ofNat_val, ofNat_toNat, if_true, if_false, Nat.reduceBEq, Bool.false_eq_true, true_and, and_true, and_self, or_self, not_false_eq_true, ne_eq, Nat.reduceLT, Nat.reduceLeDiff, Nat.reduceEqDiff, bit_zero, bit_one]
theorem decodeBits_ofVssub_vx (c : Bool) (m : Bool) (d : VReg) (a : VReg) (r : XReg) {W : Nat} (hm : W < 2 ^ 32) (h0 : fld W 0 2 = 1) (h1 : fld W 2 6 = 35) (h2 : fld W 8 5 = d.val) (h3 : fld W 13 5 = a.val) (h5 : fld W 18 5 = r.val) (h7 : fld W 23 2 = 1) (h8 : fld W 25 1 = (bit m)) (h9 : fld W 26 1 = (bit c)) (h10 : fld W 27 3 = 3) (h11 : fld W 30 2 = 2) : decodeBits W = .ok (.vssub c m d a (.vx r)) := by
  have hb0 := bit_lt c
  have hb1 := bit_lt m
  have hb2 := d.isLt
  have hb3 := a.isLt
  rw [decodeBits_word h0 hm]
  rw [decode32.eq_1, h1]
  show (decodeV23 W : Except Reject Instr) = _
  rw [decodeV23.eq_1, h11, h10]
  show (src W fun b => .vssub (flag W 26) (flag W 25) (xr W 8) (xr W 13) b : Except Reject Instr) = _
  simp only [h1, h2, h3, h5, h7, h8, h9, h10, h11, src, bit_beq, xr, lo8, lane, bv, flag, zero, Except.bind, ofNat_val, ofNat_toNat, if_true, if_false, Nat.reduceBEq, Bool.false_eq_true, true_and, and_true, and_self, or_self, not_false_eq_true, ne_eq, Nat.reduceLT, Nat.reduceLeDiff, Nat.reduceEqDiff, bit_zero, bit_one]
theorem decodeBits_ofVssub_vi (c : Bool) (m : Bool) (d : VReg) (a : VReg) (r : BitVec 5) {W : Nat} (hm : W < 2 ^ 32) (h0 : fld W 0 2 = 1) (h1 : fld W 2 6 = 35) (h2 : fld W 8 5 = d.val) (h3 : fld W 13 5 = a.val) (h5 : fld W 18 5 = r.toNat) (h7 : fld W 23 2 = 2) (h8 : fld W 25 1 = (bit m)) (h9 : fld W 26 1 = (bit c)) (h10 : fld W 27 3 = 3) (h11 : fld W 30 2 = 2) : decodeBits W = .ok (.vssub c m d a (.vi r)) := by
  have hb0 := bit_lt c
  have hb1 := bit_lt m
  have hb2 := d.isLt
  have hb3 := a.isLt
  rw [decodeBits_word h0 hm]
  rw [decode32.eq_1, h1]
  show (decodeV23 W : Except Reject Instr) = _
  rw [decodeV23.eq_1, h11, h10]
  show (src W fun b => .vssub (flag W 26) (flag W 25) (xr W 8) (xr W 13) b : Except Reject Instr) = _
  simp only [h1, h2, h3, h5, h7, h8, h9, h10, h11, src, bit_beq, xr, lo8, lane, bv, flag, zero, Except.bind, ofNat_val, ofNat_toNat, if_true, if_false, Nat.reduceBEq, Bool.false_eq_true, true_and, and_true, and_self, or_self, not_false_eq_true, ne_eq, Nat.reduceLT, Nat.reduceLeDiff, Nat.reduceEqDiff, bit_zero, bit_one]
theorem decodeBits_ofVssub_vs (c : Bool) (m : Bool) (d : VReg) (a : VReg) (r : SReg) {W : Nat} (hm : W < 2 ^ 32) (h0 : fld W 0 2 = 1) (h1 : fld W 2 6 = 35) (h2 : fld W 8 5 = d.val) (h3 : fld W 13 5 = a.val) (h4 : fld W 18 2 = r.val) (h5 : fld W 18 5 = r.val) (h6 : fld W 20 3 = 0) (h7 : fld W 23 2 = 3) (h8 : fld W 25 1 = (bit m)) (h9 : fld W 26 1 = (bit c)) (h10 : fld W 27 3 = 3) (h11 : fld W 30 2 = 2) : decodeBits W = .ok (.vssub c m d a (.vs r)) := by
  have hb0 := bit_lt c
  have hb1 := bit_lt m
  have hb2 := d.isLt
  have hb3 := a.isLt
  rw [decodeBits_word h0 hm]
  rw [decode32.eq_1, h1]
  show (decodeV23 W : Except Reject Instr) = _
  rw [decodeV23.eq_1, h11, h10]
  show (src W fun b => .vssub (flag W 26) (flag W 25) (xr W 8) (xr W 13) b : Except Reject Instr) = _
  simp only [h1, h2, h3, h4, h5, h6, h7, h8, h9, h10, h11, src, bit_beq, xr, lo8, lane, bv, flag, zero, Except.bind, ofNat_val, ofNat_toNat, if_true, if_false, Nat.reduceBEq, Bool.false_eq_true, true_and, and_true, and_self, or_self, not_false_eq_true, ne_eq, Nat.reduceLT, Nat.reduceLeDiff, Nat.reduceEqDiff, bit_zero, bit_one]
theorem codes_encVssub (c : Bool) (m : Bool) (d : VReg) (a : VReg) (b : VSrc) : Codes (encVssub c m d a b) (.vssub c m d a b) := by
  have hb0 := bit_lt c
  have hb1 := bit_lt m
  have hb2 := d.isLt
  have hb3 := a.isLt
  cases b with
  | vv r =>
    have hbr := r.isLt
    show Codes (4, fV 19 (bit c) (bit m) 0 r.val a d 0x23) (.vssub c m d a (.vv r))
    have F := @fV_fields (19) ((bit c)) ((bit m)) (0) (r.val) (a.val) (d.val) (0x23) (by omega) (by omega) (by omega) (by omega) (by omega) (by omega) (by omega) (by omega)
    obtain ⟨hm, f27_5, f26_1, f25_1, f23_2, f18_5, f13_5, f8_5, f2_6, f0_2⟩ := F
    exact .word hm f0_2 (decodeBits_ofVssub_vv c m d a r hm (f0_2.trans (by omega)) (f2_6.trans (by omega)) (f8_5.trans (by omega)) (f13_5.trans (by omega)) (f18_5.trans (by omega)) (f23_2.trans (by omega)) (f25_1.trans (by omega)) (f26_1.trans (by omega)) ((fld_sub (o := 0) (k := 3) f27_5 rfl (by decide)).trans (by omega)) ((fld_sub (o := 3) (k := 2) f27_5 rfl (by decide)).trans (by omega)))
  | vx r =>
    have hbr := r.isLt
    show Codes (4, fV 19 (bit c) (bit m) 1 r.val a d 0x23) (.vssub c m d a (.vx r))
    have F := @fV_fields (19) ((bit c)) ((bit m)) (1) (r.val) (a.val) (d.val) (0x23) (by omega) (by omega) (by omega) (by omega) (by omega) (by omega) (by omega) (by omega)
    obtain ⟨hm, f27_5, f26_1, f25_1, f23_2, f18_5, f13_5, f8_5, f2_6, f0_2⟩ := F
    exact .word hm f0_2 (decodeBits_ofVssub_vx c m d a r hm (f0_2.trans (by omega)) (f2_6.trans (by omega)) (f8_5.trans (by omega)) (f13_5.trans (by omega)) (f18_5.trans (by omega)) (f23_2.trans (by omega)) (f25_1.trans (by omega)) (f26_1.trans (by omega)) ((fld_sub (o := 0) (k := 3) f27_5 rfl (by decide)).trans (by omega)) ((fld_sub (o := 3) (k := 2) f27_5 rfl (by decide)).trans (by omega)))
  | vi r =>
    have hbr := r.isLt
    show Codes (4, fV 19 (bit c) (bit m) 2 r.toNat a d 0x23) (.vssub c m d a (.vi r))
    have F := @fV_fields (19) ((bit c)) ((bit m)) (2) (r.toNat) (a.val) (d.val) (0x23) (by omega) (by omega) (by omega) (by omega) (by omega) (by omega) (by omega) (by omega)
    obtain ⟨hm, f27_5, f26_1, f25_1, f23_2, f18_5, f13_5, f8_5, f2_6, f0_2⟩ := F
    exact .word hm f0_2 (decodeBits_ofVssub_vi c m d a r hm (f0_2.trans (by omega)) (f2_6.trans (by omega)) (f8_5.trans (by omega)) (f13_5.trans (by omega)) (f18_5.trans (by omega)) (f23_2.trans (by omega)) (f25_1.trans (by omega)) (f26_1.trans (by omega)) ((fld_sub (o := 0) (k := 3) f27_5 rfl (by decide)).trans (by omega)) ((fld_sub (o := 3) (k := 2) f27_5 rfl (by decide)).trans (by omega)))
  | vs r =>
    have hbr := r.isLt
    show Codes (4, fV 19 (bit c) (bit m) 3 r.val a d 0x23) (.vssub c m d a (.vs r))
    have F := @fV_fields (19) ((bit c)) ((bit m)) (3) (r.val) (a.val) (d.val) (0x23) (by omega) (by omega) (by omega) (by omega) (by omega) (by omega) (by omega) (by omega)
    obtain ⟨hm, f27_5, f26_1, f25_1, f23_2, f18_5, f13_5, f8_5, f2_6, f0_2⟩ := F
    exact .word hm f0_2 (decodeBits_ofVssub_vs c m d a r hm (f0_2.trans (by omega)) (f2_6.trans (by omega)) (f8_5.trans (by omega)) (f13_5.trans (by omega)) ((fld_sub (o := 0) (k := 2) f18_5 rfl (by decide)).trans (by omega)) (f18_5.trans (by omega)) ((fld_sub (o := 2) (k := 3) f18_5 rfl (by decide)).trans (by omega)) (f23_2.trans (by omega)) (f25_1.trans (by omega)) (f26_1.trans (by omega)) ((fld_sub (o := 0) (k := 3) f27_5 rfl (by decide)).trans (by omega)) ((fld_sub (o := 3) (k := 2) f27_5 rfl (by decide)).trans (by omega)))

theorem decodeBits_ofVavg_vv (c : Bool) (m : Bool) (d : VReg) (a : VReg) (r : VReg) {W : Nat} (hm : W < 2 ^ 32) (h0 : fld W 0 2 = 1) (h1 : fld W 2 6 = 35) (h2 : fld W 8 5 = d.val) (h3 : fld W 13 5 = a.val) (h5 : fld W 18 5 = r.val) (h7 : fld W 23 2 = 0) (h8 : fld W 25 1 = (bit m)) (h9 : fld W 26 1 = (bit c)) (h10 : fld W 27 3 = 4) (h11 : fld W 30 2 = 2) : decodeBits W = .ok (.vavg c m d a (.vv r)) := by
  have hb0 := bit_lt c
  have hb1 := bit_lt m
  have hb2 := d.isLt
  have hb3 := a.isLt
  rw [decodeBits_word h0 hm]
  rw [decode32.eq_1, h1]
  show (decodeV23 W : Except Reject Instr) = _
  rw [decodeV23.eq_1, h11, h10]
  show (src W fun b => .vavg (flag W 26) (flag W 25) (xr W 8) (xr W 13) b : Except Reject Instr) = _
  simp only [h1, h2, h3, h5, h7, h8, h9, h10, h11, src, bit_beq, xr, lo8, lane, bv, flag, zero, Except.bind, ofNat_val, ofNat_toNat, if_true, if_false, Nat.reduceBEq, Bool.false_eq_true, true_and, and_true, and_self, or_self, not_false_eq_true, ne_eq, Nat.reduceLT, Nat.reduceLeDiff, Nat.reduceEqDiff, bit_zero, bit_one]
theorem decodeBits_ofVavg_vx (c : Bool) (m : Bool) (d : VReg) (a : VReg) (r : XReg) {W : Nat} (hm : W < 2 ^ 32) (h0 : fld W 0 2 = 1) (h1 : fld W 2 6 = 35) (h2 : fld W 8 5 = d.val) (h3 : fld W 13 5 = a.val) (h5 : fld W 18 5 = r.val) (h7 : fld W 23 2 = 1) (h8 : fld W 25 1 = (bit m)) (h9 : fld W 26 1 = (bit c)) (h10 : fld W 27 3 = 4) (h11 : fld W 30 2 = 2) : decodeBits W = .ok (.vavg c m d a (.vx r)) := by
  have hb0 := bit_lt c
  have hb1 := bit_lt m
  have hb2 := d.isLt
  have hb3 := a.isLt
  rw [decodeBits_word h0 hm]
  rw [decode32.eq_1, h1]
  show (decodeV23 W : Except Reject Instr) = _
  rw [decodeV23.eq_1, h11, h10]
  show (src W fun b => .vavg (flag W 26) (flag W 25) (xr W 8) (xr W 13) b : Except Reject Instr) = _
  simp only [h1, h2, h3, h5, h7, h8, h9, h10, h11, src, bit_beq, xr, lo8, lane, bv, flag, zero, Except.bind, ofNat_val, ofNat_toNat, if_true, if_false, Nat.reduceBEq, Bool.false_eq_true, true_and, and_true, and_self, or_self, not_false_eq_true, ne_eq, Nat.reduceLT, Nat.reduceLeDiff, Nat.reduceEqDiff, bit_zero, bit_one]
theorem decodeBits_ofVavg_vi (c : Bool) (m : Bool) (d : VReg) (a : VReg) (r : BitVec 5) {W : Nat} (hm : W < 2 ^ 32) (h0 : fld W 0 2 = 1) (h1 : fld W 2 6 = 35) (h2 : fld W 8 5 = d.val) (h3 : fld W 13 5 = a.val) (h5 : fld W 18 5 = r.toNat) (h7 : fld W 23 2 = 2) (h8 : fld W 25 1 = (bit m)) (h9 : fld W 26 1 = (bit c)) (h10 : fld W 27 3 = 4) (h11 : fld W 30 2 = 2) : decodeBits W = .ok (.vavg c m d a (.vi r)) := by
  have hb0 := bit_lt c
  have hb1 := bit_lt m
  have hb2 := d.isLt
  have hb3 := a.isLt
  rw [decodeBits_word h0 hm]
  rw [decode32.eq_1, h1]
  show (decodeV23 W : Except Reject Instr) = _
  rw [decodeV23.eq_1, h11, h10]
  show (src W fun b => .vavg (flag W 26) (flag W 25) (xr W 8) (xr W 13) b : Except Reject Instr) = _
  simp only [h1, h2, h3, h5, h7, h8, h9, h10, h11, src, bit_beq, xr, lo8, lane, bv, flag, zero, Except.bind, ofNat_val, ofNat_toNat, if_true, if_false, Nat.reduceBEq, Bool.false_eq_true, true_and, and_true, and_self, or_self, not_false_eq_true, ne_eq, Nat.reduceLT, Nat.reduceLeDiff, Nat.reduceEqDiff, bit_zero, bit_one]
theorem decodeBits_ofVavg_vs (c : Bool) (m : Bool) (d : VReg) (a : VReg) (r : SReg) {W : Nat} (hm : W < 2 ^ 32) (h0 : fld W 0 2 = 1) (h1 : fld W 2 6 = 35) (h2 : fld W 8 5 = d.val) (h3 : fld W 13 5 = a.val) (h4 : fld W 18 2 = r.val) (h5 : fld W 18 5 = r.val) (h6 : fld W 20 3 = 0) (h7 : fld W 23 2 = 3) (h8 : fld W 25 1 = (bit m)) (h9 : fld W 26 1 = (bit c)) (h10 : fld W 27 3 = 4) (h11 : fld W 30 2 = 2) : decodeBits W = .ok (.vavg c m d a (.vs r)) := by
  have hb0 := bit_lt c
  have hb1 := bit_lt m
  have hb2 := d.isLt
  have hb3 := a.isLt
  rw [decodeBits_word h0 hm]
  rw [decode32.eq_1, h1]
  show (decodeV23 W : Except Reject Instr) = _
  rw [decodeV23.eq_1, h11, h10]
  show (src W fun b => .vavg (flag W 26) (flag W 25) (xr W 8) (xr W 13) b : Except Reject Instr) = _
  simp only [h1, h2, h3, h4, h5, h6, h7, h8, h9, h10, h11, src, bit_beq, xr, lo8, lane, bv, flag, zero, Except.bind, ofNat_val, ofNat_toNat, if_true, if_false, Nat.reduceBEq, Bool.false_eq_true, true_and, and_true, and_self, or_self, not_false_eq_true, ne_eq, Nat.reduceLT, Nat.reduceLeDiff, Nat.reduceEqDiff, bit_zero, bit_one]
theorem codes_encVavg (c : Bool) (m : Bool) (d : VReg) (a : VReg) (b : VSrc) : Codes (encVavg c m d a b) (.vavg c m d a b) := by
  have hb0 := bit_lt c
  have hb1 := bit_lt m
  have hb2 := d.isLt
  have hb3 := a.isLt
  cases b with
  | vv r =>
    have hbr := r.isLt
    show Codes (4, fV 20 (bit c) (bit m) 0 r.val a d 0x23) (.vavg c m d a (.vv r))
    have F := @fV_fields (20) ((bit c)) ((bit m)) (0) (r.val) (a.val) (d.val) (0x23) (by omega) (by omega) (by omega) (by omega) (by omega) (by omega) (by omega) (by omega)
    obtain ⟨hm, f27_5, f26_1, f25_1, f23_2, f18_5, f13_5, f8_5, f2_6, f0_2⟩ := F
    exact .word hm f0_2 (decodeBits_ofVavg_vv c m d a r hm (f0_2.trans (by omega)) (f2_6.trans (by omega)) (f8_5.trans (by omega)) (f13_5.trans (by omega)) (f18_5.trans (by omega)) (f23_2.trans (by omega)) (f25_1.trans (by omega)) (f26_1.trans (by omega)) ((fld_sub (o := 0) (k := 3) f27_5 rfl (by decide)).trans (by omega)) ((fld_sub (o := 3) (k := 2) f27_5 rfl (by decide)).trans (by omega)))
  | vx r =>
    have hbr := r.isLt
    show Codes (4, fV 20 (bit c) (bit m) 1 r.val a d 0x23) (.vavg c m d a (.vx r))
    have F := @fV_fields (20) ((bit c)) ((bit m)) (1) (r.val) (a.val) (d.val) (0x23) (by omega) (by omega) (by omega) (by omega) (by omega) (by omega) (by omega) (by omega)
    obtain ⟨hm, f27_5, f26_1, f25_1, f23_2, f18_5, f13_5, f8_5, f2_6, f0_2⟩ := F
    exact .word hm f0_2 (decodeBits_ofVavg_vx c m d a r hm (f0_2.trans (by omega)) (f2_6.trans (by omega)) (f8_5.trans (by omega)) (f13_5.trans (by omega)) (f18_5.trans (by omega)) (f23_2.trans (by omega)) (f25_1.trans (by omega)) (f26_1.trans (by omega)) ((fld_sub (o := 0) (k := 3) f27_5 rfl (by decide)).trans (by omega)) ((fld_sub (o := 3) (k := 2) f27_5 rfl (by decide)).trans (by omega)))
  | vi r =>
    have hbr := r.isLt
    show Codes (4, fV 20 (bit c) (bit m) 2 r.toNat a d 0x23) (.vavg c m d a (.vi r))
    have F := @fV_fields (20) ((bit c)) ((bit m)) (2) (r.toNat) (a.val) (d.val) (0x23) (by omega) (by omega) (by omega) (by omega) (by omega) (by omega) (by omega) (by omega)
    obtain ⟨hm, f27_5, f26_1, f25_1, f23_2, f18_5, f13_5, f8_5, f2_6, f0_2⟩ := F
    exact .word hm f0_2 (decodeBits_ofVavg_vi c m d a r hm (f0_2.trans (by omega)) (f2_6.trans (by omega)) (f8_5.trans (by omega)) (f13_5.trans (by omega)) (f18_5.trans (by omega)) (f23_2.trans (by omega)) (f25_1.trans (by omega)) (f26_1.trans (by omega)) ((fld_sub (o := 0) (k := 3) f27_5 rfl (by decide)).trans (by omega)) ((fld_sub (o := 3) (k := 2) f27_5 rfl (by decide)).trans (by omega)))
  | vs r =>
    have hbr := r.isLt
    show Codes (4, fV 20 (bit c) (bit m) 3 r.val a d 0x23) (.vavg c m d a (.vs r))
    have F := @fV_fields (20) ((bit c)) ((bit m)) (3) (r.val) (a.val) (d.val) (0x23) (by omega) (by omega) (by omega) (by omega) (by omega) (by omega) (by omega) (by omega)
    obtain ⟨hm, f27_5, f26_1, f25_1, f23_2, f18_5, f13_5, f8_5, f2_6, f0_2⟩ := F
    exact .word hm f0_2 (decodeBits_ofVavg_vs c m d a r hm (f0_2.trans (by omega)) (f2_6.trans (by omega)) (f8_5.trans (by omega)) (f13_5.trans (by omega)) ((fld_sub (o := 0) (k := 2) f18_5 rfl (by decide)).trans (by omega)) (f18_5.trans (by omega)) ((fld_sub (o := 2) (k := 3) f18_5 rfl (by decide)).trans (by omega)) (f23_2.trans (by omega)) (f25_1.trans (by omega)) (f26_1.trans (by omega)) ((fld_sub (o := 0) (k := 3) f27_5 rfl (by decide)).trans (by omega)) ((fld_sub (o := 3) (k := 2) f27_5 rfl (by decide)).trans (by omega)))

theorem decodeBits_ofVcmp_vv (q : VCond) (m : Bool) (d : MReg) (a : VReg) (r : VReg) {W : Nat} (hm : W < 2 ^ 32) (h0 : fld W 0 2 = 1) (h1 : fld W 2 6 = 36) (h2 : fld W 8 3 = d.val) (h3 : fld W 11 2 = 0) (h4 : fld W 13 5 = a.val) (h6 : fld W 18 5 = r.val) (h8 : fld W 23 2 = 0) (h9 : fld W 25 1 = (bit m)) (h10 : fld W 26 1 = 0) (h11 : fld W 27 5 = q.code) : decodeBits W = .ok (.vcmp q m d a (.vv r)) := by
  have hb0 := VCond.code_lt q
  have hb1 := bit_lt m
  have hb2 := d.isLt
  have hb3 := a.isLt
  rw [decodeBits_word h0 hm]
  cases q <;> simp only [VCond.code, Nat.reduceAdd] at h11 <;> simp only [h1, h2, h3, h4, h6, h8, h9, h10, h11, decode32, decodeV24, decodeVcmp, src, bit_beq, xr, lo8, lane, bv, flag, zero, Except.bind, ofNat_val, ofNat_toNat, if_true, if_false, Nat.reduceBEq, Bool.false_eq_true, true_and, and_true, and_self, or_self, not_false_eq_true, ne_eq, Nat.reduceLT, Nat.reduceLeDiff, Nat.reduceEqDiff, bit_zero, bit_one]
theorem decodeBits_ofVcmp_vx (q : VCond) (m : Bool) (d : MReg) (a : VReg) (r : XReg) {W : Nat} (hm : W < 2 ^ 32) (h0 : fld W 0 2 = 1) (h1 : fld W 2 6 = 36) (h2 : fld W 8 3 = d.val) (h3 : fld W 11 2 = 0) (h4 : fld W 13 5 = a.val) (h6 : fld W 18 5 = r.val) (h8 : fld W 23 2 = 1) (h9 : fld W 25 1 = (bit m)) (h10 : fld W 26 1 = 0) (h11 : fld W 27 5 = q.code) : decodeBits W = .ok (.vcmp q m d a (.vx r)) := by
  have hb0 := VCond.code_lt q
  have hb1 := bit_lt m
  have hb2 := d.isLt
  have hb3 := a.isLt
  rw [decodeBits_word h0 hm]
  cases q <;> simp only [VCond.code, Nat.reduceAdd] at h11 <;> simp only [h1, h2, h3, h4, h6, h8, h9, h10, h11, decode32, decodeV24, decodeVcmp, src, bit_beq, xr, lo8, lane, bv, flag, zero, Except.bind, ofNat_val, ofNat_toNat, if_true, if_false, Nat.reduceBEq, Bool.false_eq_true, true_and, and_true, and_self, or_self, not_false_eq_true, ne_eq, Nat.reduceLT, Nat.reduceLeDiff, Nat.reduceEqDiff, bit_zero, bit_one]
theorem decodeBits_ofVcmp_vi (q : VCond) (m : Bool) (d : MReg) (a : VReg) (r : BitVec 5) {W : Nat} (hm : W < 2 ^ 32) (h0 : fld W 0 2 = 1) (h1 : fld W 2 6 = 36) (h2 : fld W 8 3 = d.val) (h3 : fld W 11 2 = 0) (h4 : fld W 13 5 = a.val) (h6 : fld W 18 5 = r.toNat) (h8 : fld W 23 2 = 2) (h9 : fld W 25 1 = (bit m)) (h10 : fld W 26 1 = 0) (h11 : fld W 27 5 = q.code) : decodeBits W = .ok (.vcmp q m d a (.vi r)) := by
  have hb0 := VCond.code_lt q
  have hb1 := bit_lt m
  have hb2 := d.isLt
  have hb3 := a.isLt
  rw [decodeBits_word h0 hm]
  cases q <;> simp only [VCond.code, Nat.reduceAdd] at h11 <;> simp only [h1, h2, h3, h4, h6, h8, h9, h10, h11, decode32, decodeV24, decodeVcmp, src, bit_beq, xr, lo8, lane, bv, flag, zero, Except.bind, ofNat_val, ofNat_toNat, if_true, if_false, Nat.reduceBEq, Bool.false_eq_true, true_and, and_true, and_self, or_self, not_false_eq_true, ne_eq, Nat.reduceLT, Nat.reduceLeDiff, Nat.reduceEqDiff, bit_zero, bit_one]
theorem decodeBits_ofVcmp_vs (q : VCond) (m : Bool) (d : MReg) (a : VReg) (r : SReg) {W : Nat} (hm : W < 2 ^ 32) (h0 : fld W 0 2 = 1) (h1 : fld W 2 6 = 36) (h2 : fld W 8 3 = d.val) (h3 : fld W 11 2 = 0) (h4 : fld W 13 5 = a.val) (h5 : fld W 18 2 = r.val) (h6 : fld W 18 5 = r.val) (h7 : fld W 20 3 = 0) (h8 : fld W 23 2 = 3) (h9 : fld W 25 1 = (bit m)) (h10 : fld W 26 1 = 0) (h11 : fld W 27 5 = q.code) : decodeBits W = .ok (.vcmp q m d a (.vs r)) := by
  have hb0 := VCond.code_lt q
  have hb1 := bit_lt m
  have hb2 := d.isLt
  have hb3 := a.isLt
  rw [decodeBits_word h0 hm]
  cases q <;> simp only [VCond.code, Nat.reduceAdd] at h11 <;> simp only [h1, h2, h3, h4, h5, h6, h7, h8, h9, h10, h11, decode32, decodeV24, decodeVcmp, src, bit_beq, xr, lo8, lane, bv, flag, zero, Except.bind, ofNat_val, ofNat_toNat, if_true, if_false, Nat.reduceBEq, Bool.false_eq_true, true_and, and_true, and_self, or_self, not_false_eq_true, ne_eq, Nat.reduceLT, Nat.reduceLeDiff, Nat.reduceEqDiff, bit_zero, bit_one]
theorem codes_encVcmp (q : VCond) (m : Bool) (d : MReg) (a : VReg) (b : VSrc) : Codes (encVcmp q m d a b) (.vcmp q m d a b) := by
  have hb0 := VCond.code_lt q
  have hb1 := bit_lt m
  have hb2 := d.isLt
  have hb3 := a.isLt
  cases b with
  | vv r =>
    have hbr := r.isLt
    show Codes (4, fV q.code 0 (bit m) 0 r.val a d 0x24) (.vcmp q m d a (.vv r))
    have F := @fV_fields (q.code) (0) ((bit m)) (0) (r.val) (a.val) (d.val) (0x24) (by omega) (by omega) (by omega) (by omega) (by omega) (by omega) (by omega) (by omega)
    obtain ⟨hm, f27_5, f26_1, f25_1, f23_2, f18_5, f13_5, f8_5, f2_6, f0_2⟩ := F
    exact .word hm f0_2 (decodeBits_ofVcmp_vv q m d a r hm (f0_2.trans (by omega)) (f2_6.trans (by omega)) ((fld_sub (o := 0) (k := 3) f8_5 rfl (by decide)).trans (by omega)) ((fld_sub (o := 3) (k := 2) f8_5 rfl (by decide)).trans (by omega)) (f13_5.trans (by omega)) (f18_5.trans (by omega)) (f23_2.trans (by omega)) (f25_1.trans (by omega)) (f26_1.trans (by omega)) (f27_5.trans (by omega)))
  | vx r =>
    have hbr := r.isLt
    show Codes (4, fV q.code 0 (bit m) 1 r.val a d 0x24) (.vcmp q m d a (.vx r))
    have F := @fV_fields (q.code) (0) ((bit m)) (1) (r.val) (a.val) (d.val) (0x24) (by omega) (by omega) (by omega) (by omega) (by omega) (by omega) (by omega) (by omega)
    obtain ⟨hm, f27_5, f26_1, f25_1, f23_2, f18_5, f13_5, f8_5, f2_6, f0_2⟩ := F
    exact .word hm f0_2 (decodeBits_ofVcmp_vx q m d a r hm (f0_2.trans (by omega)) (f2_6.trans (by omega)) ((fld_sub (o := 0) (k := 3) f8_5 rfl (by decide)).trans (by omega)) ((fld_sub (o := 3) (k := 2) f8_5 rfl (by decide)).trans (by omega)) (f13_5.trans (by omega)) (f18_5.trans (by omega)) (f23_2.trans (by omega)) (f25_1.trans (by omega)) (f26_1.trans (by omega)) (f27_5.trans (by omega)))
  | vi r =>
    have hbr := r.isLt
    show Codes (4, fV q.code 0 (bit m) 2 r.toNat a d 0x24) (.vcmp q m d a (.vi r))
    have F := @fV_fields (q.code) (0) ((bit m)) (2) (r.toNat) (a.val) (d.val) (0x24) (by omega) (by omega) (by omega) (by omega) (by omega) (by omega) (by omega) (by omega)
    obtain ⟨hm, f27_5, f26_1, f25_1, f23_2, f18_5, f13_5, f8_5, f2_6, f0_2⟩ := F
    exact .word hm f0_2 (decodeBits_ofVcmp_vi q m d a r hm (f0_2.trans (by omega)) (f2_6.trans (by omega)) ((fld_sub (o := 0) (k := 3) f8_5 rfl (by decide)).trans (by omega)) ((fld_sub (o := 3) (k := 2) f8_5 rfl (by decide)).trans (by omega)) (f13_5.trans (by omega)) (f18_5.trans (by omega)) (f23_2.trans (by omega)) (f25_1.trans (by omega)) (f26_1.trans (by omega)) (f27_5.trans (by omega)))
  | vs r =>
    have hbr := r.isLt
    show Codes (4, fV q.code 0 (bit m) 3 r.val a d 0x24) (.vcmp q m d a (.vs r))
    have F := @fV_fields (q.code) (0) ((bit m)) (3) (r.val) (a.val) (d.val) (0x24) (by omega) (by omega) (by omega) (by omega) (by omega) (by omega) (by omega) (by omega)
    obtain ⟨hm, f27_5, f26_1, f25_1, f23_2, f18_5, f13_5, f8_5, f2_6, f0_2⟩ := F
    exact .word hm f0_2 (decodeBits_ofVcmp_vs q m d a r hm (f0_2.trans (by omega)) (f2_6.trans (by omega)) ((fld_sub (o := 0) (k := 3) f8_5 rfl (by decide)).trans (by omega)) ((fld_sub (o := 3) (k := 2) f8_5 rfl (by decide)).trans (by omega)) (f13_5.trans (by omega)) ((fld_sub (o := 0) (k := 2) f18_5 rfl (by decide)).trans (by omega)) (f18_5.trans (by omega)) ((fld_sub (o := 2) (k := 3) f18_5 rfl (by decide)).trans (by omega)) (f23_2.trans (by omega)) (f25_1.trans (by omega)) (f26_1.trans (by omega)) (f27_5.trans (by omega)))

theorem decodeBits_ofMand (d : MReg) (a : MReg) (b : MReg) {W : Nat} (hm : W < 2 ^ 32) (h0 : fld W 0 2 = 1) (h1 : fld W 2 6 = 36) (h2 : fld W 8 3 = d.val) (h3 : fld W 11 2 = 0) (h4 : fld W 13 3 = a.val) (h5 : fld W 16 2 = 0) (h6 : fld W 18 3 = b.val) (h7 : fld W 21 2 = 0) (h8 : fld W 23 4 = 0) (h9 : fld W 27 5 = 8) : decodeBits W = .ok (.mand d a b) := by
  have hb0 := d.isLt
  have hb1 := a.isLt
  have hb2 := b.isLt
  rw [decodeBits_word h0 hm]
  rw [decode32.eq_1, h1]
  show (decodeV24 W : Except Reject Instr) = _
  rw [decodeV24.eq_1, h9]
  show (zero W 23 4 (.mand (lo8 W 8) (lo8 W 13) (lo8 W 18)) |>.bind (zero W 11 2) |>.bind (zero W 16 2) |>.bind (zero W 21 2) : Except Reject Instr) = _
  simp only [h1, h2, h3, h4, h5, h6, h7, h8, h9, xr, lo8, lane, bv, flag, zero, Except.bind, ofNat_val, ofNat_toNat, if_true, if_false, Nat.reduceBEq, Bool.false_eq_true, true_and, and_true, and_self, or_self, not_false_eq_true, ne_eq, Nat.reduceLT, Nat.reduceLeDiff, Nat.reduceEqDiff, bit_zero, bit_one]
theorem codes_encMand (d : MReg) (a : MReg) (b : MReg) : Codes (encMand d a b) (.mand d a b) := by
  have hb0 := d.isLt
  have hb1 := a.isLt
  have hb2 := b.isLt
  show Codes (4, fV 8 0 0 0 b a d 0x24) (.mand d a b)
  have F := @fV_fields (8) (0) (0) (0) (b.val) (a.val) (d.val) (0x24) (by omega) (by omega) (by omega) (by omega) (by omega) (by omega) (by omega) (by omega)
  obtain ⟨hm, f27_5, f26_1, f25_1, f23_2, f18_5, f13_5, f8_5, f2_6, f0_2⟩ := F
  exact .word hm f0_2 (decodeBits_ofMand d a b hm (f0_2.trans (by omega)) (f2_6.trans (by omega)) ((fld_sub (o := 0) (k := 3) f8_5 rfl (by decide)).trans (by omega)) ((fld_sub (o := 3) (k := 2) f8_5 rfl (by decide)).trans (by omega)) ((fld_sub (o := 0) (k := 3) f13_5 rfl (by decide)).trans (by omega)) ((fld_sub (o := 3) (k := 2) f13_5 rfl (by decide)).trans (by omega)) ((fld_sub (o := 0) (k := 3) f18_5 rfl (by decide)).trans (by omega)) ((fld_sub (o := 3) (k := 2) f18_5 rfl (by decide)).trans (by omega)) ((fld_app f23_2 (fld_app f25_1 f26_1 rfl rfl) rfl rfl).trans (by omega)) (f27_5.trans (by omega)))

theorem decodeBits_ofMor (d : MReg) (a : MReg) (b : MReg) {W : Nat} (hm : W < 2 ^ 32) (h0 : fld W 0 2 = 1) (h1 : fld W 2 6 = 36) (h2 : fld W 8 3 = d.val) (h3 : fld W 11 2 = 0) (h4 : fld W 13 3 = a.val) (h5 : fld W 16 2 = 0) (h6 : fld W 18 3 = b.val) (h7 : fld W 21 2 = 0) (h8 : fld W 23 4 = 0) (h9 : fld W 27 5 = 9) : decodeBits W = .ok (.mor d a b) := by
  have hb0 := d.isLt
  have hb1 := a.isLt
  have hb2 := b.isLt
  rw [decodeBits_word h0 hm]
  rw [decode32.eq_1, h1]
  show (decodeV24 W : Except Reject Instr) = _
  rw [decodeV24.eq_1, h9]
  show (zero W 23 4 (.mor (lo8 W 8) (lo8 W 13) (lo8 W 18)) |>.bind (zero W 11 2) |>.bind (zero W 16 2) |>.bind (zero W 21 2) : Except Reject Instr) = _
  simp only [h1, h2, h3, h4, h5, h6, h7, h8, h9, xr, lo8, lane, bv, flag, zero, Except.bind, ofNat_val, ofNat_toNat, if_true, if_false, Nat.reduceBEq, Bool.false_eq_true, true_and, and_true, and_self, or_self, not_false_eq_true, ne_eq, Nat.reduceLT, Nat.reduceLeDiff, Nat.reduceEqDiff, bit_zero, bit_one]
theorem codes_encMor (d : MReg) (a : MReg) (b : MReg) : Codes (encMor d a b) (.mor d a b) := by
  have hb0 := d.isLt
  have hb1 := a.isLt
  have hb2 := b.isLt
  show Codes (4, fV 9 0 0 0 b a d 0x24) (.mor d a b)
  have F := @fV_fields (9) (0) (0) (0) (b.val) (a.val) (d.val) (0x24) (by omega) (by omega) (by omega) (by omega) (by omega) (by omega) (by omega) (by omega)
  obtain ⟨hm, f27_5, f26_1, f25_1, f23_2, f18_5, f13_5, f8_5, f2_6, f0_2⟩ := F
  exact .word hm f0_2 (decodeBits_ofMor d a b hm (f0_2.trans (by omega)) (f2_6.trans (by omega)) ((fld_sub (o := 0) (k := 3) f8_5 rfl (by decide)).trans (by omega)) ((fld_sub (o := 3) (k := 2) f8_5 rfl (by decide)).trans (by omega)) ((fld_sub (o := 0) (k := 3) f13_5 rfl (by decide)).trans (by omega)) ((fld_sub (o := 3) (k := 2) f13_5 rfl (by decide)).trans (by omega)) ((fld_sub (o := 0) (k := 3) f18_5 rfl (by decide)).trans (by omega)) ((fld_sub (o := 3) (k := 2) f18_5 rfl (by decide)).trans (by omega)) ((fld_app f23_2 (fld_app f25_1 f26_1 rfl rfl) rfl rfl).trans (by omega)) (f27_5.trans (by omega)))

theorem decodeBits_ofMxor (d : MReg) (a : MReg) (b : MReg) {W : Nat} (hm : W < 2 ^ 32) (h0 : fld W 0 2 = 1) (h1 : fld W 2 6 = 36) (h2 : fld W 8 3 = d.val) (h3 : fld W 11 2 = 0) (h4 : fld W 13 3 = a.val) (h5 : fld W 16 2 = 0) (h6 : fld W 18 3 = b.val) (h7 : fld W 21 2 = 0) (h8 : fld W 23 4 = 0) (h9 : fld W 27 5 = 10) : decodeBits W = .ok (.mxor d a b) := by
  have hb0 := d.isLt
  have hb1 := a.isLt
  have hb2 := b.isLt
  rw [decodeBits_word h0 hm]
  rw [decode32.eq_1, h1]
  show (decodeV24 W : Except Reject Instr) = _
  rw [decodeV24.eq_1, h9]
  show (zero W 23 4 (.mxor (lo8 W 8) (lo8 W 13) (lo8 W 18)) |>.bind (zero W 11 2) |>.bind (zero W 16 2) |>.bind (zero W 21 2) : Except Reject Instr) = _
  simp only [h1, h2, h3, h4, h5, h6, h7, h8, h9, xr, lo8, lane, bv, flag, zero, Except.bind, ofNat_val, ofNat_toNat, if_true, if_false, Nat.reduceBEq, Bool.false_eq_true, true_and, and_true, and_self, or_self, not_false_eq_true, ne_eq, Nat.reduceLT, Nat.reduceLeDiff, Nat.reduceEqDiff, bit_zero, bit_one]
theorem codes_encMxor (d : MReg) (a : MReg) (b : MReg) : Codes (encMxor d a b) (.mxor d a b) := by
  have hb0 := d.isLt
  have hb1 := a.isLt
  have hb2 := b.isLt
  show Codes (4, fV 10 0 0 0 b a d 0x24) (.mxor d a b)
  have F := @fV_fields (10) (0) (0) (0) (b.val) (a.val) (d.val) (0x24) (by omega) (by omega) (by omega) (by omega) (by omega) (by omega) (by omega) (by omega)
  obtain ⟨hm, f27_5, f26_1, f25_1, f23_2, f18_5, f13_5, f8_5, f2_6, f0_2⟩ := F
  exact .word hm f0_2 (decodeBits_ofMxor d a b hm (f0_2.trans (by omega)) (f2_6.trans (by omega)) ((fld_sub (o := 0) (k := 3) f8_5 rfl (by decide)).trans (by omega)) ((fld_sub (o := 3) (k := 2) f8_5 rfl (by decide)).trans (by omega)) ((fld_sub (o := 0) (k := 3) f13_5 rfl (by decide)).trans (by omega)) ((fld_sub (o := 3) (k := 2) f13_5 rfl (by decide)).trans (by omega)) ((fld_sub (o := 0) (k := 3) f18_5 rfl (by decide)).trans (by omega)) ((fld_sub (o := 3) (k := 2) f18_5 rfl (by decide)).trans (by omega)) ((fld_app f23_2 (fld_app f25_1 f26_1 rfl rfl) rfl rfl).trans (by omega)) (f27_5.trans (by omega)))

theorem decodeBits_ofMandn (d : MReg) (a : MReg) (b : MReg) {W : Nat} (hm : W < 2 ^ 32) (h0 : fld W 0 2 = 1) (h1 : fld W 2 6 = 36) (h2 : fld W 8 3 = d.val) (h3 : fld W 11 2 = 0) (h4 : fld W 13 3 = a.val) (h5 : fld W 16 2 = 0) (h6 : fld W 18 3 = b.val) (h7 : fld W 21 2 = 0) (h8 : fld W 23 4 = 0) (h9 : fld W 27 5 = 11) : decodeBits W = .ok (.mandn d a b) := by
  have hb0 := d.isLt
  have hb1 := a.isLt
  have hb2 := b.isLt
  rw [decodeBits_word h0 hm]
  rw [decode32.eq_1, h1]
  show (decodeV24 W : Except Reject Instr) = _
  rw [decodeV24.eq_1, h9]
  show (zero W 23 4 (.mandn (lo8 W 8) (lo8 W 13) (lo8 W 18)) |>.bind (zero W 11 2) |>.bind (zero W 16 2) |>.bind (zero W 21 2) : Except Reject Instr) = _
  simp only [h1, h2, h3, h4, h5, h6, h7, h8, h9, xr, lo8, lane, bv, flag, zero, Except.bind, ofNat_val, ofNat_toNat, if_true, if_false, Nat.reduceBEq, Bool.false_eq_true, true_and, and_true, and_self, or_self, not_false_eq_true, ne_eq, Nat.reduceLT, Nat.reduceLeDiff, Nat.reduceEqDiff, bit_zero, bit_one]
theorem codes_encMandn (d : MReg) (a : MReg) (b : MReg) : Codes (encMandn d a b) (.mandn d a b) := by
  have hb0 := d.isLt
  have hb1 := a.isLt
  have hb2 := b.isLt
  show Codes (4, fV 11 0 0 0 b a d 0x24) (.mandn d a b)
  have F := @fV_fields (11) (0) (0) (0) (b.val) (a.val) (d.val) (0x24) (by omega) (by omega) (by omega) (by omega) (by omega) (by omega) (by omega) (by omega)
  obtain ⟨hm, f27_5, f26_1, f25_1, f23_2, f18_5, f13_5, f8_5, f2_6, f0_2⟩ := F
  exact .word hm f0_2 (decodeBits_ofMandn d a b hm (f0_2.trans (by omega)) (f2_6.trans (by omega)) ((fld_sub (o := 0) (k := 3) f8_5 rfl (by decide)).trans (by omega)) ((fld_sub (o := 3) (k := 2) f8_5 rfl (by decide)).trans (by omega)) ((fld_sub (o := 0) (k := 3) f13_5 rfl (by decide)).trans (by omega)) ((fld_sub (o := 3) (k := 2) f13_5 rfl (by decide)).trans (by omega)) ((fld_sub (o := 0) (k := 3) f18_5 rfl (by decide)).trans (by omega)) ((fld_sub (o := 3) (k := 2) f18_5 rfl (by decide)).trans (by omega)) ((fld_app f23_2 (fld_app f25_1 f26_1 rfl rfl) rfl rfl).trans (by omega)) (f27_5.trans (by omega)))

theorem decodeBits_ofMnot (d : MReg) (a : MReg) {W : Nat} (hm : W < 2 ^ 32) (h0 : fld W 0 2 = 1) (h1 : fld W 2 6 = 36) (h2 : fld W 8 3 = d.val) (h3 : fld W 11 2 = 0) (h4 : fld W 13 3 = a.val) (h5 : fld W 16 2 = 0) (h6 : fld W 18 9 = 0) (h7 : fld W 27 5 = 12) : decodeBits W = .ok (.mnot d a) := by
  have hb0 := d.isLt
  have hb1 := a.isLt
  rw [decodeBits_word h0 hm]
  rw [decode32.eq_1, h1]
  show (decodeV24 W : Except Reject Instr) = _
  rw [decodeV24.eq_1, h7]
  show (zero W 18 9 (.mnot (lo8 W 8) (lo8 W 13)) |>.bind (zero W 11 2) |>.bind (zero W 16 2) : Except Reject Instr) = _
  simp only [h1, h2, h3, h4, h5, h6, h7, xr, lo8, lane, bv, flag, zero, Except.bind, ofNat_val, ofNat_toNat, if_true, if_false, Nat.reduceBEq, Bool.false_eq_true, true_and, and_true, and_self, or_self, not_false_eq_true, ne_eq, Nat.reduceLT, Nat.reduceLeDiff, Nat.reduceEqDiff, bit_zero, bit_one]
theorem codes_encMnot (d : MReg) (a : MReg) : Codes (encMnot d a) (.mnot d a) := by
  have hb0 := d.isLt
  have hb1 := a.isLt
  show Codes (4, fV 12 0 0 0 0 a d 0x24) (.mnot d a)
  have F := @fV_fields (12) (0) (0) (0) (0) (a.val) (d.val) (0x24) (by omega) (by omega) (by omega) (by omega) (by omega) (by omega) (by omega) (by omega)
  obtain ⟨hm, f27_5, f26_1, f25_1, f23_2, f18_5, f13_5, f8_5, f2_6, f0_2⟩ := F
  exact .word hm f0_2 (decodeBits_ofMnot d a hm (f0_2.trans (by omega)) (f2_6.trans (by omega)) ((fld_sub (o := 0) (k := 3) f8_5 rfl (by decide)).trans (by omega)) ((fld_sub (o := 3) (k := 2) f8_5 rfl (by decide)).trans (by omega)) ((fld_sub (o := 0) (k := 3) f13_5 rfl (by decide)).trans (by omega)) ((fld_sub (o := 3) (k := 2) f13_5 rfl (by decide)).trans (by omega)) ((fld_app f18_5 (fld_app f23_2 (fld_app f25_1 f26_1 rfl rfl) rfl rfl) rfl rfl).trans (by omega)) (f27_5.trans (by omega)))

theorem decodeBits_ofMslide (d : MReg) (a : MReg) (k : Fin 4) {W : Nat} (hm : W < 2 ^ 32) (h0 : fld W 0 2 = 1) (h1 : fld W 2 6 = 36) (h2 : fld W 8 3 = d.val) (h3 : fld W 11 2 = 0) (h4 : fld W 13 3 = a.val) (h5 : fld W 16 2 = 0) (h6 : fld W 18 5 = k.val) (h7 : fld W 23 4 = 2) (h8 : fld W 27 5 = 13) : decodeBits W = .ok (.mslide d a k) := by
  have hb0 := d.isLt
  have hb1 := a.isLt
  have hb2 := k.isLt
  rw [decodeBits_word h0 hm]
  rw [decode32.eq_1, h1]
  show (decodeV24 W : Except Reject Instr) = _
  rw [decodeV24.eq_1, h8]
  show (if fld W 23 4 = 2 ∧ fld W 18 5 < 4 then zero W 11 2 (.mslide (lo8 W 8) (lo8 W 13) (Fin.ofNat 4 (fld W 18 5))) |>.bind (zero W 16 2) else .error .unlisted : Except Reject Instr) = _
  simp only [h1, h2, h3, h4, h5, h6, h7, h8, xr, lo8, lane, bv, flag, zero, Except.bind, ofNat_val, ofNat_toNat, if_true, if_false, Nat.reduceBEq, Bool.false_eq_true, true_and, and_true, and_self, or_self, not_false_eq_true, ne_eq, Nat.reduceLT, Nat.reduceLeDiff, Nat.reduceEqDiff, bit_zero, bit_one, hb2]
theorem codes_encMslide (d : MReg) (a : MReg) (k : Fin 4) : Codes (encMslide d a k) (.mslide d a k) := by
  have hb0 := d.isLt
  have hb1 := a.isLt
  have hb2 := k.isLt
  show Codes (4, fV 13 0 0 2 k a d 0x24) (.mslide d a k)
  have F := @fV_fields (13) (0) (0) (2) (k.val) (a.val) (d.val) (0x24) (by omega) (by omega) (by omega) (by omega) (by omega) (by omega) (by omega) (by omega)
  obtain ⟨hm, f27_5, f26_1, f25_1, f23_2, f18_5, f13_5, f8_5, f2_6, f0_2⟩ := F
  exact .word hm f0_2 (decodeBits_ofMslide d a k hm (f0_2.trans (by omega)) (f2_6.trans (by omega)) ((fld_sub (o := 0) (k := 3) f8_5 rfl (by decide)).trans (by omega)) ((fld_sub (o := 3) (k := 2) f8_5 rfl (by decide)).trans (by omega)) ((fld_sub (o := 0) (k := 3) f13_5 rfl (by decide)).trans (by omega)) ((fld_sub (o := 3) (k := 2) f13_5 rfl (by decide)).trans (by omega)) (f18_5.trans (by omega)) ((fld_app f23_2 (fld_app f25_1 f26_1 rfl rfl) rfl rfl).trans (by omega)) (f27_5.trans (by omega)))

theorem decodeBits_ofMpop (m : Bool) (d : XReg) (a : MReg) {W : Nat} (hm : W < 2 ^ 32) (h0 : fld W 0 2 = 1) (h1 : fld W 2 6 = 36) (h2 : fld W 8 5 = d.val) (h3 : fld W 13 3 = a.val) (h4 : fld W 16 2 = 0) (h5 : fld W 18 7 = 0) (h6 : fld W 25 1 = (bit m)) (h7 : fld W 26 1 = 0) (h8 : fld W 27 5 = 14) : decodeBits W = .ok (.mpop m d a) := by
  have hb0 := bit_lt m
  have hb1 := d.isLt
  have hb2 := a.isLt
  rw [decodeBits_word h0 hm]
  rw [decode32.eq_1, h1]
  show (decodeV24 W : Except Reject Instr) = _
  rw [decodeV24.eq_1, h8]
  show (zero W 18 7 (.mpop (flag W 25) (xr W 8) (lo8 W 13)) |>.bind (zero W 26 1) |>.bind (zero W 16 2) : Except Reject Instr) = _
  simp only [h1, h2, h3, h4, h5, h6, h7, h8, bit_beq, xr, lo8, lane, bv, flag, zero, Except.bind, ofNat_val, ofNat_toNat, if_true, if_false, Nat.reduceBEq, Bool.false_eq_true, true_and, and_true, and_self, or_self, not_false_eq_true, ne_eq, Nat.reduceLT, Nat.reduceLeDiff, Nat.reduceEqDiff, bit_zero, bit_one]
theorem codes_encMpop (m : Bool) (d : XReg) (a : MReg) : Codes (encMpop m d a) (.mpop m d a) := by
  have hb0 := bit_lt m
  have hb1 := d.isLt
  have hb2 := a.isLt
  show Codes (4, fV 14 0 (bit m) 0 0 a d 0x24) (.mpop m d a)
  have F := @fV_fields (14) (0) ((bit m)) (0) (0) (a.val) (d.val) (0x24) (by omega) (by omega) (by omega) (by omega) (by omega) (by omega) (by omega) (by omega)
  obtain ⟨hm, f27_5, f26_1, f25_1, f23_2, f18_5, f13_5, f8_5, f2_6, f0_2⟩ := F
  exact .word hm f0_2 (decodeBits_ofMpop m d a hm (f0_2.trans (by omega)) (f2_6.trans (by omega)) (f8_5.trans (by omega)) ((fld_sub (o := 0) (k := 3) f13_5 rfl (by decide)).trans (by omega)) ((fld_sub (o := 3) (k := 2) f13_5 rfl (by decide)).trans (by omega)) ((fld_app f18_5 f23_2 rfl rfl).trans (by omega)) (f25_1.trans (by omega)) (f26_1.trans (by omega)) (f27_5.trans (by omega)))

theorem decodeBits_ofMfirst (m : Bool) (d : XReg) (a : MReg) {W : Nat} (hm : W < 2 ^ 32) (h0 : fld W 0 2 = 1) (h1 : fld W 2 6 = 36) (h2 : fld W 8 5 = d.val) (h3 : fld W 13 3 = a.val) (h4 : fld W 16 2 = 0) (h5 : fld W 18 7 = 0) (h6 : fld W 25 1 = (bit m)) (h7 : fld W 26 1 = 0) (h8 : fld W 27 5 = 15) : decodeBits W = .ok (.mfirst m d a) := by
  have hb0 := bit_lt m
  have hb1 := d.isLt
  have hb2 := a.isLt
  rw [decodeBits_word h0 hm]
  rw [decode32.eq_1, h1]
  show (decodeV24 W : Except Reject Instr) = _
  rw [decodeV24.eq_1, h8]
  show (zero W 18 7 (.mfirst (flag W 25) (xr W 8) (lo8 W 13)) |>.bind (zero W 26 1) |>.bind (zero W 16 2) : Except Reject Instr) = _
  simp only [h1, h2, h3, h4, h5, h6, h7, h8, bit_beq, xr, lo8, lane, bv, flag, zero, Except.bind, ofNat_val, ofNat_toNat, if_true, if_false, Nat.reduceBEq, Bool.false_eq_true, true_and, and_true, and_self, or_self, not_false_eq_true, ne_eq, Nat.reduceLT, Nat.reduceLeDiff, Nat.reduceEqDiff, bit_zero, bit_one]
theorem codes_encMfirst (m : Bool) (d : XReg) (a : MReg) : Codes (encMfirst m d a) (.mfirst m d a) := by
  have hb0 := bit_lt m
  have hb1 := d.isLt
  have hb2 := a.isLt
  show Codes (4, fV 15 0 (bit m) 0 0 a d 0x24) (.mfirst m d a)
  have F := @fV_fields (15) (0) ((bit m)) (0) (0) (a.val) (d.val) (0x24) (by omega) (by omega) (by omega) (by omega) (by omega) (by omega) (by omega) (by omega)
  obtain ⟨hm, f27_5, f26_1, f25_1, f23_2, f18_5, f13_5, f8_5, f2_6, f0_2⟩ := F
  exact .word hm f0_2 (decodeBits_ofMfirst m d a hm (f0_2.trans (by omega)) (f2_6.trans (by omega)) (f8_5.trans (by omega)) ((fld_sub (o := 0) (k := 3) f13_5 rfl (by decide)).trans (by omega)) ((fld_sub (o := 3) (k := 2) f13_5 rfl (by decide)).trans (by omega)) ((fld_app f18_5 f23_2 rfl rfl).trans (by omega)) (f25_1.trans (by omega)) (f26_1.trans (by omega)) (f27_5.trans (by omega)))

theorem decodeBits_ofMset (d : MReg) (k : Bool) {W : Nat} (hm : W < 2 ^ 32) (h0 : fld W 0 2 = 1) (h1 : fld W 2 6 = 36) (h2 : fld W 8 3 = d.val) (h3 : fld W 11 2 = 0) (h4 : fld W 13 5 = 0) (h5 : fld W 18 1 = (bit k)) (h6 : fld W 18 5 = (bit k)) (h7 : fld W 23 4 = 2) (h8 : fld W 27 5 = 16) : decodeBits W = .ok (.mset d k) := by
  have hb0 := d.isLt
  have hb1 := bit_lt k
  rw [decodeBits_word h0 hm]
  rw [decode32.eq_1, h1]
  show (decodeV24 W : Except Reject Instr) = _
  rw [decodeV24.eq_1, h8]
  show (if fld W 23 4 = 2 ∧ fld W 18 5 < 2 then zero W 13 5 (.mset (lo8 W 8) (flag W 18)) |>.bind (zero W 11 2) else .error .unlisted : Except Reject Instr) = _
  simp only [h1, h2, h3, h4, h5, h6, h7, h8, bit_beq, xr, lo8, lane, bv, flag, zero, Except.bind, ofNat_val, ofNat_toNat, if_true, if_false, Nat.reduceBEq, Bool.false_eq_true, true_and, and_true, and_self, or_self, not_false_eq_true, ne_eq, Nat.reduceLT, Nat.reduceLeDiff, Nat.reduceEqDiff, bit_zero, bit_one, hb0, hb1]
theorem codes_encMset (d : MReg) (k : Bool) : Codes (encMset d k) (.mset d k) := by
  have hb0 := d.isLt
  have hb1 := bit_lt k
  show Codes (4, fV 16 0 0 2 (bit k) 0 d 0x24) (.mset d k)
  have F := @fV_fields (16) (0) (0) (2) ((bit k)) (0) (d.val) (0x24) (by omega) (by omega) (by omega) (by omega) (by omega) (by omega) (by omega) (by omega)
  obtain ⟨hm, f27_5, f26_1, f25_1, f23_2, f18_5, f13_5, f8_5, f2_6, f0_2⟩ := F
  exact .word hm f0_2 (decodeBits_ofMset d k hm (f0_2.trans (by omega)) (f2_6.trans (by omega)) ((fld_sub (o := 0) (k := 3) f8_5 rfl (by decide)).trans (by omega)) ((fld_sub (o := 3) (k := 2) f8_5 rfl (by decide)).trans (by omega)) (f13_5.trans (by omega)) ((fld_sub (o := 0) (k := 1) f18_5 rfl (by decide)).trans (by omega)) (f18_5.trans (by omega)) ((fld_app f23_2 (fld_app f25_1 f26_1 rfl rfl) rfl rfl).trans (by omega)) (f27_5.trans (by omega)))

theorem decodeBits_ofMmvMask (d : MReg) (a : MReg) {W : Nat} (hm : W < 2 ^ 32) (h0 : fld W 0 2 = 1) (h1 : fld W 2 6 = 36) (h2 : fld W 8 3 = d.val) (h3 : fld W 11 2 = 0) (h4 : fld W 13 3 = a.val) (h5 : fld W 16 2 = 0) (h6 : fld W 18 5 = 0) (h7 : fld W 23 4 = 0) (h8 : fld W 27 5 = 17) : decodeBits W = .ok (.mmvMask d a) := by
  have hb0 := d.isLt
  have hb1 := a.isLt
  rw [decodeBits_word h0 hm]
  rw [decode32.eq_1, h1]
  show (decodeV24 W : Except Reject Instr) = _
  rw [decodeV24.eq_1, h8]
  show (decodeMmv W : Except Reject Instr) = _
  rw [decodeMmv.eq_1, h6]
  show (zero W 23 4 (.mmvMask (lo8 W 8) (lo8 W 13)) |>.bind (zero W 11 2) |>.bind (zero W 16 2) : Except Reject Instr) = _
  simp only [h1, h2, h3, h4, h5, h6, h7, h8, xr, lo8, lane, bv, flag, zero, Except.bind, ofNat_val, ofNat_toNat, if_true, if_false, Nat.reduceBEq, Bool.false_eq_true, true_and, and_true, and_self, or_self, not_false_eq_true, ne_eq, Nat.reduceLT, Nat.reduceLeDiff, Nat.reduceEqDiff, bit_zero, bit_one]
theorem codes_encMmvMask (d : MReg) (a : MReg) : Codes (encMmvMask d a) (.mmvMask d a) := by
  have hb0 := d.isLt
  have hb1 := a.isLt
  show Codes (4, fV 17 0 0 0 0 a d 0x24) (.mmvMask d a)
  have F := @fV_fields (17) (0) (0) (0) (0) (a.val) (d.val) (0x24) (by omega) (by omega) (by omega) (by omega) (by omega) (by omega) (by omega) (by omega)
  obtain ⟨hm, f27_5, f26_1, f25_1, f23_2, f18_5, f13_5, f8_5, f2_6, f0_2⟩ := F
  exact .word hm f0_2 (decodeBits_ofMmvMask d a hm (f0_2.trans (by omega)) (f2_6.trans (by omega)) ((fld_sub (o := 0) (k := 3) f8_5 rfl (by decide)).trans (by omega)) ((fld_sub (o := 3) (k := 2) f8_5 rfl (by decide)).trans (by omega)) ((fld_sub (o := 0) (k := 3) f13_5 rfl (by decide)).trans (by omega)) ((fld_sub (o := 3) (k := 2) f13_5 rfl (by decide)).trans (by omega)) (f18_5.trans (by omega)) ((fld_app f23_2 (fld_app f25_1 f26_1 rfl rfl) rfl rfl).trans (by omega)) (f27_5.trans (by omega)))

theorem decodeBits_ofMmvToVector (d : VReg) (a : MReg) {W : Nat} (hm : W < 2 ^ 32) (h0 : fld W 0 2 = 1) (h1 : fld W 2 6 = 36) (h2 : fld W 8 5 = d.val) (h3 : fld W 13 3 = a.val) (h4 : fld W 16 2 = 0) (h5 : fld W 18 5 = 1) (h6 : fld W 23 4 = 0) (h7 : fld W 27 5 = 17) : decodeBits W = .ok (.mmvToVector d a) := by
  have hb0 := d.isLt
  have hb1 := a.isLt
  rw [decodeBits_word h0 hm]
  rw [decode32.eq_1, h1]
  show (decodeV24 W : Except Reject Instr) = _
  rw [decodeV24.eq_1, h7]
  show (decodeMmv W : Except Reject Instr) = _
  rw [decodeMmv.eq_1, h5]
  show (zero W 23 4 (.mmvToVector (xr W 8) (lo8 W 13)) |>.bind (zero W 16 2) : Except Reject Instr) = _
  simp only [h1, h2, h3, h4, h5, h6, h7, xr, lo8, lane, bv, flag, zero, Except.bind, ofNat_val, ofNat_toNat, if_true, if_false, Nat.reduceBEq, Bool.false_eq_true, true_and, and_true, and_self, or_self, not_false_eq_true, ne_eq, Nat.reduceLT, Nat.reduceLeDiff, Nat.reduceEqDiff, bit_zero, bit_one]
theorem codes_encMmvToVector (d : VReg) (a : MReg) : Codes (encMmvToVector d a) (.mmvToVector d a) := by
  have hb0 := d.isLt
  have hb1 := a.isLt
  show Codes (4, fV 17 0 0 0 1 a d 0x24) (.mmvToVector d a)
  have F := @fV_fields (17) (0) (0) (0) (1) (a.val) (d.val) (0x24) (by omega) (by omega) (by omega) (by omega) (by omega) (by omega) (by omega) (by omega)
  obtain ⟨hm, f27_5, f26_1, f25_1, f23_2, f18_5, f13_5, f8_5, f2_6, f0_2⟩ := F
  exact .word hm f0_2 (decodeBits_ofMmvToVector d a hm (f0_2.trans (by omega)) (f2_6.trans (by omega)) (f8_5.trans (by omega)) ((fld_sub (o := 0) (k := 3) f13_5 rfl (by decide)).trans (by omega)) ((fld_sub (o := 3) (k := 2) f13_5 rfl (by decide)).trans (by omega)) (f18_5.trans (by omega)) ((fld_app f23_2 (fld_app f25_1 f26_1 rfl rfl) rfl rfl).trans (by omega)) (f27_5.trans (by omega)))

theorem decodeBits_ofMmvFromVector (d : MReg) (a : VReg) {W : Nat} (hm : W < 2 ^ 32) (h0 : fld W 0 2 = 1) (h1 : fld W 2 6 = 36) (h2 : fld W 8 3 = d.val) (h3 : fld W 11 2 = 0) (h4 : fld W 13 5 = a.val) (h5 : fld W 18 5 = 2) (h6 : fld W 23 4 = 0) (h7 : fld W 27 5 = 17) : decodeBits W = .ok (.mmvFromVector d a) := by
  have hb0 := d.isLt
  have hb1 := a.isLt
  rw [decodeBits_word h0 hm]
  rw [decode32.eq_1, h1]
  show (decodeV24 W : Except Reject Instr) = _
  rw [decodeV24.eq_1, h7]
  show (decodeMmv W : Except Reject Instr) = _
  rw [decodeMmv.eq_1, h5]
  show (zero W 23 4 (.mmvFromVector (lo8 W 8) (xr W 13)) |>.bind (zero W 11 2) : Except Reject Instr) = _
  simp only [h1, h2, h3, h4, h5, h6, h7, xr, lo8, lane, bv, flag, zero, Except.bind, ofNat_val, ofNat_toNat, if_true, if_false, Nat.reduceBEq, Bool.false_eq_true, true_and, and_true, and_self, or_self, not_false_eq_true, ne_eq, Nat.reduceLT, Nat.reduceLeDiff, Nat.reduceEqDiff, bit_zero, bit_one]
theorem codes_encMmvFromVector (d : MReg) (a : VReg) : Codes (encMmvFromVector d a) (.mmvFromVector d a) := by
  have hb0 := d.isLt
  have hb1 := a.isLt
  show Codes (4, fV 17 0 0 0 2 a d 0x24) (.mmvFromVector d a)
  have F := @fV_fields (17) (0) (0) (0) (2) (a.val) (d.val) (0x24) (by omega) (by omega) (by omega) (by omega) (by omega) (by omega) (by omega) (by omega)
  obtain ⟨hm, f27_5, f26_1, f25_1, f23_2, f18_5, f13_5, f8_5, f2_6, f0_2⟩ := F
  exact .word hm f0_2 (decodeBits_ofMmvFromVector d a hm (f0_2.trans (by omega)) (f2_6.trans (by omega)) ((fld_sub (o := 0) (k := 3) f8_5 rfl (by decide)).trans (by omega)) ((fld_sub (o := 3) (k := 2) f8_5 rfl (by decide)).trans (by omega)) (f13_5.trans (by omega)) (f18_5.trans (by omega)) ((fld_app f23_2 (fld_app f25_1 f26_1 rfl rfl) rfl rfl).trans (by omega)) (f27_5.trans (by omega)))

theorem decodeBits_ofVslide_vx (m : Bool) (d : VReg) (a : VReg) (r : XReg) {W : Nat} (hm : W < 2 ^ 32) (h0 : fld W 0 2 = 1) (h1 : fld W 2 6 = 37) (h2 : fld W 8 5 = d.val) (h3 : fld W 13 5 = a.val) (h4 : fld W 18 5 = r.val) (h5 : fld W 23 2 = 1) (h6 : fld W 25 1 = (bit m)) (h7 : fld W 26 1 = 0) (h8 : fld W 27 5 = 0) : decodeBits W = .ok (.vslide m d a (.vx r)) := by
  have hb0 := bit_lt m
  have hb1 := d.isLt
  have hb2 := a.isLt
  rw [decodeBits_word h0 hm]
  simp only [h1, h2, h3, h4, h5, h6, h7, h8, decode32, decodeV25, xi, bit_beq, xr, lo8, lane, bv, flag, zero, Except.bind, ofNat_val, ofNat_toNat, if_true, if_false, Nat.reduceBEq, Bool.false_eq_true, true_and, and_true, and_self, or_self, not_false_eq_true, ne_eq, Nat.reduceLT, Nat.reduceLeDiff, Nat.reduceEqDiff, bit_zero, bit_one]
theorem decodeBits_ofVslide_vi (m : Bool) (d : VReg) (a : VReg) (r : BitVec 5) {W : Nat} (hm : W < 2 ^ 32) (h0 : fld W 0 2 = 1) (h1 : fld W 2 6 = 37) (h2 : fld W 8 5 = d.val) (h3 : fld W 13 5 = a.val) (h4 : fld W 18 5 = r.toNat) (h5 : fld W 23 2 = 2) (h6 : fld W 25 1 = (bit m)) (h7 : fld W 26 1 = 0) (h8 : fld W 27 5 = 0) : decodeBits W = .ok (.vslide m d a (.vi r)) := by
  have hb0 := bit_lt m
  have hb1 := d.isLt
  have hb2 := a.isLt
  rw [decodeBits_word h0 hm]
  simp only [h1, h2, h3, h4, h5, h6, h7, h8, decode32, decodeV25, xi, bit_beq, xr, lo8, lane, bv, flag, zero, Except.bind, ofNat_val, ofNat_toNat, if_true, if_false, Nat.reduceBEq, Bool.false_eq_true, true_and, and_true, and_self, or_self, not_false_eq_true, ne_eq, Nat.reduceLT, Nat.reduceLeDiff, Nat.reduceEqDiff, bit_zero, bit_one]
theorem codes_encVslide (m : Bool) (d : VReg) (a : VReg) (b : XISrc) : Codes (encVslide m d a b) (.vslide m d a b) := by
  have hb0 := bit_lt m
  have hb1 := d.isLt
  have hb2 := a.isLt
  cases b with
  | vx r =>
    have hbr := r.isLt
    show Codes (4, fV 0 0 (bit m) 1 r.val a d 0x25) (.vslide m d a (.vx r))
    have F := @fV_fields (0) (0) ((bit m)) (1) (r.val) (a.val) (d.val) (0x25) (by omega) (by omega) (by omega) (by omega) (by omega) (by omega) (by omega) (by omega)
    obtain ⟨hm, f27_5, f26_1, f25_1, f23_2, f18_5, f13_5, f8_5, f2_6, f0_2⟩ := F
    exact .word hm f0_2 (decodeBits_ofVslide_vx m d a r hm (f0_2.trans (by omega)) (f2_6.trans (by omega)) (f8_5.trans (by omega)) (f13_5.trans (by omega)) (f18_5.trans (by omega)) (f23_2.trans (by omega)) (f25_1.trans (by omega)) (f26_1.trans (by omega)) (f27_5.trans (by omega)))
  | vi r =>
    have hbr := r.isLt
    show Codes (4, fV 0 0 (bit m) 2 r.toNat a d 0x25) (.vslide m d a (.vi r))
    have F := @fV_fields (0) (0) ((bit m)) (2) (r.toNat) (a.val) (d.val) (0x25) (by omega) (by omega) (by omega) (by omega) (by omega) (by omega) (by omega) (by omega)
    obtain ⟨hm, f27_5, f26_1, f25_1, f23_2, f18_5, f13_5, f8_5, f2_6, f0_2⟩ := F
    exact .word hm f0_2 (decodeBits_ofVslide_vi m d a r hm (f0_2.trans (by omega)) (f2_6.trans (by omega)) (f8_5.trans (by omega)) (f13_5.trans (by omega)) (f18_5.trans (by omega)) (f23_2.trans (by omega)) (f25_1.trans (by omega)) (f26_1.trans (by omega)) (f27_5.trans (by omega)))

theorem decodeBits_ofVperm (m : Bool) (d : VReg) (a : VReg) (b : VReg) {W : Nat} (hm : W < 2 ^ 32) (h0 : fld W 0 2 = 1) (h1 : fld W 2 6 = 37) (h2 : fld W 8 5 = d.val) (h3 : fld W 13 5 = a.val) (h4 : fld W 18 5 = b.val) (h5 : fld W 23 2 = 0) (h6 : fld W 25 1 = (bit m)) (h7 : fld W 26 1 = 0) (h8 : fld W 27 5 = 1) : decodeBits W = .ok (.vperm m d a b) := by
  have hb0 := bit_lt m
  have hb1 := d.isLt
  have hb2 := a.isLt
  have hb3 := b.isLt
  rw [decodeBits_word h0 hm]
  simp only [h1, h2, h3, h4, h5, h6, h7, h8, decode32, decodeV25, bit_beq, xr, lo8, lane, bv, flag, zero, Except.bind, ofNat_val, ofNat_toNat, if_true, if_false, Nat.reduceBEq, Bool.false_eq_true, true_and, and_true, and_self, or_self, not_false_eq_true, ne_eq, Nat.reduceLT, Nat.reduceLeDiff, Nat.reduceEqDiff, bit_zero, bit_one]
theorem codes_encVperm (m : Bool) (d : VReg) (a : VReg) (b : VReg) : Codes (encVperm m d a b) (.vperm m d a b) := by
  have hb0 := bit_lt m
  have hb1 := d.isLt
  have hb2 := a.isLt
  have hb3 := b.isLt
  show Codes (4, fV 1 0 (bit m) 0 b a d 0x25) (.vperm m d a b)
  have F := @fV_fields (1) (0) ((bit m)) (0) (b.val) (a.val) (d.val) (0x25) (by omega) (by omega) (by omega) (by omega) (by omega) (by omega) (by omega) (by omega)
  obtain ⟨hm, f27_5, f26_1, f25_1, f23_2, f18_5, f13_5, f8_5, f2_6, f0_2⟩ := F
  exact .word hm f0_2 (decodeBits_ofVperm m d a b hm (f0_2.trans (by omega)) (f2_6.trans (by omega)) (f8_5.trans (by omega)) (f13_5.trans (by omega)) (f18_5.trans (by omega)) (f23_2.trans (by omega)) (f25_1.trans (by omega)) (f26_1.trans (by omega)) (f27_5.trans (by omega)))

theorem decodeBits_ofVcomp (d : VReg) (a : VReg) {W : Nat} (hm : W < 2 ^ 32) (h0 : fld W 0 2 = 1) (h1 : fld W 2 6 = 37) (h2 : fld W 8 5 = d.val) (h3 : fld W 13 5 = a.val) (h4 : fld W 18 8 = 0) (h5 : fld W 26 1 = 0) (h6 : fld W 27 5 = 2) : decodeBits W = .ok (.vcomp d a) := by
  have hb0 := d.isLt
  have hb1 := a.isLt
  rw [decodeBits_word h0 hm]
  simp only [h1, h2, h3, h4, h5, h6, decode32, decodeV25, xr, lo8, lane, bv, flag, zero, Except.bind, ofNat_val, ofNat_toNat, if_true, if_false, Nat.reduceBEq, Bool.false_eq_true, true_and, and_true, and_self, or_self, not_false_eq_true, ne_eq, Nat.reduceLT, Nat.reduceLeDiff, Nat.reduceEqDiff, bit_zero, bit_one]
theorem codes_encVcomp (d : VReg) (a : VReg) : Codes (encVcomp d a) (.vcomp d a) := by
  have hb0 := d.isLt
  have hb1 := a.isLt
  show Codes (4, fV 2 0 0 0 0 a d 0x25) (.vcomp d a)
  have F := @fV_fields (2) (0) (0) (0) (0) (a.val) (d.val) (0x25) (by omega) (by omega) (by omega) (by omega) (by omega) (by omega) (by omega) (by omega)
  obtain ⟨hm, f27_5, f26_1, f25_1, f23_2, f18_5, f13_5, f8_5, f2_6, f0_2⟩ := F
  exact .word hm f0_2 (decodeBits_ofVcomp d a hm (f0_2.trans (by omega)) (f2_6.trans (by omega)) (f8_5.trans (by omega)) (f13_5.trans (by omega)) ((fld_app f18_5 (fld_app f23_2 f25_1 rfl rfl) rfl rfl).trans (by omega)) (f26_1.trans (by omega)) (f27_5.trans (by omega)))

theorem decodeBits_ofViota (m : Bool) (d : VReg) (a : MReg) {W : Nat} (hm : W < 2 ^ 32) (h0 : fld W 0 2 = 1) (h1 : fld W 2 6 = 37) (h2 : fld W 8 5 = d.val) (h3 : fld W 13 3 = a.val) (h4 : fld W 16 2 = 0) (h5 : fld W 18 7 = 0) (h6 : fld W 25 1 = (bit m)) (h7 : fld W 26 1 = 0) (h8 : fld W 27 5 = 3) : decodeBits W = .ok (.viota m d a) := by
  have hb0 := bit_lt m
  have hb1 := d.isLt
  have hb2 := a.isLt
  rw [decodeBits_word h0 hm]
  simp only [h1, h2, h3, h4, h5, h6, h7, h8, decode32, decodeV25, bit_beq, xr, lo8, lane, bv, flag, zero, Except.bind, ofNat_val, ofNat_toNat, if_true, if_false, Nat.reduceBEq, Bool.false_eq_true, true_and, and_true, and_self, or_self, not_false_eq_true, ne_eq, Nat.reduceLT, Nat.reduceLeDiff, Nat.reduceEqDiff, bit_zero, bit_one]
theorem codes_encViota (m : Bool) (d : VReg) (a : MReg) : Codes (encViota m d a) (.viota m d a) := by
  have hb0 := bit_lt m
  have hb1 := d.isLt
  have hb2 := a.isLt
  show Codes (4, fV 3 0 (bit m) 0 0 a d 0x25) (.viota m d a)
  have F := @fV_fields (3) (0) ((bit m)) (0) (0) (a.val) (d.val) (0x25) (by omega) (by omega) (by omega) (by omega) (by omega) (by omega) (by omega) (by omega)
  obtain ⟨hm, f27_5, f26_1, f25_1, f23_2, f18_5, f13_5, f8_5, f2_6, f0_2⟩ := F
  exact .word hm f0_2 (decodeBits_ofViota m d a hm (f0_2.trans (by omega)) (f2_6.trans (by omega)) (f8_5.trans (by omega)) ((fld_sub (o := 0) (k := 3) f13_5 rfl (by decide)).trans (by omega)) ((fld_sub (o := 3) (k := 2) f13_5 rfl (by decide)).trans (by omega)) ((fld_app f18_5 f23_2 rfl rfl).trans (by omega)) (f25_1.trans (by omega)) (f26_1.trans (by omega)) (f27_5.trans (by omega)))

theorem decodeBits_ofVmv_vv (m : Bool) (d : VReg) (r : VReg) {W : Nat} (hm : W < 2 ^ 32) (h0 : fld W 0 2 = 1) (h1 : fld W 2 6 = 37) (h2 : fld W 8 5 = d.val) (h3 : fld W 13 5 = r.val) (h4 : fld W 18 5 = 0) (h5 : fld W 23 2 = 0) (h6 : fld W 25 1 = (bit m)) (h7 : fld W 26 1 = 0) (h8 : fld W 27 5 = 4) : decodeBits W = .ok (.vmv m d (.vv r)) := by
  have hb0 := bit_lt m
  have hb1 := d.isLt
  rw [decodeBits_word h0 hm]
  simp only [h1, h2, h3, h4, h5, h6, h7, h8, decode32, decodeV25, decodeVmv, bit_beq, xr, lo8, lane, bv, flag, zero, Except.bind, ofNat_val, ofNat_toNat, if_true, if_false, Nat.reduceBEq, Bool.false_eq_true, true_and, and_true, and_self, or_self, not_false_eq_true, ne_eq, Nat.reduceLT, Nat.reduceLeDiff, Nat.reduceEqDiff, bit_zero, bit_one]
theorem decodeBits_ofVmv_vx (m : Bool) (d : VReg) (r : XReg) {W : Nat} (hm : W < 2 ^ 32) (h0 : fld W 0 2 = 1) (h1 : fld W 2 6 = 37) (h2 : fld W 8 5 = d.val) (h3 : fld W 13 5 = 0) (h4 : fld W 18 5 = r.val) (h5 : fld W 23 2 = 1) (h6 : fld W 25 1 = (bit m)) (h7 : fld W 26 1 = 0) (h8 : fld W 27 5 = 4) : decodeBits W = .ok (.vmv m d (.vx r)) := by
  have hb0 := bit_lt m
  have hb1 := d.isLt
  rw [decodeBits_word h0 hm]
  simp only [h1, h2, h3, h4, h5, h6, h7, h8, decode32, decodeV25, decodeVmv, bit_beq, xr, lo8, lane, bv, flag, zero, Except.bind, ofNat_val, ofNat_toNat, if_true, if_false, Nat.reduceBEq, Bool.false_eq_true, true_and, and_true, and_self, or_self, not_false_eq_true, ne_eq, Nat.reduceLT, Nat.reduceLeDiff, Nat.reduceEqDiff, bit_zero, bit_one]
theorem decodeBits_ofVmv_vi (m : Bool) (d : VReg) (r : BitVec 5) {W : Nat} (hm : W < 2 ^ 32) (h0 : fld W 0 2 = 1) (h1 : fld W 2 6 = 37) (h2 : fld W 8 5 = d.val) (h3 : fld W 13 5 = 0) (h4 : fld W 18 5 = r.toNat) (h5 : fld W 23 2 = 2) (h6 : fld W 25 1 = (bit m)) (h7 : fld W 26 1 = 0) (h8 : fld W 27 5 = 4) : decodeBits W = .ok (.vmv m d (.vi r)) := by
  have hb0 := bit_lt m
  have hb1 := d.isLt
  rw [decodeBits_word h0 hm]
  simp only [h1, h2, h3, h4, h5, h6, h7, h8, decode32, decodeV25, decodeVmv, bit_beq, xr, lo8, lane, bv, flag, zero, Except.bind, ofNat_val, ofNat_toNat, if_true, if_false, Nat.reduceBEq, Bool.false_eq_true, true_and, and_true, and_self, or_self, not_false_eq_true, ne_eq, Nat.reduceLT, Nat.reduceLeDiff, Nat.reduceEqDiff, bit_zero, bit_one]
theorem codes_encVmv (m : Bool) (d : VReg) (b : MvSrc) : Codes (encVmv m d b) (.vmv m d b) := by
  have hb0 := bit_lt m
  have hb1 := d.isLt
  cases b with
  | vv r =>
    have hbr := r.isLt
    show Codes (4, fV 4 0 (bit m) 0 0 r.val d 0x25) (.vmv m d (.vv r))
    have F := @fV_fields (4) (0) ((bit m)) (0) (0) (r.val) (d.val) (0x25) (by omega) (by omega) (by omega) (by omega) (by omega) (by omega) (by omega) (by omega)
    obtain ⟨hm, f27_5, f26_1, f25_1, f23_2, f18_5, f13_5, f8_5, f2_6, f0_2⟩ := F
    exact .word hm f0_2 (decodeBits_ofVmv_vv m d r hm (f0_2.trans (by omega)) (f2_6.trans (by omega)) (f8_5.trans (by omega)) (f13_5.trans (by omega)) (f18_5.trans (by omega)) (f23_2.trans (by omega)) (f25_1.trans (by omega)) (f26_1.trans (by omega)) (f27_5.trans (by omega)))
  | vx r =>
    have hbr := r.isLt
    show Codes (4, fV 4 0 (bit m) 1 r.val 0 d 0x25) (.vmv m d (.vx r))
    have F := @fV_fields (4) (0) ((bit m)) (1) (r.val) (0) (d.val) (0x25) (by omega) (by omega) (by omega) (by omega) (by omega) (by omega) (by omega) (by omega)
    obtain ⟨hm, f27_5, f26_1, f25_1, f23_2, f18_5, f13_5, f8_5, f2_6, f0_2⟩ := F
    exact .word hm f0_2 (decodeBits_ofVmv_vx m d r hm (f0_2.trans (by omega)) (f2_6.trans (by omega)) (f8_5.trans (by omega)) (f13_5.trans (by omega)) (f18_5.trans (by omega)) (f23_2.trans (by omega)) (f25_1.trans (by omega)) (f26_1.trans (by omega)) (f27_5.trans (by omega)))
  | vi r =>
    have hbr := r.isLt
    show Codes (4, fV 4 0 (bit m) 2 r.toNat 0 d 0x25) (.vmv m d (.vi r))
    have F := @fV_fields (4) (0) ((bit m)) (2) (r.toNat) (0) (d.val) (0x25) (by omega) (by omega) (by omega) (by omega) (by omega) (by omega) (by omega) (by omega)
    obtain ⟨hm, f27_5, f26_1, f25_1, f23_2, f18_5, f13_5, f8_5, f2_6, f0_2⟩ := F
    exact .word hm f0_2 (decodeBits_ofVmv_vi m d r hm (f0_2.trans (by omega)) (f2_6.trans (by omega)) (f8_5.trans (by omega)) (f13_5.trans (by omega)) (f18_5.trans (by omega)) (f23_2.trans (by omega)) (f25_1.trans (by omega)) (f26_1.trans (by omega)) (f27_5.trans (by omega)))

theorem decodeBits_ofVmvx_vx (d : XReg) (a : VReg) (r : XReg) {W : Nat} (hm : W < 2 ^ 32) (h0 : fld W 0 2 = 1) (h1 : fld W 2 6 = 37) (h2 : fld W 8 5 = d.val) (h3 : fld W 13 5 = a.val) (h4 : fld W 18 5 = r.val) (h5 : fld W 23 2 = 1) (h6 : fld W 25 1 = 0) (h7 : fld W 26 1 = 0) (h8 : fld W 27 5 = 5) : decodeBits W = .ok (.vmvx d a (.vx r)) := by
  have hb0 := d.isLt
  have hb1 := a.isLt
  rw [decodeBits_word h0 hm]
  simp only [h1, h2, h3, h4, h5, h6, h7, h8, decode32, decodeV25, xi, xr, lo8, lane, bv, flag, zero, Except.bind, ofNat_val, ofNat_toNat, if_true, if_false, Nat.reduceBEq, Bool.false_eq_true, true_and, and_true, and_self, or_self, not_false_eq_true, ne_eq, Nat.reduceLT, Nat.reduceLeDiff, Nat.reduceEqDiff, bit_zero, bit_one]
theorem decodeBits_ofVmvx_vi (d : XReg) (a : VReg) (r : BitVec 5) {W : Nat} (hm : W < 2 ^ 32) (h0 : fld W 0 2 = 1) (h1 : fld W 2 6 = 37) (h2 : fld W 8 5 = d.val) (h3 : fld W 13 5 = a.val) (h4 : fld W 18 5 = r.toNat) (h5 : fld W 23 2 = 2) (h6 : fld W 25 1 = 0) (h7 : fld W 26 1 = 0) (h8 : fld W 27 5 = 5) : decodeBits W = .ok (.vmvx d a (.vi r)) := by
  have hb0 := d.isLt
  have hb1 := a.isLt
  rw [decodeBits_word h0 hm]
  simp only [h1, h2, h3, h4, h5, h6, h7, h8, decode32, decodeV25, xi, xr, lo8, lane, bv, flag, zero, Except.bind, ofNat_val, ofNat_toNat, if_true, if_false, Nat.reduceBEq, Bool.false_eq_true, true_and, and_true, and_self, or_self, not_false_eq_true, ne_eq, Nat.reduceLT, Nat.reduceLeDiff, Nat.reduceEqDiff, bit_zero, bit_one]
theorem codes_encVmvx (d : XReg) (a : VReg) (b : XISrc) : Codes (encVmvx d a b) (.vmvx d a b) := by
  have hb0 := d.isLt
  have hb1 := a.isLt
  cases b with
  | vx r =>
    have hbr := r.isLt
    show Codes (4, fV 5 0 0 1 r.val a d 0x25) (.vmvx d a (.vx r))
    have F := @fV_fields (5) (0) (0) (1) (r.val) (a.val) (d.val) (0x25) (by omega) (by omega) (by omega) (by omega) (by omega) (by omega) (by omega) (by omega)
    obtain ⟨hm, f27_5, f26_1, f25_1, f23_2, f18_5, f13_5, f8_5, f2_6, f0_2⟩ := F
    exact .word hm f0_2 (decodeBits_ofVmvx_vx d a r hm (f0_2.trans (by omega)) (f2_6.trans (by omega)) (f8_5.trans (by omega)) (f13_5.trans (by omega)) (f18_5.trans (by omega)) (f23_2.trans (by omega)) (f25_1.trans (by omega)) (f26_1.trans (by omega)) (f27_5.trans (by omega)))
  | vi r =>
    have hbr := r.isLt
    show Codes (4, fV 5 0 0 2 r.toNat a d 0x25) (.vmvx d a (.vi r))
    have F := @fV_fields (5) (0) (0) (2) (r.toNat) (a.val) (d.val) (0x25) (by omega) (by omega) (by omega) (by omega) (by omega) (by omega) (by omega) (by omega)
    obtain ⟨hm, f27_5, f26_1, f25_1, f23_2, f18_5, f13_5, f8_5, f2_6, f0_2⟩ := F
    exact .word hm f0_2 (decodeBits_ofVmvx_vi d a r hm (f0_2.trans (by omega)) (f2_6.trans (by omega)) (f8_5.trans (by omega)) (f13_5.trans (by omega)) (f18_5.trans (by omega)) (f23_2.trans (by omega)) (f25_1.trans (by omega)) (f26_1.trans (by omega)) (f27_5.trans (by omega)))

theorem decodeBits_ofVmvi (d : VReg) (b : XReg) (a : XReg) {W : Nat} (hm : W < 2 ^ 32) (h0 : fld W 0 2 = 1) (h1 : fld W 2 6 = 37) (h2 : fld W 8 5 = d.val) (h3 : fld W 13 5 = a.val) (h4 : fld W 18 5 = b.val) (h5 : fld W 23 2 = 1) (h6 : fld W 25 1 = 0) (h7 : fld W 26 1 = 0) (h8 : fld W 27 5 = 6) : decodeBits W = .ok (.vmvi d b a) := by
  have hb0 := d.isLt
  have hb1 := b.isLt
  have hb2 := a.isLt
  rw [decodeBits_word h0 hm]
  simp only [h1, h2, h3, h4, h5, h6, h7, h8, decode32, decodeV25, xr, lo8, lane, bv, flag, zero, Except.bind, ofNat_val, ofNat_toNat, if_true, if_false, Nat.reduceBEq, Bool.false_eq_true, true_and, and_true, and_self, or_self, not_false_eq_true, ne_eq, Nat.reduceLT, Nat.reduceLeDiff, Nat.reduceEqDiff, bit_zero, bit_one]
theorem codes_encVmvi (d : VReg) (b : XReg) (a : XReg) : Codes (encVmvi d b a) (.vmvi d b a) := by
  have hb0 := d.isLt
  have hb1 := b.isLt
  have hb2 := a.isLt
  show Codes (4, fV 6 0 0 1 b a d 0x25) (.vmvi d b a)
  have F := @fV_fields (6) (0) (0) (1) (b.val) (a.val) (d.val) (0x25) (by omega) (by omega) (by omega) (by omega) (by omega) (by omega) (by omega) (by omega)
  obtain ⟨hm, f27_5, f26_1, f25_1, f23_2, f18_5, f13_5, f8_5, f2_6, f0_2⟩ := F
  exact .word hm f0_2 (decodeBits_ofVmvi d b a hm (f0_2.trans (by omega)) (f2_6.trans (by omega)) (f8_5.trans (by omega)) (f13_5.trans (by omega)) (f18_5.trans (by omega)) (f23_2.trans (by omega)) (f25_1.trans (by omega)) (f26_1.trans (by omega)) (f27_5.trans (by omega)))

theorem decodeBits_ofVred (m : Bool) (toX : Bool) (o : RedOp) (d : Fin 32) (a : VReg) {W : Nat} (hm : W < 2 ^ 32) (h0 : fld W 0 2 = 1) (h1 : fld W 2 6 = 37) (h2 : fld W 8 5 = d.val) (h3 : fld W 13 5 = a.val) (h4 : fld W 18 3 = o.code) (h5 : fld W 21 1 = 0) (h6 : fld W 22 1 = (bit toX)) (h7 : fld W 23 2 = 2) (h8 : fld W 25 1 = (bit m)) (h9 : fld W 26 1 = 0) (h10 : fld W 27 5 = 7) : decodeBits W = .ok (.vred m toX o d a) := by
  have hb0 := bit_lt m
  have hb1 := bit_lt toX
  have hb2 := RedOp.code_lt o
  have hb3 := d.isLt
  have hb4 := a.isLt
  rw [decodeBits_word h0 hm]
  simp only [h1, h2, h3, h4, h5, h6, h7, h8, h9, h10, decode32, decodeV25, decodeVred, RedOp.ofCode_code, bit_beq, xr, lo8, lane, bv, flag, zero, Except.bind, ofNat_val, ofNat_toNat, if_true, if_false, Nat.reduceBEq, Bool.false_eq_true, true_and, and_true, and_self, or_self, not_false_eq_true, ne_eq, Nat.reduceLT, Nat.reduceLeDiff, Nat.reduceEqDiff, bit_zero, bit_one, hb3]
theorem codes_encVred (m : Bool) (toX : Bool) (o : RedOp) (d : Fin 32) (a : VReg) : Codes (encVred m toX o d a) (.vred m toX o d a) := by
  have hb0 := bit_lt m
  have hb1 := bit_lt toX
  have hb2 := RedOp.code_lt o
  have hb3 := d.isLt
  have hb4 := a.isLt
  show Codes (4, fV 7 0 (bit m) 2 (bit toX * 2 ^ 4 + o.code) a d 0x25) (.vred m toX o d a)
  have F := @fV_fields (7) (0) ((bit m)) (2) ((bit toX * 2 ^ 4 + o.code)) (a.val) (d.val) (0x25) (by omega) (by omega) (by omega) (by omega) (by omega) (by omega) (by omega) (by omega)
  obtain ⟨hm, f27_5, f26_1, f25_1, f23_2, f18_5, f13_5, f8_5, f2_6, f0_2⟩ := F
  exact .word hm f0_2 (decodeBits_ofVred m toX o d a hm (f0_2.trans (by omega)) (f2_6.trans (by omega)) (f8_5.trans (by omega)) (f13_5.trans (by omega)) ((fld_sub (o := 0) (k := 3) f18_5 rfl (by decide)).trans (by omega)) ((fld_sub (o := 3) (k := 1) f18_5 rfl (by decide)).trans (by omega)) ((fld_sub (o := 4) (k := 1) f18_5 rfl (by decide)).trans (by omega)) (f23_2.trans (by omega)) (f25_1.trans (by omega)) (f26_1.trans (by omega)) (f27_5.trans (by omega)))

theorem decodeBits_ofVscan (m : Bool) (d : VReg) (a : VReg) {W : Nat} (hm : W < 2 ^ 32) (h0 : fld W 0 2 = 1) (h1 : fld W 2 6 = 37) (h2 : fld W 8 5 = d.val) (h3 : fld W 13 5 = a.val) (h4 : fld W 18 7 = 0) (h5 : fld W 25 1 = (bit m)) (h6 : fld W 26 1 = 0) (h7 : fld W 27 5 = 8) : decodeBits W = .ok (.vscan m d a) := by
  have hb0 := bit_lt m
  have hb1 := d.isLt
  have hb2 := a.isLt
  rw [decodeBits_word h0 hm]
  simp only [h1, h2, h3, h4, h5, h6, h7, decode32, decodeV25, bit_beq, xr, lo8, lane, bv, flag, zero, Except.bind, ofNat_val, ofNat_toNat, if_true, if_false, Nat.reduceBEq, Bool.false_eq_true, true_and, and_true, and_self, or_self, not_false_eq_true, ne_eq, Nat.reduceLT, Nat.reduceLeDiff, Nat.reduceEqDiff, bit_zero, bit_one]
theorem codes_encVscan (m : Bool) (d : VReg) (a : VReg) : Codes (encVscan m d a) (.vscan m d a) := by
  have hb0 := bit_lt m
  have hb1 := d.isLt
  have hb2 := a.isLt
  show Codes (4, fV 8 0 (bit m) 0 0 a d 0x25) (.vscan m d a)
  have F := @fV_fields (8) (0) ((bit m)) (0) (0) (a.val) (d.val) (0x25) (by omega) (by omega) (by omega) (by omega) (by omega) (by omega) (by omega) (by omega)
  obtain ⟨hm, f27_5, f26_1, f25_1, f23_2, f18_5, f13_5, f8_5, f2_6, f0_2⟩ := F
  exact .word hm f0_2 (decodeBits_ofVscan m d a hm (f0_2.trans (by omega)) (f2_6.trans (by omega)) (f8_5.trans (by omega)) (f13_5.trans (by omega)) ((fld_app f18_5 f23_2 rfl rfl).trans (by omega)) (f25_1.trans (by omega)) (f26_1.trans (by omega)) (f27_5.trans (by omega)))

theorem decodeBits_ofVsegredSum (m : Bool) (d : VReg) (a : VReg) (b : XReg) {W : Nat} (hm : W < 2 ^ 32) (h0 : fld W 0 2 = 1) (h1 : fld W 2 6 = 37) (h2 : fld W 8 5 = d.val) (h3 : fld W 13 5 = a.val) (h4 : fld W 18 5 = b.val) (h5 : fld W 23 2 = 1) (h6 : fld W 25 1 = (bit m)) (h7 : fld W 26 1 = 0) (h8 : fld W 27 5 = 9) : decodeBits W = .ok (.vsegredSum m d a b) := by
  have hb0 := bit_lt m
  have hb1 := d.isLt
  have hb2 := a.isLt
  have hb3 := b.isLt
  rw [decodeBits_word h0 hm]
  simp only [h1, h2, h3, h4, h5, h6, h7, h8, decode32, decodeV25, decodeVsegred, bit_beq, xr, lo8, lane, bv, flag, zero, Except.bind, ofNat_val, ofNat_toNat, if_true, if_false, Nat.reduceBEq, Bool.false_eq_true, true_and, and_true, and_self, or_self, not_false_eq_true, ne_eq, Nat.reduceLT, Nat.reduceLeDiff, Nat.reduceEqDiff, bit_zero, bit_one]
theorem codes_encVsegredSum (m : Bool) (d : VReg) (a : VReg) (b : XReg) : Codes (encVsegredSum m d a b) (.vsegredSum m d a b) := by
  have hb0 := bit_lt m
  have hb1 := d.isLt
  have hb2 := a.isLt
  have hb3 := b.isLt
  show Codes (4, fV 9 0 (bit m) 1 b a d 0x25) (.vsegredSum m d a b)
  have F := @fV_fields (9) (0) ((bit m)) (1) (b.val) (a.val) (d.val) (0x25) (by omega) (by omega) (by omega) (by omega) (by omega) (by omega) (by omega) (by omega)
  obtain ⟨hm, f27_5, f26_1, f25_1, f23_2, f18_5, f13_5, f8_5, f2_6, f0_2⟩ := F
  exact .word hm f0_2 (decodeBits_ofVsegredSum m d a b hm (f0_2.trans (by omega)) (f2_6.trans (by omega)) (f8_5.trans (by omega)) (f13_5.trans (by omega)) (f18_5.trans (by omega)) (f23_2.trans (by omega)) (f25_1.trans (by omega)) (f26_1.trans (by omega)) (f27_5.trans (by omega)))

theorem decodeBits_ofVsegredMax (m : Bool) (d : VReg) (a : VReg) (b : XReg) {W : Nat} (hm : W < 2 ^ 32) (h0 : fld W 0 2 = 1) (h1 : fld W 2 6 = 37) (h2 : fld W 8 5 = d.val) (h3 : fld W 13 5 = a.val) (h4 : fld W 18 5 = b.val) (h5 : fld W 23 2 = 1) (h6 : fld W 25 1 = (bit m)) (h7 : fld W 26 1 = 0) (h8 : fld W 27 5 = 10) : decodeBits W = .ok (.vsegredMax m d a b) := by
  have hb0 := bit_lt m
  have hb1 := d.isLt
  have hb2 := a.isLt
  have hb3 := b.isLt
  rw [decodeBits_word h0 hm]
  simp only [h1, h2, h3, h4, h5, h6, h7, h8, decode32, decodeV25, decodeVsegred, bit_beq, xr, lo8, lane, bv, flag, zero, Except.bind, ofNat_val, ofNat_toNat, if_true, if_false, Nat.reduceBEq, Bool.false_eq_true, true_and, and_true, and_self, or_self, not_false_eq_true, ne_eq, Nat.reduceLT, Nat.reduceLeDiff, Nat.reduceEqDiff, bit_zero, bit_one]
theorem codes_encVsegredMax (m : Bool) (d : VReg) (a : VReg) (b : XReg) : Codes (encVsegredMax m d a b) (.vsegredMax m d a b) := by
  have hb0 := bit_lt m
  have hb1 := d.isLt
  have hb2 := a.isLt
  have hb3 := b.isLt
  show Codes (4, fV 10 0 (bit m) 1 b a d 0x25) (.vsegredMax m d a b)
  have F := @fV_fields (10) (0) ((bit m)) (1) (b.val) (a.val) (d.val) (0x25) (by omega) (by omega) (by omega) (by omega) (by omega) (by omega) (by omega) (by omega)
  obtain ⟨hm, f27_5, f26_1, f25_1, f23_2, f18_5, f13_5, f8_5, f2_6, f0_2⟩ := F
  exact .word hm f0_2 (decodeBits_ofVsegredMax m d a b hm (f0_2.trans (by omega)) (f2_6.trans (by omega)) (f8_5.trans (by omega)) (f13_5.trans (by omega)) (f18_5.trans (by omega)) (f23_2.trans (by omega)) (f25_1.trans (by omega)) (f26_1.trans (by omega)) (f27_5.trans (by omega)))

theorem decodeBits_ofVsegredMin (m : Bool) (d : VReg) (a : VReg) (b : XReg) {W : Nat} (hm : W < 2 ^ 32) (h0 : fld W 0 2 = 1) (h1 : fld W 2 6 = 37) (h2 : fld W 8 5 = d.val) (h3 : fld W 13 5 = a.val) (h4 : fld W 18 5 = b.val) (h5 : fld W 23 2 = 1) (h6 : fld W 25 1 = (bit m)) (h7 : fld W 26 1 = 0) (h8 : fld W 27 5 = 11) : decodeBits W = .ok (.vsegredMin m d a b) := by
  have hb0 := bit_lt m
  have hb1 := d.isLt
  have hb2 := a.isLt
  have hb3 := b.isLt
  rw [decodeBits_word h0 hm]
  simp only [h1, h2, h3, h4, h5, h6, h7, h8, decode32, decodeV25, decodeVsegred, bit_beq, xr, lo8, lane, bv, flag, zero, Except.bind, ofNat_val, ofNat_toNat, if_true, if_false, Nat.reduceBEq, Bool.false_eq_true, true_and, and_true, and_self, or_self, not_false_eq_true, ne_eq, Nat.reduceLT, Nat.reduceLeDiff, Nat.reduceEqDiff, bit_zero, bit_one]
theorem codes_encVsegredMin (m : Bool) (d : VReg) (a : VReg) (b : XReg) : Codes (encVsegredMin m d a b) (.vsegredMin m d a b) := by
  have hb0 := bit_lt m
  have hb1 := d.isLt
  have hb2 := a.isLt
  have hb3 := b.isLt
  show Codes (4, fV 11 0 (bit m) 1 b a d 0x25) (.vsegredMin m d a b)
  have F := @fV_fields (11) (0) ((bit m)) (1) (b.val) (a.val) (d.val) (0x25) (by omega) (by omega) (by omega) (by omega) (by omega) (by omega) (by omega) (by omega)
  obtain ⟨hm, f27_5, f26_1, f25_1, f23_2, f18_5, f13_5, f8_5, f2_6, f0_2⟩ := F
  exact .word hm f0_2 (decodeBits_ofVsegredMin m d a b hm (f0_2.trans (by omega)) (f2_6.trans (by omega)) (f8_5.trans (by omega)) (f13_5.trans (by omega)) (f18_5.trans (by omega)) (f23_2.trans (by omega)) (f25_1.trans (by omega)) (f26_1.trans (by omega)) (f27_5.trans (by omega)))

theorem decodeBits_ofVrcp (c : Bool) (m : Bool) (d : VReg) (a : VReg) {W : Nat} (hm : W < 2 ^ 32) (h0 : fld W 0 2 = 1) (h1 : fld W 2 6 = 38) (h2 : fld W 8 5 = d.val) (h3 : fld W 13 5 = a.val) (h4 : fld W 18 7 = 0) (h5 : fld W 25 1 = (bit m)) (h6 : fld W 26 1 = (bit c)) (h7 : fld W 27 5 = 0) : decodeBits W = .ok (.vrcp c m d a) := by
  have hb0 := bit_lt c
  have hb1 := bit_lt m
  have hb2 := d.isLt
  have hb3 := a.isLt
  rw [decodeBits_word h0 hm]
  rw [decode32.eq_1, h1]
  show (decodeV26 W : Except Reject Instr) = _
  rw [decodeV26.eq_1, h7]
  show (zero W 18 7 (.vrcp (flag W 26) (flag W 25) (xr W 8) (xr W 13)) : Except Reject Instr) = _
  simp only [h1, h2, h3, h4, h5, h6, h7, bit_beq, xr, lo8, lane, bv, flag, zero, Except.bind, ofNat_val, ofNat_toNat, if_true, if_false, Nat.reduceBEq, Bool.false_eq_true, true_and, and_true, and_self, or_self, not_false_eq_true, ne_eq, Nat.reduceLT, Nat.reduceLeDiff, Nat.reduceEqDiff, bit_zero, bit_one]
theorem codes_encVrcp (c : Bool) (m : Bool) (d : VReg) (a : VReg) : Codes (encVrcp c m d a) (.vrcp c m d a) := by
  have hb0 := bit_lt c
  have hb1 := bit_lt m
  have hb2 := d.isLt
  have hb3 := a.isLt
  show Codes (4, fV 0 (bit c) (bit m) 0 0 a d 0x26) (.vrcp c m d a)
  have F := @fV_fields (0) ((bit c)) ((bit m)) (0) (0) (a.val) (d.val) (0x26) (by omega) (by omega) (by omega) (by omega) (by omega) (by omega) (by omega) (by omega)
  obtain ⟨hm, f27_5, f26_1, f25_1, f23_2, f18_5, f13_5, f8_5, f2_6, f0_2⟩ := F
  exact .word hm f0_2 (decodeBits_ofVrcp c m d a hm (f0_2.trans (by omega)) (f2_6.trans (by omega)) (f8_5.trans (by omega)) (f13_5.trans (by omega)) ((fld_app f18_5 f23_2 rfl rfl).trans (by omega)) (f25_1.trans (by omega)) (f26_1.trans (by omega)) (f27_5.trans (by omega)))

theorem decodeBits_ofVrsq (c : Bool) (m : Bool) (d : VReg) (a : VReg) {W : Nat} (hm : W < 2 ^ 32) (h0 : fld W 0 2 = 1) (h1 : fld W 2 6 = 38) (h2 : fld W 8 5 = d.val) (h3 : fld W 13 5 = a.val) (h4 : fld W 18 7 = 0) (h5 : fld W 25 1 = (bit m)) (h6 : fld W 26 1 = (bit c)) (h7 : fld W 27 5 = 1) : decodeBits W = .ok (.vrsq c m d a) := by
  have hb0 := bit_lt c
  have hb1 := bit_lt m
  have hb2 := d.isLt
  have hb3 := a.isLt
  rw [decodeBits_word h0 hm]
  rw [decode32.eq_1, h1]
  show (decodeV26 W : Except Reject Instr) = _
  rw [decodeV26.eq_1, h7]
  show (zero W 18 7 (.vrsq (flag W 26) (flag W 25) (xr W 8) (xr W 13)) : Except Reject Instr) = _
  simp only [h1, h2, h3, h4, h5, h6, h7, bit_beq, xr, lo8, lane, bv, flag, zero, Except.bind, ofNat_val, ofNat_toNat, if_true, if_false, Nat.reduceBEq, Bool.false_eq_true, true_and, and_true, and_self, or_self, not_false_eq_true, ne_eq, Nat.reduceLT, Nat.reduceLeDiff, Nat.reduceEqDiff, bit_zero, bit_one]
theorem codes_encVrsq (c : Bool) (m : Bool) (d : VReg) (a : VReg) : Codes (encVrsq c m d a) (.vrsq c m d a) := by
  have hb0 := bit_lt c
  have hb1 := bit_lt m
  have hb2 := d.isLt
  have hb3 := a.isLt
  show Codes (4, fV 1 (bit c) (bit m) 0 0 a d 0x26) (.vrsq c m d a)
  have F := @fV_fields (1) ((bit c)) ((bit m)) (0) (0) (a.val) (d.val) (0x26) (by omega) (by omega) (by omega) (by omega) (by omega) (by omega) (by omega) (by omega)
  obtain ⟨hm, f27_5, f26_1, f25_1, f23_2, f18_5, f13_5, f8_5, f2_6, f0_2⟩ := F
  exact .word hm f0_2 (decodeBits_ofVrsq c m d a hm (f0_2.trans (by omega)) (f2_6.trans (by omega)) (f8_5.trans (by omega)) (f13_5.trans (by omega)) ((fld_app f18_5 f23_2 rfl rfl).trans (by omega)) (f25_1.trans (by omega)) (f26_1.trans (by omega)) (f27_5.trans (by omega)))

theorem decodeBits_ofVsqrt (c : Bool) (m : Bool) (d : VReg) (a : VReg) {W : Nat} (hm : W < 2 ^ 32) (h0 : fld W 0 2 = 1) (h1 : fld W 2 6 = 38) (h2 : fld W 8 5 = d.val) (h3 : fld W 13 5 = a.val) (h4 : fld W 18 7 = 0) (h5 : fld W 25 1 = (bit m)) (h6 : fld W 26 1 = (bit c)) (h7 : fld W 27 5 = 2) : decodeBits W = .ok (.vsqrt c m d a) := by
  have hb0 := bit_lt c
  have hb1 := bit_lt m
  have hb2 := d.isLt
  have hb3 := a.isLt
  rw [decodeBits_word h0 hm]
  rw [decode32.eq_1, h1]
  show (decodeV26 W : Except Reject Instr) = _
  rw [decodeV26.eq_1, h7]
  show (zero W 18 7 (.vsqrt (flag W 26) (flag W 25) (xr W 8) (xr W 13)) : Except Reject Instr) = _
  simp only [h1, h2, h3, h4, h5, h6, h7, bit_beq, xr, lo8, lane, bv, flag, zero, Except.bind, ofNat_val, ofNat_toNat, if_true, if_false, Nat.reduceBEq, Bool.false_eq_true, true_and, and_true, and_self, or_self, not_false_eq_true, ne_eq, Nat.reduceLT, Nat.reduceLeDiff, Nat.reduceEqDiff, bit_zero, bit_one]
theorem codes_encVsqrt (c : Bool) (m : Bool) (d : VReg) (a : VReg) : Codes (encVsqrt c m d a) (.vsqrt c m d a) := by
  have hb0 := bit_lt c
  have hb1 := bit_lt m
  have hb2 := d.isLt
  have hb3 := a.isLt
  show Codes (4, fV 2 (bit c) (bit m) 0 0 a d 0x26) (.vsqrt c m d a)
  have F := @fV_fields (2) ((bit c)) ((bit m)) (0) (0) (a.val) (d.val) (0x26) (by omega) (by omega) (by omega) (by omega) (by omega) (by omega) (by omega) (by omega)
  obtain ⟨hm, f27_5, f26_1, f25_1, f23_2, f18_5, f13_5, f8_5, f2_6, f0_2⟩ := F
  exact .word hm f0_2 (decodeBits_ofVsqrt c m d a hm (f0_2.trans (by omega)) (f2_6.trans (by omega)) (f8_5.trans (by omega)) (f13_5.trans (by omega)) ((fld_app f18_5 f23_2 rfl rfl).trans (by omega)) (f25_1.trans (by omega)) (f26_1.trans (by omega)) (f27_5.trans (by omega)))

theorem decodeBits_ofVexp2 (c : Bool) (m : Bool) (d : VReg) (a : VReg) {W : Nat} (hm : W < 2 ^ 32) (h0 : fld W 0 2 = 1) (h1 : fld W 2 6 = 38) (h2 : fld W 8 5 = d.val) (h3 : fld W 13 5 = a.val) (h4 : fld W 18 7 = 0) (h5 : fld W 25 1 = (bit m)) (h6 : fld W 26 1 = (bit c)) (h7 : fld W 27 5 = 3) : decodeBits W = .ok (.vexp2 c m d a) := by
  have hb0 := bit_lt c
  have hb1 := bit_lt m
  have hb2 := d.isLt
  have hb3 := a.isLt
  rw [decodeBits_word h0 hm]
  rw [decode32.eq_1, h1]
  show (decodeV26 W : Except Reject Instr) = _
  rw [decodeV26.eq_1, h7]
  show (zero W 18 7 (.vexp2 (flag W 26) (flag W 25) (xr W 8) (xr W 13)) : Except Reject Instr) = _
  simp only [h1, h2, h3, h4, h5, h6, h7, bit_beq, xr, lo8, lane, bv, flag, zero, Except.bind, ofNat_val, ofNat_toNat, if_true, if_false, Nat.reduceBEq, Bool.false_eq_true, true_and, and_true, and_self, or_self, not_false_eq_true, ne_eq, Nat.reduceLT, Nat.reduceLeDiff, Nat.reduceEqDiff, bit_zero, bit_one]
theorem codes_encVexp2 (c : Bool) (m : Bool) (d : VReg) (a : VReg) : Codes (encVexp2 c m d a) (.vexp2 c m d a) := by
  have hb0 := bit_lt c
  have hb1 := bit_lt m
  have hb2 := d.isLt
  have hb3 := a.isLt
  show Codes (4, fV 3 (bit c) (bit m) 0 0 a d 0x26) (.vexp2 c m d a)
  have F := @fV_fields (3) ((bit c)) ((bit m)) (0) (0) (a.val) (d.val) (0x26) (by omega) (by omega) (by omega) (by omega) (by omega) (by omega) (by omega) (by omega)
  obtain ⟨hm, f27_5, f26_1, f25_1, f23_2, f18_5, f13_5, f8_5, f2_6, f0_2⟩ := F
  exact .word hm f0_2 (decodeBits_ofVexp2 c m d a hm (f0_2.trans (by omega)) (f2_6.trans (by omega)) (f8_5.trans (by omega)) (f13_5.trans (by omega)) ((fld_app f18_5 f23_2 rfl rfl).trans (by omega)) (f25_1.trans (by omega)) (f26_1.trans (by omega)) (f27_5.trans (by omega)))

theorem decodeBits_ofVlog2 (c : Bool) (m : Bool) (d : VReg) (a : VReg) {W : Nat} (hm : W < 2 ^ 32) (h0 : fld W 0 2 = 1) (h1 : fld W 2 6 = 38) (h2 : fld W 8 5 = d.val) (h3 : fld W 13 5 = a.val) (h4 : fld W 18 7 = 0) (h5 : fld W 25 1 = (bit m)) (h6 : fld W 26 1 = (bit c)) (h7 : fld W 27 5 = 4) : decodeBits W = .ok (.vlog2 c m d a) := by
  have hb0 := bit_lt c
  have hb1 := bit_lt m
  have hb2 := d.isLt
  have hb3 := a.isLt
  rw [decodeBits_word h0 hm]
  rw [decode32.eq_1, h1]
  show (decodeV26 W : Except Reject Instr) = _
  rw [decodeV26.eq_1, h7]
  show (zero W 18 7 (.vlog2 (flag W 26) (flag W 25) (xr W 8) (xr W 13)) : Except Reject Instr) = _
  simp only [h1, h2, h3, h4, h5, h6, h7, bit_beq, xr, lo8, lane, bv, flag, zero, Except.bind, ofNat_val, ofNat_toNat, if_true, if_false, Nat.reduceBEq, Bool.false_eq_true, true_and, and_true, and_self, or_self, not_false_eq_true, ne_eq, Nat.reduceLT, Nat.reduceLeDiff, Nat.reduceEqDiff, bit_zero, bit_one]
theorem codes_encVlog2 (c : Bool) (m : Bool) (d : VReg) (a : VReg) : Codes (encVlog2 c m d a) (.vlog2 c m d a) := by
  have hb0 := bit_lt c
  have hb1 := bit_lt m
  have hb2 := d.isLt
  have hb3 := a.isLt
  show Codes (4, fV 4 (bit c) (bit m) 0 0 a d 0x26) (.vlog2 c m d a)
  have F := @fV_fields (4) ((bit c)) ((bit m)) (0) (0) (a.val) (d.val) (0x26) (by omega) (by omega) (by omega) (by omega) (by omega) (by omega) (by omega) (by omega)
  obtain ⟨hm, f27_5, f26_1, f25_1, f23_2, f18_5, f13_5, f8_5, f2_6, f0_2⟩ := F
  exact .word hm f0_2 (decodeBits_ofVlog2 c m d a hm (f0_2.trans (by omega)) (f2_6.trans (by omega)) (f8_5.trans (by omega)) (f13_5.trans (by omega)) ((fld_app f18_5 f23_2 rfl rfl).trans (by omega)) (f25_1.trans (by omega)) (f26_1.trans (by omega)) (f27_5.trans (by omega)))

theorem decodeBits_ofVtanh (c : Bool) (m : Bool) (d : VReg) (a : VReg) {W : Nat} (hm : W < 2 ^ 32) (h0 : fld W 0 2 = 1) (h1 : fld W 2 6 = 38) (h2 : fld W 8 5 = d.val) (h3 : fld W 13 5 = a.val) (h4 : fld W 18 7 = 0) (h5 : fld W 25 1 = (bit m)) (h6 : fld W 26 1 = (bit c)) (h7 : fld W 27 5 = 5) : decodeBits W = .ok (.vtanh c m d a) := by
  have hb0 := bit_lt c
  have hb1 := bit_lt m
  have hb2 := d.isLt
  have hb3 := a.isLt
  rw [decodeBits_word h0 hm]
  rw [decode32.eq_1, h1]
  show (decodeV26 W : Except Reject Instr) = _
  rw [decodeV26.eq_1, h7]
  show (zero W 18 7 (.vtanh (flag W 26) (flag W 25) (xr W 8) (xr W 13)) : Except Reject Instr) = _
  simp only [h1, h2, h3, h4, h5, h6, h7, bit_beq, xr, lo8, lane, bv, flag, zero, Except.bind, ofNat_val, ofNat_toNat, if_true, if_false, Nat.reduceBEq, Bool.false_eq_true, true_and, and_true, and_self, or_self, not_false_eq_true, ne_eq, Nat.reduceLT, Nat.reduceLeDiff, Nat.reduceEqDiff, bit_zero, bit_one]
theorem codes_encVtanh (c : Bool) (m : Bool) (d : VReg) (a : VReg) : Codes (encVtanh c m d a) (.vtanh c m d a) := by
  have hb0 := bit_lt c
  have hb1 := bit_lt m
  have hb2 := d.isLt
  have hb3 := a.isLt
  show Codes (4, fV 5 (bit c) (bit m) 0 0 a d 0x26) (.vtanh c m d a)
  have F := @fV_fields (5) ((bit c)) ((bit m)) (0) (0) (a.val) (d.val) (0x26) (by omega) (by omega) (by omega) (by omega) (by omega) (by omega) (by omega) (by omega)
  obtain ⟨hm, f27_5, f26_1, f25_1, f23_2, f18_5, f13_5, f8_5, f2_6, f0_2⟩ := F
  exact .word hm f0_2 (decodeBits_ofVtanh c m d a hm (f0_2.trans (by omega)) (f2_6.trans (by omega)) (f8_5.trans (by omega)) (f13_5.trans (by omega)) ((fld_app f18_5 f23_2 rfl rfl).trans (by omega)) (f25_1.trans (by omega)) (f26_1.trans (by omega)) (f27_5.trans (by omega)))

theorem decodeBits_ofVcvt (r : CvtMode) (c : Bool) (m : Bool) (d : VReg) (a : VReg) {W : Nat} (hm : W < 2 ^ 32) (h0 : fld W 0 2 = 1) (h1 : fld W 2 6 = 39) (h2 : fld W 8 5 = d.val) (h3 : fld W 13 5 = a.val) (h4 : fld W 18 7 = 0) (h5 : fld W 25 1 = (bit m)) (h6 : fld W 26 1 = (bit c)) (h7 : fld W 27 5 = r.code) : decodeBits W = .ok (.vcvt r c m d a) := by
  have hb0 := CvtMode.code_lt r
  have hb1 := bit_lt c
  have hb2 := bit_lt m
  have hb3 := d.isLt
  have hb4 := a.isLt
  rw [decodeBits_word h0 hm]
  cases r <;> simp only [CvtMode.code, Nat.reduceAdd] at h7 <;> simp only [h1, h2, h3, h4, h5, h6, h7, decode32, decodeV27, decodeVcvt, bit_beq, xr, lo8, lane, bv, flag, zero, Except.bind, ofNat_val, ofNat_toNat, if_true, if_false, Nat.reduceBEq, Bool.false_eq_true, true_and, and_true, and_self, or_self, not_false_eq_true, ne_eq, Nat.reduceLT, Nat.reduceLeDiff, Nat.reduceEqDiff, bit_zero, bit_one]
theorem codes_encVcvt (r : CvtMode) (c : Bool) (m : Bool) (d : VReg) (a : VReg) : Codes (encVcvt r c m d a) (.vcvt r c m d a) := by
  have hb0 := CvtMode.code_lt r
  have hb1 := bit_lt c
  have hb2 := bit_lt m
  have hb3 := d.isLt
  have hb4 := a.isLt
  show Codes (4, fV r.code (bit c) (bit m) 0 0 a d 0x27) (.vcvt r c m d a)
  have F := @fV_fields (r.code) ((bit c)) ((bit m)) (0) (0) (a.val) (d.val) (0x27) (by omega) (by omega) (by omega) (by omega) (by omega) (by omega) (by omega) (by omega)
  obtain ⟨hm, f27_5, f26_1, f25_1, f23_2, f18_5, f13_5, f8_5, f2_6, f0_2⟩ := F
  exact .word hm f0_2 (decodeBits_ofVcvt r c m d a hm (f0_2.trans (by omega)) (f2_6.trans (by omega)) (f8_5.trans (by omega)) (f13_5.trans (by omega)) ((fld_app f18_5 f23_2 rfl rfl).trans (by omega)) (f25_1.trans (by omega)) (f26_1.trans (by omega)) (f27_5.trans (by omega)))

theorem decodeBits_ofVcvtScaled (r : CvtMode) (c : Bool) (m : Bool) (d : VReg) (a : VReg) {W : Nat} (hm : W < 2 ^ 32) (h0 : fld W 0 2 = 1) (h1 : fld W 2 6 = 39) (h2 : fld W 8 5 = d.val) (h3 : fld W 13 5 = a.val) (h4 : fld W 18 7 = 7) (h5 : fld W 25 1 = (bit m)) (h6 : fld W 26 1 = (bit c)) (h7 : fld W 27 5 = r.code) : decodeBits W = .ok (.vcvtScaled r c m d a) := by
  have hb0 := CvtMode.code_lt r
  have hb1 := bit_lt c
  have hb2 := bit_lt m
  have hb3 := d.isLt
  have hb4 := a.isLt
  rw [decodeBits_word h0 hm]
  cases r <;> simp only [CvtMode.code, Nat.reduceAdd] at h7 <;> simp only [h1, h2, h3, h4, h5, h6, h7, decode32, decodeV27, decodeVcvt, bit_beq, xr, lo8, lane, bv, flag, zero, Except.bind, ofNat_val, ofNat_toNat, if_true, if_false, Nat.reduceBEq, Bool.false_eq_true, true_and, and_true, and_self, or_self, not_false_eq_true, ne_eq, Nat.reduceLT, Nat.reduceLeDiff, Nat.reduceEqDiff, bit_zero, bit_one]
theorem codes_encVcvtScaled (r : CvtMode) (c : Bool) (m : Bool) (d : VReg) (a : VReg) : Codes (encVcvtScaled r c m d a) (.vcvtScaled r c m d a) := by
  have hb0 := CvtMode.code_lt r
  have hb1 := bit_lt c
  have hb2 := bit_lt m
  have hb3 := d.isLt
  have hb4 := a.isLt
  show Codes (4, fV r.code (bit c) (bit m) 0 7 a d 0x27) (.vcvtScaled r c m d a)
  have F := @fV_fields (r.code) ((bit c)) ((bit m)) (0) (7) (a.val) (d.val) (0x27) (by omega) (by omega) (by omega) (by omega) (by omega) (by omega) (by omega) (by omega)
  obtain ⟨hm, f27_5, f26_1, f25_1, f23_2, f18_5, f13_5, f8_5, f2_6, f0_2⟩ := F
  exact .word hm f0_2 (decodeBits_ofVcvtScaled r c m d a hm (f0_2.trans (by omega)) (f2_6.trans (by omega)) (f8_5.trans (by omega)) (f13_5.trans (by omega)) ((fld_app f18_5 f23_2 rfl rfl).trans (by omega)) (f25_1.trans (by omega)) (f26_1.trans (by omega)) (f27_5.trans (by omega)))

theorem decodeBits_ofVamax (m : Bool) (a : VReg) {W : Nat} (hm : W < 2 ^ 32) (h0 : fld W 0 2 = 1) (h1 : fld W 2 6 = 39) (h2 : fld W 8 5 = 0) (h3 : fld W 13 5 = a.val) (h4 : fld W 18 7 = 0) (h5 : fld W 25 1 = (bit m)) (h6 : fld W 26 1 = 0) (h7 : fld W 27 5 = 4) : decodeBits W = .ok (.vamax m a) := by
  have hb0 := bit_lt m
  have hb1 := a.isLt
  rw [decodeBits_word h0 hm]
  rw [decode32.eq_1, h1]
  show (decodeV27 W : Except Reject Instr) = _
  rw [decodeV27.eq_1, h7]
  show (zero W 18 7 (.vamax (flag W 25) (xr W 13)) |>.bind (zero W 26 1) |>.bind (zero W 8 5) : Except Reject Instr) = _
  simp only [h1, h2, h3, h4, h5, h6, h7, bit_beq, xr, lo8, lane, bv, flag, zero, Except.bind, ofNat_val, ofNat_toNat, if_true, if_false, Nat.reduceBEq, Bool.false_eq_true, true_and, and_true, and_self, or_self, not_false_eq_true, ne_eq, Nat.reduceLT, Nat.reduceLeDiff, Nat.reduceEqDiff, bit_zero, bit_one]
theorem codes_encVamax (m : Bool) (a : VReg) : Codes (encVamax m a) (.vamax m a) := by
  have hb0 := bit_lt m
  have hb1 := a.isLt
  show Codes (4, fV 4 0 (bit m) 0 0 a 0 0x27) (.vamax m a)
  have F := @fV_fields (4) (0) ((bit m)) (0) (0) (a.val) (0) (0x27) (by omega) (by omega) (by omega) (by omega) (by omega) (by omega) (by omega) (by omega)
  obtain ⟨hm, f27_5, f26_1, f25_1, f23_2, f18_5, f13_5, f8_5, f2_6, f0_2⟩ := F
  exact .word hm f0_2 (decodeBits_ofVamax m a hm (f0_2.trans (by omega)) (f2_6.trans (by omega)) (f8_5.trans (by omega)) (f13_5.trans (by omega)) ((fld_app f18_5 f23_2 rfl rfl).trans (by omega)) (f25_1.trans (by omega)) (f26_1.trans (by omega)) (f27_5.trans (by omega)))

theorem decodeBits_ofVscale (m : Bool) (f : BitVec 5) (d : VReg) (a : VReg) {W : Nat} (h : Instr.wf (.vscale m f d a) = true) (hm : W < 2 ^ 32) (h0 : fld W 0 2 = 1) (h1 : fld W 2 6 = 39) (h2 : fld W 8 5 = d.val) (h3 : fld W 13 5 = a.val) (h4 : fld W 18 3 = f.toNat % 8) (h5 : fld W 18 5 = f.toNat) (h6 : fld W 23 2 = 2) (h7 : fld W 25 1 = (bit m)) (h8 : fld W 26 1 = 0) (h9 : fld W 27 5 = 5) : decodeBits W = .ok (.vscale m f d a) := by
  have hb0 := bit_lt m
  have hb1 := f.isLt
  have hb2 := d.isLt
  have hb3 := a.isLt
  have hz0 : f.toNat % 8 ≠ 7 := by intro hc; simp [Instr.wf, Instr.check, hc] at h
  rw [decodeBits_word h0 hm]
  simp only [h1, h2, h3, h4, h5, h6, h7, h8, h9, decode32, decodeV27, decodeVscale, bit_beq, xr, lo8, lane, bv, flag, zero, Except.bind, ofNat_val, ofNat_toNat, if_true, if_false, Nat.reduceBEq, Bool.false_eq_true, true_and, and_true, and_self, or_self, not_false_eq_true, ne_eq, Nat.reduceLT, Nat.reduceLeDiff, Nat.reduceEqDiff, bit_zero, bit_one, hz0]
theorem codes_encVscale (m : Bool) (f : BitVec 5) (d : VReg) (a : VReg) (h : Instr.wf (.vscale m f d a) = true) : Codes (encVscale m f d a) (.vscale m f d a) := by
  have hb0 := bit_lt m
  have hb1 := f.isLt
  have hb2 := d.isLt
  have hb3 := a.isLt
  have hz0 : f.toNat % 8 ≠ 7 := by intro hc; simp [Instr.wf, Instr.check, hc] at h
  show Codes (4, fV 5 0 (bit m) 2 f.toNat a d 0x27) (.vscale m f d a)
  have F := @fV_fields (5) (0) ((bit m)) (2) (f.toNat) (a.val) (d.val) (0x27) (by omega) (by omega) (by omega) (by omega) (by omega) (by omega) (by omega) (by omega)
  obtain ⟨hm, f27_5, f26_1, f25_1, f23_2, f18_5, f13_5, f8_5, f2_6, f0_2⟩ := F
  exact .word hm f0_2 (decodeBits_ofVscale m f d a h hm (f0_2.trans (by omega)) (f2_6.trans (by omega)) (f8_5.trans (by omega)) (f13_5.trans (by omega)) ((fld_sub (o := 0) (k := 3) f18_5 rfl (by decide)).trans (by omega)) (f18_5.trans (by omega)) (f23_2.trans (by omega)) (f25_1.trans (by omega)) (f26_1.trans (by omega)) (f27_5.trans (by omega)))

theorem decodeBits_ofVscore (m : Bool) (d : VReg) (a : VReg) (b : XReg) {W : Nat} (hm : W < 2 ^ 32) (h0 : fld W 0 2 = 1) (h1 : fld W 2 6 = 40) (h2 : fld W 8 5 = d.val) (h3 : fld W 13 5 = a.val) (h4 : fld W 18 5 = b.val) (h5 : fld W 23 2 = 1) (h6 : fld W 25 1 = (bit m)) (h7 : fld W 26 1 = 0) (h8 : fld W 27 5 = 0) : decodeBits W = .ok (.vscore m d a b) := by
  have hb0 := bit_lt m
  have hb1 := d.isLt
  have hb2 := a.isLt
  have hb3 := b.isLt
  rw [decodeBits_word h0 hm]
  rw [decode32.eq_1, h1]
  show (decodeV28 W : Except Reject Instr) = _
  rw [decodeV28.eq_1, h8, h5]
  show (zero W 26 1 (.vscore (flag W 25) (xr W 8) (xr W 13) (xr W 18)) : Except Reject Instr) = _
  simp only [h1, h2, h3, h4, h5, h6, h7, h8, bit_beq, xr, lo8, lane, bv, flag, zero, Except.bind, ofNat_val, ofNat_toNat, if_true, if_false, Nat.reduceBEq, Bool.false_eq_true, true_and, and_true, and_self, or_self, not_false_eq_true, ne_eq, Nat.reduceLT, Nat.reduceLeDiff, Nat.reduceEqDiff, bit_zero, bit_one]
theorem codes_encVscore (m : Bool) (d : VReg) (a : VReg) (b : XReg) : Codes (encVscore m d a b) (.vscore m d a b) := by
  have hb0 := bit_lt m
  have hb1 := d.isLt
  have hb2 := a.isLt
  have hb3 := b.isLt
  show Codes (4, fV 0 0 (bit m) 1 b a d 0x28) (.vscore m d a b)
  have F := @fV_fields (0) (0) ((bit m)) (1) (b.val) (a.val) (d.val) (0x28) (by omega) (by omega) (by omega) (by omega) (by omega) (by omega) (by omega) (by omega)
  obtain ⟨hm, f27_5, f26_1, f25_1, f23_2, f18_5, f13_5, f8_5, f2_6, f0_2⟩ := F
  exact .word hm f0_2 (decodeBits_ofVscore m d a b hm (f0_2.trans (by omega)) (f2_6.trans (by omega)) (f8_5.trans (by omega)) (f13_5.trans (by omega)) (f18_5.trans (by omega)) (f23_2.trans (by omega)) (f25_1.trans (by omega)) (f26_1.trans (by omega)) (f27_5.trans (by omega)))

theorem decodeBits_ofVexpm (c : Bool) (m : Bool) (d : VReg) (a : VReg) (b : XReg) {W : Nat} (hm : W < 2 ^ 32) (h0 : fld W 0 2 = 1) (h1 : fld W 2 6 = 40) (h2 : fld W 8 5 = d.val) (h3 : fld W 13 5 = a.val) (h4 : fld W 18 5 = b.val) (h5 : fld W 23 2 = 1) (h6 : fld W 25 1 = (bit m)) (h7 : fld W 26 1 = (bit c)) (h8 : fld W 27 5 = 1) : decodeBits W = .ok (.vexpm c m d a b) := by
  have hb0 := bit_lt c
  have hb1 := bit_lt m
  have hb2 := d.isLt
  have hb3 := a.isLt
  have hb4 := b.isLt
  rw [decodeBits_word h0 hm]
  rw [decode32.eq_1, h1]
  show (decodeV28 W : Except Reject Instr) = _
  rw [decodeV28.eq_1, h8, h5]
  show (.ok (.vexpm (flag W 26) (flag W 25) (xr W 8) (xr W 13) (xr W 18)) : Except Reject Instr) = _
  simp only [h1, h2, h3, h4, h5, h6, h7, h8, bit_beq, xr, lo8, lane, bv, flag, zero, Except.bind, ofNat_val, ofNat_toNat, if_true, if_false, Nat.reduceBEq, Bool.false_eq_true, true_and, and_true, and_self, or_self, not_false_eq_true, ne_eq, Nat.reduceLT, Nat.reduceLeDiff, Nat.reduceEqDiff, bit_zero, bit_one]
theorem codes_encVexpm (c : Bool) (m : Bool) (d : VReg) (a : VReg) (b : XReg) : Codes (encVexpm c m d a b) (.vexpm c m d a b) := by
  have hb0 := bit_lt c
  have hb1 := bit_lt m
  have hb2 := d.isLt
  have hb3 := a.isLt
  have hb4 := b.isLt
  show Codes (4, fV 1 (bit c) (bit m) 1 b a d 0x28) (.vexpm c m d a b)
  have F := @fV_fields (1) ((bit c)) ((bit m)) (1) (b.val) (a.val) (d.val) (0x28) (by omega) (by omega) (by omega) (by omega) (by omega) (by omega) (by omega) (by omega)
  obtain ⟨hm, f27_5, f26_1, f25_1, f23_2, f18_5, f13_5, f8_5, f2_6, f0_2⟩ := F
  exact .word hm f0_2 (decodeBits_ofVexpm c m d a b hm (f0_2.trans (by omega)) (f2_6.trans (by omega)) (f8_5.trans (by omega)) (f13_5.trans (by omega)) (f18_5.trans (by omega)) (f23_2.trans (by omega)) (f25_1.trans (by omega)) (f26_1.trans (by omega)) (f27_5.trans (by omega)))

theorem decodeBits_ofVaccp (m : Bool) (d : VReg) (a : VReg) (b : XReg) {W : Nat} (hm : W < 2 ^ 32) (h0 : fld W 0 2 = 1) (h1 : fld W 2 6 = 40) (h2 : fld W 8 5 = d.val) (h3 : fld W 13 5 = a.val) (h4 : fld W 18 5 = b.val) (h5 : fld W 23 2 = 1) (h6 : fld W 25 1 = (bit m)) (h7 : fld W 26 1 = 0) (h8 : fld W 27 5 = 2) : decodeBits W = .ok (.vaccp m d a b) := by
  have hb0 := bit_lt m
  have hb1 := d.isLt
  have hb2 := a.isLt
  have hb3 := b.isLt
  rw [decodeBits_word h0 hm]
  rw [decode32.eq_1, h1]
  show (decodeV28 W : Except Reject Instr) = _
  rw [decodeV28.eq_1, h8, h5]
  show (zero W 26 1 (.vaccp (flag W 25) (xr W 8) (xr W 13) (xr W 18)) : Except Reject Instr) = _
  simp only [h1, h2, h3, h4, h5, h6, h7, h8, bit_beq, xr, lo8, lane, bv, flag, zero, Except.bind, ofNat_val, ofNat_toNat, if_true, if_false, Nat.reduceBEq, Bool.false_eq_true, true_and, and_true, and_self, or_self, not_false_eq_true, ne_eq, Nat.reduceLT, Nat.reduceLeDiff, Nat.reduceEqDiff, bit_zero, bit_one]
theorem codes_encVaccp (m : Bool) (d : VReg) (a : VReg) (b : XReg) : Codes (encVaccp m d a b) (.vaccp m d a b) := by
  have hb0 := bit_lt m
  have hb1 := d.isLt
  have hb2 := a.isLt
  have hb3 := b.isLt
  show Codes (4, fV 2 0 (bit m) 1 b a d 0x28) (.vaccp m d a b)
  have F := @fV_fields (2) (0) ((bit m)) (1) (b.val) (a.val) (d.val) (0x28) (by omega) (by omega) (by omega) (by omega) (by omega) (by omega) (by omega) (by omega)
  obtain ⟨hm, f27_5, f26_1, f25_1, f23_2, f18_5, f13_5, f8_5, f2_6, f0_2⟩ := F
  exact .word hm f0_2 (decodeBits_ofVaccp m d a b hm (f0_2.trans (by omega)) (f2_6.trans (by omega)) (f8_5.trans (by omega)) (f13_5.trans (by omega)) (f18_5.trans (by omega)) (f23_2.trans (by omega)) (f25_1.trans (by omega)) (f26_1.trans (by omega)) (f27_5.trans (by omega)))

theorem decodeBits_ofSsoft (d : XReg) (b : XReg) (a : VReg) {W : Nat} (h : Instr.wf (.ssoft d b a) = true) (hm : W < 2 ^ 32) (h0 : fld W 0 2 = 1) (h1 : fld W 2 6 = 40) (h2 : fld W 8 5 = d.val) (h3 : fld W 13 5 = a.val) (h4 : fld W 18 5 = b.val) (h5 : fld W 23 2 = 1) (h6 : fld W 25 2 = 0) (h7 : fld W 27 5 = 3) : decodeBits W = .ok (.ssoft d b a) := by
  have hb0 := d.isLt
  have hb1 := b.isLt
  have hb2 := a.isLt
  have hz0 : b.val ≤ 30 ∧ d.val ≠ b.val ∧ d.val ≠ b.val + 1 := by
    by_contra hc
    have : ¬ (b.val ≤ 30 ∧ d ≠ b ∧ d.val ≠ b.val + 1) := fun x => hc ⟨x.1, fun y => x.2.1 (Fin.ext y), x.2.2⟩
    simp [Instr.wf, Instr.check, this] at h
  rw [decodeBits_word h0 hm]
  simp only [h1, h2, h3, h4, h5, h6, h7, decode32, decodeSsoft, decodeV28, xr, lo8, lane, bv, flag, zero, Except.bind, ofNat_val, ofNat_toNat, if_true, if_false, Nat.reduceBEq, Bool.false_eq_true, true_and, and_true, and_self, or_self, not_false_eq_true, ne_eq, Nat.reduceLT, Nat.reduceLeDiff, Nat.reduceEqDiff, bit_zero, bit_one, hz0]
theorem codes_encSsoft (d : XReg) (b : XReg) (a : VReg) (h : Instr.wf (.ssoft d b a) = true) : Codes (encSsoft d b a) (.ssoft d b a) := by
  have hb0 := d.isLt
  have hb1 := b.isLt
  have hb2 := a.isLt
  have hz0 : b.val ≤ 30 ∧ d.val ≠ b.val ∧ d.val ≠ b.val + 1 := by
    by_contra hc
    have : ¬ (b.val ≤ 30 ∧ d ≠ b ∧ d.val ≠ b.val + 1) := fun x => hc ⟨x.1, fun y => x.2.1 (Fin.ext y), x.2.2⟩
    simp [Instr.wf, Instr.check, this] at h
  show Codes (4, fV 3 0 0 1 b a d 0x28) (.ssoft d b a)
  have F := @fV_fields (3) (0) (0) (1) (b.val) (a.val) (d.val) (0x28) (by omega) (by omega) (by omega) (by omega) (by omega) (by omega) (by omega) (by omega)
  obtain ⟨hm, f27_5, f26_1, f25_1, f23_2, f18_5, f13_5, f8_5, f2_6, f0_2⟩ := F
  exact .word hm f0_2 (decodeBits_ofSsoft d b a h hm (f0_2.trans (by omega)) (f2_6.trans (by omega)) (f8_5.trans (by omega)) (f13_5.trans (by omega)) (f18_5.trans (by omega)) (f23_2.trans (by omega)) ((fld_app f25_1 f26_1 rfl rfl).trans (by omega)) (f27_5.trans (by omega)))

theorem decodeBits_ofVld (m : Bool) (g : Lane4) (d : VReg) (b : XReg) {W : Nat} (hm : W < 2 ^ 32) (h0 : fld W 0 2 = 1) (h1 : fld W 2 6 = 41) (h2 : fld W 8 5 = d.val) (h3 : fld W 13 5 = b.val) (h4 : fld W 18 5 = 0) (h5 : fld W 23 2 = g.val) (h6 : fld W 25 1 = (bit m)) (h7 : fld W 26 3 = 0) (h8 : fld W 29 3 = 0) : decodeBits W = .ok (.vld m g d b) := by
  have hb0 := bit_lt m
  have hb1 := g.isLt
  have hb2 := d.isLt
  have hb3 := b.isLt
  rw [decodeBits_word h0 hm]
  rw [decode32.eq_1, h1]
  show (decodeVld W : Except Reject Instr) = _
  rw [decodeVld.eq_1, h8]
  show (zero W 26 3 (.vld (flag W 25) (lane W 23) (xr W 8) (xr W 13)) |>.bind (zero W 18 5) : Except Reject Instr) = _
  simp only [h1, h2, h3, h4, h5, h6, h7, h8, bit_beq, xr, lo8, lane, bv, flag, zero, Except.bind, ofNat_val, ofNat_toNat, if_true, if_false, Nat.reduceBEq, Bool.false_eq_true, true_and, and_true, and_self, or_self, not_false_eq_true, ne_eq, Nat.reduceLT, Nat.reduceLeDiff, Nat.reduceEqDiff, bit_zero, bit_one]
theorem codes_encVld (m : Bool) (g : Lane4) (d : VReg) (b : XReg) : Codes (encVld m g d b) (.vld m g d b) := by
  have hb0 := bit_lt m
  have hb1 := g.isLt
  have hb2 := d.isLt
  have hb3 := b.isLt
  show Codes (4, fVM 0 0 (bit m) g 0 b d 0x29) (.vld m g d b)
  have F := @fVM_fields (0) (0) ((bit m)) (g.val) (0) (b.val) (d.val) (0x29) (by omega) (by omega) (by omega) (by omega) (by omega) (by omega) (by omega) (by omega)
  obtain ⟨hm, f29_3, f26_3, f25_1, f23_2, f18_5, f13_5, f8_5, f2_6, f0_2⟩ := F
  exact .word hm f0_2 (decodeBits_ofVld m g d b hm (f0_2.trans (by omega)) (f2_6.trans (by omega)) (f8_5.trans (by omega)) (f13_5.trans (by omega)) (f18_5.trans (by omega)) (f23_2.trans (by omega)) (f25_1.trans (by omega)) (f26_3.trans (by omega)) (f29_3.trans (by omega)))

theorem decodeBits_ofVldStrided (m : Bool) (g : Lane4) (d : VReg) (b : XReg) (s : XReg) {W : Nat} (hm : W < 2 ^ 32) (h0 : fld W 0 2 = 1) (h1 : fld W 2 6 = 41) (h2 : fld W 8 5 = d.val) (h3 : fld W 13 5 = b.val) (h4 : fld W 18 5 = s.val) (h5 : fld W 23 2 = g.val) (h6 : fld W 25 1 = (bit m)) (h7 : fld W 26 3 = 0) (h8 : fld W 29 3 = 1) : decodeBits W = .ok (.vldStrided m g d b s) := by
  have hb0 := bit_lt m
  have hb1 := g.isLt
  have hb2 := d.isLt
  have hb3 := b.isLt
  have hb4 := s.isLt
  rw [decodeBits_word h0 hm]
  rw [decode32.eq_1, h1]
  show (decodeVld W : Except Reject Instr) = _
  rw [decodeVld.eq_1, h8]
  show (zero W 26 3 (.vldStrided (flag W 25) (lane W 23) (xr W 8) (xr W 13) (xr W 18)) : Except Reject Instr) = _
  simp only [h1, h2, h3, h4, h5, h6, h7, h8, bit_beq, xr, lo8, lane, bv, flag, zero, Except.bind, ofNat_val, ofNat_toNat, if_true, if_false, Nat.reduceBEq, Bool.false_eq_true, true_and, and_true, and_self, or_self, not_false_eq_true, ne_eq, Nat.reduceLT, Nat.reduceLeDiff, Nat.reduceEqDiff, bit_zero, bit_one]
theorem codes_encVldStrided (m : Bool) (g : Lane4) (d : VReg) (b : XReg) (s : XReg) : Codes (encVldStrided m g d b s) (.vldStrided m g d b s) := by
  have hb0 := bit_lt m
  have hb1 := g.isLt
  have hb2 := d.isLt
  have hb3 := b.isLt
  have hb4 := s.isLt
  show Codes (4, fVM 1 0 (bit m) g s b d 0x29) (.vldStrided m g d b s)
  have F := @fVM_fields (1) (0) ((bit m)) (g.val) (s.val) (b.val) (d.val) (0x29) (by omega) (by omega) (by omega) (by omega) (by omega) (by omega) (by omega) (by omega)
  obtain ⟨hm, f29_3, f26_3, f25_1, f23_2, f18_5, f13_5, f8_5, f2_6, f0_2⟩ := F
  exact .word hm f0_2 (decodeBits_ofVldStrided m g d b s hm (f0_2.trans (by omega)) (f2_6.trans (by omega)) (f8_5.trans (by omega)) (f13_5.trans (by omega)) (f18_5.trans (by omega)) (f23_2.trans (by omega)) (f25_1.trans (by omega)) (f26_3.trans (by omega)) (f29_3.trans (by omega)))

theorem decodeBits_ofVldseg (n : Fin 8) (m : Bool) (g : Lane4) (d : VReg) (b : XReg) (s : XReg) {W : Nat} (h : Instr.wf (.vldseg n m g d b s) = true) (hm : W < 2 ^ 32) (h0 : fld W 0 2 = 1) (h1 : fld W 2 6 = 41) (h2 : fld W 8 5 = d.val) (h3 : fld W 13 5 = b.val) (h4 : fld W 18 5 = s.val) (h5 : fld W 23 2 = g.val) (h6 : fld W 25 1 = (bit m)) (h7 : fld W 26 3 = n.val) (h8 : fld W 29 3 = 2) : decodeBits W = .ok (.vldseg n m g d b s) := by
  have hb0 := n.isLt
  have hb1 := bit_lt m
  have hb2 := g.isLt
  have hb3 := d.isLt
  have hb4 := b.isLt
  have hb5 := s.isLt
  have hz0 : ¬ n.val = 0 := by intro hc; have hc : n = 0 := Fin.ext hc; simp [Instr.wf, Instr.check, hc] at h
  rw [decodeBits_word h0 hm]
  rw [decode32.eq_1, h1]
  show (decodeVld W : Except Reject Instr) = _
  rw [decodeVld.eq_1, h8]
  show (if fld W 26 3 = 0 then .error .unlisted else .ok (.vldseg (lo8 W 26) (flag W 25) (lane W 23) (xr W 8) (xr W 13) (xr W 18)) : Except Reject Instr) = _
  simp only [h1, h2, h3, h4, h5, h6, h7, h8, bit_beq, xr, lo8, lane, bv, flag, zero, Except.bind, ofNat_val, ofNat_toNat, if_true, if_false, Nat.reduceBEq, Bool.false_eq_true, true_and, and_true, and_self, or_self, not_false_eq_true, ne_eq, Nat.reduceLT, Nat.reduceLeDiff, Nat.reduceEqDiff, bit_zero, bit_one, hb0, hz0]
theorem codes_encVldseg (n : Fin 8) (m : Bool) (g : Lane4) (d : VReg) (b : XReg) (s : XReg) (h : Instr.wf (.vldseg n m g d b s) = true) : Codes (encVldseg n m g d b s) (.vldseg n m g d b s) := by
  have hb0 := n.isLt
  have hb1 := bit_lt m
  have hb2 := g.isLt
  have hb3 := d.isLt
  have hb4 := b.isLt
  have hb5 := s.isLt
  have hz0 : ¬ n.val = 0 := by intro hc; have hc : n = 0 := Fin.ext hc; simp [Instr.wf, Instr.check, hc] at h
  show Codes (4, fVM 2 n (bit m) g s b d 0x29) (.vldseg n m g d b s)
  have F := @fVM_fields (2) (n.val) ((bit m)) (g.val) (s.val) (b.val) (d.val) (0x29) (by omega) (by omega) (by omega) (by omega) (by omega) (by omega) (by omega) (by omega)
  obtain ⟨hm, f29_3, f26_3, f25_1, f23_2, f18_5, f13_5, f8_5, f2_6, f0_2⟩ := F
  exact .word hm f0_2 (decodeBits_ofVldseg n m g d b s h hm (f0_2.trans (by omega)) (f2_6.trans (by omega)) (f8_5.trans (by omega)) (f13_5.trans (by omega)) (f18_5.trans (by omega)) (f23_2.trans (by omega)) (f25_1.trans (by omega)) (f26_3.trans (by omega)) (f29_3.trans (by omega)))

theorem decodeBits_ofVwait (x : WideScope) (q : WaitCond) (m : Bool) (g : Lane4) (v : VReg) (b : XReg) (i : VReg) {W : Nat} (h : Instr.wf (.vwait x q m g v b i) = true) (hm : W < 2 ^ 32) (h0 : fld W 0 2 = 1) (h1 : fld W 2 6 = 41) (h2 : fld W 8 5 = v.val) (h3 : fld W 13 5 = b.val) (h4 : fld W 18 5 = i.val) (h5 : fld W 23 2 = g.val) (h6 : fld W 25 1 = (bit m)) (h7 : fld W 26 2 = q.code) (h8 : fld W 28 1 = x.code) (h9 : fld W 29 3 = 3) : decodeBits W = .ok (.vwait x q m g v b i) := by
  have hb0 := WideScope.code_lt x
  have hb1 := WaitCond.code_lt q
  have hb2 := bit_lt m
  have hb3 := g.isLt
  have hb4 := v.isLt
  have hb5 := b.isLt
  have hb6 := i.isLt
  have hz0 : ¬ b.val = 31 := by intro hc; simp [Instr.wf, Instr.check, hc] at h
  rw [decodeBits_word h0 hm]
  rw [decode32.eq_1, h1]
  show (decodeVld W : Except Reject Instr) = _
  rw [decodeVld.eq_1, h9]
  show (if fld W 13 5 = 31 then .error .unlisted else .ok (.vwait (WideScope.ofCode (fld W 28 1)) (WaitCond.ofCode (fld W 26 2)) (flag W 25) (lane W 23) (xr W 8) (xr W 13) (xr W 18)) : Except Reject Instr) = _
  simp only [h1, h2, h3, h4, h5, h6, h7, h8, h9, WaitCond.ofCode_code, WideScope.ofCode_code, bit_beq, xr, lo8, lane, bv, flag, zero, Except.bind, ofNat_val, ofNat_toNat, if_true, if_false, Nat.reduceBEq, Bool.false_eq_true, true_and, and_true, and_self, or_self, not_false_eq_true, ne_eq, Nat.reduceLT, Nat.reduceLeDiff, Nat.reduceEqDiff, bit_zero, bit_one, hz0]
theorem codes_encVwait (x : WideScope) (q : WaitCond) (m : Bool) (g : Lane4) (v : VReg) (b : XReg) (i : VReg) (h : Instr.wf (.vwait x q m g v b i) = true) : Codes (encVwait x q m g v b i) (.vwait x q m g v b i) := by
  have hb0 := WideScope.code_lt x
  have hb1 := WaitCond.code_lt q
  have hb2 := bit_lt m
  have hb3 := g.isLt
  have hb4 := v.isLt
  have hb5 := b.isLt
  have hb6 := i.isLt
  have hz0 : ¬ b.val = 31 := by intro hc; simp [Instr.wf, Instr.check, hc] at h
  show Codes (4, fVM 3 (x.code * 2 ^ 2 + q.code) (bit m) g i b v 0x29) (.vwait x q m g v b i)
  have F := @fVM_fields (3) ((x.code * 2 ^ 2 + q.code)) ((bit m)) (g.val) (i.val) (b.val) (v.val) (0x29) (by omega) (by omega) (by omega) (by omega) (by omega) (by omega) (by omega) (by omega)
  obtain ⟨hm, f29_3, f26_3, f25_1, f23_2, f18_5, f13_5, f8_5, f2_6, f0_2⟩ := F
  exact .word hm f0_2 (decodeBits_ofVwait x q m g v b i h hm (f0_2.trans (by omega)) (f2_6.trans (by omega)) (f8_5.trans (by omega)) (f13_5.trans (by omega)) (f18_5.trans (by omega)) (f23_2.trans (by omega)) (f25_1.trans (by omega)) ((fld_sub (o := 0) (k := 2) f26_3 rfl (by decide)).trans (by omega)) ((fld_sub (o := 2) (k := 1) f26_3 rfl (by decide)).trans (by omega)) (f29_3.trans (by omega)))

theorem decodeBits_ofVst (m : Bool) (g : Lane4) (s : VReg) (b : XReg) {W : Nat} (hm : W < 2 ^ 32) (h0 : fld W 0 2 = 1) (h1 : fld W 2 6 = 42) (h2 : fld W 8 5 = s.val) (h3 : fld W 13 5 = b.val) (h4 : fld W 18 5 = 0) (h5 : fld W 23 2 = g.val) (h6 : fld W 25 1 = (bit m)) (h7 : fld W 26 3 = 0) (h8 : fld W 29 3 = 0) : decodeBits W = .ok (.vst m g s b) := by
  have hb0 := bit_lt m
  have hb1 := g.isLt
  have hb2 := s.isLt
  have hb3 := b.isLt
  rw [decodeBits_word h0 hm]
  rw [decode32.eq_1, h1]
  show (decodeVst W : Except Reject Instr) = _
  rw [decodeVst.eq_1, h8]
  show (zero W 26 3 (.vst (flag W 25) (lane W 23) (xr W 8) (xr W 13)) |>.bind (zero W 18 5) : Except Reject Instr) = _
  simp only [h1, h2, h3, h4, h5, h6, h7, h8, bit_beq, xr, lo8, lane, bv, flag, zero, Except.bind, ofNat_val, ofNat_toNat, if_true, if_false, Nat.reduceBEq, Bool.false_eq_true, true_and, and_true, and_self, or_self, not_false_eq_true, ne_eq, Nat.reduceLT, Nat.reduceLeDiff, Nat.reduceEqDiff, bit_zero, bit_one]
theorem codes_encVst (m : Bool) (g : Lane4) (s : VReg) (b : XReg) : Codes (encVst m g s b) (.vst m g s b) := by
  have hb0 := bit_lt m
  have hb1 := g.isLt
  have hb2 := s.isLt
  have hb3 := b.isLt
  show Codes (4, fVM 0 0 (bit m) g 0 b s 0x2A) (.vst m g s b)
  have F := @fVM_fields (0) (0) ((bit m)) (g.val) (0) (b.val) (s.val) (0x2A) (by omega) (by omega) (by omega) (by omega) (by omega) (by omega) (by omega) (by omega)
  obtain ⟨hm, f29_3, f26_3, f25_1, f23_2, f18_5, f13_5, f8_5, f2_6, f0_2⟩ := F
  exact .word hm f0_2 (decodeBits_ofVst m g s b hm (f0_2.trans (by omega)) (f2_6.trans (by omega)) (f8_5.trans (by omega)) (f13_5.trans (by omega)) (f18_5.trans (by omega)) (f23_2.trans (by omega)) (f25_1.trans (by omega)) (f26_3.trans (by omega)) (f29_3.trans (by omega)))

theorem decodeBits_ofVstStrided (m : Bool) (g : Lane4) (s : VReg) (b : XReg) (i : XReg) {W : Nat} (hm : W < 2 ^ 32) (h0 : fld W 0 2 = 1) (h1 : fld W 2 6 = 42) (h2 : fld W 8 5 = s.val) (h3 : fld W 13 5 = b.val) (h4 : fld W 18 5 = i.val) (h5 : fld W 23 2 = g.val) (h6 : fld W 25 1 = (bit m)) (h7 : fld W 26 3 = 0) (h8 : fld W 29 3 = 1) : decodeBits W = .ok (.vstStrided m g s b i) := by
  have hb0 := bit_lt m
  have hb1 := g.isLt
  have hb2 := s.isLt
  have hb3 := b.isLt
  have hb4 := i.isLt
  rw [decodeBits_word h0 hm]
  rw [decode32.eq_1, h1]
  show (decodeVst W : Except Reject Instr) = _
  rw [decodeVst.eq_1, h8]
  show (zero W 26 3 (.vstStrided (flag W 25) (lane W 23) (xr W 8) (xr W 13) (xr W 18)) : Except Reject Instr) = _
  simp only [h1, h2, h3, h4, h5, h6, h7, h8, bit_beq, xr, lo8, lane, bv, flag, zero, Except.bind, ofNat_val, ofNat_toNat, if_true, if_false, Nat.reduceBEq, Bool.false_eq_true, true_and, and_true, and_self, or_self, not_false_eq_true, ne_eq, Nat.reduceLT, Nat.reduceLeDiff, Nat.reduceEqDiff, bit_zero, bit_one]
theorem codes_encVstStrided (m : Bool) (g : Lane4) (s : VReg) (b : XReg) (i : XReg) : Codes (encVstStrided m g s b i) (.vstStrided m g s b i) := by
  have hb0 := bit_lt m
  have hb1 := g.isLt
  have hb2 := s.isLt
  have hb3 := b.isLt
  have hb4 := i.isLt
  show Codes (4, fVM 1 0 (bit m) g i b s 0x2A) (.vstStrided m g s b i)
  have F := @fVM_fields (1) (0) ((bit m)) (g.val) (i.val) (b.val) (s.val) (0x2A) (by omega) (by omega) (by omega) (by omega) (by omega) (by omega) (by omega) (by omega)
  obtain ⟨hm, f29_3, f26_3, f25_1, f23_2, f18_5, f13_5, f8_5, f2_6, f0_2⟩ := F
  exact .word hm f0_2 (decodeBits_ofVstStrided m g s b i hm (f0_2.trans (by omega)) (f2_6.trans (by omega)) (f8_5.trans (by omega)) (f13_5.trans (by omega)) (f18_5.trans (by omega)) (f23_2.trans (by omega)) (f25_1.trans (by omega)) (f26_3.trans (by omega)) (f29_3.trans (by omega)))

theorem decodeBits_ofVstseg (n : Fin 8) (m : Bool) (g : Lane4) (s : VReg) (b : XReg) (i : XReg) {W : Nat} (h : Instr.wf (.vstseg n m g s b i) = true) (hm : W < 2 ^ 32) (h0 : fld W 0 2 = 1) (h1 : fld W 2 6 = 42) (h2 : fld W 8 5 = s.val) (h3 : fld W 13 5 = b.val) (h4 : fld W 18 5 = i.val) (h5 : fld W 23 2 = g.val) (h6 : fld W 25 1 = (bit m)) (h7 : fld W 26 3 = n.val) (h8 : fld W 29 3 = 2) : decodeBits W = .ok (.vstseg n m g s b i) := by
  have hb0 := n.isLt
  have hb1 := bit_lt m
  have hb2 := g.isLt
  have hb3 := s.isLt
  have hb4 := b.isLt
  have hb5 := i.isLt
  have hz0 : ¬ n.val = 0 := by intro hc; have hc : n = 0 := Fin.ext hc; simp [Instr.wf, Instr.check, hc] at h
  rw [decodeBits_word h0 hm]
  rw [decode32.eq_1, h1]
  show (decodeVst W : Except Reject Instr) = _
  rw [decodeVst.eq_1, h8]
  show (if fld W 26 3 = 0 then .error .unlisted else .ok (.vstseg (lo8 W 26) (flag W 25) (lane W 23) (xr W 8) (xr W 13) (xr W 18)) : Except Reject Instr) = _
  simp only [h1, h2, h3, h4, h5, h6, h7, h8, bit_beq, xr, lo8, lane, bv, flag, zero, Except.bind, ofNat_val, ofNat_toNat, if_true, if_false, Nat.reduceBEq, Bool.false_eq_true, true_and, and_true, and_self, or_self, not_false_eq_true, ne_eq, Nat.reduceLT, Nat.reduceLeDiff, Nat.reduceEqDiff, bit_zero, bit_one, hb0, hz0]
theorem codes_encVstseg (n : Fin 8) (m : Bool) (g : Lane4) (s : VReg) (b : XReg) (i : XReg) (h : Instr.wf (.vstseg n m g s b i) = true) : Codes (encVstseg n m g s b i) (.vstseg n m g s b i) := by
  have hb0 := n.isLt
  have hb1 := bit_lt m
  have hb2 := g.isLt
  have hb3 := s.isLt
  have hb4 := b.isLt
  have hb5 := i.isLt
  have hz0 : ¬ n.val = 0 := by intro hc; have hc : n = 0 := Fin.ext hc; simp [Instr.wf, Instr.check, hc] at h
  show Codes (4, fVM 2 n (bit m) g i b s 0x2A) (.vstseg n m g s b i)
  have F := @fVM_fields (2) (n.val) ((bit m)) (g.val) (i.val) (b.val) (s.val) (0x2A) (by omega) (by omega) (by omega) (by omega) (by omega) (by omega) (by omega) (by omega)
  obtain ⟨hm, f29_3, f26_3, f25_1, f23_2, f18_5, f13_5, f8_5, f2_6, f0_2⟩ := F
  exact .word hm f0_2 (decodeBits_ofVstseg n m g s b i h hm (f0_2.trans (by omega)) (f2_6.trans (by omega)) (f8_5.trans (by omega)) (f13_5.trans (by omega)) (f18_5.trans (by omega)) (f23_2.trans (by omega)) (f25_1.trans (by omega)) (f26_3.trans (by omega)) (f29_3.trans (by omega)))

theorem decodeBits_ofVldx (m : Bool) (g : Lane4) (d : VReg) (b : XReg) (i : VReg) {W : Nat} (hm : W < 2 ^ 32) (h0 : fld W 0 2 = 1) (h1 : fld W 2 6 = 43) (h2 : fld W 8 5 = d.val) (h3 : fld W 13 5 = b.val) (h4 : fld W 18 5 = i.val) (h5 : fld W 23 2 = g.val) (h6 : fld W 25 1 = (bit m)) (h7 : fld W 26 3 = 0) (h8 : fld W 29 3 = 0) : decodeBits W = .ok (.vldx m g d b i) := by
  have hb0 := bit_lt m
  have hb1 := g.isLt
  have hb2 := d.isLt
  have hb3 := b.isLt
  have hb4 := i.isLt
  rw [decodeBits_word h0 hm]
  rw [decode32.eq_1, h1]
  show (decodeVidx W : Except Reject Instr) = _
  rw [decodeVidx.eq_1, h8, h7]
  show (.ok (.vldx (flag W 25) (lane W 23) (xr W 8) (xr W 13) (xr W 18)) : Except Reject Instr) = _
  simp only [h1, h2, h3, h4, h5, h6, h7, h8, bit_beq, xr, lo8, lane, bv, flag, zero, Except.bind, ofNat_val, ofNat_toNat, if_true, if_false, Nat.reduceBEq, Bool.false_eq_true, true_and, and_true, and_self, or_self, not_false_eq_true, ne_eq, Nat.reduceLT, Nat.reduceLeDiff, Nat.reduceEqDiff, bit_zero, bit_one]
theorem codes_encVldx (m : Bool) (g : Lane4) (d : VReg) (b : XReg) (i : VReg) : Codes (encVldx m g d b i) (.vldx m g d b i) := by
  have hb0 := bit_lt m
  have hb1 := g.isLt
  have hb2 := d.isLt
  have hb3 := b.isLt
  have hb4 := i.isLt
  show Codes (4, fVM 0 0 (bit m) g i b d 0x2B) (.vldx m g d b i)
  have F := @fVM_fields (0) (0) ((bit m)) (g.val) (i.val) (b.val) (d.val) (0x2B) (by omega) (by omega) (by omega) (by omega) (by omega) (by omega) (by omega) (by omega)
  obtain ⟨hm, f29_3, f26_3, f25_1, f23_2, f18_5, f13_5, f8_5, f2_6, f0_2⟩ := F
  exact .word hm f0_2 (decodeBits_ofVldx m g d b i hm (f0_2.trans (by omega)) (f2_6.trans (by omega)) (f8_5.trans (by omega)) (f13_5.trans (by omega)) (f18_5.trans (by omega)) (f23_2.trans (by omega)) (f25_1.trans (by omega)) (f26_3.trans (by omega)) (f29_3.trans (by omega)))

theorem decodeBits_ofVstxU (m : Bool) (g : Lane4) (s : VReg) (b : XReg) (i : VReg) {W : Nat} (hm : W < 2 ^ 32) (h0 : fld W 0 2 = 1) (h1 : fld W 2 6 = 43) (h2 : fld W 8 5 = s.val) (h3 : fld W 13 5 = b.val) (h4 : fld W 18 5 = i.val) (h5 : fld W 23 2 = g.val) (h6 : fld W 25 1 = (bit m)) (h7 : fld W 26 3 = 0) (h8 : fld W 29 3 = 1) : decodeBits W = .ok (.vstxU m g s b i) := by
  have hb0 := bit_lt m
  have hb1 := g.isLt
  have hb2 := s.isLt
  have hb3 := b.isLt
  have hb4 := i.isLt
  rw [decodeBits_word h0 hm]
  rw [decode32.eq_1, h1]
  show (decodeVidx W : Except Reject Instr) = _
  rw [decodeVidx.eq_1, h8, h7]
  show (.ok (.vstxU (flag W 25) (lane W 23) (xr W 8) (xr W 13) (xr W 18)) : Except Reject Instr) = _
  simp only [h1, h2, h3, h4, h5, h6, h7, h8, bit_beq, xr, lo8, lane, bv, flag, zero, Except.bind, ofNat_val, ofNat_toNat, if_true, if_false, Nat.reduceBEq, Bool.false_eq_true, true_and, and_true, and_self, or_self, not_false_eq_true, ne_eq, Nat.reduceLT, Nat.reduceLeDiff, Nat.reduceEqDiff, bit_zero, bit_one]
theorem codes_encVstxU (m : Bool) (g : Lane4) (s : VReg) (b : XReg) (i : VReg) : Codes (encVstxU m g s b i) (.vstxU m g s b i) := by
  have hb0 := bit_lt m
  have hb1 := g.isLt
  have hb2 := s.isLt
  have hb3 := b.isLt
  have hb4 := i.isLt
  show Codes (4, fVM 1 0 (bit m) g i b s 0x2B) (.vstxU m g s b i)
  have F := @fVM_fields (1) (0) ((bit m)) (g.val) (i.val) (b.val) (s.val) (0x2B) (by omega) (by omega) (by omega) (by omega) (by omega) (by omega) (by omega) (by omega)
  obtain ⟨hm, f29_3, f26_3, f25_1, f23_2, f18_5, f13_5, f8_5, f2_6, f0_2⟩ := F
  exact .word hm f0_2 (decodeBits_ofVstxU m g s b i hm (f0_2.trans (by omega)) (f2_6.trans (by omega)) (f8_5.trans (by omega)) (f13_5.trans (by omega)) (f18_5.trans (by omega)) (f23_2.trans (by omega)) (f25_1.trans (by omega)) (f26_3.trans (by omega)) (f29_3.trans (by omega)))

theorem decodeBits_ofVstxO (m : Bool) (g : Lane4) (s : VReg) (b : XReg) (i : VReg) {W : Nat} (hm : W < 2 ^ 32) (h0 : fld W 0 2 = 1) (h1 : fld W 2 6 = 43) (h2 : fld W 8 5 = s.val) (h3 : fld W 13 5 = b.val) (h4 : fld W 18 5 = i.val) (h5 : fld W 23 2 = g.val) (h6 : fld W 25 1 = (bit m)) (h7 : fld W 26 3 = 1) (h8 : fld W 29 3 = 1) : decodeBits W = .ok (.vstxO m g s b i) := by
  have hb0 := bit_lt m
  have hb1 := g.isLt
  have hb2 := s.isLt
  have hb3 := b.isLt
  have hb4 := i.isLt
  rw [decodeBits_word h0 hm]
  rw [decode32.eq_1, h1]
  show (decodeVidx W : Except Reject Instr) = _
  rw [decodeVidx.eq_1, h8, h7]
  show (.ok (.vstxO (flag W 25) (lane W 23) (xr W 8) (xr W 13) (xr W 18)) : Except Reject Instr) = _
  simp only [h1, h2, h3, h4, h5, h6, h7, h8, bit_beq, xr, lo8, lane, bv, flag, zero, Except.bind, ofNat_val, ofNat_toNat, if_true, if_false, Nat.reduceBEq, Bool.false_eq_true, true_and, and_true, and_self, or_self, not_false_eq_true, ne_eq, Nat.reduceLT, Nat.reduceLeDiff, Nat.reduceEqDiff, bit_zero, bit_one]
theorem codes_encVstxO (m : Bool) (g : Lane4) (s : VReg) (b : XReg) (i : VReg) : Codes (encVstxO m g s b i) (.vstxO m g s b i) := by
  have hb0 := bit_lt m
  have hb1 := g.isLt
  have hb2 := s.isLt
  have hb3 := b.isLt
  have hb4 := i.isLt
  show Codes (4, fVM 1 1 (bit m) g i b s 0x2B) (.vstxO m g s b i)
  have F := @fVM_fields (1) (1) ((bit m)) (g.val) (i.val) (b.val) (s.val) (0x2B) (by omega) (by omega) (by omega) (by omega) (by omega) (by omega) (by omega) (by omega)
  obtain ⟨hm, f29_3, f26_3, f25_1, f23_2, f18_5, f13_5, f8_5, f2_6, f0_2⟩ := F
  exact .word hm f0_2 (decodeBits_ofVstxO m g s b i hm (f0_2.trans (by omega)) (f2_6.trans (by omega)) (f8_5.trans (by omega)) (f13_5.trans (by omega)) (f18_5.trans (by omega)) (f23_2.trans (by omega)) (f25_1.trans (by omega)) (f26_3.trans (by omega)) (f29_3.trans (by omega)))

theorem decodeBits_ofVscadd (m : Bool) (g : Lane4) (s : VReg) (b : XReg) (i : VReg) {W : Nat} (hm : W < 2 ^ 32) (h0 : fld W 0 2 = 1) (h1 : fld W 2 6 = 43) (h2 : fld W 8 5 = s.val) (h3 : fld W 13 5 = b.val) (h4 : fld W 18 5 = i.val) (h5 : fld W 23 2 = g.val) (h6 : fld W 25 1 = (bit m)) (h7 : fld W 26 3 = 0) (h8 : fld W 29 3 = 2) : decodeBits W = .ok (.vscadd m g s b i) := by
  have hb0 := bit_lt m
  have hb1 := g.isLt
  have hb2 := s.isLt
  have hb3 := b.isLt
  have hb4 := i.isLt
  rw [decodeBits_word h0 hm]
  rw [decode32.eq_1, h1]
  show (decodeVidx W : Except Reject Instr) = _
  rw [decodeVidx.eq_1, h8, h7]
  show (.ok (.vscadd (flag W 25) (lane W 23) (xr W 8) (xr W 13) (xr W 18)) : Except Reject Instr) = _
  simp only [h1, h2, h3, h4, h5, h6, h7, h8, bit_beq, xr, lo8, lane, bv, flag, zero, Except.bind, ofNat_val, ofNat_toNat, if_true, if_false, Nat.reduceBEq, Bool.false_eq_true, true_and, and_true, and_self, or_self, not_false_eq_true, ne_eq, Nat.reduceLT, Nat.reduceLeDiff, Nat.reduceEqDiff, bit_zero, bit_one]
theorem codes_encVscadd (m : Bool) (g : Lane4) (s : VReg) (b : XReg) (i : VReg) : Codes (encVscadd m g s b i) (.vscadd m g s b i) := by
  have hb0 := bit_lt m
  have hb1 := g.isLt
  have hb2 := s.isLt
  have hb3 := b.isLt
  have hb4 := i.isLt
  show Codes (4, fVM 2 0 (bit m) g i b s 0x2B) (.vscadd m g s b i)
  have F := @fVM_fields (2) (0) ((bit m)) (g.val) (i.val) (b.val) (s.val) (0x2B) (by omega) (by omega) (by omega) (by omega) (by omega) (by omega) (by omega) (by omega)
  obtain ⟨hm, f29_3, f26_3, f25_1, f23_2, f18_5, f13_5, f8_5, f2_6, f0_2⟩ := F
  exact .word hm f0_2 (decodeBits_ofVscadd m g s b i hm (f0_2.trans (by omega)) (f2_6.trans (by omega)) (f8_5.trans (by omega)) (f13_5.trans (by omega)) (f18_5.trans (by omega)) (f23_2.trans (by omega)) (f25_1.trans (by omega)) (f26_3.trans (by omega)) (f29_3.trans (by omega)))

theorem decodeBits_ofVmergeu (kz : Bool) (d : VReg) (n : XReg) (a : VReg) {W : Nat} (hm : W < 2 ^ 32) (h0 : fld W 0 2 = 1) (h1 : fld W 2 6 = 43) (h2 : fld W 8 5 = d.val) (h3 : fld W 13 5 = n.val) (h4 : fld W 18 5 = a.val) (h5 : fld W 23 3 = 0) (h6 : fld W 26 1 = (bit kz)) (h7 : fld W 26 3 = (bit kz)) (h8 : fld W 27 2 = 0) (h9 : fld W 29 3 = 3) : decodeBits W = .ok (.vmergeu kz d n a) := by
  have hb0 := bit_lt kz
  have hb1 := d.isLt
  have hb2 := n.isLt
  have hb3 := a.isLt
  rw [decodeBits_word h0 hm]
  rw [decode32.eq_1, h1]
  show (decodeVidx W : Except Reject Instr) = _
  rw [decodeVidx.eq_1, h9, h7]
  show (zero W 23 3 (.vmergeu (flag W 26) (xr W 8) (xr W 13) (xr W 18)) |>.bind (zero W 27 2) : Except Reject Instr) = _
  simp only [h1, h2, h3, h4, h5, h6, h7, h8, h9, bit_beq, xr, lo8, lane, bv, flag, zero, Except.bind, ofNat_val, ofNat_toNat, if_true, if_false, Nat.reduceBEq, Bool.false_eq_true, true_and, and_true, and_self, or_self, not_false_eq_true, ne_eq, Nat.reduceLT, Nat.reduceLeDiff, Nat.reduceEqDiff, bit_zero, bit_one]
theorem codes_encVmergeu (kz : Bool) (d : VReg) (n : XReg) (a : VReg) : Codes (encVmergeu kz d n a) (.vmergeu kz d n a) := by
  have hb0 := bit_lt kz
  have hb1 := d.isLt
  have hb2 := n.isLt
  have hb3 := a.isLt
  show Codes (4, fVM 3 (bit kz) 0 0 a n d 0x2B) (.vmergeu kz d n a)
  have F := @fVM_fields (3) ((bit kz)) (0) (0) (a.val) (n.val) (d.val) (0x2B) (by omega) (by omega) (by omega) (by omega) (by omega) (by omega) (by omega) (by omega)
  obtain ⟨hm, f29_3, f26_3, f25_1, f23_2, f18_5, f13_5, f8_5, f2_6, f0_2⟩ := F
  exact .word hm f0_2 (decodeBits_ofVmergeu kz d n a hm (f0_2.trans (by omega)) (f2_6.trans (by omega)) (f8_5.trans (by omega)) (f13_5.trans (by omega)) (f18_5.trans (by omega)) ((fld_app f23_2 f25_1 rfl rfl).trans (by omega)) ((fld_sub (o := 0) (k := 1) f26_3 rfl (by decide)).trans (by omega)) (f26_3.trans (by omega)) ((fld_sub (o := 1) (k := 2) f26_3 rfl (by decide)).trans (by omega)) (f29_3.trans (by omega)))

theorem decodeBits_ofVamo (o : VamoOp) (x : WideScope) (r : Option OrdFlag) (m : Bool) (g : Lane4) (d : VReg) (b : XReg) (i : VReg) {W : Nat} (hm : W < 2 ^ 32) (h0 : fld W 0 2 = 1) (h1 : fld W 2 6 = 43) (h2 : fld W 8 5 = d.val) (h3 : fld W 13 5 = b.val) (h4 : fld W 18 5 = i.val) (h5 : fld W 23 2 = g.val) (h6 : fld W 25 1 = (bit m)) (h7 : fld W 26 2 = (optFlag r)) (h8 : fld W 26 3 = x.code * 4 + (optFlag r)) (h9 : fld W 28 1 = x.code) (h10 : fld W 29 2 = o.code) (h11 : fld W 29 3 = 4 + o.code) (h12 : fld W 31 1 = 1) : decodeBits W = .ok (.vamo o x r m g d b i) := by
  have hb0 := VamoOp.code_lt o
  have hb1 := WideScope.code_lt x
  have hb2 := optFlag_lt r
  have hb3 := bit_lt m
  have hb4 := g.isLt
  have hb5 := d.isLt
  have hb6 := b.isLt
  have hb7 := i.isLt
  rw [decodeBits_word h0 hm]
  cases o <;> simp only [VamoOp.code, Nat.reduceAdd] at h11 h10 <;> simp only [h1, h2, h3, h4, h5, h6, h7, h8, h9, h10, h11, h12, decode32, decodeVidx, VamoOp.ofCode_code, WideScope.ofCode_code, bit_beq, optFlagOf_optFlag, xr, lo8, lane, bv, flag, zero, Except.bind, ofNat_val, ofNat_toNat, if_true, if_false, Nat.reduceBEq, Bool.false_eq_true, true_and, and_true, and_self, or_self, not_false_eq_true, ne_eq, Nat.reduceLT, Nat.reduceLeDiff, Nat.reduceEqDiff, bit_zero, bit_one, VamoOp.ofCode]
theorem codes_encVamo (o : VamoOp) (x : WideScope) (r : Option OrdFlag) (m : Bool) (g : Lane4) (d : VReg) (b : XReg) (i : VReg) : Codes (encVamo o x r m g d b i) (.vamo o x r m g d b i) := by
  have hb0 := VamoOp.code_lt o
  have hb1 := WideScope.code_lt x
  have hb2 := optFlag_lt r
  have hb3 := bit_lt m
  have hb4 := g.isLt
  have hb5 := d.isLt
  have hb6 := b.isLt
  have hb7 := i.isLt
  show Codes (4, fVM (4 + o.code) (x.code * 2 ^ 2 + optFlag r) (bit m) g i b d 0x2B) (.vamo o x r m g d b i)
  have F := @fVM_fields ((4 + o.code)) ((x.code * 2 ^ 2 + optFlag r)) ((bit m)) (g.val) (i.val) (b.val) (d.val) (0x2B) (by omega) (by omega) (by omega) (by omega) (by omega) (by omega) (by omega) (by omega)
  obtain ⟨hm, f29_3, f26_3, f25_1, f23_2, f18_5, f13_5, f8_5, f2_6, f0_2⟩ := F
  exact .word hm f0_2 (decodeBits_ofVamo o x r m g d b i hm (f0_2.trans (by omega)) (f2_6.trans (by omega)) (f8_5.trans (by omega)) (f13_5.trans (by omega)) (f18_5.trans (by omega)) (f23_2.trans (by omega)) (f25_1.trans (by omega)) ((fld_sub (o := 0) (k := 2) f26_3 rfl (by decide)).trans (by omega)) (f26_3.trans (by omega)) ((fld_sub (o := 2) (k := 1) f26_3 rfl (by decide)).trans (by omega)) ((fld_sub (o := 0) (k := 2) f29_3 rfl (by decide)).trans (by omega)) (f29_3.trans (by omega)) ((fld_sub (o := 2) (k := 1) f29_3 rfl (by decide)).trans (by omega)))

theorem decodeBits_ofVsqres (m : Bool) (g : Lane4) (d : VReg) (h : VReg) {W : Nat} (hm : W < 2 ^ 32) (h0 : fld W 0 2 = 1) (h1 : fld W 2 6 = 44) (h2 : fld W 8 5 = d.val) (h3 : fld W 13 5 = 0) (h4 : fld W 18 5 = h.val) (h5 : fld W 23 2 = g.val) (h6 : fld W 25 1 = (bit m)) (h7 : fld W 26 3 = 0) (h8 : fld W 29 3 = 0) : decodeBits W = .ok (.vsqres m g d h) := by
  have hb0 := bit_lt m
  have hb1 := g.isLt
  have hb2 := d.isLt
  have hb3 := h.isLt
  rw [decodeBits_word h0 hm]
  rw [decode32.eq_1, h1]
  show (decodeVvine W : Except Reject Instr) = _
  rw [decodeVvine.eq_1, h8]
  show (zero W 26 3 (.vsqres (flag W 25) (lane W 23) (xr W 8) (xr W 18)) |>.bind (zero W 13 5) : Except Reject Instr) = _
  simp only [h1, h2, h3, h4, h5, h6, h7, h8, bit_beq, xr, lo8, lane, bv, flag, zero, Except.bind, ofNat_val, ofNat_toNat, if_true, if_false, Nat.reduceBEq, Bool.false_eq_true, true_and, and_true, and_self, or_self, not_false_eq_true, ne_eq, Nat.reduceLT, Nat.reduceLeDiff, Nat.reduceEqDiff, bit_zero, bit_one]
theorem codes_encVsqres (m : Bool) (g : Lane4) (d : VReg) (h : VReg) : Codes (encVsqres m g d h) (.vsqres m g d h) := by
  have hb0 := bit_lt m
  have hb1 := g.isLt
  have hb2 := d.isLt
  have hb3 := h.isLt
  show Codes (4, fVM 0 0 (bit m) g h 0 d 0x2C) (.vsqres m g d h)
  have F := @fVM_fields (0) (0) ((bit m)) (g.val) (h.val) (0) (d.val) (0x2C) (by omega) (by omega) (by omega) (by omega) (by omega) (by omega) (by omega) (by omega)
  obtain ⟨hm, f29_3, f26_3, f25_1, f23_2, f18_5, f13_5, f8_5, f2_6, f0_2⟩ := F
  exact .word hm f0_2 (decodeBits_ofVsqres m g d h hm (f0_2.trans (by omega)) (f2_6.trans (by omega)) (f8_5.trans (by omega)) (f13_5.trans (by omega)) (f18_5.trans (by omega)) (f23_2.trans (by omega)) (f25_1.trans (by omega)) (f26_3.trans (by omega)) (f29_3.trans (by omega)))

theorem decodeBits_ofVsqst (m : Bool) (g : Lane4) (s : VReg) (h : XReg) (i : XReg) {W : Nat} (hm : W < 2 ^ 32) (h0 : fld W 0 2 = 1) (h1 : fld W 2 6 = 44) (h2 : fld W 8 5 = s.val) (h3 : fld W 13 5 = h.val) (h4 : fld W 18 5 = i.val) (h5 : fld W 23 2 = g.val) (h6 : fld W 25 1 = (bit m)) (h7 : fld W 26 3 = 0) (h8 : fld W 29 3 = 1) : decodeBits W = .ok (.vsqst m g s h i) := by
  have hb0 := bit_lt m
  have hb1 := g.isLt
  have hb2 := s.isLt
  have hb3 := h.isLt
  have hb4 := i.isLt
  rw [decodeBits_word h0 hm]
  rw [decode32.eq_1, h1]
  show (decodeVvine W : Except Reject Instr) = _
  rw [decodeVvine.eq_1, h8]
  show (zero W 26 3 (.vsqst (flag W 25) (lane W 23) (xr W 8) (xr W 13) (xr W 18)) : Except Reject Instr) = _
  simp only [h1, h2, h3, h4, h5, h6, h7, h8, bit_beq, xr, lo8, lane, bv, flag, zero, Except.bind, ofNat_val, ofNat_toNat, if_true, if_false, Nat.reduceBEq, Bool.false_eq_true, true_and, and_true, and_self, or_self, not_false_eq_true, ne_eq, Nat.reduceLT, Nat.reduceLeDiff, Nat.reduceEqDiff, bit_zero, bit_one]
theorem codes_encVsqst (m : Bool) (g : Lane4) (s : VReg) (h : XReg) (i : XReg) : Codes (encVsqst m g s h i) (.vsqst m g s h i) := by
  have hb0 := bit_lt m
  have hb1 := g.isLt
  have hb2 := s.isLt
  have hb3 := h.isLt
  have hb4 := i.isLt
  show Codes (4, fVM 1 0 (bit m) g i h s 0x2C) (.vsqst m g s h i)
  have F := @fVM_fields (1) (0) ((bit m)) (g.val) (i.val) (h.val) (s.val) (0x2C) (by omega) (by omega) (by omega) (by omega) (by omega) (by omega) (by omega) (by omega)
  obtain ⟨hm, f29_3, f26_3, f25_1, f23_2, f18_5, f13_5, f8_5, f2_6, f0_2⟩ := F
  exact .word hm f0_2 (decodeBits_ofVsqst m g s h i hm (f0_2.trans (by omega)) (f2_6.trans (by omega)) (f8_5.trans (by omega)) (f13_5.trans (by omega)) (f18_5.trans (by omega)) (f23_2.trans (by omega)) (f25_1.trans (by omega)) (f26_3.trans (by omega)) (f29_3.trans (by omega)))

theorem decodeBits_ofVsqstX (m : Bool) (g : Lane4) (s : VReg) (h : VReg) (i : VReg) {W : Nat} (hm : W < 2 ^ 32) (h0 : fld W 0 2 = 1) (h1 : fld W 2 6 = 44) (h2 : fld W 8 5 = s.val) (h3 : fld W 13 5 = h.val) (h4 : fld W 18 5 = i.val) (h5 : fld W 23 2 = g.val) (h6 : fld W 25 1 = (bit m)) (h7 : fld W 26 3 = 0) (h8 : fld W 29 3 = 2) : decodeBits W = .ok (.vsqstX m g s h i) := by
  have hb0 := bit_lt m
  have hb1 := g.isLt
  have hb2 := s.isLt
  have hb3 := h.isLt
  have hb4 := i.isLt
  rw [decodeBits_word h0 hm]
  rw [decode32.eq_1, h1]
  show (decodeVvine W : Except Reject Instr) = _
  rw [decodeVvine.eq_1, h8]
  show (zero W 26 3 (.vsqstX (flag W 25) (lane W 23) (xr W 8) (xr W 13) (xr W 18)) : Except Reject Instr) = _
  simp only [h1, h2, h3, h4, h5, h6, h7, h8, bit_beq, xr, lo8, lane, bv, flag, zero, Except.bind, ofNat_val, ofNat_toNat, if_true, if_false, Nat.reduceBEq, Bool.false_eq_true, true_and, and_true, and_self, or_self, not_false_eq_true, ne_eq, Nat.reduceLT, Nat.reduceLeDiff, Nat.reduceEqDiff, bit_zero, bit_one]
theorem codes_encVsqstX (m : Bool) (g : Lane4) (s : VReg) (h : VReg) (i : VReg) : Codes (encVsqstX m g s h i) (.vsqstX m g s h i) := by
  have hb0 := bit_lt m
  have hb1 := g.isLt
  have hb2 := s.isLt
  have hb3 := h.isLt
  have hb4 := i.isLt
  show Codes (4, fVM 2 0 (bit m) g i h s 0x2C) (.vsqstX m g s h i)
  have F := @fVM_fields (2) (0) ((bit m)) (g.val) (i.val) (h.val) (s.val) (0x2C) (by omega) (by omega) (by omega) (by omega) (by omega) (by omega) (by omega) (by omega)
  obtain ⟨hm, f29_3, f26_3, f25_1, f23_2, f18_5, f13_5, f8_5, f2_6, f0_2⟩ := F
  exact .word hm f0_2 (decodeBits_ofVsqstX m g s h i hm (f0_2.trans (by omega)) (f2_6.trans (by omega)) (f8_5.trans (by omega)) (f13_5.trans (by omega)) (f18_5.trans (by omega)) (f23_2.trans (by omega)) (f25_1.trans (by omega)) (f26_3.trans (by omega)) (f29_3.trans (by omega)))

theorem decodeBits_ofVsqcmt (x : WideScope) (m : Bool) (g : Lane4) (h : VReg) (i : VReg) {W : Nat} (hm : W < 2 ^ 32) (h0 : fld W 0 2 = 1) (h1 : fld W 2 6 = 44) (h2 : fld W 8 5 = 0) (h3 : fld W 13 5 = h.val) (h4 : fld W 18 5 = i.val) (h5 : fld W 23 2 = g.val) (h6 : fld W 25 1 = (bit m)) (h7 : fld W 26 1 = x.code) (h8 : fld W 27 2 = 0) (h9 : fld W 29 3 = 3) : decodeBits W = .ok (.vsqcmt x m g h i) := by
  have hb0 := WideScope.code_lt x
  have hb1 := bit_lt m
  have hb2 := g.isLt
  have hb3 := h.isLt
  have hb4 := i.isLt
  rw [decodeBits_word h0 hm]
  rw [decode32.eq_1, h1]
  show (decodeVvine W : Except Reject Instr) = _
  rw [decodeVvine.eq_1, h9]
  show (zero W 27 2 (.vsqcmt (WideScope.ofCode (fld W 26 1)) (flag W 25) (lane W 23) (xr W 13) (xr W 18)) |>.bind (zero W 8 5) : Except Reject Instr) = _
  simp only [h1, h2, h3, h4, h5, h6, h7, h8, h9, WideScope.ofCode_code, bit_beq, xr, lo8, lane, bv, flag, zero, Except.bind, ofNat_val, ofNat_toNat, if_true, if_false, Nat.reduceBEq, Bool.false_eq_true, true_and, and_true, and_self, or_self, not_false_eq_true, ne_eq, Nat.reduceLT, Nat.reduceLeDiff, Nat.reduceEqDiff, bit_zero, bit_one]
theorem codes_encVsqcmt (x : WideScope) (m : Bool) (g : Lane4) (h : VReg) (i : VReg) : Codes (encVsqcmt x m g h i) (.vsqcmt x m g h i) := by
  have hb0 := WideScope.code_lt x
  have hb1 := bit_lt m
  have hb2 := g.isLt
  have hb3 := h.isLt
  have hb4 := i.isLt
  show Codes (4, fVM 3 x.code (bit m) g i h 0 0x2C) (.vsqcmt x m g h i)
  have F := @fVM_fields (3) (x.code) ((bit m)) (g.val) (i.val) (h.val) (0) (0x2C) (by omega) (by omega) (by omega) (by omega) (by omega) (by omega) (by omega) (by omega)
  obtain ⟨hm, f29_3, f26_3, f25_1, f23_2, f18_5, f13_5, f8_5, f2_6, f0_2⟩ := F
  exact .word hm f0_2 (decodeBits_ofVsqcmt x m g h i hm (f0_2.trans (by omega)) (f2_6.trans (by omega)) (f8_5.trans (by omega)) (f13_5.trans (by omega)) (f18_5.trans (by omega)) (f23_2.trans (by omega)) (f25_1.trans (by omega)) ((fld_sub (o := 0) (k := 1) f26_3 rfl (by decide)).trans (by omega)) ((fld_sub (o := 1) (k := 2) f26_3 rfl (by decide)).trans (by omega)) (f29_3.trans (by omega)))

theorem decodeBits_ofVsqld (m : Bool) (g : Lane4) (d : VReg) (h : XReg) (i : XReg) {W : Nat} (hm : W < 2 ^ 32) (h0 : fld W 0 2 = 1) (h1 : fld W 2 6 = 44) (h2 : fld W 8 5 = d.val) (h3 : fld W 13 5 = h.val) (h4 : fld W 18 5 = i.val) (h5 : fld W 23 2 = g.val) (h6 : fld W 25 1 = (bit m)) (h7 : fld W 26 3 = 0) (h8 : fld W 29 3 = 4) : decodeBits W = .ok (.vsqld m g d h i) := by
  have hb0 := bit_lt m
  have hb1 := g.isLt
  have hb2 := d.isLt
  have hb3 := h.isLt
  have hb4 := i.isLt
  rw [decodeBits_word h0 hm]
  rw [decode32.eq_1, h1]
  show (decodeVvine W : Except Reject Instr) = _
  rw [decodeVvine.eq_1, h8]
  show (zero W 26 3 (.vsqld (flag W 25) (lane W 23) (xr W 8) (xr W 13) (xr W 18)) : Except Reject Instr) = _
  simp only [h1, h2, h3, h4, h5, h6, h7, h8, bit_beq, xr, lo8, lane, bv, flag, zero, Except.bind, ofNat_val, ofNat_toNat, if_true, if_false, Nat.reduceBEq, Bool.false_eq_true, true_and, and_true, and_self, or_self, not_false_eq_true, ne_eq, Nat.reduceLT, Nat.reduceLeDiff, Nat.reduceEqDiff, bit_zero, bit_one]
theorem codes_encVsqld (m : Bool) (g : Lane4) (d : VReg) (h : XReg) (i : XReg) : Codes (encVsqld m g d h i) (.vsqld m g d h i) := by
  have hb0 := bit_lt m
  have hb1 := g.isLt
  have hb2 := d.isLt
  have hb3 := h.isLt
  have hb4 := i.isLt
  show Codes (4, fVM 4 0 (bit m) g i h d 0x2C) (.vsqld m g d h i)
  have F := @fVM_fields (4) (0) ((bit m)) (g.val) (i.val) (h.val) (d.val) (0x2C) (by omega) (by omega) (by omega) (by omega) (by omega) (by omega) (by omega) (by omega)
  obtain ⟨hm, f29_3, f26_3, f25_1, f23_2, f18_5, f13_5, f8_5, f2_6, f0_2⟩ := F
  exact .word hm f0_2 (decodeBits_ofVsqld m g d h i hm (f0_2.trans (by omega)) (f2_6.trans (by omega)) (f8_5.trans (by omega)) (f13_5.trans (by omega)) (f18_5.trans (by omega)) (f23_2.trans (by omega)) (f25_1.trans (by omega)) (f26_3.trans (by omega)) (f29_3.trans (by omega)))

theorem decodeBits_ofVsqldX (m : Bool) (g : Lane4) (d : VReg) (h : VReg) (i : VReg) {W : Nat} (hm : W < 2 ^ 32) (h0 : fld W 0 2 = 1) (h1 : fld W 2 6 = 44) (h2 : fld W 8 5 = d.val) (h3 : fld W 13 5 = h.val) (h4 : fld W 18 5 = i.val) (h5 : fld W 23 2 = g.val) (h6 : fld W 25 1 = (bit m)) (h7 : fld W 26 3 = 0) (h8 : fld W 29 3 = 5) : decodeBits W = .ok (.vsqldX m g d h i) := by
  have hb0 := bit_lt m
  have hb1 := g.isLt
  have hb2 := d.isLt
  have hb3 := h.isLt
  have hb4 := i.isLt
  rw [decodeBits_word h0 hm]
  rw [decode32.eq_1, h1]
  show (decodeVvine W : Except Reject Instr) = _
  rw [decodeVvine.eq_1, h8]
  show (zero W 26 3 (.vsqldX (flag W 25) (lane W 23) (xr W 8) (xr W 13) (xr W 18)) : Except Reject Instr) = _
  simp only [h1, h2, h3, h4, h5, h6, h7, h8, bit_beq, xr, lo8, lane, bv, flag, zero, Except.bind, ofNat_val, ofNat_toNat, if_true, if_false, Nat.reduceBEq, Bool.false_eq_true, true_and, and_true, and_self, or_self, not_false_eq_true, ne_eq, Nat.reduceLT, Nat.reduceLeDiff, Nat.reduceEqDiff, bit_zero, bit_one]
theorem codes_encVsqldX (m : Bool) (g : Lane4) (d : VReg) (h : VReg) (i : VReg) : Codes (encVsqldX m g d h i) (.vsqldX m g d h i) := by
  have hb0 := bit_lt m
  have hb1 := g.isLt
  have hb2 := d.isLt
  have hb3 := h.isLt
  have hb4 := i.isLt
  show Codes (4, fVM 5 0 (bit m) g i h d 0x2C) (.vsqldX m g d h i)
  have F := @fVM_fields (5) (0) ((bit m)) (g.val) (i.val) (h.val) (d.val) (0x2C) (by omega) (by omega) (by omega) (by omega) (by omega) (by omega) (by omega) (by omega)
  obtain ⟨hm, f29_3, f26_3, f25_1, f23_2, f18_5, f13_5, f8_5, f2_6, f0_2⟩ := F
  exact .word hm f0_2 (decodeBits_ofVsqldX m g d h i hm (f0_2.trans (by omega)) (f2_6.trans (by omega)) (f8_5.trans (by omega)) (f13_5.trans (by omega)) (f18_5.trans (by omega)) (f23_2.trans (by omega)) (f25_1.trans (by omega)) (f26_3.trans (by omega)) (f29_3.trans (by omega)))

theorem decodeBits_ofDcfg (d : XReg) (x : XReg) {W : Nat} (hm : W < 2 ^ 32) (h0 : fld W 0 2 = 1) (h1 : fld W 2 6 = 48) (h2 : fld W 8 5 = d.val) (h3 : fld W 13 10 = 0) (h4 : fld W 23 5 = x.val) (h5 : fld W 28 4 = 0) : decodeBits W = .ok (.dcfg d x) := by
  have hb0 := d.isLt
  have hb1 := x.isLt
  rw [decodeBits_word h0 hm]
  rw [decode32.eq_1, h1]
  show (decodeDiag W : Except Reject Instr) = _
  rw [decodeDiag.eq_1, h5]
  show (zero W 13 10 (.dcfg (xr W 8) (xr W 23)) : Except Reject Instr) = _
  simp only [h1, h2, h3, h4, h5, xr, lo8, lane, bv, flag, zero, Except.bind, ofNat_val, ofNat_toNat, if_true, if_false, Nat.reduceBEq, Bool.false_eq_true, true_and, and_true, and_self, or_self, not_false_eq_true, ne_eq, Nat.reduceLT, Nat.reduceLeDiff, Nat.reduceEqDiff, bit_zero, bit_one]
theorem codes_encDcfg (d : XReg) (x : XReg) : Codes (encDcfg d x) (.dcfg d x) := by
  have hb0 := d.isLt
  have hb1 := x.isLt
  show Codes (4, fD 0 x 0 0 d) (.dcfg d x)
  have F := @fD_fields (0) (x.val) (0) (0) (d.val) (by omega) (by omega) (by omega) (by omega) (by omega)
  obtain ⟨hm, f28_4, f23_5, f18_5, f13_5, f8_5, f0_2, f2_6⟩ := F
  exact .word hm f0_2 (decodeBits_ofDcfg d x hm (f0_2.trans (by omega)) (f2_6.trans (by omega)) (f8_5.trans (by omega)) ((fld_app f13_5 f18_5 rfl rfl).trans (by omega)) (f23_5.trans (by omega)) (f28_4.trans (by omega)))

theorem decodeBits_ofDzero (x : XReg) {W : Nat} (hm : W < 2 ^ 32) (h0 : fld W 0 2 = 1) (h1 : fld W 2 6 = 48) (h2 : fld W 8 15 = 0) (h3 : fld W 23 5 = x.val) (h4 : fld W 28 4 = 1) : decodeBits W = .ok (.dzero x) := by
  have hb0 := x.isLt
  rw [decodeBits_word h0 hm]
  rw [decode32.eq_1, h1]
  show (decodeDiag W : Except Reject Instr) = _
  rw [decodeDiag.eq_1, h4]
  show (zero W 8 15 (.dzero (xr W 23)) : Except Reject Instr) = _
  simp only [h1, h2, h3, h4, xr, lo8, lane, bv, flag, zero, Except.bind, ofNat_val, ofNat_toNat, if_true, if_false, Nat.reduceBEq, Bool.false_eq_true, true_and, and_true, and_self, or_self, not_false_eq_true, ne_eq, Nat.reduceLT, Nat.reduceLeDiff, Nat.reduceEqDiff, bit_zero, bit_one]
theorem codes_encDzero (x : XReg) : Codes (encDzero x) (.dzero x) := by
  have hb0 := x.isLt
  show Codes (4, fD 1 x 0 0 0) (.dzero x)
  have F := @fD_fields (1) (x.val) (0) (0) (0) (by omega) (by omega) (by omega) (by omega) (by omega)
  obtain ⟨hm, f28_4, f23_5, f18_5, f13_5, f8_5, f0_2, f2_6⟩ := F
  exact .word hm f0_2 (decodeBits_ofDzero x hm (f0_2.trans (by omega)) (f2_6.trans (by omega)) ((fld_app f8_5 (fld_app f13_5 f18_5 rfl rfl) rfl rfl).trans (by omega)) (f23_5.trans (by omega)) (f28_4.trans (by omega)))

theorem decodeBits_ofDmac (a : VReg) (b : VReg) (x : XReg) {W : Nat} (hm : W < 2 ^ 32) (h0 : fld W 0 2 = 1) (h1 : fld W 2 6 = 48) (h2 : fld W 8 5 = 0) (h3 : fld W 13 5 = a.val) (h4 : fld W 18 5 = b.val) (h5 : fld W 23 5 = x.val) (h6 : fld W 28 4 = 2) : decodeBits W = .ok (.dmac a b x) := by
  have hb0 := a.isLt
  have hb1 := b.isLt
  have hb2 := x.isLt
  rw [decodeBits_word h0 hm]
  rw [decode32.eq_1, h1]
  show (decodeDiag W : Except Reject Instr) = _
  rw [decodeDiag.eq_1, h6]
  show (zero W 8 5 (.dmac (xr W 13) (xr W 18) (xr W 23)) : Except Reject Instr) = _
  simp only [h1, h2, h3, h4, h5, h6, xr, lo8, lane, bv, flag, zero, Except.bind, ofNat_val, ofNat_toNat, if_true, if_false, Nat.reduceBEq, Bool.false_eq_true, true_and, and_true, and_self, or_self, not_false_eq_true, ne_eq, Nat.reduceLT, Nat.reduceLeDiff, Nat.reduceEqDiff, bit_zero, bit_one]
theorem codes_encDmac (a : VReg) (b : VReg) (x : XReg) : Codes (encDmac a b x) (.dmac a b x) := by
  have hb0 := a.isLt
  have hb1 := b.isLt
  have hb2 := x.isLt
  show Codes (4, fD 2 x b a 0) (.dmac a b x)
  have F := @fD_fields (2) (x.val) (b.val) (a.val) (0) (by omega) (by omega) (by omega) (by omega) (by omega)
  obtain ⟨hm, f28_4, f23_5, f18_5, f13_5, f8_5, f0_2, f2_6⟩ := F
  exact .word hm f0_2 (decodeBits_ofDmac a b x hm (f0_2.trans (by omega)) (f2_6.trans (by omega)) (f8_5.trans (by omega)) (f13_5.trans (by omega)) (f18_5.trans (by omega)) (f23_5.trans (by omega)) (f28_4.trans (by omega)))

theorem decodeBits_ofDmacD (a : VReg) (b : VReg) (x : XReg) {W : Nat} (hm : W < 2 ^ 32) (h0 : fld W 0 2 = 1) (h1 : fld W 2 6 = 48) (h2 : fld W 8 5 = 0) (h3 : fld W 13 5 = a.val) (h4 : fld W 18 5 = b.val) (h5 : fld W 23 5 = x.val) (h6 : fld W 28 4 = 3) : decodeBits W = .ok (.dmacD a b x) := by
  have hb0 := a.isLt
  have hb1 := b.isLt
  have hb2 := x.isLt
  rw [decodeBits_word h0 hm]
  rw [decode32.eq_1, h1]
  show (decodeDiag W : Except Reject Instr) = _
  rw [decodeDiag.eq_1, h6]
  show (zero W 8 5 (.dmacD (xr W 13) (xr W 18) (xr W 23)) : Except Reject Instr) = _
  simp only [h1, h2, h3, h4, h5, h6, xr, lo8, lane, bv, flag, zero, Except.bind, ofNat_val, ofNat_toNat, if_true, if_false, Nat.reduceBEq, Bool.false_eq_true, true_and, and_true, and_self, or_self, not_false_eq_true, ne_eq, Nat.reduceLT, Nat.reduceLeDiff, Nat.reduceEqDiff, bit_zero, bit_one]
theorem codes_encDmacD (a : VReg) (b : VReg) (x : XReg) : Codes (encDmacD a b x) (.dmacD a b x) := by
  have hb0 := a.isLt
  have hb1 := b.isLt
  have hb2 := x.isLt
  show Codes (4, fD 3 x b a 0) (.dmacD a b x)
  have F := @fD_fields (3) (x.val) (b.val) (a.val) (0) (by omega) (by omega) (by omega) (by omega) (by omega)
  obtain ⟨hm, f28_4, f23_5, f18_5, f13_5, f8_5, f0_2, f2_6⟩ := F
  exact .word hm f0_2 (decodeBits_ofDmacD a b x hm (f0_2.trans (by omega)) (f2_6.trans (by omega)) (f8_5.trans (by omega)) (f13_5.trans (by omega)) (f18_5.trans (by omega)) (f23_5.trans (by omega)) (f28_4.trans (by omega)))

theorem decodeBits_ofDmacg (a : VReg) (b : VReg) (x : XReg) {W : Nat} (hm : W < 2 ^ 32) (h0 : fld W 0 2 = 1) (h1 : fld W 2 6 = 48) (h2 : fld W 8 5 = 0) (h3 : fld W 13 5 = a.val) (h4 : fld W 18 5 = b.val) (h5 : fld W 23 5 = x.val) (h6 : fld W 28 4 = 4) : decodeBits W = .ok (.dmacg a b x) := by
  have hb0 := a.isLt
  have hb1 := b.isLt
  have hb2 := x.isLt
  rw [decodeBits_word h0 hm]
  rw [decode32.eq_1, h1]
  show (decodeDiag W : Except Reject Instr) = _
  rw [decodeDiag.eq_1, h6]
  show (zero W 8 5 (.dmacg (xr W 13) (xr W 18) (xr W 23)) : Except Reject Instr) = _
  simp only [h1, h2, h3, h4, h5, h6, xr, lo8, lane, bv, flag, zero, Except.bind, ofNat_val, ofNat_toNat, if_true, if_false, Nat.reduceBEq, Bool.false_eq_true, true_and, and_true, and_self, or_self, not_false_eq_true, ne_eq, Nat.reduceLT, Nat.reduceLeDiff, Nat.reduceEqDiff, bit_zero, bit_one]
theorem codes_encDmacg (a : VReg) (b : VReg) (x : XReg) : Codes (encDmacg a b x) (.dmacg a b x) := by
  have hb0 := a.isLt
  have hb1 := b.isLt
  have hb2 := x.isLt
  show Codes (4, fD 4 x b a 0) (.dmacg a b x)
  have F := @fD_fields (4) (x.val) (b.val) (a.val) (0) (by omega) (by omega) (by omega) (by omega) (by omega)
  obtain ⟨hm, f28_4, f23_5, f18_5, f13_5, f8_5, f0_2, f2_6⟩ := F
  exact .word hm f0_2 (decodeBits_ofDmacg a b x hm (f0_2.trans (by omega)) (f2_6.trans (by omega)) (f8_5.trans (by omega)) (f13_5.trans (by omega)) (f18_5.trans (by omega)) (f23_5.trans (by omega)) (f28_4.trans (by omega)))

theorem decodeBits_ofDxtr (ne : Bool) (m : Bool) (d : VReg) (x : XReg) {W : Nat} (hm : W < 2 ^ 32) (h0 : fld W 0 2 = 1) (h1 : fld W 2 6 = 48) (h2 : fld W 8 5 = d.val) (h3 : fld W 13 5 = 0) (h4 : fld W 18 1 = (bit m)) (h5 : fld W 19 1 = (bit ne)) (h6 : fld W 20 3 = 0) (h7 : fld W 23 5 = x.val) (h8 : fld W 28 4 = 5) : decodeBits W = .ok (.dxtr ne m d x) := by
  have hb0 := bit_lt ne
  have hb1 := bit_lt m
  have hb2 := d.isLt
  have hb3 := x.isLt
  rw [decodeBits_word h0 hm]
  rw [decode32.eq_1, h1]
  show (decodeDiag W : Except Reject Instr) = _
  rw [decodeDiag.eq_1, h8]
  show (zero W 20 3 (.dxtr (flag W 19) (flag W 18) (xr W 8) (xr W 23)) |>.bind (zero W 13 5) : Except Reject Instr) = _
  simp only [h1, h2, h3, h4, h5, h6, h7, h8, bit_beq, xr, lo8, lane, bv, flag, zero, Except.bind, ofNat_val, ofNat_toNat, if_true, if_false, Nat.reduceBEq, Bool.false_eq_true, true_and, and_true, and_self, or_self, not_false_eq_true, ne_eq, Nat.reduceLT, Nat.reduceLeDiff, Nat.reduceEqDiff, bit_zero, bit_one]
theorem codes_encDxtr (ne : Bool) (m : Bool) (d : VReg) (x : XReg) : Codes (encDxtr ne m d x) (.dxtr ne m d x) := by
  have hb0 := bit_lt ne
  have hb1 := bit_lt m
  have hb2 := d.isLt
  have hb3 := x.isLt
  show Codes (4, fD 5 x (bit ne * 2 + bit m) 0 d) (.dxtr ne m d x)
  have F := @fD_fields (5) (x.val) ((bit ne * 2 + bit m)) (0) (d.val) (by omega) (by omega) (by omega) (by omega) (by omega)
  obtain ⟨hm, f28_4, f23_5, f18_5, f13_5, f8_5, f0_2, f2_6⟩ := F
  exact .word hm f0_2 (decodeBits_ofDxtr ne m d x hm (f0_2.trans (by omega)) (f2_6.trans (by omega)) (f8_5.trans (by omega)) (f13_5.trans (by omega)) ((fld_sub (o := 0) (k := 1) f18_5 rfl (by decide)).trans (by omega)) ((fld_sub (o := 1) (k := 1) f18_5 rfl (by decide)).trans (by omega)) ((fld_sub (o := 2) (k := 3) f18_5 rfl (by decide)).trans (by omega)) (f23_5.trans (by omega)) (f28_4.trans (by omega)))

theorem decodeBits_ofDdir (d : XReg) (x : XReg) {W : Nat} (hm : W < 2 ^ 32) (h0 : fld W 0 2 = 1) (h1 : fld W 2 6 = 48) (h2 : fld W 8 5 = d.val) (h3 : fld W 13 10 = 0) (h4 : fld W 23 5 = x.val) (h5 : fld W 28 4 = 6) : decodeBits W = .ok (.ddir d x) := by
  have hb0 := d.isLt
  have hb1 := x.isLt
  rw [decodeBits_word h0 hm]
  rw [decode32.eq_1, h1]
  show (decodeDiag W : Except Reject Instr) = _
  rw [decodeDiag.eq_1, h5]
  show (zero W 13 10 (.ddir (xr W 8) (xr W 23)) : Except Reject Instr) = _
  simp only [h1, h2, h3, h4, h5, xr, lo8, lane, bv, flag, zero, Except.bind, ofNat_val, ofNat_toNat, if_true, if_false, Nat.reduceBEq, Bool.false_eq_true, true_and, and_true, and_self, or_self, not_false_eq_true, ne_eq, Nat.reduceLT, Nat.reduceLeDiff, Nat.reduceEqDiff, bit_zero, bit_one]
theorem codes_encDdir (d : XReg) (x : XReg) : Codes (encDdir d x) (.ddir d x) := by
  have hb0 := d.isLt
  have hb1 := x.isLt
  show Codes (4, fD 6 x 0 0 d) (.ddir d x)
  have F := @fD_fields (6) (x.val) (0) (0) (d.val) (by omega) (by omega) (by omega) (by omega) (by omega)
  obtain ⟨hm, f28_4, f23_5, f18_5, f13_5, f8_5, f0_2, f2_6⟩ := F
  exact .word hm f0_2 (decodeBits_ofDdir d x hm (f0_2.trans (by omega)) (f2_6.trans (by omega)) (f8_5.trans (by omega)) ((fld_app f13_5 f18_5 rfl rfl).trans (by omega)) (f23_5.trans (by omega)) (f28_4.trans (by omega)))

theorem decodeBits_ofDfree (x : XReg) {W : Nat} (hm : W < 2 ^ 32) (h0 : fld W 0 2 = 1) (h1 : fld W 2 6 = 48) (h2 : fld W 8 15 = 0) (h3 : fld W 23 5 = x.val) (h4 : fld W 28 4 = 7) : decodeBits W = .ok (.dfree x) := by
  have hb0 := x.isLt
  rw [decodeBits_word h0 hm]
  rw [decode32.eq_1, h1]
  show (decodeDiag W : Except Reject Instr) = _
  rw [decodeDiag.eq_1, h4]
  show (zero W 8 15 (.dfree (xr W 23)) : Except Reject Instr) = _
  simp only [h1, h2, h3, h4, xr, lo8, lane, bv, flag, zero, Except.bind, ofNat_val, ofNat_toNat, if_true, if_false, Nat.reduceBEq, Bool.false_eq_true, true_and, and_true, and_self, or_self, not_false_eq_true, ne_eq, Nat.reduceLT, Nat.reduceLeDiff, Nat.reduceEqDiff, bit_zero, bit_one]
theorem codes_encDfree (x : XReg) : Codes (encDfree x) (.dfree x) := by
  have hb0 := x.isLt
  show Codes (4, fD 7 x 0 0 0) (.dfree x)
  have F := @fD_fields (7) (x.val) (0) (0) (0) (by omega) (by omega) (by omega) (by omega) (by omega)
  obtain ⟨hm, f28_4, f23_5, f18_5, f13_5, f8_5, f0_2, f2_6⟩ := F
  exact .word hm f0_2 (decodeBits_ofDfree x hm (f0_2.trans (by omega)) (f2_6.trans (by omega)) ((fld_app f8_5 (fld_app f13_5 f18_5 rfl rfl) rfl rfl).trans (by omega)) (f23_5.trans (by omega)) (f28_4.trans (by omega)))

theorem decodeBits_ofDmv (d : VReg) (a : VReg) (b : VReg) (x : XReg) {W : Nat} (hm : W < 2 ^ 32) (h0 : fld W 0 2 = 1) (h1 : fld W 2 6 = 48) (h2 : fld W 8 5 = d.val) (h3 : fld W 13 5 = a.val) (h4 : fld W 18 5 = b.val) (h5 : fld W 23 5 = x.val) (h6 : fld W 28 4 = 8) : decodeBits W = .ok (.dmv d a b x) := by
  have hb0 := d.isLt
  have hb1 := a.isLt
  have hb2 := b.isLt
  have hb3 := x.isLt
  rw [decodeBits_word h0 hm]
  rw [decode32.eq_1, h1]
  show (decodeDiag W : Except Reject Instr) = _
  rw [decodeDiag.eq_1, h6]
  show (.ok (.dmv (xr W 8) (xr W 13) (xr W 18) (xr W 23)) : Except Reject Instr) = _
  simp only [h1, h2, h3, h4, h5, h6, xr, lo8, lane, bv, flag, zero, Except.bind, ofNat_val, ofNat_toNat, if_true, if_false, Nat.reduceBEq, Bool.false_eq_true, true_and, and_true, and_self, or_self, not_false_eq_true, ne_eq, Nat.reduceLT, Nat.reduceLeDiff, Nat.reduceEqDiff, bit_zero, bit_one]
theorem codes_encDmv (d : VReg) (a : VReg) (b : VReg) (x : XReg) : Codes (encDmv d a b x) (.dmv d a b x) := by
  have hb0 := d.isLt
  have hb1 := a.isLt
  have hb2 := b.isLt
  have hb3 := x.isLt
  show Codes (4, fD 8 x b a d) (.dmv d a b x)
  have F := @fD_fields (8) (x.val) (b.val) (a.val) (d.val) (by omega) (by omega) (by omega) (by omega) (by omega)
  obtain ⟨hm, f28_4, f23_5, f18_5, f13_5, f8_5, f0_2, f2_6⟩ := F
  exact .word hm f0_2 (decodeBits_ofDmv d a b x hm (f0_2.trans (by omega)) (f2_6.trans (by omega)) (f8_5.trans (by omega)) (f13_5.trans (by omega)) (f18_5.trans (by omega)) (f23_5.trans (by omega)) (f28_4.trans (by omega)))

theorem decodeBits_ofDmvM (d : VReg) (a : VReg) (b : VReg) (x : XReg) {W : Nat} (hm : W < 2 ^ 32) (h0 : fld W 0 2 = 1) (h1 : fld W 2 6 = 48) (h2 : fld W 8 5 = d.val) (h3 : fld W 13 5 = a.val) (h4 : fld W 18 5 = b.val) (h5 : fld W 23 5 = x.val) (h6 : fld W 28 4 = 9) : decodeBits W = .ok (.dmvM d a b x) := by
  have hb0 := d.isLt
  have hb1 := a.isLt
  have hb2 := b.isLt
  have hb3 := x.isLt
  rw [decodeBits_word h0 hm]
  rw [decode32.eq_1, h1]
  show (decodeDiag W : Except Reject Instr) = _
  rw [decodeDiag.eq_1, h6]
  show (.ok (.dmvM (xr W 8) (xr W 13) (xr W 18) (xr W 23)) : Except Reject Instr) = _
  simp only [h1, h2, h3, h4, h5, h6, xr, lo8, lane, bv, flag, zero, Except.bind, ofNat_val, ofNat_toNat, if_true, if_false, Nat.reduceBEq, Bool.false_eq_true, true_and, and_true, and_self, or_self, not_false_eq_true, ne_eq, Nat.reduceLT, Nat.reduceLeDiff, Nat.reduceEqDiff, bit_zero, bit_one]
theorem codes_encDmvM (d : VReg) (a : VReg) (b : VReg) (x : XReg) : Codes (encDmvM d a b x) (.dmvM d a b x) := by
  have hb0 := d.isLt
  have hb1 := a.isLt
  have hb2 := b.isLt
  have hb3 := x.isLt
  show Codes (4, fD 9 x b a d) (.dmvM d a b x)
  have F := @fD_fields (9) (x.val) (b.val) (a.val) (d.val) (by omega) (by omega) (by omega) (by omega) (by omega)
  obtain ⟨hm, f28_4, f23_5, f18_5, f13_5, f8_5, f0_2, f2_6⟩ := F
  exact .word hm f0_2 (decodeBits_ofDmvM d a b x hm (f0_2.trans (by omega)) (f2_6.trans (by omega)) (f8_5.trans (by omega)) (f13_5.trans (by omega)) (f18_5.trans (by omega)) (f23_5.trans (by omega)) (f28_4.trans (by omega)))

theorem decodeBits_ofDpiv (m : Bool) (d : VReg) (a : VReg) {W : Nat} (hm : W < 2 ^ 32) (h0 : fld W 0 2 = 1) (h1 : fld W 2 6 = 48) (h2 : fld W 8 5 = d.val) (h3 : fld W 13 5 = a.val) (h4 : fld W 18 1 = (bit m)) (h5 : fld W 19 9 = 0) (h6 : fld W 28 4 = 10) : decodeBits W = .ok (.dpiv m d a) := by
  have hb0 := bit_lt m
  have hb1 := d.isLt
  have hb2 := a.isLt
  rw [decodeBits_word h0 hm]
  rw [decode32.eq_1, h1]
  show (decodeDiag W : Except Reject Instr) = _
  rw [decodeDiag.eq_1, h6]
  show (zero W 19 9 (.dpiv (flag W 18) (xr W 8) (xr W 13)) : Except Reject Instr) = _
  simp only [h1, h2, h3, h4, h5, h6, bit_beq, xr, lo8, lane, bv, flag, zero, Except.bind, ofNat_val, ofNat_toNat, if_true, if_false, Nat.reduceBEq, Bool.false_eq_true, true_and, and_true, and_self, or_self, not_false_eq_true, ne_eq, Nat.reduceLT, Nat.reduceLeDiff, Nat.reduceEqDiff, bit_zero, bit_one]
theorem codes_encDpiv (m : Bool) (d : VReg) (a : VReg) : Codes (encDpiv m d a) (.dpiv m d a) := by
  have hb0 := bit_lt m
  have hb1 := d.isLt
  have hb2 := a.isLt
  show Codes (4, fD 10 0 (bit m) a d) (.dpiv m d a)
  have F := @fD_fields (10) (0) ((bit m)) (a.val) (d.val) (by omega) (by omega) (by omega) (by omega) (by omega)
  obtain ⟨hm, f28_4, f23_5, f18_5, f13_5, f8_5, f0_2, f2_6⟩ := F
  exact .word hm f0_2 (decodeBits_ofDpiv m d a hm (f0_2.trans (by omega)) (f2_6.trans (by omega)) (f8_5.trans (by omega)) (f13_5.trans (by omega)) ((fld_sub (o := 0) (k := 1) f18_5 rfl (by decide)).trans (by omega)) ((fld_app (fld_sub (o := 1) (k := 4) f18_5 rfl (by decide)) f23_5 rfl rfl).trans (by omega)) (f28_4.trans (by omega)))

theorem decodeBits_ofDupd (m : Bool) (a : VReg) (x : XReg) {W : Nat} (hm : W < 2 ^ 32) (h0 : fld W 0 2 = 1) (h1 : fld W 2 6 = 48) (h2 : fld W 8 5 = 0) (h3 : fld W 13 5 = a.val) (h4 : fld W 18 1 = (bit m)) (h5 : fld W 19 4 = 0) (h6 : fld W 23 5 = x.val) (h7 : fld W 28 4 = 11) : decodeBits W = .ok (.dupd m a x) := by
  have hb0 := bit_lt m
  have hb1 := a.isLt
  have hb2 := x.isLt
  rw [decodeBits_word h0 hm]
  rw [decode32.eq_1, h1]
  show (decodeDiag W : Except Reject Instr) = _
  rw [decodeDiag.eq_1, h7]
  show (zero W 19 4 (.dupd (flag W 18) (xr W 13) (xr W 23)) |>.bind (zero W 8 5) : Except Reject Instr) = _
  simp only [h1, h2, h3, h4, h5, h6, h7, bit_beq, xr, lo8, lane, bv, flag, zero, Except.bind, ofNat_val, ofNat_toNat, if_true, if_false, Nat.reduceBEq, Bool.false_eq_true, true_and, and_true, and_self, or_self, not_false_eq_true, ne_eq, Nat.reduceLT, Nat.reduceLeDiff, Nat.reduceEqDiff, bit_zero, bit_one]
theorem codes_encDupd (m : Bool) (a : VReg) (x : XReg) : Codes (encDupd m a x) (.dupd m a x) := by
  have hb0 := bit_lt m
  have hb1 := a.isLt
  have hb2 := x.isLt
  show Codes (4, fD 11 x (bit m) a 0) (.dupd m a x)
  have F := @fD_fields (11) (x.val) ((bit m)) (a.val) (0) (by omega) (by omega) (by omega) (by omega) (by omega)
  obtain ⟨hm, f28_4, f23_5, f18_5, f13_5, f8_5, f0_2, f2_6⟩ := F
  exact .word hm f0_2 (decodeBits_ofDupd m a x hm (f0_2.trans (by omega)) (f2_6.trans (by omega)) (f8_5.trans (by omega)) (f13_5.trans (by omega)) ((fld_sub (o := 0) (k := 1) f18_5 rfl (by decide)).trans (by omega)) ((fld_sub (o := 1) (k := 4) f18_5 rfl (by decide)).trans (by omega)) (f23_5.trans (by omega)) (f28_4.trans (by omega)))

theorem decodeBits_ofXcopy (ex : Bool) (z : Sz) (h : Lane4) (o : Ord) (d : XReg) (a : XReg) (b : VReg) {W : Nat} (hm : W < 2 ^ 32) (h0 : fld W 0 2 = 1) (h1 : fld W 2 6 = 52) (h2 : fld W 8 5 = d.val) (h3 : fld W 13 5 = a.val) (h4 : fld W 18 5 = b.val) (h5 : fld W 23 3 = o.code) (h6 : fld W 26 2 = h.val) (h7 : fld W 28 2 = z.code) (h8 : fld W 30 1 = (bit ex)) (h9 : fld W 31 1 = 0) : decodeBits W = .ok (.xcopy ex z h o d a b) := by
  have hb0 := bit_lt ex
  have hb1 := Sz.code_lt z
  have hb2 := h.isLt
  have hb3 := Ord.code_lt o
  have hb4 := d.isLt
  have hb5 := a.isLt
  have hb6 := b.isLt
  rw [decodeBits_word h0 hm]
  rw [decode32.eq_1, h1]
  show (decodeX W : Except Reject Instr) = _
  rw [decodeX.eq_1, h9]
  show (withOrd W fun o => .xcopy (flag W 30) (Sz.ofCode (fld W 28 2)) (lane W 26) o (xr W 8) (xr W 13) (xr W 18) : Except Reject Instr) = _
  simp only [h1, h2, h3, h4, h5, h6, h7, h8, h9, withOrd, Ord.ofCode_code, Sz.ofCode_code, bit_beq, xr, lo8, lane, bv, flag, zero, Except.bind, ofNat_val, ofNat_toNat, if_true, if_false, Nat.reduceBEq, Bool.false_eq_true, true_and, and_true, and_self, or_self, not_false_eq_true, ne_eq, Nat.reduceLT, Nat.reduceLeDiff, Nat.reduceEqDiff, bit_zero, bit_one]
theorem codes_encXcopy (ex : Bool) (z : Sz) (h : Lane4) (o : Ord) (d : XReg) (a : XReg) (b : VReg) : Codes (encXcopy ex z h o d a b) (.xcopy ex z h o d a b) := by
  have hb0 := bit_lt ex
  have hb1 := Sz.code_lt z
  have hb2 := h.isLt
  have hb3 := Ord.code_lt o
  have hb4 := d.isLt
  have hb5 := a.isLt
  have hb6 := b.isLt
  show Codes (4, fA (bit ex * 2 ^ 7 + z.code * 2 ^ 5 + h.val * 2 ^ 3 + o.code) b a d 0x34) (.xcopy ex z h o d a b)
  have F := @fA_fields ((bit ex * 2 ^ 7 + z.code * 2 ^ 5 + h.val * 2 ^ 3 + o.code)) (b.val) (a.val) (d.val) (0x34) (by omega) (by omega) (by omega) (by omega) (by omega)
  obtain ⟨hm, f23_9, f18_5, f13_5, f8_5, f2_6, f0_2⟩ := F
  exact .word hm f0_2 (decodeBits_ofXcopy ex z h o d a b hm (f0_2.trans (by omega)) (f2_6.trans (by omega)) (f8_5.trans (by omega)) (f13_5.trans (by omega)) (f18_5.trans (by omega)) ((fld_sub (o := 0) (k := 3) f23_9 rfl (by decide)).trans (by omega)) ((fld_sub (o := 3) (k := 2) f23_9 rfl (by decide)).trans (by omega)) ((fld_sub (o := 5) (k := 2) f23_9 rfl (by decide)).trans (by omega)) ((fld_sub (o := 7) (k := 1) f23_9 rfl (by decide)).trans (by omega)) ((fld_sub (o := 8) (k := 1) f23_9 rfl (by decide)).trans (by omega)))

theorem decodeBits_ofXgath (h : Lane4) (o : Ord) (d : XReg) (a : XReg) (b : VReg) {W : Nat} (hm : W < 2 ^ 32) (h0 : fld W 0 2 = 1) (h1 : fld W 2 6 = 52) (h2 : fld W 8 5 = d.val) (h3 : fld W 13 5 = a.val) (h4 : fld W 18 5 = b.val) (h5 : fld W 23 3 = o.code) (h6 : fld W 26 2 = h.val) (h7 : fld W 28 3 = 0) (h8 : fld W 31 1 = 1) : decodeBits W = .ok (.xgath h o d a b) := by
  have hb0 := h.isLt
  have hb1 := Ord.code_lt o
  have hb2 := d.isLt
  have hb3 := a.isLt
  have hb4 := b.isLt
  rw [decodeBits_word h0 hm]
  rw [decode32.eq_1, h1]
  show (decodeX W : Except Reject Instr) = _
  rw [decodeX.eq_1, h8]
  show (decodeX1 W : Except Reject Instr) = _
  rw [decodeX1.eq_1, h7]
  show (withOrd W fun o => .xgath (lane W 26) o (xr W 8) (xr W 13) (xr W 18) : Except Reject Instr) = _
  simp only [h1, h2, h3, h4, h5, h6, h7, h8, withOrd, Ord.ofCode_code, xr, lo8, lane, bv, flag, zero, Except.bind, ofNat_val, ofNat_toNat, if_true, if_false, Nat.reduceBEq, Bool.false_eq_true, true_and, and_true, and_self, or_self, not_false_eq_true, ne_eq, Nat.reduceLT, Nat.reduceLeDiff, Nat.reduceEqDiff, bit_zero, bit_one]
theorem codes_encXgath (h : Lane4) (o : Ord) (d : XReg) (a : XReg) (b : VReg) : Codes (encXgath h o d a b) (.xgath h o d a b) := by
  have hb0 := h.isLt
  have hb1 := Ord.code_lt o
  have hb2 := d.isLt
  have hb3 := a.isLt
  have hb4 := b.isLt
  show Codes (4, fA (2 ^ 8 + 0 * 2 ^ 5 + h.val * 2 ^ 3 + o.code) b a d 0x34) (.xgath h o d a b)
  have F := @fA_fields ((2 ^ 8 + 0 * 2 ^ 5 + h.val * 2 ^ 3 + o.code)) (b.val) (a.val) (d.val) (0x34) (by omega) (by omega) (by omega) (by omega) (by omega)
  obtain ⟨hm, f23_9, f18_5, f13_5, f8_5, f2_6, f0_2⟩ := F
  exact .word hm f0_2 (decodeBits_ofXgath h o d a b hm (f0_2.trans (by omega)) (f2_6.trans (by omega)) (f8_5.trans (by omega)) (f13_5.trans (by omega)) (f18_5.trans (by omega)) ((fld_sub (o := 0) (k := 3) f23_9 rfl (by decide)).trans (by omega)) ((fld_sub (o := 3) (k := 2) f23_9 rfl (by decide)).trans (by omega)) ((fld_sub (o := 5) (k := 3) f23_9 rfl (by decide)).trans (by omega)) ((fld_sub (o := 8) (k := 1) f23_9 rfl (by decide)).trans (by omega)))

theorem decodeBits_ofXxform (h : Lane4) (o : Ord) (a : XReg) (b : XReg) {W : Nat} (hm : W < 2 ^ 32) (h0 : fld W 0 2 = 1) (h1 : fld W 2 6 = 52) (h2 : fld W 8 5 = 0) (h3 : fld W 13 5 = a.val) (h4 : fld W 18 5 = b.val) (h5 : fld W 23 3 = o.code) (h6 : fld W 26 2 = h.val) (h7 : fld W 28 3 = 1) (h8 : fld W 31 1 = 1) : decodeBits W = .ok (.xxform h o a b) := by
  have hb0 := h.isLt
  have hb1 := Ord.code_lt o
  have hb2 := a.isLt
  have hb3 := b.isLt
  rw [decodeBits_word h0 hm]
  rw [decode32.eq_1, h1]
  show (decodeX W : Except Reject Instr) = _
  rw [decodeX.eq_1, h8]
  show (decodeX1 W : Except Reject Instr) = _
  rw [decodeX1.eq_1, h7]
  show ((withOrd W fun o => .xxform (lane W 26) o (xr W 13) (xr W 18)) |>.bind (zero W 8 5) : Except Reject Instr) = _
  simp only [h1, h2, h3, h4, h5, h6, h7, h8, withOrd, Ord.ofCode_code, xr, lo8, lane, bv, flag, zero, Except.bind, ofNat_val, ofNat_toNat, if_true, if_false, Nat.reduceBEq, Bool.false_eq_true, true_and, and_true, and_self, or_self, not_false_eq_true, ne_eq, Nat.reduceLT, Nat.reduceLeDiff, Nat.reduceEqDiff, bit_zero, bit_one]
theorem codes_encXxform (h : Lane4) (o : Ord) (a : XReg) (b : XReg) : Codes (encXxform h o a b) (.xxform h o a b) := by
  have hb0 := h.isLt
  have hb1 := Ord.code_lt o
  have hb2 := a.isLt
  have hb3 := b.isLt
  show Codes (4, fA (2 ^ 8 + 1 * 2 ^ 5 + h.val * 2 ^ 3 + o.code) b a 0 0x34) (.xxform h o a b)
  have F := @fA_fields ((2 ^ 8 + 1 * 2 ^ 5 + h.val * 2 ^ 3 + o.code)) (b.val) (a.val) (0) (0x34) (by omega) (by omega) (by omega) (by omega) (by omega)
  obtain ⟨hm, f23_9, f18_5, f13_5, f8_5, f2_6, f0_2⟩ := F
  exact .word hm f0_2 (decodeBits_ofXxform h o a b hm (f0_2.trans (by omega)) (f2_6.trans (by omega)) (f8_5.trans (by omega)) (f13_5.trans (by omega)) (f18_5.trans (by omega)) ((fld_sub (o := 0) (k := 3) f23_9 rfl (by decide)).trans (by omega)) ((fld_sub (o := 3) (k := 2) f23_9 rfl (by decide)).trans (by omega)) ((fld_sub (o := 5) (k := 3) f23_9 rfl (by decide)).trans (by omega)) ((fld_sub (o := 8) (k := 1) f23_9 rfl (by decide)).trans (by omega)))

theorem decodeBits_ofXdrain (h : Lane4) {W : Nat} (hm : W < 2 ^ 32) (h0 : fld W 0 2 = 1) (h1 : fld W 2 6 = 52) (h2 : fld W 8 18 = 0) (h3 : fld W 26 2 = h.val) (h4 : fld W 28 3 = 2) (h5 : fld W 31 1 = 1) : decodeBits W = .ok (.xdrain h) := by
  have hb0 := h.isLt
  rw [decodeBits_word h0 hm]
  rw [decode32.eq_1, h1]
  show (decodeX W : Except Reject Instr) = _
  rw [decodeX.eq_1, h5]
  show (decodeX1 W : Except Reject Instr) = _
  rw [decodeX1.eq_1, h4]
  show (zero W 8 18 (.xdrain (lane W 26)) : Except Reject Instr) = _
  simp only [h1, h2, h3, h4, h5, xr, lo8, lane, bv, flag, zero, Except.bind, ofNat_val, ofNat_toNat, if_true, if_false, Nat.reduceBEq, Bool.false_eq_true, true_and, and_true, and_self, or_self, not_false_eq_true, ne_eq, Nat.reduceLT, Nat.reduceLeDiff, Nat.reduceEqDiff, bit_zero, bit_one]
theorem codes_encXdrain (h : Lane4) : Codes (encXdrain h) (.xdrain h) := by
  have hb0 := h.isLt
  show Codes (4, fA (2 ^ 8 + 2 * 2 ^ 5 + h.val * 2 ^ 3) 0 0 0 0x34) (.xdrain h)
  have F := @fA_fields ((2 ^ 8 + 2 * 2 ^ 5 + h.val * 2 ^ 3)) (0) (0) (0) (0x34) (by omega) (by omega) (by omega) (by omega) (by omega)
  obtain ⟨hm, f23_9, f18_5, f13_5, f8_5, f2_6, f0_2⟩ := F
  exact .word hm f0_2 (decodeBits_ofXdrain h hm (f0_2.trans (by omega)) (f2_6.trans (by omega)) ((fld_app f8_5 (fld_app f13_5 (fld_app f18_5 (fld_sub (o := 0) (k := 3) f23_9 rfl (by decide)) rfl rfl) rfl rfl) rfl rfl).trans (by omega)) ((fld_sub (o := 3) (k := 2) f23_9 rfl (by decide)).trans (by omega)) ((fld_sub (o := 5) (k := 3) f23_9 rfl (by decide)).trans (by omega)) ((fld_sub (o := 8) (k := 1) f23_9 rfl (by decide)).trans (by omega)))

theorem decodeBits_ofXchain (a : VReg) (b : XReg) {W : Nat} (hm : W < 2 ^ 32) (h0 : fld W 0 2 = 1) (h1 : fld W 2 6 = 52) (h2 : fld W 8 5 = 0) (h3 : fld W 13 5 = a.val) (h4 : fld W 18 5 = b.val) (h5 : fld W 23 5 = 0) (h6 : fld W 28 3 = 3) (h7 : fld W 31 1 = 1) : decodeBits W = .ok (.xchain a b) := by
  have hb0 := a.isLt
  have hb1 := b.isLt
  rw [decodeBits_word h0 hm]
  rw [decode32.eq_1, h1]
  show (decodeX W : Except Reject Instr) = _
  rw [decodeX.eq_1, h7]
  show (decodeX1 W : Except Reject Instr) = _
  rw [decodeX1.eq_1, h6]
  show (zero W 23 5 (.xchain (xr W 13) (xr W 18)) |>.bind (zero W 8 5) : Except Reject Instr) = _
  simp only [h1, h2, h3, h4, h5, h6, h7, xr, lo8, lane, bv, flag, zero, Except.bind, ofNat_val, ofNat_toNat, if_true, if_false, Nat.reduceBEq, Bool.false_eq_true, true_and, and_true, and_self, or_self, not_false_eq_true, ne_eq, Nat.reduceLT, Nat.reduceLeDiff, Nat.reduceEqDiff, bit_zero, bit_one]
theorem codes_encXchain (a : VReg) (b : XReg) : Codes (encXchain a b) (.xchain a b) := by
  have hb0 := a.isLt
  have hb1 := b.isLt
  show Codes (4, fA (2 ^ 8 + 3 * 2 ^ 5) b a 0 0x34) (.xchain a b)
  have F := @fA_fields ((2 ^ 8 + 3 * 2 ^ 5)) (b.val) (a.val) (0) (0x34) (by omega) (by omega) (by omega) (by omega) (by omega)
  obtain ⟨hm, f23_9, f18_5, f13_5, f8_5, f2_6, f0_2⟩ := F
  exact .word hm f0_2 (decodeBits_ofXchain a b hm (f0_2.trans (by omega)) (f2_6.trans (by omega)) (f8_5.trans (by omega)) (f13_5.trans (by omega)) (f18_5.trans (by omega)) ((fld_sub (o := 0) (k := 5) f23_9 rfl (by decide)).trans (by omega)) ((fld_sub (o := 5) (k := 3) f23_9 rfl (by decide)).trans (by omega)) ((fld_sub (o := 8) (k := 1) f23_9 rfl (by decide)).trans (by omega)))

theorem decodeBits_ofSbind (d : SReg) (a : XReg) (b : XReg) {W : Nat} (hm : W < 2 ^ 32) (h0 : fld W 0 2 = 1) (h1 : fld W 2 6 = 52) (h2 : fld W 8 2 = d.val) (h3 : fld W 10 3 = 0) (h4 : fld W 13 5 = a.val) (h5 : fld W 18 5 = b.val) (h6 : fld W 23 5 = 0) (h7 : fld W 28 3 = 4) (h8 : fld W 31 1 = 1) : decodeBits W = .ok (.sbind d a b) := by
  have hb0 := d.isLt
  have hb1 := a.isLt
  have hb2 := b.isLt
  rw [decodeBits_word h0 hm]
  rw [decode32.eq_1, h1]
  show (decodeX W : Except Reject Instr) = _
  rw [decodeX.eq_1, h8]
  show (decodeX1 W : Except Reject Instr) = _
  rw [decodeX1.eq_1, h7]
  show (zero W 23 5 (.sbind (lane W 8) (xr W 13) (xr W 18)) |>.bind (zero W 10 3) : Except Reject Instr) = _
  simp only [h1, h2, h3, h4, h5, h6, h7, h8, xr, lo8, lane, bv, flag, zero, Except.bind, ofNat_val, ofNat_toNat, if_true, if_false, Nat.reduceBEq, Bool.false_eq_true, true_and, and_true, and_self, or_self, not_false_eq_true, ne_eq, Nat.reduceLT, Nat.reduceLeDiff, Nat.reduceEqDiff, bit_zero, bit_one]
theorem codes_encSbind (d : SReg) (a : XReg) (b : XReg) : Codes (encSbind d a b) (.sbind d a b) := by
  have hb0 := d.isLt
  have hb1 := a.isLt
  have hb2 := b.isLt
  show Codes (4, fA (2 ^ 8 + 4 * 2 ^ 5) b a d 0x34) (.sbind d a b)
  have F := @fA_fields ((2 ^ 8 + 4 * 2 ^ 5)) (b.val) (a.val) (d.val) (0x34) (by omega) (by omega) (by omega) (by omega) (by omega)
  obtain ⟨hm, f23_9, f18_5, f13_5, f8_5, f2_6, f0_2⟩ := F
  exact .word hm f0_2 (decodeBits_ofSbind d a b hm (f0_2.trans (by omega)) (f2_6.trans (by omega)) ((fld_sub (o := 0) (k := 2) f8_5 rfl (by decide)).trans (by omega)) ((fld_sub (o := 2) (k := 3) f8_5 rfl (by decide)).trans (by omega)) (f13_5.trans (by omega)) (f18_5.trans (by omega)) ((fld_sub (o := 0) (k := 5) f23_9 rfl (by decide)).trans (by omega)) ((fld_sub (o := 5) (k := 3) f23_9 rfl (by decide)).trans (by omega)) ((fld_sub (o := 8) (k := 1) f23_9 rfl (by decide)).trans (by omega)))

theorem decodeBits_ofSrel (d : SReg) {W : Nat} (hm : W < 2 ^ 32) (h0 : fld W 0 2 = 1) (h1 : fld W 2 6 = 52) (h2 : fld W 8 2 = d.val) (h3 : fld W 10 18 = 0) (h4 : fld W 28 3 = 5) (h5 : fld W 31 1 = 1) : decodeBits W = .ok (.srel d) := by
  have hb0 := d.isLt
  rw [decodeBits_word h0 hm]
  rw [decode32.eq_1, h1]
  show (decodeX W : Except Reject Instr) = _
  rw [decodeX.eq_1, h5]
  show (decodeX1 W : Except Reject Instr) = _
  rw [decodeX1.eq_1, h4]
  show (zero W 10 18 (.srel (lane W 8)) : Except Reject Instr) = _
  simp only [h1, h2, h3, h4, h5, xr, lo8, lane, bv, flag, zero, Except.bind, ofNat_val, ofNat_toNat, if_true, if_false, Nat.reduceBEq, Bool.false_eq_true, true_and, and_true, and_self, or_self, not_false_eq_true, ne_eq, Nat.reduceLT, Nat.reduceLeDiff, Nat.reduceEqDiff, bit_zero, bit_one]
theorem codes_encSrel (d : SReg) : Codes (encSrel d) (.srel d) := by
  have hb0 := d.isLt
  show Codes (4, fA (2 ^ 8 + 5 * 2 ^ 5) 0 0 d 0x34) (.srel d)
  have F := @fA_fields ((2 ^ 8 + 5 * 2 ^ 5)) (0) (0) (d.val) (0x34) (by omega) (by omega) (by omega) (by omega) (by omega)
  obtain ⟨hm, f23_9, f18_5, f13_5, f8_5, f2_6, f0_2⟩ := F
  exact .word hm f0_2 (decodeBits_ofSrel d hm (f0_2.trans (by omega)) (f2_6.trans (by omega)) ((fld_sub (o := 0) (k := 2) f8_5 rfl (by decide)).trans (by omega)) ((fld_app (fld_sub (o := 2) (k := 3) f8_5 rfl (by decide)) (fld_app f13_5 (fld_app f18_5 (fld_sub (o := 0) (k := 5) f23_9 rfl (by decide)) rfl rfl) rfl rfl) rfl rfl).trans (by omega)) ((fld_sub (o := 5) (k := 3) f23_9 rfl (by decide)).trans (by omega)) ((fld_sub (o := 8) (k := 1) f23_9 rfl (by decide)).trans (by omega)))

theorem decodeBits_ofSstat (d : XReg) (a : SReg) {W : Nat} (hm : W < 2 ^ 32) (h0 : fld W 0 2 = 1) (h1 : fld W 2 6 = 52) (h2 : fld W 8 5 = d.val) (h3 : fld W 13 2 = a.val) (h4 : fld W 15 13 = 0) (h5 : fld W 28 3 = 6) (h6 : fld W 31 1 = 1) : decodeBits W = .ok (.sstat d a) := by
  have hb0 := d.isLt
  have hb1 := a.isLt
  rw [decodeBits_word h0 hm]
  rw [decode32.eq_1, h1]
  show (decodeX W : Except Reject Instr) = _
  rw [decodeX.eq_1, h6]
  show (decodeX1 W : Except Reject Instr) = _
  rw [decodeX1.eq_1, h5]
  show (zero W 15 13 (.sstat (xr W 8) (lane W 13)) : Except Reject Instr) = _
  simp only [h1, h2, h3, h4, h5, h6, xr, lo8, lane, bv, flag, zero, Except.bind, ofNat_val, ofNat_toNat, if_true, if_false, Nat.reduceBEq, Bool.false_eq_true, true_and, and_true, and_self, or_self, not_false_eq_true, ne_eq, Nat.reduceLT, Nat.reduceLeDiff, Nat.reduceEqDiff, bit_zero, bit_one]
theorem codes_encSstat (d : XReg) (a : SReg) : Codes (encSstat d a) (.sstat d a) := by
  have hb0 := d.isLt
  have hb1 := a.isLt
  show Codes (4, fA (2 ^ 8 + 6 * 2 ^ 5) 0 a d 0x34) (.sstat d a)
  have F := @fA_fields ((2 ^ 8 + 6 * 2 ^ 5)) (0) (a.val) (d.val) (0x34) (by omega) (by omega) (by omega) (by omega) (by omega)
  obtain ⟨hm, f23_9, f18_5, f13_5, f8_5, f2_6, f0_2⟩ := F
  exact .word hm f0_2 (decodeBits_ofSstat d a hm (f0_2.trans (by omega)) (f2_6.trans (by omega)) (f8_5.trans (by omega)) ((fld_sub (o := 0) (k := 2) f13_5 rfl (by decide)).trans (by omega)) ((fld_app (fld_sub (o := 2) (k := 3) f13_5 rfl (by decide)) (fld_app f18_5 (fld_sub (o := 0) (k := 5) f23_9 rfl (by decide)) rfl rfl) rfl rfl).trans (by omega)) ((fld_sub (o := 5) (k := 3) f23_9 rfl (by decide)).trans (by omega)) ((fld_sub (o := 8) (k := 1) f23_9 rfl (by decide)).trans (by omega)))

theorem decodeBits_ofCAddi (d : XReg) (i : BitVec 6) {W : Nat} (h : Instr.wf (.cAddi d i) = true) (hm : W < 2 ^ 16) (h0 : fld W 0 2 = 0) (h1 : fld W 2 6 = i.toNat) (h2 : fld W 8 5 = d.val) (h3 : fld W 13 3 = 0) : decodeBits W = .ok (.cAddi d i) := by
  have hb0 := d.isLt
  have hb1 := i.isLt
  have hz0 : ¬ d.val = 0 := by intro hc; have hc : d = 0 := Fin.ext hc; simp [Instr.wf, Instr.check, hc] at h
  have hz1 : ¬ i.toNat = 0 := by intro hc; have hc : i = 0 := BitVec.eq_of_toNat_eq hc; simp [Instr.wf, Instr.check, hc] at h; split at h <;> simp at h
  rw [decodeBits_half (by omega) hm]
  rw [decode16.eq_1, h0, h3]
  show (if fld W 8 5 = 0 then .error .unlisted else if fld W 2 6 = 0 then .error .unlisted else .ok (.cAddi (xr W 8) (bv 6 W 2)) : Except Reject Instr) = _
  simp only [h0, h1, h2, h3, xr, lo8, lane, bv, flag, zero, Except.bind, ofNat_val, ofNat_toNat, if_true, if_false, Nat.reduceBEq, Bool.false_eq_true, true_and, and_true, and_self, or_self, not_false_eq_true, ne_eq, Nat.reduceLT, Nat.reduceLeDiff, Nat.reduceEqDiff, bit_zero, bit_one, hz0, hz1]
theorem codes_encCAddi (d : XReg) (i : BitVec 6) (h : Instr.wf (.cAddi d i) = true) : Codes (encCAddi d i) (.cAddi d i) := by
  have hb0 := d.isLt
  have hb1 := i.isLt
  have hz0 : ¬ d.val = 0 := by intro hc; have hc : d = 0 := Fin.ext hc; simp [Instr.wf, Instr.check, hc] at h
  have hz1 : ¬ i.toNat = 0 := by intro hc; have hc : i = 0 := BitVec.eq_of_toNat_eq hc; simp [Instr.wf, Instr.check, hc] at h; split at h <;> simp at h
  show Codes (2, fC 0 (d.val * 2 ^ 6 + i.toNat) 0) (.cAddi d i)
  have F := @fC_fields (0) ((d.val * 2 ^ 6 + i.toNat)) (0) (by omega) (by omega) (by omega)
  obtain ⟨hm, f13_3, f2_11, f0_2⟩ := F
  exact .half hm (by omega) (decodeBits_ofCAddi d i h hm (f0_2.trans (by omega)) ((fld_sub (o := 0) (k := 6) f2_11 rfl (by decide)).trans (by omega)) ((fld_sub (o := 6) (k := 5) f2_11 rfl (by decide)).trans (by omega)) (f13_3.trans (by omega)))

theorem decodeBits_ofCLi (d : XReg) (i : BitVec 6) {W : Nat} (h : Instr.wf (.cLi d i) = true) (hm : W < 2 ^ 16) (h0 : fld W 0 2 = 0) (h1 : fld W 2 6 = i.toNat) (h2 : fld W 8 5 = d.val) (h3 : fld W 13 3 = 1) : decodeBits W = .ok (.cLi d i) := by
  have hb0 := d.isLt
  have hb1 := i.isLt
  have hz0 : ¬ d.val = 0 := by intro hc; have hc : d = 0 := Fin.ext hc; simp [Instr.wf, Instr.check, hc] at h
  rw [decodeBits_half (by omega) hm]
  rw [decode16.eq_1, h0, h3]
  show (if fld W 8 5 = 0 then .error .unlisted else .ok (.cLi (xr W 8) (bv 6 W 2)) : Except Reject Instr) = _
  simp only [h0, h1, h2, h3, xr, lo8, lane, bv, flag, zero, Except.bind, ofNat_val, ofNat_toNat, if_true, if_false, Nat.reduceBEq, Bool.false_eq_true, true_and, and_true, and_self, or_self, not_false_eq_true, ne_eq, Nat.reduceLT, Nat.reduceLeDiff, Nat.reduceEqDiff, bit_zero, bit_one, hz0]
theorem codes_encCLi (d : XReg) (i : BitVec 6) (h : Instr.wf (.cLi d i) = true) : Codes (encCLi d i) (.cLi d i) := by
  have hb0 := d.isLt
  have hb1 := i.isLt
  have hz0 : ¬ d.val = 0 := by intro hc; have hc : d = 0 := Fin.ext hc; simp [Instr.wf, Instr.check, hc] at h
  show Codes (2, fC 1 (d.val * 2 ^ 6 + i.toNat) 0) (.cLi d i)
  have F := @fC_fields (1) ((d.val * 2 ^ 6 + i.toNat)) (0) (by omega) (by omega) (by omega)
  obtain ⟨hm, f13_3, f2_11, f0_2⟩ := F
  exact .half hm (by omega) (decodeBits_ofCLi d i h hm (f0_2.trans (by omega)) ((fld_sub (o := 0) (k := 6) f2_11 rfl (by decide)).trans (by omega)) ((fld_sub (o := 6) (k := 5) f2_11 rfl (by decide)).trans (by omega)) (f13_3.trans (by omega)))

theorem decodeBits_ofCSlli (d : XReg) (s : BitVec 6) {W : Nat} (h : Instr.wf (.cSlli d s) = true) (hm : W < 2 ^ 16) (h0 : fld W 0 2 = 0) (h1 : fld W 2 6 = s.toNat) (h2 : fld W 8 5 = d.val) (h3 : fld W 13 3 = 2) : decodeBits W = .ok (.cSlli d s) := by
  have hb0 := d.isLt
  have hb1 := s.isLt
  have hz0 : ¬ d.val = 0 := by intro hc; have hc : d = 0 := Fin.ext hc; simp [Instr.wf, Instr.check, hc] at h
  have hz1 : ¬ s.toNat = 0 := by intro hc; have hc : s = 0 := BitVec.eq_of_toNat_eq hc; simp [Instr.wf, Instr.check, hc] at h; split at h <;> simp at h
  rw [decodeBits_half (by omega) hm]
  rw [decode16.eq_1, h0, h3]
  show (if fld W 8 5 = 0 then .error .unlisted else if fld W 2 6 = 0 then .error .unlisted else .ok (.cSlli (xr W 8) (bv 6 W 2)) : Except Reject Instr) = _
  simp only [h0, h1, h2, h3, xr, lo8, lane, bv, flag, zero, Except.bind, ofNat_val, ofNat_toNat, if_true, if_false, Nat.reduceBEq, Bool.false_eq_true, true_and, and_true, and_self, or_self, not_false_eq_true, ne_eq, Nat.reduceLT, Nat.reduceLeDiff, Nat.reduceEqDiff, bit_zero, bit_one, hz0, hz1]
theorem codes_encCSlli (d : XReg) (s : BitVec 6) (h : Instr.wf (.cSlli d s) = true) : Codes (encCSlli d s) (.cSlli d s) := by
  have hb0 := d.isLt
  have hb1 := s.isLt
  have hz0 : ¬ d.val = 0 := by intro hc; have hc : d = 0 := Fin.ext hc; simp [Instr.wf, Instr.check, hc] at h
  have hz1 : ¬ s.toNat = 0 := by intro hc; have hc : s = 0 := BitVec.eq_of_toNat_eq hc; simp [Instr.wf, Instr.check, hc] at h; split at h <;> simp at h
  show Codes (2, fC 2 (d.val * 2 ^ 6 + s.toNat) 0) (.cSlli d s)
  have F := @fC_fields (2) ((d.val * 2 ^ 6 + s.toNat)) (0) (by omega) (by omega) (by omega)
  obtain ⟨hm, f13_3, f2_11, f0_2⟩ := F
  exact .half hm (by omega) (decodeBits_ofCSlli d s h hm (f0_2.trans (by omega)) ((fld_sub (o := 0) (k := 6) f2_11 rfl (by decide)).trans (by omega)) ((fld_sub (o := 6) (k := 5) f2_11 rfl (by decide)).trans (by omega)) (f13_3.trans (by omega)))

theorem decodeBits_ofCLd (d : Fin 8) (b : Fin 8) (o : BitVec 5) {W : Nat} (hm : W < 2 ^ 16) (h0 : fld W 0 2 = 0) (h1 : fld W 2 5 = o.toNat) (h2 : fld W 7 3 = b.val) (h3 : fld W 10 3 = d.val) (h4 : fld W 13 3 = 3) : decodeBits W = .ok (.cLd d b o) := by
  have hb0 := d.isLt
  have hb1 := b.isLt
  have hb2 := o.isLt
  rw [decodeBits_half (by omega) hm]
  rw [decode16.eq_1, h0, h4]
  show (.ok (.cLd (lo8 W 10) (lo8 W 7) (bv 5 W 2)) : Except Reject Instr) = _
  simp only [h0, h1, h2, h3, h4, xr, lo8, lane, bv, flag, zero, Except.bind, ofNat_val, ofNat_toNat, if_true, if_false, Nat.reduceBEq, Bool.false_eq_true, true_and, and_true, and_self, or_self, not_false_eq_true, ne_eq, Nat.reduceLT, Nat.reduceLeDiff, Nat.reduceEqDiff, bit_zero, bit_one, hb0, hb1]
theorem codes_encCLd (d : Fin 8) (b : Fin 8) (o : BitVec 5) : Codes (encCLd d b o) (.cLd d b o) := by
  have hb0 := d.isLt
  have hb1 := b.isLt
  have hb2 := o.isLt
  show Codes (2, fC 3 (d.val * 2 ^ 8 + b.val * 2 ^ 5 + o.toNat) 0) (.cLd d b o)
  have F := @fC_fields (3) ((d.val * 2 ^ 8 + b.val * 2 ^ 5 + o.toNat)) (0) (by omega) (by omega) (by omega)
  obtain ⟨hm, f13_3, f2_11, f0_2⟩ := F
  exact .half hm (by omega) (decodeBits_ofCLd d b o hm (f0_2.trans (by omega)) ((fld_sub (o := 0) (k := 5) f2_11 rfl (by decide)).trans (by omega)) ((fld_sub (o := 5) (k := 3) f2_11 rfl (by decide)).trans (by omega)) ((fld_sub (o := 8) (k := 3) f2_11 rfl (by decide)).trans (by omega)) (f13_3.trans (by omega)))

theorem decodeBits_ofCSt (s : Fin 8) (b : Fin 8) (o : BitVec 5) {W : Nat} (hm : W < 2 ^ 16) (h0 : fld W 0 2 = 0) (h1 : fld W 2 5 = o.toNat) (h2 : fld W 7 3 = b.val) (h3 : fld W 10 3 = s.val) (h4 : fld W 13 3 = 4) : decodeBits W = .ok (.cSt s b o) := by
  have hb0 := s.isLt
  have hb1 := b.isLt
  have hb2 := o.isLt
  rw [decodeBits_half (by omega) hm]
  rw [decode16.eq_1, h0, h4]
  show (.ok (.cSt (lo8 W 10) (lo8 W 7) (bv 5 W 2)) : Except Reject Instr) = _
  simp only [h0, h1, h2, h3, h4, xr, lo8, lane, bv, flag, zero, Except.bind, ofNat_val, ofNat_toNat, if_true, if_false, Nat.reduceBEq, Bool.false_eq_true, true_and, and_true, and_self, or_self, not_false_eq_true, ne_eq, Nat.reduceLT, Nat.reduceLeDiff, Nat.reduceEqDiff, bit_zero, bit_one, hb0, hb1]
theorem codes_encCSt (s : Fin 8) (b : Fin 8) (o : BitVec 5) : Codes (encCSt s b o) (.cSt s b o) := by
  have hb0 := s.isLt
  have hb1 := b.isLt
  have hb2 := o.isLt
  show Codes (2, fC 4 (s.val * 2 ^ 8 + b.val * 2 ^ 5 + o.toNat) 0) (.cSt s b o)
  have F := @fC_fields (4) ((s.val * 2 ^ 8 + b.val * 2 ^ 5 + o.toNat)) (0) (by omega) (by omega) (by omega)
  obtain ⟨hm, f13_3, f2_11, f0_2⟩ := F
  exact .half hm (by omega) (decodeBits_ofCSt s b o hm (f0_2.trans (by omega)) ((fld_sub (o := 0) (k := 5) f2_11 rfl (by decide)).trans (by omega)) ((fld_sub (o := 5) (k := 3) f2_11 rfl (by decide)).trans (by omega)) ((fld_sub (o := 8) (k := 3) f2_11 rfl (by decide)).trans (by omega)) (f13_3.trans (by omega)))

theorem decodeBits_ofCBeqz (a : Fin 8) (o : BitVec 8) {W : Nat} (hm : W < 2 ^ 16) (h0 : fld W 0 2 = 0) (h1 : fld W 2 8 = o.toNat) (h2 : fld W 10 3 = a.val) (h3 : fld W 13 3 = 5) : decodeBits W = .ok (.cBeqz a o) := by
  have hb0 := a.isLt
  have hb1 := o.isLt
  rw [decodeBits_half (by omega) hm]
  rw [decode16.eq_1, h0, h3]
  show (.ok (.cBeqz (lo8 W 10) (bv 8 W 2)) : Except Reject Instr) = _
  simp only [h0, h1, h2, h3, xr, lo8, lane, bv, flag, zero, Except.bind, ofNat_val, ofNat_toNat, if_true, if_false, Nat.reduceBEq, Bool.false_eq_true, true_and, and_true, and_self, or_self, not_false_eq_true, ne_eq, Nat.reduceLT, Nat.reduceLeDiff, Nat.reduceEqDiff, bit_zero, bit_one, hb0]
theorem codes_encCBeqz (a : Fin 8) (o : BitVec 8) : Codes (encCBeqz a o) (.cBeqz a o) := by
  have hb0 := a.isLt
  have hb1 := o.isLt
  show Codes (2, fC 5 (a.val * 2 ^ 8 + o.toNat) 0) (.cBeqz a o)
  have F := @fC_fields (5) ((a.val * 2 ^ 8 + o.toNat)) (0) (by omega) (by omega) (by omega)
  obtain ⟨hm, f13_3, f2_11, f0_2⟩ := F
  exact .half hm (by omega) (decodeBits_ofCBeqz a o hm (f0_2.trans (by omega)) ((fld_sub (o := 0) (k := 8) f2_11 rfl (by decide)).trans (by omega)) ((fld_sub (o := 8) (k := 3) f2_11 rfl (by decide)).trans (by omega)) (f13_3.trans (by omega)))

theorem decodeBits_ofCBnez (a : Fin 8) (o : BitVec 8) {W : Nat} (hm : W < 2 ^ 16) (h0 : fld W 0 2 = 0) (h1 : fld W 2 8 = o.toNat) (h2 : fld W 10 3 = a.val) (h3 : fld W 13 3 = 6) : decodeBits W = .ok (.cBnez a o) := by
  have hb0 := a.isLt
  have hb1 := o.isLt
  rw [decodeBits_half (by omega) hm]
  rw [decode16.eq_1, h0, h3]
  show (.ok (.cBnez (lo8 W 10) (bv 8 W 2)) : Except Reject Instr) = _
  simp only [h0, h1, h2, h3, xr, lo8, lane, bv, flag, zero, Except.bind, ofNat_val, ofNat_toNat, if_true, if_false, Nat.reduceBEq, Bool.false_eq_true, true_and, and_true, and_self, or_self, not_false_eq_true, ne_eq, Nat.reduceLT, Nat.reduceLeDiff, Nat.reduceEqDiff, bit_zero, bit_one, hb0]
theorem codes_encCBnez (a : Fin 8) (o : BitVec 8) : Codes (encCBnez a o) (.cBnez a o) := by
  have hb0 := a.isLt
  have hb1 := o.isLt
  show Codes (2, fC 6 (a.val * 2 ^ 8 + o.toNat) 0) (.cBnez a o)
  have F := @fC_fields (6) ((a.val * 2 ^ 8 + o.toNat)) (0) (by omega) (by omega) (by omega)
  obtain ⟨hm, f13_3, f2_11, f0_2⟩ := F
  exact .half hm (by omega) (decodeBits_ofCBnez a o hm (f0_2.trans (by omega)) ((fld_sub (o := 0) (k := 8) f2_11 rfl (by decide)).trans (by omega)) ((fld_sub (o := 8) (k := 3) f2_11 rfl (by decide)).trans (by omega)) (f13_3.trans (by omega)))

theorem decodeBits_ofCJ (o : BitVec 11) {W : Nat} (hm : W < 2 ^ 16) (h0 : fld W 0 2 = 0) (h1 : fld W 2 11 = o.toNat) (h2 : fld W 13 3 = 7) : decodeBits W = .ok (.cJ o) := by
  have hb0 := o.isLt
  rw [decodeBits_half (by omega) hm]
  rw [decode16.eq_1, h0, h2]
  show (.ok (.cJ (bv 11 W 2)) : Except Reject Instr) = _
  simp only [h0, h1, h2, xr, lo8, lane, bv, flag, zero, Except.bind, ofNat_val, ofNat_toNat, if_true, if_false, Nat.reduceBEq, Bool.false_eq_true, true_and, and_true, and_self, or_self, not_false_eq_true, ne_eq, Nat.reduceLT, Nat.reduceLeDiff, Nat.reduceEqDiff, bit_zero, bit_one]
theorem codes_encCJ (o : BitVec 11) : Codes (encCJ o) (.cJ o) := by
  have hb0 := o.isLt
  show Codes (2, fC 7 o.toNat 0) (.cJ o)
  have F := @fC_fields (7) (o.toNat) (0) (by omega) (by omega) (by omega)
  obtain ⟨hm, f13_3, f2_11, f0_2⟩ := F
  exact .half hm (by omega) (decodeBits_ofCJ o hm (f0_2.trans (by omega)) (f2_11.trans (by omega)) (f13_3.trans (by omega)))

theorem decodeBits_ofCMv (d : XReg) (s : XReg) {W : Nat} (h : Instr.wf (.cMv d s) = true) (hm : W < 2 ^ 16) (h0 : fld W 0 2 = 2) (h1 : fld W 2 1 = 0) (h2 : fld W 3 5 = s.val) (h3 : fld W 8 5 = d.val) (h4 : fld W 13 3 = 0) : decodeBits W = .ok (.cMv d s) := by
  have hb0 := d.isLt
  have hb1 := s.isLt
  have hz0 : ¬ d.val = 0 := by intro hc; have hc : d = 0 := Fin.ext hc; simp [Instr.wf, Instr.check, hc] at h
  have hz1 : ¬ s.val = 0 := by intro hc; have hc : s = 0 := Fin.ext hc; simp [Instr.wf, Instr.check, hc] at h
  rw [decodeBits_half (by omega) hm]
  rw [decode16.eq_1, h0, h4]
  show (if fld W 8 5 = 0 then .error .unlisted else if fld W 3 5 = 0 then .error .unlisted else zero W 2 1 (.cMv (xr W 8) (xr W 3)) : Except Reject Instr) = _
  simp only [h0, h1, h2, h3, h4, xr, lo8, lane, bv, flag, zero, Except.bind, ofNat_val, ofNat_toNat, if_true, if_false, Nat.reduceBEq, Bool.false_eq_true, true_and, and_true, and_self, or_self, not_false_eq_true, ne_eq, Nat.reduceLT, Nat.reduceLeDiff, Nat.reduceEqDiff, bit_zero, bit_one, hz0, hz1]
theorem codes_encCMv (d : XReg) (s : XReg) (h : Instr.wf (.cMv d s) = true) : Codes (encCMv d s) (.cMv d s) := by
  have hb0 := d.isLt
  have hb1 := s.isLt
  have hz0 : ¬ d.val = 0 := by intro hc; have hc : d = 0 := Fin.ext hc; simp [Instr.wf, Instr.check, hc] at h
  have hz1 : ¬ s.val = 0 := by intro hc; have hc : s = 0 := Fin.ext hc; simp [Instr.wf, Instr.check, hc] at h
  show Codes (2, fC 0 (d.val * 2 ^ 6 + s.val * 2) 2) (.cMv d s)
  have F := @fC_fields (0) ((d.val * 2 ^ 6 + s.val * 2)) (2) (by omega) (by omega) (by omega)
  obtain ⟨hm, f13_3, f2_11, f0_2⟩ := F
  exact .half hm (by omega) (decodeBits_ofCMv d s h hm (f0_2.trans (by omega)) ((fld_sub (o := 0) (k := 1) f2_11 rfl (by decide)).trans (by omega)) ((fld_sub (o := 1) (k := 5) f2_11 rfl (by decide)).trans (by omega)) ((fld_sub (o := 6) (k := 5) f2_11 rfl (by decide)).trans (by omega)) (f13_3.trans (by omega)))

theorem decodeBits_ofCAdd (d : XReg) (s : XReg) {W : Nat} (h : Instr.wf (.cAdd d s) = true) (hm : W < 2 ^ 16) (h0 : fld W 0 2 = 2) (h1 : fld W 2 1 = 0) (h2 : fld W 3 5 = s.val) (h3 : fld W 8 5 = d.val) (h4 : fld W 13 3 = 1) : decodeBits W = .ok (.cAdd d s) := by
  have hb0 := d.isLt
  have hb1 := s.isLt
  have hz0 : ¬ d.val = 0 := by intro hc; have hc : d = 0 := Fin.ext hc; simp [Instr.wf, Instr.check, hc] at h
  have hz1 : ¬ s.val = 0 := by intro hc; have hc : s = 0 := Fin.ext hc; simp [Instr.wf, Instr.check, hc] at h
  rw [decodeBits_half (by omega) hm]
  rw [decode16.eq_1, h0, h4]
  show (if fld W 8 5 = 0 then .error .unlisted else if fld W 3 5 = 0 then .error .unlisted else zero W 2 1 (.cAdd (xr W 8) (xr W 3)) : Except Reject Instr) = _
  simp only [h0, h1, h2, h3, h4, xr, lo8, lane, bv, flag, zero, Except.bind, ofNat_val, ofNat_toNat, if_true, if_false, Nat.reduceBEq, Bool.false_eq_true, true_and, and_true, and_self, or_self, not_false_eq_true, ne_eq, Nat.reduceLT, Nat.reduceLeDiff, Nat.reduceEqDiff, bit_zero, bit_one, hz0, hz1]
theorem codes_encCAdd (d : XReg) (s : XReg) (h : Instr.wf (.cAdd d s) = true) : Codes (encCAdd d s) (.cAdd d s) := by
  have hb0 := d.isLt
  have hb1 := s.isLt
  have hz0 : ¬ d.val = 0 := by intro hc; have hc : d = 0 := Fin.ext hc; simp [Instr.wf, Instr.check, hc] at h
  have hz1 : ¬ s.val = 0 := by intro hc; have hc : s = 0 := Fin.ext hc; simp [Instr.wf, Instr.check, hc] at h
  show Codes (2, fC 1 (d.val * 2 ^ 6 + s.val * 2) 2) (.cAdd d s)
  have F := @fC_fields (1) ((d.val * 2 ^ 6 + s.val * 2)) (2) (by omega) (by omega) (by omega)
  obtain ⟨hm, f13_3, f2_11, f0_2⟩ := F
  exact .half hm (by omega) (decodeBits_ofCAdd d s h hm (f0_2.trans (by omega)) ((fld_sub (o := 0) (k := 1) f2_11 rfl (by decide)).trans (by omega)) ((fld_sub (o := 1) (k := 5) f2_11 rfl (by decide)).trans (by omega)) ((fld_sub (o := 6) (k := 5) f2_11 rfl (by decide)).trans (by omega)) (f13_3.trans (by omega)))

theorem decodeBits_ofCJr (a : XReg) {W : Nat} (h : Instr.wf (.cJr a) = true) (hm : W < 2 ^ 16) (h0 : fld W 0 2 = 2) (h1 : fld W 2 6 = 0) (h2 : fld W 8 5 = a.val) (h3 : fld W 13 3 = 2) : decodeBits W = .ok (.cJr a) := by
  have hb0 := a.isLt
  have hz0 : ¬ a.val = 0 := by intro hc; have hc : a = 0 := Fin.ext hc; simp [Instr.wf, Instr.check, hc] at h
  rw [decodeBits_half (by omega) hm]
  rw [decode16.eq_1, h0, h3]
  show (if fld W 8 5 = 0 then .error .unlisted else zero W 2 6 (.cJr (xr W 8)) : Except Reject Instr) = _
  simp only [h0, h1, h2, h3, xr, lo8, lane, bv, flag, zero, Except.bind, ofNat_val, ofNat_toNat, if_true, if_false, Nat.reduceBEq, Bool.false_eq_true, true_and, and_true, and_self, or_self, not_false_eq_true, ne_eq, Nat.reduceLT, Nat.reduceLeDiff, Nat.reduceEqDiff, bit_zero, bit_one, hz0]
theorem codes_encCJr (a : XReg) (h : Instr.wf (.cJr a) = true) : Codes (encCJr a) (.cJr a) := by
  have hb0 := a.isLt
  have hz0 : ¬ a.val = 0 := by intro hc; have hc : a = 0 := Fin.ext hc; simp [Instr.wf, Instr.check, hc] at h
  show Codes (2, fC 2 (a.val * 2 ^ 6) 2) (.cJr a)
  have F := @fC_fields (2) ((a.val * 2 ^ 6)) (2) (by omega) (by omega) (by omega)
  obtain ⟨hm, f13_3, f2_11, f0_2⟩ := F
  exact .half hm (by omega) (decodeBits_ofCJr a h hm (f0_2.trans (by omega)) ((fld_sub (o := 0) (k := 6) f2_11 rfl (by decide)).trans (by omega)) ((fld_sub (o := 6) (k := 5) f2_11 rfl (by decide)).trans (by omega)) (f13_3.trans (by omega)))

theorem decodeBits_ofCNop  {W : Nat} (hm : W < 2 ^ 16) (h0 : fld W 0 2 = 2) (h1 : fld W 2 11 = 0) (h2 : fld W 13 3 = 3) : decodeBits W = .ok (.cNop) := by
  rw [decodeBits_half (by omega) hm]
  rw [decode16.eq_1, h0, h2]
  show (zero W 2 11 .cNop : Except Reject Instr) = _
  simp only [h0, h1, h2, xr, lo8, lane, bv, flag, zero, Except.bind, ofNat_val, ofNat_toNat, if_true, if_false, Nat.reduceBEq, Bool.false_eq_true, true_and, and_true, and_self, or_self, not_false_eq_true, ne_eq, Nat.reduceLT, Nat.reduceLeDiff, Nat.reduceEqDiff, bit_zero, bit_one]
theorem codes_encCNop : Codes (encCNop) (.cNop) := by
  show Codes (2, fC 3 0 2) (.cNop)
  have F := @fC_fields (3) (0) (2) (by omega) (by omega) (by omega)
  obtain ⟨hm, f13_3, f2_11, f0_2⟩ := F
  exact .half hm (by omega) (decodeBits_ofCNop  hm (f0_2.trans (by omega)) (f2_11.trans (by omega)) (f13_3.trans (by omega)))

theorem decodeTile_ofTzero (t : TReg) {P W : Nat} (p2 : fld P 12 20 = 0) (p3 : fld P 8 3 = t.val) (p4 : fld P 11 1 = 0) (p5 : fld P 8 4 = 0 * 8 + t.val) (w5 : fld W 23 9 = 0) (w4 : fld W 18 5 = 0) (w3 : fld W 13 5 = 0) (w2 : fld W 8 5 = 0) (w1 : fld W 2 6 = 0x00) (w0 : fld W 0 2 = 1) : decodeTile P W = .ok (.tzero t) := by
  rw [decodeTile.eq_1, if_neg (by rw [p2, w5, w0]; decide), w1]
  show (zero P 11 1 (.tzero (lo8 P 8)) |>.bind (zero W 8 15) : Except Reject Instr) = _
  simp only [zero, xr, lo8, flag, Except.bind, p3, p4, p5, w2, w3, w4, ofNat_val, bit_beq, if_true, Nat.zero_mul, Nat.mul_zero, Nat.add_zero, Nat.zero_add, (fld_app w2 (fld_app w3 w4 rfl rfl) rfl rfl)]
theorem codes_encTzero (t : TReg) : Codes (encTzero t) (.tzero t) := by
  have ht := t.isLt
  obtain ⟨hp, p0, p1, p2, p3, p4, p5⟩ := @tilePrefix (0) (t.val) (by omega) (by omega)
  obtain ⟨hw, w5, w4, w3, w2, w1, w0⟩ := @fA_fields 0 (0) (0) (0) (0x00) (by omega) (by omega) (by omega) (by omega) (by omega)
  exact .tile hp hw p0 p1 (decodeTile_ofTzero t p2 p3 p4 p5 w5 w4 w3 w2 w1 w0)

theorem decodeTile_ofTrowmv (m : Bool) (t : TReg) (a : VReg) (x : XReg) {P W : Nat} (p2 : fld P 12 20 = 0) (p3 : fld P 8 3 = t.val) (p4 : fld P 11 1 = bit m) (p5 : fld P 8 4 = bit m * 8 + t.val) (w5 : fld W 23 9 = 0) (w4 : fld W 18 5 = x.val) (w3 : fld W 13 5 = a.val) (w2 : fld W 8 5 = 0) (w1 : fld W 2 6 = 0x01) (w0 : fld W 0 2 = 1) : decodeTile P W = .ok (.trowmv m t a x) := by
  rw [decodeTile.eq_1, if_neg (by rw [p2, w5, w0]; decide), w1]
  show (zero W 8 5 (.trowmv (flag P 11) (lo8 P 8) (xr W 13) (xr W 18)) : Except Reject Instr) = _
  simp only [zero, xr, lo8, flag, Except.bind, p3, p4, p5, w2, w3, w4, ofNat_val, bit_beq, if_true, Nat.zero_mul, Nat.mul_zero, Nat.add_zero, Nat.zero_add]
theorem codes_encTrowmv (m : Bool) (t : TReg) (a : VReg) (x : XReg) : Codes (encTrowmv m t a x) (.trowmv m t a x) := by
  have hm := bit_lt m
  have ht := t.isLt
  have ha := a.isLt
  have hx := x.isLt
  obtain ⟨hp, p0, p1, p2, p3, p4, p5⟩ := @tilePrefix (bit m) (t.val) (by omega) (by omega)
  obtain ⟨hw, w5, w4, w3, w2, w1, w0⟩ := @fA_fields 0 (x.val) (a.val) (0) (0x01) (by omega) (by omega) (by omega) (by omega) (by omega)
  exact .tile hp hw p0 p1 (decodeTile_ofTrowmv m t a x p2 p3 p4 p5 w5 w4 w3 w2 w1 w0)

theorem decodeTile_ofTcolmv (m : Bool) (d : VReg) (t : TReg) (x : XReg) {P W : Nat} (p2 : fld P 12 20 = 0) (p3 : fld P 8 3 = t.val) (p4 : fld P 11 1 = bit m) (p5 : fld P 8 4 = bit m * 8 + t.val) (w5 : fld W 23 9 = 0) (w4 : fld W 18 5 = x.val) (w3 : fld W 13 5 = 0) (w2 : fld W 8 5 = d.val) (w1 : fld W 2 6 = 0x02) (w0 : fld W 0 2 = 1) : decodeTile P W = .ok (.tcolmv m d t x) := by
  rw [decodeTile.eq_1, if_neg (by rw [p2, w5, w0]; decide), w1]
  show (zero W 13 5 (.tcolmv (flag P 11) (xr W 8) (lo8 P 8) (xr W 18)) : Except Reject Instr) = _
  simp only [zero, xr, lo8, flag, Except.bind, p3, p4, p5, w2, w3, w4, ofNat_val, bit_beq, if_true, Nat.zero_mul, Nat.mul_zero, Nat.add_zero, Nat.zero_add]
theorem codes_encTcolmv (m : Bool) (d : VReg) (t : TReg) (x : XReg) : Codes (encTcolmv m d t x) (.tcolmv m d t x) := by
  have hm := bit_lt m
  have hd := d.isLt
  have ht := t.isLt
  have hx := x.isLt
  obtain ⟨hp, p0, p1, p2, p3, p4, p5⟩ := @tilePrefix (bit m) (t.val) (by omega) (by omega)
  obtain ⟨hw, w5, w4, w3, w2, w1, w0⟩ := @fA_fields 0 (x.val) (0) (d.val) (0x02) (by omega) (by omega) (by omega) (by omega) (by omega)
  exact .tile hp hw p0 p1 (decodeTile_ofTcolmv m d t x p2 p3 p4 p5 w5 w4 w3 w2 w1 w0)

theorem decodeTile_ofTmma (t : TReg) (a : VReg) (b : VReg) {P W : Nat} (p2 : fld P 12 20 = 0) (p3 : fld P 8 3 = t.val) (p4 : fld P 11 1 = 0) (p5 : fld P 8 4 = 0 * 8 + t.val) (w5 : fld W 23 9 = 0) (w4 : fld W 18 5 = b.val) (w3 : fld W 13 5 = a.val) (w2 : fld W 8 5 = 0) (w1 : fld W 2 6 = 0x03) (w0 : fld W 0 2 = 1) : decodeTile P W = .ok (.tmma t a b) := by
  rw [decodeTile.eq_1, if_neg (by rw [p2, w5, w0]; decide), w1]
  show (zero P 11 1 (.tmma (lo8 P 8) (xr W 13) (xr W 18)) |>.bind (zero W 8 5) : Except Reject Instr) = _
  simp only [zero, xr, lo8, flag, Except.bind, p3, p4, p5, w2, w3, w4, ofNat_val, bit_beq, if_true, Nat.zero_mul, Nat.mul_zero, Nat.add_zero, Nat.zero_add]
theorem codes_encTmma (t : TReg) (a : VReg) (b : VReg) : Codes (encTmma t a b) (.tmma t a b) := by
  have ht := t.isLt
  have ha := a.isLt
  have hb := b.isLt
  obtain ⟨hp, p0, p1, p2, p3, p4, p5⟩ := @tilePrefix (0) (t.val) (by omega) (by omega)
  obtain ⟨hw, w5, w4, w3, w2, w1, w0⟩ := @fA_fields 0 (b.val) (a.val) (0) (0x03) (by omega) (by omega) (by omega) (by omega) (by omega)
  exact .tile hp hw p0 p1 (decodeTile_ofTmma t a b p2 p3 p4 p5 w5 w4 w3 w2 w1 w0)

theorem decodeTile_ofTstat (d : XReg) {P W : Nat} (p2 : fld P 12 20 = 0) (p3 : fld P 8 3 = 0) (p4 : fld P 11 1 = 0) (p5 : fld P 8 4 = 0 * 8 + 0) (w5 : fld W 23 9 = 0) (w4 : fld W 18 5 = 0) (w3 : fld W 13 5 = 0) (w2 : fld W 8 5 = d.val) (w1 : fld W 2 6 = 0x04) (w0 : fld W 0 2 = 1) : decodeTile P W = .ok (.tstat d) := by
  rw [decodeTile.eq_1, if_neg (by rw [p2, w5, w0]; decide), w1]
  show (zero P 8 4 (.tstat (xr W 8)) |>.bind (zero W 13 10) : Except Reject Instr) = _
  simp only [zero, xr, lo8, flag, Except.bind, p3, p4, p5, w2, w3, w4, ofNat_val, bit_beq, if_true, Nat.zero_mul, Nat.mul_zero, Nat.add_zero, Nat.zero_add, (fld_app w3 w4 rfl rfl)]
theorem codes_encTstat (d : XReg) : Codes (encTstat d) (.tstat d) := by
  have hd := d.isLt
  obtain ⟨hp, p0, p1, p2, p3, p4, p5⟩ := @tilePrefix (0) (0) (by omega) (by omega)
  obtain ⟨hw, w5, w4, w3, w2, w1, w0⟩ := @fA_fields 0 (0) (0) (d.val) (0x04) (by omega) (by omega) (by omega) (by omega) (by omega)
  exact .tile hp hw p0 p1 (decodeTile_ofTstat d p2 p3 p4 p5 w5 w4 w3 w2 w1 w0)

theorem decodeTile_ofTsave (t : TReg) (a : XReg) {P W : Nat} (p2 : fld P 12 20 = 0) (p3 : fld P 8 3 = t.val) (p4 : fld P 11 1 = 0) (p5 : fld P 8 4 = 0 * 8 + t.val) (w5 : fld W 23 9 = 0) (w4 : fld W 18 5 = 0) (w3 : fld W 13 5 = a.val) (w2 : fld W 8 5 = 0) (w1 : fld W 2 6 = 0x05) (w0 : fld W 0 2 = 1) : decodeTile P W = .ok (.tsave t a) := by
  rw [decodeTile.eq_1, if_neg (by rw [p2, w5, w0]; decide), w1]
  show (zero P 11 1 (.tsave (lo8 P 8) (xr W 13)) |>.bind (zero W 18 5) |>.bind (zero W 8 5) : Except Reject Instr) = _
  simp only [zero, xr, lo8, flag, Except.bind, p3, p4, p5, w2, w3, w4, ofNat_val, bit_beq, if_true, Nat.zero_mul, Nat.mul_zero, Nat.add_zero, Nat.zero_add]
theorem codes_encTsave (t : TReg) (a : XReg) : Codes (encTsave t a) (.tsave t a) := by
  have ht := t.isLt
  have ha := a.isLt
  obtain ⟨hp, p0, p1, p2, p3, p4, p5⟩ := @tilePrefix (0) (t.val) (by omega) (by omega)
  obtain ⟨hw, w5, w4, w3, w2, w1, w0⟩ := @fA_fields 0 (0) (a.val) (0) (0x05) (by omega) (by omega) (by omega) (by omega) (by omega)
  exact .tile hp hw p0 p1 (decodeTile_ofTsave t a p2 p3 p4 p5 w5 w4 w3 w2 w1 w0)

theorem decodeTile_ofTrest (t : TReg) (a : XReg) {P W : Nat} (p2 : fld P 12 20 = 0) (p3 : fld P 8 3 = t.val) (p4 : fld P 11 1 = 0) (p5 : fld P 8 4 = 0 * 8 + t.val) (w5 : fld W 23 9 = 0) (w4 : fld W 18 5 = 0) (w3 : fld W 13 5 = a.val) (w2 : fld W 8 5 = 0) (w1 : fld W 2 6 = 0x06) (w0 : fld W 0 2 = 1) : decodeTile P W = .ok (.trest t a) := by
  rw [decodeTile.eq_1, if_neg (by rw [p2, w5, w0]; decide), w1]
  show (zero P 11 1 (.trest (lo8 P 8) (xr W 13)) |>.bind (zero W 18 5) |>.bind (zero W 8 5) : Except Reject Instr) = _
  simp only [zero, xr, lo8, flag, Except.bind, p3, p4, p5, w2, w3, w4, ofNat_val, bit_beq, if_true, Nat.zero_mul, Nat.mul_zero, Nat.add_zero, Nat.zero_add]
theorem codes_encTrest (t : TReg) (a : XReg) : Codes (encTrest t a) (.trest t a) := by
  have ht := t.isLt
  have ha := a.isLt
  obtain ⟨hp, p0, p1, p2, p3, p4, p5⟩ := @tilePrefix (0) (t.val) (by omega) (by omega)
  obtain ⟨hw, w5, w4, w3, w2, w1, w0⟩ := @fA_fields 0 (0) (a.val) (0) (0x06) (by omega) (by omega) (by omega) (by omega) (by omega)
  exact .tile hp hw p0 p1 (decodeTile_ofTrest t a p2 p3 p4 p5 w5 w4 w3 w2 w1 w0)

theorem codes_encLi64 (d : XReg) (i : BitVec 51) : Codes (encLi64 d i) (.li64 d i) := by
  have hi := i.isLt
  have hd := d.isLt
  have hp : i.toNat / 2 ^ 32 * 2 ^ 13 + d.val * 2 ^ 8 + 0x0B < 2 ^ 32 := by omega
  obtain ⟨hb, -, -, e3, e4⟩ := fP_parts hp (Nat.mod_lt i.toNat (Nat.two_pow_pos 32))
  have g0 : fld (i.toNat / 2 ^ 32 * 2 ^ 13 + d.val * 2 ^ 8 + 0x0B) 0 2 = 3 := by simp only [fld_eq]; omega
  have g1 : fld (i.toNat / 2 ^ 32 * 2 ^ 13 + d.val * 2 ^ 8 + 0x0B) 2 6 = 2 := by simp only [fld_eq]; omega
  have g2 : fld (i.toNat / 2 ^ 32 * 2 ^ 13 + d.val * 2 ^ 8 + 0x0B) 8 5 = d.val := by simp only [fld_eq]; omega
  have g3 : fld (i.toNat / 2 ^ 32 * 2 ^ 13 + d.val * 2 ^ 8 + 0x0B) 13 19 = i.toNat / 2 ^ 32 := by simp only [fld_eq]; omega
  rw [← e3 _ _ (by decide)] at g0 g1 g2 g3
  refine .pair hb g0 ?_
  rw [decodeBits_pair g0 hb, decode64_li64 g1]
  rw [xr, g2, g3, e4, Nat.div_add_mod', ofNat_val, ofNat_toNat]

end Sys2Proof
end

