-- ==== Sys2Proof/Laws/PerInstr.lean ====
section
/-! SUPPORT. The round trip of the encoding, one lemma per constructor (R241 to R254). -/

namespace Sys2Proof.Laws

/-- The bytes of the encoded instruction decode to it, whatever follows them; a device operation has no encoding. -/
def RoundTrip.Statement (i : Instr) : Prop :=
  i.wf = true → ∀ n w, encode i = some (n, w) → ∀ rest, decode (natToBytes n w ++ rest) = .ok (i, rest)

theorem roundTrip_of_codes {i : Instr} {p : Nat × Nat} (h : encode i = some p) (c : i.wf = true → Codes p i) :
    RoundTrip.Statement i := by
  intro hw n w he rest
  rw [h] at he
  cases he
  exact (c hw).decode_append rest

theorem roundTrip_of_none {i : Instr} (h : encode i = none) : RoundTrip.Statement i := by
  intro _ n w he
  rw [h] at he
  cases he

theorem RoundTrip.add (d : XReg) (a : XReg) (b : XReg) : RoundTrip.Statement (.add d a b) := roundTrip_of_codes rfl fun _ => codes_encAdd d a b
theorem RoundTrip.sub (d : XReg) (a : XReg) (b : XReg) : RoundTrip.Statement (.sub d a b) := roundTrip_of_codes rfl fun _ => codes_encSub d a b
theorem RoundTrip.and (d : XReg) (a : XReg) (b : XReg) : RoundTrip.Statement (.and d a b) := roundTrip_of_codes rfl fun _ => codes_encAnd d a b
theorem RoundTrip.or (d : XReg) (a : XReg) (b : XReg) : RoundTrip.Statement (.or d a b) := roundTrip_of_codes rfl fun _ => codes_encOr d a b
theorem RoundTrip.xor (d : XReg) (a : XReg) (b : XReg) : RoundTrip.Statement (.xor d a b) := roundTrip_of_codes rfl fun _ => codes_encXor d a b
theorem RoundTrip.sll (d : XReg) (a : XReg) (b : XReg) : RoundTrip.Statement (.sll d a b) := roundTrip_of_codes rfl fun _ => codes_encSll d a b
theorem RoundTrip.srl (d : XReg) (a : XReg) (b : XReg) : RoundTrip.Statement (.srl d a b) := roundTrip_of_codes rfl fun _ => codes_encSrl d a b
theorem RoundTrip.sra (d : XReg) (a : XReg) (b : XReg) : RoundTrip.Statement (.sra d a b) := roundTrip_of_codes rfl fun _ => codes_encSra d a b
theorem RoundTrip.rot (d : XReg) (a : XReg) (b : XReg) : RoundTrip.Statement (.rot d a b) := roundTrip_of_codes rfl fun _ => codes_encRot d a b
theorem RoundTrip.slt (d : XReg) (a : XReg) (b : XReg) : RoundTrip.Statement (.slt d a b) := roundTrip_of_codes rfl fun _ => codes_encSlt d a b
theorem RoundTrip.sltn (d : XReg) (a : XReg) (b : XReg) : RoundTrip.Statement (.sltn d a b) := roundTrip_of_codes rfl fun _ => codes_encSltn d a b
theorem RoundTrip.min (d : XReg) (a : XReg) (b : XReg) : RoundTrip.Statement (.min d a b) := roundTrip_of_codes rfl fun _ => codes_encMin d a b
theorem RoundTrip.max (d : XReg) (a : XReg) (b : XReg) : RoundTrip.Statement (.max d a b) := roundTrip_of_codes rfl fun _ => codes_encMax d a b
theorem RoundTrip.minn (d : XReg) (a : XReg) (b : XReg) : RoundTrip.Statement (.minn d a b) := roundTrip_of_codes rfl fun _ => codes_encMinn d a b
theorem RoundTrip.maxn (d : XReg) (a : XReg) (b : XReg) : RoundTrip.Statement (.maxn d a b) := roundTrip_of_codes rfl fun _ => codes_encMaxn d a b
theorem RoundTrip.mul (d : XReg) (a : XReg) (b : XReg) : RoundTrip.Statement (.mul d a b) := roundTrip_of_codes rfl fun _ => codes_encMul d a b
theorem RoundTrip.mulh (d : XReg) (a : XReg) (b : XReg) : RoundTrip.Statement (.mulh d a b) := roundTrip_of_codes rfl fun _ => codes_encMulh d a b
theorem RoundTrip.mulhn (d : XReg) (a : XReg) (b : XReg) : RoundTrip.Statement (.mulhn d a b) := roundTrip_of_codes rfl fun _ => codes_encMulhn d a b
theorem RoundTrip.div (d : XReg) (a : XReg) (b : XReg) : RoundTrip.Statement (.div d a b) := roundTrip_of_codes rfl fun _ => codes_encDiv d a b
theorem RoundTrip.divn (d : XReg) (a : XReg) (b : XReg) : RoundTrip.Statement (.divn d a b) := roundTrip_of_codes rfl fun _ => codes_encDivn d a b
theorem RoundTrip.rem (d : XReg) (a : XReg) (b : XReg) : RoundTrip.Statement (.rem d a b) := roundTrip_of_codes rfl fun _ => codes_encRem d a b
theorem RoundTrip.remn (d : XReg) (a : XReg) (b : XReg) : RoundTrip.Statement (.remn d a b) := roundTrip_of_codes rfl fun _ => codes_encRemn d a b
theorem RoundTrip.clz (d : XReg) (a : XReg) : RoundTrip.Statement (.clz d a) := roundTrip_of_codes rfl fun _ => codes_encClz d a
theorem RoundTrip.ctz (d : XReg) (a : XReg) : RoundTrip.Statement (.ctz d a) := roundTrip_of_codes rfl fun _ => codes_encCtz d a
theorem RoundTrip.popc (d : XReg) (a : XReg) : RoundTrip.Statement (.popc d a) := roundTrip_of_codes rfl fun _ => codes_encPopc d a
theorem RoundTrip.bswap (d : XReg) (a : XReg) : RoundTrip.Statement (.bswap d a) := roundTrip_of_codes rfl fun _ => codes_encBswap d a
theorem RoundTrip.bext (d : XReg) (a : XReg) (b : XReg) : RoundTrip.Statement (.bext d a b) := roundTrip_of_codes rfl fun _ => codes_encBext d a b
theorem RoundTrip.bexts (d : XReg) (a : XReg) (b : XReg) : RoundTrip.Statement (.bexts d a b) := roundTrip_of_codes rfl fun _ => codes_encBexts d a b
theorem RoundTrip.bins (d : XReg) (a : XReg) (b : XReg) : RoundTrip.Statement (.bins d a b) := roundTrip_of_codes rfl fun _ => codes_encBins d a b
theorem RoundTrip.sel (d : XReg) (a : XReg) (b : XReg) : RoundTrip.Statement (.sel d a b) := roundTrip_of_codes rfl fun _ => codes_encSel d a b
theorem RoundTrip.addi (d : XReg) (a : XReg) (i : BitVec 14) : RoundTrip.Statement (.addi d a i) := roundTrip_of_codes rfl fun _ => codes_encAddi d a i
theorem RoundTrip.andi (d : XReg) (a : XReg) (i : BitVec 14) : RoundTrip.Statement (.andi d a i) := roundTrip_of_codes rfl fun _ => codes_encAndi d a i
theorem RoundTrip.ori (d : XReg) (a : XReg) (i : BitVec 14) : RoundTrip.Statement (.ori d a i) := roundTrip_of_codes rfl fun _ => codes_encOri d a i
theorem RoundTrip.xori (d : XReg) (a : XReg) (i : BitVec 14) : RoundTrip.Statement (.xori d a i) := roundTrip_of_codes rfl fun _ => codes_encXori d a i
theorem RoundTrip.slti (d : XReg) (a : XReg) (i : BitVec 14) : RoundTrip.Statement (.slti d a i) := roundTrip_of_codes rfl fun _ => codes_encSlti d a i
theorem RoundTrip.sltni (d : XReg) (a : XReg) (i : BitVec 14) : RoundTrip.Statement (.sltni d a i) := roundTrip_of_codes rfl fun _ => codes_encSltni d a i
theorem RoundTrip.slli (d : XReg) (a : XReg) (s : BitVec 6) : RoundTrip.Statement (.slli d a s) := roundTrip_of_codes rfl fun _ => codes_encSlli d a s
theorem RoundTrip.srli (d : XReg) (a : XReg) (s : BitVec 6) : RoundTrip.Statement (.srli d a s) := roundTrip_of_codes rfl fun _ => codes_encSrli d a s
theorem RoundTrip.srai (d : XReg) (a : XReg) (s : BitVec 6) : RoundTrip.Statement (.srai d a s) := roundTrip_of_codes rfl fun _ => codes_encSrai d a s
theorem RoundTrip.roti (d : XReg) (a : XReg) (s : BitVec 6) : RoundTrip.Statement (.roti d a s) := roundTrip_of_codes rfl fun _ => codes_encRoti d a s
theorem RoundTrip.bexti (d : XReg) (a : XReg) (o : BitVec 7) (w : BitVec 7) : RoundTrip.Statement (.bexti d a o w) := roundTrip_of_codes rfl fun _ => codes_encBexti d a o w
theorem RoundTrip.bextsi (d : XReg) (a : XReg) (o : BitVec 7) (w : BitVec 7) : RoundTrip.Statement (.bextsi d a o w) := roundTrip_of_codes rfl fun _ => codes_encBextsi d a o w
theorem RoundTrip.binsi (d : XReg) (a : XReg) (o : BitVec 7) (w : BitVec 7) : RoundTrip.Statement (.binsi d a o w) := roundTrip_of_codes rfl fun _ => codes_encBinsi d a o w
theorem RoundTrip.lui (d : XReg) (i : BitVec 19) : RoundTrip.Statement (.lui d i) := roundTrip_of_codes rfl fun _ => codes_encLui d i
theorem RoundTrip.addpc (d : XReg) (i : BitVec 19) : RoundTrip.Statement (.addpc d i) := roundTrip_of_codes rfl fun _ => codes_encAddpc d i
theorem RoundTrip.jal (d : XReg) (o : BitVec 19) : RoundTrip.Statement (.jal d o) := roundTrip_of_codes rfl fun _ => codes_encJal d o
theorem RoundTrip.jalr (d : XReg) (a : XReg) (i : BitVec 14) : RoundTrip.Statement (.jalr d a i) := roundTrip_of_codes rfl fun _ => codes_encJalr d a i
theorem RoundTrip.beq (a : XReg) (b : XReg) (o : BitVec 11) : RoundTrip.Statement (.beq a b o) := roundTrip_of_codes rfl fun _ => codes_encBeq a b o
theorem RoundTrip.bne (a : XReg) (b : XReg) (o : BitVec 11) : RoundTrip.Statement (.bne a b o) := roundTrip_of_codes rfl fun _ => codes_encBne a b o
theorem RoundTrip.blt (a : XReg) (b : XReg) (o : BitVec 11) : RoundTrip.Statement (.blt a b o) := roundTrip_of_codes rfl fun _ => codes_encBlt a b o
theorem RoundTrip.bge (a : XReg) (b : XReg) (o : BitVec 11) : RoundTrip.Statement (.bge a b o) := roundTrip_of_codes rfl fun _ => codes_encBge a b o
theorem RoundTrip.bltn (a : XReg) (b : XReg) (o : BitVec 11) : RoundTrip.Statement (.bltn a b o) := roundTrip_of_codes rfl fun _ => codes_encBltn a b o
theorem RoundTrip.bgen (a : XReg) (b : XReg) (o : BitVec 11) : RoundTrip.Statement (.bgen a b o) := roundTrip_of_codes rfl fun _ => codes_encBgen a b o
theorem RoundTrip.ld (z : LdSize) (d : XReg) (b : XReg) (i : BitVec 11) : RoundTrip.Statement (.ld z d b i) := roundTrip_of_codes rfl fun _ => codes_encLd z d b i
theorem RoundTrip.st (z : Sz) (s : XReg) (b : XReg) (i : BitVec 11) : RoundTrip.Statement (.st z s b i) := roundTrip_of_codes rfl fun _ => codes_encSt z s b i
theorem RoundTrip.fadd (f : FFmt) (d : XReg) (a : XReg) (b : XReg) : RoundTrip.Statement (.fadd f d a b) := roundTrip_of_codes rfl fun _ => codes_encFadd f d a b
theorem RoundTrip.fsub (f : FFmt) (d : XReg) (a : XReg) (b : XReg) : RoundTrip.Statement (.fsub f d a b) := roundTrip_of_codes rfl fun _ => codes_encFsub f d a b
theorem RoundTrip.fmul (f : FFmt) (d : XReg) (a : XReg) (b : XReg) : RoundTrip.Statement (.fmul f d a b) := roundTrip_of_codes rfl fun _ => codes_encFmul f d a b
theorem RoundTrip.fma (f : FFmt) (d : XReg) (a : XReg) (b : XReg) : RoundTrip.Statement (.fma f d a b) := roundTrip_of_codes rfl fun _ => codes_encFma f d a b
theorem RoundTrip.fnma (f : FFmt) (d : XReg) (a : XReg) (b : XReg) : RoundTrip.Statement (.fnma f d a b) := roundTrip_of_codes rfl fun _ => codes_encFnma f d a b
theorem RoundTrip.fdiv (f : FFmt) (d : XReg) (a : XReg) (b : XReg) : RoundTrip.Statement (.fdiv f d a b) := roundTrip_of_codes rfl fun _ => codes_encFdiv f d a b
theorem RoundTrip.fsqrt (f : FFmt) (d : XReg) (a : XReg) : RoundTrip.Statement (.fsqrt f d a) := roundTrip_of_codes rfl fun _ => codes_encFsqrt f d a
theorem RoundTrip.fmin (f : FFmt) (d : XReg) (a : XReg) (b : XReg) : RoundTrip.Statement (.fmin f d a b) := roundTrip_of_codes rfl fun _ => codes_encFmin f d a b
theorem RoundTrip.fmax (f : FFmt) (d : XReg) (a : XReg) (b : XReg) : RoundTrip.Statement (.fmax f d a b) := roundTrip_of_codes rfl fun _ => codes_encFmax f d a b
theorem RoundTrip.fcmp (f : FFmt) (q : FCond) (d : XReg) (a : XReg) (b : XReg) : RoundTrip.Statement (.fcmp f q d a b) := roundTrip_of_codes rfl fun _ => codes_encFcmp f q d a b
theorem RoundTrip.fclass (f : FFmt) (d : XReg) (a : XReg) : RoundTrip.Statement (.fclass f d a) := roundTrip_of_codes rfl fun _ => codes_encFclass f d a
theorem RoundTrip.fcvt (t : CvtTy) (s : CvtTy) (d : XReg) (a : XReg) : RoundTrip.Statement (.fcvt t s d a) := roundTrip_of_codes rfl fun h => codes_encFcvt t s d a h
theorem RoundTrip.amo (p : AmoOp) (dbl : Bool) (o : Ord) (d : XReg) (a : XReg) (b : XReg) : RoundTrip.Statement (.amo p dbl o d a b) := roundTrip_of_codes rfl fun _ => codes_encAmo p dbl o d a b
theorem RoundTrip.cas (dbl : Bool) (o : Ord) (d : XReg) (a : XReg) (b : XReg) : RoundTrip.Statement (.cas dbl o d a b) := roundTrip_of_codes rfl fun _ => codes_encCas dbl o d a b
theorem RoundTrip.fence (t : OrdFlag) (c : Scope) : RoundTrip.Statement (.fence t c) := roundTrip_of_codes rfl fun _ => codes_encFence t c
theorem RoundTrip.sbar (lead : BitVec 5) (held : BitVec 5) : RoundTrip.Statement (.sbar lead held) := roundTrip_of_codes rfl fun h => codes_encSbar lead held h
theorem RoundTrip.csrrd (d : XReg) (c : BitVec 12) : RoundTrip.Statement (.csrrd d c) := roundTrip_of_codes rfl fun _ => codes_encCsrrd d c
theorem RoundTrip.csrwr (c : BitVec 12) (a : XReg) : RoundTrip.Statement (.csrwr c a) := roundTrip_of_codes rfl fun _ => codes_encCsrwr c a
theorem RoundTrip.csrxch (d : XReg) (c : BitVec 12) (a : XReg) : RoundTrip.Statement (.csrxch d c a) := roundTrip_of_codes rfl fun _ => codes_encCsrxch d c a
theorem RoundTrip.trapi (i : BitVec 8) : RoundTrip.Statement (.trapi i) := roundTrip_of_codes rfl fun _ => codes_encTrapi i
theorem RoundTrip.sysret : RoundTrip.Statement (.sysret) := roundTrip_of_codes rfl fun _ => codes_encSysret
theorem RoundTrip.halt : RoundTrip.Statement (.halt) := roundTrip_of_codes rfl fun _ => codes_encHalt
theorem RoundTrip.yield : RoundTrip.Statement (.yield) := roundTrip_of_codes rfl fun _ => codes_encYield
theorem RoundTrip.exit : RoundTrip.Statement (.exit) := roundTrip_of_codes rfl fun _ => codes_encExit
theorem RoundTrip.exitG : RoundTrip.Statement (.exitG) := roundTrip_of_codes rfl fun _ => codes_encExitG
theorem RoundTrip.cacheopPrefetch (a : XReg) : RoundTrip.Statement (.cacheopPrefetch a) := roundTrip_of_codes rfl fun _ => codes_encCacheopPrefetch a
theorem RoundTrip.cacheopPin (a : XReg) : RoundTrip.Statement (.cacheopPin a) := roundTrip_of_codes rfl fun _ => codes_encCacheopPin a
theorem RoundTrip.cacheopUnpin (a : XReg) : RoundTrip.Statement (.cacheopUnpin a) := roundTrip_of_codes rfl fun _ => codes_encCacheopUnpin a
theorem RoundTrip.cacheopFlush (a : XReg) : RoundTrip.Statement (.cacheopFlush a) := roundTrip_of_codes rfl fun _ => codes_encCacheopFlush a
theorem RoundTrip.cacheopInvalidate (a : XReg) : RoundTrip.Statement (.cacheopInvalidate a) := roundTrip_of_codes rfl fun _ => codes_encCacheopInvalidate a
theorem RoundTrip.tlbinvPage (a : XReg) : RoundTrip.Statement (.tlbinvPage a) := roundTrip_of_codes rfl fun _ => codes_encTlbinvPage a
theorem RoundTrip.tlbinvAll : RoundTrip.Statement (.tlbinvAll) := roundTrip_of_codes rfl fun _ => codes_encTlbinvAll
theorem RoundTrip.waitevTimer (d : XReg) : RoundTrip.Statement (.waitevTimer d) := roundTrip_of_codes rfl fun _ => codes_encWaitevTimer d
theorem RoundTrip.waitevSlot (d : XReg) : RoundTrip.Statement (.waitevSlot d) := roundTrip_of_codes rfl fun _ => codes_encWaitevSlot d
theorem RoundTrip.sqopen (d : XReg) (h : XReg) (p : XReg) : RoundTrip.Statement (.sqopen d h p) := roundTrip_of_codes rfl fun _ => codes_encSqopen d h p
theorem RoundTrip.sqres (d : XReg) (h : XReg) (n : XReg) : RoundTrip.Statement (.sqres d h n) := roundTrip_of_codes rfl fun _ => codes_encSqres d h n
theorem RoundTrip.sqst (z : Sz) (s : XReg) (h : XReg) (i : XReg) : RoundTrip.Statement (.sqst z s h i) := roundTrip_of_codes rfl fun _ => codes_encSqst z s h i
theorem RoundTrip.sqcmt (c : WideScope) (h : XReg) (r : XReg) : RoundTrip.Statement (.sqcmt c h r) := roundTrip_of_codes rfl fun _ => codes_encSqcmt c h r
theorem RoundTrip.sqlen (c : WideScope) (d : XReg) (h : XReg) : RoundTrip.Statement (.sqlen c d h) := roundTrip_of_codes rfl fun _ => codes_encSqlen c d h
theorem RoundTrip.sqwait (c : WideScope) (d : XReg) (h : XReg) (n : XReg) : RoundTrip.Statement (.sqwait c d h n) := roundTrip_of_codes rfl fun _ => codes_encSqwait c d h n
theorem RoundTrip.sqld (z : Sz) (d : XReg) (h : XReg) (i : XReg) : RoundTrip.Statement (.sqld z d h i) := roundTrip_of_codes rfl fun _ => codes_encSqld z d h i
theorem RoundTrip.sqfork (d : XReg) (h : XReg) (b : XReg) : RoundTrip.Statement (.sqfork d h b) := roundTrip_of_codes rfl fun _ => codes_encSqfork d h b
theorem RoundTrip.sqtrim (d : XReg) (h : XReg) (n : XReg) : RoundTrip.Statement (.sqtrim d h n) := roundTrip_of_codes rfl fun _ => codes_encSqtrim d h n
theorem RoundTrip.sqdrop (h : XReg) : RoundTrip.Statement (.sqdrop h) := roundTrip_of_codes rfl fun _ => codes_encSqdrop h
theorem RoundTrip.binit (c : Scope) (a : XReg) (b : XReg) : RoundTrip.Statement (.binit c a b) := roundTrip_of_codes rfl fun _ => codes_encBinit c a b
theorem RoundTrip.barr (c : Scope) (d : XReg) (a : XReg) (mk : MReg) : RoundTrip.Statement (.barr c d a mk) := roundTrip_of_codes rfl fun _ => codes_encBarr c d a mk
theorem RoundTrip.barrG (d : XReg) (k : Fin 6) (mk : MReg) : RoundTrip.Statement (.barrG d k mk) := roundTrip_of_codes rfl fun _ => codes_encBarrG d k mk
theorem RoundTrip.btest (c : Scope) (d : XReg) (a : XReg) (b : XReg) : RoundTrip.Statement (.btest c d a b) := roundTrip_of_codes rfl fun _ => codes_encBtest c d a b
theorem RoundTrip.bwait (c : Scope) (a : XReg) (b : XReg) : RoundTrip.Statement (.bwait c a b) := roundTrip_of_codes rfl fun _ => codes_encBwait c a b
theorem RoundTrip.bwaitG (k : Fin 6) : RoundTrip.Statement (.bwaitG k) := roundTrip_of_codes rfl fun _ => codes_encBwaitG k
theorem RoundTrip.signal (c : Scope) (a : XReg) (b : XReg) : RoundTrip.Statement (.signal c a b) := roundTrip_of_codes rfl fun _ => codes_encSignal c a b
theorem RoundTrip.gread (d : XReg) (k : Fin 6) (sel : Fin 5) : RoundTrip.Statement (.gread d k sel) := roundTrip_of_codes rfl fun _ => codes_encGread d k sel
theorem RoundTrip.qapp (d : XReg) (q : XReg) (s : XReg) : RoundTrip.Statement (.qapp d q s) := roundTrip_of_codes rfl fun _ => codes_encQapp d q s
theorem RoundTrip.qwait (q : XReg) (n : XReg) : RoundTrip.Statement (.qwait q n) := roundTrip_of_codes rfl fun _ => codes_encQwait q n
theorem RoundTrip.vcfg (d : XReg) (a : XReg) : RoundTrip.Statement (.vcfg d a) := roundTrip_of_codes rfl fun _ => codes_encVcfg d a
theorem RoundTrip.vsetvl (d : XReg) (a : XReg) : RoundTrip.Statement (.vsetvl d a) := roundTrip_of_codes rfl fun _ => codes_encVsetvl d a
theorem RoundTrip.vtag (t : BitVec 6) (n1 : Fin 32) (d : VReg) : RoundTrip.Statement (.vtag t n1 d) := roundTrip_of_codes rfl fun _ => codes_encVtag t n1 d
theorem RoundTrip.vtagrd (d : XReg) (a : VReg) : RoundTrip.Statement (.vtagrd d a) := roundTrip_of_codes rfl fun _ => codes_encVtagrd d a
theorem RoundTrip.vadd (c : Bool) (m : Bool) (d : VReg) (a : VReg) (b : VSrc) : RoundTrip.Statement (.vadd c m d a b) := roundTrip_of_codes rfl fun _ => codes_encVadd c m d a b
theorem RoundTrip.vsub (c : Bool) (m : Bool) (d : VReg) (a : VReg) (b : VSrc) : RoundTrip.Statement (.vsub c m d a b) := roundTrip_of_codes rfl fun _ => codes_encVsub c m d a b
theorem RoundTrip.vrsub (c : Bool) (m : Bool) (d : VReg) (a : VReg) (b : VSrc) : RoundTrip.Statement (.vrsub c m d a b) := roundTrip_of_codes rfl fun _ => codes_encVrsub c m d a b
theorem RoundTrip.vmul (c : Bool) (m : Bool) (d : VReg) (a : VReg) (b : VSrc) : RoundTrip.Statement (.vmul c m d a b) := roundTrip_of_codes rfl fun _ => codes_encVmul c m d a b
theorem RoundTrip.vmulh (c : Bool) (m : Bool) (d : VReg) (a : VReg) (b : VSrc) : RoundTrip.Statement (.vmulh c m d a b) := roundTrip_of_codes rfl fun _ => codes_encVmulh c m d a b
theorem RoundTrip.vdiv (c : Bool) (m : Bool) (d : VReg) (a : VReg) (b : VSrc) : RoundTrip.Statement (.vdiv c m d a b) := roundTrip_of_codes rfl fun _ => codes_encVdiv c m d a b
theorem RoundTrip.vrem (c : Bool) (m : Bool) (d : VReg) (a : VReg) (b : VSrc) : RoundTrip.Statement (.vrem c m d a b) := roundTrip_of_codes rfl fun _ => codes_encVrem c m d a b
theorem RoundTrip.vmin (c : Bool) (m : Bool) (d : VReg) (a : VReg) (b : VSrc) : RoundTrip.Statement (.vmin c m d a b) := roundTrip_of_codes rfl fun _ => codes_encVmin c m d a b
theorem RoundTrip.vmax (c : Bool) (m : Bool) (d : VReg) (a : VReg) (b : VSrc) : RoundTrip.Statement (.vmax c m d a b) := roundTrip_of_codes rfl fun _ => codes_encVmax c m d a b
theorem RoundTrip.vand (c : Bool) (m : Bool) (d : VReg) (a : VReg) (b : VSrc) : RoundTrip.Statement (.vand c m d a b) := roundTrip_of_codes rfl fun _ => codes_encVand c m d a b
theorem RoundTrip.vor (c : Bool) (m : Bool) (d : VReg) (a : VReg) (b : VSrc) : RoundTrip.Statement (.vor c m d a b) := roundTrip_of_codes rfl fun _ => codes_encVor c m d a b
theorem RoundTrip.vxor (c : Bool) (m : Bool) (d : VReg) (a : VReg) (b : VSrc) : RoundTrip.Statement (.vxor c m d a b) := roundTrip_of_codes rfl fun _ => codes_encVxor c m d a b
theorem RoundTrip.vsll (c : Bool) (m : Bool) (d : VReg) (a : VReg) (b : VSrc) : RoundTrip.Statement (.vsll c m d a b) := roundTrip_of_codes rfl fun _ => codes_encVsll c m d a b
theorem RoundTrip.vsrl (c : Bool) (m : Bool) (d : VReg) (a : VReg) (b : VSrc) : RoundTrip.Statement (.vsrl c m d a b) := roundTrip_of_codes rfl fun _ => codes_encVsrl c m d a b
theorem RoundTrip.vsra (c : Bool) (m : Bool) (d : VReg) (a : VReg) (b : VSrc) : RoundTrip.Statement (.vsra c m d a b) := roundTrip_of_codes rfl fun _ => codes_encVsra c m d a b
theorem RoundTrip.vfma (c : Bool) (m : Bool) (d : VReg) (a : VReg) (b : VSrc) : RoundTrip.Statement (.vfma c m d a b) := roundTrip_of_codes rfl fun _ => codes_encVfma c m d a b
theorem RoundTrip.vfnma (c : Bool) (m : Bool) (d : VReg) (a : VReg) (b : VSrc) : RoundTrip.Statement (.vfnma c m d a b) := roundTrip_of_codes rfl fun _ => codes_encVfnma c m d a b
theorem RoundTrip.vabs (c : Bool) (m : Bool) (d : VReg) (a : VReg) : RoundTrip.Statement (.vabs c m d a) := roundTrip_of_codes rfl fun _ => codes_encVabs c m d a
theorem RoundTrip.vneg (c : Bool) (m : Bool) (d : VReg) (a : VReg) : RoundTrip.Statement (.vneg c m d a) := roundTrip_of_codes rfl fun _ => codes_encVneg c m d a
theorem RoundTrip.vsel (c : Bool) (d : VReg) (a : VReg) (b : VSrc) : RoundTrip.Statement (.vsel c d a b) := roundTrip_of_codes rfl fun _ => codes_encVsel c d a b
theorem RoundTrip.vaddc (q : MReg) (c : Bool) (m : Bool) (d : VReg) (a : VReg) (b : VSrc) : RoundTrip.Statement (.vaddc q c m d a b) := roundTrip_of_codes rfl fun _ => codes_encVaddc q c m d a b
theorem RoundTrip.vsubb (q : MReg) (c : Bool) (m : Bool) (d : VReg) (a : VReg) (b : VSrc) : RoundTrip.Statement (.vsubb q c m d a b) := roundTrip_of_codes rfl fun _ => codes_encVsubb q c m d a b
theorem RoundTrip.vmadw (c : Bool) (m : Bool) (d : VReg) (a : VReg) (b : VSrc) : RoundTrip.Statement (.vmadw c m d a b) := roundTrip_of_codes rfl fun _ => codes_encVmadw c m d a b
theorem RoundTrip.vnshr (c : Bool) (m : Bool) (d : VReg) (a : VReg) (b : VSrc) : RoundTrip.Statement (.vnshr c m d a b) := roundTrip_of_codes rfl fun _ => codes_encVnshr c m d a b
theorem RoundTrip.vsadd (c : Bool) (m : Bool) (d : VReg) (a : VReg) (b : VSrc) : RoundTrip.Statement (.vsadd c m d a b) := roundTrip_of_codes rfl fun _ => codes_encVsadd c m d a b
theorem RoundTrip.vssub (c : Bool) (m : Bool) (d : VReg) (a : VReg) (b : VSrc) : RoundTrip.Statement (.vssub c m d a b) := roundTrip_of_codes rfl fun _ => codes_encVssub c m d a b
theorem RoundTrip.vavg (c : Bool) (m : Bool) (d : VReg) (a : VReg) (b : VSrc) : RoundTrip.Statement (.vavg c m d a b) := roundTrip_of_codes rfl fun _ => codes_encVavg c m d a b
theorem RoundTrip.vcmp (q : VCond) (m : Bool) (d : MReg) (a : VReg) (b : VSrc) : RoundTrip.Statement (.vcmp q m d a b) := roundTrip_of_codes rfl fun _ => codes_encVcmp q m d a b
theorem RoundTrip.mand (d : MReg) (a : MReg) (b : MReg) : RoundTrip.Statement (.mand d a b) := roundTrip_of_codes rfl fun _ => codes_encMand d a b
theorem RoundTrip.mor (d : MReg) (a : MReg) (b : MReg) : RoundTrip.Statement (.mor d a b) := roundTrip_of_codes rfl fun _ => codes_encMor d a b
theorem RoundTrip.mxor (d : MReg) (a : MReg) (b : MReg) : RoundTrip.Statement (.mxor d a b) := roundTrip_of_codes rfl fun _ => codes_encMxor d a b
theorem RoundTrip.mandn (d : MReg) (a : MReg) (b : MReg) : RoundTrip.Statement (.mandn d a b) := roundTrip_of_codes rfl fun _ => codes_encMandn d a b
theorem RoundTrip.mnot (d : MReg) (a : MReg) : RoundTrip.Statement (.mnot d a) := roundTrip_of_codes rfl fun _ => codes_encMnot d a
theorem RoundTrip.mslide (d : MReg) (a : MReg) (k : Fin 4) : RoundTrip.Statement (.mslide d a k) := roundTrip_of_codes rfl fun _ => codes_encMslide d a k
theorem RoundTrip.mpop (m : Bool) (d : XReg) (a : MReg) : RoundTrip.Statement (.mpop m d a) := roundTrip_of_codes rfl fun _ => codes_encMpop m d a
theorem RoundTrip.mfirst (m : Bool) (d : XReg) (a : MReg) : RoundTrip.Statement (.mfirst m d a) := roundTrip_of_codes rfl fun _ => codes_encMfirst m d a
theorem RoundTrip.mset (d : MReg) (k : Bool) : RoundTrip.Statement (.mset d k) := roundTrip_of_codes rfl fun _ => codes_encMset d k
theorem RoundTrip.mmvMask (d : MReg) (a : MReg) : RoundTrip.Statement (.mmvMask d a) := roundTrip_of_codes rfl fun _ => codes_encMmvMask d a
theorem RoundTrip.mmvToVector (d : VReg) (a : MReg) : RoundTrip.Statement (.mmvToVector d a) := roundTrip_of_codes rfl fun _ => codes_encMmvToVector d a
theorem RoundTrip.mmvFromVector (d : MReg) (a : VReg) : RoundTrip.Statement (.mmvFromVector d a) := roundTrip_of_codes rfl fun _ => codes_encMmvFromVector d a
theorem RoundTrip.vslide (m : Bool) (d : VReg) (a : VReg) (b : XISrc) : RoundTrip.Statement (.vslide m d a b) := roundTrip_of_codes rfl fun _ => codes_encVslide m d a b
theorem RoundTrip.vperm (m : Bool) (d : VReg) (a : VReg) (b : VReg) : RoundTrip.Statement (.vperm m d a b) := roundTrip_of_codes rfl fun _ => codes_encVperm m d a b
theorem RoundTrip.vcomp (d : VReg) (a : VReg) : RoundTrip.Statement (.vcomp d a) := roundTrip_of_codes rfl fun _ => codes_encVcomp d a
theorem RoundTrip.viota (m : Bool) (d : VReg) (a : MReg) : RoundTrip.Statement (.viota m d a) := roundTrip_of_codes rfl fun _ => codes_encViota m d a
theorem RoundTrip.vmv (m : Bool) (d : VReg) (b : MvSrc) : RoundTrip.Statement (.vmv m d b) := roundTrip_of_codes rfl fun _ => codes_encVmv m d b
theorem RoundTrip.vmvx (d : XReg) (a : VReg) (b : XISrc) : RoundTrip.Statement (.vmvx d a b) := roundTrip_of_codes rfl fun _ => codes_encVmvx d a b
theorem RoundTrip.vmvi (d : VReg) (b : XReg) (a : XReg) : RoundTrip.Statement (.vmvi d b a) := roundTrip_of_codes rfl fun _ => codes_encVmvi d b a
theorem RoundTrip.vred (m : Bool) (toX : Bool) (o : RedOp) (d : Fin 32) (a : VReg) : RoundTrip.Statement (.vred m toX o d a) := roundTrip_of_codes rfl fun _ => codes_encVred m toX o d a
theorem RoundTrip.vscan (m : Bool) (d : VReg) (a : VReg) : RoundTrip.Statement (.vscan m d a) := roundTrip_of_codes rfl fun _ => codes_encVscan m d a
theorem RoundTrip.vsegredSum (m : Bool) (d : VReg) (a : VReg) (b : XReg) : RoundTrip.Statement (.vsegredSum m d a b) := roundTrip_of_codes rfl fun _ => codes_encVsegredSum m d a b
theorem RoundTrip.vsegredMax (m : Bool) (d : VReg) (a : VReg) (b : XReg) : RoundTrip.Statement (.vsegredMax m d a b) := roundTrip_of_codes rfl fun _ => codes_encVsegredMax m d a b
theorem RoundTrip.vsegredMin (m : Bool) (d : VReg) (a : VReg) (b : XReg) : RoundTrip.Statement (.vsegredMin m d a b) := roundTrip_of_codes rfl fun _ => codes_encVsegredMin m d a b
theorem RoundTrip.vrcp (c : Bool) (m : Bool) (d : VReg) (a : VReg) : RoundTrip.Statement (.vrcp c m d a) := roundTrip_of_codes rfl fun _ => codes_encVrcp c m d a
theorem RoundTrip.vrsq (c : Bool) (m : Bool) (d : VReg) (a : VReg) : RoundTrip.Statement (.vrsq c m d a) := roundTrip_of_codes rfl fun _ => codes_encVrsq c m d a
theorem RoundTrip.vsqrt (c : Bool) (m : Bool) (d : VReg) (a : VReg) : RoundTrip.Statement (.vsqrt c m d a) := roundTrip_of_codes rfl fun _ => codes_encVsqrt c m d a
theorem RoundTrip.vexp2 (c : Bool) (m : Bool) (d : VReg) (a : VReg) : RoundTrip.Statement (.vexp2 c m d a) := roundTrip_of_codes rfl fun _ => codes_encVexp2 c m d a
theorem RoundTrip.vlog2 (c : Bool) (m : Bool) (d : VReg) (a : VReg) : RoundTrip.Statement (.vlog2 c m d a) := roundTrip_of_codes rfl fun _ => codes_encVlog2 c m d a
theorem RoundTrip.vtanh (c : Bool) (m : Bool) (d : VReg) (a : VReg) : RoundTrip.Statement (.vtanh c m d a) := roundTrip_of_codes rfl fun _ => codes_encVtanh c m d a
theorem RoundTrip.vcvt (r : CvtMode) (c : Bool) (m : Bool) (d : VReg) (a : VReg) : RoundTrip.Statement (.vcvt r c m d a) := roundTrip_of_codes rfl fun _ => codes_encVcvt r c m d a
theorem RoundTrip.vcvtScaled (r : CvtMode) (c : Bool) (m : Bool) (d : VReg) (a : VReg) : RoundTrip.Statement (.vcvtScaled r c m d a) := roundTrip_of_codes rfl fun _ => codes_encVcvtScaled r c m d a
theorem RoundTrip.vamax (m : Bool) (a : VReg) : RoundTrip.Statement (.vamax m a) := roundTrip_of_codes rfl fun _ => codes_encVamax m a
theorem RoundTrip.vscale (m : Bool) (f : BitVec 5) (d : VReg) (a : VReg) : RoundTrip.Statement (.vscale m f d a) := roundTrip_of_codes rfl fun h => codes_encVscale m f d a h
theorem RoundTrip.vscore (m : Bool) (d : VReg) (a : VReg) (b : XReg) : RoundTrip.Statement (.vscore m d a b) := roundTrip_of_codes rfl fun _ => codes_encVscore m d a b
theorem RoundTrip.vexpm (c : Bool) (m : Bool) (d : VReg) (a : VReg) (b : XReg) : RoundTrip.Statement (.vexpm c m d a b) := roundTrip_of_codes rfl fun _ => codes_encVexpm c m d a b
theorem RoundTrip.vaccp (m : Bool) (d : VReg) (a : VReg) (b : XReg) : RoundTrip.Statement (.vaccp m d a b) := roundTrip_of_codes rfl fun _ => codes_encVaccp m d a b
theorem RoundTrip.ssoft (d : XReg) (b : XReg) (a : VReg) : RoundTrip.Statement (.ssoft d b a) := roundTrip_of_codes rfl fun h => codes_encSsoft d b a h
theorem RoundTrip.vld (m : Bool) (g : Lane4) (d : VReg) (b : XReg) : RoundTrip.Statement (.vld m g d b) := roundTrip_of_codes rfl fun _ => codes_encVld m g d b
theorem RoundTrip.vldStrided (m : Bool) (g : Lane4) (d : VReg) (b : XReg) (s : XReg) : RoundTrip.Statement (.vldStrided m g d b s) := roundTrip_of_codes rfl fun _ => codes_encVldStrided m g d b s
theorem RoundTrip.vldseg (n : Fin 8) (m : Bool) (g : Lane4) (d : VReg) (b : XReg) (s : XReg) : RoundTrip.Statement (.vldseg n m g d b s) := roundTrip_of_codes rfl fun h => codes_encVldseg n m g d b s h
theorem RoundTrip.vwait (x : WideScope) (q : WaitCond) (m : Bool) (g : Lane4) (v : VReg) (b : XReg) (i : VReg) : RoundTrip.Statement (.vwait x q m g v b i) := roundTrip_of_codes rfl fun h => codes_encVwait x q m g v b i h
theorem RoundTrip.vst (m : Bool) (g : Lane4) (s : VReg) (b : XReg) : RoundTrip.Statement (.vst m g s b) := roundTrip_of_codes rfl fun _ => codes_encVst m g s b
theorem RoundTrip.vstStrided (m : Bool) (g : Lane4) (s : VReg) (b : XReg) (i : XReg) : RoundTrip.Statement (.vstStrided m g s b i) := roundTrip_of_codes rfl fun _ => codes_encVstStrided m g s b i
theorem RoundTrip.vstseg (n : Fin 8) (m : Bool) (g : Lane4) (s : VReg) (b : XReg) (i : XReg) : RoundTrip.Statement (.vstseg n m g s b i) := roundTrip_of_codes rfl fun h => codes_encVstseg n m g s b i h
theorem RoundTrip.vldx (m : Bool) (g : Lane4) (d : VReg) (b : XReg) (i : VReg) : RoundTrip.Statement (.vldx m g d b i) := roundTrip_of_codes rfl fun _ => codes_encVldx m g d b i
theorem RoundTrip.vstxU (m : Bool) (g : Lane4) (s : VReg) (b : XReg) (i : VReg) : RoundTrip.Statement (.vstxU m g s b i) := roundTrip_of_codes rfl fun _ => codes_encVstxU m g s b i
theorem RoundTrip.vstxO (m : Bool) (g : Lane4) (s : VReg) (b : XReg) (i : VReg) : RoundTrip.Statement (.vstxO m g s b i) := roundTrip_of_codes rfl fun _ => codes_encVstxO m g s b i
theorem RoundTrip.vscadd (m : Bool) (g : Lane4) (s : VReg) (b : XReg) (i : VReg) : RoundTrip.Statement (.vscadd m g s b i) := roundTrip_of_codes rfl fun _ => codes_encVscadd m g s b i
theorem RoundTrip.vmergeu (kz : Bool) (d : VReg) (n : XReg) (a : VReg) : RoundTrip.Statement (.vmergeu kz d n a) := roundTrip_of_codes rfl fun _ => codes_encVmergeu kz d n a
theorem RoundTrip.vamo (o : VamoOp) (x : WideScope) (r : Option OrdFlag) (m : Bool) (g : Lane4) (d : VReg) (b : XReg) (i : VReg) : RoundTrip.Statement (.vamo o x r m g d b i) := roundTrip_of_codes rfl fun _ => codes_encVamo o x r m g d b i
theorem RoundTrip.vsqres (m : Bool) (g : Lane4) (d : VReg) (h : VReg) : RoundTrip.Statement (.vsqres m g d h) := roundTrip_of_codes rfl fun _ => codes_encVsqres m g d h
theorem RoundTrip.vsqst (m : Bool) (g : Lane4) (s : VReg) (h : XReg) (i : XReg) : RoundTrip.Statement (.vsqst m g s h i) := roundTrip_of_codes rfl fun _ => codes_encVsqst m g s h i
theorem RoundTrip.vsqstX (m : Bool) (g : Lane4) (s : VReg) (h : VReg) (i : VReg) : RoundTrip.Statement (.vsqstX m g s h i) := roundTrip_of_codes rfl fun _ => codes_encVsqstX m g s h i
theorem RoundTrip.vsqcmt (x : WideScope) (m : Bool) (g : Lane4) (h : VReg) (i : VReg) : RoundTrip.Statement (.vsqcmt x m g h i) := roundTrip_of_codes rfl fun _ => codes_encVsqcmt x m g h i
theorem RoundTrip.vsqld (m : Bool) (g : Lane4) (d : VReg) (h : XReg) (i : XReg) : RoundTrip.Statement (.vsqld m g d h i) := roundTrip_of_codes rfl fun _ => codes_encVsqld m g d h i
theorem RoundTrip.vsqldX (m : Bool) (g : Lane4) (d : VReg) (h : VReg) (i : VReg) : RoundTrip.Statement (.vsqldX m g d h i) := roundTrip_of_codes rfl fun _ => codes_encVsqldX m g d h i
theorem RoundTrip.dcfg (d : XReg) (x : XReg) : RoundTrip.Statement (.dcfg d x) := roundTrip_of_codes rfl fun _ => codes_encDcfg d x
theorem RoundTrip.dzero (x : XReg) : RoundTrip.Statement (.dzero x) := roundTrip_of_codes rfl fun _ => codes_encDzero x
theorem RoundTrip.dmac (a : VReg) (b : VReg) (x : XReg) : RoundTrip.Statement (.dmac a b x) := roundTrip_of_codes rfl fun _ => codes_encDmac a b x
theorem RoundTrip.dmacD (a : VReg) (b : VReg) (x : XReg) : RoundTrip.Statement (.dmacD a b x) := roundTrip_of_codes rfl fun _ => codes_encDmacD a b x
theorem RoundTrip.dmacg (a : VReg) (b : VReg) (x : XReg) : RoundTrip.Statement (.dmacg a b x) := roundTrip_of_codes rfl fun _ => codes_encDmacg a b x
theorem RoundTrip.dxtr (ne : Bool) (m : Bool) (d : VReg) (x : XReg) : RoundTrip.Statement (.dxtr ne m d x) := roundTrip_of_codes rfl fun _ => codes_encDxtr ne m d x
theorem RoundTrip.ddir (d : XReg) (x : XReg) : RoundTrip.Statement (.ddir d x) := roundTrip_of_codes rfl fun _ => codes_encDdir d x
theorem RoundTrip.dfree (x : XReg) : RoundTrip.Statement (.dfree x) := roundTrip_of_codes rfl fun _ => codes_encDfree x
theorem RoundTrip.dmv (d : VReg) (a : VReg) (b : VReg) (x : XReg) : RoundTrip.Statement (.dmv d a b x) := roundTrip_of_codes rfl fun _ => codes_encDmv d a b x
theorem RoundTrip.dmvM (d : VReg) (a : VReg) (b : VReg) (x : XReg) : RoundTrip.Statement (.dmvM d a b x) := roundTrip_of_codes rfl fun _ => codes_encDmvM d a b x
theorem RoundTrip.dpiv (m : Bool) (d : VReg) (a : VReg) : RoundTrip.Statement (.dpiv m d a) := roundTrip_of_codes rfl fun _ => codes_encDpiv m d a
theorem RoundTrip.dupd (m : Bool) (a : VReg) (x : XReg) : RoundTrip.Statement (.dupd m a x) := roundTrip_of_codes rfl fun _ => codes_encDupd m a x
theorem RoundTrip.xcopy (ex : Bool) (z : Sz) (h : Lane4) (o : Ord) (d : XReg) (a : XReg) (b : VReg) : RoundTrip.Statement (.xcopy ex z h o d a b) := roundTrip_of_codes rfl fun _ => codes_encXcopy ex z h o d a b
theorem RoundTrip.xgath (h : Lane4) (o : Ord) (d : XReg) (a : XReg) (b : VReg) : RoundTrip.Statement (.xgath h o d a b) := roundTrip_of_codes rfl fun _ => codes_encXgath h o d a b
theorem RoundTrip.xxform (h : Lane4) (o : Ord) (a : XReg) (b : XReg) : RoundTrip.Statement (.xxform h o a b) := roundTrip_of_codes rfl fun _ => codes_encXxform h o a b
theorem RoundTrip.xdrain (h : Lane4) : RoundTrip.Statement (.xdrain h) := roundTrip_of_codes rfl fun _ => codes_encXdrain h
theorem RoundTrip.xchain (a : VReg) (b : XReg) : RoundTrip.Statement (.xchain a b) := roundTrip_of_codes rfl fun _ => codes_encXchain a b
theorem RoundTrip.sbind (d : SReg) (a : XReg) (b : XReg) : RoundTrip.Statement (.sbind d a b) := roundTrip_of_codes rfl fun _ => codes_encSbind d a b
theorem RoundTrip.srel (d : SReg) : RoundTrip.Statement (.srel d) := roundTrip_of_codes rfl fun _ => codes_encSrel d
theorem RoundTrip.sstat (d : XReg) (a : SReg) : RoundTrip.Statement (.sstat d a) := roundTrip_of_codes rfl fun _ => codes_encSstat d a
theorem RoundTrip.cAddi (d : XReg) (i : BitVec 6) : RoundTrip.Statement (.cAddi d i) := roundTrip_of_codes rfl fun h => codes_encCAddi d i h
theorem RoundTrip.cLi (d : XReg) (i : BitVec 6) : RoundTrip.Statement (.cLi d i) := roundTrip_of_codes rfl fun h => codes_encCLi d i h
theorem RoundTrip.cSlli (d : XReg) (s : BitVec 6) : RoundTrip.Statement (.cSlli d s) := roundTrip_of_codes rfl fun h => codes_encCSlli d s h
theorem RoundTrip.cLd (d : Fin 8) (b : Fin 8) (o : BitVec 5) : RoundTrip.Statement (.cLd d b o) := roundTrip_of_codes rfl fun _ => codes_encCLd d b o
theorem RoundTrip.cSt (s : Fin 8) (b : Fin 8) (o : BitVec 5) : RoundTrip.Statement (.cSt s b o) := roundTrip_of_codes rfl fun _ => codes_encCSt s b o
theorem RoundTrip.cBeqz (a : Fin 8) (o : BitVec 8) : RoundTrip.Statement (.cBeqz a o) := roundTrip_of_codes rfl fun _ => codes_encCBeqz a o
theorem RoundTrip.cBnez (a : Fin 8) (o : BitVec 8) : RoundTrip.Statement (.cBnez a o) := roundTrip_of_codes rfl fun _ => codes_encCBnez a o
theorem RoundTrip.cJ (o : BitVec 11) : RoundTrip.Statement (.cJ o) := roundTrip_of_codes rfl fun _ => codes_encCJ o
theorem RoundTrip.cMv (d : XReg) (s : XReg) : RoundTrip.Statement (.cMv d s) := roundTrip_of_codes rfl fun h => codes_encCMv d s h
theorem RoundTrip.cAdd (d : XReg) (s : XReg) : RoundTrip.Statement (.cAdd d s) := roundTrip_of_codes rfl fun h => codes_encCAdd d s h
theorem RoundTrip.cJr (a : XReg) : RoundTrip.Statement (.cJr a) := roundTrip_of_codes rfl fun h => codes_encCJr a h
theorem RoundTrip.cNop : RoundTrip.Statement (.cNop) := roundTrip_of_codes rfl fun _ => codes_encCNop
theorem RoundTrip.tzero (t : TReg) : RoundTrip.Statement (.tzero t) := roundTrip_of_codes rfl fun _ => codes_encTzero t
theorem RoundTrip.trowmv (m : Bool) (t : TReg) (a : VReg) (x : XReg) : RoundTrip.Statement (.trowmv m t a x) := roundTrip_of_codes rfl fun _ => codes_encTrowmv m t a x
theorem RoundTrip.tcolmv (m : Bool) (d : VReg) (t : TReg) (x : XReg) : RoundTrip.Statement (.tcolmv m d t x) := roundTrip_of_codes rfl fun _ => codes_encTcolmv m d t x
theorem RoundTrip.tmma (t : TReg) (a : VReg) (b : VReg) : RoundTrip.Statement (.tmma t a b) := roundTrip_of_codes rfl fun _ => codes_encTmma t a b
theorem RoundTrip.tstat (d : XReg) : RoundTrip.Statement (.tstat d) := roundTrip_of_codes rfl fun _ => codes_encTstat d
theorem RoundTrip.tsave (t : TReg) (a : XReg) : RoundTrip.Statement (.tsave t a) := roundTrip_of_codes rfl fun _ => codes_encTsave t a
theorem RoundTrip.trest (t : TReg) (a : XReg) : RoundTrip.Statement (.trest t a) := roundTrip_of_codes rfl fun _ => codes_encTrest t a
theorem RoundTrip.li64 (d : XReg) (i : BitVec 51) : RoundTrip.Statement (.li64 d i) := roundTrip_of_codes rfl fun _ => codes_encLi64 d i
theorem RoundTrip.coldReset : RoundTrip.Statement (.coldReset) := roundTrip_of_none rfl
theorem RoundTrip.modulePowerOn : RoundTrip.Statement (.modulePowerOn) := roundTrip_of_none rfl
theorem RoundTrip.bootStage (r : BootResult) : RoundTrip.Statement (.bootStage r) := roundTrip_of_none rfl
theorem RoundTrip.bootStageTimeout : RoundTrip.Statement (.bootStageTimeout) := roundTrip_of_none rfl
theorem RoundTrip.registerWrite (pa : Nat) (v : Word) : RoundTrip.Statement (.registerWrite pa v) := roundTrip_of_none rfl
theorem RoundTrip.queueEnable (q : Fin 64) : RoundTrip.Statement (.queueEnable q) := roundTrip_of_none rfl
theorem RoundTrip.queueDisable (q : Fin 64) : RoundTrip.Statement (.queueDisable q) := roundTrip_of_none rfl
theorem RoundTrip.tailWrite (q : Fin 64) (v : Word) : RoundTrip.Statement (.tailWrite q v) := roundTrip_of_none rfl
theorem RoundTrip.entryFetch (q : Fin 64) : RoundTrip.Statement (.entryFetch q) := roundTrip_of_none rfl
theorem RoundTrip.entryStart (q : Fin 64) : RoundTrip.Statement (.entryStart q) := roundTrip_of_none rfl
theorem RoundTrip.placeItems : RoundTrip.Statement (.placeItems) := roundTrip_of_none rfl
theorem RoundTrip.timeSliceExpiry (q : Fin 64) : RoundTrip.Statement (.timeSliceExpiry q) := roundTrip_of_none rfl
theorem RoundTrip.frameSave (n : Fin 4096) : RoundTrip.Statement (.frameSave n) := roundTrip_of_none rfl
theorem RoundTrip.restore (ctx : BitVec 12) : RoundTrip.Statement (.restore ctx) := roundTrip_of_none rfl
theorem RoundTrip.entryComplete (q : Fin 64) (seq : Nat) : RoundTrip.Statement (.entryComplete q seq) := roundTrip_of_none rfl
theorem RoundTrip.watchdogExpiry (n : Fin 4096) : RoundTrip.Statement (.watchdogExpiry n) := roundTrip_of_none rfl
theorem RoundTrip.eventRecordWrite : RoundTrip.Statement (.eventRecordWrite) := roundTrip_of_none rfl
theorem RoundTrip.evheadWrite (v : Word) : RoundTrip.Statement (.evheadWrite v) := roundTrip_of_none rfl
theorem RoundTrip.evovfRead : RoundTrip.Statement (.evovfRead) := roundTrip_of_none rfl
theorem RoundTrip.vunpark (v : Word) : RoundTrip.Statement (.vunpark v) := roundTrip_of_none rfl
theorem RoundTrip.svcqHeadPoll (ctx : BitVec 12) : RoundTrip.Statement (.svcqHeadPoll ctx) := roundTrip_of_none rfl
theorem RoundTrip.relqHeadPoll (ctx : BitVec 12) : RoundTrip.Statement (.relqHeadPoll ctx) := roundTrip_of_none rfl
theorem RoundTrip.stripIssue (core : Fin 1024) : RoundTrip.Statement (.stripIssue core) := roundTrip_of_none rfl
theorem RoundTrip.slotBoundary (core : Fin 1024) : RoundTrip.Statement (.slotBoundary core) := roundTrip_of_none rfl
theorem RoundTrip.routineLoad (v : Word) : RoundTrip.Statement (.routineLoad v) := roundTrip_of_none rfl
theorem RoundTrip.routineUnload (v : Word) : RoundTrip.Statement (.routineUnload v) := roundTrip_of_none rfl
theorem RoundTrip.routineLoadDone : RoundTrip.Statement (.routineLoadDone) := roundTrip_of_none rfl
theorem RoundTrip.ecallRead (e : Fin 64) (va : VAddr) (loc : Nat) (n : Nat) : RoundTrip.Statement (.ecallRead e va loc n) := roundTrip_of_none rfl
theorem RoundTrip.ecallWrite (e : Fin 64) (va : VAddr) (loc : Nat) (n : Nat) : RoundTrip.Statement (.ecallWrite e va loc n) := roundTrip_of_none rfl
theorem RoundTrip.ecallWait (e : Fin 64) : RoundTrip.Statement (.ecallWait e) := roundTrip_of_none rfl
theorem RoundTrip.routineReturn (e : Fin 64) (a0 : Word) : RoundTrip.Statement (.routineReturn e a0) := roundTrip_of_none rfl
theorem RoundTrip.routineTimeout (e : Fin 64) : RoundTrip.Statement (.routineTimeout e) := roundTrip_of_none rfl
theorem RoundTrip.copyAccept (n : Fin 4096) : RoundTrip.Statement (.copyAccept n) := roundTrip_of_none rfl
theorem RoundTrip.copyExecute (core : Fin 1024) (ch : Lane4) (k : Nat) : RoundTrip.Statement (.copyExecute core ch k) := roundTrip_of_none rfl
theorem RoundTrip.ringWriteResume (core : Fin 1024) (ch : Lane4) (k : Nat) : RoundTrip.Statement (.ringWriteResume core ch k) := roundTrip_of_none rfl
theorem RoundTrip.chainGroupDelivery (n : Fin 4096) : RoundTrip.Statement (.chainGroupDelivery n) := roundTrip_of_none rfl
theorem RoundTrip.tileTransferEnd (n : Fin 4096) (t : TReg) : RoundTrip.Statement (.tileTransferEnd n t) := roundTrip_of_none rfl
theorem RoundTrip.walkComplete (die : Fin 4) (ctx : BitVec 12) (va : VAddr) : RoundTrip.Statement (.walkComplete die ctx va) := roundTrip_of_none rfl
theorem RoundTrip.vwaitTimeout (n : Fin 4096) : RoundTrip.Statement (.vwaitTimeout n) := roundTrip_of_none rfl
theorem RoundTrip.waitevDeadline (n : Fin 4096) : RoundTrip.Statement (.waitevDeadline n) := roundTrip_of_none rfl
theorem RoundTrip.pageUpdate (v : Word) : RoundTrip.Statement (.pageUpdate v) := roundTrip_of_none rfl
theorem RoundTrip.pageUnmap (v : Word) : RoundTrip.Statement (.pageUnmap v) := roundTrip_of_none rfl
theorem RoundTrip.pageMove (v : Word) : RoundTrip.Statement (.pageMove v) := roundTrip_of_none rfl
theorem RoundTrip.pgcmdBadOp (v : Word) : RoundTrip.Statement (.pgcmdBadOp v) := roundTrip_of_none rfl
theorem RoundTrip.moveComplete : RoundTrip.Statement (.moveComplete) := roundTrip_of_none rfl
theorem RoundTrip.collectorRun (p : Fin 8) : RoundTrip.Statement (.collectorRun p) := roundTrip_of_none rfl
theorem RoundTrip.cleanerWriteback (line : Nat) : RoundTrip.Statement (.cleanerWriteback line) := roundTrip_of_none rfl
theorem RoundTrip.patrolScrub (line : Nat) : RoundTrip.Statement (.patrolScrub line) := roundTrip_of_none rfl
theorem RoundTrip.dedupSample (die : Fin 4) : RoundTrip.Statement (.dedupSample die) := roundTrip_of_none rfl
theorem RoundTrip.read (h : Header) : RoundTrip.Statement (.read h) := roundTrip_of_none rfl
theorem RoundTrip.write (h : Header) (data : List Byte) : RoundTrip.Statement (.write h data) := roundTrip_of_none rfl
theorem RoundTrip.atomic (h : Header) (op : AmoOp) (v : Word) : RoundTrip.Statement (.atomic h op v) := roundTrip_of_none rfl
theorem RoundTrip.vatom (h : Header) (op : VamoOp) (t : BitVec 6) (data : List Word) : RoundTrip.Statement (.vatom h op t data) := roundTrip_of_none rfl
theorem RoundTrip.barrier (h : Header) (r : BarrierReq) : RoundTrip.Statement (.barrier h r) := roundTrip_of_none rfl
theorem RoundTrip.vine (ctx : BitVec 12) (handle : BitVec 32) (r : VineReq) : RoundTrip.Statement (.vine ctx handle r) := roundTrip_of_none rfl
theorem RoundTrip.cacheop (h : Header) (ctx : BitVec 12) (r : CacheReq) : RoundTrip.Statement (.cacheop h ctx r) := roundTrip_of_none rfl
theorem RoundTrip.watch (h : Header) (n : Fin 4096) : RoundTrip.Statement (.watch h n) := roundTrip_of_none rfl
theorem RoundTrip.fill (h : Header) : RoundTrip.Statement (.fill h) := roundTrip_of_none rfl
theorem RoundTrip.gfill (h : Header) : RoundTrip.Statement (.gfill h) := roundTrip_of_none rfl
theorem RoundTrip.heldWriteProceed : RoundTrip.Statement (.heldWriteProceed) := roundTrip_of_none rfl
theorem RoundTrip.rdcInvalidate (die : Fin 4) (line : Nat) : RoundTrip.Statement (.rdcInvalidate die line) := roundTrip_of_none rfl
theorem RoundTrip.reply (core : Fin 1024) (line : Nat) (data : List Byte) : RoundTrip.Statement (.reply core line data) := roundTrip_of_none rfl
theorem RoundTrip.signalAnswer (n : Fin 4096) (nack : Bool) : RoundTrip.Statement (.signalAnswer n nack) := roundTrip_of_none rfl
theorem RoundTrip.hostPostedWrite (pa : Nat) (data : List Byte) : RoundTrip.Statement (.hostPostedWrite pa data) := roundTrip_of_none rfl
theorem RoundTrip.hostRead (pa : Nat) (n : Nat) : RoundTrip.Statement (.hostRead pa n) := roundTrip_of_none rfl
theorem RoundTrip.cxlSnoop (line : Nat) : RoundTrip.Statement (.cxlSnoop line) := roundTrip_of_none rfl
theorem RoundTrip.peerRequest (port : Fin 18) (snode : BitVec 10) (export_ : Fin 64) (off : Nat) (op : PeerOp) : RoundTrip.Statement (.peerRequest port snode export_ off op) := roundTrip_of_none rfl
theorem RoundTrip.portEnable (k : Fin 18) : RoundTrip.Statement (.portEnable k) := roundTrip_of_none rfl
theorem RoundTrip.portDisable (k : Fin 18) : RoundTrip.Statement (.portDisable k) := roundTrip_of_none rfl
theorem RoundTrip.portRetrain (k : Fin 18) : RoundTrip.Statement (.portRetrain k) := roundTrip_of_none rfl
theorem RoundTrip.partnerFound (k : Fin 18) (sw : Bool) (node : BitVec 10) (pport : BitVec 9) : RoundTrip.Statement (.partnerFound k sw node pport) := roundTrip_of_none rfl
theorem RoundTrip.trainingTimeout (k : Fin 18) : RoundTrip.Statement (.trainingTimeout k) := roundTrip_of_none rfl
theorem RoundTrip.retrainFailed (k : Fin 18) : RoundTrip.Statement (.retrainFailed k) := roundTrip_of_none rfl
theorem RoundTrip.downRetry (k : Fin 18) : RoundTrip.Statement (.downRetry k) := roundTrip_of_none rfl
theorem RoundTrip.flitReceive (k : Fin 18) (f : List Byte) : RoundTrip.Statement (.flitReceive k f) := roundTrip_of_none rfl
theorem RoundTrip.nakReceive (k : Fin 18) (seq : BitVec 12) : RoundTrip.Statement (.nakReceive k seq) := roundTrip_of_none rfl
theorem RoundTrip.collectiveDoorbell (v : Word) : RoundTrip.Statement (.collectiveDoorbell v) := roundTrip_of_none rfl
theorem RoundTrip.collectiveStart : RoundTrip.Statement (.collectiveStart) := roundTrip_of_none rfl
theorem RoundTrip.reductionFlit (h : ReductionHead) (nf : Bool) (data : List Byte) : RoundTrip.Statement (.reductionFlit h nf data) := roundTrip_of_none rfl
theorem RoundTrip.collectiveRefusal (group : BitVec 16) : RoundTrip.Statement (.collectiveRefusal group) := roundTrip_of_none rfl
theorem RoundTrip.collectiveTimeout : RoundTrip.Statement (.collectiveTimeout) := roundTrip_of_none rfl
theorem RoundTrip.collectiveComplete : RoundTrip.Statement (.collectiveComplete) := roundTrip_of_none rfl
theorem RoundTrip.laneGroupRetire (core : Fin 1024) (mask : BitVec 4) : RoundTrip.Statement (.laneGroupRetire core mask) := roundTrip_of_none rfl
theorem RoundTrip.lgceRead (core : Fin 1024) : RoundTrip.Statement (.lgceRead core) := roundTrip_of_none rfl
theorem RoundTrip.powerCap (mw : Nat) : RoundTrip.Statement (.powerCap mw) := roundTrip_of_none rfl
theorem RoundTrip.corePowerGate (core : Fin 1024) : RoundTrip.Statement (.corePowerGate core) := roundTrip_of_none rfl
theorem RoundTrip.attest : RoundTrip.Statement (.attest) := roundTrip_of_none rfl
theorem RoundTrip.key : RoundTrip.Statement (.key) := roundTrip_of_none rfl
theorem RoundTrip.retire : RoundTrip.Statement (.retire) := roundTrip_of_none rfl
theorem RoundTrip.unretire : RoundTrip.Statement (.unretire) := roundTrip_of_none rfl
theorem RoundTrip.list : RoundTrip.Statement (.list) := roundTrip_of_none rfl
theorem RoundTrip.dieresetEnter : RoundTrip.Statement (.dieresetEnter) := roundTrip_of_none rfl
theorem RoundTrip.dieresetLeave : RoundTrip.Statement (.dieresetLeave) := roundTrip_of_none rfl
theorem RoundTrip.mbcmdUnknown (op : BitVec 8) : RoundTrip.Statement (.mbcmdUnknown op) := roundTrip_of_none rfl
theorem RoundTrip.mailboxDone : RoundTrip.Statement (.mailboxDone) := roundTrip_of_none rfl
theorem RoundTrip.dieEnterReset (die : Fin 4) : RoundTrip.Statement (.dieEnterReset die) := roundTrip_of_none rfl
theorem RoundTrip.fatalDieReset (die : Fin 4) : RoundTrip.Statement (.fatalDieReset die) := roundTrip_of_none rfl
theorem RoundTrip.engineStrip (core : Fin 1024) : RoundTrip.Statement (.engineStrip core) := roundTrip_of_none rfl
theorem RoundTrip.scratchpadAccess (pa : Nat) (r : SpadReq) : RoundTrip.Statement (.scratchpadAccess pa r) := roundTrip_of_none rfl
theorem RoundTrip.clsegsWrite (p : Fin 8) (v : Word) : RoundTrip.Statement (.clsegsWrite p v) := roundTrip_of_none rfl
theorem RoundTrip.hostReadCompletion (n : Fin 4096) (v : Word) : RoundTrip.Statement (.hostReadCompletion n v) := roundTrip_of_none rfl
theorem RoundTrip.modulePowerLoss : RoundTrip.Statement (.modulePowerLoss) := roundTrip_of_none rfl

end Sys2Proof.Laws
end

