-- ==== Sys2Proof/Laws/State.lean ====
section
/-! SUPPORT. What each update of the focused strand does to each field of the machine, one lemma per field per update. -/

namespace Sys2Proof.Machine

/-! ## retire -/

@[simp] theorem retire_cur (s : State) (len : Nat) : (s.retire len).cur = s.cur := rfl
@[simp] theorem retire_others (s : State) (len : Nat) : (s.retire len).others = s.others := rfl
@[simp] theorem retire_cores (s : State) (len : Nat) : (s.retire len).cores = s.cores := rfl
@[simp] theorem retire_mem (s : State) (len : Nat) : (s.retire len).mem = s.mem := rfl
@[simp] theorem retire_poison (s : State) (len : Nat) : (s.retire len).poison = s.poison := rfl
@[simp] theorem retire_watches (s : State) (len : Nat) : (s.retire len).watches = s.watches := rfl
@[simp] theorem retire_cycle (s : State) (len : Nat) : (s.retire len).cycle = s.cycle := rfl
@[simp] theorem retire_lp (s : State) (len : Nat) : (s.retire len).lp = s.lp := rfl
@[simp] theorem retire_ev (s : State) (len : Nat) : (s.retire len).ev = s.ev := rfl
@[simp] theorem retire_lines (s : State) (len : Nat) : (s.retire len).lines = s.lines := rfl
@[simp] theorem retire_pages (s : State) (len : Nat) : (s.retire len).pages = s.pages := rfl
@[simp] theorem retire_regions (s : State) (len : Nat) : (s.retire len).regions = s.regions := rfl
@[simp] theorem retire_links (s : State) (len : Nat) : (s.retire len).links = s.links := rfl
@[simp] theorem retire_press (s : State) (len : Nat) : (s.retire len).press = s.press := rfl
@[simp] theorem retire_daleel (s : State) (len : Nat) : (s.retire len).daleel = s.daleel := rfl
@[simp] theorem retire_waitRel (s : State) (len : Nat) : (s.retire len).waitRel = s.waitRel := rfl
@[simp] theorem retire_waitSvc (s : State) (len : Nat) : (s.retire len).waitSvc = s.waitSvc := rfl
@[simp] theorem retire_parkedAt (s : State) (len : Nat) : (s.retire len).parkedAt = s.parkedAt := rfl
@[simp] theorem retire_broken (s : State) (len : Nat) : (s.retire len).broken = s.broken := rfl
@[simp] theorem retire_vineDue (s : State) (len : Nat) : (s.retire len).vineDue = s.vineDue := rfl
@[simp] theorem retire_cows (s : State) (len : Nat) : (s.retire len).cows = s.cows := rfl
@[simp] theorem retire_pinned (s : State) (len : Nat) : (s.retire len).pinned = s.pinned := rfl
@[simp] theorem retire_pinsDue (s : State) (len : Nat) : (s.retire len).pinsDue = s.pinsDue := rfl
@[simp] theorem retire_lag (s : State) (len : Nat) : (s.retire len).lag = s.lag := rfl
@[simp] theorem retire_agenda (s : State) (len : Nat) : (s.retire len).agenda = s.agenda := rfl
@[simp] theorem retire_freeCount (s : State) (len : Nat) : (s.retire len).freeCount = s.freeCount := rfl
@[simp] theorem retire_st_resident (s : State) (len : Nat) : (s.retire len).st.resident = s.st.resident := rfl
@[simp] theorem retire_st_ctx (s : State) (len : Nat) : (s.retire len).st.ctx = s.st.ctx := rfl
@[simp] theorem retire_st_pc (s : State) (len : Nat) : (s.retire len).st.pc = s.st.pc + BitVec.ofNat 48 len := rfl
@[simp] theorem retire_st_priv (s : State) (len : Nat) : (s.retire len).st.priv = s.st.priv := rfl
@[simp] theorem retire_st_x (s : State) (len : Nat) : (s.retire len).st.x = s.st.x := rfl
@[simp] theorem retire_st_v (s : State) (len : Nat) : (s.retire len).st.v = s.st.v := rfl
@[simp] theorem retire_st_m (s : State) (len : Nat) : (s.retire len).st.m = s.st.m := rfl
@[simp] theorem retire_st_csr (s : State) (len : Nat) : (s.retire len).st.csr = { s.st.csr with retired := s.st.csr.retired + 1 } := rfl
@[simp] theorem retire_st_trap (s : State) (len : Nat) : (s.retire len).st.trap = s.st.trap := rfl
@[simp] theorem retire_st_streams (s : State) (len : Nat) : (s.retire len).st.streams = s.st.streams := rfl
@[simp] theorem retire_st_viq (s : State) (len : Nat) : (s.retire len).st.viq = s.st.viq := rfl
@[simp] theorem retire_st_hold (s : State) (len : Nat) : (s.retire len).st.hold = s.st.hold := rfl
@[simp] theorem retire_st_holdAt (s : State) (len : Nat) : (s.retire len).st.holdAt = s.st.holdAt := rfl
@[simp] theorem retire_st_accum (s : State) (len : Nat) : (s.retire len).st.accum = s.st.accum := rfl
@[simp] theorem retire_st_item (s : State) (len : Nat) : (s.retire len).st.item = s.st.item := rfl
@[simp] theorem retire_st_park (s : State) (len : Nat) : (s.retire len).st.park = s.st.park := rfl
@[simp] theorem retire_st_wait (s : State) (len : Nat) : (s.retire len).st.wait = s.st.wait := rfl
@[simp] theorem retire_st_await (s : State) (len : Nat) : (s.retire len).st.await = s.st.await := rfl
@[simp] theorem retire_st_signals (s : State) (len : Nat) : (s.retire len).st.signals = s.st.signals := rfl
@[simp] theorem retire_st_copyErr (s : State) (len : Nat) : (s.retire len).st.copyErr = s.st.copyErr := rfl
@[simp] theorem retire_st_deficit (s : State) (len : Nat) : (s.retire len).st.deficit = s.st.deficit := rfl
@[simp] theorem retire_st_passed (s : State) (len : Nat) : (s.retire len).st.passed = s.st.passed := rfl
@[simp] theorem retire_st_yielded (s : State) (len : Nat) : (s.retire len).st.yielded = s.st.yielded := rfl
@[simp] theorem retire_st_slotWoke (s : State) (len : Nat) : (s.retire len).st.slotWoke = s.st.slotWoke := rfl
@[simp] theorem retire_st_frame (s : State) (len : Nat) : (s.retire len).st.frame = s.st.frame := rfl
@[simp] theorem retire_st_qerr (s : State) (len : Nat) : (s.retire len).st.qerr = s.st.qerr := rfl
@[simp] theorem retire_st_dogRan (s : State) (len : Nat) : (s.retire len).st.dogRan = 0 := rfl
@[simp] theorem retire_st_dogFrom (s : State) (len : Nat) : (s.retire len).st.dogFrom = s.cycle := rfl
@[simp] theorem retire_st_bad (s : State) (len : Nat) : (s.retire len).st.bad = s.st.bad := rfl
@[simp] theorem retire_st_remote (s : State) (len : Nat) : (s.retire len).st.remote = s.st.remote := rfl

/-! ## jump -/

@[simp] theorem jump_cur (s : State) (t : VAddr) : (s.jump t).cur = s.cur := rfl
@[simp] theorem jump_others (s : State) (t : VAddr) : (s.jump t).others = s.others := rfl
@[simp] theorem jump_cores (s : State) (t : VAddr) : (s.jump t).cores = s.cores := rfl
@[simp] theorem jump_mem (s : State) (t : VAddr) : (s.jump t).mem = s.mem := rfl
@[simp] theorem jump_poison (s : State) (t : VAddr) : (s.jump t).poison = s.poison := rfl
@[simp] theorem jump_watches (s : State) (t : VAddr) : (s.jump t).watches = s.watches := rfl
@[simp] theorem jump_cycle (s : State) (t : VAddr) : (s.jump t).cycle = s.cycle := rfl
@[simp] theorem jump_lp (s : State) (t : VAddr) : (s.jump t).lp = s.lp := rfl
@[simp] theorem jump_ev (s : State) (t : VAddr) : (s.jump t).ev = s.ev := rfl
@[simp] theorem jump_lines (s : State) (t : VAddr) : (s.jump t).lines = s.lines := rfl
@[simp] theorem jump_pages (s : State) (t : VAddr) : (s.jump t).pages = s.pages := rfl
@[simp] theorem jump_regions (s : State) (t : VAddr) : (s.jump t).regions = s.regions := rfl
@[simp] theorem jump_links (s : State) (t : VAddr) : (s.jump t).links = s.links := rfl
@[simp] theorem jump_press (s : State) (t : VAddr) : (s.jump t).press = s.press := rfl
@[simp] theorem jump_daleel (s : State) (t : VAddr) : (s.jump t).daleel = s.daleel := rfl
@[simp] theorem jump_waitRel (s : State) (t : VAddr) : (s.jump t).waitRel = s.waitRel := rfl
@[simp] theorem jump_waitSvc (s : State) (t : VAddr) : (s.jump t).waitSvc = s.waitSvc := rfl
@[simp] theorem jump_parkedAt (s : State) (t : VAddr) : (s.jump t).parkedAt = s.parkedAt := rfl
@[simp] theorem jump_broken (s : State) (t : VAddr) : (s.jump t).broken = s.broken := rfl
@[simp] theorem jump_vineDue (s : State) (t : VAddr) : (s.jump t).vineDue = s.vineDue := rfl
@[simp] theorem jump_cows (s : State) (t : VAddr) : (s.jump t).cows = s.cows := rfl
@[simp] theorem jump_pinned (s : State) (t : VAddr) : (s.jump t).pinned = s.pinned := rfl
@[simp] theorem jump_pinsDue (s : State) (t : VAddr) : (s.jump t).pinsDue = s.pinsDue := rfl
@[simp] theorem jump_lag (s : State) (t : VAddr) : (s.jump t).lag = s.lag := rfl
@[simp] theorem jump_agenda (s : State) (t : VAddr) : (s.jump t).agenda = s.agenda := rfl
@[simp] theorem jump_freeCount (s : State) (t : VAddr) : (s.jump t).freeCount = s.freeCount := rfl
@[simp] theorem jump_st_resident (s : State) (t : VAddr) : (s.jump t).st.resident = s.st.resident := rfl
@[simp] theorem jump_st_ctx (s : State) (t : VAddr) : (s.jump t).st.ctx = s.st.ctx := rfl
@[simp] theorem jump_st_pc (s : State) (t : VAddr) : (s.jump t).st.pc = t := rfl
@[simp] theorem jump_st_priv (s : State) (t : VAddr) : (s.jump t).st.priv = s.st.priv := rfl
@[simp] theorem jump_st_x (s : State) (t : VAddr) : (s.jump t).st.x = s.st.x := rfl
@[simp] theorem jump_st_v (s : State) (t : VAddr) : (s.jump t).st.v = s.st.v := rfl
@[simp] theorem jump_st_m (s : State) (t : VAddr) : (s.jump t).st.m = s.st.m := rfl
@[simp] theorem jump_st_csr (s : State) (t : VAddr) : (s.jump t).st.csr = { s.st.csr with retired := s.st.csr.retired + 1 } := rfl
@[simp] theorem jump_st_trap (s : State) (t : VAddr) : (s.jump t).st.trap = s.st.trap := rfl
@[simp] theorem jump_st_streams (s : State) (t : VAddr) : (s.jump t).st.streams = s.st.streams := rfl
@[simp] theorem jump_st_viq (s : State) (t : VAddr) : (s.jump t).st.viq = s.st.viq := rfl
@[simp] theorem jump_st_hold (s : State) (t : VAddr) : (s.jump t).st.hold = s.st.hold := rfl
@[simp] theorem jump_st_holdAt (s : State) (t : VAddr) : (s.jump t).st.holdAt = s.st.holdAt := rfl
@[simp] theorem jump_st_accum (s : State) (t : VAddr) : (s.jump t).st.accum = s.st.accum := rfl
@[simp] theorem jump_st_item (s : State) (t : VAddr) : (s.jump t).st.item = s.st.item := rfl
@[simp] theorem jump_st_park (s : State) (t : VAddr) : (s.jump t).st.park = s.st.park := rfl
@[simp] theorem jump_st_wait (s : State) (t : VAddr) : (s.jump t).st.wait = s.st.wait := rfl
@[simp] theorem jump_st_await (s : State) (t : VAddr) : (s.jump t).st.await = s.st.await := rfl
@[simp] theorem jump_st_signals (s : State) (t : VAddr) : (s.jump t).st.signals = s.st.signals := rfl
@[simp] theorem jump_st_copyErr (s : State) (t : VAddr) : (s.jump t).st.copyErr = s.st.copyErr := rfl
@[simp] theorem jump_st_deficit (s : State) (t : VAddr) : (s.jump t).st.deficit = s.st.deficit := rfl
@[simp] theorem jump_st_passed (s : State) (t : VAddr) : (s.jump t).st.passed = s.st.passed := rfl
@[simp] theorem jump_st_yielded (s : State) (t : VAddr) : (s.jump t).st.yielded = s.st.yielded := rfl
@[simp] theorem jump_st_slotWoke (s : State) (t : VAddr) : (s.jump t).st.slotWoke = s.st.slotWoke := rfl
@[simp] theorem jump_st_frame (s : State) (t : VAddr) : (s.jump t).st.frame = s.st.frame := rfl
@[simp] theorem jump_st_qerr (s : State) (t : VAddr) : (s.jump t).st.qerr = s.st.qerr := rfl
@[simp] theorem jump_st_dogRan (s : State) (t : VAddr) : (s.jump t).st.dogRan = 0 := rfl
@[simp] theorem jump_st_dogFrom (s : State) (t : VAddr) : (s.jump t).st.dogFrom = s.cycle := rfl
@[simp] theorem jump_st_bad (s : State) (t : VAddr) : (s.jump t).st.bad = s.st.bad := rfl
@[simp] theorem jump_st_remote (s : State) (t : VAddr) : (s.jump t).st.remote = s.st.remote := rfl

/-! ## modCsr -/

@[simp] theorem modCsr_cur (s : State) (f : Csrs → Csrs) : (s.modCsr f).cur = s.cur := rfl
@[simp] theorem modCsr_others (s : State) (f : Csrs → Csrs) : (s.modCsr f).others = s.others := rfl
@[simp] theorem modCsr_cores (s : State) (f : Csrs → Csrs) : (s.modCsr f).cores = s.cores := rfl
@[simp] theorem modCsr_mem (s : State) (f : Csrs → Csrs) : (s.modCsr f).mem = s.mem := rfl
@[simp] theorem modCsr_poison (s : State) (f : Csrs → Csrs) : (s.modCsr f).poison = s.poison := rfl
@[simp] theorem modCsr_watches (s : State) (f : Csrs → Csrs) : (s.modCsr f).watches = s.watches := rfl
@[simp] theorem modCsr_cycle (s : State) (f : Csrs → Csrs) : (s.modCsr f).cycle = s.cycle := rfl
@[simp] theorem modCsr_lp (s : State) (f : Csrs → Csrs) : (s.modCsr f).lp = s.lp := rfl
@[simp] theorem modCsr_ev (s : State) (f : Csrs → Csrs) : (s.modCsr f).ev = s.ev := rfl
@[simp] theorem modCsr_lines (s : State) (f : Csrs → Csrs) : (s.modCsr f).lines = s.lines := rfl
@[simp] theorem modCsr_pages (s : State) (f : Csrs → Csrs) : (s.modCsr f).pages = s.pages := rfl
@[simp] theorem modCsr_regions (s : State) (f : Csrs → Csrs) : (s.modCsr f).regions = s.regions := rfl
@[simp] theorem modCsr_links (s : State) (f : Csrs → Csrs) : (s.modCsr f).links = s.links := rfl
@[simp] theorem modCsr_press (s : State) (f : Csrs → Csrs) : (s.modCsr f).press = s.press := rfl
@[simp] theorem modCsr_daleel (s : State) (f : Csrs → Csrs) : (s.modCsr f).daleel = s.daleel := rfl
@[simp] theorem modCsr_waitRel (s : State) (f : Csrs → Csrs) : (s.modCsr f).waitRel = s.waitRel := rfl
@[simp] theorem modCsr_waitSvc (s : State) (f : Csrs → Csrs) : (s.modCsr f).waitSvc = s.waitSvc := rfl
@[simp] theorem modCsr_parkedAt (s : State) (f : Csrs → Csrs) : (s.modCsr f).parkedAt = s.parkedAt := rfl
@[simp] theorem modCsr_broken (s : State) (f : Csrs → Csrs) : (s.modCsr f).broken = s.broken := rfl
@[simp] theorem modCsr_vineDue (s : State) (f : Csrs → Csrs) : (s.modCsr f).vineDue = s.vineDue := rfl
@[simp] theorem modCsr_cows (s : State) (f : Csrs → Csrs) : (s.modCsr f).cows = s.cows := rfl
@[simp] theorem modCsr_pinned (s : State) (f : Csrs → Csrs) : (s.modCsr f).pinned = s.pinned := rfl
@[simp] theorem modCsr_pinsDue (s : State) (f : Csrs → Csrs) : (s.modCsr f).pinsDue = s.pinsDue := rfl
@[simp] theorem modCsr_lag (s : State) (f : Csrs → Csrs) : (s.modCsr f).lag = s.lag := rfl
@[simp] theorem modCsr_agenda (s : State) (f : Csrs → Csrs) : (s.modCsr f).agenda = s.agenda := rfl
@[simp] theorem modCsr_freeCount (s : State) (f : Csrs → Csrs) : (s.modCsr f).freeCount = s.freeCount := rfl
@[simp] theorem modCsr_st_resident (s : State) (f : Csrs → Csrs) : (s.modCsr f).st.resident = s.st.resident := rfl
@[simp] theorem modCsr_st_ctx (s : State) (f : Csrs → Csrs) : (s.modCsr f).st.ctx = s.st.ctx := rfl
@[simp] theorem modCsr_st_pc (s : State) (f : Csrs → Csrs) : (s.modCsr f).st.pc = s.st.pc := rfl
@[simp] theorem modCsr_st_priv (s : State) (f : Csrs → Csrs) : (s.modCsr f).st.priv = s.st.priv := rfl
@[simp] theorem modCsr_st_x (s : State) (f : Csrs → Csrs) : (s.modCsr f).st.x = s.st.x := rfl
@[simp] theorem modCsr_st_v (s : State) (f : Csrs → Csrs) : (s.modCsr f).st.v = s.st.v := rfl
@[simp] theorem modCsr_st_m (s : State) (f : Csrs → Csrs) : (s.modCsr f).st.m = s.st.m := rfl
@[simp] theorem modCsr_st_csr (s : State) (f : Csrs → Csrs) : (s.modCsr f).st.csr = f s.st.csr := rfl
@[simp] theorem modCsr_st_trap (s : State) (f : Csrs → Csrs) : (s.modCsr f).st.trap = s.st.trap := rfl
@[simp] theorem modCsr_st_streams (s : State) (f : Csrs → Csrs) : (s.modCsr f).st.streams = s.st.streams := rfl
@[simp] theorem modCsr_st_viq (s : State) (f : Csrs → Csrs) : (s.modCsr f).st.viq = s.st.viq := rfl
@[simp] theorem modCsr_st_hold (s : State) (f : Csrs → Csrs) : (s.modCsr f).st.hold = s.st.hold := rfl
@[simp] theorem modCsr_st_holdAt (s : State) (f : Csrs → Csrs) : (s.modCsr f).st.holdAt = s.st.holdAt := rfl
@[simp] theorem modCsr_st_accum (s : State) (f : Csrs → Csrs) : (s.modCsr f).st.accum = s.st.accum := rfl
@[simp] theorem modCsr_st_item (s : State) (f : Csrs → Csrs) : (s.modCsr f).st.item = s.st.item := rfl
@[simp] theorem modCsr_st_park (s : State) (f : Csrs → Csrs) : (s.modCsr f).st.park = s.st.park := rfl
@[simp] theorem modCsr_st_wait (s : State) (f : Csrs → Csrs) : (s.modCsr f).st.wait = s.st.wait := rfl
@[simp] theorem modCsr_st_await (s : State) (f : Csrs → Csrs) : (s.modCsr f).st.await = s.st.await := rfl
@[simp] theorem modCsr_st_signals (s : State) (f : Csrs → Csrs) : (s.modCsr f).st.signals = s.st.signals := rfl
@[simp] theorem modCsr_st_copyErr (s : State) (f : Csrs → Csrs) : (s.modCsr f).st.copyErr = s.st.copyErr := rfl
@[simp] theorem modCsr_st_deficit (s : State) (f : Csrs → Csrs) : (s.modCsr f).st.deficit = s.st.deficit := rfl
@[simp] theorem modCsr_st_passed (s : State) (f : Csrs → Csrs) : (s.modCsr f).st.passed = s.st.passed := rfl
@[simp] theorem modCsr_st_yielded (s : State) (f : Csrs → Csrs) : (s.modCsr f).st.yielded = s.st.yielded := rfl
@[simp] theorem modCsr_st_slotWoke (s : State) (f : Csrs → Csrs) : (s.modCsr f).st.slotWoke = s.st.slotWoke := rfl
@[simp] theorem modCsr_st_frame (s : State) (f : Csrs → Csrs) : (s.modCsr f).st.frame = s.st.frame := rfl
@[simp] theorem modCsr_st_qerr (s : State) (f : Csrs → Csrs) : (s.modCsr f).st.qerr = s.st.qerr := rfl
@[simp] theorem modCsr_st_dogRan (s : State) (f : Csrs → Csrs) : (s.modCsr f).st.dogRan = s.st.dogRan := rfl
@[simp] theorem modCsr_st_dogFrom (s : State) (f : Csrs → Csrs) : (s.modCsr f).st.dogFrom = s.st.dogFrom := rfl
@[simp] theorem modCsr_st_bad (s : State) (f : Csrs → Csrs) : (s.modCsr f).st.bad = s.st.bad := rfl
@[simp] theorem modCsr_st_remote (s : State) (f : Csrs → Csrs) : (s.modCsr f).st.remote = s.st.remote := rfl

/-! ## setReg -/

@[simp] theorem setReg_cur (s : State) (r : VReg) (w : VectorReg) : (setReg s r w).cur = s.cur := rfl
@[simp] theorem setReg_others (s : State) (r : VReg) (w : VectorReg) : (setReg s r w).others = s.others := rfl
@[simp] theorem setReg_cores (s : State) (r : VReg) (w : VectorReg) : (setReg s r w).cores = s.cores := rfl
@[simp] theorem setReg_mem (s : State) (r : VReg) (w : VectorReg) : (setReg s r w).mem = s.mem := rfl
@[simp] theorem setReg_poison (s : State) (r : VReg) (w : VectorReg) : (setReg s r w).poison = s.poison := rfl
@[simp] theorem setReg_watches (s : State) (r : VReg) (w : VectorReg) : (setReg s r w).watches = s.watches := rfl
@[simp] theorem setReg_cycle (s : State) (r : VReg) (w : VectorReg) : (setReg s r w).cycle = s.cycle := rfl
@[simp] theorem setReg_lp (s : State) (r : VReg) (w : VectorReg) : (setReg s r w).lp = s.lp := rfl
@[simp] theorem setReg_ev (s : State) (r : VReg) (w : VectorReg) : (setReg s r w).ev = s.ev := rfl
@[simp] theorem setReg_lines (s : State) (r : VReg) (w : VectorReg) : (setReg s r w).lines = s.lines := rfl
@[simp] theorem setReg_pages (s : State) (r : VReg) (w : VectorReg) : (setReg s r w).pages = s.pages := rfl
@[simp] theorem setReg_regions (s : State) (r : VReg) (w : VectorReg) : (setReg s r w).regions = s.regions := rfl
@[simp] theorem setReg_links (s : State) (r : VReg) (w : VectorReg) : (setReg s r w).links = s.links := rfl
@[simp] theorem setReg_press (s : State) (r : VReg) (w : VectorReg) : (setReg s r w).press = s.press := rfl
@[simp] theorem setReg_daleel (s : State) (r : VReg) (w : VectorReg) : (setReg s r w).daleel = s.daleel := rfl
@[simp] theorem setReg_waitRel (s : State) (r : VReg) (w : VectorReg) : (setReg s r w).waitRel = s.waitRel := rfl
@[simp] theorem setReg_waitSvc (s : State) (r : VReg) (w : VectorReg) : (setReg s r w).waitSvc = s.waitSvc := rfl
@[simp] theorem setReg_parkedAt (s : State) (r : VReg) (w : VectorReg) : (setReg s r w).parkedAt = s.parkedAt := rfl
@[simp] theorem setReg_broken (s : State) (r : VReg) (w : VectorReg) : (setReg s r w).broken = s.broken := rfl
@[simp] theorem setReg_vineDue (s : State) (r : VReg) (w : VectorReg) : (setReg s r w).vineDue = s.vineDue := rfl
@[simp] theorem setReg_cows (s : State) (r : VReg) (w : VectorReg) : (setReg s r w).cows = s.cows := rfl
@[simp] theorem setReg_pinned (s : State) (r : VReg) (w : VectorReg) : (setReg s r w).pinned = s.pinned := rfl
@[simp] theorem setReg_pinsDue (s : State) (r : VReg) (w : VectorReg) : (setReg s r w).pinsDue = s.pinsDue := rfl
@[simp] theorem setReg_lag (s : State) (r : VReg) (w : VectorReg) : (setReg s r w).lag = s.lag := rfl
@[simp] theorem setReg_agenda (s : State) (r : VReg) (w : VectorReg) : (setReg s r w).agenda = s.agenda := rfl
@[simp] theorem setReg_freeCount (s : State) (r : VReg) (w : VectorReg) : (setReg s r w).freeCount = s.freeCount := rfl
@[simp] theorem setReg_st_resident (s : State) (r : VReg) (w : VectorReg) : (setReg s r w).st.resident = s.st.resident := rfl
@[simp] theorem setReg_st_ctx (s : State) (r : VReg) (w : VectorReg) : (setReg s r w).st.ctx = s.st.ctx := rfl
@[simp] theorem setReg_st_pc (s : State) (r : VReg) (w : VectorReg) : (setReg s r w).st.pc = s.st.pc := rfl
@[simp] theorem setReg_st_priv (s : State) (r : VReg) (w : VectorReg) : (setReg s r w).st.priv = s.st.priv := rfl
@[simp] theorem setReg_st_x (s : State) (r : VReg) (w : VectorReg) : (setReg s r w).st.x = s.st.x := rfl
@[simp] theorem setReg_st_v (s : State) (r : VReg) (w : VectorReg) : (setReg s r w).st.v = s.st.v.set r.val w := rfl
@[simp] theorem setReg_st_m (s : State) (r : VReg) (w : VectorReg) : (setReg s r w).st.m = s.st.m := rfl
@[simp] theorem setReg_st_csr (s : State) (r : VReg) (w : VectorReg) : (setReg s r w).st.csr = s.st.csr := rfl
@[simp] theorem setReg_st_trap (s : State) (r : VReg) (w : VectorReg) : (setReg s r w).st.trap = s.st.trap := rfl
@[simp] theorem setReg_st_streams (s : State) (r : VReg) (w : VectorReg) : (setReg s r w).st.streams = s.st.streams := rfl
@[simp] theorem setReg_st_viq (s : State) (r : VReg) (w : VectorReg) : (setReg s r w).st.viq = s.st.viq := rfl
@[simp] theorem setReg_st_hold (s : State) (r : VReg) (w : VectorReg) : (setReg s r w).st.hold = s.st.hold := rfl
@[simp] theorem setReg_st_holdAt (s : State) (r : VReg) (w : VectorReg) : (setReg s r w).st.holdAt = s.st.holdAt := rfl
@[simp] theorem setReg_st_accum (s : State) (r : VReg) (w : VectorReg) : (setReg s r w).st.accum = s.st.accum := rfl
@[simp] theorem setReg_st_item (s : State) (r : VReg) (w : VectorReg) : (setReg s r w).st.item = s.st.item := rfl
@[simp] theorem setReg_st_park (s : State) (r : VReg) (w : VectorReg) : (setReg s r w).st.park = s.st.park := rfl
@[simp] theorem setReg_st_wait (s : State) (r : VReg) (w : VectorReg) : (setReg s r w).st.wait = s.st.wait := rfl
@[simp] theorem setReg_st_await (s : State) (r : VReg) (w : VectorReg) : (setReg s r w).st.await = s.st.await := rfl
@[simp] theorem setReg_st_signals (s : State) (r : VReg) (w : VectorReg) : (setReg s r w).st.signals = s.st.signals := rfl
@[simp] theorem setReg_st_copyErr (s : State) (r : VReg) (w : VectorReg) : (setReg s r w).st.copyErr = s.st.copyErr := rfl
@[simp] theorem setReg_st_deficit (s : State) (r : VReg) (w : VectorReg) : (setReg s r w).st.deficit = s.st.deficit := rfl
@[simp] theorem setReg_st_passed (s : State) (r : VReg) (w : VectorReg) : (setReg s r w).st.passed = s.st.passed := rfl
@[simp] theorem setReg_st_yielded (s : State) (r : VReg) (w : VectorReg) : (setReg s r w).st.yielded = s.st.yielded := rfl
@[simp] theorem setReg_st_slotWoke (s : State) (r : VReg) (w : VectorReg) : (setReg s r w).st.slotWoke = s.st.slotWoke := rfl
@[simp] theorem setReg_st_frame (s : State) (r : VReg) (w : VectorReg) : (setReg s r w).st.frame = s.st.frame := rfl
@[simp] theorem setReg_st_qerr (s : State) (r : VReg) (w : VectorReg) : (setReg s r w).st.qerr = s.st.qerr := rfl
@[simp] theorem setReg_st_dogRan (s : State) (r : VReg) (w : VectorReg) : (setReg s r w).st.dogRan = s.st.dogRan := rfl
@[simp] theorem setReg_st_dogFrom (s : State) (r : VReg) (w : VectorReg) : (setReg s r w).st.dogFrom = s.st.dogFrom := rfl
@[simp] theorem setReg_st_bad (s : State) (r : VReg) (w : VectorReg) : (setReg s r w).st.bad = s.st.bad := rfl
@[simp] theorem setReg_st_remote (s : State) (r : VReg) (w : VectorReg) : (setReg s r w).st.remote = s.st.remote := rfl

/-! ## setMask -/

@[simp] theorem setMask_cur (s : State) (q : MReg) (w : Mask) : (setMask s q w).cur = s.cur := rfl
@[simp] theorem setMask_others (s : State) (q : MReg) (w : Mask) : (setMask s q w).others = s.others := rfl
@[simp] theorem setMask_cores (s : State) (q : MReg) (w : Mask) : (setMask s q w).cores = s.cores := rfl
@[simp] theorem setMask_mem (s : State) (q : MReg) (w : Mask) : (setMask s q w).mem = s.mem := rfl
@[simp] theorem setMask_poison (s : State) (q : MReg) (w : Mask) : (setMask s q w).poison = s.poison := rfl
@[simp] theorem setMask_watches (s : State) (q : MReg) (w : Mask) : (setMask s q w).watches = s.watches := rfl
@[simp] theorem setMask_cycle (s : State) (q : MReg) (w : Mask) : (setMask s q w).cycle = s.cycle := rfl
@[simp] theorem setMask_lp (s : State) (q : MReg) (w : Mask) : (setMask s q w).lp = s.lp := rfl
@[simp] theorem setMask_ev (s : State) (q : MReg) (w : Mask) : (setMask s q w).ev = s.ev := rfl
@[simp] theorem setMask_lines (s : State) (q : MReg) (w : Mask) : (setMask s q w).lines = s.lines := rfl
@[simp] theorem setMask_pages (s : State) (q : MReg) (w : Mask) : (setMask s q w).pages = s.pages := rfl
@[simp] theorem setMask_regions (s : State) (q : MReg) (w : Mask) : (setMask s q w).regions = s.regions := rfl
@[simp] theorem setMask_links (s : State) (q : MReg) (w : Mask) : (setMask s q w).links = s.links := rfl
@[simp] theorem setMask_press (s : State) (q : MReg) (w : Mask) : (setMask s q w).press = s.press := rfl
@[simp] theorem setMask_daleel (s : State) (q : MReg) (w : Mask) : (setMask s q w).daleel = s.daleel := rfl
@[simp] theorem setMask_waitRel (s : State) (q : MReg) (w : Mask) : (setMask s q w).waitRel = s.waitRel := rfl
@[simp] theorem setMask_waitSvc (s : State) (q : MReg) (w : Mask) : (setMask s q w).waitSvc = s.waitSvc := rfl
@[simp] theorem setMask_parkedAt (s : State) (q : MReg) (w : Mask) : (setMask s q w).parkedAt = s.parkedAt := rfl
@[simp] theorem setMask_broken (s : State) (q : MReg) (w : Mask) : (setMask s q w).broken = s.broken := rfl
@[simp] theorem setMask_vineDue (s : State) (q : MReg) (w : Mask) : (setMask s q w).vineDue = s.vineDue := rfl
@[simp] theorem setMask_cows (s : State) (q : MReg) (w : Mask) : (setMask s q w).cows = s.cows := rfl
@[simp] theorem setMask_pinned (s : State) (q : MReg) (w : Mask) : (setMask s q w).pinned = s.pinned := rfl
@[simp] theorem setMask_pinsDue (s : State) (q : MReg) (w : Mask) : (setMask s q w).pinsDue = s.pinsDue := rfl
@[simp] theorem setMask_lag (s : State) (q : MReg) (w : Mask) : (setMask s q w).lag = s.lag := rfl
@[simp] theorem setMask_agenda (s : State) (q : MReg) (w : Mask) : (setMask s q w).agenda = s.agenda := rfl
@[simp] theorem setMask_freeCount (s : State) (q : MReg) (w : Mask) : (setMask s q w).freeCount = s.freeCount := rfl
@[simp] theorem setMask_st_resident (s : State) (q : MReg) (w : Mask) : (setMask s q w).st.resident = s.st.resident := rfl
@[simp] theorem setMask_st_ctx (s : State) (q : MReg) (w : Mask) : (setMask s q w).st.ctx = s.st.ctx := rfl
@[simp] theorem setMask_st_pc (s : State) (q : MReg) (w : Mask) : (setMask s q w).st.pc = s.st.pc := rfl
@[simp] theorem setMask_st_priv (s : State) (q : MReg) (w : Mask) : (setMask s q w).st.priv = s.st.priv := rfl
@[simp] theorem setMask_st_x (s : State) (q : MReg) (w : Mask) : (setMask s q w).st.x = s.st.x := rfl
@[simp] theorem setMask_st_v (s : State) (q : MReg) (w : Mask) : (setMask s q w).st.v = s.st.v := rfl
@[simp] theorem setMask_st_m (s : State) (q : MReg) (w : Mask) : (setMask s q w).st.m = s.st.m.set q.val w := rfl
@[simp] theorem setMask_st_csr (s : State) (q : MReg) (w : Mask) : (setMask s q w).st.csr = s.st.csr := rfl
@[simp] theorem setMask_st_trap (s : State) (q : MReg) (w : Mask) : (setMask s q w).st.trap = s.st.trap := rfl
@[simp] theorem setMask_st_streams (s : State) (q : MReg) (w : Mask) : (setMask s q w).st.streams = s.st.streams := rfl
@[simp] theorem setMask_st_viq (s : State) (q : MReg) (w : Mask) : (setMask s q w).st.viq = s.st.viq := rfl
@[simp] theorem setMask_st_hold (s : State) (q : MReg) (w : Mask) : (setMask s q w).st.hold = s.st.hold := rfl
@[simp] theorem setMask_st_holdAt (s : State) (q : MReg) (w : Mask) : (setMask s q w).st.holdAt = s.st.holdAt := rfl
@[simp] theorem setMask_st_accum (s : State) (q : MReg) (w : Mask) : (setMask s q w).st.accum = s.st.accum := rfl
@[simp] theorem setMask_st_item (s : State) (q : MReg) (w : Mask) : (setMask s q w).st.item = s.st.item := rfl
@[simp] theorem setMask_st_park (s : State) (q : MReg) (w : Mask) : (setMask s q w).st.park = s.st.park := rfl
@[simp] theorem setMask_st_wait (s : State) (q : MReg) (w : Mask) : (setMask s q w).st.wait = s.st.wait := rfl
@[simp] theorem setMask_st_await (s : State) (q : MReg) (w : Mask) : (setMask s q w).st.await = s.st.await := rfl
@[simp] theorem setMask_st_signals (s : State) (q : MReg) (w : Mask) : (setMask s q w).st.signals = s.st.signals := rfl
@[simp] theorem setMask_st_copyErr (s : State) (q : MReg) (w : Mask) : (setMask s q w).st.copyErr = s.st.copyErr := rfl
@[simp] theorem setMask_st_deficit (s : State) (q : MReg) (w : Mask) : (setMask s q w).st.deficit = s.st.deficit := rfl
@[simp] theorem setMask_st_passed (s : State) (q : MReg) (w : Mask) : (setMask s q w).st.passed = s.st.passed := rfl
@[simp] theorem setMask_st_yielded (s : State) (q : MReg) (w : Mask) : (setMask s q w).st.yielded = s.st.yielded := rfl
@[simp] theorem setMask_st_slotWoke (s : State) (q : MReg) (w : Mask) : (setMask s q w).st.slotWoke = s.st.slotWoke := rfl
@[simp] theorem setMask_st_frame (s : State) (q : MReg) (w : Mask) : (setMask s q w).st.frame = s.st.frame := rfl
@[simp] theorem setMask_st_qerr (s : State) (q : MReg) (w : Mask) : (setMask s q w).st.qerr = s.st.qerr := rfl
@[simp] theorem setMask_st_dogRan (s : State) (q : MReg) (w : Mask) : (setMask s q w).st.dogRan = s.st.dogRan := rfl
@[simp] theorem setMask_st_dogFrom (s : State) (q : MReg) (w : Mask) : (setMask s q w).st.dogFrom = s.st.dogFrom := rfl
@[simp] theorem setMask_st_bad (s : State) (q : MReg) (w : Mask) : (setMask s q w).st.bad = s.st.bad := rfl
@[simp] theorem setMask_st_remote (s : State) (q : MReg) (w : Mask) : (setMask s q w).st.remote = s.st.remote := rfl

/-! ## putStream -/

@[simp] theorem putStream_cur (s : State) (n : SReg) (w : StreamReg) : (putStream s n w).cur = s.cur := rfl
@[simp] theorem putStream_others (s : State) (n : SReg) (w : StreamReg) : (putStream s n w).others = s.others := rfl
@[simp] theorem putStream_cores (s : State) (n : SReg) (w : StreamReg) : (putStream s n w).cores = s.cores := rfl
@[simp] theorem putStream_mem (s : State) (n : SReg) (w : StreamReg) : (putStream s n w).mem = s.mem := rfl
@[simp] theorem putStream_poison (s : State) (n : SReg) (w : StreamReg) : (putStream s n w).poison = s.poison := rfl
@[simp] theorem putStream_watches (s : State) (n : SReg) (w : StreamReg) : (putStream s n w).watches = s.watches := rfl
@[simp] theorem putStream_cycle (s : State) (n : SReg) (w : StreamReg) : (putStream s n w).cycle = s.cycle := rfl
@[simp] theorem putStream_lp (s : State) (n : SReg) (w : StreamReg) : (putStream s n w).lp = s.lp := rfl
@[simp] theorem putStream_ev (s : State) (n : SReg) (w : StreamReg) : (putStream s n w).ev = s.ev := rfl
@[simp] theorem putStream_lines (s : State) (n : SReg) (w : StreamReg) : (putStream s n w).lines = s.lines := rfl
@[simp] theorem putStream_pages (s : State) (n : SReg) (w : StreamReg) : (putStream s n w).pages = s.pages := rfl
@[simp] theorem putStream_regions (s : State) (n : SReg) (w : StreamReg) : (putStream s n w).regions = s.regions := rfl
@[simp] theorem putStream_links (s : State) (n : SReg) (w : StreamReg) : (putStream s n w).links = s.links := rfl
@[simp] theorem putStream_press (s : State) (n : SReg) (w : StreamReg) : (putStream s n w).press = s.press := rfl
@[simp] theorem putStream_daleel (s : State) (n : SReg) (w : StreamReg) : (putStream s n w).daleel = s.daleel := rfl
@[simp] theorem putStream_waitRel (s : State) (n : SReg) (w : StreamReg) : (putStream s n w).waitRel = s.waitRel := rfl
@[simp] theorem putStream_waitSvc (s : State) (n : SReg) (w : StreamReg) : (putStream s n w).waitSvc = s.waitSvc := rfl
@[simp] theorem putStream_parkedAt (s : State) (n : SReg) (w : StreamReg) : (putStream s n w).parkedAt = s.parkedAt := rfl
@[simp] theorem putStream_broken (s : State) (n : SReg) (w : StreamReg) : (putStream s n w).broken = s.broken := rfl
@[simp] theorem putStream_vineDue (s : State) (n : SReg) (w : StreamReg) : (putStream s n w).vineDue = s.vineDue := rfl
@[simp] theorem putStream_cows (s : State) (n : SReg) (w : StreamReg) : (putStream s n w).cows = s.cows := rfl
@[simp] theorem putStream_pinned (s : State) (n : SReg) (w : StreamReg) : (putStream s n w).pinned = s.pinned := rfl
@[simp] theorem putStream_pinsDue (s : State) (n : SReg) (w : StreamReg) : (putStream s n w).pinsDue = s.pinsDue := rfl
@[simp] theorem putStream_lag (s : State) (n : SReg) (w : StreamReg) : (putStream s n w).lag = s.lag := rfl
@[simp] theorem putStream_agenda (s : State) (n : SReg) (w : StreamReg) : (putStream s n w).agenda = s.agenda := rfl
@[simp] theorem putStream_freeCount (s : State) (n : SReg) (w : StreamReg) : (putStream s n w).freeCount = s.freeCount := rfl
@[simp] theorem putStream_st_resident (s : State) (n : SReg) (w : StreamReg) : (putStream s n w).st.resident = s.st.resident := rfl
@[simp] theorem putStream_st_ctx (s : State) (n : SReg) (w : StreamReg) : (putStream s n w).st.ctx = s.st.ctx := rfl
@[simp] theorem putStream_st_pc (s : State) (n : SReg) (w : StreamReg) : (putStream s n w).st.pc = s.st.pc := rfl
@[simp] theorem putStream_st_priv (s : State) (n : SReg) (w : StreamReg) : (putStream s n w).st.priv = s.st.priv := rfl
@[simp] theorem putStream_st_x (s : State) (n : SReg) (w : StreamReg) : (putStream s n w).st.x = s.st.x := rfl
@[simp] theorem putStream_st_v (s : State) (n : SReg) (w : StreamReg) : (putStream s n w).st.v = s.st.v := rfl
@[simp] theorem putStream_st_m (s : State) (n : SReg) (w : StreamReg) : (putStream s n w).st.m = s.st.m := rfl
@[simp] theorem putStream_st_csr (s : State) (n : SReg) (w : StreamReg) : (putStream s n w).st.csr = s.st.csr := rfl
@[simp] theorem putStream_st_trap (s : State) (n : SReg) (w : StreamReg) : (putStream s n w).st.trap = s.st.trap := rfl
@[simp] theorem putStream_st_streams (s : State) (n : SReg) (w : StreamReg) : (putStream s n w).st.streams = s.st.streams.set n.val w := rfl
@[simp] theorem putStream_st_viq (s : State) (n : SReg) (w : StreamReg) : (putStream s n w).st.viq = s.st.viq := rfl
@[simp] theorem putStream_st_hold (s : State) (n : SReg) (w : StreamReg) : (putStream s n w).st.hold = s.st.hold := rfl
@[simp] theorem putStream_st_holdAt (s : State) (n : SReg) (w : StreamReg) : (putStream s n w).st.holdAt = s.st.holdAt := rfl
@[simp] theorem putStream_st_accum (s : State) (n : SReg) (w : StreamReg) : (putStream s n w).st.accum = s.st.accum := rfl
@[simp] theorem putStream_st_item (s : State) (n : SReg) (w : StreamReg) : (putStream s n w).st.item = s.st.item := rfl
@[simp] theorem putStream_st_park (s : State) (n : SReg) (w : StreamReg) : (putStream s n w).st.park = s.st.park := rfl
@[simp] theorem putStream_st_wait (s : State) (n : SReg) (w : StreamReg) : (putStream s n w).st.wait = s.st.wait := rfl
@[simp] theorem putStream_st_await (s : State) (n : SReg) (w : StreamReg) : (putStream s n w).st.await = s.st.await := rfl
@[simp] theorem putStream_st_signals (s : State) (n : SReg) (w : StreamReg) : (putStream s n w).st.signals = s.st.signals := rfl
@[simp] theorem putStream_st_copyErr (s : State) (n : SReg) (w : StreamReg) : (putStream s n w).st.copyErr = s.st.copyErr := rfl
@[simp] theorem putStream_st_deficit (s : State) (n : SReg) (w : StreamReg) : (putStream s n w).st.deficit = s.st.deficit := rfl
@[simp] theorem putStream_st_passed (s : State) (n : SReg) (w : StreamReg) : (putStream s n w).st.passed = s.st.passed := rfl
@[simp] theorem putStream_st_yielded (s : State) (n : SReg) (w : StreamReg) : (putStream s n w).st.yielded = s.st.yielded := rfl
@[simp] theorem putStream_st_slotWoke (s : State) (n : SReg) (w : StreamReg) : (putStream s n w).st.slotWoke = s.st.slotWoke := rfl
@[simp] theorem putStream_st_frame (s : State) (n : SReg) (w : StreamReg) : (putStream s n w).st.frame = s.st.frame := rfl
@[simp] theorem putStream_st_qerr (s : State) (n : SReg) (w : StreamReg) : (putStream s n w).st.qerr = s.st.qerr := rfl
@[simp] theorem putStream_st_dogRan (s : State) (n : SReg) (w : StreamReg) : (putStream s n w).st.dogRan = s.st.dogRan := rfl
@[simp] theorem putStream_st_dogFrom (s : State) (n : SReg) (w : StreamReg) : (putStream s n w).st.dogFrom = s.st.dogFrom := rfl
@[simp] theorem putStream_st_bad (s : State) (n : SReg) (w : StreamReg) : (putStream s n w).st.bad = s.st.bad := rfl
@[simp] theorem putStream_st_remote (s : State) (n : SReg) (w : StreamReg) : (putStream s n w).st.remote = s.st.remote := rfl

/-! ## parkOn -/

@[simp] theorem parkOn_cur (s : State) (r : BitVec 4) (k : WaitKey) : (parkOn s r k).cur = s.cur := rfl
@[simp] theorem parkOn_others (s : State) (r : BitVec 4) (k : WaitKey) : (parkOn s r k).others = s.others := rfl
@[simp] theorem parkOn_cores (s : State) (r : BitVec 4) (k : WaitKey) : (parkOn s r k).cores = s.cores := rfl
@[simp] theorem parkOn_mem (s : State) (r : BitVec 4) (k : WaitKey) : (parkOn s r k).mem = s.mem := rfl
@[simp] theorem parkOn_poison (s : State) (r : BitVec 4) (k : WaitKey) : (parkOn s r k).poison = s.poison := rfl
@[simp] theorem parkOn_watches (s : State) (r : BitVec 4) (k : WaitKey) : (parkOn s r k).watches = s.watches := rfl
@[simp] theorem parkOn_cycle (s : State) (r : BitVec 4) (k : WaitKey) : (parkOn s r k).cycle = s.cycle := rfl
@[simp] theorem parkOn_lp (s : State) (r : BitVec 4) (k : WaitKey) : (parkOn s r k).lp = s.lp := rfl
@[simp] theorem parkOn_ev (s : State) (r : BitVec 4) (k : WaitKey) : (parkOn s r k).ev = s.ev := rfl
@[simp] theorem parkOn_lines (s : State) (r : BitVec 4) (k : WaitKey) : (parkOn s r k).lines = s.lines := rfl
@[simp] theorem parkOn_pages (s : State) (r : BitVec 4) (k : WaitKey) : (parkOn s r k).pages = s.pages := rfl
@[simp] theorem parkOn_regions (s : State) (r : BitVec 4) (k : WaitKey) : (parkOn s r k).regions = s.regions := rfl
@[simp] theorem parkOn_links (s : State) (r : BitVec 4) (k : WaitKey) : (parkOn s r k).links = s.links := rfl
@[simp] theorem parkOn_press (s : State) (r : BitVec 4) (k : WaitKey) : (parkOn s r k).press = s.press := rfl
@[simp] theorem parkOn_daleel (s : State) (r : BitVec 4) (k : WaitKey) : (parkOn s r k).daleel = s.daleel := rfl
@[simp] theorem parkOn_waitRel (s : State) (r : BitVec 4) (k : WaitKey) : (parkOn s r k).waitRel = s.waitRel := rfl
@[simp] theorem parkOn_waitSvc (s : State) (r : BitVec 4) (k : WaitKey) : (parkOn s r k).waitSvc = s.waitSvc := rfl
@[simp] theorem parkOn_parkedAt (s : State) (r : BitVec 4) (k : WaitKey) : (parkOn s r k).parkedAt = s.parkedAt := rfl
@[simp] theorem parkOn_broken (s : State) (r : BitVec 4) (k : WaitKey) : (parkOn s r k).broken = s.broken := rfl
@[simp] theorem parkOn_vineDue (s : State) (r : BitVec 4) (k : WaitKey) : (parkOn s r k).vineDue = s.vineDue := rfl
@[simp] theorem parkOn_cows (s : State) (r : BitVec 4) (k : WaitKey) : (parkOn s r k).cows = s.cows := rfl
@[simp] theorem parkOn_pinned (s : State) (r : BitVec 4) (k : WaitKey) : (parkOn s r k).pinned = s.pinned := rfl
@[simp] theorem parkOn_pinsDue (s : State) (r : BitVec 4) (k : WaitKey) : (parkOn s r k).pinsDue = s.pinsDue := rfl
@[simp] theorem parkOn_lag (s : State) (r : BitVec 4) (k : WaitKey) : (parkOn s r k).lag = s.lag := rfl
@[simp] theorem parkOn_agenda (s : State) (r : BitVec 4) (k : WaitKey) : (parkOn s r k).agenda = s.agenda := rfl
@[simp] theorem parkOn_freeCount (s : State) (r : BitVec 4) (k : WaitKey) : (parkOn s r k).freeCount = s.freeCount := rfl
@[simp] theorem parkOn_st_resident (s : State) (r : BitVec 4) (k : WaitKey) : (parkOn s r k).st.resident = s.st.resident := rfl
@[simp] theorem parkOn_st_ctx (s : State) (r : BitVec 4) (k : WaitKey) : (parkOn s r k).st.ctx = s.st.ctx := rfl
@[simp] theorem parkOn_st_pc (s : State) (r : BitVec 4) (k : WaitKey) : (parkOn s r k).st.pc = s.st.pc := rfl
@[simp] theorem parkOn_st_priv (s : State) (r : BitVec 4) (k : WaitKey) : (parkOn s r k).st.priv = s.st.priv := rfl
@[simp] theorem parkOn_st_x (s : State) (r : BitVec 4) (k : WaitKey) : (parkOn s r k).st.x = s.st.x := rfl
@[simp] theorem parkOn_st_v (s : State) (r : BitVec 4) (k : WaitKey) : (parkOn s r k).st.v = s.st.v := rfl
@[simp] theorem parkOn_st_m (s : State) (r : BitVec 4) (k : WaitKey) : (parkOn s r k).st.m = s.st.m := rfl
@[simp] theorem parkOn_st_csr (s : State) (r : BitVec 4) (k : WaitKey) : (parkOn s r k).st.csr = s.st.csr := rfl
@[simp] theorem parkOn_st_trap (s : State) (r : BitVec 4) (k : WaitKey) : (parkOn s r k).st.trap = s.st.trap := rfl
@[simp] theorem parkOn_st_streams (s : State) (r : BitVec 4) (k : WaitKey) : (parkOn s r k).st.streams = s.st.streams := rfl
@[simp] theorem parkOn_st_viq (s : State) (r : BitVec 4) (k : WaitKey) : (parkOn s r k).st.viq = s.st.viq := rfl
@[simp] theorem parkOn_st_hold (s : State) (r : BitVec 4) (k : WaitKey) : (parkOn s r k).st.hold = s.st.hold := rfl
@[simp] theorem parkOn_st_holdAt (s : State) (r : BitVec 4) (k : WaitKey) : (parkOn s r k).st.holdAt = s.st.holdAt := rfl
@[simp] theorem parkOn_st_accum (s : State) (r : BitVec 4) (k : WaitKey) : (parkOn s r k).st.accum = s.st.accum := rfl
@[simp] theorem parkOn_st_item (s : State) (r : BitVec 4) (k : WaitKey) : (parkOn s r k).st.item = s.st.item := rfl
@[simp] theorem parkOn_st_park (s : State) (r : BitVec 4) (k : WaitKey) : (parkOn s r k).st.park = r := rfl
@[simp] theorem parkOn_st_wait (s : State) (r : BitVec 4) (k : WaitKey) : (parkOn s r k).st.wait = k := rfl
@[simp] theorem parkOn_st_await (s : State) (r : BitVec 4) (k : WaitKey) : (parkOn s r k).st.await = s.st.await := rfl
@[simp] theorem parkOn_st_signals (s : State) (r : BitVec 4) (k : WaitKey) : (parkOn s r k).st.signals = s.st.signals := rfl
@[simp] theorem parkOn_st_copyErr (s : State) (r : BitVec 4) (k : WaitKey) : (parkOn s r k).st.copyErr = s.st.copyErr := rfl
@[simp] theorem parkOn_st_deficit (s : State) (r : BitVec 4) (k : WaitKey) : (parkOn s r k).st.deficit = s.st.deficit := rfl
@[simp] theorem parkOn_st_passed (s : State) (r : BitVec 4) (k : WaitKey) : (parkOn s r k).st.passed = s.st.passed := rfl
@[simp] theorem parkOn_st_yielded (s : State) (r : BitVec 4) (k : WaitKey) : (parkOn s r k).st.yielded = s.st.yielded := rfl
@[simp] theorem parkOn_st_slotWoke (s : State) (r : BitVec 4) (k : WaitKey) : (parkOn s r k).st.slotWoke = s.st.slotWoke := rfl
@[simp] theorem parkOn_st_frame (s : State) (r : BitVec 4) (k : WaitKey) : (parkOn s r k).st.frame = s.st.frame := rfl
@[simp] theorem parkOn_st_qerr (s : State) (r : BitVec 4) (k : WaitKey) : (parkOn s r k).st.qerr = s.st.qerr := rfl
@[simp] theorem parkOn_st_dogRan (s : State) (r : BitVec 4) (k : WaitKey) : (parkOn s r k).st.dogRan = s.st.counted s.cycle := rfl
@[simp] theorem parkOn_st_dogFrom (s : State) (r : BitVec 4) (k : WaitKey) : (parkOn s r k).st.dogFrom = s.st.dogFrom := rfl
@[simp] theorem parkOn_st_bad (s : State) (r : BitVec 4) (k : WaitKey) : (parkOn s r k).st.bad = s.st.bad := rfl
@[simp] theorem parkOn_st_remote (s : State) (r : BitVec 4) (k : WaitKey) : (parkOn s r k).st.remote = s.st.remote := rfl

/-! ## clearPoison -/

@[simp] theorem clearPoison_cur (s : State) (a n : Nat) : (clearPoison s a n).cur = s.cur := by unfold clearPoison; split <;> rfl
@[simp] theorem clearPoison_st (s : State) (a n : Nat) : (clearPoison s a n).st = s.st := by unfold clearPoison; split <;> rfl
@[simp] theorem clearPoison_others (s : State) (a n : Nat) : (clearPoison s a n).others = s.others := by unfold clearPoison; split <;> rfl
@[simp] theorem clearPoison_cores (s : State) (a n : Nat) : (clearPoison s a n).cores = s.cores := by unfold clearPoison; split <;> rfl
@[simp] theorem clearPoison_mem (s : State) (a n : Nat) : (clearPoison s a n).mem = s.mem := by unfold clearPoison; split <;> rfl
@[simp] theorem clearPoison_watches (s : State) (a n : Nat) : (clearPoison s a n).watches = s.watches := by unfold clearPoison; split <;> rfl
@[simp] theorem clearPoison_cycle (s : State) (a n : Nat) : (clearPoison s a n).cycle = s.cycle := by unfold clearPoison; split <;> rfl
@[simp] theorem clearPoison_lp (s : State) (a n : Nat) : (clearPoison s a n).lp = s.lp := by unfold clearPoison; split <;> rfl
@[simp] theorem clearPoison_ev (s : State) (a n : Nat) : (clearPoison s a n).ev = s.ev := by unfold clearPoison; split <;> rfl
@[simp] theorem clearPoison_lines (s : State) (a n : Nat) : (clearPoison s a n).lines = s.lines := by unfold clearPoison; split <;> rfl
@[simp] theorem clearPoison_pages (s : State) (a n : Nat) : (clearPoison s a n).pages = s.pages := by unfold clearPoison; split <;> rfl
@[simp] theorem clearPoison_regions (s : State) (a n : Nat) : (clearPoison s a n).regions = s.regions := by unfold clearPoison; split <;> rfl
@[simp] theorem clearPoison_links (s : State) (a n : Nat) : (clearPoison s a n).links = s.links := by unfold clearPoison; split <;> rfl
@[simp] theorem clearPoison_press (s : State) (a n : Nat) : (clearPoison s a n).press = s.press := by unfold clearPoison; split <;> rfl
@[simp] theorem clearPoison_daleel (s : State) (a n : Nat) : (clearPoison s a n).daleel = s.daleel := by unfold clearPoison; split <;> rfl
@[simp] theorem clearPoison_waitRel (s : State) (a n : Nat) : (clearPoison s a n).waitRel = s.waitRel := by unfold clearPoison; split <;> rfl
@[simp] theorem clearPoison_waitSvc (s : State) (a n : Nat) : (clearPoison s a n).waitSvc = s.waitSvc := by unfold clearPoison; split <;> rfl
@[simp] theorem clearPoison_parkedAt (s : State) (a n : Nat) : (clearPoison s a n).parkedAt = s.parkedAt := by unfold clearPoison; split <;> rfl
@[simp] theorem clearPoison_broken (s : State) (a n : Nat) : (clearPoison s a n).broken = s.broken := by unfold clearPoison; split <;> rfl
@[simp] theorem clearPoison_vineDue (s : State) (a n : Nat) : (clearPoison s a n).vineDue = s.vineDue := by unfold clearPoison; split <;> rfl
@[simp] theorem clearPoison_cows (s : State) (a n : Nat) : (clearPoison s a n).cows = s.cows := by unfold clearPoison; split <;> rfl
@[simp] theorem clearPoison_pinned (s : State) (a n : Nat) : (clearPoison s a n).pinned = s.pinned := by unfold clearPoison; split <;> rfl
@[simp] theorem clearPoison_pinsDue (s : State) (a n : Nat) : (clearPoison s a n).pinsDue = s.pinsDue := by unfold clearPoison; split <;> rfl
@[simp] theorem clearPoison_lag (s : State) (a n : Nat) : (clearPoison s a n).lag = s.lag := by unfold clearPoison; split <;> rfl
@[simp] theorem clearPoison_agenda (s : State) (a n : Nat) : (clearPoison s a n).agenda = s.agenda := by unfold clearPoison; split <;> rfl
@[simp] theorem clearPoison_freeCount (s : State) (a n : Nat) : (clearPoison s a n).freeCount = s.freeCount := by unfold clearPoison; split <;> rfl

/-! ## poisonRange -/

@[simp] theorem poisonRange_cur (s : State) (a n : Nat) : (poisonRange s a n).cur = s.cur := rfl
@[simp] theorem poisonRange_st (s : State) (a n : Nat) : (poisonRange s a n).st = s.st := rfl
@[simp] theorem poisonRange_others (s : State) (a n : Nat) : (poisonRange s a n).others = s.others := rfl
@[simp] theorem poisonRange_cores (s : State) (a n : Nat) : (poisonRange s a n).cores = s.cores := rfl
@[simp] theorem poisonRange_mem (s : State) (a n : Nat) : (poisonRange s a n).mem = s.mem := rfl
@[simp] theorem poisonRange_watches (s : State) (a n : Nat) : (poisonRange s a n).watches = s.watches := rfl
@[simp] theorem poisonRange_cycle (s : State) (a n : Nat) : (poisonRange s a n).cycle = s.cycle := rfl
@[simp] theorem poisonRange_lp (s : State) (a n : Nat) : (poisonRange s a n).lp = s.lp := rfl
@[simp] theorem poisonRange_ev (s : State) (a n : Nat) : (poisonRange s a n).ev = s.ev := rfl
@[simp] theorem poisonRange_lines (s : State) (a n : Nat) : (poisonRange s a n).lines = s.lines := rfl
@[simp] theorem poisonRange_pages (s : State) (a n : Nat) : (poisonRange s a n).pages = s.pages := rfl
@[simp] theorem poisonRange_regions (s : State) (a n : Nat) : (poisonRange s a n).regions = s.regions := rfl
@[simp] theorem poisonRange_links (s : State) (a n : Nat) : (poisonRange s a n).links = s.links := rfl
@[simp] theorem poisonRange_press (s : State) (a n : Nat) : (poisonRange s a n).press = s.press := rfl
@[simp] theorem poisonRange_daleel (s : State) (a n : Nat) : (poisonRange s a n).daleel = s.daleel := rfl
@[simp] theorem poisonRange_waitRel (s : State) (a n : Nat) : (poisonRange s a n).waitRel = s.waitRel := rfl
@[simp] theorem poisonRange_waitSvc (s : State) (a n : Nat) : (poisonRange s a n).waitSvc = s.waitSvc := rfl
@[simp] theorem poisonRange_parkedAt (s : State) (a n : Nat) : (poisonRange s a n).parkedAt = s.parkedAt := rfl
@[simp] theorem poisonRange_broken (s : State) (a n : Nat) : (poisonRange s a n).broken = s.broken := rfl
@[simp] theorem poisonRange_vineDue (s : State) (a n : Nat) : (poisonRange s a n).vineDue = s.vineDue := rfl
@[simp] theorem poisonRange_cows (s : State) (a n : Nat) : (poisonRange s a n).cows = s.cows := rfl
@[simp] theorem poisonRange_pinned (s : State) (a n : Nat) : (poisonRange s a n).pinned = s.pinned := rfl
@[simp] theorem poisonRange_pinsDue (s : State) (a n : Nat) : (poisonRange s a n).pinsDue = s.pinsDue := rfl
@[simp] theorem poisonRange_lag (s : State) (a n : Nat) : (poisonRange s a n).lag = s.lag := rfl
@[simp] theorem poisonRange_agenda (s : State) (a n : Nat) : (poisonRange s a n).agenda = s.agenda := rfl
@[simp] theorem poisonRange_freeCount (s : State) (a n : Nat) : (poisonRange s a n).freeCount = s.freeCount := rfl

/-! ## setCore -/

@[simp] theorem setCore_cur (s : State) (c : Nat) (k : Core) : (setCore s c k).cur = s.cur := rfl
@[simp] theorem setCore_st (s : State) (c : Nat) (k : Core) : (setCore s c k).st = s.st := rfl
@[simp] theorem setCore_others (s : State) (c : Nat) (k : Core) : (setCore s c k).others = s.others := rfl
@[simp] theorem setCore_mem (s : State) (c : Nat) (k : Core) : (setCore s c k).mem = s.mem := rfl
@[simp] theorem setCore_poison (s : State) (c : Nat) (k : Core) : (setCore s c k).poison = s.poison := rfl
@[simp] theorem setCore_watches (s : State) (c : Nat) (k : Core) : (setCore s c k).watches = s.watches := rfl
@[simp] theorem setCore_cycle (s : State) (c : Nat) (k : Core) : (setCore s c k).cycle = s.cycle := rfl
@[simp] theorem setCore_lp (s : State) (c : Nat) (k : Core) : (setCore s c k).lp = s.lp := rfl
@[simp] theorem setCore_ev (s : State) (c : Nat) (k : Core) : (setCore s c k).ev = s.ev := rfl
@[simp] theorem setCore_lines (s : State) (c : Nat) (k : Core) : (setCore s c k).lines = s.lines := rfl
@[simp] theorem setCore_pages (s : State) (c : Nat) (k : Core) : (setCore s c k).pages = s.pages := rfl
@[simp] theorem setCore_regions (s : State) (c : Nat) (k : Core) : (setCore s c k).regions = s.regions := rfl
@[simp] theorem setCore_links (s : State) (c : Nat) (k : Core) : (setCore s c k).links = s.links := rfl
@[simp] theorem setCore_press (s : State) (c : Nat) (k : Core) : (setCore s c k).press = s.press := rfl
@[simp] theorem setCore_daleel (s : State) (c : Nat) (k : Core) : (setCore s c k).daleel = s.daleel := rfl
@[simp] theorem setCore_waitRel (s : State) (c : Nat) (k : Core) : (setCore s c k).waitRel = s.waitRel := rfl
@[simp] theorem setCore_waitSvc (s : State) (c : Nat) (k : Core) : (setCore s c k).waitSvc = s.waitSvc := rfl
@[simp] theorem setCore_parkedAt (s : State) (c : Nat) (k : Core) : (setCore s c k).parkedAt = s.parkedAt := rfl
@[simp] theorem setCore_broken (s : State) (c : Nat) (k : Core) : (setCore s c k).broken = s.broken := rfl
@[simp] theorem setCore_vineDue (s : State) (c : Nat) (k : Core) : (setCore s c k).vineDue = s.vineDue := rfl
@[simp] theorem setCore_cows (s : State) (c : Nat) (k : Core) : (setCore s c k).cows = s.cows := rfl
@[simp] theorem setCore_pinned (s : State) (c : Nat) (k : Core) : (setCore s c k).pinned = s.pinned := rfl
@[simp] theorem setCore_pinsDue (s : State) (c : Nat) (k : Core) : (setCore s c k).pinsDue = s.pinsDue := rfl
@[simp] theorem setCore_lag (s : State) (c : Nat) (k : Core) : (setCore s c k).lag = s.lag := rfl
@[simp] theorem setCore_agenda (s : State) (c : Nat) (k : Core) : (setCore s c k).agenda = s.agenda := rfl
@[simp] theorem setCore_freeCount (s : State) (c : Nat) (k : Core) : (setCore s c k).freeCount = s.freeCount := rfl

/-! ## writeX -/

@[simp] theorem writeX_cur (s : State) (r : XReg) (v : Word) : (s.writeX r v).cur = s.cur := by unfold State.writeX; split <;> rfl
@[simp] theorem writeX_others (s : State) (r : XReg) (v : Word) : (s.writeX r v).others = s.others := by unfold State.writeX; split <;> rfl
@[simp] theorem writeX_cores (s : State) (r : XReg) (v : Word) : (s.writeX r v).cores = s.cores := by unfold State.writeX; split <;> rfl
@[simp] theorem writeX_mem (s : State) (r : XReg) (v : Word) : (s.writeX r v).mem = s.mem := by unfold State.writeX; split <;> rfl
@[simp] theorem writeX_poison (s : State) (r : XReg) (v : Word) : (s.writeX r v).poison = s.poison := by unfold State.writeX; split <;> rfl
@[simp] theorem writeX_watches (s : State) (r : XReg) (v : Word) : (s.writeX r v).watches = s.watches := by unfold State.writeX; split <;> rfl
@[simp] theorem writeX_cycle (s : State) (r : XReg) (v : Word) : (s.writeX r v).cycle = s.cycle := by unfold State.writeX; split <;> rfl
@[simp] theorem writeX_lp (s : State) (r : XReg) (v : Word) : (s.writeX r v).lp = s.lp := by unfold State.writeX; split <;> rfl
@[simp] theorem writeX_ev (s : State) (r : XReg) (v : Word) : (s.writeX r v).ev = s.ev := by unfold State.writeX; split <;> rfl
@[simp] theorem writeX_lines (s : State) (r : XReg) (v : Word) : (s.writeX r v).lines = s.lines := by unfold State.writeX; split <;> rfl
@[simp] theorem writeX_pages (s : State) (r : XReg) (v : Word) : (s.writeX r v).pages = s.pages := by unfold State.writeX; split <;> rfl
@[simp] theorem writeX_regions (s : State) (r : XReg) (v : Word) : (s.writeX r v).regions = s.regions := by unfold State.writeX; split <;> rfl
@[simp] theorem writeX_links (s : State) (r : XReg) (v : Word) : (s.writeX r v).links = s.links := by unfold State.writeX; split <;> rfl
@[simp] theorem writeX_press (s : State) (r : XReg) (v : Word) : (s.writeX r v).press = s.press := by unfold State.writeX; split <;> rfl
@[simp] theorem writeX_daleel (s : State) (r : XReg) (v : Word) : (s.writeX r v).daleel = s.daleel := by unfold State.writeX; split <;> rfl
@[simp] theorem writeX_waitRel (s : State) (r : XReg) (v : Word) : (s.writeX r v).waitRel = s.waitRel := by unfold State.writeX; split <;> rfl
@[simp] theorem writeX_waitSvc (s : State) (r : XReg) (v : Word) : (s.writeX r v).waitSvc = s.waitSvc := by unfold State.writeX; split <;> rfl
@[simp] theorem writeX_parkedAt (s : State) (r : XReg) (v : Word) : (s.writeX r v).parkedAt = s.parkedAt := by unfold State.writeX; split <;> rfl
@[simp] theorem writeX_broken (s : State) (r : XReg) (v : Word) : (s.writeX r v).broken = s.broken := by unfold State.writeX; split <;> rfl
@[simp] theorem writeX_vineDue (s : State) (r : XReg) (v : Word) : (s.writeX r v).vineDue = s.vineDue := by unfold State.writeX; split <;> rfl
@[simp] theorem writeX_cows (s : State) (r : XReg) (v : Word) : (s.writeX r v).cows = s.cows := by unfold State.writeX; split <;> rfl
@[simp] theorem writeX_pinned (s : State) (r : XReg) (v : Word) : (s.writeX r v).pinned = s.pinned := by unfold State.writeX; split <;> rfl
@[simp] theorem writeX_pinsDue (s : State) (r : XReg) (v : Word) : (s.writeX r v).pinsDue = s.pinsDue := by unfold State.writeX; split <;> rfl
@[simp] theorem writeX_lag (s : State) (r : XReg) (v : Word) : (s.writeX r v).lag = s.lag := by unfold State.writeX; split <;> rfl
@[simp] theorem writeX_agenda (s : State) (r : XReg) (v : Word) : (s.writeX r v).agenda = s.agenda := by unfold State.writeX; split <;> rfl
@[simp] theorem writeX_freeCount (s : State) (r : XReg) (v : Word) : (s.writeX r v).freeCount = s.freeCount := by unfold State.writeX; split <;> rfl
@[simp] theorem writeX_st_resident (s : State) (r : XReg) (v : Word) : (s.writeX r v).st.resident = s.st.resident := by unfold State.writeX; split <;> rfl
@[simp] theorem writeX_st_ctx (s : State) (r : XReg) (v : Word) : (s.writeX r v).st.ctx = s.st.ctx := by unfold State.writeX; split <;> rfl
@[simp] theorem writeX_st_pc (s : State) (r : XReg) (v : Word) : (s.writeX r v).st.pc = s.st.pc := by unfold State.writeX; split <;> rfl
@[simp] theorem writeX_st_priv (s : State) (r : XReg) (v : Word) : (s.writeX r v).st.priv = s.st.priv := by unfold State.writeX; split <;> rfl
@[simp] theorem writeX_st_v (s : State) (r : XReg) (v : Word) : (s.writeX r v).st.v = s.st.v := by unfold State.writeX; split <;> rfl
@[simp] theorem writeX_st_m (s : State) (r : XReg) (v : Word) : (s.writeX r v).st.m = s.st.m := by unfold State.writeX; split <;> rfl
@[simp] theorem writeX_st_csr (s : State) (r : XReg) (v : Word) : (s.writeX r v).st.csr = s.st.csr := by unfold State.writeX; split <;> rfl
@[simp] theorem writeX_st_trap (s : State) (r : XReg) (v : Word) : (s.writeX r v).st.trap = s.st.trap := by unfold State.writeX; split <;> rfl
@[simp] theorem writeX_st_streams (s : State) (r : XReg) (v : Word) : (s.writeX r v).st.streams = s.st.streams := by unfold State.writeX; split <;> rfl
@[simp] theorem writeX_st_viq (s : State) (r : XReg) (v : Word) : (s.writeX r v).st.viq = s.st.viq := by unfold State.writeX; split <;> rfl
@[simp] theorem writeX_st_hold (s : State) (r : XReg) (v : Word) : (s.writeX r v).st.hold = s.st.hold := by unfold State.writeX; split <;> rfl
@[simp] theorem writeX_st_holdAt (s : State) (r : XReg) (v : Word) : (s.writeX r v).st.holdAt = s.st.holdAt := by unfold State.writeX; split <;> rfl
@[simp] theorem writeX_st_accum (s : State) (r : XReg) (v : Word) : (s.writeX r v).st.accum = s.st.accum := by unfold State.writeX; split <;> rfl
@[simp] theorem writeX_st_item (s : State) (r : XReg) (v : Word) : (s.writeX r v).st.item = s.st.item := by unfold State.writeX; split <;> rfl
@[simp] theorem writeX_st_park (s : State) (r : XReg) (v : Word) : (s.writeX r v).st.park = s.st.park := by unfold State.writeX; split <;> rfl
@[simp] theorem writeX_st_wait (s : State) (r : XReg) (v : Word) : (s.writeX r v).st.wait = s.st.wait := by unfold State.writeX; split <;> rfl
@[simp] theorem writeX_st_await (s : State) (r : XReg) (v : Word) : (s.writeX r v).st.await = s.st.await := by unfold State.writeX; split <;> rfl
@[simp] theorem writeX_st_signals (s : State) (r : XReg) (v : Word) : (s.writeX r v).st.signals = s.st.signals := by unfold State.writeX; split <;> rfl
@[simp] theorem writeX_st_copyErr (s : State) (r : XReg) (v : Word) : (s.writeX r v).st.copyErr = s.st.copyErr := by unfold State.writeX; split <;> rfl
@[simp] theorem writeX_st_deficit (s : State) (r : XReg) (v : Word) : (s.writeX r v).st.deficit = s.st.deficit := by unfold State.writeX; split <;> rfl
@[simp] theorem writeX_st_passed (s : State) (r : XReg) (v : Word) : (s.writeX r v).st.passed = s.st.passed := by unfold State.writeX; split <;> rfl
@[simp] theorem writeX_st_yielded (s : State) (r : XReg) (v : Word) : (s.writeX r v).st.yielded = s.st.yielded := by unfold State.writeX; split <;> rfl
@[simp] theorem writeX_st_slotWoke (s : State) (r : XReg) (v : Word) : (s.writeX r v).st.slotWoke = s.st.slotWoke := by unfold State.writeX; split <;> rfl
@[simp] theorem writeX_st_frame (s : State) (r : XReg) (v : Word) : (s.writeX r v).st.frame = s.st.frame := by unfold State.writeX; split <;> rfl
@[simp] theorem writeX_st_qerr (s : State) (r : XReg) (v : Word) : (s.writeX r v).st.qerr = s.st.qerr := by unfold State.writeX; split <;> rfl
@[simp] theorem writeX_st_dogRan (s : State) (r : XReg) (v : Word) : (s.writeX r v).st.dogRan = s.st.dogRan := by unfold State.writeX; split <;> rfl
@[simp] theorem writeX_st_dogFrom (s : State) (r : XReg) (v : Word) : (s.writeX r v).st.dogFrom = s.st.dogFrom := by unfold State.writeX; split <;> rfl
@[simp] theorem writeX_st_remote (s : State) (r : XReg) (v : Word) : (s.writeX r v).st.remote = s.st.remote := by unfold State.writeX; split <;> rfl

/-- A register reads what was last written to it, and x0 reads 0 (R51, R264). -/
theorem readX_writeX (s : State) (r q : XReg) (v : Word) :
    (s.writeX r v).readX q = if q = 0 then 0 else if q = r then v else s.readX q := by
  unfold State.readX State.writeX
  by_cases hq : q = 0
  · simp [hq]
  · by_cases hr : r = 0
    · subst hr; simp [hq]
    · by_cases h : q = r
      · subst h; simp [hq]
      · have : r.val ≠ q.val := fun e => h (Fin.ext e.symm)
        simp [hq, hr, h, this]

@[simp] theorem readX_zero (s : State) : s.readX 0 = 0 := rfl
@[simp] theorem writeX_zero (s : State) (v : Word) : s.writeX 0 v = s := rfl
@[simp] theorem readX_retire (s : State) (len : Nat) (q : XReg) : (s.retire len).readX q = s.readX q := rfl
@[simp] theorem readX_jump (s : State) (t : VAddr) (q : XReg) : (s.jump t).readX q = s.readX q := rfl
@[simp] theorem readX_modCsr (s : State) (f : Csrs → Csrs) (q : XReg) : (s.modCsr f).readX q = s.readX q := rfl
@[simp] theorem readX_setReg (s : State) (r : VReg) (w : VectorReg) (q : XReg) : (setReg s r w).readX q = s.readX q := rfl
@[simp] theorem readX_setMask (s : State) (r : MReg) (w : Mask) (q : XReg) : (setMask s r w).readX q = s.readX q := rfl

/-! ## Updates that are CSR changes -/

theorem raise_eq (s : State) (f : BitVec 5) : s.raise f = s.modCsr fun c => { c with fexc := c.fexc ||| f } := rfl
theorem setVstart_eq (s : State) (i : Nat) : setVstart s i = s.modCsr fun c => { c with vstart := w64 i } := rfl
theorem charge_eq (s : State) (w lo hi : Nat) :
    charge s w lo hi = s.modCsr fun c => { c with ebeats := c.ebeats + w64 (beats s w lo hi) } := rfl
theorem markDirty_eq (s : State) (r : VReg) :
    markDirty s r = s.modCsr fun c => { c with vdirty := c.vdirty ||| BitVec.ofNat 32 (2 ^ r.val) } := rfl

end Sys2Proof.Machine
end

