-- ==== Sys2Proof/Laws/Queue.lean ====
section
/-! SUPPORT. How a vector-queue instruction runs when nothing stands before it (R54, R55): it enters the VIQ, its head runs,
and it leaves. -/

namespace Sys2Proof.Machine

/-- A core without commands has nothing to copy. -/
theorem on_copiesGo_idle {c : Nat} {s : State} (h : (getCore s c).commands = []) : Act.on (copiesGo c) s = (.ok (), s) := by
  unfold copiesGo
  rw [on_bind, on_get]
  simp only [h, List.map_nil, runCmds]
  by_cases hl : s.lag <;> simp [hl]

/-- An empty VIQ has no head to run. -/
theorem on_runHead_nil {lim : Nat} {s : State} (h : s.st.viq = []) : Act.on (runHead lim) s = (.ok false, s) := by
  unfold runHead
  rw [on_bind, on_get]
  simp [h]

/-- The state after a strip of a head: an engine's strip counts in the engine's turn (R78). -/
def afterStrip (i : Instr) (cur : Fin 4096) (s : State) : State := if needsEngine i then serve cur.val s else s

@[simp] theorem afterStrip_viq (i : Instr) (cur : Fin 4096) (s : State) : (afterStrip i cur s).st.viq = s.st.viq := by
  unfold afterStrip; split <;> rfl

/-- A core that is to meet no parity failure meets none (R131). -/
theorem takeUpset_none {s : State} (h : (getCore s (curCore s)).upsets = []) : takeUpset s = (none, s) := by
  unfold takeUpset; rw [h]

/-- Entries in none of which an error stands run as they are, where none stands in a register either (R371). -/
theorem on_runSound {es : List VEntry} {lim : Nat} {s : State} (hb : s.st.bad = []) (hp : es.any (·.poison) = false) :
    Act.on (runSound es lim) s = Act.on (runEntries es lim) s := by
  unfold runSound
  rw [on_bind, on_get]
  simp [hp, hb]

/-- A lone entry without a chain bit, whose run completes, leaves the VIQ: on a core that is to meet no parity failure, without errors
in the registers, and for an engine instruction in a slot that the strand shares with none. -/
theorem on_runHead_one {lim : Nat} {s s' : State} {e : VEntry} {p : Plan} (hq : s.st.viq = [e]) (hc : chainBit e.instr = false)
    (hg : needsEngine e.instr = true → engineGranted s s.cur.val = true ∧ engineShared s s.cur.val = false)
    (hb : s.st.bad = []) (he : e.poison = false) (hu : (getCore s (curCore s)).upsets = [])
    (hu' : (getCore (afterStrip e.instr s.cur s') (curCore (afterStrip e.instr s.cur s'))).upsets = []) (hp : planOf e = some p)
    (hr : Act.on (runPlan p none e lim) s = (.ok true, s')) :
    Act.on (runHead lim) s = (.ok true, dropHead 1 (afterStrip e.instr s.cur s')) := by
  have hg' : (needsEngine e.instr && ! engineGranted s s.cur.val) = false := by
    cases h : needsEngine e.instr <;> simp_all
  have one : ¬ ((hasStrips e.instr = true ∧ (getCore s (curCore s)).upsets ≠ [])
      ∨ (needsEngine e.instr = true ∧ engineShared s s.cur.val = true)) := by
    simp only [hu, ne_eq, not_true_eq_false, and_false, false_or, not_and, Bool.not_eq_true]
    exact fun h => (hg h).2
  have hs : Act.on (runSound [e] lim) s = (.ok true, s') := by
    rw [on_runSound hb (by simp [he])]
    simp only [runEntries, hp, hr]
  unfold runHead
  rw [on_bind, on_get]
  simp only [hq, chainGroup, hc, Bool.false_eq_true, if_false, hg', if_neg one, hs, Bool.not_true, Bool.false_and, Bool.false_or,
    Bool.and_true, takeUpset_none hu]
  rw [show (if needsEngine e.instr = true then serve s.cur.val s' else s') = afterStrip e.instr s.cur s' from rfl, takeUpset_none hu']
  split <;> rfl

theorem enqueue_viq (len : Nat) (i : Instr) (s : State) : (enqueue len i s).st.viq = s.st.viq ++ [viqEntry i s] := rfl
@[simp] theorem enqueue_lag (len : Nat) (i : Instr) (s : State) : (enqueue len i s).lag = s.lag := rfl
@[simp] theorem enqueue_cur (len : Nat) (i : Instr) (s : State) : (enqueue len i s).cur = s.cur := rfl
@[simp] theorem enqueue_mem (len : Nat) (i : Instr) (s : State) : (enqueue len i s).mem = s.mem := rfl

/-- A head that leaves takes one entry of the VIQ with it. -/
theorem dropHead_viq (n : Nat) (s : State) : (dropHead n s).st.viq = s.st.viq.drop n := by
  unfold dropHead
  simp only
  split <;> rfl

@[simp] theorem dropHead_cores (n : Nat) (s : State) : (dropHead n s).cores = s.cores := rfl
@[simp] theorem dropHead_cur (n : Nat) (s : State) : (dropHead n s).cur = s.cur := rfl
@[simp] theorem dropHead_lag (n : Nat) (s : State) : (dropHead n s).lag = s.lag := rfl
@[simp] theorem dropHead_mem (n : Nat) (s : State) : (dropHead n s).mem = s.mem := rfl

/-- The VIQ runs one head and then has nothing more to run. -/
theorem on_runViq_one {n : Nat} {s t : State} (h : Act.on (runHead noLimit) s = (.ok true, t)) (hl : s.lag = false)
    (hq : t.st.viq = []) (hm : (getCore t (curCore t)).commands = []) : Act.on (runViq (n + 2)) s = (.ok (), t) := by
  have h2 : Act.on (runViq (n + 1)) t = (.ok (), t) := by
    unfold runViq
    rw [on_bind, on_get]
    simp only
    split
    · simp
    · rw [on_bind_ok (on_runHead_nil hq)]
      simp
  unfold runViq
  rw [on_bind, on_get]
  simp only [hl, Bool.false_eq_true, false_and, if_false]
  rw [on_bind_ok h]
  simp only [if_true]
  rw [on_bind, on_get]
  simp only
  rw [on_bind_ok (on_copiesGo_idle hm)]
  exact h2

/-- A vector-queue instruction that nothing stands before and whose run completes: the next state is what its run leaves,
without the entry (R54). -/
theorem issue_completes {len : Nat} {i : Instr} {s s' : State} {p : Plan} (hq : s.st.viq = []) (hl : s.lag = false)
    (hc : chainBit i = false) (hg : needsEngine i = true →
      engineGranted (enqueue len i s) s.cur.val = true ∧ engineShared (enqueue len i s) s.cur.val = false)
    (hb : s.st.bad = []) (hu : (getCore s (curCore s)).upsets = [])
    (hu' : (getCore (afterStrip i s.cur s') (curCore (afterStrip i s.cur s'))).upsets = [])
    (hp : planOf (viqEntry i s) = some p)
    (hr : Act.on (runPlan p none (viqEntry i s) noLimit) (enqueue len i s) = (.ok true, s'))
    (hv : s'.st.viq = [viqEntry i s]) (hm : (getCore (afterStrip i s.cur s') (curCore (afterStrip i s.cur s'))).commands = []) :
    issue len i s = .next (dropHead 1 (afterStrip i s.cur s')) := by
  have hh : Act.on (runHead noLimit) (enqueue len i s) = (.ok true, dropHead 1 (afterStrip i s.cur s')) :=
    on_runHead_one (e := viqEntry i s) (by rw [enqueue_viq, hq]; rfl) hc hg hb rfl hu hu' hp hr
  obtain ⟨n, hn⟩ : ∃ n, viqFuel = n + 2 := ⟨1048574, by norm_num [viqFuel]⟩
  have hrun : Act.on (runViq viqFuel) (enqueue len i s) = (.ok (), dropHead 1 (afterStrip i s.cur s')) := by
    rw [hn]
    exact on_runViq_one hh hl (by rw [dropHead_viq, afterStrip_viq, hv]; rfl) hm
  have hd : ¬ Config.viqDepth ≤ 0 := by decide
  unfold issue
  simp only [on_bind, hq, List.length_nil, hd, if_false, on_apply, hl, Bool.not_false, if_true, hrun]
  rfl

/-- A vector-queue instruction under a vector side that lags: it only enters the VIQ, which has room (R54). -/
theorem issue_enters {len : Nat} {i : Instr} {s : State} (hq : s.st.viq.length < Config.viqDepth) (hl : s.lag = true) :
    issue len i s = .next (enqueue len i s) := by
  have hd : ¬ Config.viqDepth ≤ s.st.viq.length := by omega
  unfold issue
  simp only [on_bind, hd, if_false, on_apply, hl, Bool.not_true, Bool.false_eq_true, on_pure]
  rfl

/-- A full VIQ parks the strand with reason 0xB (R54). -/
theorem issue_parks {len : Nat} {i : Instr} {s : State} (hq : Config.viqDepth ≤ s.st.viq.length) :
    issue len i s = .next (parkOn s 0xB .viq) := by
  unfold issue
  simp only [on_bind, hq, if_true, on_throw]
  simp [finish, strandGone, stopFrom]

end Sys2Proof.Machine
end

