-- ==== Sys2Proof/Tests/Slice0.lean ====
section
/-! SUPPORT. Tests of the model against the spec's words and worked values, and for every statement states that meet its
hypotheses. -/

set_option Elab.async false

namespace Sys2Proof.Tests
open Sys2Proof Sys2Proof.Machine

/-! ## A machine for tests -/

/-- The one page of context 1: 64 MiB at 0x1000_0000, memory from 0x400_0000 on, readable and writable. -/
def page : TlbEntry := { ctx := 1, vpage := 0x10000000, large := true, base := 0x4000000, r := true, w := true, p := false, dedup := false, comp := false, tier := 0, moving := false }
/-- A booted machine with its dies up, strand 0 resident in context 1, and the page in its core's TLB and die's TLB. -/
def machine : State :=
  setCore { State.reset with daleel := { State.reset.daleel with dies := Vector.replicate 4 .up, stage := 4 }, st := { resident := true, ctx := 1, pc := 0x10010000 }, lines := { tlb := [(0, page)] } } 0 { tlb := [page] }
/-- The machine with registers set. -/
def setx (s : State) (l : List (Nat × Nat)) : State := l.foldl (fun s p => s.writeX (Fin.ofNat 32 p.1) (w64 p.2)) s
/-- The machine with an 8-byte word at a virtual address of the page, or at a physical address. -/
def atPa (s : State) (pa v : Nat) : State := { s with mem := memWrite s.mem pa (natToBytes 8 v) }
def atVa (s : State) (va v : Nat) : State := atPa s (0x4000000 + (va - 0x10000000)) v
/-- The machine with the strand changed. -/
def withSt (s : State) (f : Strand → Strand) : State := { s with st := f s.st }
/-- The machine in privileged mode. -/
def priv (s : State) : State := withSt s fun t => { t with priv := true }
/-- The machine with some VIQ. -/
def queued (s : State) : State := withSt s fun t => { t with viq := [{ addr := 0x10010000, vl := 1, instr := .vadd false false 3 1 (.vv 2), op0 := 0, op1 := 0 }] }

/-! ## Witnesses: the scalar side -/

def regs : State := setx machine [(5, 3), (6, 0xFFFFFFFFFFFFFFFF), (7, 0x4007)]

theorem meets_registerForms : ([.add 5 6 7, .sub 5 6 7, .and 5 6 7, .or 5 6 7, .xor 5 6 7, .sll 5 6 7, .srl 5 6 7, .sra 5 6 7, .rot 5 6 0,
    .slt 5 6 7, .sltn 5 6 7, .min 5 6 7, .max 5 6 7, .minn 5 6 7, .maxn 5 6 7, .mul 5 6 7, .mulh 5 6 7, .mulhn 5 6 7, .div 5 6 0, .divn 5 6 0,
    .rem 5 6 0, .remn 5 6 0, .clz 5 0, .ctz 5 0, .popc 5 6, .bswap 5 6, .bext 5 6 7, .bexts 5 6 7, .bins 5 6 7, .sel 0 6 7] : List Instr).all
    (fun i => (Claims.regResult regs i).isSome) = true := by decide +kernel

theorem meets_immediateForms : ([.addi 5 6 0x2000, .andi 5 6 0x3FFF, .ori 5 6 1, .xori 5 6 1, .slti 5 6 0x1FFF, .sltni 5 6 0x3FFF, .slli 5 6 63,
    .srli 5 6 63, .srai 5 6 63, .roti 5 6 0, .bexti 5 6 127 127, .bextsi 5 6 0 64, .binsi 5 6 60 8, .lui 5 0x40000, .addpc 5 0x7FFFF,
    .li64 0 0x4000000000000, .cAddi 5 0x20, .cLi 5 0x3F, .cSlli 5 63, .cMv 5 6, .cAdd 5 6] : List Instr).all
    (fun i => (Claims.immResult regs i).isSome) = true := by decide +kernel

theorem meets_selForm : regs.readX 5 ≠ 0 ∧ regs.readX 9 = 0 := by decide +kernel

theorem meets_branches : ([.beq 5 6 0x400, .bne 5 6 0x3FF, .blt 5 6 0, .bge 5 6 1, .bltn 5 6 1, .bgen 5 6 1, .cBeqz 0 0x80, .cBnez 0 0x7F] : List Instr).all
    (fun i => (Claims.branchOf regs i).isSome) = true := by decide +kernel

theorem meets_jumps :
    Claims.jumpOf regs (.jal 1 0x40000) = some (4, 1, 0x0FF90000 + 0) ∧ Claims.jumpOf regs (.cJ 0x3FF) = some (2, 0, 0x100107FE) ∧
    Claims.jumpOf regs (.cJr 5) = some (2, 0, 3) ∧ (3 : VAddr).getLsbD 0 = true ∧
    Claims.jumpOf regs (.jalr 5 5 1) = some (4, 5, 4) ∧ (4 : VAddr).getLsbD 0 = false ∧ regs.st.viq = [] := by decide +kernel

/-- Register 5 points at the page's last word, 6 at a page without permissions. -/
def locked : TlbEntry := { page with vpage := 0x20000000, r := false, w := false }
def mems : State := setx (setCore machine 0 { tlb := [page, locked] }) [(5, 0x13FFFFF8), (6, 0x20000000), (7, 0x10000001), (8, 0x10000000)]
def cachedLine : State := setCore mems 0 { tlb := [page], l1 := [{ addr := 0x4000000, data := List.replicate 128 0x80 }] }

theorem reaches (k : Access) (h : pageAllows k false page = true) : Claims.Reachable mems k 0x13FFFFF8 8 page :=
  by constructor <;> first | exact h | decide +kernel

theorem canonical : Claims.Canonical mems := (by constructor <;> decide +kernel)

theorem noLog : Claims.NoLog mems := by unfold Claims.NoLog; decide +kernel

/-- Nothing on a port and nothing late at the host: nothing is still out. -/
theorem quiet (s : State) (hp : s.links.ports = []) (ho : s.links.outbox = []) (hl : s.links.hostLate = []) (c : Scope) : ¬ Claims.StillOut s c := by
  simp [Claims.StillOut, Claims.SignalsOut, Claims.WritesOut, Claims.PeerOut, hp, ho, hl]
/-- Strand 0 with a SIGNAL out at a peer, waiting on port 64, and one with a store out at the host. -/
def far (op : PeerOp) : PeerMsg := { node := 7, export_ := 1, offset := 0, op, strand := 0, ctx := 1, va := 0x10000000, copy := false, id := 1 }
def signalled : State := { mems with links := { mems.links with ports := [(64, { enable := true, stat := 2, waiting := [far (.signal 1)] })] } }
def wrote : State := { mems with links := { mems.links with hostLate := [(0, false)] } }
theorem signalled_out : Claims.StillOut signalled .dv := .inl ⟨far (.signal 1), 1, ⟨rfl, rfl, .inl ⟨_, .head _, .head _⟩⟩, rfl⟩
theorem wrote_out : Claims.StillOut wrote .sy := .inr ⟨rfl, .inr (.head _)⟩
theorem wrote_dv : ¬ Claims.StillOut wrote .dv := by
  have hp : wrote.links.ports = [] := rfl
  have ho : wrote.links.outbox = [] := rfl
  simp [Claims.StillOut, Claims.SignalsOut, Claims.PeerOut, hp, ho]

theorem meets_loads : Claims.Reachable mems .load 0x13FFFFF8 8 page ∧
    (∃ f, Claims.loadOf mems (.ld .d 9 5 0) = some (4, 9, 0x13FFFFF8, 8, f)) ∧ hitL1 mems (curCore mems) (page.key 0x13FFFFF8) = none ∧ Claims.NoLog mems :=
  ⟨reaches .load (by decide), ⟨_, rfl⟩, by decide +kernel, noLog⟩

theorem meets_loadsFromL1 : Claims.Reachable cachedLine .load 0x10000000 8 page ∧
    (∃ f, Claims.loadOf cachedLine (.cLd 1 0 0) = some (2, 9, 0x10000000, 8, f)) ∧ isLine (page.key 0x10000000) = true ∧
    (hitL1 cachedLine (curCore cachedLine) (page.key 0x10000000)).map (·.poison) = some false :=
  ⟨(by constructor <;> decide +kernel),
    ⟨_, rfl⟩, by decide +kernel⟩

theorem meets_stores : Claims.storeOf mems (.st .d 6 5 0) = some (4, 0x13FFFFF8, 8, 0x20000000) ∧ Claims.Reachable mems .store 0x13FFFFF8 8 page ∧
    heldBy mems page (page.key 0x13FFFFF8) = false ∧ mems.st.park = 0 ∧ Claims.Canonical mems ∧ Claims.NoLog mems :=
  ⟨by decide +kernel, reaches .store (by decide), by decide +kernel, by decide +kernel, canonical, noLog⟩

theorem meets_atomics : Claims.Reachable mems .both ((mems.readX 5).truncate 48) 8 page ∧ heldBy mems page (page.key 0x13FFFFF8) = false ∧
    Claims.Released mems (.flag .sy .ar) ∧ Claims.number mems (page.key 0x13FFFFF8) 8 = (mems.readX 9).toNat :=
  ⟨reaches .both (by decide), by decide +kernel, fun c _ => ⟨by decide +kernel, quiet mems rfl rfl rfl c⟩, by decide +kernel⟩

/-- A release finds entries in the VIQ, a SIGNAL at a peer, and at `.sy` a write to the host. -/
theorem meets_atomics_waits : Claims.releaseAt (.flag .sy .rel) = some .sy ∧ (0x13FFFFF8 : VAddr).toNat % 8 = 0 ∧ (mems.readX 5).truncate 48 = (0x13FFFFF8 : VAddr) ∧
    (queued mems).st.viq ≠ [] ∧ signalled.st.viq = [] ∧ Claims.StillOut signalled .dv ∧ Claims.StillOut wrote .sy ∧ ¬ Claims.StillOut wrote .dv :=
  ⟨rfl, by decide, by decide +kernel, by decide +kernel, by decide +kernel, signalled_out, wrote_out, wrote_dv⟩

theorem meets_accessTraps : (∃ f, Claims.loadOf mems (.ld .d 9 7 0) = some (4, 9, 0x10000001, 8, f)) ∧ 0x10000001 % 8 ≠ 0 ∧
    Claims.storeOf mems (.st .d 9 6 0) = some (4, 0x20000000, 8, 0) ∧ mems.st.viq = [] ∧
    (getCore mems (curCore mems)).tlb.find? (fun t => t.maps mems.st.ctx 0x20000000) = some locked ∧ locked.poison = false ∧ pageAllows .store false locked = false :=
  ⟨⟨_, rfl⟩, by decide, by decide +kernel, by decide +kernel, by decide +kernel, by decide, by decide⟩

/-- A VLD on stream 3 in the VIQ. -/
def loading : State := withSt mems fun t => { t with viq := [{ addr := 0x10010000, vl := 1, instr := .vld false 3 1 5, op0 := 0, op1 := 0 }] }
/-- A FENCE and an SBAR that wait for nothing, for the VIQ, and for what is out; `sbar` leads with a and v. -/
theorem meets_fences : mems.st.viq = [] ∧ ¬ Claims.StillOut mems .sy ∧ (queued mems).st.viq ≠ [] ∧ Claims.StillOut signalled .cl ∧ Claims.StillOut wrote .sy ∧
    ¬ Claims.SignalsOut mems ∧ ¬ Claims.WritesOut mems ∧ Claims.SignalsOut signalled ∧ Claims.WritesOut wrote ∧
    loading.st.viq[0]?.map (fun e => (laneOf e.instr).map fun g => (0x10 : BitVec 5).getLsbD (1 + g.val)) = some (some true) ∧ loading.st.viq[1]? = none := by
  have q := quiet mems rfl rfl rfl .sy
  refine ⟨by decide +kernel, q, by decide +kernel, signalled_out.elim .inl (fun h => absurd h.1 (by decide)), wrote_out, fun h => q (.inl h), fun h => q (.inr ⟨rfl, h⟩), signalled_out.elim id (fun h => absurd h.1 (by decide)),
    .inr (.head _), by decide +kernel⟩

theorem meets_scalarFloat : Claims.frndOf .ne = some mems.st.csr.frnd ∧
    5 ≤ (withSt mems fun t => { t with csr := { t.csr with frnd := 5 } }).st.csr.frnd.toNat := by decide +kernel

def csrFive : State := withSt mems fun t => { t with csr := { t.csr with frnd := 5, vlmax := 64 } }

theorem meets_floatCompareConvert : 5 ≤ csrFive.st.csr.frnd.toNat ∧ csrFive.st.viq = [] ∧ Claims.frndOf .away = some 4 := by decide +kernel

theorem meets_csrAccess : Claims.csrReadOnly 0 = true ∧ Claims.csrReadOnly 0xC03 = true ∧ (Claims.csrBits 0x12F).isSome = true ∧
    (priv mems).st.priv = true ∧ (priv mems).st.signals = [] ∧ mems.st.viq = [] := by decide +kernel

theorem meets_csrTraps : (Claims.csrBits 0x130).isNone = true ∧ Claims.csrReadOnly 0x130 = false ∧
    Claims.csrPrivileged 0x208 ∧ mems.st.priv = false ∧ mems.st.viq = [] :=
  ⟨by decide +kernel, by decide +kernel, by unfold Claims.csrPrivileged; decide, by decide +kernel⟩

theorem meets_csrReadBack : Claims.Canonical mems ∧ Claims.csrBits 0x019 = some 0x1F ∧ Claims.csrReadOnly 0x01C = true ∧
    csrValue (csrWrite 0x010 65 csrFive) 0x010 = 64 ∧ csrValue (csrWrite 0x01B 16 mems) 0x01B = 1 ∧ mems.lines.released = false ∧
    { mems with lines := { mems.lines with released := true } }.lines.released = true :=
  ⟨canonical, by decide +kernel⟩

theorem meets_trapEntry : mems.st.priv = false ∧ (priv mems).st.priv = true ∧ (priv mems).st.viq = [] ∧ (queued (priv mems)).st.viq ≠ [] ∧
    (queued (priv mems)).st.priv = true ∧ mems.lp.ctxTable % 128 = 0 := by decide +kernel

theorem meets_trapiSysret : mems.st.viq = [] ∧ (queued mems).st.viq ≠ [] ∧ (priv mems).st.trap.tpc.getLsbD 0 = false ∧
    (withSt (priv mems) fun t => { t with trap := { t.trap with tpc := 1 } }).st.trap.tpc.getLsbD 0 = true := by decide +kernel

theorem meets_privilegedForms : mems.st.priv = false ∧ mems.st.viq = [] := by decide +kernel

theorem meets_halt : Claims.Canonical (priv mems) ∧ (priv mems).lp.ctxTable % 128 = 0 ∧ (priv mems).st.resident = true ∧ ctxState (priv mems) 1 ≠ 6 :=
  ⟨(by constructor <;> decide +kernel), by decide +kernel⟩

theorem meets_yieldWaitev : (mems.readX 9).toNat ≤ mems.cycle.toNat ∧ mems.cycle.toNat < (mems.readX 5).toNat ∧ mems.st.slotWoke = none ∧
    ownsSlot mems 0 = false ∧ ownsSlot (modCore mems 0 fun k => { k with slots := Vector.replicate 16 8 }) 0 = true ∧
    (withSt mems fun t => { t with slotWoke := some 15 }).st.slotWoke = some 15 := by decide +kernel

/-- Line 0x400_0000 pinned by context 1, and by context 2. -/
def pinned (c : BitVec 12) : State := { mems with lines := { mems.lines with tags := [{ line := 0x4000000, entry := none, pin := some c }] } }

/-- 65,536 tags of other lines of the slice, all pinned. -/
def crowded : State := { mems with lines := { mems.lines with tags := (List.range 65536).map fun k => { line := 0x8000000 + 128 * k, entry := none, pin := some 2 } } }

theorem crowded_noTag : findTag crowded 0x4000000 = none := by
  simp only [findTag, crowded, List.find?_eq_none, List.mem_map]
  rintro _ ⟨k, -, rfl⟩
  simp only [decide_eq_true_eq]
  omega
theorem crowded_pins : (crowded.lines.tags.filter fun t => decide (t.pin ≠ none ∧ homeSlice crowded t.line = homeSlice crowded 0x4000000 ∧
    homeDie crowded t.line = homeDie crowded 0x4000000)).length = 65536 ∧ (crowded.lines.tags.map (·.line)).Nodup := by
  have z (b k : Nat) : hashBit crowded b k = 0 := by
    have : crowded.lines.masks = [] := rfl
    have e : popCount 64 0 % 2 = 0 := by decide
    simp [hashBit, this, sget, e]
  have p (b : Nat) : homeSlice crowded b = homeSlice crowded 0x4000000 ∧ homeDie crowded b = homeDie crowded 0x4000000 := by
    simp [homeSlice, homeDie, z]
  constructor
  · rw [List.filter_eq_self.2]
    · simp [crowded]
    · intro t h
      simp only [crowded, List.mem_map] at h
      obtain ⟨k, -, rfl⟩ := h
      simpa using p _
  · simp only [crowded, List.map_map]
    exact List.Nodup.map (fun a b h => by simpa using h) List.nodup_range
theorem pinnable (s : State) (h : s = mems ∨ s = pinned 1 ∨ s = pinned 2 ∨ s = crowded) : Claims.Reachable s .load 0x10000000 1 page ∧ Claims.NoLog s := by
  obtain rfl | rfl | rfl | rfl := h
  · exact ⟨by constructor <;> decide +kernel, noLog⟩
  · exact ⟨by constructor <;> decide +kernel, by unfold Claims.NoLog; decide +kernel⟩
  · exact ⟨by constructor <;> decide +kernel, by unfold Claims.NoLog; decide +kernel⟩
  · refine ⟨⟨by decide +kernel, by decide +kernel, by decide +kernel, by decide +kernel, by decide +kernel, by decide +kernel, by decide +kernel, ?_⟩, ?_⟩
    · have hp : crowded.poison = [] := rfl
      have hr : crowded.lines.rdcBad = [] := rfl
      have hv : crowded.lines.vat = [] := rfl
      have hl (a : Nat) : linePoisoned crowded a = false := by
        simp only [linePoisoned, poisonedIn, hp, entryPoison, hv]
        split <;> simp
      simp [readPoisoned, poisonedAt, poisonedIn, rangePoisoned, rdcPoisoned, hp, hr, hl]
    · intro t h
      simp only [crowded, List.mem_map] at h
      obtain ⟨k, -, rfl⟩ := h
      exact .inr rfl

theorem meets_cacheLines : (∀ s ∈ [mems, pinned 1, pinned 2, crowded], Claims.Reachable s .load 0x10000000 1 page ∧ Claims.NoLog s) ∧
    lineOf (page.key 0x10000000) = 0x4000000 ∧ isLine 0x4000000 = true ∧ page.key 0x10000000 < Config.compBase ∧
    (findTag (pinned 1) 0x4000000).bind (·.pin) = some 1 ∧ (findTag (pinned 2) 0x4000000).bind (·.pin) = some 2 ∧
    findTag mems 0x4000000 = none ∧ mems.lines.vat.length < 65536 ∧ findTag crowded 0x4000000 = none ∧ crowded.lines.vat = [] ∧
    (getCore mems (curCore mems)).tlb.find? (fun t => t.maps mems.st.ctx 0x20000000) = some locked ∧ (mems.readX 6).truncate 48 = (0x20000000 : VAddr) ∧
    pageAllows .load false locked = false ∧ mems.st.viq = [] :=
  ⟨fun s h => pinnable s (by simpa using h), by decide, by decide, by decide, by decide +kernel, by decide +kernel, by decide +kernel, by decide +kernel,
    crowded_noTag, rfl, by decide +kernel⟩

theorem meets_tlbInvalidate : Claims.Canonical (priv mems) ∧ (priv mems).st.priv = true ∧ (∀ c ∈ (priv mems).cores, c.2.commands = []) ∧
    (priv mems).links.ports = [] ∧ (priv mems).links.outbox = [] ∧ (priv mems).links.hostLate = [] ∧ (priv mems).links.hostReads = [] ∧
    (priv mems).st.accum.flight = [] ∧ ∀ x ∈ (priv mems).others, x.2.accum.flight = [] :=
  ⟨meets_halt.1, by decide +kernel⟩

/-- A barrier object of TARGET 2 at 0x1000_0000, and one with its last arrival out; all bits of m1 are set and `vl` is 2. -/
def barrier (n : Nat) : State := withSt (atVa (atVa (setx mems [(7, 2)]) 0x10000000 n) 0x10000008 (2 ^ 32)) fun t => { t with m := t.m.set 1 3, csr := { t.csr with vl := 2 } }

theorem meets_barriers : Claims.Reachable (barrier 2) .both 0x10000000 16 page ∧ page.tier.toNat < 2 ∧ isLine (page.key 0x10000000) = true ∧
    heldBy (barrier 2) page (page.key 0x10000000) = false ∧ Claims.ReleasedAt (barrier 2) .sy ∧ Claims.Canonical (barrier 2) ∧
    Claims.barValid (Claims.number (barrier 2) (page.key 0x10000000) 16) ∧ Claims.arrivals (barrier 2) 1 = 2 ∧
    ((barrier 2).readX 7).toNat % 2 ^ 32 ≠ 0 ∧ Claims.barGen (Claims.number (barrier 2) (page.key 0x10000000) 16) = ((barrier 2).readX 9).toNat :=
  ⟨(by constructor <;> decide +kernel),
    by decide +kernel, by decide +kernel, by decide +kernel, ⟨by decide +kernel, quiet _ rfl rfl rfl .sy⟩,
    (by constructor <;> decide +kernel),
    (by constructor <;> decide +kernel), by decide +kernel⟩

/-- Strand 0 in a group of two at level 5, not yet arrived, and arrived. -/
def grouped (seen : Option (BitVec 32)) : State :=
  let s := withSt mems fun t => { t with item := { t.item with wfld := BitVec.ofNat 64 (2 * 2 ^ 57), groups := [{ level := 5, obj := 7, seen }] } }
  { s with lp := { s.lp with groups := [(7, { target := 2, arrived := 1, gen := 4, scope := 2, home := 0, ctx := 1, key := (0, 5, 0) })] } }

theorem meets_groupForms : ((grouped none).st.item.groups.find? fun x => x.level = 5 ∧ x.left = none).isSome = true ∧
    (getGroup (grouped none) 7).map (fun g => (g.gen, (groupDie g).val)) = some (4, 0) ∧ (grouped none).daleel.dies[0] ≠ .inReset ∧
    (none : Option (BitVec 32)) ≠ some 4 ∧ (grouped (some 4)).st.item.groups.map (·.seen) = [some 4] ∧ (grouped none).st.viq = [] := by decide +kernel

theorem meets_groupRead : (grouped none).daleel.dies[0] ≠ .inReset ∧ mems.st.item.groups = [] ∧ (grouped none).st.item.wfld.toNat / 2 ^ 57 % 8 = 2 := by decide +kernel

theorem meets_exitGroups : (∀ c, Claims.ReleasedAt (grouped none) c) ∧ (grouped none).st.park = 0 ∧ (∀ d : Fin 4, (grouped none).daleel.dies[d.val] ≠ .inReset) ∧
    (memberships (grouped none)).map (fun m => (m.1.obj, m.2.target, decide (m.1.seen = some m.2.gen))) = [(7, 2, false)] ∧ (memberships (grouped (some 4))).length = 1 ∧
    ((grouped none).st.item.groups.map (·.level)).Nodup :=
  ⟨fun c => ⟨by decide +kernel, quiet _ rfl rfl rfl c⟩, by decide +kernel⟩

/-- Queue 63 of context 1 in device mode, ACTIVE or in ERROR, with DONE 3; an entry at 0x1000_0040, the append address 0x1000_0080. -/
def queue63 (stat : BitVec 3) : State :=
  setQueue (setx mems [(5, 63), (6, 3), (7, 4), (8, 0x10000040)]) 63 { qctl := BitVec.ofNat 64 (2 ^ 16 + 2 ^ 12 + 1), done := 3, append := 0x10000080, stat }

theorem meets_queueForms : ((queue63 1).readX 5).toNat ≤ 63 ∧ (getQueue (queue63 1) 63).ctx = (queue63 1).st.ctx ∧
    ((queue63 1).readX 6).toNat ≤ (getQueue (queue63 1) 63).done.toNat ∧ ¬ ((queue63 1).readX 7).toNat ≤ (getQueue (queue63 1) 63).done.toNat ∧
    (getQueue (queue63 2) 63).stat = 2 ∧ (getQueue (queue63 1) 63).qctl.getLsbD 12 = true ∧ (getQueue (queue63 1) 63).stat = 1 ∧
    Claims.Canonical (queue63 1) ∧ Claims.Reachable (queue63 1) .load 0x10000040 64 page ∧ Claims.Reachable (queue63 1) .store 0x10000080 64 page ∧
    heldBy (queue63 1) page (page.key 0x10000080) = false ∧ page.key 0x10000080 % 64 = 0 ∧ (queue63 1).lines.vat.length + 1 < Config.vatEntries ∧
    (queue63 1).st.qerr = none ∧ (queue63 1).st.park = 0 ∧ Claims.NoLog (queue63 1) ∧ Claims.ReleasedAt (queue63 1) .dv :=
  ⟨by decide +kernel, by decide +kernel, by decide +kernel, by decide +kernel, by decide +kernel, by decide +kernel, by decide +kernel,
    (by constructor <;> decide +kernel),
    (by constructor <;> decide +kernel),
    (by constructor <;> decide +kernel),
    by decide +kernel, by decide +kernel, by decide +kernel, by decide +kernel, by decide +kernel, by unfold Claims.NoLog; decide +kernel,
    by decide +kernel, quiet _ rfl rfl rfl .dv⟩

/-- A QWAIT that the queue's error ended while its strand was parked. -/
def waited : State := withSt (queue63 1) fun t => { t with qerr := some (63, 4, 0x302) }
theorem meets_queueForms_error : (waited.readX 5).toNat = 63 ∧ (getQueue waited 63).ctx = waited.st.ctx ∧ waited.st.qerr = some (63, waited.readX 7, 0x302) ∧
    (queue63 1).st.qerr = none := by decide +kernel

/-! ## Witnesses: vines -/

/-- The machine with 8-byte words at rising physical addresses, the highest stored first. -/
def words (s : State) (l : List (Nat × Nat)) : State := l.foldr (fun p s => atPa s p.1 p.2) s
/-- The dwords of entry h of a vine table at 0x1000_0000. -/
def entry64 (h : Nat) (l : List Nat) : List (Nat × Nat) := (l.zipIdx.map fun p => (0x4000000 + 64 * h + 8 * p.2, p.1)).filter fun p => p.2 ≠ 0
/-- Context 1's descriptor names a vine table of 16 entries at 0x1000_0000 and a release queue of 2^4 records. Vine 1 is OPEN with
tokens 0 to 19 reserved and 0 to c - 1 committed, on pages 7 and 8; vine 2 is FREE; entry 3 is a pool of tokens of 16 B; vine 4 is a
child of 1 at length 5; vine 5 is OPEN and empty. -/
def vinesAt (c : Nat) : State :=
  setx (words machine ([(0x90, 0x10000000), (0x98, 16), (0xA8, 0x10400000)] ++
    entry64 1 [20 * 2 ^ 32 + c, 0xFFFFFFFF * 2 ^ 32, 0x10010000, 4 * 2 ^ 32 + 3, 0x11] ++ entry64 2 [0, 0, 0x10020000, 4 * 2 ^ 32, 0x10] ++
    entry64 3 [0x10800000, 0x10002000, 0, 16, 0x21] ++ entry64 4 [5 * 2 ^ 32 + 5, 2 ^ 32 + 5, 0x10030000, 2 * 2 ^ 32 + 3, 0x10011] ++
    entry64 5 [0, 0xFFFFFFFF * 2 ^ 32, 0x10040000, 3, 0x11] ++ [(0x4002008, 2 ^ 48), (0x4002010, 1), (0x4010200, 2 ^ 63 + 7), (0x4010208, 2 ^ 63 + 8)]))
    [(5, 1), (6, 5), (7, 6), (8, 3 * 2 ^ 32 + 5), (9, 8 * 2 ^ 32 + 18), (10, 2), (11, 4097), (12, 2 * 2 ^ 32), (13, 4), (14, 28), (15, 16), (16, 4096), (17, 2 * 2 ^ 32 + 6), (18, 3), (19, 20), (20, 18)]
def vines : State := vinesAt 5

theorem vineSpace : Claims.VineSpace vines page :=
  (by constructor <;> decide +kernel)
theorem vinesCanonical : Claims.Canonical vines := by constructor <;> decide +kernel
theorem isVine (h : Nat) (hh : h ∈ [1, 2, 4, 5]) : Claims.IsVine vines page h := by
  fin_cases hh <;> refine ⟨by unfold Claims.Inside; decide +kernel, ?_, ?_, ?_⟩ <;> decide +kernel
theorem isPool : Claims.IsPool vines page 3 16 :=
  by refine ⟨by unfold Claims.Inside; decide +kernel, ?_, ?_, ?_, ?_, ?_⟩ <;> decide +kernel
theorem openVine (h : Nat) (hh : h ∈ [1, 4, 5]) : Claims.OpenVine vines page h 16 := by
  have p : Claims.poolNo vines page h = 3 := by fin_cases hh <;> decide +kernel
  refine ⟨isVine h (by fin_cases hh <;> decide), ?_, p ▸ isPool, ?_⟩
  · fin_cases hh <;> decide +kernel
  · unfold Claims.Inside; fin_cases hh <;> decide +kernel

theorem meets_vineReads : Claims.VineSpace vines page ∧ Claims.OpenVine vines page 1 16 ∧ Claims.cmtLen vines page 1 = 5 ∧
    (vines.readX 5).toNat % 2 ^ 32 = 1 ∧ (vines.readX 6).toNat % 2 ^ 32 = 5 ∧ (vines.readX 7).toNat % 2 ^ 32 = 6 ∧
    Claims.Resolves vines page 5 1 4 7 ∧ Claims.Resolves vines page 5 4 4 7 ∧
    Claims.Inside page (Claims.tokenAt vines page 1 16 7 4 8) 8 ∧ Claims.tokenAt vines page 1 16 7 4 8 % 8 = 0 :=
  ⟨vineSpace, openVine 1 (by decide), by decide +kernel, by decide +kernel, by decide +kernel, by decide +kernel, .own (by decide +kernel),
    .up (by decide +kernel) (by decide +kernel) (by decide +kernel)
      (by have : Claims.vineWord vines page 4 1 / 2 ^ 32 = 1 := by decide +kernel
          rw [this]; exact isVine 1 (by decide))
      (by unfold Claims.Inside; decide +kernel)
      (by have : Claims.vineWord vines page 4 1 / 2 ^ 32 = 1 := by decide +kernel
          rw [this]; exact .own (by decide +kernel)),
    by unfold Claims.Inside; decide +kernel, by decide +kernel⟩

theorem meets_vineStore : Claims.VineSpace vines page ∧ Claims.Canonical vines ∧ Claims.OpenVine vines page 1 16 ∧
    (vines.readX 9).toNat % 2 ^ 32 = 18 ∧ Claims.cmtLen vines page 1 ≤ 18 ∧ 18 < Claims.resLen vines page 1 ∧
    Claims.committed vines page 1 18 = false ∧ Claims.mapped vines page 1 (18 / 16) = some 8 ∧ 8 + Claims.stWidth .d ≤ 16 ∧
    Claims.Inside page (Claims.tokenAt vines page 1 16 8 18 8) 8 :=
  ⟨vineSpace, vinesCanonical, openVine 1 (by decide), by decide +kernel, by decide +kernel, by decide +kernel, by decide +kernel, by decide +kernel, by decide,
    by unfold Claims.Inside; decide +kernel⟩

theorem vinesApart : Claims.Apart [Claims.descRange vines 1, Claims.mapRange vines page 1] := by unfold Claims.Apart; decide +kernel

theorem meets_vineReserve : Claims.OpenVine vines page 1 16 ∧ Claims.Apart [Claims.descRange vines 1, Claims.mapRange vines page 1] ∧
    (vines.readX 0).toNat = 0 ∧ 4096 < (vines.readX 11).toNat ∧ Claims.resLen vines page 1 = 20 ∧ (vines.readX 16).toNat = 4096 ∧
    4096 < 20 + 4096 - Claims.cmtLen vines page 1 ∧ (vines.readX 10).toNat = 2 ∧ Claims.mapped vines page 1 (20 / 16) = some 8 ∧
    20 / 16 = (20 + 2 - 1) / 16 ∧ Claims.count vines page (Claims.poolNo vines page 1) 8 ≤ 1 ∧
    Claims.Inside page (Claims.countAt vines page (Claims.poolNo vines page 1) 8) 2 :=
  ⟨openVine 1 (by decide), vinesApart, by decide +kernel, by decide +kernel, by decide +kernel, by decide +kernel, by decide +kernel, by decide +kernel,
    by decide +kernel, by decide, by decide +kernel, by unfold Claims.Inside; decide +kernel⟩

theorem meets_vineCommit : Claims.OpenVine vines page 1 16 ∧ Claims.ReleasedAt vines (wideScope .sy) ∧ (vines.readX 6).toNat / 2 ^ 32 = 0 ∧
    (vines.readX 8).toNat / 2 ^ 32 = 3 ∧ (vines.readX 8).toNat % 2 ^ 32 = 5 ∧ Claims.cmtLen vines page 1 = 5 ∧ 5 + 3 ≤ Claims.resLen vines page 1 ∧
    (∀ k, k < 3 → Claims.committed vines page 1 (5 + k) = false) :=
  ⟨openVine 1 (by decide), ⟨by decide +kernel, quiet vines rfl rfl rfl _⟩, by decide +kernel⟩

theorem meets_vineOpen : Claims.vineStateOf vines page 1 ≠ 0 ∧ Claims.IsVine vines page 2 ∧ Claims.vineStateOf vines page 2 = 0 ∧
    ctxVtCount vines vines.st.ctx ≤ (vines.readX 15).toNat % 2 ^ 32 ∧ Claims.IsPool vines page ((vines.readX 18).toNat % 2 ^ 32) 16 ∧
    (vines.readX 10).toNat % 2 ^ 32 = 2 :=
  ⟨by decide +kernel, isVine 2 (by decide), by decide +kernel, by decide +kernel, by
    have : (vines.readX 18).toNat % 2 ^ 32 = 3 := by decide +kernel
    rw [this]; exact isPool, by decide +kernel⟩

/-- Vine 1 with 16 tokens committed and its first page named in its own map. -/
def vines16 : State := vinesAt 16

theorem meets_vineFork : Claims.vineWord vines16 page 1 4 / 2 ^ 16 % 8 < 4 ∧ Claims.vineWord vines16 page 1 4 / 2 ^ 48 < 0xFFFF ∧
    Claims.vineStateOf vines16 page 4 ≠ 0 ∧ Claims.vineStateOf vines16 page 2 = 0 ∧ Claims.cmtLen vines page 1 < (vines.readX 17).toNat % 2 ^ 32 ∧
    (vines.readX 12).toNat / 2 ^ 32 = 2 ∧ 16 ≤ Claims.cmtLen vines16 page 1 ∧ Claims.Resolves vines16 page 5 1 0 7 ∧
    Claims.Inside page (Claims.countAt vines16 page (Claims.poolNo vines16 page 1) 7) 2 ∧
    Claims.Apart [Claims.descRange vines16 1, Claims.descRange vines16 2, Claims.descRange vines16 3, Claims.mapRange vines16 page 1,
      (Claims.countAt vines16 page 3 7, 2)] ∧ ctxVtCount vines16 vines16.st.ctx = 16 ∧
    (∀ a, a < 16 → (Claims.vineWord vines16 page a 4 / 16 % 16 = 1) →
      ([Claims.descRange vines16 a, Claims.mapRange vines16 page a, (Claims.countAt vines16 page 3 7, 2)] : List (Nat × Nat)).Pairwise fun x y => x.1 + x.2 ≤ y.1 ∨ y.1 + y.2 ≤ x.1) :=
  ⟨by decide +kernel, by decide +kernel, by decide +kernel, by decide +kernel, by decide +kernel, by decide +kernel, by decide +kernel, .own (by decide +kernel),
    by unfold Claims.Inside; decide +kernel, by unfold Claims.Apart; decide +kernel, by decide +kernel⟩

/-- Vine 1 with the tokens of page 8 given up at most to 18, no page beyond it mapped; vine 5 without pages. -/
theorem meets_vineTrimDrop : vines.waitRel = [] ∧ Claims.resLen vines page 1 = 20 ∧ (vines.readX 19).toNat % 2 ^ 32 = 20 ∧ (vines.readX 20).toNat % 2 ^ 32 = 18 ∧
    (∀ j, j < 20 → 18 ≤ j → Claims.committed vines page 1 j = false) ∧ Claims.mapLen vines page 1 = 4 ∧
    (∀ q, q < 4 → (18 + 15) / 16 ≤ q → Claims.mapped vines page 1 q = none) ∧
    Claims.OpenVine vines page 5 16 ∧ Claims.mapLen vines page 5 = 0 ∧ Claims.vineWord vines page 5 4 / 2 ^ 48 = 0 ∧
    Claims.vineWord vines page 5 1 / 2 ^ 32 = 0xFFFFFFFF ∧ Claims.Inside page (ctxRelq vines vines.st.ctx) (64 + 32 * 65536) ∧
    Claims.Apart [Claims.descRange vines 5, Claims.mapRange vines page 5, (ctxRelq vines vines.st.ctx, 64 + 32 * 65536)] :=
  ⟨by decide +kernel, by decide +kernel, by decide +kernel, by decide +kernel, by decide +kernel, by decide +kernel, by decide +kernel, openVine 5 (by decide),
    by decide +kernel, by decide +kernel, by decide +kernel, by unfold Claims.Inside; decide +kernel, by unfold Claims.Apart; decide +kernel⟩

/-! ## Witnesses: the vector side -/

/-- A strand with 8 vector registers of 512 B and `vl` n, the tags of v0 to v7 given, bits 0 and 2 in m0, and a ring in s1. -/
def vecOn (s : State) (vstart n : Nat) (tags : List Nat) : State :=
  let s := withSt s fun t => { t with
    csr := { t.csr with vcfg := w64 (4 * 2 ^ 16 + 32 * 2 ^ 4 + 3 * 2 ^ 2), vl := w64 n, vlmax := 512, vstart := w64 vstart }
    m := t.m.set 0 5
    v := Vector.ofFn fun k => { tag := BitVec.ofNat 6 (tags.getD k.val 0), ext := 64, data := [(0, 0x80), (4, 0x40)] } }
  putStream s 1 { kind := 1, tag := 3, rsize := 4096, rbase := 0, arrived := 12, consumed := 0 }
def vec (vstart : Nat) (tags : List Nat) : State := vecOn (setx machine [(5, 2), (6, 0x3F800000), (7, 1)]) vstart 3 tags
def ints : State := vec 0 [0, 3, 3, 3, 3, 3, 3, 3]
def intsLate : State := vec 3 [0, 3, 3, 3, 3, 3, 3, 3]
def floats : State := vec 0 [0, 11, 11, 11, 11, 11, 11, 11]

theorem ready (i : Instr) (h : chainBit i = false) : Claims.Ready ints i :=
  by constructor <;> first | exact h | decide +kernel
theorem readyFloats (i : Instr) (h : chainBit i = false) : Claims.Ready floats i :=
  by constructor <;> first | exact h | decide +kernel

theorem meets_vectorArithmetic : ([.vadd false false 1 2 (.vv 3), .vsub false true 1 2 (.vx 5), .vrsub false false 1 2 (.vi 0x10), .vmul false false 1 2 (.vs 1),
    .vmulh false false 1 2 (.vv 3), .vdiv false false 1 2 (.vx 0), .vrem false false 1 2 (.vx 0), .vmin false false 1 2 (.vv 3), .vmax false false 1 2 (.vv 3),
    .vand false false 1 2 (.vv 3), .vor false false 1 2 (.vv 3), .vxor false false 1 2 (.vv 3), .vsll false false 1 2 (.vi 0x1F), .vsrl false false 1 2 (.vv 3),
    .vsra false false 1 2 (.vv 3), .vfma false false 1 2 (.vv 3), .vfnma false false 1 2 (.vv 3)] : List Instr).all
    (fun i => (Claims.arithEffect ints i).isSome && ! chainBit i) = true ∧ (Claims.arithEffect floats (.vdiv false false 1 2 (.vx 6))).isSome = true ∧
    (Claims.arithEffect intsLate (.vadd false false 1 2 (.vv 3))).isSome = true := by decide +kernel

theorem meets_vectorUnarySelect : ([.vabs false false 1 2, .vneg false true 1 2, .vsel false 1 2 (.vi 1)] : List Instr).all
    (fun i => (Claims.unaryEffect ints i).isSome && ! chainBit i) = true ∧ (Claims.unaryEffect floats (.vneg false false 1 2)).isSome = true := by decide +kernel

/-- v1 has 64-bit elements, the others 32-bit ones. -/
def wide : State := vec 0 [0, 4, 3, 3, 3, 3, 3, 3]
theorem meets_vectorFixedPoint : ([.vaddc 1 false false 1 2 (.vv 3), .vsubb 1 false false 1 2 (.vi 1), .vsadd false false 1 2 (.vv 3), .vssub false false 1 2 (.vv 3),
    .vavg false false 1 2 (.vv 3)] : List Instr).all (fun i => (Claims.fixedEffect ints i).isSome && ! chainBit i) = true ∧
    (Claims.fixedEffect wide (.vmadw false false 1 2 (.vv 3))).isSome = true ∧ (Claims.fixedEffect wide (.vnshr false false 3 1 (.vi 31))).isSome = true := by decide +kernel

theorem meets_vectorSpecial : ([.vrcp false false 1 2, .vrsq false false 1 2, .vsqrt false false 1 2, .vexp2 false false 1 2, .vlog2 false false 1 2, .vtanh false false 1 2,
    .vexpm false false 1 2 6] : List Instr).all (fun i => (Claims.specialEffect floats i).isSome && ! chainBit i) = true := by decide +kernel

theorem meets_elementsWritten : (∀ r : VReg, sparseWf (0 : Byte) ints.st.v[r.val].data = true) ∧ (255 : Nat) < 256 ^ 1 := by decide +kernel

theorem meets_vectorCompareMasks : (Claims.compareEffect ints (.vcmp .lt true 3 2 (.vv 3))).isSome = true ∧ (Claims.compareEffect floats (.vcmp .ge false 3 2 (.vx 6))).isSome = true ∧
    ([.mand 1 2 3, .mor 1 2 3, .mxor 1 2 3, .mandn 1 2 3, .mnot 1 2, .mslide 1 2 1, .mslide 1 2 3, .mset 1 true, .mmvMask 1 2] : List Instr).all
      (fun i => (Claims.maskEffect ints i).isSome && ! chainBit i) = true ∧
    ([.mmvToVector 1 2, .mmvFromVector 1 2] : List Instr).all (fun i => (Claims.maskEffect (vec 0 [0, 5, 5]) i).isSome && ! chainBit i) = true := by decide +kernel

theorem meets_vectorPermute : ([.vslide false 1 2 (.vi 0x3F), .vslide true 1 2 (.vx 5), .vperm false 1 2 3, .vcomp 1 2, .viota false 1 4, .vmv false 1 (.vv 2), .vmv false 1 (.vx 5),
    .vmv false 1 (.vi 1), .vmvi 1 6 5, .vmvi 1 6 6] : List Instr).all (fun i => (Claims.permuteEffect ints i).isSome && ! chainBit i) = true := by decide +kernel

theorem meets_vectorReduce : ([.vred false false .sum 1 2, .vred true false .xor 1 2, .vsegredSum false 1 2 5, .vsegredMax false 1 2 5, .vsegredMin false 1 2 5,
    .vscan false 1 2] : List Instr).all (fun i => (Claims.reduceEffect ints i).isSome && ! chainBit i) = true := by decide +kernel

theorem meets_integerReductions : (0 : Nat) < 1 ∧ ∀ k, (fun _ => 1 : Nat → Nat) k < 2 ^ 1 := ⟨by decide, fun _ => Nat.lt_succ_self 1⟩

/-- v1 and v7 hold scale codes, v2 and v3 32-bit floats, v4 8-bit codes of a block format. -/
def scales : State := vec 0 [0, 13, 11, 11, 0x13, 11, 11, 13]
theorem meets_vectorConvertScore : ([.vcvt .ne false false 2 3, .vcvt .ef false false 2 3, .vcvtScaled .ne false false 4 2, .vamax false 2, .vscale true 3 1 2] : List Instr).all
      (fun i => (Claims.convertEffect scales i).isSome && ! chainBit i) = true ∧
    ([.vscore false 5 2 7, .vaccp true 5 2 7] : List Instr).all (fun i => (Claims.attentionEffect floats i).isSome && ! chainBit i) = true := by decide +kernel

theorem meets_vectorConfig : ints.st.viq = [] ∧ configured ints = true ∧ 7 + 0 < regCount ints ∧
    (grant (w64 (2 ^ 18 * 3)) (laneGroups (getCore ints (curCore ints))) (unitsAvail ints ints.cur.val)).1.getLsbD 63 = false ∧
    unitsAvail ints ints.cur.val ≤ 16 ∧ configured machine = false ∧ chainBit (.vtag 3 0 7) = false := by decide +kernel

theorem meets_vectorToScalar : ints.st.viq = [] ∧ elemType ints 2 = some (.int 32 true) ∧ configured ints = true ∧ ints.st.csr.vl.toNat ≤ 16384 ∧
    redOk (.int 32 true) .sum = true ∧ elemType floats 2 = some (.flt fmtF32) := by decide +kernel

/-- Nothing on a port and nothing late at the host: no copy has a write out. -/
theorem noCopyOut (s : State) (hp : s.links.ports = []) (ho : s.links.outbox = []) (hl : s.links.hostLate = []) (n : Nat) : ¬ Claims.CopyOut s n := by
  simp [Claims.CopyOut, hp, ho, hl]

/-- `Claims.Within` as a Boolean. -/
def within (s : State) (F : Claims.Form) : Bool := (Claims.pairs s F).all fun p =>
  decide ((page.vpage ≤ (F.addr p.1 p.2).toNat ∧ (F.addr p.1 p.2).toNat + F.b ≤ page.vpage + page.size) ∧ (F.addr p.1 p.2).toNat % F.b = 0)
theorem within_sound (s : State) (F : Claims.Form) (h : within s F = true) : Claims.Within s page F := by
  intro p hp
  exact (of_decide_eq_true (List.all_eq_true.1 h p hp) : (page.vpage ≤ _ ∧ _ ≤ page.vpage + page.size) ∧ _ = 0)
/-- Register 9 points at the page's last 12 bytes, 10 at its start; v4 has the indices 0x40000080 × 0 to 2 of the data, v5 small ones. -/
def vmems : State :=
  let s := setx ints [(9, 0x13FFFFF4), (10, 0x10000000), (11, 8)]
  setReg s 4 { tag := 1, ext := 64, data := [(1, 1), (2, 2)] }
theorem vmemSpace (n : Nat) (h : n ≤ 11) : Claims.MemSpace vmems page n :=
  by constructor <;> first
    | exact ⟨Nat.le_trans (Nat.add_le_add_left h _) (by decide +kernel), Nat.le_trans (Nat.add_le_add_left h _) (by decide +kernel)⟩
    | unfold Claims.NoLog; decide +kernel
    | decide +kernel
theorem vmemsCanonical : Claims.Canonical vmems := by constructor <;> decide +kernel

theorem meets_vectorLoads : ([.vld false 0 1 9, .vldStrided true 1 1 10 11, .vldseg 1 false 2 1 10 0, .vldx false 3 1 10 4] : List Instr).all
    (fun i => (Claims.loadForm vmems i).any (within vmems) && ! chainBit i) = true ∧ Claims.MemSpace vmems page 0 ∧ Claims.Canonical vmems :=
  ⟨by decide +kernel, vmemSpace 0 (by decide), vmemsCanonical⟩

theorem meets_vectorStores : ([.vst false 0 1 9, .vstStrided true 1 1 10 0, .vstseg 0 false 2 1 10 11, .vstxO false 3 1 10 4, .vstxU false 3 1 10 4] : List Instr).all
    (fun i => (Claims.storeForm vmems i).any (within vmems) && ! chainBit i) = true ∧ Claims.MemSpace vmems page (3 * 1 + 8) ∧ Claims.vl vmems = 3 :=
  ⟨by decide +kernel, vmemSpace _ (by decide), by decide +kernel⟩

theorem meets_vectorAtomics : ([.vscadd false 0 1 10 4, .vamo .add .sy (some .ar) true 0 1 10 4] : List Instr).all
    (fun i => (Claims.phaseForm vmems i).any (fun F => within vmems F.2 && decide ((Claims.pairs vmems F.2).map (Claims.keyOf page F.2)).Nodup) && ! chainBit i) = true ∧
    Claims.lo vmems < Claims.vl vmems ∧ (∀ c, ¬ Claims.StillOut vmems c) ∧ Claims.Ready vmems (.vamo .add .sy (some .ar) true 0 1 10 4) ∧
    Claims.MemSpace vmems page (3 + 8) ∧ Claims.Canonical vmems :=
  ⟨by decide +kernel, by decide +kernel, quiet vmems rfl rfl rfl, by constructor <;> decide +kernel, vmemSpace _ (by decide), vmemsCanonical⟩
/-- The same strand with a store out at the host, and with a SIGNAL out at a peer. -/
def vwrote : State := { vmems with links := wrote.links }
def vsignalled : State := { vmems with links := signalled.links }
theorem meets_vectorAtomics_waits : Claims.ordScope .sy = .sy ∧ Claims.ordScope .dv = .dv ∧ Claims.StillOut vwrote .sy ∧ Claims.StillOut vsignalled .dv ∧
    (∀ s ∈ [vwrote, vsignalled], Claims.Ready s (.vamo .add .sy (some .rel) true 0 1 10 4) ∧ Claims.Canonical s ∧ Claims.MemSpace s page 11) := by
  have m (s : State) (h : s = vwrote ∨ s = vsignalled) : Claims.MemSpace s page 11 := by
    rcases h with rfl | rfl <;> (constructor <;> first | (unfold Claims.NoLog; decide +kernel) | decide +kernel)
  refine ⟨rfl, rfl, wrote_out, signalled_out, fun s h => ⟨?_, ?_, m s (by simpa using h)⟩⟩ <;>
    (simp only [List.mem_cons, List.not_mem_nil, or_false] at h; rcases h with rfl | rfl) <;> (constructor <;> decide +kernel)

theorem meets_vectorWait : elemType vmems 2 = some (.int 32 true) ∧ (Claims.index vmems 2 4 (vmems.readX 10) 4).isSome = true ∧
    elemAt vmems 2 4 1 = 0x40 ∧ Claims.number vmems (page.key 0x10000004) 4 = 0 ∧ Claims.Ready vmems (.vwait .sy .eq true 0 2 10 4) ∧ Claims.Canonical vmems ∧
    Claims.MemSpace vmems page 0 ∧ within vmems ⟨true, [2], 4, fun k _ => Claims.from_ (vmems.readX 10) (intOf (.int 8 true) (elemAt vmems 4 1 k) * 4), 8⟩ = true :=
  ⟨by decide +kernel, by decide +kernel, by decide +kernel, by decide +kernel, by constructor <;> decide +kernel, vmemsCanonical, vmemSpace 0 (by decide), by decide +kernel⟩

/-- Two lists of one and two pairs. -/
def merging : State := setx ints [(9, 2 * 65536 + 1)]
theorem meets_vectorMerge : elemType merging 1 = some (.int 32 true) ∧ elemType merging 4 = some (.int 32 true) ∧ elemType merging 6 = some (.int 32 true) ∧
    (merging.readX 9).toNat / 2 ^ 32 = 0 ∧ 1 + 2 ≤ merging.st.csr.vlmax.toNat ∧ (1 : VReg).val + 3 < (6 : VReg).val ∧ (6 : VReg).val + 1 < 32 ∧ chainBit (.vmergeu false 6 9 1) = false := by decide +kernel

/-- Vine 1 in v2, and tokens 18 and 5 with their offsets in v3 and v5; v1 takes unsigned 32-bit elements. -/
def vvines : State :=
  let s := vecOn vines 0 1 [0, 7, 7, 8, 0, 7, 0, 8]
  let put (s : State) (r : VReg) (n v : Nat) : State := setReg s r { s.st.v[r.val] with data := writeBytes [] 0 (natToBytes n v) }
  put (put (put (put s 2 4 1) 3 8 (8 * 2 ^ 32 + 18)) 5 4 5) 7 8 4
theorem vvineSpace : Claims.VineSpace vvines page := by constructor <;> decide +kernel
theorem vvineOpen : Claims.OpenVine vvines page 1 16 := by
  have p : Claims.poolNo vvines page 1 = 3 := by decide +kernel
  refine ⟨?_, by decide +kernel, p ▸ ?_, by unfold Claims.Inside; decide +kernel⟩
  · refine ⟨by unfold Claims.Inside; decide +kernel, ?_, ?_, ?_⟩ <;> decide +kernel
  · refine ⟨by unfold Claims.Inside; decide +kernel, ?_, ?_, ?_, ?_, ?_⟩ <;> decide +kernel

theorem meets_vectorVines : Claims.lo vvines = 0 ∧ Claims.vl vvines = 0 + 1 ∧ elemType vvines 1 = some (.int 32 false) ∧ elemType vvines 2 = some (.int 32 false) ∧
    elemType vvines 3 = some (.int 64 false) ∧ elemAt vvines 2 4 0 % 2 ^ 32 = 1 ∧ elemAt vvines 3 8 0 % 2 ^ 32 = 18 ∧ elemAt vvines 3 8 0 / 2 ^ 32 = 8 ∧
    elemAt vvines 5 4 0 % 2 ^ 32 = 5 ∧ elemAt vvines 7 8 0 % 2 ^ 32 = 4 ∧ Claims.cmtLen vvines page 1 = 5 ∧ Claims.resLen vvines page 1 = 20 ∧
    Claims.mapped vvines page 1 (20 / 16) = some 8 ∧ Claims.mapped vvines page 1 (4 / 16) = some 7 ∧ Claims.committed vvines page 1 5 = false ∧
    ((vvines.readX 9).toNat / 2 ^ 32 % 2 ^ 16 + 0 * 4) % 16 = 8 ∧ Claims.Ready vvines (.vsqres false 0 1 2) ∧ Claims.Canonical vvines ∧ (∀ c, ¬ Claims.StillOut vvines c) := by
  refine ⟨by decide +kernel, by decide +kernel, by decide +kernel, by decide +kernel, by decide +kernel, by decide +kernel, by decide +kernel, by decide +kernel,
    by decide +kernel, by decide +kernel, by decide +kernel, by decide +kernel, by decide +kernel, by decide +kernel, by decide +kernel, by decide +kernel,
    by constructor <;> decide +kernel, by constructor <;> decide +kernel, quiet vvines rfl rfl rfl⟩

/-! ## Witnesses: diagonals and tiles -/

/-- A grant of order 4 with 3 slots and 2 tiles over 32-bit floats: slots 0 and 1 bound to offsets 0 and 1, slot 2 to the offset given, or free. -/
def diag (third : BitVec 16) (vlen : Nat) (x20 : Nat) : State :=
  let s := vecOn (setx machine [(20, x20), (21, 0x10000000), (22, 63 * 256 + 63)]) 0 vlen [0, 11, 11, 11, 11, 11, 11, 13]
  withSt s fun t => { t with csr := { t.csr with dcfg := w64 (2 * 2 ^ 41 + 3 * 2 ^ 32 + 4), dpivtau := 0x3F800000 }, accum := { t.accum with dir := [(0, 0), (1, 1)] ++ (if third = freeSlot then [] else [(2, third)]) } }
/-- An offset word of A offset a and B offset b. -/
def offsets (a b : Int) : Nat := (BitVec.ofInt 16 a).toNat + (BitVec.ofInt 16 b).toNat * 2 ^ 16
/-- Slot 2 free; target 0 bound; target -2 without a slot. -/
def bound : State := diag freeSlot 4 (offsets (-3) 3)
def unbound : State := diag freeSlot 4 (offsets (-1) (-1))
def fullGrant : State := diag 3 4 (offsets (-1) (-1))

theorem engine (s : State) (i : Instr) (hs : s ∈ [bound, unbound, fullGrant]) (h : chainBit i = false) : Claims.Engine s i := by
  simp only [List.mem_cons, List.not_mem_nil, or_false] at hs
  rcases hs with rfl | rfl | rfl <;>
    exact ⟨⟨by constructor <;> first | exact h | decide +kernel, by decide +kernel, by decide +kernel, by decide +kernel⟩, by decide +kernel, rfl, ⟨rfl, rfl⟩, by decide +kernel⟩

/-- A request that is granted, and one with a reserved bit set. -/
theorem meets_diagonalDirectory : Claims.requestOk (w64 (3 * 2 ^ 32 + 4)) (wordsAvail bound bound.cur.val) ∧ ¬ Claims.requestOk (w64 (2 ^ 46)) 16384 ∧
    Claims.order bound = 4 ∧ Claims.Bound bound (Claims.offA (w64 1)) 1 ∧ Claims.Unbound bound (Claims.offA (bound.readX 20)) ∧ (w64 0x8000).toNat % 2 ^ 16 = 0x8000 ∧
    Claims.Ready bound (.dcfg 5 6) ∧ Claims.Ready bound (.ddir 5 6) ∧ Claims.Ready bound (.dfree 20) ∧ bound.st.csr.dcfg.getLsbD 63 = false ∧
    bound.st.accum.flight = [] ∧ sparseWf freeSlot bound.st.accum.dir = true :=
  ⟨(by constructor <;> decide +kernel), fun h => absurd h.2.1 (by decide +kernel),
    by decide +kernel, (by constructor <;> decide +kernel), by unfold Claims.Unbound; decide +kernel, by decide +kernel,
    (engine bound (.dcfg 5 6) (by simp) (by decide)).ready, (engine bound (.ddir 5 6) (by simp) (by decide)).ready, (engine bound (.dfree 20) (by simp) (by decide)).ready,
    by decide +kernel⟩

theorem meets_diagonalZero : Claims.Engine unbound (.dzero 20) ∧ Claims.Engine fullGrant (.dzero 20) ∧ (Claims.offA (unbound.readX 20)).natAbs < Claims.order unbound ∧
    Claims.Unbound unbound (Claims.offA (unbound.readX 20)) ∧ Claims.LowestFree unbound 2 ∧ Claims.Unbound fullGrant (Claims.offA (fullGrant.readX 20)) ∧
    (∀ j, j < Claims.slots fullGrant → dirEntry fullGrant j ≠ freeSlot) ∧ Claims.Bound unbound 0 0 :=
  ⟨engine _ _ (by simp) (by decide), engine _ _ (by simp) (by decide), by decide +kernel, by unfold Claims.Unbound; decide +kernel,
    (by constructor <;> decide +kernel), by unfold Claims.Unbound; decide +kernel, by decide +kernel,
    (by constructor <;> decide +kernel)⟩

theorem macOk (s : State) (w : Word) (hs : s ∈ [bound, unbound, fullGrant]) (hw : w = s.readX 20) : Claims.MacOk s 1 2 w 1 0 (.flt fmtF32) (.flt fmtF32) := by
  subst hw
  simp only [List.mem_cons, List.not_mem_nil, or_false] at hs
  rcases hs with rfl | rfl | rfl <;>
    constructor <;> decide +kernel

theorem meets_diagonalProducts : Claims.macForm bound (.dmac 1 2 20) = some (1, 2, bound.readX 20, 1, 0, false) ∧ Claims.Engine bound (.dmac 1 2 20) ∧
    Claims.MacOk bound 1 2 (bound.readX 20) 1 0 (.flt fmtF32) (.flt fmtF32) ∧ Claims.offA (bound.readX 20) + Claims.offB (bound.readX 20) = 0 ∧
    Claims.Bound bound 0 0 ∧ Claims.row 4 (-3) 3 3 ∧ (Claims.macForm bound (.dmacD 1 2 20)).isSome = true ∧ (Claims.macForm bound (.dmacg 1 2 20)).isSome = true :=
  ⟨by decide +kernel, engine _ _ (by simp) (by decide), macOk _ _ (by simp) rfl, by decide +kernel, (by constructor <;> decide +kernel),
    by unfold Claims.row; decide, by decide +kernel⟩

theorem meets_diagonalFillIn : Claims.MacOk unbound 1 2 (unbound.readX 20) 1 0 (.flt fmtF32) (.flt fmtF32) ∧ Claims.Unbound unbound (-2) ∧ Claims.LowestFree unbound 2 ∧
    Claims.offA (unbound.readX 20) + Claims.offB (unbound.readX 20) = -2 ∧ Claims.Engine unbound (.dmac 1 2 20) ∧ Claims.Engine unbound (.dmacD 1 2 20) ∧
    Claims.MacOk fullGrant 1 2 (fullGrant.readX 20) 1 0 (.flt fmtF32) (.flt fmtF32) ∧ Claims.Unbound fullGrant (-2) ∧
    (∀ j, j < Claims.slots fullGrant → dirEntry fullGrant j ≠ freeSlot) :=
  ⟨macOk _ _ (by simp) rfl, by unfold Claims.Unbound; decide +kernel, (by constructor <;> decide +kernel), by decide +kernel,
    engine _ _ (by simp) (by decide), engine _ _ (by simp) (by decide), macOk _ _ (by simp) rfl, by unfold Claims.Unbound; decide +kernel, by decide +kernel⟩

/-- A grant that was refused (ILL 1). -/
def ill : State := withSt bound fun t => { t with csr := { t.csr with dcfg := w64 (2 ^ 63) } }
theorem meets_diagonalVectors : Claims.HasEngine ill (.dmv 3 1 2 20) ∧ Claims.HasEngine ill (.dmvM 3 1 2 20) ∧ Claims.Engine bound (.dxtr true true 3 20) ∧ (Claims.offA (bound.readX 20)).natAbs < Claims.order bound ∧
    elemType bound 3 = some (.flt fmtF32) ∧ Claims.drainTag bound (.flt fmtF32) ∧ Claims.Engine bound (.dmv 3 1 2 20) ∧ Claims.Engine bound (.dmvM 3 1 2 20) ∧
    (Claims.offA (bound.readX 20)).natAbs < Claims.vl bound ∧ Claims.lo bound < Claims.vl bound ∧ Claims.Engine bound (.dpiv false 3 1) :=
  ⟨⟨by constructor <;> decide +kernel, by decide +kernel, by decide +kernel, by decide +kernel⟩, ⟨by constructor <;> decide +kernel, by decide +kernel, by decide +kernel, by decide +kernel⟩,
    engine _ _ (by simp) (by decide), by decide +kernel, by decide +kernel, by unfold Claims.drainTag; decide +kernel, engine _ _ (by simp) (by decide),
    engine _ _ (by simp) (by decide), by decide +kernel, by decide +kernel, engine _ _ (by simp) (by decide)⟩

/-- The page in the scratchpad window, 64 KiB. -/
def spadPage : TlbEntry := { page with base := Config.spadBase, large := false, tier := 2 }
/-- A resident structure of order 4 with 1 diagonal of 32-bit floats at the page's start, and records of diagonal 0 row 3 and diagonal 1. -/
def resident : State :=
  let s := setCore bound 0 { tlb := [spadPage] }
  let s := { s with lines := { s.lines with tlb := [(0, spadPage)] }, mem := memWrite [] Config.spadBase (natToBytes 16 (11 * 2 ^ 48 + 4 + (0x10000100) * 2 ^ 64)) }
  setReg s 1 { tag := 4, ext := 64, data := writeBytes [] 0 (natToBytes 16 (3 + 0x3F800000 * 2 ^ 32 + 2 ^ 64 * (2 ^ 24 + 7 * 2 ^ 32))) }

theorem residentEngine : Claims.Engine resident (.dupd false 1 21) :=
  ⟨⟨by constructor <;> decide +kernel, by decide +kernel, by decide +kernel, by decide +kernel⟩, by decide +kernel, rfl, ⟨rfl, rfl⟩, by decide +kernel⟩

theorem meets_diagonalUpdate : Claims.Engine resident (.dupd false 1 21) ∧ Claims.Canonical resident ∧ Claims.MemSpace resident spadPage 0 ∧
    elemType resident 1 = some (.int 64 true) ∧ Claims.resOk (Claims.at_ resident spadPage 0x10000000 8) ∧
    Claims.Inside spadPage 0x10000000 (8 + 8 * Claims.resD (Claims.at_ resident spadPage 0x10000000 8)) ∧
    Claims.records resident false 1 = [3 + 0x3F800000 * 2 ^ 32, 2 ^ 24 + 7 * 2 ^ 32, 0, 0] ∧
    (Claims.records resident false 1).map (Claims.recordAt resident spadPage 0x10000000) = [some 0x1000010C, none, some 0x10000100, some 0x10000100] ∧
    Claims.Inside spadPage 0x1000010C 4 ∧ (Claims.records resident false 1).map (Claims.baseFor resident spadPage 0x10000000) = [0x10000100, 0, 0x10000100, 0x10000100] ∧
    Claims.Inside spadPage 0x10000100 1 ∧ Claims.resD (Claims.at_ resident spadPage 0x10000000 8) = 1 ∧ Claims.at_ resident spadPage 0x10000008 8 % 4 = 0 :=
  ⟨residentEngine, by constructor <;> decide +kernel,
    by constructor <;> first | unfold Claims.NoLog; decide +kernel | decide +kernel,
    by decide +kernel, (by constructor <;> decide +kernel),
    by unfold Claims.Inside; decide +kernel, by decide +kernel, by decide +kernel, by unfold Claims.Inside; decide +kernel, by decide +kernel,
    by unfold Claims.Inside; decide, by decide +kernel⟩

/-- `vl` 1 for the row and column forms, 64 for TMMA. -/
def tiled (n : Nat) : State := diag freeSlot n 0
theorem tileOk (n : Nat) (hn : n ∈ [1, 64]) (i : Instr) (h : chainBit i = false) (t : TReg) (ht : t ∈ [0, 1]) : Claims.TileOk (tiled n) i t := by
  simp only [List.mem_cons, List.not_mem_nil, or_false] at hn ht
  rcases hn with rfl | rfl <;> rcases ht with rfl | rfl <;>
    exact ⟨⟨⟨by constructor <;> first | exact h | decide +kernel, by decide +kernel, by decide +kernel, by decide +kernel⟩, by decide +kernel, rfl, ⟨rfl, rfl⟩, by decide +kernel⟩,
      by decide +kernel, by decide +kernel⟩

theorem meets_tiles : Claims.TileOk (tiled 1) (.tzero 1) 1 ∧ Claims.TileOk (tiled 1) (.trowmv true 1 1 22) 1 ∧ Claims.TileOk (tiled 1) (.tcolmv true 1 0 22) 0 ∧
    Claims.TileOk (tiled 64) (.tmma 1 1 2) 1 ∧ elemType (tiled 1) 1 = some (.flt fmtF32) ∧ ((tiled 1).readX 22).toNat / 2 ^ 8 % 64 + Claims.vl (tiled 1) ≤ 64 ∧
    Claims.vl (tiled 64) = 64 ∧ pairKind (.flt fmtF32) (.flt fmtF32) = some (Claims.integer (tiled 64)) ∧ Claims.lo (tiled 64) < 4 * ((1 + 7) / 8) ∧
    (tiled 1).st.accum.flight = [] ∧ (tiled 1).st.accum.error = none ∧ Claims.Ready (tiled 1) (.tstat 5) :=
  ⟨tileOk _ (by simp) _ (by decide) _ (by simp), tileOk _ (by simp) _ (by decide) _ (by simp), tileOk _ (by simp) _ (by decide) _ (by simp),
    tileOk _ (by simp) _ (by decide) _ (by simp), by decide +kernel, by decide +kernel, by decide +kernel, by decide +kernel, by decide +kernel, by decide +kernel,
    by decide +kernel, by constructor <;> decide +kernel⟩

theorem meets_tileTransfers : Claims.Canonical (tiled 1) ∧ Claims.MemSpace (tiled 1) page 136 ∧ ((tiled 1).readX 21).toNat % 64 = 0 ∧
    Claims.Inside page 0x10000000 0x4000 ∧ Claims.TileOk (tiled 1) (.tsave 0 21) 0 ∧ Claims.TileOk (tiled 1) (.trest 1 21) 1 :=
  ⟨by constructor <;> decide +kernel,
    by constructor <;> first | unfold Claims.NoLog; decide +kernel | decide +kernel,
    by decide +kernel, by unfold Claims.Inside; decide, tileOk _ (by simp) _ (by decide) _ (by simp), tileOk _ (by simp) _ (by decide) _ (by simp)⟩

/-! ## Witnesses: streams and copies -/

/-- A page of core 0's own scratchpad at 0x2000_0000, beside the page of memory. -/
def ownPage : TlbEntry := { page with vpage := 0x20000000, base := Config.spadBase + 0x10000, large := false, tier := 2 }
/-- One dimension of 2 elements, 8 bytes apart, in v4; v5 has 64-bit indices; x20 and x21 point at the two pages; a ring of 4,096 B in s2 at offset 0x1000 with 8 bytes left. -/
def copying (n : Nat) : State :=
  let s := vecOn (setx machine [(20, 0x20000000), (21, 0x10000000), (22, 2 ^ 36 + 8 * 2 ^ 18), (23, 5), (24, 2 ^ 62 + 3 * 2 ^ 56 + 4096 * 2 ^ 18), (25, 2 ^ 63 + 3 * 2 ^ 56), (26, 9), (27, 9 + 3 * 2 ^ 12)]) 0 n [0, 3, 3, 3, 4, 4, 3, 3]
  let s := setCore s 0 { tlb := [page, ownPage] }
  let s := setReg s 4 { tag := 4, ext := 64, data := writeBytes [] 0 (natToBytes 8 (8 * 2 ^ 24 + 2)) }
  putStream s 2 { kind := 1, tag := 3, rsize := 4096, rbase := 0x1000, arrived := 5000, consumed := 912 }
/-- Strand 9 has bound its s3 as a chain that names strand 0. -/
def chained : State := setStrand (copying 1) 9 { resident := true, ctx := 1, streams := Vector.replicate 4 { kind := 2, tag := 3, rsize := 4096, peer := 0 } }

theorem copyReady (s : State) (hs : s ∈ [copying 1, chained]) (i : Instr) (h : chainBit i = false) : Claims.Ready s i := by
  simp only [List.mem_cons, List.not_mem_nil, or_false] at hs
  rcases hs with rfl | rfl <;> (constructor <;> first | exact h | decide +kernel)
theorem copyCanonical : Claims.Canonical (copying 1) := by constructor <;> decide +kernel
theorem copySpace : Claims.CopySpace (copying 1) page ownPage 16 :=
  by constructor <;> first | unfold Claims.NoLog; decide +kernel | decide +kernel
theorem copiesDone : Claims.copiesDone (copying 1) := fun n _ => noCopyOut _ rfl rfl rfl n

theorem meets_streamRegisters : Claims.Ready (copying 1) (.sbind 0 20 24) ∧ ((copying 1).readX 24).toNat / 2 ^ 62 = 1 ∧
    ((copying 1).readX 24).toNat / 2 ^ 18 % 2 ^ 18 = 4096 ∧ (getCore (setCore (copying 1) 0 { tlb := [ownPage] }) 0).tlb = [ownPage] ∧
    Claims.Inside ownPage 0x20000000 4096 ∧ (copying 1).st.streams[0].kind = 0 ∧ (copying 1).st.streams[2].kind ≠ 0 ∧
    ((copying 1).readX 25).toNat / 2 ^ 62 = 2 ∧ ((copying 1).readX 25).toNat / 2 ^ 18 % 2 ^ 18 = 0 ∧ (getStrand chained 9).resident = true ∧
    (getStrand chained 9).ctx = chained.st.ctx ∧ Claims.Ready (copying 1) (.srel 2) ∧ Claims.Ready (copying 1) (.sstat 5 2) :=
  ⟨copyReady _ (by simp) _ (by decide), by decide +kernel, by decide +kernel, by decide +kernel, by unfold Claims.Inside; decide, by decide +kernel, by decide +kernel,
    by decide +kernel, by decide +kernel, by decide +kernel, by decide +kernel, copyReady _ (by simp) _ (by decide), copyReady _ (by simp) _ (by decide)⟩

theorem meets_copyTensor : Claims.Ready (copying 1) (.xcopy false .d 1 (.flag .sy .ar) 20 21 4) ∧ Claims.Canonical (copying 1) ∧
    Claims.CopySpace (copying 1) page ownPage 16 ∧ Claims.copiesDone (copying 1) ∧ Claims.dims (copying 1) 4 = [(8, 2)] ∧ Claims.extent [(8, 2)] = 2 ∧
    elemType (copying 1) 4 = some (.int 64 true) ∧ Claims.Inside ownPage 0x20000000 16 ∧
    (∀ q, q < 2 → Claims.copySrc (copying 1) false 8 21 4 q = 0x10000000 + 8 * q ∧ Claims.copyDst (copying 1) false 8 20 4 q = 0x20000000 + 8 * q) ∧
    (∀ q, q < 2 → Claims.copySrc (copying 1) true 8 20 4 q = 0x20000000 + 8 * q ∧ Claims.copyDst (copying 1) true 8 21 4 q = 0x10000000 + 8 * q) :=
  ⟨copyReady _ (by simp) _ (by decide), copyCanonical, copySpace, copiesDone, by decide +kernel, by decide, by decide +kernel, by unfold Claims.Inside; decide,
    by decide +kernel⟩

theorem meets_copyIntoRing : (let r := (copying 1).st.streams[2]
    r.kind = 1 ∧ 4096 ≤ r.rsize.toNat ∧ r.rbase.toNat + r.rsize.toNat ≤ Config.spadBytes ∧ r.rbase.toNat % 512 = 0 ∧ r.rsize.toNat % 512 = 0 ∧
    r.consumed.toNat ≤ r.arrived.toNat ∧ r.arrived.toNat + 2 * 4 ≤ r.consumed.toNat + r.rsize.toNat) ∧
    Claims.Ready (copying 1) (.xcopy false .w 1 .none 2 21 4) ∧ page.base + page.size ≤ Config.spadBase + 0x1000 :=
  ⟨by decide +kernel, copyReady _ (by simp) _ (by decide), by decide +kernel⟩

/-- The index register with the one index 2. -/
def rows : State := setReg (copying 1) 5 { tag := 4, ext := 64, data := [(0, 2)] }
theorem meets_copyRows : Claims.Ready rows (.xgath 1 .none 22 21 5) ∧ elemType rows 5 = some (.int 64 true) ∧ (rows.readX 22).toNat / 2 ^ 18 % 2 ^ 18 = 8 ∧
    Claims.gathered rows 0 ∧ Claims.CopySpace rows page ownPage (1 * 8 + 8) ∧ Claims.copiesDone rows ∧ Claims.Canonical rows ∧
    Claims.off (rows.readX 21) (intOf (.int 64 true) (elemAt rows 5 8 0) * 1 * 8) = 0x10000010 ∧ Claims.Inside page 0x10000010 8 ∧
    page.base + page.size ≤ Config.spadBase :=
  ⟨by constructor <;> decide +kernel, by decide +kernel, by decide +kernel, by unfold Claims.gathered; decide +kernel,
    by constructor <;> first | unfold Claims.NoLog; decide +kernel | decide +kernel, fun n _ => noCopyOut _ rfl rfl rfl n, by constructor <;> decide +kernel,
    by decide +kernel, by unfold Claims.Inside; decide, by decide +kernel⟩

/-- Slot 5 holds a routine; the strand has a copy error on channel 1. -/
def routine : State :=
  let s := setCore (copying 1) 0 { tlb := [page] }
  withSt { s with press := { s.press with slots := [(5, List.replicate 70 5)] } } fun t => { t with copyErr := t.copyErr.set 1 (some (6, 7)) }

theorem meets_routinesDrain : sget [] routine.press.slots 5 ≠ [] ∧ (routine.readX 23).toNat = 5 ∧ (routine.readX 21).toNat % 64 = 0 ∧
    Claims.Inside page 0x10000000 64 ∧ (∀ e ∈ routine.press.engines, e.1 ≠ 1) ∧ sget [] (copying 1).press.slots 5 = [] ∧
    Claims.MemSpace routine page 8 ∧ Claims.Ready (copying 1) (.xdrain 1) ∧ Claims.copiesDone (copying 1) ∧ (copying 1).st.copyErr[1] = none ∧
    routine.st.copyErr[1] = some (6, 7) ∧ Claims.Ready routine (.xxform 1 .none 21 23) ∧ Claims.Canonical routine ∧ Claims.Ready (copying 1) (.xxform 1 .none 21 23) :=
  ⟨by decide +kernel, by decide +kernel, by decide +kernel, by unfold Claims.Inside; decide, by decide +kernel, by decide +kernel,
    by constructor <;> first | unfold Claims.NoLog; decide +kernel | decide +kernel,
    copyReady _ (by simp) _ (by decide), copiesDone, by decide +kernel, by decide +kernel, by constructor <;> decide +kernel, by constructor <;> decide +kernel,
    copyReady _ (by simp) _ (by decide)⟩

/-- A command of channel 1 in the core's queue, and a copy's write to the host still out: XDRAIN waits. -/
def drainHeld : State := modCore (copying 1) 0 fun k => { k with accepted := 1, commands := [{ num := 0, strand := 0, ctx := 1, chan := 1, ord := .none, kind := .xxform 5 0x10000000, lo := 0, hi := 1, writes := false }] }
def late : State := { copying 1 with links := { (copying 1).links with hostLate := [(0, true)] } }
theorem meets_routinesDrain_waits : drainHeld.st.viq = [] ∧ drainHeld.st.park = 0 ∧ drainHeld.lag = false ∧ drainHeld.st.await = 0 ∧
    (getCore drainHeld (curCore drainHeld)).upsets = [] ∧ drainHeld.st.bad = [] ∧
    (∃ m ∈ (getCore drainHeld (curCore drainHeld)).commands, m.chan = 1 ∧ m.num < (BitVec.ofNat 64 (getCore drainHeld (curCore drainHeld)).accepted).toNat) ∧
    (0 ∈ strandsOf (curCore late)) ∧ Claims.CopyOut late 0 :=
  ⟨by decide +kernel, by decide +kernel, by decide +kernel, by decide +kernel, by decide +kernel, by decide +kernel, by decide +kernel, by decide +kernel, .inl (.head _)⟩

theorem meets_chainSend : Claims.Ready chained (.xchain 1 27) ∧ (chained.readX 27).toNat % 2 ^ 12 = 9 ∧ (chained.readX 27).toNat / 2 ^ 12 % 4 = 3 ∧
    (getStrand chained 9).streams[3].kind = 2 ∧ (getStrand chained 9).streams[3].peer.toNat = chained.cur.val ∧ (getStrand chained 9).streams[3].msgs = [] ∧
    0 < Claims.vl chained ∧ Claims.vl chained ≤ 8 * (128 * laneGroups (getCore chained (curCore chained)) / 4) :=
  ⟨copyReady _ (by simp) _ (by decide), by decide +kernel⟩

theorem meets_chainProducer : chainBit (.vadd true false 3 1 (.vv 2)) = true ∧ ints.st.viq = [] ∧ ints.lag = false ∧ ints.st.await = 0 := by decide +kernel

/-! ## Witnesses: the launch processor -/

/-- Context 1 in a state, its frames at 0x1100_0000, 4 of them; nothing resident; a queue 5 of context 1, ACTIVE, DONE 2, next 3, fetching at
0x1000_1000. -/
def device (st : Nat) : State :=
  let s := words machine [(0x80, st), (0xB0, 0x11000000), (0xB8, 4)]
  holdState { s with cycle := 99, st := {} } 1 st
/-- The machine without power: its host port does not answer. -/
def cut (s : State) : State := { s with daleel := { s.daleel with powered := false } }
theorem cut_serves (s : State) : ¬ Claims.Serves (cut s) := fun h => absurd h.1 (by simp [cut])
def queue5 : Queue := { qctl := 0x12100, stat := 1, tail := 10, next := 3, done := 2, fetch := 0x10001000 }
def withQueue (v : Queue) (l : List (Nat × Nat)) : State := setQueue (words (device 1) l) 5 v

theorem deviceSpace (s : State) (h : (s.lines.tlb = [(0, page)] ∧ s.lines.vat = [] ∧ s.lines.tags = [] ∧ (s.poison = [] ∧ s.lines.rdcBad = []) ∧ (∀ d : Fin 4, s.daleel.dies[d.val] = .up) ∧
    s.watches = []) ∧ ctxUsable s 1 = true ∧ descAddr s 1 = 0x80) (n : Nat) (hn : n ≤ 8192) : Claims.Device s 1 page n := by
  obtain ⟨⟨ht, hv, hg, hp, hd, hw⟩, hu, ha⟩ := h
  refine ⟨ht, rfl, by decide, by decide +kernel, by decide, ⟨rfl, hp.2, hp.1, by simp [hv]⟩, hd, ?_, hw, ?_, hu, by rw [ha]; decide, by rw [ha]; decide⟩
  · unfold Claims.NoLog; simp [hg]
  · rw [hv, hg]; exact ⟨Nat.le_trans (Nat.add_le_add_left hn _) (by decide +kernel), Nat.le_trans (Nat.add_le_add_left hn _) (by decide +kernel)⟩

theorem meets_queueRegisters : Claims.Canonical (withQueue queue5 []) ∧ (getQueue (withQueue queue5 []) 5).stat = 1 ∧ queue5.qctl.getLsbD 12 = false ∧
    queue5.tail.toNat ≤ 10 ∧ 9 < queue5.tail.toNat ∧ (getQueue (device 1) 5).stat = 0 ∧ Claims.Serves (withQueue queue5 []) ∧ Claims.Serves (device 1) ∧
    ¬ Claims.Serves (cut (withQueue queue5 [])) :=
  ⟨by constructor <;> decide +kernel, by decide +kernel, by decide, by decide, by decide, by decide +kernel, by unfold Claims.Serves; decide +kernel,
    by unfold Claims.Serves; decide +kernel, cut_serves _⟩

/-- Entries at the fetch address: a WRITE, a LAUNCH with a header of 2 items, a CHAIN, a fence, and one of an unlisted KIND. -/
def fetching (kind arg : Nat) : State := withQueue { queue5 with done := 2 }
  ([(0x4001000, 0x200 + kind), (0x4001028, arg)] ++ (if kind = 1 then [(0x4002000, 0x10010000), (0x4002028, 0x10000)] else []))
theorem meets_entryFetch : Claims.Device (fetching 2 0x10003000) (getQueue (fetching 2 0x10003000) 5).ctx page 8 ∧ Claims.Inside page 0x10001000 64 ∧
    (∀ p ∈ [(2, 0x10003000), (4, 0), (3, 0x10001000), (1, 0x10002000)], (Claims.entryAt (fetching p.1 p.2) page 5).kind = p.1 ∧
      (Claims.entryAt (fetching p.1 p.2) page 5).waits = []) ∧
    headerError (memRead (fetching 1 0x10002000).mem (Claims.keyAt page 0x10002000) 128) = 0 ∧
    Claims.EntryOk (fetching 1 0x10002000) page 0x10001000 ∧ Claims.EntryOk (fetching 2 0x10003000) page 0x10001000 ∧
    Claims.EntryOk (fetching 3 0x10001000) page 0x10001000 ∧ Claims.EntryOk (fetching 4 0) page 0x10001000 ∧
    ¬ Claims.EntryOk (fetching 5 0) page 0x10001000 ∧ (getQueue (fetching 1 0) 5).next ≤ (getQueue (fetching 1 0) 5).tail.toNat :=
  ⟨deviceSpace _ (by decide +kernel) 8 (by decide),
    by unfold Claims.Inside; decide, by decide +kernel, by decide +kernel, by unfold Claims.EntryOk; decide +kernel, by unfold Claims.EntryOk; decide +kernel,
    by unfold Claims.EntryOk; decide +kernel, by unfold Claims.EntryOk; decide +kernel, by unfold Claims.EntryOk; decide +kernel, by decide +kernel⟩

/-- A fence that waits for its own number. -/
def selfWait : State := withQueue { queue5 with done := 2 } [(0x4001000, 0x204), (0x4001008, 2 ^ 63 + 5), (0x4001010, 3)]
theorem meets_entryFetch_self : Claims.EntryOk selfWait page 0x10001000 ∧ (Claims.entryAt selfWait page 5).waits = [(5, 3)] ∧ (getQueue selfWait 5).next = 3 :=
  ⟨by unfold Claims.EntryOk; decide +kernel, by decide +kernel⟩

/-- An entry of sequence 3, WRITE to 0x1000_3000. -/
def entry3 : QEntry := { id := 1, ctx := 1, seq := 3, addr := 0, kind := 2, rscope := 1, overlap := false, waits := [], arg0 := 0x10003000, arg1 := 77 }
def holding (e : QEntry) : State := withQueue { queue5 with next := 4, entries := [e] } []
def waiting7 : QEntry := { entry3 with kind := 4, waits := [(7, 3)] }
theorem holdingSpace : Claims.Device (holding entry3) 1 page 8 :=
  deviceSpace _ (by decide +kernel) 8 (by decide)
theorem meets_entryStart : Claims.Device (holding entry3) 1 page 8 ∧ (getQueue (holding entry3) 5).entries = entry3 :: [] ∧ (getQueue (holding entry3) 5).done.toNat + 1 = entry3.seq ∧
    Claims.Inside page 0x10003000 8 ∧ (getQueue (holding entry3) 5).cwaddr = 0 ∧ (getQueue (setQueue (holding waiting7) 7 { stat := 2 }) 7).stat = 2 ∧
    (getQueue (holding waiting7) 7).stat = 0 ∧ ¬ 3 ≤ (getQueue (holding waiting7) 7).done.toNat ∧
    (getQueue (setQueue (holding waiting7) 7 { stat := 2 }) 7).done.toNat < 3 ∧ (getQueue (holding { entry3 with poison := true }) 5).entries.map (fun e => (e.poison, e.old, e.stage)) = [(true, false, .waiting)] ∧
    Claims.Canonical (holding entry3) :=
  ⟨holdingSpace, by decide +kernel, by decide +kernel, by unfold Claims.Inside; decide, by decide +kernel, by decide +kernel, by decide +kernel, by decide +kernel,
    by decide +kernel, by decide +kernel, by constructor <;> decide +kernel⟩

/-- The entry's items have ended; the completion word is at 0x1000_4000; with a write to a peer out. -/
def ending (rscope : Nat) : State := withQueue { queue5 with next := 4, cwaddr := 0x10004000, entries := [{ entry3 with kind := 1, stage := .placed, rscope }] } []
def peerOut (s : State) : State := { s with links := { s.links with ports := [(0, { waiting := [{ node := 1, export_ := 0, offset := 0, op := .write [0], strand := 0, va := 0, copy := false, id := 0, ctx := 1 }] })] } }
theorem noneAway (s : State) (hp : s.links.ports = []) (ho : s.links.outbox = []) (hl : s.links.hostLate = []) : ¬ Claims.WritesAway s := by
  simp [Claims.WritesAway, Claims.OnWire, hp, ho, hl]
theorem meets_entryComplete : Claims.Device (ending 3) 1 page 8 ∧ (getQueue (ending 3) 5).cwaddr ≠ 0 ∧ Claims.Inside page 0x10004000 8 ∧
    ¬ Claims.WritesAway (ending 3) ∧ Claims.WritesAway (peerOut (ending 3)) ∧ Claims.Canonical (ending 3) :=
  ⟨deviceSpace _ (by decide +kernel) 8 (by decide),
    by decide +kernel, by unfold Claims.Inside; decide, noneAway _ rfl rfl rfl, .inr ⟨_, [0], .inl ⟨_, .head _, .head _⟩, rfl⟩, by constructor <;> decide +kernel⟩

/-- The header of 2 items, and an entry whose last item is to be placed. -/
def header2 : Launch := { entry := 0x10010000, wfld := 0, widths := List.replicate 6 0, scopes := List.replicate 6 0, extents := [2, 1, 1, 1, 1, 1], wdog := 0, vshare := 0, acch := 0, vrfh := 16, stkbase := 0x12000000, stksize := 0x1000, slots := 0 }
def placing : State := withQueue { queue5 with next := 4, entries := [{ entry3 with kind := 1, stage := .placing, next := 1, launch := some header2 }] } []
theorem meets_placeItem : Claims.Device placing 1 page 8 ∧ Claims.Canonical placing ∧ placing.lp.queues.map (·.1) = [5] ∧ header2.scopes = List.replicate 6 0 ∧
    header2.wfld.toNat < 2 ^ 60 ∧ fieldScopes header2.wfld = List.replicate 6 0 ∧ (getCore placing 0).disable = 0 ∧ 1 < header2.items ∧ placing.lp.order = [] ∧ placing.lp.resid = [] ∧
    placing.lp.groups = [] ∧ placing.others = [] ∧ placing.st.resident = false ∧ ctxState placing 1 = 1 :=
  ⟨deviceSpace _ (by decide +kernel) 8 (by decide),
    by constructor <;> decide +kernel, by decide +kernel⟩

/-- Context 1 runs one strand from queue 5, whose SLICE of 1 it has run, or of none; in queue 6, context 2 waits for more accumulators than a core has. -/
def slicedEntry : QEntry := { entry3 with kind := 1, stage := .placed, live := 1 }
def slicedAlone (slice : Nat) : State :=
  let s := setQueue (holdState (atPa (device 2) 0x100 1) 2 1) 5 { queue5 with qctl := BitVec.ofNat 64 (slice * 2 ^ 32 + 0x12100), entries := [slicedEntry] }
  { s with st := { resident := true, ctx := 1 }, cycle := 70000 }
def sliced : State :=
  setQueue (slicedAlone 1) 6 { queue5 with qctl := 0x22100, entries := [{ entry3 with id := 2, ctx := 2, kind := 1, stage := .placing, launch := some { header2 with acch := 33 } }] }
theorem meets_timeSlice : Claims.Canonical sliced ∧ Claims.Device sliced 1 page 8 ∧ ctxState sliced 1 = 2 ∧ (∀ a ∈ sliced.lp.active, a.2 ≠ 3) ∧
    (strandsWhere sliced fun t => t.resident ∧ t.ctx = 1).length ≤ ctxFrCount sliced 1 ∧
    ((getQueue sliced 5).entries.find? fun x => decide (x.live ≠ 0 ∧ 1 * 65536 ≤ (sliced.cycle - x.began).toNat)) = some slicedEntry ∧
    waitsFor sliced 1 slicedEntry = true ∧ waitsFor (slicedAlone 1) 1 slicedEntry = false ∧
    (getQueue (slicedAlone 0) 5).qctl.toNat / 2 ^ 32 % 2 ^ 16 = 0 ∧ (getQueue sliced 5).qctl.toNat / 2 ^ 32 % 2 ^ 16 = 1 :=
  ⟨by constructor <;> decide +kernel, deviceSpace _ (by decide +kernel) 8 (by decide), by decide +kernel⟩

/-- The strand of context 1, in SAVING, with registers. -/
def saving1 : State :=
  let s := setCore (device 3) 0 { tlb := [page] }
  setx { s with st := { resident := true, ctx := 1, pc := 0x10010000, item := { wid := 7 } } } [(1, 11), (31, 3131)]
theorem meets_frameSave : Claims.FrameSpace saving1 page (ctxFrBase saving1 1) ∧ saving1.st.resident = true ∧ ctxState saving1 1 = 3 ∧ saving1.st.hold = [] ∧
    saving1.others = [] ∧ saving1.lp.saved = [] ∧ saving1.st.accum.poison = [] ∧ saving1.lp.groups = [] ∧ (∀ p ∈ saving1.links.ports, p.2.waiting = []) ∧
    (∀ p ∈ frameParts saving1.cur.val saving1.st, p.1 + p.2.length ≤ 0x48000) ∧ saving1.st.accum.flight = [] ∧ saving1.st.signals = [] ∧
    (getCore saving1 0).commands = [] ∧ (withSt saving1 fun t => { t with signals := [(4, true)] }).st.signals ≠ [] ∧ saving1.links.outbox = [] ∧
    saving1.links.hostLate = [] ∧ Claims.Canonical saving1 ∧ Claims.StrandWrites { saving1 with links := { saving1.links with hostLate := [(0, true)] } } 0 :=
  ⟨⟨deviceSpace _ (by decide +kernel) 8192 (by decide),
      by decide +kernel, by decide, by unfold Claims.Inside; decide +kernel, by decide +kernel⟩,
    by decide +kernel, by decide +kernel, by decide +kernel, by decide +kernel, by decide +kernel, by decide +kernel, by decide +kernel, by decide +kernel,
    by decide +kernel, by decide +kernel, by decide +kernel, by decide +kernel, by decide +kernel, by decide +kernel, by decide +kernel,
    by constructor <;> decide +kernel, .inl ⟨(0, true), .head _, rfl⟩⟩

/-- A frame of one item with pc 0x1001_0000 and x1 11, whose slot directory is free. -/
def framed : State :=
  let s := words machine ([(0x80, 4), (0xB0, 0x11000000), (0xB8, 4), (0x5000000, 0x10), (0x5000008, 0x10010000), (0x5000108, 11)] ++
    (List.range 128).map fun k => (0x5001000 + 8 * k, 0x800000008000))
  let s := setCore { s with st := {} } 0 {}
  { s with lp := { s.lp with order := [1], active := [(1, 4)], saved := [{ ctx := 1, frame := 0, item := { wid := 7 }, num := 0, copyErr := Vector.replicate 4 none, accErr := none }] } }
theorem listed (m : List Host.Cell) (a : Nat) (h : m.all (fun c => c.1 != a) = true) : memByte m a = 0 := by
  induction m with
  | nil => rfl
  | cons c m ih =>
    simp only [List.all_cons, Bool.and_eq_true, bne_iff_ne] at h
    simp only [memByte, sget] at *
    split
    · exact absurd ‹_› h.1
    · exact ih h.2
theorem framed_res : ∀ r ∈ [(0x80, 0x80), (0xD00, 0x300), (0x1400, 0xC00), (0x6000, 0x2000)], ∀ b, b < r.2 → memByte framed.mem (0x5000000 + r.1 + b) = 0 := by
  intro r hr b hb
  apply listed
  have h : framed.mem.all (fun c => [(0x80, 0x80), (0xD00, 0x300), (0x1400, 0xC00), (0x6000, 0x2000)].all fun r => decide (c.1 < 0x5000000 + r.1 ∨ 0x5000000 + r.1 + r.2 ≤ c.1)) = true := by decide +kernel
  refine List.all_eq_true.2 fun c hc => ?_
  have := of_decide_eq_true (List.all_eq_true.1 (List.all_eq_true.1 h c hc) r hr)
  simp only [bne_iff_ne]
  omega
theorem meets_frameRestore : Claims.Device framed 1 page 8192 ∧ Claims.Inside page (ctxFrBase framed 1) 0x48000 ∧ framed.lp.saved.map (·.ctx) = [1] ∧ ctxState framed 1 = 4 ∧
    framed.lp.queues = [] ∧ framed.lp.resid = [] ∧ framed.others = [] ∧ framed.st = {} ∧ getCore framed 0 = {} ∧
    Claims.number framed 0x5000000 8 / 2 ^ 16 % 2 ^ 7 = 0 ∧ (∀ k, k < 32 → Claims.number framed (0x5000040 + 2 * k) 2 = 0) ∧ Claims.number framed 0x5000208 8 = 0 ∧
    (∀ k, k < 256 → Claims.number framed (0x5001000 + 4 * k) 2 = 0x8000) ∧ framed.lp.groups = [] ∧ framed.lp.saved.map (fun w => (w.frame, w.item.vrfh, w.item.acch)) = [(0, 0, 0)] ∧
    frameValid (BitVec.ofNat 64 (Claims.number framed 0x5000000 8)) (fun k => BitVec.ofNat 64 (Claims.number framed (0x5000200 + 8 * k) 8))
      (fun k => BitVec.ofNat 64 (Claims.number framed (0x5000C00 + 8 * k) 8)) = true ∧ Claims.keyAt page (ctxFrBase framed 1) = 0x5000000 :=
  ⟨deviceSpace _ (by decide +kernel) 8192 (by decide),
    by unfold Claims.Inside; decide +kernel, by decide +kernel⟩

/-- A running strand of context 1, with the entry its item belongs to. -/
def runningItem : State :=
  let s := setQueue (device 2) 5 { queue5 with next := 4, entries := [{ entry3 with kind := 1, stage := .placed, live := 1 }] }
  { s with st := { resident := true, ctx := 1, pc := 0x10010000, item := { queue := 5, entry := 1 } } }
theorem meets_watchdog : Claims.Device runningItem 1 page 8 ∧ Claims.Canonical runningItem ∧ runningItem.st.viq = [] ∧ ctxState runningItem 1 = 2 ∧
    runningItem.st.resident = true ∧ runningItem.st.park = 0 ∧ runningItem.st.priv = false ∧ (priv runningItem).st.priv = true ∧
    (getStrand runningItem 4095).resident = false :=
  ⟨deviceSpace _ (by decide +kernel) 8 (by decide),
    by constructor <;> decide +kernel, by decide +kernel⟩
/-- Its watchdog has counted its period of 4,096 units. -/
def barking : State := withSt runningItem fun t => { t with dogRan := 2 ^ 32 }
theorem meets_watchdog_expired : Claims.dogCount runningItem < Claims.dogLimit runningItem ∧ Claims.dogLimit barking ≤ Claims.dogCount barking ∧
    Claims.dogLimit (priv barking) ≤ Claims.dogCount (priv barking) ∧ Claims.dogLimit (withSt barking fun t => { t with item := { t.item with wdog := 1 } }) = 2 ^ 20 := by decide +kernel
/-- A command of its own, and a copy's write to the host, still out. -/
def exiting : State := { runningItem with links := { runningItem.links with hostLate := [(0, true)] } }
theorem meets_exit : ¬ Claims.CopyOut runningItem 0 ∧ Claims.CopyOut exiting 0 ∧ Claims.Canonical runningItem ∧ (getCore runningItem 0).commands = [] ∧ runningItem.st.item.groups = [] ∧ runningItem.others = [] ∧
    (getQueue runningItem 5).entries.map (·.id) = [runningItem.st.item.entry] ∧ (∀ k : Fin 4, runningItem.st.copyErr[k.val] = none) ∧
    (withSt runningItem fun t => { t with copyErr := t.copyErr.set 0 (some (6, 77)) }).st.copyErr[0] = some (6, 77) :=
  ⟨noCopyOut _ rfl rfl rfl 0, .inl (.head _), by constructor <;> decide +kernel, by decide +kernel⟩

/-- A held record and a ring of 64 records with room, and without. -/
def ringing (head : Word) : State := { machine with ev := { evbase := 0x10000, evsize := 6, evtail := 65, evhead := head, held := [{ kind := 2, reason := 1, ctx := 1, queue := 3, value := 4, addr := 5 }] } }
theorem meets_eventRing : ringRoom (ringing 2).ev = true ∧ ringRoom (ringing 1).ev = false ∧ machine.ev.held = [] ∧ Claims.Serves machine ∧ ¬ Claims.Serves (cut machine) :=
  ⟨by decide +kernel, by decide +kernel, by decide +kernel, by unfold Claims.Serves; decide +kernel, cut_serves _⟩

/-! ## Witnesses: doorbells and units -/

/-- The vines of context 1, which runs; a strand waits for the service of vine 1, and a service and a release record wait; queues at
0x1010_0000 and 0x1040_0000, with room or full. -/
def serving (tail : Nat) : State :=
  let s := holdState (atPa (atPa (atPa (atPa vines 0x80 2) 0xA0 0x10100000) 0x4100008 tail) 0x4400008 tail) 1 2
  setStrand s 9 { resident := true, ctx := 1, park := 4, wait := .vine 1 }
def withRecords (s : State) : State := { s with waitSvc := [(1, 1, [w64 (2 ^ 32 + 3), 7, 9])], waitRel := [(2, 1, [3, 7, 9])] }
theorem servingSpace : Claims.VineSpace (serving 0) page := by constructor <;> decide +kernel
theorem servingOpen : Claims.OpenVine (serving 0) page 1 16 := by
  have p : Claims.poolNo (serving 0) page 1 = 3 := by decide +kernel
  refine ⟨?_, by decide +kernel, p ▸ ?_, by unfold Claims.Inside; decide +kernel⟩
  · refine ⟨by unfold Claims.Inside; decide +kernel, ?_, ?_, ?_⟩ <;> decide +kernel
  · refine ⟨by unfold Claims.Inside; decide +kernel, ?_, ?_, ?_, ?_, ?_⟩ <;> decide +kernel
/-- A reserved word of both headers is 1. -/
def badHeaders : State := withRecords (atPa (atPa (serving 0) 0x4100018 1) 0x4400038 1)
theorem meets_unpark : ctxState (serving 0) 1 = 2 ∧ (serving 0).waitSvc = [] ∧ (serving 0).waitRel = [] ∧ (serving 0).cows = [] ∧ curDie (serving 0) = 0 ∧
    (getStrand (serving 0) 9).resident = true ∧ (getStrand (serving 0) 9).wait = .vine 1 ∧ (getStrand (serving 0) 9).park = 4 ∧ Claims.vineStateOf (serving 0) page 1 = 1 ∧
    ctxState machine 1 = 0 ∧ Claims.Serves (serving 0) ∧ ¬ Claims.Serves (cut (serving 0)) ∧ Claims.VineDevice (serving 0) page 1 ∧ Claims.OpenVine (serving 0) page 1 16 ∧
    Claims.Canonical (serving 0) :=
  ⟨by decide +kernel, by decide +kernel, by decide +kernel, by decide +kernel, by decide +kernel, by decide +kernel, by decide +kernel, by decide +kernel, by decide +kernel,
    by decide +kernel, by unfold Claims.Serves; decide +kernel, cut_serves _, ⟨servingSpace, by decide +kernel, by decide +kernel, by decide +kernel, by decide +kernel⟩, servingOpen,
    by constructor <;> decide +kernel⟩
theorem meets_polls : (withRecords (serving 0)).waitSvc.map (·.2.1) = [1] ∧ ctxSvcq (serving 0) 1 = 0x10100000 ∧ ctxRelq (serving 0) 1 = 0x10400000 ∧
    Claims.qRoom (withRecords (serving 0)) page 0x10100000 ∧ ¬ Claims.qRoom (withRecords (serving 16)) page 0x10100000 ∧
    Claims.qRoom (withRecords (serving 0)) page 0x10400000 ∧ ¬ Claims.qRoom (withRecords (serving 16)) page 0x10400000 ∧
    Claims.Inside page 0x10100000 (64 + 32 * 65536) ∧ Claims.Inside page 0x10400000 (64 + 32 * 65536) ∧ Claims.Apart [(0x10100000, 64 + 32 * 65536), Claims.descRange (serving 0) 1] ∧
    (serving 0).waitSvc = [] ∧ Claims.qHeader (withRecords (serving 0)) page 0x10100000 ∧ Claims.qHeader (withRecords (serving 16)) page 0x10100000 ∧
    Claims.qHeader (withRecords (serving 0)) page 0x10400000 ∧ ¬ Claims.qHeader badHeaders page 0x10100000 ∧ ¬ Claims.qHeader badHeaders page 0x10400000 ∧
    Claims.VineSpace (withRecords (serving 0)) page ∧ Claims.VineSpace badHeaders page :=
  ⟨by decide +kernel, by decide +kernel, by decide +kernel, by unfold Claims.qRoom; decide +kernel, by unfold Claims.qRoom; decide +kernel, by unfold Claims.qRoom; decide +kernel,
    by unfold Claims.qRoom; decide +kernel, by unfold Claims.Inside; decide, by unfold Claims.Inside; decide, by unfold Claims.Apart; decide +kernel, by decide +kernel,
    by unfold Claims.qHeader; decide +kernel, by unfold Claims.qHeader; decide +kernel, by unfold Claims.qHeader; decide +kernel,
    fun h => absurd (h.2 3 (by decide) (by decide)) (by decide +kernel), fun h => absurd (h.2 7 (by decide) (by decide)) (by decide +kernel),
    by constructor <;> decide +kernel, by constructor <;> decide +kernel⟩
/-- The counts of pages 7, 8 and 9: 1, 2 and 0xFFFF. -/
theorem meets_vineRequest : Claims.count vines page 3 7 = 1 ∧ Claims.count (atPa vines 0x4002010 0xFFFF0002) page 3 8 = 2 ∧
    Claims.count (atPa vines 0x4002010 0xFFFF0002) page 3 9 = 0xFFFF ∧ Claims.Inside page (Claims.countAt vines page 3 9) 2 ∧ Claims.countAt vines page 3 9 % 2 = 0 :=
  ⟨by decide +kernel, by decide +kernel, by decide +kernel, by unfold Claims.Inside; decide +kernel, by decide +kernel⟩

/-- A running strand whose VIQ holds one instruction, of `vl` elements. -/
def withHead (s : State) (i : Instr) : State := { holdState (atPa s 0x80 2) 1 2 with st := { s.st with viq := [{ viqEntry i s with addr := 0x10010000 }] } }
theorem head (s : State) (i : Instr) (e : VEntry) (he : e = { viqEntry i s with addr := 0x10010000 }) (h1 : ctxState (withHead s i) s.st.ctx = 2) (h2 : s.st.resident = true)
    (h3 : s.st.park = 0) (h4 : ∀ d : Fin 4, s.daleel.dies[d.val] = .up) (h5 : chainBit i = false) (h6 : s.st.csr.vl.toNat ≤ 16384) (h7 : s.st.await = 0 ∧ s.st.yielded = false)
    (h8 : (getCore (withHead s i) (curCore (withHead s i))).upsets = []) (h9 : s.st.passed = 0 ∧ s.st.bad = []) : Claims.Head (withHead s i) e := by
  subst he
  exact ⟨rfl, ⟨h2, h1⟩, h3, h4, h5, ⟨rfl, h6⟩, ⟨h9.1, h7⟩, ⟨h8, h9.2, rfl⟩⟩
def adding : State := withHead ints (.vadd false false 5 1 (.vv 2))
theorem meets_strips : Claims.Head adding { viqEntry (.vadd false false 5 1 (.vv 2)) ints with addr := 0x10010000 } ∧
    (Claims.arithEffect adding (.vadd false false 5 1 (.vv 2))).isSome = true ∧ Claims.lo adding < Claims.vl adding ∧
    Claims.OneStrip adding 64 ∧ Claims.Fresh adding { viqEntry (.vadd false false 5 1 (.vv 2)) ints with addr := 0x10010000 } ∧ Claims.Canonical adding ∧ 0 < adding.st.deficit + (adding.st.csr.vshare.toNat * 64 : Nat) ∧
    adding.cur.val = 4 * 0 + (getCore adding 0).visit.val ∧ (getStrand machine 4095).viq = [] :=
  ⟨head ints _ _ rfl (by decide +kernel) (by decide +kernel) (by decide +kernel) (by decide +kernel) (by decide) (by decide +kernel) (by decide +kernel) (by decide +kernel) (by decide +kernel),
    by decide +kernel, by decide +kernel, by unfold Claims.OneStrip; decide +kernel, by unfold Claims.Fresh; decide +kernel, by constructor <;> decide +kernel, by decide +kernel⟩

/-- A load and a store at the head; and a VADD of 2,000 elements, on a deficit of one strip. -/
def loadHead : State := withHead vmems (.vld false 0 1 9)
def storeHead : State := withHead vmems (.vst false 0 1 9)
def longAdd : State := withSt (withHead (vecOn ints 0 2000 [0, 3, 3, 3, 3, 3, 3, 3]) (.vadd false false 5 1 (.vv 2))) fun t => { t with deficit := -63 }
theorem meets_strips_memory : (∃ F, Claims.loadForm loadHead (.vld false 0 1 9) = some F ∧ F.regs.length = 1 ∧ Claims.Within loadHead page F) ∧
    (∃ F, Claims.storeForm storeHead (.vst false 0 1 9) = some F ∧ F.regs.length = 1 ∧ Claims.Within storeHead page F) ∧
    Claims.Head loadHead { viqEntry (.vld false 0 1 9) vmems with addr := 0x10010000 } ∧ Claims.Head storeHead { viqEntry (.vst false 0 1 9) vmems with addr := 0x10010000 } ∧
    Claims.MemSpace loadHead page 0 ∧ Claims.MemSpace storeHead page (3 + 8) ∧ Claims.OneStrip loadHead 64 ∧ Claims.OneStrip storeHead 64 :=
  ⟨⟨_, rfl, rfl, within_sound _ _ (by decide +kernel)⟩, ⟨_, rfl, rfl, within_sound _ _ (by decide +kernel)⟩,
    head vmems _ _ rfl (by decide +kernel) (by decide +kernel) (by decide +kernel) (by decide +kernel) (by decide) (by decide +kernel) (by decide +kernel) (by decide +kernel) (by decide +kernel),
    head vmems _ _ rfl (by decide +kernel) (by decide +kernel) (by decide +kernel) (by decide +kernel) (by decide) (by decide +kernel) (by decide +kernel) (by decide +kernel) (by decide +kernel),
    by constructor <;> first | (unfold Claims.NoLog; decide +kernel) | decide +kernel,
    by constructor <;> first | (unfold Claims.NoLog; decide +kernel) | decide +kernel, by unfold Claims.OneStrip; decide +kernel, by unfold Claims.OneStrip; decide +kernel⟩
theorem meets_strips_long : Claims.stripStop longAdd 32 = 1024 ∧ Claims.vl longAdd = 2000 ∧ 0 < laneGroups (getCore longAdd 0) ∧
    longAdd.st.deficit + (longAdd.st.csr.vshare.toNat * 64 : Nat) = 1 ∧ elemType longAdd 5 = some (.int 32 true) ∧
    (Claims.arithEffect (longAdd.modCsr fun x => { x with vl := BitVec.ofNat 64 1024 }) (.vadd false false 5 1 (.vv 2))).isSome = true := by decide +kernel

/-- The next state, if there is one. -/
def nextOf : Host.Outcome State Fault Refusal → Option State
  | .next t => some t
  | _ => none
/-- Strand 0 owns every slot of its core, and a TZERO is at its head. -/
def owning : State := withHead (modCore (tiled 1) 0 fun k => { k with slots := Vector.replicate 16 8, slotNow := 8 }) (.tzero 1)
theorem meets_engineStrip : wordOwner (getCore owning 0).slotNow = some 0 ∧ engineGranted (Claims.served owning) 0 = true ∧
    (Claims.served owning).st.accum.flight = [] ∧ 1 < Claims.tiles (Claims.served owning) ∧ Claims.Canonical owning ∧
    Claims.Head owning { viqEntry (.tzero 1) (modCore (tiled 1) 0 fun k => { k with slots := Vector.replicate 16 8, slotNow := 8 }) with addr := 0x10010000 } ∧
    Claims.TileOk (Claims.served owning) (.tzero 1) 1 ∧ Claims.Fresh owning { viqEntry (.tzero 1) (modCore (tiled 1) 0 fun k => { k with slots := Vector.replicate 16 8, slotNow := 8 }) with addr := 0x10010000 } ∧
    Claims.lastStrip (Claims.served owning) (.tzero 1) ∧ (nextOf (exec (.tzero 1) (Claims.served owning))).map (fun u => (u.st.viq, decide (u.st.trap = owning.st.trap))) = some ([], true) ∧
    (∀ i : Fin 4, ∀ x ∈ (getStrand adding (4 * 0 + i.val)).viq, needsEngine x.instr = false) :=
  ⟨by decide +kernel, by decide +kernel, by decide +kernel, by decide +kernel, by constructor <;> decide +kernel,
    head _ _ _ rfl (by decide +kernel) (by decide +kernel) (by decide +kernel) (by decide +kernel) (by decide) (by decide +kernel) (by decide +kernel) (by decide +kernel) (by decide +kernel),
    ⟨⟨⟨by constructor <;> decide +kernel, by decide +kernel, by decide +kernel, by decide +kernel⟩, by decide +kernel, rfl, ⟨rfl, rfl⟩, by decide +kernel⟩, by decide +kernel, by decide +kernel⟩,
    by unfold Claims.Fresh; decide +kernel, trivial, by decide +kernel, by decide +kernel⟩
/-- A strand that has executed YIELD. -/
theorem meets_strips_yield : (withSt adding fun t => { t with yielded := true }).st.viq ≠ [] := by decide +kernel
theorem meets_slotTurn : Claims.Canonical { owning with st := { owning.st with park := 0xA, wait := .slot } } := by constructor <;> decide +kernel

/-- An XCOPY at the head; a command accepted, not begun, and one that waits for its ring after its first element. -/
def accepting (n : Nat) : State :=
  let s := withHead (copying 1) (.xcopy false .w 1 (.flag .dv .acq) 20 21 4)
  modCore s 0 fun k => { k with commands := List.replicate n { num := 0, strand := 0, ctx := 1, chan := 1, ord := .none, kind := .xxform 0 0, lo := 0, hi := 0, writes := false } }
theorem meets_copyAccept : elemType (accepting 0) 4 = some (.int 64 true) ∧ ((copying 1).readX 20).toNat % 4 = 0 ∧ ((copying 1).readX 21).toNat % 4 = 0 ∧
    Claims.Inside ownPage 0x20000000 (max 1 (2 * 4)) ∧ ((getCore (accepting 15) 0).commands.filter fun m => m.chan = 1).length < 16 ∧
    16 ≤ ((getCore (accepting 16) 0).commands.filter fun m => m.chan = 1).length ∧ ctxState (accepting 0) 1 = 2 ∧
    (accepting 0).st.viq.map (fun e => (e.op0.toNat, e.op1.toNat)) = [(0x20000000, 0x10000000)] :=
  ⟨by decide +kernel, by decide +kernel, by decide +kernel, by unfold Claims.Inside; decide, by decide +kernel⟩
def oneCopy (ring : Option SReg) : Command := { num := 0, strand := 0, ctx := 1, chan := 1, ord := .none, kind := .xcopy false 4 0x20000000 0x10000000 ring [(8, 2)], lo := 0, hi := 0, writes := false, begun := ring.isSome, next := if ring.isSome then 1 else 0, base := 4092 }
def copyOut (ring : Option SReg) : State := modCore (copying 1) 0 fun k => { k with commands := [oneCopy ring] }
theorem meets_copyRuns : (∀ r : Option SReg, r = none ∨ r = some 2 → Claims.OneCopy (copyOut r) page ownPage (oneCopy r) 4 0x20000000 0x10000000 r [(8, 2)]) ∧ Claims.extent [(8, 2)] = 2 ∧
    (∀ q, q < 2 → (0x10000000 + BitVec.ofInt 48 (Claims.offset [(8, 2)] q)).toNat = 0x10000000 + 8 * q ∧ ((0x20000000 : VAddr) + BitVec.ofNat 48 (q * 4)).toNat = 0x20000000 + 4 * q) ∧
    (let r := (copyOut (some 2)).st.streams[2]
     r.consumed.toNat ≤ 4092 ∧ 4092 + 2 * 4 ≤ r.consumed.toNat + r.rsize.toNat ∧ r.kind = 1) := by
  refine ⟨?_, by decide, by decide +kernel⟩
  rintro r (rfl | rfl) <;> constructor <;> first | exact noCopyOut _ rfl rfl rfl _ | decide +kernel

def chaining (n : Nat) : State := setStrand (withHead (setx (vecOn (copying 1) 0 n [0, 3]) [(27, 9 + 3 * 2 ^ 12)]) (.xchain 1 27)) 9 { resident := true, ctx := 1, streams := Vector.replicate 4 { kind := 2, tag := 3, rsize := 4096, peer := 0 } }
theorem meets_chainGroup : (∀ n ∈ [5, 200], ctxState (chaining n) 1 = 2 ∧ elemType (chaining n) 1 = some (.int 32 true) ∧ Claims.vl (chaining n) = n ∧
    (getStrand (chaining n) 9).streams[3].msgs = [] ∧ (chaining n).st.viq.map (fun e => e.op0.toNat) = [9 + 3 * 2 ^ 12]) ∧ 128 * laneGroups (getCore (chaining 5) 0) / 4 < 200 ∧ 0 < 128 * laneGroups (getCore (chaining 5) 0) / 4 := by decide +kernel

def flying : State := withSt (tiled 1) fun t => { t with csr := { t.csr with tstat := 0x38 }, accum := { t.accum with flight := [{ tile := 1, save := true, va := 0x10000100, pages := [page] }] } }
theorem meets_transferEnd : Claims.MemSpace flying page 136 ∧ Claims.Inside page 0x10000100 0x4000 ∧ flying.st.csr.tstat.getLsbD 3 = true ∧ flying.st.accum.poison = [] :=
  ⟨by constructor <;> first | unfold Claims.NoLog; decide +kernel | decide +kernel,
    by unfold Claims.Inside; decide, by decide +kernel⟩

/-- A VWAIT at the head, read first at cycle 10, with a limit of 5 × 1,024 clocks; a WAITEV for cycle 5,130. -/
def waitingLong (cycle : Nat) : State :=
  let s := withHead vmems (.vwait .dv .eq false 0 2 10 4)
  { s with cycle := w64 cycle, st := { s.st with viq := s.st.viq.map fun e => { e with op1 := 5, since := some 10 } } }
theorem meets_deadlines : elemType (waitingLong 5130) 2 = some (.int 32 true) ∧ (Claims.index (waitingLong 5130) 2 4 0x10000000 4).isSome = true ∧
    Claims.number (waitingLong 5130) (page.key 0x10000000) 4 ≠ elemAt (waitingLong 5130) 2 4 0 ∧ 5 * 1024 ≤ ((waitingLong 5130).cycle - 10).toNat ∧
    (waitingLong 5130).st.viq.map (fun e => (e.op1.toNat, e.since, e.vl)) = [(5, some 10, 3)] ∧
    (setStrand (waitingLong 5130) 7 { wait := .timer 5130, park := 9 }).cycle.toNat = 5130 ∧ (waitingLong 5129).cycle.toNat < 5130 ∧
    Claims.MemSpace (waitingLong 5130) page 0 ∧ Claims.Canonical (waitingLong 5130) ∧
    within (waitingLong 5130) ⟨false, [2], 4, fun k _ => Claims.from_ 0x10000000 (intOf (.int 8 true) (elemAt (waitingLong 5130) 4 1 k) * 4), 8⟩ = true ∧
    (waitingLong 5130).st.viq.map (fun e => e.op0.toNat) = [0x10000000] :=
  ⟨by decide +kernel, by decide +kernel, by decide +kernel, by decide +kernel, by decide +kernel, by decide +kernel, by decide +kernel,
    by constructor <;> first | (unfold Claims.NoLog; decide +kernel) | decide +kernel, by constructor <;> decide +kernel, by decide +kernel, by decide +kernel⟩

/-! ## Witnesses: routines and pages -/

/-- An image of 8 bytes at 0x8_0000: its magic number, LENGTH 8, entry, version 1. -/
def pressing (stat : BitVec 2) (engines : List (Nat × Machine.Engine)) : State :=
  let s := words machine [(0x80000, 0x52584E4B), (0x80008, 8), (0x80018, 1)]
  { s with press := { s.press with rtaddr := 0x80000, slot := 5, stat, engines, slots := [(3, [1, 2, 3])] } }
def pressCommand : Command := { num := 4, strand := 0, ctx := 1, chan := 0, ord := .none, kind := .xxform 3 0x10000400, lo := 0, hi := 0, writes := false, begun := true, engine := some 0 }
def runner : Machine.Engine := { core := 0, num := 4, slot := 3, block := 0x10000400, mem := [(0x10000001, 7), (0x20000000, 9)] }
theorem meets_routineSlots : (pressing 1 []).press.stat = 1 ∧ (pressing 2 []).press.stat ≠ 1 ∧ (∀ e ∈ (pressing 2 []).press.engines, e.2.slot ≠ 3) ∧
    ¬ (∀ e ∈ (pressing 2 [(0, runner)]).press.engines, e.2.slot ≠ 3) ∧ (pressing 1 []).press.unload = false ∧
    (∀ e ∈ (pressing 1 []).press.engines, e.2.slot ≠ (pressing 1 []).press.slot) ∧ (∀ c ∈ (pressing 1 []).cores, ∀ m ∈ c.2.commands, usesSlot 5 m = false) ∧
    (∀ v ∈ (pressing 1 []).lines.vat, v.2.poison = false) ∧ (pressing 1 []).press.rtaddr.toNat + 128 + 65536 ≤ Config.gddrEnd ∧
    (pressing 1 []).poison = [] ∧ (∀ d : Fin 4, (pressing 1 []).daleel.dies[d.val] = .up) ∧ sparseWf ([] : List Byte) (pressing 1 []).press.slots = true ∧ Claims.Serves (pressing 2 []) ∧
    ¬ Claims.Serves (cut (pressing 2 [])) :=
  ⟨by decide +kernel, by decide +kernel, by decide +kernel, by decide +kernel, by decide +kernel, by decide +kernel, by decide +kernel, by decide +kernel, by decide +kernel,
    by decide +kernel, by decide +kernel, by decide +kernel, by unfold Claims.Serves; decide +kernel, cut_serves _⟩

/-- Engine 0 runs a routine for strand 0's one command. -/
def running : State :=
  let s := modCore (words machine [(0x4000010, 0x1122334455667788)]) 0 fun k => { k with commands := [pressCommand] }
  { s with press := { s.press with engines := [(0, runner)] } }
/-- A copy's write to the host, or its read there, is out. -/
def runningLate : State := { running with links := { running.links with hostLate := [(0, true)] } }
def runningReads : State := { running with links := { running.links with hostReads := [{ strand := 0, copy := true, va := 5, bytes := 4, addr := 0, ctx := 1 }] } }
theorem noRead (s : State) (hp : s.links.ports = []) (ho : s.links.outbox = []) (hr : s.links.hostReads = []) (n : Nat) : ¬ Claims.ReadOut s n := by
  simp [Claims.ReadOut, Claims.OnWire, hp, ho, hr]
theorem meets_routineServices_wait : sparseWf ([] : List (Nat × Byte)) running.press.stores = true ∧ ¬ Claims.CopyOut running 0 ∧ ¬ Claims.ReadOut running 0 ∧
    Claims.CopyOut runningLate 0 ∧ Claims.ReadOut runningReads 0 ∧ 0x20004000 < 0x20003FFF + 2 :=
  ⟨by decide +kernel, noCopyOut _ rfl rfl rfl 0, noRead _ rfl rfl rfl 0, .inl (.head _), .inl ⟨_, .head _, rfl, rfl⟩, by decide⟩
theorem meets_routineServices : Claims.Canonical running ∧ Claims.MemSpace running page (7 + 8) ∧
    Claims.Routine running page 0 runner pressCommand ∧
    Claims.LocalData 0x10000001 7 ∧ Claims.LocalData 0x2000_3FFF 1 ∧ Claims.Inside page 0x10000013 7 ∧ runner.block.toNat % 64 = 0 ∧ Claims.Inside page runner.block.toNat 64 :=
  ⟨by constructor <;> decide +kernel,
    by constructor <;> first | unfold Claims.NoLog; decide +kernel | decide +kernel,
    by constructor <;> first | exact ⟨3, 0x10000400, rfl⟩ | decide +kernel,
    by unfold Claims.LocalData; decide, by unfold Claims.LocalData; decide, by unfold Claims.Inside; decide, by decide, by unfold Claims.Inside; decide⟩

/-- Context 1's tables map 0x2003_0000 at 0x30_0000: its word at 0x20_0018. The page unit's addresses, and an argument. -/
def entry1 : Nat := 2 ^ 63 + 2 ^ 62 + 2 ^ 61 + 2 ^ 60 + 0x300000
def tables : State := words machine [(0x88, 0x8000), (0x8000, 2 ^ 63 + 0x100000), (0x100040, 2 ^ 63 + 0x200000), (0x200018, entry1)]
def paged (arg : Nat) : State := { tables with pages := { tables.pages with pgva := 0x20030000, pgarg := w64 arg } }
theorem pagedUnit (arg : Nat) (h : arg ∈ [0x500000, 2 ^ 63 + 2 ^ 62 + 2 ^ 61 + 0x300000, 2 ^ 63 + 2 ^ 62 + 2 ^ 61 + 2 ^ 58 + 0x300000]) : Claims.PageUnit (paged arg) 1 0x20030000 false 0x200018 entry1 := by
  have h2 : tables.links.ports = [] := by decide +kernel
  simp only [List.mem_cons, List.not_mem_nil, or_false] at h
  rcases h with rfl | rfl | rfl <;> constructor <;> first
    | exact ⟨by decide +kernel, by decide +kernel, fun p hp => absurd (h2 ▸ hp : p ∈ ([] : List (Nat × Port))) (by simp), by decide +kernel⟩
    | (unfold Claims.NoLog; decide +kernel)
    | decide +kernel
/-- The same with a line of the page cached, clean, and with one pinned by context 1. -/
def pagedWith (arg : Nat) (pin : Option (BitVec 12)) : State := { paged arg with lines := { tags := [{ line := 0x300080, entry := none, pin }] } }
theorem pagedWithUnit (arg : Nat) (pin : Option (BitVec 12)) (h : (arg, pin) ∈ [(2 ^ 63 + 2 ^ 62 + 2 ^ 61 + 2 ^ 58 + 0x300000, none), (0x500000, some 1)]) :
    Claims.PageUnit (pagedWith arg pin) 1 0x20030000 false 0x200018 entry1 := by
  have h2 : tables.links.ports = [] := by decide +kernel
  simp only [List.mem_cons, List.not_mem_nil, or_false, Prod.mk.injEq] at h
  rcases h with ⟨rfl, rfl⟩ | ⟨rfl, rfl⟩ <;> constructor <;> first
    | exact ⟨by decide +kernel, by decide +kernel, fun p hp => absurd (h2 ▸ hp : p ∈ ([] : List (Nat × Port))) (by simp), by decide +kernel⟩
    | (unfold Claims.NoLog; decide +kernel)
    | decide +kernel
/-- An UPDATE that sets DEDUP and an UNMAP with a clean line of the page in the L2; an UPDATE and a MOVE without one; a MOVE with one pinned. -/
theorem meets_pageCommands_lines : (∀ p ∈ [(2 ^ 63 + 2 ^ 62 + 2 ^ 61 + 2 ^ 58 + 0x300000, none), (0x500000, some 1)], Claims.PageUnit (pagedWith p.1 p.2) 1 0x20030000 false 0x200018 entry1) ∧
    Claims.CleanPage (pagedWith (2 ^ 63 + 2 ^ 62 + 2 ^ 61 + 2 ^ 58 + 0x300000) none) 0x200018 entry1 false ∧
    (∀ a, Claims.Uncached (paged a) entry1 false) ∧ pageOk (paged 0) (2 ^ 63 + 2 ^ 62 + 2 ^ 61 + 2 ^ 58 + 0x300000) 65536 = true ∧
    entryBit (2 ^ 63 + 2 ^ 62 + 2 ^ 61 + 2 ^ 58 + 0x300000) 58 ≠ entryBit entry1 58 ∧ pinCount (pagedWith 0x500000 (some 1)) 1 0x20030000 false entry1 ≠ 0 ∧
    Claims.InTiers 0x500000 65536 ∧ Claims.InTiers Config.cellarBase 65536 ∧ linePoisoned (paged 0) (descAddr (paged 0) 1) = false ∧
    Claims.Serves (paged 0) ∧ ¬ Claims.Serves (cut (paged 0)) ∧ (0x4001 : Nat) / 2 ^ 12 % 16 = 4 := by
  have h1 : tables.lines.tags = [] := by decide +kernel
  refine ⟨fun p h => pagedWithUnit p.1 p.2 h, by unfold Claims.CleanPage; decide +kernel, fun a t ht => absurd (h1 ▸ ht : t ∈ ([] : List L2Tag)) (by simp), by decide +kernel, by decide,
    by decide +kernel, .inl (by decide), .inr (by decide), by decide +kernel, by unfold Claims.Serves; decide +kernel, cut_serves _, by decide⟩
theorem meets_pageCommands : Claims.Canonical (paged 0) ∧ (∀ a ∈ [0x500000, 2 ^ 63 + 2 ^ 62 + 2 ^ 61 + 0x300000, 2 ^ 63 + 2 ^ 62 + 2 ^ 61 + 2 ^ 58 + 0x300000], Claims.PageUnit (paged a) 1 0x20030000 false 0x200018 entry1) ∧
    (paged 0).pages.stat ≠ 1 ∧
    (match pageWalk { paged 0 with pages := { pgva := 0x20040000 } } 1 0x20040000 false with | .error .absent => true | _ => false) = true ∧ (paged 0).pages.move = none ∧
    pageOk (paged 0) (2 ^ 63 + 2 ^ 62 + 2 ^ 61 + 0x300000) 65536 = true ∧ entryFrame (2 ^ 63 + 2 ^ 62 + 2 ^ 61 + 0x300000) = entryFrame entry1 ∧
    pinCount (paged 0) 1 0x20030000 false entry1 = 0 ∧ 0x500000 % 65536 = 0 ∧ 0x500000 ≠ entryFrame entry1 ∧ 0x500000 + 65536 ≤ Config.gddrEnd ∧
    pinCount { paged 0 with lines := { tags := [{ line := 0x300080, entry := none, pin := some 1 }] } } 1 0x20030000 false entry1 ≠ 0 :=
  ⟨by constructor <;> decide +kernel, pagedUnit, by decide +kernel, by decide +kernel, by decide +kernel, by decide +kernel, by decide,
    by decide +kernel, by decide, by decide, by decide, by decide +kernel⟩

/-- A top entry with L 1, and one in error. -/
theorem meets_pageCommands_walk : (match pageWalk (atPa (paged 0) 0x8000 (2 ^ 63 + 2 ^ 62 + 0x100000)) 1 0x20030000 false with | .error (.malformed a) => a | _ => 0) = 0x8000 ∧
    (match pageWalk { paged 0 with poison := [0x100040 / 4] } 1 0x20030000 false with | .error (.unread a) => a | _ => 0) = 0x100040 := by decide +kernel

def moving1 : Move := { ctx := 1, vpage := 0x20030000, large := false, entry := 0x200018, word := entry1, src := 0x300000, dst := 0x500000 }
def movingPage : State := { paged 0x500000 with pages := { move := some moving1 } }
theorem meets_moveEnds : Claims.Canonical movingPage ∧ movingPage.pages.move = some moving1 ∧ (paged 0).pages.move = none ∧ movingPage.lines.tags = [] ∧
    movingPage.lines.vat = [] ∧ movingPage.watches = [] ∧ moving1.src = entryFrame moving1.word ∧ moving1.dst + 65536 ≤ Config.gddrEnd ∧ moving1.entry + 8 ≤ moving1.src :=
  ⟨by constructor <;> decide +kernel, rfl, by decide +kernel, by decide +kernel, by decide +kernel, by decide +kernel, by decide, by decide, by decide⟩

/-- A move into the cellar. -/
def moving2 : Move := { moving1 with dst := Config.cellarBase }
theorem meets_moveEnds_cellar : Claims.InTiers moving2.src 65536 ∧ Claims.InTiers moving2.dst 65536 ∧ moving2.dst % 65536 = 0 ∧ moving2.entry + 8 ≤ moving2.dst ∧ moving2.dst ≠ moving2.src :=
  ⟨.inl (by decide), .inr (by decide), by decide, by decide, by decide⟩
/-- Region 2 is in use, with 4 segments, of which 3 is free; 1 and 2 hold 16 live sectors each. -/
def regioned : State := setRegion machine 2 { clctl := 0x108, clsegs := 4, clmap := 0x700000, clblks := 10, live := [(1, 16), (2, 17)], free := [0, 3] }
theorem meets_collector : Claims.Canonical regioned ∧ regionOn (getRegion regioned 2) = true ∧ regionOn (getRegion machine 2) = false ∧ regioned.lines.tags = [] ∧
    Claims.Collectable (getRegion regioned 2) 1 ∧ (∀ h, Claims.Collectable (getRegion regioned 2) h → sget 0 (getRegion regioned 2).live 1 < sget 0 (getRegion regioned 2).live h ∨
      (sget 0 (getRegion regioned 2).live 1 = sget 0 (getRegion regioned 2).live h ∧ 1 ≤ h)) ∧ (getRegion regioned 2).free ≠ [] ∧ sparseWf 0 (getRegion regioned 2).live = true ∧ Claims.Serves regioned ∧ ¬ Claims.Serves (cut regioned) := by
  refine ⟨by constructor <;> decide +kernel, by decide +kernel, by decide +kernel, by decide +kernel, by unfold Claims.Collectable; decide +kernel, ?_, by decide +kernel, by decide +kernel,
    by unfold Claims.Serves; decide +kernel, cut_serves _⟩
  intro h hh
  have h1 : h < 4 := Nat.lt_of_lt_of_eq hh.1 (by decide +kernel)
  have h2 : h ≠ 0 := fun e => hh.2.1 (e.trans (by decide +kernel))
  have key : ∀ h : Fin 4, h.val ≠ 0 → sget 0 (getRegion regioned 2).live 1 < sget 0 (getRegion regioned 2).live h.val ∨
      (sget 0 (getRegion regioned 2).live 1 = sget 0 (getRegion regioned 2).live h.val ∧ 1 ≤ h.val) ∨ (getRegion regioned 2).free.contains h.val = true := by decide +kernel
  rcases key ⟨h, h1⟩ h2 with k | k | k
  · exact .inl k
  · exact .inr k
  · exact absurd (hh.2.2.1.symm.trans k) (by decide)

theorem meets_walkEnds : Claims.NoLog tables ∧ tablePlace (ctxRoot tables 1) 0x8000 = true ∧ tables.lines.misses = [] ∧ (∀ v ∈ tables.lines.vat, v.2.poison = false) ∧ (∀ x ∈ tables.lines.tlb, x.1 = (3 : Fin 4) → x.2.maps 1 0x20030123 = false) ∧
    (∀ d : Fin 4, tables.daleel.dies[d.val] = .up) ∧ tables.poison = [] ∧ pageEntry tables 1 0x20030123 false = some (0x200018, entry1) ∧
    pageOk tables entry1 (pageBytes false) = true ∧ (tables.lines.tlb.filter fun x => decide (x.1 = (3 : Fin 4))).length < Config.dieTlb ∧ memNat tables.mem (ctxRoot tables 1 + 8 * 1) 8 / 2 ^ 63 = 0 :=
  ⟨by unfold Claims.NoLog; decide +kernel, by decide +kernel⟩
/-- A strand and a copy joined the walk of the page that is mapped, and of one that is not. -/
def joinedMiss (page : Nat) : State := { tables with lines := { tables.lines with misses := [{ die := 3, ctx := 1, page, waiters := [.strand 0, .strand 7] }] } }
theorem meets_walkEnds_joined : (∀ m ∈ (joinedMiss 0x2003).lines.misses, m.die = (3 : Fin 4) ∧ m.ctx = 1 ∧ m.page = 0x20030123 / 2 ^ 16) ∧
    ((joinedMiss 0x2003).lines.misses.filter fun m => decide (m.die = 3)).take 64 = (joinedMiss 0x2003).lines.misses ∧ (joinedMiss (2 ^ 20)).lines.misses.map (·.page) = [2 ^ 36 / 2 ^ 16] ∧
    memNat (joinedMiss (2 ^ 20)).mem (ctxRoot tables 1 + 8 * (2 ^ 36 / 2 ^ 36 % 4096)) 8 / 2 ^ 63 = 0 := by decide +kernel

/-! ## Witnesses: requests at the homes -/

/-- A request of count elements of size 2^z at an address. -/
def request (base z count : Nat) : Header := { comp := false, dedup := true, domain := 3, size := Fin.ofNat 4 z, base := BitVec.ofNat 48 base, stride := 2, count := Fin.ofNat 16385 count, die := 1, core := 44, unit := 0, tag := 0 }
def homes : State := words machine [(0x9000, 3 + 2 * 2 ^ 32), (0x9008, 7 + 2 ^ 32)]
theorem homesCanonical : Claims.Canonical homes := by constructor <;> decide +kernel
theorem homesCalm : Claims.Calm homes 16 :=
  by constructor <;> first | unfold Claims.NoLog; decide +kernel | decide +kernel
theorem inGddr (z count : Nat) (h : (z, count) ∈ [(1, 3), (2, 1), (3, 1)]) : Claims.InGddr (request 0x9000 z count) := by
  simp only [List.mem_cons, List.not_mem_nil, or_false] at h
  rcases h with h | h | h <;> cases h <;> unfold Claims.InGddr <;> decide +kernel
theorem meets_readWrite : Claims.Canonical homes ∧ Claims.InGddr (request 0x9000 1 3) ∧ Claims.Calm homes 16 ∧ 2 * (request 0x9000 1 3).count.val + 8 ≤ 16 ∧
    lineOf (request 0x9000 1 3).base.toNat + 128 * 3 ≤ Config.gddrEnd ∧ (List.replicate 6 (7 : Byte)).length = (request 0x9000 1 3).count.val * Claims.elemBytes (request 0x9000 1 3) :=
  ⟨homesCanonical, inGddr 1 3 (by decide), homesCalm, by decide +kernel⟩

theorem meets_homeAtomics : Claims.Canonical homes ∧ Claims.InGddr (request 0x9000 2 1) ∧ Claims.InGddr (request 0x9000 3 1) ∧ 0 < (request 0x9000 2 1).count.val ∧ Claims.Calm homes 16 ∧
    Claims.elemBytes (request 0x9000 2 1) = 4 ∧ Claims.elemBytes (request 0x9000 3 1) = 8 ∧ (elemOf 3).isSome = true ∧ (request 0x9000 3 1).base.toNat % 16 = 0 ∧
    Claims.barValid (Claims.number homes 0x9000 16) ∧ Claims.number homes 0x9000 16 / 2 ^ 97 % 2 = 0 :=
  ⟨homesCanonical, inGddr 2 1 (by decide), inGddr 3 1 (by decide), by decide +kernel, homesCalm, by decide +kernel, by decide +kernel, by decide, by decide,
    by unfold Claims.barValid; decide +kernel, by decide +kernel⟩

/-- A line pinnedLine by context 5; a DIRTY one; a watch held. -/
def pinnedLine : State := { homes with lines := { homes.lines with tags := [{ line := 0x9000, entry := none, pin := some 5 }] } }
theorem meets_homeCache : Claims.Canonical pinnedLine ∧ (request 0x9000 2 1).comp = false ∧ Claims.Calm homes 16 ∧ homes.lines.tags = [] ∧ Claims.Calm pinnedLine 16 ∧
    (findTag pinnedLine 0x9000).map (fun x => (x.pin, x.dirty)) = some (some 5, none) :=
  ⟨by constructor <;> decide +kernel, rfl, homesCalm, by decide +kernel,
    by constructor <;> first | unfold Claims.NoLog; decide +kernel | decide +kernel, by decide +kernel⟩

theorem meets_sliceWork : Claims.Canonical homes ∧ lineOf 0x9000 < Config.gddrEnd ∧ (List.replicate 128 (7 : Byte)).length = 128 ∧
    (((getCore homes 300).l1.filter fun x => ! (x.size = 0 ∧ x.addr = lineOf 0x9000)).filter fun x => x.addr / 128 % 128 = 0x9000 / 128 % 128).length < 8 ∧
    sparseWf 0 homes.lines.sample = true ∧ homes.lines.replies = [] :=
  ⟨homesCanonical, by decide, by decide +kernel⟩
/-- A line on its way to core 300. -/
def replying : State := { homes with lines := { homes.lines with replies := [{ core := 300, unit := 0, tag := 0, index := 0, line := some 0x9000, data := List.replicate 128 7 }] } }
theorem meets_sliceWork_reply : (replying.lines.replies.find? (·.meets 300 (lineOf 0x9000) (List.replicate 128 7))).any (·.line.isSome) = true ∧ Claims.Canonical replying :=
  ⟨by decide +kernel, by constructor <;> decide +kernel⟩

def dirty1 : State := { homes with lines := { homes.lines with tags := [{ line := 0x9000, entry := none, pin := none, dirty := some (List.replicate 128 0) }] } }
theorem meets_sliceWrites : homes.lines.vat = [] ∧ (findTag dirty1 (lineOf 0x9010)).any (fun x => x.dirty.isSome) = true ∧ lineOf 0x9010 < Config.compBase ∧
    findTag homes (lineOf 0x9010) = none := by decide +kernel

theorem meets_scratchpadAccess : Claims.Canonical homes ∧ Claims.Calm homes 8 ∧ Config.spadBase ≤ Config.spadBase + 64 ∧ Config.spadBase + 64 + 8 ≤ Config.spadEnd ∧
    (Config.spadBase + 64) % 8 = 0 :=
  ⟨homesCanonical, by constructor <;> first | unfold Claims.NoLog; decide +kernel | decide +kernel, by decide, by decide, by decide⟩

theorem meets_signalAnswers : Claims.Canonical (setStrand homes 7 { signals := [(4, true)], csr := { dstat := 0xFFFF000000000001 } }) ∧
    (getStrand (setStrand homes 7 { signals := [(4, true)], csr := { dstat := 0xFFFF000000000001 } }) 7).signals = [(4, true)] :=
  ⟨by constructor <;> decide +kernel, by decide +kernel⟩

/-! ## Witnesses: links and collectives -/

/-- Port k in each of the five states. -/
def ported : State := { machine with links := { machine.links with ports := [(1, { enable := true, stat := 1 }), (2, { enable := true, stat := 2 }), (3, { enable := true, stat := 3, tries := 2, pkind := 2 }),
  (4, { enable := true, stat := 4 }), (5, { stat := 4 }), (6, { enable := true, stat := 3, tries := 1 }), (7, { enable := true, stat := 3, pkind := 2, buffer := [{ seq := 0, what := .idle }] })] } }
theorem meets_portStates : sparseWf ({} : Port) ported.links.ports = true ∧ ported.links.outbox = [] ∧ (List.range 6).map (fun k => (getPort ported k).stat.toNat) = [0, 1, 2, 3, 4, 4] ∧
    (∀ k : Fin 7, (getPort ported k.val).buffer = []) ∧ ((getPort ported 7).pkind = 2 ∧ (getPort ported 7).pnode = 0 ∧ (getPort ported 7).pport = 0) ∧ (getPort ported 7).buffer ≠ [] ∧ (7 : BitVec 10) ≠ ported.links.nodeid ∧ (0 : BitVec 10) = ported.links.nodeid ∧
    ((getPort ported 3).pkind = 2 ∧ (getPort ported 3).pnode = 0 ∧ (getPort ported 3).pport = 0) ∧ (getPort ported 3).pkind ≠ 1 ∧ 2 ≤ (getPort ported 3).tries ∧
    (getPort ported 6).tries < 2 ∧ (getPort ported 4).enable = true ∧ (getPort ported 5).enable = false ∧ Claims.Serves ported ∧
    ¬ Claims.Serves (cut ported) := by
  refine ⟨by decide +kernel, by decide +kernel, by decide +kernel, by decide +kernel, by decide +kernel, by decide +kernel, by decide +kernel, by decide +kernel, by decide +kernel, by decide +kernel,
    by decide +kernel, by decide +kernel, by decide +kernel, by decide +kernel, by unfold Claims.Serves; decide +kernel, cut_serves _⟩

def awaited : PeerMsg := { node := 7, export_ := 1, offset := 0, op := .read 8, strand := 9, va := 0x30000000, copy := false, id := 0, ctx := 1 }
/-- A flit from node 7 to module `dest`: its KIND and SEQ, a reply 0 with data 77, and the CRC of its first 252 bytes or another. -/
def flit (dest kind seq spoil : Nat) : List Byte :=
  let b := natToBytes 8 (dest * 2 ^ 54 + 7 * 2 ^ 44 + 3 * 2 ^ 36 + kind * 2 ^ 32) ++ natToBytes 240 (77 * 2 ^ 64) ++ natToBytes 4 seq
  b ++ natToBytes 4 (crc32 b ^^^ spoil)
def replied : State := { machine with links := { machine.links with ports := [(1, { enable := true, stat := 1 }), (2, { enable := true, stat := 2, waiting := [awaited], nakSeq := 5, naks := 7 })] } }
theorem meets_flits_crc : crcGood (flit 0 2 0 1) = false ∧ crcGood (flit 0 2 3 0) = true ∧ (∀ d ∈ [0, 5], ∀ k ∈ [1, 2, 3, 5], crcGood (flit d k 0 0) = true) := by decide +kernel
theorem meets_flits : Claims.Canonical replied ∧ replied.links.outbox = [] ∧ sparseWf ({} : Port) replied.links.ports = true ∧ (getPort replied 1).stat ≠ 2 ∧ (getPort replied 2).stat = 2 ∧
    Claims.flitField (flit 0 2 3 0) 0xF8 0 12 ≠ (getPort replied 2).rxSeq.toNat ∧ (∀ k ∈ [1, 2, 3, 5], Claims.flitField (flit 0 k 0 0) 0xF8 0 12 = (getPort replied 2).rxSeq.toNat ∧
      Claims.flitField (flit 0 k 0 0) 0 32 4 = k ∧ Claims.flitField (flit 0 k 0 0) 0 54 10 = replied.links.nodeid.toNat) ∧ Claims.flitField (flit 5 2 0 0) 0 54 10 ≠ replied.links.nodeid.toNat ∧
    (getPort replied 2).waiting = [awaited] ∧ (getPort replied 2).buffer = [] ∧ awaited.node.toNat = Claims.flitField (flit 0 2 0 0) 0 44 10 ∧ awaited.op = .read 8 ∧
    Claims.flitField (flit 0 2 0 0) 8 0 64 = 0 ∧ (getPort replied 2).nakSeq = 5 ∧ 8 ≤ (getPort replied 2).naks + 1 :=
  ⟨by constructor <;> decide +kernel, by decide +kernel⟩

/-- The port has asked for SEQ 0 again. -/
def asking : State := { machine with links := { machine.links with ports := [(2, { enable := true, stat := 2, nakSent := some 0, buffer := [{ seq := 4, what := .idle }] })] } }
theorem meets_flits_nak : Claims.Canonical asking ∧ asking.links.outbox = [] ∧ sparseWf ({} : Port) asking.links.ports = true ∧ (getPort asking 2).stat = 2 ∧
    ¬ ((getPort asking 2).nakSent = none ∨ Claims.flitField (flit 0 2 3 1) 0xF8 0 12 = (getPort asking 2).rxSeq.toNat) ∧ crcGood (flit 0 2 3 1) = false ∧
    Claims.flitField (flit 0 2 0 1) 0xF8 0 12 = (getPort asking 2).rxSeq.toNat ∧ crcGood (flit 0 2 3 0) = true ∧ (getPort asking 2).nakSent ≠ none ∧
    ((getPort asking 2).buffer.filter fun m => decide (2048 ≤ ((0 : BitVec 12) - m.seq).toNat)).length < 256 :=
  ⟨by constructor <;> decide +kernel, by decide +kernel⟩

/-- Export 1 admits node 7 to the 128 MiB at 0x800_0000. -/
def exported : State :=
  let s := words machine [(0x8000000, 3 + 2 * 2 ^ 32), (0x8000008, 7 + 2 ^ 32)]
  { s with links := { s.links with ports := [(3, { enable := true, stat := 2, inbox := [(1, 7), (1, 8)] })], exports := [(2, w64 (2 ^ 63 + 2 ^ 62 + 2 ^ 61 + 7 * 2 ^ 50 + 0x8000000)), (3, 1)] } }
theorem meets_peerRequests : Claims.Canonical exported ∧ (getPort exported 3).stat = 2 ∧ (getPort exported 4).stat ≠ 2 ∧ (1, 7) ∈ (getPort exported 3).inbox ∧ (1, 8) ∈ (getPort exported 3).inbox ∧ exported.links.inbound = [] ∧ Claims.Calm exported 27 ∧
    Claims.Admits exported 1 7 0 true false ∧ Claims.Admits exported 1 7 0 false true ∧ Claims.Admits exported 1 7 0 true true ∧
    Claims.Admits exported 1 7 (2 ^ 27 - 4) true true ∧ ¬ Claims.Admits exported 1 7 (2 ^ 27) true false ∧ (∀ r w, ¬ Claims.Admits exported 1 8 0 r w) ∧ (sget 0 exported.links.exports 2).toNat / 2 ^ 27 % 2 ^ 21 * 2 ^ 27 = 0x8000000 ∧
    Claims.barValid (Claims.number exported 0x8000000 16) ∧ Claims.number exported 0x8000000 16 / 2 ^ 97 % 2 = 0 :=
  ⟨by constructor <;> decide +kernel, by decide +kernel, by decide +kernel, by decide +kernel, by decide +kernel, by decide +kernel,
    by constructor <;> first | unfold Claims.NoLog; decide +kernel | decide +kernel,
    by unfold Claims.Admits; decide +kernel, by unfold Claims.Admits; decide +kernel, by unfold Claims.Admits; decide +kernel, by unfold Claims.Admits; decide +kernel,
    by unfold Claims.Admits; decide +kernel, by unfold Claims.Admits; decide +kernel, by decide +kernel, by unfold Claims.barValid; decide +kernel, by decide +kernel⟩

theorem meets_collectiveBell : machine.links.pending.length < 16 ∧
    16 ≤ ({ machine with links := { machine.links with pending := List.replicate 16 (1, 0) } } : State).links.pending.length ∧ Claims.Serves machine ∧ ¬ Claims.Serves (cut machine) :=
  ⟨by decide +kernel, by decide +kernel, by unfold Claims.Serves; decide +kernel, cut_serves _⟩

/-- A sum of 2 elements of float16 over 2 members, of which this is number 1. -/
def gathered (parts : List (Nat × Option (List Byte) × Bool)) : Collective := { ctx := 1, desc := 0x10001000, group := 0x77, tag := 9, size := 2, rank := 1, count := 2, src := 0x10002000, dst := 0x10003000, members := [6, 5], cwaddr := 0x10005000, parts }
def reducing (c : Collective) : State := { device 1 with links := { (device 1).links with running := some c } }
def own : Nat × Option (List Byte) × Bool := (1, some (natToBytes 4 0x40003C00), false)
theorem runningSpace (l : List (Nat × Option (List Byte) × Bool)) (h : l ∈ [[own], [(0, some (natToBytes 4 0x7C003C00), false), own], [(0, none, false), own]]) : Claims.Canonical (reducing (gathered l)) ∧ Claims.Running (reducing (gathered l)) page (gathered l) := by
  simp only [List.mem_cons, List.not_mem_nil, or_false] at h
  rcases h with rfl | rfl | rfl <;> exact ⟨by constructor <;> decide +kernel,
    deviceSpace _ (by decide +kernel) _ (by decide +kernel),
    rfl, ⟨by decide +kernel, by unfold Claims.Inside; decide +kernel⟩, by unfold Claims.Inside; decide +kernel, by unfold Claims.Apart; decide +kernel⟩
theorem meets_contributions : (device 1).links.running = none ∧ (gathered []).count * (gathered []).elem.bytes = 4 ∧
    (∀ l ∈ [[own], [(0, some (natToBytes 4 0x7C003C00), false), own]], Claims.Canonical (reducing (gathered l)) ∧ Claims.Running (reducing (gathered l)) page (gathered l)) ∧
    (∀ r, r < 2 → ∃ x ∈ (gathered [(0, some (natToBytes 4 0x7C003C00), false), own]).parts, x.1 = r) ∧ ¬ (∀ r, r < 2 → ∃ x ∈ (gathered [own]).parts, x.1 = r) :=
  ⟨by decide +kernel, by decide +kernel, fun l h => runningSpace l (by simp only [List.mem_cons, List.not_mem_nil, or_false] at h ⊢; tauto), by decide +kernel⟩
/-- Port 3 has accepted reduction flits from nodes 6 and 5, the members of ranks 0 and 1. -/
def came (c : Option Collective) : State :=
  { device 1 with links := { (device 1).links with running := c, ports := [(3, { enable := true, stat := 2, inbox := [(3, 6), (3, 5)] })] } }
def other : ReductionHead := { Claims.headAs (gathered [own]) 0 with op := 1 }
theorem meets_contributions_flit : Claims.Came (came none) (fun _ => true) 3 6 ∧ (∀ c ∈ [none, some (gathered [own])], ∀ p ∈ [(0, 6), (1, 5)],
      reductionPort (came c) (fun n => decide ((Claims.headAs (gathered [own]) p.1).members[p.1]? = some (n.zeroExtend 16))) = some (3, BitVec.ofNat 10 p.2)) ∧
    other.group = (gathered [own]).group ∧ other ≠ Claims.headAs (gathered [own]) other.rank ∧ other.members[other.rank]? = some 6 ∧
    Claims.Canonical (came (some (gathered [own]))) ∧ Claims.Running (came (some (gathered [own]))) page (gathered [own]) ∧
    ((List.range 18).all fun j => (getPort (device 1) j).inbox.isEmpty) = true :=
  ⟨by unfold Claims.Came; decide +kernel, by decide +kernel, by decide +kernel, by decide +kernel, by decide +kernel, by constructor <;> decide +kernel,
    ⟨deviceSpace _ (by decide +kernel) _ (by decide +kernel), rfl, ⟨by decide +kernel, by unfold Claims.Inside; decide +kernel⟩, by unfold Claims.Inside; decide +kernel,
      by unfold Claims.Apart; decide +kernel⟩, by decide +kernel⟩
theorem meets_collectiveEnd : (∀ l ∈ [[own], [(0, some (natToBytes 4 0x7C003C00), false), own], [(0, none, false), own]],
      Claims.Canonical (reducing (gathered l)) ∧ Claims.Running (reducing (gathered l)) page (gathered l)) ∧
    (∀ r, r < 2 → (sget (none, false) (gathered [(0, some (natToBytes 4 0x7C003C00), false), own]).parts r).1 = some (if r = 0 then natToBytes 4 0x7C003C00 else natToBytes 4 0x40003C00)) ∧
    (∀ r, r < 2 → ∃ x ∈ (gathered [(0, none, false), own]).parts, x.1 = r) ∧ (sget (none, false) (gathered [(0, none, false), own]).parts 0).1 = none :=
  ⟨runningSpace, by decide +kernel⟩

/-- The descriptor of that collective, waiting. -/
def posted (word6 : Nat) : State :=
  let s := words (device 1) ([(0x4001000, 0x77 * 2 ^ 48 + 9 * 2 ^ 40 + 2 * 2 ^ 26 + 2 ^ 16), (0x4001008, 2), (0x4001010, 0x10002000), (0x4001018, 0x10003000), (0x4001020, 0x10004000), (0x4001028, 0x10005000)] ++
    (if word6 = 0 then [] else [(0x4001030, word6)]) ++ [(0x4002000, 0x40003C00), (0x4004000, 0x50004)])
  { s with links := { s.links with nodeid := 5, pending := [(1, 0x10001000)] } }
theorem meets_collectiveStarts : (∀ w ∈ [0, 1], Claims.Canonical (posted w) ∧ Claims.Device (posted w) 1 page 72 ∧ (posted w).links.running = none ∧
      (posted w).links.pending = [(1, 0x10001000)] ∧ (posted w).links.refused = [] ∧ (posted w).links.early = [] ∧ (posted w).links.outbox = [] ∧ Claims.dw (posted w) page 0x10001000 6 = w) ∧
    (device 1).links.pending = [] ∧ Claims.Inside page 0x10001000 64 ∧ Claims.Inside page 0x10002000 4 ∧ Claims.Inside page 0x10004000 4 ∧ Claims.Inside page 0x10005000 8 ∧
    (elemOf 9).isSome = true ∧ Claims.at_ (posted 0) page (0x10004000 + 2 * 1) 2 = (posted 0).links.nodeid.toNat ∧
    (List.range 6).map (Claims.dw (posted 0) page 0x10001000) = [0x77 * 2 ^ 48 + 9 * 2 ^ 40 + 2 * 2 ^ 26 + 2 ^ 16, 2, 0x10002000, 0x10003000, 0x10004000, 0x10005000] := by
  refine ⟨?_, by decide +kernel, by unfold Claims.Inside; decide, by unfold Claims.Inside; decide, by unfold Claims.Inside; decide, by unfold Claims.Inside; decide, by decide +kernel⟩
  intro w hw
  simp only [List.mem_cons, List.not_mem_nil, or_false] at hw
  rcases hw with rfl | rfl <;> exact ⟨by constructor <;> decide +kernel,
    deviceSpace _ (by decide +kernel) _ (by decide), by decide +kernel⟩

/-- That descriptor with a TAG, an OP, a SIZE or a RANK that is none, with other reserved bits, and of another module. -/
def spoilt (d0 : Nat) : State := atPa (posted 0) 0x4001000 d0
def stranger : State := { posted 0 with links := { (posted 0).links with nodeid := 7 } }
theorem meets_collectiveStarts_invalid :
    (∀ d ∈ [0x77 * 2 ^ 48 + 4 * 2 ^ 40 + 2 * 2 ^ 26 + 2 ^ 16, 0x77 * 2 ^ 48 + 9 * 2 ^ 40 + 3 * 2 ^ 36 + 2 * 2 ^ 26 + 2 ^ 16, 0x77 * 2 ^ 48 + 9 * 2 ^ 40 + 2 ^ 26, 0x77 * 2 ^ 48 + 9 * 2 ^ 40 + 513 * 2 ^ 26,
        0x77 * 2 ^ 48 + 9 * 2 ^ 40 + 2 * 2 ^ 26 + 2 * 2 ^ 16, 0x77 * 2 ^ 48 + 9 * 2 ^ 40 + 2 * 2 ^ 26 + 2 ^ 16 + 1],
      Claims.dw (spoilt d) page 0x10001000 0 = d ∧ Claims.Canonical (spoilt d) ∧ Claims.Device (spoilt d) 1 page 1096) ∧
    Claims.at_ stranger page (0x10004000 + 2 * 1) 2 ≠ stranger.links.nodeid.toNat ∧ Claims.Device stranger 1 page 72 ∧
    Claims.Inside page (Claims.dw (posted 0) page 0x10001000 5 / 8 * 8 % 2 ^ 48) 8 ∧ Claims.Inside page (Claims.dw (posted 0) page 0x10001000 3 % 2 ^ 48) 16 := by
  refine ⟨?_, by decide +kernel, deviceSpace _ (by decide +kernel) _ (by decide), by unfold Claims.Inside; decide +kernel, by unfold Claims.Inside; decide +kernel⟩
  intro d hd
  simp only [List.mem_cons, List.not_mem_nil, or_false] at hd
  rcases hd with rfl | rfl | rfl | rfl | rfl | rfl <;> exact ⟨by decide +kernel, by constructor <;> decide +kernel, deviceSpace _ (by decide +kernel) _ (by decide)⟩

/-! ## Witnesses: the host port and Daleel -/

def hosted : State := { homes with links := { homes.links with hostReads := [{ strand := 7, copy := false, va := 5, bytes := 4, addr := 0, ctx := 1 }] } }
def unpowered : State := { homes with daleel := { homes.daleel with powered := false } }
theorem meets_hostPort : Claims.Canonical hosted ∧ Claims.Serves homes ∧ ¬ Claims.Serves unpowered ∧ Claims.Calm homes 16 ∧ homes.parkedAt = [] ∧ homes.broken = [] ∧ homes.links.inbound = [] ∧ unpowered.links.inbound = [] ∧ 0x9002 + 3 ≤ Config.gddrEnd ∧
    hosted.links.hostReads = { strand := 7, copy := false, va := 5, bytes := 4, addr := 0, ctx := 1 } :: [] ∧ (∀ r ∈ hosted.links.hostReads, r.strand ≠ 8) ∧
    Config.mmioBase ≤ Config.mmioBase + 0x4010 ∧ Config.mmioBase + 0x4010 + 8 ≤ Config.windowBase ∧ (Config.mmioBase + 0x4010) % 8 = 0 :=
  ⟨by constructor <;> decide +kernel, by unfold Claims.Serves; decide +kernel, by unfold Claims.Serves; decide +kernel, homesCalm, by decide +kernel, by decide, by decide +kernel,
    by decide +kernel, by decide, by decide, by decide⟩
/-- Every die in reset. -/
def asleep : State := { machine with daleel := { machine.daleel with dies := Vector.replicate 4 .inReset } }
theorem meets_hostPort_reset : Claims.Serves asleep ∧ (∀ d : Fin 4, asleep.daleel.dies[d.val] = .inReset) ∧ asleep.links.inbound = [] := ⟨by unfold Claims.Serves; decide +kernel, by decide +kernel⟩
theorem meets_registerWrites_serves : Claims.Serves homes ∧ ¬ Claims.Serves unpowered := ⟨by unfold Claims.Serves; decide +kernel, by unfold Claims.Serves; decide +kernel⟩
theorem meets_registerWrites : (0x85 : Word).getLsbD 7 = true ∧ (0x05 : Word).getLsbD 7 = false ∧ (List.map (fun v : Word => v.toNat / 2 ^ 12 % 16) [0x1001, 0x2001, 0x3001]) = [1, 2, 3] ∧
    (0x101 : Word).toNat % 256 = 1 ∧ Config.windowBase ≤ Config.windowBase ∧ 4 % 8 ≠ 0 := by decide

theorem meets_resets : homes.daleel.powered = true ∧ unpowered.daleel.powered = false ∧ (∀ x ∈ homes.lines.tags, x.dirty = none) ∧
    dirty1.lines.tags = [{ line := 0x9000, entry := none, pin := none, dirty := some (List.replicate 128 0) }] ∧ (List.replicate 128 (0 : Byte)).length = 128 ∧ Claims.Canonical dirty1 :=
  ⟨by decide +kernel, by decide +kernel, by decide +kernel, by decide +kernel, by decide +kernel, by constructor <;> decide +kernel⟩

def fields0 : BootFields := { plimit := List.replicate 7 0x123456789, partsel := 3, slh := [[0x1FF]], dieh := [], ctxTable := 0x4000, groupTable := 0x100000, pwrcap := 500, routineKey := [1] }
def staged (n : Nat) (cause : Nat) : State := { State.reset with daleel := { State.reset.daleel with stage := n, bootcause := w64 cause } }
/-- An image whose stated digest is not that of its body. -/
def badImage : BootImage := { body := [], digest := 0 :: Config.sha256 [], key := [], signature := [], version := 0, fields := fields0 }
theorem badImage_refused : Claims.refusal 1 badImage ≠ 0 := by
  simp [Claims.refusal, badImage]
theorem meets_boot : (∀ n ∈ [0, 1, 2, 3], (staged n 0x11200).daleel.powered = true ∧ (staged n 0x11200).daleel.bootcause.getLsbD 0 = false ∧ max 1 (staged n 0).daleel.stage < 4) ∧
    (staged 1 1).daleel.bootcause.getLsbD 0 = true ∧ (staged 4 0).daleel.stage = 4 ∧ Claims.Canonical (staged 0 0) ∧ sparseWf 0 (staged 0 0).daleel.retireList = true ∧
    Claims.BootFits fields0 ∧ ¬ Claims.BootFits { fields0 with plimit := [2 ^ 40, 2 ^ 30] } ∧ Claims.refusal 1 badImage ≠ 0 :=
  ⟨by decide +kernel, by decide +kernel, by decide +kernel, by constructor <;> decide +kernel, by decide +kernel, by unfold Claims.BootFits; decide +kernel,
    fun h => absurd (h.1 0 (by decide)) (by decide +kernel), badImage_refused⟩

theorem meets_corePower : Claims.Canonical machine ∧ (0 : BitVec 4) &&& ~~~(getCore machine 0).disable = 0 ∧ (4 : BitVec 4) &&& ~~~(getCore machine 0).disable ≠ 0 ∧
    curCore machine = 0 ∧ machine.st.resident = true ∧ machine.st.priv = false ∧ machine.others = [] ∧ (∀ n ∈ strandsOf 3, (getStrand machine n).resident = false) ∧
    (getCore machine 3).commands = [] ∧ ¬ (∀ n ∈ strandsOf 0, (getStrand machine n).resident = false) ∧ Claims.Serves machine ∧ ¬ Claims.Serves unpowered := by
  refine ⟨by constructor <;> decide +kernel, by decide +kernel, by decide +kernel, by decide +kernel, by decide +kernel, by decide +kernel, by decide +kernel, by decide +kernel,
    by decide +kernel, by decide +kernel, by unfold Claims.Serves; decide +kernel, by unfold Claims.Serves; decide +kernel⟩

/-- The mailbox with a command of OP op running. -/
def mailing (op arg cause : Nat) (dirty : Bool) (nor : Bool := false) : State :=
  { machine with daleel := { machine.daleel with norFails := nor, mbstat := 1, mbop := BitVec.ofNat 8 op, mbarg := w64 arg, mbdirty := dirty, bootcause := w64 cause, stage := 4, retireList := [(3, 1), (7, 15)], dies := #v[.up, .up, .inReset, .up] } }
theorem meets_mailCommands : machine.daleel.mbstat ≠ 1 ∧ (mailing 1 0 0 false).daleel.mbstat = 1 ∧ (mailing 1 256 0 false).daleel.mbarg.getLsbD 8 = true ∧ machine.daleel.mbarg.getLsbD 8 = false ∧
    6 < (9 : BitVec 8).toNat ∧ machine.daleel.powered = true ∧ 2 ≤ machine.daleel.stage ∧ (mailing 1 0 1 false).daleel.bootcause.getLsbD 0 = true ∧ unpowered.daleel.powered = false := by decide +kernel
/-- Reserved arguments of ATTEST, of RETIRE (a bit, and no group) and of DIERESET; a write of SPI NOR that fails. -/
theorem meets_mailDone_refused : (mailing 1 1 0 false).daleel.mbop = 1 ∧ (mailing 1 1 0 false).daleel.mbarg.toNat ≠ 0 ∧
    (let a := (mailing 3 (3 + 6 * 2 ^ 16 + 2 ^ 10) 0 false).daleel.mbarg.toNat; a ≠ a % 2 ^ 10 + a / 2 ^ 16 % 2 ^ 4 * 2 ^ 16) ∧ (mailing 4 3 0 false).daleel.mbarg.toNat / 2 ^ 16 = 0 ∧
    (let a := (mailing 6 (2 ^ 8 + 4) 0 false).daleel.mbarg.toNat; a ≠ a % 4 + a / 2 ^ 8 % 2 * 2 ^ 8) ∧ (mailing 6 4 0 false).daleel.bootcause.getLsbD 0 = false ∧
    (mailing 3 (3 + 6 * 2 ^ 16) 0 false true).daleel.norFails = true ∧ (mailing 3 (3 + 6 * 2 ^ 16) 0 false).daleel.norFails = false ∧ machine.daleel.powered = true ∧ unpowered.daleel.powered = false := by decide +kernel
theorem meets_mailDone : machine.daleel.mbstat ≠ 1 ∧ (mailing 3 0 0 true).daleel.mbdirty = true ∧ (mailing 3 0 0 false).daleel.mbdirty = false ∧
    sparseWf 0 (mailing 3 0 0 false).daleel.retireList = true ∧ Claims.Canonical (mailing 3 (3 + 6 * 2 ^ 16) 0 false) ∧ (mailing 3 (3 + 6 * 2 ^ 16) 1 false).daleel.bootcause.getLsbD 0 = true ∧
    (mailing 3 (3 + 6 * 2 ^ 16) 0 false).daleel.bootcause.getLsbD 0 = false ∧ (mailing 3 (3 + 6 * 2 ^ 16) 0 false).daleel.mbarg.toNat = (3 : Fin 1024).val + (6 : BitVec 4).toNat * 2 ^ 16 ∧
    (∀ n ∈ strandsOf 3, (getStrand (mailing 3 0 0 false) n).resident = false) ∧ sparseWf 0 (mailing 5 0 0 false).daleel.mbbuf = true ∧
    (mailing 6 0 0 false).daleel.dies[1] = .up ∧ (mailing 6 0 0 false).daleel.dies[2] = .inReset ∧ (mailing 6 0 0 false).lp.resid = [] ∧ 4 ≤ (mailing 6 0 0 false).daleel.stage :=
  ⟨by decide +kernel, by decide +kernel, by decide +kernel, by decide +kernel, by constructor <;> decide +kernel, by decide +kernel⟩

/-- Die 3 in a state of its own, and the strand on it or nowhere. -/
def draining (d : DieState) : State := { machine with daleel := { machine.daleel with dies := machine.daleel.dies.set 3 d } }
theorem meets_dieResets : Claims.Canonical (draining .draining) ∧ machine.cur.val < 4096 ∧ (∀ x ∈ machine.others, x.1 < 4096) ∧ (draining .draining).daleel.dies[3] = .draining ∧
    dieOf machine.cur.val ≠ 3 ∧ (∀ k ∈ (draining .draining).cores, k.2.commands = []) ∧ (draining .draining).press.engines = [] ∧ (draining .draining).lines.tags = [] ∧
    (draining .draining).others = [] ∧ (draining .inReset).daleel.dies[3] = .inReset ∧ machine.daleel.dies[0] ≠ .inReset ∧ machine.st.resident = true ∧ dieOf machine.cur.val = 0 ∧
    machine.poison = [] ∧ machine.watches = [] ∧ descAddr machine machine.st.ctx % 128 = 0 ∧ descAddr machine machine.st.ctx + 128 ≤ Config.gddrEnd :=
  ⟨by constructor <;> decide +kernel, by decide +kernel⟩

/-! ## Witnesses: decoding, fetching and steps -/

theorem meets_decodeEncode : (Instr.add 5 6 7).wf = true ∧ encode (.add 5 6 7) = some (4, 0x001CC505) ∧ (Instr.li64 9 0x7FFFFFFFFFFFE).wf = true ∧
    encode (.li64 9 0x7FFFFFFFFFFFE) = some (8, 0xFFFFFFFEFFFFE90B) ∧ encode (.cNop) = some (2, 0x6002) := by decide +kernel
theorem meets_encodeDecode : decodeBits 0x001CC505 = .ok (.add 5 6 7) ∧ decodeBits 0xFFFFFFFEFFFFE90B = .ok (.li64 9 0x7FFFFFFFFFFFE) := by decide +kernel

/-- A result is a word, or a trap with its cause and value. -/
def gives (r : Except Stop Nat × State) (w : Nat) : Bool := match r.1 with
  | .ok x => decide (x = w)
  | .error _ => false
def traps (r : Except Stop Nat × State) (c : BitVec 8) (v : Word) : Bool := match r.1 with
  | .error (.trap c1 v1) => decide (c1 = c ∧ v1 = v)
  | _ => false
theorem gives_sound (r : Except Stop Nat × State) (w : Nat) (h : gives r w = true) : r = (.ok w, r.2) := by
  obtain ⟨a, u⟩ := r
  cases a with
  | ok x => exact Prod.ext (congrArg Except.ok (of_decide_eq_true h)) rfl
  | error e => exact absurd h (by simp [gives])
theorem traps_sound (r : Except Stop Nat × State) (c : BitVec 8) (v : Word) (h : traps r c v = true) : r = (.error (.trap c v), r.2) := by
  obtain ⟨a, u⟩ := r
  cases a with
  | ok x => exact absurd h (by simp [traps])
  | error e =>
    cases e with
    | trap c1 v1 => obtain ⟨rfl, rfl⟩ := of_decide_eq_true (h : decide (c1 = c ∧ v1 = v) = true); rfl
    | _ => exact absurd h (by simp [traps])

/-- The running machine with its pc `last` bytes before the page's end, where the bytes of w stand. -/
def placed (w last : Nat) : State :=
  words (withSt (holdState machine 1 2) fun t => { t with pc := BitVec.ofNat 48 (0x14000000 - last) }) [(0x80, 2), (0x8000000 - 8, w * 2 ^ (8 * (8 - last)) % 2 ^ 64)]
theorem meets_stepRunsDecoded : Claims.Runs (placed 0x001CC505 8) ∧ Claims.Idle (placed 0x001CC505 8) ∧ (placed 0x001CC505 8).st.park = 0 ∧
    (∃ u, Act.on fetchInstr (Claims.atFetch (placed 0x001CC505 8)) = (.ok 0x001CC505, u) ∧ u.st.bad = []) ∧ decodeBits 0x001CC505 = .ok (.add 5 6 7) ∧
    (∃ u, Act.on fetchInstr (Claims.atFetch (placed 0xFE1CC505 8)) = (.ok 0xFE1CC505, u) ∧ u.st.viq = []) ∧ (decodeBits 0xFE1CC505).toOption = none ∧
    (∃ u, Act.on fetchInstr (Claims.atFetch (placed 0xC505 2)) = (.error (.trap 4 0x14000000), u) ∧ u.st.viq = []) := by
  refine ⟨by unfold Claims.Runs; decide +kernel, by unfold Claims.Idle; decide +kernel, by decide +kernel, ⟨_, gives_sound _ _ (by decide +kernel), by decide +kernel⟩, by decide +kernel, ⟨_, gives_sound _ _ (by decide +kernel), by decide +kernel⟩,
    by decide +kernel, ⟨_, traps_sound _ _ _ (by decide +kernel), by decide +kernel⟩⟩

/-- A step's vector side, and whether it leaves the scalar side to run. -/
def sides (r : Except Stop Unit × State) (b : Bool) : Bool := match r.1 with
  | .ok _ => decide (scalarReady r.2 = b)
  | .error _ => false
theorem sides_sound (r : Except Stop Unit × State) (b : Bool) (h : sides r b = true) : ∃ u, r = (.ok (), u) ∧ scalarReady u = b := by
  obtain ⟨a, u⟩ := r
  cases a with
  | ok x => exact ⟨u, rfl, of_decide_eq_true h⟩
  | error e => exact absurd h (by simp [sides])
def parked (s : State) : State := withSt s fun t => { t with park := 9 }
theorem runs_on : Act.on vectorSide (tick (placed 0x001CC505 8)) = (.ok (), (Act.on vectorSide (tick (placed 0x001CC505 8))).2) := by
  obtain ⟨u, h, _⟩ := sides_sound (Act.on vectorSide (tick (placed 0x001CC505 8))) true (by decide +kernel)
  rw [h]
theorem meets_stepVectorFirst : Claims.Runs (placed 0x001CC505 8) ∧ (∃ u, Act.on vectorSide (tick (placed 0x001CC505 8)) = (.ok (), u) ∧ scalarReady u = true ∧
      ∃ t, Act.on fetchInstr { u with st := { u.st with await := 0 } } = (.ok 0x001CC505, t) ∧ t.st.bad = []) ∧
    Claims.Runs (parked (placed 0x001CC505 8)) ∧ (∃ u, Act.on vectorSide (tick (parked (placed 0x001CC505 8))) = (.ok (), u) ∧ scalarReady u = false) :=
  ⟨by unfold Claims.Runs; decide +kernel, ⟨(Act.on vectorSide (tick (placed 0x001CC505 8))).2, runs_on, by decide +kernel, _, gives_sound _ _ (by decide +kernel), by decide +kernel⟩, by unfold Claims.Runs; decide +kernel, sides_sound _ _ (by decide +kernel)⟩

theorem meets_stepAgenda : ({ machine with agenda := [.event (.powerCap 5), .event .cNop] } : State).agenda = .event (.powerCap 5) :: [.event .cNop] ∧ encode (.powerCap 5) = none ∧
    (encode .cNop).isSome = true := ⟨rfl, by decide +kernel⟩

theorem meets_fetchRule : (∃ t, Act.on (fetchHalf 0x14000000) machine = (.error (.trap 4 0x14000000), t)) ∧
    (∃ t, Act.on (fetchHalf 0x13FFFFF8) (placed 0x6002 8) = (.ok 0x6002, t)) ∧ lengthOf 0x6002 = 2 ∧ lengthOf 0xC505 = 4 ∧ lengthOf 0xE90B = 8 ∧
    (∀ n ∈ [2, 4, 6], ∃ t, Act.on fetchInstr (placed 0xFFFFFFFEFFFFE90B n) = (.error (.trap 4 0x14000000), t)) ∧
    (∃ t, Act.on fetchInstr (placed 0xFFFFFFFEFFFFE90B 8) = (.ok 0xFFFFFFFEFFFFE90B, t)) ∧ machine.st.viq = [] ∧
    (Claims.jumpOf (setx machine [(1, 0x10010001)]) (.jalr 0 1 0)).any (fun p => p.2.2.getLsbD 0) = true := by
  refine ⟨⟨_, traps_sound _ _ _ (by decide +kernel)⟩, ⟨_, gives_sound _ _ (by decide +kernel)⟩, by decide, by decide, by decide, ?_, ⟨_, gives_sound _ _ (by decide +kernel)⟩, by decide +kernel⟩
  intro n hn
  simp only [List.mem_cons, List.not_mem_nil, or_false] at hn
  rcases hn with rfl | rfl | rfl <;> exact ⟨_, traps_sound _ _ _ (by decide +kernel)⟩

theorem meets_branchRule : (machine.st.pc.getLsbD 0) = false := by decide +kernel

/-- A step answers a next state. -/
def goes (o : Host.Outcome State Fault Refusal) : Bool := match o with
  | .next _ => true
  | _ => false
theorem meets_memoryFormKept : Memory.wf (placed 0x001CC505 8).mem = true ∧ ∃ t, step (placed 0x001CC505 8) = .next t := by
  refine ⟨by decide +kernel, ?_⟩
  have h : goes (step (placed 0x001CC505 8)) = true := by decide +kernel
  generalize step (placed 0x001CC505 8) = o at h ⊢
  cases o with
  | next t => exact ⟨t, rfl⟩
  | fault f => exact absurd h (by simp [goes])
  | refused r => exact absurd h (by simp [goes])
theorem meets_prefetch : Claims.NoLog machine ∧ Claims.NoWalks machine := by unfold Claims.NoLog Claims.NoWalks; decide +kernel
theorem meets_scalarRegisters : (5 : XReg) ≠ 0 := by decide

/-- Formats, values between two codes and beyond the last, and both signs. -/
theorem meets_rounding : elemOf 9 = some (.flt fmtF16) ∧ fmtF16.sgn = true ∧ Claims.magnitude fmtF16 0x3C00 = 1 ∧ Claims.magnitude fmtF16 0x3C01 = 1025 / 1024 ∧
    Claims.magnitude fmtF16 0x3C00 < (2049 : ℚ) * 2 ^ (-11 : Int) ∧ (2049 : ℚ) * 2 ^ (-11 : Int) < Claims.magnitude fmtF16 0x3C01 ∧
    Claims.magnitude fmtF16 fmtF16.max + Claims.topUlp fmtF16 ≤ (1 : ℚ) * 2 ^ (16 : Int) ∧ elemOf 0x23 = some (.flt (fmtQ8 4 false false)) ∧ (fmtQ8 4 false false).sgn = false := by
  refine ⟨by decide +kernel, by decide +kernel, ?_, ?_, ?_, ?_, ?_, by decide +kernel, by decide +kernel⟩ <;> norm_num [Claims.magnitude, Claims.topUlp, fmtF16]
theorem meets_specialFunctions : decodeFloat fmtF16 0x4000 = .fin false 1024 (-9) ∧ (1024 : Nat) ≠ 0 ∧ (0 : ℝ) < (if false then -1 else 1) * ((1024 : Nat) * (2 : ℝ) ^ (-9 : Int)) ∧
    2 ^ (fmtF16.w - 1) < 0xC000 ∧ 0xC000 < 2 ^ (fmtF16.w - 1) + Claims.infCode fmtF16 ∧ Claims.infCode fmtF16 < 0x7E00 % 2 ^ (fmtF16.w - 1) := by
  refine ⟨by decide +kernel, by decide, by norm_num, by decide +kernel, by decide +kernel, by decide +kernel⟩

/-! ## Decoding: words from the spec's encodings, one or more for each family -/

/-- Register forms, immediates, shifts and bit fields (Tables 15.1 and 16.1). -/
theorem test_decode_scalar : [0x001CC505, 0x08B16A05, 0xFFFCC509, 0x101CC505, 0x8300C521, 0x1040C525, 0x7820C52D].map (decodeTableWord 32) =
    [some (.add 5 6 7), some (.mulh 10 11 12), some (.addi 5 6 0x3FFF), some (.bext 5 6 7), some (.srai 5 6 3), some (.bexti 5 6 8 16), some (.binsi 5 6 60 8)] := by decide
/-- Upper immediates, branches and jumps. -/
theorem test_decode_control : [0x00024531, 0x00002535, 0xFF88C541, 0x00100139, 0x0000203D].map (decodeTableWord 32) =
    [some (.lui 5 0x12), some (.addpc 5 1), some (.blt 5 6 0x7FC), some (.jal 1 0x80), some (.jalr 0 1 0)] := by decide
/-- Loads, stores and scalar floating point. -/
theorem test_decode_memory_float : [0xFFD84745, 0x000CC549, 0x1C316A4D, 0x4E9CC54D, 0x5600C54D, 0x5B08C54D].map (decodeTableWord 32) =
    [some (.ld .ws 7 2 0x7FE), some (.st .d 5 6 0), some (.fma .f32 10 11 12), some (.fcmp .f64 .lt 5 6 7), some (.fclass .f64 5 6), some (.fcvt .i64 .f32 5 6)] := by decide
/-- The compressed forms, `c.li a0, -3` of the spec's worked encodings first. -/
theorem test_decode_compressed : [0x2AF4, 0x0532, 0x6408, 0xA018, 0x4102, 0x6002].map (decodeTableWord 16) =
    [some (.cLi 10 0x3D), some (.cMv 5 6), some (.cLd 1 0 2), some (.cBeqz 0 6), some (.cJr 1), some .cNop] := by decide
/-- Vector forms. -/
theorem test_decode_vector : [0x00082385, 0x0298A489, 0x080C428D, 0x001C239D, 0x1000229D].map (decodeTableWord 32) =
    [some (.vadd false false 3 1 (.vv 2)), some (.vfma false true 4 5 (.vx 6)), some (.vaddc 1 false false 2 2 (.vv 3)), some (.vcvtScaled .ne false false 3 1),
     some (.vcvt .sr false false 2 1)] := by decide
/-- Atomics, fences, sequence vines and barriers. -/
theorem test_decode_sync : [0x0D9CC551, 0xB4000051, 0x08186559, 0x1208A75D].map (decodeTableWord 32) =
    [some (.amo .add true (.flag .dv .ar) 5 6 7), some (.fence .rel .dv), some (.sqres 5 3 6), some (.barr .cl 7 5 2)] := by decide
/-- The engine, streams and system forms; `dpiv v4, v5`, `xcopy.ch0.w.in.dv s0, [x6], v2` and `csrrd x5, vl` are the spec's own words. -/
theorem test_decode_engine_system : [0x248C40C1, 0xA000A4C1, 0x2008C0D1, 0xC01C0055, 0x406CC055, 0x00400555].map (decodeTableWord 32) =
    [some (.dmac 2 3 9), some (.dpiv false 4 5), some (.xcopy false .w 0 .none 0 6 2), some (.trapi 7), some (.csrwr 0x01B 6), some (.csrrd 5 0x010)] := by decide
/-- The 64-bit forms; `li64 x9, -2` is the spec's own. -/
theorem test_decode_long : [0x0031000D00000207, 0xFFFFFFFEFFFFE90B].map (decodeTableWord 64) = [some (.tmma 2 8 12), some (.li64 9 0x7FFFFFFFFFFFE)] := by decide
/-- The halfword 0x0000, a major and a cond that no entry lists, and a reserved bit of FENCE are refused (R251). -/
theorem test_decode_refuses : [0x0000, 0x61, 0x0018C541, 0xB4000151].map (fun w => (decodeTableWord 32 w).isNone) = [true, true, true, true] := by decide

/-! ## Well-formedness: a term that each check refuses -/

theorem test_check_refuses : ([.fcvt .f32 .f32 5 6, .fcvt .i32 .n64 5 6, .sbar 0 3, .vscale false 0x17 1 2, .ssoft 3 31 2, .ssoft 3 2 2, .vldseg 0 false 2 1 10 0,
    .vwait .dv .eq false 0 2 31 4, .cMv 0 6, .cAddi 5 0] : List Instr).map (·.check) =
    [some .cvtTypes, some .cvtTypes, some .emptySet, some .scaleFormat, some .softRegs, some .softRegs, some .oneField, some .waitBase, some .zeroRegister, some .zeroImmediate] := by decide
theorem test_check_accepts : ([.fcvt .i64 .f32 5 6, .sbar 1 3, .vscale false 0x13 1 2, .ssoft 4 2 3, .vldseg 1 false 2 1 10 0, .cMv 5 6, .cAddi 5 1] : List Instr).all (·.wf) = true := by decide

/-! ## Results, one instruction each -/

/-- The state an instruction leaves. -/
def run (i : Instr) (s : State) : State := match exec i s with
  | .next t => t
  | _ => State.reset
def xof (d : Fin 32) (s : State) : Nat := (s.readX d).toNat
def neg (n : Nat) : Nat := 2 ^ 64 - n

/-- `c.li a0, -3` and `li64 x9, -2` (the spec's worked encodings). -/
theorem test_li : xof 10 (run (.cLi 10 0x3D) machine) = neg 3 ∧ xof 9 (run (.li64 9 0x7FFFFFFFFFFFE) machine) = neg 2 := by decide +kernel
/-- Division, by the rows of Table 16.2. -/
theorem test_div : ([(neg 7, 2), (7, neg 2), (7, 0), (2 ^ 63, neg 1)] : List (Nat × Nat)).map (fun p => (xof 5 (run (.div 5 6 7) (setx machine [(6, p.1), (7, p.2)])), xof 5 (run (.rem 5 6 7) (setx machine [(6, p.1), (7, p.2)])))) =
    [(neg 3, neg 1), (neg 3, 1), (neg 1, 7), (2 ^ 63, 0)] := by decide +kernel
theorem test_divn : (xof 5 (run (.divn 5 6 7) (setx machine [(6, neg 7), (7, 0)])), xof 5 (run (.remn 5 6 7) (setx machine [(6, neg 7), (7, 0)]))) = (neg 1, neg 7) := by decide +kernel
/-- An f32 register with values given as codes, and another register's tag. -/
def coded (tag : BitVec 6) (l : List Nat) (n : Nat) : State :=
  let s := vecOn machine 0 n [0, 11, 11, tag.toNat, 11, 11, 11, 13]
  setReg s 1 { tag := 11, ext := 64, data := writeBytes [] 0 (l.flatMap (natToBytes 4)) }
/-- The worked block of R34: 96.0, −3.0, 0.5, 0.02, 0.0, −47.0, 0.0001, 7.5 with scale 0x7E, and its codes, with NX and UF set. -/
def block : State :=
  let s := coded 0x13 [0x42C00000, 0xC0400000, 0x3F000000, 0x3CA3D70A, 0, 0xC23C0000, 0x38D1B717, 0x40F00000] 8
  setReg s 7 { tag := 13, ext := 64, data := [(0, 0x7E)] }
theorem test_vcvt_block : (List.range 8).map (elemAt (run (.vcvtScaled .ne false false 3 1) block) 3 1) = [0x7C, 0xD4, 0x40, 0x1A, 0x00, 0xF4, 0x00, 0x5F] ∧
    (run (.vcvtScaled .ne false false 3 1) block).st.csr.fexc = 3 := by decide +kernel
/-- The conversions of 3.3, 0.005 and 300 into q8p4, and of 300 and 230 into q8p4x ("Further worked conversions"). -/
theorem test_vcvt_q8 : (List.range 3).map (elemAt (run (.vcvt .ne false false 3 1) (coded 0x13 [0x40533333, 0x3BA3D70A, 0x43960000] 3)) 3 1) = [0x4D, 0x05, 0x7F] ∧
    (List.range 2).map (elemAt (run (.vcvt .ne false false 3 1) (coded 0x1B [0x43960000, 0x43660000] 2)) 3 1) = [0x7F, 0x7E] := by decide +kernel
/-- 65,520 to f16, nearest-even and toward zero, and −0.5 to q8np4. -/
theorem test_vcvt_modes : elemAt (run (.vcvt .ne false false 3 1) (coded 9 [0x477FF000] 1)) 3 2 0 = 0x7C00 ∧ elemAt (run (.vcvt .z false false 3 1) (coded 9 [0x477FF000] 1)) 3 2 0 = 0x7BFF ∧
    elemAt (run (.vcvt .ne false false 3 1) (coded 0x23 [0xBF000000] 1)) 3 1 0 = 0xFF ∧
    (run (.vcvt .z false false 3 1) (coded 9 [0x477FF000] 1)).st.csr.fexc = 5 := by decide +kernel
/-- The worked pivots of R127, 0.5, 2^−30, −0 and 0: with τ = 2^−20, and with τ = 0. -/
def pivots (tau : BitVec 32) : State := run (.dpiv false 4 1) (withSt (coded 11 [0x3F000000, 0x30800000, 0x80000000, 0] 4) fun t => { t with csr := { t.csr with dpivtau := tau } })
theorem test_dpiv : (List.range 4).map (elemAt (pivots 0x35800000) 4 4) = [0x40000000, 0x49800000, 0xC9800000, 0x49800000] ∧ (pivots 0x35800000).st.csr.dpivcnt = 3 := by decide +kernel
theorem test_dpiv_zero : (List.range 4).map (elemAt (pivots 0) 4 4) = [0x40000000, 0x4E800000, 0xFF800000, 0x7F800000] ∧ (pivots 0).st.csr.dpivcnt = 0 := by decide +kernel
/-- The worked launch: scopes `item`, `core`, `cluster`, `device`, `free`, `free` in its WFLD. -/
theorem test_fieldScopes : fieldScopes 0x0802006090421802 = [0, 1, 2, 3, 4, 4] := by decide +kernel
/-- Fields of 0x8000_0000_0000_00F0 (Table 16.3): offset and width code. -/
theorem test_bext : ([(4, 4), (60, 8), (64, 8), (0, 100), (0, 0)] : List (Nat × Nat)).map (fun p => xof 5 (run (.bext 5 6 7) (setx machine [(6, 0x80000000000000F0), (7, p.1 + p.2 * 2 ^ 8)]))) =
    [0xF, 8, 0, 0x80000000000000F0, 0] ∧ ([(4, 4), (60, 8), (0, 0)] : List (Nat × Nat)).map (fun p => xof 5 (run (.bexts 5 6 7) (setx machine [(6, 0x80000000000000F0), (7, p.1 + p.2 * 2 ^ 8)]))) =
    [neg 1, neg 8, 0] := by decide +kernel
theorem test_binsi : xof 5 (run (.binsi 5 6 60 8) (setx machine [(6, 0xFF)])) = 0xF000000000000000 := by decide +kernel

end Sys2Proof.Tests
end

section
/-! SUPPORT. Strands and cores as tables, and folds over lists of them: what a read returns after a write. -/

namespace Sys2Proof.Machine

/-! ## Folds -/

/-- A part of the state that no step of a fold changes is as before the fold. -/
theorem foldl_keeps {σ α β : Type} (g : σ → β) {f : σ → α → σ} (h : ∀ s x, g (f s x) = g s) (l : List α) (s : σ) :
    g (l.foldl f s) = g s := by
  induction l generalizing s with
  | nil => rfl
  | cons x l ih => rw [List.foldl_cons, ih, h]

/-- What one element of a fold brings about, and no later step undoes, holds after the fold; `I` is what every step keeps. -/
theorem foldl_reaches {σ α : Type} {I P : σ → Prop} {f : σ → α → σ} {l : List α} {a : α} {s : σ} (ha : a ∈ l) (hs : I s)
    (inv : ∀ s x, I s → I (f s x)) (make : ∀ s, I s → P (f s a)) (keep : ∀ s x, I s → P s → P (f s x)) : P (l.foldl f s) := by
  have stays : ∀ (l : List α) (s : σ), I s → P s → P (l.foldl f s) := by
    intro l
    induction l with
    | nil => exact fun s _ h => h
    | cons x l ih => exact fun s hi hp => ih _ (inv s x hi) (keep s x hi hp)
  induction l generalizing s with
  | nil => simp at ha
  | cons x l ih =>
    rcases List.mem_cons.mp ha with rfl | ha
    · exact stays l _ (inv s a hs) (make s hs)
    · exact ih ha (inv s x hs)

/-! ## Tables -/

/-- A key that a table does not list reads as the default. -/
theorem sget_of_not_mem {β : Type} {d : β} {t : List (Nat × β)} {k : Nat} (h : k ∉ t.map (·.1)) : sget d t k = d := by
  induction t with
  | nil => rfl
  | cons e t ih =>
    obtain ⟨a, v⟩ := e
    simp only [List.map_cons, List.mem_cons, not_or] at h
    rw [sget, if_neg (Ne.symm h.1), ih h.2]

theorem mem_insertNat {k n : Nat} {l : List Nat} : n ∈ insertNat k l ↔ n = k ∨ n ∈ l := by
  induction l with
  | nil => simp [insertNat]
  | cons a t ih =>
    simp only [insertNat]
    split
    · simp
    · split
      · simp_all
      · simp only [List.mem_cons, ih]; tauto

/-! ## Cores -/

theorem getCore_setCore {s : State} (h : sparseWf {} s.cores = true) (c : Nat) (k : Core) (j : Nat) :
    getCore (setCore s c k) j = if j = c then k else getCore s j := sget_sset _ _ _ _ _ h

theorem setCore_cores_wf {s : State} (h : sparseWf {} s.cores = true) (c : Nat) (k : Core) :
    sparseWf {} (setCore s c k).cores = true := sset_wf _ _ _ _ h

/-! ## Strands -/

@[simp] theorem setStrand_cur (s : State) (n : Nat) (t : Strand) : (setStrand s n t).cur = s.cur := by unfold setStrand; split <;> rfl
@[simp] theorem setStrand_cores (s : State) (n : Nat) (t : Strand) : (setStrand s n t).cores = s.cores := by unfold setStrand; split <;> rfl
@[simp] theorem setStrand_mem (s : State) (n : Nat) (t : Strand) : (setStrand s n t).mem = s.mem := by unfold setStrand; split <;> rfl
@[simp] theorem setStrand_lp (s : State) (n : Nat) (t : Strand) : (setStrand s n t).lp = s.lp := by unfold setStrand; split <;> rfl
@[simp] theorem setStrand_ev (s : State) (n : Nat) (t : Strand) : (setStrand s n t).ev = s.ev := by unfold setStrand; split <;> rfl
@[simp] theorem setStrand_daleel (s : State) (n : Nat) (t : Strand) : (setStrand s n t).daleel = s.daleel := by unfold setStrand; split <;> rfl

@[simp] theorem setStrand_focused (s : State) (t : Strand) : (setStrand s s.cur.val t).st = t := by rw [setStrand, if_pos rfl]
@[simp] theorem setStrand_focused_others (s : State) (t : Strand) : (setStrand s s.cur.val t).others = s.others := by rw [setStrand, if_pos rfl]

theorem getStrand_cur (s : State) : getStrand s s.cur.val = s.st := if_pos rfl

theorem getStrand_setStrand {s : State} (h : sparseWf {} s.others = true) (n : Nat) (t : Strand) (j : Nat) :
    getStrand (setStrand s n t) j = if j = n then t else getStrand s j := by
  unfold setStrand getStrand
  by_cases hn : n = s.cur.val
  · simp only [hn]
    by_cases hj : j = s.cur.val <;> simp [hj]
  · simp only [if_neg hn]
    by_cases hj : j = s.cur.val
    · have : j ≠ n := fun e => hn (e ▸ hj)
      simp [hj, Ne.symm hn]
    · simp only [if_neg hj]
      exact sget_sset _ _ _ _ _ h

theorem setStrand_others_wf {s : State} (h : sparseWf {} s.others = true) (n : Nat) (t : Strand) :
    sparseWf {} (setStrand s n t).others = true := by
  unfold setStrand
  split
  · exact h
  · exact sset_wf _ _ _ _ h

/-- A strand that is not listed is one at reset. -/
theorem getStrand_of_not_mem {s : State} {n : Nat} (h : n ∉ strandNums s) : getStrand s n = {} := by
  rw [strandNums, mem_insertNat, not_or] at h
  rw [getStrand, if_neg h.1, sget_of_not_mem h.2]

/-- The listed strands that satisfy a test. -/
theorem mem_strandsWhere {s : State} {p : Strand → Bool} {n : Nat} : n ∈ strandsWhere s p ↔ n ∈ strandNums s ∧ p (getStrand s n) = true :=
  List.mem_filter

end Sys2Proof.Machine
end

section
/-! The machine after a cold reset (R8, log 2). -/

namespace Sys2Proof.Machine

@[simp] theorem reset_strand (n : Nat) : getStrand State.reset n = {} := ite_self _
@[simp] theorem reset_core (c : Nat) : getCore State.reset c = {} := rfl
@[simp] theorem reset_queue (q : Nat) : getQueue State.reset q = {} := rfl

theorem reset_strand_streams (n : Nat) (k : SReg) : ((getStrand State.reset n).streams[k.val]).kind = 0 := by
  simp only [reset_strand, Vector.getElem_replicate]

theorem reset_core_slots (c : Nat) (k : Fin 16) : (getCore State.reset c).slots[k.val] = 0 := by
  simp only [reset_core, Vector.getElem_replicate]

theorem reset_dies (d : Fin 4) : State.reset.daleel.dies[d.val] = .inReset := Vector.getElem_replicate _

/-- Settles O59: every field of the reset state is the spec's value as written, and its sparse tables list nothing. -/
theorem resetState : Obligations.ResetState := by
  unfold Obligations.ResetState
  refine ⟨⟨fun n => ?_, fun c => ⟨rfl, rfl, reset_core_slots c⟩, reset_queue, rfl, rfl, rfl, rfl, rfl, rfl, rfl, rfl, rfl, rfl,
    rfl, rfl, rfl, rfl, rfl, rfl, reset_dies⟩, rfl, fun _ => rfl⟩
  exact ⟨by rw [reset_strand], by rw [reset_strand], by rw [reset_strand], by rw [reset_strand], by rw [reset_strand], reset_strand_streams n⟩

end Sys2Proof.Machine
end

section
/-! SUPPORT. What the operations of the memory system, of the event ring and of a die's reset leave as it is. -/

namespace Sys2Proof.Machine

/-! ## Events -/

@[simp] theorem postRecord_cur (s : State) (r : EvRec) : (postRecord s r).cur = s.cur := by unfold postRecord; split_ifs <;> rfl
@[simp] theorem postRecord_st (s : State) (r : EvRec) : (postRecord s r).st = s.st := by unfold postRecord; split_ifs <;> rfl
@[simp] theorem postRecord_others (s : State) (r : EvRec) : (postRecord s r).others = s.others := by unfold postRecord; split_ifs <;> rfl
@[simp] theorem postRecord_cores (s : State) (r : EvRec) : (postRecord s r).cores = s.cores := by unfold postRecord; split_ifs <;> rfl
@[simp] theorem postRecord_mem (s : State) (r : EvRec) : (postRecord s r).mem = s.mem := by unfold postRecord; split_ifs <;> rfl
@[simp] theorem postRecord_lp (s : State) (r : EvRec) : (postRecord s r).lp = s.lp := by unfold postRecord; split_ifs <;> rfl
@[simp] theorem postRecord_lines (s : State) (r : EvRec) : (postRecord s r).lines = s.lines := by unfold postRecord; split_ifs <;> rfl
@[simp] theorem postRecord_daleel (s : State) (r : EvRec) : (postRecord s r).daleel = s.daleel := by unfold postRecord; split_ifs <;> rfl

/-- What a record does to the event ring depends on the event ring alone (R70). -/
theorem postRecord_ev_congr {s t : State} (h : t.ev = s.ev) (r : EvRec) : (postRecord t r).ev = (postRecord s r).ev := by
  unfold postRecord putRecord
  rw [h]
  split_ifs <;> rfl

/-! ## The relations -/

/-- The strands, Daleel and the STATEs of contexts are as before. -/
structure LeavesStrands (s t : State) : Prop where
  cur    : t.cur = s.cur
  st     : t.st = s.st
  others : t.others = s.others
  daleel : t.daleel = s.daleel
  active : t.lp.active = s.lp.active

/-- Daleel and the STATEs of contexts are as before, and a strand at reset stays one. -/
structure LeavesIdle (s t : State) : Prop where
  cur    : t.cur = s.cur
  daleel : t.daleel = s.daleel
  active : t.lp.active = s.lp.active
  wf     : sparseWf {} s.others = true → sparseWf {} t.others = true
  blank  : sparseWf {} s.others = true → ∀ n, getStrand s n = {} → getStrand t n = {}

/-- And memory, the event ring and the launch processor are as before too. -/
structure LeavesMemory (s t : State) : Prop extends LeavesIdle s t where
  mem : t.mem = s.mem
  ev  : t.ev = s.ev
  lp  : t.lp = s.lp

theorem LeavesStrands.refl (s : State) : LeavesStrands s s := ⟨rfl, rfl, rfl, rfl, rfl⟩
theorem LeavesStrands.trans {s t u : State} (a : LeavesStrands s t) (b : LeavesStrands t u) : LeavesStrands s u :=
  ⟨b.cur.trans a.cur, b.st.trans a.st, b.others.trans a.others, b.daleel.trans a.daleel, b.active.trans a.active⟩
theorem LeavesStrands.foldl {α : Type} {f : State → α → State} (h : ∀ s x, LeavesStrands s (f s x)) (l : List α) (s : State) :
    LeavesStrands s (l.foldl f s) := by
  induction l generalizing s with
  | nil => exact .refl s
  | cons x l ih => exact (h s x).trans (ih _)

theorem LeavesStrands.getStrand_eq {s t : State} (a : LeavesStrands s t) (n : Nat) : getStrand t n = getStrand s n := by
  unfold getStrand; rw [a.cur, a.st, a.others]
theorem LeavesStrands.idle {s t : State} (a : LeavesStrands s t) : LeavesIdle s t :=
  ⟨a.cur, a.daleel, a.active, fun h => a.others ▸ h, fun _ n h => (a.getStrand_eq n).trans h⟩

/-- Of an operation on memory, lines, links, queues and the like, whose fields are read off. -/
theorem LeavesIdle.of_eq {s t : State} (hc : t.cur = s.cur) (hs : t.st = s.st) (ho : t.others = s.others) (hd : t.daleel = s.daleel)
    (ha : t.lp.active = s.lp.active) : LeavesIdle s t := (LeavesStrands.mk hc hs ho hd ha).idle

theorem LeavesIdle.refl (s : State) : LeavesIdle s s := (LeavesStrands.refl s).idle
theorem LeavesIdle.trans {s t u : State} (a : LeavesIdle s t) (b : LeavesIdle t u) : LeavesIdle s u :=
  ⟨b.cur.trans a.cur, b.daleel.trans a.daleel, b.active.trans a.active, fun h => b.wf (a.wf h), fun h n e => b.blank (a.wf h) n (a.blank h n e)⟩
theorem LeavesIdle.foldl {α : Type} {f : State → α → State} (h : ∀ s x, LeavesIdle s (f s x)) (l : List α) (s : State) :
    LeavesIdle s (l.foldl f s) := by
  induction l generalizing s with
  | nil => exact .refl s
  | cons x l ih => exact (h s x).trans (ih _)

theorem LeavesMemory.refl (s : State) : LeavesMemory s s := ⟨.refl s, rfl, rfl, rfl⟩
theorem LeavesMemory.trans {s t u : State} (a : LeavesMemory s t) (b : LeavesMemory t u) : LeavesMemory s u :=
  ⟨a.toLeavesIdle.trans b.toLeavesIdle, b.mem.trans a.mem, b.ev.trans a.ev, b.lp.trans a.lp⟩
theorem LeavesMemory.foldl {α : Type} {f : State → α → State} (h : ∀ s x, LeavesMemory s (f s x)) (l : List α) (s : State) :
    LeavesMemory s (l.foldl f s) := by
  induction l generalizing s with
  | nil => exact .refl s
  | cons x l ih => exact (h s x).trans (ih _)

/-- Of an operation on lines, links, watches and the like, whose fields are read off. -/
theorem LeavesMemory.of_eq {s t : State} (hc : t.cur = s.cur) (hs : t.st = s.st) (ho : t.others = s.others) (hd : t.daleel = s.daleel)
    (hl : t.lp = s.lp) (hm : t.mem = s.mem) (he : t.ev = s.ev) : LeavesMemory s t :=
  ⟨.of_eq hc hs ho hd (hl ▸ rfl), hm, he, hl⟩

/-! ## Strands that change -/

/-- Strand n becomes one at reset. -/
theorem setStrand_reset_leaves (s : State) (n : Nat) : LeavesMemory s (setStrand s n {}) where
  cur := setStrand_cur s n {}
  daleel := setStrand_daleel s n {}
  active := by rw [setStrand_lp]
  wf h := setStrand_others_wf h n {}
  blank h j hj := by rw [getStrand_setStrand h]; split <;> simp [hj]
  mem := setStrand_mem s n {}
  ev := setStrand_ev s n {}
  lp := setStrand_lp s n {}

/-- A change of a strand that leaves one at reset as it is. -/
theorem modStrand_leaves {f : Strand → Strand} (s : State) (n : Nat) (hf : getStrand s n = {} → f (getStrand s n) = {}) :
    LeavesMemory s (modStrand s n f) where
  cur := setStrand_cur s n _
  daleel := setStrand_daleel s n _
  active := by rw [modStrand, setStrand_lp]
  wf h := setStrand_others_wf h n _
  blank h j hj := by
    rw [modStrand, getStrand_setStrand h]
    split
    · next e => exact hf (e ▸ hj)
    · exact hj
  mem := setStrand_mem s n _
  ev := setStrand_ev s n _
  lp := setStrand_lp s n _

/-- A change of all strands that satisfy a test which one at reset does not. -/
theorem modStrandsWhere_leaves {p : Strand → Bool} (hp : p {} = false) (f : Strand → Strand) (s : State) :
    LeavesMemory s (modStrandsWhere s p f) := by
  have frame {β : Type} (g : State → β) (h : ∀ s n t, g (setStrand s n t) = g s) : g (modStrandsWhere s p f) = g s :=
    foldl_keeps g (fun s n => h s n _) _ s
  have rest : ∀ (l : List Nat) (s : State), sparseWf {} s.others = true → sparseWf {} (l.foldl (fun s n => modStrand s n f) s).others = true ∧
      ∀ n, n ∉ l → getStrand (l.foldl (fun s n => modStrand s n f) s) n = getStrand s n := by
    intro l
    induction l with
    | nil => exact fun s h => ⟨h, fun _ _ => rfl⟩
    | cons k l ih =>
      intro s h
      obtain ⟨hw, hg⟩ := ih (modStrand s k f) (setStrand_others_wf h k _)
      refine ⟨hw, fun n hn => ?_⟩
      obtain ⟨hk, hl⟩ := not_or.mp (List.mem_cons.not.mp hn)
      rw [List.foldl_cons, hg n hl, modStrand, getStrand_setStrand h, if_neg hk]
  refine ⟨⟨frame _ setStrand_cur, frame _ setStrand_daleel, frame (·.lp.active) (by simp), fun h => (rest _ s h).1, fun h n hn => ?_⟩,
    frame _ setStrand_mem, frame _ setStrand_ev, frame _ setStrand_lp⟩
  have : n ∉ strandsWhere s p := fun hm => by
    have := (mem_strandsWhere.mp hm).2
    rw [hn, hp] at this
    cases this
  exact ((rest _ s h).2 n this).trans hn

theorem wakeLine_leaves (s : State) (a : Nat) : LeavesMemory s (wakeLine s a) := by
  unfold wakeLine
  split
  · refine .trans ?_ (.foldl (fun s n => modStrand_leaves s n fun h => by rw [h]; rfl) _ _)
    exact .of_eq rfl rfl rfl rfl rfl rfl rfl
  · exact .refl s

theorem wakeKey_leaves (s : State) (k : WaitKey) : LeavesMemory s (wakeKey s k) := modStrandsWhere_leaves rfl _ s

theorem forgetReads_leaves (s : State) (n : Nat) (copies : Bool) : LeavesMemory s (forgetReads s n copies) :=
  .of_eq rfl rfl rfl rfl rfl rfl rfl

theorem allPinsDue_leaves (s : State) : LeavesMemory s (allPinsDue s) :=
  .foldl (fun s p => by
    unfold pinsDue
    split
    · exact .refl s
    · exact .of_eq rfl rfl rfl rfl rfl rfl rfl) _ s

end Sys2Proof.Machine
end

section
/-! SUPPORT. A write by the device, and a context's entry into DEAD: Daleel is as before, a strand at reset stays one, and of the STATEs
of contexts only the one that dies changes. -/

namespace Sys2Proof.Machine

/-! ## Lines at their homes -/

theorem countL2_leaves (s : State) (d : Fin 4) (i n : Nat) : LeavesStrands s (countL2 s d i n) := ⟨rfl, rfl, rfl, rfl, rfl⟩
theorem putTag_leaves (s : State) (t : L2Tag) : LeavesStrands s (putTag s t) := ⟨rfl, rfl, rfl, rfl, rfl⟩
theorem freeEntries_leaves (s : State) : LeavesStrands s (freeEntries s) := ⟨rfl, rfl, rfl, rfl, rfl⟩
theorem freeDropped_leaves (s : State) (a : Nat) : LeavesStrands s (freeEntries (dropTag s a)) := ⟨rfl, rfl, rfl, rfl, rfl⟩
theorem unindex_leaves (s : State) (e : Nat) : LeavesStrands s (unindex s e) := ⟨rfl, rfl, rfl, rfl, rfl⟩
theorem index_leaves (s : State) (e : Nat) : LeavesStrands s (index s e) := ⟨rfl, rfl, rfl, rfl, rfl⟩
theorem releaseEntry_leaves (s : State) (t : L2Tag) : LeavesStrands s (releaseEntry s t) := ⟨rfl, rfl, rfl, rfl, rfl⟩

theorem postEvent_leaves (s : State) (kind reason : BitVec 8) (ctx : BitVec 12) (value addr : Word) :
    LeavesStrands s (postEvent s kind reason ctx value addr) := by
  constructor <;> simp [postEvent]

theorem newEntry_leaves (s : State) (t : L2Tag) (poison : Bool) : LeavesStrands s (newEntry s t poison) := by
  unfold newEntry
  split <;> exact ⟨rfl, rfl, rfl, rfl, rfl⟩

theorem keepPrivate_leaves (s : State) (t : L2Tag) : LeavesStrands s (keepPrivate s t) := by
  unfold keepPrivate
  split
  · exact putTag_leaves s t
  · exact newEntry_leaves s t false

theorem keepIndexed_leaves (s : State) (t : L2Tag) (e : Option Nat) : LeavesStrands s (keepIndexed s t e) := by
  unfold keepIndexed
  refine (keepPrivate_leaves s t).trans ?_
  cases e with
  | none =>
    dsimp only
    split
    · exact index_leaves _ _
    · exact .refl _
  | some e =>
    dsimp only
    split
    · split
      · exact (unindex_leaves _ e).trans (index_leaves _ _)
      · exact .refl _
    · exact .refl _

theorem tryShare_leaves (s : State) (t : L2Tag) (data : List Byte) : LeavesStrands s (tryShare s t data) := by
  unfold tryShare
  dsimp only
  split
  · exact keepPrivate_leaves s t
  split
  · exact (releaseEntry_leaves s t).trans (countL2_leaves _ _ _ _)
  split
  · exact keepPrivate_leaves s t
  split
  · split
    · split
      · exact putTag_leaves s t
      · exact ((putTag_leaves s _).trans (freeEntries_leaves _)).trans (countL2_leaves _ _ _ _)
    · exact keepIndexed_leaves s t _
  · exact keepIndexed_leaves s t _

theorem freshBlock_leaves (s : State) (a : Nat) : LeavesStrands s (freshBlock s a) := by
  unfold freshBlock
  split
  · exact .refl s
  dsimp only
  split
  · exact .refl s
  · refine .foldl (fun s i => ?_) _ s
    split
    · exact .refl s
    · exact ⟨rfl, rfl, rfl, rfl, rfl⟩

theorem logBlock_leaves (s : State) (a : Nat) : LeavesStrands s (logBlock s a).2 := by
  unfold logBlock
  split
  · exact .refl s
  refine (freshBlock_leaves s a).trans ?_
  dsimp only
  split
  · split
    · exact .refl _
    · refine .trans ?_ (postEvent_leaves _ _ _ _ _ _)
      exact ⟨rfl, rfl, rfl, rfl, rfl⟩
  · exact ⟨rfl, rfl, rfl, rfl, rfl⟩

theorem spillPoison_leaves (s : State) (a : Nat) : LeavesStrands s (spillPoison s a) := by
  unfold spillPoison
  split <;> exact ⟨rfl, rfl, rfl, rfl, rfl⟩

theorem evictLine_leaves (s : State) (a : Nat) : LeavesStrands s (evictLine s a) := by
  have h := logBlock_leaves s a
  unfold evictLine
  generalize logBlock s a = r at h
  obtain ⟨done, s'⟩ := r
  dsimp only at h ⊢
  split
  · split
    · cases done with
      | true => exact (h.trans (spillPoison_leaves s' a)).trans (freeDropped_leaves _ a)
      | false => exact h
    · exact freeDropped_leaves s a
  · exact freeDropped_leaves s a

theorem evictUntil_leaves (p : State → Bool) (a n : Nat) (kept : List Nat) (s : State) : LeavesStrands s (evictUntil p a n kept s) := by
  induction n generalizing kept s with
  | zero => exact .refl s
  | succ n ih =>
    unfold evictUntil
    split
    · exact .refl s
    · split
      · exact (evictLine_leaves s _).trans (ih _ _)
      · exact .refl s

theorem makeRoom_leaves (s : State) (a : Nat) : LeavesStrands s (makeRoom s a) := evictUntil_leaves _ _ _ _ s
theorem makeTag_leaves (s : State) (a : Nat) : LeavesStrands s (makeTag s a) := evictUntil_leaves _ _ _ _ s

theorem homeFill_leaves (s : State) (a : Nat) (dedup : Bool) (dom : BitVec 8) : LeavesStrands s (homeFill s a dedup dom) := by
  unfold homeFill
  refine (countL2_leaves s (homeDie s a) 0 1).trans ?_
  dsimp only
  split
  · exact .refl _
  · refine (((freshBlock_leaves _ a).trans (countL2_leaves _ (homeDie s a) 1 1)).trans (makeTag_leaves _ a)).trans ?_
    split
    · exact (makeRoom_leaves _ a).trans (tryShare_leaves _ _ _)
    · exact .refl _

theorem prepareWrite_leaves (s : State) (a : Nat) : LeavesStrands s (prepareWrite s a) := by
  unfold prepareWrite
  refine (makeRoom_leaves s a).trans ?_
  refine .trans (t := { makeRoom s a with lines := { (makeRoom s a).lines with rdc := (makeRoom s a).lines.rdc.filter fun r => r.2 ≠ a } })
    ⟨rfl, rfl, rfl, rfl, rfl⟩ ?_
  dsimp only
  split
  · exact .refl _
  · split
    · split
      · exact (newEntry_leaves _ _ _).trans (countL2_leaves _ _ _ _)
      · exact (putTag_leaves _ _).trans (unindex_leaves _ _)
    · exact (newEntry_leaves _ _ _).trans (countL2_leaves _ _ _ _)

theorem clearPoison_leaves (s : State) (a n : Nat) : LeavesStrands s (clearPoison s a n) := by
  constructor <;> simp

theorem clearEntryPoison_leaves (s : State) (a : Nat) : LeavesStrands s (clearEntryPoison s a) := by
  unfold clearEntryPoison
  split <;> exact ⟨rfl, rfl, rfl, rfl, rfl⟩

/-! ## Writes -/

/-- Bytes stored in memory, and those who watch an address woken. -/
theorem storeWake_leaves (s : State) (m : List Host.Cell) (a : Nat) : LeavesIdle s (wakeLine { s with mem := m } a) := by
  refine .trans ?_ (wakeLine_leaves _ a).toLeavesIdle
  exact .of_eq rfl rfl rfl rfl rfl

theorem writeLine_leaves (s : State) (l : Nat) (ps : List (Nat × List Byte)) : LeavesIdle s (writeLine s l ps) := by
  unfold writeLine
  refine (prepareWrite_leaves s l).idle.trans ?_
  dsimp only
  split
  · exact ((clearPoison_leaves _ l 128).trans (clearEntryPoison_leaves _ l)).idle.trans (storeWake_leaves _ _ l)
  · exact storeWake_leaves _ _ l

theorem homePatch_leaves (s : State) (l : Nat) (ps : List (Nat × List Byte)) (dedup : Bool) (dom : BitVec 8) :
    LeavesIdle s (homePatch s l ps dedup dom) := by
  unfold homePatch
  split
  · have tagged := (((freshBlock_leaves s l).trans (countL2_leaves _ (homeDie s l) 0 1)).trans (countL2_leaves _ (homeDie s l) 1 1)).trans
      (makeTag_leaves _ l)
    refine tagged.idle.trans ?_
    dsimp only
    split
    · exact ((makeRoom_leaves _ l).trans (newEntry_leaves _ _ _)).idle.trans (writeLine_leaves _ l ps)
    · exact writeLine_leaves _ l ps
  · exact (homeFill_leaves s l dedup dom).idle.trans (writeLine_leaves _ l ps)

theorem spadWrite_leaves (s : State) (a : Nat) (bs : List Byte) : LeavesIdle s (spadWrite s a bs) :=
  (clearPoison_leaves s _ _).idle.trans (storeWake_leaves _ _ _)

theorem physWrite_leaves (n : Nat) (s : State) (a : Nat) (bs : List Byte) (dedup : Bool) (dom : BitVec 8) :
    LeavesIdle s (physWrite n s a bs dedup dom) := by
  induction n generalizing s a bs with
  | zero => exact .refl s
  | succ n ih =>
    unfold physWrite
    split
    · exact .refl s
    split
    · exact (spadWrite_leaves s a _).trans (ih _ _ _)
    · exact (homePatch_leaves s _ _ dedup dom).trans (ih _ _ _)

theorem devWrite_leaves (s : State) (a : Nat) (bs : List Byte) : LeavesIdle s (devWrite s a bs) := physWrite_leaves _ _ _ _ _ _

/-! ## A context's entry into DEAD (R48) -/

theorem dropPins_leaves (s : State) (ctx : BitVec 12) : LeavesIdle s (dropPins s ctx) := by
  refine .trans ?_ (allPinsDue_leaves _).toLeavesIdle
  exact .of_eq rfl rfl rfl rfl rfl

theorem endWaits_leaves (s : State) (ans : WaitKey → Option (Nat × Word × Word)) : LeavesIdle s (endWaits s ans) := by
  refine .trans ?_ (modStrandsWhere_leaves rfl _ _).toLeavesIdle
  exact .of_eq rfl rfl rfl rfl rfl

theorem queueError_leaves (s : State) (q : Nat) (code : BitVec 8) (fail value addr : Word) : LeavesIdle s (queueError s q code fail value addr) := by
  unfold queueError
  dsimp only
  split
  · exact .refl s
  · refine .trans (LeavesStrands.idle ?_) (endWaits_leaves _ _)
    constructor <;> simp [setQueue]

theorem abortEntries_leaves (s : State) (ctx : BitVec 12) : LeavesIdle s (abortEntries s ctx) := by
  refine .foldl (fun s q => ?_) _ s
  dsimp only
  split
  · exact .refl s
  · refine .trans ?_ (queueError_leaves _ _ _ _ _ _)
    exact .of_eq rfl rfl rfl rfl rfl

/-- A strand's reset, with what it has sent forgotten. -/
theorem endStrand_leaves (s : State) (n : Nat) (copies : Bool) : LeavesMemory s (forgetReads (setStrand s n {}) n copies) :=
  (setStrand_reset_leaves s n).trans (forgetReads_leaves _ n copies)

/-- Once the launch processor has written STATE, the rest of a context's end leaves the STATEs as they are. -/
theorem contextDead_leaves {s : State} {ctx : BitVec 12} (h : ctxState s ctx ≠ 6) (reason : BitVec 8) (value addr : Word) :
    LeavesIdle (setCtxState s ctx 6) (contextDead s ctx reason value addr) := by
  unfold contextDead
  rw [if_neg h]
  refine .trans ?_ (abortEntries_leaves _ ctx)
  refine .trans ?_ (postEvent_leaves _ _ _ _ _ _).idle
  refine (dropPins_leaves _ ctx).trans ?_
  have ended := LeavesIdle.foldl (fun s n => (endStrand_leaves s n false).toLeavesIdle)
    (strandsWhere (dropPins (setCtxState s ctx 6) ctx) fun t => t.resident ∧ t.ctx = ctx) (dropPins (setCtxState s ctx 6) ctx)
  exact ended.trans (.of_eq rfl rfl rfl rfl rfl)

/-- What a context's end comes to: it is DEAD, Daleel is as before, and a strand at reset stays one. -/
theorem contextDead_effect (s : State) (ctx : BitVec 12) (reason : BitVec 8) (value addr : Word)
    (ha : sparseWf 0 s.lp.active = true) (ho : sparseWf {} s.others = true) :
    let t := contextDead s ctx reason value addr
    ctxState t ctx = 6 ∧ t.daleel = s.daleel ∧ t.cur = s.cur ∧ ∀ n, getStrand s n = {} → getStrand t n = {} := by
  intro t
  by_cases h : ctxState s ctx = 6
  · have : t = s := if_pos h
    rw [this]
    exact ⟨h, rfl, rfl, fun _ e => e⟩
  · have wrote := devWrite_leaves s (descAddr s ctx) (natToBytes 8 (setBits (descWord s ctx 0) 0 4 6).toNat)
    have ended : LeavesIdle (setCtxState s ctx 6) t := contextDead_leaves h reason value addr
    refine ⟨?_, ended.daleel.trans wrote.daleel, ended.cur.trans wrote.cur, fun n e => ended.blank (wrote.wf ho) n (wrote.blank ho n e)⟩
    have : sget 0 t.lp.active ctx.toNat = 6 := by
      rw [ended.active]
      show sget 0 (sset 0 _ ctx.toNat (BitVec.ofNat 4 6)) ctx.toNat = 6
      rw [sget_sset _ _ _ _ _ (by rw [wrote.active]; exact ha), if_pos rfl]
      rfl
    rw [ctxState, this]
    rfl

end Sys2Proof.Machine
end

section
/-! SUPPORT. A die's reset (R380): what its parts clear, and what they leave. -/

namespace Sys2Proof.Machine

/-! ## Clearing a die -/

/-- The tags of the die's lines go, and the vat entries that none names any more. -/
def clearTags (s : State) (d : Fin 4) : State :=
  (s.lines.tags.filter fun t => decide (homeDie s t.line = d)).foldl (fun s t => freeEntries (dropTag s t.line)) s

/-- The copies, translations, counters, held writes, walks and replies of the die go. -/
def clearLookups (s : State) (d : Fin 4) : State :=
  { s with lines := { s.lines with
    rdc := s.lines.rdc.filter fun r => r.1 ≠ d
    rdcBad := s.lines.rdcBad.filter fun r => r.1 ≠ d
    tlb := s.lines.tlb.filter fun e => e.1 ≠ d
    counters := s.lines.counters.filter fun c => ! decide (c.1 / 16 = d.val)
    sample := s.lines.sample.filter fun c => c.1 ≠ d.val
    writesHeld := s.lines.writesHeld.filter fun a => (sliceOf s a).1 ≠ d.val
    misses := s.lines.misses.filter fun m => m.die ≠ d
    missed := s.lines.missed.filter fun m => m.die ≠ d
    replies := s.lines.replies.filter fun r => ! onDie d r.core } }

/-- The routines of its cores stop. -/
def clearEngines (s : State) (d : Fin 4) : State :=
  { s with press := { s.press with engines := s.press.engines.filter fun e => ! onDie d e.2.core } }

/-- Its cores are at reset. -/
def clearCores (s : State) (d : Fin 4) : State :=
  (s.cores.map (·.1)).foldl (fun s c => if onDie d c then setCore s c {} else s) s

/-- Its strands are at reset, and what they have sent is forgotten. -/
def clearStrands (s : State) (d : Fin 4) : State :=
  (strandNums s).foldl (fun s n => if dieOf n = d then forgetReads (setStrand s n {}) n true else s) s

theorem clearDie_eq (s : State) (d : Fin 4) :
    clearDie s d = clearStrands (clearCores (clearEngines (allPinsDue (clearLookups (clearTags s d) d)) d) d) d := rfl

theorem clearTags_leaves (s : State) (d : Fin 4) : LeavesMemory s (clearTags s d) :=
  .foldl (f := fun s (t : L2Tag) => freeEntries (dropTag s t.line)) (fun _ _ => .of_eq rfl rfl rfl rfl rfl rfl rfl) _ s

theorem clearLookups_leaves (s : State) (d : Fin 4) : LeavesMemory s (clearLookups s d) := .of_eq rfl rfl rfl rfl rfl rfl rfl
theorem clearEngines_leaves (s : State) (d : Fin 4) : LeavesMemory s (clearEngines s d) := .of_eq rfl rfl rfl rfl rfl rfl rfl

theorem clearCores_leaves (s : State) (d : Fin 4) : LeavesMemory s (clearCores s d) :=
  .foldl (fun s c => by
    split
    · exact .of_eq rfl rfl rfl rfl rfl rfl rfl
    · exact .refl s) _ s

theorem clearStrands_leaves (s : State) (d : Fin 4) : LeavesMemory s (clearStrands s d) :=
  .foldl (fun s n => by
    split
    · exact endStrand_leaves s n true
    · exact .refl s) _ s

/-- Up to the die's strands. -/
theorem clearUnits_leaves (s : State) (d : Fin 4) :
    LeavesMemory s (clearCores (clearEngines (allPinsDue (clearLookups (clearTags s d) d)) d) d) :=
  ((((clearTags_leaves s d).trans (clearLookups_leaves _ d)).trans (allPinsDue_leaves _)).trans (clearEngines_leaves _ d)).trans
    (clearCores_leaves _ d)

theorem clearDie_leaves (s : State) (d : Fin 4) : LeavesMemory s (clearDie s d) :=
  (clearUnits_leaves s d).trans (clearStrands_leaves _ d)

/-- The strands of the die are at reset. -/
theorem getStrand_clearStrands {s : State} {d : Fin 4} (h : sparseWf {} s.others = true) {n : Nat} (hn : dieOf n = d) :
    getStrand (clearStrands s d) n = {} := by
  by_cases hm : n ∈ strandNums s
  · refine foldl_reaches (I := fun s => sparseWf {} s.others = true) (P := fun s => getStrand s n = {}) hm h ?_ ?_ ?_
    · intro s k hs
      split
      · exact (endStrand_leaves s k true).wf hs
      · exact hs
    · intro s hs
      rw [if_pos hn]
      exact (getStrand_setStrand hs n {} n).trans (if_pos rfl)
    · intro s k hs hb
      split
      · exact (endStrand_leaves s k true).blank hs n hb
      · exact hb
  · exact (clearStrands_leaves s d).blank h n (getStrand_of_not_mem hm)

/-- The cores of the die are at reset. -/
theorem getCore_clearCores {s : State} {d : Fin 4} (h : sparseWf {} s.cores = true) {c : Nat} (hc : onDie d c = true) :
    getCore (clearCores s d) c = {} := by
  have step (s : State) (k : Nat) (hs : sparseWf {} s.cores = true) (hb : getCore s c = {}) :
      getCore (if onDie d k then setCore s k {} else s) c = {} := by
    split
    · rw [getCore_setCore hs]; split <;> simp [hb]
    · exact hb
  have wf (s : State) (k : Nat) (hs : sparseWf {} s.cores = true) : sparseWf {} (if onDie d k then setCore s k {} else s).cores = true := by
    split
    · exact setCore_cores_wf hs k {}
    · exact hs
  by_cases hm : c ∈ s.cores.map (·.1)
  · refine foldl_reaches (I := fun s => sparseWf {} s.cores = true) (P := fun s => getCore s c = {}) hm h wf ?_ step
    intro s hs
    rw [if_pos hc, getCore_setCore hs, if_pos rfl]
  · have rest : ∀ (l : List Nat) (s : State), sparseWf {} s.cores = true → getCore s c = {} →
        getCore (l.foldl (fun s c => if onDie d c then setCore s c {} else s) s) c = {} := by
      intro l
      induction l with
      | nil => exact fun _ _ h => h
      | cons k l ih => exact fun s hs hb => ih _ (wf s k hs) (step s k hs hb)
    exact rest _ s h (sget_of_not_mem hm)

theorem allPinsDue_cores (s : State) : (allPinsDue s).cores = s.cores :=
  foldl_keeps State.cores (fun s p => by unfold pinsDue; split <;> rfl) _ s

theorem clearTags_cores (s : State) (d : Fin 4) : (clearTags s d).cores = s.cores :=
  foldl_keeps (f := fun s (t : L2Tag) => freeEntries (dropTag s t.line)) State.cores (fun _ _ => rfl) _ s

/-- Up to the die's cores, the cores are as before. -/
theorem clearEngines_cores (s : State) (d : Fin 4) : (clearEngines (allPinsDue (clearLookups (clearTags s d) d)) d).cores = s.cores :=
  (allPinsDue_cores (clearLookups (clearTags s d) d)).trans (clearTags_cores s d)

theorem clearStrands_cores (s : State) (d : Fin 4) : (clearStrands s d).cores = s.cores :=
  foldl_keeps State.cores (fun s n => by
    split
    · exact setStrand_cores s n {}
    · rfl) _ s

/-! ## Waking those who watch the die -/

theorem modStrandsWhere_cores (s : State) (p : Strand → Bool) (f : Strand → Strand) : (modStrandsWhere s p f).cores = s.cores :=
  foldl_keeps State.cores (fun s n => setStrand_cores s n _) _ s

theorem wakeLine_cores (s : State) (a : Nat) : (wakeLine s a).cores = s.cores := by
  unfold wakeLine
  split
  · exact foldl_keeps State.cores (fun s n => setStrand_cores s n _) _ _
  · rfl

theorem wakeDie_leaves (s : State) (d : Fin 4) : LeavesMemory s (wakeDie s d) := by
  unfold wakeDie
  exact .trans (.foldl wakeLine_leaves _ s) (.foldl (fun s g => wakeKey_leaves s _) _ _)

theorem wakeDie_cores (s : State) (d : Fin 4) : (wakeDie s d).cores = s.cores := by
  unfold wakeDie
  exact (foldl_keeps State.cores (fun s g => modStrandsWhere_cores s _ _) _ _).trans (foldl_keeps State.cores wakeLine_cores _ s)

/-! ## Entering and leaving reset -/

/-- Die d is made up, draining or in reset (R380). -/
def setDie (s : State) (d : Fin 4) (x : DieState) : State := { s with daleel := { s.daleel with dies := s.daleel.dies.set d.val x } }

@[simp] theorem setDie_cur (s : State) (d : Fin 4) (x : DieState) : (setDie s d x).cur = s.cur := rfl
@[simp] theorem setDie_st (s : State) (d : Fin 4) (x : DieState) : (setDie s d x).st = s.st := rfl
@[simp] theorem setDie_others (s : State) (d : Fin 4) (x : DieState) : (setDie s d x).others = s.others := rfl
@[simp] theorem setDie_cores (s : State) (d : Fin 4) (x : DieState) : (setDie s d x).cores = s.cores := rfl
@[simp] theorem setDie_mem (s : State) (d : Fin 4) (x : DieState) : (setDie s d x).mem = s.mem := rfl
@[simp] theorem setDie_lp (s : State) (d : Fin 4) (x : DieState) : (setDie s d x).lp = s.lp := rfl
@[simp] theorem setDie_ev (s : State) (d : Fin 4) (x : DieState) : (setDie s d x).ev = s.ev := rfl
@[simp] theorem setDie_daleel (s : State) (d : Fin 4) (x : DieState) :
    (setDie s d x).daleel = { s.daleel with dies := s.daleel.dies.set d.val x } := rfl

/-- The record of a die that changes its state. -/
def dieRecord (d : Fin 4) (reason : BitVec 8) : EvRec := { kind := 0x1B, reason, ctx := 0, queue := 0, value := w64 d.val, addr := 0 }

/-- What a die's entry into reset comes to. -/
structure DieDown (s : State) (d : Fin 4) (reason : BitVec 8) (t : State) : Prop where
  cur    : t.cur = s.cur
  daleel : t.daleel = { s.daleel with dies := s.daleel.dies.set d.val .inReset }
  mem    : t.mem = s.mem
  lp     : t.lp = s.lp
  ev     : t.ev = (postRecord s (dieRecord d reason)).ev
  wf     : sparseWf {} s.others = true → sparseWf {} t.others = true
  strand : sparseWf {} s.others = true → ∀ n, dieOf n = d → getStrand t n = {}
  core   : sparseWf {} s.cores = true → ∀ c, dieOf (4 * c) = d → getCore t c = {}

theorem dieDown_eq (s : State) (d : Fin 4) (reason : BitVec 8) :
    dieDown s d reason = wakeDie (postRecord (setDie (clearDie s d) d .inReset) (dieRecord d reason)) d := rfl

theorem dieDown_effect (s : State) (d : Fin 4) (reason : BitVec 8) : DieDown s d reason (dieDown s d reason) := by
  have cleared := clearDie_leaves s d
  have woken := wakeDie_leaves (postRecord (setDie (clearDie s d) d .inReset) (dieRecord d reason)) d
  have wf (h : sparseWf {} s.others = true) : sparseWf {} (postRecord (setDie (clearDie s d) d .inReset) (dieRecord d reason)).others = true := by
    rw [postRecord_others, setDie_others]; exact cleared.wf h
  rw [dieDown_eq]
  constructor
  case cur => rw [woken.cur, postRecord_cur, setDie_cur, cleared.cur]
  case daleel => rw [woken.daleel, postRecord_daleel, setDie_daleel, cleared.daleel]
  case mem => rw [woken.mem, postRecord_mem, setDie_mem, cleared.mem]
  case lp => rw [woken.lp, postRecord_lp, setDie_lp, cleared.lp]
  case ev => exact woken.ev.trans (postRecord_ev_congr (by rw [setDie_ev, cleared.ev]) _)
  case wf => exact fun h => woken.wf (wf h)
  case strand =>
    intro h n hn
    refine woken.blank (wf h) n ?_
    rw [getStrand, postRecord_cur, postRecord_st, postRecord_others, setDie_cur, setDie_st, setDie_others, ← getStrand]
    exact getStrand_clearStrands ((clearUnits_leaves s d).wf h) hn
  case core =>
    intro h c hc
    rw [getCore, wakeDie_cores, postRecord_cores, setDie_cores, clearDie_eq, clearStrands_cores]
    exact getCore_clearCores (by rw [clearEngines_cores]; exact h) (by simp [onDie, hc])

end Sys2Proof.Machine
end

section
/-! Die resets (R380). -/

namespace Sys2Proof.Machine

/-- DIRTY lines are lost, of which there are none. -/
theorem loseDirty_clean {s : State} {p : L2Tag → Bool} (h : ∀ x ∈ s.lines.tags, p x = true → x.dirty = none) : loseDirty s p = s := by
  unfold loseDirty
  have : ∀ l : List L2Tag, (∀ x ∈ l, x.dirty = none) →
      l.foldl (fun s t => match t.dirty with | some old => { s with mem := memWrite s.mem t.line old } | none => s) s = s := by
    intro l
    induction l with
    | nil => exact fun _ => rfl
    | cons x l ih =>
      intro hl
      rw [List.foldl_cons, hl x (by simp)]
      exact ih fun y hy => hl y (by simp [hy])
  exact this _ fun x hx => h x (List.mem_filter.mp hx).1 (List.mem_filter.mp hx).2

/-- Every strand that is listed is one of the device. -/
def Below (s : State) : Prop := s.cur.val < 4096 ∧ ∀ x ∈ s.others, x.1 < 4096

theorem Below.lt {s : State} (h : Below s) {n : Nat} (hn : n ∈ strandNums s) : n < 4096 := by
  rcases mem_insertNat.mp hn with rfl | hn
  · exact h.1
  · obtain ⟨x, hx, rfl⟩ := List.mem_map.mp hn
    exact h.2 x hx

/-- Nothing that holds up the reset of a die stands on it: no strand, copy command, routine or DIRTY line. -/
structure DieEmpty (s : State) (d : Fin 4) : Prop where
  strands : ∀ n, n < 4096 → dieOf n = d → (getStrand s n).resident = false
  copies  : ∀ k ∈ s.cores, dieOf (4 * k.1) = d → k.2.commands = []
  engines : ∀ e ∈ s.press.engines, dieOf (4 * e.2.core) ≠ d
  lines   : ∀ x ∈ s.lines.tags, homeDie s x.line = d → x.dirty = none

theorem DieEmpty.not_resident {s : State} {d : Fin 4} (h : DieEmpty s d) (hb : Below s) {n : Nat}
    (hn : n ∈ strandsWhere s fun t => t.resident) : dieOf n ≠ d := by
  obtain ⟨hm, hr⟩ := mem_strandsWhere.mp hn
  intro e
  rw [h.strands n (hb.lt hm) e] at hr
  cases hr

theorem DieEmpty.drained {s : State} {d : Fin 4} (h : DieEmpty s d) (hb : Below s) : drainedDie s d = true := by
  unfold drainedDie onDie
  simp only [Bool.and_eq_true, Bool.not_eq_true', List.any_eq_false, decide_eq_true_eq]
  refine ⟨⟨fun n hn => h.not_resident hb hn, fun k hk => ?_⟩, h.engines⟩
  rintro ⟨e, hc⟩
  simp [h.copies k hk e] at hc

theorem DieEmpty.cleanDie {s : State} {d : Fin 4} (h : DieEmpty s d) : cleanDie s d = s := by
  have : (s.lines.tags.filter fun t => decide (homeDie s t.line = d) && t.dirty.isSome) = [] := by
    refine List.filter_eq_nil_iff.mpr fun x hx hp => ?_
    simp only [Bool.and_eq_true, decide_eq_true_eq] at hp
    simp [h.lines x hx hp.1] at hp
  rw [Machine.cleanDie, this, List.foldl_nil]

theorem DieEmpty.no_dirty {s : State} {d : Fin 4} (h : DieEmpty s d) :
    (s.lines.tags.any fun t => decide (homeDie s t.line = d) && t.dirty.isSome) = false := by
  simp only [List.any_eq_false, Bool.and_eq_true, decide_eq_true_eq]
  rintro x hx ⟨hd, hs⟩
  simp [h.lines x hx hd] at hs

/-- An orderly reset of a die that is drained ends (R380). -/
theorem execDieEnterReset_drained {s : State} {d : Fin 4} (hs : s.daleel.dies[d.val] = .draining) (h : DieEmpty s d) (hb : Below s) :
    execDieEnterReset d s = .next (dieDown s d 1) := by
  unfold execDieEnterReset
  rw [if_neg (by simp [hs]), if_neg (by simp [h.drained hb])]
  dsimp only
  rw [h.cleanDie, h.no_dirty]
  rfl

/-- A fatal reset of a die without strands is the die's entry into reset. -/
theorem fatalReset_empty {s : State} {d : Fin 4} (hs : s.daleel.dies[d.val] ≠ .inReset) (h : DieEmpty s d) (hb : Below s) :
    fatalReset d s = dieDown s d 2 := by
  have none : ((strandsWhere s fun t => t.resident).filter fun n => decide (dieOf n = d)) = [] :=
    List.filter_eq_nil_iff.mpr fun n hn => by simpa using h.not_resident hb hn
  unfold fatalReset
  rw [if_neg hs, none, loseDirty_clean fun x hx hp => h.lines x hx (of_decide_eq_true hp)]
  rfl

/-- A fatal reset of a die whose only strand is the focused one, with no tag anywhere, ends the strand's context. -/
theorem fatalReset_alone {s : State} {d : Fin 4} (hs : s.daleel.dies[d.val] ≠ .inReset) (hr : s.st.resident = true)
    (hd : dieOf s.cur.val = d) (ho : s.others = []) (ht : s.lines.tags = []) :
    fatalReset d s = contextDead (dieDown s d 2) s.st.ctx 5 (w64 d.val) 0 := by
  have alone : (strandsWhere s fun t => t.resident) = [s.cur.val] := by
    simp [strandsWhere, strandNums, ho, insertNat, getStrand_cur, hr]
  have once : [s.st.ctx].eraseDups = [s.st.ctx] := rfl
  unfold fatalReset
  rw [if_neg hs, alone, loseDirty_clean (by simp [ht])]
  simp only [List.filter_cons, hd, decide_true, if_true, List.filter_nil, List.map_cons, getStrand_cur, List.map_nil,
    once, List.foldl_cons, List.foldl_nil]

theorem dieResets : Claims.DieResets := by
  intro s d
  dsimp only
  intro hc hb
  have empty (h : (∀ n, n < 4096 → dieOf n = d → (getStrand s n).resident = false) ∧ (∀ k ∈ s.cores, dieOf (4 * k.1) = d → k.2.commands = []) ∧
      (∀ e ∈ s.press.engines, dieOf (4 * e.2.core) ≠ d) ∧ ∀ x ∈ s.lines.tags, homeDie s x.line = d → x.dirty = none) : DieEmpty s d := by
    obtain ⟨strands, copies, engines, lines⟩ := h
    exact ⟨strands, copies, engines, lines⟩
  have event {t : State} {r : BitVec 8} (h : DieDown s d r t) : Claims.Event s t 0x1B r.toNat := ⟨dieRecord d r, rfl, rfl, h.ev⟩
  refine ⟨fun hs h => ?_, fun hs => ?_, fun hs h => ?_, fun hs hr hd ho ht _ _ _ _ => ?_, fun hs => ?_⟩
  · -- an orderly reset ends
    have down := dieDown_effect s d 1
    refine ⟨_, execDieEnterReset_drained hs (empty h) hb, by rw [down.daleel], event down, down.mem, fun n _ hn => down.strand hc.others n hn, down.core hc.cores⟩
  · show execDieEnterReset d s = _
    unfold execDieEnterReset
    rw [if_pos hs]
  · -- a fatal reset of an empty die
    have down := dieDown_effect s d 2
    exact ⟨_, congrArg Host.Outcome.next (fatalReset_empty hs (empty h) hb), by rw [down.daleel], event down, down.mem⟩
  · -- a fatal reset under a strand
    have down := dieDown_effect s d 2
    obtain ⟨dead, daleel, cur, blank⟩ := contextDead_effect (dieDown s d 2) s.st.ctx 5 (w64 d.val) 0 (by rw [down.lp]; exact hc.active) (down.wf hc.others)
    refine ⟨_, congrArg Host.Outcome.next (fatalReset_alone hs hr hd ho ht), by rw [daleel, down.daleel], dead, ?_⟩
    rw [← getStrand_cur, cur, down.cur]
    exact blank _ (down.strand hc.others _ hd)
  · show Host.Outcome.next (fatalReset d s) = _
    rw [fatalReset, if_pos hs]

end Sys2Proof.Machine
end

section
/-! Resets, power, and the registers of a core (R8, R205, R373, R374, R378, R379). -/

namespace Sys2Proof.Machine

/-! ## Cold reset and power (R8, R374) -/

/-- The only tag is DIRTY: its line has the content last written back. -/
theorem loseDirty_one {s : State} {p : L2Tag → Bool} {x : L2Tag} {old : List Byte} (ht : s.lines.tags = [x]) (hp : p x = true)
    (hd : x.dirty = some old) : (loseDirty s p).mem = memWrite s.mem x.line old := by
  have one : [x].filter p = [x] := by rw [List.filter_cons, if_pos hp, List.filter_nil]
  rw [loseDirty, ht, one, List.foldl_cons, List.foldl_nil, hd]

/-- A byte of memory after a write. -/
theorem memByte_memWrite (m : List Host.Cell) (a : Nat) (bs : List Byte) (q : Nat) (h : Memory.wf m = true) :
    memByte (memWrite m a bs) q = if a ≤ q ∧ q < a + bs.length then bs.getD (q - a) 0 else memByte m q := by
  split
  · next hq =>
    obtain ⟨i, rfl⟩ := Nat.exists_eq_add_of_le hq.1
    have hi : i < bs.length := by omega
    rw [memByte_memWrite_inside m a bs i h hi, Nat.add_sub_cancel_left, List.getD_eq_getElem bs 0 hi]
  · exact memByte_memWrite_outside m a bs q h (by omega)

theorem execColdReset_powered {s : State} (h : s.daleel.powered = true) : exec .coldReset s = .next (coldReset s) :=
  congrArg Host.Outcome.next (if_pos h)

theorem execColdReset_unpowered {s : State} (h : s.daleel.powered = false) : exec .coldReset s = .next s :=
  congrArg Host.Outcome.next (if_neg (by simp [h]))

theorem execModulePowerOn_powered {s : State} (h : s.daleel.powered = true) : exec .modulePowerOn s = .next s :=
  congrArg Host.Outcome.next (if_pos h)

theorem execModulePowerOn_unpowered {s : State} (h : s.daleel.powered = false) :
    exec .modulePowerOn s = .next { s with daleel := { s.daleel with powered := true } } :=
  congrArg Host.Outcome.next (if_neg (by simp [h]))

theorem resets : Claims.Resets := by
  intro s
  dsimp only
  refine ⟨fun hp => ?_, fun hp => ⟨execColdReset_unpowered hp, execModulePowerOn_unpowered hp⟩, execModulePowerOn_powered, ?_⟩
  · refine ⟨coldReset s, execColdReset_powered hp, ⟨rfl, rfl, rfl, rfl, rfl, rfl, rfl, rfl, rfl, rfl, rfl, rfl, rfl, rfl, rfl, rfl, rfl, rfl⟩,
      rfl, rfl, fun hc => ?_, fun x old ht hd hl hc q => ?_⟩
    · have clean : loseDirty s (fun _ => true) = s := loseDirty_clean fun x hx _ => hc x hx
      show (loseDirty s fun _ => true).mem = s.mem
      rw [clean]
    · have mem : (coldReset s).mem = memWrite s.mem x.line old := loseDirty_one (p := fun _ => true) ht rfl hd
      rw [mem, memByte_memWrite _ _ _ _ hc.mem, hl]
  · exact ⟨_, rfl, ⟨rfl, rfl, rfl, rfl, rfl, rfl, rfl, rfl, rfl, rfl, rfl, rfl, rfl, rfl, rfl, rfl, rfl, rfl⟩, rfl, rfl, rfl⟩

/-! ## The host port's reach (R374, R375) -/

/-- A register that minimal mode does not reach answers just while the module serves. -/
theorem hostMay_iff {s : State} {o : Nat} (h : inMinimal o = false) : hostMay s o = true ↔ Claims.Serves s := by
  unfold hostMay minimal Claims.Serves
  rw [h]
  cases s.daleel.bootcause.getLsbD 0 <;> simp

theorem byHost_serves {s : State} {o : Nat} (h : inMinimal o = false) (hs : Claims.Serves s) (f : State → State) : byHost o f s = f s :=
  if_pos ((hostMay_iff h).mpr hs)

theorem byHost_dropped {s : State} {o : Nat} (h : inMinimal o = false) (hs : ¬ Claims.Serves s) (f : State → State) : byHost o f s = s :=
  if_neg fun e => hs ((hostMay_iff h).mp e)

theorem inMinimal_disable (c : Fin 1024) : inMinimal (0x10000 + 16 * c.val) = false := by
  simp only [inMinimal, decide_eq_false_iff_not]; omega

theorem inMinimal_lgce (c : Fin 1024) : inMinimal (0x10008 + 16 * c.val) = false := by
  simp only [inMinimal, decide_eq_false_iff_not]; omega

/-! ## Retiring lane groups (R373, R84) -/

theorem retireStrand_idle {s : State} {n : Nat} (h : (getStrand s n).resident = false) : retireStrand s n = s := by
  unfold retireStrand
  simp [h]

/-- Strands that are not resident see nothing of a retirement. -/
theorem foldl_retireStrand_idle {s : State} {l : List Nat} (h : ∀ n ∈ l, (getStrand s n).resident = false) : l.foldl retireStrand s = s := by
  induction l with
  | nil => rfl
  | cons n l ih => rw [List.foldl_cons, retireStrand_idle (h n (by simp))]; exact ih fun k hk => h k (by simp [hk])

/-- TrapEntry in user mode (R56). -/
theorem enterTrap_user {cause : BitVec 8} {val : Word} {tpc : VAddr} {resume : Word} {s : State} (h : s.st.priv = false) :
    enterTrap cause val tpc resume s = { forgetWaits s.cur.val s with st := { s.st with
      hold := s.st.viq
      holdAt := resume
      viq := []
      park := 0
      wait := .none
      passed := 0
      qerr := none
      slotWoke := none
      dogFrom := if s.st.park ≠ 0 then s.cycle else s.st.dogFrom
      await := 0
      trap := { s.st.trap with tcause := causeWord cause false (! s.st.viq.isEmpty), tval := val, tpc := vaWord tpc }
      priv := true
      pc := vaOf s.st.trap.tvec } } := by
  unfold enterTrap
  simp only [h, Bool.false_eq_true, false_and, if_false]
  rfl

/-- An asynchronous trap in user mode changes the focused strand alone, and what it waits for. -/
theorem asyncTrap_user_cur {cause : BitVec 8} {val : Word} {s : State} (h : s.st.priv = false) : (asyncTrap cause val s).cur = s.cur := by
  rw [asyncTrap, enterTrap_user h]; rfl
theorem asyncTrap_user_others {cause : BitVec 8} {val : Word} {s : State} (h : s.st.priv = false) :
    (asyncTrap cause val s).others = s.others := by
  rw [asyncTrap, enterTrap_user h]; rfl
theorem asyncTrap_user_cores {cause : BitVec 8} {val : Word} {s : State} (h : s.st.priv = false) :
    (asyncTrap cause val s).cores = s.cores := by
  rw [asyncTrap, enterTrap_user h]; rfl
theorem asyncTrap_user_mem {cause : BitVec 8} {val : Word} {s : State} (h : s.st.priv = false) :
    (asyncTrap cause val s).mem = s.mem := by
  rw [asyncTrap, enterTrap_user h]; rfl
theorem asyncTrap_user_st {cause : BitVec 8} {val : Word} {s : State} (h : s.st.priv = false) : (asyncTrap cause val s).st = { s.st with
      hold := s.st.viq
      holdAt := s.st.csr.vstart
      viq := []
      park := 0
      wait := .none
      passed := 0
      qerr := none
      slotWoke := none
      dogFrom := if s.st.park ≠ 0 then s.cycle else s.st.dogFrom
      await := 0
      trap := { s.st.trap with tcause := causeWord cause false (! s.st.viq.isEmpty), tval := val, tpc := vaWord s.st.pc }
      priv := true
      pc := vaOf s.st.trap.tvec } := by
  rw [asyncTrap, enterTrap_user h]

@[simp] theorem focusOn_cur (s : State) : focusOn s s.cur = s := if_pos rfl

/-- The strand as a retirement leaves it for the trap: its reservation smaller, its vector registers lost (R84, R57). -/
def retired (k : Core) (t : Strand) : Strand := loseVectors { t with item := { t.item with units := t.item.vrfh * laneGroups k / 4 } }

theorem retireStrand_resident {s : State} {n : Nat} (h : (getStrand s n).resident = true) :
    retireStrand s n = focusOn (asyncTrap 0x11 ((laneMask (getCore s (coreOf n))).zeroExtend 64)
      (focusOn (modStrand s n (retired (getCore s (coreOf n)))) (Fin.ofNat 4096 n))) s.cur := by
  unfold retireStrand
  dsimp only
  rw [if_neg (by simp [h]), ← setStrand_cur s n (retired (getCore s (coreOf n)) (getStrand s n))]
  rfl

/-- The focused strand, resident and in user mode, takes the trap of a retirement. -/
theorem retireStrand_cur {s : State} (h : s.st.resident = true) (hp : s.st.priv = false) :
    retireStrand s s.cur.val = asyncTrap 0x11 ((laneMask (getCore s (curCore s))).zeroExtend 64)
      (setStrand s s.cur.val (retired (getCore s (curCore s)) s.st)) := by
  have there : Fin.ofNat 4096 s.cur.val = s.cur := by simp
  have user : (setStrand s s.cur.val (retired (getCore s (curCore s)) s.st)).st.priv = false := by rw [setStrand_focused]; exact hp
  rw [retireStrand_resident (by rw [getStrand_cur, h]), there, ← curCore, modStrand, getStrand_cur]
  have back := focusOn_cur (setStrand s s.cur.val (retired (getCore s (curCore s)) s.st))
  rw [setStrand_cur] at back
  rw [back, focusOn, if_pos ((asyncTrap_user_cur user).trans (setStrand_cur s _ _)).symm]

/-- Of the strands of a core, the focused one alone is resident: only it sees the retirement. -/
theorem foldl_retireStrand_cur {s : State} {l : List Nat} (hl : l.Nodup) (hc : s.cur.val ∈ l) (ho : s.others = [])
    (h : s.st.resident = true) (hp : s.st.priv = false) : l.foldl retireStrand s = retireStrand s s.cur.val := by
  have away {t : State} (ht : t.cur = s.cur) (hto : t.others = []) {n : Nat} (hn : n ≠ s.cur.val) : (getStrand t n).resident = false := by
    rw [getStrand, ht, if_neg hn, hto]; rfl
  induction l with
  | nil => simp at hc
  | cons n l ih =>
    obtain ⟨hn, hl⟩ := List.nodup_cons.mp hl
    rw [List.foldl_cons]
    by_cases e : n = s.cur.val
    · rw [e]
      refine foldl_retireStrand_idle fun k hk => away ?_ ?_ fun hk' => hn (e ▸ hk' ▸ hk)
      · rw [retireStrand_cur h hp, asyncTrap_user_cur (setStrand_focused s _ ▸ hp), setStrand_cur]
      · rw [retireStrand_cur h hp, asyncTrap_user_others (setStrand_focused s _ ▸ hp), setStrand_focused_others, ho]
    · rw [retireStrand_idle (away rfl ho e)]
      exact ih hl (by simpa [Ne.symm e] using hc)

theorem strandsOf_nodup (c : Nat) : (strandsOf c).Nodup := by simp [strandsOf]

theorem cur_mem_strandsOf (s : State) : s.cur.val ∈ strandsOf (curCore s) := by
  simp only [strandsOf, curCore, coreOf, List.mem_cons, List.not_mem_nil, or_false]; omega

theorem foldl_retireStrand_own {s : State} (ho : s.others = []) (h : s.st.resident = true) (hp : s.st.priv = false) :
    (strandsOf (curCore s)).foldl retireStrand s = asyncTrap 0x11 ((laneMask (getCore s (curCore s))).zeroExtend 64)
      (setStrand s s.cur.val (retired (getCore s (curCore s)) s.st)) :=
  (foldl_retireStrand_cur (strandsOf_nodup _) (cur_mem_strandsOf s) ho h hp).trans (retireStrand_cur h hp)

/-- DISABLE of a core with more groups in it. -/
def disabled (k : Core) (mask : BitVec 4) : Core := { k with disable := k.disable ||| mask }

theorem retireGroups_none {s : State} {c : Nat} {mask : BitVec 4} (h : mask &&& ~~~(getCore s c).disable = 0) : retireGroups s c mask = s :=
  if_pos h

theorem retireGroups_some {s : State} {c : Nat} {mask : BitVec 4} (h : mask &&& ~~~(getCore s c).disable ≠ 0) :
    retireGroups s c mask = (strandsOf c).foldl retireStrand (setCore s c (disabled (getCore s c) mask)) := if_neg h

/-- On a core without resident strands the groups are disabled, and nothing else changes. -/
theorem retireGroups_idle {s : State} {c : Nat} {mask : BitVec 4} (h : mask &&& ~~~(getCore s c).disable ≠ 0)
    (hr : ∀ n ∈ strandsOf c, (getStrand s n).resident = false) : retireGroups s c mask = setCore s c (disabled (getCore s c) mask) := by
  rw [retireGroups_some h]
  exact foldl_retireStrand_idle hr

/-- On the core of the focused strand, the only one there is, it takes the trap besides. -/
theorem retireGroups_cur {s : State} {mask : BitVec 4} (h : mask &&& ~~~(getCore s (curCore s)).disable ≠ 0)
    (hw : sparseWf {} s.cores = true) (ho : s.others = []) (hr : s.st.resident = true) (hp : s.st.priv = false) :
    retireGroups s (curCore s) mask = asyncTrap 0x11 ((~~~((getCore s (curCore s)).disable ||| mask)).zeroExtend 64)
      (setStrand (setCore s (curCore s) (disabled (getCore s (curCore s)) mask)) s.cur.val
        (retired (disabled (getCore s (curCore s)) mask) s.st)) := by
  have core : getCore (setCore s (curCore s) (disabled (getCore s (curCore s)) mask)) (curCore s) = disabled (getCore s (curCore s)) mask := by
    rw [getCore_setCore hw, if_pos rfl]
  rw [retireGroups_some h]
  refine (foldl_retireStrand_own (s := setCore s (curCore s) (disabled (getCore s (curCore s)) mask)) ho hr hp).trans ?_
  rw [show curCore (setCore s (curCore s) (disabled (getCore s (curCore s)) mask)) = curCore s from rfl, core]
  rfl

/-! ## LGCE, PWRNOW and power gating (R372, R378, R379) -/

theorem getD_toList {α : Type} {n : Nat} (v : Vector α n) (i : Nat) (d : α) (h : i < n) : v.toList.getD i d = v[i] := by
  rw [List.getD_eq_getElem _ _ (by simpa using h), Vector.getElem_toList]

/-- The four counts of LGCE (R372). -/
def lgceWord (k : Core) : Nat := k.ce[0].toNat + k.ce[1].toNat * 2 ^ 16 + k.ce[2].toNat * 2 ^ 32 + k.ce[3].toNat * 2 ^ 48

theorem lgceWord_eq (k : Core) : (List.range 4).foldl (fun n g => n + (k.ce.toList.getD g 0).toNat * 2 ^ (16 * g)) 0 = lgceWord k := by
  have range : List.range 4 = [0, 1, 2, 3] := rfl
  rw [range, List.foldl_cons, List.foldl_cons, List.foldl_cons, List.foldl_cons, List.foldl_nil,
    getD_toList _ 0 _ (by decide), getD_toList _ 1 _ (by decide), getD_toList _ 2 _ (by decide), getD_toList _ 3 _ (by decide)]
  simp only [Nat.mul_zero, pow_zero, Nat.mul_one, Nat.zero_add, Nat.reduceMul, lgceWord]

theorem readLgce_eq (s : State) (c : Nat) :
    readLgce s c = (w64 (lgceWord (getCore s c)), setCore s c { getCore s c with ce := Vector.replicate 4 0 }) := by
  rw [readLgce, lgceWord_eq]

theorem lgceWord_lt (k : Core) : lgceWord k < 2 ^ 64 := by
  have h0 := k.ce[0].isLt
  have h1 := k.ce[1].isLt
  have h2 := k.ce[2].isLt
  have h3 := k.ce[3].isLt
  unfold lgceWord
  omega

theorem toNat_lgceWord (k : Core) : (w64 (lgceWord k)).toNat = lgceWord k := by
  rw [w64, BitVec.toNat_ofNat, Nat.mod_eq_of_lt (lgceWord_lt k)]

/-- A core without resident strands and copy commands is idle (R379). -/
theorem residentStrands_eq_nil {s : State} {c : Nat} : residentStrands s c = [] ↔ ∀ n ∈ strandsOf c, (getStrand s n).resident = false := by
  simp [residentStrands, List.filter_eq_nil_iff]

theorem execCorePowerGate_idle {s : State} {c : Fin 1024} (hk : (getCore s c.val).commands = [])
    (hr : ∀ n ∈ strandsOf c.val, (getStrand s n).resident = false) :
    execCorePowerGate c s = .next (setCore s c.val { getCore s c.val with l1 := [], tlb := [], gated := true }) := by
  unfold execCorePowerGate
  rw [if_neg (by simp [residentStrands_eq_nil.mpr hr, hk])]
  rfl

theorem execCorePowerGate_busy {s : State} {c : Fin 1024}
    (h : ¬ ((getCore s c.val).commands = [] ∧ ∀ n ∈ strandsOf c.val, (getStrand s n).resident = false)) :
    execCorePowerGate c s = .next s := by
  unfold execCorePowerGate
  rw [if_pos]
  by_contra hn
  obtain ⟨hr, hk⟩ := not_or.mp hn
  exact h ⟨not_not.mp hk, residentStrands_eq_nil.mp (not_not.mp hr)⟩

theorem execLgceRead_serves {s : State} (hs : Claims.Serves s) (c : Fin 1024) :
    execLgceRead c s = .next (answer (setCore s c.val { getCore s c.val with ce := Vector.replicate 4 0 })
      (natToBytes 8 (lgceWord (getCore s c.val)))) := by
  unfold execLgceRead
  rw [if_pos ((hostMay_iff (inMinimal_lgce c)).mpr hs), readLgce_eq]
  show Host.Outcome.next (answer _ (natToBytes 8 (w64 (lgceWord (getCore s c.val))).toNat)) = _
  rw [toNat_lgceWord]

theorem execLgceRead_dropped {s : State} (hs : ¬ Claims.Serves s) (c : Fin 1024) : execLgceRead c s = .next (answer s (allOnes 8)) := by
  unfold execLgceRead
  rw [if_neg fun e => hs ((hostMay_iff (inMinimal_lgce c)).mp e)]

theorem retired_vcfg (k : Core) (t : Strand) : (retired k t).csr.vcfg.getLsbD 63 = true := by
  show (t.csr.vcfg ||| w64 (2 ^ 63)).getLsbD 63 = true
  rw [BitVec.getLsbD_or, show (w64 (2 ^ 63)).getLsbD 63 = true from rfl, Bool.or_true]

theorem causeWord_code (cause : BitVec 8) (held : Bool) : (causeWord cause false held).toNat % 256 = cause.toNat := by
  have h := cause.isLt
  cases held <;> simp only [causeWord, BitVec.toNat_ofNat, Bool.toNat_false, Bool.toNat_true] <;> omega

theorem toNat_zeroExtend_four (v : BitVec 4) : (v.zeroExtend 64).toNat = v.toNat := by
  rw [BitVec.zeroExtend, BitVec.toNat_setWidth, Nat.mod_eq_of_lt (by have := v.isLt; omega)]

theorem corePower : Claims.CorePower := by
  intro s c mask mw
  dsimp only
  intro hc
  have disable := inMinimal_disable c
  have retires (hs : Claims.Serves s) : exec (.laneGroupRetire c mask) s = .next (retireGroups s c.val mask) :=
    congrArg Host.Outcome.next (byHost_serves disable hs (retireGroups · c.val mask))
  have core (k : Core) : getCore (setCore s c.val k) c.val = k := by rw [getCore_setCore hc.cores, if_pos rfl]
  refine ⟨fun hs => ⟨?_, ?_⟩, fun hm => ?_, fun hs hm hcur hr hp ho => ?_, fun hs hm hr => ?_, fun hs => ?_, rfl, fun hi => ?_, fun hi => ?_⟩
  · -- the port does not answer
    exact congrArg Host.Outcome.next (byHost_dropped disable hs (retireGroups · c.val mask))
  · exact ⟨_, execLgceRead_dropped hs c, rfl, rfl, rfl, rfl, rfl⟩
  · -- nothing new to disable
    show Host.Outcome.next (if hostMay s _ then retireGroups s c.val mask else s) = _
    rw [retireGroups_none hm, ite_self]
  · -- the focused strand takes the trap
    have trap := retires hs
    rw [← hcur, retireGroups_cur (hcur ▸ hm) hc.cores ho hr hp, hcur] at trap
    refine ⟨_, trap, ?_⟩
    generalize hS : setStrand (setCore s c.val (disabled (getCore s c.val) mask)) s.cur.val (retired (disabled (getCore s c.val) mask) s.st) = S
    have st : S.st = retired (disabled (getCore s c.val) mask) s.st := hS ▸ setStrand_focused (setCore s c.val _) _
    have user : S.st.priv = false := st ▸ hp
    have cores : S.cores = (setCore s c.val (disabled (getCore s c.val) mask)).cores := hS ▸ setStrand_cores _ _ _
    refine ⟨?_, ?_, ?_⟩
    · rw [asyncTrap_user_mem user, ← hS, setStrand_mem, setCore_mem]
    · rw [getCore, asyncTrap_user_cores user, cores]; exact core _
    · rw [asyncTrap_user_st user, st]
      exact ⟨rfl, rfl, rfl, retired_vcfg _ _, rfl, causeWord_code _ _, toNat_zeroExtend_four _, rfl, rfl⟩
  · -- no strand on the core
    exact ⟨_, (retires hs).trans (congrArg _ (retireGroups_idle hm hr)), core _, rfl, rfl⟩
  · exact ⟨_, execLgceRead_serves hs c, core _, rfl, rfl, rfl⟩
  · exact ⟨_, execCorePowerGate_idle hi.1 hi.2, core _, rfl, rfl⟩
  · exact execCorePowerGate_busy hi

end Sys2Proof.Machine
end

section
/-! Boot (R373 to R376). -/

namespace Sys2Proof.Machine

/-! ## Tables written entry by entry -/

theorem sget_foldl_sset_of_not_mem {α β : Type} [DecidableEq β] {d : β} {t : List (Nat × β)} (h : sparseWf d t = true) (key : α → Nat)
    (val : α → β) {l : List α} {j : Nat} (hj : j ∉ l.map key) : sget d (l.foldl (fun t x => sset d t (key x) (val x)) t) j = sget d t j := by
  induction l generalizing t with
  | nil => rfl
  | cons x l ih =>
    obtain ⟨hx, hl⟩ := not_or.mp (List.mem_cons.not.mp hj)
    rw [List.foldl_cons, ih (sset_wf d t _ _ h) hl, sget_sset _ _ _ _ _ h, if_neg hx]

/-- Of entries with different keys, each reads back as written. -/
theorem sget_foldl_sset {α β : Type} [DecidableEq β] {d : β} {t : List (Nat × β)} (h : sparseWf d t = true) (key : α → Nat)
    (val : α → β) {l : List α} (hn : (l.map key).Nodup) {a : α} (ha : a ∈ l) :
    sget d (l.foldl (fun t x => sset d t (key x) (val x)) t) (key a) = val a := by
  induction l generalizing t with
  | nil => simp at ha
  | cons x l ih =>
    obtain ⟨hx, hl⟩ := List.nodup_cons.mp hn
    rcases List.mem_cons.mp ha with rfl | ha
    · rw [List.foldl_cons, sget_foldl_sset_of_not_mem (sset_wf d t _ _ h) key val hx, sget_sset _ _ _ _ _ h, if_pos rfl]
    · exact ih (sset_wf d t _ _ h) hl ha

/-! ## The checks of a stage (R374, R192, R46, R92) -/

theorem booting_iff {s : State} :
    booting s = true ↔ s.daleel.powered = true ∧ s.daleel.bootcause.getLsbD 0 = false ∧ max 1 s.daleel.stage < 4 := by
  simp [booting, minimal, bootNext, and_assoc]

theorem imageRefused_eq (n : Nat) (i : BootImage) : imageRefused n i = Claims.refusal n i := by
  unfold imageRefused Claims.refusal
  simp only [Bool.not_eq_true']

theorem imageFits_iff (f : BootFields) : imageFits f = true ↔ Claims.BootFits f := by
  have rising : (((limitsOf f).zip (limitsOf f).tail).all fun p => decide (p.1 ≤ p.2)) = true ↔
      ∀ p, p < 7 → Claims.bootLimit f p ≤ Claims.bootLimit f (p + 1) := by
    have pairs : (limitsOf f).zip (limitsOf f).tail = (List.range 7).map fun p => (Claims.bootLimit f p, Claims.bootLimit f (p + 1)) := rfl
    simp only [pairs, List.all_map, List.all_eq_true, List.mem_range, Function.comp, decide_eq_true_eq]
  unfold imageFits Claims.BootFits
  simp only [Bool.and_eq_true, rising, Bool.or_eq_true, inTier, decide_eq_true_eq, and_assoc]

/-! ## What a stage loads (Table 26.4) -/

theorem bootLimit_lt (f : BootFields) (p : Nat) : Claims.bootLimit f p < 2 ^ 64 := by
  unfold Claims.bootLimit
  split <;> omega

/-- The registers PLIMIT that an image gives. -/
def limitTable (f : BootFields) : Sparse Word := (limitsOf f).zipIdx.foldl (fun t p => sset 0 t p.2 (w64 p.1)) []

theorem toNat_limitTable (f : BootFields) {p : Nat} (h : p < 8) : (sget 0 (limitTable f) p).toNat = Claims.bootLimit f p := by
  have entries : (limitsOf f).zipIdx = (List.range 8).map fun p => (Claims.bootLimit f p, p) := rfl
  rw [limitTable, entries, List.foldl_map, sget_foldl_sset rfl (fun p => p) (fun p => w64 (Claims.bootLimit f p)) (by decide) (List.mem_range.mpr h),
    w64, BitVec.toNat_ofNat, Nat.mod_eq_of_lt (bootLimit_lt f p)]

/-- Mask k of partition p, as an image gives it. -/
def imageMask (f : BootFields) (p k : Nat) : Word :=
  maskWord (if k < 6 then (f.slh.getD p []).getD k 0 else (f.dieh.getD p []).getD (k - 6) 0)

theorem sget_loadMasks (f : BootFields) {p k : Nat} (hp : p < 8) (hk : k < 8) : sget 0 (loadMasks f) (8 * p + k) = imageMask f p k := by
  have flat : loadMasks f = ((List.range 8).flatMap fun p => (List.range 8).map fun k => (p, k)).foldl
      (fun t x => sset 0 t (8 * x.1 + x.2) (imageMask f x.1 x.2)) [] := by
    rw [List.foldl_flatMap]
    simp only [List.foldl_map]
    rfl
  have keys : ((List.range 8).flatMap fun p => (List.range 8).map fun k => (p, k)).map (fun x => 8 * x.1 + x.2) = List.range 64 := rfl
  have place : (p, k) ∈ (List.range 8).flatMap fun p => (List.range 8).map fun k => (p, k) := by simp [hp, hk]
  have read := sget_foldl_sset (d := (0 : Word)) (t := []) rfl (fun x : Nat × Nat => 8 * x.1 + x.2) (fun x => imageMask f x.1 x.2)
    (keys ▸ List.nodup_range) place
  rw [flat]
  exact read

theorem toNat_maskWord (v : Nat) : (maskWord v).toNat = v / 2 ^ 7 % 2 ^ 41 * 2 ^ 7 := by
  rw [maskWord, w64, BitVec.toNat_ofNat, Nat.mod_eq_of_lt (by omega)]

theorem toNat_wattsOf (p : Nat) : (wattsOf (w64 p)).toNat = max 300 (min 2200 (p % 2 ^ 64 % 2 ^ 12)) := by
  have watts : bits (w64 p) 0 12 = p % 2 ^ 64 % 2 ^ 12 := by rw [bits, w64, BitVec.toNat_ofNat, pow_zero, Nat.div_one]
  rw [wattsOf, watts, BitVec.toNat_ofNat, Nat.mod_eq_of_lt (by omega)]

/-- DISABLE of every core that the retirement list names is loaded from it (R373). -/
theorem getCore_loadDisable {l : List (Nat × BitVec 4)} (hl : sparseWf 0 l = true) {s : State} (h : sparseWf {} s.cores = true) (c : Nat) :
    getCore (l.foldl (fun s x => modCore s x.1 fun k => { k with disable := x.2 }) s) c =
      { getCore s c with disable := if sget 0 l c = 0 then (getCore s c).disable else sget 0 l c } := by
  induction l generalizing s with
  | nil => rfl
  | cons x l ih =>
    obtain ⟨n, v⟩ := x
    obtain ⟨hv, hlt, hl⟩ := sparseWf_cons.mp hl
    refine (ih hl (s := setCore s n { getCore s n with disable := v }) (setCore_cores_wf h _ _)).trans ?_
    rw [getCore_setCore h, sget]
    by_cases e : c = n
    · subst e
      rw [if_pos rfl, if_pos rfl, sget_absent 0 l c hlt, if_pos rfl, if_neg hv]
    · rw [if_neg e, if_neg (Ne.symm e)]

theorem getCore_loadDisable_all {s : State} (hl : sparseWf 0 s.daleel.retireList = true) (h : sparseWf {} s.cores = true) (c : Nat) :
    getCore (loadDisable s fun _ => true) c = { getCore s c with
      disable := if sget 0 s.daleel.retireList c = 0 then (getCore s c).disable else sget 0 s.daleel.retireList c } := by
  rw [loadDisable, List.filter_eq_self.mpr fun _ _ => rfl]
  exact getCore_loadDisable hl h c

/-- The part of a fold of changes of cores that is not the cores. -/
theorem loadDisable_keeps {β : Type} (g : State → β) (h : ∀ s c k, g (setCore s c k) = g s) (s : State) (p : Nat → Bool) :
    g (loadDisable s p) = g s := foldl_keeps g (fun s _ => h s _ _) _ s

/-! ## Dies leave reset (R380) -/

@[simp] theorem dieUp_mem (s : State) (d : Fin 4) : (dieUp s d).mem = s.mem := postRecord_mem _ _
@[simp] theorem dieUp_lines (s : State) (d : Fin 4) : (dieUp s d).lines = s.lines := postRecord_lines _ _
@[simp] theorem dieUp_daleel (s : State) (d : Fin 4) : (dieUp s d).daleel = { s.daleel with dies := s.daleel.dies.set d.val .up } :=
  postRecord_daleel _ _

theorem dieUp_ev (s : State) (d : Fin 4) : (dieUp s d).ev = (postRecord s (dieRecord d 3)).ev := postRecord_ev_congr (setDie_ev s d .up) _

/-- With every die out of reset, all are up. -/
theorem dies_foldl_dieUp (s : State) (d : Fin 4) : ((List.finRange 4).foldl dieUp s).daleel.dies[d.val] = .up := by
  refine foldl_reaches (I := fun _ => True) (P := fun s : State => s.daleel.dies[d.val] = .up) (List.mem_finRange d) trivial (fun _ _ _ => trivial) ?_ ?_
  · intro s _
    simp only [dieUp_daleel, Vector.getElem_set_self]
  · intro s k _ h
    simp only [dieUp_daleel, Vector.getElem_set, h, ite_self]

/-- The retry count of BOOTCAUSE is cleared (Table 26.5). -/
theorem setBits_retries (v : Word) : (setBits v 8 4 0).toNat / 2 ^ 8 % 16 = 0 := by
  have h := v.isLt
  simp only [setBits, bits, BitVec.toNat_ofNat]
  omega

/-! ## A stage runs, or fails -/

theorem bootStage_idle {s : State} (h : ¬ booting s = true) (r : BootResult) : exec (.bootStage r) s = .next s :=
  congrArg Host.Outcome.next (if_pos (by simpa using h))

theorem bootStageTimeout_idle {s : State} (h : ¬ booting s = true) : exec .bootStageTimeout s = .next s :=
  congrArg Host.Outcome.next (if_neg h)

theorem bootStageTimeout_fails {s : State} (h : booting s = true) : exec .bootStageTimeout s = .next (bootFails s 6) :=
  congrArg Host.Outcome.next (if_pos h)

theorem bootStage_absent {s : State} (h : booting s = true) : exec (.bootStage .absent) s = .next (bootFails s 1) :=
  congrArg Host.Outcome.next (if_neg (by simp [h]))

theorem bootStage_selfTest {s : State} (h : booting s = true) (i : BootImage) :
    exec (.bootStage (.selfTest i)) s = .next (if Claims.refusal (bootNext s) i = 0 then bootFails (measured s i) 5
      else bootFails s (Claims.refusal (bootNext s) i)) := by
  refine (congrArg Host.Outcome.next (if_neg (by simp [h]))).trans ?_
  dsimp only
  rw [imageRefused_eq, ite_not]

theorem bootStage_refused {s : State} (h : booting s = true) {i : BootImage} (hr : Claims.refusal (bootNext s) i ≠ 0) :
    exec (.bootStage (.image i)) s = .next (bootFails s (Claims.refusal (bootNext s) i)) := by
  refine (congrArg Host.Outcome.next (if_neg (by simp [h]))).trans ?_
  dsimp only
  rw [imageRefused_eq, if_pos hr]

theorem bootStage_good {s : State} (h : booting s = true) {i : BootImage} (hr : Claims.refusal (bootNext s) i = 0) :
    exec (.bootStage (.image i)) s =
      .next (if bootNext s = 2 ∧ ! imageFits i.fields then s else bootLoads (measured s i) i.fields) := by
  refine (congrArg Host.Outcome.next (if_neg (by simp [h]))).trans ?_
  dsimp only
  rw [imageRefused_eq, if_neg (by simp [hr])]

/-- Stage 1 loads the routine key, and DISABLE from the retirement list. -/
theorem bootLoads_first {s : State} (h : bootNext s = 1) (f : BootFields) :
    bootLoads s f = loadDisable { s with daleel := { s.daleel with stage := 2, routineKey := f.routineKey } } fun _ => true := by
  unfold bootLoads
  simp only [h, if_true]

/-- Stage 2 loads the limits, the masks, `partsel`, the tables' places and PWRCAP. -/
theorem bootLoads_second {s : State} (h : bootNext s = 2) (f : BootFields) : bootLoads s f =
    { s with
      lines := { s.lines with
        plimit := limitTable f
        masks := loadMasks f
        partsel := Vector.replicate 4 (BitVec.ofNat 3 f.partsel.val) }
      lp := { s.lp with ctxTable := f.ctxTable, groupTable := f.groupTable }
      daleel := { s.daleel with stage := 3, pwrcap := wattsOf (w64 f.pwrcap), partselL := BitVec.ofNat 3 f.partsel.val } } := by
  unfold bootLoads
  simp only [h, OfNat.ofNat_ne_one, if_false, if_true, limitTable]

/-- Stage 3 releases the L2 and lets every die out of reset. -/
theorem bootLoads_third {s : State} (h : bootNext s = 3) (f : BootFields) : bootLoads s f =
    (List.finRange 4).foldl dieUp { s with
      lines := { s.lines with released := true }
      daleel := { s.daleel with stage := 4, bootcause := setBits s.daleel.bootcause 8 4 0 } } := by
  unfold bootLoads
  simp only [h, OfNat.ofNat_ne_one, if_false, Nat.reduceEqDiff]

theorem boot : Claims.Boot := by
  intro s i r f b next n failed going digests measured' good list
  have on : going ↔ booting s = true := booting_iff.symm
  have fails (s' : State) (hs : s'.daleel.bootcause = s.daleel.bootcause) (hn : s'.daleel.stage = s.daleel.stage) (r : Nat) :
      bootFails s' r = failed s' r := by
    unfold bootFails bootNext
    rw [hs, hn]
    rfl
  have runs (hg : going) : ∃ t, exec (.bootStage (.image i)) s = .next t ∧
      (good → t = if bootNext s = 2 ∧ ! imageFits f then s else bootLoads measured' f) := by
    by_cases hr : Claims.refusal (bootNext s) i = 0
    · exact ⟨_, bootStage_good (on.mp hg) hr, fun _ => rfl⟩
    · exact ⟨_, bootStage_refused (on.mp hg) hr, fun hgood => absurd hgood hr⟩
  have measuredEq : measured s i = measured' := rfl
  refine ⟨fun hg => ⟨bootStage_idle (mt on.mpr hg) r, bootStageTimeout_idle (mt on.mpr hg)⟩,
    fun hg => ⟨?_, ?_⟩, fun hg => ?_, fun hg hb => ?_, fun hg hn hc hl => ?_, fun hg hn hf => ?_, fun hg hn hf => ?_, fun hg hn => ?_⟩
  · rw [bootStage_absent (on.mp hg), fails s rfl rfl]
  · rw [bootStageTimeout_fails (on.mp hg), fails s rfl rfl]
  · rw [bootStage_selfTest (on.mp hg), fails s rfl rfl, fails (measured s i) rfl rfl, measuredEq]
    rfl
  · rw [bootStage_refused (on.mp hg) hb, fails s rfl rfl]
    rfl
  · -- stage 1
    obtain ⟨t, ht, loads⟩ := runs hg
    refine ⟨t, ht, fun hg => ?_⟩
    have notSecond : bootNext s ≠ 2 := by rw [show bootNext s = 1 from hn]; decide
    obtain rfl := (loads hg).trans ((if_neg fun e => notSecond e.1).trans (bootLoads_first (s := measured') hn f))
    refine ⟨loadDisable_keeps State.daleel (fun _ _ _ => rfl) _ _, loadDisable_keeps State.mem (fun _ _ _ => rfl) _ _,
      loadDisable_keeps State.st (fun _ _ _ => rfl) _ _, loadDisable_keeps State.lp (fun _ _ _ => rfl) _ _, fun c => ?_⟩
    refine getCore_loadDisable_all ?_ ?_ c
    · exact hl
    · exact hc.cores
  · -- stage 2
    obtain ⟨t, ht, loads⟩ := runs hg
    refine ⟨t, ht, fun hg => ?_⟩
    have fits : ¬ (bootNext s = 2 ∧ (! imageFits f) = true) := by simp [(imageFits_iff f).mpr hf]
    obtain rfl := (loads hg).trans ((if_neg fits).trans (bootLoads_second (s := measured') hn f))
    refine ⟨rfl, rfl, rfl, rfl, toNat_wattsOf _, fun p hp => ?_, fun d => Vector.getElem_replicate _, fun p k hp hk => ?_⟩
    · rw [toNat_limitTable i.fields hp]
    · rw [sget_loadMasks f hp (by omega), imageMask, if_pos hk, toNat_maskWord]
  · -- stage 2, with fields that no image holds
    by_cases hgood : good
    · rw [bootStage_good (on.mp hg) hgood, if_pos ⟨hn, by simpa using mt (imageFits_iff f).mp hf⟩, if_pos hgood]
    · rw [bootStage_refused (on.mp hg) hgood, fails s rfl rfl, if_neg hgood]
      rfl
  · -- stage 3
    obtain ⟨t, ht, loads⟩ := runs hg
    refine ⟨t, ht, fun hg => ?_⟩
    have notSecond : bootNext s ≠ 2 := by rw [show bootNext s = 3 from hn]; decide
    obtain rfl := (loads hg).trans ((if_neg fun e => notSecond e.1).trans (bootLoads_third (s := measured') hn f))
    refine ⟨?_, ?_, ?_, ?_, dies_foldl_dieUp _, ?_⟩
    · exact foldl_keeps (fun s : State => s.daleel.stage) (fun s d => by rw [dieUp_daleel]) _ _
    · exact foldl_keeps (fun s : State => s.daleel.digests) (fun s d => by rw [dieUp_daleel]) _ _
    · exact foldl_keeps (fun s : State => s.lines.released) (fun s d => by rw [dieUp_lines]) _ _
    · exact foldl_keeps State.mem dieUp_mem _ _
    · rw [foldl_keeps (fun s : State => s.daleel.bootcause) (fun s d => by rw [dieUp_daleel])]
      exact setBits_retries _

end Sys2Proof.Machine
end

section
/-! The mailbox (R373, R376, R377, R380). -/

namespace Sys2Proof.Machine

/-! ## Commands (R375, R376) -/

/-- MBCMD answers in minimal mode, and else once boot stage 1 has loaded the port. -/
theorem hostMay_mbcmd {s : State} :
    hostMay s 0xE200 = true ↔ s.daleel.powered = true ∧ (s.daleel.bootcause.getLsbD 0 = true ∨ 2 ≤ s.daleel.stage) := by
  have reached : inMinimal 0xE200 = true := rfl
  unfold hostMay minimal
  rw [reached]
  cases s.daleel.bootcause.getLsbD 0 <;> simp

/-- A command that the mailbox takes. -/
theorem byHost_mailCommand_taken {s : State} (h : hostMay s 0xE200 = true) (hb : s.daleel.mbstat ≠ 1) (op : BitVec 8) :
    byHost 0xE200 (mailCommand · op) s = Claims.Taken s op.toNat := by
  rw [byHost, if_pos h, mailCommand, if_neg hb, Claims.Taken, BitVec.ofNat_toNat, BitVec.setWidth_eq]

/-- A command that it does not take. -/
theorem byHost_mailCommand_ignored {s : State} (h : hostMay s 0xE200 ≠ true ∨ s.daleel.mbstat = 1) (op : BitVec 8) :
    byHost 0xE200 (mailCommand · op) s = s := by
  rcases h with h | h
  · exact if_neg h
  · have busy : mailCommand s op = s := if_pos h
    rw [byHost, busy, ite_self]

theorem mailCommands : Claims.MailCommands := by
  intro s op
  dsimp only
  have next {t : State} {x : Host.Outcome State Fault Refusal} (f : State) (h : x = .next f) (e : f = t) : x = .next t := h.trans (e ▸ rfl)
  refine ⟨fun ha hb => ?_, fun hn => ?_⟩
  · have taken (op : BitVec 8) := byHost_mailCommand_taken (hostMay_mbcmd.mpr ha) hb op
    refine ⟨next _ rfl (taken 1), next _ rfl (taken 2), next _ rfl (taken 3), next _ rfl (taken 4), next _ rfl (taken 5),
      fun he => next _ rfl ((if_pos he).trans (taken 6)),
      fun he => next _ rfl ((if_neg (by rw [he]; decide)).trans (taken 6)), fun ho => next _ rfl ((if_neg ?_).trans (taken op))⟩
    rcases ho with rfl | ho
    · decide
    · omega
  · have ignored (op : BitVec 8) := byHost_mailCommand_ignored (hn.imp (mt hostMay_mbcmd.mp) id) op
    refine ⟨next _ rfl (ignored 1), next _ rfl (ignored 2), next _ rfl (ignored 3), next _ rfl (ignored 4), next _ rfl (ignored 5),
      next _ rfl ?_, next _ rfl ?_, next _ rfl ?_⟩
    · rw [ignored 6, ite_self]
    · rw [ignored 6, ite_self]
    · rw [ignored op, ite_self]

/-! ## Answers (R376, R377) -/

theorem mailWrite_eq_memWrite (m : Sparse Byte) (a : Nat) (bs : List Byte) : mailWrite m a bs = memWrite m a bs := by
  induction bs generalizing m a with
  | nil => rfl
  | cons b bs ih => exact ih _ _

/-- A byte of MBBUF that an answer has written. -/
theorem sget_mailWrite {m : Sparse Byte} (h : sparseWf 0 m = true) (bs : List Byte) {j : Nat} (hj : j < bs.length) :
    sget 0 (mailWrite m 0 bs) j = bs[j] := by
  rw [mailWrite_eq_memWrite, ← memByte_memWrite_inside m 0 bs j h hj, Nat.zero_add]
  rfl

theorem msix_mail (v : BitVec 64) : (v ||| 2).getLsbD 1 = true := by
  rw [BitVec.getLsbD_or, show (2 : BitVec 64).getLsbD 1 = true from rfl, Bool.or_true]

theorem mailError_over {s t : State} (hm : t.mem = s.mem) {err : BitVec 8} (h : err.toNat ≠ 0) :
    Claims.MailOver s (mailError t err) err.toNat := ⟨(if_neg h).symm, rfl, msix_mail _, hm⟩

theorem mailDone_over {s t : State} (hm : t.mem = s.mem) (out : List Byte) : Claims.MailOver s (mailDone t out) 0 := ⟨rfl, rfl, msix_mail _, hm⟩

theorem mailDone_ev (s : State) (out : List Byte) : (mailDone s out).ev = s.ev := rfl
theorem mailDone_dies (s : State) (out : List Byte) : (mailDone s out).daleel.dies = s.daleel.dies := rfl
theorem mailDone_mbbuf (s : State) (out : List Byte) : (mailDone s out).daleel.mbbuf = mailWrite s.daleel.mbbuf 0 out := rfl
theorem mailDone_mblen (s : State) (out : List Byte) : (mailDone s out).daleel.mblen = BitVec.ofNat 16 out.length := rfl

@[simp] theorem length_padTo (n : Nat) (bs : List Byte) : (padTo n bs).length = n := by
  simp [padTo]

@[simp] theorem length_nibbles (f : Nat → BitVec 4) : (nibbles f).length = 512 := by rw [nibbles, List.length_map, List.length_range]

/-- A report is 2,768 bytes long (Table 26.8). -/
theorem length_report (s : State) : (report s).length = 2768 := by
  unfold report
  simp only [List.length_append, length_padTo, length_nibbles, natToBytes_length, mailBytes, List.length_map, List.length_range, List.length_flatMap]
  rw [List.map_congr_left (g := fun _ => 32) fun k _ => by split; exacts [List.length_replicate, length_padTo _ _]]
  rfl

/-- Four bits of two cores in a byte of LIST. -/
theorem toNat_nibbles (f : Nat → BitVec 4) {j : Nat} (h : j < (nibbles f).length) :
    (nibbles f)[j].toNat = (f (2 * j)).toNat + (f (2 * j + 1)).toNat * 16 := by
  have h0 := (f (2 * j)).isLt
  have h1 := (f (2 * j + 1)).isLt
  simp only [nibbles, List.getElem_map, List.getElem_range, BitVec.toNat_ofNat]
  omega

/-! ## The arguments of Table 26.7 -/

/-- A core, and a set of its groups that is not empty. -/
theorem retireArg_some {v : Word} {c : Fin 1024} {m : BitVec 4} (h : v.toNat = c.val + m.toNat * 2 ^ 16) (hm : m ≠ 0) :
    retireArg v = some (c.val, m) := by
  have hc := c.isLt
  have h4 := m.isLt
  have core : bits v 0 10 = c.val := by simp only [bits]; omega
  have mask : bits v 16 4 = m.toNat := by simp only [bits]; omega
  have : m.toNat ≠ 0 := fun e => hm (BitVec.eq_of_toNat_eq e)
  rw [retireArg, core, mask, if_pos ⟨h, this⟩, BitVec.ofNat_toNat, BitVec.setWidth_eq]

/-- A bit outside the argument, or no group. -/
theorem retireArg_none {v : Word} (h : v.toNat ≠ v.toNat % 2 ^ 10 + v.toNat / 2 ^ 16 % 2 ^ 4 * 2 ^ 16 ∨ v.toNat / 2 ^ 16 = 0) :
    retireArg v = none := by
  have hb : bits v 0 10 = v.toNat % 2 ^ 10 := by rw [bits, pow_zero, Nat.div_one]
  rw [retireArg, hb, bits, if_neg]
  rintro ⟨h1, h2⟩
  omega

/-! ## The requests (Table 26.7) -/

theorem mailboxDone_idle {s : State} (h : s.daleel.mbstat ≠ 1 ∨ s.daleel.powered = false) : exec .mailboxDone s = .next s := by
  refine congrArg Host.Outcome.next (if_neg ?_)
  rw [Bool.and_eq_true, decide_eq_true_eq]
  rintro ⟨hp, hb⟩
  rcases h with h | h
  · exact h hb
  · rw [hp] at h; cases h

theorem mailboxDone_serves {s : State} (hp : s.daleel.powered = true) (hb : s.daleel.mbstat = 1) : exec .mailboxDone s = .next (serveMail s) :=
  congrArg Host.Outcome.next (if_pos (by simp [hp, hb]))

theorem serveMail_dirty {s : State} (h : s.daleel.mbdirty = true) : serveMail s = mailError s 2 := if_pos h

section
variable {s : State} (hd : s.daleel.mbdirty = false)
include hd

theorem serveMail_attest (ho : s.daleel.mbop = 1) :
    serveMail s = if s.daleel.mbarg ≠ 0 then mailError s 2 else mailDone s (report s) := by
  simp only [serveMail, hd, ho]; rfl

theorem serveMail_key (ho : s.daleel.mbop = 2) :
    serveMail s = if s.daleel.mbarg ≠ 0 then mailError s 2 else mailDone s ((List.range 128).map Config.attestKey) := by
  simp only [serveMail, hd, ho]; rfl

theorem serveMail_retire (ho : s.daleel.mbop = 3) {c : Nat} {m : BitVec 4} (ha : retireArg s.daleel.mbarg = some (c, m)) :
    serveMail s = retireRequest s c (· ||| m) fun s => if minimal s then s else retireGroups s c m := by
  simp only [serveMail, hd, ho, ha]; rfl

theorem serveMail_unretire (ho : s.daleel.mbop = 4) {c : Nat} {m : BitVec 4} (ha : retireArg s.daleel.mbarg = some (c, m)) :
    serveMail s = retireRequest s c (· &&& ~~~m) id := by
  simp only [serveMail, hd, ho, ha]; rfl

theorem serveMail_noGroups (ho : s.daleel.mbop = 3 ∨ s.daleel.mbop = 4) (ha : retireArg s.daleel.mbarg = none) :
    serveMail s = mailError s 2 := by
  rcases ho with ho | ho <;> (simp only [serveMail, hd, ho, ha]; rfl)

theorem serveMail_list (ho : s.daleel.mbop = 5) : serveMail s = if s.daleel.mbarg ≠ 0 then mailError s 2
    else mailDone s (nibbles fun c => sget 0 s.daleel.retireList c) := by
  simp only [serveMail, hd, ho]; rfl

theorem serveMail_diereset (ho : s.daleel.mbop = 6) :
    serveMail s = if minimal s then mailError s 4 else dieRequest s s.daleel.mbarg := by
  simp only [serveMail, hd, ho]; rfl

theorem serveMail_unknown (ho : s.daleel.mbop = 0 ∨ 6 < s.daleel.mbop.toNat) : serveMail s = mailError s 1 := by
  have range : s.daleel.mbop.toNat = 0 ∨ 6 < s.daleel.mbop.toNat := ho.imp (fun h => by rw [h]; rfl) id
  rw [serveMail, if_neg (by simp [hd])]
  split
  case h_7 => rfl
  all_goals omega

end

/-! ## RETIRE and UNRETIRE (R373) -/

theorem retireRequest_fails {s : State} (h : s.daleel.norFails = true) (c : Nat) (f : BitVec 4 → BitVec 4) (after : State → State) :
    retireRequest s c f after = mailError { s with daleel := { s.daleel with norFails := false } } 3 := if_pos h

theorem retireRequest_writes {s : State} (h : s.daleel.norFails = false) (c : Nat) (f : BitVec 4 → BitVec 4) (after : State → State) :
    retireRequest s c f after = mailDone (after (putRetired s c f)) [] := if_neg (by simp [h])

/-- The retirement list with a core's groups changed. -/
theorem sget_putRetired {s : State} (h : sparseWf 0 s.daleel.retireList = true) (c : Nat) (f : BitVec 4 → BitVec 4) (j : Nat) :
    sget 0 (putRetired s c f).daleel.retireList j = if j = c then f (sget 0 s.daleel.retireList j) else sget 0 s.daleel.retireList j := by
  refine (sget_sset _ _ _ _ _ h).trans ?_
  split
  · next e => rw [e]
  · rfl

/-- Groups that are disabled already change nothing by being so. -/
theorem or_eq_left_of_andNot_eq_zero {a m : BitVec 4} (h : m &&& ~~~a = 0) : a ||| m = a := by
  revert a m; decide

/-- The groups are disabled; no strand on the core sees it. -/
theorem getCore_retireGroups_idle {s : State} (hc : sparseWf {} s.cores = true) {c : Nat} (m : BitVec 4)
    (hr : ∀ n ∈ strandsOf c, (getStrand s n).resident = false) :
    (getCore (retireGroups s c m) c).disable = (getCore s c).disable ||| m ∧ (retireGroups s c m).mem = s.mem := by
  by_cases h : m &&& ~~~(getCore s c).disable = 0
  · rw [retireGroups_none h, or_eq_left_of_andNot_eq_zero h]
    exact ⟨rfl, rfl⟩
  · rw [retireGroups_idle h hr, getCore_setCore hc, if_pos rfl]
    exact ⟨rfl, rfl⟩

/-! ## DIERESET (R380) -/

theorem dieRequest_reserved {s : State} {v : Word} (h : v.toNat ≠ v.toNat % 4 + v.toNat / 2 ^ 8 % 2 * 2 ^ 8) : dieRequest s v = mailError s 2 := by
  have die : bits v 0 2 = v.toNat % 4 := by rw [bits, pow_zero, Nat.div_one]; rfl
  exact if_pos (by rw [die]; exact h)

theorem dieRequest_eq {s : State} {v : Word} {d : Fin 4} {b : Bool} (h : v.toNat = d.val + b.toNat * 2 ^ 8) : dieRequest s v =
    if b then
      if s.daleel.dies[d.val] ≠ .up then mailError s 2 else mailDone (preemptDie (setDie s d .draining) d) []
    else if s.daleel.stage < 4 ∨ s.daleel.dies[d.val] ≠ .inReset then mailError s 2
    else mailDone (dieLeaves s d) [] := by
  have hd := d.isLt
  have hb : b.toNat < 2 := by cases b <;> decide
  have fields : ¬ v.toNat ≠ bits v 0 2 + bits v 8 1 * 2 ^ 8 := by simp only [bits]; omega
  have way : v.getLsbD 8 = b := by
    rw [BitVec.getLsbD, Nat.testBit_eq_decide_div_mod_eq, h]
    cases b
    · exact decide_eq_false (by simp only [Bool.toNat_false]; omega)
    · exact decide_eq_true (by simp only [Bool.toNat_true]; omega)
  obtain rfl : d = Fin.ofNat 4 v.toNat := Fin.ext (by simp only [Fin.ofNat]; omega)
  unfold dieRequest
  rw [if_neg fields, way]
  rfl

theorem preemptDie_none {s : State} (h : s.lp.resid = []) (d : Fin 4) : preemptDie s d = s := by
  rw [preemptDie, h, List.filter_nil, List.foldl_nil]

theorem modCore_leaves (s : State) (c : Nat) (f : Core → Core) : LeavesMemory s (modCore s c f) := .of_eq rfl rfl rfl rfl rfl rfl rfl

/-- A die leaves reset: memory and the rest of Daleel are as before, and event 0x1B is posted. -/
theorem dieLeaves_effect (s : State) (d : Fin 4) : (dieLeaves s d).mem = s.mem ∧
    (dieLeaves s d).daleel = { s.daleel with dies := s.daleel.dies.set d.val .up } ∧
    (dieLeaves s d).ev = (postRecord s (dieRecord d 3)).ev := by
  have left : LeavesMemory s (loadDisable (clearDie s d) (onDie d)) :=
    (clearDie_leaves s d).trans (.foldl (fun s x => modCore_leaves s _ _) _ _)
  unfold dieLeaves
  generalize loadDisable (clearDie s d) (onDie d) = u at left
  refine ⟨(dieUp_mem _ d).trans left.mem, ?_, (dieUp_ev _ d).trans (postRecord_ev_congr ?_ _)⟩
  · rw [dieUp_daleel, left.daleel]
  · exact left.ev

theorem mailRequests : Claims.MailDone := by
  intro s c m d D arg run reserved
  have zero : arg = 0 → ¬ s.daleel.mbarg ≠ 0 := fun h => not_not.mpr (BitVec.eq_of_toNat_eq h)
  have nonzero : arg ≠ 0 → s.daleel.mbarg ≠ 0 := fun h e => h (congrArg BitVec.toNat e)
  have full (h : D.bootcause.getLsbD 0 = false) : ¬ minimal s = true := Bool.eq_false_iff.mp h
  refine ⟨mailboxDone_idle, fun hp hb hr => ?_, fun hp hb hd => ?_⟩
  · -- a changed input, or a reserved argument
    have refused : serveMail s = mailError s 2 := by
      by_cases hd : s.daleel.mbdirty = true
      · exact serveMail_dirty hd
      replace hd : s.daleel.mbdirty = false := by simpa using hd
      rcases hr.resolve_left (by simp [D, hd]) with ⟨ho, ha⟩ | ⟨ho, ha⟩ | ⟨ho, hm, ha⟩
      · rcases ho with ho | ho | ho
        · rw [serveMail_attest hd ho, if_pos (nonzero ha)]
        · rw [serveMail_key hd ho, if_pos (nonzero ha)]
        · rw [serveMail_list hd ho, if_pos (nonzero ha)]
      · exact serveMail_noGroups hd ho (retireArg_none ha)
      · rw [serveMail_diereset hd ho, if_neg (full hm), dieRequest_reserved ha]
    refine ⟨_, mailboxDone_serves hp hb, ?_⟩
    rw [refused]
    exact ⟨mailError_over rfl (by decide), rfl, rfl⟩
  have serve {t : State} (h : serveMail s = t) : run s = .next t := h ▸ mailboxDone_serves hp hb
  refine ⟨fun ho => ?_, fun ho ha => ?_, fun ho ha => ?_, fun hl hc ha hm => ⟨fun ho hn => ?_, fun ho hn hq => ?_, fun ho hn hq hr => ?_, fun ho hn => ?_⟩,
    fun ho ha hw => ?_, fun ho hm => ?_, fun ho hm => ⟨fun ha hu hr => ?_, fun ha hu => ?_, fun ha hs hu => ?_⟩⟩
  · exact ⟨_, serve (serveMail_unknown hd ho), mailError_over rfl (by decide)⟩
  · exact ⟨_, serve ((serveMail_key hd ho).trans (if_neg (zero ha))), mailDone_over rfl _, by rw [mailDone_mblen, List.length_map, List.length_range]; rfl⟩
  · exact ⟨_, serve ((serveMail_attest hd ho).trans (if_neg (zero ha))), mailDone_over rfl _, by rw [mailDone_mblen, length_report]; rfl, rfl, rfl⟩
  · -- SPI NOR fails
    have arg := retireArg_some ha hm
    rcases ho with ho | ho
    · exact ⟨_, serve ((serveMail_retire hd ho arg).trans (retireRequest_fails hn _ _ _)), mailError_over rfl (by decide), rfl, rfl⟩
    · exact ⟨_, serve ((serveMail_unretire hd ho arg).trans (retireRequest_fails hn _ _ _)), mailError_over rfl (by decide), rfl, rfl⟩
  · -- RETIRE that disables nothing
    have same : (if minimal (putRetired s c.val (· ||| m)) then putRetired s c.val (· ||| m) else retireGroups (putRetired s c.val (· ||| m)) c.val m) =
        putRetired s c.val (· ||| m) := by
      rcases hq with hq | hq
      · exact if_pos hq
      · rw [retireGroups_none (s := putRetired s c.val (· ||| m)) hq, ite_self]
    have result := (serveMail_retire hd ho (retireArg_some ha hm)).trans (retireRequest_writes hn _ _ _)
    rw [same] at result
    exact ⟨_, serve result, mailDone_over rfl _, rfl, sget_putRetired hl c.val (· ||| m)⟩
  · -- RETIRE on a core without strands
    have disable := getCore_retireGroups_idle (s := putRetired s c.val (· ||| m)) hc.cores m hr
    have result := (serveMail_retire hd ho (retireArg_some ha hm)).trans (retireRequest_writes hn _ _ _)
    rw [if_neg (show ¬ minimal (putRetired s c.val (· ||| m)) = true from Bool.eq_false_iff.mp hq)] at result
    exact ⟨_, serve result, mailDone_over disable.2 _, disable.1⟩
  · -- UNRETIRE
    exact ⟨_, serve ((serveMail_unretire hd ho (retireArg_some ha hm)).trans (retireRequest_writes hn _ _ _)), mailDone_over rfl _, rfl,
      sget_putRetired hl c.val (· &&& ~~~m)⟩
  · -- LIST
    refine ⟨_, serve ((serveMail_list hd ho).trans (if_neg (zero ha))), mailDone_over rfl _, by rw [mailDone_mblen, length_nibbles]; rfl, fun j hj => ?_⟩
    have inside : j < (nibbles fun c => sget 0 s.daleel.retireList c).length := by rw [length_nibbles]; exact hj
    rw [mailDone_mbbuf, sget_mailWrite hw _ inside, toNat_nibbles]
  · exact ⟨_, serve ((serveMail_diereset hd ho).trans (if_pos hm)), mailError_over rfl (by decide), rfl⟩
  all_goals
    have request : serveMail s = dieRequest s s.daleel.mbarg := (serveMail_diereset hd ho).trans (if_neg (full hm))
  · -- a die begins to drain
    have asked := request.trans (dieRequest_eq (b := true) ha)
    rw [if_pos rfl, if_neg (not_not.mpr hu), preemptDie_none (s := setDie s d .draining) hr] at asked
    exact ⟨_, serve asked, mailDone_over rfl _, rfl⟩
  · have asked := request.trans (dieRequest_eq (b := true) ha)
    rw [if_pos rfl, if_pos hu] at asked
    exact ⟨_, serve asked, mailError_over rfl (by decide), rfl⟩
  · -- a die leaves reset
    have asked := request.trans (dieRequest_eq (b := false) (d := d) (by simpa using ha))
    rw [if_neg (by decide), if_neg (by simp only [not_or, not_not]; exact ⟨Nat.not_lt.mpr hs, hu⟩)] at asked
    obtain ⟨mem, daleel, ev⟩ := dieLeaves_effect s d
    exact ⟨_, serve asked, mailDone_over mem _, by rw [mailDone_dies, daleel], dieRecord d 3, rfl, rfl, (mailDone_ev _ _).trans ev⟩

/-! ## The obligation -/

/-- Settles O53: resets and power (`resets`), boot (`boot`), the registers of a core (`corePower`), the mailbox (`mailCommands`,
`mailRequests`) and die resets (`dieResets`), each from what its operation is shown to leave. -/
theorem daleelEvents : Obligations.DaleelEvents := by
  unfold Obligations.DaleelEvents
  exact ⟨resets, boot, corePower, mailCommands, mailRequests, dieResets⟩

end Sys2Proof.Machine
end

section
/-! SUPPORT. Rounding a value m × 2^e to a count of a quantum 2^q, as one of the two counts around it (R36, R38, R278). -/

namespace Sys2Proof.Machine

/-! ## Counting quanta -/

theorem two_zpow_split {e q : Int} (h : e ≤ q) : (2 : ℚ) ^ q = ((2 ^ (q - e).toNat : Nat) : ℚ) * 2 ^ e := by
  rw [Nat.cast_pow, Nat.cast_ofNat, ← zpow_natCast, ← zpow_add₀ two_ne_zero, Int.toNat_of_nonneg (by omega), sub_add_cancel]

/-- A quantum no coarser than the value's own counts it exactly. -/
theorem scaleTo_zpow (m : Nat) {e q : Int} (h : q ≤ e) : (scaleTo m e q : ℚ) * 2 ^ q = m * 2 ^ e := by
  rw [two_zpow_split h, scaleTo, Nat.cast_mul, mul_assoc]

/-- Some count is the floor of a value. -/
theorem exists_count (m : Nat) (e q : Int) : ∃ n : Nat, (n : ℚ) * 2 ^ q ≤ m * 2 ^ e ∧ m * 2 ^ e < ((n : ℚ) + 1) * 2 ^ q := by
  have hq : (0 : ℚ) < 2 ^ q := zpow_pos two_pos q
  refine ⟨⌊(m * 2 ^ e : ℚ) / 2 ^ q⌋₊, (le_div_iff₀ hq).mp (Nat.floor_le (by positivity)), (div_lt_iff₀ hq).mp (Nat.lt_floor_add_one _)⟩

section
variable {m n : Nat} {e q : Int}

/-- A value strictly between two neighbouring counts has a finer quantum than theirs, and digits r below it. -/
theorem between_split (lo : (n : ℚ) * 2 ^ q < m * 2 ^ e) (hi : m * 2 ^ e < ((n : ℚ) + 1) * 2 ^ q) :
    ∃ s r : Nat, q = e + (s + 1 : Nat) ∧ 0 < r ∧ r < 2 ^ (s + 1) ∧ m = 2 ^ (s + 1) * n + r ∧
      m * 2 ^ e - (n : ℚ) * 2 ^ q = r * 2 ^ e ∧ ((n : ℚ) + 1) * 2 ^ q - m * 2 ^ e = ((2 ^ (s + 1) - r : Nat) : ℚ) * 2 ^ e := by
  have he : (0 : ℚ) < 2 ^ e := zpow_pos two_pos e
  have finer : e < q := by
    by_contra h
    rw [← scaleTo_zpow m (not_lt.mp h)] at lo hi
    have lo := lt_of_mul_lt_mul_right lo (zpow_pos two_pos q).le
    have hi := lt_of_mul_lt_mul_right hi (zpow_pos two_pos q).le
    norm_cast at lo hi
    omega
  obtain ⟨s, hs⟩ : ∃ s, (q - e).toNat = s + 1 := Nat.exists_eq_succ_of_ne_zero (by omega)
  have split := two_zpow_split finer.le
  rw [hs] at split
  have quot (k : ℚ) : k * 2 ^ q = k * (2 ^ (s + 1) : Nat) * 2 ^ e := by rw [split, mul_assoc]
  rw [quot] at lo hi
  have lo := lt_of_mul_lt_mul_right lo he.le
  have hi := lt_of_mul_lt_mul_right hi he.le
  norm_cast at lo hi
  rw [add_one_mul] at hi
  rw [mul_comm] at lo hi
  obtain ⟨r, rfl⟩ := Nat.exists_eq_add_of_lt lo
  refine ⟨s, r + 1, by omega, by omega, by omega, by omega, ?_, ?_⟩
  · rw [quot, ← sub_mul]; push_cast; ring
  · rw [quot, ← sub_mul, Nat.cast_sub (by omega)]; push_cast; ring

/-! ## roundAt -/

theorem roundAt_exact (h : (n : ℚ) * 2 ^ q = m * 2 ^ e) (mode : Mode) (neg : Bool) : roundAt mode neg m e q = (n, false) := by
  unfold roundAt
  split
  next hq =>
    rw [← scaleTo_zpow m hq] at h
    rw [Nat.cast_injective (mul_right_cancel₀ (zpow_pos two_pos q).ne' h)]
  next hq =>
    rw [two_zpow_split (le_of_not_ge hq), ← mul_assoc] at h
    have h := mul_right_cancel₀ (zpow_pos two_pos e).ne' h
    norm_cast at h
    subst h
    simp

/-- Whether a value d above the count n and u below the next goes up to it (R36, R38, R278). -/
def RoundsUp (mode : Mode) (neg : Bool) (n : Nat) (d u : ℚ) : Prop :=
  match mode with
  | .ne => u < d ∨ (d = u ∧ n % 2 = 1)
  | .tz | .rz => False
  | .dn => neg = true
  | .up => neg = false
  | .away => u ≤ d
  | .sr g => 2 ^ 16 ≤ ⌊d * 2 ^ 16 / (d + u)⌋ + (g : Int)

/-- The sum of a grain g and the digits r below 2^s, scaled to b parts: what the model adds to the value carries into the count
exactly where it does in R38. -/
theorem grain_carry {b g r s : Nat} (n : Nat) (hg : g < b) (hr : r < 2 ^ s) :
    ((2 ^ s * n + r) * b / 2 ^ s + g) / b = if b ≤ r * b / 2 ^ s + g then n + 1 else n := by
  have parts : r * b / 2 ^ s < b := Nat.div_lt_of_lt_mul (Nat.mul_lt_mul_of_pos_right hr (by omega))
  rw [add_mul, mul_assoc, Nat.mul_add_div (by positivity), add_assoc, mul_comm n b, Nat.mul_add_div (by omega)]
  split
  next h => rw [Nat.div_eq_of_lt_le (k := 1) (by omega) (by omega)]
  next h => rw [Nat.div_eq_of_lt (by omega), add_zero]

theorem floor_parts (r s : Nat) (hr : r ≤ 2 ^ s) {x : ℚ} (hx : 0 < x) :
    ⌊(r * x : ℚ) * 2 ^ 16 / (r * x + ((2 ^ s - r : Nat) : ℚ) * x)⌋ = (r * 2 ^ 16 / 2 ^ s : Nat) := by
  have share : (r * x : ℚ) * 2 ^ 16 / (r * x + ((2 ^ s - r : Nat) : ℚ) * x) = ((r * 2 ^ 16 : Nat) : ℚ) / (2 ^ s : Nat) := by
    rw [← add_mul, ← Nat.cast_add, Nat.add_sub_cancel' hr]
    push_cast
    field_simp
    norm_num
  rw [share, Rat.floor_natCast_div_natCast, Int.natCast_ediv]

/-- A value strictly between two counts is rounded to one of them, inexactly. -/
theorem roundAt_between (lo : (n : ℚ) * 2 ^ q < m * 2 ^ e) (hi : m * 2 ^ e < ((n : ℚ) + 1) * 2 ^ q) {mode : Mode} (neg : Bool)
    (grain : ∀ g, mode = .sr g → g < 2 ^ 16) :
    ∃ up : Bool, (up = true ↔ RoundsUp mode neg n (m * 2 ^ e - (n : ℚ) * 2 ^ q) (((n : ℚ) + 1) * 2 ^ q - m * 2 ^ e)) ∧
      roundAt mode neg m e q = (if up then n + 1 else n, true) := by
  obtain ⟨s, r, rfl, pos, small, rfl, below, above⟩ := between_split lo hi
  rw [below, above]
  have he : (0 : ℚ) < 2 ^ e := zpow_pos two_pos e
  have width : (e + (s + 1 : Nat) - e).toNat = s + 1 := by omega
  have quot : (2 ^ (s + 1) * n + r) / 2 ^ (s + 1) = n := by rw [Nat.mul_add_div (by positivity), Nat.div_eq_of_lt small, add_zero]
  have rest : (2 ^ (s + 1) * n + r) % 2 ^ (s + 1) = r := by rw [Nat.mul_add_mod, Nat.mod_eq_of_lt small]
  have lt_half : ((2 ^ (s + 1) - r : Nat) : ℚ) * 2 ^ e < r * 2 ^ e ↔ 2 ^ s < r := by
    rw [mul_lt_mul_iff_left₀ he, Nat.cast_lt]; omega
  have eq_half : (r : ℚ) * 2 ^ e = ((2 ^ (s + 1) - r : Nat) : ℚ) * 2 ^ e ↔ r = 2 ^ s := by
    rw [mul_left_inj' he.ne', Nat.cast_inj]; omega
  have le_half : ((2 ^ (s + 1) - r : Nat) : ℚ) * 2 ^ e ≤ r * 2 ^ e ↔ 2 ^ s ≤ r := by
    rw [mul_le_mul_iff_left₀ he, Nat.cast_le]; omega
  have unfolded : roundAt mode neg (2 ^ (s + 1) * n + r) e (e + (s + 1 : Nat)) = _ := if_neg (by omega)
  simp only [width, quot, rest, if_neg pos.ne', Nat.add_sub_cancel] at unfolded
  rw [unfolded]
  cases mode with
  | ne => exact ⟨_, by simp [RoundsUp, lt_half, eq_half], rfl⟩
  | tz => exact ⟨false, by simp [RoundsUp], rfl⟩
  | rz => exact ⟨false, by simp [RoundsUp], rfl⟩
  | dn => exact ⟨neg, by simp [RoundsUp], rfl⟩
  | up => exact ⟨! neg, by simp [RoundsUp], rfl⟩
  | away => exact ⟨_, by simp [RoundsUp, le_half], rfl⟩
  | sr g =>
    refine ⟨decide (2 ^ 16 ≤ r * 2 ^ 16 / 2 ^ (s + 1) + g), ?_, ?_⟩
    · rw [RoundsUp, floor_parts r (s + 1) small.le he, decide_eq_true_iff]
      exact_mod_cast Iff.rfl
    · simp only [grain_carry n (grain g rfl) small, decide_eq_true_eq]

end

end Sys2Proof.Machine
end

section
/-! SUPPORT. The number formats: what holds of all of them, and the codes of a format as counts of their quanta (R26, R29, R30). -/

namespace Sys2Proof.Machine

/-! ## What holds of every format -/

/-- The largest finite magnitude code is normal, fits, and lies below infinity and, in an unsigned format, below NaN; the NaN of a
signed q8 format takes the place of its -0. -/
structure FloatFmt.Wf (f : FloatFmt) : Prop where
  p_pos : 1 ≤ f.p
  w_pos : 1 ≤ f.w
  max_normal : 2 ^ (f.p - 1) ≤ f.max
  max_fits : f.max < if f.sgn then 2 ^ (f.w - 1) else 2 ^ f.w
  max_lt_inf : ∀ i, f.inf = some i → f.max < i
  nan_q8 : f.q8 = true → if f.sgn then f.nan = 2 ^ (f.w - 1) else f.max < f.nan
  unsigned_q8 : f.sgn = false → f.q8 = true

theorem FloatFmt.Wf.max_ne_zero {f : FloatFmt} (hf : f.Wf) : f.max ≠ 0 := ne_of_gt (lt_of_lt_of_le (by positivity) hf.max_normal)

theorem FloatFmt.Wf.inf_ne_zero {f : FloatFmt} (hf : f.Wf) {i : Nat} (hi : f.inf = some i) : i ≠ 0 := Nat.ne_zero_of_lt (hf.max_lt_inf i hi)

/-- What an overflow gives is no zero. -/
theorem FloatFmt.Wf.far_ne_zero {f : FloatFmt} (hf : f.Wf) {i : Nat} (hi : f.inf = some i) (far : Bool) : (if far then i else f.max) ≠ 0 := by
  cases far
  · exact hf.max_ne_zero
  · exact hf.inf_ne_zero hi

theorem fmtF16_wf : fmtF16.Wf := ⟨by decide, by decide, by decide, by decide, fun _ h => by cases h; decide, by decide, by decide⟩
theorem fmtBf16_wf : fmtBf16.Wf := ⟨by decide, by decide, by decide, by decide, fun _ h => by cases h; decide, by decide, by decide⟩
theorem fmtF32_wf : fmtF32.Wf := ⟨by decide, by decide, by decide, by decide, fun _ h => by cases h; decide, by decide, by decide⟩
theorem fmtF64_wf : fmtF64.Wf := ⟨by decide, by decide, by decide, by decide, fun _ h => by cases h; decide, by decide, by decide⟩

theorem fmtQ8_wf (k : Fin 7) (sgn ext : Bool) : (fmtQ8 (k.val + 1) sgn ext).Wf where
  p_pos := Nat.le_add_left 1 _
  w_pos := by show 1 ≤ 8; decide
  max_normal := by revert k sgn ext; decide
  max_fits := by revert k sgn ext; decide
  max_lt_inf := by
    show ∀ i ∈ (fmtQ8 (k.val + 1) sgn ext).inf, (fmtQ8 (k.val + 1) sgn ext).max < i
    revert k sgn ext; decide
  nan_q8 _ := by revert k sgn ext; decide
  unsigned_q8 _ := rfl

theorem fmtQ8_emin_signed (k : Fin 7) (ext : Bool) : (fmtQ8 (k.val + 1) true ext).emin = 1 - 2 ^ (6 - k.val) - k.val := by
  revert k ext; decide

theorem fmtQ8_emin_unsigned (k : Fin 7) (ext : Bool) : (fmtQ8 (k.val + 1) false ext).emin = 1 - 2 ^ (7 - k.val) - k.val := by
  revert k ext; decide

/-- The q8 tags of Table 2.1. -/
theorem elemOf_q8 (k : Fin 7) :
    elemOf (BitVec.ofNat 6 (0x10 + k.val)) = some (.flt (fmtQ8 (k.val + 1) true false)) ∧
    elemOf (BitVec.ofNat 6 (0x18 + k.val)) = some (.flt (fmtQ8 (k.val + 1) true true)) ∧
    elemOf (BitVec.ofNat 6 (0x20 + k.val)) = some (.flt (fmtQ8 (k.val + 1) false false)) ∧
    elemOf (BitVec.ofNat 6 (0x28 + k.val)) = some (.flt (fmtQ8 (k.val + 1) false true)) := by
  revert k; decide

/-- The float formats of Table 2.1. -/
theorem elemOf_flt {t : BitVec 6} {f : FloatFmt} (h : elemOf t = some (.flt f)) :
    f = fmtF16 ∨ f = fmtBf16 ∨ f = fmtF32 ∨ f = fmtF64 ∨ ∃ (k : Fin 7) (sgn ext : Bool), f = fmtQ8 (k.val + 1) sgn ext := by
  simp only [elemOf] at h
  split_ifs at h with _ _ _ _ _ _ _ q <;> cases h
  · exact .inl rfl
  · exact .inr (.inl rfl)
  · exact .inr (.inr (.inl rfl))
  · exact .inr (.inr (.inr (.inl rfl)))
  · exact .inr (.inr (.inr (.inr ⟨⟨_, q.2.2⟩, _, _, rfl⟩)))

theorem wf_of_elemOf {t : BitVec 6} {f : FloatFmt} (h : elemOf t = some (.flt f)) : f.Wf := by
  rcases elemOf_flt h with rfl | rfl | rfl | rfl | ⟨k, sgn, ext, rfl⟩
  · exact fmtF16_wf
  · exact fmtBf16_wf
  · exact fmtF32_wf
  · exact fmtF64_wf
  · exact fmtQ8_wf k sgn ext

/-! ## Codes with a sign, and what they decode to -/

theorem signCode_of_ne {f : FloatFmt} {neg : Bool} {c : Nat} (h : f.q8 = true → neg = true → c ≠ 0) :
    Claims.signCode f neg c = if neg then 2 ^ (f.w - 1) + c else c := by
  unfold Claims.signCode
  by_cases hn : neg = true
  · rw [if_pos ⟨hn, fun hc => h hc.1 hn hc.2⟩, if_pos hn]
  · rw [if_neg (fun hc => hn hc.1), if_neg hn]

theorem signCode_zero (f : FloatFmt) (neg : Bool) : Claims.signCode f neg 0 = if f.q8 then 0 else if neg then 2 ^ (f.w - 1) else 0 := by
  unfold Claims.signCode
  cases neg <;> cases f.q8 <;> simp

/-- The sign and the magnitude of a code of a signed format. -/
theorem signed_code_fields {w c : Nat} (hw : 1 ≤ w) (hc : c < 2 ^ (w - 1)) (neg : Bool) :
    let code := if neg then 2 ^ (w - 1) + c else c
    code % 2 ^ w = code ∧ decide (2 ^ (w - 1) ≤ code) = neg ∧ code % 2 ^ (w - 1) = c := by
  have double : 2 ^ w = 2 * 2 ^ (w - 1) := by rw [← pow_succ', Nat.sub_add_cancel hw]
  cases neg
  · exact ⟨Nat.mod_eq_of_lt (by simp only [Bool.false_eq_true, if_false]; omega), decide_eq_false (Nat.not_le.mpr hc), Nat.mod_eq_of_lt hc⟩
  · exact ⟨Nat.mod_eq_of_lt (by simp only [if_true]; omega), decide_eq_true (Nat.le_add_right _ _),
      (Nat.add_mod_left _ _).trans (Nat.mod_eq_of_lt hc)⟩

theorem decodeFloat_signCode {f : FloatFmt} (hf : f.Wf) {neg : Bool} {c : Nat} (hc : c ≤ f.max) (sign : neg = true → f.sgn = true)
    (zero : f.q8 = true → neg = true → c ≠ 0) : decodeFloat f (Claims.signCode f neg c) = decodeMag f neg c := by
  have finite : f.inf ≠ some c := fun h => absurd (hf.max_lt_inf c h) (Nat.not_lt.mpr hc)
  have fits := hf.max_fits
  have nan := hf.nan_q8
  rw [signCode_of_ne zero]
  cases hs : f.sgn
  · -- an unsigned format
    obtain rfl : neg = false := by cases neg <;> simp_all
    rw [hs] at fits nan
    have inside : c % 2 ^ f.w = c := Nat.mod_eq_of_lt (hc.trans_lt fits)
    have number : c ≠ f.nan := (hc.trans_lt (nan (hf.unsigned_q8 hs))).ne
    simp [decodeFloat, hs, inside, hf.unsigned_q8 hs, number, finite]
  · rw [hs] at fits nan
    obtain ⟨inside, sgn, mag⟩ := signed_code_fields hf.w_pos (hc.trans_lt fits) neg
    have number : f.q8 = true → (if neg then 2 ^ (f.w - 1) + c else c) ≠ f.nan := fun hq => by
      rw [show f.nan = 2 ^ (f.w - 1) from nan hq]
      have low : c < 2 ^ (f.w - 1) := hc.trans_lt fits
      cases neg
      · exact low.ne
      · exact fun h => zero hq rfl (by simpa using h)
    simp only [decodeFloat, hs, inside, sgn, mag, if_true, Bool.true_and, if_neg finite, if_neg (Nat.not_lt.mpr hc)]
    by_cases hq : f.q8 = true
    · rw [if_pos hq, if_neg (number hq)]
    · rw [if_neg hq]

theorem decodeMag_value (f : FloatFmt) (neg : Bool) (c : Nat) :
    ∃ (a : Nat) (k : Int), decodeMag f neg c = .fin neg a k ∧ (a : ℚ) * 2 ^ k = Claims.magnitude f c := by
  simp only [decodeMag, Claims.magnitude]
  split
  · exact ⟨_, _, rfl, rfl⟩
  · exact ⟨_, _, rfl, by rw [add_comm]⟩

/-! ## The place of a code: a count n of the quantum 2^(emin + j) -/

/-- A magnitude code c is the count n of the quantum 2^(emin + j), n having its leading bit, or j being 0. -/
structure Place (f : FloatFmt) (c j n : Nat) : Prop where
  code : c = j * 2 ^ (f.p - 1) + n
  normal : j = 0 ∨ 2 ^ (f.p - 1) ≤ n
  bound : n < 2 * 2 ^ (f.p - 1)

theorem exists_place (f : FloatFmt) (c : Nat) : ∃ j n, Place f c j n := by
  have hp : 0 < 2 ^ (f.p - 1) := by positivity
  have digits := Nat.div_add_mod' c (2 ^ (f.p - 1))
  have small := Nat.mod_lt c hp
  cases h : c / 2 ^ (f.p - 1) with
  | zero => exact ⟨0, c, by omega, .inl rfl, by rw [h] at digits; omega⟩
  | succ j => exact ⟨j, c % 2 ^ (f.p - 1) + 2 ^ (f.p - 1), by rw [h, add_one_mul] at digits; omega, .inr (Nat.le_add_left _ _), by omega⟩

/-- The value at a count, the next binade's first count included. -/
theorem magnitude_count (f : FloatFmt) {j n : Nat} (normal : j = 0 ∨ 2 ^ (f.p - 1) ≤ n) (bound : n ≤ 2 * 2 ^ (f.p - 1)) :
    Claims.magnitude f (j * 2 ^ (f.p - 1) + n) = n * 2 ^ (f.emin + j) := by
  have hp : 0 < 2 ^ (f.p - 1) := by positivity
  unfold Claims.magnitude
  generalize 2 ^ (f.p - 1) = P at *
  rcases Nat.lt_or_ge n P with low | high
  · obtain rfl : j = 0 := by omega
    simp [Nat.div_eq_of_lt low, Nat.mod_eq_of_lt low]
  rcases bound.lt_or_eq with inside | rfl
  · obtain ⟨r, rfl⟩ := Nat.exists_eq_add_of_le high
    have hr : r < P := by omega
    have e : (j * P + (P + r)) / P = j + 1 := by
      rw [← add_assoc, ← add_one_mul, mul_comm, Nat.mul_add_div hp, Nat.div_eq_of_lt hr, add_zero]
    have m : (j * P + (P + r)) % P = r := by
      rw [← add_assoc, ← add_one_mul, mul_comm, Nat.mul_add_mod, Nat.mod_eq_of_lt hr]
    simp only [e, m, if_neg (Nat.succ_ne_zero j)]
    congr 2
    push_cast; ring
  · have whole : j * P + 2 * P = (j + 2) * P := by ring
    simp only [whole, Nat.mul_div_cancel _ hp, Nat.mul_mod_left, if_neg (Nat.succ_ne_zero (j + 1)), add_zero]
    have exponent : f.emin + (j + 2 : Nat) - 1 = f.emin + j + 1 := by push_cast; ring
    rw [exponent, zpow_add_one₀ two_ne_zero]
    push_cast; ring

section
variable {f : FloatFmt} {c j n : Nat}

theorem Place.magnitude (h : Place f c j n) : Claims.magnitude f c = n * 2 ^ (f.emin + j) :=
  h.code ▸ magnitude_count f h.normal h.bound.le

theorem Place.magnitude_succ (h : Place f c j n) : Claims.magnitude f (c + 1) = (n + 1) * 2 ^ (f.emin + j) := by
  rw [h.code, add_assoc, magnitude_count f (h.normal.imp_right Nat.le_succ_of_le) h.bound]
  push_cast; ring

/-- The count of the largest finite value, and the place of the top binade. -/
def topCount (f : FloatFmt) : Nat := f.max % 2 ^ (f.p - 1) + 2 ^ (f.p - 1)
def topPlace (f : FloatFmt) : Nat := f.max / 2 ^ (f.p - 1) - 1

theorem max_eq (hf : f.Wf) : f.max = topPlace f * 2 ^ (f.p - 1) + topCount f := by
  have hp : 0 < 2 ^ (f.p - 1) := by positivity
  have digits := Nat.div_add_mod' f.max (2 ^ (f.p - 1))
  obtain ⟨j, hj⟩ : ∃ j, f.max / 2 ^ (f.p - 1) = j + 1 := Nat.exists_eq_add_of_le' (Nat.div_pos hf.max_normal hp)
  rw [topPlace, topCount]
  rw [hj, add_one_mul] at digits
  rw [hj, Nat.add_sub_cancel]
  omega

theorem max_place (hf : f.Wf) : Place f f.max (topPlace f) (topCount f) where
  code := max_eq hf
  normal := .inr (Nat.le_add_left _ _)
  bound := by
    have := Nat.mod_lt f.max (show 0 < 2 ^ (f.p - 1) by positivity)
    rw [topCount]; omega

theorem Place.le_top (h : Place f c j n) (hc : c ≤ f.max) : j ≤ topPlace f := by
  rw [topPlace]
  rcases h.normal with rfl | normal
  · exact Nat.zero_le _
  · have : j + 1 ≤ f.max / 2 ^ (f.p - 1) := (Nat.le_div_iff_mul_le (by positivity)).mpr (by rw [add_one_mul]; have := h.code; omega)
    omega

theorem Place.count_le_top (hf : f.Wf) (h : Place f c (topPlace f) n) (hc : c ≤ f.max) : n ≤ topCount f := by
  have := max_eq hf
  have := h.code
  omega

/-- The exponent of the top quantum, as the model writes it. -/
theorem topPlace_exponent (hf : f.Wf) : f.emin + (f.max / 2 ^ (f.p - 1) : Nat) - 1 = f.emin + topPlace f := by
  have : 0 < f.max / 2 ^ (f.p - 1) := Nat.div_pos hf.max_normal (by positivity)
  rw [topPlace]
  omega

theorem topUlp_eq (hf : f.Wf) : Claims.topUlp f = 2 ^ (f.emin + topPlace f) := by rw [Claims.topUlp, topPlace_exponent hf]

end

end Sys2Proof.Machine
end

section
/-! SUPPORT. What `encodeFloat` makes of a finite value: its quantum, its count, its flags (R26, R31, R36, R38, log 25, log 61). -/

namespace Sys2Proof.Machine

/-! ## The quantum -/

/-- The exponent of a value's leading bit. -/
theorem le_leadExp_iff {m : Nat} (hm : m ≠ 0) (e k : Int) : (2 : ℚ) ^ k ≤ m * 2 ^ e ↔ k ≤ leadExp m e := by
  have lead : leadExp m e = (Nat.log2 m : Int) + e := by rw [leadExp, bitLen, if_neg hm]; push_cast; ring
  have he : (0 : ℚ) < 2 ^ e := zpow_pos two_pos e
  have low : (2 : ℚ) ^ leadExp m e ≤ m * 2 ^ e := by
    rw [lead, zpow_add₀ two_ne_zero, mul_le_mul_iff_left₀ he, zpow_natCast]
    exact_mod_cast Nat.log2_self_le hm
  have high : (m : ℚ) * 2 ^ e < 2 ^ (leadExp m e + 1) := by
    rw [lead, add_right_comm, zpow_add₀ two_ne_zero, mul_lt_mul_iff_left₀ he]
    exact_mod_cast Nat.lt_log2_self
  constructor
  · exact fun h => Int.lt_add_one_iff.mp ((zpow_lt_zpow_iff_right₀ one_lt_two).mp (h.trans_lt high))
  · exact fun h => (zpow_le_zpow_right₀ one_le_two h).trans low

theorem count_zpow (p : Nat) (k : Int) : ((2 ^ p : Nat) : ℚ) * 2 ^ k = 2 ^ (k + p) := by
  rw [add_comm, zpow_add₀ two_ne_zero, zpow_natCast, Nat.cast_pow, Nat.cast_ofNat]

/-- The exponent of the quantum that the model rounds a finite value to: its binade's, but no less than the subnormals' and no
more than the top one's. -/
def quantum (f : FloatFmt) (m : Nat) (e : Int) : Int :=
  min (max (leadExp m e) (f.emin + (f.p - 1 : Nat)) - (f.p - 1 : Nat)) (f.emin + (f.max / 2 ^ (f.p - 1) : Nat) - 1)

section
variable {f : FloatFmt} {m : Nat} {e : Int} {c j n : Nat}

theorem quantum_between (hf : f.Wf) (hm : m ≠ 0) (place : Place f c j n) (hc : c ≤ f.max) (lo : (n : ℚ) * 2 ^ (f.emin + j) ≤ m * 2 ^ e)
    (hi : m * 2 ^ e < ((n : ℚ) + 1) * 2 ^ (f.emin + j)) : quantum f m e = f.emin + j := by
  have top := place.le_top hc
  have hq : (0 : ℚ) < 2 ^ (f.emin + (j : Int)) := zpow_pos two_pos _
  have above (k : Nat) (hk : n + 1 ≤ 2 ^ k) : leadExp m e < f.emin + j + k := by
    rw [← not_le, ← le_leadExp_iff hm, not_le, ← count_zpow]
    exact hi.trans_le (mul_le_mul_of_nonneg_right (by exact_mod_cast hk) hq.le)
  rw [quantum, topPlace_exponent hf]
  rcases Nat.lt_or_ge n (2 ^ (f.p - 1)) with subnormal | normal
  · have lead := above (f.p - 1) subnormal
    obtain rfl : j = 0 := place.normal.resolve_right (Nat.not_le.mpr subnormal)
    omega
  · have lead := above (f.p - 1 + 1) (by rw [pow_succ']; exact place.bound)
    have : f.emin + j + (f.p - 1 : Nat) ≤ leadExp m e := by
      rw [← le_leadExp_iff hm, ← count_zpow]
      exact (mul_le_mul_of_nonneg_right (by exact_mod_cast normal) hq.le).trans lo
    omega

theorem quantum_top (hf : f.Wf) (hm : m ≠ 0) (lo : (topCount f : ℚ) * 2 ^ (f.emin + topPlace f) ≤ m * 2 ^ e) :
    quantum f m e = f.emin + topPlace f := by
  have : f.emin + topPlace f + (f.p - 1 : Nat) ≤ leadExp m e := by
    rw [← le_leadExp_iff hm, ← count_zpow]
    refine (mul_le_mul_of_nonneg_right ?_ (zpow_pos two_pos _).le).trans lo
    exact_mod_cast Nat.le_add_left _ _
  rw [quantum, topPlace_exponent hf]
  omega

end

/-! ## The count -/

section
variable {mode : Mode} {m n : Nat} {e q : Int}

/-- But for a tie at precision 1 (log 25), `roundTo` is `roundAt`. -/
theorem roundTo_of_not_tie {p : Nat} {emin : Int} {neg : Bool}
    (h : ¬ (p = 1 ∧ mode = .ne ∧ e < q ∧ 2 * m = (2 * (m / 2 ^ (q - e).toNat) + 1) * 2 ^ (q - e).toNat)) :
    roundTo p emin mode neg m e q = roundAt mode neg m e q := by
  refine if_neg ?_
  simpa only [Bool.and_eq_true, decide_eq_true_eq, and_assoc] using h

theorem roundTo_exact (h : (n : ℚ) * 2 ^ q = m * 2 ^ e) (p : Nat) (emin : Int) (mode : Mode) (neg : Bool) :
    roundTo p emin mode neg m e q = (n, false) := by
  rw [roundTo_of_not_tie, roundAt_exact h]
  rintro ⟨-, -, finer, tie⟩
  rw [two_zpow_split finer.le, ← mul_assoc] at h
  have count := mul_right_cancel₀ (zpow_pos two_pos e).ne' h
  norm_cast at count
  rw [← count, Nat.mul_div_cancel _ (by positivity), ← mul_assoc] at tie
  have := Nat.eq_of_mul_eq_mul_right (by positivity) tie
  omega

/-- A value strictly between two counts is rounded to one of them as the mode says, but for a tie at precision 1 (log 25). -/
theorem roundTo_between (lo : (n : ℚ) * 2 ^ q < m * 2 ^ e) (hi : m * 2 ^ e < ((n : ℚ) + 1) * 2 ^ q) (p : Nat) (emin : Int) (neg : Bool)
    (grain : ∀ g, mode = .sr g → g < 2 ^ 16) :
    ∃ up : Bool, (p = 1 ∧ mode = .ne ∧ m * 2 ^ e - (n : ℚ) * 2 ^ q = ((n : ℚ) + 1) * 2 ^ q - m * 2 ^ e ∨
        (up = true ↔ RoundsUp mode neg n (m * 2 ^ e - (n : ℚ) * 2 ^ q) (((n : ℚ) + 1) * 2 ^ q - m * 2 ^ e))) ∧
      roundTo p emin mode neg m e q = (if up then n + 1 else n, true) := by
  by_cases free : p = 1 ∧ mode = .ne ∧ e < q ∧ 2 * m = (2 * (m / 2 ^ (q - e).toNat) + 1) * 2 ^ (q - e).toNat
  · obtain ⟨s, r, rfl, -, small, rfl, below, above⟩ := between_split lo hi
    obtain ⟨hp, hmode, finer, tie⟩ := free
    have width : (e + (s + 1 : Nat) - e).toNat = s + 1 := by omega
    have quot : (2 ^ (s + 1) * n + r) / 2 ^ (s + 1) = n := by rw [Nat.mul_add_div (by positivity), Nat.div_eq_of_lt small, add_zero]
    refine ⟨Config.tieUp ((e + (s + 1 : Nat) - emin).toNat + n), .inl ⟨hp, hmode, ?_⟩, ?_⟩
    · rw [width, quot] at tie
      have half : r + r = 2 ^ (s + 1) := by linarith
      rw [below, above, ← half, Nat.add_sub_cancel]
    · unfold roundTo
      rw [width] at tie
      simp only [width, hp, hmode, finer, tie, decide_true, Bool.and_true, if_true, quot]
  · obtain ⟨up, rounds, at_⟩ := roundAt_between lo hi neg grain
    exact ⟨up, .inr rounds, (roundTo_of_not_tie free).trans at_⟩

/-- Rounding is exact, or goes to one of the two counts around the value. -/
theorem roundTo_cases (p : Nat) (emin : Int) (neg : Bool) (grain : ∀ g, mode = .sr g → g < 2 ^ 16) :
    ∃ k : Nat, ((k : ℚ) * 2 ^ q = m * 2 ^ e ∧ roundTo p emin mode neg m e q = (k, false)) ∨
      ((k : ℚ) * 2 ^ q < m * 2 ^ e ∧ m * 2 ^ e < ((k : ℚ) + 1) * 2 ^ q ∧
        ∃ up : Bool, roundTo p emin mode neg m e q = (if up then k + 1 else k, true)) := by
  obtain ⟨k, lo, hi⟩ := exists_count m e q
  rcases lo.eq_or_lt with whole | lo
  · exact ⟨k, .inl ⟨whole, roundTo_exact whole p emin mode neg⟩⟩
  · obtain ⟨up, -, rounded⟩ := roundTo_between lo hi p emin neg grain
    exact ⟨k, .inr ⟨lo, hi, up, rounded⟩⟩

theorem le_roundTo (h : (n : ℚ) * 2 ^ q ≤ m * 2 ^ e) (p : Nat) (emin : Int) (neg : Bool) (grain : ∀ g, mode = .sr g → g < 2 ^ 16) :
    n ≤ (roundTo p emin mode neg m e q).1 := by
  have hq : (0 : ℚ) < 2 ^ q := zpow_pos two_pos q
  obtain ⟨k, ⟨value, rounded⟩ | ⟨lo, hi, up, rounded⟩⟩ := roundTo_cases (m := m) (e := e) (q := q) p emin neg grain
  · rw [rounded]
    exact_mod_cast le_of_mul_le_mul_right (h.trans_eq value.symm) hq
  · have := lt_of_mul_lt_mul_right (h.trans_lt hi) hq.le
    norm_cast at this
    rw [rounded]
    cases up <;> simp <;> omega

theorem roundTo_le (h : m * 2 ^ e ≤ (n : ℚ) * 2 ^ q) (p : Nat) (emin : Int) (neg : Bool) (grain : ∀ g, mode = .sr g → g < 2 ^ 16) :
    (roundTo p emin mode neg m e q).1 ≤ n := by
  have hq : (0 : ℚ) < 2 ^ q := zpow_pos two_pos q
  obtain ⟨k, ⟨value, rounded⟩ | ⟨lo, hi, up, rounded⟩⟩ := roundTo_cases (m := m) (e := e) (q := q) p emin neg grain
  · rw [rounded]
    exact_mod_cast le_of_mul_le_mul_right (value.trans_le h) hq
  · have := lt_of_mul_lt_mul_right (lo.trans_le h) hq.le
    norm_cast at this
    rw [rounded]
    cases up <;> simp <;> omega

end

/-! ## The flags and the code -/

/-- Whether a finite value is below the normal range after rounding with an unbounded exponent (R36). -/
def tiny (f : FloatFmt) (mode : Mode) (neg : Bool) (m : Nat) (e : Int) : Bool :=
  let lead := leadExp m e
  let low := f.emin + (f.p - 1 : Nat)
  decide (lead < low) &&
    decide ((roundTo f.p f.emin mode neg m e (lead - (f.p - 1 : Nat))).1 < 2 ^ (low - lead + (f.p - 1 : Nat)).toNat)

/-- The flags of a finite value that does not overflow. -/
def roundFlags (inexact tiny : Bool) : Flags := flagIf inexact flagNX ||| flagIf (inexact && tiny) flagUF

@[simp] theorem roundFlags_exact (tiny : Bool) : roundFlags false tiny = 0 := by decide +revert
@[simp] theorem roundFlags_inexact (tiny : Bool) : roundFlags true tiny = if tiny then 3 else 1 := by decide +revert

/-- Whether a value whose count is the largest one is far enough beyond it to overflow all the same (log 61). -/
def overTop (f : FloatFmt) (mode : Mode) (m : Nat) (e q : Int) (r : Nat × Bool) : Bool :=
  match mode with
  | .ne => r.2 && decide (r.1 = topCount f) && decide (2 * m = (2 * topCount f + 1) * 2 ^ (q - e).toNat)
  | .tz => r.2 && ! (f.q8 && f.inf.isNone) && decide (r.1 = topCount f) && decide ((2 * topCount f + 1) * 2 ^ (q - e).toNat ≤ 2 * m)
  | _ => false

/-- Whether a count overflows. -/
def overflows (f : FloatFmt) (mode : Mode) (m : Nat) (e q : Int) (r : Nat × Bool) : Bool :=
  decide (q = f.emin + (f.max / 2 ^ (f.p - 1) : Nat) - 1) && (decide (topCount f < r.1) || overTop f mode m e q r)

section
variable {f : FloatFmt} {mode : Mode} {m : Nat} {e q : Int} {r : Nat × Bool}

/-- What goes over the top from the largest count lies at least half an ulp beyond it. -/
theorem overTop_half (h : overTop f mode m e q r = true) :
    r.2 = true ∧ r.1 = topCount f ∧ (2 * (topCount f : ℚ) + 1) * 2 ^ q ≤ 2 * (m * 2 ^ e) := by
  have beyond (le : (2 * topCount f + 1) * 2 ^ (q - e).toNat ≤ 2 * m) : (2 * (topCount f : ℚ) + 1) * 2 ^ q ≤ 2 * (m * 2 ^ e) := by
    have quantum : (2 : ℚ) ^ q ≤ ((2 ^ (q - e).toNat : Nat) : ℚ) * 2 ^ e := by
      rw [count_zpow]
      exact zpow_le_zpow_right₀ one_le_two (by omega)
    calc (2 * (topCount f : ℚ) + 1) * 2 ^ q
        ≤ (2 * (topCount f : ℚ) + 1) * (((2 ^ (q - e).toNat : Nat) : ℚ) * 2 ^ e) := mul_le_mul_of_nonneg_left quantum (by positivity)
      _ = (((2 * topCount f + 1) * 2 ^ (q - e).toNat : Nat) : ℚ) * 2 ^ e := by push_cast; ring
      _ ≤ ((2 * m : Nat) : ℚ) * 2 ^ e := mul_le_mul_of_nonneg_right (by exact_mod_cast le) (zpow_pos two_pos e).le
      _ = 2 * (m * 2 ^ e) := by push_cast; ring
  cases mode with
  | ne =>
    simp only [overTop, Bool.and_eq_true, decide_eq_true_eq] at h
    obtain ⟨⟨inexact, largest⟩, tie⟩ := h
    exact ⟨inexact, largest, beyond tie.ge⟩
  | tz =>
    simp only [overTop, Bool.and_eq_true, decide_eq_true_eq] at h
    obtain ⟨⟨⟨inexact, -⟩, largest⟩, far⟩ := h
    exact ⟨inexact, largest, beyond far⟩
  | rz | dn | up | away | sr => exact absurd h Bool.false_ne_true

/-- A tie between the largest count and the next goes over the top to nearest. -/
theorem overTop_tie (finer : e ≤ q) (tie : m * 2 ^ e - (topCount f : ℚ) * 2 ^ q = ((topCount f : ℚ) + 1) * 2 ^ q - m * 2 ^ e) :
    overTop f .ne m e q (topCount f, true) = true := by
  have digits : ((2 * m : Nat) : ℚ) * 2 ^ e = (((2 * topCount f + 1) * 2 ^ (q - e).toNat : Nat) : ℚ) * 2 ^ e := by
    have split := two_zpow_split finer
    push_cast at split ⊢
    linear_combination tie + (2 * (topCount f : ℚ) + 1) * split
  have count : 2 * m = (2 * topCount f + 1) * 2 ^ (q - e).toNat := Nat.cast_injective (mul_right_cancel₀ (zpow_pos two_pos e).ne' digits)
  simp [overTop, count]

theorem overflows_eq (hf : f.Wf) (q : Int) : overflows f mode m e q r =
    (decide (q = f.emin + topPlace f) && (decide (topCount f < r.1) || overTop f mode m e q r)) := by rw [overflows, topPlace_exponent hf]

/-- No overflow up to the largest count, from less than half an ulp beyond it. -/
theorem overflows_false (hf : f.Wf) (count : q = f.emin + topPlace f → r.1 ≤ topCount f)
    (half : q = f.emin + topPlace f → r.2 = true → 2 * (m * 2 ^ e) < (2 * (topCount f : ℚ) + 1) * 2 ^ q) : overflows f mode m e q r = false := by
  by_contra h
  rw [Bool.not_eq_false, overflows_eq hf, Bool.and_eq_true, Bool.or_eq_true, decide_eq_true_iff, decide_eq_true_iff] at h
  obtain ⟨top, beyond | beyond⟩ := h
  · exact absurd beyond (Nat.not_lt.mpr (count top))
  · obtain ⟨inexact, -, far⟩ := overTop_half beyond
    exact absurd (half top inexact) (not_lt.mpr far)

end

theorem topCount_pos (f : FloatFmt) : 0 < topCount f := Nat.add_pos_right _ (by positivity)

/-- A count of 0 does not overflow. -/
theorem overflows_zero (f : FloatFmt) (mode : Mode) (m : Nat) (e q : Int) (inexact : Bool) : overflows f mode m e q (0, inexact) = false := by
  have largest : overTop f mode m e q (0, inexact) = false := by
    by_contra h
    obtain ⟨-, zero, -⟩ := overTop_half (Bool.not_eq_false _ ▸ h)
    exact (topCount_pos f).ne zero
  rw [overflows, largest, decide_eq_false (Nat.not_lt_zero _), Bool.or_false, Bool.and_false]

section
variable {f : FloatFmt} {mode : Mode} {neg : Bool} {m : Nat} {e : Int}

/-- A value that is, or lies between codes that are, below the normal range. -/
theorem tiny_of_subnormal (hm : m ≠ 0) (grain : ∀ g, mode = .sr g → g < 2 ^ 16) {n : Nat} (hn : n < 2 ^ (f.p - 1))
    (hi : m * 2 ^ e < (n : ℚ) * 2 ^ f.emin) : tiny f mode neg m e = true := by
  have lead : leadExp m e < f.emin + (f.p - 1 : Nat) := by
    rw [← not_le, ← le_leadExp_iff hm, not_le, ← count_zpow]
    exact hi.trans (mul_lt_mul_of_pos_right (by exact_mod_cast hn) (zpow_pos two_pos _))
  have finer : leadExp m e - (f.p - 1 : Nat) ≤ f.emin := by omega
  have width : (f.emin + (f.p - 1 : Nat) - leadExp m e + (f.p - 1 : Nat)).toNat = (f.p - 1) + (f.emin - (leadExp m e - (f.p - 1 : Nat))).toNat := by
    omega
  rw [two_zpow_split finer, ← mul_assoc, ← Nat.cast_mul] at hi
  have count := roundTo_le hi.le f.p f.emin neg grain
  rw [tiny, Bool.and_eq_true, decide_eq_true_iff, decide_eq_true_iff, width, pow_add]
  exact ⟨lead, count.trans_lt (Nat.mul_lt_mul_of_pos_right hn (by positivity))⟩

theorem not_tiny_of_normal (hm : m ≠ 0) (mode : Mode) (neg : Bool) {n : Nat} {q : Int} (hn : 2 ^ (f.p - 1) ≤ n) (hq : f.emin ≤ q)
    (lo : (n : ℚ) * 2 ^ q ≤ m * 2 ^ e) : tiny f mode neg m e = false := by
  have lead : f.emin + (f.p - 1 : Nat) ≤ leadExp m e := by
    rw [← le_leadExp_iff hm, ← count_zpow]
    refine le_trans (mul_le_mul ?_ (zpow_le_zpow_right₀ one_le_two hq) (zpow_pos two_pos _).le (by positivity)) lo
    exact_mod_cast hn
  rw [tiny, decide_eq_false (not_lt.mpr lead), Bool.false_and]

theorem not_tiny_of_top (hf : f.Wf) (hm : m ≠ 0) (mode : Mode) (neg : Bool) (top : Claims.magnitude f f.max ≤ m * 2 ^ e) :
    tiny f mode neg m e = false := by
  rw [(max_place hf).magnitude] at top
  exact not_tiny_of_normal hm mode neg (Nat.le_add_left _ _) (by omega) top

end

/-- A magnitude code with its sign, as the model writes it. -/
def withSign (f : FloatFmt) (neg : Bool) (c : Nat) : Nat := if f.sgn && neg then 2 ^ (f.w - 1) + c else c

theorem encodeFloat_fin {f : FloatFmt} {mode : Mode} {neg : Bool} {m : Nat} {e : Int} (hm : m ≠ 0) : encodeFloat f mode (.fin neg m e) =
    let q := quantum f m e
    let r := roundTo f.p f.emin mode neg m e q
    let fl := roundFlags r.2 (tiny f mode neg m e)
    if neg && ! f.sgn && r.1 ≠ 0 then (f.nan, flagNV)
    else if overflows f mode m e q r then
      (withSign f neg (match f.inf with | some i => if overflowsToInf mode neg then i else f.max | none => f.max), fl ||| flagOF ||| flagNX)
    else if r.1 = 0 then (if f.q8 then 0 else withSign f neg 0, fl)
    else (withSign f neg ((q - f.emin).toNat * 2 ^ (f.p - 1) + r.1), fl) := if_neg hm

theorem withSign_eq {f : FloatFmt} {neg : Bool} (sign : neg = true → f.sgn = true) (c : Nat) :
    withSign f neg c = if neg then 2 ^ (f.w - 1) + c else c := by
  rw [withSign]
  cases neg
  · rw [Bool.and_false]
  · rw [sign rfl]; rfl

/-- A value that the format has a sign for is never refused for it. -/
theorem sign_not_refused {f : FloatFmt} {neg : Bool} (sign : neg = true → f.sgn = true) (n : Nat) : ¬ (neg && ! f.sgn && decide (n ≠ 0)) = true := by
  cases neg
  · simp
  · simp [sign rfl]

section
variable {f : FloatFmt} {mode : Mode} {neg : Bool} {m : Nat} {e : Int} (hm : m ≠ 0) (sign : neg = true → f.sgn = true)
include hm sign

/-- A finite value that does not overflow takes the code of its count. -/
theorem encodeFloat_counted {j n : Nat} {inexact : Bool} (hq : quantum f m e = f.emin + j)
    (rounded : roundTo f.p f.emin mode neg m e (f.emin + j) = (n, inexact)) (fits : overflows f mode m e (f.emin + j) (n, inexact) = false)
    (zero : n = 0 → j = 0) :
    encodeFloat f mode (.fin neg m e) = (Claims.signCode f neg (j * 2 ^ (f.p - 1) + n), roundFlags inexact (tiny f mode neg m e)) := by
  rw [encodeFloat_fin hm]
  simp only [hq, rounded, fits, if_neg (sign_not_refused sign n), if_false, Bool.false_eq_true]
  split
  next h =>
    obtain rfl := zero h
    rw [h, zero_mul, zero_add, signCode_zero, withSign_eq sign]
    simp
  next h =>
    rw [signCode_of_ne (fun _ _ => by omega), withSign_eq sign, add_sub_cancel_left, Int.toNat_natCast]

theorem encodeFloat_overflows (hf : f.Wf) {r : Nat × Bool} (hq : quantum f m e = f.emin + topPlace f)
    (rounded : roundTo f.p f.emin mode neg m e (f.emin + topPlace f) = r) (beyond : overflows f mode m e (f.emin + topPlace f) r = true)
    (normal : tiny f mode neg m e = false) : encodeFloat f mode (.fin neg m e) = Claims.overflowed f mode neg := by
  have flags : roundFlags r.2 false ||| flagOF ||| flagNX = 5 := by cases r.2 <;> decide
  rw [encodeFloat_fin hm]
  simp only [hq, rounded, beyond, normal, flags, if_neg (sign_not_refused sign r.1), if_true]
  rw [withSign_eq sign]
  unfold Claims.overflowed
  cases hi : f.inf with
  | none => simp only [signCode_of_ne fun _ _ => hf.max_ne_zero]
  | some i =>
    simp only [signCode_of_ne fun _ _ => hf.far_ne_zero hi _]
    cases mode <;> rfl

end

end Sys2Proof.Machine
end

section
/-! Rounding to a number format and to an integer (R25 to R31, R36 to R38, R278, R282). -/

namespace Sys2Proof.Machine

/-! ## A finite value in a format: the clauses of `Claims.Rounded` -/

/-- The mode's choice between two counts is the choice between their codes. -/
theorem RoundsUp.goesUp {f : FloatFmt} {c j n : Nat} (place : Place f c j n) {mode : Mode} {neg up : Bool} {d u : ℚ}
    (h : f.p = 1 ∧ mode = .ne ∧ d = u ∨ (up = true ↔ RoundsUp mode neg n d u)) : Claims.GoesUp f mode neg c d u up := by
  rcases h with ⟨hp, rfl, rfl⟩ | h
  · exact ⟨fun h => absurd h (lt_irrefl _), fun h => absurd h (lt_irrefl _), fun _ h => absurd hp h.ne'⟩
  cases mode with
  | ne =>
    refine ⟨fun less => ?_, fun more => h.mpr (.inl more), fun tie hp => ?_⟩
    · rw [← Bool.not_eq_true, h]
      rintro (more | ⟨tie, -⟩)
      · exact lt_asymm less more
      · exact less.ne tie
    · have parity : c % 2 = n % 2 := by
        obtain ⟨k, hk⟩ : ∃ k, f.p - 1 = k + 1 := Nat.exists_eq_succ_of_ne_zero (by omega)
        rw [place.code, hk, pow_succ, ← mul_assoc, Nat.mul_add_mod']
      rw [h, parity]
      simp [RoundsUp, tie]
  | tz | rz => exact Bool.eq_false_iff.mpr fun e => h.mp e
  | dn => exact Bool.eq_iff_iff.mpr h
  | up => exact Bool.eq_iff_iff.mpr (h.trans (by cases neg <;> simp [RoundsUp]))
  | away | sr => exact h

section
variable {f : FloatFmt} {mode : Mode} {neg : Bool} {m : Nat} {e : Int} (hf : f.Wf) (hm : m ≠ 0) (sign : neg = true → f.sgn = true)
include hf hm sign

theorem encodeFloat_exact {c : Nat} (hc : c ≤ f.max) (value : Claims.magnitude f c = m * 2 ^ e) :
    encodeFloat f mode (.fin neg m e) = (Claims.signCode f neg c, 0) := by
  obtain ⟨j, n, place⟩ := exists_place f c
  have hq : (0 : ℚ) < 2 ^ (f.emin + (j : Int)) := zpow_pos two_pos _
  rw [place.magnitude] at value
  have next : (m : ℚ) * 2 ^ e < (n + 1) * 2 ^ (f.emin + (j : Int)) := by rw [← value]; exact mul_lt_mul_of_pos_right (lt_add_one _) hq
  have fits : overflows f mode m e (f.emin + j) (n, false) = false := by
    refine overflows_false hf (fun top => ?_) (fun _ h => nomatch h)
    obtain rfl : j = topPlace f := by omega
    exact place.count_le_top hf hc
  have nonzero : n ≠ 0 := by
    rintro rfl
    have : (m : ℚ) * 2 ^ e ≠ 0 := by positivity
    exact this (by rw [← value, Nat.cast_zero, zero_mul])
  rw [encodeFloat_counted hm sign (quantum_between hf hm place hc value.le next) (roundTo_exact value f.p f.emin mode neg) fits
    fun h => absurd h nonzero, ← place.code, roundFlags_exact]

theorem encodeFloat_between (grain : ∀ g, mode = .sr g → g < 2 ^ 16) {c : Nat} (hc : c + 1 ≤ f.max) (lo : Claims.magnitude f c < m * 2 ^ e)
    (hi : m * 2 ^ e < Claims.magnitude f (c + 1)) :
    ∃ up : Bool, Claims.GoesUp f mode neg c (m * 2 ^ e - Claims.magnitude f c) (Claims.magnitude f (c + 1) - m * 2 ^ e) up ∧
      encodeFloat f mode (.fin neg m e) = (Claims.signCode f neg (if up then c + 1 else c), roundFlags true (tiny f mode neg m e)) := by
  obtain ⟨j, n, place⟩ := exists_place f c
  rw [place.magnitude] at lo
  rw [place.magnitude_succ] at hi
  rw [place.magnitude, place.magnitude_succ]
  obtain ⟨up, rounds, rounded⟩ := roundTo_between lo hi f.p f.emin neg grain
  refine ⟨up, RoundsUp.goesUp place rounds, ?_⟩
  have fits : overflows f mode m e (f.emin + j) (if up then n + 1 else n, true) = false := by
    have count (top : f.emin + (j : Int) = f.emin + topPlace f) : n + 1 ≤ topCount f := by
      obtain rfl : j = topPlace f := by omega
      have := place.code
      have := max_eq hf
      omega
    refine overflows_false hf (fun top => ?_) fun top _ => ?_
    · have := count top
      cases up
      · exact (Nat.le_succ n).trans this
      · exact this
    · have below : (m : ℚ) * 2 ^ e < topCount f * 2 ^ (f.emin + (j : Int)) :=
        hi.trans_le (mul_le_mul_of_nonneg_right (by exact_mod_cast count top) (zpow_pos two_pos _).le)
      have : (0 : ℚ) < 2 ^ (f.emin + (j : Int)) := zpow_pos two_pos _
      linarith
  have zero : (if up then n + 1 else n) = 0 → j = 0 := fun h => by
    have : 0 < 2 ^ (f.p - 1) := by positivity
    have := place.normal
    split at h <;> omega
  rw [encodeFloat_counted hm sign (quantum_between hf hm place (by omega) lo.le hi) rounded fits zero, place.code]
  cases up <;> rfl

theorem encodeFloat_beyond (grain : ∀ g, mode = .sr g → g < 2 ^ 16) (far : Claims.magnitude f f.max + Claims.topUlp f ≤ m * 2 ^ e) :
    encodeFloat f mode (.fin neg m e) = Claims.overflowed f mode neg := by
  have ulp : 0 < Claims.topUlp f := zpow_pos two_pos _
  have top : Claims.magnitude f f.max ≤ m * 2 ^ e := by linarith
  have normal := not_tiny_of_top hf hm mode neg top
  rw [(max_place hf).magnitude] at top far
  rw [topUlp_eq hf, ← add_one_mul] at far
  have count := le_roundTo (n := topCount f + 1) (by exact_mod_cast far) f.p f.emin neg grain
  refine encodeFloat_overflows hm sign hf (quantum_top hf hm top) rfl ?_ normal
  rw [overflows_eq hf, decide_eq_true rfl, decide_eq_true (Nat.lt_of_succ_le count)]
  rfl

/-- Between the largest finite value and the next count: an overflow if the mode goes up, or from half an ulp. -/
theorem encodeFloat_past_max (grain : ∀ g, mode = .sr g → g < 2 ^ 16) (lo : Claims.magnitude f f.max < m * 2 ^ e)
    (hi : m * 2 ^ e < Claims.magnitude f f.max + Claims.topUlp f) :
    ∃ up : Bool, (f.p = 1 ∧ mode = .ne ∧ m * 2 ^ e - Claims.magnitude f f.max = Claims.magnitude f f.max + Claims.topUlp f - m * 2 ^ e ∨
        (up = true ↔ RoundsUp mode neg (topCount f) (m * 2 ^ e - Claims.magnitude f f.max)
          (Claims.magnitude f f.max + Claims.topUlp f - m * 2 ^ e))) ∧
      encodeFloat f mode (.fin neg m e) = if up || overTop f mode m e (f.emin + topPlace f) (topCount f, true)
        then Claims.overflowed f mode neg else (Claims.signCode f neg f.max, 1) := by
  have normal := not_tiny_of_top hf hm mode neg lo.le
  rw [(max_place hf).magnitude] at lo hi ⊢
  rw [topUlp_eq hf, ← add_one_mul] at hi ⊢
  obtain ⟨up, rounds, rounded⟩ := roundTo_between lo hi f.p f.emin neg grain
  have hq := quantum_top hf hm lo.le
  have beyond : overflows f mode m e (f.emin + topPlace f) (if up then topCount f + 1 else topCount f, true) =
      (up || overTop f mode m e (f.emin + topPlace f) (topCount f, true)) := by
    rw [overflows_eq hf, decide_eq_true rfl, Bool.true_and]
    cases up <;> simp
  refine ⟨up, rounds, ?_⟩
  split
  next h => exact encodeFloat_overflows hm sign hf hq rounded (beyond.trans h) normal
  next h =>
    rw [Bool.not_eq_true] at h
    obtain rfl : up = false := (Bool.or_eq_false_iff.mp h).1
    rw [if_neg Bool.false_ne_true] at rounded beyond
    rw [encodeFloat_counted hm sign hq rounded (beyond.trans h) fun h => absurd h (topCount_pos f).ne', normal, ← max_eq hf, roundFlags_inexact]
    rfl

theorem encodeFloat_nearest_past_max (lo : Claims.magnitude f f.max < m * 2 ^ e) : encodeFloat f .ne (.fin neg m e) =
    if Claims.magnitude f f.max + Claims.topUlp f / 2 ≤ m * 2 ^ e then Claims.overflowed f .ne neg else (Claims.signCode f neg f.max, 1) := by
  have grain : ∀ g, Mode.ne = .sr g → g < 2 ^ 16 := fun _ h => nomatch h
  have ulp : 0 < Claims.topUlp f := zpow_pos two_pos _
  rcases le_or_gt (Claims.magnitude f f.max + Claims.topUlp f) (m * 2 ^ e) with far | near
  · rw [encodeFloat_beyond hf hm sign grain far, if_pos (by linarith)]
  obtain ⟨up, rounds, encoded⟩ := encodeFloat_past_max hf hm sign grain lo near
  rw [encoded]
  refine if_congr (Bool.or_eq_true_iff.trans ⟨?_, fun half => ?_⟩) rfl rfl
  · rintro (up | beyond)
    · rcases rounds with ⟨-, -, tie⟩ | rounds
      · linarith
      · rcases rounds.mp up with more | ⟨tie, -⟩ <;> linarith
    · obtain ⟨-, -, far⟩ := overTop_half beyond
      rw [(max_place hf).magnitude, topUlp_eq hf]
      linarith
  · rcases (show Claims.magnitude f f.max + Claims.topUlp f - m * 2 ^ e ≤ m * 2 ^ e - Claims.magnitude f f.max by linarith).lt_or_eq with more | tie
    · exact .inl ((rounds.resolve_left fun free => more.ne' free.2.2).mpr (.inl more))
    · rw [(max_place hf).magnitude] at lo near tie
      rw [topUlp_eq hf, ← add_one_mul] at near tie
      obtain ⟨s, r, finer, -⟩ := between_split lo near
      exact .inr (overTop_tie (by omega) tie.symm)

theorem encodeFloat_grain_past_max {g : Nat} (hg : g < 2 ^ 16) (lo : Claims.magnitude f f.max < m * 2 ^ e)
    (hi : m * 2 ^ e < Claims.magnitude f f.max + Claims.topUlp f) : encodeFloat f (.sr g) (.fin neg m e) =
    if 2 ^ 16 ≤ ⌊(m * 2 ^ e - Claims.magnitude f f.max) * 2 ^ 16 / Claims.topUlp f⌋ + (g : Int)
      then Claims.overflowed f (.sr g) neg else (Claims.signCode f neg f.max, 1) := by
  have grain : ∀ k, Mode.sr g = .sr k → k < 2 ^ 16 := fun _ h => by cases h; exact hg
  obtain ⟨up, rounds, encoded⟩ := encodeFloat_past_max hf hm sign grain lo hi
  have rounds := rounds.resolve_left fun h => nomatch h.2.1
  rw [RoundsUp, sub_add_sub_comm, add_comm (m * 2 ^ e : ℚ), add_sub_add_right_eq_sub, add_sub_cancel_left] at rounds
  rw [encoded]
  exact if_congr (by rw [← rounds]; exact Bool.or_eq_true_iff.trans (or_iff_left Bool.false_ne_true)) rfl rfl

/-- A finite value of a sign that the format has is rounded as R26, R31, R36, R38 and R278 say. -/
theorem encodeFloat_rounded (grain : ∀ g, mode = .sr g → g < 2 ^ 16) :
    Claims.Rounded f mode neg (m * 2 ^ e) (encodeFloat f mode (.fin neg m e)) := by
  refine ⟨fun c hc value => encodeFloat_exact hf hm sign hc value, fun c hc lo hi => ?_, encodeFloat_beyond hf hm sign grain, ?_, ?_⟩
  · obtain ⟨up, goes, encoded⟩ := encodeFloat_between hf hm sign grain hc lo hi
    rw [encoded, roundFlags_inexact]
    refine ⟨up, goes, rfl, by cases tiny f mode neg m e <;> simp, fun subnormal => ?_, fun normal => ?_⟩
    · have value := magnitude_count f (j := 0) (.inl rfl) (show c + 1 ≤ 2 * 2 ^ (f.p - 1) by omega)
      rw [zero_mul, zero_add, Nat.cast_zero, add_zero] at value
      rw [tiny_of_subnormal hm grain subnormal (hi.trans_eq value)]
      rfl
    · obtain ⟨j, n, place⟩ := exists_place f c
      have leading : 2 ^ (f.p - 1) ≤ n := by
        rcases place.normal with rfl | h
        · have := place.code; omega
        · exact h
      rw [not_tiny_of_normal hm mode neg leading (by omega) (place.magnitude ▸ lo.le)]
      rfl
  · rintro rfl past
    exact encodeFloat_nearest_past_max hf hm sign past
  · rintro g rfl lo hi
    exact encodeFloat_grain_past_max hf hm sign (grain g rfl) lo hi

end

/-! ## Zeros and infinities, and a negative value in an unsigned format -/

section
variable {f : FloatFmt} {mode : Mode} {neg : Bool}

theorem encodeFloat_zero (sign : neg = true → f.sgn = true) (e : Int) : encodeFloat f mode (.fin neg 0 e) = (Claims.signCode f neg 0, 0) := by
  have unfolded : encodeFloat f mode (.fin neg 0 e) = (if f.q8 then 0 else withSign f neg 0, 0) := rfl
  rw [unfolded, signCode_zero, withSign_eq sign]
  simp only [add_zero]

/-- An infinity in a format that has a sign for it. -/
theorem encodeFloat_inf (sign : neg = true → f.sgn = true) : encodeFloat f mode (.inf neg) =
    f.inf.elim (withSign f neg f.max, 5) fun i => (withSign f neg i, 0) := by
  refine (if_neg (by simpa using sign)).trans ?_
  cases f.inf <;> rfl

theorem encodeFloat_inf_some (hf : f.Wf) (sign : neg = true → f.sgn = true) {i : Nat} (hi : f.inf = some i) :
    encodeFloat f mode (.inf neg) = (Claims.signCode f neg i, 0) := by
  rw [encodeFloat_inf sign, hi, Option.elim_some, withSign_eq sign, signCode_of_ne fun _ _ => hf.inf_ne_zero hi]

theorem encodeFloat_inf_none (hf : f.Wf) (sign : neg = true → f.sgn = true) (hi : f.inf = none) :
    encodeFloat f mode (.inf neg) = (Claims.signCode f neg f.max, 5) := by
  rw [encodeFloat_inf sign, hi, Option.elim_none, withSign_eq sign, signCode_of_ne fun _ _ => hf.max_ne_zero]

/-- A negative value that does not round to 0 is NaN in an unsigned format. -/
theorem encodeFloat_unsigned (hf : f.Wf) (unsigned : f.sgn = false) (signless : mode = .ne ∨ mode = .tz ∨ ∃ g, mode = .sr g) {m : Nat}
    (hm : m ≠ 0) (e : Int) : encodeFloat f mode (.fin true m e) =
      if (encodeFloat f mode (.fin false m e)).1 = 0 then encodeFloat f mode (.fin false m e) else (f.nan, 16) := by
  have count (q : Int) : roundTo f.p f.emin mode true m e q = roundTo f.p f.emin mode false m e q := by
    rcases signless with rfl | rfl | ⟨g, rfl⟩ <;> rfl
  have small : tiny f mode true m e = tiny f mode false m e := by simp only [tiny, count]
  have code (neg : Bool) (c : Nat) : withSign f neg c = c := by rw [withSign, unsigned]; rfl
  rw [encodeFloat_fin hm, encodeFloat_fin hm]
  simp only [count, small, code, unsigned, hf.unsigned_q8 unsigned, Bool.not_false, Bool.and_true, Bool.true_and, Bool.false_and,
    decide_eq_true_eq, if_true, Bool.false_eq_true, if_false]
  generalize roundTo f.p f.emin mode false m e (quantum f m e) = r
  obtain ⟨n, inexact⟩ := r
  by_cases hn : n = 0
  · subst hn
    simp only [overflows_zero, if_true, Bool.false_eq_true, if_false, ne_eq, not_true_eq_false]
  · rw [if_pos hn, if_neg]
    · rfl
    split
    · cases hi : f.inf with
      | none => exact hf.max_ne_zero
      | some i => exact hf.far_ne_zero hi _
    · exact fun h => hn (Nat.eq_zero_of_add_eq_zero_left h)

end

/-! ## A value rounded to an integer -/

/-- y is the value X rounded to an integer under a mode, which has no grain (R36, R282). -/
def IntRounded (mode : Mode) (X : ℚ) (y : Int) : Prop :=
  match mode with
  | .ne => |X - y| < 1 / 2 ∨ (|X - y| = 1 / 2 ∧ y % 2 = 0)
  | .tz | .rz => |(y : ℚ)| ≤ |X| ∧ |X - y| < 1 ∧ 0 ≤ X * y
  | .dn => y = ⌊X⌋
  | .up => y = ⌈X⌉
  | .away => |X - y| < 1 / 2 ∨ (|X - y| = 1 / 2 ∧ |X| < |(y : ℚ)|)
  | .sr _ => False

theorem IntRounded.near {mode : Mode} {X : ℚ} {y : Int} (h : IntRounded mode X y) : |X - y| < 1 := by
  cases mode with
  | ne | away => rcases h with h | ⟨h, -⟩ <;> linarith
  | tz | rz => exact h.2.1
  | dn =>
    obtain rfl : y = ⌊X⌋ := h
    rw [abs_lt]
    constructor <;> linarith [Int.floor_le X, Int.lt_floor_add_one X]
  | up =>
    obtain rfl : y = ⌈X⌉ := h
    rw [abs_lt]
    constructor <;> linarith [Int.le_ceil X, Int.ceil_lt_add_one X]
  | sr => exact h.elim

/-- A magnitude with a sign. -/
def signedInt (neg : Bool) (n : Nat) : Int := if neg then -n else n

theorem neg_signedInt (neg : Bool) (n : Nat) : -signedInt neg n = signedInt (! neg) n := by cases neg <;> simp [signedInt]

section
variable {mode : Mode} {neg : Bool} {a : ℚ} {n : Nat}

/-- Rounding down goes to the upper magnitude just for a negative value. -/
theorem up_iff_of_floor (lo : (n : ℚ) < a) (hi : a < n + 1) {up : Bool}
    (h : signedInt neg (if up then n + 1 else n) = ⌊(if neg then -1 else 1) * a⌋) : up = true ↔ neg = true := by
  cases neg
  · have floor : ⌊a⌋ = n := Int.floor_eq_iff.mpr ⟨by exact_mod_cast lo.le, by exact_mod_cast hi⟩
    simp only [Bool.false_eq_true, if_false, one_mul, floor, signedInt] at h
    cases up <;> simp at h ⊢
  · have floor : ⌊-a⌋ = -(n + 1 : Int) := Int.floor_eq_iff.mpr ⟨by push_cast; linarith, by push_cast; linarith⟩
    simp only [if_true, neg_one_mul, floor, signedInt] at h
    cases up
    · simp at h
    · rfl

theorem IntRounded.exact {y : Int} (h : IntRounded mode ((if neg then -1 else 1) * n) y) : y = signedInt neg n := by
  have value : (if neg then -1 else 1) * (n : ℚ) = signedInt neg n := by cases neg <;> simp [signedInt]
  have near := h.near
  rw [value, abs_lt] at near
  norm_cast at near
  omega

/-- Between two integers the rounded one is the upper magnitude just when the mode goes up. -/
theorem IntRounded.up_iff (lo : (n : ℚ) < a) (hi : a < n + 1) {up : Bool}
    (h : IntRounded mode ((if neg then -1 else 1) * a) (signedInt neg (if up then n + 1 else n))) :
    up = true ↔ RoundsUp mode neg n (a - n) (n + 1 - a) := by
  have pos : 0 < a := lo.trans_le' (Nat.cast_nonneg n)
  have distance (k : Nat) : |(if neg then -1 else 1) * a - (signedInt neg k : ℚ)| = |a - k| := by
    cases neg
    · simp [signedInt]
    · rw [abs_sub_comm]; simp [signedInt, neg_add_eq_sub]
  have size (k : Nat) : |(signedInt neg k : ℚ)| = k := by cases neg <;> simp [signedInt]
  have size_value : |(if neg then -1 else 1) * a| = a := by cases neg <;> simp [abs_of_pos pos]
  have even (k : Nat) : signedInt neg k % 2 = 0 ↔ k % 2 = 0 := by cases neg <;> simp only [signedInt, Bool.false_eq_true, if_true, if_false] <;> omega
  have below : |a - n| = a - n := abs_of_pos (by linarith)
  have above : |a - (n + 1 : Nat)| = n + 1 - a := by rw [abs_sub_comm, Nat.cast_succ]; exact abs_of_pos (by linarith)
  cases mode with
  | ne =>
    simp only [IntRounded, distance, even] at h
    simp only [RoundsUp]
    cases up
    · simp only [Bool.false_eq_true, if_false, below] at h
      refine iff_of_false Bool.false_ne_true ?_
      rintro (more | ⟨tie, odd⟩)
      · rcases h with h | ⟨h, -⟩ <;> linarith
      · rcases h with h | ⟨-, h⟩
        · linarith
        · omega
    · simp only [if_true, above] at h
      refine iff_of_true rfl ?_
      rcases h with h | ⟨h, even⟩
      · exact .inl (by linarith)
      · exact .inr ⟨by linarith, by omega⟩
  | tz | rz =>
    simp only [IntRounded, size, size_value] at h
    cases up
    · simp [RoundsUp]
    · rw [if_pos rfl, Nat.cast_succ] at h
      exact absurd h.1 (not_le.mpr hi)
  | dn => exact up_iff_of_floor lo hi h
  | up =>
    have floor : signedInt (! neg) (if up then n + 1 else n) = ⌊(if (! neg) then -1 else 1) * a⌋ := by
      rw [← neg_signedInt, show _ = _ from h, ← Int.floor_neg, ← neg_mul]
      cases neg <;> simp
    exact (up_iff_of_floor lo hi floor).trans (by cases neg <;> simp [RoundsUp])
  | away =>
    simp only [IntRounded, distance, size, size_value] at h
    simp only [RoundsUp]
    cases up
    · simp only [Bool.false_eq_true, if_false, below] at h
      refine iff_of_false Bool.false_ne_true fun more => ?_
      rcases h with h | ⟨-, h⟩ <;> linarith
    · simp only [if_true, above] at h
      refine iff_of_true rfl ?_
      rcases h with h | ⟨h, -⟩ <;> linarith
  | sr => exact h.elim

theorem IntRounded.between (lo : (n : ℚ) < a) (hi : a < n + 1) {y : Int} (h : IntRounded mode ((if neg then -1 else 1) * a) y) :
    ∃ up : Bool, y = signedInt neg (if up then n + 1 else n) ∧ (up = true ↔ RoundsUp mode neg n (a - n) (n + 1 - a)) := by
  have near := h.near
  rw [abs_lt] at near
  obtain ⟨up, rfl⟩ : ∃ up : Bool, y = signedInt neg (if up then n + 1 else n) := by
    have two : y = signedInt neg n ∨ y = signedInt neg (n + 1) := by
      obtain ⟨below, above⟩ := near
      cases neg <;> simp only [Bool.false_eq_true, if_false, if_true, signedInt] at below above ⊢
      · have low : (n : ℚ) < y + 1 := by linarith
        have high : (y : ℚ) < n + 2 := by linarith
        norm_cast at low high
        omega
      · have low : -(n : ℚ) - 2 < y := by linarith
        have high : (y : ℚ) + n < 1 := by linarith
        norm_cast at low high
        omega
    rcases two with h | h
    · exact ⟨false, h⟩
    · exact ⟨true, h⟩
  exact ⟨up, rfl, h.up_iff lo hi⟩

end

theorem intRange_eq (w : Nat) (sg : Bool) :
    intRange w sg = (if sg then -(2 ^ (w - 1)) else 0, if sg then 2 ^ (w - 1) - 1 else 2 ^ w - 1) := by cases sg <;> simp [intRange]

theorem encodeInt_inf (w : Nat) (sg : Bool) (mode : Mode) (neg : Bool) :
    encodeInt w sg mode (.inf neg) = (if neg then (intRange w sg).1 else (intRange w sg).2, 16) := rfl

theorem encodeInt_fin (w : Nat) (sg : Bool) {mode : Mode} {neg : Bool} {m : Nat} {e : Int} {n : Nat} {inexact : Bool}
    (rounded : roundAt mode neg m e 0 = (n, inexact)) : encodeInt w sg mode (.fin neg m e) =
      if signedInt neg n < (intRange w sg).1 then ((intRange w sg).1, 16)
      else if (intRange w sg).2 < signedInt neg n then ((intRange w sg).2, 16) else (signedInt neg n, flagIf inexact 1) := by
  simp only [encodeInt, rounded]
  rfl

/-- A finite value is written as the integer it rounds to, if that is in the range. -/
theorem encodeInt_rounded (w : Nat) (sg : Bool) {mode : Mode} {neg : Bool} {m : Nat} {e : Int} {y : Int}
    (h : IntRounded mode ((if neg then -1 else 1) * (m * 2 ^ e)) y) : encodeInt w sg mode (.fin neg m e) =
      if y < (intRange w sg).1 then ((intRange w sg).1, 16) else if (intRange w sg).2 < y then ((intRange w sg).2, 16)
      else (y, if (y : ℚ) = (if neg then -1 else 1) * (m * 2 ^ e) then 0 else 1) := by
  have grain : ∀ g, mode = .sr g → g < 2 ^ 16 := fun g hg => by subst hg; exact h.elim
  have unit (x : ℚ) : x * 2 ^ (0 : Int) = x := by rw [zpow_zero, mul_one]
  obtain ⟨n, lo, hi⟩ := exists_count m e 0
  have value (k : Nat) : (signedInt neg k : ℚ) = (if neg then -1 else 1) * (m * 2 ^ e) ↔ (k : ℚ) = m * 2 ^ e := by
    cases neg <;> simp [signedInt]
  rcases lo.eq_or_lt with whole | lo
  · have rounded := roundAt_exact whole mode neg
    rw [unit] at whole
    obtain rfl : y = signedInt neg n := (whole ▸ h).exact
    rw [encodeInt_fin w sg rounded, if_pos ((value n).mpr whole)]
    rfl
  · obtain ⟨up, goes, rounded⟩ := roundAt_between lo hi neg grain
    rw [unit, unit] at goes
    rw [unit] at lo hi
    obtain ⟨up', rfl, goes'⟩ := h.between lo hi
    obtain rfl : up' = up := Bool.eq_iff_iff.mpr (goes'.trans goes.symm)
    have inexact : (((if up' then n + 1 else n : Nat)) : ℚ) ≠ m * 2 ^ e := by
      cases up'
      · exact lo.ne
      · exact fun same => absurd hi (not_lt.mpr (by rw [← same]; simp))
    rw [encodeInt_fin w sg rounded, if_neg (mt (value _).mp inexact)]
    rfl

/-! ## The obligation -/

/-- The formats of Tables 2.1 and 2.2, and of R29 and R30. -/
theorem formatFigures : Claims.FormatFigures := by
  refine ⟨rfl, rfl, rfl, rfl, fun k => ?_⟩
  obtain ⟨signed, signedExt, unsigned, unsignedExt⟩ := elemOf_q8 k
  refine ⟨signed, signedExt, unsigned, unsignedExt, ?_, ?_, ?_, ?_⟩
  · rw [← fmtQ8_emin_signed k false]; rfl
  · rw [← fmtQ8_emin_signed k true]; rfl
  · rw [← fmtQ8_emin_unsigned k false]; rfl
  · rw [← fmtQ8_emin_unsigned k true]; rfl

/-- Settles O2: a format's figures (`formatFigures`), the value of its codes (`decodeFloat_signCode`, `decodeMag_value`), zeros and
infinities, finite values (`encodeFloat_rounded`, `encodeFloat_unsigned`), and integers (`encodeInt_rounded`). -/
theorem rounding : Obligations.Rounding := by
  unfold Obligations.Rounding
  intro t f mode neg m e
  refine ⟨formatFigures, fun ht => ?_, fun w sg _ => ?_⟩
  · have hf := wf_of_elemOf ht
    refine ⟨fun c hc sign zero => ?_, fun sign => encodeFloat_zero sign e, fun sign => ?_, fun q => ?_, fun hm grain => ⟨fun sign => ?_, fun unsigned signless => ?_⟩⟩
    · rw [decodeFloat_signCode hf hc sign zero]
      exact decodeMag_value f neg c
    · cases hi : f.inf with
      | none => exact encodeFloat_inf_none hf sign hi
      | some i => exact encodeFloat_inf_some hf sign hi
    · rfl
    · exact encodeFloat_rounded hf hm.ne' sign grain
    · exact encodeFloat_unsigned hf unsigned signless hm.ne' e
  · have range := intRange_eq w sg
    refine ⟨fun q => rfl, ?_, fun y hy => ?_⟩
    · rw [encodeInt_inf, range]
    · rw [encodeInt_rounded w sg hy, range]

end Sys2Proof.Machine
end

section
/-! Taking a trap, and returning from one (R56, R57, R350). -/

namespace Sys2Proof.Machine

/-! ## A context's end -/

/-- A value other than the default reads back where it was written, whatever the table's form. -/
theorem sget_sset_of_ne {β : Type} [DecidableEq β] {d v : β} (hv : v ≠ d) (t : List (Nat × β)) (k : Nat) : sget d (sset d t k v) k = v := by
  induction t with
  | nil => simp [sset, hv, sget]
  | cons e t ih =>
    obtain ⟨a, b⟩ := e
    simp only [sset, hv, if_false]
    split
    · simp [sget]
    · split
      · simp [sget]
      · next h => simp [sget, Ne.symm h, ih]

theorem ctxState_congr {s t : State} (h : t.lp.active = s.lp.active) (ctx : BitVec 12) : ctxState t ctx = ctxState s ctx := by
  rw [ctxState, h, ctxState]

/-- The launch processor holds the STATE that it has written, but FREE. -/
theorem ctxState_setCtxState (s : State) (ctx : BitVec 12) {st : Nat} (h : st % 16 ≠ 0) : ctxState (setCtxState s ctx st) ctx = st % 16 := by
  have ne : BitVec.ofNat 4 st ≠ 0 := fun e => h (by simpa using congrArg BitVec.toNat e)
  show (sget 0 (sset 0 _ ctx.toNat (BitVec.ofNat 4 st)) ctx.toNat).toNat = _
  rw [sget_sset_of_ne ne, BitVec.toNat_ofNat]

/-- A context that has ended is DEAD (R48). -/
theorem ctxState_contextDead (s : State) (ctx : BitVec 12) (reason : BitVec 8) (value addr : Word) :
    ctxState (contextDead s ctx reason value addr) ctx = 6 := by
  by_cases h : ctxState s ctx = 6
  · rw [contextDead, if_pos h, h]
  · rw [ctxState_congr (contextDead_leaves h reason value addr).active]
    exact ctxState_setCtxState s ctx (by decide)

/-! ## Taking a trap -/

/-- CODE, PM and V lie in bits of their own. -/
theorem causeWord_eq (cause : BitVec 8) (priv held : Bool) :
    causeWord cause priv held = cause.zeroExtend 10 ||| (if priv then 0x100 else 0) ||| (if held then 0x200 else 0) := by
  have low : cause.toNat < 2 ^ 8 := cause.isLt
  have or256 : cause.toNat ||| 256 = cause.toNat + 256 := by
    rw [Nat.or_comm, ← Nat.two_pow_add_eq_or_of_lt low 1]; omega
  have or512 {k : Nat} (h : k < 2 ^ 9) : k ||| 512 = k + 512 := by
    rw [Nat.or_comm, ← Nat.two_pow_add_eq_or_of_lt h 1]; omega
  have wide : cause.toNat % 1024 = cause.toNat := Nat.mod_eq_of_lt (by omega)
  apply BitVec.eq_of_toNat_eq
  cases priv <;> cases held <;> simp [causeWord, wide]
  · rw [or512 (by omega)]; omega
  · rw [or256]; omega
  · rw [or256, or512 (by omega)]; omega

/-- V shows whether the hold buffer is occupied. -/
theorem causeWord_user (cause : BitVec 8) (hold : List VEntry) :
    causeWord cause false (! hold.isEmpty) = cause.zeroExtend 10 ||| (if hold = [] then 0 else 0x200) := by
  rw [causeWord_eq]
  cases hold <;> simp

theorem causeWord_nested (cause : BitVec 8) (hold : List VEntry) :
    causeWord cause true (! hold.isEmpty) = cause.zeroExtend 10 ||| 0x100 ||| (if hold = [] then 0 else 0x200) := by
  rw [causeWord_eq]
  cases hold <;> simp

/-- TrapEntry in privileged mode with an empty VIQ (R57). -/
theorem enterTrap_nested {cause : BitVec 8} {val : Word} {tpc : VAddr} {resume : Word} {s : State} (h : s.st.priv = true) (hq : s.st.viq = []) :
    enterTrap cause val tpc resume s = { forgetWaits s.cur.val s with st := { s.st with
      viq := []
      park := 0
      wait := .none
      passed := 0
      qerr := none
      slotWoke := none
      dogFrom := if s.st.park ≠ 0 then s.cycle else s.st.dogFrom
      await := 0
      trap := { s.st.trap with tcause := causeWord cause true (! s.st.hold.isEmpty), tval := val, tpc := vaWord tpc }
      pc := vaOf s.st.trap.tvec } } := by
  unfold enterTrap
  simp only [h, hq, ne_eq, not_true_eq_false, and_false, if_false, if_true]
  rw [← h]
  rfl

/-- A trap in privileged mode with entries in the VIQ is a double trap, which ends the context (R57). -/
theorem enterTrap_double {cause : BitVec 8} {val : Word} {tpc : VAddr} {resume : Word} {s : State} (h : s.st.priv = true) (hq : s.st.viq ≠ []) :
    ctxState (enterTrap cause val tpc resume s) s.st.ctx = 6 := by
  unfold enterTrap
  dsimp only
  rw [if_pos ⟨h, hq⟩]
  exact ctxState_contextDead _ _ _ _ _

theorem trapEntry : Claims.TrapEntry := by
  intro s cause v resume tpc lines
  refine ⟨fun h => ?_, fun h hq => ?_, enterTrap_double⟩
  · rw [enterTrap_user h, causeWord_user]
    rfl
  · rw [enterTrap_nested h hq, causeWord_nested]
    rfl

/-! ## TRAPI and SYSRET -/

theorem exec_trapi (k : BitVec 8) (s : State) : exec (.trapi k) s = execTrapi k s := by rfl
theorem exec_sysret (s : State) : exec .sysret s = execSysret s := by rfl

theorem strandGone_self (s : State) : strandGone s s = false := by simp [strandGone]

/-- An instruction that waits for the whole VIQ (R55). -/
theorem finish_drain {s : State} (r : Except Stop Unit × State) (h : r = (.error (.drain s.st.viq.length), s)) :
    finish s r = .next { s with st := { s.st with await := s.st.viq.length } } := by
  rw [h, finish, if_neg (by simp [strandGone_self]), stopFrom]

/-- A privileged form goes on in privileged mode. -/
theorem on_privileged {i : Instr} {s : State} (h : s.st.priv = true) : Act.on (privileged i) s = (.ok (), s) := by
  unfold privileged
  rw [on_bind, on_get]
  simp [h]

theorem on_drained_nil {s : State} (h : s.st.viq = []) : Act.on drained s = (.ok (), s) := by rw [on_drained, if_pos h]
theorem on_drained_ne {s : State} (h : s.st.viq ≠ []) : Act.on drained s = (.error (.drain s.st.viq.length), s) := by rw [on_drained, if_neg h]

/-- The hold buffer returns to an empty VIQ, with its resume index where it holds entries (R350). -/
theorem leaveTrap_eq {s : State} (h : s.st.viq = []) : leaveTrap s = { s with st := { s.st with
      viq := s.st.hold
      hold := []
      holdAt := 0
      dogRan := 0
      dogFrom := s.cycle
      priv := s.st.trap.tcause.getLsbD 8
      pc := s.st.trap.tpc.truncate 48
      csr := { s.st.csr with vstart := if s.st.hold = [] then s.st.csr.vstart else s.st.holdAt, retired := s.st.csr.retired + 1 } } } := by
  unfold leaveTrap
  by_cases hh : s.st.hold = [] <;> simp [hh, h, vaOf]

theorem trapiSysret : Claims.TrapiSysret := by
  intro s k
  rw [exec_trapi, exec_sysret]
  unfold execTrapi execSysret
  refine ⟨fun hq => ?_, fun hq => finish_drain _ (on_bind_error (on_drained_ne hq)), fun hp hq => ?_, fun hp hq he => ?_, fun hp hq ho => ?_⟩
  · rw [on_bind_ok (on_drained_nil hq)]
    rfl
  · refine finish_drain _ ?_
    rw [on_bind_ok (on_privileged hp), on_bind_error (on_drained_ne hq)]
  · rw [on_bind_ok (on_privileged hp), on_bind_ok (on_drained_nil hq), on_bind_ok (on_get s), he, ← leaveTrap_eq hq]
    rfl
  · rw [on_bind_ok (on_privileged hp), on_bind_ok (on_drained_nil hq), on_bind_ok (on_get s), ho]
    simp only [if_true]
    rw [on_bind_error (on_trap _ _ _)]
    simp [finish, strandGone_self, stopFrom, trapFrom, scalarTrap, hq]

/-- Settles O14: taking a trap, by the mode and the VIQ (`trapEntry`), and TRAPI and SYSRET (`trapiSysret`). -/
theorem trapsAndReturns : Obligations.TrapsAndReturns := by
  unfold Obligations.TrapsAndReturns
  exact ⟨trapEntry, trapiSysret⟩

end Sys2Proof.Machine
end

section
/-! SUPPORT. What a write at its home leaves of memory's form, and what a device's write of a word stores. -/

namespace Sys2Proof.Machine

/-- The cores are as before, and memory in its canonical form stays in it. -/
structure LeavesCores (s t : State) : Prop where
  cores : t.cores = s.cores
  form  : Memory.wf s.mem = true → Memory.wf t.mem = true

theorem LeavesCores.of_eq {s t : State} (hc : t.cores = s.cores) (hm : t.mem = s.mem) : LeavesCores s t := ⟨hc, fun h => hm ▸ h⟩
theorem LeavesCores.refl (s : State) : LeavesCores s s := ⟨rfl, id⟩
theorem LeavesCores.trans {s t u : State} (a : LeavesCores s t) (b : LeavesCores t u) : LeavesCores s u :=
  ⟨b.cores.trans a.cores, fun h => b.form (a.form h)⟩
theorem LeavesCores.foldl {α : Type} {f : State → α → State} (h : ∀ s x, LeavesCores s (f s x)) (l : List α) (s : State) :
    LeavesCores s (l.foldl f s) := by
  induction l generalizing s with
  | nil => exact .refl s
  | cons x l ih => exact (h s x).trans (ih _)

/-! ## Parts that leave memory as it is -/

theorem countL2_leavesCores (s : State) (d : Fin 4) (i n : Nat) : LeavesCores s (countL2 s d i n) := .of_eq rfl rfl

theorem newEntry_leavesCores (s : State) (t : L2Tag) (poison : Bool) : LeavesCores s (newEntry s t poison) := by
  unfold newEntry
  split <;> exact .of_eq rfl rfl

theorem keepPrivate_leavesCores (s : State) (t : L2Tag) : LeavesCores s (keepPrivate s t) := by
  unfold keepPrivate
  split
  · exact .of_eq rfl rfl
  · exact newEntry_leavesCores s t false

theorem keepIndexed_leavesCores (s : State) (t : L2Tag) (e : Option Nat) : LeavesCores s (keepIndexed s t e) := by
  unfold keepIndexed
  refine (keepPrivate_leavesCores s t).trans ?_
  cases e with
  | none => dsimp only; split <;> exact .of_eq rfl rfl
  | some e =>
    dsimp only
    split
    · split <;> exact .of_eq rfl rfl
    · exact .refl _

theorem tryShare_leavesCores (s : State) (t : L2Tag) (data : List Byte) : LeavesCores s (tryShare s t data) := by
  unfold tryShare
  dsimp only
  split
  · exact keepPrivate_leavesCores s t
  split
  · exact .of_eq rfl rfl
  split
  · exact keepPrivate_leavesCores s t
  split
  · split
    · split <;> exact .of_eq rfl rfl
    · exact keepIndexed_leavesCores s t _
  · exact keepIndexed_leavesCores s t _

theorem postEvent_leavesCores (s : State) (kind reason : BitVec 8) (ctx : BitVec 12) (value addr : Word) :
    LeavesCores s (postEvent s kind reason ctx value addr) := .of_eq (postRecord_cores _ _) (postRecord_mem _ _)

theorem spillPoison_leavesCores (s : State) (a : Nat) : LeavesCores s (spillPoison s a) := by
  unfold spillPoison
  split <;> exact .of_eq rfl rfl

/-! ## Lines at their homes -/

theorem freshBlock_leavesCores (s : State) (a : Nat) : LeavesCores s (freshBlock s a) := by
  unfold freshBlock
  split
  · exact .refl s
  dsimp only
  split
  · exact .refl s
  · refine .foldl (fun s i => ?_) _ s
    split
    · exact .refl s
    · refine ⟨rfl, fun h => ?_⟩
      dsimp only
      exact memWrite_wf _ _ _ h

theorem logBlock_leavesCores (s : State) (a : Nat) : LeavesCores s (logBlock s a).2 := by
  unfold logBlock
  split
  · exact .refl s
  refine (freshBlock_leavesCores s a).trans ?_
  dsimp only
  split
  · split
    · exact .refl _
    · refine .trans ?_ (postEvent_leavesCores _ _ _ _ _ _)
      exact .of_eq rfl rfl
  · exact ⟨rfl, fun h => memWrite_wf (freshBlock s a).mem _ _ h⟩

theorem evictLine_leavesCores (s : State) (a : Nat) : LeavesCores s (evictLine s a) := by
  have h := logBlock_leavesCores s a
  unfold evictLine
  generalize logBlock s a = r at h
  obtain ⟨done, s'⟩ := r
  dsimp only at h ⊢
  split
  · split
    · cases done with
      | true => exact (h.trans (spillPoison_leavesCores s' a)).trans (.of_eq rfl rfl)
      | false => exact h
    · exact .of_eq rfl rfl
  · exact .of_eq rfl rfl

theorem evictUntil_leavesCores (p : State → Bool) (a n : Nat) (kept : List Nat) (s : State) : LeavesCores s (evictUntil p a n kept s) := by
  induction n generalizing kept s with
  | zero => exact .refl s
  | succ n ih =>
    unfold evictUntil
    split
    · exact .refl s
    · split
      · exact (evictLine_leavesCores s _).trans (ih _ _)
      · exact .refl s

theorem makeRoom_leavesCores (s : State) (a : Nat) : LeavesCores s (makeRoom s a) := evictUntil_leavesCores _ _ _ _ s
theorem makeTag_leavesCores (s : State) (a : Nat) : LeavesCores s (makeTag s a) := evictUntil_leavesCores _ _ _ _ s

theorem homeFill_leavesCores (s : State) (a : Nat) (dedup : Bool) (dom : BitVec 8) : LeavesCores s (homeFill s a dedup dom) := by
  unfold homeFill
  refine (countL2_leavesCores s (homeDie s a) 0 1).trans ?_
  dsimp only
  split
  · exact .refl _
  · refine (((freshBlock_leavesCores _ a).trans (countL2_leavesCores _ (homeDie s a) 1 1)).trans (makeTag_leavesCores _ a)).trans ?_
    split
    · exact (makeRoom_leavesCores _ a).trans (tryShare_leavesCores _ _ _)
    · exact .refl _

theorem prepareWrite_leavesCores (s : State) (a : Nat) : LeavesCores s (prepareWrite s a) := by
  unfold prepareWrite
  refine (makeRoom_leavesCores s a).trans ?_
  refine .trans (t := { makeRoom s a with lines := { (makeRoom s a).lines with rdc := (makeRoom s a).lines.rdc.filter fun r => r.2 ≠ a } })
    (.of_eq rfl rfl) ?_
  dsimp only
  split
  · exact .refl _
  · split
    · split
      · exact (newEntry_leavesCores _ _ _).trans (countL2_leavesCores _ _ _ _)
      · exact .of_eq rfl rfl
    · exact (newEntry_leavesCores _ _ _).trans (countL2_leavesCores _ _ _ _)

/-! ## Writes -/

@[simp] theorem clearEntryPoison_cores (s : State) (a : Nat) : (clearEntryPoison s a).cores = s.cores := by unfold clearEntryPoison; split <;> rfl
@[simp] theorem clearEntryPoison_mem (s : State) (a : Nat) : (clearEntryPoison s a).mem = s.mem := by unfold clearEntryPoison; split <;> rfl
@[simp] theorem wakeLine_mem (s : State) (a : Nat) : (wakeLine s a).mem = s.mem := (wakeLine_leaves s a).mem

/-- A write of a line stores its patches in memory as the line's preparation leaves it. -/
theorem writeLine_mem (s : State) (l : Nat) (ps : List (Nat × List Byte)) :
    (writeLine s l ps).mem = ps.foldl (fun m p => memWrite m (l + p.1) p.2) (prepareWrite s l).mem := by
  unfold writeLine
  dsimp only
  rw [wakeLine_mem]
  split <;> simp

theorem writeLine_cores (s : State) (l : Nat) (ps : List (Nat × List Byte)) : (writeLine s l ps).cores = s.cores := by
  unfold writeLine
  dsimp only
  rw [wakeLine_cores]
  refine Eq.trans ?_ (prepareWrite_leavesCores s l).cores
  split
  · simp
  · rfl

/-- A write of a line at its home is one of a line that has been looked up and filled. -/
theorem homePatch_eq (s : State) (l : Nat) (ps : List (Nat × List Byte)) (dedup : Bool) (dom : BitVec 8) :
    ∃ t, LeavesCores s t ∧ homePatch s l ps dedup dom = writeLine t l ps := by
  unfold homePatch
  split
  · refine ⟨_, ?_, rfl⟩
    have tagged := (((freshBlock_leavesCores s l).trans (countL2_leavesCores _ (homeDie s l) 0 1)).trans
      (countL2_leavesCores _ (homeDie s l) 1 1)).trans (makeTag_leavesCores _ l)
    refine tagged.trans ?_
    split
    · exact (makeRoom_leavesCores _ l).trans (newEntry_leavesCores _ _ _)
    · exact .refl _
  · exact ⟨_, homeFill_leavesCores s l dedup dom, rfl⟩

theorem homeWrite_cores (s : State) (a : Nat) (bs : List Byte) (dedup : Bool) (dom : BitVec 8) : (homeWrite s a bs dedup dom).cores = s.cores := by
  obtain ⟨t, ht, e⟩ := homePatch_eq s (lineOf a) [(a % 128, bs)] dedup dom
  rw [homeWrite, e, writeLine_cores, ht.cores]

/-- Bytes within one line are stored in a memory in canonical form. -/
theorem homeWrite_mem {s : State} (h : Memory.wf s.mem = true) (a : Nat) (bs : List Byte) (dedup : Bool) (dom : BitVec 8) :
    ∃ m, Memory.wf m = true ∧ (homeWrite s a bs dedup dom).mem = memWrite m a bs := by
  obtain ⟨t, ht, e⟩ := homePatch_eq s (lineOf a) [(a % 128, bs)] dedup dom
  refine ⟨_, (prepareWrite_leavesCores t (lineOf a)).form (ht.form h), ?_⟩
  rw [homeWrite, e, writeLine_mem, List.foldl_cons, List.foldl_nil, lineOf, Nat.div_add_mod']

/-- Nothing is left to write after a piece that holds all the bytes. -/
theorem physWrite_nil (n : Nat) (s : State) (a : Nat) (dedup : Bool) (dom : BitVec 8) : physWrite n s a [] dedup dom = s := by
  cases n with
  | zero => rfl
  | succ n => exact if_pos rfl

/-- Bytes within one line are written at its home at once. -/
theorem physWrite_line {n : Nat} {s : State} {a : Nat} {bs : List Byte} (hs : isSpad a = false) (hn : bs ≠ []) (hl : a % 128 + bs.length ≤ 128)
    (dedup : Bool) (dom : BitVec 8) : physWrite (n + 1) s a bs dedup dom = homeWrite s a bs dedup dom := by
  have all : bs.length ≤ 128 - a % 128 := by omega
  rw [physWrite, if_neg hn, hs, if_neg Bool.false_ne_true]
  dsimp only
  rw [List.take_of_length_le all, List.drop_of_length_le all, physWrite_nil]

/-- A word of a scratchpad is written at once. -/
theorem physWrite_word {n : Nat} {s : State} {a : Nat} {bs : List Byte} (hs : isSpad a = true) (ha : a % 8 = 0) (hl : bs.length = 8)
    (dedup : Bool) (dom : BitVec 8) : physWrite (n + 1) s a bs dedup dom = spadWrite s a bs := by
  have some : bs ≠ [] := fun e => by simp [e] at hl
  rw [physWrite, if_neg some, if_pos hs]
  dsimp only
  rw [ha, Nat.sub_zero, ← hl, List.take_length, List.drop_length, physWrite_nil]

/-- A word that the device writes reads back. -/
theorem memRead_devWrite {s : State} {a : Nat} {bs : List Byte} (h : Memory.wf s.mem = true) (ha : a % 8 = 0) (hl : bs.length = 8) :
    memRead (devWrite s a bs).mem a 8 = bs := by
  have stored {t : State} {m : List Host.Cell} (hm : Memory.wf m = true) (ht : t.mem = memWrite m a bs) : memRead t.mem a 8 = bs := by
    rw [ht, ← hl]; exact memRead_memWrite m a bs hm
  unfold devWrite
  cases hs : isSpad a with
  | true =>
    rw [physWrite_word hs ha hl]
    exact stored (m := s.mem) h (by rw [spadWrite, wakeLine_mem, clearPoison_mem])
  | false =>
    have some : bs ≠ [] := fun e => by simp [e] at hl
    rw [physWrite_line hs some (by omega)]
    obtain ⟨m, hm, e⟩ := homeWrite_mem h a bs false 0
    exact stored hm e

end Sys2Proof.Machine
end

section
/-! HALT, YIELD and WAITEV (R48, R351, R352, R356). -/

namespace Sys2Proof.Machine

/-! ## What a queue's error leaves of the strands and of the context's items -/

/-- Memory, the groups, the contexts of saved items, and which strands are resident for which context are as before. -/
structure LeavesSeats (s t : State) : Prop where
  mem    : t.mem = s.mem
  groups : t.lp.groups = s.lp.groups
  saved  : t.lp.saved.map (·.ctx) = s.lp.saved.map (·.ctx)
  wf     : sparseWf {} s.others = true → sparseWf {} t.others = true
  seats  : sparseWf {} s.others = true → ∀ n, (getStrand t n).resident = (getStrand s n).resident ∧ (getStrand t n).ctx = (getStrand s n).ctx

theorem LeavesSeats.refl (s : State) : LeavesSeats s s := ⟨rfl, rfl, rfl, id, fun _ _ => ⟨rfl, rfl⟩⟩
theorem LeavesSeats.trans {s t u : State} (a : LeavesSeats s t) (b : LeavesSeats t u) : LeavesSeats s u where
  mem := b.mem.trans a.mem
  groups := b.groups.trans a.groups
  saved := b.saved.trans a.saved
  wf h := b.wf (a.wf h)
  seats h n := ⟨(b.seats (a.wf h) n).1.trans (a.seats h n).1, (b.seats (a.wf h) n).2.trans (a.seats h n).2⟩
theorem LeavesSeats.foldl {α : Type} {f : State → α → State} (h : ∀ s x, LeavesSeats s (f s x)) (l : List α) (s : State) :
    LeavesSeats s (l.foldl f s) := by
  induction l generalizing s with
  | nil => exact .refl s
  | cons x l ih => exact (h s x).trans (ih _)

/-- Of an operation that touches no strand. -/
theorem LeavesSeats.of_eq {s t : State} (hm : t.mem = s.mem) (hg : t.lp.groups = s.lp.groups) (hv : t.lp.saved.map (·.ctx) = s.lp.saved.map (·.ctx))
    (hc : t.cur = s.cur) (hs : t.st = s.st) (ho : t.others = s.others) : LeavesSeats s t :=
  ⟨hm, hg, hv, fun h => ho ▸ h, fun _ n => by unfold getStrand; rw [hc, hs, ho]; exact ⟨rfl, rfl⟩⟩

/-- A change of a strand that keeps it where it is. -/
theorem modStrand_leavesSeats {f : Strand → Strand} (hf : ∀ t, (f t).resident = t.resident ∧ (f t).ctx = t.ctx) (s : State) (n : Nat) :
    LeavesSeats s (modStrand s n f) where
  mem := setStrand_mem s n _
  groups := by rw [modStrand, setStrand_lp]
  saved := by rw [modStrand, setStrand_lp]
  wf h := setStrand_others_wf h n _
  seats h j := by
    rw [modStrand, getStrand_setStrand h]
    split
    · next e => rw [e]; exact hf _
    · exact ⟨rfl, rfl⟩

theorem modStrandsWhere_leavesSeats {f : Strand → Strand} (hf : ∀ t, (f t).resident = t.resident ∧ (f t).ctx = t.ctx) (s : State)
    (p : Strand → Bool) : LeavesSeats s (modStrandsWhere s p f) := .foldl (modStrand_leavesSeats hf) _ s

theorem endWaits_leavesSeats (s : State) (ans : WaitKey → Option (Nat × Word × Word)) : LeavesSeats s (endWaits s ans) := by
  unfold endWaits
  refine .trans ?_ (modStrandsWhere_leavesSeats ?_ _ _)
  rotate_left
  · exact fun _ => ⟨rfl, rfl⟩
  refine .of_eq rfl rfl ?_ rfl rfl rfl
  dsimp only
  rw [List.map_map]
  refine List.map_congr_left fun v _ => ?_
  simp only [Function.comp]
  split <;> rfl

theorem queueError_leavesSeats (s : State) (q : Nat) (code : BitVec 8) (fail value addr : Word) :
    LeavesSeats s (queueError s q code fail value addr) := by
  unfold queueError
  dsimp only
  split
  · exact .refl s
  · refine .trans (.of_eq ?_ ?_ ?_ ?_ ?_ ?_) (endWaits_leavesSeats _ _) <;> simp [setQueue]

theorem abortEntries_leavesSeats (s : State) (ctx : BitVec 12) : LeavesSeats s (abortEntries s ctx) := by
  refine .foldl (fun s q => ?_) _ s
  dsimp only
  split
  · exact .refl s
  · refine .trans ?_ (queueError_leavesSeats _ _ _ _ _ _)
    exact .of_eq rfl rfl rfl rfl rfl rfl

/-! ## A context's end (R48) -/

/-- The strands of the context are at reset, with what they have sent forgotten. -/
def endStrands (s : State) (ctx : BitVec 12) : State :=
  (strandsWhere s fun t => t.resident ∧ t.ctx = ctx).foldl (fun s n => forgetReads (setStrand s n {}) n false) s

/-- Nothing of the context waits for a walk, and its groups and saved items are gone. -/
def forgetContext (s : State) (ctx : BitVec 12) : State :=
  { s with
    lines := { s.lines with
      misses := s.lines.misses.filter fun m => m.ctx ≠ ctx
      missed := s.lines.missed.filter fun m => m.ctx ≠ ctx }
    lp := { s.lp with
      groups := s.lp.groups.filter fun g => g.2.ctx ≠ ctx
      saved := s.lp.saved.filter fun v => v.ctx ≠ ctx
      order := s.lp.order.filter (· ≠ ctx)
      resid := s.lp.resid.filter (· ≠ ctx) } }

theorem contextDead_eq {s : State} {ctx : BitVec 12} (h : ctxState s ctx ≠ 6) (reason : BitVec 8) (value addr : Word) :
    contextDead s ctx reason value addr =
      abortEntries (postEvent (forgetContext (endStrands (dropPins (setCtxState s ctx 6) ctx) ctx) ctx) 0x01 reason ctx value addr) ctx := by
  rw [contextDead, if_neg h]
  rfl

theorem endStrands_leaves (s : State) (ctx : BitVec 12) : LeavesMemory s (endStrands s ctx) :=
  .foldl (fun s n => endStrand_leaves s n false) _ s

/-- The listed strands are at reset, the others as they were. -/
theorem getStrand_endAll {s : State} (h : sparseWf {} s.others = true) (l : List Nat) (n : Nat) :
    getStrand (l.foldl (fun s n => forgetReads (setStrand s n {}) n false) s) n = if n ∈ l then {} else getStrand s n := by
  induction l generalizing s with
  | nil => simp
  | cons k l ih =>
    rw [List.foldl_cons, ih ((endStrand_leaves s k false).wf h)]
    have one : getStrand (forgetReads (setStrand s k {}) k false) n = if n = k then {} else getStrand s n := getStrand_setStrand h k {} n
    rw [one]
    by_cases hl : n ∈ l
    · rw [if_pos hl, if_pos (List.mem_cons_of_mem k hl)]
    · rw [if_neg hl]
      exact if_congr (by simp [hl]) rfl rfl

/-- No strand is resident for the context. -/
theorem endStrands_none {s : State} (h : sparseWf {} s.others = true) (ctx : BitVec 12) (n : Nat)
    (hr : (getStrand (endStrands s ctx) n).resident = true) : (getStrand (endStrands s ctx) n).ctx ≠ ctx := by
  have blank (e : getStrand (endStrands s ctx) n = {}) : False := by rw [e] at hr; cases hr
  have each := getStrand_endAll h (strandsWhere s fun t => t.resident ∧ t.ctx = ctx) n
  rw [← endStrands] at each
  by_cases hm : n ∈ strandsWhere s fun t => t.resident ∧ t.ctx = ctx
  · exact (blank (by rw [each, if_pos hm])).elim
  · rw [if_neg hm] at each
    rw [each] at hr ⊢
    by_cases listed : n ∈ strandNums s
    · exact fun hc => hm (mem_strandsWhere.mpr ⟨listed, by simp [hr, hc]⟩)
    · exact (blank (by rw [each, getStrand_of_not_mem listed])).elim

/-- STATE, as the descriptor's first dword shows it once written. -/
theorem setBits_state (v : Word) {st : Nat} (h : st < 16) : (setBits v 0 4 st).toNat % 16 = st := by
  have hv := v.isLt
  simp only [setBits, bits, BitVec.toNat_ofNat]
  omega

/-- The launch processor's write of STATE reads back in the descriptor (R48). -/
theorem memNat_setCtxState {s : State} (h : Memory.wf s.mem = true) {ctx : BitVec 12} (ha : s.lp.ctxTable % 128 = 0) {st : Nat} (hst : st < 16) :
    memNat (setCtxState s ctx st).mem (descAddr s ctx) 8 % 16 = st := by
  have aligned : descAddr s ctx % 8 = 0 := by unfold descAddr; omega
  have read : memRead (setCtxState s ctx st).mem (descAddr s ctx) 8 = natToBytes 8 (setBits (descWord s ctx 0) 0 4 st).toNat :=
    memRead_devWrite h aligned (natToBytes_length 8 _)
  have value := bytesToNat_natToBytes 8 (setBits (descWord s ctx 0) 0 4 st).toNat []
  rw [List.append_nil, Nat.mod_eq_of_lt (setBits (descWord s ctx 0) 0 4 st).isLt] at value
  rw [memNat, read, value]
  exact setBits_state _ hst

/-- What the end of a context that is not DEAD comes to (R48, R351). -/
structure Ended (s t : State) (ctx : BitVec 12) : Prop where
  state   : ctxState t ctx = 6
  desc    : memNat t.mem (descAddr s ctx) 8 % 16 = 6
  strands : ∀ n, (getStrand t n).resident = true → (getStrand t n).ctx ≠ ctx
  saved   : ∀ v ∈ t.lp.saved, v.ctx ≠ ctx
  groups  : ∀ g ∈ t.lp.groups, g.2.ctx ≠ ctx

theorem contextDead_ended {s : State} {ctx : BitVec 12} (h : ctxState s ctx ≠ 6) (hm : Memory.wf s.mem = true)
    (ho : sparseWf {} s.others = true) (ha : s.lp.ctxTable % 128 = 0) (reason : BitVec 8) (value addr : Word) :
    Ended s (contextDead s ctx reason value addr) ctx := by
  have state := ctxState_contextDead s ctx reason value addr
  rw [contextDead_eq h] at state ⊢
  have pins := allPinsDue_leaves { setCtxState s ctx 6 with lines := { (setCtxState s ctx 6).lines with
    tags := (setCtxState s ctx 6).lines.tags.map fun t => if t.pin = some ctx then { t with pin := none } else t } }
  rw [← dropPins] at pins
  have wrote : sparseWf {} (setCtxState s ctx 6).others = true := (devWrite_leaves s _ _).wf ho
  have stopped := endStrands_leaves (dropPins (setCtxState s ctx 6) ctx) ctx
  have none := endStrands_none (pins.wf wrote) ctx
  generalize endStrands (dropPins (setCtxState s ctx 6) ctx) ctx = e at state stopped none ⊢
  have aborted := abortEntries_leavesSeats (postEvent (forgetContext e ctx) 0x01 reason ctx value addr) ctx
  have posted := (postEvent_leaves (forgetContext e ctx) 0x01 reason ctx value addr)
  generalize abortEntries (postEvent (forgetContext e ctx) 0x01 reason ctx value addr) ctx = t at state aborted ⊢
  have wf : sparseWf {} (postEvent (forgetContext e ctx) 0x01 reason ctx value addr).others = true := by
    rw [posted.others]; exact stopped.wf (pins.wf wrote)
  have lp : (postEvent (forgetContext e ctx) 0x01 reason ctx value addr).lp = (forgetContext e ctx).lp := postRecord_lp _ _
  refine ⟨state, ?_, fun n => ?_, fun v hv => ?_, fun g hg => ?_⟩
  · rw [aborted.mem, postEvent, postRecord_mem]
    show memNat e.mem _ 8 % 16 = 6
    rw [stopped.mem, pins.mem]
    exact memNat_setCtxState hm ha (by decide)
  · rw [(aborted.seats wf n).1, (aborted.seats wf n).2, posted.getStrand_eq]
    exact none n
  · have : v.ctx ∈ (forgetContext e ctx).lp.saved.map (·.ctx) := by
      rw [← lp, ← aborted.saved]; exact List.mem_map_of_mem hv
    obtain ⟨u, hu, e⟩ := List.mem_map.mp this
    rw [← e]
    exact of_decide_eq_true (List.mem_filter.mp hu).2
  · rw [aborted.groups, lp] at hg
    exact of_decide_eq_true (List.mem_filter.mp hg).2

/-! ## The instructions -/

theorem exec_halt (s : State) : exec .halt s = execHalt s := by rfl
theorem exec_yield (s : State) : exec .yield s = execYield s := by rfl
theorem exec_waitevTimer (d : XReg) (s : State) : exec (.waitevTimer d) s = execWaitevTimer d s := by rfl
theorem exec_waitevSlot (d : XReg) (s : State) : exec (.waitevSlot d) s = execWaitevSlot d s := by rfl

/-- HALT in privileged mode ends the strand's context. -/
theorem execHalt_privileged {s : State} (h : s.st.priv = true) :
    execHalt s = .next (contextDead (s.retire 4) s.st.ctx 4 (s.readX 10) s.st.trap.tpc) := by
  unfold execHalt
  rw [on_bind_ok (on_privileged h)]
  rfl

theorem halt : Claims.Halt := by
  intro s hc ha hp _ hd
  rw [exec_halt, execHalt_privileged hp]
  obtain ⟨state, desc, strands, saved, groups⟩ := contextDead_ended (s := s.retire 4) (ctx := s.st.ctx) hd hc.mem hc.others ha 4 (s.readX 10) s.st.trap.tpc
  exact ⟨_, rfl, state, desc, strands, saved, groups⟩

theorem yieldWaitev : Claims.YieldWaitev := by
  intro s d
  rw [exec_yield, exec_waitevTimer, exec_waitevSlot]
  unfold execWaitevTimer execWaitevSlot
  refine ⟨rfl, fun due => ?_, fun early => ?_, fun k woke => ?_, fun asleep owns => ?_, fun asleep owns => ?_⟩
  · refine scalar_ok ?_
    rw [on_bind_ok (on_get s)]
    simp only [if_neg (Nat.not_lt.mpr due)]
    rfl
  · refine scalar_park ?_ (strandGone_self s)
    rw [on_bind_ok (on_get s)]
    simp only [if_pos early]
    rfl
  · refine scalar_ok ?_
    rw [on_bind_ok (on_get s)]
    simp only [woke]
    rfl
  · refine scalar_park ?_ (strandGone_self s)
    rw [on_bind_ok (on_get s)]
    simp only [asleep, owns, if_true]
    rfl
  · refine scalar_ok ?_
    rw [on_bind_ok (on_get s)]
    simp only [asleep, owns, Bool.false_eq_true, if_false]
    rfl

/-- Settles O15: HALT ends the context (`halt`), YIELD is noted, and WAITEV answers or parks (`yieldWaitev`). -/
theorem haltYieldWaitev : Obligations.HaltYieldWaitev := by
  unfold Obligations.HaltYieldWaitev
  exact ⟨halt, yieldWaitev⟩

end Sys2Proof.Machine
end

section
/-! CSRRD, CSRWR and CSRXCH (R52, R53, R193, R348). -/

namespace Sys2Proof.Machine

/-! ## Access -/

theorem csrListed_of_exists {c : BitVec 12} (h : Claims.csrExists c) : csrListed c = true := by
  simp only [csrListed, decide_eq_true_eq]
  rcases h with h | h | h | h | h
  · simp only [Claims.csrReadOnly, decide_eq_true_eq, List.mem_cons, List.not_mem_nil, or_false] at h
    omega
  · unfold Claims.csrBits at h
    split at h
    all_goals try omega
    split at h
    · omega
    · exact absurd rfl h
  · subst h; decide
  · subst h; decide
  · omega

theorem csrPriv_iff {c : BitVec 12} (h : Claims.csrExists c) : csrPriv c = true ↔ Claims.csrPrivileged c := by
  have listed := csrListed_of_exists h
  simp only [csrListed, csrPriv, Claims.csrPrivileged, decide_eq_true_eq] at listed ⊢
  omega

theorem csrDrains_iff (c : BitVec 12) : csrDrains c = true ↔ Claims.csrWaits c := by
  simp only [csrDrains, Claims.csrWaits, decide_eq_true_eq, List.mem_cons, List.not_mem_nil, or_false]
  omega

/-- The checks of an access pass (R52, R347). -/
theorem on_csrGuard {i : Instr} {c : BitVec 12} {reads : Bool} {s : State} (h : Claims.csrExists c) (hp : Claims.csrPrivileged c → s.st.priv = true)
    (hq : Claims.csrWaits c → s.st.viq = []) (hd : c = 0x021 → reads = true → s.st.signals = []) :
    Act.on (csrGuard i c reads) s = (.ok (), s) := by
  have mode : (csrPriv c && ! s.st.priv) = false := by
    cases hc : csrPriv c with
    | false => rfl
    | true => simp [hp ((csrPriv_iff h).mp hc)]
  have answered : Act.on (do if decide (c = 0x021) && reads && ! (← get).st.signals.isEmpty then throw .again : Act Unit) s = (.ok (), s) := by
    rw [on_bind_ok (on_get s), if_neg]
    · rfl
    · by_cases hc : c = 0x021 <;> cases reads <;> simp_all
  unfold csrGuard
  simp only [csrListed_of_exists h, Bool.not_true, Bool.false_eq_true, if_false, on_bind, on_get, mode]
  split
  · next hc =>
    rw [on_bind_ok (on_drained_nil (hq ((csrDrains_iff c).mp hc)))]
    exact answered
  · exact answered

theorem exec_csrrd (d : XReg) (c : BitVec 12) (s : State) : exec (.csrrd d c) s = execCsrrd d c s := by rfl
theorem exec_csrwr (c : BitVec 12) (a : XReg) (s : State) : exec (.csrwr c a) s = execCsrwr c a s := by rfl
theorem exec_csrxch (d : XReg) (c : BitVec 12) (a : XReg) (s : State) : exec (.csrxch d c a) s = execCsrxch d c a s := by rfl

theorem csrAccess : Claims.CsrAccess := by
  intro s c d a h hp hq
  rw [exec_csrwr, exec_csrrd, exec_csrxch]
  refine ⟨scalar_ok ?_, fun hd => ⟨scalar_ok ?_, scalar_ok ?_⟩⟩
  · rw [on_bind_ok (on_csrGuard h hp hq fun _ hr => absurd hr Bool.false_ne_true)]
    rfl
  · rw [on_bind_ok (on_csrGuard h hp hq fun hc _ => hd hc)]
    rfl
  · rw [on_bind_ok (on_csrGuard h hp hq fun hc _ => hd hc)]
    rfl

/-! ## Reading back -/

/-- The registers with a number of their own, and their values (Table 3.4). -/
def csrTable (s : State) : List (Nat × Word) :=
  let k := s.st.csr
  let t := s.st.trap
  [(0x000, s.st.item.wid), (0x001, s.st.item.wfld), (0x002, w64 s.cur.val), (0x003, s.st.ctx.zeroExtend 64),
   (0x010, k.vl), (0x011, k.vcfg), (0x012, k.vstart), (0x013, vaWord (vcpOf s.st)), (0x014, k.vdirty.zeroExtend 64),
   (0x015, k.vrnd.zeroExtend 64), (0x016, k.vsat.zeroExtend 64), (0x017, k.vcarry.zeroExtend 64), (0x018, k.amax.zeroExtend 64),
   (0x019, k.fexc.zeroExtend 64), (0x01A, k.frnd.zeroExtend 64), (0x01B, k.vshare.zeroExtend 64), (0x01C, k.vlmax),
   (0x01D, (laneMask (getCore s (curCore s))).zeroExtend 64), (0x020, k.dcfg), (0x021, k.dstat), (0x022, k.dpivtau.zeroExtend 64),
   (0x023, k.dpivcnt.zeroExtend 64), (0x024, k.tstat.zeroExtend 64), (0x030, k.sqinfo), (0x100, t.tvec), (0x101, t.tcause.zeroExtend 64),
   (0x102, t.tval), (0x103, t.tpc), (0x104, t.tlane.zeroExtend 64), (0x110, w64 (ctxRoot s s.st.ctx)), (0x111, (curDomain s).zeroExtend 64),
   (0x200, s.lines.partsel[(curDie s).val].zeroExtend 64), (0xC00, s.cycle), (0xC01, k.retired), (0xC02, k.ebeats),
   (0xC03, sget 0 s.lines.sample (curDie s).val)]

/-- The slots of the core, and the masks of the partition that `partsel` shows. -/
def csrBanks (s : State) (n : Nat) : Word :=
  if 0x120 ≤ n ∧ n ≤ 0x12F then ((getCore s (curCore s)).slots.toList.getD (n - 0x120) 0).zeroExtend 64
  else if 0x201 ≤ n ∧ n ≤ 0x208 then sget 0 s.lines.masks (maskKey s (n - 0x201))
  else 0

theorem csrValue_eq (s : State) (c : BitVec 12) : csrValue s c = ((csrTable s).lookup c.toNat).getD (csrBanks s c.toNat) := by
  unfold csrValue
  split
  case h_37 =>
    have absent : c.toNat ∉ (csrTable s).map (·.1) := by
      show c.toNat ∉ [0x000, 0x001, 0x002, 0x003, 0x010, 0x011, 0x012, 0x013, 0x014, 0x015, 0x016, 0x017, 0x018, 0x019, 0x01A, 0x01B, 0x01C,
        0x01D, 0x020, 0x021, 0x022, 0x023, 0x024, 0x030, 0x100, 0x101, 0x102, 0x103, 0x104, 0x110, 0x111, 0x200, 0xC00, 0xC01, 0xC02, 0xC03]
      simp only [List.mem_cons, List.not_mem_nil, or_false]
      tauto
    have none : (csrTable s).lookup c.toNat = none := List.lookup_eq_none_iff.mpr fun p hp => by
      have : p.1 ∈ (csrTable s).map (·.1) := List.mem_map_of_mem hp
      have ne : c.toNat ≠ p.1 := fun e => absent (by rw [e]; exact this)
      simpa using ne
    rw [none]
    rfl
  all_goals
    next h => rw [h]; rfl

/-- An entry of another key is found whether those of one key are there or not. -/
theorem lookup_filter_ne {l : List (Nat × Word)} {k n : Nat} (h : n ≠ k) : (l.filter fun e => e.1 ≠ k).lookup n = l.lookup n := by
  induction l with
  | nil => rfl
  | cons e l ih =>
    obtain ⟨a, w⟩ := e
    by_cases ha : a = k
    · have kept : ((a, w) :: l).filter (fun e => e.1 ≠ k) = l.filter fun e => e.1 ≠ k := by rw [List.filter_cons, if_neg (by simp [ha])]
      rw [kept, ih, List.lookup, beq_false_of_ne (ha ▸ h)]
    · have kept : ((a, w) :: l).filter (fun e => e.1 ≠ k) = (a, w) :: l.filter fun e => e.1 ≠ k := by rw [List.filter_cons, if_pos (by simp [ha])]
      rw [kept, List.lookup, List.lookup, ih]

/-- Slot k of the focused core takes a word. -/
def setCsrSlot (s : State) (k : Nat) (v : Word) : State :=
  modCore s (curCore s) fun c => { c with slots := c.slots.set (k % 16) (v.truncate 5 &&& slotMask) (Nat.mod_lt k (by decide)) }

/-- Mask k of the partition that `partsel` shows takes a word. -/
def setCsrMask (s : State) (k : Nat) (v : Word) : State :=
  { s with lines := { s.lines with masks := sset 0 s.lines.masks (maskKey s k) (maskWord v.toNat) } }

theorem csrWrite_slot {c : BitVec 12} (h : 0x120 ≤ c.toNat ∧ c.toNat ≤ 0x12F) (v : Word) (s : State) : csrWrite c v s = setCsrSlot s c.toNat v := by
  unfold csrWrite
  split
  case h_20 => exact if_pos h
  all_goals omega

theorem csrWrite_mask {c : BitVec 12} (h : 0x201 ≤ c.toNat ∧ c.toNat ≤ 0x208) (v : Word) (s : State) :
    csrWrite c v s = if s.lines.released then s else setCsrMask s (c.toNat - 0x201) v := by
  unfold csrWrite
  split
  case h_20 =>
    rw [if_neg (by omega)]
    cases s.lines.released <;> simp [h, setCsrMask]
  all_goals omega

theorem getCore_setCsrSlot {s : State} (hc : sparseWf {} s.cores = true) (k : Nat) (v : Word) :
    getCore (setCsrSlot s k v) (curCore s) = { getCore s (curCore s) with
      slots := (getCore s (curCore s)).slots.set (k % 16) (v.truncate 5 &&& slotMask) (Nat.mod_lt k (by decide)) } := by
  rw [setCsrSlot, modCore, getCore_setCore hc, if_pos rfl]

theorem csrTable_setCsrSlot {s : State} (hc : sparseWf {} s.cores = true) (k : Nat) (v : Word) : csrTable (setCsrSlot s k v) = csrTable s := by
  have lanes : laneMask (getCore (setCsrSlot s k v) (curCore (setCsrSlot s k v))) = laneMask (getCore s (curCore s)) :=
    (congrArg laneMask (getCore_setCsrSlot hc k v)).trans rfl
  unfold csrTable
  rw [lanes]
  rfl

/-- A write changes its own register's entry alone. -/
theorem csrTable_csrWrite {s : State} (hc : sparseWf {} s.cores = true) (c : BitVec 12) (v : Word) :
    (csrTable (csrWrite c v s)).filter (fun e => e.1 ≠ c.toNat) = (csrTable s).filter fun e => e.1 ≠ c.toNat := by
  by_cases slot : 0x120 ≤ c.toNat ∧ c.toNat ≤ 0x12F
  · rw [csrWrite_slot slot, csrTable_setCsrSlot hc]
  by_cases mask : 0x201 ≤ c.toNat ∧ c.toNat ≤ 0x208
  · rw [csrWrite_mask mask]
    split <;> rfl
  unfold csrWrite
  split
  case h_20 => rw [if_neg slot, if_neg fun h => mask ⟨h.1, h.2.1⟩]
  all_goals
    next h => rw [h]; rfl

/-- Another slot, and every mask, is as before. -/
theorem csrBanks_setCsrSlot {s : State} (hc : sparseWf {} s.cores = true) {k n : Nat} (hk : 0x120 ≤ k ∧ k ≤ 0x12F) (hn : n ≠ k) (v : Word) :
    csrBanks (setCsrSlot s k v) n = csrBanks s n := by
  have core : getCore (setCsrSlot s k v) (curCore (setCsrSlot s k v)) = _ := getCore_setCsrSlot hc k v
  unfold csrBanks
  rw [core]
  split
  · next h =>
    rw [getD_toList _ _ _ (by omega), getD_toList _ _ _ (by omega), Vector.getElem_set_ne _ _ (by omega)]
  · rfl

/-- Another mask, and every slot, is as before. -/
theorem csrBanks_setCsrMask {s : State} (hm : sparseWf 0 s.lines.masks = true) {k n : Nat} (hk : 0x201 ≤ k ∧ k ≤ 0x208) (hn : n ≠ k) (v : Word) :
    csrBanks (setCsrMask s (k - 0x201) v) n = csrBanks s n := by
  unfold csrBanks
  split
  · rfl
  · split
    · next h =>
      show sget 0 (sset 0 s.lines.masks (maskKey s (k - 0x201)) _) (maskKey s (n - 0x201)) = _
      rw [sget_sset _ _ _ _ _ hm, if_neg (by unfold maskKey; omega)]
    · rfl

/-- The banks of slots and masks change by writes to them, and by `partsel`. -/
theorem csrBanks_csrWrite {s : State} (hc : sparseWf {} s.cores = true) (hm : sparseWf 0 s.lines.masks = true) {c : BitVec 12} (v : Word) {n : Nat}
    (hn : n ≠ c.toNat) (hp : c = 0x200 → ¬ (0x201 ≤ n ∧ n ≤ 0x208)) : csrBanks (csrWrite c v s) n = csrBanks s n := by
  by_cases slot : 0x120 ≤ c.toNat ∧ c.toNat ≤ 0x12F
  · rw [csrWrite_slot slot, csrBanks_setCsrSlot hc slot hn]
  by_cases mask : 0x201 ≤ c.toNat ∧ c.toNat ≤ 0x208
  · rw [csrWrite_mask mask]
    split
    · rfl
    · exact csrBanks_setCsrMask hm mask hn v
  unfold csrWrite
  split
  case h_20 => rw [if_neg slot, if_neg fun h => mask ⟨h.1, h.2.1⟩]
  case h_19 =>
    next h =>
    have other := hp (BitVec.eq_of_toNat_eq h)
    unfold csrBanks
    rw [if_neg other, if_neg other]
    rfl
  all_goals rfl

/-- A register reads as before a write of another one, but for the masks as `partsel` moves. -/
theorem csrValue_csrWrite_of_ne {s : State} (hc : sparseWf {} s.cores = true) (hm : sparseWf 0 s.lines.masks = true) {c c' : BitVec 12} (v : Word)
    (h : c' ≠ c) (hp : c = 0x200 → ¬ (0x201 ≤ c'.toNat ∧ c'.toNat ≤ 0x208)) : csrValue (csrWrite c v s) c' = csrValue s c' := by
  have ne : c'.toNat ≠ c.toNat := fun e => h (BitVec.eq_of_toNat_eq e)
  rw [csrValue_eq, csrValue_eq, csrBanks_csrWrite hc hm v ne hp, ← lookup_filter_ne ne, csrTable_csrWrite hc, lookup_filter_ne ne]

/-! ## The written register -/

/-- The low n bits of a word, as a register of n bits gives them back. -/
theorem zeroExtend_truncate {n : Nat} (h : n ≤ 64) (v : Word) : (v.truncate n).zeroExtend 64 = v &&& BitVec.ofNat 64 (2 ^ n - 1) := by
  have le : 2 ^ n ≤ 2 ^ 64 := Nat.pow_le_pow_right (by decide) h
  have pos : 0 < 2 ^ n := Nat.two_pow_pos n
  apply BitVec.eq_of_toNat_eq
  rw [BitVec.toNat_and, BitVec.toNat_ofNat, Nat.mod_eq_of_lt (by omega : 2 ^ n - 1 < 2 ^ 64), Nat.and_two_pow_sub_one_eq_mod]
  simp only [BitVec.truncate_eq_setWidth, BitVec.toNat_setWidth]
  exact Nat.mod_eq_of_lt (lt_of_lt_of_le (Nat.mod_lt _ pos) le)

/-- And those of them that are not reserved. -/
theorem zeroExtend_truncate_and {n : Nat} (h : n ≤ 64) (v : Word) (k : BitVec n) {m : Word} (hm : BitVec.ofNat 64 (2 ^ n - 1) &&& k.zeroExtend 64 = m) :
    (v.truncate n &&& k).zeroExtend 64 = v &&& m := by
  rw [BitVec.zeroExtend, BitVec.setWidth_and, ← BitVec.zeroExtend, zeroExtend_truncate h, BitVec.and_assoc]
  exact congrArg (v &&& ·) hm

theorem csrValue_slot {c : BitVec 12} (h : 0x120 ≤ c.toNat ∧ c.toNat ≤ 0x12F) (s : State) :
    csrValue s c = ((getCore s (curCore s)).slots[c.toNat - 0x120]).zeroExtend 64 := by
  unfold csrValue
  split
  case h_37 => rw [if_pos h, getD_toList]
  all_goals omega

theorem csrValue_mask {c : BitVec 12} (h : 0x201 ≤ c.toNat ∧ c.toNat ≤ 0x208) (s : State) :
    csrValue s c = sget 0 s.lines.masks (maskKey s (c.toNat - 0x201)) := by
  unfold csrValue
  split
  case h_37 => rw [if_neg (by omega), if_pos h]
  all_goals omega

theorem csrValue_csrWrite_slot {s : State} (hc : sparseWf {} s.cores = true) {c : BitVec 12} (h : 0x120 ≤ c.toNat ∧ c.toNat ≤ 0x12F) (v : Word) :
    csrValue (csrWrite c v s) c = v &&& 0x1B := by
  have core : getCore (setCsrSlot s c.toNat v) (curCore (setCsrSlot s c.toNat v)) = _ := getCore_setCsrSlot hc c.toNat v
  rw [csrWrite_slot h, csrValue_slot h, core]
  dsimp only
  rw [Vector.getElem_set, if_pos (by omega)]
  exact zeroExtend_truncate_and (by decide) v slotMask (by decide)

theorem eq_ofNat_of_toNat {w n : Nat} {c : BitVec w} (h : c.toNat = n) : c = BitVec.ofNat w n := by rw [← h, BitVec.ofNat_toNat, BitVec.setWidth_eq]

/-- A writable register reads back the bits that Table 3.4 gives it. -/
theorem csrValue_csrWrite_bits {s : State} (hc : sparseWf {} s.cores = true) {c : BitVec 12} {m : Word} (h : Claims.csrBits c = some m) (v : Word) :
    csrValue (csrWrite c v s) c = v &&& m := by
  unfold Claims.csrBits at h
  split at h
  case h_18 =>
    split at h
    · next slot =>
      cases h
      exact csrValue_csrWrite_slot hc slot v
    · cases h
  all_goals
    rename_i n
    rw [eq_ofNat_of_toNat n]
    cases h
  · exact (BitVec.and_allOnes).symm
  · exact zeroExtend_truncate (n := 32) (by decide) v
  · exact zeroExtend_truncate (n := 2) (by decide) v
  · exact zeroExtend_truncate (n := 1) (by decide) v
  · exact zeroExtend_truncate (n := 32) (by decide) v
  · exact zeroExtend_truncate (n := 31) (by decide) v
  · exact zeroExtend_truncate (n := 5) (by decide) v
  · exact zeroExtend_truncate (n := 3) (by decide) v
  · exact (BitVec.and_allOnes).symm
  · exact zeroExtend_truncate (n := 32) (by decide) v
  · exact zeroExtend_truncate (n := 32) (by decide) v
  · exact (BitVec.and_allOnes).symm
  · exact zeroExtend_truncate (n := 10) (by decide) v
  · exact (BitVec.and_allOnes).symm
  · exact (BitVec.and_allOnes).symm
  · exact zeroExtend_truncate_and (by decide) v tlaneMask (by decide)
  · show (s.lines.partsel.set (curDie s).val (v.truncate 3))[(curDie s).val].zeroExtend 64 = _
    rw [Vector.getElem_set_self]
    exact zeroExtend_truncate (n := 3) (by decide) v

/-- The read-only registers ignore writes. -/
theorem csrWrite_readOnly {c : BitVec 12} (h : Claims.csrReadOnly c = true) (v : Word) (s : State) : csrWrite c v s = s := by
  have listed := h
  simp only [Claims.csrReadOnly, decide_eq_true_eq, List.mem_cons, List.not_mem_nil, or_false] at listed
  have slot : ¬ (0x120 ≤ c.toNat ∧ c.toNat ≤ 0x12F) := by omega
  have mask : ¬ (0x201 ≤ c.toNat ∧ c.toNat ≤ 0x208) := by omega
  unfold csrWrite
  split
  case h_20 => rw [if_neg slot, if_neg fun h => mask ⟨h.1, h.2.1⟩]
  all_goals
    next n =>
    rw [Claims.csrReadOnly, n] at h
    exact absurd h (by decide)

/-- Of the strand, a write changes the CSRs and the trap registers alone. -/
theorem csrWrite_frame (c : BitVec 12) (v : Word) (s : State) : (csrWrite c v s).mem = s.mem ∧ (csrWrite c v s).others = s.others ∧
    (csrWrite c v s).st = { s.st with csr := (csrWrite c v s).st.csr, trap := (csrWrite c v s).st.trap } := by
  by_cases slot : 0x120 ≤ c.toNat ∧ c.toNat ≤ 0x12F
  · rw [csrWrite_slot slot]; exact ⟨rfl, rfl, rfl⟩
  by_cases mask : 0x201 ≤ c.toNat ∧ c.toNat ≤ 0x208
  · rw [csrWrite_mask mask]; split <;> exact ⟨rfl, rfl, rfl⟩
  unfold csrWrite
  split
  case h_20 => rw [if_neg slot, if_neg fun h => mask ⟨h.1, h.2.1⟩]; exact ⟨rfl, rfl, rfl⟩
  all_goals exact ⟨rfl, rfl, rfl⟩

/-- A mask keeps bits 47:7 (R193). -/
theorem maskWord_eq (v : Word) : maskWord v.toNat = v &&& 0xFFFFFFFFFF80 := by
  have mask : (0xFFFFFFFFFF80 : Word).toNat = (2 ^ 41 - 1) * 2 ^ 7 := by decide
  apply BitVec.eq_of_toNat_eq
  rw [toNat_maskWord, BitVec.toNat_and, mask]
  apply Nat.eq_of_testBit_eq
  intro i
  rw [Nat.testBit_and, Nat.testBit_mul_two_pow, Nat.testBit_mul_two_pow, Nat.testBit_mod_two_pow, Nat.testBit_div_two_pow,
    Nat.testBit_two_pow_sub_one]
  by_cases hi : 7 ≤ i
  · rw [Nat.sub_add_cancel hi, decide_eq_true hi]
    simp [Bool.and_comm]
  · simp [hi]

/-- `vshare` 0 becomes 1 (Table 3.4). -/
theorem csrValue_csrWrite_vshare (v : Word) (s : State) :
    csrValue (csrWrite 0x01B v s) 0x01B = if v.toNat % 16 = 0 then 1 else v &&& 15 := by
  have zero : v.truncate 4 = (0 : BitVec 4) ↔ v.toNat % 16 = 0 := by
    rw [← BitVec.toNat_inj, BitVec.truncate_eq_setWidth, BitVec.toNat_setWidth]; rfl
  have share : csrValue (csrWrite 0x01B v s) 0x01B = (if v.truncate 4 = (0 : BitVec 4) then 1 else v.truncate 4).zeroExtend 64 := rfl
  rw [share]
  by_cases h : v.toNat % 16 = 0
  · rw [if_pos h, if_pos (zero.mpr h)]; rfl
  · rw [if_neg h, if_neg fun e => h (zero.mp e)]
    exact zeroExtend_truncate (n := 4) (by decide) v

/-- A mask of the partition that `partsel` shows takes its bits until the L2 is released, and then none (R193). -/
theorem csrValue_csrWrite_mask {s : State} (hm : sparseWf 0 s.lines.masks = true) {c : BitVec 12} (h : 0x201 ≤ c.toNat ∧ c.toNat ≤ 0x208) (v : Word) :
    (s.lines.released = false → csrValue (csrWrite c v s) c = v &&& 0xFFFFFFFFFF80) ∧ (s.lines.released = true → csrWrite c v s = s) := by
  refine ⟨fun open_ => ?_, fun released => ?_⟩
  · rw [csrWrite_mask h, open_, if_neg Bool.false_ne_true, csrValue_mask h]
    show sget 0 (sset 0 s.lines.masks (maskKey s _) _) (maskKey s _) = _
    rw [sget_sset _ _ _ _ _ hm, if_pos rfl, maskWord_eq]
  · rw [csrWrite_mask h, released, if_pos rfl]

theorem csrReadBack : Claims.CsrReadBack := by
  intro s c v canon
  refine ⟨fun m h => csrValue_csrWrite_bits canon.cores h v, fun h => csrWrite_readOnly h v s, rfl, csrValue_csrWrite_vshare v s, fun k => ?_,
    fun c' h hp => csrValue_csrWrite_of_ne canon.cores canon.masks v h hp, csrWrite_frame c v s⟩
  have number : (BitVec.ofNat 12 (0x201 + k.val)).toNat = 0x201 + k.val := by rw [BitVec.toNat_ofNat]; omega
  exact csrValue_csrWrite_mask canon.masks (by omega) v

/-- Settles O13: every register of Table 3.4 is read and written (`csrAccess`), and what a write leaves in it and in the others
(`csrReadBack`). -/
theorem csrForms : Obligations.CsrForms := by
  unfold Obligations.CsrForms
  exact ⟨csrAccess, csrReadBack⟩

end Sys2Proof.Machine
end

section
/-! SUPPORT. A slice whose tags name the entries of the vat before they are given: a write of a line takes one more entry each time, and
is held once the slice has none left (R202, R204). -/

namespace Sys2Proof.Machine

/-! ## The form of such a slice -/

/-- The names of entries that are kept in use. -/
def aliased : Nat := 8200

/-- A pinned tag, of no line's address, that names entry j. -/
def aliasTag (j : Nat) : L2Tag := { line := 1, entry := some j, pin := some 0 }

/-- Line k of the frames of the page at 2^26. -/
def frameLine (k : Nat) : Nat := 2 ^ 26 + 128 * k

/-- Every line is homed in one slice, where every tag is pinned: an alias names each vat entry there, and each of those that come next,
and the lines of a frame are held too. -/
structure Clogged (l : Lines) : Prop where
  masks   : l.masks = []
  aliases : ∀ j, j < aliased → aliasTag j ∈ l.tags
  named   : ∀ t ∈ l.tags, t.pin ≠ none ∧ ∃ e < aliased, t.entry = some e
  framed  : ∀ k, k < 2304 → ∃ t ∈ l.tags, t.line = frameLine k
  vat     : ∀ v ∈ l.vat, v.1 < aliased ∧ v.2.die = 0 ∧ v.2.slice = 0
  next    : l.nextVat + 57344 = l.vat.length
  full    : l.vat.length ≤ Config.vatEntries

/-- From l to m the slice stays so, and n of its vat entries are taken. -/
def Takes (l m : Lines) (n : Nat) : Prop := Clogged m ∧ m.vat.length = l.vat.length + n

/-! ## Lookups -/

theorem hashBit_zero {s : State} (h : s.lines.masks = []) (a k : Nat) : hashBit s a k = 0 := by
  unfold hashBit
  rw [h]
  simp [sget, popCount]

theorem Clogged.homeSlice {s : State} (h : Clogged s.lines) (a : Nat) : homeSlice s a = 0 := by
  simp [Machine.homeSlice, hashBit_zero h.masks]

theorem Clogged.homeDie {s : State} (h : Clogged s.lines) (a : Nat) : homeDie s a = 0 := by
  simp [Machine.homeDie, hashBit_zero h.masks]

/-- All of the vat is in the line's slice. -/
theorem Clogged.entriesOf {s : State} (h : Clogged s.lines) (a : Nat) : entriesOf s a = s.lines.vat.length := by
  unfold Machine.entriesOf
  rw [h.homeDie, h.homeSlice, List.filter_eq_self.mpr fun v hv => decide_eq_true (h.vat v hv).2]

/-- An entry that a line's tag names is named by an alias too. -/
theorem Clogged.shared {s : State} (h : Clogged s.lines) {t : L2Tag} (ht : t ∈ s.lines.tags) (hl : t.line ≠ 1) {e : Nat} (he : t.entry = some e) :
    1 < entryCount s e := by
  obtain ⟨-, e', lt, he'⟩ := h.named t ht
  have own : t ∈ (s.lines.tags.filter fun t => t.entry = some e).toFinset := by simp [ht, he]
  have alias_ : aliasTag e ∈ (s.lines.tags.filter fun t => t.entry = some e).toFinset := by
    obtain rfl : e' = e := Option.some.inj (he'.symm.trans he)
    simp only [List.mem_toFinset, List.mem_filter]
    exact ⟨h.aliases e' lt, by simp [aliasTag]⟩
  have two := Finset.one_lt_card.mpr ⟨t, own, aliasTag e, alias_, fun eq => hl (by rw [eq]; rfl)⟩
  exact two.trans_le (List.toFinset_card_le _)

/-- No vat entry is free. -/
theorem Clogged.freeEntries {s : State} (h : Clogged s.lines) : freeEntries s = s := by
  have used : (s.lines.vat.filter fun e => decide (0 < entryCount s e.1)) = s.lines.vat :=
    List.filter_eq_self.mpr fun v hv => decide_eq_true (List.length_pos_of_mem
      (List.mem_filter.mpr ⟨h.aliases v.1 (h.vat v hv).1, decide_eq_true rfl⟩))
  unfold Machine.freeEntries
  rw [used]

/-- Nothing can leave the slice. -/
theorem Clogged.makeRoom {s : State} (h : Clogged s.lines) (a : Nat) : makeRoom s a = s := by
  have kept (b : Nat) (l : List Nat) : victim s b l = none := by
    have none_left : ((sliceTags s b).filter fun t => t.line ≠ b ∧ t.pin = none ∧ t.line ∉ l) = [] :=
      List.filter_eq_nil_iff.mpr fun t ht => by
        have pinned := (h.named t (List.mem_filter.mp ht).1).1
        simp [pinned]
    unfold victim
    rw [none_left, leaving, List.drop_nil]
    rfl
  unfold Machine.makeRoom
  cases s.lines.tags.length with
  | zero => rfl
  | succ n =>
    unfold evictUntil
    rw [kept]
    simp

theorem frameLine_ne_one (k : Nat) : frameLine k ≠ 1 := by unfold frameLine; omega

theorem Clogged.findTag {s : State} (h : Clogged s.lines) {k : Nat} (hk : k < 2304) :
    ∃ t e, findTag s (frameLine k) = some t ∧ t ∈ s.lines.tags ∧ t.line = frameLine k ∧ t.pin ≠ none ∧ t.entry = some e ∧ 1 < entryCount s e := by
  obtain ⟨u, hu, hl⟩ := h.framed k hk
  have found : (Machine.findTag s (frameLine k)).isSome := List.find?_isSome.mpr ⟨u, hu, by simp [hl]⟩
  obtain ⟨t, ht⟩ := Option.isSome_iff_exists.mp found
  have mem := List.mem_of_find?_eq_some ht
  have line : t.line = frameLine k := by simpa using List.find?_some ht
  obtain ⟨pinned, e, -, he⟩ := h.named t mem
  exact ⟨t, e, ht, mem, line, pinned, he, h.shared mem (line ▸ frameLine_ne_one k) he⟩

/-- A write of the frame's line is held where no entry is left. -/
theorem Clogged.writeHeld {s : State} (h : Clogged s.lines) {k : Nat} (hk : k < 2304) :
    writeHeld s (frameLine k) = ! decide (s.lines.vat.length < Config.vatEntries) := by
  obtain ⟨t, e, ht, -, -, -, he, two⟩ := h.findTag hk
  have alone : holdsAlone s (frameLine k) = false := by
    unfold holdsAlone
    rw [ht, Option.bind_some, he]
    exact decide_eq_false two.ne'
  rw [Machine.writeHeld, h.makeRoom, entryReady, h.entriesOf, alone, Bool.or_false]

/-! ## A write takes an entry -/

/-- A tag of the frame's line is given the next entry. -/
theorem Clogged.newEntry {s : State} (h : Clogged s.lines) {u : L2Tag} {k : Nat} (hk : k < 2304) (hu : u.line = frameLine k) (hp : u.pin ≠ none)
    (room : s.lines.vat.length < Config.vatEntries) (poison : Bool) : Takes s.lines (newEntry s u poison).lines 1 := by
  have few : s.lines.nextVat < aliased := by have := h.next; simp only [Config.vatEntries, aliased] at *; omega
  obtain ⟨w, hw, hl⟩ := h.framed k hk
  have held : (s.lines.tags.any fun t => t.line = u.line) = true := List.any_eq_true.mpr ⟨w, hw, by simp [hl, hu]⟩
  have kept {t : L2Tag} (ht : t ∈ s.lines.tags) (hn : t.line ≠ u.line) :
      t ∈ s.lines.tags.map fun t => if t.line = u.line then { u with entry := some s.lines.nextVat } else t :=
    List.mem_map.mpr ⟨t, ht, if_neg hn⟩
  have taken : Clogged (putTag { s with lines := { s.lines with nextVat := s.lines.nextVat + 1, vat := s.lines.vat ++ [(s.lines.nextVat,
      ({ die := Machine.homeDie s u.line, slice := Machine.homeSlice s u.line, domain := u.domain, poison := poison } : VatEntry))] } }
      { u with entry := some s.lines.nextVat }).lines := by
    unfold putTag
    dsimp only
    rw [if_pos held]
    constructor
    case masks => exact h.masks
    case aliases => exact fun j hj => kept (h.aliases j hj) (hu ▸ (frameLine_ne_one k).symm)
    case named =>
      intro t ht
      obtain ⟨v, hv, rfl⟩ := List.mem_map.mp ht
      split
      · exact ⟨hp, _, few, rfl⟩
      · exact h.named v hv
    case framed =>
      intro i hi
      obtain ⟨v, hv, hvl⟩ := h.framed i hi
      refine ⟨_, List.mem_map.mpr ⟨v, hv, rfl⟩, ?_⟩
      split
      next same => exact same.symm.trans hvl
      next => exact hvl
    case vat =>
      intro v hv
      rcases List.mem_append.mp hv with hv | hv
      · exact h.vat v hv
      · obtain rfl := List.mem_singleton.mp hv
        exact ⟨few, h.homeDie _, h.homeSlice _⟩
    case next => have := h.next; simp only [List.length_append, List.length_singleton]; omega
    case full => simpa using room
  unfold Machine.newEntry
  rw [if_pos (by rw [h.entriesOf]; exact room)]
  dsimp only
  rw [Clogged.freeEntries taken]
  exact ⟨taken, by simp [putTag]⟩

/-- The line's other copies of its data, and the counters, are not looked at. -/
theorem Clogged.of_eq {l m : Lines} (h : Clogged l) (hm : m.masks = l.masks) (ht : m.tags = l.tags) (hv : m.vat = l.vat)
    (hn : m.nextVat = l.nextVat) : Clogged m := by
  obtain ⟨masks, aliases, named, framed, vat, next, full⟩ := h
  exact ⟨hm ▸ masks, ht ▸ aliases, ht ▸ named, ht ▸ framed, hv ▸ vat, hv ▸ hn ▸ next, hv ▸ full⟩

theorem Clogged.prepareWrite {s : State} (h : Clogged s.lines) {k : Nat} (hk : k < 2304) (room : s.lines.vat.length < Config.vatEntries) :
    Takes s.lines (prepareWrite s (frameLine k)).lines 1 := by
  unfold Machine.prepareWrite
  rw [h.makeRoom]
  dsimp only
  generalize hc : ({ s with lines := { s.lines with rdc := s.lines.rdc.filter fun r => r.2 ≠ frameLine k } } : State) = c
  have clean : Clogged c.lines := by subst hc; exact h.of_eq rfl rfl rfl rfl
  have same : c.lines.vat = s.lines.vat := by subst hc; rfl
  obtain ⟨t, e, ht, -, line, pinned, he, two⟩ := clean.findTag hk
  rw [ht]
  dsimp only
  rw [he]
  dsimp only
  rw [if_pos two]
  obtain ⟨clogged, more⟩ := clean.newEntry (u := { t with dirty := some (t.dirty.getD (lineData c (frameLine k))), sharers := 0 })
    hk line pinned (same ▸ room) (entryPoison c (frameLine k))
  exact ⟨clogged.of_eq rfl rfl rfl rfl, same ▸ more⟩

theorem clearEntryPoison_takes {s : State} {l : Lines} {n : Nat} (h : Takes l s.lines n) (a : Nat) : Takes l (clearEntryPoison s a).lines n := by
  obtain ⟨⟨masks, aliases, named, framed, vat, next, full⟩, more⟩ := h
  unfold clearEntryPoison
  split
  · refine ⟨⟨masks, aliases, named, framed, fun v hv => ?_, by simpa using next, by simpa using full⟩, by simpa using more⟩
    obtain ⟨w, hw, rfl⟩ := List.mem_map.mp hv
    have home := vat w hw
    split <;> exact home
  · exact ⟨⟨masks, aliases, named, framed, vat, next, full⟩, more⟩

@[simp] theorem setStrand_lines (s : State) (n : Nat) (t : Strand) : (setStrand s n t).lines = s.lines := by unfold setStrand; split <;> rfl

theorem wakeLine_lines (s : State) (a : Nat) : (wakeLine s a).lines = s.lines := by
  unfold wakeLine
  split
  · exact foldl_keeps State.lines (fun s n => setStrand_lines s n _) _ _
  · rfl

theorem Clogged.writeLine {s : State} (h : Clogged s.lines) {k : Nat} (hk : k < 2304) (room : s.lines.vat.length < Config.vatEntries)
    (ps : List (Nat × List Byte)) : Takes s.lines (writeLine s (frameLine k) ps).lines 1 := by
  have ready := h.prepareWrite hk room
  unfold Machine.writeLine
  dsimp only
  rw [wakeLine_lines]
  dsimp only
  split
  · exact clearEntryPoison_takes (by rw [clearPoison_lines]; exact ready) _
  · exact ready

/-- A write of a line of a frame, which the slice holds. -/
theorem Clogged.homeWrite {s : State} (h : Clogged s.lines) {a k : Nat} (hk : k < 2304) (ha : lineOf a = frameLine k)
    (room : s.lines.vat.length < Config.vatEntries) (bs : List Byte) (dedup : Bool) (dom : BitVec 8) :
    Takes s.lines (homeWrite s a bs dedup dom).lines 1 := by
  obtain ⟨t, -, ht, -⟩ := h.findTag hk
  have counted : Clogged (countL2 s (Machine.homeDie s (frameLine k)) 0 1).lines := h.of_eq rfl rfl rfl rfl
  have filled : homeFill s (frameLine k) dedup dom = countL2 s (Machine.homeDie s (frameLine k)) 0 1 := by
    have found : Machine.findTag (countL2 s (Machine.homeDie s (frameLine k)) 0 1) (frameLine k) = some t := ht
    unfold homeFill
    dsimp only
    rw [found]
  rw [Machine.homeWrite, ha, homePatch, if_neg (by simp [ht]), filled]
  exact counted.writeLine hk room _

end Sys2Proof.Machine
end

section
/-! A save of a frame of many pieces into such a slice (FRAME_SAVE: R49, R58, R59). -/

namespace Sys2Proof.Machine

/-! ## The pieces of a frame -/

/-- A piece is of one line, and of the bytes there are. -/
def Piece (va n : Nat) (p : Nat × Nat) : Prop := 0 < p.2 ∧ (va + p.1) % 128 + p.2 ≤ 128 ∧ p.1 + p.2 ≤ n

theorem linePieces_piece (fuel va o n : Nat) : ∀ p ∈ linePieces fuel va o n, Piece va n p := by
  induction fuel generalizing o with
  | zero => exact fun p hp => absurd hp List.not_mem_nil
  | succ fuel ih =>
    intro p hp
    unfold linePieces at hp
    split at hp
    · exact absurd hp List.not_mem_nil
    · rcases List.mem_cons.mp hp with rfl | hp
      · unfold Piece; dsimp only; omega
      · exact ih _ p hp

/-- No piece is of more than 128 bytes. -/
theorem le_length_linePieces {fuel k va o n : Nat} (hf : k ≤ fuel) (hn : o + 128 * k < n + 128) : k ≤ (linePieces fuel va o n).length := by
  induction fuel generalizing k o with
  | zero => omega
  | succ fuel ih =>
    cases k with
    | zero => exact Nat.zero_le _
    | succ k =>
      unfold linePieces
      rw [if_neg (by omega)]
      exact Nat.succ_le_succ (ih (by omega) (by omega))

/-! ## Their writes -/

/-- A large page at 2^26 of context 1, from virtual address 0. -/
def framePage : TlbEntry :=
  { ctx := 1, vpage := 0, large := true, base := 2 ^ 26, r := true, w := true, p := false, dedup := false, comp := false, tier := 0, moving := false }

/-- Core 0 reaches that page, in a slice that fills up; every die is up. -/
structure Filling (s : State) : Prop where
  clogged : Clogged s.lines
  mapped  : (getCore s 0).tlb = [framePage]
  up      : ∀ d : Fin 4, s.daleel.dies[d.val] = .up

/-- Pieces are written, each of which takes an entry, or a write is held. -/
def Writes (s : State) (n : Nat) (r : Except Stop Unit × State) : Prop :=
  (r.1 = .ok () ∧ Filling r.2 ∧ r.2.lines.vat.length = s.lines.vat.length + n) ∨ r.1 = .error .again

theorem Writes.nothing {s : State} (h : Filling s) : Writes s 0 (.ok (), s) := .inl ⟨rfl, h, rfl⟩

/-- Entries that have been taken before count too. -/
theorem Writes.after {s u : State} {m n : Nat} {r : Except Stop Unit × State} (more : u.lines.vat.length = s.lines.vat.length + m) (h : Writes u n r) :
    Writes s (m + n) r := by
  rcases h with ⟨ok, fills, more'⟩ | held
  · exact .inl ⟨ok, fills, by omega⟩
  · exact .inr held

theorem Writes.bind {s : State} {m n : Nat} {a : Act Unit} {k : Unit → Act Unit} (ha : Writes s m (Act.on a s))
    (hk : ∀ u, Filling u → Writes u n (Act.on (k ()) u)) : Writes s (m + n) (Act.on (a >>= k) s) := by
  generalize hr : Act.on a s = r at ha
  obtain ⟨x, u⟩ := r
  rcases ha with ⟨rfl, fills, more⟩ | rfl
  · rw [on_bind_ok hr]
    exact (hk u fills).after more
  · rw [on_bind_error hr]
    exact .inr rfl

/-- The page answers for the frame's addresses. -/
theorem on_frameAt {s : State} (h : Filling s) {va : VAddr} (hv : va.toNat < 2 ^ 26) :
    Act.on (frameAt .store 0 1 va) s = (.ok (framePage, 2 ^ 26 + va.toNat), s) := by
  have found : (getCore s 0).tlb.find? (fun e => e.maps 1 va.toNat) = some framePage := by
    rw [h.mapped, List.find?_cons_of_pos]
    exact decide_eq_true ⟨rfl, Nat.zero_le _, by simpa [framePage, TlbEntry.size] using hv⟩
  have page : Act.on (pageFrom va (translateAt .device 0 1 va.toNat)) s = (.ok framePage, s) := by
    unfold pageFrom
    rw [on_bind, on_lift]
    unfold translateAt
    rw [found]
    rfl
  have answers : homeInReset s (framePage.key va.toNat) = false := by
    unfold homeInReset
    simp only [h.up]
    simp
  unfold frameAt
  rw [on_bind_ok page, if_neg (by decide)]
  dsimp only
  rw [if_neg (by decide), on_bind_ok (on_get s), answers]
  rfl

theorem isLine_frame {x : Nat} (hx : x < 2 ^ 26) : isLine (2 ^ 26 + x) = true := by
  refine decide_eq_true (.inl ?_)
  simp only [Config.gddrEnd]
  omega

theorem isSpad_frame {x : Nat} (hx : x < 2 ^ 26) : isSpad (2 ^ 26 + x) = false := by
  refine decide_eq_false ?_
  simp only [Config.spadBase]
  omega

theorem lineOf_frame (x : Nat) : lineOf (2 ^ 26 + x) = frameLine (x / 128) := by unfold lineOf frameLine; omega

/-- A write in the frame is held by its slice alone. -/
theorem heldBy_frame {s : State} (h : Clogged s.lines) {x : Nat} (hx : x < 0x48000) :
    heldBy s framePage (2 ^ 26 + x) = ! decide (s.lines.vat.length < Config.vatEntries) := by
  have low : decide (Config.compBase ≤ 2 ^ 26 + x) = false := decide_eq_false (by simp only [Config.compBase]; omega)
  unfold heldBy
  rw [low, isLine_frame (by omega), lineOf_frame, h.writeHeld (by omega)]
  rfl

/-- A piece of the frame takes an entry of its slice. -/
theorem Filling.physWrite {s : State} (h : Filling s) {x : Nat} {bs : List Byte} (hb : bs ≠ []) (hl : x % 128 + bs.length ≤ 128) (hx : x < 0x48000)
    (room : s.lines.vat.length < Config.vatEntries) (n : Nat) (dom : BitVec 8) :
    Filling (physWrite (n + 1) s (2 ^ 26 + x) bs false dom) ∧
      (physWrite (n + 1) s (2 ^ 26 + x) bs false dom).lines.vat.length = s.lines.vat.length + 1 := by
  obtain ⟨clogged, more⟩ := h.clogged.homeWrite (by omega) (lineOf_frame x) room bs false dom
  rw [physWrite_line (isSpad_frame (by omega)) hb (by omega)]
  refine ⟨⟨clogged, ?_, fun d => ?_⟩, more⟩
  · rw [getCore, homeWrite_cores]
    exact h.mapped
  · rw [homeWrite, (homePatch_leaves s _ _ false dom).daleel]
    exact h.up d

theorem writes_frameWrite {va : VAddr} {bs : List Byte} (hv : va.toNat + bs.length ≤ 0x48000) (ps : List (Nat × Nat))
    (hp : ∀ p ∈ ps, Piece va.toNat bs.length p) (s : State) (h : Filling s) : Writes s ps.length (Act.on (frameWrite 0 1 va bs ps) s) := by
  induction ps generalizing s with
  | nil => exact .nothing h
  | cons p ps ih =>
    obtain ⟨o, n⟩ := p
    obtain ⟨pos, line, fits⟩ : Piece va.toNat bs.length (o, n) := hp _ List.mem_cons_self
    dsimp only at pos line fits
    have at_ : (va + BitVec.ofNat 48 o).toNat = va.toNat + o := by
      rw [BitVec.toNat_add, BitVec.toNat_ofNat, Nat.mod_eq_of_lt (a := o) (by omega), Nat.mod_eq_of_lt (by omega)]
    unfold frameWrite
    dsimp only
    rw [on_bind_ok (on_frameAt h (by omega)), at_]
    dsimp only
    rw [on_bind_ok (on_get s), heldBy_frame h.clogged (by omega)]
    by_cases room : s.lines.vat.length < Config.vatEntries
    · have size : ((bs.drop o).take n).length = n := by simp; omega
      obtain ⟨fills, more⟩ := h.physWrite (x := va.toNat + o) (bs := (bs.drop o).take n) (List.ne_nil_of_length_pos (by omega)) (by omega) (by omega) room n (ctxDomain s 1)
      rw [decide_eq_true room, List.length_cons, Nat.add_comm]
      exact (ih (fun q hq => hp q (List.mem_cons_of_mem _ hq)) _ fills).after more
    · rw [decide_eq_false room]
      exact .inr rfl

/-- The pieces of a part of a frame at 0. -/
def piecesOf (p : Nat × List Byte) : Nat := (framePieces (0 + BitVec.ofNat 48 p.1) p.2.length).length

theorem writes_writeParts (ps : List (Nat × List Byte)) (hp : ∀ p ∈ ps, p.1 + p.2.length ≤ 0x48000) (s : State) (h : Filling s) :
    Writes s (ps.map piecesOf).sum (Act.on (writeParts 0 1 0 ps) s) := by
  induction ps generalizing s with
  | nil => exact .nothing h
  | cons p ps ih =>
    have fits := hp p List.mem_cons_self
    have at_ : ((0 : VAddr) + BitVec.ofNat 48 p.1).toNat = p.1 := by
      rw [zero_add, BitVec.toNat_ofNat, Nat.mod_eq_of_lt (by omega)]
    rw [List.map_cons, List.sum_cons]
    exact (writes_frameWrite (by omega) _ (linePieces_piece _ _ _ _) s h).bind fun u hu => ih (fun q hq => hp q (List.mem_cons_of_mem _ hq)) u hu

/-- More pieces than there are entries left: a write is held. -/
theorem on_writeFrame_held {s : State} (h : Filling s) {n : Nat} {t : Strand} (hc : coreOf n = 0) (hx : t.ctx = 1)
    (hp : ∀ p ∈ frameParts n t, p.1 + p.2.length ≤ 0x48000)
    (many : Config.vatEntries < s.lines.vat.length + ((frameParts n t).map piecesOf).sum) : (Act.on (writeFrame n t 0) s).1 = .error .again := by
  have parts := writes_writeParts (frameParts n t) hp s h
  generalize hr : Act.on (writeParts 0 1 0 (frameParts n t)) s = r at parts
  obtain ⟨x, u⟩ := r
  unfold writeFrame
  rw [hc, hx]
  rcases parts with ⟨-, fills, more⟩ | rfl
  · have := fills.clogged.full
    omega
  · rw [on_bind_error hr]

/-! ## The save that waits -/

theorem exec_frameSave (n : Fin 4096) (s : State) : exec (.frameSave n) s = execFrameSave n s := by rfl

theorem reportHeld_active (s : State) (pa : Nat) : (reportHeld s pa).lp.active = s.lp.active := by
  unfold reportHeld
  dsimp only
  split
  · rfl
  split
  · rfl
  · exact (postEvent_leaves _ _ _ _ _ _).active

/-- An event that cannot be whole leaves the STATEs of contexts as they are. -/
theorem wholeEvent_held {a : Act Unit} {s : State} {e : Stop} (h : (Act.on a s).1 = .error e) :
    ∃ u, wholeEvent a s = .next u ∧ u.lp.active = s.lp.active := by
  generalize hr : Act.on a s = r at h
  obtain ⟨x, u⟩ := r
  obtain rfl : x = .error e := h
  refine ⟨_, by rw [wholeEvent, hr], ?_⟩
  exact foldl_keeps (fun s : State => s.lp.active) reportHeld_active _ _

theorem descCheck_sound {s : State} {c : BitVec 12} (h : linePoisoned s (descAddr s c) = false) : descCheck s c = s := by
  unfold descCheck
  rw [if_neg (by simp [h])]

/-- A save whose frame cannot be written does not happen. -/
theorem on_saveStrand_held {s : State} {n : Nat} {t : Strand} (ht : getStrand s n = t) (hr : t.resident = true) (hc : ctxState s t.ctx = 3)
    (hs : linePoisoned s (descAddr s t.ctx) = false) (ready : saveReady s n = true)
    (held : (Act.on (writeFrame n t (frameVa s t.ctx t.frame)) s).1 = .error .again) : (Act.on (saveStrand n) s).1 = .error .again := by
  generalize hw : Act.on (writeFrame n t (frameVa s t.ctx t.frame)) s = r at held
  obtain ⟨x, u⟩ := r
  obtain rfl : x = .error .again := held
  have frame : Act.on (frameError t.ctx (frameVa s t.ctx t.frame) (writeFrame n t (frameVa s t.ctx t.frame))) s = (.error .again, u) := by
    unfold frameError
    rw [on_bind_ok (on_get s), hw]
    rfl
  unfold saveStrand
  rw [on_bind_ok (on_get s), on_bind_ok (on_get s), ht, if_pos hc]
  rw [on_bind_ok (on_apply _ s)]
  dsimp only
  rw [ht, descCheck_sound hs, on_bind_ok (on_get s), ht, if_pos ⟨hr, hc, ready⟩, on_bind_error frame]

end Sys2Proof.Machine
end

section
/-! FRAME_SAVE is refuted: the save of a frame of more pieces than its slice has vat entries left for waits without end. -/

namespace Sys2Proof.Machine

/-! ## A strand whose frame is of more than 8,192 pieces -/

/-- A strand of context 1 whose masks are of 131,073 bytes each in its frame, where they lie over each other. -/
def wideStrand : Strand := { resident := true, ctx := 1, csr := { vlmax := 8 * 131073 } }

theorem maskBytes_wide : maskBytes wideStrand = 131073 := by decide
theorem savedExt_wide (i : Fin 32) : savedExt wideStrand i = 0 := if_neg (by simp [wideStrand])
theorem regSize_wide : regSize wideStrand = 0 := by decide
theorem accRuns_wide : accRuns wideStrand = [] := by decide
theorem cleanTiles_wide : cleanTiles wideStrand = [] := by decide

/-- The masks of its frame. -/
def wideMasks : List (Nat × List Byte) := (List.finRange 8).map fun k => (0x2000 + k.val * 0x800, natToBytes 131073 wideStrand.m[k.val].toNat)

/-- Its frame is the masks, six parts that precede them, and empty ones that follow. -/
theorem frameParts_wide : ∃ head tail, frameParts 0 wideStrand = head ++ wideMasks ++ tail ∧ (∀ p ∈ head, p.1 + p.2.length ≤ 0x48000) ∧
    ∀ p ∈ tail, p.1 + p.2.length ≤ 0x48000 := by
  unfold frameParts
  rw [maskBytes_wide, accRuns_wide, cleanTiles_wide]
  dsimp only
  rw [List.map_nil, List.append_nil, List.map_nil, List.append_nil]
  refine ⟨_, _, rfl, ?_, fun p hp => ?_⟩
  · have viq : wideStrand.viq = [] := rfl
    simp only [List.forall_mem_cons, viq, List.length_append, List.length_map, List.length_flatMap, List.length_tail,
      Vector.length_toList, natToBytes_length, streamBytes, List.length_replicate, List.map_const', List.sum_replicate, List.length_range,
      List.length_finRange, List.flatMap_nil, List.length_nil, smul_eq_mul]
    decide
  obtain ⟨i, -, rfl⟩ := List.mem_map.mp hp
  simp [savedExt_wide, regSize_wide]

theorem frameParts_wide_fit : ∀ p ∈ frameParts 0 wideStrand, p.1 + p.2.length ≤ 0x48000 := by
  obtain ⟨head, tail, parts, hh, ht⟩ := frameParts_wide
  intro p hp
  rw [parts, List.mem_append, List.mem_append] at hp
  rcases hp with (hp | hp) | hp
  · exact hh p hp
  · obtain ⟨k, -, rfl⟩ := List.mem_map.mp hp
    dsimp only
    rw [natToBytes_length]
    omega
  · exact ht p hp

theorem pieces_wide : 8192 < ((frameParts 0 wideStrand).map piecesOf).sum := by
  obtain ⟨head, tail, parts, -, -⟩ := frameParts_wide
  have mask (k : Fin 8) : 1025 ≤ piecesOf (0x2000 + k.val * 0x800, natToBytes 131073 wideStrand.m[k.val].toNat) := by
    unfold piecesOf framePieces
    rw [natToBytes_length]
    exact le_length_linePieces (by omega) (by omega)
  have masks := List.card_nsmul_le_sum (wideMasks.map piecesOf) 1025 (by
    intro n hn
    obtain ⟨p, hp, rfl⟩ := List.mem_map.mp hn
    obtain ⟨k, -, rfl⟩ := List.mem_map.mp hp
    exact mask k)
  have eight : (wideMasks.map piecesOf).length = 8 := by simp [wideMasks]
  rw [eight] at masks
  rw [parts, List.map_append, List.map_append, List.sum_append, List.sum_append]
  simp only [smul_eq_mul] at masks
  omega

/-! ## The machine -/

/-- A tag of the frame's line k. -/
def frameTag (k : Nat) : L2Tag := { line := frameLine k, entry := some 0, pin := some 0 }

/-- The L2 with 8,192 vat entries left, and as many tags, whose entries tags name already. -/
def cloggedLines : Lines :=
  { tags := (List.range aliased).map aliasTag ++ (List.range 2304).map frameTag
    vat := List.replicate 57344 (0, { die := 0, slice := 0, domain := 0 })
    tlb := [(0, framePage)] }

/-- The strand is in SAVING, with frame 0, on core 0. -/
def cloggedMachine : State :=
  { State.reset with
    st := wideStrand
    cores := [(0, { tlb := [framePage] })]
    lp := { active := [(1, 3)] }
    lines := cloggedLines
    daleel := { State.reset.daleel with dies := Vector.replicate 4 .up } }

theorem clogged_cloggedLines : Clogged cloggedLines where
  masks := rfl
  aliases j hj := List.mem_append_left _ (List.mem_map.mpr ⟨j, List.mem_range.mpr hj, rfl⟩)
  named t ht := by
    rcases List.mem_append.mp ht with ht | ht
    · obtain ⟨j, hj, rfl⟩ := List.mem_map.mp ht
      exact ⟨by simp [aliasTag], j, List.mem_range.mp hj, rfl⟩
    · obtain ⟨k, -, rfl⟩ := List.mem_map.mp ht
      exact ⟨by simp [frameTag], 0, by decide, rfl⟩
  framed k hk := ⟨frameTag k, List.mem_append_right _ (List.mem_map.mpr ⟨k, List.mem_range.mpr hk, rfl⟩), rfl⟩
  vat v hv := by
    obtain rfl := (List.mem_replicate.mp hv).2
    exact ⟨by decide, rfl, rfl⟩
  next := by rw [cloggedLines, List.length_replicate]
  full := by rw [cloggedLines, List.length_replicate]; decide

theorem filling_cloggedMachine : Filling cloggedMachine where
  clogged := clogged_cloggedLines
  mapped := rfl
  up := by decide

/-- Nothing is poisoned. -/
theorem linePoisoned_cloggedMachine (a : Nat) : linePoisoned cloggedMachine a = false := by
  have words : poisonedIn cloggedMachine a 128 = false := rfl
  have entry : entryPoison cloggedMachine a = false := by
    unfold entryPoison
    split
    · refine List.any_eq_false.mpr fun v hv => ?_
      obtain rfl := (List.mem_replicate.mp hv).2
      simp
    · rfl
  rw [linePoisoned, words, entry]
  rfl

theorem canonical_cloggedMachine : Claims.Canonical cloggedMachine := by
  constructor <;> decide

theorem device_cloggedMachine : Claims.Device cloggedMachine 1 framePage 8192 where
  tlb := rfl
  ctx := rfl
  allowed := by decide
  place := .inl (by decide)
  whole := by decide
  sound := ⟨rfl, rfl, rfl, fun v hv => by obtain rfl := (List.mem_replicate.mp hv).2; rfl⟩
  up := by decide
  noLog t ht := .inr (by
    rcases List.mem_append.mp ht with ht | ht
    · obtain ⟨j, -, rfl⟩ := List.mem_map.mp ht
      rfl
    · obtain ⟨k, -, rfl⟩ := List.mem_map.mp ht
      rfl)
  quiet := rfl
  room := by
    constructor
    · exact (congrArg (· + 8192) List.length_replicate).trans_le (by decide)
    · simp only [cloggedMachine, cloggedLines, List.length_append, List.length_map, List.length_range]
      decide
  usable := by
    unfold ctxUsable
    rw [linePoisoned_cloggedMachine]
    decide
  table := by decide
  apart := .inr (by decide)

theorem frameSpace_cloggedMachine : Claims.FrameSpace cloggedMachine framePage 0 where
  device := device_cloggedMachine
  core := rfl
  tier := rfl
  inside := by unfold Claims.Inside; decide
  home := by decide

/-- The save waits. -/
theorem exec_frameSave_cloggedMachine : ∃ u, exec (.frameSave 0) cloggedMachine = .next u ∧ ctxState u 1 = 3 := by
  have state : ctxState cloggedMachine 1 = 3 := by decide
  have va : frameVa cloggedMachine 1 0 = 0 := by decide
  have many : Config.vatEntries < cloggedMachine.lines.vat.length + ((frameParts 0 wideStrand).map piecesOf).sum := by
    have left : cloggedMachine.lines.vat.length = 57344 := List.length_replicate
    have := pieces_wide
    rw [left, Config.vatEntries]
    omega
  have held := on_writeFrame_held filling_cloggedMachine rfl rfl frameParts_wide_fit many
  rw [← va] at held
  obtain ⟨u, step, same⟩ := wholeEvent_held (on_saveStrand_held (t := wideStrand) rfl rfl state (linePoisoned_cloggedMachine _) (by decide) held)
  exact ⟨u, (exec_frameSave 0 cloggedMachine).trans step, (ctxState_congr same 1).trans state⟩

/-- Refutes O44: the statement's room of 8,192 vat entries does not bound the writes of a frame. In `cloggedMachine`, which meets its
hypotheses, tags name the entries to come, so that each of the 8,200 and more writes of the frame takes one more: a write is held, and the
context stays in SAVING. (No run of the model from reset has been shown to reach such tags; FrameRestore is not refuted.) -/
theorem not_frames : ¬ Obligations.Frames := by
  unfold Obligations.Frames
  rintro ⟨save, -⟩
  have at_ : ctxFrBase cloggedMachine 1 + 0 * 0x48000 = 0 := by decide
  have space : Claims.FrameSpace cloggedMachine framePage (ctxFrBase cloggedMachine 1 + 0 * 0x48000) := at_ ▸ frameSpace_cloggedMachine
  obtain ⟨u, step, -, saved, -⟩ := (save cloggedMachine framePage canonical_cloggedMachine space rfl (by decide) rfl rfl rfl rfl rfl
    frameParts_wide_fit).1 rfl rfl rfl (by decide) rfl rfl
  obtain ⟨v, step', saving⟩ := exec_frameSave_cloggedMachine
  obtain rfl : v = u := Host.Outcome.next.inj (step'.symm.trans step)
  exact absurd (saved.symm.trans saving) (by decide)

end Sys2Proof.Machine
end

section
/-! UNIT_EVENTS is refuted by its part on the vector sequencer (R73, R75): a VCOMP passes all its elements through the lanes, also those below
`vstart`, so that one whose elements from `vstart` on fit in a strip may yet need two. -/

namespace Sys2Proof.Machine

/-! ## The machine -/

/-- A VCOMP of 256 elements. -/
def compressEntry : VEntry := { addr := 0x1000, vl := 256, instr := .vcomp 1 2, op0 := 0, op1 := 0 }

/-- Strand 0 has it at its head, with elements of 64 bits on a core with one lane group: 16 element groups, of which the last 8 lie from
`vstart` on. Its deficit of 1 at its next visit is one strip's. -/
def lateCompress : State :=
  { State.reset with
    daleel := { State.reset.daleel with dies := Vector.replicate 4 .up, stage := 4 }
    lp := { active := [(1, 2)] }
    cores := [(0, { disable := 0xE })]
    st := { resident := true, ctx := 1, deficit := -63, viq := [compressEntry]
            csr := { vcfg := w64 (4 * 2 ^ 16 + 32 * 2 ^ 4 + 3 * 2 ^ 2), vl := 256, vlmax := 512, vstart := 128 }
            v := Vector.replicate 32 { tag := 4 } } }

theorem canonical_lateCompress : Claims.Canonical lateCompress := by constructor <;> decide

theorem head_lateCompress : Claims.Head lateCompress compressEntry where
  viq := rfl
  live := by decide
  park := rfl
  up := by decide
  chain := rfl
  len := by decide
  whole := by decide
  sound := by decide

theorem oneStrip_lateCompress : Claims.OneStrip lateCompress 64 := by
  unfold Claims.OneStrip
  decide

theorem effectOf_lateCompress : ∃ f, Claims.effectOf lateCompress compressEntry.instr f := by
  have found : (Claims.permuteEffect lateCompress compressEntry.instr).isSome = true := by decide
  obtain ⟨f, hf⟩ := Option.isSome_iff_exists.mp found
  exact ⟨f, .inr (.inr (.inr (.inr (.inr (.inr (.inl hf))))))⟩

/-- The visit passes one strip and takes its deficit: the VCOMP has not completed. -/
theorem exec_stripIssue_lateCompress : ∃ u, exec (.stripIssue 0) lateCompress = .next u ∧ u.st.viq.length = 1 :=
  ⟨_, rfl, by decide +kernel⟩

/-- Refutes O46, by its part on STRIP_ISSUE: in `lateCompress` the elements of a VCOMP from `vstart` on fit in one strip, but the
instruction starts at element 0 whatever `vstart` is and needs two, of which the deficit lets one pass. (The other parts of the statement
are not refuted.) -/
theorem not_unitEvents : ¬ Obligations.UnitEvents := by
  unfold Obligations.UnitEvents
  rintro ⟨strips, -⟩
  obtain ⟨f, effect⟩ := effectOf_lateCompress
  obtain ⟨-, -, visit⟩ := strips lateCompress framePage 0 compressEntry ⟨false, [], 1, fun _ _ => 0, 8⟩ canonical_lateCompress
  obtain ⟨register, -⟩ := visit rfl head_lateCompress ⟨rfl, rfl⟩ (by decide)
  obtain ⟨t, step, -, state, -⟩ := register f effect oneStrip_lateCompress
  obtain ⟨u, step', waits⟩ := exec_stripIssue_lateCompress
  obtain rfl : u = t := Host.Outcome.next.inj (step'.symm.trans step)
  have done : u.st.viq = [] := congrArg Strand.viq state
  exact absurd waits (by rw [done]; decide)

end Sys2Proof.Machine
end
section
/-! SUPPORT. Reads and writes at the homes, where no eviction has a log to write: what the lookups of lines change of the machine, and what
they leave (R189, R201 to R206). -/

namespace Sys2Proof.Machine

/-! ## Lookups -/

/-- No uncorrectable error stands in memory, in an RDC or in a vat. -/
structure ErrorFree (s : State) : Prop where
  words : s.poison = []
  rdc   : s.lines.rdcBad = []
  vat   : ∀ v ∈ s.lines.vat, v.2.poison = false

/-- n lookups evict no line that a log would have to take: no such line is cached, or n more tags and vat entries are free. -/
def Fits (s : State) (n : Nat) : Prop :=
  Claims.NoLog s ∨ (s.lines.vat.length + n ≤ Config.vatEntries ∧ s.lines.tags.length + n ≤ Config.l2Tags)

/-- The lines l with the tags, the vat entries, the RDCs and the counters of k. -/
def Lines.tracking (l k : Lines) : Lines :=
  { l with tags := k.tags, vat := k.vat, nextVat := k.nextVat, rdc := k.rdc, rdcBad := k.rdcBad, counters := k.counters }

theorem Lines.tracking_trans {l k j : Lines} (a : k = l.tracking k) (b : j = k.tracking j) : j = l.tracking j :=
  calc j = k.tracking j := b
    _ = (l.tracking k).tracking j := by rw [← a]
    _ = l.tracking j := rfl

/-- From s to t lines have been looked up, evicted or un-shared: the tags and vat entries, the counters and the RDCs have changed, no error
and no line for a log has come up, and at most n more tags and n more vat entries are in use. -/
structure Looked (s t : State) (n : Nat) : Prop where
  same  : t = { s with lines := t.lines, poison := t.poison }
  lines : t.lines = s.lines.tracking t.lines
  noLog : Claims.NoLog s → Claims.NoLog t
  sound : ErrorFree s → ErrorFree t
  room  : t.lines.vat.length ≤ s.lines.vat.length + n
  tags  : t.lines.tags.length ≤ s.lines.tags.length + n

theorem Looked.refl (s : State) : Looked s s 0 := ⟨rfl, rfl, id, id, le_rfl, le_rfl⟩

theorem Looked.trans {s t u : State} {n m : Nat} (a : Looked s t n) (b : Looked t u m) : Looked s u (n + m) where
  same := by rw [b.same, a.same]
  lines := Lines.tracking_trans a.lines b.lines
  noLog h := b.noLog (a.noLog h)
  sound h := b.sound (a.sound h)
  room := by have := a.room; have := b.room; omega
  tags := by have := a.tags; have := b.tags; omega

theorem Looked.mono {s t : State} {n m : Nat} (a : Looked s t n) (h : n ≤ m) : Looked s t m :=
  { a with room := by have := a.room; omega, tags := by have := a.tags; omega }

theorem Fits.mono {s : State} {n m : Nat} (h : Fits s n) (le : m ≤ n) : Fits s m :=
  h.imp_right fun ⟨vat, tags⟩ => ⟨by omega, by omega⟩

theorem Looked.fits {s t : State} {n k : Nat} (a : Looked s t k) (h : Fits s (n + k)) : Fits t n :=
  h.imp a.noLog fun ⟨vat, tags⟩ => ⟨by have := a.room; omega, by have := a.tags; omega⟩

/-- Of a change of the lines alone. -/
theorem Looked.of_lines {s : State} {l : Lines} {n : Nat} (ht : l = s.lines.tracking l)
    (hn : Claims.NoLog s → ∀ t ∈ l.tags, t.line < Config.compBase ∨ t.dirty = none) (hr : s.lines.rdcBad = [] → l.rdcBad = [])
    (hv : (∀ v ∈ s.lines.vat, v.2.poison = false) → ∀ v ∈ l.vat, v.2.poison = false)
    (room : l.vat.length ≤ s.lines.vat.length + n) (tags : l.tags.length ≤ s.lines.tags.length + n) : Looked s { s with lines := l } n :=
  ⟨rfl, ht, hn, fun ⟨w, r, v⟩ => ⟨w, hr r, hv v⟩, room, tags⟩

/-- What such a change leaves as it was. -/
theorem Looked.cur {s t : State} {n : Nat} (a : Looked s t n) : t.cur = s.cur := by rw [a.same]
theorem Looked.st {s t : State} {n : Nat} (a : Looked s t n) : t.st = s.st := by rw [a.same]
theorem Looked.others {s t : State} {n : Nat} (a : Looked s t n) : t.others = s.others := by rw [a.same]
theorem Looked.cores {s t : State} {n : Nat} (a : Looked s t n) : t.cores = s.cores := by rw [a.same]
theorem Looked.mem {s t : State} {n : Nat} (a : Looked s t n) : t.mem = s.mem := by rw [a.same]
theorem Looked.lp {s t : State} {n : Nat} (a : Looked s t n) : t.lp = s.lp := by rw [a.same]
theorem Looked.ev {s t : State} {n : Nat} (a : Looked s t n) : t.ev = s.ev := by rw [a.same]
theorem Looked.links {s t : State} {n : Nat} (a : Looked s t n) : t.links = s.links := by rw [a.same]
theorem Looked.daleel {s t : State} {n : Nat} (a : Looked s t n) : t.daleel = s.daleel := by rw [a.same]
theorem Looked.tlb {s t : State} {n : Nat} (a : Looked s t n) : t.lines.tlb = s.lines.tlb := by rw [a.lines]; rfl
theorem Looked.watches {s t : State} {n : Nat} (a : Looked s t n) : t.watches = s.watches := by rw [a.same]

/-! ## Tags and entries -/

/-- A tag that holds nothing which a log would have to take. -/
def L2Tag.Clean (t : L2Tag) : Prop := t.line < Config.compBase ∨ t.dirty = none

theorem countL2_looked (s : State) (d : Fin 4) (i n : Nat) : Looked s (countL2 s d i n) 0 := .of_lines rfl id id id le_rfl le_rfl

theorem noLog_putTag {s : State} (h : Claims.NoLog s) {t : L2Tag} (ht : t.Clean) : Claims.NoLog (putTag s t) := by
  unfold Claims.NoLog putTag
  dsimp only
  split
  · intro u hu
    obtain ⟨v, hv, rfl⟩ := List.mem_map.mp hu
    split
    · exact ht
    · exact h v hv
  · intro u hu
    rcases List.mem_append.mp hu with hu | hu
    · exact h u hu
    · rw [List.mem_singleton.mp hu]; exact ht

theorem putTag_looked (s : State) {t : L2Tag} (ht : Claims.NoLog s → t.Clean) : Looked s (putTag s t) 1 := by
  refine .of_lines rfl (fun log => noLog_putTag log (ht log)) id id (Nat.le_succ _) ?_
  dsimp only
  split
  · rw [List.length_map]; exact Nat.le_succ _
  · simp

/-- The tag of a line that has one is replaced. -/
theorem putTag_found_looked {s : State} {t : L2Tag} (found : s.lines.tags.any (fun u => decide (u.line = t.line)) = true)
    (ht : Claims.NoLog s → t.Clean) : Looked s (putTag s t) 0 := by
  refine .of_lines rfl (fun log => noLog_putTag log (ht log)) id id le_rfl ?_
  dsimp only
  rw [if_pos found, List.length_map]
  exact le_rfl

theorem freeEntries_looked (s : State) : Looked s (freeEntries s) 0 :=
  .of_lines rfl id id (fun c v hv => c v (List.mem_of_mem_filter hv)) (List.length_filter_le _ _) le_rfl

theorem dropTag_looked (s : State) (a : Nat) : Looked s (dropTag s a) 0 :=
  .of_lines rfl (fun log t ht => log t (List.mem_of_mem_filter ht)) id id le_rfl (List.length_filter_le _ _)

theorem freeDropped_looked (s : State) (a : Nat) : Looked s (freeEntries (dropTag s a)) 0 := (dropTag_looked s a).trans (freeEntries_looked _)

theorem releaseEntry_looked (s : State) {t : L2Tag} (ht : Claims.NoLog s → t.Clean) : Looked s (releaseEntry s t) 1 :=
  (putTag_looked s (t := { t with entry := none }) ht).trans (freeEntries_looked _)

/-- A change of what the index names, entry by entry. -/
theorem Looked.of_index {s : State} (f : Nat × VatEntry → Nat × VatEntry) (hf : ∀ v, (f v).2.poison = v.2.poison) :
    Looked s { s with lines := { s.lines with vat := s.lines.vat.map f } } 0 :=
  .of_lines rfl id id (fun c v hv => by
    obtain ⟨u, hu, rfl⟩ := List.mem_map.mp hv
    rw [hf]; exact c u hu) (by simp) le_rfl

theorem unindex_looked (s : State) (e : Nat) : Looked s (unindex s e) 0 := .of_index _ fun v => by split <;> rfl
theorem index_looked (s : State) (e : Nat) : Looked s (index s e) 0 := .of_index _ fun v => by split <;> rfl

theorem newEntry_looked (s : State) {t : L2Tag} (ht : Claims.NoLog s → t.Clean) {poison : Bool} (hp : ErrorFree s → poison = false) :
    Looked s (newEntry s t poison) 1 := by
  unfold newEntry
  split
  · dsimp only
    generalize added : ({ s with lines := { s.lines with nextVat := s.lines.nextVat + 1, vat := s.lines.vat ++ [(s.lines.nextVat, _)] } } : State) = u
    have more : Looked s u 1 := by
      subst added
      refine ⟨rfl, rfl, id, fun free => ⟨free.words, free.rdc, fun v hv => ?_⟩, by simp, Nat.le_succ _⟩
      rcases List.mem_append.mp hv with hv | hv
      · exact free.vat v hv
      · rw [List.mem_singleton.mp hv]; exact hp free
    have tags : u.lines.tags = s.lines.tags := by rw [← added]
    have put := putTag_looked u (t := { t with entry := some s.lines.nextVat }) fun log => ht (by unfold Claims.NoLog at log ⊢; rwa [tags] at log)
    have whole := more.trans put
    have vat : (putTag u { t with entry := some s.lines.nextVat }).lines.vat = u.lines.vat := rfl
    have tagged : Looked s (putTag u { t with entry := some s.lines.nextVat }) 1 :=
      { whole with room := by rw [vat]; exact more.room, tags := by have := put.tags; rwa [tags] at this }
    exact tagged.trans (freeEntries_looked _)
  · exact (freeDropped_looked s _).mono (by omega)

theorem keepPrivate_looked (s : State) {t : L2Tag} (ht : Claims.NoLog s → t.Clean) : Looked s (keepPrivate s t) 1 := by
  unfold keepPrivate
  split
  · exact putTag_looked s ht
  · exact newEntry_looked s ht fun _ => rfl

theorem keepIndexed_looked (s : State) {t : L2Tag} (ht : Claims.NoLog s → t.Clean) (e : Option Nat) : Looked s (keepIndexed s t e) 1 := by
  have kept := keepPrivate_looked s ht
  have named (u : State) (hu : Looked (keepPrivate s t) u 0) (n : Nat) : Looked s (index u n) 1 := (kept.trans hu).trans (index_looked u n)
  unfold keepIndexed
  cases e with
  | none =>
    dsimp only
    split
    · exact named _ (.refl _) _
    · exact kept
  | some e =>
    dsimp only
    split
    · split
      · exact named _ (unindex_looked _ e) _
      · exact kept
    · exact kept

theorem tryShare_looked (s : State) {t : L2Tag} (ht : Claims.NoLog s → t.Clean) (data : List Byte) : Looked s (tryShare s t data) 1 := by
  unfold tryShare
  dsimp only
  split
  · exact keepPrivate_looked s ht
  split
  · exact (releaseEntry_looked s ht).trans (countL2_looked _ _ _ _)
  split
  · exact keepPrivate_looked s ht
  split
  next e _ =>
    split
    · split
      · exact putTag_looked s ht
      · have put := putTag_looked s (t := { t with entry := some e }) ht
        exact (put.trans (freeEntries_looked _)).trans (countL2_looked _ _ _ _)
    · exact keepIndexed_looked s ht _
  next => exact keepIndexed_looked s ht _

/-! ## Eviction -/

theorem findTag_spec {s : State} {a : Nat} {t : L2Tag} (h : findTag s a = some t) : t ∈ s.lines.tags ∧ t.line = a :=
  ⟨List.mem_of_find?_eq_some h, by simpa using List.find?_some h⟩

theorem findTag_any {s : State} {a : Nat} {t u : L2Tag} (h : findTag s a = some t) (same : t.line = u.line) :
    s.lines.tags.any (fun v => decide (v.line = u.line)) = true :=
  List.any_eq_true.mpr ⟨t, (findTag_spec h).1, decide_eq_true same⟩

theorem entryPoison_errorFree {s : State} (h : ErrorFree s) (a : Nat) : entryPoison s a = false := by
  unfold entryPoison
  split
  · exact List.any_eq_false.mpr fun v hv => by simp [h.vat v hv]
  · rfl

theorem spillPoison_looked (s : State) (a : Nat) : Looked s (spillPoison s a) 0 := by
  unfold spillPoison
  split
  · next bad => exact ⟨rfl, rfl, id, fun free => by simp [entryPoison_errorFree free] at bad, le_rfl, le_rfl⟩
  · exact .refl s

/-- A line that a log would have to take is clean, so that its eviction writes no block. -/
theorem evictLine_looked {s : State} (h : Claims.NoLog s) (a : Nat) : Looked s (evictLine s a) 0 := by
  have spilled := spillPoison_looked s a
  unfold evictLine
  cases found : findTag s a with
  | none => exact freeDropped_looked s a
  | some t =>
    dsimp only
    split
    · next dirty =>
      obtain ⟨mem, line⟩ := findTag_spec found
      have low : a < Config.compBase := by
        rcases h t mem with low | clean
        · exact line ▸ low
        · simp [clean] at dirty
      rw [logBlock, if_pos low]
      exact spilled.trans (freeDropped_looked _ a)
    · exact freeDropped_looked s a

theorem evictUntil_looked (p : State → Bool) (a n : Nat) (kept : List Nat) {s : State} (h : Claims.NoLog s) :
    Looked s (evictUntil p a n kept s) 0 := by
  induction n generalizing kept s with
  | zero => exact .refl s
  | succ n ih =>
    unfold evictUntil
    split
    · exact .refl s
    · split
      · next v _ =>
        have gone := evictLine_looked h v.line
        exact gone.trans (ih _ (gone.noLog h))
      · exact .refl s

/-- Nothing is evicted for what is there already. -/
theorem evictUntil_ready {p : State → Bool} {s : State} (h : p s = true) (a n : Nat) (kept : List Nat) : evictUntil p a n kept s = s := by
  cases n with
  | zero => rfl
  | succ n => exact if_pos h

theorem makeRoom_looked {s : State} (h : Fits s 1) (a : Nat) : Looked s (makeRoom s a) 0 := by
  rcases h with log | ⟨vat, _⟩
  · exact evictUntil_looked _ _ _ _ log
  · have ready : entriesOf s a < Config.vatEntries := (List.length_filter_le _ _).trans_lt (by omega)
    unfold makeRoom
    rw [evictUntil_ready (by simp [entryReady, ready])]
    exact .refl s

theorem makeTag_looked {s : State} (h : Fits s 1) (a : Nat) : Looked s (makeTag s a) 0 := by
  rcases h with log | ⟨_, tags⟩
  · exact evictUntil_looked _ _ _ _ log
  · have ready : (sliceTags s a).length < Config.l2Tags := (List.length_filter_le _ _).trans_lt (by omega)
    unfold makeTag
    rw [evictUntil_ready (decide_eq_true ready)]
    exact .refl s

/-! ## Reads -/

theorem freshBlock_low {a : Nat} (h : a < Config.compBase) (s : State) : freshBlock s a = s := if_pos h

/-- Making room for a line that is looked up in vain. -/
theorem missed_looked {s : State} (h : Fits s 1) (a : Nat) (d e : Fin 4) : Looked s (makeTag (countL2 (countL2 s d 0 1) e 1 1) a) 0 := by
  have asked := (countL2_looked s d 0 1).trans (countL2_looked _ e 1 1)
  exact asked.trans (makeTag_looked (asked.fits h) a)

theorem homeFill_looked {s : State} (h : Fits s 1) {a : Nat} (ha : a < Config.compBase) (dedup : Bool) (dom : BitVec 8) :
    Looked s (homeFill s a dedup dom) 1 := by
  unfold homeFill
  dsimp only
  split
  · exact (countL2_looked s _ 0 1).mono (by omega)
  · rw [freshBlock_low ha]
    have tagged := missed_looked h a (homeDie s a) (homeDie s a)
    split
    · have ready := tagged.trans (makeRoom_looked (tagged.fits h) a)
      exact ready.trans (tryShare_looked _ (fun _ => .inl ha) _)
    · exact tagged.mono (by omega)

theorem keepRdc_looked (s : State) (d : Fin 4) (a : Nat) : Looked s (keepRdc s d a) 0 :=
  .of_lines rfl id (fun e => by simp [e]) id le_rfl le_rfl

theorem homeRead_looked {s : State} (h : Fits s 1) {a : Nat} (ha : a < Config.compBase) (d : Fin 4) (dedup : Bool) (dom : BitVec 8) :
    Looked s (homeRead s a d dedup dom) 1 := by
  have filled := homeFill_looked h ha dedup dom
  unfold homeRead
  dsimp only
  split
  · exact filled
  split
  · exact (countL2_looked s d 2 1).mono (by omega)
  split
  · next t found =>
    have shared := putTag_found_looked (t := { t with sharers := t.sharers ||| BitVec.ofNat 4 (2 ^ d.val) }) (findTag_any found rfl)
      fun log => log t (findTag_spec found).1
    exact (filled.trans shared).trans (keepRdc_looked _ d a)
  · exact filled

/-! ## Writes -/

theorem prepareWrite_looked {s : State} (h : Fits s 1) {a : Nat} (ha : a < Config.compBase) : Looked s (prepareWrite s a) 1 := by
  have ready := makeRoom_looked h a
  unfold prepareWrite
  dsimp only
  generalize invalid : ({ makeRoom s a with lines := { (makeRoom s a).lines with rdc := _ } } : State) = u
  have left : Looked s u 0 := ready.trans (m := 0) (by subst invalid; exact .of_lines rfl id id id le_rfl le_rfl)
  split
  · exact left.mono (by omega)
  next t found =>
    have clean : L2Tag.Clean { t with dirty := some (t.dirty.getD (lineData u a)), sharers := 0 } := .inl ((findTag_spec found).2 ▸ ha)
    split
    · split
      · have taken := newEntry_looked u (fun _ => clean) (fun free => entryPoison_errorFree free a)
        exact (left.trans (taken.trans (countL2_looked _ _ 4 1))).mono (by omega)
      · have put := putTag_found_looked (t := { t with dirty := some (t.dirty.getD (lineData u a)), sharers := 0 }) (findTag_any found rfl) fun _ => clean
        exact ((left.trans put).trans (unindex_looked _ _)).mono (by omega)
    · have taken := newEntry_looked u (fun _ => clean) (poison := false) (fun _ => rfl)
      exact (left.trans (taken.trans (countL2_looked _ _ 4 1))).mono (by omega)

theorem clearPoison_looked (s : State) (a n : Nat) : Looked s (clearPoison s a n) 0 := by
  unfold clearPoison
  split
  · exact .refl s
  · exact ⟨rfl, rfl, id, fun free => ⟨by simp [free.words], free.rdc, free.vat⟩, le_rfl, le_rfl⟩

theorem clearEntryPoison_looked (s : State) (a : Nat) : Looked s (clearEntryPoison s a) 0 := by
  unfold clearEntryPoison
  split
  · refine .of_lines rfl id id (fun c v hv => ?_) (by simp) le_rfl
    obtain ⟨u, hu, rfl⟩ := List.mem_map.mp hv
    split
    · rfl
    · exact c u hu
  · exact .refl s

end Sys2Proof.Machine
end
section
/-! SUPPORT. A write by the device (R201, R204, R211): the bytes are stored, and beside lines and their watchers nothing changes. -/

namespace Sys2Proof.Machine

/-! ## Watchers -/

/-- From s to t only strands and watches differ. -/
def OnlyStrands (s t : State) : Prop := t = { s with st := t.st, others := t.others, watches := t.watches }

theorem OnlyStrands.trans {s t u : State} (a : OnlyStrands s t) (b : OnlyStrands t u) : OnlyStrands s u := by
  unfold OnlyStrands at *
  rw [b, a]

theorem OnlyStrands.foldl {α : Type} {f : State → α → State} (h : ∀ s x, OnlyStrands s (f s x)) (l : List α) (s : State) :
    OnlyStrands s (l.foldl f s) := by
  induction l generalizing s with
  | nil => rfl
  | cons x l ih => exact (h s x).trans (ih _)

theorem setStrand_only (s : State) (n : Nat) (t : Strand) : OnlyStrands s (setStrand s n t) := by
  unfold setStrand
  split <;> rfl

theorem wakeLine_only (s : State) (a : Nat) : OnlyStrands s (wakeLine s a) := by
  unfold wakeLine
  split
  · exact OnlyStrands.trans (t := { s with watches := _ }) rfl (.foldl (fun s n => setStrand_only s n _) _ _)
  · rfl

theorem OnlyStrands.poison {s t : State} (h : OnlyStrands s t) : t.poison = s.poison := by
  unfold OnlyStrands at h
  rw [h]

theorem wakeLine_poison (s : State) (a : Nat) : (wakeLine s a).poison = s.poison := (wakeLine_only s a).poison

/-- A strand that is not parked is not woken. -/
theorem wakeLine_running {s : State} (h : s.st.park = 0) (a : Nat) : (wakeLine s a).st = s.st := by
  have step (u : State) (hu : u.st.park = 0) (n : Nat) :
      (modStrand u n fun t => if t.park = 1 ∨ t.park = 3 then unpark u.cycle t else t).st = u.st := by
    unfold modStrand setStrand
    split
    · next cur => simp [getStrand, cur, hu]
    · rfl
  have fold (l : List Nat) (u : State) (hu : u.st.park = 0) :
      (l.foldl (fun u n => modStrand u n fun t => if t.park = 1 ∨ t.park = 3 then unpark u.cycle t else t) u).st = u.st := by
    induction l generalizing u with
    | nil => rfl
    | cons n l ih => rw [List.foldl_cons, ih _ (by rw [step u hu]; exact hu), step u hu]
  unfold wakeLine
  split
  · exact fold _ { s with watches := _ } h
  · rfl

theorem wakeLine_quiet {s : State} (h : s.watches = []) (a : Nat) : wakeLine s a = s := by simp [wakeLine, h]

/-! ## Writes -/

/-- From s to t the bytes bs have been stored at a: beside memory only lines have changed, and strands that watched one are awake. At most
n more tags and vat entries are in use. -/
structure Wrote (s t : State) (a : Nat) (bs : List Byte) (n : Nat) : Prop where
  mem     : t.mem = memWrite s.mem a bs
  same    : t = { s with lines := t.lines, poison := t.poison, mem := t.mem, st := t.st, others := t.others, watches := t.watches }
  running : s.st.park = 0 → t.st = s.st
  quiet   : s.watches = [] → t = { s with lines := t.lines, poison := t.poison, mem := t.mem }
  lines   : t.lines = s.lines.tracking t.lines
  noLog   : Claims.NoLog s → Claims.NoLog t
  sound   : ErrorFree s → ErrorFree t
  room    : t.lines.vat.length ≤ s.lines.vat.length + n
  tags    : t.lines.tags.length ≤ s.lines.tags.length + n

theorem Wrote.tlb {s t : State} {a : Nat} {bs : List Byte} {n : Nat} (h : Wrote s t a bs n) : t.lines.tlb = s.lines.tlb := by rw [h.lines]; rfl
theorem Wrote.daleel {s t : State} {a : Nat} {bs : List Byte} {n : Nat} (h : Wrote s t a bs n) : t.daleel = s.daleel := by rw [h.same]
theorem Wrote.lp {s t : State} {a : Nat} {bs : List Byte} {n : Nat} (h : Wrote s t a bs n) : t.lp = s.lp := by rw [h.same]
theorem Wrote.ev {s t : State} {a : Nat} {bs : List Byte} {n : Nat} (h : Wrote s t a bs n) : t.ev = s.ev := by rw [h.same]

theorem Wrote.mono {s t : State} {a : Nat} {bs : List Byte} {n m : Nat} (h : Wrote s t a bs n) (le : n ≤ m) : Wrote s t a bs m :=
  { h with room := by have := h.room; omega, tags := by have := h.tags; omega }

theorem Wrote.fits {s t : State} {a : Nat} {bs : List Byte} {n k : Nat} (h : Wrote s t a bs k) (f : Fits s (n + k)) : Fits t n :=
  f.imp h.noLog fun ⟨vat, tags⟩ => ⟨by have := h.room; omega, by have := h.tags; omega⟩

theorem memWrite_append (m : List Host.Cell) (a : Nat) (bs cs : List Byte) :
    memWrite m a (bs ++ cs) = memWrite (memWrite m a bs) (a + bs.length) cs := by
  induction bs generalizing m a with
  | nil => rfl
  | cons b bs ih =>
    show memWrite (sset unlisted m a b) (a + 1) (bs ++ cs) = memWrite (memWrite (sset unlisted m a b) (a + 1) bs) _ cs
    rw [ih, List.length_cons, Nat.add_assoc, Nat.add_comm 1]

theorem Wrote.append {s t u : State} {a b : Nat} {bs cs : List Byte} {n m : Nat} (h : Wrote s t a bs n) (hb : b = a + bs.length)
    (k : Wrote t u b cs m) : Wrote s u a (bs ++ cs) (n + m) where
  mem := by rw [k.mem, h.mem, hb, memWrite_append]
  same := by rw [k.same, h.same]
  running r := by rw [k.running (by rw [h.running r]; exact r), h.running r]
  quiet q := by
    have first := h.quiet q
    rw [k.quiet (by rw [first]; exact q), first]
  lines := Lines.tracking_trans h.lines k.lines
  noLog l := k.noLog (h.noLog l)
  sound e := k.sound (h.sound e)
  room := by have := h.room; have := k.room; omega
  tags := by have := h.tags; have := k.tags; omega

/-- Nothing is stored by a lookup. -/
theorem Looked.wrote {s t : State} {n : Nat} (h : Looked s t n) (a : Nat) : Wrote s t a [] n :=
  ⟨h.mem, by rw [h.same], fun _ => h.st, fun _ => by rw [h.same], h.lines, h.noLog, h.sound, h.room, h.tags⟩

/-- Bytes stored after a lookup, and those who watch an address woken. -/
theorem Looked.store {s t : State} {n : Nat} (h : Looked s t n) (a l : Nat) (bs : List Byte) :
    Wrote s (wakeLine { t with mem := memWrite t.mem a bs } l) a bs n where
  mem := by rw [wakeLine_mem, ← h.mem]
  same := by
    have woken := wakeLine_only { t with mem := memWrite t.mem a bs } l
    unfold OnlyStrands at woken
    rw [woken, h.same]
  running r := (wakeLine_running (s := { t with mem := memWrite t.mem a bs }) (by rw [h.st]; exact r) l).trans h.st
  quiet q := by
    rw [wakeLine_quiet (s := { t with mem := memWrite t.mem a bs }) (by rw [h.watches]; exact q)]
    rw [h.same]
  lines := by rw [wakeLine_lines]; exact h.lines
  noLog l := by unfold Claims.NoLog; rw [wakeLine_lines]; exact h.noLog l
  sound e := by
    obtain ⟨w, r, v⟩ := h.sound e
    exact ⟨(wakeLine_poison _ l).trans w, by rw [wakeLine_lines]; exact r, by rw [wakeLine_lines]; exact v⟩
  room := by rw [wakeLine_lines]; exact h.room
  tags := by rw [wakeLine_lines]; exact h.tags

theorem writeLine_wrote {s : State} (h : Fits s 1) {l : Nat} (hl : l < Config.compBase) (o : Nat) (bs : List Byte) :
    Wrote s (writeLine s l [(o, bs)]) (l + o) bs 1 := by
  have ready := prepareWrite_looked h hl
  unfold writeLine
  dsimp only [List.foldl_cons, List.foldl_nil]
  split
  · exact ((ready.trans (clearPoison_looked _ l 128)).trans (clearEntryPoison_looked _ l)).store _ _ _
  · exact ready.store _ _ _

/-- A line that has been looked up is written. -/
theorem Looked.writeLine {s t : State} {n : Nat} (h : Looked s t n) (f : Fits t 1) {l : Nat} (hl : l < Config.compBase) (o : Nat) (bs : List Byte) :
    Wrote s (writeLine t l [(o, bs)]) (l + o) bs (n + 1) :=
  (h.wrote (l + o)).append rfl (writeLine_wrote f hl o bs)

/-- A write within one line, at its home. -/
theorem homeWrite_wrote {s : State} (h : Fits s 2) {a : Nat} (ha : a < Config.compBase) (bs : List Byte) (dedup : Bool) (dom : BitVec 8) :
    Wrote s (homeWrite s a bs dedup dom) a bs 2 := by
  have low : lineOf a < Config.compBase := (Nat.div_mul_le_self a 128).trans_lt ha
  have place : lineOf a + a % 128 = a := Nat.div_add_mod' a 128
  have one : Fits s 1 := h.mono (by omega)
  suffices Wrote s (homeWrite s a bs dedup dom) (lineOf a + a % 128) bs 2 by rwa [place] at this
  unfold homeWrite homePatch
  split
  · rw [freshBlock_low low]
    have tagged := missed_looked one (lineOf a) (homeDie s (lineOf a)) (homeDie s (lineOf a))
    dsimp only
    split
    · have ready := tagged.trans (makeRoom_looked (tagged.fits one) (lineOf a))
      have taken := ready.trans (newEntry_looked _ (t := { line := lineOf a, entry := none, dedup := dedup, domain := dom }) (poison := false)
        (fun _ => .inl low) fun _ => rfl)
      exact taken.writeLine (taken.fits h) low _ _
    · exact (tagged.writeLine (tagged.fits one) low _ _).mono (by omega)
  · have filled := homeFill_looked one low dedup dom
    exact filled.writeLine (filled.fits h) low _ _

theorem spadWrite_wrote (s : State) (a : Nat) (bs : List Byte) : Wrote s (spadWrite s a bs) a bs 0 :=
  (clearPoison_looked s _ _).store a _ bs

/-- A write of bytes that lie below the compressed regions. -/
theorem physWrite_wrote {n : Nat} {s : State} (h : Fits s (2 * n)) {a : Nat} {bs : List Byte} (ha : a + bs.length ≤ Config.compBase)
    (fuel : bs.length ≤ n) (dedup : Bool) (dom : BitVec 8) : Wrote s (physWrite n s a bs dedup dom) a bs (2 * n) := by
  induction n generalizing s a bs with
  | zero =>
    obtain rfl := List.eq_nil_of_length_eq_zero (Nat.le_zero.mp fuel)
    exact (Looked.refl s).wrote a
  | succ n ih =>
    unfold physWrite
    split
    · next e => subst e; exact ((Looked.refl s).wrote a).mono (by omega)
    next some =>
    have pos : 0 < bs.length := List.length_pos_iff.mpr some
    have piece {t : State} {k : Nat} (hk : 0 < k) (first : Wrote s t a (bs.take k) 2) :
        Wrote s (physWrite n t (a + k) (bs.drop k) dedup dom) a bs (2 * (n + 1)) := by
      by_cases all : bs.length ≤ k
      · rw [List.drop_of_length_le all, physWrite_nil]
        rw [List.take_of_length_le all] at first
        exact first.mono (by omega)
      · have len : (bs.take k).length = k := List.length_take_of_le (by omega)
        have rest := ih (s := t) (first.fits (h.mono (by omega))) (a := a + k) (bs := bs.drop k) (by rw [List.length_drop]; omega)
          (by rw [List.length_drop]; omega)
        have both := first.append (by rw [len]) rest
        rw [List.take_append_drop] at both
        exact both.mono (by omega)
    split
    · exact piece (by omega) ((spadWrite_wrote s a _).mono (by omega))
    · exact piece (by omega) (homeWrite_wrote (h.mono (by omega)) (by omega) _ dedup dom)

end Sys2Proof.Machine
end
section
/-! SUPPORT. The bytes of memory as little-endian numbers (R5). -/

namespace Sys2Proof.Machine

theorem bytesToNat_append (bs cs : List Byte) : bytesToNat (bs ++ cs) = bytesToNat bs + 256 ^ bs.length * bytesToNat cs := by
  induction bs with
  | nil => simp [bytesToNat]
  | cons b bs ih => rw [List.cons_append, bytesToNat, bytesToNat, ih, List.length_cons, Nat.pow_succ]; ring

theorem bytesToNat_lt (bs : List Byte) : bytesToNat bs < 256 ^ bs.length := by
  induction bs with
  | nil => simp [bytesToNat]
  | cons b bs ih =>
    have := b.isLt
    rw [bytesToNat, List.length_cons, Nat.pow_succ]
    omega

theorem memRead_succ (m : List Host.Cell) (a n : Nat) : memRead m a (n + 1) = memRead m a n ++ [memByte m (a + n)] := by
  simp [memRead, List.range_succ]

/-- The statements' number is the model's. -/
theorem number_eq (s : State) (a n : Nat) : Claims.number s a n = bytesToNat (memRead s.mem a n) := by
  induction n with
  | zero => rfl
  | succ n ih =>
    rw [memRead_succ, bytesToNat_append, ← ih, length_memRead]
    unfold Claims.number
    rw [List.range_succ, List.foldl_append]
    simp [bytesToNat, Nat.mul_comm]

theorem number_lt (s : State) (a n : Nat) : Claims.number s a n < 256 ^ n := by
  have := bytesToNat_lt (memRead s.mem a n)
  rwa [length_memRead, ← number_eq] at this

theorem number_congr {s t : State} (h : t.mem = s.mem) (a n : Nat) : Claims.number t a n = Claims.number s a n := by
  rw [number_eq, number_eq, h]

theorem take_drop_memRead (m : List Host.Cell) (a : Nat) {k j n : Nat} (h : k + j ≤ n) : ((memRead m a n).drop k).take j = memRead m (a + k) j := by
  apply List.ext_getElem
  · simp; omega
  · intro i _ _
    simp [memRead, Nat.add_assoc]

/-- Dword k of bytes of memory. -/
theorem dwordOf_memRead (s : State) (a : Nat) {k n : Nat} (h : 8 * k + 8 ≤ n) :
    dwordOf (memRead s.mem a n) k = BitVec.ofNat 64 (Claims.number s (a + 8 * k) 8) := by
  rw [dwordOf, take_drop_memRead _ _ h, number_eq, w64]

theorem getD_natToBytes (n v i : Nat) (h : i < n) : (natToBytes n v).getD i 0 = Claims.byteOf v i := by
  induction n generalizing v i with
  | zero => omega
  | succ n ih =>
    rw [natToBytes]
    cases i with
    | zero => simp [Claims.byteOf]
    | succ i =>
      rw [List.getD_cons_succ, ih _ _ (by omega)]
      unfold Claims.byteOf
      rw [Nat.div_div_eq_div_mul, show 2 ^ 8 = 256 from rfl, ← Nat.pow_succ']

/-- The bytes of a number read from memory are those that were read. -/
theorem natToBytes_bytesToNat (bs : List Byte) : natToBytes bs.length (bytesToNat bs) = bs := by
  induction bs with
  | nil => rfl
  | cons b bs ih =>
    have := b.isLt
    rw [List.length_cons, natToBytes, bytesToNat]
    have low : BitVec.ofNat 8 (b.toNat + 2 ^ 8 * bytesToNat bs) = b := by
      apply BitVec.eq_of_toNat_eq
      rw [BitVec.toNat_ofNat]; omega
    have high : (b.toNat + 2 ^ 8 * bytesToNat bs) / 2 ^ 8 = bytesToNat bs := by omega
    rw [low, high, ih]

theorem natToBytes_number (s : State) (a n : Nat) : natToBytes n (Claims.number s a n) = memRead s.mem a n := by
  have := natToBytes_bytesToNat (memRead s.mem a n)
  rwa [length_memRead, ← number_eq] at this

/-- A number whose bytes have been written is stored. -/
theorem stored_of_mem {s t : State} {a n v : Nat} (wf : Memory.wf s.mem = true) (h : t.mem = memWrite s.mem a (natToBytes n v)) :
    Claims.Stored s t a n v := by
  intro b
  rw [h, memByte_memWrite _ _ _ _ wf, natToBytes_length]
  split
  · exact getD_natToBytes _ _ _ (by omega)
  · rfl

theorem sameMem_of_mem {s t : State} (h : t.mem = s.mem) : Claims.SameMem s t := fun b => by rw [h]

/-- A number that was written is read back. -/
theorem number_memWrite {s t : State} {a n v : Nat} (wf : Memory.wf s.mem = true) (h : t.mem = memWrite s.mem a (natToBytes n v))
    (hv : v < 256 ^ n) : Claims.number t a n = v := by
  have read := memRead_memWrite s.mem a (natToBytes n v) wf
  rw [natToBytes_length, ← h] at read
  have value := bytesToNat_natToBytes n v []
  rw [List.append_nil] at value
  rw [number_eq, read, value]
  simp only [bytesToNat, Nat.mul_zero, Nat.add_zero]
  rw [Nat.pow_mul]
  exact Nat.mod_eq_of_lt hv

/-- A number apart from a write is as before. -/
theorem number_memWrite_apart {s t : State} {a n b : Nat} {bs : List Byte} (wf : Memory.wf s.mem = true) (h : t.mem = memWrite s.mem b bs)
    (apart : a + n ≤ b ∨ b + bs.length ≤ a) : Claims.number t a n = Claims.number s a n := by
  rw [number_eq, number_eq, h, memRead_memWrite_apart _ _ _ _ _ wf apart]

end Sys2Proof.Machine
end
section
/-! SUPPORT. The device's accesses through one page that the last-level TLB of M0 holds, while nothing is in error (R46, R175 to R177). -/

namespace Sys2Proof.Machine

/-! ## Without errors -/

theorem poisonedIn_errorFree {s : State} (h : ErrorFree s) (a n : Nat) : poisonedIn s a n = false := by simp [poisonedIn, h.words]

theorem linePoisoned_errorFree {s : State} (h : ErrorFree s) (a : Nat) : linePoisoned s a = false := by
  simp [linePoisoned, poisonedIn_errorFree h, entryPoison_errorFree h]

theorem poisonedAt_errorFree {s : State} (h : ErrorFree s) (a n : Nat) : poisonedAt s a n = false := by
  unfold poisonedAt
  split
  · exact poisonedIn_errorFree h _ _
  · exact List.any_eq_false.mpr fun i _ => by simp [linePoisoned_errorFree h]

theorem rdcPoisoned_errorFree {s : State} (h : ErrorFree s) (d : Fin 4) (a : Nat) : rdcPoisoned s d a = false := by simp [rdcPoisoned, h.rdc]

theorem descCheck_errorFree {s : State} (h : ErrorFree s) (c : BitVec 12) : descCheck s c = s := descCheck_sound (linePoisoned_errorFree h _)

theorem homeInReset_up {s : State} (h : ∀ d : Fin 4, s.daleel.dies[d.val] = .up) (a : Nat) : homeInReset s a = false := by
  unfold homeInReset
  split
  · simp [h]
  · split
    · simp [h]
    · rfl

theorem on_descGuard {s : State} (h : ∀ d : Fin 4, s.daleel.dies[d.val] = .up) (c : BitVec 12) : Act.on (descGuard c) s = (.ok (), s) := by
  unfold descGuard
  rw [on_bind_ok (on_get s), homeInReset_up h]
  rfl

/-- No write of a line waits while fewer vat entries are in use than a slice has. -/
theorem writeHeld_of_room {s : State} (h : s.lines.vat.length < Config.vatEntries) (fits : Fits s 1) (a : Nat) : writeHeld s a = false := by
  have fewer := (makeRoom_looked fits a).room
  have ready : entriesOf (makeRoom s a) a < Config.vatEntries := (List.length_filter_le _ _).trans_lt (by omega)
  simp [writeHeld, entryReady, ready]

/-! ## The page -/

/-- The device reaches memory through page P, and no access to it meets an error, a move or a die in reset; n more vat entries fit. -/
structure Backed (s : State) (P : TlbEntry) (n : Nat) : Prop where
  tlb     : s.lines.tlb = [(0, P)]
  allowed : P.r = true ∧ P.w = true ∧ P.moving = false ∧ P.tier ≠ 3 ∧ P.poison = false
  place   : P.base + P.size ≤ Config.gddrEnd ∨ (Config.cellarBase ≤ P.base ∧ P.base + P.size ≤ Config.cellarEnd)
    ∨ (Config.spadBase ≤ P.base ∧ P.base + P.size ≤ Config.spadEnd)
  whole   : P.base % P.size = 0 ∧ P.vpage % P.size = 0 ∧ P.vpage + P.size ≤ 2 ^ 48
  free    : ErrorFree s
  up      : ∀ d : Fin 4, s.daleel.dies[d.val] = .up
  fits    : Fits s n
  quiet   : s.watches = []
  room    : s.lines.vat.length + n ≤ Config.vatEntries

theorem Backed.of_device {s : State} {c : BitVec 12} {P : TlbEntry} {n : Nat} (h : Claims.Device s c P n) : Backed s P n :=
  have ⟨r, w, moving, tier⟩ := h.allowed
  have ⟨poison, rdc, words, vat⟩ := h.sound
  ⟨h.tlb, ⟨r, w, moving, tier, poison⟩, h.place, h.whole, ⟨words, rdc, vat⟩, h.up, .inl h.noLog, h.quiet, h.room.1⟩

theorem Backed.mono {s : State} {P : TlbEntry} {n m : Nat} (h : Backed s P n) (le : m ≤ n) : Backed s P m :=
  { h with room := by have := h.room; omega, fits := h.fits.mono le }

/-- The lines, the dies and the watches decide. -/
theorem Backed.congr {s t : State} {P : TlbEntry} {n : Nat} (h : Backed s P n) (lines : t.lines = s.lines) (poison : t.poison = s.poison)
    (daleel : t.daleel = s.daleel) (watches : t.watches = s.watches) : Backed t P n where
  tlb := by rw [lines]; exact h.tlb
  allowed := h.allowed
  place := h.place
  whole := h.whole
  free := ⟨by rw [poison]; exact h.free.words, by rw [lines]; exact h.free.rdc, by rw [lines]; exact h.free.vat⟩
  up := by rw [daleel]; exact h.up
  fits := by unfold Fits Claims.NoLog; rw [lines]; exact h.fits
  quiet := by rw [watches]; exact h.quiet
  room := by rw [lines]; exact h.room

theorem Looked.backed {s t : State} {P : TlbEntry} {k n : Nat} (a : Looked s t k) (h : Backed s P (n + k)) : Backed t P n where
  tlb := a.tlb.trans h.tlb
  allowed := h.allowed
  place := h.place
  whole := h.whole
  free := a.sound h.free
  up := by rw [a.daleel]; exact h.up
  fits := a.fits h.fits
  quiet := a.watches.trans h.quiet
  room := by have := a.room; have := h.room; omega

theorem Wrote.backed {s t : State} {P : TlbEntry} {k n a : Nat} {bs : List Byte} (w : Wrote s t a bs k) (h : Backed s P (n + k)) : Backed t P n where
  tlb := w.tlb.trans h.tlb
  allowed := h.allowed
  place := h.place
  whole := h.whole
  free := w.sound h.free
  up := by rw [w.daleel]; exact h.up
  fits := w.fits h.fits
  quiet := by rw [w.quiet h.quiet]; exact h.quiet
  room := by have := w.room; have := h.room; omega

section
variable {s : State} {P : TlbEntry} {n k : Nat} {va : VAddr}

theorem maps_of_inside (h : Claims.Inside P va.toNat k) (hk : 0 < k) : P.maps P.ctx va.toNat = true := by
  obtain ⟨low, high⟩ := h
  unfold TlbEntry.maps
  exact decide_eq_true ⟨rfl, low, by omega⟩

/-- The bytes of the page lie in one memory. -/
theorem Backed.key_lt (b : Backed s P n) (h : Claims.Inside P va.toNat k) : P.key va.toNat + k ≤ Config.compBase := by
  obtain ⟨low, high⟩ := h
  have place := b.place
  unfold TlbEntry.key
  simp only [Config.gddrEnd, Config.cellarBase, Config.cellarEnd, Config.spadBase, Config.spadEnd, Config.compBase] at place ⊢
  omega

theorem Backed.translate (b : Backed s P n) (h : Claims.Inside P va.toNat k) (hk : 0 < k) :
    translateDev .device 0 P.ctx va.toNat s = (.found P, s) := by
  obtain ⟨_, _, _, _, poison⟩ := b.allowed
  unfold translateDev
  rw [b.tlb, List.find?_cons_of_pos (by simpa using maps_of_inside h hk)]
  simp [useTlb, poison]

theorem Backed.on_deviceAt (b : Backed s P n) (h : Claims.Inside P va.toNat k) (hk : 0 < k) (m : Access) :
    Act.on (deviceAt m P.ctx va) s = (.ok (P, P.key va.toNat), s) := by
  obtain ⟨r, w, _, tier, _⟩ := b.allowed
  have page : Act.on (pageFrom va (translateDev .device 0 P.ctx va.toNat)) s = (.ok P, s) := by
    unfold pageFrom
    rw [on_bind_ok (on_lift _ s), b.translate h hk]
    rfl
  have allows : pageAllows m true P = true := by simp [pageAllows, r, w]
  have guard : Act.on (homeGuard va (P.key va.toNat)) s = (.ok (), s) := by
    unfold homeGuard
    rw [on_bind_ok (on_get s), homeInReset_up b.up]
    rfl
  unfold deviceAt
  rw [on_bind_ok page, if_neg fun e => e.elim tier (by simp [allows])]
  exact on_bind_ok guard

/-- A read within the page, for the device. -/
theorem Backed.on_deviceRead (b : Backed s P n) (hn : 0 < n) (h : Claims.Inside P va.toNat k) (hk : 0 < k) :
    ∃ t, Act.on (deviceRead P.ctx va k) s = (.ok (memRead s.mem (Claims.keyAt P va.toNat) k), t) ∧ Looked s t 1 := by
  have below : lineOf (P.key va.toNat) < Config.compBase :=
    (Nat.div_mul_le_self _ 128).trans_lt (by have := b.key_lt h; omega)
  have clean : (poisonedAt s (P.key va.toNat) k || (isLine (P.key va.toNat) && rdcPoisoned s 0 (lineOf (P.key va.toNat)))) = false := by
    rw [poisonedAt_errorFree b.free, rdcPoisoned_errorFree b.free, Bool.and_false, Bool.or_false]
  have read {t : State} (l : Looked s t 1) :
      ((.ok (memRead t.mem (P.key va.toNat) k), t) : Except Stop (List Byte) × State) = (.ok (memRead s.mem (Claims.keyAt P va.toNat) k), t) := by
    rw [l.mem]; rfl
  unfold deviceRead
  rw [on_bind_ok (b.on_deviceAt h hk .load)]
  dsimp only
  rw [on_bind_ok (on_get s), on_bind_ok (on_get s), if_neg (by rw [clean]; exact Bool.false_ne_true)]
  by_cases line : isLine (P.key va.toNat) = true
  · have looked := homeRead_looked (b.fits.mono hn) below 0 P.dedup (ctxDomain s P.ctx)
    refine ⟨_, ?_, looked⟩
    rw [if_pos line, on_bind_ok (on_apply _ s), on_bind_ok (on_get _), on_pure]
    exact read looked
  · have looked := (Looked.refl s).mono (m := 1) (by omega)
    refine ⟨s, ?_, looked⟩
    rw [if_neg line, on_bind_ok (on_get s)]
    exact read looked

theorem Backed.heldBy (b : Backed s P n) (hn : 0 < n) (h : Claims.Inside P va.toNat k) (hk : 0 < k) : heldBy s P (P.key va.toNat) = false := by
  obtain ⟨_, _, moving, _, _⟩ := b.allowed
  have low : ¬ Config.compBase ≤ P.key va.toNat := by have := b.key_lt h; omega
  have room := b.room
  simp [Machine.heldBy, moving, low, writeHeld_of_room (show s.lines.vat.length < _ by omega) (b.fits.mono hn)]

/-- A write within the page, for the device. -/
theorem Backed.on_deviceWrite (b : Backed s P n) (hn : 0 < n) (log : Claims.NoLog s) {bs : List Byte} (h : Claims.Inside P va.toNat bs.length) (hk : 0 < bs.length) :
    ∃ t, Act.on (deviceWrite P.ctx va bs) s = (.ok (), t) ∧ Wrote s t (Claims.keyAt P va.toNat) bs (2 * (bs.length + 1)) := by
  refine ⟨_, ?_, physWrite_wrote (.inl log) (b.key_lt h) (Nat.le_succ _) P.dedup (ctxDomain s P.ctx)⟩
  unfold deviceWrite
  rw [on_bind_ok (b.on_deviceAt h hk .store)]
  dsimp only
  rw [on_bind_ok (on_get s), if_neg (by simp [b.heldBy hn h hk])]
  rfl

end

/-! ## What an action is part of -/

theorem on_caught_ok {α : Type} {a : Act α} {s t : State} {v : α} (h : Act.on a s = (.ok v, t)) : Act.on (caught a) s = (.ok (.ok v), t) := by
  unfold caught
  rw [on_bind_ok (on_get s), h]
  rfl

theorem wholeEvent_ok {a : Act Unit} {s t : State} (h : Act.on a s = (.ok (), t)) : wholeEvent a s = .next t := by
  unfold wholeEvent
  rw [h]

/-- An operation that gives up at once leaves the machine as it is. -/
theorem wholeEvent_again {a : Act Unit} {s : State} {e : Stop} (h : Act.on a s = (.error e, s)) : wholeEvent a s = .next s := by
  have reported (l : List Nat) (hl : ∀ p ∈ l, p ∈ s.lines.writesHeld) : l.foldl reportHeld s = s := by
    induction l with
    | nil => rfl
    | cons p l ih =>
      have own : reportHeld s p = s := if_pos (by simpa using hl p List.mem_cons_self)
      rw [List.foldl_cons, own]
      exact ih fun q hq => hl q (List.mem_cons_of_mem p hq)
  unfold wholeEvent
  rw [h]
  exact congrArg Host.Outcome.next (reported _ fun _ => id)

end Sys2Proof.Machine
end
section
/-! SUPPORT. The queues of the launch processor: reading one after a write, the end of waits for it, and its entry into ERROR
(R62, R68, R72). -/

namespace Sys2Proof.Machine

/-! ## Reading and writing a queue -/

theorem getQueue_setQueue {s : State} (h : sparseWf {} s.lp.queues = true) (q : Nat) (v : Queue) (p : Nat) :
    getQueue (setQueue s q v) p = if p = q then v else getQueue s p := sget_sset _ _ _ _ _ h

theorem getQueue_setQueue_self {s : State} (h : sparseWf {} s.lp.queues = true) (q : Nat) (v : Queue) : getQueue (setQueue s q v) q = v := by
  rw [getQueue_setQueue h, if_pos rfl]

theorem setQueue_wf {s : State} (h : sparseWf {} s.lp.queues = true) (q : Nat) (v : Queue) : sparseWf {} (setQueue s q v).lp.queues = true :=
  sset_wf _ _ _ _ h

theorem getQueue_congr {s t : State} (h : t.lp.queues = s.lp.queues) (p : Nat) : getQueue t p = getQueue s p := by unfold getQueue; rw [h]

@[simp] theorem setQueue_mem (s : State) (q : Nat) (v : Queue) : (setQueue s q v).mem = s.mem := rfl
@[simp] theorem setQueue_st (s : State) (q : Nat) (v : Queue) : (setQueue s q v).st = s.st := rfl

/-- In the statements' words, beside queue q no queue has changed. -/
theorem onlyQueue_setQueue {s : State} (h : sparseWf {} s.lp.queues = true) (q : Fin 64) (v : Queue) : Claims.OnlyQueue s (setQueue s q.val v) q v :=
  ⟨getQueue_setQueue_self h _ _, fun p hp => by rw [getQueue_setQueue h, if_neg hp]⟩

theorem onlyQueue_congr {s t u : State} {q : Fin 64} {v : Queue} (h : Claims.OnlyQueue s t q v) (same : u.lp.queues = t.lp.queues) :
    Claims.OnlyQueue s u q v :=
  ⟨(getQueue_congr same _).trans h.1, fun p hp => (getQueue_congr same _).trans (h.2 p hp)⟩

theorem onlyQueue_from {s s' t : State} {q : Fin 64} {v : Queue} (h : Claims.OnlyQueue s' t q v) (same : s'.lp.queues = s.lp.queues) :
    Claims.OnlyQueue s t q v := ⟨h.1, fun p hp => (h.2 p hp).trans (getQueue_congr same _)⟩

/-- A queue written twice. -/
theorem onlyQueue_again {s t u : State} {q : Fin 64} {v w : Queue} (h : Claims.OnlyQueue s t q v) (k : Claims.OnlyQueue t u q w) :
    Claims.OnlyQueue s u q w := ⟨k.1, fun p hp => (k.2 p hp).trans (h.2 p hp)⟩

/-! ## Waits end -/

/-- From s to t waits have been answered: only strands, and what is kept of saved ones, differ. -/
def OnlyAnswered (s t : State) : Prop := t = { s with st := t.st, others := t.others, lp := { s.lp with saved := t.lp.saved } }

theorem OnlyAnswered.trans {s t u : State} (h : OnlyAnswered s t) (k : OnlyAnswered t u) : OnlyAnswered s u := by
  unfold OnlyAnswered at *
  rw [k, h]

theorem modStrandsWhere_answered (s : State) (p : Strand → Bool) (f : Strand → Strand) : OnlyAnswered s (modStrandsWhere s p f) := by
  have fold (l : List Nat) (u : State) : OnlyAnswered u (l.foldl (fun s n => modStrand s n f) u) := by
    induction l generalizing u with
    | nil => rfl
    | cons n l ih =>
      have first : OnlyAnswered u (modStrand u n f) := by unfold modStrand setStrand; split <;> rfl
      exact first.trans (ih _)
  exact fold _ s

theorem endWaits_answered (s : State) (ans : WaitKey → Option (Nat × Word × Word)) : OnlyAnswered s (endWaits s ans) :=
  OnlyAnswered.trans (t := { s with lp := { s.lp with saved := _ } }) rfl (modStrandsWhere_answered _ _ _)

theorem OnlyAnswered.queues {s t : State} (h : OnlyAnswered s t) : t.lp.queues = s.lp.queues := by unfold OnlyAnswered at h; rw [h]
theorem OnlyAnswered.mem {s t : State} (h : OnlyAnswered s t) : t.mem = s.mem := by unfold OnlyAnswered at h; rw [h]
theorem OnlyAnswered.lines {s t : State} (h : OnlyAnswered s t) : t.lines = s.lines := by unfold OnlyAnswered at h; rw [h]
theorem OnlyAnswered.poison {s t : State} (h : OnlyAnswered s t) : t.poison = s.poison := by unfold OnlyAnswered at h; rw [h]
theorem OnlyAnswered.daleel {s t : State} (h : OnlyAnswered s t) : t.daleel = s.daleel := by unfold OnlyAnswered at h; rw [h]
theorem OnlyAnswered.watches {s t : State} (h : OnlyAnswered s t) : t.watches = s.watches := by unfold OnlyAnswered at h; rw [h]
theorem OnlyAnswered.backed {s t : State} {P : TlbEntry} {n : Nat} (h : OnlyAnswered s t) (b : Backed s P n) : Backed t P n :=
  b.congr h.lines h.poison h.daleel h.watches

theorem OnlyAnswered.noLog {s t : State} (h : OnlyAnswered s t) (log : Claims.NoLog s) : Claims.NoLog t := by
  unfold Claims.NoLog
  rw [h.lines]
  exact log

theorem wakeQueue_answered (s : State) (q : Nat) (n : Word) : OnlyAnswered s (wakeQueue s q n) := endWaits_answered _ _

/-! ## ERROR -/

/-- An ACTIVE queue in ERROR with a code and a sequence number: it has kept of its entries those that have started. -/
def Queue.failed (v : Queue) (code : BitVec 8) (fail : Word) : Queue :=
  { v with err := code, stat := 2, failseq := fail, entries := v.entries.filter (·.started) }

theorem queueError_active {s : State} (h : sparseWf {} s.lp.queues = true) {q : Fin 64} (active : (getQueue s q.val).stat = 1) (code : BitVec 8)
    (fail value addr : Word) : Claims.OnlyQueue s (queueError s q.val code fail value addr) q ((getQueue s q.val).failed code fail) ∧
      (queueError s q.val code fail value addr).mem = s.mem := by
  unfold queueError
  rw [if_neg (by simp [active])]
  dsimp only
  have answered := endWaits_answered (postRecord (setQueue s q.val ((getQueue s q.val).failed code fail))
    { kind := 2, reason := code, ctx := (getQueue s q.val).ctx, queue := BitVec.ofNat 6 q.val, value, addr })
    (queueAnswer q.val ((getQueue s q.val).failed code fail).status)
  refine ⟨onlyQueue_congr (onlyQueue_setQueue h q _) (answered.queues.trans ?_), answered.mem.trans ?_⟩
  · rw [postRecord_lp]
  · rw [postRecord_mem]; rfl

end Sys2Proof.Machine
end
section
/-! SUPPORT. The completion of a queue's only entry: DONE rises over it, and the completion word is stored (R65, R66). -/

namespace Sys2Proof.Machine

theorem vaOf_toNat (w : Word) : (vaOf w).toNat = w.toNat % 2 ^ 48 := by rw [vaOf, BitVec.truncate_eq_setWidth, BitVec.toNat_setWidth]

/-- Queue v with its only entry complete, before DONE counts it: the entry is the next that DONE covers. -/
structure Completes (v : Queue) (e : QEntry) : Prop where
  only  : v.entries = [e]
  kept  : e.old = false
  next  : v.done.toNat + 1 = e.seq
  small : e.seq < 2 ^ 64

/-- The queue with DONE over its only entry. -/
def Queue.covered (v : Queue) : Queue := { v with done := v.done + 1, entries := [] }

theorem Completes.coverDone {v : Queue} {e : QEntry} (h : Completes v e) (complete : e.stage = .complete) : coverDone v v.entries.length = v.covered := by
  rw [h.only]
  show Machine.coverDone v 1 = v.covered
  unfold Machine.coverDone
  rw [h.only, List.find?_cons_of_pos (by simp [h.kept, complete, ← h.next])]
  simp [Machine.coverDone, Queue.covered]

theorem Completes.done_toNat {v : Queue} {e : QEntry} (h : Completes v e) : (v.done + 1).toNat = e.seq := by
  have next := h.next
  have small := h.small
  rw [BitVec.toNat_add, show BitVec.toNat (1 : Word) = 1 from rfl]
  omega

theorem Completes.done_ne {v : Queue} {e : QEntry} (h : Completes v e) : v.done + 1 ≠ v.done := by
  intro same
  have := h.done_toNat
  have next := h.next
  rw [same] at this
  omega

section
variable {s : State} {q : Nat} {v : Queue} {e : QEntry} (hv : getQueue s q = v) (h : Completes v e) (complete : e.stage = .complete)
include hv h complete

/-- DONE rises over the only entry; without a completion word nothing is stored. -/
theorem on_raiseDone (silent : v.cwaddr = 0) : ∃ t, Act.on (raiseDone q) s = (.ok (), t) ∧ OnlyAnswered (setQueue s q v.covered) t := by
  refine ⟨_, ?_, wakeQueue_answered _ q v.covered.done⟩
  unfold raiseDone
  rw [on_bind_ok (on_get s), hv]
  dsimp only
  rw [h.coverDone complete, on_bind_ok (on_apply _ s), if_pos (by exact h.done_ne), on_bind_ok (on_apply _ _), if_neg (by exact not_not.mpr silent)]
  rfl

/-- And with one, it is stored. -/
theorem on_raiseDone_word {P : TlbEntry} {n : Nat} (word : v.cwaddr ≠ 0) (b : Backed s P n) (hn : 0 < n)
    (log : Claims.NoLog s) (ctx : P.ctx = v.ctx)
    (inside : Claims.Inside P (v.cwaddr.toNat % 2 ^ 48) 8) :
    ∃ u t k, Act.on (raiseDone q) s = (.ok (), t) ∧ OnlyAnswered (setQueue s q v.covered) u ∧
      Wrote u t (Claims.keyAt P (v.cwaddr.toNat % 2 ^ 48)) (natToBytes 8 e.seq) k := by
  have woken := wakeQueue_answered (setQueue s q v.covered) q v.covered.done
  have backed : Backed (wakeQueue (setQueue s q v.covered) q v.covered.done) P n := woken.backed (b.congr rfl rfl rfl rfl)
  have number : v.covered.done.toNat = e.seq := h.done_toNat
  obtain ⟨t, stored, wrote⟩ := backed.on_deviceWrite hn (woken.noLog log) (va := vaOf v.cwaddr) (bs := natToBytes 8 e.seq)
    (by rwa [vaOf_toNat, natToBytes_length]) (by rw [natToBytes_length]; omega)
  rw [vaOf_toNat] at wrote
  rw [ctx, ← number] at stored
  refine ⟨_, t, _, ?_, woken, wrote⟩
  unfold raiseDone
  rw [on_bind_ok (on_get s), hv]
  dsimp only
  rw [h.coverDone complete, on_bind_ok (on_apply _ s), if_pos (by exact h.done_ne), on_bind_ok (on_apply _ _), if_pos (by exact word)]
  exact on_bind_ok (on_caught_ok stored)

end

/-- The queue with its only entry complete. -/
def Queue.marked (v : Queue) (e : QEntry) : Queue := { v with entries := [{ e with stage := .complete }] }

theorem Completes.marked {v : Queue} {e : QEntry} (h : Completes v e) : Completes (v.marked e) { e with stage := .complete } :=
  ⟨rfl, h.kept, h.next, h.small⟩

/-- The only entry of a queue changes. -/
theorem setEntry_only {s : State} {q : Nat} {e : QEntry} (h : (getQueue s q).entries = [e]) (f : QEntry → QEntry) :
    setEntry s q e.id f = setQueue s q { getQueue s q with entries := [f e] } := by
  unfold setEntry
  simp [h]

section
variable {s : State} {q : Fin 64} {e : QEntry} (form : sparseWf {} s.lp.queues = true) (h : Completes (getQueue s q.val) e)
include form h

omit h in
theorem onlyQueue_covered {u t : State} (answered : OnlyAnswered (setQueue (setQueue s q.val ((getQueue s q.val).marked e)) q.val
      ((getQueue s q.val).marked e).covered) u) (rest : t.lp = u.lp) : Claims.OnlyQueue s t q (getQueue s q.val).covered :=
  onlyQueue_congr (onlyQueue_again (onlyQueue_setQueue form q _) (onlyQueue_setQueue (setQueue_wf form _ _) q _))
    ((congrArg LaunchProc.queues rest).trans answered.queues)

omit form in
theorem on_completeEntry_raises : Act.on (completeEntry q.val e.id) s = Act.on (raiseDone q.val) (setQueue s q.val ((getQueue s q.val).marked e)) := by
  unfold completeEntry
  rw [on_bind_ok (on_apply _ s), setEntry_only h.only]
  rfl

/-- The only entry completes; without a completion word nothing is stored. -/
theorem on_completeEntry (silent : (getQueue s q.val).cwaddr = 0) : ∃ t, Act.on (completeEntry q.val e.id) s = (.ok (), t) ∧ t.mem = s.mem ∧
    Claims.OnlyQueue s t q (getQueue s q.val).covered := by
  obtain ⟨t, raised, answered⟩ := on_raiseDone (getQueue_setQueue_self form q.val _) h.marked rfl silent
  exact ⟨t, (on_completeEntry_raises h).trans raised, answered.mem, onlyQueue_covered form answered rfl⟩

/-- The only entry completes, and its completion word is stored. -/
theorem on_completeEntry_word {P : TlbEntry} {n : Nat} (word : (getQueue s q.val).cwaddr ≠ 0) (b : Backed s P n) (hn : 0 < n)
    (log : Claims.NoLog s) (ctx : P.ctx = (getQueue s q.val).ctx) (inside : Claims.Inside P ((getQueue s q.val).cwaddr.toNat % 2 ^ 48) 8) :
    ∃ t, Act.on (completeEntry q.val e.id) s = (.ok (), t) ∧
      t.mem = memWrite s.mem (Claims.keyAt P ((getQueue s q.val).cwaddr.toNat % 2 ^ 48)) (natToBytes 8 e.seq) ∧
      Claims.OnlyQueue s t q (getQueue s q.val).covered := by
  obtain ⟨u, t, k, raised, answered, wrote⟩ := on_raiseDone_word (getQueue_setQueue_self form q.val _) h.marked rfl word
    (b.congr rfl rfl rfl rfl) hn log ctx inside
  refine ⟨t, (on_completeEntry_raises h).trans raised, ?_, onlyQueue_covered form answered wrote.lp⟩
  rw [wrote.mem, answered.mem]
  rfl

end

end Sys2Proof.Machine
end
section
/-! Command queues: their registers (R62, R63). -/

namespace Sys2Proof.Machine

theorem inMinimal_queue (q : Fin 64) : inMinimal (0x100000 + 0x100 * q.val) = false := by
  simp only [inMinimal, decide_eq_false_iff_not]; omega

theorem inMinimal_tail (q : Fin 64) : inMinimal (0x100018 + 0x100 * q.val) = false := by
  simp only [inMinimal, decide_eq_false_iff_not]; omega

theorem exec_queueEnable (q : Fin 64) (s : State) : exec (.queueEnable q) s = .next (byHost (0x100000 + 0x100 * q.val) (enableQueue · q.val) s) := rfl
theorem exec_queueDisable (q : Fin 64) (s : State) : exec (.queueDisable q) s = .next (byHost (0x100000 + 0x100 * q.val) (disableQueue · q.val) s) := rfl
theorem exec_tailWrite (q : Fin 64) (x : Word) (s : State) : exec (.tailWrite q x) s = .next (byHost (0x100018 + 0x100 * q.val) (writeTail · q.val x) s) :=
  rfl

/-- A register write of the host that reaches a queue changes nothing of strands, cores and memory. -/
theorem quiet_setQueue (s : State) (q : Nat) (v : Queue) : Claims.Quiet s (setQueue s q v) := ⟨rfl, rfl, rfl, rfl⟩

theorem enableQueue_effect {s : State} (h : sparseWf {} s.lp.queues = true) (q : Fin 64) :
    Claims.Quiet s (enableQueue s q.val) ∧ Claims.OnlyQueue s (enableQueue s q.val) q
      (if (getQueue s q.val).stat = 0 then { getQueue s q.val with qctl := setBits (getQueue s q.val).qctl 13 1 1, stat := 1, err := 0, failseq := 0 }
      else { getQueue s q.val with qctl := setBits (getQueue s q.val).qctl 13 1 1 }) := by
  have first := onlyQueue_setQueue h q { getQueue s q.val with qctl := setBits (getQueue s q.val).qctl 13 1 1 }
  unfold enableQueue
  dsimp only
  split
  · refine ⟨⟨rfl, rfl, rfl, rfl⟩, onlyQueue_again first ?_⟩
    rw [getQueue_setQueue_self h]
    exact onlyQueue_setQueue (setQueue_wf h _ _) q _
  · exact ⟨quiet_setQueue _ _ _, first⟩

theorem writeTail_active {s : State} {q : Fin 64} {x : Word} (active : (getQueue s q.val).stat = 1) :
    writeTail s q.val x = if (getQueue s q.val).qctl.getLsbD 12 = false ∧ (getQueue s q.val).tail.toNat ≤ x.toNat then
      setQueue s q.val { getQueue s q.val with tail := x } else queueError s q.val 8 x x 0 := by
  have mode : (! (getQueue s q.val).deviceMode) = true ↔ (getQueue s q.val).qctl.getLsbD 12 = false := by
    simp [Queue.deviceMode, bits, BitVec.getLsbD, Nat.testBit_eq_decide_div_mod_eq]
  unfold writeTail
  dsimp only
  rw [if_neg (by simp [active]), if_pos active]
  simp only [mode]

theorem writeTail_disabled {s : State} (h : sparseWf {} s.lp.queues = true) {q : Fin 64} (disabled : (getQueue s q.val).stat = 0) (x : Word) :
    (writeTail s q.val x).mem = s.mem ∧ getQueue (writeTail s q.val x) q.val = { getQueue s q.val with
      tail := x, done := x, next := x.toNat + 1, entries := ((getQueue s q.val).entries.filter (·.started)).map fun e => { e with old := true } } := by
  unfold writeTail
  dsimp only
  rw [if_pos disabled]
  have woken := wakeQueue_answered (setQueue s q.val { getQueue s q.val with
    tail := x, done := x, next := x.toNat + 1, entries := ((getQueue s q.val).entries.filter (·.started)).map fun e => { e with old := true } }) q.val x
  exact ⟨woken.mem, (getQueue_congr woken.queues _).trans (getQueue_setQueue_self h _ _)⟩

theorem queueRegisters : Claims.QueueRegisters := by
  intro s q x v ctl back wf
  simp only [exec_queueEnable, exec_queueDisable, exec_tailWrite]
  refine ⟨fun dropped => ?_, fun serves => ?_⟩
  · rw [byHost_dropped (inMinimal_queue q) dropped, byHost_dropped (inMinimal_queue q) dropped, byHost_dropped (inMinimal_tail q) dropped]
    exact ⟨rfl, rfl, rfl⟩
  simp only [byHost_serves (inMinimal_queue q) serves, byHost_serves (inMinimal_tail q) serves]
  refine ⟨⟨_, rfl, enableQueue_effect wf.queues q⟩, ⟨_, rfl, quiet_setQueue _ _ _, onlyQueue_setQueue wf.queues q _⟩, ?_, ?_, ?_⟩
  · intro active host rises
    refine ⟨_, rfl, ?_⟩
    rw [writeTail_active active, if_pos ⟨host, rises⟩]
    exact ⟨quiet_setQueue _ _ _, onlyQueue_setQueue wf.queues q _⟩
  · intro active wrong
    refine ⟨_, rfl, ?_⟩
    have refused : ¬ ((getQueue s q.val).qctl.getLsbD 12 = false ∧ (getQueue s q.val).tail.toNat ≤ x.toNat) := by
      rintro ⟨host, rises⟩
      rcases wrong with device | falls
      · exact absurd device (by rw [host]; exact Bool.false_ne_true)
      · exact absurd falls (Nat.not_lt.mpr rises)
    rw [writeTail_active active, if_neg refused]
    obtain ⟨⟨only, _⟩, mem⟩ := queueError_active wf.queues active 8 x x 0
    rw [only]
    exact ⟨mem, rfl, rfl, rfl, rfl⟩
  · intro disabled
    obtain ⟨mem, only⟩ := writeTail_disabled wf.queues disabled x
    refine ⟨_, rfl, mem, ?_⟩
    rw [only]
    refine ⟨rfl, rfl, rfl, fun e he waits => ?_⟩
    obtain ⟨e', he', rfl⟩ := List.mem_map.mp he
    have started := (List.mem_filter.mp he').2
    have waits' : e'.stage = .waiting := waits
    simp [QEntry.started, waits'] at started

end Sys2Proof.Machine
end
section
/-! Command queues: the fetch of an entry (R64, R81). -/

namespace Sys2Proof.Machine

/-! ## The fields of an entry (Table 4.2) -/

section
variable {bs : List Byte} {D : Nat → Nat} (h : ∀ k, k < 8 → dwordOf bs k = BitVec.ofNat 64 (D k)) (lt : ∀ k, D k < 2 ^ 64)
include h lt

theorem bits_dwordOf {k : Nat} (hk : k < 8) (lo n : Nat) : bits (dwordOf bs k) lo n = D k / 2 ^ lo % 2 ^ n := by
  rw [bits, h k hk, BitVec.toNat_ofNat, Nat.mod_eq_of_lt (lt k)]

theorem entryOf_fields (id seq : Nat) (ctx : BitVec 12) (addr : Word) : entryOf bs id seq ctx addr =
    let wait (k : Nat) : List (Nat × Word) := if D k / 2 ^ 63 = 1 then [(D k % 64, BitVec.ofNat 64 (D (k + 1)))] else []
    { id, ctx, seq, addr, kind := D 0 % 256, rscope := D 0 / 2 ^ 9 % 4, overlap := decide (D 0 / 2 ^ 8 % 2 = 1), waits := wait 1 ++ wait 3,
      arg0 := BitVec.ofNat 64 (D 5), arg1 := BitVec.ofNat 64 (D 6) } := by
  have top (k : Nat) : D k / 2 ^ 63 % 2 ^ 1 = D k / 2 ^ 63 := Nat.mod_eq_of_lt (by have := lt k; omega)
  unfold entryOf
  simp only [bits_dwordOf h lt (show 0 < 8 by omega), bits_dwordOf h lt (show 1 < 8 by omega), bits_dwordOf h lt (show 3 < 8 by omega),
    h 2 (by omega), h 4 (by omega), h 5 (by omega), h 6 (by omega), top, Nat.pow_zero, Nat.div_one]
  rfl

theorem entryValid_iff : entryValid bs = true ↔ 1 ≤ D 0 % 256 ∧ D 0 % 256 ≤ 4 ∧ D 0 / 2 ^ 9 % 4 ≠ 0 ∧ D 0 / 2 ^ 11 = 0 ∧
    D 1 / 2 ^ 6 % 2 ^ 57 = 0 ∧ D 3 / 2 ^ 6 % 2 ^ 57 = 0 ∧ D 7 = 0 ∧ (D 0 % 256 = 1 → D 5 % 128 = 0) ∧ (D 0 % 256 = 2 → D 5 % 8 = 0) ∧
    (D 0 % 256 = 3 → D 5 % 64 = 0) ∧ (D 0 % 256 = 4 → D 5 = 0) ∧ (3 ≤ D 0 % 256 → D 6 = 0) := by
  have high : D 0 / 2 ^ 11 % 2 ^ 53 = D 0 / 2 ^ 11 := Nat.mod_eq_of_lt (by have := lt 0; omega)
  have zero (k : Nat) : BitVec.ofNat 64 (D k) = 0#64 ↔ D k = 0 := by
    rw [← BitVec.toNat_inj, BitVec.toNat_ofNat, Nat.mod_eq_of_lt (lt k)]
    rfl
  have five : D 5 % 2 ^ 64 = D 5 := Nat.mod_eq_of_lt (lt 5)
  unfold entryValid
  simp only [entryOf_fields h lt, bits_dwordOf h lt (show 0 < 8 by omega), bits_dwordOf h lt (show 1 < 8 by omega),
    bits_dwordOf h lt (show 3 < 8 by omega), h 7 (by omega), high, BitVec.toNat_ofNat, five, decide_eq_true_eq]
  generalize D 0 % 256 = kind
  by_cases small : 1 ≤ kind ∧ kind ≤ 4
  · obtain ⟨low, up⟩ := small
    obtain rfl | rfl | rfl | rfl : kind = 1 ∨ kind = 2 ∨ kind = 3 ∨ kind = 4 := by omega
    all_goals simp [zero]
    all_goals omega
  · tauto

end

/-- The dwords of an entry in memory. -/
theorem dwordOf_page (s : State) (P : TlbEntry) {va n k : Nat} (low : P.vpage ≤ va) (h : 8 * k + 8 ≤ n) :
    dwordOf (memRead s.mem (Claims.keyAt P va) n) k = BitVec.ofNat 64 (Claims.dw s P va k) := by
  have place : Claims.keyAt P va + 8 * k = P.base + (va + 8 * k - P.vpage) := by unfold Claims.keyAt; omega
  rw [dwordOf_memRead s _ h, place]
  rfl

theorem dw_lt (s : State) (P : TlbEntry) (va k : Nat) : Claims.dw s P va k < 2 ^ 64 := number_lt _ _ 8

/-! ## The fetch -/

/-- What the launch processor does with the 64 bytes of the next entry of queue v. -/
def takeEntry (q : Nat) (v : Queue) (bs : List Byte) : Act Unit := do
  let e := entryOf bs (← get).lp.nextId v.next v.ctx v.fetch
  if ! entryValid bs then apply fun s => entryError s q 0x01 v.next v.fetch
  else
    apply fun s =>
      let v := getQueue s q
      let s := setQueue s q { v with next := v.next + 1, fetch := if e.kind = 3 then e.arg0 else v.fetch + 64 }
      { s with lp := { s.lp with nextId := s.lp.nextId + 1 } }
    let add (e : QEntry) : Act Unit := apply fun s => setQueue s q (let v := getQueue s q; { v with entries := v.entries ++ [e] })
    if e.waits.any fun w => decide (w.1 = q ∧ v.next ≤ w.2.toNat) then apply fun s => entryError s q 0x06 v.next v.fetch
    else if e.kind = 1 then
      match ← caught (deviceRead v.ctx (vaOf e.arg0) 128) with
      | .error _ => apply fun s => entryError s q 0x02 v.next v.fetch
      | .ok hb =>
        if headerError hb ≠ 0 then apply fun s => queueError s q 0x03 (w64 e.seq) (w64 (headerError hb)) v.fetch
        else add { e with launch := some (headerOf hb) }
    else if e.kind = 3 then
      add { e with stage := .complete }
      raiseDone q
    else add e

/-- The fetch reads the entry and then takes it. -/
theorem on_fetchEntry {s : State} {P : TlbEntry} {n q : Nat} (dev : Claims.Device s (getQueue s q).ctx P (n + 1)) (active : (getQueue s q).stat = 1)
    (more : (getQueue s q).next ≤ (getQueue s q).tail.toNat) (inside : Claims.Inside P ((getQueue s q).fetch.toNat % 2 ^ 48) 64) :
    ∃ t, Looked s t 1 ∧ Act.on (fetchEntry q) s =
      Act.on (takeEntry q (getQueue s q) (memRead s.mem (Claims.keyAt P ((getQueue s q).fetch.toNat % 2 ^ 48)) 64)) t := by
  have b := Backed.of_device dev
  rw [← vaOf_toNat] at inside
  obtain ⟨t, read, looked⟩ := b.on_deviceRead (by omega) inside (by omega)
  rw [dev.ctx, vaOf_toNat] at read
  refine ⟨t, looked, ?_⟩
  unfold fetchEntry
  rw [on_bind_ok (on_get s), if_pos ⟨active, more⟩]
  dsimp only
  rw [on_bind_ok (on_descGuard b.up _), on_bind_ok (on_apply _ s), descCheck_errorFree b.free, on_bind_ok (on_get s), dev.usable]
  rw [if_neg (show ¬ (!true) = true by decide), on_bind_ok (on_caught_ok read)]
  rfl

/-- The queue as it joins an entry: the next number, and the fetch behind the entry or at a chain's next block. -/
def Queue.past (v : Queue) (e : QEntry) : Queue := { v with next := v.next + 1, fetch := if e.kind = 3 then e.arg0 else v.fetch + 64 }

/-- The machine as the launch processor takes an entry of queue q. -/
def taken (s : State) (q : Nat) (e : QEntry) : State :=
  let s := setQueue s q ((getQueue s q).past e)
  { s with lp := { s.lp with nextId := s.lp.nextId + 1 } }

/-- The entry joins its queue. -/
def addEntry (s : State) (q : Nat) (e : QEntry) : State := setQueue s q { getQueue s q with entries := (getQueue s q).entries ++ [e] }

theorem taken_wf {s : State} (h : sparseWf {} s.lp.queues = true) (q : Nat) (e : QEntry) : sparseWf {} (taken s q e).lp.queues = true :=
  setQueue_wf h q _

theorem onlyQueue_taken {s : State} (h : sparseWf {} s.lp.queues = true) (q : Fin 64) (e : QEntry) :
    Claims.OnlyQueue s (taken s q.val e) q ((getQueue s q.val).past e) := onlyQueue_congr (onlyQueue_setQueue h q _) rfl

/-- An entry taken at s, x as it is then kept, has joined its queue. -/
theorem onlyQueue_addEntry {s u : State} (h : sparseWf {} s.lp.queues = true) {q : Fin 64} {e : QEntry}
    (hu : u.lp.queues = (taken s q.val e).lp.queues) (x : QEntry) : Claims.OnlyQueue s (addEntry u q.val x) q
      { (getQueue s q.val).past e with entries := (getQueue s q.val).entries ++ [x] } := by
  have joined := onlyQueue_taken h q e
  have there : getQueue u q.val = (getQueue s q.val).past e := (getQueue_congr hu _).trans joined.1
  unfold addEntry
  rw [there]
  exact onlyQueue_again (onlyQueue_congr joined hu) (onlyQueue_setQueue (by rw [hu]; exact taken_wf h _ _) q _)

section
variable {t : State} {q : Fin 64} {bs : List Byte} {e : QEntry}
    (he : entryOf bs t.lp.nextId (getQueue t q.val).next (getQueue t q.val).ctx (getQueue t q.val).fetch = e)
    (form : sparseWf {} t.lp.queues = true) (active : (getQueue t q.val).stat = 1)
include he form

include active in
/-- An entry that breaks a rule of Table 4.2. -/
theorem on_takeEntry_invalid (bad : entryValid bs = false) :
    ∃ u, Act.on (takeEntry q.val (getQueue t q.val) bs) t = (.ok (), u) ∧ u.mem = t.mem ∧
      getQueue u q.val = (getQueue t q.val).failed 1 (w64 (getQueue t q.val).next) := by
  obtain ⟨⟨only, _⟩, mem⟩ := queueError_active form active 1 (w64 (getQueue t q.val).next) (w64 (getQueue t q.val).next) (getQueue t q.val).fetch
  refine ⟨_, ?_, mem, only⟩
  unfold takeEntry
  rw [on_bind_ok (on_get t)]
  dsimp only
  rw [he, if_pos (by rw [bad]; rfl)]
  rfl

include active in
/-- An entry that waits for its own queue to reach it. -/
theorem on_takeEntry_self (good : entryValid bs = true) (self : ∃ w ∈ e.waits, w.1 = q.val ∧ (getQueue t q.val).next ≤ w.2.toNat) :
    ∃ u, Act.on (takeEntry q.val (getQueue t q.val) bs) t = (.ok (), u) ∧ u.mem = t.mem ∧
      getQueue u q.val = ((getQueue t q.val).past e).failed 6 (w64 (getQueue t q.val).next) := by
  obtain ⟨w, listed, own⟩ := self
  have joined := (onlyQueue_taken form q e).1
  obtain ⟨⟨only, _⟩, mem⟩ := queueError_active (taken_wf form q.val e) (q := q) (by rw [joined]; exact active) 6
    (w64 (getQueue t q.val).next) (w64 (getQueue t q.val).next) (getQueue t q.val).fetch
  rw [joined] at only
  refine ⟨_, ?_, mem, only⟩
  unfold takeEntry
  rw [on_bind_ok (on_get t)]
  dsimp only
  rw [he, if_neg (by rw [good]; decide), on_bind_ok (on_apply _ t), if_pos (List.any_eq_true.mpr ⟨w, listed, decide_eq_true own⟩)]
  rfl

omit form in
/-- An entry without such a wait joins by its kind. -/
theorem on_takeEntry (good : entryValid bs = true) (others : ∀ w ∈ e.waits, w.1 = q.val → w.2.toNat < (getQueue t q.val).next) :
    (e.kind ≠ 1 → e.kind ≠ 3 → Act.on (takeEntry q.val (getQueue t q.val) bs) t = (.ok (), addEntry (taken t q.val e) q.val e)) ∧
    (e.kind = 3 → Act.on (takeEntry q.val (getQueue t q.val) bs) t =
      Act.on (raiseDone q.val) (addEntry (taken t q.val e) q.val { e with stage := .complete })) ∧
    (∀ hb u, e.kind = 1 → Act.on (deviceRead (getQueue t q.val).ctx (vaOf e.arg0) 128) (taken t q.val e) = (.ok hb, u) → headerError hb = 0 →
      Act.on (takeEntry q.val (getQueue t q.val) bs) t = (.ok (), addEntry u q.val { e with launch := some (headerOf hb) })) := by
  have none : ¬ (e.waits.any fun w => decide (w.1 = q.val ∧ (getQueue t q.val).next ≤ w.2.toNat)) = true := by
    rw [Bool.not_eq_true, List.any_eq_false]
    rintro w listed own
    obtain ⟨here, late⟩ := of_decide_eq_true own
    exact absurd (others w listed here) (Nat.not_lt.mpr late)
  unfold takeEntry
  rw [on_bind_ok (on_get t)]
  dsimp only
  rw [he, if_neg (by rw [good]; decide), on_bind_ok (on_apply _ t), if_neg none]
  refine ⟨fun launch chain => ?_, fun chain => ?_, fun hb u launch read sound => ?_⟩
  · rw [if_neg launch, if_neg chain]; rfl
  · rw [if_neg (by rw [chain]; decide), if_pos chain]; rfl
  · rw [if_pos launch]
    refine (on_bind_ok (on_caught_ok read)).trans ?_
    dsimp only
    rw [if_neg (by simpa using sound)]
    rfl

/-- A chain entry of a queue that has no other and no completion word: it is complete as it is fetched (R64). -/
theorem on_takeEntry_chain (good : entryValid bs = true) (others : ∀ w ∈ e.waits, w.1 = q.val → w.2.toNat < (getQueue t q.val).next)
    (kind : e.kind = 3) (empty : (getQueue t q.val).entries = []) (next : (getQueue t q.val).done.toNat + 1 = (getQueue t q.val).next)
    (small : (getQueue t q.val).next < 2 ^ 64) (silent : (getQueue t q.val).cwaddr = 0) :
    ∃ u, Act.on (takeEntry q.val (getQueue t q.val) bs) t = (.ok (), u) ∧ u.mem = t.mem ∧ Claims.OnlyQueue t u q
      { getQueue t q.val with next := (getQueue t q.val).next + 1, fetch := e.arg0, done := (getQueue t q.val).done + 1 } := by
  have chain := (on_takeEntry he good others).2.1 kind
  have only := onlyQueue_addEntry form (u := taken t q.val e) rfl { e with stage := .complete }
  have wf : sparseWf {} (addEntry (taken t q.val e) q.val { e with stage := .complete }).lp.queues = true := setQueue_wf (taken_wf form _ _) _ _
  have number : e.seq = (getQueue t q.val).next := by rw [← he]; rfl
  have old : e.old = false := by rw [← he]; rfl
  rw [empty, List.nil_append] at only
  obtain ⟨u, raised, answered⟩ := on_raiseDone only.1 ⟨rfl, old, next.trans number.symm, number ▸ small⟩ rfl silent
  refine ⟨u, chain.trans raised, answered.mem, ?_⟩
  have last := onlyQueue_congr (onlyQueue_again only (onlyQueue_setQueue wf q _)) answered.queues
  rw [Queue.past, if_pos kind] at last
  simpa [Queue.covered, empty] using last

end

/-! ## The statement -/

theorem exec_entryFetch (q : Fin 64) (s : State) : exec (.entryFetch q) s = wholeEvent (fetchEntry q.val) s := rfl

section
variable {s : State} {P : TlbEntry} {q : Fin 64} (low : P.vpage ≤ (getQueue s q.val).fetch.toNat % 2 ^ 48)
include low

/-- The entry that the launch processor keeps, in the statements' words. -/
theorem entryOf_entryAt : entryOf (memRead s.mem (Claims.keyAt P ((getQueue s q.val).fetch.toNat % 2 ^ 48)) 64) s.lp.nextId (getQueue s q.val).next
    (getQueue s q.val).ctx (getQueue s q.val).fetch = Claims.entryAt s P q :=
  entryOf_fields (fun _ hk => dwordOf_page s P low (by omega)) (dw_lt s P _) _ _ _ _

theorem entryValid_entryOk : entryValid (memRead s.mem (Claims.keyAt P ((getQueue s q.val).fetch.toNat % 2 ^ 48)) 64) = true ↔
    Claims.EntryOk s P ((getQueue s q.val).fetch.toNat % 2 ^ 48) :=
  entryValid_iff (fun _ hk => dwordOf_page s P low (by omega)) (dw_lt s P _)

end

theorem entryFetch : Claims.EntryFetch := by
  intro s P q v va e hd wf dev active more _ inside
  obtain ⟨t, looked, fetched⟩ := on_fetchEntry (n := 7) dev active more inside
  have ok_iff := entryValid_entryOk inside.1
  have start (u : State) (h : Act.on (takeEntry q.val v (memRead s.mem (Claims.keyAt P va) 64)) t = (.ok (), u)) : exec (.entryFetch q) s = .next u := by
    rw [exec_entryFetch]
    exact wholeEvent_ok (fetched.trans h)
  have same : t.lp.queues = s.lp.queues := by rw [looked.lp]
  have queue : getQueue t q.val = v := getQueue_congr same _
  have form : sparseWf {} t.lp.queues = true := by rw [same]; exact wf.queues
  have name : entryOf (memRead s.mem (Claims.keyAt P va) 64) t.lp.nextId (getQueue t q.val).next (getQueue t q.val).ctx (getQueue t q.val).fetch = e := by
    rw [queue, looked.lp]; exact entryOf_entryAt inside.1
  clear_value e
  rw [← queue] at start active more ⊢
  refine ⟨fun ok others => ?_, fun bad => ?_, fun ok self => ?_⟩
  · obtain ⟨plain, _, launch⟩ := on_takeEntry name (ok_iff.mpr ok) others
    refine ⟨fun kind => ?_, fun kind header sound => ?_, fun kind empty next silent => ?_⟩
    · have only := onlyQueue_from (onlyQueue_addEntry form (u := taken t q.val e) rfl e) same
      rw [Queue.past, if_neg (by rcases kind with kind | kind <;> rw [kind] <;> decide)] at only
      exact ⟨_, start _ (plain (by rcases kind with kind | kind <;> rw [kind] <;> decide) (by rcases kind with kind | kind <;> rw [kind] <;> decide)),
        sameMem_of_mem looked.mem, looked.st, only⟩
    · have b : Backed (taken t q.val e) P 7 := (looked.backed (n := 7) (Backed.of_device dev)).congr rfl rfl rfl rfl
      obtain ⟨u, read, second⟩ := b.on_deviceRead (by omega) (va := vaOf e.arg0) (k := 128) (by rwa [vaOf_toNat]) (by omega)
      rw [dev.ctx, vaOf_toNat, show (taken t q.val e).mem = s.mem from looked.mem, ← queue] at read
      have only := onlyQueue_from (onlyQueue_addEntry form (u := u) (by rw [second.lp])
        { e with launch := some (headerOf (memRead s.mem (Claims.keyAt P hd) 128)) }) same
      rw [Queue.past, if_neg (by rw [kind]; decide)] at only
      exact ⟨_, start _ (launch _ u kind read sound), sameMem_of_mem (second.mem.trans looked.mem), second.st.trans looked.st, only⟩
    · obtain ⟨u, chain, mem, only⟩ := on_takeEntry_chain name form (ok_iff.mpr ok) others kind empty next (lt_of_le_of_lt more (BitVec.isLt _)) silent
      exact ⟨u, start u chain, sameMem_of_mem (mem.trans looked.mem), onlyQueue_from only same⟩
  · obtain ⟨u, failed, mem, only⟩ := on_takeEntry_invalid name form active (by rw [← Bool.not_eq_true]; exact fun good => bad (ok_iff.mp good))
    refine ⟨u, start u failed, sameMem_of_mem (mem.trans looked.mem), ?_⟩
    rw [only]
    exact ⟨rfl, rfl, rfl, rfl, rfl⟩
  · obtain ⟨u, failed, mem, only⟩ := on_takeEntry_self name form active (ok_iff.mpr ok) self
    refine ⟨u, start u failed, sameMem_of_mem (mem.trans looked.mem), ?_⟩
    rw [only]
    exact ⟨rfl, rfl, rfl, rfl⟩

end Sys2Proof.Machine
end
section
/-! Command queues: the start of an entry (R65, R67). -/

namespace Sys2Proof.Machine

/-- Queue v of queue number q is ACTIVE, and e is its oldest entry: it waits, and nothing before it is left. -/
structure Oldest (s : State) (q : Fin 64) (e : QEntry) (rest : List QEntry) : Prop where
  active  : (getQueue s q.val).stat = 1
  entries : (getQueue s q.val).entries = e :: rest
  waiting : e.stage = .waiting
  ctx     : e.ctx = (getQueue s q.val).ctx
  later   : ∀ x ∈ rest, e.seq < x.seq ∧ x.id ≠ e.id

theorem exec_entryStart (q : Fin 64) (s : State) : exec (.entryStart q) s = wholeEvent (startEntry q.val) s := rfl

section
variable {s : State} {q : Fin 64} {e : QEntry} {rest : List QEntry} (h : Oldest s q e rest)
include h

theorem Oldest.found : (getQueue s q.val).entries.find? (fun e => decide (e.stage = .waiting)) = some e := by
  rw [h.entries, List.find?_cons_of_pos (by simp [h.waiting])]

theorem Oldest.overlapMet : overlapMet (getQueue s q.val) e = true := by
  have none : (e :: rest).find? (fun x => ! x.old && decide (x.seq + 1 = e.seq)) = none := by
    rw [List.find?_eq_none]
    intro x hx
    have behind : e.seq ≤ x.seq := by
      rcases List.mem_cons.mp hx with rfl | hx
      · exact le_rfl
      · exact (h.later x hx).1.le
    simp only [Bool.and_eq_true, decide_eq_true_eq, not_and]
    intro _
    omega
  unfold Machine.overlapMet
  rw [h.entries, none]

/-- Of the entries, those with e's name are e alone. -/
theorem Oldest.setEntry (f : QEntry → QEntry) : setEntry s q.val e.id f = setQueue s q.val { getQueue s q.val with entries := f e :: rest } := by
  have apart : rest.map (fun x => if x.id = e.id then f x else x) = rest :=
    (List.map_congr_left fun x hx => if_neg (h.later x hx).2).trans (List.map_id rest)
  unfold Machine.setEntry
  simp [h.entries, apart]

/-- What starts is found, or fails, by its wait conditions alone. -/
theorem Oldest.on_startEntry_poison (bad : e.poison = true) : Act.on (startEntry q.val) s = (.ok (), entryError s q.val 2 e.seq e.addr) := by
  unfold startEntry
  rw [on_bind_ok (on_get s)]
  dsimp only
  rw [h.found]
  dsimp only
  rw [if_pos ⟨h.active, h.overlapMet⟩, if_pos bad]
  rfl

variable (sound : e.poison = false)
include sound

theorem Oldest.on_startEntry_wrong (wrong : ∃ w ∈ e.waits, (getQueue s w.1).stat = 2 ∧ (getQueue s w.1).done.toNat < w.2.toNat) :
    Act.on (startEntry q.val) s = (.ok (), entryError s q.val 4 e.seq e.addr) := by
  obtain ⟨w, listed, past⟩ := wrong
  unfold startEntry
  rw [on_bind_ok (on_get s)]
  dsimp only
  rw [h.found]
  dsimp only
  rw [if_pos ⟨h.active, h.overlapMet⟩, if_neg (by simp [sound]), if_pos (List.any_eq_true.mpr ⟨w, listed, decide_eq_true past⟩)]
  rfl

theorem Oldest.on_startEntry_unmet (unmet : ¬ ∀ w ∈ e.waits, (getQueue s w.1).stat ≠ 0 ∧ w.2.toNat ≤ (getQueue s w.1).done.toNat)
    (others : ∀ w ∈ e.waits, (getQueue s w.1).stat ≠ 2) : Act.on (startEntry q.val) s = (.ok (), s) := by
  have fine : ¬ (e.waits.any fun w => decide ((getQueue s w.1).stat = 2 ∧ (getQueue s w.1).done.toNat < w.2.toNat)) = true := by
    rw [Bool.not_eq_true, List.any_eq_false]
    exact fun w hw late => absurd (of_decide_eq_true late).1 (others w hw)
  unfold startEntry
  rw [on_bind_ok (on_get s)]
  dsimp only
  rw [h.found]
  dsimp only
  rw [if_pos ⟨h.active, h.overlapMet⟩, if_neg (by simp [sound]), if_neg fine, if_neg]
  · rfl
  · intro all
    exact unmet fun w hw => of_decide_eq_true (List.all_eq_true.mp all w hw)

/-- An entry whose conditions hold starts in the queue's context, by its kind. -/
theorem Oldest.on_startEntry_met {P : TlbEntry} {n : Nat} (dev : Claims.Device s (getQueue s q.val).ctx P n)
    (met : ∀ w ∈ e.waits, (getQueue s w.1).stat ≠ 0 ∧ w.2.toNat ≤ (getQueue s w.1).done.toNat) :
    (e.kind = 1 → Act.on (startEntry q.val) s = (.ok (), Machine.setEntry (setQueue s q.val (getQueue s q.val)) q.val e.id fun e => { e with stage := .placing })) ∧
    (e.kind = 2 → Act.on (startEntry q.val) s = Act.on (writeEntry q.val e) (setQueue s q.val (getQueue s q.val))) ∧
    (e.kind = 4 → Act.on (startEntry q.val) s = Act.on (completeEntry q.val e.id) (setQueue s q.val (getQueue s q.val))) := by
  have b := Backed.of_device dev
  have fine : ¬ (e.waits.any fun w => decide ((getQueue s w.1).stat = 2 ∧ (getQueue s w.1).done.toNat < w.2.toNat)) = true := by
    rw [Bool.not_eq_true, List.any_eq_false]
    intro w hw late
    exact absurd (met w hw).2 (Nat.not_le.mpr (of_decide_eq_true late).2)
  have all : e.waits.all (waitMet s) = true := List.all_eq_true.mpr fun w hw => decide_eq_true (met w hw)
  have same : ({ e with ctx := (getQueue s q.val).ctx } : QEntry) = e := by rw [← h.ctx]
  have kept : ({ getQueue s q.val with entries := e :: rest } : Queue) = getQueue s q.val := by rw [← h.entries]
  have named : Machine.setEntry s q.val e.id (fun e => { e with ctx := (getQueue s q.val).ctx }) = setQueue s q.val (getQueue s q.val) := by
    rw [h.setEntry, same, kept]
  unfold startEntry
  rw [on_bind_ok (on_get s)]
  dsimp only
  rw [h.found]
  dsimp only
  rw [if_pos ⟨h.active, h.overlapMet⟩, if_neg (by simp [sound]), if_neg fine, if_pos all, on_bind_ok (on_descGuard b.up _), on_bind_ok (on_apply _ s),
    descCheck_errorFree b.free, on_bind_ok (on_get s), dev.usable, if_neg (show ¬ (!true) = true by decide), on_bind_ok (on_apply _ s), named, same]
  refine ⟨fun kind => ?_, fun kind => ?_, fun kind => ?_⟩ <;> rw [kind] <;> rfl

end

/-- A WRITE entry that is its queue's only one stores its word and is complete. -/
theorem on_writeEntry {s : State} {P : TlbEntry} {n : Nat} {q : Fin 64} {e : QEntry} (form : sparseWf {} s.lp.queues = true)
    (h : Completes (getQueue s q.val) e) (silent : (getQueue s q.val).cwaddr = 0) (b : Backed s P n) (hn : 0 < n)
    (log : Claims.NoLog s) (ctx : P.ctx = e.ctx)
    (inside : Claims.Inside P (e.arg0.toNat % 2 ^ 48) 8) : ∃ t, Act.on (writeEntry q.val e) s = (.ok (), t) ∧
      t.mem = memWrite s.mem (Claims.keyAt P (e.arg0.toNat % 2 ^ 48)) (natToBytes 8 e.arg1.toNat) ∧ Claims.OnlyQueue s t q (getQueue s q.val).covered := by
  obtain ⟨u, stored, wrote⟩ := b.on_deviceWrite hn log (va := vaOf e.arg0) (bs := natToBytes 8 e.arg1.toNat)
    (by rwa [vaOf_toNat, natToBytes_length]) (by rw [natToBytes_length]; omega)
  rw [ctx] at stored
  have same : u.lp.queues = s.lp.queues := by rw [wrote.lp]
  have queue : getQueue u q.val = getQueue s q.val := getQueue_congr same _
  obtain ⟨t, completed, mem, only⟩ := on_completeEntry (s := u) (q := q) (e := e) (by rw [same]; exact form) (by rw [queue]; exact h)
    (by rw [queue]; exact silent)
  rw [queue] at only
  refine ⟨t, ?_, ?_, onlyQueue_from only same⟩
  · unfold writeEntry
    rw [on_bind_ok (on_get s), on_caught_ok stored]
    exact (on_bind_ok (on_set u s)).trans completed
  · rw [mem, wrote.mem, vaOf_toNat]

/-- A queue's entries that fail put it in ERROR, with nothing stored. -/
theorem entryError_active {s : State} (form : sparseWf {} s.lp.queues = true) {q : Fin 64} (active : (getQueue s q.val).stat = 1) (code : BitVec 8)
    (seq : Nat) (addr : Word) : Claims.SameMem s (entryError s q.val code seq addr) ∧ (getQueue (entryError s q.val code seq addr) q.val).stat = 2 ∧
      (getQueue (entryError s q.val code seq addr) q.val).err = code ∧
      (getQueue (entryError s q.val code seq addr) q.val).failseq = BitVec.ofNat 64 seq := by
  obtain ⟨⟨only, _⟩, mem⟩ := queueError_active form active code (w64 seq) (w64 seq) addr
  unfold entryError
  rw [only]
  exact ⟨sameMem_of_mem mem, rfl, rfl, rfl⟩

theorem entryStart : Claims.EntryStart := by
  intro s P q e rest v va met wf dev ctx active entries waiting old later next small
  have h : Oldest s q e rest := ⟨active, entries, waiting, ctx, later⟩
  have start (u : State) (run : Act.on (startEntry q.val) s = (.ok (), u)) : exec (.entryStart q) s = .next u := by
    rw [exec_entryStart]
    exact wholeEvent_ok run
  refine ⟨fun bad => ⟨_, start _ (h.on_startEntry_poison bad), entryError_active wf.queues active _ _ _⟩, fun sound => ?_⟩
  have named := onlyQueue_setQueue wf.queues q (getQueue s q.val)
  have form := setQueue_wf wf.queues q.val (getQueue s q.val)
  have b : Backed (setQueue s q.val (getQueue s q.val)) P 8 := (Backed.of_device dev).congr rfl rfl rfl rfl
  have alone (none : rest = []) : Completes (getQueue s q.val) e := ⟨entries.trans (by rw [none]), old, next, small⟩
  refine ⟨fun ok kind => ?_, fun ok kind silent none _ inside => ?_, fun ok kind silent none => ?_, fun wrong => ?_, fun unmet others => ?_⟩
  · obtain ⟨launch, _⟩ := h.on_startEntry_met sound dev ok
    have again : Oldest (setQueue s q.val (getQueue s q.val)) q e rest :=
      ⟨by rw [named.1]; exact active, by rw [named.1]; exact entries, waiting, by rw [named.1]; exact ctx, later⟩
    refine ⟨_, start _ (launch kind), ?_⟩
    rw [again.setEntry, named.1]
    exact ⟨sameMem_of_mem rfl, onlyQueue_again named (onlyQueue_setQueue form q _)⟩
  · obtain ⟨_, write, _⟩ := h.on_startEntry_met sound dev ok
    obtain ⟨t, written, mem, only⟩ := on_writeEntry form (by rw [named.1]; exact alone none) (by rw [named.1]; exact silent) b (by omega)
      dev.noLog
      (dev.ctx.trans ctx.symm) inside
    rw [named.1] at only
    exact ⟨t, start t ((write kind).trans written), stored_of_mem wf.mem mem, onlyQueue_again named only⟩
  · obtain ⟨_, _, fence⟩ := h.on_startEntry_met sound dev ok
    obtain ⟨t, completed, mem, only⟩ := on_completeEntry form (by rw [named.1]; exact alone none) (by rw [named.1]; exact silent)
    rw [named.1] at only
    exact ⟨t, start t ((fence kind).trans completed), sameMem_of_mem mem, onlyQueue_again named only⟩
  · exact ⟨_, start _ (h.on_startEntry_wrong sound wrong), entryError_active wf.queues active _ _ _⟩
  · exact start s (h.on_startEntry_unmet sound unmet others)

end Sys2Proof.Machine
end
section
/-! Command queues: the completion of an entry (R65, R66), and the whole of O42. -/

namespace Sys2Proof.Machine

theorem exec_entryComplete (q : Fin 64) (seq : Nat) (s : State) : exec (.entryComplete q seq) s = wholeEvent (endEntry q.val seq) s := rfl

theorem peerMsgs_iff {s : State} {m : PeerMsg} : m ∈ peerMsgs s ↔ Claims.OnWire s m := by
  unfold peerMsgs Claims.OnWire
  rw [List.mem_append, List.mem_flatMap, List.mem_filterMap]
  constructor
  · rintro (port | ⟨p, hp, sent⟩)
    · exact .inl port
    · refine .inr ⟨p, hp, ?_⟩
      split at sent
      next n what => rw [what, Option.some.inj sent]
      · exact absurd sent (by simp)
  · rintro (port | ⟨p, hp, what⟩)
    · exact .inl port
    · exact .inr ⟨p, hp, by rw [what]⟩

theorem isPeerWrite_iff {o : PeerOp} : isPeerWrite o = true ↔ ∃ b, o = .write b := by
  cases o <;> simp [isPeerWrite]

/-- A write to the host or to a peer is out, in the statements' words. -/
theorem peerWritesOut_iff {s : State} : peerWritesOut s = true ↔ Claims.WritesAway s := by
  unfold peerWritesOut Claims.WritesAway
  simp only [Bool.or_eq_true, Bool.not_eq_true', List.any_eq_true, isPeerWrite_iff, peerMsgs_iff]
  constructor
  · rintro (late | ⟨m, wire, b, op⟩)
    · exact .inl (by simpa using late)
    · exact .inr ⟨m, b, wire, op⟩
  · rintro (late | ⟨m, b, wire, op⟩)
    · exact .inl (by simpa using late)
    · exact .inr ⟨m, wire, b, op⟩

theorem entryComplete : Claims.EntryComplete := by
  intro s P q e v va wf dev entries placed live kind old next small word _ inside
  have found : (getQueue s q.val).entries.find? (fun x => decide (x.seq = e.seq ∧ x.stage = .placed ∧ x.live = 0)) = some e := by
    rw [show (getQueue s q.val).entries = [e] from entries, List.find?_cons_of_pos (by simp [placed, live])]
  have begins : Act.on (endEntry q.val e.seq) s =
      Act.on (if e.rscope = 3 ∧ peerWritesOut s then throw .again else completeEntry q.val e.id) s := by
    unfold endEntry
    rw [on_bind_ok (on_get s), found]
    dsimp only
    rw [if_neg (by rw [kind]; decide)]
  rw [exec_entryComplete]
  refine ⟨fun out => ?_, fun scope away => ?_⟩
  · have free : ¬ (e.rscope = 3 ∧ peerWritesOut s = true) := by
      rintro ⟨scope, away⟩
      rcases out with other | none
      · exact other scope
      · exact none (peerWritesOut_iff.mp away)
    obtain ⟨t, completed, mem, only⟩ := on_completeEntry_word wf.queues ⟨entries, old, next, small⟩ word (Backed.of_device dev) (by omega) dev.noLog dev.ctx inside
    rw [if_neg free] at begins
    exact ⟨t, wholeEvent_ok (begins.trans completed), stored_of_mem wf.mem mem, only⟩
  · rw [if_pos ⟨scope, peerWritesOut_iff.mpr away⟩] at begins
    exact wholeEvent_again begins

/-- Settles O42: the registers, the fetch, the start and the completion, each by what it does to its queue and to the memory that the device
reaches. -/
theorem queueEvents : Obligations.QueueEvents := by
  unfold Obligations.QueueEvents
  exact ⟨queueRegisters, entryFetch, entryStart, entryComplete⟩

end Sys2Proof.Machine
end
section
/-! QWAIT (R72). -/

namespace Sys2Proof.Machine

theorem exec_qwait (q a : XReg) (s : State) : exec (.qwait q a) s = execQwait q a s := rfl

theorem on_acquire {c : Scope} (h : c ≠ .cr) (s : State) : Act.on (acquire c) s = (.ok (), emptyL1 s (curCore s)) := by
  unfold acquire
  rw [if_pos h]
  rfl

section
variable {s : State} {q a : XReg}

/-- A wait that ended while the strand was parked goes on with what it was given. -/
theorem exec_qwait_answered {w : Word} (h : s.st.qerr = some ((s.readX q).toNat, s.readX a, w)) : exec (.qwait q a) s =
    .next ((State.writeX { emptyL1 s (curCore s) with st := { s.st with qerr := none } } 10 w).retire 4) := by
  have answered : failedWait s (s.readX q) (s.readX a) = some w := by simp [failedWait, h]
  rw [exec_qwait]
  unfold execQwait
  refine scalar_ok ?_
  dsimp only
  rw [answered]
  exact on_bind_ok (on_acquire (by decide) s)

variable (index : (s.readX q).toNat ≤ 63) (ctx : (getQueue s (s.readX q).toNat).ctx = s.st.ctx)
    (fresh : ∀ w, s.st.qerr ≠ some ((s.readX q).toNat, s.readX a, w))
include index ctx fresh

omit index ctx in
theorem failedWait_none : failedWait s (s.readX q) (s.readX a) = none := by
  unfold failedWait
  split
  next k n w held =>
    rw [if_neg]
    rintro ⟨rfl, rfl⟩
    exact fresh w held
  next => rfl

/-- A wait goes on once its queue has reached its number, or is in ERROR. -/
theorem exec_qwait_goes (goes : (s.readX a).toNat ≤ (getQueue s (s.readX q).toNat).done.toNat ∨ (getQueue s (s.readX q).toNat).stat = 2) :
    exec (.qwait q a) s = .next ((State.writeX (emptyL1 s (curCore s)) 10 (if (s.readX a).toNat ≤ (getQueue s (s.readX q).toNat).done.toNat then 0
      else (getQueue s (s.readX q).toNat).status)).retire 4) := by
  rw [exec_qwait]
  unfold execQwait
  refine scalar_ok ?_
  dsimp only
  rw [failedWait_none fresh]
  dsimp only
  rw [if_neg (by simp [index, ctx]), if_neg, on_bind_ok (on_acquire (by decide) s)]
  · simp only [decide_eq_true_eq]
    rfl
  · rcases goes with reached | error
    · simp [reached]
    · simp [error]

/-- And else it parks. -/
theorem exec_qwait_parks (short : ¬ (s.readX a).toNat ≤ (getQueue s (s.readX q).toNat).done.toNat) (runs : (getQueue s (s.readX q).toNat).stat ≠ 2) :
    exec (.qwait q a) s = .next (parkOn s 2 (.queue (s.readX q).toNat (s.readX a))) := by
  rw [exec_qwait]
  unfold execQwait
  refine scalar_park ?_ (strandGone_self s)
  dsimp only
  rw [failedWait_none fresh]
  dsimp only
  rw [if_neg (by simp [index, ctx]), if_pos (Bool.and_eq_true_iff.mpr ⟨by rw [decide_eq_false short]; rfl, decide_eq_true runs⟩)]
  rfl

end

end Sys2Proof.Machine
end
section
/-! QAPP (R71), and the whole of O19. -/

namespace Sys2Proof.Machine

theorem exec_qapp (d q a : XReg) (s : State) : exec (.qapp d q a) s = execQapp d q a s := rfl

/-! ## The core's accesses -/

/-- Where a location's home is, and whether its die is in reset, is not changed by lookups. -/
theorem Looked.homeInReset {s t : State} {n : Nat} (h : Looked s t n) (a : Nat) : homeInReset t a = homeInReset s a := by
  have masks : t.lines.masks = s.lines.masks := by rw [h.lines]; rfl
  have limits : t.lines.plimit = s.lines.plimit := by rw [h.lines]; rfl
  have limit : plimitOf t = plimitOf s := by funext p; unfold plimitOf; rw [limits]
  have hash (k : Nat) : hashBit t a k = hashBit s a k := by unfold hashBit partitionOf; rw [masks, limit]
  have die : homeDie t a = homeDie s a := by unfold homeDie; rw [hash, hash]
  unfold Machine.homeInReset
  simp only [die, h.daleel]

theorem Looked.mapped {s t : State} {n : Nat} (h : Looked s t n) : (getCore t (curCore t)).tlb = (getCore s (curCore s)).tlb := by
  unfold curCore getCore
  rw [h.cur, h.cores]

section
variable {s t : State} {k : Access} {va : VAddr} {n m : Nat} {e : TlbEntry} (h : Claims.Reachable s k va n e) (l : Looked s t m)
include h l

/-- An address that the focused strand reaches is still reached after lookups. -/
theorem on_translate_looked : Act.on (translate k va) t = (.ok e, t) := by
  have found : translateAt (.strand t.cur.val) (curCore t) t.st.ctx va.toNat t = (.found e, t) := by
    unfold translateAt
    rw [l.mapped, l.st, h.mapped]
    simp [useTlb, h.sound]
  have page : Act.on (strandPage t.st.ctx va) t = (.ok e, t) := by
    unfold strandPage pageFrom
    rw [on_bind_ok (on_lift _ t), found]
    rfl
  unfold translate
  rw [on_bind_ok (on_get t), on_bind_ok page, on_bind_ok (on_get t), if_pos (by rw [l.st]; exact h.allowed)]
  rfl

theorem on_homeGuard_looked : Act.on (homeGuard va (e.key va.toNat)) t = (.ok (), t) := by
  unfold homeGuard
  rw [on_bind_ok (on_get t), l.homeInReset, h.answers]
  rfl

end

theorem Claims.Reachable.below {s : State} {k : Access} {va : VAddr} {n : Nat} {e : TlbEntry} (h : Claims.Reachable s k va n e) :
    e.key va.toNat + n ≤ Config.compBase := by
  have place := h.place
  simp only [Config.gddrEnd, Config.cellarBase, Config.cellarEnd, Config.spadBase, Config.spadEnd, Config.compBase] at place ⊢
  omega

/-- A read at its home of bytes that the focused strand reaches. -/
theorem on_readAtHome {s : State} {va : VAddr} {n : Nat} {e : TlbEntry} (h : Claims.Reachable s .load va n e) (hn : 0 < n) (log : Claims.NoLog s) :
    ∃ t, Act.on (readAtHome e va (e.key va.toNat) n) s = (.ok (memRead s.mem (e.key va.toNat) n), t) ∧ Looked s t 1 := by
  have below : lineOf (e.key va.toNat) < Config.compBase := (Nat.div_mul_le_self _ 128).trans_lt (by have := Claims.Reachable.below h; omega)
  have guard : Act.on (readGuard va (e.key va.toNat) n) s = (.ok (), s) := by
    unfold readGuard
    rw [on_bind_ok (on_get s), h.clean]
    rfl
  unfold readAtHome
  rw [on_bind_ok (on_homeGuard_looked h (.refl s)), on_bind_ok guard]
  by_cases line : isLine (e.key va.toNat) = true
  · have looked := homeRead_looked (.inl log) below (curDie s) e.dedup (curDomain s)
    refine ⟨_, ?_, looked⟩
    rw [if_pos line, on_bind_ok (on_apply _ s), on_bind_ok (on_get _), on_pure, looked.mem]
  · refine ⟨s, ?_, (Looked.refl s).mono (by omega)⟩
    rw [if_neg line, on_bind_ok (on_get s)]
    rfl

/-- A write that is not held now is not held after a lookup, while a vat entry is left. -/
theorem Looked.heldBy {s t : State} {n : Nat} (l : Looked s t n) {e : TlbEntry} {a : Nat} (low : a < Config.compBase)
    (free : Machine.heldBy s e a = false) (log : Claims.NoLog s) (room : s.lines.vat.length + n < Config.vatEntries) : Machine.heldBy t e a = false := by
  have stays : e.moving = false := by
    unfold Machine.heldBy at free
    simp only [Bool.or_eq_false_iff] at free
    exact free.1.1
  have fewer := l.room
  simp [Machine.heldBy, stays, Nat.not_le.mpr low, writeHeld_of_room (by omega) (.inl (l.noLog log))]

/-! ## The release -/

theorem remoteOut_iff {s : State} {p : PeerOp → Bool} : remoteOut s p = true ↔ ∃ m, Claims.PeerOut s m ∧ p m.op = true := by
  unfold remoteOut Claims.PeerOut
  simp only [List.any_eq_true, Bool.and_eq_true, Bool.not_eq_true', decide_eq_true_eq, peerMsgs_iff, Claims.OnWire]
  constructor
  · rintro ⟨m, wire, ⟨own, copy⟩, op⟩
    exact ⟨m, ⟨own, copy, wire⟩, op⟩
  · rintro ⟨m, ⟨own, copy, wire⟩, op⟩
    exact ⟨m, wire, ⟨own, copy⟩, op⟩

theorem isPeerSignal_iff {o : PeerOp} : isPeerSignal o = true ↔ ∃ n, o = .signal n := by
  cases o <;> simp [isPeerSignal]

/-- At `.dv` a release waits for the VIQ and for SIGNALs at peers. -/
theorem on_release_dv {s t : State} {n : Nat} (h : Claims.ReleasedAt s .dv) (l : Looked s t n) : Act.on (release .dv) t = (.ok (), t) := by
  obtain ⟨viq, out⟩ := h
  have quiet : remoteOut t isPeerSignal = false := by
    rw [← Bool.not_eq_true, remoteOut_iff]
    rintro ⟨m, sent, op⟩
    obtain ⟨k, op⟩ := isPeerSignal_iff.mp op
    refine out (.inl ⟨m, k, ?_, op⟩)
    unfold Claims.PeerOut at sent ⊢
    rwa [l.cur, l.links] at sent
  unfold release
  rw [on_bind_ok (on_drained_nil (by rw [l.st]; exact viq)), on_bind_ok (on_get t), if_neg]
  · rfl
  · simp [releaseWaits, quiet]

/-! ## The append -/

/-- A register write changes of the strand what it changes of any machine with that strand. -/
theorem retire_writeX_st {s t : State} (st : t.st = s.st) (cycle : t.cycle = s.cycle) (d : XReg) (v : Word) (n : Nat) :
    ((t.writeX d v).retire n).st = ((s.writeX d v).retire n).st := by
  unfold State.retire State.jump State.writeX
  split <;> simp only [st, cycle]

theorem storeL1_keeps (s : State) (c a : Nat) (bs : List Byte) : (storeL1 s c a bs).st = s.st ∧ (storeL1 s c a bs).cycle = s.cycle ∧
    (storeL1 s c a bs).mem = s.mem ∧ (storeL1 s c a bs).lp = s.lp ∧ (storeL1 s c a bs).lines.tags = s.lines.tags := by
  unfold storeL1
  dsimp only
  split <;> exact ⟨rfl, rfl, rfl, rfl, rfl⟩

/-- The number of some of the bytes. -/
theorem bytesToNat_take_drop (bs : List Byte) (k j : Nat) (h : k + j ≤ bs.length) :
    bytesToNat ((bs.drop k).take j) = bytesToNat bs / 256 ^ k % 256 ^ j := by
  have front := bytesToNat_append (bs.take k) (bs.drop k)
  have tail := bytesToNat_append ((bs.drop k).take j) ((bs.drop k).drop j)
  rw [List.take_append_drop, List.length_take_of_le (by omega)] at front
  rw [List.take_append_drop, List.length_take_of_le (by rw [List.length_drop]; omega)] at tail
  have low := bytesToNat_lt (bs.take k)
  have mid := bytesToNat_lt ((bs.drop k).take j)
  rw [List.length_take_of_le (by omega)] at low
  rw [List.length_take_of_le (by rw [List.length_drop]; omega)] at mid
  rw [front, Nat.add_mul_div_left _ _ (Nat.pos_of_ne_zero (by positivity)), Nat.div_eq_of_lt low, Nat.zero_add, tail,
    Nat.add_mul_mod_self_left, Nat.mod_eq_of_lt mid]

/-- The append address after an entry of 64 bytes that hold the number N (R71). -/
def appendAfter (v : Queue) (N : Nat) : Word := if N % 256 = 3 then BitVec.ofNat 64 (N / 2 ^ 320 % 2 ^ 64 / 64 * 64) else v.append + 64

theorem appendAfter_eq (v : Queue) (s : State) (a : Nat) :
    (if bytesToNat ((memRead s.mem a 64).take 1) = 3 then setBits (dwordOf (memRead s.mem a 64) 5) 0 6 0 else v.append + 64) =
      appendAfter v (Claims.number s a 64) := by
  have kind : bytesToNat ((memRead s.mem a 64).take 1) = Claims.number s a 64 % 256 := by
    have := bytesToNat_take_drop (memRead s.mem a 64) 0 1 (by rw [length_memRead]; omega)
    rwa [List.drop_zero, ← number_eq, Nat.pow_zero, Nat.div_one, Nat.pow_one] at this
  have next : dwordOf (memRead s.mem a 64) 5 = BitVec.ofNat 64 (Claims.number s a 64 / 2 ^ 320 % 2 ^ 64) := by
    have := bytesToNat_take_drop (memRead s.mem a 64) 40 8 (by rw [length_memRead]; omega)
    rw [← number_eq, show (256 : Nat) = 2 ^ 8 from rfl, ← Nat.pow_mul, ← Nat.pow_mul, show 8 * 40 = 320 from rfl, show 8 * 8 = 64 from rfl] at this
    exact congrArg (BitVec.ofNat 64) this
  unfold appendAfter
  rw [kind, next]
  split
  · generalize Claims.number s a 64 / 2 ^ 320 = x
    have small : (BitVec.ofNat 64 (x % 2 ^ 64)).toNat = x % 2 ^ 64 := by rw [BitVec.toNat_ofNat, Nat.mod_mod]
    unfold setBits bits
    rw [small]
    congr 1
    omega
  · rfl

/-- What QAPP does once its entry is read and its address is reached. -/
theorem on_qapp_store {s t : State} (l : Looked s t 1) (wf : Claims.Canonical s) (open_ : Claims.NoLog s) (park : s.st.park = 0) {a : Nat} {bs : List Byte}
    (below : a + bs.length ≤ Config.compBase) (len : bs.length ≤ 65) (dedup : Bool) (dom : BitVec 8) (q : Nat) (v : Queue) :
    ∃ u, setQueue (physWrite 65 (storeL1 t (curCore t) a bs) a bs dedup dom) q v = u ∧
      u.mem = memWrite s.mem a bs ∧ u.st = s.st ∧ u.cycle = s.cycle ∧ getQueue u q = v := by
  obtain ⟨st, cycle, mem, lp, tags⟩ := storeL1_keeps t (curCore t) a bs
  have log : Claims.NoLog (storeL1 t (curCore t) a bs) := by unfold Claims.NoLog; rw [tags]; exact l.noLog open_
  have wrote := physWrite_wrote (.inl log) below len dedup dom
  refine ⟨_, rfl, ?_, ?_, ?_, ?_⟩
  · rw [setQueue_mem, wrote.mem, mem, l.mem]
  · rw [setQueue_st, wrote.running (by rw [st, l.st]; exact park), st, l.st]
  · have same : (physWrite 65 (storeL1 t (curCore t) a bs) a bs dedup dom).cycle = s.cycle := by
      rw [wrote.same]
      exact cycle.trans (by rw [l.same])
    exact same
  · refine getQueue_setQueue_self ?_ q v
    rw [wrote.lp, lp, l.lp]
    exact wf.queues

/-- QAPP of an ACTIVE device-mode queue of the strand's context, from bytes and to an address that the strand reaches. -/
theorem exec_qapp_appends {s : State} {d q a : XReg} {e f : TlbEntry} (index : (s.readX q).toNat ≤ 63)
    (ctx : (getQueue s (s.readX q).toNat).ctx = s.st.ctx) (mode : (getQueue s (s.readX q).toNat).qctl.getLsbD 12 = true)
    (active : (getQueue s (s.readX q).toNat).stat = 1) (released : Claims.ReleasedAt s .dv) (park : s.st.park = 0) (wf : Claims.Canonical s)
    (log : Claims.NoLog s) (source : Claims.Reachable s .load (vaOf (s.readX a)) 64 e)
    (target : Claims.Reachable s .store (vaOf (getQueue s (s.readX q).toNat).append) 64 f)
    (free : heldBy s f (f.key (vaOf (getQueue s (s.readX q).toNat).append).toNat) = false) (room : s.lines.vat.length + 1 < Config.vatEntries) :
    ∃ u, exec (.qapp d q a) s = .next ((u.writeX d ((getQueue s (s.readX q).toNat).tail + 1)).retire 4) ∧
      u.mem = memWrite s.mem (f.key (vaOf (getQueue s (s.readX q).toNat).append).toNat) (memRead s.mem (e.key (vaOf (s.readX a)).toNat) 64) ∧
      u.st = s.st ∧ u.cycle = s.cycle ∧ getQueue u (s.readX q).toNat = { getQueue s (s.readX q).toNat with
        append := appendAfter (getQueue s (s.readX q).toNat) (Claims.number s (e.key (vaOf (s.readX a)).toNat) 64)
        tail := (getQueue s (s.readX q).toNat).tail + 1 } := by
  have device : (getQueue s (s.readX q).toNat).deviceMode = true := by
    simpa [Queue.deviceMode, bits, BitVec.getLsbD, Nat.testBit_eq_decide_div_mod_eq] using mode
  obtain ⟨t, read, looked⟩ := on_readAtHome source (by omega) log
  have whole := length_memRead s.mem (e.key (vaOf (s.readX a)).toNat) 64
  obtain ⟨u, stored, mem, st, cycle, queue⟩ := on_qapp_store looked wf log park (bs := memRead s.mem (e.key (vaOf (s.readX a)).toNat) 64)
    (by rw [whole]; exact Claims.Reachable.below target) (by omega) f.dedup (curDomain t) (s.readX q).toNat
    { getQueue s (s.readX q).toNat with
      append := appendAfter (getQueue s (s.readX q).toNat) (Claims.number s (e.key (vaOf (s.readX a)).toNat) 64)
      tail := (getQueue s (s.readX q).toNat).tail + 1 }
  refine ⟨u, ?_, mem, st, cycle, queue⟩
  have held : heldBy t f (f.key (vaOf (getQueue s (s.readX q).toNat).append).toNat) = false :=
    looked.heldBy ((Nat.lt_add_of_pos_right (by omega : 0 < 64)).trans_le (Claims.Reachable.below target)) free log room
  have aligned' : Act.on (aligned (vaOf (s.readX a)) 64) s = (.ok (), s) := by
    unfold aligned
    rw [if_neg (by rw [source.aligned]; decide)]
    rfl
  have guard : Act.on (holdGuard f (f.key (vaOf (getQueue s (s.readX q).toNat).append).toNat)) t = (.ok (), t) := by
    unfold holdGuard
    rw [on_bind_ok (on_get t), held]
    rfl
  rw [exec_qapp]
  unfold execQapp
  refine scalar_ok ?_
  dsimp only
  rw [if_neg (by simp [index, ctx, device, active]), on_bind_ok aligned', on_bind_ok (on_translate_looked source (.refl s)),
    if_neg source.memory, on_bind_ok read, on_bind_ok (on_release_dv released looked), on_bind_ok (on_translate_looked target looked),
    if_neg target.memory, on_bind_ok (on_homeGuard_looked target looked), on_bind_ok guard, on_apply, appendAfter_eq, stored]

/-- Settles O19: QWAIT by how its wait stands, QAPP by what its reads, its release and its store do. -/
theorem queueForms : Obligations.QueueForms := by
  unfold Obligations.QueueForms
  intro s d q a e f n Q
  refine ⟨fun w answered => exec_qwait_answered answered, fun index ctx fresh => ⟨fun reached => ?_, fun short error => ?_, fun short runs => ?_⟩, ?_⟩
  · rw [exec_qwait_goes index ctx fresh (.inl reached), if_pos reached]
  · rw [exec_qwait_goes index ctx fresh (.inr error), if_neg short, Queue.status, error]
    rfl
  · exact exec_qwait_parks index ctx fresh short runs
  · intro src dst N index ctx mode active released park wf log source target free _ room
    obtain ⟨u, appends, mem, st, cycle, queue⟩ := exec_qapp_appends (d := d) index ctx mode active released park wf log source target free room
    have kept (p : Nat) : getQueue ((u.writeX d (Q.tail + 1)).retire 4) p = getQueue u p := getQueue_congr (congrArg LaunchProc.queues (writeX_lp u d _)) p
    refine ⟨_, appends, stored_of_mem wf.mem ?_, retire_writeX_st st cycle _ _ _, ?_, ?_⟩
    · rw [natToBytes_number]
      exact (writeX_mem u d _).trans mem
    · rw [kept, queue]
    · rw [kept, queue]
      rfl

end Sys2Proof.Machine
end
section
/-! The event ring's registers (R70). -/

namespace Sys2Proof.Machine

theorem exec_eventRecordWrite (s : State) : exec .eventRecordWrite s = .next (flushEvents 1 s) := rfl
theorem exec_evheadWrite (v : Word) (s : State) : exec (.evheadWrite v) s = .next (byHost 0x1010 (writeEvhead · v) s) := rfl
theorem exec_evovfRead (s : State) : exec .evovfRead s =
    .next (if hostMay s 0x1020 then answer { s with ev := { s.ev with evovf := 0 } } (natToBytes 8 s.ev.evovf.toNat) else answer s (allOnes 8)) := rfl

/-- The oldest held record is written while the ring has room. -/
theorem flushEvents_room {s : State} {r : EvRec} {rest : List EvRec} (held : s.ev.held = r :: rest) (room : ringRoom s.ev = true) :
    flushEvents 1 s = putRecord { s with ev := { s.ev with held := rest } } r := by
  unfold flushEvents
  rw [held]
  exact if_pos room

theorem flushEvents_none {s : State} (held : s.ev.held = []) (n : Nat) : flushEvents n s = s := by
  cases n with
  | zero => rfl
  | succ n => unfold flushEvents; rw [held]

theorem flushEvents_full {s : State} (full : ringRoom s.ev = false) (n : Nat) : flushEvents n s = s := by
  cases n with
  | zero => rfl
  | succ n =>
    unfold flushEvents
    split
    · rfl
    · rw [if_neg (by rw [full]; exact Bool.false_ne_true)]

theorem eventRing : Claims.EventRing := by
  intro s v
  rw [exec_eventRecordWrite, exec_evheadWrite, exec_evovfRead]
  refine ⟨fun r rest held room => ?_, fun stays => ?_, fun dropped => ⟨?_, ?_⟩, fun serves none => ?_, fun serves => ?_⟩
  · rw [flushEvents_room held room]
    refine ⟨_, rfl, ⟨rfl, rfl, rfl, rfl⟩, rfl, rfl, rfl, ?_⟩
    show (s.links.msix ||| 1).getLsbD 0 = true
    simp
  · rcases stays with none | full
    · rw [flushEvents_none none]
    · rw [flushEvents_full full]
  · rw [byHost_dropped (by decide) dropped]
  · rw [if_neg fun may => dropped ((hostMay_iff (by decide)).mp may)]
  · rw [byHost_serves (by decide) serves]
    unfold writeEvhead
    split
    · rw [flushEvents_none (by exact none)]
      exact ⟨_, rfl, ⟨rfl, rfl, rfl, rfl⟩, rfl, rfl⟩
    · exact ⟨_, rfl, ⟨rfl, rfl, rfl, rfl⟩, rfl, rfl⟩
  · rw [if_pos ((hostMay_iff (by decide)).mpr serves)]
    exact ⟨_, rfl, ⟨rfl, rfl, rfl, rfl⟩, rfl, rfl⟩

end Sys2Proof.Machine
end
section
/-! SUPPORT. Strands changed by a test: each strand on its own (Table 3.9). -/

namespace Sys2Proof.Machine

theorem insertNat_pairwise {k : Nat} {l : List Nat} (h : l.Pairwise (· < ·)) : (insertNat k l).Pairwise (· < ·) := by
  induction l with
  | nil => simp [insertNat]
  | cons a l ih =>
    obtain ⟨first, rest⟩ := List.pairwise_cons.mp h
    unfold insertNat
    split
    · next below =>
      refine List.pairwise_cons.mpr ⟨fun b hb => ?_, h⟩
      rcases List.mem_cons.mp hb with rfl | hb
      · exact below
      · exact below.trans (first b hb)
    split
    · exact h
    · next notBelow ne =>
      refine List.pairwise_cons.mpr ⟨fun b hb => ?_, ih rest⟩
      rcases mem_insertNat.mp hb with rfl | hb
      · omega
      · exact first b hb

theorem keys_pairwise {β : Type} [DecidableEq β] {d : β} {t : List (Nat × β)} (h : sparseWf d t = true) : (t.map (·.1)).Pairwise (· < ·) := by
  induction t with
  | nil => exact .nil
  | cons e t ih =>
    obtain ⟨k, v⟩ := e
    unfold sparseWf at h
    simp only [Bool.and_eq_true, List.all_eq_true, decide_eq_true_eq] at h
    obtain ⟨⟨_, first⟩, rest⟩ := h
    refine List.pairwise_cons.mpr ⟨fun b hb => ?_, ih rest⟩
    obtain ⟨x, hx, rfl⟩ := List.mem_map.mp hb
    exact first x hx

theorem strandNums_pairwise {s : State} (h : sparseWf {} s.others = true) : (strandNums s).Pairwise (· < ·) := insertNat_pairwise (keys_pairwise h)

theorem strandsWhere_nodup {s : State} (h : sparseWf {} s.others = true) (p : Strand → Bool) : (strandsWhere s p).Nodup :=
  ((strandNums_pairwise h).imp fun lt => Nat.ne_of_lt lt).filter _

/-- A test that no strand at reset passes lists just those that pass it. -/
theorem mem_strandsWhere_iff {s : State} {p : Strand → Bool} (hp : p {} = false) {n : Nat} : n ∈ strandsWhere s p ↔ p (getStrand s n) = true := by
  rw [mem_strandsWhere]
  refine and_iff_right_of_imp fun passes => by_contra fun absent => ?_
  rw [getStrand_of_not_mem absent, hp] at passes
  cases passes

theorem getStrand_modStrands {s : State} (h : sparseWf {} s.others = true) (f : Strand → Strand) {l : List Nat} (once : l.Nodup) (n : Nat) :
    getStrand (l.foldl (fun s n => modStrand s n f) s) n = if n ∈ l then f (getStrand s n) else getStrand s n := by
  induction l generalizing s with
  | nil => rfl
  | cons k l ih =>
    obtain ⟨apart, once⟩ := List.nodup_cons.mp once
    have step (j : Nat) : getStrand (modStrand s k f) j = if j = k then f (getStrand s k) else getStrand s j := getStrand_setStrand h k _ j
    rw [List.foldl_cons, ih (s := modStrand s k f) (setStrand_others_wf h k _) once, step]
    by_cases here : n = k
    · subst here
      simp [apart]
    · simp [here]

/-- Every strand that passes a test is changed, and no other. -/
theorem getStrand_modStrandsWhere {s : State} (h : sparseWf {} s.others = true) {p : Strand → Bool} (hp : p {} = false) (f : Strand → Strand) (n : Nat) :
    getStrand (modStrandsWhere s p f) n = if p (getStrand s n) then f (getStrand s n) else getStrand s n := by
  unfold modStrandsWhere
  rw [getStrand_modStrands h f (strandsWhere_nodup h p)]
  simp only [mem_strandsWhere_iff hp]

theorem modStrandsWhere_wf {s : State} (h : sparseWf {} s.others = true) (p : Strand → Bool) (f : Strand → Strand) :
    sparseWf {} (modStrandsWhere s p f).others = true := by
  have fold (l : List Nat) (s : State) (h : sparseWf {} s.others = true) : sparseWf {} (l.foldl (fun s n => modStrand s n f) s).others = true := by
    induction l generalizing s with
    | nil => exact h
    | cons n l ih => exact ih _ (setStrand_others_wf h n _)
  exact fold _ s h

end Sys2Proof.Machine
end
section
/-! SUPPORT. The vine structures as the device reads and writes them, on one page that the last-level TLB of M0 holds (R133, R134). -/

namespace Sys2Proof.Machine

theorem Backed.of_vineSpace {s : State} {P : TlbEntry} (h : Claims.VineSpace s P) (home : curDie s = 0) : Backed s P 8192 := by
  obtain ⟨r, w, _, moving, tier⟩ := h.allowed
  obtain ⟨below, base, vpage, top⟩ := h.place
  obtain ⟨poison, rdc, words, vat⟩ := h.sound
  obtain ⟨_, watches, _⟩ := h.idle
  exact ⟨by rw [h.dieTlb, home], ⟨r, w, moving, by rw [tier]; decide, poison⟩, .inl below, ⟨base, vpage, top⟩, ⟨words, rdc, vat⟩, h.up, .inr h.room,
    watches, h.room.1⟩

section
variable {s : State} {P : TlbEntry} {n k : Nat} {va : VAddr} (b : Backed s P (n + 2)) (tier : P.tier = 0) (h : Claims.Inside P va.toNat k) (hk : 0 < k)
include b tier h hk

theorem Backed.on_vineAt : Act.on (vineAt (vineDevice P.ctx) va) s = (.ok (P, P.key va.toNat), s) := by
  have page : Act.on (pageFrom va (vineWalk (vineDevice P.ctx) va)) s = (.ok P, s) := by
    unfold pageFrom
    rw [on_bind_ok (on_lift _ s), show vineWalk (vineDevice P.ctx) va s = (.found P, s) from b.translate h hk]
    rfl
  have guard : Act.on (homeGuard va (P.key va.toNat)) s = (.ok (), s) := by
    unfold homeGuard
    rw [on_bind_ok (on_get s), homeInReset_up b.up]
    rfl
  unfold vineAt
  rw [on_bind_ok page, if_neg (by rw [tier]; decide)]
  exact on_bind_ok guard

omit tier h hk in
theorem Backed.on_vinePoison (a : Nat) : Act.on (vinePoison (vineDevice P.ctx) va a k) s = (.ok (), s) := by
  unfold vinePoison vineBad
  rw [on_bind_ok (on_get s), poisonedAt_errorFree b.free, rdcPoisoned_errorFree b.free]
  rfl

theorem Backed.on_vineRead : ∃ t, Act.on (vineRead (vineDevice P.ctx) va k) s = (.ok (Claims.at_ s P va.toNat k), t) ∧ Looked s t 1 := by
  have below : lineOf (P.key va.toNat) < Config.compBase :=
    (Nat.div_mul_le_self _ 128).trans_lt (by have := b.key_lt h; omega)
  have looked := homeRead_looked (b.fits.mono (show 1 ≤ n + 2 by omega)) below 0 P.dedup (ctxDomain s P.ctx)
  refine ⟨_, ?_, looked⟩
  unfold vineRead
  rw [on_bind_ok (b.on_vineAt tier h hk)]
  dsimp only
  rw [show Act.on (vineL1 (vineDevice P.ctx) (P.key va.toNat) k >>= _) s = _ from on_bind_ok (s' := s) rfl, on_bind_ok (b.on_vinePoison _),
    on_bind_ok (on_apply _ s), on_bind_ok (on_get _), on_pure, memNat]
  unfold vineDevice
  dsimp only
  rw [looked.mem, ← number_eq]
  rfl

theorem Backed.on_vineWrite (v : Nat) : ∃ t, Act.on (vineWrite (vineDevice P.ctx) va k v) s = (.ok (), t) ∧
    Wrote s t (Claims.keyAt P va.toNat) (natToBytes k v) 2 := by
  have below : P.key va.toNat < Config.compBase := by have := b.key_lt h; omega
  refine ⟨_, ?_, homeWrite_wrote (b.fits.mono (show 2 ≤ n + 2 by omega)) below (natToBytes k v) P.dedup (ctxDomain s P.ctx)⟩
  unfold vineWrite
  rw [on_bind_ok (b.on_vineAt tier h hk)]
  dsimp only
  rw [show Act.on (vineL1 (vineDevice P.ctx) (P.key va.toNat) k >>= _) s = _ from on_bind_ok (s' := s) rfl, on_bind_ok (b.on_vinePoison _),
    on_bind_ok (on_get s), if_neg (by simp [b.heldBy (by omega) h hk])]
  rfl

end

end Sys2Proof.Machine
end
section
/-! SUPPORT. Entries of the vine table as the device reads them (R134, R135). -/

namespace Sys2Proof.Machine

theorem offset_toNat {a k : Nat} (h : a + k < 2 ^ 48) : (BitVec.ofNat 48 a + BitVec.ofNat 48 k).toNat = a + k := by
  rw [BitVec.toNat_add, BitVec.toNat_ofNat, BitVec.toNat_ofNat]
  omega

theorem at_congr {s t : State} (h : t.mem = s.mem) (P : TlbEntry) (va n : Nat) : Claims.at_ t P va n = Claims.at_ s P va n := number_congr h _ _

theorem at_lt (s : State) (P : TlbEntry) (va : Nat) : Claims.at_ s P va 8 < 2 ^ 64 := number_lt _ _ 8

/-- Entry h of the vine table of the focused strand's context, as memory holds it. -/
def vineIn (s : State) (P : TlbEntry) (h : Nat) : Vine :=
  let w (k : Nat) : Word := BitVec.ofNat 64 (Claims.vineWord s P h k)
  { h := h, va := vineEntry s s.st.ctx h, w0 := w 0, w1 := w 1, w2 := w 2, w3 := w 3, w4 := w 4, w5 := w 5, w6 := w 6, w7 := w 7 }

/-- The device reaches the vine structures of the focused strand's context, with n more vat entries at hand. -/
structure VineReach (s : State) (P : TlbEntry) (n : Nat) : Prop extends Backed s P n where
  tier  : P.tier = 0
  ctx   : P.ctx = s.st.ctx
  whole_ : s.broken = []

theorem VineReach.of_space {s : State} {P : TlbEntry} (h : Claims.VineSpace s P) (home : curDie s = 0) : VineReach s P 8192 :=
  have ⟨_, _, _, _, tier⟩ := h.allowed
  have ⟨_, _, broken⟩ := h.idle
  ⟨.of_vineSpace h home, tier, h.ctx, broken⟩

theorem Looked.vineReach {s t : State} {P : TlbEntry} {n k : Nat} (l : Looked s t k) (r : VineReach s P (n + k)) : VineReach t P n :=
  ⟨l.backed r.toBacked, r.tier, by rw [l.st]; exact r.ctx, by rw [l.same]; exact r.whole_⟩

theorem VineReach.mono {s : State} {P : TlbEntry} {n m : Nat} (h : VineReach s P n) (le : m ≤ n) : VineReach s P m :=
  ⟨h.toBacked.mono le, h.tier, h.ctx, h.whole_⟩

section
variable {s : State} {P : TlbEntry} {h : Nat} (inside : Claims.Inside P (Claims.vineVa s h 0) 64)
include inside

/-- A word of an entry, read after some lookups. -/
theorem VineReach.on_word {t : State} {n i : Nat} (l : Looked s t i) (r : VineReach t P (n + 2)) {k : Nat} (hk : k < 8) :
    ∃ u, Act.on (vineRead (vineDevice P.ctx) (vineEntry s s.st.ctx h + BitVec.ofNat 48 (8 * k)) 8) t = (.ok (Claims.vineWord s P h k), u) ∧ Looked s u (i + 1) := by
  obtain ⟨low, high⟩ := inside
  obtain ⟨_, _, top⟩ := r.whole
  have place : (vineEntry s s.st.ctx h + BitVec.ofNat 48 (8 * k)).toNat = Claims.vineVa s h k := by
    unfold Claims.vineVa at high ⊢
    exact offset_toNat (by omega)
  have step : Claims.vineVa s h k = Claims.vineVa s h 0 + 8 * k := rfl
  obtain ⟨u, read, looked⟩ := r.on_vineRead r.tier (va := vineEntry s s.st.ctx h + BitVec.ofNat 48 (8 * k)) (k := 8)
    (by rw [place, step]; exact ⟨by omega, by omega⟩) (by omega)
  rw [place, at_congr l.mem] at read
  exact ⟨u, read, l.trans looked⟩

theorem VineReach.on_readEntry {n : Nat} (r : VineReach s P (n + 9)) :
    ∃ t, Act.on (readEntry (vineDevice P.ctx) h) s = (.ok (vineIn s P h), t) ∧ Looked s t 8 := by
  obtain ⟨t0, r0, l0⟩ := VineReach.on_word inside (Looked.refl s) (r.mono (show 0 + 2 ≤ n + 9 by omega)) (k := 0) (by omega)
  obtain ⟨t1, r1, l1⟩ := VineReach.on_word inside l0 (l0.vineReach (r.mono (show 0 + 2 + 1 ≤ n + 9 by omega))) (k := 1) (by omega)
  obtain ⟨t2, r2, l2⟩ := VineReach.on_word inside l1 (l1.vineReach (r.mono (show 0 + 2 + 2 ≤ n + 9 by omega))) (k := 2) (by omega)
  obtain ⟨t3, r3, l3⟩ := VineReach.on_word inside l2 (l2.vineReach (r.mono (show 0 + 2 + 3 ≤ n + 9 by omega))) (k := 3) (by omega)
  obtain ⟨t4, r4, l4⟩ := VineReach.on_word inside l3 (l3.vineReach (r.mono (show 0 + 2 + 4 ≤ n + 9 by omega))) (k := 4) (by omega)
  obtain ⟨t5, r5, l5⟩ := VineReach.on_word inside l4 (l4.vineReach (r.mono (show 0 + 2 + 5 ≤ n + 9 by omega))) (k := 5) (by omega)
  obtain ⟨t6, r6, l6⟩ := VineReach.on_word inside l5 (l5.vineReach (r.mono (show 0 + 2 + 6 ≤ n + 9 by omega))) (k := 6) (by omega)
  obtain ⟨t7, r7, l7⟩ := VineReach.on_word inside l6 (l6.vineReach (r.mono (show 0 + 2 + 7 ≤ n + 9 by omega))) (k := 7) (by omega)
  have whole : t7.broken = [] := by rw [l7.same]; exact r.whole_
  refine ⟨t7, ?_, l7⟩
  unfold readEntry
  rw [on_bind_ok (on_get s), show (vineDevice P.ctx).ctx = s.st.ctx from r.ctx]
  have word {t u : State} {k v : Nat} (read : Act.on (vineRead (vineDevice P.ctx) (vineEntry s s.st.ctx h + BitVec.ofNat 48 (8 * k)) 8) t = (.ok v, u)) :
      Act.on (do pure (w64 (← vineRead (vineDevice P.ctx) (vineEntry s s.st.ctx h + BitVec.ofNat 48 (8 * k)) 8))) t = (.ok (w64 v), u) := on_bind_ok read
  dsimp only
  rw [on_bind_ok (word r0), on_bind_ok (word r1), on_bind_ok (word r2), on_bind_ok (word r3), on_bind_ok (word r4), on_bind_ok (word r5),
    on_bind_ok (word r6), on_bind_ok (word r7), on_bind_ok (on_get t7), on_pure, whole]
  rfl

end

/-! ## Valid descriptors and pools -/

theorem bits_ofNat {w : Nat} (h : w < 2 ^ 64) (lo n : Nat) : bits (BitVec.ofNat 64 w) lo n = w / 2 ^ lo % 2 ^ n := by
  rw [bits, BitVec.toNat_ofNat, Nat.mod_eq_of_lt h]

theorem vineWord_lt (s : State) (P : TlbEntry) (h k : Nat) : Claims.vineWord s P h k < 2 ^ 64 := at_lt s P _

theorem vineIn_valid {s : State} {P : TlbEntry} {h : Nat} (v : Claims.IsVine s P h) : (vineIn s P h).valid = true := by
  obtain ⟨kind, state⟩ := v.kind
  obtain ⟨page, low, top, mid, flags, last⟩ := v.res
  have lt := vineWord_lt s P h
  unfold Claims.overlay at page low
  have high : Claims.vineWord s P h 2 / 2 ^ 48 % 2 ^ 16 = 0 := by rw [page]; rfl
  have zero : (vineIn s P h).w7 = 0 := congrArg (BitVec.ofNat 64) last
  have w2 : (vineIn s P h).w2 = BitVec.ofNat 64 (Claims.vineWord s P h 2) := rfl
  have w4 : (vineIn s P h).w4 = BitVec.ofNat 64 (Claims.vineWord s P h 4) := rfl
  unfold Vine.valid Vine.kind Vine.state
  rw [zero, w2, w4, bits_ofNat (lt 4), bits_ofNat (lt 4), bits_ofNat (lt 2), bits_ofNat (lt 2), bits_ofNat (lt 4), bits_ofNat (lt 4), bits_ofNat (lt 4)]
  unfold Claims.vineStateOf at state
  refine Bool.and_eq_true_iff.mpr ⟨rfl, decide_eq_true ⟨kind, ?_, high, ?_, top, mid, flags, rfl⟩⟩
  · rwa [Nat.pow_zero, Nat.div_one]
  · rwa [Nat.pow_zero, Nat.div_one]

theorem vineIn_state (s : State) (P : TlbEntry) (h : Nat) : (vineIn s P h).state = Claims.vineStateOf s P h := by
  have w4 : (vineIn s P h).w4 = BitVec.ofNat 64 (Claims.vineWord s P h 4) := rfl
  unfold Vine.state Claims.vineStateOf
  rw [w4, bits_ofNat (vineWord_lt s P h 4), Nat.pow_zero, Nat.div_one]
  rfl

theorem vineIn_cmtLen (s : State) (P : TlbEntry) (h : Nat) : (vineIn s P h).cmtLen = Claims.cmtLen s P h := by
  have w0 : (vineIn s P h).w0 = BitVec.ofNat 64 (Claims.vineWord s P h 0) := rfl
  unfold Vine.cmtLen Claims.cmtLen
  rw [w0, bits_ofNat (vineWord_lt s P h 0), Nat.pow_zero, Nat.div_one]

/-- A pool entry, as it is read. -/
theorem poolOf_vineIn {s : State} {P : TlbEntry} {p b : Nat} (v : Claims.IsPool s P p b) : poolOf (vineIn s P p) =
    some { h := p, base := BitVec.ofNat 48 (Claims.vineWord s P p 0), counts := BitVec.ofNat 48 (Claims.vineWord s P p 1), tokb := b } := by
  obtain ⟨base, line⟩ := v.base
  obtain ⟨counts, even⟩ := v.counts
  obtain ⟨w2, w4, w5, w6, w7⟩ := v.others
  obtain ⟨w3, whole, least, most⟩ := v.tokb
  have lt := vineWord_lt s P p
  have field (k lo n : Nat) : bits (BitVec.ofNat 64 (Claims.vineWord s P p k)) lo n = Claims.vineWord s P p k / 2 ^ lo % 2 ^ n := bits_ofNat (lt k) lo n
  have small (k : Nat) : (BitVec.ofNat 64 (Claims.vineWord s P p k)).toNat = Claims.vineWord s P p k := by
    rw [BitVec.toNat_ofNat, Nat.mod_eq_of_lt (lt k)]
  have tokens : Claims.vineWord s P p 3 / 2 ^ 0 % 2 ^ 16 = b := by rw [w3]; omega
  unfold poolOf vineIn
  dsimp only
  simp only [field, small, tokens]
  rw [if_pos]
  refine ⟨by omega, by omega, by omega, by omega, by omega, by omega, ?_, ?_, ?_, ?_, whole, least, most⟩
  · rw [w4]; rfl
  · rw [w5]; rfl
  · rw [w6]; rfl
  · rw [w7]; rfl

section
variable {s : State} {P : TlbEntry} {n h : Nat} (r : VineReach s P (n + 9))
include r

theorem VineReach.on_readVine (v : Claims.IsVine s P h) : ∃ t, Act.on (readVine (vineDevice P.ctx) h) s = (.ok (vineIn s P h), t) ∧ Looked s t 8 := by
  obtain ⟨t, read, looked⟩ := r.on_readEntry v.inside
  refine ⟨t, ?_, looked⟩
  unfold readVine
  rw [on_bind_ok (on_get s), if_neg (by rw [show (vineDevice P.ctx).ctx = s.st.ctx from r.ctx]; exact Nat.not_le.mpr v.listed), on_bind_ok read,
    vineIn_valid v]
  rfl

theorem VineReach.on_readPool {b : Nat} (v : Claims.IsPool s P h b) : ∃ t, Act.on (readPool (vineDevice P.ctx) h) s = (.ok (some
    { h, base := BitVec.ofNat 48 (Claims.vineWord s P h 0), counts := BitVec.ofNat 48 (Claims.vineWord s P h 1), tokb := b }), t) ∧ Looked s t 8 := by
  obtain ⟨t, read, looked⟩ := r.on_readEntry v.inside
  refine ⟨t, ?_, looked⟩
  unfold readPool
  rw [on_bind_ok (on_get s), if_neg (by rw [show (vineDevice P.ctx).ctx = s.st.ctx from r.ctx]; exact Nat.not_le.mpr v.listed), on_bind_ok read,
    poolOf_vineIn v]
  rfl

end

/-! ## What an operation is part of -/

theorem on_dueOr_ok {c : BitVec 12} {h : BitVec 32} {u : VineDue} {a : Act Unit} {s t : State} (run : Act.on a s = (.ok (), t)) :
    Act.on (dueOr c h u a) s = (.ok (), t) := by
  unfold dueOr
  rw [on_bind_ok (on_get s), run]
  rfl

theorem on_vineAtomic_ok {a : Act Unit} {s t : State} (run : Act.on a s = (.ok (), t)) : Act.on (vineAtomic a) s = (.ok (), t) := by
  unfold vineAtomic
  rw [on_bind_ok (on_get s), run]
  rfl

theorem event_ok {a : Act Unit} {s t : State} (run : Act.on a s = (.ok (), t)) : event a s = .next t := by
  unfold event
  rw [run]

end Sys2Proof.Machine
end
section
/-! VINE: requests at a page pool's home (R133, R137). -/

namespace Sys2Proof.Machine

/-- What VINE does for a request. -/
def vineRequestOf (ctx : BitVec 12) (handle : BitVec 32) (r : VineReq) : Act Unit :=
  let f := vineDevice ctx
  let h := handle.toNat
  match r with
  | .countUp g => dueOr ctx handle (.count true g) (vineAtomic (countPage f h true g))
  | .countDown g => dueOr ctx handle (.count false g) (vineAtomic (countPage f h false g))
  | .readCommitted => do
    let (x, s') := Act.on (readVine f h) (← get)
    match x with
    | .ok d => set { s' with links := { s'.links with answer := natToBytes 4 d.cmtLen } }
    | .error .again => set s'
    | .error _ => pure ()

theorem exec_vine (c : BitVec 12) (h : BitVec 32) (r : VineReq) (s : State) : exec (.vine c h r) s = event (vineRequestOf c h r) s := by
  cases r <;> rfl

/-- The pool of a valid pool entry. -/
def poolIn (s : State) (P : TlbEntry) (h b : Nat) : Pool :=
  { h, base := BitVec.ofNat 48 (Claims.vineWord s P h 0), counts := BitVec.ofNat 48 (Claims.vineWord s P h 1), tokb := b }

section
variable {s t : State} {P : TlbEntry} {n i h g b : Nat} (l : Looked s t i) (r : VineReach t P (n + 3))
    (inside : Claims.Inside P (Claims.countAt s P h g) 2)
include l r inside

omit l in
theorem countVa_toNat : (countVa (poolIn s P h b) g).toNat = Claims.countAt s P h g := by
  obtain ⟨low, high⟩ := inside
  obtain ⟨_, _, top⟩ := r.whole
  unfold Claims.countAt at high ⊢
  exact offset_toNat (by omega)

/-- A count that is not pinned at 0xFFFF, nor at 0 on its way down, changes by one, and nothing else. -/
theorem on_changeCount {up : Bool} (moves : ¬ (Claims.count s P h g = 0xFFFF ∨ (Claims.count s P h g = 0 ∧ (! up) = true))) :
    ∃ u k, Act.on (changeCount (vineDevice P.ctx) (poolIn s P h b) g up) t =
        (.ok (.ok (some (if up then Claims.count s P h g + 1 else Claims.count s P h g - 1))), u) ∧
      Wrote s u (Claims.keyAt P (Claims.countAt s P h g)) (natToBytes 2 (if up then Claims.count s P h g + 1 else Claims.count s P h g - 1)) k := by
  have place := countVa_toNat (b := b) r inside
  have there : Claims.Inside P (countVa (poolIn s P h b) g).toNat 2 := by rwa [place]
  have back : Backed t P (n + 1 + 2) := r.toBacked
  obtain ⟨u, read, looked⟩ := back.on_vineRead r.tier there (by omega)
  obtain ⟨w, write, wrote⟩ := (looked.backed (n := n + 2) back).on_vineWrite r.tier there (by omega)
    (if up then Claims.count s P h g + 1 else Claims.count s P h g - 1)
  rw [place, at_congr l.mem, show Claims.at_ s P (Claims.countAt s P h g) 2 = Claims.count s P h g from rfl] at read
  rw [place] at wrote
  refine ⟨w, _, ?_, ((l.trans looked).wrote _).append (by rw [List.length_nil, Nat.add_zero]) wrote⟩
  unfold changeCount
  rw [on_bind_ok (back.on_vineAt r.tier there (by omega))]
  dsimp only
  rw [show Act.on (vineL1 (vineDevice P.ctx) (P.key (countVa (poolIn s P h b) g).toNat) 2 >>= _) t = _ from on_bind_ok (s' := t) rfl,
    on_bind_ok (on_get t)]
  unfold vineBad
  rw [poisonedAt_errorFree back.free, rdcPoisoned_errorFree back.free, Bool.or_false, if_neg Bool.false_ne_true, on_bind_ok read, if_neg moves,
    on_bind_ok write]
  rfl

/-- A count that is pinned stays. -/
theorem on_changeCount_pinned (pinned : Claims.count s P h g = 0xFFFF) (up : Bool) :
    ∃ u, Act.on (changeCount (vineDevice P.ctx) (poolIn s P h b) g up) t = (.ok (.ok none), u) ∧ Looked s u (i + 1) := by
  have place := countVa_toNat (b := b) r inside
  have there : Claims.Inside P (countVa (poolIn s P h b) g).toNat 2 := by rwa [place]
  have back : Backed t P (n + 1 + 2) := r.toBacked
  obtain ⟨u, read, looked⟩ := back.on_vineRead r.tier there (by omega)
  rw [place, at_congr l.mem, show Claims.at_ s P (Claims.countAt s P h g) 2 = Claims.count s P h g from rfl] at read
  refine ⟨u, ?_, l.trans looked⟩
  unfold changeCount
  rw [on_bind_ok (back.on_vineAt r.tier there (by omega))]
  dsimp only
  rw [show Act.on (vineL1 (vineDevice P.ctx) (P.key (countVa (poolIn s P h b) g).toNat) 2 >>= _) t = _ from on_bind_ok (s' := t) rfl,
    on_bind_ok (on_get t)]
  unfold vineBad
  rw [poisonedAt_errorFree back.free, rdcPoisoned_errorFree back.free, Bool.or_false, if_neg Bool.false_ne_true, on_bind_ok read,
    if_pos (.inl pinned)]
  rfl

end

section
variable {s : State} {P : TlbEntry} {h : BitVec 32} {g b : Nat} (r : VineReach s P 8192) (pool : Claims.IsPool s P h.toNat b)
    (inside : Claims.Inside P (Claims.countAt s P h.toNat g) 2)
include r pool inside

theorem on_countPage_up (below : Claims.count s P h.toNat g < 0xFFFF) : ∃ u k, Act.on (countPage (vineDevice P.ctx) h.toNat true g) s = (.ok (), u) ∧
    Wrote s u (Claims.keyAt P (Claims.countAt s P h.toNat g)) (natToBytes 2 (Claims.count s P h.toNat g + 1)) k := by
  obtain ⟨t, read, looked⟩ := VineReach.on_readPool (n := 100) (r.mono (by omega)) pool
  obtain ⟨u, k, changed, wrote⟩ := on_changeCount (b := b) looked (looked.vineReach (n := 100 + 3) (r.mono (by omega))) inside (up := true)
    (by simp; omega)
  refine ⟨u, k, ?_, wrote⟩
  unfold countPage
  rw [on_bind_ok read]
  exact on_bind_ok changed

theorem on_countPage_down (above : 1 < Claims.count s P h.toNat g) (below : Claims.count s P h.toNat g < 0xFFFF) :
    ∃ u k, Act.on (countPage (vineDevice P.ctx) h.toNat false g) s = (.ok (), u) ∧
      Wrote s u (Claims.keyAt P (Claims.countAt s P h.toNat g)) (natToBytes 2 (Claims.count s P h.toNat g - 1)) k := by
  obtain ⟨t, read, looked⟩ := VineReach.on_readPool (n := 100) (r.mono (by omega)) pool
  obtain ⟨u, k, changed, wrote⟩ := on_changeCount (b := b) looked (looked.vineReach (n := 100 + 3) (r.mono (by omega))) inside (up := false)
    (by omega)
  refine ⟨u, k, ?_, wrote⟩
  have dropped : Act.on (dropPage (vineDevice P.ctx) h.toNat (poolIn s P h.toNat b) g) t = (.ok none, u) := by
    unfold dropPage
    rw [on_bind_ok changed, if_neg Bool.false_ne_true]
    generalize hm : Claims.count s P h.toNat g - 1 = m
    obtain _ | m := m
    · omega
    · rfl
  unfold countPage
  rw [on_bind_ok read]
  exact on_bind_ok dropped

theorem on_countPage_pinned (pinned : Claims.count s P h.toNat g = 0xFFFF) :
    ∃ u k, Act.on (countPage (vineDevice P.ctx) h.toNat true g) s = (.ok (), u) ∧ Looked s u k := by
  obtain ⟨t, read, looked⟩ := VineReach.on_readPool (n := 100) (r.mono (by omega)) pool
  obtain ⟨u, same, looked⟩ := on_changeCount_pinned (b := b) looked (looked.vineReach (n := 100 + 3) (r.mono (by omega))) inside pinned true
  refine ⟨u, _, ?_, looked⟩
  unfold countPage
  rw [on_bind_ok read]
  exact on_bind_ok same

end

theorem vineRequest : Claims.VineRequest := by
  intro s P c h g b a n wf here
  obtain ⟨space, home, rfl⟩ := here
  have r := VineReach.of_space space home
  have ctx : P.ctx = s.st.ctx := space.ctx
  obtain ⟨park, _, _⟩ := space.idle
  simp only [exec_vine]
  refine ⟨fun live => ?_, fun pool inside _ => ⟨fun below => ?_, fun above below => ?_, fun pinned => ?_⟩⟩
  · obtain ⟨t, read, looked⟩ := VineReach.on_readVine (n := 100) (r.mono (by omega)) live.vine
    rw [ctx] at read
    refine ⟨_, event_ok (t := { t with links := { t.links with answer := natToBytes 4 (vineIn s P h.toNat).cmtLen } }) ?_,
      sameMem_of_mem looked.mem, looked.st, ?_⟩
    · unfold vineRequestOf
      dsimp only
      rw [on_bind_ok (on_get s), read]
      rfl
    · show natToBytes 4 (vineIn s P h.toNat).cmtLen = _
      rw [vineIn_cmtLen]
  · obtain ⟨u, k, run, wrote⟩ := on_countPage_up r pool inside below
    rw [ctx] at run
    exact ⟨u, event_ok (on_dueOr_ok (on_vineAtomic_ok run)), wrote.running park, stored_of_mem wf.mem wrote.mem⟩
  · obtain ⟨u, k, run, wrote⟩ := on_countPage_down r pool inside above below
    rw [ctx] at run
    exact ⟨u, event_ok (on_dueOr_ok (on_vineAtomic_ok run)), wrote.running park, stored_of_mem wf.mem wrote.mem⟩
  · obtain ⟨u, k, run, looked⟩ := on_countPage_pinned r pool inside pinned
    rw [ctx] at run
    exact ⟨u, event_ok (on_dueOr_ok (on_vineAtomic_ok run)), looked.st, sameMem_of_mem looked.mem⟩

end Sys2Proof.Machine
end
section
/-! VUNPARK: a doorbell for a vine (R149). -/

namespace Sys2Proof.Machine

theorem exec_vunpark (v : Word) (s : State) : exec (.vunpark v) s = if hostMay s 0x2000 then event (vunpark v) s else .next s := rfl

/-! ## Strands wake -/

/-- A strand that waits on vine h of a context with one of the reasons. -/
def waitsOnVine (c : BitVec 12) (h : Nat) (why : List (BitVec 4)) (t : Strand) : Bool :=
  decide (t.resident ∧ t.ctx = c ∧ t.wait = .vine (BitVec.ofNat 32 h)) && why.contains t.park

/-- Such a strand, woken. -/
def wokenByVine (now : Word) (t : Strand) : Strand :=
  let t' := unpark now t
  if t.park = 4 ∨ t.park = 5 then { t' with csr := { t'.csr with sqinfo := setBits t'.csr.sqinfo 28 4 5 } } else t'

/-- The saved strands that wait on the vine with one of the reasons are marked. -/
def markSaved (s : State) (c : BitVec 12) (h : Nat) (why : List (BitVec 4)) : State :=
  { s with lp := { s.lp with saved := s.lp.saved.map fun v =>
    if (decide (v.ctx = c ∧ v.wait = .vine (BitVec.ofNat 32 h)) && why.contains v.park) = true then { v with woken := true } else v } }

theorem wakeVine_eq (s : State) (c : BitVec 12) (h : Nat) (why : List (BitVec 4)) :
    wakeVine s c h why = modStrandsWhere (markSaved s c h why) (waitsOnVine c h why) (wokenByVine s.cycle) := rfl

theorem wakeVine_answered (s : State) (c : BitVec 12) (h : Nat) (why : List (BitVec 4)) : OnlyAnswered s (wakeVine s c h why) :=
  OnlyAnswered.trans (t := markSaved s c h why) rfl (modStrandsWhere_answered _ _ _)

theorem getStrand_wakeVine {s : State} (wf : sparseWf {} s.others = true) (c : BitVec 12) (h : Nat) (why : List (BitVec 4)) (n : Nat) :
    getStrand (wakeVine s c h why) n =
      if waitsOnVine c h why (getStrand s n) then wokenByVine s.cycle (getStrand s n) else getStrand s n := by
  rw [wakeVine_eq, getStrand_modStrandsWhere (s := markSaved s c h why) wf (by simp [waitsOnVine])]
  rfl

theorem wakeVine_wf {s : State} (wf : sparseWf {} s.others = true) (c : BitVec 12) (h : Nat) (why : List (BitVec 4)) :
    sparseWf {} (wakeVine s c h why).others = true := modStrandsWhere_wf (s := markSaved s c h why) wf _ _

theorem getStrand_wakeKey {s : State} (wf : sparseWf {} s.others = true) (k : WaitKey) (n : Nat) :
    getStrand (wakeKey s k) n = if (getStrand s n).park ≠ 0 ∧ (getStrand s n).wait = k then unpark s.cycle (getStrand s n) else getStrand s n := by
  unfold wakeKey
  rw [getStrand_modStrandsWhere wf rfl]
  simp only [decide_eq_true_eq]

theorem wokenByVine_runs (now : Word) (t : Strand) : (wokenByVine now t).park = 0 ∧ (wokenByVine now t).pc = t.pc ∧ (wokenByVine now t).x = t.x := by
  unfold wokenByVine
  split <;> exact ⟨rfl, rfl, rfl⟩

theorem Looked.getStrand {s t : State} {i : Nat} (l : Looked s t i) (n : Nat) : getStrand t n = getStrand s n := by
  unfold Machine.getStrand
  rw [l.cur, l.st, l.others]

/-! ## The doorbell -/

/-- A doorbell for an OPEN vine that no COW has copied from: its strands wake. -/
theorem on_unparkVine {s : State} {P : TlbEntry} {h : Nat} (r : VineReach s P 8192) (vine : Claims.IsVine s P h) (open_ : Claims.vineStateOf s P h = 1)
    (calm : s.cows = []) : ∃ t, Looked s t 8 ∧ Act.on (unparkVine P.ctx h) s = (.ok (), wakeVine t P.ctx h [4, 7]) := by
  obtain ⟨t, read, looked⟩ := VineReach.on_readVine (n := 100) (r.mono (by omega)) vine
  refine ⟨t, looked, ?_⟩
  have none : t.cows = [] := by rw [looked.same]; exact calm
  unfold unparkVine
  dsimp only
  rw [on_bind_ok read, if_pos (show (vineIn s P h).state = vineOpen from (vineIn_state s P h).trans open_), on_bind_ok (on_get t), none, if_neg (by simp)]
  rfl

/-- With no record that waits, a poll wakes those who wait for room in the release queue. -/
theorem on_pollQueues {s : State} (svc : s.waitSvc = []) (rel : s.waitRel = []) (c : BitVec 12) :
    Act.on (pollQueues c) s = (.ok (), wakeKey s .release) := by
  unfold pollQueues
  rw [on_bind_ok (on_get s), svc]
  refine (on_bind_ok (s' := s) rfl).trans ?_
  rw [on_bind_ok (on_get s), rel]
  rfl

theorem unpark_strands {s t : State} (wf : sparseWf {} s.others = true) {i : Nat} (l : Looked s t i) (c : BitVec 12) (h n : Nat) :
    let u := wakeKey (wakeVine t c h [4, 7]) .release
    (Claims.WaitsService s c h n → (getStrand u n).park = 0 ∧ (getStrand u n).pc = (getStrand s n).pc ∧ (getStrand u n).x = (getStrand s n).x) ∧
      ((getStrand s n).wait ≠ .vine (BitVec.ofNat 32 h) → (getStrand s n).wait ≠ .release → getStrand u n = getStrand s n) := by
  have same : sparseWf {} t.others = true := by rw [l.others]; exact wf
  intro u
  have now := getStrand_wakeKey (wakeVine_wf same c h [4, 7]) .release n
  rw [getStrand_wakeVine same, l.getStrand] at now
  refine ⟨fun waits => ?_, fun other notRelease => ?_⟩
  · obtain ⟨resident, ctx, wait, why⟩ := waits
    have yes : waitsOnVine c h [4, 7] (getStrand s n) = true := by
      unfold waitsOnVine
      rw [resident, ctx, wait]
      rcases why with why | why <;> simp [why]
    obtain ⟨park, pc, x⟩ := wokenByVine_runs t.cycle (getStrand s n)
    rw [if_pos yes, if_neg fun e => e.1 park] at now
    rw [now]
    exact ⟨park, pc, x⟩
  · have no : waitsOnVine c h [4, 7] (getStrand s n) = false := by simp [waitsOnVine, other]
    rw [no, if_neg Bool.false_ne_true, if_neg fun e => notRelease e.2] at now
    exact now

theorem doorbell : Claims.Unpark := by
  intro s P v b c h
  have reach : hostMay s 0x2000 = true ↔ Claims.Serves s := hostMay_iff (by decide)
  have name : BitVec.ofNat 12 v.toNat = c := by
    apply BitVec.eq_of_toNat_eq
    simp [c]
  rw [exec_vunpark]
  refine ⟨fun none => ?_, fun serves wf dev live => ?_⟩
  · by_cases serves : Claims.Serves s
    · have idle : ¬ (1 ≤ ctxState s c ∧ ctxState s c ≤ 5) := by
        rcases none with free | dead | away
        · omega
        · omega
        · exact absurd serves away
      rw [if_pos (reach.mpr serves)]
      refine event_ok ?_
      unfold vunpark
      dsimp only
      rw [on_bind_ok (on_get s), name, if_neg idle]
      rfl
    · rw [if_neg fun may => serves (reach.mp may)]
  · obtain ⟨svc, rel, cows⟩ := dev.calm
    have r := VineReach.of_space dev.space dev.home
    obtain ⟨t, looked, run⟩ := on_unparkVine r live.vine live.open_ cows
    have ctx : P.ctx = c := dev.space.ctx.trans dev.ctx.symm
    rw [ctx] at run
    have woken := wakeVine_answered t c h [4, 7]
    have polled := on_pollQueues (s := wakeVine t c h [4, 7]) (by rw [show wakeVine t c h [4, 7] = _ from woken, looked.same]; exact svc)
      (by rw [show wakeVine t c h [4, 7] = _ from woken, looked.same]; exact rel) c
    refine ⟨wakeKey (wakeVine t c h [4, 7]) .release, ?_, sameMem_of_mem ?_, fun n _ => unpark_strands wf.others looked c h n⟩
    · rw [if_pos (reach.mpr serves)]
      refine event_ok ?_
      unfold vunpark
      dsimp only
      rw [on_bind_ok (on_get s), name, if_pos dev.runs]
      exact (on_bind_ok (on_dueOr_ok run)).trans polled
    · exact (wakeKey_leaves _ _).mem.trans (woken.mem.trans looked.mem)

end Sys2Proof.Machine
end
section
/-! The service and release queues: a record is put into one (R146, R155). -/

namespace Sys2Proof.Machine

/-! ## Loops -/

section
variable {α : Type} {body : α → PUnit → Act (ForInStep PUnit)} {k : α} {l : List α} {s t : State}

theorem on_forIn_cons (h : Act.on (body k PUnit.unit) s = (.ok (.yield PUnit.unit), t)) :
    Act.on (forIn (k :: l) PUnit.unit body) s = Act.on (forIn l PUnit.unit body) t := by
  rw [List.forIn_cons, on_bind_ok h]

theorem on_forIn_stops {e : Stop} (h : Act.on (body k PUnit.unit) s = (.error e, t)) :
    Act.on (forIn (k :: l) PUnit.unit body) s = (.error e, t) := by
  rw [List.forIn_cons, on_bind_error h]

end

/-! ## The words of a queue -/

theorem toNat_add_ofNat {a : VAddr} {k : Nat} (h : a.toNat + k < 2 ^ 48) : (a + BitVec.ofNat 48 k).toNat = a.toNat + k := by
  rw [BitVec.toNat_add, BitVec.toNat_ofNat]
  omega

section
variable {s : State} {P : TlbEntry} {q m n : Nat} (r : VineReach s P (n + 2)) (inside : Claims.Inside P q m)
include r inside

theorem VineReach.offset {o : Nat} (fits : o < m) : (BitVec.ofNat 48 q + BitVec.ofNat 48 o).toNat = q + o := by
  obtain ⟨low, high⟩ := inside
  obtain ⟨_, _, top⟩ := r.whole
  exact offset_toNat (by omega)

/-- A dword of a queue. -/
theorem VineReach.on_dword {o : Nat} (fits : o + 8 ≤ m) :
    ∃ t, Act.on (vineRead (vineDevice P.ctx) (BitVec.ofNat 48 q + BitVec.ofNat 48 o) 8) s = (.ok (Claims.at_ s P (q + o) 8), t) ∧ Looked s t 1 := by
  have place := VineReach.offset r inside (o := o) (by omega)
  obtain ⟨low, high⟩ := inside
  obtain ⟨t, read, looked⟩ := r.on_vineRead r.tier (va := BitVec.ofNat 48 q + BitVec.ofNat 48 o) (k := 8)
    (by rw [place]; exact ⟨by omega, by omega⟩) (by omega)
  rw [place] at read
  exact ⟨t, read, looked⟩

end

theorem VineReach.on_queueMay {s : State} {P : TlbEntry} {n : Nat} (r : VineReach s P (n + 2)) {va : VAddr} (inside : Claims.Inside P va.toNat 1)
    (k : Access) : Act.on (queueMay (vineDevice P.ctx) k va) s = (.ok (), s) := by
  obtain ⟨read, write, _⟩ := r.allowed
  have allows : pageAllows k true P = true := by simp [pageAllows, read, write]
  unfold queueMay
  rw [on_bind_ok (r.on_vineAt r.tier inside (by omega))]
  dsimp only
  rw [allows]
  rfl

/-! ## The header -/

/-- A RES dword of a queue's header is checked (log 66). -/
def checkRes (f : VineFor) (va : VAddr) (k : Nat) (_ : PUnit) : Act (ForInStep PUnit) := do
  let v ← vineRead f (va + BitVec.ofNat 48 (8 * k)) 8
  if v ≠ 0 then
    trap 5 (vaWord (va + BitVec.ofNat 48 (8 * k)))
    pure (ForInStep.yield PUnit.unit)
  else pure (ForInStep.yield PUnit.unit)

section
variable {P : TlbEntry} {q m : Nat} (inside : Claims.Inside P q m)
include inside

theorem on_checkRes {s : State} {n k : Nat} (r : VineReach s P (n + 2)) (fits : 8 * k + 8 ≤ m) : ∃ t, Looked s t 1 ∧
    Act.on (checkRes (vineDevice P.ctx) (BitVec.ofNat 48 q) k PUnit.unit) s =
      (if Claims.at_ s P (q + 8 * k) 8 ≠ 0 then .error (.trap 5 (vaWord (BitVec.ofNat 48 q + BitVec.ofNat 48 (8 * k)))) else .ok (.yield PUnit.unit), t) := by
  obtain ⟨t, read, looked⟩ := VineReach.on_dword r inside fits
  refine ⟨t, looked, ?_⟩
  unfold checkRes
  rw [on_bind_ok read]
  split <;> rfl

theorem on_checkRes_zero {l : List Nat} (fits : ∀ k ∈ l, 8 * k + 8 ≤ m) {s : State} {n : Nat} (r : VineReach s P (n + 2 + l.length))
    (zero : ∀ k ∈ l, Claims.at_ s P (q + 8 * k) 8 = 0) :
    ∃ t, Act.on (forIn l PUnit.unit (checkRes (vineDevice P.ctx) (BitVec.ofNat 48 q))) s = (.ok PUnit.unit, t) ∧ Looked s t l.length := by
  induction l generalizing s with
  | nil => exact ⟨s, rfl, .refl s⟩
  | cons k l ih =>
    rw [List.length_cons] at r
    obtain ⟨t, looked, step⟩ := on_checkRes inside (r.mono (show n + 2 ≤ _ by omega)) (fits k List.mem_cons_self)
    rw [if_neg (not_not.mpr (zero k List.mem_cons_self))] at step
    obtain ⟨u, rest, last⟩ := ih (fun j hj => fits j (List.mem_cons_of_mem k hj)) (s := t) (looked.vineReach r)
      fun j hj => (at_congr looked.mem _ _ _).trans (zero j (List.mem_cons_of_mem k hj))
    exact ⟨u, (on_forIn_cons step).trans rest, (looked.trans last).mono (by rw [List.length_cons]; omega)⟩

theorem on_checkRes_bad {l : List Nat} (fits : ∀ k ∈ l, 8 * k + 8 ≤ m) {s : State} {n : Nat} (r : VineReach s P (n + 2 + l.length))
    (bad : ∃ k ∈ l, Claims.at_ s P (q + 8 * k) 8 ≠ 0) :
    ∃ w t, Act.on (forIn l PUnit.unit (checkRes (vineDevice P.ctx) (BitVec.ofNat 48 q))) s = (.error (.trap 5 w), t) := by
  induction l generalizing s with
  | nil =>
    obtain ⟨k, none, _⟩ := bad
    cases none
  | cons k l ih =>
    rw [List.length_cons] at r
    obtain ⟨t, looked, step⟩ := on_checkRes inside (r.mono (show n + 2 ≤ _ by omega)) (fits k List.mem_cons_self)
    by_cases here : Claims.at_ s P (q + 8 * k) 8 = 0
    · rw [if_neg (not_not.mpr here)] at step
      have rest : ∃ k ∈ l, Claims.at_ t P (q + 8 * k) 8 ≠ 0 := by
        obtain ⟨j, hj, nonzero⟩ := bad
        rcases List.mem_cons.mp hj with rfl | hj
        · exact absurd here nonzero
        · exact ⟨j, hj, by rwa [at_congr looked.mem]⟩
      obtain ⟨w, u, stops⟩ := ih (fun j hj => fits j (List.mem_cons_of_mem k hj)) (s := t) (looked.vineReach r) rest
      exact ⟨w, u, (on_forIn_cons step).trans stops⟩
    · rw [if_pos here] at step
      exact ⟨_, t, on_forIn_stops step⟩

end

/-! ## Several words -/

/-- The bytes of words, in order. -/
def wordsBytes (ws : List Word) : List Byte := ws.flatMap fun w => natToBytes 8 w.toNat

theorem wordsBytes_length (ws : List Word) : (wordsBytes ws).length = 8 * ws.length := by
  induction ws with
  | nil => rfl
  | cons w ws ih =>
    show (natToBytes 8 w.toNat ++ wordsBytes ws).length = _
    rw [List.length_append, natToBytes_length, ih, List.length_cons]
    omega

theorem wordsBytes_word (ws : List Word) (k : Nat) (h : k < ws.length) : ((wordsBytes ws).drop (8 * k)).take 8 = natToBytes 8 (ws.getD k 0).toNat := by
  induction ws generalizing k with
  | nil => simp at h
  | cons w ws ih =>
    show ((natToBytes 8 w.toNat ++ wordsBytes ws).drop (8 * k)).take 8 = _
    cases k with
    | zero => rw [Nat.mul_zero, List.drop_zero, List.take_left' (natToBytes_length 8 _), List.getD_cons_zero]
    | succ k =>
      have past : (natToBytes 8 w.toNat ++ wordsBytes ws).drop (8 * (k + 1)) = (wordsBytes ws).drop (8 * k) := by
        rw [show 8 * (k + 1) = (natToBytes 8 w.toNat).length + 8 * k by rw [natToBytes_length]; omega, List.drop_append]
        simp
      rw [past, ih k (by rw [List.length_cons] at h; omega), List.getD_cons_succ]

/-- A word of those that were written is read back. -/
theorem number_wordsBytes {s t : State} {b : Nat} {ws : List Word} (wf : Memory.wf s.mem = true) (h : t.mem = memWrite s.mem b (wordsBytes ws)) {k : Nat}
    (hk : k < ws.length) : Claims.number t (b + 8 * k) 8 = (ws.getD k 0).toNat := by
  have len := wordsBytes_length ws
  have whole := memRead_memWrite s.mem b (wordsBytes ws) wf
  have part := take_drop_memRead (memWrite s.mem b (wordsBytes ws)) b (k := 8 * k) (j := 8) (n := (wordsBytes ws).length) (by omega)
  have value := bytesToNat_natToBytes 8 (ws.getD k 0).toNat []
  rw [List.append_nil] at value
  rw [number_eq, h, ← part, whole, wordsBytes_word ws k hk, value]
  simp only [bytesToNat, Nat.mul_zero, Nat.add_zero]
  exact Nat.mod_eq_of_lt (BitVec.isLt _)

/-- What a write within the page leaves of the device's reach. -/
theorem Wrote.vineReach {s t : State} {P : TlbEntry} {a n k : Nat} {bs : List Byte} (w : Wrote s t a bs k) (r : VineReach s P (n + k)) : VineReach t P n :=
  ⟨w.backed r.toBacked, r.tier, by rw [w.quiet r.quiet]; exact r.ctx, by rw [w.quiet r.quiet]; exact r.whole_⟩

/-- Words are written one after the other. -/
def putWord (f : VineFor) (a : VAddr) (x : Word × Nat) (_ : PUnit) : Act (ForInStep PUnit) := do
  vineWrite f (a + BitVec.ofNat 48 (8 * x.2)) 8 x.1.toNat
  pure (ForInStep.yield PUnit.unit)

theorem on_putWords {P : TlbEntry} {a : VAddr} {ws : List Word} {i n : Nat} {s : State} (r : VineReach s P (n + 2 + 2 * ws.length))
    (inside : Claims.Inside P (a.toNat + 8 * i) (8 * ws.length)) :
    ∃ t, Act.on (forIn (ws.zipIdx i) PUnit.unit (putWord (vineDevice P.ctx) a)) s = (.ok PUnit.unit, t) ∧
      Wrote s t (Claims.keyAt P (a.toNat + 8 * i)) (wordsBytes ws) (2 * ws.length) := by
  induction ws generalizing s i with
  | nil => exact ⟨s, rfl, (Looked.refl s).wrote _⟩
  | cons w ws ih =>
    rw [List.length_cons] at r inside
    obtain ⟨low, high⟩ := inside
    obtain ⟨_, _, top⟩ := r.whole
    have place : (a + BitVec.ofNat 48 (8 * i)).toNat = a.toNat + 8 * i := toNat_add_ofNat (by omega)
    obtain ⟨t, write, wrote⟩ := (r.mono (show n + 2 ≤ _ by omega)).on_vineWrite r.tier (va := a + BitVec.ofNat 48 (8 * i)) (k := 8)
      (by rw [place]; exact ⟨low, by omega⟩) (by omega) w.toNat
    rw [place] at wrote
    obtain ⟨u, rest, wrotes⟩ := ih (i := i + 1) (s := t) (wrote.vineReach (r.mono (show n + 2 + 2 * ws.length + 2 ≤ _ by omega))) ⟨by omega, by omega⟩
    have step : Act.on (putWord (vineDevice P.ctx) a (w, i) PUnit.unit) s = (.ok (.yield PUnit.unit), t) := on_bind_ok write
    refine ⟨u, (on_forIn_cons step).trans rest, (wrote.append ?_ wrotes).mono (by rw [List.length_cons]; omega)⟩
    unfold Claims.keyAt
    rw [natToBytes_length]
    omega

end Sys2Proof.Machine
end
section
/-! A record put into a queue, as a whole (R146, R155). -/

namespace Sys2Proof.Machine

/-- A record of three dwords and its sequence number. -/
def recordOf (s : State) (P : TlbEntry) (q : Nat) (r : List Word) : List Word := r ++ [w64 (Claims.at_ s P (q + 8) 8 + 1)]

/-- The queue's TAIL after the record. -/
def tailAfter (s : State) (P : TlbEntry) (q : Nat) : Nat := (Claims.at_ s P (q + 8) 8 + 1) % 2 ^ 64

/-- A record goes into the queue at q where there is room: what is left of a push once HEAD, TAIL and the entries of the queue are known. -/
def putQueued (f : VineFor) (q hd tl n : Nat) (r : List Word) : Act (Option (VAddr × Nat)) := do
  let a : VAddr := BitVec.ofNat 48 q + BitVec.ofNat 48 (64 + 32 * (tl % n))
  if n ≤ (tl + 2 ^ 64 - hd) % 2 ^ 64 then pure none
  else
    queueMay f .store a
    queueMay f .store (BitVec.ofNat 48 q + 8)
    forIn (r ++ [w64 (tl + 1)]).zipIdx PUnit.unit (putWord f a)
    vineWrite f (BitVec.ofNat 48 q + 8) 8 ((tl + 1) % 2 ^ 64)
    pure (some (a, tl + 1))

theorem qEntries_le (s : State) (P : TlbEntry) (q : Nat) : Claims.qEntries s P q ≤ 65536 :=
  Nat.pow_le_pow_right (by omega) (show max 4 (min 16 _) ≤ 16 by omega)

theorem qEntries_pos (s : State) (P : TlbEntry) (q : Nat) : 0 < Claims.qEntries s P q := Nat.pow_pos (by omega)

/-- The queue's next entry lies behind its header, within its largest extent. -/
theorem qNext_within (s : State) (P : TlbEntry) (q : Nat) : q + 64 ≤ Claims.qNext s P q ∧ Claims.qNext s P q + 32 ≤ q + (64 + 32 * 65536) := by
  have most := qEntries_le s P q
  have slot : Claims.at_ s P (q + 8) 8 % Claims.qEntries s P q < Claims.qEntries s P q := Nat.mod_lt _ (qEntries_pos s P q)
  unfold Claims.qNext
  generalize Claims.at_ s P (q + 8) 8 % Claims.qEntries s P q = k at slot
  omega

section
variable {s : State} {P : TlbEntry} {q : Nat} {r : List Word} (reach : VineReach s P 8192) (inside : Claims.Inside P q (64 + 32 * 65536))
include reach inside

/-- HEAD, TAIL and LOG2N are read, and what follows depends on the RES fields. -/
theorem on_pushRecord_reads : ∃ t, Looked s t 3 ∧ VineReach t P 8100 ∧
    (32 ≤ Claims.at_ s P (q + 16) 8 → ∃ w, Act.on (pushRecord (vineDevice P.ctx) q r) s = (.error (.trap 5 w), t)) ∧
    (Claims.at_ s P (q + 16) 8 < 32 → Act.on (pushRecord (vineDevice P.ctx) q r) s =
      Act.on (do
        forIn [3, 4, 5, 6, 7] PUnit.unit (checkRes (vineDevice P.ctx) (BitVec.ofNat 48 q))
        putQueued (vineDevice P.ctx) q (Claims.at_ s P q 8) (Claims.at_ s P (q + 8) 8) (Claims.qEntries s P q) r) t) := by
  obtain ⟨low, high⟩ := inside
  obtain ⟨_, _, top⟩ := reach.whole
  have start : (BitVec.ofNat 48 q).toNat = q := by rw [BitVec.toNat_ofNat]; omega
  obtain ⟨t0, r0, l0⟩ := (reach.mono (show 8000 + 2 ≤ 8192 by omega)).on_vineRead reach.tier (va := BitVec.ofNat 48 q) (k := 8)
    (by rw [start]; exact ⟨low, by omega⟩) (by omega)
  obtain ⟨t1, r1, l1⟩ := VineReach.on_dword (n := 8189) (l0.vineReach (n := 8191) reach) ⟨low, high⟩ (o := 8) (by omega)
  obtain ⟨t2, r2, l2⟩ := VineReach.on_dword (n := 8188) (l1.vineReach (n := 8190) (l0.vineReach (n := 8191) reach)) ⟨low, high⟩ (o := 16) (by omega)
  have looked : Looked s t2 3 := (l0.trans l1).trans l2
  rw [start] at r0
  rw [at_congr l0.mem] at r1
  rw [at_congr (l0.trans l1).mem] at r2
  have may := (reach.mono (show 8000 + 2 ≤ 8192 by omega)).on_queueMay (va := BitVec.ofNat 48 q) (by rw [start]; exact ⟨low, by omega⟩) .load
  refine ⟨t2, looked, looked.vineReach (reach.mono (by omega)), fun res => ⟨vaWord (BitVec.ofNat 48 q + 16), ?_⟩, fun fine => ?_⟩
  · unfold pushRecord
    dsimp only
    rw [on_bind_ok may, on_bind_ok r0]
    refine (on_bind_ok r1).trans ((on_bind_ok r2).trans ?_)
    rw [if_pos res]
    rfl
  · unfold pushRecord
    dsimp only
    rw [on_bind_ok may, on_bind_ok r0]
    refine (on_bind_ok r1).trans ((on_bind_ok r2).trans ?_)
    rw [if_neg (Nat.not_le.mpr fine)]
    rfl

theorem on_pushRecord_invalid (bad : ¬ Claims.qHeader s P q) : ∃ w t, Act.on (pushRecord (vineDevice P.ctx) q r) s = (.error (.trap 5 w), t) := by
  obtain ⟨t, looked, r', res, fine⟩ := on_pushRecord_reads (r := r) reach inside
  by_cases low : Claims.at_ s P (q + 16) 8 < 32
  · have nonzero : ∃ k ∈ [3, 4, 5, 6, 7], Claims.at_ t P (q + 8 * k) 8 ≠ 0 := by
      by_contra none
      refine bad ⟨low, fun k hk hk' => by_contra fun here => none ⟨k, ?_, by rwa [at_congr looked.mem]⟩⟩
      simp only [List.mem_cons, List.not_mem_nil, or_false]
      omega
    obtain ⟨w, u, stops⟩ := on_checkRes_bad inside (l := [3, 4, 5, 6, 7]) (by simp) (n := 8000) (r'.mono (by simp)) nonzero
    exact ⟨w, u, (fine low).trans (on_bind_error stops)⟩
  · obtain ⟨w, stops⟩ := res (Nat.not_lt.mp low)
    exact ⟨w, t, stops⟩

theorem on_pushRecord_checked (header : Claims.qHeader s P q) : ∃ t, Looked s t 8 ∧ VineReach t P 8000 ∧
    Act.on (pushRecord (vineDevice P.ctx) q r) s =
      Act.on (putQueued (vineDevice P.ctx) q (Claims.at_ s P q 8) (Claims.at_ s P (q + 8) 8) (Claims.qEntries s P q) r) t := by
  obtain ⟨low, res⟩ := header
  obtain ⟨t, looked, r', _, fine⟩ := on_pushRecord_reads (r := r) reach inside
  have zero : ∀ k ∈ [3, 4, 5, 6, 7], Claims.at_ t P (q + 8 * k) 8 = 0 := by
    intro k hk
    rw [at_congr looked.mem]
    simp only [List.mem_cons, List.not_mem_nil, or_false] at hk
    exact res k (by omega) (by omega)
  obtain ⟨u, checked, more⟩ := on_checkRes_zero inside (l := [3, 4, 5, 6, 7]) (by simp) (n := 8000) (r'.mono (by simp)) zero
  exact ⟨u, looked.trans more, more.vineReach (r'.mono (by simp)), (fine low).trans (on_bind_ok checked)⟩

/-- A full queue takes no record. -/
theorem on_pushRecord_full (header : Claims.qHeader s P q) (full : ¬ Claims.qRoom s P q) :
    ∃ t, Act.on (pushRecord (vineDevice P.ctx) q r) s = (.ok none, t) := by
  obtain ⟨t, _, _, rest⟩ := on_pushRecord_checked (r := r) reach inside header
  refine ⟨t, rest.trans ?_⟩
  unfold putQueued
  dsimp only
  rw [if_pos (Nat.not_lt.mp full)]
  rfl

/-- A queue with room takes a record: its words go into the next entry, and TAIL counts it. -/
theorem on_pushRecord_room (three : r.length = 3) (header : Claims.qHeader s P q) (room : Claims.qRoom s P q) :
    ∃ a u t k, Act.on (pushRecord (vineDevice P.ctx) q r) s = (.ok (some (a, Claims.at_ s P (q + 8) 8 + 1)), t) ∧
      Wrote s u (Claims.keyAt P (Claims.qNext s P q)) (wordsBytes (recordOf s P q r)) k ∧
      Wrote u t (Claims.keyAt P (q + 8)) (natToBytes 8 (tailAfter s P q)) 2 ∧ VineReach t P 7000 := by
  obtain ⟨t, looked, r', rest⟩ := on_pushRecord_checked (r := r) reach inside header
  have most := qEntries_le s P q
  obtain ⟨first, last⟩ := qNext_within s P q
  have slot : Claims.at_ s P (q + 8) 8 % Claims.qEntries s P q < Claims.qEntries s P q := Nat.mod_lt _ (qEntries_pos s P q)
  have four : (recordOf s P q r).length = 4 := by simp [recordOf, three]
  have place : (BitVec.ofNat 48 q + BitVec.ofNat 48 (64 + 32 * (Claims.at_ s P (q + 8) 8 % Claims.qEntries s P q))).toNat = Claims.qNext s P q := by
    rw [VineReach.offset (n := 7998) r' inside (by generalize Claims.at_ s P (q + 8) 8 % Claims.qEntries s P q = k at slot; omega)]
    unfold Claims.qNext
    generalize Claims.at_ s P (q + 8) 8 % Claims.qEntries s P q = k
    omega
  have tail : (BitVec.ofNat 48 q + BitVec.ofNat 48 8).toNat = q + 8 := VineReach.offset (n := 7998) r' inside (by omega)
  unfold putQueued at rest
  dsimp only at rest
  generalize BitVec.ofNat 48 q + BitVec.ofNat 48 (64 + 32 * (Claims.at_ s P (q + 8) 8 % Claims.qEntries s P q)) = a at place rest
  obtain ⟨low, high⟩ := inside
  obtain ⟨u, put, wrote⟩ := on_putWords (n := 7900) (i := 0) (ws := recordOf s P q r) (a := a) (s := t) (r'.mono (by omega))
    (by rw [place, four]; exact ⟨by omega, by omega⟩)
  have reach' : VineReach u P 7900 := wrote.vineReach (r'.mono (by omega))
  obtain ⟨v, count, counted⟩ := (reach'.mono (show 7000 + 2 ≤ 7900 by omega)).on_vineWrite reach'.tier (va := BitVec.ofNat 48 q + BitVec.ofNat 48 8) (k := 8)
    (by rw [tail]; exact ⟨by omega, by omega⟩) (by omega) (tailAfter s P q)
  rw [tail] at counted
  rw [place, Nat.mul_zero, Nat.add_zero] at wrote
  refine ⟨a, u, v, _, rest.trans ?_, (looked.wrote _).append (by rw [List.length_nil, Nat.add_zero]) wrote, counted,
    counted.vineReach (reach'.mono (by omega))⟩
  rw [if_neg (Nat.not_le.mpr room), on_bind_ok ((r'.mono (show 100 + 2 ≤ 8000 by omega)).on_queueMay (by rw [place]; exact ⟨by omega, by omega⟩) .store)]
  refine (on_bind_ok ((r'.mono (show 100 + 2 ≤ 8000 by omega)).on_queueMay (va := BitVec.ofNat 48 q + BitVec.ofNat 48 8)
    (by rw [tail]; exact ⟨by omega, by omega⟩) .store)).trans ?_
  exact (on_bind_ok put).trans (on_bind_ok count)

end

end Sys2Proof.Machine
end
section
/-! SVCQ_HEAD_POLL and RELQ_HEAD_POLL (R146, R155), and the whole of O45. -/

namespace Sys2Proof.Machine

theorem exec_svcqHeadPoll (c : BitVec 12) (s : State) : exec (.svcqHeadPoll c) s = event (pollService c s.waitSvc.length) s := rfl
theorem exec_relqHeadPoll (c : BitVec 12) (s : State) : exec (.relqHeadPoll c) s = event (pollRelease c s.waitRel.length) s := rfl

/-! ## What a record leaves in memory -/

/-- The largest extent of a queue at q. -/
def queueSize : Nat := 64 + 32 * 65536

section
variable {s u t : State} {P : TlbEntry} {q k : Nat} {r : List Word} (wf : Memory.wf s.mem = true) (three : r.length = 3)
    (low : P.vpage ≤ q) (entry : Wrote s u (Claims.keyAt P (Claims.qNext s P q)) (wordsBytes (recordOf s P q r)) k)
    (tail : Wrote u t (Claims.keyAt P (q + 8)) (natToBytes 8 (tailAfter s P q)) 2)
include wf three low entry tail

/-- The record stands in the queue, and TAIL counts it. -/
theorem pushed_of_wrote : Claims.Pushed s t P q r := by
  obtain ⟨first, _⟩ := qNext_within s P q
  have form : Memory.wf u.mem = true := by rw [entry.mem]; exact memWrite_wf _ _ _ wf
  have four : (recordOf s P q r).length = 4 := by simp [recordOf, three]
  have len := wordsBytes_length (recordOf s P q r)
  have bytes := natToBytes_length 8 (tailAfter s P q)
  have word {j : Nat} (hj : j < 4) : Claims.at_ t P (Claims.qNext s P q + 8 * j) 8 = ((recordOf s P q r).getD j 0).toNat := by
    have place : P.base + (Claims.qNext s P q + 8 * j - P.vpage) = Claims.keyAt P (Claims.qNext s P q) + 8 * j := by unfold Claims.keyAt; omega
    unfold Claims.at_
    rw [place, number_memWrite_apart form tail.mem (by unfold Claims.keyAt; omega)]
    exact number_wordsBytes wf entry.mem (by omega)
  refine ⟨fun j hj => ?_, ?_, ?_, ?_⟩
  · rw [word (by omega), recordOf, List.getD_append _ _ _ _ (by omega)]
  · have last : (recordOf s P q r).getD 3 0 = w64 (Claims.at_ s P (q + 8) 8 + 1) := by
      rw [recordOf, List.getD_append_right _ _ _ _ (by omega), three]
      rfl
    have value := word (show 3 < 4 by omega)
    rw [last, w64, BitVec.toNat_ofNat] at value
    exact value
  · exact number_memWrite form tail.mem (Nat.mod_lt _ (by omega))
  · unfold Claims.at_
    rw [number_memWrite_apart form tail.mem (by unfold Claims.keyAt; omega),
      number_memWrite_apart wf entry.mem (by unfold Claims.keyAt; omega)]

omit three in
/-- Outside the queue, memory is as before. -/
theorem outside_of_wrote (three : r.length = 3) {a : Nat} (apart : ¬ (P.base + (q - P.vpage) ≤ a ∧ a < P.base + (q - P.vpage) + queueSize)) :
    memByte t.mem a = memByte s.mem a := by
  obtain ⟨first, last⟩ := qNext_within s P q
  have form : Memory.wf u.mem = true := by rw [entry.mem]; exact memWrite_wf _ _ _ wf
  have four : (recordOf s P q r).length = 4 := by simp [recordOf, three]
  have len := wordsBytes_length (recordOf s P q r)
  have bytes := natToBytes_length 8 (tailAfter s P q)
  unfold queueSize at apart
  rw [tail.mem, memByte_memWrite_outside _ _ _ _ form (by unfold Claims.keyAt; omega), entry.mem,
    memByte_memWrite_outside _ _ _ _ wf (by unfold Claims.keyAt; omega)]

end

theorem pushed_congr {s t v : State} {P : TlbEntry} {q : Nat} {r : List Word} (h : Claims.Pushed s t P q r) (same : v.mem = t.mem) :
    Claims.Pushed s v P q r := by
  unfold Claims.Pushed at h ⊢
  simp only [at_congr same]
  exact h

/-! ## Events -/

theorem recordEvent_mem (s : State) (k : BitVec 8) (c : BitVec 12) (r : List Word) (a : VAddr) : (recordEvent s k c r a).mem = s.mem :=
  postRecord_mem _ _

/-- The event of a record, in the statements' words. -/
theorem event_recordEvent {s t v : State} {k : BitVec 8} {c : BitVec 12} {r : List Word} {a : VAddr} (same : t.ev = s.ev)
    (h : v.ev = (recordEvent t k c r a).ev) : Claims.Event s v k.toNat ((r.headD 0).toNat % 256) := by
  refine ⟨{ kind := k, reason := BitVec.ofNat 8 (recordKind r), ctx := c, queue := 0, value := w64 (recordHandle r), addr := vaWord a }, rfl, ?_, ?_⟩
  · rw [BitVec.toNat_ofNat, recordKind, bits, Nat.pow_zero, Nat.div_one, Nat.mod_mod]
    rfl
  · rw [h, ← postRecord_ev_congr same]
    rfl

/-- From s to t memory has been written, and nothing else. -/
def OnlyMemory (s t : State) : Prop := t = { s with lines := t.lines, poison := t.poison, mem := t.mem }

theorem Wrote.onlyMemory {s t : State} {a n : Nat} {bs : List Byte} (w : Wrote s t a bs n) (quiet : s.watches = []) : OnlyMemory s t := w.quiet quiet

theorem OnlyMemory.trans {s t u : State} (a : OnlyMemory s t) (b : OnlyMemory t u) : OnlyMemory s u := by
  unfold OnlyMemory at *
  rw [b, a]

theorem Looked.onlyMemory {s t : State} {n : Nat} (l : Looked s t n) : OnlyMemory s t := by
  unfold OnlyMemory
  rw [l.same]

theorem OnlyMemory.st {s t : State} (h : OnlyMemory s t) : t.st = s.st := by unfold OnlyMemory at h; rw [h]
theorem OnlyMemory.lp {s t : State} (h : OnlyMemory s t) : t.lp = s.lp := by unfold OnlyMemory at h; rw [h]
theorem OnlyMemory.ev {s t : State} (h : OnlyMemory s t) : t.ev = s.ev := by unfold OnlyMemory at h; rw [h]
theorem OnlyMemory.watches {s t : State} (h : OnlyMemory s t) : t.watches = s.watches := by unfold OnlyMemory at h; rw [h]
theorem OnlyMemory.waitRel {s t : State} (h : OnlyMemory s t) : t.waitRel = s.waitRel := by unfold OnlyMemory at h; rw [h]
theorem OnlyMemory.waitSvc {s t : State} (h : OnlyMemory s t) : t.waitSvc = s.waitSvc := by unfold OnlyMemory at h; rw [h]
theorem OnlyAnswered.waitRel {s t : State} (h : OnlyAnswered s t) : t.waitRel = s.waitRel := by unfold OnlyAnswered at h; rw [h]

/-- A record has been put into a queue. -/
theorem onlyMemory_of_wrotes {s u t : State} {a b k j : Nat} {bs cs : List Byte} (quiet : s.watches = []) (first : Wrote s u a bs k)
    (second : Wrote u t b cs j) : OnlyMemory s t :=
  have one := first.onlyMemory quiet
  one.trans (second.onlyMemory (one.watches.trans quiet))

/-! ## The release queue -/

section
variable {s t : State} {P : TlbEntry} {c : BitVec 12} {d : Fin 4} {r : List Word} {n : Nat} (ctx : P.ctx = c) (waits : s.waitRel = [(d, c, r)])
include ctx waits

/-- A record that has found room is posted. -/
theorem on_pollRelease_posts {a : VAddr} (push : Act.on (pushRecord (vineDevice P.ctx) (ctxRelq s c) r) s = (.ok (some (a, n)), t)) :
    Act.on (pollRelease c s.waitRel.length) s =
      (.ok (), wakeKey { recordEvent t 0x11 c r a with waitRel := t.waitRel.erase (d, c, r) } .release) := by
  rw [waits]
  show Act.on (pollRelease c (0 + 1)) s = _
  unfold pollRelease
  rw [on_bind_ok (on_get s), waits, List.find?_cons_of_pos (by simp)]
  dsimp only
  rw [← ctx, show ctxRelq s P.ctx = ctxRelq s c by rw [ctx], push]
  rfl

/-- One that has not waits on. -/
theorem on_pollRelease_waits {x : Except Stop (Option (VAddr × Nat))} (stays : x = .ok none ∨ ∃ w, x = .error (.trap 5 w))
    (push : Act.on (pushRecord (vineDevice P.ctx) (ctxRelq s c) r) s = (x, t)) :
    Act.on (pollRelease c s.waitRel.length) s = (.ok (), wakeKey s .release) := by
  rw [waits]
  show Act.on (pollRelease c (0 + 1)) s = _
  unfold pollRelease
  rw [on_bind_ok (on_get s), waits, List.find?_cons_of_pos (by simp)]
  dsimp only
  rw [← ctx, show ctxRelq s P.ctx = ctxRelq s c by rw [ctx], push]
  rcases stays with rfl | ⟨w, rfl⟩ <;> rfl

end

/-- What a poll of the release queue does. -/
theorem relqPoll {s : State} {P : TlbEntry} {c : BitVec 12} {d : Fin 4} {r : List Word} (wf : Claims.Canonical s) (reach : VineReach s P 8192)
    (ctx : P.ctx = c) (three : r.length = 3) (waits : s.waitRel = [(d, c, r)]) (inside : Claims.Inside P (ctxRelq s c) (64 + 32 * 65536)) :
    (¬ Claims.qHeader s P (ctxRelq s c) → exec (.relqHeadPoll c) s = .next (wakeKey s .release)) ∧
    (Claims.qHeader s P (ctxRelq s c) → Claims.qRoom s P (ctxRelq s c) → ∃ t, exec (.relqHeadPoll c) s = .next t ∧ t.waitRel = [] ∧
      Claims.Pushed s t P (ctxRelq s c) r ∧ Claims.Event s t 0x11 ((r.headD 0).toNat % 256) ∧
      Claims.OutsideSame s t P [(ctxRelq s c, 64 + 32 * 65536)]) ∧
    (Claims.qHeader s P (ctxRelq s c) → ¬ Claims.qRoom s P (ctxRelq s c) → ∃ t, exec (.relqHeadPoll c) s = .next t ∧ t.waitRel = s.waitRel ∧
      Claims.SameMem s t ∧ t.ev = s.ev) := by
  rw [exec_relqHeadPoll]
  refine ⟨fun bad => ?_, fun header room => ?_, fun header full => ?_⟩
  · obtain ⟨w, t, push⟩ := on_pushRecord_invalid (r := r) reach inside bad
    exact event_ok (on_pollRelease_waits ctx waits (.inr ⟨w, rfl⟩) push)
  · obtain ⟨a, u, t, k, push, entry, tail, _⟩ := on_pushRecord_room reach inside three header room
    have same := onlyMemory_of_wrotes reach.quiet entry tail
    refine ⟨_, event_ok (on_pollRelease_posts ctx waits push), ?_, ?_, ?_, ?_⟩
    · have woken : OnlyAnswered _ (wakeKey { recordEvent t 0x11 c r a with waitRel := t.waitRel.erase (d, c, r) } .release) :=
        modStrandsWhere_answered _ _ _
      rw [woken.waitRel]
      show t.waitRel.erase (d, c, r) = []
      rw [same.waitRel, waits, List.erase_cons_head]
    · exact pushed_congr (pushed_of_wrote wf.mem three inside.1 entry tail) ((wakeKey_leaves _ _).mem.trans (recordEvent_mem _ _ _ _ _))
    · exact event_recordEvent (t := t) same.ev (wakeKey_leaves { recordEvent t 0x11 c r a with waitRel := t.waitRel.erase (d, c, r) } .release).ev
    · intro b apart
      rw [(wakeKey_leaves _ _).mem]
      exact (congrArg (memByte · b) (recordEvent_mem t 0x11 c r a)).trans
        (outside_of_wrote wf.mem inside.1 entry tail three (apart _ List.mem_cons_self))
  · obtain ⟨t, push⟩ := on_pushRecord_full (r := r) reach inside header full
    have woken : OnlyAnswered s (wakeKey s .release) := modStrandsWhere_answered _ _ _
    exact ⟨_, event_ok (on_pollRelease_waits ctx waits (.inl rfl) push), woken.waitRel, sameMem_of_mem (wakeKey_leaves _ _).mem,
      (wakeKey_leaves _ _).ev⟩

end Sys2Proof.Machine
end
section
/-! SVCQ_HEAD_POLL: the service queue, and the descriptor of the record's vine (R146). -/

namespace Sys2Proof.Machine

/-! ## Memory outside a range -/

/-- From s to t memory changes in the n bytes at a alone. -/
def SameBut (s t : State) (a n : Nat) : Prop := ∀ b, ¬ (a ≤ b ∧ b < a + n) → memByte t.mem b = memByte s.mem b

theorem SameBut.of_mem {s t : State} (h : t.mem = s.mem) (a n : Nat) : SameBut s t a n := fun b _ => by rw [h]

theorem SameBut.of_wrote {s t : State} {a k : Nat} {bs : List Byte} (wf : Memory.wf s.mem = true) (w : Wrote s t a bs k) : SameBut s t a bs.length :=
  fun b outside => by rw [w.mem, memByte_memWrite_outside _ _ _ _ wf (by omega)]

theorem SameBut.mono {s t : State} {a n b m : Nat} (h : SameBut s t a n) (low : b ≤ a) (high : a + n ≤ b + m) : SameBut s t b m :=
  fun c outside => h c (by omega)

theorem SameBut.trans {s t u : State} {a n : Nat} (h : SameBut s t a n) (k : SameBut t u a n) : SameBut s u a n :=
  fun b outside => (k b outside).trans (h b outside)

theorem SameBut.number {s t : State} {a n b k : Nat} (h : SameBut s t a n) (apart : b + k ≤ a ∨ a + n ≤ b) :
    Claims.number t b k = Claims.number s b k := by
  rw [number_eq, number_eq]
  congr 1
  exact List.map_congr_left fun i hi => h _ (by have := List.mem_range.mp hi; omega)

/-- A context's descriptor outside the range is as before. -/
theorem SameBut.descWord {s t : State} {a n : Nat} (h : SameBut s t a n) (table : t.lp.ctxTable = s.lp.ctxTable) (c : BitVec 12)
    (apart : a + n ≤ descAddr s c ∨ descAddr s c + 128 ≤ a) {o : Nat} (ho : o + 8 ≤ 128) : Machine.descWord t c o = Machine.descWord s c o := by
  have place : descAddr t c = descAddr s c := by unfold descAddr; rw [table]
  unfold Machine.descWord memNat
  rw [place, ← number_eq, ← number_eq, h.number (by omega)]

/-- Writes within the page leave the vine table where it is. -/
theorem SameBut.vineVa {s t : State} {a n : Nat} (h : SameBut s t a n) (table : t.lp.ctxTable = s.lp.ctxTable) (st : t.st = s.st)
    (apart : a + n ≤ descAddr s s.st.ctx ∨ descAddr s s.st.ctx + 128 ≤ a) (i k : Nat) : Claims.vineVa t i k = Claims.vineVa s i k := by
  unfold Claims.vineVa ctxVtBase
  rw [st, h.descWord table _ apart (by omega)]

/-- A vine descriptor is one where its words, and the table's place and length, are the same. -/
theorem isVine_congr {s t : State} {P : TlbEntry} {h : Nat} (v : Claims.IsVine s P h) (place : Claims.vineVa t h 0 = Claims.vineVa s h 0)
    (count : ctxVtCount t t.st.ctx = ctxVtCount s s.st.ctx) (words : ∀ k < 8, Claims.vineWord t P h k = Claims.vineWord s P h k) : Claims.IsVine t P h := by
  obtain ⟨inside, listed, kind, res⟩ := v
  refine ⟨by rwa [place], by rwa [count], ?_, ?_⟩
  · unfold Claims.vineStateOf at kind ⊢
    rwa [words 4 (by omega)]
  · unfold Claims.overlay at res ⊢
    rwa [words 2 (by omega), words 4 (by omega), words 7 (by omega)]

/-- A vine descriptor outside what is written in the page stays as it is. -/
theorem SameBut.vine {s t : State} {P : TlbEntry} {a n h : Nat} (but : SameBut s t a n) (table : t.lp.ctxTable = s.lp.ctxTable) (st : t.st = s.st)
    (far : a + n ≤ descAddr s s.st.ctx ∨ descAddr s s.st.ctx + 128 ≤ a) (v : Claims.IsVine s P h)
    (away : a + n ≤ Claims.keyAt P (Claims.vineVa s h 0) ∨ Claims.keyAt P (Claims.vineVa s h 0) + 64 ≤ a) :
    Claims.IsVine t P h ∧ ∀ k < 8, Claims.vineWord t P h k = Claims.vineWord s P h k := by
  obtain ⟨low, _⟩ := v.inside
  have place (k : Nat) : Claims.vineVa t h k = Claims.vineVa s h k := but.vineVa table st far h k
  have words (k : Nat) (hk : k < 8) : Claims.vineWord t P h k = Claims.vineWord s P h k := by
    have step : Claims.vineVa s h k = Claims.vineVa s h 0 + 8 * k := rfl
    unfold Claims.vineWord Claims.at_
    rw [place, but.number (by unfold Claims.keyAt at away; omega)]
  exact ⟨isVine_congr v (place 0) (by unfold ctxVtCount; rw [st, but.descWord table _ far (by omega)]) words, words⟩

/-! ## One word of a descriptor -/

/-- From s to t the 8 bytes at a have been written with v, or held v; nothing but memory has changed. -/
structure Put (s t : State) (a v : Nat) : Prop where
  only  : OnlyMemory s t
  but   : SameBut s t a 8
  value : Claims.number t a 8 = v
  form  : Memory.wf t.mem = true

/-- A word that a vine update changes, or leaves. -/
theorem VineReach.on_put {s : State} {P : TlbEntry} {n : Nat} {va : VAddr} (r : VineReach s P (n + 2)) (wf : Memory.wf s.mem = true)
    (inside : Claims.Inside P va.toNat 8) (old new : Word) (holds : Claims.at_ s P va.toNat 8 = old.toNat) :
    ∃ t, Act.on (if old ≠ new then vineWrite (vineDevice P.ctx) va 8 new.toNat else pure ()) s = (.ok (), t) ∧
      Put s t (Claims.keyAt P va.toNat) new.toNat ∧ VineReach t P n := by
  by_cases same : old = new
  · refine ⟨s, ?_, ⟨rfl, .of_mem rfl _ _, by rw [← same]; exact holds, wf⟩, r.mono (by omega)⟩
    rw [if_neg (not_not.mpr same)]
    rfl
  · obtain ⟨t, write, wrote⟩ := r.toBacked.on_vineWrite r.tier inside (by omega) new.toNat
    refine ⟨t, by rw [if_pos same, write], ⟨wrote.onlyMemory r.quiet, ?_, ?_, ?_⟩, wrote.vineReach r⟩
    · have but := SameBut.of_wrote wf wrote
      rwa [natToBytes_length] at but
    · exact number_memWrite wf wrote.mem new.isLt
    · rw [wrote.mem]
      exact memWrite_wf _ _ _ wf

/-- SVC := 0, in the word of a vine's flags. -/
theorem setBits_svc {w : Nat} (h : w < 2 ^ 64) : (setBits (BitVec.ofNat 64 w) 3 1 0).toNat = w - (if w / 8 % 2 = 1 then 8 else 0) := by
  unfold setBits
  rw [bits_ofNat h, BitVec.toNat_ofNat, BitVec.toNat_ofNat, Nat.mod_eq_of_lt h]
  split <;> omega

/-- The descriptor of a vine whose record has been written. -/
theorem VineReach.on_notePosted {s : State} {P : TlbEntry} {h n : Nat} (r : VineReach s P (n + 13)) (wf : Memory.wf s.mem = true)
    (v : Claims.IsVine s P h) (q : Nat) : ∃ u t, Act.on (notePosted (vineDevice P.ctx) h q) s = (.ok (), t) ∧
      Put s u (Claims.keyAt P (Claims.vineVa s h 4)) (Claims.vineWord s P h 4 - (if Claims.vineWord s P h 4 / 8 % 2 = 1 then 8 else 0)) ∧
      Put u t (Claims.keyAt P (Claims.vineVa s h 6)) (q % 2 ^ 64) := by
  obtain ⟨t0, read, looked⟩ := VineReach.on_readVine (n := n + 4) (r.mono (by omega)) v
  obtain ⟨low, high⟩ := v.inside
  obtain ⟨_, _, top⟩ := r.whole
  have place {k : Nat} (hk : k < 8) : ((vineIn s P h).va + BitVec.ofNat 48 (8 * k)).toNat = Claims.vineVa s h k := by
    unfold Claims.vineVa at high ⊢
    exact offset_toNat (by omega)
  have step (k : Nat) : Claims.vineVa s h k = Claims.vineVa s h 0 + 8 * k := rfl
  have word (k : Nat) : (BitVec.ofNat 64 (Claims.vineWord s P h k)).toNat = Claims.vineWord s P h k := by
    rw [BitVec.toNat_ofNat, Nat.mod_eq_of_lt (vineWord_lt s P h k)]
  have four := place (show 4 < 8 by omega)
  have six := place (show 6 < 8 by omega)
  have from4 := step 4
  have from6 := step 6
  obtain ⟨u, put4, one, r1⟩ := VineReach.on_put (n := n + 2) (looked.vineReach (n := n + 4) (r.mono (by omega))) (by rw [looked.mem]; exact wf)
    (va := (vineIn s P h).va + BitVec.ofNat 48 (8 * 4)) (by rw [four]; exact ⟨by omega, by omega⟩) (vineIn s P h).w4
    (setBits (vineIn s P h).w4 3 1 0) (by rw [four, at_congr looked.mem]; exact (word 4).symm)
  obtain ⟨t, put6, two, _⟩ := VineReach.on_put r1 one.form
    (va := (vineIn s P h).va + BitVec.ofNat 48 (8 * 6)) (by rw [six]; exact ⟨by omega, by omega⟩) (vineIn s P h).w6
    (w64 q) (by
      rw [six]
      unfold Claims.at_
      rw [one.but.number (by rw [four]; unfold Claims.keyAt; omega)]
      exact (at_congr looked.mem P _ 8).trans (word 6).symm)
  rw [four] at one
  rw [six] at two
  refine ⟨u, t, ?_, ⟨looked.onlyMemory.trans one.only, (SameBut.of_mem looked.mem _ _).trans one.but, ?_, one.form⟩, ⟨two.only, two.but, ?_, two.form⟩⟩
  · unfold notePosted
    rw [on_bind_ok read]
    unfold writeVine
    dsimp only
    simp only [ne_eq, not_true_eq_false, if_false]
    refine (on_bind_ok (s' := t0) rfl).trans ((on_bind_ok (s' := t0) rfl).trans ((on_bind_ok (s' := t0) rfl).trans ((on_bind_ok (s' := t0) rfl).trans ?_)))
    refine (on_bind_ok put4).trans ((on_bind_ok (s' := u) rfl).trans ?_)
    exact put6
  · rw [one.value]
    exact setBits_svc (vineWord_lt s P h 4)
  · rw [two.value, w64, BitVec.toNat_ofNat]

end Sys2Proof.Machine
end
section
/-! SVCQ_HEAD_POLL as a whole, and O45 (R70, R133, R137, R146, R149, R155). -/

namespace Sys2Proof.Machine

/-- An event changes the event ring and what goes to the host, and nothing else. -/
theorem recordEvent_only (s : State) (k : BitVec 8) (c : BitVec 12) (r : List Word) (a : VAddr) :
    recordEvent s k c r a = { s with ev := (recordEvent s k c r a).ev, links := (recordEvent s k c r a).links } := by
  unfold recordEvent postEvent postRecord putRecord
  split_ifs <;> rfl

/-- The state of a service queue into which the record x has gone. -/
def servedRecord (t : State) (c : BitVec 12) (h : BitVec 32) (r : List Word) (a : VAddr) : State :=
  { recordEvent t 0x10 c r a with waitSvc := t.waitSvc.erase (c, h, r) }

theorem servedRecord_only (t : State) (c : BitVec 12) (h : BitVec 32) (r : List Word) (a : VAddr) : servedRecord t c h r a =
    { t with ev := (recordEvent t 0x10 c r a).ev, links := (recordEvent t 0x10 c r a).links, waitSvc := t.waitSvc.erase (c, h, r) } := by
  unfold servedRecord
  rw [recordEvent_only]

theorem VineReach.servedRecord {t : State} {P : TlbEntry} {n : Nat} (reach : VineReach t P n) (c : BitVec 12) (h : BitVec 32) (r : List Word) (a : VAddr) :
    VineReach (servedRecord t c h r a) P n := by
  rw [servedRecord_only]
  exact ⟨reach.toBacked.congr rfl rfl rfl rfl, reach.tier, reach.ctx, reach.whole_⟩

theorem on_pollService_none {s : State} {c : BitVec 12} (waits : s.waitSvc = []) : Act.on (pollService c s.waitSvc.length) s = (.ok (), s) := by
  rw [waits]
  rfl

section
variable {s t : State} {P : TlbEntry} {c : BitVec 12} {h : BitVec 32} {r : List Word} (ctx : P.ctx = c) (waits : s.waitSvc = [(c, h, r)])
include ctx waits

/-- A record that finds no room, or no valid queue, waits on. -/
theorem on_pollService_waits {x : Except Stop (Option (VAddr × Nat))} (stays : x = .ok none ∨ ∃ w, x = .error (.trap 5 w))
    (push : Act.on (pushRecord (vineDevice P.ctx) (ctxSvcq s c) r) s = (x, t)) : Act.on (pollService c s.waitSvc.length) s = (.ok (), s) := by
  rw [waits]
  show Act.on (pollService c (0 + 1)) s = _
  unfold pollService
  rw [on_bind_ok (on_get s), waits, List.find?_cons_of_pos (by simp)]
  dsimp only
  rw [← ctx, show ctxSvcq s P.ctx = ctxSvcq s c by rw [ctx], push]
  rcases stays with rfl | ⟨w, rfl⟩ <;> rfl

/-- One that has found room is posted, and its vine's descriptor notes it. -/
theorem on_pollService_posts {a : VAddr} {n : Nat} {u : State} (push : Act.on (pushRecord (vineDevice P.ctx) (ctxSvcq s c) r) s = (.ok (some (a, n)), t))
    (noted : Act.on (notePosted (vineDevice P.ctx) h.toNat n) (servedRecord t c h r a) = (.ok (), u)) :
    Act.on (pollService c s.waitSvc.length) s = (.ok (), u) := by
  rw [waits]
  show Act.on (pollService c (0 + 1)) s = _
  rw [ctx] at push noted
  unfold pollService
  rw [on_bind_ok (on_get s), waits, List.find?_cons_of_pos (by simp)]
  dsimp only
  rw [push]
  exact (on_bind_ok (on_set (servedRecord t c h r a) t)).trans (on_bind_ok (on_dueOr_ok (on_vineAtomic_ok noted)))

end

section
variable {s : State} {P : TlbEntry} {h : BitVec 32} {r : List Word} (wf : Memory.wf s.mem = true) (reach : VineReach s P 8192)
    (below : P.base + P.size ≤ descAddr s s.st.ctx ∨ descAddr s s.st.ctx + 128 ≤ P.base) (three : r.length = 3)
    (inside : Claims.Inside P (ctxSvcq s s.st.ctx) queueSize) (vine : Claims.IsVine s P h.toNat)
    (apart : Claims.Apart [(ctxSvcq s s.st.ctx, queueSize), Claims.descRange s h.toNat]) (waits : s.waitSvc = [(s.st.ctx, h, r)])
include wf reach below three inside vine apart waits

/-- A poll of the service queue with room. -/
theorem svcqPoll_room (header : Claims.qHeader s P (ctxSvcq s s.st.ctx)) (room : Claims.qRoom s P (ctxSvcq s s.st.ctx)) :
    ∃ t, exec (.svcqHeadPoll s.st.ctx) s = .next t ∧ t.waitSvc = [] ∧ Claims.Pushed s t P (ctxSvcq s s.st.ctx) r ∧
      Claims.vineWord t P h.toNat 6 = (Claims.at_ s P (ctxSvcq s s.st.ctx + 8) 8 + 1) % 2 ^ 64 ∧
      Claims.vineWord t P h.toNat 4 = Claims.vineWord s P h.toNat 4 - (if Claims.vineWord s P h.toNat 4 / 8 % 2 = 1 then 8 else 0) ∧
      Claims.Event s t 0x10 ((r.headD 0).toNat % 256) ∧ Claims.OutsideSame s t P [(ctxSvcq s s.st.ctx, queueSize), Claims.descRange s h.toNat] := by
  generalize hq : ctxSvcq s s.st.ctx = q at inside apart header room ⊢
  obtain ⟨a, u, t, k, push, entry, tail, reach'⟩ := on_pushRecord_room reach inside three header room
  have only := onlyMemory_of_wrotes reach.quiet entry tail
  have pushed := pushed_of_wrote wf three inside.1 entry tail
  have but : SameBut s t (P.base + (q - P.vpage)) queueSize := fun b out => outside_of_wrote wf inside.1 entry tail three out
  have form : Memory.wf t.mem = true := by
    rw [tail.mem, entry.mem]
    exact memWrite_wf _ _ _ (memWrite_wf _ _ _ wf)
  obtain ⟨low, high⟩ := inside
  obtain ⟨first, last⟩ := vine.inside
  have away : q + queueSize ≤ Claims.vineVa s h.toNat 0 ∨ Claims.vineVa s h.toNat 0 + 64 ≤ q := by
    simpa [Claims.Apart, Claims.descRange] using apart
  have far : P.base + (q - P.vpage) + queueSize ≤ descAddr s s.st.ctx ∨ descAddr s s.st.ctx + 128 ≤ P.base + (q - P.vpage) := by omega
  -- the vine's descriptor is still one, and notes the record
  generalize hv : servedRecord t s.st.ctx h r a = v
  have same : v = _ := hv.symm.trans (servedRecord_only _ _ _ _ _)
  have mem : v.mem = t.mem := by rw [same]
  have butV : SameBut s v (P.base + (q - P.vpage)) queueSize := but.trans (.of_mem mem _ _)
  have tableV : v.lp.ctxTable = s.lp.ctxTable := by rw [same]; exact congrArg LaunchProc.ctxTable only.lp
  have stV : v.st = s.st := by rw [same]; exact only.st
  have placeV (k : Nat) : Claims.vineVa v h.toNat k = Claims.vineVa s h.toNat k := butV.vineVa tableV stV far _ _
  obtain ⟨vineV, wordV⟩ := butV.vine tableV stV far vine (by unfold Claims.keyAt; omega)
  have reachV : VineReach v P 7000 := by rw [← hv]; exact reach'.servedRecord _ _ _ _
  obtain ⟨x, w, noted, flags, number⟩ := VineReach.on_notePosted (n := 0) (reachV.mono (by omega)) (by rw [mem]; exact form) vineV
    (Claims.at_ s P (q + 8) 8 + 1)
  rw [placeV, wordV 4 (by omega)] at flags
  rw [placeV] at number
  have after : OnlyMemory v w := flags.only.trans number.only
  have from4 : Claims.vineVa s h.toNat 4 = Claims.vineVa s h.toNat 0 + 8 * 4 := rfl
  have from6 : Claims.vineVa s h.toNat 6 = Claims.vineVa s h.toNat 0 + 8 * 6 := rfl
  have desc : SameBut v w (P.base + (Claims.vineVa s h.toNat 0 - P.vpage)) 64 :=
    (flags.but.mono (by unfold Claims.keyAt; omega) (by unfold Claims.keyAt; omega)).trans
      (number.but.mono (by unfold Claims.keyAt; omega) (by unfold Claims.keyAt; omega))
  have page : SameBut s w P.base P.size := (butV.mono (by omega) (by omega)).trans (desc.mono (by omega) (by omega))
  have placeW (k : Nat) : Claims.vineVa w h.toNat k = Claims.vineVa s h.toNat k :=
    page.vineVa (by rw [after.lp, tableV]) (after.st.trans stV) below _ _
  have queue {va k : Nat} (lo : q ≤ va) (hi : va + k ≤ q + queueSize) : Claims.at_ w P va k = Claims.at_ t P va k := by
    unfold Claims.at_
    rw [desc.number (by omega), number_congr mem]
  obtain ⟨nextLow, nextHigh⟩ := qNext_within s P q
  obtain ⟨record, stamp, count, head⟩ := pushed
  refine ⟨w, ?_, ?_, ⟨fun k hk => ?_, ?_, ?_, ?_⟩, ?_, ?_, ?_, ?_⟩
  · rw [exec_svcqHeadPoll]
    have ctx : P.ctx = s.st.ctx := reach.ctx
    subst hq hv
    exact event_ok (on_pollService_posts ctx waits push noted)
  · rw [after.waitSvc, same]
    show t.waitSvc.erase _ = []
    rw [only.waitSvc, waits, List.erase_cons_head]
  · rw [queue (by omega) (by unfold queueSize; omega)]
    exact record k hk
  · rw [queue (by omega) (by unfold queueSize; omega)]
    exact stamp
  · rw [queue (by omega) (by unfold queueSize; omega)]
    exact count
  · rw [queue (by omega) (by unfold queueSize; omega)]
    exact head
  · unfold Claims.vineWord
    rw [placeW]
    exact number.value
  · unfold Claims.vineWord
    rw [placeW]
    unfold Claims.at_
    rw [number.but.number (by unfold Claims.keyAt; omega)]
    exact flags.value
  · exact event_recordEvent (t := t) only.ev (after.ev.trans (by rw [← hv]; rfl))
  · intro b outside
    have off := outside _ List.mem_cons_self
    have off' := outside _ (List.mem_cons_of_mem _ List.mem_cons_self)
    exact (desc b off').trans (butV b off)

end

/-- SVCQ_HEAD_POLL and RELQ_HEAD_POLL (R146, R155). -/
theorem polls : Claims.Polls := by
  intro s P c h d r q l wf here three
  obtain ⟨space, home, rfl⟩ := here
  have reach := VineReach.of_space space home
  have ctx : P.ctx = s.st.ctx := space.ctx
  refine ⟨fun none => ?_, fun waits _ inside vine apart => ⟨fun bad => ?_, fun header room => ?_, fun header full => ?_⟩,
    fun waits _ inside => relqPoll wf reach ctx three waits inside⟩
  · rw [exec_svcqHeadPoll]
    exact event_ok (on_pollService_none none)
  · obtain ⟨w, t, push⟩ := on_pushRecord_invalid (r := r) reach inside bad
    rw [exec_svcqHeadPoll]
    exact event_ok (on_pollService_waits ctx waits (.inr ⟨w, rfl⟩) push)
  · exact svcqPoll_room wf.mem reach space.apart three inside vine apart waits header room
  · obtain ⟨t, push⟩ := on_pushRecord_full (r := r) reach inside header full
    rw [exec_svcqHeadPoll]
    exact ⟨s, event_ok (on_pollService_waits ctx waits (.inl rfl) push), rfl, fun _ => rfl, rfl⟩

/-- Settles O45: the event ring, the doorbell of a vine, the polls of the service and the release queue, and the requests at a pool's home. -/
theorem doorbellEvents : Obligations.DoorbellEvents := by
  unfold Obligations.DoorbellEvents
  exact ⟨eventRing, doorbell, polls, vineRequest⟩

end Sys2Proof.Machine
end
section
/-! SUPPORT. STATE as the launch processor writes it, and the end of a context (R48). -/

namespace Sys2Proof.Machine

/-- Of the launch processor, only the STATEs differ; of the rest, only memory. -/
def OnlyState (s t : State) : Prop :=
  t = { s with lines := t.lines, poison := t.poison, mem := t.mem, lp := { s.lp with active := t.lp.active } }

section
variable {s t : State} (h : OnlyState s t)
include h
theorem OnlyState.cur : t.cur = s.cur := by unfold OnlyState at h; rw [h]
theorem OnlyState.st : t.st = s.st := by unfold OnlyState at h; rw [h]
theorem OnlyState.others : t.others = s.others := by unfold OnlyState at h; rw [h]
theorem OnlyState.cores : t.cores = s.cores := by unfold OnlyState at h; rw [h]
theorem OnlyState.daleel : t.daleel = s.daleel := by unfold OnlyState at h; rw [h]
theorem OnlyState.cycle : t.cycle = s.cycle := by unfold OnlyState at h; rw [h]
theorem OnlyState.queues : t.lp.queues = s.lp.queues := by unfold OnlyState at h; rw [h]
theorem OnlyState.resid : t.lp.resid = s.lp.resid := by unfold OnlyState at h; rw [h]
theorem OnlyState.groups : t.lp.groups = s.lp.groups := by unfold OnlyState at h; rw [h]
theorem OnlyState.order : t.lp.order = s.lp.order := by unfold OnlyState at h; rw [h]
theorem OnlyState.ctxTable : t.lp.ctxTable = s.lp.ctxTable := by unfold OnlyState at h; rw [h]
theorem OnlyState.getStrand (n : Nat) : getStrand t n = getStrand s n := by
  unfold Machine.getStrand
  rw [h.cur, h.st, h.others]
end

/-- The device writes STATE: nothing meets an error or a watch, and no compressed line is written back. -/
structure StateReach (s : State) (c : BitVec 12) : Prop where
  noLog : Claims.NoLog s
  quiet : s.watches = []
  place : descAddr s c + 8 ≤ Config.compBase
  form  : Memory.wf s.mem = true

theorem StateReach.of_device {s : State} {c : BitVec 12} {P : TlbEntry} {n : Nat} (d : Claims.Device s c P n) (wf : Memory.wf s.mem = true) :
    StateReach s c := by
  obtain ⟨_, high⟩ := d.table
  refine ⟨d.noLog, d.quiet, ?_, wf⟩
  simp only [Config.gddrEnd, Config.compBase] at high ⊢
  omega

/-- STATE changes, and of memory the first dword of the descriptor. -/
theorem StateReach.setCtxState {s : State} {c : BitVec 12} (r : StateReach s c) (st : Nat) :
    OnlyState s (setCtxState s c st) ∧ SameBut s (setCtxState s c st) (descAddr s c) 8 := by
  have wrote := physWrite_wrote (n := 8 + 1) (s := s) (a := descAddr s c) (bs := natToBytes 8 (setBits (descWord s c 0) 0 4 st).toNat) (.inl r.noLog)
    (by rw [natToBytes_length]; exact r.place) (by rw [natToBytes_length]; omega) false 0
  have only : OnlyMemory s (devWrite s (descAddr s c) (natToBytes 8 (setBits (descWord s c 0) 0 4 st).toNat)) := wrote.onlyMemory r.quiet
  have but := SameBut.of_wrote r.form wrote
  rw [natToBytes_length] at but
  refine ⟨?_, but⟩
  unfold OnlyMemory at only
  unfold OnlyState Machine.setCtxState holdState
  generalize devWrite s (descAddr s c) (natToBytes 8 (setBits (descWord s c 0) 0 4 st).toNat) = u at only
  rw [only]

/-! ## A context's strands stop -/

theorem getStrand_allPinsDue (s : State) (n : Nat) : getStrand (allPinsDue s) n = getStrand s n := by
  unfold allPinsDue
  generalize s.pinned = l
  induction l generalizing s with
  | nil => rfl
  | cons p l ih =>
    rw [List.foldl_cons, ih]
    unfold pinsDue
    split <;> rfl

theorem getStrand_dropPins (s : State) (c : BitVec 12) (n : Nat) : getStrand (dropPins s c) n = getStrand s n := getStrand_allPinsDue _ n

/-- A strand of a context that ends is not resident any more (R48). -/
theorem contextDead_frees {s : State} {c : BitVec 12} (r : StateReach s c) (alive : ctxState s c ≠ 6) (wf : sparseWf {} s.others = true) {n : Nat}
    (here : (getStrand s n).resident = true ∧ (getStrand s n).ctx = c) (reason : BitVec 8) (value addr : Word) :
    (getStrand (contextDead s c reason value addr) n).resident = false := by
  obtain ⟨only, _⟩ := r.setCtxState 6
  obtain ⟨resident, ctx⟩ := here
  have same : getStrand (dropPins (setCtxState s c 6) c) n = getStrand s n := (getStrand_dropPins _ _ _).trans (only.getStrand n)
  have pins : LeavesMemory _ (dropPins (setCtxState s c 6) c) := allPinsDue_leaves _
  have form : sparseWf {} (dropPins (setCtxState s c 6) c).others = true := pins.wf (by rw [show _ = s.others from only.others]; exact wf)
  have gone : getStrand (endStrands (dropPins (setCtxState s c 6) c) c) n = {} := by
    unfold endStrands
    rw [getStrand_endAll form, if_pos ((mem_strandsWhere_iff (by simp)).mpr (by rw [same, resident, ctx]; simp))]
  have stopped := (endStrands_leaves (dropPins (setCtxState s c 6) c) c).wf form
  rw [contextDead_eq alive]
  generalize endStrands (dropPins (setCtxState s c 6) c) c = e at gone stopped
  have posted := postEvent_leaves (forgetContext e c) 0x01 reason c value addr
  have strand : getStrand (postEvent (forgetContext e c) 0x01 reason c value addr) n = {} := by
    unfold getStrand at gone ⊢
    rw [posted.cur, posted.others, postEvent, postRecord_st]
    exact gone
  obtain ⟨resident', _⟩ := (abortEntries_leavesSeats (postEvent (forgetContext e c) 0x01 reason c value addr) c).seats
    (by rw [posted.others]; exact stopped) n
  rw [resident', strand]

end Sys2Proof.Machine
end
section
/-! WATCHDOG_EXPIRY: the watchdog of a strand (R57, R87). -/

namespace Sys2Proof.Machine

theorem exec_watchdogExpiry (n : Fin 4096) (s : State) : exec (.watchdogExpiry n) s = execWatchdogExpiry n s := rfl

theorem getStrand_focused (s : State) : getStrand s s.cur.val = s.st := if_pos rfl

/-- An action of the focused strand that keeps the machine's turn. -/
theorem on_asStrand_focused {s t : State} {a : Act Unit} (run : Act.on a s = (.ok (), t)) (turn : t.cur = s.cur) :
    Act.on (asStrand s.cur a) s = (.ok (), t) := by
  unfold asStrand
  rw [on_bind_ok (on_get s), on_bind_ok (on_apply _ s), focusOn_cur, on_bind_ok (on_get s)]
  dsimp only
  rw [run]
  dsimp only
  rw [← turn, focusOn_cur]
  rfl

/-- A strand whose period has been counted takes cause 0x12 at its next boundary, or ends its context. -/
theorem watchdog_due {s : State} (resident : s.st.resident = true) (awake : s.st.park = 0) (runs : ctxState s s.st.ctx = 2)
    (due : Claims.dogLimit s ≤ Claims.dogCount s) : exec (.watchdogExpiry s.cur) s =
      if s.st.priv then .next (contextDead s s.st.ctx 2 (s.st.trap.tcause.zeroExtend 64) 0)
      else .next (asyncTrap 0x12 s.cycle { s with st := s.st.restart s.cycle }) := by
  have counted : s.st.counted s.cycle = Claims.dogCount s := by
    unfold Strand.counted Claims.dogCount
    rw [awake, if_neg (by simp)]
  rw [exec_watchdogExpiry]
  unfold execWatchdogExpiry
  rw [getStrand_focused]
  dsimp only
  rw [if_neg (by
    rw [resident, runs, counted]
    rintro (no | parked | ⟨saving, _⟩ | early)
    · cases no
    · exact parked awake
    · omega
    · exact Nat.not_lt.mpr due early)]
  by_cases priv : s.st.priv = true
  · rw [if_pos priv, if_pos priv]
  · rw [if_neg priv, if_neg priv]
    exact event_ok (on_asStrand_focused (t := asyncTrap 0x12 s.cycle { s with st := s.st.restart s.cycle }) rfl
      (asyncTrap_user_cur (s := { s with st := s.st.restart s.cycle }) (Bool.eq_false_iff.mpr priv)))

theorem watchdog_idle {s : State} {n : Fin 4096}
    (idle : (getStrand s n.val).resident = false ∨ (getStrand s n.val).park ≠ 0 ∨ (getStrand s n.val).counted s.cycle < dogPeriod (getStrand s n.val).item) :
    exec (.watchdogExpiry n) s = .next s := by
  rw [exec_watchdogExpiry]
  unfold execWatchdogExpiry
  dsimp only
  rw [if_pos]
  rcases idle with absent | parked | early
  · exact .inl (by rw [absent]; rfl)
  · exact .inr (.inl parked)
  · exact .inr (.inr (.inr early))

/-- WATCHDOG_EXPIRY (R57, R87). -/
theorem watchdog : Claims.Watchdog := by
  intro s P wf dev viq runs resident awake
  refine ⟨fun early => watchdog_idle (.inr (.inr ?_)), fun user due => ?_, fun priv due => ?_, fun n idle => watchdog_idle (idle.imp_right .inl)⟩
  · rw [getStrand_focused]
    unfold Strand.counted dogPeriod
    rw [awake, if_neg (by simp)]
    exact early
  · have st := asyncTrap_user_st (cause := 0x12) (val := s.cycle) (s := { s with st := s.st.restart s.cycle }) user
    refine ⟨_, (watchdog_due resident awake runs due).trans (if_neg (by simp [user])), ?_, ?_, ?_, ?_, ?_, ?_, asyncTrap_user_mem user, ?_, ?_⟩
    · rw [st]
    · rw [st]; rfl
    · rw [st]; exact causeWord_code _ _
    · rw [st]
    · rw [st]; rfl
    · rw [st]; rfl
    · rw [st]; rfl
    · rw [st]
      exact if_neg fun parked => parked awake
  · refine ⟨_, (watchdog_due resident awake runs due).trans (if_pos priv), ctxState_contextDead _ _ _ _ _, ?_⟩
    exact contextDead_frees (.of_device dev wf.mem) (by omega) wf.others (by rw [getStrand_focused]; exact ⟨resident, rfl⟩) _ _ _

end Sys2Proof.Machine
end
section
/-! EXIT of an item (R88, R353). -/

namespace Sys2Proof.Machine

theorem exec_exit (s : State) : exec .exit s = execExit s := rfl

/-- Writes of the strand's copies are out, in the statements' words. -/
theorem copyWritesOut_iff {s : State} {n : Nat} : copyWritesOut s n = true ↔ Claims.CopyOut s n := by
  unfold copyWritesOut
  simp only [Bool.or_eq_true, List.any_eq_true, Bool.and_eq_true, decide_eq_true_eq, isPeerWrite_iff, peerMsgs_iff, List.contains_iff_mem]
  refine or_congr_right ⟨?_, ?_⟩
  · rintro ⟨m, wire, ⟨strand, copy⟩, b, op⟩
    exact ⟨m, b, strand, copy, op, wire⟩
  · rintro ⟨m, b, strand, copy, op, wire⟩
    exact ⟨m, wire, ⟨strand, copy⟩, b, op⟩

/-- A copy command of the strand, or a write of its copies, is out. -/
def copiesOut (s : State) : Bool := ((getCore s (curCore s)).commands.any fun m => decide (m.strand = s.cur.val)) || copyWritesOut s s.cur.val

theorem copiesOut_iff {s : State} :
    copiesOut s = true ↔ (∃ m ∈ (getCore s (curCore s)).commands, m.strand = s.cur.val) ∨ Claims.CopyOut s s.cur.val := by
  unfold copiesOut
  simp only [Bool.or_eq_true, List.any_eq_true, decide_eq_true_eq, copyWritesOut_iff]

theorem not_copiesOut {s : State} (idle : (getCore s (curCore s)).commands = []) (none : ¬ Claims.CopyOut s s.cur.val) : ¬ copiesOut s = true := by
  rw [copiesOut_iff, idle]
  rintro (⟨m, listed, _⟩ | out)
  · cases listed
  · exact none out

/-- What an EXIT does once its strand's copies are over. -/
def exitOnce (s : State) : Act Unit := do
  match copyErrors s with
  | some (k, c, v) =>
    apply fun s => { s with st := { s.st with copyErr := s.st.copyErr.set k.val none } }
    trap c v
  | none =>
    if s.st.accum.flight ≠ [] then throw .again
    for (_, g) in memberships s do groupGuard g
    apply fun s => (List.finRange 4).foldl (fun s k => putStream s k {}) s
    leaveGroups
    apply endItem

/-- An EXIT with an empty VIQ and an empty hold buffer. -/
theorem execExit_eq {s : State} (viq : s.st.viq = []) (hold : s.st.hold = []) (holdAt : s.st.holdAt = 0) :
    exec .exit s = finish s (if copiesOut s then (.error .again, s) else Act.on (exitOnce s) s) := by
  have same : (if s.st.priv = true then { s with st := { s.st with hold := [], holdAt := 0 } } else s) = s := by
    rw [← hold, ← holdAt, ite_self]
  rw [exec_exit]
  unfold execExit
  congr 1
  rw [on_bind_ok (on_apply _ s)]
  show Act.on _ (if s.st.priv = true then { s with st := { s.st with hold := [], holdAt := 0 } } else s) = _
  rw [same, on_bind_ok (on_drained_nil viq)]
  by_cases out : copiesOut s = true
  · rw [if_pos out]
    exact (congrArg (Act.on · s) (if_pos out)).trans (on_bind_error (on_throw .again s))
  · rw [if_neg out]
    exact congrArg (Act.on · s) (if_neg out)

/-! ## The item ends -/

/-- The strand is free, its entry counts one item less. -/
def itemGone (s : State) : State :=
  setEntry (forgetReads { s with st := {} } s.cur.val false) s.st.item.queue s.st.item.entry fun e => { e with live := e.live - 1 }

theorem endItem_eq (s : State) : endItem s = lastGone (itemGone s) s.st.ctx := rfl

/-- The state with other streams: what outlives the item is the same. -/
def withStreams (s : State) (x : Vector StreamReg 4) : State := { s with st := { s.st with streams := x } }

theorem endItem_withStreams (s : State) (x : Vector StreamReg 4) : endItem (withStreams s x) = endItem s := rfl

theorem memberships_withStreams (s : State) (x : Vector StreamReg 4) : memberships (withStreams s x) = memberships s := rfl

theorem putStreams_eq (s : State) (l : List SReg) : ∃ x, l.foldl (fun s k => putStream s k {}) s = withStreams s x := by
  induction l generalizing s with
  | nil => exact ⟨s.st.streams, rfl⟩
  | cons k l ih =>
    obtain ⟨x, rest⟩ := ih (putStream s k {})
    exact ⟨x, rest⟩

theorem on_exitOnce_ends {s : State} (clean : ∀ k : Fin 4, s.st.copyErr[k.val] = none) (still : s.st.accum.flight = []) (alone : s.st.item.groups = []) :
    Act.on (exitOnce s) s = (.ok (), endItem s) := by
  have errors : copyErrors s = none := List.findSome?_eq_none_iff.mpr fun k _ => by rw [clean k]; rfl
  have none : memberships s = [] := List.filterMap_eq_nil_iff.mpr fun k _ => by rw [alone]; rfl
  obtain ⟨x, ended⟩ := putStreams_eq s (List.finRange 4)
  have leaves : Act.on leaveGroups (withStreams s x) = (.ok (), withStreams s x) := by
    unfold leaveGroups
    rw [on_bind_ok (on_get _), memberships_withStreams, none]
    rfl
  unfold exitOnce
  rw [errors]
  dsimp only
  rw [none, if_neg (by simp [still])]
  refine (on_bind_ok (s' := s) rfl).trans ?_
  refine (on_bind_ok ((on_apply _ s).trans (congrArg (Prod.mk _) ended))).trans ?_
  rw [on_bind_ok leaves, on_apply, endItem_withStreams]

/-- An error of a copy channel that has not been reported traps. -/
theorem on_exitOnce_traps {s : State} {c : BitVec 8} {v : Word} (err : s.st.copyErr[0] = some (c, v)) :
    Act.on (exitOnce s) s = (.error (.trap c v), { s with st := { s.st with copyErr := s.st.copyErr.set 0 none } }) := by
  have errors : copyErrors s = some (0, c, v) := by
    unfold copyErrors
    rw [show List.finRange 4 = 0 :: (List.finRange 3).map Fin.succ from List.finRange_succ, List.findSome?_cons_of_isSome]
    · exact congrArg (Option.map _) err
    · exact (congrArg (fun o => (Option.map (fun e : BitVec 8 × Word => ((0 : Fin 4), e.1, e.2)) o).isSome) err)
  unfold exitOnce
  rw [errors]
  rfl

/-- The last item of a context that runs: the context is IDLE. -/
theorem lastGone_idle {s : State} {c : BitVec 12} (none : ∀ n, (getStrand s n).resident = false) (runs : ctxState s c = 2) :
    lastGone s c = leaveResidence s c 1 := by
  have gone : strandsWhere s (fun t => t.resident ∧ t.ctx = c) = [] := by
    refine List.eq_nil_iff_forall_not_mem.mpr fun n listed => ?_
    have passes := (mem_strandsWhere_iff (by simp)).mp listed
    rw [none n] at passes
    simp at passes
  unfold lastGone
  rw [if_neg (not_not.mpr gone), if_neg (by omega), if_pos (.inl runs)]

theorem exit_ends {s : State} {P : TlbEntry} {e : QEntry} (wf : Claims.Canonical s) (dev : Claims.Device s s.st.ctx P 8) (others : s.others = [])
    (runs : ctxState s s.st.ctx = 2) (entries : (getQueue s s.st.item.queue).entries = [e]) (own : e.id = s.st.item.entry) :
    (endItem s).st = {} ∧ ctxState (endItem s) s.st.ctx = 1 ∧ (getQueue (endItem s) s.st.item.queue).entries = [{ e with live := e.live - 1 }] ∧
      ∀ b, ¬ (descAddr s s.st.ctx ≤ b ∧ b < descAddr s s.st.ctx + 8) → memByte (endItem s).mem b = memByte s.mem b := by
  have free (n : Nat) : getStrand (itemGone s) n = {} := by
    unfold getStrand
    split
    · rfl
    · rw [show (itemGone s).others = [] from others]
      rfl
  have reach : StateReach (itemGone s) s.st.ctx := by
    obtain ⟨noLog, quiet, place, form⟩ := StateReach.of_device dev wf.mem
    exact ⟨noLog, congrArg (List.filter _) quiet, place, form⟩
  obtain ⟨only, but⟩ := reach.setCtxState 1
  rw [endItem_eq, lastGone_idle (s := itemGone s) (fun n => by rw [free]) runs]
  refine ⟨only.st, ctxState_setCtxState (itemGone s) s.st.ctx (by decide), ?_, but⟩
  have left : itemGone s = setQueue (forgetReads { s with st := {} } s.cur.val false) s.st.item.queue
      { getQueue s s.st.item.queue with entries := [{ e with live := e.live - 1 }] } := by
    unfold itemGone
    rw [← own]
    exact setEntry_only (s := forgetReads { s with st := {} } s.cur.val false) entries _
  rw [show getQueue (leaveResidence (itemGone s) s.st.ctx 1) s.st.item.queue = getQueue (itemGone s) s.st.item.queue from
    getQueue_congr only.queues _, left]
  exact congrArg Queue.entries (getQueue_setQueue_self (s := forgetReads { s with st := {} } s.cur.val false) wf.queues _ _)

/-- EXIT (R88, R353). -/
theorem exitItem : Claims.Exit := by
  intro s P e t wf dev viq awake hold holdAt still alone others runs entries own
  have step := execExit_eq (s := s) viq hold holdAt
  refine ⟨fun out => ?_, fun idle notOut => ⟨fun clean => ?_, fun c v err user => ?_⟩⟩
  · rw [step, if_pos (copiesOut_iff.mpr out), finish, strandGone_self, if_neg Bool.false_ne_true]
    rfl
  · rw [step, if_neg (not_copiesOut idle notOut), on_exitOnce_ends clean still alone]
    exact ⟨_, rfl, exit_ends wf dev others runs entries own⟩
  · rw [step, if_neg (not_copiesOut idle notOut), on_exitOnce_traps err]
    generalize hw : ({ s with st := { s.st with copyErr := s.st.copyErr.set 0 none } } : State) = w
    have here : strandGone s w = false := by rw [← hw]; exact strandGone_self s
    have priv : w.st.priv = false := by rw [← hw]; exact user
    have empty : w.st.viq = [] := by rw [← hw]; exact viq
    refine ⟨_, by rw [finish, here, if_neg Bool.false_ne_true, stopFrom, trapFrom, if_neg (not_not.mpr empty), scalarTrap, if_neg (not_not.mpr empty),
      enterTrap_user priv], ?_, rfl, ?_, ?_⟩
    · exact causeWord_code c _
    · show w.st.copyErr = _
      rw [← hw]
    · show w.st.resident = _
      rw [← hw]

end Sys2Proof.Machine
end
section
/-! TIME_SLICE_EXPIRY: a context is pre-empted (R49, R69). -/

namespace Sys2Proof.Machine

theorem exec_timeSliceExpiry (q : Fin 64) (s : State) : exec (.timeSliceExpiry q) s = execTimeSliceExpiry q s := rfl

/-! ## A strand's place among its context's -/

theorem idxOf_eq_below {l : List Nat} (h : l.Pairwise (· < ·)) {n : Nat} (hn : n ∈ l) : l.idxOf n = (l.filter (decide <| · < n)).length := by
  induction l with
  | nil => cases hn
  | cons a l ih =>
    obtain ⟨first, rest⟩ := List.pairwise_cons.mp h
    rcases List.mem_cons.mp hn with rfl | later
    · have none : l.filter (decide <| · < n) = [] := List.filter_eq_nil_iff.mpr fun b hb => by simp [(first b hb).le]
      simp [none]
    · have less := first n later
      rw [List.idxOf_cons_ne _ (Nat.ne_of_lt less), ih rest later, List.filter_cons_of_pos (by simpa using less), List.length_cons]

/-- The place of a number in an ascending list that holds just those with a property: how many below it have the property. -/
theorem idxOf_eq_count {l : List Nat} (h : l.Pairwise (· < ·)) {p : Nat → Bool} (all : ∀ k, k ∈ l ↔ p k = true) {n : Nat} (hn : n ∈ l) :
    l.idxOf n = ((List.range n).filter p).length := by
  rw [idxOf_eq_below h hn]
  refine ((List.perm_ext_iff_of_nodup ((h.imp fun lt => Nat.ne_of_lt lt).filter _) (List.nodup_range.filter _)).mpr fun k => ?_).length_eq
  simp only [List.mem_filter, List.mem_range, decide_eq_true_eq, all]
  exact and_comm

/-! ## Frames are given -/

/-- From s to t strands change, and nothing else. -/
def LeavesRest (s t : State) : Prop := t = { s with st := t.st, others := t.others }

theorem LeavesRest.refl (s : State) : LeavesRest s s := rfl

theorem LeavesRest.trans {s t u : State} (a : LeavesRest s t) (b : LeavesRest t u) : LeavesRest s u := by
  unfold LeavesRest at *
  rw [b, a]

theorem LeavesRest.setStrand (s : State) (n : Nat) (t : Strand) : LeavesRest s (setStrand s n t) := by
  unfold LeavesRest Machine.setStrand
  split <;> rfl

theorem LeavesRest.reach {s t : State} {c : BitVec 12} (h : LeavesRest s t) (r : StateReach s c) : StateReach t c := by
  obtain ⟨noLog, quiet, place, form⟩ := r
  unfold LeavesRest at h
  rw [h]
  exact ⟨noLog, quiet, place, form⟩

/-- The listed strands are given frames, from i on. -/
def giveFrames (s : State) (l : List Nat) (i : Nat) : State := (l.zipIdx i).foldl (fun s p => modStrand s p.1 fun t => { t with frame := p.2 }) s

theorem giveFrames_leaves (s : State) (l : List Nat) (i : Nat) : LeavesRest s (giveFrames s l i) := by
  unfold giveFrames
  induction l generalizing s i with
  | nil => exact .refl s
  | cons k l ih => exact (LeavesRest.setStrand s k _).trans (ih _ (i + 1))

theorem getStrand_giveFrames {s : State} (wf : sparseWf {} s.others = true) {l : List Nat} (once : l.Nodup) (i n : Nat) :
    getStrand (giveFrames s l i) n = if n ∈ l then { getStrand s n with frame := i + l.idxOf n } else getStrand s n := by
  induction l generalizing s i with
  | nil => rfl
  | cons k l ih =>
    obtain ⟨apart, once⟩ := List.nodup_cons.mp once
    have step (j : Nat) : getStrand (modStrand s k fun t => { t with frame := i }) j =
        if j = k then { getStrand s k with frame := i } else getStrand s j := getStrand_setStrand wf k _ j
    have rest := ih (s := modStrand s k fun t => { t with frame := i }) (setStrand_others_wf wf k _) once (i + 1)
    show getStrand (giveFrames (modStrand s k fun t => { t with frame := i }) l (i + 1)) n = _
    rw [rest, step]
    by_cases here : n = k
    · subst here
      rw [if_neg apart, if_pos rfl, if_pos List.mem_cons_self, List.idxOf_cons_self, Nat.add_zero]
    · rw [if_neg here, List.idxOf_cons_ne _ fun e => here e.symm]
      refine if_congr (by simp [here]) ?_ rfl
      rw [show i + 1 + l.idxOf n = i + (l.idxOf n).succ by omega]

/-- The strands of a context. -/
def strandsOfCtx (s : State) (c : BitVec 12) : List Nat := strandsWhere s fun t => t.resident ∧ t.ctx = c

theorem mem_strandsOfCtx {s : State} {c : BitVec 12} {n : Nat} :
    n ∈ strandsOfCtx s c ↔ ((getStrand s n).resident && decide ((getStrand s n).ctx = c)) = true := by
  unfold strandsOfCtx
  rw [mem_strandsWhere_iff (by simp)]
  simp

/-- Pre-emption of a context begins: it is SAVING, and each of its strands has the frame of its place among them (R49). -/
theorem preempt_effect {s : State} {c : BitVec 12} (reach : StateReach s c) (wf : sparseWf {} s.others = true) :
    ctxState (preempt s c) c = 3 ∧ (preempt s c).lp.queues = s.lp.queues ∧ ∀ n,
      getStrand (preempt s c) n = { getStrand s n with frame := (getStrand (preempt s c) n).frame } ∧
      ((getStrand s n).resident = true → (getStrand s n).ctx = c → (getStrand (preempt s c) n).frame =
        ((List.range n).filter fun k => (getStrand s k).resident && decide ((getStrand s k).ctx = c)).length) := by
  have given := giveFrames_leaves s (strandsOfCtx s c) 0
  have reach' := given.reach reach
  obtain ⟨only, _⟩ := reach'.setCtxState 3
  have strand (n : Nat) : getStrand (preempt s c) n =
      if n ∈ strandsOfCtx s c then { getStrand s n with frame := 0 + (strandsOfCtx s c).idxOf n } else getStrand s n :=
    (only.getStrand n).trans (getStrand_giveFrames wf (strandsWhere_nodup wf _) 0 n)
  refine ⟨ctxState_setCtxState _ c (by decide), only.queues.trans (by rw [show giveFrames s (strandsOfCtx s c) 0 = _ from given]), fun n => ⟨?_, fun resident ctx => ?_⟩⟩
  · rw [strand]
    split <;> rfl
  · have listed : n ∈ strandsOfCtx s c := mem_strandsOfCtx.mpr (by rw [resident, ctx]; simp)
    rw [strand, if_pos listed]
    refine (Nat.zero_add _).trans ?_
    exact idxOf_eq_count ((strandNums_pairwise wf).filter _) (fun _ => mem_strandsOfCtx) listed

/-! ## The slice -/

theorem saving_iff {s : State} : saving s = true ↔ ¬ ∀ a ∈ s.lp.active, a.2 ≠ 3 := by
  unfold saving
  simp

/-- An entry has run its slice, and what R69 asks for holds. -/
def sliceDue (s : State) (q : Nat) (e : QEntry) : Prop :=
  ctxState s e.ctx = 2 ∧ ! saving s ∧ framesSuffice s e.ctx ∧ waitsFor s (getQueue s q).prio e

theorem timeSlice_none {s : State} {q : Fin 64} (none : (getQueue s q.val).entries.find? (ranSlice (getQueue s q.val) s.cycle) = none) :
    exec (.timeSliceExpiry q) s = .next s := by
  rw [exec_timeSliceExpiry]
  unfold execTimeSliceExpiry
  dsimp only
  rw [none]

theorem timeSlice_some {s : State} {q : Fin 64} {e : QEntry} (sound : ErrorFree s)
    (ran : (getQueue s q.val).entries.find? (ranSlice (getQueue s q.val) s.cycle) = some e) :
    (sliceDue s q.val e → exec (.timeSliceExpiry q) s = .next (preempt s e.ctx)) ∧
    (¬ sliceDue s q.val e → exec (.timeSliceExpiry q) s = .next s) := by
  rw [exec_timeSliceExpiry]
  unfold execTimeSliceExpiry
  dsimp only
  rw [ran]
  dsimp only
  rw [descCheck_errorFree sound]
  exact ⟨fun due => congrArg Host.Outcome.next (if_pos due), fun notDue => congrArg Host.Outcome.next (if_neg notDue)⟩

/-- TIME_SLICE_EXPIRY (R69). -/
theorem timeSlice : Claims.TimeSlice := by
  intro s P q e v slice ran due wf dev
  have means : sliceDue s q.val e ↔ due := by
    unfold sliceDue framesSuffice
    rw [Bool.not_eq_true', ← Bool.not_eq_true, saving_iff, not_not, decide_eq_true_eq]
    exact Iff.rfl
  refine ⟨timeSlice_none, fun found => ?_⟩
  obtain ⟨yes, no⟩ := timeSlice_some (Backed.of_device dev).free found
  refine ⟨fun now => ?_, fun not => no fun now => not (means.mp now)⟩
  obtain ⟨saving, queues, strands⟩ := preempt_effect (.of_device dev wf.mem) wf.others
  exact ⟨_, yes (means.mpr now), saving, queues, fun n _ => strands n⟩

end Sys2Proof.Machine
end
section
/-! SUPPORT. A launch processor with one entry to place (R69): which queue and which entry it chooses. -/

namespace Sys2Proof.Machine

/-- One queue holds one entry, a launch with items to place; no context waits for its restore, and no die is in reset. -/
structure Lone (s : State) (q : Fin 64) (v : Queue) (e : QEntry) (h : Launch) : Prop where
  queues  : s.lp.queues = [(q.val, v)]
  entries : v.entries = [e]
  launch  : e.launch = some h
  stage   : e.stage = .placing
  active  : v.stat = 1
  runs    : ctxState s e.ctx = 1 ∨ ctxState s e.ctx = 2
  order   : s.lp.order = []
  up      : ∀ d : Fin 4, s.daleel.dies[d.val] = .up
  free    : ErrorFree s

theorem outOfReach_up {s : State} (up : ∀ d : Fin 4, s.daleel.dies[d.val] = .up) (c : BitVec 12) : outOfReach s c = false := by
  have none : (s.daleel.dies.toList.any fun d => decide (d = .inReset)) = false := by
    refine List.any_eq_false.mpr fun d hd => ?_
    obtain ⟨i, hi, rfl⟩ := List.getElem_of_mem hd
    have here : s.daleel.dies[i]'(by simpa using hi) = .up := up ⟨i, by simpa using hi⟩
    simp [here]
  unfold outOfReach
  rw [none, Bool.false_and]

/-- Where one element alone gives a result, that is the first. -/
theorem findSome?_only {α β : Type} {f : α → Option β} {a : α} {l : List α} (here : a ∈ l) (only : ∀ b, b ≠ a → f b = none) : l.findSome? f = f a := by
  induction l with
  | nil => cases here
  | cons b l ih =>
    by_cases same : b = a
    · subst same
      cases found : f b with
      | some x => rw [List.findSome?_cons_of_isSome (by rw [found]; rfl), found]
      | none =>
        refine List.findSome?_eq_none_iff.mpr fun c _ => ?_
        by_cases again : c = b
        · rw [again, found]
        · exact only c again
    · rw [List.findSome?_cons_of_isNone (by rw [only b same]; rfl)]
      exact ih (List.mem_of_ne_of_mem (Ne.symm same) here)

/-- Every queue of a priority is served in its turn. -/
theorem mem_serveOrder {s : State} {q : Nat} (hq : q < 64) : q ∈ serveOrder s (getQueue s q).prio := by
  have turn (t : Nat) : q ∈ (List.range 64).map fun i => (t + 1 + i) % 64 :=
    List.mem_map.mpr ⟨(q + 63 - t % 64) % 64, List.mem_range.mpr (Nat.mod_lt _ (by omega)), by omega⟩
  unfold serveOrder
  refine List.mem_filter.mpr ⟨?_, decide_eq_true rfl⟩
  split
  · exact List.mem_cons_of_mem _ (turn _)
  · exact turn _

/-- Descriptors without errors are read without effect. -/
theorem readDescs_errorFree {s : State} (free : ErrorFree s) (p : Nat) : readDescs s p = s :=
  List.foldl_fixed' (fun q => List.foldl_fixed' (fun eh => descCheck_errorFree free eh.1.ctx) (queueEntries s q)) (serveOrder s p)

section
variable {s : State} {q : Fin 64} {v : Queue} {e : QEntry} {h : Launch} (l : Lone s q v e h)
include l

theorem Lone.getQueue (p : Nat) : getQueue s p = if p = q.val then v else {} := by
  unfold Machine.getQueue
  rw [l.queues]
  exact if_congr eq_comm rfl rfl

theorem Lone.getQueue_self : Machine.getQueue s q.val = v := by rw [l.getQueue, if_pos rfl]

theorem Lone.queueEntries_self : queueEntries s q.val = [(e, h)] := by
  unfold queueEntries
  rw [l.getQueue_self]
  dsimp only
  rw [l.entries, List.filterMap_cons_some (b := (e, h)) (by
    rw [l.launch]
    exact if_pos ⟨l.stage, .inr l.active, l.runs, by rw [outOfReach_up l.up]; rfl⟩)]
  rfl

theorem Lone.queueEntries_other {p : Nat} (other : p ≠ q.val) : queueEntries s p = [] := by
  unfold queueEntries
  rw [l.getQueue, if_neg other]
  rfl

theorem Lone.savedContexts : savedContexts s = [] := by
  unfold Machine.savedContexts
  rw [l.order]
  rfl

theorem Lone.topPrio : topPrio s = some v.prio := by
  unfold Machine.topPrio
  rw [l.savedContexts, l.queues]
  simp [l.queueEntries_self, l.getQueue_self]

theorem Lone.firstFit : firstFit s v.prio = placeNext s q.val e h := by
  have order : q.val ∈ serveOrder s v.prio := by
    have own := mem_serveOrder (s := s) q.isLt
    rwa [l.getQueue_self] at own
  unfold Machine.firstFit
  rw [findSome?_only order fun p other => by rw [l.queueEntries_other other]; rfl, l.queueEntries_self]
  simp

/-- The launch processor's choice: the one entry's next item, with way made for what is left. -/
theorem Lone.on_placeItems {t : State} (placed : placeNext s q.val e h = some t) (way : makeWay t v.prio = t) : Act.on placeItems s = (.ok (), t) := by
  unfold placeItems
  rw [on_bind_ok (on_get s), l.topPrio]
  dsimp only
  rw [l.savedContexts, List.find?_nil]
  dsimp only
  rw [readDescs_errorFree l.free, l.firstFit, placed, Option.getD_some, way, ite_self]
  rfl

end

end Sys2Proof.Machine
end
section
/-! SUPPORT. The seat of an item on a machine without resident strands (R84, R85): strand 0. -/

namespace Sys2Proof.Machine

/-- No strand is resident, and core 0 has all its lanes; no group exists. -/
structure Vacant (s : State) : Prop where
  none   : ∀ n, (getStrand s n).resident = false
  lanes  : (getCore s 0).disable = 0
  up     : ∀ d : Fin 4, s.daleel.dies[d.val] = .up
  groups : s.lp.groups = []

section
variable {s : State} (empty : Vacant s)
include empty

/-- The dies are tried in their order. -/
theorem Vacant.dieOrder : dieOrder s = [0, 1, 2, 3] := by
  have none : strandsWhere s (fun t => t.resident) = [] := by
    refine List.eq_nil_iff_forall_not_mem.mpr fun n listed => ?_
    have passes := (mem_strandsWhere_iff rfl).mp listed
    rw [empty.none] at passes
    cases passes
  have all : freeOnDie s = fun _ => 1024 := by
    funext d
    unfold freeOnDie
    rw [none]
    rfl
  unfold Machine.dieOrder
  rw [all]
  decide

theorem Vacant.freeStrands : freeStrands s 0 = [0, 1, 2, 3] := List.filter_eq_self.mpr fun n _ => by rw [empty.none]; rfl

theorem Vacant.residentStrands : residentStrands s 0 = [] := List.filter_eq_nil_iff.mpr fun n _ => by rw [empty.none]; exact Bool.false_ne_true

theorem Vacant.hintsFit {w : Want} (units : w.item.vrfh ≤ 16) (words : w.item.acch ≤ 32) : hintsFit s 0 [w] = true := by
  have usable : coreUsable s 0 = true := by
    unfold coreUsable
    rw [empty.lanes, empty.up]
    decide
  have lanes : laneGroups (getCore s 0) = 4 := by
    unfold laneGroups laneMask
    rw [empty.lanes]
    decide
  unfold Machine.hintsFit
  rw [empty.residentStrands, empty.freeStrands, usable, lanes]
  simp [units, words]

/-- Core 0 takes it. -/
theorem Vacant.pickCore {w : Want} (units : w.item.vrfh ≤ 16) (words : w.item.acch ≤ 32) : pickCore s 0 [w] false = some 0 := by
  have first : dieCores 0 = 0 :: ((List.range 255).map Nat.succ).map (256 * (0 : Fin 4).val + ·) := by
    unfold dieCores
    rw [List.range_succ_eq_map]
    rfl
  unfold Machine.pickCore
  rw [if_neg Bool.false_ne_true]
  dsimp only
  rw [first]
  exact List.find?_cons_of_pos (p := fun c => Machine.hintsFit s c [w]) (empty.hintsFit units words)

/-- One want takes strand 0. -/
theorem Vacant.seatGroup {w : Want} (units : w.item.vrfh ≤ 16) (words : w.item.acch ≤ 32) :
    seatGroup s [[w]] false = some (setStrand s 0 w.strand, [(0, w)]) := by
  have seats : seatSets s 0 false [[w]] = some (setStrand s 0 w.strand, [(0, w)]) := by
    unfold seatSets
    rw [empty.pickCore units words]
    dsimp only
    rw [empty.freeStrands]
    rfl
  unfold Machine.seatGroup
  rw [empty.dieOrder, List.findSome?_cons_of_isSome (by rw [seats]; rfl), seats]

end

/-! ## An item of a launch without scopes -/

theorem coreSet_none (extents : List Nat) : coreSet (List.replicate 6 0) extents = 1 := rfl
theorem clusterSet_none (extents : List Nat) : clusterSet (List.replicate 6 0) extents = 1 := rfl

/-- The want of an entry's next item. -/
def nextWant (q : Nat) (e : QEntry) (h : Launch) : Want := { ctx := e.ctx, item := itemOf q e h e.next }

theorem fieldScope_none {t : Strand} (none : fieldScopes t.item.wfld = List.replicate 6 0) {k : Nat} (hk : k < 6) : fieldScope t k = 0 := by
  have field := congrArg (·[k]?) none
  simp only [fieldScopes, List.getElem?_map, List.getElem?_range hk, List.getElem?_replicate, if_pos hk, Option.map_some, Option.some.injEq] at field
  exact field

/-- A strand without scopes joins no group. -/
theorem joinGroups_none {s : State} {n : Nat} {w : Want} (none : fieldScopes (getStrand s n).item.wfld = List.replicate 6 0) : joinGroups s [(n, w)] = s := by
  have alone (l : List Nat) (hl : ∀ k ∈ l, k < 6) : l.foldl (fun s k => joinGroup s n k) s = s := by
    induction l with
    | nil => rfl
    | cons k l ih =>
      have own : joinGroup s n k = s := if_pos (.inl (fieldScope_none none (hl k List.mem_cons_self)))
      rw [List.foldl_cons, own]
      exact ih fun j hj => hl j (List.mem_cons_of_mem k hj)
  exact alone (List.range 6) fun k => List.mem_range.mp

section
variable {s : State} (empty : Vacant s) (wf : sparseWf {} s.others = true) {q : Nat} {e : QEntry} {h : Launch} (scopes : h.scopes = List.replicate 6 0)
    (fields : fieldScopes h.wfld = List.replicate 6 0) (units : h.vrfh ≤ 16) (words : h.acch ≤ 32)
include empty wf scopes fields units words

theorem Vacant.joinNext : joinNext s q e h = some (setStrand s 0 (nextWant q e h).strand, [(0, nextWant q e h)]) := by
  have seats : seatNext s q e h = some (setStrand s 0 (nextWant q e h).strand, [(0, nextWant q e h)]) := by
    unfold seatNext
    rw [scopes, clusterSet_none, coreSet_none]
    exact empty.seatGroup (w := nextWant q e h) units words
  have joined : joinGroups (setStrand s 0 (nextWant q e h).strand) [(0, nextWant q e h)] = setStrand s 0 (nextWant q e h).strand :=
    joinGroups_none (by rw [getStrand_setStrand wf, if_pos rfl]; exact fields)
  have fit : groupsFit (setStrand s 0 (nextWant q e h).strand) = true := by
    have rest := LeavesRest.setStrand s 0 (nextWant q e h).strand
    unfold groupsFit
    rw [show (setStrand s 0 (nextWant q e h).strand).lp = s.lp by rw [rest], empty.groups]
    rfl
  unfold Machine.joinNext
  rw [seats]
  dsimp only
  rw [joined, if_pos fit]

end

end Sys2Proof.Machine
end
section
/-! PLACE_ITEMS: one item is placed (R69, R85, R86), and the whole of O43. -/

namespace Sys2Proof.Machine

theorem exec_placeItems (s : State) : exec .placeItems s = wholeEvent placeItems s := rfl

theorem getCore_modCore_self {s : State} (wf : sparseWf {} s.cores = true) (c : Nat) (f : Core → Core) :
    getCore (modCore s c f) c = f (getCore s c) := by
  unfold modCore setCore
  exact (sget_sset _ _ _ _ _ wf).trans (if_pos rfl)

/-- A placement on strand 0 loads the slots of core 0, which is powered. -/
theorem loadSlots_one (s : State) (w : Want) (slots : Word) : ∃ f : Core → Core, (∀ k, (f k).gated = false) ∧ loadSlots s [(0, w)] slots = modCore s 0 f := by
  have core : ([(0, w)].map fun x : Nat × Want => coreOf x.1).eraseDups = [0] := by
    rw [List.map_singleton, List.eraseDups_cons, List.filter_nil, List.eraseDups_nil]
    exact congrArg (fun c => [c]) (Nat.zero_div 4)
  unfold loadSlots
  rw [core, List.foldl_cons, List.foldl_nil]
  exact ⟨_, fun _ => rfl, rfl⟩

/-! ## A context becomes resident -/

/-- From s to t context c has become RUNNING; strands, cores and queues are as before. -/
structure Resides (s t : State) (c : BitVec 12) : Prop where
  cur    : t.cur = s.cur
  st     : t.st = s.st
  others : t.others = s.others
  cores  : t.cores = s.cores
  queues : t.lp.queues = s.lp.queues
  cycle  : t.cycle = s.cycle
  state  : ctxState t c = 2
  resid  : t.lp.resid = s.lp.resid ∨ t.lp.resid = s.lp.resid.filter (· ≠ c) ++ [c]
  mem    : SameBut s t (descAddr s c) 8

theorem Resides.getStrand {s t : State} {c : BitVec 12} (h : Resides s t c) (n : Nat) : getStrand t n = getStrand s n := by
  unfold Machine.getStrand
  rw [h.cur, h.st, h.others]

theorem StateReach.becomeResident {s : State} {c : BitVec 12} (r : StateReach s c) : Resides s (becomeResident s c) c := by
  unfold Machine.becomeResident
  by_cases already : ctxState s c = 2
  · rw [if_pos already]
    exact ⟨rfl, rfl, rfl, rfl, rfl, rfl, already, .inl rfl, .of_mem rfl _ _⟩
  · rw [if_neg already]
    obtain ⟨only, but⟩ := r.setCtxState 2
    exact ⟨only.cur, only.st, only.others, only.cores, only.queues, only.cycle, ctxState_setCtxState s c (by decide),
      .inr (by rw [← only.resid]), but⟩

/-! ## The item's strand -/

/-- The strand of an entry's next item, as ITEM_START leaves it (R86). -/
def itemStrand (s : State) (q : Nat) (e : QEntry) (h : Launch) : Strand :=
  { resident := true, ctx := e.ctx, item := itemOf q e h e.next, pc := h.entry
    x := ((((Vector.replicate 32 (0 : Word)).set 10 e.arg1).set 11 (w64 e.next)).set 12 (w64 e.seq)).set 2
      (if h.stksize = 0 then 0 else h.stkbase + w64 ((e.next + 1) * h.stksize.toNat))
    csr := { vshare := if h.vshare = 0 then 1 else h.vshare }
    trap := { tvec := ctxTvec s e.ctx }
    dogFrom := s.cycle }

/-- The machine with the item on strand 0. -/
def withItem (s : State) (q : Nat) (e : QEntry) (h : Launch) : State := startItem (setStrand s 0 (nextWant q e h).strand) 0 e h

theorem withItem_leaves (s : State) (q : Nat) (e : QEntry) (h : Launch) : LeavesRest s (withItem s q e h) :=
  (LeavesRest.setStrand _ _ _).trans (.setStrand _ _ _)

theorem getStrand_withItem {s : State} (wf : sparseWf {} s.others = true) (q : Nat) (e : QEntry) (h : Launch) :
    getStrand (withItem s q e h) 0 = itemStrand s q e h := by
  have rest := LeavesRest.setStrand s 0 (nextWant q e h).strand
  have seat : getStrand (setStrand s 0 (nextWant q e h).strand) 0 = (nextWant q e h).strand := by rw [getStrand_setStrand wf, if_pos rfl]
  have tvec : ctxTvec (setStrand s 0 (nextWant q e h).strand) e.ctx = ctxTvec s e.ctx := by rw [rest]; rfl
  have cycle : (setStrand s 0 (nextWant q e h).strand).cycle = s.cycle := by rw [rest]
  unfold withItem startItem modStrand
  rw [getStrand_setStrand (setStrand_others_wf wf 0 _), if_pos rfl, seat, tvec, cycle]
  rfl

/-- The strand that ITEM_START leaves, in the statements' words. -/
theorem started_of_strand {s t : State} {q : Nat} {e : QEntry} {h : Launch} (strand : getStrand t 0 = itemStrand s q e h) : Claims.Started s t 0 q e h := by
  constructor
  all_goals rw [strand]
  · exact ⟨rfl, rfl, rfl, rfl⟩
  · rfl
  · exact ⟨rfl, rfl⟩
  · exact ⟨rfl, rfl, rfl, rfl, rfl, rfl⟩
  · exact ⟨rfl, rfl, rfl, rfl⟩

/-! ## The placement -/

/-- An entry with one item more placed, at cycle `now`. -/
def placedEntry (now : Word) (e : QEntry) (h : Launch) : QEntry :=
  { e with next := e.next + 1, live := e.live + 1, stage := if h.items ≤ e.next + 1 then .placed else .placing, began := if e.next = 0 then now else e.began }

/-- The machine once the entry's next item has its place. -/
def afterPlace (s : State) (q : Nat) (e : QEntry) (h : Launch) : State :=
  let r := loadSlots (becomeResident (withItem s q e h) e.ctx) [(0, nextWant q e h)] h.slots
  countTurn (setEntry r q e.id fun e => placedEntry r.cycle e h) q 1

section
variable {s : State} {q : Fin 64} {v : Queue} {e : QEntry} {h : Launch} (wf : Claims.Canonical s) (empty : Vacant s) (lone : Lone s q v e h)
    (reach : StateReach s e.ctx)
include wf

theorem placeNext_eq (empty : Vacant s) (scopes : h.scopes = List.replicate 6 0) (fields : fieldScopes h.wfld = List.replicate 6 0) (units : h.vrfh ≤ 16)
    (words : h.acch ≤ 32) : placeNext s q e h = some (afterPlace s q e h) := by
  unfold placeNext
  rw [scopes, clusterSet_none, empty.joinNext wf.others scopes fields units words]
  rfl

include lone reach

/-- What the placement of the item comes to. -/
theorem afterPlace_effect : getStrand (afterPlace s q e h) 0 = itemStrand s q e h ∧ ctxState (afterPlace s q e h) e.ctx = 2 ∧
    (getCore (afterPlace s q e h) 0).gated = false ∧ getQueue (afterPlace s q e h) q = { v with entries := [placedEntry s.cycle e h] } ∧
    ((afterPlace s q e h).lp.resid = s.lp.resid ∨ (afterPlace s q e h).lp.resid = s.lp.resid.filter (· ≠ e.ctx) ++ [e.ctx]) ∧
    SameBut s (afterPlace s q e h) (descAddr s e.ctx) 8 := by
  have rest := withItem_leaves s q e h
  have cores : (withItem s q e h).cores = s.cores := by rw [rest]
  have queues : (withItem s q e h).lp.queues = s.lp.queues := by rw [rest]
  have cycle : (withItem s q e h).cycle = s.cycle := by rw [rest]
  have lp : (withItem s q e h).lp = s.lp := by rw [rest]
  have mem : (withItem s q e h).mem = s.mem := by rw [rest]
  have desc : descAddr (withItem s q e h) e.ctx = descAddr s e.ctx := by unfold descAddr; rw [lp]
  have there := (rest.reach reach).becomeResident
  have strand := (there.getStrand 0).trans (getStrand_withItem wf.others q e h)
  generalize hr : becomeResident (withItem s q e h) e.ctx = r at there strand
  obtain ⟨f, powered, loaded⟩ := loadSlots_one r (nextWant q e h) h.slots
  have own : getQueue (modCore r 0 f) q = v := (getQueue_congr (there.queues.trans queues) _).trans lone.getQueue_self
  have entry : setEntry (modCore r 0 f) q e.id (fun e => placedEntry r.cycle e h) =
      setQueue (modCore r 0 f) q { v with entries := [placedEntry s.cycle e h] } := by
    rw [setEntry_only (by rw [own]; exact lone.entries), own, there.cycle, cycle]
  have after : afterPlace s q e h = countTurn (setQueue (modCore r 0 f) q { v with entries := [placedEntry s.cycle e h] }) q 1 := by
    unfold afterPlace
    rw [hr, loaded, ← entry]
    rfl
  rw [after]
  refine ⟨strand, there.state, ?_, ?_, ?_, ?_⟩
  · exact (congrArg Core.gated (getCore_modCore_self (by rw [there.cores, cores]; exact wf.cores) 0 f)).trans (powered _)
  · exact getQueue_setQueue_self (s := modCore r 0 f) (by rw [show (modCore r 0 f).lp.queues = s.lp.queues from there.queues.trans queues]; exact wf.queues) _ _
  · have resid := there.resid
    rw [lp] at resid
    exact resid
  · rw [← desc]
    exact (SameBut.of_mem mem _ _).trans there.mem

end

/-! ## No way is made -/

theorem le_foldl_max {l : List Nat} {a b : Nat} (h : a = b ∨ a ∈ l) : a ≤ l.foldl max b := by
  induction l generalizing a b with
  | nil => exact (h.resolve_right List.not_mem_nil).le
  | cons c l ih =>
    rw [List.foldl_cons]
    rcases h with rfl | listed
    · exact (Nat.le_max_left a c).trans (ih (.inl rfl))
    · rcases List.mem_cons.mp listed with rfl | later
      · exact (Nat.le_max_right b a).trans (ih (.inl rfl))
      · exact ih (.inr later)

/-- A context's PRIO is at least that of the queue of any of its strands. -/
theorem le_residentPrio {s : State} {c : BitVec 12} {n : Nat} (resident : (getStrand s n).resident = true) (ctx : (getStrand s n).ctx = c) :
    (getQueue s (getStrand s n).item.queue).prio ≤ residentPrio s c := by
  unfold residentPrio
  exact le_foldl_max (.inr (List.mem_map_of_mem (f := fun n => (getQueue s (getStrand s n).item.queue).prio)
    ((mem_strandsWhere_iff (by simp)).mpr (by rw [resident, ctx]; simp))))

/-- Where no resident context has a lower priority, no way is made. -/
theorem makeWay_none {s : State} {p : Nat} (high : ∀ c ∈ s.lp.resid, p ≤ residentPrio s c) : makeWay s p = s := by
  have below : s.lp.resid.filter (fun c => decide (ctxState s c = 2 ∧ residentPrio s c < p)) = [] :=
    List.filter_eq_nil_iff.mpr fun c hc => by
      rw [decide_eq_true_eq]
      exact fun low => Nat.not_lt.mpr (high c hc) low.2
  unfold makeWay
  split
  · rfl
  · dsimp only
    rw [below, List.foldl_nil, below]
    rfl

/-- PLACE_ITEMS (R69, R85, R86). -/
theorem placeItem : Claims.PlaceItem := by
  intro s P q v e h wf dev queues entries launch stage active scopes _ fields units lanes words _ order resid groups others absent runs
  have empty : Vacant s := by
    refine ⟨fun n => ?_, lanes, dev.up, groups⟩
    unfold getStrand
    split
    · exact absent
    · rw [others]; rfl
  have lone : Lone s q v e h := ⟨queues, entries, launch, stage, active, runs, order, dev.up, (Backed.of_device dev).free⟩
  obtain ⟨strand, state, powered, queue, residents, mem⟩ := afterPlace_effect wf lone (.of_device dev wf.mem)
  have way : makeWay (afterPlace s q e h) v.prio = afterPlace s q e h := by
    refine makeWay_none fun c listed => ?_
    rw [resid] at residents
    have only : c = e.ctx := by
      rcases residents with none | one
      · rw [none] at listed; cases listed
      · rw [one] at listed
        exact List.mem_singleton.mp listed
    have least := le_residentPrio (s := afterPlace s q e h) (n := 0) (c := c) (by rw [strand]; rfl) (by rw [strand, only]; rfl)
    rw [strand] at least
    exact (show v.prio = _ from (congrArg Queue.prio queue).symm) ▸ least
  refine ⟨_, (exec_placeItems s).trans (wholeEvent_ok (lone.on_placeItems (placeNext_eq wf empty scopes fields units words) way)),
    started_of_strand strand, state, powered, ?_, mem⟩
  rw [queue]
  rfl

/-- Settles O43: the placement of an item, its slice, its watchdog and its end. -/
theorem itemLives : Obligations.ItemLives := by
  unfold Obligations.ItemLives
  exact ⟨placeItem, timeSlice, watchdog, exitItem⟩

end Sys2Proof.Machine
end
section
/-! SUPPORT. Group objects and the memberships of the focused strand (R91 to R95): what a read returns after each change of them. -/

namespace Sys2Proof.Machine

/-! ## Objects -/

theorem getGroup_congr {s t : State} (h : t.lp.groups = s.lp.groups) (p : Nat) : getGroup t p = getGroup s p := by unfold getGroup; rw [h]

theorem getGroup_putGroup (s : State) (o : Nat) (g : GroupObj) (p : Nat) :
    getGroup (putGroup s o g) p = if p = o then (getGroup s o).map fun _ => g else getGroup s p := by
  have key (x : Nat × GroupObj) : (if x.1 = o then (o, g) else x).1 = x.1 := by
    split
    · next e => exact e.symm
    · rfl
  unfold getGroup putGroup
  simp only [List.find?_map, Function.comp_def, key, Option.map_map]
  by_cases h : p = o
  · subst h
    rw [if_pos rfl]
    refine Option.map_congr fun x hx => ?_
    have : x.1 = p := by simpa using List.find?_some hx
    simp [this]
  · rw [if_neg h]
    refine Option.map_congr fun x hx => ?_
    have : x.1 = p := by simpa using List.find?_some hx
    simp [this, h]

theorem getGroup_retireGroup (s : State) (o p : Nat) : getGroup (retireGroup s o) p = if p = o then none else getGroup s p := by
  unfold getGroup retireGroup
  dsimp only
  rw [List.find?_filter]
  split
  · next h =>
    subst h
    rw [Option.map_eq_none_iff, List.find?_eq_none]
    simp
  · next h =>
    congr 2
    funext x
    by_cases hx : x.1 = p <;> simp [hx, h]

/-! ## Strands wake -/

/-- The machine with other strands beside the focused one. -/
def withOthers (s : State) (x : Sparse Strand) : State := { s with others := x }

/-- A change of strands that the focused one does not take part in is one of the others. -/
theorem modStrandsWhere_others {s : State} {p : Strand → Bool} (h : p s.st = false) (f : Strand → Strand) :
    ∃ x, modStrandsWhere s p f = withOthers s x := by
  have fold (l : List Nat) (other : ∀ n ∈ l, n ≠ s.cur.val) (x : Sparse Strand) :
      ∃ y, l.foldl (fun s n => modStrand s n f) (withOthers s x) = withOthers s y := by
    induction l generalizing x with
    | nil => exact ⟨x, rfl⟩
    | cons n l ih =>
      obtain ⟨y, step⟩ : ∃ y, modStrand (withOthers s x) n f = withOthers s y := ⟨_, if_neg (other n List.mem_cons_self)⟩
      rw [List.foldl_cons, step]
      exact ih (fun m hm => other m (List.mem_cons_of_mem n hm)) y
  refine fold _ (fun n hn e => ?_) s.others
  have passes := (mem_strandsWhere.mp hn).2
  rw [e, getStrand_cur, h] at passes
  cases passes

theorem wakeGroup_others {s : State} (h : s.st.park = 0) (o : Nat) : ∃ x, wakeGroup s o = withOthers s x :=
  modStrandsWhere_others (by simp [h]) _

/-! ## A generation passes (R94) -/

/-- An object after the home's check: a full generation has passed. -/
def GroupObj.checked (g : GroupObj) : GroupObj := if g.target ≠ 0 ∧ g.target ≤ g.arrived then { g with gen := g.gen + 1, arrived := 0 } else g

theorem closeGroup_eq {s : State} (h : s.st.park = 0) (o : Nat) (g : GroupObj) : ∃ x, closeGroup s o g = withOthers (putGroup s o g.checked) x := by
  unfold closeGroup GroupObj.checked
  split
  · exact wakeGroup_others (s := putGroup s o { g with gen := g.gen + 1, arrived := 0 }) h o
  · exact ⟨s.others, rfl⟩

/-! ## Memberships -/

/-- The focused strand's membership at a level, whether or not it has left. -/
def memberAt (s : State) (k : Nat) : Option Member := s.st.item.groups.find? fun m => m.level = k

/-- Its membership at a level that it has not left. -/
def openAt (s : State) (k : Nat) : Option Member := s.st.item.groups.find? fun m => m.level = k ∧ m.left = none

theorem openAt_level {s : State} {k : Nat} {m : Member} (h : openAt s k = some m) : m.level = k := by
  have := List.find?_some h
  simp only [decide_eq_true_eq] at this
  exact this.1

theorem memberAt_isSome_of_openAt {s : State} {k : Nat} {m : Member} (h : openAt s k = some m) : (memberAt s k).isSome = true := by
  rw [memberAt, List.find?_isSome]
  exact ⟨m, List.mem_of_find?_eq_some h, decide_eq_true (openAt_level h)⟩

/-- The levels of a strand's memberships stay when one is changed. -/
theorem level_setMember (m x : Member) : (if x.level = m.level then m else x).level = x.level := by
  split
  · next e => exact e.symm
  · rfl

theorem memberAt_setMember (s : State) (m : Member) (k : Nat) :
    memberAt (setMember s m) k = if k = m.level then (memberAt s k).map fun _ => m else memberAt s k := by
  unfold memberAt setMember
  simp only [List.find?_map, Function.comp_def, level_setMember]
  split
  · next h =>
    refine Option.map_congr fun x hx => ?_
    have : x.level = k := by simpa using List.find?_some hx
    rw [if_pos (this.trans h)]
  · next h =>
    refine (Option.map_congr fun x hx => ?_).trans Option.map_id'
    have : x.level = k := by simpa using List.find?_some hx
    rw [if_neg (this ▸ h)]

/-- A membership that has been left is open no more, and the others are as before. -/
theorem openAt_setMember (s : State) {m : Member} (left : m.left ≠ none) (k : Nat) :
    openAt (setMember s m) k = if k = m.level then none else openAt s k := by
  have gone (x : Member) : ((if x.level = m.level then m else x).level = k ∧ (if x.level = m.level then m else x).left = none) ↔
      (k ≠ m.level ∧ x.level = k ∧ x.left = none) := by
    rw [level_setMember]
    split
    · next e => exact ⟨fun h => absurd h.2 left, fun h => absurd (h.2.1.symm.trans e) h.1⟩
    · next e => exact ⟨fun h => ⟨fun hk => e (h.1.trans hk), h⟩, fun h => h.2⟩
  unfold openAt setMember
  simp only [List.find?_map, Function.comp_def, gone]
  split
  · next h =>
    simp [h]
  · next h =>
    simp only [ne_eq, h, not_false_eq_true, true_and]
    refine (Option.map_congr fun x hx => ?_).trans Option.map_id'
    have found := List.find?_some hx
    simp only [decide_eq_true_eq] at found
    rw [if_neg (found.1 ▸ h)]

theorem mem_memberships {s : State} {m : Member} {g : GroupObj} :
    (m, g) ∈ memberships s ↔ m.level < 6 ∧ openAt s m.level = some m ∧ getGroup s m.obj = some g := by
  unfold memberships
  simp only [List.mem_filterMap, List.mem_range]
  constructor
  · rintro ⟨k, hk, at_⟩
    split at at_
    · cases at_
    · next n found =>
      obtain ⟨h, obj, pair⟩ := Option.map_eq_some_iff.mp at_
      obtain ⟨rfl, rfl⟩ := Prod.mk.inj pair
      obtain rfl := openAt_level found
      exact ⟨hk, found, obj⟩
  · rintro ⟨hk, found, obj⟩
    refine ⟨m.level, hk, ?_⟩
    unfold openAt at found
    rw [found]
    exact Option.map_eq_some_iff.mpr ⟨g, obj, rfl⟩

/-! ## Releases -/

/-- A release waits just for what the statements say is still out (R217). -/
theorem releaseWaits_iff {s : State} {c : Scope} : releaseWaits c s = true ↔ Claims.StillOut s c := by
  have signals : remoteOut s isPeerSignal = true ↔ Claims.SignalsOut s := by
    rw [remoteOut_iff]
    exact ⟨fun ⟨m, out, op⟩ => (isPeerSignal_iff.mp op).elim fun n op => ⟨m, n, out, op⟩, fun ⟨m, n, out, op⟩ => ⟨m, out, isPeerSignal_iff.mpr ⟨n, op⟩⟩⟩
  have writes : (remoteOut s isPeerWrite || hostWritesOut s) = true ↔ Claims.WritesOut s := by
    rw [Bool.or_eq_true, remoteOut_iff, hostWritesOut, List.contains_iff_mem]
    exact or_congr_left
      ⟨fun ⟨m, out, op⟩ => (isPeerWrite_iff.mp op).elim fun b op => ⟨m, b, out, op⟩, fun ⟨m, b, out, op⟩ => ⟨m, out, isPeerWrite_iff.mpr ⟨b, op⟩⟩⟩
  rw [releaseWaits, Bool.or_eq_true, signals, Bool.and_eq_true, decide_eq_true_eq, writes]
  rfl

theorem on_release {s : State} {c : Scope} (h : Claims.ReleasedAt s c) : Act.on (release c) s = (.ok (), s) := by
  obtain ⟨viq, out⟩ := h
  unfold release
  rw [on_bind_ok (on_drained_nil viq), on_bind_ok (on_get s), if_neg fun waits => out (releaseWaits_iff.mp waits)]
  rfl

theorem on_groupGuard {s : State} {g : GroupObj} (up : s.daleel.dies[(groupDie g).val] ≠ .inReset) : Act.on (groupGuard g) s = (.ok (), s) := by
  unfold groupGuard
  rw [on_bind_ok (on_get s), if_neg up]
  rfl

end Sys2Proof.Machine
end
section
/-! BARR and BWAIT in the group form, and GREAD (R93, R94, R97). -/

namespace Sys2Proof.Machine

theorem exec_barrG (d : XReg) (k : Fin 6) (mk : MReg) (s : State) : exec (.barrG d k mk) s = execBarrG d k mk s := rfl
theorem exec_bwaitG (k : Fin 6) (s : State) : exec (.bwaitG k) s = execBwaitG k s := rfl
theorem exec_gread (d : XReg) (k : Fin 6) (sel : Fin 5) (s : State) : exec (.gread d k sel) s = execGread d k sel s := rfl

/-! ## Arrivals and waits -/

section
variable {s : State} {d : XReg} {k : Fin 6} {mk : MReg} {m : Member} {g : GroupObj} (here : openAt s k.val = some m) (obj : getGroup s m.obj = some g)
    (up : s.daleel.dies[(groupDie g).val] ≠ .inReset)
include here obj up

theorem on_groupAt (i : Instr) : Act.on (groupAt i k) s = (.ok (m, g), s) := by
  unfold openAt at here
  unfold groupAt
  rw [on_bind_ok (on_get s), here]
  dsimp only
  rw [obj]
  exact on_bind_ok (on_groupGuard up)

/-- An item that has not arrived in the generation does (R93). -/
theorem exec_barrG_arrives (fresh : m.seen ≠ some g.gen) (released : Claims.ReleasedAt s (groupScope g)) :
    exec (.barrG d k mk) s = .next (((groupArrive s m g).writeX d (g.gen.zeroExtend 64)).retire 4) := by
  rw [exec_barrG]
  unfold execBarrG
  refine scalar_ok ?_
  rw [on_bind_ok (on_groupAt here obj up _)]
  dsimp only
  rw [if_neg fresh]
  exact on_bind_ok (on_release released)

theorem exec_barrG_parks (arrived : m.seen = some g.gen) : exec (.barrG d k mk) s = .next (parkOn s 0xC (.group m.obj)) := by
  rw [exec_barrG]
  unfold execBarrG
  refine scalar_park ?_ (strandGone_self s)
  rw [on_bind_ok (on_groupAt here obj up _)]
  dsimp only
  rw [if_pos arrived]
  rfl

theorem exec_bwaitG_goes (passed : m.seen ≠ some g.gen) : exec (.bwaitG k) s = .next ((if g.scope = 1 then s else emptyL1 s (curCore s)).retire 4) := by
  have scope : groupScope g ≠ .cr ↔ g.scope ≠ 1 := by
    unfold groupScope
    split <;> simp_all
  rw [exec_bwaitG]
  unfold execBwaitG
  refine scalar_ok ?_
  rw [on_bind_ok (on_groupAt here obj up _)]
  dsimp only
  rw [if_neg passed]
  by_cases core : g.scope = 1
  · rw [if_pos core, acquire, if_neg fun wide => scope.mp wide core]
    rfl
  · rw [if_neg core]
    exact on_acquire (scope.mpr core) s

theorem exec_bwaitG_parks (waits : m.seen = some g.gen) : exec (.bwaitG k) s = .next (parkOn s 1 (.group m.obj)) := by
  rw [exec_bwaitG]
  unfold execBwaitG
  refine scalar_park ?_ (strandGone_self s)
  rw [on_bind_ok (on_groupAt here obj up _)]
  dsimp only
  rw [if_pos waits]
  rfl

end

/-- What an arrival leaves (R93, R94): beside strands that wake, the object and the membership. -/
theorem groupArrive_eq {s : State} {m : Member} {g : GroupObj} (park : s.st.park = 0) :
    ∃ x, groupArrive s m g =
      withOthers (setMember (putGroup s m.obj (GroupObj.checked { g with arrived := g.arrived + 1 })) { m with seen := some g.gen }) x := by
  obtain ⟨x, closed⟩ := closeGroup_eq park m.obj { g with arrived := g.arrived + 1 }
  exact ⟨x, by rw [groupArrive, closed]; rfl⟩

theorem arrivalsAndWaits : Claims.GroupForms := by
  intro s d k mk m g here obj up park
  refine ⟨fun fresh released => ⟨_, exec_barrG_arrives here obj up fresh released, ?_⟩, exec_barrG_parks here obj up,
    exec_bwaitG_goes here obj up, exec_bwaitG_parks here obj up⟩
  obtain ⟨x, arrive⟩ := groupArrive_eq (m := m) (g := g) park
  rw [arrive]
  refine ⟨writeX_mem _ _ _, retire_writeX_st (by rfl) (by rfl) _ _ _, ?_⟩
  refine (getGroup_congr (congrArg LaunchProc.groups (writeX_lp _ _ _)) _).trans ?_
  refine (getGroup_putGroup s m.obj _ m.obj).trans ?_
  rw [if_pos rfl, obj]
  rfl

/-! ## GREAD -/

/-- The object of the group that the focused strand is in at a level. -/
def objectAt (s : State) (k : Nat) : Option GroupObj := (memberAt s k).bind fun m => if m.left = none then getGroup s m.obj else none

/-- SIZE, GEN and ARRIVED, by their selector, without an object (Table 6.1). -/
def absentField (s : State) (k n : Nat) : Nat :=
  if fieldScope s.st k = 4 ∨ n = 2 then 0
  else
    match (memberAt s k).bind (·.left) with
    | some (target, gen) => if n = 0 then target.toNat else gen.toNat
    | none => if n = 0 then 1 else 0

/-- What GREAD answers (Table 6.1). -/
def groupField (s : State) (k n : Nat) : Nat :=
  match n with
  | 3 => s.st.item.index % groupSize s.st.item.extents k
  | 4 => (objectAt s k).isSome.toNat + fieldScope s.st k * 2
  | n =>
    match objectAt s k with
    | some g => if n = 0 then g.target.toNat else if n = 1 then g.gen.toNat else g.arrived.toNat
    | none => absentField s k n

/-- The answer, written. -/
def answerField (s : State) (d : XReg) (k n : Nat) : Act Unit := apply fun u => u.writeX d (w64 (groupField s k n))

theorem exec_gread_eq {s : State} {d : XReg} {k : Fin 6} {sel : Fin 5}
    (up : ∀ g, objectAt s k.val = some g → sel.val < 3 → s.daleel.dies[(groupDie g).val] ≠ .inReset) :
    exec (.gread d k sel) s = .next ((s.writeX d (w64 (groupField s k.val sel.val))).retire 4) := by
  rw [exec_gread]
  unfold execGread
  refine scalar_ok ?_
  show Act.on (match objectAt s k.val with
    | some g => if sel.val < 3 then groupGuard g >>= fun _ => answerField s d k.val sel.val else answerField s d k.val sel.val
    | none => answerField s d k.val sel.val) s = _
  split
  next g found =>
    split
    next field => exact on_bind_ok (on_groupGuard (up g found field))
    next => rfl
  next => rfl

theorem groupField_present {s : State} {k : Nat} {g : GroupObj} (here : objectAt s k = some g) :
    groupField s k 0 = g.target.toNat ∧ groupField s k 1 = g.gen.toNat ∧ groupField s k 2 = g.arrived.toNat := by
  simp [groupField, here]

theorem groupField_absent {s : State} {k : Nat} (gone : objectAt s k = none) :
    groupField s k 0 = absentField s k 0 ∧ groupField s k 1 = absentField s k 1 ∧ groupField s k 2 = 0 := by
  simp [groupField, gone, absentField]

theorem absentField_free {s : State} {k : Nat} (free : fieldScope s.st k = 4) (n : Nat) : absentField s k n = 0 := if_pos (.inl free)

/-- Of a group that the item has left: what it saw then. -/
theorem absentField_left {s : State} {k : Nat} {target gen : BitVec 32} (scope : fieldScope s.st k ≠ 4)
    (left : (memberAt s k).bind (·.left) = some (target, gen)) : absentField s k 0 = target.toNat ∧ absentField s k 1 = gen.toNat := by
  simp [absentField, scope, left]

/-- Of a group of one. -/
theorem absentField_alone {s : State} {k : Nat} (scope : fieldScope s.st k ≠ 4) (left : (memberAt s k).bind (·.left) = none) :
    absentField s k 0 = 1 ∧ absentField s k 1 = 0 := by
  simp [absentField, scope, left]

theorem groupRead : Claims.GroupRead := by
  intro s d k sel mem obj scope up
  refine ⟨groupField s k.val sel.val, exec_gread_eq up, ?_, ?_, fun g here => ?_,
    fun gone => ⟨?_, fun free low => ?_, fun held tg gn left => ?_, fun held left => ?_⟩⟩
  · rintro rfl
    rfl
  · rintro rfl
    show (objectAt s k.val).isSome.toNat + scope * 2 = (if objectAt s k.val = none then 0 else 1) + 2 * scope
    cases objectAt s k.val <;> simp [Nat.mul_comm]
  · obtain ⟨size, gen, arrived⟩ := groupField_present here
    exact ⟨by rintro rfl; exact size, by rintro rfl; exact gen, by rintro rfl; exact arrived⟩
  all_goals obtain ⟨size, gen, arrived⟩ := groupField_absent gone
  · rintro rfl
    exact arrived
  · have fields : sel = 0 ∨ sel = 1 := by omega
    rcases fields with rfl | rfl
    · exact size.trans (absentField_free free 0)
    · exact gen.trans (absentField_free free 1)
  · obtain ⟨target, last⟩ := absentField_left held left
    exact ⟨by rintro rfl; exact size.trans target, by rintro rfl; exact gen.trans last⟩
  · obtain ⟨one, zero⟩ := absentField_alone held left
    exact ⟨by rintro rfl; exact size.trans one, by rintro rfl; exact gen.trans zero⟩

end Sys2Proof.Machine
end
section
/-! EXIT.G (R95, R353), and the whole of O18. -/

namespace Sys2Proof.Machine

theorem exec_exitG (s : State) : exec .exitG s = execExitG s := rfl

/-! ## The object after a leave -/

/-- The object g after a leave by the item of membership m (R95). -/
def Member.leaves (m : Member) (g : GroupObj) : GroupObj := Claims.leftGroup g (m.seen = some g.gen)

theorem leave_eq_leaves (m : Member) (g : GroupObj) : g.leave (decide (m.seen = some g.gen)) = m.leaves g := by
  have last : g.target - 1 ≠ 0 ↔ g.target ≠ 1 := by bv_omega
  unfold GroupObj.leave Member.leaves Claims.leftGroup
  by_cases arrived : m.seen = some g.gen
  · simp only [arrived, decide_true, if_true, last]
  · simp only [arrived, decide_false, if_false, Bool.false_eq_true, last]

/-- The last member's leave leaves no members. -/
theorem leaves_target_eq_zero (m : Member) (g : GroupObj) : (m.leaves g).target = 0 ↔ g.target = 1 := by
  have less : (m.leaves g).target = g.target - 1 := by
    unfold Member.leaves Claims.leftGroup
    dsimp only
    generalize (if m.seen = some g.gen then g.arrived - 1 else g.arrived) = n
    split <;> rfl
  rw [less]
  bv_omega

/-! ## One group is left -/

/-- The home's part of a leave (R95): its object is g, or is gone without members. -/
def homeLeave (s : State) (o : Nat) (g : GroupObj) : State := if g.target = 0 then retireGroup s o else putGroup s o g

@[simp] theorem homeLeave_st (s : State) (o : Nat) (g : GroupObj) : (homeLeave s o g).st = s.st := by unfold homeLeave; split <;> rfl

theorem getGroup_homeLeave {s : State} {o : Nat} {g h : GroupObj} (obj : getGroup s o = some g) (p : Nat) :
    getGroup (homeLeave s o h) p = if p = o then (if h.target = 0 then none else some h) else getGroup s p := by
  unfold homeLeave
  split
  · exact getGroup_retireGroup s o p
  · rw [getGroup_putGroup, obj]
    rfl

/-- The item's part: it keeps what it saw. -/
def Member.gone (m : Member) (g : GroupObj) : Member := { m with left := some ((m.leaves g).target, (m.leaves g).gen) }

section
variable {s : State} (park : s.st.park = 0)
include park

/-- What a leave does beside strands that wake: the home's part, and the item's. -/
theorem leaveGroup_eq (m : Member) (g : GroupObj) :
    ∃ x, leaveGroup s m g = withOthers (setMember (homeLeave s m.obj (m.leaves g)) (m.gone g)) x := by
  unfold leaveGroup Member.gone
  dsimp only
  rw [leave_eq_leaves]
  split
  · obtain ⟨x, woken⟩ := wakeGroup_others (s := homeLeave s m.obj (m.leaves g)) ((homeLeave_st s _ _).symm ▸ park) m.obj
    exact ⟨x, congrArg (setMember · (m.gone g)) woken⟩
  · exact ⟨_, rfl⟩

theorem getGroup_leaveGroup {m : Member} {g : GroupObj} (obj : getGroup s m.obj = some g) (p : Nat) :
    getGroup (leaveGroup s m g) p = if p = m.obj then (if g.target = 1 then none else some (m.leaves g)) else getGroup s p := by
  obtain ⟨x, left⟩ := leaveGroup_eq park m g
  rw [left]
  refine (getGroup_homeLeave obj p).trans ?_
  simp only [leaves_target_eq_zero]

theorem memberAt_leaveGroup (m : Member) (g : GroupObj) (k : Nat) :
    memberAt (leaveGroup s m g) k = if k = m.level then (memberAt s k).map fun _ => m.gone g else memberAt s k := by
  obtain ⟨x, left⟩ := leaveGroup_eq park m g
  have same : memberAt (homeLeave s m.obj (m.leaves g)) k = memberAt s k := by rw [memberAt, homeLeave_st]; rfl
  rw [left, ← same]
  exact memberAt_setMember _ (m.gone g) k

theorem openAt_leaveGroup (m : Member) (g : GroupObj) (k : Nat) : openAt (leaveGroup s m g) k = if k = m.level then none else openAt s k := by
  obtain ⟨x, left⟩ := leaveGroup_eq park m g
  have same : openAt (homeLeave s m.obj (m.leaves g)) k = openAt s k := by rw [openAt, homeLeave_st]; rfl
  rw [left, ← same]
  exact openAt_setMember (m := m.gone g) _ (Option.some_ne_none _) k

end

/-! ## Every group is left -/

/-- From s to t only group objects, the focused strand's memberships and other strands differ. -/
def OnlyGroups (s t : State) : Prop :=
  t = { s with
    st := { s.st with item := { s.st.item with groups := t.st.item.groups } }
    others := t.others
    lp := { s.lp with groups := t.lp.groups } }

theorem OnlyGroups.trans {s t u : State} (h : OnlyGroups s t) (k : OnlyGroups t u) : OnlyGroups s u := by
  unfold OnlyGroups at *
  rw [k, h]

section
variable {s t : State} (h : OnlyGroups s t)
include h
theorem OnlyGroups.mem : t.mem = s.mem := by unfold OnlyGroups at h; rw [h]
theorem OnlyGroups.park : t.st.park = s.st.park := by unfold OnlyGroups at h; rw [h]
theorem OnlyGroups.pc : t.st.pc = s.st.pc := by unfold OnlyGroups at h; rw [h]
theorem OnlyGroups.x : t.st.x = s.st.x := by unfold OnlyGroups at h; rw [h]
theorem OnlyGroups.v : t.st.v = s.st.v := by unfold OnlyGroups at h; rw [h]
theorem OnlyGroups.m : t.st.m = s.st.m := by unfold OnlyGroups at h; rw [h]
end

/-- One step of EXIT.G: the item leaves the object of a membership, if that is still there. -/
def leaveOne (s : State) (m : Member × GroupObj) : State :=
  match getGroup s m.1.obj with
  | some g => leaveGroup s m.1 g
  | none => s

theorem leaveOne_some {s : State} {m : Member × GroupObj} {g : GroupObj} (obj : getGroup s m.1.obj = some g) : leaveOne s m = leaveGroup s m.1 g := by
  unfold leaveOne
  rw [obj]

theorem leaveOne_none {s : State} {m : Member × GroupObj} (obj : getGroup s m.1.obj = none) : leaveOne s m = s := by
  unfold leaveOne
  rw [obj]

/-- From s to t no membership is opened and no object comes up, while the focused strand runs. -/
structure Shrinks (s t : State) : Prop where
  only  : OnlyGroups s t
  park  : t.st.park = 0
  opens : ∀ k m, openAt t k = some m → openAt s k = some m
  gone  : ∀ o, getGroup s o = none → getGroup t o = none

theorem Shrinks.refl {s : State} (park : s.st.park = 0) : Shrinks s s := ⟨rfl, park, fun _ _ h => h, fun _ h => h⟩

theorem Shrinks.trans {s t u : State} (h : Shrinks s t) (k : Shrinks t u) : Shrinks s u :=
  ⟨h.only.trans k.only, k.park, fun l m found => h.opens l m (k.opens l m found), fun o none => k.gone o (h.gone o none)⟩

theorem leaveGroup_shrinks {s : State} (park : s.st.park = 0) {m : Member} {g : GroupObj} (obj : getGroup s m.obj = some g) :
    Shrinks s (leaveGroup s m g) := by
  have only : OnlyGroups s (leaveGroup s m g) := by
    obtain ⟨x, left⟩ := leaveGroup_eq park m g
    rw [left, homeLeave]
    split <;> rfl
  refine ⟨only, only.park.trans park, fun k n found => ?_, fun o none => ?_⟩
  · rw [openAt_leaveGroup park] at found
    split at found
    · cases found
    · exact found
  · rw [getGroup_leaveGroup park obj, if_neg]
    · exact none
    · rintro rfl
      exact Option.some_ne_none g (obj.symm.trans none)

theorem leaveOne_shrinks {s : State} (park : s.st.park = 0) (m : Member × GroupObj) : Shrinks s (leaveOne s m) := by
  cases obj : getGroup s m.1.obj with
  | none => exact (leaveOne_none obj).symm ▸ .refl park
  | some g => exact (leaveOne_some obj).symm ▸ leaveGroup_shrinks park obj

/-- A membership that has been worked on is open no more, or its object is gone. -/
theorem leaveOne_closes {s : State} (park : s.st.park = 0) (m : Member × GroupObj) :
    openAt (leaveOne s m) m.1.level = none ∨ getGroup (leaveOne s m) m.1.obj = none := by
  cases obj : getGroup s m.1.obj with
  | none => exact .inr ((leaveOne_none obj).symm ▸ obj)
  | some g => exact .inl (by rw [leaveOne_some obj, openAt_leaveGroup park, if_pos rfl])

/-- Other objects, and memberships at other levels, are as before. -/
theorem leaveOne_apart {s : State} (park : s.st.park = 0) {m : Member × GroupObj} {o k : Nat} (other : m.1.obj ≠ o) (level : m.1.level ≠ k) :
    getGroup (leaveOne s m) o = getGroup s o ∧ memberAt (leaveOne s m) k = memberAt s k := by
  cases obj : getGroup s m.1.obj with
  | none => rw [leaveOne_none obj]; exact ⟨rfl, rfl⟩
  | some g =>
    rw [leaveOne_some obj, getGroup_leaveGroup park obj, memberAt_leaveGroup park]
    exact ⟨if_neg other.symm, if_neg level.symm⟩

theorem foldl_leaveOne_shrinks {s : State} (park : s.st.park = 0) (l : List (Member × GroupObj)) : Shrinks s (l.foldl leaveOne s) := by
  induction l generalizing s with
  | nil => exact .refl park
  | cons m l ih =>
    have first := leaveOne_shrinks park m
    exact first.trans (ih first.park)

theorem foldl_leaveOne_closes {s : State} (park : s.st.park = 0) {l : List (Member × GroupObj)} {m : Member × GroupObj} (hm : m ∈ l) :
    openAt (l.foldl leaveOne s) m.1.level = none ∨ getGroup (l.foldl leaveOne s) m.1.obj = none := by
  refine foldl_reaches (I := fun s => s.st.park = 0) (P := fun s => openAt s m.1.level = none ∨ getGroup s m.1.obj = none) hm park
    (fun s x h => (leaveOne_shrinks h x).park) (fun s h => leaveOne_closes h m) fun s x h closed => ?_
  have shrink := leaveOne_shrinks h x
  refine closed.imp (fun none => ?_) (shrink.gone _)
  exact Option.eq_none_iff_forall_ne_some.mpr fun n found => Option.some_ne_none n ((shrink.opens _ n found).symm.trans none)

theorem foldl_leaveOne_apart {s : State} (park : s.st.park = 0) {o k : Nat} {l : List (Member × GroupObj)}
    (other : ∀ x ∈ l, x.1.obj ≠ o ∧ x.1.level ≠ k) :
    getGroup (l.foldl leaveOne s) o = getGroup s o ∧ memberAt (l.foldl leaveOne s) k = memberAt s k := by
  induction l generalizing s with
  | nil => exact ⟨rfl, rfl⟩
  | cons m l ih =>
    obtain ⟨obj, level⟩ := other m List.mem_cons_self
    obtain ⟨group, member⟩ := leaveOne_apart park obj level
    obtain ⟨group', member'⟩ := ih (leaveOne_shrinks park m).park fun x hx => other x (List.mem_cons_of_mem m hx)
    exact ⟨group'.trans group, member'.trans member⟩

/-- A membership whose object and level are its own: the object after the leave, and what the item keeps (R95, R97). -/
theorem foldl_leaveOne_left {s : State} (park : s.st.park = 0) {l : List (Member × GroupObj)} {m : Member} {g : GroupObj} (hm : (m, g) ∈ l)
    (once : (l.map (·.1.obj)).Nodup) (levels : ∀ x ∈ l, x.1.level = m.level → x.1.obj = m.obj) (obj : getGroup s m.obj = some g)
    (member : (memberAt s m.level).isSome = true) :
    getGroup (l.foldl leaveOne s) m.obj = (if g.target = 1 then none else some (m.leaves g)) ∧
      memberAt (l.foldl leaveOne s) m.level = some (m.gone g) := by
  induction l generalizing s with
  | nil => cases hm
  | cons x l ih =>
    obtain ⟨fresh, once'⟩ := List.nodup_cons.mp once
    have park' := (leaveOne_shrinks park x).park
    have level {y : Member × GroupObj} (hy : y ∈ x :: l) (other : y.1.obj ≠ m.obj) : y.1.level ≠ m.level := fun same => other (levels y hy same)
    rcases List.mem_cons.mp hm with rfl | later
    · have rest : ∀ y ∈ l, y.1.obj ≠ m.obj := fun y hy same => fresh (List.mem_map.mpr ⟨y, hy, same⟩)
      obtain ⟨group, kept⟩ := foldl_leaveOne_apart park' fun y hy => ⟨rest y hy, level (List.mem_cons_of_mem _ hy) (rest y hy)⟩
      obtain ⟨old, found⟩ := Option.isSome_iff_exists.mp member
      rw [List.foldl_cons, group, kept, leaveOne_some obj, getGroup_leaveGroup park obj, memberAt_leaveGroup park, found, if_pos rfl, if_pos rfl]
      exact ⟨rfl, rfl⟩
    · have other : x.1.obj ≠ m.obj := fun same => fresh (List.mem_map.mpr ⟨(m, g), later, same.symm⟩)
      obtain ⟨group, kept⟩ := leaveOne_apart park other (level List.mem_cons_self other)
      exact ih park' later once' (fun y hy => levels y (List.mem_cons_of_mem x hy)) (group.trans obj) (kept.symm ▸ member)

/-! ## EXIT.G -/

/-- The machine once the focused strand has left every group that it was in. -/
def leaveAll (s : State) : State := (memberships s).foldl leaveOne s

theorem memberships_leaveAll {s : State} (park : s.st.park = 0) : memberships (leaveAll s) = [] := by
  refine List.eq_nil_iff_forall_not_mem.mpr fun ⟨m, g⟩ listed => ?_
  obtain ⟨level, found, obj⟩ := mem_memberships.mp listed
  have shrink := foldl_leaveOne_shrinks park (memberships s)
  cases before : getGroup s m.obj with
  | none => exact Option.some_ne_none g (obj.symm.trans (shrink.gone _ before))
  | some g' =>
    have was : (m, g') ∈ memberships s := mem_memberships.mpr ⟨level, shrink.opens _ m found, before⟩
    rcases foldl_leaveOne_closes park was with closed | gone
    · exact Option.some_ne_none m (found.symm.trans closed)
    · exact Option.some_ne_none g (obj.symm.trans gone)

theorem leaveAll_left {s : State} (park : s.st.park = 0) (once : ((memberships s).map (·.1.obj)).Nodup) {m : Member} {g : GroupObj}
    (listed : (m, g) ∈ memberships s) :
    getGroup (leaveAll s) m.obj = (if g.target = 1 then none else some (m.leaves g)) ∧ memberAt (leaveAll s) m.level = some (m.gone g) := by
  obtain ⟨-, found, obj⟩ := mem_memberships.mp listed
  refine foldl_leaveOne_left park listed once (fun x hx same => ?_) obj (memberAt_isSome_of_openAt found)
  obtain ⟨-, found', -⟩ := mem_memberships.mp hx
  rw [same, found] at found'
  rw [← Option.some.inj found']

theorem on_leaveGroups {s : State} (released : Claims.ReleasedAt s (widest (memberships s))) (up : ∀ d : Fin 4, s.daleel.dies[d.val] ≠ .inReset) :
    Act.on leaveGroups s = (.ok (), leaveAll s) := by
  have guards (l : List (Member × GroupObj)) :
      Act.on (forIn l PUnit.unit fun m _ => do groupGuard m.2; pure (ForInStep.yield PUnit.unit)) s = (.ok PUnit.unit, s) := by
    induction l with
    | nil => rfl
    | cons m l ih => exact (on_forIn_cons (on_bind_ok (on_groupGuard (up _)))).trans ih
  unfold leaveGroups
  rw [on_bind_ok (on_get s)]
  dsimp only
  by_cases none : memberships s = []
  · rw [if_neg (not_not.mpr none), leaveAll, none]
    rfl
  · rw [if_pos none]
    refine (on_bind_ok (guards _)).trans ?_
    rw [on_bind_ok (on_release released)]
    rfl

theorem exitGroups : Claims.ExitGroups := by
  intro s released park up
  have only := (foldl_leaveOne_shrinks park (memberships s)).only
  refine ⟨(leaveAll s).retire 4, scalar_ok (on_leaveGroups released up), memberships_leaveAll park, fun once _ m g listed => ?_,
    only.mem, congrArg (· + 4) only.pc, only.x, only.v, only.m⟩
  obtain ⟨group, member⟩ := leaveAll_left park once listed
  exact ⟨group, congrArg (·.bind (·.left)) member⟩

/-- Settles O18: arrivals and waits (`arrivalsAndWaits`), GREAD (`groupRead`) and EXIT.G (`exitGroups`). -/
theorem groupForms : Obligations.GroupForms := by
  unfold Obligations.GroupForms
  exact ⟨arrivalsAndWaits, groupRead, exitGroups⟩

end Sys2Proof.Machine
end
section
/-! O17 is refuted: a vat may list an entry, in error, under the name that the next entry is to take. -/

namespace Sys2Proof.Machine

/-! ## The machine -/

/-- An object of TARGET 2 at key 2^26: the first bytes of the page. -/
def barrierBytes : List Byte := natToBytes 16 (2 ^ 96 + 2)

/-- No line is cached. The vat lists a poisoned entry of the name 0, which no tag has, and 0 is also the name of the next entry. -/
def namesakeLines : Lines := { vat := [(0, { die := 0, slice := 0, domain := 0, poison := true })], nextVat := 0 }

/-- Strand 0 runs in context 1, whose page its core's TLB holds. -/
def namesakeMachine : State :=
  { State.reset with
    daleel := { State.reset.daleel with dies := Vector.replicate 4 .up, stage := 4 }
    st := { resident := true, ctx := 1 }
    cores := [(0, { tlb := [framePage] })]
    mem := memWrite [] (2 ^ 26) barrierBytes
    lines := namesakeLines }

theorem reachable_namesakeMachine : Claims.Reachable namesakeMachine .both 0 16 framePage := by constructor <;> decide

theorem canonical_namesakeMachine : Claims.Canonical namesakeMachine := by constructor <;> decide

theorem releasedAt_namesakeMachine (c : Scope) : Claims.ReleasedAt namesakeMachine c :=
  ⟨rfl, by rw [← releaseWaits_iff]; cases c <;> decide⟩

theorem barValid_namesakeMachine : Claims.barValid (Claims.number namesakeMachine (2 ^ 26) 16) := by
  constructor <;> decide +kernel

/-- The lookup gives the line an entry of the name 0, so that the object reads as poisoned: BTEST traps and retires nothing. -/
theorem exec_btest_namesakeMachine : ∃ u, exec (.btest .cl 5 0 0) namesakeMachine = .next u ∧ u.st.csr.retired = 0 :=
  ⟨_, rfl, by decide +kernel⟩

/-- Refutes O17, by its part on BTEST: in `namesakeMachine`, which meets its hypotheses, no error stands at the object, but the lookup of its
line takes a vat entry of the same name as one in error, and BTEST traps with cause 0x06. (No run of the model from reset has been shown to
reach such a vat: the statement does not ask that the names in the vat lie below the next one. Its parts on other vats are not refuted.) -/
theorem not_barrierForms : ¬ Obligations.BarrierForms := by
  unfold Obligations.BarrierForms
  intro holds
  obtain ⟨-, valid⟩ := holds namesakeMachine .cl 5 0 0 1 framePage reachable_namesakeMachine (by decide) (by decide) (by decide) (by decide)
    (releasedAt_namesakeMachine .cl) rfl canonical_namesakeMachine fun t listed => by cases listed
  obtain ⟨-, ⟨t, step, -, strand⟩, -⟩ := valid barValid_namesakeMachine
  obtain ⟨u, step', traps⟩ := exec_btest_namesakeMachine
  obtain rfl : u = t := Host.Outcome.next.inj (step'.symm.trans step)
  have retires : u.st.csr.retired = 1 := by
    rw [strand]
    rfl
  exact absurd (traps.symm.trans retires) (by decide)

end Sys2Proof.Machine
end

section
/-! The statements on the diagonals and the tiles are refuted. In privileged mode a DZERO or DMAC that finds no free slot is a double trap
(R57), which ends its context; and every entry that leaves the VIQ clears the count of element groups that a head has passed (R73), which
the statements on whole machines take to stay. -/

namespace Sys2Proof.Machine

/-! ## The machine -/

/-- Strand 0 runs in context 1 on an order of 4 with one slot, which is bound to offset 0; its vector registers hold f32 elements, and
x1 is the offset word of A offset 1 and B offset 0. Its mode and the element groups that a head has passed are given. -/
def oneSlotMachine (priv : Bool) (passed : Nat) : State :=
  { State.reset with
    daleel := { State.reset.daleel with dies := Vector.replicate 4 .up, stage := 4 }
    lp := { active := [(1, 2)] }
    st := { resident := true, ctx := 1, priv := priv, passed := passed
            csr := { vcfg := w64 (4 * 2 ^ 16 + 32 * 2 ^ 4 + 3 * 2 ^ 2), vl := 1, vlmax := 512, dcfg := w64 (2 ^ 32 + 4) }
            x := (Vector.replicate 32 0).set 1 1
            v := Vector.replicate 32 { tag := 11 }
            accum := { dir := [(0, 0)] } } }

theorem ready_oneSlotMachine (priv : Bool) (passed : Nat) {i : Instr} (single : chainBit i = false) :
    Claims.Ready (oneSlotMachine priv passed) i where
  viq := rfl
  park := rfl
  pace := rfl
  idle := rfl
  chain := single
  short := by show (1 : Word).toNat ≤ 16384; decide
  none_ := rfl
  sound := rfl
  clean := rfl

/-- The engine is offered to strands 1 to 3 of the core before strand 0. -/
theorem engineOrder_oneSlotMachine (priv : Bool) (passed : Nat) :
    engineOrder (getCore (oneSlotMachine priv passed) (coreOf (oneSlotMachine priv passed).cur.val)) = [1, 2, 3, 0] := by
  show engineOrder {} = _
  decide

theorem engine_oneSlotMachine (priv : Bool) (passed : Nat) {i : Instr} (single : chainBit i = false) :
    Claims.Engine (oneSlotMachine priv passed) i where
  ready := ready_oneSlotMachine priv passed single
  granted := by rw [engineGranted, engineOrder_oneSlotMachine]; rfl
  alone := by rw [engineShared, engineOrder_oneSlotMachine]; rfl
  lanes := by show 0 < laneGroups {}; decide
  legal := by show (w64 (2 ^ 32 + 4)).getLsbD 63 = false; decide
  still := rfl
  sound := ⟨rfl, rfl⟩
  tables := ⟨rfl, rfl⟩

/-! ## No free slot, in privileged mode -/

/-- Offset 1, the target of x1, has no slot. -/
theorem unbound_oneSlotMachine : Claims.Unbound (oneSlotMachine true 0) 1 := by unfold Claims.Unbound; decide

/-- No slot is free. -/
theorem noFree_oneSlotMachine : ∀ j, j < Claims.slots (oneSlotMachine true 0) → dirEntry (oneSlotMachine true 0) j ≠ freeSlot := by decide

theorem macOk_oneSlotMachine :
    Claims.MacOk (oneSlotMachine true 0) 2 3 ((oneSlotMachine true 0).readX 1) 1 0 (.flt fmtF32) (.flt fmtF32) := by constructor <;> decide

/-- The DZERO is a double trap: its context goes to DEAD, and its strand is as at reset. -/
theorem exec_dzero_privileged : ∃ u, exec (.dzero 1) (oneSlotMachine true 0) = .next u ∧ ctxState u 1 = 6 ∧ u.st = {} :=
  ⟨_, rfl, by decide +kernel⟩

/-- So is the DMAC. -/
theorem exec_dmac_privileged : ∃ u, exec (.dmac 2 3 1) (oneSlotMachine true 0) = .next u ∧ ctxState u 1 = 6 ∧ u.st = {} :=
  ⟨_, rfl, by decide +kernel⟩

/-- A step that leaves the strand as at reset leaves no cause. -/
theorem cause_of_exec_gone {i : Instr} {s t : State} (gone : ∃ u, exec i s = .next u ∧ ctxState u 1 = 6 ∧ u.st = {})
    (step : exec i s = .next t) : t.st.trap.tcause.toNat % 256 = 0 := by
  obtain ⟨u, step', -, reset⟩ := gone
  obtain rfl : u = t := Host.Outcome.next.inj (step'.symm.trans step)
  rw [reset]
  decide

/-- Refutes O34, by its part on DZERO without a free slot: in `oneSlotMachine true 0`, which meets its hypotheses, the strand is privileged,
and the DZERO in its VIQ makes the trap a double trap (R57): its context goes to DEAD, and no strand holds cause 0x07. (The statement does
not ask for user mode. Its part on DZERO with a slot is not refuted; its equations on DCFG and DDIR miss what that of O37 misses.) -/
theorem not_diagonalDirectory : ¬ Obligations.DiagonalDirectory := by
  unfold Obligations.DiagonalDirectory
  rintro ⟨-, zero⟩
  obtain ⟨-, full⟩ := zero (oneSlotMachine true 0) 1 0 (engine_oneSlotMachine true 0 rfl) (by decide) (by decide)
  obtain ⟨t, step, cause, -⟩ := full unbound_oneSlotMachine noFree_oneSlotMachine
  exact absurd (cause.symm.trans (cause_of_exec_gone exec_dzero_privileged step)) (by decide)

/-- Refutes O35, by its part on DMAC without a free slot: in `oneSlotMachine true 0`, which meets its hypotheses, the strand is privileged,
and the trap is a double trap (R57): its context goes to DEAD, and no strand holds cause 0x07. (The statement does not ask for user mode.
Its other parts are not refuted.) -/
theorem not_diagonalProducts : ¬ Obligations.DiagonalProducts := by
  unfold Obligations.DiagonalProducts
  rintro ⟨-, fill⟩
  obtain ⟨-, full, -⟩ := fill (oneSlotMachine true 0) 2 3 1 _ _ 0 macOk_oneSlotMachine (by decide) unbound_oneSlotMachine
  obtain ⟨t, step, cause, -⟩ := full (engine_oneSlotMachine true 0 rfl) noFree_oneSlotMachine
  exact absurd (cause.symm.trans (cause_of_exec_gone exec_dmac_privileged step)) (by decide)

/-! ## Element groups that a head has passed -/

/-- The DPIV completes, and the count goes with it. -/
theorem exec_dpiv_passed : ∃ u, exec (.dpiv false 3 2) (oneSlotMachine false 1) = .next u ∧ u.st.passed = 0 := ⟨_, rfl, by decide +kernel⟩

/-- So does the TSTAT. -/
theorem exec_tstat_passed : ∃ u, exec (.tstat 5) (oneSlotMachine false 1) = .next u ∧ u.st.passed = 0 := ⟨_, rfl, by decide +kernel⟩

/-- Refutes O36, by its part on DPIV: in `oneSlotMachine false 1`, which meets its hypotheses, a head has passed one element group, and
the DPIV that leaves the VIQ clears that count, which the statement's machine keeps. (No run of the model from reset has been shown to
leave the count with an empty VIQ: the statement does not ask that it be 0. The equations on DXTR and DMV are wrong in the same way; the
part on DUPD is not refuted.) -/
theorem not_diagonalRows : ¬ Obligations.DiagonalRows := by
  unfold Obligations.DiagonalRows
  rintro ⟨vectors, -⟩
  obtain ⟨-, -, pivots⟩ := vectors (oneSlotMachine false 1) true false 3 2 2 1
  have step := pivots fmtF32 (engine_oneSlotMachine false 1 rfl) (by decide) (by decide) rfl (by decide)
  obtain ⟨u, step', cleared⟩ := exec_dpiv_passed
  obtain rfl := Host.Outcome.next.inj (step'.symm.trans step)
  exact absurd cleared (by decide +kernel)

/-- Refutes O37, by its part on TSTAT: in `oneSlotMachine false 1`, which meets its hypotheses, a head has passed one element group, and
the TSTAT that leaves the VIQ clears that count, which the statement's machine keeps. (No run of the model from reset has been shown to
leave the count with an empty VIQ: the statement does not ask that it be 0. The equation on TCOLMV is wrong in the same way; the other
parts are not refuted.) -/
theorem not_tileForms : ¬ Obligations.TileForms := by
  unfold Obligations.TileForms
  rintro ⟨tiles, -⟩
  obtain ⟨-, -, -, -, states⟩ := tiles (oneSlotMachine false 1) 0 false 2 3 5 (.flt fmtF32) (.flt fmtF32)
  have step := states (ready_oneSlotMachine false 1 rfl) rfl rfl
  obtain ⟨u, step', cleared⟩ := exec_tstat_passed
  obtain rfl := Host.Outcome.next.inj (step'.symm.trans step)
  exact absurd cleared (by decide +kernel)

end Sys2Proof.Machine
end
section
/-! O33 is refuted: the VSQLD that leaves the VIQ clears the count of element groups that a head has passed (R73), which the statement's
machine keeps. -/

namespace Sys2Proof.Machine

/-! ## The machine -/

/-- The 64 MiB page of context 1 that holds its vine table at 0x1000_0000. -/
def vinePage : TlbEntry :=
  { ctx := 1, vpage := 0x10000000, large := true, base := 0x4000000, r := true, w := true, p := false, dedup := false, comp := false, tier := 0,
    moving := false }

/-- Context 1's descriptor names a vine table of two entries; entry 0 is a pool of tokens of 16 B, entry 1 an OPEN vine that is empty. -/
def vineTableBytes : List Host.Cell :=
  [(0x93, 0x10), (0x98, 2),
    (0x4000002, 0x80), (0x4000003, 0x10), (0x4000009, 0x20), (0x400000B, 0x10), (0x4000018, 16), (0x4000020, 0x21),
    (0x400004C, 0xFF), (0x400004D, 0xFF), (0x400004E, 0xFF), (0x400004F, 0xFF), (0x4000052, 1), (0x4000053, 0x10), (0x4000060, 0x11)]

/-- Strand 0 runs in context 1; its vector registers hold the 32-bit integer 1, and x1 holds 1; a head has passed one element group. -/
def passedVineMachine : State :=
  { State.reset with
    daleel := { State.reset.daleel with dies := Vector.replicate 4 .up, stage := 4 }
    mem := vineTableBytes
    cores := [(0, { tlb := [vinePage] })]
    lines := { tlb := [(0, vinePage)] }
    st := { resident := true, ctx := 1, passed := 1
            csr := { vcfg := w64 (4 * 2 ^ 16 + 32 * 2 ^ 4 + 3 * 2 ^ 2), vl := 1, vlmax := 512 }
            x := (Vector.replicate 32 0).set 1 1
            v := Vector.replicate 32 { tag := 7, data := [(0, 1)], ext := 4 } } }

theorem ready_passedVineMachine : Claims.Ready passedVineMachine (.vsqld false 0 1 1 0) := by constructor <;> decide

theorem space_passedVineMachine : Claims.VineSpace passedVineMachine vinePage := by constructor <;> decide +kernel

theorem canonical_passedVineMachine : Claims.Canonical passedVineMachine := by constructor <;> decide +kernel

theorem openVine_passedVineMachine : Claims.OpenVine passedVineMachine vinePage 1 16 where
  vine := ⟨by unfold Claims.Inside; decide +kernel, by decide +kernel, by decide +kernel, by decide +kernel⟩
  open_ := by decide +kernel
  pool := ⟨by unfold Claims.Inside; decide +kernel, by decide +kernel, by decide +kernel, by decide +kernel, by decide +kernel, by decide +kernel⟩
  window := by unfold Claims.Inside; decide +kernel

theorem apart_passedVineMachine :
    Claims.Apart [Claims.descRange passedVineMachine 1, Claims.mapRange passedVineMachine vinePage 1] := by unfold Claims.Apart; decide +kernel

/-- The element groups that a head has passed after a step that ends in a machine. -/
def passedAfter (i : Instr) (s : State) : Option Nat :=
  match exec i s with
  | .next u => some u.st.passed
  | _ => none

theorem exec_of_passedAfter {i : Instr} {s : State} {n : Nat} (h : passedAfter i s = some n) : ∃ u, exec i s = .next u ∧ u.st.passed = n := by
  unfold passedAfter at h
  split at h
  · next u step => exact ⟨u, step, Option.some.inj h⟩
  · cases h

/-- The VSQLD of token 0, which is not committed, completes, and the count goes with it. -/
theorem exec_vsqld_passed : ∃ u, exec (.vsqld false 0 1 1 0) passedVineMachine = .next u ∧ u.st.passed = 0 :=
  exec_of_passedAfter (by decide +kernel)

/-- Refutes O33, by its part on VSQLD of a token that is not committed: in `passedVineMachine`, which meets its hypotheses, a head has
passed one element group, and the VSQLD that leaves the VIQ clears that count, which the statement's machine keeps. (No run of the model
from reset has been shown to leave the count with an empty VIQ: the statement does not ask that it be 0. Its other equations on the strand
are wrong in the same way; what it says of tokens, slots and memory is not refuted.) -/
theorem not_vectorVines : ¬ Obligations.VectorVines := by
  unfold Obligations.VectorVines
  intro all
  obtain ⟨-, -, -, loads⟩ := all passedVineMachine vinePage (.vsqld false 0 1 1 0) 0 1 2 2 1 0 .dv 16 0 1 0 0 (.int 32 false) (.int 32 false)
    (.int 32 false) 0 ready_passedVineMachine space_passedVineMachine canonical_passedVineMachine openVine_passedVineMachine (by decide)
    (by decide) (by decide) (by decide) (by decide) (by decide) (by decide) (by decide) (by decide +kernel) apart_passedVineMachine
  obtain ⟨uncommitted, -⟩ := loads (.inl ⟨rfl, by decide +kernel⟩)
  obtain ⟨t, step, -, strand⟩ := uncommitted (by decide +kernel)
  obtain ⟨u, step', cleared⟩ := exec_vsqld_passed
  obtain rfl := Host.Outcome.next.inj (step'.symm.trans step)
  rw [strand] at cleared
  exact absurd cleared (by decide +kernel)

end Sys2Proof.Machine
end
section
/-! SUPPORT. Lines that a run of many accesses touches, given beforehand: each of them takes a tag and a vat entry at most once, however
often it is looked up, so that the tags and entries a slice has left are counted by lines and by writes (R202 to R204). -/

namespace Sys2Proof.Machine

/-! ## Lines with a tag -/

/-- The line has a tag at its home. -/
def Cached (s : State) (l : Nat) : Prop := ∃ u ∈ s.lines.tags, u.line = l

theorem findTag_eq_none {s : State} {l : Nat} : findTag s l = none ↔ ¬ Cached s l := by
  simp [findTag, Cached]

/-- From s to t no line has lost its tag, and line a has one. -/
structure Tagged (s t : State) (a : Nat) : Prop where
  keeps : ∀ l, Cached s l → Cached t l
  here  : Cached t a

theorem Tagged.of_tags {s t u : State} {a : Nat} (h : Tagged s t a) (e : u.lines.tags = t.lines.tags) : Tagged s u a where
  keeps l c := by unfold Cached; rw [e]; exact h.keeps l c
  here := by unfold Cached; rw [e]; exact h.here

/-- Beside what has been looked up before, as it is. -/
theorem Tagged.from {s s' t : State} {a : Nat} (h : Tagged s' t a) (e : s'.lines.tags = s.lines.tags) : Tagged s t a where
  keeps l c := h.keeps l (by unfold Cached; rwa [e])
  here := h.here

theorem Tagged.trans {s t u : State} {a b : Nat} (h : Tagged s t a) (k : Tagged t u b) : Tagged s u a where
  keeps l c := k.keeps l (h.keeps l c)
  here := k.keeps a h.here

theorem Tagged.refl {s : State} {a : Nat} (h : Cached s a) : Tagged s s a := ⟨fun _ => id, h⟩

theorem putTag_tagged (s : State) (t : L2Tag) : Tagged s (putTag s t) t.line := by
  unfold putTag
  dsimp only
  split
  · next found =>
    obtain ⟨v, hv, line⟩ := List.any_eq_true.mp found
    have mapped (u : L2Tag) (hu : u ∈ s.lines.tags) : (if u.line = t.line then t else u).line = u.line := by
      split
      · next e => exact e.symm
      · rfl
    have kept (u : L2Tag) (hu : u ∈ s.lines.tags) :
        ∃ w ∈ s.lines.tags.map fun u => if u.line = t.line then t else u, w.line = u.line := ⟨_, List.mem_map_of_mem hu, mapped u hu⟩
    refine ⟨fun l ⟨u, hu, e⟩ => ?_, ?_⟩
    · obtain ⟨w, hw, same⟩ := kept u hu
      exact ⟨w, hw, same.trans e⟩
    · obtain ⟨w, hw, same⟩ := kept v hv
      exact ⟨w, hw, same.trans (of_decide_eq_true line)⟩
  · exact ⟨fun l ⟨u, hu, e⟩ => ⟨u, List.mem_append_left _ hu, e⟩, ⟨t, List.mem_append_right _ (List.mem_singleton.mpr rfl), rfl⟩⟩

theorem entriesOf_lt {s : State} (room : s.lines.vat.length < Config.vatEntries) (a : Nat) : entriesOf s a < Config.vatEntries :=
  (List.length_filter_le _ _).trans_lt room

theorem newEntry_tagged {s : State} (room : s.lines.vat.length < Config.vatEntries) (t : L2Tag) (poison : Bool) :
    Tagged s (newEntry s t poison) t.line := by
  unfold newEntry
  rw [if_pos (entriesOf_lt room _)]
  exact ((putTag_tagged { s with lines := { s.lines with vat := _, nextVat := _ } } { t with entry := some _ }).from rfl).of_tags rfl

theorem keepPrivate_tagged {s : State} (room : s.lines.vat.length < Config.vatEntries) (t : L2Tag) : Tagged s (keepPrivate s t) t.line := by
  unfold keepPrivate
  split
  · exact putTag_tagged s t
  · exact newEntry_tagged room t false

theorem keepIndexed_tagged {s : State} (room : s.lines.vat.length < Config.vatEntries) (t : L2Tag) (e : Option Nat) :
    Tagged s (keepIndexed s t e) t.line := by
  have kept := keepPrivate_tagged room t
  unfold keepIndexed
  cases e with
  | none => dsimp only; split <;> exact kept.of_tags rfl
  | some e =>
    dsimp only
    split
    · split <;> exact kept.of_tags rfl
    · exact kept

theorem tryShare_tagged {s : State} (room : s.lines.vat.length < Config.vatEntries) (t : L2Tag) (data : List Byte) :
    Tagged s (tryShare s t data) t.line := by
  unfold tryShare
  dsimp only
  split
  · exact keepPrivate_tagged room t
  split
  · exact (putTag_tagged s { t with entry := none }).of_tags rfl
  split
  · exact keepPrivate_tagged room t
  split
  · split
    · split
      · exact putTag_tagged s t
      · exact (putTag_tagged s { t with entry := some _ }).of_tags rfl
    · exact keepIndexed_tagged room t _
  · exact keepIndexed_tagged room t _

/-! ## Lookups and writes -/

theorem makeRoom_ready {s : State} (room : s.lines.vat.length < Config.vatEntries) (a : Nat) : makeRoom s a = s :=
  evictUntil_ready (by simp [entryReady, entriesOf_lt room]) a _ []

theorem tagReady_of_room {s : State} (room : s.lines.tags.length < Config.l2Tags) (a : Nat) : tagReady s a = true :=
  decide_eq_true ((List.length_filter_le _ _).trans_lt room)

theorem makeTag_ready {s : State} (room : s.lines.tags.length < Config.l2Tags) (a : Nat) : makeTag s a = s :=
  evictUntil_ready (tagReady_of_room room a) a _ []

/-- A vat entry and a tag are left. -/
def Vacancy (s : State) : Prop := s.lines.vat.length < Config.vatEntries ∧ s.lines.tags.length < Config.l2Tags

theorem homeFill_cached {s : State} {a : Nat} (h : Cached s a) (dedup : Bool) (dom : BitVec 8) :
    homeFill s a dedup dom = countL2 s (homeDie s a) 0 1 := by
  unfold homeFill
  dsimp only
  split
  · rfl
  · next none => exact absurd h (findTag_eq_none.mp none)

theorem homeFill_tagged {s : State} {a : Nat} (low : a < Config.compBase) (room : ¬ Cached s a → Vacancy s) (dedup : Bool) (dom : BitVec 8) :
    Tagged s (homeFill s a dedup dom) a := by
  by_cases h : Cached s a
  · rw [homeFill_cached h]
    exact (Tagged.refl h).of_tags rfl
  · obtain ⟨vat, tags⟩ := room h
    unfold homeFill
    dsimp only
    rw [show findTag (countL2 s (homeDie s a) 0 1) a = none from findTag_eq_none.mpr h]
    dsimp only
    rw [freshBlock_low low]
    generalize asked : countL2 (countL2 s (homeDie s a) 0 1) (homeDie s a) 1 1 = u
    have same : u.lines.tags = s.lines.tags ∧ u.lines.vat = s.lines.vat := by subst asked; exact ⟨rfl, rfl⟩
    rw [← same.1] at tags
    rw [← same.2] at vat
    rw [makeTag_ready tags, if_pos (tagReady_of_room tags _), makeRoom_ready vat]
    exact (tryShare_tagged vat _ _).from same.1

theorem homeRead_cached {s : State} {a : Nat} (h : Cached s a) (d : Fin 4) (dedup : Bool) (dom : BitVec 8) :
    Looked s (homeRead s a d dedup dom) 0 := by
  have filled := countL2_looked s (homeDie s a) 0 1
  unfold homeRead
  rw [homeFill_cached h]
  dsimp only
  split
  · exact filled
  split
  · exact countL2_looked s d 2 1
  split
  · next t found =>
    have shared := putTag_found_looked (t := { t with sharers := t.sharers ||| BitVec.ofNat 4 (2 ^ d.val) }) (findTag_any found rfl)
      fun log => log t (findTag_spec found).1
    exact (filled.trans shared).trans (keepRdc_looked _ d a)
  · exact filled

/-- A read fills its line, unless the die's RDC serves it. -/
theorem homeRead_keeps {s : State} {a : Nat} (low : a < Config.compBase) (room : ¬ Cached s a → Vacancy s) (d : Fin 4) (dedup : Bool) (dom : BitVec 8) :
    Tagged s (homeRead s a d dedup dom) a ∨ (homeRead s a d dedup dom).lines.tags = s.lines.tags ∧ Looked s (homeRead s a d dedup dom) 0 := by
  have filled := homeFill_tagged low room dedup dom
  unfold homeRead
  dsimp only
  split
  · exact .inl filled
  split
  · exact .inr ⟨rfl, countL2_looked s d 2 1⟩
  split
  · next t found =>
    exact .inl (filled.trans (((putTag_tagged _ { t with sharers := t.sharers ||| BitVec.ofNat 4 (2 ^ d.val) }).of_tags rfl)))
  · exact .inl filled

theorem prepareWrite_tagged {s : State} {a : Nat} (h : Cached s a) (room : s.lines.vat.length < Config.vatEntries) : Tagged s (prepareWrite s a) a := by
  unfold prepareWrite
  rw [makeRoom_ready room]
  dsimp only
  generalize invalid : ({ s with lines := { s.lines with rdc := _ } } : State) = u
  have same : u.lines.tags = s.lines.tags ∧ u.lines.vat = s.lines.vat := by subst invalid; exact ⟨rfl, rfl⟩
  rw [← same.2] at room
  split
  · exact (Tagged.refl h).of_tags same.1
  · next t found =>
    obtain rfl : t.line = a := (findTag_spec found).2
    have taken (poison : Bool) := (newEntry_tagged room { t with dirty := some (t.dirty.getD (lineData u t.line)), sharers := 0 } poison).from same.1
    split
    · split
      · exact (taken _).of_tags rfl
      · exact ((putTag_tagged u { t with dirty := some (t.dirty.getD (lineData u t.line)), sharers := 0 }).from same.1).of_tags rfl
    · exact (taken false).of_tags rfl

theorem clearEntryPoison_tags (s : State) (a : Nat) : (clearEntryPoison s a).lines.tags = s.lines.tags := by unfold clearEntryPoison; split <;> rfl

theorem writeLine_tagged {s : State} {l : Nat} (h : Cached s l) (room : s.lines.vat.length < Config.vatEntries) (ps : List (Nat × List Byte)) :
    Tagged s (writeLine s l ps) l := by
  refine (prepareWrite_tagged h room).of_tags ?_
  unfold writeLine
  dsimp only
  rw [wakeLine_lines]
  split
  · exact (clearEntryPoison_tags _ _).trans (congrArg Lines.tags (clearPoison_lines _ _ _))
  · rfl

/-- A line that has a tag is written. -/
theorem homeWrite_cached {s : State} {a : Nat} (h : Cached s (lineOf a)) (low : a < Config.compBase) (fits : Fits s 1)
    (room : s.lines.vat.length < Config.vatEntries) (bs : List Byte) (dedup : Bool) (dom : BitVec 8) :
    Wrote s (homeWrite s a bs dedup dom) a bs 1 ∧ Tagged s (homeWrite s a bs dedup dom) (lineOf a) := by
  have below : lineOf a < Config.compBase := (Nat.div_mul_le_self a 128).trans_lt low
  have place : lineOf a + a % 128 = a := Nat.div_add_mod' a 128
  have filled := countL2_looked s (homeDie s (lineOf a)) 0 1
  have present : ¬ ((findTag s (lineOf a)).isNone = true ∧ coversLine [(a % 128, bs)] = true) := by
    rw [Option.isNone_iff_eq_none, findTag_eq_none]
    exact fun e => e.1 h
  unfold homeWrite homePatch
  rw [if_neg present, homeFill_cached h]
  refine ⟨?_, (writeLine_tagged (s := countL2 s _ 0 1) h room _).from rfl⟩
  have wrote := filled.writeLine (filled.fits fits) below (a % 128) bs
  rwa [place] at wrote

/-- A line that is written has a tag then. -/
theorem homeWrite_tagged {s : State} {a : Nat} (low : a < Config.compBase) (vat : s.lines.vat.length + 2 ≤ Config.vatEntries)
    (tags : s.lines.tags.length < Config.l2Tags) (bs : List Byte) (dedup : Bool) (dom : BitVec 8) :
    Tagged s (homeWrite s a bs dedup dom) (lineOf a) := by
  have below : lineOf a < Config.compBase := (Nat.div_mul_le_self a 128).trans_lt low
  have fits : Fits s 1 := .inr ⟨by omega, by omega⟩
  unfold homeWrite homePatch
  split
  · rw [freshBlock_low below]
    dsimp only
    generalize asked : countL2 (countL2 s _ 0 1) _ 1 1 = u
    have same : u.lines.tags = s.lines.tags ∧ u.lines.vat = s.lines.vat := by subst asked; exact ⟨rfl, rfl⟩
    rw [← same.1] at tags
    rw [makeTag_ready tags, if_pos (tagReady_of_room tags _), makeRoom_ready (by rw [same.2]; omega)]
    have looked := newEntry_looked u (t := { line := lineOf a, entry := none, dedup := dedup, domain := dom }) (poison := false)
      (fun _ => .inl below) fun _ => rfl
    have tagged := newEntry_tagged (s := u) (by rw [same.2]; omega) { line := lineOf a, entry := none, dedup := dedup, domain := dom } false
    have used := looked.room
    exact (tagged.trans (writeLine_tagged tagged.here (by rw [same.2] at used; omega) _)).from same.1
  · have tagged := homeFill_tagged below (fun _ => ⟨by omega, tags⟩) dedup dom
    have used := (homeFill_looked fits below dedup dom).room
    exact tagged.trans (writeLine_tagged tagged.here (by omega) _)

/-! ## The lines that are left -/

/-- The lines of U without a tag. -/
def untagged (U : Finset Nat) (s : State) : Finset Nat := U.filter fun l => (findTag s l).isNone = true

theorem mem_untagged {U : Finset Nat} {s : State} {l : Nat} : l ∈ untagged U s ↔ l ∈ U ∧ ¬ Cached s l := by
  rw [untagged, Finset.mem_filter, Option.isNone_iff_eq_none, findTag_eq_none]

theorem untagged_congr {U : Finset Nat} {s t : State} (h : t.lines.tags = s.lines.tags) : untagged U t = untagged U s := by
  unfold untagged findTag
  rw [h]

/-- Beside a tag and an entry for each line of U that has no tag yet, w more of both are left. -/
structure Spare (U : Finset Nat) (s : State) (w : Nat) : Prop where
  vat  : (untagged U s).card + s.lines.vat.length + w ≤ Config.vatEntries
  tags : (untagged U s).card + s.lines.tags.length + w ≤ Config.l2Tags

theorem Spare.mono {U : Finset Nat} {s : State} {w k : Nat} (h : Spare U s w) (le : k ≤ w) : Spare U s k :=
  ⟨by have := h.vat; omega, by have := h.tags; omega⟩

theorem Spare.of_lines {U : Finset Nat} {s t : State} {w : Nat} (h : Spare U s w) (vat : t.lines.vat = s.lines.vat) (tags : t.lines.tags = s.lines.tags) :
    Spare U t w := by
  have same : untagged U t = untagged U s := untagged_congr tags
  exact ⟨by rw [same, vat]; exact h.vat, by rw [same, tags]; exact h.tags⟩

theorem untagged_pos {U : Finset Nat} {s : State} {a : Nat} (mem : a ∈ U) (h : ¬ Cached s a) : 0 < (untagged U s).card :=
  Finset.card_pos.mpr ⟨a, mem_untagged.mpr ⟨mem, h⟩⟩

theorem Tagged.untagged_le {U : Finset Nat} {s t : State} {a : Nat} (h : Tagged s t a) : (untagged U t).card ≤ (untagged U s).card :=
  Finset.card_le_card fun l hl => by
    obtain ⟨mem, none⟩ := mem_untagged.mp hl
    exact mem_untagged.mpr ⟨mem, fun c => none (h.keeps l c)⟩

theorem Tagged.untagged_lt {U : Finset Nat} {s t : State} {a : Nat} (h : Tagged s t a) (mem : a ∈ U) (new : ¬ Cached s a) :
    (untagged U t).card < (untagged U s).card := by
  refine Finset.card_lt_card (Finset.ssubset_iff_of_subset (fun l hl => ?_) |>.mpr ⟨a, mem_untagged.mpr ⟨mem, new⟩, fun e => ?_⟩)
  · obtain ⟨mem, none⟩ := mem_untagged.mp hl
    exact mem_untagged.mpr ⟨mem, fun c => none (h.keeps l c)⟩
  · exact (mem_untagged.mp e).2 h.here

/-- A read of a line of U takes nothing of what is left beside U. -/
theorem Spare.read {U : Finset Nat} {s : State} {w a : Nat} (h : Spare U s w) (mem : a ∈ U) (low : a < Config.compBase) (d : Fin 4) (dedup : Bool)
    (dom : BitVec 8) : Looked s (homeRead s a d dedup dom) 1 ∧ Spare U (homeRead s a d dedup dom) w := by
  have ⟨vat, tags⟩ := h
  by_cases c : Cached s a
  · have looked := homeRead_cached c d dedup dom
    have used := looked.room
    have used' := looked.tags
    refine ⟨looked.mono (by omega), ?_⟩
    have kept : (untagged U (homeRead s a d dedup dom)).card ≤ (untagged U s).card := by
      rcases homeRead_keeps low (fun n => absurd c n) d dedup dom with tagged | ⟨same, _⟩
      · exact tagged.untagged_le
      · exact (congrArg Finset.card (untagged_congr same)).le
    exact ⟨by omega, by omega⟩
  · have pos := untagged_pos mem c
    have looked := homeRead_looked (show Fits s 1 from .inr ⟨by omega, by omega⟩) low d dedup dom
    refine ⟨looked, ?_⟩
    rcases homeRead_keeps low (fun _ => (⟨by omega, by omega⟩ : Vacancy s)) d dedup dom with tagged | ⟨same, none⟩
    · have fewer := tagged.untagged_lt mem c
      have used := looked.room
      have used' := looked.tags
      exact ⟨by omega, by omega⟩
    · have used := none.room
      have kept : untagged U (homeRead s a d dedup dom) = untagged U s := untagged_congr same
      exact ⟨by rw [kept]; omega, by rw [kept, same]; omega⟩

/-- A write of a line of U takes at most one more. -/
theorem Spare.write {U : Finset Nat} {s : State} {w a : Nat} (h : Spare U s (w + 1)) (mem : lineOf a ∈ U) (low : a < Config.compBase) (bs : List Byte)
    (dedup : Bool) (dom : BitVec 8) : Wrote s (homeWrite s a bs dedup dom) a bs 2 ∧ Spare U (homeWrite s a bs dedup dom) w := by
  have ⟨vat, tags⟩ := h
  by_cases c : Cached s (lineOf a)
  · obtain ⟨wrote, tagged⟩ := homeWrite_cached c low (show Fits s 1 from .inr ⟨by omega, by omega⟩) (by omega) bs dedup dom
    have used := wrote.room
    have used' := wrote.tags
    have kept := tagged.untagged_le (U := U)
    exact ⟨wrote.mono (by omega), by omega, by omega⟩
  · have pos := untagged_pos mem c
    have wrote := homeWrite_wrote (show Fits s 2 from .inr ⟨by omega, by omega⟩) low bs dedup dom
    have fewer := (homeWrite_tagged low (by omega) (by omega) bs dedup dom).untagged_lt mem c
    have used := wrote.room
    have used' := wrote.tags
    exact ⟨wrote, by omega, by omega⟩

/-- While something is left, no write of a line waits. -/
theorem Spare.notHeld {U : Finset Nat} {s : State} {w : Nat} (h : Spare U s (w + 1)) (a : Nat) : writeHeld s a = false :=
  writeHeld_of_room (by have := h.vat; omega) (.inr ⟨by have := h.vat; omega, by have := h.tags; omega⟩) a

end Sys2Proof.Machine
end
section
/-! SUPPORT. The focused strand's reach of the vine structures, on one page that its core's TLB and its die's TLB hold, while nothing is
in error; and what an action on them leaves as it is (R133). -/

namespace Sys2Proof.Machine

/-! ## Lines of a page -/

/-- The lines of the n bytes at va are among U. -/
def Covers (P : TlbEntry) (U : Finset Nat) (va n : Nat) : Prop := ∀ o < n, lineOf (Claims.keyAt P (va + o)) ∈ U

theorem Covers.sub {P : TlbEntry} {U : Finset Nat} {va n a k : Nat} (h : Covers P U va n) (low : va ≤ a) (high : a + k ≤ va + n) : Covers P U a k := by
  intro o ho
  have := h (a - va + o) (by omega)
  rwa [show va + (a - va + o) = a + o by omega] at this

theorem Covers.first {P : TlbEntry} {U : Finset Nat} {va n : Nat} (h : Covers P U va n) (hn : 0 < n) : lineOf (Claims.keyAt P va) ∈ U := h 0 hn

theorem Covers.mono {P : TlbEntry} {U V : Finset Nat} {va n : Nat} (h : Covers P U va n) (le : U ⊆ V) : Covers P V va n := fun o ho => le (h o ho)

/-- The lines of some ranges of addresses, each its start and its length. -/
def footprint (P : TlbEntry) : List (Nat × Nat) → Finset Nat
  | [] => ∅
  | r :: rs => (Finset.range r.2).image (fun o => lineOf (Claims.keyAt P (r.1 + o))) ∪ footprint P rs

theorem covers_footprint {P : TlbEntry} {rs : List (Nat × Nat)} {va n : Nat} (h : (va, n) ∈ rs) : Covers P (footprint P rs) va n := by
  induction rs with
  | nil => cases h
  | cons r rs ih =>
    intro o ho
    refine Finset.mem_union.mpr ?_
    rcases List.mem_cons.mp h with rfl | h
    · exact .inl (Finset.mem_image_of_mem _ (Finset.mem_range.mpr ho))
    · exact .inr (ih h o ho)

theorem card_rangeLines (P : TlbEntry) (va n : Nat) : ((Finset.range n).image fun o => lineOf (Claims.keyAt P (va + o))).card ≤ n / 128 + 2 := by
  have within : ((Finset.range n).image fun o => lineOf (Claims.keyAt P (va + o))) ⊆
      (Finset.Icc (Claims.keyAt P va / 128) ((Claims.keyAt P va + n) / 128)).image (· * 128) := by
    intro l hl
    obtain ⟨o, ho, rfl⟩ := Finset.mem_image.mp hl
    have := Finset.mem_range.mp ho
    refine Finset.mem_image.mpr ⟨Claims.keyAt P (va + o) / 128, Finset.mem_Icc.mpr ?_, rfl⟩
    unfold Claims.keyAt
    exact ⟨Nat.div_le_div_right (by omega), Nat.div_le_div_right (by omega)⟩
  refine (Finset.card_le_card within).trans (Finset.card_image_le.trans ?_)
  rw [Nat.card_Icc]
  omega

theorem card_footprint (P : TlbEntry) (rs : List (Nat × Nat)) : (footprint P rs).card ≤ (rs.map fun r => r.2 / 128 + 2).sum := by
  induction rs with
  | nil => simp [footprint]
  | cons r rs ih =>
    rw [List.map_cons, List.sum_cons]
    exact (Finset.card_union_le _ _).trans (Nat.add_le_add (card_rangeLines P r.1 r.2) ih)

/-! ## The reach -/

/-- The focused strand, which f names, reaches the vine structures through page P; the lines of U are to be touched, and w more tags and vat
entries are left. -/
structure StrandReach (f : VineFor) (P : TlbEntry) (U : Finset Nat) (s : State) (w : Nat) : Prop where
  self    : vineSelf s = f
  dieTlb  : s.lines.tlb = [(curDie s, P)]
  coreTlb : (getCore s (curCore s)).tlb = [P]
  ctx     : P.ctx = s.st.ctx
  allowed : P.r = true ∧ P.w = true ∧ P.p = false ∧ P.moving = false ∧ P.tier = 0 ∧ P.poison = false
  place   : P.base + P.size ≤ Config.gddrEnd ∧ P.base % P.size = 0 ∧ P.vpage % P.size = 0 ∧ P.vpage + P.size ≤ 2 ^ 48
  apart   : P.base + P.size ≤ descAddr s s.st.ctx ∨ descAddr s s.st.ctx + 128 ≤ P.base
  free    : ErrorFree s
  up      : ∀ d : Fin 4, s.daleel.dies[d.val] = .up
  quiet   : s.watches = []
  park    : s.st.park = 0
  whole   : s.broken = []
  spare   : Spare U s w

theorem StrandReach.of_space {s : State} {P : TlbEntry} (h : Claims.VineSpace s P) {U : Finset Nat} {w : Nat} (fits : U.card + w ≤ 8192) :
    StrandReach (vineSelf s) P U s w := by
  obtain ⟨r, wr, p, moving, tier⟩ := h.allowed
  obtain ⟨poison, rdc, words, vat⟩ := h.sound
  obtain ⟨park, watches, broken⟩ := h.idle
  obtain ⟨entries, tags⟩ := h.room
  have few : (untagged U s).card ≤ U.card := Finset.card_filter_le _ _
  exact ⟨rfl, h.dieTlb, h.coreTlb, h.ctx, ⟨r, wr, p, moving, tier, poison⟩, h.place, h.apart, ⟨words, rdc, vat⟩, h.up, watches, park, broken,
    ⟨by omega, by omega⟩⟩

theorem StrandReach.mono {f : VineFor} {P : TlbEntry} {U : Finset Nat} {s : State} {w k : Nat} (h : StrandReach f P U s w) (le : k ≤ w) :
    StrandReach f P U s k := { h with spare := h.spare.mono le }

/-! ## What stays -/

/-- From s to t the focused strand, its core's number, the clock, the records that wait and the context's descriptor are as before; memory
differs at most in the ranges l of page P, and stays in its one form. -/
structure Acts (P : TlbEntry) (s t : State) (l : List (Nat × Nat)) : Prop where
  st    : t.st = s.st
  cycle : t.cycle = s.cycle
  cur   : t.cur = s.cur
  rel   : t.waitRel = s.waitRel
  desc  : ∀ o, o + 8 ≤ 128 → descWord t s.st.ctx o = descWord s s.st.ctx o
  mem   : Claims.OutsideSame s t P l
  form  : Memory.wf s.mem = true → Memory.wf t.mem = true

theorem Acts.of_mem {P : TlbEntry} {s t : State} (st : t.st = s.st) (cycle : t.cycle = s.cycle) (cur : t.cur = s.cur) (rel : t.waitRel = s.waitRel)
    (table : t.lp.ctxTable = s.lp.ctxTable) (mem : t.mem = s.mem) : Acts P s t [] where
  st := st
  cycle := cycle
  cur := cur
  rel := rel
  desc o _ := by unfold descWord descAddr; rw [mem, table]
  mem a _ := by rw [mem]
  form h := by rwa [mem]

theorem Acts.refl (P : TlbEntry) (s : State) : Acts P s s [] := .of_mem rfl rfl rfl rfl rfl rfl

/-- Ranges within ranges. -/
def Within (l k : List (Nat × Nat)) : Prop := ∀ r ∈ l, ∃ q ∈ k, q.1 ≤ r.1 ∧ r.1 + r.2 ≤ q.1 + q.2

theorem Within.nil (k : List (Nat × Nat)) : Within [] k := fun _ h => nomatch h
theorem Within.subset {l k : List (Nat × Nat)} (h : l ⊆ k) : Within l k := fun r hr => ⟨r, h hr, le_rfl, le_rfl⟩
theorem Within.refl (l : List (Nat × Nat)) : Within l l := .subset fun _ => id
theorem Within.one {r q : Nat × Nat} {k : List (Nat × Nat)} (mem : q ∈ k) (low : q.1 ≤ r.1) (high : r.1 + r.2 ≤ q.1 + q.2) : Within [r] k :=
  fun p hp => ⟨q, mem, by obtain rfl := List.mem_singleton.mp hp; exact ⟨low, high⟩⟩

theorem Acts.widen {P : TlbEntry} {s t : State} {l k : List (Nat × Nat)} (a : Acts P s t l) (h : Within l k) : Acts P s t k :=
  have mem : Claims.OutsideSame s t P k := fun x outside => a.mem x fun r hr => by
    obtain ⟨q, hq, low, high⟩ := h r hr
    have := outside q hq
    omega
  { a with mem := mem }

theorem Acts.trans {P : TlbEntry} {s t u : State} {l : List (Nat × Nat)} (a : Acts P s t l) (b : Acts P t u l) : Acts P s u l where
  st := b.st.trans a.st
  cycle := b.cycle.trans a.cycle
  cur := b.cur.trans a.cur
  rel := b.rel.trans a.rel
  desc o ho := by rw [← a.desc o ho, ← a.st, b.desc o ho]
  mem x outside := (b.mem x outside).trans (a.mem x outside)
  form h := b.form (a.form h)

section
variable {P : TlbEntry} {s t : State} {l : List (Nat × Nat)} (a : Acts P s t l)
include a

theorem Acts.vtBase : ctxVtBase t t.st.ctx = ctxVtBase s s.st.ctx := by unfold ctxVtBase; rw [a.st, a.desc _ (by omega)]
theorem Acts.vtCount : ctxVtCount t t.st.ctx = ctxVtCount s s.st.ctx := by unfold ctxVtCount; rw [a.st, a.desc _ (by omega)]
theorem Acts.relq : ctxRelq t t.st.ctx = ctxRelq s s.st.ctx := by unfold ctxRelq; rw [a.st, a.desc _ (by omega)]
theorem Acts.vineVa (h k : Nat) : Claims.vineVa t h k = Claims.vineVa s h k := by unfold Claims.vineVa; rw [a.vtBase]
theorem Acts.vineEntry (h : Nat) : vineEntry t t.st.ctx h = vineEntry s s.st.ctx h := by unfold Machine.vineEntry; rw [a.vtBase]
theorem Acts.descRange (h : Nat) : Claims.descRange t h = Claims.descRange s h := by unfold Claims.descRange; rw [a.vineVa]

end

/-- The n bytes at va of the page lie outside the ranges. -/
def Clear (P : TlbEntry) (l : List (Nat × Nat)) (va n : Nat) : Prop :=
  ∀ r ∈ l, P.vpage ≤ va ∧ P.vpage ≤ r.1 ∧ (va + n ≤ r.1 ∨ r.1 + r.2 ≤ va)

theorem Clear.nil (P : TlbEntry) (va n : Nat) : Clear P [] va n := fun _ h => nomatch h

theorem Clear.sub {P : TlbEntry} {l : List (Nat × Nat)} {va n a k : Nat} (h : Clear P l va n) (low : va ≤ a) (high : a + k ≤ va + n) : Clear P l a k := by
  intro r hr
  have := h r hr
  omega

theorem Clear.cons {P : TlbEntry} {l : List (Nat × Nat)} {r : Nat × Nat} {va n : Nat} (low : P.vpage ≤ va) (start : P.vpage ≤ r.1)
    (away : va + n ≤ r.1 ∨ r.1 + r.2 ≤ va) (h : Clear P l va n) : Clear P (r :: l) va n := fun q hq => by
  rcases List.mem_cons.mp hq with rfl | hq
  · exact ⟨low, start, away⟩
  · exact h q hq

/-- A number outside what has been written is as before. -/
theorem Acts.at_clear {P : TlbEntry} {s t : State} {l : List (Nat × Nat)} {va n : Nat} (a : Acts P s t l) (c : Clear P l va n) :
    Claims.at_ t P va n = Claims.at_ s P va n := by
  unfold Claims.at_
  rw [number_eq, number_eq]
  congr 1
  refine List.map_congr_left fun i hi => a.mem _ fun r hr => ?_
  have := c r hr
  have := List.mem_range.mp hi
  omega

/-- Without a write every number is as before. -/
theorem Acts.at_nil {P : TlbEntry} {s t : State} (a : Acts P s t []) (va n : Nat) : Claims.at_ t P va n = Claims.at_ s P va n := a.at_clear (.nil P va n)

theorem Acts.sameMem {P : TlbEntry} {s t : State} (a : Acts P s t []) : Claims.SameMem s t := fun b => a.mem b fun _ hr => nomatch hr

theorem Acts.vineWord_nil {P : TlbEntry} {s t : State} (a : Acts P s t []) (h k : Nat) : Claims.vineWord t P h k = Claims.vineWord s P h k := by
  unfold Claims.vineWord
  rw [a.vineVa, a.at_nil]

/-! ## Steps that keep the reach -/

theorem Looked.acts {P : TlbEntry} {s t : State} {n : Nat} (l : Looked s t n) : Acts P s t [] :=
  .of_mem l.st (by rw [l.same]) l.cur (by rw [l.same]) (by rw [l.lp]) l.mem

section
variable {f : VineFor} {P : TlbEntry} {U : Finset Nat} {s t : State} {w k : Nat} (r : StrandReach f P U s w)
include r

/-- After lookups. -/
theorem StrandReach.looked {n : Nat} (l : Looked s t n) (spare : Spare U t k) : StrandReach f P U t k where
  self := by rw [← r.self]; unfold vineSelf curDie; rw [l.st, l.cur]
  dieTlb := by unfold curDie; rw [l.tlb, l.cur]; exact r.dieTlb
  coreTlb := by unfold curCore getCore; rw [l.cur, l.cores]; exact r.coreTlb
  ctx := by rw [l.st]; exact r.ctx
  allowed := r.allowed
  place := r.place
  apart := by unfold descAddr; rw [l.lp, l.st]; exact r.apart
  free := l.sound r.free
  up := by rw [l.daleel]; exact r.up
  quiet := by rw [l.watches]; exact r.quiet
  park := by rw [l.st]; exact r.park
  whole := by rw [l.same]; exact r.whole
  spare := spare

/-- After a write. -/
theorem StrandReach.wrote {a n : Nat} {bs : List Byte} (h : Wrote s t a bs n) (cores : t.cores = s.cores) (spare : Spare U t k) :
    StrandReach f P U t k := by
  have q := h.quiet r.quiet
  have st := h.running r.park
  have cur : t.cur = s.cur := by rw [q]
  exact
    { self := by rw [← r.self]; unfold vineSelf curDie; rw [st, cur]
      dieTlb := by unfold curDie; rw [h.tlb, cur]; exact r.dieTlb
      coreTlb := by unfold curCore getCore; rw [cur, cores]; exact r.coreTlb
      ctx := by rw [st]; exact r.ctx
      allowed := r.allowed
      place := r.place
      apart := by unfold descAddr; rw [h.lp, st]; exact r.apart
      free := h.sound r.free
      up := by rw [h.daleel]; exact r.up
      quiet := by rw [q]; exact r.quiet
      park := by rw [st]; exact r.park
      whole := by rw [q]; exact r.whole
      spare := spare }

/-- The bytes of the page lie in GDDR-7. -/
theorem StrandReach.key_lt {va n : Nat} (h : Claims.Inside P va n) : Claims.keyAt P va + n ≤ Config.gddrEnd := by
  obtain ⟨low, high⟩ := h
  obtain ⟨below, _⟩ := r.place
  unfold Claims.keyAt
  omega

theorem StrandReach.key_low {va n : Nat} (h : Claims.Inside P va n) : Claims.keyAt P va + n ≤ Config.compBase :=
  (r.key_lt h).trans (by decide)

/-- The bytes written in the page. -/
theorem StrandReach.wrote_acts {va n : Nat} {bs : List Byte} (wf : Memory.wf s.mem = true) (h : Wrote s t (Claims.keyAt P va) bs n)
    (inside : Claims.Inside P va bs.length) : Acts P s t [(va, bs.length)] := by
  have q := h.quiet r.quiet
  have but := SameBut.of_wrote wf h
  obtain ⟨low, high⟩ := inside
  exact
    { st := h.running r.park
      cycle := by rw [q]
      cur := by rw [q]
      rel := by rw [q]
      desc := fun o ho => but.descWord (by rw [h.lp]) _ (by have := r.apart; unfold Claims.keyAt; omega) ho
      mem := fun x outside => but x fun e => outside _ List.mem_cons_self e
      form := fun _ => by rw [h.mem]; exact memWrite_wf _ _ _ wf }

end

/-! ## The L1 -/

/-- A value that is no default is found in its table, whatever the table's form. -/
theorem sget_sset_self {β : Type} [DecidableEq β] {d v : β} (h : v ≠ d) (t : List (Nat × β)) (k : Nat) : sget d (sset d t k v) k = v := by
  induction t with
  | nil => simp [sset, h, sget]
  | cons e t ih =>
    obtain ⟨j, x⟩ := e
    unfold sset
    rw [if_neg h, if_neg h]
    split
    · simp [sget]
    split
    · simp [sget]
    · next ne => rw [sget, if_neg (Ne.symm ne), ih]

/-- From s to t at most the L1s have changed, and the replies on their way to them; the strand's core still translates as before. -/
structure L1Changed (s t : State) : Prop where
  same : t = { s with cores := t.cores, lines := { s.lines with replies := t.lines.replies } }
  tlb  : (getCore s (curCore s)).tlb ≠ [] → (getCore t (curCore s)).tlb = (getCore s (curCore s)).tlb

theorem L1Changed.refl (s : State) : L1Changed s s := ⟨rfl, fun _ => rfl⟩

/-- A change of the core's L1. -/
theorem L1Changed.of_modCore {s : State} {g : Core → Core} (hg : ∀ k, (g k).tlb = k.tlb) (p : Nat → Bool) :
    L1Changed s (modCore (passReplies s (curCore s) p) (curCore s) g) where
  same := rfl
  tlb some := by
    have ne : g (getCore s (curCore s)) ≠ {} := fun e => some (by rw [← hg, e])
    show (sget {} (sset {} s.cores (curCore s) (g (getCore s (curCore s)))) (curCore s)).tlb = _
    rw [sget_sset_self ne, hg]

theorem atomicL1_changed (s : State) (a n : Nat) : L1Changed s (atomicL1 s (curCore s) a n) := by
  unfold atomicL1
  dsimp only
  split
  · exact ⟨rfl, fun _ => rfl⟩
  · apply L1Changed.of_modCore
    intro k
    rfl

theorem storeL1_changed (s : State) (a : Nat) (bs : List Byte) : L1Changed s (storeL1 s (curCore s) a bs) := by
  unfold storeL1
  dsimp only
  split
  · exact ⟨rfl, fun _ => rfl⟩
  · apply L1Changed.of_modCore
    intro k
    rfl

theorem emptyL1_changed (s : State) : L1Changed s (emptyL1 s (curCore s)) := by
  unfold emptyL1
  apply L1Changed.of_modCore
  intro k
  rfl

theorem L1Changed.lines {s t : State} (h : L1Changed s t) : t.lines = { s.lines with replies := t.lines.replies } := by
  have := congrArg State.lines h.same
  exact this

theorem L1Changed.acts {P : TlbEntry} {s t : State} (h : L1Changed s t) : Acts P s t [] :=
  .of_mem (by rw [h.same]) (by rw [h.same]) (by rw [h.same]) (by rw [h.same]) (by rw [h.same]) (by rw [h.same])

theorem L1Changed.reach {f : VineFor} {P : TlbEntry} {U : Finset Nat} {s t : State} {w : Nat} (h : L1Changed s t) (r : StrandReach f P U s w) :
    StrandReach f P U t w := by
  have st : t.st = s.st := by rw [h.same]
  have cur : t.cur = s.cur := by rw [h.same]
  have core : curCore t = curCore s := by unfold curCore; rw [cur]
  have tlb := h.tlb (by rw [r.coreTlb]; exact List.cons_ne_nil _ _)
  exact
    { self := by rw [← r.self]; unfold vineSelf curDie; rw [st, cur]
      dieTlb := by unfold curDie; rw [h.lines, cur]; exact r.dieTlb
      coreTlb := by rw [core, tlb]; exact r.coreTlb
      ctx := by rw [st]; exact r.ctx
      allowed := r.allowed
      place := r.place
      apart := by unfold descAddr; rw [show t.lp = s.lp by rw [h.same], st]; exact r.apart
      free := ⟨by rw [h.same]; exact r.free.words, by rw [h.lines]; exact r.free.rdc, by rw [h.lines]; exact r.free.vat⟩
      up := by rw [show t.daleel = s.daleel by rw [h.same]]; exact r.up
      quiet := by rw [h.same]; exact r.quiet
      park := by rw [st]; exact r.park
      whole := by rw [h.same]; exact r.whole
      spare := r.spare.of_lines (by rw [h.lines]) (by rw [h.lines]) }

end Sys2Proof.Machine
end
section
/-! SUPPORT. Actions of the focused strand on the vine structures that answer: how they follow one another, and a read and a write of a
structure's bytes (R133). -/

namespace Sys2Proof.Machine

/-! ## Actions that answer -/

/-- Run on s, the action answers v. Memory has changed in the ranges l of page P at most, the structures are in reach as before, with w tags
and entries left, and Q holds. -/
def Does {α : Type} (f : VineFor) (P : TlbEntry) (U : Finset Nat) (s : State) (a : Act α) (v : α) (l : List (Nat × Nat)) (w : Nat)
    (Q : State → Prop) : Prop :=
  ∃ t, Act.on a s = (.ok v, t) ∧ Acts P s t l ∧ StrandReach f P U t w ∧ Q t

section
variable {α β : Type} {f : VineFor} {P : TlbEntry} {U : Finset Nat} {s : State} {a : Act α} {b : α → Act β} {v : α} {u : β}
  {l k : List (Nat × Nat)} {w j : Nat} {Q R : State → Prop}

theorem Does.pure (r : StrandReach f P U s w) (q : Q s) : Does f P U s (pure v) v l w Q :=
  ⟨s, rfl, (Acts.refl P s).widen (.nil l), r, q⟩

theorem Does.widen (h : Does f P U s a v k w Q) (ranges : Within k l) (le : j ≤ w) (post : ∀ t, Acts P s t k → Q t → R t) : Does f P U s a v l j R := by
  obtain ⟨t, run, acts, reach, q⟩ := h
  exact ⟨t, run, acts.widen ranges, reach.mono le, post t acts q⟩

theorem Does.bind (h : Does f P U s a v k w Q) (ranges : Within k l)
    (next : ∀ t, Acts P s t k → StrandReach f P U t w → Q t → Does f P U t (b v) u l j R) : Does f P U s (a >>= b) u l j R := by
  obtain ⟨t, run, acts, reach, q⟩ := h
  obtain ⟨t', run', acts', reach', q'⟩ := next t acts reach q
  exact ⟨t', (on_bind_ok run).trans run', (acts.widen ranges).trans acts', reach', q'⟩

/-- After an action that writes nothing. -/
theorem Does.seen (h : Does f P U s a v [] w Q) (next : ∀ t, Acts P s t [] → StrandReach f P U t w → Q t → Does f P U t (b v) u l j R) :
    Does f P U s (a >>= b) u l j R := h.bind (.nil l) next

theorem Does.get {b : State → Act β} (h : Does f P U s (b s) u l j R) : Does f P U s (get >>= b) u l j R := h

/-- A change of the machine that neither memory nor the reach depends on. -/
theorem Does.apply {g : State → State} (acts : Acts P s (g s) []) (r : StrandReach f P U (g s) w) (q : Q (g s)) : Does f P U s (apply g) () l w Q :=
  ⟨g s, rfl, acts.widen (.nil l), r, q⟩

/-- An operation at the homes that answers is one whole (R133). -/
theorem on_vineAtomic {a : Act α} {t : State} (run : Act.on a s = (.ok v, t)) : Act.on (vineAtomic a) s = (.ok v, t) := by
  unfold vineAtomic
  rw [on_bind_ok (on_get s), run]
  rfl

theorem Does.atomic (h : Does f P U s a v l w Q) : Does f P U s (vineAtomic a) v l w Q :=
  h.imp fun _ ⟨run, rest⟩ => ⟨on_vineAtomic run, rest⟩

end

/-! ## One access -/

section
variable {f : VineFor} {P : TlbEntry} {U : Finset Nat} {s : State} {w k : Nat} {va : VAddr}

theorem StrandReach.strand (r : StrandReach f P U s w) : f.strand = true := by rw [← r.self]; rfl
theorem StrandReach.ctx_eq (r : StrandReach f P U s w) : f.ctx = s.st.ctx := by rw [← r.self]; rfl

theorem StrandReach.on_vineAt (r : StrandReach f P U s w) (inside : Claims.Inside P va.toNat k) (hk : 0 < k) :
    Act.on (vineAt f va) s = (.ok (P, Claims.keyAt P va.toNat), s) := by
  obtain ⟨_, _, _, _, tier, poison⟩ := r.allowed
  have self := r.self
  have found : s.lines.tlb.find? (fun e => e.1 = f.die ∧ e.2.maps f.ctx va.toNat) = some (curDie s, P) := by
    have maps := maps_of_inside inside hk
    rw [r.ctx] at maps
    rw [r.dieTlb, List.find?_cons_of_pos (by rw [← self]; simpa [vineSelf] using maps)]
  have walk : vineWalk f va s = (.found P, s) := by
    unfold vineWalk
    rw [show f.waits = true by rw [← self]; rfl]
    dsimp only
    rw [if_pos rfl, translateDev, found]
    simp [useTlb, poison]
  have page : Act.on (pageFrom va (vineWalk f va)) s = (.ok P, s) := by
    unfold pageFrom
    rw [on_bind_ok (on_lift _ s), walk]
    rfl
  have guard : Act.on (homeGuard va (Claims.keyAt P va.toNat)) s = (.ok (), s) := by
    unfold homeGuard
    rw [on_bind_ok (on_get s), homeInReset_up r.up]
    rfl
  unfold vineAt
  rw [on_bind_ok page, if_neg (by rw [tier]; decide)]
  exact on_bind_ok guard

theorem StrandReach.on_vinePoison (r : StrandReach f P U s w) (a : Nat) : Act.on (vinePoison f va a k) s = (.ok (), s) := by
  unfold vinePoison vineBad
  rw [on_bind_ok (on_get s), poisonedAt_errorFree r.free, rdcPoisoned_errorFree r.free]
  rfl

theorem StrandReach.on_vineL1 (r : StrandReach f P U s w) (a : Nat) : ∃ t, Act.on (vineL1 f a k) s = (.ok (), t) ∧ L1Changed s t := by
  refine ⟨_, ?_, atomicL1_changed s a k⟩
  unfold vineL1
  rw [if_pos r.strand]
  rfl

/-- Bytes of a vine structure are read. -/
theorem StrandReach.read (r : StrandReach f P U s w) (inside : Claims.Inside P va.toNat k) (hk : 0 < k) (cov : Covers P U va.toNat k) :
    Does f P U s (vineRead f va k) (Claims.at_ s P va.toNat k) [] w fun _ => True := by
  obtain ⟨t, l1, changed⟩ := r.on_vineL1 (k := k) (Claims.keyAt P va.toNat)
  have reach := changed.reach r
  have low : lineOf (Claims.keyAt P va.toNat) < Config.compBase :=
    (Nat.div_mul_le_self _ 128).trans_lt (by have := r.key_low inside; omega)
  obtain ⟨looked, spare⟩ := reach.spare.read (cov.first hk) low f.die P.dedup (ctxDomain t f.ctx)
  have acts := (changed.acts (P := P)).trans looked.acts
  refine ⟨_, ?_, acts, reach.looked looked spare, trivial⟩
  unfold vineRead
  rw [on_bind_ok (r.on_vineAt inside hk)]
  dsimp only
  rw [on_bind_ok l1, on_bind_ok (reach.on_vinePoison _), on_bind_ok (on_apply _ t), on_bind_ok (on_get _), on_pure, memNat, ← number_eq]
  rw [show Claims.number _ (Claims.keyAt P va.toNat) k = Claims.number s (Claims.keyAt P va.toNat) k from acts.at_nil va.toNat k]
  rfl

/-- Bytes of a vine structure are written. -/
theorem StrandReach.write (r : StrandReach f P U s (w + 1)) (wf : Memory.wf s.mem = true) (inside : Claims.Inside P va.toNat k) (hk : 0 < k)
    (cov : Covers P U va.toNat k) (v : Nat) :
    Does f P U s (vineWrite f va k v) () [(va.toNat, k)] w fun t => v < 256 ^ k → Claims.at_ t P va.toNat k = v := by
  obtain ⟨t, l1, changed⟩ := r.on_vineL1 (k := k) (Claims.keyAt P va.toNat)
  have reach := changed.reach r
  have below := r.key_low inside
  have wf' : Memory.wf t.mem = true := (changed.acts (P := P)).form wf
  obtain ⟨wrote, spare⟩ := reach.spare.write (a := Claims.keyAt P va.toNat) (cov.first hk) (by omega) (natToBytes k v) P.dedup (ctxDomain t f.ctx)
  have acts := reach.wrote_acts wf' wrote (by rwa [natToBytes_length])
  rw [natToBytes_length] at acts
  refine ⟨_, ?_, ((changed.acts (P := P)).widen (.nil _)).trans acts, reach.wrote wrote (homeWrite_cores _ _ _ _ _) spare,
    fun lt => number_memWrite wf' wrote.mem lt⟩
  have free : heldBy t P (Claims.keyAt P va.toNat) = false := by
    obtain ⟨_, _, _, moving, _, _⟩ := r.allowed
    have high : ¬ Config.compBase ≤ Claims.keyAt P va.toNat := by omega
    simp [heldBy, moving, high, reach.spare.notHeld]
  unfold vineWrite
  rw [on_bind_ok (r.on_vineAt inside hk)]
  dsimp only
  rw [on_bind_ok l1, on_bind_ok (reach.on_vinePoison _), on_bind_ok (on_get t), free]
  rfl

end

end Sys2Proof.Machine
end
section
/-! SUPPORT. Vine descriptors, pools, overlay maps and commit windows as the focused strand reads them (R134 to R136, R141). -/

namespace Sys2Proof.Machine

/-! ## What a descriptor says -/

section
variable (s : State) (P : TlbEntry) (h : Nat)

theorem bits_low {w : Nat} (lt : w < 2 ^ 64) (n : Nat) : bits (BitVec.ofNat 64 w) 0 n = w % 2 ^ n := by rw [bits_ofNat lt, Nat.pow_zero, Nat.div_one]

theorem bits_high {w : Nat} (lt : w < 2 ^ 64) : bits (BitVec.ofNat 64 w) 32 32 = w / 2 ^ 32 := by rw [bits_ofNat lt]; omega

theorem vineIn_resLen : (vineIn s P h).resLen = Claims.resLen s P h := bits_high (vineWord_lt s P h 0)
theorem vineIn_mapLen : (vineIn s P h).mapLen = Claims.mapLen s P h := bits_high (vineWord_lt s P h 3)
theorem vineIn_pool : (vineIn s P h).pool = Claims.poolNo s P h := bits_low (vineWord_lt s P h 3) 32
theorem vineIn_parent : (vineIn s P h).parent = Claims.vineWord s P h 1 / 2 ^ 32 := bits_high (vineWord_lt s P h 1)
theorem vineIn_forkLen : (vineIn s P h).forkLen = Claims.vineWord s P h 1 % 2 ^ 32 := bits_low (vineWord_lt s P h 1) 32
theorem vineIn_depth : (vineIn s P h).depth = Claims.vineWord s P h 4 / 2 ^ 16 % 8 := bits_ofNat (vineWord_lt s P h 4) 16 3

theorem vineIn_children : (vineIn s P h).children = Claims.vineWord s P h 4 / 2 ^ 48 := by
  have lt := vineWord_lt s P h 4
  exact (bits_ofNat lt 48 16).trans (by omega)

variable {s P h} in
theorem vineIn_overlay (v : Claims.IsVine s P h) : (vineIn s P h).overlay.toNat = Claims.overlay s P h := by
  obtain ⟨page, low, _⟩ := v.res
  have value : bits (vineIn s P h).w2 6 42 = Claims.overlay s P h / 2 ^ 6 % 2 ^ 42 := bits_ofNat (vineWord_lt s P h 2) 6 42
  unfold Vine.overlay
  rw [value, BitVec.toNat_ofNat]
  omega

end

/-! ## Descriptors after writes elsewhere -/

section
variable {P : TlbEntry} {s t : State} {l : List (Nat × Nat)} {h : Nat} (a : Acts P s t l) (c : Clear P l (Claims.vineVa s h 0) 64)
include a c

theorem Acts.vineWord {k : Nat} (hk : k < 8) : Claims.vineWord t P h k = Claims.vineWord s P h k := by
  unfold Claims.vineWord
  rw [a.vineVa]
  exact a.at_clear (c.sub (a := Claims.vineVa s h k) (by unfold Claims.vineVa; omega) (by unfold Claims.vineVa; omega))

theorem Acts.vineIn : vineIn t P h = vineIn s P h := by
  unfold Machine.vineIn
  dsimp only
  rw [a.vineEntry, a.vineWord c (k := 0) (by omega), a.vineWord c (k := 1) (by omega), a.vineWord c (k := 2) (by omega),
    a.vineWord c (k := 3) (by omega), a.vineWord c (k := 4) (by omega), a.vineWord c (k := 5) (by omega), a.vineWord c (k := 6) (by omega),
    a.vineWord c (k := 7) (by omega)]

theorem Acts.isVine (v : Claims.IsVine s P h) : Claims.IsVine t P h := isVine_congr v (a.vineVa h 0) a.vtCount fun _ hk => a.vineWord c hk

theorem Acts.isPool {b : Nat} (v : Claims.IsPool s P h b) : Claims.IsPool t P h b := by
  obtain ⟨inside, listed, base, counts, ⟨w2, w4, w5, w6, w7⟩, w3, bounds⟩ := v
  have word {k : Nat} (hk : k < 8) := a.vineWord c hk
  refine ⟨by rwa [a.vineVa], by rwa [a.vtCount], ?_, ?_, ⟨?_, ?_, ?_, ?_, ?_⟩, ?_, bounds⟩
  · rwa [word (by omega)]
  · rwa [word (by omega)]
  · rwa [word (by omega)]
  · rwa [word (by omega)]
  · rwa [word (by omega)]
  · rwa [word (by omega)]
  · rwa [word (by omega)]
  · rwa [word (by omega)]

end

/-! ## Reading a descriptor -/

/-- Run on s, the action answers v and writes nothing, with w tags and entries left. -/
abbrev Reads {α : Type} (f : VineFor) (P : TlbEntry) (U : Finset Nat) (s : State) (a : Act α) (v : α) (w : Nat) : Prop :=
  Does f P U s a v [] w fun _ => True

/-- Entry h of the table lies in the page, its lines among U. -/
structure EntryCovered (s : State) (P : TlbEntry) (U : Finset Nat) (h : Nat) : Prop where
  inside : Claims.Inside P (Claims.vineVa s h 0) 64
  covers : Covers P U (Claims.vineVa s h 0) 64

theorem EntryCovered.next {s t : State} {P : TlbEntry} {U : Finset Nat} {h : Nat} {l : List (Nat × Nat)} (e : EntryCovered s P U h) (a : Acts P s t l) :
    EntryCovered t P U h := ⟨by rw [a.vineVa]; exact e.inside, by rw [a.vineVa]; exact e.covers⟩

section
variable {f : VineFor} {P : TlbEntry} {U : Finset Nat} {s : State} {w h : Nat}

theorem StrandReach.entry_toNat (r : StrandReach f P U s w) (inside : Claims.Inside P (Claims.vineVa s h 0) 64) {k : Nat} (hk : k < 8) :
    (vineEntry s s.st.ctx h + BitVec.ofNat 48 (8 * k)).toNat = Claims.vineVa s h k := by
  obtain ⟨low, high⟩ := inside
  obtain ⟨_, _, _, top⟩ := r.place
  unfold Claims.vineVa at high ⊢
  exact offset_toNat (by omega)

/-- A word of an entry. -/
theorem StrandReach.word {t : State} (a : Acts P s t []) (r : StrandReach f P U t w) (e : EntryCovered s P U h) {k : Nat} (hk : k < 8) :
    Reads f P U t (do pure (w64 (← vineRead f (vineEntry s s.st.ctx h + BitVec.ofNat 48 (8 * k)) 8))) (w64 (Claims.vineWord s P h k)) w := by
  have place : (vineEntry s s.st.ctx h + BitVec.ofNat 48 (8 * k)).toNat = Claims.vineVa s h k := by
    rw [← a.vineEntry, r.entry_toNat (e.next a).inside hk, a.vineVa]
  have step : Claims.vineVa s h k = Claims.vineVa s h 0 + 8 * k := rfl
  obtain ⟨low, high⟩ := e.inside
  have read := r.read (va := vineEntry s s.st.ctx h + BitVec.ofNat 48 (8 * k)) (k := 8) (by rw [place, step]; exact ⟨by omega, by omega⟩) (by omega)
    (by rw [place]; exact e.covers.sub (by omega) (by omega))
  rw [place, a.at_nil] at read
  exact read.seen fun _ _ r' _ => .pure r' trivial

theorem StrandReach.readEntry (r : StrandReach f P U s w) (e : EntryCovered s P U h) : Reads f P U s (readEntry f h) (vineIn s P h) w := by
  refine .get ?_
  rw [r.ctx_eq]
  refine (StrandReach.word (.refl P s) r e (k := 0) (by omega)).seen fun t0 a0 r0 _ => ?_
  refine (StrandReach.word a0 r0 e (k := 1) (by omega)).seen fun t1 a1 r1 _ => ?_
  have a1 := a0.trans a1
  refine (StrandReach.word a1 r1 e (k := 2) (by omega)).seen fun t2 a2 r2 _ => ?_
  have a2 := a1.trans a2
  refine (StrandReach.word a2 r2 e (k := 3) (by omega)).seen fun t3 a3 r3 _ => ?_
  have a3 := a2.trans a3
  refine (StrandReach.word a3 r3 e (k := 4) (by omega)).seen fun t4 a4 r4 _ => ?_
  have a4 := a3.trans a4
  refine (StrandReach.word a4 r4 e (k := 5) (by omega)).seen fun t5 a5 r5 _ => ?_
  have a5 := a4.trans a5
  refine (StrandReach.word a5 r5 e (k := 6) (by omega)).seen fun t6 a6 r6 _ => ?_
  have a6 := a5.trans a6
  refine (StrandReach.word a6 r6 e (k := 7) (by omega)).seen fun t7 a7 r7 _ => ?_
  refine .get ?_
  rw [r7.whole]
  exact .pure r7 trivial

theorem StrandReach.readVine (r : StrandReach f P U s w) (v : Claims.IsVine s P h) (cov : Covers P U (Claims.vineVa s h 0) 64) :
    Reads f P U s (readVine f h) (vineIn s P h) w := by
  refine .get ?_
  rw [r.ctx_eq, if_neg (Nat.not_le.mpr v.listed)]
  refine (r.readEntry ⟨v.inside, cov⟩).seen fun t a r' _ => ?_
  rw [vineIn_valid v]
  exact .pure r' trivial

/-- A vine that is neither FREE nor DROPPING. -/
theorem StrandReach.liveVine (r : StrandReach f P U s w) (v : Claims.IsVine s P h) (live : Claims.vineStateOf s P h ≠ 0 ∧ Claims.vineStateOf s P h ≠ 4)
    (cov : Covers P U (Claims.vineVa s h 0) 64) : Reads f P U s (Machine.liveVine f h) (vineIn s P h) w := by
  refine (r.readVine v cov).seen fun t a r' _ => ?_
  obtain ⟨free, dropping⟩ := live
  rw [vineIn_state, if_neg (show ¬ (_ = vineFree ∨ _ = vineDropping) from not_or.mpr ⟨free, dropping⟩)]
  exact .pure r' trivial

theorem StrandReach.openVine {b : Nat} (r : StrandReach f P U s w) (v : Claims.OpenVine s P h b) (cov : Covers P U (Claims.vineVa s h 0) 64) :
    Reads f P U s (Machine.liveVine f h) (vineIn s P h) w := r.liveVine v.vine (by rw [v.open_]; omega) cov

theorem StrandReach.readPool {b : Nat} (r : StrandReach f P U s w) (v : Claims.IsPool s P h b) (cov : Covers P U (Claims.vineVa s h 0) 64) :
    Reads f P U s (readPool f h) (some (poolIn s P h b)) w := by
  refine .get ?_
  rw [r.ctx_eq, if_neg (Nat.not_le.mpr v.listed)]
  refine (r.readEntry ⟨v.inside, cov⟩).seen fun t a r' _ => ?_
  rw [poolOf_vineIn v]
  exact .pure r' trivial

/-- An entry at or above the count of the table is no pool. -/
theorem StrandReach.readPool_above (r : StrandReach f P U s w) (above : ctxVtCount s s.st.ctx ≤ h) : Reads f P U s (Machine.readPool f h) none w := by
  refine .get ?_
  rw [r.ctx_eq, if_pos above]
  exact .pure r trivial

/-- An entry of the table, whatever it holds: a pool or none. -/
theorem StrandReach.readPool_any (r : StrandReach f P U s w) (e : EntryCovered s P U h) : ∃ p, Reads f P U s (Machine.readPool f h) p w := by
  by_cases above : ctxVtCount s s.st.ctx ≤ h
  · exact ⟨none, r.readPool_above above⟩
  · refine ⟨poolOf (vineIn s P h), .get ?_⟩
    rw [r.ctx_eq, if_neg above]
    exact (r.readEntry e).seen fun t a r' _ => .pure r' trivial

theorem Acts.poolIn {t : State} (a : Acts P s t []) (p b : Nat) : poolIn t P p b = poolIn s P p b := by
  unfold Machine.poolIn
  rw [a.vineWord_nil, a.vineWord_nil]

/-- The pool of a vine that has been read. -/
theorem StrandReach.vinePool {t : State} {b : Nat} (a : Acts P s t []) (r : StrandReach f P U t w) (v : Claims.OpenVine s P h b)
    (cov : Covers P U (Claims.vineVa s (Claims.poolNo s P h) 0) 64) :
    Reads f P U t (vinePool f (vineIn s P h)) (Machine.poolIn s P (Claims.poolNo s P h) b) w := by
  have read := r.readPool (a.isPool (.nil P _ _) v.pool) (by rw [a.vineVa]; exact cov)
  rw [a.poolIn] at read
  unfold Machine.vinePool
  rw [vineIn_pool]
  exact read.seen fun _ _ r' _ => .pure r' trivial

end

/-! ## Overlay maps -/

/-- Entry p of a vine's map as it counts: 0 at or above MAPLEN and where its RES field is not 0 (R136). -/
def mapWord (s : State) (P : TlbEntry) (d : Vine) (p : Nat) : Nat :=
  let e := Claims.at_ s P (d.overlay.toNat + 0x200 + 8 * p) 8
  if d.mapLen ≤ p ∨ e / 2 ^ 32 % 2 ^ 30 ≠ 0 then 0 else e

/-- The vine's window and map lie in the page. -/
def MapInside (P : TlbEntry) (d : Vine) : Prop := Claims.Inside P d.overlay.toNat (512 + 8 * d.mapLen)

section
variable {f : VineFor} {P : TlbEntry} {U : Finset Nat} {s : State} {w p : Nat} {d : Vine}

theorem StrandReach.map_toNat (r : StrandReach f P U s w) (m : MapInside P d) (hp : p < d.mapLen) :
    (mapVa d p).toNat = d.overlay.toNat + 0x200 + 8 * p := by
  obtain ⟨low, high⟩ := m
  obtain ⟨_, _, _, top⟩ := r.place
  unfold mapVa
  rw [toNat_add_ofNat (by omega)]
  omega

theorem StrandReach.map_inside (r : StrandReach f P U s w) (m : MapInside P d) (hp : p < d.mapLen) : Claims.Inside P (mapVa d p).toNat 8 := by
  rw [r.map_toNat m hp]
  obtain ⟨low, high⟩ := m
  exact ⟨by omega, by omega⟩

theorem StrandReach.mapEntry (r : StrandReach f P U s w) (m : MapInside P d)
    (cov : p < d.mapLen → Covers P U (d.overlay.toNat + 0x200 + 8 * p) 8) : Reads f P U s (mapEntry f d p) (mapWord s P d p) w := by
  unfold Machine.mapEntry mapWord
  by_cases above : d.mapLen ≤ p
  · rw [if_pos above, if_pos (.inl above)]
    exact .pure r trivial
  · have below := Nat.lt_of_not_le above
    have read := r.read (r.map_inside m below) (by omega) (by rw [r.map_toNat m below]; exact cov below)
    rw [r.map_toNat m below] at read
    rw [if_neg above]
    refine read.seen fun t a r' _ => ?_
    generalize Claims.at_ s P (d.overlay.toNat + 0x200 + 8 * p) 8 = e
    by_cases res : e / 2 ^ 32 % 2 ^ 30 = 0
    · rw [if_pos res, if_neg (not_or.mpr ⟨above, not_not.mpr res⟩)]
      exact .pure r' trivial
    · rw [if_neg res, if_pos (.inr res)]
      exact .pure r' trivial

end

section
variable {s : State} {P : TlbEntry} {h p g : Nat}

theorem mapInside_vineIn (v : Claims.IsVine s P h) (inside : Claims.Inside P (Claims.overlay s P h) (512 + 8 * Claims.mapLen s P h)) :
    MapInside P (vineIn s P h) := by
  unfold MapInside
  rwa [vineIn_overlay v, vineIn_mapLen]

theorem OpenVine_mapInside {b : Nat} (v : Claims.OpenVine s P h b) : MapInside P (vineIn s P h) := mapInside_vineIn v.vine v.window

theorem mapWord_of_mapped (v : Claims.IsVine s P h) (m : Claims.mapped s P h p = some g) :
    p < (vineIn s P h).mapLen ∧ mapValid (mapWord s P (vineIn s P h) p) = true ∧ mapPage (mapWord s P (vineIn s P h) p) = g := by
  have lt := at_lt s P (Claims.overlay s P h + 0x200 + 8 * p)
  unfold Claims.mapped at m
  dsimp only at m
  unfold mapWord
  rw [vineIn_overlay v, vineIn_mapLen]
  generalize Claims.at_ s P (Claims.overlay s P h + 0x200 + 8 * p) 8 = e at m lt ⊢
  split at m
  · next valid =>
    obtain ⟨below, set, res⟩ := valid
    have page := Option.some.inj m
    dsimp only
    rw [if_neg (by omega)]
    exact ⟨below, decide_eq_true (by omega), page⟩
  · cases m

theorem mapWord_of_unmapped (v : Claims.IsVine s P h) (m : Claims.mapped s P h p = none) : mapValid (mapWord s P (vineIn s P h) p) = false := by
  have lt := at_lt s P (Claims.overlay s P h + 0x200 + 8 * p)
  unfold Claims.mapped at m
  dsimp only at m
  unfold mapWord
  rw [vineIn_overlay v, vineIn_mapLen]
  generalize Claims.at_ s P (Claims.overlay s P h + 0x200 + 8 * p) 8 = e at m lt ⊢
  split at m
  · cases m
  · next none =>
    dsimp only
    split
    · rfl
    · exact decide_eq_false (by omega)

end

/-! ## Commit windows -/

section
variable {f : VineFor} {P : TlbEntry} {U : Finset Nat} {s : State} {w : Nat} {d : Vine}

/-- Two numbers side by side. -/
theorem at_add (s : State) (P : TlbEntry) {va : Nat} (low : P.vpage ≤ va) (n k : Nat) :
    Claims.at_ s P va (n + k) = Claims.at_ s P va n + 256 ^ n * Claims.at_ s P (va + n) k := by
  unfold Claims.at_
  rw [number_eq, number_eq, number_eq, show P.base + (va + n - P.vpage) = P.base + (va - P.vpage) + n by omega]
  have front := take_drop_memRead s.mem (P.base + (va - P.vpage)) (k := 0) (j := n) (n := n + k) (by omega)
  have back := take_drop_memRead s.mem (P.base + (va - P.vpage)) (k := n) (j := k) (n := n + k) le_rfl
  rw [List.drop_zero, Nat.add_zero] at front
  rw [List.take_of_length_le (by rw [List.length_drop, length_memRead]; omega)] at back
  rw [← List.take_append_drop n (memRead s.mem (P.base + (va - P.vpage)) (n + k)), bytesToNat_append, front, back, length_memRead]

/-- The window's dwords from k on, n of them. -/
theorem StrandReach.readWindow (r : StrandReach f P U s w) {n k : Nat} (inside : Claims.Inside P (d.overlay.toNat + 8 * k) (8 * n))
    (cov : Covers P U (d.overlay.toNat + 8 * k) (8 * n)) :
    Reads f P U s (readWindow f d n k) (Claims.at_ s P (d.overlay.toNat + 8 * k) (8 * n)) w := by
  induction n generalizing s k with
  | zero => exact .pure r trivial
  | succ n ih =>
    obtain ⟨low, high⟩ := inside
    obtain ⟨_, _, _, top⟩ := r.place
    have place : (d.overlay + BitVec.ofNat 48 (8 * k)).toNat = d.overlay.toNat + 8 * k := toNat_add_ofNat (by omega)
    have read := r.read (va := d.overlay + BitVec.ofNat 48 (8 * k)) (k := 8) (by rw [place]; exact ⟨by omega, by omega⟩) (by omega)
      (by rw [place]; exact cov.sub (by omega) (by omega))
    rw [place] at read
    refine read.seen fun t a r' _ => ?_
    have rest := ih r' (k := k + 1) ⟨by omega, by omega⟩ (cov.sub (by omega) (by omega))
    refine rest.seen fun u b r'' _ => ?_
    rw [show 8 * (n + 1) = 8 + 8 * n by omega, at_add s P low, a.at_nil, Nat.mul_comm (256 ^ 8),
      show d.overlay.toNat + 8 * (k + 1) = d.overlay.toNat + 8 * k + 8 by omega]
    exact .pure r'' trivial

theorem StrandReach.window (r : StrandReach f P U s w) (inside : Claims.Inside P d.overlay.toNat 512) (cov : Covers P U d.overlay.toNat 512) :
    Reads f P U s (window f d) (Claims.at_ s P d.overlay.toNat 512) w :=
  r.readWindow (k := 0) (n := 64) inside cov

end

/-- Dword q of a number of bytes. -/
theorem at_dword (s : State) (P : TlbEntry) {va n q : Nat} (low : P.vpage ≤ va) (fits : 8 * q + 8 ≤ n) :
    Claims.at_ s P (va + 8 * q) 8 = Claims.at_ s P va n / 2 ^ (64 * q) % 2 ^ 64 := by
  unfold Claims.at_
  have part := take_drop_memRead s.mem (P.base + (va - P.vpage)) (k := 8 * q) (j := 8) (n := n) fits
  rw [number_eq, number_eq, show P.base + (va + 8 * q - P.vpage) = P.base + (va - P.vpage) + 8 * q by omega, ← part,
    bytesToNat_take_drop _ _ _ (by rw [length_memRead]; omega),
    show 256 ^ (8 * q) = 2 ^ (64 * q) by rw [show 256 = 2 ^ 8 by rfl, ← Nat.pow_mul]; congr 1; omega]
  rfl

theorem slotBit_eq (w j : Nat) : slotBit w j = w.testBit (j % 4096) := by
  rw [Nat.testBit_eq_decide_div_mod_eq]
  rfl

/-- The bit of a slot in the window is what the window says. -/
theorem committed_eq {s : State} {P : TlbEntry} {h : Nat} (low : P.vpage ≤ Claims.overlay s P h) (j : Nat) :
    Claims.committed s P h j = slotBit (Claims.at_ s P (Claims.overlay s P h) 512) j := by
  unfold Claims.committed
  rw [Nat.mul_comm _ 8, at_dword s P low (n := 512) (by omega), slotBit_eq, ← Nat.testBit_eq_decide_div_mod_eq, Nat.testBit_mod_two_pow,
    Nat.testBit_div_two_pow]
  have place : j % 64 + 64 * (j % 4096 / 64) = j % 4096 := by omega
  rw [place, decide_eq_true (Nat.mod_lt j (by omega)), Bool.true_and]

end Sys2Proof.Machine
end
section
/-! SUPPORT. Tokens: the page of one through a vine's own map or its parents', and a load of its bytes (R139, R142, R143). -/

namespace Sys2Proof.Machine

/-! ## The chain of parents -/

/-- The vine itself, its parent, the parent of that, and so on. -/
def ancestor (s : State) (P : TlbEntry) : Nat → Nat → Nat
  | h, 0 => h
  | h, j + 1 => ancestor s P (Claims.vineWord s P h 1 / 2 ^ 32) j

/-- What a resolution by fuel n may read: the descriptors of the chain and an entry of each of their maps. -/
def ChainCovered (s : State) (P : TlbEntry) (U : Finset Nat) (n h p : Nat) : Prop :=
  ∀ j < n, Covers P U (Claims.vineVa s (ancestor s P h j) 0) 64 ∧ Covers P U (Claims.overlay s P (ancestor s P h j) + 0x200 + 8 * p) 8

theorem ChainCovered.up {s : State} {P : TlbEntry} {U : Finset Nat} {n h p : Nat} (c : ChainCovered s P U (n + 1) h p) :
    ChainCovered s P U n (Claims.vineWord s P h 1 / 2 ^ 32) p := fun j hj => c (j + 1) (by omega)

/-- What has been written lies outside the descriptor and the map of every vine. -/
def VinesClear (s : State) (P : TlbEntry) (l : List (Nat × Nat)) : Prop :=
  ∀ a, Claims.IsVine s P a → Clear P l (Claims.vineVa s a 0) 64 ∧
    (Claims.Inside P (Claims.overlay s P a) (512 + 8 * Claims.mapLen s P a) → Clear P l (Claims.overlay s P a) (512 + 8 * Claims.mapLen s P a))

theorem VinesClear.nil (s : State) (P : TlbEntry) : VinesClear s P [] := fun _ _ => ⟨.nil P _ _, fun _ => .nil P _ _⟩

theorem Acts.mapWord {P : TlbEntry} {s t : State} {l : List (Nat × Nat)} {d : Vine} (a : Acts P s t l)
    (c : Clear P l d.overlay.toNat (512 + 8 * d.mapLen)) (p : Nat) : mapWord t P d p = mapWord s P d p := by
  unfold Machine.mapWord
  dsimp only
  by_cases above : d.mapLen ≤ p
  · rw [if_pos (.inl above), if_pos (.inl above)]
  · rw [a.at_clear (c.sub (by omega) (by omega))]

section
variable {f : VineFor} {P : TlbEntry} {U : Finset Nat} {s t : State} {w n h i g : Nat} {l : List (Nat × Nat)}

/-- A resolution of the statements is one of the model, while nothing that it reads has been written. -/
theorem StrandReach.resolve (res : Claims.Resolves s P n h i g) (a : Acts P s t l) (r : StrandReach f P U t w) (clear : VinesClear s P l)
    (v : Claims.IsVine s P h) (inside : Claims.Inside P (Claims.overlay s P h) (512 + 8 * Claims.mapLen s P h))
    (cov : ChainCovered s P U n h (i / 16)) (name : Nat) : Reads f P U t (resolve f name i n (vineIn s P h)) g w := by
  induction res generalizing t with
  | @own n h i g m =>
    have entry (r : StrandReach f P U t w) := r.mapEntry (mapInside_vineIn v inside) (p := i / 16) fun _ => by
      rw [vineIn_overlay v]
      exact (cov 0 (by omega)).2
    obtain ⟨_, valid, page⟩ := mapWord_of_mapped v m
    have same := a.mapWord (d := vineIn s P h) (by rw [vineIn_overlay v, vineIn_mapLen]; exact (clear h v).2 inside) (i / 16)
    refine (entry r).seen fun u b r' _ => ?_
    rw [same, if_pos valid, page]
    exact .pure r' trivial
  | @up n h i g m parent below pv pinside _ ih =>
    have entry (r : StrandReach f P U t w) := r.mapEntry (mapInside_vineIn v inside) (p := i / 16) fun _ => by
      rw [vineIn_overlay v]
      exact (cov 0 (by omega)).2
    have same := a.mapWord (d := vineIn s P h) (by rw [vineIn_overlay v, vineIn_mapLen]; exact (clear h v).2 inside) (i / 16)
    refine (entry r).seen fun u b r' _ => ?_
    rw [same, if_neg (by rw [mapWord_of_unmapped v m]; decide), vineIn_parent, vineIn_forkLen,
      if_neg (show ¬ (_ = noParent ∨ _) from not_or.mpr ⟨parent, Nat.not_le.mpr below⟩)]
    have a' := a.trans (b.widen (.nil l))
    have pclear := (clear _ pv).1
    have read := r'.readVine (a'.isVine pclear pv) (by rw [a'.vineVa]; exact (cov 1 (by cases ‹Claims.Resolves s P n _ _ _› <;> omega)).1)
    rw [a'.vineIn pclear] at read
    refine read.seen fun u' b' r'' _ => ?_
    exact ih (a'.trans (b'.widen (.nil l))) r'' pv pinside cov.up

end

/-! ## Addresses -/

section
variable {f : VineFor} {P : TlbEntry} {U : Finset Nat} {s : State} {w h b g i o n : Nat}

theorem StrandReach.token_toNat (r : StrandReach f P U s w) (inside : Claims.Inside P (Claims.tokenAt s P h b g i o) n) (hn : 0 < n) :
    (tokenVa (poolIn s P (Claims.poolNo s P h) b) g i o).toNat = Claims.tokenAt s P h b g i o := by
  obtain ⟨low, high⟩ := inside
  obtain ⟨_, _, _, top⟩ := r.place
  unfold Claims.tokenAt at high ⊢
  unfold tokenVa poolIn
  dsimp only
  rw [Nat.mul_comm g 16, Nat.add_assoc]
  exact offset_toNat (by omega)

theorem on_aligned {va : VAddr} (h : va.toNat % n = 0) (s : State) : Act.on (aligned va n) s = (.ok (), s) := by
  unfold aligned
  rw [if_neg (not_not.mpr h)]
  rfl

/-- The page serves the focused strand's own accesses. -/
theorem StrandReach.on_translate (r : StrandReach f P U s w) {va : VAddr} (inside : Claims.Inside P va.toNat n) (hn : 0 < n) (k : Access) :
    Act.on (translate k va) s = (.ok P, s) := by
  obtain ⟨read, write, user, _, _, poison⟩ := r.allowed
  have maps := maps_of_inside inside hn
  rw [r.ctx] at maps
  have found : translateAt (.strand s.cur.val) (curCore s) s.st.ctx va.toNat s = (.found P, s) := by
    have first : [P].find? (fun e => e.maps s.st.ctx va.toNat) = some P := List.find?_cons_of_pos maps
    unfold translateAt
    rw [r.coreTlb, first]
    simp [useTlb, poison]
  have page : Act.on (strandPage s.st.ctx va) s = (.ok P, s) := by
    unfold strandPage pageFrom
    rw [on_bind_ok (on_lift _ s), found]
    rfl
  unfold translate
  rw [on_bind_ok (on_get s), on_bind_ok page, on_bind_ok (on_get s), if_pos (by simp [pageAllows, read, write, user])]
  rfl

theorem StrandReach.on_homeGuard (r : StrandReach f P U s w) (va : VAddr) (pa : Nat) : Act.on (homeGuard va pa) s = (.ok (), s) := by
  unfold homeGuard
  rw [on_bind_ok (on_get s), homeInReset_up r.up]
  rfl

/-- A vine read of bytes of the page (R142). -/
theorem StrandReach.vineLoad (r : StrandReach f P U s w) {va : VAddr} (inside : Claims.Inside P va.toNat n) (hn : 0 < n)
    (cov : Covers P U va.toNat n) : Reads f P U s (vineLoad va n) (Claims.at_ s P va.toNat n) w := by
  obtain ⟨_, _, _, _, tier, _⟩ := r.allowed
  have line : isLine (P.key va.toNat) = true := decide_eq_true (.inl (by have := r.key_lt inside; unfold Claims.keyAt at this; unfold TlbEntry.key; omega))
  have low : lineOf (Claims.keyAt P va.toNat) < Config.compBase :=
    (Nat.div_mul_le_self _ 128).trans_lt (by have := r.key_low inside; omega)
  obtain ⟨looked, spare⟩ := r.spare.read (cov.first hn) low (curDie s) P.dedup (curDomain s)
  have guard : Act.on (readGuard va (P.key va.toNat) n) s = (.ok (), s) := by
    unfold readGuard readPoisoned
    rw [on_bind_ok (on_get s), poisonedAt_errorFree r.free, rdcPoisoned_errorFree r.free, Bool.and_false]
    rfl
  have bytes : Act.on (readAtHome P va (P.key va.toNat) n) s = (.ok (memRead s.mem (P.key va.toNat) n),
      homeRead s (lineOf (P.key va.toNat)) (curDie s) P.dedup (curDomain s)) := by
    unfold readAtHome
    rw [on_bind_ok (r.on_homeGuard _ _), on_bind_ok guard, if_pos line, on_bind_ok (on_apply _ s), on_bind_ok (on_get _), on_pure]
    exact congrArg (fun m => ((Except.ok (memRead m (P.key va.toNat) n) : Except Stop _), _)) looked.mem
  refine ⟨_, ?_, looked.acts, r.looked looked spare, trivial⟩
  unfold Machine.vineLoad
  rw [on_bind_ok (r.on_translate inside hn .load), if_neg (by rw [tier]; decide), on_bind_ok bytes, on_pure, ← number_eq]
  rfl

theorem StrandReach.acquire (r : StrandReach f P U s w) {c : Scope} (wide : c ≠ .cr) : Reads f P U s (acquire c) () w :=
  have changed := emptyL1_changed s
  ⟨_, on_acquire wide s, changed.acts, changed.reach r, trivial⟩

end

theorem wideScope_ne (c : WideScope) : wideScope c ≠ .cr := by cases c <;> decide

/-! ## The end of a scalar form -/

/-- What the vine structures are read from is the same. -/
structure SameStructures (s t : State) : Prop where
  mem   : t.mem = s.mem
  table : t.lp.ctxTable = s.lp.ctxTable
  ctx   : t.st.ctx = s.st.ctx

section
variable {s t : State} (e : SameStructures s t) (P : TlbEntry)
include e

theorem SameStructures.vineVa (h k : Nat) : Claims.vineVa t h k = Claims.vineVa s h k := by
  unfold Claims.vineVa ctxVtBase descWord descAddr
  rw [e.mem, e.table, e.ctx]

theorem SameStructures.vineWord (h k : Nat) : Claims.vineWord t P h k = Claims.vineWord s P h k := by
  unfold Claims.vineWord
  rw [e.vineVa, at_congr e.mem]

end

section
variable {P : TlbEntry} {s t : State} {l : List (Nat × Nat)} {a : Act Unit} {d : XReg} {v : Word}

/-- A scalar form whose work is done. -/
theorem scalar_retires (run : Act.on a s = (.ok (), t)) (acts : Acts P s t l) :
    ∃ u, scalar 4 a s = .next u ∧ u.st = (s.retire 4).st ∧ SameStructures t u :=
  ⟨_, scalar_ok run, by rw [State.retire, State.jump, acts.st, acts.cycle]; rfl, rfl, rfl, rfl⟩

/-- A scalar form that writes x[d] last. -/
theorem scalar_writes (run : Act.on a s = (.ok (), t.writeX d v)) (acts : Acts P s t l) :
    ∃ u, scalar 4 a s = .next u ∧ u.st = ((s.writeX d v).retire 4).st ∧ SameStructures t u := by
  refine ⟨_, scalar_ok run, retire_writeX_st acts.st acts.cycle d v 4, writeX_mem _ _ _, congrArg _ (writeX_lp _ _ _), ?_⟩
  show (t.writeX d v).st.ctx = t.st.ctx
  unfold State.writeX
  split <;> rfl

theorem SameStructures.outside {u : State} (e : SameStructures t u) (acts : Acts P s t l) : Claims.OutsideSame s u P l := fun x outside => by
  rw [e.mem]
  exact acts.mem x outside

theorem SameStructures.sameMem {u : State} (e : SameStructures t u) (acts : Acts P s t []) : Claims.SameMem s u := fun x => by
  rw [e.mem]
  exact acts.sameMem x

/-- A scalar form that only reads, and answers in x[d]. -/
theorem scalar_answers (acts : Acts P s t []) (run : Act.on a s = (.ok (), t.writeX d v)) :
    ∃ u, scalar 4 a s = .next u ∧ Claims.SameMem s u ∧ u.st = ((s.writeX d v).retire 4).st := by
  obtain ⟨u, step, st, same⟩ := scalar_writes run acts
  exact ⟨u, step, same.sameMem acts, st⟩

/-- A scalar form that only reads, and parks. -/
theorem scalar_parks {p : BitVec 4} {k : WaitKey} (acts : Acts P s t []) (run : Act.on a s = (.error (.park p k), t)) :
    ∃ u, scalar 4 a s = .next u ∧ Claims.SameMem s u ∧ u.st = (parkOn s p k).st := by
  have gone : strandGone s t = false := by
    unfold strandGone
    rw [acts.st, Bool.and_not_self]
  refine ⟨_, scalar_park run gone, acts.sameMem, ?_⟩
  unfold parkOn
  rw [acts.st, acts.cycle]

theorem strandGone_of_st (st : t.st = s.st) : strandGone s t = false := by
  unfold strandGone
  rw [st, Bool.and_not_self]

theorem enterTrap_st (viq : s.st.viq = []) (st : t.st = s.st) (cycle : t.cycle = s.cycle) (cause : BitVec 8) (val : Word) (pc : VAddr) (resume : Word) :
    (enterTrap cause val pc resume t).st = (enterTrap cause val pc resume s).st := by
  have none (u : State) (h : u.st = s.st) : ¬ (u.st.priv = true ∧ u.st.viq ≠ []) := fun e => e.2 (by rw [h]; exact viq)
  have clock (u : State) : (forgetWaits u.cur.val u).cycle = u.cycle := rfl
  unfold enterTrap
  dsimp only
  rw [if_neg (none t st), if_neg (none s rfl)]
  simp only [st, clock, cycle]

/-- A scalar form that only reads, and traps. -/
theorem scalar_traps {c : BitVec 8} (run : Act.on a s = (.error (.trap c v), t)) (acts : Acts P s t []) (viq : s.st.viq = []) :
    ∃ u, scalar 4 a s = .next u ∧ Claims.SameMem s u ∧ u.st = (enterTrap c v s.st.pc s.st.csr.vstart s).st := by
  have viq' : t.st.viq = [] := by rw [acts.st]; exact viq
  refine ⟨_, scalar_trap run (strandGone_of_st acts.st), fun x => ?_, ?_⟩
  · unfold trapFrom scalarTrap
    rw [if_neg (not_not.mpr viq'), if_neg (not_not.mpr viq')]
    unfold enterTrap
    dsimp only
    rw [if_neg fun e => e.2 viq']
    exact acts.sameMem x
  · unfold trapFrom scalarTrap
    rw [if_neg (not_not.mpr viq'), if_neg (not_not.mpr viq'), enterTrap_st viq acts.st acts.cycle, acts.st]

end

end Sys2Proof.Machine
end
section
/-! O20: SQLEN, SQWAIT and SQLD on a live vine (R142, R143). -/

namespace Sys2Proof.Machine

theorem exec_sqlen (c : WideScope) (d h : XReg) (s : State) : exec (.sqlen c d h) s = execSqlen c d h s := rfl
theorem exec_sqwait (c : WideScope) (d h n : XReg) (s : State) : exec (.sqwait c d h n) s = execSqwait c d h n s := rfl
theorem exec_sqld (z : Sz) (d h i : XReg) (s : State) : exec (.sqld z d h i) s = execSqld z d h i s := rfl

theorem handleOf_eq (w : Word) : handleOf w = w.toNat % 2 ^ 32 := by rw [handleOf, bits, Nat.pow_zero, Nat.div_one]
theorem tokenOf_eq (w : Word) : tokenOf w = w.toNat % 2 ^ 32 := by rw [tokenOf, bits, Nat.pow_zero, Nat.div_one]
theorem offsetOf_eq (w : Word) : offsetOf w = w.toNat / 2 ^ 32 % 2 ^ 16 := rfl

theorem szBytes_eq (z : Sz) : szBytes z = Claims.stWidth z := by cases z <;> rfl
theorem stWidth_pos (z : Sz) : 0 < Claims.stWidth z ∧ Claims.stWidth z ≤ 8 := by cases z <;> decide

/-- The ranges of a chain: the descriptors, and of each map the k bytes from o on. -/
def chainRanges (s : State) (P : TlbEntry) (n h o k : Nat) : List (Nat × Nat) :=
  (List.range n).flatMap fun j => [(Claims.vineVa s (ancestor s P h j) 0, 64), (Claims.overlay s P (ancestor s P h j) + o, k)]

theorem chainCovered {s : State} {P : TlbEntry} {n h o k p : Nat} {rs : List (Nat × Nat)} (sub : chainRanges s P n h o k ⊆ rs) (low : o ≤ 0x200 + 8 * p)
    (high : 0x200 + 8 * p + 8 ≤ o + k) : ChainCovered s P (footprint P rs) n h p := fun j hj =>
  have mem {r : Nat × Nat} (hr : r ∈ [(Claims.vineVa s (ancestor s P h j) 0, 64), (Claims.overlay s P (ancestor s P h j) + o, k)]) : r ∈ rs :=
    sub (List.mem_flatMap.mpr ⟨j, List.mem_range.mpr hj, hr⟩)
  ⟨covers_footprint (mem List.mem_cons_self), (covers_footprint (mem (List.mem_cons_of_mem _ List.mem_cons_self))).sub (by omega) (by omega)⟩

theorem chainRanges_lines (s : State) (P : TlbEntry) (n h o k : Nat) :
    ((chainRanges s P n h o k).map fun r => r.2 / 128 + 2).sum = (k / 128 + 4) * n := by
  unfold chainRanges
  induction n with
  | zero => rfl
  | succ n ih =>
    rw [List.range_succ, List.flatMap_append, List.map_append, List.sum_append, ih, List.flatMap_singleton, Nat.mul_succ]
    show _ + (64 / 128 + 2 + (k / 128 + 2 + 0)) = _
    omega

/-- What the load of a token may read. -/
def tokenReads (s : State) (P : TlbEntry) (h b g i o n : Nat) : List (Nat × Nat) :=
  (Claims.vineVa s h 0, 64) :: (Claims.vineVa s (Claims.poolNo s P h) 0, 64) :: (Claims.tokenAt s P h b g i o, n) ::
    chainRanges s P 5 h (0x200 + 8 * (i / 16)) 8

theorem tokenReads_few (s : State) (P : TlbEntry) (h b g i o : Nat) {n : Nat} (small : n ≤ 8) :
    (footprint P (tokenReads s P h b g i o n)).card + 0 ≤ 8192 := by
  have lines := card_footprint P (tokenReads s P h b g i o n)
  unfold tokenReads at lines ⊢
  rw [List.map_cons, List.map_cons, List.map_cons, List.sum_cons, List.sum_cons, List.sum_cons, chainRanges_lines] at lines
  omega

section
variable {f : VineFor} {P : TlbEntry} {U : Finset Nat} {s : State} {w h b i o sz : Nat} (r : StrandReach f P U s w) (v : Claims.OpenVine s P h b)
  (desc : Covers P U (Claims.vineVa s h 0) 64) (pool : Covers P U (Claims.vineVa s (Claims.poolNo s P h) 0) 64)
include r v desc pool

/-- At or above CMTLEN there is no token to load. -/
theorem StrandReach.loadToken_above (above : Claims.cmtLen s P h ≤ i) : Reads f P U s (loadToken h i o sz false) (i, none) w := by
  refine .get ?_
  rw [r.self]
  refine (r.openVine v desc).seen fun t a r' _ => ?_
  refine (StrandReach.vinePool a r' v pool).seen fun u a' r'' _ => ?_
  dsimp only
  rw [if_neg Bool.false_ne_true, vineIn_cmtLen, if_pos above]
  exact .pure r'' trivial

/-- A committed token lies where its page does. -/
theorem StrandReach.loadToken {g : Nat} (below : i < Claims.cmtLen s P h) (res : Claims.Resolves s P 5 h i g) (chain : ChainCovered s P U 5 h (i / 16))
    (fits : o + sz ≤ b) (line : Claims.tokenAt s P h b g i o % sz = 0) (inside : Claims.Inside P (Claims.tokenAt s P h b g i o) sz) (hz : 0 < sz) :
    Reads f P U s (loadToken h i o sz false) (i, some (tokenVa (poolIn s P (Claims.poolNo s P h) b) g i o)) w := by
  have place := r.token_toNat inside hz
  refine .get ?_
  rw [r.self]
  refine (r.openVine v desc).seen fun t a r' _ => ?_
  refine (StrandReach.vinePool a r' v pool).seen fun u a' r'' _ => ?_
  have tokb : (poolIn s P (Claims.poolNo s P h) b).tokb = b := rfl
  dsimp only
  rw [if_neg Bool.false_ne_true, if_neg Bool.false_ne_true, vineIn_cmtLen, tokb, if_neg (Nat.not_le.mpr below),
    if_neg fun e => absurd fits (Nat.not_le.mpr e.2)]
  refine (r''.resolve res (a.trans a') (.nil s P) v.vine v.window chain h).seen fun u' _ r3 _ => ?_
  rw [if_neg (Nat.not_lt.mpr fits)]
  refine ⟨u', ?_, .refl P u', r3, trivial⟩
  exact on_bind_ok (on_aligned (by rw [place]; exact line) u')

end

section
variable {P : TlbEntry} {s : State} {c : WideScope} {d x y : XReg} {z : Sz} {b h n o : Nat} {U : Finset Nat} {w : Nat}
  (hx : handleOf (s.readX x) = h) (hn : tokenOf (s.readX y) = n) (ho : offsetOf (s.readX y) = o)
  (r : StrandReach (vineSelf s) P U s w) (v : Claims.OpenVine s P h b) (desc : Covers P U (Claims.vineVa s h 0) 64)
include hx r v desc

theorem exec_sqlen_answers : ∃ t, exec (.sqlen c d x) s = .next t ∧ Claims.SameMem s t ∧
    t.st = ((s.writeX d (w64 (Claims.cmtLen s P h))).retire 4).st := by
  obtain ⟨t, read, a, r', _⟩ := r.openVine v desc
  obtain ⟨u, take, a', _, _⟩ := r'.acquire (wideScope_ne c)
  rw [exec_sqlen, ← vineIn_cmtLen]
  unfold execSqlen
  rw [hx]
  exact scalar_answers (a.trans a') ((on_bind_ok read).trans (on_bind_ok take))

include hn

theorem exec_sqwait_answers (reached : n ≤ Claims.cmtLen s P h) : ∃ t, exec (.sqwait c d x y) s = .next t ∧ Claims.SameMem s t ∧
    t.st = ((s.writeX d (w64 (Claims.cmtLen s P h))).retire 4).st := by
  obtain ⟨t, read, a, r', _⟩ := r.openVine v desc
  obtain ⟨u, take, a', _, _⟩ := r'.acquire (wideScope_ne c)
  unfold tokenOf at hn
  rw [← vineIn_cmtLen] at reached ⊢
  rw [exec_sqwait]
  unfold execSqwait
  rw [hx, hn]
  refine scalar_answers (a.trans a') ((on_bind_ok read).trans ?_)
  rw [if_neg (Nat.not_lt.mpr reached)]
  exact on_bind_ok take

theorem exec_sqwait_parks (short : Claims.cmtLen s P h < n) : ∃ t, exec (.sqwait c d x y) s = .next t ∧ Claims.SameMem s t ∧
    t.st = (parkOn s 6 (.vine (BitVec.ofNat 32 h))).st := by
  obtain ⟨t, read, a, _, _⟩ := r.openVine v desc
  unfold tokenOf at hn
  rw [← vineIn_cmtLen] at short
  rw [exec_sqwait]
  unfold execSqwait
  rw [hx, hn]
  refine scalar_parks a ((on_bind_ok read).trans ?_)
  rw [if_pos short]
  rfl

variable (pool : Covers P U (Claims.vineVa s (Claims.poolNo s P h) 0) 64)
include pool

theorem exec_sqld_traps (above : Claims.cmtLen s P h ≤ n) (viq : s.st.viq = []) : ∃ t, exec (.sqld z d x y) s = .next t ∧ Claims.SameMem s t ∧
    t.st = (enterTrap 0x08 (w64 n) s.st.pc s.st.csr.vstart s).st := by
  obtain ⟨t, read, a, _, _⟩ := r.loadToken_above v desc pool above
  rw [exec_sqld]
  unfold execSqld
  rw [hx, hn]
  exact scalar_traps ((on_bind_ok read).trans rfl) a viq

include ho

theorem exec_sqld_answers {g : Nat} (below : n < Claims.cmtLen s P h) (res : Claims.Resolves s P 5 h n g) (chain : ChainCovered s P U 5 h (n / 16))
    (fits : o + Claims.stWidth z ≤ b) (line : Claims.tokenAt s P h b g n o % Claims.stWidth z = 0)
    (inside : Claims.Inside P (Claims.tokenAt s P h b g n o) (Claims.stWidth z))
    (token : Covers P U (Claims.tokenAt s P h b g n o) (Claims.stWidth z)) : ∃ t, exec (.sqld z d x y) s = .next t ∧ Claims.SameMem s t ∧
    t.st = ((s.writeX d (w64 (Claims.at_ s P (Claims.tokenAt s P h b g n o) (Claims.stWidth z)))).retire 4).st := by
  obtain ⟨pos, _⟩ := stWidth_pos z
  have place := r.token_toNat inside pos
  obtain ⟨t, read, a, r', _⟩ := r.loadToken v desc pool below res chain fits line inside pos
  obtain ⟨u, load, a', _, _⟩ := r'.vineLoad (by rw [place]; exact inside) pos (by rw [place]; exact token)
  rw [place, a.at_nil] at load
  rw [exec_sqld]
  unfold execSqld
  rw [hx, hn, ho, szBytes_eq]
  exact scalar_answers (a.trans a') ((on_bind_ok read).trans (on_bind_ok load))

end

/-- Settles O20: the descriptor is read, and for a token the pool and the chain of maps. -/
theorem vineReads : Obligations.VineReads := by
  unfold Obligations.VineReads
  intro s P c d x y z b h n o C space v
  have hx : handleOf (s.readX x) = h := handleOf_eq _
  have hn : tokenOf (s.readX y) = n := tokenOf_eq _
  have ho : offsetOf (s.readX y) = o := offsetOf_eq _
  have r (g : Nat) := StrandReach.of_space space (tokenReads_few s P h b g n o (stWidth_pos z).2)
  have desc (g : Nat) : Covers P (footprint P (tokenReads s P h b g n o (Claims.stWidth z))) (Claims.vineVa s h 0) 64 :=
    covers_footprint List.mem_cons_self
  have pool (g : Nat) : Covers P (footprint P (tokenReads s P h b g n o (Claims.stWidth z))) (Claims.vineVa s (Claims.poolNo s P h) 0) 64 :=
    covers_footprint (List.mem_cons_of_mem _ List.mem_cons_self)
  refine ⟨exec_sqlen_answers hx (r 0) v (desc 0), exec_sqwait_answers hx hn (r 0) v (desc 0), exec_sqwait_parks hx hn (r 0) v (desc 0),
    exec_sqld_traps hx hn (r 0) v (desc 0) (pool 0), fun g below res fits line inside => ?_⟩
  refine exec_sqld_answers hx hn ho (r g) v (desc g) (pool g) below res (chainCovered (fun q hq => ?_) le_rfl le_rfl) fits line inside
    (covers_footprint (List.mem_cons_of_mem _ (List.mem_cons_of_mem _ List.mem_cons_self)))
  exact List.mem_cons_of_mem _ (List.mem_cons_of_mem _ (List.mem_cons_of_mem _ hq))

end Sys2Proof.Machine
end
section
/-! SUPPORT. Writes of the focused strand to the vine structures: words that change, a descriptor, the commit window and UNC bits (R134, R136,
R141); the pins that come due and the strands that wake (R150, R184). -/

namespace Sys2Proof.Machine

/-! ## Changes beside the vine structures -/

/-- From s to t nothing has changed that the vine structures, the way to them, the focused strand or the waiting records are read from. -/
structure Aside (s t : State) : Prop where
  st     : t.st = s.st
  cycle  : t.cycle = s.cycle
  cur    : t.cur = s.cur
  rel    : t.waitRel = s.waitRel
  table  : t.lp.ctxTable = s.lp.ctxTable
  mem    : t.mem = s.mem
  cores  : t.cores = s.cores
  lines  : t.lines = s.lines
  poison : t.poison = s.poison
  daleel : t.daleel = s.daleel
  watch  : t.watches = s.watches
  broken : t.broken = s.broken

theorem Aside.refl (s : State) : Aside s s := ⟨rfl, rfl, rfl, rfl, rfl, rfl, rfl, rfl, rfl, rfl, rfl, rfl⟩

theorem Aside.trans {s t u : State} (a : Aside s t) (b : Aside t u) : Aside s u :=
  ⟨b.st.trans a.st, b.cycle.trans a.cycle, b.cur.trans a.cur, b.rel.trans a.rel, b.table.trans a.table, b.mem.trans a.mem, b.cores.trans a.cores,
    b.lines.trans a.lines, b.poison.trans a.poison, b.daleel.trans a.daleel, b.watch.trans a.watch, b.broken.trans a.broken⟩

theorem Aside.foldl {α : Type} {g : State → α → State} (h : ∀ s x, Aside s (g s x)) (l : List α) (s : State) : Aside s (l.foldl g s) := by
  induction l generalizing s with
  | nil => exact .refl s
  | cons x l ih => exact (h s x).trans (ih _)

theorem Aside.acts {s t : State} (a : Aside s t) (P : TlbEntry) : Acts P s t [] := .of_mem a.st a.cycle a.cur a.rel a.table a.mem

theorem Aside.reach {f : VineFor} {P : TlbEntry} {U : Finset Nat} {s t : State} {w : Nat} (a : Aside s t) (r : StrandReach f P U s w) :
    StrandReach f P U t w where
  self := by rw [← r.self]; unfold vineSelf curDie; rw [a.st, a.cur]
  dieTlb := by unfold curDie; rw [a.lines, a.cur]; exact r.dieTlb
  coreTlb := by unfold curCore getCore; rw [a.cur, a.cores]; exact r.coreTlb
  ctx := by rw [a.st]; exact r.ctx
  allowed := r.allowed
  place := r.place
  apart := by unfold descAddr; rw [a.table, a.st]; exact r.apart
  free := ⟨by rw [a.poison]; exact r.free.words, by rw [a.lines]; exact r.free.rdc, by rw [a.lines]; exact r.free.vat⟩
  up := by rw [a.daleel]; exact r.up
  quiet := by rw [a.watch]; exact r.quiet
  park := by rw [a.st]; exact r.park
  whole := by rw [a.broken]; exact r.whole
  spare := r.spare.of_lines (by rw [a.lines]) (by rw [a.lines])

theorem Does.aside {f : VineFor} {P : TlbEntry} {U : Finset Nat} {s : State} {w : Nat} {g : State → State} (a : Aside s (g s))
    (r : StrandReach f P U s w) : Reads f P U s (Machine.apply g) () w :=
  Does.apply (Q := fun _ => True) (a.acts P) (a.reach r) trivial

theorem pinsDue_aside (s : State) (c : BitVec 12) (va : Nat) : Aside s (pinsDue s c va) := by
  unfold pinsDue
  split
  · exact .refl s
  · exact ⟨rfl, rfl, rfl, rfl, rfl, rfl, rfl, rfl, rfl, rfl, rfl, rfl⟩

theorem pagesDue_aside (s : State) (c : BitVec 12) (a n : Nat) : Aside s (pagesDue s c a n) :=
  (pinsDue_aside s c (a + n - 1)).trans (.foldl (fun s k => pinsDue_aside s c (a + 0x10000 * k)) (List.range (n / 0x10000 + 1)) _)

theorem allPinsDue_aside (s : State) : Aside s (allPinsDue s) := by
  unfold allPinsDue
  refine .foldl (fun s p => ?_) _ s
  exact pinsDue_aside s p.1 p.2

/-- A strand that a test does not name is not changed with those that it does. -/
theorem modStrandsWhere_st {s : State} {p : Strand → Bool} (h : p s.st = false) (f : Strand → Strand) : (modStrandsWhere s p f).st = s.st := by
  have others : ∀ n ∈ strandsWhere s p, n ≠ s.cur.val := by
    rintro n hn rfl
    have named := (mem_strandsWhere.mp hn).2
    rw [getStrand, if_pos rfl, h] at named
    cases named
  unfold modStrandsWhere
  generalize strandsWhere s p = l at others
  have kept (l : List Nat) (u : State) (cur : u.cur = s.cur) (others : ∀ n ∈ l, n ≠ s.cur.val) :
      (l.foldl (fun s n => modStrand s n f) u).st = u.st := by
    induction l generalizing u with
    | nil => rfl
    | cons n l ih =>
      have other : n ≠ u.cur.val := by rw [cur]; exact others n List.mem_cons_self
      rw [List.foldl_cons, ih _ (by rw [modStrand, setStrand_cur, cur]) fun k hk => others k (List.mem_cons_of_mem n hk), modStrand, setStrand,
        if_neg other]
  exact kept l s rfl others

/-- A vine's parked strands wake: not the focused one, which runs. -/
theorem wakeVine_aside {s : State} (runs : s.st.park = 0) (c : BitVec 12) (h : Nat) {why : List (BitVec 4)} (parked : (0 : BitVec 4) ∉ why) :
    Aside s (wakeVine s c h why) := by
  have answered := wakeVine_answered s c h why
  have st : (wakeVine s c h why).st = s.st := by
    rw [wakeVine_eq, modStrandsWhere_st (by simpa [waitsOnVine, markSaved, runs] using fun _ _ _ => parked)]
    rfl
  unfold OnlyAnswered at answered
  exact ⟨st, by rw [answered], by rw [answered], by rw [answered], by rw [answered], by rw [answered], by rw [answered], by rw [answered],
    by rw [answered], by rw [answered], by rw [answered], by rw [answered]⟩

/-! ## Loops -/

/-- An action for each number, each of which takes c tags and entries. -/
theorem Does.upFrom {f : VineFor} {P : TlbEntry} {U : Finset Nat} {w c n k : Nat} {body : Nat → Act Unit} {l : List (Nat × Nat)}
    {I : Nat → State → Prop} {s : State} (r : StrandReach f P U s (w + c * n)) (start : I k s)
    (step : ∀ j t v, k ≤ j → j < k + n → StrandReach f P U t (v + c) → I j t → Does f P U t (body j) () l v (I (j + 1))) :
    Does f P U s (upFrom n k body) () l w (I (k + n)) := by
  induction n generalizing k s with
  | zero => exact .pure r start
  | succ n ih =>
    have first := step k s (w + c * n) (le_refl k) (by omega) (by rwa [Nat.add_assoc]) start
    refine first.bind (.refl l) fun t _ r' i => ?_
    have rest := ih r' i fun j t v low high => step j t v (by omega) (by omega)
    rwa [Nat.add_right_comm, Nat.add_assoc] at rest

/-- An action for each number, none of which names an error. -/
theorem Does.firstError {f : VineFor} {P : TlbEntry} {U : Finset Nat} {w c n k : Nat} {body : Nat → Act (Option VAddr)} {l : List (Nat × Nat)}
    {I : Nat → State → Prop} {s : State} (r : StrandReach f P U s (w + c * n)) (start : I k s)
    (step : ∀ j t v, k ≤ j → j < k + n → StrandReach f P U t (v + c) → I j t → Does f P U t (body j) none l v (I (j + 1))) :
    Does f P U s (firstError n k body) none l w (I (k + n)) := by
  induction n generalizing k s with
  | zero => exact .pure r start
  | succ n ih =>
    have first := step k s (w + c * n) (le_refl k) (by omega) (by rwa [Nat.add_assoc]) start
    refine first.bind (.refl l) fun t _ r' i => ?_
    have rest := ih r' i fun j t v low high => step j t v (by omega) (by omega)
    rw [Nat.add_right_comm, Nat.add_assoc] at rest
    exact rest.bind (.refl l) fun u _ r'' i' => .pure r'' i'

/-! ## Words that change -/

section
variable {f : VineFor} {P : TlbEntry} {U : Finset Nat} {s : State} {w n : Nat} {va : VAddr} {old new : Nat → Nat}

/-- Of n dwords of memory those that differ from others are written. -/
theorem StrandReach.putWords (r : StrandReach f P U s (w + n)) (wf : Memory.wf s.mem = true) (inside : Claims.Inside P va.toNat (8 * n))
    (cov : Covers P U va.toNat (8 * n)) (holds : ∀ k < n, Claims.at_ s P (va.toNat + 8 * k) 8 = old k) (fits : ∀ k < n, new k < 2 ^ 64)
    {body : Nat → Act Unit} (puts : ∀ k < n, new k ≠ old k → body k = vineWrite f (va + BitVec.ofNat 48 (8 * k)) 8 (new k))
    (skips : ∀ k < n, new k = old k → body k = pure ()) :
    Does f P U s (upFrom n 0 body) () [(va.toNat, 8 * n)] w fun t => ∀ k < n, Claims.at_ t P (va.toNat + 8 * k) 8 = new k := by
  obtain ⟨low, high⟩ := inside
  obtain ⟨_, _, _, top⟩ := r.place
  have loop := Does.upFrom (c := 1) (k := 0) (body := body) (l := [(va.toNat, 8 * n)])
    (I := fun j t => Memory.wf t.mem = true ∧ ∀ k < n, Claims.at_ t P (va.toNat + 8 * k) 8 = if k < j then new k else old k)
    (by rwa [Nat.one_mul]) ⟨wf, holds⟩ fun j t v _ below r' i => ?_
  · refine loop.widen (.refl _) le_rfl fun t _ i k hk => ?_
    rw [i.2 k hk, if_pos (by omega)]
  obtain ⟨form, i⟩ := i
  rw [Nat.zero_add] at below
  by_cases same : new j = old j
  · rw [skips j below same]
    refine .pure (r'.mono (by omega)) ⟨form, fun k hk => ?_⟩
    rw [i k hk]
    by_cases here : k = j
    · rw [here, if_neg (lt_irrefl j), if_pos (by omega), same]
    · simp only [show k < j + 1 ↔ k < j by omega]
  · have place : (va + BitVec.ofNat 48 (8 * j)).toNat = va.toNat + 8 * j := toNat_add_ofNat (by omega)
    have write := r'.write form (va := va + BitVec.ofNat 48 (8 * j)) (k := 8) (by rw [place]; exact ⟨by omega, by omega⟩) (by omega)
      (by rw [place]; exact cov.sub (by omega) (by omega)) (new j)
    rw [place] at write
    rw [puts j below same]
    refine write.widen (.one List.mem_cons_self (by dsimp only; omega) (by dsimp only; omega)) le_rfl fun u a value => ⟨a.form form, fun k hk => ?_⟩
    by_cases here : k = j
    · rw [here, if_pos (by omega)]
      exact value (fits j below)
    · rw [a.at_clear (.cons (by omega) (by dsimp only; omega) (by dsimp only; omega) (.nil P _ _)), i k hk]
      simp only [show k < j + 1 ↔ k < j by omega]

end

/-! ## A descriptor -/

/-- The dwords of a descriptor. -/
def Vine.word (d : Vine) : Nat → Word
  | 0 => d.w0
  | 1 => d.w1
  | 2 => d.w2
  | 3 => d.w3
  | 4 => d.w4
  | 5 => d.w5
  | 6 => d.w6
  | _ => d.w7

theorem vineIn_word (s : State) (P : TlbEntry) (h : Nat) {k : Nat} (hk : k < 8) : (vineIn s P h).word k = BitVec.ofNat 64 (Claims.vineWord s P h k) := by
  interval_cases k <;> rfl

/-- A descriptor is what its words are. -/
theorem vineIn_ext {t : State} {P : TlbEntry} {h : Nat} {d : Vine} (name : d.h = h) (place : d.va = vineEntry t t.st.ctx h) (whole : d.broken = false)
    (words : ∀ k < 8, Claims.vineWord t P h k = (d.word k).toNat) : vineIn t P h = d := by
  have word {k : Nat} (hk : k < 8) : BitVec.ofNat 64 (Claims.vineWord t P h k) = d.word k := by rw [words k hk, BitVec.ofNat_toNat, BitVec.setWidth_eq]
  unfold vineIn
  dsimp only
  rw [word (k := 0) (by omega), word (k := 1) (by omega), word (k := 2) (by omega), word (k := 3) (by omega), word (k := 4) (by omega),
    word (k := 5) (by omega), word (k := 6) (by omega), word (k := 7) (by omega), ← place, ← name]
  cases d
  simp_all [Vine.word]

theorem upFrom_last (n k : Nat) (f : Nat → Act Unit) : upFrom (n + 1) k f = upFrom n k f >>= fun _ => f (k + n) := by
  induction n generalizing k with
  | zero =>
    show f k >>= (fun _ => pure ()) = pure () >>= fun _ => f (k + 0)
    rw [pure_bind]
    exact bind_pure_unit
  | succ n ih =>
    show f k >>= (fun _ => upFrom (n + 1) (k + 1) f) = (f k >>= fun _ => upFrom n (k + 1) f) >>= fun _ => f (k + (n + 1))
    rw [bind_assoc, ih, Nat.add_right_comm, Nat.add_assoc]

theorem writeVine_eq (f : VineFor) (old new : Vine) : writeVine f old new =
    upFrom 7 0 fun k => if old.word k ≠ new.word k then vineWrite f (new.va + BitVec.ofNat 48 (8 * k)) 8 (new.word k).toNat else pure () := by
  unfold writeVine
  rw [upFrom_last]
  simp only [upFrom, bind_assoc, pure_bind]
  rfl

section
variable {f : VineFor} {P : TlbEntry} {U : Finset Nat} {s : State} {w h : Nat}

/-- The descriptor in memory becomes another. -/
theorem StrandReach.writeVine (r : StrandReach f P U s (w + 7)) (wf : Memory.wf s.mem = true) (e : EntryCovered s P U h) {old new : Vine}
    (holds : vineIn s P h = old) (name : new.h = old.h) (place : new.va = old.va) (last : new.w7 = old.w7) (whole : new.broken = old.broken) :
    Does f P U s (writeVine f old new) () [Claims.descRange s h] w fun t => vineIn t P h = new := by
  subst holds
  obtain ⟨low, high⟩ := e.inside
  have start : new.va.toNat = Claims.vineVa s h 0 := by
    have zero := r.entry_toNat e.inside (k := 0) (by omega)
    rw [place]
    rwa [Nat.mul_zero, BitVec.add_zero] at zero
  have word (k : Nat) : Claims.at_ s P (new.va.toNat + 8 * k) 8 = Claims.vineWord s P h k := by rw [start]; rfl
  have old (k : Nat) (hk : k < 8) : ((vineIn s P h).word k).toNat = Claims.vineWord s P h k := by
    rw [vineIn_word s P h hk, BitVec.toNat_ofNat, Nat.mod_eq_of_lt (vineWord_lt s P h k)]
  have puts := r.putWords (va := new.va) (n := 7) (old := Claims.vineWord s P h) (new := fun k => (new.word k).toNat) wf
    (by rw [start]; exact ⟨low, by omega⟩) (by rw [start]; exact e.covers.sub (by omega) (by omega)) (fun k _ => word k)
    (fun k _ => (new.word k).isLt)
    (body := fun k => if (vineIn s P h).word k ≠ new.word k then vineWrite f (new.va + BitVec.ofNat 48 (8 * k)) 8 (new.word k).toNat else pure ())
    (fun k hk ne => if_pos fun e => ne (by rw [← e, old k (by omega)]))
    (fun k hk e => if_neg (not_not.mpr (BitVec.eq_of_toNat_eq (by rw [old k (by omega), e]))))
  rw [writeVine_eq]
  refine puts.widen (.one List.mem_cons_self start.ge (by rw [start]; exact Nat.add_le_add_left (show 56 ≤ 64 by omega) _)) le_rfl fun t a words => ?_
  rw [start] at a words
  have clear : Clear P [(Claims.vineVa s h 0, 8 * 7)] (Claims.vineVa s h 0 + 8 * 7) 8 :=
    .cons (by omega) low (by dsimp only; omega) (.nil P _ _)
  refine vineIn_ext name ?_ whole fun k hk => ?_
  · rw [a.vineEntry, place]
    rfl
  · have there : Claims.vineWord t P h k = Claims.at_ t P (Claims.vineVa s h 0 + 8 * k) 8 := by
      unfold Claims.vineWord
      rw [a.vineVa]
      rfl
    rw [there]
    by_cases below : k < 7
    · exact words k below
    · obtain rfl : k = 7 := by omega
      rw [a.at_clear clear]
      show Claims.vineWord s P h 7 = new.w7.toNat
      rw [last]
      exact (old 7 (by omega)).symm

theorem StrandReach.of_vineIn {t : State} {d : Vine} (holds : vineIn t P h = d) {k : Nat} (hk : k < 8) : Claims.vineWord t P h k = (d.word k).toNat := by
  rw [← holds, vineIn_word t P h hk, BitVec.toNat_ofNat, Nat.mod_eq_of_lt (vineWord_lt t P h k)]

end

/-! ## The window -/

theorem at_lt_dwords (t : State) (P : TlbEntry) (va n : Nat) : Claims.at_ t P va (8 * n) < 2 ^ (64 * n) := by
  have lt := number_lt t (P.base + (va - P.vpage)) (8 * n)
  rwa [show 256 = 2 ^ 8 by rfl, ← Nat.pow_mul, show 8 * (8 * n) = 64 * n by omega] at lt

/-- A number is what its dwords are. -/
theorem at_eq_of_dwords {t : State} {P : TlbEntry} {va n v : Nat} (low : P.vpage ≤ va) (fits : v < 2 ^ (64 * n))
    (words : ∀ k < n, Claims.at_ t P (va + 8 * k) 8 = v / 2 ^ (64 * k) % 2 ^ 64) : Claims.at_ t P va (8 * n) = v := by
  have small := at_lt_dwords t P va n
  refine Nat.eq_of_testBit_eq fun i => ?_
  by_cases above : 64 * n ≤ i
  · rw [Nat.testBit_lt_two_pow (small.trans_le (Nat.pow_le_pow_right (by omega) above)),
      Nat.testBit_lt_two_pow (fits.trans_le (Nat.pow_le_pow_right (by omega) above))]
  · have word := words (i / 64) (by omega)
    rw [at_dword t P low (n := 8 * n) (by omega)] at word
    have bit := congrArg (Nat.testBit · (i % 64)) word
    simp only [Nat.testBit_mod_two_pow, Nat.testBit_div_two_pow] at bit
    rw [decide_eq_true (Nat.mod_lt i (by omega)), Bool.true_and, Bool.true_and, Nat.mod_add_div] at bit
    exact bit

section
variable {f : VineFor} {P : TlbEntry} {U : Finset Nat} {s : State} {w : Nat} {d : Vine}

/-- The window in memory becomes another. -/
theorem StrandReach.writeWindow (r : StrandReach f P U s (w + 64)) (wf : Memory.wf s.mem = true) (inside : Claims.Inside P d.overlay.toNat 512)
    (cov : Covers P U d.overlay.toNat 512) {old new : Nat} (holds : Claims.at_ s P d.overlay.toNat 512 = old) (fits : new < 2 ^ (64 * 64)) :
    Does f P U s (writeWindow f d old new) () [(d.overlay.toNat, 512)] w fun t => Claims.at_ t P d.overlay.toNat 512 = new := by
  subst holds
  obtain ⟨low, high⟩ := inside
  have puts := r.putWords (va := d.overlay) (n := 64) (old := fun k => Claims.at_ s P d.overlay.toNat 512 / 2 ^ (64 * k) % 2 ^ 64)
    (new := fun k => new / 2 ^ (64 * k) % 2 ^ 64) wf ⟨low, high⟩ cov (fun k hk => at_dword s P low (by omega)) (fun k _ => Nat.mod_lt _ (by positivity))
    (body := fun k => if new / 2 ^ (64 * k) % 2 ^ 64 ≠ Claims.at_ s P d.overlay.toNat 512 / 2 ^ (64 * k) % 2 ^ 64 then
      vineWrite f (d.overlay + BitVec.ofNat 48 (8 * k)) 8 (new / 2 ^ (64 * k) % 2 ^ 64) else pure ())
    (fun k _ ne => if_pos ne) (fun k _ e => if_neg (not_not.mpr e))
  exact puts.widen (.refl _) le_rfl fun t _ words => at_eq_of_dwords (n := 64) low fits words

/-! ## UNC -/

/-- UNC of a map entry may be written; nothing but the map changes, and a page's pins may come due. -/
theorem StrandReach.setUnc {p : Nat} (r : StrandReach f P U s (w + 1)) (wf : Memory.wf s.mem = true) (m : MapInside P d)
    (cov : p < d.mapLen → Covers P U (d.overlay.toNat + 0x200 + 8 * p) 8) (pool : EntryCovered s P U d.pool) (v : Bool) :
    Does f P U s (setUnc f d p v) () [(d.overlay.toNat + 0x200, 8 * d.mapLen)] w fun _ => True := by
  refine (r.mapEntry m cov).seen fun t a r' _ => ?_
  split
  · next set =>
    have below : p < d.mapLen := by
      by_contra above
      unfold mapWord at set
      rw [if_pos (.inl (Nat.le_of_not_lt above))] at set
      exact absurd set.1 (by decide)
    have place := r'.map_toNat m below
    have write := r'.write (a.form wf) (r'.map_inside m below) (by omega) (by rw [place]; exact cov below)
      (if v then mapWord s P d p + 2 ^ 62 else mapWord s P d p - 2 ^ 62)
    rw [place] at write
    refine write.bind (.one List.mem_cons_self (by dsimp only; omega) (by dsimp only; omega)) fun u b r'' _ => ?_
    obtain ⟨q, read⟩ := r''.readPool_any ((pool.next a).next b)
    refine read.seen fun u' c r3 _ => ?_
    cases q with
    | none => exact .pure r3 trivial
    | some pl => exact (Does.aside (pagesDue_aside _ _ _ _) r3).widen (.nil _) le_rfl fun _ _ _ => trivial
  · exact .pure (r'.mono (by omega)) trivial

end

end Sys2Proof.Machine
end
section
/-! SUPPORT. The commit window as a number: slots that are set and cleared, and CMTLEN that grows over them (R141). -/

namespace Sys2Proof.Machine

/-! ## One bit -/

theorem testBit_add_two_pow {w i : Nat} (clear : w.testBit i = false) (j : Nat) : (w + 2 ^ i).testBit j = (decide (j = i) || w.testBit j) := by
  rcases Nat.lt_trichotomy j i with below | rfl | above
  · rw [Nat.add_comm, Nat.testBit_two_pow_add_gt below, decide_eq_false (by omega), Bool.false_or]
  · rw [Nat.add_comm, Nat.testBit_two_pow_add_eq, clear, decide_eq_true rfl]
    rfl
  · have low : w % 2 ^ (i + 1) < 2 ^ i := by
      rw [Nat.testBit_eq_decide_div_mod_eq, decide_eq_false_iff_not] at clear
      rw [Nat.mod_pow_succ, show w / 2 ^ i % 2 = 0 by omega, Nat.mul_zero, Nat.add_zero]
      exact Nat.mod_lt _ (by positivity)
    have high : (w + 2 ^ i) / 2 ^ (i + 1) = w / 2 ^ (i + 1) := by
      have split := Nat.div_add_mod w (2 ^ (i + 1))
      have twice : 2 ^ (i + 1) = 2 * 2 ^ i := by rw [Nat.pow_succ, Nat.mul_comm]
      refine Nat.div_eq_of_lt_le (by rw [Nat.mul_comm]; omega) ?_
      rw [Nat.add_mul, Nat.mul_comm, Nat.one_mul]
      omega
    obtain ⟨k, rfl⟩ : ∃ k, j = k + (i + 1) := ⟨j - (i + 1), by omega⟩
    rw [← Nat.testBit_div_two_pow, high, Nat.testBit_div_two_pow, decide_eq_false (by omega), Bool.false_or]

theorem testBit_sub_two_pow {w i : Nat} (set : w.testBit i = true) (j : Nat) : (w - 2 ^ i).testBit j = (! decide (j = i) && w.testBit j) := by
  obtain ⟨v, rfl⟩ := Nat.exists_eq_add_of_le (Nat.ge_two_pow_of_testBit set)
  have clear : v.testBit i = false := by rwa [Nat.testBit_two_pow_add_eq, Bool.not_eq_true'] at set
  rw [Nat.add_sub_cancel_left, Nat.add_comm, testBit_add_two_pow clear]
  by_cases here : j = i
  · rw [here, clear, decide_eq_true rfl]
    rfl
  · rw [decide_eq_false here]
    simp

/-! ## Slots -/

theorem testBit_setSlots (w a n i : Nat) : (setSlots w a n).testBit i = true ↔ w.testBit i = true ∨ ∃ k < n, (a + k) % 4096 = i := by
  induction n generalizing w a with
  | zero => simp [setSlots]
  | succ n ih =>
    have first : (if slotBit w a then w else w + 2 ^ (a % 4096)).testBit i = true ↔ w.testBit i = true ∨ a % 4096 = i := by
      by_cases set : slotBit w a = true
      · rw [if_pos set]
        refine ⟨.inl, fun e => e.elim id ?_⟩
        rintro rfl
        rwa [← slotBit_eq]
      · rw [if_neg set]
        rw [slotBit_eq, Bool.not_eq_true] at set
        rw [testBit_add_two_pow set, Bool.or_eq_true, decide_eq_true_eq, or_comm, @eq_comm _ i]
    rw [setSlots, ih, first, or_assoc]
    refine or_congr_right ⟨?_, ?_⟩
    · rintro (rfl | ⟨k, hk, rfl⟩)
      · exact ⟨0, by omega, rfl⟩
      · exact ⟨k + 1, by omega, by rw [Nat.add_right_comm, Nat.add_assoc]⟩
    · rintro ⟨_ | k, hk, rfl⟩
      · exact .inl rfl
      · exact .inr ⟨k, by omega, by rw [Nat.add_right_comm, Nat.add_assoc]⟩

theorem setSlots_lt {w N : Nat} (slots : 4096 ≤ N) (h : w < 2 ^ N) (a n : Nat) : setSlots w a n < 2 ^ N := by
  refine Nat.lt_pow_two_of_testBit _ fun i hi => ?_
  rw [← Bool.not_eq_true, testBit_setSlots]
  rintro (bit | ⟨k, _, rfl⟩)
  · rw [Nat.testBit_lt_two_pow (h.trans_le (Nat.pow_le_pow_right (by omega) hi))] at bit
    cases bit
  · omega

/-! ## CMTLEN -/

/-- The commit length and the window after the growth: the slots it has passed were set, and are cleared; it stands before a slot that is
clear, or at r. -/
structure Grown (w c r : Nat) (p : Nat × Nat) : Prop where
  low   : c ≤ p.2
  high  : p.2 ≤ r
  past  : ∀ j, c ≤ j → j < p.2 → slotBit w j = true
  stop  : p.2 < r → slotBit w p.2 = false
  slots : ∀ i, p.1.testBit i = true ↔ w.testBit i = true ∧ ∀ j, c ≤ j → j < p.2 → j % 4096 ≠ i

/-- Where the growth does not begin. -/
theorem Grown.refl {w c r : Nat} (ordered : c ≤ r) (stop : c < r → slotBit w c = false) : Grown w c r (w, c) where
  low := le_rfl
  high := ordered
  past _ low high := absurd high (Nat.not_lt.mpr low)
  stop := stop
  slots _ := ⟨fun bit => ⟨bit, fun _ low high => absurd high (Nat.not_lt.mpr low)⟩, And.left⟩

theorem growCommit_grown {w c r n : Nat} (ordered : c ≤ r) (near : r ≤ c + 4096) (fuel : r ≤ c + n) : Grown w c r (growCommit w c r n) := by
  induction n generalizing w c with
  | zero => exact .refl ordered fun below => by omega
  | succ n ih =>
    rw [growCommit]
    by_cases goes : c < r ∧ slotBit w c = true
    · obtain ⟨below, set⟩ := goes
      have bit := set
      rw [slotBit_eq] at bit
      have cleared (i : Nat) : (w - 2 ^ (c % 4096)).testBit i = true ↔ w.testBit i = true ∧ c % 4096 ≠ i := by
        rw [testBit_sub_two_pow bit, Bool.and_eq_true, Bool.not_eq_true', decide_eq_false_iff_not, and_comm, ne_comm]
      have others {j : Nat} (low : c < j) (high : j ≤ r) (far : j < c + 4096) : slotBit (w - 2 ^ (c % 4096)) j = slotBit w j := by
        rw [slotBit_eq, slotBit_eq, Bool.eq_iff_iff, cleared]
        exact and_iff_left (by omega)
      have rest := ih (w := w - 2 ^ (c % 4096)) (c := c + 1) below (by omega) (by omega)
      rw [if_pos ⟨below, set⟩]
      generalize growCommit (w - 2 ^ (c % 4096)) (c + 1) r n = p at rest
      obtain ⟨low, high, past, stop, slots⟩ := rest
      refine ⟨by omega, high, fun j start end_ => ?_, fun short => ?_, fun i => ?_⟩
      · by_cases first : j = c
        · rwa [first]
        · rw [← others (j := j) (by omega) (by omega) (by omega)]
          exact past j (by omega) end_
      · rw [← others (j := p.2) (by omega) high (by omega)]
        exact stop short
      · rw [slots, cleared, and_assoc]
        refine and_congr_right fun _ => ⟨fun ⟨first, later⟩ j start end_ => ?_,
          fun all => ⟨all c le_rfl (by omega), fun j start => all j (by omega)⟩⟩
        by_cases here : j = c
        · rwa [here]
        · exact later j (by omega) end_
    · rw [if_neg goes]
      refine .refl ordered fun below => ?_
      rw [← Bool.not_eq_true]
      exact fun set => goes ⟨below, set⟩

theorem Grown.lt {w c r N : Nat} {p : Nat × Nat} (g : Grown w c r p) (h : w < 2 ^ N) : p.1 < 2 ^ N := by
  refine Nat.lt_pow_two_of_testBit _ fun i hi => ?_
  rw [← Bool.not_eq_true, g.slots]
  rintro ⟨bit, _⟩
  rw [Nat.testBit_lt_two_pow (h.trans_le (Nat.pow_le_pow_right (by omega) hi))] at bit
  cases bit

/-- A slot that the growth has not passed is as it was. -/
theorem Grown.ahead {w c r j : Nat} {p : Nat × Nat} (g : Grown w c r p) (near : r ≤ c + 4096) (low : p.2 ≤ j) (high : j < r) :
    slotBit p.1 j = slotBit w j := by
  rw [slotBit_eq, slotBit_eq, Bool.eq_iff_iff, g.slots]
  exact and_iff_left fun k start end_ => by omega

/-- A slot between CMTLEN and RESLEN, after slots between them have been set. -/
theorem slotBit_setSlots {w c r a n j : Nat} (near : r ≤ c + 4096) (start : c ≤ a) (end_ : a + n ≤ r) (low : c ≤ j) (high : j < r) :
    slotBit (setSlots w a n) j = true ↔ slotBit w j = true ∨ (a ≤ j ∧ j < a + n) := by
  rw [slotBit_eq, slotBit_eq, testBit_setSlots]
  refine or_congr_right ⟨fun ⟨k, hk, e⟩ => by omega, fun ⟨first, last⟩ => ⟨j - a, by omega, by rw [Nat.add_sub_cancel' first]⟩⟩

end Sys2Proof.Machine
end
section
/-! SQST on a reserved, uncommitted token (R139). -/

namespace Sys2Proof.Machine

theorem exec_sqst (z : Sz) (v h i : XReg) (s : State) : exec (.sqst z v h i) s = execSqst z v h i s := rfl

section
variable {f : VineFor} {P : TlbEntry} {U : Finset Nat} {s : State} {w n : Nat}

/-- Nothing holds a write to the page while an entry is left. -/
theorem StrandReach.notHeld (r : StrandReach f P U s (w + 1)) {a k : Nat} (low : Claims.keyAt P a + k ≤ Config.compBase) (hk : 0 < k) :
    heldBy s P (Claims.keyAt P a) = false := by
  obtain ⟨_, _, _, moving, _, _⟩ := r.allowed
  have high : ¬ Config.compBase ≤ Claims.keyAt P a := by omega
  simp [heldBy, moving, high, r.spare.notHeld]

theorem StrandReach.on_holdGuard (r : StrandReach f P U s (w + 1)) {a k : Nat} (low : Claims.keyAt P a + k ≤ Config.compBase) (hk : 0 < k) :
    Act.on (holdGuard P (Claims.keyAt P a)) s = (.ok (), s) := by
  unfold holdGuard
  rw [on_bind_ok (on_get s), r.notHeld low hk]
  rfl

/-- A vine store to bytes of the page (R139). -/
theorem StrandReach.vineStore (r : StrandReach f P U s (w + 1)) (wf : Memory.wf s.mem = true) {va : VAddr} (inside : Claims.Inside P va.toNat n)
    (hn : 0 < n) (cov : Covers P U va.toNat n) (v : Nat) :
    Does f P U s (vineStore va (natToBytes n v)) () [(va.toNat, n)] w fun t => Claims.Stored s t (Claims.keyAt P va.toNat) n v := by
  obtain ⟨_, _, _, _, tier, _⟩ := r.allowed
  have below := r.key_low inside
  have spad : isSpad (Claims.keyAt P va.toNat) = false := decide_eq_false fun e => by
    have high := r.key_lt inside
    simp only [Config.gddrEnd, Config.spadBase] at high e
    omega
  have changed := storeL1_changed s (Claims.keyAt P va.toNat) (natToBytes n v)
  have reach := changed.reach r
  obtain ⟨wrote, spare⟩ := reach.spare.write (a := Claims.keyAt P va.toNat) (cov.first hn) (by omega) (natToBytes n v) P.dedup
    (curDomain (storeL1 s (curCore s) (Claims.keyAt P va.toNat) (natToBytes n v)))
  have mem : (storeL1 s (curCore s) (Claims.keyAt P va.toNat) (natToBytes n v)).mem = s.mem := by rw [changed.same]
  have acts := reach.wrote_acts (by rwa [mem]) wrote (by rwa [natToBytes_length])
  rw [natToBytes_length] at acts
  have stored := stored_of_mem wf (wrote.mem.trans (by rw [mem]))
  refine ⟨_, ?_, (changed.acts.widen (.nil _)).trans acts, reach.wrote wrote (homeWrite_cores _ _ _ _ _) spare, stored⟩
  have put : Act.on (storeThrough P va (P.key va.toNat) (natToBytes n v)) s =
      (.ok (), putHome (storeL1 s (curCore s) (Claims.keyAt P va.toNat) (natToBytes n v)) P (Claims.keyAt P va.toNat) (natToBytes n v)) := by
    unfold storeThrough
    rw [on_bind_ok (r.on_homeGuard va _)]
    exact on_bind_ok (r.on_holdGuard below hn)
  unfold Machine.vineStore
  rw [on_bind_ok (r.on_translate inside hn .store), if_neg (by rw [tier]; decide)]
  refine put.trans ?_
  unfold putHome
  rw [spad]
  rfl

section
variable {h b i o sz g : Nat} (r : StrandReach f P U s w) (v : Claims.OpenVine s P h b)
  (desc : Covers P U (Claims.vineVa s h 0) 64) (pool : Covers P U (Claims.vineVa s (Claims.poolNo s P h) 0) 64)
  (window : Covers P U (Claims.overlay s P h) 512) (entry : Covers P U (Claims.overlay s P h + 0x200 + 8 * (i / 16)) 8)
include r v desc pool window entry

/-- A reserved token that is not committed lies in its page of the vine's own map. -/
theorem StrandReach.storeToken (low : Claims.cmtLen s P h ≤ i) (high : i < Claims.resLen s P h) (open_ : Claims.committed s P h i = false)
    (m : Claims.mapped s P h (i / 16) = some g) (fits : o + sz ≤ b) (line : Claims.tokenAt s P h b g i o % sz = 0)
    (inside : Claims.Inside P (Claims.tokenAt s P h b g i o) sz) (hz : 0 < sz) :
    Reads f P U s (storeToken h i o sz false) (tokenVa (poolIn s P (Claims.poolNo s P h) b) g i o) w := by
  have place := r.token_toNat inside hz
  have lies := vineIn_overlay v.vine
  obtain ⟨left, right⟩ := v.window
  obtain ⟨_, valid, page⟩ := mapWord_of_mapped v.vine m
  refine .get ?_
  rw [r.self]
  refine (r.openVine v desc).seen fun t a r' _ => ?_
  refine (StrandReach.vinePool a r' v pool).seen fun u a' r'' _ => ?_
  have tokb : (poolIn s P (Claims.poolNo s P h) b).tokb = b := rfl
  dsimp only
  rw [if_neg Bool.false_ne_true, if_neg Bool.false_ne_true, tokb]
  have a := a.trans a'
  refine (r''.window (d := vineIn s P h) (by rw [lies]; exact ⟨left, by omega⟩) (by rw [lies]; exact window)).seen fun t2 a2 r2 _ => ?_
  rw [lies, a.at_nil, ← committed_eq left, vineIn_cmtLen, vineIn_resLen, open_,
    if_neg fun e => e.elim (Nat.not_lt.mpr low) fun e => e.elim (Nat.not_le.mpr high) Bool.false_ne_true,
    if_neg fun e => absurd fits (Nat.not_le.mpr e.2)]
  have a := a.trans a2
  refine (r2.mapEntry (OpenVine_mapInside v) (p := i / 16) fun _ => by rw [lies]; exact entry).seen fun t3 a3 r3 _ => ?_
  rw [a.mapWord (.nil P _ _), valid, page]
  rw [if_neg (by decide), if_neg (Nat.not_lt.mpr fits)]
  exact ⟨t3, on_bind_ok (on_aligned (by rw [place]; exact line) t3), .refl P t3, r3, trivial⟩

end

end

/-- What a store to a token may touch. -/
def storeLines (s : State) (P : TlbEntry) (h b g i o n : Nat) : List (Nat × Nat) :=
  [(Claims.vineVa s h 0, 64), (Claims.vineVa s (Claims.poolNo s P h) 0, 64), (Claims.overlay s P h, 512), (Claims.overlay s P h + 0x200 + 8 * (i / 16), 8),
    (Claims.tokenAt s P h b g i o, n)]

theorem vineStore_stores : Claims.VineStore := by
  intro s P v x y z b g h i o va space canonical open_ low high free m fits line inside
  obtain ⟨pos, small⟩ := stWidth_pos z
  have few : (footprint P (storeLines s P h b g i o (Claims.stWidth z))).card + 1 ≤ 8192 := by
    have lines := card_footprint P (storeLines s P h b g i o (Claims.stWidth z))
    simp only [storeLines, List.map_cons, List.map_nil, List.sum_cons, List.sum_nil] at lines ⊢
    omega
  have r := StrandReach.of_space space few
  have covers {a k : Nat} (ha : (a, k) ∈ storeLines s P h b g i o (Claims.stWidth z)) :
    Covers P (footprint P (storeLines s P h b g i o (Claims.stWidth z))) a k := covers_footprint ha
  have place := r.token_toNat (o := o) inside pos
  obtain ⟨t, read, a, r', _⟩ := r.storeToken open_ (covers (by simp [storeLines])) (covers (by simp [storeLines])) (covers (by simp [storeLines]))
    (covers (by simp [storeLines])) low high free m fits line inside pos
  obtain ⟨u, write, a', _, stored⟩ := r'.vineStore (a.form canonical.mem) (by rw [place]; exact inside) pos
    (by rw [place]; exact covers (by simp [storeLines])) (s.readX v).toNat
  rw [place] at stored
  have run : Act.on (do
      let va ← storeToken h i o (Claims.stWidth z) false
      Machine.vineStore va (natToBytes (Claims.stWidth z) (s.readX v).toNat)) s = (.ok (), u) := (on_bind_ok read).trans write
  obtain ⟨u', step, st, same⟩ := scalar_retires run ((a.widen (.nil _)).trans a')
  refine ⟨u', ?_, st, fun c => ?_⟩
  · rw [exec_sqst]
    unfold execSqst
    rw [handleOf_eq, tokenOf_eq, offsetOf_eq, szBytes_eq]
    exact step
  · rw [same.mem, stored c, a.sameMem c]
    rfl

end Sys2Proof.Machine
end
section
/-! SQRES (R140). -/

namespace Sys2Proof.Machine

theorem exec_sqres (d h n : XReg) (s : State) : exec (.sqres d h n) s = execSqres d h n s := rfl

/-! ## Fields of a dword -/

section
variable (v : Word) (n : Nat)

theorem bits_setBits_high (h : n < 2 ^ 32) : bits (setBits v 32 32 n) 32 32 = n := by
  have lt := v.isLt
  simp only [setBits, bits, BitVec.toNat_ofNat]
  omega

theorem bits_setBits_high_low : bits (setBits v 32 32 n) 0 32 = bits v 0 32 := by
  have lt := v.isLt
  simp only [setBits, bits, BitVec.toNat_ofNat]
  omega

theorem bits_setBits_low (h : n < 2 ^ 32) : bits (setBits v 0 32 n) 0 32 = n := by
  have lt := v.isLt
  simp only [setBits, bits, BitVec.toNat_ofNat]
  omega

theorem bits_setBits_low_high : bits (setBits v 0 32 n) 32 32 = bits v 32 32 := by
  have lt := v.isLt
  simp only [setBits, bits, BitVec.toNat_ofNat]
  omega

end

/-- RESLEN and CMTLEN of a descriptor in memory. -/
theorem resLen_of_vineIn {s : State} {P : TlbEntry} {h : Nat} {d : Vine} (e : vineIn s P h = d) : Claims.resLen s P h = d.resLen := by
  rw [← e, vineIn_resLen]

theorem cmtLen_of_vineIn {s : State} {P : TlbEntry} {h : Nat} {d : Vine} (e : vineIn s P h = d) : Claims.cmtLen s P h = d.cmtLen := by
  rw [← e, vineIn_cmtLen]

theorem SameStructures.resLen {s t : State} (e : SameStructures s t) (P : TlbEntry) (h : Nat) : Claims.resLen t P h = Claims.resLen s P h := by
  unfold Claims.resLen
  rw [e.vineWord]

theorem SameStructures.cmtLen {s t : State} (e : SameStructures s t) (P : TlbEntry) (h : Nat) : Claims.cmtLen t P h = Claims.cmtLen s P h := by
  unfold Claims.cmtLen
  rw [e.vineWord]

/-! ## Operations that stop -/

/-- An operation that traps, or parks for its window, has stopped where it did. -/
theorem on_vineAtomic_park {α : Type} {a : Act α} {s t : State} {h : BitVec 32} (run : Act.on a s = (.error (.park 0x5 (.vine h)), t)) :
    Act.on (vineAtomic a) s = (.error (.park 0x5 (.vine h)), t) := by
  unfold vineAtomic
  rw [on_bind_ok (on_get s), run]
  rfl

theorem on_vineAtomic_trap {α : Type} {a : Act α} {s t : State} {c : BitVec 8} {v : Word} (run : Act.on a s = (.error (.trap c v), t)) :
    Act.on (vineAtomic a) s = (.error (.trap c v), t) := by
  unfold vineAtomic
  rw [on_bind_ok (on_get s), run]
  rfl

/-! ## The pages of a reservation -/

section
variable {f : VineFor} {P : TlbEntry} {U : Finset Nat} {s : State} {w h b : Nat}

theorem countVa_poolIn {p g n : Nat} (top : P.vpage + P.size ≤ 2 ^ 48) (inside : Claims.Inside P (Claims.countAt s P p g) n) (hn : 0 < n) :
    (countVa (poolIn s P p b) g).toNat = Claims.countAt s P p g := by
  obtain ⟨low, high⟩ := inside
  unfold Claims.countAt at high ⊢
  exact offset_toNat (by omega)

/-- A page of a vine is mapped, and no other vine's. -/
structure OwnPage (s : State) (P : TlbEntry) (U : Finset Nat) (h q g : Nat) : Prop where
  page   : Claims.mapped s P h q = some g
  own    : Claims.count s P (Claims.poolNo s P h) g ≤ 1
  inside : Claims.Inside P (Claims.countAt s P (Claims.poolNo s P h) g) 2
  entry  : Covers P U (Claims.overlay s P h + 0x200 + 8 * q) 8
  count  : Covers P U (Claims.countAt s P (Claims.poolNo s P h) g) 2

theorem StrandReach.reservePages {t : State} {n p : Nat} (a : Acts P s t []) (r : StrandReach f P U t w) (v : Claims.OpenVine s P h b)
    (own : ∀ q, p ≤ q → q < p + n → ∃ g, OwnPage s P U h q g) :
    Reads f P U t (reservePages f (vineIn s P h) (poolIn s P (Claims.poolNo s P h) b) n p) () w := by
  induction n generalizing t p with
  | zero => exact .pure r trivial
  | succ n ih =>
    obtain ⟨g, page, own', inside, entry, count⟩ := own p le_rfl (by omega)
    obtain ⟨below, valid, number⟩ := mapWord_of_mapped v.vine page
    obtain ⟨_, _, _, top⟩ := r.place
    have place := countVa_poolIn (b := b) top inside (by omega)
    unfold Machine.reservePages
    rw [if_neg (Nat.not_le.mpr below)]
    refine (r.mapEntry (OpenVine_mapInside v) (p := p) fun _ => by rw [vineIn_overlay v.vine]; exact entry).seen fun u a' r' _ => ?_
    rw [a.mapWord (.nil P _ _), valid, number]
    have a := a.trans a'
    have read := r'.read (va := countVa (poolIn s P (Claims.poolNo s P h) b) g) (k := 2) (by rw [place]; exact inside) (by omega)
      (by rw [place]; exact count)
    rw [place, a.at_nil] at read
    dsimp only
    rw [if_neg (by decide)]
    refine read.seen fun u' b' r'' _ => ?_
    rw [if_neg (show ¬ 1 < Claims.at_ s P _ 2 from Nat.not_lt.mpr own')]
    exact ih (a.trans b') r'' fun q low high => own q (by omega) (by omega)

/-- UNC of some pages may be written. -/
theorem StrandReach.setUncs {d : Vine} {n p : Nat} (r : StrandReach f P U s (w + n)) (wf : Memory.wf s.mem = true) (m : MapInside P d)
    (cov : ∀ q, p ≤ q → q < p + n → q < d.mapLen → Covers P U (d.overlay.toNat + 0x200 + 8 * q) 8) (pool : EntryCovered s P U d.pool)
    {body : Nat → Act Unit} (sets : ∀ q, body q = pure () ∨ ∃ v, body q = Machine.setUnc f d q v) :
    Does f P U s (upFrom n p body) () [(d.overlay.toNat + 0x200, 8 * d.mapLen)] w fun _ => True := by
  refine (Does.upFrom (c := 1) (I := fun _ t => Memory.wf t.mem = true ∧ EntryCovered t P U d.pool) (by rwa [Nat.one_mul]) ⟨wf, pool⟩
    fun j t v low high r' i => ?_).widen (.refl _) le_rfl fun _ _ _ => trivial
  obtain ⟨wf, pool⟩ := i
  rcases sets j with skip | ⟨unc, set⟩
  · rw [skip]
    exact .pure (r'.mono (by omega)) ⟨wf, pool⟩
  · rw [set]
    exact (r'.setUnc wf m (cov j low high) pool unc).widen (.refl _) le_rfl fun u a _ => ⟨a.form wf, pool.next a⟩

end

/-! ## Ranges of a vine -/

theorem entries_within (s : State) (P : TlbEntry) (h : Nat) :
    Within [(Claims.overlay s P h + 0x200, 8 * Claims.mapLen s P h)] [Claims.descRange s h, Claims.mapRange s P h] :=
  .one (q := Claims.mapRange s P h) (by simp) (by unfold Claims.mapRange; dsimp only; omega) (by unfold Claims.mapRange; dsimp only; omega)

theorem window_within (s : State) (P : TlbEntry) (h : Nat) :
    Within [(Claims.overlay s P h, 512)] [Claims.descRange s h, Claims.mapRange s P h] :=
  .one (q := Claims.mapRange s P h) (by simp) (by unfold Claims.mapRange; dsimp only; omega) (by unfold Claims.mapRange; dsimp only; omega)

theorem apart_map {s : State} {P : TlbEntry} {h : Nat} (apart : Claims.Apart [Claims.descRange s h, Claims.mapRange s P h]) :
    Claims.vineVa s h 0 + 64 ≤ Claims.overlay s P h ∨ Claims.overlay s P h + (512 + 8 * Claims.mapLen s P h) ≤ Claims.vineVa s h 0 :=
  (List.pairwise_cons.mp apart).1 (Claims.mapRange s P h) List.mem_cons_self

theorem apart_entries {s : State} {P : TlbEntry} {h : Nat} (apart : Claims.Apart [Claims.descRange s h, Claims.mapRange s P h]) :
    Claims.vineVa s h 0 + 64 ≤ Claims.overlay s P h + 0x200 ∨ Claims.overlay s P h + 0x200 + 8 * Claims.mapLen s P h ≤ Claims.vineVa s h 0 := by
  have away := apart_map apart
  omega

/-! ## A reservation -/

section
variable {P : TlbEntry} {U : Finset Nat} {s : State} {w h b n : Nat} (r : StrandReach (vineSelf s) P U s w) (v : Claims.OpenVine s P h b)
  (desc : Covers P U (Claims.vineVa s h 0) 64)
include r v desc

theorem StrandReach.reserve_nothing : Reads (vineSelf s) P U s (reserve h 0) (Claims.resLen s P h) w := by
  refine .atomic (.get ((r.openVine v desc).seen fun t a r' _ => ?_))
  rw [if_pos rfl, vineIn_resLen]
  exact .pure r' trivial

/-- A full window. -/
theorem StrandReach.reserve_parks (positive : 0 < n) (fits : Claims.resLen s P h + n < 2 ^ 32)
    (full : 4096 < Claims.resLen s P h + n - Claims.cmtLen s P h) : ∃ t csr, Acts P s t [] ∧
    Act.on (reserve h n) s = (.error (.park 0x5 (.vine (BitVec.ofNat 32 h))), { t with st := { t.st with csr := csr } }) := by
  obtain ⟨t, read, a, _, _⟩ := r.openVine v desc
  refine ⟨t, (noteVine t (Claims.resLen s P h + n) 4 h).st.csr, a, on_vineAtomic_park ?_⟩
  rw [on_bind_ok (on_get s)]
  dsimp only
  rw [on_bind_ok read, if_neg (by omega), vineIn_state, v.open_, vineIn_resLen, vineIn_cmtLen,
    if_neg (show ¬ 1 ≠ vineOpen from not_not.mpr rfl), if_neg (by omega), if_pos full]
  rfl

end

section
variable {P : TlbEntry} {U : Finset Nat} {s : State} {w h b n : Nat}

/-- What a reservation may touch: the descriptor, the pool, entries of the map and the counts of their pages (irreducible: no proof is to list
them one by one). -/
@[irreducible] def reserveLines (s : State) (P : TlbEntry) (h : Nat) : List (Nat × Nat) :=
  (Claims.vineVa s h 0, 64) :: (Claims.vineVa s (Claims.poolNo s P h) 0, 64) ::
    (Claims.overlay s P h + 0x200 + 8 * (Claims.resLen s P h / 16), 8 * 257) ::
    (List.range 257).map fun j => (Claims.countAt s P (Claims.poolNo s P h) ((Claims.mapped s P h (Claims.resLen s P h / 16 + j)).getD 0), 2)

/-- Counts lie in two lines each at most. -/
theorem counts_lines (l : List Nat) (g : Nat → Nat) : ((l.map fun j => (g j, 2)).map fun r => r.2 / 128 + 2).sum = 2 * l.length := by
  rw [List.map_map]
  induction l with
  | nil => rfl
  | cons j l ih =>
    rw [List.map_cons, List.sum_cons, ih, List.length_cons, Function.comp_apply]
    omega

theorem reserveLines_few (s : State) (P : TlbEntry) (h : Nat) : (footprint P (reserveLines s P h)).card + (257 + 7) ≤ 8192 := by
  have lines := card_footprint P (reserveLines s P h)
  unfold reserveLines at lines ⊢
  rw [List.map_cons, List.map_cons, List.map_cons, List.sum_cons, List.sum_cons, List.sum_cons, counts_lines, List.length_range] at lines
  omega

/-- A reservation of pages that are mapped and unshared. -/
theorem StrandReach.reserve (r : StrandReach (vineSelf s) P (footprint P (reserveLines s P h)) s (w + 257 + 7)) (wf : Memory.wf s.mem = true)
    (v : Claims.OpenVine s P h b) (apart : Claims.Apart [Claims.descRange s h, Claims.mapRange s P h]) (positive : 0 < n) (most : n ≤ 4096)
    (fits : Claims.resLen s P h + n < 2 ^ 32) (window : Claims.resLen s P h + n - Claims.cmtLen s P h ≤ 4096)
    (own : ∀ p, Claims.resLen s P h / 16 ≤ p → p ≤ (Claims.resLen s P h + n - 1) / 16 → ∃ g, Claims.mapped s P h p = some g ∧
      Claims.count s P (Claims.poolNo s P h) g ≤ 1 ∧ Claims.Inside P (Claims.countAt s P (Claims.poolNo s P h) g) 2) :
    Does (vineSelf s) P (footprint P (reserveLines s P h)) s (Machine.reserve h n) (Claims.resLen s P h) [Claims.descRange s h, Claims.mapRange s P h] w
      fun t => vineIn t P h = (vineIn s P h).setRes (Claims.resLen s P h + n) := by
  have lies := vineIn_overlay v.vine
  have desc : Covers P (footprint P (reserveLines s P h)) (Claims.vineVa s h 0) 64 :=
    covers_footprint (by unfold reserveLines; exact .head _)
  have pool : Covers P (footprint P (reserveLines s P h)) (Claims.vineVa s (Claims.poolNo s P h) 0) 64 :=
    covers_footprint (by unfold reserveLines; exact .tail _ (.head _))
  have map : Covers P (footprint P (reserveLines s P h)) (Claims.overlay s P h + 0x200 + 8 * (Claims.resLen s P h / 16)) (8 * 257) :=
    covers_footprint (by unfold reserveLines; exact .tail _ (.tail _ (.head _)))
  have pages : ∀ q, Claims.resLen s P h / 16 ≤ q → q < Claims.resLen s P h / 16 + ((Claims.resLen s P h + n - 1) / 16 + 1 - Claims.resLen s P h / 16) →
      ∃ g, OwnPage s P (footprint P (reserveLines s P h)) h q g := by
    intro q low high
    obtain ⟨g, page, count, inside⟩ := own q low (by omega)
    refine ⟨g, page, count, inside, map.sub (by omega) (by omega), covers_footprint ?_⟩
    unfold reserveLines
    refine List.mem_cons_of_mem _ (List.mem_cons_of_mem _ (List.mem_cons_of_mem _ (List.mem_map.mpr ⟨q - Claims.resLen s P h / 16, ?_, ?_⟩)))
    · exact List.mem_range.mpr (by omega)
    · rw [Nat.add_sub_cancel' low, page]
      rfl
  refine .atomic (.get ((r.openVine v desc).seen fun t a r' _ => ?_))
  rw [if_neg (by omega), vineIn_state, v.open_, vineIn_resLen, vineIn_cmtLen, if_neg (show ¬ 1 ≠ vineOpen from not_not.mpr rfl), if_neg (by omega),
    if_neg (by omega)]
  refine (StrandReach.vinePool a r' v pool).seen fun u a' r'' _ => ?_
  have a := a.trans a'
  refine (StrandReach.reservePages a r'' v pages).seen fun u1 a1 r1 _ => ?_
  have a := a.trans a1
  have write := r1.writeVine (w := w + 257) (h := h) (new := (vineIn s P h).setRes (Claims.resLen s P h + n)) (a.form wf)
    ((EntryCovered.mk v.vine.inside desc).next a) (a.vineIn (.nil P _ _)) rfl rfl rfl rfl
  rw [a.descRange] at write
  refine write.bind (.subset (by simp)) fun u2 a2 r2 holds => ?_
  have number : (Claims.resLen s P h + n - 1) / 16 + 1 - Claims.resLen s P h / 16 ≤ 257 := by omega
  have uncs := StrandReach.setUncs (d := vineIn s P h) (w := w) (n := (Claims.resLen s P h + n - 1) / 16 + 1 - Claims.resLen s P h / 16)
    (p := Claims.resLen s P h / 16) (r2.mono (by omega)) (a2.form (a.form wf)) (OpenVine_mapInside v)
    (fun q low high _ => by rw [lies]; exact map.sub (by omega) (by omega))
    (((EntryCovered.mk (h := (vineIn s P h).pool) (by rw [vineIn_pool]; exact v.pool.inside) (by rw [vineIn_pool]; exact pool)).next a).next a2)
    (body := fun q => Machine.setUnc (vineSelf s) (vineIn s P h) q true) fun q => .inr ⟨true, rfl⟩
  rw [lies, vineIn_mapLen] at uncs
  refine uncs.bind (entries_within s P h) fun u3 a3 r3 _ => .pure r3 ?_
  obtain ⟨low, _⟩ := v.vine.inside
  obtain ⟨low', _⟩ := v.window
  have clear : Clear P [(Claims.overlay s P h + 0x200, 8 * Claims.mapLen s P h)] (Claims.vineVa u2 h 0) 64 := by
    rw [a2.vineVa, a.vineVa]
    exact .cons low (by dsimp only; omega) (apart_entries apart) (.nil P _ _)
  rw [a3.vineIn clear, holds]

end

section
variable {P : TlbEntry} {s : State} {d x y : XReg} {b h n : Nat} {U : Finset Nat} {w : Nat} (hx : handleOf (s.readX x) = h)
  (hy : (s.readX y).toNat = n)
include hx hy

theorem exec_sqres_eq : exec (.sqres d x y) s = scalar 4 (do
    if 4096 < n then illegal (.sqres d x y)
    let r ← reserve h n
    apply fun s => s.writeX d (w64 r)) s := by
  rw [exec_sqres, execSqres, hx, hy]

theorem exec_sqres_many (many : 4096 < n) (viq : s.st.viq = []) :
    exec (.sqres d x y) s = .next (enterTrap 0x01 (Instr.word (.sqres d x y)) s.st.pc s.st.csr.vstart s) := by
  rw [exec_sqres_eq hx hy, if_pos many]
  refine (scalar_trap (c := 0x01) (v := Instr.word (.sqres d x y)) (on_bind_error rfl) (strandGone_self s)).trans ?_
  unfold trapFrom scalarTrap
  rw [if_neg (not_not.mpr viq), if_neg (not_not.mpr viq)]

end

section
variable {P : TlbEntry} {s : State} {d x y : XReg} {b h n : Nat} {w : Nat} (hx : handleOf (s.readX x) = h) (hy : (s.readX y).toNat = n)
  (r : StrandReach (vineSelf s) P (footprint P (reserveLines s P h)) s (w + 257 + 7)) (v : Claims.OpenVine s P h b)
include hx hy r v

theorem exec_sqres_nothing (none : n = 0) : ∃ t, exec (.sqres d x y) s = .next t ∧ Claims.SameMem s t ∧
    t.st = ((s.writeX d (w64 (Claims.resLen s P h))).retire 4).st := by
  obtain ⟨t, run, a, _, _⟩ := r.reserve_nothing v (covers_footprint (by unfold reserveLines; exact .head _))
  rw [exec_sqres_eq hx hy, none, if_neg (by omega)]
  exact scalar_answers a (on_bind_ok run)

theorem exec_sqres_parks (positive : 0 < n) (most : n ≤ 4096) (fits : Claims.resLen s P h + n < 2 ^ 32)
    (full : 4096 < Claims.resLen s P h + n - Claims.cmtLen s P h) : ∃ t, exec (.sqres d x y) s = .next t ∧ Claims.SameMem s t ∧ t.st.park = 5 ∧
      t.st.wait = .vine (BitVec.ofNat 32 h) ∧ t.st.pc = s.st.pc ∧ t.st.x = s.st.x := by
  obtain ⟨t, csr, a, run⟩ := r.reserve_parks v (covers_footprint (by unfold reserveLines; exact .head _)) positive fits full
  rw [exec_sqres_eq hx hy, if_neg (Nat.not_lt.mpr most)]
  refine ⟨_, scalar_park (on_bind_error run) ?_, a.sameMem, rfl, rfl, ?_, ?_⟩
  · unfold strandGone
    show (s.st.resident && ! t.st.resident) = false
    rw [a.st, Bool.and_not_self]
  · show t.st.pc = s.st.pc
    rw [a.st]
  · show t.st.x = s.st.x
    rw [a.st]

theorem exec_sqres_reserves (wf : Memory.wf s.mem = true) (apart : Claims.Apart [Claims.descRange s h, Claims.mapRange s P h]) (positive : 0 < n)
    (most : n ≤ 4096) (fits : Claims.resLen s P h + n < 2 ^ 32) (window : Claims.resLen s P h + n - Claims.cmtLen s P h ≤ 4096)
    (own : ∀ p, Claims.resLen s P h / 16 ≤ p → p ≤ (Claims.resLen s P h + n - 1) / 16 → ∃ g, Claims.mapped s P h p = some g ∧
      Claims.count s P (Claims.poolNo s P h) g ≤ 1 ∧ Claims.Inside P (Claims.countAt s P (Claims.poolNo s P h) g) 2) :
    ∃ t, exec (.sqres d x y) s = .next t ∧ t.st = ((s.writeX d (w64 (Claims.resLen s P h))).retire 4).st ∧
      Claims.resLen t P h = Claims.resLen s P h + n ∧ Claims.cmtLen t P h = Claims.cmtLen s P h ∧
      Claims.OutsideSame s t P [Claims.descRange s h, Claims.mapRange s P h] := by
  obtain ⟨t, run, a, _, holds⟩ := r.reserve wf v apart positive most fits window own
  have whole : Act.on (do
      let r ← Machine.reserve h n
      apply fun s => s.writeX d (w64 r)) s = (.ok (), t.writeX d (w64 (Claims.resLen s P h))) := on_bind_ok run
  obtain ⟨u, step, st, same⟩ := scalar_writes whole a
  rw [exec_sqres_eq hx hy, if_neg (Nat.not_lt.mpr most)]
  refine ⟨u, step, st, ?_, ?_, same.outside a⟩
  · rw [same.resLen, resLen_of_vineIn holds]
    exact bits_setBits_high _ _ fits
  · rw [same.cmtLen, cmtLen_of_vineIn holds, ← vineIn_cmtLen]
    exact bits_setBits_high_low _ _

end

/-- The forms of SQRES. -/
theorem vineReserve : Claims.VineReserve := by
  intro s P d x y b h n R space canonical v apart
  have r := StrandReach.of_space space (reserveLines_few s P h)
  have hx : handleOf (s.readX x) = h := handleOf_eq _
  refine ⟨exec_sqres_nothing (w := 0) hx rfl r v, exec_sqres_many hx rfl, exec_sqres_parks (w := 0) hx rfl r v, fun positive most fits room own => ?_⟩
  refine exec_sqres_reserves (w := 0) hx rfl r v canonical.mem apart positive most fits room fun p low high => ?_
  obtain ⟨g, page, count, inside, _⟩ := own p low high
  exact ⟨g, page, count, inside⟩

end Sys2Proof.Machine
end
section
/-! SQCMT (R141), and the whole of O21. -/

namespace Sys2Proof.Machine

theorem exec_sqcmt (c : WideScope) (h r : XReg) (s : State) : exec (.sqcmt c h r) s = execSqcmt c h r s := rfl

/-! ## A commit -/

section
variable {P : TlbEntry} {U : Finset Nat} {s : State} {w h b a n : Nat} (r : StrandReach (vineSelf s) P U s w) (v : Claims.OpenVine s P h b)
  (desc : Covers P U (Claims.vineVa s h 0) 64)
include r v desc

theorem StrandReach.commit_nothing (low : Claims.cmtLen s P h ≤ a) (high : a ≤ Claims.resLen s P h) : Reads (vineSelf s) P U s (commit h a 0) () w := by
  refine .atomic (.get ((r.openVine v desc).seen fun t _ r' _ => ?_))
  rw [vineIn_cmtLen, vineIn_resLen, if_neg (by omega)]
  exact .pure r' trivial

theorem StrandReach.commit_traps (outside : a < Claims.cmtLen s P h ∨ Claims.resLen s P h < a + n) : ∃ t, Acts P s t [] ∧
    Act.on (commit h a n) s = (.error (.trap 0x05 (w64 h)), t) := by
  obtain ⟨t, read, acts, _, _⟩ := r.openVine v desc
  refine ⟨t, acts, on_vineAtomic_trap ?_⟩
  rw [on_bind_ok (on_get s)]
  dsimp only
  rw [on_bind_ok read, vineIn_cmtLen, vineIn_resLen, if_pos (.inr outside)]
  rfl

end

/-- What a commit may touch: the descriptor, the pool, the window and entries of the map. -/
def commitLines (s : State) (P : TlbEntry) (h : Nat) : List (Nat × Nat) :=
  [(Claims.vineVa s h 0, 64), (Claims.vineVa s (Claims.poolNo s P h) 0, 64), (Claims.overlay s P h, 512),
    (Claims.overlay s P h + 0x200 + 8 * (Claims.cmtLen s P h / 16), 8 * 257)]

theorem commitLines_few (s : State) (P : TlbEntry) (h : Nat) : (footprint P (commitLines s P h)).card + (257 + 7 + 64) ≤ 8192 := by
  have lines := card_footprint P (commitLines s P h)
  simp only [commitLines, List.map_cons, List.map_nil, List.sum_cons, List.sum_nil] at lines ⊢
  omega

section
variable {P : TlbEntry} {s : State} {w h b a n : Nat}

/-- The window after slots [a, a + n) have been set. -/
def setWindow (s : State) (P : TlbEntry) (h a n : Nat) : Nat := setSlots (Claims.at_ s P (Claims.overlay s P h) 512) a n

theorem setWindow_lt (s : State) (P : TlbEntry) (h a n : Nat) : setWindow s P h a n < 2 ^ (64 * 64) := by
  have small := at_lt_dwords s P (Claims.overlay s P h) 64
  rw [show 8 * 64 = 512 by rfl] at small
  unfold setWindow
  exact setSlots_lt (by omega) small a n

/-- The window and CMTLEN are written; UNC of the pages below goes, and strands wake. -/
theorem StrandReach.commitWrites {u : State} (r : StrandReach (vineSelf s) P (footprint P (commitLines s P h)) u (w + 257 + 7 + 64))
    (a1 : Acts P s u []) (wf : Memory.wf s.mem = true) (v : Claims.OpenVine s P h b)
    (apart : Claims.Apart [Claims.descRange s h, Claims.mapRange s P h]) (near : Claims.resLen s P h ≤ Claims.cmtLen s P h + 4096)
    {w' c : Nat} (small : w' < 2 ^ (64 * 64)) :
    Does (vineSelf s) P (footprint P (commitLines s P h)) u (do
      Machine.writeWindow (vineSelf s) (vineIn s P h) (Claims.at_ s P (Claims.overlay s P h) 512) w'
      Machine.writeVine (vineSelf s) (vineIn s P h) ((vineIn s P h).setCmt c)
      upFrom (if Claims.resLen s P h = 0 then 0 else (Claims.resLen s P h - 1) / 16 + 1 - Claims.cmtLen s P h / 16) (Claims.cmtLen s P h / 16) fun q => do
        if nothingOpen c (Claims.resLen s P h) q then Machine.setUnc (vineSelf s) (vineIn s P h) q false
      apply fun t => wakeVine t (vineSelf s).ctx h [5, 6]) () [Claims.descRange s h, Claims.mapRange s P h] w
      fun t => vineIn t P h = (vineIn s P h).setCmt c ∧ Claims.at_ t P (Claims.overlay s P h) 512 = w' := by
  have lies := vineIn_overlay v.vine
  obtain ⟨front, back⟩ := v.window
  obtain ⟨left, _⟩ := v.vine.inside
  have desc : Covers P (footprint P (commitLines s P h)) (Claims.vineVa s h 0) 64 := covers_footprint (by simp [commitLines])
  have pool : Covers P (footprint P (commitLines s P h)) (Claims.vineVa s (Claims.poolNo s P h) 0) 64 := covers_footprint (by simp [commitLines])
  have slots : Covers P (footprint P (commitLines s P h)) (Claims.overlay s P h) 512 := covers_footprint (by simp [commitLines])
  have map : Covers P (footprint P (commitLines s P h)) (Claims.overlay s P h + 0x200 + 8 * (Claims.cmtLen s P h / 16)) (8 * 257) :=
    covers_footprint (by simp [commitLines])
  have number : (if Claims.resLen s P h = 0 then 0 else (Claims.resLen s P h - 1) / 16 + 1 - Claims.cmtLen s P h / 16) ≤ 257 := by
    clear small
    split <;> omega
  have clear2 : Clear P [(Claims.overlay s P h, 512)] (Claims.vineVa u h 0) 64 := by
    rw [a1.vineVa]
    exact .cons left front (by have := apart_map apart; dsimp only; omega) (.nil P _ _)
  have clear3 : Clear P [Claims.descRange s h] (Claims.overlay s P h) 512 :=
    .cons front left (by have := apart_map apart; unfold Claims.descRange; dsimp only; omega) (.nil P _ _)
  have clear4 : Clear P [(Claims.overlay s P h + 0x200, 8 * Claims.mapLen s P h)] (Claims.vineVa s h 0) 64 :=
    .cons left (front.trans (Nat.le_add_right _ _)) (apart_entries apart) (.nil P _ _)
  have clear5 : Clear P [(Claims.overlay s P h + 0x200, 8 * Claims.mapLen s P h)] (Claims.overlay s P h) 512 :=
    .cons front (front.trans (Nat.le_add_right _ _)) (.inl le_rfl) (.nil P _ _)
  have windowInside : Claims.Inside P (Claims.overlay s P h) 512 := ⟨front, by clear small; omega⟩
  have form := a1.form wf
  have write := r.writeWindow (w := w + 257 + 7) (d := vineIn s P h) (old := Claims.at_ s P (Claims.overlay s P h) 512) form (by rwa [lies])
    (by rwa [lies]) (by rw [lies]; exact a1.at_nil _ _) small
  rw [lies] at write
  refine write.bind (window_within s P h) fun u2 a2 r2 bits => ?_
  have entry := (EntryCovered.mk v.vine.inside desc).next a1
  have set := r2.writeVine (w := w + 257) (new := (vineIn s P h).setCmt c) (a2.form form) (entry.next a2)
    ((a2.vineIn clear2).trans (a1.vineIn (.nil P _ _))) rfl rfl rfl rfl
  rw [a2.descRange, a1.descRange] at set
  refine set.bind (.subset (by simp)) fun u3 a3 r3 holds => ?_
  have poolEntry : EntryCovered u3 P (footprint P (commitLines s P h)) (vineIn s P h).pool :=
    (((EntryCovered.mk (by rw [vineIn_pool]; exact v.pool.inside) (by rw [vineIn_pool]; exact pool)).next a1).next a2).next a3
  have uncs := StrandReach.setUncs (d := vineIn s P h) (w := w) (p := Claims.cmtLen s P h / 16)
    (n := if Claims.resLen s P h = 0 then 0 else (Claims.resLen s P h - 1) / 16 + 1 - Claims.cmtLen s P h / 16)
    (r3.mono (Nat.add_le_add_left number w)) (a3.form (a2.form form)) (OpenVine_mapInside v)
    (fun q low high _ => by rw [lies]; exact map.sub (by clear small bits; omega) (by clear small bits; omega)) poolEntry
    (body := fun q => if nothingOpen c (Claims.resLen s P h) q then Machine.setUnc (vineSelf s) (vineIn s P h) q false else pure ())
    fun q => by
      by_cases nothing : nothingOpen c (Claims.resLen s P h) q = true
      · exact .inr ⟨false, if_pos nothing⟩
      · exact .inl (if_neg nothing)
  rw [lies, vineIn_mapLen] at uncs
  refine uncs.bind (entries_within s P h) fun u4 a4 r4 _ => ?_
  have wake := Does.aside (g := fun t => wakeVine t (vineSelf s).ctx h [5, 6]) (wakeVine_aside r4.park _ _ (by decide)) r4
  refine wake.widen (.nil _) le_rfl fun u5 a5 _ => ⟨?_, ?_⟩
  · rw [a5.vineIn (.nil P _ _), a4.vineIn (by rw [a3.vineVa, a2.vineVa, a1.vineVa]; exact clear4), holds]
  · rw [a5.at_nil, a4.at_clear clear5, a3.at_clear clear3]
    exact bits

/-- A commit of slots that are clear. -/
theorem StrandReach.commit (r : StrandReach (vineSelf s) P (footprint P (commitLines s P h)) s (w + 257 + 7 + 64)) (wf : Memory.wf s.mem = true)
    (v : Claims.OpenVine s P h b) (apart : Claims.Apart [Claims.descRange s h, Claims.mapRange s P h]) (positive : 0 < n)
    (low : Claims.cmtLen s P h ≤ a) (high : a + n ≤ Claims.resLen s P h) (near : Claims.resLen s P h ≤ Claims.cmtLen s P h + 4096)
    (clear : ∀ k, k < n → Claims.committed s P h (a + k) = false) : ∃ p, Grown (setWindow s P h a n) (Claims.cmtLen s P h) (Claims.resLen s P h) p ∧
    Does (vineSelf s) P (footprint P (commitLines s P h)) s (Machine.commit h a n) () [Claims.descRange s h, Claims.mapRange s P h] w
      fun t => vineIn t P h = (vineIn s P h).setCmt p.2 ∧ Claims.at_ t P (Claims.overlay s P h) 512 = p.1 := by
  have lies := vineIn_overlay v.vine
  obtain ⟨front, back⟩ := v.window
  have desc : Covers P (footprint P (commitLines s P h)) (Claims.vineVa s h 0) 64 := covers_footprint (by simp [commitLines])
  have slots : Covers P (footprint P (commitLines s P h)) (Claims.overlay s P h) 512 := covers_footprint (by simp [commitLines])
  have fresh : ((List.range n).any fun k => slotBit (Claims.at_ s P (Claims.overlay s P h) 512) (a + k)) = false := by
    rw [List.any_eq_false]
    intro k hk
    rw [← committed_eq front, clear k (List.mem_range.mp hk)]
    exact Bool.false_ne_true
  have grown : Grown (setWindow s P h a n) (Claims.cmtLen s P h) (Claims.resLen s P h)
    (growCommit (setWindow s P h a n) (Claims.cmtLen s P h) (Claims.resLen s P h) 4097) := growCommit_grown (by omega) near (by omega)
  refine ⟨_, grown, .atomic (.get ((r.openVine v desc).seen fun t a0 r0 _ => ?_))⟩
  rw [vineIn_cmtLen, vineIn_resLen, if_neg (by omega), if_pos (by omega)]
  refine (r0.window (d := vineIn s P h) (by rw [lies]; exact ⟨front, by omega⟩) (by rw [lies]; exact slots)).seen fun u a1 r1 _ => ?_
  rw [lies, a0.at_nil, fresh, if_neg Bool.false_ne_true]
  have small := grown.lt (setWindow_lt s P h a n)
  unfold setWindow at small ⊢
  generalize growCommit (setSlots (Claims.at_ s P (Claims.overlay s P h) 512) a n) (Claims.cmtLen s P h) (Claims.resLen s P h) 4097 = p at small ⊢
  obtain ⟨w', c⟩ := p
  exact r1.commitWrites (a0.trans a1) wf v apart near small

end

/-! ## SQCMT -/

/-- An action after a release that finds nothing to wait for. -/
theorem on_released {α : Type} {s : State} {c : Scope} {a : Act α} {r : Except Stop α × State} (h : Claims.ReleasedAt s c) (run : Act.on a s = r) :
    Act.on (do release c; a) s = r := (on_bind_ok (on_release h)).trans run

theorem overlay_of_vineIn {s t : State} {P : TlbEntry} {h : Nat} {d : Vine} (e : vineIn t P h = d) (same : d.w2 = (vineIn s P h).w2) :
    Claims.overlay t P h = Claims.overlay s P h := by
  have after := StrandReach.of_vineIn e (k := 2) (by omega)
  have before := StrandReach.of_vineIn (rfl : vineIn s P h = _) (k := 2) (by omega)
  exact after.trans ((congrArg BitVec.toNat same).trans before.symm)

theorem SameStructures.committed {s t : State} (e : SameStructures s t) (P : TlbEntry) (h j : Nat) : Claims.committed t P h j = Claims.committed s P h j := by
  unfold Claims.committed Claims.overlay
  rw [e.vineWord, at_congr e.mem]

section
variable {P : TlbEntry} {s : State} {c : WideScope} {x y : XReg} {b h a n w : Nat} (hx : handleOf (s.readX x) = h) (ha : bits (s.readX y) 0 32 = a)
  (hn : bits (s.readX y) 32 32 = n) (released : Claims.ReleasedAt s (wideScope c))
include hx ha hn

theorem exec_sqcmt_eq : exec (.sqcmt c x y) s = scalar 4 (do
    release (wideScope c)
    commit h a n) s := by
  rw [exec_sqcmt, execSqcmt, hx, ha, hn]

variable (r : StrandReach (vineSelf s) P (footprint P (commitLines s P h)) s (w + 257 + 7 + 64)) (v : Claims.OpenVine s P h b)
include released r v

theorem exec_sqcmt_nothing (none : n = 0) (low : Claims.cmtLen s P h ≤ a) (high : a ≤ Claims.resLen s P h) :
    ∃ t, exec (.sqcmt c x y) s = .next t ∧ Claims.SameMem s t ∧ t.st = (s.retire 4).st := by
  obtain ⟨t, run, acts, _, _⟩ := r.commit_nothing v (covers_footprint (by simp [commitLines])) low high
  subst none
  rw [exec_sqcmt_eq hx ha hn]
  obtain ⟨u, step, st, same⟩ := scalar_retires (on_released released run) acts
  exact ⟨u, step, same.sameMem acts, st⟩

theorem exec_sqcmt_traps (outside : a < Claims.cmtLen s P h ∨ Claims.resLen s P h < a + n) : ∃ t, exec (.sqcmt c x y) s = .next t ∧ Claims.SameMem s t ∧
    t.st = (enterTrap 0x05 (w64 h) s.st.pc s.st.csr.vstart s).st := by
  obtain ⟨t, acts, run⟩ := r.commit_traps v (covers_footprint (by simp [commitLines])) outside
  rw [exec_sqcmt_eq hx ha hn]
  exact scalar_traps (on_released released run) acts released.1

theorem exec_sqcmt_commits (wf : Memory.wf s.mem = true) (apart : Claims.Apart [Claims.descRange s h, Claims.mapRange s P h]) (positive : 0 < n)
    (low : Claims.cmtLen s P h ≤ a) (high : a + n ≤ Claims.resLen s P h) (near : Claims.resLen s P h ≤ Claims.cmtLen s P h + 4096)
    (clear : ∀ k, k < n → Claims.committed s P h (a + k) = false) :
    ∃ t p, exec (.sqcmt c x y) s = .next t ∧ t.st = (s.retire 4).st ∧ Claims.OutsideSame s t P [Claims.descRange s h, Claims.mapRange s P h] ∧
      Grown (setWindow s P h a n) (Claims.cmtLen s P h) (Claims.resLen s P h) p ∧ Claims.resLen t P h = Claims.resLen s P h ∧
      Claims.cmtLen t P h = p.2 ∧ ∀ j, Claims.committed t P h j = slotBit p.1 j := by
  obtain ⟨p, grown, t, run, acts, _, holds, bits⟩ := r.commit wf v apart positive low high near clear
  obtain ⟨u, step, st, same⟩ := scalar_retires (on_released released run) acts
  have small : p.2 < 2 ^ 32 := by
    have lt := vineWord_lt s P h 0
    have high := grown.high
    unfold Claims.resLen at high
    omega
  refine ⟨u, p, by rw [exec_sqcmt_eq hx ha hn]; exact step, st, same.outside acts, grown, ?_, ?_, fun j => ?_⟩
  · rw [same.resLen, resLen_of_vineIn holds, ← vineIn_resLen]
    exact bits_setBits_low_high _ _
  · rw [same.cmtLen, cmtLen_of_vineIn holds]
    exact bits_setBits_low _ _ small
  · have place := overlay_of_vineIn (s := s) holds rfl
    rw [same.committed, committed_eq (by rw [place]; exact v.window.1), place, bits]

end

/-- The forms of SQCMT. -/
theorem vineCommit : Claims.VineCommit := by
  intro s P c x y b h a n R C space canonical v apart released ordered near
  have r := StrandReach.of_space (w := 0 + 257 + 7 + 64) space (by have := commitLines_few s P h; omega)
  have hx : handleOf (s.readX x) = h := handleOf_eq _
  have ha : bits (s.readX y) 0 32 = a := tokenOf_eq _
  have hn : bits (s.readX y) 32 32 = n := by
    have lt := (s.readX y).isLt
    unfold bits
    omega
  refine ⟨exec_sqcmt_nothing hx ha hn released r v, exec_sqcmt_traps hx ha hn released r v, fun positive low high clear => ?_⟩
  obtain ⟨t, p, step, st, outside, grown, res, cmt, slots⟩ := exec_sqcmt_commits hx ha hn released r v canonical.mem apart positive low high near clear
  have now (j : Nat) (start : C ≤ j) (end_ : j < R) : slotBit (setWindow s P h a n) j = true ↔ Claims.nowCommitted s P h a n j := by
    unfold Claims.nowCommitted setWindow
    rw [slotBit_setSlots near low high start end_, committed_eq v.window.1]
  refine ⟨t, step, st, res, ?_⟩
  rw [cmt]
  refine ⟨grown.low, grown.high, fun j start end_ => (now j start (end_.trans_le grown.high)).mp (grown.past j start end_), fun short => ?_,
    fun j start end_ => ?_, outside⟩
  · rw [← now p.2 grown.low short, grown.stop short]
    exact Bool.false_ne_true
  · rw [slots, grown.ahead near start end_]
    exact now j (grown.low.trans start) end_

/-- Settles O21: a store, a reservation and a commit, each by what it writes to the vine's descriptor, window and map. -/
theorem vineWrites : Obligations.VineWrites := by
  unfold Obligations.VineWrites
  exact ⟨vineStore_stores, vineReserve, vineCommit⟩

end Sys2Proof.Machine
end
section
/-! SQOPEN (R138). -/

namespace Sys2Proof.Machine

/-- SQOPEN's effect at the homes: the code for xd. -/
def openHandle (f : VineFor) (h p : Nat) : Act Nat := do
  let v ← readVine f h
  if v.state ≠ vineFree then pure 1
  else
    match ← readPool f p with
    | none => pure 2
    | some pl =>
      writeVine f v { v with
        w0 := 0
        w1 := w64 (noParent * 2 ^ 32)
        w3 := setBits v.w3 0 32 pl.h
        w4 := w64 (pl.tokb * 2 ^ 32 + 4 * 2 ^ 24 + 0x10 + vineOpen) }
      pure 0

theorem exec_sqopen (d h p : XReg) (s : State) : exec (.sqopen d h p) s = scalar 4 (do
    let r ← vineAtomic (openHandle (vineSelf s) (handleOf (s.readX h)) (handleOf (s.readX p)))
    apply fun s => s.writeX d (w64 r)) s := rfl

/-- A fresh vine of a pool of tokens of b bytes. -/
def freshVine (v : Vine) (p b : Nat) : Vine :=
  { v with
    w0 := 0
    w1 := w64 (noParent * 2 ^ 32)
    w3 := setBits v.w3 0 32 p
    w4 := w64 (b * 2 ^ 32 + 4 * 2 ^ 24 + 0x10 + vineOpen) }

section
variable {f : VineFor} {P : TlbEntry} {U : Finset Nat} {s : State} {w h p b : Nat} (r : StrandReach f P U s w) (v : Claims.IsVine s P h)
  (desc : Covers P U (Claims.vineVa s h 0) 64)
include r v desc

theorem StrandReach.openHandle_taken (taken : Claims.vineStateOf s P h ≠ 0) : Reads f P U s (openHandle f h p) 1 w := by
  refine (r.readVine v desc).seen fun t _ r' _ => ?_
  rw [vineIn_state, if_pos (show _ ≠ vineFree from taken)]
  exact .pure r' trivial

theorem StrandReach.openHandle_noPool (free : Claims.vineStateOf s P h = 0) (above : ctxVtCount s s.st.ctx ≤ p) : Reads f P U s (openHandle f h p) 2 w := by
  refine (r.readVine v desc).seen fun t a r' _ => ?_
  rw [vineIn_state, if_neg (show ¬ _ ≠ vineFree from not_not.mpr free)]
  exact (r'.readPool_above (by rw [a.vtCount]; exact above)).seen fun u _ r'' _ => .pure r'' trivial

end

section
variable {f : VineFor} {P : TlbEntry} {U : Finset Nat} {s : State} {w h p b : Nat}

theorem StrandReach.openHandle (r : StrandReach f P U s (w + 7)) (wf : Memory.wf s.mem = true) (v : Claims.IsVine s P h)
    (desc : Covers P U (Claims.vineVa s h 0) 64) (free : Claims.vineStateOf s P h = 0) (pool : Claims.IsPool s P p b)
    (poolDesc : Covers P U (Claims.vineVa s p 0) 64) :
    Does f P U s (Machine.openHandle f h p) 0 [Claims.descRange s h] w fun t => vineIn t P h = freshVine (vineIn s P h) p b := by
  refine (r.readVine v desc).seen fun t a r' _ => ?_
  rw [vineIn_state, if_neg (show ¬ _ ≠ vineFree from not_not.mpr free)]
  refine (r'.readPool (a.isPool (.nil P _ _) pool) (by rw [a.vineVa]; exact poolDesc)).seen fun u a' r'' _ => ?_
  have a := a.trans a'
  have write := r''.writeVine (new := freshVine (vineIn s P h) p b) (a.form wf) ((EntryCovered.mk v.inside desc).next a) (a.vineIn (.nil P _ _)) rfl rfl
    rfl rfl
  rw [a.descRange] at write
  exact write.bind (.refl _) fun _ _ r3 holds => .pure r3 holds

end

/-! ## A descriptor in memory -/

section
variable {s t : State} {P : TlbEntry} {h : Nat} {d : Vine}

theorem vineStateOf_of_vineIn (e : vineIn t P h = d) : Claims.vineStateOf t P h = d.state := by rw [← e, vineIn_state]
theorem poolNo_of_vineIn (e : vineIn t P h = d) : Claims.poolNo t P h = d.pool := by rw [← e, vineIn_pool]
theorem mapLen_of_vineIn (e : vineIn t P h = d) : Claims.mapLen t P h = d.mapLen := by rw [← e, vineIn_mapLen]

theorem SameStructures.vineIn (e : SameStructures s t) (P : TlbEntry) (h : Nat) : vineIn t P h = vineIn s P h := by
  have base : vineEntry t t.st.ctx h = vineEntry s s.st.ctx h := by
    unfold vineEntry ctxVtBase descWord descAddr
    rw [e.mem, e.table, e.ctx]
  unfold Machine.vineIn
  simp only [e.vineWord, base]

end

/-- W4 of an OPEN vine without children, of depth D and tokens of b bytes. -/
theorem openWord_fields {b D : Nat} (hb : b ≤ 32768) (hD : D ≤ 4) :
    bits (w64 (b * 2 ^ 32 + 4 * 2 ^ 24 + D * 2 ^ 16 + 0x10 + vineOpen)) 0 3 = 1 := by
  unfold w64 vineOpen
  rw [bits_ofNat (by omega)]
  omega

section
variable {P : TlbEntry} {s : State} {d x y : XReg} {h p b w : Nat} (hx : handleOf (s.readX x) = h) (hy : handleOf (s.readX y) = p)

/-- What opening a vine may touch. -/
def openLines (s : State) (h p : Nat) : List (Nat × Nat) := [(Claims.vineVa s h 0, 64), (Claims.vineVa s p 0, 64)]

include hx hy

/-- An answer without an effect. -/
theorem exec_sqopen_answers {k : Nat} (run : Reads (vineSelf s) P (footprint P (openLines s h p)) s (openHandle (vineSelf s) h p) k w) :
    ∃ t, exec (.sqopen d x y) s = .next t ∧ Claims.SameMem s t ∧ t.st = ((s.writeX d (w64 k)).retire 4).st := by
  obtain ⟨t, run, a, _, _⟩ := run.atomic
  rw [exec_sqopen, hx, hy]
  exact scalar_answers a (on_bind_ok run)

theorem exec_sqopen_opens (r : StrandReach (vineSelf s) P (footprint P (openLines s h p)) s (w + 7)) (v : Claims.IsVine s P h)
    (wf : Memory.wf s.mem = true) (free : Claims.vineStateOf s P h = 0) (pool : Claims.IsPool s P p b) :
    ∃ t, exec (.sqopen d x y) s = .next t ∧ t.st = ((s.writeX d 0).retire 4).st ∧ vineIn t P h = freshVine (vineIn s P h) p b ∧
      Claims.OutsideSame s t P [Claims.descRange s h] := by
  obtain ⟨t, run, a, _, holds⟩ := (r.openHandle wf v (covers_footprint (by simp [openLines])) free pool (covers_footprint (by simp [openLines]))).atomic
  rw [exec_sqopen, hx, hy]
  have whole : Act.on (do
      let r ← vineAtomic (Machine.openHandle (vineSelf s) h p)
      apply fun s => s.writeX d (w64 r)) s = (.ok (), t.writeX d 0) := on_bind_ok run
  obtain ⟨u, step, st, same⟩ := scalar_writes whole a
  exact ⟨u, step, st, (same.vineIn P h).trans holds, same.outside a⟩

end

end Sys2Proof.Machine
end
section
/-! SQFORK (R144). -/

namespace Sys2Proof.Machine

theorem exec_sqfork (d h b : XReg) (s : State) : exec (.sqfork d h b) s = scalar 4 (do
    release .dv
    let r ← vineAtomic (fork (vineSelf s) (handleOf (s.readX h)) (bits (s.readX b) 32 32) (bits (s.readX b) 0 32))
    apply fun s => s.writeX d (w64 r)) s := rfl

/-! ## Counts -/

section
variable {f : VineFor} {P : TlbEntry} {U : Finset Nat} {s : State} {w g : Nat} {p : Pool}

theorem StrandReach.vineAt {va : VAddr} {k : Nat} (r : StrandReach f P U s w) (inside : Claims.Inside P va.toNat k) (hk : 0 < k) :
    Reads f P U s (vineAt f va) (P, Claims.keyAt P va.toNat) w := ⟨s, r.on_vineAt inside hk, .refl P s, r, trivial⟩

theorem StrandReach.vineL1 (r : StrandReach f P U s w) (a k : Nat) : Reads f P U s (vineL1 f a k) () w := by
  obtain ⟨t, l1, changed⟩ := r.on_vineL1 (k := k) a
  exact ⟨t, l1, changed.acts, changed.reach r, trivial⟩

theorem StrandReach.vineBad (r : StrandReach f P U s w) (a k : Nat) : vineBad f s a k = false := by
  unfold Machine.vineBad
  rw [poisonedAt_errorFree r.free, rdcPoisoned_errorFree r.free]
  rfl

/-- The end of a count's change upward, once the count has been read. -/
def raiseCount (f : VineFor) (va : VAddr) (c : Nat) : Act (Except VAddr (Option Nat)) :=
  if c = 0xFFFF ∨ (c = 0 ∧ (! true) = true) then pure (.ok none)
  else do
    vineWrite f va 2 (c + 1)
    pure (.ok (some (c + 1)))

/-- A count rises, or stays at its limit. -/
theorem StrandReach.countUp (r : StrandReach f P U s (w + 1)) (wf : Memory.wf s.mem = true) (inside : Claims.Inside P (countVa p g).toNat 2)
    (cov : Covers P U (countVa p g).toNat 2) :
    ∃ n, Does f P U s (changeCount f p g true) (.ok n) [((countVa p g).toNat, 2)] w fun _ => True := by
  have begins {n : Option Nat} (rest : ∀ t, Acts P s t [] → StrandReach f P U t (w + 1) →
      Does f P U t (raiseCount f (countVa p g) (Claims.at_ s P (countVa p g).toNat 2)) (.ok n) [((countVa p g).toNat, 2)] w fun _ => True) :
      Does f P U s (changeCount f p g true) (.ok n) [((countVa p g).toNat, 2)] w fun _ => True := by
    refine (r.vineAt inside (by omega)).seen fun t1 a1 r1 _ => (r1.vineL1 _ 2).seen fun t2 a2 r2 _ => .get ?_
    rw [r2.vineBad, if_neg Bool.false_ne_true]
    have a2 := a1.trans a2
    refine (r2.read inside (by omega) cov).seen fun t3 a3 r3 _ => ?_
    rw [a2.at_nil]
    exact rest t3 (a2.trans a3) r3
  by_cases full : Claims.at_ s P (countVa p g).toNat 2 = 0xFFFF
  · refine ⟨none, begins fun t _ r' => ?_⟩
    rw [raiseCount, if_pos (.inl full)]
    exact .pure (r'.mono (by omega)) trivial
  · refine ⟨some (Claims.at_ s P (countVa p g).toNat 2 + 1), begins fun t a r' => ?_⟩
    rw [raiseCount, if_neg (not_or.mpr ⟨full, fun e => Bool.false_ne_true e.2⟩)]
    exact (r'.write (a.form wf) inside (by omega) cov _).bind (.refl _) fun _ _ r'' _ => .pure r'' trivial

end

/-! ## The pages that are shared -/

/-- The counts of the first n pages of a vine, which g names. -/
def countRanges (s : State) (P : TlbEntry) (h : Nat) (g : Nat → Nat) (n : Nat) : List (Nat × Nat) :=
  (List.range n).map fun p => (Claims.countAt s P (Claims.poolNo s P h) (g p), 2)

/-- What a fork may touch: the child's descriptor, the pool, the chain of parents, and the counts. -/
def forkLines (s : State) (P : TlbEntry) (h k : Nat) (g : Nat → Nat) (n : Nat) : List (Nat × Nat) :=
  (Claims.vineVa s h 0, 64) :: (Claims.vineVa s k 0, 64) :: (Claims.vineVa s (Claims.poolNo s P h) 0, 64) ::
    (chainRanges s P 5 h 0x200 8192 ++ countRanges s P h g n)

theorem forkLines_few (s : State) (P : TlbEntry) (h k : Nat) (g : Nat → Nat) {n : Nat} (few : n ≤ 1024) :
    (footprint P (forkLines s P h k g n)).card + (n + 14) ≤ 8192 := by
  have lines := card_footprint P (forkLines s P h k g n)
  unfold forkLines countRanges at lines ⊢
  rw [List.map_cons, List.map_cons, List.map_cons, List.sum_cons, List.sum_cons, List.sum_cons, List.map_append, List.sum_append, chainRanges_lines,
    counts_lines, List.length_range] at lines
  omega

section
variable {f : VineFor} {P : TlbEntry} {s t : State} {w h k b n : Nat} {g : Nat → Nat}

/-- The pages of the first n tokens, each with its count. -/
structure Shared (s : State) (P : TlbEntry) (h : Nat) (g : Nat → Nat) (n : Nat) : Prop where
  page   : ∀ p < n, Claims.Resolves s P 5 h (16 * p) (g p)
  inside : ∀ p < n, Claims.Inside P (Claims.countAt s P (Claims.poolNo s P h) (g p)) 2
  clear  : VinesClear s P (countRanges s P h g n)

/-- One page of a fork: its count rises. -/
def shareStep (f : VineFor) (h : Nat) (d : Vine) (pl : Pool) (p : Nat) : Act (Option VAddr) := do
  let g ← resolve f h (16 * p) 5 d
  match ← changeCount f pl g true with
  | .error va => pure (some va)
  | .ok _ => pure none

theorem StrandReach.share (r : StrandReach f P (footprint P (forkLines s P h k g n)) t (w + n)) (a : Acts P s t []) (wf : Memory.wf s.mem = true)
    (v : Claims.OpenVine s P h b) (few : n ≤ 1024) (shared : Shared s P h g n) :
    Does f P (footprint P (forkLines s P h k g n)) t (firstError n 0 (shareStep f h (vineIn s P h) (poolIn s P (Claims.poolNo s P h) b))) none
      (countRanges s P h g n) w fun u => Acts P s u (countRanges s P h g n) := by
  obtain ⟨page, inside, clear⟩ := shared
  obtain ⟨_, _, _, top⟩ := r.place
  refine Does.firstError (c := 1) (I := fun _ u => Acts P s u (countRanges s P h g n)) (by rwa [Nat.one_mul]) (a.widen (.nil _)) fun p u v' _ below r' a => ?_
  rw [Nat.zero_add] at below
  have listed : (Claims.countAt s P (Claims.poolNo s P h) (g p), 2) ∈ countRanges s P h g n := List.mem_map_of_mem (List.mem_range.mpr below)
  have place := countVa_poolIn (b := b) top (inside p below) (by omega)
  have chain : ChainCovered s P (footprint P (forkLines s P h k g n)) 5 h (16 * p / 16) :=
    chainCovered (o := 0x200) (k := 8192) (fun q hq => .tail _ (.tail _ (.tail _ (List.mem_append_left _ hq)))) (by omega) (by omega)
  refine (StrandReach.resolve (page p below) a r' clear v.vine v.window chain h).bind (.nil _) fun u1 a1 r1 _ => ?_
  obtain ⟨c, count⟩ := r1.countUp (p := poolIn s P (Claims.poolNo s P h) b) (g := g p) (a1.form (a.form wf)) (by rw [place]; exact inside p below)
    (by rw [place]; exact covers_footprint (.tail _ (.tail _ (.tail _ (List.mem_append_right _ listed)))))
  rw [place] at count
  have within : Within [(Claims.countAt s P (Claims.poolNo s P h) (g p), 2)] (countRanges s P h g n) := .one listed le_rfl le_rfl
  refine count.bind within fun u2 a2 r2 _ => .pure r2 ?_
  exact (a.trans (a1.widen (.nil _))).trans (a2.widen within)

end

/-! ## The fork -/

/-- The child of a vine, at length L, of depth D. -/
def forkedVine (k : Vine) (h p b L D : Nat) : Vine :=
  { k with
    w0 := w64 (L * 2 ^ 32 + L)
    w1 := w64 ((if 0 < L then h else noParent) * 2 ^ 32 + L)
    w3 := setBits k.w3 0 32 p
    w4 := w64 (b * 2 ^ 32 + 4 * 2 ^ 24 + D * 2 ^ 16 + 0x10 + vineOpen) }

/-- Its parent of n children, with one more where it shares tokens. -/
def forkParent (d : Vine) (L n : Nat) : Vine := if 0 < L then d.setChildren (n + 1) else d

section
variable {f : VineFor} {P : TlbEntry} {U : Finset Nat} {s : State} {w h k b L : Nat} (r : StrandReach f P U s w) (v : Claims.OpenVine s P h b)
  (desc : Covers P U (Claims.vineVa s h 0) 64) (shallow : Claims.vineWord s P h 4 / 2 ^ 16 % 8 < 4)
include r v desc shallow

theorem StrandReach.fork_above (above : ctxVtCount s s.st.ctx ≤ k) : Reads f P U s (fork f h k L) 1 w := by
  refine (r.openVine v desc).seen fun t a r' _ => ?_
  rw [vineIn_depth, if_neg (by omega)]
  refine .get ?_
  rw [r'.ctx_eq, a.vtCount, if_pos above]
  exact .pure r' trivial

variable (child : Claims.IsVine s P k) (childDesc : Covers P U (Claims.vineVa s k 0) 64)
include child childDesc

theorem StrandReach.fork_taken (taken : Claims.vineStateOf s P k ≠ 0) : Reads f P U s (fork f h k L) 1 w := by
  refine (r.openVine v desc).seen fun t a r' _ => ?_
  rw [vineIn_depth, if_neg (by omega)]
  refine .get ?_
  rw [r'.ctx_eq, a.vtCount, if_neg (Nat.not_le.mpr child.listed)]
  refine (r'.readEntry ((EntryCovered.mk child.inside childDesc).next a)).seen fun u _ r'' _ => ?_
  rw [a.vineIn (.nil P _ _), vineIn_state, if_pos (.inr (show _ ≠ vineFree from taken))]
  exact .pure r'' trivial

theorem StrandReach.fork_short (free : Claims.vineStateOf s P k = 0) (short : Claims.cmtLen s P h < L) : Reads f P U s (fork f h k L) 2 w := by
  refine (r.openVine v desc).seen fun t a r' _ => ?_
  rw [vineIn_depth, if_neg (by omega)]
  refine .get ?_
  rw [r'.ctx_eq, a.vtCount, if_neg (Nat.not_le.mpr child.listed)]
  refine (r'.readEntry ((EntryCovered.mk child.inside childDesc).next a)).seen fun u _ r'' _ => ?_
  rw [a.vineIn (.nil P _ _), vineIn_state, vineIn_valid child, if_neg (show ¬ (_ ∨ _ ≠ vineFree) from by simp [free, vineFree]), vineIn_cmtLen,
    if_pos short]
  exact .pure r'' trivial

end

section
variable {f : VineFor} {P : TlbEntry} {s : State} {w h k b n L : Nat} {g : Nat → Nat}

/-- The ranges that a fork writes. -/
def forkRanges (s : State) (P : TlbEntry) (h k : Nat) (g : Nat → Nat) (n : Nat) : List (Nat × Nat) :=
  Claims.descRange s h :: Claims.descRange s k :: countRanges s P h g n

theorem StrandReach.fork (r : StrandReach f P (footprint P (forkLines s P h k g n)) s (w + 7 + 7 + n)) (wf : Memory.wf s.mem = true)
    (v : Claims.OpenVine s P h b) (shallow : Claims.vineWord s P h 4 / 2 ^ 16 % 8 < 4) (few : Claims.vineWord s P h 4 / 2 ^ 48 < 0xFFFF)
    (child : Claims.IsVine s P k) (free : Claims.vineStateOf s P k = 0) (reached : L ≤ Claims.cmtLen s P h) (pages : L = 16 * n) (most : n ≤ 1024)
    (shared : Shared s P h g n) (apart : Claims.Apart [Claims.descRange s h, Claims.descRange s k]) :
    Does f P (footprint P (forkLines s P h k g n)) s (Machine.fork f h k L) 0 (forkRanges s P h k g n) w fun t =>
      vineIn t P k = forkedVine (vineIn s P k) h (Claims.poolNo s P h) b L
        (if 0 < L then Claims.vineWord s P h 4 / 2 ^ 16 % 8 + 1 else 0) ∧
      vineIn t P h = forkParent (vineIn s P h) L (Claims.vineWord s P h 4 / 2 ^ 48) := by
  obtain ⟨left, _⟩ := v.vine.inside
  obtain ⟨left', _⟩ := child.inside
  have away : Claims.vineVa s h 0 + 64 ≤ Claims.vineVa s k 0 ∨ Claims.vineVa s k 0 + 64 ≤ Claims.vineVa s h 0 :=
    (List.pairwise_cons.mp apart).1 (Claims.descRange s k) List.mem_cons_self
  have desc : Covers P (footprint P (forkLines s P h k g n)) (Claims.vineVa s h 0) 64 := covers_footprint (.head _)
  have childDesc : Covers P (footprint P (forkLines s P h k g n)) (Claims.vineVa s k 0) 64 := covers_footprint (.tail _ (.head _))
  have pool : Covers P (footprint P (forkLines s P h k g n)) (Claims.vineVa s (Claims.poolNo s P h) 0) 64 := covers_footprint (.tail _ (.tail _ (.head _)))
  have whole : ¬ L % 16 ≠ 0 := by omega
  refine (r.openVine v desc).seen fun t a r' _ => ?_
  rw [vineIn_depth, if_neg (by omega)]
  refine .get ?_
  rw [r'.ctx_eq, a.vtCount, if_neg (Nat.not_le.mpr child.listed)]
  refine (r'.readEntry ((EntryCovered.mk child.inside childDesc).next a)).seen fun u a' r'' _ => ?_
  rw [a.vineIn (.nil P _ _), vineIn_state, vineIn_valid child, if_neg (show ¬ (_ ∨ _ ≠ vineFree) from by simp [free, vineFree]), vineIn_cmtLen,
    if_neg (Nat.not_lt.mpr reached), if_neg fun e => whole e.1, vineIn_children, if_neg (by omega), if_neg fun e => whole e.1]
  have a := a.trans a'
  refine (StrandReach.vinePool a r'' v pool).seen fun u1 a1 r1 _ => ?_
  have a := a.trans a1
  rw [show ceilDiv L 16 = n by unfold ceilDiv; omega]
  refine (StrandReach.share (w := w + 7 + 7) r1 a wf v most shared).bind (.subset ?_) fun u2 a2 r2 counted => ?_
  · exact fun q hq => .tail _ (.tail _ hq)
  rw [if_neg whole, vineIn_pool]
  have form := counted.form wf
  have write := r2.writeVine (w := w + 7) (h := k) (new := forkedVine (vineIn s P k) h (Claims.poolNo s P h) b L
    (if 0 < L then Claims.vineWord s P h 4 / 2 ^ 16 % 8 + 1 else 0)) form ((EntryCovered.mk child.inside childDesc).next counted)
    (counted.vineIn (shared.clear k child).1) rfl rfl rfl rfl
  rw [counted.descRange] at write
  refine write.bind (.subset fun q hq => .tail _ (by rw [List.mem_singleton.mp hq]; exact .head _)) fun u3 a3 r3 holds => ?_
  have clear3 : Clear P [Claims.descRange s k] (Claims.vineVa u2 h 0) 64 := by
    rw [counted.vineVa]
    exact .cons left left' away (.nil P _ _)
  have parent : vineIn u3 P h = vineIn s P h := (a3.vineIn clear3).trans (counted.vineIn (shared.clear h v.vine).1)
  have entry : EntryCovered u3 P (footprint P (forkLines s P h k g n)) h := ((EntryCovered.mk v.vine.inside desc).next counted).next a3
  by_cases some : 0 < L
  · have raise := r3.writeVine (w := w) (new := (vineIn s P h).setChildren (Claims.vineWord s P h 4 / 2 ^ 48 + 1)) (a3.form form) entry parent rfl rfl
      rfl rfl
    rw [a3.descRange, counted.descRange] at raise
    rw [if_pos some]
    refine raise.bind (.subset fun q hq => by rw [List.mem_singleton.mp hq]; exact .head _) fun u4 a4 r4 raised =>
      .pure r4 ⟨?_, raised.trans (if_pos some).symm⟩
    have clear4 : Clear P [Claims.descRange s h] (Claims.vineVa u3 k 0) 64 := by
      rw [a3.vineVa, counted.vineVa]
      exact .cons left' left away.symm (.nil P _ _)
    rw [a4.vineIn clear4, holds, if_pos some]
  · rw [if_neg some]
    exact .pure (r3.mono (by omega)) ⟨holds.trans (by rw [if_neg some]), parent.trans (if_neg some).symm⟩

end

/-! ## What a fork leaves -/

theorem w64_toNat {n : Nat} (h : n < 2 ^ 64) : (w64 n).toNat = n := by
  unfold w64
  rw [BitVec.toNat_ofNat, Nat.mod_eq_of_lt h]

section
variable {k : Vine} {h p b L D : Nat} (hh : h < 2 ^ 32) (hL : L < 2 ^ 32)

theorem forkedVine_state (hb : b ≤ 32768) (hD : D ≤ 4) : (forkedVine k h p b L D).state = 1 := openWord_fields hb hD

theorem forkedVine_pool (hp : p < 2 ^ 32) : (forkedVine k h p b L D).pool = p := bits_setBits_low _ _ hp

include hL

theorem forkedVine_resLen : (forkedVine k h p b L D).resLen = L := by
  show bits (w64 (L * 2 ^ 32 + L)) 32 32 = L
  unfold w64
  rw [bits_high (by omega)]
  omega

theorem forkedVine_cmtLen : (forkedVine k h p b L D).cmtLen = L := by
  show bits (w64 (L * 2 ^ 32 + L)) 0 32 = L
  unfold w64
  rw [bits_low (by omega)]
  omega

include hh

theorem forkedVine_w1 : (forkedVine k h p b L D).w1.toNat = (if L = 0 then 0xFFFFFFFF else h) * 2 ^ 32 + L := by
  have one : (if 0 < L then h else noParent) = if L = 0 then 0xFFFFFFFF else h := by unfold noParent; split_ifs <;> omega
  show (w64 ((if 0 < L then h else noParent) * 2 ^ 32 + L)).toNat = _
  rw [one]
  refine w64_toNat ?_
  split <;> omega

end

theorem withW4_w0 (d : Vine) (v : Word) : ({ d with w4 := v } : Vine).w0 = d.w0 := rfl

theorem setChildren_w0 (d : Vine) (n : Nat) : (d.setChildren n).w0 = d.w0 := withW4_w0 d (setBits d.w4 48 16 n)

theorem forkParent_w0 (d : Vine) (L n : Nat) : (forkParent d L n).w0 = d.w0 := by
  unfold forkParent
  split
  · exact setChildren_w0 d (n + 1)
  · rfl

theorem bits_setBits_top (v : Word) {n : Nat} (h : n < 2 ^ 16) : bits (setBits v 48 16 n) 48 16 = n := by
  have lt := v.isLt
  simp only [setBits, bits, BitVec.toNat_ofNat]
  omega

theorem forkParent_children {d : Vine} {L n : Nat} (holds : d.children = n) (few : n < 0xFFFF) :
    (forkParent d L n).children = n + (if L = 0 then 0 else 1) := by
  unfold forkParent
  by_cases some : 0 < L
  · rw [if_pos some, if_neg (by omega)]
    exact bits_setBits_top d.w4 (by omega)
  · rw [if_neg some, if_pos (by omega), holds, Nat.add_zero]

/-! ## SQFORK -/

section
variable {P : TlbEntry} {s : State} {d x y : XReg} {h k L b n w : Nat} {U : Finset Nat} (hx : handleOf (s.readX x) = h)
  (hk : bits (s.readX y) 32 32 = k) (hL : bits (s.readX y) 0 32 = L) (released : Claims.ReleasedAt s .dv)
include hx hk hL released

/-- An answer without an effect. -/
theorem exec_sqfork_answers {c : Nat} (run : Reads (vineSelf s) P U s (fork (vineSelf s) h k L) c w) :
    ∃ t, exec (.sqfork d x y) s = .next t ∧ Claims.SameMem s t ∧ t.st = ((s.writeX d (w64 c)).retire 4).st := by
  obtain ⟨t, run, a, _, _⟩ := run.atomic
  rw [exec_sqfork, hx, hk, hL]
  exact scalar_answers a (on_released released (on_bind_ok run))

theorem exec_sqfork_forks {l : List (Nat × Nat)} {Q : State → Prop} (run : Does (vineSelf s) P U s (fork (vineSelf s) h k L) 0 l w Q) :
    ∃ t u, exec (.sqfork d x y) s = .next u ∧ u.st = ((s.writeX d 0).retire 4).st ∧ SameStructures t u ∧ Q t := by
  obtain ⟨t, run, a, _, q⟩ := run.atomic
  have whole : Act.on (do
      release .dv
      let r ← vineAtomic (fork (vineSelf s) h k L)
      apply fun s => s.writeX d (w64 r)) s = (.ok (), t.writeX d 0) := on_released released (on_bind_ok run)
  obtain ⟨u, step, st, same⟩ := scalar_writes whole a
  rw [exec_sqfork, hx, hk, hL]
  exact ⟨t, u, step, st, same, q⟩

end

end Sys2Proof.Machine
end
section
/-! The forms of SQOPEN and SQFORK (R138, R144). -/

namespace Sys2Proof.Machine

/-! ## What opening a vine leaves -/

section
variable {v : Vine} {p b : Nat}

theorem freshVine_state (hb : b ≤ 32768) : (freshVine v p b).state = 1 := by
  have word := openWord_fields hb (show 0 ≤ 4 by omega)
  rwa [Nat.zero_mul, Nat.add_zero] at word

theorem freshVine_pool (hp : p < 2 ^ 32) : (freshVine v p b).pool = p := bits_setBits_low _ _ hp
theorem freshVine_mapLen : (freshVine v p b).mapLen = v.mapLen := bits_setBits_low_high v.w3 p
theorem freshVine_resLen : (freshVine v p b).resLen = 0 := by
  show bits 0 32 32 = 0
  decide
theorem freshVine_cmtLen : (freshVine v p b).cmtLen = 0 := by
  show bits 0 0 32 = 0
  decide

end

section
variable {s t : State} {P : TlbEntry} {h p b : Nat} (holds : vineIn t P h = freshVine (vineIn s P h) p b)
include holds

theorem vineWord_of_fresh : Claims.vineWord t P h 1 = 0xFFFFFFFF * 2 ^ 32 := StrandReach.of_vineIn holds (k := 1) (by omega)

theorem mapLen_of_fresh : Claims.mapLen t P h = Claims.mapLen s P h := by rw [mapLen_of_vineIn holds, freshVine_mapLen, vineIn_mapLen]

theorem overlay_of_fresh : Claims.overlay t P h = Claims.overlay s P h := overlay_of_vineIn holds rfl

end

/-! ## The hypotheses of a fork -/

theorem apart_last {x y z : Nat × Nat} (h : Claims.Apart [x, y, z]) :
    (x.1 + x.2 ≤ z.1 ∨ z.1 + z.2 ≤ x.1) ∧ (y.1 + y.2 ≤ z.1 ∨ z.1 + z.2 ≤ y.1) := by
  unfold Claims.Apart at h
  simp only [List.pairwise_cons, List.mem_cons, List.not_mem_nil, or_false, forall_eq_or_imp, forall_eq] at h
  exact ⟨h.1.2, h.2.1⟩

/-- The page of token 16 p of a vine, its count apart from every vine's descriptor and map. -/
def SharedPage (s : State) (P : TlbEntry) (h p g : Nat) : Prop :=
  Claims.Resolves s P 5 h (16 * p) g ∧ Claims.Inside P (Claims.countAt s P (Claims.poolNo s P h) g) 2 ∧
    ∀ a, Claims.IsVine s P a → Claims.Apart [Claims.descRange s a, Claims.mapRange s P a, (Claims.countAt s P (Claims.poolNo s P h) g, 2)]

theorem shared_of_pages {s : State} {P : TlbEntry} {h n : Nat} (pages : ∀ p < n, ∃ g, SharedPage s P h p g) : ∃ g, Shared s P h g n := by
  have each (p : Nat) : ∃ g, p < n → SharedPage s P h p g := by
    by_cases below : p < n
    · exact (pages p below).imp fun g page _ => page
    · exact ⟨0, fun e => absurd e below⟩
  choose g page using each
  refine ⟨g, fun p hp => (page p hp).1, fun p hp => (page p hp).2.1, fun a v => ⟨fun r hr => ?_, fun map r hr => ?_⟩⟩
  · obtain ⟨p, hp, rfl⟩ := List.mem_map.mp hr
    obtain ⟨_, inside, apart⟩ := page p (List.mem_range.mp hp)
    exact ⟨v.inside.1, inside.1, (apart_last (apart a v)).1⟩
  · obtain ⟨p, hp, rfl⟩ := List.mem_map.mp hr
    obtain ⟨_, inside, apart⟩ := page p (List.mem_range.mp hp)
    exact ⟨map.1, inside.1, (apart_last (apart a v)).2⟩

/-! ## The forms -/

/-- SQOPEN on a valid descriptor. -/
theorem sqopen_forms {s : State} {P : TlbEntry} {d x y : XReg} {h L : Nat} (hx : handleOf (s.readX x) = h) (hy : handleOf (s.readX y) = L)
    (space : Claims.VineSpace s P) (canonical : Claims.Canonical s) (v : Claims.IsVine s P h) :
    (Claims.vineStateOf s P h ≠ 0 → ∃ t, exec (.sqopen d x y) s = .next t ∧ Claims.SameMem s t ∧ t.st = ((s.writeX d 1).retire 4).st) ∧
    (Claims.vineStateOf s P h = 0 → ctxVtCount s s.st.ctx ≤ L → ∃ t, exec (.sqopen d x y) s = .next t ∧ Claims.SameMem s t ∧
      t.st = ((s.writeX d 2).retire 4).st) ∧
    (∀ b, Claims.vineStateOf s P h = 0 → Claims.IsPool s P L b → ∃ t, exec (.sqopen d x y) s = .next t ∧ t.st = ((s.writeX d 0).retire 4).st ∧
      vineIn t P h = freshVine (vineIn s P h) L b ∧ Claims.OutsideSame s t P [Claims.descRange s h]) := by
  have few : (footprint P (openLines s h L)).card + (0 + 7) ≤ 8192 := by
    have lines := card_footprint P (openLines s h L)
    simp only [openLines, List.map_cons, List.map_nil, List.sum_cons, List.sum_nil] at lines ⊢
    omega
  have r := StrandReach.of_space space few
  have desc : Covers P (footprint P (openLines s h L)) (Claims.vineVa s h 0) 64 := covers_footprint (by simp [openLines])
  exact ⟨fun taken => exec_sqopen_answers hx hy (r.openHandle_taken v desc taken),
    fun free above => exec_sqopen_answers hx hy (r.openHandle_noPool v desc free above),
    fun b free pool => exec_sqopen_opens hx hy r v canonical.mem free pool⟩

section
variable {s : State} {P : TlbEntry} {d x y : XReg} {h k L b : Nat} (hx : handleOf (s.readX x) = h) (hk : bits (s.readX y) 32 32 = k)
  (hL : bits (s.readX y) 0 32 = L) (space : Claims.VineSpace s P) (v : Claims.OpenVine s P h b) (released : Claims.ReleasedAt s .dv)
  (shallow : Claims.vineWord s P h 4 / 2 ^ 16 % 8 < 4)
include hx hk hL space v released shallow

/-- A fork that is refused. -/
theorem sqfork_refused :
    (ctxVtCount s s.st.ctx ≤ k ∨ (Claims.IsVine s P k ∧ Claims.vineStateOf s P k ≠ 0) → ∃ t, exec (.sqfork d x y) s = .next t ∧
      Claims.SameMem s t ∧ t.st = ((s.writeX d 1).retire 4).st) ∧
    (Claims.IsVine s P k → Claims.vineStateOf s P k = 0 → Claims.cmtLen s P h < L → ∃ t, exec (.sqfork d x y) s = .next t ∧
      Claims.SameMem s t ∧ t.st = ((s.writeX d 2).retire 4).st) := by
  have r := StrandReach.of_space (w := 0) space (U := footprint P (forkLines s P h k (fun _ => 0) 0))
    (by have := forkLines_few s P h k (fun _ => 0) (n := 0) (by omega); omega)
  have desc : Covers P (footprint P (forkLines s P h k (fun _ => 0) 0)) (Claims.vineVa s h 0) 64 := covers_footprint (.head _)
  have child : Covers P (footprint P (forkLines s P h k (fun _ => 0) 0)) (Claims.vineVa s k 0) 64 := covers_footprint (.tail _ (.head _))
  refine ⟨fun no => ?_, fun kv free short => exec_sqfork_answers hx hk hL released (r.fork_short v desc shallow kv child free short)⟩
  rcases no with above | ⟨kv, taken⟩
  · exact exec_sqfork_answers hx hk hL released (r.fork_above v desc shallow above)
  · exact exec_sqfork_answers hx hk hL released (r.fork_taken v desc shallow kv child taken)

/-- A fork at a length of whole pages. -/
theorem sqfork_forks (wf : Memory.wf s.mem = true) (few : Claims.vineWord s P h 4 / 2 ^ 48 < 0xFFFF) (child : Claims.IsVine s P k)
    (free : Claims.vineStateOf s P k = 0) (reached : L ≤ Claims.cmtLen s P h) (whole : L % 16 = 0) (most : L ≤ 16384)
    (pages : ∀ p < L / 16, ∃ g, SharedPage s P h p g) (apart : Claims.Apart [Claims.descRange s h, Claims.descRange s k]) :
    ∃ t, exec (.sqfork d x y) s = .next t ∧ t.st = ((s.writeX d 0).retire 4).st ∧
      vineIn t P k = forkedVine (vineIn s P k) h (Claims.poolNo s P h) b L (if 0 < L then Claims.vineWord s P h 4 / 2 ^ 16 % 8 + 1 else 0) ∧
      vineIn t P h = forkParent (vineIn s P h) L (Claims.vineWord s P h 4 / 2 ^ 48) := by
  obtain ⟨g, shared⟩ := shared_of_pages pages
  have r := StrandReach.of_space (w := 0 + 7 + 7 + L / 16) space (U := footprint P (forkLines s P h k g (L / 16)))
    (by have := forkLines_few s P h k g (n := L / 16) (by omega); omega)
  obtain ⟨t, u, step, st, same, kid, parent⟩ := exec_sqfork_forks (d := d) hx hk hL released
    (r.fork wf v shallow few child free reached (by omega) (by omega) shared apart)
  exact ⟨u, step, st, (same.vineIn P k).trans kid, (same.vineIn P h).trans parent⟩

end

theorem vineOpenFork : Claims.VineOpenFork := by
  intro s P d x y b h L k space canonical v
  have hx : handleOf (s.readX x) = h := handleOf_eq _
  have hL : bits (s.readX y) 0 32 = L := handleOf_eq _
  have hk : bits (s.readX y) 32 32 = k := by
    have lt := (s.readX y).isLt
    unfold bits
    omega
  obtain ⟨taken, noPool, opens⟩ := sqopen_forms (d := d) hx hL space canonical v
  refine ⟨taken, noPool, fun free pool => ?_, fun live released shallow few => ?_⟩
  · obtain ⟨t, step, st, holds, outside⟩ := opens b free pool
    obtain ⟨_, _, _, least⟩ := pool.tokb
    refine ⟨t, step, st, ?_, ?_, ?_, ?_, mapLen_of_fresh holds, overlay_of_fresh holds, vineWord_of_fresh holds, outside⟩
    · rw [vineStateOf_of_vineIn holds, freshVine_state least]
    · rw [resLen_of_vineIn holds, freshVine_resLen]
    · rw [cmtLen_of_vineIn holds, freshVine_cmtLen]
    · rw [poolNo_of_vineIn holds, freshVine_pool (by omega)]
  obtain ⟨_, _, _, least⟩ := live.pool.tokb
  obtain ⟨taken, short⟩ := sqfork_refused (d := d) hx hk hL space live released shallow
  refine ⟨taken, short, fun child free reached whole most pages apart => ?_⟩
  obtain ⟨t, step, st, kid, parent⟩ := sqfork_forks (d := d) hx hk hL space live released shallow canonical.mem few child free reached whole most
    (fun p below => by
      obtain ⟨g, page, inside, _, _, apart⟩ := pages p below
      exact ⟨g, page, inside, apart⟩) apart
  have hp : Claims.poolNo s P h < 2 ^ 32 := Nat.mod_lt _ (by omega)
  have bound : L < 2 ^ 32 := by omega
  have depth : (if 0 < L then Claims.vineWord s P h 4 / 2 ^ 16 % 8 + 1 else 0) ≤ 4 := by split <;> omega
  refine ⟨t, step, st, ?_, ?_, ?_, ?_, ?_, ?_, ?_, ?_⟩
  · rw [vineStateOf_of_vineIn kid, forkedVine_state least depth]
  · rw [resLen_of_vineIn kid, forkedVine_resLen bound]
  · rw [cmtLen_of_vineIn kid, forkedVine_cmtLen bound]
  · rw [poolNo_of_vineIn kid, forkedVine_pool hp]
  · rw [StrandReach.of_vineIn kid (k := 1) (by omega)]
    exact forkedVine_w1 (Nat.mod_lt _ (by omega)) bound
  · rw [resLen_of_vineIn parent, ← vineIn_resLen, Vine.resLen, Vine.resLen, forkParent_w0]
  · rw [cmtLen_of_vineIn parent, ← vineIn_cmtLen, Vine.cmtLen, Vine.cmtLen, forkParent_w0]
  · rw [← vineIn_children, parent, forkParent_children (vineIn_children s P h) few]

end Sys2Proof.Machine
end
section
/-! SQTRIM (R153). -/

namespace Sys2Proof.Machine

theorem exec_sqtrim (d h n : XReg) (s : State) : exec (.sqtrim d h n) s = scalar 4 (do
    let r ← vineAtomic (trim (vineSelf s) (handleOf (s.readX h)) (bits (s.readX n) 0 32))
    apply fun s => s.writeX d (w64 r)) s := rfl

/-! ## The highest committed slot -/

/-- The value is 0, or one more than a committed slot; and it is above every committed slot. -/
structure Highest (w c n m : Nat) : Prop where
  above : ∀ k < n, slotBit w (c + k) = true → c + k < m
  slot  : m = 0 ∨ ∃ k < n, slotBit w (c + k) = true ∧ m = c + k + 1

theorem highestSlot_highest (w c r : Nat) : Highest w c (r - c) (highestSlot w c r) := by
  unfold highestSlot
  induction r - c with
  | zero => exact ⟨fun k hk => absurd hk (Nat.not_lt_zero k), .inl rfl⟩
  | succ n ih =>
    obtain ⟨above, slot⟩ := ih
    rw [List.range_succ, List.foldl_append]
    generalize (List.range n).foldl (fun m k => if slotBit w (c + k) then c + k + 1 else m) 0 = m at above slot
    show Highest w c (n + 1) (if slotBit w (c + n) then c + n + 1 else m)
    by_cases set : slotBit w (c + n) = true
    · rw [if_pos set]
      exact ⟨fun k hk _ => by omega, .inr ⟨n, by omega, set, rfl⟩⟩
    · rw [if_neg set]
      refine ⟨fun k hk bit => ?_, slot.imp id fun ⟨k, hk, rest⟩ => ⟨k, by omega, rest⟩⟩
      by_cases last : k = n
      · rw [last] at bit
        exact absurd bit set
      · exact above k (by omega) bit

/-- The new RESLEN of a trim, in the statements' words. -/
theorem trimmed_eq {w c r n new : Nat} (low : n ≤ new) (start : c ≤ new) (short : new < r) (clear : ∀ j, new ≤ j → j < r → slotBit w j = false)
    (least : new = n ∨ new = c ∨ (0 < new ∧ slotBit w (new - 1) = true)) : max n (max c (highestSlot w c r)) = new := by
  obtain ⟨above, slot⟩ := highestSlot_highest w c r
  have upper : highestSlot w c r ≤ new := by
    rcases slot with zero | ⟨k, hk, set, value⟩
    · omega
    · by_contra beyond
      rw [clear (c + k) (by omega) (by omega)] at set
      cases set
  have reached (set : slotBit w (new - 1) = true) : new ≤ max c (highestSlot w c r) := by
    by_cases inner : c ≤ new - 1
    · have beyond := above (new - 1 - c) (by omega) (by rwa [Nat.add_sub_cancel' inner])
      omega
    · omega
  rcases least with rfl | rfl | ⟨_, set⟩
  · omega
  · omega
  · have := reached set
    omega

/-! ## A trim -/

/-- What a trim may touch: the descriptor, the pool, the window and the map. -/
def trimLines (s : State) (P : TlbEntry) (h : Nat) : List (Nat × Nat) :=
  [(Claims.vineVa s h 0, 64), (Claims.vineVa s (Claims.poolNo s P h) 0, 64), (Claims.overlay s P h, 512 + 8 * 512)]

theorem trimLines_few (s : State) (P : TlbEntry) (h : Nat) : (footprint P (trimLines s P h)).card + (257 + 7) ≤ 8192 := by
  have lines := card_footprint P (trimLines s P h)
  simp only [trimLines, List.map_cons, List.map_nil, List.sum_cons, List.sum_nil] at lines ⊢
  omega

theorem StrandReach.releaseRoom {f : VineFor} {P : TlbEntry} {U : Finset Nat} {s : State} {w : Nat} (r : StrandReach f P U s w) (idle : s.waitRel = []) :
    Reads f P U s releaseRoom () w := by
  refine .get ?_
  rw [idle, if_neg (by simp)]
  exact .pure r trivial

/-- A page that is given up. -/
def trimStep (f : VineFor) (h : Nat) (d : Vine) (pl : Pool) (q : Nat) : Act (Option VAddr) := do
  let e ← mapEntry f d q
  if mapValid e then
    let r ← dropPage f h pl (mapPage e)
    vineWrite f (mapVa d q) 8 0
    pure r
  else pure none

/-- What a trim to new does once the pool is known. -/
def trimTo (f : VineFor) (h : Nat) (d : Vine) (pl : Pool) (c m new : Nat) : Act Nat := do
  writeVine f d (d.setRes new)
  let err ← firstError (m - ceilDiv new 16) (ceilDiv new 16) (trimStep f h d pl)
  upFrom (ceilDiv new 16 - c / 16) (c / 16) fun k => do
    if nothingOpen c new k then setUnc f d k false
  apply fun s => wakeVine (allPinsDue s) f.ctx h [5]
  countTrap err
  pure new

section
variable {P : TlbEntry} {f : VineFor} {s : State} {w h b n new : Nat} (v : Claims.OpenVine s P h b) (idle : s.waitRel = [])
include v idle

/-- Where RESLEN is no higher. -/
theorem StrandReach.trim_nothing (r : StrandReach f P (footprint P (trimLines s P h)) s w) (low : Claims.resLen s P h ≤ n) :
    Reads f P (footprint P (trimLines s P h)) s (trim f h n) (Claims.resLen s P h) w := by
  have lies := vineIn_overlay v.vine
  obtain ⟨front, back⟩ := v.window
  have slots : Covers P (footprint P (trimLines s P h)) (Claims.overlay s P h) (512 + 8 * 512) := covers_footprint (by simp [trimLines])
  refine (r.openVine v (covers_footprint (by simp [trimLines]))).seen fun t a r1 _ => ?_
  refine (r1.releaseRoom (a.rel.trans idle)).seen fun t1 _ r2 _ => ?_
  refine (r2.window (d := vineIn s P h) (by rw [lies]; exact ⟨front, by omega⟩) (by rw [lies]; exact slots.sub le_rfl (by omega))).seen fun u _ r3 _ => ?_
  rw [vineIn_resLen, if_pos (low.trans (le_max_left _ _))]
  exact .pure r3 trivial

variable (wf : Memory.wf s.mem = true) (apart : Claims.Apart [Claims.descRange s h, Claims.mapRange s P h])
  (small : Claims.mapLen s P h ≤ 512) (unmapped : ∀ q, (new + 15) / 16 ≤ q → Claims.mapped s P h q = none)
  (start : Claims.cmtLen s P h ≤ new) (short : new < Claims.resLen s P h) (near : Claims.resLen s P h ≤ Claims.cmtLen s P h + 4096)
include wf apart small unmapped start short near

omit idle in
/-- RESLEN falls; no page above is mapped. -/
theorem StrandReach.trimTo {u : State} (r : StrandReach f P (footprint P (trimLines s P h)) u (w + 257 + 7)) (a : Acts P s u []) (pl : Pool) :
    Does f P (footprint P (trimLines s P h)) u (Machine.trimTo f h (vineIn s P h) pl (Claims.cmtLen s P h) (Claims.mapLen s P h) new) new
      [Claims.descRange s h, Claims.mapRange s P h] w fun t => vineIn t P h = (vineIn s P h).setRes new := by
  have lies := vineIn_overlay v.vine
  obtain ⟨front, back⟩ := v.window
  obtain ⟨left, _⟩ := v.vine.inside
  have away := apart_map apart
  have desc : Covers P (footprint P (trimLines s P h)) (Claims.vineVa s h 0) 64 := covers_footprint (by simp [trimLines])
  have pool : Covers P (footprint P (trimLines s P h)) (Claims.vineVa s (Claims.poolNo s P h) 0) 64 := covers_footprint (by simp [trimLines])
  have whole : Covers P (footprint P (trimLines s P h)) (Claims.overlay s P h) (512 + 8 * 512) := covers_footprint (by simp [trimLines])
  have entries (q : Nat) (below : q < (vineIn s P h).mapLen) :
      Covers P (footprint P (trimLines s P h)) ((vineIn s P h).overlay.toNat + 0x200 + 8 * q) 8 := by
    rw [vineIn_mapLen] at below
    rw [lies]
    exact whole.sub (by omega) (by omega)
  have clear1 : Clear P [Claims.descRange s h] (vineIn s P h).overlay.toNat (512 + 8 * (vineIn s P h).mapLen) := by
    rw [lies, vineIn_mapLen]
    exact .cons front left (by unfold Claims.descRange; dsimp only; omega) (.nil P _ _)
  have clear2 : Clear P [(Claims.overlay s P h + 0x200, 8 * Claims.mapLen s P h)] (Claims.vineVa s h 0) 64 :=
    .cons left (front.trans (Nat.le_add_right _ _)) (apart_entries apart) (.nil P _ _)
  have write := r.writeVine (w := w + 257) (new := (vineIn s P h).setRes new) (a.form wf) ((EntryCovered.mk v.vine.inside desc).next a)
    (a.vineIn (.nil P _ _)) rfl rfl rfl rfl
  rw [a.descRange] at write
  refine write.bind (.subset (by simp)) fun u1 a1 r1 holds => ?_
  have kept := (a.widen (.nil [Claims.descRange s h])).trans a1
  have drops : Does f P (footprint P (trimLines s P h)) u1
      (firstError (Claims.mapLen s P h - ceilDiv new 16) (ceilDiv new 16) (trimStep f h (vineIn s P h) pl)) none [] (w + 257) fun u => Acts P u1 u [] := by
    refine Does.firstError (c := 0) (I := fun _ u => Acts P u1 u []) (by rwa [Nat.zero_mul]) (.refl P u1) fun q t v' low _ r' a' => ?_
    refine (r'.mapEntry (OpenVine_mapInside v) (entries q)).seen fun t' b r'' _ => ?_
    have off : mapValid (mapWord t P (vineIn s P h) q) = false := by
      rw [a'.mapWord (.nil P _ _), kept.mapWord clear1, mapWord_of_unmapped v.vine (unmapped q (by unfold ceilDiv at low; omega))]
    rw [off]
    exact .pure r'' (a'.trans b)
  refine drops.bind (.nil _) fun u2 a2 r2 _ => ?_
  have poolEntry : EntryCovered u2 P (footprint P (trimLines s P h)) (vineIn s P h).pool :=
    ((EntryCovered.mk (by rw [vineIn_pool]; exact v.pool.inside) (by rw [vineIn_pool]; exact pool)).next kept).next a2
  have uncs := StrandReach.setUncs (d := vineIn s P h) (w := w) (n := ceilDiv new 16 - Claims.cmtLen s P h / 16) (p := Claims.cmtLen s P h / 16)
    (r2.mono (by unfold ceilDiv; omega)) (a2.form (kept.form wf)) (OpenVine_mapInside v) (fun q _ _ => entries q) poolEntry
    (body := fun k => if nothingOpen (Claims.cmtLen s P h) new k then Machine.setUnc f (vineIn s P h) k false else pure ())
    fun q => by
      by_cases nothing : nothingOpen (Claims.cmtLen s P h) new q = true
      · exact .inr ⟨false, if_pos nothing⟩
      · exact .inl (if_neg nothing)
  rw [lies, vineIn_mapLen] at uncs
  refine uncs.bind (entries_within s P h) fun u3 a3 r3 _ => ?_
  have due := allPinsDue_aside u3
  have wake := Does.aside (g := fun t => wakeVine (allPinsDue t) f.ctx h [5])
    (due.trans (wakeVine_aside (by rw [due.st]; exact r3.park) _ _ (by decide))) r3
  refine wake.bind (.nil _) fun u4 a4 r4 _ => .pure r4 ?_
  rw [a4.vineIn (.nil P _ _), a3.vineIn (by rw [a2.vineVa, kept.vineVa]; exact clear2), a2.vineIn (.nil P _ _), holds]

theorem StrandReach.trim (r : StrandReach f P (footprint P (trimLines s P h)) s (w + 257 + 7)) (low : n ≤ new)
    (clear : ∀ j, new ≤ j → j < Claims.resLen s P h → Claims.committed s P h j = false)
    (least : new = n ∨ new = Claims.cmtLen s P h ∨ (0 < new ∧ Claims.committed s P h (new - 1) = true)) :
    Does f P (footprint P (trimLines s P h)) s (Machine.trim f h n) new [Claims.descRange s h, Claims.mapRange s P h] w
      fun t => vineIn t P h = (vineIn s P h).setRes new := by
  have lies := vineIn_overlay v.vine
  obtain ⟨front, back⟩ := v.window
  have pool : Covers P (footprint P (trimLines s P h)) (Claims.vineVa s (Claims.poolNo s P h) 0) 64 := covers_footprint (by simp [trimLines])
  have slots : Covers P (footprint P (trimLines s P h)) (Claims.overlay s P h) (512 + 8 * 512) := covers_footprint (by simp [trimLines])
  simp only [committed_eq front] at clear least
  refine (r.openVine v (covers_footprint (by simp [trimLines]))).seen fun t a r1 _ => ?_
  refine (r1.releaseRoom (a.rel.trans idle)).seen fun t1 a1 r2 _ => ?_
  have a := a.trans a1
  refine (r2.window (d := vineIn s P h) (by rw [lies]; exact ⟨front, by omega⟩) (by rw [lies]; exact slots.sub le_rfl (by omega))).seen fun u a2 r3 _ => ?_
  rw [lies, a.at_nil, vineIn_resLen, vineIn_cmtLen, vineIn_mapLen, trimmed_eq low start short clear least, if_neg (Nat.not_le.mpr short)]
  have a := a.trans a2
  refine (StrandReach.vinePool a r3 v pool).seen fun u1 a3 r4 _ => ?_
  exact StrandReach.trimTo v wf apart small unmapped start short near r4 (a.trans a3) _

end

/-! ## SQTRIM -/

section
variable {P : TlbEntry} {s : State} {d x y : XReg} {h n b new : Nat} (hx : handleOf (s.readX x) = h) (hy : bits (s.readX y) 0 32 = n)
  (space : Claims.VineSpace s P) (v : Claims.OpenVine s P h b) (idle : s.waitRel = [])
include hx hy space v idle

theorem exec_sqtrim_nothing (low : Claims.resLen s P h ≤ n) : ∃ t, exec (.sqtrim d x y) s = .next t ∧ Claims.SameMem s t ∧
    t.st = ((s.writeX d (w64 (Claims.resLen s P h))).retire 4).st := by
  have r := (StrandReach.of_space space (trimLines_few s P h)).mono (k := 0) (Nat.zero_le _)
  obtain ⟨t, run, a, _, _⟩ := (r.trim_nothing v idle low).atomic
  rw [exec_sqtrim, hx, hy]
  exact scalar_answers a (on_bind_ok run)

theorem exec_sqtrim_trims (wf : Memory.wf s.mem = true) (apart : Claims.Apart [Claims.descRange s h, Claims.mapRange s P h])
    (small : Claims.mapLen s P h ≤ 512) (unmapped : ∀ q, (new + 15) / 16 ≤ q → Claims.mapped s P h q = none) (start : Claims.cmtLen s P h ≤ new)
    (short : new < Claims.resLen s P h) (near : Claims.resLen s P h ≤ Claims.cmtLen s P h + 4096) (low : n ≤ new)
    (clear : ∀ j, new ≤ j → j < Claims.resLen s P h → Claims.committed s P h j = false)
    (least : new = n ∨ new = Claims.cmtLen s P h ∨ (0 < new ∧ Claims.committed s P h (new - 1) = true)) :
    ∃ t, exec (.sqtrim d x y) s = .next t ∧ t.st = ((s.writeX d (w64 new)).retire 4).st ∧ Claims.resLen t P h = new ∧
      Claims.cmtLen t P h = Claims.cmtLen s P h ∧ Claims.OutsideSame s t P [Claims.descRange s h, Claims.mapRange s P h] := by
  have r := StrandReach.of_space (w := 0 + 257 + 7) space (by have := trimLines_few s P h; omega)
  obtain ⟨t, run, a, _, holds⟩ := (r.trim v idle wf apart small unmapped start short near low clear least).atomic
  have whole : Act.on (do
      let r ← vineAtomic (Machine.trim (vineSelf s) h n)
      apply fun s => s.writeX d (w64 r)) s = (.ok (), t.writeX d (w64 new)) := on_bind_ok run
  obtain ⟨u, step, st, same⟩ := scalar_writes whole a
  have bound : Claims.resLen s P h < 2 ^ 32 := by
    have := vineWord_lt s P h 0
    unfold Claims.resLen
    omega
  rw [exec_sqtrim, hx, hy]
  refine ⟨u, step, st, ?_, ?_, same.outside a⟩
  · rw [same.resLen, resLen_of_vineIn holds]
    exact bits_setBits_high _ _ (short.trans bound)
  · rw [same.cmtLen, cmtLen_of_vineIn holds, ← vineIn_cmtLen]
    exact bits_setBits_high_low _ _

end

end Sys2Proof.Machine
end
section
/-! SUPPORT. A release record that the focused strand posts (R146, R155). -/

namespace Sys2Proof.Machine

/-- A queue lies in the page; its header and its next entry are among the lines of U. -/
structure QueueCovered (s : State) (P : TlbEntry) (U : Finset Nat) (q : Nat) : Prop where
  inside : Claims.Inside P q queueSize
  header : Covers P U q 64
  entry  : Covers P U (Claims.qNext s P q) 32

/-- A queue whose header is as before. -/
theorem QueueCovered.next {s t : State} {P : TlbEntry} {U : Finset Nat} {q : Nat} {l : List (Nat × Nat)} (c : QueueCovered s P U q) (a : Acts P s t l)
    (clear : Clear P l q 64) : QueueCovered t P U q := by
  have same : Claims.qNext t P q = Claims.qNext s P q := by
    unfold Claims.qNext Claims.qEntries
    rw [a.at_clear (clear.sub (a := q + 8) (by omega) (by omega)), a.at_clear (clear.sub (a := q + 16) (by omega) (by omega))]
  exact ⟨c.inside, c.header, by rw [same]; exact c.entry⟩

/-- The outcome of a push that puts no record in: the queue is full, or it is none. -/
def Refused (x : Except Stop (Option (VAddr × Nat))) : Prop := x = .ok none ∨ ∃ c v, x = .error (.trap c v)

section
variable {f : VineFor} {P : TlbEntry} {U : Finset Nat} {s : State} {w q : Nat} {rec : List Word}

theorem StrandReach.queueVa (r : StrandReach f P U s w) {o : Nat} (inside : Claims.Inside P q queueSize) (ho : o < queueSize) :
    (BitVec.ofNat 48 q + BitVec.ofNat 48 o).toNat = q + o := by
  obtain ⟨low, high⟩ := inside
  obtain ⟨_, _, _, top⟩ := r.place
  exact offset_toNat (by omega)

theorem StrandReach.on_queueMay (r : StrandReach f P U s w) {va : VAddr} (inside : Claims.Inside P va.toNat 1) (k : Access) :
    Act.on (queueMay f k va) s = (.ok (), s) := by
  obtain ⟨read, write, _⟩ := r.allowed
  have allows : pageAllows k true P = true := by simp [pageAllows, read, write]
  unfold queueMay
  rw [on_bind_ok (r.on_vineAt inside Nat.one_pos)]
  dsimp only
  rw [allows]
  rfl

/-- A dword of a queue's header. -/
theorem StrandReach.queueWord (r : StrandReach f P U s w) (inside : Claims.Inside P q queueSize) (header : Covers P U q 64) {o : Nat} (ho : o + 8 ≤ 64) :
    Reads f P U s (vineRead f (BitVec.ofNat 48 q + BitVec.ofNat 48 o) 8) (Claims.at_ s P (q + o) 8) w := by
  have place := r.queueVa inside (o := o) (by unfold queueSize; omega)
  obtain ⟨low, high⟩ := inside
  unfold queueSize at high
  have read := r.read (va := BitVec.ofNat 48 q + BitVec.ofNat 48 o) (k := 8) (by rw [place]; exact ⟨by omega, by omega⟩) (by omega)
    (by rw [place]; exact header.sub (by omega) (by omega))
  rwa [place] at read

/-- The RES fields of a header: one of them faults, or they are all 0. -/
theorem StrandReach.checkRes (inside : Claims.Inside P q queueSize) (header : Covers P U q 64) {l : List Nat} (small : ∀ k ∈ l, 8 * k + 8 ≤ 64)
    (r : StrandReach f P U s w) : (∃ v t, Act.on (forIn l PUnit.unit (checkRes f (BitVec.ofNat 48 q))) s = (.error (.trap 5 v), t)) ∨
      Reads f P U s (forIn l PUnit.unit (Machine.checkRes f (BitVec.ofNat 48 q))) PUnit.unit w := by
  induction l generalizing s with
  | nil => exact .inr (.pure r trivial)
  | cons k l ih =>
    obtain ⟨t, read, a, r', _⟩ := r.queueWord inside header (small k List.mem_cons_self)
    have step : Act.on (Machine.checkRes f (BitVec.ofNat 48 q) k PUnit.unit) s =
        (if Claims.at_ s P (q + 8 * k) 8 ≠ 0 then .error (.trap 5 (vaWord (BitVec.ofNat 48 q + BitVec.ofNat 48 (8 * k))))
          else .ok (.yield PUnit.unit), t) := by
      unfold Machine.checkRes
      rw [on_bind_ok read]
      split <;> rfl
    by_cases zero : Claims.at_ s P (q + 8 * k) 8 = 0
    · rw [if_neg (not_not.mpr zero)] at step
      rcases ih (fun j hj => small j (List.mem_cons_of_mem k hj)) r' with ⟨v, u, stops⟩ | ⟨u, run, b, rest⟩
      · exact .inl ⟨v, u, (on_forIn_cons step).trans stops⟩
      · exact .inr ⟨u, (on_forIn_cons step).trans run, a.trans b, rest⟩
    · rw [if_pos zero] at step
      exact .inl ⟨_, t, on_forIn_stops step⟩

/-- Words are written one after the other, to bytes whose lines are among U. -/
theorem StrandReach.putRecord {a : VAddr} {i : Nat} {ws : List Word} (r : StrandReach f P U s (w + ws.length)) (wf : Memory.wf s.mem = true)
    (inside : Claims.Inside P (a.toNat + 8 * i) (8 * ws.length)) (cov : Covers P U (a.toNat + 8 * i) (8 * ws.length)) :
    Does f P U s (forIn (ws.zipIdx i) PUnit.unit (putWord f a)) PUnit.unit [(a.toNat + 8 * i, 8 * ws.length)] w fun _ => True := by
  induction ws generalizing s i with
  | nil => exact .pure r trivial
  | cons x ws ih =>
    rw [List.length_cons] at r inside cov ⊢
    obtain ⟨low, high⟩ := inside
    obtain ⟨_, _, _, top⟩ := r.place
    have place : (a + BitVec.ofNat 48 (8 * i)).toNat = a.toNat + 8 * i := toNat_add_ofNat (by omega)
    obtain ⟨t, write, b, r', _⟩ := StrandReach.write (w := w + ws.length) r wf (va := a + BitVec.ofNat 48 (8 * i)) (k := 8)
      (by rw [place]; exact ⟨low, by omega⟩) (by omega) (by rw [place]; exact cov.sub le_rfl (by omega)) x.toNat
    rw [place] at b
    obtain ⟨u, rest, b', r'', _⟩ := ih (i := i + 1) r' (b.form wf) ⟨by omega, by omega⟩ (cov.sub (by omega) (by omega))
    have step : Act.on (putWord f a (x, i) PUnit.unit) s = (.ok (.yield PUnit.unit), t) := on_bind_ok write
    have first : Within [(a.toNat + 8 * i, 8)] [(a.toNat + 8 * i, 8 * (ws.length + 1))] :=
      .one List.mem_cons_self le_rfl (by dsimp only; omega)
    have others : Within [(a.toNat + 8 * (i + 1), 8 * ws.length)] [(a.toNat + 8 * i, 8 * (ws.length + 1))] :=
      .one List.mem_cons_self (by dsimp only; omega) (by dsimp only; omega)
    exact ⟨u, (on_forIn_cons step).trans rest, (b.widen first).trans (b'.widen others), r'', trivial⟩

/-- The record and the new TAIL are written. -/
def recordAt (f : VineFor) (q tl : Nat) (a : VAddr) (rec : List Word) : Act (Option (VAddr × Nat)) := do
  queueMay f .store a
  queueMay f .store (BitVec.ofNat 48 q + 8)
  forIn (rec ++ [w64 (tl + 1)]).zipIdx PUnit.unit (putWord f a)
  vineWrite f (BitVec.ofNat 48 q + 8) 8 ((tl + 1) % 2 ^ 64)
  pure (some (a, tl + 1))

theorem putQueued_eq (f : VineFor) (q hd tl n : Nat) (rec : List Word) : putQueued f q hd tl n rec =
    if n ≤ (tl + 2 ^ 64 - hd) % 2 ^ 64 then pure none else recordAt f q tl (BitVec.ofNat 48 q + BitVec.ofNat 48 (64 + 32 * (tl % n))) rec := rfl

theorem StrandReach.recordAt (r : StrandReach f P U s (w + 5)) (wf : Memory.wf s.mem = true) (inside : Claims.Inside P q queueSize)
    (header : Covers P U q 64) {a : VAddr} (first : q + 64 ≤ a.toNat) (last : a.toNat + 32 ≤ q + queueSize) (entry : Covers P U a.toNat 32)
    (three : rec.length = 3) (tl : Nat) :
    Does f P U s (recordAt f q tl a rec) (some (a, tl + 1)) [(q, queueSize)] w fun _ => True := by
  have tail : (BitVec.ofNat 48 q + BitVec.ofNat 48 8).toNat = q + 8 := r.queueVa inside (by unfold queueSize; omega)
  obtain ⟨low, high⟩ := inside
  have four : (rec ++ [w64 (tl + 1)]).length = 4 := by rw [List.length_append, three]; rfl
  have place : a.toNat + 8 * 0 = a.toNat := rfl
  have put := StrandReach.putRecord (w := w + 1) (a := a) (i := 0) (ws := rec ++ [w64 (tl + 1)]) (by rw [four]; exact r) wf
    (by rw [place, four]; exact ⟨by omega, by omega⟩) (by rw [place, four]; exact entry)
  rw [place, four] at put
  have entry : Within [(a.toNat, 8 * 4)] [(q, queueSize)] := .one List.mem_cons_self (by dsimp only; omega) (by dsimp only; omega)
  have count : Within [(q + 8, 8)] [(q, queueSize)] := .one List.mem_cons_self (by dsimp only; omega) (by dsimp only; omega)
  have rest : Does f P U s (do
      forIn (rec ++ [w64 (tl + 1)]).zipIdx PUnit.unit (putWord f a)
      vineWrite f (BitVec.ofNat 48 q + BitVec.ofNat 48 8) 8 ((tl + 1) % 2 ^ 64)
      pure (some (a, tl + 1))) (some (a, tl + 1)) [(q, queueSize)] w fun _ => True := by
    refine put.bind entry fun t b r' _ => ?_
    have write := r'.write (b.form wf) (va := BitVec.ofNat 48 q + BitVec.ofNat 48 8) (k := 8) (by rw [tail]; exact ⟨by omega, by omega⟩)
      (by omega) (by rw [tail]; exact header.sub (by omega) (by omega)) ((tl + 1) % 2 ^ 64)
    rw [tail] at write
    exact write.bind count fun u _ r'' _ => .pure r'' trivial
  obtain ⟨t, run, kept⟩ := rest
  refine ⟨t, ?_, kept⟩
  unfold Machine.recordAt
  rw [on_bind_ok (r.on_queueMay ⟨by omega, by omega⟩ .store)]
  exact (on_bind_ok (r.on_queueMay (va := BitVec.ofNat 48 q + BitVec.ofNat 48 8) (by rw [tail]; exact ⟨by omega, by omega⟩) .store)).trans run

/-- A queue whose header is valid takes the record, or is full. -/
theorem StrandReach.putQueued (r : StrandReach f P U s (w + 5)) (wf : Memory.wf s.mem = true) (c : QueueCovered s P U q) (three : rec.length = 3) (hd : Nat) :
    (∃ t, Act.on (putQueued f q hd (Claims.at_ s P (q + 8) 8) (Claims.qEntries s P q) rec) s = (.ok none, t)) ∨
    ∃ p, Does f P U s (Machine.putQueued f q hd (Claims.at_ s P (q + 8) 8) (Claims.qEntries s P q) rec) (some p) [(q, queueSize)] w fun _ => True := by
  obtain ⟨inside, header, entry⟩ := c
  obtain ⟨first, last⟩ := qNext_within s P q
  have slot : Claims.at_ s P (q + 8) 8 % Claims.qEntries s P q < Claims.qEntries s P q := Nat.mod_lt _ (qEntries_pos s P q)
  have most := qEntries_le s P q
  have place : (BitVec.ofNat 48 q + BitVec.ofNat 48 (64 + 32 * (Claims.at_ s P (q + 8) 8 % Claims.qEntries s P q))).toNat = Claims.qNext s P q := by
    rw [r.queueVa inside (by unfold queueSize; omega)]
    exact (Nat.add_assoc _ _ _).symm
  rw [putQueued_eq]
  by_cases full : Claims.qEntries s P q ≤ (Claims.at_ s P (q + 8) 8 + 2 ^ 64 - hd) % 2 ^ 64
  · rw [if_pos full]
    exact .inl ⟨s, rfl⟩
  · rw [if_neg full]
    exact .inr ⟨_, r.recordAt wf inside header (by rwa [place]) (by rw [place]; exact last) (by rwa [place]) three _⟩

/-- The header's HEAD, TAIL and LOG2N are read. -/
theorem StrandReach.queueHeader (r : StrandReach f P U s w) (c : QueueCovered s P U q) : ∃ t, Acts P s t [] ∧ StrandReach f P U t w ∧
    (32 ≤ Claims.at_ s P (q + 16) 8 → ∃ v, Act.on (pushRecord f q rec) s = (.error (.trap 5 v), t)) ∧
    (Claims.at_ s P (q + 16) 8 < 32 → Act.on (pushRecord f q rec) s = Act.on (do
      forIn [3, 4, 5, 6, 7] PUnit.unit (Machine.checkRes f (BitVec.ofNat 48 q))
      Machine.putQueued f q (Claims.at_ s P q 8) (Claims.at_ s P (q + 8) 8) (Claims.qEntries s P q) rec) t) := by
  have start : (BitVec.ofNat 48 q + BitVec.ofNat 48 0).toNat = q := r.queueVa c.inside (by unfold queueSize; omega)
  rw [BitVec.add_zero] at start
  obtain ⟨low, high⟩ := c.inside
  unfold queueSize at high
  have may := r.on_queueMay (va := BitVec.ofNat 48 q) (by rw [start]; exact ⟨low, by omega⟩) .load
  obtain ⟨t0, head, a0, r0, _⟩ := r.queueWord c.inside c.header (o := 0) (by omega)
  rw [BitVec.add_zero, Nat.add_zero] at head
  obtain ⟨t1, tail, a1, r1, _⟩ := r0.queueWord c.inside c.header (o := 8) (by omega)
  have a1 := a0.trans a1
  rw [a0.at_nil] at tail
  obtain ⟨t2, size, a2, r2, _⟩ := r1.queueWord c.inside c.header (o := 16) (by omega)
  rw [a1.at_nil] at size
  refine ⟨t2, a1.trans a2, r2, fun big => ⟨vaWord (BitVec.ofNat 48 q + 16), ?_⟩, fun fine => ?_⟩
  · unfold pushRecord
    dsimp only
    rw [on_bind_ok may, on_bind_ok head]
    refine (on_bind_ok tail).trans ((on_bind_ok size).trans ?_)
    rw [if_pos big]
    rfl
  · unfold pushRecord
    dsimp only
    rw [on_bind_ok may, on_bind_ok head]
    refine (on_bind_ok tail).trans ((on_bind_ok size).trans ?_)
    rw [if_neg (Nat.not_le.mpr fine)]
    rfl

theorem Acts.qEntries {t : State} (a : Acts P s t []) (q : Nat) : Claims.qEntries t P q = Claims.qEntries s P q := by
  unfold Claims.qEntries
  rw [a.at_nil]

/-- A push puts the record in, or is refused. -/
theorem StrandReach.pushRecord (r : StrandReach f P U s (w + 5)) (wf : Memory.wf s.mem = true) (c : QueueCovered s P U q) (three : rec.length = 3) :
    (∃ x t, Act.on (pushRecord f q rec) s = (x, t) ∧ Refused x) ∨
    ∃ p, Does f P U s (Machine.pushRecord f q rec) (some p) [(q, queueSize)] w fun _ => True := by
  obtain ⟨t, a, r', stops, goes⟩ := r.queueHeader (rec := rec) c
  by_cases big : 32 ≤ Claims.at_ s P (q + 16) 8
  · obtain ⟨v, run⟩ := stops big
    exact .inl ⟨_, t, run, .inr ⟨5, v, rfl⟩⟩
  have run := goes (Nat.lt_of_not_le big)
  rcases StrandReach.checkRes c.inside c.header (l := [3, 4, 5, 6, 7]) (by simp) r' with ⟨v, u, bad⟩ | ⟨u, checked, b, r'', _⟩
  · exact .inl ⟨_, u, run.trans (on_bind_error bad), .inr ⟨5, v, rfl⟩⟩
  have a := a.trans b
  have run := run.trans (on_bind_ok checked)
  have put := r''.putQueued (a.form wf) (c.next a (.nil P _ _)) three (Claims.at_ s P q 8)
  rw [a.at_nil, a.qEntries] at put
  rcases put with ⟨u', full⟩ | ⟨p, u', put, b', rest⟩
  · exact .inl ⟨_, u', run.trans full, .inl rfl⟩
  · exact .inr ⟨p, u', run.trans put, (a.widen (.nil _)).trans b', rest⟩

/-! ## The end of an action -/

/-- Run on s, the action answers v; the strand stands as before, and entry h of the table is d. -/
def Leaves {α : Type} (P : TlbEntry) (h : Nat) (s : State) (a : Act α) (v : α) (d : Vine) : Prop :=
  ∃ t, Act.on a s = (.ok v, t) ∧ t.st = s.st ∧ t.cycle = s.cycle ∧ vineIn t P h = d

section
variable {α β : Type} {a : Act α} {b : α → Act β} {v : α} {u : β} {h : Nat} {d : Vine} {k : List (Nat × Nat)} {Q : State → Prop}

theorem Does.leaves (does : Does f P U s a v k w Q)
    (next : ∀ t, Acts P s t k → StrandReach f P U t w → Q t → Leaves P h t (b v) u d) : Leaves P h s (a >>= b) u d := by
  obtain ⟨t, run, acts, reach, q⟩ := does
  obtain ⟨t', run', st, cycle, holds⟩ := next t acts reach q
  exact ⟨t', (on_bind_ok run).trans run', st.trans acts.st, cycle.trans acts.cycle, holds⟩

/-- Behind it only an answer. -/
theorem Leaves.answer (leaves : Leaves P h s a v d) (answers : ∀ t, Act.on (b v) t = (.ok u, t)) : Leaves P h s (a >>= b) u d := by
  obtain ⟨t, run, rest⟩ := leaves
  exact ⟨t, (on_bind_ok run).trans (answers t), rest⟩

end

/-- Where no record waits, a release record goes into its queue, with its event, or waits; no entry of the table apart from the queue changes. -/
theorem StrandReach.postRelease (r : StrandReach f P U s (w + 5)) (wf : Memory.wf s.mem = true) (idle : s.waitRel = [])
    (c : QueueCovered s P U (ctxRelq s s.st.ctx)) (three : rec.length = 3) {h : Nat}
    (clear : Clear P [(ctxRelq s s.st.ctx, queueSize)] (Claims.vineVa s h 0) 64) : Leaves P h s (postRelease f rec) () (vineIn s P h) := by
  have waits : Act.on (set { s with waitRel := s.waitRel ++ [(f.die, s.st.ctx, rec)] }) s =
    (.ok (), { s with waitRel := s.waitRel ++ [(f.die, s.st.ctx, rec)] }) := rfl
  have behind : ¬ (s.waitRel.any fun x => decide (x.2.1 = f.ctx)) = true := by rw [idle]; exact Bool.false_ne_true
  unfold Leaves Machine.postRelease
  rw [on_bind_ok (on_get s)]
  dsimp only
  rw [if_neg behind, r.ctx_eq]
  rcases r.pushRecord wf c three with ⟨x, t, run, refused⟩ | ⟨⟨a, n⟩, t, run, acts, _⟩
  · rw [run]
    rcases refused with rfl | ⟨c, v, rfl⟩
    · exact ⟨_, waits, rfl, rfl, SameStructures.vineIn ⟨rfl, rfl, rfl⟩ P h⟩
    · exact ⟨_, waits, rfl, rfl, SameStructures.vineIn ⟨rfl, rfl, rfl⟩ P h⟩
  · rw [run]
    have posted := recordEvent_only t 0x11 s.st.ctx rec a
    refine ⟨recordEvent t 0x11 s.st.ctx rec a, rfl, by rw [posted]; exact acts.st, by rw [posted]; exact acts.cycle, ?_⟩
    rw [SameStructures.vineIn (s := t) (by rw [posted]; exact ⟨rfl, rfl, rfl⟩), acts.vineIn clear]

end

end Sys2Proof.Machine
end
section
/-! SQDROP (R154) of a vine that stands alone, and the whole of O22. -/

namespace Sys2Proof.Machine

theorem exec_sqdrop (x : XReg) (s : State) : exec (.sqdrop x) s = scalar 4 (do
    release .dv
    vineAtomic (dropVine (vineSelf s) (handleOf (s.readX x)))) s := rfl

/-- Finish of a vine without pages or a parent. -/
theorem finishVine_alone {v : Vine} (empty : v.mapLen = 0) (alone : v.parent = noParent) (f : VineFor) (n : Nat) : finishVine f (n + 1) v = (do
    let _ ← vinePool f v
    writeWindow f v (← window f v) 0
    writeVine f v (v.setState vineFree)
    apply allPinsDue
    postRelease f (recordWords 0x09 v.h v.pool 0 0 0)
    pure none) := by
  unfold finishVine
  simp only [if_pos alone, empty]
  rfl

theorem bits_setBits_state (v : Word) : bits (setBits v 0 3 vineFree) 0 3 = 0 := by
  have lt := v.isLt
  unfold bits setBits vineFree bits
  rw [BitVec.toNat_ofNat]
  omega

/-- What a drop may touch: the descriptor, the pool, the window, and the queue's header and next entry. -/
def vineDropLines (s : State) (P : TlbEntry) (h q : Nat) : List (Nat × Nat) :=
  [(Claims.vineVa s h 0, 64), (Claims.vineVa s (Claims.poolNo s P h) 0, 64), (Claims.overlay s P h, 512), (q, 64), (Claims.qNext s P q, 32)]

theorem vineDropLines_few (s : State) (P : TlbEntry) (h q : Nat) : (footprint P (vineDropLines s P h q)).card + (5 + 7 + 64) ≤ 8192 := by
  have lines := card_footprint P (vineDropLines s P h q)
  simp only [vineDropLines, List.map_cons, List.map_nil, List.sum_cons, List.sum_nil] at lines ⊢
  omega

/-- Descriptor, window and queue lie apart. -/
theorem vineDrop_clear {s : State} {P : TlbEntry} {h b q : Nat} (v : Claims.OpenVine s P h b) (start : P.vpage ≤ q)
    (apart : Claims.Apart [Claims.descRange s h, Claims.mapRange s P h, (q, queueSize)]) :
    Clear P [(Claims.overlay s P h, 512)] (Claims.vineVa s h 0) 64 ∧ Clear P [(Claims.overlay s P h, 512)] q 64 ∧
      Clear P [Claims.descRange s h] q 64 ∧ Clear P [(q, queueSize)] (Claims.vineVa s h 0) 64 := by
  obtain ⟨front, _⟩ := v.window
  obtain ⟨left, _⟩ := v.vine.inside
  have first := apart_map (List.Pairwise.sublist (List.sublist_append_left [_, _] [_]) apart)
  have last := apart_last apart
  unfold Claims.descRange Claims.mapRange queueSize at last
  dsimp only at last
  exact ⟨.cons left front (by dsimp only; omega) (.nil P _ _), .cons start front (by dsimp only; omega) (.nil P _ _),
    .cons start left (by unfold Claims.descRange; dsimp only; omega) (.nil P _ _), .cons left start (by unfold queueSize; dsimp only; omega) (.nil P _ _)⟩

section
variable {f : VineFor} {P : TlbEntry} {s : State} {w h b q : Nat} (v : Claims.OpenVine s P h b) (wf : Memory.wf s.mem = true) (idle : s.waitRel = [])
  (empty : Claims.mapLen s P h = 0) (alone : Claims.vineWord s P h 1 / 2 ^ 32 = 0xFFFFFFFF) (queue : ctxRelq s s.st.ctx = q)
  (inside : Claims.Inside P q queueSize) (apart : Claims.Apart [Claims.descRange s h, Claims.mapRange s P h, (q, queueSize)])
include v wf idle empty alone queue inside apart

/-- An OPEN vine without pages, children or parent becomes FREE. -/
theorem StrandReach.finishVine {t : State} (a : Acts P s t []) (r : StrandReach f P (footprint P (vineDropLines s P h q)) t (w + 5 + 7 + 64)) (n : Nat) :
    Leaves P h t (finishVine f (n + 1) (vineIn s P h)) none ((vineIn s P h).setState vineFree) := by
  have lies := vineIn_overlay v.vine
  obtain ⟨front, back⟩ := v.window
  have covers {x k : Nat} (mem : (x, k) ∈ vineDropLines s P h q) : Covers P (footprint P (vineDropLines s P h q)) x k := covers_footprint mem
  obtain ⟨slots, slots', desc, queued⟩ := vineDrop_clear v inside.1 apart
  have windowInside : Claims.Inside P (vineIn s P h).overlay.toNat 512 := by rw [lies]; exact ⟨front, by omega⟩
  have windowCovers : Covers P (footprint P (vineDropLines s P h q)) (vineIn s P h).overlay.toNat 512 := by rw [lies]; exact covers (by simp [vineDropLines])
  rw [finishVine_alone ((vineIn_mapLen s P h).trans empty) ((vineIn_parent s P h).trans alone)]
  refine Does.leaves (StrandReach.vinePool a r v (covers (by simp [vineDropLines]))) fun t1 a1 r1 _ => ?_
  have a1 := a.trans a1
  refine Does.leaves (r1.window (d := vineIn s P h) windowInside windowCovers) fun t2 a2 r2 _ => ?_
  have write := r2.writeWindow (w := w + 5 + 7) (d := vineIn s P h) (new := 0) ((a1.trans a2).form wf) windowInside windowCovers (a2.at_nil _ _)
    (by apply Nat.two_pow_pos)
  have a2 := a1.trans a2
  rw [lies] at write ⊢
  refine Does.leaves write fun t3 a3 r3 _ => ?_
  have set := r3.writeVine (w := w + 5) (new := (vineIn s P h).setState vineFree) (a3.form (a2.form wf))
    (((EntryCovered.mk v.vine.inside (covers (by simp [vineDropLines]))).next a2).next a3)
    ((a3.vineIn (by rw [a2.vineVa]; exact slots)).trans (a2.vineIn (.nil P _ _))) rfl rfl rfl rfl
  rw [a3.descRange, a2.descRange] at set
  refine Does.leaves set fun t4 a4 r4 holds => ?_
  refine Does.leaves (Does.aside (g := allPinsDue) (allPinsDue_aside t4) r4) fun t5 a5 r5 _ => ?_
  have relq : ctxRelq t5 t5.st.ctx = q := by rw [a5.relq, a4.relq, a3.relq, a2.relq, queue]
  have waits : t5.waitRel = [] := by rw [a5.rel, a4.rel, a3.rel, a2.rel, idle]
  have covered : QueueCovered s P (footprint P (vineDropLines s P h q)) q := ⟨inside, covers (by simp [vineDropLines]), covers (by simp [vineDropLines])⟩
  have post := r5.postRelease (h := h) (rec := recordWords 0x09 (vineIn s P h).h (vineIn s P h).pool 0 0 0) (a5.form (a4.form (a3.form (a2.form wf)))) waits
    (by rw [relq]; exact (((covered.next a2 (.nil P _ _)).next a3 slots').next a4 desc).next a5 (.nil P _ _)) rfl
    (by rw [relq, a5.vineVa, a4.vineVa, a3.vineVa, a2.vineVa]; exact queued)
  rw [a5.vineIn (.nil P _ _), holds] at post
  exact post.answer fun _ => rfl

theorem StrandReach.dropVine (r : StrandReach f P (footprint P (vineDropLines s P h q)) s (w + 5 + 7 + 64)) (childless : Claims.vineWord s P h 4 / 2 ^ 48 = 0) :
    Leaves P h s (dropVine f h) () ((vineIn s P h).setState vineFree) := by
  have covers {x k : Nat} (mem : (x, k) ∈ vineDropLines s P h q) : Covers P (footprint P (vineDropLines s P h q)) x k := covers_footprint mem
  refine Does.leaves (r.openVine v (covers (by simp [vineDropLines]))) fun t a r1 _ => ?_
  rw [vineIn_state, v.open_, if_neg (show ¬ 1 ≠ vineOpen from not_not.mpr rfl)]
  refine Does.leaves (r1.releaseRoom (a.rel.trans idle)) fun t1 a1 r2 _ => ?_
  have a := a.trans a1
  refine Does.leaves (StrandReach.vinePool a r2 v (covers (by simp [vineDropLines]))) fun t2 a2 r3 _ => ?_
  have wake := Does.aside (g := fun t => wakeVine t f.ctx h [4, 5, 6, 7]) (wakeVine_aside r3.park _ _ (by decide)) r3
  refine Does.leaves wake fun t3 a3 r4 _ => ?_
  have a := (a.trans a2).trans a3
  rw [vineIn_mapLen, empty, vineIn_children, childless]
  exact (StrandReach.finishVine v wf idle empty alone queue inside apart a r4 5).answer fun _ => rfl

end

section
variable {P : TlbEntry} {s : State} {x : XReg} {h b : Nat} (hx : handleOf (s.readX x) = h) (space : Claims.VineSpace s P) (v : Claims.OpenVine s P h b)
  (idle : s.waitRel = [])
include hx space v idle

theorem exec_sqdrop_frees (wf : Memory.wf s.mem = true) (released : Claims.ReleasedAt s .dv) (empty : Claims.mapLen s P h = 0)
    (childless : Claims.vineWord s P h 4 / 2 ^ 48 = 0) (alone : Claims.vineWord s P h 1 / 2 ^ 32 = 0xFFFFFFFF)
    (inside : Claims.Inside P (ctxRelq s s.st.ctx) queueSize)
    (apart : Claims.Apart [Claims.descRange s h, Claims.mapRange s P h, (ctxRelq s s.st.ctx, queueSize)]) :
    ∃ t, exec (.sqdrop x) s = .next t ∧ t.st = (s.retire 4).st ∧ Claims.vineStateOf t P h = 0 := by
  have r := StrandReach.of_space (w := 0 + 5 + 7 + 64) space (by have := vineDropLines_few s P h (ctxRelq s s.st.ctx); omega)
  obtain ⟨t, run, st, cycle, holds⟩ := StrandReach.dropVine v wf idle empty alone rfl inside apart r childless
  rw [exec_sqdrop, hx]
  refine ⟨_, scalar_ok (on_released released (on_vineAtomic run)), by rw [State.retire, State.jump, st, cycle]; rfl, ?_⟩
  have same : SameStructures t (t.retire 4) := ⟨rfl, rfl, rfl⟩
  rw [vineStateOf_of_vineIn ((same.vineIn P h).trans holds)]
  exact bits_setBits_state _

end

theorem vineTrimDrop : Claims.VineTrimDrop := by
  intro s P d x y b h n C R space canonical v idle _ near apart
  have hx : handleOf (s.readX x) = h := handleOf_eq _
  have hy : bits (s.readX y) 0 32 = n := handleOf_eq _
  exact ⟨exec_sqtrim_nothing hx hy space v idle, fun new low start short clear least small unmapped =>
    exec_sqtrim_trims hx hy space v idle canonical.mem apart small unmapped start short near low clear least,
    exec_sqdrop_frees hx space v idle canonical.mem⟩

/-- Settles O22: the forms of SQOPEN and SQFORK, and of SQTRIM and SQDROP. -/
theorem vineLives : Obligations.VineLives := by
  unfold Obligations.VineLives
  exact ⟨vineOpenFork, vineTrimDrop⟩

end Sys2Proof.Machine
end
